-- ==== Sys2Proof/Word.lean ====
section
/-! DEFINITION. The word types of the model: bytes, the 64-bit Phase of R8, status codes, and a cell of memory. -/

namespace Sys2Proof

/-- One byte; multi-byte structures are little-endian (R5). -/
abbrev Byte := BitVec 8

/-- The 64-bit Phase of R8 and R26: step in [63:28], layer in [27:16], tick in [15:0]. -/
abbrev Phase := BitVec 64

/-- The status codes of R132; no other code exists (R11). -/
inductive Status where
  | ok | okFallback | notReady
  | moved | staleGen | noWindow | revoked | duplicate
  | contractBreach | busyConflict
  | faultTorndown | replay
  | unsupported | accessDenied | integrity
  deriving DecidableEq, Repr

end Sys2Proof
end

