-- ==== Sys2Proof/Syntax.lean ====
section
/-! DEFINITION. The commands of the block: one constructor of `Instr` per row of the table of operations and events,
with the data each of them carries. Every command carries first `t`, the reading of the node's local timer (R34, units of
0.25 ns) at which it arrives or happens; log entry 1. -/

namespace Sys2Proof

/-- A Phase Mark as it arrives (R30). -/
structure Mark where
  phase  : Phase
  mtime  : Nat
  seq    : BitVec 32
  resid  : Nat
  period : Nat
  master : Nat
  term   : BitVec 16
  typ    : Nat
  hops   : Nat
  deriving DecidableEq, Repr

/-- Where a request comes from: a window of the fabric, whose COMP admits it (R85), or a doorbell of a virtual
function with its mailbox and result region (R477). `node` is the requester of a fabric request. -/
inductive Source where
  | fabric (job comp node : Nat) (epoch : BitVec 16) (mtag : BitVec 32)
  | doorbell (vf mbx : Nat)
  deriving DecidableEq, Repr

/-- The request envelope of R105. -/
structure Envelope where
  kind     : Nat
  dl       : Bool
  blen     : Nat
  tag      : BitVec 32
  deadline : Phase
  ctx      : Nat
  rnode    : Nat
  rwin     : Nat
  rwgen    : BitVec 16
  roff     : Nat
  foff     : Nat
  fval     : BitVec 56
  deriving DecidableEq, Repr

/-- The 64-byte head of an ATTEND body (R109). `phi = 0xFFFF_FFFF` stands for PAGES at dispatch. -/
structure AttendHead where
  mode    : Nat
  sieve   : Bool
  prescan : Bool
  fb      : Bool
  nstr    : Nat
  qfmt    : Nat
  npos    : Nat
  nhead   : Nat
  split   : Nat
  nsplit  : Nat
  qpos0   : Nat
  horizon : Nat
  slide   : Nat
  scl     : BitVec 32
  budget  : Nat
  fbudget : Nat
  recent  : Nat
  plo     : Nat
  phi     : Nat
  silt    : Bool
  deriving DecidableEq, Repr

/-- A stream section (R111): the stream, its repeated key width, and the query rows as element codes of QFMT. -/
structure QSection where
  stream : Nat
  dk     : Nat
  rows   : List (List Nat)
  deriving DecidableEq, Repr

/-- An ATTEND request: envelope, head, block mask (R110) and stream sections. -/
structure AttendReq where
  env  : Envelope
  head : AttendHead
  mask : List (BitVec 32)
  secs : List QSection
  deriving DecidableEq, Repr

/-- One token record of the silt format (R87): element codes of the K and V rows and their E8M0 scales. -/
structure Token where
  k  : List Nat
  ks : List Nat
  v  : List Nat
  vs : List Nat
  deriving DecidableEq, Repr

/-- The head of a context operation (R83) with the token records of its payload, or the bytes of them. -/
structure CtxReq where
  env    : Envelope
  op     : Nat
  flags  : Nat
  count  : Nat
  ctx    : Nat
  stream : Nat
  arg0   : Nat
  arg1   : Nat
  arg2   : Nat
  arg3   : Nat
  toks   : List Token
  raw    : Option (List Byte) := none   -- the token records as bytes, of a request that came as bytes
  deriving DecidableEq, Repr

/-- One query of a SEARCH request (R163): its vector as element codes of QFMT, and the sketch supplied with QSK = 1. -/
structure SQuery where
  vec    : List Nat
  sketch : Nat
  deriving DecidableEq, Repr

/-- A SEARCH request with OP 0x01 (R163). -/
structure SearchReq where
  env    : Envelope
  metric : Nat
  qsk    : Bool
  nq     : Nat
  qfmt   : Nat
  k      : Nat
  rr     : Nat
  slo    : Nat
  shi    : Nat
  hmax   : Nat
  qs     : List SQuery
  deriving DecidableEq, Repr

/-- A segment named in CORPUS_CREATE (R160). -/
structure SegSpec where
  cap  : Nat
  tier : Nat
  ways : Nat
  deriving DecidableEq, Repr

/-- A record-area entry (R158). -/
structure Rec where
  id  : Nat
  vec : List Nat
  deriving DecidableEq, Repr

/-- What a best-effort quantum works on (R60 and the tasks it names). -/
inductive Quantum where
  | tampMove (job ctx stream page : Nat)
  | tampFold (comp entry : Nat)
  | reclaim (comp channel : Nat)
  | demote (comp : Nat)
  | promote (job ctx stream page : Nat)
  | scrub (npa : Nat)
  | rebuild (comp slot : Nat)
  | relocate (comp : Nat)
  | request (id sec : Nat)
  deriving DecidableEq, Repr

/-- An entry of a hint ring (R248). -/
structure Hint where
  op     : Nat
  ctx    : Nat
  stream : Nat
  all    : Bool
  first  : Nat
  count  : Nat
  ready  : Phase
  deriving DecidableEq, Repr

/-- The outcome of the check of a codeword: of a transfer (R212), or of a link (R266). -/
inductive Ecc where
  | clean | corrected | uncorrectable
  deriving DecidableEq, Repr

/-- A request raised at a pseudo-channel arbiter (R202): its port, raise and deadline Phases, the bank-local address
and, for a write, the bytes written. -/
structure ArbReq where
  port : Nat
  r    : Phase
  d    : Option Phase
  npa  : Nat
  wr   : Option (List Byte)
  len  : Nat
  deriving DecidableEq, Repr

/-- What the parameter page of a flash target shows (R233, R235). -/
structure TargetPage where
  data   : Nat
  spare  : Nat
  nvddr3 : Bool
  luns   : Nat
  planes : Nat
  deriving DecidableEq, Repr

/-- A block found programmed at flash power-up, with the erase count of its metadata (R238, R519). -/
structure BlockScan where
  block  : Nat
  erases : Nat
  deriving DecidableEq, Repr

/-- The work of an NMU operation (R213): a grain chunk of a section of an attention request (R146), a segment of a search (R169), a page of a
context (R100), or a 64-byte block to XOR into a parity frame (R408). -/
inductive NmuOp where
  | grainScan (id sec chunk : Nat)
  | sketchScan (id seg : Nat)
  | tamp (job ctx stream page : Nat)
  | parity (npa : Nat) (data : List Byte)
  deriving DecidableEq, Repr

/-- A request for NMU compute (R214): its channel, its raise time and deadline (R202), the banks it would hold and its work. -/
structure NmuReq where
  ch    : Nat
  r     : Phase
  d     : Option Phase
  banks : List Nat
  op    : NmuOp
  deriving DecidableEq, Repr

/-- What a request for NMU compute asks (R202, R214): its work, its raise time and deadline, and the requests of the other channels of the
W-stack that stand with it. -/
structure NmuAsk where
  op   : NmuOp
  r    : Phase
  d    : Option Phase
  also : List NmuReq
  deriving DecidableEq, Repr

/-- A LUN timeout (R241): whether it is the second of its operation, and the chunk that the operation was for. -/
structure LunTry where
  again  : Bool
  extent : Nat
  chunk  : Nat
  deriving DecidableEq, Repr

/-- A debug access to HBM or tile SRAM through the test access port (R198, R205): a read of `len` bytes, or a write. -/
structure DebugAccess where
  npa : Nat
  len : Nat
  wr  : Option (List Byte)
  deriving DecidableEq, Repr

/-- A private instruction of the test access port (R532), and the debug access to memory that it makes, if any. -/
structure PrivateOp where
  opcode : Nat
  access : Option DebugAccess
  deriving DecidableEq, Repr

/-- How a flash chunk read ended at the channel (R236, R241): of each of its four codewords the bits that needed correction, or none where
there is no telling; whether the other chunks of its stripe are readable; whether the tag verified. -/
structure ChunkRead where
  words    : List (Option Nat)
  stripeOk : Bool
  tagOk    : Bool
  deriving DecidableEq, Repr

/-- Where a flit travelled (R266): its slot in its group, and what FEC found in the codewords of the group, one on each active lane in order,
or four in succession on the one lane of fallow. -/
structure FlitPlace where
  slot  : Nat
  codes : List Ecc
  deriving DecidableEq, Repr

/-- A data or idle flit (R268); the body is carried as bytes. -/
structure Flit where
  fseq : BitVec 12
  ft   : Nat
  vl   : Nat
  som  : Bool
  eom  : Bool
  blen : Nat
  dest : Nat
  src  : Nat
  plen : Nat
  body : List Byte
  deriving DecidableEq, Repr

/-- A record slot of a control flit (R270). -/
inductive LinkRec where
  | empty
  | mark (m : Mark)
  | markCopy (m : Mark)
  | delayReq (time : Nat)
  | delayRsp (time turn : Nat)
  | note
  deriving DecidableEq, Repr

/-- A control flit (R270). -/
structure CtlFlit where
  ackseq  : BitVec 12
  nak     : Bool
  fallow  : Bool
  drained : Bool
  cred    : List (BitVec 16)
  recs    : List LinkRec
  deriving DecidableEq, Repr

/-- A message segment (R294). `vl` is the VL it arrives on, `opc` the OPC byte; the payload is the plaintext. -/
structure Segment where
  vl    : Nat
  opc   : Nat
  flag  : Bool
  ce    : Bool
  dom   : Bool
  conn  : Nat
  job   : Nat
  osrc  : Nat
  fdest : Nat
  rcid  : Nat
  kgen  : BitVec 16
  cseq  : BitVec 32
  mlen  : Nat
  off   : Nat
  win   : Nat
  wgen  : BitVec 16
  epoch : BitVec 16
  slen  : Nat
  mtag  : BitVec 32
  addr  : Nat
  data  : List Byte
  deriving DecidableEq, Repr

/-- A response as it arrives (R297): its nodes, the request it answers, its status, hint and data, and what its header echoes of the
request. -/
structure Response where
  osrc   : Nat
  fdest  : Nat
  rcid   : Nat
  conn   : Nat
  cseq   : BitVec 32
  status : Status
  hint   : Option Nat
  ce     : Bool
  data   : List Byte
  rd     : Bool := false       -- READ_DATA, not RESP
  dom    : Bool := false       -- SFLAGS.DOM
  job    : Nat := 0            -- echoed from the request, as the next five fields
  kgen   : BitVec 16 := 0
  win    : Nat := 0
  wgen   : BitVec 16 := 0
  epoch  : BitVec 16 := 0
  mtag   : BitVec 32 := 0
  deriving DecidableEq, Repr

/-- An Ethernet frame as a gateway interface takes it (R285): which of the two interfaces, its bytes and its tags, its EtherType, and of an IP packet
whether it has options or extension headers, whether it is a fragment, its protocol, its UDP ports, whether its checksums hold, and whether
MAC and IP are the interface's own and its peer's, as PD 0x4006.pp gives them in a form of its own. -/
structure GwFrame where
  iface    : Nat
  bytes    : Nat
  tags     : Nat
  ether    : Nat
  options  : Bool
  fragment : Bool
  proto    : Nat
  sport    : Nat
  dport    : Nat
  sums     : Bool
  mine     : Bool
  deriving DecidableEq, Repr

/-- A packet inside a gateway datagram (R286), by its segment. -/
structure GwDatagram where
  ver  : Nat
  vl   : Nat
  src  : Nat
  dst  : Nat
  gseq : BitVec 32
  pkts : List Segment
  mark : Option Mark
  deriving DecidableEq, Repr

/-- A keys, model or remove blob after its decryption (R389). -/
structure KeyBlob where
  typ      : Nat
  mode     : Nat
  gen      : BitVec 16
  model    : Nat
  job      : Nat
  comp     : Nat
  activate : Nat
  digestOk : Bool
  authOk   : Bool
  ends     : List Nat
  deriving DecidableEq, Repr

/-- The session and message facts of an SPDM request (R386). -/
structure Spdm where
  slot    : Nat
  session : Nat
  valid   : Bool
  deriving DecidableEq, Repr

/-- A fault notice (R417). -/
structure Notice where
  phase : Phase
  node  : Nat
  subj  : Nat
  scope : Nat
  comp  : Option Nat
  ring  : Nat
  rank  : Nat
  deriving DecidableEq, Repr

/-- A ROLE notice (R419). -/
structure Role where
  phase   : Phase
  ring    : Nat
  rank    : Nat
  lostC   : Nat
  standC  : Nat
  lost    : Nat
  standby : Nat
  deriving DecidableEq, Repr

/-- A ring command (R425). -/
structure RingCmd where
  rank   : Nat
  node   : Nat
  frame  : Nat
  offset : Nat
  ctx    : Nat
  stream : Nat
  page   : Nat
  piece  : Nat
  deriving DecidableEq, Repr

/-- The transports of R497. -/
inductive Transport where
  | ethernet | mctpPcie | mctpSmbus | pfMailbox | vfDoe (vf : Nat) | fabric (node : Nat)
  deriving DecidableEq, Repr

/-- The principals of R494. -/
inductive Principal where
  | keeper | operator | composition (c : Nat) | pub
  deriving DecidableEq, Repr

/-- A request item of the Directory protocol (R500). -/
structure PdItem where
  index  : Nat
  sub    : Nat
  iop    : Nat
  seg    : Bool
  last   : Bool
  offset : Nat
  len    : Nat
  value  : List Byte
  deriving DecidableEq, Repr

/-- A Directory message (R499); `plenOk` says whether PLEN agrees with the items, `authOk` whether AUTH verifies
under generation `kgen`, `src` its source address or endpoint. -/
structure PdMsg where
  ver    : Nat
  dir    : Nat
  nitem  : Nat
  authf  : Bool
  seq    : BitVec 32
  kgen   : BitVec 16
  bytes  : Nat
  plenOk : Bool
  authOk : Bool
  src    : Nat
  items  : List PdItem
  deriving DecidableEq, Repr

/-- The function of the host interface that an access goes through: 0 the PF, n the VF n. -/
abbrev Fn := Nat

/-- A submission entry (R476) and how its reads completed (R478). -/
structure SubEntry where
  req    : Nat
  rlen   : Nat
  irq    : Bool
  res    : Nat
  reslen : Nat
  readOk : Bool
  deriving DecidableEq, Repr

/-- The body of a fetched request, by its KIND (R105). -/
inductive ReqBody where
  | attend (r : AttendReq)
  | context (r : CtxReq)
  | search (r : SearchReq)
  | corpusCreate (env : Envelope) (skb vfmt dim seed nseg : Nat) (segs : List SegSpec)
  | recordAppend (env : Envelope) (seg count : Nat) (sk : Bool) (recs : List Rec) (sketches : List Nat)
  | recordDelete (env : Envelope) (seg first count : Nat)
  | corpusDelete (env : Envelope)
  | otherOp (env : Envelope) (op : Nat)
  deriving DecidableEq, Repr

/-- What a shadow compares (R433). -/
structure ShadowBlock where
  req   : Nat
  sec   : Nat
  crc   : BitVec 64
  step  : Nat
  last  : Bool
  deriving DecidableEq, Repr

/-- The commands: one constructor per row of the table, in its order. -/
inductive Instr where
  -- Phase time (02)
  | markLayer (t port : Nat) (m : Mark)
  | markStep (t port : Nat) (m : Mark)
  | markHold (t port : Nat) (m : Mark)
  | markResume (t port : Nat) (m : Mark)
  | markSync (t port : Nat) (m : Mark)
  | masterLayerBoundary (t : Nat)
  | holdSyncMark (t : Nat)
  | layerMarkLate (t : Nat)
  | tickSaturation (t : Nat)
  | markWaitTimeout (t : Nat)
  | jobStart (t : Nat) (term : BitVec 16) (job step : Nat)
  | claim (t : Nat) (term : BitVec 16) (node job : Nat)
  | claimWindowExpiry (t : Nat)
  | hostMark (t : Nat) (hi : BitVec 32)
  | phsNowRead (t : Nat)
  | stepCompleteReport (t : Nat)
  | stepCompleteReceive (t step node breaches : Nat) (fallback : Bool)
  | barrierTimeout (t : Nat)
  -- slot tables (02)
  | scheduleGo (t : Nat) (stepHi : Nat)
  | scheduleCancel (t : Nat)
  | scheduleValidationDone (t : Nat)
  | slotStart (t slot : Nat)
  | slotEnd (t slot : Nat)
  | requestDispatch (t id sec : Nat)
  | alphaUpdate (t cls : Nat)
  | bestEffortQuantumStart (t : Nat) (q : Quantum)
  | coarseningLatch (t : Nat)
  -- attention, contexts, silt (03, 04)
  | attendRequest (t : Nat) (src : Source) (r : AttendReq)
  | attentionComplete (t id sec : Nat)
  | ctxCreate (t : Nat) (src : Source) (r : CtxReq)
  | ctxFork (t : Nat) (src : Source) (r : CtxReq)
  | ctxDelete (t : Nat) (src : Source) (r : CtxReq)
  | siltAppend (t : Nat) (src : Source) (r : CtxReq)
  | appendAfterRelease (t ctx stream : Nat)
  | siltMirrorAck (t ctx stream : Nat)
  | siltRelease (t ctx stream : Nat)
  | pageMark (t : Nat) (src : Source) (r : CtxReq)
  | pageRewrite (t : Nat) (src : Source) (r : CtxReq)
  -- retrieval search (06)
  | search (t : Nat) (src : Source) (r : SearchReq)
  | searchComplete (t id : Nat)
  | corpusCreate (t : Nat) (src : Source) (env : Envelope) (skb vfmt dim seed nseg : Nat) (segs : List SegSpec)
  | recordAppend (t : Nat) (src : Source) (env : Envelope) (seg count : Nat) (sk : Bool) (recs : List Rec)
      (sketches : List Nat)
  | recordDelete (t : Nat) (src : Source) (env : Envelope) (seg first count : Nat)
  | corpusDelete (t : Nat) (src : Source) (env : Envelope)
  | corpusStorageFree (t job ctx : Nat)
  -- HBM, NMUs, page cache, associative directory (08)
  | nmuGrantRequest (t w ch : Nat) (banks : List Nat) (op : NmuAsk)
  | nmuClaimComplete (t w ch : Nat)
  | nmuComputeComplete (t w ch : Nat) (fixed : List Nat)
  | nmuDrainComplete (t w ch : Nat)
  | nmuAbort (t w ch : Nat) (ecc : Bool)
  | hbmTransfer (t g : Nat) (raise : List ArbReq) (withdraw : List Nat) (errs : List Nat)
  | refreshSlot (t g : Nat)
  | pcaWaymaskWrite (t q c : Nat) (v : BitVec 32)
  | directoryInsert (t cls key : Nat) (vals : List (BitVec 64))
  | directoryDelete (t cls key : Nat)
  | blockMoveComplete (t bank : Nat)
  | directoryThrottleSample (t : Nat) (temp : Int)
  | adirBankcfgWrite (t n : Nat) (v : BitVec 32)
  | nmuGovWrite (t w : Nat) (v : BitVec 32)
  -- tiers (09)
  | flashChunkReadComplete (t ch extent chunk : Nat) (r : ChunkRead)
  | lunTimeout (t ch target lun : Nat) (again : LunTry)
  | zqCalibrationShort (t ch : Nat)
  | leaseEnd (t nn : Nat)
  | leaseRelease (t nn : Nat)
  | leaseForcedEnd (t nn : Nat)
  | tierHintDb (t c : Nat) (v : BitVec 32)
  | pin (t c : Nat) (h : Hint)
  | unpin (t c : Nat) (h : Hint)
  | prefetch (t c : Nat) (h : Hint)
  | dormant (t c : Nat) (h : Hint)
  | dormantComplete (t job ctx : Nat)
  | wake (t c : Nat) (h : Hint)
  | recallStart (t id : Nat)
  | recallComplete (t id : Nat)
  | moveComplete (t id : Nat)
  | weightStreamDone (t nn : Nat)
  -- fabric links (10)
  | dataFlitReceive (t port : Nat) (g : FlitPlace) (crc : BitVec 32) (f : Flit)
  | controlFlitReceive (t port : Nat) (codes : List Ecc) (crc : BitVec 32) (f : CtlFlit)
  | replayTimeout (t port : Nat)
  | delayReq (t port time : Nat)
  | delayRsp (t port time turn : Nat)
  | portEnable (t port : Nat) (v : BitVec 32)
  | retrain (t port : Nat) (v : BitVec 32)
  | trainingComplete (t port peer : Nat) (failedLanes : List Nat)
  | retrainAttemptFailed (t port : Nat)
  | trainingTimeout (t port : Nat)
  | laneAlignmentLoss (t port lane : Nat) (forGood : Bool)
  | fecLimit (t port : Nat)
  | fallowEnter (t port : Nat)
  | fallowExit (t port : Nat)
  | gatewayDatagramReceive (t port : Nat) (fr : GwFrame) (d : GwDatagram)
  | gatewayDatagramSend (t group : Nat)
  | gatewayResendTimeout (t conn : Nat) (cseq : BitVec 32)
  | faultInjectCtlWrite (t port : Nat) (v : BitVec 32)
  | faultInjectSeedWrite (t port : Nat) (v : BitVec 32)
  -- remote operations (11)
  | read (t : Nat) (tagOk : Bool) (g : Segment)
  | write (t : Nat) (tagOk : Bool) (g : Segment)
  | add64 (t : Nat) (tagOk : Bool) (g : Segment)
  | addf32 (t : Nat) (tagOk : Bool) (g : Segment)
  | xor (t : Nat) (tagOk : Bool) (g : Segment)
  | cas64 (t : Nat) (tagOk : Bool) (g : Segment)
  | cas128 (t : Nat) (tagOk : Bool) (g : Segment)
  | cmd (t : Nat) (tagOk : Bool) (g : Segment)
  | resp (t : Nat) (tagOk : Bool) (r : Response)
  | readData (t : Nat) (tagOk : Bool) (r : Response)
  | respTimeout (t conn : Nat) (cseq : BitVec 32)
  | reassemblyTimeout (t rcid : Nat) (cseq : BitVec 32)
  | flagRelease (t rcid : Nat) (cseq : BitVec 32)
  | flagHoldTimeout (t rcid : Nat) (cseq : BitVec 32)
  | windowInsert (t : Nat) (fn : Fn) (win : Nat)
  | windowRemove (t : Nat) (fn : Fn) (win : Nat)
  | windowOpen (t : Nat) (fn : Fn) (win : Nat)
  | windowRevoke (t : Nat) (fn : Fn) (win : Nat)
  | windowChangeInForce (t : Nat) (fn : Fn)
  | windowDrained (t : Nat) (fn : Fn)
  | connectionWrite (t : Nat) (fn : Fn) (v : BitVec 32)
  | atomicWriteback (t line : Nat)
  | hotLineEvict (t line : Nat)
  | hotLine (t line : Nat)
  -- egress queues, DMA (12)
  | egqWrite (t q : Nat)
  | egqRead (t q : Nat)
  | packetStart (t port vl : Nat)
  | sampleRound (t : Nat)
  | dmaStart (t ch : Nat) (fn : Fn) (v : BitVec 64)
  | dmaArm (t ch : Nat) (fn : Fn) (v : BitVec 64)
  | dmaAbort (t ch : Nat) (fn : Fn)
  | dmaResume (t ch : Nat) (fn : Fn) (v : BitVec 64)
  | dmaPhaseTrigger (t ch : Nat)
  | dmaTransferDone (t ch : Nat)
  | dmaHalt (t ch : Nat) (wr : Bool) (st : Status) (addr prog : Nat)
  | dmaDoneClear (t ch : Nat) (fn : Fn)
  -- compositions (13)
  | commit (t step : Nat)
  | commitValidationDone (t : Nat)
  | sliceFree (t n : Nat)
  | flashChannelFree (t n : Nat)
  | handoff (t ctx stream : Nat) (all : Bool) (first count dnode queue : Nat) (move : Bool)
  | handoffBatchAck (t : Nat) (st : Status)
  | forceTeardown (t c : Nat)
  | teardownComplete (t c : Nat)
  | meteringPersist (t : Nat)
  -- security (14)
  | scWatchdogExpiry (t : Nat)
  | scMemoryError (t : Nat)
  | getVersion (t : Nat) (tr : Transport) (m : Spdm)
  | getCapabilities (t : Nat) (tr : Transport) (m : Spdm)
  | negotiateAlgorithms (t : Nat) (tr : Transport) (m : Spdm)
  | getDigests (t : Nat) (tr : Transport) (m : Spdm)
  | getCertificate (t : Nat) (tr : Transport) (m : Spdm) (off len : Nat)
  | challenge (t : Nat) (tr : Transport) (m : Spdm) (nonce : Nat)
  | getMeasurements (t : Nat) (tr : Transport) (m : Spdm) (index : Nat)
  | keyExchange (t : Nat) (tr : Transport) (m : Spdm)
  | finish (t : Nat) (tr : Transport) (m : Spdm)
  | heartbeat (t : Nat) (tr : Transport) (m : Spdm)
  | spdmKeyUpdate (t : Nat) (tr : Transport) (m : Spdm)
  | endSession (t : Nat) (tr : Transport) (m : Spdm)
  | lifecycleSeal (t : Nat) (m : Spdm)
  | lifecycleUnseal (t : Nat) (tokenOk : Bool)
  | keysInstall (t : Nat) (decOk : Bool) (b : KeyBlob)
  | keysUpdate (t : Nat) (decOk : Bool) (b : KeyBlob)
  | modelRelease (t : Nat) (decOk : Bool) (b : KeyBlob)
  | tenantRemove (t : Nat) (decOk : Bool) (b : KeyBlob)
  | tenantRemoved (t c : Nat)
  -- reliability, recovery, admission (15)
  | correctedRewrite (t npa : Nat)
  | scrubRateHour (t stack : Nat)
  | faultNotice (t : Nat) (n : Notice)
  | peerUnreachable (t node : Nat)
  | roleNotice (t : Nat) (r : Role)
  | standbyReady (t ring rank : Nat)
  | rebuild (t c : Nat) (r : RingCmd)
  | sendPiece (t c : Nat) (r : RingCmd)
  | recontribute (t c : Nat) (r : RingCmd)
  | rebuildSlotComplete (t c slot : Nat)
  | rebuildSlotTimeout (t c slot : Nat)
  | rebuildSlotQuarantineEnd (t c slot : Nat)
  | shadow (t outcome snode scomp lcomp : Nat)
  | load (t outcome snode scomp lcomp : Nat)
  | admissionSelfTestDone (t failures : Nat)
  | shadowCompare (t : Nat) (b : ShadowBlock)
  | maintenanceStart (t act subj arg : Nat)
  | maintenanceStop (t act subj : Nat)
  -- power and thermal (16)
  | governorRiseStart (t slot : Nat)
  | govCtlWrite (t : Nat) (v : BitVec 32)
  | powerSample (t watts : Nat) (mean100 : Option Nat)
  | thermalSample (t : Nat) (temps : List Int)
  | pwrWarnAssert (t : Nat)
  | pwrWarnDeassert (t : Nat)
  | supplySag (t percent : Nat)
  | shedStageEnter (t stage : Nat)
  | stage6End (t : Nat)
  | shedStageExit (t : Nat)
  | holdoverExit (t : Nat)
  | powerResume (t : Nat)
  | idleFallow (t : Nat) (v : BitVec 32)
  -- host interface (17)
  | perstNAssert (t : Nat)
  | perstNDeassert (t addr : Nat)
  | hotReset (t : Nat)
  | vfFlr (t vf : Nat)
  | doorbell (t vf tail : Nat)
  | submissionFetch (t vf : Nat) (e : SubEntry) (b : ReqBody)
  | fetchTimeout (t vf : Nat) (e : Option SubEntry)
  | mailboxRead (t vf n : Nat) (whole : Bool)
  | mailboxRelease (t vf : Nat) (v : BitVec 64)
  | hostApertureRead (t : Nat) (fn : Fn) (npa len : Nat) (errs : List (List Nat))
  | hostApertureWrite (t : Nat) (fn : Fn) (npa : Nat) (data : List Byte)
  | registerWrite (t : Nat) (fn : Fn) (off width : Nat) (v : BitVec 64)
  -- Parameter Directory (18)
  | pdMailboxGo (t : Nat) (m : PdMsg)
  | pdpMessage (t : Nat) (tr : Transport) (m : PdMsg)
  | pdRead (t : Nat) (p : Principal) (i : PdItem)
  | pdWrite (t : Nat) (p : Principal) (i : PdItem)
  | pdDescribe (t : Nat) (p : Principal) (i : PdItem)
  | pdNext (t : Nat) (p : Principal) (i : PdItem)
  | pdDefault (t : Nat) (p : Principal) (i : PdItem)
  | pdStagingTimeout (t index sub : Nat)
  | configPersist (t : Nat)
  | arpRequest (t ip : Nat)
  | neighbourSolicitation (t ip : Nat)
  | echoRequest (t ip : Nat) (v6 : Bool) (data : List Byte)
  -- start-up (19)
  | romVerifyDone (t : Nat) (aOk bOk : Bool)
  | scStageDone (t : Nat) (cfgOk derived : Bool)
  | hbmTrainingDone (t : Nat) (failed : List Nat)
  | zeroisationDone (t : Nat)
  | flashTrainingDone (t : Nat) (pages : List (List TargetPage)) (retired : List (List Nat)) (programmed : List (List BlockScan))
  | flashBackgroundEraseDone (t : Nat)
  | orderlyPowerDown (t : Nat)
  | powerDownReady (t : Nat)
  -- pins, clocks, test access (20, 14, 16)
  | refclkCoreLoss (t : Nat)
  | refclkFabLoss (t : Nat)
  | refclkPcieLoss (t : Nat)
  | testenHigh (t : Nat)
  | avsRequestTimeout (t : Nat)
  | smbAlertResponse (t : Nat)
  | bypass (t : Nat)
  | idcode (t : Nat)
  | samplePreload (t : Nat) (cells : BitVec 64)
  | extest (t : Nat)
  | clamp (t : Nat)
  | highz (t : Nat)
  | extestPulse (t : Nat)
  | extestTrain (t : Nat)
  | privateInstruction (t : Nat) (op : PrivateOp)
  | pageProgramComplete (t ch block : Nat) (ok : Bool)
  | blockEraseComplete (t ch block : Nat) (ok : Bool)
  | powerRemoved (t : Nat)
  | securityCoreRestart (t : Nat)
  | refclkFabReturn (t : Nat)
  | bootStageRestart (t : Nat)
  | transportKeyGenerated (t : Nat)
  | fwupdateStaged (t : Nat)
  deriving DecidableEq, Repr

end Sys2Proof
end

