-- ==== Sys2Proof/Decode.lean ====
section
/-! DEFINITION. Decoding by the table of operations: no row of the table gives bits to a command, so no word spells one. -/

namespace Sys2Proof

/-- The command that a word spells by the table's bits. The table gives no row any bits: a command reaches the block as an
operation or event with its operands, not as a word. -/
def decodeTableWord (_nbits _w : Nat) : Option Instr := none

end Sys2Proof
end

