-- ==== Sys2Proof/Config.lean ====
section
/-! DEFINITION. The free values: what the spec leaves to the node or to the implementation. Each is an opaque
constant, so no proof can see what it is; it is applied to a counter of the state (`State.free`), so that every use
may differ. -/

namespace Sys2Proof.Config

/-- The place, within a pseudo-channel that R94 fixes, that the node's allocator gives a new frame, table, record or
silt line (R94 step 4 leaves it to the node); log entry 6. -/
opaque freeAddr : Nat → Nat

/-- The check bytes of 64 B in HBM, by their number, 0 to 7 (R210: a Reed-Solomon code whose generator the spec does not give); log entry
170. -/
opaque checkByte : List Byte → Nat → Byte

/-- What a check finds of errors in more than 5 of the 72 bytes (R210 states nothing): by their places; log entry 170. -/
opaque eccBeyond : List Nat → Nat

/-- The data of a transfer that ECC marks poisoned (R473: the data is undefined); log entry 7. -/
opaque poisonByte : Nat → Byte

/-- The 32-bit nonce drawn at a reset (R504) and the 128-bit boot nonce (R388); log entry 8. -/
opaque nonce : Nat → BitVec 32

/-- The core current in amperes that a slot of a class draws at full rate on a number of tiles (R450); log entry 10. -/
opaque slotCurrent : Nat → Nat → Nat

/-- The core current in amperes that so many idle tiles draw (R451); log entry 10. -/
opaque idleCurrent : Nat → Nat

/-- The way of a page-cache set that pseudo-LRU picks for a fill (R219); log entry 11. -/
opaque victimWay : Nat → Nat

/-- The identity of the node that the factory and the images fix: certificate serial number, firmware and Security
Core image versions (R511); log entry 12. -/
opaque imageVersion : Nat → BitVec 32

/-- The serial number of the DeviceID certificate (R511); log entry 12. -/
opaque serialNumber : Nat → Byte

/-- The management MAC address held in boot flash (R511); log entry 12. -/
opaque bootMac : Nat → Byte

/-- The digests and certificates that the Security Core returns (R386, R387): their bytes follow from keys and images
that the spec does not give; log entry 13. -/
opaque spdmByte : Nat → Nat → Byte

/-- The generation of a ring window at the node that holds a rank of a ring, and the place in it of a mirror copy: the spec
gives a ring configuration the window and not these (R408, R409); log entry 23. -/
opaque ringGen : Nat → Nat → BitVec 16

/-- The place of a mirror copy in the partner's ring window, by a number of the copy; log entry 23. -/
opaque mirrorAt : Nat → Nat

/-- Where the catalogue entry of a model, layer and group lies in topsoil: the spec gives the entry and not its place (R257);
log entry 38. -/
opaque catalogAt : Nat → Nat → Nat → Nat

/-- Blocks of a flash channel and the rated erase cycles of its devices, which their parameter pages give (R234, R263); log
entry 35. -/
opaque flashBlocks : Nat → Nat

/-- Rated erase cycles of a channel's devices; log entry 35. -/
opaque ratedCycles : Nat → Nat

/-- The import window of a composition at another node, as the source of a handoff names it: its number, generation and size in
bytes. The spec names it at the target (R366) and gives the source no entry for it; log entry 40. -/
opaque importWin : Nat → Nat → Nat

/-- Generation of the import window; log entry 40. -/
opaque importGen : Nat → Nat → BitVec 16

/-- Size of the import window; log entry 40. -/
opaque importSize : Nat → Nat → Nat

/-- What AES-256-GCM makes, under the link key of a job at a generation, of an IV, additional data and a plaintext: ciphertext and tag (R296); log
entry 4. -/
opaque gcm : Nat → BitVec 16 → List (BitVec 8) → List (BitVec 8) → List (BitVec 8) → List (BitVec 8) × List (BitVec 8)

/-- The tag that came with a segment which a gateway passes on (R296): the commands carry no tag, so it is a free value of the segment's bytes; log
entry 4. -/
opaque tagCame : List (BitVec 8) → List (BitVec 8)

/-- The time a port takes to answer a DELAY_REQ, in units of 0.25 ns (R280); log entry 43. -/
opaque turnaround : Nat → Nat

/-- Whether a spare composition of another node holds at least as many slices as a lost member: node and composition of each
(R419); log entry 44. -/
opaque standbyFits : Nat → Nat → Nat → Nat → Bool

/-- The time that a mark spends in this node and its link layer before it leaves, in units of 0.25 ns (R31, R279); log entry 46. -/
opaque residence : Nat → Nat

/-- Whether the load-step governor grants the current of work that no slot has planned within its slope (R452); log entry 10. -/
opaque grants : Nat → Bool

/-- The mean power of a rail in one 100 ms interval, in units of 25 W (PD 0x2011.rr); log entry 47. -/
opaque railPower : Nat → Nat → Nat

/-- Whether the node asks its VDD_CORE regulator for another voltage at a sample, and which of the 21 steps of 5 mV from 700 mV
(R530): the spec gives the range and the rate and leaves the choice to the node; log entry 48. -/
opaque avsRequest : Nat → Option Nat

/-- A private key as the Security Core wraps it (PD 0x6002, R381, R382): the bytes follow from the die and the firmware, which the
spec does not give; log entry 49. -/
opaque wrappedKey : Nat → List Byte

/-- What the host link negotiates at a reset (R466, R490): rate, lanes, and FLIT mode below 64 GT/s; they depend on the link
partner; log entry 50. -/
opaque pcieRate : Nat → Nat

/-- Lanes of the host link; log entry 50. -/
opaque pcieWidth : Nat → Nat

/-- Whether the link partner supports FLIT mode; log entry 50. -/
opaque pcieFlit : Nat → Bool

/-- What the lower half of a 64-bit register holds for a write of its upper half when no lower half is held (R470): the spec gives
no value; log entry 51. -/
opaque heldHalf : Nat → BitVec 32

/-- Which of the two nearest units PHS_RATE shows for a rate that is no whole number of units (R41): the spec gives no rounding; log
entry 52. -/
opaque rateUp : Rat → Bool

/-- The TAG and FVAL that a mailbox shows when its request could not be read (R478, R484): the spec gives no value; log entry 53. -/
opaque lostTag : Nat → BitVec 32 × BitVec 56

/-- The turnaround interval of an HBM bus, in 0.25 ns (R203): the spec gives no value; log entry 142. -/
opaque busTurn : Nat

/-- Pages of a block of a flash channel (R239): the devices fix it. -/
opaque blockPages : Nat → Nat

/-- IV, additional data and tag of a chunk installed as received, by extent and chunk (R238): the model's owner gave them; log entry 147. -/
opaque ownerMeta : Nat → Nat → List Byte

end Sys2Proof.Config
end

