-- ==== Sys2Proof/Machine/State.lean ====
section
/-! DEFINITION. The state of the node: every register, table, queue, buffer, counter, mode and pin the spec gives it,
as plain data, block by block; and the state after reset. -/

namespace Sys2Proof.Machine

/-- A finite map by number: at most one entry a key, an absent key standing for the default of its user. -/
abbrev Assoc (α : Type) := List (Nat × α)

/-! ### Phase (02) -/

/-- The start record of R33. -/
structure StartRec where
  term : BitVec 16
  job  : Nat
  step : Nat
  deriving DecidableEq, Repr

/-- Registers and timer of the Phase block (R41), the interpolation state of R34, the election of R33 and the
barrier of R42 to R44. -/
structure PhaseSt where
  en       : Bool          -- PHS_CTL.EN
  src      : Nat           -- PHS_CTL.SRC
  jchk     : Bool          -- PHS_CTL.JCHK
  lock     : Bool          -- PHS_CTL.LOCK
  nowHi    : BitVec 32     -- PHS_NOW_HI
  markLo   : BitVec 32     -- PHS_MARK_LO as held for the mark
  sync     : Bool
  master   : Bool
  late     : Bool
  gap      : Bool
  jitter   : Bool
  skewed   : Bool          -- the last mark deviated by more than 20 ns (R35)
  tbfault  : Bool
  badmark  : Bool
  held     : Bool
  term     : BitVec 16     -- PHS_STAT.TERM
  base     : Phase         -- base_phase of R34
  prevTc   : Int           -- prev_tc, 0.25 ns
  prev     : Option Mark   -- prev; none is have_prev = false
  seen     : List (BitVec 32)   -- SEQ values accepted in this term (R31), latest first
  rate     : Rat           -- r of R34
  start    : Option StartRec    -- the last start record accepted since reset
  cand     : Option Nat    -- a candidate that has not stood down, with the time of its start write
  masterId : Option Nat    -- the master of R31 for the current term
  mseq     : BitVec 32     -- SEQ of the next mark this node sends as master
  fwdDone  : Bool          -- the scheduled work stopped by R38
  reports  : List Nat      -- nodes whose report for the current step the master holds
  fbAny    : Bool          -- a result of the current step carried OK_FALLBACK
  breaches : Nat           -- breach records written during the step
  reported : Bool          -- this node's report for the current step has been sent
  holds    : Nat           -- times the current step has been held in succession (R423)
  hostTerm : Bool          -- single-card: a first host mark has been accepted since reset or fault
  markAt   : Option Nat    -- local time at which a mark was last accepted, or sent as master (R284)
  deriving DecidableEq, Repr

/-! ### Slot tables (02) -/

/-- A slot-table entry (R45). -/
structure Slot where
  start   : Nat
  layer   : Nat
  any     : Bool
  valid   : Bool
  opclass : Nat
  comp    : Nat
  fmt     : Nat
  span    : Nat
  tiles   : BitVec 48
  ports   : BitVec 8
  reqs    : Nat
  rows    : Nat
  sketch  : Nat
  dhead   : Nat
  pages   : Nat
  grains  : Nat
  bytes   : Nat
  deriving DecidableEq, Repr

/-- What has happened to a slot in the current layer: started, requests admitted within the contract and completed,
and whether its work has ended. -/
structure SlotRun where
  slot     : Nat
  started  : Bool
  admitted : Nat
  finished : Nat
  ended    : Bool
  ahead    : Rat           -- what the admitted requests add to the bound of the next (R51), ns
  since    : Nat           -- local time at which it started
  late     : Bool          -- a request of it completed after its span
  told     : Bool          -- its overrun has been recorded (R62)
  fin      : Nat           -- T of R202 at which its reserved span ends
  deriving DecidableEq, Repr

/-- The schedule block (R47, R49). -/
structure SchedSt where
  en        : Bool
  bank      : Nat               -- active bank, 0 or 1
  bank0     : Assoc Slot
  bank1     : Assoc Slot
  count     : Nat               -- SCH_LOAD.COUNT
  act0      : Nat               -- entries of bank 0 that were validated (its COUNT)
  act1      : Nat
  stepLo    : BitVec 32
  stepHi    : Nat
  validating : Bool
  pending   : Bool
  wign      : Bool
  err       : Nat
  errEntry  : Nat
  bringHead : Nat
  bringTail : Nat
  bringUsed : Nat               -- the model's own: unread records of the breach ring
  runs      : List SlotRun
  carry     : List SlotRun      -- slots of an earlier layer of the step that a mark found at work (R62)
  sealed    : List (Nat × Nat × Nat)   -- (slot, tile, pages) sealed in this step, over all attempts (R93)
  alpha     : Assoc Rat                -- α of each class that has one (R58)
  ratios    : Assoc (List Rat)         -- measured to formula time of the completions since the last update
  deriving DecidableEq, Repr

/-! ### Contexts, pages, silt (03) -/

/-- The frame of a page: the typed contents of the bytes at its address. -/
structure Frame where
  npa   : Nat
  pc    : Nat              -- pseudo-channel
  gen   : Nat
  toks  : List Token       -- the 16 tokens
  raw   : Nat              -- raw length in bytes (R66)
  comp  : Nat
  sctr  : Nat              -- write counter in the IV of its subsoil frame (R244)
  bad   : Bool             -- its packed form fails a check of R191
  deriving DecidableEq, Repr

/-- A page descriptor (R78). `frame` is the key of its contents; with BORROWED it is the key of the pool entry. -/
structure Desc where
  tier     : Nat
  node     : Nat
  addr     : Nat
  gen      : Nat
  clen     : Nat
  refc     : Nat
  valid    : Bool
  packed   : Bool
  borrowed : Bool
  tomb     : Bool
  spin     : Bool
  tpin     : Bool
  frame    : Nat
  deriving DecidableEq, Repr

/-- A grain (R69). -/
structure Grain where
  sketch : Nat
  nmax   : Nat
  spread : Nat
  tomb   : Bool
  gen    : Nat
  page   : Nat
  stream : Nat
  deriving DecidableEq, Repr

/-- The parity-map entry of a page (R414). -/
structure PMap where
  holder : Nat
  valid  : Bool
  frame  : Nat
  deriving DecidableEq, Repr

/-- A page of a stream: its descriptor, grain and parity-map entry. -/
structure Page where
  desc  : Desc
  grain : Grain
  pmap  : PMap
  deriving DecidableEq, Repr

/-- A context operation at its tile, with what its completion needs: an append that waits for room, an operation behind it
(R85, R89), or an append that is applied and waits for the acknowledgement of its mirror write (R90). -/
structure PendOp where
  tile  : Nat
  src   : Source
  req   : CtxReq
  queue : Option Nat      -- its reply path, chosen when it was dispatched
  late  : Bool            -- it needed an emergency seal
  slot  : Option Nat      -- the slot that admitted it within the contract
  limit : Nat             -- T of R202 at which its bound ends (R51)
  breach : Option Nat     -- CAUSE of R55 when outside the contract
  arrive : Phase
  since : Nat             -- local time from which an append's own time is measured (R58)
  formula : Rat           -- an append's bound of R50, ns
  deriving DecidableEq, Repr

/-- An append that is applied and waits for the acknowledgements of its mirror write (R90). -/
structure Mirr where
  id     : Nat
  comp   : Nat
  ctx    : Nat
  stream : Nat
  op     : PendOp
  bytes  : List Byte      -- the copy, while it has found no queue to leave by
  left   : Nat            -- messages of it not yet acknowledged
  sent   : Bool
  deriving DecidableEq, Repr

/-- A context operation that is done but for the acknowledgements of its directory-mirror copies (R409). -/
structure Ack where
  id    : Nat
  left  : Nat             -- messages not yet acknowledged
  src   : Source
  env   : Envelope
  queue : Option Nat
  op    : Nat
  st    : Status
  deriving DecidableEq, Repr

/-- A seal that counts in PAGES but whose tokens are still held, with the requests that must complete first (R94). -/
structure Release where
  page : Nat
  reqs : List Nat
  deriving DecidableEq, Repr

/-- A level-2 entry in use (R77): the NPAs of the level-3 table and of the grain chunk of its 512 pages (R73). -/
structure L2Entry where
  next   : Nat
  grains : Nat
  deriving DecidableEq, Repr

/-- A stream: its table entry (R75), page tables (R76, R77), pages, silt line (R87) and what waits on it. -/
structure Strm where
  dk     : Nat
  dv     : Nat
  latent : Bool
  kfmt   : Nat
  vfmt   : Nat
  scale  : Nat
  sink   : Nat
  tile   : Nat
  l1     : Nat             -- NPA of the level-1 table, or of its record when dormant
  l2     : Assoc Nat       -- valid level-1 entries: NPA of each level-2 table, by p[26:18]
  l3     : Assoc L2Entry   -- valid level-2 entries, by p[26:9]
  siltAt : Nat             -- NPA of the silt line
  npages : Nat             -- PAGES
  pages  : List Page       -- written pages, 0 upward; those at PAGES and above have not counted yet
  base   : Nat
  toks   : List Token      -- the HELD tokens
  commit : Nat
  born   : List Nat        -- local time at which each committed token was committed (R93)
  appseq : Nat
  rel    : List Release
  heat   : Assoc Nat       -- last step in which a request attended a page of each level-3 table (R253)
  deriving DecidableEq, Repr

/-- A context (R74). -/
structure Ctx where
  ctx      : Nat
  job      : Nat
  comp     : Nat
  layers   : Nat
  groups   : Nat
  retiring : Bool
  dormant  : Bool
  seed     : Nat
  root     : Nat           -- NPA of the root
  streams  : Assoc Strm    -- by layer × G + group
  going    : Bool          -- DORMANT in progress (R251)
  strTab   : Nat           -- NPA of the stream table's record when dormant, 0 otherwise
  deriving DecidableEq, Repr

/-- A share-pool entry (R96). -/
structure Pool where
  comp : Nat
  npa  : Nat             -- where the entry's descriptor lies, which a borrower's ADDR names
  desc : Desc
  deriving DecidableEq, Repr

/-- A forward entry (R368): the range that moved, the node that serves it and the map epoch of its step. -/
structure Fwd where
  job    : Nat
  ctx    : Nat
  stream : Nat
  first  : Nat
  count  : Nat
  node   : Nat
  epoch  : Nat
  deriving DecidableEq, Repr

/-- The page store. -/
structure PageSt where
  ctxs    : List Ctx
  frames  : Assoc Frame
  freed   : List Nat        -- frames freed in this step (R81)
  free    : List Nat        -- the free list
  pool    : Assoc Pool
  nextKey : Nat
  fwd     : Assoc Fwd       -- the forward table, by index
  opq     : List PendOp     -- operations that wait at their tiles, oldest first
  mirr    : List Mirr       -- appends that wait for their mirror writes, oldest first
  gone    : List (Nat × Nat) -- tables, grain chunks, silt lines freed in this step (R81, R98): (NPA, bytes)
  acks    : List Ack
  deriving DecidableEq, Repr

/-! ### Requests (04, 05, 06) -/

/-- One row of a partial result (R125), as FP32 encodings. -/
structure Partial where
  m : BitVec 32
  l : BitVec 32
  o : List (BitVec 32)
  deriving DecidableEq, Repr

/-- A result block (R124). -/
structure Block where
  status : Status
  run    : Nat
  stream : Nat
  rows   : List Partial
  dv     : Nat
  pages  : Nat
  tokens : Nat
  cand   : Nat
  hint   : Option Nat
  deriving DecidableEq, Repr

/-- What a section attends, as it stood at dispatch (R92, R119): the pages of S with their tokens, the silt tokens,
and the bounds that R151 checks. -/
structure Snap where
  pages : List (Nat × List Token)
  keys  : List Nat           -- the frames of the pages
  silt  : List (Nat × Token)
  cand  : Nat
  tiles : Nat
  sink  : Nat
  kfmt  : Nat
  vfmt  : Nat
  scale : Nat
  dk    : Nat
  dv    : Nat
  latent : Bool
  bounds : List (Nat × Nat × BitVec 32)   -- (page, head, B) of the finite page keys
  zeros : Nat                -- zero value blocks of its packed pages (R193)
  comp  : Nat
  scan  : List (Nat × BitVec 32)   -- the candidates outside the sink and recent ranges, with their keys (R145)
  keep  : Nat                -- R of R145
  grains : List Nat          -- the NPAs of the grain chunks that its scan reads (R154)
  deriving DecidableEq, Repr

/-- A section of an attention request: where it was admitted, its run, its finished block. -/
structure Sec where
  stream  : Nat
  slot    : Option Nat
  breach  : Option Nat       -- CAUSE of R55 when outside the contract
  arrive  : Phase
  due     : Nat              -- T of R202 at which it is predicted to complete (R57)
  limit   : Nat              -- T of R202 at which its bound ends (R51)
  begun   : Nat              -- local time at which its own work is predicted to begin
  formula : Rat              -- its bound of R50, ns
  running : Bool
  run     : Nat
  snap    : Option Snap
  block   : Option Block
  sent    : Bool
  lost    : Bool             -- data of a page that it attends is lost, and it ends only in the HOLD that follows (R133, R195)
  tiles   : BitVec 48
  left    : Nat              -- pages that the quanta of best-effort work have still to attend (R60)
  paused  : Bool             -- the last quantum has ended, and no other has started (R60)
  deriving DecidableEq, Repr

/-- A request in the node. -/
structure Req where
  id      : Nat
  src     : Source
  job     : Nat
  comp    : Nat
  req     : AttendReq
  secs    : List Sec
  queue   : Option Nat       -- reply path (R128)
  asked   : Bool             -- the reply path has been looked for (at dispatch)
  stopped : Bool             -- R130: a result write was refused
  bytes   : Nat              -- result bytes written
  deriving DecidableEq, Repr

/-- A segment of a corpus (R157). -/
structure Seg where
  ska   : Nat              -- its first way's block in topsoil, or its first chunk in hardpan
  chans : List Nat         -- the HBM channels (pseudo-channel ÷ 2, R197), or flash channels, of its ways (R159)
  reca  : Nat
  tmba  : Nat
  cap   : Nat
  tier  : Nat
  ways  : Nat
  recs  : List Rec
  sks   : List Nat
  tombs : List Nat           -- indices of tombstoned records
  deriving DecidableEq, Repr

/-- A corpus (R157). -/
structure Corpus where
  root : Nat                 -- NPA of the root
  ctx  : Nat
  job  : Nat
  comp : Nat
  skb  : Nat
  vfmt : Nat
  dim  : Nat
  seed : Nat
  segs : List Seg
  dead : Bool                -- deleted, storage not yet freed (R162)
  deriving DecidableEq, Repr

/-- A search in the node (R163), with the corpus as it stood at dispatch. -/
structure Search where
  id      : Nat
  src     : Source
  job     : Nat
  comp    : Nat
  req     : SearchReq
  snap    : Option Corpus
  slot    : Option Nat
  breach  : Option Nat
  arrive  : Phase
  queue   : Option Nat
  running : Bool
  bytes   : Nat
  limit   : Nat
  begun   : Nat
  formula : Rat
  left    : Nat              -- sectors that the quanta of best-effort work have still to scan (R60)
  paused  : Bool
  grants  : List Nat         -- the HBM channels whose NMUs are granted to it for the span of its slot (R169)
  deriving DecidableEq, Repr

/-- The margin state of a composition (R150 to R153). -/
structure Margin where
  mg      : Nat
  want    : Option Nat       -- a written margin that takes effect at the next step boundary
  last    : Nat              -- the value last written, at which FIXED holds the margin (R153)
  v       : Nat              -- counts of the current step
  n       : Nat
  qs      : Nat
  qc      : Nat
  mg0     : Nat              -- values at the start of the step
  qs0     : Nat
  qc0     : Nat
  deriving DecidableEq, Repr

/-- The request path. -/
structure ReqSt where
  reqs     : List Req
  searches : List Search
  corpora  : List Corpus
  nextId   : Nat
  margins  : Assoc Margin
  beBytes  : Assoc Nat       -- best-effort search bytes of the step, by composition (R173)
  intake   : List (Nat × List Byte)   -- envelopes handed over by CMD messages: (window, bytes)
  held     : List Instr               -- requests that wait at intake while admission is stopped (R456, R458)
  deriving DecidableEq, Repr

/-! ### HBM, NMUs, caches, directory (08) -/

/-- The arbiter and banks of one pseudo-channel (R201 to R208, R215). -/
structure Arb where
  raised  : List ArbReq
  grant   : Option ArbReq        -- decided for the next cycle
  bank    : Nat                  -- rotation of the refresh sequencer
  postponed : Assoc Nat          -- refreshes postponed, by bank
  refreshing : Assoc Nat         -- banks refreshing, with the time at which each ends
  compute : List Nat             -- banks in compute state
  rows    : Assoc Nat            -- the row last opened, by bank
  opened  : Assoc Nat            -- when it was opened
  lastWr  : Bool                 -- whether the last transfer was a write
  lastAt  : Nat                  -- when it was made
  held    : List Nat             -- ports whose raised request was held by compute state
  deriving DecidableEq, Repr

/-- The states of an NMU (R215). -/
inductive NmuState where
  | idle | claim | compute | drain | release | abort
  deriving DecidableEq, Repr

/-- An NMU at work. -/
structure Nmu where
  st     : NmuState
  op     : NmuOp
  banks  : List Nat
  writes : List (Nat × List Byte)
  recs   : List (List Byte)      -- result records buffered in the base die
  till   : Nat                   -- when RELEASE or ABORT ends
  deriving DecidableEq, Repr

/-- A W-stack governor (R214) and its status (R217). -/
structure Gov where
  maxnmu  : Nat
  maxbank : Nat
  lock    : Bool
  deny    : Bool
  abort   : Bool
  deriving DecidableEq, Repr

/-- A window-table entry (R300). -/
structure Win where
  base : Nat
  size : Nat
  wgen : BitVec 16
  rd   : Bool
  wr   : Bool
  add  : Bool
  xr   : Bool
  cas  : Bool
  cmd  : Bool
  comp : Nat
  lent : Bool
  isOpen : Bool
  fwdv : Bool
  fwd  : Nat
  deriving DecidableEq, Repr

/-- A block move in progress (R224). -/
structure Move where
  ins  : Bool
  key  : Nat
  vals : List (BitVec 64)
  fn   : Option Nat            -- the function whose window command caused it
  deriving DecidableEq, Repr

/-- A bank of the associative directory (R221). -/
structure Bank where
  width   : Nat                -- WIDTH code
  cls     : Nat
  lock    : Bool
  entries : Assoc (List (BitVec 64))   -- valid entries by key, ascending; value units
  pend    : Assoc Nat          -- keys with PEND = 1, with the time at which it clears
  moves   : List Move          -- block moves, the one in progress first
  deriving DecidableEq, Repr

/-- A host read of HBM that compute state holds (R216): its function, place and length, and the outcome of its check. -/
structure HeldRead where
  fn  : Nat
  npa : Nat
  len : Nat
  wr  : Option (List Byte)       -- the bytes of a write
  errs : List (List Nat)         -- the bytes in error of each transfer of a read
  deriving DecidableEq, Repr

/-- The memory block. -/
structure HbmSt where
  refRate  : Bool              -- HBM_REF_CTL.RATE
  force2x  : Bool
  refPend  : Bool
  refLock  : Bool
  cool     : Nat               -- consecutive steps below 82 °C
  pendAt   : Nat               -- time since which a rate change has been pending
  lastHbmT : Int               -- hottest HBM die at the last sample
  eccValid : Bool
  eccPort  : Nat
  eccNpa   : Nat               -- NPA of the last uncorrectable transfer
  arbs     : Assoc Arb
  govs     : Assoc Gov         -- by s, 0 to 7
  nmus     : Assoc Nmu         -- by 32 × s + channel
  ways     : Assoc (BitVec 16) -- by 16 × quadrant + composition
  waysNext : Assoc (BitVec 16) -- changes waiting for the step boundary
  wayErr   : List Nat
  lines    : List (Nat × Nat × Nat × Nat)  -- cached lines (quadrant, composition, way, line), latest first
  adirEn   : Bool
  adirStep : Nat
  adirFloor : Nat
  samples  : Nat
  banks    : Assoc Bank
  tBase    : Nat               -- T of R207 when Phase last stopped
  tFrom    : Nat               -- the local time of that
  hostHeld : List HeldRead     -- host reads that compute state holds, in order
  deriving DecidableEq, Repr

/-! ### Tiers (09) -/

/-- A flash block (R239). -/
structure FBlock where
  erases : Nat
  live   : Nat
  stale  : Nat
  retired : Bool
  isOpen : Bool
  deriving DecidableEq, Repr

/-- A flash channel (R263, R239). -/
structure Flash where
  up      : Bool
  targets : Nat
  refused : Bool
  err     : Bool
  failed  : Bool
  wear    : Nat
  spare   : Nat
  blocks  : Assoc FBlock
  lunTries : List (Nat × Nat)  -- LUNs reset and retried once
  owner   : Option Nat
  erasing : Bool               -- being erased on release
  zq      : Nat                -- short calibrations run
  zqAt    : Nat                -- local time of the last calibration
  mean    : Nat                -- erase count that a block found erased takes
  eraseq  : List Nat           -- blocks found programmed at power-up that wait for erasure
  deriving DecidableEq, Repr

/-- A chunk of hardpan (R237 to R240): its owner, where it lies, and whether it can still be read. The parity chunk of stripe `j` of an extent
has the number 128 + j. -/
structure Chunk where
  extent : Nat
  chunk  : Nat
  comp   : Nat
  channel : Nat
  bad    : Bool
  rewrite : Bool
  ctr    : Nat                 -- write counter of its IV
  block  : Nat                 -- the block whose page holds it
  done   : Bool                -- its program has completed
  origin : Bool                -- ORIGIN: installed as received
  job    : Nat
  kgen   : Nat                 -- key generation
  used   : Nat                 -- record bytes used
  deriving DecidableEq, Repr

/-- What a recall brings back: tables come before grains, and grains before pages (R252). -/
inductive RPart where
  | tables | grains | pages
  deriving DecidableEq, Repr

/-- A recall (R250, R252). -/
structure Recall where
  id     : Nat
  comp   : Nat
  job    : Nat
  ctx    : Nat
  stream : Option Nat
  first  : Nat
  count  : Nat
  ready  : Option Phase
  start  : Phase
  active : Bool
  tells  : List (Nat × Phase)  -- hint entries whose STATUS it writes: the NPA of STATUS, and READY
  whole  : Bool                -- wakes the context
  part   : RPart
  bad    : List Nat            -- pages whose subsoil frame could not be read
  deriving DecidableEq, Repr

/-- A move of a page between tiers (R255): what it read and where it goes. -/
structure TMove where
  id     : Nat
  job    : Nat
  ctx    : Nat
  stream : Nat
  page   : Nat
  gen    : Nat
  tier   : Nat
  addr   : Nat
  toTier : Nat
  toNode : Nat
  toAddr : Nat
  bytes  : Nat
  sctr   : Nat                 -- subsoil write counter of the copy's IV
  lease  : Nat                 -- the lease that takes a copy in subsoil
  deriving DecidableEq, Repr

/-- A move of a weight group between tiers (R257): what it read of the catalogue entry and where it goes. -/
structure GMove where
  id     : Nat
  comp   : Nat
  model  : Nat
  layer  : Nat
  group  : Nat
  tier   : Nat
  npa    : Nat
  toTier : Nat
  toNpa  : Nat
  len    : Nat
  deriving DecidableEq, Repr

/-- A catalogue entry (R257). -/
structure Cat where
  tier  : Nat
  npa   : Nat
  len   : Nat
  valid : Bool
  deriving DecidableEq, Repr

/-- A weight layer being streamed (R260, R261). -/
structure WStream where
  nn     : Nat
  layer  : Phase
  nosel  : Bool
  hard   : Bool                -- a group is read from hardpan
  status : Status
  bytes  : Nat
  limit  : Nat                 -- T of R202 at which the slot's bound ends
  slot   : Nat
  due    : Phase               -- the slot's START + SPAN, the deadline of its egress
  cats   : List Cat            -- the groups that it streams
  head   : Option (Nat × List Byte)   -- the buffer header that waits for a hardpan read: offset and bytes, STATUS first
  deriving DecidableEq, Repr

/-- The tier block. -/
structure TierSt where
  flash   : Assoc Flash
  chunks  : List Chunk
  wctr    : Nat                -- chunk write counter
  sctr    : Nat                -- subsoil write counter
  recalls : List Recall
  moves   : List TMove
  moved   : Assoc Nat          -- bytes moved in this step, by composition
  hwrote  : Assoc Nat          -- bytes written into hardpan in this step
  demoting : List Nat          -- compositions whose use has passed the high watermark and not yet fallen below the low
  wstr    : List WStream
  stopped : List Nat           -- stream programmes stopped under R396
  syncSteps : Nat              -- steps since the node first reached synchronisation
  released : List Nat          -- leases whose release record has been written or received
  ending  : List Nat           -- leases whose borrower moves its frames home (R246)
  attended : List (Nat × Nat × Nat × Nat)   -- pages outside topsoil that a request attended: (job, ctx, stream, page)
  gmoves  : List GMove
  lheat   : List (Nat × Nat × Nat)   -- last streamed step of a layer: (model, layer, step)
  gchunks : List Nat           -- places of the weight groups that the node put in hardpan
  subAt   : Assoc Nat          -- the lease under which a frame lies in subsoil, by the frame's key
  deriving DecidableEq, Repr

/-! ### Links (10) -/

/-- The states of a port (R281). -/
inductive PortState where
  | down | training | up | retrain | fallow | failed
  deriving DecidableEq, Repr

/-- A port and its link (R291, R268 to R273, R288). -/
structure Port where
  en       : Bool
  mode     : Nat
  modeNext : Option Nat        -- MODE written to PD 0x4001.pp, for the next training (R265)
  fallowOk : Bool
  loop     : Bool
  lock     : Bool
  st       : PortState
  lanes    : Nat               -- LANES code
  peer     : Nat
  peerv    : Bool
  degraded : Bool
  uncorr   : Bool
  replaylim : Bool
  fmode    : Nat
  fsev     : Bool
  fdepth   : Nat
  fvlmask  : BitVec 8
  frate    : BitVec 32
  fseed    : BitVec 32
  lfsr     : BitVec 32
  held     : List (Nat × List Flit)   -- packets held by REORDER, with the packets still to go before each
  nextSeq  : BitVec 12
  replay   : List Flit         -- unacknowledged flits, oldest first
  replays  : Nat               -- consecutive replays of the oldest
  expect   : BitVec 12         -- next FSEQ in sequence
  nak      : Bool
  sent     : List Nat          -- flits sent, by VL
  freed    : List (BitVec 16)  -- CRED_v as received, by VL
  rfreed   : List Nat          -- flits freed by this receiver, by VL
  tries    : Nat               -- retrain attempts failed
  peerFallow : Bool
  peerDrained : Bool
  delay    : Nat               -- link_delay
  tx       : List Flit         -- flits of started packets that wait for credits or replay room, in order
  since    : Nat               -- time at which the port entered its state
  downAt   : Nat               -- time since which it has not been UP
  ackAt    : Nat               -- time at which ACKSEQ last advanced, or flits became outstanding
  ctlRecs  : List (Nat × LinkRec)   -- records placed in control flits to come, by the group of each (R270)
  slotAt   : Nat × Nat         -- group and slot of the last data flit sent (R266)
  resync   : Bool              -- after a retrain, until the far end's ACKSEQ has come (R281)
  moving   : Bool              -- the retrain of a move into or out of fallow is under way (R284)
  corrAt   : Nat               -- group up to which the decisions of CORRUPT have been made (R288)
  deriving DecidableEq, Repr

/-- A packet that no egress queue holds and that waits for a port: a response, or a packet that a gateway passes on (R274, R297, R323). -/
structure LinkPkt where
  vl   : Nat
  seg  : Segment
  high : Nat                   -- high part of the extended sequence, for the IV (R392)
  ord  : Nat                   -- response ordinal (R394)
  raw  : Bool                  -- passed on as it came, sealed already
  deriving DecidableEq, Repr

/-- How a datagram leaves (R285, R286): port and interface, UDP port and DSCP, the addresses as PD 0x4006.pp has them, and the UDP payload. -/
structure GwVia where
  port    : Nat
  iface   : Nat
  udp     : Nat
  dscp    : Nat
  addrs   : List Byte
  payload : List Byte
  deriving DecidableEq, Repr

/-- The link block with the management rings of R276. -/
structure LinkSt where
  ports    : Assoc Port
  mgmtIn   : List (List Byte)
  mgmtOut  : List (Nat × List Byte)   -- (destination, message), at most 65,536
  mgmtSpill : List (Nat × List Byte)  -- messages that wait for room in the outbound ring
  pkts     : List LinkPkt      -- packets that wait for a port, oldest first
  fallowFrom : Option Nat      -- time at which the node last began to enter fallow (R284)
  fallowTo : Option Nat        -- time at which its exit ended; none while in fallow
  deriving DecidableEq, Repr

/-! ### Remote operations (11) -/

/-- The window and connection registers of one function (R300, R305). -/
structure WRegs where
  v1     : BitVec 64
  v2     : BitVec 64
  v3     : BitVec 64
  wjob   : BitVec 24
  win    : Nat
  busy   : Bool
  drained : Bool
  ign    : Bool
  status : Status
  wgen   : BitVec 16
  op     : Nat                 -- the command in progress
  job    : Nat                 -- the job of its entry
  since  : Nat                 -- local time at which it was written (R302)
  cidx   : Nat                 -- RMO_CCMD
  cside  : Bool
  cstat  : Status
  cval   : BitVec 64
  deriving DecidableEq, Repr

/-- Who a message belongs to (R331). -/
inductive Producer where
  | result (id : Nat)
  | append (id : Nat)
  | parity (job ctx stream page key : Nat) (add : Bool)
  | weight (nn : Nat)
  | tier (id : Nat)
  | dma (ch : Nat)
  | ring (comp : Nat)
  | handoff
  | mirror (id : Nat)
  | fetch (id sec page : Nat)          -- a subsoil frame read for a section of a request (R245)
  | datagram (id : Nat)                -- a gateway's datagram (R324)
  deriving DecidableEq, Repr

/-- A message of an egress queue (R294, R331). -/
structure Msg where
  opc      : Nat
  flag     : Bool
  vl       : Nat
  win      : Nat
  wgen     : BitVec 16
  epoch    : BitVec 16
  mtag     : BitVec 32
  addr     : Nat
  data     : List Byte
  npa      : Option Nat        -- with a local source (R343), where its bytes are read as they leave
  mlen     : Nat               -- MLEN
  rdlen    : Nat               -- read length of a READ
  prod     : Producer
  contract : Bool
  deadline : Phase
  entered  : Nat
  off      : Nat               -- bytes of payload already cut into segments
  cseq     : Option (BitVec 32)  -- kept when the message is resent (R306)
  kgen     : BitVec 16         -- KGEN, from its first segment on (R391)
  resends  : Nat
  want     : List Byte := []     -- of a read of a subsoil frame: the frame as the borrower sealed it (R245; log entry 4)
  deriving DecidableEq, Repr

/-- An outstanding message (R307). -/
structure Outst where
  cseq    : BitVec 32
  msg     : Msg
  bytes   : Nat
  sentAt  : Nat
  deriving DecidableEq, Repr

/-- A send entry (R305) with the state of R306, R307 and R392. -/
structure SendEnt where
  fdest : Nat
  rcid  : Nat
  job   : Nat
  valid : Bool
  next  : BitVec 32
  high  : Nat                  -- high part of the extended sequence
  outst : List Outst
  obytes : Nat
  cwnd  : Nat
  lastCut : Option Nat
  wroteGen : Option (BitVec 16)   -- generation under which it was written (R393)
  rekey : Bool
  deriving DecidableEq, Repr

/-- A receive entry (R305, R310). -/
structure RecvEnt where
  osrc  : Nat
  conn  : Nat
  job   : Nat
  valid : Bool
  h     : BitVec 32
  high  : Nat                  -- high part of the extended sequence (R392)
  applied : BitVec 64
  refused : BitVec 64
  wroteGen : Option (BitVec 16)
  deriving DecidableEq, Repr

/-- A reassembly context (R313), or a message held for FLAG (R317). -/
structure Reasm where
  rcid  : Nat
  cseq  : BitVec 32
  seg   : Segment              -- header of its segments; data assembled so far is in memory
  offs  : List Nat             -- segments present
  since : Nat
  whole : Bool                 -- complete and held
  bytes : List (Nat × List Byte)  -- payload of a flagged message, kept until its release
  deriving DecidableEq, Repr

/-- A line of the atomic unit (R318, R319). -/
structure ALine where
  line  : Nat                  -- NPA ÷ 64
  data  : List Byte
  last  : Nat
  dirty : Bool
  deriving DecidableEq, Repr

/-- A response that waits for the write-back of the lines its operation changed (R315). -/
structure AResp where
  lines  : List Nat
  seg    : Segment
  data   : List Byte
  ce     : Bool
  st     : Status
  deriving DecidableEq, Repr

/-- A revoked generation of a window that is not yet drained (R302, R327, R329): the operations admitted under it, the changed lines of the atomic
unit in its range, and the sender and ADDR of the last of those operations. -/
structure Drain where
  job   : Nat
  win   : Nat
  ops   : List (Nat × BitVec 32)
  lines : List Nat
  node  : Nat
  addr  : Nat
  deriving DecidableEq, Repr

/-- A datagram of a gateway that waits in an egress queue (R324, R331), named by its message's producer. -/
structure GwDgram where
  id    : Nat
  group : Nat
  vl    : Nat
  pkts  : List Segment
  deriving DecidableEq, Repr

/-- The rate of operations on a line (R320). -/
structure Hot where
  line  : Nat
  ops   : List Nat             -- local times of the operations of the last 1 µs, the latest first
  hotTo : Option Nat           -- end of the last hot interval
  told  : Option Nat           -- that of the last hot interval counted by HOT_LINE
  event : Option Nat           -- time of the last HOT_LINE event
  win   : Nat
  node  : Nat
  addr  : Nat
  deriving DecidableEq, Repr

/-- A message converted at this gateway (R323, R325). -/
structure GwMsg where
  seg     : Segment
  group   : Nat
  resends : Nat
  sentAt  : Nat
  packed  : Bool               -- waits in the datagram being packed
  since   : Nat
  deriving DecidableEq, Repr

/-- A record that waits for the next 1 ms boundary to enter a composition's breach or event ring. -/
structure RingRec where
  comp   : Nat
  breach : Bool
  bytes  : List Byte
  deriving DecidableEq, Repr

/-- The remote-operation block. -/
structure RmoSt where
  regs   : Assoc WRegs         -- by function
  send   : Assoc SendEnt
  recv   : Assoc RecvEnt
  reasm  : List Reasm
  alines : List ALine
  aresp  : List AResp
  hots   : List Hot
  gw     : List GwMsg
  gseq   : Assoc (BitVec 32)
  evHead : Nat
  evTail : Nat
  evUsed : Nat                 -- the model's own: unread records of the Operator event ring
  evLast : List (Nat × Nat × Nat × Nat)   -- (class, code, SUBJ, time) of the last record of each
  oldOps : Assoc (List Drain)  -- revoked generations that are not drained, by function of the REVOKE
  unk    : List (Nat × Nat × Nat × Nat × BitVec 32)   -- messages of unknown connections answered (R312): OSRC, CONN, RCID, JOB, CSEQ
  dgrams : List GwDgram
  epoch  : BitVec 16           -- map epoch
  grace  : Bool                -- the epoch changed at the last step boundary
  ring   : List RingRec        -- records waiting for the composition rings (R56, R328, R398), oldest first
  ords   : List (Nat × BitVec 32 × Nat)    -- ordinals used (R394): (rcid, cseq, next ordinal)
  deriving DecidableEq, Repr

/-! ### Egress and DMA (12) -/

/-- An egress queue (R333, R335). -/
structure Queue where
  en       : Bool
  opr      : Bool
  unshaped : Bool
  sample   : Bool
  comp     : Nat
  ports    : BitVec 8
  rate     : Nat
  burst    : Nat
  tokens   : Int               -- in 1/1,024 B
  tokAt    : Nat               -- time up to which TOKENS is current
  waiting  : List Msg
  ce       : Bool              -- CE received since the last sample
  elig     : List (Nat × Phase × Nat)   -- by port: since when the head is eligible there but for TOKENS, as Phase and local time (R338)
  paidAt   : Nat               -- local time at which TOKENS last reached 0 from below
  closing  : Bool              -- disabled, but for results of requests that a teardown ended, which still leave (R106, R370)
  deriving DecidableEq, Repr

/-- The states of a DMA channel (R347). -/
inductive DmaState where
  | idle | armed | running | done | halted | aborting
  deriving DecidableEq, Repr

/-- A DMA channel (R347). -/
structure Dma where
  srcA : Nat
  dstA : Nat
  count : Nat
  trig : Nat
  skind : Bool
  dkind : Bool
  tch  : Nat
  flagLast : Bool
  queue : Nat
  irq  : Bool
  win  : Nat
  wgen : BitVec 16
  tphase : Phase
  st   : DmaState
  dir  : Bool
  status : Status
  done : Bool
  halt : Bool
  triglost : Bool
  refused : Bool
  prog : Nat
  errAddr : Nat
  errRem : Bool
  outst : Nat                  -- messages outstanding
  issued : Nat                 -- bytes put into messages
  bad  : Option (Nat × Bool × Status)   -- lowest failing address, side, status
  acked : List (Nat × Nat)     -- (offset, bytes) acknowledged
  deriving DecidableEq, Repr

/-- Egress queues, sampler and DMA. -/
structure EgqSt where
  qs     : Assoc Queue
  held   : List (Nat × Msg)    -- messages whose producers wait for room in a queue, oldest first (R332)
  cmdQ   : Nat                 -- EGQ_CMD.QUEUE
  cmdStat : Status
  cfg    : BitVec 64
  stat   : BitVec 64
  dma    : Assoc Dma
  sampAt : Nat                 -- time at which the last sample round was due
  sampEnd : Nat                -- time at which it ends
  deriving DecidableEq, Repr

/-! ### Compositions (13) -/

/-- The states of a composition (R360). -/
inductive CompState where
  | free | active | shrinking | tearing | torndown | releasing
  deriving DecidableEq, Repr

/-- A composition descriptor (R353). -/
structure CompDesc where
  exst   : Bool
  job    : Nat
  vf     : Nat
  slices : BitVec 48
  flash  : BitVec 32
  qbase  : Nat
  qcount : Nat
  ways   : BitVec 64
  link   : Nat
  deriving DecidableEq, Repr

/-- Why a composition is being zeroised. -/
inductive TearCause where
  | fault | removal
  deriving DecidableEq, Repr

/-- A composition: its state and descriptor in force, its keys (R388 to R391) and its counters of use. -/
structure Comp where
  st      : CompState
  desc    : CompDesc
  cause   : Option TearCause
  keyed   : Bool               -- INSTALL done
  gen     : BitVec 16          -- link-key generation
  noKey   : Bool               -- generation advanced with no key (R397)
  grace   : Bool               -- the previous generation is accepted in this step
  upd     : Option (BitVec 16 × Nat)   -- pending UPDATE: generation, ACTIVATE step
  oldBytes : Nat               -- bytes of subsoil and hardpan data still sealed under the previous generation
  transport : Bool             -- it holds a transport key
  since   : Nat                -- time from which slice-µs are charged
  busyRem : Nat                -- tile-busy time not yet a whole µs
  next    : Option TearCause   -- a teardown or removal that waits for the one in progress (R373)
  packNext : Option Bool       -- PD 0x3211.CC change waiting for the step boundary
  waysNext : Option (BitVec 64)
  linkNext : Option Nat
  nextHolder : Nat             -- first holder after the last one used (R410)
  deriving DecidableEq, Repr

/-- A handoff in progress (R365, R366). -/
structure Handoff where
  ctx    : Nat
  job    : Nat
  comp   : Nat
  pages  : List (Nat × Nat)    -- (stream, page) still to send
  sent   : Nat                 -- pages answered
  batch  : Nat
  inBatch : Nat
  dnode  : Nat
  queue  : Nat
  move   : Bool
  ranges : List (Nat × Nat × Nat)   -- (stream, first, count)
  finish : Bool                -- every batch answered; a MOVE completes at the step boundary
  deriving DecidableEq, Repr

/-- The composition block. -/
structure CompSt where
  comps    : Assoc Comp
  pend     : Assoc CompDesc    -- descriptors written and not yet committed
  staged   : Assoc CompDesc    -- descriptors of the commit that validates or waits
  cstep    : Nat
  validating : Bool
  pending  : Bool
  cstatus  : Status
  cfail    : Nat
  ccheck   : Nat
  busySlices : List Nat        -- slices being zeroised
  badSlices  : List Nat        -- slices out of service
  busyFlash  : List Nat        -- flash channels being erased
  hand     : Option Handoff
  hstatus  : Status
  hpages   : Nat
  graceFree : List (Nat × Nat × Nat × Nat)   -- (job, context, stream, page) to free at the end of the grace step
  reloc    : Assoc Nat         -- bytes relocated in this step
  relocPart : Assoc (Nat × Nat)   -- the root whose structures are being relocated, and their bytes copied so far (R358)
  deriving DecidableEq, Repr

/-! ### Security (14) -/

/-- The Security Core. -/
structure SecSt where
  life    : Bool               -- 0 OPEN, 1 SEALED
  pend    : Option Bool
  boot    : Nat
  up      : Bool
  zero    : Bool
  resets  : Nat
  tappriv : Bool
  memdbg  : Bool
  opGen   : BitVec 16          -- operator link-key generation
  pool    : Nat                -- pre-generated transport keys
  gens    : Assoc (BitVec 16)  -- generation of a job after a removal
  models  : Assoc (Nat × Nat × List Nat)   -- releases: (model, composition, endpoints)
  version : Bool               -- SPDM: GET_VERSION answered
  caps    : Bool
  algs    : Bool
  sessions : List (Nat × Bool) -- sessions, and whether FINISH has completed them
  keyUpdates : Nat
  bootNonce : Nat              -- index of the boot nonce
  deriving DecidableEq, Repr

/-! ### Reliability (15) -/

/-- A rebuild slot (R424). -/
structure RSlot where
  comp : Nat
  slot : Nat
  st   : Nat                   -- 0 free, 1 in use, 2 quarantine
  job  : Nat
  ctx  : Nat
  stream : Nat
  page : Nat
  piece : Nat
  since : Nat
  lost : Nat                   -- the rank being rebuilt
  deriving DecidableEq, Repr

/-- A maintenance activity running (R437, R439). -/
structure Act where
  act  : Nat
  subj : Nat
  inst : Nat
  since : Phase
  self : Bool
  deriving DecidableEq, Repr

/-- Admission in progress (R430 to R434). -/
structure Admit where
  shadow  : Bool
  outcome : Nat
  snode   : Nat
  scomp   : Nat
  lcomp   : Nat
  tested  : Bool
  steps   : Nat                -- steps compared
  clean   : Bool               -- the current step has not been held
  own     : List (Nat × Nat × BitVec 64)   -- its own blocks: (TAG, section, CRC-64)
  ready   : Bool               -- it is admitted at the next step boundary
  deriving DecidableEq, Repr

/-- A piece of a frame contributed to the ring (R410 to R414): the composition and frame key, the holder's rank, the frame
index and the segment as sent, with its offset in the ring window. -/
structure Contrib where
  comp   : Nat
  key    : Nat
  holder : Nat
  frame  : Nat
  off    : Nat
  seg    : List Byte
  deriving DecidableEq, Repr

/-- A piece of a page that a rebuild has recovered (R424). -/
structure Piece where
  job    : Nat
  ctx    : Nat
  stream : Nat
  page   : Nat
  piece  : Nat
  bytes  : List Byte
  deriving DecidableEq, Repr

/-- Ring, scrub, recovery, admission and maintenance state. -/
structure RelSt where
  queued   : List Nat          -- addresses corrected and waiting for a rewrite
  hits     : Assoc Nat         -- corrections of an address in this patrol period
  rows     : List Nat          -- withheld rows: NPA ÷ 1,024
  rates    : Assoc Nat         -- patrol rate multiple, by stack
  hour     : Assoc Nat         -- corrected events of the hour, by stack
  quiet    : Assoc Nat         -- hours without a high hour, by stack
  scrubbed : Assoc Nat         -- scrub bytes of the step, by composition
  tamped   : Assoc Nat
  tampAt   : Assoc Nat         -- where tamping of a composition goes on, by NPA (R102)
  rebuilt  : Assoc Nat         -- rebuild bytes into this standby in this step (R427)
  rslots   : List RSlot
  pendPages : List (Nat × Nat × Nat × Nat × Nat)  -- pending pages of a lost member: (comp, ctx, stream, page, job)
  rebuilding : List (Nat × Nat × Nat)   -- (comp, ring, rank) not yet REBUILT
  notices  : List Notice
  waiting  : List (Nat × Nat)  -- (ring, rank) whose standby is not ready
  roles    : List Role
  unreach  : List Nat
  lastDone : Nat               -- last completed step
  joining  : Option Admit
  astatus  : Status
  aFail    : Nat
  mstatus  : Status
  mAct     : Nat
  mInst    : Nat
  acts     : List Act
  nextInst : Nat
  pframes  : List Contrib      -- contributions of this node's frames
  restarted : Bool             -- a job restart stands
  patrolAt : Nat               -- time at which the patrol period began
  pieces   : List Piece
  damaged  : List Nat          -- frames that wait to be rebuilt from the ring (R407)
  ringWait : List (Nat × Nat × List Byte)   -- ring commands that wait for a free slot: (comp, target rank, bytes) (R425)
  hurt     : List (Nat × Nat)  -- structures found damaged in this step, with PHS holds at the time (R369)
  deriving DecidableEq, Repr

/-! ### Power and thermal (16) -/

/-- Power, shedding and thermal state. -/
structure PwrSt where
  idle    : Bool
  lock    : Bool
  stage   : Nat
  warn    : Bool
  warnAt  : Nat                -- time at which PWR_WARN counted as asserted
  sag     : Nat                -- deepest sag of a sensed rail, in whole percent of its setpoint
  sagSince : Assoc Nat         -- by stage 1 to 6: time since which its sag threshold has held
  lastHeld : Assoc Nat         -- by stage: last time at which a trigger of it held
  cleanAt : Nat                -- time since which PWR_WARN is low and no rail sags
  cap     : Bool
  capHalf : Bool
  capAt   : Nat                -- time since which the limit has been engaged
  belowAt : Option Nat         -- time since which the mean has been 5% below the limit
  throt   : Nat
  hbmHot  : Bool               -- HBM group throttled
  held    : Bool
  offok   : Bool
  stagehi : Nat
  slew    : Nat
  ballast : Bool
  trip    : Bool
  off     : Bool               -- orderly power-down in progress or done
  stageAt : Nat                -- time at which the stage was entered
  watts   : List Nat           -- samples of the last 1 ms
  waits   : Nat
  rises   : List Nat           -- slots whose rise has begun
  level   : Nat                -- core current that the governor keeps, in amperes (R450, R451)
  excess  : Nat                -- how far it lies above what the work draws
  excessAt  : Nat                -- local time up to which the energy of that has been counted
  warned  : List Nat           -- sensor groups above their warning level: 0 logic dies, 1 HBM
  slewNext : Option Nat
  reading : Nat                -- PD 0x2010.00
  temps   : Assoc Int          -- PD 0x2012.ss
  tsums   : Assoc Int          -- sums of the samples of this 100 ms interval, by sensor
  tcount  : Nat                -- samples of this interval
  rail    : Option Nat         -- index of the free rail readings of the last interval
  deriving DecidableEq, Repr

/-! ### Host interface (17) -/

/-- The states of a mailbox (R480). -/
inductive MbxState where
  | free | busy | ready
  deriving DecidableEq, Repr

/-- A mailbox (R479). -/
structure Mbx where
  st     : MbxState
  status : Status
  seq    : BitVec 32
  tag    : BitVec 32
  flag   : BitVec 64
  rbytes : Nat
  consumed : Bool
  irq    : Bool
  res    : Nat                 -- result region of its entry
  deriving DecidableEq, Repr

/-- The host-interface state of a virtual function (R490). -/
structure Vf where
  base   : BitVec 64
  en     : Bool
  lsize  : Nat
  tail   : Nat
  head   : Nat
  stall  : Bool
  err    : Bool
  seq    : BitVec 32           -- sequence of the last submission
  mbx    : Assoc Mbx
  latch  : Assoc Mbx           -- mailboxes as latched by the last read of their W0
  fetching : Bool
  deriving DecidableEq, Repr

/-- The host interface. -/
structure HifSt where
  rate    : Nat
  width   : Nat
  flit    : Bool
  ide     : Bool
  single  : Bool
  markerr : Bool
  step    : Nat
  stepV   : Bool
  vfs     : Assoc Vf
  lowHeld : List (Nat × Nat × BitVec 32)   -- lower halves held: (function, slot offset, value)
  upLatch : List (Nat × Nat × BitVec 32)   -- upper halves latched
  msix    : Assoc (BitVec 64)              -- MSI-X table words
  deriving DecidableEq, Repr

/-! ### The Parameter Directory (18) -/

/-- A staging copy (R503). -/
structure Staging where
  index : Nat
  sub   : Nat
  data  : List Byte
  len   : Nat
  since : Nat
  owner : Nat                  -- the principal and transport that write it
  deriving DecidableEq, Repr

/-- A response item (R500): index, subindex, status, type code and value. -/
structure Answer where
  index : Nat
  sub   : Nat
  st    : Status
  typ   : Nat
  value : List Byte
  deriving DecidableEq, Repr

/-- The last authenticated request accepted from a principal on a transport, and the response it had (R505). -/
structure LastSeq where
  who   : Nat
  tr    : Nat
  seq   : BitVec 32
  st    : Status
  items : List Answer
  deriving DecidableEq, Repr

/-- Directory protocol state and values. -/
structure PdSt where
  vals    : List (Nat × Nat × List Byte)  -- values written since reset or stored, by (index, subindex)
  stored  : List (Nat × Nat × List Byte)  -- the signed configuration
  unsaved : List (Nat × Nat)              -- Stored writes not yet persisted
  cnt     : List (Nat × Nat × Nat)        -- counters, by (index, subindex)
  latched : List (Nat × Nat × Nat)        -- counters as latched at the last 1 ms boundary (R398)
  latchAt : Nat                           -- that boundary, in ms of the local timer
  seqs    : List LastSeq
  staging : List Staging
  served  : List (Nat × Nat × Nat)        -- Public requests served: (source, interval, count)
  msgNo   : Nat
  buf     : List Byte                     -- HIF_PD_BUF
  done    : Bool
  len     : Nat
  nonce   : Nat                           -- index of the reset nonce
  deriving DecidableEq, Repr

/-! ### Start-up and pins (19, 20) -/

/-- Boot, pins, clocks and test access. -/
structure BootSt where
  nodeId : Nat                 -- the Node ID in effect since reset (R511)
  mac     : List Byte          -- the management port's addresses in effect since reset (R498)
  ip4     : List Byte
  ip6     : List Byte
  stage   : Nat
  ready   : Bool
  derive  : Bool
  cfgdef  : Bool
  flashbg : Bool
  fail    : Nat
  hbmout  : Bool
  badStacks : List Nat
  paused  : Bool
  t0      : Nat                -- time of the deassertion of PERST_N
  bootMs  : Nat
  boots   : Nat
  erase   : Nat                -- programmed blocks awaiting erase
  perst   : Bool               -- PERST_N counts as asserted
  testen  : Bool
  thermTrip : Bool             -- THERM_TRIP_N asserted
  nodeRdy : Bool               -- NODE_RDY at high impedance
  alert   : Bool               -- SMB_ALERT_N asserted
  smbAddr : Nat
  coreClk : Bool
  fabClk  : Bool
  pcieClk : Bool
  powered : Bool               -- VDD_AON present
  mv      : Nat                -- VDD_CORE setpoint, mV
  avsWant : Option Nat         -- AVSBus request in flight
  avsTries : Nat
  ir      : Nat                -- JTAG instruction in effect
  cells   : BitVec 64          -- boundary cells preloaded
  dead    : Bool               -- a boundary instruction has been in effect since reset
  tdo     : Option (BitVec 32) -- the register selected between TDI and TDO, when it is IDCODE
  deriving DecidableEq, Repr

/-- What leaves the node and is not held by a queue of the spec: the model's record of outputs, latest first. -/
inductive Out where
  | control (port group : Nat) (lanes : List Nat) (f : CtlFlit) (crc : BitVec 32)
  | claim (node job : Nat) (term : BitVec 16)
  | report (step node breaches : Nat) (fallback : Bool)
  | response (dst rcid conn : Nat) (cseq : BitVec 32) (st : Status) (hint : Option Nat) (ce : Bool) (data : List Byte)
  | hostWrite (vf addr : Nat) (data : List Byte)
  | hostRead (vf addr len : Nat)
  | msix (fn vector : Nat)
  | regRead (fn off : Nat) (v : BitVec 64)
  | mbxRead (vf n : Nat) (w0 w1 w2 w3 : BitVec 64)
  | apertureRead (fn npa : Nat) (data : Option (List Byte)) (poisoned : Bool)
  | packet (port vl queue : Nat) (g : Segment)
  | flit (port group slot : Nat) (f : Flit) (crc : BitVec 32)
  | corrupt (port group lane symbols : Nat)
  | datagram (group : Nat) (gseq : BitVec 32) (pkts : List Segment) (via : GwVia)
  | markDatagram (m : Mark) (copy : Bool) (via : GwVia)
  | notice (n : Notice)
  | role (r : Role)
  | pd (tr : Transport) (mstatus : Status) (seq : BitVec 32) (items : List Answer)
  | pdItem (p : Principal) (a : Answer)
  | spdm (tr : Transport) (code : Nat) (data : List Byte)
  | vendor (st : Status)
  | net (kind : Nat) (data : List Byte)
  | flashCmd (ch : Nat) (opcode : Nat)
  | crc (id sec : Nat) (v : BitVec 64)
  | sample (queue : Nat)
  | unsupportedRequest (fn off : Nat)
  | refusedAccess (port npa : Nat) (st : Status)
  | debugRead (npa : Nat) (data : List Byte)
  | nmuResult (w ch : Nat) (recs : List (List Byte))
  | flashPage (ch block : Nat) (meta_ : List Byte)
  deriving DecidableEq, Repr

/-- The state of the node. -/
structure State where
  timer  : Nat                 -- the local timer, 0.25 ns
  phs    : PhaseSt
  sch    : SchedSt
  pg     : PageSt
  rq     : ReqSt
  hbm    : HbmSt
  tier   : TierSt
  lnk    : LinkSt
  rmo    : RmoSt
  egq    : EgqSt
  cmp    : CompSt
  sec    : SecSt
  rel    : RelSt
  pwr    : PwrSt
  hif    : HifSt
  pd     : PdSt
  boot   : BootSt
  mem    : List Host.Cell      -- HBM and tile SRAM, canonical; an unlisted byte reads zero (R380)
  out    : List Out
  free   : Nat                 -- the model's own: how many free values have been drawn
  pending : List Instr         -- the commands that wait, first in first out
  deriving DecidableEq, Repr

/-- Why a step can stop the machine. -/
inductive Fault where
  /-- Raised by no command: the spec gives every command an effect. Safe. -/
  | none
  deriving DecidableEq, Repr

/-- Why a command is turned away by the model. -/
inductive Refusal where
  /-- Raised by `exec` for a command whose meaning is not written yet; safe. -/
  | notModelled (mnemonic : String)
  deriving DecidableEq, Repr

/-- The node as PERST_N is deasserted for the first time after power has been applied (R513): the boot stages begin at stage
0, every register is at its reset value, every table is empty, and memory lists nothing (R380, R518). The banks of the
associative directory, the governors, the queues, the entries and the channels that an empty map leaves out stand at the reset
values that their readers give. Where the spec gives no reset value, log entry 28 names the one taken. -/
def State.reset : State :=
  { timer := 0,
    phs := { en := false, src := 0, jchk := true, lock := false, nowHi := 0, markLo := 0, sync := false, master := false,
             late := false, gap := false, jitter := false, skewed := false, tbfault := false, badmark := false, held := false, term := 0,
             base := 0, prevTc := 0, prev := none, seen := [], rate := 1, start := none, cand := none, masterId := none, mseq := 0,
             fwdDone := false, reports := [], fbAny := false, breaches := 0, reported := false, holds := 0,
             hostTerm := false, markAt := none },
    sch := { en := false, bank := 0, bank0 := [], bank1 := [], count := 0, act0 := 0, act1 := 0, stepLo := 0, stepHi := 0,
             validating := false, pending := false, wign := false, err := 0, errEntry := 0, bringHead := 0, bringTail := 0,
             bringUsed := 0, runs := [], carry := [], sealed := [], alpha := [], ratios := [] },
    pg := { ctxs := [], frames := [], freed := [], free := [], pool := [], nextKey := 0, fwd := [], opq := [], mirr := [], gone := [],
            acks := [] },
    rq := { reqs := [], searches := [], corpora := [], nextId := 1, margins := [], beBytes := [], intake := [], held := [] },
    hbm := { refRate := false, force2x := false, refPend := false, refLock := false, cool := 0, pendAt := 0, lastHbmT := 0,
             eccValid := false, eccPort := 0, eccNpa := 0, arbs := [], govs := [], nmus := [], ways := [], waysNext := [],
             wayErr := [], lines := [], adirEn := false, adirStep := 3, adirFloor := 0, samples := 0, banks := [],
             tBase := 0, tFrom := 0, hostHeld := [] },
    tier := { flash := [], chunks := [], wctr := 0, sctr := 0, recalls := [], moves := [], moved := [], hwrote := [],
              demoting := [], wstr := [], stopped := [], syncSteps := 0, released := [], ending := [], attended := [], gmoves := [], lheat := [], gchunks := [], subAt := [] },
    lnk := { ports := [], mgmtIn := [], mgmtOut := [], mgmtSpill := [], pkts := [], fallowFrom := none, fallowTo := none },
    rmo := { regs := [], send := [], recv := [], reasm := [], alines := [],
             aresp := [], hots := [], gw := [], gseq := [], evHead := 0, evTail := 0, evUsed := 0, evLast := [], oldOps := [], unk := [], dgrams := [],
             epoch := 0, grace := false, ring := [], ords := [] },
    egq := { qs := [], held := [], cmdQ := 0, cmdStat := .ok, cfg := 0, stat := 0, dma := [], sampAt := 0, sampEnd := 0 },
    cmp := { comps := [], pend := [], staged := [], cstep := 0, validating := false, pending := false, cstatus := .ok, cfail := 0, ccheck := 0,
             busySlices := [], badSlices := [], busyFlash := [], hand := none, hstatus := .ok, hpages := 0, graceFree := [],
             reloc := [], relocPart := [] },
    sec := { life := false, pend := none, boot := 0, up := false, zero := false, resets := 0, tappriv := false, memdbg := false,
             opGen := 0, pool := 0, gens := [], models := [], version := false, caps := false, algs := false,
             sessions := [], keyUpdates := 0, bootNonce := 0 },
    rel := { queued := [], hits := [], rows := [], rates := [], hour := [], quiet := [], scrubbed := [], tamped := [], tampAt := [],
             rebuilt := [],
             damaged := [], rslots := [], pendPages := [], rebuilding := [], notices := [], waiting := [], roles := [], unreach := [],
             lastDone := 0, joining := none, astatus := .ok, aFail := 0, mstatus := .ok, mAct := 0, mInst := 0, acts := [],
             nextInst := 1, pframes := [], restarted := false, patrolAt := 0, pieces := [], ringWait := [], hurt := [] },
    pwr := { idle := false, lock := false, stage := 0, warn := false, warnAt := 0, sag := 0, sagSince := [], lastHeld := [], cleanAt := 0, cap := false, capHalf := false,
             capAt := 0, belowAt := none, throt := 0, hbmHot := false, held := false, offok := false, stagehi := 0, slew := 250,
             ballast := true, trip := false, off := false, stageAt := 0, watts := [], waits := 0, rises := [], level := 0, excess := 0, excessAt := 0, warned := [],
             slewNext := none, reading := 0, temps := [], tsums := [], tcount := 0, rail := none },
    hif := { rate := 0, width := 0, flit := false, ide := false, single := false, markerr := false, step := 0, stepV := false,
             vfs := [], lowHeld := [], upLatch := [], msix := [] },
    pd := { vals := [], stored := [], unsaved := [], cnt := [], latched := [], latchAt := 0, seqs := [], staging := [], served := [],
            msgNo := 0, buf := [], done := false, len := 0, nonce := 0 },
    boot := { nodeId := 0, mac := [], ip4 := [], ip6 := [], stage := 0, ready := false, derive := false, cfgdef := false, flashbg := false, fail := 0,
              hbmout := false, badStacks := [], paused := false, t0 := 0, bootMs := 0, boots := 0, erase := 0, perst := false,
              testen := false, thermTrip := false, nodeRdy := false, alert := false, smbAddr := 0x60, coreClk := true,
              fabClk := true, pcieClk := true, powered := true, mv := 750, avsWant := none, avsTries := 0, ir := 0x01,
              cells := 0, dead := false, tdo := some 0x1A2405CB },
    mem := [], out := [], free := 0, pending := [] }

end Sys2Proof.Machine
end

