-- ==== Sys2Proof/Machine/Flags.lean ====
section
/-! DEFINITION. Status codes (R132) and the packing of status words out of their flags. -/

namespace Sys2Proof

/-- The code of a status (R132). -/
def Status.code : Status → Nat
  | .ok => 0x00 | .okFallback => 0x01 | .notReady => 0x02
  | .moved => 0x10 | .staleGen => 0x11 | .noWindow => 0x12 | .revoked => 0x13 | .duplicate => 0x14
  | .contractBreach => 0x20 | .busyConflict => 0x21
  | .faultTorndown => 0x30 | .replay => 0x31
  | .unsupported => 0x40 | .accessDenied => 0x41 | .integrity => 0x42

/-- The status a code names; a code the table does not define counts as INTEGRITY (R12). -/
def Status.ofCode (n : Nat) : Status :=
  match n with
  | 0x00 => .ok | 0x01 => .okFallback | 0x02 => .notReady
  | 0x10 => .moved | 0x11 => .staleGen | 0x12 => .noWindow | 0x13 => .revoked | 0x14 => .duplicate
  | 0x20 => .contractBreach | 0x21 => .busyConflict
  | 0x30 => .faultTorndown | 0x31 => .replay
  | 0x40 => .unsupported | 0x41 => .accessDenied | _ => .integrity

/-- The family of R10. -/
def Status.family (s : Status) : Nat := Status.code s / 16

end Sys2Proof

namespace Sys2Proof.Machine

/-- A flag at a bit position. -/
def flagAt (b : Bool) (pos : Nat) : Nat := if b then 2 ^ pos else 0

/-- A field of `w` bits at a bit position. -/
def fieldAt (v w pos : Nat) : Nat := (v % 2 ^ w) * 2 ^ pos

/-- The bits [pos + w − 1 : pos] of a number (R5). -/
def bitsOf (v pos w : Nat) : Nat := (v / 2 ^ pos) % 2 ^ w

/-- Bit `pos` of a number. -/
def bitAt (v pos : Nat) : Bool := (v / 2 ^ pos) % 2 == 1

end Sys2Proof.Machine
end

