-- ==== Sys2Proof/Machine/PdTable.lean ====
section
/-! DEFINITION. The entries of the Parameter Directory (R492 to R496), gathered from the tables that close the chapters,
with their types, access, defaults and persistence; and how a value is encoded (R493). -/

namespace Sys2Proof.Machine

/-- The types of R493. -/
inductive PdType where
  | u8 | u16 | u32 | u64 | s32 | f32 | bool | enum | str | blob
  deriving DecidableEq, Repr

/-- The access codes of R494. -/
inductive PdAccess where
  | no | ro | rw | wo
  deriving DecidableEq, Repr

/-- An entry: its subindices `lo` to `hi`, type, access of the Operator, Composition and Public principals, numeric
default, default and maximum length in bytes, largest value its type and its entry's list allow, persistence, and whether
it lies in the Keeper's range 0x6000. -/
structure PdEntry where
  index  : Nat
  lo     : Nat
  hi     : Nat
  typ    : PdType
  op     : PdAccess
  cm     : PdAccess
  pb     : PdAccess
  dflt   : Nat
  dlen   : Nat
  maxLen : Nat
  most   : Nat
  stored : Bool
  keeper : Bool
  deriving DecidableEq, Repr

/-- The entries of the range 0x1000, part a (R496). -/
def pdTable1a : List PdEntry :=
  [⟨0x1000, 0, 0, .u16, .ro, .ro, .ro, 1, 0, 2, 65535, false, false⟩,
   ⟨0x1000, 1, 1, .str, .ro, .ro, .ro, 0, 0, 255, 0, false, false⟩,
   ⟨0x1000, 2, 2, .str, .ro, .ro, .ro, 0, 0, 255, 0, false, false⟩,
   ⟨0x1000, 3, 3, .u32, .ro, .ro, .ro, 0, 0, 4, 4294967295, false, false⟩,
   ⟨0x1000, 4, 4, .u32, .ro, .ro, .ro, 0, 0, 4, 4294967295, false, false⟩,
   ⟨0x1001, 0, 0, .u16, .rw, .ro, .ro, 0, 0, 2, 65535, true, false⟩,
   ⟨0x1002, 0, 0, .bool, .rw, .ro, .ro, 0, 0, 1, 1, true, false⟩,
   ⟨0x1003, 0, 0, .u32, .ro, .no, .no, 0, 0, 4, 4294967295, false, false⟩,
   ⟨0x1004, 0, 0, .u64, .ro, .no, .no, 0, 0, 8, 18446744073709551615, false, false⟩,
   ⟨0x1006, 0, 0, .bool, .wo, .no, .no, 0, 0, 1, 1, false, false⟩,
   ⟨0x1006, 1, 1, .u32, .ro, .no, .no, 0, 0, 4, 4294967295, false, false⟩,
   ⟨0x1006, 2, 2, .u64, .ro, .no, .no, 0, 0, 8, 18446744073709551615, false, false⟩,
   ⟨0x1006, 3, 3, .u32, .ro, .no, .no, 0, 0, 4, 4294967295, false, false⟩,
   ⟨0x1010, 0, 0, .u16, .ro, .no, .no, 0, 0, 2, 65535, false, false⟩,
   ⟨0x1020, 0, 0, .blob, .rw, .no, .no, 0, 6, 6, 0, true, false⟩,
   ⟨0x1020, 1, 1, .blob, .rw, .no, .no, 0, 5, 5, 0, true, false⟩,
   ⟨0x1020, 2, 2, .blob, .rw, .no, .no, 0, 17, 17, 0, true, false⟩,
   ⟨0x1020, 3, 3, .u16, .rw, .no, .no, 47322, 0, 2, 65535, true, false⟩,
   ⟨0x1021, 0, 0, .u8, .rw, .no, .no, 1, 0, 1, 255, true, false⟩,
   ⟨0x1030, 0, 0, .u32, .ro, .ro, .ro, 0, 0, 4, 4294967295, false, false⟩,
   ⟨0x1030, 1, 1, .u32, .ro, .no, .no, 0, 0, 4, 4294967295, false, false⟩,
   ⟨0x1030, 2, 2, .u32, .ro, .no, .no, 0, 0, 4, 4294967295, false, false⟩,
   ⟨0x1030, 3, 3, .u32, .ro, .no, .no, 0, 0, 4, 4294967295, false, false⟩,
   ⟨0x1100, 0, 0, .u64, .ro, .ro, .no, 0, 0, 8, 18446744073709551615, false, false⟩]

/-- The entries of the range 0x1000, part b (R496). -/
def pdTable1b : List PdEntry :=
  [⟨0x1101, 1, 1, .u32, .ro, .ro, .no, 0, 0, 4, 4294967295, false, false⟩,
   ⟨0x1101, 2, 2, .u64, .ro, .no, .no, 0, 0, 8, 18446744073709551615, false, false⟩,
   ⟨0x1101, 3, 3, .u32, .ro, .no, .no, 0, 0, 4, 4294967295, false, false⟩,
   ⟨0x1101, 4, 4, .u32, .ro, .ro, .no, 0, 0, 4, 4294967295, false, false⟩]

/-- The entries of the range 0x2000, part a (R496). -/
def pdTable2a : List PdEntry :=
  [⟨0x2001, 0, 0, .u16, .rw, .no, .no, 2400, 0, 2, 65535, true, false⟩,
   ⟨0x2002, 0, 0, .u16, .rw, .no, .no, 250, 0, 2, 65535, true, false⟩,
   ⟨0x2010, 0, 0, .u16, .ro, .no, .no, 0, 0, 2, 65535, false, false⟩,
   ⟨0x2011, 0, 8, .u16, .ro, .no, .no, 0, 0, 2, 65535, false, false⟩,
   ⟨0x2012, 0, 28, .s32, .ro, .no, .no, 0, 0, 4, 0, false, false⟩,
   ⟨0x2020, 1, 1, .blob, .ro, .no, .no, 0, 32, 32, 0, false, false⟩,
   ⟨0x2020, 2, 2, .u64, .ro, .no, .no, 0, 0, 8, 18446744073709551615, false, false⟩,
   ⟨0x2020, 3, 3, .u64, .ro, .no, .no, 0, 0, 8, 18446744073709551615, false, false⟩,
   ⟨0x2020, 4, 4, .u32, .ro, .no, .no, 0, 0, 4, 4294967295, false, false⟩,
   ⟨0x2020, 5, 5, .u32, .ro, .no, .no, 0, 0, 4, 4294967295, false, false⟩,
   ⟨0x2200, 0, 0, .u8, .ro, .no, .no, 0, 0, 1, 255, false, false⟩,
   ⟨0x2301, 0, 0, .u8, .rw, .no, .no, 20, 0, 1, 255, true, false⟩]

/-- The entries of the range 0x3000, part a (R496). -/
def pdTable3a : List PdEntry :=
  [⟨0x3001, 0, 0, .u16, .rw, .no, .no, 64, 0, 2, 65535, true, false⟩,
   ⟨0x3010, 1, 1, .u64, .ro, .no, .no, 0, 0, 8, 18446744073709551615, false, false⟩,
   ⟨0x3010, 2, 2, .u64, .ro, .no, .no, 0, 0, 8, 18446744073709551615, false, false⟩,
   ⟨0x3010, 3, 3, .u64, .ro, .no, .no, 0, 0, 8, 18446744073709551615, false, false⟩,
   ⟨0x3020, 1, 1, .u64, .ro, .no, .no, 0, 0, 8, 18446744073709551615, false, false⟩,
   ⟨0x3020, 2, 2, .u32, .ro, .no, .no, 0, 0, 4, 4294967295, false, false⟩,
   ⟨0x3020, 3, 3, .u32, .ro, .no, .no, 0, 0, 4, 4294967295, false, false⟩,
   ⟨0x3030, 0, 0, .enum, .ro, .no, .no, 0, 0, 1, 1, false, false⟩,
   ⟨0x3030, 1, 1, .u64, .ro, .no, .no, 0, 0, 8, 18446744073709551615, false, false⟩,
   ⟨0x3040, 1, 1, .u64, .ro, .no, .no, 0, 0, 8, 18446744073709551615, false, false⟩,
   ⟨0x3040, 2, 2, .u32, .ro, .no, .no, 0, 0, 4, 4294967295, false, false⟩,
   ⟨0x3050, 0, 15, .u64, .rw, .ro, .no, 0, 0, 8, 18446744073709551615, true, false⟩,
   ⟨0x3051, 0, 15, .u64, .ro, .ro, .no, 0, 0, 8, 18446744073709551615, false, false⟩,
   ⟨0x3060, 0, 0, .u8, .ro, .no, .no, 3, 0, 1, 255, false, false⟩,
   ⟨0x3060, 1, 1, .blob, .rw, .no, .no, 0, 16, 16, 0, true, false⟩,
   ⟨0x3060, 2, 2, .u64, .ro, .no, .no, 0, 0, 8, 18446744073709551615, false, false⟩,
   ⟨0x3201, 0, 15, .u32, .rw, .ro, .no, 65536, 0, 4, 4294967295, true, false⟩,
   ⟨0x3202, 0, 0, .u8, .rw, .ro, .no, 1, 0, 1, 255, true, false⟩,
   ⟨0x3203, 1, 1, .bool, .rw, .ro, .no, 1, 0, 1, 1, true, false⟩,
   ⟨0x3203, 2, 2, .u64, .rw, .ro, .no, 268435456, 0, 8, 18446744073709551615, true, false⟩,
   ⟨0x3203, 3, 3, .bool, .rw, .no, .no, 1, 0, 1, 1, true, false⟩,
   ⟨0x3204, 1, 1, .u32, .ro, .ro, .no, 0, 0, 4, 4294967295, false, false⟩,
   ⟨0x3204, 2, 2, .u32, .ro, .ro, .no, 0, 0, 4, 4294967295, false, false⟩,
   ⟨0x3204, 3, 3, .u32, .ro, .ro, .no, 0, 0, 4, 4294967295, false, false⟩]

/-- The entries of the range 0x3000, part b (R496). -/
def pdTable3b : List PdEntry :=
  [⟨0x3204, 4, 4, .u64, .ro, .ro, .no, 0, 0, 8, 18446744073709551615, false, false⟩,
   ⟨0x3204, 5, 5, .u64, .ro, .ro, .no, 0, 0, 8, 18446744073709551615, false, false⟩,
   ⟨0x3205, 0, 0, .bool, .rw, .no, .no, 1, 0, 1, 1, true, false⟩,
   ⟨0x3210, 1, 1, .u32, .ro, .no, .no, 0, 0, 4, 4294967295, false, false⟩,
   ⟨0x3210, 2, 2, .u64, .ro, .ro, .no, 0, 0, 8, 18446744073709551615, false, false⟩,
   ⟨0x3210, 3, 3, .u64, .ro, .ro, .no, 0, 0, 8, 18446744073709551615, false, false⟩,
   ⟨0x3210, 4, 4, .u64, .ro, .ro, .no, 0, 0, 8, 18446744073709551615, false, false⟩,
   ⟨0x3210, 5, 5, .u64, .ro, .no, .no, 0, 0, 8, 18446744073709551615, false, false⟩,
   ⟨0x3211, 0, 15, .bool, .rw, .ro, .no, 1, 0, 1, 1, true, false⟩,
   ⟨0x3301, 0, 15, .enum, .rw, .ro, .no, 0, 0, 1, 1, true, false⟩,
   ⟨0x3302, 0, 15, .u8, .rw, .ro, .no, 12, 0, 1, 255, true, false⟩,
   ⟨0x3303, 0, 15, .u8, .rw, .ro, .no, 4, 0, 1, 255, true, false⟩,
   ⟨0x3304, 0, 15, .u8, .rw, .ro, .no, 48, 0, 1, 255, true, false⟩,
   ⟨0x3305, 0, 15, .u32, .ro, .ro, .no, 0, 0, 4, 4294967295, false, false⟩,
   ⟨0x3306, 0, 15, .u32, .ro, .ro, .no, 0, 0, 4, 4294967295, false, false⟩,
   ⟨0x3307, 0, 0, .u8, .rw, .no, .no, 12, 0, 1, 255, true, false⟩,
   ⟨0x3310, 1, 1, .u64, .ro, .ro, .no, 0, 0, 8, 18446744073709551615, false, false⟩,
   ⟨0x3310, 2, 2, .u32, .ro, .ro, .no, 0, 0, 4, 4294967295, false, false⟩,
   ⟨0x3310, 3, 3, .u64, .ro, .ro, .no, 0, 0, 8, 18446744073709551615, false, false⟩,
   ⟨0x3310, 4, 4, .u32, .ro, .no, .no, 0, 0, 4, 4294967295, false, false⟩,
   ⟨0x3310, 5, 5, .u64, .ro, .no, .no, 0, 0, 8, 18446744073709551615, false, false⟩,
   ⟨0x3350, 0, 15, .u64, .ro, .ro, .no, 0, 0, 8, 18446744073709551615, false, false⟩,
   ⟨0x3351, 0, 15, .u64, .ro, .ro, .no, 0, 0, 8, 18446744073709551615, false, false⟩,
   ⟨0x3352, 0, 15, .u64, .rw, .ro, .no, 1073741824, 0, 8, 18446744073709551615, true, false⟩]

/-- The entries of the range 0x3000, part c (R496). -/
def pdTable3c : List PdEntry :=
  [⟨0x3353, 0, 0, .u32, .ro, .no, .no, 0, 0, 4, 4294967295, false, false⟩,
   ⟨0x3400, 0, 15, .blob, .rw, .ro, .no, 0, 0, 64, 0, true, false⟩,
   ⟨0x3401, 0, 15, .u32, .rw, .ro, .no, 0, 0, 4, 4294967295, true, false⟩,
   ⟨0x3402, 0, 15, .u64, .ro, .ro, .no, 0, 0, 8, 18446744073709551615, false, false⟩,
   ⟨0x3403, 0, 15, .u64, .ro, .ro, .no, 0, 0, 8, 18446744073709551615, false, false⟩,
   ⟨0x3404, 0, 15, .u64, .rw, .ro, .no, 268435456, 0, 8, 18446744073709551615, true, false⟩,
   ⟨0x3410, 0, 0, .u16, .rw, .no, .no, 24, 0, 2, 65535, true, false⟩,
   ⟨0x3410, 1, 1, .u64, .rw, .no, .no, 16777216, 0, 8, 18446744073709551615, true, false⟩,
   ⟨0x3410, 2, 2, .u32, .rw, .no, .no, 1000, 0, 4, 4294967295, true, false⟩,
   ⟨0x3411, 0, 0, .u32, .ro, .no, .no, 0, 0, 4, 4294967295, false, false⟩]

/-- The entries of the range 0x4000, part a (R496). -/
def pdTable4a : List PdEntry :=
  [⟨0x4001, 0, 7, .enum, .rw, .no, .no, 0, 0, 1, 3, true, false⟩,
   ⟨0x4002, 0, 7, .blob, .rw, .no, .no, 0, 16, 16, 0, true, false⟩,
   ⟨0x4003, 0, 0, .u32, .rw, .no, .no, 0, 0, 4, 4294967295, true, false⟩,
   ⟨0x4004, 0, 0, .blob, .rw, .no, .no, 0, 256, 256, 0, true, false⟩,
   ⟨0x4005, 0, 0, .u16, .rw, .no, .no, 47321, 0, 2, 65535, true, false⟩,
   ⟨0x4005, 1, 1, .u8, .rw, .no, .no, 0, 0, 1, 255, true, false⟩,
   ⟨0x4005, 2, 2, .u8, .rw, .no, .no, 0, 0, 1, 255, true, false⟩,
   ⟨0x4006, 0, 7, .blob, .rw, .no, .no, 0, 0, 64, 0, true, false⟩,
   ⟨0x4010, 0, 7, .u64, .ro, .no, .no, 0, 0, 8, 18446744073709551615, false, false⟩,
   ⟨0x4011, 0, 7, .u64, .ro, .no, .no, 0, 0, 8, 18446744073709551615, false, false⟩,
   ⟨0x4012, 0, 7, .u64, .ro, .no, .no, 0, 0, 8, 18446744073709551615, false, false⟩,
   ⟨0x4013, 0, 7, .u64, .ro, .no, .no, 0, 0, 8, 18446744073709551615, false, false⟩,
   ⟨0x4014, 0, 7, .u32, .ro, .no, .no, 0, 0, 4, 4294967295, false, false⟩,
   ⟨0x4015, 0, 7, .u64, .ro, .no, .no, 0, 0, 8, 18446744073709551615, false, false⟩,
   ⟨0x4016, 0, 7, .u64, .ro, .no, .no, 0, 0, 8, 18446744073709551615, false, false⟩,
   ⟨0x4017, 0, 7, .u32, .ro, .no, .no, 0, 0, 4, 4294967295, false, false⟩,
   ⟨0x4018, 0, 7, .blob, .ro, .no, .no, 0, 24, 24, 0, false, false⟩,
   ⟨0x4019, 0, 0, .u32, .ro, .no, .no, 0, 0, 4, 4294967295, false, false⟩,
   ⟨0x4101, 0, 0, .u32, .rw, .no, .no, 10, 0, 4, 4294967295, true, false⟩,
   ⟨0x4101, 1, 1, .u32, .rw, .no, .no, 40, 0, 4, 4294967295, true, false⟩,
   ⟨0x4101, 2, 2, .u8, .rw, .no, .no, 4, 0, 1, 255, true, false⟩,
   ⟨0x4101, 3, 3, .u32, .rw, .no, .no, 100, 0, 4, 4294967295, true, false⟩,
   ⟨0x4102, 0, 0, .u32, .rw, .ro, .no, 262144, 0, 4, 4294967295, true, false⟩,
   ⟨0x4102, 1, 1, .u32, .rw, .ro, .no, 16384, 0, 4, 4294967295, true, false⟩]

/-- The entries of the range 0x4000, part b (R496). -/
def pdTable4b : List PdEntry :=
  [⟨0x4102, 2, 2, .u32, .rw, .ro, .no, 4194304, 0, 4, 4294967295, true, false⟩,
   ⟨0x4103, 0, 0, .u16, .rw, .no, .no, 64, 0, 2, 65535, true, false⟩,
   ⟨0x4103, 1, 1, .u16, .rw, .no, .no, 16, 0, 2, 65535, true, false⟩,
   ⟨0x4120, 0, 63, .u32, .rw, .no, .no, 0, 0, 4, 4294967295, true, false⟩,
   ⟨0x4121, 0, 0, .u32, .rw, .no, .no, 200, 0, 4, 4294967295, true, false⟩,
   ⟨0x4121, 1, 1, .u32, .rw, .no, .no, 2000, 0, 4, 4294967295, true, false⟩,
   ⟨0x4150, 1, 1, .u64, .rw, .no, .no, 0, 0, 8, 18446744073709551615, false, false⟩,
   ⟨0x4150, 2, 2, .u32, .rw, .no, .no, 1024, 0, 4, 4294967295, false, false⟩,
   ⟨0x4150, 3, 3, .u64, .ro, .no, .no, 0, 0, 8, 18446744073709551615, false, false⟩,
   ⟨0x4150, 4, 4, .u32, .ro, .no, .no, 0, 0, 4, 4294967295, false, false⟩,
   ⟨0x4150, 5, 5, .u32, .ro, .no, .no, 0, 0, 4, 4294967295, false, false⟩,
   ⟨0x4151, 0, 15, .u64, .rw, .rw, .no, 0, 0, 8, 18446744073709551615, false, false⟩,
   ⟨0x4152, 0, 15, .u32, .rw, .rw, .no, 256, 0, 4, 4294967295, false, false⟩,
   ⟨0x4160, 1, 1, .u64, .ro, .ro, .no, 0, 0, 8, 18446744073709551615, false, false⟩,
   ⟨0x4160, 2, 2, .u64, .ro, .ro, .no, 0, 0, 8, 18446744073709551615, false, false⟩,
   ⟨0x4160, 3, 3, .u64, .ro, .ro, .no, 0, 0, 8, 18446744073709551615, false, false⟩,
   ⟨0x4160, 4, 4, .u64, .ro, .no, .no, 0, 0, 8, 18446744073709551615, false, false⟩,
   ⟨0x4160, 5, 5, .u32, .ro, .no, .no, 0, 0, 4, 4294967295, false, false⟩,
   ⟨0x4160, 6, 6, .u64, .ro, .no, .no, 0, 0, 8, 18446744073709551615, false, false⟩,
   ⟨0x4160, 7, 7, .u64, .ro, .no, .no, 0, 0, 8, 18446744073709551615, false, false⟩,
   ⟨0x4160, 8, 8, .u64, .ro, .no, .no, 0, 0, 8, 18446744073709551615, false, false⟩,
   ⟨0x4160, 9, 9, .u64, .ro, .ro, .no, 0, 0, 8, 18446744073709551615, false, false⟩,
   ⟨0x4160, 10, 10, .u64, .ro, .no, .no, 0, 0, 8, 18446744073709551615, false, false⟩,
   ⟨0x4160, 11, 11, .u64, .ro, .ro, .no, 0, 0, 8, 18446744073709551615, false, false⟩]

/-- The entries of the range 0x4000, part c (R496). -/
def pdTable4c : List PdEntry :=
  [⟨0x4201, 0, 7, .u8, .rw, .no, .no, 0, 0, 1, 255, true, false⟩,
   ⟨0x4202, 0, 63, .u16, .rw, .no, .no, 0, 0, 2, 65535, true, false⟩,
   ⟨0x4210, 0, 15, .u32, .rw, .ro, .no, 0, 0, 4, 4294967295, true, false⟩,
   ⟨0x4211, 0, 15, .u64, .ro, .ro, .no, 0, 0, 8, 18446744073709551615, false, false⟩,
   ⟨0x4212, 0, 0, .u64, .ro, .no, .no, 0, 0, 8, 18446744073709551615, false, false⟩,
   ⟨0x4220, 1, 1, .u64, .rw, .no, .no, 0, 0, 8, 18446744073709551615, false, false⟩,
   ⟨0x4220, 2, 2, .u32, .rw, .no, .no, 4096, 0, 4, 4294967295, false, false⟩,
   ⟨0x4220, 3, 3, .u32, .rw, .no, .no, 250000, 0, 4, 4294967295, true, false⟩,
   ⟨0x4220, 5, 5, .u32, .ro, .no, .no, 0, 0, 4, 4294967295, false, false⟩,
   ⟨0x4220, 6, 6, .u32, .ro, .no, .no, 0, 0, 4, 4294967295, false, false⟩,
   ⟨0x4301, 0, 111, .enum, .rw, .no, .no, 16, 0, 1, 17, true, false⟩,
   ⟨0x4301, 112, 127, .enum, .rw, .no, .no, 17, 0, 1, 17, true, false⟩,
   ⟨0x4310, 0, 0, .u64, .ro, .ro, .no, 0, 0, 8, 18446744073709551615, false, false⟩,
   ⟨0x4310, 1, 1, .u32, .ro, .ro, .no, 0, 0, 4, 4294967295, false, false⟩]

/-- The entries of the range 0x5000, part a (R496). -/
def pdTable5a : List PdEntry :=
  [⟨0x5001, 0, 0, .u64, .wo, .no, .no, 0, 0, 8, 18446744073709551615, false, false⟩,
   ⟨0x5001, 1, 1, .u32, .ro, .no, .no, 0, 0, 4, 4294967295, false, false⟩,
   ⟨0x5002, 0, 0, .u16, .ro, .ro, .ro, 0, 0, 2, 65535, false, false⟩,
   ⟨0x5003, 0, 0, .u32, .rw, .no, .no, 100000, 0, 4, 4294967295, true, false⟩,
   ⟨0x5005, 0, 15, .enum, .ro, .ro, .no, 0, 0, 1, 5, false, false⟩,
   ⟨0x5006, 0, 15, .bool, .wo, .no, .no, 0, 0, 1, 1, false, false⟩,
   ⟨0x5007, 0, 15, .u64, .rw, .ro, .no, 268435456, 0, 8, 18446744073709551615, true, false⟩,
   ⟨0x5010, 0, 15, .blob, .rw, .ro, .no, 0, 0, 64, 0, true, false⟩,
   ⟨0x5030, 0, 0, .blob, .wo, .no, .no, 0, 0, 32, 0, false, false⟩,
   ⟨0x5030, 1, 1, .u64, .ro, .no, .no, 0, 0, 8, 18446744073709551615, false, false⟩,
   ⟨0x5031, 0, 15, .u16, .rw, .no, .no, 0, 0, 2, 65535, true, false⟩,
   ⟨0x5040, 0, 15, .u64, .ro, .ro, .no, 0, 0, 8, 18446744073709551615, true, false⟩,
   ⟨0x5041, 0, 15, .u64, .ro, .ro, .no, 0, 0, 8, 18446744073709551615, true, false⟩,
   ⟨0x5042, 0, 15, .u64, .ro, .ro, .no, 0, 0, 8, 18446744073709551615, true, false⟩,
   ⟨0x5043, 0, 15, .u32, .ro, .ro, .no, 0, 0, 4, 4294967295, true, false⟩,
   ⟨0x5044, 0, 0, .u32, .ro, .no, .no, 0, 0, 4, 4294967295, false, false⟩,
   ⟨0x5100, 0, 255, .blob, .rw, .no, .no, 0, 0, 32, 0, true, false⟩,
   ⟨0x5101, 0, 255, .blob, .rw, .no, .no, 0, 0, 32, 0, true, false⟩,
   ⟨0x5102, 0, 255, .blob, .rw, .no, .no, 0, 0, 32, 0, true, false⟩,
   ⟨0x5103, 0, 255, .blob, .rw, .no, .no, 0, 0, 32, 0, true, false⟩,
   ⟨0x5104, 0, 255, .blob, .rw, .no, .no, 0, 0, 32, 0, true, false⟩,
   ⟨0x5105, 0, 255, .blob, .rw, .no, .no, 0, 0, 32, 0, true, false⟩,
   ⟨0x5106, 0, 255, .blob, .rw, .no, .no, 0, 0, 32, 0, true, false⟩,
   ⟨0x5107, 0, 255, .blob, .rw, .no, .no, 0, 0, 32, 0, true, false⟩]

/-- The entries of the range 0x5000, part b (R496). -/
def pdTable5b : List PdEntry :=
  [⟨0x5108, 0, 255, .blob, .rw, .no, .no, 0, 0, 32, 0, true, false⟩,
   ⟨0x5109, 0, 255, .blob, .rw, .no, .no, 0, 0, 32, 0, true, false⟩,
   ⟨0x510A, 0, 255, .blob, .rw, .no, .no, 0, 0, 32, 0, true, false⟩,
   ⟨0x510B, 0, 255, .blob, .rw, .no, .no, 0, 0, 32, 0, true, false⟩,
   ⟨0x510C, 0, 255, .blob, .rw, .no, .no, 0, 0, 32, 0, true, false⟩,
   ⟨0x510D, 0, 255, .blob, .rw, .no, .no, 0, 0, 32, 0, true, false⟩,
   ⟨0x510E, 0, 255, .blob, .rw, .no, .no, 0, 0, 32, 0, true, false⟩,
   ⟨0x510F, 0, 255, .blob, .rw, .no, .no, 0, 0, 32, 0, true, false⟩]

/-- The entries of the range 0x6000, part a (R496). -/
def pdTable6a : List PdEntry :=
  [⟨0x6001, 0, 0, .enum, .rw, .no, .no, 0, 0, 1, 1, true, true⟩,
   ⟨0x6002, 0, 0, .blob, .rw, .no, .no, 0, 0, 8192, 0, true, true⟩,
   ⟨0x6002, 1, 1, .blob, .rw, .no, .no, 0, 0, 8192, 0, true, true⟩,
   ⟨0x6010, 0, 15, .u16, .ro, .no, .no, 0, 0, 2, 65535, false, true⟩,
   ⟨0x6011, 0, 15, .u8, .ro, .no, .no, 0, 0, 1, 255, false, true⟩,
   ⟨0x6020, 0, 31, .blob, .ro, .no, .no, 0, 0, 8192, 0, false, true⟩,
   ⟨0x6030, 0, 0, .u32, .ro, .no, .no, 0, 0, 4, 4294967295, false, true⟩]

/-- The entries of the range 0x7000, part a (R496). -/
def pdTable7a : List PdEntry :=
  [⟨0x7001, 0, 0, .u16, .rw, .ro, .no, 1, 0, 2, 65535, false, false⟩,
   ⟨0x7002, 0, 0, .u16, .rw, .ro, .no, 1024, 0, 2, 65535, false, false⟩,
   ⟨0x7003, 1, 1, .bool, .rw, .no, .no, 0, 0, 1, 1, true, false⟩,
   ⟨0x7003, 2, 2, .u8, .rw, .no, .no, 0, 0, 1, 255, true, false⟩,
   ⟨0x7004, 0, 0, .blob, .rw, .no, .no, 0, 2048, 2048, 0, false, false⟩,
   ⟨0x7004, 1, 1, .blob, .rw, .no, .no, 0, 2048, 2048, 0, false, false⟩,
   ⟨0x7005, 0, 0, .blob, .wo, .no, .no, 0, 0, 16, 0, false, false⟩,
   ⟨0x7006, 0, 0, .u32, .rw, .no, .no, 10000, 0, 4, 4294967295, true, false⟩,
   ⟨0x7010, 1, 1, .u32, .ro, .no, .no, 0, 0, 4, 4294967295, false, false⟩,
   ⟨0x7010, 2, 2, .u32, .ro, .no, .no, 0, 0, 4, 4294967295, false, false⟩,
   ⟨0x7010, 3, 3, .u32, .ro, .no, .no, 0, 0, 4, 4294967295, false, false⟩,
   ⟨0x7020, 1, 1, .f32, .rw, .ro, .no, 1065353216, 0, 4, 0, true, false⟩,
   ⟨0x7020, 2, 2, .f32, .rw, .ro, .no, 1067450368, 0, 4, 0, true, false⟩,
   ⟨0x7020, 3, 3, .u16, .rw, .ro, .no, 4, 0, 2, 65535, true, false⟩,
   ⟨0x7030, 0, 0, .u32, .rw, .no, .no, 262144, 0, 4, 4294967295, true, false⟩,
   ⟨0x7040, 1, 1, .u64, .rw, .no, .no, 0, 0, 8, 18446744073709551615, false, false⟩,
   ⟨0x7040, 2, 2, .u32, .rw, .no, .no, 1024, 0, 4, 4294967295, false, false⟩,
   ⟨0x7040, 3, 3, .u64, .ro, .ro, .no, 0, 0, 8, 18446744073709551615, false, false⟩,
   ⟨0x7040, 4, 4, .u32, .ro, .no, .no, 0, 0, 4, 4294967295, false, false⟩,
   ⟨0x7041, 0, 15, .u64, .rw, .rw, .no, 0, 0, 8, 18446744073709551615, false, false⟩,
   ⟨0x7042, 0, 15, .u32, .rw, .rw, .no, 256, 0, 4, 4294967295, false, false⟩,
   ⟨0x7043, 0, 15, .u32, .ro, .ro, .no, 0, 0, 4, 4294967295, false, false⟩,
   ⟨0x7100, 0, 0, .blob, .rw, .no, .no, 0, 0, 256, 0, true, false⟩,
   ⟨0x7101, 0, 0, .u32, .rw, .no, .no, 1000, 0, 4, 4294967295, true, false⟩]

/-- The entries of the range 0x7000, part b (R496). -/
def pdTable7b : List PdEntry :=
  [⟨0x7102, 0, 0, .blob, .rw, .no, .no, 0, 0, 512, 0, true, false⟩,
   ⟨0x7104, 0, 0, .u64, .ro, .ro, .no, 0, 0, 8, 18446744073709551615, false, false⟩,
   ⟨0x7120, 0, 0, .blob, .wo, .no, .no, 0, 0, 32, 0, false, false⟩,
   ⟨0x7120, 1, 1, .u64, .ro, .no, .no, 0, 0, 8, 18446744073709551615, false, false⟩,
   ⟨0x7130, 0, 0, .u8, .rw, .no, .no, 0, 0, 1, 255, true, false⟩]

/-- The entries of the range 0x8000, part a (R496). -/
def pdTable8a : List PdEntry :=
  [⟨0x8001, 0, 15, .u8, .rw, .ro, .no, 90, 0, 1, 255, true, false⟩,
   ⟨0x8002, 0, 15, .u8, .rw, .ro, .no, 80, 0, 1, 255, true, false⟩,
   ⟨0x8003, 0, 15, .u64, .rw, .ro, .no, 268435456, 0, 8, 18446744073709551615, true, false⟩,
   ⟨0x8004, 0, 15, .u64, .rw, .ro, .no, 67108864, 0, 8, 18446744073709551615, true, false⟩,
   ⟨0x8005, 0, 15, .u32, .rw, .ro, .no, 20000, 0, 4, 4294967295, true, false⟩,
   ⟨0x8006, 0, 15, .u64, .rw, .ro, .no, 8589934592, 0, 8, 18446744073709551615, true, false⟩,
   ⟨0x8010, 0, 15, .u64, .rw, .ro, .no, 0, 0, 8, 18446744073709551615, false, false⟩,
   ⟨0x8011, 0, 15, .u32, .rw, .ro, .no, 256, 0, 4, 4294967295, false, false⟩,
   ⟨0x8020, 0, 0, .bool, .rw, .no, .no, 0, 0, 1, 1, true, false⟩,
   ⟨0x8030, 0, 63, .blob, .rw, .no, .no, 0, 0, 32, 0, true, false⟩,
   ⟨0x8031, 0, 0, .blob, .rw, .no, .no, 0, 192, 192, 0, true, false⟩,
   ⟨0x8040, 0, 63, .blob, .rw, .ro, .no, 0, 0, 64, 0, true, false⟩,
   ⟨0x8050, 1, 1, .u64, .ro, .ro, .no, 0, 0, 8, 18446744073709551615, false, false⟩,
   ⟨0x8050, 2, 2, .u64, .ro, .ro, .no, 0, 0, 8, 18446744073709551615, false, false⟩,
   ⟨0x8050, 3, 3, .u32, .ro, .ro, .no, 0, 0, 4, 4294967295, false, false⟩,
   ⟨0x8050, 4, 4, .u32, .ro, .no, .no, 0, 0, 4, 4294967295, false, false⟩,
   ⟨0x8050, 5, 5, .u32, .ro, .no, .no, 0, 0, 4, 4294967295, false, false⟩,
   ⟨0x8050, 6, 6, .u32, .ro, .ro, .no, 0, 0, 4, 4294967295, false, false⟩]

/-- The entries of the range 0xA000, part a (R496). -/
def pdTableAa : List PdEntry :=
  [⟨0xA010, 0, 0, .bool, .rw, .no, .no, 0, 0, 1, 1, false, false⟩,
   ⟨0xA100, 0, 0, .blob, .wo, .no, .no, 0, 0, 16, 0, false, false⟩,
   ⟨0xA100, 1, 1, .u32, .ro, .no, .no, 0, 0, 4, 4294967295, false, false⟩,
   ⟨0xA101, 0, 63, .blob, .ro, .no, .no, 0, 0, 32, 0, false, false⟩,
   ⟨0xA102, 0, 0, .u32, .ro, .no, .no, 0, 0, 4, 4294967295, false, false⟩]

/-- Every entry, in ascending order (R492). -/
def pdTable : List PdEntry :=
  pdTable1a ++ pdTable1b ++ pdTable2a ++ pdTable3a ++ pdTable3b ++ pdTable3c ++ pdTable4a ++ pdTable4b ++ pdTable4c ++ pdTable5a ++ pdTable5b ++ pdTable6a ++ pdTable7a ++ pdTable7b ++ pdTable8a ++ pdTableAa

/-- The entry at an index and subindex. -/
def pdFind (index sub : Nat) : Option PdEntry :=
  pdTable.find? fun e => e.index == index && e.lo ≤ sub && sub ≤ e.hi

/-- A number in `n` little-endian bytes (R5, R493). -/
def leBytes : Nat → Nat → List Byte
  | 0, _ => []
  | n + 1, v => BitVec.ofNat 8 v :: leBytes n (v / 256)

/-- The number that little-endian bytes hold (R5). -/
def leNat : List Byte → Nat
  | [] => 0
  | b :: bs => b.toNat + 256 * leNat bs

/-- Whether a type is a byte string rather than a number. -/
def PdType.isBytes : PdType → Bool
  | .str | .blob => true
  | _ => false

/-- Code of a type (R493). -/
def PdType.code : PdType → Nat
  | .u8 => 1 | .u16 => 2 | .u32 => 3 | .u64 => 4 | .s32 => 5 | .f32 => 6 | .bool => 7 | .enum => 8 | .str => 9 | .blob => 10

/-- Code of an access in DESCRIBE (R501). -/
def PdAccess.code : PdAccess → Nat
  | .no => 0 | .ro => 1 | .rw => 2 | .wo => 3

/-- The defaults that their chapters give as values of several bytes: the ordering code, the buffer shares of R273, the
bank configuration of R221. -/
def pdSpecial (index sub : Nat) : Option (List Byte) :=
  match index, sub with
  | 0x1000, 1 => some [0x41, 0x56, 0x32, 0x34, 0x30, 0x30, 0x2D, 0x4C, 0x43]
  | 0x1000, 2 => some ((List.range 20).map Config.serialNumber)
  | 0x1000, 3 => some (leBytes 4 (Config.imageVersion 0).toNat)
  | 0x1000, 4 => some (leBytes 4 (Config.imageVersion 1).toNat)
  | 0x1020, 0 => some ((List.range 6).map Config.bootMac)
  | 0x3060, 1 => some (List.replicate 12 1 ++ List.replicate 4 6)
  | 0x4002, _ => some (([192, 512, 512, 128, 128, 512, 64, 0].map (leBytes 2)).flatten)
  | _, _ => none

/-- The default of an entry, as its bytes. -/
def pdDefault (index sub : Nat) : List Byte :=
  match pdSpecial index sub, pdFind index sub with
  | some b, _ => b
  | none, some e => if e.typ.isBytes then List.replicate e.dlen 0 else leBytes e.maxLen e.dflt
  | none, none => []

end Sys2Proof.Machine
end

