-- ==== Sys2Proof/Machine/Ops.lean ====
section
/-! DEFINITION. The named operations over the node's state: finite maps, memory, time and Phase, Directory values and
counters, records of the rings. -/

namespace Sys2Proof.Machine

/-- The outcome type of a meaning. -/
abbrev Res := Host.Outcome State Fault Refusal

/-! ### Finite maps -/

/-- The value at a key, if the map holds one. -/
def look {α : Type} : Assoc α → Nat → Option α
  | [], _ => none
  | (k, v) :: m, i => if k = i then some v else look m i

/-- The map with a value at a key; keys ascend. -/
def put {α : Type} : Assoc α → Nat → α → Assoc α
  | [], i, x => [(i, x)]
  | (k, v) :: m, i, x =>
    if i < k then (i, x) :: (k, v) :: m else if k = i then (i, x) :: m else (k, v) :: put m i x

/-- The map without a key. -/
def drop {α : Type} (m : Assoc α) (i : Nat) : Assoc α := m.filter (fun p => p.1 != i)

/-- The value at a key, or a default. -/
def lookD {α : Type} (m : Assoc α) (i : Nat) (d : α) : α := (look m i).getD d

/-- A counter of a map raised by `n`. -/
def bump (m : Assoc Nat) (i n : Nat) : Assoc Nat := put m i (lookD m i 0 + n)

/-- Replace the elements of a list that meet a test. -/
def mapIf {α : Type} (p : α → Bool) (f : α → α) (l : List α) : List α := l.map fun x => if p x then f x else x

/-! ### Memory -/

/-- The byte at an address; an unlisted one reads zero, as zeroisation leaves it (R380). -/
def Memory.read : List Host.Cell → Nat → Byte
  | [], _ => 0
  | (a, b) :: m, i => if a = i then b else Memory.read m i

/-- Store one byte, keeping the canonical form: addresses rise and no entry is zero. -/
def Memory.write : List Host.Cell → Nat → Byte → List Host.Cell
  | [], i, x => if x = 0 then [] else [(i, x)]
  | (a, b) :: m, i, x =>
    if i < a then (if x = 0 then (a, b) :: m else (i, x) :: (a, b) :: m)
    else if a = i then (if x = 0 then m else (i, x) :: m)
    else (a, b) :: Memory.write m i x

/-- Store bytes from an address on. -/
def Memory.writes (m : List Host.Cell) : Nat → List Byte → List Host.Cell
  | _, [] => m
  | i, b :: bs => Memory.writes (Memory.write m i b) (i + 1) bs

/-- The `n` bytes from an address on. -/
def Memory.reads (m : List Host.Cell) (i : Nat) : Nat → List Byte
  | 0 => []
  | n + 1 => Memory.read m i :: Memory.reads m (i + 1) n

/-- Zeroise a range. -/
def Memory.zero (m : List Host.Cell) (lo len : Nat) : List Host.Cell :=
  m.filter fun c => decide (c.1 < lo ∨ lo + len ≤ c.1)

/-- The canonical form: addresses strictly rise and no entry is zero. -/
def Memory.wf : List Host.Cell → Bool
  | [] => true
  | [(_, b)] => b != 0
  | (a, b) :: (a', b') :: m => b != 0 && decide (a < a') && Memory.wf ((a', b') :: m)

/-- The page-cache lines that a write of `len` bytes at `a` leaves valid: all but the matching 256 B lines (R218, R220). -/
def linesKept (lines : List (Nat × Nat × Nat × Nat)) (a len : Nat) : List (Nat × Nat × Nat × Nat) :=
  lines.filter fun l => decide (len = 0 ∨ l.2.2.2 < a / 256 ∨ (a + len - 1) / 256 < l.2.2.2)

/-- Store bytes in the node's memory; every HBM write invalidates the matching lines of the page caches (R220). -/
def State.store (s : State) (a : Nat) (bs : List Byte) : State :=
  { s with mem := Memory.writes s.mem a bs, hbm := { s.hbm with lines := linesKept s.hbm.lines a bs.length } }

/-- Zeroise a range of the node's memory, and with it the cached lines of that range (R219). -/
def State.zeroise (s : State) (lo len : Nat) : State :=
  { s with mem := Memory.zero s.mem lo len, hbm := { s.hbm with lines := linesKept s.hbm.lines lo len } }

/-- Bytes of the node's memory. -/
def State.load (s : State) (a n : Nat) : List Byte := Memory.reads s.mem a n

/-- A little-endian number in the node's memory (R5). -/
def State.loadNat (s : State) (a n : Nat) : Nat := leNat (s.load a n)

/-- First NPA of tile SRAM (R198). -/
def sramBase : Nat := 0x1000000000000
/-- First NPA of the register window (R198). -/
def regBase : Nat := 0x2000000000000
/-- First NPA of the schedule window (R198). -/
def schBase : Nat := 0x3000000000000
/-- First NPA of the directory image (R198). -/
def adirBase : Nat := 0x4000000000000
/-- First NPA of the hardpan extent space (R198). -/
def hardpanBase : Nat := 0x8000000000000

/-- Whether an NPA lies in HBM (R198). -/
def isHbm (a : Nat) : Bool := a < 0x18000000000

/-- Whether an NPA lies in a tile's SRAM (R198). -/
def isSram (a : Nat) : Bool :=
  sramBase ≤ a && a < sramBase + 0x18000000 && (a - sramBase) % 0x800000 < 0x600000

/-- The global pseudo-channel of an HBM address (R199). -/
def pcOf (a : Nat) : Nat := a / 2 ^ 30

/-- The slice that owns an HBM address: 32 pseudo-channels each (R350). -/
def sliceOf (a : Nat) : Nat := pcOf a / 32

/-! ### Time and Phase -/

/-- The local timer at a command's arrival: it never runs back, and stands while REFCLK_CORE is lost (R533)
and after a thermal trip, which stops every clock (R455). -/
def State.arrive (s : State) (t : Nat) : State :=
  if s.boot.coreClk && !s.pwr.trip then { s with timer := max s.timer t } else s

/-- Timer units of 0.25 ns in a microsecond. -/
def us : Nat := 4000

/-- Timer units in a millisecond. -/
def ms : Nat := 4000000

/-- A Phase from its fields (R26). -/
def mkPhase (step layer tick : Nat) : Phase := BitVec.ofNat 64 (step % 2 ^ 36 * 2 ^ 28 + layer % 2 ^ 12 * 2 ^ 16 + min tick 65535)

/-- Step of a Phase (R26). -/
def phStep (p : Phase) : Nat := bitsOf p.toNat 28 36
/-- Layer of a Phase (R26). -/
def phLayer (p : Phase) : Nat := bitsOf p.toNat 16 12
/-- Tick of a Phase (R26). -/
def phTick (p : Phase) : Nat := bitsOf p.toNat 0 16

/-- Phase `a` is earlier than Phase `b` (R28). -/
def earlier (a b : Phase) : Bool := 1 ≤ (b - a).toNat && (b - a).toNat ≤ 2 ^ 63 - 1

/-- On 32-bit sequences, `a` is earlier than `b` (R28, R306). -/
def seqEarlier (a b : BitVec 32) : Bool := 1 ≤ (b - a).toNat && (b - a).toNat ≤ 2 ^ 31 - 1

/-! ### Outputs, free values -/

/-- Record what leaves the node (log entry 5). -/
def State.emit (s : State) (o : Out) : State := { s with out := o :: s.out }

/-- Draw the index of a fresh free value. -/
def State.draw (s : State) : Nat × State := (s.free, { s with free := s.free + 1 })

/-! ### Directory values -/

/-- The value in force of an entry, as bytes (R495). -/
def PdSt.bytes (p : PdSt) (index sub : Nat) : List Byte :=
  match p.vals.find? (fun v => v.1 == index && v.2.1 == sub) with
  | some v => v.2.2
  | none => pdDefault index sub

/-- The value in force of a numeric entry. -/
def State.pdNum (s : State) (index sub : Nat) : Nat := leNat (s.pd.bytes index sub)

/-- Whether a BOOL entry holds 1. -/
def State.pdBool (s : State) (index sub : Nat) : Bool := s.pdNum index sub == 1

/-- Put the value of an entry in force. -/
def PdSt.setBytes (p : PdSt) (index sub : Nat) (b : List Byte) : PdSt :=
  { p with vals := p.vals.filter (fun v => !(v.1 == index && v.2.1 == sub)) ++ [(index, sub, b)] }

/-- Put the value of an entry in force, in the whole state. -/
def State.pdSet (s : State) (index sub : Nat) (b : List Byte) : State := { s with pd := s.pd.setBytes index sub b }

/-- Put the value of a numeric entry in force. -/
def State.pdSetNum (s : State) (index sub v : Nat) : State :=
  s.pdSet index sub (leBytes ((pdFind index sub).elim 8 PdEntry.maxLen) v)

/-- A counter of the Directory. -/
def PdSt.count (p : PdSt) (index sub : Nat) : Nat :=
  match p.cnt.find? (fun v => v.1 == index && v.2.1 == sub) with
  | some v => v.2.2
  | none => 0

/-- Set a counter. -/
def PdSt.setCount (p : PdSt) (index sub n : Nat) : PdSt :=
  { p with cnt := p.cnt.filter (fun v => !(v.1 == index && v.2.1 == sub)) ++ [(index, sub, n)] }

/-- Raise a counter by `n`; it counts on the width of its type (log entry 14). -/
def State.countBy (s : State) (index sub n : Nat) : State :=
  let w := 8 * (pdFind index sub).elim 8 PdEntry.maxLen
  { s with pd := s.pd.setCount index sub ((s.pd.count index sub + n) % 2 ^ w) }

/-- Raise a counter by one. -/
def State.count (s : State) (index sub : Nat) : State := s.countBy index sub 1

/-- Raise a counter by `n` on behalf of a composition, whose part a Composition principal reads (R494): the part is kept
beside it, under the subindices from 256 × (c + 1) on. -/
def State.countC (s : State) (c index sub n : Nat) : State :=
  let s := s.countBy index sub n
  { s with pd := s.pd.setCount index (256 * (c + 1) + sub) (s.pd.count index (256 * (c + 1) + sub) + n) }

/-- This node's Node ID, as the configuration gave it at reset (R511). -/
def State.nodeId (s : State) : Nat := s.boot.nodeId

/-- Whether the node is in single-card mode, as from reset (R486). -/
def State.single (s : State) : Bool := s.hif.single

/-- Layers per step (R27). -/
def State.layers (s : State) : Nat := s.pdNum 0x7001 0

/-- The nominal layer period in ticks (R29). -/
def State.period (s : State) : Nat := s.pdNum 0x7002 0

/-- The Phase now (R34): the base, with the ticks that the corrected timer has counted since the compensated arrival of
its mark. While the Phase is held or the timer is not enabled, it stands at the base (R30, R41; log entry 15). -/
def State.phase (s : State) : Phase :=
  if s.phs.held || !s.phs.en || s.phs.prev.isNone then s.phs.base
  else
    let ticks := ((((s.timer : Int) - s.phs.prevTc : Int) : Rat) * s.phs.rate / 16).floor
    mkPhase (phStep s.phs.base) (phLayer s.phs.base) (min 65535 ticks.toNat)

/-- The current step; 0 before the first mark (R520). -/
def State.step (s : State) : Nat := phStep s.phs.base

/-- Step `a` is later than step `b` (R28, on the 36 bits of a step). -/
def laterStep (a b : Nat) : Bool :=
  let d := (a + 2 ^ 36 - b % 2 ^ 36) % 2 ^ 36
  decide (1 ≤ d) && decide (d < 2 ^ 35)

/-- Steps from one to another (R28), with sign. -/
def stepsTo (a b : Nat) : Int := (((b + 2 ^ 36 + 2 ^ 35 - a % 2 ^ 36) % 2 ^ 36 : Nat) : Int) - 2 ^ 35

/-- T(Φ) of R202, in ticks. -/
def State.tickOf (s : State) (p : Phase) : Nat := (phStep p * s.layers + phLayer p) * s.period + phTick p

/-- Ticks from one T of R202 to another, with sign: T wraps where the 36-bit step does (R26, R28). -/
def State.ticksTo (s : State) (a b : Nat) : Int :=
  let m := 2 ^ 36 * (s.layers * s.period)
  let d := (b + m - a % max 1 m) % max 1 m
  if 2 * d < m then d else (d : Int) - m

/-- Whether a Phase lies in the layer that the node is in. -/
def State.inLayer (s : State) (p : Phase) : Bool := phStep p == s.step && phLayer p == phLayer s.phs.base

/-! ### Compositions -/

/-- A composition that is not FREE. -/
def State.comp? (s : State) (c : Nat) : Option Comp := look s.cmp.comps c

/-- Whether a composition exists: it has a state other than FREE (R360). -/
def State.compExists (s : State) (c : Nat) : Bool :=
  match s.comp? c with
  | some k => k.st != .free
  | none => false

/-- Whether a composition serves requests: ACTIVE or SHRINKING (R360). -/
def State.compServes (s : State) (c : Nat) : Bool :=
  match s.comp? c with
  | some k => k.st == .active || k.st == .shrinking
  | none => false

/-- Change a composition in place. -/
def State.setComp (s : State) (c : Nat) (f : Comp → Comp) : State :=
  match s.comp? c with
  | some k => { s with cmp := { s.cmp with comps := put s.cmp.comps c (f k) } }
  | none => s

/-- The Job ID of a composition. -/
def State.jobOf (s : State) (c : Nat) : Nat :=
  match s.comp? c with
  | some k => k.desc.job
  | none => 0

/-- The link share of a composition in MB/s, as its descriptor in force has it (R353, R354). -/
def State.linkShare (s : State) (c : Nat) : Nat :=
  match s.comp? c with
  | some k => k.desc.link
  | none => 0

/-- The slices of a composition, 0 to 47. -/
def State.slicesOf (s : State) (c : Nat) : List Nat :=
  match s.comp? c with
  | some k => (List.range 48).filter fun n => bitAt k.desc.slices.toNat n
  | none => []

/-- Whether a range of HBM lies in the composition's own pseudo-channels. -/
def State.ownsRange (s : State) (c a len : Nat) : Bool :=
  isHbm a && isHbm (a + len - 1) && (s.slicesOf c).contains (sliceOf a) && (s.slicesOf c).contains (sliceOf (a + len - 1))
    && decide (sliceOf (a + len - 1) ≤ sliceOf a + 1)

/-! ### Records of the rings -/

/-- Append a 32-byte record to a ring in memory whose 64-byte header holds TAIL in bytes 0 to 3 and HEAD in bytes 8 to 11
(R247). A full ring takes nothing: the answer says whether the record was written (log entry 16). -/
def State.ringPut (s : State) (base size : Nat) (rec_ : List Byte) : Bool × State :=
  let head := s.loadNat (base + 8) 4
  let tail := s.loadNat base 4
  if size = 0 ∨ (head + 2 ^ 32 - tail) % 2 ^ 32 ≥ size then (false, s)
  else (true, (s.store (base + 64 + 32 * (head % size)) rec_).store (base + 8) (leBytes 4 (head + 1)))

/-- A record for a composition's own ring: it waits for the next 1 ms boundary, with the tick of PHASE zero (R56, R328,
R398). -/
def State.ringQueue (s : State) (c : Nat) (breach : Bool) (rec_ : List Byte) : State :=
  { s with rmo := { s.rmo with ring := s.rmo.ring ++ [⟨c, breach, [0, 0] ++ rec_.drop 2⟩] } }

/-- Write a breach record (R55): to the Operator's ring, or counted as lost, and a copy for its composition (R56). -/
def State.breach (s : State) (cause : Nat) (slot : Option Nat) (opclass comp late job node tag : Nat) : State :=
  let rec_ := leBytes 8 s.phase.toNat ++ leBytes 2 (slot.getD 0xFFFF) ++ leBytes 1 opclass ++ leBytes 1 (comp % 16)
    ++ leBytes 1 cause ++ [0] ++ leBytes 2 (min late 0xFFFF) ++ leBytes 3 job ++ [0] ++ leBytes 2 (node % 2 ^ 14)
    ++ [0, 0] ++ leBytes 8 tag
  let size := s.pdNum 0x7040 2
  let s := s.ringQueue comp true rec_
  if s.sch.bringUsed ≥ size then s.count 0x7040 4
  else
    let s := (s.countC comp 0x7040 3 1).emit (.msix 0 1)
    let s := { s with phs := { s.phs with breaches := s.phs.breaches + 1 } }
    { s.store (s.pdNum 0x7040 1 + 32 * (s.sch.bringHead % size)) rec_ with
      sch := { s.sch with bringHead := (s.sch.bringHead + 1) % size, bringUsed := s.sch.bringUsed + 1 } }

/-- An event record to be written (R326). -/
structure Event where
  cls    : Nat
  code   : Nat
  subj   : Nat
  comp   : Option Nat := none
  status : Nat := 0
  job    : Nat := 0
  detail : List Byte := []
  deriving DecidableEq, Repr

/-- The 32 bytes of an event record (R326). -/
def eventBytes (ph : Phase) (e : Event) : List Byte :=
  leBytes 8 ph.toNat ++ leBytes 1 e.cls ++ leBytes 1 e.code ++ leBytes 4 e.subj
    ++ leBytes 1 (match e.comp with | some c => c % 16 + 128 | none => 0) ++ leBytes 1 e.status ++ leBytes 3 e.job ++ [0]
    ++ (e.detail ++ List.replicate 12 0).take 12

/-- Write an event record (R328): at most one a millisecond for each class, code and subject; to the Operator's ring, and
for classes MSG, WINDOW and DIRECTORY also to the ring of the composition it concerns. A POWER or SECURITY record asserts
SMB_ALERT_N (R529). -/
def State.event (s : State) (e : Event) : State :=
  let recent := s.rmo.evLast.filter fun r => decide (s.timer < r.2.2.2 + ms)
  if recent.any (fun r => r.1 == e.cls && r.2.1 == e.code && r.2.2.1 == e.subj) then s.count 0x4150 5
  else
    let rec_ := eventBytes s.phase e
    let size := s.pdNum 0x4150 2
    let s := { s with rmo := { s.rmo with evLast := (e.cls, e.code, e.subj, s.timer) :: recent } }
    let s := match e.comp with
      | some c => if 2 ≤ e.cls ∧ e.cls ≤ 4 then s.ringQueue c false rec_ else s
      | none => s
    if s.rmo.evUsed ≥ size then s.count 0x4150 4
    else
      let s := (s.count 0x4150 3).emit (.msix 0 0)
      let s := if e.cls = 6 ∨ e.cls = 8 then { s with boot := { s.boot with alert := true } } else s
      { s.store (s.pdNum 0x4150 1 + 32 * (s.rmo.evHead % size)) rec_ with
        rmo := { s.rmo with evHead := (s.rmo.evHead + 1) % size, evUsed := s.rmo.evUsed + 1 } }

/-- Software's write of a ring's TAIL register frees the records it passes, of those that are unread (R49, R328; log
entry 16): the new TAIL and the records still unread. -/
def ringTail (size tail used v : Nat) : Nat × Nat :=
  let adv := min ((v % 2 ^ 16 + size - tail % size) % size) used
  ((tail + adv) % size, used - adv)

/-! ### Power conditions (16) -/

/-- NMU compute is shed or denied: shedding stage 2 and above, or the HBM group throttled (R454, R456). -/
def State.nmuShed (s : State) : Bool := 2 ≤ s.pwr.stage || s.pwr.hbmHot

/-- A best-effort quantum may start: no shedding stage, no power cap, no thermal level (R453, R454, R456), and no HOLD in
force nor orderly power-down. -/
def State.bestEffort (s : State) : Bool :=
  s.pwr.stage == 0 && !s.pwr.cap && s.pwr.throt == 0 && !s.pwr.off && !s.pwr.trip

/-- Tile clocks are halved, for any cause (R453, R454, R456). -/
def State.halfClock (s : State) : Bool := 4 ≤ s.pwr.stage || s.pwr.throt == 2 || s.pwr.capHalf

/-- Every request that names a fallback runs it (R454, R456). -/
def State.forceFallback (s : State) : Bool := 4 ≤ s.pwr.stage || s.pwr.throt == 2

/-- Admission stops: arriving and queued requests wait at intake (R456, R458, R522), as they do while the Security Core is down
(R378). -/
def State.noAdmission (s : State) : Bool := 5 ≤ s.pwr.stage || s.pwr.held || s.pwr.off || !s.sec.up

/-! ### Requests and breaches -/

/-- Whether the node serves every path: READY (R517), with its clocks running (R455, R533), out of reset, and no boundary-scan
instruction in effect since (R532). -/
def State.ready (s : State) : Bool := s.boot.ready && s.boot.coreClk && !s.boot.perst && !s.boot.dead && !s.pwr.trip

/-- The node that sent a request, for its breach record: the requester, or this node for a doorbell. -/
def sourceNode (s : State) : Source → Nat
  | .fabric _ _ n _ _ => n
  | .doorbell _ _ => s.nodeId

end Sys2Proof.Machine
end

