-- ==== Sys2Proof/Machine/Float.lean ====
section
/-! DEFINITION. The arithmetic of R120 to R126 and R299: exact values, one rounding, FP32 encodings. -/

namespace Sys2Proof.Machine

/-- A decoded floating-point value: NaN, an infinity, or an exact signed dyadic (−1)^neg × m × 2^e. -/
inductive FVal where
  | nan
  | inf (neg : Bool)
  | fin (neg : Bool) (m : Nat) (e : Int)
  deriving DecidableEq, Repr

/-- Round a natural number divided by 2^k to an integer, nearest even. -/
def roundShift (m k : Nat) : Nat :=
  let q := m / 2 ^ k
  let r := m % 2 ^ k
  if 2 * r < 2 ^ k then q else if 2 * r > 2 ^ k then q + 1 else if q % 2 = 0 then q else q + 1

/-- Divide by 2^k, rounding away from zero: the rounding toward +∞ of a non-negative number. -/
def ceilShift (m k : Nat) : Nat := (m + 2 ^ k - 1) / 2 ^ k

/-- Number of bits of a natural number. -/
def bitLen (m : Nat) : Nat := if m = 0 then 0 else Nat.log2 m + 1

/-- Significand of m × 2^e at the grain that `p` bits of precision and the least exponent `emin` allow, under a rounding. -/
def scaleTo (round : Nat → Nat → Nat) (p : Nat) (emin : Int) (m : Nat) (e : Int) : Nat × Int :=
  let q := max (e + bitLen m - p) emin
  if q ≤ e then (m * 2 ^ (e - q).toNat, q) else (round m (q - e).toNat, q)

/-- The FP32 encoding of a magnitude, without its sign, under a rounding; overflow gives infinity. -/
def enc32 (round : Nat → Nat → Nat) (m : Nat) (e : Int) : Nat :=
  if m = 0 then 0
  else
    let (k, q) := scaleTo round 24 (-149) m e
    min 0x7F800000 ((q + 149).toNat * 2 ^ 23 + k)

/-- The canonical NaN (R121, R123). -/
def nan32 : BitVec 32 := 0x7FC00000

/-- FP32 bits of a value, rounded once to nearest even (R120). -/
def FVal.to32 : FVal → BitVec 32
  | .nan => nan32
  | .inf neg => if neg then 0xFF800000 else 0x7F800000
  | .fin neg m e => BitVec.ofNat 32 ((if neg then 2 ^ 31 else 0) + enc32 roundShift m e)

/-- The value of FP32 bits; subnormals are kept (R123). -/
def val32 (b : BitVec 32) : FVal :=
  let n := b.toNat
  let neg := bitAt n 31
  let ex := bitsOf n 23 8
  let f := bitsOf n 0 23
  if ex = 255 then (if f = 0 then .inf neg else .nan)
  else if ex = 0 then .fin neg f (-149)
  else .fin neg (f + 2 ^ 23) ((ex : Int) - 150)

/-- An exact signed number m × 2^e. -/
structure Dyadic where
  m : Int
  e : Int
  deriving DecidableEq, Repr

/-- Exact sum. -/
def Dyadic.add (a b : Dyadic) : Dyadic :=
  let e := min a.e b.e
  { m := a.m * 2 ^ (a.e - e).toNat + b.m * 2 ^ (b.e - e).toNat, e }

/-- Exact product. -/
def Dyadic.mul (a b : Dyadic) : Dyadic := { m := a.m * b.m, e := a.e + b.e }

/-- Exact sum of a list. -/
def Dyadic.sum (l : List Dyadic) : Dyadic := l.foldl Dyadic.add { m := 0, e := 0 }

/-- The dyadic of a finite value. -/
def mkDyadic (neg : Bool) (m : Nat) (e : Int) : Dyadic := { m := if neg then -(m : Int) else m, e }

/-- A dyadic as a value; zero is +0. -/
def Dyadic.val (d : Dyadic) : FVal := .fin (decide (d.m < 0)) d.m.natAbs d.e

/-- Exact sum of two values: an exact zero is +0 unless both are −0. -/
def FVal.add : FVal → FVal → FVal
  | .nan, _ => .nan
  | _, .nan => .nan
  | .inf a, .inf b => if a = b then .inf a else .nan
  | .inf a, _ => .inf a
  | _, .inf b => .inf b
  | .fin na ma ea, .fin nb mb eb =>
    let d := (mkDyadic na ma ea).add (mkDyadic nb mb eb)
    if d.m = 0 then .fin (na && nb) 0 0 else d.val

/-- Exact product of two values; ∞ × 0 is NaN. -/
def FVal.mul : FVal → FVal → FVal
  | .nan, _ => .nan
  | _, .nan => .nan
  | .inf a, .inf b => .inf (a != b)
  | .inf a, .fin nb mb _ => if mb = 0 then .nan else .inf (a != nb)
  | .fin na ma _, .inf b => if ma = 0 then .nan else .inf (na != b)
  | .fin na ma ea, .fin nb mb eb => .fin (na != nb) (ma * mb) (ea + eb)

/-- round32(a + b). -/
def add32 (a b : BitVec 32) : BitVec 32 := ((val32 a).add (val32 b)).to32

/-- round32(a × b). -/
def mul32 (a b : BitVec 32) : BitVec 32 := ((val32 a).mul (val32 b)).to32

/-- a × b + c, rounded once (R121). -/
def fma32 (a b c : BitVec 32) : BitVec 32 := (((val32 a).mul (val32 b)).add (val32 c)).to32

/-- Exact comparison of finite values: a < b. -/
def Dyadic.lt (a b : Dyadic) : Bool :=
  let e := min a.e b.e
  a.m * 2 ^ (a.e - e).toNat < b.m * 2 ^ (b.e - e).toNat

/-- a < b on values that are not NaN. -/
def FVal.lt : FVal → FVal → Bool
  | .nan, _ => false
  | _, .nan => false
  | .inf a, .inf b => a && !b
  | .inf a, _ => a
  | _, .inf b => !b
  | .fin na ma ea, .fin nb mb eb => (mkDyadic na ma ea).lt (mkDyadic nb mb eb)

/-- The maximum of R122: NaN if either is. DESIGN CHOICE (log entry 168): of a positive and a negative zero, the first. -/
def max32 (a b : BitVec 32) : BitVec 32 :=
  match val32 a, val32 b with
  | .nan, _ => nan32
  | _, .nan => nan32
  | x, y => if x.lt y then b else a

/-- Whether FP32 bits are a NaN. -/
def isNan32 (a : BitVec 32) : Bool := val32 a == .nan

/-- −∞. -/
def negInf32 : BitVec 32 := 0xFF800000
/-- +∞. -/
def posInf32 : BitVec 32 := 0x7F800000

/-- a − b, rounded to nearest even. -/
def sub32 (a b : BitVec 32) : BitVec 32 := add32 a (b ^^^ 0x80000000)

/-- A finite dyadic rounded to the nearest integer, ties to even. -/
def Dyadic.roundInt (d : Dyadic) : Int :=
  if 0 ≤ d.e then d.m * 2 ^ d.e.toNat
  else
    let r : Int := roundShift d.m.natAbs (-d.e).toNat
    if d.m < 0 then -r else r

/-- The coefficients c_6 to c_0 of R121: the FP32 values nearest to (ln 2)^k ÷ k!. -/
def exp2Coeffs : List (BitVec 32) := [0x39218489, 0x3AAEC3FF, 0x3C1D955B, 0x3D635847, 0x3E75FDF0, 0x3F317218, 0x3F800000]

/-- exp2 of R121, operation by operation. -/
def exp2 (x : BitVec 32) : BitVec 32 :=
  match val32 x with
  | .nan => nan32
  | .inf neg => if neg then 0 else posInf32
  | .fin neg m e =>
    let d := mkDyadic neg m e
    if d.lt { m := -150, e := 0 } then 0
    else if Dyadic.lt { m := 128, e := 0 } d then posInf32
    else
      let n := d.roundInt
      let f := (d.add { m := -n, e := 0 }).val.to32
      let p := exp2Coeffs.foldl (fun p c => match p with | none => some c | some p => some (fma32 p f c)) (none : Option (BitVec 32))
      match val32 (p.getD 0) with
      | .fin neg m e =>
        let y : Dyadic := mkDyadic neg m (e + n)
        if y.lt { m := 1, e := -126 } then 0 else y.val.to32
      | v => v.to32

end Sys2Proof.Machine
end

