-- ==== Sys2Proof/Machine/Operands.lean ====
section
/-! DEFINITION. The operand forms: the byte layouts of records that commands carry or that the Directory and memory hold,
read into typed data and written back. Reserved bits are ignored when read and zero when written (R6). -/

namespace Sys2Proof.Machine

/-- CRC-64 of bytes with the ECMA-182 polynomial, initial and final value 0 (R432). -/
def crc64 (b : List Byte) : BitVec 64 :=
  b.foldl (fun (c : BitVec 64) (x : Byte) =>
    (List.range 8).foldl (fun (c : BitVec 64) (_ : Nat) => if c.msb then (c <<< 1) ^^^ 0x42F0E1EBA9EA3693#64 else c <<< 1)
      (c ^^^ (BitVec.ofNat 64 x.toNat <<< 56))) 0

/-- The number in bytes `lo` to `lo + n − 1` of a record (R5). -/
def field (b : List Byte) (lo n : Nat) : Nat := leNat ((b.drop lo).take n)

/-- Pad with zeros, or cut, to a length. -/
def padTo : Nat → List Byte → List Byte
  | 0, _ => []
  | n + 1, b => b.headD 0 :: padTo n b.tail

/-- Zero-pad to a multiple of `k` bytes. -/
def padMul (k : Nat) (b : List Byte) : List Byte := b ++ List.replicate ((k - b.length % k) % k) 0

/-! ### The check of an HBM transfer (R210, R212) -/

/-- The places of a codeword that are in error: bytes 0 to 63 hold the data, and 64 to 71 the check bytes. -/
def errPlaces (errs : List Nat) : List Nat := (errs.filter fun e => decide (e < 72)).dedup

/-- What the check of a transfer finds, by the bytes of its 72 that are in error (R210): errors confined to 3 are corrected, and errors
confined to 5 detected. What it finds of more is a free value; log entry 170. -/
def eccOf (errs : List Nat) : Ecc :=
  let p := errPlaces errs
  if p.length = 0 then .clean
  else if p.length ≤ 3 then .corrected
  else if p.length ≤ 5 then .uncorrectable
  else match Config.eccBeyond p % 3 with | 0 => .clean | 1 => .corrected | _ => .uncorrectable

/-- What the checks of several transfers find together. -/
def worstEcc (l : List (List Nat)) : Ecc :=
  let es := l.map eccOf
  if es.contains .uncorrectable then .uncorrectable else if es.contains .corrected then .corrected else .clean

/-- Whether more bytes are in error than the code is sure to detect: what is delivered is then no more than a free value. -/
def eccLost (l : List (List Nat)) : Bool := l.any fun e => decide (5 < (errPlaces e).length)

/-! ### Slot-table entries (R45) -/

/-- A slot-table entry from its 32 bytes. -/
def Slot.ofBytes (b : List Byte) : Slot :=
  let l := field b 2 2
  let c := field b 5 1
  let r := field b 16 2
  { start := field b 0 2, layer := bitsOf l 0 12, any := bitAt l 12, valid := bitAt l 15, opclass := field b 4 1,
    comp := bitsOf c 0 4, fmt := bitsOf c 4 4, span := field b 6 2, tiles := BitVec.ofNat 48 (field b 8 6),
    ports := BitVec.ofNat 8 (field b 14 1), reqs := field b 15 1, rows := bitsOf r 0 10, sketch := bitsOf r 10 5,
    dhead := bitsOf (field b 18 2) 0 10, pages := bitsOf (field b 20 4) 0 24, grains := bitsOf (field b 24 4) 0 24,
    bytes := field b 28 4 }

/-- The 32 bytes of a slot-table entry. -/
def Slot.toBytes (e : Slot) : List Byte :=
  leBytes 2 e.start ++ leBytes 2 (fieldAt e.layer 12 0 + flagAt e.any 12 + flagAt e.valid 15) ++ leBytes 1 e.opclass
    ++ leBytes 1 (fieldAt e.comp 4 0 + fieldAt e.fmt 4 4) ++ leBytes 2 e.span ++ leBytes 6 e.tiles.toNat
    ++ leBytes 1 e.ports.toNat ++ leBytes 1 e.reqs ++ leBytes 2 (fieldAt e.rows 10 0 + fieldAt e.sketch 5 10)
    ++ leBytes 2 e.dhead ++ leBytes 4 e.pages ++ leBytes 4 e.grains ++ leBytes 4 e.bytes

/-- An empty slot-table entry. -/
def Slot.empty : Slot := Slot.ofBytes []

/-- The tiles of a set, ascending. -/
def tileList (t : BitVec 48) : List Nat := (List.range 48).filter fun n => bitAt t.toNat n

/-! ### Composition descriptors (R353) -/

/-- A descriptor from its 64 bytes. -/
def CompDesc.ofBytes (b : List Byte) : CompDesc :=
  { exst := bitAt (field b 1 1) 0, job := field b 4 3, vf := bitsOf (field b 7 1) 0 5,
    slices := BitVec.ofNat 48 (field b 8 6), flash := BitVec.ofNat 32 (field b 16 4),
    qbase := bitsOf (field b 20 2) 0 13, qcount := bitsOf (field b 22 2) 0 14, ways := BitVec.ofNat 64 (field b 24 8),
    link := field b 32 4 }

/-- The code of a composition's state (R360). -/
def CompState.code : CompState → Nat
  | .free => 0 | .active => 1 | .shrinking => 2 | .tearing => 3 | .torndown => 4 | .releasing => 5

/-- The 64 bytes of a descriptor, with STATE as read back. -/
def CompDesc.toBytes (d : CompDesc) (st : CompState) : List Byte :=
  leBytes 1 st.code ++ leBytes 1 (flagAt d.exst 0) ++ [0, 0] ++ leBytes 3 d.job ++ leBytes 1 d.vf
    ++ leBytes 6 d.slices.toNat ++ [0, 0] ++ leBytes 4 d.flash.toNat ++ leBytes 2 d.qbase ++ leBytes 2 d.qcount
    ++ leBytes 8 d.ways.toNat ++ leBytes 4 d.link ++ List.replicate 28 0

/-- The empty descriptor. -/
def CompDesc.empty : CompDesc := CompDesc.ofBytes []

/-! ### Windows (R300) -/

/-- A window entry from its value units 1 to 3. -/
def Win.ofUnits (u : List (BitVec 64)) : Win :=
  let a := (u.getD 0 0).toNat
  let b := (u.getD 1 0).toNat
  let c := (u.getD 2 0).toNat
  { base := bitsOf a 6 46 * 64, size := bitsOf b 0 48, wgen := BitVec.ofNat 16 (bitsOf b 48 16), rd := bitAt c 0,
    wr := bitAt c 1, add := bitAt c 2, xr := bitAt c 3, cas := bitAt c 4, cmd := bitAt c 5, comp := bitsOf c 8 4,
    lent := bitAt c 12, isOpen := bitAt c 13, fwdv := bitAt c 14, fwd := bitsOf c 16 14 }

/-- The value units 1 to 3 of a window entry. -/
def Win.toUnits (w : Win) : List (BitVec 64) :=
  [BitVec.ofNat 64 (fieldAt (w.base / 64) 46 6), BitVec.ofNat 64 (fieldAt w.size 48 0 + fieldAt w.wgen.toNat 16 48),
   BitVec.ofNat 64 (flagAt w.rd 0 + flagAt w.wr 1 + flagAt w.add 2 + flagAt w.xr 3 + flagAt w.cas 4 + flagAt w.cmd 5
     + fieldAt w.comp 4 8 + flagAt w.lent 12 + flagAt w.isOpen 13 + flagAt w.fwdv 14 + fieldAt w.fwd 14 16)]

/-- The key of a window entry (R222, class 1). -/
def winKey (job win : Nat) : Nat := fieldAt job 24 14 + fieldAt win 14 0

/-- The key of a context-map entry (R222, class 0). -/
def ctxKey (job ctx : Nat) : Nat := fieldAt job 24 32 + fieldAt ctx 32 0

/-! ### Records at the Directory -/

/-- A lease record (R243). -/
structure Lease where
  comp   : Nat
  active : Bool
  lender : Bool
  peer   : Nat
  win    : Nat
  wgen   : BitVec 16
  size   : Nat
  endp   : BitVec 64
  deriving DecidableEq, Repr

/-- A lease record from its 32 bytes; an empty entry is an inactive one. -/
def Lease.ofBytes (b : List Byte) : Lease :=
  { comp := bitsOf (field b 0 1) 0 4, active := bitAt (field b 0 1) 7, lender := field b 1 1 == 1,
    peer := bitsOf (field b 2 2) 0 14, win := bitsOf (field b 4 2) 0 14, wgen := BitVec.ofNat 16 (field b 6 2),
    size := field b 8 8, endp := BitVec.ofNat 64 (field b 16 8) }

/-- A stream programme (R258). -/
structure Prog where
  model   : Nat
  comp    : Nat
  enable  : Bool
  depth   : Nat
  dnode   : Nat
  dwin    : Nat
  dwgen   : BitVec 16
  queue   : Nat
  dbase   : Nat
  dstride : Nat
  fbase   : Nat
  selnpa  : Nat
  deriving DecidableEq, Repr

/-- A stream programme from its 64 bytes. -/
def Prog.ofBytes (b : List Byte) : Prog :=
  { model := field b 0 2, comp := bitsOf (field b 2 1) 0 4, enable := bitAt (field b 2 1) 7, depth := field b 3 1,
    dnode := bitsOf (field b 4 2) 0 14, dwin := bitsOf (field b 6 2) 0 14, dwgen := BitVec.ofNat 16 (field b 8 2),
    queue := bitsOf (field b 10 2) 0 13, dbase := field b 16 8, dstride := field b 24 8, fbase := field b 32 8,
    selnpa := field b 40 8 }

/-- A ring configuration (R408). The spec names its contents and not their places; log entry 17. -/
structure RingCfg where
  ring  : Nat
  rank  : Nat
  ranks : List (Nat × Nat)     -- (node, composition) of ranks 0 to 8
  win   : Nat
  plen  : Nat
  deriving DecidableEq, Repr

/-- A ring configuration from its bytes: ring ID in 0 to 3, rank in 4, for rank i the node in 8 + 4i to 9 + 4i and the
composition in 10 + 4i, the window in 44 to 45, PLEN in 46 to 47. An empty entry is no ring. -/
def RingCfg.ofBytes (b : List Byte) : Option RingCfg :=
  if b = [] then none
  else some
    { ring := field b 0 4, rank := field b 4 1,
      ranks := (List.range 9).map fun i => (bitsOf (field b (8 + 4 * i) 2) 0 14, bitsOf (field b (10 + 4 * i) 1) 0 4),
      win := bitsOf (field b 44 2) 0 14, plen := field b 46 2 }

/-- The ring configuration of a composition. -/
def State.ringCfg (s : State) (c : Nat) : Option RingCfg := RingCfg.ofBytes (s.pd.bytes 0x3400 c)

/-- A forward entry from its 32 bytes (R368): Job ID in 0 to 2, CTX in 4 to 7, stream in 8 to 11, FIRST in 12 to 15, COUNT
in 16 to 19, DNODE in 20 to 21, epoch in 22 to 23. The places are the model's (log entry 17). -/
def Fwd.ofBytes (b : List Byte) : Option Fwd :=
  if b.all (· == 0) then none
  else some { job := field b 0 3, ctx := field b 4 4, stream := bitsOf (field b 8 4) 0 20, first := field b 12 4,
              count := field b 16 4, node := bitsOf (field b 20 2) 0 14, epoch := field b 22 2 }

/-- The 32 bytes of a forward entry. -/
def Fwd.toBytes (f : Fwd) : List Byte :=
  leBytes 3 f.job ++ [0] ++ leBytes 4 f.ctx ++ leBytes 4 f.stream ++ leBytes 4 f.first ++ leBytes 4 f.count
    ++ leBytes 2 f.node ++ leBytes 2 f.epoch ++ List.replicate 8 0

/-! ### Marks, claims, notices -/

/-- The 32 bytes of a Phase Mark (R30). -/
def markBytes (m : Mark) : List Byte :=
  leBytes 8 m.phase.toNat ++ leBytes 8 m.mtime ++ leBytes 4 m.seq.toNat ++ leBytes 4 m.resid ++ leBytes 2 m.period
    ++ leBytes 2 m.master ++ leBytes 2 m.term.toNat ++ leBytes 1 m.typ ++ leBytes 1 m.hops

/-- Whether bit `n` of a bitmap held as bytes is set. -/
def bitmapHas (b : List Byte) (n : Nat) : Bool := bitAt (b.getD (n / 8) 0).toNat (n % 8)

/-! ### Names of the request path -/

/-- The flag word of R106: FVAL in [55:0], status in [63:56]. -/
def flagWord (fval : BitVec 56) (st : Status) : BitVec 64 := BitVec.ofNat 64 (fval.toNat + st.code * 2 ^ 56)

/-- The completion record of a context operation or search (R108, R160): STATUS in byte 0, OP in byte 1, TAG in bytes 4 to
7, a 64-bit value in bytes 8 to 15. -/
def completionBytes (st : Status) (op : Nat) (tag : BitVec 32) (v : Nat) : List Byte :=
  leBytes 1 st.code ++ leBytes 1 op ++ [0, 0] ++ leBytes 4 tag.toNat ++ leBytes 8 v

/-- Layer and group of a stream number (R75): stream [19:0] is layer in [19:8] and group in [7:0]. -/
def streamLayer (n : Nat) : Nat := bitsOf n 8 12
def streamGroup (n : Nat) : Nat := bitsOf n 0 8

/-! ### The route to a node (R277, R322) -/

/-- The node a flit goes to on its way to `dest`: the node itself in the group, or else the local gateway that
PD 0x4120.gg names for its group. -/
def State.hop (s : State) (dest : Nat) : Option Nat :=
  let g := s.pdNum 0x4003 0
  let first := bitsOf g 0 14
  if first ≤ dest ∧ dest < first + bitsOf g 16 9 then some dest
  else
    let e := s.pdNum 0x4120 (bitsOf dest 8 6)
    if bitAt e 31 then some (bitsOf e 0 14) else none

/-- The mask of the ports that reach a node, from the route table at PD 0x4004.00. -/
def State.routeMask (s : State) (dest : Nat) : BitVec 8 :=
  match s.hop dest with
  | some n =>
    let first := bitsOf (s.pdNum 0x4003 0) 0 14
    if first ≤ n then (s.pd.bytes 0x4004 0).getD (n - first) 0 else 0
  | none => 0

/-- Whether a node lies in this node's own group. -/
def State.inGroup (s : State) (dest : Nat) : Bool :=
  let g := s.pdNum 0x4003 0
  decide (bitsOf g 0 14 ≤ dest) && decide (dest < bitsOf g 0 14 + bitsOf g 16 9)

/-- The ports of a mask, ascending. -/
def portList (m : BitVec 8) : List Nat := (List.range 8).filter fun n => bitAt m.toNat n

end Sys2Proof.Machine
end

