-- ==== Sys2Proof/Machine/Formats.lean ====
section
/-! DEFINITION. Number formats, block scales, rounding, the raw page, the packer and the expander's checks (R66, R67, R174
to R191), and the grain of a page (R69 to R72). -/

namespace Sys2Proof.Machine

/-! ### Formats (R174) -/

/-- A floating format: element bits, exponent bits, mantissa bits, bias. Integers and unknown codes have no exponent. -/
structure Fmt where
  bits : Nat
  ex   : Nat
  mant : Nat
  bias : Nat
  deriving DecidableEq, Repr

/-- The format of a code (R174). -/
def fmtOf (code : Nat) : Fmt :=
  match code with
  | 0 => ⟨32, 8, 23, 127⟩ | 1 => ⟨16, 8, 7, 127⟩ | 2 => ⟨16, 5, 10, 15⟩ | 3 => ⟨8, 4, 3, 7⟩ | 4 => ⟨8, 5, 2, 15⟩
  | 5 => ⟨6, 3, 2, 3⟩ | 6 => ⟨6, 2, 3, 1⟩ | 7 => ⟨4, 2, 1, 1⟩ | 8 => ⟨8, 0, 0, 0⟩ | 9 => ⟨4, 0, 0, 0⟩ | _ => ⟨1, 0, 0, 0⟩

/-- Formats whose top exponent holds infinities and NaNs, as IEEE 754 has them (R174). -/
def fmtIeee (code : Nat) : Bool := code == 0 || code == 1 || code == 2 || code == 4

/-- The power of two by which an integer element counts when the stream's SCALE is not NONE (R174). -/
def implied (code : Nat) (scaled : Bool) : Int := if !scaled then 0 else if code = 8 then -6 else if code = 9 then -2 else 0

/-- The exact value of an element (R174, R180). -/
def elemVal (code : Nat) (scaled : Bool) (c : Nat) : FVal :=
  let f := fmtOf code
  if f.ex = 0 then
    let neg := bitAt c (f.bits - 1)
    .fin neg (if neg then 2 ^ f.bits - c % 2 ^ f.bits else c % 2 ^ f.bits) (implied code scaled)
  else
    let neg := bitAt c (f.bits - 1)
    let e := bitsOf c f.mant f.ex
    let m := bitsOf c 0 f.mant
    if e = 2 ^ f.ex - 1 ∧ fmtIeee code then (if m = 0 then .inf neg else .nan)
    else if code = 3 ∧ e = 15 ∧ m = 7 then .nan
    else if e = 0 then .fin neg m (1 - (f.bias : Int) - f.mant)
    else .fin neg (m + 2 ^ f.mant) ((e : Int) - f.bias - f.mant)

/-- The code of the largest finite magnitude of a floating format (R174). -/
def maxCode (code : Nat) : Nat :=
  let f := fmtOf code
  if fmtIeee code then (2 ^ f.ex - 1) * 2 ^ f.mant - 1
  else if code = 3 then 0x7E else 2 ^ (f.bits - 1) - 1

/-- Narrowing into a format (R181): the element, and whether it saturated. -/
def narrow (code : Nat) (scaled : Bool) (v : FVal) : Nat × Bool :=
  let f := fmtOf code
  let sgn (neg : Bool) : Nat := if neg then 2 ^ (f.bits - 1) else 0
  match v with
  | .nan => ((2 ^ f.ex - 1) * 2 ^ f.mant + 2 ^ (f.mant - 1), false)
  | .inf neg => (sgn neg + (2 ^ f.ex - 1) * 2 ^ f.mant, false)
  | .fin neg m e =>
    if f.ex = 0 then
      let x := (mkDyadic neg m (e - implied code scaled)).roundInt
      let lo : Int := -(2 ^ (f.bits - 1) : Nat)
      let hi : Int := (2 ^ (f.bits - 1) - 1 : Nat)
      ((max lo (min hi x) % (2 ^ f.bits : Nat)).toNat, decide (x < lo) || decide (hi < x))
    else if m = 0 then (sgn neg, false)
    else
      let emin : Int := 1 - (f.bias : Int) - f.mant
      let (k, q) := scaleTo roundShift (f.mant + 1) emin m e
      let c := (q - emin).toNat * 2 ^ f.mant + k
      if c ≤ maxCode code then (sgn neg + c, false)
      else if code = 1 ∨ code = 2 then (sgn neg + (2 ^ f.ex - 1) * 2 ^ f.mant, false)
      else (sgn neg + maxCode code, true)

/-- The value of an element under an E8M0 scale byte (R177). -/
def scaledVal (v : FVal) (scale : Nat) : FVal :=
  if scale = 255 then .nan
  else match v with
    | .fin neg m e => .fin neg m (e + scale - 127)
    | v => v

/-- EMAX of R183. -/
def emaxOf (code : Nat) : Int :=
  match code with
  | 3 => 8 | 4 => 15 | 5 => 4 | 6 => 2 | 7 => 2 | _ => 0

/-- ⌊log2 |v|⌋ of a finite non-zero value. -/
def floorLog (v : FVal) : Option Int :=
  match v with
  | .fin _ m e => if m = 0 then none else some (e + bitLen m - 1)
  | _ => none

/-- Whether a value is finite. -/
def FVal.isFin : FVal → Bool
  | .fin _ _ _ => true
  | _ => false

/-- The quantisation of a group (R183): scale byte, elements, and how many saturated. -/
def quantise (code : Nat) (vs : List FVal) : Nat × List Nat × Nat :=
  if vs.any fun v => !v.isFin then (255, vs.map fun _ => 0, 0)
  else
    match (vs.filterMap floorLog).max? with
    | none => (0, vs.map fun v => (narrow code true v).1, 0)
    | some top =>
      let x := max (-127) (min 127 (top - emaxOf code))
      let r := vs.map fun v => match v with
        | .fin neg m e => narrow code true (.fin neg m (e - x))
        | v => narrow code true v
      ((x + 127).toNat, r.map (·.1), (r.filter (·.2)).length)

/-- The FMT class of a format (R176). -/
def fmtClass (code : Nat) : Nat := if code = 3 ∨ code = 4 ∨ code = 8 then 0 else if code = 1 ∨ code = 2 then 2 else 1

/-- MAC per tile per clock of a class (R176). -/
def classRate (cls : Nat) : Nat := if cls = 0 then 16384 else if cls = 1 then 32768 else 8192

/-- The element format of the engine for queries (R176). -/
def engineFmt (kfmt : Nat) : Nat := if fmtClass kfmt = 0 then 3 else if fmtClass kfmt = 1 then 6 else kfmt

/-- Cut a list into pieces of `k` elements. -/
def chunks {α : Type} (k : Nat) (l : List α) : List (List α) :=
  (List.range ((l.length + k - 1) / k)).map fun i => (l.drop (k * i)).take k

/-- A query row in the engine format, as exact values (R182). -/
def queryRow (qfmt kfmt : Nat) (row : List Nat) : List FVal :=
  let eng := engineFmt kfmt
  let vs := row.map (elemVal qfmt false)
  if fmtClass kfmt = 2 then vs.map fun v => elemVal eng false (narrow eng false v).1
  else if qfmt = eng then vs
  else ((chunks 32 vs).map fun g =>
    let (sc, es, _) := quantise eng g
    es.map fun c => scaledVal (elemVal eng true c) sc).flatten

/-- Elements of a query row that its narrowing to the engine format saturates (R181). -/
def querySat (qfmt kfmt : Nat) (row : List Nat) : Nat :=
  let eng := engineFmt kfmt
  if fmtClass kfmt = 2 ∨ qfmt = eng then 0
  else ((chunks 32 (row.map (elemVal qfmt false))).map fun g => (quantise eng g).2.2).sum

/-! ### Token rows (R67, R87) -/

/-- Values of a row: under MX32 a scale for each 32 elements, under PAGE16 one for each. -/
def rowVals (code scale : Nat) (row scales : List Nat) : List FVal :=
  if scale = 0 then row.map (elemVal code false)
  else row.zipIdx.map fun p =>
    scaledVal (elemVal code true p.1) (scales.getD (if scale = 1 then p.2 / 32 else p.2) 127)

/-- Key values of a token of a sealed page. -/
def pageK (kfmt scale : Nat) (t : Token) : List FVal := rowVals kfmt scale t.k t.ks

/-- Value row of a token of a sealed page; a latent stream's value is the first DV elements of its key (R65). -/
def pageV (kfmt vfmt scale dv : Nat) (latent : Bool) (t : Token) : List FVal :=
  if latent then (pageK kfmt scale t).take dv else rowVals vfmt scale t.v t.vs

/-- Key values of a silt token: BF16 without scales under PAGE16 (R87). -/
def siltK (kfmt scale : Nat) (t : Token) : List FVal := if scale = 2 then rowVals 1 0 t.k [] else rowVals kfmt scale t.k t.ks

/-- Value row of a silt token. -/
def siltV (kfmt vfmt scale dv : Nat) (latent : Bool) (t : Token) : List FVal :=
  if latent then (siltK kfmt scale t).take dv else if scale = 2 then rowVals 1 0 t.v [] else rowVals vfmt scale t.v t.vs

/-- Transpose a list of rows of a width. -/
def columns {α : Type} (w : Nat) (rows : List (List α)) : List (List α) := (List.range w).map fun d => rows.filterMap fun r => r[d]?

/-- PAGE16 quantisation of one region (R183): each dimension over the 16 tokens; rows, scales, saturated elements. -/
def quantRegion (code w : Nat) (rows : List (List FVal)) : List (List Nat) × List Nat × Nat :=
  let q := (columns w rows).map (quantise code)
  (columns rows.length (q.map fun x => x.2.1), q.map (·.1), (q.map fun x => x.2.2).sum)

/-- Step 1 of R94: the 16 silt tokens as page tokens, and the elements that saturated. -/
def sealTokens (kfmt vfmt scale dk dv : Nat) (latent : Bool) (ts : List Token) : List Token × Nat :=
  if scale ≠ 2 then (ts, 0)
  else
    let (ks, ksc, n) := quantRegion kfmt dk (ts.map fun t => t.k.map (elemVal 1 false))
    let (vs, vsc, m) := if latent then ([], [], 0) else quantRegion vfmt dv (ts.map fun t => t.v.map (elemVal 1 false))
    ((List.range ts.length).map fun j => { k := ks.getD j [], ks := ksc, v := vs.getD j [], vs := vsc }, n + m)

/-- A page token as a silt slot holds it (R95): bit for bit, or under PAGE16 each decoded element converted to BF16. -/
def unsealToken (kfmt vfmt scale : Nat) (t : Token) : Token :=
  if scale ≠ 2 then t
  else { k := (pageK kfmt 2 t).map fun v => (narrow 1 false v).1, ks := [],
         v := (rowVals vfmt 2 t.v t.vs).map fun v => (narrow 1 false v).1, vs := [] }

/-! ### The raw page (R66, R67) -/

/-- Elements of `b` bits packed from bit 0 of each byte upward. -/
def packBits (b : Nat) (codes : List Nat) : List Byte :=
  ((chunks 8 codes).map fun g => (leBytes b ((g.zipIdx.map fun p => p.1 % 2 ^ b * 2 ^ (b * p.2)).sum)).take ((g.length * b + 7) / 8)).flatten

/-- Elements of `b` bits read from packed bytes. -/
def unpackBits (b n : Nat) (bs : List Byte) : List Nat :=
  (((chunks b bs).map fun g => let v := leNat g; (List.range 8).map fun i => bitsOf v (b * i) b).flatten).take n

/-- Round up to a multiple of 64. -/
def up64 (n : Nat) : Nat := (n + 63) / 64 * 64

/-- The regions of a raw page (R66): format code (none for scales) and bytes before padding. -/
def pageRegions (kfmt vfmt scale dk dv : Nat) (latent : Bool) : List (Option Nat × Nat) :=
  let half (code w : Nat) : List (Option Nat × Nat) :=
    (some code, 16 * w * (fmtOf code).bits / 8) :: (if scale = 0 then [] else [(none, if scale = 1 then 16 * w / 32 else w)])
  half kfmt dk ++ (if latent then [] else half vfmt dv)

/-- Raw length of a page in bytes (R66). -/
def rawLen (kfmt vfmt scale dk dv : Nat) (latent : Bool) : Nat :=
  ((pageRegions kfmt vfmt scale dk dv latent).map fun r => up64 r.2).sum

/-- The bytes of a raw page (R66, R67). -/
def rawPage (kfmt vfmt scale : Nat) (latent : Bool) (ts : List Token) : List Byte :=
  let half (code : Nat) (rows scales : List (List Nat)) : List Byte :=
    padMul 64 (packBits (fmtOf code).bits rows.flatten) ++
      (if scale = 0 then []
       else padMul 64 ((if scale = 1 then scales.flatten else scales.headD []).map (BitVec.ofNat 8)))
  half kfmt (ts.map (·.k)) (ts.map (·.ks)) ++ (if latent then [] else half vfmt (ts.map (·.v)) (ts.map (·.vs)))

/-- The tokens of a raw page. -/
def rawTokens (kfmt vfmt scale dk dv : Nat) (latent : Bool) (bs : List Byte) : List Token :=
  let half (code w at_ : Nat) : List (List Nat) × List (List Nat) × Nat :=
    let b := (fmtOf code).bits
    let n := 16 * w * b / 8
    let rows := chunks w (unpackBits b (16 * w) ((bs.drop at_).take n))
    let at2 := at_ + up64 n
    if scale = 0 then (rows, rows.map fun _ => [], at2)
    else
      let m := if scale = 1 then 16 * w / 32 else w
      let sc := ((bs.drop at2).take m).map BitVec.toNat
      (rows, if scale = 1 then chunks (w / 32) sc else rows.map fun _ => sc, at2 + up64 m)
  let (ks, ksc, at2) := half kfmt dk 0
  let (vs, vsc, _) := if latent then ([], [], 0) else half vfmt dv at2
  (List.range 16).map fun j => { k := ks.getD j [], ks := ksc.getD j [], v := vs.getD j [], vs := vsc.getD j [] }

/-! ### The packer (R184 to R189) -/

/-- Format of the element region that holds a byte offset of the raw page, with the region's number. -/
def regionAt (rs : List (Option Nat × Nat)) (off : Nat) : Nat × Option Nat :=
  ((rs.zipIdx.foldl (fun (acc : Nat × Option (Nat × Option Nat)) r =>
    let fin := acc.1 + up64 r.1.2
    (fin, if acc.2.isNone && decide (off < fin) then some (r.2, r.1.1) else acc.2)) (0, none)).2).getD (rs.length, none)

/-- Whether SHARED is allowed in a region (R188). -/
def sharedOk (f : Option Nat) : Bool := f == some 1 || f == some 2 || f == some 3 || f == some 4 || f == some 7

/-- A run of blocks: its region, format, whether it is zero, and its bytes. -/
structure Run where
  region : Nat
  fmt    : Option Nat
  zero   : Bool
  bytes  : List Byte
  deriving DecidableEq, Repr

/-- Maximal runs of zero and non-zero blocks, split at region boundaries (R189). -/
def runsOf (rs : List (Option Nat × Nat)) (at_ : Nat) (sector : List Byte) : List Run :=
  ((chunks 8 sector).zipIdx.foldl (fun (acc : List Run) b =>
    let (n, f) := regionAt rs (at_ + 8 * b.2)
    let z := b.1.all (· == 0)
    match acc with
    | r :: rest => if r.region = n ∧ r.zero = z then { r with bytes := r.bytes ++ b.1 } :: rest else ⟨n, f, z, b.1⟩ :: acc
    | [] => [⟨n, f, z, b.1⟩]) []).reverse

/-- The encoding of a run: its descriptor and payload (R187, R188, R189). -/
def Run.encode (r : Run) : Nat × List Byte :=
  let count := r.bytes.length / 8
  let base := count - 1
  if r.zero then (base, [])
  else
    let verb := (base + 64, r.bytes)
    match r.fmt with
    | none => verb
    | some c =>
      if !sharedOk r.fmt then verb
      else
        let f := fmtOf c
        let es := unpackBits f.bits (r.bytes.length * 8 / f.bits) r.bytes
        let exps := es.map fun e => bitsOf e f.mant f.ex
        let lo := exps.min?.getD 0
        let hi := exps.max?.getD 0
        match (List.range f.ex).find? fun w => decide (hi < lo + 2 ^ w) with
        | none => verb
        | some dw =>
          let p := packBits (1 + dw + f.mant) (es.map fun e =>
            (if bitAt e (f.bits - 1) then 1 else 0) + (bitsOf e f.mant f.ex - lo) * 2 + bitsOf e 0 f.mant * 2 ^ (1 + dw))
          if p.length < 8 * count then (base + 128 + dw * 256 + lo * 4096, p) else verb

/-- A sector encoded (R189): its KIND and its segment. -/
def packSector (rs : List (Option Nat × Nat)) (at_ : Nat) (sector : List Byte) : Nat × List Byte :=
  if sector.all (· == 0) then (2, [])
  else
    let runs := (runsOf rs at_ sector).map Run.encode
    let seg := padMul 16 (leBytes 4 runs.length ++ (runs.map fun r => leBytes 4 r.1).flatten ++ (runs.map (·.2)).flatten)
    if runs.length > 64 ∨ seg.length ≥ sector.length then (0, sector) else (1, seg)

/-- The packed page (R185, R186, R189). The OFF of a ZERO sector, which stores no segment, is 0 (log entry 21). -/
def packPage (rs : List (Option Nat × Nat)) (raw : List Byte) : List Byte :=
  let secs := (chunks 512 raw).zipIdx.map fun s => packSector rs (512 * s.2) s.1
  let start := (4 * secs.length + 15) / 16
  let step (acc : Nat × List Nat) (s : Nat × List Byte) : Nat × List Nat :=
    let len := s.2.length / 16
    (acc.1 + len, acc.2 ++ [s.1 + fieldAt len 6 8 + (if s.1 = 2 then 0 else fieldAt acc.1 14 18)])
  let entries := (secs.foldl step (start, [])).2
  padMul 64 (padMul 16 (entries.map (leBytes 4)).flatten ++ (secs.map (·.2)).flatten)

/-- The zero value blocks that the expander reports for a page stored packed (R193): the blocks of the V elements in ZERO sectors and
ZERO runs. A latent stream stores no value. -/
def zeroValues (kfmt vfmt scale dk dv : Nat) (latent : Bool) (ts : List Token) : Nat :=
  let rs := pageRegions kfmt vfmt scale dk dv latent
  if latent then 0
  else
    ((chunks 512 (rawPage kfmt vfmt scale latent ts)).zipIdx.map fun x =>
      if (packSector rs (512 * x.2) x.1).1 = 0 then 0
      else (((runsOf rs (512 * x.2) x.1).filter fun r => r.zero && r.region == (if scale = 0 then 1 else 2)).map fun r =>
        r.bytes.length / 8).sum).sum

/-- Sectors of 512 B that a stored length occupies (R185). -/
def sectors (bytes : Nat) : Nat := (bytes + 511) / 512

/-- The form in which a page is stored (R68): PACKED, and its bytes. -/
def storedForm (rs : List (Option Nat × Nat)) (raw : List Byte) (save : Nat) (enabled : Bool) : Bool × List Byte :=
  let p := packPage rs raw
  if enabled ∧ sectors p.length + save ≤ sectors raw.length then (true, p) else (false, raw)

/-! ### The expander (R188, R191) -/

/-- Decode one run against the blocks it must cover; none where it breaks R188. -/
def decodeRun (rs : List (Option Nat × Nat)) (at_ : Nat) (d : Nat) (pay : List Byte) : Option (List Byte × Nat) :=
  let count := bitsOf d 0 6 + 1
  let code := bitsOf d 6 2
  let dw := bitsOf d 8 3
  let eb := bitsOf d 12 8
  let (n, f) := regionAt rs at_
  let n2 := (regionAt rs (at_ + 8 * count - 1)).1
  if n ≠ n2 ∨ bitAt d 11 ∨ bitsOf d 20 12 ≠ 0 then none
  else if code = 0 then some (List.replicate (8 * count) 0, 0)
  else if code = 1 then (if pay.length < 8 * count then none else some (pay.take (8 * count), 8 * count))
  else if code = 2 then
    match f with
    | none => none
    | some c =>
      let m := fmtOf c
      let els := 8 * count * 8 / m.bits
      let w := 1 + dw + m.mant
      let len := (els * w + 7) / 8
      let us := unpackBits w els (pay.take len)
      if !sharedOk f ∨ m.ex ≤ dw ∨ pay.length < len ∨ (us.any fun x => decide (2 ^ m.ex ≤ bitsOf x 1 dw + eb)) then none
      else
        let xs := us.map fun x =>
          bitsOf x (1 + dw) m.mant + (bitsOf x 1 dw + eb) * 2 ^ m.mant + (if bitAt x 0 then 2 ^ (m.bits - 1) else 0)
        some (packBits m.bits xs, len)
  else none

/-- Decode the runs of a segment in order. -/
def decodeRuns (rs : List (Option Nat × Nat)) : List Nat → Nat → List Byte → Option (List Byte)
  | [], _, _ => some []
  | d :: ds, at_, pay =>
    match decodeRun rs at_ d pay with
    | none => none
    | some (bs, used) => (decodeRuns rs ds (at_ + bs.length) (pay.drop used)).map (bs ++ ·)

/-- Decode the sectors of a packed page in order, with the checks of R191; `free` is the end of the segment before. -/
def decodeSectors (rs : List (Option Nat × Nat)) (raw : Nat) (page : List Byte) : List Nat → Nat → Nat → Option (List Byte)
  | [], _, _ => some []
  | e :: es, i, free =>
    let kind := bitsOf e 0 2
    let len := bitsOf e 8 6
    let off := bitsOf e 18 14
    let size := min 512 (raw - 512 * i)
    let seg := (page.drop (16 * off)).take (16 * len)
    let rest := decodeSectors rs raw page es (i + 1)
    if bitsOf e 2 6 ≠ 0 ∨ bitsOf e 14 4 ≠ 0 then none
    else if kind = 2 then (if len = 0 then (rest free).map (List.replicate size 0 ++ ·) else none)
    else if off < free ∨ page.length < 16 * (off + len) then none
    else if kind = 0 then (if 16 * len = size then (rest (off + len)).map (seg ++ ·) else none)
    else if kind = 1 then
      let h := field seg 0 4
      let nd := h
      if len < 1 ∨ 31 < len ∨ nd < 1 ∨ 64 < nd then none
      else
        match decodeRuns rs ((List.range nd).map fun j => field seg (4 + 4 * j) 4) (512 * i) (seg.drop (4 + 4 * nd)) with
        | some bs => if bs.length = size then (rest (off + len)).map (bs ++ ·) else none
        | none => none
    else none

/-- The raw page of a packed one, or none where a check of R191 fails. -/
def unpackPage (rs : List (Option Nat × Nat)) (raw : Nat) (page : List Byte) : Option (List Byte) :=
  let n := (raw + 511) / 512
  decodeSectors rs raw page ((List.range n).map fun i => field page (4 * i) 4) 0 ((4 * n + 15) / 16)

/-! ### Grains (R69 to R72) -/

/-- mix of R70. -/
def mix (x : BitVec 64) : BitVec 64 :=
  let z := x + 0x9E3779B97F4A7C15
  let z := (z ^^^ (z >>> 30)) * 0xBF58476D1CE4E5B9
  let z := (z ^^^ (z >>> 27)) * 0x94D049BB133111EB
  z ^^^ (z >>> 31)

/-- entry(i, j) of R70: true for +1. -/
def entryPos (seed stream i j : Nat) : Bool :=
  let w := mix (BitVec.ofNat 64 (seed * 2 ^ 32) ^^^ BitVec.ofNat 64 (stream * 256) ^^^ BitVec.ofNat 64 i
    ^^^ BitVec.ofNat 64 (j / 64 * 2 ^ 40))
  bitAt w.toNat (j % 64)

/-- Σ_j entry(i, j) × r_j in FP32, ascending j, is greater than 0 (R71, R135). -/
def projPos (seed stream i : Nat) (r : List (BitVec 32)) : Bool :=
  let s := r.zipIdx.foldl (fun acc x => add32 acc (if entryPos seed stream i x.2 then x.1 else x.1 ^^^ 0x80000000)) 0
  match val32 s with
  | .fin neg m _ => !neg && decide (0 < m)
  | .inf neg => !neg
  | .nan => false

/-- The 256-bit sketch of a vector (R71, R135). -/
def sketchOf (seed stream : Nat) (r : List (BitVec 32)) : Nat :=
  ((List.range 256).map fun i => if projPos seed stream i r then 2 ^ i else 0).sum

/-- Sum of vectors in FP32, in list order. -/
def sumRows (w : Nat) (rows : List (List (BitVec 32))) : List (BitVec 32) :=
  rows.foldl (fun acc r => List.zipWith add32 acc r) (List.replicate w 0)

/-! ### Arithmetic rounded toward +∞, of values that are not negative -/

/-- A value that is not negative as FP32, rounded toward +∞. -/
def FVal.up32 : FVal → BitVec 32
  | .nan => nan32
  | .inf _ => posInf32
  | .fin _ m e => BitVec.ofNat 32 (enc32 ceilShift m e)

/-- A product rounded toward +∞. -/
def mulUp (a b : BitVec 32) : BitVec 32 := ((val32 a).mul (val32 b)).up32

/-- A sum rounded toward +∞. -/
def addUp (a b : BitVec 32) : BitVec 32 := ((val32 a).add (val32 b)).up32

/-- The square root of an FP32 value that is not negative, rounded toward +∞. -/
def sqrtUp (a : BitVec 32) : BitVec 32 :=
  match val32 a with
  | .fin _ m e =>
    let f := if e % 2 = 0 then e - 80 else e - 81
    let k := m * 2 ^ (e - f).toNat
    let r := Nat.sqrt k
    FVal.up32 (.fin false (if r * r = k then r else r + 1) (f / 2))
  | v => v.up32

/-- The norm of a row: squares, their sum in ascending dimension and the root, each rounded toward +∞ (R71, R135; log entry 34). -/
def normUp (row : List (BitVec 32)) : BitVec 32 := sqrtUp (row.foldl (fun acc x => addUp acc (mulUp x x)) 0)

/-- The magnitude of a value rounded toward +∞ into FP16, as its code. -/
def fp16Up (m : Nat) (e : Int) : Nat :=
  if m = 0 then 0
  else
    let (k, q) := scaleTo ceilShift 11 (-24) m e
    min 0x7C00 ((q + 24).toNat * 2 ^ 10 + k)

/-- The least FP16 code whose value is at least that of an FP32 value that is not negative (R69). -/
def fp16Of (x : BitVec 32) : Nat :=
  match val32 x with
  | .fin _ m e => fp16Up m e
  | _ => 0x7C00

/-- A finite value as a dyadic; others count as zero. -/
def FVal.dyad : FVal → Dyadic
  | .fin neg m e => mkDyadic neg m e
  | _ => { m := 0, e := 0 }

/-- How often the sign changes along a list of numbers, zeros left out. -/
def signChanges (l : List Int) : Nat :=
  let l := l.filter fun x => x != 0
  ((l.zip (l.drop 1)).filter fun (x, y) => decide (x < 0) != decide (y < 0)).length

/-- The first `n` members of a sequence in which each is 2a times the last less b times the last but one: for a cosine a ÷ √b, the
Chebyshev polynomials of the second kind, each scaled by a power of √b, latest first. -/
def chebyshev (a b : Int) : Nat → List Int
  | 0 => []
  | 1 => [1]
  | n + 2 =>
    let l := chebyshev a b (n + 1)
    (2 * a * l.headD 0 - b * (l.drop 1).headD 0) :: l

/-- The angle between two vectors neither of which is zero, in units of π ÷ 256, rounded up (R71, R135): the number of multiples of the
unit below it. Those above zero are the angles of the roots of the 255th polynomial, and the sign changes of the sequence tell how many
roots lie above the cosine; log entry 9. -/
def angleOf (u v : List (BitVec 32)) : Nat :=
  let x := u.map fun c => (val32 c).dyad
  let y := v.map fun c => (val32 c).dyad
  let d := Dyadic.sum (List.zipWith Dyadic.mul x y)
  let n := (Dyadic.sum (x.map fun c => c.mul c)).mul (Dyadic.sum (y.map fun c => c.mul c))
  let e := min d.e (n.e / 2)
  let a := d.m * 2 ^ (d.e - e).toNat
  let b := n.m * 2 ^ (n.e - 2 * e).toNat
  (if 0 < a ∧ a * a = b then 0 else 1) + signChanges (chebyshev a b 256)

/-- The sketch, NMAX and SPREAD of a page, from its 16 decoded keys (R71, R72). -/
def grainOf (seed stream : Nat) (keys : List (List FVal)) : Nat × Nat × Nat :=
  let rows := keys.map fun k => k.map FVal.to32
  let w := (keys.headD []).length
  let r := (sumRows w rows).map fun x => mul32 x 0x3D800000
  let bad := keys.any (fun k => k.any fun v => !v.isFin) || r.any (fun x => !(val32 x).isFin)
    || r.all (fun x => x == 0 || x == 0x80000000)
  if bad then (0, 0x7C00, 255)
  else
    let nmax := (rows.map fun k => fp16Of (normUp k)).max?.getD 0
    let spread := (rows.map fun k => if k.all (fun x => x == 0 || x == 0x80000000) then 0 else angleOf k r).max?.getD 0
    (sketchOf seed stream r, nmax, min 255 spread)

/-- The 64 bytes of a grain (R69). -/
def Grain.toBytes (g : Grain) : List Byte :=
  leBytes 32 g.sketch ++ leBytes 2 g.nmax ++ leBytes 1 g.spread ++ leBytes 1 (flagAt g.tomb 0) ++ leBytes 2 g.gen ++ [0, 0]
    ++ leBytes 4 g.page ++ leBytes 4 g.stream ++ List.replicate 16 0

/-- A grain from its 64 bytes. -/
def Grain.ofBytes (b : List Byte) : Grain :=
  { sketch := field b 0 32, nmax := field b 32 2, spread := field b 34 1, tomb := bitAt (field b 35 1) 0,
    gen := bitsOf (field b 36 2) 0 12, page := field b 40 4, stream := bitsOf (field b 44 4) 0 20 }

end Sys2Proof.Machine
end

