-- ==== Sys2Proof/Machine/Egress.lean ====
section
/-! DEFINITION. Shared operations of egress queues and sending connections (R305 to R308, R331 to R340): how a message
enters a queue, the token bucket, what may start; and what of a port that needs: its state, its credits, and which port a packet takes (R273,
R275). -/

namespace Sys2Proof.Machine

/-- A port as reset leaves it (R291); MODE is loaded from PD 0x4001.pp when the Stored entries are. -/
def Port.atReset : Port :=
  { en := false, mode := 0, modeNext := none, fallowOk := true, loop := false, lock := false, st := .down, lanes := 0, peer := 0, peerv := false,
    degraded := false, uncorr := false, replaylim := false, fmode := 0, fsev := false, fdepth := 0, fvlmask := 0, frate := 0,
    fseed := 1, lfsr := 1, held := [], nextSeq := 0, replay := [], replays := 0, expect := 0, nak := false,
    sent := List.replicate 8 0, freed := List.replicate 8 0, rfreed := List.replicate 8 0, tries := 0, peerFallow := false,
    peerDrained := false, delay := 0, tx := [], since := 0, downAt := 0, ackAt := 0,
    ctlRecs := [], slotAt := (0, 0), resync := false, moving := false, corrAt := 0 }

/-- A port. -/
def State.port (s : State) (p : Nat) : Port := lookD s.lnk.ports p Port.atReset

/-- Put a port back. -/
def State.setPort (s : State) (p : Nat) (x : Port) : State := { s with lnk := { s.lnk with ports := put s.lnk.ports p x } }

/-- Whether a port carries data flits of a VL now: UP, or FALLOW for VL6 alone (R265, R284), in Damlis mode,
not looped, and not in the retrain of a move (R284). -/
def Port.carries (x : Port) (vl : Nat) : Bool :=
  x.en && x.mode == 0 && !x.loop && !x.moving && (x.st == .up || (x.st == .fallow && vl == 6))

/-- A share of the far receiver's buffer: the two ends are taken to be configured alike (PD 0x4002.pp, R273; log entry 29). -/
def State.share (s : State) (p vl : Nat) : Nat := leNat (((s.pd.bytes 0x4002 p).drop (2 * vl)).take 2)

/-- Replace an element of a list. -/
def setAt {α : Type} (l : List α) (i : Nat) (v : α) : List α := l.zipIdx.map fun x => if x.2 = i then v else x.1

/-- The credits a port holds for a VL (R273). -/
def State.credits (s : State) (p vl : Nat) : Nat :=
  let x := s.port p
  s.share p vl - (x.sent.getD vl 0 + 2 ^ 16 - (x.freed.getD vl 0).toNat) % 2 ^ 16

/-- The port that the sender picks for a packet (R275): among those that carry its VL, the one with the most credits, the lowest
number among equals. -/
def State.bestPort (s : State) (vl : Nat) (ps : List Nat) : Option Nat :=
  (ps.filter fun q => (s.port q).carries vl).foldl (fun (b : Option Nat) q => match b with
    | none => some q
    | some a => if s.credits a vl < s.credits q vl then some q else some a) none

/-- A queue as reset leaves it: disabled (R342, R518). -/
def Queue.off : Queue :=
  { en := false, opr := false, unshaped := false, sample := false, comp := 0, ports := 0, rate := 0, burst := 0, tokens := 0,
    tokAt := 0, waiting := [], ce := false, elig := [], paidAt := 0, closing := false }

/-- A send entry as reset leaves it: invalid. -/
def SendEnt.off : SendEnt :=
  { fdest := 0, rcid := 0, job := 0, valid := false, next := 1, high := 0, outst := [], obytes := 0, cwnd := 0,
    lastCut := none, wroteGen := none, rekey := false }

/-- An egress queue. -/
def State.queue (s : State) (q : Nat) : Queue := lookD s.egq.qs q Queue.off

/-- Put an egress queue back. -/
def State.setQueue (s : State) (q : Nat) (x : Queue) : State := { s with egq := { s.egq with qs := put s.egq.qs q x } }

/-- The send entry of connection `q`. -/
def State.sendEnt (s : State) (q : Nat) : SendEnt := lookD s.rmo.send q SendEnt.off

/-- Put a send entry back. -/
def State.setSend (s : State) (q : Nat) (e : SendEnt) : State := { s with rmo := { s.rmo with send := put s.rmo.send q e } }

/-- What a queue earns every 4 ns: RATE × 0.004 B, held to 1/1,024 B (R335). -/
def tokenStep (rate : Nat) : Nat := rate * 4096 / 1000

/-- Bring TOKENS up to a time: one increment every 4 ns, capped at BURST while a message waits and at 0 while none does
(R335); the time at which they reach 0 is noted. -/
def Queue.earn (q : Queue) (held : Bool) (now : Nat) : Queue :=
  let k := (now - q.tokAt) / 16
  if k = 0 then q
  else
    let cap : Int := if held then (q.burst : Int) * 1024 else 0
    let step := tokenStep q.rate
    let owed := (-q.tokens).toNat
    let paidAt := if q.tokens < 0 ∧ owed ≤ k * step then q.tokAt + 16 * ((owed + step - 1) / max 1 step) else q.paidAt
    { q with tokens := min cap (q.tokens + (k * step : Nat)), tokAt := q.tokAt + 16 * k, paidAt }

/-- TOKENS at a time, by the messages that the queue holds. -/
def Queue.settle (q : Queue) (now : Nat) : Queue := q.earn (q.waiting != []) now

/-- The bytes that a message counts against the connection window: MLEN, or the read length of a READ (R307). -/
def Msg.count (m : Msg) : Nat := if m.opc = 1 then m.rdlen else m.mlen

/-- A WRITE message (R298). -/
def mkWrite (vl win : Nat) (wgen epoch : BitVec 16) (mtag : BitVec 32) (addr : Nat) (data : List Byte) (flag : Bool)
    (prod : Producer) (contract : Bool) (deadline : Phase) : Msg :=
  { opc := 2, flag, vl, win, wgen, epoch, mtag, addr, data, npa := none, mlen := data.length, rdlen := 0, prod, contract,
    deadline, entered := 0, off := 0, cseq := none, kgen := 0, resends := 0 }

/-- An XOR message (R298). -/
def mkXor (win : Nat) (wgen epoch : BitVec 16) (addr : Nat) (data : List Byte) (prod : Producer) (deadline : Phase) : Msg :=
  { mkWrite 1 win wgen epoch 0 addr data false prod false deadline with opc := 5 }

/-- A READ message of a length (R298). -/
def mkRead (win : Nat) (wgen epoch : BitVec 16) (addr len : Nat) (prod : Producer) (deadline : Phase) : Msg :=
  { mkWrite 1 win wgen epoch 0 addr (leBytes 8 len) false prod false deadline with opc := 1, rdlen := len }

/-- The Phase of the next step boundary: layer 0 of the step after this one. -/
def State.nextStep (s : State) : Phase := mkPhase (s.step + 1) 0 0

/-- R307: a message of `b` bytes may be sent. -/
def SendEnt.maySend (e : SendEnt) (b : Nat) : Bool :=
  e.outst.length < 64 && (e.obytes == 0 || e.obytes + b ≤ e.cwnd)

/-- The window's change on a response to a message of `b` bytes (R307), with or without CE. -/
def SendEnt.onResponse (e : SendEnt) (ce : Bool) (now cmin cmax : Nat) : Nat → SendEnt := fun b =>
  if ce then
    if (e.lastCut.elim true fun c => decide (now - c ≥ 2 * us)) then { e with cwnd := max cmin (e.cwnd / 2), lastCut := some now }
    else e
  else { e with cwnd := min cmax (e.cwnd + 7616 * b / max 1 e.cwnd) }

/-- The ranking key of R202, from T(R): E = max(T(R), min(T(D), T(R) + A)), in ticks. -/
def State.rankFrom (s : State) (r : Nat) (d : Phase) (a : Nat) : Nat := r + min (s.ticksTo r (s.tickOf d)).toNat a

/-- The ranking key of R202. -/
def State.rankKey (s : State) (r d : Phase) (a : Nat) : Nat := s.rankFrom (s.tickOf r) d a

/-- Keys compare modulo 2^48 as in R28 (R202): `a` ranks at or before `b`. -/
def keyLe (a b : Nat) : Bool := (b + 2 ^ 48 - a % 2 ^ 48) % 2 ^ 48 ≤ 2 ^ 47 - 1

/-- The flits of a packet whose body holds a 48-byte header, the payload padded to 16 B and a 16-byte tag: 16 header bytes
and 240 body bytes a flit (R268, R294). -/
def packetFlits (slen : Nat) : Nat := (64 + (slen + 15) / 16 * 16 + 239) / 240

/-- The deadline a message carries: its request's for contract egress, else the next step boundary (R338). -/
def Msg.due (s : State) (m : Msg) : Phase := if m.contract then m.deadline else s.nextStep

/-- The job of a queue: 0 for an Operator queue, else its composition's. -/
def State.queueJob (s : State) (q : Queue) : Nat := if q.opr then 0 else s.jobOf q.comp

/-- The link-key generation of a job on this node, and whether a key is installed under it (R388, R391, R397). A job that has
had no key is at generation 0 (log entry 19). -/
def State.jobGen (s : State) (job : Nat) : BitVec 16 × Bool :=
  if job = 0 then (s.sec.opGen, true)
  else
    match s.cmp.comps.find? (fun k => k.2.st != .free && k.2.desc.job == job) with
    | some k => (k.2.gen, !k.2.noKey)
    | none => (lookD s.sec.gens job 0, true)

/-- Check 2 of R311: KGEN is the job's generation in force, or the previous one in its grace step (R391). -/
def State.genOk (s : State) (job : Nat) (kgen : BitVec 16) : Bool :=
  let g := s.jobGen job
  let grace := s.cmp.comps.any fun k => k.2.st != .free && k.2.desc.job == job && k.2.grace
  g.2 && (kgen == g.1 || (grace && kgen + 1 == g.1))

/-- The enabled queues of a composition. -/
def State.compQueues (s : State) (c : Nat) : List (Nat × Queue) :=
  s.egq.qs.filter fun q => !q.2.opr && q.2.comp == c && q.2.en

/-- The sum of RATE over a composition's enabled queues (R333). -/
def State.rateSum (s : State) (c : Nat) : Nat := (s.compQueues c).foldl (fun n q => n + q.2.rate) 0

/-- The 46-bit extended sequence of a connection's next message (R392, R393). -/
def SendEnt.ext (e : SendEnt) : Nat := (e.high * 2 ^ 32 + e.next.toNat) % 2 ^ 46

/-! ### What may start, and entering a queue (R331, R332, R336 to R338) -/

/-- Whether a message is a gateway's datagram, which no connection carries (R331). -/
def Msg.isDatagram (m : Msg) : Bool := match m.prod with | .datagram _ => true | _ => false

/-- Whether a queue's packet may start as its bucket stands (R335 to R337). -/
def Queue.paid (q : Queue) (m : Msg) : Bool := decide (0 ≤ q.tokens) || m.contract || q.unshaped

/-- Whether a message may be sent under R307, as one that has begun or is being resent may. -/
def State.windowOpen (s : State) (q : Nat) (m : Msg) : Bool := m.cseq.isSome || m.isDatagram || (s.sendEnt q).maySend m.count

/-- The ports on which a queue's head may leave: its own, in the route to its target (R338, R340). A datagram leaves by any of the queue's
own (log entry 160). -/
def State.headPorts (s : State) (q : Nat) (x : Queue) : BitVec 8 :=
  if x.waiting.head?.any Msg.isDatagram then x.ports else x.ports &&& s.routeMask (s.sendEnt q).fdest

/-- Whether a queue sends a message: it is enabled, or the message is a result that a closing queue still sends (R106, R370). -/
def Queue.sends (x : Queue) (m : Msg) : Bool :=
  x.en || (x.closing && (match m.prod with | .result _ => true | _ => false))

/-- Whether a queue's head is eligible on a port but for its tokens (R338, R393). A gateway link has no credits. -/
def State.mayStart (s : State) (port q : Nat) (x : Queue) (m : Msg) : Bool :=
  x.sends m && bitAt (s.headPorts q x).toNat port && (m.isDatagram
    || (s.windowOpen q m && decide (0 < s.credits port m.vl) && !((s.sendEnt q).rekey && (s.sendEnt q).ext == 2 ^ 46 - 1)))

/-- Note on which ports a queue's head is eligible but for its tokens, and since when (R338). -/
def State.noted (s : State) (q : Nat) (x : Queue) : Queue :=
  match x.waiting.head? with
  | none => { x with elig := [] }
  | some m => { x with elig := ((portList (s.headPorts q x)).filter fun p => s.mayStart p q x m).map fun p =>
                  (x.elig.find? fun e => e.1 == p).getD (p, s.phase, s.timer) }

/-- Note it of one queue. -/
def State.note (s : State) (q : Nat) : State := s.setQueue q (s.noted q (s.queue q))

/-- Note it of every queue, with its bucket brought up to now. -/
def State.noteAll (s : State) : State :=
  { s with egq := { s.egq with qs := s.egq.qs.map fun e => (e.1, s.noted e.1 (e.2.settle s.timer)) } }

/-- Whether a queue takes another message: it holds at most 1,024 waiting, and all queues together 131,072 (R332). -/
def State.roomIn (s : State) (q : Nat) : Bool :=
  decide ((s.queue q).waiting.length < 1024) && decide ((s.egq.qs.map fun e => e.2.waiting.length).sum < 131072)

/-- A message enters a queue: behind those that wait (R331), or resent at the head (R348). -/
def State.putMsg (s : State) (q : Nat) (m : Msg) : State :=
  let x := (s.queue q).settle s.timer
  let m := { m with entered := s.timer }
  let x := if m.cseq.isSome then { x with waiting := m :: x.waiting, elig := [] } else { x with waiting := x.waiting ++ [m] }
  s.setQueue q (s.noted q x)

/-- A producer sends a message by a queue (R331); where the queue or the pool is full it waits behind those that wait already (R332;
log entry 18). -/
def State.enqueue (s : State) (q : Nat) (m : Msg) : State :=
  { s with egq := if s.roomIn q && (m.cseq.isSome || !s.egq.held.any fun h => h.1 == q) then (s.putMsg q m).egq
                  else { s.egq with held := s.egq.held ++ [(q, m)] } }

/-- Messages whose producers waited enter as room comes (R332). -/
def State.refill (s : State) : State :=
  s.egq.held.foldl (fun (s : State) h => s.enqueue h.1 h.2) { s with egq := { s.egq with held := [] } }

/-- Take messages that are not to be sent any more out of a queue, and from producers that wait for it. -/
def State.unqueue (s : State) (q : Nat) (p : Msg → Bool) : State :=
  let x := (s.queue q).settle s.timer
  let waiting := x.waiting.filter fun m => !p m
  let x := { x with waiting, elig := if waiting.head? = x.waiting.head? then x.elig else [] }
  let s := { s with egq := { s.egq with held := s.egq.held.filter fun h => !(h.1 == q && p h.2) } }
  ((s.setQueue q x).note q).refill

/-- The messages that wait in a queue or for it. -/
def State.queued (s : State) (q : Nat) : List Msg :=
  (s.queue q).waiting ++ (s.egq.held.filter fun h => h.1 == q).map (·.2)

/-- R305: whether messages are outstanding on a sending connection or a message of it is being sent. -/
def SendEnt.busy (e : SendEnt) : Bool := e.outst != []

end Sys2Proof.Machine
end

