-- ==== Sys2Proof/Machine/Reply.lean ====
section
/-! DEFINITION. Shared operations of result delivery (R105 to R108, R124 to R131, R477 to R481): the reply path, result
writes, the flag word or mailbox, and how requests end early. -/

namespace Sys2Proof.Machine

/-! ### Virtual functions and mailboxes -/

/-- A virtual function as reset leaves it (R490). -/
def Vf.off : Vf :=
  { base := 0, en := false, lsize := 8, tail := 0, head := 0, stall := false, err := false, seq := 0, mbx := [], latch := [],
    fetching := false }

/-- A mailbox that is FREE (R479, R480). -/
def Mbx.free : Mbx :=
  { st := .free, status := .notReady, seq := 0, tag := 0, flag := 0, rbytes := 0, consumed := false, irq := false, res := 0 }

/-- A virtual function. -/
def State.vf (s : State) (n : Nat) : Vf := lookD s.hif.vfs n Vf.off

/-- Change a virtual function. -/
def State.setVf (s : State) (n : Nat) (f : Vf → Vf) : State :=
  { s with hif := { s.hif with vfs := put s.hif.vfs n (f (s.vf n)) } }

/-- A mailbox of a virtual function. -/
def Vf.box (v : Vf) (n : Nat) : Mbx := lookD v.mbx n Mbx.free

/-- Change a mailbox. -/
def State.setMbx (s : State) (vf n : Nat) (f : Mbx → Mbx) : State :=
  s.setVf vf fun v => { v with mbx := put v.mbx n (f (v.box n)) }

/-- A mailbox becomes READY (R481), with its MSI-X message when its entry asked for one. A request discarded by a function
reset writes nothing (R467). -/
def State.mbxReady (s : State) (vf n : Nat) (st : Status) (tag : BitVec 32) (flag : BitVec 64) (rbytes : Nat) : State :=
  let b := (s.vf vf).box n
  if b.st ≠ .busy then s
  else
    let s := s.setMbx vf n fun b => { b with st := .ready, status := st, tag, flag, rbytes, consumed := false }
    if b.irq then s.emit (.msix vf 0) else s

/-- The composition of a virtual function (R353). -/
def State.vfComp (s : State) (vf : Nat) : Option Nat :=
  (s.cmp.comps.find? fun k => k.2.st != .free && k.2.desc.vf == vf).map (·.1)

/-- Whether a composition is sealed to the host: a key has been installed in it (R474). -/
def State.sealedHost (s : State) (c : Nat) : Bool := (s.comp? c).elim false (·.keyed)

/-- Fetch the next entry of a submission ring, if one waits and none is being fetched (R475, R480): its mailbox becomes BUSY with the
next sequence, 0 left out; where the mailbox is not FREE, fetching stalls. Nothing is fetched from shedding stage 6 on until
RESUME (R489), nor during orderly power-down. -/
def State.pump (s : State) (n : Nat) : State :=
  let v := s.vf n
  if !v.en || v.fetching || v.head == v.tail || !s.ready || decide (6 ≤ s.pwr.stage) || s.pwr.held || s.pwr.off then s
  else if (v.box v.head).st != .free then s.setVf n fun v => { v with stall := true }
  else
    let seq := if v.seq + 1 = 0 then 1 else v.seq + 1
    let b : Mbx := { Mbx.free with st := .busy, seq }
    let s := s.setVf n fun v => { v with stall := false, seq, fetching := true, head := (v.head + 1) % 2 ^ v.lsize,
                                         mbx := put v.mbx v.head b }
    s.emit (.hostRead n (v.base.toNat + 32 * v.head) 32)

/-- Fetching goes on at every virtual function. -/
def State.pumpAll (s : State) : State := (List.range 17).foldl (fun (s : State) n => s.pump n) s

/-! ### The reply path -/

/-- The queue a request's results leave by (R128): the lowest of the admitting composition's range that is enabled and whose
send entry goes to RNODE under the request's job. -/
def State.replyPath (s : State) (c job rnode : Nat) : Option Nat :=
  match s.comp? c with
  | none => none
  | some k =>
    (s.egq.qs.find? fun q =>
      decide (k.desc.qbase ≤ q.1) && decide (q.1 < k.desc.qbase + k.desc.qcount) && q.2.en &&
        (s.sendEnt q.1).valid && (s.sendEnt q.1).fdest == rnode && (s.sendEnt q.1).job == job).map (·.1)

/-- The job and composition a request comes under (R85, R112, R477). -/
def State.sourceOf (s : State) : Source → Nat × Nat
  | .fabric job comp _ _ _ => (job, comp)
  | .doorbell vf _ => ((s.vfComp vf).elim 0 s.jobOf, (s.vfComp vf).getD 16)

/-- The map epoch and mirror tag that a request's messages carry (R297, R435). -/
def State.sourceTag (s : State) : Source → BitVec 16 × BitVec 32
  | .fabric _ _ _ epoch mtag => (epoch, mtag)
  | .doorbell _ _ => (s.rmo.epoch, 0)

/-- A request without a reply path (R128): counted, with a MSG event; nothing of it is executed. -/
def State.noReply (s : State) (c rnode : Nat) : State :=
  (s.countC c 0x4160 0x0B 1).event { cls := 2, code := 8, subj := rnode, comp := some c, job := s.jobOf c, detail := leBytes 2 rnode }

/-- Whether a composition is a shadow, which sends nothing but its comparisons (R432). -/
def State.shadows (s : State) (c : Nat) : Bool := s.rel.joining.any fun a => a.shadow && a.tested && a.lcomp == c

/-- Look for a request's reply path, which a doorbell request does not need (R128, R131), nor a shadow (R432). -/
def State.pathOf (s : State) (src : Source) (c job rnode : Nat) : Option (Option Nat) :=
  if s.shadows c then some none else
  match src with
  | .doorbell _ _ => some none
  | .fabric _ _ _ _ _ => (s.replyPath c job rnode).map some

/-- Write result bytes at ROFF + `off` (R127, R477). -/
def State.sendResult (s : State) (src : Source) (env : Envelope) (q : Option Nat) (off : Nat) (bs : List Byte)
    (contract : Bool) (prod : Producer) : State :=
  match src, q with
  | .doorbell vf n, _ =>
    if ((s.vf vf).box n).st == .busy then
      s.emit (.hostWrite vf (((s.vf vf).box n).res + env.roff + off) bs)
    else s
  | .fabric _ _ _ epoch mtag, some q =>
    s.enqueue q (mkWrite 2 env.rwin env.rwgen epoch mtag (env.roff + off) bs false prod contract
      (if env.dl then env.deadline else s.nextStep))
  | _, none => s

/-- The last write of a request (R106): the flag word as a flagged store, or the mailbox (R481). -/
def State.sendFlag (s : State) (src : Source) (env : Envelope) (q : Option Nat) (st : Status) (rbytes : Nat)
    (contract : Bool) (prod : Producer) : State :=
  match src, q with
  | .doorbell vf n, _ => s.mbxReady vf n st env.tag (flagWord env.fval st) rbytes
  | .fabric _ _ _ epoch mtag, some q =>
    s.enqueue q (mkWrite 2 env.rwin env.rwgen epoch mtag env.foff (leBytes 8 (flagWord env.fval st).toNat) true prod contract
      (if env.dl then env.deadline else s.nextStep))
  | _, none => s

/-- A fresh identifier of a request, under which its messages leave (R130, R331). -/
def State.newId (s : State) : Nat × State := (s.rq.nextId, { s with rq := { s.rq with nextId := s.rq.nextId + 1 } })

/-- A context operation or management operation ends on a known path: its completion record, then its flag word (R108,
R160). -/
def State.endOp (s : State) (src : Source) (env : Envelope) (q : Option Nat) (op : Nat) (st : Status) (v : Nat)
    (contract : Bool) : State :=
  let (id, s) := s.newId
  (s.sendResult src env q 0 (completionBytes st op env.tag v) contract (.result id)).sendFlag src env q st 16 contract (.result id)

/-! ### Result blocks -/

/-- A block that holds no data (R124). -/
def Block.bare (st : Status) (run stream dv : Nat) (hint : Option Nat) : Block :=
  { status := st, run, stream, rows := [], dv, pages := 0, tokens := 0, cand := 0, hint }

/-- A row record: o, then m, then l (R125). -/
def Partial.toBytes (p : Partial) : List Byte :=
  (p.o.map fun x => leBytes 4 x.toNat).flatten ++ leBytes 4 p.m.toNat ++ leBytes 4 p.l.toNat

/-- The bytes of a result block (R124). -/
def Block.toBytes (b : Block) (env : Envelope) (h : AttendHead) : List Byte :=
  padMul 64 (leBytes 1 b.status.code ++ leBytes 1 b.run ++ leBytes 1 h.split ++ leBytes 1 h.nsplit ++ leBytes 4 env.tag.toNat
    ++ leBytes 4 b.stream ++ leBytes 2 b.rows.length ++ leBytes 2 b.dv ++ leBytes 4 b.pages ++ leBytes 4 b.tokens
    ++ leBytes 4 b.cand ++ leBytes 2 (match b.hint with | some n => n % 2 ^ 14 + 2 ^ 15 | none => 0)
    ++ List.replicate 34 0 ++ (b.rows.map Partial.toBytes).flatten)

/-- The summary status of blocks in section order (R107). -/
def summary (bs : List Block) : Status :=
  match bs.find? fun b => b.status != .ok && b.status != .okFallback with
  | some b => b.status
  | none => if bs.any fun b => b.status == .okFallback then .okFallback else .ok

/-- Change a request in place. -/
def State.setReq (s : State) (id : Nat) (f : Req → Req) : State :=
  { s with rq := { s.rq with reqs := mapIf (fun r => r.id == id) f s.rq.reqs } }

/-- The request of an identifier. -/
def State.req? (s : State) (id : Nat) : Option Req := s.rq.reqs.find? fun r => r.id == id

/-- Whether a request's messages are contract egress (R337): every section was admitted within the contract. -/
def Req.contract (r : Req) : Bool := r.secs.all fun x => x.breach.isNone

/-- Send the blocks of a list of sections, in order, from where the request stands, until one is not final (R124). -/
def State.sendBlocks (s : State) (r : Req) : List Sec → Nat → State × Nat
  | [], off => (s, off)
  | x :: xs, off =>
    match x.block with
    | none => (s, off)
    | some b =>
      if x.sent then s.sendBlocks r xs off
      else
        let bs := b.toBytes r.req.env r.req.head
        let s := s.sendResult r.src r.req.env r.queue off bs r.contract (.result r.id)
        s.sendBlocks r xs (off + bs.length)

/-- Mark as sent the leading sections whose blocks are final. -/
def markSent : List Sec → List Sec
  | [] => []
  | x :: xs => if x.block.isSome then { x with sent := true } :: markSent xs else x :: xs

/-- Send what is final of a request, and its flag word once every block is out (R106, R124, R127, R130). -/
def State.flush (s : State) (id : Nat) : State :=
  match s.req? id with
  | none => s
  | some r =>
    if r.stopped then s
    else
      let (s, off) := s.sendBlocks r r.secs r.bytes
      let secs := markSent r.secs
      let s := s.setReq id fun r => { r with secs, bytes := off }
      if secs.all (·.sent) then
        let st := summary (secs.filterMap (·.block))
        let s := s.sendFlag r.src r.req.env r.queue st off r.contract (.result id)
        let s := if secs.any fun x => (x.block.map (·.status)) == some .okFallback then
            { s with phs := { s.phs with fbAny := true } } else s
        { s with rq := { s.rq with reqs := s.rq.reqs.filter fun r => r.id != id } }
      else s

/-- Close a section that is not final with a status and no data; RUN tells whether it had been dispatched (R124), and HINT names a node
with MOVED. A section without a
snapshot, not dispatched or ended at its dispatch, gives DV 0, for which the spec states no value (DESIGN CHOICE, log entry 129). -/
def Sec.closeAt (st : Status) (hint : Option Nat) (x : Sec) : Sec :=
  match x.block with
  | some _ => x
  | none => { x with block := some (.bare st (if x.running then x.run else 2) x.stream (x.snap.elim 0 (·.dv)) hint),
                     running := false }

/-- Close a section that is not final with a status, no data and no hint. -/
def Sec.close (st : Status) (x : Sec) : Sec := x.closeAt st none

/-- Change one section of a request. -/
def State.setSec (s : State) (id i : Nat) (f : Sec → Sec) : State :=
  s.setReq id fun r => { r with secs := r.secs.zipIdx.map fun x => if x.2 = i then f x.1 else x.1 }

/-- End one section of a request with a status and no data; the others still run (R133). -/
def State.endSec (s : State) (id i : Nat) (st : Status) : State := (s.setSec id i (Sec.close st)).flush id

/-- End a request with a status for every block that is not final (R133). A request whose reply path has not been looked for
yet looks for it now (R128). -/
def State.endReqAt (s : State) (st : Status) (hint : Option Nat) (r : Req) : State :=
  let s := if r.asked then s else
    match s.pathOf r.src r.comp r.job r.req.env.rnode with
    | some q => s.setReq r.id fun r => { r with queue := q, asked := true }
    | none => (s.noReply r.comp r.req.env.rnode).setReq r.id fun r => { r with asked := true, stopped := true }
  let s := s.setReq r.id fun r => { r with secs := r.secs.map (Sec.closeAt st hint) }
  let s := s.flush r.id
  { s with rq := { s.rq with reqs := s.rq.reqs.filter fun x => x.id != r.id } }

/-- End a request with a status for every block that is not final, and no hint. -/
def State.endReq (s : State) (st : Status) (r : Req) : State := s.endReqAt st none r

/-- The header of a search result block (R170). -/
def searchHeader (r : SearchReq) (st : Status) (q count scanned reranked : Nat) : List Byte :=
  leBytes 1 st.code ++ leBytes 1 q ++ leBytes 2 count ++ leBytes 4 r.env.tag.toNat ++ leBytes 8 scanned ++ leBytes 2 reranked
    ++ leBytes 2 r.slo ++ leBytes 2 r.shi ++ List.replicate 42 0

/-- The blocks of a search that holds no data, one for each query (R164, R170); a query count out of range gives one (log
entry 37). -/
def bareSearch (r : SearchReq) (st : Status) : List Byte :=
  ((List.range (if 1 ≤ r.nq ∧ r.nq ≤ 16 then r.nq else 1)).map fun q => searchHeader r st q 0 0 0).flatten

/-- Refuse a search whole (R164): a block for each query without entries, then the flag word. -/
def State.refuseSearch (s : State) (src : Source) (r : SearchReq) (q : Option Nat) (st : Status) (contract : Bool) :
    State :=
  let (id, s) := s.newId
  let bs := bareSearch r st
  (s.sendResult src r.env q 0 bs contract (.result id)).sendFlag src r.env q st bs.length contract (.result id)

/-- End a search with a status for every block (R170, R172). -/
def State.endSearch (s : State) (st : Status) (r : Search) : State :=
  let path := if r.queue.isSome then some r.queue else s.pathOf r.src r.comp r.job r.req.env.rnode
  let s := { s with rq := { s.rq with searches := s.rq.searches.filter fun x => x.id != r.id } }
  match path with
  | none => s.noReply r.comp r.req.env.rnode
  | some q => s.refuseSearch r.src r.req q st false

/-- End every request and search that a test on job and composition picks, each unfinished block with a status and no rows
(R133, R172, R370, R397, R429, R456). -/
def State.endAll (s : State) (p : Nat → Nat → Bool) (st : Status) : State :=
  let s := (s.rq.reqs.filter fun r => p r.job r.comp).foldl (fun s r => s.endReq st r) s
  (s.rq.searches.filter fun r => p r.job r.comp).foldl (fun s r => s.endSearch st r) s

/-- The stream that block `i` of a refused request echoes (R112): that of section `i` where its header lies within BLEN, as the lengths
of R109 to R111 place it, and 0 otherwise. -/
def echoOf (r : AttendReq) (i : Nat) : Nat :=
  let size (x : QSection) : Nat := 64 + up64 (r.head.npos * r.head.nhead * x.dk * (fmtOf r.head.qfmt).bits / 8)
  let at_ := 64 + (if r.head.mode = 2 then 128 else 0) + ((r.secs.take i).map size).sum
  match r.secs[i]? with
  | some x => if at_ + 64 ≤ 64 * r.env.blen then x.stream else 0
  | none => 0

/-- Refuse an attention request whole (R112): a block for each section, RUN 2 and no rows, then the flag word. The blocks give DV 0, for
which the spec states no value; log entry 129. -/
def State.refuseAttend (s : State) (src : Source) (r : AttendReq) (st : Status) (hint : Option Nat) : State :=
  let (job, comp) := s.sourceOf src
  match s.pathOf src comp job r.env.rnode with
  | none => s.noReply comp r.env.rnode
  | some q =>
    let n := if 1 ≤ r.head.nstr ∧ r.head.nstr ≤ 16 then r.head.nstr else 1
    let bs := (List.range n).map fun i => (Block.bare st 2 (echoOf r i) 0 hint).toBytes r.env r.head
    let (id, s) := s.newId
    let s := s.sendResult src r.env q 0 bs.flatten false (.result id)
    s.sendFlag src r.env q st (64 * n) false (.result id)

end Sys2Proof.Machine
end

