-- ==== Sys2Proof/Machine/Cost.lean ====
section
/-! DEFINITION. Service bounds (R50, R51), the active slot table, the contract (R52) and what a running request has ahead of
it (R57). Times are in nanoseconds, as rationals, and rounded up to ticks of 4 ns. -/

namespace Sys2Proof.Machine

/-- What a request asks of a slot: its class, composition, and the parameters of R50 and R52. `bytes` in bytes; `half` while
tile clocks are halved (R195). -/
structure Load where
  cls    : Nat
  comp   : Nat
  fmt    : Nat := 0
  rows   : Nat := 0
  dhead  : Nat := 0
  pages  : Nat := 0
  grains : Nat := 0
  sketch : Nat := 0
  bytes  : Nat := 0
  elem   : Rat := 1
  ways   : Nat := 1
  hardpan : Bool := false
  deriving DecidableEq, Repr

/-- Round a time in nanoseconds up to ticks (R50). -/
def ticksUp (ns : Rat) : Nat := (ns / 4).ceil.toNat

/-- k of R50. -/
def kOf (fmt : Nat) : Rat := if fmt = 0 then 1 else if fmt = 1 then 2 else 1 / 2

/-- Bytes per element of R50, by format code. -/
def elemBytes (code : Nat) : Rat :=
  match (fmtOf code).bits with
  | 4 => 1 / 2 | 6 => 3 / 4 | 16 => 2 | _ => 1

/-- Bytes per element for a slot's FMT class alone (R50). -/
def elemOfClass (fmt : Nat) : Rat := if fmt = 0 then 1 else if fmt = 1 then 3 / 4 else 2

/-- Clock counts of R50 on `n` tiles: exact, bandwidth, scan; only ATTN_SIEVE scans. -/
def Load.clocks (x : Load) (n : Nat) (fast2 : Bool) : Nat × Nat × Nat :=
  let n := max 1 n
  let pt := (x.pages + n - 1) / n
  let exact := (((2 * x.rows * 16 * pt * x.dhead : Nat) : Rat) / (16384 * kOf x.fmt)).ceil.toNat
  let bw := (((pt * 32 * x.dhead : Nat) : Rat) * x.elem * (129 / 128) / (if fast2 then 754 else 785)).ceil.toNat
  let scan := if x.cls = 2 then (x.grains * x.sketch * 256 + 4096 * n - 1) / (4096 * n) else 0
  (exact, bw, scan)

/-- Nanoseconds of a count of tile clocks at 1.7 GHz, doubled while the clocks are halved (R195). -/
def clockNs (c : Nat) (half : Bool) : Rat := (if half then 2 else 1) * (c : Rat) / (17 / 10)

/-- ⌈log2 n⌉. -/
def log2Up (n : Nat) : Nat := if n ≤ 1 then 0 else Nat.log2 (n - 1) + 1

/-- L_src and rate, in B/ns, of the stream classes (R50). -/
def State.srcRate (s : State) (c fmt : Nat) : Rat × Rat :=
  let slices := (s.slicesOf c).length
  let flash := match s.comp? c with
    | some k => ((List.range 32).filter fun n => bitAt k.desc.flash.toNat n).length
    | none => 0
  if fmt = 0 then (1000, 1335 * slices)
  else if fmt = 1 then (4000, (s.linkShare c : Rat) / 1000)
  else (120000, 12 / 5 * flash)

/-- A time at a rate; no time is ever enough at rate 0. -/
def atRate (bytes rate : Rat) : Rat := if rate = 0 then 10 ^ 15 else bytes / rate

/-- The bound of R50 in nanoseconds, on `n` tiles and `h` ports; in single-card mode E uses the host link (R488). -/
def State.boundNs (s : State) (x : Load) (n h : Nat) : Rat :=
  let half := s.halfClock
  let (ce, cb, cs) := x.clocks n s.hbm.refRate
  let xx := 20 + clockNs (max ce cb) half
  let m := 10 * (log2Up n : Rat)
  let e := 15 + atRate ((x.rows * (4 * x.dhead + 8) : Nat) : Rat) (if s.single then 100 else ((h * 200 : Nat) : Rat))
  match x.cls with
  | 1 => 65 + xx + m + e + 160
  | 2 => 65 + 15 + clockNs cs half + 65 + xx + m + e + 160
  | 3 => 120 + (x.bytes : Rat) / 200
  | 4 => 200 + 60 * (x.pages : Rat)
  | 5 => let r := s.srcRate x.comp x.fmt; r.1 + atRate x.bytes r.2
  | 6 => let r := s.srcRate x.comp x.fmt; r.1 + atRate x.bytes r.2
  | 7 => 2000 + atRate x.bytes ((if x.hardpan then 12 / 5 else 96) * (x.ways : Rat)) + 50
  | _ => 500 + atRate x.bytes (667 * ((if n = 0 then (s.slicesOf x.comp).length else n : Nat) : Rat))

/-- The bound of R50 in ticks. -/
def State.bound (s : State) (x : Load) (n h : Nat) : Nat := ticksUp (s.boundNs x n h)

/-- The issue interval of R51 in nanoseconds. -/
def State.interval (s : State) (x : Load) (n : Nat) : Rat :=
  let (ce, cb, cs) := x.clocks n s.hbm.refRate
  clockNs (max ce (max cb cs)) s.halfClock

/-- What the work of a request ahead adds to the bound of one behind it, in nanoseconds (R51): its issue interval in an attention
class, in another its own bound, which R50 gives in whole ticks. -/
def State.aheadNs (s : State) (x : Load) (n h : Nat) : Rat := if x.cls ≤ 2 then s.interval x n else ((4 * s.bound x n h : Nat) : Rat)

/-! ### The active table -/

/-- A bank of the slot table. -/
def SchedSt.bankOf (c : SchedSt) (b : Nat) : Assoc Slot := if b = 0 then c.bank0 else c.bank1

/-- The entries of the active table, by slot ID (R47). -/
def State.slots (s : State) : List (Nat × Slot) :=
  let n := if s.sch.bank = 0 then s.sch.act0 else s.sch.act1
  (s.sch.bankOf s.sch.bank).filter fun e => e.2.valid && decide (e.1 < n)

/-- The slots of the current layer: none before synchronisation, while the block is off, or while a time-base fault stops scheduled
work (R38, R39, R49). -/
def State.slotsNow (s : State) : List (Nat × Slot) :=
  if s.sch.en && s.phs.sync && !s.phs.fwdDone then s.slots.filter fun e => e.2.any || e.2.layer == phLayer s.phs.base else []

/-- A slot that has not started. -/
def SlotRun.idle (slot : Nat) : SlotRun :=
  { slot, started := false, admitted := 0, finished := 0, ended := false, ahead := 0, since := 0, late := false, told := false, fin := 0 }

/-- What has happened to a slot in the current layer. -/
def State.slotRun (s : State) (slot : Nat) : SlotRun :=
  (s.sch.runs.find? fun r => r.slot == slot).getD (.idle slot)

/-- Record what happens to a slot in the current layer. -/
def State.setRun (s : State) (r : SlotRun) : State :=
  { s with sch := { s.sch with runs := r :: s.sch.runs.filter fun x => x.slot != r.slot } }

/-- What has happened to the slot that a request of an arrival Phase was admitted to: in the current layer, or in an earlier one whose
work goes on (R62). -/
def State.runAt (s : State) (slot : Nat) (p : Phase) : SlotRun :=
  if s.inLayer p then s.slotRun slot else (s.sch.carry.find? fun r => r.slot == slot).getD (.idle slot)

/-- Change what is recorded of the slot of a request of an arrival Phase. -/
def State.setRunAt (s : State) (p : Phase) (r : SlotRun) : State :=
  if s.inLayer p then s.setRun r else { s with sch := { s.sch with carry := mapIf (fun x => x.slot == r.slot) (fun _ => r) s.sch.carry } }

/-- Number of tiles of a set. -/
def tileCount (t : BitVec 48) : Nat := (tileList t).length

/-- The tiles of a composition: one per slice (R350). -/
def State.compTiles (s : State) (c : Nat) : BitVec 48 := (s.comp? c).elim 0 fun k => k.desc.slices

/-! ### The contract (R52) -/

/-- Whether a request's parameters lie within a slot's fields (R52, condition 6). -/
def Slot.fits (e : Slot) (x : Load) : Bool :=
  match x.cls with
  | 1 | 2 => e.fmt == x.fmt && decide (x.rows ≤ e.rows) && decide (x.sketch ≤ e.sketch) && decide (x.dhead ≤ e.dhead)
      && decide (x.pages ≤ e.pages) && decide (x.grains ≤ e.grains) && decide (x.bytes ≤ e.bytes * 64)
  | 7 => decide (x.bytes ≤ e.bytes * 64) && (e.fmt == (if x.hardpan then 2 else 0)) && decide (e.rows ≤ x.ways)
  | _ => decide (x.bytes ≤ e.bytes * 64)

/-- The outcome of admission: the slot within the contract, or the cause of the breach with the slot named and the ticks
late. -/
structure Admission where
  slot  : Option Nat
  cause : Option Nat
  named : Option Nat
  late  : Nat
  deriving DecidableEq, Repr

/-- The slot of a list that starts first. -/
def firstSlot (l : List (Nat × Slot)) : Option (Nat × Slot) :=
  l.foldl (fun (b : Option (Nat × Slot)) e =>
    match b with
    | none => some e
    | some a => if e.2.start < a.2.start then some e else b) none

/-- A slot of the class and composition in the current layer that has a place left, whose span has not passed and whose fields hold
the request: the earliest of them; log entry 22. -/
def State.findSlot (s : State) (x : Load) : Admission :=
  let now := phTick s.phase
  let cand := s.slotsNow.filter fun e => e.2.opclass == x.cls && e.2.comp == x.comp
  let room := cand.filter fun e => decide ((s.slotRun e.1).admitted < e.2.reqs)
  let live := room.filter fun e => decide (now < e.2.start + e.2.span)
  match firstSlot (live.filter fun e => e.2.fits x), firstSlot live, room.getLast? with
  | some e, _, _ => ⟨some e.1, none, some e.1, 0⟩
  | none, some e, _ => ⟨none, some 2, some e.1, 0⟩
  | none, none, some e => ⟨none, some 3, some e.1, now - (e.2.start + e.2.span)⟩
  | none, none, none => ⟨none, some 1, (cand.head?).map (·.1), 0⟩

/-- Whether a fault scope touches the state of a composition (R52, condition 8): while the Phase is held, or a structure of it found
damaged, or pages of a lost member of its rings, wait for their recovery (R416); log entry 127. -/
def State.faulted (s : State) (c : Nat) : Bool :=
  s.phs.held || (s.rel.pendPages.any fun p => p.1 == c) ||
    s.rel.hurt.any fun h => s.cmp.comps.any fun k => k.1 == c && bitAt k.2.desc.slices.toNat (sliceOf h.1)

/-- Admission under R52, with the deadline of condition 7, and of condition 1 the synchronisation (R39) and the 20 ns of the last mark (R35);
log entry 22. -/
def State.admission (s : State) (x : Load) (deadline : Option Phase) : Admission :=
  if !s.phs.sync then ⟨none, some (if deadline.isSome then 10 else 1), none, 0⟩
  else if s.phs.skewed || s.faulted x.comp then ⟨none, some 1, none, 0⟩
  else
    let a := s.findSlot x
    match a.cause, deadline with
    | none, some d =>
      if earlier d s.phase then ⟨none, some 4, a.named, (s.ticksTo (s.tickOf d) (s.tickOf s.phase)).toNat⟩ else a
    | _, _ => a

/-- Tiles and ports of a slot of the active table, for the formulas of R50. -/
def State.slotShape (s : State) (slot : Nat) : Nat × Nat × Nat :=
  match s.slots.find? fun e => e.1 == slot with
  | some e => (tileCount e.2.tiles, tileCount (BitVec.ofNat 48 e.2.ports.toNat), e.2.start)
  | none => (1, 0, 0)

/-- T of R202 at which the bound of R51 ends for a request that the slot admits now: it runs from the later of its arrival and
the slot's start, with the work of the requests admitted ahead of it. -/
def State.limitOf (s : State) (slot : Nat) (x : Load) : Nat :=
  let (n, h, start) := s.slotShape slot
  let now := s.phase
  s.tickOf now + (start - phTick now) + ticksUp (((4 * s.bound x n h : Nat) : Rat) + (s.slotRun slot).ahead)

/-- Take a place among the REQS of a slot (R52, condition 5). -/
def State.takePlace (s : State) (slot : Nat) (x : Load) : State :=
  let r := s.slotRun slot
  let (n, h, _) := s.slotShape slot
  s.setRun { r with admitted := r.admitted + 1, ahead := r.ahead + s.aheadNs x n h }

/-- A request admitted within the contract at a Phase has completed (R60). -/
def State.donePlace (s : State) (slot : Nat) (p : Phase) : State :=
  let r := s.runAt slot p
  let past := decide (0 < s.ticksTo r.fin (s.tickOf s.phase))
  s.setRunAt p { r with finished := r.finished + 1, late := r.late || (r.started && past) }

/-- α of a class (R58). -/
def State.alphaOf (s : State) (cls : Nat) : Rat := lookD s.sch.alpha cls 1

/-- A limit of α, from its FP32 value at the Directory. -/
def State.alphaLimit (s : State) (sub : Nat) : Rat :=
  match val32 (BitVec.ofNat 32 (s.pdNum 0x7020 sub)) with
  | .fin neg m e => (if neg then -1 else 1) * (m : Rat) * (2 : Rat) ^ e
  | _ => 1

/-- Note a completion for α (R58): the ratio of the measured to the formula time. -/
def State.ratio (s : State) (cls begun : Nat) (formula : Rat) : State :=
  if formula = 0 then s
  else
    let r : Rat := ((s.timer - begun : Nat) : Rat) / 4 / formula
    { s with sch := { s.sch with ratios := put s.sch.ratios cls (lookD s.sch.ratios cls [] ++ [r]) } }

/-- The overrun of a slot has been recorded (R62). -/
def State.tellOver (s : State) (slot : Nat) : State :=
  let tell (l : List SlotRun) : List SlotRun := mapIf (fun x => x.slot == slot) (fun x => { x with told := true }) l
  { s with sch := { s.sch with runs := tell s.sch.runs, carry := tell s.sch.carry } }

/-- The breaches that a completion brings (R53, R55, R59, R62): past the deadline, or past the bound of the slot that admitted it,
which is EGRESS when the requester's connection window held its partials back. Whether the completion is a breach. -/
def State.lateBreach (s : State) (src : Source) (env : Envelope) (q : Option Nat) (job comp cls : Nat) (slot breach : Option Nat)
    (limit : Nat) : Bool × State :=
  let now := s.tickOf s.phase
  let rec_ (c n : Nat) (s : State) : State := s.breach c slot cls comp n job (sourceNode s src) env.tag.toNat
  let past := env.dl && earlier env.deadline s.phase
  let s := if past && breach != some 4 then rec_ 4 (s.ticksTo (s.tickOf env.deadline) now).toNat s else s
  let beyond := slot.isSome && breach.isNone && decide (0 < s.ticksTo limit now)
  let held := q.elim false fun q => !(s.sendEnt q).maySend 1
  let s := if beyond then (rec_ (if held then 9 else 6) (s.ticksTo limit now).toNat s).tellOver (slot.getD 0) else s
  (past || beyond || breach.isSome, s)

/-! ### Slack (R60) -/

/-- What the last of REQS requests at the entry's maxima asks (R48, check 0x03). -/
def Slot.maxima (e : Slot) : Load :=
  { cls := e.opclass, comp := e.comp, fmt := e.fmt, rows := e.rows, dhead := e.dhead, pages := e.pages, grains := e.grains,
    sketch := e.sketch, bytes := e.bytes * 64, elem := elemOfClass e.fmt, ways := e.rows, hardpan := e.fmt == 2 }

/-- What the work of a class holds beside its tiles (R46). -/
inductive Held where
  | channels | nmus | dma | flash | link | egress
  deriving DecidableEq, Repr

/-- What a class of R46 holds beside tiles. -/
def heldBy (cls : Nat) : List Held :=
  match cls with
  | 1 => [.channels, .egress]
  | 2 => [.channels, .nmus, .egress]
  | 3 => [.link]
  | 4 => [.channels]
  | 5 => [.dma, .egress]
  | 6 => [.dma, .flash, .link]
  | 7 => [.nmus, .flash]
  | 8 => [.channels, .nmus]
  | 9 => [.channels]
  | 10 => [.channels, .dma, .flash, .link]
  | 11 => [.channels, .link]
  | _ => []

/-- The slots of the layer so many layers on, as the table in force names them. -/
def State.slotsIn (s : State) (j : Nat) : List (Nat × Slot) :=
  if s.sch.en && s.phs.sync && !s.phs.held && !s.phs.fwdDone then
    s.slots.filter fun e => e.2.any || e.2.layer == (phLayer s.phs.base + j) % max 1 s.layers
  else []

/-- Whether the work of a slot is done, so that its span is slack (R60). -/
def SlotRun.workDone (r : SlotRun) (e : Slot) : Bool :=
  if e.opclass = 15 then false else if e.opclass = 4 then r.ended else decide (e.reqs ≤ r.finished)

/-- Whether a slot of the current layer leaves room for work that ends at tick `fin`, from tick `now` on. -/
def State.slotLeaves (s : State) (now fin : Nat) (n : Nat) (e : Slot) : Bool :=
  decide (fin + 2 ≤ e.start) || decide (e.start + e.span ≤ now) || (decide (e.start ≤ now) && (s.slotRun n).workDone e)

/-- Whether work of a class for a composition on a set of tiles meets what a slot holds: the tiles, or, of the same composition, the
channels, NMUs, links or other units that its class holds (R46, R60); log entry 128. -/
def Slot.meets (e : Slot) (c cls : Nat) (tiles : BitVec 48) : Bool :=
  (e.tiles &&& tiles) != 0 || (e.comp == c && (heldBy e.opclass).any fun h => (heldBy cls).contains h)

/-- Ticks since the compensated arrival of the last mark, not saturated (R34). -/
def State.elapsed (s : State) : Nat := ((((s.timer : Int) - s.phs.prevTc : Int) : Rat) * s.phs.rate / 16).floor.toNat

/-- Whether best-effort work of a class may start now for so many ticks (R60); the slots of the layers that it could reach count, from
their nominal beginning, or from now on while the node waits for a mark, and those that a mark found at work. A layer that comes round
again leaves no less room, so each counts once. -/
def State.slack (s : State) (c cls : Nat) (tiles : BitVec 48) (ticks : Nat) : Bool :=
  let now := s.elapsed
  let fin := now + ticks
  (s.slotsIn 0).all (fun e => !e.2.meets c cls tiles || s.slotLeaves now fin e.1 e.2) &&
  (s.sch.carry.all fun r => r.ended || !((s.slots.find? fun e => e.1 == r.slot).elim false fun e => e.2.meets c cls tiles && !r.workDone e.2)) &&
  (List.range (min (ticks / max 1 s.period + 2) (max 1 s.layers))).all fun j => (s.slotsIn (j + 1)).all fun e =>
    !e.2.meets c cls tiles || decide (fin + 2 ≤ max now s.period + j * s.period + e.2.start)

/-- How many of a number of pages or sectors the next quantum of a best-effort request takes (R60): all, or half of them, or a quarter,
and so on to one, the most whose bound fits the slack; none where not even one fits. DESIGN CHOICE: the rule leaves the size of a quantum
open (log entry 140). -/
def State.fitUnits (s : State) (c cls : Nat) (tiles : BitVec 48) (ticks : Nat → Nat) : Nat → Nat → Option Nat
  | 0, _ => none
  | fuel + 1, n =>
    if s.slack c cls tiles (ticks n) then some n
    else if n ≤ 1 then none
    else s.fitUnits c cls tiles ticks fuel (n / 2)

/-- Whether a tick lies in the reserved span of another slot of the layer on shared tiles, where no slot begins its work (R53). -/
def State.spanTaken (s : State) (slot : Nat) (tiles : BitVec 48) : Bool :=
  let now := phTick s.phase
  s.slotsNow.any fun e => e.1 != slot && (e.2.tiles &&& tiles) != 0 && decide (e.2.start ≤ now) && decide (now < e.2.start + e.2.span)

/-- Whether the slot of a request admitted at a Phase has begun, and its work may go on: in the current layer, or in an earlier one where
no slot of this layer has the tiles (R53, R62). -/
def State.mayWork (s : State) (slot : Nat) (p : Phase) : Bool :=
  let e? := s.slots.find? fun e => e.1 == slot
  (s.runAt slot p).started && !(e?.elim false fun e => s.spanTaken (if s.inLayer p then slot else 4096) e.2.tiles)

end Sys2Proof.Machine
end

