-- ==== Sys2Proof/Machine/Scope.lean ====
section
/-! DEFINITION. Fault scopes (R416, R417), shared by every block that finds a fault, and the memory errors of R212. -/

namespace Sys2Proof.Machine

/-- The composition whose slices hold an HBM address. -/
def State.compAt (s : State) (a : Nat) : Option Nat :=
  (s.cmp.comps.find? fun k => k.2.st != .free && bitAt k.2.desc.slices.toNat (sliceOf a)).map (·.1)

/-- Messages that the outbound management ring holds (R276). -/
def mgmtMost : Nat := 65536

/-- The management logic places a message for a node in its outbound ring, from which it leaves on VL6, or where the ring is full in the spill list
(R274, R276). -/
def State.mgmtSend (s : State) (dest : Nat) (b : List Byte) : State :=
  if s.lnk.mgmtOut.length < mgmtMost then { s with lnk := { s.lnk with mgmtOut := s.lnk.mgmtOut ++ [(dest, b)] } }
  else { s with lnk := { s.lnk with mgmtSpill := s.lnk.mgmtSpill ++ [(dest, b)] } }

/-- Messages leave the outbound ring, and those of the spill list that find room enter it (R276). -/
def State.mgmtLeaves (s : State) (out : List (Nat × List Byte)) : State :=
  let n := mgmtMost - out.length
  { s with lnk := { s.lnk with mgmtOut := out ++ s.lnk.mgmtSpill.take n, mgmtSpill := s.lnk.mgmtSpill.drop n } }

/-- The 32 bytes of a fault notice (R417). -/
def noticeBytes (n : Notice) : List Byte :=
  padTo 32 (leBytes 8 n.phase.toNat ++ leBytes 2 (n.node % 2 ^ 14) ++ leBytes 2 (n.subj % 2 ^ 14) ++ leBytes 1 n.scope
    ++ leBytes 1 (n.comp.elim 0 fun c => c % 16 + 128) ++ [0, 0] ++ leBytes 4 n.ring ++ leBytes 1 n.rank)

/-- Send a fault notice to the Phase Master, on VL6 where that is another node (R417). -/
def State.sendNotice (s : State) (n : Notice) : State :=
  let s := s.emit (.notice n)
  match s.phs.masterId with
  | some m => if m = s.nodeId then s else s.mgmtSend m (noticeBytes n)
  | none => s

/-- Raise a fault scope: the event of R442 and the notice to the Phase Master (R417). -/
def State.raiseScope (s : State) (scope subj : Nat) (comp : Option Nat) : State :=
  let cfg := comp.bind s.ringCfg
  let ring := cfg.elim 0 (·.ring)
  let rank := cfg.elim 0 (·.rank)
  let s := s.event { cls := 7, code := 1, subj, comp, job := comp.elim 0 s.jobOf, detail := leBytes 1 scope ++ leBytes 1 rank }
  s.sendNotice { phase := s.phase, node := s.nodeId, subj, scope, comp, ring, rank }

/-- Whether an address lies in an area. -/
def within (a base size : Nat) : Bool := decide (base ≤ a) && decide (a < base + size)

/-- The structure that an address lies in, as against a frame or grain, by its first byte (R416): a context root with its stream
table, a silt line, a table, or a corpus root. -/
def State.structAt (s : State) (a : Nat) : Option Nat :=
  let ofCtx (c : Ctx) : Option Nat :=
    if within a c.root (64 + 32 * c.streams.length) then some c.root
    else (c.streams.map (·.2)).findSome? fun x =>
      if within a x.siltAt 32768 then some x.siltAt
      else ((x.l1 :: x.l2.map (·.2)) ++ x.l3.map (·.2.next)).find? fun b => within a b 8192
  match s.pg.ctxs.findSome? ofCtx with
  | some b => some b
  | none => (s.rq.corpora.find? fun c => within a c.root (64 + 32 * c.segs.length)).map (·.root)

/-- STRIDE of R158. -/
def strideOf (dim vfmt : Nat) : Nat := up64 (8 + dim * (fmtOf vfmt).bits / 8)

/-- Sketch width in bits of an SKB code (R157). -/
def sketchBits (skb : Nat) : Nat := 256 * 2 ^ skb

/-- The bytes of a sketch array in each channel of its ways: blocks of 32 KiB, in turn (R159). -/
def wayBytes (skb cap ways : Nat) : Nat :=
  ((cap * (sketchBits skb / 8) + 32767) / 32768 + max 1 ways - 1) / max 1 ways * 32768

/-- The corpus and segment whose record area an address lies in (R157, R158). -/
def State.recordArea (s : State) (a : Nat) : Option (Corpus × Nat) :=
  s.rq.corpora.findSome? fun c => (c.segs.zipIdx.find? fun g => within a g.1.reca (g.1.cap * strideOf c.dim c.vfmt)).map fun g => (c, g.2)

/-- The catalogue entry of a group of a layer of a model. -/
def State.cat (s : State) (model layer group : Nat) : Cat :=
  let b := s.load (Config.catalogAt model layer group) 16
  let a := field b 0 8
  { tier := bitsOf a 0 2, npa := bitsOf a 4 48 * 16, len := field b 8 4, valid := bitAt (field b 12 4) 0 }

/-- The composition whose weight group in topsoil holds an address (R257). -/
def State.weightAt (s : State) (a : Nat) : Option Nat :=
  s.sec.models.findSome? fun m =>
    if (List.range s.layers).any fun l => (List.range 65536).any fun g =>
        let e := s.cat m.1 l g
        e.valid && e.tier == 0 && within a e.npa e.len then some m.2.2.1
    else none

/-- DATA_LOST (R407, R442): data that the ring does not give back, of a composition and job, with the number of pages in it. -/
def State.dataLost (s : State) (c job n : Nat) : State :=
  let g := s.ringCfg c
  s.event { cls := 7, code := 5, subj := g.elim 0 (·.ring), comp := some c, job,
            detail := leBytes 1 (g.elim 0 (·.rank)) ++ [0, 0, 0] ++ leBytes 8 n }

/-- The streams in progress that need lost data end with INTEGRITY (R241, R407). -/
def State.streamsLost (s : State) (p : Cat → Bool) : State :=
  { s with tier := { s.tier with wstr := s.tier.wstr.map fun w => if w.cats.any p then { w with status := .integrity } else w } }

/-- Data of a record area is lost (R407): the ring does not protect it, every search under way in its segment ends with INTEGRITY,
and a DATA_LOST event names it; log entry 121. -/
def State.recordLost (s : State) (c : Corpus) (seg : Nat) : State :=
  let hit (x : Search) : Bool :=
    x.running && x.snap.elim false (fun k => k.root == c.root) && decide (x.req.slo ≤ seg) && decide (seg < x.req.shi)
  let s := (s.rq.searches.filter hit).foldl (fun s x => s.endSearch .integrity x) s
  s.dataLost c.comp c.job 0

/-- The frames that an address lies in. -/
def State.framesAt (s : State) (a : Nat) : List Nat :=
  (s.pg.frames.filter fun f => within a f.2.npa ((f.2.raw + 511) / 512 * 512)).map (·.1)

/-- Whether the sketch array of a topsoil segment holds an address (R159): in a channel of its ways. -/
def Seg.holds (g : Seg) (skb a : Nat) : Bool :=
  g.tier == 0 && isHbm a && g.chans.any fun c => within a (c * 2 ^ 31 + g.ska % 2 ^ 31) (wayBytes skb g.cap g.ways)

/-- Searches under way whose sketches lie at an address end as under a HOLD (R172). -/
def State.scansLost (s : State) (a : Nat) : State :=
  (s.rq.searches.filter fun x => x.running && x.snap.elim false fun c =>
    ((c.segs.drop x.req.slo).take (x.req.shi - x.req.slo)).any fun g => g.holds c.skb a).foldl (fun s x => s.endSearch .replay x) s

/-- Sections that attend the frame at an address end only in the HOLD that the fault brings: nothing of the sector is passed on (R133,
R195). -/
def State.frameLost (s : State) (a : Nat) : State :=
  let keys := s.framesAt a
  let hit (x : Sec) : Bool := x.running && x.snap.elim false fun p =>
    (p.keys.any fun k => keys.contains k) || p.grains.any fun g => within a g 32768
  { s with rq := { s.rq with reqs := s.rq.reqs.map fun (r : Req) =>
      { r with secs := r.secs.map fun (x : Sec) => if hit x then { x with lost := true } else x } } }

/-- An uncorrectable error on a transfer of a port (R212): counted and logged. A tile or an NMU raises the fault scope, and a damaged
structure is noted against the replay of the step (R369); a record area of a corpus or a weight
group is not protected, whatever the port (R407). -/
def State.eccBad (s : State) (port a : Nat) : State :=
  let s := s.count 0x3020 2
  let s := if s.hbm.eccValid then s else
    { s with hbm := { s.hbm with eccValid := true, eccPort := port, eccNpa := a / 64 * 64 } }
  let tile := decide (port < 48) || port == 50
  match s.structAt a, s.recordArea a, s.weightAt a with
  | some b, _, _ =>
    if tile then
      let s := s.raiseScope 2 s.nodeId (s.compAt a)
      { s with rel := { s.rel with hurt := (b, s.phs.holds) :: s.rel.hurt } }
    else s
  | none, some (c, seg), _ => s.recordLost c seg
  | none, none, some c => (s.streamsLost fun e => e.tier == 0 && within a e.npa e.len).dataLost c (s.jobOf c) 0
  | none, none, none => if tile then ((s.raiseScope 1 s.nodeId (s.compAt a)).frameLost a).scansLost a else s

/-- A corrected error (R212): counted, for the node and for the stack's hour, and the address queued for its rewrite (R404,
R405). -/
def State.eccFixed (s : State) (a : Nat) : State :=
  let s := s.count 0x3020 1
  { s with rel := { s.rel with queued := s.rel.queued ++ [a / 64 * 64], hour := bump s.rel.hour (pcOf a / 64) 1 } }

/-- Data delivered poisoned is undefined (R473): free values, one a byte. -/
def State.poison (s : State) (n : Nat) : List Byte × State :=
  ((List.range n).map fun i => Config.poisonByte (s.free + i), { s with free := s.free + n })

end Sys2Proof.Machine
end

