-- ==== Sys2Proof/Machine/Parity.lean ====
section
/-! DEFINITION. The parity ring as a member sends it (R408 to R415): contributions, removals, mirror copies, and where a
ring window's regions lie (R425). -/

namespace Sys2Proof.Machine

/-- First byte of the rebuild region of a ring window (R425). -/
def rebuildBase : Nat := 131072
/-- First byte of the parity frames of a ring window (R411, R425). -/
def parityBase : Nat := 655360

/-- Whether an offset is that of a rebuild slot (R424). -/
def rebuildOffset (off : Nat) : Bool := decide (rebuildBase ≤ off) && decide (off < parityBase) && (off - rebuildBase) % 8192 == 0

/-- Offset of parity frame `k` in a ring window (R411). -/
def RingCfg.frameAt (g : RingCfg) (k : Nat) : Nat := parityBase + k * (128 + g.plen)

/-- Bytes of a composition's topsoil: 32 pseudo-channels of 1 GiB a slice (R199, R350). -/
def State.compBytes (s : State) (c : Nat) : Nat := (s.slicesOf c).length * 2 ^ 35

/-- Frames of the parity area of a composition (R415): the entry, or its default where it holds 0. -/
def State.parityArea (s : State) (c : Nat) : Nat :=
  let v := s.pdNum 0x3401 c
  if v ≠ 0 then v else
    match s.ringCfg c with
    | some g => s.compBytes c / 9 / (128 + g.plen)
    | none => 0

/-- The position of a rank's record among the eight of a frame at a holder (R411). -/
def recordPos (rank holder : Nat) : Nat := if rank < holder then rank else rank - 1

/-- The 16-byte record of a contribution (R411). -/
def recordBytes (ctx stream piece kind page gen rlen : Nat) : List Byte :=
  leBytes 4 ctx ++ leBytes 4 (fieldAt stream 20 0 + fieldAt piece 4 24 + fieldAt kind 2 28 + 2 ^ 31) ++ leBytes 4 page
    ++ leBytes 2 (gen % 4096) ++ leBytes 2 rlen

/-- The segment of a contribution and its offset within the frame (R412): from the contributor's record to the end of the
data. XOR needs a 64 B boundary (R298), so zeros precede the record back to one (log entry 24). -/
def contribSeg (rank holder : Nat) (rec_ piece : List Byte) : Nat × List Byte :=
  let p := 16 * recordPos rank holder
  let lead := p % 64
  (p - lead, List.replicate lead 0 ++ rec_ ++ List.replicate (112 - p) 0 ++ piece)

/-- The holders after a rank in rank order, skipping the member's own, from a starting rank (R410). -/
def holdersFrom (own start n : Nat) : List Nat :=
  let others := (List.range 9).filter (· != own)
  let order := (others.filter fun r => decide (start ≤ r)) ++ others.filter fun r => decide (r < start)
  (List.range n).map fun i => order.getD (i % 8) 0

/-- The queue of a composition that reaches a node under its job: the lowest that is enabled and bound there, as a reply path
is chosen (R128; log entry 23). -/
def State.peerQueue (s : State) (c node : Nat) : Option Nat := s.replyPath c (s.jobOf c) node

/-- Send one segment into a frame at a holder. -/
def State.sendContrib (s : State) (c : Nat) (g : RingCfg) (x : Contrib) (prod : Producer) : State :=
  match s.peerQueue c (g.ranks.getD x.holder (0, 0)).1 with
  | none => s
  | some q =>
    s.enqueue q (mkXor g.win (Config.ringGen g.ring x.holder) s.rmo.epoch (g.frameAt x.frame + x.off) x.seg prod s.nextStep)

/-- The lowest frame index at which a member's position is free at every holder used (R410). -/
def State.freeFrame (s : State) (c : Nat) (holders : List Nat) : Nat → Nat → Option Nat
  | 0, _ => none
  | n + 1, k =>
    if s.rel.pframes.any (fun x => x.comp == c && x.frame == k && holders.contains x.holder) then s.freeFrame c holders n (k + 1)
    else some k

/-- Contribute a frame (R410 to R415), if that can be: the first holder and the frame index; none where the composition is in no ring,
a holder cannot be reached, or no index is free. -/
def State.tryContribute (s : State) (c job ctx stream page key gen : Nat) (kind : Nat) (bytes : List Byte) : Option PMap × State :=
  match s.ringCfg c, s.comp? c with
  | some g, some k =>
    let n := (bytes.length + g.plen - 1) / max 1 g.plen
    let holders := holdersFrom g.rank k.nextHolder n
    let reach := holders.all fun h => (s.peerQueue c (g.ranks.getD h (0, 0)).1).isSome
    match (if reach then s.freeFrame c holders (min (s.parityArea c) (s.rel.pframes.length + 1)) 0 else none) with
    | none => (none, s)
    | some idx =>
      let pieces := (List.range n).map fun i =>
        let h := holders.getD i 0
        let rec_ := recordBytes ctx stream i kind page gen (bytes.length / 64)
        let (off, seg) := contribSeg g.rank h rec_ (padTo g.plen (bytes.drop (g.plen * i)))
        ({ comp := c, key, holder := h, frame := idx, off, seg } : Contrib)
      let s := { s with rel := { s.rel with pframes := s.rel.pframes ++ pieces } }
      let s := s.setComp c fun k => { k with nextHolder := ((holders.getLast?).getD 0 + 1) % 9 }
      let s := pieces.foldl (fun s x => s.sendContrib c g x (.parity job ctx stream page key true)) s
      (some { holder := holders.headD 0, valid := false, frame := idx }, s)
  | _, _ => (none, s)

/-- A page of a ring's member that finds no place in the ring is unprotected: counted at PD 0x3402.CC, with an event that gives the
count (R415, R442). -/
def State.unprotected (s : State) (c job : Nat) : State :=
  match s.ringCfg c with
  | none => s
  | some g =>
    let s := s.count 0x3402 c
    s.event { cls := 7, code := 6, subj := g.ring, comp := some c, job, detail := [0, 0, 0, 0] ++ leBytes 8 (s.pd.count 0x3402 c) }

/-- Contribute a frame, or note that it is unprotected (R415). -/
def State.contribute (s : State) (c job ctx stream page key gen : Nat) (kind : Nat) (bytes : List Byte) : Option PMap × State :=
  let (pm, s) := s.tryContribute c job ctx stream page key gen kind bytes
  (pm, if pm.isSome then s else s.unprotected c job)

/-- Remove a frame's contribution: the same segments sent again (R412, R413). -/
def State.uncontribute (s : State) (key : Nat) : State :=
  let mine := s.rel.pframes.filter fun x => x.key == key
  let s := { s with rel := { s.rel with pframes := s.rel.pframes.filter fun x => x.key != key } }
  mine.foldl (fun s x =>
    match s.ringCfg x.comp with
    | some g => s.sendContrib x.comp g x (.parity 0 0 0 0 key false)
    | none => s) s

/-- Whether a message of a producer waits or is outstanding anywhere. -/
def State.inFlight (s : State) (p : Producer → Bool) : Bool :=
  s.egq.qs.any (fun q => q.2.waiting.any fun m => p m.prod) || s.egq.held.any (fun h => p h.2.prod) || s.rmo.send.any fun e => e.2.outst.any fun o => p o.msg.prod

/-- The 32 bytes of a ring command (R425). -/
def ringCmdBytes (op rank node frame off : Nat) (rec_ : List Byte) : List Byte :=
  leBytes 1 op ++ leBytes 1 rank ++ leBytes 2 (node % 2 ^ 14) ++ leBytes 4 frame ++ leBytes 8 off ++ padTo 16 rec_

/-- The slots of a rank's region that commands on a queue not yet answered take (R425). -/
def State.ringUsed (s : State) (c q : Nat) : List Nat :=
  (((s.queue q).waiting ++ (s.egq.held.filter fun h => h.1 == q).map (·.2) ++ (s.sendEnt q).outst.map (·.msg)).filter fun m =>
    m.prod == .ring c && m.opc == 2).map fun m => m.addr / 32 % 256

/-- Where the next command to a rank goes (R425): its queue and the lowest free slot. Log entry 184. -/
def State.ringSlot (s : State) (c : Nat) (g : RingCfg) (rank : Nat) : Option (Nat × Nat) :=
  (s.peerQueue c (g.ranks.getD rank (0, 0)).1).bind fun q =>
    let used := s.ringUsed c q
    ((List.range 256).find? fun j => !used.contains j).map fun j => (q, j)

/-- Write a ring command into a slot of this rank's region of the target's window (R425): a single WRITE with FLAG. -/
def State.ringWrite (s : State) (c : Nat) (g : RingCfg) (rank q slot : Nat) (b : List Byte) : State :=
  s.enqueue q (mkWrite 1 g.win (Config.ringGen g.ring rank) s.rmo.epoch 0 (32 * (256 * g.rank + slot)) b true (.ring c) false s.nextStep)

/-- Send a ring command to a rank (R425). With every slot in use it waits for an answer, behind those that wait already. -/
def State.ringSend (s : State) (c : Nat) (g : RingCfg) (rank : Nat) (b : List Byte) : State :=
  if (s.peerQueue c (g.ranks.getD rank (0, 0)).1).isNone then s
  else match (if s.rel.ringWait.any fun w => w.1 == c && w.2.1 == rank then none else s.ringSlot c g rank) with
    | some (q, slot) => s.ringWrite c g rank q slot b
    | none => { s with rel := { s.rel with ringWait := s.rel.ringWait ++ [(c, rank, b)] } }

/-- A ring command has been answered (R425): the first of those that wait whose target has a free slot leaves. -/
def State.ringNext (s : State) (c : Nat) : State :=
  match s.ringCfg c with
  | none => s
  | some g =>
    match s.rel.ringWait.find? fun w => w.1 == c && (s.ringSlot c g w.2.1).isSome with
    | none => s
    | some w =>
      let s := { s with rel := { s.rel with ringWait := s.rel.ringWait.erase w } }
      match s.ringSlot c g w.2.1 with
      | some (q, slot) => s.ringWrite c g w.2.1 q slot w.2.2
      | none => s

/-- The partner that holds a composition's mirrors, and the queue to it (R409): none outside a ring. -/
def State.partner (s : State) (c : Nat) : Option (RingCfg × Nat × Nat) :=
  match s.ringCfg c with
  | none => none
  | some g =>
    let r := (g.rank + 1) % 9
    (s.peerQueue c (g.ranks.getD r (0, 0)).1).map fun q => (g, r, q)

/-- Whether the silt of a composition is mirrored (R90, R91): PD 0x3205.00, for a member of a ring, whether its partner can be reached now or
not. -/
def State.mirrors (s : State) (c : Nat) : Bool := s.pdBool 0x3205 0 && (s.ringCfg c).isSome

/-- Send a mirror copy to the partner (R90, R409), cut into messages of at most 2 MiB; how many were sent. -/
def State.sendMirror (s : State) (c : Nat) (bytes : List Byte) (prod : Producer) (contract : Bool) (due : Phase) : Nat × State :=
  match s.partner c with
  | none => (0, s)
  | some (g, r, q) =>
    let parts := chunks 2097152 bytes
    (parts.length, parts.foldl (fun s b =>
      let (n, s) := s.draw
      s.enqueue q (mkWrite 1 g.win (Config.ringGen g.ring r) s.rmo.epoch 0 (Config.mirrorAt n) b false prod contract due)) s)

end Sys2Proof.Machine
end

