-- ==== Sys2Proof/Machine/Hbm.lean ====
section
/-! DEFINITION. HBM, its arbiters and refresh, the near-memory units, the page cache's masks and the associative directory
(08): shared operations, and the meanings of their commands. -/

namespace Sys2Proof.Machine

/-- An arbiter at rest. -/
def Arb.idle : Arb :=
  { raised := [], grant := none, bank := 0, postponed := [], refreshing := [], compute := [], held := [], rows := [], opened := [],
    lastWr := false, lastAt := 0 }

/-- The arbiter of a pseudo-channel. -/
def State.arb (s : State) (g : Nat) : Arb := lookD s.hbm.arbs g Arb.idle

/-- Put an arbiter back. -/
def State.setArb (s : State) (g : Nat) (a : Arb) : State := { s with hbm := { s.hbm with arbs := put s.hbm.arbs g a } }

/-- Bank of an HBM address (R199). -/
def bankOf (a : Nat) : Nat := bitsOf a 10 5

/-- The banks that a stretch of HBM touches, each with its pseudo-channel: rows of 1 KiB go to following banks (R199). -/
def banksOf (npa len : Nat) : List (Nat × Nat) :=
  ((List.range (min 32 ((npa % 1024 + len + 1023) / 1024))).map fun i => let a := npa + 1024 * i; (pcOf a, bankOf a)).dedup

/-- The aging horizon of a port (R202). -/
def State.horizon (s : State) (port : Nat) : Nat := if port = 51 then min (s.pdNum 0x3001 0) s.period else s.period

/-- The key E of a raised request (R202). -/
def State.arbKey (s : State) (q : ArbReq) : Nat := s.rankKey q.r (q.d.getD s.nextStep) (s.horizon q.port)

/-- Whether a bank is refreshing at the present time (R207). -/
def Arb.isRefreshing (a : Arb) (now b : Nat) : Bool := lookD a.refreshing b 0 > now

/-- The bytes that a request moves. -/
def arbBytes (q : ArbReq) : Nat := q.wr.elim q.len (·.length)

/-- Whether a request touches a bank: that of its first byte, or, of a write across two rows, that of its last. -/
def touchesBank (q : ArbReq) (b : Nat) : Bool := bankOf q.npa == b || bankOf (q.npa + arbBytes q - 1) == b

/-- A bank is free for a refresh when it is not refreshing and not in compute state (R205, R208). -/
def Arb.quiet (a : Arb) (now b : Nat) : Bool := !a.isRefreshing now b && !a.compute.contains b

/-- Row of an HBM address (R199). -/
def rowOf (a : Nat) : Nat := bitsOf a 15 15

/-- Whether the bank of a request is inside a row-cycle interval: the request would open another row within 45.3 ns, 34 arbiter cycles, of
the last opening (R203, R206; log entry 142). -/
def Arb.rowBusy (a : Arb) (now : Nat) (q : ArbReq) : Bool :=
  match look a.rows (bankOf q.npa) with
  | none => false
  | some r => r != rowOf q.npa && decide (3 * now < 3 * lookD a.opened (bankOf q.npa) 0 + 34 * 16)

/-- Whether the bus is inside a turnaround interval for a request: it would move data the other way too soon (R203; log entry 142). -/
def Arb.turning (a : Arb) (now : Nat) (q : ArbReq) : Bool :=
  q.wr.isSome != a.lastWr && decide (now < a.lastAt + Config.busTurn)

/-- A request is eligible when its bank is not refreshing, not in compute state and not inside a row-cycle or turnaround interval
(R203). -/
def Arb.eligible (a : Arb) (now : Nat) (q : ArbReq) : Bool :=
  a.quiet now (bankOf q.npa) && a.quiet now (bankOf (q.npa + arbBytes q - 1)) && !a.rowBusy now q && !a.turning now q

/-- The row and direction that a transfer leaves behind (R203). -/
def Arb.moved (a : Arb) (now : Nat) (q : ArbReq) : Arb :=
  let b := bankOf q.npa
  let same := look a.rows b == some (rowOf q.npa)
  { a with rows := put a.rows b (rowOf q.npa), opened := if same then a.opened else put a.opened b now, lastWr := q.wr.isSome, lastAt := now }

/-- The request that ranks first: the smallest key, ties to the port first in the fixed order (R201, R203). -/
def State.firstOf (s : State) : List ArbReq → Option ArbReq
  | [] => none
  | q :: qs =>
    match s.firstOf qs with
    | none => some q
    | some b =>
      let kq := s.arbKey q
      let kb := s.arbKey b
      some (if kq % 2 ^ 48 = kb % 2 ^ 48 then (if q.port ≤ b.port then q else b) else if keyLe kq kb then q else b)

/-- Whether a request is one that an arbiter takes: of its own pseudo-channel, up to 64 B (R201), a read within one aligned transfer, and
from an NMU only in a W-stack. A write may cross a 64 B boundary: it is one read-modify-write (R200). -/
def arbFits (q : ArbReq) (g : Nat) : Bool :=
  pcOf q.npa == g && pcOf (q.npa + arbBytes q - 1) == g && decide ((if q.wr.isSome then 0 else q.npa % 64) + arbBytes q ≤ 64) &&
    (q.port != 50 || g / 64 % 3 == 0)

/-- Raise requests at the start of a cycle: a port holds at most one, and a request without a deadline carries the step boundary that is
next then (R201, R202, R204). A request to a bank in compute state is held, which is counted (R216). A reserved NPA is refused with
UNSUPPORTED and has no effect (R200). -/
def State.raise (s : State) (g : Nat) (qs : List ArbReq) : State :=
  qs.foldl (fun s q =>
    let a := s.arb g
    if !isHbm q.npa then s.emit (.refusedAccess q.port q.npa .unsupported)
    else if a.raised.any (fun r => r.port == q.port) || !arbFits q g then s
    else
      let q := { q with d := some (q.d.getD s.nextStep) }
      let held := a.compute.any (touchesBank q)
      let s := if held then s.count 0x3010 3 else s
      s.setArb g { a with raised := a.raised ++ [q], held := if held then q.port :: a.held else a.held }) s

/-- A read by a tile fills its quadrant's cache in a way of its composition (R218, R219); without a way it fills nothing. The
way that pseudo-LRU picks is a free value. -/
def State.fillLine (s : State) (port a : Nat) : State :=
  match s.compAt a with
  | none => s
  | some c =>
    let q := port / 12
    let ways := (List.range 16).filter fun w => bitAt (lookD s.hbm.ways (16 * q + c) 0).toNat w
    if ways = [] || s.hbm.lines.any (fun l => l.1 == q && l.2.1 == c && l.2.2.2 == a / 256) then s
    else
      let w := ways.getD (Config.victimWay s.free % ways.length) 0
      let rest := s.hbm.lines.filter fun l => !(l.1 == q && l.2.2.1 == w && l.2.2.2 % 12288 == a / 256 % 12288)
      { s with free := s.free + 1, hbm := { s.hbm with lines := (q, c, w, a / 256) :: rest } }

/-- Whether a request is a write that is not one aligned transfer: a read-modify-write of two slots (R200). -/
def isRmw (q : ArbReq) : Bool := q.wr.elim false fun b => b.length != 64 || q.npa % 64 != 0

/-- Carry out a granted transfer and act on its ECC check (R200, R211, R212, R220). A read-modify-write acts on the check of its read; its
bytes are written all the same (log entry 143). -/
def State.transfer (s : State) (q : ArbReq) (ecc : Ecc) : State :=
  match q.wr with
  | some bs =>
    let s := s.store q.npa bs
    if !isRmw q then s
    else match ecc with
      | .clean => s
      | .corrected => s.eccFixed q.npa
      | .uncorrectable => s.eccBad q.port q.npa
  | none =>
    match ecc with
    | .clean => if q.port < 48 then s.fillLine q.port q.npa else s
    | .corrected => (if q.port < 48 then s.fillLine q.port q.npa else s).eccFixed q.npa
    | .uncorrectable => s.eccBad q.port q.npa

/-- A port withdraws its raised request; a tile does so when the page cache serves the line, which is a hit (R204). -/
def State.withdraw (s : State) (g : Nat) (ports : List Nat) : State :=
  ports.foldl (fun s p =>
    let a := s.arb g
    match a.raised.find? (fun r => r.port == p) with
    | none => s
    | some r =>
      let s := s.setArb g { a with raised := a.raised.filter fun x => x.port != p, held := a.held.filter (· != p) }
      match s.compAt r.npa with
      | some c =>
        if p < 48 ∧ s.hbm.lines.any (fun l => l.1 == p / 12 && l.2.1 == c && l.2.2.2 == r.npa / 256) then s.countC c 0x3051 c 1
        else s
      | none => s) s

/-- Issue one postponed refresh on a bank that the arbiter leaves free (R205, R208). DESIGN CHOICE (log entry 171): of several such banks the
lowest, one in a cycle. -/
def Arb.freeRefresh (a : Arb) (now : Nat) : Arb :=
  match (List.range 32).find? fun b =>
    lookD a.postponed b 0 > 0 && a.quiet now b && !(a.raised.any fun r => touchesBank r b) with
  | some b => { a with postponed := put a.postponed b (lookD a.postponed b 0 - 1), refreshing := put a.refreshing b (now + 480) }
  | none => a

/-- RS: 30 ticks at the standard rate and 15 at the doubled rate (R207). -/
def State.refreshStep (s : State) : Nat := if s.hbm.refRate then 15 else 30

/-- The step barrier: the last layer of the step is past its nominal end (R207). -/
def State.inBarrier (s : State) : Bool := decide (phLayer s.phase + 1 = s.layers) && decide (s.period ≤ phTick s.phase)

/-- T(now) of the refresh sequencer. Before synchronisation, during HOLD and during the step barrier the local timer advances it at one
tick per 4 ns, from where it stood (R207). -/
def State.refreshTick (s : State) : Nat :=
  if !s.phs.sync || s.phs.held then s.hbm.tBase + (s.timer - s.hbm.tFrom) / 16
  else if s.inBarrier then
    let past : Rat := ((s.timer : Int) - s.phs.prevTc : Int) / 16 - (s.period : Rat) / s.phs.rate
    s.tickOf (mkPhase (phStep s.phs.base) (phLayer s.phs.base) 0) + s.period + past.floor.toNat
  else s.tickOf s.phase

/-- Phase is about to stop: T goes on from here by the local timer (R207). -/
def State.keepTick (s : State) : State := { s with hbm := { s.hbm with tBase := s.refreshTick, tFrom := s.timer } }

/-- REFRESH_SLOT (R205, R207, R208): when (T + g) mod RS = 0, a refresh of the bank whose turn it is. A busy bank postpones
it; the fourth postponed refresh is urgent unless compute state alone holds the bank, and takes the decided grant, whose
request stays raised. -/
def execRefreshSlot (t g : Nat) (s : State) : Res :=
  let s := s.arrive t
  if (s.refreshTick + g) % s.refreshStep ≠ 0 then .next s
  else
    let a := s.arb g
    let b := a.bank
    let a := { a with bank := (b + 1) % 32 }
    let inCompute := a.compute.contains b
    let inFlight := a.grant.elim false fun q => touchesBank q b
    if !inCompute && !inFlight && !a.isRefreshing s.timer b then
      .next (s.setArb g { a with refreshing := put a.refreshing b (s.timer + 480) })
    else
      let p := lookD a.postponed b 0
      if p + 1 < 4 || inCompute then .next (s.setArb g { a with postponed := put a.postponed b (min 4 (p + 1)) })
      else
        let s := (s.count 0x3030 1)
        let s := if a.grant.isSome then s.count 0x3010 2 else s
        .next (s.setArb g { a with grant := none, postponed := put a.postponed b p,
                                   refreshing := put a.refreshing b (s.timer + 480) })

/-! ### Near-memory units (R213 to R217) -/

/-- The governor of a W-stack as reset leaves it (R214). -/
def Gov.atReset : Gov := { maxnmu := 8, maxbank := 64, lock := false, deny := false, abort := false }

/-- A governor. -/
def State.gov (s : State) (w : Nat) : Gov := lookD s.hbm.govs w Gov.atReset

/-- Put a governor back. -/
def State.setGov (s : State) (w : Nat) (g : Gov) : State := { s with hbm := { s.hbm with govs := put s.hbm.govs w g } }

/-- An NMU at rest. -/
def Nmu.idle : Nmu := { st := .idle, op := .grainScan 0 0 0, banks := [], writes := [], recs := [], till := 0 }

/-- The NMU of channel `ch` of W-stack `w`: RELEASE and ABORT end of themselves, and IDLE follows (R215). -/
def State.nmu (s : State) (w ch : Nat) : Nmu :=
  let n := lookD s.hbm.nmus (32 * w + ch) Nmu.idle
  if (n.st = .release ∨ n.st = .abort) ∧ n.till ≤ s.timer then Nmu.idle else n

/-- Put an NMU back. -/
def State.setNmu (s : State) (w ch : Nat) (n : Nmu) : State := { s with hbm := { s.hbm with nmus := put s.hbm.nmus (32 * w + ch) n } }

/-- Whether an NMU has been granted compute and has not released it: from CLAIM to the end of DRAIN (R214). -/
def Nmu.granted (n : Nmu) : Bool := n.st == .claim || n.st == .compute || n.st == .drain

/-- Whether an NMU's banks are in compute state: from the end of CLAIM to the end of DRAIN (R215, R217; log entry 144). -/
def Nmu.holds (n : Nmu) : Bool := n.st == .compute || n.st == .drain

/-- NMUs of a W-stack that meet a test, and the banks they hold. -/
def State.nmuSum (s : State) (w : Nat) (p : Nmu → Bool) : Nat × Nat :=
  (s.hbm.nmus.filter fun n => n.1 / 32 == w && p n.2).foldl (fun x n => (x.1 + 1, x.2 + n.2.banks.length)) (0, 0)

/-- What counts against the governor's limits (R214). -/
def State.nmuLoad (s : State) (w : Nat) : Nat × Nat := s.nmuSum w Nmu.granted

/-- The channels of a W-stack whose NMUs are granted to a search for the span of its slot (R169). -/
def State.scanGrants (s : State) (w : Nat) : List Nat :=
  (((s.rq.searches.filter (·.running)).map (·.grants)).flatten.filter fun c => c / 32 == 3 * w).map (· % 32)

/-- How many NMUs of a W-stack such grants hold besides those at work, and besides the one of channel `ch` (R169, R214). -/
def State.scanHeld (s : State) (w ch : Nat) : Nat :=
  ((s.scanGrants w).dedup.filter fun c => c != ch && !(s.nmu w c).granted).length

/-- NMU_STAT_s.ACTIVE and BANKS: NMUs computing now, and banks in compute state now (R217). -/
def State.nmuActive (s : State) (w : Nat) : Nat × Nat := s.nmuSum w Nmu.holds

/-- The pseudo-channel of a bank of a W-stack's channel: banks 0 to 31 in the first, 32 to 63 in the second (R199, R213). -/
def nmuPc (w ch b : Nat) : Nat := 192 * w + 2 * ch + b / 32

/-- Whether an HBM address lies in the channel of an NMU (R213). -/
def inChannel (w ch a : Nat) : Bool := isHbm a && pcOf a / 2 == 96 * w + ch

/-- Hold the requests that wait for a bank as it enters compute state (R216): each is counted. -/
def State.holdRaised (s : State) (g b : Nat) : State :=
  let a := s.arb g
  let new := (a.raised.filter fun r => touchesBank r b && !a.held.contains r.port).map (·.port)
  new.foldl (fun s _ => s.count 0x3010 3) (s.setArb g { a with held := new ++ a.held })

/-- Put banks into compute state, or take them out of it. -/
def State.compute (s : State) (w ch : Nat) (banks : List Nat) (on : Bool) : State :=
  banks.foldl (fun s b =>
    let g := nmuPc w ch b
    let s := if on then s.holdRaised g (b % 32) else s
    let a := s.arb g
    s.setArb g { a with compute := if on then (if a.compute.contains (b % 32) then a.compute else a.compute ++ [b % 32])
                                   else a.compute.filter (· != b % 32) }) s

/-- The 8 check bytes that the array holds beside a 64 B transfer (R210). Every path that writes array bits goes through the encoder (R211), so
they are the code's of the data that memory holds. -/
def State.checkBytes (s : State) (a : Nat) : List Byte := (List.range 8).map (Config.checkByte (s.load (a / 64 * 64) 64))

/-- The 72 bytes of the codeword at an address, in which errors have their places. -/
def State.codeword72 (s : State) (a : Nat) : List Byte := s.load (a / 64 * 64) 64 ++ s.checkBytes a

/-- The bytes of a served host read (R210, R212, R473): data that meets an uncorrectable error is undefined, and marked poisoned; where more is
in error than the code is sure to detect, what is delivered is free. -/
def State.hostRead (s : State) (fn npa len : Nat) (errs : List (List Nat)) : State :=
  let data (s : State) : List Byte × State := if eccLost errs then s.poison len else (s.load npa len, s)
  match worstEcc errs with
  | .clean =>
    let (b, s) := data s
    s.emit (.apertureRead fn npa (some b) false)
  | .corrected =>
    let (b, s) := data (s.eccFixed npa)
    s.emit (.apertureRead fn npa (some b) false)
  | .uncorrectable =>
    let s := (s.eccBad 51 npa).count 0x1101 3
    let (b, s) := s.poison len
    s.emit (.apertureRead fn npa (some b) true)

/-- Whether any row of an HBM range lies in a bank in compute state. -/
def State.inCompute (s : State) (a len : Nat) : Bool :=
  (List.range ((a + len - 1) / 1024 + 1 - a / 1024)).any fun i =>
    let x := 1024 * (a / 1024 + i)
    (s.arb (pcOf x)).compute.contains (bankOf x)

/-- Host accesses that no bank in compute state holds any more are served, in order (R216). -/
def State.serveHeld (s : State) : State :=
  s.hbm.hostHeld.foldl (fun s h =>
    if s.inCompute h.npa h.len then s
    else
      let s := { s with hbm := { s.hbm with hostHeld := s.hbm.hostHeld.erase h } }
      match h.wr with
      | some b => s.store h.npa b
      | none => s.hostRead h.fn h.npa h.len h.errs) s

/-- Banks leave compute state: the requests held on them take part again, and host reads are served. -/
def State.releaseBanks (s : State) (w ch : Nat) (n : Nmu) : State := (s.compute w ch n.banks false).serveHeld

/-- The time that an NMU spends in RELEASE, one arbiter cycle, rounded up, and at most in ABORT, in 0.25 ns (R215). -/
def releaseTime : Nat := 6

/-- The longest time of ABORT (R215). -/
def abortTime : Nat := 600

/-- An NMU operation ends in ABORT, whatever its state: buffered writes are discarded and banks released (R215). -/
def State.nmuDrop (s : State) (w ch : Nat) : State :=
  let n := s.nmu w ch
  if !n.granted then s
  else
    let s := (s.setNmu w ch { n with st := .abort, writes := [], recs := [], till := s.timer + abortTime }).releaseBanks w ch n
    (s.setGov w { s.gov w with abort := true }).count 0x3040 2

/-- A computing NMU operation ends in ABORT; one in CLAIM does so when it computes, and a DRAIN runs to its end (R215). -/
def State.nmuAbort (s : State) (w ch : Nat) : State := if (s.nmu w ch).st = .compute then s.nmuDrop w ch else s

/-- Every running NMU operation ends in ABORT (R228, R456). -/
def State.nmuAbortAll (s : State) : State :=
  s.hbm.nmus.foldl (fun s n => s.nmuAbort (n.1 / 32) (n.1 % 32)) s

/-- NMU_GOV_WRITE (R214): limits above the power limits store them; LOCK holds the fields until reset. -/
def State.writeGov (s : State) (w : Nat) (v : BitVec 32) : State :=
  let g := s.gov w
  if g.lock then s
  else s.setGov w { g with maxnmu := min 8 (bitsOf v.toNat 0 4), maxbank := min 64 (bitsOf v.toNat 8 7), lock := bitAt v.toNat 31 }

/-- NMU_GOV_WRITE: a write of NMU_GOV_s. -/
def execNmuGovWrite (t w : Nat) (v : BitVec 32) (s : State) : Res :=
  let s := s.arrive t
  .next (if s.ready then s.writeGov w v else s)

/-! ### Page-cache masks (R219, R220) -/

/-- The ways of a quadrant in a descriptor's WAYS (PD 0x3050). -/
def quadWays (ways : BitVec 64) (q : Nat) : BitVec 16 := BitVec.ofNat 16 (bitsOf ways.toNat (16 * q) 16)

/-- A way mask as last written: the pending one, or the one in force. -/
def HbmSt.wantWays (h : HbmSt) (q c : Nat) : BitVec 16 := (look h.waysNext (16 * q + c)).getD (lookD h.ways (16 * q + c) 0)

/-- PCA_WAYMASK_c of quadrant q is written (R219): a mask that would overlap another composition's is ignored and sets ERR;
else it takes effect at the next step boundary. Writing 1 to ERR clears it. -/
def State.writeWays (s : State) (q c : Nat) (v : BitVec 32) : State :=
  let k := 16 * q + c
  let s := if bitAt v.toNat 31 then { s with hbm := { s.hbm with wayErr := s.hbm.wayErr.filter (· != k) } } else s
  let m := BitVec.ofNat 16 (bitsOf v.toNat 0 16)
  let clash := (List.range 16).any fun d => d != c && (s.hbm.wantWays q d &&& m) != 0
  if clash then { s with hbm := { s.hbm with wayErr := k :: s.hbm.wayErr.filter (· != k) } }
  else if m = lookD s.hbm.ways k 0 then { s with hbm := { s.hbm with waysNext := drop s.hbm.waysNext k } }
  else { s with hbm := { s.hbm with waysNext := put s.hbm.waysNext k m } }

/-- PCA_WAYMASK_WRITE (R219). -/
def execPcaWaymaskWrite (t q c : Nat) (v : BitVec 32) (s : State) : Res :=
  let s := s.arrive t
  .next (if s.ready then s.writeWays q c v else s)

/-- At a step boundary the mask changes take effect; a way that leaves a composition is invalidated (R219). -/
def State.applyWays (s : State) : State :=
  let ways := s.hbm.waysNext.foldl (fun m p => put m p.1 p.2) s.hbm.ways
  { s with hbm := { s.hbm with ways, waysNext := [],
                               lines := s.hbm.lines.filter fun l => bitAt (lookD ways (16 * l.1 + l.2.1) 0).toNat l.2.2.1 } }

/-! ### The associative directory (R221 to R227) -/

/-- A bank as configured at reset from the Directory (R221). -/
def Bank.ofCfg (v : Nat) : Bank :=
  { width := bitsOf v 0 2, cls := bitsOf v 2 3, lock := false, entries := [], pend := [], moves := [] }

/-- A bank of the directory. -/
def State.adirBank (s : State) (b : Nat) : Bank := lookD s.hbm.banks b (Bank.ofCfg (if b < 12 then 1 else 6))

/-- Put a bank back. -/
def State.setBank (s : State) (b : Nat) (k : Bank) : State := { s with hbm := { s.hbm with banks := put s.hbm.banks b k } }

/-- Entries a bank can hold: 8,192 ÷ width (R221). -/
def Bank.room (k : Bank) : Nat := 8192 / 2 ^ k.width

/-- The value of the entry with a key, in the banks of its class. -/
def State.adirEntry (s : State) (cls key : Nat) : Option (List (BitVec 64)) :=
  (List.range 16).findSome? fun b => let k := s.adirBank b; if k.cls = cls then look k.entries key else none

/-- A search of a class (R223): the value of the valid entry with the key. While ADIR_CTL.EN is 0 searches are not enabled, and find
nothing (R227; log entry 125). -/
def State.adirFind (s : State) (cls key : Nat) : Option (List (BitVec 64)) := if s.hbm.adirEn then s.adirEntry cls key else none

/-- A search that meets an equal key with PEND = 1 stalls until it clears, which is counted (R223, R225, PD 0x3060.02). -/
def State.adirStall (s : State) (cls key : Nat) : State :=
  if s.hbm.adirEn && (List.range 16).any fun b =>
      let k := s.adirBank b; k.cls == cls && (look k.pend key).elim false fun t => decide (s.timer < t) then s.count 0x3060 2
  else s

/-- The bank that holds a key of a class. -/
def State.adirWhere (s : State) (cls key : Nat) : Option Nat :=
  (List.range 16).find? fun b => (s.adirBank b).cls == cls && (look (s.adirBank b).entries key).isSome

/-- Whether a key is being inserted by a block move. -/
def State.adirMoving (s : State) (cls key : Nat) : Bool :=
  (List.range 16).any fun b => (s.adirBank b).cls == cls && (s.adirBank b).moves.any fun m => m.ins && m.key == key

/-- Free entries of a bank, those that wait to be inserted left out. -/
def Bank.spare (k : Bank) : Nat := k.room - (k.entries.length + (k.moves.filter (·.ins)).length)

/-- The class bank with the most free entries, ties to the lowest; none when all are full (R224). -/
def State.adirBest (s : State) (cls : Nat) : Option Nat :=
  (List.range 16).foldl (fun best b =>
    let k := s.adirBank b
    if k.cls ≠ cls ∨ k.spare = 0 then best
    else match best with
      | none => some b
      | some a => if (s.adirBank a).spare < k.spare then some b else best) none

/-- Whether a key is present in its class, or is being inserted: an insertion of it is refused (R223). -/
def State.keyTaken (s : State) (cls key : Nat) : Bool := (s.adirEntry cls key).isSome || s.adirMoving cls key

/-- Insert an entry at once, for engines that hold the operation until the move has ended (log entry 20); of a key already present it is
refused (R223). -/
def State.adirInsert (s : State) (cls key : Nat) (vals : List (BitVec 64)) : State :=
  if s.keyTaken cls key then s
  else match s.adirBest cls with
  | none => s
  | some b => let k := s.adirBank b; s.setBank b { k with entries := put k.entries key vals }

/-- Remove an entry at once. -/
def State.adirRemove (s : State) (cls key : Nat) : State :=
  match s.adirWhere cls key with
  | none => s
  | some b => let k := s.adirBank b; s.setBank b { k with entries := drop k.entries key }

/-- The time of a search slot at the throttle step in effect, in 0.25 ns: 1, 4/3, 2 or 4 clocks of 1 GHz (R223, R227). -/
def State.adirSlot (s : State) : Nat := [4, 6, 8, 16].getD s.hbm.adirStep 16

/-- Write the value units of an entry: of the window table in one write (R226), of the context map in three, PEND being set from the first
to the third, one slot each (R225). -/
def State.adirUpdate (s : State) (cls key : Nat) (vals : List (BitVec 64)) : State :=
  match s.adirWhere cls key with
  | none => s
  | some b =>
    let k := s.adirBank b
    let pend := k.pend.filter fun p => decide (s.timer < p.2)
    s.setBank b { k with entries := put k.entries key vals, pend := if cls = 0 then put pend key (s.timer + 3 * s.adirSlot) else pend }

/-- Start the block move of an insertion (R224). -/
def State.moveIn (s : State) (cls key : Nat) (vals : List (BitVec 64)) (fn : Option Nat) : State :=
  match s.adirBest cls with
  | none => s
  | some b => let k := s.adirBank b
              s.setBank b { k with moves := k.moves ++ [{ ins := true, key, vals, fn }] }

/-- Start the block move of a deletion: VALID is cleared first (R224). -/
def State.moveOut (s : State) (cls key : Nat) (fn : Option Nat) : State :=
  match s.adirWhere cls key with
  | none => s
  | some b => let k := s.adirBank b
              s.setBank b { k with entries := drop k.entries key, moves := k.moves ++ [{ ins := false, key, vals := [], fn }] }

/-- DIRECTORY_INSERT (R223, R224): a key already present is refused; else the block move begins in the class bank with the
most free entries. -/
def execDirectoryInsert (t cls key : Nat) (vals : List (BitVec 64)) (s : State) : Res :=
  let s := s.arrive t
  if s.keyTaken cls key then .next s else .next (s.moveIn cls key vals none)

/-- DIRECTORY_DELETE (R224): VALID is cleared, and the entries above move up. -/
def execDirectoryDelete (t cls key : Nat) (s : State) : Res := .next ((s.arrive t).moveOut cls key none)

/-- BLOCK_MOVE_COMPLETE (R224): the move in progress ends, the new entry is written last, and the operation that caused the move
completes: a window command clears BUSY (R302). A move that waits behind it begins. -/
def execBlockMoveComplete (t bank : Nat) (s : State) : Res :=
  let s := s.arrive t
  let k := s.adirBank bank
  match k.moves with
  | [] => .next s
  | m :: rest =>
    let s := s.setBank bank { k with moves := rest, entries := if m.ins then put k.entries m.key m.vals else k.entries }
    match m.fn with
    | none => .next s
    | some f =>
      match look s.rmo.regs f with
      | some r => .next { s with rmo := { s.rmo with regs := put s.rmo.regs f { r with busy := false } } }
      | none => .next s

/-- The throttle step of a temperature, with 3 °C of hysteresis below the threshold of the step in effect (R227). -/
def throttleStep (now : Nat) (temp : Int) : Nat :=
  let up := if temp < 90 then 0 else if temp < 98 then 1 else if temp < 105 then 2 else 3
  let down := if temp < 87 then 0 else if temp < 95 then 1 else if temp < 102 then 2 else 3
  if now ≤ up then up else min now down

/-- DIRECTORY_THROTTLE_SAMPLE (R227): from reset the throttle holds step 3 until 16 samples have been taken; FLOOR is the
lowest step it may use. -/
def execDirectoryThrottleSample (t : Nat) (temp : Int) (s : State) : Res :=
  let s := s.arrive t
  let n := min 16 (s.hbm.samples + 1)
  let st := if n < 16 then 3 else max s.hbm.adirFloor (throttleStep s.hbm.adirStep temp)
  .next { s with hbm := { s.hbm with samples := n, adirStep := st } }

/-- ADIR_BANKCFG_n is written (R221): ignored while the bank holds valid entries, locked by LOCK. -/
def State.writeBankCfg (s : State) (n : Nat) (v : BitVec 32) : State :=
  let k := s.adirBank n
  let w := bitsOf v.toNat 0 2
  if k.lock then s
  else
    let k := if k.entries = [] ∧ k.moves = [] ∧ w ≠ 3 then { k with width := w, cls := bitsOf v.toNat 2 3 } else k
    s.setBank n { k with lock := bitAt v.toNat 31 }

/-- ADIR_BANKCFG_WRITE (R221). -/
def execAdirBankcfgWrite (t n : Nat) (v : BitVec 32) (s : State) : Res :=
  let s := s.arrive t
  .next (if s.ready then s.writeBankCfg n v else s)

/-! ### Refresh rate (R209) -/

/-- What the refresh rate should be by the temperature, FORCE2X and the count of cool steps (R209). -/
def HbmSt.wantRate (h : HbmSt) : Bool := h.force2x || h.lastHbmT > 85 || (h.refRate && h.cool < 64)

/-- A change of rate that has become due is a maintenance activity that the node starts itself, REFRATE (R209, R437): it is listed until the
rate has changed. A REFRATE already running is that change (R438), and the wait is counted (R440). -/
def State.rateActivity (s : State) (was : Bool) : State :=
  if !s.hbm.refPend || was then s
  else if s.rel.acts.any fun a => a.act == 4 then s.count 0xA102 0
  else
    let act : Act := { act := 4, subj := 0, inst := s.rel.nextInst, since := s.phase, self := true }
    { s with rel := { s.rel with acts := s.rel.acts ++ [act], nextInst := s.rel.nextInst + 1 } }

/-- A temperature sample of the hottest HBM die (R209): a change of rate waits for the next step boundary, or acts at once
when the temperature reaches 90 °C or no boundary has fallen within 1 ms. -/
def State.refreshSample (s : State) (temp : Int) : State :=
  let h := { s.hbm with lastHbmT := temp, cool := if temp < 82 then s.hbm.cool else 0 }
  let want := h.wantRate
  let since := if h.refPend then h.pendAt else s.timer
  let now := want && !h.refRate && (decide (temp ≥ 90) || decide (s.timer ≥ since + ms))
  { s with hbm := { h with refRate := h.refRate || now, refPend := (want != h.refRate) && !now, pendAt := since } }.rateActivity
    s.hbm.refPend

/-- At a step boundary: a step below 82 °C counts, and a pending change of rate takes effect (R209). DESIGN CHOICE (log entry 172): the step that
makes it 64 lets the rate fall at the boundary after; till then the change is pending, and an activity. -/
def State.refreshBoundary (s : State) : State :=
  let h := { s.hbm with cool := if s.hbm.lastHbmT < 82 then s.hbm.cool + 1 else 0 }
  if h.refPend then { s with hbm := { h with refRate := h.wantRate, refPend := false } }
  else
    let pend := h.wantRate != h.refRate
    ({ s with hbm := { h with refPend := pend, pendAt := if pend then s.timer else h.pendAt } }).rateActivity false

end Sys2Proof.Machine
end

