-- ==== Sys2Proof/Machine/Windows.lean ====
section
/-! DEFINITION. Windows and connections (R300 to R306): the window registers and commands, their coming into force, and the
connection entries. -/

namespace Sys2Proof.Machine

/-- The window registers of a function as reset leaves them (R300). -/
def WRegs.atReset : WRegs :=
  { v1 := 0, v2 := 0, v3 := 0, wjob := 0, win := 0, busy := false, drained := true, ign := false, status := .ok, wgen := 0,
    op := 0, job := 0, since := 0, cidx := 0, cside := false, cstat := .ok, cval := 0 }

/-- The window registers of a function. -/
def State.wregs (s : State) (fn : Nat) : WRegs := lookD s.rmo.regs fn WRegs.atReset

/-- Put window registers back. -/
def State.setWregs (s : State) (fn : Nat) (r : WRegs) : State := { s with rmo := { s.rmo with regs := put s.rmo.regs fn r } }

/-- The window entry of a job. -/
def State.win? (s : State) (job win : Nat) : Option Win := (s.adirEntry 1 (winKey job win)).map Win.ofUnits

/-- The window entry that a request finds by a search of the directory (R223). -/
def State.winFound (s : State) (job win : Nat) : Option Win := (s.adirFind 1 (winKey job win)).map Win.ofUnits

/-- Write a window entry in one write (R226). -/
def State.setWin (s : State) (job win : Nat) (w : Win) : State := s.adirUpdate 1 (winKey job win) w.toUnits

/-- The pseudo-channels that are lent (R242, PD 0x8031.00). -/
def State.lentPc (s : State) (g : Nat) : Bool := bitmapHas (s.pd.bytes 0x8031 0) g

/-- Every pseudo-channel of an HBM range meets a test. -/
def pcRange (a len : Nat) (p : Nat → Bool) : Bool :=
  (List.range (pcOf (a + len - 1) + 1 - pcOf a)).all fun i => p (pcOf a + i)

/-- The checks of OPEN on the staged values (R301, R304). -/
def State.openCheck (s : State) (w : Win) : Status :=
  if w.size = 0 ∨ w.size % 64 ≠ 0 ∨ !isHbm (w.base + w.size - 1) then .unsupported
  else if w.lent then (if pcRange w.base w.size s.lentPc then .ok else .accessDenied)
  else if pcRange w.base w.size (fun g => (s.slicesOf w.comp).contains (g / 32)) then .ok else .accessDenied

/-- The status of a window command (R301, R304), for function 0 (the PF) or a virtual function. -/
def State.winCheck (s : State) (fn op : Nat) (job : Nat) (r : WRegs) (win : Nat) : Status :=
  let e := s.win? job win
  let staged := Win.ofUnits [r.v1, r.v2, r.v3]
  let c := s.vfComp fn
  if fn ≠ 0 ∧ !(c.elim false s.compServes) then .accessDenied
  else if fn ≠ 0 ∧ (op = 1 ∨ op = 2 ∨ (op = 3 ∧ staged.lent)) then .accessDenied
  else if op = 1 then
    if s.keyTaken 1 (winKey job win) || (s.adirBest 1).isNone then .unsupported else .ok
  else match e with
    | none => .noWindow
    | some w =>
      if op = 2 then (if w.isOpen then .unsupported else .ok)
      else if op = 3 then
        if w.isOpen then .unsupported else s.openCheck (if fn = 0 then staged else { staged with comp := c.getD 0 })
      else if w.isOpen then .ok else .unsupported

/-- The job a window command names: RMO_WJOB for the PF, the function's own job for a virtual function (R300). -/
def State.winJob (s : State) (fn : Nat) (r : WRegs) : Nat :=
  if fn = 0 then r.wjob.toNat else ((s.vfComp fn).elim 0 s.jobOf)

/-- A window command is issued (R301, R302). While BUSY it is ignored and sets IGN. A refused command changes nothing but
STATUS. INSERT and REMOVE start the block move of R224; OPEN and REVOKE come into force later. -/
def State.winCommand (s : State) (fn op win : Nat) : State :=
  let r := s.wregs fn
  if r.busy then s.setWregs fn { r with ign := true }
  else
    let job := s.winJob fn r
    let st := s.winCheck fn op job r win
    let gen := (s.win? job win).elim 0 (·.wgen)
    let r := { r with win, status := st, wgen := gen, job }
    if st ≠ .ok then s.setWregs fn r
    else
      let s := s.setWregs fn { r with busy := true, op, since := s.timer }
      if op = 1 then
        s.moveIn 1 (winKey job win) (Win.toUnits { (Win.ofUnits [0, 0, 0]) with wgen := 0 }) (some fn)
      else if op = 2 then s.moveOut 1 (winKey job win) (some fn)
      else s

/-- INSERT (R301): a closed entry with WGEN 0 and all value fields zero. -/
def execWindowInsert (t : Nat) (fn : Fn) (win : Nat) (s : State) : Res :=
  let s := s.arrive t
  .next (if s.ready then s.winCommand fn 1 win else s)

/-- REMOVE (R301): deletes a closed entry. -/
def execWindowRemove (t : Nat) (fn : Fn) (win : Nat) (s : State) : Res :=
  let s := s.arrive t
  .next (if s.ready then s.winCommand fn 2 win else s)

/-- OPEN (R301). -/
def execWindowOpen (t : Nat) (fn : Fn) (win : Nat) (s : State) : Res :=
  let s := s.arrive t
  .next (if s.ready then s.winCommand fn 3 win else s)

/-- REVOKE (R301). -/
def execWindowRevoke (t : Nat) (fn : Fn) (win : Nat) (s : State) : Res :=
  let s := s.arrive t
  .next (if s.ready then s.winCommand fn 4 win else s)

/-- The operations admitted to a window that have not ended: open contexts, messages held whole, and changes in the atomic unit that wait for their
write-back (R302, R329). -/
def State.winOps (s : State) (job win : Nat) : List Segment :=
  ((s.rmo.reasm.filter fun c => c.seg.job == job && c.seg.win == win).map fun c => { c.seg with rcid := c.rcid, cseq := c.cseq }) ++
  ((s.rmo.aresp.filter fun c => c.seg.job == job && c.seg.win == win).map (·.seg))

/-- What a revoked generation of a window leaves to be drained (R302, R329). -/
def State.drainOf (s : State) (job win : Nat) (w : Win) : Drain :=
  let ops := s.winOps job win
  let dirty := (s.rmo.alines.filter fun x => x.dirty && decide (w.base < 64 * x.line + 64) && decide (64 * x.line < w.base + w.size)).map (·.line)
  { job, win, ops := ops.map fun g => (g.rcid, g.cseq), lines := dirty, node := (ops.getLast?).elim 0 (·.osrc), addr := (ops.getLast?).elim 0 (·.addr) }

/-- Whether everything that a revoked generation left has ended and is written (R302). -/
def State.isDrained (s : State) (d : Drain) : Bool :=
  let open_ (o : Nat × BitVec 32) : Bool := s.rmo.reasm.any (fun c => c.rcid == o.1 && c.cseq == o.2)
    || s.rmo.aresp.any (fun c => c.seg.rcid == o.1 && c.seg.cseq == o.2)
  !d.ops.any open_ && !d.lines.any fun l => s.rmo.alines.any fun x => x.line == l && x.dirty

/-- Close a window entry: OPEN 0, the next generation, FWDV and FWD as given (R301, REVOKE). -/
def Win.close (w : Win) (fwdv : Bool) (fwd : Nat) : Win := { w with isOpen := false, wgen := w.wgen + 1, fwdv, fwd }

/-- The OPEN or REVOKE of a function comes into force, and BUSY clears (R302). After a REVOKE, DRAINED reads 0 until every operation admitted
under the old generation has ended. -/
def State.winForce (s : State) (fn : Nat) : State :=
  let r := s.wregs fn
  match s.win? r.job r.win with
  | none => s.setWregs fn { r with busy := false }
  | some w =>
    let staged := Win.ofUnits [r.v1, r.v2, r.v3]
    if r.op = 3 then
      let comp := if fn = 0 then staged.comp else (s.vfComp fn).getD 0
      let w' := { staged with comp, wgen := w.wgen, isOpen := true, fwdv := false, fwd := w.fwd }
      (s.setWin r.job r.win w').setWregs fn { r with busy := false, wgen := w'.wgen }
    else
      let w' := w.close staged.fwdv staged.fwd
      let left := lookD s.rmo.oldOps fn [] ++ [s.drainOf r.job r.win w]
      let left := left.filter fun d => !s.isDrained d
      let s := s.setWin r.job r.win w'
      let s := { s with rmo := { s.rmo with oldOps := put s.rmo.oldOps fn left } }
      s.setWregs fn { r with busy := false, wgen := w'.wgen, drained := left == [] }

/-- Whether the OPEN or REVOKE of a function is due: 300 ns after it was written (R302). -/
def State.winDue (s : State) (fn : Nat) : Bool :=
  let r := s.wregs fn
  r.busy && (r.op == 3 || r.op == 4) && decide (r.since + 1200 ≤ s.timer)

/-- The changes that are due come into force before a segment's checks begin (R302). -/
def State.forceDue (s : State) : State := s.rmo.regs.foldl (fun (s : State) r => if s.winDue r.1 then s.winForce r.1 else s) s

/-- WINDOW_CHANGE_IN_FORCE (R302): 300 ns after its write an OPEN or REVOKE comes into force, and BUSY clears. -/
def execWindowChangeInForce (t : Nat) (fn : Fn) (s : State) : Res :=
  let s := s.arrive t
  .next (if s.winDue fn then s.winForce fn else s)

/-- WINDOW_DRAINED (R302): every operation admitted under a revoked generation has ended, and the event DRAINED is raised (R327); DRAINED reads 1 once
that holds of all. -/
def execWindowDrained (t : Nat) (fn : Fn) (s : State) : Res :=
  let s := s.arrive t
  let r := s.wregs fn
  let (ended, left) := (lookD s.rmo.oldOps fn []).partition s.isDrained
  if ended = [] then .next s
  else
    let oldOps := if left = [] then drop s.rmo.oldOps fn else put s.rmo.oldOps fn left
    let s := ({ s with rmo := { s.rmo with oldOps } }).setWregs fn { r with drained := left == [] }
    .next (ended.foldl (fun (s : State) d =>
      s.event { cls := 3, code := 2, subj := d.win, comp := (s.win? d.job d.win).map fun w : Win => w.comp, job := d.job,
                detail := leBytes 2 d.node ++ [0, 0] ++ leBytes 6 d.addr }) s)

/-- Revoke every open window of a composition (R360, R370, R397). -/
def State.revokeAll (s : State) (c : Nat) : State :=
  (List.range 16).foldl (fun s b =>
    let k := s.adirBank b
    if k.cls ≠ 1 then s
    else s.setBank b { k with entries := k.entries.map fun e =>
      let w := Win.ofUnits e.2
      if w.isOpen && w.comp == c && !w.lent then (e.1, (w.close w.fwdv w.fwd).toUnits) else e }) s

/-! ### Connections (R305) -/

/-- A receive entry as reset leaves it. -/
def RecvEnt.off : RecvEnt :=
  { osrc := 0, conn := 0, job := 0, valid := false, h := 0, high := 0, applied := 0, refused := 0, wroteGen := none }

/-- A receive entry. -/
def State.recvEnt (s : State) (i : Nat) : RecvEnt := lookD s.rmo.recv i RecvEnt.off

/-- Put a receive entry back. -/
def State.setRecv (s : State) (i : Nat) (e : RecvEnt) : State := { s with rmo := { s.rmo with recv := put s.rmo.recv i e } }

/-- The write of a connection entry from RMO_CVAL (R305, R393): refused while messages are outstanding or a context is open,
and on a second write under one link-key generation of the job. -/
def State.connCommand (s : State) (fn : Nat) (idx : Nat) (send : Bool) : State :=
  let v := (s.wregs fn).cval.toNat
  let a := bitsOf v 0 14
  let b := if send then bitsOf v 16 16 else bitsOf v 16 13
  let job := bitsOf v 32 24
  let valid := bitAt v 63
  let gen := (s.jobGen job).1
  let put_ (st : Status) (s : State) : State := s.setWregs fn { s.wregs fn with cidx := idx, cside := send, cstat := st }
  if fn ≠ 0 then put_ .accessDenied s
  else if send ∧ 8192 ≤ idx then put_ .unsupported s
  else if send then
    let q := idx
    let e := s.sendEnt q
    if e.busy || (s.queued q).any (fun m => m.cseq.isSome) then put_ .busyConflict s
    else if e.wroteGen = some gen ∧ e.job = job then put_ .accessDenied s
    else
      put_ .ok (s.setSend q { SendEnt.off with fdest := a, rcid := b, job, valid, cwnd := s.pdNum 0x4102 0, wroteGen := some gen })
  else
    let e := s.recvEnt idx
    if s.rmo.reasm.any (fun c => c.rcid == idx) then put_ .busyConflict s
    else if e.wroteGen = some gen ∧ e.job = job then put_ .accessDenied s
    else
      let s := { s with rmo := { s.rmo with unk := s.rmo.unk.filter fun u => u.2.2.1 != idx } }
      put_ .ok (s.setRecv idx { RecvEnt.off with osrc := a, conn := b, job, valid, wroteGen := some gen })

/-- CONNECTION_WRITE (R305): RMO_CCMD is written; with GO the staged value goes into the entry. -/
def execConnectionWrite (t : Nat) (fn : Fn) (v : BitVec 32) (s : State) : Res :=
  let s := s.arrive t
  let idx := bitsOf v.toNat 0 16
  let send := bitAt v.toNat 16
  if !s.ready then .next s
  else if bitAt v.toNat 17 then .next (s.connCommand fn idx send)
  else .next (s.setWregs fn { s.wregs fn with cidx := idx, cside := send })

end Sys2Proof.Machine
end

