-- ==== Sys2Proof/Machine/Pages.lean ====
section
/-! DEFINITION. Contexts, streams, pages, generations, the share pool and sealing (R64 to R82, R93 to R98): the shared
operations over the page store. -/

namespace Sys2Proof.Machine

/-! ### Places and frames -/

/-- Whether a pseudo-channel belongs to a W-stack: every third stack, with its NMUs (R199, R213). -/
def isW (pc : Nat) : Bool := pc / 64 % 3 == 0

/-- The pseudo-channels of a composition in which the node may allocate: those of slices that are not leaving (R358), not
withdrawn from service (R371). -/
def State.allocPcs (s : State) (c : Nat) : List Nat :=
  let keep := match look s.cmp.staged c with
    | some d => if s.cmp.pending then d.slices else s.compTiles c
    | none => s.compTiles c
  let own := (s.slicesOf c).filter fun n => bitAt keep.toNat n
  ((if own = [] then s.slicesOf c else own).map fun n => (List.range 32).map fun i => 32 * n + i).flatten

/-- The places of a pseudo-channel, in units of `align`, from which 64 KiB would reach a withheld row (R406), ascending. -/
def State.badPlaces (s : State) (pc align : Nat) : List Nat :=
  let rows := (s.rel.rows.filter fun r => r / 2 ^ 20 == pc).map fun r => r % 2 ^ 20 * 1024
  let bad := (rows.map fun r => (List.range ((r + 1023) / align + 1 - (r - 65536) / align)).map fun i => (r - 65536) / align + i).flatten
  bad.dedup.mergeSort fun a b => decide (a ≤ b)

/-- A fresh place in a pseudo-channel, aligned and clear of withheld rows; where in it is the node's choice (log entry 6). -/
def State.place (s : State) (pc align : Nat) : Nat × State :=
  let (n, s) := s.draw
  let bad := s.badPlaces pc align
  let i := Config.freeAddr n % max 1 (2 ^ 30 / align - bad.length)
  (pc * 2 ^ 30 + bad.foldl (fun i b => if b ≤ i then i + 1 else i) i * align, s)

/-- Runs of slices in succession: the first, and how many. -/
def sliceRuns : List Nat → List (Nat × Nat)
  | [] => []
  | n :: ns =>
    match sliceRuns ns with
    | (b, k) :: rest => if n + 1 = b then (n, k + 1) :: rest else (n, 1) :: (b, k) :: rest
    | [] => [(n, 1)]

/-- A place for an area of a size in a span of memory, on its alignment and past the rows that are withheld (R405). The same place in
further spans `also` is clear of their rows too. -/
def State.placeIn (s : State) (base span align size : Nat) (also : List Nat) : Nat × State :=
  let (n, s) := s.draw
  let rows := ((s.rel.rows.map (· * 1024)).flatMap fun a =>
    ((base :: also).filter fun b => decide (b ≤ a) && decide (a < b + span)).map fun b => a - b).mergeSort fun a b => decide (a ≤ b)
  let first := Config.freeAddr n % max 1 (span / align + 1 - (size + align - 1) / align)
  let slide (i : Nat) : Nat := rows.foldl (fun i a =>
    if i * align < a + 1024 ∧ a < i * align + size then (a + 1024 + align - 1) / align else i) i
  let i := slide first
  (base + (if i * align + size ≤ span then i else slide 0) * align, s)

/-- The runs of memory in which a composition may lay areas out: the base and the bytes of each. -/
def State.areaRuns (s : State) (c : Nat) : List (Nat × Nat) :=
  (sliceRuns ((s.allocPcs c).map (· / 32)).dedup).map fun r => (r.1 * 2 ^ 35, r.2 * 2 ^ 35)

/-- A place for an area of a composition, in the first of its runs that holds it. -/
def State.placeArea (s : State) (c align size : Nat) : Nat × State :=
  let runs := s.areaRuns c
  let r := (runs.find? fun r => decide (size ≤ r.2)).getD (runs.headD (0, 2 ^ 35))
  s.placeIn r.1 r.2 align size []

/-- The generation after one (R80). -/
def nextGen (g : Nat) : Nat := if g ≥ 4095 then 1 else g + 1

/-- The frame of a key. -/
def State.frame? (s : State) (key : Nat) : Option Frame := look s.pg.frames key

/-- Change the page store. -/
def State.setPg (s : State) (f : PageSt → PageSt) : State := { s with pg := f s.pg }

/-- Allocate a frame for a page (R94 step 4): the pseudo-channels rotate by page index; a free frame there is used again with
its generation, the lowest first, else a new place is taken at generation 1 (log entry 25). -/
def State.allocFrame (s : State) (c page raw : Nat) (toks : List Token) : Nat × State :=
  let pcs := s.allocPcs c
  let pc := pcs.getD (page % max 1 pcs.length) 0
  match s.pg.free.find? fun k => (s.frame? k).elim false fun f => f.pc == pc && f.comp == c with
  | some k =>
    (k, s.setPg fun g => { g with free := g.free.filter (· != k),
                                  frames := put g.frames k { (lookD g.frames k ⟨0, pc, 1, [], 0, c, 0, false⟩) with toks, raw, bad := false } })
  | none =>
    let (npa, s) := s.place pc 512
    let k := s.pg.nextKey
    (k, s.setPg fun g => { g with nextKey := k + 1, frames := put g.frames k { npa, pc, gen := 1, toks, raw, comp := c, sctr := 0, bad := false } })

/-- Pages that are gone or written anew wait for no rebuild (R427). -/
def State.unpend (s : State) (p : Nat → Nat → Nat → Nat → Bool) : State :=
  { s with rel := { s.rel with pendPages := s.rel.pendPages.filter fun z => !p z.2.2.2.2 z.2.1 z.2.2.1 z.2.2.2.1,
                               pieces := s.rel.pieces.filter fun y => !p y.job y.ctx y.stream y.page } }

/-- Free a frame (R80, R81): its generation rises, and it returns to the free list at the next step boundary; its
contribution is removed (R413). -/
def State.freeFrameKey (s : State) (key : Nat) : State :=
  match s.frame? key with
  | none => s
  | some f =>
    ({ s with rel := { s.rel with damaged := s.rel.damaged.filter (· != key) } }.uncontribute key).setPg fun g =>
      { g with frames := put g.frames key { f with gen := nextGen f.gen }, freed := key :: g.freed.filter (· != key) }

/-- The step boundary returns freed frames to the free list, but for those whose removal from the ring has not been answered
(R81, R413). -/
def State.returnFreed (s : State) : State :=
  let busy (k : Nat) : Bool := s.inFlight fun p => match p with | .parity _ _ _ _ key false => key == k | _ => false
  s.setPg fun g => { g with free := (g.free ++ g.freed.filter fun k => !busy k).dedup, freed := g.freed.filter busy, gone := [] }

/-! ### Contexts and streams -/

/-- The context of a job. -/
def State.ctx? (s : State) (job ctx : Nat) : Option Ctx := s.pg.ctxs.find? fun c => c.job == job && c.ctx == ctx

/-- Any context of an identifier: the job's own first (R85). -/
def State.ctxAny? (s : State) (job ctx : Nat) : Option Ctx :=
  match s.ctx? job ctx with
  | some c => some c
  | none => s.pg.ctxs.find? fun c => c.ctx == ctx

/-- Whether a search of the context map finds a context or corpus (R223). -/
def State.mapped (s : State) (job ctx : Nat) : Bool := (s.adirFind 0 (ctxKey job ctx)).isSome

/-- The context that a request names, as a search of the context map finds it (R223). -/
def State.ctxFound (s : State) (job ctx : Nat) : Option Ctx := (s.ctxAny? job ctx).filter fun k => s.mapped k.job k.ctx

/-- Whether the job holds a corpus of an identifier, as a search of the context map finds it (R156, R223). -/
def State.ownCorpus (s : State) (job ctx : Nat) : Bool :=
  s.mapped job ctx && s.rq.corpora.any fun c => c.job == job && c.ctx == ctx && !c.dead

/-- The context that an operation names (R85, R156), or the status that turns it away: the job's own context, which must be of the admitting
composition; else UNSUPPORTED where the job's own corpus bears the name, ACCESS_DENIED for another job's context, and STALE_GEN where
nothing is known. -/
def State.namedCtx (s : State) (job comp ctx : Nat) : Status ⊕ Ctx :=
  if (s.ctx? job ctx).isNone && s.ownCorpus job ctx then .inl .unsupported
  else match s.ctxFound job ctx with
    | none => .inl .staleGen
    | some k => if k.job ≠ job ∨ k.comp ≠ comp then .inl .accessDenied else .inr k

/-- Change a context in place. -/
def State.setCtx (s : State) (job ctx : Nat) (f : Ctx → Ctx) : State :=
  s.setPg fun g => { g with ctxs := mapIf (fun c => c.job == job && c.ctx == ctx) f g.ctxs }

/-- The index of a stream identifier in a context: layer × G + group, if both lie in range (R64, R74). -/
def Ctx.index? (c : Ctx) (stream : Nat) : Option Nat :=
  if streamLayer stream < c.layers ∧ streamGroup stream < c.groups ∧ stream < 2 ^ 20 then
    some (streamLayer stream * c.groups + streamGroup stream)
  else none

/-- A stream of a context. -/
def Ctx.strm? (c : Ctx) (stream : Nat) : Option Strm := (c.index? stream).bind fun i => look c.streams i

/-- The stream identifier of an index (R8, R74). -/
def Ctx.idOf (c : Ctx) (i : Nat) : Nat := i / max 1 c.groups * 256 + i % max 1 c.groups

/-- Change a stream in place. -/
def State.setStrm (s : State) (job ctx stream : Nat) (f : Strm → Strm) : State :=
  s.setCtx job ctx fun c =>
    match c.index? stream with
    | some i => match look c.streams i with
      | some x => { c with streams := put c.streams i (f x) }
      | none => c
    | none => c

/-- A stream of a job's context. -/
def State.strm? (s : State) (job ctx stream : Nat) : Option Strm := (s.ctx? job ctx).bind fun c => c.strm? stream


/-- The empty descriptor: VALID = 0. -/
def Desc.empty : Desc :=
  { tier := 0, node := 0, addr := 0, gen := 0, clen := 0, refc := 0, valid := false, packed := false, borrowed := false,
    tomb := false, spin := false, tpin := false, frame := 0 }

/-- No contribution. -/
def PMap.none : PMap := { holder := 0, valid := false, frame := 0 }

/-- The 64 header bytes of a context root (R74). -/
def Ctx.headerBytes (c : Ctx) : List Byte :=
  leBytes 4 c.ctx ++ leBytes 3 c.job ++ leBytes 1 (c.comp % 16) ++ leBytes 2 c.layers ++ leBytes 1 (c.groups - 1)
    ++ leBytes 1 (flagAt c.retiring 0 + flagAt c.dormant 1) ++ leBytes 4 c.seed ++ List.replicate 48 0

/-- The 32 bytes of a stream-table entry (R75). -/
def Strm.entryBytes (x : Strm) : List Byte :=
  leBytes 8 (x.l1 / 8192 * 8192 + 1) ++ leBytes 4 x.npages ++ leBytes 2 x.dk ++ leBytes 2 (x.dv + (if x.latent then 32768 else 0))
    ++ leBytes 1 (x.kfmt + 16 * x.vfmt) ++ leBytes 1 x.scale ++ leBytes 1 x.sink ++ leBytes 1 x.tile ++ [0, 0, 0, 0]
    ++ leBytes 8 (x.siltAt / 64 * 64)

/-- Bytes of a token slot (R87): each part padded to 16 B. -/
def slotBytes (x : Strm) (t : Token) : List Byte :=
  let part (code : Nat) (row scales : List Nat) : List Byte :=
    padMul 16 (packBits (fmtOf code).bits row) ++ padMul 16 (scales.map (BitVec.ofNat 8))
  let f (code : Nat) : Nat := if x.scale = 2 then 1 else code
  part (f x.kfmt) t.k t.ks ++ (if x.latent then [] else part (f x.vfmt) t.v t.vs)

/-- The 64 header bytes of a silt line (R87). -/
def Strm.siltHeader (x : Strm) (ctx stream : Nat) : List Byte :=
  leBytes 4 ctx ++ leBytes 4 stream ++ leBytes 4 x.base ++ leBytes 1 x.toks.length ++ leBytes 1 x.commit ++ [0, 0] ++ leBytes 8 x.appseq
    ++ List.replicate 40 0

/-- A context root as bytes: header and stream table (R74). -/
def Ctx.rootBytes (c : Ctx) : List Byte := c.headerBytes ++ (c.streams.map fun x => x.2.entryBytes).flatten

/-- The 16 bytes of a descriptor (R78). -/
def Desc.toBytes (d : Desc) : List Byte :=
  let b := d.borrowed
  let z (n : Nat) : Nat := if b then 0 else n
  leBytes 8 (fieldAt (z d.tier) 2 0 + fieldAt (z d.node) 14 2 + fieldAt d.addr 48 16)
    ++ leBytes 8 (fieldAt d.gen 12 0 + fieldAt (z d.clen) 16 16 + fieldAt (z d.refc) 16 32 + flagAt d.valid 48
      + flagAt (d.packed && !b) 49 + flagAt b 50 + flagAt d.tomb 51 + flagAt d.spin 52 + flagAt d.tpin 53)

/-! ### Tables, and the bytes of what they hold (R73 to R79, R87) -/

/-- Where the walk finds the descriptor of a page: by p[26:18], p[17:9] and p[8:0] (R76), if its tables stand. -/
def Strm.walk (x : Strm) (p : Nat) : Option Nat :=
  match look x.l2 (p / 2 ^ 18), look x.l3 (p / 512) with
  | some _, some e => if p < 2 ^ 27 then some (e.next + 16 * (p % 512)) else none
  | _, _ => none

/-- Where the parity-map entry of a page lies: in the 2 KiB behind its level-3 table (R414). -/
def Strm.mapPlace (x : Strm) (p : Nat) : Option Nat := (look x.l3 (p / 512)).map fun e => e.next + 8192 + 4 * (p % 512)

/-- The 4 bytes of a parity-map entry (R414). -/
def PMap.toBytes (m : PMap) : List Byte := leBytes 4 (fieldAt m.holder 4 0 + flagAt m.valid 4 + fieldAt m.frame 27 5)

/-- Where the grain of a page lies in its chunk (R73). -/
def Strm.grainPlace (x : Strm) (p : Nat) : Option Nat := (look x.l3 (p / 512)).map fun e => e.grains + 64 * (p % 512)

/-- The chunk of the grain of a page, or the level-1 table where none stands. -/
def Strm.chunkOf (x : Strm) (p : Nat) : Nat := (look x.l3 (p / 512)).elim x.l1 (·.grains)

/-- A place that stands already, or a fresh one. -/
def State.placeOr (s : State) (have_ : Option Nat) (pc align : Nat) : Nat × State :=
  match have_ with
  | some a => (a, s)
  | none => s.place pc align

/-- The tables, the parity map (R414) and the grain chunk of the 512 pages around a page of a stream, allocated where the walk lacks them (R73, R76, R77): the
chunk in a W-stack pseudo-channel; the entries that name them are written. -/
def State.growTables (s : State) (c : Nat) (x : Strm) (p : Nat) : Strm × State :=
  if (look x.l3 (p / 512)).isSome then (x, s)
  else
    let pcs := s.allocPcs c
    let pc := pcs.getD (p / 512 % max 1 pcs.length) 0
    let ws := pcs.filter isW
    let wpc := ws.getD (p / 512 % max 1 ws.length) pc
    let (l2, s) := s.placeOr (look x.l2 (p / 2 ^ 18)) pc 8192
    let (l3, s) := s.place pc 16384
    let (g, s) := s.place wpc 32768
    let s := s.store (x.l1 + 16 * (p / 2 ^ 18)) (leBytes 8 (l2 + 1) ++ leBytes 8 0)
    let s := s.store (l2 + 16 * (p / 512 % 512)) (leBytes 8 (l3 + 1) ++ leBytes 8 g)
    ({ x with l2 := put x.l2 (p / 2 ^ 18) l2, l3 := put x.l3 (p / 512) { next := l3, grains := g } }, s)

/-- The tables of a number of pages of a stream, from page 0 on. -/
def State.growAll (s : State) (c : Nat) (x : Strm) (pages : Nat) : Strm × State :=
  (List.range ((pages + 511) / 512)).foldl (fun (a : Strm × State) i => a.2.growTables c a.1 (512 * i)) (x, s)

/-- The entries of a stream's level-1 and level-2 tables go to their places (R77). -/
def State.writeTables (s : State) (x : Strm) : State :=
  let s := x.l2.foldl (fun (s : State) e => s.store (x.l1 + 16 * e.1) (leBytes 8 (e.2 + 1) ++ leBytes 8 0)) s
  x.l3.foldl (fun (s : State) e => match look x.l2 (e.1 / 512) with
    | some a => s.store (a + 16 * (e.1 % 512)) (leBytes 8 (e.2.next + 1) ++ leBytes 8 e.2.grains)
    | none => s) s

/-- Whether the tables of a stream stand in topsoil: those of a dormant context are records in hardpan (R251, R252). -/
def Strm.tablesHere (x : Strm) : Bool := isHbm x.l1 && x.l2.all (fun e => isHbm e.2) && x.l3.all fun e => isHbm e.2.next

/-- Whether its grain chunks do. -/
def Strm.grainsHere (x : Strm) : Bool := x.l3.all fun e => isHbm e.2.grains

/-- Whether a stream's next seal waits: its tables or grains lie in hardpan, and are recalled first (R262). -/
def sealWaits (k : Ctx) (x : Strm) : Bool := k.dormant && !(x.tablesHere && x.grainsHere)

/-- Whether a scan that was dispatched has yet to read the grain chunk of a page on an NMU: the grain waits (R154). -/
def State.scanPending (s : State) (job ctx stream page : Nat) : Bool :=
  s.hbm.nmus.any fun n => (n.2.st == .claim || n.2.st == .compute) &&
    match n.2.op with
    | .grainScan id sec chunk => page / 512 == chunk && s.rq.reqs.any fun r =>
        r.id == id && r.job == job && r.req.env.ctx == ctx && (r.secs[sec]?).elim false (·.stream == stream)
    | _ => false

/-- Whether the next seal of a stream waits, for its tables (R262) or for a scan of its grain chunk (R154). -/
def State.sealHeld (s : State) (k : Ctx) (stream : Nat) (x : Strm) : Bool :=
  sealWaits k x || s.scanPending k.job k.ctx stream x.pages.length

/-- The grain, the parity-map entry and then the descriptor of a page go to their places in topsoil, the descriptor as one 16-byte write
(R79, R414). -/
def State.writePage (s : State) (job ctx stream page : Nat) : State :=
  match s.strm? job ctx stream with
  | none => s
  | some x =>
    match x.pages[page]?, x.walk page, x.grainPlace page, x.mapPlace page with
    | some p, some d, some g, some m =>
      let s := if isHbm g then s.store g p.grain.toBytes else s
      if isHbm d then (s.store m p.pmap.toBytes).store d p.desc.toBytes else s
    | _, _, _, _ => s

/-- The entry of a stream in the stream table goes to its place (R74, R75). -/
def State.writeEntry (s : State) (job ctx stream : Nat) : State :=
  match s.ctx? job ctx with
  | none => s
  | some k =>
    match k.index? stream, k.strm? stream with
    | some i, some x => s.store (k.root + 64 + 32 * i) x.entryBytes
    | _, _ => s

/-- The silt line of a stream goes to its home in topsoil: the header, and the slots of the tokens held (R86, R87). -/
def State.writeSilt (s : State) (job ctx stream : Nat) : State :=
  match s.strm? job ctx stream with
  | none => s
  | some x =>
    let slots := (List.range x.toks.length).zip x.toks
    slots.foldl (fun (s : State) t =>
      let b := slotBytes x t.2
      s.store (x.siltAt + 64 + (x.base + t.1) % 64 * b.length) b) (s.store x.siltAt (x.siltHeader ctx stream))

/-- The root of a context, its stream table, and the pages that it holds go to their places. -/
def State.writeCtx (s : State) (k : Ctx) : State :=
  k.streams.foldl (fun (s : State) x =>
    (List.range x.2.pages.length).foldl (fun (s : State) p => s.writePage k.job k.ctx (k.idOf x.1) p) (s.writeSilt k.job k.ctx (k.idOf x.1)))
    (s.store k.root k.rootBytes)

/-- Change a page of a stream in place, and write what changed. -/
def State.setPage (s : State) (job ctx stream page : Nat) (f : Page → Page) : State :=
  (s.setStrm job ctx stream fun x => { x with pages := x.pages.zipIdx.map fun p => if p.2 = page then f p.1 else p.1 }).writePage
    job ctx stream page

/-! ### Generations and moved pages -/

/-- The descriptor that says where a page's frame is: its own, or its pool entry's, if that is valid and the generations agree (R82, R96,
R246). -/
def State.resolve (s : State) (d : Desc) : Option Desc :=
  if !d.valid then none
  else if !d.borrowed then some d
  else match look s.pg.pool d.frame with
    | some p => if p.desc.valid && p.desc.gen == d.gen then some p.desc else none
    | none => none

/-- The frame of a descriptor. -/
def State.frameOf (s : State) (d : Desc) : Option (Desc × Frame) :=
  (s.resolve d).bind fun r => (s.frame? r.frame).map fun f => (r, f)

/-- A generation mismatch (R82): counted, with a directory event. -/
def State.genMismatch (s : State) (job ctx stream page want got : Nat) : State :=
  let comp := (s.ctx? job ctx).map (·.comp)
  let s := match comp with
    | some c => s.countC c 0x3204 1 1
    | none => s.count 0x3204 1
  s.event { cls := 4, code := 1, subj := stream, comp, status := 0x11, job,
            detail := leBytes 4 ctx ++ leBytes 4 page ++ leBytes 2 want ++ leBytes 2 got }

/-- The map epoch of a request is current, or previous within its grace (R321); a doorbell request carries none (R364). -/
def State.epochOk (s : State) : Source → Bool
  | .fabric _ _ _ e _ => e == s.rmo.epoch || (s.rmo.grace && e + 1 == s.rmo.epoch)
  | .doorbell _ _ => true

/-- The node that now serves a page for a request, if the page has moved (R363): a request of the previous epoch is still
served, in the grace step, for pages that moved at this epoch change. -/
def State.movedTo (s : State) (src : Source) (job ctx stream page : Nat) : Option Nat :=
  let old := match src with
    | .fabric _ _ _ e _ => s.rmo.grace && e + 1 == s.rmo.epoch
    | .doorbell _ _ => false
  ((s.pg.fwd.map (·.2)).find? fun f => f.job == job && f.ctx == ctx && f.stream == stream && decide (f.first ≤ page)
    && decide (page < f.first + f.count) && !(old && f.epoch == s.rmo.epoch.toNat)).map (·.node)

/-- Whether a page lies in a MOVE handoff that has not ended (R365). -/
def State.handing (s : State) (job ctx stream page : Nat) : Bool :=
  s.cmp.hand.elim false fun h => h.move && h.job == job && h.ctx == ctx &&
    h.ranges.any fun r => r.1 == stream && decide (r.2.1 ≤ page) && decide (page < r.2.1 + r.2.2)

/-! ### Use of topsoil -/

/-- What a context holds beside its frames: its root, its tables with their parity maps and its grain chunks, and its silt lines (R98, R414), as
(NPA, bytes). -/
def Ctx.areas (k : Ctx) : List (Nat × Nat) :=
  (k.root, 64 + 32 * k.streams.length) :: (k.streams.map fun x =>
    let line := 64 + 64 * (x.2.toks.head?.elim 0 fun t => (slotBytes x.2 t).length)
    (x.2.l1, 8192) :: (x.2.siltAt, line) :: (x.2.l2.map fun e => (e.2, 8192)) ++ (x.2.l3.map fun e => [(e.2.next, 16384), (e.2.grains, 32768)]).flatten).flatten

/-- Bytes of topsoil that a segment takes. -/
def segBytes (skb vfmt dim : Nat) (g : SegSpec) : Nat :=
  (if g.tier = 0 then g.cap * (sketchBits skb / 8) else 0) + g.cap * strideOf dim vfmt + (g.cap + 7) / 8

/-- Bytes of topsoil that a composition's corpora take. -/
def State.corpusBytes (s : State) (c : Nat) : Nat :=
  ((s.rq.corpora.filter fun k => k.comp == c).map fun k =>
    (k.segs.map fun g => segBytes k.skb k.vfmt k.dim { cap := g.cap, tier := g.tier, ways := g.ways }).sum).sum

/-- The weight groups of a composition's models that lie in topsoil, in bytes (R253, R257). -/
def State.weightBytes (s : State) (c : Nat) : Nat :=
  ((s.sec.models.filter fun m => m.2.2.1 == c).map fun m => ((List.range s.layers).map fun l => ((List.range 65536).map fun g =>
    let e := s.cat m.1 l g
    if e.valid && e.tier == 0 then up64 e.len else 0).sum).sum).sum

/-- Bytes of topsoil that a composition takes (R253): its frames, in whole sectors (R68), its share pool, its parity frames (R415), the roots,
tables, grain chunks and silt lines of its contexts, its corpora and its weight groups. -/
def State.topsoil (s : State) (c : Nat) : Nat :=
  let size (d : Desc) : Nat := if d.valid && !d.borrowed && d.tier == 0 then sectors (64 * d.clen) * 512 else 0
  let ks := s.pg.ctxs.filter fun x => x.comp == c
  let pages := ks.map fun x => (x.streams.map fun y => (y.2.pages.map fun p => size p.desc).sum).sum
  let areas := ks.map fun x => (x.areas.map fun a => if isHbm a.1 then a.2 else 0).sum
  let pool := (s.pg.pool.filter fun p => p.2.comp == c).map fun p => size p.2.desc + 16
  let par := match s.ringCfg c with
    | some g => s.parityArea c * (128 + g.plen)
    | none => 0
  pages.sum + areas.sum + pool.sum + par + s.corpusBytes c + s.weightBytes c

/-- Whether a composition's topsoil use lies above so many percent of its bytes (R253). -/
def State.useAbove (s : State) (c pct : Nat) : Bool := decide (pct * s.compBytes c < 100 * s.topsoil c)

/-- Whether it lies below them (R253, R254). -/
def State.useBelow (s : State) (c pct : Nat) : Bool := decide (100 * s.topsoil c < pct * s.compBytes c)

/-! ### Sealing (R94) -/

/-- Whether packing is in force for a composition: PD 0x3211.CC as of the last step boundary (R196). -/
def State.packing (s : State) (c : Nat) : Bool :=
  match (s.comp? c).bind (·.packNext) with
  | some b => !b
  | none => s.pdBool 0x3211 c

/-- Steps 1 to 7 of R94 for 16 tokens of a stream, as page `page`: the descriptor and grain to be written. -/
def State.sealInto (s : State) (c job ctx seed stream page : Nat) (x : Strm) (toks : List Token) (tomb spin tpin : Bool) :
    Page × State :=
  let (pts, sat) := sealTokens x.kfmt x.vfmt x.scale x.dk x.dv x.latent toks
  let raw := rawPage x.kfmt x.vfmt x.scale x.latent pts
  let (packed, bytes) := storedForm (pageRegions x.kfmt x.vfmt x.scale x.dk x.dv x.latent) raw (s.pdNum 0x3202 0) (s.packing c)
  let (sketch, nmax, spread) := grainOf seed stream (pts.map (pageK x.kfmt x.scale))
  let (key, s) := s.allocFrame c page raw.length pts
  let f := lookD s.pg.frames key ⟨0, 0, 1, [], 0, c, 0, false⟩
  let desc : Desc :=
    { Desc.empty with node := s.nodeId, addr := f.npa / 16, gen := f.gen, clen := bytes.length / 64, refc := 1, valid := true,
                      packed, tomb, spin, tpin, frame := key }
  let s := s.store f.npa bytes
  let (pm, s) := s.contribute c job ctx stream page key f.gen 0 raw
  let s := (((s.countC c 0x3204 4 1).countC c 0x3210 2 raw.length).countC c 0x3210 3 bytes.length).countC c 0x3210 4 sat
  let s := if packed then s.countC c 0x3204 5 1 else s
  ({ desc, grain := { sketch, nmax, spread, tomb, gen := f.gen, page, stream }, pmap := pm.getD .none }, s)

/-- The page of committed tokens that a stream would seal next, with its tokens: full, and not yet sealed (R93). -/
def Strm.nextSeal (x : Strm) : Option (Nat × List Token) :=
  let p := x.pages.length
  if 16 * p + 16 ≤ x.base + x.commit ∧ x.base ≤ 16 * p then some (p, (x.toks.drop (16 * p - x.base)).take 16) else none

/-- Seal the next page of a stream, if its tables stand; it does not count yet. Its directory copies go to the partner (R409). -/
def State.sealNext (s : State) (job ctx stream : Nat) : State :=
  match s.ctx? job ctx with
  | none => s
  | some k =>
    match k.strm? stream with
    | none => s
    | some x =>
      match if s.sealHeld k stream x then none else x.nextSeal with
      | none => s
      | some (p, toks) =>
        let (pg, s) := s.sealInto k.comp job ctx k.seed stream p x toks false false false
        let (y, s) := s.growTables k.comp x p
        let s := s.setStrm job ctx stream fun x => { x with pages := x.pages ++ [pg], l2 := y.l2, l3 := y.l3 }
        let s := s.writePage job ctx stream p
        let (n, s) := s.draw
        (s.sendMirror k.comp (pg.desc.toBytes ++ pg.grain.toBytes) (.mirror n) false s.nextStep).2

/-- Requests dispatched and not complete. -/
def State.dispatched (s : State) : List Nat :=
  (s.rq.reqs.filter fun r => r.secs.any (·.running)).map (·.id) ++ (s.rq.searches.filter (·.running)).map (·.id)

/-- The written pages of a stream count in PAGES (R93, R94); their tokens are released when every request dispatched before
has completed. -/
def State.countPages (s : State) (job ctx stream : Nat) : State :=
  let ids := s.dispatched
  let s := s.setStrm job ctx stream fun x =>
    { x with npages := max x.npages x.pages.length,
             rel := x.rel ++ (List.range (x.pages.length - x.npages)).map fun i => { page := x.npages + i, reqs := ids } }
  s.writeEntry job ctx stream

/-- Release the oldest sealed page's tokens from the line, once no request dispatched before its count is left (R94). -/
def State.releaseOne (s : State) (job ctx stream : Nat) : State :=
  match s.strm? job ctx stream with
  | none => s
  | some x =>
    match x.rel with
    | [] => s
    | r :: rest =>
      if r.reqs.any fun id => s.dispatched.contains id then s
      else
        let s := s.setStrm job ctx stream fun x =>
          { x with base := x.base + 16, toks := x.toks.drop 16, commit := x.commit - 16, born := x.born.drop 16, rel := rest }
        s.writeSilt job ctx stream

/-- Release everything of a stream that can be released. -/
def State.releaseAll (s : State) (job ctx stream : Nat) : State :=
  (List.range 4).foldl (fun s _ => s.releaseOne job ctx stream) s

/-- A frame's bytes as stored: packed or raw (R185). -/
def storedBytes (x : Strm) (packed : Bool) (toks : List Token) : List Byte :=
  let raw := rawPage x.kfmt x.vfmt x.scale x.latent toks
  if packed then packPage (pageRegions x.kfmt x.vfmt x.scale x.dk x.dv x.latent) raw else raw

/-! ### Sharing and deletion (R95 to R98) -/

/-- Put a share-pool entry: its 16-byte descriptor goes to its place in one write (R79, R96). -/
def State.putPool (s : State) (key : Nat) (e : Pool) : State :=
  (s.setPg fun g => { g with pool := put g.pool key e }).store e.npa e.desc.toBytes

/-- Take a share-pool entry out: what it took of topsoil is free from the next step boundary on (R81, R98). -/
def State.dropPool (s : State) (key : Nat) : State :=
  s.setPg fun g => { g with pool := drop g.pool key, gone := g.gone ++ ((look g.pool key).map fun e => (e.npa, 16)).toList }

/-- Drop one reference to a pool entry; at 0 the frame and the entry are freed (R97, R98). -/
def State.dropRef (s : State) (pool : Nat) : State :=
  match look s.pg.pool pool with
  | none => s
  | some p =>
    if p.desc.refc ≤ 1 then (s.freeFrameKey p.desc.frame).dropPool pool
    else s.putPool pool { p with desc := { p.desc with refc := p.desc.refc - 1 } }

/-- Free what a descriptor holds: its frame, or its reference (R98). -/
def State.freeDesc (s : State) (d : Desc) : State :=
  if !d.valid then s else if d.borrowed then s.dropRef d.frame else s.freeFrameKey d.frame

/-- Remove a context (R98): from the directory at once, its references and frames, its forward entries; its tables, chunks and silt
lines are free from the next step boundary on (R81). -/
def State.removeCtx (s : State) (job ctx : Nat) : State :=
  match s.ctx? job ctx with
  | none => s
  | some k =>
    let s := (s.adirRemove 0 (ctxKey job ctx)).unpend fun j c _ _ => j == job && c == ctx
    let s := k.streams.foldl (fun s x => x.2.pages.foldl (fun s p => s.freeDesc p.desc) s) s
    let s := s.setPg fun g => { g with ctxs := g.ctxs.filter fun c => !(c.job == job && c.ctx == ctx),
                                       fwd := g.fwd.filter fun f => !(f.2.job == job && f.2.ctx == ctx), gone := g.gone ++ k.areas }
    { s with tier := { s.tier with recalls := s.tier.recalls.filter fun r => !(r.job == job && r.ctx == ctx),
                                   moves := s.tier.moves.filter fun m => !(m.job == job && m.ctx == ctx),
                                   attended := s.tier.attended.filter fun a => !(a.1 == job && a.2.1 == ctx) } }

end Sys2Proof.Machine
end

