-- ==== Sys2Proof/Machine/Recall.lean ====
section
/-! DEFINITION. Where pages, tables and grains lie outside topsoil, and the recalls that bring them back (R237, R241, R249 to R252). -/

namespace Sys2Proof.Machine

/-! ### Places -/

/-- The page of a stream. -/
def State.page? (s : State) (job ctx stream page : Nat) : Option Page := (s.strm? job ctx stream).bind fun x => x.pages[page]?

/-- The descriptor that places a page, whether or not it is valid. -/
def State.homeOf (s : State) (p : Page) : Desc :=
  if p.desc.borrowed then (look s.pg.pool p.desc.frame).elim p.desc (·.desc) else p.desc

/-- Extent and chunk of a hardpan address (R237). -/
def extentOf (npa : Nat) : Nat × Nat := (bitsOf npa 21 26, bitsOf npa 14 7)

/-- Bytes that the body of one record holds at most: 1,022 units of 16 B (R237). -/
def recordMost : Nat := 16352

/-- The records, one to a chunk, that a body takes (R237): one longer than a record goes on in the next chunks; log entry 148. -/
def recordCount (len : Nat) : Nat := max 1 ((len + recordMost - 1) / recordMost)

/-- Whether one of so many chunks from a hardpan address on cannot be read (R241). -/
def State.chunksBad (s : State) (npa n : Nat) : Bool :=
  let first := bitsOf npa 14 33
  s.tier.chunks.any fun k => k.bad && decide (k.chunk < 128) && decide (first ≤ 128 * k.extent + k.chunk)
    && decide (128 * k.extent + k.chunk < first + n)

/-- Whether a page's record lies in a chunk that cannot be read (R241). -/
def State.unreadable (s : State) (d : Desc) : Bool := d.tier == 2 && s.chunksBad (16 * d.addr) (recordCount (64 * d.clen))

/-- Whether a record of a table or grain chunk of a stream cannot be read: it stays absent (R262). -/
def State.tablesLost (s : State) (x : Strm) : Bool :=
  let gone (a n : Nat) : Bool := !isHbm a && s.chunksBad a n
  gone x.l1 1 || x.l2.any (fun e => gone e.2 1) || x.l3.any fun e => gone e.2.next 1 || gone e.2.grains 4

/-- Whether a stream of a context is in topsoil as far as dormancy goes (R252): its tables, grains and pages, but for what cannot be read,
whose requests end with INTEGRITY (R262). -/
def State.resident (s : State) (k : Ctx) (stream : Nat) : Bool :=
  !k.dormant || (k.strm? stream).elim true fun x =>
    s.tablesLost x || (x.tablesHere && x.grainsHere && x.pages.all fun p => p.desc.borrowed || p.desc.tier != 2 || s.unreadable p.desc)

/-! ### Recalls (R249, R250, R252) -/

/-- The pages of a range that are not in topsoil: (page, tier, stored bytes). -/
def State.away (s : State) (x : Strm) (first count : Nat) : List (Nat × Nat × Nat) :=
  x.pages.zipIdx.filterMap fun p =>
    let d := s.homeOf p.1
    if first ≤ p.2 ∧ p.2 < first + count ∧ d.valid = true ∧ d.tier ≠ 0 then some (p.2, d.tier, 64 * d.clen) else none

/-- The pages that going dormant writes to hardpan, as `away` lists them (R251). -/
def Strm.leaves (x : Strm) : List (Nat × Nat × Nat) :=
  x.pages.zipIdx.filterMap fun p => if p.1.desc.valid && !p.1.desc.borrowed then some (p.2, 2, 64 * p.1.desc.clen) else none

/-- Bytes of the tables and grain chunks of a stream that are not in topsoil, or of all of them (R251). -/
def Strm.tableBytes (x : Strm) (all : Bool) : Nat :=
  let far (a : Nat) : Bool := all || !isHbm a
  8192 * ((if far x.l1 then 1 else 0) + (x.l2.filter fun e => far e.2).length + (x.l3.filter fun e => far e.2.next).length)
    + 32768 * (x.l3.filter fun e => far e.2.grains).length

/-- The predicted time of a recall in ticks (R250): of pages, as `away` lists them, and of `more` bytes in hardpan beside them. -/
def State.recallTicks (s : State) (comp : Nat) (ps : List (Nat × Nat × Nat)) (more : Nat) : Nat :=
  let tier := if more ≠ 0 || ps.any fun p => p.2.1 == 2 then 2 else 1
  ticksUp ((if tier = 2 then 120000 else 4000) + atRate (((ps.map fun p => p.2.2).sum + more : Nat) : Rat) (s.srcRate comp tier).2)

/-- The Phase of a count of ticks, the inverse of T of R202. -/
def State.phaseOf (s : State) (n : Nat) : Phase :=
  let p := max 1 s.period
  let l := max 1 s.layers
  mkPhase (n / (p * l)) (n / p % l) (n % p)

/-- The Phase at which a recall of a predicted time starts: READY less that time, or now (R250), compared as R28 says. DESIGN CHOICE (log
entry 164): the time taken off READY is the predicted ticks themselves, not rounded up to whole steps. -/
def State.recallAt (s : State) (ticks : Nat) (ready : Option Phase) : Phase :=
  let now := s.tickOf s.phase
  s.phaseOf (now + (ready.elim 0 fun p => (s.ticksTo now (s.tickOf p) - ticks).toNat))

/-- Schedule a recall of a part of a stream. Where one of the stream as a whole waits already, that one tells the hint entry too. -/
def State.addRecall (s : State) (k : Ctx) (stream first count : Nat) (part : RPart) (whole : Bool) (start : Phase) (ready : Option Phase)
    (tells : List (Nat × Phase)) : State :=
  match k.strm? stream with
  | none => s
  | some _ =>
    let same (r : Recall) : Bool := r.job == k.job && r.ctx == k.ctx && r.stream == some stream && r.whole && r.part == part
    if whole && s.tier.recalls.any same then
      { s with tier := { s.tier with recalls := mapIf same (fun r => { r with tells := r.tells ++ tells }) s.tier.recalls } }
    else
      let r : Recall :=
        { id := s.rq.nextId, comp := k.comp, job := k.job, ctx := k.ctx, stream := some stream, first, count, ready, start, active := false,
          tells, whole, part, bad := [] }
      { s with tier := { s.tier with recalls := s.tier.recalls ++ [r] }, rq := { s.rq with nextId := s.rq.nextId + 1 } }

/-- Recall streams of a dormant context as a whole, in order: of each its tables, then its grains, then its pages (R252). The predicted time
is that of all the streams together (R250); of a context that is going dormant, that of what is being written (R262). -/
def State.recallStreams (s : State) (k : Ctx) (streams : List Nat) (ready : Option Phase) (tells : List (Nat × Phase)) : State :=
  let xs := streams.filterMap k.strm?
  let pages := xs.map fun x => if k.going then x.leaves else s.away x 0 (2 ^ 27)
  let ticks := s.recallTicks k.comp pages.flatten (xs.map fun x => x.tableBytes k.going).sum
  let start := s.recallAt ticks ready
  streams.foldl (fun s n => [RPart.tables, .grains, .pages].foldl (fun (s : State) part =>
    s.addRecall k n 0 (2 ^ 27) part true start ready tells) s) s

/-- Recall a dormant context: the named streams first, then the others in ascending stream number (R252). -/
def State.wake (s : State) (k : Ctx) (named : List Nat) (ready : Option Phase) (tells : List (Nat × Phase)) : State :=
  let all := k.streams.map fun x => k.idOf x.1
  s.recallStreams k (named ++ all.filter fun n => !named.contains n) ready tells

/-- Clear DORMANT of a context whose streams are all resident again (R252). -/
def State.settleDormant (s : State) (job ctx : Nat) : State :=
  match s.ctx? job ctx with
  | none => s
  | some k =>
    if k.dormant && (k.streams.all fun x => s.resident k (k.idOf x.1) && x.2.tablesHere && x.2.grainsHere) then
      let s := s.setCtx job ctx fun k => { k with dormant := false, strTab := 0 }
      let s := match s.ctx? job ctx with
        | some k => s.store k.root k.headerBytes
        | none => s
      s.countC k.comp 0x8050 3 1
    else s

end Sys2Proof.Machine
end

