-- ==== Sys2Proof/Machine/Contexts.lean ====
section
/-! DEFINITION. Context operations (R83 to R103, R108): their checks, the silt buffer, and the meanings of their commands. -/

namespace Sys2Proof.Machine

/-- The status with which a composition that does not serve turns a request away (R360, R370, R397), if it does. -/
def State.compRefusal (s : State) (c : Nat) : Option Status :=
  match s.comp? c with
  | none => some .accessDenied
  | some k =>
    match k.st with
    | .active | .shrinking => none
    | .tearing | .torndown => some (if k.cause = some .removal then .revoked else .faultTorndown)
    | .releasing => some .revoked
    | .free => some .accessDenied

/-- A request that must wait at intake while admission is stopped (R456, R458, R522). -/
def State.hold (s : State) (i : Instr) : State := { s with rq := { s.rq with held := s.rq.held ++ [i] } }

/-- A context operation ends: its completion record and flag word, once the copies that it wrote for the partner are
acknowledged (R108, R409). -/
def State.finishOp (s : State) (src : Source) (env : Envelope) (q : Option Nat) (op : Nat) (st : Status) (comp : Nat)
    (copy : List Byte) : State :=
  let (id, s) := s.draw
  let (n, s) := if copy = [] then (0, s) else s.sendMirror comp copy (.mirror id) false s.nextStep
  if n = 0 then s.endOp src env q op st 0 false
  else s.setPg fun g => { g with acks := g.acks ++ [{ id, left := n, src, env, queue := q, op, st }] }

/-- A directory-mirror message has been acknowledged (R409). -/
def State.mirrorAcked (s : State) (id : Nat) : State :=
  match s.pg.acks.find? fun a => a.id == id with
  | none => s
  | some a =>
    if a.left ≤ 1 then
      (s.setPg fun g => { g with acks := g.acks.filter fun x => x.id != id }).endOp a.src a.env a.queue a.op a.st 0 false
    else s.setPg fun g => { g with acks := mapIf (fun x => x.id == id) (fun x => { x with left := x.left - 1 }) g.acks }

/-- The state that an outcome goes on with. -/
def goesOn (s : State) : Res → State
  | .next s' => s'
  | _ => s

/-! ### Creation (R64, R65, R84, R86) -/

/-- Whether a width satisfies R65 under a SCALE. -/
def widthOk (w scale : Nat) : Bool := decide (16 ≤ w) && decide (w ≤ 576) && w % (if scale = 1 then 32 else 16) == 0

/-- Whether a format code is a page format (R65, R175). -/
def pageFmt (f : Nat) : Bool := decide (1 ≤ f) && decide (f ≤ 9)

/-- The geometry that the arguments of CTX_CREATE give (R84): layers, groups, and the stream as created. -/
def geometry (r : CtxReq) : Nat × Nat × Strm :=
  (bitsOf r.arg0 0 13, bitsOf r.arg0 16 8 + 1,
   { dk := bitsOf r.arg1 0 10, dv := bitsOf r.arg1 16 10, latent := bitAt r.arg1 31, kfmt := bitsOf r.arg2 0 4,
     vfmt := bitsOf r.arg2 4 4, scale := bitsOf r.arg2 8 2, sink := bitsOf r.arg2 16 6, tile := 0, l1 := 0, l2 := [], l3 := [], siltAt := 0,
     npages := 0, pages := [], base := 0, toks := [], commit := 0, born := [], appseq := 0, rel := [], heat := [] })

/-- Whether a geometry satisfies R64, R65 and R176. -/
def geometryOk (layers : Nat) (x : Strm) : Bool :=
  decide (1 ≤ layers) && decide (layers ≤ 4096) && x.scale != 3 && widthOk x.dk x.scale && widthOk x.dv x.scale
    && (!x.latent || decide (x.dv ≤ x.dk)) && pageFmt x.kfmt && pageFmt x.vfmt && fmtClass x.kfmt == fmtClass x.vfmt
    && (fmtClass x.kfmt != 2 || x.scale == 0)

/-- Streams of a new context, each with its tile (R86) and its places. -/
def State.newStreams (s : State) (comp n : Nat) (f : Nat → Strm) : Assoc Strm × State :=
  let tiles := tileList (s.compTiles comp)
  let pcs := s.allocPcs comp
  let pc := pcs.headD 0
  let at_ (i k : Nat) : Nat := pc * 2 ^ 30 + Config.freeAddr (s.free + 2 * i + k) % 131072 * 8192
  ((List.range n).map fun i => (i, { f i with tile := tiles.getD (i % max 1 tiles.length) 0, l1 := at_ i 0, siltAt := at_ i 1 }),
   { s with free := s.free + 2 * n })

/-- The tables of the pages of new streams. -/
def State.growStreams (s : State) (comp : Nat) : Assoc Strm → Assoc Strm × State
  | [] => ([], s)
  | (i, x) :: xs =>
    let (x, s) := s.growAll comp x x.pages.length
    let (xs, s) := s.growStreams comp xs
    ((i, x) :: xs, s)

/-- Enter a new context in the store and in the associative directory (R84, R222). -/
def State.enterCtx (s : State) (k : Ctx) : State :=
  let s := (s.setPg fun g => { g with ctxs := g.ctxs ++ [k] }).writeCtx k
  s.adirInsert 0 (ctxKey k.job k.ctx) [BitVec.ofNat 64 (fieldAt (k.root / 64) 46 6 + fieldAt k.comp 4 0)]

/-- CTX_CREATE on an admitted request (R64, R65, R73, R84, R86). It needs a free entry of the associative directory: the spec states
no outcome without one, and the model refuses it with UNSUPPORTED; log entry 130. -/
def State.ctxCreate (s : State) (job comp : Nat) (r : CtxReq) : Status × State × List Byte :=
  let (layers, groups, x) := geometry r
  if (s.ctx? job r.ctx).isSome ∨ (s.rq.corpora.any fun c => c.job == job && c.ctx == r.ctx && !c.dead) ∨ !geometryOk layers x
      ∨ !((s.allocPcs comp).any isW) ∨ (s.adirBest 0).isNone ∨ s.keyTaken 0 (ctxKey job r.ctx) then
    (.unsupported, s, [])
  else
    let (root, s) := s.place ((s.allocPcs comp).headD 0) 64
    let (streams, s) := s.newStreams comp (layers * groups) fun _ => x
    let k : Ctx := { ctx := r.ctx, job, comp, layers, groups, retiring := false, dormant := false, seed := r.arg3 % 2 ^ 32, root,
                     streams, going := false, strTab := 0 }
    (.ok, s.enterCtx k, k.rootBytes)

/-! ### Fork (R95, R96) -/

/-- A token at a position of a stream, as a silt slot holds it: from the silt while held, else from its page (R95). -/
def State.tokenAt (s : State) (x : Strm) (pos : Nat) : Option Token :=
  if x.base ≤ pos then x.toks[pos - x.base]?
  else ((x.pages[pos / 16]?).bind fun p => s.frameOf p.desc).bind fun f =>
    (f.2.toks[pos % 16]?).map (unsealToken x.kfmt x.vfmt x.scale)

/-- Whether a page is present: VALID, and its generations agree (R82, R95). -/
def State.pageHere (s : State) (p : Page) : Bool := ((s.resolve p.desc).elim false fun d => d.gen == p.desc.gen) && p.grain.gen == p.desc.gen

/-- The first page of those that a fork shares or copies from which is absent (R82, R95): stream, page, the generation sought and the one
found. -/
def State.absentPage (s : State) (k : Ctx) (t : Nat) : Option (Nat × Nat × Nat × Nat) :=
  k.streams.findSome? fun x =>
    let n := t / 16 + if t % 16 ≠ 0 ∧ 16 * (t / 16) < x.2.base then 1 else 0
    ((List.range n).find? fun i => !((x.2.pages[i]?).elim false s.pageHere)).map fun i =>
      (k.idOf x.1, i, (x.2.pages[i]?).elim 0 (·.desc.gen), (x.2.pages[i]?).elim 0 (·.grain.gen))

/-- Why a fork is refused (R95), if it is. -/
def State.forkRefusal (s : State) (src : Source) (job comp : Nat) (r : CtxReq) : Option Status :=
  let t := r.arg1
  let corpus (c : Nat) : Bool := s.rq.corpora.any fun x => x.job == job && x.ctx == c && !x.dead
  match s.namedCtx job comp r.arg0 with
  | .inl st => some (if (s.ctx? job r.ctx).isSome || corpus r.ctx then .unsupported else st)
  | .inr k =>
    let n := t / 16
    let xs := k.streams
    let borrowed (p : Page) : Bool := p.desc.borrowed
    let fresh := (xs.map fun x => ((x.2.pages.take n).filter fun p => !borrowed p).length).sum
    let full := xs.any fun x => (x.2.pages.take n).any fun p =>
      borrowed p && (look s.pg.pool p.desc.frame).elim false fun e => decide (65535 ≤ e.desc.refc)
    let used := (s.pg.pool.filter fun p => p.2.comp == comp).length
    let absent := xs.any fun x =>
      decide (x.2.pages.length < n) || (x.2.pages.take n).any (fun p => !s.pageHere p) ||
        (List.range (t % 16)).any fun i => decide (16 * n + i < x.2.base) && !((x.2.pages[n]?).elim false s.pageHere)
    let moved := xs.any fun x => (List.range n).any fun p => (s.movedTo src k.job k.ctx (k.idOf x.1) p).isSome
    if (s.ctx? job r.ctx).isSome || corpus r.ctx || s.keyTaken 0 (ctxKey job r.ctx) then some .unsupported
    else if moved then some .moved
    else if xs.any fun x => decide (x.2.base + x.2.commit < t) then some .unsupported
    else if full ∨ s.pdNum 0x3201 comp < used + fresh ∨ (s.adirBest 0).isNone then some .unsupported
    else if absent then some .staleGen
    else none

/-- Share one page with a child (R95, R96): its descriptor moves into the pool when it is first shared. The child's page, and
the parent's. -/
def State.sharePage (s : State) (comp : Nat) (p : Page) : Page × Page × State :=
  let child (key addr : Nat) : Page :=
    { p with desc := { Desc.empty with gen := p.desc.gen, valid := true, borrowed := true, tomb := p.desc.tomb,
                                       spin := p.desc.spin, addr, frame := key }, pmap := .none }
  if p.desc.borrowed then
    let s := match look s.pg.pool p.desc.frame with
      | some e => s.putPool p.desc.frame { e with desc := { e.desc with refc := e.desc.refc + 1 } }
      | none => s
    (child p.desc.frame p.desc.addr, p, s)
  else
    let key := s.pg.nextKey
    let (npa, s) := s.place ((s.allocPcs comp).headD 0) 16
    let s := (s.setPg fun g => { g with nextKey := key + 1 }).putPool key
      { comp, npa, desc := { p.desc with refc := 2, tomb := false, spin := false } }
    let b := child key (npa / 16)
    (b, { b with pmap := p.pmap }, s)

/-- Share the pages of a list in order. -/
def State.sharePages (s : State) (comp : Nat) : List Page → List Page × List Page × State
  | [] => ([], [], s)
  | p :: ps =>
    let (c, p, s) := s.sharePage comp p
    let (cs, ps, s) := s.sharePages comp ps
    (c :: cs, p :: ps, s)

/-- Fork the streams of a list of a parent (R95). -/
def State.forkStreams (s : State) (job parent comp t : Nat) (pk : Ctx) : Assoc Strm → Assoc Strm × State
  | [] => ([], s)
  | (i, x) :: rest =>
    let n := t / 16
    let toks := (List.range (t % 16)).filterMap fun j => s.tokenAt x (16 * n + j)
    let (cs, ps, s) := s.sharePages comp (x.pages.take n)
    let s := s.setStrm job parent (pk.idOf i) fun y => { y with pages := ps ++ y.pages.drop n }
    let s := (List.range n).foldl (fun (s : State) p => s.writePage job parent (pk.idOf i) p) s
    let (out, s) := s.forkStreams job parent comp t pk rest
    ((i, { x with npages := n, pages := cs, base := 16 * n, toks, commit := toks.length, born := toks.map (fun _ => s.timer), appseq := 0, rel := [], l2 := [], l3 := [], heat := [] }) :: out, s)

/-- CTX_FORK on an admitted request (R95). -/
def State.ctxFork (s : State) (src : Source) (job comp : Nat) (r : CtxReq) : Status × State × List Byte :=
  match s.forkRefusal src job comp r, s.ctx? job r.arg0 with
  | some .staleGen, some k =>
    match s.absentPage k r.arg1 with
    | some (stream, page, want, got) => (.staleGen, s.genMismatch job r.arg0 stream page want got, [])
    | none => (.staleGen, s, [])
  | some st, _ => (st, s, [])
  | none, none => (.staleGen, s, [])
  | none, some k =>
    let (root, s) := s.place ((s.allocPcs comp).headD 0) 64
    let (shared, s) := s.forkStreams job r.arg0 comp r.arg1 k k.streams
    let (places, s) := s.newStreams comp (k.layers * k.groups) fun i =>
      lookD shared i (geometry r).2.2
    let (places, s) := s.growStreams comp places
    let c : Ctx := { k with ctx := r.ctx, retiring := false, dormant := false, root, streams := places, going := false }
    (.ok, s.enterCtx c, c.rootBytes)

/-! ### Marks and rewrites (R97, R99) -/

/-- PAGE_MARK on an admitted request (R84, R99). -/
def State.pageMark (s : State) (src : Source) (k : Ctx) (r : CtxReq) : Status × State × List Byte :=
  match k.strm? r.stream with
  | none => (.unsupported, s, [])
  | some x =>
    let pages := (List.range r.arg1).map (r.arg0 + ·)
    if r.arg1 < 1 ∨ 512 < r.arg1 ∨ 2 ^ 27 ≤ r.arg0 ∨ x.npages < r.arg0 + r.arg1 then (.unsupported, s, [])
    else if pages.any fun p => (s.movedTo src k.job k.ctx r.stream p).isSome then (.moved, s, [])
    else if pages.any fun p => s.handing k.job k.ctx r.stream p then (.busyConflict, s, [])
    else
      let bit (i : Nat) (b : Bool) : Bool := if bitAt r.arg2 (8 + i) then false else if bitAt r.arg2 i then true else b
      let f (p : Page) : Page :=
        { p with desc := { p.desc with tomb := bit 0 p.desc.tomb, spin := bit 1 p.desc.spin },
                 grain := { p.grain with tomb := bit 0 p.grain.tomb } }
      let s := s.setStrm k.job k.ctx r.stream fun x =>
        { x with pages := x.pages.zipIdx.map fun p => if r.arg0 ≤ p.2 ∧ p.2 < r.arg0 + r.arg1 then f p.1 else p.1 }
      let s := pages.foldl (fun (s : State) p => s.writePage k.job k.ctx r.stream p) s
      (.ok, s, ((((x.pages.drop r.arg0).take r.arg1).map f).map fun p => p.desc.toBytes).flatten)

/-- Put 16 tokens in the place of a page (R97): a new frame, the slot as an ordinary descriptor that keeps TOMB, SPIN and TPIN,
and the old frame or reference given up. -/
def State.replacePage (s : State) (k : Ctx) (stream page : Nat) (x : Strm) (old : Page) (toks : List Token) (tomb spin : Bool) :
    Page × State :=
  let tpin := if old.desc.borrowed then (look s.pg.pool old.desc.frame).elim false (·.desc.tpin) else old.desc.tpin
  let (pg, s) := s.sealInto k.comp k.job k.ctx k.seed stream page x toks tomb spin tpin
  let s := (s.freeDesc old.desc).unpend fun j c x g => (j, c, x, g) == (k.job, k.ctx, stream, page)
  (pg, s.setPage k.job k.ctx stream page fun _ => pg)

/-- PAGE_REWRITE on an admitted request (R82, R97). -/
def State.pageRewrite (s : State) (src : Source) (k : Ctx) (r : CtxReq) : Status × State × List Byte :=
  match k.strm? r.stream with
  | none => (.unsupported, s, [])
  | some x =>
    match x.pages[r.arg0]? with
    | none => (.unsupported, s, [])
    | some old =>
      let gen := if old.desc.borrowed then (look s.pg.pool old.desc.frame).elim 0 (·.desc.gen) else old.desc.gen
      if x.npages ≤ r.arg0 ∨ r.toks.length ≠ 16 then (.unsupported, s, [])
      else if (s.movedTo src k.job k.ctx r.stream r.arg0).isSome then (.moved, s, [])
      else if s.handing k.job k.ctx r.stream r.arg0 then (.busyConflict, s, [])
      else if old.desc.valid ∧ r.arg1 % 4096 ≠ gen then
        (.staleGen, s.genMismatch k.job k.ctx r.stream r.arg0 (r.arg1 % 4096) gen, [])
      else
        let (pg, s) := s.replacePage k r.stream r.arg0 x old r.toks old.desc.tomb old.desc.spin
        (.ok, s, pg.desc.toBytes ++ pg.grain.toBytes)

/-! ### Appends (R88 to R90) -/

/-- TENT of an append (R84). -/
def tentOf (r : CtxReq) : Bool := bitAt r.flags 0

/-- SV of an append (R84). -/
def svOf (r : CtxReq) : Bool := bitAt r.flags 1

/-- Step 2 of R88: what the settle leaves of a line, or none where SETTLE is refused. -/
def Strm.settle (x : Strm) (sv : Bool) (at_ : Nat) : Option Strm :=
  if !sv then some x
  else if x.base + x.toks.length < at_ then none
  else
    let keep := max x.commit (at_ - x.base)
    some { x with toks := x.toks.take keep, commit := min keep x.toks.length }

/-- The checks of R88 in order: the status that ends the append without effect, or the stream after the append. -/
def Strm.append (x : Strm) (r : CtxReq) : Status ⊕ Strm :=
  if r.arg3 ≤ x.appseq then .inl .duplicate
  else if x.appseq + 1 < r.arg3 then .inl .unsupported
  else
    match x.settle (svOf r) r.arg1 with
    | none => .inl .unsupported
    | some y =>
      let tents := y.toks.length - y.commit
      if r.arg0 ≠ y.base + y.toks.length ∨ 32 < r.count ∨ r.toks.length ≠ r.count then .inl .unsupported
      else if tentOf r ∧ 32 < tents + r.count then .inl .unsupported
      else if !tentOf r ∧ 0 < r.count ∧ 0 < tents then .inl .unsupported
      else if 32 < tents + (if tentOf r then r.count else 0) then .inl .unsupported
      else
        let toks := y.toks ++ r.toks
        .inr { y with toks, commit := if tentOf r then y.commit else y.commit + r.count, appseq := r.arg3 }

/-- Complete an append (R90, R108): its record carries APPSEQ. One that completes past its deadline, or past the bound of the slot that
admitted it, is a breach (R54, R55, R59); its time counts for α (R58). -/
def State.endAppend (s : State) (p : PendOp) (st : Status) (seq : Nat) : State :=
  let (job, comp) := s.sourceOf p.src
  let done := st == .ok || st == .contractBreach
  let (late, s) :=
    if done then s.lateBreach p.src p.req.env p.queue job comp 3 p.slot (if p.late then some 2 else p.breach) p.limit else (false, s)
  let st := if late then .contractBreach else st
  let s := s.endOp p.src p.req.env p.queue 4 st seq (p.slot.isSome && !late)
  let s := match p.slot with
    | some n => s.donePlace n p.arrive
    | none => s
  if done then s.ratio 3 p.since p.formula else s

/-- The status of an append whose tokens are applied (R54, R89). -/
def PendOp.status (p : PendOp) : Status := if p.late || p.slot.isNone then .contractBreach else .ok

/-- The settle of an append takes effect, with the local time of each newly committed token (R88 step 2, R93). -/
def Strm.aged (x' : Strm) (now : Nat) : Strm := { x' with born := x'.born.take x'.commit ++ List.replicate (x'.commit - x'.born.length) now }

/-- Put an append into effect and send its mirror write; it completes at once where nothing mirrors it (R90, R91). A copy that finds no
queue to leave by waits for one. PD 0x3204.02 counts the appends that an emergency seal preceded; log entry 131. -/
def State.applyAppend (s : State) (k : Ctx) (x' : Strm) (p : PendOp) : State :=
  let now := s.timer
  let s := s.setStrm k.job k.ctx p.req.stream fun _ => x'.aged now
  let s := s.writeSilt k.job k.ctx p.req.stream
  let s := if p.late then
      (s.countC k.comp 0x3204 2 1).breach 2 p.slot 3 k.comp 0 k.job (sourceNode s p.src) p.req.env.tag.toNat
    else s
  if s.mirrors k.comp then
    let due := if p.req.env.dl then p.req.env.deadline else s.nextStep
    let bytes := x'.siltHeader k.ctx p.req.stream ++ (p.req.toks.map (slotBytes x')).flatten
    let (id, s) := s.draw
    let (n, s) := s.sendMirror k.comp bytes (.append id) (p.slot.isSome && !p.late) due
    s.setPg fun g => { g with mirr := g.mirr ++ [{ id, comp := k.comp, ctx := k.ctx, stream := p.req.stream, op := p, bytes,
                                                   left := n, sent := n != 0 }] }
  else s.endAppend p p.status x'.appseq

/-- A message of a mirror write has been acknowledged (R90). -/
def State.appendAcked (s : State) (id : Nat) : State :=
  s.setPg fun g => { g with mirr := mapIf (fun x => x.id == id) (fun x => { x with left := x.left - 1 }) g.mirr }

/-- Whether a request that runs sees a token that a settle would discard: the slots are rewritten only after it completes (R103). -/
def State.settleSeen (s : State) (k : Ctx) (x : Strm) (r : CtxReq) : Bool :=
  let from_ := x.base + ((x.settle (svOf r) r.arg1).elim x.toks.length fun y => y.toks.length)
  s.rq.reqs.any fun q => q.job == k.job && q.req.env.ctx == k.ctx && q.secs.any fun z =>
    z.running && z.stream == r.stream && z.snap.elim false fun p => p.silt.any fun t => decide (from_ ≤ t.1)

/-- Run an append at its tile (R88, R89): whether it is done, or waits for the release of sealed tokens. Its settle takes effect before
the emergency seal, which seals what it committed too, and the line is written to its home (R86). A settle waits for the requests that see
the tokens it discards (R103). A seal whose stream's tables lie in hardpan waits for their recall (R262). -/
def State.runAppend (s : State) (k : Ctx) (p : PendOp) : Bool × State :=
  match k.strm? p.req.stream with
  | none => (true, s.endAppend p .unsupported 0)
  | some x =>
    match x.append p.req with
    | .inl st =>
      let s := if st = .duplicate then s.countC k.comp 0x3204 3 1 else s
      (true, s.endAppend p st (if st = .duplicate then x.appseq else 0))
    | .inr x' =>
      if s.settleSeen k x p.req then (false, s.setPg fun g => { g with opq := p :: g.opq })
      else if x'.toks.length ≤ 64 then (true, s.applyAppend k x' p)
      else if sealWaits k x then
        (false, (s.recallStreams k [p.req.stream] none []).setPg fun g => { g with opq := p :: g.opq })
      else
        let y := ((x.settle (svOf p.req) p.req.arg1).getD x).aged s.timer
        let s := (s.setStrm k.job k.ctx p.req.stream fun _ => y).writeSilt k.job k.ctx p.req.stream
        let s := (List.range 4).foldl (fun s _ => s.sealNext k.job k.ctx p.req.stream) s
        let s := (s.countPages k.job k.ctx p.req.stream).releaseAll k.job k.ctx p.req.stream
        let p := { p with late := true }
        match (s.strm? k.job k.ctx p.req.stream).map (fun x : Strm => x.append p.req) with
        | some (.inr x') =>
          if x'.toks.length ≤ 64 then (true, s.applyAppend k x' p)
          else (false, s.setPg fun g => { g with opq := p :: g.opq })
        | _ => (true, s)

/-! ### Arrival -/

/-- What goes to the partner when a context is deleted, whose mirror is freed with it (R98, R409): a root and silt headers that hold nothing.
DESIGN CHOICE: log entry 163. -/
def Ctx.clearedBytes (k : Ctx) : List Byte := List.replicate (64 * (k.streams.length + 1)) 0


/-- An operation that acts on one stream, through its tile (R85). -/
def onStream (op : Nat) : Bool := op == 4 || op == 5 || op == 6

/-- Bytes of a part of a token slot, which is padded to 16 B (R87). -/
def up16 (n : Nat) : Nat := (n + 15) / 16 * 16

/-- A row of a token slot with its scales, and the bytes that they take (R87); bytes that are not there read as zero (log entry 165). -/
def slotRow (scale code w : Nat) (b : List Byte) : List Nat × List Nat × Nat :=
  let bits := (fmtOf (if scale = 2 then 1 else code)).bits
  let n := w * bits / 8
  let m := if scale = 1 then w / 32 else 0
  (unpackBits bits w (padTo n (b.take n)), (padTo m ((b.drop (up16 n)).take m)).map BitVec.toNat, up16 n + up16 m)

/-- A token record in the slot format of a stream, and its bytes (R87). -/
def tokenOf (x : Strm) (b : List Byte) : Token × Nat :=
  let (k, ks, n) := slotRow x.scale x.kfmt x.dk b
  let (v, vs, m) := if x.latent then ([], [], 0) else slotRow x.scale x.vfmt x.dv (b.drop n)
  ({ k, ks, v, vs }, n + m)

/-- So many token records of a payload. -/
def tokensOf (x : Strm) : Nat → List Byte → List Token
  | 0, _ => []
  | n + 1, b =>
    let (t, len) := tokenOf x b
    t :: tokensOf x n (b.drop len)

/-- The token records of an operation that came as bytes, whose format is that of the stream named (R83, R87). -/
def State.parsed (s : State) (job : Nat) (r : CtxReq) : CtxReq :=
  let n := if r.op = 4 then r.count else if r.op = 6 then 16 else 0
  match r.raw with
  | none => r
  | some b =>
    let toks := (s.strm? job r.ctx r.stream).elim [] fun x => tokensOf x n b
    { r with toks }

/-- Run an operation that its tile has come to: whether it is done (an append may wait, at the head of its tile's queue). -/
def State.runOp (s : State) (p : PendOp) : Bool × State :=
  let (job, comp) := s.sourceOf p.src
  let p := { p with req := s.parsed job p.req }
  let r := p.req
  let s := s.adirStall 0 (ctxKey job (if r.op = 2 then r.arg0 else r.ctx))
  let close (x : Status × State × List Byte) : Bool × State :=
    (true, x.2.1.finishOp p.src r.env p.queue r.op x.1 comp x.2.2)
  if r.op = 1 then close (s.ctxCreate job comp r)
  else if r.op = 2 then close (s.ctxFork p.src job comp r)
  else
    match s.namedCtx job comp r.ctx with
    | .inl st => (true, s.endOp p.src r.env p.queue r.op st 0 false)
    | .inr k =>
      if r.op = 3 then close (.ok, s.removeCtx job r.ctx, k.clearedBytes)
      else if r.op = 4 then s.runAppend k p
      else if r.op = 5 then close (s.pageMark p.src k r)
      else if r.op = 6 then close (s.pageRewrite p.src k r)
      else (true, s.endOp p.src r.env p.queue r.op .unsupported 0 false)

/-- Whether a SILT_FLUSH slot is at work on a tile: no append runs inside its span (R103). -/
def State.flushing (s : State) (tile : Nat) : Bool :=
  s.sch.runs.any fun r => r.started && !r.ended &&
    (s.slots.any fun e => e.1 == r.slot && e.2.opclass == 4 && bitAt e.2.tiles.toNat tile)

/-- Whether an operation acts on a whole context (R95, R98). -/
def PendOp.wide (p : PendOp) : Bool := p.req.op == 2 || p.req.op == 3

/-- The contexts that an operation names. -/
def PendOp.names (p : PendOp) : List Nat := if p.req.op == 2 then [p.req.ctx, p.req.arg0] else [p.req.ctx]

/-- Whether an operation comes after an earlier one that waits: at the same tile, or where either acts on a whole context that both name
(R85, R103). -/
def PendOp.behind (p q : PendOp) : Bool :=
  (decide (p.tile < 48) && p.tile == q.tile) || ((p.wide || q.wide) && p.names.any fun c => q.names.contains c)

/-- Whether the tile may run an append now: outside the span of a flush (R103), once its slot has begun (R53), or in slack where no slot
admitted it (R54, R60). -/
def State.appendTurn (s : State) (p : PendOp) : Bool :=
  !s.flushing p.tile &&
    match p.slot with
    | some n => s.mayWork n p.arrive
    | none => s.bestEffort && s.slack (s.sourceOf p.src).2 3 (BitVec.ofNat 48 (2 ^ p.tile)) (ticksUp p.formula)

/-- An operation with the tile that owns its stream now (R85): a stream that did not stand when the operation arrived may have come since,
by an operation before it. -/
def State.atTile (s : State) (p : PendOp) : PendOp :=
  if onStream p.req.op then
    (s.strm? (s.sourceOf p.src).1 p.req.ctx p.req.stream).elim p fun x => { p with tile := x.tile }
  else p

/-- Whether a waiting operation may run now: a PAGE_REWRITE once every scan dispatched before it has read the grain chunk (R154). -/
def State.opTurn (s : State) (p : PendOp) : Bool :=
  let q := s.atTile p
  !((s.pg.opq.takeWhile fun o => o != p).any fun o => q.behind (s.atTile o)) && (p.req.op != 4 || decide (48 ≤ q.tile) || s.appendTurn q) &&
    (p.req.op != 6 || !s.scanPending (s.sourceOf p.src).1 p.req.ctx p.req.stream p.req.arg0)

/-- Run the operations that wait, in the order of their arrival, each where its turn has come (R85, R89, R103). -/
def State.drainOps (s : State) : State :=
  s.pg.opq.foldl (fun (s : State) p =>
    if s.pg.opq.contains p && s.opTurn p then ((s.setPg fun g => { g with opq := g.opq.erase p }).runOp (s.atTile p)).2 else s) s

/-- A context operation arrives (R84, R85, R105, R128): its reply path, the checks that need no stream, its place in the
contract when it appends (R52), and its turn at the owning tile. `op` is the operation of the command. -/
def State.ctxOp (s : State) (src : Source) (op : Nat) (r : CtxReq) : State :=
  let (job, comp) := s.sourceOf src
  match s.pathOf src comp job r.env.rnode with
  | none => s.noReply comp r.env.rnode
  | some q =>
    let refuse (st : Status) (s : State) : State := s.endOp src r.env q r.op st 0 false
    match s.compRefusal comp with
    | some st => refuse st s
    | none =>
      if r.env.dl ∧ !s.phs.sync then
        refuse .contractBreach (s.breach 10 none (if op = 4 then 3 else 0) comp 0 job (sourceNode s src) r.env.tag.toNat)
      else if r.env.kind ≠ 2 ∨ r.op ≠ op then refuse .unsupported s
      else if !s.epochOk src then refuse .moved s
      else
        let load : Load := { cls := 3, comp, bytes := 64 * r.env.blen }
        let a := if op = 4 then s.admission load (if r.env.dl then some r.env.deadline else none) else ⟨none, none, none, 0⟩
        let limit := a.slot.elim 0 fun n => s.limitOf n load
        let s := match a.slot, a.cause with
          | some n, _ => s.takePlace n load
          | none, some c => s.breach c a.named 3 comp a.late job (sourceNode s src) r.env.tag.toNat
          | none, none => s
        let tile := if onStream op then ((s.strm? job r.ctx r.stream).map (·.tile)).getD 48 else 48
        let (n, h, start) := a.slot.elim (1, 0, 0) s.slotShape
        let p : PendOp := { tile, src, req := r, queue := q, late := false, slot := a.slot, limit, breach := a.cause, arrive := s.phase,
                            since := s.timer + 16 * (start - phTick s.phase), formula := s.boundNs load n h }
        (s.setPg fun g => { g with opq := g.opq ++ [p] }).drainOps

/-- The command of a context operation: nothing before READY; held at intake while admission is stopped. -/
def State.ctxCommand (s : State) (i : Instr) (src : Source) (op : Nat) (r : CtxReq) : State :=
  if !s.ready then s else if s.noAdmission then s.hold i else s.ctxOp src op r

/-- CTX_CREATE (R84, R86). -/
def execCtxCreate (t : Nat) (src : Source) (r : CtxReq) (s : State) : Res :=
  .next ((s.arrive t).ctxCommand (.ctxCreate t src r) src 1 r)

/-- CTX_FORK (R95). -/
def execCtxFork (t : Nat) (src : Source) (r : CtxReq) (s : State) : Res :=
  .next ((s.arrive t).ctxCommand (.ctxFork t src r) src 2 r)

/-- CTX_DELETE (R98). -/
def execCtxDelete (t : Nat) (src : Source) (r : CtxReq) (s : State) : Res :=
  .next ((s.arrive t).ctxCommand (.ctxDelete t src r) src 3 r)

/-- SILT_APPEND (R88, R89). -/
def execSiltAppend (t : Nat) (src : Source) (r : CtxReq) (s : State) : Res :=
  .next ((s.arrive t).ctxCommand (.siltAppend t src r) src 4 r)

/-- PAGE_MARK (R99). -/
def execPageMark (t : Nat) (src : Source) (r : CtxReq) (s : State) : Res :=
  .next ((s.arrive t).ctxCommand (.pageMark t src r) src 5 r)

/-- PAGE_REWRITE (R97). -/
def execPageRewrite (t : Nat) (src : Source) (r : CtxReq) (s : State) : Res :=
  .next ((s.arrive t).ctxCommand (.pageRewrite t src r) src 6 r)

/-- SILT_RELEASE (R94): the oldest sealed page's tokens leave the line once every request dispatched before it counted has
completed. -/
def execSiltRelease (t ctx stream : Nat) (s : State) : Res :=
  let s := s.arrive t
  match s.pg.ctxs.find? fun k => k.ctx == ctx && ((k.strm? stream).elim false fun x => x.rel != []) with
  | none => .next s
  | some k => .next (s.releaseOne k.job ctx stream)

/-- APPEND_AFTER_RELEASE (R89): the append of a stream that waits at its tile goes on once it may, and the operations behind it
follow. -/
def execAppendAfterRelease (t ctx stream : Nat) (s : State) : Res :=
  let s := s.arrive t
  if s.pg.opq.any fun p => p.req.op == 4 && p.req.ctx == ctx && p.req.stream == stream then .next s.drainOps else .next s

/-- SILT_MIRROR_ACK (R90): the mirror write of the stream's oldest append is acknowledged, and the append completes. A copy that has
found no queue leaves now, if one will take it. -/
def execSiltMirrorAck (t ctx stream : Nat) (s : State) : Res :=
  let s := s.arrive t
  match s.pg.mirr.find? fun m => m.ctx == ctx && m.stream == stream with
  | none => .next s
  | some m =>
    if m.sent then
      if m.left ≠ 0 then .next s
      else
        .next ((s.setPg fun g => { g with mirr := g.mirr.filter fun x => x.id != m.id }).endAppend m.op m.op.status m.op.req.arg3)
    else
      let due := if m.op.req.env.dl then m.op.req.env.deadline else s.nextStep
      let (n, s) := s.sendMirror m.comp m.bytes (.append m.id) (m.op.slot.isSome && !m.op.late) due
      .next (s.setPg fun g => { g with mirr := mapIf (fun x => x.id == m.id) (fun x => { x with left := n, sent := n != 0 }) g.mirr })

end Sys2Proof.Machine
end

