-- ==== Sys2Proof/Machine/Sieve.lean ====
section
/-! DEFINITION. The sieve (R134 to R155): query sketches, score bounds, ranking, selection, and the margin. -/

namespace Sys2Proof.Machine

/-! ### Query sketches (R135, R136) -/

/-- The sketch of a query head; one that is not `ok` is unsketchable. -/
structure HeadSketch where
  ok  : Bool
  qsk : Nat
  qn  : BitVec 32
  qsp : Nat
  deriving DecidableEq, Repr

/-- Whether an FP32 value is finite. -/
def finite32 (x : BitVec 32) : Bool := (val32 x).isFin

/-- Whether an FP32 value is a zero. -/
def zero32 (x : BitVec 32) : Bool := x == 0 || x == 0x80000000

/-- The sketch of the rows of one head, in ascending position (R135, R136). -/
def headSketch (seed stream : Nat) (rows : List (List (BitVec 32))) : HeadSketch :=
  let u := sumRows (rows.headD []).length rows
  let bad := rows.any (fun r => r.any fun x => !finite32 x) || u.any (fun x => !finite32 x) || u.all zero32
  if bad then { ok := false, qsk := 0, qn := posInf32, qsp := 255 }
  else
    { ok := true, qsk := sketchOf seed stream u, qn := rows.foldl (fun m r => max32 m (normUp r)) 0,
      qsp := min 255 (rows.foldl (fun m r => if r.all zero32 then m else max m (angleOf r u)) 0) }

/-- The query rows of a section as FP32, exactly (R135). -/
def rows32 (qfmt : Nat) (rows : List (List Nat)) : List (List (BitVec 32)) :=
  rows.map fun r => r.map fun c => (elemVal qfmt false c).to32

/-- The sketches of every query head of a section. -/
def headSketches (seed stream : Nat) (h : AttendHead) (rows : List (List Nat)) : List HeadSketch :=
  let xs := (rows32 h.qfmt rows).zipIdx
  (List.range h.nhead).map fun i => headSketch seed stream ((xs.filter fun x => x.2 % max 1 h.nhead == i).map (·.1))

/-! ### The score bound (R137, R138) -/

/-- COSU of R137: cos(πu ÷ 256) rounded up to FP32, for u from 0 to 127. -/
def cosu : List (BitVec 32) :=
  [0x3F800000, 0x3F7FFB11, 0x3F7FEC44, 0x3F7FD398, 0x3F7FB110, 0x3F7F84AC, 0x3F7F4E6E, 0x3F7F0E58, 0x3F7EC46E, 0x3F7E70B0,
   0x3F7E1324, 0x3F7DABCC, 0x3F7D3AAC, 0x3F7CBFCA, 0x3F7C3B28, 0x3F7BACCE, 0x3F7B14BF, 0x3F7A7302, 0x3F79C79E, 0x3F791298,
   0x3F7853F8, 0x3F778BC6, 0x3F76BA08, 0x3F75DEC7, 0x3F74FA0B, 0x3F740BDE, 0x3F731448, 0x3F721353, 0x3F710909, 0x3F6FF574,
   0x3F6ED89E, 0x3F6DB294] ++
  [0x3F6C835F, 0x3F6B4B0C, 0x3F6A09A7, 0x3F68BF3C, 0x3F676BD8, 0x3F660F88, 0x3F64AA5A, 0x3F633C5A, 0x3F61C598, 0x3F604622,
   0x3F5EBE06, 0x3F5D2D54, 0x3F5B941B, 0x3F59F26A, 0x3F584853, 0x3F5695E5, 0x3F54DB32, 0x3F531849, 0x3F514D3E, 0x3F4F7A20,
   0x3F4D9F03, 0x3F4BBBF8, 0x3F49D113, 0x3F47DE66, 0x3F45E404, 0x3F43E201, 0x3F41D871, 0x3F3FC768, 0x3F3DAEFA, 0x3F3B8F3B,
   0x3F396842, 0x3F373A23] ++
  [0x3F3504F4, 0x3F32C8CA, 0x3F3085BB, 0x3F2E3BDE, 0x3F2BEB4A, 0x3F299415, 0x3F273656, 0x3F24D225, 0x3F22679A, 0x3F1FF6CB,
   0x3F1D7FD2, 0x3F1B02C6, 0x3F187FC0, 0x3F15F6DA, 0x3F13682B, 0x3F10D3CD, 0x3F0E39DA, 0x3F0B9A6C, 0x3F08F59B, 0x3F064B83,
   0x3F039C3D, 0x3F00E7E5, 0x3EFC5D27, 0x3EF6E0CB, 0x3EF15AEA, 0x3EEBCBBB, 0x3EE63375, 0x3EE0924F, 0x3EDAE881, 0x3ED53642,
   0x3ECF7BCB, 0x3EC9B954] ++
  [0x3EC3EF16, 0x3EBE1D4A, 0x3EB8442A, 0x3EB263EF, 0x3EAC7CD4, 0x3EA68F13, 0x3EA09AE5, 0x3E9AA087, 0x3E94A032, 0x3E8E9A22,
   0x3E888E94, 0x3E827DC1, 0x3E78CFCC, 0x3E6C9A80, 0x3E605C14, 0x3E541502, 0x3E47C5C2, 0x3E3B6ECF, 0x3E2F10A3, 0x3E22ABB6,
   0x3E164084, 0x3E09CF87, 0x3DFAB273, 0x3DE1BC2F, 0x3DC8BD36, 0x3DAFB681, 0x3D96A905, 0x3D7B2B74, 0x3D48FB30, 0x3D16C32C,
   0x3CC90AB0, 0x3C490E90]

/-- Set bits of a 256-bit sketch. -/
def popcount256 (n : Nat) : Nat := ((List.range 256).filter fun i => bitAt n i).length

/-- B of R137 for a query head and a page's grain, under a margin. -/
def pageBound (mg : Nat) (g : Grain) (h : HeadSketch) : BitVec 32 :=
  if !h.ok then posInf32
  else
    let theta := popcount256 (h.qsk ^^^ g.sketch) - g.spread - h.qsp - mg
    if 128 ≤ theta then 0 else mulUp (mulUp h.qn (elemVal 2 false g.nmax).to32) (cosu.getD theta 0)

/-- K of R137: the page key. -/
def pageKey (bs : List (BitVec 32)) : BitVec 32 := bs.foldl max32 0

/-- The ranking word of R138. -/
def rankWord (key : BitVec 32) (page : Nat) : Nat := key.toNat * 2 ^ 32 + (2 ^ 32 - 1 - page % 2 ^ 32)

/-! ### Visibility and selection (R114, R139 to R142) -/

/-- Whether query position `i` sees the key at position `t`, leaving aside membership in S (R110, R114). -/
def visible (h : AttendHead) (mask : List (BitVec 32)) (sink i t : Nat) : Bool :=
  let q := h.qpos0 + i
  decide (t < h.horizon) &&
    match h.mode with
    | 0 => decide (t ≤ q)
    | 1 => decide (t ≤ q) && (decide (q < t + h.slide) || decide (t < 16 * sink))
    | _ => decide (t < h.qpos0) ||
        (decide (t - h.qpos0 < h.npos) && bitAt (mask.getD i 0).toNat (t - h.qpos0))

/-- PHI of a shard, resolved against a stream (R109). -/
def lastPage (h : AttendHead) (x : Strm) : Nat := if h.phi = 0xFFFFFFFF then x.npages else h.phi

/-- The candidates of a shard, ascending (R115, R139). -/
def candidates (h : AttendHead) (mask : List (BitVec 32)) (x : Strm) : List Nat :=
  (List.range (lastPage h x - h.plo)).map (h.plo + ·) |>.filter fun p =>
    !((x.pages[p]?).elim true fun g => g.grain.tomb) &&
      (List.range 16).any fun j => (List.range h.npos).any fun i => visible h mask x.sink i (16 * p + j)

/-- The forced set among the candidates (R140). -/
def forcedSet (h : AttendHead) (x : Strm) (cands : List Nat) : List Nat :=
  cands.filter fun p => decide (p < x.sink) || decide (lastPage h x ≤ p + h.recent) || ((x.pages[p]?).elim false fun g => g.desc.spin)

/-- The first elements of a list in descending order of a rank: `n` times the largest. -/
def topBy (rank : Nat → Nat) : Nat → List Nat → List Nat
  | 0, _ => []
  | n + 1, l =>
    match l with
    | [] => []
    | p :: ps =>
      let best := ps.foldl (fun b q => if rank b < rank q then q else b) p
      best :: topBy rank n (l.erase best)

/-- The selection of R141 and R142, ascending: how the scan is divided does not change it (R147). -/
def selectPages (cands forced : List Nat) (key : Nat → BitVec 32) (budget : Nat) : List Nat :=
  if budget ≤ forced.length then forced
  else
    let rest := cands.filter fun p => !forced.contains p
    let top := topBy (fun p => rankWord (key p) p) (budget - forced.length) rest
    cands.filter fun p => forced.contains p || top.contains p

/-- R of R145: of each grain chunk, the pages that a scan keeps. -/
def keptPages (budget near : Nat) : Nat := min 512 (budget - near)

/-- The list of one grain chunk (R145, R146): of its candidates outside the sink and recent ranges, with their keys, those that rank
highest. -/
def chunkList (scan : List (Nat × BitVec 32)) (keep chunk : Nat) : List Nat :=
  topBy (fun p => rankWord (lookD scan p 0) p) keep ((scan.map (·.1)).filter fun p => p / 512 == chunk)

/-- The lists of every grain chunk, merged (R145). -/
def mergedLists (scan : List (Nat × BitVec 32)) (keep : Nat) : List Nat :=
  ((((scan.map (·.1 / 512)).dedup).map (chunkList scan keep))).flatten

/-- Whether a page lies in the sink or the recent range of a shard (R140). -/
def nearPage (h : AttendHead) (y : Strm) (p : Nat) : Bool := decide (p < y.sink) || decide (lastPage h y ≤ p + h.recent)

/-! ### The margin (R150 to R153) -/

/-- The margin state of a composition at first use (R153). -/
def Margin.first (mg : Nat) : Margin := { mg, want := none, last := mg, v := 0, n := 0, qs := 0, qc := 0, mg0 := mg, qs0 := 0, qc0 := 0 }

/-- The margin state of a composition: at first use from the stored value of PD 0x3302.CC, 12 unless written (R521). -/
def State.margin (s : State) (c : Nat) : Margin := (look s.rq.margins c).getD (.first (s.pdNum 0x3302 c))

/-- Put a margin back. -/
def State.setMargin (s : State) (c : Nat) (m : Margin) : State := { s with rq := { s.rq with margins := put s.rq.margins c m } }

/-- The checks and violations of a run (R151). -/
def State.marginCount (s : State) (c checks viols : Nat) : State :=
  let m := s.margin c
  s.setMargin c { m with n := m.n + checks, v := m.v + viols }

/-- The rule of R152 for one composition at a step boundary, in AUTO mode. -/
def Margin.adapt (m : Margin) (lo hi k : Nat) : Margin :=
  if m.n < m.v * 2 ^ k then { m with mg := min (m.mg + 2) hi, qs := 0, qc := 0 }
  else
    let m := if m.v = 0 then { m with qs := m.qs + 1, qc := m.qc + m.n } else { m with qs := 0, qc := 0 }
    if 256 ≤ m.qs ∧ 2 ^ 20 ≤ m.qc then { m with mg := max (m.mg - 1) lo, qs := 0, qc := 0 } else m

/-- A step boundary for one composition (R150 to R153, R155): in AUTO the rule of R152 runs on the counts of the step that has ended, in
FIXED the margin is the one last written; a written margin takes effect, in AUTO within the limits (log entry 136). The counts of the
ended step are published. -/
def State.marginStep (s : State) (c : Nat) : State :=
  let m := s.margin c
  let lo := s.pdNum 0x3303 c
  let hi := s.pdNum 0x3304 c
  let last := m.want.getD m.last
  let m' :=
    if s.pdNum 0x3301 c == 0 then
      let a := if s.compExists c then m.adapt lo hi (s.pdNum 0x3307 0) else m
      { a with mg := min hi (max lo (m.want.getD a.mg)) }
    else { m with mg := last }
  let s := { s with pd := (s.pd.setCount 0x3305 c m.v).setCount 0x3306 c m.n }
  s.setMargin c { m' with want := none, last, v := 0, n := 0, mg0 := m'.mg, qs0 := m'.qs, qc0 := m'.qc }

/-- The start of a step that no step of this node precedes, at the first mark of a term or where a RESUME names another step: the counts of
an abandoned attempt are discarded (R153), and a written margin takes effect. -/
def State.marginStart (s : State) (c : Nat) : State :=
  let m := s.margin c
  let last := m.want.getD m.last
  let mg := if s.pdNum 0x3301 c == 0 then min (s.pdNum 0x3304 c) (max (s.pdNum 0x3303 c) (m.want.getD m.mg0)) else last
  s.setMargin c { m with mg, qs := m.qs0, qc := m.qc0, want := none, last, v := 0, n := 0, mg0 := mg }

/-- A replayed step starts with the margins and quiet counts of its first attempt, and its counts at zero (R153). -/
def State.marginReplay (s : State) : State :=
  { s with rq := { s.rq with margins := s.rq.margins.map fun e =>
      (e.1, { e.2 with mg := e.2.mg0, qs := e.2.qs0, qc := e.2.qc0, v := 0, n := 0 }) } }

end Sys2Proof.Machine
end

