-- ==== Sys2Proof/Machine/TierOps.lean ====
section
/-! DEFINITION. Shared operations of the tiers (R230 to R256): places, moves, recalls, leases and hardpan chunks. -/

namespace Sys2Proof.Machine

/-- Change the descriptor that places a page: its own, or its pool entry's (R96). -/
def State.setHome (s : State) (job ctx stream page : Nat) (p : Page) (f : Desc → Desc) : State :=
  if p.desc.borrowed then
    match look s.pg.pool p.desc.frame with
    | some e => s.putPool p.desc.frame { e with desc := f e.desc }
    | none => s
  else s.setPage job ctx stream page fun p => { p with desc := f p.desc }

/-- Stand-in for the pseudo-channel of a frame outside this node's topsoil. -/
def noPc : Nat := 1536

/-! ### Leases (R242, R243) -/

/-- The lease records, by number. -/
def State.leases (s : State) : List (Nat × Lease) := (List.range 64).map fun n => (n, Lease.ofBytes (s.pd.bytes 0x8030 n))

/-- The active leases that a composition borrows. -/
def State.borrows (s : State) (c : Nat) : List (Nat × Lease) :=
  s.leases.filter fun l => l.2.active && !l.2.lender && l.2.comp == c

/-- Every page of a composition with its place: (context, stream, page number, page). -/
def State.compPages (s : State) (c : Nat) : List (Ctx × Nat × Nat × Page) :=
  ((s.pg.ctxs.filter fun k => k.comp == c).map fun k =>
    (k.streams.map fun x => x.2.pages.zipIdx.map fun p => (k, k.idOf x.1, p.2, p.1)).flatten).flatten

/-- The lease under which a frame in subsoil lies: the one whose window took it, or where the state does not say, one with its lender. -/
def State.leaseNo (s : State) (c : Nat) (d : Desc) : Option Nat :=
  match look s.tier.subAt d.frame with
  | some n => ((s.borrows c).find? fun l => l.1 == n).map (·.1)
  | none => ((s.borrows c).find? fun l => l.2.peer == d.node).map (·.1)

/-- Bytes that a composition holds under a lease, with what moves are taking there. -/
def State.lentTo (s : State) (c nn : Nat) : Nat :=
  let own := (s.compPages c).map fun p => if p.2.2.2.desc.valid && !p.2.2.2.desc.borrowed then [p.2.2.2.desc] else []
  let ds := own.flatten ++ (s.pg.pool.filter fun e => e.2.comp == c).map (·.2.desc)
  (ds.map fun d => if d.tier == 1 && s.leaseNo c d == some nn then 64 * d.clen else 0).sum +
    (s.tier.moves.map fun m => if m.toTier == 1 && m.lease == nn then m.bytes + 64 else 0).sum

/-- A lease of a composition with room for a frame of `n` bytes (R253): one that has not ended, and does not end (R246), whose lender a queue
reaches. -/
def State.leaseRoom (s : State) (c n : Nat) : Option (Nat × Lease) :=
  (s.borrows c).find? fun l => decide (s.lentTo c l.1 + n ≤ l.2.size) && !s.tier.ending.contains l.1 && !s.tier.released.contains l.1
    && (s.peerQueue c l.2.peer).isSome

/-! ### Hardpan (R237 to R241) -/

/-- The flash channels of a composition, ascending. -/
def State.flashOf (s : State) (c : Nat) : List Nat :=
  (s.comp? c).elim [] fun k => (List.range 32).filter fun n => bitAt k.desc.flash.toNat n

/-- A flash channel as reset leaves it (R263). -/
def Flash.atReset : Flash :=
  { up := false, targets := 0, refused := false, err := false, failed := false, wear := 0, spare := 100, blocks := [],
    lunTries := [], owner := none, erasing := false, zq := 0, zqAt := 0, mean := 0, eraseq := [] }

/-- A flash channel. -/
def State.flash (s : State) (n : Nat) : Flash := lookD s.tier.flash n Flash.atReset

/-- Put a flash channel back. -/
def State.setFlash (s : State) (n : Nat) (f : Flash) : State := { s with tier := { s.tier with flash := put s.tier.flash n f } }

/-- Commands of R234 go out on a channel, with Volume Select before them when more than one target shares it. -/
def State.flashOps (s : State) (ch : Nat) (ops : List Nat) : State :=
  { s with out := (if 1 < (s.flash ch).targets then 0xE1 :: ops else ops).reverse.map (Out.flashCmd ch) ++ s.out }

/-- A block of a channel. -/
def Flash.block (f : Flash) (b : Nat) : FBlock :=
  lookD f.blocks b { erases := f.mean, live := 0, stale := 0, retired := false, isOpen := false }

/-- Pages of a block that are written or being written. -/
def State.blockFill (s : State) (ch b : Nat) : Nat :=
  ((s.flash ch).block b).live + ((s.flash ch).block b).stale +
    (s.tier.chunks.filter fun k => k.channel == ch && k.block == b && !k.done).length

/-- Blocks of a channel that are held back as spares: at least 7% of them (R239). -/
def spareBlocks (ch : Nat) : Nat := (Config.flashBlocks ch * 7 + 99) / 100

/-- Stand-in for the block of a chunk that lies in none: one that waits for a free block, or whose page was erased unread. -/
def noBlock : Nat := 2 ^ 32

/-- The block that takes the next page of a channel (R239): the open one with a free page, or else the free block with the lowest erase
count, the lowest of those. A block that the state does not list has never been erased. The spares stay free: `reserve` opens one of them
all the same, for reclaim and in place of a block that has failed (log entry 175). `noBlock` where none may be opened. -/
def State.nextBlock (s : State) (ch : Nat) (reserve : Bool) : Nat :=
  let f := s.flash ch
  match f.blocks.find? fun b => (f.block b.1).isOpen && !(f.block b.1).retired && decide (s.blockFill ch b.1 < Config.blockPages ch) with
  | some b => b.1
  | none =>
    let taken := (f.blocks.filter fun b => !(f.block b.1).retired && ((f.block b.1).isOpen || s.blockFill ch b.1 != 0)).length
    let fresh := ((List.range (f.blocks.length + 1)).find? fun n => (look f.blocks n).isNone).getD 0
    let free := f.blocks.filter fun b => !(f.block b.1).retired && !(f.block b.1).isOpen && s.blockFill ch b.1 == 0
    let best := free.foldl (fun (m : Nat × Nat) b => if b.2.erases < m.2 ∨ (b.2.erases = m.2 ∧ b.1 < m.1) then (b.1, b.2.erases) else m)
      (if fresh < Config.flashBlocks ch then (fresh, f.mean) else (noBlock, 2 ^ 64))
    if reserve || decide (taken + spareBlocks ch < Config.flashBlocks ch) then best.1 else noBlock

/-- The page of a chunk is not used any more: it is stale (R239). Blocks of a failed channel count no more. -/
def State.stale (s : State) (k : Chunk) : State :=
  let f := s.flash k.channel
  if f.failed || !k.done then s
  else
    let b := f.block k.block
    s.setFlash k.channel { f with blocks := put f.blocks k.block { b with live := b.live - 1, stale := b.stale + 1 } }

/-- The additional data of a chunk, 24 B (R238): the spec gives the items and no places; log entry 147. -/
def Chunk.aad (k : Chunk) : List Byte :=
  leBytes 4 k.job ++ leBytes 2 k.comp ++ leBytes 2 k.kgen ++ leBytes 8 k.extent ++ leBytes 4 k.chunk ++ leBytes 4 k.used

/-- The 64 bytes of chunk metadata (R236, R238): IV, additional data, 16 bytes in the place of the tag (log entry 4), the erase count of the
block, and ORIGIN. Codeword `i` of the page carries bytes 16 × i to 16 × i + 15 of them. -/
def State.chunkMeta (s : State) (k : Chunk) (erases : Nat) : List Byte :=
  (if k.origin then padTo 52 (Config.ownerMeta k.extent k.chunk)
    else leBytes 12 (s.nodeId * 2 ^ 82 + k.ctr % 2 ^ 64) ++ k.aad ++ List.replicate 16 0)
    ++ leBytes 4 erases ++ leBytes 1 (flagAt k.origin 0) ++ List.replicate 7 0

/-- The flash channels of a composition that can be written. -/
def State.liveFlash (s : State) (c : Nat) : List Nat := (s.flashOf c).filter fun n => !(s.flash n).failed

/-- The other chunks of the stripe that a chunk of an extent belongs to, its parity chunk among them (R240). -/
def State.stripeMates (s : State) (extent chunk : Nat) : List Chunk :=
  let j := if chunk < 128 then chunk / 8 else chunk - 128
  s.tier.chunks.filter fun x => x.extent == extent && x.chunk != chunk && !x.origin &&
    (x.chunk == 128 + j || (decide (x.chunk < 128) && x.chunk / 8 == j))

/-- The channel of rank `n` among those of a composition, for a chunk of an extent (R239). Where that one has failed, the next in rank that
works takes its place: one that no chunk of the stripe has or will have, where there is one (R240); log entry 151. -/
def State.rankChannel (s : State) (c extent chunk n : Nat) : Nat :=
  let all := s.flashOf c
  let nth (i : Nat) : Nat := all.getD (i % max 1 all.length) 0
  if !(s.flash (nth n)).failed then nth n
  else
    let j := if chunk < 128 then chunk / 8 else chunk - 128
    let live := ((List.range all.length).map fun i => nth (n + i)).filter fun h => !(s.flash h).failed
    let near := (List.range 9).map (fun i => nth (extent + 8 * j + i)) ++ (s.stripeMates extent chunk).map (·.channel)
    (live.find? fun h => !near.contains h).getD (live.headD (nth n))

/-- Put a chunk into the next free page of an open block of its channel (R239); where no block may be opened, it waits for one. -/
def State.placeChunk (s : State) (k : Chunk) (reserve : Bool) : State :=
  let f := s.flash k.channel
  let b := s.nextBlock k.channel reserve
  let k := { k with block := b, done := false }
  let rest := s.tier.chunks.filter fun x => !(x.extent == k.extent && x.chunk == k.chunk)
  let s := s.setFlash k.channel { f with blocks := if b = noBlock then f.blocks else put f.blocks b { f.block b with isOpen := true } }
  let s := { s with tier := { s.tier with chunks := rest ++ [k] } }
  let t := (s.flashOps k.channel [0x80, 0x78]).emit (.flashPage k.channel b (s.chunkMeta k (f.block b).erases))
  { s with out := if b = noBlock then s.out else t.out }

/-- Program a chunk (R234, R238, R239): under the next write counter and the key generation of its composition where the node seals it; the
page that held it before is stale. -/
def State.programChunk (s : State) (k : Chunk) (reserve : Bool := false) : State :=
  let old := s.tier.chunks.filter fun x => x.extent == k.extent && x.chunk == k.chunk
  let s := { s with tier := { s.tier with chunks := s.tier.chunks.filter fun x => !(x.extent == k.extent && x.chunk == k.chunk) } }
  let s := old.foldl (fun (s : State) x => s.stale x) s
  let kgen := if k.origin then k.kgen else (s.comp? k.comp).elim k.kgen (·.gen.toNat)
  let k := { k with rewrite := false, ctr := s.tier.wctr, kgen }
  let s := { s with tier := { s.tier with wctr := if k.origin then s.tier.wctr else s.tier.wctr + 1 } }
  s.placeChunk k reserve

/-- The chunks of a channel that wait for a free block take one, in the order in which they were written (R239). -/
def State.retryChunks (s : State) (ch : Nat) : State :=
  (s.tier.chunks.filter fun k => k.channel == ch && k.block == noBlock && !k.done).foldl (fun (s : State) k => s.placeChunk k false) s

/-- Whether a composition's extents are written in stripes of 8 chunks and one of parity (R240). -/
def State.striped (s : State) (c : Nat) : Bool := s.pdBool 0x8020 0 && decide (9 ≤ (s.flashOf c).length)

/-- Write the parity chunk of a chunk's stripe, where there are stripes (R240). -/
def State.writeParity (s : State) (k : Chunk) : State :=
  if s.striped k.comp && !k.origin then
    let stripe := k.chunk / 8
    s.programChunk { k with chunk := 128 + stripe, channel := s.rankChannel k.comp k.extent (128 + stripe) (k.extent + 8 * stripe + 8),
                            bad := false, used := recordMost + 16 }
  else s

/-- Write a chunk of an extent, and the parity chunk of its stripe: the nine lie on channels of nine following ranks (R239, R240). -/
def State.writeChunk (s : State) (k : Chunk) : State := (s.programChunk k).writeParity k

/-- A chunk of a composition at a place in the extent space, on the channel that R239 gives. -/
def State.freshChunk (s : State) (c at_ used : Nat) : Chunk :=
  { extent := at_ / 128, chunk := at_ % 128, comp := c, channel := s.rankChannel c (at_ / 128) (at_ % 128) (at_ / 128 + at_ % 128), bad := false,
    rewrite := false, ctr := 0, block := 0, done := false, origin := false, job := s.jobOf c, kgen := (s.comp? c).elim 0 (·.gen.toNat), used }

/-- The header of a record (R237): TYPE, the body's length, OWNER, INDEX and GEN. -/
def recordHead (typ units owner index gen : Nat) : List Byte :=
  leBytes 1 typ ++ [0] ++ leBytes 2 units ++ leBytes 4 owner ++ leBytes 4 index ++ leBytes 2 (gen % 4096) ++ [0, 0]

/-- Write records to hardpan (R237), one to a chunk, in chunks that follow one another: each its header, of a type, an owner, an index and a
generation, and its body. Which extents they lie in is the node's choice (log entry 6). The address of the first header. -/
def State.hardRecords (s : State) (c typ owner gen : Nat) (bodies : List (Nat × List Byte)) : Nat × State :=
  let (n, s) := s.draw
  let at_ := Config.freeAddr n % 2 ^ 33
  let s := bodies.zipIdx.foldl (fun (s : State) x =>
    let b := padMul 16 x.1.2
    let s := s.store (hardpanBase + (at_ + x.2) * 2 ^ 14) (recordHead typ (b.length / 16) owner x.1.1 gen ++ b)
    s.writeChunk (s.freshChunk c (at_ + x.2) (16 + b.length))) s
  (hardpanBase + at_ * 2 ^ 14, s)

/-- Write one record to hardpan (R237); a body of more than 1,022 units goes on in the next chunks, each piece behind a header of its own; log
entry 148. -/
def State.hardRecord (s : State) (c typ owner index gen : Nat) (body : List Byte) : Nat × State :=
  s.hardRecords c typ owner gen ((List.range (recordCount body.length)).map fun i => (index, (body.drop (recordMost * i)).take recordMost))

/-- The body of a record that lies in chunks from an address on (R237). -/
def State.recordBody (s : State) (npa len : Nat) : List Byte :=
  ((List.range (recordCount len)).map fun i => s.load (npa + i * 2 ^ 14 + 16) (min recordMost (len - recordMost * i))).flatten

/-- The parity chunks of the stripes that an array of so many chunks lies in (R240; log entry 150). -/
def State.arrayParity (s : State) (c at_ n : Nat) : State :=
  if !s.striped c then s
  else
    ((List.range n).filter fun i => i + 1 == n || (at_ + i) % 8 == 7).foldl (fun (s : State) i =>
      let k := s.freshChunk c (at_ + i) 16384
      let mates := ((List.range 8).map fun j => s.tier.chunks.filter fun x => x.extent == k.extent && x.chunk == k.chunk / 8 * 8 + j).flatten
      let free := (s.liveFlash c).filter fun h => !(mates.any fun x => x.channel == h)
      let rank := s.rankChannel c k.extent (128 + k.chunk / 8) (k.extent + 8 * (k.chunk / 8) + 8)
      s.programChunk { k with chunk := 128 + k.chunk / 8, channel := if free.contains rank then rank else free.headD rank,
                              used := recordMost + 16 }) s

/-- A hardpan array of so many chunks over flash channels (R159): its chunks follow one another through extents, pairs of them, 32 KiB, on
one channel after another. The address of the first. Where there are stripes, a parity chunk goes with each (R240), on a channel that none of
the stripe has, where there is one; log entry 150. -/
def State.hardArray (s : State) (c : Nat) (chans : List Nat) (n : Nat) : Nat × State :=
  let (k, s) := s.draw
  let at_ := Config.freeAddr k % 2 ^ 33
  let s := (List.range n).foldl (fun (s : State) i =>
    s.programChunk { s.freshChunk c (at_ + i) 16384 with channel := chans.getD (i / 2 % max 1 chans.length) 0 }) s
  let s := s.arrayParity c at_ n
  (hardpanBase + at_ * 2 ^ 14, s)

/-- Chunks of hardpan are written anew in place of their old contents, each under the next write counter (R238); where they lie in the
extent space stays, and a chunk that cannot be read stays so. The parity of their stripes is written anew with them (R240). -/
def State.rewriteChunks (s : State) (first n : Nat) : State :=
  let hit (x : Chunk) : Bool := decide (x.chunk < 128) && decide (first ≤ 128 * x.extent + x.chunk) &&
    decide (128 * x.extent + x.chunk < first + n)
  let data := s.tier.chunks.filter hit
  let parity := s.tier.chunks.filter fun p => decide (128 ≤ p.chunk) && data.any fun x => x.extent == p.extent && x.chunk / 8 == p.chunk - 128
  (data ++ parity).foldl (fun (s : State) x => s.programChunk x) s

/-- Read the chunks of a record that lies in hardpan (R234): multi-plane reads, each with its status and its transfer. -/
def State.readChunks (s : State) (npa n : Nat) : State :=
  let first := bitsOf npa 14 33
  (s.tier.chunks.filter fun k => decide (k.chunk < 128) && decide (first ≤ 128 * k.extent + k.chunk) &&
    decide (128 * k.extent + k.chunk < first + n)).foldl (fun (s : State) k => s.flashOps k.channel [0x00, 0x78, 0x06]) s

/-- The places in hardpan that something names, with the chunks from each on: pages, tables and grains of dormant contexts, sketch arrays, weight
groups, and the copies that moves are writing. -/
def State.hardUsed (s : State) : List (Nat × Nat) :=
  let ds := (s.pg.ctxs.map fun k => (k.streams.map fun x => x.2.pages.map fun p => s.homeOf p).flatten).flatten
  let tables := (s.pg.ctxs.filter (·.dormant)).map fun k => (k.strTab, recordCount (k.rootBytes.drop 64).length) :: (k.streams.map fun x =>
    (x.2.l1, 1) :: x.2.l2.map (fun e => (e.2, 1)) ++ (x.2.l3.map fun e => [(e.2.next, 1), (e.2.grains, 4)]).flatten).flatten
  let sketches := (s.rq.corpora.map fun c => (c.segs.filter fun g => g.tier == 2).map fun g =>
    (g.ska, (g.cap * (32 * 2 ^ c.skb) + 16383) / 16384)).flatten
  (ds.filter fun d => d.tier == 2).map (fun d => (16 * d.addr, recordCount (64 * d.clen))) ++ tables.flatten ++ sketches ++
    s.tier.gchunks.map (fun a => (a, 1)) ++
    (s.tier.moves.filter fun m => m.toTier == 2).map (fun m => (16 * m.toAddr, recordCount m.bytes)) ++
    (s.tier.gmoves.filter fun m => m.toTier == 2).map (fun m => (m.toNpa, recordCount m.len))

/-- Whether a chunk of the node's own holds something that is named; a parity chunk stands as long as a chunk of its stripe (R239, R240). -/
def chunkUsed (used : List (Nat × Nat)) (c : Chunk) : Bool :=
  let named (e k : Nat) : Bool := used.any fun u =>
    !isHbm u.1 && decide (bitsOf u.1 14 33 ≤ 128 * e + k) && decide (128 * e + k < bitsOf u.1 14 33 + u.2)
  if c.chunk < 128 then named c.extent c.chunk else (List.range 8).any fun i => named c.extent (8 * (c.chunk - 128) + i)

/-- Chunks that nothing names any more leave the map, and their pages are stale (R239). Installed chunks stay. -/
def State.pruneChunks (s : State) : State :=
  let used := s.hardUsed
  let gone := s.tier.chunks.filter fun c => !c.origin && !chunkUsed used c
  gone.foldl (fun (s : State) c => s.stale c)
    { s with tier := { s.tier with chunks := s.tier.chunks.filter fun c => c.origin || chunkUsed used c } }

/-! ### Switching a page's place (R79, R101, R255, R413) -/

/-- Put a page's frame at another place, keeping its contents and generation, and packing it where it is repacked: the new frame, then the one
write of the descriptor or pool entry, then the old frame is freed (R79, R101). Within topsoil the contribution stays; a page that leaves
its tier removes, and one that comes to topsoil contributes (R413). -/
def State.switchForm (s : State) (job ctx stream page toTier toNode addr : Nat) (repack : Bool) : State :=
  match s.ctx? job ctx, s.page? job ctx stream page with
  | some k, some p =>
    match s.frameOf p.desc, k.strm? stream with
    | some (d, f), some x =>
      let key := s.pg.nextKey
      let pc := if toTier = 0 then pcOf (16 * addr) else noPc
      let packed := d.packed || repack
      let bytes := storedBytes x packed f.toks
      let clen := if repack then bytes.length / 64 else d.clen + (if toTier = 1 then 1 else 0) - (if d.tier = 1 then 1 else 0)
      let s := s.setPg fun g => { g with nextKey := key + 1, frames := put g.frames key { f with npa := 16 * addr, pc, gen := d.gen } }
      let s := if toTier = 0 then s.store (16 * addr) bytes else s
      let s := s.setHome job ctx stream page p fun e => { e with tier := toTier, node := toNode, addr, clen, packed, frame := key }
      let keeps := d.tier == 0 && toTier == 0
      let s := if keeps then
          { s with rel := { s.rel with pframes := mapIf (fun c => c.key == d.frame) (fun c => { c with key }) s.rel.pframes } }
        else s
      let s := s.freeFrameKey d.frame
      if d.tier ≠ 0 ∧ toTier = 0 then
        let (pm, s) := s.contribute k.comp job ctx stream page key d.gen 0 (rawPage x.kfmt x.vfmt x.scale x.latent f.toks)
        s.setPage job ctx stream page fun p => { p with pmap := pm.getD .none }
      else if keeps then s
      else s.setPage job ctx stream page fun p => { p with pmap := .none }
    | _, _ => s
  | _, _ => s

/-- Put a page's frame at another place in its present form (R255). -/
def State.switchPlace (s : State) (job ctx stream page toTier toNode addr : Nat) : State :=
  s.switchForm job ctx stream page toTier toNode addr false

/-- Bring a page to topsoil at once: the end of a recall or promotion. -/
def State.toTopsoil (s : State) (job ctx stream page : Nat) : State :=
  match s.ctx? job ctx, s.page? job ctx stream page with
  | some k, some p =>
    let d := s.homeOf p
    if !d.valid || d.tier == 0 || s.unreadable d then s
    else
      let pcs := s.allocPcs k.comp
      let (npa, s) := s.place (pcs.getD (page % max 1 pcs.length) 0) 512
      (s.switchPlace job ctx stream page 0 s.nodeId (npa / 16)).countC k.comp 0x8050 2 (64 * d.clen)
  | _, _ => s

/-! ### Subsoil frames (R244, R245) -/

/-- A subsoil frame (R244): the IV from the borrower's Node ID and its write counter, GEN, the stored length, the stored page and
16 bytes in the place of the tag (log entry 4). -/
def State.subFrame (s : State) (ctr gen : Nat) (stored : List Byte) : List Byte :=
  padMul 64 (leBytes 12 (s.nodeId * 2 ^ 82 + ctr % 2 ^ 64) ++ leBytes 2 (gen % 4096) ++ leBytes 2 (stored.length / 16)
    ++ stored ++ List.replicate 16 0)

/-- A page that has gone to subsoil contributes its frame's stored bytes (R410, R413). -/
def State.contributeSub (s : State) (job ctx stream page ctr : Nat) : State :=
  match s.ctx? job ctx, s.strm? job ctx stream, s.page? job ctx stream page with
  | some k, some x, some p =>
    match s.frameOf p.desc with
    | some (d, f) =>
      let (pm, s) := s.contribute k.comp job ctx stream page d.frame d.gen 1 (s.subFrame ctr d.gen (storedBytes x d.packed f.toks))
      s.setPage job ctx stream page fun p => { p with pmap := pm.getD .none }
    | none => s
  | _, _, _ => s

/-- What a subsoil frame read back shows (R245): its tag first, then GEN. The tag stands when the frame is one that the borrower sealed for
this place, with the IV it was given (log entry 4): then the bytes differ at most in the GEN field. -/
def subCheck (frame got : List Byte) : Status :=
  if got.take 12 ≠ frame.take 12 ∨ got.drop 14 ≠ frame.drop 14 then .integrity
  else if field got 12 2 ≠ field frame 12 2 then .staleGen
  else .ok

/-- The frame that the borrower sealed for a page that lies in subsoil (R244). -/
def State.sealedFrame (s : State) (x : Strm) (d : Desc) : List Byte :=
  let f := s.frame? d.frame
  s.subFrame (f.elim 0 (·.sctr)) d.gen (storedBytes x d.packed (f.elim [] (·.toks)))

/-- The check of a frame of a page read from subsoil against the one sealed when the read was sent: its status, after a failure has been
counted (R245). -/
def State.checkSub (s : State) (c job ctx stream page : Nat) (want got : List Byte) : Status × State :=
  match subCheck want got with
  | .ok => (.ok, s)
  | .staleGen => (.staleGen, s.genMismatch job ctx stream page (field want 12 2) (field got 12 2))
  | st => (st, s.countC c 0x8050 4 1)

/-- The lease under which a page in subsoil lies. -/
def State.leaseOf (s : State) (c : Nat) (d : Desc) : Option Lease :=
  (s.leaseNo c d).map fun n => Lease.ofBytes (s.pd.bytes 0x8030 n)

/-- Read a subsoil frame of a stream through its lease window (R245). Whether the read could be sent. -/
def State.readSub (s : State) (c : Nat) (x : Strm) (d : Desc) (prod : Producer) : Bool × State :=
  match s.leaseOf c d, s.peerQueue c d.node with
  | some l, some q =>
    let m := mkRead l.win l.wgen s.rmo.epoch (16 * d.addr) (64 * d.clen) prod s.nextStep
    (true, s.enqueue q { m with want := s.sealedFrame x d })
  | _, _ => (false, s)

/-! ### The start of a recall (R250, R252) -/

/-- Whether a recall may begin as far as its like go: those of its context that were scheduled before it have begun, and those of its own
stream have ended (R252). -/
def State.recallNext (s : State) (r : Recall) : Bool :=
  let mine := s.tier.recalls.takeWhile fun x => x.id != r.id
  !r.whole || mine.all fun x => !(x.whole && x.job == r.job && x.ctx == r.ctx) || (x.active && x.stream != r.stream)

/-- Whether a recall is due (R250, R262, R456): its moment has come, its context is not going dormant, and the third shedding stage is not
in force. -/
def State.recallDue (s : State) (r : Recall) : Bool :=
  !r.active && !(s.ctx? r.job r.ctx).elim true (·.going) && decide (s.pwr.stage < 3) && !earlier s.phase r.start && s.recallNext r

/-- Whether a recall has its turn (R250): a RECALL slot of its composition is at work, or the layer has slack for the bytes of one page. -/
def State.recallTurn (s : State) (c : Nat) : Bool :=
  (s.sch.runs.any fun r => r.started && !r.ended && (s.slots.any fun e => e.1 == r.slot && e.2.opclass == 6 && e.2.comp == c)) ||
    (s.bestEffort && s.slack c 6 0 (ticksUp (atRate 16384 (s.srcRate c 2).2)))

/-- A page of a recall could not be read: it stays where it is. -/
def State.recallBad (s : State) (id page : Nat) : State :=
  { s with tier := { s.tier with recalls := mapIf (fun r => r.id == id) (fun r => { r with bad := page :: r.bad }) s.tier.recalls } }

/-- Begin a recall: frames in subsoil are read through their leases, and records in hardpan from their chunks (R234, R244). -/
def State.beginRecall (s : State) (r : Recall) : State :=
  let s := { s with tier := { s.tier with recalls := mapIf (fun x => x.id == r.id) (fun x => { x with active := true }) s.tier.recalls } }
  match r.stream.bind fun n => s.strm? r.job r.ctx n with
  | none => s
  | some x =>
    match r.part with
    | .tables => ((x.l1 :: x.l2.map (·.2)) ++ x.l3.map (·.2.next)).foldl (fun (s : State) a => if isHbm a then s else s.readChunks a 1) s
    | .grains => x.l3.foldl (fun (s : State) e => if isHbm e.2.grains then s else s.readChunks e.2.grains 4) s
    | .pages => ((x.pages.zipIdx.drop r.first).take r.count).foldl (fun s p =>
        let d := s.homeOf p.1
        if !d.valid then s
        else if d.tier = 1 then
          let (sent, s) := s.readSub r.comp x d (.fetch r.id 0 p.2)
          if sent then s else s.recallBad r.id p.2
        else if d.tier = 2 then s.readChunks (16 * d.addr) (recordCount (64 * d.clen))
        else s) s

/-- A slot of class RECALL begins the recalls of its composition that are due (R46, R250). -/
def State.recallSlot (s : State) (c : Nat) : State :=
  s.tier.recalls.foldl (fun (s : State) r => if r.comp == c && s.recallDue r then s.beginRecall r else s) s

/-! ### The end of a recall (R252) -/

/-- The tables of a stream come back to topsoil: fresh places, whose entries are written; a record that cannot be read stays absent
(R262). -/
def State.tablesBack (s : State) (k : Ctx) (stream : Nat) : State :=
  match k.strm? stream with
  | none => s
  | some x =>
    if s.tablesLost x || x.tablesHere then s
    else
      let pcs := s.allocPcs k.comp
      let pc (i : Nat) : Nat := pcs.getD (i % max 1 pcs.length) 0
      let (l1, s) := s.place (pc 0) 8192
      let (l2, s) := x.l2.foldl (fun (a : Assoc Nat × State) e => let (p, s) := a.2.place (pc e.1) 8192; (put a.1 e.1 p, s)) ([], s)
      let (l3, s) := x.l3.foldl (fun (a : Assoc L2Entry × State) e =>
        let (p, s) := a.2.place (pc e.1) 8192
        (put a.1 e.1 { e.2 with next := p }, s)) ([], s)
      let y := { x with l1, l2, l3 }
      let s := (s.setStrm k.job k.ctx stream fun x => { x with l1, l2, l3 }).writeTables y
      let s := (List.range x.pages.length).foldl (fun (s : State) p => s.writePage k.job k.ctx stream p) s
      s.writeEntry k.job k.ctx stream

/-- The grain chunks of a stream come back to W-stack pseudo-channels (R73). -/
def State.grainsBack (s : State) (k : Ctx) (stream : Nat) : State :=
  match k.strm? stream with
  | none => s
  | some x =>
    if s.tablesLost x || x.grainsHere then s
    else
      let ws := (s.allocPcs k.comp).filter isW
      let (l3, s) := x.l3.foldl (fun (a : Assoc L2Entry × State) e =>
        let (p, s) := a.2.place (ws.getD (e.1 % max 1 ws.length) 0) 32768
        (put a.1 e.1 { e.2 with grains := p }, s)) ([], s)
      let y := { x with l3 }
      let s := (s.setStrm k.job k.ctx stream fun x => { x with l3 }).writeTables y
      (List.range x.pages.length).foldl (fun (s : State) p => s.writePage k.job k.ctx stream p) s

end Sys2Proof.Machine
end

