-- ==== Sys2Proof/Machine/Attention.lean ====
section
/-! DEFINITION. Attention (R105 to R133): the checks and admission of a request, its dispatch under the deadline monitor (R57),
the arithmetic of a tile and of the merge tree, and the completion of a block. -/

namespace Sys2Proof.Machine

/-! ### Arithmetic inside a tile (R120 to R123) -/

/-- An exact sum; a product that is zero changes no sum (R180). -/
def sumExact (l : List FVal) : FVal := l.foldl FVal.add (.fin false 0 0)

/-- The running sum of R120, step 2: blocks of 32 dimensions, each rounded once. -/
def dotRaw (q k : List FVal) : BitVec 32 :=
  (chunks 32 (List.zipWith FVal.mul q k)).foldl (fun acc b => add32 acc (sumExact b).to32) 0

/-- The partial of a row that has seen no key (R117, R122). -/
def Partial.empty (dv : Nat) : Partial := { m := negInf32, l := 0, o := List.replicate dv 0 }

/-- The partial of a row that has met a NaN score (R123). -/
def Partial.allNan (dv : Nat) : Partial := { m := nan32, l := nan32, o := List.replicate dv nan32 }

/-- roundP of R122: E4M3 for FMT classes 0 and 1, BF16 for class 2. -/
def roundP (bf16 : Bool) (w : BitVec 32) : FVal :=
  let code := if bf16 then 1 else 3
  elemVal code false (narrow code false (val32 w)).1

/-- One group of one row (R122): the scores of its positions, masked ones at −∞, and their value rows. -/
def Partial.group (p : Partial) (bf16 : Bool) (ss : List (BitVec 32)) (vs : List (List FVal)) : Partial :=
  let ss := ss.map fun x => if x = posInf32 then nan32 else x
  let mb := ss.foldl max32 negInf32
  if mb = negInf32 then p
  else
    let mn := max32 p.m mb
    if isNan32 mn then .allNan p.o.length
    else
      let a := exp2 (sub32 p.m mn)
      let ws := ss.map fun x => roundP bf16 (exp2 (sub32 x mn))
      let live := (List.zip ws vs).filter fun x => match x.1 with | .fin _ m _ => m != 0 | _ => true
      let lg := (sumExact (live.map (·.1))).to32
      { m := mn, l := fma32 p.l a lg,
        o := p.o.zipIdx.map fun o => fma32 o.1 a (sumExact (live.map fun x => x.1.mul (x.2.getD o.2 (.fin false 0 0)))).to32 }

/-! ### Merging (R126) -/

/-- merge of R126; `a` holds the lower index. -/
def Partial.merge (a b : Partial) : Partial :=
  if isNan32 a.m || isNan32 b.m then .allNan a.o.length
  else
    let m := max32 a.m b.m
    if m = negInf32 then .empty a.o.length
    else
      let fa := exp2 (sub32 a.m m)
      let fb := exp2 (sub32 b.m m)
      { m, l := fma32 b.l fb (mul32 a.l fa), o := List.zipWith (fun x y => fma32 y fb (mul32 x fa)) a.o b.o }

/-- One level of the tree: neighbours merged, an odd last one carried up. -/
def mergeLevel : List Partial → List Partial
  | a :: b :: rest => a.merge b :: mergeLevel rest
  | l => l

/-- tree of R126, by levels. -/
def mergeTree : Nat → List Partial → List Partial
  | 0, l => l
  | n + 1, l => mergeTree n (mergeLevel l)

/-! ### One block (R114, R116, R117, R122, R151) -/

/-- A key of a group: its position, key values and value row. -/
structure Key where
  t : Nat
  k : List FVal
  v : List FVal
  deriving DecidableEq, Repr

/-- A group of up to 16 positions: the page it is, or none for silt. -/
structure Group where
  page : Option Nat
  keys : List Key
  deriving DecidableEq, Repr

/-- The groups of the pages of a snapshot, ascending. -/
def Snap.pageGroups (s : Snap) : List Group :=
  s.pages.map fun p => { page := some p.1, keys := p.2.zipIdx.map fun t =>
    { t := 16 * p.1 + t.2, k := pageK s.kfmt s.scale t.1, v := pageV s.kfmt s.vfmt s.scale s.dv s.latent t.1 } }

/-- The groups of the silt of a snapshot, by position ÷ 16 (R122). -/
def Snap.siltGroups (s : Snap) : List Group :=
  ((s.silt.map fun x => x.1 / 16).dedup).map fun g =>
    { page := none, keys := (s.silt.filter fun x => x.1 / 16 == g).map fun x =>
      { t := x.1, k := siltK s.kfmt s.scale x.2, v := siltV s.kfmt s.vfmt s.scale s.dv s.latent x.2 } }

/-- The groups of the leaf of rank `i` (R116): its run of the pages, and the silt after the run of the last rank. -/
def Snap.leaf (s : Snap) (i : Nat) : List Group :=
  let gs := s.pageGroups
  let n := max 1 s.tiles
  let big := gs.length % n
  let run := (gs.drop (i * (gs.length / n) + min i big)).take (gs.length / n + if i < big then 1 else 0)
  if i + 1 = n then run ++ s.siltGroups else run

/-- The score of a key for a row, −∞ where the row does not see it (R114, R120). -/
def keyScore (h : AttendHead) (mask : List (BitVec 32)) (sink i : Nat) (q : List FVal) (k : Key) : BitVec 32 :=
  if visible h mask sink i k.t then mul32 h.scl (dotRaw q k.k) else negInf32

/-- The partial of one row on one leaf. -/
def rowLeaf (h : AttendHead) (mask : List (BitVec 32)) (s : Snap) (i : Nat) (q : List FVal) (gs : List Group) : Partial :=
  gs.foldl (fun p g => p.group (fmtClass s.kfmt == 2) (g.keys.map (keyScore h mask s.sink i q)) (g.keys.map (·.v)))
    (Partial.empty s.dv)

/-- The rows of a block: each row's leaves, merged by rank (R116 to R126). -/
def Snap.rows (s : Snap) (h : AttendHead) (mask : List (BitVec 32)) (rows : List (List Nat)) : List Partial :=
  let n := max 1 s.tiles
  let leaves := (List.range n).map s.leaf
  rows.zipIdx.map fun r =>
    let q := queryRow h.qfmt s.kfmt r.1
    (mergeTree n (leaves.map (rowLeaf h mask s (r.2 / max 1 h.nhead) q))).headD (Partial.empty s.dv)

/-- The largest raw dot product of the rows of a head with the visible keys of a page, if there is one (R151). A product that is NaN is left
out of the largest, which the spec does not state; log entry 133. -/
def Snap.bestRaw (s : Snap) (h : AttendHead) (mask : List (BitVec 32)) (rows : List (List Nat)) (page head : Nat) :
    Option (BitVec 32) :=
  let keys := (s.pageGroups.filter fun g => g.page == some page).map (·.keys) |>.flatten
  let mine := rows.zipIdx.filter fun r => r.2 % max 1 h.nhead == head
  let raws := (mine.map fun r =>
    let q := queryRow h.qfmt s.kfmt r.1
    (keys.filter fun k => visible h mask s.sink (r.2 / max 1 h.nhead) k.t).map fun k => dotRaw q k.k).flatten
  (raws.filter fun x => !isNan32 x).foldl (fun b x => match b with | none => some x | some y => some (max32 y x)) none

/-- Checks and violations of R151: every selected page with a finite key, for each head whose rows see it. -/
def Snap.violations (s : Snap) (h : AttendHead) (mask : List (BitVec 32)) (rows : List (List Nat)) : Nat × Nat :=
  s.bounds.foldl (fun c b =>
    match s.bestRaw h mask rows b.1 b.2.1 with
    | none => c
    | some x => (c.1 + 1, if (val32 b.2.2).lt (val32 x) then c.2 + 1 else c.2)) (0, 0)

/-! ### The checks of R112 -/

/-- Whether a query format is accepted (R109): BF16, FP16, E4M3, E5M2. -/
def queryFmt (f : Nat) : Bool := decide (1 ≤ f) && decide (f ≤ 4)

/-- Body bytes implied by R109 to R111. -/
def attendBytes (r : AttendReq) : Nat :=
  64 + (if r.head.mode = 2 then 128 else 0) +
    (r.secs.map fun x => 64 + up64 (r.head.npos * r.head.nhead * x.dk * (fmtOf r.head.qfmt).bits / 8)).sum

/-- The first moved page of the shards of a request, by the node that now serves it (R112, R363). -/
def State.movedShard (s : State) (src : Source) (k : Ctx) (h : AttendHead) (streams : List (Nat × Strm)) : Option Nat :=
  streams.findSome? fun x =>
    ((List.range (lastPage h x.2 - h.plo)).map (h.plo + ·)).findSome? fun p => s.movedTo src k.job k.ctx x.1 p

/-- The checks of R112 in the order of its table: the status and hint of the refusal, or the context and its streams. -/
def State.attendCheck (s : State) (src : Source) (job comp : Nat) (r : AttendReq) :
    (Status × Option Nat) ⊕ (Ctx × List Strm) :=
  let h := r.head
  let nrows := h.npos * h.nhead
  let no (st : Status) : (Status × Option Nat) ⊕ (Ctx × List Strm) := .inl (st, none)
  if r.env.kind ≠ 1 ∨ 3 ≤ h.mode ∨ !queryFmt h.qfmt ∨ h.nstr < 1 ∨ 16 < h.nstr ∨ h.npos < 1 ∨ 32 < h.npos ∨ h.nhead < 1
      ∨ 16 < h.nhead ∨ (h.mode = 1 ∧ (h.slide < 1 ∨ 2 ^ 31 < h.slide)) then no .unsupported
  else if r.secs.length ≠ h.nstr ∨ 64 * r.env.blen ≠ attendBytes r ∨ 2 ^ 21 < attendBytes r
      ∨ (r.secs.any fun x => x.rows.length != nrows || x.rows.any fun q => q.length != x.dk) then no .unsupported
  else
    match s.namedCtx job comp r.env.ctx with
    | .inl st => no st
    | .inr k =>
        let xs := r.secs.map fun x => (x, k.strm? x.stream)
        if xs.any fun x => x.2.elim true fun y : Strm => y.dk != x.1.dk then no .unsupported
        else
          let ys := xs.filterMap (·.2)
          if ys.any fun y => decide (lastPage h y < h.plo) || decide (y.npages < lastPage h y) then no .unsupported
          else if h.silt && ys.any fun y => decide (y.base + y.toks.length < h.horizon) then no .unsupported
          else if h.mode = 2 ∧ h.horizon < h.qpos0 + h.npos then no .unsupported
          else if !finite32 h.scl || !((val32 0).lt (val32 h.scl)) || (h.sieve && decide (h.budget < 1))
              || (h.fb && decide (h.fbudget < 1)) || (h.prescan && !h.sieve) || decide (h.nsplit < h.split) then no .unsupported
          else
            let named := xs.filterMap fun x => x.2.map fun y => (x.1.stream, y)
            match s.epochOk src, s.movedShard src k h named with
            | true, none => .inr (k, ys)
            | _, hint => .inl (.moved, hint)

/-! ### Admission (R52, R113, R134) -/

/-- The bytes of one raw page of a stream (R66), which attending it moves; log entry 132. -/
def rawBytes (y : Strm) : Nat := rawLen y.kfmt y.vfmt y.scale y.dk y.dv y.latent

/-- What a section asks of its slot when its profile attends a number of pages. -/
def secLoad (r : AttendReq) (comp cls : Nat) (y : Strm) (pages : Nat) : Load :=
  let scan := r.head.sieve || r.head.fb
  { cls, comp, fmt := fmtClass y.kfmt, rows := r.head.npos * r.head.nhead, dhead := y.dk, pages,
    grains := if scan then lastPage r.head y - r.head.plo else 0, sketch := if scan then r.head.nhead else 0,
    elem := elemBytes y.kfmt, bytes := pages * rawBytes y }

/-- The class of a request's sections (R113). -/
def attendClass (h : AttendHead) : Nat := if h.sieve then 2 else 1

/-- Pages that a primary attends as far as its arrival shows: at most the budget when it is sieved (R134; log entry 36). -/
def arrivalPages (r : AttendReq) (y : Strm) : Nat :=
  let n := (candidates r.head r.mask y).length
  if r.head.sieve then min r.head.budget n else n

/-- Admit one section (R52, R54, R113): its place in the contract, or the breach that runs it as best-effort work. One that
arrives before synchronisation with a deadline ends there (R39). -/
def State.admitSec (s : State) (src : Source) (job comp : Nat) (r : AttendReq) (q : QSection) (y : Strm) : Sec × State :=
  let cls := attendClass r.head
  let load := secLoad r comp cls y (arrivalPages r y)
  let a := s.admission load (if r.env.dl then some r.env.deadline else none)
  let limit := a.slot.elim 0 fun n => s.limitOf n load
  let s := match a.slot, a.cause with
    | some n, _ => s.takePlace n load
    | none, some c => s.breach c a.named cls comp a.late job (sourceNode s src) r.env.tag.toNat
    | none, none => s
  ({ stream := q.stream, slot := a.slot, breach := a.cause, arrive := s.phase, due := 0, limit, begun := 0, formula := 0,
     running := false, run := 0, snap := none,
     block := if a.cause = some 10 then some (.bare .contractBreach 2 q.stream y.dv none) else none, sent := false, lost := false, tiles := 0,
     left := 0, paused := false }, s)

/-- Admit the sections of a request in order. -/
def State.admitSecs (s : State) (src : Source) (job comp : Nat) (r : AttendReq) : List (QSection × Strm) → List Sec × State
  | [] => ([], s)
  | x :: xs =>
    let (a, s) := s.admitSec src job comp r x.1 x.2
    let (as_, s) := s.admitSecs src job comp r xs
    (a :: as_, s)

/-- An attention request arrives (R112, R113, R128): refused whole, or admitted section by section. A dormant context starts
its recall, with the request's streams first (R252). -/
def State.attend (s : State) (src : Source) (r : AttendReq) : State :=
  let (job, comp) := s.sourceOf src
  let s := s.adirStall 0 (ctxKey job r.env.ctx)
  match s.compRefusal comp with
  | some st => s.refuseAttend src r st none
  | none =>
    match s.attendCheck src job comp r with
    | .inl (st, hint) => s.refuseAttend src r st hint
    | .inr (k, ys) =>
      let (secs, s) := s.admitSecs src job comp r (List.zip r.secs ys)
      let id := s.rq.nextId
      let all := secs.all fun x => x.block.isSome
      let req : Req := { id, src, job, comp, req := r, secs, queue := none, asked := false, stopped := false, bytes := 0 }
      let s := { s with rq := { s.rq with reqs := s.rq.reqs ++ [req], nextId := id + 1 } }
      let s := if k.dormant && !all then s.wake k (r.secs.map (·.stream)) none [] else s
      if all then s.endReq .contractBreach req else s

/-- ATTEND_REQUEST (R112). In single-card mode a request that comes over a fabric port is served and answered like any other: log entry 157. -/
def execAttendRequest (t : Nat) (src : Source) (r : AttendReq) (s : State) : Res :=
  let s := s.arrive t
  .next (if !s.ready then s else if s.noAdmission then s.hold (.attendRequest t src r) else s.attend src r)

/-! ### Dispatch (R57, R82, R92, R115, R128, R143, R148) -/

/-- The work that a running section has still to do on its tiles, as a load. -/
def Sec.load (r : Req) (x : Sec) : Load :=
  match x.snap with
  | none => { cls := 1, comp := r.comp }
  | some p =>
    { cls := if r.req.head.sieve || x.run == 1 then 2 else 1, comp := r.comp, fmt := fmtClass p.kfmt,
      rows := r.req.head.npos * r.req.head.nhead, dhead := p.dk, pages := p.pages.length, grains := p.cand,
      sketch := r.req.head.nhead, elem := elemBytes p.kfmt }

/-- What the attention sections on the tiles add to W (R57), in ticks: what the one that runs first has left, and the issue intervals of
those queued behind it. -/
def State.sectionsAhead (s : State) (tiles : BitVec 48) : Nat :=
  let now := s.tickOf s.phase
  let xs := (s.rq.reqs.map fun r => (r.secs.filter fun x => x.running && !x.paused && (x.tiles &&& tiles) != 0).map fun x => (r, x)).flatten
  let first := xs.foldl (fun (b : Option Nat) x => match b with | none => some x.2.begun | some n => some (min n x.2.begun)) none
  (xs.map fun x =>
    if some x.2.begun = first then (s.ticksTo now x.2.due).toNat else ticksUp (s.interval (x.2.load x.1) (tileCount x.2.tiles))).sum

/-- What the searches that run on the tiles have left of their bounds (R57), in ticks. -/
def State.searchesAhead (s : State) (tiles : BitVec 48) : Nat :=
  let mine (x : Search) : BitVec 48 := match x.slot.bind fun n => s.slots.find? fun e => e.1 == n with
    | some e => e.2.tiles
    | none => s.compTiles x.comp
  ((s.rq.searches.filter fun x => x.running && !x.paused && (mine x &&& tiles) != 0).map fun x =>
    ticksUp x.formula - (s.timer - x.begun) / 16).sum

/-- What the slots whose work is their own (flush, tamp, scrub, migration, rebuild) have left of their bounds on the tiles (R57), in
ticks. -/
def State.slotsAhead (s : State) (tiles : BitVec 48) : Nat :=
  ((s.slotsNow.filter fun e => (e.2.opclass == 4 || (decide (8 ≤ e.2.opclass) && decide (e.2.opclass ≤ 11))) && (e.2.tiles &&& tiles) != 0
      && (s.slotRun e.1).started && !(s.slotRun e.1).ended).map fun e =>
    s.bound e.2.maxima (tileCount e.2.tiles) 0 - (s.timer - (s.slotRun e.1).since) / 16).sum

/-- W of R57 in ticks: the predicted remaining times of the work queued ahead on the tiles. -/
def State.queuedAhead (s : State) (tiles : BitVec 48) : Nat := s.sectionsAhead tiles + s.searchesAhead tiles + s.slotsAhead tiles

/-- Tiles and ports of a section: its slot's, or for best-effort work the composition's tiles and the reply-path queue's ports
(R50, R116). -/
def State.secShape (s : State) (r : Req) (x : Sec) : BitVec 48 × Nat :=
  match x.slot.bind fun n => s.slots.find? fun e => e.1 == n with
  | some e => (e.2.tiles, tileCount (BitVec.ofNat 48 e.2.ports.toNat))
  | none => (s.compTiles r.comp, r.queue.elim 1 fun q => tileCount (BitVec.ofNat 48 (s.queue q).ports.toNat))

/-- Whether the stored bytes of a packed frame do not decode (R191): those that topsoil holds at its place, or those found at its
installation. -/
def State.malformed (s : State) (y : Strm) (d : Desc) (f : Frame) : Bool :=
  d.packed && if d.tier = 0 then
      (unpackPage (pageRegions y.kfmt y.vfmt y.scale y.dk y.dv y.latent) (rawLen y.kfmt y.vfmt y.scale y.dk y.dv y.latent)
        (s.load f.npa (64 * d.clen))).isNone
    else f.bad

/-- Why a selected page ends the block (R82, R148): the status and, for a generation, what was found. The generation is checked first:
where it and the PAGE or STREAM both differ, the block ends with STALE_GEN; log entry 135. -/
def State.pageBad (s : State) (sieved : Bool) (y : Strm) (stream p : Nat) (g : Page) : Option (Status × Nat × Nat) :=
  match s.resolve g.desc with
  | none => some (.staleGen, g.desc.gen, if g.desc.borrowed then (s.homeOf g).gen else 0)
  | some d =>
    if sieved && g.grain.gen != d.gen then some (.staleGen, d.gen, g.grain.gen)
    else if sieved && (g.grain.page != p || g.grain.stream != stream) then some (.integrity, 0, 0)
    else if s.unreadable d then some (.integrity, 1, 0)
    else match s.frame? d.frame with
      | none => some (.staleGen, d.gen, 0)
      | some f => if s.malformed y d f then some (.integrity, 2, f.npa) else none

/-- The heat of the level-3 tables that a request attends: one more than the step (R253). -/
def State.warm (s : State) (job ctx stream : Nat) (pages : List Nat) : State :=
  s.setStrm job ctx stream fun x => { x with heat := pages.foldl (fun h p => put h (p / 512) (s.step + 1)) x.heat }

/-- Run a section on the profile that the monitor chose: the pages are checked, and what it attends is fixed (R92, R119, R149).
Pages in subsoil are read through their leases (R245), and pages in hardpan from their chunks (R234). DESIGN CHOICE (log entry 167): where no
lease or queue lets the read be sent, the block ends with STALE_GEN. -/
def State.runSec (s : State) (r : Req) (i : Nat) (q : QSection) (y : Strm) (run : Nat) (sel cands : List Nat)
    (bounds : List (Nat × Nat × BitVec 32)) (scan : List (Nat × BitVec 32)) (keep : Nat) (tiles : BitVec 48) (due begun : Nat)
    (formula : Rat) : State :=
  let h := r.req.head
  let sieved := h.sieve || run == 1
  let s := s.setSec r.id i fun x => { x with run, running := true, due, begun, formula, tiles }
  let pages := sel.filterMap fun p => (y.pages[p]?).map fun g => (p, g)
  match pages.findSome? fun p => (s.pageBad sieved y q.stream p.1 p.2).map fun b => (p.1, b) with
  | some (p, st, want, got) =>
    let s := if st = .staleGen then s.genMismatch r.job r.req.env.ctx q.stream p want got
      else if want = 0 then
        let s := s.countC r.comp 0x3310 4 1
        { s with rel := { s.rel with queued := s.rel.queued ++ [y.chunkOf p] } }
      else if want = 2 then
        let s := s.countC r.comp 0x3210 1 1
        { s with rel := { s.rel with queued := s.rel.queued ++ [got] } }
      else s
    s.endSec r.id i st
  | none =>
    let toks := pages.filterMap fun p => (s.frameOf p.2.desc).map fun f => (p.1, f.2.toks)
    let silt := if h.silt then
        ((List.range y.toks.length).zip y.toks).filterMap fun t =>
          if 16 * y.npages ≤ y.base + t.1 ∧ y.base + t.1 < h.horizon then some (y.base + t.1, t.2) else none
      else []
    let snap : Snap :=
      { pages := toks, keys := pages.filterMap fun p => (s.frameOf p.2.desc).map fun f => f.1.frame, silt, cand := cands.length, tiles := tileCount tiles, sink := y.sink, kfmt := y.kfmt, vfmt := y.vfmt,
        scale := y.scale, dk := y.dk, dv := y.dv, latent := y.latent, bounds := if sieved then bounds else [], comp := r.comp, scan, keep,
        grains := if h.sieve || h.fb then (y.l3.filter fun e => decide (512 * e.1 < lastPage h y) && decide (h.plo < 512 * (e.1 + 1))).map (·.2.grains) else [],
        zeros := (pages.filterMap fun p => (s.frameOf p.2.desc).map fun f =>
          if f.1.packed then zeroValues y.kfmt y.vfmt y.scale y.dk y.dv y.latent f.2.toks else 0).sum }
    let s := s.setSec r.id i fun x => { x with snap := some snap }
    let s := s.countC r.comp 0x3210 4 ((q.rows.map (querySat h.qfmt y.kfmt)).sum)
    let s := s.warm r.job r.req.env.ctx q.stream sel
    pages.foldl (fun s p =>
      match s.resolve p.2.desc with
      | some d =>
        if d.tier = 1 then
          let (ok, s) := s.readSub r.comp y d (.fetch r.id i p.1)
          if ok then s else s.endSec r.id i .staleGen
        else if d.tier = 2 then s.readChunks (16 * d.addr) (recordCount (64 * d.clen))
        else s
      | none => s) s

/-- Whether a page of a lost member waits for its rebuild (R421). -/
def State.pendingPage (s : State) (job ctx stream page : Nat) : Bool :=
  s.rel.pendPages.any fun p => p.2.1 == ctx && p.2.2.1 == stream && p.2.2.2.1 == page && p.2.2.2.2 == job

/-- Pending pages that a request needs are rebuilt first (R427); each is counted once it is demanded. -/
def State.demand (s : State) (c job ctx stream : Nat) (pages : List Nat) : State :=
  let items := pages.map fun p => (c, ctx, stream, p, job)
  if items.all fun x => (s.rel.pendPages.take 64).contains x then s
  else
    let s := s.countC c 0x3403 c items.length
    { s with rel := { s.rel with pendPages := items ++ s.rel.pendPages.filter fun x => !items.contains x } }

/-- Dispatch one section (R57, R115, R134 to R147): selection under both profiles, from the merged lists of the grain chunks, the monitor's
choice, and the run. -/
def State.dispatchSec (s : State) (r : Req) (i : Nat) (x : Sec) (k : Ctx) (q : QSection) (y : Strm) : State :=
  let h := r.req.head
  let cands := candidates h r.req.mask y
  let forced := forcedSet h y cands
  let heads := if h.sieve || h.fb then headSketches k.seed q.stream h q.rows else []
  let mg := (s.margin k.comp).mg
  let bounds := (cands.map fun p => (y.pages[p]?).elim [] fun g => heads.zipIdx.map fun e => (p, e.2, pageBound mg g.grain e.1)).flatten
  let key (p : Nat) : BitVec 32 := pageKey ((bounds.filter fun b => b.1 == p).map (·.2.2))
  let finite := bounds.filter fun b => finite32 (key b.1)
  let scan := if h.sieve || h.fb then (cands.filter fun p => !nearPage h y p).map fun p => (p, key p) else []
  let keep (b : Nat) : Nat := keptPages b (cands.length - scan.length)
  let pick (b : Nat) : List Nat :=
    let lists := mergedLists scan (keep b)
    selectPages (cands.filter fun p => forced.contains p || lists.contains p) forced key b
  let s1 := if h.sieve then pick h.budget else cands
  let s2 := if h.fb then pick h.fbudget else []
  let (tiles, ports) := s.secShape r x
  let n := tileCount tiles
  let cls := attendClass h
  let b1 := s.boundNs (secLoad r.req r.comp cls y s1.length) n ports
  let b2 := s.boundNs (secLoad r.req r.comp 2 y s2.length) n ports
  let now := s.tickOf s.phase
  let w := s.queuedAhead tiles
  let alpha := s.alphaOf cls
  let left : Int := s.ticksTo now (s.tickOf r.req.env.deadline) - s.pdNum 0x7020 3
  let late := r.req.env.dl && decide ((left : Rat) < (w : Rat) + alpha * (ticksUp b1 : Rat))
  let fb := h.fb && (late || s.forceFallback)
  let (run, sel, b) := if fb then (1, s2, b2) else (0, s1, b1)
  let sieved := h.sieve || fb
  let budget := if fb then h.fbudget else h.budget
  let want := sel.filter fun p => s.pendingPage r.job r.req.env.ctx q.stream p
  if want ≠ [] then s.demand k.comp r.job r.req.env.ctx q.stream want else
  let s := if sieved then
      let s := s.countC k.comp 0x3310 1 1
      let s := if cands.length < budget then s.countC k.comp 0x3310 3 1 else s
      if budget < forced.length then s.countC k.comp 0x3310 2 1 else s
    else s
  let beyond := x.slot.elim false fun m => (s.slots.find? fun e => e.1 == m).elim false fun e => decide (e.2.pages < sel.length)
  let s := if beyond && sieved then
      (s.breach 2 x.slot cls r.comp 0 r.job (sourceNode s r.src) r.req.env.tag.toNat).setSec r.id i fun x => { x with breach := some 2 }
    else s
  s.runSec r i q y run sel cands (finite.filter fun b => sel.contains b.1) scan (keep budget) tiles
    (now + w + (alpha * (ticksUp b : Rat)).ceil.toNat) (s.timer + 16 * w) b

/-- The pages of the first quantum of a best-effort section (R60): none where no quantum fits. -/
def State.secUnits (s : State) (r : Req) (y : Strm) (tiles : BitVec 48) (ports : Nat) : Option Nat :=
  let load (n : Nat) : Nat := ticksUp (s.boundNs (secLoad r.req r.comp (attendClass r.req.head) y n) (tileCount tiles) ports)
  s.fitUnits r.comp (attendClass r.req.head) tiles load 28 (arrivalPages r.req y)

/-- REQUEST_DISPATCH of a section of an attention request. Nothing happens while it waits: for its slot's start (R53), for slack
when it runs as best-effort work (R60), for its stream's recall (R252), or while admission is stopped. In a HOLD it ends with REPLAY
(R57); without a reply path nothing of it is executed (R128). A section that needs a pending page of a lost member waits for its
rebuild (R427). -/
def State.dispatchAttend (s : State) (r : Req) (i : Nat) : State :=
  match r.secs[i]?, r.req.secs[i]? with
  | some x, some q =>
    if x.block.isSome || x.running || s.noAdmission then s
    else
      let path := if r.asked then some r.queue else s.pathOf r.src r.comp r.job r.req.env.rnode
      match path with
      | none =>
        let s := s.noReply r.comp r.req.env.rnode
        { s with rq := { s.rq with reqs := s.rq.reqs.filter fun y => y.id != r.id } }
      | some queue =>
        let r := { r with queue, asked := true }
        let s := s.setReq r.id fun y => { y with queue, asked := true }
        if s.phs.held then s.endReq .replay r
        else
          match s.ctx? r.job r.req.env.ctx with
          | none => s.endSec r.id i .staleGen
          | some k =>
            match k.strm? q.stream with
            | none => s.endSec r.id i .staleGen
            | some y =>
              let (tiles, ports) := s.secShape r x
              let part := s.secUnits r y tiles ports
              let start := x.slot.elim (s.bestEffort && part.isSome) fun n => s.mayWork n x.arrive
              if !start then s
              else if !(r.req.secs.all fun z => s.resident k z.stream) then
                let called := s.tier.recalls.any fun c => c.whole && c.job == k.job && c.ctx == k.ctx
                if called then s else s.wake k (r.req.secs.map (·.stream)) none []
              else if k.dormant && s.tablesLost y then s.endSec r.id i .integrity
              else
                let named := r.req.secs.filterMap fun z => (k.strm? z.stream).map fun y => (z.stream, y)
                match s.epochOk r.src, s.movedShard r.src k r.req.head named with
                | true, none =>
                  if r.req.head.silt && decide (y.base + y.toks.length < r.req.head.horizon) then s.endSec r.id i .unsupported
                  else
                    let s := s.dispatchSec r i x k q y
                    if x.slot.isSome then s
                    else s.setSec r.id i fun x => { x with left := (x.snap.elim 0 (·.pages.length)) - part.getD 0 }
                | _, hint => s.endReqAt .moved hint r
  | _, _ => s

/-- The next quantum of a best-effort section goes on where the last one ended, at a page boundary (R60). -/
def State.continueSec (s : State) (r : Req) (i : Nat) : State :=
  match r.secs[i]? with
  | some x =>
    match x.snap with
    | some p =>
      let (tiles, ports) := s.secShape r x
      let load (n : Nat) : Nat :=
        ticksUp (s.boundNs { cls := 1, comp := r.comp, fmt := fmtClass p.kfmt, rows := r.req.head.npos * r.req.head.nhead, dhead := p.dk,
                             pages := n, elem := elemBytes p.kfmt } (tileCount tiles) ports)
      match s.fitUnits r.comp (attendClass r.req.head) tiles load 28 x.left with
      | some n => s.setSec r.id i fun x => { x with left := x.left - n, paused := false }
      | none => s
    | none => s
  | none => s

/-! ### Completion (R59, R106, R122 to R127, R151) -/

/-- A shadow keeps the CRC of each block of its own, to compare with the source's (R432). -/
def State.shadowOwn (s : State) (c tag sec : Nat) (b : List Byte) : State :=
  if s.shadows c then
    { s with rel := { s.rel with joining := s.rel.joining.map fun a => { a with own := (tag, sec, crc64 b) :: a.own } } }
  else s

/-- The pages outside topsoil that a request has attended may be promoted after it (R254). -/
def State.noteAttended (s : State) (job ctx stream : Nat) (pages : List Nat) : State :=
  let far := (pages.filter fun p => (s.page? job ctx stream p).elim false fun g => (s.homeOf g).valid && (s.homeOf g).tier != 0).map fun p =>
    (job, ctx, stream, p)
  { s with tier := { s.tier with attended := far ++ s.tier.attended.filter fun a => !far.contains a } }

/-- The block of a section whose exact attention has ended. The checks and violations of R151 count in the step in which it ends; log
entry 134. -/
def State.finishSec (s : State) (r : Req) (i : Nat) (x : Sec) (p : Snap) (rows : List (List Nat)) : State :=
  let h := r.req.head
  let (checks, viols) := p.violations h r.req.mask rows
  let s := if p.bounds = [] then s else s.marginCount p.comp checks viols
  let s := if p.zeros = 0 then s else s.countC p.comp 0x3210 5 p.zeros
  let (late, s) := s.lateBreach r.src r.req.env r.queue r.job r.comp (attendClass h) x.slot x.breach x.limit
  let st : Status := if late then .contractBreach else if x.run = 1 then .okFallback else .ok
  let n := p.pages.length
  let block : Block :=
    { status := st, run := x.run, stream := x.stream, rows := p.rows h r.req.mask rows, dv := p.dv, pages := n,
      tokens := 16 * n + p.silt.length, cand := if h.sieve || x.run == 1 then p.cand else n, hint := none }
  let s := s.setSec r.id i fun x => { x with block := some block, running := false }
  let s := s.noteAttended r.job r.req.env.ctx x.stream (p.pages.map (·.1))
  let s := s.shadowOwn r.comp r.req.env.tag.toNat i (block.toBytes r.req.env h)
  let s := match x.slot with
    | some m => s.donePlace m x.arrive
    | none => s
  (s.ratio (attendClass h) x.begun x.formula).flush r.id

/-- Whether an NMU has yet to return the records of a chunk of a section (R146), which its selection merges. -/
def State.scanOut (s : State) (id sec : Nat) : Bool :=
  s.hbm.nmus.any fun n => n.2.granted && match n.2.op with | .grainScan a b _ => a == id && b == sec | _ => false

/-- ATTENTION_COMPLETE (R127): the exact attention of a section and its merge end; the scans of its grains have returned (R146) and its
subsoil frames have all been read (R245). Of a
best-effort section with pages left, the quantum ends and the section waits for the next (R60). -/
def execAttentionComplete (t id sec : Nat) (s : State) : Res :=
  let s := s.arrive t
  match s.req? id with
  | none => .next s
  | some r =>
    match r.secs[sec]?, r.req.secs[sec]? with
    | some x, some q =>
      let waits := s.scanOut id sec || s.inFlight fun p => match p with | .fetch a b _ => a == id && b == sec | _ => false
      match x.snap with
      | some p =>
        if x.running && x.block.isNone && !x.lost && !waits && !x.paused then
          if x.left = 0 then .next (s.finishSec r sec x p q.rows) else .next (s.setSec id sec fun x => { x with paused := true })
        else .next s
      | none => .next s
    | _, _ => .next s

end Sys2Proof.Machine
end

