-- ==== Sys2Proof/Machine/Ports.lean ====
section
/-! DEFINITION. Ports and their links as the rest of the node uses them (R266 to R275, R279, R280, R288, R289, R294, R296): groups and
lanes, data and control flits as they leave, the flits of a packet, fault injection, and the state a port is in. -/

namespace Sys2Proof.Machine

/-- A link event (R290). -/
def State.linkEvent (s : State) (p code : Nat) : State :=
  s.event { cls := 1, code, subj := p, detail := if (s.port p).peerv then leBytes 2 (s.port p).peer else [] }

/-- A port enters a state: the time is noted, and leaving UP raises LINK_DOWN (R281, R290). -/
def State.enterPort (s : State) (p : Nat) (st : PortState) : State :=
  let x := s.port p
  let was := x.st == .up
  let s := s.setPort p { x with st, since := s.timer, downAt := if was && st != .up then s.timer else x.downAt }
  if was && st != .up then s.linkEvent p 2 else s

/-- Whether a port that is to enter fallow sends no more data flits of a VL (R284): VL0 to VL5 wait until DRAINED reads 1 at both
ends. -/
def State.emptying (s : State) (x : Port) (vl : Nat) : Bool :=
  decide (7 ≤ s.pwr.stage) && x.st == .up && x.mode == 0 && x.fallowOk && decide (vl < 6)

/-! ### Groups and lanes (R266, R267) -/

/-- Active lanes of a port, by its LANES code (R291). -/
def Port.width (x : Port) : Nat := if x.lanes = 0 then 8 else if x.lanes = 3 then 1 else 4

/-- The numbers of the active lanes, which every codeword of theirs carries in two of its symbols (R266). -/
def Port.laneNos (x : Port) : List Nat :=
  if x.lanes = 0 then List.range 8 else if x.lanes = 3 then [0] else (List.range 4).map fun i => if x.lanes = 2 then i + 4 else i

/-- Flit slots of a group on so many lanes: 5,120 B on 8, else 2,560 B (R266). -/
def groupSlots (w : Nat) : Nat := if w = 8 then 20 else 10

/-- The next group that a port begins after a time. The groups of a port are counted from local time 0, one every 24.286 ns, or 409.6 ns in
fallow (R266); DESIGN CHOICE (log entry 177). -/
def Port.groupAt (x : Port) (now : Nat) : Nat := (if x.width = 1 then now * 10 / 16384 else now * 7 / 680) + 1

/-- CRC-32C (Castagnoli) of bytes (R268): reflected, from all ones, complemented. -/
def crc32c (bs : List Byte) : BitVec 32 :=
  let bit (c : Nat) : Nat := if c % 2 = 1 then (c >>> 1) ^^^ 0x82F63B78 else c >>> 1
  let byte (c : Nat) (b : Byte) : Nat := (List.range 8).foldl (fun c _ => bit c) (c ^^^ b.toNat)
  BitVec.ofNat 32 ((bs.foldl byte 0xFFFFFFFF) ^^^ 0xFFFFFFFF)

/-- Bytes 0 to 251 of a data or idle flit (R268). -/
def flitBytes (f : Flit) : List Byte :=
  leBytes 2 (f.fseq.toNat + fieldAt f.ft 4 12) ++ leBytes 1 (fieldAt f.vl 3 0 + flagAt f.som 3 + flagAt f.eom 4) ++ leBytes 1 (fieldAt f.blen 4 0)
    ++ leBytes 2 (fieldAt f.dest 14 0) ++ leBytes 2 (fieldAt f.src 14 0) ++ leBytes 2 (fieldAt f.plen 6 0) ++ [0, 0] ++ padTo 240 f.body

/-- The CRC of a flit (R268). -/
def flitCrc (f : Flit) : BitVec 32 := crc32c (flitBytes f)

/-- RTYPE of a record (R270). -/
def recType : LinkRec → Nat
  | .empty => 0 | .mark _ => 1 | .markCopy _ => 2 | .delayReq _ => 3 | .delayRsp _ _ => 4 | .note => 5

/-- The 32 bytes of a record slot (R270, R279, R280). -/
def recBytes : LinkRec → List Byte
  | .empty => List.replicate 32 0
  | .mark m => markBytes m
  | .markCopy m => markBytes m
  | .delayReq time => padTo 32 (leBytes 8 time)
  | .delayRsp time turn => padTo 32 (leBytes 8 time ++ leBytes 8 turn)
  | .note => List.replicate 32 0

/-- Bytes 0 to 251 of a control flit (R270). -/
def ctlBytes (f : CtlFlit) : List Byte :=
  leBytes 2 (f.ackseq.toNat + 0x2000) ++ leBytes 1 (flagAt f.nak 0 + flagAt f.fallow 1 + flagAt f.drained 2) ++ leBytes 1 f.recs.length
    ++ ((List.range 8).map fun v => leBytes 2 (f.cred.getD v 0).toNat).flatten ++ List.replicate 4 0
    ++ padTo 6 (f.recs.map fun r => BitVec.ofNat 8 (recType r)) ++ [0, 0] ++ padTo 192 (f.recs.map recBytes).flatten ++ List.replicate 28 0

/-- The CRC of a control flit (R270). -/
def ctlCrc (f : CtlFlit) : BitVec 32 := crc32c (ctlBytes f)

/-! ### Fault injection (R288, R289) -/

/-- The next value of the Galois register with the polynomial of R289, shifting toward bit 0 (log entry 30). -/
def lfsrNext (x : BitVec 32) : BitVec 32 := if x.getLsbD 0 then (x >>> 1) ^^^ 0x80200003 else x >>> 1

/-- One decision of fault injection (R289): whether the fault is injected. -/
def Port.inject (x : Port) : Bool × Port :=
  let v := lfsrNext x.lfsr
  (decide (v.toNat < x.frate.toNat), { x with lfsr := v })

/-- Codewords of a group: one on each active lane, or four in succession on the one lane of fallow (R266). -/
def Port.codes (x : Port) : Nat := if x.width = 1 then 4 else x.width

/-- The decisions of CORRUPT for the codewords of the groups up to one (R288, R289), lane by lane in each: 8 symbols of a codeword are flipped, or with
SEV 20. -/
def State.corrupt (s : State) (p group : Nat) : State :=
  let x := s.port p
  if x.fmode ≠ 1 ∨ s.pdBool 0xA010 0 = false then s
  else
    let (y, hits) := (List.range ((group - x.corrAt) * x.codes)).foldl (fun (a : Port × List Out) i =>
      let (hit, y) := a.1.inject
      (y, if hit then .corrupt p (x.corrAt + 1 + i / x.codes) (x.laneNos.getD (i % x.codes) 0) (if x.fsev then 20 else 8) :: a.2 else a.2)) (x, [])
    { s.setPort p { y with corrAt := max x.corrAt group } with out := hits ++ s.out }

/-! ### Data flits sent (R266, R271 to R273) -/

/-- A data flit leaves in the next free slot of the port's groups; slot 0 is the control flit's, and slots that no data flit takes hold idle flits
(R267). -/
def State.sendFlit (s : State) (p : Nat) (f : Flit) : State :=
  let x := s.port p
  let g := x.groupAt s.timer
  let at_ := if x.slotAt.1 < g then (g, 1) else if x.slotAt.2 + 1 < groupSlots x.width then (x.slotAt.1, x.slotAt.2 + 1) else (x.slotAt.1 + 1, 1)
  (((s.setPort p { x with slotAt := at_ }).emit (.flit p at_.1 at_.2 f (flitCrc f))).corrupt p at_.1)

/-- Flits of a segment's packet leave in order (R271 to R273): each needs a credit of its VL and a place among the 1,024
unacknowledged; a flit behind a blocked one of its VL waits. After a retrain none leaves before the far end's ACKSEQ has come (R281). -/
def State.drainPort (s : State) (p : Nat) : State :=
  let x := s.port p
  let step (a : State × List Flit × List Nat) (f : Flit) : State × List Flit × List Nat :=
    let (s, left, stuck) := a
    let x := s.port p
    if stuck.contains f.vl || !x.carries f.vl || x.resync || s.emptying x f.vl || s.credits p f.vl == 0 || decide (1024 ≤ x.replay.length) then
      (s, left ++ [f], f.vl :: stuck)
    else
      let f := { f with fseq := x.nextSeq }
      let sent := setAt x.sent f.vl ((x.sent.getD f.vl 0 + 1) % 2 ^ 16)
      let ackAt := if x.replay = [] then s.timer else x.ackAt
      let s := s.setPort p { x with nextSeq := x.nextSeq + 1, replay := x.replay ++ [f], sent, ackAt }
      ((s.count 0x4015 p).sendFlit p f, left, stuck)
  let (s, left, _) := x.tx.foldl step (s, [], [])
  (s.setPort p { s.port p with tx := left }).noteAll

/-! ### Control flits sent (R267, R270) -/

/-- Whether a port sends control flits: it trains or runs in Damlis mode (R267, R281). -/
def Port.talks (x : Port) : Bool := x.en && x.mode == 0 && x.st != .down && x.st != .failed

/-- The control flit that a port sends as it stands, with some records (R270): the last flit received in sequence, whether a replay is asked for,
fallow, whether no data flit is unacknowledged, and the flits freed. -/
def State.ctlFlit (s : State) (p : Nat) (recs : List LinkRec) : CtlFlit :=
  let x := s.port p
  { ackseq := x.expect - 1, nak := x.nak, fallow := x.st == .fallow || s.emptying x 0, drained := x.replay == [],
    cred := (List.range 8).map fun v => BitVec.ofNat 16 (x.rfreed.getD v 0), recs }

/-- Place a record in a control flit of a port: that of the first group to come, from a group on, whose six slots are not full (R270). The
group. -/
def State.putRec (s : State) (p from_ : Nat) (r : LinkRec) : Nat × State :=
  let x := s.port p
  let g := max (x.groupAt s.timer) from_
  let h := ((List.range (x.ctlRecs.length + 1)).find? fun i => decide ((x.ctlRecs.filter fun e => e.1 == g + i).length < 6)).elim g (g + ·)
  (h, s.setPort p { x with ctlRecs := x.ctlRecs ++ [(h, r)] })

/-- The control flits of the next group, and of later groups that hold records, leave as the port stands now, in place of what was to leave in them.
A looped port hears itself (R291). -/
def State.sendCtl (s : State) (p : Nat) : State :=
  let x := s.port p
  if !x.talks then s
  else if x.loop then
    let f := s.ctlFlit p []
    s.setPort p { x with ctlRecs := [], freed := f.cred, peerFallow := f.fallow, peerDrained := f.drained }
  else
    let g := x.groupAt s.timer
    let recs := x.ctlRecs.filter fun e => decide (g ≤ e.1)
    let groups := (g :: recs.map (·.1)).dedup
    let old (o : Out) : Bool := match o with | .control q h _ _ _ => q == p && groups.contains h | _ => false
    let flit (h : Nat) : Out :=
      let f := s.ctlFlit p ((recs.filter fun e => e.1 == h).map (·.2))
      .control p h x.laneNos f (ctlCrc f)
    let s := { s.setPort p { x with ctlRecs := recs } with out := (groups.map flit).reverse ++ s.out.filter fun o => !old o }
    s.corrupt p g

/-- The port asks for the delay of its link (R280): a DELAY_REQ with the time at which it leaves. -/
def State.delayAsk (s : State) (p : Nat) : State :=
  let (n, s) := s.draw
  let (_, s) := s.putRec p 0 (.delayReq (s.timer + Config.residence n))
  s.sendCtl p

/-- The 48-byte header of a segment (R294). -/
def segHeader (g : Segment) : List Byte :=
  leBytes 1 g.opc ++ leBytes 1 (flagAt g.flag 0 + flagAt g.ce 1 + flagAt g.dom 2) ++ leBytes 2 g.conn ++ leBytes 3 g.job ++ [0]
    ++ leBytes 2 g.osrc ++ leBytes 2 g.fdest ++ leBytes 2 g.rcid ++ leBytes 2 g.kgen.toNat ++ leBytes 4 g.cseq.toNat
    ++ leBytes 4 g.mlen ++ leBytes 4 g.off ++ leBytes 2 g.win ++ leBytes 2 g.wgen.toNat ++ leBytes 2 g.epoch.toNat
    ++ leBytes 2 g.slen ++ leBytes 4 g.mtag.toNat ++ leBytes 8 g.addr

/-- The 96-bit IV of a segment (R392), from its header, the high part of its extended sequence and its response ordinal. -/
def segIv (g : Segment) (high ord : Nat) : List Byte :=
  let resp := decide (0x10 ≤ g.opc)
  leBytes 12 (fieldAt (if resp then g.fdest else g.osrc) 14 82 + flagAt g.dom 81 + flagAt resp 80 + fieldAt g.conn 13 67 + fieldAt high 14 53
    + fieldAt g.cseq.toNat 32 21 + fieldAt (g.off / 7616) 9 12 + (if resp then fieldAt ord 4 8 + fieldAt g.addr 8 0 else 0))

/-- The body of a packet (R294, R296): the header, the payload sealed under the link key of the job at the header's generation, padded to 16 B,
and the tag. AES-256-GCM is not the spec's: what it makes of a key, an IV, the header and the payload is a free value (log entry 4). -/
def segBody (g : Segment) (high ord : Nat) : List Byte :=
  let c := Config.gcm g.job g.kgen (segIv g high ord) (segHeader g) g.data
  segHeader g ++ padMul 16 (padTo g.data.length c.1) ++ padTo 16 c.2

/-- The body of a packet that a gateway passes on (R296): its payload is the sealed one that came. -/
def rawBody (g : Segment) : List Byte :=
  let b := segHeader g ++ padMul 16 g.data
  b ++ padTo 16 (Config.tagCame b)

/-- How a datagram leaves by a gateway port (R285, R286): by the interface of lanes 0 to 3; log entry 160. -/
def State.gwVia (s : State) (port : Nat) (payload : List Byte) : GwVia :=
  { port, iface := 0, udp := s.pdNum 0x4005 0, dscp := s.pdNum 0x4005 1, addrs := s.pd.bytes 0x4006 port, payload }

/-- The 16-byte header of a gateway datagram (R286). -/
def gwHead (vl src dst n : Nat) (gseq : BitVec 32) : List Byte :=
  leBytes 1 1 ++ leBytes 1 (fieldAt vl 3 0) ++ leBytes 2 (fieldAt src 14 0) ++ leBytes 2 (fieldAt dst 14 0) ++ leBytes 2 n ++ leBytes 4 gseq.toNat
    ++ List.replicate 4 0

/-- The flits of a packet (R268), without their sequence numbers. -/
def packetOf (vl src dest : Nat) (body : List Byte) : List Flit :=
  let parts := chunks 240 body
  let n := parts.length
  parts.zipIdx.map fun b =>
    { fseq := 0, ft := 1, vl, som := b.2 == 0, eom := b.2 + 1 == n, blen := (b.1.length + 15) / 16, dest, src,
      plen := if b.2 = 0 then n else 0, body := padTo 240 b.1 }

/-- A packet is handed to a port's link (R288): dropped or held behind later packets, where injection is permitted, or sent; packets held
long enough follow. -/
def State.sendPacket (s : State) (p vl : Nat) (flits : List Flit) : State :=
  let x := s.port p
  let subject := s.pdBool 0xA010 0 && bitAt x.fvlmask.toNat vl
  let (hit, x) := if (x.fmode = 2 ∨ x.fmode = 3) ∧ subject then x.inject else (false, x)
  if hit && x.fmode == 2 then s.setPort p x
  else if hit then s.setPort p { x with held := x.held ++ [(max 1 x.fdepth, flits)] }
  else
    let mine (h : Nat × List Flit) : Bool := (h.2.head?.map (·.vl)) == some vl
    let held := mapIf mine (fun h => (h.1 - 1, h.2)) x.held
    let out := (held.filter fun h => h.1 == 0).map (·.2)
    let s := s.setPort p { x with tx := x.tx ++ flits ++ out.flatten, held := held.filter fun h => h.1 != 0 }
    s.drainPort p

/-- Packets that no egress queue holds wait for a port (R274, R297). -/
def State.putPkts (s : State) (l : List LinkPkt) : State := { s with lnk := { s.lnk with pkts := s.lnk.pkts ++ l } }

/-- The management logic takes a message from the inbound ring (R276). -/
def State.mgmtTake (s : State) : State := { s with lnk := { s.lnk with mgmtIn := s.lnk.mgmtIn.drop 1 } }

/-- Whether some port in the route to a node is UP. -/
def State.reaches (s : State) (node : Nat) : Bool := (portList (s.routeMask node)).any fun p => (s.port p).st == .up

end Sys2Proof.Machine
end

