-- ==== Sys2Proof/Machine/Import.lean ====
section
/-! DEFINITION. The import side of a handoff (R366, R367): a batch's records in the import window, installed in order when its
control write is applied. -/

namespace Sys2Proof.Machine

/-- The 64-byte header of a batch record (R366). -/
structure BatchRec where
  ctx    : Nat
  stream : Nat
  page   : Nat
  clen   : Nat
  packed : Bool
  spin   : Bool
  tomb   : Bool
  deriving DecidableEq, Repr

/-- A record header from its bytes. -/
def BatchRec.ofBytes (b : List Byte) : BatchRec :=
  let f := field b 14 1
  { ctx := field b 0 4, stream := bitsOf (field b 4 4) 0 20, page := field b 8 4, clen := field b 12 2, packed := bitAt f 0,
    spin := bitAt f 1, tomb := bitAt f 2 }

/-- The 64 bytes of a record header. -/
def BatchRec.toBytes (r : BatchRec) : List Byte :=
  leBytes 4 r.ctx ++ leBytes 4 r.stream ++ leBytes 4 r.page ++ leBytes 2 r.clen
    ++ leBytes 1 (flagAt r.packed 0 + flagAt r.spin 1 + flagAt r.tomb 2) ++ List.replicate 49 0

/-- The check of a record against the target (R367). -/
def State.recordCheck (s : State) (job comp : Nat) (r : BatchRec) (g : Grain) (fits : Bool) : Status ⊕ (Ctx × Strm) :=
  match s.ctxAny? job r.ctx with
  | none => .inl .staleGen
  | some k =>
    if k.job ≠ job ∨ k.comp ≠ comp then .inl .accessDenied
    else match k.strm? r.stream with
      | none => .inl .unsupported
      | some x =>
        if 2 ^ 27 ≤ r.page then .inl .unsupported
        else if g.page ≠ r.page ∨ g.stream ≠ r.stream ∨ !fits then .inl .integrity
        else .inr (k, x)

/-- Install one record (R367): the frame, the grain with the new generation, the descriptor, the parity contribution. A page
already present is replaced; absent pages below it read VALID = 0. What a batch sends past the frame's
sectors is not stored (log entry 189). -/
def State.installPage (s : State) (k : Ctx) (x : Strm) (r : BatchRec) (g : Grain) (stored : List Byte) : State :=
  let rs := pageRegions x.kfmt x.vfmt x.scale x.dk x.dv x.latent
  let len := rawLen x.kfmt x.vfmt x.scale x.dk x.dv x.latent
  let raw := if r.packed then unpackPage rs len stored else some (stored.take len)
  let toks := raw.elim [] fun b => rawTokens x.kfmt x.vfmt x.scale x.dk x.dv x.latent b
  let (key, s) := s.allocFrame k.comp r.page len toks
  let f := lookD s.pg.frames key ⟨0, 0, 1, [], 0, k.comp, 0, false⟩
  let s := (s.setPg fun g => { g with frames := put g.frames key { f with bad := raw.isNone } }).store f.npa (stored.take (sectors len * 512))
  let old := x.pages[r.page]?
  let tpin := old.elim false fun p => p.desc.tpin
  let desc : Desc := { Desc.empty with node := s.nodeId, addr := f.npa / 16, gen := f.gen, clen := r.clen, refc := 1, valid := true,
                                       packed := r.packed, tomb := r.tomb, spin := r.spin, tpin, frame := key }
  let (pm, s) := s.contribute k.comp k.job k.ctx r.stream r.page key f.gen 0 (raw.getD [])
  let s := match old with
    | some p => s.freeDesc p.desc
    | none => s
  let gap : Page := { desc := .empty, grain := { sketch := 0, nmax := 0, spread := 0, tomb := false, gen := 0, page := 0, stream := 0 },
                      pmap := .none }
  let page : Page := { desc, grain := { g with gen := f.gen, tomb := r.tomb }, pmap := pm.getD .none }
  let (y, s) := s.growTables k.comp x r.page
  let s := s.setStrm k.job k.ctx r.stream fun x =>
    let ps := x.pages ++ List.replicate (r.page + 1 - x.pages.length) gap
    { x with pages := ps.zipIdx.map fun p => if p.2 = r.page then page else p.1, npages := max x.npages (r.page + 1), l2 := y.l2, l3 := y.l3 }
  (s.writePage k.job k.ctx r.stream r.page).writeEntry k.job k.ctx r.stream

/-- Install the records of a batch from an address on (R367): it stops at the first that fails. -/
def State.installBatch (s : State) (job comp : Nat) : Nat → Nat → Nat → Status × State
  | 0, _, _ => (.ok, s)
  | n + 1, at_, left =>
    let r := BatchRec.ofBytes (s.load at_ 64)
    let g := Grain.ofBytes (s.load (at_ + 64) 64)
    let size := 128 + 64 * r.clen
    match s.recordCheck job comp r g (decide (size ≤ left)) with
    | .inl st => (st, s)
    | .inr (k, x) =>
      (s.installPage k x r g (s.load (at_ + 128) (64 * r.clen))).installBatch job comp n (at_ + size) (left - size)

/-- Whether a flagged WRITE at an offset of a window is a ring command that is refused (R424, R425): REBUILD or SEND_PIECE, in the command
region of the composition's ring window, whose slot offset is not that of a rebuild slot. -/
def State.badRingCommand (s : State) (win : Nat) (w : Win) (addr : Nat) : Bool :=
  (s.ringCfg w.comp).any (fun g => g.win == win) && decide (addr < 73728) && addr % 32 == 0 &&
    (let op := s.loadNat (w.base + addr) 1; op == 1 || op == 2) && !rebuildOffset (s.loadNat (w.base + addr + 8) 8)

/-- A flagged WRITE that has been applied to a window (R367): a ring command that is refused is answered UNSUPPORTED (R424); if it is the control write of the import window that PD
0x5031.CC names, its batch is installed, and the status answers it. -/
def State.controlWrite (s : State) (job win : Nat) (w : Win) (addr : Nat) : Status × State :=
  if s.badRingCommand win w addr then (.unsupported, s)
  else if s.pdNum 0x5031 w.comp = win ∧ win ≠ 0 ∧ addr = 0 then
    s.installBatch job w.comp (s.loadNat (w.base + 8) 4) (w.base + 64) (64 * s.loadNat (w.base + 12) 4)
  else (.ok, s)

end Sys2Proof.Machine
end

