-- ==== Sys2Proof/Machine/Search.lean ====
section
/-! DEFINITION. Retrieval search (R156 to R173): corpora and their management, the admission, scan and re-rank of a search, and
the dispatch of requests of either kind (R57). -/

namespace Sys2Proof.Machine

/-! ### Sorting -/

/-- Insert into a list in order. -/
def insertBy {α : Type} (lt : α → α → Bool) (x : α) : List α → List α
  | [] => [x]
  | y :: ys => if lt y x then y :: insertBy lt x ys else x :: y :: ys

/-- A list in order. -/
def sortBy {α : Type} (lt : α → α → Bool) (l : List α) : List α := l.foldr (insertBy lt) []

/-! ### FP32 root and quotient, to nearest even (R166) -/

/-- The square root of an FP32 value that is not negative, rounded to nearest even. -/
def sqrt32 (a : BitVec 32) : BitVec 32 :=
  match val32 a with
  | .fin _ m e =>
    let f := if e % 2 = 0 then e - 120 else e - 121
    let k := m * 2 ^ (e - f).toNat
    let r := Nat.sqrt k
    FVal.to32 (.fin false (2 * r + if r * r = k then 0 else 1) (f / 2 - 1))
  | v => v.to32

/-- a ÷ b for b above 0, rounded to nearest even. -/
def div32 (a b : BitVec 32) : BitVec 32 :=
  match val32 a, val32 b with
  | .fin na ma ea, .fin _ mb eb =>
    let k := ma * 2 ^ 80
    FVal.to32 (.fin na (2 * (k / mb) + if k % mb = 0 then 0 else 1) (ea - eb - 81))
  | .fin na _ _, .inf nb => FVal.to32 (.fin (na != nb) 0 0)
  | .inf na, .fin nb _ _ => FVal.to32 (.inf (na != nb))
  | _, _ => nan32

/-! ### Sketches and scores (R161, R166) -/

/-- entry_c of R161: true for +1. -/
def corpusEntry (seed i j : Nat) : Bool :=
  let w := mix (BitVec.ofNat 64 (seed * 2 ^ 32) ^^^ BitVec.ofNat 64 (i * 2 ^ 12) ^^^ BitVec.ofNat 64 (j / 64 * 2 ^ 48))
  bitAt w.toNat (j % 64)

/-- The sketch of a vector (R161). -/
def vecSketch (seed width : Nat) (v : List (BitVec 32)) : Nat :=
  if v.any fun x => !finite32 x then 0
  else
    let row (i : Nat) : BitVec 32 :=
      v.zipIdx.foldl (fun acc x => add32 acc (if corpusEntry seed i x.2 then x.1 else x.1 ^^^ 0x80000000)) 0
    ((List.range width).map fun i => if (val32 0).lt (val32 (row i)) then 2 ^ i else 0).sum

/-- A vector as FP32, exactly. -/
def vec32 (fmt : Nat) (v : List Nat) : List (BitVec 32) := v.map fun c => (elemVal fmt false c).to32

/-- Sum of products in blocks of 32, each rounded once (R166). -/
def blockDot (a b : List (BitVec 32)) : BitVec 32 := dotRaw (a.map val32) (b.map val32)

/-- The score of a record for a query (R166). -/
def recScore (metric : Nat) (q x : List (BitVec 32)) : BitVec 32 :=
  match metric with
  | 0 => blockDot q x
  | 1 =>
    let nq := sqrt32 (blockDot q q)
    let nx := sqrt32 (blockDot x x)
    if zero32 nq || zero32 nx then negInf32 else div32 (blockDot q x) (mul32 nq nx)
  | _ => let d := List.zipWith sub32 q x; blockDot d d

/-- A candidate of a query: its distance, vector ID, segment, index and vector. -/
structure Cand where
  d    : Nat
  id   : Nat
  seg  : Nat
  idx  : Nat
  vec  : List Nat
  score : BitVec 32
  deriving DecidableEq, Repr

/-- Lexicographic order on (vector ID, segment, index). -/
def Cand.before (a b : Cand) : Bool :=
  if a.id ≠ b.id then decide (a.id < b.id) else if a.seg ≠ b.seg then decide (a.seg < b.seg) else decide (a.idx < b.idx)

/-- Ascending (d, vector ID, segment, index) (R165). -/
def Cand.nearer (a b : Cand) : Bool := if a.d ≠ b.d then decide (a.d < b.d) else a.before b

/-- The order of R167: by score in the metric's order, NaN after every other, then as `before`. -/
def Cand.better (metric : Nat) (a b : Cand) : Bool :=
  let na := isNan32 a.score
  let nb := isNan32 b.score
  if na || nb then (if na == nb then a.before b else nb)
  else
    let (x, y) := if metric = 2 then (a.score, b.score) else (b.score, a.score)
    if (val32 x).lt (val32 y) then true else if (val32 y).lt (val32 x) then false else a.before b

/-- Distance of two sketches of a width. -/
def hamming (width a b : Nat) : Nat := ((List.range width).filter fun i => bitAt (a ^^^ b) i).length

/-- The live records of the segments searched (R165): segment, index, record, sketch. -/
def liveRecs (c : Corpus) (slo shi : Nat) : List (Nat × Nat × Rec × Nat) :=
  (((c.segs.zipIdx.filter fun g => decide (slo ≤ g.2) && decide (g.2 < shi)).map fun g =>
    ((List.range g.1.recs.length).zip (List.zip g.1.recs g.1.sks)).filterMap fun r =>
      if g.1.tombs.contains r.1 then none else some (g.2, r.1, r.2.1, r.2.2))).flatten

/-- The candidates of a query among live records that its search keeps (R165). -/
def keptCands (r : SearchReq) (c : Corpus) (q : SQuery) (live : List (Nat × Nat × Rec × Nat)) : List Cand :=
  let width := sketchBits c.skb
  let sk := if r.qsk then q.sketch else vecSketch c.seed width (vec32 r.qfmt q.vec)
  let cands := live.filterMap fun x =>
    let d := hamming width sk x.2.2.2
    if r.hmax = 0xFFFF ∨ d ≤ r.hmax then some (⟨d, x.2.2.1.id, x.1, x.2.1, x.2.2.1.vec, 0⟩ : Cand) else none
  (sortBy Cand.nearer cands).take r.rr

/-- The way that holds the sketch of a record: its slot lies in block `b` of 32 KiB, on way b mod WAYS (R158, R159). -/
def Seg.wayOf (g : Seg) (width i : Nat) : Nat := i * (width / 8) / 32768 % max 1 g.ways

/-- The live records of each stripe of the segments searched: what one NMU, a tile in its place, or one comparator compares (R159, R169). -/
def stripes (c : Corpus) (slo shi : Nat) : List (List (Nat × Nat × Rec × Nat)) :=
  let live := liveRecs c slo shi
  ((c.segs.zipIdx.filter fun g => decide (slo ≤ g.2) && decide (g.2 < shi)).map fun g => (List.range (max 1 g.1.ways)).map fun j =>
    live.filter fun x => x.1 == g.2 && g.1.wayOf (sketchBits c.skb) x.2.1 == j).flatten

/-- What a search keeps for a query, of what was kept of each stripe (R165, R169). -/
def mergedCands (r : SearchReq) (c : Corpus) (q : SQuery) : List Cand :=
  (sortBy Cand.nearer ((stripes c r.slo r.shi).map (keptCands r c q)).flatten).take r.rr

/-- The result block of one query (R165 to R170). -/
def queryBlock (r : SearchReq) (c : Corpus) (st : Status) (i : Nat) (q : SQuery) : List Byte :=
  let qv := vec32 r.qfmt q.vec
  let live := liveRecs c r.slo r.shi
  let kept := mergedCands r c q
  let scored := kept.map fun x => { x with score := recScore r.metric qv (vec32 c.vfmt x.vec) }
  let top := (sortBy (Cand.better r.metric) scored).take r.k
  padMul 64 (searchHeader r st i top.length live.length kept.length ++ (top.map fun x =>
    leBytes 8 x.id ++ leBytes 4 x.score.toNat ++ leBytes 2 x.d ++ leBytes 2 x.seg ++ leBytes 4 x.idx
      ++ List.replicate 12 0).flatten)

/-! ### Corpora (R157 to R162) -/

/-- The corpus that a job names, if it has not been deleted. -/
def State.corpus? (s : State) (job ctx : Nat) : Option Corpus :=
  s.rq.corpora.find? fun c => c.job == job && c.ctx == ctx && !c.dead

/-- Change a corpus in place. -/
def State.setCorpus (s : State) (job ctx : Nat) (f : Corpus → Corpus) : State :=
  { s with rq := { s.rq with corpora := mapIf (fun c => c.job == job && c.ctx == ctx && !c.dead) f s.rq.corpora } }

/-- Whether a vector format is accepted for corpora (R157): FP32, BF16, FP16, E4M3, E5M2, INT8. -/
def vectorFmt (f : Nat) : Bool := decide (f ≤ 4) || f == 8

/-- Chunks of 16 KiB that a hardpan sketch array takes (R159, R237). -/
def sketchChunks (skb cap : Nat) : Nat := (cap * (sketchBits skb / 8) + 16383) / 16384

/-- Chunks that a composition's flash channels have room for: what their blocks hold but for the spares, eight ninths of them with stripes, less
the chunks in use (R239, R240). -/
def State.hardFree (s : State) (c : Nat) : Nat :=
  let all := ((s.flashOf c).map fun n => (Config.flashBlocks n - spareBlocks n) * Config.blockPages n).sum
  (if s.striped c then all * 8 / 9 else all) - (s.tier.chunks.filter fun k => k.comp == c && decide (k.chunk < 128)).length

/-- The bytes that sketch arrays and grain chunks take in an HBM channel. -/
def State.wayUsed (s : State) (ch : Nat) : Nat :=
  let arrays := s.rq.corpora.map fun c => ((c.segs.filter fun g => g.tier == 0 && g.chans.contains ch).map fun g => wayBytes c.skb g.cap g.ways).sum
  let grains := s.pg.ctxs.map fun k => (k.streams.map fun x => 32768 * (x.2.l3.filter fun e => pcOf e.2.grains / 2 == ch).length).sum
  arrays.sum + grains.sum

/-- The chunks that a flash channel has room for. -/
def State.flashRoom (s : State) (n : Nat) : Nat :=
  (Config.flashBlocks n - spareBlocks n) * Config.blockPages n - (s.tier.chunks.filter fun k => k.channel == n).length

/-- The W-stack channels of a composition (R159, R197). -/
def State.wayChannels (s : State) (c : Nat) : List Nat := (((s.allocPcs c).filter isW).map (· / 2)).dedup

/-- The channels that the ways of a sketch array take, one NMU or comparator each (R159, R213): those with room for a way's share, at most 8
in any one W-stack; `took` is what arrays of the same request have taken, by tier, channel and share. Fewer than WAYS where room lacks. -/
def State.takeWays (s : State) (c skb : Nat) (took : List (Nat × Nat × Nat)) (g : SegSpec) : List Nat :=
  let size := wayBytes skb g.cap g.ways
  let more (ch : Nat) : Nat := ((took.filter fun t => t.1 == g.tier && t.2.1 == ch).map (·.2.2)).sum
  if g.tier = 0 then
    let ok := (s.wayChannels c).filter fun ch => decide (s.wayUsed ch + more ch + size ≤ 2 ^ 31)
    (((ok.map (· / 32)).dedup.map fun k => (ok.filter fun ch => ch / 32 == k).take 8).flatten).take g.ways
  else ((s.flashOf c).filter fun n => decide ((more n + size) / 16384 ≤ s.flashRoom n)).take g.ways

/-- The channels of each segment of a request. -/
def State.wayPlan (s : State) (c skb : Nat) (took : List (Nat × Nat × Nat)) : List SegSpec → List (SegSpec × List Nat)
  | [] => []
  | g :: gs =>
    let chans := s.takeWays c skb took g
    (g, chans) :: s.wayPlan c skb (chans.map (fun ch => (g.tier, ch, wayBytes skb g.cap g.ways)) ++ took) gs

/-- Why CORPUS_CREATE is refused (R157, R159, R160), if it is: space lacks where no channels have room for the ways of an array, no run of
memory for a record area, or the composition's topsoil or hardpan for the whole. DESIGN CHOICE (log entry 130): a full class-0 bank of the
directory refuses it with UNSUPPORTED. -/
def State.corpusRefusal (s : State) (job comp ctx skb vfmt dim nseg : Nat) (segs : List SegSpec) : Option Status :=
  let most := ((s.areaRuns comp).map (·.2)).foldl max 0
  let hard := ((segs.filter fun g => g.tier == 2).map fun g => sketchChunks skb g.cap).sum
  if (s.ctx? job ctx).isSome ∨ (s.corpus? job ctx).isSome ∨ s.keyTaken 0 (ctxKey job ctx) ∨ (s.adirBest 0).isNone then some .unsupported
  else if 2 < skb ∨ !vectorFmt vfmt ∨ dim < 16 ∨ 4096 < dim ∨ dim % 16 ≠ 0 ∨ nseg < 1 ∨ 4096 < nseg ∨ segs.length ≠ nseg then
    some .unsupported
  else if segs.any fun g => decide (g.cap < 1) || decide (16777215 < g.cap) || (g.tier != 0 && g.tier != 2) || decide (g.ways < 1)
      || decide ((if g.tier = 0 then 64 else 32) < g.ways) then some .unsupported
  else if (s.wayPlan comp skb [] segs).any fun g => decide (g.2.length < g.1.ways) then some .accessDenied
  else if segs.any fun g => decide (most < g.cap * strideOf dim vfmt) then some .accessDenied
  else if s.compBytes comp < s.topsoil comp + (segs.map (segBytes skb vfmt dim)).sum ∨ (hard ≠ 0 ∧ s.hardFree comp < hard) then
    some .accessDenied
  else none

/-- A place for a topsoil sketch array: the same in each channel of its ways (R159). -/
def State.placeArray (s : State) (chans : List Nat) (size : Nat) : Nat × State :=
  s.placeIn (chans.headD 0 * 2 ^ 31) (2 ^ 31) 32768 size ((chans.drop 1).map (· * 2 ^ 31))

/-- Lay out the segments of a new corpus (R158, R159); where each area lies is the node's choice (log entry 6). A topsoil array takes the
same place in each channel of its ways; a hardpan array takes its chunks in order, over the flash channels of its ways. -/
def State.newSegs (s : State) (comp skb stride : Nat) : List (SegSpec × List Nat) → List Seg × State
  | [] => ([], s)
  | (g, chans) :: gs =>
    let (reca, s) := s.placeArea comp 64 (g.cap * stride)
    let (tmba, s) := s.placeArea comp 64 ((g.cap + 7) / 8)
    let (ska, s) := if g.tier = 0 then s.placeArray chans (wayBytes skb g.cap g.ways) else s.hardArray comp chans (sketchChunks skb g.cap)
    let (rest, s) := s.newSegs comp skb stride gs
    ({ ska, chans, reca, tmba, cap := g.cap, tier := g.tier, ways := g.ways, recs := [], sks := [], tombs := [] } :: rest, s)

/-! ### The bytes of a corpus (R157 to R159) -/

/-- Records written and not tombstoned, over all segments (R157). -/
def Corpus.live (c : Corpus) : Nat := (c.segs.map fun g => g.recs.length - g.tombs.length).sum

/-- The 64 bytes of a corpus root (R157). -/
def Corpus.rootBytes (c : Corpus) : List Byte :=
  leBytes 4 c.ctx ++ leBytes 3 c.job ++ leBytes 1 (c.comp % 16) ++ leBytes 1 c.skb ++ leBytes 1 c.vfmt ++ leBytes 2 c.dim
    ++ leBytes 4 c.seed ++ leBytes 2 c.segs.length ++ List.replicate 6 0 ++ leBytes 8 c.live ++ List.replicate 32 0

/-- The 32 bytes of a segment-table entry (R157). -/
def Seg.toBytes (g : Seg) : List Byte :=
  leBytes 8 g.ska ++ leBytes 8 g.reca ++ leBytes 8 g.tmba ++ leBytes 3 g.recs.length ++ leBytes 3 g.cap ++ leBytes 1 g.tier
    ++ leBytes 1 g.ways

/-- The bytes of a record-area entry: the vector ID, then the vector, to STRIDE (R158). -/
def Rec.toBytes (dim vfmt : Nat) (r : Rec) : List Byte :=
  let b := leBytes 8 r.id ++ packBits (fmtOf vfmt).bits r.vec
  b ++ List.replicate (strideOf dim vfmt - b.length) 0

/-- Where an array holds the sketch of a record: at its slot; in topsoil, block `b` is block b ÷ WAYS of its way (R158, R159). -/
def Seg.sketchAt (g : Seg) (width i : Nat) : Nat :=
  let off := i * (width / 8)
  if g.tier = 0 then
    g.chans.getD (g.wayOf width i) 0 * 2 ^ 31 + g.ska % 2 ^ 31 + off / 32768 / max 1 g.ways * 32768 + off % 32768
  else g.ska + off

/-- The byte of the tombstone bitmap that holds the bit of a record (R157). -/
def Seg.tombByte (g : Seg) (i : Nat) : Byte :=
  BitVec.ofNat 8 ((List.range 8).map fun k => if g.tombs.contains (i / 8 * 8 + k) then 2 ^ k else 0).sum

/-- The root and the segment table go to their place in topsoil. -/
def State.writeRoot (s : State) (c : Corpus) : State := s.store c.root (c.rootBytes ++ (c.segs.map Seg.toBytes).flatten)

/-- The entries of records of a segment, from an index on, and their sketches, go to their places (R158, R162): in hardpan the chunks that
hold the sketches are programmed anew. -/
def State.writeRecs (s : State) (c : Corpus) (g : Seg) (first : Nat) (recs : List Rec) (sks : List Nat) : State :=
  let width := sketchBits c.skb
  let s := recs.zipIdx.foldl (fun (s : State) r =>
    s.store (g.reca + (first + r.2) * strideOf c.dim c.vfmt) (Rec.toBytes c.dim c.vfmt r.1)) s
  let s := sks.zipIdx.foldl (fun (s : State) x => s.store (g.sketchAt width (first + x.2)) (leBytes (width / 8) x.1)) s
  if g.tier = 0 then s
  else s.rewriteChunks ((g.ska - hardpanBase) / 2 ^ 14 + first * (width / 8) / 16384)
    (((first + sks.length) * (width / 8) + 16383) / 16384 - first * (width / 8) / 16384)

/-- The bytes of the bitmap that hold the bits of a range of records go to their place (R162). -/
def State.writeTombs (s : State) (g : Seg) (first count : Nat) : State :=
  (List.range ((first + count + 7) / 8 - first / 8)).foldl (fun (s : State) k =>
    s.store (g.tmba + first / 8 + k) [g.tombByte (8 * (first / 8 + k))]) s

/-- CORPUS_CREATE on an admitted request: the root, the segment table, and the name in the directory (R157, R222). -/
def State.corpusCreate (s : State) (job comp ctx skb vfmt dim seed : Nat) (segs : List SegSpec) : State :=
  let (root, s) := s.placeArea comp 64 (64 + 32 * segs.length)
  let (gs, s) := s.newSegs comp skb (strideOf dim vfmt) (s.wayPlan comp skb [] segs)
  let c : Corpus := { root, ctx, job, comp, skb, vfmt, dim, seed := seed % 2 ^ 32, segs := gs, dead := false }
  let s := { s with rq := { s.rq with corpora := s.rq.corpora ++ [c] } }
  let s := s.writeRoot c
  s.adirInsert 0 (ctxKey job ctx) [BitVec.ofNat 64 (fieldAt (root / 64) 46 6 + fieldAt comp 4 0 + flagAt true 4)]

/-- Change a segment of a corpus. -/
def Corpus.setSeg (c : Corpus) (n : Nat) (f : Seg → Seg) : Corpus :=
  { c with segs := c.segs.zipIdx.map fun g => if g.2 = n then f g.1 else g.1 }

/-- The corpus that a management operation or search names, or the status that refuses it (R156, R160, R164, R172). -/
def State.namedCorpus (s : State) (job comp ctx : Nat) : Status ⊕ Corpus :=
  match (s.corpus? job ctx).filter fun _ => s.mapped job ctx with
  | some c => if c.comp = comp then .inr c else .inl .accessDenied
  | none =>
    if s.mapped job ctx && (s.ctx? job ctx).isSome then .inl .unsupported
    else if s.rq.corpora.any fun c => c.ctx == ctx && !c.dead then .inl .accessDenied
    else .inl .staleGen

/-- A management operation arrives (R105, R128, R160): its checks, then `act` answers status, FIRST and the state after it. -/
def State.manage (s : State) (src : Source) (env : Envelope) (op : Nat) (act : State → Nat → Nat → Status × Nat × State) : State :=
  let (job, comp) := s.sourceOf src
  match s.pathOf src comp job env.rnode with
  | none => s.noReply comp env.rnode
  | some q =>
    let finish (st : Status) (v : Nat) (s : State) : State := s.endOp src env q op st v false
    match s.compRefusal comp with
    | some st => finish st 0 s
    | none =>
      if env.dl ∧ !s.phs.sync then finish .contractBreach 0 (s.breach 10 none 0 comp 0 job (sourceNode s src) env.tag.toNat)
      else if env.kind ≠ 3 then finish .unsupported 0 s
      else if !s.epochOk src then finish .moved 0 s
      else
        let (st, v, s) := act (s.adirStall 0 (ctxKey job env.ctx)) job comp
        finish st v s

/-- The command of a management operation: nothing before READY; held at intake while admission is stopped. -/
def State.manageCommand (s : State) (i : Instr) (src : Source) (env : Envelope) (op : Nat)
    (act : State → Nat → Nat → Status × Nat × State) : State :=
  if !s.ready then s else if s.noAdmission then s.hold i else s.manage src env op act

/-- CORPUS_CREATE (R157, R159, R160). -/
def execCorpusCreate (t : Nat) (src : Source) (env : Envelope) (skb vfmt dim seed nseg : Nat) (segs : List SegSpec) (s : State) :
    Res :=
  .next ((s.arrive t).manageCommand (.corpusCreate t src env skb vfmt dim seed nseg segs) src env 2 fun s job comp =>
    match s.corpusRefusal job comp env.ctx skb vfmt dim nseg segs with
    | some st => (st, 0, s)
    | none => (.ok, 0, s.corpusCreate job comp env.ctx skb vfmt dim seed segs))

/-- RECORD_APPEND on a corpus (R160 to R162): records at COUNT onward, with their sketches. -/
def State.recordAppend (s : State) (c : Corpus) (seg count : Nat) (sk : Bool) (recs : List Rec) (sketches : List Nat) :
    Status × Nat × State :=
  match c.segs[seg]? with
  | none => (.unsupported, 0, s)
  | some g =>
    if count < 1 ∨ 4096 < count ∨ recs.length ≠ count ∨ (sk ∧ sketches.length ≠ count) ∨ g.cap < g.recs.length + count
        ∨ (recs.any fun r => r.vec.length != c.dim) then (.unsupported, 0, s)
    else
      let width := sketchBits c.skb
      let sks := if sk then sketches.map (· % 2 ^ width) else recs.map fun r => vecSketch c.seed width (vec32 c.vfmt r.vec)
      let s := s.writeRecs c g g.recs.length recs sks
      let s := s.setCorpus c.job c.ctx fun c => c.setSeg seg fun g => { g with recs := g.recs ++ recs, sks := g.sks ++ sks }
      (.ok, g.recs.length, s.writeRoot ((s.corpus? c.job c.ctx).getD c))

/-- RECORD_APPEND (R160, R161, R162). -/
def execRecordAppend (t : Nat) (src : Source) (env : Envelope) (seg count : Nat) (sk : Bool) (recs : List Rec)
    (sketches : List Nat) (s : State) : Res :=
  .next ((s.arrive t).manageCommand (.recordAppend t src env seg count sk recs sketches) src env 3 fun s job comp =>
    match s.namedCorpus job comp env.ctx with
    | .inl st => (st, 0, s)
    | .inr c => s.recordAppend c seg count sk recs sketches)

/-- RECORD_DELETE on a corpus: the tombstone bits of a range (R160, R162). -/
def State.recordDelete (s : State) (c : Corpus) (seg first count : Nat) : Status × Nat × State :=
  match c.segs[seg]? with
  | none => (.unsupported, 0, s)
  | some g =>
    if count < 1 ∨ 2 ^ 20 < count ∨ g.recs.length < first + count then (.unsupported, 0, s)
    else
      let new := (List.range count).map (first + ·)
      let g' : Seg := { g with tombs := g.tombs ++ new.filter fun i => !g.tombs.contains i }
      let s := (s.setCorpus c.job c.ctx fun c => c.setSeg seg fun _ => g').writeTombs g' first count
      (.ok, 0, s.writeRoot ((s.corpus? c.job c.ctx).getD c))

/-- RECORD_DELETE (R160, R162). -/
def execRecordDelete (t : Nat) (src : Source) (env : Envelope) (seg first count : Nat) (s : State) : Res :=
  .next ((s.arrive t).manageCommand (.recordDelete t src env seg first count) src env 4 fun s job comp =>
    match s.namedCorpus job comp env.ctx with
    | .inl st => (st, 0, s)
    | .inr c => s.recordDelete c seg first count)

/-- CORPUS_DELETE (R160, R162): the name goes at once. -/
def execCorpusDelete (t : Nat) (src : Source) (env : Envelope) (s : State) : Res :=
  .next ((s.arrive t).manageCommand (.corpusDelete t src env) src env 5 fun s job comp =>
    match s.namedCorpus job comp env.ctx with
    | .inl st => (st, 0, s)
    | .inr c => (.ok, 0, (s.adirRemove 0 (ctxKey job c.ctx)).setCorpus job c.ctx fun c => { c with dead := true }))

/-- CORPUS_STORAGE_FREE (R162): a deleted corpus's storage, once every search dispatched before the removal has completed. -/
def execCorpusStorageFree (t job ctx : Nat) (s : State) : Res :=
  let s := s.arrive t
  let busy (c : Corpus) : Bool := s.rq.searches.any fun x => x.running && x.snap.elim false fun k =>
    k.root == c.root && k.job == c.job && k.ctx == c.ctx
  .next { s with rq := { s.rq with corpora := s.rq.corpora.filter fun c => !(c.job == job && c.ctx == ctx && c.dead && !busy c) } }

/-! ### Searches (R163, R164) -/

/-- What a search asks of its slot (R164), and whether every segment lies in one tier. -/
def searchLoad (r : SearchReq) (c : Corpus) : Load × Bool :=
  let gs := (c.segs.drop r.slo).take (r.shi - r.slo)
  let ways := (gs.map (·.ways)).min?.getD 0
  let hard := gs.any fun g => g.tier == 2
  let bytes := (gs.map fun g => g.recs.length * (sketchBits c.skb / 8)).sum + r.nq * r.rr * strideOf c.dim c.vfmt
  ({ cls := 7, comp := c.comp, bytes, ways, hardpan := hard }, gs.all fun g => (g.tier == 2) == hard)

/-- Whether the fields of a search lie in range (R163). -/
def searchOk (r : SearchReq) (c : Corpus) : Bool :=
  let width := up64 (sketchBits c.skb / 8)
  let sec := up64 (c.dim * (fmtOf r.qfmt).bits / 8) + if r.qsk then width else 0
  decide (r.metric ≤ 2) && decide (1 ≤ r.nq) && decide (r.nq ≤ 16) && decide (r.qfmt ≤ 2) && decide (1 ≤ r.k) && decide (r.k ≤ 1024)
    && decide (r.k ≤ r.rr) && decide (r.rr ≤ 4096) && decide (r.slo < r.shi) && decide (r.shi ≤ c.segs.length)
    && r.qs.length == r.nq && (r.qs.all fun q => q.vec.length == c.dim) && 64 * r.env.blen == 64 + r.nq * sec

/-- A search arrives (R112's path rule, R128, R163, R164): refused whole, or admitted as one request of its class. The corpus that it
names is checked first, then KIND and the fields, then the map epoch, an order that the spec does not state; log entry 141. -/
def State.search (s : State) (src : Source) (r : SearchReq) : State :=
  let (job, comp) := s.sourceOf src
  match s.pathOf src comp job r.env.rnode with
  | none => s.noReply comp r.env.rnode
  | some q =>
    let refuse (st : Status) (s : State) : State := s.refuseSearch src r q st false
    match s.compRefusal comp with
    | some st => refuse st s
    | none =>
      let s := s.adirStall 0 (ctxKey job r.env.ctx)
      match s.namedCorpus job comp r.env.ctx with
      | .inl st => refuse st s
      | .inr c =>
        if r.env.kind ≠ 3 ∨ !searchOk r c then refuse .unsupported s
        else if !s.epochOk src then refuse .moved s
        else
          let (load, one) := searchLoad r c
          let a := s.admission (if one then load else { load with ways := 0 }) (if r.env.dl then some r.env.deadline else none)
          let limit := a.slot.elim 0 fun n => s.limitOf n load
          let s := match a.slot, a.cause with
            | some n, _ => s.takePlace n load
            | none, some k => s.breach k a.named 7 comp a.late job (sourceNode s src) r.env.tag.toNat
            | none, none => s
          if a.cause = some 10 then refuse .contractBreach s
          else
            let x : Search :=
              { id := s.rq.nextId, src, job, comp, req := r, snap := none, slot := a.slot, breach := a.cause, arrive := s.phase, queue := none,
                running := false, bytes := load.bytes, limit, begun := 0, formula := 0, left := 0, paused := false, grants := [] }
            { s with rq := { s.rq with searches := s.rq.searches ++ [x], nextId := s.rq.nextId + 1 } }

/-- SEARCH (R163, R164). -/
def execSearch (t : Nat) (src : Source) (r : SearchReq) (s : State) : Res :=
  let s := s.arrive t
  .next (if !s.ready then s else if s.noAdmission then s.hold (.search t src r) else s.search src r)

/-- Change a search in place. -/
def State.setSearch (s : State) (id : Nat) (f : Search → Search) : State :=
  { s with rq := { s.rq with searches := mapIf (fun x => x.id == id) f s.rq.searches } }

/-- The 32-byte sectors that the next quantum of a best-effort search scans (R60): none where no quantum fits. -/
def State.searchUnits (s : State) (c : Nat) (load : Load) (tiles n : Nat) : Option Nat :=
  s.fitUnits c 7 (s.compTiles c) (fun n => ticksUp (s.boundNs { load with bytes := 32 * n } tiles 1)) 40 n

/-- The channels of the ways of the topsoil segments that a search scans (R159, R169). -/
def scanWays (r : SearchReq) (c : Corpus) : List Nat :=
  ((((c.segs.drop r.slo).take (r.shi - r.slo)).filter fun g => g.tier == 0).map (·.chans)).flatten.dedup

/-- The NMUs of a search's ways are granted to it for the span of its slot, by ascending channel and within MAXNMU (R169, R214). Tiles scan the
stripe of one that is denied. -/
def State.grantWays (s : State) (id : Nat) (ways : List Nat) : State :=
  (sortBy (fun a b => decide (a < b)) ways).foldl (fun (s : State) c =>
    let w := c / 96
    let ch := c % 32
    if !s.nmuShed && decide ((s.nmuLoad w).1 + s.scanHeld w ch + (if (s.nmu w ch).granted then 0 else 1) ≤ (s.gov w).maxnmu) then
      s.setSearch id fun y => { y with grants := y.grants ++ [c] }
    else (s.setGov w { s.gov w with deny := true }).count 0x3040 1) s

/-- The chunks that hold the sketches of the hardpan segments that a search scans are read (R169, R234). -/
def State.readSketches (s : State) (r : SearchReq) (c : Corpus) : State :=
  (((c.segs.drop r.slo).take (r.shi - r.slo)).filter fun g => g.tier == 2).foldl (fun (s : State) g =>
    s.readChunks g.ska (sketchChunks c.skb g.recs.length)) s

/-- Dispatch a search (R57, R128, R165, R169, R173): the corpus as it stands now is what it sees. -/
def State.dispatchSearch (s : State) (x : Search) : State :=
  if x.running || s.noAdmission then s
  else
    match s.pathOf x.src x.comp x.job x.req.env.rnode with
    | none =>
      (s.noReply x.comp x.req.env.rnode) |> fun s =>
        { s with rq := { s.rq with searches := s.rq.searches.filter fun y => y.id != x.id } }
    | some q =>
      if s.phs.held then s.endSearch .replay { x with queue := q }
      else
        match s.namedCorpus x.job x.comp x.req.env.ctx with
        | .inl st => s.endSearch st { x with queue := q }
        | .inr c =>
          let used := lookD s.rq.beBytes x.comp 0
          let (n, h, _) := x.slot.elim (tileCount (s.compTiles x.comp), 1, 0) s.slotShape
          let formula := s.boundNs (searchLoad x.req c).1 n h
          let part := s.searchUnits x.comp (searchLoad x.req c).1 n ((x.bytes + 31) / 32)
          let go := match x.slot with
            | some n => s.mayWork n x.arrive
            | none => s.bestEffort && part.isSome && decide (used + x.bytes ≤ s.pdNum 0x3352 x.comp)
          if !go then s
          else
            let s := if x.slot.isSome then s else
              { s with rq := { s.rq with beBytes := bump s.rq.beBytes x.comp x.bytes } }
            let left := if x.slot.isSome then 0 else (x.bytes + 31) / 32 - part.getD 0
            let s := s.setSearch x.id fun y => { y with running := true, queue := q, snap := some c, begun := s.timer, formula, left }
            let s := if x.slot.isSome then s.grantWays x.id (scanWays x.req c) else s
            s.readSketches x.req c

/-- The next quantum of a best-effort search goes on where the last one ended, at a sector boundary (R60). -/
def State.continueSearch (s : State) (x : Search) : State :=
  let load := x.snap.elim { cls := 7, comp := x.comp } fun c => (searchLoad x.req c).1
  match s.searchUnits x.comp load (tileCount (s.compTiles x.comp)) x.left with
  | some n => s.setSearch x.id fun y => { y with left := y.left - n, paused := false }
  | none => s

/-- REQUEST_DISPATCH (R57): a section of an attention request, or a search. -/
def execRequestDispatch (t id sec : Nat) (s : State) : Res :=
  let s := s.arrive t
  match s.req? id with
  | some r => .next (s.dispatchAttend r sec)
  | none =>
    match s.rq.searches.find? fun x => x.id == id with
    | some x => .next (s.dispatchSearch x)
    | none => .next s

/-- Whether an NMU has yet to return the records of a stripe of a search (R169). -/
def State.stripeOut (s : State) (id : Nat) : Bool :=
  s.hbm.nmus.any fun n => n.2.granted && match n.2.op with | .sketchScan a _ => a == id | _ => false

/-- SEARCH_COMPLETE (R106, R107, R165 to R170): the scan and re-rank end, once its NMUs have returned; a block for each query, then the flag word. Of
a best-effort search with sectors left, the quantum ends and the search waits for the next (R60). -/
def execSearchComplete (t id : Nat) (s : State) : Res :=
  let s := s.arrive t
  match s.rq.searches.find? fun x => x.id == id with
  | none => .next s
  | some x =>
    match x.snap with
    | none => .next s
    | some c =>
      if x.paused || s.stripeOut id then .next s
      else if x.left ≠ 0 then .next (s.setSearch id fun y => { y with paused := true })
      else
      let (late, s) := s.lateBreach x.src x.req.env x.queue x.job x.comp 7 x.slot x.breach x.limit
      let st : Status := if late then .contractBreach else .ok
      let bs := (x.req.qs.zipIdx.map fun q => queryBlock x.req c st q.2 q.1).flatten
      let s := (s.countC x.comp 0x3350 x.comp 1).countC x.comp 0x3351 x.comp (liveRecs c x.req.slo x.req.shi).length
      let s := match x.slot with
        | some n => s.donePlace n x.arrive
        | none => s
      let s := s.ratio 7 x.begun x.formula
      let s := { s with rq := { s.rq with searches := s.rq.searches.filter fun y => y.id != id } }
      .next ((s.sendResult x.src x.req.env x.queue 0 bs false (.result id)).sendFlag x.src x.req.env x.queue st bs.length false (.result id))

end Sys2Proof.Machine
end

