-- ==== Sys2Proof/Machine/Intake.lean ====
section
/-! DEFINITION. Requests as bytes (R83, R105, R109 to R111, R160, R163), and their way into the request path: from the intake region of a
CMD message or behind a doorbell. -/

namespace Sys2Proof.Machine

/-! ### Envelope and attention (R105, R109 to R111) -/

/-- The envelope in the first 64 bytes of a request (R105). -/
def envOf (b : List Byte) : Envelope :=
  { kind := field b 0 1, dl := bitAt (field b 1 1) 0, blen := field b 2 2, tag := BitVec.ofNat 32 (field b 4 4),
    deadline := BitVec.ofNat 64 (field b 8 8), ctx := field b 16 4, rnode := bitsOf (field b 20 2) 0 14,
    rwin := bitsOf (field b 22 2) 0 14, rwgen := BitVec.ofNat 16 (field b 24 2), roff := bitsOf (field b 32 8) 0 48,
    foff := bitsOf (field b 40 8) 0 48, fval := BitVec.ofNat 56 (field b 48 8) }

/-- The head of an attention request (R109). -/
def headOf (b : List Byte) : AttendHead :=
  let prof := field b 1 1
  { mode := bitsOf (field b 0 1) 0 2, sieve := bitAt prof 0, prescan := bitAt prof 1, fb := bitAt prof 2, nstr := field b 2 1,
    qfmt := field b 3 1, npos := bitsOf (field b 4 1) 0 6, nhead := bitsOf (field b 5 1) 0 5, split := field b 6 1, nsplit := field b 7 1,
    qpos0 := field b 8 4, horizon := field b 12 4, slide := field b 16 4, scl := BitVec.ofNat 32 (field b 20 4),
    budget := bitsOf (field b 24 4) 0 24, fbudget := bitsOf (field b 28 4) 0 24, recent := bitsOf (field b 32 4) 0 16, plo := field b 36 4,
    phi := field b 40 4, silt := bitAt (field b 44 1) 0 }

/-- The stream sections of a body, `n` of them from a byte on (R111). One whose header lies beyond the body is not there. -/
def sectionsOf (body : List Byte) (rows bits : Nat) : Nat → Nat → List QSection
  | 0, _ => []
  | n + 1, at_ =>
    if body.length < at_ + 64 then []
    else
      let dk := bitsOf (field body (at_ + 4) 2) 0 10
      let len := rows * dk * bits / 8
      let codes := unpackBits bits (rows * dk) ((body.drop (at_ + 64)).take len)
      { stream := bitsOf (field body at_ 4) 0 20, dk, rows := (List.range rows).map fun r => (codes.drop (r * dk)).take dk } ::
        sectionsOf body rows bits n (at_ + 64 + up64 len)

/-- An attention request from its envelope and body (R109, R110). -/
def attendOf (env : Envelope) (body : List Byte) : AttendReq :=
  let head := headOf body
  { env, head, mask := if head.mode = 2 then (List.range 32).map fun i => BitVec.ofNat 32 (field body (64 + 4 * i) 4) else [],
    secs := sectionsOf body (head.npos * head.nhead) (fmtOf head.qfmt).bits head.nstr (if head.mode = 2 then 192 else 64) }

/-! ### Context operations (R83, R87) -/

/-- A context operation from its envelope and body: the 32-byte head of R83, and the token records behind it as bytes, whose format is that
of the stream named when its turn comes. DESIGN CHOICE (log entry 165): a body too short for its records is not refused, and what it lacks
reads as zero. -/
def contextOf (env : Envelope) (b : List Byte) : CtxReq :=
  let op := field b 0 1
  { env, op, flags := field b 1 1, count := field b 2 2, ctx := field b 4 4, stream := bitsOf (field b 8 4) 0 20, arg0 := field b 12 4,
    arg1 := field b 16 4, arg2 := field b 20 4, arg3 := field b 24 8, toks := [], raw := if op = 4 ∨ op = 6 then some (b.drop 32) else none }

/-! ### Searches and corpus operations (R158, R160, R163) -/

/-- A SEARCH request from its envelope and body (R163); the widths of a query section are those of the corpus named. -/
def State.searchOf (s : State) (job : Nat) (env : Envelope) (b : List Byte) : SearchReq :=
  let flags := field b 1 1
  let qsk := bitAt flags 2
  let nq := field b 2 1
  let qfmt := field b 3 1
  let (dim, width) := (s.corpus? job env.ctx).elim (0, 0) fun c => (c.dim, sketchBits c.skb)
  let bits := (fmtOf qfmt).bits
  let row := up64 (dim * bits / 8)
  let size := row + if qsk then up64 (width / 8) else 0
  { env, metric := bitsOf flags 0 2, qsk, nq, qfmt, k := field b 4 2, rr := field b 6 2, slo := field b 8 2, shi := field b 10 2,
    hmax := field b 12 2,
    qs := (List.range nq).map fun i =>
      let q := b.drop (64 + i * size)
      { vec := unpackBits bits dim (q.take (dim * bits / 8)), sketch := if qsk then leNat ((q.drop row).take (width / 8)) else 0 } }

/-- A segment of CORPUS_CREATE (R160). -/
def segSpecOf (b : List Byte) : SegSpec :=
  let v := field b 0 8
  { cap := bitsOf v 0 24, tier := bitsOf v 24 2, ways := bitsOf v 32 8 }

/-- Record-area entries and sketches of a RECORD_APPEND (R158, R160), with the widths of the corpus named. -/
def State.recordsOf (s : State) (job ctx count : Nat) (sk : Bool) (b : List Byte) : List Rec × List Nat :=
  match s.corpus? job ctx with
  | none => ([], [])
  | some c =>
    let stride := strideOf c.dim c.vfmt
    let bits := (fmtOf c.vfmt).bits
    let w := sketchBits c.skb / 8
    ((List.range count).map fun i =>
        let e := b.drop (i * stride)
        { id := field e 0 8, vec := unpackBits bits c.dim ((e.drop 8).take (c.dim * bits / 8)) },
      if sk then (List.range count).map fun i => leNat ((b.drop (count * stride + i * w)).take w) else [])

/-- A body that begins with an OP of R160: SEARCH, or a management operation, whose 32-byte head holds OP and then the fields named without
gaps (log entry 158); any other OP is refused. -/
def State.retrievalOf (s : State) (job : Nat) (env : Envelope) (b : List Byte) : ReqBody :=
  let pay := b.drop 32
  match field b 0 1 with
  | 1 => .search (s.searchOf job env b)
  | 2 =>
    let nseg := field b 9 2
    .corpusCreate env (bitsOf (field b 1 1) 0 2) (bitsOf (field b 2 1) 0 4) (field b 3 2) (field b 5 4) nseg
      ((List.range nseg).map fun i => segSpecOf (pay.drop (8 * i)))
  | 3 =>
    let count := field b 3 2
    let sk := bitAt (field b 5 1) 0
    let (recs, sks) := s.recordsOf job env.ctx count sk pay
    .recordAppend env (field b 1 2) count sk recs sks
  | 4 => .recordDelete env (field b 1 2) (field b 3 3) (field b 6 3)
  | 5 => .corpusDelete env
  | op => .otherOp env op

/-- A request from its bytes (R105): by KIND. One of a reserved KIND is read as an attention request, which refuses it (R112). -/
def State.requestOf (s : State) (job : Nat) (b : List Byte) : ReqBody :=
  let env := envOf b
  let body := (b.drop 64).take (64 * env.blen)
  match env.kind with
  | 2 => .context (contextOf env body)
  | 3 => s.retrievalOf job env body
  | _ => .attend (attendOf env body)

/-! ### Into the request path -/

/-- A SEARCH body with an OP that is not defined (R160): refused with UNSUPPORTED, with the completion record of a management operation; log
entry 159. -/
def State.otherOp (s : State) (src : Source) (env : Envelope) (op : Nat) : State :=
  if s.ready then s.manage src env op fun s _ _ => (.unsupported, 0, s) else s

/-- A request arrives, from a fabric port or behind a doorbell (R105, R477). A context operation of a code that is not defined is refused by
the first. -/
def State.submit (s : State) (src : Source) : ReqBody → State
  | .attend r => goesOn s (execAttendRequest s.timer src r s)
  | .context r =>
    match r.op with
    | 2 => goesOn s (execCtxFork s.timer src r s)
    | 3 => goesOn s (execCtxDelete s.timer src r s)
    | 4 => goesOn s (execSiltAppend s.timer src r s)
    | 5 => goesOn s (execPageMark s.timer src r s)
    | 6 => goesOn s (execPageRewrite s.timer src r s)
    | _ => goesOn s (execCtxCreate s.timer src r s)
  | .search r => goesOn s (execSearch s.timer src r s)
  | .corpusCreate env skb vfmt dim seed nseg segs => goesOn s (execCorpusCreate s.timer src env skb vfmt dim seed nseg segs s)
  | .recordAppend env seg count sk recs sks => goesOn s (execRecordAppend s.timer src env seg count sk recs sks s)
  | .recordDelete env seg first count => goesOn s (execRecordDelete s.timer src env seg first count s)
  | .corpusDelete env => goesOn s (execCorpusDelete s.timer src env s)
  | .otherOp env op => s.otherOp src env op

/-- The envelope of a complete CMD message enters the request path from the intake region (R298). -/
def State.handOver (s : State) (g : Segment) (w : Win) (b : List Byte) : State :=
  let s := { s with rq := { s.rq with intake := s.rq.intake ++ [(g.win, b)] } }
  s.submit (.fabric g.job w.comp g.osrc g.epoch g.mtag) (s.requestOf g.job b)

end Sys2Proof.Machine
end

