-- ==== Sys2Proof/Machine/Remote.lean ====
section
/-! DEFINITION. Remote operations (R294 to R325): receive-side checks, reassembly, ordering, the atomic unit and hot lines,
responses and resends, gateway conversion; and the meanings of their commands. -/

namespace Sys2Proof.Machine

/-! ### Responses -/

/-- More than 3,072 reassembly contexts are open: every response carries CE (R313). -/
def State.crowded (s : State) : Bool := decide (3072 < s.rmo.reasm.length)

/-- Whether this node is the local gateway for a node of another group. -/
def State.gatewayFor (s : State) (dest : Nat) : Bool :=
  let e := s.pdNum 0x4120 (bitsOf dest 8 6)
  !s.inGroup dest && bitAt e 31 && bitsOf e 0 14 == s.nodeId

/-- The segments of a response on a VL (R294, R295, R297). -/
def respSegs (vl : Nat) (r : Response) : List Segment :=
  (if r.data = [] then [[]] else chunks 7616 r.data).zipIdx.map fun x =>
    { vl, opc := if r.rd then 0x11 else 0x10, flag := false, ce := r.ce, dom := r.dom, conn := r.conn,
      job := r.job, osrc := r.osrc, fdest := r.fdest, rcid := r.rcid, kgen := r.kgen, cseq := r.cseq, mlen := r.data.length,
      off := 7616 * x.2, win := r.win, wgen := r.wgen, epoch := r.epoch, slen := x.1.length, mtag := r.mtag,
      addr := r.status.code + fieldAt (r.hint.getD 0) 14 16 + flagAt r.hint.isSome 31, data := x.1 }

/-- Segments go into the datagrams to come for the group of their destination (R323, R324). -/
def State.gwPack (s : State) (gs : List Segment) : State :=
  let add (g : Segment) : GwMsg :=
    { seg := g, group := bitsOf g.fdest 8 6, resends := 0, sentAt := s.timer, packed := true, since := s.timer }
  { s with rmo := { s.rmo with gw := s.rmo.gw ++ gs.map add } }

/-- The response to a message, with the fields that echo it (R297): this node answers its originator. -/
def State.responseOf (s : State) (g : Segment) (st : Status) (hint : Option Nat) (ce : Bool) (data : List Byte) : Response :=
  { osrc := s.nodeId, fdest := g.osrc, rcid := g.rcid, conn := g.conn, cseq := g.cseq, status := st, hint, ce := ce || s.crowded, data,
    rd := g.opc == 1 && st == .ok, dom := bitAt (s.pdNum 0x7130 0) 0, job := g.job, kgen := g.kgen, win := g.win, wgen := g.wgen,
    epoch := g.epoch, mtag := g.mtag }

/-- The high part of the extended sequence of a message at its receive entry (R392): the one that places CSEQ nearest to H. For a message that this node
answers as a gateway it is 0; log entry 160. -/
def State.highOf (s : State) (g : Segment) : Nat :=
  if g.fdest ≠ s.nodeId then 0
  else
    let e := s.recvEnt g.rcid
    (((e.high * 2 ^ 32 + e.h.toNat : Nat) : Int) + (g.cseq - e.h).toInt).toNat / 2 ^ 32 % 2 ^ 14

/-- A response of this node leaves (R274, R295, R297, R323): its segments wait for a port, on VL5, or for a request on VL3 on VL4, which the far
gateway itself packs. -/
def State.sendResponse (s : State) (g : Segment) (ord : Nat) (r : Response) : State :=
  let vl := if g.vl = 3 then 4 else 5
  let high := s.highOf g
  if vl = 4 ∧ s.gatewayFor r.fdest = true then
    s.gwPack ((respSegs vl r).map fun x => { x with data := padTo x.slen (Config.gcm x.job x.kgen (segIv x high ord) (segHeader x) x.data).1 })
  else s.putPkts ((respSegs vl r).map fun seg => { vl, seg, high, ord, raw := false })

/-- Send the response to a message (R297, R394): one without payload and hint has ordinal 15; the ordinals 0 to 14 serve the others, and a message
whose ordinals are spent receives no further one. -/
def State.respond (s : State) (g : Segment) (st : Status) (hint : Option Nat) (ce : Bool) (data : List Byte) : State :=
  let out (ord : Nat) (s : State) : State :=
    (s.sendResponse g ord (s.responseOf g st hint ce data)).emit (.response g.osrc g.rcid g.conn g.cseq st hint (ce || s.crowded) data)
  if data = [] ∧ hint.isNone then out 15 s
  else
    let mine (x : Nat × BitVec 32 × Nat) : Bool := x.1 == g.rcid && x.2.1 == g.cseq
    let n := (s.rmo.ords.find? mine).elim 0 (·.2.2)
    if 15 ≤ n then s
    else out n { s with rmo := { s.rmo with ords := (g.rcid, g.cseq, n + 1) :: s.rmo.ords.filter fun x => !mine x } }

/-- A MSG event (R327). -/
def State.msgEvent (s : State) (code subj node : Nat) (cseq : BitVec 32) (comp : Option Nat) (job : Nat) (st : Nat) : State :=
  s.event { cls := 2, code, subj, comp, status := st, job,
            detail := leBytes 2 node ++ [0, 0] ++ leBytes 4 cseq.toNat }

/-! ### The duplicate window (R310) -/

/-- Signed distance of a sequence from H. -/
def RecvEnt.dist (e : RecvEnt) (c : BitVec 32) : Int := (c - e.h).toInt

/-- The duplicate rule of R310. -/
def RecvEnt.duplicate (e : RecvEnt) (c : BitVec 32) : Bool :=
  let d := e.dist c
  if d ≤ -64 then true else if d ≤ 0 then bitAt e.applied.toNat (-d).toNat else false

/-- A message finishes: applied, or refused by a check (R310). The high part of the extended sequence follows H (R392). -/
def RecvEnt.finish (e : RecvEnt) (c : BitVec 32) (applied : Bool) : RecvEnt :=
  let d := e.dist c
  let e := if 0 < d then
      { e with h := c, high := if 2 ^ 32 ≤ e.h.toNat + d.toNat then e.high + 1 else e.high, applied := e.applied <<< d.toNat,
               refused := e.refused <<< d.toNat }
    else e
  let i := (e.h - c).toNat
  let bit : BitVec 64 := if i < 64 then 1#64 <<< i else 0
  if applied then { e with applied := e.applied ||| bit } else { e with refused := e.refused ||| bit }

/-- Whether a sequence has been marked REFUSED (R312). -/
def RecvEnt.wasRefused (e : RecvEnt) (c : BitVec 32) : Bool :=
  let d := e.dist c
  decide (-64 < d) && decide (d ≤ 0) && bitAt e.refused.toNat (-d).toNat

/-- Every message of the connection with a lower CSEQ has finished (R316, R317). -/
def RecvEnt.earlierDone (e : RecvEnt) (c : BitVec 32) : Bool :=
  let d := e.dist c
  if 1 < d then false
  else
    let ext : Int := (e.high * 2 ^ 32 + e.h.toNat : Nat)
    (List.range 64).all fun i =>
      decide ((i : Int) ≤ -d) || bitAt e.applied.toNat i || bitAt e.refused.toNat i || decide (ext - i < 1)

/-- Finish a message at its receive entry. -/
def State.finishMsg (s : State) (g : Segment) (applied : Bool) : State :=
  let s := s.setRecv g.rcid ((s.recvEnt g.rcid).finish g.cseq applied)
  { s with rmo := { s.rmo with reasm := s.rmo.reasm.filter fun c => !(c.rcid == g.rcid && c.cseq == g.cseq),
                               ords := s.rmo.ords.filter fun x => !(x.1 == g.rcid && decide ((s.recvEnt g.rcid).dist x.2.1 ≤ -64)) } }

/-! ### Checks (R311) -/

/-- What the checks decide about a segment. -/
inductive Verdict where
  | discard (sub : Nat) (event : Bool)
  | unknown
  | duplicate
  | refuse (st : Status) (hint : Option Nat)
  | pass (w : Win)
  deriving DecidableEq, Repr

/-- The longest payload of a message (R294). -/
def maxMlen : Nat := 2097216

/-- Bytes of the window that an operation touches: the read length, the old value of a CAS, or the payload (R298). -/
def segSpan (g : Segment) : Nat :=
  if g.opc = 1 then bitsOf (leNat g.data) 0 22 else if g.opc = 6 then 8 else if g.opc = 7 then 16 else g.mlen

/-- B of a message: the read length of a READ, else MLEN (R307). -/
def segB (g : Segment) : Nat := if g.opc = 1 then segSpan g else g.mlen

/-- The alignment of ADDR (R298). -/
def opAlign (opc : Nat) : Nat :=
  match opc with
  | 3 => 8 | 4 => 4 | 5 => 64 | 6 => 8 | 7 => 16 | 8 => 64 | _ => 1

/-- The payload sizes and segment counts of R298. -/
def segSizeOk (g : Segment) : Bool :=
  match g.opc with
  | 1 => g.mlen == 8 && decide (1 ≤ segSpan g) && decide (segSpan g ≤ maxMlen)
  | 2 => true
  | 3 => decide (8 ≤ g.mlen) && decide (g.mlen ≤ 7616) && g.mlen % 8 == 0
  | 4 => decide (4 ≤ g.mlen) && decide (g.mlen ≤ 7616) && g.mlen % 4 == 0
  | 5 => decide (64 ≤ g.mlen) && decide (g.mlen ≤ 7616) && g.mlen % 64 == 0
  | 6 => g.mlen == 16
  | 7 => g.mlen == 32
  | _ => true

/-- The enable of an operation (R298). -/
def Win.enables (w : Win) (opc : Nat) : Bool :=
  match opc with
  | 1 => w.rd | 2 => w.wr | 3 => w.add | 4 => w.add | 5 => w.xr | 6 => w.cas | 7 => w.cas | 8 => w.cmd | _ => false

/-- Checks 7 to 11 of R311. -/
def State.lateChecks (s : State) (g : Segment) : Verdict :=
  match s.winFound g.job g.win with
  | none => .refuse .noWindow none
  | some w =>
    if w.fwdv then .refuse .moved (some w.fwd)
    else if !w.isOpen ∨ w.wgen ≠ g.wgen then .refuse .revoked none
    else if !w.enables g.opc then .refuse .accessDenied none
    else if g.addr % opAlign g.opc ≠ 0 ∨ w.size < g.addr + segB g ∨ !segSizeOk g then .refuse .unsupported none
    else .pass w

/-- Check 1 of R311: the operation known, fields in range, FDEST this node, SLEN and OFF consistent with MLEN, DOM the node's
domain. -/
def State.wellFormed (s : State) (op : Nat) (g : Segment) : Bool :=
  g.opc == op && g.fdest == s.nodeId && decide (1 ≤ g.mlen) && decide (g.mlen ≤ maxMlen) && g.off % 7616 == 0
    && decide (g.off < g.mlen) && g.slen == min 7616 (g.mlen - g.off) && g.data.length == g.slen
    && g.dom == bitAt (s.pdNum 0x7130 0) 0

/-- The checks of R311, in order. -/
def State.checkSeg (s : State) (op : Nat) (tagOk : Bool) (g : Segment) : Verdict :=
  let e := s.recvEnt g.rcid
  if !s.wellFormed op g then .discard 0x0A false
  else if !s.genOk g.job g.kgen then .discard 4 false
  else if !tagOk then .discard 5 true
  else if !e.valid ∨ e.osrc ≠ g.osrc ∨ e.conn ≠ g.conn ∨ e.job ≠ g.job then .unknown
  else if e.duplicate g.cseq then .duplicate
  else if !s.epochOk (.fabric 0 0 0 g.epoch 0) then
    .refuse .moved ((s.win? g.job g.win).bind fun w => if w.fwdv then some w.fwd else none)
  else s.lateChecks g

/-- Answer a message refused at checks 6 to 11, once, and mark it (R312). -/
def State.refuseMsg (s : State) (g : Segment) (st : Status) (hint : Option Nat) (ce : Bool) : State :=
  if (s.recvEnt g.rcid).wasRefused g.cseq then s
  else
    let comp := (s.win? g.job g.win).map fun x : Win => x.comp
    let s := if st = .revoked then (match comp with | some c => s.countC c 0x4160 3 1 | none => s.count 0x4160 3)
      else if st = .moved then
        (match comp with | some c => s.countC c 0x4160 9 1 | none => s.count 0x4160 9).event
          { cls := 3, code := 3, subj := g.win, comp, status := 0x10, job := g.job,
            detail := leBytes 2 g.osrc ++ [0, 0] ++ leBytes 6 g.addr }
      else s
    (s.finishMsg g false).respond g st hint ce []

/-! ### The atomic unit (R318, R319) -/

/-- The lines of 64 B that a range touches. -/
def linesOf (a len : Nat) : List Nat := if len = 0 then [] else (List.range ((a + len - 1) / 64 + 1 - a / 64)).map (a / 64 + ·)

/-- Whether the unit holds a line. -/
def State.heldLine (s : State) (l : Nat) : Bool := s.rmo.alines.any fun x => x.line == l

/-- The responses whose lines have all been written back are sent (R315). -/
def State.answerWritten (s : State) : State :=
  let dirty (l : Nat) : Bool := s.rmo.alines.any fun x => x.line == l && x.dirty
  let go := s.rmo.aresp.filter fun r => !(r.lines.any dirty)
  let s := { s with rmo := { s.rmo with aresp := s.rmo.aresp.filter fun r => r.lines.any dirty } }
  go.foldl (fun s r => s.respond r.seg r.st none r.ce r.data) s

/-- Write a line of the unit back to HBM (R319). -/
def State.writeBackNow (s : State) (l : Nat) : State :=
  match s.rmo.alines.find? fun x => x.line == l with
  | none => s
  | some x =>
    if !x.dirty then s
    else
      let s := s.store (64 * l) x.data
      ({ s with rmo := { s.rmo with alines := mapIf (fun y => y.line == l) (fun y => { y with dirty := false }) s.rmo.alines } }).answerWritten

/-- Whether the bank of a line is being refreshed, so that its write-back waits (R208, R329). -/
def State.lineWaits (s : State) (l : Nat) : Bool := (s.arb (pcOf (64 * l))).isRefreshing s.timer (bankOf (64 * l))

/-- Write a line back, unless its bank is being refreshed. -/
def State.writeBack (s : State) (l : Nat) : State := if s.lineWaits l then s else s.writeBackNow l

/-- A line leaves the unit, written back. -/
def State.dropLine (s : State) (l : Nat) : State :=
  let s := s.writeBackNow l
  { s with rmo := { s.rmo with alines := s.rmo.alines.filter fun x => x.line != l } }

/-- A line enters the unit; the least recently used leaves when room is needed (R319), which waits for its bank (log entry 181). -/
def State.takeLine (s : State) (l : Nat) : State :=
  if s.heldLine l then
    { s with rmo := { s.rmo with alines := mapIf (fun y => y.line == l) (fun y => { y with last := s.timer }) s.rmo.alines } }
  else
    let s := if s.rmo.alines.length < 256 then s else
      match s.rmo.alines.foldl (fun (b : Option ALine) x =>
        match b with
        | none => some x
        | some a => if x.last < a.last then some x else some a) none with
      | some x => s.dropLine x.line
      | none => s
    { s with rmo := { s.rmo with alines := s.rmo.alines ++ [{ line := l, data := s.load (64 * l) 64, last := s.timer, dirty := false }] } }

/-- A byte as the remote side sees it: from the unit where it holds the line (R319). -/
def State.unitByte (s : State) (a : Nat) : Byte :=
  match s.rmo.alines.find? fun x => x.line == a / 64 with
  | some x => x.data.getD (a % 64) 0
  | none => Memory.read s.mem a

/-- Bytes as the remote side sees them. -/
def State.unitRead (s : State) (a n : Nat) : List Byte :=
  if s.rmo.alines = [] then s.load a n else (List.range n).map fun i => s.unitByte (a + i)

/-- Replace bytes of a 64-byte line. -/
def patch (line : List Byte) (at_ : Nat) (bs : List Byte) : List Byte := line.take at_ ++ bs ++ line.drop (at_ + bs.length)

/-- Write bytes: in the unit for lines it holds, else in HBM (R318). -/
def State.unitWrite (s : State) (a : Nat) (bs : List Byte) : State :=
  (linesOf a bs.length).foldl (fun s l =>
    let lo := max a (64 * l)
    let part := (bs.drop (lo - a)).take (64 * l + 64 - lo)
    if s.heldLine l then
      let f (y : ALine) : ALine := { y with data := patch y.data (lo - 64 * l) part, dirty := true, last := s.timer }
      let alines := mapIf (fun y => y.line == l) f s.rmo.alines
      { s with rmo := { s.rmo with alines } }
    else s.store lo part) s

/-! ### Hot lines (R320) -/

/-- Count an operation on the lines it targets (R320): a line is hot in an interval of 1 µs, wherever it begins, in which more than PD 0x4103.00 target it.
The last such interval begins with the oldest of so many and one more. -/
def State.countHot (s : State) (g : Segment) (a len : Nat) : State :=
  let most := s.pdNum 0x4103 0
  (linesOf a len).foldl (fun s l =>
    let h := (s.rmo.hots.find? fun x => x.line == l).getD
      { line := l, ops := [], hotTo := none, told := none, event := none, win := g.win, node := g.osrc, addr := g.addr }
    let ops := s.timer :: h.ops.filter fun x => decide (s.timer < x + us)
    let hotTo := if most < ops.length then some (ops.getD most 0 + us) else h.hotTo
    let rest := s.rmo.hots.filter fun x => x.line != l && (x.hotTo.isSome || x.ops.any fun y => decide (s.timer < y + us))
    { s with rmo := { s.rmo with hots := { h with ops, hotTo, win := g.win, node := g.osrc, addr := g.addr } :: rest } }) s

/-- Whether responses to operations on a range carry CE: one of its lines is hot, or PD 0x4103.01 has not passed since it last was (R320). -/
def State.hotCe (s : State) (a len : Nat) : Bool :=
  s.rmo.hots.any fun h => (linesOf a len).contains h.line && h.hotTo.any fun e => decide (s.timer ≤ e + s.pdNum 0x4103 1 * us)

/-! ### Applying operations (R299, R314, R315) -/

/-- One element of an atomic operation: the new bytes (R299). -/
def atomicElem (opc : Nat) (old arg : List Byte) : List Byte :=
  match opc with
  | 3 => leBytes 8 (leNat old + leNat arg)
  | 4 => leBytes 4 (add32 (BitVec.ofNat 32 (leNat old)) (BitVec.ofNat 32 (leNat arg))).toNat
  | _ => List.zipWith (· ^^^ ·) old arg

/-- Width of an element (R299). -/
def elemWidth (opc : Nat) : Nat := if opc = 3 then 8 else if opc = 4 then 4 else 1

/-- The new bytes of a range under ADD64, ADDF32 or XOR (R299). -/
def atomicBytes (opc : Nat) (old arg : List Byte) : List Byte :=
  (List.zipWith (atomicElem opc) (chunks (elemWidth opc) old) (chunks (elemWidth opc) arg)).flatten

/-- Send the response of an operation, whatever its status: at once, or after the write-back of the lines it changed (R315). -/
def State.answer (s : State) (g : Segment) (st : Status) (a len : Nat) (data : List Byte) : State :=
  let ce := s.hotCe a len
  let dirty := (linesOf a len).filter fun l => s.rmo.alines.any fun x => x.line == l && x.dirty
  if dirty = [] then s.respond g st none ce data
  else { s with rmo := { s.rmo with aresp := s.rmo.aresp ++ [{ lines := dirty, seg := g, data, ce, st }] } }

/-- Carry out a complete message in its window (R298, R299, R314). `bytes` is its payload, already written for an unflagged
WRITE or CMD; the envelope that a CMD brings enters the request path. -/
def State.applyMsg (s : State) (g : Segment) (w : Win) (bytes : List (Nat × List Byte)) : State :=
  let a := w.base + g.addr
  let s := s.finishMsg g true
  let arg := (bytes.map (·.2)).flatten
  if g.opc = 1 then s.respond g .ok none (s.hotCe a (segSpan g)) (s.unitRead a (segSpan g))
  else if g.opc = 2 then
    let s := bytes.foldl (fun s b => s.unitWrite (a + b.1) b.2) s
    let (st, s) := if g.flag then s.controlWrite g.job g.win w g.addr else (.ok, s)
    s.answer g st a g.mlen []
  else if g.opc = 8 then
    let s := bytes.foldl (fun s b => s.unitWrite (a + b.1) b.2) s
    (s.handOver g w (s.unitRead a g.mlen)).answer g .ok a g.mlen []
  else
    let held := (linesOf a (segSpan g)).any s.heldLine
    let s := if held then s.count 0x4160 7 else s
    let s := (linesOf a (segSpan g)).foldl (fun s l => s.takeLine l) s
    let old := s.unitRead a (segSpan g)
    if g.opc = 6 ∨ g.opc = 7 then
      let s := if arg.take (segSpan g) = old then s.unitWrite a (arg.drop (segSpan g)) else s
      s.answer g .ok a (segSpan g) old
    else (s.unitWrite a (atomicBytes g.opc old arg)).answer g .ok a (segSpan g) []

/-- Segments of a message (R295). -/
def segCount (g : Segment) : Nat := (g.mlen + 7615) / 7616

/-- A segment that has passed the checks (R313, R314, R317): its context opens or grows; its bytes are written unless the
message is flagged; the complete message is applied, or held for FLAG. -/
def State.acceptSeg (s : State) (g : Segment) (w : Win) : State :=
  let mine (c : Reasm) : Bool := c.rcid == g.rcid && c.cseq == g.cseq
  let a := w.base + g.addr
  let old := s.rmo.reasm.find? mine
  if old.isNone ∧ 4096 ≤ s.rmo.reasm.length then
    (s.count 0x4160 8).msgEvent 7 g.rcid g.osrc g.cseq (some w.comp) g.job 0
  else if old.elim false (·.whole) then s
  else
    let s := s.countHot g (a + (if g.opc = 2 ∨ g.opc = 8 then g.off else 0)) (if g.opc = 2 ∨ g.opc = 8 then g.slen else segSpan g)
    let c := old.getD { rcid := g.rcid, cseq := g.cseq, seg := { g with data := [] }, offs := [], since := s.timer, whole := false, bytes := [] }
    let keep := g.flag || !(g.opc == 2 || g.opc == 8)
    let s := if keep then s else s.unitWrite (a + g.off) g.data
    let c := { c with offs := if c.offs.contains g.off then c.offs else g.off :: c.offs,
                      bytes := if keep then (g.off, g.data) :: c.bytes.filter fun b => b.1 != g.off else c.bytes }
    let put_ (c : Reasm) (s : State) : State := { s with rmo := { s.rmo with reasm := s.rmo.reasm.filter (fun x => !mine x) ++ [c] } }
    if c.offs.length < segCount g then put_ c s
    else
      let bytes := c.bytes.mergeSort fun x y => decide (x.1 ≤ y.1)
      let whole : Segment := { g with off := 0, data := if g.opc = 1 then g.data else [] }
      if !g.flag ∨ (s.recvEnt g.rcid).earlierDone g.cseq then s.applyMsg whole w bytes
      else put_ { c with seg := whole, whole := true, since := s.timer, bytes } s

/-! ### Gateway conversion (R322, R323) -/

/-- A packet that comes to the local gateway on its way to another group (R323): a READ or WRITE on VL1 is kept for resend and
packed; anything else is answered UNSUPPORTED and counted (R286). -/
def State.convert (s : State) (g : Segment) : State :=
  let group := bitsOf g.fdest 8 6
  if g.vl = 1 ∧ (g.opc = 1 ∨ g.opc = 2) then
    s.gwPack [g]
  else
    let port := ((portList (s.queue (s.pdNum 0x4202 group)).ports).find? fun p => (s.port p).mode == 1).getD 0
    (s.count 0x4018 port).respond g .unsupported none false []

/-- The first segment of a message to fail check 4 is answered, and the message marked (R312): its entry is not this sender's, so the mark is kept
apart until the entry is written (log entry 182). -/
def State.refuseUnknown (s : State) (g : Segment) : State :=
  let key := (g.osrc, g.conn, g.rcid, g.job, g.cseq)
  if s.rmo.unk.contains key then s
  else ({ s with rmo := { s.rmo with unk := key :: s.rmo.unk } }).respond g .accessDenied none false []

/-- A request segment arrives (R311 to R314). -/
def State.receive (s : State) (op : Nat) (tagOk : Bool) (g : Segment) : State :=
  if !s.ready then s
  else if g.fdest ≠ s.nodeId ∧ s.gatewayFor g.fdest then s.convert g
  else
    let s := s.forceDue
    match s.checkSeg op tagOk g with
    | .discard sub ev =>
      let s := s.count 0x4160 sub
      if ev then s.msgEvent 3 g.rcid g.osrc g.cseq none g.job 0x42 else s
    | .unknown =>
      (s.msgEvent 4 g.rcid g.osrc g.cseq none g.job 0x41).refuseUnknown g
    | .duplicate =>
      if g.off = 0 then
        (match (s.win? g.job g.win).map (fun x : Win => x.comp) with | some c => s.countC c 0x4160 1 1 | none => s.count 0x4160 1).respond g .duplicate none false []
      else s
    | .refuse st hint => s.refuseMsg g st hint false
    | .pass w => s.acceptSeg g w

/-- READ (R298, R319). -/
def execRead (t : Nat) (tagOk : Bool) (g : Segment) (s : State) : Res := .next ((s.arrive t).receive 1 tagOk g)

/-- WRITE (R314). -/
def execWrite (t : Nat) (tagOk : Bool) (g : Segment) (s : State) : Res := .next ((s.arrive t).receive 2 tagOk g)

/-- ADD64 (R299). -/
def execAdd64 (t : Nat) (tagOk : Bool) (g : Segment) (s : State) : Res := .next ((s.arrive t).receive 3 tagOk g)

/-- ADDF32 (R299). -/
def execAddf32 (t : Nat) (tagOk : Bool) (g : Segment) (s : State) : Res := .next ((s.arrive t).receive 4 tagOk g)

/-- XOR (R299, R412). -/
def execXor (t : Nat) (tagOk : Bool) (g : Segment) (s : State) : Res := .next ((s.arrive t).receive 5 tagOk g)

/-- CAS64 (R299). -/
def execCas64 (t : Nat) (tagOk : Bool) (g : Segment) (s : State) : Res := .next ((s.arrive t).receive 6 tagOk g)

/-- CAS128 (R299). -/
def execCas128 (t : Nat) (tagOk : Bool) (g : Segment) (s : State) : Res := .next ((s.arrive t).receive 7 tagOk g)

/-- CMD (R298, R314): the envelope enters the request path when the message is complete. -/
def execCmd (t : Nat) (tagOk : Bool) (g : Segment) (s : State) : Res := .next ((s.arrive t).receive 8 tagOk g)

/-- A held or open context by its connection and sequence. -/
def State.reasm? (s : State) (rcid : Nat) (cseq : BitVec 32) : Option Reasm :=
  s.rmo.reasm.find? fun c => c.rcid == rcid && c.cseq == cseq

/-- Close a context without a mark and answer REPLAY, unless its generation is no longer in force (R313, R317, R329). -/
def State.replayContext (s : State) (c : Reasm) : State :=
  let s := { s with rmo := { s.rmo with reasm := s.rmo.reasm.filter fun x => !(x.rcid == c.rcid && x.cseq == c.cseq) } }
  if s.genOk c.seg.job c.seg.kgen then s.respond c.seg .replay none false [] else s

/-- REASSEMBLY_TIMEOUT (R313): the timer of an incomplete context has expired. -/
def execReassemblyTimeout (t rcid : Nat) (cseq : BitVec 32) (s : State) : Res :=
  let s := s.arrive t
  match s.reasm? rcid cseq with
  | none => .next s
  | some c =>
    if c.whole ∨ s.timer < c.since + s.pdNum 0x4101 0 * us then .next s
    else
      let comp := (s.win? c.seg.job c.seg.win).map fun x : Win => x.comp
      let s := match comp with | some k => s.countC k 0x4160 2 1 | none => s.count 0x4160 2
      .next ((s.msgEvent 2 rcid c.seg.osrc cseq comp c.seg.job 0x31).replayContext c)

/-- FLAG_RELEASE (R317): every earlier message of the connection has finished; the held message is checked again from check 7
and applied. -/
def execFlagRelease (t rcid : Nat) (cseq : BitVec 32) (s : State) : Res :=
  let s := s.arrive t
  match s.reasm? rcid cseq with
  | none => .next s
  | some c =>
    if !c.whole ∨ !(s.recvEnt rcid).earlierDone cseq then .next s
    else
      let s := s.forceDue
      match s.lateChecks c.seg with
      | .refuse st hint => .next (s.refuseMsg c.seg st hint false)
      | .pass w => .next (s.applyMsg c.seg w c.bytes)
      | _ => .next s

/-- FLAG_HOLD_TIMEOUT (R317): a message held longer than PD 0x4101.03 ends with REPLAY. -/
def execFlagHoldTimeout (t rcid : Nat) (cseq : BitVec 32) (s : State) : Res :=
  let s := s.arrive t
  match s.reasm? rcid cseq with
  | none => .next s
  | some c => if !c.whole ∨ s.timer ≤ c.since + s.pdNum 0x4101 3 * us then .next s else .next (s.replayContext c)

/-- ATOMIC_WRITEBACK (R319, R315). -/
def execAtomicWriteback (t line : Nat) (s : State) : Res := .next ((s.arrive t).writeBack line)

/-- HOT_LINE_EVICT (R319): a line leaves after 1 µs without operations. -/
def execHotLineEvict (t line : Nat) (s : State) : Res :=
  let s := s.arrive t
  match s.rmo.alines.find? fun x => x.line == line with
  | none => .next s
  | some x => .next (if s.timer < x.last + us || (x.dirty && s.lineWaits line) then s else s.dropLine line)

/-- HOT_LINE (R320): the line is hot, in an interval that does not overlap the last one counted: it is counted, enters the unit, and raises one event a
millisecond. -/
def execHotLine (t line : Nat) (s : State) : Res :=
  let s := s.arrive t
  match s.rmo.hots.find? fun x => x.line == line with
  | none => .next s
  | some h =>
    match h.hotTo with
    | none => .next s
    | some e =>
      if h.told.any fun u => decide (e < u + us) then .next s
      else
        let due := h.event.elim true fun e => decide (e + ms ≤ s.timer)
        let h' := { h with told := some e, event := if due then some s.timer else h.event }
        let s := { s with rmo := { s.rmo with hots := mapIf (fun x => x.line == line) (fun _ => h') s.rmo.hots } }
        let s := (s.count 0x4160 6).takeLine line
        if due then
          .next (s.event { cls := 3, code := 1, subj := h.win, comp := s.compAt (64 * line), job := (s.compAt (64 * line)).elim 0 s.jobOf,
                           detail := leBytes 2 h.node ++ [0, 0] ++ leBytes 6 h.addr })
        else .next s

/-! ### The sending side (R306 to R309) -/

/-- Take a message that has ended out of its queue, if a resend of it waits there. -/
def State.unqueueSeq (s : State) (q : Nat) (c : BitVec 32) : State := s.unqueue q fun m => m.cseq == some c

/-- A DMA channel as reset leaves it (R347). -/
def Dma.off : Dma :=
  { srcA := 0, dstA := 0, count := 0, trig := 0, skind := false, dkind := false, tch := 0, flagLast := false, queue := 0,
    irq := false, win := 0, wgen := 0, tphase := 0, st := .idle, dir := false, status := .ok, done := false, halt := false,
    triglost := false, refused := false, prog := 0, errAddr := 0, errRem := false, outst := 0, issued := 0, bad := none, acked := [] }

/-- A DMA channel. -/
def State.dma (s : State) (ch : Nat) : Dma := lookD s.egq.dma ch Dma.off

/-- Put a DMA channel back. -/
def State.setDma (s : State) (ch : Nat) (d : Dma) : State := { s with egq := { s.egq with dma := put s.egq.dma ch d } }

/-- Note a failure of a transfer: the lowest failing address of the side that failed first (R346). -/
def Dma.fail (d : Dma) (addr : Nat) (wr : Bool) (st : Status) : Dma :=
  match d.bad with
  | some (a, w, _) => if w = wr ∧ addr < a then { d with bad := some (addr, wr, st) } else d
  | none => { d with bad := some (addr, wr, st) }

/-- A message of a DMA channel has ended (R343, R346): after a failure the channel issues nothing more; an aborted channel
whose last message has ended returns to IDLE. -/
def State.dmaEnded (s : State) (ch : Nat) (m : Msg) (st : Status) (data : List Byte) : State :=
  let d := s.dma ch
  let rd := m.opc == 1
  let off := m.addr - (if rd then d.srcA else d.dstA)
  let good := st == .ok || st == .duplicate
  let s := if good && rd then s.store (d.dstA + off) data else s
  let mine (w : Msg) : Bool := w.prod == .dma ch && w.cseq.isNone
  let cut := if good then 0 else ((s.queued d.queue).filter mine).length
  let s := if good then s else s.unqueue d.queue mine
  let idle := d.st == DmaState.aborting && decide (d.outst ≤ 1 + cut)
  let d := { d with outst := d.outst - 1 - cut, st := if idle then DmaState.idle else d.st }
  s.setDma ch (if good then { d with acked := d.acked ++ [(off, m.count)] } else d.fail m.addr (!rd) st)

/-- A result write was refused at the target (R130): the request sends nothing more, and a REPLY_REFUSED event is raised. -/
def State.resultRefused (s : State) (q : Nat) (id : Nat) (m : Msg) (st : Status) : State :=
  let e := s.sendEnt q
  let x := s.queue q
  let s := (s.setReq id fun r => { r with stopped := true }).unqueue q fun w => w.prod == .result id && w.cseq.isNone
  s.msgEvent 5 q e.fdest (m.cseq.getD 0) (if x.opr then none else some x.comp) e.job st.code

/-- A read of a subsoil frame ends (R245): for a section of a request, whose block ends with the status of a failure; or for a recall, whose
page then stays where it is. A DUPLICATE response brings no data, so the frame's tag cannot verify; log entry 152. -/
def State.fetchEnded (s : State) (id i page : Nat) (st : Status) (want data : List Byte) : State :=
  match (s.req? id).bind fun r => (r.secs[i]?).map fun x => (r, x) with
  | none =>
    match s.tier.recalls.find? fun r => r.id == id with
    | none => s
    | some r =>
      let (st, s) := if st = .ok then s.checkSub r.comp r.job r.ctx (r.stream.getD 0) page want data else (st, s)
      if st = .ok then s else s.recallBad id page
  | some (r, x) =>
    let (st, s) := if st = .ok then s.checkSub r.comp r.job r.req.env.ctx x.stream page want data else (st, s)
    if st = .ok then s else s.endSec id i st

/-- A message of a move ends (R245, R255): one that was refused, or whose frame fails its check, ends the move with nothing switched. -/
def State.moveEnded (s : State) (id : Nat) (rd : Bool) (st : Status) (want data : List Byte) : State :=
  let quit (s : State) : State := { s with tier := { s.tier with moves := s.tier.moves.filter fun x => x.id != id } }
  if st ≠ .ok then quit s
  else if !rd then s
  else match s.tier.moves.find? fun m => m.id == id with
    | none => s
    | some m =>
      let (st, s) := s.checkSub ((s.ctx? m.job m.ctx).elim 0 (·.comp)) m.job m.ctx m.stream m.page want data
      if st = .ok then s else quit s

/-- A message ends: its producer hears of it (R331). -/
def State.ended (s : State) (q : Nat) (m : Msg) (st : Status) (data : List Byte) : State :=
  let good := st == .ok || st == .duplicate
  match m.prod with
  | .result id => if good || st == .replay then s else s.resultRefused q id m st
  | .parity job ctx stream page key add =>
    if good && add && !(s.inFlight fun p => p == m.prod) then
      s.setPage job ctx stream page fun p => if p.desc.frame = key then { p with pmap := { p.pmap with valid := true } } else p
    else s
  | .tier id => s.moveEnded id (m.opc == 1) (if good then .ok else st) m.want data
  | .dma ch => s.dmaEnded ch m st data
  | .weight nn =>
    if good then s
    else { s.unqueue q fun w => w.prod == .weight nn && w.cseq.isNone with
           tier := { s.tier with wstr := s.tier.wstr.filter fun x => x.nn != nn } }
  | .fetch id i page => s.fetchEnded id i page (if st = .duplicate then .ok else st) m.want data
  | .mirror id => if good then s.mirrorAcked id else s
  | .append id => if good then s.appendAcked id else s
  | .ring c => s.ringNext c
  | .handoff => s
  | .datagram id => { s with rmo := { s.rmo with dgrams := s.rmo.dgrams.filter fun d => d.id != id } }

/-- A message leaves the outstanding set of its connection (R307). -/
def State.closeMsg (s : State) (q : Nat) (o : Outst) (e : SendEnt) : State :=
  (s.setSend q { e with outst := e.outst.filter fun x => x.cseq != o.cseq, obytes := e.obytes - o.bytes }).unqueueSeq q o.cseq

/-- Resend a message whole, at the head of its queue, or end it with REPLAY at the resend limit (R308, R348). -/
def State.resend (s : State) (q : Nat) (o : Outst) : State :=
  let e := s.sendEnt q
  if s.pdNum 0x4101 2 ≤ o.msg.resends then
    let x := s.queue q
    let s := s.closeMsg q o { e with cwnd := s.pdNum 0x4102 1 }
    let s := s.msgEvent 1 q e.fdest o.cseq (if x.opr then none else some x.comp) e.job 0x31
    s.ended q o.msg .replay []
  else
    let m := { o.msg with off := 0, resends := o.msg.resends + 1 }
    let s := s.setSend q { e with outst := mapIf (fun x => x.cseq == o.cseq) (fun x => { x with msg := m }) e.outst }
    (s.unqueueSeq q o.cseq).enqueue q m

/-- A response that crosses this gateway (R323 to R325): at the local gateway the kept message is done, and the response goes on to the
requester on VL5, as it came; at the far one it is packed for the group of the requester. -/
def State.gwResponse (s : State) (r : Response) : State :=
  let mine (x : GwMsg) : Bool := x.seg.vl != 4 && x.seg.osrc == r.fdest && x.seg.conn == r.conn && x.seg.cseq == r.cseq
  if s.rmo.gw.any mine then
    let s := { s with rmo := { s.rmo with gw := s.rmo.gw.filter fun x => !mine x } }
    (s.putPkts ((respSegs 5 r).map fun seg => { vl := 5, seg, high := 0, ord := 0, raw := true })).emit
      (.response r.fdest r.rcid r.conn r.cseq r.status r.hint r.ce r.data)
  else if s.gatewayFor r.fdest then s.gwPack (respSegs 4 r)
  else s

/-- Check 1 of R311 on a response to this node: the fields in range, and DOM the node's domain (R297, R298). -/
def State.respFine (s : State) (r : Response) : Bool :=
  decide (r.data.length ≤ maxMlen) && r.dom == bitAt (s.pdNum 0x7130 0) 0 &&
    (if r.rd then r.data != [] else r.data.length == 0 || r.data.length == 8 || r.data.length == 16)

/-- A response arrives (R297, R307, R308, R311, R313): its segments meet checks 1 to 3. -/
def State.response (s : State) (tagOk : Bool) (r : Response) : State :=
  if !s.ready then s
  else if r.fdest ≠ s.nodeId then s.gwResponse r
  else if !s.respFine r then s.count 0x4160 0x0A
  else if !s.genOk r.job r.kgen then s.count 0x4160 4
  else if !tagOk then (s.count 0x4160 5).msgEvent 3 r.conn r.osrc r.cseq none 0 0x42
  else
    let e := s.sendEnt r.conn
    match e.outst.find? fun o => o.cseq == r.cseq with
    | none => s
    | some o =>
      let s := if r.ce then s.setQueue r.conn { s.queue r.conn with ce := true } else s
      let e := e.onResponse r.ce s.timer (s.pdNum 0x4102 1) (s.pdNum 0x4102 2) o.bytes
      if r.status = .replay then (s.setSend r.conn e).resend r.conn o
      else (s.closeMsg r.conn o e).ended r.conn o.msg r.status r.data

/-- RESP (R297, R307, R308). -/
def execResp (t : Nat) (tagOk : Bool) (r : Response) (s : State) : Res := .next ((s.arrive t).response tagOk { r with rd := false })

/-- READ_DATA (R297): the READ has succeeded. -/
def execReadData (t : Nat) (tagOk : Bool) (r : Response) (s : State) : Res :=
  .next ((s.arrive t).response tagOk { r with status := .ok, rd := true })

/-- RESP_TIMEOUT (R308): no response within PD 0x4101.01, or PD 0x4121.01 through a gateway, of the last send. -/
def execRespTimeout (t conn : Nat) (cseq : BitVec 32) (s : State) : Res :=
  let s := s.arrive t
  let e := s.sendEnt conn
  match e.outst.find? fun o => o.cseq == cseq with
  | none => .next s
  | some o =>
    let limit := if s.inGroup e.fdest then s.pdNum 0x4101 1 else s.pdNum 0x4121 1
    if s.timer < o.sentAt + limit * us ∨ (s.queued conn).any (fun m => m.cseq == some cseq) then .next s
    else .next (s.resend conn o)

/-- A packet as it crosses: a request on VL3, a response on VL4 (R323). -/
def GwMsg.crossing (x : GwMsg) : Segment := { x.seg with vl := if x.seg.vl = 4 then 4 else 3 }

/-- GATEWAY_RESEND_TIMEOUT (R325): the gateway resends a converted message whose packets have left, and at the limit answers its sender REPLAY. Of messages of
several senders with the same connection and sequence it is the one kept longest. -/
def execGatewayResendTimeout (t conn : Nat) (cseq : BitVec 32) (s : State) : Res :=
  let s := s.arrive t
  let waits (x : GwMsg) : Bool := x.packed || s.rmo.dgrams.any fun d => d.pkts.contains x.crossing
  let due (x : GwMsg) : Bool :=
    x.seg.vl != 4 && x.seg.conn == conn && x.seg.cseq == cseq && !waits x && decide (x.sentAt + s.pdNum 0x4121 0 * us ≤ s.timer)
  match s.rmo.gw.find? due with
  | none => .next s
  | some g =>
    let same (x : GwMsg) : Bool := x.seg.vl != 4 && x.seg.osrc == g.seg.osrc && x.seg.conn == conn && x.seg.cseq == cseq
    if s.pdNum 0x4101 2 ≤ g.resends then
      let s := { s with rmo := { s.rmo with gw := s.rmo.gw.filter fun x => !same x } }
      .next ((s.msgEvent 6 conn g.seg.osrc cseq none g.seg.job 0x31).respond g.seg .replay none false [])
    else
      let f (x : GwMsg) : GwMsg := { x with packed := true, since := s.timer, resends := x.resends + 1 }
      .next { s with rmo := { s.rmo with gw := mapIf (fun x => same x && due x) f s.rmo.gw } }

end Sys2Proof.Machine
end

