-- ==== Sys2Proof/Machine/Queues.lean ====
section
/-! DEFINITION. Egress queues, the shaper and port scheduling, delay samples and DMA channels (R331 to R347), with the
meanings of their commands. -/

namespace Sys2Proof.Machine

/-! ### The queue registers (R333, R342) -/

/-- EGQ_CFG as a queue's configuration, over what the queue holds already (R342). -/
def Queue.configure (q : Queue) (v : Nat) : Queue :=
  { q with en := bitAt v 0, closing := false, opr := bitAt v 1, unshaped := bitAt v 2, sample := bitAt v 3, comp := bitsOf v 4 4,
           ports := BitVec.ofNat 8 (bitsOf v 8 8), rate := bitsOf v 16 21, burst := bitsOf v 40 24 }

/-- A queue's configuration as EGQ_CFG. -/
def Queue.cfgWord (q : Queue) : BitVec 64 :=
  BitVec.ofNat 64 (flagAt q.en 0 + flagAt q.opr 1 + flagAt q.unshaped 2 + flagAt q.sample 3 + fieldAt q.comp 4 4
    + fieldAt q.ports.toNat 8 8 + fieldAt q.rate 21 16 + fieldAt q.burst 24 40)

/-- Why a write that sets EN is refused (R333), if it is. -/
def State.egqRefusal (s : State) (q : Nat) (x : Queue) : Option Status :=
  let e := s.sendEnt q
  let others := ((s.compQueues x.comp).filter fun y => y.1 != q).foldl (fun n y => n + y.2.rate) 0
  if !e.valid ∨ e.job ≠ s.queueJob x ∨ (!x.opr ∧ !s.compExists x.comp) then some .unsupported
  else if x.unshaped ∧ !x.opr then some .accessDenied
  else if (x.rate = 0 ∧ !x.unshaped) ∨ x.ports = 0 ∨ 1600000 < x.rate then some .unsupported
  else if !x.opr ∧ s.linkShare x.comp < others + x.rate then some .accessDenied
  else none

/-- EGQ_CMD with OP = WRITE (R333, R335). -/
def State.egqWrite (s : State) (q : Nat) : State :=
  let old := (s.queue q).settle s.timer
  let x := old.configure s.egq.cfg.toNat
  let held := old.waiting != [] || (s.sendEnt q).outst != []
  let answer (st : Status) (s : State) : State := { s with egq := { s.egq with cmdQ := q, cmdStat := st } }
  match (if x.en then s.egqRefusal q x else none) with
  | some st => answer st s
  | none =>
    if held ∧ (x.comp ≠ old.comp ∨ x.opr ≠ old.opr) then answer .busyConflict s
    else answer .ok ((s.setQueue q { x with tokens := if x.en ∧ !old.en then min 0 x.tokens else x.tokens }).note q)

/-- EGQ_WRITE (R333). -/
def execEgqWrite (t q : Nat) (s : State) : Res :=
  let s := s.arrive t
  .next (if s.ready then s.egqWrite (q % 8192) else s)

/-- Whether a port carries datagrams now: UP, in gateway mode (R285). -/
def State.gwUp (s : State) (p : Nat) : Bool := (s.port p).en && (s.port p).mode == 1 && (s.port p).st == .up && !(s.port p).loop

/-- WAIT of R341, bits 0 to 3. -/
def State.queueWait (s : State) (q : Nat) (x : Queue) : Nat :=
  match x.waiting.head? with
  | none => 1
  | some m =>
    let go := (portList (s.headPorts q x)).any fun p =>
      if m.isDatagram then s.gwUp p else (s.port p).carries m.vl && decide (0 < s.credits p m.vl)
    flagAt (!s.windowOpen q m) 1 + flagAt (!x.paid m) 2 + flagAt (!go) 3

/-- TOKENS in whole bytes, rounded toward −∞, as 32 bits (R341, R342). -/
def Queue.tokenBytes (x : Queue) : Nat := ((x.tokens / 1024) % 2 ^ 32).toNat

/-- EGQ_CMD with OP = READ (R342). -/
def State.egqRead (s : State) (q : Nat) : State :=
  let x := (s.queue q).settle s.timer
  let stat := BitVec.ofNat 64 (fieldAt (min 1024 x.waiting.length) 11 0 + fieldAt x.tokenBytes 32 16 + fieldAt (s.queueWait q x) 4 48)
  { s with egq := { s.egq with cmdQ := q, cmdStat := .ok, cfg := x.cfgWord, stat } }

/-- EGQ_READ (R342). -/
def execEgqRead (t q : Nat) (s : State) : Res :=
  let s := s.arrive t
  .next (if s.ready then s.egqRead (q % 8192) else s)

/-! ### Starting a packet (R334 to R340) -/

/-- Whether the node sends segments now: READY, its Security Core up (R378), and not in the final shedding stage (R456). -/
def State.sends (s : State) : Bool := s.ready && s.sec.up && decide (s.pwr.stage < 7)

/-- Whether a queue is eligible on a port for a VL (R338), and the port is the one that its head's packet takes (R275); a datagram takes any port in gateway
mode. -/
def State.eligible (s : State) (port vl q : Nat) (x : Queue) : Bool :=
  match x.waiting.head? with
  | none => false
  | some m => m.vl == vl && x.paid m && s.mayStart port q x m
      && (if m.isDatagram then s.gwUp port else s.bestPort vl (portList (s.headPorts q x)) == some port)

/-- A message at the head of an enabled queue that no port can carry ends with UNSUPPORTED (R340); one that has begun is outstanding no more. -/
def State.dropHead (s : State) (q : Nat) : State :=
  match (s.queue q).waiting.head? with
  | none => s
  | some m =>
    if !(s.queue q).sends m || s.headPorts q (s.queue q) != 0 then s
    else
      let s := s.count 0x4212 0
      let begun := m.cseq.bind fun c => (s.sendEnt q).outst.find? fun o => o.cseq == c
      let s := match begun with
        | some o => s.closeMsg q o (s.sendEnt q)
        | none => (s.setQueue q { (s.queue q).settle s.timer with waiting := (s.queue q).waiting.tail, elig := [] }).refill
      s.ended q m .unsupported []

/-- Messages at the heads of enabled queues that no port can carry (R340). -/
def State.dropUnsendable (s : State) : State := s.egq.qs.foldl (fun s e => s.dropHead e.1) s

/-- The key of a queue's head on a port (R202, R338): R is the moment at which the last of its conditions came to hold, which is that of its
tokens where they reached 0 last. -/
def State.queueKey (s : State) (port : Nat) (x : Queue) : Nat :=
  let due := (x.waiting.head?).elim s.nextStep (Msg.due s)
  let free := x.unshaped || (x.waiting.head?).any (·.contract)
  match x.elig.find? fun e => e.1 == port with
  | none => s.rankKey s.phase due s.period
  | some (_, r, at_) =>
    if free || decide (x.paidAt ≤ at_) then s.rankKey r due s.period
    else s.rankFrom (s.tickOf s.phase - (s.timer - x.paidAt) / 16) due s.period

/-- The eligible queue of the smallest key, ties to the lowest number (R338). -/
def State.nextQueue (s : State) (port vl : Nat) : Option (Nat × Queue) :=
  (s.egq.qs.filter fun e => s.eligible port vl e.1 e.2).foldl (fun (b : Option (Nat × Queue)) e =>
    match b with
    | none => some e
    | some a => if keyLe (s.queueKey port a.2) (s.queueKey port e.2) then some a else some e) none

/-- The first segment of a message enters it among the outstanding of its connection (R306, R307, R391), and a connection
whose extended sequence reaches 2^45 is reported (R393). -/
def State.openMsg (s : State) (q : Nat) (m : Msg) : Msg × State :=
  let e := s.sendEnt q
  match m.cseq with
  | some c =>
    let now (o : Outst) : Outst := { o with msg := m, sentAt := s.timer }
    (m, s.setSend q { e with outst := mapIf (fun o => o.cseq == c) now e.outst })
  | none =>
    let ext := e.ext
    let m := { m with cseq := some e.next, kgen := (s.jobGen e.job).1 }
    let o : Outst := { cseq := e.next, msg := m, bytes := m.count, sentAt := s.timer }
    let s := s.setSend q { e with next := e.next + 1, high := if e.next = 0xFFFFFFFF then e.high + 1 else e.high,
                                  outst := e.outst ++ [o], obytes := e.obytes + m.count, rekey := e.rekey || ext == 2 ^ 45 }
    let s := if ext = 2 ^ 45 then
        let comp := if (s.queue q).opr then 0xFFFFFFFF else (s.queue q).comp
        s.event { cls := 8, code := 6, subj := comp, job := e.job, detail := leBytes 2 q }
      else s
    (m, s)

/-- The next segment of a message (R294, R295). A local source is read as its bytes leave, and a resend repeats what left (R306). -/
def State.cutSegment (s : State) (q : Nat) (m : Msg) : Segment :=
  let e := s.sendEnt q
  let slen := min 7616 (m.mlen - m.off)
  let sent := (m.data.drop m.off).take slen
  let data := match m.npa with
    | some a => if m.off + slen ≤ m.data.length then sent else s.load (a + m.off) slen
    | none => sent
  { vl := m.vl, opc := m.opc, flag := m.flag, ce := false, dom := bitAt (s.pdNum 0x7130 0) 0, conn := q, job := e.job,
    osrc := s.nodeId, fdest := e.fdest, rcid := e.rcid, kgen := m.kgen, cseq := m.cseq.getD 0, mlen := m.mlen, off := m.off,
    win := m.win, wgen := m.wgen, epoch := m.epoch, slen, mtag := m.mtag, addr := m.addr, data }

/-- A message after a segment has left: the bytes of a local source are kept for a resend (R306). -/
def Msg.after (m : Msg) (g : Segment) : Msg :=
  { m with off := m.off + g.slen, data := if m.npa.isSome ∧ m.data.length = m.off then m.data ++ g.data else m.data }

/-- The high part of the extended sequence of a message that has been numbered (R392). -/
def SendEnt.highOf (e : SendEnt) (c : BitVec 32) : Nat := (e.high * 2 ^ 32 + e.next.toNat - (e.next - c).toNat) / 2 ^ 32 % 2 ^ 14

/-- A bucket is charged for a packet (R335). -/
def Queue.charge (x : Queue) (bytes : Nat) : Queue := { x with tokens := max (-(2 ^ 41 : Int)) (x.tokens - 1024 * (bytes : Int)) }

/-- Start the next packet of a queue on a port (R331, R334, R338): the segment is cut and handed over, the bucket charged, and
a message whose last segment has left leaves the queue. -/
def State.startPacket (s : State) (port vl q : Nat) (m : Msg) : State :=
  let (m, s) := if m.off = 0 then s.openMsg q m else (m, s)
  let g := s.cutSegment q m
  let e := s.sendEnt q
  let m' := m.after g
  let s := s.setSend q { e with outst := mapIf (fun o => some o.cseq == m.cseq) (fun o => { o with msg := { m' with off := 0 } }) e.outst }
  let x := s.queue q
  let wire := 256 * packetFlits g.slen
  let x := x.charge (wire + s.pdNum 0x4201 port)
  let waiting := if m'.mlen ≤ m'.off then x.waiting.tail else m' :: x.waiting.tail
  let s := ((s.setQueue q { x with waiting, elig := [] }).note q).refill
  let s := if x.opr then s else s.countC x.comp 0x4211 x.comp wire
  let dest := (s.hop g.fdest).getD g.fdest
  (s.emit (.packet port vl q g)).sendPacket port vl (packetOf vl s.nodeId dest (segBody g (e.highOf g.cseq) 0))

/-- The next packet that waits for a port without a queue and takes this one (R274, R275). -/
def State.nextPkt (s : State) (port vl : Nat) : Option LinkPkt :=
  s.lnk.pkts.find? fun k => k.vl == vl && s.bestPort vl (portList (s.routeMask k.seg.fdest)) == some port

/-- Such a packet leaves. -/
def State.startPkt (s : State) (port : Nat) (k : LinkPkt) : State :=
  let s := { s with lnk := { s.lnk with pkts := s.lnk.pkts.erase k } }
  let dest := (s.hop k.seg.fdest).getD k.seg.fdest
  s.sendPacket port k.vl (packetOf k.vl s.nodeId dest (if k.raw then rawBody k.seg else segBody k.seg k.high k.ord))

/-- The management logic's next message leaves on VL6 by the port that it takes (R274 to R276). -/
def State.startMgmt (s : State) (port : Nat) : State :=
  match s.lnk.mgmtOut.find? fun m => s.bestPort 6 (portList (s.routeMask m.1)) == some port with
  | none => s
  | some m => (s.mgmtLeaves (s.lnk.mgmtOut.erase m)).sendPacket port 6 (packetOf 6 s.nodeId ((s.hop m.1).getD m.1) m.2)

/-! ### Datagrams of a gateway (R286, R324, R331) -/

/-- The body of a packet in a datagram (R286): a management message, or a segment as it came. -/
def gwBody (g : Segment) : List Byte := if g.vl = 6 then g.data else rawBody g

/-- Bytes of a packet in a datagram (R286). -/
def gwBytes (g : Segment) : Nat := 4 + ((if g.vl = 6 then g.slen else 64 + (g.slen + 15) / 16 * 16) + 3) / 4 * 4

/-- Bytes of the Ethernet frame of a datagram, over IPv4 without a tag: 14 B of Ethernet header, 20 of IPv4, 8 of UDP, the gateway header
of 16 B, the packets, and 4 B of FCS (R285, R286, R334; log entry 160). -/
def gwFrame (pkts : List Segment) : Nat := 62 + (pkts.map gwBytes).sum

/-- A datagram enters the egress queue of its group (R331). -/
def State.queueDatagram (s : State) (group vl : Nat) (pkts : List Segment) : State :=
  let id := s.rmo.dgrams.foldl (fun n d => max n d.id) 0 + 1
  let s := { s with rmo := { s.rmo with dgrams := s.rmo.dgrams ++ [GwDgram.mk id group vl pkts] } }
  s.enqueue (s.pdNum 0x4202 group) { mkWrite vl 0 0 0 0 0 [] false (.datagram id) false s.nextStep with opc := 0, mlen := gwFrame pkts }

/-- A datagram leaves by a port (R286, R324, R334): its queue is charged for its frame. -/
def State.startDatagram (s : State) (port q : Nat) (d : GwDgram) : State :=
  let far := bitsOf (s.pdNum 0x4120 d.group) 16 14
  let seq := lookD s.rmo.gseq far 0
  let x := (s.queue q).charge (gwFrame d.pkts + s.pdNum 0x4201 port)
  let s := ((s.setQueue q { x with waiting := x.waiting.tail, elig := [] }).note q).refill
  let gw := mapIf (fun y => !y.packed && d.pkts.contains y.crossing) (fun y => { y with sentAt := s.timer }) s.rmo.gw
  let s := { s with rmo := { s.rmo with gw, gseq := put s.rmo.gseq far (seq + 1), dgrams := s.rmo.dgrams.filter fun y => y.id != d.id } }
  let s := if x.opr then s else s.countC x.comp 0x4211 x.comp (gwFrame d.pkts)
  let body := (d.pkts.map fun g => leBytes 4 (gwBody g).length ++ padMul 4 (gwBody g)).flatten
  s.emit (.datagram d.group seq d.pkts (s.gwVia port (gwHead d.vl s.nodeId far d.pkts.length seq ++ body)))

/-- The next datagram of a VL leaves by a port in gateway mode (R338). A packet on a VL that does not cross, which a queue offers to the port, is not
sent and is counted (R286). -/
def State.startGateway (s : State) (port vl : Nat) : State :=
  if vl ≠ 3 ∧ vl ≠ 4 ∧ vl ≠ 6 then
    let offers (x : Queue) : Bool := x.en && bitAt x.ports.toNat port && (x.waiting.head?).any fun m => m.vl == vl
    if s.egq.qs.any fun e => offers e.2 then s.count 0x4018 port else s
  else
    let s := s.noteAll
    match s.nextQueue port vl with
    | none => s
    | some e =>
      match (e.2.waiting.head?).bind fun m => s.rmo.dgrams.find? fun d => m.prod == .datagram d.id with
      | none => s
      | some d => s.startDatagram port e.1 d

/-- PACKET_START (R338, R340): the port's previous packet of the VL has ended, and it holds a credit; a response, or a packet that a gateway passes
on, or the packet of the first queue starts. -/
def execPacketStart (t port vl : Nat) (s : State) : Res :=
  let s := s.arrive t
  let x := s.port port
  if 8 ≤ port then .next s
  else if x.mode = 1 then .next (if s.ready && s.gwUp port then s.startGateway port vl else s)
  else if !x.carries vl || s.credits port vl == 0 || x.tx.any (fun f => f.vl == vl) then .next s
  else if vl = 6 then .next (if s.ready then s.startMgmt port else s)
  else if !s.sends then .next s
  else
    match s.nextPkt port vl with
    | some k => .next (s.startPkt port k)
    | none =>
      let s := s.dropUnsendable.noteAll
      match s.nextQueue port vl with
      | none => .next s
      | some e =>
        match e.2.waiting.head? with
        | none => .next s
        | some m => .next (s.startPacket port vl e.1 m)

/-! ### Samples (R341) -/

/-- A sample record of a queue. -/
def State.sampleRecord (s : State) (q : Nat) (x : Queue) : List Byte :=
  let oldest := x.waiting.foldl (fun n m => max n ((s.timer - m.entered) / 4)) 0
  leBytes 8 s.phase.toNat ++ leBytes 2 q ++ leBytes 1 (x.comp + (if x.opr then 16 else 0))
    ++ leBytes 1 (s.queueWait q x + flagAt x.ce 4) ++ leBytes 2 (min 1024 x.waiting.length)
    ++ leBytes 2 (s.sendEnt q).outst.length ++ leBytes 8 ((x.waiting.take 1024).foldl (fun n m => n + (m.mlen - m.off)) 0)
    ++ leBytes 4 (min 0xFFFFFFFF oldest) ++ leBytes 4 x.tokenBytes

/-- SAMPLE_ROUND (R341, R485): a record for each queue with SAMPLE = 1, ascending; a record that the full ring cannot take is
counted as lost, and a round that starts late, behind a running one, as delayed. -/
def execSampleRound (t : Nat) (s : State) : Res :=
  let s := s.arrive t
  if !s.ready ∨ s.timer < s.egq.sampAt + 16 * s.pdNum 0x4220 3 then .next s
  else
    let s := if s.timer < s.egq.sampEnd then s.count 0x4220 6 else s
    let qs := s.egq.qs.filter fun e => e.2.sample
    let s := qs.foldl (fun s e =>
      let x := e.2.settle s.timer
      let (ok, s) := s.ringPut (s.pdNum 0x4220 1) (s.pdNum 0x4220 2) (s.sampleRecord e.1 x)
      let s := if ok then s.emit (.sample e.1) else s.count 0x4220 5
      s.setQueue e.1 { x with ce := false }) s
    let egq := { s.egq with sampAt := s.timer, sampEnd := max s.timer s.egq.sampEnd + 32 * qs.length }
    .next (({ s with egq }).emit (.msix 0 3))

/-! ### DMA channels (R343 to R347) -/

/-- Whether software reaches a channel through a function (R343): the PF the Operator's, a VF its composition's. -/
def State.dmaOwns (s : State) (fn ch : Nat) : Bool :=
  let o := s.pdNum 0x4301 ch
  decide (ch < 128) && (if fn = 0 then o == 0x10 else s.vfComp fn == some o)

/-- Whether a local range is one that a transfer may name at all: HBM, or the SRAM of one tile (R344). -/
def localRange (a len : Nat) : Bool := (isHbm a && isHbm (a + len - 1)) || (isSram a && isSram (a + len - 1))

/-- Whether a local range belongs to the owner of a channel (R344, R346): the composition's own pseudo-channels and tiles; for
the Operator, what no composition holds, is not lent (R472) and is not being zeroised (log entry 187). -/
def State.dmaRange (s : State) (owner a len : Nat) : Bool :=
  if owner < 16 then
    if isSram a then (s.slicesOf owner).contains ((a - sramBase) / 0x800000) else s.ownsRange owner a len
  else if owner = 0x10 then
    if isSram a then true else pcRange a len fun g => !s.lentPc g && !(s.cmp.busySlices.contains (g / 32)) && (s.compAt (g * 2 ^ 30)).isNone
  else true

/-- Why a start is refused (R344), if it is. -/
def State.dmaRefusal (s : State) (ch : Nat) (d : Dma) : Option Status :=
  let owner := s.pdNum 0x4301 ch
  let clash := !d.skind && !d.dkind && decide (d.srcA < d.dstA + d.count) && decide (d.dstA < d.srcA + d.count)
  let beyond := (!d.skind && !localRange d.srcA d.count) || (!d.dkind && !localRange d.dstA d.count)
  let foreign := (!d.skind && !s.dmaRange owner d.srcA d.count) || (!d.dkind && !s.dmaRange owner d.dstA d.count)
  let q := s.queue d.queue
  let badQueue := (d.skind || d.dkind) && !(q.en && (if owner = 0x10 then q.opr else !q.opr && q.comp == owner))
  if (d.skind && d.dkind) || d.tch == ch || (decide (0 < d.count) && (clash || beyond)) then some .unsupported
  else if (decide (0 < d.count) && foreign) || badQueue then some .accessDenied
  else none

/-- The messages of a transfer from a byte on: 1 MiB each, the remainder last (R343). -/
def State.dmaIssue (s : State) (ch : Nat) : State :=
  let d := s.dma ch
  if !d.skind && !d.dkind then s
  else
    let left := d.count - d.prog
    let n := (left + 1048575) / 1048576
    let s := (List.range n).foldl (fun s i =>
      let off := d.prog + 1048576 * i
      let len := min 1048576 (d.count - off)
      let flag := d.flagLast && i + 1 == n
      let m := if d.dkind then
          { mkWrite 1 d.win d.wgen s.rmo.epoch 0 (d.dstA + off) [] flag (.dma ch) false s.nextStep with
            npa := some (d.srcA + off), mlen := len }
        else { mkRead d.win d.wgen s.rmo.epoch (d.srcA + off) len (.dma ch) s.nextStep with flag }
      s.enqueue d.queue m) s
    s.setDma ch { s.dma ch with outst := n, issued := left }

/-- The interrupt of a channel (R485). -/
def State.dmaIrq (s : State) (ch : Nat) : State :=
  let owner := s.pdNum 0x4301 ch
  if !(s.dma ch).irq then s
  else if owner = 0x10 then s.emit (.msix 0 (4 + ch % 60))
  else match s.comp? owner with
    | some k => s.emit (.msix k.desc.vf (2 + ch % 14))
    | none => s

/-- Count an end of a transfer for its owner (R349). -/
def State.dmaCount (s : State) (ch sub : Nat) : State :=
  let owner := s.pdNum 0x4301 ch
  if owner < 16 then s.countC owner 0x4310 sub 1 else s.count 0x4310 sub

/-- Start a channel, whose checks decide (R344, R345); with COUNT = 0 it is DONE at once. Whether it is DONE. -/
def State.dmaStart (s : State) (ch : Nat) : Bool × State :=
  let d := s.dma ch
  match s.dmaRefusal ch d with
  | some st => (false, s.setDma ch { d with st := .idle, status := st, refused := true })
  | none =>
    let d := { d with status := .ok, prog := 0, acked := [], bad := none, outst := 0, issued := 0 }
    if d.count = 0 then
      (true, ((s.setDma ch { d with st := .done, done := true }).dmaCount ch 0).dmaIrq ch)
    else (false, (s.setDma ch { d with st := .running }).dmaIssue ch)

/-- A trigger meets a channel: an ARMED one starts, any other sets TRIGLOST (R345). -/
def State.dmaFire (s : State) (ch : Nat) : Bool × State :=
  let d := s.dma ch
  if d.st = .armed then s.dmaStart ch else (false, s.setDma ch { d with triglost := true })

/-- A channel has entered DONE: the channels that wait for it are triggered, and those that are DONE at once trigger in turn
(R345, DMA_CHAIN_TRIGGER). -/
def State.dmaChain (s : State) : Nat → List Nat → State
  | 0, _ => s
  | _, [] => s
  | n + 1, ch :: rest =>
    let next := (s.egq.dma.filter fun d => d.2.trig == 2 && d.2.tch == ch).map (·.1)
    let (s, done) := next.foldl (fun (a : State × List Nat) c =>
      let (d, s) := a.1.dmaFire c
      (s, if d then a.2 ++ [c] else a.2)) (s, [])
    s.dmaChain n (rest ++ done)

/-- Start a channel and follow the chain. -/
def State.dmaGo (s : State) (ch : Nat) : State :=
  let (done, s) := s.dmaStart ch
  if done then s.dmaChain 256 [ch] else s

/-- The RW fields of DMA_CTL (R347). -/
def Dma.setCtl (d : Dma) (v : Nat) : Dma :=
  { d with trig := bitsOf v 4 2, skind := bitAt v 6, dkind := bitAt v 7, tch := bitsOf v 8 7, flagLast := bitAt v 15,
           queue := bitsOf v 16 13, irq := bitAt v 29, win := bitsOf v 32 14, wgen := BitVec.ofNat 16 (bitsOf v 48 16) }

/-- The RW fields of DMA_CTL as a word. -/
def Dma.ctlWord (d : Dma) : BitVec 64 :=
  BitVec.ofNat 64 (fieldAt d.trig 2 4 + flagAt d.skind 6 + flagAt d.dkind 7 + fieldAt d.tch 7 8 + flagAt d.flagLast 15
    + fieldAt d.queue 13 16 + flagAt d.irq 29 + fieldAt d.win 14 32 + fieldAt d.wgen.toNat 16 48)

/-- The registers of a channel cannot be written while it is ARMED, RUNNING or ABORTING (R347). -/
def Dma.frozen (d : Dma) : Bool := d.st == .armed || d.st == .running || d.st == .aborting

/-- Whether the Phase match of a channel is due (R345). -/
def State.dmaDue (s : State) (d : Dma) : Bool := !earlier s.phase d.tphase

/-- ARM (R345): a match already due fires at once. -/
def State.dmaArm (s : State) (ch : Nat) : State :=
  let d := s.dma ch
  if d.st ≠ .idle ∧ d.st ≠ .done then s
  else
    let s := s.setDma ch { d with st := .armed }
    if d.trig = 1 ∧ s.dmaDue d then s.dmaGo ch else s

/-- ABORT (R346, R347): a running transfer ends after its outstanding messages; messages that have not begun are taken back. -/
def State.dmaAbort (s : State) (ch : Nat) : State :=
  let d := s.dma ch
  if d.st = .armed ∨ d.st = .halted then s.setDma ch { d with st := .idle }
  else if d.st = .running then
    let mine (w : Msg) : Bool := w.prod == .dma ch && w.cseq.isNone
    let cut := ((s.queued d.queue).filter mine).length
    (s.unqueue d.queue mine).setDma ch { d with outst := d.outst - cut, st := if d.outst ≤ cut then .idle else .aborting }
  else s

/-- RESUME (R346): a HALTED transfer goes on at DMA_PROG with the registers as they stand. -/
def State.dmaResume (s : State) (ch : Nat) : State :=
  let d := s.dma ch
  if d.st ≠ .halted then s
  else (s.setDma ch { d with st := .running, status := .ok, bad := none, acked := [], outst := 0 }).dmaIssue ch

/-- A write of DMA_CTL: the fields, unless frozen, then the action bits (R345, R347; log entry 32). -/
def State.dmaCtl (s : State) (ch v : Nat) : State :=
  let d := s.dma ch
  let s := if d.frozen then s else s.setDma ch (d.setCtl v)
  if bitAt v 2 then s.dmaAbort ch
  else if bitAt v 3 then s.dmaResume ch
  else if bitAt v 0 then (if d.st = .idle ∨ d.st = .done ∨ d.st = .armed then s.dmaGo ch else s)
  else if bitAt v 1 then s.dmaArm ch
  else s

/-- A write of DMA_CTL through a function that owns the channel (R343). -/
def State.dmaCommand (s : State) (ch fn v : Nat) : State := if s.ready && s.dmaOwns fn ch then s.dmaCtl ch v else s

/-- DMA_START (R345): DMA_CTL is written with START. -/
def execDmaStart (t ch : Nat) (fn : Fn) (v : BitVec 64) (s : State) : Res := .next ((s.arrive t).dmaCommand ch fn (v ||| 1).toNat)

/-- DMA_ARM (R345): DMA_CTL is written with ARM. -/
def execDmaArm (t ch : Nat) (fn : Fn) (v : BitVec 64) (s : State) : Res := .next ((s.arrive t).dmaCommand ch fn (v ||| 2).toNat)

/-- DMA_ABORT (R346): DMA_CTL is written with ABORT over the fields it holds. -/
def execDmaAbort (t ch : Nat) (fn : Fn) (s : State) : Res :=
  let s := s.arrive t
  .next (s.dmaCommand ch fn ((s.dma ch).ctlWord ||| 4).toNat)

/-- DMA_RESUME (R346): DMA_CTL is written with RESUME. -/
def execDmaResume (t ch : Nat) (fn : Fn) (v : BitVec 64) (s : State) : Res := .next ((s.arrive t).dmaCommand ch fn (v ||| 8).toNat)

/-- DMA_PHASE_TRIGGER (R345): the Phase has reached DMA_TPHASE. -/
def execDmaPhaseTrigger (t ch : Nat) (s : State) : Res :=
  let s := s.arrive t
  let d := s.dma ch
  if !s.ready ∨ d.trig ≠ 1 ∨ !s.dmaDue d ∨ s.phs.held then .next s
  else
    let (done, s) := s.dmaFire ch
    .next (if done then s.dmaChain 256 [ch] else s)

/-- Bytes from the start of a transfer below which every byte has been acknowledged (R346). -/
def ackedTo (base : Nat) : Nat → List (Nat × Nat) → Nat
  | 0, _ => base
  | n + 1, l =>
    match l.find? fun a => decide (a.1 ≤ base) && decide (base < a.1 + a.2) with
    | some a => ackedTo (a.1 + a.2) n l
    | none => base

/-- DMA_PROG of a channel. -/
def Dma.progress (d : Dma) : Nat := ackedTo d.prog d.acked.length d.acked

/-- The bytes of a local transfer land (R343; log entry 33). -/
def State.dmaCopy (s : State) (d : Dma) (upto : Nat) : State :=
  if d.skind || d.dkind then s else s.store (d.dstA + d.prog) (s.load (d.srcA + d.prog) (upto - d.prog))

/-- DMA_TRANSFER_DONE (R343, R345): the last byte has been written and acknowledged, and the channel enters DONE; channels that
wait for it are triggered. -/
def execDmaTransferDone (t ch : Nat) (s : State) : Res :=
  let s := s.arrive t
  let d := s.dma ch
  if d.st ≠ .running ∨ d.outst ≠ 0 ∨ d.bad.isSome then .next s
  else
    let s := s.dmaCopy d d.count
    let s := s.setDma ch { d with st := .done, done := true, prog := d.count }
    .next (((s.dmaCount ch 0).dmaIrq ch).dmaChain 256 [ch])

/-- A channel enters HALTED and latches its error (R346). -/
def State.dmaHaltAt (s : State) (ch addr : Nat) (wr : Bool) (st : Status) (prog : Nat) : State :=
  let d := s.dma ch
  let rem_ := if wr then d.dkind else d.skind
  let s := s.setDma ch { d with st := .halted, halt := true, dir := wr, status := st, prog, errAddr := addr, errRem := rem_, bad := none }
  (s.dmaCount ch 1).dmaIrq ch

/-- DMA_HALT (R346): after a bus error, once every outstanding message has ended. A remote failure is the one the channel has
noted; a local one is what the command says. -/
def execDmaHalt (t ch : Nat) (wr : Bool) (st : Status) (addr prog : Nat) (s : State) : Res :=
  let s := s.arrive t
  let d := s.dma ch
  if d.st ≠ .running ∨ d.outst ≠ 0 then .next s
  else
    match d.bad with
    | some (a, w, x) => .next (s.dmaHaltAt ch a w x d.progress)
    | none =>
      if (if wr then d.dkind else d.skind) || st == .ok then .next s
      else
        let upto := if d.skind || d.dkind then d.progress else max d.prog (min prog d.count)
        .next ((s.dmaCopy d upto).dmaHaltAt ch addr wr st upto)

/-- A write of 1 to DMA_STAT.DONE (R347). -/
def State.dmaClearDone (s : State) (ch : Nat) : State :=
  let d := s.dma ch
  s.setDma ch { d with done := false, st := if d.st = .done then .idle else d.st }

/-- DMA_DONE_CLEAR (R347). -/
def execDmaDoneClear (t ch : Nat) (fn : Fn) (s : State) : Res :=
  let s := s.arrive t
  .next (if s.ready && s.dmaOwns fn ch then s.dmaClearDone ch else s)

/-! ### Stopping a composition's traffic (R348) -/

/-- The queues of a composition are disabled, and their waiting messages end with a status to their producers. Blocks and flag words of
requests that have ended still leave: R106 and R370 have every flag written. DESIGN CHOICE (log entry 166): R348 names no exception. -/
def State.stopQueues (s : State) (c : Nat) (st : Status) : State :=
  let keeps (m : Msg) : Bool := m.cseq.isSome || (match m.prod with | .result _ => true | _ => false)
  (s.egq.qs.filter fun e => !e.2.opr && e.2.comp == c).foldl (fun (s : State) e =>
    let x := (s.queue e.1).settle s.timer
    let out := (s.queued e.1).filter fun m => !keeps m
    let s := { s with egq := { s.egq with held := s.egq.held.filter fun h => h.1 != e.1 || keeps h.2 } }
    let s := ((s.setQueue e.1 { x with en := false, closing := true, waiting := x.waiting.filter keeps, elig := [] }).note e.1).refill
    out.foldl (fun s m => s.ended e.1 m st []) s) s

/-- The channels of a composition halt after their outstanding messages end, with a status. -/
def State.stopDma (s : State) (c : Nat) (st : Status) : State :=
  (s.egq.dma.filter fun d => s.pdNum 0x4301 d.1 == c).foldl (fun s d =>
    let x := s.dma d.1
    if x.st = .armed then s.setDma d.1 { x with st := .idle }
    else if x.st = .running then
      let x := { x with bad := some (x.bad.getD (if x.dkind then x.dstA + x.progress else x.srcA + x.progress, x.dkind, st)) }
      let s := s.setDma d.1 x
      if x.outst = 0 then
        match x.bad with
        | some (a, w, y) => s.dmaHaltAt d.1 a w y x.progress
        | none => s
      else s
    else s) s

end Sys2Proof.Machine
end

