-- ==== Sys2Proof/Machine/Links.lean ====
section
/-! DEFINITION. The link layer (10): data and control flits, retry, training and degradation, fallow, gateway datagrams and fault
injection. The records of a control flit are delivered by the files of what they carry. -/

namespace Sys2Proof.Machine

/-! ### Groups and lanes (R266, R267) -/

/-- The lane of byte `i` of a group (R266). -/
def laneOf (w i : Nat) : Nat := i / 16 % max 1 w

/-- The place of byte `i` of a group among the bytes of its lane, which fill the lane's codewords in order (R266). -/
def lanePlace (w i : Nat) : Nat := i / (16 * max 1 w) * 16 + i % 16

/-- The codeword that carries byte `i` of a group, of 640 bytes of link-layer data each: the one of its lane, or on one lane the next of four
(R266). -/
def codeOf (w i : Nat) : Nat := if w ≤ 1 then lanePlace w i / 640 else laneOf w i

/-- What FEC found in the codewords that carry the 256 bytes of a flit (R266): the worst of them, since a flit is complete only when all are
decoded. -/
def flitFec (w slot : Nat) (codes : List Ecc) : Ecc :=
  let mine := (List.range 16).map fun u => codes.getD (codeOf w (256 * slot + 16 * u)) .clean
  if mine.contains .uncorrectable then .uncorrectable else if mine.contains .corrected then .corrected else .clean

/-! ### Data flits (R268, R269, R273) -/

/-- Whether a data flit's fields are well formed (R268, R269, R274). -/
def flitOk (f : Flit) : Bool :=
  f.ft == 1 && decide (f.vl < 7) && decide (1 ≤ f.blen) && decide (f.blen ≤ 15) && (f.eom || f.blen == 15) &&
    (if f.som then decide (1 ≤ f.plen) && decide (f.plen ≤ 32) else f.plen == 0)

/-- A retry is requested with the next control flit (R269, R271). -/
def State.askRetry (s : State) (p : Nat) : State := s.setPort p { s.port p with nak := true }

/-- What FEC found in a codeword is counted, and an uncorrectable one is noted (R269, R291). -/
def State.codeword (s : State) (p : Nat) : Ecc → State
  | .clean => s
  | .corrected => s.count 0x4010 p
  | .uncorrectable => (s.count 0x4011 p).setPort p { s.port p with uncorr := true }

/-- The codewords of a group are counted, each once, with the control flit in slot 0, which every group has (R267, R269). -/
def State.codewords (s : State) (p : Nat) (codes : List Ecc) : State := codes.foldl (fun (s : State) e => s.codeword p e) s

/-- Whether a port takes flits that arrive: it runs in Damlis mode, neither looped (R291) nor in the retrain of a move (R284). -/
def Port.hears (x : Port) : Bool := x.en && x.mode == 0 && !x.loop && !x.moving && (x.st == .up || x.st == .fallow)

/-- DATA_FLIT_RECEIVE (R266, R268, R269, R273, R276): an idle flit is discarded; a bad one is discarded with a retry request; one in sequence is
taken and its buffer freed, and a management message goes into the inbound ring. In fallow only VL6 is carried (R284). Before READY none is accepted
(R517). What changed goes back in the next control flit. -/
def execDataFlitReceive (t port : Nat) (g : FlitPlace) (crc : BitVec 32) (f : Flit) (s : State) : Res :=
  let s := s.arrive t
  let x := s.port port
  if !x.hears || decide (8 ≤ port) || !s.ready || g.slot == 0 || decide (groupSlots x.width ≤ g.slot) then .next s
  else if flitFec x.width g.slot g.codes = .uncorrectable then .next ((s.askRetry port).sendCtl port)
  else if crc ≠ flitCrc f then .next (((s.count 0x4012 port).askRetry port).sendCtl port)
  else if f.ft = 0 then .next s
  else if !flitOk f ∨ f.fseq ≠ x.expect ∨ (x.st = .fallow ∧ f.vl ≠ 6) then .next ((s.askRetry port).sendCtl port)
  else
    let rfreed := setAt x.rfreed f.vl ((x.rfreed.getD f.vl 0 + 1) % 2 ^ 16)
    let s := (s.count 0x4016 port).setPort port { x with expect := x.expect + 1, nak := false, rfreed }
    let s := if f.vl = 6 then { s with lnk := { s.lnk with mgmtIn := s.lnk.mgmtIn ++ [f.body.take (16 * f.blen)] } } else s
    .next (s.sendCtl port)

/-! ### Control flits and retry (R270, R271) -/

/-- A port leaves for RETRAIN (R281), which is counted; one in fallow retrains its lane 0. The ends measure the delay of their link again
(R280). -/
def State.goRetrain (s : State) (p : Nat) : State :=
  let s := s.count 0x4014 p
  let s := if (s.port p).st = .fallow then s.setPort p { s.port p with moving := true } else s.enterPort p .retrain
  (s.setPort p { s.port p with tries := 0 }).delayAsk p

/-- The unacknowledged flits of a port leave again, in order (R271). -/
def State.resendFlits (s : State) (p : Nat) : State := (s.port p).replay.foldl (fun (s : State) f => s.sendFlit p f) s

/-- Resend every unacknowledged flit in order (R271); the eighth replay of one flit in succession retrains the port. -/
def State.replay (s : State) (p : Nat) : State :=
  let x := s.port p
  if x.replay = [] then s
  else
    let s := s.count 0x4013 p
    let s := s.resendFlits p
    let s := s.setPort p { s.port p with replays := x.replays + 1, ackAt := s.timer }
    if 8 ≤ x.replays + 1 then ((s.setPort p { s.port p with replaylim := true, replays := 0 }).linkEvent p 6).goRetrain p else s

/-- What an ACKSEQ acknowledges leaves the replay buffer (R271). -/
def State.acked (s : State) (p : Nat) (ack : BitVec 12) : State :=
  let x := s.port p
  match x.replay with
  | [] => s
  | f :: _ =>
    let n := (ack - f.fseq + 1).toNat
    if n = 0 ∨ x.replay.length < n then s
    else s.setPort p { x with replay := x.replay.drop n, replays := 0, ackAt := s.timer }

/-- The link fields of a control flit (R270 to R273): acknowledgement, credits and flags, then a replay if asked for. After a retrain the first one
brings the ACKSEQ from which the port resends (R281). A port that has nothing unacknowledged left says so. -/
def State.control (s : State) (p : Nat) (f : CtlFlit) : State :=
  let full := (s.port p).replay != []
  let s := s.acked p f.ackseq
  let s := s.setPort p { s.port p with freed := (f.cred ++ List.replicate 8 0).take 8, peerFallow := f.fallow, peerDrained := f.drained }
  let x := s.port p
  let s := if x.resync && x.carries 6 then (s.setPort p { x with resync := false }).resendFlits p
    else if f.nak then s.replay p else s
  let s := s.drainPort p
  if full && (s.port p).replay == [] then s.sendCtl p else s

/-- REPLAY_TIMEOUT (R271): ACKSEQ has not advanced for 4 µs while flits are outstanding. -/
def execReplayTimeout (t port : Nat) (s : State) : Res :=
  let s := s.arrive t
  let x := s.port port
  .next (if (x.st == .up || x.st == .fallow) && x.replay != [] && decide (x.ackAt + 4 * us ≤ s.timer) then s.replay port else s)

/-- Answer a DELAY_REQ (R280): its time goes back in a control flit with the turnaround, which is the port's own (log entry 43). -/
def State.delayAnswer (s : State) (port time : Nat) : State :=
  let (n, s) := s.draw
  let (_, s) := s.putRec port 0 (.delayRsp time (Config.turnaround n))
  s.sendCtl port

/-- DELAY_REQ (R280). -/
def execDelayReq (t port time : Nat) (s : State) : Res :=
  let s := s.arrive t
  .next (if (s.port port).en && !(s.port port).loop && decide (port < 8) then s.delayAnswer port time else s)

/-- link_delay from a DELAY_RSP (R280): half of the round trip less the turnaround, rounded to the nearest unit. DESIGN CHOICE (log entry 178): an
exact half of a unit is rounded up. -/
def State.delayTaken (s : State) (port time turn : Nat) : State :=
  s.setPort port { s.port port with delay := (s.timer - time - turn + 1) / 2 }

/-- DELAY_RSP (R280). -/
def execDelayRsp (t port time turn : Nat) (s : State) : Res :=
  let s := s.arrive t
  .next (if (s.port port).en && !(s.port port).loop && decide (port < 8) then s.delayTaken port time turn else s)

/-! ### Port states (R281 to R283, R291) -/

/-- A port that leaves DOWN starts with fresh sequences and credits. -/
def Port.fresh (x : Port) : Port :=
  { x with lanes := 0, held := [], nextSeq := 0, replay := [], replays := 0, expect := 0, nak := false, sent := List.replicate 8 0,
           freed := List.replicate 8 0, rfreed := List.replicate 8 0, tries := 0, peerv := false,
           peerFallow := false, peerDrained := false, tx := [], ctlRecs := [], resync := false, moving := false }

/-- A port begins training (R265, R281): in the mode that PD 0x4001.pp has been given since its last training, if MODE is not locked; a
disabled port has its transmitters off. The ends measure the delay of their link (R280). -/
def State.trainPort (s : State) (p : Nat) : State :=
  let x := s.port p
  let mode := if x.lock then x.mode else x.modeNext.getD x.mode
  let y := { x with mode, modeNext := none }
  if mode = 0 ∨ mode = 1 then ((s.setPort p (if mode = x.mode then y else y.fresh)).enterPort p .training).delayAsk p
  else (s.setPort p y.fresh).enterPort p .down

/-- A write of LNK_CTL_p (R281, R291). The reserved code of MODE leaves MODE as it is. -/
def State.writeLnkCtl (s : State) (p v : Nat) : State :=
  let x := s.port p
  let mode := if x.lock || bitsOf v 1 2 == 2 then x.mode else bitsOf v 1 2
  let en := bitAt v 0
  let changed := mode != x.mode
  let s := s.setPort p { x with en, mode, fallowOk := bitAt v 3, loop := bitAt v 5, lock := x.lock || bitAt v 31 }
  let s := if (x.en && !en) || (changed && x.st != .down) then
      let s := s.enterPort p .down
      (s.setPort p (s.port p).fresh).noteAll
    else s
  let s := if en && (s.port p).st == .down && (mode == 0 || mode == 1) then s.trainPort p else s
  if bitAt v 4 && (s.port p).st == .up then s.goRetrain p else s

/-- PORT_ENABLE (R281): LNK_CTL_p is written. -/
def execPortEnable (t port : Nat) (v : BitVec 32) (s : State) : Res :=
  let s := s.arrive t
  .next (if s.ready && decide (port < 8) then s.writeLnkCtl port v.toNat else s)

/-- RETRAIN (R281): LNK_CTL_p is written with RETRAIN. -/
def execRetrain (t port : Nat) (v : BitVec 32) (s : State) : Res :=
  let s := s.arrive t
  .next (if s.ready && decide (port < 8) then s.writeLnkCtl port (v ||| 16).toNat else s)

/-- The packets of a list of flits in order, by VL; flits whose packet began before the list are left out, and how many packets
that concerns. -/
def wholePackets (fs : List Flit) : List (List Flit) × Nat :=
  let go (acc : List (List Flit) × List (List Flit) × Nat) (f : Flit) : List (List Flit) × List (List Flit) × Nat :=
    let (doneL, started, lost) := acc
    let sofar := started.find? fun p => (p.head?.map (·.vl)) == some f.vl
    let others := started.filter fun p => (p.head?.map (·.vl)) != some f.vl
    if f.som then if f.eom then (doneL ++ [[f]], others, lost) else (doneL, others ++ [[f]], lost)
    else match sofar with
      | some p => if f.eom then (doneL ++ [p ++ [f]], others, lost) else (doneL, others ++ [p ++ [f]], lost)
      | none => (doneL, started, if f.eom then lost + 1 else lost)
  let r := fs.foldl go ([], [], 0)
  (r.1, r.2.2)

/-- A port becomes FAILED (R281, R283): its unsent and unacknowledged packets go out by another port that reaches their
destination, even one that has yet to come out of a retrain, or are discarded and counted. -/
def State.failPort (s : State) (p : Nat) : State :=
  let x := s.port p
  let (pkts, lost) := wholePackets (x.replay ++ x.tx)
  let pkts := pkts ++ x.held.map (·.2)
  let s := (s.enterPort p .failed).linkEvent p 4
  let s := s.setPort p { s.port p with replay := [], tx := [], held := [] }
  let s := s.countBy 0x4013 p lost
  pkts.foldl (fun s k =>
    let dest := (k.head?.map (·.dest)).getD 0
    let vl := (k.head?.map (·.vl)).getD 0
    let others := (portList (s.routeMask dest)).filter (· != p)
    let later := others.find? fun q => (s.port q).en && (s.port q).mode == 0 && ((s.port q).st == .retrain || (s.port q).st == .fallow)
    match (s.bestPort vl others).orElse fun _ => later with
    | some q => (s.setPort q { s.port q with tx := (s.port q).tx ++ k }).drainPort q
    | none => s.count 0x4013 p) s

/-- The lanes that remain when lanes fail (R282): none where the remaining half is hit as well. -/
def Port.halves (x : Port) (failed : List Nat) : Option Nat :=
  let low := failed.any fun l => decide (l < 4)
  let high := failed.any fun l => decide (4 ≤ l)
  if x.lanes = 1 then if low then none else some 1
  else if x.lanes = 2 then if high then none else some 2
  else if low && high then none else if low then some 2 else if high then some 1 else some 0

/-- Lanes are lost for good (R282): the port runs on the healthy half, or is FAILED. Whether it still runs. -/
def State.loseLanes (s : State) (p : Nat) (failed : List Nat) : Bool × State :=
  let x := s.port p
  match x.halves failed with
  | none => (false, s.failPort p)
  | some l =>
    if l = x.lanes ∨ (failed = [] ∧ x.lanes = 3) then (true, s.setPort p { x with lanes := l })
    else (true, (s.setPort p { x with lanes := l, degraded := true }).linkEvent p 3)

/-- Exit from fallow has ended on the last port when none is in fallow or on its way (R284). -/
def State.fallowLeft (s : State) : State :=
  if s.lnk.ports.any fun p => p.2.st == .fallow || p.2.moving then s else { s with lnk := { s.lnk with fallowTo := some s.timer } }

/-- A port is UP, on the lanes that it has: the peer is known, LINK_UP is raised, and the two ends exchange ACKSEQ (R281). Flits that are not
acknowledged wait for that of the far end. -/
def State.portUp (s : State) (port peer : Nat) : State :=
  let exit := (s.port port).moving
  let s := s.enterPort port .up
  let x := s.port port
  let s := s.setPort port { x with peer := peer % 2 ^ 14, peerv := true, tries := 0, replays := 0, ackAt := s.timer, moving := false,
                                   resync := x.replay != [] }
  let s := s.linkEvent port 1
  let s := if exit then (s.linkEvent port 8).fallowLeft else s
  (s.sendCtl port).drainPort port

/-- TRAINING_COMPLETE (R281, R282, R284): training or a retrain succeeds, on the lanes that trained; a port that moves into fallow has its lane 0,
or trains all of them. -/
def execTrainingComplete (t port peer : Nat) (failedLanes : List Nat) (s : State) : Res :=
  let s := s.arrive t
  let x := s.port port
  if 8 ≤ port ∨ !s.boot.fabClk then .next s
  else if x.st = .fallow ∧ x.moving then
    if failedLanes.contains 0 then .next (((s.setPort port { x with moving := false, lanes := 0 }).trainPort port).fallowLeft)
    else .next (((s.setPort port { x with moving := false, tries := 0 }).linkEvent port 1).sendCtl port)
  else if x.st ≠ .training ∧ x.st ≠ .retrain then .next s
  else
    let (runs, s) := s.loseLanes port failedLanes
    .next (if runs then s.portUp port peer else s)

/-- RETRAIN_ATTEMPT_FAILED (R281, R284): after three failures the port goes to TRAINING. -/
def execRetrainAttemptFailed (t port : Nat) (s : State) : Res :=
  let s := s.arrive t
  let x := s.port port
  if (x.st ≠ .retrain ∧ !(x.st == .fallow && x.moving)) ∨ !s.boot.fabClk then .next s
  else if x.tries + 1 < 3 then .next (s.setPort port { x with tries := x.tries + 1 })
  else
    let lanes := if x.moving then 0 else x.lanes
    .next (((s.setPort port { x with tries := 0, moving := false, lanes }).trainPort port).fallowLeft)

/-- TRAINING_TIMEOUT (R281, R283): TRAINING has failed for 1 s. -/
def execTrainingTimeout (t port : Nat) (s : State) : Res :=
  let s := s.arrive t
  let x := s.port port
  .next (if x.st == .training && decide (x.since + 1000 * ms ≤ s.timer) then s.failPort port else s)

/-- LANE_ALIGNMENT_LOSS (R281, R282): a lane that carries data loses alignment. -/
def execLaneAlignmentLoss (t port lane : Nat) (forGood : Bool) (s : State) : Res :=
  let s := s.arrive t
  let x := s.port port
  let active := (x.lanes == 0 && decide (lane < 8)) || (x.lanes == 1 && decide (lane < 4)) || (x.lanes == 2 && decide (4 ≤ lane) && decide (lane < 8))
  if x.st ≠ .up ∨ !active then .next s
  else
    let (runs, s) := if forGood then s.loseLanes port [lane] else (true, s)
    .next (if runs then s.goRetrain port else s)

/-- FEC_LIMIT (R281, R290). -/
def execFecLimit (t port : Nat) (s : State) : Res :=
  let s := s.arrive t
  let x := s.port port
  if x.st ≠ .up then .next s
  else .next (((s.setPort port { x with uncorr := true }).linkEvent port 5).goRetrain port)

/-! ### Fallow (R284) -/

/-- Whether a port may begin to move into or out of fallow (R284): no other is on its way, and a Phase Mark was accepted within the last 20 ns. -/
def State.mayMove (s : State) : Bool :=
  !(s.lnk.ports.any fun p => p.2.moving) && s.phs.markAt.any fun m => decide (s.timer ≤ m + 80)

/-- FALLOW_ENTER (R284): in the stage-7 power state an UP port that may enter fallow does, once DRAINED reads 1 at both ends: lane 0 alone is
retrained. -/
def execFallowEnter (t port : Nat) (s : State) : Res :=
  let s := s.arrive t
  let x := s.port port
  if s.pwr.stage < 7 ∨ x.st ≠ .up ∨ x.mode ≠ 0 ∨ !x.fallowOk ∨ x.replay ≠ [] ∨ !x.peerDrained ∨ !s.mayMove then .next s
  else
    let first := !s.lnk.ports.any fun p => p.2.st == .fallow
    let s := if first then { s with lnk := { s.lnk with fallowFrom := some s.pwr.stageAt, fallowTo := none } } else s
    let s := (s.count 0x4014 port).enterPort port .fallow
    .next (((s.setPort port { s.port port with lanes := 3, moving := true, tries := 0 }).linkEvent port 7).delayAsk port)

/-- FALLOW_EXIT (R284): the power state calls for fallow no more, and every lane is retrained; exit ends when that succeeds. -/
def execFallowExit (t port : Nat) (s : State) : Res :=
  let s := s.arrive t
  let x := s.port port
  if 7 ≤ s.pwr.stage ∨ x.st ≠ .fallow ∨ !s.mayMove then .next s
  else
    let s := (s.count 0x4014 port).enterPort port .retrain
    .next ((s.setPort port { s.port port with lanes := 0, moving := true, tries := 0 }).delayAsk port)

/-! ### Gateway datagrams (R286, R324) -/

/-- A gateway datagram is dropped and counted; one dropped for its checksum, as a fragment or for its version is reported (R285, R290). -/
def State.gwDrop (s : State) (port : Nat) (tell : Bool) : State :=
  let s := s.count 0x4018 (8 + port)
  if tell then s.linkEvent port 0x0A else s

/-- Whether a frame is a UDP datagram for the gateway (R285): untagged or with one tag, of at most 9,216 B, IPv4 or IPv6 between the interface and its
peer, to and from the port of PD 0x4005.00. Anything else is not answered. -/
def State.gwUdp (s : State) (fr : GwFrame) : Bool :=
  decide (fr.tags ≤ 1) && decide (fr.bytes ≤ 9216) && (fr.ether == 0x0800 || fr.ether == 0x86DD) && fr.mine && fr.proto == 17
    && fr.sport == s.pdNum 0x4005 0 && fr.dport == s.pdNum 0x4005 0

/-- Whether a datagram's frame is one that the gateway takes: no options or extension headers, no fragment, checksums that hold, and VER 1 (R285,
R286). -/
def frameFine (fr : GwFrame) (d : GwDatagram) : Bool := !fr.options && !fr.fragment && fr.sums && d.ver == 1

/-- The response that a segment of VL4 spells (R297). -/
def segResponse (g : Segment) : Response :=
  { osrc := g.osrc, fdest := g.fdest, rcid := g.rcid, conn := g.conn, cseq := g.cseq, status := Status.ofCode (bitsOf g.addr 0 8),
    hint := if bitAt g.addr 31 then some (bitsOf g.addr 16 14) else none, ce := g.ce, data := g.data, rd := g.opc == 0x11, job := g.job, kgen := g.kgen,
    win := g.win, wgen := g.wgen, epoch := g.epoch, mtag := g.mtag }

/-- A packet that came over a gateway link goes on to its node (R323): a request on VL3, a response on VL5, a management message
on VL6, in a packet of its own, as it came; one for this node is taken here, a response of one segment as a whole (log entry 160). -/
def State.passOn (s : State) (vl : Nat) (g : Segment) : State :=
  if g.fdest = s.nodeId then
    if vl = 6 then { s with lnk := { s.lnk with mgmtIn := s.lnk.mgmtIn ++ [g.data] } }
    else if vl = 3 then s.receive g.opc true g
    else if g.slen = g.mlen then s.response true (segResponse g)
    else s
  else if vl = 6 then s.mgmtSend g.fdest g.data
  else s.putPkts [{ vl := if vl = 4 then 5 else vl, seg := g, high := 0, ord := 0, raw := true }]

/-- A response that crossed on VL4 ends the keeping of its message (R325). -/
def State.gwDone (s : State) (g : Segment) : State :=
  { s with rmo := { s.rmo with gw := s.rmo.gw.filter fun x => !(x.seg.osrc == g.fdest && x.seg.conn == g.conn && x.seg.cseq == g.cseq) } }

/-- The packets of a gateway datagram (R286, R324). -/
def State.unpack (s : State) (port : Nat) (d : GwDatagram) : State :=
  if d.dst ≠ s.nodeId ∨ (d.vl ≠ 3 ∧ d.vl ≠ 4 ∧ d.vl ≠ 6) ∨ d.pkts = [] ∨ 64 < d.pkts.length then s.gwDrop port false
  else d.pkts.foldl (fun s g => (if d.vl = 4 then s.gwDone g else s).passOn d.vl g) s

/-- The packets that the next datagram of a group takes: at most 64, within a frame (R285, R286). -/
def gwTake : Nat → Nat → List GwMsg → List GwMsg
  | 0, _, _ => []
  | _, _, [] => []
  | n + 1, room, g :: rest => if gwBytes g.seg ≤ room then g :: gwTake n (room - gwBytes g.seg) rest else []

/-- The packets that wait for the next datagram to a group: those on the VL of the oldest, VL3 or VL4 (R286, R323). -/
def State.gwWaiting (s : State) (group : Nat) : List GwMsg :=
  let wait := s.rmo.gw.filter fun x => x.packed && x.group == group
  wait.filter fun x => (x.seg.vl == 4) == ((wait.head?).elim 0 (·.seg.vl) == 4)

/-- The packets of a datagram are packed: a request is kept until its response, a response is done (R325). -/
def gwSent (now : Nat) (pack : List GwMsg) (gw : List GwMsg) : List GwMsg :=
  mapIf (fun x => pack.contains x) (fun x => { x with packed := false, sentAt := now })
    (gw.filter fun x => !(x.seg.vl == 4 && pack.contains x))

/-- The management messages for another group, as the packets of a datagram on VL6 (R274, R286). -/
def State.gwMgmt (s : State) (group : Nat) : List (Nat × List Byte) :=
  (s.lnk.mgmtOut.filter fun m => s.gatewayFor m.1 && bitsOf m.1 8 6 == group && decide (m.2.length ≤ 7616)).take 1

/-- The packet of a management message. -/
def State.mgmtSegment (s : State) (m : Nat × List Byte) : Segment :=
  { vl := 6, opc := 0, flag := false, ce := false, dom := false, conn := 0, job := 0, osrc := s.nodeId, fdest := m.1, rcid := 0, kgen := 0,
    cseq := 0, mlen := m.2.length, off := 0, win := 0, wgen := 0, epoch := 0, slen := m.2.length, mtag := 0, addr := 0, data := m.2 }

/-- The datagrams of a group that are due enter its queue (R324, R331): a management message for the group at once, other packets when the datagram is
full, at 9,216 B, or its oldest packet has waited 1 µs. -/
def State.formDatagrams (s : State) (group : Nat) : State :=
  let mg := s.gwMgmt group
  let s := if mg = [] then s
    else (s.mgmtLeaves (s.lnk.mgmtOut.filter fun m => !mg.contains m)).queueDatagram group 6 (mg.map s.mgmtSegment)
  let wait := s.gwWaiting group
  let pack := gwTake 64 9154 wait
  let full := decide (pack.length < wait.length) || pack.length == 64
  let old := wait.any fun x => decide (x.since + us ≤ s.timer)
  if pack = [] ∨ (!full ∧ !old) then s
  else
    let vl := if pack.any fun x => x.seg.vl == 4 then 4 else 3
    ({ s with rmo := { s.rmo with gw := gwSent s.timer pack s.rmo.gw } }).queueDatagram group vl (pack.map GwMsg.crossing)

/-- GATEWAY_DATAGRAM_SEND (R324, R331, R334, R338): datagrams that are due enter the queue that PD 0x4202.gg names; where its head is a datagram, the
first datagram of that VL that may start leaves by the first port of the queue that carries datagrams (log entry 160). -/
def execGatewayDatagramSend (t group : Nat) (s : State) : Res :=
  let s := s.arrive t
  if !s.ready then .next s
  else
    let s := s.formDatagrams group
    let x := s.queue (s.pdNum 0x4202 group)
    match x.waiting.head?, (portList x.ports).find? s.gwUp with
    | some m, some port => .next (if m.isDatagram then s.startGateway port m.vl else s)
    | _, _ => .next s

/-! ### Fault injection (R288, R289) -/

/-- A write of LNK_FINJ_CTL_p: MODE only where PD 0xA010.00 permits. -/
def State.writeInject (s : State) (p v : Nat) : State :=
  let x := s.port p
  let fmode := if s.pdBool 0xA010 0 then bitsOf v 0 2 else x.fmode
  let s := s.setPort p { x with fmode, fsev := bitAt v 2, fdepth := bitsOf v 3 4, fvlmask := BitVec.ofNat 8 (bitsOf v 8 8) }
  if fmode ≠ 0 ∧ fmode ≠ x.fmode then (s.setPort p { s.port p with corrAt := x.groupAt s.timer }).linkEvent p 9 else s

/-- FAULT_INJECT_CTL_WRITE (R288). -/
def execFaultInjectCtlWrite (t port : Nat) (v : BitVec 32) (s : State) : Res :=
  let s := s.arrive t
  .next (if s.ready && decide (port < 8) then s.writeInject port v.toNat else s)

/-- A write of LNK_FINJ_SEED_p: the sequence restarts; 0 stores 1 (R291). -/
def State.writeSeed (s : State) (p : Nat) (v : BitVec 32) : State :=
  let seed := if v = 0 then 1 else v
  s.setPort p { s.port p with fseed := seed, lfsr := seed }

/-- FAULT_INJECT_SEED_WRITE (R289). -/
def execFaultInjectSeedWrite (t port : Nat) (v : BitVec 32) (s : State) : Res :=
  let s := s.arrive t
  .next (if s.ready && decide (port < 8) then s.writeSeed port v else s)

end Sys2Proof.Machine
end

