-- ==== Sys2Proof/Machine/Tiers.lean ====
section
/-! DEFINITION. The tiers (R230 to R264): flash events, leases, hints, recalls, moves and weight streaming. -/

namespace Sys2Proof.Machine

/-! ### Flash (R233 to R241) -/

/-- A flash event (R327). -/
def State.flashEvent (s : State) (ch code : Nat) (detail : List Byte) : State :=
  s.event { cls := 5, code, subj := ch, comp := (s.flash ch).owner, status := 0x42, detail }

/-- Whether a record of so many chunks from a hardpan address on lies on a chunk (R237). -/
def onChunk (npa n extent chunk : Nat) : Bool :=
  !isHbm npa && decide (bitsOf npa 14 33 ≤ 128 * extent + chunk) && decide (128 * extent + chunk < bitsOf npa 14 33 + n)

/-- Whether a chunk is one of a sketch array (R159). -/
def State.sketchChunk (s : State) (extent chunk : Nat) : Bool :=
  s.rq.corpora.any fun c => c.segs.any fun g => g.tier == 2 && onChunk g.ska (sketchChunks c.skb g.cap) extent chunk

/-- Everything that needs a chunk which cannot be read ends with INTEGRITY (R133, R172, R241). -/
def State.chunkLost (s : State) (extent chunk : Nat) : State :=
  let here (d : Desc) : Bool := d.tier == 2 && onChunk (16 * d.addr) (recordCount (64 * d.clen)) extent chunk
  let needs (r : Req) (x : Sec) : Bool := x.running && x.snap.elim false fun p => p.pages.any fun g =>
    (s.page? r.job r.req.env.ctx x.stream g.1).elim false fun y => here (s.homeOf y)
  let hits := (s.rq.reqs.map fun r => (r.secs.zipIdx.filter fun x => needs r x.1).map fun x => (r.id, x.2)).flatten
  let s := hits.foldl (fun s h => s.endSec h.1 h.2 .integrity) s
  let sks := s.rq.searches.filter fun x => x.running && x.snap.elim false fun c =>
    ((c.segs.drop x.req.slo).take (x.req.shi - x.req.slo)).any fun g => g.tier == 2 && onChunk g.ska (sketchChunks c.skb g.cap) extent chunk
  let s := s.streamsLost fun e => e.tier == 2 && onChunk e.npa (recordCount e.len) extent chunk
  sks.foldl (fun s x => s.endSearch .integrity x) s

/-- A chunk of the map; one that the node has not written is installed, and its channel's owner's (R238). -/
def State.chunkAt (s : State) (ch extent chunk : Nat) : Chunk :=
  (s.tier.chunks.find? fun k => k.extent == extent && k.chunk == chunk).getD
    { extent, chunk, comp := (s.flash ch).owner.getD 0, channel := ch, bad := false, rewrite := false, ctr := 0, block := 0, done := true,
      origin := true, job := s.jobOf ((s.flash ch).owner.getD 0), kgen := 0, used := 0 }

/-- Put a chunk into the map in place of what the map says of it. -/
def State.setChunk (s : State) (k : Chunk) : State :=
  { s with tier := { s.tier with chunks := k :: s.tier.chunks.filter fun x => !(x.extent == k.extent && x.chunk == k.chunk) } }

/-- Whether a chunk can be rebuilt from the other eight of its stripe (R240, R241). -/
def State.rebuildable (s : State) (k : Chunk) : Bool :=
  let mates := s.stripeMates k.extent k.chunk
  !k.origin && (decide (128 ≤ k.chunk) || mates.any fun x => decide (128 ≤ x.chunk)) &&
    mates.all fun x => !x.bad && !(s.flash x.channel).failed

/-- Write a chunk anew (R239, R241): on its channel, or where that has failed on another of its composition. -/
def State.rewriteChunk (s : State) (k : Chunk) : State :=
  let rank := if k.chunk < 128 then k.extent + k.chunk else k.extent + 8 * (k.chunk - 128) + 8
  s.programChunk { k with channel := if (s.flash k.channel).failed then s.rankChannel k.comp k.extent k.chunk rank else k.channel } true

/-- Read chunks from flash (R234). -/
def State.fetchChunks (s : State) (ks : List Chunk) : State :=
  ks.foldl (fun (s : State) k => s.flashOps k.channel [0x00, 0x78, 0x06]) s

/-- The target of a channel that holds a block: blocks are numbered target after target, as many in each (DESIGN CHOICE, log entry 180). -/
def State.targetOf (s : State) (ch block : Nat) : Nat :=
  let n := max 1 (s.flash ch).targets
  min (n - 1) (block / max 1 (Config.flashBlocks ch / n))

/-- The pages of a composition that lie on a chunk. -/
def State.pagesOn (s : State) (k : Chunk) : Nat :=
  ((s.compPages k.comp).filter fun y =>
    let d := s.homeOf y.2.2.2
    d.valid && d.tier == 2 && onChunk (16 * d.addr) (recordCount (64 * d.clen)) k.extent k.chunk).length

/-- A chunk is uncorrectable without parity, or its tag has failed (R241): counted, ERR set, and what needs it ends. DATA_LOST names it once
(R407). -/
def State.loseChunk (s : State) (ch : Nat) (k : Chunk) (tagOk : Bool) : State :=
  let s := if k.bad then s else s.dataLost k.comp k.job (s.pagesOn k)
  let s := s.setChunk { k with bad := true }
  let s := s.setFlash ch { s.flash ch with err := true }
  let s := if !tagOk && s.sketchChunk k.extent k.chunk then s.count 0x3353 0 else s
  let s := (s.count 0x8050 4).flashEvent ch 2 (leBytes 1 (s.targetOf ch k.block) ++ [0, 0, 0] ++ leBytes 4 k.extent)
  s.chunkLost k.extent k.chunk

/-- A chunk could not be corrected (R241): where its stripe allows it, the others are read, and it is rebuilt and written anew. -/
def State.uncorrectable (s : State) (ch : Nat) (k : Chunk) : State :=
  if s.rebuildable k then (s.fetchChunks (s.stripeMates k.extent k.chunk)).rewriteChunk { k with bad := false } else s.loseChunk ch k true

/-- The searches that read sketches from a flash channel end as under HOLD when it fails (R172). A flash-channel fault has no scope among
those of R416. -/
def State.searchesOff (s : State) (ch : Nat) : State :=
  let on (c : Corpus) (g : Seg) : Bool := g.tier == 2 &&
    s.tier.chunks.any fun k => k.channel == ch && decide (k.chunk < 128) && onChunk g.ska (sketchChunks c.skb g.cap) k.extent k.chunk
  (s.rq.searches.filter fun x => x.running && x.snap.elim false fun c =>
    ((c.segs.drop x.req.slo).take (x.req.shi - x.req.slo)).any fun g => on c g).foldl (fun s x => s.endSearch .replay x) s

/-- The channel has failed (R241): its chunks are treated as uncorrectable. -/
def State.failChannel (s : State) (ch : Nat) : State :=
  let f := s.flash ch
  if f.failed then s
  else
    let s := (s.setFlash ch { f with failed := true }).searchesOff ch
    let s := (s.tier.chunks.filter fun k => k.channel == ch).foldl (fun (s : State) k => s.uncorrectable ch k) s
    s.flashEvent ch 1 []

/-- Blocks of a channel that have been retired. -/
def Flash.retired (f : Flash) : Nat := (f.blocks.filter fun b => b.2.retired).length

/-- What SPARE and WEAR read after a change of the channel's blocks (R239, R263), and whether more than 2% of the blocks are
retired beyond the spares (R241). -/
def State.gauge (s : State) (ch : Nat) : State :=
  let f := s.flash ch
  let total := max 1 (Config.flashBlocks ch)
  let spares := max 1 (spareBlocks ch)
  let erases := (f.blocks.map fun b => b.2.erases).max?.getD 0
  let s := s.setFlash ch { f with spare := (spares - f.retired) * 100 / spares,
                                  wear := min 255 (erases * 100 / max 1 (Config.ratedCycles ch)) }
  if f.retired != 0 && decide (total * 2 / 100 < f.retired - spares) then s.failChannel ch else s

/-- SPARE and WEAR of a channel whose blocks a scan has shown, where there are any (R263). -/
def State.gaugeAll (s : State) (ch : Nat) : State := if (s.flash ch).blocks = [] then s else s.gauge ch

/-- PAGE_PROGRAM_COMPLETE (R239): the page of the first chunk that waits in the block is written; the page of a chunk that has been overwritten
meanwhile is stale. A block that fails is retired, and the chunk is written to another. -/
def execPageProgramComplete (t ch block : Nat) (ok : Bool) (s : State) : Res :=
  let s := s.arrive t
  let f := s.flash ch
  let b := f.block block
  let first := s.tier.chunks.find? fun k => k.channel == ch && k.block == block && !k.done
  if ok then
    let b' : FBlock := if first.isSome then { b with live := b.live + 1, isOpen := true } else { b with stale := b.stale + 1 }
    let s := s.setFlash ch { f with blocks := put f.blocks block b' }
    .next ((first.elim s fun k => s.setChunk { k with done := true }).gauge ch)
  else
    let s := s.setFlash ch { f with blocks := put f.blocks block { b with retired := true, isOpen := false } }
    .next ((first.elim s fun k => s.programChunk k true).gauge ch)

/-- A block that was queued for erasure at power-up has been erased, or is retired (R519): FLASHBG reads 1 until the queue is empty. -/
def State.unqueueBlock (s : State) (ch block : Nat) : State :=
  let f := s.flash ch
  if !f.eraseq.contains block then s
  else
    let s := s.setFlash ch { f with eraseq := f.eraseq.filter (· != block) }
    { s with boot := { s.boot with erase := s.boot.erase - 1, flashbg := s.boot.flashbg && decide (1 < s.boot.erase) } }

/-- BLOCK_ERASE_COMPLETE (R239): an erased block is free again, for the chunks that wait for one too; a block that fails is retired. A channel whose erasing on release
has reached every block is free when FLASH_CHANNEL_FREE says so. -/
def execBlockEraseComplete (t ch block : Nat) (ok : Bool) (s : State) : Res :=
  let s := s.arrive t
  let f := s.flash ch
  let b := f.block block
  let b' : FBlock := if ok then { erases := b.erases + 1, live := 0, stale := 0, retired := b.retired, isOpen := false }
    else { b with retired := true, isOpen := false }
  .next ((((s.setFlash ch { f with blocks := put f.blocks block b' }).unqueueBlock ch block).retryChunks ch).gauge ch)

/-- Whether the code corrects all four codewords of a chunk: at most 160 bits each (R236). -/
def corrected (r : ChunkRead) : Bool := r.words.all fun n => n.elim false fun n => decide (n ≤ 160)

/-- Corrections that a chunk needed, over its codewords (R241; log entry 153). -/
def corrections (r : ChunkRead) : Nat := (r.words.map fun n => n.getD 0).sum

/-- FLASH_CHUNK_READ_COMPLETE (R241). A tag failure is never rebuilt from the stripe. -/
def execFlashChunkReadComplete (t ch extent chunk : Nat) (r : ChunkRead) (s : State) : Res :=
  let s := s.arrive t
  let k := s.chunkAt ch extent chunk
  if corrected r && !(s.flash ch).failed then
    if !r.tagOk then .next (s.loseChunk ch k false)
    else .next (if 120 < corrections r then s.setChunk { k with rewrite := true } else s)
  else .next (if r.stripeOk then s.uncorrectable ch k else s.loseChunk ch k true)

/-- LUN_TIMEOUT (R234, R241): the first time the LUN is reset and the read retried; the second time the read of the chunk ends as
uncorrectable. A channel none of whose targets answers is lost (log entry 39). -/
def execLunTimeout (t ch target lun : Nat) (x : LunTry) (s : State) : Res :=
  let s := s.arrive t
  let f := s.flash ch
  if !x.again then
    .next ((s.setFlash ch { f with lunTries := (target, lun) :: f.lunTries.erase (target, lun) }).flashOps ch [0xFA, 0x00, 0x78])
  else
    let tries := (target, lun) :: f.lunTries
    let lost := (List.range f.targets).all fun n => 2 ≤ (tries.filter fun x => x.1 == n).length
    let s := (s.setFlash ch { f with lunTries := tries }).uncorrectable ch (s.chunkAt ch x.extent x.chunk)
    .next (if lost && decide (0 < f.targets) then s.failChannel ch else s)

/-- ZQ_CALIBRATION_SHORT (R234): every 100 ms on a channel in service. -/
def execZqCalibrationShort (t ch : Nat) (s : State) : Res :=
  let s := s.arrive t
  let f := s.flash ch
  .next (if f.up && decide (f.zqAt + 100 * ms ≤ s.timer) then (s.setFlash ch { f with zq := f.zq + 1, zqAt := s.timer }).flashOps ch [0xD9]
    else s)

/-! ### Moves (R253 to R256) -/

/-- Bytes that a composition may still move in this step (R256). -/
def State.moveRoom (s : State) (c : Nat) : Nat := s.pdNum 0x8003 c - lookD s.tier.moved c 0

/-- Bytes that a composition may still write into hardpan in this step (R256). -/
def State.hardRoom (s : State) (c : Nat) : Nat := s.pdNum 0x8004 c - lookD s.tier.hwrote c 0

/-- Bytes that a record of a length writes into hardpan (R256): its own, and where there are stripes a parity chunk beside each of its chunks
(R240). -/
def State.hardCost (s : State) (c n : Nat) : Nat := n + if s.striped c then 16384 * recordCount n else 0

/-- Whether a page that lies in subsoil can be read: a lease and a queue to its lender stand (R245). -/
def State.subReached (s : State) (c : Nat) (d : Desc) : Bool :=
  d.tier != 1 || ((s.leaseOf c d).isSome && (s.peerQueue c d.node).isSome)

/-- A place for the new copy of a page in a tier: ADDR, node, and the state in which a copy in hardpan is written (R237, R255). -/
def State.copyPlace (s : State) (k : Ctx) (stream page : Nat) (d : Desc) (toTier : Nat) (lease : Option Lease) : Nat × Nat × State :=
  match toTier with
  | 0 =>
    let pcs := s.allocPcs k.comp
    let (a, s) := s.place (pcs.getD (page % max 1 pcs.length) 0) 512
    (a / 16, s.nodeId, s)
  | 1 =>
    let size := lease.elim 0 (·.size)
    let (i, s) := s.draw
    (Config.freeAddr i % max 1 (size / 64) * 4, lease.elim 0 (·.peer), s)
  | _ =>
    let body := (k.strm? stream).elim [] fun x => storedBytes x d.packed ((s.frame? d.frame).elim [] (·.toks))
    let (a, s) := s.hardRecord k.comp 1 stream page d.gen body
    (a / 16, s.nodeId, s)

/-- The page of a move is read where it lies outside topsoil (R245, R255). -/
def State.readPlace (s : State) (k : Ctx) (stream : Nat) (d : Desc) (id : Nat) : State :=
  match k.strm? stream with
  | some x => if d.tier = 1 then (s.readSub k.comp x d (.tier id)).2 else if d.tier = 2 then s.readChunks (16 * d.addr) (recordCount (64 * d.clen)) else s
  | none => if d.tier = 2 then s.readChunks (16 * d.addr) (recordCount (64 * d.clen)) else s

/-- A page on its way to subsoil is sealed and written there through its lease (R244, R255). -/
def State.writeSub (s : State) (k : Ctx) (stream : Nat) (d : Desc) (m : TMove) (lease : Option Lease) : State :=
  match lease, s.peerQueue k.comp m.toNode, k.strm? stream with
  | some l, some q, some x =>
    let bytes := s.subFrame m.sctr d.gen (storedBytes x d.packed ((s.frame? d.frame).elim [] (·.toks)))
    { s.enqueue q (mkWrite 1 l.win l.wgen s.rmo.epoch 0 (16 * m.toAddr) bytes false (.tier m.id) false s.nextStep) with
      tier := { s.tier with sctr := s.tier.sctr + 1 } }
  | _, _, _ => s

/-- Start a move of a page to a tier (R255): the new copy is written; a copy in subsoil goes through its lease, and one from there
is read through it. `to_` is the borrower's lease that takes it. Where no queue reaches a lender no move starts. -/
def State.startMove (s : State) (k : Ctx) (stream page : Nat) (p : Page) (toTier : Nat) (to_ : Option (Nat × Lease)) : State :=
  let d := s.homeOf p
  let lease := to_.map (·.2)
  if !s.subReached k.comp d || (toTier == 1 && !(lease.any fun l => (s.peerQueue k.comp l.peer).isSome)) then s
  else
    let n := 64 * d.clen
    let id := s.rq.nextId
    let (addr, node, s) := s.copyPlace k stream page d toTier lease
    let m : TMove := { id, job := k.job, ctx := k.ctx, stream, page, gen := d.gen, tier := d.tier, addr := d.addr, toTier, toNode := node,
                       toAddr := addr, bytes := n, sctr := s.tier.sctr, lease := to_.elim 0 (·.1) }
    let s := { s with rq := { s.rq with nextId := id + 1 },
                      tier := { s.tier with moves := s.tier.moves ++ [m], moved := bump s.tier.moved k.comp n,
                                            hwrote := if toTier = 2 then bump s.tier.hwrote k.comp (s.hardCost k.comp n) else s.tier.hwrote } }
    let s := s.readPlace k stream d id
    if toTier = 1 then s.writeSub k stream d m lease else s

/-- The stored bytes of a group: in topsoil at its NPA, in hardpan in its WEIGHT record (R237). -/
def State.groupBytes (s : State) (c : Cat) : List Byte := if c.tier = 2 then s.recordBody c.npa c.len else s.load c.npa c.len

/-- Start a move of a weight group (R255, R257): the new copy is written, in hardpan as a WEIGHT record (R237). -/
def State.startGroup (s : State) (c model layer group toTier : Nat) : State :=
  let e := s.cat model layer group
  let id := s.rq.nextId
  let body := s.groupBytes e
  let s := if e.tier = 2 then s.readChunks e.npa (recordCount e.len) else s
  let (a, s) :=
    if toTier = 2 then s.hardRecord c 4 model (layer + group * 4096) 0 body
    else
      let (a, s) := s.place ((s.allocPcs c).headD 0) 64
      (a, s.store a (padMul 16 body))
  let m : GMove := { id, comp := c, model, layer, group, tier := e.tier, npa := e.npa, toTier, toNpa := a, len := e.len }
  { s with rq := { s.rq with nextId := id + 1 },
           tier := { s.tier with gmoves := s.tier.gmoves ++ [m], moved := bump s.tier.moved c e.len,
                                 hwrote := if toTier = 2 then bump s.tier.hwrote c (s.hardCost c e.len) else s.tier.hwrote } }

/-- The end of a move of a weight group (R255, R257): if the catalogue entry still reads as the move read it, the entry names the copy;
otherwise, or where a chunk that it was read from has been lost meanwhile (R241), the copy is discarded. -/
def State.finishGroup (s : State) (m : GMove) : State :=
  let s := { s with tier := { s.tier with gmoves := s.tier.gmoves.filter fun x => x.id != m.id } }
  let e := s.cat m.model m.layer m.group
  if e.valid && e.tier == m.tier && e.npa == m.npa && !(e.tier == 2 && s.chunksBad e.npa (recordCount e.len)) then
    let s := s.store (Config.catalogAt m.model m.layer m.group) (leBytes 8 (m.toTier + m.toNpa) ++ leBytes 4 m.len ++ leBytes 4 1)
    let at_ (npa : Nat) : List Nat := (List.range (recordCount m.len)).map fun i => npa + i * 2 ^ 14
    let rest := s.tier.gchunks.filter fun a => !(at_ m.npa).contains a
    let s := { s with tier := { s.tier with gchunks := if m.toTier = 2 then at_ m.toNpa ++ rest else rest } }
    s.countC m.comp 0x8050 (if m.toTier = 2 then 1 else 2) m.len
  else s.countC m.comp 0x8050 5 1

/-- Whether chunks of a record are still being programmed (R255). -/
def State.programming (s : State) (npa n : Nat) : Bool :=
  s.tier.chunks.any fun k => !k.done && decide (k.chunk < 128) && onChunk npa n k.extent k.chunk

/-! ### The end of a lease (R243, R246) -/

/-- The pages of a composition that lie in subsoil under a lease. -/
def State.pagesAt (s : State) (c nn : Nat) : List (Ctx × Nat × Nat × Page) :=
  (s.compPages c).filter fun y => let d := s.homeOf y.2.2.2; d.valid && d.tier == 1 && s.leaseNo c d == some nn

/-- The borrower writes its release record to the lender, once, when no frame of it is left there (R246). The spec gives the record neither form
nor place: log entry 71. -/
def State.releaseLease (s : State) (nn : Nat) : State :=
  let l := Lease.ofBytes (s.pd.bytes 0x8030 nn)
  if !s.tier.ending.contains nn || s.tier.released.contains nn || s.pagesAt l.comp nn != [] then s
  else match s.peerQueue l.comp l.peer with
    | none => s
    | some q =>
      let (i, s) := s.draw
      let s := { s with tier := { s.tier with released := nn :: s.tier.released } }
      s.enqueue q (mkWrite 1 l.win l.wgen s.rmo.epoch 0 (Config.freeAddr i % max 1 (l.size / 64) * 64) (padTo 32 (s.pd.bytes 0x8030 nn)) true
        (.tier 0) false s.nextStep)

/-- The IV counter of the subsoil frame that a page lies in (R244), and the lease that took it (R243). -/
def State.sealedAs (s : State) (job ctx stream page ctr lease : Nat) : State :=
  match s.page? job ctx stream page with
  | none => s
  | some p =>
    let d := s.homeOf p
    match s.frame? d.frame with
    | some f =>
      let s := { s with tier := { s.tier with subAt := put (s.tier.subAt.filter fun e => (s.frame? e.1).isSome) d.frame lease } }
      s.setPg fun g => { g with frames := put g.frames d.frame { f with sctr := ctr } }
    | none => s

/-- A move whose page still reads as the move read it (R255): its descriptor is switched, and the contribution follows (R413). -/
def State.finishMove (s : State) (comp : Nat) (m : TMove) : State :=
  let s := s.switchPlace m.job m.ctx m.stream m.page m.toTier m.toNode m.toAddr
  let s := if m.toTier = 1 then (s.sealedAs m.job m.ctx m.stream m.page m.sctr m.lease).contributeSub m.job m.ctx m.stream m.page m.sctr else s
  if m.tier < m.toTier then s.countC comp 0x8050 1 m.bytes
  else if m.toTier < m.tier then s.countC comp 0x8050 2 m.bytes else s

/-- MOVE_COMPLETE (R255): the new copy's write has completed. If the descriptor still reads as the move read it, it is switched;
otherwise, or where a chunk that it was read from has been lost meanwhile (R241), the copy is discarded and counted. The old place is freed at the
step boundary (R81). A lease that its last frame has left is released (R246). -/
def execMoveComplete (t id : Nat) (s : State) : Res :=
  let s := s.arrive t
  match s.tier.moves.find? fun m => m.id == id with
  | none => match s.tier.gmoves.find? fun m => m.id == id with
    | none => .next s
    | some m => .next (if m.toTier == 2 && s.programming m.toNpa (recordCount m.len) then s else s.finishGroup m)
  | some m =>
    if (s.inFlight fun p => p == .tier id) || (m.toTier == 2 && s.programming (16 * m.toAddr) (recordCount m.bytes)) then .next s
    else
      let s := { s with tier := { s.tier with moves := s.tier.moves.filter fun x => x.id != id } }
      let comp := (s.ctx? m.job m.ctx).elim 0 (·.comp)
      let same := (s.page? m.job m.ctx m.stream m.page).elim false fun p =>
        let d := s.homeOf p
        d.valid && d.gen == m.gen && d.tier == m.tier && d.addr == m.addr && !s.unreadable d
      let s := if same then s.finishMove comp m else s.countC comp 0x8050 5 1
      .next (s.tier.ending.foldl (fun (s : State) nn => s.releaseLease nn) s)

/-- The steps since a heat was noted, modulo 2^36 as R28 compares; 2^36 for never (R253). -/
def State.age (s : State) (heat : Nat) : Nat := if heat = 0 then 2 ^ 36 else (s.step + 1 + 2 ^ 36 - heat) % 2 ^ 36

/-- Whether a heat is older than PD 0x8005.CC steps (R253). -/
def State.idle (s : State) (c heat : Nat) : Bool := decide (s.pdNum 0x8005 c < s.age heat)

/-- One more than the last step in which a request attended a page's level-3 table, over all sharers of a borrowed page; 0 for never (R253). -/
def State.heatOf (s : State) (c : Nat) (k : Ctx) (stream page : Nat) (p : Page) : Nat :=
  let own (k : Ctx) (stream page : Nat) : Nat := (k.strm? stream).elim 0 fun x => lookD x.heat (page / 512) 0
  if p.desc.borrowed then
    ((s.compPages c).filter fun y => y.2.2.2.desc.borrowed && y.2.2.2.desc.frame == p.desc.frame).foldl (fun h y =>
      let g := own y.1 y.2.1 y.2.2.1
      if s.age g < s.age h then g else h) 0
  else own k stream page

/-- Whether the frame of a descriptor is being moved: a shared frame moves once, whichever of its sharers starts the move (R253). -/
def State.movingFrame (s : State) (d : Desc) : Bool :=
  s.tier.moves.any fun m => (s.page? m.job m.ctx m.stream m.page).elim false fun p => (s.homeOf p).frame == d.frame

/-- Whether a page may be demoted now (R253): its table holds no pinned page, no sink page and not the last sealed page, has not been
attended within PD 0x8005.CC steps, and the page is in topsoil and not already moving. What is going dormant moves as a whole (R251). -/
def State.mayDemote (s : State) (c : Nat) (k : Ctx) (stream page : Nat) (p : Page) : Bool :=
  (k.strm? stream).elim false fun x =>
    let table := page / 512
    let near := x.pages.zipIdx.filter fun g => g.2 / 512 == table
    let heat := s.heatOf c k stream page p
    !k.going && !k.dormant && (s.homeOf p).valid && (s.homeOf p).tier == 0 && !(near.any fun g => (s.homeOf g.1).tpin) && decide (x.sink ≤ 512 * table)
      && decide (table < (x.npages - 1) / 512) && s.idle c heat
      && !s.movingFrame (s.homeOf p)

/-- The page that demotion takes next: of the table with the oldest last step, ties to ascending (context, stream, table). -/
def State.coldest (s : State) (c : Nat) : Option (Ctx × Nat × Nat × Page) :=
  let ps := (s.compPages c).filter fun y => s.mayDemote c y.1 y.2.1 y.2.2.1 y.2.2.2
  let key (y : Ctx × Nat × Nat × Page) : Nat × Nat × Nat × Nat := (s.age (s.heatOf c y.1 y.2.1 y.2.2.1 y.2.2.2), y.1.ctx, y.2.1, y.2.2.1)
  let lt (a b : Nat × Nat × Nat × Nat) : Bool :=
    if a.1 ≠ b.1 then decide (b.1 < a.1) else if a.2.1 ≠ b.2.1 then decide (a.2.1 < b.2.1)
    else if a.2.2.1 ≠ b.2.2.1 then decide (a.2.2.1 < b.2.2.1) else decide (a.2.2.2 < b.2.2.2)
  ps.foldl (fun b y => match b with | none => some y | some x => if lt (key y) (key x) then some y else some x) none

/-- One more than the last streamed step of a layer; 0 for never (R257). -/
def State.layerHeat (s : State) (model layer : Nat) : Nat :=
  ((s.tier.lheat.find? fun h => h.1 == model && h.2.1 == layer).map (·.2.2)).getD 0

/-- The weight groups of a composition's models that lie in a tier and are not moving, with their layer's heat: (heat, model, layer,
group) (R257). -/
def State.groupsIn (s : State) (c tier : Nat) : List (Nat × Nat × Nat × Nat) :=
  ((s.sec.models.filter fun m => m.2.2.1 == c).map fun m =>
    ((List.range s.layers).map fun l => ((List.range 65536).filter fun g =>
      let e := s.cat m.1 l g
      e.valid && e.tier == tier && !(s.tier.gmoves.any fun x => x.model == m.1 && x.layer == l && x.group == g)).map fun g =>
        (s.layerHeat m.1 l, m.1, l, g)).flatten).flatten

/-- The weight group that demotion takes next (R253, R257): of the layer with the oldest last streamed step, where that is long
enough ago. -/
def State.coldGroup (s : State) (c : Nat) : Option (Nat × Nat × Nat × Nat) :=
  ((s.groupsIn c 0).filter fun g => s.idle c g.1).foldl (fun b g =>
    match b with
    | none => some g
    | some x => if s.age x.1 < s.age g.1 then some g else b) none

/-- Whether migration may start at all (R256, R262): not in the first 64 steps after synchronisation, of which the step that runs counts
one. -/
def State.mayMigrate (s : State) : Bool := decide (65 ≤ s.tier.syncSteps) && s.pwr.stage == 0

/-- A weight group is demoted, within the bytes of the step (R256, R257). -/
def State.demoteGroup (s : State) (c : Nat) (g : Nat × Nat × Nat × Nat) : State :=
  let n := (s.cat g.2.1 g.2.2.1 g.2.2.2).len
  if s.moveRoom c < n ∨ s.hardRoom c < s.hardCost c n ∨ s.flashOf c = [] then s else s.startGroup c g.2.1 g.2.2.1 g.2.2.2 2

/-- A weight group in hardpan whose layer has been streamed is promoted while use allows (R254, R257). -/
def State.promoteGroup (s : State) (c : Nat) : State :=
  match (s.groupsIn c 2).find? fun g => g.1 != 0 with
  | none => s
  | some g =>
    let n := (s.cat g.2.1 g.2.2.1 g.2.2.2).len
    if s.moveRoom c < n ∨ !s.useBelow c (s.pdNum 0x8001 c) then s else s.startGroup c g.2.1 g.2.2.1 g.2.2.2 0

/-- Whether a page is being moved. -/
def State.moving (s : State) (y : Ctx × Nat × Nat × Page) : Bool := s.movingFrame (s.homeOf y.2.2.2)

/-- The next page to move home from a lease that ends (R246), with the lease. -/
def State.nextHome (s : State) (c : Nat) : Option ((Nat × Lease) × Ctx × Nat × Nat × Page) :=
  ((s.borrows c).filter fun l => s.tier.ending.contains l.1).findSome? fun l =>
    ((s.pagesAt c l.1).find? fun y => !s.moving y && s.subReached c (s.homeOf y.2.2.2)).map fun y => (l, y)

/-- A page comes home from a lease that ends: to topsoil if the watermark allows and to hardpan otherwise (R246). -/
def State.moveHome (s : State) (c : Nat) (l : Nat × Lease) (y : Ctx × Nat × Nat × Page) : State :=
  let n := 64 * (s.homeOf y.2.2.2).clen
  if s.moveRoom c < n then s
  else if s.useBelow c (s.pdNum 0x8001 c) ∨ s.flashOf c = [] then s.startMove y.1 y.2.1 y.2.2.1 y.2.2.2 0 (some l)
  else if s.hardRoom c < s.hardCost c n then s
  else s.startMove y.1 y.2.1 y.2.2.1 y.2.2.2 2 (some l)

/-- The coldest page or weight group of a composition leaves topsoil (R253, R257), a group last among equals. -/
def State.demoteNext (s : State) (c : Nat) : State :=
  match s.coldest c, s.coldGroup c with
  | none, none => s
  | none, some g => s.demoteGroup c g
  | some (k, stream, page, p), g =>
    if g.any fun g => decide (s.age (s.heatOf c k stream page p) < s.age g.1) then s.demoteGroup c (g.getD (0, 0, 0, 0))
    else
      let n := 64 * (s.homeOf p).clen
      if s.moveRoom c < n then s
      else
        match s.leaseRoom c (n + 64) with
        | some l => s.startMove k stream page p 1 (some l)
        | none => if s.flashOf c = [] ∨ s.hardRoom c < s.hardCost c n then s else s.startMove k stream page p 2 none

/-- A migration quantum of a composition (R246, R253, R256, R257): a page of a lease that ends comes home; else, from the high watermark until
use is below the low one, one page or weight group is demoted; else a group comes back. -/
def State.demote (s : State) (c : Nat) : State :=
  let was := s.tier.demoting.contains c
  let on := s.useAbove c (s.pdNum 0x8001 c) || (was && !s.useBelow c (s.pdNum 0x8002 c))
  let s := { s with tier := { s.tier with demoting := if on then (if was then s.tier.demoting else c :: s.tier.demoting)
                                                      else s.tier.demoting.filter (· != c) } }
  if !s.mayMigrate then s
  else match s.nextHome c with
    | some (l, y) => s.moveHome c l y
    | none => if on then s.demoteNext c else s.promoteGroup c

/-- Whether a request that is not complete attends a page (R254). -/
def State.attending (s : State) (job ctx stream page : Nat) : Bool :=
  s.rq.reqs.any fun q => q.job == job && q.req.env.ctx == ctx && q.secs.any fun z =>
    z.stream == stream && z.snap.elim false fun p => p.pages.any fun g => g.1 == page

/-- A promotion quantum (R254): a page in subsoil or hardpan that a request has attended, once that request is complete, while use allows; a
page of a PREFETCH range up to 5% more. -/
def State.promote (s : State) (job ctx stream page : Nat) : State :=
  match s.ctx? job ctx, s.page? job ctx stream page with
  | some k, some p =>
      let d := s.homeOf p
      let wanted := s.tier.recalls.any fun r => r.job == k.job && r.ctx == ctx && r.stream == some stream && r.ready.isSome
        && decide (r.first ≤ page) && decide (page < r.first + r.count)
      let seen := s.tier.attended.contains (k.job, ctx, stream, page)
      let top := s.pdNum 0x8001 k.comp + if wanted then 5 else 0
      if !k.dormant && d.valid && d.tier != 0 && (seen || wanted) && !s.attending job ctx stream page && s.useBelow k.comp top && s.mayMigrate && !s.unreadable d
          && decide (64 * d.clen ≤ s.moveRoom k.comp)
          && !s.movingFrame d then
        let s := { s with tier := { s.tier with attended := s.tier.attended.filter fun a => a != (k.job, ctx, stream, page) } }
        s.startMove k stream page p 0 none
      else s
  | _, _ => s

/-- The block of a channel with the most stale pages, the lowest address among equals (R239). -/
def Flash.stalest (f : Flash) : Option (Nat × FBlock) :=
  f.blocks.foldl (fun (b : Option (Nat × FBlock)) x =>
    if x.2.retired || x.2.stale == 0 then b
    else match b with
      | none => some x
      | some y => if y.2.stale < x.2.stale ∨ (y.2.stale = x.2.stale ∧ x.1 < y.1) then some x else some y) none

/-- A reclaim quantum (R239, R241, R256): the live pages of the block with the most stale pages move, each read and written anew as a chunk, and
the block is erased; chunks marked for a rewrite are written anew. A chunk that cannot be read does not move: it lies nowhere any more, and stays
one that cannot be read. -/
def State.reclaim (s : State) (c ch : Nat) : State :=
  if (s.flash ch).owner ≠ some c ∨ !s.mayMigrate then s
  else
    let marked := s.tier.chunks.filter fun k => k.channel == ch && k.rewrite && k.done && !k.bad
    let cost (ks : List Chunk) : Nat := 16384 * ks.length
    let move (s : State) (ks : List Chunk) : State :=
      let s := { s with tier := { s.tier with moved := bump s.tier.moved c (cost ks), hwrote := bump s.tier.hwrote c (cost ks) } }
      ks.foldl (fun (s : State) k => s.rewriteChunk k) (s.fetchChunks ks)
    let s := if s.moveRoom c < cost marked ∨ s.hardRoom c < cost marked then s else move s marked
    match (s.flash ch).stalest with
    | none => s
    | some (n, b) =>
      let live := s.tier.chunks.filter fun k => k.channel == ch && k.block == n && k.done && !k.bad
      let bad (k : Chunk) : Bool := k.channel == ch && k.block == n && k.bad
      let waits := s.tier.chunks.any fun k => k.channel == ch && k.block == n && !k.done
      if waits ∨ s.moveRoom c < cost live ∨ s.hardRoom c < cost live then s
      else
        let f := s.flash ch
        let s := s.setFlash ch { f with blocks := put f.blocks n { b with isOpen := false } }
        let s := { s with tier := { s.tier with chunks := mapIf bad (fun k => { k with block := noBlock }) s.tier.chunks } }
        (move s live).flashOps ch [0x60, 0x78]

/-! ### Leases (R243, R246) -/

/-- LEASE_END (R246): ENDP of a lease approaches; its frames are moved home from now on, and when none is left the release record goes to
the lender. A lease without an end is not touched. -/
def execLeaseEnd (t nn : Nat) (s : State) : Res :=
  let s := s.arrive t
  let l := Lease.ofBytes (s.pd.bytes 0x8030 nn)
  if !l.active || l.lender || l.endp == BitVec.allOnes 64 then .next s
  else
    let s := { s with tier := { s.tier with ending := if s.tier.ending.contains nn then s.tier.ending else nn :: s.tier.ending } }
    .next (s.releaseLease nn)

/-- Revoke the window that exposes a leased region (R246): its generation advances. -/
def State.revokeLease (s : State) (win : Nat) : State :=
  (List.range 16).foldl (fun s b =>
    let k := s.adirBank b
    if k.cls ≠ 1 then s
    else s.setBank b { k with entries := k.entries.map fun e =>
      let w := Win.ofUnits e.2
      if w.isOpen && w.lent && e.1 % 2 ^ 14 == win then (e.1, (w.close w.fwdv w.fwd).toUnits) else e }) s

/-- LEASE_RELEASE (R246): the lender has the borrower's release record, and revokes the window. -/
def execLeaseRelease (t nn : Nat) (s : State) : Res :=
  let s := s.arrive t
  let l := Lease.ofBytes (s.pd.bytes 0x8030 nn)
  if !l.active || !l.lender then .next s
  else
    .next { s.revokeLease l.win with
            tier := { s.tier with released := if s.tier.released.contains nn then s.tier.released else nn :: s.tier.released } }

/-- LEASE_FORCED_END (R246): the lender revokes the window; the borrower clears VALID in every descriptor that points into the
lease. -/
def execLeaseForcedEnd (t nn : Nat) (s : State) : Res :=
  let s := s.arrive t
  let l := Lease.ofBytes (s.pd.bytes 0x8030 nn)
  if !l.active then .next s
  else if l.lender then .next (s.revokeLease l.win)
  else .next ((s.pagesAt l.comp nn).foldl (fun s y =>
    s.setHome y.1.job y.1.ctx y.2.1 y.2.2.1 y.2.2.2 fun d => { d with valid := false }) s)

/-! ### Hints (R247 to R252) -/

/-- A hint from the 32 bytes of its entry (R248). -/
def hintOf (b : List Byte) : Hint :=
  { op := field b 0 1, ctx := field b 4 4, stream := bitsOf (field b 8 4) 0 20, all := bitAt (field b 8 4) 31, first := field b 12 4,
    count := field b 16 4, ready := BitVec.ofNat 64 (field b 24 8) }

/-- The streams that a hint names, or the status that refuses it (R9, R248). -/
def State.hintStreams (s : State) (c : Nat) (h : Hint) : Status ⊕ (Ctx × List (Nat × Strm)) :=
  match s.namedCtx (s.jobOf c) c h.ctx with
  | .inl st => .inl st
  | .inr k =>
      let xs := if h.all then k.streams.map fun x => (k.idOf x.1, x.2) else ((k.strm? h.stream).map fun x => (h.stream, x)).toList
      if xs = [] ∨ (xs.any fun x => decide (x.2.npages < h.first + h.count)) then .inl .unsupported else .inr (k, xs)

/-- Pages of a hint's range in a stream (R248). -/
def hintPages (h : Hint) (x : Strm) : Nat := if h.count = 0 then x.npages - h.first else h.count

/-- Set or clear TPIN over a range (R249). -/
def State.setTpin (s : State) (k : Ctx) (stream : Nat) (x : Strm) (h : Hint) (on : Bool) : State :=
  ((x.pages.zipIdx.drop h.first).take (hintPages h x)).foldl (fun s p =>
    match s.page? k.job k.ctx stream p.2 with
    | some g => s.setHome k.job k.ctx stream p.2 g fun d => { d with tpin := on }
    | none => s) s

/-- Bytes of a composition's pinned pages, each shared frame once (R249). -/
def State.pinned (s : State) (c : Nat) : Nat :=
  let own := (s.compPages c).map fun y => if !y.2.2.2.desc.borrowed && y.2.2.2.desc.tpin then 64 * y.2.2.2.desc.clen else 0
  own.sum + ((s.pg.pool.filter fun e => e.2.comp == c && e.2.desc.tpin).map fun e => 64 * e.2.desc.clen).sum

/-- Schedule the recall of a hint's range, with one predicted time for the whole of it (R249, R250). Whether anything is away. -/
def State.recallRange (s : State) (k : Ctx) (xs : List (Nat × Strm)) (h : Hint) (ready : Option Phase) (tells : List (Nat × Phase)) :
    Bool × State :=
  let far (x : Nat × Strm) : List (Nat × Nat × Nat) := s.away x.2 h.first (hintPages h x.2)
  let start := s.recallAt (s.recallTicks k.comp (xs.map far).flatten 0) ready
  let ys := xs.filter fun x => far x != []
  (ys != [], ys.foldl (fun (s : State) x => s.addRecall k x.1 h.first (hintPages h x.2) .pages false start ready tells) s)

/-- PIN (R249): refused when the pinned bytes would exceed PD 0x8006.CC; pinned pages that are not in topsoil are recalled. -/
def State.hintPin (s : State) (c : Nat) (h : Hint) : Option Status × State :=
  match s.hintStreams c h with
  | .inl st => (some st, s)
  | .inr (k, xs) =>
    let s' := xs.foldl (fun s x => s.setTpin k x.1 x.2 h true) s
    if s.pdNum 0x8006 c < s'.pinned c then (some .accessDenied, s) else (some .ok, (s'.recallRange k xs h none []).2)

/-- UNPIN (R249). -/
def State.hintUnpin (s : State) (c : Nat) (h : Hint) : Option Status × State :=
  match s.hintStreams c h with
  | .inl st => (some st, s)
  | .inr (k, xs) => (some .ok, xs.foldl (fun s x => s.setTpin k x.1 x.2 h false) s)

/-- PREFETCH (R250): the STATUS is written when the recall completes, or at once where nothing is away. -/
def State.hintPrefetch (s : State) (c : Nat) (h : Hint) (entry : Option Nat) : Option Status × State :=
  match s.hintStreams c h with
  | .inl st => (some st, s)
  | .inr (k, xs) =>
    let (any, s) := s.recallRange k xs h (some h.ready) (entry.toList.map fun a => (a, h.ready))
    (if any then none else some .ok, s)

/-- The context of a DORMANT or WAKE hint, which names no stream (R248). -/
def State.hintCtx (s : State) (c : Nat) (h : Hint) : Status ⊕ Ctx :=
  s.namedCtx (s.jobOf c) c h.ctx

/-- The pages of a stream in subsoil start to move to hardpan, as its context goes dormant (R244, R251): each is read through its lease and checked.
This is no migration, and takes nothing of the bytes of R256. -/
def State.subsoilAway (s : State) (k : Ctx) (stream : Nat) : State :=
  let t := ((k.strm? stream).elim [] fun x => x.pages.zipIdx).foldl (fun (s : State) p =>
    let d := p.1.desc
    if d.valid && !d.borrowed && d.tier == 1 && !s.movingFrame d then s.startMove k stream p.2 p.1 2 none else s) s
  { t with tier := { t.tier with moved := s.tier.moved, hwrote := s.tier.hwrote } }

/-- DORMANT (R251): the writes to hardpan begin; a composition without flash channels has nowhere to write. -/
def State.hintDormant (s : State) (c : Nat) (h : Hint) : Option Status × State :=
  match s.hintCtx c h with
  | .inl st => (some st, s)
  | .inr k =>
    if s.flashOf c = [] then (some .unsupported, s)
    else if k.dormant || k.going then (some .ok, s)
    else
      let s := s.setCtx k.job k.ctx fun k => { k with going := true }
      (some .ok, (k.streams.map fun x => k.idOf x.1).foldl (fun (s : State) n => s.subsoilAway k n) s)

/-- WAKE (R250, R252). -/
def State.hintWake (s : State) (c : Nat) (h : Hint) (entry : Option Nat) : Option Status × State :=
  match s.hintCtx c h with
  | .inl st => (some st, s)
  | .inr k =>
    if k.dormant || k.going then (none, s.wake k [] (some h.ready) (entry.toList.map fun a => (a, h.ready))) else (some .ok, s)

/-- Apply one hint (R248). -/
def State.hint (s : State) (c : Nat) (h : Hint) (entry : Option Nat) : Option Status × State :=
  match h.op with
  | 1 => s.hintPin c h
  | 2 => s.hintUnpin c h
  | 3 => s.hintPrefetch c h entry
  | 4 => s.hintDormant c h
  | 5 => s.hintWake c h entry
  | _ => (some .unsupported, s)

/-- Apply the entries of a hint ring from HEAD to TAIL − 1, in order (R247). -/
def State.hintRing (s : State) (c base size : Nat) : Nat → State
  | 0 => s
  | n + 1 =>
    let tail := s.loadNat base 4
    let head := s.loadNat (base + 8) 4
    if tail % 2 ^ 16 = head % 2 ^ 16 then s
    else
      let at_ := base + 64 + 32 * (head % size)
      let (st, s) := s.hint c (hintOf (s.load at_ 32)) (some (at_ + 1))
      let s := match st with
        | some st => s.store (at_ + 1) (leBytes 1 st.code)
        | none => s
      (s.store (base + 8) (leBytes 4 ((head + 1) % 2 ^ 16))).hintRing c base size n

/-- The node looks at a composition's hint ring (R247). DESIGN CHOICE (log entry 137): an NPA of 0, the entry's default, stands for no ring. -/
def State.readHints (s : State) (c : Nat) : State :=
  let base := s.pdNum 0x8010 c
  let size := s.pdNum 0x8011 c
  if base = 0 ∨ size = 0 ∨ !s.compServes c then s else s.hintRing c base size size

/-- TIER_HINT_DB (R247, R263): the new TAIL goes into the ring header, and the entries are applied. -/
def execTierHintDb (t c : Nat) (v : BitVec 32) (s : State) : Res :=
  let s := s.arrive t
  let base := s.pdNum 0x8010 c
  if !s.ready || base == 0 || !s.compServes c then .next s
  else .next ((s.store base (leBytes 4 (bitsOf v.toNat 0 16))).readHints c)

/-- A hint applied as the command of its kind, outside a ring. -/
def State.hintCommand (s : State) (c : Nat) (f : State → Option Status × State) : State :=
  if s.ready && s.compServes c then (f s).2 else s

/-- PIN (R249). -/
def execPin (t c : Nat) (h : Hint) (s : State) : Res := .next ((s.arrive t).hintCommand c fun s => s.hintPin c h)

/-- UNPIN (R249). -/
def execUnpin (t c : Nat) (h : Hint) (s : State) : Res := .next ((s.arrive t).hintCommand c fun s => s.hintUnpin c h)

/-- PREFETCH (R250). -/
def execPrefetch (t c : Nat) (h : Hint) (s : State) : Res := .next ((s.arrive t).hintCommand c fun s => s.hintPrefetch c h none)

/-- DORMANT (R251). -/
def execDormant (t c : Nat) (h : Hint) (s : State) : Res := .next ((s.arrive t).hintCommand c fun s => s.hintDormant c h)

/-- WAKE (R250, R252). -/
def execWake (t c : Nat) (h : Hint) (s : State) : Res := .next ((s.arrive t).hintCommand c fun s => s.hintWake c h none)

/-- The 512 entries of a table whose entry `i` names what a list gives it (R77). -/
def tableOf (entry : Nat → Option (Nat × Nat)) : List Byte :=
  ((List.range 512).map fun i => (entry i).elim (List.replicate 16 0) fun e => leBytes 8 (e.1 + 1) ++ leBytes 8 e.2).flatten

/-- The pages of a stream of a context that goes dormant are written to hardpan from topsoil, as PAGE records (R237, R251). Borrowed frames stay;
a page in subsoil whose move has failed stays there. -/
def State.pagesAway (s : State) (k : Ctx) (stream : Nat) : State :=
  match k.strm? stream with
  | none => s
  | some x => x.pages.zipIdx.foldl (fun (s : State) p =>
    let d := p.1.desc
    if d.valid && !d.borrowed && d.tier == 0 then
      let (a, s) := s.hardRecord k.comp 1 stream p.2 d.gen (storedBytes x d.packed ((s.frame? d.frame).elim [] (·.toks)))
      s.switchPlace k.job k.ctx stream p.2 2 s.nodeId (a / 16)
    else s) s

/-- The grain chunks and tables of a stream are written to hardpan, the level-3 tables first: GRAINS records of 128 grains, and TABLE records
whose entries name the records (R237, R251; log entry 148). The stream's places become theirs. -/
def State.tablesAway (s : State) (k : Ctx) (stream : Nat) : State :=
  match k.strm? stream with
  | none => s
  | some x =>
    let (l3, s) := x.l3.foldl (fun (a : Assoc L2Entry × State) e =>
      let (g, s) := a.2.hardRecords k.comp 2 stream 0
        ((List.range 4).map fun i => (512 * e.1 + 128 * i, a.2.load (e.2.grains + 8192 * i) 8192))
      let (n, s) := s.hardRecord k.comp 3 stream e.1 0 (s.load e.2.next 8192)
      (put a.1 e.1 { next := n, grains := g }, s)) ([], s)
    let (l2, s) := x.l2.foldl (fun (a : Assoc Nat × State) e =>
      let (n, s) := a.2.hardRecord k.comp 3 stream e.1 0 (tableOf fun i => (look l3 (512 * e.1 + i)).map fun t => (t.next, t.grains))
      (put a.1 e.1 n, s)) ([], s)
    let (l1, s) := s.hardRecord k.comp 3 stream 0 0 (tableOf fun i => (look l2 i).map fun n => (n, 0))
    (s.setStrm k.job k.ctx stream fun x => { x with l1, l2, l3 }).writeEntry k.job k.ctx stream

/-- What a context that has gone dormant no longer holds in topsoil (R251): its tables and grain chunks, as (NPA, bytes). -/
def Ctx.tableAreas (k : Ctx) : List (Nat × Nat) :=
  (k.streams.map fun x => (x.2.l1, 8192) :: (x.2.l2.map fun e => (e.2, 8192)) ++
    (x.2.l3.map fun e => [(e.2.next, 8192), (e.2.grains, 32768)]).flatten).flatten

/-- A context goes dormant (R251): pages, grains and tables to hardpan, its stream table as a record too, then the DORMANT bit; what they took
of topsoil is free from the next step boundary on (R81). -/
def State.sleep (s : State) (k : Ctx) : State :=
  let ns := k.streams.map fun x => k.idOf x.1
  let s := ns.foldl (fun (s : State) n => s.pagesAway k n) s
  let s := ns.foldl (fun (s : State) n => s.tablesAway k n) s
  let (a, s) := s.hardRecord k.comp 3 0 0 0 (((s.ctx? k.job k.ctx).elim [] Ctx.rootBytes).drop 64)
  let s := s.setCtx k.job k.ctx fun k => { k with dormant := true, going := false, strTab := a }
  let s := match s.ctx? k.job k.ctx with
    | none => s
    | some k => s.store k.root k.headerBytes
  (s.setPg fun g => { g with gone := g.gone ++ k.tableAreas }).countC k.comp 0x8050 3 1

/-- DORMANT_COMPLETE (R251, R262): the hardpan writes have completed, those of pages from subsoil among them, and every request of the context that
was admitted is complete. -/
def execDormantComplete (t job ctx : Nat) (s : State) : Res :=
  let s := s.arrive t
  match s.ctx? job ctx with
  | none => .next s
  | some k =>
    let busy := (s.rq.reqs.any fun r => r.job == job && r.req.env.ctx == ctx) || s.tier.moves.any fun m => m.job == job && m.ctx == ctx
    .next (if k.going && !busy then s.sleep k else s)

/-- RECALL_START (R250, R252, R456): the recall's moment has come, and a RECALL slot or slack takes it. In the third shedding stage none
starts. -/
def execRecallStart (t id : Nat) (s : State) : Res :=
  let s := s.arrive t
  match s.tier.recalls.find? fun r => r.id == id with
  | none => .next s
  | some r => .next (if s.recallDue r && s.recallTurn r.comp then s.beginRecall r else s)

/-- What a recall brings back (R252): its part of the stream. Pages of a PREFETCH come up to 5% above the watermark (R254). -/
def State.bringBack (s : State) (k : Ctx) (r : Recall) (stream : Nat) (x : Strm) : State :=
  let top := s.pdNum 0x8001 r.comp + 5
  let capped := !r.whole && r.ready.isSome
  match r.part with
  | .tables => s.tablesBack k stream
  | .grains => s.grainsBack k stream
  | .pages => ((x.pages.zipIdx.drop r.first).take r.count).foldl (fun (s : State) (p : Page × Nat) =>
      if r.bad.contains p.2 || (r.whole && p.1.desc.borrowed) || (capped && !s.useBelow r.comp top) then s
      else s.toTopsoil r.job r.ctx stream p.2) s

/-- Whether a recall's part of a stream is in topsoil now. -/
def State.isBack (s : State) (r : Recall) (stream : Nat) : Bool :=
  (s.strm? r.job r.ctx stream).elim false fun x => match r.part with
    | .tables => x.tablesHere
    | .grains => x.grainsHere
    | .pages => if r.whole then x.pages.all fun p => p.desc.borrowed || !p.desc.valid || p.desc.tier == 0 else s.away x r.first r.count == []

/-- STATUS of a hint entry whose recall has ended (R250): CONTRACT_BREACH where READY has passed or the range is not all resident (log entry
154), else OK once no other recall of the entry is left. -/
def State.tellEntry (s : State) (back : Bool) (e : Nat × Phase) : State :=
  if !back then
    let s := s.store e.1 (leBytes 1 Status.contractBreach.code)
    { s with tier := { s.tier with recalls := s.tier.recalls.map fun r => { r with tells := r.tells.filter fun x => x.1 != e.1 } } }
  else if s.tier.recalls.any fun r => r.tells.any fun x => x.1 == e.1 then s
  else s.store e.1 (leBytes 1 (if earlier e.2 s.phase then Status.contractBreach else .ok).code)

/-- RECALL_COMPLETE (R250, R252, R262): what could be read is in topsoil again. -/
def execRecallComplete (t id : Nat) (s : State) : Res :=
  let s := s.arrive t
  match s.tier.recalls.find? fun r => r.id == id with
  | none => .next s
  | some r =>
    let waits := s.inFlight fun p => match p with | .fetch a _ _ => a == id | _ => false
    if !r.active || waits || decide (3 ≤ s.pwr.stage) then .next s
    else
      let s := { s with tier := { s.tier with recalls := s.tier.recalls.filter fun x => x.id != id } }
      let stream := r.stream.getD 0
      let s := match s.ctx? r.job r.ctx, s.strm? r.job r.ctx stream with
        | some k, some x => s.bringBack k r stream x
        | _, _ => s
      let back := s.isBack r stream
      let s := s.settleDormant r.job r.ctx
      .next (r.tells.foldl (fun (s : State) e => s.tellEntry back e) s)

/-! ### Weight streaming (R257 to R261) -/

/-- A group as it is sent (R261): its header and its stored bytes, padded. -/
def State.groupMsg (s : State) (kind expert : Nat) (c : Cat) : List Byte :=
  leBytes 1 kind ++ [0] ++ leBytes 2 expert ++ leBytes 4 c.len ++ List.replicate 56 0 ++ padMul 64 (s.groupBytes c)

/-- A stream programme. -/
def State.prog (s : State) (nn : Nat) : Prog := Prog.ofBytes (s.pd.bytes 0x8040 nn)

/-- Whether a programme may send its model's groups: the model is released to its composition, with the destination in the list
(R395, R396). -/
def State.progAllowed (s : State) (p : Prog) : Bool :=
  (look s.sec.models p.model).elim false fun m => m.2.1 == p.comp && m.2.2.contains p.dnode

/-- The groups of a layer that a slot sends, in order (R260): kind, expert index, entry; whether there was no selection; and
whether what must be sent exceeds the slot's bytes. DESIGN CHOICE (log entries 173, 174): a record whose NSEL, or NSEL + NSPEC, is above 24 is
cut to 24 indices, and an expert or a group 0 whose catalogue entry has VALID = 0 is left out without a status. -/
def State.layerGroups (s : State) (p : Prog) (layer : Phase) (room fmt : Nat) : List (Nat × Nat × Cat) × Bool × Bool :=
  let l := phLayer layer
  let b := s.load (p.selnpa + 64 * (l % max 1 p.depth)) 64
  let hit := field b 0 8 == layer.toNat && field b 8 2 == p.model
  let exp (i : Nat) : Nat := field b (16 + 2 * i) 2
  let nsel := if hit then min 24 (field b 10 1) else 0
  let nspec := if hit then min (24 - nsel) (field b 11 1) else 0
  let must := ((List.range nsel).map fun i => (0, exp i, s.cat p.model l (exp i + 1))) ++ [(1, 0xFFFF, s.cat p.model l 0)]
  let must := must.filter fun x => x.2.2.valid
  let size (c : Cat) : Nat := 64 + up64 c.len
  let base := 64 + (must.map fun x => size x.2.2).sum
  let spec := (List.range nspec).foldl (fun (acc : List (Nat × Nat × Cat) × Nat) i =>
    let c := s.cat p.model l (exp (nsel + i) + 1)
    if c.valid && decide (acc.2 + size c ≤ room) && decide (c.tier ≤ fmt) then (acc.1 ++ [(2, exp (nsel + i), c)], acc.2 + size c)
    else acc) ([], base)
  (must ++ spec.1, !hit, decide (room < base))

/-- A streamed layer takes the step as its heat (R257). -/
def State.noteHeat (s : State) (model : Nat) (layer : Phase) : State :=
  let old := s.tier.lheat.filter fun h => !(h.1 == model && h.2.1 == phLayer layer)
  { s with tier := { s.tier with lheat := (model, phLayer layer, phStep layer + 1) :: old } }

/-- Stream the next layer of one programme in a WEIGHT_STREAM slot (R260, R261, R396). The header of a layer with groups in hardpan, whose STATUS
their reading may still change, goes last. -/
def State.streamLayer (s : State) (nn slot : Nat) (e : Slot) : State :=
  let p := s.prog nn
  let now := s.phase
  let l := phLayer now
  let layer := if l + 1 < s.layers then mkPhase (phStep now) (l + 1) 0 else mkPhase (phStep now + 1) 0 0
  let allowed := s.progAllowed p
  let (gs, nosel, exceeds) := if allowed then s.layerGroups p layer (64 * e.bytes) e.fmt else ([], false, false)
  let msgs := gs.map fun g => s.groupMsg g.1 g.2.1 g.2.2
  let fit := msgs.foldl (fun (acc : List (List Byte) × Nat × Bool) m =>
    if acc.2.2 || decide (p.dstride < acc.2.1 + m.length) then (acc.1, acc.2.1, true) else (acc.1 ++ [m], acc.2.1 + m.length, false))
    ([], 64, decide (p.dstride < 64))
  let st : Status := if !allowed then .accessDenied else if fit.2.2 then .unsupported else if exceeds then .contractBreach else .ok
  let buf := phLayer layer % max 1 p.depth
  let due := mkPhase (phStep now) l (e.start + e.span)
  let header := leBytes 1 st.code ++ leBytes 1 (flagAt nosel 0) ++ leBytes 2 p.model ++ leBytes 2 fit.1.length ++ [0, 0]
    ++ leBytes 8 layer.toNat ++ leBytes 8 fit.2.1 ++ List.replicate 40 0
  let base := p.dbase + buf * p.dstride
  let hard := gs.any fun g => g.2.2.tier == 2
  let head := if hard && decide (64 ≤ p.dstride) then some (base, header) else none
  let s := gs.foldl (fun (s : State) g => if g.2.2.tier = 2 then s.readChunks g.2.2.npa (recordCount g.2.2.len) else s) s
  let s := if nosel then s.countC p.comp 0x8050 6 1 else s
  let s := if exceeds then s.breach 2 (some slot) 5 p.comp 0 (s.jobOf p.comp) s.nodeId nn else s
  let send (s : State) (off : Nat) (b : List Byte) : State :=
    s.enqueue p.queue (mkWrite 2 p.dwin p.dwgen s.rmo.epoch 0 (base + off) b false (.weight nn) true due)
  let s := if p.dstride < 64 ∨ hard then s else send s 0 header
  let s := (fit.1.foldl (fun (acc : State × Nat) m => (send acc.1 acc.2 m, acc.2 + m.length)) (s, 64)).1
  let s := if !allowed then s else s.noteHeat p.model layer
  let limit := s.limitOf slot { cls := 5, comp := p.comp, fmt := e.fmt, bytes := fit.2.1 }
  let s := if allowed then s else { s with tier := { s.tier with stopped := nn :: s.tier.stopped } }
  let w : WStream := { nn, layer, nosel, hard, status := st, bytes := fit.2.1, limit, slot, due, cats := gs.map (·.2.2), head }
  { s with tier := { s.tier with wstr := w :: s.tier.wstr.filter fun x => x.nn != nn } }

/-- The work of a WEIGHT_STREAM slot (R260): the programmes of its composition. -/
def State.streamSlot (s : State) (slot : Nat) (e : Slot) : State :=
  let mine (nn : Nat) : Bool := (s.prog nn).enable && (s.prog nn).comp == e.comp && !s.tier.stopped.contains nn
  ((List.range 64).filter mine).foldl (fun s nn => s.streamLayer nn slot e) s

/-- WEIGHT_STREAM_DONE (R261): the layer's groups have landed; the header, where it has waited, and the flag word follow. A read that took longer than the bound makes
the status CONTRACT_BREACH (R260). In the third shedding stage hardpan reads stand (R262). -/
def execWeightStreamDone (t nn : Nat) (s : State) : Res :=
  let s := s.arrive t
  match s.tier.wstr.find? fun w => w.nn == nn with
  | none => .next s
  | some w =>
    if (s.inFlight fun p => p == .weight nn) || (w.hard && decide (3 ≤ s.pwr.stage)) then .next s
    else
      let p := s.prog nn
      let past := (s.ticksTo w.limit (s.tickOf s.phase)).toNat
      let late := w.hard && decide (0 < past)
      let s := if late then s.breach 6 (some w.slot) 5 p.comp past (s.jobOf p.comp) s.nodeId nn else s
      let st : Status := if late && w.status == .ok then .contractBreach else w.status
      let flag := flagWord (BitVec.ofNat 56 (w.layer.toNat / 2 ^ 16)) st
      let s := { s with tier := { s.tier with wstr := s.tier.wstr.filter fun x => x.nn != nn } }
      let s := w.head.elim s fun h => s.enqueue p.queue (mkWrite 2 p.dwin p.dwgen s.rmo.epoch 0 h.1 (leBytes 1 st.code ++ h.2.drop 1) false
        (.weight nn) true w.due)
      .next (s.enqueue p.queue (mkWrite 2 p.dwin p.dwgen s.rmo.epoch 0 (p.fbase + 8 * (phLayer w.layer % max 1 p.depth))
        (leBytes 8 flag.toNat) true (.weight nn) true w.due))

end Sys2Proof.Machine
end

