-- ==== Sys2Proof/Machine/Comps.lean ====
section
/-! DEFINITION. Compositions (13): commits and their activation, relocation, release, teardown, handoff between nodes, and
metering. -/

namespace Sys2Proof.Machine

/-! ### Metering (R372) -/

/-- Charge a composition for its slices and flash channels up to now, in whole µs of the local timer (R372). -/
def State.charge (s : State) (c : Nat) : State :=
  match s.comp? c with
  | none => s
  | some k =>
    if k.st ≠ .active ∧ k.st ≠ .shrinking then s
    else
      let n := (s.timer - k.since) / us
      let s := s.countBy 0x5040 c (n * (s.slicesOf c).length)
      let s := s.countBy 0x5041 c (n * (s.flashOf c).length)
      s.setComp c fun k => { k with since := k.since + n * us }

/-- Charge every composition. -/
def State.chargeAll (s : State) : State := (List.range 16).foldl (fun s c => s.charge c) s

/-- Charge tile time to a composition (R372, PD 0x5042.CC): `n` tiles for a time of the local timer. -/
def State.chargeTiles (s : State) (c n time : Nat) : State :=
  match s.comp? c with
  | none => s
  | some k =>
    let all := k.busyRem + n * time
    (s.countBy 0x5042 c (all / us)).setComp c fun k => { k with busyRem := all % us }

/-- METERING_PERSIST (R372, R374): at every 1 s of the local timer the metering counters are stored. -/
def State.meterPersist (s : State) : State :=
  let s := s.chargeAll
  let keys := ((List.range 16).map fun c => [(0x5040, c), (0x5041, c), (0x5042, c), (0x5043, c)]).flatten
  keys.foldl (fun s k =>
    let n := s.pd.count k.1 k.2
    if n = 0 ∧ !(s.pd.stored.any fun v => v.1 == k.1 && v.2.1 == k.2) then s
    else { s with pd := { s.pd with stored :=
      (k.1, k.2, leBytes (if k.1 = 0x5043 then 4 else 8) n) :: s.pd.stored.filter fun v => !(v.1 == k.1 && v.2.1 == k.2) } }) s

/-- METERING_PERSIST. -/
def execMeteringPersist (t : Nat) (s : State) : Res :=
  let s := s.arrive t
  .next (if s.ready then s.meterPersist else s)

/-! ### Validation of a commit (R355, R356) -/

/-- The descriptor of a composition as it will stand after the commit's activation (R356). -/
def State.after (s : State) (c : Nat) : Option CompDesc :=
  match look s.cmp.staged c with
  | some d => if d.exst then some d else none
  | none => (s.comp? c).bind fun k => if k.st = .free ∨ k.st = .releasing then none else some k.desc

/-- The ways of a quadrant in a descriptor (R353). -/
def CompDesc.quadWays (d : CompDesc) (q : Nat) : Nat := bitsOf d.ways.toNat (16 * q) 16

/-- Whether R352 holds: ways exactly in the quadrants where it holds a tile. -/
def CompDesc.waysOk (d : CompDesc) : Bool :=
  (List.range 4).all fun q => (bitsOf d.slices.toNat (12 * q) 12 == 0) == (d.quadWays q == 0)

/-- Two descriptors overlap in a resource (check 1). -/
def CompDesc.overlaps (a b : CompDesc) : Bool :=
  (a.slices &&& b.slices) != 0 || (a.flash &&& b.flash) != 0 || (a.ways &&& b.ways) != 0 || a.vf == b.vf ||
  (decide (a.qbase < b.qbase + b.qcount) && decide (b.qbase < a.qbase + a.qcount))

/-- Check 1 for a composition. -/
def State.check1 (s : State) (c : Nat) (d : CompDesc) : Bool :=
  !d.waysOk || decide (8192 < d.qbase + d.qcount) || d.job == 0 || d.vf == 0 || decide (16 < d.vf) ||
  (List.range 16).any fun e => e != c && (s.after e).elim false fun x => d.overlaps x

/-- Whether a slice may be granted: it belongs to no composition, is not being zeroised, and is in service (R360, R371). -/
def State.sliceIsFree (s : State) (n : Nat) : Bool :=
  !(s.cmp.busySlices.contains n) && !(s.cmp.badSlices.contains n) && !(s.cmp.comps.any fun k => bitAt k.2.desc.slices.toNat n) &&
    !(s.pd.bytes 0x8031 0 != [] && (List.range 32).any fun i => s.lentPc (32 * n + i))

/-- Whether a flash channel may be granted. -/
def State.flashIsFree (s : State) (n : Nat) : Bool :=
  !(s.cmp.busyFlash.contains n) && !(s.cmp.comps.any fun k => bitAt k.2.desc.flash.toNat n)

/-- Check 2 for a composition: something granted is not FREE; an ID still being released is not either. -/
def State.check2 (s : State) (c : Nat) (d : CompDesc) : Bool :=
  let old := (s.comp? c).elim CompDesc.empty (·.desc)
  ((List.range 48).any fun n => bitAt d.slices.toNat n && !bitAt old.slices.toNat n && !s.sliceIsFree n) ||
  ((List.range 32).any fun n => bitAt d.flash.toNat n && !bitAt old.flash.toNat n && !s.flashIsFree n) ||
  (s.comp? c).elim false fun k => k.st == .releasing

/-- A queue that is in use: enabled, or with messages waiting or outstanding (check 4). -/
def State.queueBusy (s : State) (q : Nat) : Bool :=
  (s.queue q).en || s.queued q != [] || (s.sendEnt q).outst != []

/-- Check 4: a queue leaves the composition while in use. -/
def State.check4 (s : State) (c : Nat) : Bool :=
  (s.comp? c).elim false fun k =>
    (s.egq.qs.map (·.1)).any fun q => decide (k.desc.qbase ≤ q) && decide (q < k.desc.qbase + k.desc.qcount) && s.queueBusy q &&
      !((s.after c).elim false fun d => decide (d.qbase ≤ q) && decide (q < d.qbase + d.qcount))

/-- The step for which the pending bank of the slot table was committed (R47). -/
def SchedSt.step (c : SchedSt) : Nat := c.stepHi * 2 ^ 32 + c.stepLo.toNat

/-- The valid entries of the slot table that will be active at a step (check 5). -/
def State.tableAt (s : State) (step : Nat) : List (Nat × Slot) :=
  let b := if s.sch.pending ∧ !laterStep s.sch.step step then 1 - s.sch.bank else s.sch.bank
  let n := if b = 0 then s.sch.act0 else s.sch.act1
  (s.sch.bankOf b).filter fun e => decide (e.1 < n) && e.2.valid

/-- Check 5: the slot table names a tile of a composition that it will not hold. -/
def State.check5 (s : State) (c : Nat) : Bool :=
  let held := (s.after c).elim 0 (·.slices)
  (s.tableAt s.cmp.cstep).any fun e => e.2.comp == c && (e.2.tiles &&& ~~~held) != 0

/-- The W-slices of a set (R350). -/
def hasW (slices : BitVec 48) : Bool := (List.range 48).any fun n => bitAt slices.toNat n && decide (n / 2 % 3 = 0)

/-- Check 6: contexts or corpora without a W-slice. -/
def State.check6 (s : State) (c : Nat) : Bool :=
  (s.after c).elim false fun d => !hasW d.slices &&
    ((s.pg.ctxs.any fun k => k.comp == c) || s.rq.corpora.any fun k => k.comp == c)

/-- Check 7: the topsoil use of a shrinking composition exceeds its high watermark of what it keeps. -/
def State.check7 (s : State) (c : Nat) : Bool :=
  match s.comp? c, s.after c with
  | some k, some d =>
    let kept := (List.range 48).filter fun n => bitAt d.slices.toNat n && bitAt k.desc.slices.toNat n
    decide (kept.length < (s.slicesOf c).length) && decide (s.pdNum 0x8001 c * (kept.length * 2 ^ 35) < s.topsoil c * 100)
  | _, _ => false

/-- Check 8: the job changes while the composition exists. -/
def State.check8 (s : State) (c : Nat) : Bool :=
  match s.comp? c, s.after c with
  | some k, some d => k.st != .free && k.st != .releasing && k.desc.job != d.job
  | _, _ => false

/-- A check over the compositions: the lowest that fails it. -/
def firstFail (p : Nat → Bool) : Option Nat := (List.range 16).find? p

/-- The checks of R356 in order: the number of the first that fails, the composition and the status. Where a check concerns the
node as a whole the composition reads 0. -/
def State.commitCheck (s : State) : Option (Nat × Nat × Status) :=
  let on (f : Nat → CompDesc → Bool) : Option Nat := firstFail fun c => (s.after c).elim false (f c)
  let links := ((List.range 16).map fun c => (s.after c).elim 0 (·.link)).sum
  match on s.check1 with
  | some c => some (1, c, .unsupported)
  | none => match on s.check2 with
    | some c => some (2, c, .busyConflict)
    | none =>
      if 1600000 < links + s.pdNum 0x5003 0 then some (3, 0, .unsupported)
      else match on fun c d => decide (d.link < s.rateSum c) with
        | some c => some (3, c, .unsupported)
        | none => match firstFail s.check4 with
          | some c => some (4, c, .busyConflict)
          | none => match firstFail s.check5 with
            | some c => some (5, c, .busyConflict)
            | none => match firstFail s.check6 with
              | some c => some (6, c, .unsupported)
              | none => match firstFail s.check7 with
                | some c => some (7, c, .unsupported)
                | none => match firstFail s.check8 with
                  | some c => some (8, c, .unsupported)
                  | none =>
                    if !laterStep s.cmp.cstep s.step then some (9, 0, .contractBreach)
                    else if s.cmp.hand.isSome then some (10, 0, .busyConflict) else none

/-- Refuse a commit: its descriptors are discarded and the status names why (R355). -/
def State.refuseCommit (s : State) (check comp : Nat) (st : Status) : State :=
  { s with cmp := { s.cmp with validating := false, staged := [], cstatus := st, cfail := comp, ccheck := check } }

/-- COMMIT (R355): the activation step is written to PD 0x5001.00, and validation of every pending descriptor starts. It is
refused while another commit validates or waits (check 10), while PWR_CTL.IDLE is 1 (R460) and during orderly power-down
(R523). -/
def execCommit (t step : Nat) (s : State) : Res :=
  let s := s.arrive t
  if !s.ready then .next s
  else if s.pwr.idle ∨ s.pwr.off ∨ s.cmp.validating ∨ s.cmp.pending then
    .next { s with cmp := { s.cmp with pend := [], cstatus := .busyConflict, cfail := 0,
                                       ccheck := if s.cmp.validating ∨ s.cmp.pending then 10 else 0 } }
  else
    .next { s with cmp := { s.cmp with validating := true, staged := s.cmp.pend, pend := [], cstep := step % 2 ^ 36, cstatus := .ok,
                                       cfail := 0, ccheck := 0 } }

/-- Slices that a composition is losing to the commit in force (R358): none of one whose EXISTS it clears, which is released. -/
def State.leaving (s : State) (c : Nat) : List Nat :=
  match look s.cmp.staged c with
  | some d => if s.cmp.pending && d.exst then (s.slicesOf c).filter fun n => !bitAt d.slices.toNat n else []
  | none => []

/-- COMMIT_VALIDATION_DONE (R355, R356, R358): the descriptors wait for their step, and a composition that loses a slice is
SHRINKING; or all are refused. -/
def execCommitValidationDone (t : Nat) (s : State) : Res :=
  let s := s.arrive t
  if !s.cmp.validating then .next s
  else match s.commitCheck with
    | some (n, c, st) => .next (s.refuseCommit n c st)
    | none =>
      let s := { s with cmp := { s.cmp with validating := false, pending := true } }
      .next ((s.cmp.staged.map (·.1)).foldl (fun s c =>
        if s.leaving c = [] then s else s.setComp c fun k => if k.st = .active then { k with st := .shrinking } else k) s)

/-! ### Relocation (R358) -/

/-- Whether an HBM address lies in one of a list of slices. -/
def inSlices (l : List Nat) (a : Nat) : Bool := isHbm a && l.contains (sliceOf a)

/-- The pages of a composition whose frames lie in slices that it is losing. -/
def State.pagesLeaving (s : State) (c : Nat) : List (Ctx × Nat × Nat × Page) :=
  let l := s.leaving c
  (s.compPages c).filter fun y =>
    let d := s.homeOf y.2.2.2
    d.valid && d.tier == 0 && inSlices l (16 * d.addr)

/-- Bytes of a context's structures in leaving slices: its root, tables, grain chunks and silt lines. -/
def Ctx.leavingBytes (k : Ctx) (l : List Nat) : Nat := ((k.areas.filter fun a => inSlices l a.1).map (·.2)).sum

/-- Bytes of a corpus's root and segments in leaving slices. -/
def Corpus.leavingBytes (k : Corpus) (l : List Nat) : Nat :=
  (if inSlices l k.root then 8192 else 0) +
    (k.segs.map fun g => (if g.tier == 0 && g.chans.any (fun p => inSlices l (p * 2 ^ 31)) then 32768 else 0)
      + (if inSlices l g.reca then 16384 else 0) + (if inSlices l g.tmba then 16384 else 0)).sum

/-- Whether a structure of a composition lies in a leaving slice (R358). -/
def State.structLeaving (s : State) (c : Nat) : Bool :=
  let l := s.leaving c
  (s.pg.ctxs.any fun k => k.comp == c && decide (0 < k.leavingBytes l)) || s.rq.corpora.any fun k => k.comp == c && decide (0 < k.leavingBytes l)

/-- Relocation has ended (R358). -/
def State.relocated (s : State) (c : Nat) : Bool := s.pagesLeaving c == [] && !s.structLeaving c

/-- Give an address in a leaving slice a new place among those the composition keeps. -/
def State.moveAddr (s : State) (c align : Nat) (l : List Nat) (a : Nat) : Nat × State :=
  if inSlices l a then s.place ((s.allocPcs c).headD 0) align else (a, s)

/-- Move the level-2 tables of a list out of leaving slices. -/
def State.moveL2 (s : State) (c : Nat) (l : List Nat) : Assoc Nat → Assoc Nat × State
  | [] => ([], s)
  | (i, a) :: rest =>
    let (a, s) := s.moveAddr c 8192 l a
    let (rest, s) := s.moveL2 c l rest
    ((i, a) :: rest, s)

/-- Move the level-3 tables and grain chunks of a list out of leaving slices; a chunk stays in a W-stack (R73). -/
def State.moveL3 (s : State) (c : Nat) (l : List Nat) : Assoc L2Entry → Assoc L2Entry × State
  | [] => ([], s)
  | (i, e) :: rest =>
    let (next, s) := s.moveAddr c 8192 l e.next
    let w := ((s.allocPcs c).filter isW).headD ((s.allocPcs c).headD 0)
    let (grains, s) := s.placeOr (if inSlices l e.grains then none else some e.grains) w 32768
    let (rest, s) := s.moveL3 c l rest
    ((i, { next, grains }) :: rest, s)

/-- Move the root, tables, grain chunks and silt lines of a context out of leaving slices. -/
def State.moveCtx (s : State) (c : Nat) (l : List Nat) (k : Ctx) : State :=
  let (root, s) := s.moveAddr c 8192 l k.root
  let (xs, s) := k.streams.foldl (fun (acc : Assoc Strm × State) x =>
    let (l1, s) := acc.2.moveAddr c 8192 l x.2.l1
    let (siltAt, s) := s.moveAddr c 32768 l x.2.siltAt
    let (l2, s) := s.moveL2 c l x.2.l2
    let (l3, s) := s.moveL3 c l x.2.l3
    (acc.1 ++ [(x.1, { x.2 with l1, siltAt, l2, l3 })], s)) ([], s)
  let s := s.setCtx k.job k.ctx fun k => { k with root, streams := xs }
  let s := s.writeCtx { k with root, streams := xs }
  s.adirUpdate 0 (ctxKey k.job k.ctx) [BitVec.ofNat 64 (fieldAt (root / 64) 46 6 + fieldAt c 4 0)]

/-- Give an area of a size in a leaving slice a new place. -/
def State.moveArea (s : State) (c : Nat) (l : List Nat) (a size : Nat) : Nat × State :=
  if inSlices l a then s.placeArea c 64 size else (a, s)

/-- Move the areas of segments out of leaving slices; a topsoil array moves whole, to channels that stay (R159). -/
def State.moveSegs (s : State) (c : Nat) (l : List Nat) (k : Corpus) : List Seg → List Seg × State
  | [] => ([], s)
  | g :: gs =>
    let away := g.tier == 0 && g.chans.any fun p => inSlices l (p * 2 ^ 31)
    let chans := if away then s.takeWays c k.skb [] { cap := g.cap, tier := 0, ways := g.ways } else g.chans
    let (ska, s) := if away then s.placeArray chans (wayBytes k.skb g.cap g.ways) else (g.ska, s)
    let (reca, s) := s.moveArea c l g.reca (g.cap * strideOf k.dim k.vfmt)
    let (tmba, s) := s.moveArea c l g.tmba ((g.cap + 7) / 8)
    let (gs, s) := s.moveSegs c l k gs
    ({ g with ska, chans, reca, tmba } :: gs, s)

/-- Whether two values name one corpus, deleted or not. -/
def Corpus.same (a b : Corpus) : Bool := a.root == b.root && a.job == b.job && a.ctx == b.ctx && a.dead == b.dead

/-- The places of a corpus that has moved, with the records of an earlier state of it: a search under way reads what it saw at dispatch
(R171). -/
def Corpus.movedTo (old new : Corpus) : Corpus :=
  let place (a b : Seg) : Seg := { a with ska := b.ska, chans := b.chans, reca := b.reca, tmba := b.tmba }
  { old with root := new.root, segs := List.zipWith place old.segs new.segs }

/-- Move the root and segments of a corpus out of leaving slices: the copies, then the directory entry that names the root (R225). A deleted
corpus has no entry, and searches that run go on in the new place (R162). -/
def State.moveCorpus (s : State) (c : Nat) (l : List Nat) (k : Corpus) : State :=
  let (root, s) := if inSlices l k.root then s.placeArea c 64 (64 + 32 * k.segs.length) else (k.root, s)
  let (gs, s) := s.moveSegs c l k k.segs
  let k' : Corpus := { k with root, segs := gs }
  let snap (x : Search) : Search :=
    { x with snap := x.snap.map fun y => if y.root = k.root ∧ y.job = k.job ∧ y.ctx = k.ctx then y.movedTo k' else y }
  let s := { s with rq := { s.rq with corpora := mapIf k.same (fun _ => k') s.rq.corpora, searches := s.rq.searches.map snap } }
  let s := gs.foldl (fun (s : State) g =>
    (s.writeRecs k' g 0 g.recs (if g.tier = 0 then g.sks else [])).writeTombs g 0 g.recs.length) s
  let s := s.writeRoot k'
  if k.dead then s
  else s.adirUpdate 0 (ctxKey k.job k.ctx) [BitVec.ofNat 64 (fieldAt (root / 64) 46 6 + fieldAt c 4 0 + flagAt true 4)]

/-- Relocated bytes count against what the step allows (R358). -/
def State.noteReloc (s : State) (c n : Nat) : State := { s with cmp := { s.cmp with reloc := put s.cmp.reloc c (lookD s.cmp.reloc c 0 + n) } }

/-- Copy a piece of what lies at a root, as much as the step's bytes allow; whether its last byte is copied now (R358; log entry 186). -/
def State.copyPart (s : State) (c root n : Nat) : Bool × State :=
  let used := lookD s.cmp.reloc c 0
  let part := match look s.cmp.relocPart c with
    | some (r, b) => if r = root then min b n else 0
    | none => 0
  let now := min (s.pdNum 0x5007 c - used) (n - part)
  let s := s.noteReloc c now
  if part + now = n then (true, { s with cmp := { s.cmp with relocPart := drop s.cmp.relocPart c } })
  else (false, { s with cmp := { s.cmp with relocPart := put s.cmp.relocPart c (root, part + now) } })

/-- A relocation quantum (R358): one frame, or, once no frame is left, the structures of one context or corpus, which move when the last of
their bytes has been copied; within the bytes of the step. -/
def State.relocate (s : State) (c : Nat) : State :=
  let l := s.leaving c
  match s.pagesLeaving c with
  | (k, stream, page, p) :: _ =>
    let d := s.homeOf p
    if s.pdNum 0x5007 c < lookD s.cmp.reloc c 0 + 64 * d.clen then s
    else
      let pcs := s.allocPcs c
      let (npa, s) := s.place (pcs.getD (page % max 1 pcs.length) 0) 512
      (s.switchPlace k.job k.ctx stream page 0 s.nodeId (npa / 16)).noteReloc c (64 * d.clen)
  | [] =>
    match s.pg.ctxs.find? fun k => k.comp == c && decide (0 < k.leavingBytes l) with
    | some k =>
      let (whole, s) := s.copyPart c k.root (k.leavingBytes l)
      if whole then s.moveCtx c l k else s
    | none =>
      match s.rq.corpora.find? fun k => k.comp == c && decide (0 < k.leavingBytes l) with
      | some k =>
        let (whole, s) := s.copyPart c k.root (k.leavingBytes l)
        if whole then s.moveCorpus c l k else s
      | none => s

/-! ### Stopping a composition (R370, R397) -/

/-- End the context operations of a composition that wait at their tiles or for a mirror (R370). -/
def State.endOps (s : State) (c : Nat) (st : Status) : State :=
  let mine (p : PendOp) : Bool := (s.sourceOf p.src).2 == c
  let waits := (s.pg.mirr.filter fun m => m.comp == c).map (·.op)
  let ops := (s.pg.opq.filter mine) ++ waits
  let acks := s.pg.acks.filter fun a => (s.sourceOf a.src).2 == c
  let s := s.setPg fun g =>
    { g with opq := g.opq.filter fun p => !mine p,
             mirr := g.mirr.filter fun m => m.comp != c,
             acks := g.acks.filter fun a => (s.sourceOf a.src).2 != c }
  let s := ops.foldl (fun s p => s.endOp p.src p.req.env p.queue p.req.op st 0 false) s
  acks.foldl (fun s a => s.endOp a.src a.env a.queue a.op st 0 false) s

/-- The pages of a flash channel whose chunks are gone are stale, and their blocks may be erased in the background (R239, R397). -/
def Flash.abandon (f : Flash) : Flash :=
  { f with blocks := f.blocks.map fun b => (b.1, { b.2 with stale := b.2.stale + b.2.live, live := 0, isOpen := false }) }

/-- The contexts, corpora, frames and hardpan records of a composition are gone, and a rebuild into it stops (R370, R397, R441). -/
def State.forgetData (s : State) (c : Nat) : State :=
  let keys := (s.pg.ctxs.filter fun k => k.comp == c).map fun k => (k.job, k.ctx)
  let corp := (s.rq.corpora.filter fun k => k.comp == c).map fun k => (k.job, k.ctx)
  let s := (keys ++ corp).foldl (fun s k => s.adirRemove 0 (ctxKey k.1 k.2)) s
  let s := (s.flashOf c).foldl (fun s n => s.setFlash n (s.flash n).abandon) s
  let gone := (s.pg.frames.filter fun f => f.2.comp == c).map (·.1)
  let s := s.setPg fun g => { g with
    ctxs := g.ctxs.filter fun k => k.comp != c, frames := g.frames.filter fun f => f.2.comp != c,
    freed := g.freed.filter fun k => !gone.contains k, free := g.free.filter fun k => !gone.contains k,
    pool := g.pool.filter fun e => e.2.comp != c, fwd := g.fwd.filter fun f => !keys.contains (f.2.job, f.2.ctx) }
  { s with rel := { s.rel with pframes := s.rel.pframes.filter fun x => x.comp != c,
                               pendPages := s.rel.pendPages.filter fun x => x.1 != c,
                               pieces := s.rel.pieces.filter fun x => !keys.contains (x.job, x.ctx),
                               rslots := s.rel.rslots.filter fun x => x.comp != c,
                               rebuilding := s.rel.rebuilding.filter fun x => x.1 != c,
                               acts := s.rel.acts.filter fun a => !(a.act == 6 && a.subj == c && a.self) },
           rq := { s.rq with corpora := s.rq.corpora.filter fun k => k.comp != c },
           tier := { s.tier with recalls := s.tier.recalls.filter fun r => r.comp != c,
                                 moves := s.tier.moves.filter fun m => !keys.contains (m.job, m.ctx),
                                 gmoves := s.tier.gmoves.filter fun m => m.comp != c,
                                 attended := s.tier.attended.filter fun a => !keys.contains (a.1, a.2.1),
                                 chunks := s.tier.chunks.filter fun k => k.comp != c,
                                 wstr := s.tier.wstr.filter fun w => (s.prog w.nn).comp != c,
                                 demoting := s.tier.demoting.filter (· != c) } }

/-- NMU operations in the channels of a composition abort (R215, R370). -/
def State.nmuStop (s : State) (c : Nat) : State :=
  (s.slicesOf c).foldl (fun s n =>
    if n / 2 % 3 = 0 then (List.range 16).foldl (fun s i => s.nmuDrop (n / 6) (16 * (n % 2) + i)) s else s) s

/-- The commit in force is discarded (R373). -/
def State.dropCommit (s : State) (c : Nat) (st : Status) : State :=
  let s := { s with cmp := { s.cmp with validating := false, pending := false, staged := [], cstatus := st, cfail := c, ccheck := 0 } }
  (List.range 16).foldl (fun s e => s.setComp e fun k => if k.st = .shrinking then { k with st := .active } else k) s

/-- The envelope of the request behind a mailbox, while it is in the node. -/
def State.boxEnv (s : State) (vf n : Nat) : Option Envelope :=
  let own (src : Source) : Bool := src == .doorbell vf n
  (((s.rq.reqs.filter fun r => own r.src).map (·.req.env)) ++ ((s.rq.searches.filter fun r => own r.src).map (·.req.env)) ++
    ((s.pg.opq.filter fun p => own p.src).map (·.req.env))).head?

/-- The BUSY mailboxes of a function become READY with a status and no result (R489). -/
def State.closeBoxes (s : State) (vf : Nat) (st : Status) : State :=
  ((s.vf vf).mbx.filter fun b => b.2.st == .busy).foldl (fun s b =>
    match s.boxEnv vf b.1 with
    | some e => s.mbxReady vf b.1 st e.tag (flagWord e.fval st) 0
    | none => s.mbxReady vf b.1 st 0 (flagWord 0 st) 0) s

/-- Stop a composition with a status (R370, R397): requests, NMU work, queues, channels and windows end; its data goes; a handoff
from it ends. -/
def State.dissolve (s : State) (c : Nat) (st : Status) (cause : TearCause) : State :=
  let s := s.charge c
  let s := if (s.comp? c).any fun k => k.st == .shrinking then s.dropCommit c st else s
  let s := s.setComp c fun k => { k with st := .tearing, cause := some cause }
  let s := s.closeBoxes ((s.comp? c).elim 0 (·.desc.vf)) st
  let s := s.endAll (fun _ comp => comp == c) st
  let s := s.endOps c st
  let s := if s.cmp.hand.any fun h => h.comp == c then { s with cmp := { s.cmp with hand := none, hstatus := st } } else s
  let s := s.nmuStop c
  let s := s.stopDma c st
  let s := s.stopQueues c st
  let s := s.revokeAll c
  s.forgetData c

/-- Zeroise the memory and ways of a composition (R370, R397). -/
def State.zeroiseComp (s : State) (c : Nat) : State :=
  let s := (s.slicesOf c).foldl (fun s n => s.zeroise (n * 2 ^ 35) (2 ^ 35)) s
  { s with hbm := { s.hbm with lines := s.hbm.lines.filter fun l => l.2.1 != c } }

/-- Tear a composition down (R369, R370): only one in service; one that a removal already stops waits for it (R373). -/
def State.teardown (s : State) (c : Nat) : State :=
  match s.comp? c with
  | none => s
  | some k =>
    if k.st = .active ∨ k.st = .shrinking then
      let s := s.count 0x5043 c
      let s := s.dissolve c .faultTorndown .fault
      s.event { cls := 7, code := 1, subj := s.nodeId, comp := some c, job := k.desc.job, detail := [2, (s.ringCfg c).elim 0 fun g => BitVec.ofNat 8 g.rank] }
    else if k.st = .tearing then s.setComp c fun k => if k.cause = some .fault then k else { k with next := some .fault }
    else s

/-- FORCE_TEARDOWN (R369): a write of 1 to PD 0x5006.CC. -/
def execForceTeardown (t c : Nat) (s : State) : Res :=
  let s := s.arrive t
  .next (if s.ready then s.teardown c else s)

/-- TEARDOWN_COMPLETE (R370): zeroisation has ended, and the composition is TORNDOWN. The teardown's other steps are done. While
the Security Core is down its zeroisation stands (R401). -/
def execTeardownComplete (t c : Nat) (s : State) : Res :=
  let s := s.arrive t
  match s.comp? c with
  | none => .next s
  | some k =>
    if k.st = .tearing ∧ k.cause = some .fault ∧ s.sec.up then
      .next ((s.zeroiseComp c).setComp c fun k => { k with st := .torndown })
    else .next s

/-! ### Release (R360) -/

/-- The windows of a composition are closed and no operation admitted to one is left. -/
def State.windowsDrained (s : State) (c : Nat) : Bool :=
  !((List.range 16).any fun b =>
    let k := s.adirBank b
    k.cls == 1 && k.entries.any fun e =>
      (Win.ofUnits e.2).comp == c && s.winOps (e.1 / 2 ^ 14) (e.1 % 2 ^ 14) != [])

/-- A composition in RELEASING is FREE once its slices and flash channels are, and its windows have drained (R360). -/
def State.settleFree (s : State) : State :=
  let done := s.cmp.comps.filter fun k => k.2.st == .releasing &&
    !((s.slicesOf k.1).any fun n => s.cmp.busySlices.contains n) && !((s.flashOf k.1).any fun n => s.cmp.busyFlash.contains n) &&
    s.windowsDrained k.1
  { s with cmp := { s.cmp with comps := s.cmp.comps.filter fun k => !(done.any fun d => d.1 == k.1) } }

/-- Flash channels begin to be erased, as released ones are (R360). -/
def State.eraseFlash (s : State) (l : List Nat) : State :=
  let s := l.foldl (fun s n => s.setFlash n { s.flash n with erasing := true, owner := none }) s
  { s with cmp := { s.cmp with busyFlash := (s.cmp.busyFlash ++ l).dedup } }

/-- Slices begin to be zeroised; what was free or freed in them is forgotten (R360). -/
def State.clearSlices (s : State) (l : List Nat) : State :=
  let out (k : Nat) : Bool := (s.frame? k).elim false fun f => l.contains (f.pc / 32)
  let s := s.setPg fun g => { g with free := g.free.filter fun k => !out k }
  { s with cmp := { s.cmp with busySlices := (s.cmp.busySlices ++ l).dedup } }

/-- The models released to a composition are released no more: their keys are cleared (R397). -/
def State.clearModels (s : State) (c : Nat) : State :=
  { s with sec := { s.sec with models := s.sec.models.filter fun m => m.2.2.1 != c } }

/-- Release a composition whose EXISTS an activation has cleared (R360). -/
def State.release (s : State) (c : Nat) : State :=
  let s := s.charge c
  let s := s.endAll (fun _ comp => comp == c) .staleGen
  let s := s.endOps c .staleGen
  let s := (s.pg.ctxs.filter fun k => k.comp == c).foldl (fun s k => s.removeCtx k.job k.ctx) s
  let s := s.revokeAll c
  let s := s.forgetData c
  let s := s.clearModels c
  let s := s.clearSlices (s.slicesOf c)
  let s := s.eraseFlash (s.flashOf c)
  let s := (List.range 128).foldl (fun s n => if s.pdNum 0x4301 n = c then s.pdSetNum 0x4301 n 0x10 else s) s
  let s := { s with hbm := { s.hbm with lines := s.hbm.lines.filter fun l => l.2.1 != c,
                                        waysNext := (List.range 4).foldl (fun m q => put m (16 * q + c) 0) s.hbm.waysNext } }
  s.setComp c fun k => { k with st := .releasing }

/-- SLICE_FREE (R360): the memory of a slice is zeroised, and the slice is FREE. Zeroisation stands in the fifth shedding stage
and above (R463), and while the Security Core is down. -/
def execSliceFree (t n : Nat) (s : State) : Res :=
  let s := s.arrive t
  if !(s.cmp.busySlices.contains n) || !s.sec.up || decide (5 ≤ s.pwr.stage) then .next s
  else
    let s := s.zeroise (n * 2 ^ 35) (2 ^ 35)
    .next { s with cmp := { s.cmp with busySlices := s.cmp.busySlices.filter (· != n) } }.settleFree

/-- FLASH_CHANNEL_FREE (R360): the last block of a released channel is erased, and the channel is FREE. -/
def execFlashChannelFree (t n : Nat) (s : State) : Res :=
  let s := s.arrive t
  let f := s.flash n
  let written := f.blocks.any fun b => !b.2.retired && decide (0 < b.2.live + b.2.stale)
  if !(s.cmp.busyFlash.contains n) || written then .next s
  else
    let s := s.setFlash n { f with erasing := false }
    .next { s with cmp := { s.cmp with busyFlash := s.cmp.busyFlash.filter (· != n) } }.settleFree

/-! ### Activation (R357 to R362) -/

/-- A Stored entry has changed and waits to reach the signed configuration (R495). -/
def State.unsaved (s : State) (index sub : Nat) : State :=
  let l := s.pd.unsaved.filter fun k => k != (index, sub)
  { s with pd := { s.pd with unsaved := (index, sub) :: l } }

/-- The masks of a composition's ways go to the page caches, to take effect at this boundary (R219, R354). A mask that would overlap ways
which another composition holds beyond its descriptor, by a write of PCA_WAYMASK, is ignored and sets ERR. -/
def State.giveWays (s : State) (c : Nat) (ways : BitVec 64) : State :=
  (List.range 4).foldl (fun (s : State) q =>
    let m := quadWays ways q
    let clash := (List.range 16).any fun d =>
      d != c && (s.hbm.wantWays q d &&& m &&& ~~~(quadWays ((s.comp? d).elim 0 (·.desc.ways)) q)) != 0
    let k := 16 * q + c
    if clash then { s with hbm := { s.hbm with wayErr := k :: s.hbm.wayErr.filter (· != k) } }
    else { s with hbm := { s.hbm with waysNext := put s.hbm.waysNext k m } }) s

/-- Streams whose TILE the composition no longer holds receive a new one (R359). -/
def State.retile (s : State) (c : Nat) : State :=
  let tiles := tileList (s.compTiles c)
  s.setPg fun g => { g with ctxs := mapIf (fun k => k.comp == c) (fun k => { k with streams := k.streams.map fun x =>
    (x.1, if tiles.contains x.2.tile then x.2 else { x.2 with tile := tiles.getD (x.1 % max 1 tiles.length) 0 }) }) g.ctxs }

/-- The Directory's counters of one composition, by their index (R264, R372 and the tables of the other chapters). -/
def compCounters : List Nat := [0x3051, 0x3350, 0x3351, 0x3402, 0x3403, 0x4211, 0x5040, 0x5041, 0x5042, 0x5043, 0x7043]

/-- The counters of a composition that is created start at 0: its own, its part in those of the node, and their latched values (R372, R398,
R510). -/
def State.restartCounters (s : State) (c : Nat) : State :=
  let other (v : Nat × Nat × Nat) : Bool := v.2.1 / 256 != c + 1 && !(compCounters.contains v.1 && v.2.1 == c)
  { s with pd := { s.pd with cnt := s.pd.cnt.filter other, latched := s.pd.latched.filter other } }

/-- A composition comes into being, holding nothing (R357, R372); what the Directory kept of its principal goes (R510). The margin and the quiet
steps of a composition released before under its ID stay: log entry 156. -/
def State.create (s : State) (c : Nat) (d : CompDesc) : State :=
  let s := s.restartCounters c
  let s := { s with pd := { s.pd with seqs := s.pd.seqs.filter fun x => x.who != 3 + c,
                                      staging := s.pd.staging.filter fun x => x.owner / 64 != 3 + c } }
  let k : Comp := { st := .active, desc := d, cause := none, keyed := false, gen := lookD s.sec.gens d.job 0,
                    noKey := (look s.sec.gens d.job).isSome, grace := false, upd := none, oldBytes := 0, transport := decide (0 < s.sec.pool),
                    since := s.timer, busyRem := 0, next := none, packNext := none, waysNext := none, linkNext := none, nextHolder := 0 }
  let s := { s with cmp := { s.cmp with comps := put s.cmp.comps c k }, sec := { s.sec with pool := s.sec.pool - 1 } }
  let s := (List.range 32).foldl (fun s n => if bitAt d.flash.toNat n then s.setFlash n { s.flash n with owner := some c } else s) s
  s.giveWays c d.ways

/-- A composition takes its new descriptor (R357, R359): what leaves it is cleared. -/
def State.reshape (s : State) (c : Nat) (k : Comp) (d : CompDesc) : State :=
  let s := s.charge c
  let lost := (s.slicesOf c).filter fun n => !bitAt d.slices.toNat n
  let lostF := (s.flashOf c).filter fun n => !bitAt d.flash.toNat n
  let s := s.setComp c fun k => { k with desc := d, st := if k.st = .shrinking then .active else k.st }
  let s := s.clearSlices lost
  let s := s.eraseFlash lostF
  let s := (List.range 32).foldl (fun s n =>
    if bitAt d.flash.toNat n && !bitAt k.desc.flash.toNat n then s.setFlash n { s.flash n with owner := some c } else s) s
  (s.giveWays c d.ways).retile c

/-- One descriptor comes into force (R357). -/
def State.activate (s : State) (c : Nat) (d : CompDesc) : State :=
  let s := match s.comp? c with
    | none => if d.exst then s.create c d else s
    | some k => if d.exst then s.reshape c k d else s.release c
  s.unsaved 0x5010 c

/-- The commit at a step boundary (R357, R358, R373): it activates in its step once relocation has ended, and waits, counted,
until then. Whether it activated. -/
def State.commitStep (s : State) : Bool × State :=
  if !s.cmp.pending || laterStep s.cmp.cstep s.step then (false, s)
  else if s.cmp.staged.any fun e => !s.relocated e.1 then (false, s.count 0x5044 0)
  else
    let ds := s.cmp.staged
    let s := ds.foldl (fun s e => s.activate e.1 e.2) s
    (true, { s with cmp := { s.cmp with pending := false, staged := [], cstatus := .ok, cfail := 0, ccheck := 0 } })

/-- The changes of R354 and R196 that wait for the step boundary. -/
def State.fieldStep (s : State) (c : Nat) : State :=
  match s.comp? c with
  | none => s
  | some k =>
    let s := match k.waysNext with
      | some w => (s.setComp c fun k => { k with desc := { k.desc with ways := w }, waysNext := none }).giveWays c w
      | none => s
    let s := s.setComp c fun k => { k with packNext := none }
    let s := match k.linkNext with
      | some l => s.setComp c fun k => { k with desc := { k.desc with link := l }, linkNext := none }
      | none => s
    if k.waysNext.isSome ∨ k.linkNext.isSome then s.unsaved 0x5010 c
    else s

/-! ### Handoff (R365 to R368) -/

/-- The batch records of pages as bytes (R366): none where a page is gone. -/
def State.batchBytes (s : State) (h : Handoff) (p : Nat × Nat) : Option (List Byte) :=
  match s.strm? h.job h.ctx p.1, s.page? h.job h.ctx p.1 p.2 with
  | some x, some g =>
    match s.frameOf g.desc with
    | some (d, f) =>
      let r : BatchRec := { ctx := h.ctx, stream := p.1, page := p.2, clen := d.clen, packed := d.packed, spin := g.desc.spin,
                            tomb := g.desc.tomb }
      some (r.toBytes ++ g.grain.toBytes ++ padTo (64 * d.clen) (storedBytes x d.packed f.toks))
    | none => none
  | _, _ => none

/-- As many of the pages to send as fit in the window, one at least (R366; log entry 40). -/
def takeBatch (room : Nat) : List (List Byte) → List (List Byte)
  | [] => []
  | b :: rest => if b.length ≤ room then b :: takeBatch (room - b.length) rest else []

/-- Cut bytes into messages of at most 2 MiB. -/
def cutMsgs (addr : Nat) (b : List Byte) : List (Nat × List Byte) :=
  (List.range ((b.length + 2097151) / 2097152)).map fun i => (addr + i * 2097152, (b.drop (i * 2097152)).take 2097152)

/-- Send the next batch of a handoff: its records, then the control block as a flagged WRITE (R366). -/
def State.sendBatch (s : State) (h : Handoff) : State :=
  let recs := h.pages.map fun p => s.batchBytes h p
  let good := (recs.takeWhile (·.isSome)).map (·.getD [])
  if good = [] then { s with cmp := { s.cmp with hand := none, hstatus := .staleGen } }
  else
    let dcomp := h.comp
    let fits := takeBatch (Config.importSize h.dnode dcomp - 64) good
    let fits := if fits = [] then good.take 1 else fits
    let win := Config.importWin h.dnode dcomp
    let wgen := Config.importGen h.dnode dcomp
    let body := fits.flatten
    let send (s : State) (off : Nat) (b : List Byte) (flag : Bool) : State :=
      s.enqueue h.queue (mkWrite 1 win wgen s.rmo.epoch 0 off b flag .handoff false s.nextStep)
    let s := (cutMsgs 64 body).foldl (fun s m => send s m.1 m.2 false) s
    let ctl := leBytes 8 (h.batch + 1) ++ leBytes 4 fits.length ++ leBytes 4 (body.length / 64) ++ leBytes 2 (s.nodeId % 2 ^ 14)
      ++ List.replicate 46 0
    let s := send s 0 ctl true
    { s with cmp := { s.cmp with hand := some { h with batch := h.batch + 1, inBatch := fits.length } } }

/-- The context that a handoff names: the one of the composition whose range holds QUEUE, else any of that identifier. -/
def State.handCtx (s : State) (ctx queue : Nat) : Option Ctx :=
  let owns (k : Ctx) : Bool := (s.comp? k.comp).elim false fun c => decide (c.desc.qbase ≤ queue) && decide (queue < c.desc.qbase + c.desc.qcount)
  match s.pg.ctxs.find? fun k => k.ctx == ctx && owns k with
  | some k => some k
  | none => s.pg.ctxs.find? fun k => k.ctx == ctx

/-- The checks of R365 in order: the status that refuses a handoff, or its context and streams. -/
def State.handCheck (s : State) (ctx stream : Nat) (all : Bool) (first count dnode queue : Nat) (move : Bool) :
    Status ⊕ (Ctx × List (Nat × Strm)) :=
  if s.single then .inl .unsupported
  else match s.handCtx ctx queue with
    | none => .inl .staleGen
    | some k =>
      let xs := if all then k.streams.map fun x => (k.idOf x.1, x.2) else ((k.strm? stream).map fun x => (stream, x)).toList
      let pages := (xs.map fun x => ((x.2.pages.zipIdx.drop first).take count).map fun p => (x.1, p)).flatten
      let d := s.comp? k.comp
      let mine := d.elim false fun c => decide (c.desc.qbase ≤ queue) && decide (queue < c.desc.qbase + c.desc.qcount)
      if xs = [] ∨ count = 0 ∨ 2 ^ 27 < count ∨ (xs.any fun x => decide (x.2.npages < first + count)) ∨
         (s.pg.fwd.any fun f => f.2.job == k.job && f.2.ctx == k.ctx && (xs.any fun x => x.1 == f.2.stream) &&
           decide (f.2.first < first + count) && decide (first < f.2.first + f.2.count)) then .inl .unsupported
      else if pages.any fun p => !(s.pageHere p.2.1) then .inl .staleGen
      else if !mine ∨ !s.inGroup dnode ∨ (s.sendEnt queue).fdest ≠ dnode ∨ !(s.sendEnt queue).valid then .inl .accessDenied
      else if move ∧ 4096 < s.pg.fwd.length + xs.length then .inl .unsupported
      else if s.cmp.hand.isSome ∨ s.cmp.validating ∨ s.cmp.pending then .inl .busyConflict
      else .inr (k, xs)

/-- HANDOFF (R365): a command written to PD 0x5030.00. A refusal sends nothing and leaves a running handoff alone. -/
def execHandoff (t ctx stream : Nat) (all : Bool) (first count dnode queue : Nat) (move : Bool) (s : State) : Res :=
  let s := s.arrive t
  if !s.ready then .next s
  else match s.handCheck ctx stream all first count dnode queue move with
    | .inl st => .next { s with cmp := { s.cmp with hstatus := st } }
    | .inr (k, xs) =>
      let pages := (xs.map fun x => (List.range count).map fun i => (x.1, first + i)).flatten
      let h : Handoff := { ctx, job := k.job, comp := k.comp, pages, sent := 0, batch := 0, inBatch := 0, dnode, queue, move,
                           ranges := xs.map fun x => (x.1, first, count), finish := false }
      let s := { s with cmp := { s.cmp with hand := some h, hstatus := .ok, hpages := 0 } }
      .next (s.sendBatch h)

/-- HANDOFF_BATCH_ACK (R366, R368, R373): the response to a batch's control write. -/
def execHandoffBatchAck (t : Nat) (st : Status) (s : State) : Res :=
  let s := s.arrive t
  match s.cmp.hand with
  | none => .next s
  | some h =>
    if h.finish ∨ h.inBatch = 0 ∨ (s.inFlight fun p => p == .handoff) = true then .next s
    else if st ≠ .ok then .next { s with cmp := { s.cmp with hand := none, hstatus := st } }
    else
      let h := { h with pages := h.pages.drop h.inBatch, sent := h.sent + h.inBatch, inBatch := 0 }
      let s := { s with cmp := { s.cmp with hpages := h.sent } }
      if h.pages ≠ [] then .next ({ s with cmp := { s.cmp with hand := some h } }.sendBatch h)
      else if h.move then .next { s with cmp := { s.cmp with hand := some { h with finish := true } } }
      else .next { s with cmp := { s.cmp with hand := none, hstatus := .ok } }

/-- The lowest free index of the forward table. -/
def State.freeFwd (s : State) : Nat := ((List.range 4096).find? fun i => (look s.pg.fwd i).isNone).getD 4096

/-- A MOVE handoff completes at a step boundary (R362, R368): its forward entries are written under the new epoch. Whether one
did. -/
def State.handStep (s : State) : Bool × State :=
  match s.cmp.hand with
  | none => (false, s)
  | some h =>
    if !h.finish then (false, s)
    else
      let epoch := (s.rmo.epoch + 1).toNat
      let s := h.ranges.foldl (fun s r =>
        let i := s.freeFwd
        let f : Fwd := { job := h.job, ctx := h.ctx, stream := r.1, first := r.2.1, count := r.2.2, node := h.dnode, epoch }
        (s.setPg fun g => { g with fwd := put g.fwd i f }).unsaved (0x5100 + i / 256) (i % 256)) s
      let gone := (h.ranges.map fun r => (List.range r.2.2).map fun i => (h.job, h.ctx, r.1, r.2.1 + i)).flatten
      (true, { s with cmp := { s.cmp with hand := none, hstatus := .ok, graceFree := s.cmp.graceFree ++ gone } })

/-- The frames of moved pages are freed at the end of the grace step (R368). -/
def State.freeMoved (s : State) : State :=
  let l := s.cmp.graceFree
  let s := { s with cmp := { s.cmp with graceFree := [] } }
  l.foldl (fun s p =>
    match s.page? p.1 p.2.1 p.2.2.1 p.2.2.2 with
    | some g => (s.freeDesc g.desc).setPage p.1 p.2.1 p.2.2.1 p.2.2.2 fun g => { g with desc := .empty, pmap := .none }
    | none => s) s

/-- The composition's part of a step boundary (R354, R357, R362, R368): the grace step ends, commits and moves take effect, and
the epoch rises by at most one. -/
def State.compStep (s : State) : State :=
  let s := if s.rmo.grace then s.freeMoved else s
  let s := (List.range 16).foldl (fun s c => s.fieldStep c) s
  let (a, s) := s.commitStep
  let (b, s) := s.handStep
  let up := a || b
  let s := { s with rmo := { s.rmo with epoch := if up then s.rmo.epoch + 1 else s.rmo.epoch, grace := up },
                    cmp := { s.cmp with reloc := [] } }
  s.settleFree

end Sys2Proof.Machine
end

