-- ==== Sys2Proof/Machine/Security.lean ====
section
/-! DEFINITION. The Security Core (14): its faults, the SPDM responder, lifecycle, key blobs and tenant removal, and the job
restart that its faults raise (R429). -/

namespace Sys2Proof.Machine

/-! ### Job restart (R429) -/

/-- A job restart (R429): scheduled work stops, every request ends with REPLAY, and what the node stores stays. -/
def State.jobRestart (s : State) (scope : Nat) : State :=
  let s := s.endAll (fun _ _ => true) .replay
  let s := { s with phs := { s.phs with fwdDone := true }, rel := { s.rel with restarted := true } }
  s.event { cls := 7, code := 9, subj := s.nodeId, detail := leBytes 1 scope }

/-! ### Faults of the Security Core (R378) -/

/-- The Security Core resets itself (R378): every key slot is cleared, and with scope SECURITY every composition of the node is
torn down and the job restarts (R416). Before READY the boot restarts at stage 1 (R523). -/
def State.coreFault (s : State) (kind : Nat) : State :=
  let s := { s with sec := { s.sec with up := false, resets := min 65535 (s.sec.resets + 1), pool := 0, models := [], sessions := [],
                                        version := false, caps := false, algs := false } }
  let s := (List.range 16).foldl (fun s c => s.setComp c fun k => { k with noKey := true, upd := none, grace := false, transport := false }) s
  let s := s.event { cls := 8, code := 1, subj := 0xFFFFFFFF, detail := leBytes 1 kind }
  if !s.boot.ready then
    { s with boot := { s.boot with stage := if s.boot.stage = 15 then 15 else 1 }, sec := { s.sec with zero := false } }
  else
    let s := s.raiseScope 6 s.nodeId none
    let s := (List.range 16).foldl (fun s c => s.teardown c) s
    s.jobRestart 6

/-- SC_WATCHDOG_EXPIRY (R378). -/
def execScWatchdogExpiry (t : Nat) (s : State) : Res :=
  let s := s.arrive t
  .next (if s.sec.up then s.coreFault 0 else s)

/-- SC_MEMORY_ERROR (R378). -/
def execScMemoryError (t : Nat) (s : State) : Res :=
  let s := s.arrive t
  .next (if s.sec.up then s.coreFault 1 else s)

/-- TRANSPORT_KEY_GENERATED (R388): a key goes to an active composition that has none, else into the pool of two. -/
def execTransportKeyGenerated (t : Nat) (s : State) : Res :=
  let s := s.arrive t
  if !s.sec.up then .next s
  else match s.cmp.comps.find? fun k => k.2.st == .active && !k.2.transport with
    | some k => .next (s.setComp k.1 fun k => { k with transport := true })
    | none => .next { s with sec := { s.sec with pool := min 2 (s.sec.pool + 1) } }

/-! ### SPDM (R386, R387) -/

/-- The transports on which the responder answers: DOE of the physical and virtual functions, MCTP over PCI Express, SMBus. -/
def spdmTransport : Transport → Bool
  | .ethernet | .fabric _ => false
  | _ => true

/-- Answer an SPDM request with a code and data. -/
def State.spdmSay (s : State) (tr : Transport) (code : Nat) (data : List Byte) : State := s.emit (.spdm tr code data)

/-- The ERROR response, with its code; log entry 41. -/
def State.spdmError (s : State) (tr : Transport) (code : Nat) : State := s.spdmSay tr 0x7F (leBytes 1 code)

/-- Serve an SPDM request: silence while the core is down (R378, R510); ERROR for a request that does not verify, that comes before
negotiation has ended, or that names another slot than 0. -/
def State.spdm (s : State) (tr : Transport) (m : Spdm) (ready : Bool) (f : State → State) : State :=
  if !s.sec.up || !spdmTransport tr then s
  else if !m.valid then s.spdmError tr 0x01
  else if !ready then s.spdmError tr 0x04
  else if m.slot ≠ 0 then s.spdmError tr 0x01
  else f s

/-- Bytes that follow from keys and images (log entry 13): `n` of them, of kind `k`, from an offset on. -/
def secretBytes (k off n : Nat) : List Byte := (List.range n).map fun i => Config.spdmByte k (off + i)

/-- Whether negotiation has ended. -/
def State.negotiated (s : State) : Bool := s.sec.version && s.sec.caps && s.sec.algs

/-- Whether a session is established. -/
def State.session (s : State) (m : Spdm) : Bool := s.sec.sessions.contains (m.session, true)

/-- GET_VERSION: the responder speaks 1.3; negotiation and sessions begin anew. -/
def execGetVersion (t : Nat) (tr : Transport) (m : Spdm) (s : State) : Res :=
  .next ((s.arrive t).spdm tr m true fun s =>
    { s with sec := { s.sec with version := true, caps := false, algs := false, sessions := [] } }.spdmSay tr 0x04 [0x00, 0x13])

/-- GET_CAPABILITIES. -/
def execGetCapabilities (t : Nat) (tr : Transport) (m : Spdm) (s : State) : Res :=
  let s := s.arrive t
  .next (s.spdm tr m s.sec.version fun s => { s with sec := { s.sec with caps := true } }.spdmSay tr 0x61 [])

/-- NEGOTIATE_ALGORITHMS: RSAPSS_4096, SHA_512, FFDHE4096 and AES-256-GCM. -/
def execNegotiateAlgorithms (t : Nat) (tr : Transport) (m : Spdm) (s : State) : Res :=
  let s := s.arrive t
  .next (s.spdm tr m (s.sec.version && s.sec.caps) fun s => { s with sec := { s.sec with algs := true } }.spdmSay tr 0x63 [])

/-- GET_DIGESTS: the digest of slot 0's chain. -/
def execGetDigests (t : Nat) (tr : Transport) (m : Spdm) (s : State) : Res :=
  let s := s.arrive t
  .next (s.spdm tr m s.negotiated fun s => s.spdmSay tr 0x01 (secretBytes 1 0 64))

/-- GET_CERTIFICATE: a portion of slot 0's chain (R382). -/
def execGetCertificate (t : Nat) (tr : Transport) (m : Spdm) (off len : Nat) (s : State) : Res :=
  let s := s.arrive t
  .next (s.spdm tr m s.negotiated fun s => s.spdmSay tr 0x02 (secretBytes 2 off (len % 2 ^ 16)))

/-- CHALLENGE: signed under the Alias key over a fresh nonce. -/
def execChallenge (t : Nat) (tr : Transport) (m : Spdm) (nonce : Nat) (s : State) : Res :=
  let s := s.arrive t
  .next (s.spdm tr m s.negotiated fun s =>
    let (n, s) := s.draw
    s.spdmSay tr 0x03 (secretBytes 1 0 64 ++ secretBytes (3 + n) nonce 32 ++ secretBytes (3 + n) (nonce + 32) 512))

/-- The content of a measurement block (R387). -/
def State.measure (s : State) (index : Nat) : List Byte :=
  if index = 5 then
    leBytes 1 (flagAt s.sec.life 0) ++ leBytes 1 s.sec.boot ++ leBytes 2 s.sec.resets
  else if 0x10 ≤ index ∧ index < 0x20 then
    let c := index - 0x10
    match s.comp? c with
    | none => List.replicate 139 0
    | some k =>
      [BitVec.ofNat 8 k.st.code] ++ k.desc.toBytes k.st ++ secretBytes 4 (64 * c) 64 ++ leBytes 2 k.gen.toNat ++
        (if k.keyed ∧ !k.noKey then secretBytes 5 (8 * (65536 * c + k.gen.toNat)) 8 else List.replicate 8 0)
  else if 0x30 ≤ index ∧ index < 0x50 then
    match s.sec.models[index - 0x30]? with
    | none => []
    | some m => leBytes 2 m.2.1 ++ leBytes 1 m.2.2.1 ++ (m.2.2.2.map fun e => leBytes 2 e).flatten
  else secretBytes 6 (64 * index) 64

/-- The measurement blocks that exist. -/
def measured : List Nat := [1, 2, 3, 4, 5, 6] ++ (List.range 16).map (0x10 + ·) ++ (List.range 32).map (0x30 + ·)

/-- GET_MEASUREMENTS: the number of blocks for index 0, every block for 0xFF, else the one block. Pending descriptors are not
shown (R401). -/
def execGetMeasurements (t : Nat) (tr : Transport) (m : Spdm) (index : Nat) (s : State) : Res :=
  let s := s.arrive t
  .next (s.spdm tr m s.negotiated fun s =>
    if index = 0 then s.spdmSay tr 0x60 (leBytes 1 measured.length)
    else if index = 0xFF then s.spdmSay tr 0x60 (measured.map fun i => leBytes 1 i ++ s.measure i).flatten
    else if measured.contains index then s.spdmSay tr 0x60 (leBytes 1 index ++ s.measure index)
    else s.spdmError tr 0x01)

/-- KEY_EXCHANGE: a session begins. -/
def execKeyExchange (t : Nat) (tr : Transport) (m : Spdm) (s : State) : Res :=
  let s := s.arrive t
  .next (s.spdm tr m s.negotiated fun s =>
    let (n, s) := s.draw
    let s := { s with sec := { s.sec with sessions := (m.session, false) :: s.sec.sessions.filter fun x => x.1 != m.session } }
    s.spdmSay tr 0x64 (secretBytes (3 + n) 0 512))

/-- FINISH: the session is established. -/
def execFinish (t : Nat) (tr : Transport) (m : Spdm) (s : State) : Res :=
  let s := s.arrive t
  .next (s.spdm tr m (s.sec.sessions.contains (m.session, false)) fun s =>
    { s with sec := { s.sec with sessions := (m.session, true) :: s.sec.sessions.filter fun x => x.1 != m.session } }.spdmSay tr 0x65 [])

/-- HEARTBEAT in a session. -/
def execHeartbeat (t : Nat) (tr : Transport) (m : Spdm) (s : State) : Res :=
  let s := s.arrive t
  .next (s.spdm tr m (s.session m) fun s => s.spdmSay tr 0x68 [])

/-- KEY_UPDATE of a session's keys. -/
def execSpdmKeyUpdate (t : Nat) (tr : Transport) (m : Spdm) (s : State) : Res :=
  let s := s.arrive t
  .next (s.spdm tr m (s.session m) fun s =>
    { s with sec := { s.sec with keyUpdates := s.sec.keyUpdates + 1 } }.spdmSay tr 0x69 [])

/-- END_SESSION. -/
def execEndSession (t : Nat) (tr : Transport) (m : Spdm) (s : State) : Res :=
  let s := s.arrive t
  .next (s.spdm tr m (s.session m) fun s =>
    { s with sec := { s.sec with sessions := s.sec.sessions.filter fun x => x.1 != m.session } }.spdmSay tr 0x6C [])

/-! ### Lifecycle (R379) -/

/-- A lifecycle change waits for the next reset, kept in the signed configuration (R379, R400). -/
def State.lifeChange (s : State) (target : Bool) : State :=
  let kept := (0x6001, 0, leBytes 1 (flagAt target 0)) :: s.pd.stored.filter fun v => !(v.1 == 0x6001 && v.2.1 == 0)
  let s := { s with sec := { s.sec with pend := some target }, pd := { s.pd with stored := kept } }
  s.event { cls := 8, code := 9, subj := 0xFFFFFFFF, detail := leBytes 1 (flagAt target 0) }

/-- LIFECYCLE_SEAL (R379): a Keeper command of an authenticated session. -/
def execLifecycleSeal (t : Nat) (m : Spdm) (s : State) : Res :=
  let s := s.arrive t
  .next (if s.sec.up && m.valid && s.session m && !s.sec.life then s.lifeChange true else s)

/-- LIFECYCLE_UNSEAL (R379): an unseal token whose signature and serial number verify. -/
def execLifecycleUnseal (t : Nat) (tokenOk : Bool) (s : State) : Res :=
  let s := s.arrive t
  .next (if s.sec.up && tokenOk && s.sec.life then s.lifeChange false else s)

/-! ### Key blobs (R389, R390) -/

/-- Whether a model's extents are installed: its catalogue, which an installed model has in topsoil (R257), holds a valid entry
(log entry 42). -/
def State.modelInstalled (s : State) (model : Nat) : Bool := (List.range s.layers).any fun l => (s.cat model l 0).valid

/-- The kinds of blob that the commands carry. -/
inductive BlobKind where
  | install | update | model | remove
  deriving DecidableEq, Repr

/-- The checks of R390 in order: the status that refuses a blob, if one does. During orderly power-down every blob is refused
(R523). -/
def State.blobRefusal (s : State) (kind : BlobKind) (decOk : Bool) (b : KeyBlob) : Option Status :=
  if s.pwr.off then some .busyConflict
  else if !decOk ∨ b.typ = 0 ∨ 3 < b.typ then some .integrity
  else match s.comp? b.comp with
    | none => some .accessDenied
    | some k =>
      if !b.digestOk ∨ !k.transport ∨ (k.st ≠ .active ∧ k.st ≠ .shrinking) ∨ b.job ≠ k.desc.job then some .accessDenied
      else match kind with
        | .install => if k.keyed then some .accessDenied else none
        | .update =>
          if !b.authOk ∨ !k.keyed ∨ k.noKey then some .accessDenied
          else if b.gen ≠ k.gen + 1 ∨ !laterStep b.activate s.step then some .unsupported
          else if k.upd.isSome ∨ k.oldBytes ≠ 0 then some .busyConflict else none
        | .model =>
          if !s.modelInstalled b.model ∨ (look s.sec.models b.model).any (fun m => m.2.1 != b.comp) then some .accessDenied else none
        | .remove => if !b.authOk then some .accessDenied else none

/-- A blob arrives (R390): refused with a status, counted, with an event; or applied. The vendor response carries the status. -/
def State.blob (s : State) (kind : BlobKind) (decOk : Bool) (b : KeyBlob) (f : State → State) : State :=
  if !s.sec.up then s
  else match s.blobRefusal kind decOk b with
    | some st =>
      let s := s.count 0x6030 0
      (s.event { cls := 8, code := 5, subj := b.comp, status := st.code, detail := leBytes 1 b.typ ++ leBytes 1 st.code }).emit (.vendor st)
    | none => (f s).emit (.vendor .ok)

/-- The doorbell requests of a composition that is keyed now are dropped: their results are withheld (R489). -/
def State.withhold (s : State) (c : Nat) : State :=
  let s := s.closeBoxes ((s.comp? c).elim 0 (·.desc.vf)) .accessDenied
  let bell (src : Source) : Bool := match src with | .doorbell _ _ => true | _ => false
  { s with rq := { s.rq with reqs := s.rq.reqs.filter fun r => !(bell r.src && r.comp == c),
                             searches := s.rq.searches.filter fun r => !(bell r.src && r.comp == c) } }

/-- KEYS_INSTALL (R390, R474): the job's first keys in a composition, which is sealed to the host from now on. -/
def execKeysInstall (t : Nat) (decOk : Bool) (b : KeyBlob) (s : State) : Res :=
  .next ((s.arrive t).blob .install decOk b fun s =>
    let s := s.setComp b.comp fun k => { k with keyed := true, noKey := false, gen := b.gen }
    let s := s.withhold b.comp
    s.event { cls := 8, code := 3, subj := b.comp, comp := some b.comp, job := b.job, detail := leBytes 2 b.gen.toNat })

/-- KEYS_UPDATE (R390, R391): the new generation waits for its ACTIVATE step. -/
def execKeysUpdate (t : Nat) (decOk : Bool) (b : KeyBlob) (s : State) : Res :=
  .next ((s.arrive t).blob .update decOk b fun s => s.setComp b.comp fun k => { k with upd := some (b.gen, b.activate) })

/-- MODEL_RELEASE (R390, R395): the model is released to the composition with its endpoint list, which replaces an earlier one. -/
def execModelRelease (t : Nat) (decOk : Bool) (b : KeyBlob) (s : State) : Res :=
  .next ((s.arrive t).blob .model decOk b fun s =>
    let s := { s with sec := { s.sec with models := put s.sec.models b.model (b.model, b.comp, b.ends) },
                      tier := { s.tier with stopped := s.tier.stopped.filter fun nn => (s.prog nn).model != b.model } }
    s.event { cls := 8, code := 8, subj := b.comp, comp := some b.comp, job := b.job, detail := leBytes 2 b.model })

/-- TENANT_REMOVE (R397): the keys go first, then everything that the composition does and holds. A pending UPDATE is discarded
(R401). -/
def execTenantRemove (t : Nat) (decOk : Bool) (b : KeyBlob) (s : State) : Res :=
  .next ((s.arrive t).blob .remove decOk b fun s =>
    let gen := (s.comp? b.comp).elim 0 fun k => k.gen + 1
    let s := s.setComp b.comp fun k => { k with gen, noKey := true, upd := none, grace := false }
    let s := { s with sec := { s.sec with gens := put s.sec.gens b.job gen } }
    (s.clearModels b.comp).dissolve b.comp .revoked .removal)

/-- TENANT_REMOVED (R397): the windows have drained and zeroisation has ended. It stands while the Security Core is down (R401) and
in the fifth shedding stage and above (R463). A teardown that waited for the removal is counted (R373). -/
def execTenantRemoved (t c : Nat) (s : State) : Res :=
  let s := s.arrive t
  match s.comp? c with
  | none => .next s
  | some k =>
    if k.st = .tearing ∧ k.cause = some .removal ∧ s.sec.up ∧ s.pwr.stage < 5 ∧ s.windowsDrained c = true then
      let s := (s.zeroiseComp c).setComp c fun k => { k with st := .torndown, transport := false, next := none }
      let s := if k.next = some .fault then s.count 0x5043 c else s
      .next (s.event { cls := 8, code := 7, subj := c, comp := some c, status := 0, job := k.desc.job, detail := leBytes 2 k.gen.toNat })
    else .next s

/-! ### Key updates at a step boundary (R391) -/

/-- Bytes of a composition's subsoil and hardpan data. -/
def State.sealedBytes (s : State) (c : Nat) : Nat :=
  ((s.compPages c).map fun y =>
    let d := s.homeOf y.2.2.2
    if d.valid ∧ d.tier ≠ 0 then 64 * d.clen else 0).sum

/-- Connections of a job that waited for a new generation may send again (R393). -/
def State.rekeyed (s : State) (job : Nat) : State :=
  { s with rmo := { s.rmo with send := s.rmo.send.map fun e => if e.2.job = job then (e.1, { e.2 with rekey := false }) else e } }

/-- A grace step ends, and a pending UPDATE whose step has come takes effect (R391). -/
def State.keyStep (s : State) (c : Nat) : State :=
  match s.comp? c with
  | none => s
  | some k =>
    let s := if k.grace then s.setComp c fun k => { k with grace := false } else s
    match k.upd with
    | none => s
    | some (g, a) =>
      if laterStep a s.step then s
      else
        let n := s.sealedBytes c
        let s := (s.setComp c fun k => { k with gen := g, grace := true, upd := none, oldBytes := n }).rekeyed k.desc.job
        s.event { cls := 8, code := 4, subj := c, comp := some c, job := k.desc.job,
                  detail := leBytes 2 g.toNat ++ [0, 0] ++ leBytes 8 a }

end Sys2Proof.Machine
end

