-- ==== Sys2Proof/Machine/Recovery.lean ====
section
/-! DEFINITION. Scrub, the ring's commands and rebuild, admission, and maintenance interlocks (15). -/

namespace Sys2Proof

/-- What the lost member's partner holds of its contexts, as a standby receives it (R421): the spec gives the copies and not their
layout or transfer; by ring and rank. Log entry 183. -/
opaque Config.mirrorOf : Nat → Nat → List Machine.Ctx

/-- The lost member's share-pool entries, by their number there, as its partner's mirror holds them (R409, R421). Log entry 183. -/
opaque Config.mirrorPool : Nat → Nat → Machine.Assoc Machine.Pool

namespace Machine

/-! ### Ring commands (R424, R425) -/

/-- First byte of a composition's ring window. -/
def State.ringBase (s : State) (c : Nat) (g : RingCfg) : Option Nat := (s.win? (s.jobOf c) g.win).map (·.base)

/-- Whether a record of a frame is valid (R411). -/
def recordValid (rec_ : List Byte) : Bool := bitAt (field rec_ 4 4) 31

/-! ### Repair (R407) -/

/-- A holder zeroes parity frames and has every member of a list send its pieces for them again (R425, R407). -/
def State.renewFrames (s : State) (c : Nat) (g : RingCfg) (base : Nat) (out : Nat → Bool) (members : List Nat) : State :=
  let s := ((List.range (s.parityArea c)).filter out).foldl (fun (s : State) k => s.store (base + g.frameAt k) (List.replicate (128 + g.plen) 0)) s
  members.foldl (fun (s : State) m => s.ringSend c g m (ringCmdBytes 3 g.rank s.nodeId 0 0 [])) s

/-- An address in the parity frames of a composition is lost (R407): RECONTRIBUTE names this holder, whose frames are zeroed, to every other
member. -/
def State.parityLost (s : State) (a : Nat) : State :=
  match (s.compAt a).bind fun c => (s.ringCfg c).bind fun g => (s.ringBase c g).map fun b => (c, g, b) with
  | none => s
  | some (c, g, base) =>
    if within a (base + parityBase) (s.parityArea c * (128 + g.plen)) then
      s.renewFrames c g base (fun _ => true) ((List.range 9).filter (· != g.rank))
    else s

/-- The pages whose frame holds a lost address are rebuilt from the ring, into a new frame (R407): those that are contributed, and every page
that shares the frame. -/
def State.damageFrames (s : State) (a : Nat) : State :=
  let keys := s.framesAt a
  match s.compAt a with
  | none => s
  | some c =>
    let given (k : Nat) (p : Page) : Bool := if p.desc.borrowed then s.rel.pframes.any fun x => x.key == k else p.pmap.valid
    let hit (p : Page) : Bool :=
      let k := (s.homeOf p).frame
      keys.contains k && !s.rel.damaged.contains k && given k p
    let l := if keys = [] ∨ (s.ringCfg c).isNone then [] else (s.compPages c).filter fun y => hit y.2.2.2
    { s with rel := { s.rel with damaged := s.rel.damaged ++ (l.map fun y => (s.homeOf y.2.2.2).frame).dedup,
                                 pendPages := s.rel.pendPages ++ l.map fun y => (c, y.1.ctx, y.2.1, y.2.2.1, y.1.job) } }

/-- The page whose grain lies at an address (R73). -/
def State.grainAt (s : State) (a : Nat) : Option (Ctx × Nat × Nat × Page) :=
  (s.compAt a).bind fun c => (s.compPages c).find? fun y => ((y.1.strm? y.2.1).bind fun x => x.grainPlace y.2.2.1) == some a

/-- The grain at an address is recomputed from the decoded page (R71, R407). -/
def State.regrain (s : State) (a : Nat) : State :=
  match s.grainAt a with
  | none => s
  | some (k, stream, page, p) =>
    match k.strm? stream, s.frameOf p.desc with
    | some x, some (d, f) =>
      let (sketch, nmax, spread) := grainOf k.seed stream (f.toks.map (pageK x.kfmt x.scale))
      (s.setPage k.job k.ctx stream page fun p =>
        { p with grain := { sketch, nmax, spread, tomb := p.desc.tomb, gen := d.gen, page, stream } }).writePage k.job k.ctx stream page
    | _, _ => s

/-- What an uncorrectable transfer at an address makes the node repair (R407): a frame from the ring, a grain by its scrub, a parity frame by
its contributors. A structure is restored from the partner's mirror, which holds the bytes that the typed state gives. -/
def State.repairAt (s : State) (a : Nat) : State :=
  let s := (s.damageFrames a).parityLost a
  if (s.grainAt (a / 64 * 64)).isSome then { s with rel := { s.rel with queued := s.rel.queued ++ [a / 64 * 64] } } else s

/-! ### Memory errors (R212, R369) -/

/-- A structure whose uncorrectable error recurs in the replayed step cannot be repaired: its composition is torn down (R369). The
damage was noted in an earlier attempt at the step, before the HOLD that this attempt replays. -/
def State.tearRecurring (s : State) (a : Nat) : State :=
  match s.structAt a, s.compAt a with
  | some b, some c => if s.rel.hurt.any fun h => h.1 == b && decide (h.2 < s.phs.holds) then s.teardown c else s
  | _, _ => s

/-- HBM_TRANSFER (R201 to R204, R210): one arbiter cycle of pseudo-channel `g`. The grant decided in the cycle before is carried
out, unless its request was withdrawn in that cycle: then the slot is wasted and counted. The next grant is decided from the
requests raised at the start of this cycle. A write that is not one aligned transfer is a read-modify-write, which holds the next slot too:
no grant is decided for it (R200). -/
def execHbmTransfer (t g : Nat) (raise : List ArbReq) (withdraw : List Nat) (errs : List Nat) (s : State) : Res :=
  let s := s.arrive t
  let a := s.arb g
  let live := a.grant.filter fun q => a.raised.contains q
  let s := match a.grant, live with
    | some _, none => s.count 0x3010 1
    | _, _ => s
  let held := a.held.filter fun p => live.elim true fun q => q.port != p
  let s := s.setArb g { a with raised := a.raised.filter fun q => some q != live, grant := none, held }
  let s := s.raise g raise
  let s := match live with
    | some q =>
      let bad := (q.wr.isNone || isRmw q) && eccOf errs == Ecc.uncorrectable
      let s := (s.setArb g ((s.arb g).moved s.timer q)).transfer q (eccOf errs)
      let s := if bad then s.repairAt q.npa else s
      if bad && (decide (q.port < 48) || q.port == 50) then s.tearRecurring q.npa else s
    | none => s
  let a := s.arb g
  let two := live.elim false isRmw
  let next := s.firstOf (a.raised.filter fun q => a.eligible s.timer q)
  let s := s.setArb g (if two then a else { a with grant := next }.freeRefresh s.timer)
  .next (s.withdraw g withdraw)

/-! ### Scrub (R404 to R406) -/

/-- A slice leaves service (R371): every composition that holds it is torn down, and the slice stays unusable. -/
def State.loseSlice (s : State) (n : Nat) : State :=
  let s := { s with cmp := { s.cmp with badSlices := (n :: s.cmp.badSlices).dedup } }
  let holders := (s.cmp.comps.filter fun k => bitAt k.2.desc.slices.toNat n).map (·.1)
  let s := s.raiseScope 4 s.nodeId (holders.head?)
  holders.foldl (fun s c => s.teardown c) s

/-- Withhold a row (R406): its frames are relocated as tamping does, and a pseudo-channel with more than 64 such rows leaves
service. -/
def State.withholdRow (s : State) (row : Nat) : State :=
  let comp := s.compAt (1024 * row)
  let s := { s with rel := { s.rel with rows := row :: s.rel.rows } }
  let s := s.count 0x3411 0
  let s := s.event { cls := 7, code := 0x0A, subj := (comp.bind s.ringCfg).elim 0 (·.ring), comp, detail := [0, 0, 0, 0] ++ leBytes 6 row }
  let hit (d : Desc) : Bool := d.valid && d.tier == 0 && decide (16 * d.addr < 1024 * row + 1024) && decide (1024 * row < 16 * d.addr + 64 * d.clen)
  let s : State := match comp with
    | none => s
    | some c => ((s.compPages c).filter fun y => hit (s.homeOf y.2.2.2)).foldl (fun (s : State) y =>
        if !hit (s.homeOf y.2.2.2) then s else
        let pcs := s.allocPcs c
        let (npa, s) := s.place (pcs.getD (y.2.2.1 % max 1 pcs.length) 0) 512
        s.switchPlace y.1.job y.1.ctx y.2.1 y.2.2.1 0 s.nodeId (npa / 16)) s
  let n := (s.rel.rows.filter fun (r : Nat) => r / 2 ^ 20 == row / 2 ^ 20).length
  if 64 < n then s.loseSlice (row / 2 ^ 25) else s

/-- A new patrol period begins (R404, R406): the corrections of the last one count no more. -/
def State.patrol (s : State) : State :=
  if s.rel.patrolAt + s.pdNum 0x3410 0 * 3600000 * ms ≤ s.timer then
    { s with rel := { s.rel with patrolAt := s.timer, hits := [] } }
  else s

/-- CORRECTED_REWRITE (R404, R406, R407): a corrected address is rewritten through the encoder, a grain from its page, and a malformed frame
from the ring; at the third correction within a patrol
period its row is withheld. -/
def execCorrectedRewrite (t npa : Nat) (s : State) : Res :=
  let s := s.arrive t
  let a := npa / 64 * 64
  if !(s.rel.queued.contains a) then .next s
  else
    let s := s.patrol
    let n := lookD s.rel.hits a 0 + 1
    let s := { s with rel := { s.rel with queued := s.rel.queued.erase a, hits := put s.rel.hits a n } }
    let s := (s.store a (s.load a 64)).regrain a
    let s := if (s.framesAt a).any fun k => (s.frame? k).any (·.bad) then s.damageFrames a else s
    .next (if 3 ≤ n ∧ !(s.rel.rows.contains (a / 1024)) then s.withholdRow (a / 1024) else s)

/-- SCRUB_RATE_HOUR (R405): an hour of a stack ends. -/
def execScrubRateHour (t stack : Nat) (s : State) : Res :=
  let s := s.arrive t
  let busy := decide (s.pdNum 0x3410 2 < lookD s.rel.hour stack 0)
  let rate := lookD s.rel.rates stack 1
  let quiet := lookD s.rel.quiet stack 0 + 1
  let hour := put s.rel.hour stack 0
  if busy then
    .next { s with rel := { s.rel with hour, rates := put s.rel.rates stack (min 4 (2 * rate)), quiet := put s.rel.quiet stack 0 } }
  else if 24 ≤ quiet then
    .next { s with rel := { s.rel with hour, rates := put s.rel.rates stack (max 1 (rate / 2)), quiet := put s.rel.quiet stack 0 } }
  else .next { s with rel := { s.rel with hour, quiet := put s.rel.quiet stack quiet } }

/-! ### Ring commands at a member (R424, R425) -/

/-- REBUILD at a holder (R424): its whole frame is XORed into the standby's rebuild slot, and every other contributor whose record
is valid gets SEND_PIECE. A slot offset that is none is refused (R424). -/
def execRebuild (t c : Nat) (r : RingCmd) (s : State) : Res :=
  let s := s.arrive t
  match s.ringCfg c with
  | none => .next s
  | some g =>
    match s.ringBase c g, s.peerQueue c r.node with
    | some base, some q =>
      if !s.ready || !rebuildOffset r.offset then .next s
      else
        let frame := s.load (base + g.frameAt r.frame) (128 + g.plen)
        let s := s.enqueue q (mkXor g.win (Config.ringGen g.ring r.rank) s.rmo.epoch r.offset frame (.ring c) s.nextStep)
        let others := (List.range 9).filter fun m => m != g.rank && m != r.rank
        .next (others.foldl (fun s m =>
          let rec_ := (frame.drop (16 * recordPos m g.rank)).take 16
          if recordValid rec_ then s.ringSend c g m (ringCmdBytes 2 r.rank r.node r.frame r.offset rec_) else s) s)
    | _, _ => .next s

/-- The piece that a member has contributed under a record (R412): by its frame, stream, piece and page. -/
def State.pieceSent (s : State) (c : Nat) (g : RingCfg) (r : RingCmd) : Option Contrib :=
  s.rel.pframes.find? fun y =>
    let b := y.seg.drop (16 * recordPos g.rank y.holder % 64)
    y.comp == c && y.frame == r.frame && field b 0 4 == r.ctx && bitsOf (field b 4 4) 0 20 == r.stream && bitsOf (field b 4 4) 24 4 == r.piece
      && field b 8 4 == r.page

/-- The segment of a piece made anew from the page, read by identity (R424): none where the page is not here. -/
def State.pieceMade (s : State) (c : Nat) (g : RingCfg) (r : RingCmd) : Option (Nat × List Byte) :=
  (s.strm? (s.jobOf c) r.ctx r.stream).bind fun x => (s.page? (s.jobOf c) r.ctx r.stream r.page).bind fun p => (s.frameOf p.desc).map fun e =>
    let raw := rawPage x.kfmt x.vfmt x.scale x.latent e.2.toks
    let holder := (holdersFrom g.rank p.pmap.holder (r.piece + 1)).getD r.piece 0
    contribSeg g.rank holder (recordBytes r.ctx r.stream r.piece 0 r.page e.1.gen (raw.length / 64)) (padTo g.plen (raw.drop (g.plen * r.piece)))

/-- SEND_PIECE at a contributor (R424): its own record and piece are XORed into the slot: as they stand in the frame where it has
contributed them (R426), else from the page read by identity. -/
def execSendPiece (t c : Nat) (r : RingCmd) (s : State) : Res :=
  let s := s.arrive t
  match s.ringCfg c, s.peerQueue c r.node with
  | some g, some q =>
    if !s.ready || !rebuildOffset r.offset then .next s
    else
      let send (off : Nat) (seg : List Byte) : State :=
        s.enqueue q (mkXor g.win (Config.ringGen g.ring r.rank) s.rmo.epoch (r.offset + off) seg (.ring c) s.nextStep)
      match s.pieceSent c g r, s.pieceMade c g r with
      | some y, _ => .next (send y.off y.seg)
      | none, some (off, seg) => .next (send off seg)
      | none, none => .next s
  | _, _ => .next s

/-- RECONTRIBUTE (R425): every piece whose holder is the named rank is sent again, to the node that holds the rank now. -/
def execRecontribute (t c : Nat) (r : RingCmd) (s : State) : Res :=
  let s := s.arrive t
  match s.ringCfg c with
  | none => .next s
  | some g =>
    if !s.ready then .next s
    else
      let g := { g with ranks := g.ranks.zipIdx.map fun e => if e.2 = r.rank then (r.node, e.1.2) else e.1 }
      .next ((s.rel.pframes.filter fun x => x.comp == c && x.holder == r.rank).foldl (fun s x => s.sendContrib c g x (.ring c)) s)

/-! ### Rebuild at a standby (R424 to R428) -/

/-- A rebuild slot. -/
def State.rslot? (s : State) (c slot : Nat) : Option RSlot := s.rel.rslots.find? fun r => r.comp == c && r.slot == slot

/-- Change or enter a rebuild slot. -/
def State.setRslot (s : State) (r : RSlot) : State :=
  { s with rel := { s.rel with rslots := r :: s.rel.rslots.filter fun x => !(x.comp == r.comp && x.slot == r.slot) } }

/-- A rebuild slot is free again. -/
def State.freeRslot (s : State) (c slot : Nat) : State :=
  { s with rel := { s.rel with rslots := s.rel.rslots.filter fun x => !(x.comp == c && x.slot == slot) } }

/-- Bytes that a page contributes to the ring (R410): a subsoil frame's, or the page's in its raw form. -/
def State.ringLen (s : State) (x : Strm) (p : Page) : Nat :=
  if (s.homeOf p).tier = 1 then 64 * (s.homeOf p).clen else rawLen x.kfmt x.vfmt x.scale x.dk x.dv x.latent

/-- Pieces of a page of a stream. -/
def State.pieceCount (s : State) (g : RingCfg) (x : Strm) (p : Page) : Nat := (s.ringLen x p + g.plen - 1) / max 1 g.plen

/-- Where a page's contribution begins, its first holder and the frame (R414): its parity map's entry, or of a shared page that of the frame in its
pool entry, or of the page that the frame had at first. -/
def State.mapOf (s : State) (p : Page) : Nat × Nat :=
  if !p.desc.borrowed then (p.pmap.holder, p.pmap.frame)
  else match s.rel.pframes.find? fun y => y.key == (s.homeOf p).frame with
    | some y => (y.holder, y.frame)
    | none =>
      let mates := (((look s.pg.pool p.desc.frame).map fun e => s.compPages e.comp).getD []).map (·.2.2.2)
      ((mates.find? fun y => y.desc.borrowed && y.desc.frame == p.desc.frame && y.pmap.valid).map (·.pmap)).elim (p.pmap.holder, p.pmap.frame)
        fun m => (m.holder, m.frame)

/-- The frame that a pending page waits for. -/
def State.pendFrame (s : State) (z : Nat × Nat × Nat × Nat × Nat) : Option Nat :=
  (s.page? z.2.2.2.2 z.2.1 z.2.2.1 z.2.2.2.1).map fun p => (s.homeOf p).frame

/-- The next piece to rebuild (R427): of the first pending page, one neither stored nor in a slot. Of pages that share a frame one stands for all. -/
def State.nextPiece (s : State) (c : Nat) (g : RingCfg) : Option (Nat × Nat × Nat × Nat × Nat) :=
  (s.rel.pendPages.filter fun p => p.1 == c).findSome? fun p =>
    let (ctx, stream, page, job) := p.2
    let one (j k x g : Nat) : Bool := (j, k, x, g) == (job, ctx, stream, page) || s.pendFrame (c, k, x, g, j) == s.pendFrame p
    (s.strm? job ctx stream).bind fun x => (s.page? job ctx stream page).bind fun y =>
      ((List.range (s.pieceCount g x y)).find? fun i =>
        !(s.rel.pieces.any fun y => one y.job y.ctx y.stream y.page && y.piece == i) &&
        !(s.rel.rslots.any fun y => y.comp == c && y.st == 1 && one y.job y.ctx y.stream y.page && y.piece == i)).map
        fun i => (job, ctx, stream, page, i)

/-- Take a free rebuild slot for the next piece (R424): the slot is zeroed and REBUILD goes to the piece's holder. -/
def State.startPiece (s : State) (c slot : Nat) : State :=
  match s.ringCfg c with
  | none => s
  | some g =>
    match s.nextPiece c g, s.ringBase c g with
    | some (job, ctx, stream, page, i), some base =>
      match s.strm? job ctx stream, s.page? job ctx stream page with
      | some x, some p =>
        let used := lookD s.rel.rebuilt c 0
        if (s.rslot? c slot).isSome ∨ 64 ≤ slot ∨ s.pdNum 0x3404 c < used + 8 * g.plen then s
        else
          let s := { s with rel := { s.rel with rebuilt := put s.rel.rebuilt c (used + 8 * g.plen) } }
          let off := rebuildBase + 8192 * slot
          let s := s.store (base + off) (List.replicate (128 + g.plen) 0)
          let holder := (holdersFrom g.rank (s.mapOf p).1 (s.pieceCount g x p)).getD i 0
          let s := s.setRslot { comp := c, slot, st := 1, job, ctx, stream, page, piece := i, since := s.timer, lost := g.rank }
          s.ringSend c g holder (ringCmdBytes 1 g.rank s.nodeId (s.mapOf p).2 off [])
      | _, _ => s
    | _, _ => s

/-- REBUILT is raised when a standby's pages and the frames of its rank are complete (R427). -/
def State.checkRebuilt (s : State) (c : Nat) : State :=
  match s.rel.rebuilding.find? fun r => r.1 == c with
  | none => s
  | some (_, ring, rank) =>
    if (s.rel.pendPages.any fun p => p.1 == c) || s.inFlight (fun p => p == .ring c) || (s.rel.ringWait.any fun w => w.1 == c) then s
    else
      let s := { s with rel := { s.rel with rebuilding := s.rel.rebuilding.filter fun r => r.1 != c,
                                            acts := s.rel.acts.filter fun a => !(a.act == 6 && a.subj == c && a.self) } }
      s.event { cls := 7, code := 4, subj := ring, comp := some c, job := s.jobOf c,
                detail := leBytes 1 rank ++ [0, 0, 0] ++ leBytes 8 s.step }

/-- The pages of a composition that show the frame of a page. -/
def State.showing (s : State) (c : Nat) (p : Page) : List (Ctx × Nat × Nat × Page) :=
  (s.compPages c).filter fun y => y.2.2.2.desc.valid && (s.homeOf y.2.2.2).frame == (s.homeOf p).frame

/-- A page that has been rebuilt, or lost, is pending no more, nor is any that shows the same frame. -/
def State.rebuiltPage (s : State) (job ctx stream page : Nat) (l : List (Ctx × Nat × Nat × Page)) : State :=
  (s.unpend fun j k x g => (j, k, x, g) == (job, ctx, stream, page)).unpend fun j k x g =>
    l.any fun y => (j, k, x, g) == (y.1.job, y.1.ctx, y.2.1, y.2.2.1)

/-- The grains of pages are computed anew from the tokens of their frame (R71, R426). -/
def State.regrainAll (s : State) (toks : List Token) (l : List (Ctx × Nat × Nat × Page)) : State :=
  l.foldl (fun (s : State) y =>
    match y.1.strm? y.2.1 with
    | none => s
    | some x =>
      let (sketch, nmax, spread) := grainOf y.1.seed y.2.1 (toks.map (pageK x.kfmt x.scale))
      s.setPage y.1.job y.1.ctx y.2.1 y.2.2.1 fun p =>
        { p with grain := { sketch, nmax, spread, tomb := p.desc.tomb, gen := p.desc.gen, page := y.2.2.1, stream := y.2.1 } }) s

/-- A subsoil frame that has been rebuilt goes to the lender's standby, through the lease window that has moved there (R242, R262). -/
def State.storeSub (s : State) (c : Nat) (p : Page) (bytes : List Byte) : State :=
  let d := s.homeOf p
  match s.leaseOf c d, s.peerQueue c d.node with
  | some l, some q => s.enqueue q (mkWrite 1 l.win l.wgen s.rmo.epoch 0 (16 * d.addr) (bytes.take (64 * d.clen)) false (.tier 0) false s.nextStep)
  | _, _ => s

/-- A page whose pieces are all there is stored (R426): a new frame, of the generation that the slot had (log entry 185), the grains of every page that shows it,
and the descriptor or pool entry; its contributions pass to the standby unchanged, or stay those of a page of this member's own, whose damaged
frame is freed (R407). A frame that was lent goes back to subsoil, on the lender's standby. -/
def State.storePage (s : State) (c : Nat) (g : RingCfg) (job ctx stream page : Nat) : State :=
  match s.strm? job ctx stream, s.page? job ctx stream page with
  | some x, some p =>
    let l := s.showing c p
    let mine (y : Piece) : Bool := (y.job, y.ctx, y.stream, y.page) == (job, ctx, stream, page)
      || l.any fun z => (y.job, y.ctx, y.stream, y.page) == (z.1.job, z.1.ctx, z.2.1, z.2.2.1)
    let n := s.pieceCount g x p
    let got := (List.range n).map fun i => (s.rel.pieces.find? fun y => mine y && y.piece == i).map (·.bytes)
    if got.any (·.isNone) then s
    else if (s.homeOf p).tier = 1 then (s.storeSub c p ((got.map (·.getD [])).flatten)).rebuiltPage job ctx stream page l
    else
      let old := s.homeOf p
      let (first, index) := s.mapOf p
      let len := rawLen x.kfmt x.vfmt x.scale x.dk x.dv x.latent
      let raw := ((got.map (·.getD [])).flatten).take len
      let toks := rawTokens x.kfmt x.vfmt x.scale x.dk x.dv x.latent raw
      let (packed, bytes) := storedForm (pageRegions x.kfmt x.vfmt x.scale x.dk x.dv x.latent) raw (s.pdNum 0x3202 0) (s.packing c)
      let (key, s) := s.allocFrame c page len toks
      let f := lookD s.pg.frames key ⟨0, 0, 1, [], 0, c, 0, false⟩
      let holders := holdersFrom g.rank first n
      let pieces := (List.range n).map fun i =>
        let h := holders.getD i 0
        let (off, seg) := contribSeg g.rank h (recordBytes ctx stream i 0 page old.gen (len / 64)) (padTo g.plen (raw.drop (g.plen * i)))
        ({ comp := c, key, holder := h, frame := index, off, seg } : Contrib)
      let s := (s.setPg fun g => { g with frames := put g.frames key { f with gen := old.gen } }).store f.npa bytes
      let s := s.regrainAll toks l
      let s := s.setHome job ctx stream page p fun e =>
        { e with tier := 0, node := s.nodeId, addr := f.npa / 16, clen := bytes.length / 64, valid := true, packed, frame := key }
      let own := s.rel.damaged.contains old.frame
      let pframes := if own then mapIf (fun y => y.key == old.frame) (fun y => { y with key }) s.rel.pframes else s.rel.pframes ++ pieces
      let s := { s with rel := { s.rel with pframes } }
      let s := if own then s.freeFrameKey old.frame else s
      s.rebuiltPage job ctx stream page l
  | _, _ => s

/-- Whether a rebuild slot is complete (R424): every record position but the lost rank's reads zero, and that one is valid. -/
def slotComplete (bytes : List Byte) (pos : Nat) : Bool :=
  (List.range 8).all fun i =>
    let rec_ := (bytes.drop (16 * i)).take 16
    if i = pos then recordValid rec_ else rec_.all (· == 0)

/-- REBUILD_SLOT_COMPLETE (R424, R426): the piece is stored, unless its generation is not the mirrored descriptor's or the page
waits for it no more. -/
def execRebuildSlotComplete (t c slot : Nat) (s : State) : Res :=
  let s := s.arrive t
  match s.rslot? c slot, s.ringCfg c with
  | some r, some g =>
    match s.ringBase c g, s.page? r.job r.ctx r.stream r.page, s.strm? r.job r.ctx r.stream with
    | some base, some p, some x =>
      let bytes := s.load (base + rebuildBase + 8192 * slot) (128 + g.plen)
      let holder := (holdersFrom g.rank (s.mapOf p).1 (s.pieceCount g x p)).getD r.piece 0
      let pos := recordPos r.lost holder
      if r.st ≠ 1 ∨ !slotComplete bytes pos then .next s
      else
        let gen := bitsOf (field bytes (16 * pos + 12) 2) 0 12
        let s := s.freeRslot c slot
        if gen ≠ (s.homeOf p).gen ∨ !s.rel.pendPages.contains (c, r.ctx, r.stream, r.page, r.job) then .next s
        else
          let y : Piece := { job := r.job, ctx := r.ctx, stream := r.stream, page := r.page, piece := r.piece, bytes := bytes.drop 128 }
          let s := { s with rel := { s.rel with pieces := y :: s.rel.pieces } }
          .next ((s.storePage c g r.job r.ctx r.stream r.page).checkRebuilt c)
    | _, _, _ => .next (s.freeRslot c slot)
  | _, _ => .next s

/-- A page is lost for good (R424, R428), with every page that shows its frame: VALID reads 0, and DATA_LOST gives the count. -/
def State.losePage (s : State) (c job ctx stream page : Nat) : State :=
  match s.page? job ctx stream page with
  | none => s.rebuiltPage job ctx stream page []
  | some p =>
    let l := s.showing c p
    let s := l.foldl (fun (s : State) y => (s.freeDesc y.2.2.2.desc).setPage y.1.job y.1.ctx y.2.1 y.2.2.1 fun p =>
      { p with desc := { p.desc with valid := false } }) s
    let s := s.rebuiltPage job ctx stream page l
    if l = [] then s else s.dataLost c job l.length

/-- REBUILD_SLOT_TIMEOUT (R424): a slot still incomplete after 100 µs makes its page lost and is not used again for a while. -/
def execRebuildSlotTimeout (t c slot : Nat) (s : State) : Res :=
  let s := s.arrive t
  match s.rslot? c slot with
  | none => .next s
  | some r =>
    if r.st ≠ 1 ∨ s.timer < r.since + 100 * us then .next s
    else
      let s := s.setRslot { r with st := 2, since := s.timer }
      let s := if s.rel.pendPages.contains (c, r.ctx, r.stream, r.page, r.job) then s.losePage c r.job r.ctx r.stream r.page else s
      .next (s.checkRebuilt c)

/-- REBUILD_SLOT_QUARANTINE_END (R424). -/
def execRebuildSlotQuarantineEnd (t c slot : Nat) (s : State) : Res :=
  let s := s.arrive t
  match s.rslot? c slot with
  | none => .next s
  | some r =>
    .next (if r.st == 2 && decide (r.since + s.pdNum 0x4101 1 * (s.pdNum 0x4101 2 + 1) * us ≤ s.timer) then s.freeRslot c slot else s)

/-! ### Faults of peers and roles (R418 to R421) -/

/-- PEER_UNREACHABLE (R417, R418): a node that shares a ring or a connection, and to which no port of the route has been UP for
PD 0x7101.00 µs. -/
def execPeerUnreachable (t node : Nat) (s : State) : Res :=
  let s := s.arrive t
  let ps := portList (s.routeMask node)
  let dark := ps.all fun p => (s.port p).st != .up && decide ((s.port p).downAt + s.pdNum 0x7101 0 * us ≤ s.timer)
  let rings := (List.range 16).filterMap fun c => (s.ringCfg c).bind fun g =>
    ((List.range 9).find? fun r => (g.ranks.getD r (0, 0)).1 == node && r != g.rank).map fun r => (c, g, r)
  let conn := (s.rmo.send.any fun e => e.2.valid && e.2.fdest == node) || s.rmo.recv.any fun e => e.2.valid && e.2.osrc == node
  if !s.ready || !dark || (rings = [] ∧ conn = false) || s.rel.unreach.contains node then .next s
  else
    let s := { s with rel := { s.rel with unreach := node :: s.rel.unreach.filter fun n => !s.reaches n } }
    let say (s : State) (ring rank : Nat) (comp : Option Nat) : State :=
      let s := s.event { cls := 7, code := 1, subj := node, detail := leBytes 1 5 ++ leBytes 1 rank }
      s.sendNotice { phase := s.phase, node := s.nodeId, subj := node, scope := 5, comp, ring, rank }
    if rings = [] then .next (say s 0 0 none)
    else .next (rings.foldl (fun s x => say s x.2.1.ring x.2.2 (some (x.2.1.ranks.getD x.2.2 (0, 0)).2)) s)

/-- A ring configuration with another member at a rank, and perhaps another rank of its own (R419). -/
def ringPatch (b : List Byte) (rank node comp : Nat) (own : Option Nat) : List Byte :=
  let b := patch b (8 + 4 * rank) (leBytes 2 node ++ leBytes 1 comp)
  match own with
  | some r => patch b 4 (leBytes 1 r)
  | none => b

/-- A page of a mirrored context as the standby takes it: its frame's key moved past those in use here, and one in hardpan or subsoil, which the
standby cannot read, absent (R388, R428; log entry 183). -/
def Page.taken (p : Page) (base : Nat) (gone : Bool) : Page :=
  { p with desc := { p.desc with frame := base + p.desc.frame, valid := p.desc.valid && !gone } }

/-- A context as a standby takes it from the mirror (R421). -/
def Ctx.taken (k : Ctx) (c job base : Nat) (gone : Page → Bool) : Ctx :=
  { k with comp := c, job, streams := k.streams.map fun x => (x.1, { x.2 with pages := x.2.pages.map fun p => p.taken base (gone p) }) }

/-- Whether the partner of a rank is lost with it (R428): its node is unreachable, or its rank passes at the same Phase. Log entry 188. -/
def State.partnerLost (s : State) (g : RingCfg) (r : Role) : Bool :=
  let pr := (r.rank + 1) % 9
  s.rel.unreach.contains (g.ranks.getD pr (0, 0)).1 || s.rel.roles.any fun x => x.ring == r.ring && x.rank == pr && x.phase == r.phase

/-- The contexts and share-pool entries of a lost member come to its standby (R409, R421): they enter the directory, and every page of theirs is
pending, in ascending (holder rank, frame) (R427). What lay in hardpan or subsoil is lost with the node (R428). -/
def State.takeMirror (s : State) (c ring rank : Nat) : State :=
  let job := s.jobOf c
  let base := s.pg.nextKey
  let es := Config.mirrorPool ring rank
  let home (p : Page) : Desc := if p.desc.borrowed then (look es p.desc.frame).elim p.desc (·.desc) else p.desc
  let gone (p : Page) : Bool := p.desc.valid && (home p).tier != 0
  let ks0 := Config.mirrorOf ring rank
  let ks := ks0.map fun k => k.taken c job base gone
  let pagesOf (l : List Ctx) : List (Ctx × Nat × Nat × Page) :=
    (l.map fun k => (k.streams.map fun x => x.2.pages.zipIdx.map fun p => (k, k.idOf x.1, p.2, p.1)).flatten).flatten
  let lost := ((pagesOf ks0).filter fun y => gone y.2.2.2).length
  let top := (es.map (·.1) ++ es.map (·.2.desc.frame) ++ (pagesOf ks0).map (·.2.2.2.desc.frame)).foldl max 0
  let s := s.setPg fun g => { g with nextKey := base + top + 1 }
  let s := es.foldl (fun (s : State) e =>
    s.putPool (base + e.1) { e.2 with comp := c, desc := { e.2.desc with frame := base + e.2.desc.frame } }) s
  let s := ks.foldl (fun (s : State) k => s.enterCtx k) s
  let s := if lost = 0 then s else s.dataLost c job lost
  let pend := ((pagesOf ks).filter fun y => y.2.2.2.desc.valid && (s.homeOf y.2.2.2).tier == 0).map fun y =>
    (s.mapOf y.2.2.2, (c, y.1.ctx, y.2.1, y.2.2.1, job))
  let before (a b : (Nat × Nat) × Nat × Nat × Nat × Nat × Nat) : Bool :=
    decide (a.1.1 < b.1.1) || (a.1.1 == b.1.1 && decide (a.1.2 < b.1.2))
  { s with rel := { s.rel with pendPages := s.rel.pendPages ++ (sortBy before pend).map (·.2) } }

/-- The rebuild of a composition's rank begins (R427); it ends a conflicting MIGRATE or FWUPDATE (R440). -/
def State.rebuildBegins (s : State) (c : Nat) (r : Role) : State :=
  let act : Act := { act := 6, subj := c, inst := s.rel.nextInst, since := s.phase, self := true }
  let acts := s.rel.acts.filter fun a => !((a.act == 3 && a.subj == c) || a.act == 7)
  { s with rel := { s.rel with acts := acts ++ [act], nextInst := s.rel.nextInst + 1,
                               rebuilding := (c, r.ring, r.rank) :: s.rel.rebuilding } }

/-- A new holder zeroes its parity frames (R425). -/
def State.zeroFrames (s : State) (c : Nat) (g : RingCfg) : State :=
  match s.ringBase c g with
  | some b => s.zeroise (b + parityBase) (s.parityArea c * (128 + g.plen))
  | none => s

/-- This node's composition takes a lost rank (R421, R427): its ring record, the mirror unless the partner is lost too (R428), and
RECONTRIBUTE for the frames that the rank held, which it has zeroed. -/
def State.takeRank (s : State) (r : Role) : State :=
  let c := r.standC
  match s.ringCfg c with
  | none => s
  | some g =>
    if g.ring ≠ r.ring then s
    else
      let s := s.pdSet 0x3400 c (ringPatch (s.pd.bytes 0x3400 c) r.rank r.standby r.standC (some r.rank))
      let s := if s.partnerLost g r then s else s.takeMirror c r.ring r.rank
      let g := { g with rank := r.rank }
      let s := (s.rebuildBegins c r).zeroFrames c g
      ((List.range 9).filter fun m => m != r.rank).foldl (fun s m =>
        s.ringSend c g m (ringCmdBytes 3 r.rank s.nodeId 0 0 [])) s

/-- A fresh copy of a composition's directory and silt goes to its partner (R409, R421). -/
def State.copyMirror (s : State) (c : Nat) : State :=
  (s.pg.ctxs.filter fun k => k.comp == c).foldl (fun s k =>
    let dir := k.rootBytes ++ (k.streams.map fun x => (x.2.pages.map fun p => p.desc.toBytes ++ p.grain.toBytes).flatten).flatten
    let silt := (k.streams.map fun x => (x.2.toks.map fun y => slotBytes x.2 y).flatten).flatten
    let (n, s) := s.draw
    (s.sendMirror c (dir ++ silt) (.mirror n) false s.nextStep).2) s

/-- A page that lay in subsoil with a lost lender (R242, R262): its descriptor names the standby, and it is pending: it is rebuilt from the ring. What was never contributed is lost (R415, R428). -/
def State.subLost (s : State) (c standby : Nat) (y : Ctx × Nat × Nat × Page) : State :=
  let d := s.homeOf y.2.2.2
  let s := s.setHome y.1.job y.1.ctx y.2.1 y.2.2.1 y.2.2.2 fun d => { d with node := standby }
  if !(s.rel.pframes.any fun x => x.key == d.frame) then s.losePage c y.1.job y.1.ctx y.2.1 y.2.2.1
  else { s with rel := { s.rel with pendPages := s.rel.pendPages ++ [(c, y.1.ctx, y.2.1, y.2.2.1, y.1.job)] } }

/-- The lease windows on a lost lender move with its rank (R262): the leases name the standby, and so do the descriptors of what lies there, which is
rebuilt (R242). -/
def State.moveLeases (s : State) (lost standby : Nat) : State :=
  let mine := s.leases.filter fun l => l.2.active && !l.2.lender && l.2.peer == lost
  mine.foldl (fun (s : State) l =>
    let ys := s.pagesAt l.2.comp l.1
    let s := s.pdSet 0x8030 l.1 (patch (padTo 32 (s.pd.bytes 0x8030 l.1)) 2 (leBytes 2 standby))
    ys.foldl (fun (s : State) y => s.subLost l.2.comp standby y) s) s

/-- A ROLE notice takes effect (R419, R421): every member of the ring takes the new holder of the rank into its record; the standby
takes the rank; the member before it sends its mirrors to the new partner. -/
def State.roleTaken (s : State) (r : Role) : State :=
  let s := ({ s with rel := { s.rel with roles := s.rel.roles ++ [r] } }).moveLeases r.lost r.standby
  let s := s.event { cls := 7, code := 3, subj := r.ring, detail := leBytes 1 r.rank ++ [0] ++ leBytes 2 r.standby }
  let mine := (List.range 16).filter fun c => (s.ringCfg c).elim false fun g => g.ring == r.ring && g.rank != r.rank && (s.comp? c).isSome &&
    !(s.nodeId == r.standby && c == r.standC)
  let s := mine.foldl (fun s c =>
    let s := s.pdSet 0x3400 c (ringPatch (s.pd.bytes 0x3400 c) r.rank r.standby r.standC none)
    if (s.ringCfg c).any fun g => (g.rank + 1) % 9 == r.rank then s.copyMirror c else s) s
  if s.nodeId = r.standby then s.takeRank r else s

/-- ROLE_NOTICE (R419, R421). -/
def execRoleNotice (t : Nat) (r : Role) (s : State) : Res :=
  let s := s.arrive t
  .next (if s.ready then s.mgmtTake.roleTaken r else s)

/-! ### Admission (R430 to R434) -/

/-- An admission command (R430, R434). One that finds another admission running is refused. -/
def State.admission? (s : State) (shadow : Bool) (outcome snode scomp lcomp : Nat) : State :=
  if s.rel.joining.isSome then { s with rel := { s.rel with astatus := .busyConflict } }
  else if 1 < outcome ∨ (s.comp? lcomp).isNone ∨ (!shadow ∧ outcome = 0 ∧ s.phs.sync) then
    { s with rel := { s.rel with astatus := .unsupported } }
  else
    let a : Admit := { shadow, outcome, snode, scomp, lcomp, tested := false, steps := 0, clean := true, own := [], ready := false }
    { s with rel := { s.rel with joining := some a, astatus := .notReady, aFail := 0 } }

/-- SHADOW (R430, R432). -/
def execShadow (t outcome snode scomp lcomp : Nat) (s : State) : Res :=
  let s := s.arrive t
  .next (if s.ready then s.admission? true outcome snode scomp lcomp else s)

/-- LOAD (R430, R434). -/
def execLoad (t outcome snode scomp lcomp : Nat) (s : State) : Res :=
  let s := s.arrive t
  .next (if s.ready then s.admission? false outcome snode scomp lcomp else s)

/-- ADMISSION_SELF_TEST_DONE (R431): a failure tears the local composition down; else the shadow begins, on margins
that software has set FIXED (R153, R432), or the load waits for the next step boundary (R434). -/
def execAdmissionSelfTestDone (t failures : Nat) (s : State) : Res :=
  let s := s.arrive t
  match s.rel.joining with
  | none => .next s
  | some a =>
    if a.tested then .next s
    else if failures ≠ 0 then
      .next ({ s with rel := { s.rel with joining := none, aFail := failures, astatus := .faultTorndown } }.teardown a.lcomp)
    else .next { s with rel := { s.rel with joining := some { a with tested := true, ready := !a.shadow } } }

/-- The image of a shadow is zeroised (R433). -/
def State.dropImage (s : State) (c : Nat) : State := (s.forgetData c).zeroiseComp c

/-- SHADOW_COMPARE (R433): a block of the source against the shadow's own. A mismatch ends the shadowing; 1,024 compared steps let the
node in, a held step counting for nothing. -/
def execShadowCompare (t : Nat) (b : ShadowBlock) (s : State) : Res :=
  let s := s.arrive t
  match s.rel.joining with
  | none => .next s
  | some a =>
    match a.own.find? fun o => o.1 == b.req && o.2.1 == b.sec with
    | none => .next s
    | some o =>
      if !a.shadow || !a.tested then .next s
      else if a.clean && o.2.2 != b.crc then
        let s := { s with rel := { s.rel with joining := none, astatus := .integrity } }
        .next ((s.event { cls := 7, code := 7, subj := (s.ringCfg a.lcomp).elim 0 (·.ring), comp := some a.lcomp,
                          detail := [0, 0, 0, 0] ++ leBytes 8 b.step }).dropImage a.lcomp)
      else
        let own := a.own.filter fun x => x != o
        let steps := if b.last ∧ a.clean then a.steps + 1 else a.steps
        .next { s with rel := { s.rel with joining := some { a with own, steps, ready := decide (1024 ≤ steps) } } }

/-- Admission at a step boundary (R433, R434): a node that is ready is admitted, and ADMITTED is raised; a verified standby's image is
zeroised. A new step is clean until it is held. -/
def State.admitStep (s : State) : State :=
  match s.rel.joining with
  | none => s
  | some a =>
    if !a.ready then { s with rel := { s.rel with joining := some { a with clean := true, own := [] } } }
    else
      let s := { s with rel := { s.rel with joining := none, astatus := .ok } }
      let s := s.event { cls := 7, code := 8, subj := (s.ringCfg a.lcomp).elim 0 (·.ring), comp := some a.lcomp, detail := leBytes 1 a.outcome }
      if a.shadow ∧ a.outcome = 1 then s.dropImage a.lcomp else s

/-! ### Maintenance (R437 to R440) -/

/-- Whether two activities may not run together (R438): by their IDs and subjects. -/
def actConflict (a sa b sb : Nat) : Bool :=
  let pair (x y : Nat) : Bool := (a == x && b == y) || (a == y && b == x)
  let same := sa == sb
  if a = b then (if a = 4 ∨ a = 7 then true else same)
  else (pair 3 6 && same) || pair 5 6 || pair 6 7

/-- The subject of an activity is a composition, or of RETRAIN a port, in its range (R9, R439). -/
def subjectOk (act subj : Nat) : Bool := decide (subj < if act = 5 then 8 else 16)

/-- The argument of a start lies in its range (R3, R9, R439): SCRUB 0, REFRATE 0 or 1, FWUPDATE an NPA in HBM; the other activities
have none. -/
def argOk (act arg : Nat) : Bool :=
  if act = 1 then arg == 0 else if act = 4 then decide (arg ≤ 1) else if act = 7 then isHbm arg else true

/-- MAINTENANCE_START (R437 to R439): refused where it conflicts with a running activity, and for FWUPDATE and REFRATE in any
shedding stage (R463); else it runs. -/
def execMaintenanceStart (t act subj arg : Nat) (s : State) : Res :=
  let s := s.arrive t
  if !s.ready then .next s
  else if act = 0 ∨ 7 < act ∨ !subjectOk act subj ∨ !argOk act arg then .next { s with rel := { s.rel with mstatus := .unsupported, mAct := 0, mInst := 0 } }
  else if (act = 4 ∨ act = 7) ∧ 1 ≤ s.pwr.stage then .next { s with rel := { s.rel with mstatus := .busyConflict, mAct := 0, mInst := 0 } }
  else match s.rel.acts.find? fun a => actConflict act subj a.act a.subj with
    | some a => .next { s with rel := { s.rel with mstatus := .busyConflict, mAct := a.act, mInst := a.inst } }
    | none =>
      let inst := s.rel.nextInst
      let new : Act := { act, subj, inst, since := s.phase, self := false }
      let s := { s with rel := { s.rel with mstatus := .ok, mAct := 0, mInst := 0, nextInst := inst + 1, acts := s.rel.acts ++ [new] } }
      if act = 4 then
        let h := if s.hbm.refLock then s.hbm else { s.hbm with force2x := bitAt arg 0 }
        .next { s with hbm := { h with refPend := true, pendAt := if h.refPend then h.pendAt else s.timer } }
      else if act = 5 then .next (if (s.port subj).st == .up then s.goRetrain subj else s)
      else .next s

/-- MAINTENANCE_STOP (R439). -/
def execMaintenanceStop (t act subj : Nat) (s : State) : Res :=
  let s := s.arrive t
  if !s.ready then .next s
  else if !subjectOk act subj then .next { s with rel := { s.rel with mstatus := .unsupported, mAct := 0, mInst := 0 } }
  else .next { s with rel := { s.rel with mstatus := .ok, mAct := 0, mInst := 0,
                                          acts := s.rel.acts.filter fun a => !(a.act == act && a.subj == subj && !a.self) } }

/-- FWUPDATE_STAGED (R439): the image is in the inactive bank, and the activity is over. -/
def execFwupdateStaged (t : Nat) (s : State) : Res :=
  let s := s.arrive t
  .next { s with rel := { s.rel with acts := s.rel.acts.filter fun a => a.act != 7 } }

/-- Activities that have ended of themselves leave the list: a retrain whose port is not in retrain any more, a refresh rate that has
changed (R439). -/
def State.actsDone (s : State) : State :=
  { s with rel := { s.rel with acts := s.rel.acts.filter fun a =>
      !(a.act == 5 && (s.port a.subj).st != .retrain && (s.port a.subj).st != .training) && !(a.act == 4 && !s.hbm.refPend) } }

/-- The counts of scrub, tamping and relocation begin anew at a step boundary, and a standby whose rank is complete says so. -/
def State.relStep (s : State) : State :=
  let s := { s with rel := { s.rel with scrubbed := [], tamped := [], rebuilt := [] } }
  let s := (s.rel.rebuilding.map (·.1)).foldl (fun (s : State) c => s.checkRebuilt c) s
  s.actsDone.admitStep

end Machine

end Sys2Proof
end

