-- ==== Sys2Proof/Machine/Tamp.lean ====
section
/-! DEFINITION. Tamping (R100 to R102): the candidates of a composition, and what it does to them. -/

namespace Sys2Proof.Machine

/-! ### Tamping (R100 to R102) -/

/-- Bytes that a composition may still tamp in this step (R102). -/
def State.tampRoom (s : State) (c : Nat) : Nat := s.pdNum 0x3203 2 - lookD s.rel.tamped c 0

/-- The pseudo-channel and the place of a page that is relocated within its own pseudo-channel. -/
def State.placeNear (s : State) (d : Desc) : Nat × State := s.place (pcOf (16 * d.addr)) 512

/-- The next candidate of a composition (R102): the frame of topsoil that lies next, in ascending (pseudo-channel, address) order, behind
the one tamped last, or the first of all; as job, context, stream, page, address and stored bytes. -/
def State.nextTamp (s : State) (c : Nat) : Option (Nat × Nat × Nat × Nat × Nat × Nat) :=
  let all := (s.compPages c).filterMap fun y =>
    let d := s.homeOf y.2.2.2
    if y.1.dormant || !d.valid || d.tier != 0 then none else some (y.1.job, y.1.ctx, y.2.1, y.2.2.1, 16 * d.addr, 64 * d.clen)
  let at_ := lookD s.rel.tampAt c 0
  let low (l : List (Nat × Nat × Nat × Nat × Nat × Nat)) : Option (Nat × Nat × Nat × Nat × Nat × Nat) :=
    l.foldl (fun b x => match b with
      | none => some x
      | some y => if x.2.2.2.2.1 < y.2.2.2.2.1 then some x else some y) none
  match low (all.filter fun x => decide (at_ < x.2.2.2.2.1)) with
  | some x => some x
  | none => low all

/-- The place of a page that may be tamped: a frame in topsoil of a context that is not dormant, with its composition. -/
def State.tampHome (s : State) (job ctx stream page : Nat) : Option (Nat × Desc) :=
  match s.ctx? job ctx, s.page? job ctx stream page with
  | some k, some p =>
    let d := s.homeOf p
    if !k.dormant && d.valid && d.tier == 0 then some (k.comp, d) else none
  | _, _ => none

/-- Take a page for tamping (R102, R104): where tamping is on and the bytes of the step allow, they are counted, and the candidates go on
behind it. -/
def State.tampTake (s : State) (job ctx stream page : Nat) : Bool × State :=
  match s.tampHome job ctx stream page with
  | none => (false, s)
  | some (c, d) =>
    if !s.pdBool 0x3203 1 ∨ s.tampRoom c < 64 * d.clen then (false, s)
    else (true, { s with rel := { s.rel with tamped := bump s.rel.tamped c (64 * d.clen), tampAt := put s.rel.tampAt c (16 * d.addr) } })

/-- Relocate one page of topsoil within its pseudo-channel, and repack it where a full repack saves the sectors of R68 over the
current form (R100, R101): the new frame, then one write of the descriptor or pool entry. -/
def State.tampPage (s : State) (job ctx stream page : Nat) : State :=
  match s.ctx? job ctx, s.strm? job ctx stream, s.page? job ctx stream page with
  | some k, some x, some p =>
    match s.frameOf p.desc with
    | none => s
    | some (d, f) =>
      if d.tier ≠ 0 ∨ k.dormant then s
      else
        let raw := rawPage x.kfmt x.vfmt x.scale x.latent f.toks
        let pk := packPage (pageRegions x.kfmt x.vfmt x.scale x.dk x.dv x.latent) raw
        let gain := s.packing k.comp && decide (sectors pk.length + s.pdNum 0x3202 0 ≤ sectors (64 * d.clen))
        let (npa, s) := s.placeNear d
        s.switchForm job ctx stream page 0 s.nodeId (npa / 16) gain
  | _, _, _ => s

/-! ### Claims of the near-memory units (R102, R214 to R216) -/

/-- Whether a bank of a W-stack channel is one on which a held request, or a held host access, has yet to be granted (R216). -/
def State.bankHeld (s : State) (w ch b : Nat) : Bool :=
  let g := nmuPc w ch b
  (s.arb g).raised.any (fun r => touchesBank r (b % 32) && (s.arb g).held.contains r.port) ||
    s.hbm.hostHeld.any fun h => (banksOf h.npa h.len).contains (g, b % 32)

/-- A request for NMU compute of a channel that can take it (R214, R215): the governor grants CLAIM within MAXNMU and MAXBANK, or denies
and counts. Compute that is shed or denied by heat is denied alike (R454, R456). A bank on which a held request has yet to be granted is
not claimed again (R216), and the NMU of a channel that is granted to a search for the span of its slot takes no other work (R169). Whether it
was granted; none where the channel cannot take it. -/
def State.nmuClaim (s : State) (w : Nat) (q : NmuReq) : Option Bool × State :=
  let g := s.gov w
  let load := s.nmuLoad w
  let scan := match q.op with | .sketchScan _ _ => true | _ => false
  if (s.nmu w q.ch).st ≠ .idle ∨ q.banks.any (s.bankHeld w q.ch) ∨ ((s.scanGrants w).contains q.ch ∧ !scan) then (none, s)
  else if load.1 + s.scanHeld w q.ch + 1 ≤ g.maxnmu ∧ load.2 + q.banks.length ≤ g.maxbank ∧ q.banks.length ≤ 8 ∧ !s.nmuShed then
    (some true, s.setNmu w q.ch { st := .claim, op := q.op, banks := q.banks, writes := [], recs := [], till := 0 })
  else (some false, (s.setGov w { g with deny := true }).count 0x3040 1)

/-- Tamp a candidate: a tile moves it, and where its frame lies in a W-stack the NMU of its channel is asked to (R102, R213); denied work
waits (R214). -/
def State.tampGo (s : State) (job ctx stream page : Nat) : State :=
  match s.tampHome job ctx stream page with
  | none => s
  | some (_, d) =>
    let npa := 16 * d.addr
    if !(s.tampTake job ctx stream page).1 then s
    else if !isW (pcOf npa) then (s.tampTake job ctx stream page).2.tampPage job ctx stream page
    else
      let banks := ((banksOf npa (64 * d.clen)).map fun b => pcOf npa % 2 * 32 + b.2).take 8
      let q : NmuReq := { ch := pcOf npa % 64 / 2, r := s.phase, d := none, banks, op := .tamp job ctx stream page }
      if (s.nmuClaim (pcOf npa / 192) q).1 = some true then ((s.tampTake job ctx stream page).2.nmuClaim (pcOf npa / 192) q).2
      else (s.nmuClaim (pcOf npa / 192) q).2

/-- Fold a pool entry whose REFC is 1 back into its last borrower, which keeps its GEN, TOMB and SPIN (R96, R100): the slot is written as an
ordinary descriptor. -/
def State.tampFold (s : State) (c entry : Nat) : State :=
  match look s.pg.pool entry with
  | none => s
  | some e =>
    if e.comp ≠ c ∨ e.desc.refc ≠ 1 ∨ !s.pdBool 0x3203 1 ∨ !s.pdBool 0x3203 3 then s
    else
      let pm : PMap := match s.rel.pframes.find? fun x => x.key == e.desc.frame with
        | some x => { holder := x.holder, valid := true, frame := x.frame }
        | none => PMap.none
      let fold (p : Page) : Page :=
        { p with desc := { e.desc with refc := 1, gen := p.desc.gen, tomb := p.desc.tomb, spin := p.desc.spin, valid := p.desc.valid }, pmap := pm }
      let mine := (s.compPages c).filter fun y => y.2.2.2.desc.borrowed && y.2.2.2.desc.frame == entry
      (mine.foldl (fun (s : State) y => s.setPage y.1.job y.1.ctx y.2.1 y.2.2.1 fold) s).dropPool entry

end Sys2Proof.Machine
end

