-- ==== Sys2Proof/Machine/Schedule.lean ====
section
/-! DEFINITION. Slot tables: their loading and validation, the work of a slot, the class correction, and the 1 ms boundaries of
coarsening (02, R45 to R60, R93, R398). -/

namespace Sys2Proof.Machine

/-! ### Validation (R47, R48, R535) -/

/-- The operation classes of R46. -/
def knownClass (c : Nat) : Bool := (decide (1 ≤ c) && decide (c ≤ 11)) || c == 15

/-- The stream classes, which hold no tiles. -/
def streamClass (c : Nat) : Bool := c == 5 || c == 6

/-- The classes whose BYTES is checked (R535): all but SILT_FLUSH and RESERVE. -/
def bytesClass (c : Nat) : Bool := knownClass c && c != 4 && c != 15

/-- Whether the formulas of R50 give an entry's bound a value: k and the rates are given for the FMT of R45 alone, and a quotient
needs its divisor. Where they do not, check 0x05 or 0x07 refuses the entry; log entry 120. -/
def State.hasBound (s : State) (e : Slot) : Bool :=
  match e.opclass with
  | 1 | 2 => e.tiles != 0 && (e.ports != 0 || s.single) && decide (e.fmt ≤ 2)
  | 5 | 6 => s.compExists e.comp && decide (e.fmt ≤ 2)
  | 7 => (e.fmt == 0 || e.fmt == 2) && e.rows != 0
  | 8 | 9 | 10 | 11 => e.tiles != 0 || s.compExists e.comp
  | c => knownClass c && c != 15

/-- The ticks that check 0x03 asks of SPAN: the bound of R50 in whole ticks, with the work ahead that R51 adds. RESERVE is exempt, and
an entry whose bound has no value asks nothing. -/
def State.spanNeeded (s : State) (e : Slot) : Nat :=
  let n := tileCount e.tiles
  let b := s.bound e.maxima n (tileCount (BitVec.ofNat 48 e.ports.toNat))
  if !s.hasBound e then 0
  else if e.opclass ≤ 2 then ticksUp (((4 * b : Nat) : Rat) + ((e.reqs - 1 : Nat) : Rat) * s.interval e.maxima n)
  else if e.opclass = 4 then b
  else e.reqs * b

/-- The place of an entry in the order of check 0x01. -/
def Slot.orderKey (e : Slot) : Nat := (if e.any then 4096 else e.layer) * 65536 + e.start

/-- Check 0x04 between two entries; an empty span meets none. -/
def Slot.clash (a b : Slot) : Bool :=
  (a.tiles &&& b.tiles) != 0 && a.span != 0 && b.span != 0 && (a.any || b.any || a.layer == b.layer) && decide (a.start < b.start + b.span)
    && decide (b.start < a.start + a.span)

/-- The fields that R535 checks for a class (check 0x07). -/
def Slot.fieldsBad (e : Slot) (layers : Nat) : Bool :=
  let reqsBad := e.reqs == 0
  let noTiles := e.tiles == 0
  (!e.any && decide (layers ≤ e.layer)) ||
    match e.opclass with
    | 1 | 2 => noTiles || e.ports == 0 || decide (2 < e.fmt) || reqsBad || e.rows == 0 || decide (512 < e.rows) || decide (16 < e.sketch)
        || decide (e.dhead < 16) || decide (576 < e.dhead)
    | 3 => noTiles || reqsBad
    | 4 => noTiles
    | 5 | 6 => !noTiles || decide (2 < e.fmt) || reqsBad
    | 7 => noTiles || (e.fmt != 0 && e.fmt != 2) || reqsBad || e.rows == 0 || decide (64 < e.rows)
    | 15 => false
    | c => !knownClass c || reqsBad

/-- The lowest ERR that an entry fails, behind the valid entries before it (R48). -/
def State.entryErr (s : State) (before : List Slot) (e : Slot) : Nat :=
  let limit := if streamClass e.opclass then 65535 else s.period
  let slices := (s.slicesOf e.comp).length
  if before.any fun b => decide (e.orderKey < b.orderKey) then 1
  else if decide (limit < e.start + e.span) then 2
  else if decide (e.span < s.spanNeeded e) then 3
  else if before.any fun b => b.clash e then 4
  else if !s.compExists e.comp || (e.opclass != 15 && (e.tiles &&& ~~~s.compTiles e.comp) != 0) then 5
  else if bytesClass e.opclass && decide (e.span * 5340 * slices < e.bytes * 64) then 6
  else if e.fieldsBad s.layers then 7
  else 0

/-- The first failing entry of a list of valid entries: its ERR and its slot ID. -/
def State.firstErr (s : State) (before : List Slot) : List (Nat × Slot) → Option (Nat × Nat)
  | [] => none
  | (i, e) :: rest =>
    let err := s.entryErr before e
    if err = 0 then s.firstErr (before ++ [e]) rest else some (err, i)

/-- Validation of the shadow bank (R48): ERR and ERR_ENTRY, 0 when it passes. -/
def State.validate (s : State) : Nat × Nat :=
  let n := s.sch.count
  if n = 0 ∨ 4096 < n then (7, 0)
  else
    match s.firstErr [] ((s.sch.bankOf (1 - s.sch.bank)).filter fun e => e.2.valid && decide (e.1 < n)) with
    | some r => r
    | none => if laterStep s.sch.step s.step then (0, 0) else (8, 0)

/-- A bank is frozen while it validates or waits (R47). -/
def SchedSt.frozen (c : SchedSt) : Bool := c.validating || c.pending

/-- SCH_COMMIT_HI is written (R47, R49). A write with CANCEL = 1 only withdraws; another is ignored while the bank is frozen. -/
def State.writeCommitHi (s : State) (v : Nat) : State :=
  if bitAt v 30 then { s with sch := { s.sch with validating := false, pending := false } }
  else if s.sch.frozen then { s with sch := { s.sch with wign := true } }
  else { s with sch := { s.sch with stepHi := bitsOf v 0 4, validating := bitAt v 31 } }

/-- SCHEDULE_GO (R47): SCH_COMMIT_HI is written with GO. -/
def execScheduleGo (t stepHi : Nat) (s : State) : Res :=
  let s := s.arrive t
  .next (if s.ready then s.writeCommitHi (fieldAt stepHi 4 0 + 2 ^ 31) else s)

/-- SCHEDULE_CANCEL (R47): SCH_COMMIT_HI is written with CANCEL. -/
def execScheduleCancel (t : Nat) (s : State) : Res :=
  let s := s.arrive t
  .next (if s.ready then s.writeCommitHi (2 ^ 30) else s)

/-- SCHEDULE_VALIDATION_DONE (R47, R48): the bank waits for its step, or is refused with its cause. -/
def execScheduleValidationDone (t : Nat) (s : State) : Res :=
  let s := s.arrive t
  if !s.ready ∨ !s.sch.validating then .next s
  else
    let (err, entry) := s.validate
    .next { s with sch := { s.sch with validating := false, pending := err == 0, err, errEntry := entry } }

/-- At layer 0 of its step, a pending bank becomes active and the other becomes the shadow (R47). A change of the core slope limit
takes effect with it (R465). -/
def State.bankStep (s : State) : State :=
  if s.sch.pending && !laterStep s.sch.step s.step then
    let b := 1 - s.sch.bank
    { s with sch := { s.sch with bank := b, pending := false, act0 := if b = 0 then s.sch.count else s.sch.act0,
                                 act1 := if b = 1 then s.sch.count else s.sch.act1 },
             pwr := { s.pwr with slew := s.pwr.slewNext.getD s.pwr.slew, slewNext := none, rises := [] } }
  else s

/-! ### The work of a slot (R53, R93, R94) -/

/-- A best-effort scrub of a composition's topsoil by a number of bytes, within those of the step (R405). -/
def State.scrubBytes (s : State) (c n : Nat) : State :=
  let used := lookD s.rel.scrubbed c 0
  { s with rel := { s.rel with scrubbed := put s.rel.scrubbed c (min (s.pdNum 0x3410 1) (used + n)) } }

/-- Reseal subsoil and hardpan data under the new key generation (R391): so many bytes of it. -/
def State.reseal (s : State) (c n : Nat) : State := s.setComp c fun k => { k with oldBytes := k.oldBytes - n }

/-- The full pages of committed tokens that wait on a tile's streams of a composition, oldest first commit first, then context, then
stream (R93). -/
def State.sealOrder (s : State) (c tile : Nat) : List (Nat × Nat × Nat × Nat) :=
  let all := (s.pg.ctxs.filter fun k => k.comp == c).map fun k =>
    (k.streams.filter fun x => x.2.tile == tile && x.2.nextSeal.isSome && !s.sealHeld k (k.idOf x.1) x.2).map fun x =>
      (x.2.born.getD (16 * x.2.pages.length - x.2.base) 0, k.ctx, k.idOf x.1, k.job)
  sortBy (fun a b => decide (a.1 < b.1) || (a.1 == b.1 && (decide (a.2.1 < b.2.1) || (a.2.1 == b.2.1 && decide (a.2.2.1 < b.2.2.1)))))
    all.flatten

/-- One tile of a SILT_FLUSH slot seals up to so many pages (R93). How many it sealed. -/
def State.sealTile (s : State) (c tile : Nat) : Nat → Nat × State
  | 0 => (0, s)
  | n + 1 =>
    match s.sealOrder c tile with
    | [] => (0, s)
    | (_, ctx, stream, job) :: _ =>
      let (m, s) := (s.sealNext job ctx stream).sealTile c tile n
      (m + 1, s)

/-- The streams of a tile whose next seal waits for their tables are recalled first (R262). -/
def State.recallSeals (s : State) (c tile : Nat) : State :=
  (s.pg.ctxs.filter fun k => k.comp == c).foldl (fun (s : State) k =>
    let ns := (k.streams.filter fun x => x.2.tile == tile && x.2.nextSeal.isSome && sealWaits k x.2).map fun x => k.idOf x.1
    if ns = [] then s else s.recallStreams k ns none []) s

/-- A SILT_FLUSH slot (R93): each tile seals at most PAGES less what it sealed in the slot, in this layer, in earlier attempts of the
step. -/
def State.flushSlot (s : State) (id : Nat) (e : Slot) : State :=
  let slot := phLayer s.phs.base * 4096 + id
  (tileList e.tiles).foldl (fun (s : State) tile =>
    let done := (s.sch.sealed.find? fun x => x.1 == slot && x.2.1 == tile).elim 0 (·.2.2)
    let (m, s) := (s.recallSeals e.comp tile).sealTile e.comp tile (e.pages - done)
    { s with sch := { s.sch with sealed := (slot, tile, done + m) :: s.sch.sealed.filter fun x => !(x.1 == slot && x.2.1 == tile) } }) s

/-- What a flush sealed counts in PAGES, and what may be released is (R94). -/
def State.countSlot (s : State) (e : Slot) : State :=
  let mine := (s.pg.ctxs.filter fun k => k.comp == e.comp).map fun k =>
    (k.streams.filter fun x => bitAt e.tiles.toNat x.2.tile).map fun x => (k.job, k.ctx, k.idOf x.1)
  mine.flatten.foldl (fun (s : State) x => (s.countPages x.1 x.2.1 x.2.2).releaseAll x.1 x.2.1 x.2.2) s

/-- A page that stands without a contribution is contributed later (R415, R441): the first of a composition, in ascending page
order. One whose contribution was refused is sent again as it was. -/
def State.contributeLater (s : State) (c : Nat) : State :=
  let bare (y : Ctx × Nat × Nat × Page) : Bool :=
    let d := y.2.2.2.desc
    d.valid && !d.borrowed && d.tier == 0 && !y.2.2.2.pmap.valid && (s.frame? d.frame).isSome &&
      !s.inFlight fun p => match p with | .parity _ _ _ _ key true => key == d.frame | _ => false
  let first := ((s.compPages c).filter bare).foldl (fun (b : Option (Ctx × Nat × Nat × Page)) y =>
    match b with
    | none => some y
    | some x => if y.2.2.1 < x.2.2.1 then some y else some x) none
  match s.ringCfg c, first with
  | some g, some (k, stream, page, p) =>
    let mine := s.rel.pframes.filter fun x => x.key == p.desc.frame
    if mine ≠ [] then
      mine.foldl (fun (s : State) x => s.sendContrib c g x (.parity k.job k.ctx stream page p.desc.frame true)) s
    else match k.strm? stream, s.frame? p.desc.frame with
      | some x, some f =>
        let (pm, s) :=
          s.tryContribute c k.job k.ctx stream page p.desc.frame p.desc.gen 0 (rawPage x.kfmt x.vfmt x.scale x.latent f.toks)
        s.setPage k.job k.ctx stream page fun p => { p with pmap := pm.getD p.pmap }
      | _, _ => s
  | _, _ => s

/-- Tamp the candidates of a composition in ascending (pseudo-channel, address) order, up to a number of bytes (R102). -/
def State.tampRun (s : State) (c : Nat) : Nat → Nat → State
  | 0, _ => s
  | n + 1, bytes =>
    match s.nextTamp c with
    | none => s
    | some x =>
      if bytes < x.2.2.2.2.2 then s else (s.tampGo x.1 x.2.1 x.2.2.1 x.2.2.2.1).tampRun c n (bytes - x.2.2.2.2.2)

/-- The work of a MIGRATE slot (R239, R253, R254, R256): what requests attended is promoted, cold pages are demoted, and the flash channels
are reclaimed. -/
def State.migrateRun (s : State) (c n : Nat) : State :=
  let mine := s.tier.attended.filter fun a => (s.ctx? a.1 a.2.1).elim false fun k => k.comp == c
  let s := mine.foldl (fun (s : State) a => s.promote a.1 a.2.1 a.2.2.1 a.2.2.2) s
  let s := (List.range n).foldl (fun (s : State) _ => s.demote c) s
  (s.flashOf c).foldl (fun (s : State) ch => s.reclaim c ch) s

/-- The work that a slot's start begins, by class. Classes of requests start none here: each runs at its dispatch; a RECALL slot lets the
recalls of its composition begin (R250). A slot of a composition that does not serve runs as RESERVE (R62). -/
def State.slotWork (s : State) (slot : Nat) (e : Slot) : State :=
  let bytes := e.bytes * 64
  if !s.compServes e.comp then s
  else match e.opclass with
    | 4 => s.flushSlot slot e
    | 5 => s.streamSlot slot e
    | 6 => s.recallSlot e.comp
    | 8 =>
      if s.leaving e.comp = [] then s.tampRun e.comp (bytes / 512) bytes
      else (List.range (bytes / 512)).foldl (fun (s : State) _ => s.relocate e.comp) s
    | 9 => s.scrubBytes e.comp bytes
    | 10 => (s.migrateRun e.comp (bytes / 512)).reseal e.comp bytes
    | 11 =>
      let s := (List.range 64).foldl (fun (s : State) n => s.startPiece e.comp n) s
      (List.range (bytes / 512)).foldl (fun (s : State) _ => s.contributeLater e.comp) s
    | _ => s

/-- Whether a request of an arrival Phase belongs to the slot of this layer, or to the one of an earlier layer (R62). -/
def State.sameRun (s : State) (now : Bool) (p : Phase) : Bool := s.inLayer p == now

/-- A section waits for its slot, not yet run. -/
def Sec.waitsIn (x : Sec) (slot : Nat) : Bool := x.slot == some slot && !x.running && x.block.isNone

/-- The unstarted requests of a slot that overran go on as best-effort work, each recorded (R62): those of the slot in this layer, or in an
earlier one. -/
def State.evict (s : State) (now : Bool) (slot over_ : Nat) : State :=
  let cls := (s.slots.find? fun e => e.1 == slot).elim 0 (·.2.opclass)
  let note (s : State) (src : Source) (job comp : Nat) (tag : BitVec 32) : State :=
    s.breach 6 (some slot) cls comp over_ job (sourceNode s src) tag.toNat
  let waits (x : Sec) : Bool := x.waitsIn slot && s.sameRun now x.arrive
  let reqs := s.rq.reqs.filter fun r => r.secs.any waits
  let srch := s.rq.searches.filter fun x => x.slot == some slot && !x.running && s.sameRun now x.arrive
  let ops := s.pg.opq.filter fun p => p.slot == some slot && s.sameRun now p.arrive
  let s := reqs.foldl (fun (s : State) (r : Req) =>
    (note s r.src r.job r.comp r.req.env.tag).setReq r.id fun (r : Req) =>
      { r with secs := r.secs.map fun (x : Sec) => if waits x then { x with slot := none, breach := some 6 } else x }) s
  let s := srch.foldl (fun (s : State) (x : Search) =>
    (note s x.src x.job x.comp x.req.env.tag).setSearch x.id fun (x : Search) => { x with slot := none, breach := some 6 }) s
  let s := ops.foldl (fun (s : State) (p : PendOp) =>
    let (job, comp) := s.sourceOf p.src
    note s p.src job comp p.req.env.tag) s
  s.setPg fun g => { g with opq := mapIf (fun (p : PendOp) => ops.contains p) (fun (p : PendOp) => { p with slot := none, breach := some 6 }) g.opq }

/-- Whether a request that a slot admitted is running now. -/
def State.slotBusy (s : State) (now : Bool) (slot : Nat) : Bool :=
  (s.rq.reqs.any fun r => r.secs.any fun x => x.slot == some slot && x.running && x.block.isNone && s.sameRun now x.arrive)
    || s.rq.searches.any fun x => x.slot == some slot && x.running && s.sameRun now x.arrive

/-- Whether a request that a slot admitted waits to be run. -/
def State.slotWaits (s : State) (slot : Nat) : Bool :=
  (s.rq.reqs.any fun r => r.secs.any fun x => x.waitsIn slot) || (s.rq.searches.any fun x => x.slot == some slot && !x.running)
    || s.pg.opq.any fun p => p.slot == some slot

/-- The earlier slots of the layer that share tiles with a slot and have started. -/
def State.sharers (s : State) (slot : Nat) (e : Slot) : List (Nat × Slot) :=
  s.slotsNow.filter fun a => a.1 != slot && (a.2.tiles &&& e.tiles) != 0 && decide (a.2.start < e.start) && (s.slotRun a.1).started

/-- The slots of an earlier layer that share tiles with a slot and that a mark found at work. -/
def State.sharersOver (s : State) (e : Slot) : List SlotRun :=
  s.sch.carry.filter fun r => (s.slots.find? fun a => a.1 == r.slot).elim false fun a => (a.2.tiles &&& e.tiles) != 0

/-! ### The level of the core current (R449 to R451) -/

/-- The core current that slots draw at full rate while the other tiles are idle, in amperes (R450). -/
def levelOf (es : List Slot) : Nat :=
  (es.map fun e => Config.slotCurrent e.opclass (tileCount e.tiles)).sum + Config.idleCurrent (48 - (es.map fun e => tileCount e.tiles).sum)

/-- The slots at work: those of the layer, and those that marks found at work. -/
def State.atWork (s : State) : List Slot :=
  (s.slotsNow.filter fun e => (s.slotRun e.1).started && !(s.slotRun e.1).ended).map (·.2) ++
    (s.sch.carry.filter fun r => !r.ended).filterMap fun r => (s.slots.find? fun e => e.1 == r.slot).map (·.2)

/-- The next slot to start, of this layer or the one after, with the ticks to its START − 2 (R451). -/
def State.nextStart (s : State) : Option (Nat × Slot) :=
  let tick := phTick s.phase
  let here := (s.slotsNow.filter fun e => !(s.slotRun e.1).started && decide (tick ≤ e.2.start)).map fun e => (e.2.start - tick - 2, e.2)
  let there := (s.slotsIn 1).map fun e => (s.period - tick + e.2.start - 2, e.2)
  (here ++ there).foldl (fun (b : Option (Nat × Slot)) x => match b with
    | none => some x
    | some y => if x.1 < y.1 then some x else some y) none

/-- Ticks of a change of the core current by so many amperes at the slope limit (R449). -/
def State.slopeTicks (s : State) (amps : Nat) : Nat := (amps * 250 + max 1 s.pwr.slew - 1) / max 1 s.pwr.slew

/-- Whether the level, once lowered, can be raised again to the next slot's level by that slot's START − 2 (R451). -/
def State.fallsInTime (s : State) (low : Nat) : Bool :=
  s.nextStart.elim true fun x => decide (s.slopeTicks (s.pwr.level - low) + s.slopeTicks (levelOf (x.2 :: s.atWork) - low) ≤ x.1)

/-- What the work at hand requires of the level (R451): what it draws, and in the step barrier no less than the most that a slot of layer 0 of
the next step draws; log entry 155. -/
def State.levelNeeded (s : State) : Nat :=
  let now := levelOf s.atWork
  if s.phs.reported then (s.slotsIn 1).foldl (fun m e => max m (levelOf [e.2])) now else now

/-- The energy of the ballast that has held the level since it was last counted (R449, R465): PD 0x2020.03. How much of it best-effort work
took is not told. -/
def State.ballastSpent (s : State) : State :=
  let mj := if s.pwr.ballast then s.pwr.excess * s.boot.mv * (s.timer - s.pwr.excessAt) / 4000000000 else 0
  { s.countBy 0x2020 3 mj with pwr := { s.pwr with excessAt := max s.pwr.excessAt s.timer } }

/-- The governor settles the level (R451, R453): raised to what is required; lowered to it where the hold test allows, or where the power limit
has the hold given up; else held. -/
def State.govern (s : State) : State :=
  let s := s.ballastSpent
  let need := s.levelNeeded
  let level := if s.pwr.level ≤ need || s.pwr.cap || s.fallsInTime need then need else s.pwr.level
  { s with pwr := { s.pwr with level, excess := level - levelOf s.atWork } }

/-! ### The start and the end of a slot (R53, R60, R62) -/

/-- Ticks by which the work of an earlier slot holds the tiles past its reserved span: of this layer, or of one that a mark found at work. -/
def State.overBy (s : State) (slot : Nat) (e : Slot) : List (Nat × Slot × Nat) :=
  let now := s.tickOf s.phase
  let near := (s.sharers slot e).map fun a => (a.1, a.2, phTick s.phase - (a.2.start + a.2.span))
  let far := ((s.sharersOver e).filter fun r => r.slot != slot).filterMap fun r =>
    (s.slots.find? fun a => a.1 == r.slot).map fun a => (r.slot, a.2, (s.ticksTo r.fin now).toNat)
  near ++ far

/-- The records of a start that an overrun delayed (R62): INHERITED against the slot, and OVERRUN against each slot whose request completed
after its span, unless the completion itself has been recorded. -/
def State.inherit (s : State) (slot : Nat) (e : Slot) (delay : Nat) : State :=
  let told (n : Nat) : Bool := (s.slotRun n).told || s.sch.carry.any fun r => r.slot == n && r.told
  let late (n : Nat) : Bool := (s.slotRun n).late || s.sch.carry.any fun r => r.slot == n && r.late
  let s := s.breach 7 (some slot) e.opclass e.comp delay (s.jobOf e.comp) s.nodeId 0
  ((s.overBy slot e).filter fun a => late a.1 && !told a.1).foldl (fun (s : State) a =>
    (s.breach 6 (some a.1) a.2.1.opclass a.2.1.comp a.2.2 (s.jobOf a.2.1.comp) s.nodeId 0).tellOver a.1) s

/-- Whether the request that an earlier slot, of this layer or of one that a mark found at work, is executing still holds tiles of a slot. -/
def State.kept (s : State) (slot : Nat) (e : Slot) : Bool :=
  ((s.sharers slot e).any fun a => s.slotBusy true a.1) ||
    (s.sharersOver e).any fun r => r.slot != slot && s.slotBusy false r.slot

/-- The slot that an overrun kept from starting in an earlier layer starts (R62). -/
def State.startLate (s : State) (r : SlotRun) (e : Slot) : State :=
  let s := (s.sharersOver e).foldl (fun (s : State) x =>
    if x.slot = r.slot then s else s.evict false x.slot (s.ticksTo x.fin (s.tickOf s.phase)).toNat) s
  let s := s.inherit r.slot e ((s.ticksTo r.fin (s.tickOf s.phase)).toNat + e.span)
  let s := { s with sch := { s.sch with
    carry := mapIf (fun x => x.slot == r.slot) (fun x => { x with started := true, since := s.timer }) s.sch.carry } }
  (s.slotWork r.slot e).drainOps.govern

/-- SLOT_START (R53, R62): from START − 2 on, once the tiles are free and outside the reserved span of any other slot on them; the requests
of an earlier slot that have not started give way. A start more than 2 ticks late is a breach: INHERITED behind an overrun, else
LATE_START. -/
def execSlotStart (t slot : Nat) (s : State) : Res :=
  let s := s.arrive t
  match s.sch.carry.find? fun r => r.slot == slot && !r.started && !r.ended, s.slots.find? fun e => e.1 == slot with
  | some r, some (_, e) =>
    if !s.ready ∨ s.phs.held ∨ 6 ≤ s.pwr.stage ∨ s.spanTaken 4096 e.tiles ∨ s.kept slot e then .next s else .next (s.startLate r e)
  | _, _ =>
  match s.slotsNow.find? fun e => e.1 == slot with
  | none => .next s
  | some (_, e) =>
    let tick := phTick s.phase
    if !s.ready ∨ s.phs.held ∨ 6 ≤ s.pwr.stage ∨ (s.slotRun slot).started ∨ tick + 2 < e.start ∨ s.spanTaken slot e.tiles then .next s
    else
      let near := s.sharers slot e
      let far := s.sharersOver e
      let s := near.foldl (fun (s : State) a => s.evict true a.1 (tick - (a.2.start + a.2.span))) s
      let s := far.foldl (fun (s : State) r => s.evict false r.slot (s.ticksTo r.fin (s.tickOf s.phase)).toNat) s
      if s.kept 4096 e || (near.any fun a => s.slotBusy true a.1) then .next s
      else
        let behind := (near.any fun a => (s.slotRun a.1).late) || far.any fun r => r.late
        let s := if e.start + 2 < tick ∧ s.compServes e.comp then
            if behind then s.inherit slot e (tick - e.start)
            else s.breach 5 (some slot) e.opclass e.comp (tick - e.start) (s.jobOf e.comp) s.nodeId 0
          else s
        let fin := s.tickOf s.phase + (e.start + e.span) - tick
        let s := s.setRun { s.slotRun slot with started := true, since := s.timer, fin }
        let s := { s with pwr := { s.pwr with rises := s.pwr.rises.erase slot } }
        .next (s.slotWork slot e).drainOps.govern

/-- The NMUs granted to the searches of a slot for its span are free again (R169). -/
def State.dropGrants (s : State) (slot : Nat) : State :=
  { s with rq := { s.rq with searches := mapIf (fun x => x.slot == some slot) (fun x => { x with grants := [] }) s.rq.searches } }

/-- What the end of a slot's work brings: pages count, tiles are charged, appends that the flush held back go on (R94, R103, R372), and the
governor settles its level (R451). -/
def State.slotOver (s : State) (r : SlotRun) (e : Slot) : State :=
  let s := if e.opclass = 7 then s.dropGrants r.slot else s
  let s := s.chargeTiles e.comp (tileCount e.tiles) (s.timer - r.since)
  ((if e.opclass = 4 then s.countSlot e else s).drainOps).govern

/-- A slot of the layer ends; a flush first makes the seals that a scan of their grain chunk held back (R154). -/
def State.endSlot (s : State) (slot : Nat) (e : Slot) : State :=
  let s := if e.opclass = 4 ∧ s.compServes e.comp then s.flushSlot slot e else s
  let r := s.slotRun slot
  (s.setRun { r with ended := true }).slotOver r e

/-- A slot that a mark found at work ends. -/
def State.endOver (s : State) (r : SlotRun) : State :=
  if r.ended then s
  else
    let s := { s with sch := { s.sch with carry := mapIf (fun x => x.slot == r.slot) (fun x => { x with ended := true }) s.sch.carry } }
    if !r.started then s
    else match s.slots.find? fun e => e.1 == r.slot with
    | none => s
    | some (_, e) => s.slotOver r e

/-- SLOT_END (R60, R62, R94): the span has passed, of the slot that a mark found at work, or of the slot of this layer. -/
def execSlotEnd (t slot : Nat) (s : State) : Res :=
  let s := s.arrive t
  match s.sch.carry.find? fun r => r.slot == slot && r.started && !r.ended with
  | some r =>
    if !s.ready || s.slotBusy false slot || decide (s.ticksTo r.fin (s.tickOf s.phase) < 0) then .next s else .next (s.endOver r)
  | none =>
    match s.slotsNow.find? fun e => e.1 == slot with
    | none => .next s
    | some (_, e) =>
      let r := s.slotRun slot
      if !s.ready ∨ !r.started ∨ r.ended ∨ phTick s.phase < e.start + e.span then .next s else .next (s.endSlot slot e)

/-- Scheduled work stops at its page boundary (R30, R38, R94): what the flushes have sealed counts now. -/
def State.stopWork (s : State) : State :=
  let s := s.sch.carry.foldl (fun (s : State) r => s.endOver r) s
  (s.slotsNow.filter fun e => (s.slotRun e.1).started && !(s.slotRun e.1).ended).foldl (fun (s : State) e => s.endSlot e.1 e.2) s

/-- Whether a slot of the layer is at work when a mark comes (R62): started, and its span has not passed or a request of it has not ended; or
due, and kept from its tiles by an overrun. -/
def State.keepsOn (s : State) (slot : Nat) (e : Slot) : Bool :=
  let r := s.slotRun slot
  if r.started then !r.ended && (decide (phTick s.phase < e.start + e.span) || s.slotBusy true slot || s.slotWaits slot)
  else decide (e.start ≤ phTick s.phase + 2) && s.kept slot e

/-- A layer ends (R62): the slots at work go on; the others end, and requests whose slot has not started go on as best-effort work. -/
def State.endLayer (s : State) : State :=
  let s := s.sch.carry.foldl (fun (s : State) r => if !r.started || s.slotBusy false r.slot then s else s.endOver r) s
  let on := s.slotsNow.filter fun e => s.keepsOn e.1 e.2
  let off := s.slotsNow.filter fun e => !s.keepsOn e.1 e.2
  let s := off.foldl (fun (s : State) e =>
    let s := s.evict true e.1 (phTick s.phase - (e.2.start + e.2.span))
    if (s.slotRun e.1).started && !(s.slotRun e.1).ended then s.endSlot e.1 e.2 else s) s
  let now := s.tickOf s.phase
  let runs := on.map fun e =>
    let r := s.slotRun e.1
    if r.started then r else { r with fin := now + (e.2.start + e.2.span) - phTick s.phase }
  let late := (s.sch.runs.filter fun r => r.late && !runs.any fun x => x.slot == r.slot)
  let kept := s.sch.carry.filter fun r => !r.ended && !(runs ++ late).any fun x => x.slot == r.slot
  { s with sch := { s.sch with runs := [], carry := kept ++ runs ++ late.map fun r => { r with ended := true } } }

/-- Whether every slot of the step has ended (R42): those of the layer and those that marks found at work. A stream slot has ended
when it has started and its streams, which the report awaits on their own, are done. -/
def State.layerDone (s : State) : Bool :=
  (s.sch.carry.all (·.ended)) &&
    s.slotsNow.all fun e => (s.slotRun e.1).ended || (streamClass e.2.opclass && (s.slotRun e.1).started)

/-! ### The class correction (R58) -/

/-- Clamp to the range of R58. -/
def State.clampAlpha (s : State) (a : Rat) : Rat := min (s.alphaLimit 2) (max (s.alphaLimit 1) a)

/-- ALPHA_UPDATE (R58): the 1,014th smallest of 1,024 ratios of a class, clamped. -/
def execAlphaUpdate (t cls : Nat) (s : State) : Res :=
  let s := s.arrive t
  let l := lookD s.sch.ratios cls []
  if l.length < 1024 then .next s
  else
    let a := (sortBy (fun a b => decide (a < b)) (l.take 1024)).getD 1013 1
    .next { s with sch := { s.sch with alpha := put s.sch.alpha cls (s.clampAlpha a), ratios := put s.sch.ratios cls (l.drop 1024) } }

/-- A write that changes a limit clamps the α of every class at once (R58), those that still stand at 1.0 too. -/
def State.clampAll (s : State) : State :=
  { s with sch := { s.sch with alpha := ((List.range 16).filter knownClass).map fun c => (c, s.clampAlpha (s.alphaOf c)) } }

/-! ### Coarsening (R56, R328, R398) -/

/-- Write a record into its composition's ring, if one is set up; a full ring loses it, which is counted. A base of 0, its default, is no
ring, and the record is dropped and not counted: the spec states no outcome there; log entry 137. -/
def State.ringCopy (s : State) (r : RingRec) : State :=
  let (bi, si) := if r.breach then (0x7041, 0x7042) else (0x4151, 0x4152)
  let base := s.pdNum bi r.comp
  if base = 0 ∨ !s.compExists r.comp then s
  else
    let (ok, s) := s.ringPut base (s.pdNum si r.comp) r.bytes
    if ok then s else if r.breach then s.count 0x7043 r.comp else s.countC r.comp 0x4150 4 1

/-- COARSENING_LATCH (R398): at a 1 ms boundary of the local timer counters are latched, and the records that wait enter the
compositions' rings. -/
def execCoarseningLatch (t : Nat) (s : State) : Res :=
  let s := s.arrive t
  if !s.ready ∨ s.timer / ms ≤ s.pd.latchAt then .next s
  else
    let wait := s.rmo.ring
    let s := s.chargeAll
    let s := { s with pd := { s.pd with latched := s.pd.cnt, latchAt := s.timer / ms }, rmo := { s.rmo with ring := [] } }
    .next (wait.foldl (fun (s : State) r => s.ringCopy r) s)

end Sys2Proof.Machine
end

