-- ==== Sys2Proof/Machine/Phase.lean ====
section
/-! DEFINITION. Phase time (02, R26 to R44, R534): marks, the election of the Phase Master, the step barrier, host marks, and what a
step boundary does. -/

namespace Sys2Proof.Machine

/-! ### Boundaries -/

/-- Layers from the layer the node is in to that of a Phase. -/
def State.layersTo (s : State) (p : Phase) : Int :=
  stepsTo s.step (phStep p) * s.layers + phLayer p - phLayer s.phs.base

/-- The last layer of a step, in which the node waits for the next step (R27, R36). -/
def State.lastLayer (s : State) : Bool := decide (s.layers ≤ phLayer s.phs.base + 1)

/-- What takes effect at a step boundary, in the new step, after one that has ended or none: the slot table (R47), freed frames (R81), margins (R152), refresh rate
(R209), commits, moves and the map epoch (R357, R368), keys (R391), and the budgets of the step. -/
def State.boundaryAt (s : State) (ended : Bool) : State :=
  let s := s.bankStep
  let s := s.returnFreed.pruneChunks
  let s := (List.range 16).foldl (fun (s : State) c => if ended then s.marginStep c else s.marginStart c) s
  let s := s.refreshBoundary
  let s := s.compStep
  let s := s.applyWays
  let s := (List.range 16).foldl (fun (s : State) c => s.keyStep c) s
  let s := s.relStep
  { s with phs := { s.phs with reports := [], fbAny := false, breaches := 0, reported := false, holds := 0 },
           sch := { s.sch with sealed := [], runs := [], carry := [] },
           rel := { s.rel with hurt := [] },
           rq := { s.rq with beBytes := [] },
           tier := { s.tier with moved := [], hwrote := [], syncSteps := s.tier.syncSteps + 1 } }

/-- The boundary after a step that this node has run. -/
def State.stepBoundary (s : State) : State := s.boundaryAt true

/-- A layer begins: the hint rings are read (R247), and operations that waited go on. -/
def State.beginLayer (s : State) : State := ((List.range 16).foldl (fun (s : State) c => s.readHints c) s).drainOps

/-- Go on by one layer (R27). -/
def State.nextLayer (s : State) : State :=
  let s := s.endLayer
  let wrap := s.lastLayer
  let base := if wrap then mkPhase (s.step + 1) 0 0 else mkPhase s.step (phLayer s.phs.base + 1) 0
  let s := { s with phs := { s.phs with base } }
  (if wrap then s.stepBoundary else s).beginLayer

/-- Whether a layer that a gap of so many skipped, with so many more behind it, lies before the start of fallow entry or after the end of
fallow exit (R37, R284): of the time since the last mark each layer takes an equal share; log entry 138. -/
def State.outOfFallow (s : State) (from_ total left : Nat) : Bool :=
  let at_ := from_ + (s.timer - from_) * (total - left) / (total + 1)
  let near := s.pwr.stage == 7 && !s.lnk.ports.any fun p => p.2.st == .fallow
  match if near then (some s.pwr.stageAt, none) else (s.lnk.fallowFrom, s.lnk.fallowTo) with
  | (some a, none) => decide (at_ < a)
  | (some a, some b) => decide (at_ < a) || decide (b ≤ at_)
  | (none, _) => true

/-- Pass through layers that a sequence gap skipped: the slots that the node does not run there (R37), and the state after them. -/
def State.skipLayers (s : State) (from_ total : Nat) : Nat → List (Nat × Slot) × State
  | 0 => ([], s)
  | n + 1 =>
    let s := s.nextLayer
    let missed := if s.outOfFallow from_ total n then s.slotsNow else []
    let (rest, s) := s.skipLayers from_ total n
    (missed ++ rest, s)

/-- Enter a layer so many layers on, the last mark having come at a local time; the slots of those between are breaches with cause
MISSED_MARK (R37), but for those that fallow kept the node from running. -/
def State.goOn (s : State) (n from_ : Nat) : State :=
  let (missed, s) := s.skipLayers from_ (n - 1) (n - 1)
  let s := s.nextLayer
  missed.foldl (fun (s : State) e => s.breach 8 (some e.1) e.2.opclass e.2.comp 0 (s.jobOf e.2.comp) 0 0) s

/-- The first mark of a term (R33, R39, R40): the node is synchronised at layer 0 of a step, and scheduled work may run. -/
def State.firstMark (s : State) (step : Nat) : State :=
  let s := { s with phs := { s.phs with sync := true, held := false, fwdDone := false, base := mkPhase step 0 0 },
                    rel := { s.rel with restarted := false } }
  (s.boundaryAt false).beginLayer

/-! ### Time-base faults (R38) -/

/-- A time-base fault: scheduled work stops at its page boundary, and the job restart is raised (R38, R429). In single-card mode the
node's own steps stand for it, and SYNC reads 0 until the host's next first mark (R40). -/
def State.tbFault (s : State) : State :=
  let s := s.stopWork
  let s := { s with phs := { s.phs with tbfault := true, sync := s.phs.sync && !s.single, hostTerm := false } }
  (s.raiseScope 7 s.nodeId none).jobRestart 7

/-! ### HOLD and RESUME (R30, R94, R133) -/

/-- A HOLD: scheduled work stops, the Phase freezes, and what runs ends with REPLAY. -/
def State.enterHold (s : State) (p : Phase) : State :=
  let s := s.stopWork
  let s := { s with phs := { s.phs with held := true, base := p, holds := s.phs.holds + 1 },
                    rel := { s.rel with joining := s.rel.joining.map fun (a : Admit) => { a with clean := false } } }
  let s := s.rq.reqs.foldl (fun (s : State) r => s.endReq .replay r) s
  let s := s.rq.searches.foldl (fun (s : State) r => s.endSearch .replay r) s
  s.event { cls := 7, code := 2, subj := 0, detail := [0, 0, 0, 0] ++ leBytes 8 (phStep p) }

/-- Fire the armed DMA channels whose Phase has come (R345). -/
def State.firePhase (s : State) : State :=
  (List.range 128).foldl (fun (s : State) ch =>
    let d := s.dma ch
    if d.st == .armed && d.trig == 1 && s.dmaDue d then
      let (done, s) := s.dmaFire ch
      if done then s.dmaChain 256 [ch] else s
    else s) s

/-- A RESUME: the Phase is set and the step runs again, with the margins of its start (R153, R422). -/
def State.leaveHold (s : State) (p : Phase) : State :=
  let moved := phStep p != s.step
  let s := { s with phs := { s.phs with held := false, base := mkPhase (phStep p) (phLayer p) 0, reports := [], fbAny := false,
                                        breaches := 0, reported := false },
                    sch := { s.sch with runs := [], carry := [] } }
  let s := if moved then s.boundaryAt false else s.marginReplay
  s.beginLayer.firePhase

/-! ### Sending marks (R31, R279) -/

/-- A mark leaves by a port with a residence (R279, R287): in a record of a control flit, or of a point-to-point gateway link in a datagram. -/
def State.markOn (s : State) (p : Nat) (m : Mark) : State :=
  let x := s.port p
  let (i, s) := s.draw
  let (j, s) := s.draw
  let late (k : Nat) : Mark := { m with resid := (m.resid + Config.residence k) % 2 ^ 32 }
  if x.mode = 1 then
    let via (k : Nat) : GwVia := s.gwVia p (gwHead 7 s.nodeId x.peer 1 0 ++ leBytes 4 32 ++ markBytes (late k))
    if bitAt (s.pdNum 0x4005 2) p then (s.emit (.markDatagram (late i) false (via i))).emit (.markDatagram (late j) true (via j)) else s
  else
    let (h, s) := s.putRec p 0 (.mark (late i))
    let (_, s) := s.putRec p (h + 1) (.markCopy (late j))
    s.sendCtl p

/-- Send a mark on the child ports, twice on each: the record in the next control flit and its copy in the one that follows, or two datagrams, each
with its own residence (R31, R279, R287). A looped port carries none (R291). -/
def State.sendMark (s : State) (m : Mark) : State :=
  (portList (BitVec.ofNat 8 (s.pdNum 0x7003 2))).foldl (fun (s : State) p =>
    if !(s.port p).loop && !(s.port p).moving && ((s.port p).st == .up || (s.port p).st == .fallow) then s.markOn p m else s) s

/-- Keep T before a mark moves the Phase, in case it stops it (R207). -/
def State.tickKept (s : State) : State := if s.phs.held then s else s.keepTick

/-- The Phase Master sends a mark from its own timer, which is its Phase source (R30, R33). -/
def State.masterMark (s : State) (typ : Nat) (p : Phase) : State :=
  let m : Mark := { phase := p, mtime := s.timer, seq := s.phs.mseq, resid := 0, period := s.period, master := s.nodeId,
                    term := s.phs.term, typ, hops := 0 }
  let s := s.tickKept
  let s := { s with phs := { s.phs with mseq := s.phs.mseq + 1, markAt := some s.timer, prev := some m, prevTc := s.timer, rate := 1 } }
  s.sendMark m

/-- The master freezes the Phase (R44, R419). -/
def State.masterHold (s : State) : State :=
  let p := s.phase
  (s.masterMark 2 p).enterHold p

/-- The master resumes the held step from layer 0 (R421, R422). -/
def State.masterResume (s : State) : State :=
  let p := mkPhase s.step 0 0
  (s.masterMark 3 p).leaveHold p

/-- The node becomes Phase Master and sends the first mark of the term (R33, step 4). -/
def State.becomeMaster (s : State) : State :=
  let step := s.phs.start.elim 0 (·.step)
  let s := { s with phs := { s.phs with master := true, cand := none, masterId := some s.nodeId, mseq := 0 } }
  (s.masterMark 1 (mkPhase step 0 0)).firstMark step

/-! ### Accepting marks (R31, R33 to R38, R534) -/

/-- What R34 computes for an accepted mark: whether it is a time-base fault, whether a sequence gap precedes it, and the state with
its deviation, gap and rate noted. A deviation beyond the 20 ns of R35 also keeps the marks from meeting the contract (R52). -/
def State.measureMark (s : State) (port : Nat) (m : Mark) : Bool × Bool × Int × State :=
  let tc : Int := (s.timer : Int) - (s.port port).delay - m.resid
  match s.phs.prev with
  | none => (m.period != s.period, false, tc, { s with phs := { s.phs with skewed := false } })
  | some p =>
    let dm : Rat := (((m.mtime + 2 ^ 64 - p.mtime % 2 ^ 64) % 2 ^ 64 : Nat) : Rat)
    let dt : Rat := ((tc - s.phs.prevTc : Int) : Rat)
    let dev := |dt - dm / s.phs.rate| / 4
    let timed := p.typ != 2
    let jit := timed && s.phs.jchk && decide (20 < dev)
    let s := if jit then { s.count 0x7010 1 with phs := { s.phs with jitter := true } } else s
    let r := s.phs.rate
    let r' := if timed && dt != 0 then max (1 - 1 / 5000) (min (1 + 1 / 5000) (r + (dm / dt - r) / 16)) else r
    let gap := m.seq != p.seq + 1
    let s := if gap then { s.count 0x7010 2 with phs := { s.phs with gap := true } } else s
    ((timed && decide (256 < dev)) || m.period != s.period, gap, tc,
      { s with phs := { s.phs with rate := r', skewed := timed && decide (20 < dev) } })

/-- Whether a LAYER or STEP mark names a boundary that R534 allows, and how many layers on it lies. -/
def State.boundaryOk (s : State) (m : Mark) (gap : Bool) : Option Nat :=
  let d := s.layersTo m.phase
  let shape := (m.typ == 1) == (phLayer m.phase == 0) && decide (phLayer m.phase < s.layers)
  if shape && (if gap then decide (1 ≤ d) else d == 1) then some d.toNat else none

/-- The SEQ values taken, with one more: the newest first, and of the others those within half the range of SEQ behind it, which wraps at 2^32
(R30, R31; log entry 139). -/
def seenWith (l : List (BitVec 32)) (q : BitVec 32) : List (BitVec 32) :=
  let top := match l with
    | [] => q
    | x :: _ => if seqEarlier x q then q else x
  top :: (q :: l).filter fun x => x != top && decide ((top - x).toNat < 2 ^ 31)

/-- Take an accepted mark: forward it, correct the timing, and do what its type says. A mark that is a time-base fault still moves the base of the Phase, as the
last line of R34 has it. -/
def State.takeMark (s : State) (port : Nat) (m : Mark) : State :=
  let s := s.tickKept
  let s := { s with phs := { s.phs with seen := seenWith s.phs.seen m.seq, markAt := some s.timer } }
  let s := if m.hops < 14 then s.sendMark { m with hops := m.hops + 1 } else s
  let (bad, gap, tc, s) := s.measureMark port m
  let timed : State := { s with phs := { s.phs with prev := some m, prevTc := tc } }
  let based : State := { timed with phs := { timed.phs with base := m.phase } }
  if bad then based.tbFault
  else
    if m.typ = 4 then (if s.phs.held then timed else based)
    else if m.typ = 2 then timed.enterHold m.phase
    else if m.typ = 3 then timed.leaveHold m.phase
    else if !s.phs.sync then
      (if m.typ = 1 ∧ m.phase = mkPhase (s.phs.start.elim 0 (·.step)) 0 0 then timed.firstMark (phStep m.phase) else timed.tbFault)
    else
      match s.boundaryOk m gap with
      | none => timed.tbFault
      | some n => ({ timed with phs := { timed.phs with held := false } }).goOn n s.phs.prevTc.toNat

/-- A mark is discarded and counted (R30, R31). -/
def State.dropMark (s : State) : State := s.count 0x7010 3

/-- A mark arrives on a fabric port (R31, R33 step 5, R523). -/
def State.mark (s : State) (port : Nat) (m : Mark) : State :=
  if !s.ready || (s.port port).loop then s
  else if s.phs.src != 0 then s.dropMark
  else if !s.phs.en then s
  else
    match s.phs.start with
    | none => s.dropMark
    | some st =>
      if 5 ≤ m.typ ∨ 14 < m.hops ∨ m.term ≠ st.term then s.dropMark
      else
        match s.phs.masterId with
        | none =>
          if m.typ = 1 ∧ bitmapHas (s.pd.bytes 0x7004 1) m.master = true then
            ({ s with phs := { s.phs with masterId := some m.master } }).takeMark port m
          else s.dropMark
        | some w =>
          if w ≠ m.master then s.dropMark.tickKept.tbFault
          else if w = s.nodeId ∨ m.seq ∈ s.phs.seen then s
          else s.takeMark port m

/-- The mark of a command: its type is the command's, unless the record holds a reserved one. -/
def typed (m : Mark) (typ : Nat) : Mark := { m with typ := if m.typ < 5 then typ else m.typ }

/-- MARK_LAYER (R30, R31, R34 to R37). -/
def execMarkLayer (t port : Nat) (m : Mark) (s : State) : Res := .next ((s.arrive t).mark port (typed m 0))

/-- MARK_STEP (R30, R33). -/
def execMarkStep (t port : Nat) (m : Mark) (s : State) : Res := .next ((s.arrive t).mark port (typed m 1))

/-- MARK_HOLD (R30, R133). -/
def execMarkHold (t port : Nat) (m : Mark) (s : State) : Res := .next ((s.arrive t).mark port (typed m 2))

/-- MARK_RESUME (R30, R422). -/
def execMarkResume (t port : Nat) (m : Mark) (s : State) : Res := .next ((s.arrive t).mark port (typed m 3))

/-- MARK_SYNC (R30). -/
def execMarkSync (t port : Nat) (m : Mark) (s : State) : Res := .next ((s.arrive t).mark port (typed m 4))

/-! ### The master's own time (R30, R33, R44) -/

/-- MASTER_LAYER_BOUNDARY (R30): the master's timer has counted a period, and the next layer begins, except after layer L − 1. -/
def execMasterLayerBoundary (t : Nat) (s : State) : Res :=
  let s := s.arrive t
  if !s.ready || !s.phs.en || !s.phs.master || !s.phs.sync || s.phs.held || s.phs.fwdDone || s.lastLayer || decide (s.elapsed < s.period) then
    .next s
  else .next ((s.masterMark 0 (mkPhase s.step (phLayer s.phs.base + 1) 0)).goOn 1 0)

/-- HOLD_SYNC_MARK (R30): during a HOLD the master sends a SYNC mark once per nominal period. -/
def execHoldSyncMark (t : Nat) (s : State) : Res :=
  let s := s.arrive t
  if !s.ready || !s.phs.master || !s.phs.held || decide (s.elapsed < s.period) then .next s
  else .next (s.masterMark 4 s.phs.base)

/-- Whether the node waits for marks of another: synchronised, not held, and not itself the master. -/
def State.waitsMark (s : State) : Bool := s.ready && s.phs.en && s.phs.sync && !s.phs.held && !s.phs.master && !s.phs.fwdDone

/-- LAYER_MARK_LATE (R36): no mark within the period plus 64 ticks. -/
def execLayerMarkLate (t : Nat) (s : State) : Res :=
  let s := s.arrive t
  if s.waitsMark && !s.lastLayer && decide (s.period + 64 < s.elapsed) then .next { s with phs := { s.phs with late := true } } else .next s

/-- TICK_SATURATION (R36): the tick has saturated before an awaited LAYER mark, a time-base fault. -/
def execTickSaturation (t : Nat) (s : State) : Res :=
  let s := s.arrive t
  .next (if s.waitsMark && !s.lastLayer && decide (65535 ≤ s.elapsed) then s.tickKept.tbFault else s)

/-- MARK_WAIT_TIMEOUT (R36): in layer L − 1, no mark within the barrier timeout plus one period from the nominal end. -/
def execMarkWaitTimeout (t : Nat) (s : State) : Res :=
  let s := s.arrive t
  .next (if s.waitsMark && s.lastLayer && decide (2 * s.period + s.pdNum 0x7030 0 ≤ s.elapsed) then s.tickKept.tbFault else s)

/-! ### The election (R33) -/

/-- The start record is written (R33): refused, or the election begins. A job that was running restarts (R429). -/
def State.jobStart (s : State) (term : BitVec 16) (job step : Nat) : Status × State :=
  let elig := s.pdBool 0x7003 1
  if bitmapHas (s.pd.bytes 0x7004 1) s.nodeId ≠ elig ∨ bitmapHas (s.pd.bytes 0x7004 0) s.nodeId = false
      ∨ s.phs.start.map (·.term) = some term then (.unsupported, s)
  else
    let s := if s.phs.sync && !s.rel.restarted then s.stopWork.jobRestart 7 else s
    let s := s.keepTick
    let s := { s with phs := { s.phs with start := some { term, job, step := step % 2 ^ 36 }, term, sync := false, master := false,
                                          held := false, prev := none, seen := [], masterId := none, mseq := 0,
                                          cand := if elig then some s.timer else none } }
    if !elig then (.ok, s)
    else if s.phs.src = 2 then (.ok, s.becomeMaster)
    else
      let rec_ := leBytes 2 term.toNat ++ leBytes 2 s.nodeId ++ leBytes 3 job ++ List.replicate 9 0
      let others := (List.range 16384).filter fun n => n != s.nodeId && bitmapHas (s.pd.bytes 0x7004 1) n
      (.ok, others.foldl (fun (s : State) n => s.mgmtSend n rec_) (s.emit (.claim s.nodeId job term)))

/-- JOB_START (R33). -/
def execJobStart (t : Nat) (term : BitVec 16) (job step : Nat) (s : State) : Res :=
  let s := s.arrive t
  .next (if s.ready then (s.jobStart term job step).2 else s)

/-- CLAIM (R33 step 4). -/
def execClaim (t : Nat) (term : BitVec 16) (node job : Nat) (s : State) : Res :=
  let s := s.arrive t
  if !s.ready then .next s
  else
    let s := s.mgmtTake
    match s.phs.start with
    | none => .next s
    | some st =>
      if st.term = term ∧ st.job = job ∧ node < s.nodeId then .next { s with phs := { s.phs with cand := none } } else .next s

/-- CLAIM_WINDOW_EXPIRY (R33 step 4): a candidate that has not stood down becomes master. -/
def execClaimWindowExpiry (t : Nat) (s : State) : Res :=
  let s := s.arrive t
  match s.phs.cand with
  | none => .next s
  | some t0 => .next (if s.ready && decide (t0 + us * s.pdNum 0x7006 0 ≤ s.timer) then s.becomeMaster else s)

/-! ### Host marks (R40, R488) -/

/-- A host mark is ignored, and says so (R488). -/
def State.markErr (s : State) : State := { s with hif := { s.hif with markerr := true } }

/-- The stand-in for a host mark, which carries no master timer. -/
def hostRecord (p : Phase) : Mark :=
  { phase := p, mtime := 0, seq := 0, resid := 0, period := 0, master := 0, term := 0, typ := 0, hops := 0 }

/-- PHS_MARK_HI is written (R40, R41, R488). -/
def State.hostMark (s : State) (hi : BitVec 32) : State :=
  if s.phs.src ≠ 1 ∨ !s.phs.en then s
  else
    let p : Phase := hi ++ s.phs.markLo
    if phTick p ≠ 0 then { s with phs := { s.phs with badmark := true } }
    else
      let timed : State := { s with phs := { s.phs with prev := some (hostRecord p), prevTc := s.timer, rate := 1, skewed := false } }
      if !s.phs.hostTerm then
        if phLayer p ≠ 0 then s.markErr
        else ({ timed with phs := { timed.phs with hostTerm := true, term := s.phs.term + 1 } }).firstMark (phStep p)
      else
        let next := s.layersTo p == 1 && decide (phLayer p < s.layers)
        let barrier := phLayer p != 0 || (s.hif.stepV && s.hif.step == s.step)
        if next && barrier then timed.goOn 1 0 else s.markErr

/-- HOST_MARK (R40). -/
def execHostMark (t : Nat) (hi : BitVec 32) (s : State) : Res :=
  let s := s.arrive t
  .next (if s.ready then s.hostMark hi else s)

/-- A read of PHS_NOW_LO latches the upper half (R41). -/
def State.readNow (s : State) : BitVec 32 × State :=
  let p := s.phase.toNat
  (BitVec.ofNat 32 p, { s with phs := { s.phs with nowHi := BitVec.ofNat 32 (p / 2 ^ 32) } })

/-- PHS_NOW_READ (R41): before READY the register reads its reset value (R517). -/
def execPhsNowRead (t : Nat) (s : State) : Res :=
  let s := s.arrive t
  if !s.ready then .next (s.emit (.regRead 0 0x100008 0))
  else
    let (v, s) := s.readNow
    .next (s.emit (.regRead 0 0x100008 (v.zeroExtend 64)))

/-! ### The step barrier (R42 to R44) -/

/-- Whether the node may report the step (R42): every slot has ended, every result is out and acknowledged, those that wait for a recall or
a rebuild too, and every append is held and mirrored. -/
def State.stepDone (s : State) : Bool :=
  let waits := s.rq.reqs != [] || s.rq.searches != []
  let flying := s.inFlight fun p => match p with | .result _ | .append _ => true | _ => false
  let held := (s.pg.opq.any fun p => p.req.op == 4) || s.pg.acks != [] || s.pg.mirr != []
  s.layerDone && s.tier.wstr == [] && !waits && !flying && !held

/-- The master holds the reports of every member (R44). -/
def State.allReported (s : State) : Bool :=
  (List.range 16384).all fun n => !bitmapHas (s.pd.bytes 0x7004 0) n || s.phs.reports.contains n

/-- The master sends the STEP mark once every report is held (R44). -/
def State.tryStep (s : State) : State :=
  if s.phs.master && s.phs.sync && !s.phs.held && s.lastLayer && s.allReported then (s.masterMark 1 (mkPhase (s.step + 1) 0 0)).goOn 1 0 else s

/-- The 16 bytes of a step-complete report (R43). -/
def reportBytes (step node breaches : Nat) (fallback : Bool) : List Byte :=
  leBytes 8 step ++ leBytes 2 node ++ leBytes 2 (min breaches 0xFFFF) ++ leBytes 1 (flagAt fallback 0) ++ [0, 0, 0]

/-- STEP_COMPLETE_REPORT (R42, R43): to the Phase Master, or in single-card mode to HIF_STEP with PF vector 2 (R488). The step barrier begins,
in which the governor holds the level of layer 0 (R451). -/
def execStepCompleteReport (t : Nat) (s : State) : Res :=
  let s := s.arrive t
  if !s.ready || !s.phs.sync || s.phs.held || s.phs.reported || !s.lastLayer || !s.stepDone then .next s
  else
    let n := s.phs.breaches
    let fb := s.phs.fbAny
    let s := ({ s with phs := { s.phs with reported := true }, rel := { s.rel with lastDone := s.step } }).govern
    if s.single then .next ({ s with hif := { s.hif with step := s.step, stepV := true } }.emit (.msix 0 2))
    else
      let s := s.emit (.report s.step s.nodeId (min n 0xFFFF) fb)
      if s.phs.master then .next ({ s with phs := { s.phs with reports := s.nodeId :: s.phs.reports } }.tryStep)
      else .next (s.mgmtSend (s.phs.masterId.getD 0) (reportBytes s.step s.nodeId n fb))

/-- STEP_COMPLETE_RECEIVE (R44): the master records a report of the current step. -/
def execStepCompleteReceive (t step node _breaches : Nat) (_fallback : Bool) (s : State) : Res :=
  let s := s.arrive t
  if !s.ready then .next s
  else
    let s := s.mgmtTake
    if !s.phs.master || s.phs.held || step != s.step then .next s
    else
      let s := if s.phs.reports.contains node then s else { s with phs := { s.phs with reports := node :: s.phs.reports } }
      .next s.tryStep

end Sys2Proof.Machine
end

