-- ==== Sys2Proof/Machine/Power.lean ====
section
/-! DEFINITION. Power and thermal (16): the load-step governor, the package power limit, thermal limits, shedding, holdover and idle
fallow; and the requests that wait at intake while admission is stopped. -/

namespace Sys2Proof.Machine

/-! ### Requests that wait at intake (R456, R458) -/

/-- Admit one request that waited at intake. -/
def State.admitHeld (s : State) : Instr → State
  | .attendRequest _ src r => s.attend src r
  | .ctxCreate _ src r => s.ctxOp src 1 r
  | .ctxFork _ src r => s.ctxOp src 2 r
  | .ctxDelete _ src r => s.ctxOp src 3 r
  | .siltAppend _ src r => s.ctxOp src 4 r
  | .pageMark _ src r => s.ctxOp src 5 r
  | .pageRewrite _ src r => s.ctxOp src 6 r
  | .search _ src r => s.search src r
  | .corpusCreate t src env skb vfmt dim seed nseg segs => goesOn s (execCorpusCreate t src env skb vfmt dim seed nseg segs s)
  | .recordAppend t src env seg count sk recs sks => goesOn s (execRecordAppend t src env seg count sk recs sks s)
  | .recordDelete t src env seg first count => goesOn s (execRecordDelete t src env seg first count s)
  | .corpusDelete t src env => goesOn s (execCorpusDelete t src env s)
  | _ => s

/-- Admission starts again: what waited at intake is admitted in order of arrival, unless something still stops it. -/
def State.readmit (s : State) : State :=
  if s.noAdmission || !s.ready then s
  else s.rq.held.foldl (fun (s : State) i => s.admitHeld i) { s with rq := { s.rq with held := [] } }

/-- End a context or corpus operation that waits at intake. -/
def State.endIntakeOp (s : State) (src : Source) (env : Envelope) (op : Nat) (st : Status) : State :=
  let (job, comp) := s.sourceOf src
  match s.pathOf src comp job env.rnode with
  | none => s.noReply comp env.rnode
  | some q => s.endOp src env q op st 0 false

/-- End one request that waits at intake with a status (R456). -/
def State.endIntake (s : State) (st : Status) : Instr → State
  | .attendRequest _ src r => s.refuseAttend src r st none
  | .ctxCreate _ src r | .ctxFork _ src r | .ctxDelete _ src r | .siltAppend _ src r | .pageMark _ src r | .pageRewrite _ src r =>
    s.endIntakeOp src r.env r.op st
  | .search _ src r =>
    let (job, comp) := s.sourceOf src
    match s.pathOf src comp job r.env.rnode with
    | none => s.noReply comp r.env.rnode
    | some q => s.refuseSearch src r q st false
  | .corpusCreate _ src env _ _ _ _ _ _ => s.endIntakeOp src env 2 st
  | .recordAppend _ src env _ _ _ _ _ => s.endIntakeOp src env 3 st
  | .recordDelete _ src env _ _ _ => s.endIntakeOp src env 4 st
  | .corpusDelete _ src env => s.endIntakeOp src env 5 st
  | _ => s

/-- Every request of the node ends with REPLAY: those in it and those that wait at intake (R455, R456, R532, R533). -/
def State.endEverything (s : State) : State :=
  let wait := s.rq.held
  let s := s.endAll (fun _ _ => true) .replay
  let s := { s with rq := { s.rq with held := [] } }
  let s := wait.foldl (fun (s : State) i => s.endIntake .replay i) s
  (List.range 17).foldl (fun (s : State) vf => s.closeBoxes vf .replay) s

/-- SECURITY_CORE_RESTART (R378, R401): the core is up again; zeroisation goes on, and so does admission. -/
def execSecurityCoreRestart (t : Nat) (s : State) : Res :=
  let s := s.arrive t
  .next (if s.boot.powered ∧ !s.boot.perst then ({ s with sec := { s.sec with up := true } }).readmit else s)

/-! ### The load-step governor (R449 to R452) -/

/-- A POWER event (R462). -/
def State.powerEvent (s : State) (code subj : Nat) (detail : List Byte) : State := s.event { cls := 6, code, subj, detail }

/-- The node as the subject of a POWER event. -/
def nodeSubject : Nat := 0xFFFFFFFF

/-- GOVERNOR_RISE_START (R450): the rise for a slot begins, to the level at which it and the slots at work run. With ballast allowed, half of the added current over the rise is ballast
(R449), whose energy is counted at PD 0x2020.03; how much of it best-effort work took is not told. -/
def execGovernorRiseStart (t slot : Nat) (s : State) : Res :=
  let s := s.arrive t
  match s.slots.find? fun e => e.1 == slot with
  | none => .next s
  | some (_, e) =>
    if !s.ready || s.pwr.rises.contains slot then .next s
    else
      let s := s.ballastSpent
      let level := max s.pwr.level (levelOf (e :: s.atWork))
      let amps := level - s.pwr.level
      let s := if s.pwr.ballast then s.countBy 0x2020 3 (amps * amps * s.boot.mv / (2 * max 1 s.pwr.slew * 1000000)) else s
      .next { s with pwr := { s.pwr with rises := slot :: s.pwr.rises, level, excess := level - levelOf s.atWork,
                                         excessAt := s.timer + 16 * s.slopeTicks amps } }

/-- A write of GOV_CTL (R464): ignored under PWR_CTL.LOCK; a limit outside 50 to 250 A/µs is brought into it. The limit takes effect at
the next slot-table activation (R465), and PD 0x2002.00 mirrors it. -/
def State.writeGovCtl (s : State) (v : Nat) : State :=
  if s.pwr.lock then s
  else
    let n := max 50 (min 250 (bitsOf v 0 9))
    ({ s with pwr := { s.pwr with slewNext := some n, ballast := bitAt v 9 } }).pdSetNum 0x2002 0 n

/-- GOV_CTL_WRITE (R464). -/
def execGovCtlWrite (t : Nat) (v : BitVec 32) (s : State) : Res :=
  let s := s.arrive t
  .next (if s.ready then s.writeGovCtl v.toNat else s)

/-! ### Package power (R453, R399) -/

/-- Round to the nearest multiple of 25 (R399). -/
def round25 (w : Nat) : Nat := (w + 12) / 25 * 25

/-- The power limit's transitions on a 1 ms mean (R453, R463). -/
def State.powerCap (s : State) (mean : Rat) : State :=
  let limit : Rat := (s.pdNum 0x2001 0 : Rat)
  let p := s.pwr
  let low := decide (mean ≤ limit * 19 / 20)
  let belowAt := if low then some (p.belowAt.getD s.timer) else none
  let s := { s with pwr := { s.pwr with belowAt } }
  if !p.cap then
    if limit < mean then
      (({ s with pwr := { s.pwr with cap := true, capAt := s.timer } }).govern).powerEvent 6 nodeSubject [1, 0]
    else s
  else if p.capHalf then
    if (belowAt.elim false fun b => decide (b + 10 * ms ≤ s.timer)) && decide (p.stage < 4) then
      ({ s with pwr := { s.pwr with cap := false, capHalf := false } }).powerEvent 6 nodeSubject [0, 0]
    else s
  else if low then ({ s with pwr := { s.pwr with cap := false } }).powerEvent 6 nodeSubject [0, 0]
  else if limit < mean ∧ p.capAt + 10 * ms ≤ s.timer then
    ({ s with pwr := { s.pwr with capHalf := true } }).powerEvent 6 nodeSubject [1, 1]
  else s

/-- The AVSBus master at a sample (R530, R533): a request in flight is answered; another may follow, none while stage 0 has been
left nor once two in succession have failed. -/
def State.avsSample (s : State) : State :=
  let s : State := match s.boot.avsWant with
    | some v => { s with boot := { s.boot with mv := v, avsWant := none, avsTries := 0 } }
    | none => s
  if s.pwr.stage ≠ 0 ∨ 2 ≤ s.boot.avsTries then s
  else
    let (i, s) := s.draw
    { s with boot := { s.boot with avsWant := (Config.avsRequest i).map fun k => 700 + 5 * (k % 21) } }

/-- POWER_SAMPLE (R399, R453): every 10 µs; the mean runs over the last hundred samples. With the end of a 100 ms interval come the
readings of the Directory. -/
def execPowerSample (t watts : Nat) (mean100 : Option Nat) (s : State) : Res :=
  let s := s.arrive t
  if !s.ready then .next s
  else
    let l := (watts :: s.pwr.watts).take 100
    let s := { s with pwr := { s.pwr with watts := l } }
    let s := s.avsSample
    let s := if l.length = 100 then s.powerCap ((l.sum : Rat) / 100) else s
    match mean100 with
    | none => .next s
    | some m =>
      let (i, s) := s.draw
      .next { s with pwr := { s.pwr with reading := round25 m, rail := some i } }

/-! ### Thermal limits (R454, R455) -/

/-- A trip (R455): recorded, THERM_TRIP_N asserted, every request ended with REPLAY; every clock but that of VDD_AON stops, and HBM
holds nothing. -/
def State.thermalTrip (s : State) (sensor : Nat) (temp : Int) : State :=
  let s := s.powerEvent 5 sensor (leBytes 2 (temp.toNat))
  let s := s.endEverything
  { s with pwr := { s.pwr with trip := true }, boot := { s.boot with thermTrip := true }, mem := [] }

/-- The hottest sensor of a group: its number and temperature. -/
def hottest : List (Nat × Int) → Nat × Int
  | [] => (0, -273)
  | [x] => x
  | x :: rest => let y := hottest rest; if y.2 ≤ x.2 then x else y

/-- The throttle level of the logic dies with its hysteresis (R454). -/
def throttleLevel (was : Nat) (c : Int) : Nat :=
  if 105 ≤ c ∨ (was = 2 ∧ 102 ≤ c) then 2 else if 100 ≤ c ∨ (1 ≤ was ∧ 97 ≤ c) then 1 else 0

/-- The warning of a group (R454). -/
def State.thermWarn (s : State) (group : Nat) (level : Int) (x : Nat × Int) : State :=
  let was := s.pwr.warned.contains group
  if level ≤ x.2 ∧ !was then
    ({ s with pwr := { s.pwr with warned := group :: s.pwr.warned } }).powerEvent 3 x.1 (leBytes 2 x.2.toNat)
  else if x.2 < level - 3 ∧ was then { s with pwr := { s.pwr with warned := s.pwr.warned.filter (· != group) } }
  else s

/-- Collect the samples of a 100 ms interval, of 1,000 samples, and publish its means rounded to 1 °C (R461). -/
def State.meanTemps (s : State) (l : List (Nat × Int)) : State :=
  let sums := l.foldl (fun (m : Assoc Int) x => put m x.1 (lookD m x.1 0 + x.2)) s.pwr.tsums
  let n := s.pwr.tcount + 1
  if n < 1000 then { s with pwr := { s.pwr with tsums := sums, tcount := n } }
  else { s with pwr := { s.pwr with tsums := [], tcount := 0, temps := sums.map fun x => (x.1, (2 * x.2 + 1000) / 2000) } }

/-- THERMAL_SAMPLE (R454, R455, R209, R461): every 100 µs each die sensor is sampled: 0 to 3 the quadrants, 4 the I/O die, 5 to 28 the
stacks. -/
def execThermalSample (t : Nat) (temps : List Int) (s : State) : Res :=
  let s := s.arrive t
  let l := temps.zipIdx.map fun x => (x.2, x.1)
  let a := hottest (l.filter fun x => decide (x.1 ≤ 4))
  let h := hottest (l.filter fun x => decide (5 ≤ x.1) && decide (x.1 ≤ 28))
  if s.pwr.trip ∨ !s.boot.powered ∨ s.boot.perst then .next s
  else if 115 ≤ a.2 then .next (s.thermalTrip a.1 a.2)
  else if 100 ≤ h.2 then .next (s.thermalTrip h.1 h.2)
  else if !s.ready then .next s
  else
    let s := (s.meanTemps l).refreshSample h.2
    let s := (s.thermWarn 0 95 a).thermWarn 1 92 h
    let was := s.pwr.throt
    let lvl := throttleLevel was a.2
    let s := { s with pwr := { s.pwr with throt := lvl } }
    let s := if was < lvl then (s.count 0x2020 5).powerEvent 4 a.1 (leBytes 1 lvl ++ leBytes 2 a.2.toNat) else s
    let hot := decide (95 ≤ h.2) || (s.pwr.hbmHot && decide (92 ≤ h.2))
    let fresh := hot && !s.pwr.hbmHot
    let s := { s with pwr := { s.pwr with hbmHot := hot } }
    .next (if fresh then ((s.count 0x2020 5).powerEvent 4 h.1 (leBytes 1 1 ++ leBytes 2 h.2.toNat)).nmuAbortAll else s)

/-! ### Shedding (R456 to R459) -/

/-- The time for which the sag of a stage must hold, in timer units (R456). -/
def sagTime (stage : Nat) : Nat := (if stage ≤ 2 then 10 else if stage = 3 then 5 else if stage = 4 then 2 else 1) * us

/-- Whether a trigger of a stage holds: a sag of at least its depth for its time, or PWR_WARN for (stage − 1) × I (R456). -/
def State.sagTrigger (s : State) (stage : Nat) : Bool :=
  (look s.pwr.sagSince stage).elim false fun a => decide (a + sagTime stage ≤ s.timer)

/-- The PWR_WARN trigger of a stage. -/
def State.warnTrigger (s : State) (stage : Nat) : Bool :=
  s.pwr.warn && decide (s.pwr.warnAt + (stage - 1) * s.pdNum 0x2301 0 * us ≤ s.timer)

/-- Whether a stage's trigger holds. -/
def State.trigger (s : State) (stage : Nat) : Bool :=
  decide (1 ≤ stage) && decide (stage ≤ 6) && (s.sagTrigger stage || s.warnTrigger stage)

/-- Note which triggers hold now, before the levels change (R457). -/
def State.noteTriggers (s : State) : State :=
  let l := (List.range 7).filter fun n => s.trigger n
  { s with pwr := { s.pwr with lastHeld := l.foldl (fun (m : Assoc Nat) n => put m n s.timer) s.pwr.lastHeld } }

/-- Whether PWR_WARN is low and every sensed rail within its static tolerance of 1% (R444, R458). -/
def PwrSt.clean (p : PwrSt) : Bool := !p.warn && p.sag == 0

/-- New levels of PWR_WARN and of the sag. A boot pauses on either (R523). -/
def State.setLevels (s : State) (warn : Bool) (percent : Nat) : State :=
  let s := s.noteTriggers
  let was := s.pwr.clean
  let since := (List.range 7).filterMap fun n =>
    if 1 ≤ n ∧ n + 2 ≤ percent then some (n, (look s.pwr.sagSince n).getD s.timer) else none
  let p : PwrSt := { s.pwr with warn, warnAt := if warn && !s.pwr.warn then s.timer else s.pwr.warnAt, sag := percent, sagSince := since }
  let p : PwrSt := if p.clean && !was then { p with cleanAt := s.timer } else p
  let s : State := { s with pwr := p }
  if !s.boot.ready ∧ s.boot.stage < 5 ∧ (warn ∨ 3 ≤ percent) then { s with boot := { s.boot with paused := true } } else s

/-- PWR_WARN_ASSERT (R456, R529). -/
def execPwrWarnAssert (t : Nat) (s : State) : Res :=
  let s := s.arrive t
  .next (if s.boot.powered then s.setLevels true s.pwr.sag else s)

/-- PWR_WARN_DEASSERT (R457, R529). -/
def execPwrWarnDeassert (t : Nat) (s : State) : Res :=
  let s := s.arrive t
  .next (if s.boot.powered then s.setLevels false s.pwr.sag else s)

/-- SUPPLY_SAG (R456): the deepest sag of VDD_CORE, VDD_SRAM and VDDC_HBM, in whole percent below the setpoint. -/
def execSupplySag (t percent : Nat) (s : State) : Res :=
  let s := s.arrive t
  .next (if s.boot.powered then s.setLevels s.pwr.warn percent else s)

/-- A running DMA channel halts with REPLAY, once its outstanding messages have ended (R348, R456). -/
def State.dmaShed (s : State) (ch : Nat) : State :=
  let d := s.dma ch
  if d.st ≠ .running then s
  else
    let mine (w : Msg) : Bool := w.prod == .dma ch && w.cseq.isNone
    let left := d.outst - ((s.queued d.queue).filter mine).length
    let s := s.unqueue d.queue mine
    let at_ := d.srcA + d.progress
    if left = 0 then (s.setDma ch { d with outst := 0 }).dmaHaltAt ch at_ false .replay d.progress
    else s.setDma ch { d with outst := left, bad := some (d.bad.getD (at_, false, .replay)) }

/-- What entering one stage does (R456). Stages 3, 4 and 5 act through the conditions that read the stage. -/
def State.stageAction (s : State) (stage : Nat) : State :=
  if stage = 1 then { s with rel := { s.rel with acts := s.rel.acts.filter fun (a : Act) => decide (3 < a.act) } }
  else if stage = 2 then s.nmuAbortAll
  else if stage = 6 then
    let s := s.stopWork.endEverything
    let s := (s.rmo.alines.map (·.line)).foldl (fun (s : State) l => s.writeBackNow l) s
    (List.range 128).foldl (fun (s : State) ch => s.dmaShed ch) s
  else s

/-- Note that a stage has been entered: PWR_STAT, the counts of PD 0x2020.01, and the time. -/
def State.noteStage (s : State) (stage : Nat) : State :=
  { s with pwr := { s.pwr with stage, stagehi := max s.pwr.stagehi stage, stageAt := s.timer },
           pd := s.pd.setCount 0x2020 (16 + stage) (s.pd.count 0x2020 (16 + stage) + 1) }

/-- SHED_STAGE_ENTER (R456): a trigger has held for its time, and the node enters the highest stage whose trigger holds, with the
actions of every stage up to it. -/
def execShedStageEnter (t stage : Nat) (s : State) : Res :=
  let s := s.arrive t
  let top := ((List.range 7).filter fun n => s.trigger n).foldl max 0
  let cur := s.pwr.stage
  if !s.ready ∨ s.pwr.off ∨ !s.trigger stage ∨ 6 ≤ cur ∨ top ≤ cur then .next s
  else
    let s := s.noteStage top
    let s := ((List.range 7).filter fun n => decide (cur < n) && decide (n ≤ top)).foldl (fun (s : State) n => s.stageAction n) s
    .next (s.powerEvent 1 nodeSubject (leBytes 1 top ++ leBytes 1 (if s.sagTrigger top then 0 else 1)))

/-- Appends whose mirror acknowledgement is missing. -/
def State.unmirrored (s : State) : Nat := s.pg.mirr.length

/-- Whether the work of stage 6 has ended (R456): appends, mirrors, contributions and write-backs. -/
def State.shedDone (s : State) : Bool :=
  s.unmirrored == 0 && !(s.rmo.alines.any (·.dirty)) && s.pg.acks == [] &&
    !(s.inFlight fun p => match p with | .append _ | .parity _ _ _ _ _ _ | .mirror _ | .ring _ => true | _ => false)

/-- STAGE6_END (R456): its work is complete, or 50 µs have passed: stage 7. -/
def execStage6End (t : Nat) (s : State) : Res :=
  let s := s.arrive t
  if s.pwr.stage ≠ 6 ∨ !s.ready ∨ (!s.shedDone ∧ s.timer < s.pwr.stageAt + 50 * us) then .next s
  else
    let n := s.unmirrored
    .next (((s.countBy 0x2020 4 n).noteStage 7).powerEvent 1 nodeSubject (leBytes 1 7 ++ leBytes 1 (if s.pwr.warn then 1 else 0)))

/-- SHED_STAGE_EXIT (R457): no trigger of the stage has held for 1 ms, with PWR_WARN low and every sag below 2%. A node that is held
after holdover stays at stage 5 (R458). -/
def execShedStageExit (t : Nat) (s : State) : Res :=
  let s := s.arrive t
  let n := s.pwr.stage
  let quiet := !s.pwr.warn && decide (s.pwr.sag < 2) && decide (lookD s.pwr.lastHeld n 0 + ms ≤ s.timer)
  if n = 0 ∨ 5 < n ∨ s.pwr.held ∨ !quiet ∨ !s.ready then .next s
  else
    let s := { s with pwr := { s.pwr with stage := n - 1, stageAt := s.timer } }
    .next (s.powerEvent 2 nodeSubject (leBytes 1 (n - 1))).readmit

/-- HOLDOVER_EXIT (R458): after 10 ms with clean rails the node leaves stage 7 and holds at stage 5. -/
def execHoldoverExit (t : Nat) (s : State) : Res :=
  let s := s.arrive t
  if s.pwr.stage ≠ 7 ∨ s.pwr.idle ∨ !s.ready ∨ !s.pwr.clean ∨ s.timer < s.pwr.cleanAt + 10 * ms then .next s
  else
    let spent := (s.timer - s.pwr.stageAt) / ms
    let s := { s with pwr := { s.pwr with stage := 5, held := true, stageAt := s.timer } }
    .next (s.powerEvent 8 nodeSubject ([0, 0, 0, 0] ++ leBytes 8 spent))

/-- A write of PWR_CTL (R458, R460, R464). IDLE may be set only while no composition is in service and no table runs. -/
def State.writePwrCtl (s : State) (v : Nat) : State :=
  let s := if bitAt v 0 ∧ s.pwr.held then { s with pwr := { s.pwr with held := false } } else s
  let s := if bitAt v 31 then { s with pwr := { s.pwr with lock := true } } else s
  let s : State := if bitAt v 1 then
    let busy := s.sch.en || s.cmp.comps.any fun k => k.2.st == .active || k.2.st == .shrinking
    if busy ∨ s.pwr.stage ≠ 0 then s else (s.noteStage 7) |> fun s => { s with pwr := { s.pwr with idle := true } }
  else if s.pwr.idle then { s with pwr := { s.pwr with idle := false, stage := 0, stageAt := s.timer } }
  else s
  s.readmit.pumpAll

/-- POWER_RESUME (R458): PWR_CTL is written with RESUME over the fields it holds. -/
def execPowerResume (t : Nat) (s : State) : Res :=
  let s := s.arrive t
  .next (if s.ready then s.writePwrCtl (1 + flagAt s.pwr.idle 1) else s)

/-- IDLE_FALLOW (R460): PWR_CTL is written. -/
def execIdleFallow (t : Nat) (v : BitVec 32) (s : State) : Res :=
  let s := s.arrive t
  .next (if s.ready then s.writePwrCtl v.toNat else s)

end Sys2Proof.Machine
end

