-- ==== Sys2Proof/Machine/Quanta.lean ====
section
/-! DEFINITION. Best-effort work in slack (R60), and tamping (R100 to R102). -/

namespace Sys2Proof.Machine

/-! ### Quanta (R60, R440, R452) -/

/-- The composition that a quantum works for. -/
def State.quantumComp (s : State) : Quantum → Option Nat
  | .tampMove job ctx _ _ => (s.ctx? job ctx).map (·.comp)
  | .tampFold c _ => some c
  | .reclaim c _ => some c
  | .demote c => some c
  | .promote job ctx _ _ => (s.ctx? job ctx).map (·.comp)
  | .scrub npa => s.compAt npa
  | .rebuild c _ => some c
  | .relocate c => some c
  | .request id _ => match s.req? id with
    | some r => some r.comp
    | none => (s.rq.searches.find? fun x => x.id == id).map (·.comp)

/-- The maintenance activity of R437 that a quantum is part of; a request is part of none. -/
def quantumAct : Quantum → Option Nat
  | .tampMove _ _ _ _ => some 2
  | .tampFold _ _ => some 2
  | .reclaim _ _ => some 3
  | .demote _ => some 3
  | .promote _ _ _ _ => some 3
  | .scrub _ => some 1
  | .rebuild _ _ => some 6
  | .relocate _ => some 3
  | .request _ _ => none

/-- Whether a running activity keeps a quantum of the node's own waiting (R440): a conflicting one, but the rebuild waits for a
commanded retrain alone. -/
def State.actWaits (s : State) (act c : Nat) : Bool :=
  if act = 6 then s.rel.acts.any fun a => a.act == 5
  else s.rel.acts.any fun a => actConflict act c a.act a.subj && !(a.act == act && a.subj == c)

/-- A best-effort request may be dispatched as a quantum: one that no slot of the layer admits. -/
def State.bestEffortReq (s : State) (id sec : Nat) : Bool :=
  match s.req? id with
  | some r => (r.secs[sec]?).elim false fun x => x.slot.isNone
  | none => (s.rq.searches.find? fun x => x.id == id).elim false fun x => x.slot.isNone

/-- The class of R46 whose work a quantum is, which says what it holds (R60). -/
def quantumClass : Quantum → Nat
  | .tampMove _ _ _ _ => 8
  | .tampFold _ _ => 8
  | .reclaim _ _ => 10
  | .demote _ => 10
  | .promote _ _ _ _ => 10
  | .scrub _ => 9
  | .rebuild _ _ => 11
  | .relocate _ => 8
  | .request _ _ => 8

/-- The bytes that a quantum moves, of which R50 gives its bound (R60). A request looks for its own slack at its dispatch. -/
def State.quantumBytes (s : State) (c : Nat) : Quantum → Nat
  | .tampMove job ctx stream page =>
    (s.page? job ctx stream page).elim 0 fun p => 64 * (s.homeOf p).clen
  | .tampFold _ _ => 16
  | .reclaim _ _ => 16384
  | .demote _ => 16384
  | .promote job ctx stream page =>
    (s.page? job ctx stream page).elim 0 fun p => 64 * (s.homeOf p).clen
  | .scrub npa => 1024 * lookD s.rel.rates (pcOf npa / 64) 1
  | .rebuild _ _ => (s.ringCfg c).elim 0 fun g => g.plen
  | .relocate _ => 16384
  | .request _ _ => 0

/-- The work of one quantum. -/
def State.quantum (s : State) (c : Nat) : Quantum → State
  | .tampMove job ctx stream page =>
    if (s.nextTamp c).any fun x => x.1 == job && x.2.1 == ctx && x.2.2.1 == stream && x.2.2.2.1 == page then s.tampGo job ctx stream page else s
  | .tampFold c entry => s.tampFold c entry
  | .reclaim c ch => s.reclaim c ch
  | .demote c => (s.demote c).reseal c 16384
  | .promote job ctx stream page => s.promote job ctx stream page
  | .scrub npa => s.scrubBytes c (1024 * lookD s.rel.rates (pcOf npa / 64) 1)
  | .rebuild c slot => (s.startPiece c slot).contributeLater c
  | .relocate c => if s.leaving c = [] then s else s.relocate c
  | .request id sec =>
    if !s.bestEffortReq id sec then s
    else match s.req? id with
      | some r => if (r.secs[sec]?).elim false (·.paused) then s.continueSec r sec else s.dispatchAttend r sec
      | none => match s.rq.searches.find? fun x => x.id == id with
        | some x => if x.paused then s.continueSearch x else s.dispatchSearch x
        | none => s

/-- Work waits for the governor (R452): counted, with at most one GOV_DEFER record a millisecond, which gives the waits since the last
(R462). -/
def State.governorWait (s : State) : State :=
  let s := s.count 0x2020 2
  let waits := s.pwr.waits + 1
  if s.rmo.evLast.any fun r => r.1 == 6 && r.2.1 == 7 && r.2.2.1 == nodeSubject && decide (s.timer < r.2.2.2 + ms) then
    { s with pwr := { s.pwr with waits } }
  else ({ s with pwr := { s.pwr with waits := 0 } }).powerEvent 7 nodeSubject ([0, 0, 0, 0] ++ leBytes 4 waits)

/-- BEST_EFFORT_QUANTUM_START (R60, R440, R452): a quantum starts where slack, maintenance and the governor let it; the waits for the
last two are counted. -/
def execBestEffortQuantumStart (t : Nat) (q : Quantum) (s : State) : Res :=
  let s := s.arrive t
  match s.quantumComp q with
  | none => .next s
  | some c =>
    let ticks := ticksUp (s.boundNs { cls := 8, comp := c, bytes := s.quantumBytes c q } 0 0)
    let room := (match q with | .request _ _ => true | _ => false) || s.slack c (quantumClass q) (s.compTiles c) ticks
    if !s.ready || !s.bestEffort || !room then .next s
    else if (quantumAct q).any fun a => s.actWaits a c then .next (s.count 0xA102 0)
    else
      let (n, s) := s.draw
      if !Config.grants n then
        .next s.governorWait
      else .next (s.quantum c q)

end Sys2Proof.Machine
end

