-- ==== Sys2Proof/Machine/Master.lean ====
section
/-! DEFINITION. What the Phase Master does at a fault (R44, R417 to R423), and the records of control flits and gateway datagrams that
carry marks (R270, R286, R287). -/

namespace Sys2Proof.Machine

/-! ### Standbys (R419, R420) -/

/-- The spare list: node and composition of each entry that is present. -/
def State.spares (s : State) : List (Nat × Nat) :=
  let b := s.pd.bytes 0x7100 0
  (List.range (b.length / 4)).map fun i => (bitsOf (field b (4 * i) 4) 0 14, bitsOf (field b (4 * i) 4) 16 4)

/-- The members that a fault of a notice loses (R416): ring, rank, node and composition of each. The notice names one; this node's own
ring records name the others that stand on a faulty node. -/
def State.lostMembers (s : State) (n : Notice) : List (Nat × Nat × Nat × Nat) :=
  let named := if n.ring = 0 then [] else [(n.ring, n.rank, n.subj, n.comp.getD 0)]
  let known := ((List.range 16).filterMap s.ringCfg).map fun g =>
    (g.ranks.zipIdx.filter fun r => r.1.1 == n.subj && (n.scope == 5 || n.scope == 6 || n.comp == some r.1.2)).map fun r => (g.ring, r.2, r.1.1, r.1.2)
  (named ++ known.flatten).dedup

/-- The first standby for a lost member (R419): its node reachable, in none of the ring's other ranks, not given away already, and
holding slices enough (log entry 44). -/
def State.standbyFor (s : State) (m : Nat × Nat × Nat × Nat) : Option (Nat × Nat) :=
  let others := (((List.range 16).filterMap s.ringCfg).filter fun g => g.ring == m.1).map fun g => g.ranks
  s.spares.find? fun x =>
    (x.1 == s.nodeId || (s.reaches x.1 && !s.rel.unreach.contains x.1)) && x != (m.2.2.1, m.2.2.2) && x.1 != m.2.2.1 &&
      !(others.flatten.contains x) && !(s.rel.roles.any fun r => (r.standby, r.standC) == x) && Config.standbyFits x.1 x.2 m.2.2.1 m.2.2.2

/-- The 32 bytes of a ROLE notice (R419). -/
def roleBytes (r : Role) : List Byte :=
  padTo 32 (leBytes 8 r.phase.toNat ++ leBytes 4 r.ring ++ leBytes 1 r.rank ++ leBytes 1 (r.lostC % 16 + 16 * (r.standC % 16))
    ++ leBytes 2 (r.lost % 2 ^ 14) ++ leBytes 2 (r.standby % 2 ^ 14))

/-- The nodes of the job and the endpoints that a ROLE notice goes to (R419), this node apart. -/
def State.roleEnds (s : State) : List Nat :=
  let b := s.pd.bytes 0x7102 0
  let ends := (List.range (b.length / 2)).map fun i => bitsOf (field b (2 * i) 2) 0 14
  let job := (List.range 16384).filter fun n => n != s.nodeId && bitmapHas (s.pd.bytes 0x7004 0) n
  job ++ ends.filter fun n => !job.contains n

/-- A rank is vacated (R425): the holder zeroes every frame in which the rank's record is valid, and RECONTRIBUTE naming itself goes to
every member. The members of this node do so where the node learns of it as the master (log entry 123). -/
def State.vacate (s : State) (c ring rank : Nat) : State :=
  match s.ringCfg c with
  | none => s
  | some g =>
    if g.ring ≠ ring ∨ g.rank = rank ∨ s.compServes c = false then s
    else match s.ringBase c g with
      | none => s
      | some base =>
        let out (k : Nat) : Bool := recordValid (s.load (base + g.frameAt k + 16 * recordPos rank g.rank) 16)
        s.renewFrames c g base out ((List.range 9).filter fun m => m != g.rank && m != rank)

/-- Give a lost member its standby and say so; without one the rank stays vacant (R420). -/
def State.replaceMember (s : State) (m : Nat × Nat × Nat × Nat) : State :=
  match s.standbyFor m with
  | none => (List.range 16).foldl (fun (s : State) c => s.vacate c m.1 m.2.1) s
  | some (node, c) =>
    let r : Role := { phase := mkPhase s.step 0 0, ring := m.1, rank := m.2.1, lostC := m.2.2.2, standC := c, lost := m.2.2.1, standby := node }
    let s := s.emit (.role r)
    let s := s.roleEnds.foldl (fun (s : State) n => s.mgmtSend n (roleBytes r)) s
    let s := { s with rel := { s.rel with waiting := (m.1, m.2.1) :: s.rel.waiting } }
    s.roleTaken r

/-! ### Fault notices (R416 to R423, R441) -/

/-- The master resumes once every standby is ready (R421, R441). -/
def State.resumeIfReady (s : State) : State :=
  if s.phs.held && s.rel.waiting == [] && !s.rel.restarted then s.masterResume else s

/-- The master handles a fault: the step is held, or stays held; standbys take the ranks lost; or the job restarts, as scopes
SECURITY and TIMEBASE ask and a fourth hold of one step does (R416, R423), the members of a node whose Security Core faulted replaced
before it (R429). -/
def State.masterFault (s : State) (n : Notice) : State :=
  let s := if s.phs.held then s else s.masterHold
  let s := { s with rel := { s.rel with notices := n :: s.rel.notices } }
  if n.scope = 6 then ((s.lostMembers n).foldl (fun (s : State) m => s.replaceMember m) s).jobRestart 6
  else if n.scope = 7 ∨ 4 ≤ s.phs.holds then s.jobRestart n.scope
  else
    let s := if n.scope = 4 ∨ n.scope = 5 then (s.lostMembers n).foldl (fun (s : State) m => s.replaceMember m) s else s
    s.resumeIfReady

/-- A fault of the source ends a shadowing (R441). -/
def State.sourceFault (s : State) (node : Nat) : State :=
  match s.rel.joining with
  | none => s
  | some a =>
    if a.snode = node ∧ a.shadow then ({ s with rel := { s.rel with joining := none, astatus := .faultTorndown } }).dropImage a.lcomp else s

/-- FAULT_NOTICE (R417, R419): one from another node comes over VL6. -/
def execFaultNotice (t : Nat) (n : Notice) (s : State) : Res :=
  let s := s.arrive t
  if !s.ready then .next s
  else
    let s := if n.node = s.nodeId then s else s.mgmtTake
    let s := s.sourceFault n.subj
    .next (if s.phs.master && s.phs.sync && decide (1 ≤ n.scope) && decide (n.scope ≤ 7) then s.masterFault n else s)

/-- The members whose report for the step is missing. -/
def State.missing (s : State) : List Nat :=
  (List.range 16384).filter fun n => bitmapHas (s.pd.bytes 0x7004 0) n && !s.phs.reports.contains n

/-- The notice of a node that the master finds unreachable. -/
def State.nodeNotice (s : State) (n : Nat) : Notice :=
  { phase := s.phase, node := s.nodeId, subj := n, scope := 5, comp := none, ring := 0, rank := 0 }

/-- Hold the step for nodes that count as unreachable, and start its replay (R44, R418). -/
def State.holdFor (s : State) (gone : List Nat) : State :=
  let s := s.masterHold
  let away := gone.filter fun (n : Nat) => n != s.nodeId && !s.rel.unreach.contains n
  let s : State := { s with rel := { s.rel with unreach := away ++ s.rel.unreach, notices := gone.map s.nodeNotice ++ s.rel.notices } }
  if 4 ≤ s.phs.holds then s.jobRestart 5
  else
    let lost := (gone.map fun (n : Nat) => s.lostMembers (s.nodeNotice n)).flatten
    (lost.foldl (fun (s : State) (m : Nat × Nat × Nat × Nat) => s.replaceMember m) s).resumeIfReady

/-- BARRIER_TIMEOUT (R44, R418): reports are missing PD 0x7030.00 ticks after the step's nominal end; the nodes missing count as
unreachable. -/
def execBarrierTimeout (t : Nat) (s : State) : Res :=
  let s := s.arrive t
  if !s.ready || !s.phs.master || !s.phs.sync || s.phs.held || !s.lastLayer || decide (s.elapsed < s.period + s.pdNum 0x7030 0) || s.allReported then
    .next s
  else .next (s.holdFor s.missing)

/-- STANDBY_READY (R421): both mirror copies are acknowledged at the standby of a rank. -/
def execStandbyReady (t ring rank : Nat) (s : State) : Res :=
  let s := s.arrive t
  if !s.ready || !s.phs.master || !s.phs.held || !s.rel.waiting.contains (ring, rank) then .next s
  else .next ({ s with rel := { s.rel with waiting := s.rel.waiting.filter (· != (ring, rank)) } }).resumeIfReady

/-! ### Control flits and gateway datagrams with marks (R270, R279, R280, R286, R287) -/

/-- A record of a control flit. -/
def State.linkRecord (s : State) (port : Nat) : LinkRec → State
  | .empty => s
  | .mark m => s.mark port m
  | .markCopy m => s.mark port m
  | .delayReq time => s.delayAnswer port time
  | .delayRsp time turn => s.delayTaken port time turn
  | .note => s

/-- CONTROL_FLIT_RECEIVE (R266, R270 to R273, R281), in slot 0 of its group, whose codewords are counted: one that fails FEC or CRC is discarded whole; a
control flit is never retried. One that comes while the port trains brings credits and the delay of the link. -/
def execControlFlitReceive (t port : Nat) (codes : List Ecc) (crc : BitVec 32) (f : CtlFlit) (s : State) : Res :=
  let s := s.arrive t
  let x := s.port port
  if !x.talks || x.loop || decide (8 ≤ port) then .next s
  else if flitFec x.width 0 codes = .uncorrectable then .next (s.codewords port codes)
  else if crc ≠ ctlCrc f then .next ((s.codewords port codes).count 0x4012 port)
  else
    let s := s.codewords port codes
    .next (f.recs.foldl (fun (s : State) r => s.linkRecord port r) (s.control port f))

/-- GATEWAY_DATAGRAM_RECEIVE (R285 to R287, R290): PAUSE and PFC frames are discarded and counted, what is no datagram for the gateway is not
answered, packets are passed on, and a mark counts only on a link declared point-to-point. -/
def execGatewayDatagramReceive (t port : Nat) (fr : GwFrame) (d : GwDatagram) (s : State) : Res :=
  let s := s.arrive t
  let x := s.port port
  if !x.en || x.mode == 0 || x.loop || x.st != .up || decide (8 ≤ port) then .next s
  else if fr.ether = 0x8808 then .next (s.count 0x4018 (16 + port))
  else if !s.gwUdp fr then .next s
  else if !frameFine fr d then .next (s.gwDrop port (!fr.options))
  else if d.vl = 7 then
    match d.mark with
    | some m => .next (if bitAt (s.pdNum 0x4005 2) port then s.mark port m else s.gwDrop port false)
    | none => .next (s.gwDrop port false)
  else .next (s.unpack port d)

end Sys2Proof.Machine
end

