-- ==== Sys2Proof/Machine/Boot.lean ====
section
/-! DEFINITION. Reset, the boot stages, orderly power-down, persistence of the configuration (18, 19), and the pins, clocks and test
access port of the package (20). -/

namespace Sys2Proof.Machine

/-! ### Reset (R467, R513) -/

/-- A flash channel across a reset (R519): what a scan of its blocks finds; nothing of their data can be read any more (R238). -/
def Flash.afterReset (f : Flash) : Flash :=
  { Flash.atReset with
    blocks := f.blocks.map fun b => (b.1, { b.2 with live := 0, stale := b.2.live + b.2.stale, isOpen := false }) }

/-- The state of the pins, clocks and boots that a node reset leaves alone. -/
def BootSt.afterReset (b : BootSt) : BootSt :=
  { State.reset.boot with
    perst := true, testen := b.testen, thermTrip := b.thermTrip, smbAddr := b.smbAddr, boots := b.boots, powered := b.powered,
    mv := b.mv, ir := b.ir, cells := b.cells, tdo := b.tdo, coreClk := b.coreClk, fabClk := b.fabClk, pcieClk := b.pcieClk,
    t0 := b.t0 }

/-- The supply levels that a node reset leaves alone, and a trip, which stands until power is removed (R455, R533). -/
def PwrSt.afterReset (p : PwrSt) : PwrSt :=
  { State.reset.pwr with
    warn := p.warn, warnAt := p.warnAt, sag := p.sag, sagSince := p.sagSince, lastHeld := p.lastHeld, cleanAt := p.cleanAt,
    trip := p.trip }

/-- The node as its reset holds it (R467, R513, R518): every register at its reset value; what survives is the signed configuration,
the flash blocks, the count of Security Core resets and the package's own pins and clocks. -/
def State.resetNode (s : State) : State :=
  { State.reset with
    timer := s.timer, free := s.free, out := s.out, pending := s.pending,
    pd := { State.reset.pd with stored := s.pd.stored },
    tier := { State.reset.tier with flash := s.tier.flash.map fun f => (f.1, f.2.afterReset) },
    sec := { State.reset.sec with resets := s.sec.resets },
    pwr := s.pwr.afterReset, boot := s.boot.afterReset }

/-- PERST_N_ASSERT (R513, R529): the node is in reset. -/
def execPerstNAssert (t : Nat) (s : State) : Res :=
  let s := s.arrive t
  .next (if s.boot.powered then s.resetNode else s)

/-- TESTEN_HIGH (R533): the node enters reset as if PERST_N were asserted. -/
def execTestenHigh (t : Nat) (s : State) : Res :=
  let s := s.arrive t
  let s := if s.boot.powered then s.resetNode else s
  .next { s with boot := { s.boot with testen := true } }

/-- The boot begins (R504, R513, R514): clocks run, the straps are sampled, and the nonces of this reset are drawn. -/
def State.bootStart (s : State) (addr : Nat) : State :=
  let (n, s) := s.draw
  let (m, s) := s.draw
  { s with
    pd := { s.pd with nonce := n }, sec := { s.sec with bootNonce := m },
    boot := { s.boot with perst := false, testen := false, powered := true, coreClk := true, fabClk := true, pcieClk := true, stage := 0,
                          t0 := s.timer, smbAddr := 0x60 + addr % 4, paused := s.pwr.warn || decide (3 ≤ s.pwr.sag) } }

/-- PERST_N_DEASSERT (R513, R528): the boot stages begin at ROM. After a trip the node stays as it is until a power cycle (R455). -/
def execPerstNDeassert (t addr : Nat) (s : State) : Res :=
  let s := s.arrive t
  .next (if !s.boot.perst then s
    else if s.pwr.trip then { s with boot := { s.boot with perst := false } }
    else s.bootStart addr)

/-- POWER_REMOVED (R455, R522): VDD_AON is removed: a trip and the power-down state end, and what counted since power-on starts
anew. -/
def execPowerRemoved (t : Nat) (s : State) : Res :=
  let s := (s.arrive t).resetNode
  .next { s with
    sec := { s.sec with resets := 0 }, pwr := State.reset.pwr,
    boot := { s.boot with powered := false, thermTrip := false, boots := 0, mv := 750, ir := 0x01, cells := 0, tdo := some 0x1A2405CB } }

/-! ### The boot stages (R514 to R519) -/

/-- Whether a stage of the boot is at work. -/
def State.booting (s : State) (stage : Nat) : Bool :=
  s.boot.powered && !s.boot.perst && !s.boot.testen && s.boot.coreClk && !s.pwr.trip && !s.boot.paused && s.boot.stage == stage

/-- The boot ends in FAILED (R515); NODE_RDY is low (R528). -/
def State.bootFail (s : State) (why : Nat) : State :=
  { s with boot := { s.boot with stage := 15, fail := why, nodeRdy := false } }

/-- Whether the signed configuration holds an entry. -/
def PdSt.holds (p : PdSt) (index sub : Nat) : Bool := p.stored.any fun v => v.1 == index && v.2.1 == sub

/-- The host link has trained (R466, R517), with what it negotiated (log entry 50). -/
def State.linkHost (s : State) : State :=
  let (n, s) := s.draw
  let rate := 1 + Config.pcieRate n % 6
  { s with hif := { s.hif with rate, width := 1 + Config.pcieWidth n % 16, flit := rate == 6 || Config.pcieFlit n } }

/-- ROM_VERIFY_DONE (R383, R514, R515): the Security Core starts from bank A, or from bank B where A fails; with both bad the boot
fails. It derives the keys that the configuration does not hold (R381, R382). -/
def execRomVerifyDone (t : Nat) (aOk bOk : Bool) (s : State) : Res :=
  let s := s.arrive t
  if !s.booting 0 then .next s
  else if !aOk ∧ !bOk then .next ({ s with sec := { s.sec with boot := 3 } }.bootFail 1)
  else
    let derive := !(s.pd.holds 0x6002 0 && s.pd.holds 0x6002 1)
    .next ({ s with sec := { s.sec with boot := if aOk then 1 else 2, up := true },
                    boot := { s.boot with stage := 1, derive } }.linkHost)

/-- Whether an entry of the configuration has a home of its own in the state, beside the Directory's values. -/
def ownHome (index : Nat) : Bool :=
  index == 0x5010 || index == 0x6001 || (decide (0x5040 ≤ index) && decide (index ≤ 0x5043)) ||
    (decide (0x5100 ≤ index) && decide (index ≤ 0x510F))

/-- The Stored entries come into force (R379, R486, R495, R511, R518). -/
def State.loadStored (s : State) : State :=
  let st := s.pd.stored
  let s := { s with pd := { s.pd with vals := st.filter fun v => !ownHome v.1 } }
  let s := st.foldl (fun (s : State) v =>
    if 0x5040 ≤ v.1 ∧ v.1 ≤ 0x5043 then { s with pd := s.pd.setCount v.1 v.2.1 (leNat v.2.2) }
    else if 0x5100 ≤ v.1 ∧ v.1 ≤ 0x510F then
      match Fwd.ofBytes v.2.2 with
      | some f => { s with pg := { s.pg with fwd := put s.pg.fwd ((v.1 - 0x5100) * 256 + v.2.1) f } }
      | none => s
    else s) s
  let life := st.any fun v => v.1 == 0x6001 && leNat v.2.2 == 1
  let single := s.pdBool 0x1002 0
  { s with
    sec := { s.sec with life, pool := 2 },
    hif := { s.hif with single },
    hbm := { s.hbm with banks := if s.pd.holds 0x3060 1 then
      (List.range 16).map fun n => (n, Bank.ofCfg (field (s.pd.bytes 0x3060 1) n 1)) else s.hbm.banks },
    phs := { s.phs with src := if single then 1 else s.phs.src },
    pwr := { s.pwr with slew := s.pdNum 0x2002 0 },
    boot := { s.boot with nodeId := s.pdNum 0x1001 0, mac := s.pd.bytes 0x1020 0, ip4 := s.pd.bytes 0x1020 1,
                          ip6 := s.pd.bytes 0x1020 2 } }

/-- Port training starts with stage 2 (R514), in the mode of PD 0x4001.pp (R291). -/
def State.portStart (s : State) (p : Nat) : State :=
  let mode := s.pdNum 0x4001 p
  let s := s.setPort p { s.port p with mode, en := mode == 0 || mode == 1 }
  if mode = 0 ∨ mode = 1 then s.enterPort p .training else s

/-- SC_STAGE_DONE (R385, R514, R515): keys unwrapped or derived, images and configuration verified, Stored entries loaded; training
starts. A rejected configuration leaves every entry at its default, with a SECURITY event. -/
def execScStageDone (t : Nat) (cfgOk derived : Bool) (s : State) : Res :=
  let s := s.arrive t
  if !s.booting 1 ∨ !s.sec.up then .next s
  else
    let had := s.pd.stored != []
    let s : State := if cfgOk then s else { s with pd := { s.pd with stored := [] } }
    let s := if had && !cfgOk then s.event { cls := 8, code := 2, subj := 0xFFFFFFFF } else s
    let keys : List (Nat × Nat × List Byte) := if derived then [(0x6002, 0, Config.wrappedKey 0), (0x6002, 1, Config.wrappedKey 1)] else []
    let kept := s.pd.stored.filter fun v => !(derived && v.1 == 0x6002)
    let s := { s with pd := { s.pd with stored := kept ++ keys },
                      boot := { s.boot with derive := false, cfgdef := !cfgOk || !had, stage := 2 } }
    .next ((List.range 8).foldl (fun (s : State) p => s.portStart p) s.loadStored)

/-- HBM_TRAINING_DONE (R514, R515): a stack that fails leaves its slices out of service; with none left the boot fails. -/
def execHbmTrainingDone (t : Nat) (failed : List Nat) (s : State) : Res :=
  let s := s.arrive t
  if !s.booting 2 then .next s
  else
    let bad := (List.range 24).filter fun n => failed.contains n
    let slices := (bad.map fun n => [2 * n, 2 * n + 1]).flatten
    let s := { s with cmp := { s.cmp with badSlices := slices }, boot := { s.boot with badStacks := bad, hbmout := bad != [] } }
    if bad.length = 24 then .next (s.bootFail 2)
    else .next { s with sec := { s.sec with zero := true }, boot := { s.boot with stage := 3 } }

/-- ZEROISATION_DONE (R380, R514): HBM, tile SRAM, page caches and the atomic unit hold zeros, and on an OPEN node the debug gates
open. -/
def execZeroisationDone (t : Nat) (s : State) : Res :=
  let s := s.arrive t
  if !s.booting 3 ∨ !s.sec.up then .next s
  else .next { s with mem := [], hbm := { s.hbm with lines := [] }, rmo := { s.rmo with alines := [] },
                      sec := { s.sec with zero := false, tappriv := !s.sec.life, memdbg := !s.sec.life },
                      boot := { s.boot with stage := 4 } }

/-- A stored descriptor is restored (R518): ACTIVE and empty, or TORNDOWN where it names a slice out of service. -/
def State.restoreComp (s : State) (c : Nat) (d : CompDesc) : State :=
  let lost := (List.range 48).any fun n => bitAt d.slices.toNat n && s.cmp.badSlices.contains n
  let k : Comp := { st := if lost then .torndown else .active, desc := d, cause := if lost then some .fault else none, keyed := false, gen := 0,
                    noKey := false, grace := false, upd := none, oldBytes := 0, transport := !lost && decide (0 < s.sec.pool),
                    since := s.timer, busyRem := 0, next := none, packNext := none, waysNext := none, linkNext := none, nextHolder := 0 }
  let s := { s with cmp := { s.cmp with comps := put s.cmp.comps c k },
                    sec := { s.sec with pool := if lost then s.sec.pool else s.sec.pool - 1 },
                    hbm := { s.hbm with ways := (List.range 4).foldl (fun (m : Assoc (BitVec 16)) q =>
                      put m (16 * q + c) (BitVec.ofNat 16 (d.quadWays q))) s.hbm.ways } }
  (List.range 32).foldl (fun (s : State) n => if bitAt d.flash.toNat n then s.setFlash n { s.flash n with owner := some c } else s) s

/-- Every stored descriptor with EXISTS is restored (R518). -/
def State.restore (s : State) : State :=
  s.pd.stored.foldl (fun (s : State) v =>
    let d := CompDesc.ofBytes v.2.2
    if v.1 = 0x5010 ∧ d.exst then s.restoreComp v.2.1 d else s) s

/-- Whether a channel accepts a target by its parameter page (R235). -/
def targetOk (p : TargetPage) : Bool :=
  p.data == 16384 && decide (1344 ≤ p.spare) && p.nvddr3 && decide (p.luns ≤ 4) && decide (p.planes ≤ 4)

/-- The blocks that the scan of a channel finds retired or programmed (R519). A programmed one holds nothing that is read again, and no chunk
goes to it before it is erased. -/
def scanned (retired : List Nat) (programmed : List BlockScan) : Assoc FBlock :=
  let m := retired.foldl (fun (m : Assoc FBlock) b => put m b { erases := 0, live := 0, stale := 0, retired := true, isOpen := false }) []
  programmed.foldl (fun (m : Assoc FBlock) b =>
    put m b.block { erases := b.erases, live := 0, stale := 1, retired := false, isOpen := false }) m

/-- A channel is trained and scanned (R234, R235, R519): its targets are reset, read and configured, and those accepted are counted; the long
ZQ calibration runs; a block whose metadata shows it retired stays so, every programmed one is queued for erasure under its erase count, and
one found erased takes the mean of theirs. -/
def State.trainFlash (s : State) (n : Nat) (pages : List TargetPage) (retired : List Nat) (programmed : List BlockScan) : State :=
  let ps := pages.take 8
  let good := ps.filter targetOk
  let s := if ps = [] then s
    else [0xFF, 0x90, 0xEC, 0xED, 0xEF, 0xE2, 0xF9].foldl (fun (s : State) o => s.emit (.flashCmd n o)) s
  s.setFlash n { s.flash n with
    up := good != []
    targets := good.length
    refused := good.length != ps.length
    zqAt := s.timer
    mean := (programmed.map (·.erases)).sum / max 1 programmed.length
    eraseq := programmed.map (·.block)
    blocks := scanned retired programmed } |>.gaugeAll n

/-- FLASH_TRAINING_DONE (R514, R518, R519): every channel is trained and scanned, by the parameter pages of its targets
(R235); the compositions are restored, and the node is READY: it serves every path, for which it enables the searches of the directory
(R227; log entry 125). -/
def execFlashTrainingDone (t : Nat) (pages : List (List TargetPage)) (retired : List (List Nat)) (programmed : List (List BlockScan))
    (s : State) : Res :=
  let s := s.arrive t
  if !s.booting 4 then .next s
  else
    let s := (List.range 32).foldl (fun (s : State) n => s.trainFlash n (pages.getD n []) (retired.getD n []) (programmed.getD n [])) s
    let waits := ((programmed.take 32).map (·.length)).sum
    let s := s.restore
    .next { s with
      phs := { s.phs with en := true },
      hbm := { s.hbm with adirEn := true },
      boot := { s.boot with stage := 5, ready := true, nodeRdy := true, erase := waits, flashbg := decide (0 < waits),
                            bootMs := (s.timer - s.boot.t0) / ms, boots := s.boot.boots + 1 } }

/-- The blocks of a channel that still wait for erasure have been erased (R519). -/
def State.emptyQueue (s : State) (n : Nat) : State :=
  let f := s.flash n
  let wiped (m : Assoc FBlock) (b : Nat) : Assoc FBlock :=
    let x := f.block b
    put m b { x with erases := x.erases + 1, live := 0, stale := 0 }
  (s.setFlash n { f with eraseq := [], blocks := f.eraseq.foldl wiped f.blocks }).gaugeAll n

/-- FLASH_BACKGROUND_ERASE_DONE (R519): the queue of programmed blocks is empty, and what waited in it is erased. -/
def execFlashBackgroundEraseDone (t : Nat) (s : State) : Res :=
  let s := s.arrive t
  .next (if s.ready && s.boot.flashbg then
      let s := (List.range 32).foldl (fun (s : State) n => s.emptyQueue n) s
      { s with boot := { s.boot with flashbg := false, erase := 0 } }
    else s)

/-- BOOT_STAGE_RESTART (R523): every trigger has been clear for 10 ms, and the interrupted stage starts again. -/
def execBootStageRestart (t : Nat) (s : State) : Res :=
  let s := s.arrive t
  let clear := !s.pwr.warn && decide (s.pwr.sag < 3) && decide (lookD s.pwr.lastHeld 1 0 + 10 * ms ≤ s.timer)
  .next (if s.boot.paused && clear then { s with boot := { s.boot with paused := false } } else s)

/-! ### The signed configuration (R385, R495) -/

/-- The value in force of a Stored entry, where it is other than the default. DESIGN CHOICE (log entry 169): of PD 0x3302.CC, the value last
written to it, not a margin that R152 adapted. -/
def State.inForce (s : State) (index sub : Nat) : Option (List Byte) :=
  if index = 0x5010 then
    (s.comp? sub).bind fun k => if k.st = .free ∨ k.st = .releasing then none else some (k.desc.toBytes k.st)
  else if 0x5100 ≤ index ∧ index ≤ 0x510F then (look s.pg.fwd ((index - 0x5100) * 256 + sub)).map Fwd.toBytes
  else (s.pd.vals.find? fun v => v.1 == index && v.2.1 == sub).map (·.2.2)

/-- One entry reaches the signed configuration. -/
def State.persistOne (s : State) (k : Nat × Nat) : State :=
  let rest := s.pd.stored.filter fun v => !(v.1 == k.1 && v.2.1 == k.2)
  match s.inForce k.1 k.2 with
  | some b => { s with pd := { s.pd with stored := (k.1, k.2, b) :: rest } }
  | none => { s with pd := { s.pd with stored := rest } }

/-- A written value that has still to take effect: a margin, a packing switch or a slope limit (R155, R196, R465). What is persisted
is the value in force (R495), so its persistence waits. -/
def State.staged (s : State) (k : Nat × Nat) : Bool :=
  (k.1 == 0x3302 && (s.margin k.2).want.isSome) || (k.1 == 0x3211 && ((s.comp? k.2).bind (·.packNext)).isSome) ||
    (k.1 == 0x2002 && s.pwr.slewNext.isSome)

/-- Every Stored write whose value is in force reaches the signed configuration. -/
def State.persist (s : State) : State :=
  let wait := s.pd.unsaved.filter fun k => s.staged k
  let go := s.pd.unsaved.filter fun k => !s.staged k
  let s := go.foldl (fun (s : State) k => s.persistOne k) s
  { s with pd := { s.pd with unsaved := wait } }

/-- CONFIG_PERSIST (R385, R495): within 1 s of a write; the Security Core writes. -/
def execConfigPersist (t : Nat) (s : State) : Res :=
  let s := s.arrive t
  .next (if s.ready && s.sec.up then s.persist else s)

/-! ### Orderly power-down (R522) -/

/-- Admission stops, the work of shedding stage 6 runs, and NODE_RDY goes low (R522, R528). -/
def State.powerDown (s : State) : State :=
  if s.pwr.off then s
  else
    let s := { s with pwr := { s.pwr with off := true }, boot := { s.boot with nodeRdy := false } }
    s.stageAction 6

/-- ORDERLY_POWER_DOWN (R522): 1 is written to PD 0x1006.00. -/
def execOrderlyPowerDown (t : Nat) (s : State) : Res :=
  let s := s.arrive t
  .next (if s.ready then s.powerDown else s)

/-- POWER_DOWN_READY (R522, R523): the work has ended, what is Stored is persisted, and the loads have fallen. -/
def execPowerDownReady (t : Nat) (s : State) : Res :=
  let s := s.arrive t
  if !s.ready ∨ !s.pwr.off ∨ s.pwr.offok ∨ !s.shedDone ∨ !s.sec.up then .next s
  else
    let s := s.persist.meterPersist
    .next { s with pwr := { s.pwr with offok := true } }

/-! ### Clocks and pins (R529 to R533) -/

/-- REFCLK_CORE_LOSS (R533): requests end with REPLAY, NODE_RDY goes low, and the clocks stop until PERST_N. -/
def execRefclkCoreLoss (t : Nat) (s : State) : Res :=
  let s := s.arrive t
  if !s.boot.powered ∨ s.boot.perst ∨ !s.boot.coreClk then .next s
  else
    let s := s.endEverything
    .next { s with boot := { s.boot with coreClk := false, nodeRdy := false } }

/-- REFCLK_FAB_LOSS (R533): every port leaves UP. -/
def execRefclkFabLoss (t : Nat) (s : State) : Res :=
  let s := s.arrive t
  if !s.boot.fabClk then .next s
  else
    let s := (List.range 8).foldl (fun (s : State) p =>
      if (s.port p).st = .up ∨ (s.port p).st = .fallow then s.goRetrain p else s) s
    .next { s with boot := { s.boot with fabClk := false } }

/-- REFCLK_FAB_RETURN (R533): the ports that left UP begin to retrain. -/
def execRefclkFabReturn (t : Nat) (s : State) : Res :=
  let s := s.arrive t
  if s.boot.fabClk then .next s
  else
    let s := { s with boot := { s.boot with fabClk := true } }
    .next ((List.range 8).foldl (fun (s : State) p =>
      if (s.port p).st = .retrain then
        let s := s.enterPort p .retrain
        s.setPort p { s.port p with tries := 0 }
      else s) s)

/-- AVS_REQUEST_TIMEOUT (R533): an unanswered request is retried once; then VDD_CORE is held where it stands, and the POWER event
STAGE_UP records it at stage 1. -/
def execAvsRequestTimeout (t : Nat) (s : State) : Res :=
  let s := s.arrive t
  if s.boot.avsWant.isNone then .next s
  else if s.boot.avsTries = 0 then .next { s with boot := { s.boot with avsTries := 1 } }
  else
    let s := { s with boot := { s.boot with avsWant := none, avsTries := 2 } }
    .next (s.powerEvent 1 nodeSubject [1, 0])

/-- SMB_ALERT_RESPONSE (R529): the SMBus host has read the Alert Response Address. -/
def execSmbAlertResponse (t : Nat) (s : State) : Res :=
  let s := s.arrive t
  .next { s with boot := { s.boot with alert := false } }

/-! ### Test access (R379, R532) -/

/-- A SEALED node that holds a composition takes every instruction as BYPASS (R532). -/
def State.tapClosed (s : State) : Bool := s.sec.life && s.cmp.comps.any fun k => k.2.st != .free

/-- An instruction is in effect; IDCODE alone selects the identification register. -/
def State.tapSet (s : State) (ir : Nat) : State :=
  { s with boot := { s.boot with ir, tdo := if ir = 0x01 then some 0x1A2405CB else none } }

/-- An instruction is written to the test access port: BYPASS in its place where the port is closed. -/
def State.tap (s : State) (ir : Nat) (f : State → State) : State :=
  if !s.boot.powered then s else if s.tapClosed then s.tapSet 0xFF else f (s.tapSet ir)

/-- A boundary-scan instruction takes effect (R532): every request ends with REPLAY, and the ports are down until PERST_N. -/
def State.boundary (s : State) : State :=
  let s := s.endEverything
  let s := (List.range 8).foldl (fun (s : State) p =>
    let s := s.enterPort p .down
    s.setPort p { (s.port p).fresh with en := false }) s
  { s with boot := { s.boot with dead := true } }

/-- BYPASS. -/
def execBypass (t : Nat) (s : State) : Res := .next ((s.arrive t).tap 0xFF id)

/-- IDCODE. -/
def execIdcode (t : Nat) (s : State) : Res := .next ((s.arrive t).tap 0x01 id)

/-- SAMPLE/PRELOAD: the boundary cells are loaded; the pins are not driven from them. -/
def execSamplePreload (t : Nat) (cells : BitVec 64) (s : State) : Res :=
  .next ((s.arrive t).tap 0x02 fun s => { s with boot := { s.boot with cells } })

/-- EXTEST. -/
def execExtest (t : Nat) (s : State) : Res := .next ((s.arrive t).tap 0x03 State.boundary)

/-- CLAMP. -/
def execClamp (t : Nat) (s : State) : Res := .next ((s.arrive t).tap 0x04 State.boundary)

/-- HIGHZ. -/
def execHighz (t : Nat) (s : State) : Res := .next ((s.arrive t).tap 0x05 State.boundary)

/-- EXTEST_PULSE. -/
def execExtestPulse (t : Nat) (s : State) : Res := .next ((s.arrive t).tap 0x06 State.boundary)

/-- EXTEST_TRAIN. -/
def execExtestTrain (t : Nat) (s : State) : Res := .next ((s.arrive t).tap 0x07 State.boundary)

/-- Whether an opcode is that of a private instruction (R532). -/
def privateOpcode (n : Nat) : Bool := n % 256 != 0xFF && !(decide (1 ≤ n % 256) && decide (n % 256 ≤ 7))

/-- A debug access to HBM: it takes a grant already decided, which is counted and whose request stays raised (R205), and it is served while
the Security Core's gate is open (R198, R379). Tile SRAM is
served without an arbiter. -/
def State.debugAccess (s : State) (d : DebugAccess) : State :=
  if !s.sec.memdbg then s
  else if !isHbm d.npa && !isSram d.npa then s.emit (.refusedAccess 51 d.npa .unsupported)
  else
    let g := pcOf d.npa
    let a := s.arb g
    let s := if isHbm d.npa && a.grant.isSome then (s.count 0x3010 2).setArb g { a with grant := none } else s
    match d.wr with
    | some b => s.store d.npa b
    | none => s.emit (.debugRead d.npa (s.load d.npa d.len))

/-- PRIVATE_INSTRUCTION (R379, R532): available while the node is OPEN, once its debug gates are; its debug access to memory is carried
out, and the spec gives no other effect (log entry 96). Otherwise it is inert, and the port bypasses. -/
def execPrivateInstruction (t : Nat) (p : PrivateOp) (s : State) : Res :=
  let s := s.arrive t
  .next (if !privateOpcode p.opcode then s
    else if s.sec.tappriv then p.access.elim (s.tap (p.opcode % 256) id) fun d => (s.tap (p.opcode % 256) id).debugAccess d
    else s.tap 0xFF id)

end Sys2Proof.Machine
end

