-- ==== Sys2Proof/Machine/Directory.lean ====
section
/-! DEFINITION. The Parameter Directory (18): access, reads, checks and effects of writes, the items and messages of its protocol, and
the addresses of the management port. -/

namespace Sys2Proof.Machine

/-! ### Principals and access (R494) -/

/-- A number for each principal. -/
def principalCode : Principal → Nat
  | .keeper => 0 | .operator => 1 | .pub => 2 | .composition c => 3 + c

/-- A number for each transport. -/
def transportCode : Transport → Nat
  | .ethernet => 0 | .mctpPcie => 1 | .mctpSmbus => 2 | .pfMailbox => 3 | .vfDoe n => 4 + n | .fabric _ => 21

/-- Whether an entry is indexed by composition (R492). -/
def PdEntry.byComp (e : PdEntry) : Bool := e.lo == 0 && e.hi == 15 && e.op != .no

/-- The access of a principal to a subindex of an entry (R494). -/
def PdEntry.access (e : PdEntry) (p : Principal) (sub : Nat) : PdAccess :=
  match p with
  | .keeper => e.op
  | .operator => if e.keeper then .no else e.op
  | .composition c => if e.keeper ∨ (e.byComp ∧ sub ≠ c) then .no else e.cm
  | .pub => if e.keeper then .no else e.pb

/-- Whether an access lets a principal read. -/
def PdAccess.reads : PdAccess → Bool
  | .ro | .rw => true
  | _ => false

/-- Whether an access lets a principal write. -/
def PdAccess.writes : PdAccess → Bool
  | .wo | .rw => true
  | _ => false

/-! ### Values read (R496, and the tables that close the chapters) -/

/-- Values of the ranges 0x1000 and 0x2000 that the state holds elsewhere. -/
def State.valueA (s : State) (index sub : Nat) : Option Nat :=
  match index, sub with
  | 0x1003, _ =>
    some (flagAt s.phs.sync 0 + flagAt s.sch.en 1 + fieldAt s.pwr.stage 3 2 +
      ((List.range 16).map fun c => flagAt (s.compExists c) (5 + c)).sum)
  | 0x1004, _ => some ((s.timer - s.boot.t0) / ms)
  | 0x1006, 1 => some s.boot.bootMs
  | 0x1006, 2 => some s.boot.erase
  | 0x1006, 3 => some s.boot.boots
  | 0x1010, _ => some s.pd.unsaved.length
  | 0x1030, 0 => some (Config.nonce s.pd.nonce).toNat
  | 0x2010, _ => some s.pwr.reading
  | 0x2011, r => some (match s.pwr.rail with | some i => 25 * Config.railPower i r | none => 0)
  | 0x2012, n => some (BitVec.ofInt 32 (lookD s.pwr.temps n 0)).toNat
  | 0x2200, _ => some s.pwr.stage
  | _, _ => none

/-- Values of the ranges 0x3000 and 0x4000 that the state holds elsewhere. -/
def State.valueB (s : State) (index sub : Nat) : Option Nat :=
  match index, sub with
  | 0x3020, 3 => some (s.hbm.eccNpa / 64 % 2 ^ 26)
  | 0x3030, 0 => some (flagAt s.hbm.refRate 0)
  | 0x3050, c => some ((List.range 4).map fun q => (lookD s.hbm.ways (16 * q + c) 0).toNat * 2 ^ (16 * q)).sum
  | 0x3060, 0 => some s.hbm.adirStep
  | 0x3302, c => some (s.margin c).mg
  | 0x4017, p => some (s.port p).delay
  | 0x4210, c => some (s.linkShare c)
  | _, _ => none

/-- Values of the ranges from 0x5000 on that the state holds elsewhere. -/
def State.valueC (s : State) (index sub : Nat) : Option Nat :=
  match index, sub with
  | 0x5001, 1 =>
    some (s.cmp.cstatus.code + flagAt s.cmp.validating 8 + flagAt s.cmp.pending 9 + fieldAt s.cmp.cfail 4 12 + fieldAt s.cmp.ccheck 8 16)
  | 0x5002, _ => some s.rmo.epoch.toNat
  | 0x5005, c => some ((s.comp? c).elim 0 fun k => k.st.code)
  | 0x5030, 1 => some (s.cmp.hstatus.code + flagAt s.cmp.hand.isSome 8 + fieldAt s.cmp.hpages 32 32)
  | 0x5040, c => some (s.chargeAll.pd.count 0x5040 c)
  | 0x5041, c => some (s.chargeAll.pd.count 0x5041 c)
  | 0x6001, _ => some (flagAt s.sec.life 0)
  | 0x6010, c => some ((s.comp? c).elim 0 fun k => k.gen.toNat)
  | 0x6011, c => some ((s.comp? c).elim 0 fun k => flagAt k.keyed 0 + flagAt k.upd.isSome 1)
  | 0x7104, _ => some s.rel.lastDone
  | 0x7120, 1 =>
    some (s.rel.astatus.code + flagAt (s.rel.joining.any fun a => a.shadow && a.tested) 8 +
      fieldAt (s.rel.joining.elim 0 (·.steps)) 16 16 + fieldAt s.rel.aFail 32 32)
  | 0xA100, 1 => some (s.rel.mstatus.code + fieldAt s.rel.mAct 8 8 + fieldAt s.rel.mInst 16 16)
  | _, _ => none

/-- The byte strings that the state holds elsewhere. -/
def State.valueS (s : State) (index sub : Nat) : Option (List Byte) :=
  match index, sub with
  | 0x2020, 1 => some (((List.range 8).map fun n => leBytes 4 (s.pd.count 0x2020 (16 + n))).flatten)
  | 0x3060, 1 => some ((List.range 16).map fun n => BitVec.ofNat 8 ((s.adirBank n).width + 4 * (s.adirBank n).cls))
  | 0x4018, p =>
    some (leBytes 8 (s.pd.count 0x4018 p) ++ leBytes 8 (s.pd.count 0x4018 (8 + p)) ++ leBytes 8 (s.pd.count 0x4018 (16 + p)))
  | 0x5010, c => some ((s.inForce 0x5010 c).getD [])
  | 0x6020, n => some (match s.sec.models[n]? with
    | some m => leBytes 2 m.2.1 ++ leBytes 1 m.2.2.1 ++ (m.2.2.2.map fun e => leBytes 2 e).flatten
    | none => [])
  | 0xA101, n => some (match s.rel.acts[n]? with
    | some a => padTo 32 (leBytes 1 a.act ++ [0] ++ leBytes 2 a.subj ++ leBytes 2 a.inst ++ [0, 0] ++ leBytes 8 a.since.toNat)
    | none => [])
  | _, _ => if 0x5100 ≤ index ∧ index ≤ 0x510F then some ((s.inForce index sub).getD []) else none

/-- Whether an entry is a counter: a number that is only read and that the state holds nowhere else (R398). -/
def State.isCounter (s : State) (e : PdEntry) (sub : Nat) : Bool :=
  e.op == .ro && !e.typ.isBytes && e.index != 0x1000 && (s.valueA e.index sub).isNone && (s.valueB e.index sub).isNone &&
    ((s.valueC e.index sub).isNone || e.index == 0x5040 || e.index == 0x5041)

/-- A counter as latched at the last 1 ms boundary (R398). -/
def PdSt.latchedAt (p : PdSt) (index sub : Nat) : Nat :=
  match p.latched.find? (fun v => v.1 == index && v.2.1 == sub) with
  | some v => v.2.2
  | none => 0

/-- The value of an entry as a principal reads it (R494, R498): a Composition principal gets its own part of a counter, as latched. -/
def State.pdValue (s : State) (p : Principal) (e : PdEntry) (sub : Nat) : List Byte :=
  let num (v : Nat) : List Byte := leBytes e.maxLen v
  match p with
  | .composition c =>
    if s.isCounter e sub then num (s.pd.latchedAt e.index (if e.byComp then sub else 256 * (c + 1) + sub))
    else match s.valueS e.index sub, (s.valueA e.index sub <|> s.valueB e.index sub <|> s.valueC e.index sub) with
      | some b, _ => b
      | none, some v => num v
      | none, none => s.pd.bytes e.index sub
  | _ =>
    match s.valueS e.index sub, (s.valueA e.index sub <|> s.valueB e.index sub <|> s.valueC e.index sub) with
    | some b, _ => b
    | none, some v => num v
    | none, none => if s.isCounter e sub then num (s.pd.count e.index sub) else s.pd.bytes e.index sub

/-! ### Checks of a written value (R507) -/

/-- Whether a size is a power of two within bounds. -/
def powerIn (lo hi v : Nat) : Bool := decide (lo ≤ v) && decide (v ≤ hi) && v == 2 ^ Nat.log2 v

/-- Lengths that a value of an entry may have: that of its type; a byte string has the length its entry fixes, or none at all where
the default is empty; lists and texts any length up to the largest. -/
def PdEntry.lengthOk (e : PdEntry) (n : Nat) : Bool :=
  if !e.typ.isBytes then n == e.maxLen
  else if e.typ == .str || e.index == 0x4006 || e.index == 0x6002 then decide (n ≤ e.maxLen)
  else if e.index == 0x7100 then decide (n ≤ e.maxLen) && n % 4 == 0
  else if e.index == 0x7102 then decide (n ≤ e.maxLen) && n % 2 == 0
  else n == e.maxLen || (n == 0 && e.dlen == 0 && e.op != .wo)

/-- Whether a value lies in the range of its type and entry (R493). -/
def PdEntry.valueOk (e : PdEntry) (v : Nat) : Bool :=
  match e.typ with
  | .f32 => bitsOf v 23 8 != 255
  | .bool => decide (v ≤ 1)
  | .enum => decide (v ≤ e.most) && (e.index != 0x4001 || v != 2)
  | _ => true

/-- Refusals with UNSUPPORTED of the ranges 0x1000 to 0x3000: whether the value is allowed. -/
def State.allowsA (s : State) (index sub v : Nat) : Bool :=
  match index, sub with
  | 0x1001, _ => decide (v ≤ 16383)
  | 0x1006, _ => v == 1
  | 0x1020, 3 => v != s.pdNum 0x4005 0
  | 0x1021, _ => decide (v ≤ 3)
  | 0x2001, _ => decide (1200 ≤ v) && decide (v ≤ 2400)
  | 0x2002, _ => decide (50 ≤ v) && decide (v ≤ 250)
  | 0x2301, _ => decide (v ≤ 100)
  | 0x3001, _ => decide (16 ≤ v) && decide (v ≤ 1024)
  | 0x3202, _ => v != 0
  | 0x3302, c => decide (s.pdNum 0x3303 c ≤ v) && decide (v ≤ s.pdNum 0x3304 c)
  | 0x3303, c => decide (v ≤ s.pdNum 0x3304 c)
  | 0x3304, c => decide (s.pdNum 0x3303 c ≤ v)
  | 0x3307, _ => decide (4 ≤ v) && decide (v ≤ 20)
  | 0x3410, 0 => decide (1 ≤ v) && decide (v ≤ 168)
  | _, _ => true

/-- An NPA has 52 bits (R8). -/
def isNpa (v : Nat) : Bool := decide (v < 2 ^ 52)

/-- Refusals with UNSUPPORTED of the range 0x4000. -/
def State.allowsB (s : State) (index sub v : Nat) : Bool :=
  match index, sub with
  | 0x4150, 1 => isNpa v
  | 0x4151, _ => isNpa v
  | 0x4220, 1 => isNpa v
  | 0x4003, _ => decide (bitsOf v 16 9 ≤ 256)
  | 0x4101, 0 => decide (2 ≤ v) && decide (v ≤ 1000)
  | 0x4101, 1 => decide (2 * s.pdNum 0x4101 0 < v)
  | 0x4101, 2 => decide (1 ≤ v) && decide (v ≤ 15)
  | 0x4102, 0 => decide (s.pdNum 0x4102 1 ≤ v) && decide (v ≤ s.pdNum 0x4102 2)
  | 0x4102, 1 => decide (v ≤ s.pdNum 0x4102 0)
  | 0x4102, 2 => decide (s.pdNum 0x4102 0 ≤ v)
  | 0x4120, _ => !(bitAt v 31 && s.inGroup (bitsOf v 16 14))
  | 0x4150, 2 => powerIn 64 65536 v
  | 0x4202, _ => v == 0 || (s.queue v).opr
  | 0x4220, 2 => powerIn 64 65536 v
  | 0x4220, 3 => decide (256 ≤ v) && decide (v ≤ 2 ^ 24)
  | _, _ => true

/-- Refusals with UNSUPPORTED of the ranges from 0x5000 on. -/
def State.allowsC (s : State) (index sub v : Nat) : Bool :=
  match index, sub with
  | 0x5007, _ => decide (2 ^ 24 ≤ v)
  | 0x5031, c => v == 0 || (decide (v < 2 ^ 14) && (s.win? (s.jobOf c) v).any (·.isOpen))
  | 0x7001, _ => decide (1 ≤ v) && decide (v ≤ 4096)
  | 0x7002, _ => decide (64 ≤ v)
  | 0x7006, _ => decide (1000 ≤ v) && decide (v ≤ 1000000)
  | 0x7020, 1 => decide (0x3F800000 ≤ v) && decide (v ≤ s.pdNum 0x7020 2)
  | 0x7020, 2 => decide (s.pdNum 0x7020 1 ≤ v) && decide (v ≤ 0x3FC00000)
  | 0x7040, 1 => isNpa v
  | 0x7040, 2 => powerIn 64 65536 v
  | 0x7041, _ => isNpa v
  | 0x7042, _ => powerIn 64 65536 v
  | 0x7101, _ => decide (200 ≤ v) && decide (v ≤ 100000)
  | 0x8001, c => decide (s.pdNum 0x8002 c < v)
  | 0x8002, c => decide (v < s.pdNum 0x8001 c)
  | 0x8010, _ => isNpa v
  | 0x8011, _ => powerIn 16 4096 v
  | 0x8020, _ => v == s.pdNum 0x8020 0 || (s.tier.chunks == [] && (s.sec.models == [] || (List.range 16).all fun c => s.groupsIn c 2 == []))
  | _, _ => true

/-- The shares of R273: at most 2,048 flits in all, and at least 8 for each VL in use. -/
def sharesOk (b : List Byte) : Bool :=
  let l := (List.range 8).map fun v => field b (2 * v) 2
  decide (l.sum ≤ 2048) && (l.take 7).all fun n => decide (8 ≤ n)

/-- A ring configuration that may stand (R408, R425): nine distinct nodes, a rank of its own among them, a PLEN of the allowed sizes, and a window that holds the
layout of R425, where it has been inserted. -/
def State.ringOk (s : State) (c : Nat) (b : List Byte) : Bool :=
  match RingCfg.ofBytes b with
  | none => true
  | some g =>
    let nodes := g.ranks.map (·.1)
    nodes.dedup.length == 9 && decide (g.rank ≤ 8) && decide (512 ≤ g.plen) && decide (g.plen ≤ 7168) && g.plen % 512 == 0 &&
      (s.win? (s.jobOf c) g.win).all fun w => decide (655360 + s.pdNum 0x3401 c * (128 + g.plen) ≤ w.size)

/-- A spare list that may stand: no entry names a node of a ring of this node. -/
def State.sparesOk (s : State) (b : List Byte) : Bool :=
  let nodes := (((List.range 16).filterMap s.ringCfg).map fun g => g.ranks.map (·.1)).flatten
  (List.range (b.length / 4)).all fun i => !(nodes.contains (bitsOf (field b (4 * i) 4) 0 14))

/-- A window entry of this number, under whatever job, lets a borrower read and write (R243). -/
def State.lendsAt (s : State) (win : Nat) : Bool :=
  (List.range 16).any fun b =>
    let k := s.adirBank b
    k.cls == 1 && k.entries.any fun e => e.1 % 2 ^ 14 == win && (Win.ofUnits e.2).lent && (Win.ofUnits e.2).rd && (Win.ofUnits e.2).wr

/-- A lease record that may stand (R243, R264): its SIZE a multiple of 1 GiB; at the lender its window, at the borrower its composition
exists. -/
def State.leaseOk (s : State) (b : List Byte) : Bool :=
  let l := Lease.ofBytes b
  decide (field b 1 1 < 2) && l.size % 2 ^ 30 == 0 && if l.lender then s.lendsAt l.win else s.compExists l.comp

/-- A stream programme that may stand (R258, R264): DEPTH 1 to 16, the multiples of its places, its composition and its queue. -/
def State.progOk (s : State) (b : List Byte) : Bool :=
  let p := Prog.ofBytes b
  decide (1 ≤ p.depth) && decide (p.depth ≤ 16) && isNpa p.selnpa && p.dbase % 64 == 0 && p.dstride % 64 == 0 && p.fbase % 8 == 0 &&
    (s.compExists p.comp && (s.comp? p.comp).any fun k =>
      decide (k.desc.qbase ≤ p.queue) && decide (p.queue < k.desc.qbase + k.desc.qcount))

/-- A lease or programme record says what its chapter allows, and names only what exists (R3, R264); an empty one names nothing. -/
def State.recordOk (s : State) (index : Nat) (b : List Byte) : Bool := b == [] || if index = 0x8030 then s.leaseOk b else s.progOk b

/-- A mask of pseudo-channels to lend names none of a composition (R242). -/
def State.lentOk (s : State) (b : List Byte) : Bool :=
  (List.range 48).all fun n =>
    !(s.cmp.comps.any fun k => k.2.st != .free && bitAt k.2.desc.slices.toNat n) || (List.range 32).all fun i => !bitmapHas b (32 * n + i)

/-- The bits of an entry's bytes that are fields of it, one mask a byte: the others are reserved and read as zero (R6). An entry that is not
listed has no reserved bits. -/
def pdFields (index n : Nat) : List Nat :=
  let all (k : Nat) : List Nat := List.replicate k 255
  match index with
  | 0x3060 => List.replicate n 0x1F
  | 0x3400 => all 5 ++ [0, 0, 0] ++ ((List.range 9).map fun _ => [0xFF, 0x3F, 0x0F, 0]).flatten ++ [0xFF, 0x3F, 0xFF, 0xFF] ++ List.replicate 16 0
  | 0x4003 => [0xFF, 0x3F, 0xFF, 0x01]
  | 0x4120 => [0xFF, 0x3F, 0xFF, 0xBF]
  | 0x5031 => [0xFF, 0x3F]
  | 0x7130 => [3]
  | 0x7100 => ((List.range (n / 4)).map fun _ => [0xFF, 0x3F, 0x0F, 0]).flatten
  | 0x8030 => [0x8F, 0xFF, 0xFF, 0x3F, 0xFF, 0x3F] ++ all 18 ++ List.replicate 8 0
  | 0x8040 => [0xFF, 0xFF, 0x8F, 0xFF, 0xFF, 0x3F, 0xFF, 0x3F, 0xFF, 0xFF, 0xFF, 0x1F, 0, 0, 0, 0] ++ all 32 ++ List.replicate 16 0
  | _ => all n

/-- A written value as the entry holds it: reserved bits are ignored (R6). -/
def pdClean (index : Nat) (b : List Byte) : List Byte :=
  List.zipWith (fun (x : Byte) m => x &&& BitVec.ofNat 8 m) b (pdFields index b.length)

/-- Whether a byte string is allowed by its owning chapter. -/
def State.allowsS (s : State) (index sub : Nat) (b : List Byte) : Bool :=
  match index with
  | 0x3060 => (List.range 16).all fun n =>
      let k := s.adirBank n
      let v := field b n 1
      (k.entries == [] && k.moves == [] && !k.lock && bitsOf v 0 2 != 3) || (bitsOf v 0 2 == k.width && bitsOf v 2 3 == k.cls)
  | 0x3400 => s.ringOk sub b
  | 0x4002 => sharesOk b
  | 0x4004 => b.all fun x => (List.range 8).all fun p =>
      !(bitAt x.toNat p) || ((s.port p).mode != 1 && (s.port p).mode != 3)
  | 0x7100 => s.sparesOk b
  | 0x8030 => s.recordOk 0x8030 b
  | 0x8031 => s.lentOk b
  | 0x7102 => (List.range (b.length / 2)).all fun i => decide (field b (2 * i) 2 < 2 ^ 14)
  | 0x8040 => s.recordOk 0x8040 b
  | _ => true

/-- A written field of a descriptor in force is checked as a commit would check it (R354); ways that another composition holds by its
PCA_WAYMASK beyond its descriptor count too (R229). -/
def State.fieldOk (s : State) (index c v : Nat) : Bool :=
  match s.comp? c with
  | none => false
  | some k =>
    if index = 0x3050 then
      let d := { k.desc with ways := BitVec.ofNat 64 v }
      d.waysOk && !(s.cmp.comps.any fun e => e.1 != c && (((e.2.waysNext.getD e.2.desc.ways) &&& d.ways) != 0)) &&
        (List.range 16).all fun n => n == c || (List.range 4).all fun q =>
          s.hbm.wantWays q n &&& quadWays d.ways q &&& ~~~(quadWays ((s.comp? n).elim 0 (·.desc.ways)) q) == 0
    else
      let others := (s.cmp.comps.filter fun e => e.1 != c).map fun e => e.2.linkNext.getD e.2.desc.link
      decide (s.rateSum c ≤ v) && decide (others.sum + v + s.pdNum 0x5003 0 ≤ 1600000)

/-- Refusals with BUSY_CONFLICT of the owning chapters. -/
def State.writeBusy (s : State) (index sub : Nat) : Bool :=
  match index with
  | 0x1001 => (List.range 16).any fun c => s.compExists c
  | 0x1002 => (List.range 16).any fun c => s.compExists c
  | 0x3050 => s.cmp.validating || s.cmp.pending
  | 0x4210 => s.cmp.validating || s.cmp.pending
  | 0x3400 => s.pg.ctxs.any fun k => k.comp == sub && k.streams.any fun x => decide (0 < x.2.npages)
  | 0x4002 => (s.port sub).st != .down
  | 0x4301 => (s.dma sub).st != .idle
  | _ => false

/-- Refusals with ACCESS_DENIED of the owning chapters: mirroring off in a cluster, a locked slope, a ring outside its composition's
memory. -/
def State.writeDenied (s : State) (index sub v : Nat) : Bool :=
  match index with
  | 0x2002 => s.pwr.lock
  | 0x3205 => v == 0 && !s.single
  | 0x7041 => !(s.ownsRange sub v (64 + 32 * s.pdNum 0x7042 sub))
  | _ => false

/-- The status that refuses a value for an entry, if one does (R507). -/
def State.writeRefusal (s : State) (e : PdEntry) (sub : Nat) (b : List Byte) : Option Status :=
  let v := leNat b
  if !e.lengthOk b.length then some .unsupported
  else if !e.typ.isBytes && !(e.valueOk v) then some .unsupported
  else if s.writeDenied e.index sub v then some .accessDenied
  else if e.typ.isBytes && !(s.allowsS e.index sub b) then some .unsupported
  else if e.index == 0x8040 && b != [] && (Prog.ofBytes b).enable && !(s.progAllowed (Prog.ofBytes b)) then some .accessDenied
  else if !e.typ.isBytes && !(s.allowsA e.index sub v && s.allowsB e.index sub v && s.allowsC e.index sub v) then some .unsupported
  else if s.writeBusy e.index sub then some .busyConflict
  else if (e.index == 0x3050 || e.index == 0x4210) && !(s.fieldOk e.index sub v) then some .unsupported
  else if e.stored && !s.sec.up then some .busyConflict
  else none

/-! ### Effects of a write (R494, R495) -/

/-- Every bank of the associative directory takes its byte of PD 0x3060.01 (R221). -/
def State.setBanks (s : State) (b : List Byte) : State :=
  (List.range 16).foldl (fun (s : State) n =>
    let v := field b n 1
    s.setBank n { s.adirBank n with width := bitsOf v 0 2, cls := bitsOf v 2 3 }) s

/-- What a value written to an entry does beside standing in the Directory. -/
def State.writeEffect (s : State) (index sub : Nat) (b : List Byte) : State :=
  let v := leNat b
  match index with
  | 0x2002 => { s with pwr := { s.pwr with slewNext := some v } }
  | 0x3060 => s.setBanks b
  | 0x3211 => s.setComp sub fun k => { k with packNext := if s.packing sub == (v == 1) then none else some (v == 1) }
  | 0x3302 => s.setMargin sub { s.margin sub with want := some v }
  | 0x4001 => s.setPort sub { s.port sub with modeNext := some v }
  | 0x8030 => { s with tier := { s.tier with ending := s.tier.ending.filter (· != sub), released := s.tier.released.filter (· != sub) } }
  | 0x8040 => { s with tier := { s.tier with stopped := s.tier.stopped.filter (· != sub) } }
  | _ => s

/-- A value is written to an entry that is no command (R354, R355, R368, R379, R495). -/
def State.pdPut (s : State) (e : PdEntry) (sub : Nat) (b : List Byte) : State :=
  let v := leNat b
  if e.index = 0x5010 then { s with cmp := { s.cmp with pend := put s.cmp.pend sub (CompDesc.ofBytes b) } }
  else if e.index = 0x3050 then s.setComp sub fun k => { k with waysNext := some (BitVec.ofNat 64 v) }
  else if e.index = 0x4210 then s.setComp sub fun k => { k with linkNext := some v }
  else if 0x5100 ≤ e.index ∧ e.index ≤ 0x510F then
    let i := (e.index - 0x5100) * 256 + sub
    let fwd := match Fwd.ofBytes b with
      | some f => put s.pg.fwd i f
      | none => drop s.pg.fwd i
    { s with pg := { s.pg with fwd } }.unsaved e.index sub
  else if e.index = 0x6001 then
    if s.sec.life == (v == 1) then s else s.lifeChange (v == 1)
  else
    let b := pdClean e.index b
    let s := (s.writeEffect e.index sub b).pdSet e.index sub b
    let s := if e.index = 0x7020 then s.clampAll else s
    let s := if 0x4002 ≤ e.index ∧ e.index ≤ 0x4004 ∨ e.index = 0x4120 then s.noteAll else s
    if e.stored then s.unsaved e.index sub else s

/-- The default of an entry is written, and a Stored entry leaves the signed configuration (R501). -/
def State.pdReset (s : State) (e : PdEntry) (sub : Nat) : State :=
  let s := s.pdPut e sub (pdDefault e.index sub)
  let other (k : Nat × Nat) : Bool := !(k.1 == e.index && k.2 == sub)
  { s with pd := { s.pd with vals := s.pd.vals.filter fun v => other (v.1, v.2.1), stored := s.pd.stored.filter fun v => other (v.1, v.2.1),
                             unsaved := s.pd.unsaved.filter other } }

/-- The maintenance command of R439. -/
def State.maintain (s : State) (b : List Byte) : State :=
  if field b 0 1 = 1 then goesOn s (execMaintenanceStart s.timer (field b 1 1) (field b 4 2) (field b 8 8) s)
  else if field b 0 1 = 2 then goesOn s (execMaintenanceStop s.timer (field b 1 1) (field b 4 2) s)
  else { s with rel := { s.rel with mstatus := .unsupported, mAct := 0, mInst := 0 } }

/-- The admission command of R430. -/
def State.admissionCmd (s : State) (b : List Byte) : State :=
  let snode := bitsOf (field b 2 2) 0 14
  let scomp := bitsOf (field b 4 1) 0 4
  let lcomp := bitsOf (field b 4 1) 4 4
  if field b 0 1 = 1 then goesOn s (execShadow s.timer (field b 1 1) snode scomp lcomp s)
  else if field b 0 1 = 2 then goesOn s (execLoad s.timer (field b 1 1) snode scomp lcomp s)
  else { s with rel := { s.rel with astatus := .unsupported } }

/-- A command entry is written: its action starts (R494, R509). -/
def State.pdCommand (s : State) (index sub : Nat) (b : List Byte) : Status × State :=
  let v := leNat b
  match index with
  | 0x1006 => (.ok, s.powerDown)
  | 0x5001 =>
    let st : Status := if s.pwr.idle ∨ s.pwr.off then .busyConflict else .ok
    (st, goesOn s (execCommit s.timer (v % 2 ^ 36) s))
  | 0x5006 => (.ok, if v = 1 then goesOn s (execForceTeardown s.timer sub s) else s)
  | 0x5030 =>
    (.ok, goesOn s (execHandoff s.timer (field b 0 4) (bitsOf (field b 4 4) 0 20) (bitAt (field b 4 4) 31) (field b 8 4) (field b 12 4)
      (bitsOf (field b 16 2) 0 14) (bitsOf (field b 18 2) 0 13) (bitAt (field b 20 1) 0) s))
  | 0x7005 => s.jobStart (BitVec.ofNat 16 (field b 0 2)) (field b 4 3) (bitsOf (field b 8 8) 0 36)
  | 0x7120 => (.ok, s.admissionCmd b)
  | 0xA100 => (.ok, s.maintain b)
  | _ => (.ok, s)

/-! ### Items (R500 to R503, R507) -/

/-- A staging copy that has not timed out. -/
def State.stagingOf (s : State) (index sub : Nat) : Option Staging :=
  s.pd.staging.find? fun g => g.index == index && g.sub == sub && decide (s.timer < g.since + 1000 * ms)

/-- Forget the staging copy of an entry. -/
def State.unstage (s : State) (index sub : Nat) : State :=
  { s with pd := { s.pd with staging := s.pd.staging.filter fun g => !(g.index == index && g.sub == sub) } }

/-- Write bytes into a byte string at an offset, zero before its end. -/
def splice (b : List Byte) (off : Nat) (x : List Byte) : List Byte :=
  padTo off b ++ x ++ b.drop (off + x.length)

/-- An item refused for want of access, which is counted (R507). -/
def State.denied (s : State) (i : PdItem) (typ : Nat) : Answer × State :=
  (⟨i.index, i.sub, .accessDenied, typ, []⟩, s.count 0x1030 1)

/-- A whole value reaches an entry: refused, or written, or the command started. -/
def State.pdTake (s : State) (e : PdEntry) (sub : Nat) (b : List Byte) : Status × State :=
  match s.writeRefusal e sub b with
  | some st => (st, s)
  | none => if e.op == .wo then s.pdCommand e.index sub b else (.ok, s.pdPut e sub b)

/-- WRITE (R501 to R503). -/
def State.pdWrite (s : State) (owner : Nat) (last : Bool) (e : PdEntry) (i : PdItem) : Answer × State :=
  let say (st : Status) (s : State) : Answer × State := (⟨i.index, i.sub, st, e.typ.code, []⟩, s)
  let held := s.stagingOf i.index i.sub
  if (e.op == .wo && !last) || (i.seg && !e.typ.isBytes) || i.value.length != i.len then say .unsupported s
  else if !i.seg then
    if held.isSome then say .busyConflict s
    else let r := s.pdTake e i.sub i.value; say r.1 r.2
  else if e.maxLen < i.offset + i.len then say .unsupported s
  else if held.any fun g => g.owner != owner then say .busyConflict s
  else if e.stored && !s.sec.up then say .busyConflict s
  else
    let g : Staging := held.getD { index := i.index, sub := i.sub, data := [], len := 0, since := s.timer, owner }
    let g : Staging := { g with data := splice g.data i.offset i.value, len := max g.len (i.offset + i.len) }
    let s := s.unstage i.index i.sub
    if i.last then let r := s.pdTake e i.sub (padTo g.len g.data); say r.1 r.2
    else say .ok { s with pd := { s.pd with staging := g :: s.pd.staging } }

/-- DEFAULT (R501): a command entry has none. -/
def State.pdDefaultItem (s : State) (e : PdEntry) (i : PdItem) : Answer × State :=
  let say (st : Status) (s : State) : Answer × State := (⟨i.index, i.sub, st, e.typ.code, []⟩, s)
  if e.op == .wo then say .unsupported s
  else if (s.stagingOf i.index i.sub).isSome then say .busyConflict s
  else match s.writeRefusal e i.sub (pdDefault e.index i.sub) with
    | some st => if e.index == 0x7041 && st == .accessDenied then say .ok (s.pdReset e i.sub) else say st s
    | none => say .ok (s.pdReset e i.sub)

/-- The definition of an entry (R501). -/
def PdEntry.describe (e : PdEntry) (sub : Nat) : List Byte :=
  leBytes 1 e.typ.code ++ leBytes 1 e.op.code ++ leBytes 1 e.cm.code ++ leBytes 1 e.pb.code ++ leBytes 1 (flagAt e.stored 0) ++ [0]
    ++ leBytes 2 e.maxLen ++ pdDefault e.index sub

/-- The first entry after an index and subindex that a principal can read or write (R501). -/
def nextEntry (p : Principal) (index sub : Nat) : Option (Nat × Nat) :=
  pdTable.findSome? fun e =>
    if e.index < index then none
    else ((List.range (e.hi + 1 - e.lo)).map (e.lo + ·)).findSome? fun n =>
      if (index < e.index ∨ sub < n) ∧ e.access p n ≠ .no then some (e.index, n) else none

/-- NEXT (R501). -/
def nextItem (p : Principal) (i : PdItem) : Answer :=
  match nextEntry p i.index i.sub with
  | some (a, b) => ⟨a, b, .ok, 0, []⟩
  | none => ⟨i.index, i.sub, .unsupported, 0, []⟩

/-- Serve one item (R500 to R503, R507), with the room left for its value. -/
def State.serve (s : State) (p : Principal) (owner room : Nat) (last : Bool) (i : PdItem) : Answer × State :=
  if i.iop = 4 then (nextItem p i, s)
  else match pdFind i.index i.sub with
    | none =>
      if 0xF000 ≤ i.index ∧ s.sec.life then s.denied i 0 else (⟨i.index, i.sub, .unsupported, 0, []⟩, s)
    | some e =>
      let a := e.access p i.sub
      let say (b : List Byte) : Answer × State := (⟨i.index, i.sub, .ok, e.typ.code, b.take room⟩, s)
      match i.iop with
      | 1 =>
        if !a.reads then s.denied i e.typ.code
        else
          let v := s.pdValue p e i.sub
          let v := if i.seg then v.drop i.offset else v
          say (if i.len = 0 then v else v.take i.len)
      | 2 => if !a.writes then s.denied i e.typ.code else s.pdWrite owner last e i
      | 3 =>
        if a == .no then s.denied i e.typ.code
        else say (e.describe i.sub)
      | 5 => if !a.writes then s.denied i e.typ.code else s.pdDefaultItem e i
      | _ => (⟨i.index, i.sub, .unsupported, e.typ.code, []⟩, s)

/-- Serve the items of a message in order (R502): each value has the room that the headers of the items to come leave. -/
def State.serveAll (s : State) (p : Principal) (owner : Nat) : List PdItem → Nat → List Answer × State
  | [], _ => ([], s)
  | i :: rest, room =>
    let (a, s) := s.serve p owner ((room - 8 * (rest.length + 1)) / 4 * 4) (rest.length == 0) i
    let (l, s) := s.serveAll p owner rest (room - 8 - (a.value.length + 3) / 4 * 4)
    (a :: l, s)

/-- A response item's bytes (R500). -/
def Answer.toBytes (a : Answer) : List Byte :=
  leBytes 2 a.index ++ leBytes 1 a.sub ++ leBytes 1 a.st.code ++ leBytes 2 a.typ ++ leBytes 2 a.value.length ++ padMul 4 a.value

/-- The bytes of a response (R499), with 32 bytes in the place of an AUTH that the model does not compute (log entry 4). -/
def responseBytes (m : PdMsg) (st : Status) (l : List Answer) : List Byte :=
  let items := (l.map Answer.toBytes).flatten
  leBytes 1 1 ++ leBytes 1 2 ++ leBytes 1 l.length ++ leBytes 1 (flagAt m.authf 0) ++ leBytes 4 m.seq.toNat ++ leBytes 2 items.length
    ++ leBytes 2 m.kgen.toNat ++ leBytes 1 st.code ++ [0, 0, 0] ++ items ++ (if m.authf then List.replicate 32 0 else [])

/-! ### Messages (R497, R499, R504 to R506) -/

/-- Where a message's principal comes from: none for a message that is discarded or passed over in silence, and whether it is
counted; a message answered with a status alone; or a principal, and whether its request is authenticated. -/
inductive Standing where
  | silent
  | discard
  | refuse (st : Status)
  | as_ (p : Principal) (auth : Bool)
  deriving DecidableEq, Repr

/-- Whether the shape of a message is good (R506). -/
def shapeOk (m : PdMsg) : Bool :=
  m.ver == 1 && m.dir == 1 && decide (1 ≤ m.nitem) && decide (m.nitem ≤ 32) && m.plenOk && m.items.length == m.nitem && decide (m.bytes ≤ 1280)

/-- Whether the node's management logic runs at all: powered, out of reset, with its clocks. -/
def State.alive (s : State) : Bool :=
  s.boot.powered && !s.boot.perst && !s.boot.testen && s.boot.coreClk && !s.pwr.trip && !s.boot.dead

/-- The standing of a message on a virtual function's DOE (R378, R497, R510). -/
def State.doeStanding (s : State) (vf : Nat) (m : PdMsg) : Standing :=
  match s.vfComp vf with
  | none => .refuse .accessDenied
  | some c =>
    if !s.compServes c then .refuse .accessDenied
    else if s.sealedHost c then
      if !m.authf then .refuse .accessDenied
      else if !m.authOk ∨ !s.genOk (s.jobOf c) m.kgen then .discard
      else .as_ (.composition c) true
    else .as_ (.composition c) false

/-- The standing of a message (R497, R506). One in band (R274, R276), for which R497 has no row, stands as one on management Ethernet does (PRESUMED,
log entry 179). -/
def State.standing (s : State) (tr : Transport) (m : PdMsg) : Standing :=
  match tr with
  | .ethernet | .fabric _ =>
    if m.authf then
      if !(shapeOk m) then .refuse .unsupported
      else if m.authOk ∧ s.genOk 0 m.kgen then .as_ .operator true else .discard
    else if !(bitAt (s.pdNum 0x1021 0) 0) then .discard
    else if !(shapeOk m) then .refuse .unsupported else .as_ .pub false
  | .mctpPcie => if !(shapeOk m) then .refuse .unsupported else .as_ .operator false
  | .mctpSmbus =>
    if !(shapeOk m) then .refuse .unsupported
    else .as_ (if bitAt (s.pdNum 0x1021 0) 1 then .pub else .operator) false
  | .pfMailbox => if !(shapeOk m) then .refuse .unsupported else .as_ .operator false
  | .vfDoe vf => if !(shapeOk m) then .refuse .unsupported else s.doeStanding vf m

/-- Public requests of one source in an interval of 1 s, counted from reset (R506): whether this one is served. -/
def State.publicRate (s : State) (tr : Transport) (src : Nat) : Bool × State :=
  let key := 64 * src + transportCode tr
  let iv := (s.timer - s.boot.t0) / (1000 * ms)
  let n := match s.pd.served.find? fun x => x.1 == key && x.2.1 == iv with
    | some x => x.2.2
    | none => 0
  if 100 ≤ n then (false, s.count 0x1030 3)
  else (true, { s with pd := { s.pd with served := (key, iv, n + 1) :: s.pd.served.filter fun x => x.1 != key && x.2.1 == iv } })

/-- A response leaves by its transport: through the PF mailbox it stands in HIF_PD_BUF (R508); in band it goes into the outbound management ring, or
where that is full is dropped and counted (R276). -/
def State.pdRespond (s : State) (tr : Transport) (m : PdMsg) (st : Status) (l : List Answer) : State :=
  match tr with
  | .pfMailbox =>
    let b := responseBytes m st l
    { s with pd := { s.pd with buf := b ++ s.pd.buf.drop b.length, done := true, len := b.length } }
  | .fabric node =>
    if s.lnk.mgmtOut.length < mgmtMost then (s.emit (.pd tr st m.seq l)).mgmtSend node (responseBytes m st l) else s.count 0x4019 0
  | _ => s.emit (.pd tr st m.seq l)

/-- Serve the items of a message and send its response, which an authenticated request's sequence keeps (R505). -/
def State.pdAnswer (s : State) (tr : Transport) (p : Principal) (auth : Bool) (m : PdMsg) : State :=
  let owner := principalCode p * 64 + transportCode tr
  let room := 1280 - 16 - (if m.authf then 32 else 0)
  let (l, s) := s.serveAll p owner m.items room
  let s : State := if !auth then s else
    let rest := s.pd.seqs.filter fun x => !(x.who == principalCode p && x.tr == transportCode tr)
    { s with pd := { s.pd with seqs := ⟨principalCode p, transportCode tr, m.seq, .ok, l⟩ :: rest } }
  s.pdRespond tr m .ok l

/-- A message whose principal is known (R505, R506). -/
def State.handle (s : State) (tr : Transport) (p : Principal) (auth : Bool) (m : PdMsg) : State :=
  if auth then
    match s.pd.seqs.find? fun x => x.who == principalCode p && x.tr == transportCode tr with
    | none => s.pdAnswer tr p true m
    | some x =>
      if x.seq = m.seq then s.pdRespond tr m x.st x.items
      else if seqEarlier x.seq m.seq then s.pdAnswer tr p true m
      else s.count 0x1030 2
  else if p = .pub then
    let (go, s) := s.publicRate tr m.src
    if go then s.pdAnswer tr p false m else s
  else s.pdAnswer tr p false m

/-- A message of the Directory protocol arrives (R497, R506, R517). -/
def State.pdMessage (s : State) (tr : Transport) (m : PdMsg) : State :=
  let doe := match tr with | .vfDoe _ => true | _ => false
  let s := match tr with | .fabric _ => s.mgmtTake | _ => s
  if !s.alive || (doe && !s.sec.up) then s
  else if !s.boot.ready then s.pdRespond tr m .notReady []
  else match s.standing tr m with
    | .silent => s
    | .discard => s.count 0x1030 2
    | .refuse st => s.pdRespond tr m st []
    | .as_ p auth => s.handle tr p auth m

/-- PDP_MESSAGE (R497 to R507). -/
def execPdpMessage (t : Nat) (tr : Transport) (m : PdMsg) (s : State) : Res := .next ((s.arrive t).pdMessage tr m)

/-! ### The PF mailbox (R508) -/

/-- The items that bytes hold, when they hold whole items and nothing else (R500). -/
def parseItems : Nat → List Byte → Option (List PdItem)
  | _, [] => some []
  | 0, _ :: _ => none
  | n + 1, b =>
    if b.length < 8 then none
    else
      let f := field b 3 1
      let len := field b 6 2
      let iop := bitsOf f 0 3
      let body := if iop = 2 then (len + 3) / 4 * 4 else 0
      if b.length < 8 + body then none
      else
        let i : PdItem := { index := field b 0 2, sub := field b 2 1, iop, seg := bitAt f 3, last := bitAt f 4, offset := field b 4 2, len,
                            value := if iop = 2 then (b.drop 8).take len else [] }
        (parseItems n (b.drop (8 + body))).map (i :: ·)

/-- The message that a buffer holds (R499). -/
def parseMsg (b : List Byte) : PdMsg :=
  let plen := field b 8 2
  let items := parseItems 200 (padTo plen (b.drop 16))
  let authf := bitAt (field b 3 1) 0
  { ver := bitsOf (field b 0 1) 0 4, dir := field b 1 1, nitem := field b 2 1, authf, seq := BitVec.ofNat 32 (field b 4 4),
    kgen := BitVec.ofNat 16 (field b 10 2), bytes := 16 + plen + (if authf then 32 else 0), plenOk := items.isSome, authOk := false, src := 0,
    items := items.getD [] }

/-- PD_MAILBOX_GO (R508): the message in HIF_PD_BUF is submitted; its response takes its place, and DONE is set. -/
def execPdMailboxGo (t : Nat) (m : PdMsg) (s : State) : Res := .next ((s.arrive t).pdMessage .pfMailbox m)

/-! ### Single operations (R501) -/

/-- One operation of a principal, as the last item of a message of its own, with no transport in particular; before READY nothing is
served (R517). -/
def State.pdOne (s : State) (p : Principal) (iop : Nat) (i : PdItem) : State :=
  if !s.alive then s
  else if !s.boot.ready then s.emit (.pdItem p ⟨i.index, i.sub, .notReady, 0, []⟩)
  else
    let (a, s) := s.serve p (principalCode p * 64 + 63) 1256 true { i with iop }
    s.emit (.pdItem p a)

/-- PD_READ. -/
def execPdRead (t : Nat) (p : Principal) (i : PdItem) (s : State) : Res := .next ((s.arrive t).pdOne p 1 i)

/-- PD_WRITE. -/
def execPdWrite (t : Nat) (p : Principal) (i : PdItem) (s : State) : Res := .next ((s.arrive t).pdOne p 2 i)

/-- PD_DESCRIBE. -/
def execPdDescribe (t : Nat) (p : Principal) (i : PdItem) (s : State) : Res := .next ((s.arrive t).pdOne p 3 i)

/-- PD_NEXT. -/
def execPdNext (t : Nat) (p : Principal) (i : PdItem) (s : State) : Res := .next ((s.arrive t).pdOne p 4 i)

/-- PD_DEFAULT. -/
def execPdDefault (t : Nat) (p : Principal) (i : PdItem) (s : State) : Res := .next ((s.arrive t).pdOne p 5 i)

/-- PD_STAGING_TIMEOUT (R503): 1 s has passed since the first segment. -/
def execPdStagingTimeout (t index sub : Nat) (s : State) : Res :=
  let s := s.arrive t
  .next { s with pd := { s.pd with staging := s.pd.staging.filter fun g =>
    !(g.index == index && g.sub == sub && decide (g.since + 1000 * ms ≤ s.timer)) } }

/-! ### The management port's own addresses (R498) -/

/-- The number that big-endian bytes spell. -/
def beNat (b : List Byte) : Nat := leNat b.reverse

/-- The IPv4 address in effect; 0.0.0.0 is none. -/
def State.ip4 (s : State) : Nat := beNat (s.boot.ip4.take 4)

/-- The link-local IPv6 address made of the MAC (R498): the interface identifier of its modified EUI-64. -/
def linkLocal (mac : List Byte) : Nat :=
  let m := padTo 6 mac
  let head : List Byte := match m with
    | a :: rest => (a ^^^ 2) :: rest.take 2
    | [] => []
  beNat ([0xFE, 0x80, 0, 0, 0, 0, 0, 0] ++ head ++ [0xFF, 0xFE] ++ m.drop 3)

/-- Whether an address is one of the port's own. -/
def State.ownAddress (s : State) (v6 : Bool) (ip : Nat) : Bool :=
  if v6 then ip == linkLocal s.boot.mac || (ip != 0 && ip == beNat (s.boot.ip6.take 16)) else ip != 0 && ip == s.ip4

/-- Whether the management port answers: its addresses have been loaded with the Stored entries. -/
def State.portAnswers (s : State) : Bool := s.alive && decide (2 ≤ s.boot.stage)

/-- ARP_REQUEST: answered with the MAC for the port's own address. -/
def execArpRequest (t ip : Nat) (s : State) : Res :=
  let s := s.arrive t
  .next (if s.portAnswers && s.ownAddress false ip then s.emit (.net 1 s.boot.mac) else s)

/-- NEIGHBOUR_SOLICITATION: answered with the MAC for the port's own address. -/
def execNeighbourSolicitation (t ip : Nat) (s : State) : Res :=
  let s := s.arrive t
  .next (if s.portAnswers && s.ownAddress true ip then s.emit (.net 2 s.boot.mac) else s)

/-- ECHO_REQUEST, ICMP or ICMPv6: answered with the data it carried. -/
def execEchoRequest (t ip : Nat) (v6 : Bool) (data : List Byte) (s : State) : Res :=
  let s := s.arrive t
  .next (if s.portAnswers && s.ownAddress v6 ip then s.emit (.net (if v6 then 4 else 3) data) else s)

end Sys2Proof.Machine
end

