-- ==== Sys2Proof/Machine/Regs.lean ====
section
/-! DEFINITION. The registers of the physical function and of the virtual functions as software reads and writes them (R469 to R471): the
value of each slot, and the writes that have no row of their own. -/

namespace Sys2Proof.Machine

/-! ### Where a register lies (R469, R471) -/

/-- The register blocks (R469). -/
inductive RegBlock where
  | hif | phs | sch | hbm | adir | tier | lnk | rmo | egq | dma | sec | pwr | msix | mbx | hint | none
  deriving DecidableEq, Repr

/-- The block that an offset of a function's register region lies in, and the offset within it. -/
def blockOf (fn off : Nat) : RegBlock × Nat :=
  if fn = 0 then
    let o := off % 0x100000
    match off / 0x100000 with
    | 0x0 => (.hif, o)
    | 0x1 => (.phs, o)
    | 0x2 => (.sch, o)
    | 0x3 => (.hbm, o)
    | 0x4 => (.adir, o)
    | 0x5 => (.tier, o)
    | 0x6 => (.lnk, o)
    | 0x7 => (.rmo, o)
    | 0x8 => (.egq, o)
    | 0x9 => (.dma, o)
    | 0xA => (.sec, o)
    | 0xB => (.pwr, o)
    | 0xF => (.msix, o)
    | _ => (.none, o)
  else if off < 0x1000 then (.hif, off)
  else if off < 0x3000 then (.mbx, off - 0x1000)
  else if 0x10000 ≤ off ∧ off < 0x20000 then (.rmo, off - 0x10000)
  else if 0x20000 ≤ off ∧ off < 0x28000 then (.dma, off - 0x20000)
  else if off / 8 = 0x6000 then (.hint, 0)
  else if 0xF0000 ≤ off ∧ off < 0x100000 then (.msix, off - 0xF0000)
  else (.none, off)

/-- Whether the block answers as defined before READY (R517). -/
def RegBlock.early : RegBlock → Bool
  | .hif | .mbx | .sec | .pwr => true
  | _ => false

/-- Whether the slot at an offset of a block holds a register of 64 bits. -/
def wideSlot (fn : Nat) (b : RegBlock) (o : Nat) : Bool :=
  match b with
  | .hif => if fn = 0 then o == 8 else o == 0 || o == 0x20
  | .rmo => o == 0 || o == 8 || o == 0x10 || o == 0x38
  | .egq => o == 8 || o == 0x10
  | .dma => o % 0x100 != 0x28
  | .mbx => true
  | _ => false

/-! ### Values (R7, R490 and the owning chapters) -/

/-- A bit string of 64 bits. -/
def w64 (n : Nat) : BitVec 64 := BitVec.ofNat 64 n

/-- The Phase block's registers (R41). PHS_RATE counts in units of 1/16 ppm. -/
def State.phsWord (s : State) (o : Nat) : Nat :=
  let p := s.phs
  match o with
  | 0x00 => flagAt p.en 0 + fieldAt p.src 2 1 + flagAt p.jchk 3 + flagAt p.lock 31
  | 0x08 => s.phase.toNat % 2 ^ 32
  | 0x10 => p.nowHi.toNat
  | 0x28 => flagAt p.sync 0 + flagAt p.master 1 + flagAt p.late 2 + flagAt p.gap 3 + flagAt p.jitter 4 + flagAt p.tbfault 5
      + flagAt p.badmark 6 + flagAt p.held 7 + fieldAt p.term.toNat 16 16
  | 0x30 =>
    let x : Rat := (p.rate - 1) * 16000000
    let n := if x = x.floor then x.floor else if Config.rateUp x then x.floor + 1 else x.floor
    (BitVec.ofInt 24 n).toNat
  | _ => 0

/-- The schedule block's registers (R49). -/
def State.schWord (s : State) (o : Nat) : Nat :=
  let c := s.sch
  match o with
  | 0x00 => flagAt c.en 0 + fieldAt c.bank 1 1
  | 0x08 => fieldAt c.count 13 0
  | 0x10 => c.stepLo.toNat
  | 0x18 => fieldAt c.stepHi 4 0
  | 0x20 => flagAt c.validating 0 + flagAt c.pending 1 + flagAt c.wign 2 + fieldAt c.err 8 8 + fieldAt c.errEntry 12 16
  | 0x28 => fieldAt c.bringHead 16 0
  | 0x30 => fieldAt c.bringTail 16 0
  | _ => 0

/-- NMU_GOV_s and NMU_STAT_s (R214, R217). -/
def State.nmuWord (s : State) (k : Nat) (stat : Bool) : Nat :=
  let g := s.gov k
  let n := s.nmuActive k
  if 8 ≤ k then 0
  else if stat then fieldAt n.1 4 0 + fieldAt n.2 7 8 + flagAt g.deny 16 + flagAt g.abort 17
  else fieldAt g.maxnmu 4 0 + fieldAt g.maxbank 7 8 + flagAt g.lock 31

/-- The memory block's registers (R209, R212, R214, R217, R219). A mask reads as last written. -/
def State.hbmWord (s : State) (o : Nat) : Nat :=
  let h := s.hbm
  if o = 0x00 then flagAt h.refRate 0 + flagAt h.force2x 1 + flagAt h.refPend 2 + flagAt h.refLock 31
  else if o = 0x08 then flagAt h.eccValid 0 + fieldAt h.eccPort 6 1
  else if o = 0x10 then fieldAt (h.eccNpa / 2 ^ 32) 20 0
  else if 0x100 ≤ o ∧ o < 0x200 then s.nmuWord ((o - 0x100) / 8) false
  else if 0x200 ≤ o ∧ o < 0x300 then s.nmuWord ((o - 0x200) / 8) true
  else if 0x1000 ≤ o ∧ o < 0x1400 then
    let q := (o - 0x1000) / 0x100
    let c := o % 0x100 / 8
    if 16 ≤ c then 0 else (h.wantWays q c).toNat + flagAt (h.wayErr.contains (16 * q + c)) 31
  else 0

/-- The associative directory's registers (R221, R227). -/
def State.adirWord (s : State) (o : Nat) : Nat :=
  if o = 0 then
    flagAt s.hbm.adirEn 0 + fieldAt s.hbm.adirStep 2 1 + fieldAt s.hbm.adirFloor 2 3
      + flagAt ((List.range 16).any fun b => (s.adirBank b).moves != []) 5
  else if 0x100 ≤ o ∧ o < 0x180 then
    let k := s.adirBank ((o - 0x100) / 8)
    fieldAt k.width 2 0 + fieldAt k.cls 3 2 + fieldAt k.entries.length 13 16 + flagAt k.lock 31
  else 0

/-- FLC_STAT_n (R263). -/
def State.flcWord (s : State) (n : Nat) : Nat :=
  let f := s.flash n
  flagAt f.up 0 + fieldAt f.targets 4 1 + flagAt f.refused 5 + flagAt f.owner.isSome 6 + fieldAt (f.owner.getD 0) 4 8 + flagAt f.err 12
    + flagAt f.failed 13 + fieldAt (min f.wear 255) 8 16 + fieldAt f.spare 8 24

/-- The code of a port's state (R291). -/
def PortState.code : PortState → Nat
  | .down => 0 | .training => 1 | .up => 2 | .retrain => 3 | .fallow => 4 | .failed => 5

/-- The registers of a port (R291). -/
def State.lnkWord (s : State) (o : Nat) : Nat :=
  let x := s.port (o / 0x100)
  if 0x800 ≤ o then 0
  else match o % 0x100 with
    | 0x00 => flagAt x.en 0 + fieldAt x.mode 2 1 + flagAt x.fallowOk 3 + flagAt x.loop 5 + flagAt x.lock 31
    | 0x08 => x.st.code + fieldAt x.lanes 2 3 + fieldAt x.peer 14 5 + flagAt x.peerv 19 + flagAt x.degraded 20 + flagAt x.uncorr 21
        + flagAt x.replaylim 22
    | 0x10 => fieldAt x.fmode 2 0 + flagAt x.fsev 2 + fieldAt x.fdepth 4 3 + fieldAt x.fvlmask.toNat 8 8 + flagAt (x.fmode != 0 && s.pdBool 0xA010 0) 31
    | 0x18 => x.frate.toNat
    | 0x20 => x.fseed.toNat
    | _ => 0

/-- The window and connection registers of a function (R300, R305, R328). OPEN of RMO_WVAL3 shows the entry of the last command.
RMO_CVAL reads by the side of RMO_CCMD: the receive side has no bits [31:29] (R6, R305). -/
def State.rmoWord (s : State) (fn o : Nat) : Nat :=
  let r := s.wregs fn
  match o with
  | 0x00 => r.v1.toNat
  | 0x08 => fieldAt r.v2.toNat 48 0 + fieldAt r.wgen.toNat 16 48
  | 0x10 => r.v3.toNat + flagAt (decide (r.op ≠ 0) && (s.win? r.job r.win).elim false (·.isOpen)) 13
  | 0x18 => r.wjob.toNat
  | 0x20 => fieldAt r.win 14 3 + flagAt r.busy 28 + flagAt r.drained 29 + flagAt r.ign 30
  | 0x28 => r.status.code + fieldAt r.wgen.toNat 16 16
  | 0x30 => fieldAt r.cidx 16 0 + flagAt r.cside 16 + fieldAt r.cstat.code 8 24
  | 0x38 => if r.cside then r.cval.toNat else r.cval.toNat &&& 0x80FFFFFF1FFF3FFF
  | 0x40 => if fn = 0 then s.rmo.evHead else 0
  | 0x48 => if fn = 0 then s.rmo.evTail else 0
  | _ => 0

/-- The egress registers (R342). -/
def State.egqWord (s : State) (o : Nat) : Nat :=
  match o with
  | 0x00 => fieldAt s.egq.cmdQ 13 0 + fieldAt s.egq.cmdStat.code 8 24
  | 0x08 => s.egq.cfg.toNat
  | 0x10 => s.egq.stat.toNat
  | _ => 0

/-- The code of a channel's state (R347). -/
def DmaState.code : DmaState → Nat
  | .idle => 0 | .armed => 1 | .running => 2 | .done => 3 | .halted => 4 | .aborting => 5

/-- The registers of a DMA channel (R347); those of a channel that the function does not own read zero (R343, R471). -/
def State.dmaWord (s : State) (fn o : Nat) : Nat :=
  let ch := o / 0x100
  let d := s.dma ch
  if !s.dmaOwns fn ch then 0
  else match o % 0x100 with
    | 0x00 => fieldAt d.srcA 52 0
    | 0x08 => fieldAt d.dstA 52 0
    | 0x10 => fieldAt d.count 41 0
    | 0x18 => d.ctlWord.toNat
    | 0x20 => d.tphase.toNat
    | 0x28 => d.st.code + flagAt d.dir 3 + fieldAt d.status.code 8 8 + flagAt d.done 16 + flagAt d.halt 17 + flagAt d.triglost 18
        + flagAt d.refused 19
    | 0x30 => fieldAt d.progress 41 0
    | 0x38 => fieldAt d.errAddr 52 0 + flagAt d.errRem 63
    | _ => 0

/-- The Security Core's registers (R379). -/
def State.secWord (s : State) (o : Nat) : Nat :=
  let c := s.sec
  match o with
  | 0x00 => flagAt c.life 0 + flagAt c.pend.isSome 1 + fieldAt c.boot 2 2 + flagAt c.up 4 + flagAt c.zero 5 + fieldAt (min c.resets 65535) 16 16
  | 0x08 => flagAt c.tappriv 0 + flagAt c.memdbg 1
  | _ => 0

/-- The power block's registers (R464). -/
def State.pwrWord (s : State) (o : Nat) : Nat :=
  let p := s.pwr
  match o with
  | 0x00 => flagAt p.idle 1 + flagAt p.lock 31
  | 0x08 => fieldAt p.stage 3 0 + flagAt p.warn 3 + flagAt ((List.range 7).any fun n => decide (1 ≤ n) && s.sagTrigger n) 4 + flagAt p.cap 5 + flagAt s.halfClock 6 + fieldAt p.throt 2 7
      + flagAt p.held 9 + flagAt p.offok 10 + fieldAt p.stagehi 3 16
  | 0x10 => fieldAt (p.slewNext.getD p.slew) 9 0 + flagAt p.ballast 9
  | _ => 0

/-- The PF's host-interface registers (R490, R508, R516). A Directory request is served at once, so BUSY reads 0. -/
def State.hifWord (s : State) (o : Nat) : Nat :=
  let h := s.hif
  let b := s.boot
  match o with
  | 0x00 => fieldAt h.rate 3 0 + fieldAt h.width 5 3 + flagAt h.flit 8 + flagAt h.ide 9 + flagAt h.single 10 + flagAt h.markerr 11
  | 0x08 => fieldAt h.step 36 0 + flagAt h.stepV 63
  | 0x10 => flagAt s.pd.done 2 + fieldAt s.pd.len 11 16
  | 0x18 => fieldAt b.stage 4 0 + flagAt b.ready 4 + flagAt b.derive 5 + flagAt b.cfgdef 6 + flagAt b.flashbg 7 + fieldAt b.fail 4 16
      + flagAt b.hbmout 20
  | _ => if 0x1000 ≤ o ∧ o < 0x1500 then leNat ((padTo 1280 s.pd.buf).drop (o - 0x1000) |>.take 8) else 0

/-- A virtual function's host-interface registers (R490). -/
def State.vfWord (s : State) (n o : Nat) : Nat :=
  let v := s.vf n
  match o with
  | 0x00 => v.base.toNat
  | 0x08 => flagAt v.en 0 + fieldAt v.lsize 4 1
  | 0x18 => fieldAt v.head 8 0 + flagAt v.stall 8 + flagAt v.err 16 + flagAt ((s.vfComp n).elim false s.sealedHost) 17
  | _ => 0

/-- W0 of a mailbox (R479, R480). -/
def Mbx.word0 (b : Mbx) : Nat :=
  match b.st with
  | .ready => 1 + flagAt b.consumed 1 + fieldAt b.status.code 8 8 + fieldAt b.seq.toNat 32 16
  | .busy => fieldAt Status.notReady.code 8 8 + fieldAt b.seq.toNat 32 16
  | .free => fieldAt Status.notReady.code 8 8

/-- W1 to W3 of a mailbox (R479, R480): zero unless it is READY. -/
def Mbx.word (b : Mbx) (k : Nat) : Nat :=
  if b.st ≠ .ready then 0
  else match k with
    | 1 => b.tag.toNat
    | 2 => b.flag.toNat
    | 3 => b.rbytes % 2 ^ 32
    | _ => 0

/-- The mailbox as the last read of its W0 latched it (R480). -/
def Vf.latched (v : Vf) (n : Nat) : Mbx := lookD v.latch n Mbx.free

/-- The word of a slot, as a read without effect of its own gives it. The slots of a PF block are 8 bytes apart; those not listed read
zero. -/
def State.word (s : State) (fn : Nat) (b : RegBlock) (o : Nat) : Nat :=
  match b with
  | .hif => if fn = 0 then s.hifWord o else s.vfWord fn o
  | .phs => s.phsWord o
  | .sch => s.schWord o
  | .hbm => s.hbmWord o
  | .adir => s.adirWord o
  | .tier => if 0x200 ≤ o ∧ o < 0x300 then s.flcWord ((o - 0x200) / 8) else 0
  | .lnk => s.lnkWord o
  | .rmo => s.rmoWord fn o
  | .egq => s.egqWord o
  | .dma => s.dmaWord fn o
  | .sec => s.secWord o
  | .pwr => s.pwrWord o
  | .mbx => if o % 32 = 0 then ((s.vf fn).box (o / 32)).word0 else ((s.vf fn).latched (o / 32)).word (o % 32 / 8)
  | .msix => (lookD s.hif.msix (0x20000 * fn + o / 8) 0).toNat
  | .hint | .none => 0

/-- The word of a slot as software finds it: before READY only the HIF, SEC and PWR registers read as defined, the others as reset
leaves them (R517). -/
def State.seen (s : State) (fn : Nat) (b : RegBlock) (o : Nat) : Nat :=
  if s.boot.ready || b.early then s.word fn b o else State.reset.word fn b o

/-- A read of a mailbox's W0 latches the whole mailbox, and marks a result as read (R480). -/
def State.readBox (s : State) (fn n : Nat) : State :=
  let b := (s.vf fn).box n
  let s := s.setVf fn fun v => { v with latch := put v.latch n b }
  if b.st = .ready then s.setMbx fn n fun b => { b with consumed := true } else s

/-- What a read of a slot does beside answering (R41, R480). -/
def State.afterRead (s : State) (fn : Nat) (b : RegBlock) (o : Nat) : State :=
  match b with
  | .phs => if o = 8 ∧ s.boot.ready then (s.readNow).2 else s
  | .mbx => if o % 32 = 0 then s.readBox fn (o / 32) else s
  | _ => s

/-- Forget what is held or latched for a slot. -/
def unhold (l : List (Nat × Nat × BitVec 32)) (fn off : Nat) : List (Nat × Nat × BitVec 32) :=
  l.filter fun x => !(x.1 == fn && x.2.1 == off)

/-- The half held or latched for a slot. -/
def heldFor (l : List (Nat × Nat × BitVec 32)) (fn off : Nat) : Option (BitVec 32) :=
  (l.find? fun x => x.1 == fn && x.2.1 == off).map (·.2.2)

/-- A read of 4 or 8 bytes at an offset of a register region (R470): the value, if the access is served. A read of a lower half
latches the upper one for the next read of it. -/
def State.readReg (s : State) (fn off len : Nat) : Option (BitVec 64) × State :=
  let slot := off / 8 * 8
  let (b, o) := blockOf fn slot
  let v := s.seen fn b o
  if len = 8 ∧ off % 8 = 0 then (some (w64 v), s.afterRead fn b o)
  else if len = 4 ∧ off % 8 = 0 then
    let s := s.afterRead fn b o
    let s : State := if wideSlot fn b o then
        { s with hif := { s.hif with upLatch := (fn, slot, BitVec.ofNat 32 (v / 2 ^ 32)) :: unhold s.hif.upLatch fn slot } }
      else s
    (some (w64 (v % 2 ^ 32)), s)
  else if len = 4 ∧ off % 8 = 4 then
    match heldFor s.hif.upLatch fn slot with
    | some x => (some (x.zeroExtend 64), { s with hif := { s.hif with upLatch := unhold s.hif.upLatch fn slot } })
    | none => (some (w64 (v / 2 ^ 32 % 2 ^ 32)), s)
  else (none, s)

end Sys2Proof.Machine
end

