-- ==== Sys2Proof/Machine/RegWrite.lean ====
section
/-! DEFINITION. What a write of each register does (R7, R469 to R471, and the field maps of the owning chapters). -/

namespace Sys2Proof.Machine

/-! ### Phase and schedule (R41, R49) -/

/-- PHS_CTL is written (R41): SRC is locked by LOCK; its reserved value is not stored. -/
def PhaseSt.writeCtl (p : PhaseSt) (v : Nat) : PhaseSt :=
  { p with en := bitAt v 0, jchk := bitAt v 3, src := if p.lock ∨ bitsOf v 1 2 = 3 then p.src else bitsOf v 1 2,
           lock := p.lock || bitAt v 31 }

/-- PHS_STAT is written (R41): a 1 clears LATE, GAP, JITTER, TBFAULT and BADMARK. -/
def PhaseSt.writeStat (p : PhaseSt) (v : Nat) : PhaseSt :=
  { p with late := p.late && !bitAt v 2, gap := p.gap && !bitAt v 3, jitter := p.jitter && !bitAt v 4,
           tbfault := p.tbfault && !bitAt v 5, badmark := p.badmark && !bitAt v 6 }

/-- A write of the Phase block. -/
def State.writePhs (s : State) (o v : Nat) : State :=
  match o with
  | 0x00 => { s with phs := s.phs.writeCtl v }
  | 0x18 => { s with phs := { s.phs with markLo := BitVec.ofNat 32 v } }
  | 0x20 => s.hostMark (BitVec.ofNat 32 v)
  | 0x28 => { s with phs := s.phs.writeStat v }
  | _ => s

/-- A write that the frozen bank turns away (R47). -/
def SchedSt.ignored (c : SchedSt) : SchedSt := { c with wign := true }

/-- A write of the schedule block (R47, R49). -/
def State.writeSch (s : State) (o v : Nat) : State :=
  let c := s.sch
  match o with
  | 0x00 => { s with sch := { c with en := bitAt v 0 } }
  | 0x08 => { s with sch := if c.frozen then c.ignored else { c with count := bitsOf v 0 13 } }
  | 0x10 => { s with sch := if c.frozen then c.ignored else { c with stepLo := BitVec.ofNat 32 v } }
  | 0x18 => s.writeCommitHi v
  | 0x20 => { s with sch := { c with wign := c.wign && !bitAt v 2 } }
  | 0x30 =>
    let r := ringTail (s.pdNum 0x7040 2) c.bringTail c.bringUsed v
    { s with sch := { c with bringTail := r.1, bringUsed := r.2 } }
  | _ => s

/-- An entry of the shadow bank is put back. -/
def SchedSt.setShadow (c : SchedSt) (i : Nat) (e : Slot) : SchedSt :=
  if c.bank = 0 then { c with bank1 := put c.bank1 i e } else { c with bank0 := put c.bank0 i e }

/-- An entry of the shadow bank. -/
def SchedSt.shadow (c : SchedSt) (i : Nat) : Slot := lookD (c.bankOf (1 - c.bank)) i Slot.empty

/-- One byte of the schedule window is written. -/
def SchedSt.writeByte (c : SchedSt) (off : Nat) (x : Byte) : SchedSt :=
  let i := off / 32
  c.setShadow i (Slot.ofBytes (splice (c.shadow i).toBytes (off % 32) [x]))

/-- A write of the schedule window (R47, R468). -/
def State.writeWindow (s : State) (off : Nat) (b : List Byte) : State :=
  if s.sch.frozen then { s with sch := s.sch.ignored }
  else { s with sch := b.zipIdx.foldl (fun (c : SchedSt) x => c.writeByte (off + x.2) x.1) s.sch }

/-! ### Memory, directory, tiers, links (R209, R212, R217, R227, R263, R291) -/

/-- HBM_REF_CTL is written (R209): FORCE2X, until LOCK; the change of rate waits for a step boundary. -/
def HbmSt.writeRef (h : HbmSt) (now v : Nat) : HbmSt :=
  let h := { h with force2x := if h.refLock then h.force2x else bitAt v 1, refLock := h.refLock || bitAt v 31 }
  let pend := h.wantRate != h.refRate
  { h with refPend := pend, pendAt := if pend && !h.refPend then now else h.pendAt }

/-- NMU_STAT_s is written: a 1 clears DENY and ABORT. -/
def State.writeNmuStat (s : State) (k v : Nat) : State :=
  let g := s.gov k
  s.setGov k { g with deny := g.deny && !bitAt v 16, abort := g.abort && !bitAt v 17 }

/-- A write of the memory block. -/
def State.writeHbm (s : State) (o v : Nat) : State :=
  if o = 0x00 then ({ s with hbm := s.hbm.writeRef s.timer v }).rateActivity s.hbm.refPend
  else if o = 0x08 then { s with hbm := { s.hbm with eccValid := s.hbm.eccValid && !bitAt v 0 } }
  else if 0x100 ≤ o ∧ o < 0x140 then s.writeGov ((o - 0x100) / 8) (BitVec.ofNat 32 v)
  else if 0x200 ≤ o ∧ o < 0x240 then s.writeNmuStat ((o - 0x200) / 8) v
  else if 0x1000 ≤ o ∧ o < 0x1400 ∧ o % 0x100 < 0x80 then s.writeWays ((o - 0x1000) / 0x100) (o % 0x100 / 8) (BitVec.ofNat 32 v)
  else s

/-- ADIR_CTL is written (R227): the throttle holds at least the step of FLOOR from then on. -/
def HbmSt.writeAdir (h : HbmSt) (v : Nat) : HbmSt :=
  { h with adirEn := bitAt v 0, adirFloor := bitsOf v 3 2, adirStep := max (bitsOf v 3 2) h.adirStep }

/-- A write of the associative directory's registers. -/
def State.writeAdir (s : State) (o v : Nat) : State :=
  if o = 0 then { s with hbm := s.hbm.writeAdir v }
  else if 0x100 ≤ o ∧ o < 0x180 then s.writeBankCfg ((o - 0x100) / 8) (BitVec.ofNat 32 v)
  else s

/-- A write of the tier block (R263): a hint doorbell, or a 1 to FLC_STAT_n.ERR. -/
def State.writeTier (s : State) (o v : Nat) : State :=
  if 0x100 ≤ o ∧ o < 0x180 then goesOn s (execTierHintDb s.timer ((o - 0x100) / 8) (BitVec.ofNat 32 v) s)
  else if 0x200 ≤ o ∧ o < 0x300 ∧ bitAt v 12 then
    s.setFlash ((o - 0x200) / 8) { s.flash ((o - 0x200) / 8) with err := false }
  else s

/-- A write of a port's registers (R291). -/
def State.writeLnk (s : State) (o v : Nat) : State :=
  let p := o / 0x100
  let x := s.port p
  if 8 ≤ p then s
  else match o % 0x100 with
    | 0x00 => s.writeLnkCtl p v
    | 0x08 => s.setPort p { x with degraded := x.degraded && !bitAt v 20, uncorr := x.uncorr && !bitAt v 21,
                                   replaylim := x.replaylim && !bitAt v 22 }
    | 0x10 => s.writeInject p v
    | 0x18 => s.setPort p { x with frate := BitVec.ofNat 32 v }
    | 0x20 => s.writeSeed p (BitVec.ofNat 32 v)
    | _ => s

/-! ### Windows, queues, channels (R300, R305, R333, R347) -/

/-- A value register of the window block is written (R302): ignored while a command is in progress, which sets IGN. -/
def State.writeWval (s : State) (fn : Nat) (f : WRegs → WRegs) : State :=
  let r := s.wregs fn
  s.setWregs fn (if r.busy then { r with ign := true } else f r)

/-- RMO_WCMD is written (R300, R301): a 1 clears IGN, and an operation of 1 to 4 is issued. -/
def State.writeWcmd (s : State) (fn v : Nat) : State :=
  let r := s.wregs fn
  let ignored := r.busy && decide (bitsOf v 0 3 ≠ 0)
  let r := { r with ign := (r.ign && !bitAt v 30) || ignored, win := if r.busy then r.win else bitsOf v 3 14 }
  let s := s.setWregs fn r
  if 1 ≤ bitsOf v 0 3 ∧ bitsOf v 0 3 ≤ 4 then s.winCommand fn (bitsOf v 0 3) (bitsOf v 3 14) else s

/-- The bits that RMO_CVAL holds, of either side (R305). -/
def cvalMask : Nat := 0x80FFFFFFFFFF3FFF

/-- A write of the window and connection registers. -/
def State.writeRmo (s : State) (fn o v : Nat) : State :=
  match o with
  | 0x00 => s.writeWval fn fun r => { r with v1 := w64 (fieldAt (v / 64) 46 6) }
  | 0x08 => s.writeWval fn fun r => { r with v2 := w64 (fieldAt v 48 0) }
  | 0x10 => s.writeWval fn fun r => { r with v3 := w64 (v &&& 0x3FFF5F3F) }
  | 0x18 => s.writeWval fn fun r => { r with wjob := BitVec.ofNat 24 v }
  | 0x20 => s.writeWcmd fn v
  | 0x30 => goesOn s (execConnectionWrite s.timer fn (BitVec.ofNat 32 v) s)
  | 0x38 => s.setWregs fn { s.wregs fn with cval := w64 (v &&& cvalMask) }
  | 0x48 =>
    if fn ≠ 0 then s
    else
      let r := ringTail (s.pdNum 0x4150 2) s.rmo.evTail s.rmo.evUsed v
      { s with rmo := { s.rmo with evTail := r.1, evUsed := r.2 } }
  | _ => s

/-- A write of the egress registers (R333, R342). -/
def State.writeEgq (s : State) (o v : Nat) : State :=
  match o with
  | 0x00 =>
    let q := bitsOf v 0 13
    if bitsOf v 13 2 = 1 then s.egqWrite q else if bitsOf v 13 2 = 2 then s.egqRead q else { s with egq := { s.egq with cmdQ := q } }
  | 0x08 => { s with egq := { s.egq with cfg := w64 (v &&& 0xFFFFFF1FFFFFFFFF) } }
  | _ => s

/-- DMA_STAT_c is written (R347): a 1 clears DONE, HALT, TRIGLOST and REFUSED; clearing DONE of a channel that is DONE returns it to
IDLE. -/
def State.writeDmaStat (s : State) (ch v : Nat) : State :=
  let s := if bitAt v 16 then s.dmaClearDone ch else s
  let d := s.dma ch
  s.setDma ch { d with halt := d.halt && !bitAt v 17, triglost := d.triglost && !bitAt v 18, refused := d.refused && !bitAt v 19 }

/-- A write of a channel's registers (R343, R347). -/
def State.writeDma (s : State) (fn o v : Nat) : State :=
  let ch := o / 0x100
  let d := s.dma ch
  if !s.dmaOwns fn ch then s
  else match o % 0x100 with
    | 0x00 => if d.frozen then s else s.setDma ch { d with srcA := bitsOf v 0 52 }
    | 0x08 => if d.frozen then s else s.setDma ch { d with dstA := bitsOf v 0 52 }
    | 0x10 => if d.frozen then s else s.setDma ch { d with count := bitsOf v 0 41 }
    | 0x18 => s.dmaCtl ch v
    | 0x20 => s.setDma ch { d with tphase := BitVec.ofNat 64 v }
    | 0x28 => s.writeDmaStat ch v
    | _ => s

/-! ### Power and host interface (R464, R490, R508) -/

/-- A write of the power block. -/
def State.writePwr (s : State) (o v : Nat) : State :=
  match o with
  | 0x00 => s.writePwrCtl v
  | 0x08 => if bitsOf v 16 3 = 7 then { s with pwr := { s.pwr with stagehi := 0 } } else s
  | 0x10 => s.writeGovCtl v
  | _ => s

/-- HIF_PD_CTL is written (R508): a 1 clears DONE, and GO submits the buffer. -/
def State.writePdCtl (s : State) (v : Nat) : State :=
  let s := if bitAt v 2 then { s with pd := { s.pd with done := false } } else s
  if bitAt v 0 then s.pdMessage .pfMailbox (parseMsg (padTo 1280 s.pd.buf)) else s

/-- A write of the PF's host-interface registers. -/
def State.writeHif (s : State) (o v : Nat) : State :=
  match o with
  | 0x00 => if bitAt v 11 then { s with hif := { s.hif with markerr := false } } else s
  | 0x10 => s.writePdCtl v
  | _ => s

/-- A doorbell (R475, R489): the tail is taken modulo the ring size, and fetching begins. -/
def State.ringDoorbell (s : State) (n tail : Nat) : State :=
  (s.setVf n fun v => { v with tail := tail % 2 ^ v.lsize }).pump n

/-- HIF_SQ_CTL is written (R490): LSIZE is ignored while EN was 1, and one out of range stores 8. -/
def Vf.writeCtl (x : Vf) (v : Nat) : Vf :=
  let n := bitsOf v 1 4
  { x with en := bitAt v 0, lsize := if x.en then x.lsize else if 4 ≤ n ∧ n ≤ 8 then n else 8 }

/-- HIF_MBX_REL is written (R482): the release of a READY mailbox under its own sequence frees it, and fetching may go on; another
is counted. -/
def State.releaseBox (s : State) (n : Nat) (v : Nat) : State :=
  let i := bitsOf v 0 8
  let b := (s.vf n).box i
  if b.st = .ready ∧ b.seq.toNat = bitsOf v 16 32 then
    (s.setVf n fun x => { x with mbx := drop x.mbx i, latch := drop x.latch i }).pump n
  else match s.vfComp n with
    | some c => s.countC c 0x1101 1 1
    | none => s.count 0x1101 1

/-- A write of a virtual function's host-interface registers (R490). -/
def State.writeVf (s : State) (n o v : Nat) : State :=
  match o with
  | 0x00 => s.setVf n fun x => if x.en then x else { x with base := w64 (v / 64 * 64) }
  | 0x08 => (s.setVf n fun x => x.writeCtl v).pump n
  | 0x10 => s.ringDoorbell n (bitsOf v 0 8)
  | 0x18 => s.setVf n fun x => { x with err := x.err && !bitAt v 16 }
  | 0x20 => s.releaseBox n v
  | _ => s

/-- Before READY only the clears of DONE and ERR act (R517). -/
def State.writeEarly (s : State) (fn : Nat) (b : RegBlock) (o v : Nat) : State :=
  if b = .hif ∧ fn = 0 ∧ o = 0x10 ∧ bitAt v 2 then { s with pd := { s.pd with done := false } }
  else if b = .hif ∧ fn ≠ 0 ∧ o = 0x18 then s.writeVf fn o (v &&& 0x10000)
  else s

/-- A write of a whole register, in the slot at an offset of a block. -/
def State.writeSlot (s : State) (fn : Nat) (b : RegBlock) (o v : Nat) : State :=
  if !s.boot.ready then s.writeEarly fn b o v
  else match b with
    | .hif => if fn = 0 then s.writeHif o v else s.writeVf fn o v
    | .phs => s.writePhs o v
    | .sch => s.writeSch o v
    | .hbm => s.writeHbm o v
    | .adir => s.writeAdir o v
    | .tier => s.writeTier o v
    | .lnk => s.writeLnk o v
    | .rmo => s.writeRmo fn o v
    | .egq => s.writeEgq o v
    | .dma => s.writeDma fn o v
    | .pwr => s.writePwr o v
    | .hint => match s.vfComp fn with
      | some c => goesOn s (execTierHintDb s.timer c (BitVec.ofNat 32 v) s)
      | none => s
    | .sec | .mbx | .msix | .none => s

/-- Bytes are written into HIF_PD_BUF (R508). -/
def State.putBuf (s : State) (off : Nat) (b : List Byte) : State :=
  if s.boot.ready then { s with pd := { s.pd with buf := splice s.pd.buf off b } } else s

/-- The bytes of a function's MSI-X table (R485): 64 vectors of 16 B for the PF, 16 for a virtual function. -/
def msixBytes (fn : Nat) : Nat := if fn = 0 then 0x400 else 0x100

/-- Bytes are written into an MSI-X table, within one word of 8 B. -/
def State.putMsix (s : State) (fn off : Nat) (b : List Byte) : State :=
  let k := 0x20000 * fn + off / 8
  let x := splice (leBytes 8 (lookD s.hif.msix k 0).toNat) (off % 8) b
  if s.boot.ready then { s with hif := { s.hif with msix := put s.hif.msix k (w64 (leNat x)) } } else s

/-- The bytes of HIF_PD_BUF or of an MSI-X table are written as they come: their words stand side by side. -/
def State.writeBytes (s : State) (fn off : Nat) (b : List Byte) : Option State :=
  match blockOf fn off with
  | (.hif, o) => if fn = 0 ∧ 0x1000 ≤ o ∧ o + b.length ≤ 0x1500 then some (s.putBuf (o - 0x1000) b) else none
  | (.msix, o) => if o < msixBytes fn then some (s.putMsix fn o b) else none
  | _ => none

/-- A write of 4 or 8 bytes at an offset of a register region (R470). A 64-bit register written in halves takes effect with its upper
half; another access is dropped. -/
def State.writeReg (s : State) (fn off len v : Nat) : State :=
  let slot := off / 8 * 8
  let (b, o) := blockOf fn slot
  if !((len == 8 && off % 8 == 0) || (len == 4 && off % 4 == 0)) then s
  else match s.writeBytes fn off (leBytes len v) with
    | some s => s
    | none =>
      if len = 8 then s.writeSlot fn b o (v % 2 ^ 64)
      else if !wideSlot fn b o then (if off % 8 = 0 then s.writeSlot fn b o (v % 2 ^ 32) else s)
      else if off % 8 = 0 then
        { s with hif := { s.hif with lowHeld := (fn, slot, BitVec.ofNat 32 v) :: unhold s.hif.lowHeld fn slot } }
      else
        match heldFor s.hif.lowHeld fn slot with
        | some x =>
          ({ s with hif := { s.hif with lowHeld := unhold s.hif.lowHeld fn slot } }).writeSlot fn b o (v % 2 ^ 32 * 2 ^ 32 + x.toNat)
        | none =>
          let (i, s) := s.draw
          s.writeSlot fn b o (v % 2 ^ 32 * 2 ^ 32 + (Config.heldHalf i).toNat)

end Sys2Proof.Machine
end

