-- ==== Sys2Proof/Machine/Host.lean ====
section
/-! DEFINITION. The PCI Express host interface (17): its resets, doorbells and submission entries, result mailboxes, the apertures and
register accesses. -/

namespace Sys2Proof.Machine

/-- Whether the host reaches the node: its logic runs, and the PCIe link has its clock (R533). -/
def State.hostUp (s : State) : Bool := s.alive && s.boot.pcieClk

/-! ### Resets of a function (R467) -/

/-- The mailbox number that stands for none: it is never BUSY, so that nothing is written for it. -/
def noBox : Nat := 256

/-- A source whose mailbox a function reset has taken away: its results are discarded unwritten. -/
def Source.cut (vf : Nat) : Source → Source
  | .doorbell v n => .doorbell v (if v = vf then noBox else n)
  | x => x

/-- The same for a request that waits at intake. -/
def cutHeld (vf : Nat) : Instr → Instr
  | .attendRequest t src r => .attendRequest t (Source.cut vf src) r
  | .ctxCreate t src r => .ctxCreate t (Source.cut vf src) r
  | .ctxFork t src r => .ctxFork t (Source.cut vf src) r
  | .ctxDelete t src r => .ctxDelete t (Source.cut vf src) r
  | .siltAppend t src r => .siltAppend t (Source.cut vf src) r
  | .pageMark t src r => .pageMark t (Source.cut vf src) r
  | .pageRewrite t src r => .pageRewrite t (Source.cut vf src) r
  | .search t src r => .search t (Source.cut vf src) r
  | .corpusCreate t src env skb vfmt dim seed nseg segs => .corpusCreate t (Source.cut vf src) env skb vfmt dim seed nseg segs
  | .recordAppend t src env seg count sk recs sks => .recordAppend t (Source.cut vf src) env seg count sk recs sks
  | .recordDelete t src env seg first count => .recordDelete t (Source.cut vf src) env seg first count
  | .corpusDelete t src env => .corpusDelete t (Source.cut vf src) env
  | i => i

/-- The page store, with the results of a function's operations discarded. -/
def PageSt.cut (vf : Nat) (p : PageSt) : PageSt :=
  { p with mirr := p.mirr.map fun (m : Mirr) => { m with op := { m.op with src := Source.cut vf m.op.src } },
           opq := p.opq.map fun (o : PendOp) => { o with src := Source.cut vf o.src },
           acks := p.acks.map fun (a : Ack) => { a with src := Source.cut vf a.src } }

/-- The request path, with the results of a function's requests discarded. -/
def ReqSt.cut (vf : Nat) (r : ReqSt) : ReqSt :=
  { r with reqs := r.reqs.map fun (x : Req) => { x with src := Source.cut vf x.src },
           searches := r.searches.map fun (x : Search) => { x with src := Source.cut vf x.src }, held := r.held.map (cutHeld vf) }

/-- What a function holds at the host interface itself. -/
def HifSt.cut (fn : Nat) (h : HifSt) : HifSt :=
  { h with lowHeld := h.lowHeld.filter fun x => x.1 != fn, upLatch := h.upLatch.filter fun x => x.1 != fn,
           msix := h.msix.filter fun x => x.1 / 0x20000 != fn }

/-- The reset of a virtual function (R467): its ring is disabled and its mailboxes become FREE; requests already fetched run to
completion, and their results are discarded. The sequence of its submissions goes on. -/
def State.flr (s : State) (vf : Nat) : State :=
  let s := { s with pg := s.pg.cut vf, rq := s.rq.cut vf, hif := s.hif.cut vf }
  s.setVf vf fun v => { Vf.off with seq := v.seq }

/-- The host-interface reset of the PF and every virtual function (R467). -/
def State.hifReset (s : State) : State :=
  let s := (List.range 16).foldl (fun (s : State) n => s.flr (n + 1)) s
  { s with hif := s.hif.cut 0, pd := { s.pd with buf := [], done := false, len := 0 } }

/-- HOT_RESET (R467): a hot reset, link down or PF FLR. -/
def execHotReset (t : Nat) (s : State) : Res :=
  let s := s.arrive t
  .next (if s.alive then s.hifReset else s)

/-- VF_FLR (R467, R489). -/
def execVfFlr (t vf : Nat) (s : State) : Res :=
  let s := s.arrive t
  .next (if s.hostUp ∧ 1 ≤ vf ∧ vf ≤ 16 then s.flr vf else s)

/-- REFCLK_PCIE_LOSS (R533): the PCIe link is down, and the host interface is reset. -/
def execRefclkPcieLoss (t : Nat) (s : State) : Res :=
  let s := s.arrive t
  if !s.boot.powered then .next s
  else
    let s := s.hifReset
    .next { s with boot := { s.boot with pcieClk := false }, hif := { s.hif with rate := 0, width := 0, flit := false } }

/-! ### Doorbells and submission (R475 to R478, R484) -/

/-- DOORBELL (R475, R489): HIF_DB is written. -/
def execDoorbell (t vf tail : Nat) (s : State) : Res :=
  let s := s.arrive t
  .next (if s.ready ∧ s.hostUp then s.ringDoorbell vf (tail % 256) else s)

/-- The envelope of a fetched request. -/
def bodyEnv : ReqBody → Envelope
  | .attend r => r.env
  | .context r => r.env
  | .search r => r.env
  | .corpusCreate env _ _ _ _ _ _ | .recordAppend env _ _ _ _ _ | .recordDelete env _ _ _ | .corpusDelete env | .otherOp env _ => env

/-- The largest block of a section (R478): a stream that does not exist has no rows. -/
def State.largestSec (s : State) (job : Nat) (r : AttendReq) (x : QSection) : Nat :=
  match s.strm? job r.env.ctx x.stream with
  | none => 64
  | some y => (64 + r.head.npos * r.head.nhead * (4 * y.dv + 8) + 63) / 64 * 64

/-- The largest result of a request (R478). -/
def State.largest (s : State) (job : Nat) : ReqBody → Nat
  | .attend r => (r.secs.map (s.largestSec job r)).sum
  | .search r => r.nq * (64 + r.k * 32)
  | _ => 16

/-- The fetch checks of R478, in order: the status of the first that fails. -/
def State.fetchCheck (s : State) (vf : Nat) (e : SubEntry) (b : ReqBody) : Option Status :=
  let env := bodyEnv b
  match s.vfComp vf with
  | none => some .accessDenied
  | some c =>
    if s.sealedHost c then some .accessDenied
    else if !e.readOk then some .integrity
    else if e.req % 64 ≠ 0 ∨ e.res % 64 ≠ 0 ∨ e.rlen ≠ 64 + 64 * env.blen then some .unsupported
    else if e.reslen < env.roff + s.largest (s.jobOf c) b then some .unsupported
    else none

/-- A fetch read failed (R478): ERR is set, and it is counted. -/
def State.fetchFailed (s : State) (vf : Nat) : State :=
  let s := s.setVf vf fun v => { v with err := true }
  match s.vfComp vf with
  | some c => s.countC c 0x1101 4 1
  | none => s.count 0x1101 4

/-- A submission ends at its checks (R478): nothing is executed, and the mailbox is READY with a status. Of a request that could not be
read, TAG and FVAL are not known (log entry 53). -/
def State.fetchEnd (s : State) (vf slot : Nat) (st : Status) (env : Option Envelope) : State :=
  match env with
  | some env => s.mbxReady vf slot st env.tag (flagWord env.fval st) 0
  | none =>
    let (i, s) := s.draw
    let (tag, fval) := Config.lostTag i
    s.mbxReady vf slot st tag (flagWord fval st) 0

/-- SUBMISSION_FETCH (R475 to R478): the entry and the request behind it have been read; the request is admitted, or ends at its checks,
and the next entry is fetched. -/
def execSubmissionFetch (t vf : Nat) (e : SubEntry) (b : ReqBody) (s : State) : Res :=
  let s := s.arrive t
  let v := s.vf vf
  if !s.ready ∨ !v.fetching then .next s
  else
    let slot := (v.head + 2 ^ v.lsize - 1) % 2 ^ v.lsize
    let s := (s.setVf vf fun v => { v with fetching := false }).setMbx vf slot fun x => { x with irq := e.irq, res := e.res }
    let s := if !e.readOk then s else match s.vfComp vf with
      | some c => s.countC c 0x1100 0 1
      | none => s.count 0x1100 0
    let s := match s.fetchCheck vf e b with
      | some .integrity => (s.fetchFailed vf).fetchEnd vf slot .integrity none
      | some st => s.fetchEnd vf slot st (if e.readOk then some (bodyEnv b) else none)
      | none => s.submit (.doorbell vf slot) b
    .next (s.pump vf)

/-- FETCH_TIMEOUT (R484): a fetch read has timed out, and the check of R478 fails with INTEGRITY; `e` is the entry, where its own read had
completed. A composition sealed to the host fails the check before. -/
def execFetchTimeout (t vf : Nat) (e : Option SubEntry) (s : State) : Res :=
  let s := s.arrive t
  let v := s.vf vf
  if !s.ready ∨ !v.fetching then .next s
  else
    let slot := (v.head + 2 ^ v.lsize - 1) % 2 ^ v.lsize
    let s := (s.setVf vf fun v => { v with fetching := false }).setMbx vf slot fun x =>
      { x with irq := e.elim false (·.irq), res := e.elim 0 (·.res) }
    let shut := match s.vfComp vf with
      | some c => s.sealedHost c
      | none => true
    let s := if shut then s.fetchEnd vf slot .accessDenied none else (s.fetchFailed vf).fetchEnd vf slot .integrity none
    .next (s.pump vf)

/-! ### Mailboxes (R479 to R482) -/

/-- MAILBOX_READ (R480): `whole` reads W0, alone or with the rest, which latches the mailbox; else W1 to W3 are read as latched. -/
def execMailboxRead (t vf n : Nat) (whole : Bool) (s : State) : Res :=
  let s := s.arrive t
  if !s.hostUp ∨ vf = 0 ∨ 16 < vf ∨ 256 ≤ n then .next s
  else
    let w0 := ((s.vf vf).box n).word0
    let s := if whole then s.readBox vf n else s
    let l := (s.vf vf).latched n
    .next (s.emit (.mbxRead vf n (if whole then w64 w0 else 0) (w64 (l.word 1)) (w64 (l.word 2)) (w64 (l.word 3))))

/-- MAILBOX_RELEASE (R482): HIF_MBX_REL is written. -/
def execMailboxRelease (t vf : Nat) (v : BitVec 64) (s : State) : Res :=
  let s := s.arrive t
  .next (if s.ready ∧ s.hostUp then s.releaseBox vf v.toNat else s)

/-! ### Apertures (R468, R471 to R473) -/

/-- Whether an access to the HBM aperture through a function is served (R472); a slice being zeroised belongs to nobody yet (log entry 187). -/
def State.apertureOpen (s : State) (fn npa len : Nat) : Bool :=
  s.ready && !s.sec.zero && decide (s.pwr.stage < 7) && decide (1 ≤ len) && isHbm (npa + len - 1) &&
    (if fn = 0 then
      pcRange npa len fun g => !s.lentPc g && !(s.cmp.busySlices.contains (g / 32)) && !(s.cmp.comps.any fun k => k.2.st != .free && bitAt k.2.desc.slices.toNat (g / 32))
    else match s.vfComp fn with
      | some c => !s.sealedHost c && s.ownsRange c npa len
      | none => false)

/-- A refused access (R472): counted; a read completes as Unsupported Request, a write is dropped. -/
def State.apertureRefused (s : State) (fn npa : Nat) (rd : Bool) : State :=
  let s := s.count 0x1101 2
  if rd then s.emit (.unsupportedRequest fn npa) else s

/-- A read of the HBM aperture (R212, R472): one that meets a bank in compute state is held until the bank is released, and counted
(R216). -/
def State.apertureGet (s : State) (fn npa len : Nat) (errs : List (List Nat)) : State :=
  if !s.apertureOpen fn npa len then s.apertureRefused fn npa true
  else if s.inCompute npa len then
    let s := s.count 0x3010 3
    { s with hbm := { s.hbm with hostHeld := s.hbm.hostHeld ++ [{ fn, npa, len, wr := none, errs }] } }
  else s.hostRead fn npa len errs

/-- A write of the HBM aperture (R472): held and counted in the same way (R216). -/
def State.aperturePut (s : State) (fn npa : Nat) (data : List Byte) : State :=
  if !s.apertureOpen fn npa data.length then s.apertureRefused fn npa false
  else if s.inCompute npa data.length then
    let s := s.count 0x3010 3
    { s with hbm := { s.hbm with hostHeld := s.hbm.hostHeld ++ [{ fn, npa, len := data.length, wr := some data, errs := [] }] } }
  else s.store npa data

/-- A unit of the directory image (R198, R222, R224): the key unit of an entry, then its value units. -/
def Bank.unit (k : Bank) (now u : Nat) : BitVec 64 :=
  let w := 2 ^ k.width
  match k.entries[u / w]? with
  | none => 0
  | some e =>
    if u % w = 0 then
      let pend := (look k.pend e.1).elim false fun t => decide (now < t)
      w64 (flagAt (!pend) 63 + flagAt pend 62 + fieldAt k.cls 3 59 + fieldAt e.1 59 0)
    else e.2.getD (u % w - 1) 0

/-- A byte of the directory image: unit u of bank b lies at 8 × (8,192 × b + u). -/
def State.imageByte (s : State) (off : Nat) : Byte :=
  BitVec.ofNat 8 (((s.adirBank (off / 65536)).unit s.timer (off % 65536 / 8)).toNat / 2 ^ (8 * (off % 8)))

/-- A byte of the schedule window: entry i of the shadow bank lies at 32 × i. -/
def State.windowByte (s : State) (off : Nat) : Byte := ((s.sch.shadow (off / 32)).toBytes).getD (off % 32) 0

/-- A byte of BAR4 of the PF (R468) by its NPA, when it lies there. Before READY it reads as after reset (R517). -/
def State.barByte (s : State) (npa : Nat) : Option Byte :=
  let s := if s.boot.ready then s else State.reset
  if schBase ≤ npa ∧ npa < schBase + 0x20000 then some (s.windowByte (npa - schBase))
  else if adirBase ≤ npa ∧ npa < adirBase + 0x100000 then some (s.imageByte (npa - adirBase))
  else none

/-- A read of BAR4 of the PF. -/
def State.barGet (s : State) (fn npa len : Nat) : State :=
  let b := (List.range len).map fun i => s.barByte (npa + i)
  if fn = 0 && b.all (·.isSome) then s.emit (.apertureRead fn npa (some (b.map (·.getD 0))) false)
  else s.emit (.unsupportedRequest fn npa)

/-- A read of a register region (R470). -/
def State.regGet (s : State) (fn off len : Nat) : State :=
  let (v, s) := s.readReg fn off len
  s.emit (match v with
    | some v => .regRead fn off v
    | none => .unsupportedRequest fn off)

/-- Whether an NPA names a function's register region: the PF's window of 256 MiB, a VF's of 1 MiB. -/
def inRegs (fn npa : Nat) : Bool := decide (regBase ≤ npa) && decide (npa < regBase + (if fn = 0 then 0x10000000 else 0x100000))

/-- HOST_APERTURE_READ (R470, R472): a read through a BAR of a function, by NPA: its HBM aperture, its register region, or BAR4 of the
PF. -/
def execHostApertureRead (t : Nat) (fn : Fn) (npa len : Nat) (errs : List (List Nat)) (s : State) : Res :=
  let s := s.arrive t
  if !s.hostUp then .next s
  else if npa < regBase then .next (s.apertureGet fn npa len errs)
  else if inRegs fn npa then .next (s.regGet fn (npa - regBase) len)
  else .next (s.barGet fn npa len)

/-- HOST_APERTURE_WRITE (R47, R216, R472): a write through a BAR of a function, by NPA. -/
def execHostApertureWrite (t : Nat) (fn : Fn) (npa : Nat) (data : List Byte) (s : State) : Res :=
  let s := s.arrive t
  if !s.hostUp then .next s
  else if npa < regBase then
    .next (s.aperturePut fn npa data)
  else if inRegs fn npa then .next (s.writeReg fn (npa - regBase) data.length (leNat data))
  else if fn = 0 ∧ schBase ≤ npa ∧ npa + data.length ≤ schBase + 0x20000 ∧ s.ready then .next (s.writeWindow (npa - schBase) data)
  else .next s

/-- REGISTER_WRITE (R470): a write of `width` bits at an offset of a function's register region. -/
def execRegisterWrite (t : Nat) (fn : Fn) (off width : Nat) (v : BitVec 64) (s : State) : Res :=
  let s := s.arrive t
  .next (if s.hostUp ∧ width % 8 = 0 ∧ inRegs fn (regBase + off) then s.writeReg fn off (width / 8) v.toNat else s)

end Sys2Proof.Machine
end

