-- ==== Sys2Proof/Machine/Nmu.lean ====
section
/-! DEFINITION. The near-memory units at work (R213 to R216): what each of their operations computes, and the meanings of their
commands. -/

namespace Sys2Proof.Machine

/-! ### The work of an operation (R213) -/

/-- A section of an attention request that has been dispatched, with its query and its stream. -/
def State.scanned (s : State) (id sec : Nat) : Option (Req × Sec × QSection × Ctx × Strm) :=
  match s.req? id with
  | none => none
  | some r =>
    match r.secs[sec]?, r.req.secs[sec]? with
    | some x, some q => (s.ctx? r.job r.req.env.ctx).bind fun k => (k.strm? q.stream).map fun y => (r, x, q, k, y)
    | _, _ => none

/-- The NPA of a grain chunk of a stream (R73, R77): the 512 grains of a level-2 entry. -/
def Strm.grainChunk (y : Strm) (chunk : Nat) : Option Nat := (look y.l3 chunk).map (·.grains)

/-- Nanoseconds that the tiles' own scan of a section's grains takes (R50, R145). -/
def State.tileScan (s : State) (r : Req) (x : Sec) (y : Strm) : Rat :=
  let (tiles, _) := s.secShape r x
  clockNs ((secLoad r.req r.comp 2 y 0).clocks (tileCount tiles) s.hbm.refRate).2.2 s.halfClock

/-- Whether the node may hand an operation to an NMU (R146, R169, R213): the data lies in the NMU's own channel. A grain chunk is handed
over for a request with PRESCAN = 1 while its primary profile runs, where the NMU's scan at 96 B/ns is predicted to end no later than
the tiles' own. -/
def State.nmuMay (s : State) (w ch : Nat) (op : NmuOp) : Bool :=
  match op with
  | .grainScan id sec chunk =>
    match s.scanned id sec with
    | none => false
    | some (r, x, _, _, y) =>
      r.req.head.prescan && x.running && x.run == 0 && (y.grainChunk chunk).elim false (inChannel w ch) &&
        decide ((32768 : Rat) / 96 ≤ s.tileScan r x y)
  | .sketchScan id seg =>
    (s.rq.searches.find? fun x => x.id == id).elim false fun x =>
      x.running && decide (x.req.slo ≤ seg) && decide (seg < x.req.shi) &&
        (x.snap.bind fun c => c.segs[seg]?).elim false fun g => g.tier == 0 && g.chans.contains (96 * w + ch)
  | .tamp job ctx stream page =>
    (s.tampTake job ctx stream page).1 && (s.tampHome job ctx stream page).elim false fun d => inChannel w ch (16 * d.2.addr)
  | .parity npa data => inChannel w ch npa && npa % 64 == 0 && data.length == 64

/-- The result records of a grain scan (R145, R146): the list of the chunk, of what the grains were at dispatch (R149, R154), each page as its
key and its index. -/
def State.grainRecs (s : State) (id sec chunk : Nat) : List (List Byte) :=
  match s.scanned id sec with
  | none => []
  | some (_, x, _, _, _) => x.snap.elim [] fun p => (chunkList p.scan p.keep chunk).map fun n =>
      leBytes 4 (lookD p.scan n 0).toNat ++ leBytes 4 n

/-- The result records of a sketch scan (R165, R169): of each query, the candidates that it keeps of the NMU's stripe of the segment, as query,
distance, and index; log entry 145. -/
def State.sketchRecs (s : State) (w ch id seg : Nat) : List (List Byte) :=
  match s.rq.searches.find? fun x => x.id == id with
  | none => []
  | some x => x.snap.elim [] fun c => (c.segs[seg]?).elim [] fun g =>
      let mine := (liveRecs c seg (seg + 1)).filter fun r => g.chans.getD (g.wayOf (sketchBits c.skb) r.2.1) 0 == 96 * w + ch
      (x.req.qs.zipIdx.map fun q => (keptCands x.req c q.1 mine).map fun e => leBytes 1 q.2 ++ leBytes 2 e.d ++ leBytes 4 e.idx).flatten

/-- A block XORed with what memory holds. -/
def State.xored (s : State) (npa : Nat) (data : List Byte) : List Byte := List.zipWith (· ^^^ ·) (s.load npa 64) data

/-! ### The commands -/

/-- E of a request for NMU compute (R202, R214). -/
def State.nmuKey (s : State) (q : NmuReq) : Nat := s.rankKey q.r (q.d.getD s.nextStep) s.period

/-- One request for NMU compute that the node may hand over (R214, R215). A page that is tamped counts in the bytes of the step (R102). A
denied scan falls to the tiles, and other denied work waits; while compute is shed, an XOR is applied by the atomic unit (R213). -/
def State.nmuRequest (s : State) (w : Nat) (q : NmuReq) : State :=
  if !s.nmuMay w q.ch q.op then s
  else
    let a := s.nmuClaim w q
    match q.op with
    | .tamp job ctx stream page => if a.1 = some true then (a.2.tampTake job ctx stream page).2 else a.2
    | .parity npa data => if a.1 = some false ∧ a.2.nmuShed = true then a.2.store npa (a.2.xored npa data) else a.2
    | _ => a.2

/-- NMU_GRANT_REQUEST (R214): the requests of one W-stack that stand at one time, granted in the key order of R202, ties by ascending
channel. -/
def execNmuGrantRequest (t w ch : Nat) (banks : List Nat) (ask : NmuAsk) (s : State) : Res :=
  let s := s.arrive t
  let reqs : List NmuReq := { ch, r := ask.r, d := ask.d, banks, op := ask.op } :: ask.also
  let before (a b : NmuReq) : Bool :=
    let ka := s.nmuKey a
    let kb := s.nmuKey b
    if ka % 2 ^ 48 = kb % 2 ^ 48 then decide (a.ch < b.ch) else keyLe ka kb
  .next ((sortBy before reqs).foldl (fun (s : State) q => s.nmuRequest w q) s)

/-- NMU_CLAIM_COMPLETE (R215): each held bank has completed its granted transfers, and enters compute state. Where compute has been shed
since, the operation aborts (R228). -/
def execNmuClaimComplete (t w ch : Nat) (s : State) : Res :=
  let s := s.arrive t
  let n := s.nmu w ch
  let busy := n.banks.any fun b => ((s.arb (nmuPc w ch b)).grant).elim false fun q => touchesBank q (b % 32)
  if n.st ≠ .claim ∨ busy then .next s
  else
    let s := (s.compute w ch n.banks true).setNmu w ch { n with st := .compute }
    .next (if s.nmuShed then s.nmuAbort w ch else s)

/-- NMU_COMPUTE_COMPLETE (R211 to R213, R215): the results and writes of the operation are buffered in the base die; a grain scan counts its
chunk (R155); of the operation's reads, those at the addresses `fixed` were corrected. -/
def execNmuComputeComplete (t w ch : Nat) (fixed : List Nat) (s : State) : Res :=
  let s := s.arrive t
  let n := s.nmu w ch
  if n.st ≠ .compute then .next s
  else
    let s := (fixed.filter fun a => inChannel w ch a).foldl (fun (s : State) a => s.eccFixed a) s
    match n.op with
    | .grainScan id sec chunk =>
      let c := (s.req? id).map (·.comp)
      let s := match c with | some c => s.countC c 0x3310 5 1 | none => s.count 0x3310 5
      .next (s.setNmu w ch { n with st := .drain, recs := s.grainRecs id sec chunk }).drainOps
    | .sketchScan id seg => .next (s.setNmu w ch { n with st := .drain, recs := s.sketchRecs w ch id seg })
    | .tamp _ _ _ _ => .next (s.setNmu w ch { n with st := .drain })
    | .parity npa data => .next (s.setNmu w ch { n with st := .drain, writes := [(npa, s.xored npa data)] })

/-- NMU_DRAIN_COMPLETE (R211, R215): the buffered writes go through the encoder, a tamped frame takes its new place with its descriptor
written last (R101), result records are returned, and the banks leave compute state in RELEASE. -/
def execNmuDrainComplete (t w ch : Nat) (s : State) : Res :=
  let s := s.arrive t
  let n := s.nmu w ch
  if n.st ≠ .drain then .next s
  else
    let s := n.writes.foldl (fun s p => s.store p.1 p.2) s
    let s := match n.op with
      | .tamp job ctx stream page => s.tampPage job ctx stream page
      | .parity _ _ => s
      | _ => s.emit (.nmuResult w ch n.recs)
    .next ((s.setNmu w ch { n with st := .release, writes := [], recs := [], till := s.timer + releaseTime }).releaseBanks w ch n)

/-- The address at which an operation's reads begin: where its data lies, or its first bank. -/
def State.nmuPlace (s : State) (w ch : Nat) (n : Nmu) : Nat :=
  let b := n.banks.headD 0
  let first := nmuPc w ch b * 2 ^ 30 + b % 32 * 1024
  match n.op with
  | .grainScan id sec chunk => ((s.scanned id sec).bind fun x => x.2.2.2.2.grainChunk chunk).getD first
  | .parity npa _ => npa
  | .sketchScan id seg => ((s.rq.searches.find? fun x => x.id == id).bind fun x => x.snap.bind fun c => (c.segs[seg]?).map fun g =>
      (96 * w + ch) * 2 ^ 31 + g.ska % 2 ^ 31).getD first
  | _ => first

/-- NMU_ABORT (R215, R212, R154): a computing operation aborts; on an uncorrectable error it is logged and the fault scope raised; on a
fault of the unit during a scan, scope NMU. -/
def execNmuAbort (t w ch : Nat) (ecc : Bool) (s : State) : Res :=
  let s := s.arrive t
  let n := s.nmu w ch
  if n.st ≠ .compute then .next s
  else
    let at_ := s.nmuPlace w ch n
    let s := s.nmuAbort w ch
    let scan := match n.op with | .grainScan _ _ _ | .sketchScan _ _ => true | _ => false
    if ecc then .next ((s.eccBad 50 at_).tearRecurring at_).drainOps
    else if scan then .next (((s.raiseScope 3 s.nodeId (s.compAt at_)).frameLost at_).scansLost at_).drainOps
    else .next s

end Sys2Proof.Machine
end

