-- ==== Sys2Proof/Machine/Dispatch.lean ====
section
/-! DEFINITION. The meaning of every command: one arm for each constructor of `Instr`. -/

namespace Sys2Proof.Machine

def exec (i : Instr) (s : State) : Host.Outcome State Fault Refusal :=
  match i with
  | .markLayer t port m => Sys2Proof.Machine.execMarkLayer t port m s
  | .markStep t port m => Sys2Proof.Machine.execMarkStep t port m s
  | .markHold t port m => Sys2Proof.Machine.execMarkHold t port m s
  | .markResume t port m => Sys2Proof.Machine.execMarkResume t port m s
  | .markSync t port m => Sys2Proof.Machine.execMarkSync t port m s
  | .masterLayerBoundary t => Sys2Proof.Machine.execMasterLayerBoundary t s
  | .holdSyncMark t => Sys2Proof.Machine.execHoldSyncMark t s
  | .layerMarkLate t => Sys2Proof.Machine.execLayerMarkLate t s
  | .tickSaturation t => Sys2Proof.Machine.execTickSaturation t s
  | .markWaitTimeout t => Sys2Proof.Machine.execMarkWaitTimeout t s
  | .jobStart t term job step => Sys2Proof.Machine.execJobStart t term job step s
  | .claim t term node job => Sys2Proof.Machine.execClaim t term node job s
  | .claimWindowExpiry t => Sys2Proof.Machine.execClaimWindowExpiry t s
  | .hostMark t hi => Sys2Proof.Machine.execHostMark t hi s
  | .phsNowRead t => Sys2Proof.Machine.execPhsNowRead t s
  | .stepCompleteReport t => Sys2Proof.Machine.execStepCompleteReport t s
  | .stepCompleteReceive t step node breaches fallback => Sys2Proof.Machine.execStepCompleteReceive t step node breaches fallback s
  | .barrierTimeout t => Sys2Proof.Machine.execBarrierTimeout t s
  | .scheduleGo t stepHi => Sys2Proof.Machine.execScheduleGo t stepHi s
  | .scheduleCancel t => Sys2Proof.Machine.execScheduleCancel t s
  | .scheduleValidationDone t => Sys2Proof.Machine.execScheduleValidationDone t s
  | .slotStart t slot => Sys2Proof.Machine.execSlotStart t slot s
  | .slotEnd t slot => Sys2Proof.Machine.execSlotEnd t slot s
  | .requestDispatch t id sec => Sys2Proof.Machine.execRequestDispatch t id sec s
  | .alphaUpdate t cls => Sys2Proof.Machine.execAlphaUpdate t cls s
  | .bestEffortQuantumStart t q => Sys2Proof.Machine.execBestEffortQuantumStart t q s
  | .coarseningLatch t => Sys2Proof.Machine.execCoarseningLatch t s
  | .attendRequest t src r => Sys2Proof.Machine.execAttendRequest t src r s
  | .attentionComplete t id sec => Sys2Proof.Machine.execAttentionComplete t id sec s
  | .ctxCreate t src r => Sys2Proof.Machine.execCtxCreate t src r s
  | .ctxFork t src r => Sys2Proof.Machine.execCtxFork t src r s
  | .ctxDelete t src r => Sys2Proof.Machine.execCtxDelete t src r s
  | .siltAppend t src r => Sys2Proof.Machine.execSiltAppend t src r s
  | .appendAfterRelease t ctx stream => Sys2Proof.Machine.execAppendAfterRelease t ctx stream s
  | .siltMirrorAck t ctx stream => Sys2Proof.Machine.execSiltMirrorAck t ctx stream s
  | .siltRelease t ctx stream => Sys2Proof.Machine.execSiltRelease t ctx stream s
  | .pageMark t src r => Sys2Proof.Machine.execPageMark t src r s
  | .pageRewrite t src r => Sys2Proof.Machine.execPageRewrite t src r s
  | .search t src r => Sys2Proof.Machine.execSearch t src r s
  | .searchComplete t id => Sys2Proof.Machine.execSearchComplete t id s
  | .corpusCreate t src env skb vfmt dim seed nseg segs => Sys2Proof.Machine.execCorpusCreate t src env skb vfmt dim seed nseg segs s
  | .recordAppend t src env seg count sk recs sketches => Sys2Proof.Machine.execRecordAppend t src env seg count sk recs sketches s
  | .recordDelete t src env seg first count => Sys2Proof.Machine.execRecordDelete t src env seg first count s
  | .corpusDelete t src env => Sys2Proof.Machine.execCorpusDelete t src env s
  | .corpusStorageFree t job ctx => Sys2Proof.Machine.execCorpusStorageFree t job ctx s
  | .nmuGrantRequest t w ch banks op => Sys2Proof.Machine.execNmuGrantRequest t w ch banks op s
  | .nmuClaimComplete t w ch => Sys2Proof.Machine.execNmuClaimComplete t w ch s
  | .nmuComputeComplete t w ch fixed => Sys2Proof.Machine.execNmuComputeComplete t w ch fixed s
  | .nmuDrainComplete t w ch => Sys2Proof.Machine.execNmuDrainComplete t w ch s
  | .nmuAbort t w ch ecc => Sys2Proof.Machine.execNmuAbort t w ch ecc s
  | .hbmTransfer t g raise withdraw errs => Sys2Proof.Machine.execHbmTransfer t g raise withdraw errs s
  | .refreshSlot t g => Sys2Proof.Machine.execRefreshSlot t g s
  | .pcaWaymaskWrite t q c v => Sys2Proof.Machine.execPcaWaymaskWrite t q c v s
  | .directoryInsert t cls key vals => Sys2Proof.Machine.execDirectoryInsert t cls key vals s
  | .directoryDelete t cls key => Sys2Proof.Machine.execDirectoryDelete t cls key s
  | .blockMoveComplete t bank => Sys2Proof.Machine.execBlockMoveComplete t bank s
  | .directoryThrottleSample t temp => Sys2Proof.Machine.execDirectoryThrottleSample t temp s
  | .adirBankcfgWrite t n v => Sys2Proof.Machine.execAdirBankcfgWrite t n v s
  | .nmuGovWrite t w v => Sys2Proof.Machine.execNmuGovWrite t w v s
  | .flashChunkReadComplete t ch extent chunk r => Sys2Proof.Machine.execFlashChunkReadComplete t ch extent chunk r s
  | .lunTimeout t ch target lun again => Sys2Proof.Machine.execLunTimeout t ch target lun again s
  | .zqCalibrationShort t ch => Sys2Proof.Machine.execZqCalibrationShort t ch s
  | .leaseEnd t nn => Sys2Proof.Machine.execLeaseEnd t nn s
  | .leaseRelease t nn => Sys2Proof.Machine.execLeaseRelease t nn s
  | .leaseForcedEnd t nn => Sys2Proof.Machine.execLeaseForcedEnd t nn s
  | .tierHintDb t c v => Sys2Proof.Machine.execTierHintDb t c v s
  | .pin t c h => Sys2Proof.Machine.execPin t c h s
  | .unpin t c h => Sys2Proof.Machine.execUnpin t c h s
  | .prefetch t c h => Sys2Proof.Machine.execPrefetch t c h s
  | .dormant t c h => Sys2Proof.Machine.execDormant t c h s
  | .dormantComplete t job ctx => Sys2Proof.Machine.execDormantComplete t job ctx s
  | .wake t c h => Sys2Proof.Machine.execWake t c h s
  | .recallStart t id => Sys2Proof.Machine.execRecallStart t id s
  | .recallComplete t id => Sys2Proof.Machine.execRecallComplete t id s
  | .moveComplete t id => Sys2Proof.Machine.execMoveComplete t id s
  | .weightStreamDone t nn => Sys2Proof.Machine.execWeightStreamDone t nn s
  | .dataFlitReceive t port g crc f => Sys2Proof.Machine.execDataFlitReceive t port g crc f s
  | .controlFlitReceive t port codes crc f => Sys2Proof.Machine.execControlFlitReceive t port codes crc f s
  | .replayTimeout t port => Sys2Proof.Machine.execReplayTimeout t port s
  | .delayReq t port time => Sys2Proof.Machine.execDelayReq t port time s
  | .delayRsp t port time turn => Sys2Proof.Machine.execDelayRsp t port time turn s
  | .portEnable t port v => Sys2Proof.Machine.execPortEnable t port v s
  | .retrain t port v => Sys2Proof.Machine.execRetrain t port v s
  | .trainingComplete t port peer failedLanes => Sys2Proof.Machine.execTrainingComplete t port peer failedLanes s
  | .retrainAttemptFailed t port => Sys2Proof.Machine.execRetrainAttemptFailed t port s
  | .trainingTimeout t port => Sys2Proof.Machine.execTrainingTimeout t port s
  | .laneAlignmentLoss t port lane forGood => Sys2Proof.Machine.execLaneAlignmentLoss t port lane forGood s
  | .fecLimit t port => Sys2Proof.Machine.execFecLimit t port s
  | .fallowEnter t port => Sys2Proof.Machine.execFallowEnter t port s
  | .fallowExit t port => Sys2Proof.Machine.execFallowExit t port s
  | .gatewayDatagramReceive t port fr d => Sys2Proof.Machine.execGatewayDatagramReceive t port fr d s
  | .gatewayDatagramSend t group => Sys2Proof.Machine.execGatewayDatagramSend t group s
  | .gatewayResendTimeout t conn cseq => Sys2Proof.Machine.execGatewayResendTimeout t conn cseq s
  | .faultInjectCtlWrite t port v => Sys2Proof.Machine.execFaultInjectCtlWrite t port v s
  | .faultInjectSeedWrite t port v => Sys2Proof.Machine.execFaultInjectSeedWrite t port v s
  | .read t tagOk g => Sys2Proof.Machine.execRead t tagOk g s
  | .write t tagOk g => Sys2Proof.Machine.execWrite t tagOk g s
  | .add64 t tagOk g => Sys2Proof.Machine.execAdd64 t tagOk g s
  | .addf32 t tagOk g => Sys2Proof.Machine.execAddf32 t tagOk g s
  | .xor t tagOk g => Sys2Proof.Machine.execXor t tagOk g s
  | .cas64 t tagOk g => Sys2Proof.Machine.execCas64 t tagOk g s
  | .cas128 t tagOk g => Sys2Proof.Machine.execCas128 t tagOk g s
  | .cmd t tagOk g => Sys2Proof.Machine.execCmd t tagOk g s
  | .resp t tagOk r => Sys2Proof.Machine.execResp t tagOk r s
  | .readData t tagOk r => Sys2Proof.Machine.execReadData t tagOk r s
  | .respTimeout t conn cseq => Sys2Proof.Machine.execRespTimeout t conn cseq s
  | .reassemblyTimeout t rcid cseq => Sys2Proof.Machine.execReassemblyTimeout t rcid cseq s
  | .flagRelease t rcid cseq => Sys2Proof.Machine.execFlagRelease t rcid cseq s
  | .flagHoldTimeout t rcid cseq => Sys2Proof.Machine.execFlagHoldTimeout t rcid cseq s
  | .windowInsert t fn win => Sys2Proof.Machine.execWindowInsert t fn win s
  | .windowRemove t fn win => Sys2Proof.Machine.execWindowRemove t fn win s
  | .windowOpen t fn win => Sys2Proof.Machine.execWindowOpen t fn win s
  | .windowRevoke t fn win => Sys2Proof.Machine.execWindowRevoke t fn win s
  | .windowChangeInForce t fn => Sys2Proof.Machine.execWindowChangeInForce t fn s
  | .windowDrained t fn => Sys2Proof.Machine.execWindowDrained t fn s
  | .connectionWrite t fn v => Sys2Proof.Machine.execConnectionWrite t fn v s
  | .atomicWriteback t line => Sys2Proof.Machine.execAtomicWriteback t line s
  | .hotLineEvict t line => Sys2Proof.Machine.execHotLineEvict t line s
  | .hotLine t line => Sys2Proof.Machine.execHotLine t line s
  | .egqWrite t q => Sys2Proof.Machine.execEgqWrite t q s
  | .egqRead t q => Sys2Proof.Machine.execEgqRead t q s
  | .packetStart t port vl => Sys2Proof.Machine.execPacketStart t port vl s
  | .sampleRound t => Sys2Proof.Machine.execSampleRound t s
  | .dmaStart t ch fn v => Sys2Proof.Machine.execDmaStart t ch fn v s
  | .dmaArm t ch fn v => Sys2Proof.Machine.execDmaArm t ch fn v s
  | .dmaAbort t ch fn => Sys2Proof.Machine.execDmaAbort t ch fn s
  | .dmaResume t ch fn v => Sys2Proof.Machine.execDmaResume t ch fn v s
  | .dmaPhaseTrigger t ch => Sys2Proof.Machine.execDmaPhaseTrigger t ch s
  | .dmaTransferDone t ch => Sys2Proof.Machine.execDmaTransferDone t ch s
  | .dmaHalt t ch wr st addr prog => Sys2Proof.Machine.execDmaHalt t ch wr st addr prog s
  | .dmaDoneClear t ch fn => Sys2Proof.Machine.execDmaDoneClear t ch fn s
  | .commit t step => Sys2Proof.Machine.execCommit t step s
  | .commitValidationDone t => Sys2Proof.Machine.execCommitValidationDone t s
  | .sliceFree t n => Sys2Proof.Machine.execSliceFree t n s
  | .flashChannelFree t n => Sys2Proof.Machine.execFlashChannelFree t n s
  | .handoff t ctx stream all first count dnode queue move => Sys2Proof.Machine.execHandoff t ctx stream all first count dnode queue move s
  | .handoffBatchAck t st => Sys2Proof.Machine.execHandoffBatchAck t st s
  | .forceTeardown t c => Sys2Proof.Machine.execForceTeardown t c s
  | .teardownComplete t c => Sys2Proof.Machine.execTeardownComplete t c s
  | .meteringPersist t => Sys2Proof.Machine.execMeteringPersist t s
  | .scWatchdogExpiry t => Sys2Proof.Machine.execScWatchdogExpiry t s
  | .scMemoryError t => Sys2Proof.Machine.execScMemoryError t s
  | .getVersion t tr m => Sys2Proof.Machine.execGetVersion t tr m s
  | .getCapabilities t tr m => Sys2Proof.Machine.execGetCapabilities t tr m s
  | .negotiateAlgorithms t tr m => Sys2Proof.Machine.execNegotiateAlgorithms t tr m s
  | .getDigests t tr m => Sys2Proof.Machine.execGetDigests t tr m s
  | .getCertificate t tr m off len => Sys2Proof.Machine.execGetCertificate t tr m off len s
  | .challenge t tr m nonce => Sys2Proof.Machine.execChallenge t tr m nonce s
  | .getMeasurements t tr m index => Sys2Proof.Machine.execGetMeasurements t tr m index s
  | .keyExchange t tr m => Sys2Proof.Machine.execKeyExchange t tr m s
  | .finish t tr m => Sys2Proof.Machine.execFinish t tr m s
  | .heartbeat t tr m => Sys2Proof.Machine.execHeartbeat t tr m s
  | .spdmKeyUpdate t tr m => Sys2Proof.Machine.execSpdmKeyUpdate t tr m s
  | .endSession t tr m => Sys2Proof.Machine.execEndSession t tr m s
  | .lifecycleSeal t m => Sys2Proof.Machine.execLifecycleSeal t m s
  | .lifecycleUnseal t tokenOk => Sys2Proof.Machine.execLifecycleUnseal t tokenOk s
  | .keysInstall t decOk b => Sys2Proof.Machine.execKeysInstall t decOk b s
  | .keysUpdate t decOk b => Sys2Proof.Machine.execKeysUpdate t decOk b s
  | .modelRelease t decOk b => Sys2Proof.Machine.execModelRelease t decOk b s
  | .tenantRemove t decOk b => Sys2Proof.Machine.execTenantRemove t decOk b s
  | .tenantRemoved t c => Sys2Proof.Machine.execTenantRemoved t c s
  | .correctedRewrite t npa => Sys2Proof.Machine.execCorrectedRewrite t npa s
  | .scrubRateHour t stack => Sys2Proof.Machine.execScrubRateHour t stack s
  | .faultNotice t n => Sys2Proof.Machine.execFaultNotice t n s
  | .peerUnreachable t node => Sys2Proof.Machine.execPeerUnreachable t node s
  | .roleNotice t r => Sys2Proof.Machine.execRoleNotice t r s
  | .standbyReady t ring rank => Sys2Proof.Machine.execStandbyReady t ring rank s
  | .rebuild t c r => Sys2Proof.Machine.execRebuild t c r s
  | .sendPiece t c r => Sys2Proof.Machine.execSendPiece t c r s
  | .recontribute t c r => Sys2Proof.Machine.execRecontribute t c r s
  | .rebuildSlotComplete t c slot => Sys2Proof.Machine.execRebuildSlotComplete t c slot s
  | .rebuildSlotTimeout t c slot => Sys2Proof.Machine.execRebuildSlotTimeout t c slot s
  | .rebuildSlotQuarantineEnd t c slot => Sys2Proof.Machine.execRebuildSlotQuarantineEnd t c slot s
  | .shadow t outcome snode scomp lcomp => Sys2Proof.Machine.execShadow t outcome snode scomp lcomp s
  | .load t outcome snode scomp lcomp => Sys2Proof.Machine.execLoad t outcome snode scomp lcomp s
  | .admissionSelfTestDone t failures => Sys2Proof.Machine.execAdmissionSelfTestDone t failures s
  | .shadowCompare t b => Sys2Proof.Machine.execShadowCompare t b s
  | .maintenanceStart t act subj arg => Sys2Proof.Machine.execMaintenanceStart t act subj arg s
  | .maintenanceStop t act subj => Sys2Proof.Machine.execMaintenanceStop t act subj s
  | .governorRiseStart t slot => Sys2Proof.Machine.execGovernorRiseStart t slot s
  | .govCtlWrite t v => Sys2Proof.Machine.execGovCtlWrite t v s
  | .powerSample t watts mean100 => Sys2Proof.Machine.execPowerSample t watts mean100 s
  | .thermalSample t temps => Sys2Proof.Machine.execThermalSample t temps s
  | .pwrWarnAssert t => Sys2Proof.Machine.execPwrWarnAssert t s
  | .pwrWarnDeassert t => Sys2Proof.Machine.execPwrWarnDeassert t s
  | .supplySag t percent => Sys2Proof.Machine.execSupplySag t percent s
  | .shedStageEnter t stage => Sys2Proof.Machine.execShedStageEnter t stage s
  | .stage6End t => Sys2Proof.Machine.execStage6End t s
  | .shedStageExit t => Sys2Proof.Machine.execShedStageExit t s
  | .holdoverExit t => Sys2Proof.Machine.execHoldoverExit t s
  | .powerResume t => Sys2Proof.Machine.execPowerResume t s
  | .idleFallow t v => Sys2Proof.Machine.execIdleFallow t v s
  | .perstNAssert t => Sys2Proof.Machine.execPerstNAssert t s
  | .perstNDeassert t addr => Sys2Proof.Machine.execPerstNDeassert t addr s
  | .hotReset t => Sys2Proof.Machine.execHotReset t s
  | .vfFlr t vf => Sys2Proof.Machine.execVfFlr t vf s
  | .doorbell t vf tail => Sys2Proof.Machine.execDoorbell t vf tail s
  | .submissionFetch t vf e b => Sys2Proof.Machine.execSubmissionFetch t vf e b s
  | .fetchTimeout t vf e => Sys2Proof.Machine.execFetchTimeout t vf e s
  | .mailboxRead t vf n whole => Sys2Proof.Machine.execMailboxRead t vf n whole s
  | .mailboxRelease t vf v => Sys2Proof.Machine.execMailboxRelease t vf v s
  | .hostApertureRead t fn npa len errs => Sys2Proof.Machine.execHostApertureRead t fn npa len errs s
  | .hostApertureWrite t fn npa data => Sys2Proof.Machine.execHostApertureWrite t fn npa data s
  | .registerWrite t fn off width v => Sys2Proof.Machine.execRegisterWrite t fn off width v s
  | .pdMailboxGo t m => Sys2Proof.Machine.execPdMailboxGo t m s
  | .pdpMessage t tr m => Sys2Proof.Machine.execPdpMessage t tr m s
  | .pdRead t p item => Sys2Proof.Machine.execPdRead t p item s
  | .pdWrite t p item => Sys2Proof.Machine.execPdWrite t p item s
  | .pdDescribe t p item => Sys2Proof.Machine.execPdDescribe t p item s
  | .pdNext t p item => Sys2Proof.Machine.execPdNext t p item s
  | .pdDefault t p item => Sys2Proof.Machine.execPdDefault t p item s
  | .pdStagingTimeout t index sub => Sys2Proof.Machine.execPdStagingTimeout t index sub s
  | .configPersist t => Sys2Proof.Machine.execConfigPersist t s
  | .arpRequest t ip => Sys2Proof.Machine.execArpRequest t ip s
  | .neighbourSolicitation t ip => Sys2Proof.Machine.execNeighbourSolicitation t ip s
  | .echoRequest t ip v6 data => Sys2Proof.Machine.execEchoRequest t ip v6 data s
  | .romVerifyDone t aOk bOk => Sys2Proof.Machine.execRomVerifyDone t aOk bOk s
  | .scStageDone t cfgOk derived => Sys2Proof.Machine.execScStageDone t cfgOk derived s
  | .hbmTrainingDone t failed => Sys2Proof.Machine.execHbmTrainingDone t failed s
  | .zeroisationDone t => Sys2Proof.Machine.execZeroisationDone t s
  | .flashTrainingDone t pages retired programmed => Sys2Proof.Machine.execFlashTrainingDone t pages retired programmed s
  | .flashBackgroundEraseDone t => Sys2Proof.Machine.execFlashBackgroundEraseDone t s
  | .orderlyPowerDown t => Sys2Proof.Machine.execOrderlyPowerDown t s
  | .powerDownReady t => Sys2Proof.Machine.execPowerDownReady t s
  | .refclkCoreLoss t => Sys2Proof.Machine.execRefclkCoreLoss t s
  | .refclkFabLoss t => Sys2Proof.Machine.execRefclkFabLoss t s
  | .refclkPcieLoss t => Sys2Proof.Machine.execRefclkPcieLoss t s
  | .testenHigh t => Sys2Proof.Machine.execTestenHigh t s
  | .avsRequestTimeout t => Sys2Proof.Machine.execAvsRequestTimeout t s
  | .smbAlertResponse t => Sys2Proof.Machine.execSmbAlertResponse t s
  | .bypass t => Sys2Proof.Machine.execBypass t s
  | .idcode t => Sys2Proof.Machine.execIdcode t s
  | .samplePreload t cells => Sys2Proof.Machine.execSamplePreload t cells s
  | .extest t => Sys2Proof.Machine.execExtest t s
  | .clamp t => Sys2Proof.Machine.execClamp t s
  | .highz t => Sys2Proof.Machine.execHighz t s
  | .extestPulse t => Sys2Proof.Machine.execExtestPulse t s
  | .extestTrain t => Sys2Proof.Machine.execExtestTrain t s
  | .privateInstruction t op => Sys2Proof.Machine.execPrivateInstruction t op s
  | .pageProgramComplete t ch block ok => Sys2Proof.Machine.execPageProgramComplete t ch block ok s
  | .blockEraseComplete t ch block ok => Sys2Proof.Machine.execBlockEraseComplete t ch block ok s
  | .powerRemoved t => Sys2Proof.Machine.execPowerRemoved t s
  | .securityCoreRestart t => Sys2Proof.Machine.execSecurityCoreRestart t s
  | .refclkFabReturn t => Sys2Proof.Machine.execRefclkFabReturn t s
  | .bootStageRestart t => Sys2Proof.Machine.execBootStageRestart t s
  | .transportKeyGenerated t => Sys2Proof.Machine.execTransportKeyGenerated t s
  | .fwupdateStaged t => Sys2Proof.Machine.execFwupdateStaged t s

end Sys2Proof.Machine
end

