-- ==== Sys2Proof/WellFormed.lean ====
section
/-! DEFINITION. Which commands are well formed: every operand fits the field that carries it (R8 and the layouts of the owning chapters).
A value that fits its field and lies outside the range a rule states for it is well formed; the node refuses it by that rule (R9). -/

namespace Sys2Proof

/-- A number fits a field of `w` bits. -/
def fits (w n : Nat) : Bool := decide (n < 2 ^ w)

/-- Every number of a list fits a field of `w` bits. -/
def allFit (w : Nat) (l : List Nat) : Bool := l.all (fits w)

/-- A fabric port (R264). -/
def portOk (p : Nat) : Bool := decide (p < 8)

/-- A Phase Mark fits its record (R30). -/
def Mark.ok (m : Mark) : Bool :=
  fits 64 m.mtime && fits 32 m.resid && fits 16 m.period && fits 14 m.master && fits 4 m.typ && fits 4 m.hops

/-- A source of requests: identifiers in their widths (R8), a mailbox of a virtual function (R476). -/
def Source.ok : Source → Bool
  | .fabric job comp node _ _ => fits 24 job && fits 4 comp && fits 14 node
  | .doorbell vf mbx => decide (1 ≤ vf) && decide (vf ≤ 16) && fits 8 mbx

/-- An envelope fits its 64 bytes (R105). -/
def Envelope.ok (e : Envelope) : Bool :=
  fits 8 e.kind && fits 16 e.blen && fits 32 e.ctx && fits 14 e.rnode && fits 14 e.rwin && fits 48 e.roff && fits 48 e.foff

/-- The head of an ATTEND body fits its 64 bytes (R109). -/
def AttendHead.ok (h : AttendHead) : Bool :=
  fits 2 h.mode && fits 8 h.nstr && fits 8 h.qfmt && fits 6 h.npos && fits 5 h.nhead && fits 8 h.split && fits 8 h.nsplit && fits 32 h.qpos0
    && fits 32 h.horizon && fits 32 h.slide && fits 24 h.budget && fits 24 h.fbudget && fits 16 h.recent && fits 32 h.plo && fits 32 h.phi

/-- A stream section fits (R111). -/
def QSection.ok (x : QSection) : Bool := fits 20 x.stream && fits 10 x.dk && x.rows.all (allFit 16)

/-- An ATTEND request fits its fields. -/
def AttendReq.ok (r : AttendReq) : Bool := r.env.ok && r.head.ok && r.secs.all QSection.ok

/-- A token record fits its element codes and scales (R87). -/
def Token.ok (x : Token) : Bool := allFit 16 x.k && allFit 8 x.ks && allFit 16 x.v && allFit 8 x.vs

/-- A context operation fits its head and records (R83). -/
def CtxReq.ok (r : CtxReq) : Bool :=
  r.env.ok && fits 8 r.op && fits 8 r.flags && fits 16 r.count && fits 32 r.ctx && fits 20 r.stream && fits 32 r.arg0 && fits 32 r.arg1
    && fits 32 r.arg2 && fits 64 r.arg3 && r.toks.all Token.ok

/-- A SEARCH request fits its head and queries (R163). -/
def SearchReq.ok (r : SearchReq) : Bool :=
  r.env.ok && fits 2 r.metric && fits 8 r.nq && fits 8 r.qfmt && fits 16 r.k && fits 16 r.rr && fits 16 r.slo && fits 16 r.shi && fits 16 r.hmax
    && r.qs.all fun q => allFit 32 q.vec && fits 1024 q.sketch

/-- A segment named in CORPUS_CREATE fits (R160). -/
def SegSpec.ok (x : SegSpec) : Bool := fits 24 x.cap && fits 2 x.tier && fits 8 x.ways

/-- A record fits its entry (R158). -/
def Rec.ok (x : Rec) : Bool := fits 64 x.id && allFit 32 x.vec

/-- A hint fits its entry (R247). -/
def Hint.ok (h : Hint) : Bool := fits 8 h.op && fits 32 h.ctx && fits 20 h.stream && fits 32 h.first && fits 32 h.count

/-- A raised transfer names a port of R201 and an NPA (R8). -/
def ArbReq.ok (q : ArbReq) : Bool := decide (q.port < 52) && fits 52 q.npa

/-- A debug access names an NPA (R205, R8). -/
def DebugAccess.ok (d : DebugAccess) : Bool := fits 52 d.npa

/-- A request for NMU compute names a channel and its banks (R213). -/
def NmuReq.ok (q : NmuReq) : Bool := fits 5 q.ch && allFit 6 q.banks

/-- A data flit travels in a slot behind the control flit, in a group of at most eight codewords (R266, R267). -/
def FlitPlace.ok (g : FlitPlace) : Bool := decide (1 ≤ g.slot) && decide (g.slot < 20) && decide (g.codes.length ≤ 8)

/-- A data flit fits its header (R268). -/
def Flit.ok (f : Flit) : Bool :=
  fits 4 f.ft && fits 3 f.vl && fits 4 f.blen && fits 14 f.dest && fits 14 f.src && fits 6 f.plen && decide (f.body.length ≤ 240)

/-- A control flit carries eight credit counts and at most six records (R270). -/
def CtlFlit.ok (f : CtlFlit) : Bool := f.cred.length == 8 && decide (f.recs.length ≤ 6)

/-- A segment fits its header (R294). -/
def Segment.ok (g : Segment) : Bool :=
  fits 3 g.vl && fits 8 g.opc && fits 13 g.conn && fits 24 g.job && fits 14 g.osrc && fits 14 g.fdest && fits 16 g.rcid && fits 22 g.mlen
    && fits 32 g.off && fits 14 g.win && fits 16 g.slen && fits 48 g.addr && decide (g.data.length ≤ 7616)

/-- A response fits its header (R297). -/
def Response.ok (r : Response) : Bool := fits 14 r.osrc && fits 14 r.fdest && fits 16 r.rcid && fits 13 r.conn && r.hint.all (fits 14)
  && fits 24 r.job && fits 14 r.win

/-- A gateway datagram fits its header (R286). -/
def GwDatagram.ok (d : GwDatagram) : Bool := fits 4 d.ver && fits 3 d.vl && fits 14 d.src && fits 14 d.dst && d.pkts.all Segment.ok

/-- A frame fits an interface (R285). -/
def GwFrame.ok (f : GwFrame) : Bool := fits 1 f.iface && fits 16 f.ether && fits 8 f.proto && fits 16 f.sport && fits 16 f.dport

/-- A blob fits its fields (R389). -/
def KeyBlob.ok (b : KeyBlob) : Bool :=
  fits 8 b.typ && fits 8 b.mode && fits 16 b.model && fits 24 b.job && fits 4 b.comp && fits 64 b.activate && allFit 14 b.ends

/-- A fault notice fits its record (R417). -/
def Notice.ok (n : Notice) : Bool := fits 14 n.node && fits 14 n.subj && fits 8 n.scope && n.comp.all (fits 4) && fits 32 n.ring && fits 8 n.rank

/-- A ROLE notice fits its record (R419). -/
def Role.ok (r : Role) : Bool := fits 32 r.ring && fits 8 r.rank && fits 4 r.lostC && fits 4 r.standC && fits 14 r.lost && fits 14 r.standby

/-- A ring command fits its record (R425). -/
def RingCmd.ok (r : RingCmd) : Bool :=
  fits 8 r.rank && fits 14 r.node && fits 32 r.frame && fits 64 r.offset && fits 32 r.ctx && fits 20 r.stream && fits 32 r.page && fits 8 r.piece

/-- A Directory item fits its header (R500). -/
def PdItem.ok (i : PdItem) : Bool := fits 16 i.index && fits 8 i.sub && fits 3 i.iop && fits 16 i.offset && fits 16 i.len

/-- A Directory message fits its header (R499). -/
def PdMsg.ok (m : PdMsg) : Bool := fits 4 m.ver && fits 8 m.dir && fits 8 m.nitem && m.items.all PdItem.ok

/-- A submission entry fits its 32 bytes (R476). -/
def SubEntry.ok (e : SubEntry) : Bool := fits 64 e.req && fits 32 e.rlen && fits 64 e.res && fits 32 e.reslen

/-- A fetched request fits its fields. -/
def ReqBody.ok : ReqBody → Bool
  | .attend r => r.ok
  | .context r => r.ok
  | .search r => r.ok
  | .corpusCreate env skb vfmt dim seed nseg segs =>
    env.ok && fits 8 skb && fits 8 vfmt && fits 16 dim && fits 64 seed && fits 16 nseg && segs.all SegSpec.ok
  | .recordAppend env seg count _ recs sks => env.ok && fits 16 seg && fits 16 count && recs.all Rec.ok && allFit 1024 sks
  | .recordDelete env seg first count => env.ok && fits 16 seg && fits 32 first && fits 32 count
  | .corpusDelete env => env.ok
  | .otherOp env op => env.ok && fits 8 op

/-- The function of an access: the PF or one of the 16 virtual functions (R466). -/
def fnOk (fn : Fn) : Bool := decide (fn ≤ 16)

/-- A virtual function. -/
def vfOk (vf : Nat) : Bool := decide (1 ≤ vf) && decide (vf ≤ 16)

/-- A transport: a DOE is that of a virtual function. -/
def Transport.ok : Transport → Bool
  | .vfDoe vf => vfOk vf
  | .fabric n => fits 14 n
  | _ => true

/-- A principal: a composition by its ID. -/
def Principal.ok : Principal → Bool
  | .composition c => fits 4 c
  | _ => true

/-- Whether a command is well formed. -/
def Instr.wf : Instr → Bool
  | .markLayer _ p m | .markStep _ p m | .markHold _ p m | .markResume _ p m | .markSync _ p m => portOk p && m.ok
  | .masterLayerBoundary _ | .holdSyncMark _ | .layerMarkLate _ | .tickSaturation _ | .markWaitTimeout _ => true
  | .jobStart _ _ job step => fits 24 job && fits 36 step
  | .claim _ _ node job => fits 14 node && fits 24 job
  | .claimWindowExpiry _ | .hostMark _ _ | .phsNowRead _ | .stepCompleteReport _ | .barrierTimeout _ => true
  | .stepCompleteReceive _ step node breaches _ => fits 36 step && fits 14 node && fits 16 breaches
  | .scheduleGo _ hi => fits 4 hi
  | .scheduleCancel _ | .scheduleValidationDone _ | .coarseningLatch _ => true
  | .slotStart _ n | .slotEnd _ n => fits 12 n
  | .requestDispatch _ _ sec | .attentionComplete _ _ sec => fits 8 sec
  | .alphaUpdate _ c => fits 8 c
  | .bestEffortQuantumStart _ _ => true
  | .attendRequest _ src r => src.ok && r.ok
  | .ctxCreate _ src r | .ctxFork _ src r | .ctxDelete _ src r | .siltAppend _ src r | .pageMark _ src r | .pageRewrite _ src r =>
    src.ok && r.ok
  | .appendAfterRelease _ c x | .siltMirrorAck _ c x | .siltRelease _ c x => fits 32 c && fits 20 x
  | .search _ src r => src.ok && r.ok
  | .searchComplete _ _ => true
  | .corpusCreate _ src env skb vfmt dim seed nseg segs => src.ok && (ReqBody.corpusCreate env skb vfmt dim seed nseg segs).ok
  | .recordAppend _ src env seg count sk recs sks => src.ok && (ReqBody.recordAppend env seg count sk recs sks).ok
  | .recordDelete _ src env seg first count => src.ok && (ReqBody.recordDelete env seg first count).ok
  | .corpusDelete _ src env => src.ok && env.ok
  | .corpusStorageFree _ job ctx => fits 24 job && fits 32 ctx
  | .nmuGrantRequest _ w ch banks q => fits 3 w && fits 5 ch && allFit 6 banks && q.also.all NmuReq.ok
  | .nmuClaimComplete _ w ch | .nmuDrainComplete _ w ch | .nmuAbort _ w ch _ => fits 3 w && fits 5 ch
  | .nmuComputeComplete _ w ch l => fits 3 w && fits 5 ch && allFit 52 l
  | .hbmTransfer _ g qs ws es => decide (g < 1536) && qs.all ArbReq.ok && (ws.all fun p => decide (p < 52)) && es.all fun e => decide (e < 72)
  | .refreshSlot _ g => decide (g < 1536)
  | .pcaWaymaskWrite _ q c _ => fits 2 q && fits 4 c
  | .directoryInsert _ cls key vals => fits 3 cls && fits 59 key && decide (vals.length ≤ 3)
  | .directoryDelete _ cls key => fits 3 cls && fits 59 key
  | .blockMoveComplete _ b => fits 4 b
  | .directoryThrottleSample _ _ => true
  | .adirBankcfgWrite _ n _ => fits 4 n
  | .nmuGovWrite _ w _ => fits 3 w
  | .flashChunkReadComplete _ ch e k r => fits 5 ch && fits 26 e && fits 7 k && r.words.length == 4
  | .lunTimeout _ ch x lun k => fits 5 ch && fits 3 x && fits 2 lun && fits 26 k.extent && fits 7 k.chunk
  | .zqCalibrationShort _ ch => fits 5 ch
  | .leaseEnd _ n | .leaseRelease _ n | .leaseForcedEnd _ n | .weightStreamDone _ n => fits 8 n
  | .tierHintDb _ c _ => fits 4 c
  | .pin _ c h | .unpin _ c h | .prefetch _ c h | .dormant _ c h | .wake _ c h => fits 4 c && h.ok
  | .dormantComplete _ job ctx => fits 24 job && fits 32 ctx
  | .recallStart _ _ | .recallComplete _ _ | .moveComplete _ _ => true
  | .dataFlitReceive _ p g _ f => portOk p && g.ok && f.ok
  | .controlFlitReceive _ p g _ f => portOk p && decide (g.length ≤ 8) && f.ok
  | .replayTimeout _ p | .retrainAttemptFailed _ p | .trainingTimeout _ p | .fecLimit _ p | .fallowEnter _ p | .fallowExit _ p => portOk p
  | .delayReq _ p time => portOk p && fits 64 time
  | .delayRsp _ p time turn => portOk p && fits 64 time && fits 32 turn
  | .portEnable _ p _ | .retrain _ p _ | .faultInjectCtlWrite _ p _ | .faultInjectSeedWrite _ p _ => portOk p
  | .trainingComplete _ p peer bad => portOk p && fits 14 peer && allFit 3 bad
  | .laneAlignmentLoss _ p lane _ => portOk p && fits 3 lane
  | .gatewayDatagramReceive _ p fr d => portOk p && fr.ok && d.ok
  | .gatewayDatagramSend _ g => fits 6 g
  | .gatewayResendTimeout _ c _ | .respTimeout _ c _ => fits 13 c
  | .read _ _ g | .write _ _ g | .add64 _ _ g | .addf32 _ _ g | .xor _ _ g | .cas64 _ _ g | .cas128 _ _ g | .cmd _ _ g => g.ok
  | .resp _ _ r | .readData _ _ r => r.ok
  | .reassemblyTimeout _ r _ | .flagRelease _ r _ | .flagHoldTimeout _ r _ => fits 16 r
  | .windowInsert _ fn w | .windowRemove _ fn w | .windowOpen _ fn w | .windowRevoke _ fn w => fnOk fn && fits 14 w
  | .windowChangeInForce _ fn | .windowDrained _ fn | .connectionWrite _ fn _ => fnOk fn
  | .atomicWriteback _ l | .hotLineEvict _ l | .hotLine _ l => fits 46 l
  | .egqWrite _ q | .egqRead _ q => fits 13 q
  | .packetStart _ p vl => portOk p && fits 3 vl
  | .sampleRound _ => true
  | .dmaStart _ ch fn _ | .dmaArm _ ch fn _ | .dmaResume _ ch fn _ => fits 7 ch && fnOk fn
  | .dmaAbort _ ch fn | .dmaDoneClear _ ch fn => fits 7 ch && fnOk fn
  | .dmaPhaseTrigger _ ch | .dmaTransferDone _ ch => fits 7 ch
  | .dmaHalt _ ch _ _ a n => fits 7 ch && fits 52 a && fits 41 n
  | .commit _ step => fits 36 step
  | .commitValidationDone _ | .handoffBatchAck _ _ | .meteringPersist _ => true
  | .sliceFree _ n => decide (n < 48)
  | .flashChannelFree _ n => fits 5 n
  | .handoff _ ctx stream _ first count dnode queue _ =>
    fits 32 ctx && fits 20 stream && fits 32 first && fits 32 count && fits 14 dnode && fits 13 queue
  | .forceTeardown _ c | .teardownComplete _ c | .tenantRemoved _ c => fits 4 c
  | .scWatchdogExpiry _ | .scMemoryError _ => true
  | .getVersion _ tr _ | .getCapabilities _ tr _ | .negotiateAlgorithms _ tr _ | .getDigests _ tr _ | .keyExchange _ tr _ | .finish _ tr _
  | .heartbeat _ tr _ | .spdmKeyUpdate _ tr _ | .endSession _ tr _ => tr.ok
  | .getCertificate _ tr _ off len => tr.ok && fits 16 off && fits 16 len
  | .challenge _ tr _ _ => tr.ok
  | .getMeasurements _ tr _ i => tr.ok && fits 8 i
  | .lifecycleSeal _ _ | .lifecycleUnseal _ _ => true
  | .keysInstall _ _ b | .keysUpdate _ _ b | .modelRelease _ _ b | .tenantRemove _ _ b => b.ok
  | .correctedRewrite _ a => fits 52 a
  | .scrubRateHour _ x => decide (x < 24)
  | .faultNotice _ n => n.ok
  | .peerUnreachable _ n => fits 14 n
  | .roleNotice _ r => r.ok
  | .standbyReady _ ring rank => fits 32 ring && fits 8 rank
  | .rebuild _ c r | .sendPiece _ c r | .recontribute _ c r => fits 4 c && r.ok
  | .rebuildSlotComplete _ c _ | .rebuildSlotTimeout _ c _ | .rebuildSlotQuarantineEnd _ c _ => fits 4 c
  | .shadow _ o n sc lc | .load _ o n sc lc => fits 8 o && fits 14 n && fits 4 sc && fits 4 lc
  | .admissionSelfTestDone _ n => fits 32 n
  | .shadowCompare _ b => fits 36 b.step
  | .maintenanceStart _ act subj arg => fits 8 act && fits 16 subj && fits 64 arg
  | .maintenanceStop _ act subj => fits 8 act && fits 16 subj
  | .governorRiseStart _ n => fits 12 n
  | .govCtlWrite _ _ | .idleFallow _ _ => true
  | .powerSample _ w m => fits 16 w && m.all (fits 16)
  | .thermalSample _ l => l.length == 29
  | .pwrWarnAssert _ | .pwrWarnDeassert _ | .shedStageExit _ | .stage6End _ | .holdoverExit _ | .powerResume _ => true
  | .supplySag _ n => decide (n ≤ 100)
  | .shedStageEnter _ n => fits 3 n
  | .perstNAssert _ | .hotReset _ => true
  | .perstNDeassert _ a => fits 2 a
  | .vfFlr _ vf => vfOk vf
  | .doorbell _ vf tail => vfOk vf && fits 8 tail
  | .submissionFetch _ vf e b => vfOk vf && e.ok && b.ok
  | .fetchTimeout _ vf e => vfOk vf && e.all SubEntry.ok
  | .mailboxRead _ vf n _ => vfOk vf && fits 8 n
  | .mailboxRelease _ vf _ => vfOk vf
  | .hostApertureRead _ fn a n es => fnOk fn && fits 52 a && fits 13 n && es.all fun l => l.all fun e => decide (e < 72)
  | .hostApertureWrite _ fn a b => fnOk fn && fits 52 a && decide (b.length ≤ 4096)
  | .registerWrite _ fn off w _ => fnOk fn && fits 28 off && fits 7 w
  | .pdMailboxGo _ m => m.ok
  | .pdpMessage _ tr m => tr.ok && m.ok
  | .pdRead _ p x | .pdWrite _ p x | .pdDescribe _ p x | .pdNext _ p x | .pdDefault _ p x => p.ok && x.ok
  | .pdStagingTimeout _ a b => fits 16 a && fits 8 b
  | .configPersist _ => true
  | .arpRequest _ ip => fits 32 ip
  | .neighbourSolicitation _ ip => fits 128 ip
  | .echoRequest _ ip v6 _ => fits (if v6 then 128 else 32) ip
  | .romVerifyDone _ _ _ | .scStageDone _ _ _ | .zeroisationDone _ | .flashBackgroundEraseDone _ | .orderlyPowerDown _ | .powerDownReady _ => true
  | .hbmTrainingDone _ bad => bad.all fun x => decide (x < 24)
  | .flashTrainingDone _ l r p => decide (l.length ≤ 32) && (l.all fun x => decide (x.length ≤ 8)) && decide (r.length ≤ 32) && decide (p.length ≤ 32)
  | .refclkCoreLoss _ | .refclkFabLoss _ | .refclkPcieLoss _ | .testenHigh _ | .avsRequestTimeout _ | .smbAlertResponse _ => true
  | .bypass _ | .idcode _ | .samplePreload _ _ | .extest _ | .clamp _ | .highz _ | .extestPulse _ | .extestTrain _ => true
  | .privateInstruction _ p => fits 8 p.opcode && p.access.all DebugAccess.ok
  | .pageProgramComplete _ ch _ _ | .blockEraseComplete _ ch _ _ => fits 5 ch
  | .powerRemoved _ | .securityCoreRestart _ | .refclkFabReturn _ | .bootStageRestart _ | .transportKeyGenerated _ | .fwupdateStaged _ => true

end Sys2Proof
end

