-- ==== Sys2Proof/Safety.lean ====
section
/-! DEFINITION. What counts as a safe run, in the terms that claims use. -/

namespace Sys2Proof.Machine

/-- Memory stands in its canonical form: addresses strictly rise, and no entry is zero. -/
def State.memOk (s : State) : Bool := Memory.wf s.mem

/-- A command answers a next state. -/
def Answers (i : Instr) (s : State) : Prop := ∃ t, exec i s = .next t

/-- What no command may disturb: the commands that wait stay as they are, the local timer never runs back, memory keeps its canonical
form, and a free value that has been drawn is never drawn again. -/
structure Steady (s t : State) : Prop where
  queue : t.pending = s.pending
  time  : s.timer ≤ t.timer
  mem   : s.memOk = true → t.memOk = true
  free  : s.free ≤ t.free

/-- A command answers a next state, and the state answered satisfies P. -/
def Yields (i : Instr) (s : State) (P : State → Prop) : Prop := ∃ t, exec i s = .next t ∧ P t

/-- The parts of the state, as the frame of a command names them. -/
inductive Part where
  | timer   -- the local timer
  | clock   -- where the Phase stands and who sets it, with the status of the Phase unit
  | phs     -- the whole Phase unit
  | sch     -- the slot tables and what runs under them
  | pg      -- contexts, silt, composition operations
  | rq      -- requests, searches, corpora
  | hbm     -- the HBM stacks, their near-memory units and the address directory
  | tier    -- flash, movement, leases
  | lnk     -- ports and links
  | rmo     -- remote operations, windows, connections, commits
  | egq     -- egress queues and DMA
  | cmp     -- compositions
  | sec     -- the Security Core
  | rel     -- recovery
  | pwr     -- power, clocks and the governor
  | hif     -- the host interface
  | vals    -- the values that the Parameter Directory holds
  | pd      -- the whole Parameter Directory, with its counters, sequences and staging
  | boot    -- boot, fuses and pins
  | mem     -- every byte of HBM and tile SRAM
  | out     -- what the node has sent
  | free    -- how many free values have been drawn
  deriving DecidableEq, Repr

/-- What the part `clock` holds: the Phase unit but for its enable and source, the stop of scheduled work, and what the running step has
counted. -/
@[reducible] def PhaseSt.clock (p : PhaseSt) : PhaseSt :=
  { p with en := false, src := 0, fwdDone := false, fbAny := false, breaches := 0 }

/-- The part stands in `t` as it stood in `s`. -/
def Part.same (p : Part) (s t : State) : Prop :=
  match p with
  | .timer => t.timer = s.timer
  | .clock => t.phs.clock = s.phs.clock
  | .phs => t.phs = s.phs
  | .sch => t.sch = s.sch
  | .pg => t.pg = s.pg
  | .rq => t.rq = s.rq
  | .hbm => t.hbm = s.hbm
  | .tier => t.tier = s.tier
  | .lnk => t.lnk = s.lnk
  | .rmo => t.rmo = s.rmo
  | .egq => t.egq = s.egq
  | .cmp => t.cmp = s.cmp
  | .sec => t.sec = s.sec
  | .rel => t.rel = s.rel
  | .pwr => t.pwr = s.pwr
  | .hif => t.hif = s.hif
  | .vals => t.pd.vals = s.pd.vals
  | .pd => t.pd = s.pd
  | .boot => t.boot = s.boot
  | .mem => t.mem = s.mem
  | .out => t.out = s.out
  | .free => t.free = s.free

end Sys2Proof.Machine
end

