-- ==== Sys2Proof/Frame.lean ====
section
/-! DEFINITION. The frame of every command: the parts of the state it may move, and the unit it belongs to. -/

namespace Sys2Proof.Machine

/-- The units whose commands the table lists. -/
inductive Family where
  | hbm
  | windows
  | contexts
  | remote
  | queues
  | attention
  | search
  | tiers
  | compositions
  | security
  | links
  | recovery
  | schedule
  | phase
  | power
  | quanta
  | master
  | boot
  | directory
  | host
  deriving DecidableEq, Repr

/-- Every part. -/
def allParts : List Part :=
  [.timer, .clock, .phs, .sch, .pg, .rq, .hbm, .tier, .lnk, .rmo, .egq, .cmp, .sec, .rel, .pwr, .hif, .vals, .pd, .boot, .mem, .out, .free]

/-- Every part but some. -/
def allBut (l : List Part) : List Part := allParts.filter fun p => !l.contains p

/-- What an event record moves: it is stored in the event ring in memory or dropped and counted, queued for a composition's own ring,
and signalled (R326, R328). -/
def eventParts : List Part := [.hbm, .rmo, .pd, .boot, .mem, .out]

/-- The unit of a command. -/
def unitOf (i : Instr) : Family :=
  match i with
  | .markLayer _ _ _ => .phase
  | .markStep _ _ _ => .phase
  | .markHold _ _ _ => .phase
  | .markResume _ _ _ => .phase
  | .markSync _ _ _ => .phase
  | .masterLayerBoundary _ => .phase
  | .holdSyncMark _ => .phase
  | .layerMarkLate _ => .phase
  | .tickSaturation _ => .phase
  | .markWaitTimeout _ => .phase
  | .jobStart _ _ _ _ => .phase
  | .claim _ _ _ _ => .phase
  | .claimWindowExpiry _ => .phase
  | .hostMark _ _ => .phase
  | .phsNowRead _ => .phase
  | .stepCompleteReport _ => .phase
  | .stepCompleteReceive _ _ _ _ _ => .phase
  | .barrierTimeout _ => .master
  | .scheduleGo _ _ => .schedule
  | .scheduleCancel _ => .schedule
  | .scheduleValidationDone _ => .schedule
  | .slotStart _ _ => .schedule
  | .slotEnd _ _ => .schedule
  | .requestDispatch _ _ _ => .search
  | .alphaUpdate _ _ => .schedule
  | .bestEffortQuantumStart _ _ => .quanta
  | .coarseningLatch _ => .schedule
  | .attendRequest _ _ _ => .attention
  | .attentionComplete _ _ _ => .attention
  | .ctxCreate _ _ _ => .contexts
  | .ctxFork _ _ _ => .contexts
  | .ctxDelete _ _ _ => .contexts
  | .siltAppend _ _ _ => .contexts
  | .appendAfterRelease _ _ _ => .contexts
  | .siltMirrorAck _ _ _ => .contexts
  | .siltRelease _ _ _ => .contexts
  | .pageMark _ _ _ => .contexts
  | .pageRewrite _ _ _ => .contexts
  | .search _ _ _ => .search
  | .searchComplete _ _ => .search
  | .corpusCreate _ _ _ _ _ _ _ _ _ => .search
  | .recordAppend _ _ _ _ _ _ _ _ => .search
  | .recordDelete _ _ _ _ _ _ => .search
  | .corpusDelete _ _ _ => .search
  | .corpusStorageFree _ _ _ => .search
  | .nmuGrantRequest _ _ _ _ _ => .hbm
  | .nmuClaimComplete _ _ _ => .hbm
  | .nmuComputeComplete _ _ _ _ => .hbm
  | .nmuDrainComplete _ _ _ => .hbm
  | .nmuAbort _ _ _ _ => .hbm
  | .hbmTransfer _ _ _ _ _ => .hbm
  | .refreshSlot _ _ => .hbm
  | .pcaWaymaskWrite _ _ _ _ => .hbm
  | .directoryInsert _ _ _ _ => .hbm
  | .directoryDelete _ _ _ => .hbm
  | .blockMoveComplete _ _ => .hbm
  | .directoryThrottleSample _ _ => .hbm
  | .adirBankcfgWrite _ _ _ => .hbm
  | .nmuGovWrite _ _ _ => .hbm
  | .flashChunkReadComplete _ _ _ _ _ => .tiers
  | .lunTimeout _ _ _ _ _ => .tiers
  | .zqCalibrationShort _ _ => .tiers
  | .leaseEnd _ _ => .tiers
  | .leaseRelease _ _ => .tiers
  | .leaseForcedEnd _ _ => .tiers
  | .tierHintDb _ _ _ => .tiers
  | .pin _ _ _ => .tiers
  | .unpin _ _ _ => .tiers
  | .prefetch _ _ _ => .tiers
  | .dormant _ _ _ => .tiers
  | .dormantComplete _ _ _ => .tiers
  | .wake _ _ _ => .tiers
  | .recallStart _ _ => .tiers
  | .recallComplete _ _ => .tiers
  | .moveComplete _ _ => .tiers
  | .weightStreamDone _ _ => .tiers
  | .dataFlitReceive _ _ _ _ _ => .links
  | .controlFlitReceive _ _ _ _ _ => .master
  | .replayTimeout _ _ => .links
  | .delayReq _ _ _ => .links
  | .delayRsp _ _ _ _ => .links
  | .portEnable _ _ _ => .links
  | .retrain _ _ _ => .links
  | .trainingComplete _ _ _ _ => .links
  | .retrainAttemptFailed _ _ => .links
  | .trainingTimeout _ _ => .links
  | .laneAlignmentLoss _ _ _ _ => .links
  | .fecLimit _ _ => .links
  | .fallowEnter _ _ => .links
  | .fallowExit _ _ => .links
  | .gatewayDatagramReceive _ _ _ _ => .master
  | .gatewayDatagramSend _ _ => .links
  | .gatewayResendTimeout _ _ _ => .remote
  | .faultInjectCtlWrite _ _ _ => .links
  | .faultInjectSeedWrite _ _ _ => .links
  | .read _ _ _ => .remote
  | .write _ _ _ => .remote
  | .add64 _ _ _ => .remote
  | .addf32 _ _ _ => .remote
  | .xor _ _ _ => .remote
  | .cas64 _ _ _ => .remote
  | .cas128 _ _ _ => .remote
  | .cmd _ _ _ => .remote
  | .resp _ _ _ => .remote
  | .readData _ _ _ => .remote
  | .respTimeout _ _ _ => .remote
  | .reassemblyTimeout _ _ _ => .remote
  | .flagRelease _ _ _ => .remote
  | .flagHoldTimeout _ _ _ => .remote
  | .windowInsert _ _ _ => .windows
  | .windowRemove _ _ _ => .windows
  | .windowOpen _ _ _ => .windows
  | .windowRevoke _ _ _ => .windows
  | .windowChangeInForce _ _ => .windows
  | .windowDrained _ _ => .windows
  | .connectionWrite _ _ _ => .windows
  | .atomicWriteback _ _ => .remote
  | .hotLineEvict _ _ => .remote
  | .hotLine _ _ => .remote
  | .egqWrite _ _ => .queues
  | .egqRead _ _ => .queues
  | .packetStart _ _ _ => .queues
  | .sampleRound _ => .queues
  | .dmaStart _ _ _ _ => .queues
  | .dmaArm _ _ _ _ => .queues
  | .dmaAbort _ _ _ => .queues
  | .dmaResume _ _ _ _ => .queues
  | .dmaPhaseTrigger _ _ => .queues
  | .dmaTransferDone _ _ => .queues
  | .dmaHalt _ _ _ _ _ _ => .queues
  | .dmaDoneClear _ _ _ => .queues
  | .commit _ _ => .compositions
  | .commitValidationDone _ => .compositions
  | .sliceFree _ _ => .compositions
  | .flashChannelFree _ _ => .compositions
  | .handoff _ _ _ _ _ _ _ _ _ => .compositions
  | .handoffBatchAck _ _ => .compositions
  | .forceTeardown _ _ => .compositions
  | .teardownComplete _ _ => .compositions
  | .meteringPersist _ => .compositions
  | .scWatchdogExpiry _ => .security
  | .scMemoryError _ => .security
  | .getVersion _ _ _ => .security
  | .getCapabilities _ _ _ => .security
  | .negotiateAlgorithms _ _ _ => .security
  | .getDigests _ _ _ => .security
  | .getCertificate _ _ _ _ _ => .security
  | .challenge _ _ _ _ => .security
  | .getMeasurements _ _ _ _ => .security
  | .keyExchange _ _ _ => .security
  | .finish _ _ _ => .security
  | .heartbeat _ _ _ => .security
  | .spdmKeyUpdate _ _ _ => .security
  | .endSession _ _ _ => .security
  | .lifecycleSeal _ _ => .security
  | .lifecycleUnseal _ _ => .security
  | .keysInstall _ _ _ => .security
  | .keysUpdate _ _ _ => .security
  | .modelRelease _ _ _ => .security
  | .tenantRemove _ _ _ => .security
  | .tenantRemoved _ _ => .security
  | .correctedRewrite _ _ => .recovery
  | .scrubRateHour _ _ => .recovery
  | .faultNotice _ _ => .master
  | .peerUnreachable _ _ => .recovery
  | .roleNotice _ _ => .recovery
  | .standbyReady _ _ _ => .master
  | .rebuild _ _ _ => .recovery
  | .sendPiece _ _ _ => .recovery
  | .recontribute _ _ _ => .recovery
  | .rebuildSlotComplete _ _ _ => .recovery
  | .rebuildSlotTimeout _ _ _ => .recovery
  | .rebuildSlotQuarantineEnd _ _ _ => .recovery
  | .shadow _ _ _ _ _ => .recovery
  | .load _ _ _ _ _ => .recovery
  | .admissionSelfTestDone _ _ => .recovery
  | .shadowCompare _ _ => .recovery
  | .maintenanceStart _ _ _ _ => .recovery
  | .maintenanceStop _ _ _ => .recovery
  | .governorRiseStart _ _ => .power
  | .govCtlWrite _ _ => .power
  | .powerSample _ _ _ => .power
  | .thermalSample _ _ => .power
  | .pwrWarnAssert _ => .power
  | .pwrWarnDeassert _ => .power
  | .supplySag _ _ => .power
  | .shedStageEnter _ _ => .power
  | .stage6End _ => .power
  | .shedStageExit _ => .power
  | .holdoverExit _ => .power
  | .powerResume _ => .power
  | .idleFallow _ _ => .power
  | .perstNAssert _ => .boot
  | .perstNDeassert _ _ => .boot
  | .hotReset _ => .host
  | .vfFlr _ _ => .host
  | .doorbell _ _ _ => .host
  | .submissionFetch _ _ _ _ => .host
  | .fetchTimeout _ _ _ => .host
  | .mailboxRead _ _ _ _ => .host
  | .mailboxRelease _ _ _ => .host
  | .hostApertureRead _ _ _ _ _ => .host
  | .hostApertureWrite _ _ _ _ => .host
  | .registerWrite _ _ _ _ _ => .host
  | .pdMailboxGo _ _ => .directory
  | .pdpMessage _ _ _ => .directory
  | .pdRead _ _ _ => .directory
  | .pdWrite _ _ _ => .directory
  | .pdDescribe _ _ _ => .directory
  | .pdNext _ _ _ => .directory
  | .pdDefault _ _ _ => .directory
  | .pdStagingTimeout _ _ _ => .directory
  | .configPersist _ => .boot
  | .arpRequest _ _ => .directory
  | .neighbourSolicitation _ _ => .directory
  | .echoRequest _ _ _ _ => .directory
  | .romVerifyDone _ _ _ => .boot
  | .scStageDone _ _ _ => .boot
  | .hbmTrainingDone _ _ => .boot
  | .zeroisationDone _ => .boot
  | .flashTrainingDone _ _ _ _ => .boot
  | .flashBackgroundEraseDone _ => .boot
  | .orderlyPowerDown _ => .boot
  | .powerDownReady _ => .boot
  | .refclkCoreLoss _ => .boot
  | .refclkFabLoss _ => .boot
  | .refclkPcieLoss _ => .host
  | .testenHigh _ => .boot
  | .avsRequestTimeout _ => .boot
  | .smbAlertResponse _ => .boot
  | .bypass _ => .boot
  | .idcode _ => .boot
  | .samplePreload _ _ => .boot
  | .extest _ => .boot
  | .clamp _ => .boot
  | .highz _ => .boot
  | .extestPulse _ => .boot
  | .extestTrain _ => .boot
  | .privateInstruction _ _ => .boot
  | .pageProgramComplete _ _ _ _ => .tiers
  | .blockEraseComplete _ _ _ _ => .tiers
  | .powerRemoved _ => .boot
  | .securityCoreRestart _ => .power
  | .refclkFabReturn _ => .boot
  | .bootStageRestart _ => .boot
  | .transportKeyGenerated _ => .security
  | .fwupdateStaged _ => .recovery

/-- The parts of the state that a command may move, on any operands and in any state. -/
def touches (i : Instr) : List Part :=
  match i with
  | .markLayer _ _ _ => allParts
  | .markStep _ _ _ => allParts
  | .markHold _ _ _ => allParts
  | .markResume _ _ _ => allParts
  | .markSync _ _ _ => allParts
  | .masterLayerBoundary _ => allParts
  | .holdSyncMark _ => [.timer, .clock, .phs, .hbm, .lnk, .out, .free]
  | .layerMarkLate _ => [.timer, .clock, .phs]
  | .tickSaturation _ => allBut [.sec, .vals]
  | .markWaitTimeout _ => allBut [.sec, .vals]
  | .jobStart _ _ _ _ => allParts
  | .claim _ _ _ _ => [.timer, .clock, .phs, .lnk]
  | .claimWindowExpiry _ => allParts
  | .hostMark _ _ => allBut [.lnk]
  | .phsNowRead _ => [.timer, .clock, .phs, .out]
  | .stepCompleteReport _ => allParts
  | .stepCompleteReceive _ _ _ _ _ => allParts
  | .barrierTimeout _ => allParts
  | .scheduleGo _ _ => [.timer, .sch]
  | .scheduleCancel _ => [.timer, .sch]
  | .scheduleValidationDone _ => [.timer, .sch]
  | .slotStart _ _ => allBut [.clock, .lnk, .sec, .vals]
  | .slotEnd _ _ => allBut [.clock, .lnk, .sec, .vals]
  | .requestDispatch _ _ _ => allBut [.clock, .lnk, .cmp, .sec, .pwr, .vals, .free]
  | .alphaUpdate _ _ => [.timer, .sch]
  | .bestEffortQuantumStart _ _ => allBut [.clock, .lnk, .sec, .vals]
  | .coarseningLatch _ => [.timer, .hbm, .rmo, .cmp, .pd, .mem]
  | .attendRequest _ _ _ => [.timer, .phs, .sch, .rq, .tier, .egq, .hif] ++ eventParts
  | .attentionComplete _ _ _ => [.timer, .phs, .sch, .rq, .hbm, .tier, .rmo, .egq, .rel, .hif, .pd, .mem, .out]
  | .ctxCreate _ _ _ => allBut [.clock, .lnk, .sec, .pwr, .vals]
  | .ctxFork _ _ _ => allBut [.clock, .lnk, .sec, .pwr, .vals]
  | .ctxDelete _ _ _ => allBut [.clock, .lnk, .sec, .pwr, .vals]
  | .siltAppend _ _ _ => allBut [.clock, .lnk, .sec, .pwr, .vals]
  | .appendAfterRelease _ _ _ => allBut [.clock, .lnk, .sec, .pwr, .vals]
  | .siltMirrorAck _ _ _ => [.timer, .phs, .sch, .pg, .rq, .hbm, .rmo, .egq, .hif, .pd, .mem, .out, .free]
  | .siltRelease _ _ _ => [.timer, .pg, .hbm, .mem]
  | .pageMark _ _ _ => allBut [.clock, .lnk, .sec, .pwr, .vals]
  | .pageRewrite _ _ _ => allBut [.clock, .lnk, .sec, .pwr, .vals]
  | .search _ _ _ => [.timer, .phs, .sch, .rq, .egq, .hif] ++ eventParts
  | .searchComplete _ _ => [.timer, .phs, .sch, .rq, .hbm, .rmo, .egq, .hif, .pd, .mem, .out]
  | .corpusCreate _ _ _ _ _ _ _ _ _ => allBut [.clock, .pg, .lnk, .cmp, .sec, .rel, .pwr, .vals]
  | .recordAppend _ _ _ _ _ _ _ _ => [.timer, .phs, .sch, .rq, .tier, .egq, .hif] ++ eventParts
  | .recordDelete _ _ _ _ _ _ => [.timer, .phs, .sch, .rq, .egq, .hif] ++ eventParts
  | .corpusDelete _ _ _ => [.timer, .phs, .sch, .rq, .egq, .hif] ++ eventParts
  | .corpusStorageFree _ _ _ => [.timer, .rq]
  | .nmuGrantRequest _ _ _ _ _ => [.timer, .hbm, .rel, .pd, .mem]
  | .nmuClaimComplete _ _ _ => allBut [.clock, .phs, .sch, .pg, .cmp, .sec, .pwr, .vals]
  | .nmuComputeComplete _ _ _ _ => allBut [.clock, .lnk, .sec, .pwr, .vals]
  | .nmuDrainComplete _ _ _ => allBut [.clock, .phs, .sch, .sec, .pwr, .vals]
  | .nmuAbort _ _ _ _ => allBut [.clock, .sec, .pwr, .vals]
  | .hbmTransfer _ _ _ _ _ => allBut [.clock, .sch, .sec, .pwr, .vals]
  | .refreshSlot _ _ => [.timer, .hbm, .pd]
  | .pcaWaymaskWrite _ _ _ _ => [.timer, .hbm]
  | .directoryInsert _ _ _ _ => [.timer, .hbm]
  | .directoryDelete _ _ _ => [.timer, .hbm]
  | .blockMoveComplete _ _ => [.timer, .hbm, .rmo]
  | .directoryThrottleSample _ _ => [.timer, .hbm]
  | .adirBankcfgWrite _ _ _ => [.timer, .hbm]
  | .nmuGovWrite _ _ _ => [.timer, .hbm]
  | .flashChunkReadComplete _ _ _ _ _ => [.timer, .phs, .rq, .tier, .egq, .hif] ++ eventParts
  | .lunTimeout _ _ _ _ _ => [.timer, .phs, .rq, .tier, .egq, .hif] ++ eventParts
  | .zqCalibrationShort _ _ => [.timer, .tier, .out]
  | .leaseEnd _ _ => [.timer, .tier, .egq, .free]
  | .leaseRelease _ _ => [.timer, .hbm, .tier]
  | .leaseForcedEnd _ _ => [.timer, .pg, .hbm, .mem]
  | .tierHintDb _ _ _ => [.timer, .pg, .rq, .hbm, .tier, .egq, .mem, .out, .free]
  | .pin _ _ _ => [.timer, .pg, .rq, .hbm, .tier, .mem]
  | .unpin _ _ _ => [.timer, .pg, .hbm, .mem]
  | .prefetch _ _ _ => [.timer, .rq, .tier]
  | .dormant _ _ _ => [.timer, .pg, .rq, .hbm, .tier, .egq, .mem, .out, .free]
  | .dormantComplete _ _ _ => [.timer, .pg, .tier, .egq, .cmp, .rel, .free] ++ eventParts
  | .wake _ _ _ => [.timer, .rq, .tier]
  | .recallStart _ _ => [.timer, .tier, .egq, .pd, .out]
  | .recallComplete _ _ => [.timer, .pg, .tier, .egq, .cmp, .rel, .free] ++ eventParts
  | .moveComplete _ _ => [.timer, .pg, .tier, .egq, .cmp, .rel, .free] ++ eventParts
  | .weightStreamDone _ _ => [.timer, .phs, .sch, .hbm, .tier, .rmo, .egq, .pd, .mem, .out]
  | .dataFlitReceive _ _ _ _ _ => [.timer, .phs, .rq, .hbm, .tier, .lnk, .rmo, .egq, .hif, .pd, .boot, .out]
  | .controlFlitReceive _ _ _ _ _ => allParts
  | .replayTimeout _ _ => [.timer, .lnk, .free] ++ eventParts
  | .delayReq _ _ _ => [.timer, .lnk, .out, .free]
  | .delayRsp _ _ _ _ => [.timer, .lnk]
  | .portEnable _ _ _ => [.timer, .lnk, .egq, .free] ++ eventParts
  | .retrain _ _ _ => [.timer, .lnk, .egq, .free] ++ eventParts
  | .trainingComplete _ _ _ _ => [.timer, .lnk, .egq, .free] ++ eventParts
  | .retrainAttemptFailed _ _ => [.timer, .lnk, .free] ++ eventParts
  | .trainingTimeout _ _ => [.timer, .lnk, .egq] ++ eventParts
  | .laneAlignmentLoss _ _ _ _ => [.timer, .lnk, .egq, .free] ++ eventParts
  | .fecLimit _ _ => [.timer, .lnk, .free] ++ eventParts
  | .fallowEnter _ _ => [.timer, .lnk, .free] ++ eventParts
  | .fallowExit _ _ => [.timer, .lnk, .free] ++ eventParts
  | .gatewayDatagramReceive _ _ _ _ => allParts
  | .gatewayDatagramSend _ _ => [.timer, .lnk, .rmo, .egq, .pd, .out]
  | .gatewayResendTimeout _ _ _ => [.timer, .lnk] ++ eventParts
  | .faultInjectCtlWrite _ _ _ => [.timer, .lnk] ++ eventParts
  | .faultInjectSeedWrite _ _ _ => [.timer, .lnk]
  | .read _ _ _ => allBut [.clock, .sec, .pwr, .vals]
  | .write _ _ _ => allBut [.clock, .sec, .pwr, .vals]
  | .add64 _ _ _ => allBut [.clock, .sec, .pwr, .vals]
  | .addf32 _ _ _ => allBut [.clock, .sec, .pwr, .vals]
  | .xor _ _ _ => allBut [.clock, .sec, .pwr, .vals]
  | .cas64 _ _ _ => allBut [.clock, .sec, .pwr, .vals]
  | .cas128 _ _ _ => allBut [.clock, .sec, .pwr, .vals]
  | .cmd _ _ _ => allBut [.clock, .sec, .pwr, .vals]
  | .resp _ _ _ => allBut [.clock, .sch, .cmp, .sec, .pwr, .vals, .free]
  | .readData _ _ _ => allBut [.clock, .sch, .cmp, .sec, .pwr, .vals, .free]
  | .respTimeout _ _ _ => allBut [.clock, .sch, .lnk, .cmp, .sec, .pwr, .vals, .free]
  | .reassemblyTimeout _ _ _ => [.timer, .lnk] ++ eventParts
  | .flagRelease _ _ _ => allBut [.clock, .sec, .pwr, .vals]
  | .flagHoldTimeout _ _ _ => [.timer, .lnk, .rmo, .out]
  | .windowInsert _ _ _ => [.timer, .hbm, .rmo]
  | .windowRemove _ _ _ => [.timer, .hbm, .rmo]
  | .windowOpen _ _ _ => [.timer, .hbm, .rmo]
  | .windowRevoke _ _ _ => [.timer, .hbm, .rmo]
  | .windowChangeInForce _ _ => [.timer, .hbm, .rmo]
  | .windowDrained _ _ => [.timer] ++ eventParts
  | .connectionWrite _ _ _ => [.timer, .rmo]
  | .atomicWriteback _ _ => [.timer, .hbm, .lnk, .rmo, .mem, .out]
  | .hotLineEvict _ _ => [.timer, .hbm, .lnk, .rmo, .mem, .out]
  | .hotLine _ _ => [.timer, .lnk] ++ eventParts
  | .egqWrite _ _ => [.timer, .egq]
  | .egqRead _ _ => [.timer, .egq]
  | .packetStart _ _ _ => allBut [.clock, .sch, .cmp, .sec, .pwr, .vals, .free]
  | .sampleRound _ => [.timer, .hbm, .egq, .pd, .mem, .out]
  | .dmaStart _ _ _ _ => [.timer, .egq, .pd, .out]
  | .dmaArm _ _ _ _ => [.timer, .egq, .pd, .out]
  | .dmaAbort _ _ _ => [.timer, .egq, .pd, .out]
  | .dmaResume _ _ _ _ => [.timer, .egq, .pd, .out]
  | .dmaPhaseTrigger _ _ => [.timer, .egq, .pd, .out]
  | .dmaTransferDone _ _ => [.timer, .hbm, .egq, .pd, .mem, .out]
  | .dmaHalt _ _ _ _ _ _ => [.timer, .hbm, .egq, .pd, .mem, .out]
  | .dmaDoneClear _ _ _ => [.timer, .egq]
  | .commit _ _ => [.timer, .cmp]
  | .commitValidationDone _ => [.timer, .cmp]
  | .sliceFree _ _ => [.timer, .hbm, .cmp, .mem]
  | .flashChannelFree _ _ => [.timer, .tier, .cmp]
  | .handoff _ _ _ _ _ _ _ _ _ => [.timer, .egq, .cmp]
  | .handoffBatchAck _ _ => [.timer, .egq, .cmp]
  | .forceTeardown _ _ => allBut [.clock, .sch, .sec, .pwr, .vals]
  | .teardownComplete _ _ => [.timer, .hbm, .cmp, .mem]
  | .meteringPersist _ => [.timer, .cmp, .pd]
  | .scWatchdogExpiry _ => allBut [.clock, .sch, .pwr, .vals]
  | .scMemoryError _ => allBut [.clock, .sch, .pwr, .vals]
  | .getVersion _ _ _ => [.timer, .sec, .out]
  | .getCapabilities _ _ _ => [.timer, .sec, .out]
  | .negotiateAlgorithms _ _ _ => [.timer, .sec, .out]
  | .getDigests _ _ _ => [.timer, .out]
  | .getCertificate _ _ _ _ _ => [.timer, .out]
  | .challenge _ _ _ _ => [.timer, .out, .free]
  | .getMeasurements _ _ _ _ => [.timer, .out]
  | .keyExchange _ _ _ => [.timer, .sec, .out, .free]
  | .finish _ _ _ => [.timer, .sec, .out]
  | .heartbeat _ _ _ => [.timer, .out]
  | .spdmKeyUpdate _ _ _ => [.timer, .sec, .out]
  | .endSession _ _ _ => [.timer, .sec, .out]
  | .lifecycleSeal _ _ => [.timer, .sec] ++ eventParts
  | .lifecycleUnseal _ _ => [.timer, .sec] ++ eventParts
  | .keysInstall _ _ _ => [.timer, .rq, .cmp, .hif] ++ eventParts
  | .keysUpdate _ _ _ => [.timer, .cmp] ++ eventParts
  | .modelRelease _ _ _ => [.timer, .tier, .sec] ++ eventParts
  | .tenantRemove _ _ _ => allBut [.clock, .sch, .pwr, .vals]
  | .tenantRemoved _ _ => [.timer, .cmp] ++ eventParts
  | .correctedRewrite _ _ => allBut [.clock, .sch, .sec, .pwr, .vals]
  | .scrubRateHour _ _ => [.timer, .rel]
  | .faultNotice _ _ => allParts
  | .peerUnreachable _ _ => [.timer, .lnk, .rel] ++ eventParts
  | .roleNotice _ _ => [.timer, .pg, .lnk, .egq, .rel, .vals, .free] ++ eventParts
  | .standbyReady _ _ _ => allParts
  | .rebuild _ _ _ => [.timer, .egq, .rel]
  | .sendPiece _ _ _ => [.timer, .egq]
  | .recontribute _ _ _ => [.timer, .egq]
  | .rebuildSlotComplete _ _ _ => [.timer, .pg, .tier, .egq, .rel, .free] ++ eventParts
  | .rebuildSlotTimeout _ _ _ => [.timer, .pg, .egq, .rel] ++ eventParts
  | .rebuildSlotQuarantineEnd _ _ _ => [.timer, .rel]
  | .shadow _ _ _ _ _ => [.timer, .rel]
  | .load _ _ _ _ _ => [.timer, .rel]
  | .admissionSelfTestDone _ _ => allBut [.clock, .sch, .sec, .pwr, .vals]
  | .shadowCompare _ _ => [.timer, .pg, .rq, .tier, .rel] ++ eventParts
  | .maintenanceStart _ _ _ _ => [.timer, .lnk, .rel, .free] ++ eventParts
  | .maintenanceStop _ _ _ => [.timer, .rel]
  | .governorRiseStart _ _ => [.timer, .pwr, .pd]
  | .govCtlWrite _ _ => [.timer, .pwr, .vals, .pd]
  | .powerSample _ _ _ => [.timer, .pwr, .free] ++ eventParts
  | .thermalSample _ _ => allBut [.clock, .sch, .pg, .cmp, .sec, .vals]
  | .pwrWarnAssert _ => [.timer, .pwr, .boot]
  | .pwrWarnDeassert _ => [.timer, .pwr, .boot]
  | .supplySag _ _ => [.timer, .pwr, .boot]
  | .shedStageEnter _ _ => allBut [.clock, .sec, .vals]
  | .stage6End _ => [.timer, .pwr] ++ eventParts
  | .shedStageExit _ => allBut [.clock, .lnk, .sec, .vals]
  | .holdoverExit _ => [.timer, .pwr] ++ eventParts
  | .powerResume _ => allBut [.clock, .lnk, .sec, .vals]
  | .idleFallow _ _ => allBut [.clock, .lnk, .sec, .vals]
  | .perstNAssert _ => allBut [.out, .free]
  | .perstNDeassert _ _ => [.timer, .sec, .pd, .boot, .free]
  | .hotReset _ => [.timer, .pg, .rq, .hif, .pd]
  | .vfFlr _ _ => [.timer, .pg, .rq, .hif]
  | .doorbell _ _ _ => [.timer, .hif, .out]
  | .submissionFetch _ _ _ _ => allBut [.clock, .lnk, .sec, .pwr, .vals]
  | .fetchTimeout _ _ _ => [.timer, .hif, .pd, .out, .free]
  | .mailboxRead _ _ _ _ => [.timer, .hif, .out]
  | .mailboxRelease _ _ _ => [.timer, .hif, .pd, .out]
  | .hostApertureRead _ _ _ _ _ => allBut [.sch, .pg, .cmp, .sec, .pwr, .vals]
  | .hostApertureWrite _ _ _ _ => allParts
  | .registerWrite _ _ _ _ _ => allParts
  | .pdMailboxGo _ _ => allParts
  | .pdpMessage _ _ _ => allParts
  | .pdRead _ _ _ => allParts
  | .pdWrite _ _ _ => allParts
  | .pdDescribe _ _ _ => allParts
  | .pdNext _ _ _ => allParts
  | .pdDefault _ _ _ => allParts
  | .pdStagingTimeout _ _ _ => [.timer, .pd]
  | .configPersist _ => [.timer, .pd]
  | .arpRequest _ _ => [.timer, .out]
  | .neighbourSolicitation _ _ => [.timer, .out]
  | .echoRequest _ _ _ _ => [.timer, .out]
  | .romVerifyDone _ _ _ => [.timer, .sec, .hif, .boot, .free]
  | .scStageDone _ _ _ => allBut [.clock, .sch, .rq, .tier, .egq, .cmp, .rel, .free]
  | .hbmTrainingDone _ _ => [.timer, .cmp, .sec, .boot]
  | .zeroisationDone _ => [.timer, .hbm, .rmo, .sec, .boot, .mem]
  | .flashTrainingDone _ _ _ _ => allBut [.clock, .sch, .pg, .lnk, .rel, .pwr, .vals, .free]
  | .flashBackgroundEraseDone _ => [.timer, .phs, .rq, .tier, .egq, .hif] ++ eventParts
  | .orderlyPowerDown _ => allBut [.clock, .sec, .vals]
  | .powerDownReady _ => [.timer, .cmp, .pwr, .pd]
  | .refclkCoreLoss _ => [.timer, .phs, .rq, .lnk, .egq, .hif] ++ eventParts
  | .refclkFabLoss _ => [.timer, .lnk, .free] ++ eventParts
  | .refclkPcieLoss _ => [.timer, .pg, .rq, .hif, .pd, .boot]
  | .testenHigh _ => allBut [.out, .free]
  | .avsRequestTimeout _ => [.timer] ++ eventParts
  | .smbAlertResponse _ => [.timer, .boot]
  | .bypass _ => [.timer, .boot]
  | .idcode _ => [.timer, .boot]
  | .samplePreload _ _ => [.timer, .boot]
  | .extest _ => [.timer, .phs, .rq, .lnk, .egq, .hif] ++ eventParts
  | .clamp _ => [.timer, .phs, .rq, .lnk, .egq, .hif] ++ eventParts
  | .highz _ => [.timer, .phs, .rq, .lnk, .egq, .hif] ++ eventParts
  | .extestPulse _ => [.timer, .phs, .rq, .lnk, .egq, .hif] ++ eventParts
  | .extestTrain _ => [.timer, .phs, .rq, .lnk, .egq, .hif] ++ eventParts
  | .privateInstruction _ _ => [.timer, .hbm, .pd, .boot, .mem, .out]
  | .pageProgramComplete _ _ _ _ => [.timer, .phs, .rq, .tier, .egq, .hif] ++ eventParts
  | .blockEraseComplete _ _ _ _ => [.timer, .phs, .rq, .tier, .egq, .hif] ++ eventParts
  | .powerRemoved _ => allBut [.out, .free]
  | .securityCoreRestart _ => allBut [.clock, .lnk, .pwr, .vals]
  | .refclkFabReturn _ => [.timer, .lnk] ++ eventParts
  | .bootStageRestart _ => [.timer, .boot]
  | .transportKeyGenerated _ => [.timer, .cmp, .sec]
  | .fwupdateStaged _ => [.timer, .rel]

end Sys2Proof.Machine
end

