-- ==== Sys2Proof/Certificates/Slice0/Obligations.lean ====
section
/-! DEFINITION. The statements for the provers. -/

namespace Sys2Proof.Machine

/-- Every test of R31 and R33, and of the timing of R34 and R35, under which a node that is not the master takes a mark: one of the master of
its term, or of a candidate where it knows no master yet and the mark is a STEP. -/
structure MarkTaken (s : State) (port : Nat) (m : Mark) : Prop where
  ready  : s.ready = true
  loop   : (s.port port).loop = false
  en     : s.phs.en = true
  src    : s.phs.src = 0
  term   : s.phs.start.map (·.term) = some m.term
  typ    : m.typ < 5
  hops   : m.hops ≤ 14
  master : s.phs.masterId = some m.master ∨ (s.phs.masterId = none ∧ m.typ = 1 ∧ bitmapHas (s.pd.bytes 0x7004 1) m.master = true)
  other  : m.master ≠ s.nodeId
  fresh  : m.seq ∉ s.phs.seen
  timing : (s.measureMark port m).1 = false

/-- The next layer boundary: layer 0 of the next step after the last layer. -/
def State.nextBase (s : State) : Phase :=
  if s.lastLayer then mkPhase (s.step + 1) 0 0 else mkPhase s.step (phLayer s.phs.base + 1) 0

/-- Every test that a context operation passes before it runs (R85, R106, R347, R456, R517): it is the operation its envelope says, with a deadline only at a node that has SYNC, from a composition that serves, and no operation waits at any tile. -/
structure OpTaken (s : State) (src : Source) (op : Nat) (r : CtxReq) (job comp : Nat) (k : Comp) : Prop where
  ready  : s.ready = true
  goes   : s.noAdmission = false
  source : s.sourceOf src = (job, comp)
  path   : s.pathOf src comp job r.env.rnode ≠ none
  comp   : s.comp? comp = some k
  serves : k.st = .active ∨ k.st = .shrinking
  dl     : r.env.dl = true → s.phs.sync = true
  kind   : r.env.kind = 2
  op     : r.op = op
  epoch  : s.epochOk src = true
  opq    : s.pg.opq = []

/-- The stream of a job's context holds `x`. -/
def StrmIs (s : State) (job ctx stream : Nat) (P : Strm → Prop) : Prop := ∃ x, s.strm? job ctx stream = some x ∧ P x

/-- A segment that is its whole message, for this node, that passes every check of R311 and whose message is new (R313, R314). -/
structure SegmentPasses (s : State) (op : Nat) (g : Segment) (w : Win) : Prop where
  ready : s.ready = true
  dest  : g.fdest = s.nodeId
  check : s.checkSeg op true g = .pass w
  opc   : g.opc = op
  one   : segCount g = 1
  off   : g.off = 0
  plain : g.flag = false
  fresh : s.reasm? g.rcid g.cseq = none
  room  : s.rmo.reasm.length < 4096

/-- Every test that a corpus management operation passes before it runs (R85, R106, R160, R517): from a composition that serves, with a
deadline only at a node that has SYNC, in the map epoch of the node. -/
structure CorpusTaken (s : State) (src : Source) (env : Envelope) (job comp : Nat) : Prop where
  ready  : s.ready = true
  goes   : s.noAdmission = false
  source : s.sourceOf src = (job, comp)
  path   : s.pathOf src comp job env.rnode ≠ none
  serves : s.compRefusal comp = none
  dl     : env.dl = true → s.phs.sync = true
  kind   : env.kind = 3
  epoch  : s.epochOk src = true

/-- The blocks of flash channel `ch` leave it working: it has failed already, or no more blocks than its spares and 2% of all are retired. -/
def FlashHolds (ch : Nat) (f : Flash) : Prop :=
  let total := max 1 (Config.flashBlocks ch)
  f.failed = true ∨ f.retired - (total * 7 + 99) / 100 ≤ total * 2 / 100

/-- The byte `a` is in no descriptor, grain, parity map entry and pool entry in HBM of the `n` pages of a stream from page `first` on. -/
def OutsidePages (s : State) (x : Strm) (first n a : Nat) : Prop :=
  ∀ i, first ≤ i → i < first + n → (∀ d, x.walk i = some d → a < d ∨ d + 16 ≤ a) ∧ (∀ g, x.grainPlace i = some g → a < g ∨ g + 64 ≤ a) ∧
    (∀ m, x.mapPlace i = some m → a < m ∨ m + 4 ≤ a) ∧
    (∀ p e, x.pages[i]? = some p → p.desc.borrowed = true → look s.pg.pool p.desc.frame = some e → a < e.npa ∨ e.npa + 16 ≤ a)

/-- A page of a stream stands after a hint as before it but for TPIN, which is `on` for the pages that the hint names. -/
def TpinSet (h : Hint) (on : Bool) (x y : Strm) : Prop :=
  y.pages.length = x.pages.length ∧ y.npages = x.npages ∧ ∀ (i : Nat) (p : Page), x.pages[i]? = some p → p.desc.borrowed = false →
    ∃ q, y.pages[i]? = some q ∧ q.desc = { p.desc with tpin := if h.first ≤ i ∧ i < h.first + hintPages h x then on else p.desc.tpin } ∧
      q.grain = p.grain ∧ q.pmap = p.pmap

/-- An SPDM request that the Security Core answers (R386): it runs, the transport carries SPDM, and the message is valid for slot 0. -/
structure SpdmHeard (s : State) (tr : Transport) (m : Spdm) : Prop where
  up    : s.sec.up = true
  tr    : spdmTransport tr = true
  valid : m.valid = true
  slot  : m.slot = 0

/-- A port that carries flits (R268, R284, R291): on, in the fabric mode, not looped, up or fallow, and on no move between the two. -/
structure Carrying (s : State) (port : Nat) : Prop where
  en   : (s.port port).en = true
  mode : (s.port port).mode = 0
  loop : (s.port port).loop = false
  move : (s.port port).moving = false
  st   : (s.port port).st = .up ∨ (s.port port).st = .fallow
  port : port < 8

/-- A port stands as `y` says, but for what sending moves: its records and slots to come, and its place in the sequence of fault injection. -/
def PortIs (y x : Port) : Prop := x = { y with ctlRecs := x.ctlRecs, slotAt := x.slotAt, lfsr := x.lfsr, corrAt := x.corrAt }

/-- A control flit that `P` describes is to leave on the lanes of port `p`. -/
def CtlOut (v : State) (p : Nat) (P : CtlFlit → Prop) : Prop := ∃ g lanes f, .control p g lanes f (ctlCrc f) ∈ v.out ∧ P f

/-- The control flit in the next group of a port that stood as `x` at the time `now` is one that `P` describes. -/
def CtlNext (v : State) (p : Nat) (x : Port) (now : Nat) (P : CtlFlit → Prop) : Prop :=
  ∃ f, .control p (x.groupAt now) x.laneNos f (ctlCrc f) ∈ v.out ∧ P f

/-- The data flits that left by a port, the latest first. -/
def flitsOut (p : Nat) (l : List Out) : List Flit := l.filterMap fun o => match o with
  | .flit q _ _ f _ => if q = p then some f else none
  | _ => none

/-- The datagram of some packets for a group leaves by a port under the next sequence number of the far side. -/
def DatagramOut (s v : State) (group port vl : Nat) (pkts : List Segment) : Prop :=
  let far := bitsOf (s.pdNum 0x4120 group) 16 14
  let seq := lookD s.rmo.gseq far 0
  v.out = .datagram group seq pkts (s.gwVia port (gwHead vl s.nodeId far pkts.length seq ++
    (pkts.map fun g => leBytes 4 (gwBody g).length ++ padMul 4 (gwBody g)).flatten)) :: s.out ∧
  lookD v.rmo.gseq far 0 = seq + 1 ∧ v.rmo.dgrams = s.rmo.dgrams

/-- A Directory entry whose write only sets its value (R501): it is none of those that act on compositions, forward entries, life cycle or
as commands. -/
structure PlainEntry (index sub : Nat) (e : PdEntry) : Prop where
  found : pdFind index sub = some e
  reads : e.op ≠ .wo
  comp  : e.index ≠ 0x5010
  ways  : e.index ≠ 0x3050
  link  : e.index ≠ 0x4210
  fwd   : e.index < 0x5100 ∨ 0x510F < e.index
  life  : e.index ≠ 0x6001

/-- The commands of the request path: contexts, remote operations, queues, attention, search, HBM and windows. -/
def onRequestPath (i : Instr) : Bool :=
  match unitOf i with
  | .hbm | .windows | .contexts | .remote | .queues | .attention | .search => true
  | _ => false

/-- The commands of time, tiers, compositions, links and recovery. -/
def onFabric (i : Instr) : Bool :=
  match unitOf i with
  | .tiers | .compositions | .links | .recovery | .schedule | .phase | .quanta | .master => true
  | _ => false

/-- The commands of security, power, boot, the Parameter Directory and the host. -/
def onManagement (i : Instr) : Bool :=
  match unitOf i with
  | .security | .power | .boot | .directory | .host => true
  | _ => false

/-- A command completes and keeps its frame: in every state, with whatever operands, it answers a next state, whose waiting commands, time,
memory form and free values are steady, and in which every part of the state that `touches` does not list stands as before. -/
def Framed (i : Instr) : Prop :=
  ∀ s, ∃ t, exec i s = .next t ∧ Steady s t ∧ ∀ p, p ∉ touches i → p.same s t

end Sys2Proof.Machine

open Sys2Proof Sys2Proof.Machine

/-- For every state, port and mark that passes the tests of R31 and R33 with its timing within R35. At a node that has SYNC, a LAYER mark that
names a later layer of the running step, and a STEP mark that names layer 0 of the next step, make the named boundary the base Phase and the
mark the last mark taken, with its compensated arrival time; HELD is clear. Without a sequence gap the boundary is the next one; after a gap
the layers between are entered on the way. At a node without SYNC, the STEP mark of the first step of the start record sets SYNC at layer 0
of that step. A mark that comes from a fabric port while the host or the node itself is the source, that has made 15 hops, or whose term is
not that of the start record leaves the Phase unit as it was. -/
def Obligations.BoundaryMarksMoveThePhase : Prop :=
  ∀ (s : State) (t port : Nat) (m : Mark), let u := s.arrive t;
    let taken (v : State) := v.phs.base = m.phase ∧ v.phs.held = false ∧ v.phs.sync = true ∧ v.phs.prev = some m ∧
      v.phs.prevTc = (u.timer : Int) - (s.port port).delay - m.resid
    (MarkTaken u port m → s.phs.sync = true → m.typ = 0 → phLayer s.phs.base < phLayer m.phase → phLayer m.phase < s.layers →
      m.phase = mkPhase s.step (phLayer m.phase) 0 → ((u.measureMark port m).2.1 = false → phLayer m.phase = phLayer s.phs.base + 1) →
      Yields (.markLayer t port m) s taken) ∧
    (MarkTaken u port m → s.phs.sync = true → m.typ = 1 → phLayer s.phs.base < s.layers → s.layers ≤ 4096 → m.phase = mkPhase (s.step + 1) 0 0 →
      ((u.measureMark port m).2.1 = false → phLayer s.phs.base + 1 = s.layers) → Yields (.markStep t port m) s taken) ∧
    (∀ st, MarkTaken u port m → s.phs.sync = false → m.typ = 1 → s.phs.start = some st → m.phase = mkPhase st.step 0 0 →
      Yields (.markStep t port m) s taken) ∧
    (s.phs.src ≠ 0 ∨ 14 < m.hops ∨ s.phs.start.map (·.term) ≠ some m.term →
      Yields (.markLayer t port m) s (fun v => v.phs = s.phs) ∧ Yields (.markStep t port m) s (fun v => v.phs = s.phs))

/-- For every mark that passes the tests of R31 and R33 with its timing within R35: HOLD sets HELD and freezes the Phase at the PHASE of the
mark; RESUME clears HELD and sets the Phase to the boundary the mark names; SYNC during a HOLD leaves the boundary and HELD as they are and
becomes the last mark taken, with its compensated arrival time. -/
def Obligations.HoldResumeAndSyncMarks : Prop :=
  ∀ (s : State) (t port : Nat) (m : Mark), MarkTaken (s.arrive t) port m →
    (m.typ = 2 → Yields (.markHold t port m) s fun v => v.phs.held = true ∧ v.phs.base = m.phase ∧ v.phs.prev = some m) ∧
    (m.typ = 3 → Yields (.markResume t port m) s fun v => v.phs.held = false ∧
      v.phs.base = mkPhase (phStep m.phase) (phLayer m.phase) 0) ∧
    (m.typ = 4 → s.phs.held = true → Yields (.markSync t port m) s fun v => v.phs.held = true ∧ v.phs.base = s.phs.base ∧
      v.phs.prev = some m ∧ v.phs.prevTc = ((s.arrive t).timer : Int) - (s.port port).delay - m.resid)

/-- For every state of a ready node. A master in step, not held, in a layer before the last, moves to the next layer when a nominal period has
run and its last mark is the LAYER mark it sends for that boundary. A held master whose period has run sends a SYNC mark and stays at its
boundary. A candidate whose claim window has ended becomes master, with the first step of the start record at layer 0, SYNC set, and SEQ 0
used for its STEP mark. -/
def Obligations.MasterSendsMarks : Prop :=
  ∀ (s : State) (t : Nat), s.ready = true →
    (s.phs.en = true → s.phs.master = true → s.phs.sync = true → s.phs.held = false → s.phs.fwdDone = false → s.lastLayer = false →
      s.period ≤ (s.arrive t).elapsed →
      Yields (.masterLayerBoundary t) s fun v => v.phs.base = mkPhase s.step (phLayer s.phs.base + 1) 0 ∧
        v.phs.prev = some ⟨mkPhase s.step (phLayer s.phs.base + 1) 0, (s.arrive t).timer, s.phs.mseq, 0, s.period, s.nodeId, s.phs.term, 0, 0⟩ ∧
        v.phs.mseq = s.phs.mseq + 1) ∧
    (s.phs.master = true → s.phs.held = true → s.period ≤ (s.arrive t).elapsed →
      Yields (.holdSyncMark t) s fun v => v.phs.base = s.phs.base ∧ v.phs.held = true ∧
        v.phs.prev = some ⟨s.phs.base, (s.arrive t).timer, s.phs.mseq, 0, s.period, s.nodeId, s.phs.term, 4, 0⟩ ∧
        v.phs.mseq = s.phs.mseq + 1) ∧
    (∀ t0 st, s.phs.cand = some t0 → s.phs.start = some st → t0 + us * s.pdNum 0x7006 0 ≤ (s.arrive t).timer →
      Yields (.claimWindowExpiry t) s fun v => v.phs.master = true ∧ v.phs.masterId = some s.nodeId ∧ v.phs.sync = true ∧
        v.phs.base = mkPhase st.step 0 0 ∧ v.phs.mseq = 1)

/-- For every state. Before the last layer, a node that waits for a mark of another node sets LATE once more than the nominal period and 64
ticks have run, and its slots are those of the layer it is in until the mark arrives; a tick saturated at 65,535 is a time-base fault. In
the last layer neither happens, the tick stays at 65,535, and the fault comes only when PD 0x7030.00 ticks and one period have run after the
nominal end of the layer. A time-base fault leaves no slot, request or search to run, sets TBFAULT, and leaves the job to be restarted. -/
def Obligations.LateMarksAndTimeBaseFaults : Prop :=
  ∀ (s : State) (t : Nat), s.waitsMark = true → let u := s.arrive t;
    let faulted (v : State) := v.phs.tbfault = true ∧ v.slotsNow = [] ∧ v.rq.reqs = [] ∧ v.rq.searches = [] ∧ v.rel.restarted = true ∧
      v.phs.base = s.phs.base
    (∀ e ∈ u.slotsNow, e.2.any = true ∨ e.2.layer = phLayer s.phs.base) ∧
    (s.lastLayer = false → (s.period + 64 < u.elapsed → exec (.layerMarkLate t) s = .next { u with phs := { s.phs with late := true } }) ∧
      (u.elapsed ≤ s.period + 64 → exec (.layerMarkLate t) s = .next u) ∧
      (65535 ≤ u.elapsed → Yields (.tickSaturation t) s faulted) ∧ (u.elapsed < 65535 → exec (.tickSaturation t) s = .next u)) ∧
    (s.lastLayer = true → exec (.layerMarkLate t) s = .next u ∧ exec (.tickSaturation t) s = .next u ∧
      (65535 ≤ u.elapsed → s.phs.prev ≠ none → phTick u.phase = 65535) ∧
      (2 * s.period + s.pdNum 0x7030 0 ≤ u.elapsed → Yields (.markWaitTimeout t) s faulted) ∧
      (u.elapsed < 2 * s.period + s.pdNum 0x7030 0 → exec (.markWaitTimeout t) s = .next u))

/-- For every state of a ready node. A start record whose TERM is new and whose member and candidate bits fit the node is taken: it is the
record held, its TERM is the term, the last mark and the master are forgotten, SYNC, MASTER and HELD are clear, and the node is a candidate
from then on if it is eligible, else none. An eligible node that is its own Phase source becomes master at once, in step at layer 0 of the
first step. A record that does not fit, or has the TERM of the last one, changes nothing but the time. A claim of the same TERM and Job ID
from a lower Node ID ends the candidacy; any other claim leaves the Phase unit as it was. A claim moves no context and no byte of memory. -/
def Obligations.StartRecordAndClaims : Prop :=
  ∀ (s : State) (t : Nat) (term : BitVec 16) (job step : Nat), s.ready = true →
    let fits := bitmapHas (s.pd.bytes 0x7004 1) s.nodeId = s.pdBool 0x7003 1 ∧ bitmapHas (s.pd.bytes 0x7004 0) s.nodeId = true ∧
      s.phs.start.map (·.term) ≠ some term
    (fits → s.phs.src ≠ 2 ∨ s.pdBool 0x7003 1 = false → Yields (.jobStart t term job step) s fun v =>
      v.phs.start = some ⟨term, job, step % 2 ^ 36⟩ ∧ v.phs.term = term ∧ v.phs.sync = false ∧ v.phs.master = false ∧ v.phs.held = false ∧
      v.phs.prev = none ∧ v.phs.masterId = none ∧ v.phs.cand = (if s.pdBool 0x7003 1 then some (s.arrive t).timer else none)) ∧
    (fits → s.phs.src = 2 → s.pdBool 0x7003 1 = true → Yields (.jobStart t term job step) s fun v =>
      v.phs.start = some ⟨term, job, step % 2 ^ 36⟩ ∧ v.phs.term = term ∧ v.phs.master = true ∧ v.phs.masterId = some s.nodeId ∧
      v.phs.sync = true ∧ v.phs.held = false ∧ v.phs.base = mkPhase (step % 2 ^ 36) 0 0) ∧
    (¬ fits → exec (.jobStart t term job step) s = .next (s.arrive t)) ∧
    (∀ (node : Nat), Yields (.claim t term node job) s fun v => v.mem = s.mem ∧ v.pg = s.pg ∧
      v.phs = (if (∃ st, s.phs.start = some st ∧ st.term = term ∧ st.job = job) ∧ node < s.nodeId then { s.phs with cand := none } else s.phs))

/-- For every state of a ready node with the Phase timer enabled and host marks chosen. A first host mark that names layer 0 and tick 0 advances
TERM by 1, sets SYNC and makes that boundary the base Phase. A later host mark that names the boundary next after the base makes it the base
Phase, where it begins no step that the host has not been shown as complete. A mark whose tick is not zero sets BADMARK and moves nothing
else. A read of PHS_NOW_LO answers Phase [31:0], latches Phase [63:32] and moves nothing else. The Phase is its step in [63:28], layer in
[27:16] and tick in [15:0]; while it runs, its tick is 0 at the arrival of the mark of a boundary, counts one for each 16 units of 250 ps
that the timer moves at the corrected rate, and stays at 65,535 from there on. -/
def Obligations.HostMarksAndPhaseReads : Prop :=
  ∀ (s : State) (t : Nat) (hi : BitVec 32), s.ready = true →
    (s.phs.src = 1 → s.phs.en = true → phTick (hi ++ s.phs.markLo) = 0 → phLayer (hi ++ s.phs.markLo) = 0 → s.phs.hostTerm = false →
      Yields (.hostMark t hi) s fun v => v.phs.term = s.phs.term + 1 ∧ v.phs.sync = true ∧ v.phs.held = false ∧
        v.phs.base = mkPhase (phStep (hi ++ s.phs.markLo)) 0 0 ∧ v.phs.hostTerm = true) ∧
    (s.phs.src = 1 → s.phs.en = true → phTick (hi ++ s.phs.markLo) = 0 → s.phs.hostTerm = true → phLayer s.phs.base < s.layers →
      s.layersTo (hi ++ s.phs.markLo) = 1 → phLayer (hi ++ s.phs.markLo) < s.layers →
      phLayer (hi ++ s.phs.markLo) ≠ 0 ∨ (s.hif.stepV = true ∧ s.hif.step = s.step) →
      Yields (.hostMark t hi) s fun v => v.phs.base = hi ++ s.phs.markLo ∧ v.phs.term = s.phs.term) ∧
    (s.phs.src = 1 → s.phs.en = true → phTick (hi ++ s.phs.markLo) ≠ 0 →
      exec (.hostMark t hi) s = .next { s.arrive t with phs := { s.phs with badmark := true } }) ∧
    (exec (.phsNowRead t) s = .next { s.arrive t with
      phs := { s.phs with nowHi := (s.arrive t).phase.extractLsb' 32 32 }
      out := .regRead 0 0x100008 (((s.arrive t).phase.setWidth 32).setWidth 64) :: s.out }) ∧
    (∀ p : Phase, p.toNat = phStep p * 2 ^ 28 + phLayer p * 2 ^ 16 + phTick p ∧ phStep p < 2 ^ 36 ∧ phLayer p < 2 ^ 12 ∧ phTick p < 2 ^ 16) ∧
    (s.phs.held = false → s.phs.en = true → s.phs.prev ≠ none → phStep s.phase = phStep s.phs.base ∧ phLayer s.phase = phLayer s.phs.base ∧
      phTick s.phase = min 65535 s.elapsed ∧ ((s.timer : Int) = s.phs.prevTc → s.elapsed = 0) ∧
      (∀ n : Nat, s.phs.rate = 1 → (s.timer : Int) = s.phs.prevTc + n → s.elapsed = n / 16))

/-- For every state of a ready node. In the last layer, with every slot, result and append of the step finished, the node marks its report sent
and the step as its last complete one; in single-card mode the step is shown to the host with vector 2, and a member places the 16 bytes of
R43 for its master in the outbound management ring, where that has room. A master that receives a report of the running step from a node
holds it once; when every member of the bitmap has reported and it is not held, it moves to layer 0 of the next step. -/
def Obligations.StepReports : Prop :=
  ∀ (s : State) (t : Nat), s.ready = true → s.phs.sync = true → s.phs.held = false → s.lastLayer = true →
    (s.phs.reported = false → (s.arrive t).stepDone = true →
      (s.single = true → Yields (.stepCompleteReport t) s fun v => v.phs.reported = true ∧ v.rel.lastDone = s.step ∧
        v.hif.step = s.step ∧ v.hif.stepV = true ∧ v.out = .msix 0 2 :: s.out) ∧
      (s.single = false → s.phs.master = false → s.lnk.mgmtOut.length < mgmtMost → Yields (.stepCompleteReport t) s fun v => v.phs.reported = true ∧ v.rel.lastDone = s.step ∧
        v.lnk.mgmtOut = s.lnk.mgmtOut ++
          [(s.phs.masterId.getD 0, leBytes 8 s.step ++ leBytes 2 s.nodeId ++ leBytes 2 (min s.phs.breaches 0xFFFF) ++
            leBytes 1 (if s.phs.fbAny then 1 else 0) ++ [0, 0, 0])])) ∧
    (∀ (node breaches : Nat) (fb : Bool), s.phs.master = true → node ∉ s.phs.reports →
      ({ s with phs := { s.phs with reports := node :: s.phs.reports } }).allReported = false →
      Yields (.stepCompleteReceive t s.step node breaches fb) s fun v => v.phs.reports = node :: s.phs.reports ∧ v.phs.base = s.phs.base) ∧
    (∀ (node breaches : Nat) (fb : Bool), s.phs.master = true → node ∉ s.phs.reports →
      ({ s with phs := { s.phs with reports := node :: s.phs.reports } }).allReported = true →
      Yields (.stepCompleteReceive t s.step node breaches fb) s fun v => v.phs.base = mkPhase (s.step + 1) 0 0 ∧ v.phs.reports = [] ∧
        v.phs.mseq = s.phs.mseq + 1)

/-- For every state and pseudo-channel whose grant is a raised request, whatever is raised and withdrawn meanwhile. A write of a whole aligned
transfer, and another whose read half has no uncorrectable error, stores exactly its bytes from its address on: memory is the memory before
with those bytes written, so every address outside them reads as before; one that is not a whole aligned transfer holds the next slot too,
so that no grant is decided. A read without an uncorrectable error changes no byte. Either way no other pseudo-channel moves, and the
request is no longer raised unless its port raises it again. Errors in one to three of the 72 bytes of the codeword are corrected, and in
four or five are uncorrectable. -/
def Obligations.HbmTransferMovesOneRequest : Prop :=
  ∀ (s : State) (t g : Nat) (q : ArbReq) (qs : List ArbReq) (ws : List Nat) (errs : List Nat), (s.arb g).grant = some q → q ∈ (s.arb g).raised →
    (∀ bs, q.wr = some bs → isRmw q = false ∨ eccOf errs ≠ .uncorrectable → Yields (.hbmTransfer t g qs ws errs) s fun v =>
      v.mem = Memory.writes s.mem q.npa bs ∧ (∀ a, a < q.npa ∨ q.npa + bs.length ≤ a → Memory.read v.mem a = Memory.read s.mem a) ∧
      (∀ h, h ≠ g → v.arb h = s.arb h) ∧ (qs = [] → q ∉ (v.arb g).raised) ∧ (isRmw q = true → (v.arb g).grant = none)) ∧
    (q.wr = none → eccOf errs ≠ .uncorrectable → Yields (.hbmTransfer t g qs ws errs) s fun v => v.mem = s.mem ∧
      (∀ h, h ≠ g → v.arb h = s.arb h) ∧ (qs = [] → q ∉ (v.arb g).raised)) ∧
    (1 ≤ (errPlaces errs).length → (errPlaces errs).length ≤ 3 → eccOf errs = .corrected) ∧
    (4 ≤ (errPlaces errs).length → (errPlaces errs).length ≤ 5 → eccOf errs = .uncorrectable)

/-- For every state and pseudo-channel g. Where (T + g) mod RS is not 0 nothing but the time changes. Where it is 0 the turn passes to the next
of the 32 banks. If the bank in turn is neither computing, in a granted transfer nor already refreshing, it refreshes for 120 ns. A bank in
compute state has its refresh postponed, by at most 4 in all. A bank in a granted transfer or already refreshing has it postponed up to
three times; after that it is refreshed and the grant of the slot is displaced, whose request stays raised. -/
def Obligations.RefreshIsIssuedOrPostponed : Prop :=
  ∀ (s : State) (t g : Nat), let u := s.arrive t; let a := s.arb g;
    let taken := (∃ q, a.grant = some q ∧ touchesBank q a.bank = true) ∨ a.isRefreshing u.timer a.bank = true
    ((u.refreshTick + g) % u.refreshStep ≠ 0 → exec (.refreshSlot t g) s = .next u) ∧
    ((u.refreshTick + g) % u.refreshStep = 0 → a.bank ∉ a.compute → ¬ taken →
      Yields (.refreshSlot t g) s fun v => (v.arb g).bank = (a.bank + 1) % 32 ∧
        look (v.arb g).refreshing a.bank = some (u.timer + 480) ∧ v.mem = s.mem ∧ v.pd = s.pd) ∧
    ((u.refreshTick + g) % u.refreshStep = 0 → a.bank ∈ a.compute ∨ (taken ∧ lookD a.postponed a.bank 0 < 3) →
      Yields (.refreshSlot t g) s fun v => (v.arb g).bank = (a.bank + 1) % 32 ∧
        look (v.arb g).postponed a.bank = some (min 4 (lookD a.postponed a.bank 0 + 1)) ∧
        (v.arb g).refreshing = a.refreshing ∧ v.mem = s.mem ∧ v.pd = s.pd) ∧
    ((u.refreshTick + g) % u.refreshStep = 0 → a.bank ∉ a.compute → taken → 3 ≤ lookD a.postponed a.bank 0 →
      Yields (.refreshSlot t g) s fun v => (v.arb g).bank = (a.bank + 1) % 32 ∧ (v.arb g).grant = none ∧ (v.arb g).raised = a.raised ∧
        look (v.arb g).refreshing a.bank = some (u.timer + 480) ∧ v.mem = s.mem)

/-- For every state. A request that the node may hand over, within the limits of the governor, of an idle unit, with no held request on its
banks and no search granted the unit, claims its banks; one beyond the limits, with no held request on its banks, is denied and flagged and
leaves the unit idle, and an XOR denied while compute is shed is applied by the atomic unit. A claim whose banks carry no granted transfer
goes on to compute unless compute is shed, and the end of compute, where no waiting operation on a context follows it, buffers the records
of a scan, or the block of memory XORed with the data of a parity operation. A drain of another operation than tamping leaves memory with
the buffered writes in order, a scan returns its records, and the unit is in release. An abort of a computing operation that is no scan,
without an ECC error, discards its writes, leaves the unit aborting and, where no host read waits for the banks, every byte of memory as it
was; a unit that does not compute is not aborted. -/
def Obligations.NmuRunsThroughItsStates : Prop :=
  ∀ (s : State) (t w : Nat) (q : NmuReq), let u := s.arrive t; let ch := q.ch; let n := u.nmu w ch;
    let within := (u.nmuLoad w).1 + u.scanHeld w ch + 1 ≤ (u.gov w).maxnmu ∧ (u.nmuLoad w).2 + q.banks.length ≤ (u.gov w).maxbank ∧ q.banks.length ≤ 8 ∧ s.nmuShed = false
    let unheld := (∀ b ∈ q.banks, u.bankHeld w ch b = false) ∧ (ch ∉ u.scanGrants w ∨ ∃ id seg, q.op = .sketchScan id seg)
    (n.st = .idle → u.nmuMay w ch q.op = true → unheld → within → Yields (.nmuGrantRequest t w ch q.banks { op := q.op, r := q.r, d := q.d, also := [] }) s fun v =>
      v.nmu w ch = ⟨.claim, q.op, q.banks, [], [], 0⟩ ∧ v.mem = s.mem ∧ v.pd = s.pd) ∧
    (n.st = .idle → u.nmuMay w ch q.op = true → unheld → ¬ within → Yields (.nmuGrantRequest t w ch q.banks { op := q.op, r := q.r, d := q.d, also := [] }) s fun v =>
      (v.nmu w ch).st = .idle ∧ (v.gov w).deny = true ∧
      (s.nmuShed = false ∨ (∀ npa data, q.op ≠ .parity npa data) → v.mem = s.mem) ∧
      (∀ npa data, q.op = .parity npa data → s.nmuShed = true → v.mem = Memory.writes s.mem npa (s.xored npa data))) ∧
    (n.st = .claim → (∀ b ∈ n.banks, (s.arb (nmuPc w ch b)).grant = none) → s.nmuShed = false →
      Yields (.nmuClaimComplete t w ch) s fun v => v.nmu w ch = { n with st := .compute } ∧ v.mem = s.mem) ∧
    (n.st = .compute → (∀ id sec chunk, n.op ≠ .grainScan id sec chunk) ∨ s.pg.opq = [] → ∀ fixed, Yields (.nmuComputeComplete t w ch fixed) s fun v => (v.nmu w ch).st = .drain ∧ (v.nmu w ch).banks = n.banks ∧ v.mem = s.mem ∧
      (∀ id sec chunk, n.op = .grainScan id sec chunk → (v.nmu w ch).recs = u.grainRecs id sec chunk) ∧
      (∀ id seg, n.op = .sketchScan id seg → (v.nmu w ch).recs = u.sketchRecs w ch id seg) ∧
      (∀ npa data, n.op = .parity npa data → (v.nmu w ch).writes = [(npa, s.xored npa data)])) ∧
    (n.st = .drain → (∀ j c x p, n.op ≠ .tamp j c x p) → s.hbm.hostHeld = [] → (∀ p ∈ n.writes, isHbm p.1 = true) →
      Yields (.nmuDrainComplete t w ch) s fun v => (v.nmu w ch).st = .release ∧ (v.nmu w ch).writes = [] ∧
        v.mem = n.writes.foldl (fun m p => Memory.writes m p.1 p.2) s.mem ∧
        ((∀ npa data, n.op ≠ .parity npa data) → v.out = .nmuResult w ch n.recs :: s.out)) ∧
    (n.st = .compute → s.hbm.hostHeld = [] → (∀ id sec chunk, n.op ≠ .grainScan id sec chunk) → (∀ id seg, n.op ≠ .sketchScan id seg) →
      Yields (.nmuAbort t w ch false) s fun v => (v.nmu w ch).st = .abort ∧ (v.nmu w ch).writes = [] ∧ (v.gov w).abort = true ∧ v.mem = s.mem) ∧
    (∀ ecc, n.st ≠ .compute → exec (.nmuAbort t w ch ecc) s = .next u)

/-- For every state of a ready node. A governor write stores at most 8 units and at most 64 banks and its lock, and changes nothing once locked.
A way-mask write that would overlap the mask another composition has or is to have sets ERR and leaves every mask; one that overlaps none
waits for the step boundary. A bank-configuration write to an unlocked empty bank that is not moving stores width and class; to a bank that
holds entries it leaves them as they are. -/
def Obligations.HbmRegisterWrites : Prop :=
  ∀ (s : State) (t : Nat) (v : BitVec 32), s.ready = true →
    (∀ w, (s.gov w).lock = false → Yields (.nmuGovWrite t w v) s fun x => (x.gov w).maxnmu = min 8 (bitsOf v.toNat 0 4) ∧
      (x.gov w).maxbank = min 64 (bitsOf v.toNat 8 7) ∧ (x.gov w).lock = bitAt v.toNat 31 ∧ x.mem = s.mem) ∧
    (∀ w, (s.gov w).lock = true → exec (.nmuGovWrite t w v) s = .next (s.arrive t)) ∧
    (∀ q c d, d < 16 → d ≠ c → s.hbm.wantWays q d &&& BitVec.ofNat 16 (bitsOf v.toNat 0 16) ≠ 0 →
      Yields (.pcaWaymaskWrite t q c v) s fun x => 16 * q + c ∈ x.hbm.wayErr ∧ x.hbm.ways = s.hbm.ways ∧ x.hbm.waysNext = s.hbm.waysNext) ∧
    (∀ q c, (∀ d < 16, d ≠ c → s.hbm.wantWays q d &&& BitVec.ofNat 16 (bitsOf v.toNat 0 16) = 0) →
      BitVec.ofNat 16 (bitsOf v.toNat 0 16) ≠ lookD s.hbm.ways (16 * q + c) 0 →
      Yields (.pcaWaymaskWrite t q c v) s fun x => x.hbm.ways = s.hbm.ways ∧
        look x.hbm.waysNext (16 * q + c) = some (BitVec.ofNat 16 (bitsOf v.toNat 0 16))) ∧
    (∀ n, (s.adirBank n).lock = false → (s.adirBank n).entries = [] → (s.adirBank n).moves = [] → bitsOf v.toNat 0 2 ≠ 3 →
      Yields (.adirBankcfgWrite t n v) s fun x => (x.adirBank n).width = bitsOf v.toNat 0 2 ∧ (x.adirBank n).cls = bitsOf v.toNat 2 3 ∧
        (x.adirBank n).lock = bitAt v.toNat 31) ∧
    (∀ n, (s.adirBank n).lock = false → (s.adirBank n).entries ≠ [] →
      Yields (.adirBankcfgWrite t n v) s fun x => (x.adirBank n).width = (s.adirBank n).width ∧ (x.adirBank n).cls = (s.adirBank n).cls ∧
        (x.adirBank n).entries = (s.adirBank n).entries ∧ (x.adirBank n).lock = bitAt v.toNat 31)

/-- For every state. An insertion of a new key queues a move in the bank of its class with the most room; one of a key that the directory holds
or is inserting changes nothing. A deletion takes the key out at once and queues a move; one of a key that is not held changes nothing. The
end of the first move of a bank begins the next: after an insertion the bank holds the key with its value and every other key as before,
after a deletion its entries stand. A temperature sample after the sixteenth sets the throttle step from the temperature, never under the
floor, and before it holds step 3. None of them changes a byte of memory. -/
def Obligations.DirectoryEntriesMoveInAndOut : Prop :=
  ∀ (s : State) (t cls key : Nat) (vals : List (BitVec 64)),
    (∀ b, s.adirEntry cls key = none → s.adirMoving cls key = false → s.adirBest cls = some b →
      Yields (.directoryInsert t cls key vals) s fun v => (v.adirBank b).moves = (s.adirBank b).moves ++ [⟨true, key, vals, none⟩] ∧
        (v.adirBank b).entries = (s.adirBank b).entries ∧ v.mem = s.mem) ∧
    (s.adirEntry cls key ≠ none ∨ s.adirMoving cls key = true → exec (.directoryInsert t cls key vals) s = .next (s.arrive t)) ∧
    (∀ b, s.adirWhere cls key = some b → Yields (.directoryDelete t cls key) s fun v =>
      look (v.adirBank b).entries key = none ∧ (v.adirBank b).moves = (s.adirBank b).moves ++ [⟨false, key, [], none⟩] ∧ v.mem = s.mem) ∧
    (s.adirWhere cls key = none → exec (.directoryDelete t cls key) s = .next (s.arrive t)) ∧
    (∀ b rest, (s.adirBank b).moves = ⟨true, key, vals, none⟩ :: rest → Yields (.blockMoveComplete t b) s fun v =>
      look (v.adirBank b).entries key = some vals ∧ (v.adirBank b).moves = rest ∧
      (∀ k, k ≠ key → look (v.adirBank b).entries k = look (s.adirBank b).entries k) ∧ v.mem = s.mem) ∧
    (∀ b rest, (s.adirBank b).moves = ⟨false, key, vals, none⟩ :: rest → Yields (.blockMoveComplete t b) s fun v =>
      (v.adirBank b).entries = (s.adirBank b).entries ∧ (v.adirBank b).moves = rest ∧ v.mem = s.mem) ∧
    (∀ temp, 15 ≤ s.hbm.samples → Yields (.directoryThrottleSample t temp) s fun v =>
      v.hbm.adirStep = max s.hbm.adirFloor (throttleStep s.hbm.adirStep temp) ∧ v.hbm.samples = 16 ∧ v.mem = s.mem) ∧
    (∀ temp, s.hbm.samples < 15 → Yields (.directoryThrottleSample t temp) s fun v => v.hbm.adirStep = 3 ∧ v.hbm.samples = s.hbm.samples + 1 ∧ v.mem = s.mem)

/-- For every state of a ready node, function and window. A command given while another runs is ignored and flagged. A command that its checks
refuse records the status and starts nothing. One they allow is recorded as OK and BUSY; for INSERT and REMOVE the move of the window table
has begun. Before 300 ns have passed no command comes into force. When an OPEN comes into force the window is open with the staged base and
size under its generation; when a REVOKE does, the window is closed under the next generation. Then BUSY is clear. Once every operation
admitted under the revoked generations has ended and its lines are written back, DRAINED reads 1. -/
def Obligations.WindowCommandsTakeAndEnd : Prop :=
  ∀ (s : State) (t : Nat) (fn win : Nat), s.ready = true → let r := s.wregs fn; let job := s.winJob fn r;
    (r.busy = true → exec (.windowOpen t fn win) s = .next ((s.arrive t).setWregs fn { r with ign := true })) ∧
    (r.busy = false → s.winCheck fn 3 job r win ≠ .ok → Yields (.windowOpen t fn win) s fun v =>
      (v.wregs fn).busy = false ∧ (v.wregs fn).status = s.winCheck fn 3 job r win ∧ v.hbm = s.hbm) ∧
    (r.busy = false → s.winCheck fn 1 job r win = .ok → Yields (.windowInsert t fn win) s fun v =>
      (v.wregs fn).busy = true ∧ (v.wregs fn).op = 1 ∧ (v.wregs fn).status = .ok ∧ (v.wregs fn).win = win ∧
      ∃ b m, m ∈ (v.adirBank b).moves ∧ m.ins = true ∧ m.key = winKey job win ∧ m.fn = some fn) ∧
    (r.busy = false → s.winCheck fn 2 job r win = .ok → Yields (.windowRemove t fn win) s fun v =>
      (v.wregs fn).busy = true ∧ (v.wregs fn).op = 2 ∧ (v.wregs fn).status = .ok ∧ (v.wregs fn).win = win ∧
      ∃ b m, m ∈ (v.adirBank b).moves ∧ m.ins = false ∧ m.key = winKey job win ∧ m.fn = some fn) ∧
    (r.busy = false → s.winCheck fn 3 job r win = .ok → Yields (.windowOpen t fn win) s fun v =>
      (v.wregs fn).busy = true ∧ (v.wregs fn).op = 3 ∧ (v.wregs fn).status = .ok ∧ v.hbm = s.hbm) ∧
    (r.busy = false → s.winCheck fn 4 job r win = .ok → Yields (.windowRevoke t fn win) s fun v =>
      (v.wregs fn).busy = true ∧ (v.wregs fn).op = 4 ∧ (v.wregs fn).status = .ok ∧ v.hbm = s.hbm) ∧
    (∀ w, r.busy = true → r.op = 3 → r.since + 1200 ≤ (s.arrive t).timer → s.win? r.job r.win = some w → Yields (.windowChangeInForce t fn) s fun v =>
      (v.wregs fn).busy = false ∧ (v.wregs fn).wgen = w.wgen ∧ ∃ x, v.win? r.job r.win = some x ∧ x.isOpen = true ∧ x.wgen = w.wgen ∧
        x.base = (Win.ofUnits [r.v1, r.v2, r.v3]).base ∧ x.size = (Win.ofUnits [r.v1, r.v2, r.v3]).size) ∧
    (∀ w, r.busy = true → r.op = 4 → r.since + 1200 ≤ (s.arrive t).timer → s.win? r.job r.win = some w →
      lookD s.rmo.oldOps fn [] = [] → s.isDrained (s.drainOf r.job r.win w) = true → Yields (.windowChangeInForce t fn) s fun v =>
      (v.wregs fn).busy = false ∧ (v.wregs fn).drained = true ∧
      (v.wregs fn).wgen = w.wgen + 1 ∧ ∃ x, v.win? r.job r.win = some x ∧ x.isOpen = false ∧ x.wgen = w.wgen + 1) ∧
    ((s.arrive t).timer < r.since + 1200 → exec (.windowChangeInForce t fn) s = .next (s.arrive t)) ∧
    (lookD s.rmo.oldOps fn [] ≠ [] → (∀ d ∈ lookD s.rmo.oldOps fn [], s.isDrained d = true) → Yields (.windowDrained t fn) s fun v =>
      (v.wregs fn).drained = true ∧ look v.rmo.oldOps fn = none)

/-- For every state of a ready node and every write to RMO_CCMD. With GO, from the physical function: a send entry that is idle and was not
written under the same generation is afterwards idle, with the destination, remote index, job and valid bit of RMO_CVAL and the configured
window, and the status is OK; a receive entry without a message under way and not so written is likewise at its start, with the source,
connection, job and valid bit of RMO_CVAL. Where a message of the entry is in flight, the entry stays and the status is BUSY_CONFLICT. A
send INDEX of 8,192 or more is UNSUPPORTED and moves no entry. A write by a virtual function is refused with ACCESS_DENIED and moves no
entry. Without GO, only the selection is stored. -/
def Obligations.ConnectionWritesSetAnEntry : Prop :=
  ∀ (s : State) (t : Nat) (w : BitVec 32), s.ready = true → let idx := bitsOf w.toNat 0 16; let send := bitAt w.toNat 16; let go := bitAt w.toNat 17;
    let c := (s.wregs 0).cval.toNat; let gen := (s.jobGen (bitsOf c 32 24)).1;
    (send = true → go = true → idx < 8192 → (s.sendEnt idx).busy = false → (∀ m ∈ s.queued idx, m.cseq = none) →
      (s.sendEnt idx).wroteGen ≠ some gen →
      Yields (.connectionWrite t 0 w) s fun v => v.sendEnt idx = { SendEnt.off with
        fdest := bitsOf c 0 14, rcid := bitsOf c 16 16, job := bitsOf c 32 24, valid := bitAt c 63
        cwnd := s.pdNum 0x4102 0, wroteGen := some gen } ∧ (v.wregs 0).cstat = .ok ∧ (∀ i, i ≠ idx → v.sendEnt i = s.sendEnt i)) ∧
    (send = true → go = true → idx < 8192 → (s.sendEnt idx).busy = true →
      Yields (.connectionWrite t 0 w) s fun v => v.sendEnt idx = s.sendEnt idx ∧ (v.wregs 0).cstat = .busyConflict) ∧
    (send = true → go = true → 8192 ≤ idx → Yields (.connectionWrite t 0 w) s fun v => v.egq = s.egq ∧ (v.wregs 0).cstat = .unsupported) ∧
    (send = false → go = true → (∀ m ∈ s.rmo.reasm, m.rcid ≠ idx) → (s.recvEnt idx).wroteGen ≠ some gen →
      Yields (.connectionWrite t 0 w) s fun v => v.recvEnt idx = { RecvEnt.off with
        osrc := bitsOf c 0 14, conn := bitsOf c 16 13, job := bitsOf c 32 24, valid := bitAt c 63, wroteGen := some gen } ∧
        (v.wregs 0).cstat = .ok ∧ v.egq = s.egq) ∧
    (send = false → go = true → (∃ m ∈ s.rmo.reasm, m.rcid = idx) →
      Yields (.connectionWrite t 0 w) s fun v => v.recvEnt idx = s.recvEnt idx ∧ (v.wregs 0).cstat = .busyConflict) ∧
    (∀ fn, fn ≠ 0 → go = true → Yields (.connectionWrite t fn w) s fun v => (v.wregs fn).cstat = .accessDenied ∧ v.egq = s.egq ∧
      v.rmo.recv = s.rmo.recv) ∧
    (∀ fn, go = false → exec (.connectionWrite t fn w) s =
      .next ((s.arrive t).setWregs fn { s.wregs fn with cidx := idx, cside := send }))

/-- For every operation that passes the tests before it runs. CTX_CREATE of a new context with an allowed geometry, where frames and directory
room exist, adds one context of the job in the composition with the named layers and groups and empty streams; without them it leaves the
contexts as they are. CTX_FORK that no check refuses adds a child with the geometry and seed of its parent; one that a check refuses leaves
the contexts as they are. CTX_DELETE of a context of the job and composition that the directory finds leaves none of that name; of one that
it does not find it leaves the contexts as they are. -/
def Obligations.ContextsAreCreatedForkedAndDeleted : Prop :=
  ∀ (s : State) (t : Nat) (src : Source) (r : CtxReq) (job comp : Nat) (k : Comp), let u := s.arrive t;
    let free := u.ctx? job r.ctx = none ∧ (∀ c ∈ u.rq.corpora, ¬ (c.job = job ∧ c.ctx = r.ctx ∧ c.dead = false)) ∧
      geometryOk (geometry r).1 (geometry r).2.2 = true ∧ (u.allocPcs comp).any isW = true ∧ u.adirBest 0 ≠ none ∧
      u.keyTaken 0 (ctxKey job r.ctx) = false
    (OpTaken u src 1 r job comp k → free → Yields (.ctxCreate t src r) s fun v => ∃ c, v.pg.ctxs = s.pg.ctxs ++ [c] ∧ c.job = job ∧ c.ctx = r.ctx ∧
      c.comp = comp ∧ c.layers = (geometry r).1 ∧ c.groups = (geometry r).2.1 ∧ c.streams.length = (geometry r).1 * (geometry r).2.1 ∧
      (∀ x ∈ c.streams, x.2.npages = 0 ∧ x.2.toks = [] ∧ x.2.base = 0)) ∧
    (OpTaken u src 1 r job comp k → ¬ free → Yields (.ctxCreate t src r) s fun v => v.pg.ctxs = s.pg.ctxs) ∧
    (∀ p, OpTaken u src 2 r job comp k → u.forkRefusal src job comp r = none → u.ctx? job r.arg0 = some p →
      Yields (.ctxFork t src r) s fun v => ∃ c ∈ v.pg.ctxs, c.ctx = r.ctx ∧ c.job = p.job ∧ c.comp = p.comp ∧ c.layers = p.layers ∧
        c.groups = p.groups ∧ c.seed = p.seed ∧ c.retiring = false ∧ c.dormant = false) ∧
    (OpTaken u src 2 r job comp k → u.forkRefusal src job comp r ≠ none → Yields (.ctxFork t src r) s fun v => v.pg.ctxs = s.pg.ctxs) ∧
    (∀ c, OpTaken u src 3 r job comp k → u.ctxFound job r.ctx = some c → c.job = job → c.comp = comp →
      Yields (.ctxDelete t src r) s fun v => v.ctx? job r.ctx = none) ∧
    (OpTaken u src 3 r job comp k → u.ctxFound job r.ctx = none → Yields (.ctxDelete t src r) s fun v => v.pg.ctxs = s.pg.ctxs)

/-- For every operation that passes the tests before it runs, on a stream of a context of the job and composition that the directory finds. An
append, with a deadline or without, that has its turn and no slot, that R88 allows, that rewrites no token a running request sees and that
fits the line, mirrored or not, leaves the tokens and the committed count as R88 computes them, under the sequence number of the append, and
the pages as they were; one that R88 refuses leaves the stream as it was; one whose turn has not come waits and leaves every context as it
was. PAGE_MARK of pages that are neither moved nor being handed over sets and clears TOMB and SPIN in the range and leaves every other page.
PAGE_REWRITE under the current generation, of a page that no scan has yet to read, leaves a valid page with its TOMB and SPIN, and as many
pages. A release that no dispatched request holds back raises BASE by 16, takes 16 tokens from the line, and changes no byte of memory
outside the line. An append that waited alone, whose turn comes, and that now fits, is applied and waits no longer. The acknowledgement of a
mirror write that has arrived ends the oldest unmirrored append of the stream and moves no context; where a write is still unacknowledged
nothing but the time changes. -/
def Obligations.StreamsAreAppendedMarkedAndRewritten : Prop :=
  ∀ (s : State) (t : Nat) (src : Source) (r : CtxReq) (job comp : Nat) (k : Comp) (c : Ctx) (x : Strm), let u := s.arrive t;
    let load : Load := { cls := 3, comp, bytes := 64 * r.env.blen }
    let r' := u.parsed job r
    let turn := u.flushing x.tile = false ∧ u.bestEffort = true ∧ u.slack comp 3 (BitVec.ofNat 48 (2 ^ x.tile)) (ticksUp (u.boundNs load 1 0)) = true
    u.ctx? job r.ctx = some c → u.ctxFound job r.ctx = some c → c.comp = comp → c.strm? r.stream = some x →
    (∀ x', OpTaken u src 4 r job comp k → (u.admission load (if r.env.dl then some r.env.deadline else none)).slot = none → turn →
      x.append r' = .inr x' → u.settleSeen c x r' = false → x'.toks.length ≤ 64 →
      Yields (.siltAppend t src r) s fun v => StrmIs v job r.ctx r.stream fun y => y.toks = x'.toks ∧ y.commit = x'.commit ∧
        y.base = x.base ∧ y.appseq = r.arg3 ∧ y.pages = x.pages) ∧
    (∀ st, OpTaken u src 4 r job comp k → (u.admission load (if r.env.dl then some r.env.deadline else none)).slot = none → turn →
      x.append r' = .inl st → Yields (.siltAppend t src r) s fun v => v.pg.ctxs = s.pg.ctxs ∧ v.pg.opq = []) ∧
    (OpTaken u src 4 r job comp k → x.tile < 48 → u.flushing x.tile = true →
      Yields (.siltAppend t src r) s fun v => v.pg.ctxs = s.pg.ctxs ∧ v.pg.opq.map (·.req) = [r]) ∧
    (OpTaken u src 5 r job comp k → 1 ≤ r.arg1 → r.arg1 ≤ 512 → r.arg0 + r.arg1 ≤ x.npages → r.arg0 < 2 ^ 27 →
      (∀ p, u.movedTo src job r.ctx r.stream p = none) → (∀ p, u.handing job r.ctx r.stream p = false) →
      Yields (.pageMark t src r) s fun v => StrmIs v job r.ctx r.stream fun y => y.pages.length = x.pages.length ∧ y.npages = x.npages ∧
        (∀ i p, x.pages[i]? = some p → ∃ q, y.pages[i]? = some q ∧
          (if r.arg0 ≤ i ∧ i < r.arg0 + r.arg1 then
            q.desc.tomb = (if bitAt r.arg2 8 then false else if bitAt r.arg2 0 then true else p.desc.tomb) ∧
            q.desc.spin = (if bitAt r.arg2 9 then false else if bitAt r.arg2 1 then true else p.desc.spin) ∧
            q.desc.frame = p.desc.frame
          else q = p))) ∧
    (∀ old, OpTaken u src 6 r job comp k → x.pages[r.arg0]? = some old → r.arg0 < x.npages → r'.toks.length = 16 → u.scanPending job r.ctx r.stream r.arg0 = false →
      u.movedTo src job r.ctx r.stream r.arg0 = none → u.handing job r.ctx r.stream r.arg0 = false → old.desc.borrowed = false →
      r.arg1 % 4096 = old.desc.gen →
      Yields (.pageRewrite t src r) s fun v => StrmIs v job r.ctx r.stream fun y => y.npages = x.npages ∧ y.pages.length = x.pages.length ∧
        ∃ q, y.pages[r.arg0]? = some q ∧ q.desc.valid = true ∧ q.desc.tomb = old.desc.tomb ∧ q.desc.spin = old.desc.spin) ∧
    (∀ e rest, (∀ d ∈ s.pg.ctxs, d.ctx = r.ctx → d = c) → x.rel = e :: rest → (∀ id ∈ e.reqs, u.dispatched.contains id = false) →
      Yields (.siltRelease t r.ctx r.stream) s fun v => (StrmIs v job r.ctx r.stream fun y => y.base = x.base + 16 ∧ y.toks = x.toks.drop 16 ∧
        y.commit = x.commit - 16 ∧ y.rel = rest ∧ y.npages = x.npages) ∧
        ∀ n, (∀ y ∈ x.toks, (slotBytes x y).length = n) → ∀ a, a < x.siltAt ∨ x.siltAt + 64 + 64 * n ≤ a → Memory.read v.mem a = Memory.read s.mem a) ∧
    (∀ (p : PendOp) (x' : Strm), s.pg.opq = [p] → p.late = true → p.req = r → r.op = 4 → u.sourceOf p.src = (job, comp) → u.opTurn p = true →
      x.append r' = .inr x' → u.settleSeen c x r' = false → x'.toks.length ≤ 64 →
      Yields (.appendAfterRelease t r.ctx r.stream) s fun v => v.pg.opq = [] ∧ StrmIs v job r.ctx r.stream fun y => y.toks = x'.toks ∧
        y.commit = x'.commit ∧ y.appseq = r.arg3) ∧
    (∀ m, s.pg.mirr.find? (fun m => m.ctx == r.ctx && m.stream == r.stream) = some m → m.sent = true → m.left = 0 →
      Yields (.siltMirrorAck t r.ctx r.stream) s fun v => v.pg = { s.pg with mirr := s.pg.mirr.filter fun x => x.id != m.id }) ∧
    (∀ m, s.pg.mirr.find? (fun m => m.ctx == r.ctx && m.stream == r.stream) = some m → m.sent = true → m.left ≠ 0 →
      exec (.siltMirrorAck t r.ctx r.stream) s = .next u)

/-- For every one-segment message without FLAG that passes the checks, with the window commands in force that are due by then, at a node whose
atomic unit holds no line. Each finishes its CSEQ at the receive entry. A READ whose message has had no data answered yet leaves every byte
of memory and is answered OK with the bytes that its length names from window base plus address on. A WRITE leaves memory as the store of
its data there leaves it, and is answered OK. A CMD stores its data likewise, hands the bytes of its length, as they then stand there, to
the intake with its window, enters the request that they spell into the request path, and is answered OK. READ and WRITE move no context and
no tier. -/
def Obligations.RemoteReadsWritesAndCommands : Prop :=
  ∀ (s : State) (t : Nat) (g : Segment) (w : Win), let u := (s.arrive t).forceDue; let done := (s.recvEnt g.rcid).finish g.cseq true;
    s.rmo.alines = [] →
    (SegmentPasses u 1 g w → (∀ x ∈ s.rmo.ords, ¬ (x.1 = g.rcid ∧ x.2.1 = g.cseq)) → Yields (.read t true g) s fun v => v.mem = s.mem ∧
      v.recvEnt g.rcid = done ∧ v.pg = s.pg ∧ v.tier = s.tier ∧
      ∃ ce, v.out.head? = some (.response g.osrc g.rcid g.conn g.cseq .ok none ce (s.load (w.base + g.addr) (segSpan g)))) ∧
    (SegmentPasses u 2 g w → Yields (.write t true g) s fun v => v.mem = (u.unitWrite (w.base + g.addr) g.data).mem ∧
      v.recvEnt g.rcid = done ∧ v.pg = s.pg ∧ v.tier = s.tier ∧ ∃ ce, v.out.head? = some (.response g.osrc g.rcid g.conn g.cseq .ok none ce [])) ∧
    (SegmentPasses u 8 g w → let x := ((u.countHot g (w.base + g.addr) g.slen).unitWrite (w.base + g.addr) g.data).finishMsg g true; let bytes := x.load (w.base + g.addr) g.mlen;
      Yields (.cmd t true g) s fun v => v.recvEnt g.rcid = done ∧ v.rq.intake = s.rq.intake ++ [(g.win, bytes)] ∧
      v.mem = (x.handOver g w bytes).mem ∧ v.pg = (x.handOver g w bytes).pg ∧ v.rq = (x.handOver g w bytes).rq ∧
      ∃ ce, v.out.head? = some (.response g.osrc g.rcid g.conn g.cseq .ok none ce []))

/-- For every one-segment atomic message without FLAG that passes the checks, with the window commands in force that are due by then, and lies
in one 64-byte line, at a node whose atomic unit holds no line. The CSEQ is finished at the receive entry, the unit holds exactly that line,
and every byte of memory reads as before. After ADD64, ADDF32 and XOR the line holds, in place of the old elements, the results of the
operation of R299 on them and the operands, and waits for its write-back. After CAS64 and CAS128 it holds the swap value where the old value
equals the compare value, and waits for its write-back, and is otherwise as memory holds it. -/
def Obligations.RemoteAtomicsChangeALineInTheUnit : Prop :=
  ∀ (s : State) (t : Nat) (g : Segment) (w : Win), let u := (s.arrive t).forceDue; let done := (s.recvEnt g.rcid).finish g.cseq true;
    let a := w.base + g.addr; let old := s.load a (segSpan g); let line := s.load (64 * (a / 64)) 64;
    s.rmo.alines = [] → 0 < segSpan g → a % 64 + segSpan g ≤ 64 →
    (SegmentPasses u 3 g w → Yields (.add64 t true g) s fun v => v.mem = s.mem ∧ v.recvEnt g.rcid = done ∧
      ∃ y, v.rmo.alines = [y] ∧ y.line = a / 64 ∧ y.dirty = true ∧ y.data = patch line (a % 64) (atomicBytes 3 old g.data)) ∧
    (SegmentPasses u 4 g w → Yields (.addf32 t true g) s fun v => v.mem = s.mem ∧ v.recvEnt g.rcid = done ∧
      ∃ y, v.rmo.alines = [y] ∧ y.line = a / 64 ∧ y.dirty = true ∧ y.data = patch line (a % 64) (atomicBytes 4 old g.data)) ∧
    (SegmentPasses u 5 g w → Yields (.xor t true g) s fun v => v.mem = s.mem ∧ v.recvEnt g.rcid = done ∧
      ∃ y, v.rmo.alines = [y] ∧ y.line = a / 64 ∧ y.dirty = true ∧ y.data = patch line (a % 64) (atomicBytes 5 old g.data)) ∧
    (SegmentPasses u 6 g w → Yields (.cas64 t true g) s fun v => v.mem = s.mem ∧ v.recvEnt g.rcid = done ∧
      ∃ y, v.rmo.alines = [y] ∧ y.line = a / 64 ∧ y.dirty = decide (g.data.take 8 = old) ∧
        y.data = (if g.data.take 8 = old then patch line (a % 64) (g.data.drop 8) else line)) ∧
    (SegmentPasses u 7 g w → Yields (.cas128 t true g) s fun v => v.mem = s.mem ∧ v.recvEnt g.rcid = done ∧
      ∃ y, v.rmo.alines = [y] ∧ y.line = a / 64 ∧ y.dirty = decide (g.data.take 16 = old) ∧
        y.data = (if g.data.take 16 = old then patch line (a % 64) (g.data.drop 16) else line))

/-- For every message context of a node. When the reassembly time has passed for an incomplete message, or the hold limit for a complete FLAG
message, its context is closed and no receive entry moves. When every earlier message of the connection has finished and the late checks
pass, a held atomic message is applied: its CSEQ is finished at the receive entry and its context is closed. -/
def Obligations.ReassemblyAndFlagHoldsEnd : Prop :=
  ∀ (s : State) (t rcid : Nat) (cseq : BitVec 32) (c : Reasm), let u := s.arrive t;
    s.reasm? rcid cseq = some c →
    (c.whole = false → c.since + s.pdNum 0x4101 0 * us ≤ u.timer → Yields (.reassemblyTimeout t rcid cseq) s fun v =>
      v.reasm? rcid cseq = none ∧ v.rmo.recv = s.rmo.recv ∧ v.pg = s.pg) ∧
    (c.whole = true → c.since + s.pdNum 0x4101 3 * us < u.timer → Yields (.flagHoldTimeout t rcid cseq) s fun v =>
      v.reasm? rcid cseq = none ∧ v.rmo.recv = s.rmo.recv ∧ v.mem = s.mem) ∧
    (∀ w, c.whole = true → c.seg.rcid = rcid → c.seg.cseq = cseq → (s.recvEnt rcid).earlierDone cseq = true → u.forceDue.lateChecks c.seg = .pass w →
      c.seg.opc = 3 → Yields (.flagRelease t rcid cseq) s fun v => v.reasm? rcid cseq = none ∧
        v.recvEnt rcid = (s.recvEnt rcid).finish cseq true)

/-- For every state whose atomic unit holds one changed line, whose bank is not being refreshed, and no response waits: a write-back leaves
memory with the line stored at its address, every address outside its 64 bytes as before, and the line unchanged in the unit; an eviction of
a line unused for 1 µs stores it as well and the unit holds it no longer. A write-back of a line whose bank is being refreshed changes
nothing but the time. A line that is hot in an interval that overlaps none counted before is noted with the end of that interval, and the
unit holds it. -/
def Obligations.AtomicLinesWriteBackAndHotLines : Prop :=
  ∀ (s : State) (t line : Nat) (x : ALine), let u := s.arrive t;
    (s.rmo.alines = [x] → x.line = line → x.dirty = true → s.rmo.aresp = [] → u.lineWaits line = false → Yields (.atomicWriteback t line) s fun v =>
      v.mem = Memory.writes s.mem (64 * line) x.data ∧ v.rmo.alines = [{ x with dirty := false }] ∧
      (∀ b, b < 64 * line ∨ 64 * line + x.data.length ≤ b → Memory.read v.mem b = Memory.read s.mem b)) ∧
    (s.rmo.alines = [x] → x.line = line → x.dirty = true → s.rmo.aresp = [] → u.lineWaits line = false → x.last + us ≤ u.timer → Yields (.hotLineEvict t line) s fun v =>
      v.mem = Memory.writes s.mem (64 * line) x.data ∧ v.rmo.alines = []) ∧
    (u.lineWaits line = true → exec (.atomicWriteback t line) s = .next u) ∧
    (∀ h e, s.rmo.hots = [h] → h.line = line → h.hotTo = some e → (∀ n, h.told = some n → n + us ≤ e) → Yields (.hotLine t line) s fun v =>
      v.rmo.hots.map (·.told) = [some e] ∧ v.heldLine line = true)

/-- For every sender entry with one outstanding message. An OK response to a result of a request, or the data of a READ of a result, that passes
checks 1 and 2 takes the message out of the entry. A timeout below the resend limit keeps it outstanding, counts one more resend and, where
the queue has room, puts the message back at its front. A converted request due at the gateway, none of whose datagrams waits, is packed
again with one more resend below the limit. -/
def Obligations.ResponsesEndOrResendMessages : Prop :=
  ∀ (s : State) (t q : Nat) (o : Outst), let u := s.arrive t; s.ready = true → (s.sendEnt q).outst = [o] →
    (∀ (r : Response) (id : Nat), r.fdest = s.nodeId → r.conn = q → r.cseq = o.cseq → o.msg.prod = .result id → r.status = .ok →
      s.respFine { r with rd := false } = true → s.genOk r.job r.kgen = true →
      Yields (.resp t true r) s fun v => (v.sendEnt q).outst = [] ∧ v.mem = s.mem ∧ v.pg = s.pg) ∧
    (∀ (r : Response) (id : Nat), r.fdest = s.nodeId → r.conn = q → r.cseq = o.cseq → o.msg.prod = .result id →
      s.respFine { r with status := .ok, rd := true } = true → s.genOk r.job r.kgen = true →
      Yields (.readData t true r) s fun v => (v.sendEnt q).outst = [] ∧ v.mem = s.mem ∧ v.pg = s.pg) ∧
    (o.msg.resends < s.pdNum 0x4101 2 → s.inGroup (s.sendEnt q).fdest = true → o.sentAt + s.pdNum 0x4101 1 * us ≤ u.timer →
      (∀ m ∈ s.queued q, m.cseq ≠ some o.cseq) → o.msg.cseq = some o.cseq → s.egq.held = [] → s.roomIn q = true →
      Yields (.respTimeout t q o.cseq) s fun v =>
      (v.sendEnt q).outst = [{ o with msg := { o.msg with off := 0, resends := o.msg.resends + 1 } }] ∧
      (v.queue q).waiting.head? = some { o.msg with off := 0, resends := o.msg.resends + 1, entered := u.timer } ∧ v.mem = s.mem) ∧
    (∀ (g : GwMsg) (conn : Nat) (cseq : BitVec 32), s.rmo.gw = [g] → g.seg.vl ≠ 4 → g.seg.conn = conn → g.seg.cseq = cseq → g.packed = false → (∀ d ∈ s.rmo.dgrams, g.crossing ∉ d.pkts) →
      g.sentAt + s.pdNum 0x4121 0 * us ≤ u.timer → g.resends < s.pdNum 0x4101 2 →
      Yields (.gatewayResendTimeout t conn cseq) s fun v =>
        v.rmo.gw = [{ g with packed := true, since := u.timer, resends := g.resends + 1 }] ∧ v.mem = s.mem)

/-- For every state of a ready node. A WRITE of a configuration that leaves the queue off, of a queue without a waiting or outstanding message,
is answered OK and the queue has the composition, ports, rate and burst of EGQ_CFG. A WRITE that enables a queue and fails a check is
answered with that status and moves no queue. READ is answered OK and shows the configuration word of the queue brought up to the time, and
moves no queue. At every port and lane, an UNSHAPED queue pays for every message and is eligible with any TOKENS or with none. -/
def Obligations.EgressQueueCommands : Prop :=
  ∀ (s : State) (t q : Nat), s.ready = true → let u := s.arrive t; let n := q % 8192; let c := s.egq.cfg.toNat;
    (bitAt c 0 = false → (s.queue n).waiting = [] → (s.sendEnt n).outst = [] → Yields (.egqWrite t q) s fun v =>
      v.egq.cmdStat = .ok ∧ (v.queue n).en = false ∧ (v.queue n).comp = bitsOf c 4 4 ∧
      (v.queue n).ports = BitVec.ofNat 8 (bitsOf c 8 8) ∧ (v.queue n).rate = bitsOf c 16 21 ∧ (v.queue n).burst = bitsOf c 40 24 ∧
      (∀ i, i ≠ n → v.queue i = s.queue i)) ∧
    (∀ st, bitAt c 0 = true → u.egqRefusal n (((s.queue n).settle u.timer).configure c) = some st → Yields (.egqWrite t q) s fun v =>
      v.egq.cmdStat = st ∧ v.egq.qs = s.egq.qs) ∧
    (Yields (.egqRead t q) s fun v => v.egq.cmdStat = .ok ∧ v.egq.cmdQ = n ∧ v.egq.cfg = ((s.queue n).settle u.timer).cfgWord ∧
      v.egq.qs = s.egq.qs) ∧
    (∀ (x : Queue) (tokens : Int) (port vl : Nat), x.unshaped = true → (∀ m, x.paid m = true) ∧
      s.eligible port vl n { x with tokens } = s.eligible port vl n x)

/-- For every state of a ready node and a port that carries the lane with credit and no packet on it. On VL6 the first management message that
takes the port leaves the outbound ring, and messages of the spill list enter the ring as far as it has room. On another lane the first
response or passed-on packet that takes the port leaves; when there is none and some queue is eligible and the queue of the smallest key has
a message at its head, a packet of that queue is sent. A sample round that is due notes its time and raises vector 3. -/
def Obligations.PacketsAndSamplesAreSent : Prop :=
  ∀ (s : State) (t port vl : Nat), let u := s.arrive t; s.ready = true → (s.port port).carries vl = true → s.credits port vl ≠ 0 →
    (∀ f ∈ (s.port port).tx, f.vl ≠ vl) → port < 8 →
    (∀ m, vl = 6 → s.lnk.mgmtOut.find? (fun m => s.bestPort 6 (portList (s.routeMask m.1)) == some port) = some m →
      Yields (.packetStart t port vl) s fun v => v.lnk.mgmtOut = s.lnk.mgmtOut.erase m ++
        s.lnk.mgmtSpill.take (mgmtMost - (s.lnk.mgmtOut.erase m).length) ∧ v.mem = s.mem) ∧
    (∀ k, vl ≠ 6 → s.sends = true → u.nextPkt port vl = some k → Yields (.packetStart t port vl) s fun v =>
      v.lnk.pkts = s.lnk.pkts.erase k ∧ v.egq.held = s.egq.held ∧ v.mem = s.mem) ∧
    (∀ e m, vl ≠ 6 → s.sends = true → u.nextPkt port vl = none → u.dropUnsendable.noteAll.nextQueue port vl = some e → e.2.waiting.head? = some m →
      Yields (.packetStart t port vl) s fun v => ∃ g, Out.packet port vl e.1 g ∈ v.out) ∧
    (s.egq.sampAt + 16 * s.pdNum 0x4220 3 ≤ u.timer → Yields (.sampleRound t) s fun v =>
      v.egq.sampAt = u.timer ∧ v.out.head? = some (.msix 0 3))

/-- For every state of a ready node and a channel that the function owns. START of an idle channel whose transfer a check refuses records the
status and stays idle; START of a local transfer of some bytes that no check refuses runs it from byte 0. ARM of an idle channel without a
Phase trigger arms it. A Phase trigger that is due runs an armed local transfer. ABORT of an armed or halted channel makes it idle. RESUME
of a halted local transfer runs it from where it stands. No byte of memory moves. -/
def Obligations.DmaChannelsRun : Prop :=
  ∀ (s : State) (t ch fn : Nat) (v : BitVec 64), let u := s.arrive t; let d := (s.dma ch).setCtl (v ||| 1).toNat; let e := (s.dma ch).setCtl (v ||| 2).toNat;
    s.ready = true → s.dmaOwns fn ch = true →
    (∀ st, (s.dma ch).st = .idle → bitAt v.toNat 2 = false → bitAt v.toNat 3 = false → u.dmaRefusal ch d = some st →
      Yields (.dmaStart t ch fn v) s fun x => (x.dma ch).st = .idle ∧ (x.dma ch).status = st ∧ (x.dma ch).refused = true ∧ x.mem = s.mem) ∧
    ((s.dma ch).st = .idle → bitAt v.toNat 2 = false → bitAt v.toNat 3 = false → u.dmaRefusal ch d = none → d.skind = false → d.dkind = false →
      0 < d.count → Yields (.dmaStart t ch fn v) s fun x => x.dma ch =
        { d with st := .running, status := .ok, prog := 0, acked := [], bad := none, outst := 0, issued := 0 } ∧ x.mem = s.mem) ∧
    ((s.dma ch).st = .idle → bitAt v.toNat 0 = false → bitAt v.toNat 2 = false → bitAt v.toNat 3 = false → e.trig ≠ 1 →
      Yields (.dmaArm t ch fn v) s fun x => x.dma ch = { e with st := .armed } ∧ x.mem = s.mem) ∧
    ((s.dma ch).st = .armed → (s.dma ch).trig = 1 → u.dmaDue (s.dma ch) = true → s.phs.held = false → u.dmaRefusal ch (s.dma ch) = none →
      (s.dma ch).skind = false → (s.dma ch).dkind = false → 0 < (s.dma ch).count →
      Yields (.dmaPhaseTrigger t ch) s fun x => (x.dma ch).st = .running ∧ (x.dma ch).prog = 0 ∧ x.mem = s.mem) ∧
    ((s.dma ch).st = .armed ∨ (s.dma ch).st = .halted → Yields (.dmaAbort t ch fn) s fun x => (x.dma ch).st = .idle ∧ x.mem = s.mem) ∧
    ((s.dma ch).st = .halted → (s.dma ch).skind = false → (s.dma ch).dkind = false → bitAt v.toNat 2 = false → bitAt v.toNat 6 = false →
      bitAt v.toNat 7 = false → Yields (.dmaResume t ch fn v) s fun x => (x.dma ch).st = .running ∧ (x.dma ch).status = .ok ∧
        (x.dma ch).prog = (s.dma ch).prog ∧ x.mem = s.mem)

/-- For every running channel without an outstanding message whose end fires no other channel. A local transfer that is done stores, from
destination plus progress on, the bytes that its source held, and every address outside them reads as before; the channel is DONE with all
bytes done. An error noted by a remote message halts it with the status, side and address of the error and changes no byte. Clearing DONE of
a done channel makes it idle. -/
def Obligations.DmaTransfersEnd : Prop :=
  ∀ (s : State) (t ch : Nat), let d := s.dma ch; (∀ e ∈ s.egq.dma, ¬ (e.2.trig = 2 ∧ e.2.tch = ch)) →
    (d.st = .running → d.outst = 0 → d.bad = none → d.skind = false → d.dkind = false → d.prog ≤ d.count → d.tch ≠ ch →
      Yields (.dmaTransferDone t ch) s fun x => (x.dma ch).st = .done ∧ (x.dma ch).done = true ∧ (x.dma ch).prog = d.count ∧
        x.mem = Memory.writes s.mem (d.dstA + d.prog) (s.load (d.srcA + d.prog) (d.count - d.prog)) ∧
        (∀ a, a < d.dstA + d.prog ∨ d.dstA + d.count ≤ a → Memory.read x.mem a = Memory.read s.mem a)) ∧
    (∀ a w st wr st' addr prog, d.st = .running → d.outst = 0 → d.bad = some (a, w, st) → Yields (.dmaHalt t ch wr st' addr prog) s fun x =>
      (x.dma ch).st = .halted ∧ (x.dma ch).halt = true ∧ (x.dma ch).status = st ∧ (x.dma ch).dir = w ∧ (x.dma ch).errAddr = a ∧ x.mem = s.mem) ∧
    (∀ fn, s.ready = true → s.dmaOwns fn ch = true → d.st = .done → Yields (.dmaDoneClear t ch fn) s fun x =>
      x.dma ch = { d with done := false, st := .idle } ∧ x.mem = s.mem)

/-- For every management operation that passes the tests before it runs. A creation that nothing refuses adds one corpus of the job with the
named shape and empty segments. A RECORD_APPEND of 1 to 4,096 records of the corpus dimension that fit the capacity appends them to their
segment in order, with one sketch each, and no other segment changes. A RECORD_DELETE of a range of existing records makes exactly the
records of the range tombstones, beside those that were. A CORPUS_DELETE leaves no corpus of that name. The storage of a deleted corpus is
freed once no dispatched search of it runs, and no corpus on which one runs is freed. None of them moves a context or the schedule. -/
def Obligations.CorpusOperationsChangeTheCorpus : Prop :=
  ∀ (s : State) (t : Nat) (src : Source) (env : Envelope) (job comp : Nat), let u := s.arrive t;
    (∀ skb vfmt dim seed nseg segs, CorpusTaken u src env job comp → u.corpusRefusal job comp env.ctx skb vfmt dim nseg segs = none →
      Yields (.corpusCreate t src env skb vfmt dim seed nseg segs) s fun v => v.pg = s.pg ∧ v.sch = s.sch ∧
        ∃ c, v.rq.corpora = s.rq.corpora ++ [c] ∧ c.ctx = env.ctx ∧ c.job = job ∧ c.comp = comp ∧ c.dim = dim ∧ c.vfmt = vfmt ∧
          c.skb = skb ∧ c.dead = false ∧ c.segs.length = segs.length ∧ (∀ g ∈ c.segs, g.recs = [] ∧ g.sks = [] ∧ g.tombs = [])) ∧
    (∀ (c : Corpus) (g : Seg) (n count : Nat) (sk : Bool) (recs : List Rec) (sketches : List Nat), CorpusTaken u src env job comp →
      s.corpus? job env.ctx = some c → s.mapped job env.ctx = true → c.comp = comp → c.segs[n]? = some g → 1 ≤ count → count ≤ 4096 → recs.length = count →
      (sk = true → sketches.length = count) → g.recs.length + count ≤ g.cap → (∀ r ∈ recs, r.vec.length = c.dim) →
      Yields (.recordAppend t src env n count sk recs sketches) s fun v => v.pg = s.pg ∧ v.sch = s.sch ∧
        ∃ d h, v.corpus? job env.ctx = some d ∧ d.segs[n]? = some h ∧ h.recs = g.recs ++ recs ∧ h.sks.length = g.sks.length + count ∧
          h.tombs = g.tombs ∧ (∀ i, i ≠ n → d.segs[i]? = c.segs[i]?)) ∧
    (∀ (c : Corpus) (g : Seg) (n first count : Nat), CorpusTaken u src env job comp →
      s.corpus? job env.ctx = some c → s.mapped job env.ctx = true → c.comp = comp → c.segs[n]? = some g → 1 ≤ count → count ≤ 2 ^ 20 → first + count ≤ g.recs.length →
      Yields (.recordDelete t src env n first count) s fun v => v.pg = s.pg ∧ v.sch = s.sch ∧
        ∃ d h, v.corpus? job env.ctx = some d ∧ d.segs[n]? = some h ∧ h.recs = g.recs ∧ h.sks = g.sks ∧
          (∀ i, i ∈ h.tombs ↔ i ∈ g.tombs ∨ (first ≤ i ∧ i < first + count)) ∧ (∀ i, i ≠ n → d.segs[i]? = c.segs[i]?)) ∧
    (∀ (c : Corpus), CorpusTaken u src env job comp → s.corpus? job env.ctx = some c → s.mapped job env.ctx = true → c.comp = comp →
      Yields (.corpusDelete t src env) s fun v => v.corpus? job env.ctx = none ∧ v.pg = s.pg ∧ v.sch = s.sch) ∧
    (CorpusTaken u src env job comp → s.adirEntry 0 (ctxKey job env.ctx) = none → s.rq.corpora = [] →
      Yields (.corpusDelete t src env) s fun v => v.rq.corpora = [] ∧ v.pg = s.pg ∧ v.sch = s.sch) ∧
    (let busy (c : Corpus) := ∃ x ∈ s.rq.searches, x.running = true ∧ ∃ k, x.snap = some k ∧ k.root = c.root ∧ k.job = c.job ∧ k.ctx = c.ctx;
      (∀ c ∈ s.rq.corpora, busy c → Yields (.corpusStorageFree t job env.ctx) s fun v => c ∈ v.rq.corpora) ∧
      ((∀ c ∈ s.rq.corpora, c.job = job → c.ctx = env.ctx → c.dead = true → ¬ busy c) →
        Yields (.corpusStorageFree t job env.ctx) s fun v =>
          v.rq.corpora = s.rq.corpora.filter (fun c => !(c.job == job && c.ctx == env.ctx && c.dead)) ∧ v.corpus? job env.ctx = s.corpus? job env.ctx))

/-- For every SEARCH of a composition that serves, on a corpus of the job and composition that the directory finds, with fields in range and the
epoch of the node. Where admission does not end it with a cause that R55 refuses outright, one request is queued, not running, under the
next request identifier. Dispatch of the search whose slot may work, or which has no slot while best-effort work may run, some number of its
sectors has slack and it stays within the bytes of the step, while the Phase is not held, starts it on the corpus as it stands at dispatch,
so that a later change of the corpus is not seen. Completion of a dispatched search none of whose stripes an NMU still scans takes it out of
the requests when no sector is left, and otherwise only marks it as waiting for a further quantum. Neither completion nor dispatch changes a
corpus. -/
def Obligations.SearchesRunOnTheCorpusAtDispatch : Prop :=
  ∀ (s : State) (t : Nat), let u := s.arrive t;
    (∀ (src : Source) (r : SearchReq) (job comp : Nat) (c : Corpus), s.ready = true → s.noAdmission = false → u.sourceOf src = (job, comp) →
      u.pathOf src comp job r.env.rnode ≠ none → u.compRefusal comp = none → s.corpus? job r.env.ctx = some c → s.mapped job r.env.ctx = true →
      c.comp = comp → r.env.kind = 3 → searchOk r c = true → u.epochOk src = true →
      (u.admission (if (searchLoad r c).2 then (searchLoad r c).1 else { (searchLoad r c).1 with ways := 0 })
        (if r.env.dl then some r.env.deadline else none)).cause ≠ some 10 →
      Yields (.search t src r) s fun v => v.rq.nextId = s.rq.nextId + 1 ∧ v.rq.corpora = s.rq.corpora ∧
        ∃ x, v.rq.searches = s.rq.searches ++ [x] ∧ x.id = s.rq.nextId ∧ x.req = r ∧ x.job = job ∧ x.comp = comp ∧ x.running = false ∧ x.snap = none) ∧
    (∀ (x : Search) (sec : Nat) (q : Option Nat) (c : Corpus), s.noAdmission = false → s.rq.reqs = [] → s.rq.searches = [x] → x.running = false →
      u.pathOf x.src x.comp x.job x.req.env.rnode = some q → s.phs.held = false → s.corpus? x.job x.req.env.ctx = some c →
      s.mapped x.job x.req.env.ctx = true → c.comp = x.comp →
      ((∃ n, x.slot = some n ∧ u.mayWork n x.arrive = true) ∨ (x.slot = none ∧ s.bestEffort = true ∧
        (u.searchUnits x.comp (searchLoad x.req c).1 (tileCount (u.compTiles x.comp)) ((x.bytes + 31) / 32)).isSome = true ∧
        lookD s.rq.beBytes x.comp 0 + x.bytes ≤ s.pdNum 0x3352 x.comp)) →
      Yields (.requestDispatch t x.id sec) s fun v => v.rq.corpora = s.rq.corpora ∧
        ∃ y, v.rq.searches = [y] ∧ y.id = x.id ∧ y.running = true ∧ y.snap = some c ∧ y.queue = q ∧ y.begun = u.timer) ∧
    (∀ (x : Search) (c : Corpus), s.rq.searches = [x] → x.snap = some c → x.paused = false → s.stripeOut x.id = false →
      (x.left = 0 → Yields (.searchComplete t x.id) s fun v => v.rq.searches = [] ∧ v.rq.corpora = s.rq.corpora) ∧
      (x.left ≠ 0 → exec (.searchComplete t x.id) s = .next (u.setSearch x.id fun y => { y with paused := true })))

/-- For every ATTEND of a composition that serves, which passes the checks of R112 on a context that is not dormant, and whose sections
admission does not all end: one request with one section for each named stream is added under the next identifier. While admission is
stopped, the request waits at intake. When a running section of a request of several sections ends, of which no sector has been lost, whose
scans and fetches have all ended and whose last page its quanta have attended, and another section has no block yet, the section holds a
block with the run, stream and sizes of its snapshot, it runs no longer, and every other section of the request keeps whether it runs. No
context changes. -/
def Obligations.AttendRequestsEnterAndTheirSectionsEnd : Prop :=
  ∀ (s : State) (t : Nat), let u := s.arrive t;
    (∀ (src : Source) (r : AttendReq) (job comp : Nat) (k : Ctx) (ys : List Strm), s.ready = true → s.noAdmission = false →
      u.sourceOf src = (job, comp) → u.compRefusal comp = none → u.attendCheck src job comp r = .inr (k, ys) → k.dormant = false →
      ((u.admitSecs src job comp r (List.zip r.secs ys)).1.all fun x => x.block.isSome) = false →
      Yields (.attendRequest t src r) s fun v => v.rq.nextId = s.rq.nextId + 1 ∧ v.pg = s.pg ∧ v.rq.searches = s.rq.searches ∧
        ∃ q, v.rq.reqs = s.rq.reqs ++ [q] ∧ q.id = s.rq.nextId ∧ q.req = r ∧ q.job = job ∧ q.comp = comp ∧ q.stopped = false ∧ q.bytes = 0 ∧
          q.secs.length = (List.zip r.secs ys).length) ∧
    (∀ (src : Source) (r : AttendReq), s.ready = true → s.noAdmission = true → Yields (.attendRequest t src r) s fun v =>
      v.rq = { s.rq with held := s.rq.held ++ [.attendRequest t src r] }) ∧
    (∀ (q : Req) (sec : Nat) (x : Sec) (g : QSection) (p : Snap), s.rq.reqs = [q] → q.secs[sec]? = some x → q.req.secs[sec]? = some g →
      x.snap = some p → x.running = true → x.block = none → x.lost = false → x.left = 0 → x.paused = false → s.scanOut q.id sec = false →
      (∀ e ∈ s.egq.qs, ∀ m ∈ e.2.waiting, ∀ a b, m.prod ≠ .fetch q.id a b) → (∀ h ∈ s.egq.held, ∀ a b, h.2.prod ≠ .fetch q.id a b) → (∀ e ∈ s.rmo.send, ∀ o ∈ e.2.outst, ∀ a b, o.msg.prod ≠ .fetch q.id a b) →
      (∃ j y, j ≠ sec ∧ q.secs[j]? = some y ∧ y.block = none ∧ y.sent = false) →
      Yields (.attentionComplete t q.id sec) s fun v => v.pg = s.pg ∧ ∃ q', v.rq.reqs = [q'] ∧ q'.id = q.id ∧ q'.secs.length = q.secs.length ∧
        (∃ y b, q'.secs[sec]? = some y ∧ y.running = false ∧ y.block = some b ∧ b.run = x.run ∧ b.stream = x.stream ∧ b.dv = p.dv ∧
          b.pages = p.pages.length ∧ b.tokens = 16 * p.pages.length + p.silt.length) ∧
        (∀ j y, j ≠ sec → q.secs[j]? = some y → ∃ z, q'.secs[j]? = some z ∧ z.running = y.running))

/-- For every state of a ready node. GO while no bank validates or waits stores STEP_HI and starts validation; while one does, the write is
ignored and flagged. CANCEL leaves no bank validating or pending. The end of validation leaves the bank pending with ERR 0 exactly if every
check passes and the commit step lies ahead, and otherwise ERR and ERR_ENTRY with no bank pending; neither moves the active bank or a table.
After 1,024 completions of a class its α is the 1,014th smallest ratio of the first 1,024, within the limits, and the ratios used are
dropped; fewer completions change nothing. -/
def Obligations.ScheduleCommitAndCorrection : Prop :=
  ∀ (s : State) (t : Nat),
    (s.ready = true → ∀ hi, (s.sch.frozen = false → Yields (.scheduleGo t hi) s fun v =>
        v.sch = { s.sch with stepHi := hi % 16, validating := true }) ∧
      (s.sch.frozen = true → Yields (.scheduleGo t hi) s fun v => v.sch = { s.sch with wign := true })) ∧
    (s.ready = true → Yields (.scheduleCancel t) s fun v => v.sch = { s.sch with validating := false, pending := false }) ∧
    (s.ready = true → s.sch.validating = true → Yields (.scheduleValidationDone t) s fun v => v.sch.validating = false ∧
      v.sch.pending = (s.validate.1 == 0) ∧ v.sch.err = s.validate.1 ∧ v.sch.errEntry = s.validate.2 ∧
      v.sch.bank = s.sch.bank ∧ v.sch.bank0 = s.sch.bank0 ∧ v.sch.bank1 = s.sch.bank1 ∧
      (v.sch.pending = true → laterStep s.sch.step s.step = true ∧ 1 ≤ s.sch.count ∧ s.sch.count ≤ 4096)) ∧
    (∀ cls, let l := lookD s.sch.ratios cls []; let first := sortBy (fun a b => decide (a < b)) (l.take 1024);
      (1024 ≤ l.length → Yields (.alphaUpdate t cls) s fun v => lookD v.sch.ratios cls [] = l.drop 1024 ∧
        look v.sch.alpha cls = some (s.clampAlpha (first.getD 1013 1)) ∧ (∀ c, c ≠ cls → look v.sch.alpha c = look s.sch.alpha c)) ∧
      (l.length < 1024 → exec (.alphaUpdate t cls) s = .next (s.arrive t)))

/-- For every state of a ready node. A slot of the running layer whose START has come, none of whose tiles another slot reserves or still uses,
and of which no earlier run is carried over unstarted, starts: its record shows the start at the local time. A slot kept from starting until
its layer had ended starts in the next, once nothing keeps it. A started slot of the layer whose span has passed ends; where no operation
waits, it moves no context and no byte of memory. A best-effort quantum with slack runs nothing while a conflicting maintenance act runs,
but is counted; a patrol quantum scrubs where the governor grants it the current and moves no scrub state where it does not (which of the
two the spec leaves open, log entry 10). At each new millisecond of the local timer the composition counters are latched as they stand after
the tile time is charged, and the waiting records have been copied out of the node ring. -/
def Obligations.SlotsQuantaAndCounterLatches : Prop :=
  ∀ (s : State) (t : Nat), let u := s.arrive t; s.ready = true →
    (∀ (slot : Nat) (e : Slot), u.slotsNow.find? (fun e => e.1 == slot) = some (slot, e) → s.phs.held = false → s.pwr.stage < 6 →
      (s.slotRun slot).started = false → e.start ≤ phTick u.phase + 2 → u.spanTaken slot e.tiles = false → u.sharers slot e = [] →
      u.sharersOver e = [] → (∀ r ∈ s.sch.carry, r.slot = slot → r.started = false → r.ended = true) →
      Yields (.slotStart t slot) s fun v => (v.slotRun slot).started = true ∧ (v.slotRun slot).since = u.timer ∧ (v.slotRun slot).ended = (s.slotRun slot).ended) ∧
    (∀ (r : SlotRun) (e : Slot), s.sch.carry = [r] → r.started = false → r.ended = false → u.slots.find? (fun e => e.1 == r.slot) = some (r.slot, e) →
      s.phs.held = false → s.pwr.stage < 6 → u.spanTaken 4096 e.tiles = false → u.kept r.slot e = false →
      Yields (.slotStart t r.slot) s fun v => v.sch.carry.map (fun x => (x.slot, x.started, x.since)) = [(r.slot, true, u.timer)]) ∧
    (∀ (slot : Nat) (e : Slot), u.slotsNow.find? (fun e => e.1 == slot) = some (slot, e) → (s.slotRun slot).started = true →
      (s.slotRun slot).ended = false → e.start + e.span ≤ phTick u.phase → e.opclass ≠ 4 →
      (∀ r ∈ s.sch.carry, r.slot = slot → r.started = true → r.ended = true) → s.pg.opq = [] → Yields (.slotEnd t slot) s fun v => (v.slotRun slot).ended = true ∧ v.pg = s.pg ∧ v.mem = s.mem) ∧
    (∀ (q : Quantum) (c : Nat), u.quantumComp q = some c → s.bestEffort = true →
      u.slack c (quantumClass q) (u.compTiles c) (ticksUp (u.boundNs { cls := 8, comp := c, bytes := u.quantumBytes c q } 0 0)) = true →
      ((∃ a, quantumAct q = some a ∧ u.actWaits a c = true) → exec (.bestEffortQuantumStart t q) s = .next (u.count 0xA102 0)) ∧
      (∀ npa, (∀ a, quantumAct q = some a → u.actWaits a c = false) → q = .scrub npa →
        Yields (.bestEffortQuantumStart t q) s fun v => v.rq = s.rq ∧ v.pg = s.pg ∧ v.tier = s.tier ∧ v.free = s.free + 1 ∧
          v.rel = (if Config.grants s.free then (u.scrubBytes c (1024 * lookD s.rel.rates (pcOf npa / 64) 1)).rel else s.rel))) ∧
    (s.pd.latchAt < u.timer / ms → Yields (.coarseningLatch t) s fun v => v.pd.latchAt = u.timer / ms ∧ v.pd.latched = u.chargeAll.pd.cnt ∧
      v.rmo.ring = [])

/-- For every state. A good program counts a live chunk in its block, which is open, where a chunk waits for it, and a stale one where none does
any more; a good erase counts an erase and leaves the block empty, closed and as retired as it was, where no chunk of the channel waits for
a block; where the channel goes on working no other block of it changes. A failed program or erase retires and closes the block. A chunk
read of a working channel whose codewords were all corrected, with a good tag, marks the chunk for rewriting where more than 120 bits needed
correction, and otherwise changes nothing; a read that could not be corrected, of a chunk whose stripe can be read and rebuilds it, programs
the chunk again; a read whose tag fails, or that can be neither corrected nor rebuilt, marks the chunk bad and sets the error bit of the
channel. A first LUN timeout resets the LUN, retries once and notes it; a second one notes it, and sets the error bit where the chunk cannot
be rebuilt. A calibration of a working channel, 100 ms or more after the last one, counts one and sends the command; before that it does
nothing. -/
def Obligations.FlashEventsKeepTheBlockAndChunkTables : Prop :=
  ∀ (s : State) (t ch : Nat), let f := s.flash ch; let u := s.arrive t;
    (∀ block, let b := f.block block; let after (b' : FBlock) : Flash := { f with blocks := put f.blocks block b' };
      (∀ b', b' = (if (s.tier.chunks.find? fun k => k.channel == ch && k.block == block && !k.done).isSome
            then { b with live := b.live + 1, isOpen := true } else { b with stale := b.stale + 1 }) → FlashHolds ch (after b') →
          Yields (.pageProgramComplete t ch block true) s fun v => (v.flash ch).block block = b' ∧ ∀ n, n ≠ block → (v.flash ch).block n = f.block n) ∧
      (∀ b' : FBlock, b' = { erases := b.erases + 1, live := 0, stale := 0, retired := b.retired, isOpen := false } → FlashHolds ch (after b') →
          (∀ k ∈ s.tier.chunks, k.channel = ch → k.block = noBlock → k.done = true) →
          Yields (.blockEraseComplete t ch block true) s fun v => (v.flash ch).block block = b' ∧ ∀ n, n ≠ block → (v.flash ch).block n = f.block n) ∧
      (Yields (.pageProgramComplete t ch block false) s fun v => ((v.flash ch).block block).retired = true ∧ ((v.flash ch).block block).isOpen = false) ∧
      (Yields (.blockEraseComplete t ch block false) s fun v => ((v.flash ch).block block).retired = true ∧ ((v.flash ch).block block).isOpen = false)) ∧
    (∀ extent chunk (r : ChunkRead), let k := u.chunkAt ch extent chunk; let good := corrected r = true ∧ f.failed = false;
      let lost : State → Prop := fun v => (v.flash ch).err = true ∧ ∃ c ∈ v.tier.chunks, c.extent = extent ∧ c.chunk = chunk ∧ c.bad = true;
      (good → r.tagOk = true → 120 < corrections r → Yields (.flashChunkReadComplete t ch extent chunk r) s fun v => v.rq = s.rq ∧
        v.tier.chunks = { k with rewrite := true } :: s.tier.chunks.filter fun x => !(x.extent == extent && x.chunk == chunk)) ∧
      (good → r.tagOk = true → corrections r ≤ 120 → exec (.flashChunkReadComplete t ch extent chunk r) s = .next u) ∧
      (¬ good → r.stripeOk = true → u.rebuildable k = true → Yields (.flashChunkReadComplete t ch extent chunk r) s fun v => v.rq = s.rq ∧
        ∃ c ∈ v.tier.chunks, c.extent = extent ∧ c.chunk = chunk ∧ c.done = false ∧ c.bad = false ∧ c.rewrite = false) ∧
      (good ∧ r.tagOk = false ∨ ¬ good ∧ (r.stripeOk = false ∨ u.rebuildable k = false) →
        Yields (.flashChunkReadComplete t ch extent chunk r) s lost)) ∧
    (∀ target lun extent chunk,
      (Yields (.lunTimeout t ch target lun ⟨false, extent, chunk⟩) s fun v => (v.flash ch).lunTries.head? = some (target, lun) ∧
        .flashCmd ch 0xFA ∈ v.out) ∧
      (Yields (.lunTimeout t ch target lun ⟨true, extent, chunk⟩) s fun v => (v.flash ch).lunTries = (target, lun) :: f.lunTries ∧
        (u.rebuildable (u.chunkAt ch extent chunk) = false → (v.flash ch).err = true))) ∧
    (f.up = true → f.zqAt + 100 * ms ≤ u.timer → Yields (.zqCalibrationShort t ch) s fun v =>
      v.flash ch = { f with zq := f.zq + 1, zqAt := u.timer } ∧ v.out.head? = some (.flashCmd ch 0xD9)) ∧
    (u.timer < f.zqAt + 100 * ms → exec (.zqCalibrationShort t ch) s = .next u)

/-- For every hint of a composition that serves, at a ready node. A PIN of one stream whose pinned bytes stay within the limit sets TPIN of the
named pages, an UNPIN clears it, every page that is not borrowed is otherwise unchanged, and of memory only their descriptors, grains,
parity map entries and pool entries are written; a PIN beyond the limit changes nothing. A PREFETCH of one stream with pages of the range
away from topsoil schedules one recall of the range by its READY, and one with none schedules nothing. A DORMANT for a context that is not
dormant, in a composition with flash, starts its move; when the node has no request and no move of it left, the end of the move makes it
dormant. A WAKE of a context that is dormant or on its way into hardpan leaves a whole recall of the tables, the grains and the pages of
each of its streams. A doorbell that brings no entry stores the tail and applies none. -/
def Obligations.TierHintsPinScheduleAndSleep : Prop :=
  ∀ (s : State) (t c : Nat), let u := s.arrive t; s.ready = true → s.compServes c = true →
    (∀ (h : Hint) (k : Ctx) (n : Nat) (x : Strm), u.hintStreams c h = .inr (k, [(n, x)]) → u.strm? k.job k.ctx n = some x →
      ((u.setTpin k n x h true).pinned c ≤ s.pdNum 0x8006 c → Yields (.pin t c h) s fun v =>
        StrmIs v k.job k.ctx n (TpinSet h true x) ∧ ∀ a, OutsidePages u x h.first (hintPages h x) a → Memory.read v.mem a = Memory.read s.mem a) ∧
      (s.pdNum 0x8006 c < (u.setTpin k n x h true).pinned c → exec (.pin t c h) s = .next u) ∧
      (Yields (.unpin t c h) s fun v => StrmIs v k.job k.ctx n (TpinSet h false x) ∧ v.tier = s.tier ∧
        ∀ a, OutsidePages u x h.first (hintPages h x) a → Memory.read v.mem a = Memory.read s.mem a) ∧
      (u.away x h.first (hintPages h x) = [] → Yields (.prefetch t c h) s fun v => v.tier = s.tier ∧ v.pg = s.pg ∧ v.mem = s.mem) ∧
      (k.strm? n = some x → u.away x h.first (hintPages h x) ≠ [] → Yields (.prefetch t c h) s fun v => v.pg = s.pg ∧ v.mem = s.mem ∧ ∃ r, v.tier.recalls = s.tier.recalls ++ [r] ∧
        r.comp = k.comp ∧ r.job = k.job ∧ r.ctx = k.ctx ∧ r.stream = some n ∧ r.first = h.first ∧ r.count = hintPages h x ∧ r.ready = some h.ready ∧
        r.active = false ∧ r.whole = false ∧ r.part = .pages)) ∧
    (∀ (h : Hint) (k : Ctx), u.hintCtx c h = .inr k → u.ctx? k.job k.ctx = some k →
      (s.flashOf c ≠ [] → k.dormant = false → Yields (.dormant t c h) s fun v => v.ctx? k.job k.ctx = some { k with going := true }) ∧
      (k.dormant = true ∨ k.going = true → Yields (.wake t c h) s fun v => v.pg = s.pg ∧ ∀ x ∈ k.streams, k.strm? (k.idOf x.1) ≠ none →
        ∀ part, ∃ r ∈ v.tier.recalls, r.job = k.job ∧ r.ctx = k.ctx ∧ r.stream = some (k.idOf x.1) ∧ r.whole = true ∧ r.part = part)) ∧
    (∀ (job ctx : Nat) (k : Ctx), u.ctx? job ctx = some k → k.going = true →
      (∀ r ∈ s.rq.reqs, r.job = job → r.req.env.ctx ≠ ctx) → (∀ m ∈ s.tier.moves, m.job = job → m.ctx ≠ ctx) →
      Yields (.dormantComplete t job ctx) s fun v => ∃ k', v.ctx? job ctx = some k' ∧ k'.dormant = true ∧ k'.going = false ∧ k'.comp = k.comp) ∧
    (∀ w : BitVec 32, let y := u.store (s.pdNum 0x8010 c) (leBytes 4 (bitsOf w.toNat 0 16)); s.pdNum 0x8010 c ≠ 0 →
      y.loadNat (s.pdNum 0x8010 c) 4 = y.loadNat (s.pdNum 0x8010 c + 8) 4 → Yields (.tierHintDb t c w) s fun v =>
        v.mem = Memory.writes s.mem (s.pdNum 0x8010 c) (leBytes 4 (bitsOf w.toNat 0 16)) ∧ v.tier = s.tier ∧ v.pg = s.pg)

/-- For every state with one such work in progress, none of whose messages is in flight. A move whose page still stands as it was read, none of
its chunks lost, switches the descriptor of the page to its new place; where the page was written anew or a chunk of it is lost, the copy is
discarded and no page changes; a move into hardpan waits for its programs. A recall whose time has come starts in a recall slot of its
composition or in slack, and one that runs ends, below shedding stage 3. The end of an active lease that has an end is noted at its
borrower, which is released at once where no frame of it is left there and the lender can be reached, and a lease without an end is not
ended; the lender, on the release record or a forced end, closes the lent window of the lease; at the borrower a forced end invalidates the
descriptor of a page that stands in it, that of the pool entry where the page is shared. When the groups of a weight layer have landed and
the programme queue has room, the layer leaves the work in progress, the buffer header that waited for a hardpan read follows in the queue,
and its flag message after it, as the last. -/
def Obligations.MovesRecallsLeasesAndWeightsEnd : Prop :=
  ∀ (s : State) (t : Nat), let u := s.arrive t;
    (∀ (m : TMove) (p : Page), s.tier.moves = [m] → (u.inFlight fun p => p == .tier m.id) = false →
      (m.toTier = 2 → u.programming (16 * m.toAddr) (recordCount m.bytes) = false) → u.page? m.job m.ctx m.stream m.page = some p →
      p.desc.borrowed = false → s.frame? p.desc.frame ≠ none →
      (p.desc.valid = true → p.desc.gen = m.gen → p.desc.tier = m.tier → p.desc.addr = m.addr → u.unreadable p.desc = false →
        Yields (.moveComplete t m.id) s fun v =>
        v.tier.moves = [] ∧ ∃ q, v.page? m.job m.ctx m.stream m.page = some q ∧ q.desc.tier = m.toTier ∧ q.desc.node = m.toNode ∧
          q.desc.addr = m.toAddr ∧ q.desc.gen = m.gen ∧ q.desc.valid = true) ∧
      (p.desc.gen ≠ m.gen ∨ u.unreadable p.desc = true → Yields (.moveComplete t m.id) s fun v => v.tier.moves = [] ∧ v.pg = s.pg)) ∧
    (∀ (r : Recall), s.tier.recalls = [r] → s.pwr.stage < 3 →
      (r.active = false → (∀ k, s.ctx? r.job r.ctx = some k → k.going = false) → s.ctx? r.job r.ctx ≠ none → earlier u.phase r.start = false →
        u.recallTurn r.comp = true → Yields (.recallStart t r.id) s fun v =>
          (∃ bad, v.tier.recalls = [{ r with active := true, bad }] ∧ (r.part ≠ .pages → bad = r.bad)) ∧ v.pg = s.pg ∧ v.mem = s.mem) ∧
      (r.active = true → (∀ e ∈ s.egq.qs, ∀ m ∈ e.2.waiting, ∀ a b, m.prod ≠ .fetch r.id a b) →
        (∀ h ∈ s.egq.held, ∀ a b, h.2.prod ≠ .fetch r.id a b) → (∀ e ∈ s.rmo.send, ∀ o ∈ e.2.outst, ∀ a b, o.msg.prod ≠ .fetch r.id a b) →
        Yields (.recallComplete t r.id) s fun v => v.tier.recalls = [])) ∧
    (∀ (nn : Nat), let l := Lease.ofBytes (s.pd.bytes 0x8030 nn); l.active = true →
      (l.lender = false → l.endp ≠ BitVec.allOnes 64 → Yields (.leaseEnd t nn) s fun v => nn ∈ v.tier.ending ∧ v.pg = s.pg ∧
        (u.pagesAt l.comp nn = [] → u.peerQueue l.comp l.peer ≠ none → nn ∈ v.tier.released)) ∧
      (l.lender = false → l.endp = BitVec.allOnes 64 → exec (.leaseEnd t nn) s = .next u) ∧
      (l.lender = false → ∀ y, u.pagesAt l.comp nn = [y] → u.page? y.1.job y.1.ctx y.2.1 y.2.2.1 = some y.2.2.2 →
        (y.2.2.2.desc.borrowed = false → Yields (.leaseForcedEnd t nn) s fun v =>
          ∃ q, v.page? y.1.job y.1.ctx y.2.1 y.2.2.1 = some q ∧ q.desc = { y.2.2.2.desc with valid := false }) ∧
        (∀ e, y.2.2.2.desc.borrowed = true → look s.pg.pool y.2.2.2.desc.frame = some e → Yields (.leaseForcedEnd t nn) s fun v =>
          look v.pg.pool y.2.2.2.desc.frame = some { e with desc := { e.desc with valid := false } })) ∧
      (l.lender = true → ∀ cmd, (cmd = .leaseRelease t nn ∨ cmd = .leaseForcedEnd t nn) → Yields cmd s fun v =>
        (cmd = .leaseRelease t nn → nn ∈ v.tier.released) ∧ v.mem = s.mem ∧
        ∀ b, b < 16 → (v.adirBank b).cls = 1 → ∀ e ∈ (v.adirBank b).entries, e.1 % 2 ^ 14 = l.win →
          ¬ ((Win.ofUnits e.2).lent = true ∧ (Win.ofUnits e.2).isOpen = true))) ∧
    (∀ (w : WStream), s.tier.wstr = [w] → (u.inFlight fun p => p == .weight w.nn) = false → (w.hard = true → s.pwr.stage < 3) →
      let p := u.prog w.nn; s.egq.held = [] → (s.queue p.queue).waiting.length + 1 < 1024 →
      (s.egq.qs.map fun e => e.2.waiting.length).sum + 1 < 131072 →
      Yields (.weightStreamDone t w.nn) s fun v => v.tier.wstr = [] ∧
        ∃ l m, (v.queue p.queue).waiting = (s.queue p.queue).waiting ++ l ++ [m] ∧ l.map (·.addr) = w.head.toList.map (·.1) ∧
          m.prod = .weight w.nn ∧ m.flag = true ∧ m.addr = p.fbase + 8 * (phLayer w.layer % max 1 p.depth))

/-- For every state of a ready node. A commit while one runs or waits, or while the node is idle or off, is refused with BUSY_CONFLICT and moves
no composition; otherwise the pending descriptors are staged under the activation step and validation runs. Validation that finds a failing
check records the check, composition and status and drops the descriptors; one that finds none leaves the commit pending, and exactly the
staged active compositions that lose a slice become shrinking. A handoff that a check refuses records the status alone; one whose first page
can be read sends batch 1. The answer to a batch counts its pages; a bad one ends the handoff with its status; after the last, a copy ends
as OK and a move waits for the step boundary. -/
def Obligations.CommitsValidateAndHandoffsProceed : Prop :=
  ∀ (s : State) (t : Nat), let u := s.arrive t; s.ready = true →
    (∀ step, (s.pwr.idle = false → s.pwr.off = false → s.cmp.validating = false → s.cmp.pending = false → Yields (.commit t step) s fun v =>
        v.cmp = { s.cmp with validating := true, staged := s.cmp.pend, pend := [], cstep := step % 2 ^ 36, cstatus := .ok, cfail := 0, ccheck := 0 }) ∧
      (s.pwr.idle = true ∨ s.pwr.off = true ∨ s.cmp.validating = true ∨ s.cmp.pending = true → Yields (.commit t step) s fun v =>
        v.cmp.cstatus = .busyConflict ∧ v.cmp.pend = [] ∧ v.cmp.comps = s.cmp.comps ∧ v.cmp.staged = s.cmp.staged ∧
        v.cmp.validating = s.cmp.validating ∧ v.cmp.pending = s.cmp.pending)) ∧
    (s.cmp.validating = true → (∀ n c st, u.commitCheck = some (n, c, st) → Yields (.commitValidationDone t) s fun v =>
        v.cmp = { s.cmp with validating := false, staged := [], cstatus := st, cfail := c, ccheck := n }) ∧
      (u.commitCheck = none → let y := { u with cmp := { u.cmp with validating := false, pending := true } };
        Yields (.commitValidationDone t) s fun v => v.cmp.pending = true ∧ v.cmp.validating = false ∧ v.cmp.staged = s.cmp.staged ∧
          ∀ c, v.comp? c = (s.comp? c).map fun k =>
            if c ∈ s.cmp.staged.map (·.1) ∧ y.leaving c ≠ [] ∧ k.st = .active then { k with st := .shrinking } else k)) ∧
    (∀ ctx stream all first count dnode queue move,
      (∀ st, u.handCheck ctx stream all first count dnode queue move = .inl st → Yields (.handoff t ctx stream all first count dnode queue move) s fun v =>
        v.cmp = { s.cmp with hstatus := st } ∧ v.egq = s.egq) ∧
      (∀ k xs p ps, u.handCheck ctx stream all first count dnode queue move = .inr (k, xs) →
        (xs.map fun x => (List.range count).map fun i => (x.1, first + i)).flatten = p :: ps →
        (u.batchBytes { ctx, job := k.job, comp := k.comp, pages := p :: ps, sent := 0, batch := 0, inBatch := 0, dnode, queue, move
                        ranges := xs.map fun x => (x.1, first, count), finish := false } p).isSome = true →
        Yields (.handoff t ctx stream all first count dnode queue move) s fun v => v.cmp.hstatus = .ok ∧ v.cmp.hpages = 0 ∧ v.cmp.comps = s.cmp.comps ∧
          ∃ h, v.cmp.hand = some h ∧ h.ctx = ctx ∧ h.job = k.job ∧ h.pages = p :: ps ∧ h.batch = 1 ∧ 0 < h.inBatch ∧ h.sent = 0 ∧ h.move = move)) ∧
    (∀ (h : Handoff) (st : Status), s.cmp.hand = some h → h.finish = false → h.inBatch ≠ 0 → (u.inFlight fun p => p == .handoff) = false →
      (st ≠ .ok → Yields (.handoffBatchAck t st) s fun v => v.cmp = { s.cmp with hand := none, hstatus := st }) ∧
      (st = .ok → Yields (.handoffBatchAck t st) s fun v => v.cmp.hpages = h.sent + h.inBatch ∧
        (h.pages.drop h.inBatch = [] → h.move = false → v.cmp.hand = none ∧ v.cmp.hstatus = .ok) ∧
        (h.pages.drop h.inBatch = [] → h.move = true → ∃ g, v.cmp.hand = some g ∧ g.finish = true ∧ g.sent = h.sent + h.inBatch)))

/-- For every state. At a ready node, FORCE_TEARDOWN of a serving composition leaves it tearing with the fault as cause and no context of it.
The end of its teardown, with the Security Core up, leaves it torn down; every byte of its slices reads zero, and every other byte as
before. A released slice whose zeroisation ends, with the Security Core up and no sag that stops it, is no longer busy, reads zero, and no
other slice changes. A released flash channel with no written block left is no longer busy. At each second the counters of slice, channel
and tile time of every composition that are not zero are stored as they stand. -/
def Obligations.TeardownZeroisesAndResourcesFree : Prop :=
  ∀ (s : State) (t : Nat), let u := s.arrive t;
    (∀ c k, s.ready = true → s.comp? c = some k → (k.st = .active ∨ k.st = .shrinking) → Yields (.forceTeardown t c) s fun v =>
      (∀ x ∈ v.pg.ctxs, x.comp ≠ c) ∧ (∀ x ∈ v.rq.corpora, x.comp ≠ c) ∧
      ∃ k', v.comp? c = some k' ∧ k'.st = .tearing ∧ k'.cause = some .fault ∧ k'.desc = k.desc) ∧
    (∀ c k, s.comp? c = some k → k.st = .tearing → k.cause = some .fault → s.sec.up = true → Yields (.teardownComplete t c) s fun v =>
      v.comp? c = some { k with st := .torndown } ∧
      (∀ n ∈ s.slicesOf c, ∀ a, n * 2 ^ 35 ≤ a → a < (n + 1) * 2 ^ 35 → Memory.read v.mem a = 0) ∧
      (∀ a, (∀ n ∈ s.slicesOf c, a < n * 2 ^ 35 ∨ (n + 1) * 2 ^ 35 ≤ a) → Memory.read v.mem a = Memory.read s.mem a)) ∧
    (∀ n, n ∈ s.cmp.busySlices → s.sec.up = true → s.pwr.stage < 5 → Yields (.sliceFree t n) s fun v => n ∉ v.cmp.busySlices ∧
      (∀ m, m ≠ n → (m ∈ v.cmp.busySlices ↔ m ∈ s.cmp.busySlices)) ∧
      (∀ a, n * 2 ^ 35 ≤ a → a < (n + 1) * 2 ^ 35 → Memory.read v.mem a = 0) ∧
      (∀ a, a < n * 2 ^ 35 ∨ (n + 1) * 2 ^ 35 ≤ a → Memory.read v.mem a = Memory.read s.mem a)) ∧
    (∀ n, n ∈ s.cmp.busyFlash → (∀ b ∈ (s.flash n).blocks, b.2.retired = true ∨ b.2.live + b.2.stale = 0) → Yields (.flashChannelFree t n) s fun v =>
      n ∉ v.cmp.busyFlash ∧ (v.flash n).erasing = false ∧ (∀ m, m ≠ n → (m ∈ v.cmp.busyFlash ↔ m ∈ s.cmp.busyFlash)) ∧ v.mem = s.mem) ∧
    (s.ready = true → Yields (.meteringPersist t) s fun v => v.mem = s.mem ∧
      ∀ c idx, c < 16 → (idx = 0x5040 ∨ idx = 0x5041 ∨ idx = 0x5042) → v.pd.count idx c = u.chargeAll.pd.count idx c ∧
        (v.pd.count idx c ≠ 0 → (idx, c, leBytes 8 (v.pd.count idx c)) ∈ v.pd.stored))

/-- For every request that the Security Core hears. GET_VERSION starts the negotiation over and closes every session; GET_CAPABILITIES needs the
version and NEGOTIATE_ALGORITHMS the capabilities. After the negotiation, GET_DIGESTS, GET_CERTIFICATE, CHALLENGE, GET_MEASUREMENTS of an
index that is measured, and KEY_EXCHANGE are answered; KEY_EXCHANGE opens a session that FINISH completes. In a completed session HEARTBEAT
and KEY_UPDATE are answered, and END_SESSION closes it. Before the negotiation, a challenge is answered with ERROR 4. Each answer is one
message on the transport of the request, and memory never changes. -/
def Obligations.SpdmRequestsAreAnsweredInOrder : Prop :=
  ∀ (s : State) (t : Nat) (tr : Transport) (m : Spdm), SpdmHeard s tr m → let tells (v : State) (code : Nat) := ∃ data, v.out = .spdm tr code data :: s.out;
    (Yields (.getVersion t tr m) s fun v => tells v 0x04 ∧ v.mem = s.mem ∧
      v.sec = { s.sec with version := true, caps := false, algs := false, sessions := [] }) ∧
    (s.sec.version = true → Yields (.getCapabilities t tr m) s fun v => tells v 0x61 ∧ v.sec = { s.sec with caps := true } ∧ v.mem = s.mem) ∧
    (s.sec.version = true → s.sec.caps = true → Yields (.negotiateAlgorithms t tr m) s fun v =>
      tells v 0x63 ∧ v.sec = { s.sec with algs := true } ∧ v.mem = s.mem) ∧
    (s.negotiated = true → Yields (.getDigests t tr m) s fun v => tells v 0x01 ∧ v.sec = s.sec ∧ v.mem = s.mem) ∧
    (s.negotiated = true → ∀ off len, Yields (.getCertificate t tr m off len) s fun v => tells v 0x02 ∧ v.sec = s.sec ∧ v.mem = s.mem) ∧
    (s.negotiated = true → ∀ nonce, Yields (.challenge t tr m nonce) s fun v => tells v 0x03 ∧ v.sec = s.sec ∧ v.mem = s.mem) ∧
    (s.negotiated = false → ∀ nonce, Yields (.challenge t tr m nonce) s fun v => v.out = .spdm tr 0x7F (leBytes 1 0x04) :: s.out ∧ v.sec = s.sec) ∧
    (s.negotiated = true → ∀ index, index = 0 ∨ index = 0xFF ∨ measured.contains index = true → Yields (.getMeasurements t tr m index) s fun v =>
      tells v 0x60 ∧ v.sec = s.sec ∧ v.mem = s.mem) ∧
    (s.negotiated = true → Yields (.keyExchange t tr m) s fun v => tells v 0x64 ∧ (m.session, false) ∈ v.sec.sessions ∧
      (∀ x, x.1 ≠ m.session → (x ∈ v.sec.sessions ↔ x ∈ s.sec.sessions)) ∧ v.mem = s.mem) ∧
    ((m.session, false) ∈ s.sec.sessions → Yields (.finish t tr m) s fun v => tells v 0x65 ∧ (m.session, true) ∈ v.sec.sessions ∧
      (m.session, false) ∉ v.sec.sessions ∧ (∀ x, x.1 ≠ m.session → (x ∈ v.sec.sessions ↔ x ∈ s.sec.sessions)) ∧ v.mem = s.mem) ∧
    (s.session m = true → Yields (.heartbeat t tr m) s fun v => tells v 0x68 ∧ v.sec = s.sec ∧ v.mem = s.mem) ∧
    (s.session m = true → Yields (.spdmKeyUpdate t tr m) s fun v => tells v 0x69 ∧ v.sec = { s.sec with keyUpdates := s.sec.keyUpdates + 1 } ∧
      v.mem = s.mem) ∧
    (s.session m = true → Yields (.endSession t tr m) s fun v => tells v 0x6C ∧ (∀ x ∈ v.sec.sessions, x.1 ≠ m.session) ∧
      (∀ x, x.1 ≠ m.session → (x ∈ v.sec.sessions ↔ x ∈ s.sec.sessions)) ∧ v.mem = s.mem)

/-- For every blob at a Security Core that runs. One that a check refuses changes neither compositions nor the core and is answered with the
status. An INSTALL gives the composition its generation and keys, an UPDATE schedules the generation for its step, a MODEL blob enters the
release of the model, and a REMOVE leaves the composition tearing without a key under the next generation, which is kept for the job, with
none of its models released. Each is answered OK. The end of the removal, when nothing holds it back, leaves the composition torn down
without a transport key. -/
def Obligations.KeyBlobsActOnTheirComposition : Prop :=
  ∀ (s : State) (t : Nat) (decOk : Bool) (b : KeyBlob), let u := s.arrive t; s.sec.up = true →
    (∀ st, (u.blobRefusal .install decOk b = some st → Yields (.keysInstall t decOk b) s fun v =>
        v.cmp = s.cmp ∧ v.sec = s.sec ∧ v.out.head? = some (.vendor st)) ∧
      (u.blobRefusal .remove decOk b = some st → Yields (.tenantRemove t decOk b) s fun v =>
        v.cmp = s.cmp ∧ v.sec = s.sec ∧ v.out.head? = some (.vendor st))) ∧
    (∀ k, s.comp? b.comp = some k →
      (u.blobRefusal .install decOk b = none → Yields (.keysInstall t decOk b) s fun v => v.out.head? = some (.vendor .ok) ∧ v.sec = s.sec ∧
        v.comp? b.comp = some { k with keyed := true, noKey := false, gen := b.gen } ∧ (∀ c, c ≠ b.comp → v.comp? c = s.comp? c)) ∧
      (u.blobRefusal .update decOk b = none → Yields (.keysUpdate t decOk b) s fun v => v.out.head? = some (.vendor .ok) ∧ v.sec = s.sec ∧
        v.comp? b.comp = some { k with upd := some (b.gen, b.activate) } ∧ (∀ c, c ≠ b.comp → v.comp? c = s.comp? c)) ∧
      (u.blobRefusal .remove decOk b = none → Yields (.tenantRemove t decOk b) s fun v => v.out.head? = some (.vendor .ok) ∧
        look v.sec.gens b.job = some (k.gen + 1) ∧ (∀ m ∈ v.sec.models, m.2.2.1 ≠ b.comp) ∧ (∀ x ∈ v.pg.ctxs, x.comp ≠ b.comp) ∧
        ∃ k', v.comp? b.comp = some k' ∧ k'.st = .tearing ∧ k'.cause = some .removal ∧ k'.noKey = true ∧ k'.gen = k.gen + 1 ∧ k'.upd = none)) ∧
    (u.blobRefusal .model decOk b = none → Yields (.modelRelease t decOk b) s fun v => v.out.head? = some (.vendor .ok) ∧ v.cmp = s.cmp ∧
      look v.sec.models b.model = some (b.model, b.comp, b.ends) ∧ (∀ m, m ≠ b.model → look v.sec.models m = look s.sec.models m)) ∧
    (∀ c k, s.comp? c = some k → k.st = .tearing → k.cause = some .removal → s.pwr.stage < 5 → u.windowsDrained c = true →
      Yields (.tenantRemoved t c) s fun v => v.comp? c = some { k with st := .torndown, transport := false, next := none } ∧ v.sec = s.sec)

/-- For every state whose Security Core runs. A watchdog expiry or a memory error of a ready node leaves the core down with one more reset
counted, no model, no session and no transport key, every composition that served tearing without a key, and the running job to be
restarted. A SEAL of an open card in a completed session, and a valid UNSEAL of a sealed one, schedule the change: the life cycle itself
stays until the reset. A transport key that ends goes to the first active composition that holds none, or else into the pool of two. -/
def Obligations.SecurityCoreFaultsAndLifecycle : Prop :=
  ∀ (s : State) (t : Nat), s.sec.up = true →
    (s.boot.ready = true → ∀ cmd, (cmd = .scWatchdogExpiry t ∨ cmd = .scMemoryError t) → Yields cmd s fun v => v.sec.up = false ∧
      v.sec.resets = min 65535 (s.sec.resets + 1) ∧ v.sec.models = [] ∧ v.sec.sessions = [] ∧ v.sec.pool = 0 ∧ v.phs.fwdDone = true ∧ v.rel.restarted = true ∧
      ∀ c k, c < 16 → s.comp? c = some k → (k.st = .active ∨ k.st = .shrinking) →
        ∃ k', v.comp? c = some k' ∧ k'.st = .tearing ∧ k'.cause = some .fault ∧ k'.noKey = true ∧ k'.transport = false ∧ k'.desc = k.desc) ∧
    (∀ (m : Spdm), m.valid = true → s.session m = true → s.sec.life = false → Yields (.lifecycleSeal t m) s fun v =>
      v.sec = { s.sec with pend := some true } ∧ (0x6001, 0, leBytes 1 1) ∈ v.pd.stored) ∧
    (s.sec.life = true → Yields (.lifecycleUnseal t true) s fun v =>
      v.sec = { s.sec with pend := some false } ∧ (0x6001, 0, leBytes 1 0) ∈ v.pd.stored) ∧
    ((∀ k ∈ s.cmp.comps, ¬ (k.2.st = .active ∧ k.2.transport = false)) → Yields (.transportKeyGenerated t) s fun v =>
      v.sec.pool = min 2 (s.sec.pool + 1) ∧ v.cmp = s.cmp) ∧
    (∀ c k, s.cmp.comps = [(c, k)] → k.st = .active → k.transport = false → Yields (.transportKeyGenerated t) s fun v =>
      v.cmp.comps = [(c, { k with transport := true })] ∧ v.sec = s.sec)

/-- Byte i of a group lies on lane (i ÷ 16) mod W of W lanes, in the one codeword of that lane, and on one lane in codeword i ÷ 640 of four; FEC
of a flit is uncorrectable exactly where a byte of it lies in an uncorrectable codeword. For every carrying port of a ready node. A data
flit whose CRC holds and that is well formed and in sequence, in fallow on lane 6, moves the expected sequence on, ends a retry request and
counts as freed on its lane; on lane 6 its body joins the management queue. One with a FEC or CRC error or out of sequence leaves the
expected sequence and asks for a retry. Either way the control flit of the next group says so: its ACKSEQ, NAK and CRED. An idle flit
changes nothing. A control flit without NAK or records sets the credits and the fallow and drained bits as it carries them; one that fails
its check is discarded, and of the port only UNCORR changes, which an uncorrectable codeword sets. A replay timeout below the limit sends
every unacknowledged flit again, oldest first; at the eighth the port retrains. A DELAY_REQ is answered in a control flit with its time and
a turnaround that the spec leaves open; a DELAY_RSP sets the link delay to half the round trip less the turnaround (an exact half of a unit
rounded up, the choice of log entry 178). -/
def Obligations.FlitsAreAcceptedOrAskedAgain : Prop :=
  (∀ w i : Nat, (w = 8 ∨ w = 4) → i < 256 * groupSlots w → laneOf w i = i / 16 % w ∧ codeOf w i = laneOf w i ∧ lanePlace w i < 640) ∧
  (∀ i, i < 256 * groupSlots 1 → codeOf 1 i = i / 640 ∧ codeOf 1 i < 4) ∧
  (∀ w slot codes, flitFec w slot codes = .uncorrectable ↔ ∃ i, i < 256 ∧ codes.getD (codeOf w (256 * slot + i)) .clean = .uncorrectable) ∧
  ∀ (s : State) (t port : Nat), let u := s.arrive t; let x := s.port port; s.ready = true → Carrying s port →
    (∀ (f : Flit) (g : FlitPlace), 0 < g.slot → g.slot < groupSlots x.width → flitFec x.width g.slot g.codes ≠ .uncorrectable →
      (f.ft = 0 → exec (.dataFlitReceive t port g (flitCrc f) f) s = .next u) ∧
      (f.ft ≠ 0 → flitOk f = true → f.fseq = x.expect → (x.st = .fallow → f.vl = 6) → Yields (.dataFlitReceive t port g (flitCrc f) f) s fun v =>
        PortIs { x with expect := x.expect + 1, nak := false, rfreed := setAt x.rfreed f.vl ((x.rfreed.getD f.vl 0 + 1) % 2 ^ 16) } (v.port port) ∧
        CtlNext v port x u.timer (fun c => c.ackseq = f.fseq ∧ c.nak = false ∧ c.cred.getD f.vl 0 = BitVec.ofNat 16 ((v.port port).rfreed.getD f.vl 0)) ∧
        v.lnk.mgmtIn = (if f.vl = 6 then s.lnk.mgmtIn ++ [f.body.take (16 * f.blen)] else s.lnk.mgmtIn) ∧ v.mem = s.mem)) ∧
    (∀ (f : Flit) (g : FlitPlace) (crc : BitVec 32), 0 < g.slot → g.slot < groupSlots x.width →
      flitFec x.width g.slot g.codes = .uncorrectable ∨ crc ≠ flitCrc f ∨
        (f.ft ≠ 0 ∧ (flitOk f = false ∨ f.fseq ≠ x.expect ∨ (x.st = .fallow ∧ f.vl ≠ 6))) →
      Yields (.dataFlitReceive t port g crc f) s fun v => PortIs { x with nak := true } (v.port port) ∧
        CtlNext v port x u.timer (fun c => c.nak = true ∧ c.ackseq = x.expect - 1) ∧ v.lnk.mgmtIn = s.lnk.mgmtIn) ∧
    (∀ (f : CtlFlit) (codes : List Ecc) (crc : BitVec 32),
      (flitFec x.width 0 codes = .uncorrectable ∨ crc ≠ ctlCrc f → Yields (.controlFlitReceive t port codes crc f) s fun v =>
        v.port port = { x with uncorr := x.uncorr || codes.contains .uncorrectable } ∧ v.mem = s.mem ∧ v.out = s.out) ∧
      (flitFec x.width 0 codes ≠ .uncorrectable → f.nak = false → f.recs = [] → Yields (.controlFlitReceive t port codes (ctlCrc f) f) s fun v =>
        (v.port port).freed = (f.cred ++ List.replicate 8 0).take 8 ∧ (v.port port).peerFallow = f.fallow ∧
        (v.port port).peerDrained = f.drained ∧ (v.port port).expect = x.expect)) ∧
    (x.st = .up → x.replay ≠ [] → x.ackAt + 4 * us ≤ u.timer →
      (x.replays + 1 < 8 → Yields (.replayTimeout t port) s fun v => PortIs { x with replays := x.replays + 1, ackAt := u.timer } (v.port port) ∧
        flitsOut port v.out = x.replay.reverse ++ flitsOut port s.out) ∧
      (8 ≤ x.replays + 1 → Yields (.replayTimeout t port) s fun v => (v.port port).st = .retrain ∧ (v.port port).replaylim = true ∧
        (v.port port).replays = 0 ∧ (v.port port).replay = x.replay)) ∧
    (∀ time, Yields (.delayReq t port time) s fun v => PortIs x (v.port port) ∧ (∀ q, q ≠ port → v.port q = s.port q) ∧ v.free = s.free + 1 ∧
      CtlOut v port fun c => .delayRsp time (Config.turnaround s.free) ∈ c.recs) ∧
    (∀ time turn, Yields (.delayRsp t port time turn) s fun v => v.port port = { x with delay := (u.timer - time - turn + 1) / 2 } ∧
      ∀ q, q ≠ port → v.port q = s.port q)

/-- For every port of a ready node with its fabric clock. EN written 0 takes it down with nothing to replay; EN written 1 in the fabric mode
takes the mode that waits for the next training, unless the mode is locked, and starts training where that mode has one, with a DELAY_REQ in
the fabric mode of a port that is not looped; RETRAIN of an up port whose mode stays retrains it. Training or a retrain that ends on enough
lanes makes it up with its peer: it sends its ACKSEQ, and flits that are not acknowledged wait for that of the far end; on too few lanes,
failed. A third failed retrain attempt leads to training, with the mode that waits for it, and training of 1 s to failed. Lost alignment of
a lane in use, or too many uncorrectable codewords, retrains it; a lane lost for good leaves the half that runs, or the port fails. While no
other port moves, and a mark was taken within 20 ns, it begins to move into fallow at stage 7 when drained on both sides, and rests there on
lane 0 once that has trained, or goes to training where lane 0 failed; it begins to leave after the stage, by a retrain of all lanes. -/
def Obligations.PortsTrainRetrainFailAndRest : Prop :=
  ∀ (s : State) (t port : Nat), let u := s.arrive t; let x := s.port port; s.ready = true → s.boot.fabClk = true → port < 8 →
    (∀ w : BitVec 32, (bitAt w.toNat 0 = false → x.en = true → Yields (.portEnable t port w) s fun v => (v.port port).en = false ∧
        (v.port port).st = .down ∧ (v.port port).replay = [] ∧ (v.port port).tx = []) ∧
      (bitAt w.toNat 0 = true → bitsOf w.toNat 1 2 = 0 → x.lock = false → x.st = .down → Yields (.portEnable t port w) s fun v =>
        let m := if bitAt w.toNat 31 then 0 else x.modeNext.getD 0
        (v.port port).en = true ∧ (v.port port).st = (if m ≤ 1 then .training else .down) ∧ (v.port port).mode = m ∧
          (v.port port).modeNext = none ∧ (v.port port).degraded = x.degraded ∧
          (m = 0 → bitAt w.toNat 5 = false → CtlOut v port fun c => .delayReq (u.timer + Config.residence s.free) ∈ c.recs)) ∧
      (bitAt w.toNat 0 = true → bitsOf w.toNat 1 2 = x.mode → x.en = true → x.st = .up → Yields (.retrain t port w) s fun v =>
        (v.port port).st = .retrain ∧ (v.port port).tries = 0 ∧ (v.port port).replay = x.replay)) ∧
    (∀ peer failed, (x.st = .training ∨ x.st = .retrain) →
      (∀ l, x.halves failed = some l → Yields (.trainingComplete t port peer failed) s fun v => (v.port port).st = .up ∧ (v.port port).lanes = l ∧
        (v.port port).peer = peer % 2 ^ 14 ∧ (v.port port).peerv = true ∧ (v.port port).tries = 0 ∧ (v.port port).moving = false ∧
        (x.replay ≠ [] → (v.port port).replay = x.replay ∧ (v.port port).resync = true) ∧
        (x.en = true → x.mode = 0 → x.loop = false → CtlOut v port fun c => c.ackseq = x.expect - 1)) ∧
      (x.halves failed = none → Yields (.trainingComplete t port peer failed) s fun v => (v.port port).st = .failed)) ∧
    (∀ peer failed, x.st = .fallow → x.moving = true →
      (0 ∉ failed → Yields (.trainingComplete t port peer failed) s fun v => (v.port port).st = .fallow ∧ (v.port port).lanes = x.lanes ∧
        (v.port port).moving = false ∧ (v.port port).tries = 0) ∧
      (0 ∈ failed → Yields (.trainingComplete t port peer failed) s fun v => let m := if x.lock then x.mode else x.modeNext.getD x.mode
        (v.port port).st = (if m ≤ 1 then .training else .down) ∧ (v.port port).lanes = 0 ∧ (v.port port).moving = false)) ∧
    (x.st = .retrain ∨ (x.st = .fallow ∧ x.moving = true) →
      (x.tries + 1 < 3 → Yields (.retrainAttemptFailed t port) s fun v => v.port port = { x with tries := x.tries + 1 }) ∧
      (3 ≤ x.tries + 1 → Yields (.retrainAttemptFailed t port) s fun v => let m := if x.lock then x.mode else x.modeNext.getD x.mode
        (v.port port).st = (if m ≤ 1 then .training else .down) ∧ (v.port port).mode = m ∧ (v.port port).modeNext = none ∧ (v.port port).tries = 0)) ∧
    (x.st = .training → x.since + 1000 * ms ≤ u.timer → Yields (.trainingTimeout t port) s fun v => (v.port port).st = .failed) ∧
    (∀ lane, x.st = .up → x.lanes = 0 → lane < 8 →
      (Yields (.laneAlignmentLoss t port lane false) s fun v => (v.port port).st = .retrain ∧ (v.port port).lanes = 0) ∧
      (Yields (.laneAlignmentLoss t port lane true) s fun v => (v.port port).st = .retrain ∧ (v.port port).degraded = true ∧
        (v.port port).lanes = (if lane < 4 then 2 else 1))) ∧
    (∀ lane, x.st = .up → x.lanes = 1 → lane < 4 → Yields (.laneAlignmentLoss t port lane true) s fun v => (v.port port).st = .failed) ∧
    (x.st = .up → Yields (.fecLimit t port) s fun v => (v.port port).st = .retrain ∧ (v.port port).uncorr = true) ∧
    ((∀ p ∈ s.lnk.ports, p.2.moving = false) → (∃ m, s.phs.markAt = some m ∧ u.timer ≤ m + 80) →
      (7 ≤ s.pwr.stage → x.st = .up → x.mode = 0 → x.fallowOk = true → x.replay = [] → x.peerDrained = true →
        Yields (.fallowEnter t port) s fun v => (v.port port).st = .fallow ∧ (v.port port).lanes = 3 ∧ (v.port port).moving = true ∧
          (v.port port).tries = 0) ∧
      (s.pwr.stage < 7 → x.st = .fallow → Yields (.fallowExit t port) s fun v => (v.port port).st = .retrain ∧ (v.port port).lanes = 0 ∧
        (v.port port).moving = true ∧ (v.port port).tries = 0)) ∧
    ((∃ q ∈ s.lnk.ports, q.2.moving = true) → ∀ cmd, (cmd = .fallowEnter t port ∨ cmd = .fallowExit t port) → exec cmd s = .next u)

/-- For every ready node and group whose queue at PD 0x4202 is the only one, empty and enabled, and names a gateway port that is UP as its
first. With no management message for the group, a datagram that is full, or whose oldest packet has waited 1 µs, carries the packets that
fit in their order, each on the lane of its kind; before that nothing happens. A management message for the group leaves in a datagram of
its own at once. A datagram leaves under the next sequence number of the far side, while the queue is in credit or unshaped, and the queue
is charged for the frame and the overhead of the port; out of credit it waits in the queue. On a port in a gateway mode that is up, a PAUSE
or PFC frame is counted and a frame that is no datagram for the gateway is dropped in silence; a mark of a good datagram is taken as a mark
of that port where its link is declared point-to-point and is dropped otherwise; a bad datagram, or one for another node, is dropped, moving
no port. At a ready node a write of the injection register stores the mode only while injection is permitted, and the other fields always,
and decisions start at the next group where a mode begins; a seed restarts the sequence, and seed 0 is stored as 1. -/
def Obligations.GatewayDatagramsAndFaultInjection : Prop :=
  ∀ (s : State) (t : Nat), let u := s.arrive t; s.ready = true →
    (∀ group port x, let q := s.pdNum 0x4202 group; let y := x.settle u.timer; let wait := u.gwWaiting group; let pack := gwTake 64 9154 wait;
      let pkts := pack.map GwMsg.crossing; let vl := if pack.any fun m => m.seg.vl == 4 then 4 else 3;
      let due := pack ≠ [] ∧ (pack.length < wait.length ∨ pack.length = 64 ∨ ∃ m ∈ wait, m.since + us ≤ u.timer);
      s.egq.qs = [(q, x)] → s.egq.held = [] → x.waiting = [] → x.en = true → (portList x.ports).find? u.gwUp = some port →
      (u.gwMgmt group = [] → due → 0 ≤ y.tokens ∨ x.unshaped = true → Yields (.gatewayDatagramSend t group) s fun v =>
        DatagramOut u v group port vl pkts ∧ (∀ m ∈ pack, m.seg.vl ≠ 4 → { m with packed := false, sentAt := u.timer } ∈ v.rmo.gw) ∧
        (v.queue q).waiting = [] ∧ (v.queue q).tokens = (y.charge (gwFrame pkts + s.pdNum 0x4201 port)).tokens) ∧
      (u.gwMgmt group = [] → ¬ due → exec (.gatewayDatagramSend t group) s = .next u) ∧
      (u.gwMgmt group = [] → due → y.tokens < 0 → x.unshaped = false → Yields (.gatewayDatagramSend t group) s fun v => v.out = s.out ∧
        (v.queue q).waiting.length = 1 ∧ ∃ id, v.rmo.dgrams = s.rmo.dgrams ++ [GwDgram.mk id group vl pkts]) ∧
      (∀ m, u.gwMgmt group = [m] → wait = [] → 0 ≤ y.tokens ∨ x.unshaped = true → Yields (.gatewayDatagramSend t group) s fun v =>
        DatagramOut u v group port 6 [u.mgmtSegment m] ∧ v.lnk = (u.mgmtLeaves (s.lnk.mgmtOut.filter fun z => !([m].contains z))).lnk ∧
        (v.queue q).tokens = (y.charge (gwFrame [u.mgmtSegment m] + s.pdNum 0x4201 port)).tokens)) ∧
    (∀ port (fr : GwFrame) (d : GwDatagram), port < 8 → (s.port port).en = true → (s.port port).mode ≠ 0 → (s.port port).loop = false →
      (s.port port).st = .up → let still (v : State) := v.lnk = s.lnk ∧ v.phs = s.phs ∧ v.rq = s.rq ∧ v.egq = s.egq;
      (fr.ether = 0x8808 → exec (.gatewayDatagramReceive t port fr d) s = .next (u.count 0x4018 (16 + port))) ∧
      (fr.ether ≠ 0x8808 → u.gwUdp fr = false → exec (.gatewayDatagramReceive t port fr d) s = .next u) ∧
      (u.gwUdp fr = true → frameFine fr d = false → Yields (.gatewayDatagramReceive t port fr d) s still) ∧
      (u.gwUdp fr = true → frameFine fr d = true →
        (∀ m, d.vl = 7 → d.mark = some m → bitAt (s.pdNum 0x4005 2) port = true →
          exec (.gatewayDatagramReceive t port fr d) s = .next (u.mark port m)) ∧
        (∀ m, d.vl = 7 → d.mark = some m → bitAt (s.pdNum 0x4005 2) port = false → Yields (.gatewayDatagramReceive t port fr d) s still) ∧
        (d.vl ≠ 7 → d.dst ≠ s.nodeId → Yields (.gatewayDatagramReceive t port fr d) s still))) ∧
    (∀ port, port < 8 → let x := s.port port; (∀ w : BitVec 32, Yields (.faultInjectCtlWrite t port w) s fun v =>
        let m := if s.pdBool 0xA010 0 then bitsOf w.toNat 0 2 else x.fmode
        v.port port = { x with fmode := m, fsev := bitAt w.toNat 2, fdepth := bitsOf w.toNat 3 4, fvlmask := BitVec.ofNat 8 (bitsOf w.toNat 8 8)
                               corrAt := if m ≠ 0 ∧ m ≠ x.fmode then x.groupAt u.timer else x.corrAt }) ∧
      (∀ w : BitVec 32, Yields (.faultInjectSeedWrite t port w) s fun v =>
        v.port port = { x with fseed := if w = 0 then 1 else w, lfsr := if w = 0 then 1 else w } ∧ v.out = s.out))

/-- For every state of a ready node. A REBUILD at a holder that can reach the standby by a queue with room puts one XOR message with its parity
frame, at the offset of the command, on the queue to it, and a SEND_PIECE at a contributor one with its record and piece; a RECONTRIBUTE
sends only messages. None of them moves a page or a byte. A complete rebuild slot is freed: a piece of another page generation, or of a page
that no longer waits, changes no page; one of a page whose other pieces are still missing is kept. A slot in use for 100 µs goes into
quarantine, and its page, if it still waits, is invalid; after its quarantine it is free. While memory keeps its form, a queued corrected
address below three corrections of the period is rewritten with the bytes it holds, a grain being computed anew from its page; at three its
row is withheld. At each hour the patrol rate of a stack doubles to at most 4 after a busy hour, halves to at least 1 after 24 quiet ones,
and otherwise stays. -/
def Obligations.RebuildAndScrubCommands : Prop :=
  ∀ (s : State) (t c : Nat), let u := s.arrive t; s.ready = true →
    (∀ (r : RingCmd) (g : RingCfg) (q : Nat), s.ringCfg c = some g → u.peerQueue c r.node = some q → rebuildOffset r.offset = true →
      s.egq.held = [] → u.roomIn q = true →
      (∀ base, u.ringBase c g = some base → Yields (.rebuild t c r) s fun v => v.pg = s.pg ∧ v.mem = s.mem ∧
        ∃ m ∈ (v.queue q).waiting, { m with entered := 0 } = mkXor g.win (Config.ringGen g.ring r.rank) s.rmo.epoch r.offset
          (s.load (base + g.frameAt r.frame) (128 + g.plen)) (.ring c) u.nextStep) ∧
      (∀ x p d f, u.strm? (s.jobOf c) r.ctx r.stream = some x → u.page? (s.jobOf c) r.ctx r.stream r.page = some p →
        u.frameOf p.desc = some (d, f) → Yields (.sendPiece t c r) s fun v => v.pg = s.pg ∧ v.mem = s.mem ∧
          ∃ m, (v.queue q).waiting = (s.queue q).waiting ++ [m] ∧ m.opc = 5 ∧ m.win = g.win ∧ m.prod = .ring c)) ∧
    (∀ (r : RingCmd) (g : RingCfg), s.ringCfg c = some g → Yields (.recontribute t c r) s fun v =>
      v.pg = s.pg ∧ v.mem = s.mem ∧ v.rel = s.rel ∧ v.lnk = s.lnk) ∧
    (∀ (slot : Nat) (r : RSlot) (g : RingCfg) (base : Nat) (x : Strm) (p : Page), s.rslot? c slot = some r → s.ringCfg c = some g →
      u.ringBase c g = some base → u.page? r.job r.ctx r.stream r.page = some p → u.strm? r.job r.ctx r.stream = some x → r.st = 1 →
      let bytes := s.load (base + rebuildBase + 8192 * slot) (128 + g.plen)
      let pos := recordPos r.lost ((holdersFrom g.rank (u.mapOf p).1 (u.pieceCount g x p)).getD r.piece 0)
      let gen := bitsOf (field bytes (16 * pos + 12) 2) 0 12
      let item := (c, r.ctx, r.stream, r.page, r.job)
      slotComplete bytes pos = true →
        (gen ≠ (u.homeOf p).gen ∨ item ∉ s.rel.pendPages → Yields (.rebuildSlotComplete t c slot) s fun v =>
          v.rslot? c slot = none ∧ v.pg = s.pg ∧ v.rel.pieces = s.rel.pieces) ∧
        (∀ i, gen = (u.homeOf p).gen → item ∈ s.rel.pendPages → i < u.pieceCount g x p → i ≠ r.piece →
          (∀ y ∈ s.rel.pieces, y.piece = i → (y.job, y.ctx, y.stream, y.page) ≠ (r.job, r.ctx, r.stream, r.page) ∧
            ∀ z ∈ u.showing c p, (y.job, y.ctx, y.stream, y.page) ≠ (z.1.job, z.1.ctx, z.2.1, z.2.2.1)) →
          Yields (.rebuildSlotComplete t c slot) s fun v => v.rslot? c slot = none ∧ v.pg = s.pg ∧
            v.rel.pieces = { job := r.job, ctx := r.ctx, stream := r.stream, page := r.page, piece := r.piece, bytes := bytes.drop 128 } :: s.rel.pieces)) ∧
    (∀ (slot : Nat) (r : RSlot), s.rslot? c slot = some r →
      (r.st = 1 → r.since + 100 * us ≤ u.timer → Yields (.rebuildSlotTimeout t c slot) s fun v =>
        v.rslot? c slot = some { r with st := 2, since := u.timer }) ∧
      (∀ p y, r.st = 1 → r.since + 100 * us ≤ u.timer → u.page? r.job r.ctx r.stream r.page = some p →
        (c, r.ctx, r.stream, r.page, r.job) ∈ s.rel.pendPages → y ∈ u.showing c p →
        (y.1.job, y.1.ctx, y.2.1, y.2.2.1) = (r.job, r.ctx, r.stream, r.page) → Yields (.rebuildSlotTimeout t c slot) s fun v =>
        v.page? r.job r.ctx r.stream r.page = some { p with desc := { p.desc with valid := false } }) ∧
      (r.st = 2 → r.since + s.pdNum 0x4101 1 * (s.pdNum 0x4101 2 + 1) * us ≤ u.timer → Yields (.rebuildSlotQuarantineEnd t c slot) s fun v =>
        v.rslot? c slot = none ∧ v.pg = s.pg)) ∧
    (∀ npa, s.memOk = true → let a := npa / 64 * 64; let n := lookD u.patrol.rel.hits a 0 + 1; s.rel.queued.contains a = true →
      (n < 3 ∨ s.rel.rows.contains (a / 1024) = true → Yields (.correctedRewrite t npa) s fun v => v.rel.queued = s.rel.queued.erase a ∧
        lookD v.rel.hits a 0 = n ∧ ∀ b, (∀ k stream page p x, u.grainAt a = some (k, stream, page, p) → u.strm? k.job k.ctx stream = some x → OutsidePages u x page 1 b) →
          Memory.read v.mem b = Memory.read s.mem b) ∧
      (3 ≤ n → Yields (.correctedRewrite t npa) s fun v => v.rel.queued = s.rel.queued.erase a ∧ a / 1024 ∈ v.rel.rows)) ∧
    (∀ stack, let busy := s.pdNum 0x3410 2 < lookD s.rel.hour stack 0; let quiet := lookD s.rel.quiet stack 0 + 1; let rate := lookD s.rel.rates stack 1;
      Yields (.scrubRateHour t stack) s fun v => lookD v.rel.hour stack 0 = 0 ∧
        lookD v.rel.rates stack 1 = (if busy then min 4 (2 * rate) else if 24 ≤ quiet then max 1 (rate / 2) else rate) ∧
        lookD v.rel.quiet stack 0 = (if busy ∨ 24 ≤ quiet then 0 else quiet))

/-- For every state of a ready node. A peer of a valid connection in either direction, none of whose ports has been up for the threshold, is
declared unreachable. A role notice by which another node takes the rank is noted; the active leases of frames at the lost node name the
standby after it, a page that stands there under the only such lease waits for its rebuild, if it has parity, and where there is no such
lease no page changes. SHADOW and LOAD begin an admission where none runs; a failed self-test ends it with its count, a good one lets it go
on; a block that compares equal leaves the own blocks, and an unequal one ends shadowing with INTEGRITY. A maintenance START or STOP for a
subject out of its range, or a START with an argument out of its range, is UNSUPPORTED and changes no activity. A START that nothing
conflicts with adds the activity under the next instance, one that conflicts is refused, STOP and the end of a staged update take it out. A
node that is not the master does not act on a notice. -/
def Obligations.MembersAreLostReplacedAndAdmitted : Prop :=
  ∀ (s : State) (t : Nat), let u := s.arrive t; s.ready = true →
    (∀ node, (∀ p ∈ portList (s.routeMask node), (s.port p).st ≠ .up ∧ (s.port p).downAt + s.pdNum 0x7101 0 * us ≤ u.timer) →
      ((∃ e ∈ s.rmo.send, e.2.valid = true ∧ e.2.fdest = node) ∨ ∃ e ∈ s.rmo.recv, e.2.valid = true ∧ e.2.osrc = node) → node ∉ s.rel.unreach → Yields (.peerUnreachable t node) s fun v => node ∈ v.rel.unreach) ∧
    (∀ r : Role, s.nodeId ≠ r.standby → Yields (.roleNotice t r) s fun v => v.rel.roles = s.rel.roles ++ [r] ∧ v.cmp = s.cmp ∧
      ((∀ l ∈ s.leases, l.2.active = true → l.2.lender = false → l.2.peer ≠ r.lost) → v.pg = s.pg) ∧
      (r.standby < 2 ^ 14 → ∀ l ∈ s.leases, l.2.active = true → l.2.lender = false → l.2.peer = r.lost →
        (Lease.ofBytes (v.pd.bytes 0x8030 l.1)).peer = r.standby) ∧
      (∀ l y, (s.leases.filter fun l => l.2.active && !l.2.lender && l.2.peer == r.lost) = [l] → u.pagesAt l.2.comp l.1 = [y] →
        (∃ x ∈ s.rel.pframes, x.key = y.2.2.2.desc.frame) → y.2.2.2.desc.borrowed = false → s.rel.pendPages = [] →
        (l.2.comp, y.1.ctx, y.2.1, y.2.2.1, y.1.job) ∈ v.rel.pendPages)) ∧
    (s.rel.joining = none → ∀ outcome snode scomp lcomp, outcome ≤ 1 → s.comp? lcomp ≠ none →
      let a (shadow : Bool) : Admit := { shadow, outcome, snode, scomp, lcomp, tested := false, steps := 0, clean := true, own := [], ready := false }
      (Yields (.shadow t outcome snode scomp lcomp) s fun v => v.rel = { s.rel with joining := some (a true), astatus := .notReady, aFail := 0 }) ∧
      (outcome = 1 ∨ s.phs.sync = false → Yields (.load t outcome snode scomp lcomp) s fun v =>
        v.rel = { s.rel with joining := some (a false), astatus := .notReady, aFail := 0 })) ∧
    (∀ a, s.rel.joining = some a →
      (∀ n, a.tested = false → n ≠ 0 → Yields (.admissionSelfTestDone t n) s fun v => v.rel.joining = none ∧ v.rel.aFail = n ∧ v.rel.astatus = .faultTorndown) ∧
      (a.tested = false → Yields (.admissionSelfTestDone t 0) s fun v => v.rel = { s.rel with joining := some { a with tested := true, ready := !a.shadow } }) ∧
      (∀ (b : ShadowBlock) crc, a.shadow = true → a.tested = true → a.clean = true → a.own = [(b.req, b.sec, crc)] →
        (crc = b.crc → Yields (.shadowCompare t b) s fun v => ∃ a', v.rel.joining = some a' ∧ a'.own = [] ∧
          a'.steps = (if b.last then a.steps + 1 else a.steps) ∧ a'.ready = decide (1024 ≤ a'.steps)) ∧
        (crc ≠ b.crc → Yields (.shadowCompare t b) s fun v => v.rel.joining = none ∧ v.rel.astatus = .integrity))) ∧
    (∀ act subj arg, subjectOk act subj = false ∨ argOk act arg = false → Yields (.maintenanceStart t act subj arg) s fun v => v.rel.mstatus = .unsupported ∧
      v.rel.acts = s.rel.acts) ∧
    (∀ act subj arg, 1 ≤ act → act ≤ 7 → subjectOk act subj = true → argOk act arg = true → ((act = 4 ∨ act = 7) → s.pwr.stage = 0) →
      ((∀ a ∈ s.rel.acts, actConflict act subj a.act a.subj = false) → Yields (.maintenanceStart t act subj arg) s fun v => v.rel.mstatus = .ok ∧
        v.rel.nextInst = s.rel.nextInst + 1 ∧ v.rel.acts = s.rel.acts ++ [{ act, subj, inst := s.rel.nextInst, since := u.phase, self := false }]) ∧
      ((∃ a ∈ s.rel.acts, actConflict act subj a.act a.subj = true) → Yields (.maintenanceStart t act subj arg) s fun v =>
        v.rel.mstatus = .busyConflict ∧ v.rel.acts = s.rel.acts ∧ v.rel.nextInst = s.rel.nextInst)) ∧
    (∀ act subj, (subjectOk act subj = true → Yields (.maintenanceStop t act subj) s fun v => v.rel.mstatus = .ok ∧
        v.rel.acts = s.rel.acts.filter (fun a => !(a.act == act && a.subj == subj && !a.self))) ∧
      (subjectOk act subj = false → Yields (.maintenanceStop t act subj) s fun v => v.rel.mstatus = .unsupported ∧ v.rel.acts = s.rel.acts)) ∧
    (Yields (.fwupdateStaged t) s fun v => v.rel = { s.rel with acts := s.rel.acts.filter fun a => a.act != 7 }) ∧
    (∀ n : Notice, s.phs.master = false → s.rel.joining = none → Yields (.faultNotice t n) s fun v => v.phs = s.phs ∧ v.rel = s.rel)

/-- For every master of a ready node that has SYNC, with no admission running. A fault notice of scope 6 or 7, or one that finds the fourth HOLD
of the step reached, is kept, leaves the Phase held and the job to be restarted. A barrier that passes its timeout with reports missing
leaves, at the fourth HOLD, the Phase held, every other missing node unreachable and the job to be restarted; below the fourth it leaves the
Phase held while a standby is awaited or a restart stands, and not held where no missing node is a member of a ring, none is awaited and no
restart stands. Before the timeout, or with every report in, it does nothing. A standby that becomes ready is waited for no longer; while
another is awaited the Phase stays held, and after the last one, where no restart stands, it is held no longer. -/
def Obligations.TheMasterHoldsAndRestarts : Prop :=
  ∀ (s : State) (t : Nat), let u := s.arrive t; s.ready = true → s.phs.master = true → s.phs.sync = true → s.rel.joining = none →
    (∀ n : Notice, 1 ≤ n.scope → n.scope ≤ 7 → (n.scope = 6 ∨ n.scope = 7 ∨ (if s.phs.held then 4 else 3) ≤ s.phs.holds) →
      Yields (.faultNotice t n) s fun v => v.phs.held = true ∧ v.phs.fwdDone = true ∧ v.rel.restarted = true ∧ n ∈ v.rel.notices) ∧
    (s.phs.held = false → s.lastLayer = true → s.period + s.pdNum 0x7030 0 ≤ u.elapsed → s.allReported = false → 3 ≤ s.phs.holds →
      Yields (.barrierTimeout t) s fun v => v.phs.held = true ∧ v.phs.fwdDone = true ∧ v.rel.restarted = true ∧
        ∀ n ∈ s.missing, n ≠ s.nodeId → n ∈ v.rel.unreach) ∧
    (s.phs.held = false → s.lastLayer = true → s.period + s.pdNum 0x7030 0 ≤ u.elapsed → s.allReported = false → s.phs.holds < 3 →
      (s.rel.waiting ≠ [] ∨ s.rel.restarted = true → Yields (.barrierTimeout t) s fun v => v.phs.held = true ∧
        ∀ n ∈ s.missing, n ≠ s.nodeId → n ∈ v.rel.unreach) ∧
      (s.rel.waiting = [] → s.rel.restarted = false → (∀ n ∈ s.missing, u.masterHold.lostMembers (u.masterHold.nodeNotice n) = []) →
        Yields (.barrierTimeout t) s fun v => v.phs.held = false)) ∧
    (s.phs.held = true ∨ s.lastLayer = false ∨ u.elapsed < s.period + s.pdNum 0x7030 0 ∨ s.allReported = true →
      exec (.barrierTimeout t) s = .next u) ∧
    (∀ ring rank, s.phs.held = true → (ring, rank) ∈ s.rel.waiting →
      ((∃ w ∈ s.rel.waiting, w ≠ (ring, rank)) → Yields (.standbyReady t ring rank) s fun v => v.phs = s.phs ∧
        v.rel = { s.rel with waiting := s.rel.waiting.filter (· != (ring, rank)) }) ∧
      ((∀ w ∈ s.rel.waiting, w = (ring, rank)) → s.rel.restarted = false → Yields (.standbyReady t ring rank) s fun v => v.phs.held = false))

/-- For every state. At a ready node a power sample joins the last hundred, sets the reading from the mean of 100 ms, and engages the limit when
the mean of a full millisecond exceeds it. Temperatures at the trip level of either group trip the card: the trip and its pin are set and no
byte stays in memory; below it, a ready node takes the throttle level of the hottest logic sensor. A powered card notes an asserted or
deasserted warning and a sag, and a ready one whose lock is open clamps SLEW to 50 to 250 for the next step, sets the ballast, and begins
the rise of a slot once: to the current of the slot with the slots at work where the card is below it, what is above the work counting as
ballast once the rise has ended. -/
def Obligations.PowerAndTemperatureSamplesAct : Prop :=
  ∀ (s : State) (t : Nat), let u := s.arrive t;
    (∀ watts, s.ready = true → (∀ m, Yields (.powerSample t watts (some m)) s fun v => v.pwr.watts = (watts :: s.pwr.watts).take 100 ∧
        v.pwr.reading = round25 m) ∧
      (Yields (.powerSample t watts none) s fun v => v.pwr.watts = (watts :: s.pwr.watts).take 100 ∧ v.pwr.reading = s.pwr.reading ∧
        (((watts :: s.pwr.watts).take 100).length = 100 → s.pwr.cap = false →
          (s.pdNum 0x2001 0 : Rat) < (((watts :: s.pwr.watts).take 100).sum : Rat) / 100 → v.pwr.cap = true ∧ v.pwr.capAt = u.timer))) ∧
    (∀ temps : List Int, let l := temps.zipIdx.map fun x => (x.2, x.1); let a := hottest (l.filter fun x => decide (x.1 ≤ 4));
      let h := hottest (l.filter fun x => decide (5 ≤ x.1) && decide (x.1 ≤ 28));
      s.boot.powered = true → s.boot.perst = false → s.pwr.trip = false →
      (115 ≤ a.2 ∨ 100 ≤ h.2 → Yields (.thermalSample t temps) s fun v => v.pwr.trip = true ∧ v.boot.thermTrip = true ∧ v.mem = []) ∧
      (a.2 < 115 → h.2 < 100 → s.ready = true → Yields (.thermalSample t temps) s fun v => v.pwr.throt = throttleLevel s.pwr.throt a.2 ∧
        v.pwr.hbmHot = (decide (95 ≤ h.2) || (s.pwr.hbmHot && decide (92 ≤ h.2))) ∧ v.pwr.trip = false ∧ (s.hbm.hostHeld = [] → v.rq = s.rq))) ∧
    (s.boot.powered = true → (Yields (.pwrWarnAssert t) s fun v => v.pwr.warn = true ∧ v.pwr.sag = s.pwr.sag ∧ v.pwr.stage = s.pwr.stage ∧
        v.pwr.warnAt = (if s.pwr.warn then s.pwr.warnAt else u.timer)) ∧
      (Yields (.pwrWarnDeassert t) s fun v => v.pwr.warn = false ∧ v.pwr.sag = s.pwr.sag ∧ v.pwr.stage = s.pwr.stage) ∧
      (∀ percent, Yields (.supplySag t percent) s fun v => v.pwr.sag = percent ∧ v.pwr.warn = s.pwr.warn ∧ v.pwr.stage = s.pwr.stage)) ∧
    (∀ w : BitVec 32, s.ready = true → (s.pwr.lock = false → Yields (.govCtlWrite t w) s fun v =>
        v.pwr = { s.pwr with slewNext := some (max 50 (min 250 (bitsOf w.toNat 0 9))), ballast := bitAt w.toNat 9 }) ∧
      (s.pwr.lock = true → exec (.govCtlWrite t w) s = .next u)) ∧
    (∀ slot e, s.ready = true → s.slots.find? (fun e => e.1 == slot) = some (slot, e) → slot ∉ s.pwr.rises → Yields (.governorRiseStart t slot) s fun v =>
      v.rq = s.rq ∧ let level := max s.pwr.level (levelOf (e :: u.atWork))
      v.pwr = { s.pwr with rises := slot :: s.pwr.rises, level, excess := level - levelOf u.atWork,
                           excessAt := u.timer + 16 * u.slopeTicks (level - s.pwr.level) })

/-- For every state of a ready node. When the trigger of a deeper stage than the present one has held, below stage 6, the node enters the
deepest triggered stage and notes it as the highest it has reached. Stage 6 ends in stage 7 when its work is done or after 50 µs. Stages 1
to 5 are left one at a time after 1 ms without a trigger; stage 7 after 10 ms of clean rails, into stage 5 with admission held. RESUME ends
that hold. IDLE of a node without serving composition, schedule or stage enters stage 7, and clearing it leaves for stage 0. The restart of
the Security Core of a powered card brings it up and moves no composition. -/
def Obligations.SheddingStagesAndHoldover : Prop :=
  ∀ (s : State) (t : Nat), let u := s.arrive t; s.ready = true →
    (∀ stage, let top := ((List.range 7).filter fun n => u.trigger n).foldl max 0; s.pwr.off = false → u.trigger stage = true → s.pwr.stage < 6 →
      s.pwr.stage < top → Yields (.shedStageEnter t stage) s fun v => v.pwr.stage = top ∧ v.pwr.stagehi = max s.pwr.stagehi top ∧
        v.pwr.stageAt = u.timer ∧ stage ≤ v.pwr.stage) ∧
    (s.pwr.stage = 6 → u.shedDone = true ∨ s.pwr.stageAt + 50 * us ≤ u.timer → Yields (.stage6End t) s fun v =>
      v.pwr = { s.pwr with stage := 7, stagehi := max s.pwr.stagehi 7, stageAt := u.timer }) ∧
    (1 ≤ s.pwr.stage → s.pwr.stage ≤ 5 → s.pwr.held = false → s.pwr.warn = false → s.pwr.sag < 2 →
      lookD s.pwr.lastHeld s.pwr.stage 0 + ms ≤ u.timer → Yields (.shedStageExit t) s fun v =>
        v.pwr = { s.pwr with stage := s.pwr.stage - 1, stageAt := u.timer }) ∧
    (s.pwr.stage = 7 → s.pwr.idle = false → s.pwr.clean = true → s.pwr.cleanAt + 10 * ms ≤ u.timer → Yields (.holdoverExit t) s fun v =>
      v.pwr = { s.pwr with stage := 5, held := true, stageAt := u.timer }) ∧
    (s.pwr.held = true → s.pwr.idle = false → Yields (.powerResume t) s fun v => v.pwr = { s.pwr with held := false }) ∧
    (∀ w : BitVec 32, bitAt w.toNat 0 = false → bitAt w.toNat 31 = false →
      (bitAt w.toNat 1 = true → s.sch.en = false → (∀ k ∈ s.cmp.comps, k.2.st ≠ .active ∧ k.2.st ≠ .shrinking) → s.pwr.stage = 0 →
        Yields (.idleFallow t w) s fun v => v.pwr.stage = 7 ∧ v.pwr.idle = true) ∧
      (bitAt w.toNat 1 = false → s.pwr.idle = true → Yields (.idleFallow t w) s fun v =>
        v.pwr = { s.pwr with idle := false, stage := 0, stageAt := u.timer })) ∧
    (s.boot.powered = true → Yields (.securityCoreRestart t) s fun v => v.sec = { s.sec with up := true } ∧ v.pwr = s.pwr)

/-- For every state. PERST_N asserted on a powered card, and TESTEN high, leave the card in reset, not ready, with no byte of memory, no
context, request or composition, and the signed configuration as it was. Removal of power clears a thermal trip and the power state as well.
PERST_N deasserted without a trip starts the boot with its address strap. ROM verification of either image leads to the next stage with the
Security Core up, of none to FAILED 1; the next stage takes the stored Node ID and trains the ports; HBM training marks the failed stacks
and leads on while one works; zeroisation leaves no byte; flash training accepts the targets whose parameter page fits, keeps retired blocks
retired, queues the programmed ones for erasure and ends in READY, with the searches of the directory enabled; where every channel goes on
working, the end of the background erasure leaves every queue empty and its blocks erased. A boot paused by the supply goes on after 10 ms
without a trigger. -/
def Obligations.ResetClearsAndBootRunsItsStages : Prop :=
  ∀ (s : State) (t : Nat), let u := s.arrive t;
    (s.boot.powered = true → ∀ cmd, (cmd = .perstNAssert t ∨ cmd = .testenHigh t) → Yields cmd s fun v => v.boot.perst = true ∧ v.ready = false ∧
      v.mem = [] ∧ v.pg.ctxs = [] ∧ v.rq.reqs = [] ∧ v.cmp.comps = [] ∧ v.pd.vals = [] ∧ v.pd.stored = s.pd.stored ∧ v.sec.up = false ∧
      v.pwr.trip = s.pwr.trip ∧ (cmd = .testenHigh t → v.boot.testen = true)) ∧
    (Yields (.powerRemoved t) s fun v => v.boot.powered = false ∧ v.boot.thermTrip = false ∧ v.pwr = State.reset.pwr ∧ v.mem = [] ∧
      v.ready = false ∧ v.pd.stored = s.pd.stored) ∧
    (∀ addr, s.boot.perst = true → s.pwr.trip = false → Yields (.perstNDeassert t addr) s fun v => v.boot.perst = false ∧ v.boot.testen = false ∧
      v.boot.powered = true ∧ v.boot.stage = 0 ∧ v.boot.smbAddr = 0x60 + addr % 4 ∧ v.boot.t0 = u.timer) ∧
    (s.booting 0 = true → (∀ a b, a = true ∨ b = true → Yields (.romVerifyDone t a b) s fun v => v.boot.stage = 1 ∧ v.sec.up = true ∧
        v.sec.boot = (if a then 1 else 2)) ∧
      (Yields (.romVerifyDone t false false) s fun v => v.boot.stage = 15 ∧ v.boot.fail = 1 ∧ v.sec.boot = 3 ∧ v.boot.nodeRdy = false)) ∧
    (s.booting 1 = true → s.sec.up = true → ∀ cfgOk derived, Yields (.scStageDone t cfgOk derived) s fun v => v.boot.stage = 2 ∧
      v.boot.nodeId = v.pdNum 0x1001 0 ∧ v.boot.cfgdef = (!cfgOk || s.pd.stored == []) ∧
      ∀ p, p < 8 → (v.port p).mode ≤ 1 → (v.port p).en = true ∧ (v.port p).st = .training) ∧
    (s.booting 2 = true → ∀ failed : List Nat, ((∃ n, n < 24 ∧ n ∉ failed) → Yields (.hbmTrainingDone t failed) s fun v => v.boot.stage = 3 ∧
        v.sec.zero = true ∧ (∀ n, n ∈ v.boot.badStacks ↔ n < 24 ∧ n ∈ failed)) ∧
      ((∀ n, n < 24 → n ∈ failed) → Yields (.hbmTrainingDone t failed) s fun v => v.boot.stage = 15 ∧ v.boot.fail = 2)) ∧
    (s.booting 3 = true → s.sec.up = true → Yields (.zeroisationDone t) s fun v => v.mem = [] ∧ v.sec.zero = false ∧ v.boot.stage = 4 ∧
      v.sec.tappriv = !s.sec.life) ∧
    (s.booting 4 = true → ∀ pages retired programmed, Yields (.flashTrainingDone t pages retired programmed) s fun v => v.boot.stage = 5 ∧
      v.boot.ready = true ∧ v.boot.nodeRdy = true ∧ v.phs.en = true ∧ v.boot.flashbg = ((programmed.take 32).any fun l => l != []) ∧ v.hbm.adirEn = true ∧
      ∀ n, n < 32 → let ps := (pages.getD n []).take 8; (v.flash n).targets = (ps.filter targetOk).length ∧
        (v.flash n).eraseq = (programmed.getD n []).map (·.block) ∧ (∀ b ∈ retired.getD n [], b ∉ (programmed.getD n []).map (·.block) →
          ((v.flash n).block b).retired = true) ∧
        ((v.flash n).refused = true ↔ ∃ p ∈ ps, targetOk p = false) ∧ ((v.flash n).up = true ↔ ∃ p ∈ ps, targetOk p = true)) ∧
    (s.ready = true → s.boot.flashbg = true → (∀ n, n < 32 → FlashHolds n (s.flash n)) → Yields (.flashBackgroundEraseDone t) s fun v => v.boot = { s.boot with flashbg := false, erase := 0 } ∧
      ∀ n, n < 32 → (v.flash n).eraseq = [] ∧ ∀ b ∈ (s.flash n).eraseq, ((v.flash n).block b).live + ((v.flash n).block b).stale = 0) ∧
    (s.boot.paused = true → s.pwr.warn = false → s.pwr.sag < 3 → lookD s.pwr.lastHeld 1 0 + 10 * ms ≤ u.timer →
      Yields (.bootStageRestart t) s fun v => v.boot = { s.boot with paused := false })

/-- For every state. Loss of REFCLK_CORE on a running card stops it, of REFCLK_FAB takes every port out of UP, and of REFCLK_PCIE resets the
host interface; the fabric clock comes back by its return. At a ready node, an orderly power-down is noted once and ends, when the shed work
is done and the Security Core is up, with OFFOK. Stored writes that are not staged are persisted and wait no longer. An AVS request is
retried once and then given up. An alert response releases the alert line. -/
def Obligations.ClocksPowerDownAndPersistence : Prop :=
  ∀ (s : State) (t : Nat), let u := s.arrive t;
    (s.boot.powered = true → s.boot.perst = false → s.boot.coreClk = true → Yields (.refclkCoreLoss t) s fun v => v.boot.coreClk = false ∧
      v.ready = false ∧ v.boot.nodeRdy = false ∧ v.rq.held = []) ∧
    (s.boot.fabClk = true → Yields (.refclkFabLoss t) s fun v => v.boot.fabClk = false ∧
      ∀ p, p < 8 → (v.port p).st ≠ .up ∧ (v.port p).st ≠ .fallow ∧ ((s.port p).st = .up → (v.port p).st = .retrain)) ∧
    (s.boot.fabClk = false → Yields (.refclkFabReturn t) s fun v => v.boot.fabClk = true ∧
      ∀ p, p < 8 → (v.port p).st = (s.port p).st ∧ ((s.port p).st = .retrain → (v.port p).tries = 0)) ∧
    (s.boot.powered = true → Yields (.refclkPcieLoss t) s fun v => v.boot.pcieClk = false ∧ v.hif.rate = 0 ∧ v.hif.width = 0 ∧ v.pd.buf = [] ∧
      v.cmp = s.cmp ∧ v.mem = s.mem) ∧
    (s.ready = true → (s.pwr.off = false → Yields (.orderlyPowerDown t) s fun v => v.pwr.off = true ∧ v.boot.nodeRdy = false ∧ v.noAdmission = true) ∧
      (s.pwr.off = true → exec (.orderlyPowerDown t) s = .next u) ∧
      (s.pwr.off = true → s.pwr.offok = false → u.shedDone = true → s.sec.up = true → Yields (.powerDownReady t) s fun v =>
        v.pwr = { s.pwr with offok := true } ∧ v.mem = s.mem) ∧
      (s.sec.up = true → Yields (.configPersist t) s fun v => v.pd.unsaved = s.pd.unsaved.filter (fun k => s.staged k) ∧
        v.pd.vals = s.pd.vals ∧ ∀ k b, s.pd.unsaved = [k] → s.staged k = false → u.inForce k.1 k.2 = some b →
          v.pd.stored = (k.1, k.2, b) :: s.pd.stored.filter (fun v => !(v.1 == k.1 && v.2.1 == k.2)))) ∧
    (∀ w, s.boot.avsWant = some w → (s.boot.avsTries = 0 → Yields (.avsRequestTimeout t) s fun v => v.boot = { s.boot with avsTries := 1 }) ∧
      (s.boot.avsTries ≠ 0 → Yields (.avsRequestTimeout t) s fun v => v.boot.avsWant = none ∧ v.boot.avsTries = 2 ∧ v.boot.mv = s.boot.mv)) ∧
    (Yields (.smbAlertResponse t) s fun v => v.boot = { s.boot with alert := false })

/-- For every powered card whose test port is open. Each instruction becomes the one in effect, and IDCODE selects the identity 0x1A24_05CB.
SAMPLE/PRELOAD keeps the cells and moves nothing else. EXTEST, CLAMP, HIGHZ, EXTEST_PULSE and EXTEST_TRAIN leave every port down and off, no
request waiting at intake, and the node not ready until reset. A private opcode is selected in the OPEN state and acts as BYPASS otherwise;
its debug access writes or reads HBM or tile SRAM, in HBM taking the grant that was decided there, while memory debug is open, and it moves
nothing else. While the card is sealed with a composition, every instruction acts as BYPASS. -/
def Obligations.JtagInstructionsSelectAndStop : Prop :=
  ∀ (s : State) (t : Nat), s.boot.powered = true →
    (s.tapClosed = false →
      (Yields (.bypass t) s fun v => v.boot = { s.boot with ir := 0xFF, tdo := none }) ∧
      (Yields (.idcode t) s fun v => v.boot = { s.boot with ir := 0x01, tdo := some 0x1A2405CB }) ∧
      (∀ cells, Yields (.samplePreload t cells) s fun v => v.boot = { s.boot with ir := 0x02, tdo := none, cells } ∧ v.lnk = s.lnk ∧ v.rq = s.rq) ∧
      (∀ cmd n, (cmd = .extest t ∧ n = 3 ∨ cmd = .clamp t ∧ n = 4 ∨ cmd = .highz t ∧ n = 5 ∨ cmd = .extestPulse t ∧ n = 6 ∨ cmd = .extestTrain t ∧ n = 7) →
        Yields cmd s fun v => v.boot.ir = n ∧ v.boot.dead = true ∧ v.ready = false ∧ v.rq.held = [] ∧
          ∀ p, p < 8 → (v.port p).st = .down ∧ (v.port p).en = false) ∧
      (∀ p : PrivateOp, privateOpcode p.opcode = true → (Yields (.privateInstruction t p) s fun v => v.lnk = s.lnk ∧
          v.boot.ir = (if s.sec.tappriv then p.opcode % 256 else 0xFF)) ∧
        (p.access = none ∨ s.sec.tappriv = false ∨ s.sec.memdbg = false → Yields (.privateInstruction t p) s fun v => v.mem = s.mem ∧
          v.hbm = s.hbm) ∧
        (∀ d, p.access = some d → s.sec.tappriv = true → s.sec.memdbg = true → isHbm d.npa = true ∨ isSram d.npa = true →
          Yields (.privateInstruction t p) s fun v => (isHbm d.npa = true → (v.arb (pcOf d.npa)).grant = none) ∧
            (∀ b, d.wr = some b → v.mem = Memory.writes s.mem d.npa b) ∧
            (d.wr = none → v.mem = s.mem ∧ v.out = .debugRead d.npa (s.load d.npa d.len) :: s.out)))) ∧
    (s.tapClosed = true → ∀ cmd, (cmd = .bypass t ∨ cmd = .idcode t ∨ (∃ cells, cmd = .samplePreload t cells) ∨ cmd = .extest t ∨ cmd = .clamp t ∨
      cmd = .highz t ∨ cmd = .extestPulse t ∨ cmd = .extestTrain t) → Yields cmd s fun v => v.boot = { s.boot with ir := 0xFF, tdo := none } ∧
        v.lnk = s.lnk ∧ v.rq = s.rq ∧ v.mem = s.mem)

/-- For every live node past READY and every item. A READ of an entry that the principal may read answers its value cut to the segment, one that
it may not read ACCESS_DENIED. A WRITE that nothing refuses, of an entry whose write only sets its value, makes the value what was written,
with its reserved fields zero, and lists a Stored entry as unsaved; a refused one keeps every value; a segment without LAST is staged. A
DESCRIBE answers the definition, NEXT the next entry that the principal reaches, and DEFAULT, where nothing refuses it, leaves the entry at
its default, in force and in the configuration. Staging that has stood for 1 s is dropped. Before READY each item is answered NOT_READY. -/
def Obligations.DirectoryItemsReadWriteAndDescribe : Prop :=
  ∀ (s : State) (t : Nat) (p : Principal) (i : PdItem), let u := s.arrive t; s.alive = true →
    (s.boot.ready = false → exec (.pdRead t p i) s = .next (u.emit (.pdItem p ⟨i.index, i.sub, .notReady, 0, []⟩))) ∧
    (s.boot.ready = true → ∀ e, pdFind i.index i.sub = some e →
      ((e.access p i.sub).reads = true → Yields (.pdRead t p i) s fun v => v.pd = s.pd ∧ v.mem = s.mem ∧
        let x := if i.seg then (u.pdValue p e i.sub).drop i.offset else u.pdValue p e i.sub
        v.out = .pdItem p ⟨i.index, i.sub, .ok, e.typ.code, (if i.len = 0 then x else x.take i.len).take 1256⟩ :: s.out) ∧
      ((e.access p i.sub).reads = false → Yields (.pdRead t p i) s fun v => v.pd.vals = s.pd.vals ∧
        v.out = .pdItem p ⟨i.index, i.sub, .accessDenied, e.typ.code, []⟩ :: s.out) ∧
      (e.access p i.sub ≠ .no → Yields (.pdDescribe t p i) s fun v => v.pd = s.pd ∧
        v.out = .pdItem p ⟨i.index, i.sub, .ok, e.typ.code, (e.describe i.sub).take 1256⟩ :: s.out) ∧
      ((e.access p i.sub).writes = false → Yields (.pdWrite t p i) s fun v => v.pd.vals = s.pd.vals ∧ v.pd.staging = s.pd.staging ∧
        v.out = .pdItem p ⟨i.index, i.sub, .accessDenied, e.typ.code, []⟩ :: s.out) ∧
      ((e.access p i.sub).writes = true → i.value.length = i.len → i.seg = false → u.stagingOf i.index i.sub = none →
        (∀ st, u.writeRefusal e i.sub i.value = some st → Yields (.pdWrite t p i) s fun v => v.pd = s.pd ∧
          v.out = .pdItem p ⟨i.index, i.sub, st, e.typ.code, []⟩ :: s.out) ∧
        (u.writeRefusal e i.sub i.value = none → PlainEntry i.index i.sub e → Yields (.pdWrite t p i) s fun v =>
          v.pd.bytes i.index i.sub = pdClean i.index i.value ∧ (pdFields i.index i.len = List.replicate i.len 255 → v.pd.bytes i.index i.sub = i.value) ∧ (e.stored = true → (i.index, i.sub) ∈ v.pd.unsaved) ∧
          v.out.head? = some (.pdItem p ⟨i.index, i.sub, .ok, e.typ.code, []⟩))) ∧
      ((e.access p i.sub).writes = true → i.value.length = i.len → i.seg = true → i.last = false → e.typ.isBytes = true → e.op ≠ .wo →
        u.stagingOf i.index i.sub = none → i.offset + i.len ≤ e.maxLen → (e.stored = true → s.sec.up = true) →
        Yields (.pdWrite t p i) s fun v => v.pd.vals = s.pd.vals ∧ ∃ g ∈ v.pd.staging, g.index = i.index ∧ g.sub = i.sub ∧ g.since = u.timer ∧
          g.len = i.offset + i.len ∧ (g.data.drop i.offset).take i.len = i.value) ∧
      ((e.access p i.sub).writes = true → u.stagingOf i.index i.sub = none → u.writeRefusal e i.sub (pdDefault e.index i.sub) = none →
        PlainEntry i.index i.sub e → Yields (.pdDefault t p i) s fun v => v.pd.bytes i.index i.sub = pdDefault i.index i.sub ∧
          (∀ x ∈ v.pd.stored, ¬ (x.1 = i.index ∧ x.2.1 = i.sub)) ∧ v.out.head? = some (.pdItem p ⟨i.index, i.sub, .ok, e.typ.code, []⟩))) ∧
    (s.boot.ready = true → Yields (.pdNext t p i) s fun v => v.pd = s.pd ∧ v.out = .pdItem p (nextItem p i) :: s.out) ∧
    (∀ index sub, Yields (.pdStagingTimeout t index sub) s fun v => v.pd.vals = s.pd.vals ∧
      ∀ g, g ∈ v.pd.staging ↔ g ∈ s.pd.staging ∧ ¬ (g.index = index ∧ g.sub = sub ∧ g.since + 1000 * ms ≤ u.timer))

/-- For every live node past READY. A message from the operator over PCIe MCTP of good shape is answered with one answer for each item, a
misshapen one with UNSUPPORTED and no change of the Directory. An authenticated Ethernet message that repeats the last sequence number gets
the last answers again, an earlier one is dropped and counted, and without open access an unauthenticated one is dropped. The mailbox of the
physical function then holds the response, its length and DONE. From boot stage 2 on, the management port answers an ARP request, a
neighbour solicitation and an echo request for one of its addresses, and nothing for another. -/
def Obligations.DirectoryMessagesAndManagementPort : Prop :=
  ∀ (s : State) (t : Nat), let u := s.arrive t; s.alive = true →
    (∀ m : PdMsg, s.boot.ready = true →
      (shapeOk m = true → Yields (.pdpMessage t .mctpPcie m) s fun v => v.pd.seqs = s.pd.seqs ∧ ∃ l,
        v.out.head? = some (.pd .mctpPcie .ok m.seq l) ∧ l.length = m.nitem) ∧
      (shapeOk m = false → Yields (.pdpMessage t .mctpPcie m) s fun v => v.pd = s.pd ∧ v.out = .pd .mctpPcie .unsupported m.seq [] :: s.out) ∧
      (m.authf = true → shapeOk m = true → m.authOk = true → s.genOk 0 m.kgen = true →
        ∀ x, (s.pd.seqs.find? fun x => x.who == principalCode .operator && x.tr == transportCode .ethernet) = some x →
        (x.seq = m.seq → Yields (.pdpMessage t .ethernet m) s fun v => v.pd = s.pd ∧ v.out = .pd .ethernet x.st m.seq x.items :: s.out) ∧
        (x.seq ≠ m.seq → seqEarlier x.seq m.seq = false → exec (.pdpMessage t .ethernet m) s = .next (u.count 0x1030 2))) ∧
      (m.authf = false → bitAt (s.pdNum 0x1021 0) 0 = false → exec (.pdpMessage t .ethernet m) s = .next (u.count 0x1030 2)) ∧
      (shapeOk m = true → Yields (.pdMailboxGo t m) s fun v => v.pd.done = true ∧ ∃ l, l.length = m.nitem ∧
        v.pd.len = (responseBytes m .ok l).length ∧ v.pd.buf.take v.pd.len = responseBytes m .ok l)) ∧
    (2 ≤ s.boot.stage → ∀ ip, (s.ownAddress false ip = true → Yields (.arpRequest t ip) s fun v => v.out = .net 1 s.boot.mac :: s.out) ∧
      (s.ownAddress false ip = false → exec (.arpRequest t ip) s = .next u) ∧
      (s.ownAddress true ip = true → Yields (.neighbourSolicitation t ip) s fun v => v.out = .net 2 s.boot.mac :: s.out) ∧
      (∀ v6 data, s.ownAddress v6 ip = true → Yields (.echoRequest t ip v6 data) s fun v =>
        v.out = .net (if v6 then 4 else 3) data :: s.out ∧ v.pd = s.pd))

/-- For every ready node with its host link, and a function from 1 to 16. A doorbell stores the tail; where the ring is on, idle and not empty
and nothing stops it, a free mailbox at the head becomes BUSY under the next sequence number, which is never 0, and its entry is read; one
that is not free stalls the ring. A fetch that a check refuses makes its BUSY mailbox READY with the status, and one that passes while
admission is stopped waits at intake. A fetch that times out ends with INTEGRITY and sets ERR, or with ACCESS_DENIED where the host is shut
out. A read of W0 latches the mailbox and marks a READY one consumed. A release with the sequence number of a READY mailbox frees it, any
other is only counted. None of them changes memory. -/
def Obligations.SubmissionRingsAndMailboxes : Prop :=
  ∀ (s : State) (t n : Nat), let u := s.arrive t; let x := s.vf n; s.ready = true → s.hostUp = true → 1 ≤ n → n ≤ 16 →
    (∀ tail, let tl := tail % 256 % 2 ^ x.lsize; let seq : BitVec 32 := if x.seq + 1 = 0 then 1 else x.seq + 1;
      (x.en = false → Yields (.doorbell t n tail) s fun v => v.vf n = { x with tail := tl } ∧ v.mem = s.mem) ∧
      (x.en = true → x.fetching = false → x.head ≠ tl → s.pwr.stage < 6 → s.pwr.held = false → s.pwr.off = false →
        ((x.box x.head).st = .free → Yields (.doorbell t n tail) s fun v => (v.vf n).fetching = true ∧ (v.vf n).tail = tl ∧
          (v.vf n).head = (x.head + 1) % 2 ^ x.lsize ∧ (v.vf n).seq = seq ∧ seq ≠ 0 ∧
          (v.vf n).box x.head = { Mbx.free with st := .busy, seq } ∧ v.out = .hostRead n (x.base.toNat + 32 * x.head) 32 :: s.out) ∧
        ((x.box x.head).st ≠ .free → Yields (.doorbell t n tail) s fun v => v.vf n = { x with tail := tl, stall := true } ∧ v.out = s.out))) ∧
    (x.fetching = true → x.en = true → x.head = x.tail → let slot := (x.head + 2 ^ x.lsize - 1) % 2 ^ x.lsize;
      (x.box slot).st = .busy →
      (∀ e b st, e.readOk = true → u.fetchCheck n e b = some st → Yields (.submissionFetch t n e b) s fun v => (v.vf n).fetching = false ∧
        ((v.vf n).box slot).st = .ready ∧ ((v.vf n).box slot).status = st ∧ ((v.vf n).box slot).tag = (bodyEnv b).tag ∧
        ((v.vf n).box slot).seq = (x.box slot).seq ∧ v.mem = s.mem) ∧
      (∀ e r, u.fetchCheck n e (.attend r) = none → s.noAdmission = true → Yields (.submissionFetch t n e (.attend r)) s fun v =>
        (v.vf n).fetching = false ∧ ((v.vf n).box slot).st = .busy ∧ ((v.vf n).box slot).res = e.res ∧
        v.rq = { s.rq with held := s.rq.held ++ [.attendRequest u.timer (.doorbell n slot) r] }) ∧
      (∀ e, let shut := (s.vfComp n).elim true s.sealedHost; Yields (.fetchTimeout t n e) s fun v => (v.vf n).fetching = false ∧
        ((v.vf n).box slot).st = .ready ∧ ((v.vf n).box slot).status = (if shut then .accessDenied else .integrity) ∧
        (v.vf n).err = (x.err || !shut) ∧ v.mem = s.mem)) ∧
    (∀ i, i < 256 → Yields (.mailboxRead t n i true) s fun v => (v.vf n).latched i = x.box i ∧
      (v.vf n).box i = (if (x.box i).st = .ready then { x.box i with consumed := true } else x.box i) ∧
      v.out.head? = some (.mbxRead n i (w64 (x.box i).word0) (w64 ((x.box i).word 1)) (w64 ((x.box i).word 2)) (w64 ((x.box i).word 3))) ∧
      v.mem = s.mem) ∧
    (∀ w : BitVec 64, let i := bitsOf w.toNat 0 8; let b := x.box i;
      (b.st = .ready → b.seq.toNat = bitsOf w.toNat 16 32 → x.head = x.tail → Yields (.mailboxRelease t n w) s fun v =>
        (v.vf n).box i = Mbx.free ∧ (∀ j, j ≠ i → (v.vf n).box j = x.box j) ∧ v.mem = s.mem) ∧
      (b.st ≠ .ready ∨ b.seq.toNat ≠ bitsOf w.toNat 16 32 → Yields (.mailboxRelease t n w) s fun v => v.hif = s.hif ∧ v.out = s.out))

/-- For every node with its host link. A read of an open range answers the bytes that memory holds, or is held while a bank of it is in compute
state, and one that is not open Unsupported Request; a write of an open range stores its bytes and no others, or is held in the same way,
and one that is not open changes no byte. The base of a ring that is off is written in one 64-bit write, or in two halves of which the lower
is held until the upper comes. MARKERR is cleared by writing one. A reset of one function leaves its ring off and every mailbox free, keeps
its sequence, and touches no other function; a hot reset does so for all sixteen and clears the Directory mailbox. None of them moves the
Phase. -/
def Obligations.ApertureRegistersAndFunctionResets : Prop :=
  ∀ (s : State) (t : Nat), s.hostUp = true →
    (∀ (fn : Fn) npa len, npa < regBase → (s.apertureOpen fn npa len = true → s.inCompute npa len = false → Yields (.hostApertureRead t fn npa len []) s fun v =>
        v.out = .apertureRead fn npa (some (s.load npa len)) false :: s.out ∧ v.mem = s.mem ∧ v.phs = s.phs) ∧
      (∀ errs, s.apertureOpen fn npa len = true → s.inCompute npa len = true → Yields (.hostApertureRead t fn npa len errs) s fun v =>
        v.hbm = { s.hbm with hostHeld := s.hbm.hostHeld ++ [{ fn, npa, len, wr := none, errs }] } ∧ v.out = s.out ∧ v.mem = s.mem) ∧
      (∀ errs, s.apertureOpen fn npa len = false → Yields (.hostApertureRead t fn npa len errs) s fun v =>
        v.out = .unsupportedRequest fn npa :: s.out ∧ v.mem = s.mem)) ∧
    (∀ (fn : Fn) npa (data : List Byte), npa < regBase → (s.apertureOpen fn npa data.length = true → s.inCompute npa data.length = false → Yields (.hostApertureWrite t fn npa data) s fun v =>
        v.mem = Memory.writes s.mem npa data ∧ v.out = s.out ∧ v.phs = s.phs ∧
        (∀ a, a < npa ∨ npa + data.length ≤ a → Memory.read v.mem a = Memory.read s.mem a)) ∧
      (s.apertureOpen fn npa data.length = true → s.inCompute npa data.length = true → Yields (.hostApertureWrite t fn npa data) s fun v =>
        v.hbm = { s.hbm with hostHeld := s.hbm.hostHeld ++ [{ fn, npa, len := data.length, wr := some data, errs := [] }] } ∧ v.out = s.out ∧ v.mem = s.mem) ∧
      (s.apertureOpen fn npa data.length = false → Yields (.hostApertureWrite t fn npa data) s fun v => v.mem = s.mem ∧ v.out = s.out)) ∧
    (∀ (n : Nat) (w : BitVec 64), s.boot.ready = true → 1 ≤ n → n ≤ 16 → (s.vf n).en = false →
      (Yields (.registerWrite t n 0 64 w) s fun v => (v.vf n).base = w64 (w.toNat / 64 * 64) ∧ v.mem = s.mem) ∧
      (Yields (.registerWrite t n 0 32 w) s fun v => v.hif.vfs = s.hif.vfs ∧ (n, 0, BitVec.ofNat 32 w.toNat) ∈ v.hif.lowHeld) ∧
      (∀ lo, heldFor s.hif.lowHeld n 0 = some lo → Yields (.registerWrite t n 4 32 w) s fun v => heldFor v.hif.lowHeld n 0 = none ∧
        (v.vf n).base = w64 ((w.toNat % 2 ^ 32 * 2 ^ 32 + lo.toNat) / 64 * 64))) ∧
    (∀ w : BitVec 64, s.boot.ready = true → bitAt w.toNat 11 = true → Yields (.registerWrite t 0 0 32 w) s fun v =>
      v.hif = { s.hif with markerr := false } ∧ v.phs = s.phs) ∧
    (∀ n, 1 ≤ n → n ≤ 16 → Yields (.vfFlr t n) s fun v => v.vf n = { Vf.off with seq := (s.vf n).seq } ∧ (∀ m, m ≠ n → v.vf m = s.vf m) ∧
      v.mem = s.mem ∧ v.phs = s.phs) ∧
    (Yields (.hotReset t) s fun v => (∀ n, 1 ≤ n → n ≤ 16 → v.vf n = { Vf.off with seq := (s.vf n).seq }) ∧ v.pd.buf = [] ∧ v.pd.done = false ∧
      v.mem = s.mem ∧ v.phs = s.phs)

/-- For every ascending list of candidates, every forced part of it, every page key and every budget b (BUDGET for a sieved primary, FBUDGET for
a fallback). With b forced pages or more, the selection is the forced pages. Otherwise it holds every forced page and as many of the
highest-ranked other candidates as fit: it has b pages, or every candidate where there are no more; and no candidate left out ranks above a
selected page that is not forced. The selection is in ascending page index, so it repeats nothing. With at most b candidates it is all of
them. -/
def Obligations.SieveSelectsTheHighestPages : Prop :=
  ∀ (cands forced : List Nat) (key : Nat → BitVec 32) (b : Nat), let sel := selectPages cands forced key b; let rank (p : Nat) := rankWord (key p) p;
    cands.Pairwise (· < ·) → forced.Sublist cands → (∀ p ∈ cands, p < 2 ^ 32) →
    (b ≤ forced.length → sel = forced) ∧
    (forced.length < b → (∀ p ∈ forced, p ∈ sel) ∧ (∀ p ∈ sel, p ∈ cands) ∧ sel.length = min b cands.length ∧
      (∀ p q, p ∈ sel → p ∉ forced → q ∈ cands → q ∉ sel → rank q < rank p)) ∧
    sel.Pairwise (· < ·) ∧ (cands.length ≤ b → forced.length < b → sel = cands)

/-- For every command, state and queue: a step of the state with the command at the front of its queue is exec of the command on the state with
the rest of the queue. On an empty queue, the block idles (a choice of the model, log entry 2): the next state is the same but for the local
timer, which moves one unit while its clock runs and stands otherwise. -/
def Obligations.StepRunsTheFrontCommand : Prop :=
  (∀ (c : Instr) (s : State) (rest : List Instr), step { s with pending := c :: rest } = exec c { s with pending := rest }) ∧
  (∀ s : State, s.pending = [] → ∃ t, step s = .next t ∧ t.pending = [] ∧ t = { s with timer := t.timer } ∧
    t.timer = (if s.boot.coreClk && !s.pwr.trip then s.timer + 1 else s.timer))

/-- The reset state has no waiting command, no listed byte of memory in its canonical form, no context, request, composition, window or queue,
the Phase timer, schedule and directory off, the Security Core down with nothing installed, no shedding stage, SLEW 250 with ballast, JCHK
set, every virtual function off, no counter and no stored value, and the node not ready. The register values are those of the register
tables; the values of other fields are choices of the model (log entry 28). -/
def Obligations.ResetStands : Prop :=
  let s := State.reset
  s.pending = [] ∧ s.mem = [] ∧ s.memOk = true ∧ s.pg.ctxs = [] ∧ s.rq.reqs = [] ∧ s.cmp.comps = [] ∧ s.egq.qs = [] ∧
    s.phs.en = false ∧ s.phs.src = 0 ∧ s.phs.jchk = true ∧ s.phs.sync = false ∧ s.phs.tbfault = false ∧ s.sch.en = false ∧ s.hbm.adirEn = false ∧
    s.sec.up = false ∧ s.sec.models = [] ∧ s.pwr.stage = 0 ∧ s.pwr.slew = 250 ∧ s.pwr.ballast = true ∧ s.pwr.lock = false ∧
    (∀ n, (s.vf n).en = false) ∧ s.pd.cnt = [] ∧ s.pd.stored = [] ∧ s.boot.stage = 0 ∧ s.ready = false ∧ s.boot.tdo = some 0x1A2405CB

/-- For every state whose memory is canonical (addresses strictly rise and no listed byte is zero) and every step of it, whatever command is at
the front: the step answers a next state, the memory of that state is canonical, its queue is the queue without its front, the local timer
has not run back, and no free value already drawn can be drawn again. The canonical form holds at reset. -/
def Obligations.MemoryStaysCanonical : Prop :=
  ∀ s : State, s.memOk = true → ∃ t, step s = .next t ∧ t.memOk = true ∧ t.pending = s.pending.drop 1 ∧ s.timer ≤ t.timer ∧ s.free ≤ t.free

/-- For every command of these units and every state: the command answers a next state, never a fault or a refusal; in that state waiting
commands, canonical memory, the order of time and drawn free values are kept, and every part of the state that the row of the command does
not list is unchanged, every byte of memory included. The parts are the groups of registers, queues, tables and buffers of the state, the
status words, the local timer, every byte of memory and the list of what was sent; the table of the parts a command may move stands in
Frame.lean, with one row for each command. -/
def Obligations.RequestPathFrames : Prop :=
  ∀ i, onRequestPath i = true → Framed i

/-- For every command of these units and every state: the command answers a next state, never a fault or a refusal; in that state waiting
commands, canonical memory, the order of time and drawn free values are kept, and every part of the state that the row of the command does
not list is unchanged, every byte of memory included. The parts are the groups of registers, queues, tables and buffers of the state, the
status words, the local timer, every byte of memory and the list of what was sent; the table of the parts a command may move stands in
Frame.lean, with one row for each command. -/
def Obligations.FabricFrames : Prop :=
  ∀ i, onFabric i = true → Framed i

/-- For every command of these units and every state: the command answers a next state, never a fault or a refusal; in that state waiting
commands, canonical memory, the order of time and drawn free values are kept, and every part of the state that the row of the command does
not list is unchanged, every byte of memory included. The parts are the groups of registers, queues, tables and buffers of the state, the
status words, the local timer, every byte of memory and the list of what was sent; the table of the parts a command may move stands in
Frame.lean, with one row for each command. -/
def Obligations.ManagementFrames : Prop :=
  ∀ i, onManagement i = true → Framed i
end

