-- ==== Sys2Proof/Laws/Maps.lean ====
section
/-! SUPPORT. Finite maps: what is read after a put or a drop. -/

namespace Sys2Proof.Machine

@[simp] theorem look_put_same {α : Type} (m : Assoc α) (i : Nat) (x : α) : look (put m i x) i = some x := by
  induction m with
  | nil => simp [put, look]
  | cons p m ih =>
    obtain ⟨k, v⟩ := p
    unfold put
    split
    · simp [look]
    · split
      · simp [look]
      · unfold look; simp [*]

theorem look_put_other {α : Type} (m : Assoc α) (i j : Nat) (x : α) (h : j ≠ i) : look (put m i x) j = look m j := by
  induction m with
  | nil => simp [put, look, h.symm]
  | cons p m ih =>
    obtain ⟨k, v⟩ := p
    unfold put
    split
    · simp [look, h.symm]
    · split
      · subst k; simp [look, h.symm]
      · unfold look; rw [ih]

@[simp] theorem lookD_put_same {α : Type} (m : Assoc α) (i : Nat) (x d : α) : lookD (put m i x) i d = x := by simp [lookD]

theorem lookD_put_other {α : Type} (m : Assoc α) (i j : Nat) (x d : α) (h : j ≠ i) : lookD (put m i x) j d = lookD m j d := by
  simp [lookD, look_put_other m i j x h]

@[simp] theorem look_drop_same {α : Type} (m : Assoc α) (i : Nat) : look (drop m i) i = none := by
  unfold drop
  induction m with
  | nil => rfl
  | cons p m ih =>
    obtain ⟨k, v⟩ := p
    rw [List.filter_cons]
    split
    · rename_i h
      have h : k ≠ i := by simpa using h
      unfold look
      rw [if_neg h, ih]
    · exact ih

theorem look_drop_other {α : Type} (m : Assoc α) (i j : Nat) (h : j ≠ i) : look (drop m i) j = look m j := by
  unfold drop
  induction m with
  | nil => rfl
  | cons p m ih =>
    obtain ⟨k, v⟩ := p
    rw [List.filter_cons]
    split
    · unfold look; rw [ih]
    · rename_i e
      have e : k = i := by simpa using e
      subst e
      conv => rhs; unfold look
      rw [if_neg h.symm, ih]

end Sys2Proof.Machine
end

