-- ==== Sys2Proof/Laws/Memory.lean ====
section
/-! SUPPORT. Memory: every operation keeps its canonical form, a read after a write gives what was written, and a write leaves every other
address alone. -/

namespace Sys2Proof.Machine

/-- The canonical form as two plain facts. -/
theorem Memory.wf_iff (m : List Host.Cell) :
    Memory.wf m = true ↔ m.Pairwise (fun x y => x.1 < y.1) ∧ ∀ c ∈ m, c.2 ≠ 0 := by
  induction m with
  | nil => simp [Memory.wf]
  | cons x m ih =>
    obtain ⟨a, b⟩ := x
    cases m with
    | nil => simp [Memory.wf]
    | cons y m =>
      obtain ⟨a', b'⟩ := y
      simp only [Memory.wf, Bool.and_eq_true, ih, List.pairwise_cons, List.mem_cons, bne_iff_ne, ne_eq, decide_eq_true_eq,
        forall_eq_or_imp]
      constructor
      · rintro ⟨⟨hb, ha⟩, ⟨hm, hp⟩, hn⟩
        exact ⟨⟨⟨ha, fun c hc => lt_trans ha (hm c hc)⟩, hm, hp⟩, hb, hn⟩
      · rintro ⟨⟨⟨ha, -⟩, hm, hp⟩, hb, hn⟩
        exact ⟨⟨hb, ha⟩, ⟨hm, hp⟩, hn⟩

/-- A written cell holds what was written, and every other cell was there before. -/
theorem Memory.mem_write {m : List Host.Cell} {i : Nat} {x : Byte} {c : Host.Cell} (h : c ∈ Memory.write m i x) :
    (c = (i, x) ∧ x ≠ 0) ∨ c ∈ m := by
  induction m with
  | nil =>
    unfold Memory.write at h
    split at h
    · simp at h
    · simp at h; exact .inl ⟨h, ‹_›⟩
  | cons y m ih =>
    obtain ⟨a, b⟩ := y
    unfold Memory.write at h
    split at h
    · split at h
      · exact .inr h
      · rcases List.mem_cons.1 h with h | h
        · exact .inl ⟨h, ‹_›⟩
        · exact .inr h
    · split at h
      · split at h
        · exact .inr (List.mem_cons_of_mem _ h)
        · rcases List.mem_cons.1 h with h | h
          · exact .inl ⟨h, ‹_›⟩
          · exact .inr (List.mem_cons_of_mem _ h)
      · rcases List.mem_cons.1 h with h | h
        · exact .inr (h ▸ List.mem_cons_self)
        · rcases ih h with h | h
          · exact .inl h
          · exact .inr (List.mem_cons_of_mem _ h)

/-- A write keeps the addresses rising. -/
theorem Memory.pairwise_write {m : List Host.Cell} (i : Nat) (x : Byte) (h : m.Pairwise fun x y => x.1 < y.1) :
    (Memory.write m i x).Pairwise fun x y => x.1 < y.1 := by
  induction m with
  | nil => unfold Memory.write; split <;> simp
  | cons y m ih =>
    obtain ⟨a, b⟩ := y
    have hm := List.pairwise_cons.1 h
    unfold Memory.write
    split
    · split
      · exact h
      · refine List.pairwise_cons.2 ⟨fun c hc => ?_, h⟩
        rcases List.mem_cons.1 hc with rfl | hc
        · assumption
        · exact lt_trans ‹i < a› (hm.1 c hc)
    · split
      · split
        · exact hm.2
        · subst a; exact List.pairwise_cons.2 ⟨hm.1, hm.2⟩
      · refine List.pairwise_cons.2 ⟨fun c hc => ?_, ih hm.2⟩
        rcases Memory.mem_write hc with ⟨rfl, -⟩ | hc
        · show a < i; omega
        · exact hm.1 c hc

/-- A write keeps the canonical form. -/
theorem Memory.wf_write {m : List Host.Cell} (i : Nat) (x : Byte) (h : Memory.wf m = true) : Memory.wf (Memory.write m i x) = true := by
  rw [Memory.wf_iff] at h ⊢
  refine ⟨Memory.pairwise_write i x h.1, fun c hc => ?_⟩
  rcases Memory.mem_write hc with ⟨rfl, hx⟩ | hc
  · exact hx
  · exact h.2 c hc

/-- Writes of several bytes keep the canonical form. -/
theorem Memory.wf_writes {m : List Host.Cell} (i : Nat) (bs : List Byte) (h : Memory.wf m = true) :
    Memory.wf (Memory.writes m i bs) = true := by
  induction bs generalizing m i with
  | nil => exact h
  | cons b bs ih => exact ih (i + 1) (Memory.wf_write i b h)

/-- A subset of the cells, in order, is canonical. -/
theorem Memory.wf_filter {m : List Host.Cell} (p : Host.Cell → Bool) (h : Memory.wf m = true) : Memory.wf (m.filter p) = true := by
  rw [Memory.wf_iff] at h ⊢
  exact ⟨h.1.filter p, fun c hc => h.2 c (List.mem_of_mem_filter hc)⟩

/-- Zeroisation keeps the canonical form. -/
theorem Memory.wf_zero {m : List Host.Cell} (lo len : Nat) (h : Memory.wf m = true) : Memory.wf (Memory.zero m lo len) = true :=
  Memory.wf_filter _ h

/-- An address below every listed one reads zero. -/
theorem Memory.read_below {m : List Host.Cell} {i : Nat} (h : ∀ c ∈ m, i < c.1) : Memory.read m i = 0 := by
  induction m with
  | nil => rfl
  | cons y m ih =>
    obtain ⟨a, b⟩ := y
    have ha : i < a := h (a, b) List.mem_cons_self
    unfold Memory.read
    rw [if_neg (by omega)]
    exact ih fun c hc => h c (List.mem_cons_of_mem _ hc)

/-- Reading the byte just written. -/
theorem Memory.read_write_same {m : List Host.Cell} (i : Nat) (x : Byte) (h : Memory.wf m = true) :
    Memory.read (Memory.write m i x) i = x := by
  have hp := ((Memory.wf_iff m).1 h).1
  clear h
  induction m with
  | nil => unfold Memory.write; split <;> simp_all [Memory.read]
  | cons y m ih =>
    obtain ⟨a, b⟩ := y
    have hm := List.pairwise_cons.1 hp
    unfold Memory.write
    split
    · split
      · subst x
        refine Memory.read_below fun c hc => ?_
        rcases List.mem_cons.1 hc with rfl | hc
        · assumption
        · exact lt_trans ‹i < a› (hm.1 c hc)
      · simp [Memory.read]
    · split
      · split
        · subst a x; exact Memory.read_below hm.1
        · simp [Memory.read]
      · simp only [Memory.read]; rw [if_neg ‹¬ a = i›]; exact ih hm.2

/-- A write leaves every other address alone. -/
theorem Memory.read_write_other (m : List Host.Cell) (i : Nat) (x : Byte) {j : Nat} (h : j ≠ i) :
    Memory.read (Memory.write m i x) j = Memory.read m j := by
  induction m with
  | nil =>
    unfold Memory.write; split
    · rfl
    · simp only [Memory.read]; rw [if_neg (Ne.symm h)]
  | cons y m ih =>
    obtain ⟨a, b⟩ := y
    unfold Memory.write
    split
    · split
      · rfl
      · rw [Memory.read, if_neg (Ne.symm h)]
    · split
      · subst a
        split
        · conv_rhs => rw [Memory.read, if_neg (Ne.symm h)]
        · rw [Memory.read, if_neg (Ne.symm h), Memory.read, if_neg (Ne.symm h)]
      · rw [Memory.read, Memory.read, ih]

/-- Writes of several bytes leave every address outside them alone. -/
theorem Memory.read_writes_other (m : List Host.Cell) (i : Nat) (bs : List Byte) {j : Nat} (h : j < i ∨ i + bs.length ≤ j) :
    Memory.read (Memory.writes m i bs) j = Memory.read m j := by
  induction bs generalizing m i with
  | nil => rfl
  | cons b bs ih =>
    simp only [List.length_cons] at h
    rw [Memory.writes, ih (Memory.write m i b) (i + 1) (by omega), Memory.read_write_other m i b (by omega)]

/-- Reading back what was written. -/
theorem Memory.reads_writes (m : List Host.Cell) (i : Nat) (bs : List Byte) (h : Memory.wf m = true) :
    Memory.reads (Memory.writes m i bs) i bs.length = bs := by
  induction bs generalizing m i with
  | nil => rfl
  | cons b bs ih =>
    simp only [List.length_cons, Memory.reads, Memory.writes]
    rw [ih (Memory.write m i b) (i + 1) (Memory.wf_write i b h),
      Memory.read_writes_other (Memory.write m i b) (i + 1) bs (by omega), Memory.read_write_same i b h]

/-- A zeroised address reads zero; every other one as before. -/
theorem Memory.read_zero (m : List Host.Cell) (lo len j : Nat) :
    Memory.read (Memory.zero m lo len) j = if lo ≤ j ∧ j < lo + len then 0 else Memory.read m j := by
  induction m with
  | nil => simp [Memory.zero, Memory.read]
  | cons y m ih =>
    obtain ⟨a, b⟩ := y
    simp only [Memory.zero, List.filter_cons] at ih ⊢
    by_cases hj : a = j
    · subst a
      by_cases hr : lo ≤ j ∧ j < lo + len
      · rw [if_neg (by simp; omega), ih, if_pos hr, if_pos hr]
      · rw [if_pos (by simp; omega), if_neg hr, Memory.read, if_pos rfl, Memory.read, if_pos rfl]
    · rw [show Memory.read ((a, b) :: m) j = Memory.read m j by rw [Memory.read, if_neg hj], ← ih]
      split
      · rw [Memory.read, if_neg hj]
      · rfl

/-- A store keeps memory canonical, and touches its own bytes alone. -/
theorem State.store_read (s : State) (a : Nat) (bs : List Byte) {j : Nat} (h : j < a ∨ a + bs.length ≤ j) :
    Memory.read (s.store a bs).mem j = Memory.read s.mem j := Memory.read_writes_other s.mem a bs h

/-- What was stored is loaded again. -/
theorem State.load_store (s : State) (a : Nat) (bs : List Byte) (h : Memory.wf s.mem = true) : (s.store a bs).load a bs.length = bs :=
  Memory.reads_writes s.mem a bs h

end Sys2Proof.Machine
end

