-- ==== Sys2Proof/Laws/State.lean ====
section
/-! SUPPORT. What each update of the state leaves alone, field by field. -/

namespace Sys2Proof.Machine

@[simp] theorem State.store_timer (s : State) (a : Nat) (bs : List Byte) : (State.store s a bs).timer = s.timer := rfl

@[simp] theorem State.store_phs (s : State) (a : Nat) (bs : List Byte) : (State.store s a bs).phs = s.phs := rfl

@[simp] theorem State.store_sch (s : State) (a : Nat) (bs : List Byte) : (State.store s a bs).sch = s.sch := rfl

@[simp] theorem State.store_pg (s : State) (a : Nat) (bs : List Byte) : (State.store s a bs).pg = s.pg := rfl

@[simp] theorem State.store_rq (s : State) (a : Nat) (bs : List Byte) : (State.store s a bs).rq = s.rq := rfl

@[simp] theorem State.store_tier (s : State) (a : Nat) (bs : List Byte) : (State.store s a bs).tier = s.tier := rfl

@[simp] theorem State.store_lnk (s : State) (a : Nat) (bs : List Byte) : (State.store s a bs).lnk = s.lnk := rfl

@[simp] theorem State.store_rmo (s : State) (a : Nat) (bs : List Byte) : (State.store s a bs).rmo = s.rmo := rfl

@[simp] theorem State.store_egq (s : State) (a : Nat) (bs : List Byte) : (State.store s a bs).egq = s.egq := rfl

@[simp] theorem State.store_cmp (s : State) (a : Nat) (bs : List Byte) : (State.store s a bs).cmp = s.cmp := rfl

@[simp] theorem State.store_sec (s : State) (a : Nat) (bs : List Byte) : (State.store s a bs).sec = s.sec := rfl

@[simp] theorem State.store_rel (s : State) (a : Nat) (bs : List Byte) : (State.store s a bs).rel = s.rel := rfl

@[simp] theorem State.store_pwr (s : State) (a : Nat) (bs : List Byte) : (State.store s a bs).pwr = s.pwr := rfl

@[simp] theorem State.store_hif (s : State) (a : Nat) (bs : List Byte) : (State.store s a bs).hif = s.hif := rfl

@[simp] theorem State.store_pd (s : State) (a : Nat) (bs : List Byte) : (State.store s a bs).pd = s.pd := rfl

@[simp] theorem State.store_boot (s : State) (a : Nat) (bs : List Byte) : (State.store s a bs).boot = s.boot := rfl

@[simp] theorem State.store_out (s : State) (a : Nat) (bs : List Byte) : (State.store s a bs).out = s.out := rfl

@[simp] theorem State.store_free (s : State) (a : Nat) (bs : List Byte) : (State.store s a bs).free = s.free := rfl

@[simp] theorem State.store_pending (s : State) (a : Nat) (bs : List Byte) : (State.store s a bs).pending = s.pending := rfl

@[simp] theorem State.zeroise_timer (s : State) (lo len : Nat) : (State.zeroise s lo len).timer = s.timer := rfl

@[simp] theorem State.zeroise_phs (s : State) (lo len : Nat) : (State.zeroise s lo len).phs = s.phs := rfl

@[simp] theorem State.zeroise_sch (s : State) (lo len : Nat) : (State.zeroise s lo len).sch = s.sch := rfl

@[simp] theorem State.zeroise_pg (s : State) (lo len : Nat) : (State.zeroise s lo len).pg = s.pg := rfl

@[simp] theorem State.zeroise_rq (s : State) (lo len : Nat) : (State.zeroise s lo len).rq = s.rq := rfl

@[simp] theorem State.zeroise_tier (s : State) (lo len : Nat) : (State.zeroise s lo len).tier = s.tier := rfl

@[simp] theorem State.zeroise_lnk (s : State) (lo len : Nat) : (State.zeroise s lo len).lnk = s.lnk := rfl

@[simp] theorem State.zeroise_rmo (s : State) (lo len : Nat) : (State.zeroise s lo len).rmo = s.rmo := rfl

@[simp] theorem State.zeroise_egq (s : State) (lo len : Nat) : (State.zeroise s lo len).egq = s.egq := rfl

@[simp] theorem State.zeroise_cmp (s : State) (lo len : Nat) : (State.zeroise s lo len).cmp = s.cmp := rfl

@[simp] theorem State.zeroise_sec (s : State) (lo len : Nat) : (State.zeroise s lo len).sec = s.sec := rfl

@[simp] theorem State.zeroise_rel (s : State) (lo len : Nat) : (State.zeroise s lo len).rel = s.rel := rfl

@[simp] theorem State.zeroise_pwr (s : State) (lo len : Nat) : (State.zeroise s lo len).pwr = s.pwr := rfl

@[simp] theorem State.zeroise_hif (s : State) (lo len : Nat) : (State.zeroise s lo len).hif = s.hif := rfl

@[simp] theorem State.zeroise_pd (s : State) (lo len : Nat) : (State.zeroise s lo len).pd = s.pd := rfl

@[simp] theorem State.zeroise_boot (s : State) (lo len : Nat) : (State.zeroise s lo len).boot = s.boot := rfl

@[simp] theorem State.zeroise_out (s : State) (lo len : Nat) : (State.zeroise s lo len).out = s.out := rfl

@[simp] theorem State.zeroise_free (s : State) (lo len : Nat) : (State.zeroise s lo len).free = s.free := rfl

@[simp] theorem State.zeroise_pending (s : State) (lo len : Nat) : (State.zeroise s lo len).pending = s.pending := rfl

@[simp] theorem State.emit_timer (s : State) (o : Out) : (State.emit s o).timer = s.timer := rfl

@[simp] theorem State.emit_phs (s : State) (o : Out) : (State.emit s o).phs = s.phs := rfl

@[simp] theorem State.emit_sch (s : State) (o : Out) : (State.emit s o).sch = s.sch := rfl

@[simp] theorem State.emit_pg (s : State) (o : Out) : (State.emit s o).pg = s.pg := rfl

@[simp] theorem State.emit_rq (s : State) (o : Out) : (State.emit s o).rq = s.rq := rfl

@[simp] theorem State.emit_hbm (s : State) (o : Out) : (State.emit s o).hbm = s.hbm := rfl

@[simp] theorem State.emit_tier (s : State) (o : Out) : (State.emit s o).tier = s.tier := rfl

@[simp] theorem State.emit_lnk (s : State) (o : Out) : (State.emit s o).lnk = s.lnk := rfl

@[simp] theorem State.emit_rmo (s : State) (o : Out) : (State.emit s o).rmo = s.rmo := rfl

@[simp] theorem State.emit_egq (s : State) (o : Out) : (State.emit s o).egq = s.egq := rfl

@[simp] theorem State.emit_cmp (s : State) (o : Out) : (State.emit s o).cmp = s.cmp := rfl

@[simp] theorem State.emit_sec (s : State) (o : Out) : (State.emit s o).sec = s.sec := rfl

@[simp] theorem State.emit_rel (s : State) (o : Out) : (State.emit s o).rel = s.rel := rfl

@[simp] theorem State.emit_pwr (s : State) (o : Out) : (State.emit s o).pwr = s.pwr := rfl

@[simp] theorem State.emit_hif (s : State) (o : Out) : (State.emit s o).hif = s.hif := rfl

@[simp] theorem State.emit_pd (s : State) (o : Out) : (State.emit s o).pd = s.pd := rfl

@[simp] theorem State.emit_boot (s : State) (o : Out) : (State.emit s o).boot = s.boot := rfl

@[simp] theorem State.emit_mem (s : State) (o : Out) : (State.emit s o).mem = s.mem := rfl

@[simp] theorem State.emit_free (s : State) (o : Out) : (State.emit s o).free = s.free := rfl

@[simp] theorem State.emit_pending (s : State) (o : Out) : (State.emit s o).pending = s.pending := rfl

@[simp] theorem State.draw_timer (s : State) : (State.draw s).2.timer = s.timer := rfl

@[simp] theorem State.draw_phs (s : State) : (State.draw s).2.phs = s.phs := rfl

@[simp] theorem State.draw_sch (s : State) : (State.draw s).2.sch = s.sch := rfl

@[simp] theorem State.draw_pg (s : State) : (State.draw s).2.pg = s.pg := rfl

@[simp] theorem State.draw_rq (s : State) : (State.draw s).2.rq = s.rq := rfl

@[simp] theorem State.draw_hbm (s : State) : (State.draw s).2.hbm = s.hbm := rfl

@[simp] theorem State.draw_tier (s : State) : (State.draw s).2.tier = s.tier := rfl

@[simp] theorem State.draw_lnk (s : State) : (State.draw s).2.lnk = s.lnk := rfl

@[simp] theorem State.draw_rmo (s : State) : (State.draw s).2.rmo = s.rmo := rfl

@[simp] theorem State.draw_egq (s : State) : (State.draw s).2.egq = s.egq := rfl

@[simp] theorem State.draw_cmp (s : State) : (State.draw s).2.cmp = s.cmp := rfl

@[simp] theorem State.draw_sec (s : State) : (State.draw s).2.sec = s.sec := rfl

@[simp] theorem State.draw_rel (s : State) : (State.draw s).2.rel = s.rel := rfl

@[simp] theorem State.draw_pwr (s : State) : (State.draw s).2.pwr = s.pwr := rfl

@[simp] theorem State.draw_hif (s : State) : (State.draw s).2.hif = s.hif := rfl

@[simp] theorem State.draw_pd (s : State) : (State.draw s).2.pd = s.pd := rfl

@[simp] theorem State.draw_boot (s : State) : (State.draw s).2.boot = s.boot := rfl

@[simp] theorem State.draw_mem (s : State) : (State.draw s).2.mem = s.mem := rfl

@[simp] theorem State.draw_out (s : State) : (State.draw s).2.out = s.out := rfl

@[simp] theorem State.draw_pending (s : State) : (State.draw s).2.pending = s.pending := rfl

@[simp] theorem State.arrive_phs (s : State) (t : Nat) : (State.arrive s t).phs = s.phs := by
  unfold State.arrive; try dsimp only
  (repeat' split) <;> simp

@[simp] theorem State.arrive_sch (s : State) (t : Nat) : (State.arrive s t).sch = s.sch := by
  unfold State.arrive; try dsimp only
  (repeat' split) <;> simp

@[simp] theorem State.arrive_pg (s : State) (t : Nat) : (State.arrive s t).pg = s.pg := by
  unfold State.arrive; try dsimp only
  (repeat' split) <;> simp

@[simp] theorem State.arrive_rq (s : State) (t : Nat) : (State.arrive s t).rq = s.rq := by
  unfold State.arrive; try dsimp only
  (repeat' split) <;> simp

@[simp] theorem State.arrive_hbm (s : State) (t : Nat) : (State.arrive s t).hbm = s.hbm := by
  unfold State.arrive; try dsimp only
  (repeat' split) <;> simp

@[simp] theorem State.arrive_tier (s : State) (t : Nat) : (State.arrive s t).tier = s.tier := by
  unfold State.arrive; try dsimp only
  (repeat' split) <;> simp

@[simp] theorem State.arrive_lnk (s : State) (t : Nat) : (State.arrive s t).lnk = s.lnk := by
  unfold State.arrive; try dsimp only
  (repeat' split) <;> simp

@[simp] theorem State.arrive_rmo (s : State) (t : Nat) : (State.arrive s t).rmo = s.rmo := by
  unfold State.arrive; try dsimp only
  (repeat' split) <;> simp

@[simp] theorem State.arrive_egq (s : State) (t : Nat) : (State.arrive s t).egq = s.egq := by
  unfold State.arrive; try dsimp only
  (repeat' split) <;> simp

@[simp] theorem State.arrive_cmp (s : State) (t : Nat) : (State.arrive s t).cmp = s.cmp := by
  unfold State.arrive; try dsimp only
  (repeat' split) <;> simp

@[simp] theorem State.arrive_sec (s : State) (t : Nat) : (State.arrive s t).sec = s.sec := by
  unfold State.arrive; try dsimp only
  (repeat' split) <;> simp

@[simp] theorem State.arrive_rel (s : State) (t : Nat) : (State.arrive s t).rel = s.rel := by
  unfold State.arrive; try dsimp only
  (repeat' split) <;> simp

@[simp] theorem State.arrive_pwr (s : State) (t : Nat) : (State.arrive s t).pwr = s.pwr := by
  unfold State.arrive; try dsimp only
  (repeat' split) <;> simp

@[simp] theorem State.arrive_hif (s : State) (t : Nat) : (State.arrive s t).hif = s.hif := by
  unfold State.arrive; try dsimp only
  (repeat' split) <;> simp

@[simp] theorem State.arrive_pd (s : State) (t : Nat) : (State.arrive s t).pd = s.pd := by
  unfold State.arrive; try dsimp only
  (repeat' split) <;> simp

@[simp] theorem State.arrive_boot (s : State) (t : Nat) : (State.arrive s t).boot = s.boot := by
  unfold State.arrive; try dsimp only
  (repeat' split) <;> simp

@[simp] theorem State.arrive_mem (s : State) (t : Nat) : (State.arrive s t).mem = s.mem := by
  unfold State.arrive; try dsimp only
  (repeat' split) <;> simp

@[simp] theorem State.arrive_out (s : State) (t : Nat) : (State.arrive s t).out = s.out := by
  unfold State.arrive; try dsimp only
  (repeat' split) <;> simp

@[simp] theorem State.arrive_free (s : State) (t : Nat) : (State.arrive s t).free = s.free := by
  unfold State.arrive; try dsimp only
  (repeat' split) <;> simp

@[simp] theorem State.arrive_pending (s : State) (t : Nat) : (State.arrive s t).pending = s.pending := by
  unfold State.arrive; try dsimp only
  (repeat' split) <;> simp

@[simp] theorem State.pdSet_timer (s : State) (index sub : Nat) (b : List Byte) : (State.pdSet s index sub b).timer = s.timer := rfl

@[simp] theorem State.pdSet_phs (s : State) (index sub : Nat) (b : List Byte) : (State.pdSet s index sub b).phs = s.phs := rfl

@[simp] theorem State.pdSet_sch (s : State) (index sub : Nat) (b : List Byte) : (State.pdSet s index sub b).sch = s.sch := rfl

@[simp] theorem State.pdSet_pg (s : State) (index sub : Nat) (b : List Byte) : (State.pdSet s index sub b).pg = s.pg := rfl

@[simp] theorem State.pdSet_rq (s : State) (index sub : Nat) (b : List Byte) : (State.pdSet s index sub b).rq = s.rq := rfl

@[simp] theorem State.pdSet_hbm (s : State) (index sub : Nat) (b : List Byte) : (State.pdSet s index sub b).hbm = s.hbm := rfl

@[simp] theorem State.pdSet_tier (s : State) (index sub : Nat) (b : List Byte) : (State.pdSet s index sub b).tier = s.tier := rfl

@[simp] theorem State.pdSet_lnk (s : State) (index sub : Nat) (b : List Byte) : (State.pdSet s index sub b).lnk = s.lnk := rfl

@[simp] theorem State.pdSet_rmo (s : State) (index sub : Nat) (b : List Byte) : (State.pdSet s index sub b).rmo = s.rmo := rfl

@[simp] theorem State.pdSet_egq (s : State) (index sub : Nat) (b : List Byte) : (State.pdSet s index sub b).egq = s.egq := rfl

@[simp] theorem State.pdSet_cmp (s : State) (index sub : Nat) (b : List Byte) : (State.pdSet s index sub b).cmp = s.cmp := rfl

@[simp] theorem State.pdSet_sec (s : State) (index sub : Nat) (b : List Byte) : (State.pdSet s index sub b).sec = s.sec := rfl

@[simp] theorem State.pdSet_rel (s : State) (index sub : Nat) (b : List Byte) : (State.pdSet s index sub b).rel = s.rel := rfl

@[simp] theorem State.pdSet_pwr (s : State) (index sub : Nat) (b : List Byte) : (State.pdSet s index sub b).pwr = s.pwr := rfl

@[simp] theorem State.pdSet_hif (s : State) (index sub : Nat) (b : List Byte) : (State.pdSet s index sub b).hif = s.hif := rfl

@[simp] theorem State.pdSet_boot (s : State) (index sub : Nat) (b : List Byte) : (State.pdSet s index sub b).boot = s.boot := rfl

@[simp] theorem State.pdSet_mem (s : State) (index sub : Nat) (b : List Byte) : (State.pdSet s index sub b).mem = s.mem := rfl

@[simp] theorem State.pdSet_out (s : State) (index sub : Nat) (b : List Byte) : (State.pdSet s index sub b).out = s.out := rfl

@[simp] theorem State.pdSet_free (s : State) (index sub : Nat) (b : List Byte) : (State.pdSet s index sub b).free = s.free := rfl

@[simp] theorem State.pdSet_pending (s : State) (index sub : Nat) (b : List Byte) : (State.pdSet s index sub b).pending = s.pending := rfl

@[simp] theorem State.pdSetNum_timer (s : State) (index sub v : Nat) : (State.pdSetNum s index sub v).timer = s.timer := rfl

@[simp] theorem State.pdSetNum_phs (s : State) (index sub v : Nat) : (State.pdSetNum s index sub v).phs = s.phs := rfl

@[simp] theorem State.pdSetNum_sch (s : State) (index sub v : Nat) : (State.pdSetNum s index sub v).sch = s.sch := rfl

@[simp] theorem State.pdSetNum_pg (s : State) (index sub v : Nat) : (State.pdSetNum s index sub v).pg = s.pg := rfl

@[simp] theorem State.pdSetNum_rq (s : State) (index sub v : Nat) : (State.pdSetNum s index sub v).rq = s.rq := rfl

@[simp] theorem State.pdSetNum_hbm (s : State) (index sub v : Nat) : (State.pdSetNum s index sub v).hbm = s.hbm := rfl

@[simp] theorem State.pdSetNum_tier (s : State) (index sub v : Nat) : (State.pdSetNum s index sub v).tier = s.tier := rfl

@[simp] theorem State.pdSetNum_lnk (s : State) (index sub v : Nat) : (State.pdSetNum s index sub v).lnk = s.lnk := rfl

@[simp] theorem State.pdSetNum_rmo (s : State) (index sub v : Nat) : (State.pdSetNum s index sub v).rmo = s.rmo := rfl

@[simp] theorem State.pdSetNum_egq (s : State) (index sub v : Nat) : (State.pdSetNum s index sub v).egq = s.egq := rfl

@[simp] theorem State.pdSetNum_cmp (s : State) (index sub v : Nat) : (State.pdSetNum s index sub v).cmp = s.cmp := rfl

@[simp] theorem State.pdSetNum_sec (s : State) (index sub v : Nat) : (State.pdSetNum s index sub v).sec = s.sec := rfl

@[simp] theorem State.pdSetNum_rel (s : State) (index sub v : Nat) : (State.pdSetNum s index sub v).rel = s.rel := rfl

@[simp] theorem State.pdSetNum_pwr (s : State) (index sub v : Nat) : (State.pdSetNum s index sub v).pwr = s.pwr := rfl

@[simp] theorem State.pdSetNum_hif (s : State) (index sub v : Nat) : (State.pdSetNum s index sub v).hif = s.hif := rfl

@[simp] theorem State.pdSetNum_boot (s : State) (index sub v : Nat) : (State.pdSetNum s index sub v).boot = s.boot := rfl

@[simp] theorem State.pdSetNum_mem (s : State) (index sub v : Nat) : (State.pdSetNum s index sub v).mem = s.mem := rfl

@[simp] theorem State.pdSetNum_out (s : State) (index sub v : Nat) : (State.pdSetNum s index sub v).out = s.out := rfl

@[simp] theorem State.pdSetNum_free (s : State) (index sub v : Nat) : (State.pdSetNum s index sub v).free = s.free := rfl

@[simp] theorem State.pdSetNum_pending (s : State) (index sub v : Nat) : (State.pdSetNum s index sub v).pending = s.pending := rfl

@[simp] theorem State.countBy_timer (s : State) (index sub n : Nat) : (State.countBy s index sub n).timer = s.timer := rfl

@[simp] theorem State.countBy_phs (s : State) (index sub n : Nat) : (State.countBy s index sub n).phs = s.phs := rfl

@[simp] theorem State.countBy_sch (s : State) (index sub n : Nat) : (State.countBy s index sub n).sch = s.sch := rfl

@[simp] theorem State.countBy_pg (s : State) (index sub n : Nat) : (State.countBy s index sub n).pg = s.pg := rfl

@[simp] theorem State.countBy_rq (s : State) (index sub n : Nat) : (State.countBy s index sub n).rq = s.rq := rfl

@[simp] theorem State.countBy_hbm (s : State) (index sub n : Nat) : (State.countBy s index sub n).hbm = s.hbm := rfl

@[simp] theorem State.countBy_tier (s : State) (index sub n : Nat) : (State.countBy s index sub n).tier = s.tier := rfl

@[simp] theorem State.countBy_lnk (s : State) (index sub n : Nat) : (State.countBy s index sub n).lnk = s.lnk := rfl

@[simp] theorem State.countBy_rmo (s : State) (index sub n : Nat) : (State.countBy s index sub n).rmo = s.rmo := rfl

@[simp] theorem State.countBy_egq (s : State) (index sub n : Nat) : (State.countBy s index sub n).egq = s.egq := rfl

@[simp] theorem State.countBy_cmp (s : State) (index sub n : Nat) : (State.countBy s index sub n).cmp = s.cmp := rfl

@[simp] theorem State.countBy_sec (s : State) (index sub n : Nat) : (State.countBy s index sub n).sec = s.sec := rfl

@[simp] theorem State.countBy_rel (s : State) (index sub n : Nat) : (State.countBy s index sub n).rel = s.rel := rfl

@[simp] theorem State.countBy_pwr (s : State) (index sub n : Nat) : (State.countBy s index sub n).pwr = s.pwr := rfl

@[simp] theorem State.countBy_hif (s : State) (index sub n : Nat) : (State.countBy s index sub n).hif = s.hif := rfl

@[simp] theorem State.countBy_boot (s : State) (index sub n : Nat) : (State.countBy s index sub n).boot = s.boot := rfl

@[simp] theorem State.countBy_mem (s : State) (index sub n : Nat) : (State.countBy s index sub n).mem = s.mem := rfl

@[simp] theorem State.countBy_out (s : State) (index sub n : Nat) : (State.countBy s index sub n).out = s.out := rfl

@[simp] theorem State.countBy_free (s : State) (index sub n : Nat) : (State.countBy s index sub n).free = s.free := rfl

@[simp] theorem State.countBy_pending (s : State) (index sub n : Nat) : (State.countBy s index sub n).pending = s.pending := rfl

@[simp] theorem State.count_timer (s : State) (index sub : Nat) : (State.count s index sub).timer = s.timer := rfl

@[simp] theorem State.count_phs (s : State) (index sub : Nat) : (State.count s index sub).phs = s.phs := rfl

@[simp] theorem State.count_sch (s : State) (index sub : Nat) : (State.count s index sub).sch = s.sch := rfl

@[simp] theorem State.count_pg (s : State) (index sub : Nat) : (State.count s index sub).pg = s.pg := rfl

@[simp] theorem State.count_rq (s : State) (index sub : Nat) : (State.count s index sub).rq = s.rq := rfl

@[simp] theorem State.count_hbm (s : State) (index sub : Nat) : (State.count s index sub).hbm = s.hbm := rfl

@[simp] theorem State.count_tier (s : State) (index sub : Nat) : (State.count s index sub).tier = s.tier := rfl

@[simp] theorem State.count_lnk (s : State) (index sub : Nat) : (State.count s index sub).lnk = s.lnk := rfl

@[simp] theorem State.count_rmo (s : State) (index sub : Nat) : (State.count s index sub).rmo = s.rmo := rfl

@[simp] theorem State.count_egq (s : State) (index sub : Nat) : (State.count s index sub).egq = s.egq := rfl

@[simp] theorem State.count_cmp (s : State) (index sub : Nat) : (State.count s index sub).cmp = s.cmp := rfl

@[simp] theorem State.count_sec (s : State) (index sub : Nat) : (State.count s index sub).sec = s.sec := rfl

@[simp] theorem State.count_rel (s : State) (index sub : Nat) : (State.count s index sub).rel = s.rel := rfl

@[simp] theorem State.count_pwr (s : State) (index sub : Nat) : (State.count s index sub).pwr = s.pwr := rfl

@[simp] theorem State.count_hif (s : State) (index sub : Nat) : (State.count s index sub).hif = s.hif := rfl

@[simp] theorem State.count_boot (s : State) (index sub : Nat) : (State.count s index sub).boot = s.boot := rfl

@[simp] theorem State.count_mem (s : State) (index sub : Nat) : (State.count s index sub).mem = s.mem := rfl

@[simp] theorem State.count_out (s : State) (index sub : Nat) : (State.count s index sub).out = s.out := rfl

@[simp] theorem State.count_free (s : State) (index sub : Nat) : (State.count s index sub).free = s.free := rfl

@[simp] theorem State.count_pending (s : State) (index sub : Nat) : (State.count s index sub).pending = s.pending := rfl

@[simp] theorem State.countC_timer (s : State) (c index sub n : Nat) : (State.countC s c index sub n).timer = s.timer := rfl

@[simp] theorem State.countC_phs (s : State) (c index sub n : Nat) : (State.countC s c index sub n).phs = s.phs := rfl

@[simp] theorem State.countC_sch (s : State) (c index sub n : Nat) : (State.countC s c index sub n).sch = s.sch := rfl

@[simp] theorem State.countC_pg (s : State) (c index sub n : Nat) : (State.countC s c index sub n).pg = s.pg := rfl

@[simp] theorem State.countC_rq (s : State) (c index sub n : Nat) : (State.countC s c index sub n).rq = s.rq := rfl

@[simp] theorem State.countC_hbm (s : State) (c index sub n : Nat) : (State.countC s c index sub n).hbm = s.hbm := rfl

@[simp] theorem State.countC_tier (s : State) (c index sub n : Nat) : (State.countC s c index sub n).tier = s.tier := rfl

@[simp] theorem State.countC_lnk (s : State) (c index sub n : Nat) : (State.countC s c index sub n).lnk = s.lnk := rfl

@[simp] theorem State.countC_rmo (s : State) (c index sub n : Nat) : (State.countC s c index sub n).rmo = s.rmo := rfl

@[simp] theorem State.countC_egq (s : State) (c index sub n : Nat) : (State.countC s c index sub n).egq = s.egq := rfl

@[simp] theorem State.countC_cmp (s : State) (c index sub n : Nat) : (State.countC s c index sub n).cmp = s.cmp := rfl

@[simp] theorem State.countC_sec (s : State) (c index sub n : Nat) : (State.countC s c index sub n).sec = s.sec := rfl

@[simp] theorem State.countC_rel (s : State) (c index sub n : Nat) : (State.countC s c index sub n).rel = s.rel := rfl

@[simp] theorem State.countC_pwr (s : State) (c index sub n : Nat) : (State.countC s c index sub n).pwr = s.pwr := rfl

@[simp] theorem State.countC_hif (s : State) (c index sub n : Nat) : (State.countC s c index sub n).hif = s.hif := rfl

@[simp] theorem State.countC_boot (s : State) (c index sub n : Nat) : (State.countC s c index sub n).boot = s.boot := rfl

@[simp] theorem State.countC_mem (s : State) (c index sub n : Nat) : (State.countC s c index sub n).mem = s.mem := rfl

@[simp] theorem State.countC_out (s : State) (c index sub n : Nat) : (State.countC s c index sub n).out = s.out := rfl

@[simp] theorem State.countC_free (s : State) (c index sub n : Nat) : (State.countC s c index sub n).free = s.free := rfl

@[simp] theorem State.countC_pending (s : State) (c index sub n : Nat) : (State.countC s c index sub n).pending = s.pending := rfl

@[simp] theorem State.setComp_timer (s : State) (c : Nat) (f : Comp → Comp) : (State.setComp s c f).timer = s.timer := by
  unfold State.setComp; try dsimp only
  (repeat' split) <;> simp

@[simp] theorem State.setComp_phs (s : State) (c : Nat) (f : Comp → Comp) : (State.setComp s c f).phs = s.phs := by
  unfold State.setComp; try dsimp only
  (repeat' split) <;> simp

@[simp] theorem State.setComp_sch (s : State) (c : Nat) (f : Comp → Comp) : (State.setComp s c f).sch = s.sch := by
  unfold State.setComp; try dsimp only
  (repeat' split) <;> simp

@[simp] theorem State.setComp_pg (s : State) (c : Nat) (f : Comp → Comp) : (State.setComp s c f).pg = s.pg := by
  unfold State.setComp; try dsimp only
  (repeat' split) <;> simp

@[simp] theorem State.setComp_rq (s : State) (c : Nat) (f : Comp → Comp) : (State.setComp s c f).rq = s.rq := by
  unfold State.setComp; try dsimp only
  (repeat' split) <;> simp

@[simp] theorem State.setComp_hbm (s : State) (c : Nat) (f : Comp → Comp) : (State.setComp s c f).hbm = s.hbm := by
  unfold State.setComp; try dsimp only
  (repeat' split) <;> simp

@[simp] theorem State.setComp_tier (s : State) (c : Nat) (f : Comp → Comp) : (State.setComp s c f).tier = s.tier := by
  unfold State.setComp; try dsimp only
  (repeat' split) <;> simp

@[simp] theorem State.setComp_lnk (s : State) (c : Nat) (f : Comp → Comp) : (State.setComp s c f).lnk = s.lnk := by
  unfold State.setComp; try dsimp only
  (repeat' split) <;> simp

@[simp] theorem State.setComp_rmo (s : State) (c : Nat) (f : Comp → Comp) : (State.setComp s c f).rmo = s.rmo := by
  unfold State.setComp; try dsimp only
  (repeat' split) <;> simp

@[simp] theorem State.setComp_egq (s : State) (c : Nat) (f : Comp → Comp) : (State.setComp s c f).egq = s.egq := by
  unfold State.setComp; try dsimp only
  (repeat' split) <;> simp

@[simp] theorem State.setComp_sec (s : State) (c : Nat) (f : Comp → Comp) : (State.setComp s c f).sec = s.sec := by
  unfold State.setComp; try dsimp only
  (repeat' split) <;> simp

@[simp] theorem State.setComp_rel (s : State) (c : Nat) (f : Comp → Comp) : (State.setComp s c f).rel = s.rel := by
  unfold State.setComp; try dsimp only
  (repeat' split) <;> simp

@[simp] theorem State.setComp_pwr (s : State) (c : Nat) (f : Comp → Comp) : (State.setComp s c f).pwr = s.pwr := by
  unfold State.setComp; try dsimp only
  (repeat' split) <;> simp

@[simp] theorem State.setComp_hif (s : State) (c : Nat) (f : Comp → Comp) : (State.setComp s c f).hif = s.hif := by
  unfold State.setComp; try dsimp only
  (repeat' split) <;> simp

@[simp] theorem State.setComp_pd (s : State) (c : Nat) (f : Comp → Comp) : (State.setComp s c f).pd = s.pd := by
  unfold State.setComp; try dsimp only
  (repeat' split) <;> simp

@[simp] theorem State.setComp_boot (s : State) (c : Nat) (f : Comp → Comp) : (State.setComp s c f).boot = s.boot := by
  unfold State.setComp; try dsimp only
  (repeat' split) <;> simp

@[simp] theorem State.setComp_mem (s : State) (c : Nat) (f : Comp → Comp) : (State.setComp s c f).mem = s.mem := by
  unfold State.setComp; try dsimp only
  (repeat' split) <;> simp

@[simp] theorem State.setComp_out (s : State) (c : Nat) (f : Comp → Comp) : (State.setComp s c f).out = s.out := by
  unfold State.setComp; try dsimp only
  (repeat' split) <;> simp

@[simp] theorem State.setComp_free (s : State) (c : Nat) (f : Comp → Comp) : (State.setComp s c f).free = s.free := by
  unfold State.setComp; try dsimp only
  (repeat' split) <;> simp

@[simp] theorem State.setComp_pending (s : State) (c : Nat) (f : Comp → Comp) : (State.setComp s c f).pending = s.pending := by
  unfold State.setComp; try dsimp only
  (repeat' split) <;> simp

@[simp] theorem State.ringQueue_timer (s : State) (c : Nat) (breach : Bool) (rec_ : List Byte) : (State.ringQueue s c breach rec_).timer = s.timer := rfl

@[simp] theorem State.ringQueue_phs (s : State) (c : Nat) (breach : Bool) (rec_ : List Byte) : (State.ringQueue s c breach rec_).phs = s.phs := rfl

@[simp] theorem State.ringQueue_sch (s : State) (c : Nat) (breach : Bool) (rec_ : List Byte) : (State.ringQueue s c breach rec_).sch = s.sch := rfl

@[simp] theorem State.ringQueue_pg (s : State) (c : Nat) (breach : Bool) (rec_ : List Byte) : (State.ringQueue s c breach rec_).pg = s.pg := rfl

@[simp] theorem State.ringQueue_rq (s : State) (c : Nat) (breach : Bool) (rec_ : List Byte) : (State.ringQueue s c breach rec_).rq = s.rq := rfl

@[simp] theorem State.ringQueue_hbm (s : State) (c : Nat) (breach : Bool) (rec_ : List Byte) : (State.ringQueue s c breach rec_).hbm = s.hbm := rfl

@[simp] theorem State.ringQueue_tier (s : State) (c : Nat) (breach : Bool) (rec_ : List Byte) : (State.ringQueue s c breach rec_).tier = s.tier := rfl

@[simp] theorem State.ringQueue_lnk (s : State) (c : Nat) (breach : Bool) (rec_ : List Byte) : (State.ringQueue s c breach rec_).lnk = s.lnk := rfl

@[simp] theorem State.ringQueue_egq (s : State) (c : Nat) (breach : Bool) (rec_ : List Byte) : (State.ringQueue s c breach rec_).egq = s.egq := rfl

@[simp] theorem State.ringQueue_cmp (s : State) (c : Nat) (breach : Bool) (rec_ : List Byte) : (State.ringQueue s c breach rec_).cmp = s.cmp := rfl

@[simp] theorem State.ringQueue_sec (s : State) (c : Nat) (breach : Bool) (rec_ : List Byte) : (State.ringQueue s c breach rec_).sec = s.sec := rfl

@[simp] theorem State.ringQueue_rel (s : State) (c : Nat) (breach : Bool) (rec_ : List Byte) : (State.ringQueue s c breach rec_).rel = s.rel := rfl

@[simp] theorem State.ringQueue_pwr (s : State) (c : Nat) (breach : Bool) (rec_ : List Byte) : (State.ringQueue s c breach rec_).pwr = s.pwr := rfl

@[simp] theorem State.ringQueue_hif (s : State) (c : Nat) (breach : Bool) (rec_ : List Byte) : (State.ringQueue s c breach rec_).hif = s.hif := rfl

@[simp] theorem State.ringQueue_pd (s : State) (c : Nat) (breach : Bool) (rec_ : List Byte) : (State.ringQueue s c breach rec_).pd = s.pd := rfl

@[simp] theorem State.ringQueue_boot (s : State) (c : Nat) (breach : Bool) (rec_ : List Byte) : (State.ringQueue s c breach rec_).boot = s.boot := rfl

@[simp] theorem State.ringQueue_mem (s : State) (c : Nat) (breach : Bool) (rec_ : List Byte) : (State.ringQueue s c breach rec_).mem = s.mem := rfl

@[simp] theorem State.ringQueue_out (s : State) (c : Nat) (breach : Bool) (rec_ : List Byte) : (State.ringQueue s c breach rec_).out = s.out := rfl

@[simp] theorem State.ringQueue_free (s : State) (c : Nat) (breach : Bool) (rec_ : List Byte) : (State.ringQueue s c breach rec_).free = s.free := rfl

@[simp] theorem State.ringQueue_pending (s : State) (c : Nat) (breach : Bool) (rec_ : List Byte) : (State.ringQueue s c breach rec_).pending = s.pending := rfl

@[simp] theorem State.breach_timer (s : State) (cause : Nat) (slot : Option Nat) (opclass comp late job node tag : Nat) : (State.breach s cause slot opclass comp late job node tag).timer = s.timer := by
  unfold State.breach; try dsimp only
  (repeat' split) <;> simp

@[simp] theorem State.breach_pg (s : State) (cause : Nat) (slot : Option Nat) (opclass comp late job node tag : Nat) : (State.breach s cause slot opclass comp late job node tag).pg = s.pg := by
  unfold State.breach; try dsimp only
  (repeat' split) <;> simp

@[simp] theorem State.breach_rq (s : State) (cause : Nat) (slot : Option Nat) (opclass comp late job node tag : Nat) : (State.breach s cause slot opclass comp late job node tag).rq = s.rq := by
  unfold State.breach; try dsimp only
  (repeat' split) <;> simp

@[simp] theorem State.breach_tier (s : State) (cause : Nat) (slot : Option Nat) (opclass comp late job node tag : Nat) : (State.breach s cause slot opclass comp late job node tag).tier = s.tier := by
  unfold State.breach; try dsimp only
  (repeat' split) <;> simp

@[simp] theorem State.breach_lnk (s : State) (cause : Nat) (slot : Option Nat) (opclass comp late job node tag : Nat) : (State.breach s cause slot opclass comp late job node tag).lnk = s.lnk := by
  unfold State.breach; try dsimp only
  (repeat' split) <;> simp

@[simp] theorem State.breach_egq (s : State) (cause : Nat) (slot : Option Nat) (opclass comp late job node tag : Nat) : (State.breach s cause slot opclass comp late job node tag).egq = s.egq := by
  unfold State.breach; try dsimp only
  (repeat' split) <;> simp

@[simp] theorem State.breach_cmp (s : State) (cause : Nat) (slot : Option Nat) (opclass comp late job node tag : Nat) : (State.breach s cause slot opclass comp late job node tag).cmp = s.cmp := by
  unfold State.breach; try dsimp only
  (repeat' split) <;> simp

@[simp] theorem State.breach_sec (s : State) (cause : Nat) (slot : Option Nat) (opclass comp late job node tag : Nat) : (State.breach s cause slot opclass comp late job node tag).sec = s.sec := by
  unfold State.breach; try dsimp only
  (repeat' split) <;> simp

@[simp] theorem State.breach_rel (s : State) (cause : Nat) (slot : Option Nat) (opclass comp late job node tag : Nat) : (State.breach s cause slot opclass comp late job node tag).rel = s.rel := by
  unfold State.breach; try dsimp only
  (repeat' split) <;> simp

@[simp] theorem State.breach_pwr (s : State) (cause : Nat) (slot : Option Nat) (opclass comp late job node tag : Nat) : (State.breach s cause slot opclass comp late job node tag).pwr = s.pwr := by
  unfold State.breach; try dsimp only
  (repeat' split) <;> simp

@[simp] theorem State.breach_hif (s : State) (cause : Nat) (slot : Option Nat) (opclass comp late job node tag : Nat) : (State.breach s cause slot opclass comp late job node tag).hif = s.hif := by
  unfold State.breach; try dsimp only
  (repeat' split) <;> simp

@[simp] theorem State.breach_boot (s : State) (cause : Nat) (slot : Option Nat) (opclass comp late job node tag : Nat) : (State.breach s cause slot opclass comp late job node tag).boot = s.boot := by
  unfold State.breach; try dsimp only
  (repeat' split) <;> simp

@[simp] theorem State.breach_free (s : State) (cause : Nat) (slot : Option Nat) (opclass comp late job node tag : Nat) : (State.breach s cause slot opclass comp late job node tag).free = s.free := by
  unfold State.breach; try dsimp only
  (repeat' split) <;> simp

@[simp] theorem State.breach_pending (s : State) (cause : Nat) (slot : Option Nat) (opclass comp late job node tag : Nat) : (State.breach s cause slot opclass comp late job node tag).pending = s.pending := by
  unfold State.breach; try dsimp only
  (repeat' split) <;> simp

@[simp] theorem State.event_timer (s : State) (e : Event) : (State.event s e).timer = s.timer := by
  unfold State.event; try dsimp only
  (repeat' split) <;> simp

@[simp] theorem State.event_phs (s : State) (e : Event) : (State.event s e).phs = s.phs := by
  unfold State.event; try dsimp only
  (repeat' split) <;> simp

@[simp] theorem State.event_sch (s : State) (e : Event) : (State.event s e).sch = s.sch := by
  unfold State.event; try dsimp only
  (repeat' split) <;> simp

@[simp] theorem State.event_pg (s : State) (e : Event) : (State.event s e).pg = s.pg := by
  unfold State.event; try dsimp only
  (repeat' split) <;> simp

@[simp] theorem State.event_rq (s : State) (e : Event) : (State.event s e).rq = s.rq := by
  unfold State.event; try dsimp only
  (repeat' split) <;> simp

@[simp] theorem State.event_tier (s : State) (e : Event) : (State.event s e).tier = s.tier := by
  unfold State.event; try dsimp only
  (repeat' split) <;> simp

@[simp] theorem State.event_lnk (s : State) (e : Event) : (State.event s e).lnk = s.lnk := by
  unfold State.event; try dsimp only
  (repeat' split) <;> simp

@[simp] theorem State.event_egq (s : State) (e : Event) : (State.event s e).egq = s.egq := by
  unfold State.event; try dsimp only
  (repeat' split) <;> simp

@[simp] theorem State.event_cmp (s : State) (e : Event) : (State.event s e).cmp = s.cmp := by
  unfold State.event; try dsimp only
  (repeat' split) <;> simp

@[simp] theorem State.event_sec (s : State) (e : Event) : (State.event s e).sec = s.sec := by
  unfold State.event; try dsimp only
  (repeat' split) <;> simp

@[simp] theorem State.event_rel (s : State) (e : Event) : (State.event s e).rel = s.rel := by
  unfold State.event; try dsimp only
  (repeat' split) <;> simp

@[simp] theorem State.event_pwr (s : State) (e : Event) : (State.event s e).pwr = s.pwr := by
  unfold State.event; try dsimp only
  (repeat' split) <;> simp

@[simp] theorem State.event_hif (s : State) (e : Event) : (State.event s e).hif = s.hif := by
  unfold State.event; try dsimp only
  (repeat' split) <;> simp

@[simp] theorem State.event_free (s : State) (e : Event) : (State.event s e).free = s.free := by
  unfold State.event; try dsimp only
  (repeat' split) <;> simp

@[simp] theorem State.event_pending (s : State) (e : Event) : (State.event s e).pending = s.pending := by
  unfold State.event; try dsimp only
  (repeat' split) <;> simp

@[simp] theorem State.setPort_timer (s : State) (p : Nat) (x : Port) : (State.setPort s p x).timer = s.timer := rfl

@[simp] theorem State.setPort_phs (s : State) (p : Nat) (x : Port) : (State.setPort s p x).phs = s.phs := rfl

@[simp] theorem State.setPort_sch (s : State) (p : Nat) (x : Port) : (State.setPort s p x).sch = s.sch := rfl

@[simp] theorem State.setPort_pg (s : State) (p : Nat) (x : Port) : (State.setPort s p x).pg = s.pg := rfl

@[simp] theorem State.setPort_rq (s : State) (p : Nat) (x : Port) : (State.setPort s p x).rq = s.rq := rfl

@[simp] theorem State.setPort_hbm (s : State) (p : Nat) (x : Port) : (State.setPort s p x).hbm = s.hbm := rfl

@[simp] theorem State.setPort_tier (s : State) (p : Nat) (x : Port) : (State.setPort s p x).tier = s.tier := rfl

@[simp] theorem State.setPort_rmo (s : State) (p : Nat) (x : Port) : (State.setPort s p x).rmo = s.rmo := rfl

@[simp] theorem State.setPort_egq (s : State) (p : Nat) (x : Port) : (State.setPort s p x).egq = s.egq := rfl

@[simp] theorem State.setPort_cmp (s : State) (p : Nat) (x : Port) : (State.setPort s p x).cmp = s.cmp := rfl

@[simp] theorem State.setPort_sec (s : State) (p : Nat) (x : Port) : (State.setPort s p x).sec = s.sec := rfl

@[simp] theorem State.setPort_rel (s : State) (p : Nat) (x : Port) : (State.setPort s p x).rel = s.rel := rfl

@[simp] theorem State.setPort_pwr (s : State) (p : Nat) (x : Port) : (State.setPort s p x).pwr = s.pwr := rfl

@[simp] theorem State.setPort_hif (s : State) (p : Nat) (x : Port) : (State.setPort s p x).hif = s.hif := rfl

@[simp] theorem State.setPort_pd (s : State) (p : Nat) (x : Port) : (State.setPort s p x).pd = s.pd := rfl

@[simp] theorem State.setPort_boot (s : State) (p : Nat) (x : Port) : (State.setPort s p x).boot = s.boot := rfl

@[simp] theorem State.setPort_mem (s : State) (p : Nat) (x : Port) : (State.setPort s p x).mem = s.mem := rfl

@[simp] theorem State.setPort_out (s : State) (p : Nat) (x : Port) : (State.setPort s p x).out = s.out := rfl

@[simp] theorem State.setPort_free (s : State) (p : Nat) (x : Port) : (State.setPort s p x).free = s.free := rfl

@[simp] theorem State.setPort_pending (s : State) (p : Nat) (x : Port) : (State.setPort s p x).pending = s.pending := rfl

@[simp] theorem State.setQueue_timer (s : State) (q : Nat) (x : Queue) : (State.setQueue s q x).timer = s.timer := rfl

@[simp] theorem State.setQueue_phs (s : State) (q : Nat) (x : Queue) : (State.setQueue s q x).phs = s.phs := rfl

@[simp] theorem State.setQueue_sch (s : State) (q : Nat) (x : Queue) : (State.setQueue s q x).sch = s.sch := rfl

@[simp] theorem State.setQueue_pg (s : State) (q : Nat) (x : Queue) : (State.setQueue s q x).pg = s.pg := rfl

@[simp] theorem State.setQueue_rq (s : State) (q : Nat) (x : Queue) : (State.setQueue s q x).rq = s.rq := rfl

@[simp] theorem State.setQueue_hbm (s : State) (q : Nat) (x : Queue) : (State.setQueue s q x).hbm = s.hbm := rfl

@[simp] theorem State.setQueue_tier (s : State) (q : Nat) (x : Queue) : (State.setQueue s q x).tier = s.tier := rfl

@[simp] theorem State.setQueue_lnk (s : State) (q : Nat) (x : Queue) : (State.setQueue s q x).lnk = s.lnk := rfl

@[simp] theorem State.setQueue_rmo (s : State) (q : Nat) (x : Queue) : (State.setQueue s q x).rmo = s.rmo := rfl

@[simp] theorem State.setQueue_cmp (s : State) (q : Nat) (x : Queue) : (State.setQueue s q x).cmp = s.cmp := rfl

@[simp] theorem State.setQueue_sec (s : State) (q : Nat) (x : Queue) : (State.setQueue s q x).sec = s.sec := rfl

@[simp] theorem State.setQueue_rel (s : State) (q : Nat) (x : Queue) : (State.setQueue s q x).rel = s.rel := rfl

@[simp] theorem State.setQueue_pwr (s : State) (q : Nat) (x : Queue) : (State.setQueue s q x).pwr = s.pwr := rfl

@[simp] theorem State.setQueue_hif (s : State) (q : Nat) (x : Queue) : (State.setQueue s q x).hif = s.hif := rfl

@[simp] theorem State.setQueue_pd (s : State) (q : Nat) (x : Queue) : (State.setQueue s q x).pd = s.pd := rfl

@[simp] theorem State.setQueue_boot (s : State) (q : Nat) (x : Queue) : (State.setQueue s q x).boot = s.boot := rfl

@[simp] theorem State.setQueue_mem (s : State) (q : Nat) (x : Queue) : (State.setQueue s q x).mem = s.mem := rfl

@[simp] theorem State.setQueue_out (s : State) (q : Nat) (x : Queue) : (State.setQueue s q x).out = s.out := rfl

@[simp] theorem State.setQueue_free (s : State) (q : Nat) (x : Queue) : (State.setQueue s q x).free = s.free := rfl

@[simp] theorem State.setQueue_pending (s : State) (q : Nat) (x : Queue) : (State.setQueue s q x).pending = s.pending := rfl

@[simp] theorem State.setSend_timer (s : State) (q : Nat) (e : SendEnt) : (State.setSend s q e).timer = s.timer := rfl

@[simp] theorem State.setSend_phs (s : State) (q : Nat) (e : SendEnt) : (State.setSend s q e).phs = s.phs := rfl

@[simp] theorem State.setSend_sch (s : State) (q : Nat) (e : SendEnt) : (State.setSend s q e).sch = s.sch := rfl

@[simp] theorem State.setSend_pg (s : State) (q : Nat) (e : SendEnt) : (State.setSend s q e).pg = s.pg := rfl

@[simp] theorem State.setSend_rq (s : State) (q : Nat) (e : SendEnt) : (State.setSend s q e).rq = s.rq := rfl

@[simp] theorem State.setSend_hbm (s : State) (q : Nat) (e : SendEnt) : (State.setSend s q e).hbm = s.hbm := rfl

@[simp] theorem State.setSend_tier (s : State) (q : Nat) (e : SendEnt) : (State.setSend s q e).tier = s.tier := rfl

@[simp] theorem State.setSend_lnk (s : State) (q : Nat) (e : SendEnt) : (State.setSend s q e).lnk = s.lnk := rfl

@[simp] theorem State.setSend_egq (s : State) (q : Nat) (e : SendEnt) : (State.setSend s q e).egq = s.egq := rfl

@[simp] theorem State.setSend_cmp (s : State) (q : Nat) (e : SendEnt) : (State.setSend s q e).cmp = s.cmp := rfl

@[simp] theorem State.setSend_sec (s : State) (q : Nat) (e : SendEnt) : (State.setSend s q e).sec = s.sec := rfl

@[simp] theorem State.setSend_rel (s : State) (q : Nat) (e : SendEnt) : (State.setSend s q e).rel = s.rel := rfl

@[simp] theorem State.setSend_pwr (s : State) (q : Nat) (e : SendEnt) : (State.setSend s q e).pwr = s.pwr := rfl

@[simp] theorem State.setSend_hif (s : State) (q : Nat) (e : SendEnt) : (State.setSend s q e).hif = s.hif := rfl

@[simp] theorem State.setSend_pd (s : State) (q : Nat) (e : SendEnt) : (State.setSend s q e).pd = s.pd := rfl

@[simp] theorem State.setSend_boot (s : State) (q : Nat) (e : SendEnt) : (State.setSend s q e).boot = s.boot := rfl

@[simp] theorem State.setSend_mem (s : State) (q : Nat) (e : SendEnt) : (State.setSend s q e).mem = s.mem := rfl

@[simp] theorem State.setSend_out (s : State) (q : Nat) (e : SendEnt) : (State.setSend s q e).out = s.out := rfl

@[simp] theorem State.setSend_free (s : State) (q : Nat) (e : SendEnt) : (State.setSend s q e).free = s.free := rfl

@[simp] theorem State.setSend_pending (s : State) (q : Nat) (e : SendEnt) : (State.setSend s q e).pending = s.pending := rfl

@[simp] theorem State.noteAll_timer (s : State) : (State.noteAll s).timer = s.timer := rfl

@[simp] theorem State.noteAll_phs (s : State) : (State.noteAll s).phs = s.phs := rfl

@[simp] theorem State.noteAll_sch (s : State) : (State.noteAll s).sch = s.sch := rfl

@[simp] theorem State.noteAll_pg (s : State) : (State.noteAll s).pg = s.pg := rfl

@[simp] theorem State.noteAll_rq (s : State) : (State.noteAll s).rq = s.rq := rfl

@[simp] theorem State.noteAll_hbm (s : State) : (State.noteAll s).hbm = s.hbm := rfl

@[simp] theorem State.noteAll_tier (s : State) : (State.noteAll s).tier = s.tier := rfl

@[simp] theorem State.noteAll_lnk (s : State) : (State.noteAll s).lnk = s.lnk := rfl

@[simp] theorem State.noteAll_rmo (s : State) : (State.noteAll s).rmo = s.rmo := rfl

@[simp] theorem State.noteAll_cmp (s : State) : (State.noteAll s).cmp = s.cmp := rfl

@[simp] theorem State.noteAll_sec (s : State) : (State.noteAll s).sec = s.sec := rfl

@[simp] theorem State.noteAll_rel (s : State) : (State.noteAll s).rel = s.rel := rfl

@[simp] theorem State.noteAll_pwr (s : State) : (State.noteAll s).pwr = s.pwr := rfl

@[simp] theorem State.noteAll_hif (s : State) : (State.noteAll s).hif = s.hif := rfl

@[simp] theorem State.noteAll_pd (s : State) : (State.noteAll s).pd = s.pd := rfl

@[simp] theorem State.noteAll_boot (s : State) : (State.noteAll s).boot = s.boot := rfl

@[simp] theorem State.noteAll_mem (s : State) : (State.noteAll s).mem = s.mem := rfl

@[simp] theorem State.noteAll_out (s : State) : (State.noteAll s).out = s.out := rfl

@[simp] theorem State.noteAll_free (s : State) : (State.noteAll s).free = s.free := rfl

@[simp] theorem State.noteAll_pending (s : State) : (State.noteAll s).pending = s.pending := rfl

@[simp] theorem State.enqueue_timer (s : State) (q : Nat) (m : Msg) : (State.enqueue s q m).timer = s.timer := rfl

@[simp] theorem State.enqueue_phs (s : State) (q : Nat) (m : Msg) : (State.enqueue s q m).phs = s.phs := rfl

@[simp] theorem State.enqueue_sch (s : State) (q : Nat) (m : Msg) : (State.enqueue s q m).sch = s.sch := rfl

@[simp] theorem State.enqueue_pg (s : State) (q : Nat) (m : Msg) : (State.enqueue s q m).pg = s.pg := rfl

@[simp] theorem State.enqueue_rq (s : State) (q : Nat) (m : Msg) : (State.enqueue s q m).rq = s.rq := rfl

@[simp] theorem State.enqueue_hbm (s : State) (q : Nat) (m : Msg) : (State.enqueue s q m).hbm = s.hbm := rfl

@[simp] theorem State.enqueue_tier (s : State) (q : Nat) (m : Msg) : (State.enqueue s q m).tier = s.tier := rfl

@[simp] theorem State.enqueue_lnk (s : State) (q : Nat) (m : Msg) : (State.enqueue s q m).lnk = s.lnk := rfl

@[simp] theorem State.enqueue_rmo (s : State) (q : Nat) (m : Msg) : (State.enqueue s q m).rmo = s.rmo := rfl

@[simp] theorem State.enqueue_cmp (s : State) (q : Nat) (m : Msg) : (State.enqueue s q m).cmp = s.cmp := rfl

@[simp] theorem State.enqueue_sec (s : State) (q : Nat) (m : Msg) : (State.enqueue s q m).sec = s.sec := rfl

@[simp] theorem State.enqueue_rel (s : State) (q : Nat) (m : Msg) : (State.enqueue s q m).rel = s.rel := rfl

@[simp] theorem State.enqueue_pwr (s : State) (q : Nat) (m : Msg) : (State.enqueue s q m).pwr = s.pwr := rfl

@[simp] theorem State.enqueue_hif (s : State) (q : Nat) (m : Msg) : (State.enqueue s q m).hif = s.hif := rfl

@[simp] theorem State.enqueue_pd (s : State) (q : Nat) (m : Msg) : (State.enqueue s q m).pd = s.pd := rfl

@[simp] theorem State.enqueue_boot (s : State) (q : Nat) (m : Msg) : (State.enqueue s q m).boot = s.boot := rfl

@[simp] theorem State.enqueue_mem (s : State) (q : Nat) (m : Msg) : (State.enqueue s q m).mem = s.mem := rfl

@[simp] theorem State.enqueue_out (s : State) (q : Nat) (m : Msg) : (State.enqueue s q m).out = s.out := rfl

@[simp] theorem State.enqueue_free (s : State) (q : Nat) (m : Msg) : (State.enqueue s q m).free = s.free := rfl

@[simp] theorem State.enqueue_pending (s : State) (q : Nat) (m : Msg) : (State.enqueue s q m).pending = s.pending := rfl

@[simp] theorem State.setVf_timer (s : State) (n : Nat) (f : Vf → Vf) : (State.setVf s n f).timer = s.timer := rfl

@[simp] theorem State.setVf_phs (s : State) (n : Nat) (f : Vf → Vf) : (State.setVf s n f).phs = s.phs := rfl

@[simp] theorem State.setVf_sch (s : State) (n : Nat) (f : Vf → Vf) : (State.setVf s n f).sch = s.sch := rfl

@[simp] theorem State.setVf_pg (s : State) (n : Nat) (f : Vf → Vf) : (State.setVf s n f).pg = s.pg := rfl

@[simp] theorem State.setVf_rq (s : State) (n : Nat) (f : Vf → Vf) : (State.setVf s n f).rq = s.rq := rfl

@[simp] theorem State.setVf_hbm (s : State) (n : Nat) (f : Vf → Vf) : (State.setVf s n f).hbm = s.hbm := rfl

@[simp] theorem State.setVf_tier (s : State) (n : Nat) (f : Vf → Vf) : (State.setVf s n f).tier = s.tier := rfl

@[simp] theorem State.setVf_lnk (s : State) (n : Nat) (f : Vf → Vf) : (State.setVf s n f).lnk = s.lnk := rfl

@[simp] theorem State.setVf_rmo (s : State) (n : Nat) (f : Vf → Vf) : (State.setVf s n f).rmo = s.rmo := rfl

@[simp] theorem State.setVf_egq (s : State) (n : Nat) (f : Vf → Vf) : (State.setVf s n f).egq = s.egq := rfl

@[simp] theorem State.setVf_cmp (s : State) (n : Nat) (f : Vf → Vf) : (State.setVf s n f).cmp = s.cmp := rfl

@[simp] theorem State.setVf_sec (s : State) (n : Nat) (f : Vf → Vf) : (State.setVf s n f).sec = s.sec := rfl

@[simp] theorem State.setVf_rel (s : State) (n : Nat) (f : Vf → Vf) : (State.setVf s n f).rel = s.rel := rfl

@[simp] theorem State.setVf_pwr (s : State) (n : Nat) (f : Vf → Vf) : (State.setVf s n f).pwr = s.pwr := rfl

@[simp] theorem State.setVf_pd (s : State) (n : Nat) (f : Vf → Vf) : (State.setVf s n f).pd = s.pd := rfl

@[simp] theorem State.setVf_boot (s : State) (n : Nat) (f : Vf → Vf) : (State.setVf s n f).boot = s.boot := rfl

@[simp] theorem State.setVf_mem (s : State) (n : Nat) (f : Vf → Vf) : (State.setVf s n f).mem = s.mem := rfl

@[simp] theorem State.setVf_out (s : State) (n : Nat) (f : Vf → Vf) : (State.setVf s n f).out = s.out := rfl

@[simp] theorem State.setVf_free (s : State) (n : Nat) (f : Vf → Vf) : (State.setVf s n f).free = s.free := rfl

@[simp] theorem State.setVf_pending (s : State) (n : Nat) (f : Vf → Vf) : (State.setVf s n f).pending = s.pending := rfl

@[simp] theorem State.setReq_timer (s : State) (id : Nat) (f : Req → Req) : (State.setReq s id f).timer = s.timer := rfl

@[simp] theorem State.setReq_phs (s : State) (id : Nat) (f : Req → Req) : (State.setReq s id f).phs = s.phs := rfl

@[simp] theorem State.setReq_sch (s : State) (id : Nat) (f : Req → Req) : (State.setReq s id f).sch = s.sch := rfl

@[simp] theorem State.setReq_pg (s : State) (id : Nat) (f : Req → Req) : (State.setReq s id f).pg = s.pg := rfl

@[simp] theorem State.setReq_hbm (s : State) (id : Nat) (f : Req → Req) : (State.setReq s id f).hbm = s.hbm := rfl

@[simp] theorem State.setReq_tier (s : State) (id : Nat) (f : Req → Req) : (State.setReq s id f).tier = s.tier := rfl

@[simp] theorem State.setReq_lnk (s : State) (id : Nat) (f : Req → Req) : (State.setReq s id f).lnk = s.lnk := rfl

@[simp] theorem State.setReq_rmo (s : State) (id : Nat) (f : Req → Req) : (State.setReq s id f).rmo = s.rmo := rfl

@[simp] theorem State.setReq_egq (s : State) (id : Nat) (f : Req → Req) : (State.setReq s id f).egq = s.egq := rfl

@[simp] theorem State.setReq_cmp (s : State) (id : Nat) (f : Req → Req) : (State.setReq s id f).cmp = s.cmp := rfl

@[simp] theorem State.setReq_sec (s : State) (id : Nat) (f : Req → Req) : (State.setReq s id f).sec = s.sec := rfl

@[simp] theorem State.setReq_rel (s : State) (id : Nat) (f : Req → Req) : (State.setReq s id f).rel = s.rel := rfl

@[simp] theorem State.setReq_pwr (s : State) (id : Nat) (f : Req → Req) : (State.setReq s id f).pwr = s.pwr := rfl

@[simp] theorem State.setReq_hif (s : State) (id : Nat) (f : Req → Req) : (State.setReq s id f).hif = s.hif := rfl

@[simp] theorem State.setReq_pd (s : State) (id : Nat) (f : Req → Req) : (State.setReq s id f).pd = s.pd := rfl

@[simp] theorem State.setReq_boot (s : State) (id : Nat) (f : Req → Req) : (State.setReq s id f).boot = s.boot := rfl

@[simp] theorem State.setReq_mem (s : State) (id : Nat) (f : Req → Req) : (State.setReq s id f).mem = s.mem := rfl

@[simp] theorem State.setReq_out (s : State) (id : Nat) (f : Req → Req) : (State.setReq s id f).out = s.out := rfl

@[simp] theorem State.setReq_free (s : State) (id : Nat) (f : Req → Req) : (State.setReq s id f).free = s.free := rfl

@[simp] theorem State.setReq_pending (s : State) (id : Nat) (f : Req → Req) : (State.setReq s id f).pending = s.pending := rfl

@[simp] theorem State.streamsLost_timer (s : State) (p : Cat → Bool) : (State.streamsLost s p).timer = s.timer := rfl

@[simp] theorem State.streamsLost_phs (s : State) (p : Cat → Bool) : (State.streamsLost s p).phs = s.phs := rfl

@[simp] theorem State.streamsLost_sch (s : State) (p : Cat → Bool) : (State.streamsLost s p).sch = s.sch := rfl

@[simp] theorem State.streamsLost_pg (s : State) (p : Cat → Bool) : (State.streamsLost s p).pg = s.pg := rfl

@[simp] theorem State.streamsLost_rq (s : State) (p : Cat → Bool) : (State.streamsLost s p).rq = s.rq := rfl

@[simp] theorem State.streamsLost_hbm (s : State) (p : Cat → Bool) : (State.streamsLost s p).hbm = s.hbm := rfl

@[simp] theorem State.streamsLost_lnk (s : State) (p : Cat → Bool) : (State.streamsLost s p).lnk = s.lnk := rfl

@[simp] theorem State.streamsLost_rmo (s : State) (p : Cat → Bool) : (State.streamsLost s p).rmo = s.rmo := rfl

@[simp] theorem State.streamsLost_egq (s : State) (p : Cat → Bool) : (State.streamsLost s p).egq = s.egq := rfl

@[simp] theorem State.streamsLost_cmp (s : State) (p : Cat → Bool) : (State.streamsLost s p).cmp = s.cmp := rfl

@[simp] theorem State.streamsLost_sec (s : State) (p : Cat → Bool) : (State.streamsLost s p).sec = s.sec := rfl

@[simp] theorem State.streamsLost_rel (s : State) (p : Cat → Bool) : (State.streamsLost s p).rel = s.rel := rfl

@[simp] theorem State.streamsLost_pwr (s : State) (p : Cat → Bool) : (State.streamsLost s p).pwr = s.pwr := rfl

@[simp] theorem State.streamsLost_hif (s : State) (p : Cat → Bool) : (State.streamsLost s p).hif = s.hif := rfl

@[simp] theorem State.streamsLost_pd (s : State) (p : Cat → Bool) : (State.streamsLost s p).pd = s.pd := rfl

@[simp] theorem State.streamsLost_boot (s : State) (p : Cat → Bool) : (State.streamsLost s p).boot = s.boot := rfl

@[simp] theorem State.streamsLost_mem (s : State) (p : Cat → Bool) : (State.streamsLost s p).mem = s.mem := rfl

@[simp] theorem State.streamsLost_out (s : State) (p : Cat → Bool) : (State.streamsLost s p).out = s.out := rfl

@[simp] theorem State.streamsLost_free (s : State) (p : Cat → Bool) : (State.streamsLost s p).free = s.free := rfl

@[simp] theorem State.streamsLost_pending (s : State) (p : Cat → Bool) : (State.streamsLost s p).pending = s.pending := rfl

@[simp] theorem State.setArb_timer (s : State) (g : Nat) (a : Arb) : (State.setArb s g a).timer = s.timer := rfl

@[simp] theorem State.setArb_phs (s : State) (g : Nat) (a : Arb) : (State.setArb s g a).phs = s.phs := rfl

@[simp] theorem State.setArb_sch (s : State) (g : Nat) (a : Arb) : (State.setArb s g a).sch = s.sch := rfl

@[simp] theorem State.setArb_pg (s : State) (g : Nat) (a : Arb) : (State.setArb s g a).pg = s.pg := rfl

@[simp] theorem State.setArb_rq (s : State) (g : Nat) (a : Arb) : (State.setArb s g a).rq = s.rq := rfl

@[simp] theorem State.setArb_tier (s : State) (g : Nat) (a : Arb) : (State.setArb s g a).tier = s.tier := rfl

@[simp] theorem State.setArb_lnk (s : State) (g : Nat) (a : Arb) : (State.setArb s g a).lnk = s.lnk := rfl

@[simp] theorem State.setArb_rmo (s : State) (g : Nat) (a : Arb) : (State.setArb s g a).rmo = s.rmo := rfl

@[simp] theorem State.setArb_egq (s : State) (g : Nat) (a : Arb) : (State.setArb s g a).egq = s.egq := rfl

@[simp] theorem State.setArb_cmp (s : State) (g : Nat) (a : Arb) : (State.setArb s g a).cmp = s.cmp := rfl

@[simp] theorem State.setArb_sec (s : State) (g : Nat) (a : Arb) : (State.setArb s g a).sec = s.sec := rfl

@[simp] theorem State.setArb_rel (s : State) (g : Nat) (a : Arb) : (State.setArb s g a).rel = s.rel := rfl

@[simp] theorem State.setArb_pwr (s : State) (g : Nat) (a : Arb) : (State.setArb s g a).pwr = s.pwr := rfl

@[simp] theorem State.setArb_hif (s : State) (g : Nat) (a : Arb) : (State.setArb s g a).hif = s.hif := rfl

@[simp] theorem State.setArb_pd (s : State) (g : Nat) (a : Arb) : (State.setArb s g a).pd = s.pd := rfl

@[simp] theorem State.setArb_boot (s : State) (g : Nat) (a : Arb) : (State.setArb s g a).boot = s.boot := rfl

@[simp] theorem State.setArb_mem (s : State) (g : Nat) (a : Arb) : (State.setArb s g a).mem = s.mem := rfl

@[simp] theorem State.setArb_out (s : State) (g : Nat) (a : Arb) : (State.setArb s g a).out = s.out := rfl

@[simp] theorem State.setArb_free (s : State) (g : Nat) (a : Arb) : (State.setArb s g a).free = s.free := rfl

@[simp] theorem State.setArb_pending (s : State) (g : Nat) (a : Arb) : (State.setArb s g a).pending = s.pending := rfl

@[simp] theorem State.keepTick_timer (s : State) : (State.keepTick s).timer = s.timer := rfl

@[simp] theorem State.keepTick_phs (s : State) : (State.keepTick s).phs = s.phs := rfl

@[simp] theorem State.keepTick_sch (s : State) : (State.keepTick s).sch = s.sch := rfl

@[simp] theorem State.keepTick_pg (s : State) : (State.keepTick s).pg = s.pg := rfl

@[simp] theorem State.keepTick_rq (s : State) : (State.keepTick s).rq = s.rq := rfl

@[simp] theorem State.keepTick_tier (s : State) : (State.keepTick s).tier = s.tier := rfl

@[simp] theorem State.keepTick_lnk (s : State) : (State.keepTick s).lnk = s.lnk := rfl

@[simp] theorem State.keepTick_rmo (s : State) : (State.keepTick s).rmo = s.rmo := rfl

@[simp] theorem State.keepTick_egq (s : State) : (State.keepTick s).egq = s.egq := rfl

@[simp] theorem State.keepTick_cmp (s : State) : (State.keepTick s).cmp = s.cmp := rfl

@[simp] theorem State.keepTick_sec (s : State) : (State.keepTick s).sec = s.sec := rfl

@[simp] theorem State.keepTick_rel (s : State) : (State.keepTick s).rel = s.rel := rfl

@[simp] theorem State.keepTick_pwr (s : State) : (State.keepTick s).pwr = s.pwr := rfl

@[simp] theorem State.keepTick_hif (s : State) : (State.keepTick s).hif = s.hif := rfl

@[simp] theorem State.keepTick_pd (s : State) : (State.keepTick s).pd = s.pd := rfl

@[simp] theorem State.keepTick_boot (s : State) : (State.keepTick s).boot = s.boot := rfl

@[simp] theorem State.keepTick_mem (s : State) : (State.keepTick s).mem = s.mem := rfl

@[simp] theorem State.keepTick_out (s : State) : (State.keepTick s).out = s.out := rfl

@[simp] theorem State.keepTick_free (s : State) : (State.keepTick s).free = s.free := rfl

@[simp] theorem State.keepTick_pending (s : State) : (State.keepTick s).pending = s.pending := rfl

@[simp] theorem State.setGov_timer (s : State) (w : Nat) (g : Gov) : (State.setGov s w g).timer = s.timer := rfl

@[simp] theorem State.setGov_phs (s : State) (w : Nat) (g : Gov) : (State.setGov s w g).phs = s.phs := rfl

@[simp] theorem State.setGov_sch (s : State) (w : Nat) (g : Gov) : (State.setGov s w g).sch = s.sch := rfl

@[simp] theorem State.setGov_pg (s : State) (w : Nat) (g : Gov) : (State.setGov s w g).pg = s.pg := rfl

@[simp] theorem State.setGov_rq (s : State) (w : Nat) (g : Gov) : (State.setGov s w g).rq = s.rq := rfl

@[simp] theorem State.setGov_tier (s : State) (w : Nat) (g : Gov) : (State.setGov s w g).tier = s.tier := rfl

@[simp] theorem State.setGov_lnk (s : State) (w : Nat) (g : Gov) : (State.setGov s w g).lnk = s.lnk := rfl

@[simp] theorem State.setGov_rmo (s : State) (w : Nat) (g : Gov) : (State.setGov s w g).rmo = s.rmo := rfl

@[simp] theorem State.setGov_egq (s : State) (w : Nat) (g : Gov) : (State.setGov s w g).egq = s.egq := rfl

@[simp] theorem State.setGov_cmp (s : State) (w : Nat) (g : Gov) : (State.setGov s w g).cmp = s.cmp := rfl

@[simp] theorem State.setGov_sec (s : State) (w : Nat) (g : Gov) : (State.setGov s w g).sec = s.sec := rfl

@[simp] theorem State.setGov_rel (s : State) (w : Nat) (g : Gov) : (State.setGov s w g).rel = s.rel := rfl

@[simp] theorem State.setGov_pwr (s : State) (w : Nat) (g : Gov) : (State.setGov s w g).pwr = s.pwr := rfl

@[simp] theorem State.setGov_hif (s : State) (w : Nat) (g : Gov) : (State.setGov s w g).hif = s.hif := rfl

@[simp] theorem State.setGov_pd (s : State) (w : Nat) (g : Gov) : (State.setGov s w g).pd = s.pd := rfl

@[simp] theorem State.setGov_boot (s : State) (w : Nat) (g : Gov) : (State.setGov s w g).boot = s.boot := rfl

@[simp] theorem State.setGov_mem (s : State) (w : Nat) (g : Gov) : (State.setGov s w g).mem = s.mem := rfl

@[simp] theorem State.setGov_out (s : State) (w : Nat) (g : Gov) : (State.setGov s w g).out = s.out := rfl

@[simp] theorem State.setGov_free (s : State) (w : Nat) (g : Gov) : (State.setGov s w g).free = s.free := rfl

@[simp] theorem State.setGov_pending (s : State) (w : Nat) (g : Gov) : (State.setGov s w g).pending = s.pending := rfl

@[simp] theorem State.setNmu_timer (s : State) (w ch : Nat) (n : Nmu) : (State.setNmu s w ch n).timer = s.timer := rfl

@[simp] theorem State.setNmu_phs (s : State) (w ch : Nat) (n : Nmu) : (State.setNmu s w ch n).phs = s.phs := rfl

@[simp] theorem State.setNmu_sch (s : State) (w ch : Nat) (n : Nmu) : (State.setNmu s w ch n).sch = s.sch := rfl

@[simp] theorem State.setNmu_pg (s : State) (w ch : Nat) (n : Nmu) : (State.setNmu s w ch n).pg = s.pg := rfl

@[simp] theorem State.setNmu_rq (s : State) (w ch : Nat) (n : Nmu) : (State.setNmu s w ch n).rq = s.rq := rfl

@[simp] theorem State.setNmu_tier (s : State) (w ch : Nat) (n : Nmu) : (State.setNmu s w ch n).tier = s.tier := rfl

@[simp] theorem State.setNmu_lnk (s : State) (w ch : Nat) (n : Nmu) : (State.setNmu s w ch n).lnk = s.lnk := rfl

@[simp] theorem State.setNmu_rmo (s : State) (w ch : Nat) (n : Nmu) : (State.setNmu s w ch n).rmo = s.rmo := rfl

@[simp] theorem State.setNmu_egq (s : State) (w ch : Nat) (n : Nmu) : (State.setNmu s w ch n).egq = s.egq := rfl

@[simp] theorem State.setNmu_cmp (s : State) (w ch : Nat) (n : Nmu) : (State.setNmu s w ch n).cmp = s.cmp := rfl

@[simp] theorem State.setNmu_sec (s : State) (w ch : Nat) (n : Nmu) : (State.setNmu s w ch n).sec = s.sec := rfl

@[simp] theorem State.setNmu_rel (s : State) (w ch : Nat) (n : Nmu) : (State.setNmu s w ch n).rel = s.rel := rfl

@[simp] theorem State.setNmu_pwr (s : State) (w ch : Nat) (n : Nmu) : (State.setNmu s w ch n).pwr = s.pwr := rfl

@[simp] theorem State.setNmu_hif (s : State) (w ch : Nat) (n : Nmu) : (State.setNmu s w ch n).hif = s.hif := rfl

@[simp] theorem State.setNmu_pd (s : State) (w ch : Nat) (n : Nmu) : (State.setNmu s w ch n).pd = s.pd := rfl

@[simp] theorem State.setNmu_boot (s : State) (w ch : Nat) (n : Nmu) : (State.setNmu s w ch n).boot = s.boot := rfl

@[simp] theorem State.setNmu_mem (s : State) (w ch : Nat) (n : Nmu) : (State.setNmu s w ch n).mem = s.mem := rfl

@[simp] theorem State.setNmu_out (s : State) (w ch : Nat) (n : Nmu) : (State.setNmu s w ch n).out = s.out := rfl

@[simp] theorem State.setNmu_free (s : State) (w ch : Nat) (n : Nmu) : (State.setNmu s w ch n).free = s.free := rfl

@[simp] theorem State.setNmu_pending (s : State) (w ch : Nat) (n : Nmu) : (State.setNmu s w ch n).pending = s.pending := rfl

@[simp] theorem State.setBank_timer (s : State) (b : Nat) (k : Bank) : (State.setBank s b k).timer = s.timer := rfl

@[simp] theorem State.setBank_phs (s : State) (b : Nat) (k : Bank) : (State.setBank s b k).phs = s.phs := rfl

@[simp] theorem State.setBank_sch (s : State) (b : Nat) (k : Bank) : (State.setBank s b k).sch = s.sch := rfl

@[simp] theorem State.setBank_pg (s : State) (b : Nat) (k : Bank) : (State.setBank s b k).pg = s.pg := rfl

@[simp] theorem State.setBank_rq (s : State) (b : Nat) (k : Bank) : (State.setBank s b k).rq = s.rq := rfl

@[simp] theorem State.setBank_tier (s : State) (b : Nat) (k : Bank) : (State.setBank s b k).tier = s.tier := rfl

@[simp] theorem State.setBank_lnk (s : State) (b : Nat) (k : Bank) : (State.setBank s b k).lnk = s.lnk := rfl

@[simp] theorem State.setBank_rmo (s : State) (b : Nat) (k : Bank) : (State.setBank s b k).rmo = s.rmo := rfl

@[simp] theorem State.setBank_egq (s : State) (b : Nat) (k : Bank) : (State.setBank s b k).egq = s.egq := rfl

@[simp] theorem State.setBank_cmp (s : State) (b : Nat) (k : Bank) : (State.setBank s b k).cmp = s.cmp := rfl

@[simp] theorem State.setBank_sec (s : State) (b : Nat) (k : Bank) : (State.setBank s b k).sec = s.sec := rfl

@[simp] theorem State.setBank_rel (s : State) (b : Nat) (k : Bank) : (State.setBank s b k).rel = s.rel := rfl

@[simp] theorem State.setBank_pwr (s : State) (b : Nat) (k : Bank) : (State.setBank s b k).pwr = s.pwr := rfl

@[simp] theorem State.setBank_hif (s : State) (b : Nat) (k : Bank) : (State.setBank s b k).hif = s.hif := rfl

@[simp] theorem State.setBank_pd (s : State) (b : Nat) (k : Bank) : (State.setBank s b k).pd = s.pd := rfl

@[simp] theorem State.setBank_boot (s : State) (b : Nat) (k : Bank) : (State.setBank s b k).boot = s.boot := rfl

@[simp] theorem State.setBank_mem (s : State) (b : Nat) (k : Bank) : (State.setBank s b k).mem = s.mem := rfl

@[simp] theorem State.setBank_out (s : State) (b : Nat) (k : Bank) : (State.setBank s b k).out = s.out := rfl

@[simp] theorem State.setBank_free (s : State) (b : Nat) (k : Bank) : (State.setBank s b k).free = s.free := rfl

@[simp] theorem State.setBank_pending (s : State) (b : Nat) (k : Bank) : (State.setBank s b k).pending = s.pending := rfl

@[simp] theorem State.setWregs_timer (s : State) (fn : Nat) (r : WRegs) : (State.setWregs s fn r).timer = s.timer := rfl

@[simp] theorem State.setWregs_phs (s : State) (fn : Nat) (r : WRegs) : (State.setWregs s fn r).phs = s.phs := rfl

@[simp] theorem State.setWregs_sch (s : State) (fn : Nat) (r : WRegs) : (State.setWregs s fn r).sch = s.sch := rfl

@[simp] theorem State.setWregs_pg (s : State) (fn : Nat) (r : WRegs) : (State.setWregs s fn r).pg = s.pg := rfl

@[simp] theorem State.setWregs_rq (s : State) (fn : Nat) (r : WRegs) : (State.setWregs s fn r).rq = s.rq := rfl

@[simp] theorem State.setWregs_hbm (s : State) (fn : Nat) (r : WRegs) : (State.setWregs s fn r).hbm = s.hbm := rfl

@[simp] theorem State.setWregs_tier (s : State) (fn : Nat) (r : WRegs) : (State.setWregs s fn r).tier = s.tier := rfl

@[simp] theorem State.setWregs_lnk (s : State) (fn : Nat) (r : WRegs) : (State.setWregs s fn r).lnk = s.lnk := rfl

@[simp] theorem State.setWregs_egq (s : State) (fn : Nat) (r : WRegs) : (State.setWregs s fn r).egq = s.egq := rfl

@[simp] theorem State.setWregs_cmp (s : State) (fn : Nat) (r : WRegs) : (State.setWregs s fn r).cmp = s.cmp := rfl

@[simp] theorem State.setWregs_sec (s : State) (fn : Nat) (r : WRegs) : (State.setWregs s fn r).sec = s.sec := rfl

@[simp] theorem State.setWregs_rel (s : State) (fn : Nat) (r : WRegs) : (State.setWregs s fn r).rel = s.rel := rfl

@[simp] theorem State.setWregs_pwr (s : State) (fn : Nat) (r : WRegs) : (State.setWregs s fn r).pwr = s.pwr := rfl

@[simp] theorem State.setWregs_hif (s : State) (fn : Nat) (r : WRegs) : (State.setWregs s fn r).hif = s.hif := rfl

@[simp] theorem State.setWregs_pd (s : State) (fn : Nat) (r : WRegs) : (State.setWregs s fn r).pd = s.pd := rfl

@[simp] theorem State.setWregs_boot (s : State) (fn : Nat) (r : WRegs) : (State.setWregs s fn r).boot = s.boot := rfl

@[simp] theorem State.setWregs_mem (s : State) (fn : Nat) (r : WRegs) : (State.setWregs s fn r).mem = s.mem := rfl

@[simp] theorem State.setWregs_out (s : State) (fn : Nat) (r : WRegs) : (State.setWregs s fn r).out = s.out := rfl

@[simp] theorem State.setWregs_free (s : State) (fn : Nat) (r : WRegs) : (State.setWregs s fn r).free = s.free := rfl

@[simp] theorem State.setWregs_pending (s : State) (fn : Nat) (r : WRegs) : (State.setWregs s fn r).pending = s.pending := rfl

@[simp] theorem State.setRecv_timer (s : State) (i : Nat) (e : RecvEnt) : (State.setRecv s i e).timer = s.timer := rfl

@[simp] theorem State.setRecv_phs (s : State) (i : Nat) (e : RecvEnt) : (State.setRecv s i e).phs = s.phs := rfl

@[simp] theorem State.setRecv_sch (s : State) (i : Nat) (e : RecvEnt) : (State.setRecv s i e).sch = s.sch := rfl

@[simp] theorem State.setRecv_pg (s : State) (i : Nat) (e : RecvEnt) : (State.setRecv s i e).pg = s.pg := rfl

@[simp] theorem State.setRecv_rq (s : State) (i : Nat) (e : RecvEnt) : (State.setRecv s i e).rq = s.rq := rfl

@[simp] theorem State.setRecv_hbm (s : State) (i : Nat) (e : RecvEnt) : (State.setRecv s i e).hbm = s.hbm := rfl

@[simp] theorem State.setRecv_tier (s : State) (i : Nat) (e : RecvEnt) : (State.setRecv s i e).tier = s.tier := rfl

@[simp] theorem State.setRecv_lnk (s : State) (i : Nat) (e : RecvEnt) : (State.setRecv s i e).lnk = s.lnk := rfl

@[simp] theorem State.setRecv_egq (s : State) (i : Nat) (e : RecvEnt) : (State.setRecv s i e).egq = s.egq := rfl

@[simp] theorem State.setRecv_cmp (s : State) (i : Nat) (e : RecvEnt) : (State.setRecv s i e).cmp = s.cmp := rfl

@[simp] theorem State.setRecv_sec (s : State) (i : Nat) (e : RecvEnt) : (State.setRecv s i e).sec = s.sec := rfl

@[simp] theorem State.setRecv_rel (s : State) (i : Nat) (e : RecvEnt) : (State.setRecv s i e).rel = s.rel := rfl

@[simp] theorem State.setRecv_pwr (s : State) (i : Nat) (e : RecvEnt) : (State.setRecv s i e).pwr = s.pwr := rfl

@[simp] theorem State.setRecv_hif (s : State) (i : Nat) (e : RecvEnt) : (State.setRecv s i e).hif = s.hif := rfl

@[simp] theorem State.setRecv_pd (s : State) (i : Nat) (e : RecvEnt) : (State.setRecv s i e).pd = s.pd := rfl

@[simp] theorem State.setRecv_boot (s : State) (i : Nat) (e : RecvEnt) : (State.setRecv s i e).boot = s.boot := rfl

@[simp] theorem State.setRecv_mem (s : State) (i : Nat) (e : RecvEnt) : (State.setRecv s i e).mem = s.mem := rfl

@[simp] theorem State.setRecv_out (s : State) (i : Nat) (e : RecvEnt) : (State.setRecv s i e).out = s.out := rfl

@[simp] theorem State.setRecv_free (s : State) (i : Nat) (e : RecvEnt) : (State.setRecv s i e).free = s.free := rfl

@[simp] theorem State.setRecv_pending (s : State) (i : Nat) (e : RecvEnt) : (State.setRecv s i e).pending = s.pending := rfl

@[simp] theorem State.putPkts_timer (s : State) (l : List LinkPkt) : (State.putPkts s l).timer = s.timer := rfl

@[simp] theorem State.putPkts_phs (s : State) (l : List LinkPkt) : (State.putPkts s l).phs = s.phs := rfl

@[simp] theorem State.putPkts_sch (s : State) (l : List LinkPkt) : (State.putPkts s l).sch = s.sch := rfl

@[simp] theorem State.putPkts_pg (s : State) (l : List LinkPkt) : (State.putPkts s l).pg = s.pg := rfl

@[simp] theorem State.putPkts_rq (s : State) (l : List LinkPkt) : (State.putPkts s l).rq = s.rq := rfl

@[simp] theorem State.putPkts_hbm (s : State) (l : List LinkPkt) : (State.putPkts s l).hbm = s.hbm := rfl

@[simp] theorem State.putPkts_tier (s : State) (l : List LinkPkt) : (State.putPkts s l).tier = s.tier := rfl

@[simp] theorem State.putPkts_rmo (s : State) (l : List LinkPkt) : (State.putPkts s l).rmo = s.rmo := rfl

@[simp] theorem State.putPkts_egq (s : State) (l : List LinkPkt) : (State.putPkts s l).egq = s.egq := rfl

@[simp] theorem State.putPkts_cmp (s : State) (l : List LinkPkt) : (State.putPkts s l).cmp = s.cmp := rfl

@[simp] theorem State.putPkts_sec (s : State) (l : List LinkPkt) : (State.putPkts s l).sec = s.sec := rfl

@[simp] theorem State.putPkts_rel (s : State) (l : List LinkPkt) : (State.putPkts s l).rel = s.rel := rfl

@[simp] theorem State.putPkts_pwr (s : State) (l : List LinkPkt) : (State.putPkts s l).pwr = s.pwr := rfl

@[simp] theorem State.putPkts_hif (s : State) (l : List LinkPkt) : (State.putPkts s l).hif = s.hif := rfl

@[simp] theorem State.putPkts_pd (s : State) (l : List LinkPkt) : (State.putPkts s l).pd = s.pd := rfl

@[simp] theorem State.putPkts_boot (s : State) (l : List LinkPkt) : (State.putPkts s l).boot = s.boot := rfl

@[simp] theorem State.putPkts_mem (s : State) (l : List LinkPkt) : (State.putPkts s l).mem = s.mem := rfl

@[simp] theorem State.putPkts_out (s : State) (l : List LinkPkt) : (State.putPkts s l).out = s.out := rfl

@[simp] theorem State.putPkts_free (s : State) (l : List LinkPkt) : (State.putPkts s l).free = s.free := rfl

@[simp] theorem State.putPkts_pending (s : State) (l : List LinkPkt) : (State.putPkts s l).pending = s.pending := rfl

@[simp] theorem State.mgmtTake_timer (s : State) : (State.mgmtTake s).timer = s.timer := rfl

@[simp] theorem State.mgmtTake_phs (s : State) : (State.mgmtTake s).phs = s.phs := rfl

@[simp] theorem State.mgmtTake_sch (s : State) : (State.mgmtTake s).sch = s.sch := rfl

@[simp] theorem State.mgmtTake_pg (s : State) : (State.mgmtTake s).pg = s.pg := rfl

@[simp] theorem State.mgmtTake_rq (s : State) : (State.mgmtTake s).rq = s.rq := rfl

@[simp] theorem State.mgmtTake_hbm (s : State) : (State.mgmtTake s).hbm = s.hbm := rfl

@[simp] theorem State.mgmtTake_tier (s : State) : (State.mgmtTake s).tier = s.tier := rfl

@[simp] theorem State.mgmtTake_rmo (s : State) : (State.mgmtTake s).rmo = s.rmo := rfl

@[simp] theorem State.mgmtTake_egq (s : State) : (State.mgmtTake s).egq = s.egq := rfl

@[simp] theorem State.mgmtTake_cmp (s : State) : (State.mgmtTake s).cmp = s.cmp := rfl

@[simp] theorem State.mgmtTake_sec (s : State) : (State.mgmtTake s).sec = s.sec := rfl

@[simp] theorem State.mgmtTake_rel (s : State) : (State.mgmtTake s).rel = s.rel := rfl

@[simp] theorem State.mgmtTake_pwr (s : State) : (State.mgmtTake s).pwr = s.pwr := rfl

@[simp] theorem State.mgmtTake_hif (s : State) : (State.mgmtTake s).hif = s.hif := rfl

@[simp] theorem State.mgmtTake_pd (s : State) : (State.mgmtTake s).pd = s.pd := rfl

@[simp] theorem State.mgmtTake_boot (s : State) : (State.mgmtTake s).boot = s.boot := rfl

@[simp] theorem State.mgmtTake_mem (s : State) : (State.mgmtTake s).mem = s.mem := rfl

@[simp] theorem State.mgmtTake_out (s : State) : (State.mgmtTake s).out = s.out := rfl

@[simp] theorem State.mgmtTake_free (s : State) : (State.mgmtTake s).free = s.free := rfl

@[simp] theorem State.mgmtTake_pending (s : State) : (State.mgmtTake s).pending = s.pending := rfl

@[simp] theorem State.setRun_timer (s : State) (r : SlotRun) : (State.setRun s r).timer = s.timer := rfl

@[simp] theorem State.setRun_phs (s : State) (r : SlotRun) : (State.setRun s r).phs = s.phs := rfl

@[simp] theorem State.setRun_pg (s : State) (r : SlotRun) : (State.setRun s r).pg = s.pg := rfl

@[simp] theorem State.setRun_rq (s : State) (r : SlotRun) : (State.setRun s r).rq = s.rq := rfl

@[simp] theorem State.setRun_hbm (s : State) (r : SlotRun) : (State.setRun s r).hbm = s.hbm := rfl

@[simp] theorem State.setRun_tier (s : State) (r : SlotRun) : (State.setRun s r).tier = s.tier := rfl

@[simp] theorem State.setRun_lnk (s : State) (r : SlotRun) : (State.setRun s r).lnk = s.lnk := rfl

@[simp] theorem State.setRun_rmo (s : State) (r : SlotRun) : (State.setRun s r).rmo = s.rmo := rfl

@[simp] theorem State.setRun_egq (s : State) (r : SlotRun) : (State.setRun s r).egq = s.egq := rfl

@[simp] theorem State.setRun_cmp (s : State) (r : SlotRun) : (State.setRun s r).cmp = s.cmp := rfl

@[simp] theorem State.setRun_sec (s : State) (r : SlotRun) : (State.setRun s r).sec = s.sec := rfl

@[simp] theorem State.setRun_rel (s : State) (r : SlotRun) : (State.setRun s r).rel = s.rel := rfl

@[simp] theorem State.setRun_pwr (s : State) (r : SlotRun) : (State.setRun s r).pwr = s.pwr := rfl

@[simp] theorem State.setRun_hif (s : State) (r : SlotRun) : (State.setRun s r).hif = s.hif := rfl

@[simp] theorem State.setRun_pd (s : State) (r : SlotRun) : (State.setRun s r).pd = s.pd := rfl

@[simp] theorem State.setRun_boot (s : State) (r : SlotRun) : (State.setRun s r).boot = s.boot := rfl

@[simp] theorem State.setRun_mem (s : State) (r : SlotRun) : (State.setRun s r).mem = s.mem := rfl

@[simp] theorem State.setRun_out (s : State) (r : SlotRun) : (State.setRun s r).out = s.out := rfl

@[simp] theorem State.setRun_free (s : State) (r : SlotRun) : (State.setRun s r).free = s.free := rfl

@[simp] theorem State.setRun_pending (s : State) (r : SlotRun) : (State.setRun s r).pending = s.pending := rfl

@[simp] theorem State.setPg_timer (s : State) (f : PageSt → PageSt) : (State.setPg s f).timer = s.timer := rfl

@[simp] theorem State.setPg_phs (s : State) (f : PageSt → PageSt) : (State.setPg s f).phs = s.phs := rfl

@[simp] theorem State.setPg_sch (s : State) (f : PageSt → PageSt) : (State.setPg s f).sch = s.sch := rfl

@[simp] theorem State.setPg_rq (s : State) (f : PageSt → PageSt) : (State.setPg s f).rq = s.rq := rfl

@[simp] theorem State.setPg_hbm (s : State) (f : PageSt → PageSt) : (State.setPg s f).hbm = s.hbm := rfl

@[simp] theorem State.setPg_tier (s : State) (f : PageSt → PageSt) : (State.setPg s f).tier = s.tier := rfl

@[simp] theorem State.setPg_lnk (s : State) (f : PageSt → PageSt) : (State.setPg s f).lnk = s.lnk := rfl

@[simp] theorem State.setPg_rmo (s : State) (f : PageSt → PageSt) : (State.setPg s f).rmo = s.rmo := rfl

@[simp] theorem State.setPg_egq (s : State) (f : PageSt → PageSt) : (State.setPg s f).egq = s.egq := rfl

@[simp] theorem State.setPg_cmp (s : State) (f : PageSt → PageSt) : (State.setPg s f).cmp = s.cmp := rfl

@[simp] theorem State.setPg_sec (s : State) (f : PageSt → PageSt) : (State.setPg s f).sec = s.sec := rfl

@[simp] theorem State.setPg_rel (s : State) (f : PageSt → PageSt) : (State.setPg s f).rel = s.rel := rfl

@[simp] theorem State.setPg_pwr (s : State) (f : PageSt → PageSt) : (State.setPg s f).pwr = s.pwr := rfl

@[simp] theorem State.setPg_hif (s : State) (f : PageSt → PageSt) : (State.setPg s f).hif = s.hif := rfl

@[simp] theorem State.setPg_pd (s : State) (f : PageSt → PageSt) : (State.setPg s f).pd = s.pd := rfl

@[simp] theorem State.setPg_boot (s : State) (f : PageSt → PageSt) : (State.setPg s f).boot = s.boot := rfl

@[simp] theorem State.setPg_mem (s : State) (f : PageSt → PageSt) : (State.setPg s f).mem = s.mem := rfl

@[simp] theorem State.setPg_out (s : State) (f : PageSt → PageSt) : (State.setPg s f).out = s.out := rfl

@[simp] theorem State.setPg_free (s : State) (f : PageSt → PageSt) : (State.setPg s f).free = s.free := rfl

@[simp] theorem State.setPg_pending (s : State) (f : PageSt → PageSt) : (State.setPg s f).pending = s.pending := rfl

@[simp] theorem State.unpend_timer (s : State) (p : Nat → Nat → Nat → Nat → Bool) : (State.unpend s p).timer = s.timer := rfl

@[simp] theorem State.unpend_phs (s : State) (p : Nat → Nat → Nat → Nat → Bool) : (State.unpend s p).phs = s.phs := rfl

@[simp] theorem State.unpend_sch (s : State) (p : Nat → Nat → Nat → Nat → Bool) : (State.unpend s p).sch = s.sch := rfl

@[simp] theorem State.unpend_pg (s : State) (p : Nat → Nat → Nat → Nat → Bool) : (State.unpend s p).pg = s.pg := rfl

@[simp] theorem State.unpend_rq (s : State) (p : Nat → Nat → Nat → Nat → Bool) : (State.unpend s p).rq = s.rq := rfl

@[simp] theorem State.unpend_hbm (s : State) (p : Nat → Nat → Nat → Nat → Bool) : (State.unpend s p).hbm = s.hbm := rfl

@[simp] theorem State.unpend_tier (s : State) (p : Nat → Nat → Nat → Nat → Bool) : (State.unpend s p).tier = s.tier := rfl

@[simp] theorem State.unpend_lnk (s : State) (p : Nat → Nat → Nat → Nat → Bool) : (State.unpend s p).lnk = s.lnk := rfl

@[simp] theorem State.unpend_rmo (s : State) (p : Nat → Nat → Nat → Nat → Bool) : (State.unpend s p).rmo = s.rmo := rfl

@[simp] theorem State.unpend_egq (s : State) (p : Nat → Nat → Nat → Nat → Bool) : (State.unpend s p).egq = s.egq := rfl

@[simp] theorem State.unpend_cmp (s : State) (p : Nat → Nat → Nat → Nat → Bool) : (State.unpend s p).cmp = s.cmp := rfl

@[simp] theorem State.unpend_sec (s : State) (p : Nat → Nat → Nat → Nat → Bool) : (State.unpend s p).sec = s.sec := rfl

@[simp] theorem State.unpend_pwr (s : State) (p : Nat → Nat → Nat → Nat → Bool) : (State.unpend s p).pwr = s.pwr := rfl

@[simp] theorem State.unpend_hif (s : State) (p : Nat → Nat → Nat → Nat → Bool) : (State.unpend s p).hif = s.hif := rfl

@[simp] theorem State.unpend_pd (s : State) (p : Nat → Nat → Nat → Nat → Bool) : (State.unpend s p).pd = s.pd := rfl

@[simp] theorem State.unpend_boot (s : State) (p : Nat → Nat → Nat → Nat → Bool) : (State.unpend s p).boot = s.boot := rfl

@[simp] theorem State.unpend_mem (s : State) (p : Nat → Nat → Nat → Nat → Bool) : (State.unpend s p).mem = s.mem := rfl

@[simp] theorem State.unpend_out (s : State) (p : Nat → Nat → Nat → Nat → Bool) : (State.unpend s p).out = s.out := rfl

@[simp] theorem State.unpend_free (s : State) (p : Nat → Nat → Nat → Nat → Bool) : (State.unpend s p).free = s.free := rfl

@[simp] theorem State.unpend_pending (s : State) (p : Nat → Nat → Nat → Nat → Bool) : (State.unpend s p).pending = s.pending := rfl

@[simp] theorem State.hold_timer (s : State) (i : Instr) : (State.hold s i).timer = s.timer := rfl

@[simp] theorem State.hold_phs (s : State) (i : Instr) : (State.hold s i).phs = s.phs := rfl

@[simp] theorem State.hold_sch (s : State) (i : Instr) : (State.hold s i).sch = s.sch := rfl

@[simp] theorem State.hold_pg (s : State) (i : Instr) : (State.hold s i).pg = s.pg := rfl

@[simp] theorem State.hold_hbm (s : State) (i : Instr) : (State.hold s i).hbm = s.hbm := rfl

@[simp] theorem State.hold_tier (s : State) (i : Instr) : (State.hold s i).tier = s.tier := rfl

@[simp] theorem State.hold_lnk (s : State) (i : Instr) : (State.hold s i).lnk = s.lnk := rfl

@[simp] theorem State.hold_rmo (s : State) (i : Instr) : (State.hold s i).rmo = s.rmo := rfl

@[simp] theorem State.hold_egq (s : State) (i : Instr) : (State.hold s i).egq = s.egq := rfl

@[simp] theorem State.hold_cmp (s : State) (i : Instr) : (State.hold s i).cmp = s.cmp := rfl

@[simp] theorem State.hold_sec (s : State) (i : Instr) : (State.hold s i).sec = s.sec := rfl

@[simp] theorem State.hold_rel (s : State) (i : Instr) : (State.hold s i).rel = s.rel := rfl

@[simp] theorem State.hold_pwr (s : State) (i : Instr) : (State.hold s i).pwr = s.pwr := rfl

@[simp] theorem State.hold_hif (s : State) (i : Instr) : (State.hold s i).hif = s.hif := rfl

@[simp] theorem State.hold_pd (s : State) (i : Instr) : (State.hold s i).pd = s.pd := rfl

@[simp] theorem State.hold_boot (s : State) (i : Instr) : (State.hold s i).boot = s.boot := rfl

@[simp] theorem State.hold_mem (s : State) (i : Instr) : (State.hold s i).mem = s.mem := rfl

@[simp] theorem State.hold_out (s : State) (i : Instr) : (State.hold s i).out = s.out := rfl

@[simp] theorem State.hold_free (s : State) (i : Instr) : (State.hold s i).free = s.free := rfl

@[simp] theorem State.hold_pending (s : State) (i : Instr) : (State.hold s i).pending = s.pending := rfl

@[simp] theorem State.setFlash_timer (s : State) (n : Nat) (f : Flash) : (State.setFlash s n f).timer = s.timer := rfl

@[simp] theorem State.setFlash_phs (s : State) (n : Nat) (f : Flash) : (State.setFlash s n f).phs = s.phs := rfl

@[simp] theorem State.setFlash_sch (s : State) (n : Nat) (f : Flash) : (State.setFlash s n f).sch = s.sch := rfl

@[simp] theorem State.setFlash_pg (s : State) (n : Nat) (f : Flash) : (State.setFlash s n f).pg = s.pg := rfl

@[simp] theorem State.setFlash_rq (s : State) (n : Nat) (f : Flash) : (State.setFlash s n f).rq = s.rq := rfl

@[simp] theorem State.setFlash_hbm (s : State) (n : Nat) (f : Flash) : (State.setFlash s n f).hbm = s.hbm := rfl

@[simp] theorem State.setFlash_lnk (s : State) (n : Nat) (f : Flash) : (State.setFlash s n f).lnk = s.lnk := rfl

@[simp] theorem State.setFlash_rmo (s : State) (n : Nat) (f : Flash) : (State.setFlash s n f).rmo = s.rmo := rfl

@[simp] theorem State.setFlash_egq (s : State) (n : Nat) (f : Flash) : (State.setFlash s n f).egq = s.egq := rfl

@[simp] theorem State.setFlash_cmp (s : State) (n : Nat) (f : Flash) : (State.setFlash s n f).cmp = s.cmp := rfl

@[simp] theorem State.setFlash_sec (s : State) (n : Nat) (f : Flash) : (State.setFlash s n f).sec = s.sec := rfl

@[simp] theorem State.setFlash_rel (s : State) (n : Nat) (f : Flash) : (State.setFlash s n f).rel = s.rel := rfl

@[simp] theorem State.setFlash_pwr (s : State) (n : Nat) (f : Flash) : (State.setFlash s n f).pwr = s.pwr := rfl

@[simp] theorem State.setFlash_hif (s : State) (n : Nat) (f : Flash) : (State.setFlash s n f).hif = s.hif := rfl

@[simp] theorem State.setFlash_pd (s : State) (n : Nat) (f : Flash) : (State.setFlash s n f).pd = s.pd := rfl

@[simp] theorem State.setFlash_boot (s : State) (n : Nat) (f : Flash) : (State.setFlash s n f).boot = s.boot := rfl

@[simp] theorem State.setFlash_mem (s : State) (n : Nat) (f : Flash) : (State.setFlash s n f).mem = s.mem := rfl

@[simp] theorem State.setFlash_out (s : State) (n : Nat) (f : Flash) : (State.setFlash s n f).out = s.out := rfl

@[simp] theorem State.setFlash_free (s : State) (n : Nat) (f : Flash) : (State.setFlash s n f).free = s.free := rfl

@[simp] theorem State.setFlash_pending (s : State) (n : Nat) (f : Flash) : (State.setFlash s n f).pending = s.pending := rfl

@[simp] theorem State.flashOps_timer (s : State) (ch : Nat) (ops : List Nat) : (State.flashOps s ch ops).timer = s.timer := rfl

@[simp] theorem State.flashOps_phs (s : State) (ch : Nat) (ops : List Nat) : (State.flashOps s ch ops).phs = s.phs := rfl

@[simp] theorem State.flashOps_sch (s : State) (ch : Nat) (ops : List Nat) : (State.flashOps s ch ops).sch = s.sch := rfl

@[simp] theorem State.flashOps_pg (s : State) (ch : Nat) (ops : List Nat) : (State.flashOps s ch ops).pg = s.pg := rfl

@[simp] theorem State.flashOps_rq (s : State) (ch : Nat) (ops : List Nat) : (State.flashOps s ch ops).rq = s.rq := rfl

@[simp] theorem State.flashOps_hbm (s : State) (ch : Nat) (ops : List Nat) : (State.flashOps s ch ops).hbm = s.hbm := rfl

@[simp] theorem State.flashOps_tier (s : State) (ch : Nat) (ops : List Nat) : (State.flashOps s ch ops).tier = s.tier := rfl

@[simp] theorem State.flashOps_lnk (s : State) (ch : Nat) (ops : List Nat) : (State.flashOps s ch ops).lnk = s.lnk := rfl

@[simp] theorem State.flashOps_rmo (s : State) (ch : Nat) (ops : List Nat) : (State.flashOps s ch ops).rmo = s.rmo := rfl

@[simp] theorem State.flashOps_egq (s : State) (ch : Nat) (ops : List Nat) : (State.flashOps s ch ops).egq = s.egq := rfl

@[simp] theorem State.flashOps_cmp (s : State) (ch : Nat) (ops : List Nat) : (State.flashOps s ch ops).cmp = s.cmp := rfl

@[simp] theorem State.flashOps_sec (s : State) (ch : Nat) (ops : List Nat) : (State.flashOps s ch ops).sec = s.sec := rfl

@[simp] theorem State.flashOps_rel (s : State) (ch : Nat) (ops : List Nat) : (State.flashOps s ch ops).rel = s.rel := rfl

@[simp] theorem State.flashOps_pwr (s : State) (ch : Nat) (ops : List Nat) : (State.flashOps s ch ops).pwr = s.pwr := rfl

@[simp] theorem State.flashOps_hif (s : State) (ch : Nat) (ops : List Nat) : (State.flashOps s ch ops).hif = s.hif := rfl

@[simp] theorem State.flashOps_pd (s : State) (ch : Nat) (ops : List Nat) : (State.flashOps s ch ops).pd = s.pd := rfl

@[simp] theorem State.flashOps_boot (s : State) (ch : Nat) (ops : List Nat) : (State.flashOps s ch ops).boot = s.boot := rfl

@[simp] theorem State.flashOps_mem (s : State) (ch : Nat) (ops : List Nat) : (State.flashOps s ch ops).mem = s.mem := rfl

@[simp] theorem State.flashOps_free (s : State) (ch : Nat) (ops : List Nat) : (State.flashOps s ch ops).free = s.free := rfl

@[simp] theorem State.flashOps_pending (s : State) (ch : Nat) (ops : List Nat) : (State.flashOps s ch ops).pending = s.pending := rfl

@[simp] theorem State.recallBad_timer (s : State) (id page : Nat) : (State.recallBad s id page).timer = s.timer := rfl

@[simp] theorem State.recallBad_phs (s : State) (id page : Nat) : (State.recallBad s id page).phs = s.phs := rfl

@[simp] theorem State.recallBad_sch (s : State) (id page : Nat) : (State.recallBad s id page).sch = s.sch := rfl

@[simp] theorem State.recallBad_pg (s : State) (id page : Nat) : (State.recallBad s id page).pg = s.pg := rfl

@[simp] theorem State.recallBad_rq (s : State) (id page : Nat) : (State.recallBad s id page).rq = s.rq := rfl

@[simp] theorem State.recallBad_hbm (s : State) (id page : Nat) : (State.recallBad s id page).hbm = s.hbm := rfl

@[simp] theorem State.recallBad_lnk (s : State) (id page : Nat) : (State.recallBad s id page).lnk = s.lnk := rfl

@[simp] theorem State.recallBad_rmo (s : State) (id page : Nat) : (State.recallBad s id page).rmo = s.rmo := rfl

@[simp] theorem State.recallBad_egq (s : State) (id page : Nat) : (State.recallBad s id page).egq = s.egq := rfl

@[simp] theorem State.recallBad_cmp (s : State) (id page : Nat) : (State.recallBad s id page).cmp = s.cmp := rfl

@[simp] theorem State.recallBad_sec (s : State) (id page : Nat) : (State.recallBad s id page).sec = s.sec := rfl

@[simp] theorem State.recallBad_rel (s : State) (id page : Nat) : (State.recallBad s id page).rel = s.rel := rfl

@[simp] theorem State.recallBad_pwr (s : State) (id page : Nat) : (State.recallBad s id page).pwr = s.pwr := rfl

@[simp] theorem State.recallBad_hif (s : State) (id page : Nat) : (State.recallBad s id page).hif = s.hif := rfl

@[simp] theorem State.recallBad_pd (s : State) (id page : Nat) : (State.recallBad s id page).pd = s.pd := rfl

@[simp] theorem State.recallBad_boot (s : State) (id page : Nat) : (State.recallBad s id page).boot = s.boot := rfl

@[simp] theorem State.recallBad_mem (s : State) (id page : Nat) : (State.recallBad s id page).mem = s.mem := rfl

@[simp] theorem State.recallBad_out (s : State) (id page : Nat) : (State.recallBad s id page).out = s.out := rfl

@[simp] theorem State.recallBad_free (s : State) (id page : Nat) : (State.recallBad s id page).free = s.free := rfl

@[simp] theorem State.recallBad_pending (s : State) (id page : Nat) : (State.recallBad s id page).pending = s.pending := rfl

@[simp] theorem State.setMargin_timer (s : State) (c : Nat) (m : Margin) : (State.setMargin s c m).timer = s.timer := rfl

@[simp] theorem State.setMargin_phs (s : State) (c : Nat) (m : Margin) : (State.setMargin s c m).phs = s.phs := rfl

@[simp] theorem State.setMargin_sch (s : State) (c : Nat) (m : Margin) : (State.setMargin s c m).sch = s.sch := rfl

@[simp] theorem State.setMargin_pg (s : State) (c : Nat) (m : Margin) : (State.setMargin s c m).pg = s.pg := rfl

@[simp] theorem State.setMargin_hbm (s : State) (c : Nat) (m : Margin) : (State.setMargin s c m).hbm = s.hbm := rfl

@[simp] theorem State.setMargin_tier (s : State) (c : Nat) (m : Margin) : (State.setMargin s c m).tier = s.tier := rfl

@[simp] theorem State.setMargin_lnk (s : State) (c : Nat) (m : Margin) : (State.setMargin s c m).lnk = s.lnk := rfl

@[simp] theorem State.setMargin_rmo (s : State) (c : Nat) (m : Margin) : (State.setMargin s c m).rmo = s.rmo := rfl

@[simp] theorem State.setMargin_egq (s : State) (c : Nat) (m : Margin) : (State.setMargin s c m).egq = s.egq := rfl

@[simp] theorem State.setMargin_cmp (s : State) (c : Nat) (m : Margin) : (State.setMargin s c m).cmp = s.cmp := rfl

@[simp] theorem State.setMargin_sec (s : State) (c : Nat) (m : Margin) : (State.setMargin s c m).sec = s.sec := rfl

@[simp] theorem State.setMargin_rel (s : State) (c : Nat) (m : Margin) : (State.setMargin s c m).rel = s.rel := rfl

@[simp] theorem State.setMargin_pwr (s : State) (c : Nat) (m : Margin) : (State.setMargin s c m).pwr = s.pwr := rfl

@[simp] theorem State.setMargin_hif (s : State) (c : Nat) (m : Margin) : (State.setMargin s c m).hif = s.hif := rfl

@[simp] theorem State.setMargin_pd (s : State) (c : Nat) (m : Margin) : (State.setMargin s c m).pd = s.pd := rfl

@[simp] theorem State.setMargin_boot (s : State) (c : Nat) (m : Margin) : (State.setMargin s c m).boot = s.boot := rfl

@[simp] theorem State.setMargin_mem (s : State) (c : Nat) (m : Margin) : (State.setMargin s c m).mem = s.mem := rfl

@[simp] theorem State.setMargin_out (s : State) (c : Nat) (m : Margin) : (State.setMargin s c m).out = s.out := rfl

@[simp] theorem State.setMargin_free (s : State) (c : Nat) (m : Margin) : (State.setMargin s c m).free = s.free := rfl

@[simp] theorem State.setMargin_pending (s : State) (c : Nat) (m : Margin) : (State.setMargin s c m).pending = s.pending := rfl

@[simp] theorem State.marginReplay_timer (s : State) : (State.marginReplay s).timer = s.timer := rfl

@[simp] theorem State.marginReplay_phs (s : State) : (State.marginReplay s).phs = s.phs := rfl

@[simp] theorem State.marginReplay_sch (s : State) : (State.marginReplay s).sch = s.sch := rfl

@[simp] theorem State.marginReplay_pg (s : State) : (State.marginReplay s).pg = s.pg := rfl

@[simp] theorem State.marginReplay_hbm (s : State) : (State.marginReplay s).hbm = s.hbm := rfl

@[simp] theorem State.marginReplay_tier (s : State) : (State.marginReplay s).tier = s.tier := rfl

@[simp] theorem State.marginReplay_lnk (s : State) : (State.marginReplay s).lnk = s.lnk := rfl

@[simp] theorem State.marginReplay_rmo (s : State) : (State.marginReplay s).rmo = s.rmo := rfl

@[simp] theorem State.marginReplay_egq (s : State) : (State.marginReplay s).egq = s.egq := rfl

@[simp] theorem State.marginReplay_cmp (s : State) : (State.marginReplay s).cmp = s.cmp := rfl

@[simp] theorem State.marginReplay_sec (s : State) : (State.marginReplay s).sec = s.sec := rfl

@[simp] theorem State.marginReplay_rel (s : State) : (State.marginReplay s).rel = s.rel := rfl

@[simp] theorem State.marginReplay_pwr (s : State) : (State.marginReplay s).pwr = s.pwr := rfl

@[simp] theorem State.marginReplay_hif (s : State) : (State.marginReplay s).hif = s.hif := rfl

@[simp] theorem State.marginReplay_pd (s : State) : (State.marginReplay s).pd = s.pd := rfl

@[simp] theorem State.marginReplay_boot (s : State) : (State.marginReplay s).boot = s.boot := rfl

@[simp] theorem State.marginReplay_mem (s : State) : (State.marginReplay s).mem = s.mem := rfl

@[simp] theorem State.marginReplay_out (s : State) : (State.marginReplay s).out = s.out := rfl

@[simp] theorem State.marginReplay_free (s : State) : (State.marginReplay s).free = s.free := rfl

@[simp] theorem State.marginReplay_pending (s : State) : (State.marginReplay s).pending = s.pending := rfl

@[simp] theorem State.setCorpus_timer (s : State) (job ctx : Nat) (f : Corpus → Corpus) : (State.setCorpus s job ctx f).timer = s.timer := rfl

@[simp] theorem State.setCorpus_phs (s : State) (job ctx : Nat) (f : Corpus → Corpus) : (State.setCorpus s job ctx f).phs = s.phs := rfl

@[simp] theorem State.setCorpus_sch (s : State) (job ctx : Nat) (f : Corpus → Corpus) : (State.setCorpus s job ctx f).sch = s.sch := rfl

@[simp] theorem State.setCorpus_pg (s : State) (job ctx : Nat) (f : Corpus → Corpus) : (State.setCorpus s job ctx f).pg = s.pg := rfl

@[simp] theorem State.setCorpus_hbm (s : State) (job ctx : Nat) (f : Corpus → Corpus) : (State.setCorpus s job ctx f).hbm = s.hbm := rfl

@[simp] theorem State.setCorpus_tier (s : State) (job ctx : Nat) (f : Corpus → Corpus) : (State.setCorpus s job ctx f).tier = s.tier := rfl

@[simp] theorem State.setCorpus_lnk (s : State) (job ctx : Nat) (f : Corpus → Corpus) : (State.setCorpus s job ctx f).lnk = s.lnk := rfl

@[simp] theorem State.setCorpus_rmo (s : State) (job ctx : Nat) (f : Corpus → Corpus) : (State.setCorpus s job ctx f).rmo = s.rmo := rfl

@[simp] theorem State.setCorpus_egq (s : State) (job ctx : Nat) (f : Corpus → Corpus) : (State.setCorpus s job ctx f).egq = s.egq := rfl

@[simp] theorem State.setCorpus_cmp (s : State) (job ctx : Nat) (f : Corpus → Corpus) : (State.setCorpus s job ctx f).cmp = s.cmp := rfl

@[simp] theorem State.setCorpus_sec (s : State) (job ctx : Nat) (f : Corpus → Corpus) : (State.setCorpus s job ctx f).sec = s.sec := rfl

@[simp] theorem State.setCorpus_rel (s : State) (job ctx : Nat) (f : Corpus → Corpus) : (State.setCorpus s job ctx f).rel = s.rel := rfl

@[simp] theorem State.setCorpus_pwr (s : State) (job ctx : Nat) (f : Corpus → Corpus) : (State.setCorpus s job ctx f).pwr = s.pwr := rfl

@[simp] theorem State.setCorpus_hif (s : State) (job ctx : Nat) (f : Corpus → Corpus) : (State.setCorpus s job ctx f).hif = s.hif := rfl

@[simp] theorem State.setCorpus_pd (s : State) (job ctx : Nat) (f : Corpus → Corpus) : (State.setCorpus s job ctx f).pd = s.pd := rfl

@[simp] theorem State.setCorpus_boot (s : State) (job ctx : Nat) (f : Corpus → Corpus) : (State.setCorpus s job ctx f).boot = s.boot := rfl

@[simp] theorem State.setCorpus_mem (s : State) (job ctx : Nat) (f : Corpus → Corpus) : (State.setCorpus s job ctx f).mem = s.mem := rfl

@[simp] theorem State.setCorpus_out (s : State) (job ctx : Nat) (f : Corpus → Corpus) : (State.setCorpus s job ctx f).out = s.out := rfl

@[simp] theorem State.setCorpus_free (s : State) (job ctx : Nat) (f : Corpus → Corpus) : (State.setCorpus s job ctx f).free = s.free := rfl

@[simp] theorem State.setCorpus_pending (s : State) (job ctx : Nat) (f : Corpus → Corpus) : (State.setCorpus s job ctx f).pending = s.pending := rfl

@[simp] theorem State.setSearch_timer (s : State) (id : Nat) (f : Search → Search) : (State.setSearch s id f).timer = s.timer := rfl

@[simp] theorem State.setSearch_phs (s : State) (id : Nat) (f : Search → Search) : (State.setSearch s id f).phs = s.phs := rfl

@[simp] theorem State.setSearch_sch (s : State) (id : Nat) (f : Search → Search) : (State.setSearch s id f).sch = s.sch := rfl

@[simp] theorem State.setSearch_pg (s : State) (id : Nat) (f : Search → Search) : (State.setSearch s id f).pg = s.pg := rfl

@[simp] theorem State.setSearch_hbm (s : State) (id : Nat) (f : Search → Search) : (State.setSearch s id f).hbm = s.hbm := rfl

@[simp] theorem State.setSearch_tier (s : State) (id : Nat) (f : Search → Search) : (State.setSearch s id f).tier = s.tier := rfl

@[simp] theorem State.setSearch_lnk (s : State) (id : Nat) (f : Search → Search) : (State.setSearch s id f).lnk = s.lnk := rfl

@[simp] theorem State.setSearch_rmo (s : State) (id : Nat) (f : Search → Search) : (State.setSearch s id f).rmo = s.rmo := rfl

@[simp] theorem State.setSearch_egq (s : State) (id : Nat) (f : Search → Search) : (State.setSearch s id f).egq = s.egq := rfl

@[simp] theorem State.setSearch_cmp (s : State) (id : Nat) (f : Search → Search) : (State.setSearch s id f).cmp = s.cmp := rfl

@[simp] theorem State.setSearch_sec (s : State) (id : Nat) (f : Search → Search) : (State.setSearch s id f).sec = s.sec := rfl

@[simp] theorem State.setSearch_rel (s : State) (id : Nat) (f : Search → Search) : (State.setSearch s id f).rel = s.rel := rfl

@[simp] theorem State.setSearch_pwr (s : State) (id : Nat) (f : Search → Search) : (State.setSearch s id f).pwr = s.pwr := rfl

@[simp] theorem State.setSearch_hif (s : State) (id : Nat) (f : Search → Search) : (State.setSearch s id f).hif = s.hif := rfl

@[simp] theorem State.setSearch_pd (s : State) (id : Nat) (f : Search → Search) : (State.setSearch s id f).pd = s.pd := rfl

@[simp] theorem State.setSearch_boot (s : State) (id : Nat) (f : Search → Search) : (State.setSearch s id f).boot = s.boot := rfl

@[simp] theorem State.setSearch_mem (s : State) (id : Nat) (f : Search → Search) : (State.setSearch s id f).mem = s.mem := rfl

@[simp] theorem State.setSearch_out (s : State) (id : Nat) (f : Search → Search) : (State.setSearch s id f).out = s.out := rfl

@[simp] theorem State.setSearch_free (s : State) (id : Nat) (f : Search → Search) : (State.setSearch s id f).free = s.free := rfl

@[simp] theorem State.setSearch_pending (s : State) (id : Nat) (f : Search → Search) : (State.setSearch s id f).pending = s.pending := rfl

@[simp] theorem State.setDma_timer (s : State) (ch : Nat) (d : Dma) : (State.setDma s ch d).timer = s.timer := rfl

@[simp] theorem State.setDma_phs (s : State) (ch : Nat) (d : Dma) : (State.setDma s ch d).phs = s.phs := rfl

@[simp] theorem State.setDma_sch (s : State) (ch : Nat) (d : Dma) : (State.setDma s ch d).sch = s.sch := rfl

@[simp] theorem State.setDma_pg (s : State) (ch : Nat) (d : Dma) : (State.setDma s ch d).pg = s.pg := rfl

@[simp] theorem State.setDma_rq (s : State) (ch : Nat) (d : Dma) : (State.setDma s ch d).rq = s.rq := rfl

@[simp] theorem State.setDma_hbm (s : State) (ch : Nat) (d : Dma) : (State.setDma s ch d).hbm = s.hbm := rfl

@[simp] theorem State.setDma_tier (s : State) (ch : Nat) (d : Dma) : (State.setDma s ch d).tier = s.tier := rfl

@[simp] theorem State.setDma_lnk (s : State) (ch : Nat) (d : Dma) : (State.setDma s ch d).lnk = s.lnk := rfl

@[simp] theorem State.setDma_rmo (s : State) (ch : Nat) (d : Dma) : (State.setDma s ch d).rmo = s.rmo := rfl

@[simp] theorem State.setDma_cmp (s : State) (ch : Nat) (d : Dma) : (State.setDma s ch d).cmp = s.cmp := rfl

@[simp] theorem State.setDma_sec (s : State) (ch : Nat) (d : Dma) : (State.setDma s ch d).sec = s.sec := rfl

@[simp] theorem State.setDma_rel (s : State) (ch : Nat) (d : Dma) : (State.setDma s ch d).rel = s.rel := rfl

@[simp] theorem State.setDma_pwr (s : State) (ch : Nat) (d : Dma) : (State.setDma s ch d).pwr = s.pwr := rfl

@[simp] theorem State.setDma_hif (s : State) (ch : Nat) (d : Dma) : (State.setDma s ch d).hif = s.hif := rfl

@[simp] theorem State.setDma_pd (s : State) (ch : Nat) (d : Dma) : (State.setDma s ch d).pd = s.pd := rfl

@[simp] theorem State.setDma_boot (s : State) (ch : Nat) (d : Dma) : (State.setDma s ch d).boot = s.boot := rfl

@[simp] theorem State.setDma_mem (s : State) (ch : Nat) (d : Dma) : (State.setDma s ch d).mem = s.mem := rfl

@[simp] theorem State.setDma_out (s : State) (ch : Nat) (d : Dma) : (State.setDma s ch d).out = s.out := rfl

@[simp] theorem State.setDma_free (s : State) (ch : Nat) (d : Dma) : (State.setDma s ch d).free = s.free := rfl

@[simp] theorem State.setDma_pending (s : State) (ch : Nat) (d : Dma) : (State.setDma s ch d).pending = s.pending := rfl

@[simp] theorem State.setChunk_timer (s : State) (k : Chunk) : (State.setChunk s k).timer = s.timer := rfl

@[simp] theorem State.setChunk_phs (s : State) (k : Chunk) : (State.setChunk s k).phs = s.phs := rfl

@[simp] theorem State.setChunk_sch (s : State) (k : Chunk) : (State.setChunk s k).sch = s.sch := rfl

@[simp] theorem State.setChunk_pg (s : State) (k : Chunk) : (State.setChunk s k).pg = s.pg := rfl

@[simp] theorem State.setChunk_rq (s : State) (k : Chunk) : (State.setChunk s k).rq = s.rq := rfl

@[simp] theorem State.setChunk_hbm (s : State) (k : Chunk) : (State.setChunk s k).hbm = s.hbm := rfl

@[simp] theorem State.setChunk_lnk (s : State) (k : Chunk) : (State.setChunk s k).lnk = s.lnk := rfl

@[simp] theorem State.setChunk_rmo (s : State) (k : Chunk) : (State.setChunk s k).rmo = s.rmo := rfl

@[simp] theorem State.setChunk_egq (s : State) (k : Chunk) : (State.setChunk s k).egq = s.egq := rfl

@[simp] theorem State.setChunk_cmp (s : State) (k : Chunk) : (State.setChunk s k).cmp = s.cmp := rfl

@[simp] theorem State.setChunk_sec (s : State) (k : Chunk) : (State.setChunk s k).sec = s.sec := rfl

@[simp] theorem State.setChunk_rel (s : State) (k : Chunk) : (State.setChunk s k).rel = s.rel := rfl

@[simp] theorem State.setChunk_pwr (s : State) (k : Chunk) : (State.setChunk s k).pwr = s.pwr := rfl

@[simp] theorem State.setChunk_hif (s : State) (k : Chunk) : (State.setChunk s k).hif = s.hif := rfl

@[simp] theorem State.setChunk_pd (s : State) (k : Chunk) : (State.setChunk s k).pd = s.pd := rfl

@[simp] theorem State.setChunk_boot (s : State) (k : Chunk) : (State.setChunk s k).boot = s.boot := rfl

@[simp] theorem State.setChunk_mem (s : State) (k : Chunk) : (State.setChunk s k).mem = s.mem := rfl

@[simp] theorem State.setChunk_out (s : State) (k : Chunk) : (State.setChunk s k).out = s.out := rfl

@[simp] theorem State.setChunk_free (s : State) (k : Chunk) : (State.setChunk s k).free = s.free := rfl

@[simp] theorem State.setChunk_pending (s : State) (k : Chunk) : (State.setChunk s k).pending = s.pending := rfl

@[simp] theorem State.refuseCommit_timer (s : State) (check comp : Nat) (st : Status) : (State.refuseCommit s check comp st).timer = s.timer := rfl

@[simp] theorem State.refuseCommit_phs (s : State) (check comp : Nat) (st : Status) : (State.refuseCommit s check comp st).phs = s.phs := rfl

@[simp] theorem State.refuseCommit_sch (s : State) (check comp : Nat) (st : Status) : (State.refuseCommit s check comp st).sch = s.sch := rfl

@[simp] theorem State.refuseCommit_pg (s : State) (check comp : Nat) (st : Status) : (State.refuseCommit s check comp st).pg = s.pg := rfl

@[simp] theorem State.refuseCommit_rq (s : State) (check comp : Nat) (st : Status) : (State.refuseCommit s check comp st).rq = s.rq := rfl

@[simp] theorem State.refuseCommit_hbm (s : State) (check comp : Nat) (st : Status) : (State.refuseCommit s check comp st).hbm = s.hbm := rfl

@[simp] theorem State.refuseCommit_tier (s : State) (check comp : Nat) (st : Status) : (State.refuseCommit s check comp st).tier = s.tier := rfl

@[simp] theorem State.refuseCommit_lnk (s : State) (check comp : Nat) (st : Status) : (State.refuseCommit s check comp st).lnk = s.lnk := rfl

@[simp] theorem State.refuseCommit_rmo (s : State) (check comp : Nat) (st : Status) : (State.refuseCommit s check comp st).rmo = s.rmo := rfl

@[simp] theorem State.refuseCommit_egq (s : State) (check comp : Nat) (st : Status) : (State.refuseCommit s check comp st).egq = s.egq := rfl

@[simp] theorem State.refuseCommit_sec (s : State) (check comp : Nat) (st : Status) : (State.refuseCommit s check comp st).sec = s.sec := rfl

@[simp] theorem State.refuseCommit_rel (s : State) (check comp : Nat) (st : Status) : (State.refuseCommit s check comp st).rel = s.rel := rfl

@[simp] theorem State.refuseCommit_pwr (s : State) (check comp : Nat) (st : Status) : (State.refuseCommit s check comp st).pwr = s.pwr := rfl

@[simp] theorem State.refuseCommit_hif (s : State) (check comp : Nat) (st : Status) : (State.refuseCommit s check comp st).hif = s.hif := rfl

@[simp] theorem State.refuseCommit_pd (s : State) (check comp : Nat) (st : Status) : (State.refuseCommit s check comp st).pd = s.pd := rfl

@[simp] theorem State.refuseCommit_boot (s : State) (check comp : Nat) (st : Status) : (State.refuseCommit s check comp st).boot = s.boot := rfl

@[simp] theorem State.refuseCommit_mem (s : State) (check comp : Nat) (st : Status) : (State.refuseCommit s check comp st).mem = s.mem := rfl

@[simp] theorem State.refuseCommit_out (s : State) (check comp : Nat) (st : Status) : (State.refuseCommit s check comp st).out = s.out := rfl

@[simp] theorem State.refuseCommit_free (s : State) (check comp : Nat) (st : Status) : (State.refuseCommit s check comp st).free = s.free := rfl

@[simp] theorem State.refuseCommit_pending (s : State) (check comp : Nat) (st : Status) : (State.refuseCommit s check comp st).pending = s.pending := rfl

@[simp] theorem State.noteReloc_timer (s : State) (c n : Nat) : (State.noteReloc s c n).timer = s.timer := rfl

@[simp] theorem State.noteReloc_phs (s : State) (c n : Nat) : (State.noteReloc s c n).phs = s.phs := rfl

@[simp] theorem State.noteReloc_sch (s : State) (c n : Nat) : (State.noteReloc s c n).sch = s.sch := rfl

@[simp] theorem State.noteReloc_pg (s : State) (c n : Nat) : (State.noteReloc s c n).pg = s.pg := rfl

@[simp] theorem State.noteReloc_rq (s : State) (c n : Nat) : (State.noteReloc s c n).rq = s.rq := rfl

@[simp] theorem State.noteReloc_hbm (s : State) (c n : Nat) : (State.noteReloc s c n).hbm = s.hbm := rfl

@[simp] theorem State.noteReloc_tier (s : State) (c n : Nat) : (State.noteReloc s c n).tier = s.tier := rfl

@[simp] theorem State.noteReloc_lnk (s : State) (c n : Nat) : (State.noteReloc s c n).lnk = s.lnk := rfl

@[simp] theorem State.noteReloc_rmo (s : State) (c n : Nat) : (State.noteReloc s c n).rmo = s.rmo := rfl

@[simp] theorem State.noteReloc_egq (s : State) (c n : Nat) : (State.noteReloc s c n).egq = s.egq := rfl

@[simp] theorem State.noteReloc_sec (s : State) (c n : Nat) : (State.noteReloc s c n).sec = s.sec := rfl

@[simp] theorem State.noteReloc_rel (s : State) (c n : Nat) : (State.noteReloc s c n).rel = s.rel := rfl

@[simp] theorem State.noteReloc_pwr (s : State) (c n : Nat) : (State.noteReloc s c n).pwr = s.pwr := rfl

@[simp] theorem State.noteReloc_hif (s : State) (c n : Nat) : (State.noteReloc s c n).hif = s.hif := rfl

@[simp] theorem State.noteReloc_pd (s : State) (c n : Nat) : (State.noteReloc s c n).pd = s.pd := rfl

@[simp] theorem State.noteReloc_boot (s : State) (c n : Nat) : (State.noteReloc s c n).boot = s.boot := rfl

@[simp] theorem State.noteReloc_mem (s : State) (c n : Nat) : (State.noteReloc s c n).mem = s.mem := rfl

@[simp] theorem State.noteReloc_out (s : State) (c n : Nat) : (State.noteReloc s c n).out = s.out := rfl

@[simp] theorem State.noteReloc_free (s : State) (c n : Nat) : (State.noteReloc s c n).free = s.free := rfl

@[simp] theorem State.noteReloc_pending (s : State) (c n : Nat) : (State.noteReloc s c n).pending = s.pending := rfl

@[simp] theorem State.clearModels_timer (s : State) (c : Nat) : (State.clearModels s c).timer = s.timer := rfl

@[simp] theorem State.clearModels_phs (s : State) (c : Nat) : (State.clearModels s c).phs = s.phs := rfl

@[simp] theorem State.clearModels_sch (s : State) (c : Nat) : (State.clearModels s c).sch = s.sch := rfl

@[simp] theorem State.clearModels_pg (s : State) (c : Nat) : (State.clearModels s c).pg = s.pg := rfl

@[simp] theorem State.clearModels_rq (s : State) (c : Nat) : (State.clearModels s c).rq = s.rq := rfl

@[simp] theorem State.clearModels_hbm (s : State) (c : Nat) : (State.clearModels s c).hbm = s.hbm := rfl

@[simp] theorem State.clearModels_tier (s : State) (c : Nat) : (State.clearModels s c).tier = s.tier := rfl

@[simp] theorem State.clearModels_lnk (s : State) (c : Nat) : (State.clearModels s c).lnk = s.lnk := rfl

@[simp] theorem State.clearModels_rmo (s : State) (c : Nat) : (State.clearModels s c).rmo = s.rmo := rfl

@[simp] theorem State.clearModels_egq (s : State) (c : Nat) : (State.clearModels s c).egq = s.egq := rfl

@[simp] theorem State.clearModels_cmp (s : State) (c : Nat) : (State.clearModels s c).cmp = s.cmp := rfl

@[simp] theorem State.clearModels_rel (s : State) (c : Nat) : (State.clearModels s c).rel = s.rel := rfl

@[simp] theorem State.clearModels_pwr (s : State) (c : Nat) : (State.clearModels s c).pwr = s.pwr := rfl

@[simp] theorem State.clearModels_hif (s : State) (c : Nat) : (State.clearModels s c).hif = s.hif := rfl

@[simp] theorem State.clearModels_pd (s : State) (c : Nat) : (State.clearModels s c).pd = s.pd := rfl

@[simp] theorem State.clearModels_boot (s : State) (c : Nat) : (State.clearModels s c).boot = s.boot := rfl

@[simp] theorem State.clearModels_mem (s : State) (c : Nat) : (State.clearModels s c).mem = s.mem := rfl

@[simp] theorem State.clearModels_out (s : State) (c : Nat) : (State.clearModels s c).out = s.out := rfl

@[simp] theorem State.clearModels_free (s : State) (c : Nat) : (State.clearModels s c).free = s.free := rfl

@[simp] theorem State.clearModels_pending (s : State) (c : Nat) : (State.clearModels s c).pending = s.pending := rfl

@[simp] theorem State.rekeyed_timer (s : State) (job : Nat) : (State.rekeyed s job).timer = s.timer := rfl

@[simp] theorem State.rekeyed_phs (s : State) (job : Nat) : (State.rekeyed s job).phs = s.phs := rfl

@[simp] theorem State.rekeyed_sch (s : State) (job : Nat) : (State.rekeyed s job).sch = s.sch := rfl

@[simp] theorem State.rekeyed_pg (s : State) (job : Nat) : (State.rekeyed s job).pg = s.pg := rfl

@[simp] theorem State.rekeyed_rq (s : State) (job : Nat) : (State.rekeyed s job).rq = s.rq := rfl

@[simp] theorem State.rekeyed_hbm (s : State) (job : Nat) : (State.rekeyed s job).hbm = s.hbm := rfl

@[simp] theorem State.rekeyed_tier (s : State) (job : Nat) : (State.rekeyed s job).tier = s.tier := rfl

@[simp] theorem State.rekeyed_lnk (s : State) (job : Nat) : (State.rekeyed s job).lnk = s.lnk := rfl

@[simp] theorem State.rekeyed_egq (s : State) (job : Nat) : (State.rekeyed s job).egq = s.egq := rfl

@[simp] theorem State.rekeyed_cmp (s : State) (job : Nat) : (State.rekeyed s job).cmp = s.cmp := rfl

@[simp] theorem State.rekeyed_sec (s : State) (job : Nat) : (State.rekeyed s job).sec = s.sec := rfl

@[simp] theorem State.rekeyed_rel (s : State) (job : Nat) : (State.rekeyed s job).rel = s.rel := rfl

@[simp] theorem State.rekeyed_pwr (s : State) (job : Nat) : (State.rekeyed s job).pwr = s.pwr := rfl

@[simp] theorem State.rekeyed_hif (s : State) (job : Nat) : (State.rekeyed s job).hif = s.hif := rfl

@[simp] theorem State.rekeyed_pd (s : State) (job : Nat) : (State.rekeyed s job).pd = s.pd := rfl

@[simp] theorem State.rekeyed_boot (s : State) (job : Nat) : (State.rekeyed s job).boot = s.boot := rfl

@[simp] theorem State.rekeyed_mem (s : State) (job : Nat) : (State.rekeyed s job).mem = s.mem := rfl

@[simp] theorem State.rekeyed_out (s : State) (job : Nat) : (State.rekeyed s job).out = s.out := rfl

@[simp] theorem State.rekeyed_free (s : State) (job : Nat) : (State.rekeyed s job).free = s.free := rfl

@[simp] theorem State.rekeyed_pending (s : State) (job : Nat) : (State.rekeyed s job).pending = s.pending := rfl

@[simp] theorem State.gwDone_timer (s : State) (g : Segment) : (State.gwDone s g).timer = s.timer := rfl

@[simp] theorem State.gwDone_phs (s : State) (g : Segment) : (State.gwDone s g).phs = s.phs := rfl

@[simp] theorem State.gwDone_sch (s : State) (g : Segment) : (State.gwDone s g).sch = s.sch := rfl

@[simp] theorem State.gwDone_pg (s : State) (g : Segment) : (State.gwDone s g).pg = s.pg := rfl

@[simp] theorem State.gwDone_rq (s : State) (g : Segment) : (State.gwDone s g).rq = s.rq := rfl

@[simp] theorem State.gwDone_hbm (s : State) (g : Segment) : (State.gwDone s g).hbm = s.hbm := rfl

@[simp] theorem State.gwDone_tier (s : State) (g : Segment) : (State.gwDone s g).tier = s.tier := rfl

@[simp] theorem State.gwDone_lnk (s : State) (g : Segment) : (State.gwDone s g).lnk = s.lnk := rfl

@[simp] theorem State.gwDone_egq (s : State) (g : Segment) : (State.gwDone s g).egq = s.egq := rfl

@[simp] theorem State.gwDone_cmp (s : State) (g : Segment) : (State.gwDone s g).cmp = s.cmp := rfl

@[simp] theorem State.gwDone_sec (s : State) (g : Segment) : (State.gwDone s g).sec = s.sec := rfl

@[simp] theorem State.gwDone_rel (s : State) (g : Segment) : (State.gwDone s g).rel = s.rel := rfl

@[simp] theorem State.gwDone_pwr (s : State) (g : Segment) : (State.gwDone s g).pwr = s.pwr := rfl

@[simp] theorem State.gwDone_hif (s : State) (g : Segment) : (State.gwDone s g).hif = s.hif := rfl

@[simp] theorem State.gwDone_pd (s : State) (g : Segment) : (State.gwDone s g).pd = s.pd := rfl

@[simp] theorem State.gwDone_boot (s : State) (g : Segment) : (State.gwDone s g).boot = s.boot := rfl

@[simp] theorem State.gwDone_mem (s : State) (g : Segment) : (State.gwDone s g).mem = s.mem := rfl

@[simp] theorem State.gwDone_out (s : State) (g : Segment) : (State.gwDone s g).out = s.out := rfl

@[simp] theorem State.gwDone_free (s : State) (g : Segment) : (State.gwDone s g).free = s.free := rfl

@[simp] theorem State.gwDone_pending (s : State) (g : Segment) : (State.gwDone s g).pending = s.pending := rfl

@[simp] theorem State.setRslot_timer (s : State) (r : RSlot) : (State.setRslot s r).timer = s.timer := rfl

@[simp] theorem State.setRslot_phs (s : State) (r : RSlot) : (State.setRslot s r).phs = s.phs := rfl

@[simp] theorem State.setRslot_sch (s : State) (r : RSlot) : (State.setRslot s r).sch = s.sch := rfl

@[simp] theorem State.setRslot_pg (s : State) (r : RSlot) : (State.setRslot s r).pg = s.pg := rfl

@[simp] theorem State.setRslot_rq (s : State) (r : RSlot) : (State.setRslot s r).rq = s.rq := rfl

@[simp] theorem State.setRslot_hbm (s : State) (r : RSlot) : (State.setRslot s r).hbm = s.hbm := rfl

@[simp] theorem State.setRslot_tier (s : State) (r : RSlot) : (State.setRslot s r).tier = s.tier := rfl

@[simp] theorem State.setRslot_lnk (s : State) (r : RSlot) : (State.setRslot s r).lnk = s.lnk := rfl

@[simp] theorem State.setRslot_rmo (s : State) (r : RSlot) : (State.setRslot s r).rmo = s.rmo := rfl

@[simp] theorem State.setRslot_egq (s : State) (r : RSlot) : (State.setRslot s r).egq = s.egq := rfl

@[simp] theorem State.setRslot_cmp (s : State) (r : RSlot) : (State.setRslot s r).cmp = s.cmp := rfl

@[simp] theorem State.setRslot_sec (s : State) (r : RSlot) : (State.setRslot s r).sec = s.sec := rfl

@[simp] theorem State.setRslot_pwr (s : State) (r : RSlot) : (State.setRslot s r).pwr = s.pwr := rfl

@[simp] theorem State.setRslot_hif (s : State) (r : RSlot) : (State.setRslot s r).hif = s.hif := rfl

@[simp] theorem State.setRslot_pd (s : State) (r : RSlot) : (State.setRslot s r).pd = s.pd := rfl

@[simp] theorem State.setRslot_boot (s : State) (r : RSlot) : (State.setRslot s r).boot = s.boot := rfl

@[simp] theorem State.setRslot_mem (s : State) (r : RSlot) : (State.setRslot s r).mem = s.mem := rfl

@[simp] theorem State.setRslot_out (s : State) (r : RSlot) : (State.setRslot s r).out = s.out := rfl

@[simp] theorem State.setRslot_free (s : State) (r : RSlot) : (State.setRslot s r).free = s.free := rfl

@[simp] theorem State.setRslot_pending (s : State) (r : RSlot) : (State.setRslot s r).pending = s.pending := rfl

@[simp] theorem State.freeRslot_timer (s : State) (c slot : Nat) : (State.freeRslot s c slot).timer = s.timer := rfl

@[simp] theorem State.freeRslot_phs (s : State) (c slot : Nat) : (State.freeRslot s c slot).phs = s.phs := rfl

@[simp] theorem State.freeRslot_sch (s : State) (c slot : Nat) : (State.freeRslot s c slot).sch = s.sch := rfl

@[simp] theorem State.freeRslot_pg (s : State) (c slot : Nat) : (State.freeRslot s c slot).pg = s.pg := rfl

@[simp] theorem State.freeRslot_rq (s : State) (c slot : Nat) : (State.freeRslot s c slot).rq = s.rq := rfl

@[simp] theorem State.freeRslot_hbm (s : State) (c slot : Nat) : (State.freeRslot s c slot).hbm = s.hbm := rfl

@[simp] theorem State.freeRslot_tier (s : State) (c slot : Nat) : (State.freeRslot s c slot).tier = s.tier := rfl

@[simp] theorem State.freeRslot_lnk (s : State) (c slot : Nat) : (State.freeRslot s c slot).lnk = s.lnk := rfl

@[simp] theorem State.freeRslot_rmo (s : State) (c slot : Nat) : (State.freeRslot s c slot).rmo = s.rmo := rfl

@[simp] theorem State.freeRslot_egq (s : State) (c slot : Nat) : (State.freeRslot s c slot).egq = s.egq := rfl

@[simp] theorem State.freeRslot_cmp (s : State) (c slot : Nat) : (State.freeRslot s c slot).cmp = s.cmp := rfl

@[simp] theorem State.freeRslot_sec (s : State) (c slot : Nat) : (State.freeRslot s c slot).sec = s.sec := rfl

@[simp] theorem State.freeRslot_pwr (s : State) (c slot : Nat) : (State.freeRslot s c slot).pwr = s.pwr := rfl

@[simp] theorem State.freeRslot_hif (s : State) (c slot : Nat) : (State.freeRslot s c slot).hif = s.hif := rfl

@[simp] theorem State.freeRslot_pd (s : State) (c slot : Nat) : (State.freeRslot s c slot).pd = s.pd := rfl

@[simp] theorem State.freeRslot_boot (s : State) (c slot : Nat) : (State.freeRslot s c slot).boot = s.boot := rfl

@[simp] theorem State.freeRslot_mem (s : State) (c slot : Nat) : (State.freeRslot s c slot).mem = s.mem := rfl

@[simp] theorem State.freeRslot_out (s : State) (c slot : Nat) : (State.freeRslot s c slot).out = s.out := rfl

@[simp] theorem State.freeRslot_free (s : State) (c slot : Nat) : (State.freeRslot s c slot).free = s.free := rfl

@[simp] theorem State.freeRslot_pending (s : State) (c slot : Nat) : (State.freeRslot s c slot).pending = s.pending := rfl

@[simp] theorem State.actsDone_timer (s : State) : (State.actsDone s).timer = s.timer := rfl

@[simp] theorem State.actsDone_phs (s : State) : (State.actsDone s).phs = s.phs := rfl

@[simp] theorem State.actsDone_sch (s : State) : (State.actsDone s).sch = s.sch := rfl

@[simp] theorem State.actsDone_pg (s : State) : (State.actsDone s).pg = s.pg := rfl

@[simp] theorem State.actsDone_rq (s : State) : (State.actsDone s).rq = s.rq := rfl

@[simp] theorem State.actsDone_hbm (s : State) : (State.actsDone s).hbm = s.hbm := rfl

@[simp] theorem State.actsDone_tier (s : State) : (State.actsDone s).tier = s.tier := rfl

@[simp] theorem State.actsDone_lnk (s : State) : (State.actsDone s).lnk = s.lnk := rfl

@[simp] theorem State.actsDone_rmo (s : State) : (State.actsDone s).rmo = s.rmo := rfl

@[simp] theorem State.actsDone_egq (s : State) : (State.actsDone s).egq = s.egq := rfl

@[simp] theorem State.actsDone_cmp (s : State) : (State.actsDone s).cmp = s.cmp := rfl

@[simp] theorem State.actsDone_sec (s : State) : (State.actsDone s).sec = s.sec := rfl

@[simp] theorem State.actsDone_pwr (s : State) : (State.actsDone s).pwr = s.pwr := rfl

@[simp] theorem State.actsDone_hif (s : State) : (State.actsDone s).hif = s.hif := rfl

@[simp] theorem State.actsDone_pd (s : State) : (State.actsDone s).pd = s.pd := rfl

@[simp] theorem State.actsDone_boot (s : State) : (State.actsDone s).boot = s.boot := rfl

@[simp] theorem State.actsDone_mem (s : State) : (State.actsDone s).mem = s.mem := rfl

@[simp] theorem State.actsDone_out (s : State) : (State.actsDone s).out = s.out := rfl

@[simp] theorem State.actsDone_free (s : State) : (State.actsDone s).free = s.free := rfl

@[simp] theorem State.actsDone_pending (s : State) : (State.actsDone s).pending = s.pending := rfl

@[simp] theorem State.dropGrants_timer (s : State) (slot : Nat) : (State.dropGrants s slot).timer = s.timer := rfl

@[simp] theorem State.dropGrants_phs (s : State) (slot : Nat) : (State.dropGrants s slot).phs = s.phs := rfl

@[simp] theorem State.dropGrants_sch (s : State) (slot : Nat) : (State.dropGrants s slot).sch = s.sch := rfl

@[simp] theorem State.dropGrants_pg (s : State) (slot : Nat) : (State.dropGrants s slot).pg = s.pg := rfl

@[simp] theorem State.dropGrants_hbm (s : State) (slot : Nat) : (State.dropGrants s slot).hbm = s.hbm := rfl

@[simp] theorem State.dropGrants_tier (s : State) (slot : Nat) : (State.dropGrants s slot).tier = s.tier := rfl

@[simp] theorem State.dropGrants_lnk (s : State) (slot : Nat) : (State.dropGrants s slot).lnk = s.lnk := rfl

@[simp] theorem State.dropGrants_rmo (s : State) (slot : Nat) : (State.dropGrants s slot).rmo = s.rmo := rfl

@[simp] theorem State.dropGrants_egq (s : State) (slot : Nat) : (State.dropGrants s slot).egq = s.egq := rfl

@[simp] theorem State.dropGrants_cmp (s : State) (slot : Nat) : (State.dropGrants s slot).cmp = s.cmp := rfl

@[simp] theorem State.dropGrants_sec (s : State) (slot : Nat) : (State.dropGrants s slot).sec = s.sec := rfl

@[simp] theorem State.dropGrants_rel (s : State) (slot : Nat) : (State.dropGrants s slot).rel = s.rel := rfl

@[simp] theorem State.dropGrants_pwr (s : State) (slot : Nat) : (State.dropGrants s slot).pwr = s.pwr := rfl

@[simp] theorem State.dropGrants_hif (s : State) (slot : Nat) : (State.dropGrants s slot).hif = s.hif := rfl

@[simp] theorem State.dropGrants_pd (s : State) (slot : Nat) : (State.dropGrants s slot).pd = s.pd := rfl

@[simp] theorem State.dropGrants_boot (s : State) (slot : Nat) : (State.dropGrants s slot).boot = s.boot := rfl

@[simp] theorem State.dropGrants_mem (s : State) (slot : Nat) : (State.dropGrants s slot).mem = s.mem := rfl

@[simp] theorem State.dropGrants_out (s : State) (slot : Nat) : (State.dropGrants s slot).out = s.out := rfl

@[simp] theorem State.dropGrants_free (s : State) (slot : Nat) : (State.dropGrants s slot).free = s.free := rfl

@[simp] theorem State.dropGrants_pending (s : State) (slot : Nat) : (State.dropGrants s slot).pending = s.pending := rfl

@[simp] theorem State.clampAll_timer (s : State) : (State.clampAll s).timer = s.timer := rfl

@[simp] theorem State.clampAll_phs (s : State) : (State.clampAll s).phs = s.phs := rfl

@[simp] theorem State.clampAll_pg (s : State) : (State.clampAll s).pg = s.pg := rfl

@[simp] theorem State.clampAll_rq (s : State) : (State.clampAll s).rq = s.rq := rfl

@[simp] theorem State.clampAll_hbm (s : State) : (State.clampAll s).hbm = s.hbm := rfl

@[simp] theorem State.clampAll_tier (s : State) : (State.clampAll s).tier = s.tier := rfl

@[simp] theorem State.clampAll_lnk (s : State) : (State.clampAll s).lnk = s.lnk := rfl

@[simp] theorem State.clampAll_rmo (s : State) : (State.clampAll s).rmo = s.rmo := rfl

@[simp] theorem State.clampAll_egq (s : State) : (State.clampAll s).egq = s.egq := rfl

@[simp] theorem State.clampAll_cmp (s : State) : (State.clampAll s).cmp = s.cmp := rfl

@[simp] theorem State.clampAll_sec (s : State) : (State.clampAll s).sec = s.sec := rfl

@[simp] theorem State.clampAll_rel (s : State) : (State.clampAll s).rel = s.rel := rfl

@[simp] theorem State.clampAll_pwr (s : State) : (State.clampAll s).pwr = s.pwr := rfl

@[simp] theorem State.clampAll_hif (s : State) : (State.clampAll s).hif = s.hif := rfl

@[simp] theorem State.clampAll_pd (s : State) : (State.clampAll s).pd = s.pd := rfl

@[simp] theorem State.clampAll_boot (s : State) : (State.clampAll s).boot = s.boot := rfl

@[simp] theorem State.clampAll_mem (s : State) : (State.clampAll s).mem = s.mem := rfl

@[simp] theorem State.clampAll_out (s : State) : (State.clampAll s).out = s.out := rfl

@[simp] theorem State.clampAll_free (s : State) : (State.clampAll s).free = s.free := rfl

@[simp] theorem State.clampAll_pending (s : State) : (State.clampAll s).pending = s.pending := rfl

@[simp] theorem State.markErr_timer (s : State) : (State.markErr s).timer = s.timer := rfl

@[simp] theorem State.markErr_phs (s : State) : (State.markErr s).phs = s.phs := rfl

@[simp] theorem State.markErr_sch (s : State) : (State.markErr s).sch = s.sch := rfl

@[simp] theorem State.markErr_pg (s : State) : (State.markErr s).pg = s.pg := rfl

@[simp] theorem State.markErr_rq (s : State) : (State.markErr s).rq = s.rq := rfl

@[simp] theorem State.markErr_hbm (s : State) : (State.markErr s).hbm = s.hbm := rfl

@[simp] theorem State.markErr_tier (s : State) : (State.markErr s).tier = s.tier := rfl

@[simp] theorem State.markErr_lnk (s : State) : (State.markErr s).lnk = s.lnk := rfl

@[simp] theorem State.markErr_rmo (s : State) : (State.markErr s).rmo = s.rmo := rfl

@[simp] theorem State.markErr_egq (s : State) : (State.markErr s).egq = s.egq := rfl

@[simp] theorem State.markErr_cmp (s : State) : (State.markErr s).cmp = s.cmp := rfl

@[simp] theorem State.markErr_sec (s : State) : (State.markErr s).sec = s.sec := rfl

@[simp] theorem State.markErr_rel (s : State) : (State.markErr s).rel = s.rel := rfl

@[simp] theorem State.markErr_pwr (s : State) : (State.markErr s).pwr = s.pwr := rfl

@[simp] theorem State.markErr_pd (s : State) : (State.markErr s).pd = s.pd := rfl

@[simp] theorem State.markErr_boot (s : State) : (State.markErr s).boot = s.boot := rfl

@[simp] theorem State.markErr_mem (s : State) : (State.markErr s).mem = s.mem := rfl

@[simp] theorem State.markErr_out (s : State) : (State.markErr s).out = s.out := rfl

@[simp] theorem State.markErr_free (s : State) : (State.markErr s).free = s.free := rfl

@[simp] theorem State.markErr_pending (s : State) : (State.markErr s).pending = s.pending := rfl

@[simp] theorem State.noteStage_timer (s : State) (stage : Nat) : (State.noteStage s stage).timer = s.timer := rfl

@[simp] theorem State.noteStage_phs (s : State) (stage : Nat) : (State.noteStage s stage).phs = s.phs := rfl

@[simp] theorem State.noteStage_sch (s : State) (stage : Nat) : (State.noteStage s stage).sch = s.sch := rfl

@[simp] theorem State.noteStage_pg (s : State) (stage : Nat) : (State.noteStage s stage).pg = s.pg := rfl

@[simp] theorem State.noteStage_rq (s : State) (stage : Nat) : (State.noteStage s stage).rq = s.rq := rfl

@[simp] theorem State.noteStage_hbm (s : State) (stage : Nat) : (State.noteStage s stage).hbm = s.hbm := rfl

@[simp] theorem State.noteStage_tier (s : State) (stage : Nat) : (State.noteStage s stage).tier = s.tier := rfl

@[simp] theorem State.noteStage_lnk (s : State) (stage : Nat) : (State.noteStage s stage).lnk = s.lnk := rfl

@[simp] theorem State.noteStage_rmo (s : State) (stage : Nat) : (State.noteStage s stage).rmo = s.rmo := rfl

@[simp] theorem State.noteStage_egq (s : State) (stage : Nat) : (State.noteStage s stage).egq = s.egq := rfl

@[simp] theorem State.noteStage_cmp (s : State) (stage : Nat) : (State.noteStage s stage).cmp = s.cmp := rfl

@[simp] theorem State.noteStage_sec (s : State) (stage : Nat) : (State.noteStage s stage).sec = s.sec := rfl

@[simp] theorem State.noteStage_rel (s : State) (stage : Nat) : (State.noteStage s stage).rel = s.rel := rfl

@[simp] theorem State.noteStage_hif (s : State) (stage : Nat) : (State.noteStage s stage).hif = s.hif := rfl

@[simp] theorem State.noteStage_boot (s : State) (stage : Nat) : (State.noteStage s stage).boot = s.boot := rfl

@[simp] theorem State.noteStage_mem (s : State) (stage : Nat) : (State.noteStage s stage).mem = s.mem := rfl

@[simp] theorem State.noteStage_out (s : State) (stage : Nat) : (State.noteStage s stage).out = s.out := rfl

@[simp] theorem State.noteStage_free (s : State) (stage : Nat) : (State.noteStage s stage).free = s.free := rfl

@[simp] theorem State.noteStage_pending (s : State) (stage : Nat) : (State.noteStage s stage).pending = s.pending := rfl

@[simp] theorem State.bootFail_timer (s : State) (why : Nat) : (State.bootFail s why).timer = s.timer := rfl

@[simp] theorem State.bootFail_phs (s : State) (why : Nat) : (State.bootFail s why).phs = s.phs := rfl

@[simp] theorem State.bootFail_sch (s : State) (why : Nat) : (State.bootFail s why).sch = s.sch := rfl

@[simp] theorem State.bootFail_pg (s : State) (why : Nat) : (State.bootFail s why).pg = s.pg := rfl

@[simp] theorem State.bootFail_rq (s : State) (why : Nat) : (State.bootFail s why).rq = s.rq := rfl

@[simp] theorem State.bootFail_hbm (s : State) (why : Nat) : (State.bootFail s why).hbm = s.hbm := rfl

@[simp] theorem State.bootFail_tier (s : State) (why : Nat) : (State.bootFail s why).tier = s.tier := rfl

@[simp] theorem State.bootFail_lnk (s : State) (why : Nat) : (State.bootFail s why).lnk = s.lnk := rfl

@[simp] theorem State.bootFail_rmo (s : State) (why : Nat) : (State.bootFail s why).rmo = s.rmo := rfl

@[simp] theorem State.bootFail_egq (s : State) (why : Nat) : (State.bootFail s why).egq = s.egq := rfl

@[simp] theorem State.bootFail_cmp (s : State) (why : Nat) : (State.bootFail s why).cmp = s.cmp := rfl

@[simp] theorem State.bootFail_sec (s : State) (why : Nat) : (State.bootFail s why).sec = s.sec := rfl

@[simp] theorem State.bootFail_rel (s : State) (why : Nat) : (State.bootFail s why).rel = s.rel := rfl

@[simp] theorem State.bootFail_pwr (s : State) (why : Nat) : (State.bootFail s why).pwr = s.pwr := rfl

@[simp] theorem State.bootFail_hif (s : State) (why : Nat) : (State.bootFail s why).hif = s.hif := rfl

@[simp] theorem State.bootFail_pd (s : State) (why : Nat) : (State.bootFail s why).pd = s.pd := rfl

@[simp] theorem State.bootFail_mem (s : State) (why : Nat) : (State.bootFail s why).mem = s.mem := rfl

@[simp] theorem State.bootFail_out (s : State) (why : Nat) : (State.bootFail s why).out = s.out := rfl

@[simp] theorem State.bootFail_free (s : State) (why : Nat) : (State.bootFail s why).free = s.free := rfl

@[simp] theorem State.bootFail_pending (s : State) (why : Nat) : (State.bootFail s why).pending = s.pending := rfl

@[simp] theorem State.tapSet_timer (s : State) (ir : Nat) : (State.tapSet s ir).timer = s.timer := rfl

@[simp] theorem State.tapSet_phs (s : State) (ir : Nat) : (State.tapSet s ir).phs = s.phs := rfl

@[simp] theorem State.tapSet_sch (s : State) (ir : Nat) : (State.tapSet s ir).sch = s.sch := rfl

@[simp] theorem State.tapSet_pg (s : State) (ir : Nat) : (State.tapSet s ir).pg = s.pg := rfl

@[simp] theorem State.tapSet_rq (s : State) (ir : Nat) : (State.tapSet s ir).rq = s.rq := rfl

@[simp] theorem State.tapSet_hbm (s : State) (ir : Nat) : (State.tapSet s ir).hbm = s.hbm := rfl

@[simp] theorem State.tapSet_tier (s : State) (ir : Nat) : (State.tapSet s ir).tier = s.tier := rfl

@[simp] theorem State.tapSet_lnk (s : State) (ir : Nat) : (State.tapSet s ir).lnk = s.lnk := rfl

@[simp] theorem State.tapSet_rmo (s : State) (ir : Nat) : (State.tapSet s ir).rmo = s.rmo := rfl

@[simp] theorem State.tapSet_egq (s : State) (ir : Nat) : (State.tapSet s ir).egq = s.egq := rfl

@[simp] theorem State.tapSet_cmp (s : State) (ir : Nat) : (State.tapSet s ir).cmp = s.cmp := rfl

@[simp] theorem State.tapSet_sec (s : State) (ir : Nat) : (State.tapSet s ir).sec = s.sec := rfl

@[simp] theorem State.tapSet_rel (s : State) (ir : Nat) : (State.tapSet s ir).rel = s.rel := rfl

@[simp] theorem State.tapSet_pwr (s : State) (ir : Nat) : (State.tapSet s ir).pwr = s.pwr := rfl

@[simp] theorem State.tapSet_hif (s : State) (ir : Nat) : (State.tapSet s ir).hif = s.hif := rfl

@[simp] theorem State.tapSet_pd (s : State) (ir : Nat) : (State.tapSet s ir).pd = s.pd := rfl

@[simp] theorem State.tapSet_mem (s : State) (ir : Nat) : (State.tapSet s ir).mem = s.mem := rfl

@[simp] theorem State.tapSet_out (s : State) (ir : Nat) : (State.tapSet s ir).out = s.out := rfl

@[simp] theorem State.tapSet_free (s : State) (ir : Nat) : (State.tapSet s ir).free = s.free := rfl

@[simp] theorem State.tapSet_pending (s : State) (ir : Nat) : (State.tapSet s ir).pending = s.pending := rfl

@[simp] theorem State.unstage_timer (s : State) (index sub : Nat) : (State.unstage s index sub).timer = s.timer := rfl

@[simp] theorem State.unstage_phs (s : State) (index sub : Nat) : (State.unstage s index sub).phs = s.phs := rfl

@[simp] theorem State.unstage_sch (s : State) (index sub : Nat) : (State.unstage s index sub).sch = s.sch := rfl

@[simp] theorem State.unstage_pg (s : State) (index sub : Nat) : (State.unstage s index sub).pg = s.pg := rfl

@[simp] theorem State.unstage_rq (s : State) (index sub : Nat) : (State.unstage s index sub).rq = s.rq := rfl

@[simp] theorem State.unstage_hbm (s : State) (index sub : Nat) : (State.unstage s index sub).hbm = s.hbm := rfl

@[simp] theorem State.unstage_tier (s : State) (index sub : Nat) : (State.unstage s index sub).tier = s.tier := rfl

@[simp] theorem State.unstage_lnk (s : State) (index sub : Nat) : (State.unstage s index sub).lnk = s.lnk := rfl

@[simp] theorem State.unstage_rmo (s : State) (index sub : Nat) : (State.unstage s index sub).rmo = s.rmo := rfl

@[simp] theorem State.unstage_egq (s : State) (index sub : Nat) : (State.unstage s index sub).egq = s.egq := rfl

@[simp] theorem State.unstage_cmp (s : State) (index sub : Nat) : (State.unstage s index sub).cmp = s.cmp := rfl

@[simp] theorem State.unstage_sec (s : State) (index sub : Nat) : (State.unstage s index sub).sec = s.sec := rfl

@[simp] theorem State.unstage_rel (s : State) (index sub : Nat) : (State.unstage s index sub).rel = s.rel := rfl

@[simp] theorem State.unstage_pwr (s : State) (index sub : Nat) : (State.unstage s index sub).pwr = s.pwr := rfl

@[simp] theorem State.unstage_hif (s : State) (index sub : Nat) : (State.unstage s index sub).hif = s.hif := rfl

@[simp] theorem State.unstage_boot (s : State) (index sub : Nat) : (State.unstage s index sub).boot = s.boot := rfl

@[simp] theorem State.unstage_mem (s : State) (index sub : Nat) : (State.unstage s index sub).mem = s.mem := rfl

@[simp] theorem State.unstage_out (s : State) (index sub : Nat) : (State.unstage s index sub).out = s.out := rfl

@[simp] theorem State.unstage_free (s : State) (index sub : Nat) : (State.unstage s index sub).free = s.free := rfl

@[simp] theorem State.unstage_pending (s : State) (index sub : Nat) : (State.unstage s index sub).pending = s.pending := rfl

end Sys2Proof.Machine
end

