-- ==== Sys2Proof/Laws/Within.lean ====
section
/-! SUPPORT. `Within`: a state change that is steady and moves only the parts of a mask. It is transitive, and choices, folds and updates
keep it. -/

namespace Sys2Proof.Machine

theorem Steady.refl (s : State) : Steady s s := ⟨rfl, le_refl _, id, le_refl _⟩

theorem Steady.trans {a b c : State} (h : Steady a b) (k : Steady b c) : Steady a c :=
  ⟨k.queue.trans h.queue, h.time.trans k.time, fun m => k.mem (h.mem m), h.free.trans k.free⟩

theorem eq_of_mask {α : Type} {m : Bool} {x y z : α} (k : m = true ∨ x = y) (hp : m = false) (q : y = z) : x = z := by
  rcases k with k | k
  · rw [k] at hp; cases hp
  · exact k.trans q

theorem mask_absurd {m : Bool} (k : m = true) (hp : m = false) : False := by rw [k] at hp; cases hp

/-- Steady, and every part that the mask does not name stands as it was. -/
structure Within (M : Part → Bool) (s t : State) : Prop where
  steady : Steady s t
  same   : ∀ p, M p = false → p.same s t

theorem Within.refl (M : Part → Bool) (s : State) : Within M s s := ⟨Steady.refl s, fun p _ => by cases p <;> rfl⟩

theorem Within.trans {M : Part → Bool} {a b c : State} (h : Within M a b) (k : Within M b c) : Within M a c :=
  ⟨h.steady.trans k.steady, fun p hp => by
    have h := h.same p hp; have k := k.same p hp
    cases p <;> exact Eq.trans k h⟩

/-- A larger mask. -/
theorem Within.mono {M N : Part → Bool} {a b : State} (h : Within M a b) (k : ∀ p, M p = true → N p = true) : Within N a b :=
  ⟨h.steady, fun p hp => h.same p (by cases e : M p with | false => rfl | true => rw [k p e] at hp; cases hp)⟩

/-- The state that an update of `b` writes, as `Within` sees it. -/
def Upd (M : Part → Bool) (a b : State) (phs : PhaseSt) (sch : SchedSt) (pg : PageSt) (rq : ReqSt) (hbm : HbmSt) (tier : TierSt) (lnk : LinkSt) (rmo : RmoSt) (egq : EgqSt) (cmp : CompSt) (sec : SecSt) (rel : RelSt) (pwr : PwrSt) (hif : HifSt) (pd : PdSt) (boot : BootSt)
    (mem : List Host.Cell) (out : List Out) (free : Nat) : Prop :=
  Within M a (State.mk b.timer phs sch pg rq hbm tier lnk rmo egq cmp sec rel pwr hif pd boot mem out free b.pending)

theorem Within.mk_iff {M : Part → Bool} {a b : State} {phs : PhaseSt} {sch : SchedSt} {pg : PageSt} {rq : ReqSt} {hbm : HbmSt} {tier : TierSt} {lnk : LinkSt} {rmo : RmoSt} {egq : EgqSt} {cmp : CompSt} {sec : SecSt} {rel : RelSt} {pwr : PwrSt} {hif : HifSt} {pd : PdSt} {boot : BootSt}
    {mem : List Host.Cell} {out : List Out} {free : Nat} :
    Within M a (State.mk b.timer phs sch pg rq hbm tier lnk rmo egq cmp sec rel pwr hif pd boot mem out free b.pending) ↔
      Upd M a b phs sch pg rq hbm tier lnk rmo egq cmp sec rel pwr hif pd boot mem out free := Iff.rfl

/-- An update stays within the mask when each field it changes is one the mask names; memory is only emptied, and free values are only
drawn. -/
theorem Upd.of {M : Part → Bool} {a b : State} {phs : PhaseSt} {sch : SchedSt} {pg : PageSt} {rq : ReqSt} {hbm : HbmSt} {tier : TierSt} {lnk : LinkSt} {rmo : RmoSt} {egq : EgqSt} {cmp : CompSt} {sec : SecSt} {rel : RelSt} {pwr : PwrSt} {hif : HifSt} {pd : PdSt} {boot : BootSt}
    {mem : List Host.Cell} {out : List Out} {free : Nat} (h : Within M a b)
    (k_clock : M .clock = true ∨ phs.clock = b.phs.clock) (k_phs : M .phs = true ∨ phs = b.phs)
    (k_sch : M .sch = true ∨ sch = b.sch) (k_pg : M .pg = true ∨ pg = b.pg) (k_rq : M .rq = true ∨ rq = b.rq) (k_hbm : M .hbm = true ∨ hbm = b.hbm) (k_tier : M .tier = true ∨ tier = b.tier) (k_lnk : M .lnk = true ∨ lnk = b.lnk) (k_rmo : M .rmo = true ∨ rmo = b.rmo) (k_egq : M .egq = true ∨ egq = b.egq) (k_cmp : M .cmp = true ∨ cmp = b.cmp) (k_sec : M .sec = true ∨ sec = b.sec) (k_rel : M .rel = true ∨ rel = b.rel) (k_pwr : M .pwr = true ∨ pwr = b.pwr) (k_hif : M .hif = true ∨ hif = b.hif) (k_vals : M .vals = true ∨ pd.vals = b.pd.vals) (k_pd : M .pd = true ∨ pd = b.pd) (k_boot : M .boot = true ∨ boot = b.boot)
    (k_mem : mem = b.mem ∨ M .mem = true ∧ mem = []) (k_out : M .out = true ∨ out = b.out)
    (k_free : free = b.free ∨ M .free = true ∧ b.free ≤ free) :
    Upd M a b phs sch pg rq hbm tier lnk rmo egq cmp sec rel pwr hif pd boot mem out free := by
  refine ⟨⟨h.steady.queue, h.steady.time, fun m => ?_, ?_⟩, fun p hp => ?_⟩
  · rcases k_mem with e | ⟨-, e⟩
    · subst e; exact h.steady.mem m
    · subst e; rfl
  · rcases k_free with e | ⟨-, e⟩
    · subst e; exact h.steady.free
    · exact h.steady.free.trans e
  have q := h.same p hp
  cases p with
  | mem => rcases k_mem with e | ⟨e, -⟩
           · subst e; exact q
           · exact (mask_absurd e hp).elim
  | free => rcases k_free with e | ⟨e, -⟩
            · subst e; exact q
            · exact (mask_absurd e hp).elim
  | timer => exact q
  | _ => exact eq_of_mask (by assumption) hp q

theorem Within.ite {M : Part → Bool} {a b c : State} {p : Prop} [Decidable p] (h : Within M a b) (k : Within M a c) : Within M a (if p then b else c) := by
  split <;> assumption

theorem Within.ite2 {M : Part → Bool} {α : Type} {a : State} {b c : α × State} {p : Prop} [Decidable p] (h : Within M a b.2) (k : Within M a c.2) :
    Within M a (if p then b else c).2 := by split <;> assumption

theorem Within.ite1 {M : Part → Bool} {α : Type} {a : State} {b c : State × α} {p : Prop} [Decidable p] (h : Within M a b.1) (k : Within M a c.1) :
    Within M a (if p then b else c).1 := by split <;> assumption

theorem Within.ite3 {M : Part → Bool} {α β : Type} {a : State} {b c : α × β × State} {p : Prop} [Decidable p] (h : Within M a b.2.2) (k : Within M a c.2.2) :
    Within M a (if p then b else c).2.2 := by split <;> assumption

theorem Within.ite4 {M : Part → Bool} {α β : Type} {a : State} {b c : α × State × β} {p : Prop} [Decidable p] (h : Within M a b.2.1) (k : Within M a c.2.1) :
    Within M a (if p then b else c).2.1 := by split <;> assumption

theorem Within.ite6 {M : Part → Bool} {α β γ : Type} {a : State} {b c : α × β × γ × State} {p : Prop} [Decidable p] (h : Within M a b.2.2.2)
    (k : Within M a c.2.2.2) : Within M a (if p then b else c).2.2.2 := by split <;> assumption

theorem Within.foldl {M : Part → Bool} {α : Type} {a b : State} {f : State → α → State} {l : List α} (h : Within M a b)
    (k : ∀ s x, Within M a s → Within M a (f s x)) : Within M a (l.foldl f b) := by
  induction l generalizing b with
  | nil => exact h
  | cons x l ih => exact ih (k b x h)

theorem Within.foldl1 {M : Part → Bool} {α β : Type} {a : State} {b : State × β} {f : State × β → α → State × β} {l : List α} (h : Within M a b.1)
    (k : ∀ s x, Within M a s.1 → Within M a (f s x).1) : Within M a (l.foldl f b).1 := by
  induction l generalizing b with
  | nil => exact h
  | cons x l ih => exact ih (k b x h)

theorem Within.foldl2 {M : Part → Bool} {α β : Type} {a : State} {b : β × State} {f : β × State → α → β × State} {l : List α} (h : Within M a b.2)
    (k : ∀ s x, Within M a s.2 → Within M a (f s x).2) : Within M a (l.foldl f b).2 := by
  induction l generalizing b with
  | nil => exact h
  | cons x l ih => exact ih (k b x h)

/-- A meaning goes on, and within the mask. -/
def Goes (M : Part → Bool) (a : State) (r : Res) : Prop := ∃ t, r = .next t ∧ Within M a t

theorem Goes.next {M : Part → Bool} {a t : State} (h : Within M a t) : Goes M a (.next t) := ⟨t, rfl, h⟩

theorem Goes.ite {M : Part → Bool} {a : State} {x y : Res} {p : Prop} [Decidable p] (h : Goes M a x) (k : Goes M a y) : Goes M a (if p then x else y) := by
  split <;> assumption

/-- Storing bytes. -/
theorem State.store_within {M : Part → Bool} {a s : State} {i : Nat} {bs : List Byte} (m_hbm : M .hbm = true) (m_mem : M .mem = true)
    (h : Within M a s) : Within M a (s.store i bs) := by
  refine ⟨⟨h.steady.queue, h.steady.time, fun m => Memory.wf_writes i bs (h.steady.mem m), h.steady.free⟩, fun p hp => ?_⟩
  have q := h.same p hp
  cases p <;> first | exact q | exact (mask_absurd (by assumption) hp).elim

/-- Zeroising a range. -/
theorem State.zeroise_within {M : Part → Bool} {a s : State} {lo len : Nat} (m_hbm : M .hbm = true) (m_mem : M .mem = true)
    (h : Within M a s) : Within M a (s.zeroise lo len) := by
  refine ⟨⟨h.steady.queue, h.steady.time, fun m => Memory.wf_zero lo len (h.steady.mem m), h.steady.free⟩, fun p hp => ?_⟩
  have q := h.same p hp
  cases p <;> first | exact q | exact (mask_absurd (by assumption) hp).elim

/-- Drawing a free value. -/
theorem State.draw_within {M : Part → Bool} {a s : State} (m_free : M .free = true) (h : Within M a s) : Within M a s.draw.2 := by
  refine ⟨⟨h.steady.queue, h.steady.time, h.steady.mem, h.steady.free.trans (Nat.le_succ _)⟩, fun p hp => ?_⟩
  have q := h.same p hp
  cases p <;> first | exact q | exact (mask_absurd (by assumption) hp).elim

/-- The arrival of a command: the timer never runs back. -/
theorem State.arrive_within {M : Part → Bool} {a s : State} {t : Nat} (m_timer : M .timer = true) (h : Within M a s) :
    Within M a (s.arrive t) := by
  unfold State.arrive
  split
  · refine ⟨⟨h.steady.queue, h.steady.time.trans (le_max_left _ _), h.steady.mem, h.steady.free⟩, fun p hp => ?_⟩
    have q := h.same p hp
    cases p <;> first | exact q | exact (mask_absurd (by assumption) hp).elim
  · exact h

end Sys2Proof.Machine
end

