-- ==== Sys2Proof/Laws/WithinOps.lean ====
section
/-! SUPPORT. Which parts of the state the operations of Machine/Ops.lean may move, and that they are steady. -/

set_option linter.unusedTactic false
set_option linter.unreachableTactic false

namespace Sys2Proof.Machine

theorem State.emit_within {M : Part → Bool} {a0 : State} {s : State} {o : Out} (m_out : M .out = true) (hs : Within M a0 s) : Within M a0 (State.emit s o) := by
  unfold State.emit
  try dsimp only
  repeat' first
    | with_reducible exact hs
    | with_reducible assumption
    | with_reducible exact Or.inl (by assumption)
    | with_reducible exact Or.inr rfl
    | with_reducible exact Or.inl rfl
    | with_reducible exact Or.inr ⟨by assumption, Nat.le_add_right _ _⟩
    | simp only [Within.mk_iff]
    | with_reducible refine Upd.of ?_ ?_ ?_ ?_ ?_ ?_ ?_ ?_ ?_ ?_ ?_ ?_ ?_ ?_ ?_ ?_ ?_ ?_ ?_ ?_ ?_ ?_

theorem State.pdSet_within {M : Part → Bool} {a0 : State} {s : State} {index sub : Nat} {b : List Byte} (m_vals : M .vals = true) (m_pd : M .pd = true) (hs : Within M a0 s) : Within M a0 (State.pdSet s index sub b) := by
  unfold State.pdSet
  try dsimp only
  repeat' first
    | with_reducible exact hs
    | with_reducible assumption
    | with_reducible exact Or.inl (by assumption)
    | with_reducible exact Or.inr rfl
    | with_reducible exact Or.inl rfl
    | with_reducible exact Or.inr ⟨by assumption, Nat.le_add_right _ _⟩
    | simp only [Within.mk_iff]
    | with_reducible refine Upd.of ?_ ?_ ?_ ?_ ?_ ?_ ?_ ?_ ?_ ?_ ?_ ?_ ?_ ?_ ?_ ?_ ?_ ?_ ?_ ?_ ?_ ?_

theorem State.pdSetNum_within {M : Part → Bool} {a0 : State} {s : State} {index sub v : Nat} (m_vals : M .vals = true) (m_pd : M .pd = true) (hs : Within M a0 s) : Within M a0 (State.pdSetNum s index sub v) := by
  unfold State.pdSetNum
  try dsimp only
  repeat' first
    | with_reducible exact hs
    | with_reducible assumption
    | with_reducible exact Or.inl (by assumption)
    | with_reducible exact Or.inr rfl
    | with_reducible exact Or.inl rfl
    | with_reducible exact Or.inr ⟨by assumption, Nat.le_add_right _ _⟩
    | with_reducible apply State.pdSet_within
    | split

theorem State.countBy_within {M : Part → Bool} {a0 : State} {s : State} {index sub n : Nat} (m_pd : M .pd = true) (hs : Within M a0 s) : Within M a0 (State.countBy s index sub n) := by
  unfold State.countBy
  try dsimp only
  repeat' first
    | with_reducible exact hs
    | with_reducible assumption
    | with_reducible exact Or.inl (by assumption)
    | with_reducible exact Or.inr rfl
    | with_reducible exact Or.inl rfl
    | with_reducible exact Or.inr ⟨by assumption, Nat.le_add_right _ _⟩
    | simp only [Within.mk_iff]
    | with_reducible refine Upd.of ?_ ?_ ?_ ?_ ?_ ?_ ?_ ?_ ?_ ?_ ?_ ?_ ?_ ?_ ?_ ?_ ?_ ?_ ?_ ?_ ?_ ?_
    | split

theorem State.count_within {M : Part → Bool} {a0 : State} {s : State} {index sub : Nat} (m_pd : M .pd = true) (hs : Within M a0 s) : Within M a0 (State.count s index sub) := by
  unfold State.count
  try dsimp only
  repeat' first
    | with_reducible exact hs
    | with_reducible assumption
    | with_reducible exact Or.inl (by assumption)
    | with_reducible exact Or.inr rfl
    | with_reducible exact Or.inl rfl
    | with_reducible exact Or.inr ⟨by assumption, Nat.le_add_right _ _⟩
    | with_reducible apply State.countBy_within

theorem State.countC_within {M : Part → Bool} {a0 : State} {s : State} {c index sub n : Nat} (m_pd : M .pd = true) (hs : Within M a0 s) : Within M a0 (State.countC s c index sub n) := by
  unfold State.countC
  try dsimp only
  repeat' first
    | with_reducible exact hs
    | with_reducible assumption
    | with_reducible exact Or.inl (by assumption)
    | with_reducible exact Or.inr rfl
    | with_reducible exact Or.inl rfl
    | with_reducible exact Or.inr ⟨by assumption, Nat.le_add_right _ _⟩
    | with_reducible apply State.countBy_within
    | with_reducible apply State.count_within
    | simp only [Within.mk_iff]
    | with_reducible refine Upd.of ?_ ?_ ?_ ?_ ?_ ?_ ?_ ?_ ?_ ?_ ?_ ?_ ?_ ?_ ?_ ?_ ?_ ?_ ?_ ?_ ?_ ?_

theorem State.setComp_within {M : Part → Bool} {a0 : State} {s : State} {c : Nat} {f : Comp → Comp} (m_cmp : M .cmp = true) (hs : Within M a0 s) : Within M a0 (State.setComp s c f) := by
  unfold State.setComp
  try dsimp only
  repeat' first
    | with_reducible exact hs
    | with_reducible assumption
    | with_reducible exact Or.inl (by assumption)
    | with_reducible exact Or.inr rfl
    | with_reducible exact Or.inl rfl
    | with_reducible exact Or.inr ⟨by assumption, Nat.le_add_right _ _⟩
    | simp only [Within.mk_iff]
    | with_reducible refine Upd.of ?_ ?_ ?_ ?_ ?_ ?_ ?_ ?_ ?_ ?_ ?_ ?_ ?_ ?_ ?_ ?_ ?_ ?_ ?_ ?_ ?_ ?_
    | split

theorem State.ringPut_within {M : Part → Bool} {a0 : State} {s : State} {base size : Nat} {rec_ : List Byte} (m_hbm : M .hbm = true) (m_mem : M .mem = true) (hs : Within M a0 s) : Within M a0 (State.ringPut s base size rec_).2 := by
  unfold State.ringPut
  try dsimp only
  repeat' first
    | with_reducible exact hs
    | with_reducible assumption
    | with_reducible exact Or.inl (by assumption)
    | with_reducible exact Or.inr rfl
    | with_reducible exact Or.inl rfl
    | with_reducible exact Or.inr ⟨by assumption, Nat.le_add_right _ _⟩
    | with_reducible apply State.store_within
    | with_reducible apply State.store_within
    | with_reducible apply Within.ite2
    | with_reducible apply Within.ite
    | split

theorem State.ringQueue_within {M : Part → Bool} {a0 : State} {s : State} {c : Nat} {breach : Bool} {rec_ : List Byte} (m_rmo : M .rmo = true) (hs : Within M a0 s) : Within M a0 (State.ringQueue s c breach rec_) := by
  unfold State.ringQueue
  try dsimp only
  repeat' first
    | with_reducible exact hs
    | with_reducible assumption
    | with_reducible exact Or.inl (by assumption)
    | with_reducible exact Or.inr rfl
    | with_reducible exact Or.inl rfl
    | with_reducible exact Or.inr ⟨by assumption, Nat.le_add_right _ _⟩
    | simp only [Within.mk_iff]
    | with_reducible refine Upd.of ?_ ?_ ?_ ?_ ?_ ?_ ?_ ?_ ?_ ?_ ?_ ?_ ?_ ?_ ?_ ?_ ?_ ?_ ?_ ?_ ?_ ?_

theorem State.breach_within {M : Part → Bool} {a0 : State} {s : State} {cause : Nat} {slot : Option Nat} {opclass comp late job node tag : Nat} (m_phs : M .phs = true) (m_sch : M .sch = true) (m_hbm : M .hbm = true) (m_rmo : M .rmo = true) (m_pd : M .pd = true) (m_mem : M .mem = true) (m_out : M .out = true) (hs : Within M a0 s) : Within M a0 (State.breach s cause slot opclass comp late job node tag) := by
  unfold State.breach
  try dsimp only
  repeat' first
    | with_reducible exact hs
    | with_reducible assumption
    | with_reducible exact Or.inl (by assumption)
    | with_reducible exact Or.inr rfl
    | with_reducible exact Or.inl rfl
    | with_reducible exact Or.inr ⟨by assumption, Nat.le_add_right _ _⟩
    | with_reducible apply State.store_within
    | with_reducible apply State.emit_within
    | with_reducible apply State.count_within
    | with_reducible apply State.countC_within
    | with_reducible apply State.ringQueue_within
    | with_reducible apply State.store_within
    | simp only [Within.mk_iff]
    | with_reducible refine Upd.of ?_ ?_ ?_ ?_ ?_ ?_ ?_ ?_ ?_ ?_ ?_ ?_ ?_ ?_ ?_ ?_ ?_ ?_ ?_ ?_ ?_ ?_
    | with_reducible apply Within.ite
    | split

theorem State.event_within {M : Part → Bool} {a0 : State} {s : State} {e : Event} (m_hbm : M .hbm = true) (m_rmo : M .rmo = true) (m_pd : M .pd = true) (m_boot : M .boot = true) (m_mem : M .mem = true) (m_out : M .out = true) (hs : Within M a0 s) : Within M a0 (State.event s e) := by
  unfold State.event
  try dsimp only
  repeat' first
    | with_reducible exact hs
    | with_reducible assumption
    | with_reducible exact Or.inl (by assumption)
    | with_reducible exact Or.inr rfl
    | with_reducible exact Or.inl rfl
    | with_reducible exact Or.inr ⟨by assumption, Nat.le_add_right _ _⟩
    | with_reducible apply State.store_within
    | with_reducible apply State.emit_within
    | with_reducible apply State.count_within
    | with_reducible apply State.ringQueue_within
    | with_reducible apply State.store_within
    | simp only [Within.mk_iff]
    | with_reducible refine Upd.of ?_ ?_ ?_ ?_ ?_ ?_ ?_ ?_ ?_ ?_ ?_ ?_ ?_ ?_ ?_ ?_ ?_ ?_ ?_ ?_ ?_ ?_
    | with_reducible apply Within.ite
    | with_reducible apply Within.ite1
    | with_reducible apply Within.ite2
    | with_reducible apply Within.ite3
    | with_reducible apply Within.ite4
    | split


end Sys2Proof.Machine
end

