-- ==== Sys2Proof/Laws/WithinEgress.lean ====
section
/-! SUPPORT. Which parts of the state the operations of Machine/Egress.lean may move, and that they are steady. -/

set_option linter.unusedTactic false
set_option linter.unreachableTactic false

namespace Sys2Proof.Machine

theorem State.setPort_within {M : Part → Bool} {a0 : State} {s : State} {p : Nat} {x : Port} (m_lnk : M .lnk = true) (hs : Within M a0 s) : Within M a0 (State.setPort s p x) := by
  unfold State.setPort
  try dsimp only
  repeat' first
    | with_reducible exact hs
    | with_reducible assumption
    | with_reducible exact Or.inl (by assumption)
    | with_reducible exact Or.inr rfl
    | with_reducible exact Or.inl rfl
    | with_reducible exact Or.inr ⟨by assumption, Nat.le_add_right _ _⟩
    | simp only [Within.mk_iff]
    | with_reducible refine Upd.of ?_ ?_ ?_ ?_ ?_ ?_ ?_ ?_ ?_ ?_ ?_ ?_ ?_ ?_ ?_ ?_ ?_ ?_ ?_ ?_ ?_ ?_

theorem State.setQueue_within {M : Part → Bool} {a0 : State} {s : State} {q : Nat} {x : Queue} (m_egq : M .egq = true) (hs : Within M a0 s) : Within M a0 (State.setQueue s q x) := by
  unfold State.setQueue
  try dsimp only
  repeat' first
    | with_reducible exact hs
    | with_reducible assumption
    | with_reducible exact Or.inl (by assumption)
    | with_reducible exact Or.inr rfl
    | with_reducible exact Or.inl rfl
    | with_reducible exact Or.inr ⟨by assumption, Nat.le_add_right _ _⟩
    | simp only [Within.mk_iff]
    | with_reducible refine Upd.of ?_ ?_ ?_ ?_ ?_ ?_ ?_ ?_ ?_ ?_ ?_ ?_ ?_ ?_ ?_ ?_ ?_ ?_ ?_ ?_ ?_ ?_

theorem State.setSend_within {M : Part → Bool} {a0 : State} {s : State} {q : Nat} {e : SendEnt} (m_rmo : M .rmo = true) (hs : Within M a0 s) : Within M a0 (State.setSend s q e) := by
  unfold State.setSend
  try dsimp only
  repeat' first
    | with_reducible exact hs
    | with_reducible assumption
    | with_reducible exact Or.inl (by assumption)
    | with_reducible exact Or.inr rfl
    | with_reducible exact Or.inl rfl
    | with_reducible exact Or.inr ⟨by assumption, Nat.le_add_right _ _⟩
    | simp only [Within.mk_iff]
    | with_reducible refine Upd.of ?_ ?_ ?_ ?_ ?_ ?_ ?_ ?_ ?_ ?_ ?_ ?_ ?_ ?_ ?_ ?_ ?_ ?_ ?_ ?_ ?_ ?_

theorem State.note_within {M : Part → Bool} {a0 : State} {s : State} {q : Nat} (m_egq : M .egq = true) (hs : Within M a0 s) : Within M a0 (State.note s q) := by
  unfold State.note
  try dsimp only
  repeat' first
    | with_reducible exact hs
    | with_reducible assumption
    | with_reducible exact Or.inl (by assumption)
    | with_reducible exact Or.inr rfl
    | with_reducible exact Or.inl rfl
    | with_reducible exact Or.inr ⟨by assumption, Nat.le_add_right _ _⟩
    | with_reducible apply State.setQueue_within

theorem State.noteAll_within {M : Part → Bool} {a0 : State} {s : State} (m_egq : M .egq = true) (hs : Within M a0 s) : Within M a0 (State.noteAll s) := by
  unfold State.noteAll
  try dsimp only
  repeat' first
    | with_reducible exact hs
    | with_reducible assumption
    | with_reducible exact Or.inl (by assumption)
    | with_reducible exact Or.inr rfl
    | with_reducible exact Or.inl rfl
    | with_reducible exact Or.inr ⟨by assumption, Nat.le_add_right _ _⟩
    | simp only [Within.mk_iff]
    | with_reducible refine Upd.of ?_ ?_ ?_ ?_ ?_ ?_ ?_ ?_ ?_ ?_ ?_ ?_ ?_ ?_ ?_ ?_ ?_ ?_ ?_ ?_ ?_ ?_
    | split

theorem State.putMsg_within {M : Part → Bool} {a0 : State} {s : State} {q : Nat} {m : Msg} (m_egq : M .egq = true) (hs : Within M a0 s) : Within M a0 (State.putMsg s q m) := by
  unfold State.putMsg
  try dsimp only
  repeat' first
    | with_reducible exact hs
    | with_reducible assumption
    | with_reducible exact Or.inl (by assumption)
    | with_reducible exact Or.inr rfl
    | with_reducible exact Or.inl rfl
    | with_reducible exact Or.inr ⟨by assumption, Nat.le_add_right _ _⟩
    | with_reducible apply State.setQueue_within
    | simp only [Within.mk_iff]
    | with_reducible refine Upd.of ?_ ?_ ?_ ?_ ?_ ?_ ?_ ?_ ?_ ?_ ?_ ?_ ?_ ?_ ?_ ?_ ?_ ?_ ?_ ?_ ?_ ?_
    | with_reducible apply Within.ite
    | split

theorem State.enqueue_within {M : Part → Bool} {a0 : State} {s : State} {q : Nat} {m : Msg} (m_egq : M .egq = true) (hs : Within M a0 s) : Within M a0 (State.enqueue s q m) := by
  unfold State.enqueue
  try dsimp only
  repeat' first
    | with_reducible exact hs
    | with_reducible assumption
    | with_reducible exact Or.inl (by assumption)
    | with_reducible exact Or.inr rfl
    | with_reducible exact Or.inl rfl
    | with_reducible exact Or.inr ⟨by assumption, Nat.le_add_right _ _⟩
    | with_reducible apply State.putMsg_within
    | simp only [Within.mk_iff]
    | with_reducible refine Upd.of ?_ ?_ ?_ ?_ ?_ ?_ ?_ ?_ ?_ ?_ ?_ ?_ ?_ ?_ ?_ ?_ ?_ ?_ ?_ ?_ ?_ ?_
    | with_reducible apply Within.ite
    | split

theorem State.refill_within {M : Part → Bool} {a0 : State} {s : State} (m_egq : M .egq = true) (hs : Within M a0 s) : Within M a0 (State.refill s) := by
  unfold State.refill
  try dsimp only
  repeat' first
    | with_reducible exact hs
    | with_reducible assumption
    | with_reducible exact Or.inl (by assumption)
    | with_reducible exact Or.inr rfl
    | with_reducible exact Or.inl rfl
    | with_reducible exact Or.inr ⟨by assumption, Nat.le_add_right _ _⟩
    | with_reducible apply State.enqueue_within
    | simp only [Within.mk_iff]
    | with_reducible refine Upd.of ?_ ?_ ?_ ?_ ?_ ?_ ?_ ?_ ?_ ?_ ?_ ?_ ?_ ?_ ?_ ?_ ?_ ?_ ?_ ?_ ?_ ?_
    | with_reducible refine Within.foldl ?_ (fun _ _ hs => ?_)
    | with_reducible refine Within.foldl1 ?_ (fun _ _ hs => ?_)
    | with_reducible refine Within.foldl2 ?_ (fun _ _ hs => ?_)

theorem State.unqueue_within {M : Part → Bool} {a0 : State} {s : State} {q : Nat} {p : Msg → Bool} (m_egq : M .egq = true) (hs : Within M a0 s) : Within M a0 (State.unqueue s q p) := by
  unfold State.unqueue
  try dsimp only
  repeat' first
    | with_reducible exact hs
    | with_reducible assumption
    | with_reducible exact Or.inl (by assumption)
    | with_reducible exact Or.inr rfl
    | with_reducible exact Or.inl rfl
    | with_reducible exact Or.inr ⟨by assumption, Nat.le_add_right _ _⟩
    | with_reducible apply State.setQueue_within
    | with_reducible apply State.note_within
    | with_reducible apply State.refill_within
    | simp only [Within.mk_iff]
    | with_reducible refine Upd.of ?_ ?_ ?_ ?_ ?_ ?_ ?_ ?_ ?_ ?_ ?_ ?_ ?_ ?_ ?_ ?_ ?_ ?_ ?_ ?_ ?_ ?_
    | with_reducible apply Within.ite
    | split


end Sys2Proof.Machine
end

