-- ==== Sys2Proof/Laws/WithinReply.lean ====
section
/-! SUPPORT. Which parts of the state the operations of Machine/Reply.lean may move, and that they are steady. -/

set_option linter.unusedTactic false
set_option linter.unreachableTactic false

namespace Sys2Proof.Machine

theorem State.setVf_within {M : Part → Bool} {a0 : State} {s : State} {n : Nat} {f : Vf → Vf} (m_hif : M .hif = true) (hs : Within M a0 s) : Within M a0 (State.setVf s n f) := by
  unfold State.setVf
  try dsimp only
  repeat' first
    | with_reducible exact hs
    | with_reducible assumption
    | with_reducible exact Or.inl (by assumption)
    | with_reducible exact Or.inr rfl
    | with_reducible exact Or.inl rfl
    | with_reducible exact Or.inr ⟨by assumption, Nat.le_add_right _ _⟩
    | simp only [Within.mk_iff]
    | with_reducible refine Upd.of ?_ ?_ ?_ ?_ ?_ ?_ ?_ ?_ ?_ ?_ ?_ ?_ ?_ ?_ ?_ ?_ ?_ ?_ ?_ ?_ ?_ ?_

theorem State.setMbx_within {M : Part → Bool} {a0 : State} {s : State} {vf n : Nat} {f : Mbx → Mbx} (m_hif : M .hif = true) (hs : Within M a0 s) : Within M a0 (State.setMbx s vf n f) := by
  unfold State.setMbx
  try dsimp only
  repeat' first
    | with_reducible exact hs
    | with_reducible assumption
    | with_reducible exact Or.inl (by assumption)
    | with_reducible exact Or.inr rfl
    | with_reducible exact Or.inl rfl
    | with_reducible exact Or.inr ⟨by assumption, Nat.le_add_right _ _⟩
    | with_reducible apply State.setVf_within
    | simp only [Within.mk_iff]
    | with_reducible refine Upd.of ?_ ?_ ?_ ?_ ?_ ?_ ?_ ?_ ?_ ?_ ?_ ?_ ?_ ?_ ?_ ?_ ?_ ?_ ?_ ?_ ?_ ?_

theorem State.mbxReady_within {M : Part → Bool} {a0 : State} {s : State} {vf n : Nat} {st : Status} {tag : BitVec 32} {flag : BitVec 64} {rbytes : Nat} (m_hif : M .hif = true) (m_out : M .out = true) (hs : Within M a0 s) : Within M a0 (State.mbxReady s vf n st tag flag rbytes) := by
  unfold State.mbxReady
  try dsimp only
  repeat' first
    | with_reducible exact hs
    | with_reducible assumption
    | with_reducible exact Or.inl (by assumption)
    | with_reducible exact Or.inr rfl
    | with_reducible exact Or.inl rfl
    | with_reducible exact Or.inr ⟨by assumption, Nat.le_add_right _ _⟩
    | with_reducible apply State.emit_within
    | with_reducible apply State.setMbx_within
    | simp only [Within.mk_iff]
    | with_reducible refine Upd.of ?_ ?_ ?_ ?_ ?_ ?_ ?_ ?_ ?_ ?_ ?_ ?_ ?_ ?_ ?_ ?_ ?_ ?_ ?_ ?_ ?_ ?_
    | with_reducible apply Within.ite
    | split

theorem State.pump_within {M : Part → Bool} {a0 : State} {s : State} {n : Nat} (m_hif : M .hif = true) (m_out : M .out = true) (hs : Within M a0 s) : Within M a0 (State.pump s n) := by
  unfold State.pump
  try dsimp only
  repeat' first
    | with_reducible exact hs
    | with_reducible assumption
    | with_reducible exact Or.inl (by assumption)
    | with_reducible exact Or.inr rfl
    | with_reducible exact Or.inl rfl
    | with_reducible exact Or.inr ⟨by assumption, Nat.le_add_right _ _⟩
    | with_reducible apply State.emit_within
    | with_reducible apply State.setVf_within
    | simp only [Within.mk_iff]
    | with_reducible refine Upd.of ?_ ?_ ?_ ?_ ?_ ?_ ?_ ?_ ?_ ?_ ?_ ?_ ?_ ?_ ?_ ?_ ?_ ?_ ?_ ?_ ?_ ?_
    | with_reducible apply Within.ite
    | split

theorem State.pumpAll_within {M : Part → Bool} {a0 : State} {s : State} (m_hif : M .hif = true) (m_out : M .out = true) (hs : Within M a0 s) : Within M a0 (State.pumpAll s) := by
  unfold State.pumpAll
  try dsimp only
  repeat' first
    | with_reducible exact hs
    | with_reducible assumption
    | with_reducible exact Or.inl (by assumption)
    | with_reducible exact Or.inr rfl
    | with_reducible exact Or.inl rfl
    | with_reducible exact Or.inr ⟨by assumption, Nat.le_add_right _ _⟩
    | with_reducible apply State.pump_within
    | with_reducible refine Within.foldl ?_ (fun _ _ hs => ?_)
    | with_reducible refine Within.foldl1 ?_ (fun _ _ hs => ?_)
    | with_reducible refine Within.foldl2 ?_ (fun _ _ hs => ?_)

theorem State.noReply_within {M : Part → Bool} {a0 : State} {s : State} {c rnode : Nat} (m_hbm : M .hbm = true) (m_rmo : M .rmo = true) (m_pd : M .pd = true) (m_boot : M .boot = true) (m_mem : M .mem = true) (m_out : M .out = true) (hs : Within M a0 s) : Within M a0 (State.noReply s c rnode) := by
  unfold State.noReply
  try dsimp only
  repeat' first
    | with_reducible exact hs
    | with_reducible assumption
    | with_reducible exact Or.inl (by assumption)
    | with_reducible exact Or.inr rfl
    | with_reducible exact Or.inl rfl
    | with_reducible exact Or.inr ⟨by assumption, Nat.le_add_right _ _⟩
    | with_reducible apply State.countC_within
    | with_reducible apply State.event_within

theorem State.sendResult_within {M : Part → Bool} {a0 : State} {s : State} {src : Source} {env : Envelope} {q : Option Nat} {off : Nat} {bs : List Byte} {contract : Bool} {prod : Producer} (m_egq : M .egq = true) (m_out : M .out = true) (hs : Within M a0 s) : Within M a0 (State.sendResult s src env q off bs contract prod) := by
  unfold State.sendResult
  try dsimp only
  repeat' first
    | with_reducible exact hs
    | with_reducible assumption
    | with_reducible exact Or.inl (by assumption)
    | with_reducible exact Or.inr rfl
    | with_reducible exact Or.inl rfl
    | with_reducible exact Or.inr ⟨by assumption, Nat.le_add_right _ _⟩
    | with_reducible apply State.emit_within
    | with_reducible apply State.enqueue_within
    | with_reducible apply Within.ite
    | with_reducible apply Within.ite1
    | with_reducible apply Within.ite2
    | with_reducible apply Within.ite3
    | with_reducible apply Within.ite4
    | split

theorem State.sendFlag_within {M : Part → Bool} {a0 : State} {s : State} {src : Source} {env : Envelope} {q : Option Nat} {st : Status} {rbytes : Nat} {contract : Bool} {prod : Producer} (m_egq : M .egq = true) (m_hif : M .hif = true) (m_out : M .out = true) (hs : Within M a0 s) : Within M a0 (State.sendFlag s src env q st rbytes contract prod) := by
  unfold State.sendFlag
  try dsimp only
  repeat' first
    | with_reducible exact hs
    | with_reducible assumption
    | with_reducible exact Or.inl (by assumption)
    | with_reducible exact Or.inr rfl
    | with_reducible exact Or.inl rfl
    | with_reducible exact Or.inr ⟨by assumption, Nat.le_add_right _ _⟩
    | with_reducible apply State.enqueue_within
    | with_reducible apply State.mbxReady_within
    | with_reducible apply Within.ite
    | with_reducible apply Within.ite1
    | with_reducible apply Within.ite2
    | with_reducible apply Within.ite3
    | with_reducible apply Within.ite4
    | split

theorem State.newId_within {M : Part → Bool} {a0 : State} {s : State} (m_rq : M .rq = true) (hs : Within M a0 s) : Within M a0 (State.newId s).2 := by
  unfold State.newId
  try dsimp only
  repeat' first
    | with_reducible exact hs
    | with_reducible assumption
    | with_reducible exact Or.inl (by assumption)
    | with_reducible exact Or.inr rfl
    | with_reducible exact Or.inl rfl
    | with_reducible exact Or.inr ⟨by assumption, Nat.le_add_right _ _⟩
    | simp only [Within.mk_iff]
    | with_reducible refine Upd.of ?_ ?_ ?_ ?_ ?_ ?_ ?_ ?_ ?_ ?_ ?_ ?_ ?_ ?_ ?_ ?_ ?_ ?_ ?_ ?_ ?_ ?_

theorem State.endOp_within {M : Part → Bool} {a0 : State} {s : State} {src : Source} {env : Envelope} {q : Option Nat} {op : Nat} {st : Status} {v : Nat} {contract : Bool} (m_rq : M .rq = true) (m_egq : M .egq = true) (m_hif : M .hif = true) (m_out : M .out = true) (hs : Within M a0 s) : Within M a0 (State.endOp s src env q op st v contract) := by
  unfold State.endOp
  try dsimp only
  repeat' first
    | with_reducible exact hs
    | with_reducible assumption
    | with_reducible exact Or.inl (by assumption)
    | with_reducible exact Or.inr rfl
    | with_reducible exact Or.inl rfl
    | with_reducible exact Or.inr ⟨by assumption, Nat.le_add_right _ _⟩
    | with_reducible apply State.sendResult_within
    | with_reducible apply State.sendFlag_within
    | with_reducible apply State.newId_within
    | split

theorem State.setReq_within {M : Part → Bool} {a0 : State} {s : State} {id : Nat} {f : Req → Req} (m_rq : M .rq = true) (hs : Within M a0 s) : Within M a0 (State.setReq s id f) := by
  unfold State.setReq
  try dsimp only
  repeat' first
    | with_reducible exact hs
    | with_reducible assumption
    | with_reducible exact Or.inl (by assumption)
    | with_reducible exact Or.inr rfl
    | with_reducible exact Or.inl rfl
    | with_reducible exact Or.inr ⟨by assumption, Nat.le_add_right _ _⟩
    | simp only [Within.mk_iff]
    | with_reducible refine Upd.of ?_ ?_ ?_ ?_ ?_ ?_ ?_ ?_ ?_ ?_ ?_ ?_ ?_ ?_ ?_ ?_ ?_ ?_ ?_ ?_ ?_ ?_
    | split

theorem State.sendBlocks_within {M : Part → Bool} {a0 : State} {s : State} {r : Req} {x0 : List Sec} {x1 : Nat} (m_egq : M .egq = true) (m_out : M .out = true) (hs : Within M a0 s) : Within M a0 (State.sendBlocks s r x0 x1).1 := by
  induction x0 generalizing s x1 with
  | nil =>
    unfold State.sendBlocks
    try dsimp only
    repeat' first
      | with_reducible exact hs
      | with_reducible assumption
      | with_reducible exact Or.inl (by assumption)
      | with_reducible exact Or.inr rfl
      | with_reducible exact Or.inl rfl
      | with_reducible exact Or.inr ⟨by assumption, Nat.le_add_right _ _⟩
      | with_reducible apply State.sendResult_within
      | with_reducible apply Within.ite1
      | with_reducible apply Within.ite
      | with_reducible apply Within.ite2
      | with_reducible apply Within.ite3
      | with_reducible apply Within.ite4
      | split
  | cons x l ih =>
    unfold State.sendBlocks
    try dsimp only
    repeat' first
      | with_reducible exact hs
      | with_reducible assumption
      | with_reducible exact Or.inl (by assumption)
      | with_reducible exact Or.inr rfl
      | with_reducible exact Or.inl rfl
      | with_reducible exact Or.inr ⟨by assumption, Nat.le_add_right _ _⟩
      | with_reducible apply State.sendResult_within
      | with_reducible apply ih
      | with_reducible apply Within.ite1
      | with_reducible apply Within.ite
      | with_reducible apply Within.ite2
      | with_reducible apply Within.ite3
      | with_reducible apply Within.ite4
      | split

theorem State.flush_within {M : Part → Bool} {a0 : State} {s : State} {id : Nat} (m_phs : M .phs = true) (m_rq : M .rq = true) (m_egq : M .egq = true) (m_hif : M .hif = true) (m_out : M .out = true) (hs : Within M a0 s) : Within M a0 (State.flush s id) := by
  unfold State.flush
  try dsimp only
  repeat' first
    | with_reducible exact hs
    | with_reducible assumption
    | with_reducible exact Or.inl (by assumption)
    | with_reducible exact Or.inr rfl
    | with_reducible exact Or.inl rfl
    | with_reducible exact Or.inr ⟨by assumption, Nat.le_add_right _ _⟩
    | with_reducible apply State.sendFlag_within
    | with_reducible apply State.setReq_within
    | with_reducible apply State.sendBlocks_within
    | simp only [Within.mk_iff]
    | with_reducible refine Upd.of ?_ ?_ ?_ ?_ ?_ ?_ ?_ ?_ ?_ ?_ ?_ ?_ ?_ ?_ ?_ ?_ ?_ ?_ ?_ ?_ ?_ ?_
    | with_reducible apply Within.ite
    | with_reducible apply Within.ite1
    | with_reducible apply Within.ite2
    | with_reducible apply Within.ite3
    | with_reducible apply Within.ite4
    | split

theorem State.setSec_within {M : Part → Bool} {a0 : State} {s : State} {id i : Nat} {f : Sec → Sec} (m_rq : M .rq = true) (hs : Within M a0 s) : Within M a0 (State.setSec s id i f) := by
  unfold State.setSec
  try dsimp only
  repeat' first
    | with_reducible exact hs
    | with_reducible assumption
    | with_reducible exact Or.inl (by assumption)
    | with_reducible exact Or.inr rfl
    | with_reducible exact Or.inl rfl
    | with_reducible exact Or.inr ⟨by assumption, Nat.le_add_right _ _⟩
    | with_reducible apply State.setReq_within
    | simp only [Within.mk_iff]
    | with_reducible refine Upd.of ?_ ?_ ?_ ?_ ?_ ?_ ?_ ?_ ?_ ?_ ?_ ?_ ?_ ?_ ?_ ?_ ?_ ?_ ?_ ?_ ?_ ?_
    | with_reducible apply Within.ite
    | split

theorem State.endSec_within {M : Part → Bool} {a0 : State} {s : State} {id i : Nat} {st : Status} (m_phs : M .phs = true) (m_rq : M .rq = true) (m_egq : M .egq = true) (m_hif : M .hif = true) (m_out : M .out = true) (hs : Within M a0 s) : Within M a0 (State.endSec s id i st) := by
  unfold State.endSec
  try dsimp only
  repeat' first
    | with_reducible exact hs
    | with_reducible assumption
    | with_reducible exact Or.inl (by assumption)
    | with_reducible exact Or.inr rfl
    | with_reducible exact Or.inl rfl
    | with_reducible exact Or.inr ⟨by assumption, Nat.le_add_right _ _⟩
    | with_reducible apply State.flush_within
    | with_reducible apply State.setSec_within

theorem State.endReqAt_within {M : Part → Bool} {a0 : State} {s : State} {st : Status} {hint : Option Nat} {r : Req} (m_phs : M .phs = true) (m_rq : M .rq = true) (m_hbm : M .hbm = true) (m_rmo : M .rmo = true) (m_egq : M .egq = true) (m_hif : M .hif = true) (m_pd : M .pd = true) (m_boot : M .boot = true) (m_mem : M .mem = true) (m_out : M .out = true) (hs : Within M a0 s) : Within M a0 (State.endReqAt s st hint r) := by
  unfold State.endReqAt
  try dsimp only
  repeat' first
    | with_reducible exact hs
    | with_reducible assumption
    | with_reducible exact Or.inl (by assumption)
    | with_reducible exact Or.inr rfl
    | with_reducible exact Or.inl rfl
    | with_reducible exact Or.inr ⟨by assumption, Nat.le_add_right _ _⟩
    | with_reducible apply State.noReply_within
    | with_reducible apply State.setReq_within
    | with_reducible apply State.flush_within
    | simp only [Within.mk_iff]
    | with_reducible refine Upd.of ?_ ?_ ?_ ?_ ?_ ?_ ?_ ?_ ?_ ?_ ?_ ?_ ?_ ?_ ?_ ?_ ?_ ?_ ?_ ?_ ?_ ?_
    | with_reducible apply Within.ite
    | with_reducible apply Within.ite1
    | with_reducible apply Within.ite2
    | with_reducible apply Within.ite3
    | with_reducible apply Within.ite4
    | split

theorem State.endReq_within {M : Part → Bool} {a0 : State} {s : State} {st : Status} {r : Req} (m_phs : M .phs = true) (m_rq : M .rq = true) (m_hbm : M .hbm = true) (m_rmo : M .rmo = true) (m_egq : M .egq = true) (m_hif : M .hif = true) (m_pd : M .pd = true) (m_boot : M .boot = true) (m_mem : M .mem = true) (m_out : M .out = true) (hs : Within M a0 s) : Within M a0 (State.endReq s st r) := by
  unfold State.endReq
  try dsimp only
  repeat' first
    | with_reducible exact hs
    | with_reducible assumption
    | with_reducible exact Or.inl (by assumption)
    | with_reducible exact Or.inr rfl
    | with_reducible exact Or.inl rfl
    | with_reducible exact Or.inr ⟨by assumption, Nat.le_add_right _ _⟩
    | with_reducible apply State.endReqAt_within

theorem State.refuseSearch_within {M : Part → Bool} {a0 : State} {s : State} {src : Source} {r : SearchReq} {q : Option Nat} {st : Status} {contract : Bool} (m_rq : M .rq = true) (m_egq : M .egq = true) (m_hif : M .hif = true) (m_out : M .out = true) (hs : Within M a0 s) : Within M a0 (State.refuseSearch s src r q st contract) := by
  unfold State.refuseSearch
  try dsimp only
  repeat' first
    | with_reducible exact hs
    | with_reducible assumption
    | with_reducible exact Or.inl (by assumption)
    | with_reducible exact Or.inr rfl
    | with_reducible exact Or.inl rfl
    | with_reducible exact Or.inr ⟨by assumption, Nat.le_add_right _ _⟩
    | with_reducible apply State.sendResult_within
    | with_reducible apply State.sendFlag_within
    | with_reducible apply State.newId_within
    | split

theorem State.endSearch_within {M : Part → Bool} {a0 : State} {s : State} {st : Status} {r : Search} (m_rq : M .rq = true) (m_hbm : M .hbm = true) (m_rmo : M .rmo = true) (m_egq : M .egq = true) (m_hif : M .hif = true) (m_pd : M .pd = true) (m_boot : M .boot = true) (m_mem : M .mem = true) (m_out : M .out = true) (hs : Within M a0 s) : Within M a0 (State.endSearch s st r) := by
  unfold State.endSearch
  try dsimp only
  repeat' first
    | with_reducible exact hs
    | with_reducible assumption
    | with_reducible exact Or.inl (by assumption)
    | with_reducible exact Or.inr rfl
    | with_reducible exact Or.inl rfl
    | with_reducible exact Or.inr ⟨by assumption, Nat.le_add_right _ _⟩
    | with_reducible apply State.noReply_within
    | with_reducible apply State.refuseSearch_within
    | simp only [Within.mk_iff]
    | with_reducible refine Upd.of ?_ ?_ ?_ ?_ ?_ ?_ ?_ ?_ ?_ ?_ ?_ ?_ ?_ ?_ ?_ ?_ ?_ ?_ ?_ ?_ ?_ ?_
    | with_reducible apply Within.ite
    | with_reducible apply Within.ite1
    | with_reducible apply Within.ite2
    | with_reducible apply Within.ite3
    | with_reducible apply Within.ite4
    | split

theorem State.endAll_within {M : Part → Bool} {a0 : State} {s : State} {p : Nat → Nat → Bool} {st : Status} (m_phs : M .phs = true) (m_rq : M .rq = true) (m_hbm : M .hbm = true) (m_rmo : M .rmo = true) (m_egq : M .egq = true) (m_hif : M .hif = true) (m_pd : M .pd = true) (m_boot : M .boot = true) (m_mem : M .mem = true) (m_out : M .out = true) (hs : Within M a0 s) : Within M a0 (State.endAll s p st) := by
  unfold State.endAll
  try dsimp only
  repeat' first
    | with_reducible exact hs
    | with_reducible assumption
    | with_reducible exact Or.inl (by assumption)
    | with_reducible exact Or.inr rfl
    | with_reducible exact Or.inl rfl
    | with_reducible exact Or.inr ⟨by assumption, Nat.le_add_right _ _⟩
    | with_reducible apply State.endReq_within
    | with_reducible apply State.endSearch_within
    | with_reducible refine Within.foldl ?_ (fun _ _ hs => ?_)
    | with_reducible refine Within.foldl1 ?_ (fun _ _ hs => ?_)
    | with_reducible refine Within.foldl2 ?_ (fun _ _ hs => ?_)

theorem State.refuseAttend_within {M : Part → Bool} {a0 : State} {s : State} {src : Source} {r : AttendReq} {st : Status} {hint : Option Nat} (m_rq : M .rq = true) (m_hbm : M .hbm = true) (m_rmo : M .rmo = true) (m_egq : M .egq = true) (m_hif : M .hif = true) (m_pd : M .pd = true) (m_boot : M .boot = true) (m_mem : M .mem = true) (m_out : M .out = true) (hs : Within M a0 s) : Within M a0 (State.refuseAttend s src r st hint) := by
  unfold State.refuseAttend
  try dsimp only
  repeat' first
    | with_reducible exact hs
    | with_reducible assumption
    | with_reducible exact Or.inl (by assumption)
    | with_reducible exact Or.inr rfl
    | with_reducible exact Or.inl rfl
    | with_reducible exact Or.inr ⟨by assumption, Nat.le_add_right _ _⟩
    | with_reducible apply State.noReply_within
    | with_reducible apply State.sendResult_within
    | with_reducible apply State.sendFlag_within
    | with_reducible apply State.newId_within
    | with_reducible apply Within.ite
    | with_reducible apply Within.ite1
    | with_reducible apply Within.ite2
    | with_reducible apply Within.ite3
    | with_reducible apply Within.ite4
    | split


end Sys2Proof.Machine
end

