-- ==== Sys2Proof/Laws/WithinScope.lean ====
section
/-! SUPPORT. Which parts of the state the operations of Machine/Scope.lean may move, and that they are steady. -/

set_option linter.unusedTactic false
set_option linter.unreachableTactic false

namespace Sys2Proof.Machine

theorem State.mgmtSend_within {M : Part → Bool} {a0 : State} {s : State} {dest : Nat} {b : List Byte} (m_lnk : M .lnk = true) (hs : Within M a0 s) : Within M a0 (State.mgmtSend s dest b) := by
  unfold State.mgmtSend
  try dsimp only
  repeat' first
    | with_reducible exact hs
    | with_reducible assumption
    | with_reducible exact Or.inl (by assumption)
    | with_reducible exact Or.inr rfl
    | with_reducible exact Or.inl rfl
    | with_reducible exact Or.inr ⟨by assumption, Nat.le_add_right _ _⟩
    | simp only [Within.mk_iff]
    | with_reducible refine Upd.of ?_ ?_ ?_ ?_ ?_ ?_ ?_ ?_ ?_ ?_ ?_ ?_ ?_ ?_ ?_ ?_ ?_ ?_ ?_ ?_ ?_ ?_
    | with_reducible apply Within.ite
    | split

theorem State.mgmtLeaves_within {M : Part → Bool} {a0 : State} {s : State} {out : List (Nat × List Byte)} (m_lnk : M .lnk = true) (hs : Within M a0 s) : Within M a0 (State.mgmtLeaves s out) := by
  unfold State.mgmtLeaves
  try dsimp only
  repeat' first
    | with_reducible exact hs
    | with_reducible assumption
    | with_reducible exact Or.inl (by assumption)
    | with_reducible exact Or.inr rfl
    | with_reducible exact Or.inl rfl
    | with_reducible exact Or.inr ⟨by assumption, Nat.le_add_right _ _⟩
    | simp only [Within.mk_iff]
    | with_reducible refine Upd.of ?_ ?_ ?_ ?_ ?_ ?_ ?_ ?_ ?_ ?_ ?_ ?_ ?_ ?_ ?_ ?_ ?_ ?_ ?_ ?_ ?_ ?_

theorem State.sendNotice_within {M : Part → Bool} {a0 : State} {s : State} {n : Notice} (m_lnk : M .lnk = true) (m_out : M .out = true) (hs : Within M a0 s) : Within M a0 (State.sendNotice s n) := by
  unfold State.sendNotice
  try dsimp only
  repeat' first
    | with_reducible exact hs
    | with_reducible assumption
    | with_reducible exact Or.inl (by assumption)
    | with_reducible exact Or.inr rfl
    | with_reducible exact Or.inl rfl
    | with_reducible exact Or.inr ⟨by assumption, Nat.le_add_right _ _⟩
    | with_reducible apply State.emit_within
    | with_reducible apply State.mgmtSend_within
    | with_reducible apply Within.ite
    | with_reducible apply Within.ite1
    | with_reducible apply Within.ite2
    | with_reducible apply Within.ite3
    | with_reducible apply Within.ite4
    | split

theorem State.raiseScope_within {M : Part → Bool} {a0 : State} {s : State} {scope subj : Nat} {comp : Option Nat} (m_hbm : M .hbm = true) (m_lnk : M .lnk = true) (m_rmo : M .rmo = true) (m_pd : M .pd = true) (m_boot : M .boot = true) (m_mem : M .mem = true) (m_out : M .out = true) (hs : Within M a0 s) : Within M a0 (State.raiseScope s scope subj comp) := by
  unfold State.raiseScope
  try dsimp only
  repeat' first
    | with_reducible exact hs
    | with_reducible assumption
    | with_reducible exact Or.inl (by assumption)
    | with_reducible exact Or.inr rfl
    | with_reducible exact Or.inl rfl
    | with_reducible exact Or.inr ⟨by assumption, Nat.le_add_right _ _⟩
    | with_reducible apply State.event_within
    | with_reducible apply State.sendNotice_within
    | split

theorem State.dataLost_within {M : Part → Bool} {a0 : State} {s : State} {c job n : Nat} (m_hbm : M .hbm = true) (m_rmo : M .rmo = true) (m_pd : M .pd = true) (m_boot : M .boot = true) (m_mem : M .mem = true) (m_out : M .out = true) (hs : Within M a0 s) : Within M a0 (State.dataLost s c job n) := by
  unfold State.dataLost
  try dsimp only
  repeat' first
    | with_reducible exact hs
    | with_reducible assumption
    | with_reducible exact Or.inl (by assumption)
    | with_reducible exact Or.inr rfl
    | with_reducible exact Or.inl rfl
    | with_reducible exact Or.inr ⟨by assumption, Nat.le_add_right _ _⟩
    | with_reducible apply State.event_within
    | split

theorem State.streamsLost_within {M : Part → Bool} {a0 : State} {s : State} {p : Cat → Bool} (m_tier : M .tier = true) (hs : Within M a0 s) : Within M a0 (State.streamsLost s p) := by
  unfold State.streamsLost
  try dsimp only
  repeat' first
    | with_reducible exact hs
    | with_reducible assumption
    | with_reducible exact Or.inl (by assumption)
    | with_reducible exact Or.inr rfl
    | with_reducible exact Or.inl rfl
    | with_reducible exact Or.inr ⟨by assumption, Nat.le_add_right _ _⟩
    | simp only [Within.mk_iff]
    | with_reducible refine Upd.of ?_ ?_ ?_ ?_ ?_ ?_ ?_ ?_ ?_ ?_ ?_ ?_ ?_ ?_ ?_ ?_ ?_ ?_ ?_ ?_ ?_ ?_
    | with_reducible apply Within.ite
    | split

theorem State.recordLost_within {M : Part → Bool} {a0 : State} {s : State} {c : Corpus} {seg : Nat} (m_rq : M .rq = true) (m_hbm : M .hbm = true) (m_rmo : M .rmo = true) (m_egq : M .egq = true) (m_hif : M .hif = true) (m_pd : M .pd = true) (m_boot : M .boot = true) (m_mem : M .mem = true) (m_out : M .out = true) (hs : Within M a0 s) : Within M a0 (State.recordLost s c seg) := by
  unfold State.recordLost
  try dsimp only
  repeat' first
    | with_reducible exact hs
    | with_reducible assumption
    | with_reducible exact Or.inl (by assumption)
    | with_reducible exact Or.inr rfl
    | with_reducible exact Or.inl rfl
    | with_reducible exact Or.inr ⟨by assumption, Nat.le_add_right _ _⟩
    | with_reducible apply State.endSearch_within
    | with_reducible apply State.dataLost_within
    | with_reducible refine Within.foldl ?_ (fun _ _ hs => ?_)
    | with_reducible refine Within.foldl1 ?_ (fun _ _ hs => ?_)
    | with_reducible refine Within.foldl2 ?_ (fun _ _ hs => ?_)
    | split

theorem State.scansLost_within {M : Part → Bool} {a0 : State} {s : State} {a : Nat} (m_rq : M .rq = true) (m_hbm : M .hbm = true) (m_rmo : M .rmo = true) (m_egq : M .egq = true) (m_hif : M .hif = true) (m_pd : M .pd = true) (m_boot : M .boot = true) (m_mem : M .mem = true) (m_out : M .out = true) (hs : Within M a0 s) : Within M a0 (State.scansLost s a) := by
  unfold State.scansLost
  try dsimp only
  repeat' first
    | with_reducible exact hs
    | with_reducible assumption
    | with_reducible exact Or.inl (by assumption)
    | with_reducible exact Or.inr rfl
    | with_reducible exact Or.inl rfl
    | with_reducible exact Or.inr ⟨by assumption, Nat.le_add_right _ _⟩
    | with_reducible apply State.endSearch_within
    | with_reducible refine Within.foldl ?_ (fun _ _ hs => ?_)
    | with_reducible refine Within.foldl1 ?_ (fun _ _ hs => ?_)
    | with_reducible refine Within.foldl2 ?_ (fun _ _ hs => ?_)
    | split

theorem State.frameLost_within {M : Part → Bool} {a0 : State} {s : State} {a : Nat} (m_rq : M .rq = true) (hs : Within M a0 s) : Within M a0 (State.frameLost s a) := by
  unfold State.frameLost
  try dsimp only
  repeat' first
    | with_reducible exact hs
    | with_reducible assumption
    | with_reducible exact Or.inl (by assumption)
    | with_reducible exact Or.inr rfl
    | with_reducible exact Or.inl rfl
    | with_reducible exact Or.inr ⟨by assumption, Nat.le_add_right _ _⟩
    | simp only [Within.mk_iff]
    | with_reducible refine Upd.of ?_ ?_ ?_ ?_ ?_ ?_ ?_ ?_ ?_ ?_ ?_ ?_ ?_ ?_ ?_ ?_ ?_ ?_ ?_ ?_ ?_ ?_
    | with_reducible apply Within.ite
    | split

theorem State.eccBad_within {M : Part → Bool} {a0 : State} {s : State} {port a : Nat} (m_rq : M .rq = true) (m_hbm : M .hbm = true) (m_tier : M .tier = true) (m_lnk : M .lnk = true) (m_rmo : M .rmo = true) (m_egq : M .egq = true) (m_rel : M .rel = true) (m_hif : M .hif = true) (m_pd : M .pd = true) (m_boot : M .boot = true) (m_mem : M .mem = true) (m_out : M .out = true) (hs : Within M a0 s) : Within M a0 (State.eccBad s port a) := by
  unfold State.eccBad
  try dsimp only
  repeat' first
    | with_reducible exact hs
    | with_reducible assumption
    | with_reducible exact Or.inl (by assumption)
    | with_reducible exact Or.inr rfl
    | with_reducible exact Or.inl rfl
    | with_reducible exact Or.inr ⟨by assumption, Nat.le_add_right _ _⟩
    | with_reducible apply State.count_within
    | with_reducible apply State.raiseScope_within
    | with_reducible apply State.dataLost_within
    | with_reducible apply State.streamsLost_within
    | with_reducible apply State.recordLost_within
    | with_reducible apply State.scansLost_within
    | with_reducible apply State.frameLost_within
    | simp only [Within.mk_iff]
    | with_reducible refine Upd.of ?_ ?_ ?_ ?_ ?_ ?_ ?_ ?_ ?_ ?_ ?_ ?_ ?_ ?_ ?_ ?_ ?_ ?_ ?_ ?_ ?_ ?_
    | with_reducible apply Within.ite
    | with_reducible apply Within.ite1
    | with_reducible apply Within.ite2
    | with_reducible apply Within.ite3
    | with_reducible apply Within.ite4
    | split

theorem State.eccFixed_within {M : Part → Bool} {a0 : State} {s : State} {a : Nat} (m_rel : M .rel = true) (m_pd : M .pd = true) (hs : Within M a0 s) : Within M a0 (State.eccFixed s a) := by
  unfold State.eccFixed
  try dsimp only
  repeat' first
    | with_reducible exact hs
    | with_reducible assumption
    | with_reducible exact Or.inl (by assumption)
    | with_reducible exact Or.inr rfl
    | with_reducible exact Or.inl rfl
    | with_reducible exact Or.inr ⟨by assumption, Nat.le_add_right _ _⟩
    | with_reducible apply State.count_within
    | simp only [Within.mk_iff]
    | with_reducible refine Upd.of ?_ ?_ ?_ ?_ ?_ ?_ ?_ ?_ ?_ ?_ ?_ ?_ ?_ ?_ ?_ ?_ ?_ ?_ ?_ ?_ ?_ ?_

theorem State.poison_within {M : Part → Bool} {a0 : State} {s : State} {n : Nat} (m_free : M .free = true) (hs : Within M a0 s) : Within M a0 (State.poison s n).2 := by
  unfold State.poison
  try dsimp only
  repeat' first
    | with_reducible exact hs
    | with_reducible assumption
    | with_reducible exact Or.inl (by assumption)
    | with_reducible exact Or.inr rfl
    | with_reducible exact Or.inl rfl
    | with_reducible exact Or.inr ⟨by assumption, Nat.le_add_right _ _⟩
    | simp only [Within.mk_iff]
    | with_reducible refine Upd.of ?_ ?_ ?_ ?_ ?_ ?_ ?_ ?_ ?_ ?_ ?_ ?_ ?_ ?_ ?_ ?_ ?_ ?_ ?_ ?_ ?_ ?_
    | split


end Sys2Proof.Machine
end

