-- ==== Sys2Proof/Laws/WithinHbm.lean ====
section
/-! SUPPORT. Which parts of the state the operations of Machine/Hbm.lean may move, and that they are steady. -/

set_option linter.unusedTactic false
set_option linter.unreachableTactic false

namespace Sys2Proof.Machine

theorem State.setArb_within {M : Part → Bool} {a0 : State} {s : State} {g : Nat} {a : Arb} (m_hbm : M .hbm = true) (hs : Within M a0 s) : Within M a0 (State.setArb s g a) := by
  unfold State.setArb
  try dsimp only
  repeat' first
    | with_reducible exact hs
    | with_reducible assumption
    | with_reducible exact Or.inl (by assumption)
    | with_reducible exact Or.inr rfl
    | with_reducible exact Or.inl rfl
    | with_reducible exact Or.inr ⟨by assumption, Nat.le_add_right _ _⟩
    | simp only [Within.mk_iff]
    | with_reducible refine Upd.of ?_ ?_ ?_ ?_ ?_ ?_ ?_ ?_ ?_ ?_ ?_ ?_ ?_ ?_ ?_ ?_ ?_ ?_ ?_ ?_ ?_ ?_

theorem State.raise_within {M : Part → Bool} {a0 : State} {s : State} {g : Nat} {qs : List ArbReq} (m_hbm : M .hbm = true) (m_pd : M .pd = true) (m_out : M .out = true) (hs : Within M a0 s) : Within M a0 (State.raise s g qs) := by
  unfold State.raise
  try dsimp only
  repeat' first
    | with_reducible exact hs
    | with_reducible assumption
    | with_reducible exact Or.inl (by assumption)
    | with_reducible exact Or.inr rfl
    | with_reducible exact Or.inl rfl
    | with_reducible exact Or.inr ⟨by assumption, Nat.le_add_right _ _⟩
    | with_reducible apply State.emit_within
    | with_reducible apply State.count_within
    | with_reducible apply State.setArb_within
    | simp only [Within.mk_iff]
    | with_reducible refine Upd.of ?_ ?_ ?_ ?_ ?_ ?_ ?_ ?_ ?_ ?_ ?_ ?_ ?_ ?_ ?_ ?_ ?_ ?_ ?_ ?_ ?_ ?_
    | with_reducible apply Within.ite
    | with_reducible refine Within.foldl ?_ (fun _ _ hs => ?_)
    | with_reducible refine Within.foldl1 ?_ (fun _ _ hs => ?_)
    | with_reducible refine Within.foldl2 ?_ (fun _ _ hs => ?_)
    | split

theorem State.fillLine_within {M : Part → Bool} {a0 : State} {s : State} {port a : Nat} (m_hbm : M .hbm = true) (m_free : M .free = true) (hs : Within M a0 s) : Within M a0 (State.fillLine s port a) := by
  unfold State.fillLine
  try dsimp only
  repeat' first
    | with_reducible exact hs
    | with_reducible assumption
    | with_reducible exact Or.inl (by assumption)
    | with_reducible exact Or.inr rfl
    | with_reducible exact Or.inl rfl
    | with_reducible exact Or.inr ⟨by assumption, Nat.le_add_right _ _⟩
    | simp only [Within.mk_iff]
    | with_reducible refine Upd.of ?_ ?_ ?_ ?_ ?_ ?_ ?_ ?_ ?_ ?_ ?_ ?_ ?_ ?_ ?_ ?_ ?_ ?_ ?_ ?_ ?_ ?_
    | with_reducible apply Within.ite
    | with_reducible apply Within.ite1
    | with_reducible apply Within.ite2
    | with_reducible apply Within.ite3
    | with_reducible apply Within.ite4
    | split

theorem State.transfer_within {M : Part → Bool} {a0 : State} {s : State} {q : ArbReq} {ecc : Ecc} (m_rq : M .rq = true) (m_hbm : M .hbm = true) (m_tier : M .tier = true) (m_lnk : M .lnk = true) (m_rmo : M .rmo = true) (m_egq : M .egq = true) (m_rel : M .rel = true) (m_hif : M .hif = true) (m_pd : M .pd = true) (m_boot : M .boot = true) (m_mem : M .mem = true) (m_out : M .out = true) (m_free : M .free = true) (hs : Within M a0 s) : Within M a0 (State.transfer s q ecc) := by
  unfold State.transfer
  try dsimp only
  repeat' first
    | with_reducible exact hs
    | with_reducible assumption
    | with_reducible exact Or.inl (by assumption)
    | with_reducible exact Or.inr rfl
    | with_reducible exact Or.inl rfl
    | with_reducible exact Or.inr ⟨by assumption, Nat.le_add_right _ _⟩
    | with_reducible apply State.store_within
    | with_reducible apply State.eccBad_within
    | with_reducible apply State.eccFixed_within
    | with_reducible apply State.fillLine_within
    | with_reducible apply State.store_within
    | with_reducible apply Within.ite
    | with_reducible apply Within.ite1
    | with_reducible apply Within.ite2
    | with_reducible apply Within.ite3
    | with_reducible apply Within.ite4
    | split

theorem State.withdraw_within {M : Part → Bool} {a0 : State} {s : State} {g : Nat} {ports : List Nat} (m_hbm : M .hbm = true) (m_pd : M .pd = true) (hs : Within M a0 s) : Within M a0 (State.withdraw s g ports) := by
  unfold State.withdraw
  try dsimp only
  repeat' first
    | with_reducible exact hs
    | with_reducible assumption
    | with_reducible exact Or.inl (by assumption)
    | with_reducible exact Or.inr rfl
    | with_reducible exact Or.inl rfl
    | with_reducible exact Or.inr ⟨by assumption, Nat.le_add_right _ _⟩
    | with_reducible apply State.countC_within
    | with_reducible apply State.setArb_within
    | simp only [Within.mk_iff]
    | with_reducible refine Upd.of ?_ ?_ ?_ ?_ ?_ ?_ ?_ ?_ ?_ ?_ ?_ ?_ ?_ ?_ ?_ ?_ ?_ ?_ ?_ ?_ ?_ ?_
    | with_reducible apply Within.ite
    | with_reducible apply Within.ite1
    | with_reducible apply Within.ite2
    | with_reducible apply Within.ite3
    | with_reducible apply Within.ite4
    | with_reducible refine Within.foldl ?_ (fun _ _ hs => ?_)
    | with_reducible refine Within.foldl1 ?_ (fun _ _ hs => ?_)
    | with_reducible refine Within.foldl2 ?_ (fun _ _ hs => ?_)
    | split

theorem State.keepTick_within {M : Part → Bool} {a0 : State} {s : State} (m_hbm : M .hbm = true) (hs : Within M a0 s) : Within M a0 (State.keepTick s) := by
  unfold State.keepTick
  try dsimp only
  repeat' first
    | with_reducible exact hs
    | with_reducible assumption
    | with_reducible exact Or.inl (by assumption)
    | with_reducible exact Or.inr rfl
    | with_reducible exact Or.inl rfl
    | with_reducible exact Or.inr ⟨by assumption, Nat.le_add_right _ _⟩
    | simp only [Within.mk_iff]
    | with_reducible refine Upd.of ?_ ?_ ?_ ?_ ?_ ?_ ?_ ?_ ?_ ?_ ?_ ?_ ?_ ?_ ?_ ?_ ?_ ?_ ?_ ?_ ?_ ?_

theorem State.setGov_within {M : Part → Bool} {a0 : State} {s : State} {w : Nat} {g : Gov} (m_hbm : M .hbm = true) (hs : Within M a0 s) : Within M a0 (State.setGov s w g) := by
  unfold State.setGov
  try dsimp only
  repeat' first
    | with_reducible exact hs
    | with_reducible assumption
    | with_reducible exact Or.inl (by assumption)
    | with_reducible exact Or.inr rfl
    | with_reducible exact Or.inl rfl
    | with_reducible exact Or.inr ⟨by assumption, Nat.le_add_right _ _⟩
    | simp only [Within.mk_iff]
    | with_reducible refine Upd.of ?_ ?_ ?_ ?_ ?_ ?_ ?_ ?_ ?_ ?_ ?_ ?_ ?_ ?_ ?_ ?_ ?_ ?_ ?_ ?_ ?_ ?_

theorem State.setNmu_within {M : Part → Bool} {a0 : State} {s : State} {w ch : Nat} {n : Nmu} (m_hbm : M .hbm = true) (hs : Within M a0 s) : Within M a0 (State.setNmu s w ch n) := by
  unfold State.setNmu
  try dsimp only
  repeat' first
    | with_reducible exact hs
    | with_reducible assumption
    | with_reducible exact Or.inl (by assumption)
    | with_reducible exact Or.inr rfl
    | with_reducible exact Or.inl rfl
    | with_reducible exact Or.inr ⟨by assumption, Nat.le_add_right _ _⟩
    | simp only [Within.mk_iff]
    | with_reducible refine Upd.of ?_ ?_ ?_ ?_ ?_ ?_ ?_ ?_ ?_ ?_ ?_ ?_ ?_ ?_ ?_ ?_ ?_ ?_ ?_ ?_ ?_ ?_

theorem State.holdRaised_within {M : Part → Bool} {a0 : State} {s : State} {g b : Nat} (m_hbm : M .hbm = true) (m_pd : M .pd = true) (hs : Within M a0 s) : Within M a0 (State.holdRaised s g b) := by
  unfold State.holdRaised
  try dsimp only
  repeat' first
    | with_reducible exact hs
    | with_reducible assumption
    | with_reducible exact Or.inl (by assumption)
    | with_reducible exact Or.inr rfl
    | with_reducible exact Or.inl rfl
    | with_reducible exact Or.inr ⟨by assumption, Nat.le_add_right _ _⟩
    | with_reducible apply State.count_within
    | with_reducible apply State.setArb_within
    | simp only [Within.mk_iff]
    | with_reducible refine Upd.of ?_ ?_ ?_ ?_ ?_ ?_ ?_ ?_ ?_ ?_ ?_ ?_ ?_ ?_ ?_ ?_ ?_ ?_ ?_ ?_ ?_ ?_
    | with_reducible refine Within.foldl ?_ (fun _ _ hs => ?_)
    | with_reducible refine Within.foldl1 ?_ (fun _ _ hs => ?_)
    | with_reducible refine Within.foldl2 ?_ (fun _ _ hs => ?_)
    | split

theorem State.compute_within {M : Part → Bool} {a0 : State} {s : State} {w ch : Nat} {banks : List Nat} {on : Bool} (m_hbm : M .hbm = true) (m_pd : M .pd = true) (hs : Within M a0 s) : Within M a0 (State.compute s w ch banks on) := by
  unfold State.compute
  try dsimp only
  repeat' first
    | with_reducible exact hs
    | with_reducible assumption
    | with_reducible exact Or.inl (by assumption)
    | with_reducible exact Or.inr rfl
    | with_reducible exact Or.inl rfl
    | with_reducible exact Or.inr ⟨by assumption, Nat.le_add_right _ _⟩
    | with_reducible apply State.setArb_within
    | with_reducible apply State.holdRaised_within
    | simp only [Within.mk_iff]
    | with_reducible refine Upd.of ?_ ?_ ?_ ?_ ?_ ?_ ?_ ?_ ?_ ?_ ?_ ?_ ?_ ?_ ?_ ?_ ?_ ?_ ?_ ?_ ?_ ?_
    | with_reducible apply Within.ite
    | with_reducible refine Within.foldl ?_ (fun _ _ hs => ?_)
    | with_reducible refine Within.foldl1 ?_ (fun _ _ hs => ?_)
    | with_reducible refine Within.foldl2 ?_ (fun _ _ hs => ?_)
    | split

theorem State.hostRead_within {M : Part → Bool} {a0 : State} {s : State} {fn npa len : Nat} {errs : List (List Nat)} (m_rq : M .rq = true) (m_hbm : M .hbm = true) (m_tier : M .tier = true) (m_lnk : M .lnk = true) (m_rmo : M .rmo = true) (m_egq : M .egq = true) (m_rel : M .rel = true) (m_hif : M .hif = true) (m_pd : M .pd = true) (m_boot : M .boot = true) (m_mem : M .mem = true) (m_out : M .out = true) (m_free : M .free = true) (hs : Within M a0 s) : Within M a0 (State.hostRead s fn npa len errs) := by
  unfold State.hostRead
  try dsimp only
  repeat' first
    | with_reducible exact hs
    | with_reducible assumption
    | with_reducible exact Or.inl (by assumption)
    | with_reducible exact Or.inr rfl
    | with_reducible exact Or.inl rfl
    | with_reducible exact Or.inr ⟨by assumption, Nat.le_add_right _ _⟩
    | with_reducible apply State.emit_within
    | with_reducible apply State.count_within
    | with_reducible apply State.eccBad_within
    | with_reducible apply State.eccFixed_within
    | with_reducible apply State.poison_within
    | with_reducible apply Within.ite
    | with_reducible apply Within.ite1
    | with_reducible apply Within.ite2
    | with_reducible apply Within.ite3
    | with_reducible apply Within.ite4
    | split

theorem State.serveHeld_within {M : Part → Bool} {a0 : State} {s : State} (m_rq : M .rq = true) (m_hbm : M .hbm = true) (m_tier : M .tier = true) (m_lnk : M .lnk = true) (m_rmo : M .rmo = true) (m_egq : M .egq = true) (m_rel : M .rel = true) (m_hif : M .hif = true) (m_pd : M .pd = true) (m_boot : M .boot = true) (m_mem : M .mem = true) (m_out : M .out = true) (m_free : M .free = true) (hs : Within M a0 s) : Within M a0 (State.serveHeld s) := by
  unfold State.serveHeld
  try dsimp only
  repeat' first
    | with_reducible exact hs
    | with_reducible assumption
    | with_reducible exact Or.inl (by assumption)
    | with_reducible exact Or.inr rfl
    | with_reducible exact Or.inl rfl
    | with_reducible exact Or.inr ⟨by assumption, Nat.le_add_right _ _⟩
    | with_reducible apply State.store_within
    | with_reducible apply State.hostRead_within
    | with_reducible apply State.store_within
    | simp only [Within.mk_iff]
    | with_reducible refine Upd.of ?_ ?_ ?_ ?_ ?_ ?_ ?_ ?_ ?_ ?_ ?_ ?_ ?_ ?_ ?_ ?_ ?_ ?_ ?_ ?_ ?_ ?_
    | with_reducible apply Within.ite
    | with_reducible apply Within.ite1
    | with_reducible apply Within.ite2
    | with_reducible apply Within.ite3
    | with_reducible apply Within.ite4
    | with_reducible refine Within.foldl ?_ (fun _ _ hs => ?_)
    | with_reducible refine Within.foldl1 ?_ (fun _ _ hs => ?_)
    | with_reducible refine Within.foldl2 ?_ (fun _ _ hs => ?_)
    | split

theorem State.releaseBanks_within {M : Part → Bool} {a0 : State} {s : State} {w ch : Nat} {n : Nmu} (m_rq : M .rq = true) (m_hbm : M .hbm = true) (m_tier : M .tier = true) (m_lnk : M .lnk = true) (m_rmo : M .rmo = true) (m_egq : M .egq = true) (m_rel : M .rel = true) (m_hif : M .hif = true) (m_pd : M .pd = true) (m_boot : M .boot = true) (m_mem : M .mem = true) (m_out : M .out = true) (m_free : M .free = true) (hs : Within M a0 s) : Within M a0 (State.releaseBanks s w ch n) := by
  unfold State.releaseBanks
  try dsimp only
  repeat' first
    | with_reducible exact hs
    | with_reducible assumption
    | with_reducible exact Or.inl (by assumption)
    | with_reducible exact Or.inr rfl
    | with_reducible exact Or.inl rfl
    | with_reducible exact Or.inr ⟨by assumption, Nat.le_add_right _ _⟩
    | with_reducible apply State.compute_within
    | with_reducible apply State.serveHeld_within

theorem State.nmuDrop_within {M : Part → Bool} {a0 : State} {s : State} {w ch : Nat} (m_rq : M .rq = true) (m_hbm : M .hbm = true) (m_tier : M .tier = true) (m_lnk : M .lnk = true) (m_rmo : M .rmo = true) (m_egq : M .egq = true) (m_rel : M .rel = true) (m_hif : M .hif = true) (m_pd : M .pd = true) (m_boot : M .boot = true) (m_mem : M .mem = true) (m_out : M .out = true) (m_free : M .free = true) (hs : Within M a0 s) : Within M a0 (State.nmuDrop s w ch) := by
  unfold State.nmuDrop
  try dsimp only
  repeat' first
    | with_reducible exact hs
    | with_reducible assumption
    | with_reducible exact Or.inl (by assumption)
    | with_reducible exact Or.inr rfl
    | with_reducible exact Or.inl rfl
    | with_reducible exact Or.inr ⟨by assumption, Nat.le_add_right _ _⟩
    | with_reducible apply State.count_within
    | with_reducible apply State.setGov_within
    | with_reducible apply State.setNmu_within
    | with_reducible apply State.releaseBanks_within
    | simp only [Within.mk_iff]
    | with_reducible refine Upd.of ?_ ?_ ?_ ?_ ?_ ?_ ?_ ?_ ?_ ?_ ?_ ?_ ?_ ?_ ?_ ?_ ?_ ?_ ?_ ?_ ?_ ?_
    | with_reducible apply Within.ite
    | split

theorem State.nmuAbort_within {M : Part → Bool} {a0 : State} {s : State} {w ch : Nat} (m_rq : M .rq = true) (m_hbm : M .hbm = true) (m_tier : M .tier = true) (m_lnk : M .lnk = true) (m_rmo : M .rmo = true) (m_egq : M .egq = true) (m_rel : M .rel = true) (m_hif : M .hif = true) (m_pd : M .pd = true) (m_boot : M .boot = true) (m_mem : M .mem = true) (m_out : M .out = true) (m_free : M .free = true) (hs : Within M a0 s) : Within M a0 (State.nmuAbort s w ch) := by
  unfold State.nmuAbort
  try dsimp only
  repeat' first
    | with_reducible exact hs
    | with_reducible assumption
    | with_reducible exact Or.inl (by assumption)
    | with_reducible exact Or.inr rfl
    | with_reducible exact Or.inl rfl
    | with_reducible exact Or.inr ⟨by assumption, Nat.le_add_right _ _⟩
    | with_reducible apply State.compute_within
    | with_reducible apply State.nmuDrop_within
    | with_reducible apply Within.ite
    | split

theorem State.nmuAbortAll_within {M : Part → Bool} {a0 : State} {s : State} (m_rq : M .rq = true) (m_hbm : M .hbm = true) (m_tier : M .tier = true) (m_lnk : M .lnk = true) (m_rmo : M .rmo = true) (m_egq : M .egq = true) (m_rel : M .rel = true) (m_hif : M .hif = true) (m_pd : M .pd = true) (m_boot : M .boot = true) (m_mem : M .mem = true) (m_out : M .out = true) (m_free : M .free = true) (hs : Within M a0 s) : Within M a0 (State.nmuAbortAll s) := by
  unfold State.nmuAbortAll
  try dsimp only
  repeat' first
    | with_reducible exact hs
    | with_reducible assumption
    | with_reducible exact Or.inl (by assumption)
    | with_reducible exact Or.inr rfl
    | with_reducible exact Or.inl rfl
    | with_reducible exact Or.inr ⟨by assumption, Nat.le_add_right _ _⟩
    | with_reducible apply State.nmuAbort_within
    | with_reducible refine Within.foldl ?_ (fun _ _ hs => ?_)
    | with_reducible refine Within.foldl1 ?_ (fun _ _ hs => ?_)
    | with_reducible refine Within.foldl2 ?_ (fun _ _ hs => ?_)

theorem State.writeGov_within {M : Part → Bool} {a0 : State} {s : State} {w : Nat} {v : BitVec 32} (m_hbm : M .hbm = true) (hs : Within M a0 s) : Within M a0 (State.writeGov s w v) := by
  unfold State.writeGov
  try dsimp only
  repeat' first
    | with_reducible exact hs
    | with_reducible assumption
    | with_reducible exact Or.inl (by assumption)
    | with_reducible exact Or.inr rfl
    | with_reducible exact Or.inl rfl
    | with_reducible exact Or.inr ⟨by assumption, Nat.le_add_right _ _⟩
    | with_reducible apply State.setGov_within
    | simp only [Within.mk_iff]
    | with_reducible refine Upd.of ?_ ?_ ?_ ?_ ?_ ?_ ?_ ?_ ?_ ?_ ?_ ?_ ?_ ?_ ?_ ?_ ?_ ?_ ?_ ?_ ?_ ?_
    | with_reducible apply Within.ite
    | split

theorem State.writeWays_within {M : Part → Bool} {a0 : State} {s : State} {q c : Nat} {v : BitVec 32} (m_hbm : M .hbm = true) (hs : Within M a0 s) : Within M a0 (State.writeWays s q c v) := by
  unfold State.writeWays
  try dsimp only
  repeat' first
    | with_reducible exact hs
    | with_reducible assumption
    | with_reducible exact Or.inl (by assumption)
    | with_reducible exact Or.inr rfl
    | with_reducible exact Or.inl rfl
    | with_reducible exact Or.inr ⟨by assumption, Nat.le_add_right _ _⟩
    | simp only [Within.mk_iff]
    | with_reducible refine Upd.of ?_ ?_ ?_ ?_ ?_ ?_ ?_ ?_ ?_ ?_ ?_ ?_ ?_ ?_ ?_ ?_ ?_ ?_ ?_ ?_ ?_ ?_
    | with_reducible apply Within.ite
    | split

theorem State.applyWays_within {M : Part → Bool} {a0 : State} {s : State} (m_hbm : M .hbm = true) (hs : Within M a0 s) : Within M a0 (State.applyWays s) := by
  unfold State.applyWays
  try dsimp only
  repeat' first
    | with_reducible exact hs
    | with_reducible assumption
    | with_reducible exact Or.inl (by assumption)
    | with_reducible exact Or.inr rfl
    | with_reducible exact Or.inl rfl
    | with_reducible exact Or.inr ⟨by assumption, Nat.le_add_right _ _⟩
    | simp only [Within.mk_iff]
    | with_reducible refine Upd.of ?_ ?_ ?_ ?_ ?_ ?_ ?_ ?_ ?_ ?_ ?_ ?_ ?_ ?_ ?_ ?_ ?_ ?_ ?_ ?_ ?_ ?_
    | with_reducible refine Within.foldl ?_ (fun _ _ hs => ?_)
    | with_reducible refine Within.foldl1 ?_ (fun _ _ hs => ?_)
    | with_reducible refine Within.foldl2 ?_ (fun _ _ hs => ?_)

theorem State.setBank_within {M : Part → Bool} {a0 : State} {s : State} {b : Nat} {k : Bank} (m_hbm : M .hbm = true) (hs : Within M a0 s) : Within M a0 (State.setBank s b k) := by
  unfold State.setBank
  try dsimp only
  repeat' first
    | with_reducible exact hs
    | with_reducible assumption
    | with_reducible exact Or.inl (by assumption)
    | with_reducible exact Or.inr rfl
    | with_reducible exact Or.inl rfl
    | with_reducible exact Or.inr ⟨by assumption, Nat.le_add_right _ _⟩
    | simp only [Within.mk_iff]
    | with_reducible refine Upd.of ?_ ?_ ?_ ?_ ?_ ?_ ?_ ?_ ?_ ?_ ?_ ?_ ?_ ?_ ?_ ?_ ?_ ?_ ?_ ?_ ?_ ?_

theorem State.adirStall_within {M : Part → Bool} {a0 : State} {s : State} {cls key : Nat} (m_pd : M .pd = true) (hs : Within M a0 s) : Within M a0 (State.adirStall s cls key) := by
  unfold State.adirStall
  try dsimp only
  repeat' first
    | with_reducible exact hs
    | with_reducible assumption
    | with_reducible exact Or.inl (by assumption)
    | with_reducible exact Or.inr rfl
    | with_reducible exact Or.inl rfl
    | with_reducible exact Or.inr ⟨by assumption, Nat.le_add_right _ _⟩
    | with_reducible apply State.count_within
    | with_reducible apply Within.ite
    | split

theorem State.adirInsert_within {M : Part → Bool} {a0 : State} {s : State} {cls key : Nat} {vals : List (BitVec 64)} (m_hbm : M .hbm = true) (hs : Within M a0 s) : Within M a0 (State.adirInsert s cls key vals) := by
  unfold State.adirInsert
  try dsimp only
  repeat' first
    | with_reducible exact hs
    | with_reducible assumption
    | with_reducible exact Or.inl (by assumption)
    | with_reducible exact Or.inr rfl
    | with_reducible exact Or.inl rfl
    | with_reducible exact Or.inr ⟨by assumption, Nat.le_add_right _ _⟩
    | with_reducible apply State.setBank_within
    | simp only [Within.mk_iff]
    | with_reducible refine Upd.of ?_ ?_ ?_ ?_ ?_ ?_ ?_ ?_ ?_ ?_ ?_ ?_ ?_ ?_ ?_ ?_ ?_ ?_ ?_ ?_ ?_ ?_
    | with_reducible apply Within.ite
    | with_reducible apply Within.ite1
    | with_reducible apply Within.ite2
    | with_reducible apply Within.ite3
    | with_reducible apply Within.ite4
    | split

theorem State.adirRemove_within {M : Part → Bool} {a0 : State} {s : State} {cls key : Nat} (m_hbm : M .hbm = true) (hs : Within M a0 s) : Within M a0 (State.adirRemove s cls key) := by
  unfold State.adirRemove
  try dsimp only
  repeat' first
    | with_reducible exact hs
    | with_reducible assumption
    | with_reducible exact Or.inl (by assumption)
    | with_reducible exact Or.inr rfl
    | with_reducible exact Or.inl rfl
    | with_reducible exact Or.inr ⟨by assumption, Nat.le_add_right _ _⟩
    | with_reducible apply State.setBank_within
    | simp only [Within.mk_iff]
    | with_reducible refine Upd.of ?_ ?_ ?_ ?_ ?_ ?_ ?_ ?_ ?_ ?_ ?_ ?_ ?_ ?_ ?_ ?_ ?_ ?_ ?_ ?_ ?_ ?_
    | split

theorem State.adirUpdate_within {M : Part → Bool} {a0 : State} {s : State} {cls key : Nat} {vals : List (BitVec 64)} (m_hbm : M .hbm = true) (hs : Within M a0 s) : Within M a0 (State.adirUpdate s cls key vals) := by
  unfold State.adirUpdate
  try dsimp only
  repeat' first
    | with_reducible exact hs
    | with_reducible assumption
    | with_reducible exact Or.inl (by assumption)
    | with_reducible exact Or.inr rfl
    | with_reducible exact Or.inl rfl
    | with_reducible exact Or.inr ⟨by assumption, Nat.le_add_right _ _⟩
    | with_reducible apply State.setBank_within
    | simp only [Within.mk_iff]
    | with_reducible refine Upd.of ?_ ?_ ?_ ?_ ?_ ?_ ?_ ?_ ?_ ?_ ?_ ?_ ?_ ?_ ?_ ?_ ?_ ?_ ?_ ?_ ?_ ?_
    | with_reducible apply Within.ite
    | with_reducible apply Within.ite1
    | with_reducible apply Within.ite2
    | with_reducible apply Within.ite3
    | with_reducible apply Within.ite4
    | split

theorem State.moveIn_within {M : Part → Bool} {a0 : State} {s : State} {cls key : Nat} {vals : List (BitVec 64)} {fn : Option Nat} (m_hbm : M .hbm = true) (hs : Within M a0 s) : Within M a0 (State.moveIn s cls key vals fn) := by
  unfold State.moveIn
  try dsimp only
  repeat' first
    | with_reducible exact hs
    | with_reducible assumption
    | with_reducible exact Or.inl (by assumption)
    | with_reducible exact Or.inr rfl
    | with_reducible exact Or.inl rfl
    | with_reducible exact Or.inr ⟨by assumption, Nat.le_add_right _ _⟩
    | with_reducible apply State.setBank_within
    | simp only [Within.mk_iff]
    | with_reducible refine Upd.of ?_ ?_ ?_ ?_ ?_ ?_ ?_ ?_ ?_ ?_ ?_ ?_ ?_ ?_ ?_ ?_ ?_ ?_ ?_ ?_ ?_ ?_
    | split

theorem State.moveOut_within {M : Part → Bool} {a0 : State} {s : State} {cls key : Nat} {fn : Option Nat} (m_hbm : M .hbm = true) (hs : Within M a0 s) : Within M a0 (State.moveOut s cls key fn) := by
  unfold State.moveOut
  try dsimp only
  repeat' first
    | with_reducible exact hs
    | with_reducible assumption
    | with_reducible exact Or.inl (by assumption)
    | with_reducible exact Or.inr rfl
    | with_reducible exact Or.inl rfl
    | with_reducible exact Or.inr ⟨by assumption, Nat.le_add_right _ _⟩
    | with_reducible apply State.setBank_within
    | simp only [Within.mk_iff]
    | with_reducible refine Upd.of ?_ ?_ ?_ ?_ ?_ ?_ ?_ ?_ ?_ ?_ ?_ ?_ ?_ ?_ ?_ ?_ ?_ ?_ ?_ ?_ ?_ ?_
    | split

theorem State.writeBankCfg_within {M : Part → Bool} {a0 : State} {s : State} {n : Nat} {v : BitVec 32} (m_hbm : M .hbm = true) (hs : Within M a0 s) : Within M a0 (State.writeBankCfg s n v) := by
  unfold State.writeBankCfg
  try dsimp only
  repeat' first
    | with_reducible exact hs
    | with_reducible assumption
    | with_reducible exact Or.inl (by assumption)
    | with_reducible exact Or.inr rfl
    | with_reducible exact Or.inl rfl
    | with_reducible exact Or.inr ⟨by assumption, Nat.le_add_right _ _⟩
    | with_reducible apply State.setBank_within
    | simp only [Within.mk_iff]
    | with_reducible refine Upd.of ?_ ?_ ?_ ?_ ?_ ?_ ?_ ?_ ?_ ?_ ?_ ?_ ?_ ?_ ?_ ?_ ?_ ?_ ?_ ?_ ?_ ?_
    | with_reducible apply Within.ite
    | split

theorem State.rateActivity_within {M : Part → Bool} {a0 : State} {s : State} {was : Bool} (m_rel : M .rel = true) (m_pd : M .pd = true) (hs : Within M a0 s) : Within M a0 (State.rateActivity s was) := by
  unfold State.rateActivity
  try dsimp only
  repeat' first
    | with_reducible exact hs
    | with_reducible assumption
    | with_reducible exact Or.inl (by assumption)
    | with_reducible exact Or.inr rfl
    | with_reducible exact Or.inl rfl
    | with_reducible exact Or.inr ⟨by assumption, Nat.le_add_right _ _⟩
    | with_reducible apply State.count_within
    | simp only [Within.mk_iff]
    | with_reducible refine Upd.of ?_ ?_ ?_ ?_ ?_ ?_ ?_ ?_ ?_ ?_ ?_ ?_ ?_ ?_ ?_ ?_ ?_ ?_ ?_ ?_ ?_ ?_
    | with_reducible apply Within.ite
    | split

theorem State.refreshSample_within {M : Part → Bool} {a0 : State} {s : State} {temp : Int} (m_hbm : M .hbm = true) (m_rel : M .rel = true) (m_pd : M .pd = true) (hs : Within M a0 s) : Within M a0 (State.refreshSample s temp) := by
  unfold State.refreshSample
  try dsimp only
  repeat' first
    | with_reducible exact hs
    | with_reducible assumption
    | with_reducible exact Or.inl (by assumption)
    | with_reducible exact Or.inr rfl
    | with_reducible exact Or.inl rfl
    | with_reducible exact Or.inr ⟨by assumption, Nat.le_add_right _ _⟩
    | with_reducible apply State.rateActivity_within
    | simp only [Within.mk_iff]
    | with_reducible refine Upd.of ?_ ?_ ?_ ?_ ?_ ?_ ?_ ?_ ?_ ?_ ?_ ?_ ?_ ?_ ?_ ?_ ?_ ?_ ?_ ?_ ?_ ?_
    | with_reducible apply Within.ite
    | split

theorem State.refreshBoundary_within {M : Part → Bool} {a0 : State} {s : State} (m_hbm : M .hbm = true) (m_rel : M .rel = true) (m_pd : M .pd = true) (hs : Within M a0 s) : Within M a0 (State.refreshBoundary s) := by
  unfold State.refreshBoundary
  try dsimp only
  repeat' first
    | with_reducible exact hs
    | with_reducible assumption
    | with_reducible exact Or.inl (by assumption)
    | with_reducible exact Or.inr rfl
    | with_reducible exact Or.inl rfl
    | with_reducible exact Or.inr ⟨by assumption, Nat.le_add_right _ _⟩
    | with_reducible apply State.rateActivity_within
    | simp only [Within.mk_iff]
    | with_reducible refine Upd.of ?_ ?_ ?_ ?_ ?_ ?_ ?_ ?_ ?_ ?_ ?_ ?_ ?_ ?_ ?_ ?_ ?_ ?_ ?_ ?_ ?_ ?_
    | with_reducible apply Within.ite
    | split


end Sys2Proof.Machine
end

