-- ==== Sys2Proof/Laws/WithinWindows.lean ====
section
/-! SUPPORT. Which parts of the state the operations of Machine/Windows.lean may move, and that they are steady. -/

set_option linter.unusedTactic false
set_option linter.unreachableTactic false

namespace Sys2Proof.Machine

theorem State.setWregs_within {M : Part → Bool} {a0 : State} {s : State} {fn : Nat} {r : WRegs} (m_rmo : M .rmo = true) (hs : Within M a0 s) : Within M a0 (State.setWregs s fn r) := by
  unfold State.setWregs
  try dsimp only
  repeat' first
    | with_reducible exact hs
    | with_reducible assumption
    | with_reducible exact Or.inl (by assumption)
    | with_reducible exact Or.inr rfl
    | with_reducible exact Or.inl rfl
    | with_reducible exact Or.inr ⟨by assumption, Nat.le_add_right _ _⟩
    | simp only [Within.mk_iff]
    | with_reducible refine Upd.of ?_ ?_ ?_ ?_ ?_ ?_ ?_ ?_ ?_ ?_ ?_ ?_ ?_ ?_ ?_ ?_ ?_ ?_ ?_ ?_ ?_ ?_

theorem State.setWin_within {M : Part → Bool} {a0 : State} {s : State} {job win : Nat} {w : Win} (m_hbm : M .hbm = true) (hs : Within M a0 s) : Within M a0 (State.setWin s job win w) := by
  unfold State.setWin
  try dsimp only
  repeat' first
    | with_reducible exact hs
    | with_reducible assumption
    | with_reducible exact Or.inl (by assumption)
    | with_reducible exact Or.inr rfl
    | with_reducible exact Or.inl rfl
    | with_reducible exact Or.inr ⟨by assumption, Nat.le_add_right _ _⟩
    | with_reducible apply State.adirUpdate_within

theorem State.winCommand_within {M : Part → Bool} {a0 : State} {s : State} {fn op win : Nat} (m_hbm : M .hbm = true) (m_rmo : M .rmo = true) (hs : Within M a0 s) : Within M a0 (State.winCommand s fn op win) := by
  unfold State.winCommand
  try dsimp only
  repeat' first
    | with_reducible exact hs
    | with_reducible assumption
    | with_reducible exact Or.inl (by assumption)
    | with_reducible exact Or.inr rfl
    | with_reducible exact Or.inl rfl
    | with_reducible exact Or.inr ⟨by assumption, Nat.le_add_right _ _⟩
    | with_reducible apply State.moveIn_within
    | with_reducible apply State.moveOut_within
    | with_reducible apply State.setWregs_within
    | simp only [Within.mk_iff]
    | with_reducible refine Upd.of ?_ ?_ ?_ ?_ ?_ ?_ ?_ ?_ ?_ ?_ ?_ ?_ ?_ ?_ ?_ ?_ ?_ ?_ ?_ ?_ ?_ ?_
    | with_reducible apply Within.ite
    | split

theorem State.winForce_within {M : Part → Bool} {a0 : State} {s : State} {fn : Nat} (m_hbm : M .hbm = true) (m_rmo : M .rmo = true) (hs : Within M a0 s) : Within M a0 (State.winForce s fn) := by
  unfold State.winForce
  try dsimp only
  repeat' first
    | with_reducible exact hs
    | with_reducible assumption
    | with_reducible exact Or.inl (by assumption)
    | with_reducible exact Or.inr rfl
    | with_reducible exact Or.inl rfl
    | with_reducible exact Or.inr ⟨by assumption, Nat.le_add_right _ _⟩
    | with_reducible apply State.setWregs_within
    | with_reducible apply State.setWin_within
    | simp only [Within.mk_iff]
    | with_reducible refine Upd.of ?_ ?_ ?_ ?_ ?_ ?_ ?_ ?_ ?_ ?_ ?_ ?_ ?_ ?_ ?_ ?_ ?_ ?_ ?_ ?_ ?_ ?_
    | with_reducible apply Within.ite
    | with_reducible apply Within.ite1
    | with_reducible apply Within.ite2
    | with_reducible apply Within.ite3
    | with_reducible apply Within.ite4
    | split

theorem State.forceDue_within {M : Part → Bool} {a0 : State} {s : State} (m_hbm : M .hbm = true) (m_rmo : M .rmo = true) (hs : Within M a0 s) : Within M a0 (State.forceDue s) := by
  unfold State.forceDue
  try dsimp only
  repeat' first
    | with_reducible exact hs
    | with_reducible assumption
    | with_reducible exact Or.inl (by assumption)
    | with_reducible exact Or.inr rfl
    | with_reducible exact Or.inl rfl
    | with_reducible exact Or.inr ⟨by assumption, Nat.le_add_right _ _⟩
    | with_reducible apply State.winForce_within
    | with_reducible apply Within.ite
    | with_reducible refine Within.foldl ?_ (fun _ _ hs => ?_)
    | with_reducible refine Within.foldl1 ?_ (fun _ _ hs => ?_)
    | with_reducible refine Within.foldl2 ?_ (fun _ _ hs => ?_)
    | split

theorem State.revokeAll_within {M : Part → Bool} {a0 : State} {s : State} {c : Nat} (m_hbm : M .hbm = true) (hs : Within M a0 s) : Within M a0 (State.revokeAll s c) := by
  unfold State.revokeAll
  try dsimp only
  repeat' first
    | with_reducible exact hs
    | with_reducible assumption
    | with_reducible exact Or.inl (by assumption)
    | with_reducible exact Or.inr rfl
    | with_reducible exact Or.inl rfl
    | with_reducible exact Or.inr ⟨by assumption, Nat.le_add_right _ _⟩
    | with_reducible apply State.setBank_within
    | simp only [Within.mk_iff]
    | with_reducible refine Upd.of ?_ ?_ ?_ ?_ ?_ ?_ ?_ ?_ ?_ ?_ ?_ ?_ ?_ ?_ ?_ ?_ ?_ ?_ ?_ ?_ ?_ ?_
    | with_reducible apply Within.ite
    | with_reducible refine Within.foldl ?_ (fun _ _ hs => ?_)
    | with_reducible refine Within.foldl1 ?_ (fun _ _ hs => ?_)
    | with_reducible refine Within.foldl2 ?_ (fun _ _ hs => ?_)
    | split

theorem State.setRecv_within {M : Part → Bool} {a0 : State} {s : State} {i : Nat} {e : RecvEnt} (m_rmo : M .rmo = true) (hs : Within M a0 s) : Within M a0 (State.setRecv s i e) := by
  unfold State.setRecv
  try dsimp only
  repeat' first
    | with_reducible exact hs
    | with_reducible assumption
    | with_reducible exact Or.inl (by assumption)
    | with_reducible exact Or.inr rfl
    | with_reducible exact Or.inl rfl
    | with_reducible exact Or.inr ⟨by assumption, Nat.le_add_right _ _⟩
    | simp only [Within.mk_iff]
    | with_reducible refine Upd.of ?_ ?_ ?_ ?_ ?_ ?_ ?_ ?_ ?_ ?_ ?_ ?_ ?_ ?_ ?_ ?_ ?_ ?_ ?_ ?_ ?_ ?_

theorem State.connCommand_within {M : Part → Bool} {a0 : State} {s : State} {fn : Nat} {idx : Nat} {send : Bool} (m_rmo : M .rmo = true) (hs : Within M a0 s) : Within M a0 (State.connCommand s fn idx send) := by
  unfold State.connCommand
  try dsimp only
  repeat' first
    | with_reducible exact hs
    | with_reducible assumption
    | with_reducible exact Or.inl (by assumption)
    | with_reducible exact Or.inr rfl
    | with_reducible exact Or.inl rfl
    | with_reducible exact Or.inr ⟨by assumption, Nat.le_add_right _ _⟩
    | with_reducible apply State.setSend_within
    | with_reducible apply State.setWregs_within
    | with_reducible apply State.setRecv_within
    | simp only [Within.mk_iff]
    | with_reducible refine Upd.of ?_ ?_ ?_ ?_ ?_ ?_ ?_ ?_ ?_ ?_ ?_ ?_ ?_ ?_ ?_ ?_ ?_ ?_ ?_ ?_ ?_ ?_
    | with_reducible apply Within.ite
    | split

theorem execConnectionWrite_goes {M : Part → Bool} {a0 : State} {t : Nat} {fn : Fn} {v : BitVec 32} {s : State} (m_timer : M .timer = true) (m_rmo : M .rmo = true) (hs : Within M a0 s) : Goes M a0 (execConnectionWrite t fn v s) := by
  unfold execConnectionWrite
  try dsimp only
  repeat' first
    | with_reducible exact hs
    | with_reducible assumption
    | with_reducible exact Or.inl (by assumption)
    | with_reducible exact Or.inr rfl
    | with_reducible exact Or.inl rfl
    | with_reducible exact Or.inr ⟨by assumption, Nat.le_add_right _ _⟩
    | with_reducible apply Goes.next
    | with_reducible apply Goes.ite
    | with_reducible apply State.arrive_within
    | with_reducible apply State.setWregs_within
    | with_reducible apply State.connCommand_within
    | with_reducible apply State.arrive_within
    | refine fun _ _ _ (hs : Within _ _ _) => ?_
    | refine fun _ (hs : Within _ _ _) => ?_
    | simp only [Within.mk_iff]
    | with_reducible refine Upd.of ?_ ?_ ?_ ?_ ?_ ?_ ?_ ?_ ?_ ?_ ?_ ?_ ?_ ?_ ?_ ?_ ?_ ?_ ?_ ?_ ?_ ?_
    | with_reducible apply Within.ite
    | split


end Sys2Proof.Machine
end

