-- ==== Sys2Proof/Laws/WithinPorts.lean ====
section
/-! SUPPORT. Which parts of the state the operations of Machine/Ports.lean may move, and that they are steady. -/

set_option linter.unusedTactic false
set_option linter.unreachableTactic false

namespace Sys2Proof.Machine

theorem State.linkEvent_within {M : Part → Bool} {a0 : State} {s : State} {p code : Nat} (m_hbm : M .hbm = true) (m_rmo : M .rmo = true) (m_pd : M .pd = true) (m_boot : M .boot = true) (m_mem : M .mem = true) (m_out : M .out = true) (hs : Within M a0 s) : Within M a0 (State.linkEvent s p code) := by
  unfold State.linkEvent
  try dsimp only
  repeat' first
    | with_reducible exact hs
    | with_reducible assumption
    | with_reducible exact Or.inl (by assumption)
    | with_reducible exact Or.inr rfl
    | with_reducible exact Or.inl rfl
    | with_reducible exact Or.inr ⟨by assumption, Nat.le_add_right _ _⟩
    | with_reducible apply State.event_within
    | with_reducible apply Within.ite
    | split

theorem State.enterPort_within {M : Part → Bool} {a0 : State} {s : State} {p : Nat} {st : PortState} (m_hbm : M .hbm = true) (m_lnk : M .lnk = true) (m_rmo : M .rmo = true) (m_pd : M .pd = true) (m_boot : M .boot = true) (m_mem : M .mem = true) (m_out : M .out = true) (hs : Within M a0 s) : Within M a0 (State.enterPort s p st) := by
  unfold State.enterPort
  try dsimp only
  repeat' first
    | with_reducible exact hs
    | with_reducible assumption
    | with_reducible exact Or.inl (by assumption)
    | with_reducible exact Or.inr rfl
    | with_reducible exact Or.inl rfl
    | with_reducible exact Or.inr ⟨by assumption, Nat.le_add_right _ _⟩
    | with_reducible apply State.setPort_within
    | with_reducible apply State.linkEvent_within
    | simp only [Within.mk_iff]
    | with_reducible refine Upd.of ?_ ?_ ?_ ?_ ?_ ?_ ?_ ?_ ?_ ?_ ?_ ?_ ?_ ?_ ?_ ?_ ?_ ?_ ?_ ?_ ?_ ?_
    | with_reducible apply Within.ite
    | split

theorem State.corrupt_within {M : Part → Bool} {a0 : State} {s : State} {p group : Nat} (m_lnk : M .lnk = true) (m_out : M .out = true) (hs : Within M a0 s) : Within M a0 (State.corrupt s p group) := by
  unfold State.corrupt
  try dsimp only
  repeat' first
    | with_reducible exact hs
    | with_reducible assumption
    | with_reducible exact Or.inl (by assumption)
    | with_reducible exact Or.inr rfl
    | with_reducible exact Or.inl rfl
    | with_reducible exact Or.inr ⟨by assumption, Nat.le_add_right _ _⟩
    | with_reducible apply State.setPort_within
    | simp only [Within.mk_iff]
    | with_reducible refine Upd.of ?_ ?_ ?_ ?_ ?_ ?_ ?_ ?_ ?_ ?_ ?_ ?_ ?_ ?_ ?_ ?_ ?_ ?_ ?_ ?_ ?_ ?_
    | with_reducible apply Within.ite
    | with_reducible apply Within.ite1
    | with_reducible apply Within.ite2
    | with_reducible apply Within.ite3
    | with_reducible apply Within.ite4
    | with_reducible refine Within.foldl ?_ (fun _ _ hs => ?_)
    | with_reducible refine Within.foldl1 ?_ (fun _ _ hs => ?_)
    | with_reducible refine Within.foldl2 ?_ (fun _ _ hs => ?_)
    | split

theorem State.sendFlit_within {M : Part → Bool} {a0 : State} {s : State} {p : Nat} {f : Flit} (m_lnk : M .lnk = true) (m_out : M .out = true) (hs : Within M a0 s) : Within M a0 (State.sendFlit s p f) := by
  unfold State.sendFlit
  try dsimp only
  repeat' first
    | with_reducible exact hs
    | with_reducible assumption
    | with_reducible exact Or.inl (by assumption)
    | with_reducible exact Or.inr rfl
    | with_reducible exact Or.inl rfl
    | with_reducible exact Or.inr ⟨by assumption, Nat.le_add_right _ _⟩
    | with_reducible apply State.emit_within
    | with_reducible apply State.setPort_within
    | with_reducible apply State.corrupt_within
    | simp only [Within.mk_iff]
    | with_reducible refine Upd.of ?_ ?_ ?_ ?_ ?_ ?_ ?_ ?_ ?_ ?_ ?_ ?_ ?_ ?_ ?_ ?_ ?_ ?_ ?_ ?_ ?_ ?_
    | with_reducible apply Within.ite
    | split

theorem State.drainPort_within {M : Part → Bool} {a0 : State} {s : State} {p : Nat} (m_lnk : M .lnk = true) (m_egq : M .egq = true) (m_pd : M .pd = true) (m_out : M .out = true) (hs : Within M a0 s) : Within M a0 (State.drainPort s p) := by
  unfold State.drainPort
  try dsimp only
  repeat' first
    | with_reducible exact hs
    | with_reducible assumption
    | with_reducible exact Or.inl (by assumption)
    | with_reducible exact Or.inr rfl
    | with_reducible exact Or.inl rfl
    | with_reducible exact Or.inr ⟨by assumption, Nat.le_add_right _ _⟩
    | with_reducible apply State.count_within
    | with_reducible apply State.setPort_within
    | with_reducible apply State.noteAll_within
    | with_reducible apply State.sendFlit_within
    | simp only [Within.mk_iff]
    | with_reducible refine Upd.of ?_ ?_ ?_ ?_ ?_ ?_ ?_ ?_ ?_ ?_ ?_ ?_ ?_ ?_ ?_ ?_ ?_ ?_ ?_ ?_ ?_ ?_
    | with_reducible apply Within.ite
    | with_reducible apply Within.ite1
    | with_reducible apply Within.ite2
    | with_reducible apply Within.ite3
    | with_reducible apply Within.ite4
    | with_reducible refine Within.foldl ?_ (fun _ _ hs => ?_)
    | with_reducible refine Within.foldl1 ?_ (fun _ _ hs => ?_)
    | with_reducible refine Within.foldl2 ?_ (fun _ _ hs => ?_)
    | split

theorem State.putRec_within {M : Part → Bool} {a0 : State} {s : State} {p from_ : Nat} {r : LinkRec} (m_lnk : M .lnk = true) (hs : Within M a0 s) : Within M a0 (State.putRec s p from_ r).2 := by
  unfold State.putRec
  try dsimp only
  repeat' first
    | with_reducible exact hs
    | with_reducible assumption
    | with_reducible exact Or.inl (by assumption)
    | with_reducible exact Or.inr rfl
    | with_reducible exact Or.inl rfl
    | with_reducible exact Or.inr ⟨by assumption, Nat.le_add_right _ _⟩
    | with_reducible apply State.setPort_within
    | simp only [Within.mk_iff]
    | with_reducible refine Upd.of ?_ ?_ ?_ ?_ ?_ ?_ ?_ ?_ ?_ ?_ ?_ ?_ ?_ ?_ ?_ ?_ ?_ ?_ ?_ ?_ ?_ ?_
    | split

theorem State.sendCtl_within {M : Part → Bool} {a0 : State} {s : State} {p : Nat} (m_lnk : M .lnk = true) (m_out : M .out = true) (hs : Within M a0 s) : Within M a0 (State.sendCtl s p) := by
  unfold State.sendCtl
  try dsimp only
  repeat' first
    | with_reducible exact hs
    | with_reducible assumption
    | with_reducible exact Or.inl (by assumption)
    | with_reducible exact Or.inr rfl
    | with_reducible exact Or.inl rfl
    | with_reducible exact Or.inr ⟨by assumption, Nat.le_add_right _ _⟩
    | with_reducible apply State.setPort_within
    | with_reducible apply State.corrupt_within
    | simp only [Within.mk_iff]
    | with_reducible refine Upd.of ?_ ?_ ?_ ?_ ?_ ?_ ?_ ?_ ?_ ?_ ?_ ?_ ?_ ?_ ?_ ?_ ?_ ?_ ?_ ?_ ?_ ?_
    | with_reducible apply Within.ite
    | with_reducible apply Within.ite1
    | with_reducible apply Within.ite2
    | with_reducible apply Within.ite3
    | with_reducible apply Within.ite4
    | split

theorem State.delayAsk_within {M : Part → Bool} {a0 : State} {s : State} {p : Nat} (m_lnk : M .lnk = true) (m_out : M .out = true) (m_free : M .free = true) (hs : Within M a0 s) : Within M a0 (State.delayAsk s p) := by
  unfold State.delayAsk
  try dsimp only
  repeat' first
    | with_reducible exact hs
    | with_reducible assumption
    | with_reducible exact Or.inl (by assumption)
    | with_reducible exact Or.inr rfl
    | with_reducible exact Or.inl rfl
    | with_reducible exact Or.inr ⟨by assumption, Nat.le_add_right _ _⟩
    | with_reducible apply State.draw_within
    | with_reducible apply State.putRec_within
    | with_reducible apply State.sendCtl_within
    | with_reducible apply State.draw_within
    | split

theorem State.sendPacket_within {M : Part → Bool} {a0 : State} {s : State} {p vl : Nat} {flits : List Flit} (m_lnk : M .lnk = true) (m_egq : M .egq = true) (m_pd : M .pd = true) (m_out : M .out = true) (hs : Within M a0 s) : Within M a0 (State.sendPacket s p vl flits) := by
  unfold State.sendPacket
  try dsimp only
  repeat' first
    | with_reducible exact hs
    | with_reducible assumption
    | with_reducible exact Or.inl (by assumption)
    | with_reducible exact Or.inr rfl
    | with_reducible exact Or.inl rfl
    | with_reducible exact Or.inr ⟨by assumption, Nat.le_add_right _ _⟩
    | with_reducible apply State.setPort_within
    | with_reducible apply State.drainPort_within
    | simp only [Within.mk_iff]
    | with_reducible refine Upd.of ?_ ?_ ?_ ?_ ?_ ?_ ?_ ?_ ?_ ?_ ?_ ?_ ?_ ?_ ?_ ?_ ?_ ?_ ?_ ?_ ?_ ?_
    | with_reducible apply Within.ite
    | with_reducible apply Within.ite1
    | with_reducible apply Within.ite2
    | with_reducible apply Within.ite3
    | with_reducible apply Within.ite4
    | split

theorem State.putPkts_within {M : Part → Bool} {a0 : State} {s : State} {l : List LinkPkt} (m_lnk : M .lnk = true) (hs : Within M a0 s) : Within M a0 (State.putPkts s l) := by
  unfold State.putPkts
  try dsimp only
  repeat' first
    | with_reducible exact hs
    | with_reducible assumption
    | with_reducible exact Or.inl (by assumption)
    | with_reducible exact Or.inr rfl
    | with_reducible exact Or.inl rfl
    | with_reducible exact Or.inr ⟨by assumption, Nat.le_add_right _ _⟩
    | simp only [Within.mk_iff]
    | with_reducible refine Upd.of ?_ ?_ ?_ ?_ ?_ ?_ ?_ ?_ ?_ ?_ ?_ ?_ ?_ ?_ ?_ ?_ ?_ ?_ ?_ ?_ ?_ ?_

theorem State.mgmtTake_within {M : Part → Bool} {a0 : State} {s : State} (m_lnk : M .lnk = true) (hs : Within M a0 s) : Within M a0 (State.mgmtTake s) := by
  unfold State.mgmtTake
  try dsimp only
  repeat' first
    | with_reducible exact hs
    | with_reducible assumption
    | with_reducible exact Or.inl (by assumption)
    | with_reducible exact Or.inr rfl
    | with_reducible exact Or.inl rfl
    | with_reducible exact Or.inr ⟨by assumption, Nat.le_add_right _ _⟩
    | simp only [Within.mk_iff]
    | with_reducible refine Upd.of ?_ ?_ ?_ ?_ ?_ ?_ ?_ ?_ ?_ ?_ ?_ ?_ ?_ ?_ ?_ ?_ ?_ ?_ ?_ ?_ ?_ ?_


end Sys2Proof.Machine
end

