-- ==== Sys2Proof/Laws/WithinCost.lean ====
section
/-! SUPPORT. Which parts of the state the operations of Machine/Cost.lean may move, and that they are steady. -/

set_option linter.unusedTactic false
set_option linter.unreachableTactic false

namespace Sys2Proof.Machine

theorem State.setRun_within {M : Part → Bool} {a0 : State} {s : State} {r : SlotRun} (m_sch : M .sch = true) (hs : Within M a0 s) : Within M a0 (State.setRun s r) := by
  unfold State.setRun
  try dsimp only
  repeat' first
    | with_reducible exact hs
    | with_reducible assumption
    | with_reducible exact Or.inl (by assumption)
    | with_reducible exact Or.inr rfl
    | with_reducible exact Or.inl rfl
    | with_reducible exact Or.inr ⟨by assumption, Nat.le_add_right _ _⟩
    | simp only [Within.mk_iff]
    | with_reducible refine Upd.of ?_ ?_ ?_ ?_ ?_ ?_ ?_ ?_ ?_ ?_ ?_ ?_ ?_ ?_ ?_ ?_ ?_ ?_ ?_ ?_ ?_ ?_

theorem State.setRunAt_within {M : Part → Bool} {a0 : State} {s : State} {p : Phase} {r : SlotRun} (m_sch : M .sch = true) (hs : Within M a0 s) : Within M a0 (State.setRunAt s p r) := by
  unfold State.setRunAt
  try dsimp only
  repeat' first
    | with_reducible exact hs
    | with_reducible assumption
    | with_reducible exact Or.inl (by assumption)
    | with_reducible exact Or.inr rfl
    | with_reducible exact Or.inl rfl
    | with_reducible exact Or.inr ⟨by assumption, Nat.le_add_right _ _⟩
    | with_reducible apply State.setRun_within
    | simp only [Within.mk_iff]
    | with_reducible refine Upd.of ?_ ?_ ?_ ?_ ?_ ?_ ?_ ?_ ?_ ?_ ?_ ?_ ?_ ?_ ?_ ?_ ?_ ?_ ?_ ?_ ?_ ?_
    | with_reducible apply Within.ite
    | split

theorem State.takePlace_within {M : Part → Bool} {a0 : State} {s : State} {slot : Nat} {x : Load} (m_sch : M .sch = true) (hs : Within M a0 s) : Within M a0 (State.takePlace s slot x) := by
  unfold State.takePlace
  try dsimp only
  repeat' first
    | with_reducible exact hs
    | with_reducible assumption
    | with_reducible exact Or.inl (by assumption)
    | with_reducible exact Or.inr rfl
    | with_reducible exact Or.inl rfl
    | with_reducible exact Or.inr ⟨by assumption, Nat.le_add_right _ _⟩
    | with_reducible apply State.setRun_within
    | simp only [Within.mk_iff]
    | with_reducible refine Upd.of ?_ ?_ ?_ ?_ ?_ ?_ ?_ ?_ ?_ ?_ ?_ ?_ ?_ ?_ ?_ ?_ ?_ ?_ ?_ ?_ ?_ ?_
    | split

theorem State.donePlace_within {M : Part → Bool} {a0 : State} {s : State} {slot : Nat} {p : Phase} (m_sch : M .sch = true) (hs : Within M a0 s) : Within M a0 (State.donePlace s slot p) := by
  unfold State.donePlace
  try dsimp only
  repeat' first
    | with_reducible exact hs
    | with_reducible assumption
    | with_reducible exact Or.inl (by assumption)
    | with_reducible exact Or.inr rfl
    | with_reducible exact Or.inl rfl
    | with_reducible exact Or.inr ⟨by assumption, Nat.le_add_right _ _⟩
    | with_reducible apply State.setRunAt_within
    | simp only [Within.mk_iff]
    | with_reducible refine Upd.of ?_ ?_ ?_ ?_ ?_ ?_ ?_ ?_ ?_ ?_ ?_ ?_ ?_ ?_ ?_ ?_ ?_ ?_ ?_ ?_ ?_ ?_

theorem State.ratio_within {M : Part → Bool} {a0 : State} {s : State} {cls begun : Nat} {formula : Rat} (m_sch : M .sch = true) (hs : Within M a0 s) : Within M a0 (State.ratio s cls begun formula) := by
  unfold State.ratio
  try dsimp only
  repeat' first
    | with_reducible exact hs
    | with_reducible assumption
    | with_reducible exact Or.inl (by assumption)
    | with_reducible exact Or.inr rfl
    | with_reducible exact Or.inl rfl
    | with_reducible exact Or.inr ⟨by assumption, Nat.le_add_right _ _⟩
    | simp only [Within.mk_iff]
    | with_reducible refine Upd.of ?_ ?_ ?_ ?_ ?_ ?_ ?_ ?_ ?_ ?_ ?_ ?_ ?_ ?_ ?_ ?_ ?_ ?_ ?_ ?_ ?_ ?_
    | with_reducible apply Within.ite
    | split

theorem State.tellOver_within {M : Part → Bool} {a0 : State} {s : State} {slot : Nat} (m_sch : M .sch = true) (hs : Within M a0 s) : Within M a0 (State.tellOver s slot) := by
  unfold State.tellOver
  try dsimp only
  repeat' first
    | with_reducible exact hs
    | with_reducible assumption
    | with_reducible exact Or.inl (by assumption)
    | with_reducible exact Or.inr rfl
    | with_reducible exact Or.inl rfl
    | with_reducible exact Or.inr ⟨by assumption, Nat.le_add_right _ _⟩
    | simp only [Within.mk_iff]
    | with_reducible refine Upd.of ?_ ?_ ?_ ?_ ?_ ?_ ?_ ?_ ?_ ?_ ?_ ?_ ?_ ?_ ?_ ?_ ?_ ?_ ?_ ?_ ?_ ?_
    | split

theorem State.lateBreach_within {M : Part → Bool} {a0 : State} {s : State} {src : Source} {env : Envelope} {q : Option Nat} {job comp cls : Nat} {slot breach : Option Nat} {limit : Nat} (m_phs : M .phs = true) (m_sch : M .sch = true) (m_hbm : M .hbm = true) (m_rmo : M .rmo = true) (m_pd : M .pd = true) (m_mem : M .mem = true) (m_out : M .out = true) (hs : Within M a0 s) : Within M a0 (State.lateBreach s src env q job comp cls slot breach limit).2 := by
  unfold State.lateBreach
  try dsimp only
  repeat' first
    | with_reducible exact hs
    | with_reducible assumption
    | with_reducible exact Or.inl (by assumption)
    | with_reducible exact Or.inr rfl
    | with_reducible exact Or.inl rfl
    | with_reducible exact Or.inr ⟨by assumption, Nat.le_add_right _ _⟩
    | with_reducible apply State.breach_within
    | with_reducible apply State.tellOver_within
    | with_reducible apply Within.ite2
    | with_reducible apply Within.ite
    | split


end Sys2Proof.Machine
end

