-- ==== Sys2Proof/Laws/WithinParity.lean ====
section
/-! SUPPORT. Which parts of the state the operations of Machine/Parity.lean may move, and that they are steady. -/

set_option linter.unusedTactic false
set_option linter.unreachableTactic false

namespace Sys2Proof.Machine

theorem State.sendContrib_within {M : Part → Bool} {a0 : State} {s : State} {c : Nat} {g : RingCfg} {x : Contrib} {prod : Producer} (m_egq : M .egq = true) (hs : Within M a0 s) : Within M a0 (State.sendContrib s c g x prod) := by
  unfold State.sendContrib
  try dsimp only
  repeat' first
    | with_reducible exact hs
    | with_reducible assumption
    | with_reducible exact Or.inl (by assumption)
    | with_reducible exact Or.inr rfl
    | with_reducible exact Or.inl rfl
    | with_reducible exact Or.inr ⟨by assumption, Nat.le_add_right _ _⟩
    | with_reducible apply State.enqueue_within
    | split

theorem State.tryContribute_within {M : Part → Bool} {a0 : State} {s : State} {c job ctx stream page key gen : Nat} {kind : Nat} {bytes : List Byte} (m_egq : M .egq = true) (m_cmp : M .cmp = true) (m_rel : M .rel = true) (hs : Within M a0 s) : Within M a0 (State.tryContribute s c job ctx stream page key gen kind bytes).2 := by
  unfold State.tryContribute
  try dsimp only
  repeat' first
    | with_reducible exact hs
    | with_reducible assumption
    | with_reducible exact Or.inl (by assumption)
    | with_reducible exact Or.inr rfl
    | with_reducible exact Or.inl rfl
    | with_reducible exact Or.inr ⟨by assumption, Nat.le_add_right _ _⟩
    | with_reducible apply State.setComp_within
    | with_reducible apply State.sendContrib_within
    | simp only [Within.mk_iff]
    | with_reducible refine Upd.of ?_ ?_ ?_ ?_ ?_ ?_ ?_ ?_ ?_ ?_ ?_ ?_ ?_ ?_ ?_ ?_ ?_ ?_ ?_ ?_ ?_ ?_
    | with_reducible apply Within.ite2
    | with_reducible apply Within.ite
    | with_reducible apply Within.ite1
    | with_reducible apply Within.ite3
    | with_reducible apply Within.ite4
    | with_reducible refine Within.foldl ?_ (fun _ _ hs => ?_)
    | with_reducible refine Within.foldl1 ?_ (fun _ _ hs => ?_)
    | with_reducible refine Within.foldl2 ?_ (fun _ _ hs => ?_)
    | split

theorem State.unprotected_within {M : Part → Bool} {a0 : State} {s : State} {c job : Nat} (m_hbm : M .hbm = true) (m_rmo : M .rmo = true) (m_pd : M .pd = true) (m_boot : M .boot = true) (m_mem : M .mem = true) (m_out : M .out = true) (hs : Within M a0 s) : Within M a0 (State.unprotected s c job) := by
  unfold State.unprotected
  try dsimp only
  repeat' first
    | with_reducible exact hs
    | with_reducible assumption
    | with_reducible exact Or.inl (by assumption)
    | with_reducible exact Or.inr rfl
    | with_reducible exact Or.inl rfl
    | with_reducible exact Or.inr ⟨by assumption, Nat.le_add_right _ _⟩
    | with_reducible apply State.count_within
    | with_reducible apply State.event_within
    | simp only [Within.mk_iff]
    | with_reducible refine Upd.of ?_ ?_ ?_ ?_ ?_ ?_ ?_ ?_ ?_ ?_ ?_ ?_ ?_ ?_ ?_ ?_ ?_ ?_ ?_ ?_ ?_ ?_
    | split

theorem State.contribute_within {M : Part → Bool} {a0 : State} {s : State} {c job ctx stream page key gen : Nat} {kind : Nat} {bytes : List Byte} (m_hbm : M .hbm = true) (m_rmo : M .rmo = true) (m_egq : M .egq = true) (m_cmp : M .cmp = true) (m_rel : M .rel = true) (m_pd : M .pd = true) (m_boot : M .boot = true) (m_mem : M .mem = true) (m_out : M .out = true) (hs : Within M a0 s) : Within M a0 (State.contribute s c job ctx stream page key gen kind bytes).2 := by
  unfold State.contribute
  try dsimp only
  repeat' first
    | with_reducible exact hs
    | with_reducible assumption
    | with_reducible exact Or.inl (by assumption)
    | with_reducible exact Or.inr rfl
    | with_reducible exact Or.inl rfl
    | with_reducible exact Or.inr ⟨by assumption, Nat.le_add_right _ _⟩
    | with_reducible apply State.tryContribute_within
    | with_reducible apply State.unprotected_within
    | with_reducible apply Within.ite2
    | with_reducible apply Within.ite
    | with_reducible apply Within.ite1
    | with_reducible apply Within.ite3
    | with_reducible apply Within.ite4
    | split

theorem State.uncontribute_within {M : Part → Bool} {a0 : State} {s : State} {key : Nat} (m_egq : M .egq = true) (m_rel : M .rel = true) (hs : Within M a0 s) : Within M a0 (State.uncontribute s key) := by
  unfold State.uncontribute
  try dsimp only
  repeat' first
    | with_reducible exact hs
    | with_reducible assumption
    | with_reducible exact Or.inl (by assumption)
    | with_reducible exact Or.inr rfl
    | with_reducible exact Or.inl rfl
    | with_reducible exact Or.inr ⟨by assumption, Nat.le_add_right _ _⟩
    | with_reducible apply State.sendContrib_within
    | simp only [Within.mk_iff]
    | with_reducible refine Upd.of ?_ ?_ ?_ ?_ ?_ ?_ ?_ ?_ ?_ ?_ ?_ ?_ ?_ ?_ ?_ ?_ ?_ ?_ ?_ ?_ ?_ ?_
    | with_reducible refine Within.foldl ?_ (fun _ _ hs => ?_)
    | with_reducible refine Within.foldl1 ?_ (fun _ _ hs => ?_)
    | with_reducible refine Within.foldl2 ?_ (fun _ _ hs => ?_)
    | split

theorem State.ringWrite_within {M : Part → Bool} {a0 : State} {s : State} {c : Nat} {g : RingCfg} {rank q slot : Nat} {b : List Byte} (m_egq : M .egq = true) (hs : Within M a0 s) : Within M a0 (State.ringWrite s c g rank q slot b) := by
  unfold State.ringWrite
  try dsimp only
  repeat' first
    | with_reducible exact hs
    | with_reducible assumption
    | with_reducible exact Or.inl (by assumption)
    | with_reducible exact Or.inr rfl
    | with_reducible exact Or.inl rfl
    | with_reducible exact Or.inr ⟨by assumption, Nat.le_add_right _ _⟩
    | with_reducible apply State.enqueue_within

theorem State.ringSend_within {M : Part → Bool} {a0 : State} {s : State} {c : Nat} {g : RingCfg} {rank : Nat} {b : List Byte} (m_egq : M .egq = true) (m_rel : M .rel = true) (hs : Within M a0 s) : Within M a0 (State.ringSend s c g rank b) := by
  unfold State.ringSend
  try dsimp only
  repeat' first
    | with_reducible exact hs
    | with_reducible assumption
    | with_reducible exact Or.inl (by assumption)
    | with_reducible exact Or.inr rfl
    | with_reducible exact Or.inl rfl
    | with_reducible exact Or.inr ⟨by assumption, Nat.le_add_right _ _⟩
    | with_reducible apply State.ringWrite_within
    | simp only [Within.mk_iff]
    | with_reducible refine Upd.of ?_ ?_ ?_ ?_ ?_ ?_ ?_ ?_ ?_ ?_ ?_ ?_ ?_ ?_ ?_ ?_ ?_ ?_ ?_ ?_ ?_ ?_
    | with_reducible apply Within.ite
    | with_reducible apply Within.ite1
    | with_reducible apply Within.ite2
    | with_reducible apply Within.ite3
    | with_reducible apply Within.ite4
    | split

theorem State.ringNext_within {M : Part → Bool} {a0 : State} {s : State} {c : Nat} (m_egq : M .egq = true) (m_rel : M .rel = true) (hs : Within M a0 s) : Within M a0 (State.ringNext s c) := by
  unfold State.ringNext
  try dsimp only
  repeat' first
    | with_reducible exact hs
    | with_reducible assumption
    | with_reducible exact Or.inl (by assumption)
    | with_reducible exact Or.inr rfl
    | with_reducible exact Or.inl rfl
    | with_reducible exact Or.inr ⟨by assumption, Nat.le_add_right _ _⟩
    | with_reducible apply State.ringWrite_within
    | simp only [Within.mk_iff]
    | with_reducible refine Upd.of ?_ ?_ ?_ ?_ ?_ ?_ ?_ ?_ ?_ ?_ ?_ ?_ ?_ ?_ ?_ ?_ ?_ ?_ ?_ ?_ ?_ ?_
    | split

theorem State.sendMirror_within {M : Part → Bool} {a0 : State} {s : State} {c : Nat} {bytes : List Byte} {prod : Producer} {contract : Bool} {due : Phase} (m_egq : M .egq = true) (m_free : M .free = true) (hs : Within M a0 s) : Within M a0 (State.sendMirror s c bytes prod contract due).2 := by
  unfold State.sendMirror
  try dsimp only
  repeat' first
    | with_reducible exact hs
    | with_reducible assumption
    | with_reducible exact Or.inl (by assumption)
    | with_reducible exact Or.inr rfl
    | with_reducible exact Or.inl rfl
    | with_reducible exact Or.inr ⟨by assumption, Nat.le_add_right _ _⟩
    | with_reducible apply State.draw_within
    | with_reducible apply State.enqueue_within
    | with_reducible apply State.draw_within
    | with_reducible refine Within.foldl ?_ (fun _ _ hs => ?_)
    | with_reducible refine Within.foldl1 ?_ (fun _ _ hs => ?_)
    | with_reducible refine Within.foldl2 ?_ (fun _ _ hs => ?_)
    | split


end Sys2Proof.Machine
end

