-- ==== Sys2Proof/Laws/WithinPages.lean ====
section
/-! SUPPORT. Which parts of the state the operations of Machine/Pages.lean may move, and that they are steady. -/

set_option linter.unusedTactic false
set_option linter.unreachableTactic false

namespace Sys2Proof.Machine

theorem State.place_within {M : Part → Bool} {a0 : State} {s : State} {pc align : Nat} (m_free : M .free = true) (hs : Within M a0 s) : Within M a0 (State.place s pc align).2 := by
  unfold State.place
  try dsimp only
  repeat' first
    | with_reducible exact hs
    | with_reducible assumption
    | with_reducible exact Or.inl (by assumption)
    | with_reducible exact Or.inr rfl
    | with_reducible exact Or.inl rfl
    | with_reducible exact Or.inr ⟨by assumption, Nat.le_add_right _ _⟩
    | with_reducible apply State.draw_within
    | with_reducible apply State.draw_within
    | with_reducible apply Within.ite2
    | with_reducible apply Within.ite
    | with_reducible apply Within.ite1
    | with_reducible apply Within.ite3
    | with_reducible apply Within.ite4
    | with_reducible refine Within.foldl ?_ (fun _ _ hs => ?_)
    | with_reducible refine Within.foldl1 ?_ (fun _ _ hs => ?_)
    | with_reducible refine Within.foldl2 ?_ (fun _ _ hs => ?_)
    | split

theorem State.placeIn_within {M : Part → Bool} {a0 : State} {s : State} {base span align size : Nat} {also : List Nat} (m_free : M .free = true) (hs : Within M a0 s) : Within M a0 (State.placeIn s base span align size also).2 := by
  unfold State.placeIn
  try dsimp only
  repeat' first
    | with_reducible exact hs
    | with_reducible assumption
    | with_reducible exact Or.inl (by assumption)
    | with_reducible exact Or.inr rfl
    | with_reducible exact Or.inl rfl
    | with_reducible exact Or.inr ⟨by assumption, Nat.le_add_right _ _⟩
    | with_reducible apply State.draw_within
    | with_reducible apply State.draw_within
    | with_reducible apply Within.ite2
    | with_reducible apply Within.ite
    | with_reducible apply Within.ite1
    | with_reducible apply Within.ite3
    | with_reducible apply Within.ite4
    | with_reducible refine Within.foldl ?_ (fun _ _ hs => ?_)
    | with_reducible refine Within.foldl1 ?_ (fun _ _ hs => ?_)
    | with_reducible refine Within.foldl2 ?_ (fun _ _ hs => ?_)
    | split

theorem State.placeArea_within {M : Part → Bool} {a0 : State} {s : State} {c align size : Nat} (m_free : M .free = true) (hs : Within M a0 s) : Within M a0 (State.placeArea s c align size).2 := by
  unfold State.placeArea
  try dsimp only
  repeat' first
    | with_reducible exact hs
    | with_reducible assumption
    | with_reducible exact Or.inl (by assumption)
    | with_reducible exact Or.inr rfl
    | with_reducible exact Or.inl rfl
    | with_reducible exact Or.inr ⟨by assumption, Nat.le_add_right _ _⟩
    | with_reducible apply State.placeIn_within

theorem State.setPg_within {M : Part → Bool} {a0 : State} {s : State} {f : PageSt → PageSt} (m_pg : M .pg = true) (hs : Within M a0 s) : Within M a0 (State.setPg s f) := by
  unfold State.setPg
  try dsimp only
  repeat' first
    | with_reducible exact hs
    | with_reducible assumption
    | with_reducible exact Or.inl (by assumption)
    | with_reducible exact Or.inr rfl
    | with_reducible exact Or.inl rfl
    | with_reducible exact Or.inr ⟨by assumption, Nat.le_add_right _ _⟩
    | simp only [Within.mk_iff]
    | with_reducible refine Upd.of ?_ ?_ ?_ ?_ ?_ ?_ ?_ ?_ ?_ ?_ ?_ ?_ ?_ ?_ ?_ ?_ ?_ ?_ ?_ ?_ ?_ ?_

theorem State.allocFrame_within {M : Part → Bool} {a0 : State} {s : State} {c page raw : Nat} {toks : List Token} (m_pg : M .pg = true) (m_free : M .free = true) (hs : Within M a0 s) : Within M a0 (State.allocFrame s c page raw toks).2 := by
  unfold State.allocFrame
  try dsimp only
  repeat' first
    | with_reducible exact hs
    | with_reducible assumption
    | with_reducible exact Or.inl (by assumption)
    | with_reducible exact Or.inr rfl
    | with_reducible exact Or.inl rfl
    | with_reducible exact Or.inr ⟨by assumption, Nat.le_add_right _ _⟩
    | with_reducible apply State.place_within
    | with_reducible apply State.setPg_within
    | simp only [Within.mk_iff]
    | with_reducible refine Upd.of ?_ ?_ ?_ ?_ ?_ ?_ ?_ ?_ ?_ ?_ ?_ ?_ ?_ ?_ ?_ ?_ ?_ ?_ ?_ ?_ ?_ ?_
    | split

theorem State.unpend_within {M : Part → Bool} {a0 : State} {s : State} {p : Nat → Nat → Nat → Nat → Bool} (m_rel : M .rel = true) (hs : Within M a0 s) : Within M a0 (State.unpend s p) := by
  unfold State.unpend
  try dsimp only
  repeat' first
    | with_reducible exact hs
    | with_reducible assumption
    | with_reducible exact Or.inl (by assumption)
    | with_reducible exact Or.inr rfl
    | with_reducible exact Or.inl rfl
    | with_reducible exact Or.inr ⟨by assumption, Nat.le_add_right _ _⟩
    | simp only [Within.mk_iff]
    | with_reducible refine Upd.of ?_ ?_ ?_ ?_ ?_ ?_ ?_ ?_ ?_ ?_ ?_ ?_ ?_ ?_ ?_ ?_ ?_ ?_ ?_ ?_ ?_ ?_

theorem State.freeFrameKey_within {M : Part → Bool} {a0 : State} {s : State} {key : Nat} (m_pg : M .pg = true) (m_egq : M .egq = true) (m_rel : M .rel = true) (hs : Within M a0 s) : Within M a0 (State.freeFrameKey s key) := by
  unfold State.freeFrameKey
  try dsimp only
  repeat' first
    | with_reducible exact hs
    | with_reducible assumption
    | with_reducible exact Or.inl (by assumption)
    | with_reducible exact Or.inr rfl
    | with_reducible exact Or.inl rfl
    | with_reducible exact Or.inr ⟨by assumption, Nat.le_add_right _ _⟩
    | with_reducible apply State.uncontribute_within
    | with_reducible apply State.setPg_within
    | simp only [Within.mk_iff]
    | with_reducible refine Upd.of ?_ ?_ ?_ ?_ ?_ ?_ ?_ ?_ ?_ ?_ ?_ ?_ ?_ ?_ ?_ ?_ ?_ ?_ ?_ ?_ ?_ ?_
    | split

theorem State.returnFreed_within {M : Part → Bool} {a0 : State} {s : State} (m_pg : M .pg = true) (hs : Within M a0 s) : Within M a0 (State.returnFreed s) := by
  unfold State.returnFreed
  try dsimp only
  repeat' first
    | with_reducible exact hs
    | with_reducible assumption
    | with_reducible exact Or.inl (by assumption)
    | with_reducible exact Or.inr rfl
    | with_reducible exact Or.inl rfl
    | with_reducible exact Or.inr ⟨by assumption, Nat.le_add_right _ _⟩
    | with_reducible apply State.setPg_within
    | simp only [Within.mk_iff]
    | with_reducible refine Upd.of ?_ ?_ ?_ ?_ ?_ ?_ ?_ ?_ ?_ ?_ ?_ ?_ ?_ ?_ ?_ ?_ ?_ ?_ ?_ ?_ ?_ ?_
    | split

theorem State.setCtx_within {M : Part → Bool} {a0 : State} {s : State} {job ctx : Nat} {f : Ctx → Ctx} (m_pg : M .pg = true) (hs : Within M a0 s) : Within M a0 (State.setCtx s job ctx f) := by
  unfold State.setCtx
  try dsimp only
  repeat' first
    | with_reducible exact hs
    | with_reducible assumption
    | with_reducible exact Or.inl (by assumption)
    | with_reducible exact Or.inr rfl
    | with_reducible exact Or.inl rfl
    | with_reducible exact Or.inr ⟨by assumption, Nat.le_add_right _ _⟩
    | with_reducible apply State.setPg_within
    | simp only [Within.mk_iff]
    | with_reducible refine Upd.of ?_ ?_ ?_ ?_ ?_ ?_ ?_ ?_ ?_ ?_ ?_ ?_ ?_ ?_ ?_ ?_ ?_ ?_ ?_ ?_ ?_ ?_
    | split

theorem State.setStrm_within {M : Part → Bool} {a0 : State} {s : State} {job ctx stream : Nat} {f : Strm → Strm} (m_pg : M .pg = true) (hs : Within M a0 s) : Within M a0 (State.setStrm s job ctx stream f) := by
  unfold State.setStrm
  try dsimp only
  repeat' first
    | with_reducible exact hs
    | with_reducible assumption
    | with_reducible exact Or.inl (by assumption)
    | with_reducible exact Or.inr rfl
    | with_reducible exact Or.inl rfl
    | with_reducible exact Or.inr ⟨by assumption, Nat.le_add_right _ _⟩
    | with_reducible apply State.setCtx_within
    | simp only [Within.mk_iff]
    | with_reducible refine Upd.of ?_ ?_ ?_ ?_ ?_ ?_ ?_ ?_ ?_ ?_ ?_ ?_ ?_ ?_ ?_ ?_ ?_ ?_ ?_ ?_ ?_ ?_
    | split

theorem State.placeOr_within {M : Part → Bool} {a0 : State} {s : State} {have_ : Option Nat} {pc align : Nat} (m_free : M .free = true) (hs : Within M a0 s) : Within M a0 (State.placeOr s have_ pc align).2 := by
  unfold State.placeOr
  try dsimp only
  repeat' first
    | with_reducible exact hs
    | with_reducible assumption
    | with_reducible exact Or.inl (by assumption)
    | with_reducible exact Or.inr rfl
    | with_reducible exact Or.inl rfl
    | with_reducible exact Or.inr ⟨by assumption, Nat.le_add_right _ _⟩
    | with_reducible apply State.place_within
    | split

theorem State.growTables_within {M : Part → Bool} {a0 : State} {s : State} {c : Nat} {x : Strm} {p : Nat} (m_hbm : M .hbm = true) (m_mem : M .mem = true) (m_free : M .free = true) (hs : Within M a0 s) : Within M a0 (State.growTables s c x p).2 := by
  unfold State.growTables
  try dsimp only
  repeat' first
    | with_reducible exact hs
    | with_reducible assumption
    | with_reducible exact Or.inl (by assumption)
    | with_reducible exact Or.inr rfl
    | with_reducible exact Or.inl rfl
    | with_reducible exact Or.inr ⟨by assumption, Nat.le_add_right _ _⟩
    | with_reducible apply State.store_within
    | with_reducible apply State.place_within
    | with_reducible apply State.placeOr_within
    | with_reducible apply State.store_within
    | simp only [Within.mk_iff]
    | with_reducible refine Upd.of ?_ ?_ ?_ ?_ ?_ ?_ ?_ ?_ ?_ ?_ ?_ ?_ ?_ ?_ ?_ ?_ ?_ ?_ ?_ ?_ ?_ ?_
    | with_reducible apply Within.ite2
    | with_reducible apply Within.ite
    | with_reducible apply Within.ite1
    | with_reducible apply Within.ite3
    | with_reducible apply Within.ite4
    | split

theorem State.growAll_within {M : Part → Bool} {a0 : State} {s : State} {c : Nat} {x : Strm} {pages : Nat} (m_hbm : M .hbm = true) (m_mem : M .mem = true) (m_free : M .free = true) (hs : Within M a0 s) : Within M a0 (State.growAll s c x pages).2 := by
  unfold State.growAll
  try dsimp only
  repeat' first
    | with_reducible exact hs
    | with_reducible assumption
    | with_reducible exact Or.inl (by assumption)
    | with_reducible exact Or.inr rfl
    | with_reducible exact Or.inl rfl
    | with_reducible exact Or.inr ⟨by assumption, Nat.le_add_right _ _⟩
    | with_reducible apply State.growTables_within
    | with_reducible refine Within.foldl ?_ (fun _ _ hs => ?_)
    | with_reducible refine Within.foldl1 ?_ (fun _ _ hs => ?_)
    | with_reducible refine Within.foldl2 ?_ (fun _ _ hs => ?_)

theorem State.writeTables_within {M : Part → Bool} {a0 : State} {s : State} {x : Strm} (m_hbm : M .hbm = true) (m_mem : M .mem = true) (hs : Within M a0 s) : Within M a0 (State.writeTables s x) := by
  unfold State.writeTables
  try dsimp only
  repeat' first
    | with_reducible exact hs
    | with_reducible assumption
    | with_reducible exact Or.inl (by assumption)
    | with_reducible exact Or.inr rfl
    | with_reducible exact Or.inl rfl
    | with_reducible exact Or.inr ⟨by assumption, Nat.le_add_right _ _⟩
    | with_reducible apply State.store_within
    | with_reducible apply State.store_within
    | with_reducible refine Within.foldl ?_ (fun _ _ hs => ?_)
    | with_reducible refine Within.foldl1 ?_ (fun _ _ hs => ?_)
    | with_reducible refine Within.foldl2 ?_ (fun _ _ hs => ?_)
    | split

theorem State.writePage_within {M : Part → Bool} {a0 : State} {s : State} {job ctx stream page : Nat} (m_hbm : M .hbm = true) (m_mem : M .mem = true) (hs : Within M a0 s) : Within M a0 (State.writePage s job ctx stream page) := by
  unfold State.writePage
  try dsimp only
  repeat' first
    | with_reducible exact hs
    | with_reducible assumption
    | with_reducible exact Or.inl (by assumption)
    | with_reducible exact Or.inr rfl
    | with_reducible exact Or.inl rfl
    | with_reducible exact Or.inr ⟨by assumption, Nat.le_add_right _ _⟩
    | with_reducible apply State.store_within
    | with_reducible apply State.store_within
    | with_reducible apply Within.ite
    | with_reducible apply Within.ite1
    | with_reducible apply Within.ite2
    | with_reducible apply Within.ite3
    | with_reducible apply Within.ite4
    | split

theorem State.writeEntry_within {M : Part → Bool} {a0 : State} {s : State} {job ctx stream : Nat} (m_hbm : M .hbm = true) (m_mem : M .mem = true) (hs : Within M a0 s) : Within M a0 (State.writeEntry s job ctx stream) := by
  unfold State.writeEntry
  try dsimp only
  repeat' first
    | with_reducible exact hs
    | with_reducible assumption
    | with_reducible exact Or.inl (by assumption)
    | with_reducible exact Or.inr rfl
    | with_reducible exact Or.inl rfl
    | with_reducible exact Or.inr ⟨by assumption, Nat.le_add_right _ _⟩
    | with_reducible apply State.store_within
    | with_reducible apply State.store_within
    | split

theorem State.writeSilt_within {M : Part → Bool} {a0 : State} {s : State} {job ctx stream : Nat} (m_hbm : M .hbm = true) (m_mem : M .mem = true) (hs : Within M a0 s) : Within M a0 (State.writeSilt s job ctx stream) := by
  unfold State.writeSilt
  try dsimp only
  repeat' first
    | with_reducible exact hs
    | with_reducible assumption
    | with_reducible exact Or.inl (by assumption)
    | with_reducible exact Or.inr rfl
    | with_reducible exact Or.inl rfl
    | with_reducible exact Or.inr ⟨by assumption, Nat.le_add_right _ _⟩
    | with_reducible apply State.store_within
    | with_reducible apply State.store_within
    | with_reducible refine Within.foldl ?_ (fun _ _ hs => ?_)
    | with_reducible refine Within.foldl1 ?_ (fun _ _ hs => ?_)
    | with_reducible refine Within.foldl2 ?_ (fun _ _ hs => ?_)
    | split

theorem State.writeCtx_within {M : Part → Bool} {a0 : State} {s : State} {k : Ctx} (m_hbm : M .hbm = true) (m_mem : M .mem = true) (hs : Within M a0 s) : Within M a0 (State.writeCtx s k) := by
  unfold State.writeCtx
  try dsimp only
  repeat' first
    | with_reducible exact hs
    | with_reducible assumption
    | with_reducible exact Or.inl (by assumption)
    | with_reducible exact Or.inr rfl
    | with_reducible exact Or.inl rfl
    | with_reducible exact Or.inr ⟨by assumption, Nat.le_add_right _ _⟩
    | with_reducible apply State.store_within
    | with_reducible apply State.writePage_within
    | with_reducible apply State.writeSilt_within
    | with_reducible apply State.store_within
    | with_reducible refine Within.foldl ?_ (fun _ _ hs => ?_)
    | with_reducible refine Within.foldl1 ?_ (fun _ _ hs => ?_)
    | with_reducible refine Within.foldl2 ?_ (fun _ _ hs => ?_)

theorem State.setPage_within {M : Part → Bool} {a0 : State} {s : State} {job ctx stream page : Nat} {f : Page → Page} (m_pg : M .pg = true) (m_hbm : M .hbm = true) (m_mem : M .mem = true) (hs : Within M a0 s) : Within M a0 (State.setPage s job ctx stream page f) := by
  unfold State.setPage
  try dsimp only
  repeat' first
    | with_reducible exact hs
    | with_reducible assumption
    | with_reducible exact Or.inl (by assumption)
    | with_reducible exact Or.inr rfl
    | with_reducible exact Or.inl rfl
    | with_reducible exact Or.inr ⟨by assumption, Nat.le_add_right _ _⟩
    | with_reducible apply State.setStrm_within
    | with_reducible apply State.writePage_within
    | simp only [Within.mk_iff]
    | with_reducible refine Upd.of ?_ ?_ ?_ ?_ ?_ ?_ ?_ ?_ ?_ ?_ ?_ ?_ ?_ ?_ ?_ ?_ ?_ ?_ ?_ ?_ ?_ ?_
    | with_reducible apply Within.ite
    | split

theorem State.genMismatch_within {M : Part → Bool} {a0 : State} {s : State} {job ctx stream page want got : Nat} (m_hbm : M .hbm = true) (m_rmo : M .rmo = true) (m_pd : M .pd = true) (m_boot : M .boot = true) (m_mem : M .mem = true) (m_out : M .out = true) (hs : Within M a0 s) : Within M a0 (State.genMismatch s job ctx stream page want got) := by
  unfold State.genMismatch
  try dsimp only
  repeat' first
    | with_reducible exact hs
    | with_reducible assumption
    | with_reducible exact Or.inl (by assumption)
    | with_reducible exact Or.inr rfl
    | with_reducible exact Or.inl rfl
    | with_reducible exact Or.inr ⟨by assumption, Nat.le_add_right _ _⟩
    | with_reducible apply State.count_within
    | with_reducible apply State.countC_within
    | with_reducible apply State.event_within
    | simp only [Within.mk_iff]
    | with_reducible refine Upd.of ?_ ?_ ?_ ?_ ?_ ?_ ?_ ?_ ?_ ?_ ?_ ?_ ?_ ?_ ?_ ?_ ?_ ?_ ?_ ?_ ?_ ?_
    | split

theorem State.sealInto_within {M : Part → Bool} {a0 : State} {s : State} {c job ctx seed stream page : Nat} {x : Strm} {toks : List Token} {tomb spin tpin : Bool} (m_pg : M .pg = true) (m_hbm : M .hbm = true) (m_rmo : M .rmo = true) (m_egq : M .egq = true) (m_cmp : M .cmp = true) (m_rel : M .rel = true) (m_pd : M .pd = true) (m_boot : M .boot = true) (m_mem : M .mem = true) (m_out : M .out = true) (m_free : M .free = true) (hs : Within M a0 s) : Within M a0 (State.sealInto s c job ctx seed stream page x toks tomb spin tpin).2 := by
  unfold State.sealInto
  try dsimp only
  repeat' first
    | with_reducible exact hs
    | with_reducible assumption
    | with_reducible exact Or.inl (by assumption)
    | with_reducible exact Or.inr rfl
    | with_reducible exact Or.inl rfl
    | with_reducible exact Or.inr ⟨by assumption, Nat.le_add_right _ _⟩
    | with_reducible apply State.store_within
    | with_reducible apply State.countC_within
    | with_reducible apply State.contribute_within
    | with_reducible apply State.allocFrame_within
    | with_reducible apply State.store_within
    | simp only [Within.mk_iff]
    | with_reducible refine Upd.of ?_ ?_ ?_ ?_ ?_ ?_ ?_ ?_ ?_ ?_ ?_ ?_ ?_ ?_ ?_ ?_ ?_ ?_ ?_ ?_ ?_ ?_
    | with_reducible apply Within.ite2
    | with_reducible apply Within.ite
    | with_reducible apply Within.ite1
    | with_reducible apply Within.ite3
    | with_reducible apply Within.ite4
    | split

theorem State.sealNext_within {M : Part → Bool} {a0 : State} {s : State} {job ctx stream : Nat} (m_pg : M .pg = true) (m_hbm : M .hbm = true) (m_rmo : M .rmo = true) (m_egq : M .egq = true) (m_cmp : M .cmp = true) (m_rel : M .rel = true) (m_pd : M .pd = true) (m_boot : M .boot = true) (m_mem : M .mem = true) (m_out : M .out = true) (m_free : M .free = true) (hs : Within M a0 s) : Within M a0 (State.sealNext s job ctx stream) := by
  unfold State.sealNext
  try dsimp only
  repeat' first
    | with_reducible exact hs
    | with_reducible assumption
    | with_reducible exact Or.inl (by assumption)
    | with_reducible exact Or.inr rfl
    | with_reducible exact Or.inl rfl
    | with_reducible exact Or.inr ⟨by assumption, Nat.le_add_right _ _⟩
    | with_reducible apply State.draw_within
    | with_reducible apply State.sendMirror_within
    | with_reducible apply State.setStrm_within
    | with_reducible apply State.growTables_within
    | with_reducible apply State.writePage_within
    | with_reducible apply State.sealInto_within
    | with_reducible apply State.draw_within
    | simp only [Within.mk_iff]
    | with_reducible refine Upd.of ?_ ?_ ?_ ?_ ?_ ?_ ?_ ?_ ?_ ?_ ?_ ?_ ?_ ?_ ?_ ?_ ?_ ?_ ?_ ?_ ?_ ?_
    | with_reducible apply Within.ite
    | with_reducible apply Within.ite1
    | with_reducible apply Within.ite2
    | with_reducible apply Within.ite3
    | with_reducible apply Within.ite4
    | split

theorem State.countPages_within {M : Part → Bool} {a0 : State} {s : State} {job ctx stream : Nat} (m_pg : M .pg = true) (m_hbm : M .hbm = true) (m_mem : M .mem = true) (hs : Within M a0 s) : Within M a0 (State.countPages s job ctx stream) := by
  unfold State.countPages
  try dsimp only
  repeat' first
    | with_reducible exact hs
    | with_reducible assumption
    | with_reducible exact Or.inl (by assumption)
    | with_reducible exact Or.inr rfl
    | with_reducible exact Or.inl rfl
    | with_reducible exact Or.inr ⟨by assumption, Nat.le_add_right _ _⟩
    | with_reducible apply State.setStrm_within
    | with_reducible apply State.writeEntry_within
    | simp only [Within.mk_iff]
    | with_reducible refine Upd.of ?_ ?_ ?_ ?_ ?_ ?_ ?_ ?_ ?_ ?_ ?_ ?_ ?_ ?_ ?_ ?_ ?_ ?_ ?_ ?_ ?_ ?_
    | split

theorem State.releaseOne_within {M : Part → Bool} {a0 : State} {s : State} {job ctx stream : Nat} (m_pg : M .pg = true) (m_hbm : M .hbm = true) (m_mem : M .mem = true) (hs : Within M a0 s) : Within M a0 (State.releaseOne s job ctx stream) := by
  unfold State.releaseOne
  try dsimp only
  repeat' first
    | with_reducible exact hs
    | with_reducible assumption
    | with_reducible exact Or.inl (by assumption)
    | with_reducible exact Or.inr rfl
    | with_reducible exact Or.inl rfl
    | with_reducible exact Or.inr ⟨by assumption, Nat.le_add_right _ _⟩
    | with_reducible apply State.setStrm_within
    | with_reducible apply State.writeSilt_within
    | simp only [Within.mk_iff]
    | with_reducible refine Upd.of ?_ ?_ ?_ ?_ ?_ ?_ ?_ ?_ ?_ ?_ ?_ ?_ ?_ ?_ ?_ ?_ ?_ ?_ ?_ ?_ ?_ ?_
    | with_reducible apply Within.ite
    | with_reducible apply Within.ite1
    | with_reducible apply Within.ite2
    | with_reducible apply Within.ite3
    | with_reducible apply Within.ite4
    | split

theorem State.releaseAll_within {M : Part → Bool} {a0 : State} {s : State} {job ctx stream : Nat} (m_pg : M .pg = true) (m_hbm : M .hbm = true) (m_mem : M .mem = true) (hs : Within M a0 s) : Within M a0 (State.releaseAll s job ctx stream) := by
  unfold State.releaseAll
  try dsimp only
  repeat' first
    | with_reducible exact hs
    | with_reducible assumption
    | with_reducible exact Or.inl (by assumption)
    | with_reducible exact Or.inr rfl
    | with_reducible exact Or.inl rfl
    | with_reducible exact Or.inr ⟨by assumption, Nat.le_add_right _ _⟩
    | with_reducible apply State.releaseOne_within
    | with_reducible refine Within.foldl ?_ (fun _ _ hs => ?_)
    | with_reducible refine Within.foldl1 ?_ (fun _ _ hs => ?_)
    | with_reducible refine Within.foldl2 ?_ (fun _ _ hs => ?_)

theorem State.putPool_within {M : Part → Bool} {a0 : State} {s : State} {key : Nat} {e : Pool} (m_pg : M .pg = true) (m_hbm : M .hbm = true) (m_mem : M .mem = true) (hs : Within M a0 s) : Within M a0 (State.putPool s key e) := by
  unfold State.putPool
  try dsimp only
  repeat' first
    | with_reducible exact hs
    | with_reducible assumption
    | with_reducible exact Or.inl (by assumption)
    | with_reducible exact Or.inr rfl
    | with_reducible exact Or.inl rfl
    | with_reducible exact Or.inr ⟨by assumption, Nat.le_add_right _ _⟩
    | with_reducible apply State.store_within
    | with_reducible apply State.setPg_within
    | with_reducible apply State.store_within
    | simp only [Within.mk_iff]
    | with_reducible refine Upd.of ?_ ?_ ?_ ?_ ?_ ?_ ?_ ?_ ?_ ?_ ?_ ?_ ?_ ?_ ?_ ?_ ?_ ?_ ?_ ?_ ?_ ?_

theorem State.dropPool_within {M : Part → Bool} {a0 : State} {s : State} {key : Nat} (m_pg : M .pg = true) (hs : Within M a0 s) : Within M a0 (State.dropPool s key) := by
  unfold State.dropPool
  try dsimp only
  repeat' first
    | with_reducible exact hs
    | with_reducible assumption
    | with_reducible exact Or.inl (by assumption)
    | with_reducible exact Or.inr rfl
    | with_reducible exact Or.inl rfl
    | with_reducible exact Or.inr ⟨by assumption, Nat.le_add_right _ _⟩
    | with_reducible apply State.setPg_within
    | simp only [Within.mk_iff]
    | with_reducible refine Upd.of ?_ ?_ ?_ ?_ ?_ ?_ ?_ ?_ ?_ ?_ ?_ ?_ ?_ ?_ ?_ ?_ ?_ ?_ ?_ ?_ ?_ ?_
    | split

theorem State.dropRef_within {M : Part → Bool} {a0 : State} {s : State} {pool : Nat} (m_pg : M .pg = true) (m_hbm : M .hbm = true) (m_egq : M .egq = true) (m_rel : M .rel = true) (m_mem : M .mem = true) (hs : Within M a0 s) : Within M a0 (State.dropRef s pool) := by
  unfold State.dropRef
  try dsimp only
  repeat' first
    | with_reducible exact hs
    | with_reducible assumption
    | with_reducible exact Or.inl (by assumption)
    | with_reducible exact Or.inr rfl
    | with_reducible exact Or.inl rfl
    | with_reducible exact Or.inr ⟨by assumption, Nat.le_add_right _ _⟩
    | with_reducible apply State.freeFrameKey_within
    | with_reducible apply State.putPool_within
    | with_reducible apply State.dropPool_within
    | simp only [Within.mk_iff]
    | with_reducible refine Upd.of ?_ ?_ ?_ ?_ ?_ ?_ ?_ ?_ ?_ ?_ ?_ ?_ ?_ ?_ ?_ ?_ ?_ ?_ ?_ ?_ ?_ ?_
    | with_reducible apply Within.ite
    | with_reducible apply Within.ite1
    | with_reducible apply Within.ite2
    | with_reducible apply Within.ite3
    | with_reducible apply Within.ite4
    | split

theorem State.freeDesc_within {M : Part → Bool} {a0 : State} {s : State} {d : Desc} (m_pg : M .pg = true) (m_hbm : M .hbm = true) (m_egq : M .egq = true) (m_rel : M .rel = true) (m_mem : M .mem = true) (hs : Within M a0 s) : Within M a0 (State.freeDesc s d) := by
  unfold State.freeDesc
  try dsimp only
  repeat' first
    | with_reducible exact hs
    | with_reducible assumption
    | with_reducible exact Or.inl (by assumption)
    | with_reducible exact Or.inr rfl
    | with_reducible exact Or.inl rfl
    | with_reducible exact Or.inr ⟨by assumption, Nat.le_add_right _ _⟩
    | with_reducible apply State.freeFrameKey_within
    | with_reducible apply State.dropRef_within
    | with_reducible apply Within.ite
    | split

theorem State.removeCtx_within {M : Part → Bool} {a0 : State} {s : State} {job ctx : Nat} (m_pg : M .pg = true) (m_hbm : M .hbm = true) (m_tier : M .tier = true) (m_egq : M .egq = true) (m_rel : M .rel = true) (m_mem : M .mem = true) (hs : Within M a0 s) : Within M a0 (State.removeCtx s job ctx) := by
  unfold State.removeCtx
  try dsimp only
  repeat' first
    | with_reducible exact hs
    | with_reducible assumption
    | with_reducible exact Or.inl (by assumption)
    | with_reducible exact Or.inr rfl
    | with_reducible exact Or.inl rfl
    | with_reducible exact Or.inr ⟨by assumption, Nat.le_add_right _ _⟩
    | with_reducible apply State.adirRemove_within
    | with_reducible apply State.setPg_within
    | with_reducible apply State.unpend_within
    | with_reducible apply State.freeDesc_within
    | simp only [Within.mk_iff]
    | with_reducible refine Upd.of ?_ ?_ ?_ ?_ ?_ ?_ ?_ ?_ ?_ ?_ ?_ ?_ ?_ ?_ ?_ ?_ ?_ ?_ ?_ ?_ ?_ ?_
    | with_reducible refine Within.foldl ?_ (fun _ _ hs => ?_)
    | with_reducible refine Within.foldl1 ?_ (fun _ _ hs => ?_)
    | with_reducible refine Within.foldl2 ?_ (fun _ _ hs => ?_)
    | split


end Sys2Proof.Machine
end

