-- ==== Sys2Proof/Laws/WithinRecall.lean ====
section
/-! SUPPORT. Which parts of the state the operations of Machine/Recall.lean may move, and that they are steady. -/

set_option linter.unusedTactic false
set_option linter.unreachableTactic false

namespace Sys2Proof.Machine

theorem State.addRecall_within {M : Part → Bool} {a0 : State} {s : State} {k : Ctx} {stream first count : Nat} {part : RPart} {whole : Bool} {start : Phase} {ready : Option Phase} {tells : List (Nat × Phase)} (m_rq : M .rq = true) (m_tier : M .tier = true) (hs : Within M a0 s) : Within M a0 (State.addRecall s k stream first count part whole start ready tells) := by
  unfold State.addRecall
  try dsimp only
  repeat' first
    | with_reducible exact hs
    | with_reducible assumption
    | with_reducible exact Or.inl (by assumption)
    | with_reducible exact Or.inr rfl
    | with_reducible exact Or.inl rfl
    | with_reducible exact Or.inr ⟨by assumption, Nat.le_add_right _ _⟩
    | simp only [Within.mk_iff]
    | with_reducible refine Upd.of ?_ ?_ ?_ ?_ ?_ ?_ ?_ ?_ ?_ ?_ ?_ ?_ ?_ ?_ ?_ ?_ ?_ ?_ ?_ ?_ ?_ ?_
    | with_reducible apply Within.ite
    | with_reducible apply Within.ite1
    | with_reducible apply Within.ite2
    | with_reducible apply Within.ite3
    | with_reducible apply Within.ite4
    | split

theorem State.recallStreams_within {M : Part → Bool} {a0 : State} {s : State} {k : Ctx} {streams : List Nat} {ready : Option Phase} {tells : List (Nat × Phase)} (m_rq : M .rq = true) (m_tier : M .tier = true) (hs : Within M a0 s) : Within M a0 (State.recallStreams s k streams ready tells) := by
  unfold State.recallStreams
  try dsimp only
  repeat' first
    | with_reducible exact hs
    | with_reducible assumption
    | with_reducible exact Or.inl (by assumption)
    | with_reducible exact Or.inr rfl
    | with_reducible exact Or.inl rfl
    | with_reducible exact Or.inr ⟨by assumption, Nat.le_add_right _ _⟩
    | with_reducible apply State.addRecall_within
    | with_reducible apply Within.ite
    | with_reducible refine Within.foldl ?_ (fun _ _ hs => ?_)
    | with_reducible refine Within.foldl1 ?_ (fun _ _ hs => ?_)
    | with_reducible refine Within.foldl2 ?_ (fun _ _ hs => ?_)
    | split

theorem State.wake_within {M : Part → Bool} {a0 : State} {s : State} {k : Ctx} {named : List Nat} {ready : Option Phase} {tells : List (Nat × Phase)} (m_rq : M .rq = true) (m_tier : M .tier = true) (hs : Within M a0 s) : Within M a0 (State.wake s k named ready tells) := by
  unfold State.wake
  try dsimp only
  repeat' first
    | with_reducible exact hs
    | with_reducible assumption
    | with_reducible exact Or.inl (by assumption)
    | with_reducible exact Or.inr rfl
    | with_reducible exact Or.inl rfl
    | with_reducible exact Or.inr ⟨by assumption, Nat.le_add_right _ _⟩
    | with_reducible apply State.recallStreams_within
    | split

theorem State.settleDormant_within {M : Part → Bool} {a0 : State} {s : State} {job ctx : Nat} (m_pg : M .pg = true) (m_hbm : M .hbm = true) (m_pd : M .pd = true) (m_mem : M .mem = true) (hs : Within M a0 s) : Within M a0 (State.settleDormant s job ctx) := by
  unfold State.settleDormant
  try dsimp only
  repeat' first
    | with_reducible exact hs
    | with_reducible assumption
    | with_reducible exact Or.inl (by assumption)
    | with_reducible exact Or.inr rfl
    | with_reducible exact Or.inl rfl
    | with_reducible exact Or.inr ⟨by assumption, Nat.le_add_right _ _⟩
    | with_reducible apply State.store_within
    | with_reducible apply State.countC_within
    | with_reducible apply State.setCtx_within
    | with_reducible apply State.store_within
    | simp only [Within.mk_iff]
    | with_reducible refine Upd.of ?_ ?_ ?_ ?_ ?_ ?_ ?_ ?_ ?_ ?_ ?_ ?_ ?_ ?_ ?_ ?_ ?_ ?_ ?_ ?_ ?_ ?_
    | with_reducible apply Within.ite
    | with_reducible apply Within.ite1
    | with_reducible apply Within.ite2
    | with_reducible apply Within.ite3
    | with_reducible apply Within.ite4
    | split


end Sys2Proof.Machine
end

