-- ==== Sys2Proof/Laws/WithinContexts.lean ====
section
/-! SUPPORT. Which parts of the state the operations of Machine/Contexts.lean may move, and that they are steady. -/

set_option linter.unusedTactic false
set_option linter.unreachableTactic false

namespace Sys2Proof.Machine

theorem State.hold_within {M : Part → Bool} {a0 : State} {s : State} {i : Instr} (m_rq : M .rq = true) (hs : Within M a0 s) : Within M a0 (State.hold s i) := by
  unfold State.hold
  try dsimp only
  repeat' first
    | with_reducible exact hs
    | with_reducible assumption
    | with_reducible exact Or.inl (by assumption)
    | with_reducible exact Or.inr rfl
    | with_reducible exact Or.inl rfl
    | with_reducible exact Or.inr ⟨by assumption, Nat.le_add_right _ _⟩
    | simp only [Within.mk_iff]
    | with_reducible refine Upd.of ?_ ?_ ?_ ?_ ?_ ?_ ?_ ?_ ?_ ?_ ?_ ?_ ?_ ?_ ?_ ?_ ?_ ?_ ?_ ?_ ?_ ?_

theorem State.finishOp_within {M : Part → Bool} {a0 : State} {s : State} {src : Source} {env : Envelope} {q : Option Nat} {op : Nat} {st : Status} {comp : Nat} {copy : List Byte} (m_pg : M .pg = true) (m_rq : M .rq = true) (m_egq : M .egq = true) (m_hif : M .hif = true) (m_out : M .out = true) (m_free : M .free = true) (hs : Within M a0 s) : Within M a0 (State.finishOp s src env q op st comp copy) := by
  unfold State.finishOp
  try dsimp only
  repeat' first
    | with_reducible exact hs
    | with_reducible assumption
    | with_reducible exact Or.inl (by assumption)
    | with_reducible exact Or.inr rfl
    | with_reducible exact Or.inl rfl
    | with_reducible exact Or.inr ⟨by assumption, Nat.le_add_right _ _⟩
    | with_reducible apply State.draw_within
    | with_reducible apply State.endOp_within
    | with_reducible apply State.sendMirror_within
    | with_reducible apply State.setPg_within
    | with_reducible apply State.draw_within
    | simp only [Within.mk_iff]
    | with_reducible refine Upd.of ?_ ?_ ?_ ?_ ?_ ?_ ?_ ?_ ?_ ?_ ?_ ?_ ?_ ?_ ?_ ?_ ?_ ?_ ?_ ?_ ?_ ?_
    | with_reducible apply Within.ite
    | with_reducible apply Within.ite1
    | with_reducible apply Within.ite2
    | with_reducible apply Within.ite3
    | with_reducible apply Within.ite4
    | split

theorem State.mirrorAcked_within {M : Part → Bool} {a0 : State} {s : State} {id : Nat} (m_pg : M .pg = true) (m_rq : M .rq = true) (m_egq : M .egq = true) (m_hif : M .hif = true) (m_out : M .out = true) (hs : Within M a0 s) : Within M a0 (State.mirrorAcked s id) := by
  unfold State.mirrorAcked
  try dsimp only
  repeat' first
    | with_reducible exact hs
    | with_reducible assumption
    | with_reducible exact Or.inl (by assumption)
    | with_reducible exact Or.inr rfl
    | with_reducible exact Or.inl rfl
    | with_reducible exact Or.inr ⟨by assumption, Nat.le_add_right _ _⟩
    | with_reducible apply State.endOp_within
    | with_reducible apply State.setPg_within
    | simp only [Within.mk_iff]
    | with_reducible refine Upd.of ?_ ?_ ?_ ?_ ?_ ?_ ?_ ?_ ?_ ?_ ?_ ?_ ?_ ?_ ?_ ?_ ?_ ?_ ?_ ?_ ?_ ?_
    | with_reducible apply Within.ite
    | with_reducible apply Within.ite1
    | with_reducible apply Within.ite2
    | with_reducible apply Within.ite3
    | with_reducible apply Within.ite4
    | split

theorem goesOn_within {M : Part → Bool}  {a0 s : State} {r : Res} (_ : Within M a0 s) (k : Goes M a0 r) : Within M a0 (goesOn s r) := by
  obtain ⟨t, rfl, h⟩ := k
  exact h

theorem State.newStreams_within {M : Part → Bool} {a0 : State} {s : State} {comp n : Nat} {f : Nat → Strm} (m_free : M .free = true) (hs : Within M a0 s) : Within M a0 (State.newStreams s comp n f).2 := by
  unfold State.newStreams
  try dsimp only
  repeat' first
    | with_reducible exact hs
    | with_reducible assumption
    | with_reducible exact Or.inl (by assumption)
    | with_reducible exact Or.inr rfl
    | with_reducible exact Or.inl rfl
    | with_reducible exact Or.inr ⟨by assumption, Nat.le_add_right _ _⟩
    | simp only [Within.mk_iff]
    | with_reducible refine Upd.of ?_ ?_ ?_ ?_ ?_ ?_ ?_ ?_ ?_ ?_ ?_ ?_ ?_ ?_ ?_ ?_ ?_ ?_ ?_ ?_ ?_ ?_
    | split

theorem State.growStreams_within {M : Part → Bool} {a0 : State} {s : State} {comp : Nat} {x0 : Assoc Strm} (m_hbm : M .hbm = true) (m_mem : M .mem = true) (m_free : M .free = true) (hs : Within M a0 s) : Within M a0 (State.growStreams s comp x0).2 := by
  induction x0 generalizing s with
  | nil =>
    unfold State.growStreams
    try dsimp only
    repeat' first
      | with_reducible exact hs
      | with_reducible assumption
      | with_reducible exact Or.inl (by assumption)
      | with_reducible exact Or.inr rfl
      | with_reducible exact Or.inl rfl
      | with_reducible exact Or.inr ⟨by assumption, Nat.le_add_right _ _⟩
      | with_reducible apply State.growAll_within
      | split
  | cons x l ih =>
    unfold State.growStreams
    try dsimp only
    repeat' first
      | with_reducible exact hs
      | with_reducible assumption
      | with_reducible exact Or.inl (by assumption)
      | with_reducible exact Or.inr rfl
      | with_reducible exact Or.inl rfl
      | with_reducible exact Or.inr ⟨by assumption, Nat.le_add_right _ _⟩
      | with_reducible apply State.growAll_within
      | with_reducible apply ih
      | split

theorem State.enterCtx_within {M : Part → Bool} {a0 : State} {s : State} {k : Ctx} (m_pg : M .pg = true) (m_hbm : M .hbm = true) (m_mem : M .mem = true) (hs : Within M a0 s) : Within M a0 (State.enterCtx s k) := by
  unfold State.enterCtx
  try dsimp only
  repeat' first
    | with_reducible exact hs
    | with_reducible assumption
    | with_reducible exact Or.inl (by assumption)
    | with_reducible exact Or.inr rfl
    | with_reducible exact Or.inl rfl
    | with_reducible exact Or.inr ⟨by assumption, Nat.le_add_right _ _⟩
    | with_reducible apply State.adirInsert_within
    | with_reducible apply State.setPg_within
    | with_reducible apply State.writeCtx_within
    | simp only [Within.mk_iff]
    | with_reducible refine Upd.of ?_ ?_ ?_ ?_ ?_ ?_ ?_ ?_ ?_ ?_ ?_ ?_ ?_ ?_ ?_ ?_ ?_ ?_ ?_ ?_ ?_ ?_

theorem State.ctxCreate_within {M : Part → Bool} {a0 : State} {s : State} {job comp : Nat} {r : CtxReq} (m_pg : M .pg = true) (m_hbm : M .hbm = true) (m_mem : M .mem = true) (m_free : M .free = true) (hs : Within M a0 s) : Within M a0 (State.ctxCreate s job comp r).2.1 := by
  unfold State.ctxCreate
  try dsimp only
  repeat' first
    | with_reducible exact hs
    | with_reducible assumption
    | with_reducible exact Or.inl (by assumption)
    | with_reducible exact Or.inr rfl
    | with_reducible exact Or.inl rfl
    | with_reducible exact Or.inr ⟨by assumption, Nat.le_add_right _ _⟩
    | with_reducible apply State.place_within
    | with_reducible apply State.newStreams_within
    | with_reducible apply State.enterCtx_within
    | with_reducible apply Within.ite4
    | with_reducible apply Within.ite
    | with_reducible apply Within.ite1
    | with_reducible apply Within.ite2
    | with_reducible apply Within.ite3
    | split

theorem State.sharePage_within {M : Part → Bool} {a0 : State} {s : State} {comp : Nat} {p : Page} (m_pg : M .pg = true) (m_hbm : M .hbm = true) (m_mem : M .mem = true) (m_free : M .free = true) (hs : Within M a0 s) : Within M a0 (State.sharePage s comp p).2.2 := by
  unfold State.sharePage
  try dsimp only
  repeat' first
    | with_reducible exact hs
    | with_reducible assumption
    | with_reducible exact Or.inl (by assumption)
    | with_reducible exact Or.inr rfl
    | with_reducible exact Or.inl rfl
    | with_reducible exact Or.inr ⟨by assumption, Nat.le_add_right _ _⟩
    | with_reducible apply State.place_within
    | with_reducible apply State.setPg_within
    | with_reducible apply State.putPool_within
    | simp only [Within.mk_iff]
    | with_reducible refine Upd.of ?_ ?_ ?_ ?_ ?_ ?_ ?_ ?_ ?_ ?_ ?_ ?_ ?_ ?_ ?_ ?_ ?_ ?_ ?_ ?_ ?_ ?_
    | with_reducible apply Within.ite3
    | with_reducible apply Within.ite
    | with_reducible apply Within.ite1
    | with_reducible apply Within.ite2
    | with_reducible apply Within.ite4
    | split

theorem State.sharePages_within {M : Part → Bool} {a0 : State} {s : State} {comp : Nat} {x0 : List Page} (m_pg : M .pg = true) (m_hbm : M .hbm = true) (m_mem : M .mem = true) (m_free : M .free = true) (hs : Within M a0 s) : Within M a0 (State.sharePages s comp x0).2.2 := by
  induction x0 generalizing s with
  | nil =>
    unfold State.sharePages
    try dsimp only
    repeat' first
      | with_reducible exact hs
      | with_reducible assumption
      | with_reducible exact Or.inl (by assumption)
      | with_reducible exact Or.inr rfl
      | with_reducible exact Or.inl rfl
      | with_reducible exact Or.inr ⟨by assumption, Nat.le_add_right _ _⟩
      | with_reducible apply State.sharePage_within
      | split
  | cons x l ih =>
    unfold State.sharePages
    try dsimp only
    repeat' first
      | with_reducible exact hs
      | with_reducible assumption
      | with_reducible exact Or.inl (by assumption)
      | with_reducible exact Or.inr rfl
      | with_reducible exact Or.inl rfl
      | with_reducible exact Or.inr ⟨by assumption, Nat.le_add_right _ _⟩
      | with_reducible apply State.sharePage_within
      | with_reducible apply ih
      | split

theorem State.forkStreams_within {M : Part → Bool} {a0 : State} {s : State} {job parent comp t : Nat} {pk : Ctx} {x0 : Assoc Strm} (m_pg : M .pg = true) (m_hbm : M .hbm = true) (m_mem : M .mem = true) (m_free : M .free = true) (hs : Within M a0 s) : Within M a0 (State.forkStreams s job parent comp t pk x0).2 := by
  induction x0 generalizing s with
  | nil =>
    unfold State.forkStreams
    try dsimp only
    repeat' first
      | with_reducible exact hs
      | with_reducible assumption
      | with_reducible exact Or.inl (by assumption)
      | with_reducible exact Or.inr rfl
      | with_reducible exact Or.inl rfl
      | with_reducible exact Or.inr ⟨by assumption, Nat.le_add_right _ _⟩
      | with_reducible apply State.setStrm_within
      | with_reducible apply State.writePage_within
      | with_reducible apply State.sharePages_within
      | simp only [Within.mk_iff]
      | with_reducible refine Upd.of ?_ ?_ ?_ ?_ ?_ ?_ ?_ ?_ ?_ ?_ ?_ ?_ ?_ ?_ ?_ ?_ ?_ ?_ ?_ ?_ ?_ ?_
      | with_reducible refine Within.foldl ?_ (fun _ _ hs => ?_)
      | with_reducible refine Within.foldl1 ?_ (fun _ _ hs => ?_)
      | with_reducible refine Within.foldl2 ?_ (fun _ _ hs => ?_)
      | split
  | cons x l ih =>
    unfold State.forkStreams
    try dsimp only
    repeat' first
      | with_reducible exact hs
      | with_reducible assumption
      | with_reducible exact Or.inl (by assumption)
      | with_reducible exact Or.inr rfl
      | with_reducible exact Or.inl rfl
      | with_reducible exact Or.inr ⟨by assumption, Nat.le_add_right _ _⟩
      | with_reducible apply State.setStrm_within
      | with_reducible apply State.writePage_within
      | with_reducible apply State.sharePages_within
      | with_reducible apply ih
      | simp only [Within.mk_iff]
      | with_reducible refine Upd.of ?_ ?_ ?_ ?_ ?_ ?_ ?_ ?_ ?_ ?_ ?_ ?_ ?_ ?_ ?_ ?_ ?_ ?_ ?_ ?_ ?_ ?_
      | with_reducible refine Within.foldl ?_ (fun _ _ hs => ?_)
      | with_reducible refine Within.foldl1 ?_ (fun _ _ hs => ?_)
      | with_reducible refine Within.foldl2 ?_ (fun _ _ hs => ?_)
      | split

theorem State.ctxFork_within {M : Part → Bool} {a0 : State} {s : State} {src : Source} {job comp : Nat} {r : CtxReq} (m_pg : M .pg = true) (m_hbm : M .hbm = true) (m_rmo : M .rmo = true) (m_pd : M .pd = true) (m_boot : M .boot = true) (m_mem : M .mem = true) (m_out : M .out = true) (m_free : M .free = true) (hs : Within M a0 s) : Within M a0 (State.ctxFork s src job comp r).2.1 := by
  unfold State.ctxFork
  try dsimp only
  repeat' first
    | with_reducible exact hs
    | with_reducible assumption
    | with_reducible exact Or.inl (by assumption)
    | with_reducible exact Or.inr rfl
    | with_reducible exact Or.inl rfl
    | with_reducible exact Or.inr ⟨by assumption, Nat.le_add_right _ _⟩
    | with_reducible apply State.place_within
    | with_reducible apply State.genMismatch_within
    | with_reducible apply State.newStreams_within
    | with_reducible apply State.growStreams_within
    | with_reducible apply State.enterCtx_within
    | with_reducible apply State.forkStreams_within
    | simp only [Within.mk_iff]
    | with_reducible refine Upd.of ?_ ?_ ?_ ?_ ?_ ?_ ?_ ?_ ?_ ?_ ?_ ?_ ?_ ?_ ?_ ?_ ?_ ?_ ?_ ?_ ?_ ?_
    | split

theorem State.pageMark_within {M : Part → Bool} {a0 : State} {s : State} {src : Source} {k : Ctx} {r : CtxReq} (m_pg : M .pg = true) (m_hbm : M .hbm = true) (m_mem : M .mem = true) (hs : Within M a0 s) : Within M a0 (State.pageMark s src k r).2.1 := by
  unfold State.pageMark
  try dsimp only
  repeat' first
    | with_reducible exact hs
    | with_reducible assumption
    | with_reducible exact Or.inl (by assumption)
    | with_reducible exact Or.inr rfl
    | with_reducible exact Or.inl rfl
    | with_reducible exact Or.inr ⟨by assumption, Nat.le_add_right _ _⟩
    | with_reducible apply State.setStrm_within
    | with_reducible apply State.writePage_within
    | simp only [Within.mk_iff]
    | with_reducible refine Upd.of ?_ ?_ ?_ ?_ ?_ ?_ ?_ ?_ ?_ ?_ ?_ ?_ ?_ ?_ ?_ ?_ ?_ ?_ ?_ ?_ ?_ ?_
    | with_reducible apply Within.ite4
    | with_reducible apply Within.ite
    | with_reducible apply Within.ite1
    | with_reducible apply Within.ite2
    | with_reducible apply Within.ite3
    | with_reducible refine Within.foldl ?_ (fun _ _ hs => ?_)
    | with_reducible refine Within.foldl1 ?_ (fun _ _ hs => ?_)
    | with_reducible refine Within.foldl2 ?_ (fun _ _ hs => ?_)
    | split

theorem State.replacePage_within {M : Part → Bool} {a0 : State} {s : State} {k : Ctx} {stream page : Nat} {x : Strm} {old : Page} {toks : List Token} {tomb spin : Bool} (m_pg : M .pg = true) (m_hbm : M .hbm = true) (m_rmo : M .rmo = true) (m_egq : M .egq = true) (m_cmp : M .cmp = true) (m_rel : M .rel = true) (m_pd : M .pd = true) (m_boot : M .boot = true) (m_mem : M .mem = true) (m_out : M .out = true) (m_free : M .free = true) (hs : Within M a0 s) : Within M a0 (State.replacePage s k stream page x old toks tomb spin).2 := by
  unfold State.replacePage
  try dsimp only
  repeat' first
    | with_reducible exact hs
    | with_reducible assumption
    | with_reducible exact Or.inl (by assumption)
    | with_reducible exact Or.inr rfl
    | with_reducible exact Or.inl rfl
    | with_reducible exact Or.inr ⟨by assumption, Nat.le_add_right _ _⟩
    | with_reducible apply State.unpend_within
    | with_reducible apply State.setPage_within
    | with_reducible apply State.sealInto_within
    | with_reducible apply State.freeDesc_within
    | with_reducible apply Within.ite2
    | with_reducible apply Within.ite
    | with_reducible apply Within.ite1
    | with_reducible apply Within.ite3
    | with_reducible apply Within.ite4
    | split

theorem State.pageRewrite_within {M : Part → Bool} {a0 : State} {s : State} {src : Source} {k : Ctx} {r : CtxReq} (m_pg : M .pg = true) (m_hbm : M .hbm = true) (m_rmo : M .rmo = true) (m_egq : M .egq = true) (m_cmp : M .cmp = true) (m_rel : M .rel = true) (m_pd : M .pd = true) (m_boot : M .boot = true) (m_mem : M .mem = true) (m_out : M .out = true) (m_free : M .free = true) (hs : Within M a0 s) : Within M a0 (State.pageRewrite s src k r).2.1 := by
  unfold State.pageRewrite
  try dsimp only
  repeat' first
    | with_reducible exact hs
    | with_reducible assumption
    | with_reducible exact Or.inl (by assumption)
    | with_reducible exact Or.inr rfl
    | with_reducible exact Or.inl rfl
    | with_reducible exact Or.inr ⟨by assumption, Nat.le_add_right _ _⟩
    | with_reducible apply State.genMismatch_within
    | with_reducible apply State.replacePage_within
    | with_reducible apply Within.ite4
    | with_reducible apply Within.ite
    | with_reducible apply Within.ite1
    | with_reducible apply Within.ite2
    | with_reducible apply Within.ite3
    | split

theorem State.endAppend_within {M : Part → Bool} {a0 : State} {s : State} {p : PendOp} {st : Status} {seq : Nat} (m_phs : M .phs = true) (m_sch : M .sch = true) (m_rq : M .rq = true) (m_hbm : M .hbm = true) (m_rmo : M .rmo = true) (m_egq : M .egq = true) (m_hif : M .hif = true) (m_pd : M .pd = true) (m_mem : M .mem = true) (m_out : M .out = true) (hs : Within M a0 s) : Within M a0 (State.endAppend s p st seq) := by
  unfold State.endAppend
  try dsimp only
  repeat' first
    | with_reducible exact hs
    | with_reducible assumption
    | with_reducible exact Or.inl (by assumption)
    | with_reducible exact Or.inr rfl
    | with_reducible exact Or.inl rfl
    | with_reducible exact Or.inr ⟨by assumption, Nat.le_add_right _ _⟩
    | with_reducible apply State.arrive_within
    | with_reducible apply State.breach_within
    | with_reducible apply State.endOp_within
    | with_reducible apply State.donePlace_within
    | with_reducible apply State.ratio_within
    | with_reducible apply State.lateBreach_within
    | with_reducible apply State.arrive_within
    | with_reducible apply Within.ite
    | with_reducible apply Within.ite1
    | with_reducible apply Within.ite2
    | with_reducible apply Within.ite3
    | with_reducible apply Within.ite4
    | split

theorem State.applyAppend_within {M : Part → Bool} {a0 : State} {s : State} {k : Ctx} {x' : Strm} {p : PendOp} (m_phs : M .phs = true) (m_sch : M .sch = true) (m_pg : M .pg = true) (m_rq : M .rq = true) (m_hbm : M .hbm = true) (m_rmo : M .rmo = true) (m_egq : M .egq = true) (m_hif : M .hif = true) (m_pd : M .pd = true) (m_mem : M .mem = true) (m_out : M .out = true) (m_free : M .free = true) (hs : Within M a0 s) : Within M a0 (State.applyAppend s k x' p) := by
  unfold State.applyAppend
  try dsimp only
  repeat' first
    | with_reducible exact hs
    | with_reducible assumption
    | with_reducible exact Or.inl (by assumption)
    | with_reducible exact Or.inr rfl
    | with_reducible exact Or.inl rfl
    | with_reducible exact Or.inr ⟨by assumption, Nat.le_add_right _ _⟩
    | with_reducible apply State.draw_within
    | with_reducible apply State.countC_within
    | with_reducible apply State.breach_within
    | with_reducible apply State.sendMirror_within
    | with_reducible apply State.setPg_within
    | with_reducible apply State.setStrm_within
    | with_reducible apply State.writeSilt_within
    | with_reducible apply State.endAppend_within
    | with_reducible apply State.draw_within
    | simp only [Within.mk_iff]
    | with_reducible refine Upd.of ?_ ?_ ?_ ?_ ?_ ?_ ?_ ?_ ?_ ?_ ?_ ?_ ?_ ?_ ?_ ?_ ?_ ?_ ?_ ?_ ?_ ?_
    | with_reducible apply Within.ite
    | with_reducible apply Within.ite1
    | with_reducible apply Within.ite2
    | with_reducible apply Within.ite3
    | with_reducible apply Within.ite4
    | split

theorem State.appendAcked_within {M : Part → Bool} {a0 : State} {s : State} {id : Nat} (m_pg : M .pg = true) (hs : Within M a0 s) : Within M a0 (State.appendAcked s id) := by
  unfold State.appendAcked
  try dsimp only
  repeat' first
    | with_reducible exact hs
    | with_reducible assumption
    | with_reducible exact Or.inl (by assumption)
    | with_reducible exact Or.inr rfl
    | with_reducible exact Or.inl rfl
    | with_reducible exact Or.inr ⟨by assumption, Nat.le_add_right _ _⟩
    | with_reducible apply State.setPg_within
    | simp only [Within.mk_iff]
    | with_reducible refine Upd.of ?_ ?_ ?_ ?_ ?_ ?_ ?_ ?_ ?_ ?_ ?_ ?_ ?_ ?_ ?_ ?_ ?_ ?_ ?_ ?_ ?_ ?_
    | split

theorem State.runAppend_within {M : Part → Bool} {a0 : State} {s : State} {k : Ctx} {p : PendOp} (m_phs : M .phs = true) (m_sch : M .sch = true) (m_pg : M .pg = true) (m_rq : M .rq = true) (m_hbm : M .hbm = true) (m_tier : M .tier = true) (m_rmo : M .rmo = true) (m_egq : M .egq = true) (m_cmp : M .cmp = true) (m_rel : M .rel = true) (m_hif : M .hif = true) (m_pd : M .pd = true) (m_boot : M .boot = true) (m_mem : M .mem = true) (m_out : M .out = true) (m_free : M .free = true) (hs : Within M a0 s) : Within M a0 (State.runAppend s k p).2 := by
  unfold State.runAppend
  try dsimp only
  repeat' first
    | with_reducible exact hs
    | with_reducible assumption
    | with_reducible exact Or.inl (by assumption)
    | with_reducible exact Or.inr rfl
    | with_reducible exact Or.inl rfl
    | with_reducible exact Or.inr ⟨by assumption, Nat.le_add_right _ _⟩
    | with_reducible apply State.countC_within
    | with_reducible apply State.setPg_within
    | with_reducible apply State.setStrm_within
    | with_reducible apply State.writeSilt_within
    | with_reducible apply State.sealNext_within
    | with_reducible apply State.countPages_within
    | with_reducible apply State.releaseAll_within
    | with_reducible apply State.recallStreams_within
    | with_reducible apply State.endAppend_within
    | with_reducible apply State.applyAppend_within
    | simp only [Within.mk_iff]
    | with_reducible refine Upd.of ?_ ?_ ?_ ?_ ?_ ?_ ?_ ?_ ?_ ?_ ?_ ?_ ?_ ?_ ?_ ?_ ?_ ?_ ?_ ?_ ?_ ?_
    | with_reducible apply Within.ite2
    | with_reducible apply Within.ite
    | with_reducible apply Within.ite1
    | with_reducible apply Within.ite3
    | with_reducible apply Within.ite4
    | with_reducible refine Within.foldl ?_ (fun _ _ hs => ?_)
    | with_reducible refine Within.foldl1 ?_ (fun _ _ hs => ?_)
    | with_reducible refine Within.foldl2 ?_ (fun _ _ hs => ?_)
    | split

theorem State.runOp_within {M : Part → Bool} {a0 : State} {s : State} {p : PendOp} (m_phs : M .phs = true) (m_sch : M .sch = true) (m_pg : M .pg = true) (m_rq : M .rq = true) (m_hbm : M .hbm = true) (m_tier : M .tier = true) (m_rmo : M .rmo = true) (m_egq : M .egq = true) (m_cmp : M .cmp = true) (m_rel : M .rel = true) (m_hif : M .hif = true) (m_pd : M .pd = true) (m_boot : M .boot = true) (m_mem : M .mem = true) (m_out : M .out = true) (m_free : M .free = true) (hs : Within M a0 s) : Within M a0 (State.runOp s p).2 := by
  unfold State.runOp
  try dsimp only
  repeat' first
    | with_reducible exact hs
    | with_reducible assumption
    | with_reducible exact Or.inl (by assumption)
    | with_reducible exact Or.inr rfl
    | with_reducible exact Or.inl rfl
    | with_reducible exact Or.inr ⟨by assumption, Nat.le_add_right _ _⟩
    | with_reducible apply State.endOp_within
    | with_reducible apply State.adirStall_within
    | with_reducible apply State.removeCtx_within
    | with_reducible apply State.finishOp_within
    | with_reducible apply State.ctxCreate_within
    | with_reducible apply State.ctxFork_within
    | with_reducible apply State.pageMark_within
    | with_reducible apply State.pageRewrite_within
    | with_reducible apply State.runAppend_within
    | simp only [Within.mk_iff]
    | with_reducible refine Upd.of ?_ ?_ ?_ ?_ ?_ ?_ ?_ ?_ ?_ ?_ ?_ ?_ ?_ ?_ ?_ ?_ ?_ ?_ ?_ ?_ ?_ ?_
    | with_reducible apply Within.ite2
    | with_reducible apply Within.ite
    | with_reducible apply Within.ite1
    | with_reducible apply Within.ite3
    | with_reducible apply Within.ite4
    | split

theorem State.drainOps_within {M : Part → Bool} {a0 : State} {s : State} (m_phs : M .phs = true) (m_sch : M .sch = true) (m_pg : M .pg = true) (m_rq : M .rq = true) (m_hbm : M .hbm = true) (m_tier : M .tier = true) (m_rmo : M .rmo = true) (m_egq : M .egq = true) (m_cmp : M .cmp = true) (m_rel : M .rel = true) (m_hif : M .hif = true) (m_pd : M .pd = true) (m_boot : M .boot = true) (m_mem : M .mem = true) (m_out : M .out = true) (m_free : M .free = true) (hs : Within M a0 s) : Within M a0 (State.drainOps s) := by
  unfold State.drainOps
  try dsimp only
  repeat' first
    | with_reducible exact hs
    | with_reducible assumption
    | with_reducible exact Or.inl (by assumption)
    | with_reducible exact Or.inr rfl
    | with_reducible exact Or.inl rfl
    | with_reducible exact Or.inr ⟨by assumption, Nat.le_add_right _ _⟩
    | with_reducible apply State.setPg_within
    | with_reducible apply State.runOp_within
    | simp only [Within.mk_iff]
    | with_reducible refine Upd.of ?_ ?_ ?_ ?_ ?_ ?_ ?_ ?_ ?_ ?_ ?_ ?_ ?_ ?_ ?_ ?_ ?_ ?_ ?_ ?_ ?_ ?_
    | with_reducible apply Within.ite
    | with_reducible refine Within.foldl ?_ (fun _ _ hs => ?_)
    | with_reducible refine Within.foldl1 ?_ (fun _ _ hs => ?_)
    | with_reducible refine Within.foldl2 ?_ (fun _ _ hs => ?_)
    | split

theorem State.ctxOp_within {M : Part → Bool} {a0 : State} {s : State} {src : Source} {op : Nat} {r : CtxReq} (m_phs : M .phs = true) (m_sch : M .sch = true) (m_pg : M .pg = true) (m_rq : M .rq = true) (m_hbm : M .hbm = true) (m_tier : M .tier = true) (m_rmo : M .rmo = true) (m_egq : M .egq = true) (m_cmp : M .cmp = true) (m_rel : M .rel = true) (m_hif : M .hif = true) (m_pd : M .pd = true) (m_boot : M .boot = true) (m_mem : M .mem = true) (m_out : M .out = true) (m_free : M .free = true) (hs : Within M a0 s) : Within M a0 (State.ctxOp s src op r) := by
  unfold State.ctxOp
  try dsimp only
  repeat' first
    | with_reducible exact hs
    | with_reducible assumption
    | with_reducible exact Or.inl (by assumption)
    | with_reducible exact Or.inr rfl
    | with_reducible exact Or.inl rfl
    | with_reducible exact Or.inr ⟨by assumption, Nat.le_add_right _ _⟩
    | with_reducible apply State.breach_within
    | with_reducible apply State.noReply_within
    | with_reducible apply State.endOp_within
    | with_reducible apply State.takePlace_within
    | with_reducible apply State.setPg_within
    | with_reducible apply State.drainOps_within
    | simp only [Within.mk_iff]
    | with_reducible refine Upd.of ?_ ?_ ?_ ?_ ?_ ?_ ?_ ?_ ?_ ?_ ?_ ?_ ?_ ?_ ?_ ?_ ?_ ?_ ?_ ?_ ?_ ?_
    | with_reducible apply Within.ite
    | with_reducible apply Within.ite1
    | with_reducible apply Within.ite2
    | with_reducible apply Within.ite3
    | with_reducible apply Within.ite4
    | split

theorem State.ctxCommand_within {M : Part → Bool} {a0 : State} {s : State} {i : Instr} {src : Source} {op : Nat} {r : CtxReq} (m_phs : M .phs = true) (m_sch : M .sch = true) (m_pg : M .pg = true) (m_rq : M .rq = true) (m_hbm : M .hbm = true) (m_tier : M .tier = true) (m_rmo : M .rmo = true) (m_egq : M .egq = true) (m_cmp : M .cmp = true) (m_rel : M .rel = true) (m_hif : M .hif = true) (m_pd : M .pd = true) (m_boot : M .boot = true) (m_mem : M .mem = true) (m_out : M .out = true) (m_free : M .free = true) (hs : Within M a0 s) : Within M a0 (State.ctxCommand s i src op r) := by
  unfold State.ctxCommand
  try dsimp only
  repeat' first
    | with_reducible exact hs
    | with_reducible assumption
    | with_reducible exact Or.inl (by assumption)
    | with_reducible exact Or.inr rfl
    | with_reducible exact Or.inl rfl
    | with_reducible exact Or.inr ⟨by assumption, Nat.le_add_right _ _⟩
    | with_reducible apply State.hold_within
    | with_reducible apply State.ctxOp_within
    | with_reducible apply Within.ite
    | split

theorem execCtxCreate_goes {M : Part → Bool} {a0 : State} {t : Nat} {src : Source} {r : CtxReq} {s : State} (m_timer : M .timer = true) (m_phs : M .phs = true) (m_sch : M .sch = true) (m_pg : M .pg = true) (m_rq : M .rq = true) (m_hbm : M .hbm = true) (m_tier : M .tier = true) (m_rmo : M .rmo = true) (m_egq : M .egq = true) (m_cmp : M .cmp = true) (m_rel : M .rel = true) (m_hif : M .hif = true) (m_pd : M .pd = true) (m_boot : M .boot = true) (m_mem : M .mem = true) (m_out : M .out = true) (m_free : M .free = true) (hs : Within M a0 s) : Goes M a0 (execCtxCreate t src r s) := by
  unfold execCtxCreate
  try dsimp only
  repeat' first
    | with_reducible exact hs
    | with_reducible assumption
    | with_reducible exact Or.inl (by assumption)
    | with_reducible exact Or.inr rfl
    | with_reducible exact Or.inl rfl
    | with_reducible exact Or.inr ⟨by assumption, Nat.le_add_right _ _⟩
    | with_reducible apply Goes.next
    | with_reducible apply Goes.ite
    | with_reducible apply State.arrive_within
    | with_reducible apply State.ctxCreate_within
    | with_reducible apply State.ctxCommand_within
    | with_reducible apply State.arrive_within
    | refine fun _ _ _ (hs : Within _ _ _) => ?_
    | refine fun _ (hs : Within _ _ _) => ?_

theorem execCtxFork_goes {M : Part → Bool} {a0 : State} {t : Nat} {src : Source} {r : CtxReq} {s : State} (m_timer : M .timer = true) (m_phs : M .phs = true) (m_sch : M .sch = true) (m_pg : M .pg = true) (m_rq : M .rq = true) (m_hbm : M .hbm = true) (m_tier : M .tier = true) (m_rmo : M .rmo = true) (m_egq : M .egq = true) (m_cmp : M .cmp = true) (m_rel : M .rel = true) (m_hif : M .hif = true) (m_pd : M .pd = true) (m_boot : M .boot = true) (m_mem : M .mem = true) (m_out : M .out = true) (m_free : M .free = true) (hs : Within M a0 s) : Goes M a0 (execCtxFork t src r s) := by
  unfold execCtxFork
  try dsimp only
  repeat' first
    | with_reducible exact hs
    | with_reducible assumption
    | with_reducible exact Or.inl (by assumption)
    | with_reducible exact Or.inr rfl
    | with_reducible exact Or.inl rfl
    | with_reducible exact Or.inr ⟨by assumption, Nat.le_add_right _ _⟩
    | with_reducible apply Goes.next
    | with_reducible apply Goes.ite
    | with_reducible apply State.arrive_within
    | with_reducible apply State.ctxFork_within
    | with_reducible apply State.ctxCommand_within
    | with_reducible apply State.arrive_within
    | refine fun _ _ _ (hs : Within _ _ _) => ?_
    | refine fun _ (hs : Within _ _ _) => ?_

theorem execCtxDelete_goes {M : Part → Bool} {a0 : State} {t : Nat} {src : Source} {r : CtxReq} {s : State} (m_timer : M .timer = true) (m_phs : M .phs = true) (m_sch : M .sch = true) (m_pg : M .pg = true) (m_rq : M .rq = true) (m_hbm : M .hbm = true) (m_tier : M .tier = true) (m_rmo : M .rmo = true) (m_egq : M .egq = true) (m_cmp : M .cmp = true) (m_rel : M .rel = true) (m_hif : M .hif = true) (m_pd : M .pd = true) (m_boot : M .boot = true) (m_mem : M .mem = true) (m_out : M .out = true) (m_free : M .free = true) (hs : Within M a0 s) : Goes M a0 (execCtxDelete t src r s) := by
  unfold execCtxDelete
  try dsimp only
  repeat' first
    | with_reducible exact hs
    | with_reducible assumption
    | with_reducible exact Or.inl (by assumption)
    | with_reducible exact Or.inr rfl
    | with_reducible exact Or.inl rfl
    | with_reducible exact Or.inr ⟨by assumption, Nat.le_add_right _ _⟩
    | with_reducible apply Goes.next
    | with_reducible apply Goes.ite
    | with_reducible apply State.arrive_within
    | with_reducible apply State.ctxCommand_within
    | with_reducible apply State.arrive_within
    | refine fun _ _ _ (hs : Within _ _ _) => ?_
    | refine fun _ (hs : Within _ _ _) => ?_

theorem execSiltAppend_goes {M : Part → Bool} {a0 : State} {t : Nat} {src : Source} {r : CtxReq} {s : State} (m_timer : M .timer = true) (m_phs : M .phs = true) (m_sch : M .sch = true) (m_pg : M .pg = true) (m_rq : M .rq = true) (m_hbm : M .hbm = true) (m_tier : M .tier = true) (m_rmo : M .rmo = true) (m_egq : M .egq = true) (m_cmp : M .cmp = true) (m_rel : M .rel = true) (m_hif : M .hif = true) (m_pd : M .pd = true) (m_boot : M .boot = true) (m_mem : M .mem = true) (m_out : M .out = true) (m_free : M .free = true) (hs : Within M a0 s) : Goes M a0 (execSiltAppend t src r s) := by
  unfold execSiltAppend
  try dsimp only
  repeat' first
    | with_reducible exact hs
    | with_reducible assumption
    | with_reducible exact Or.inl (by assumption)
    | with_reducible exact Or.inr rfl
    | with_reducible exact Or.inl rfl
    | with_reducible exact Or.inr ⟨by assumption, Nat.le_add_right _ _⟩
    | with_reducible apply Goes.next
    | with_reducible apply Goes.ite
    | with_reducible apply State.arrive_within
    | with_reducible apply State.ctxCommand_within
    | with_reducible apply State.arrive_within
    | refine fun _ _ _ (hs : Within _ _ _) => ?_
    | refine fun _ (hs : Within _ _ _) => ?_

theorem execPageMark_goes {M : Part → Bool} {a0 : State} {t : Nat} {src : Source} {r : CtxReq} {s : State} (m_timer : M .timer = true) (m_phs : M .phs = true) (m_sch : M .sch = true) (m_pg : M .pg = true) (m_rq : M .rq = true) (m_hbm : M .hbm = true) (m_tier : M .tier = true) (m_rmo : M .rmo = true) (m_egq : M .egq = true) (m_cmp : M .cmp = true) (m_rel : M .rel = true) (m_hif : M .hif = true) (m_pd : M .pd = true) (m_boot : M .boot = true) (m_mem : M .mem = true) (m_out : M .out = true) (m_free : M .free = true) (hs : Within M a0 s) : Goes M a0 (execPageMark t src r s) := by
  unfold execPageMark
  try dsimp only
  repeat' first
    | with_reducible exact hs
    | with_reducible assumption
    | with_reducible exact Or.inl (by assumption)
    | with_reducible exact Or.inr rfl
    | with_reducible exact Or.inl rfl
    | with_reducible exact Or.inr ⟨by assumption, Nat.le_add_right _ _⟩
    | with_reducible apply Goes.next
    | with_reducible apply Goes.ite
    | with_reducible apply State.arrive_within
    | with_reducible apply State.pageMark_within
    | with_reducible apply State.ctxCommand_within
    | with_reducible apply State.arrive_within
    | refine fun _ _ _ (hs : Within _ _ _) => ?_
    | refine fun _ (hs : Within _ _ _) => ?_

theorem execPageRewrite_goes {M : Part → Bool} {a0 : State} {t : Nat} {src : Source} {r : CtxReq} {s : State} (m_timer : M .timer = true) (m_phs : M .phs = true) (m_sch : M .sch = true) (m_pg : M .pg = true) (m_rq : M .rq = true) (m_hbm : M .hbm = true) (m_tier : M .tier = true) (m_rmo : M .rmo = true) (m_egq : M .egq = true) (m_cmp : M .cmp = true) (m_rel : M .rel = true) (m_hif : M .hif = true) (m_pd : M .pd = true) (m_boot : M .boot = true) (m_mem : M .mem = true) (m_out : M .out = true) (m_free : M .free = true) (hs : Within M a0 s) : Goes M a0 (execPageRewrite t src r s) := by
  unfold execPageRewrite
  try dsimp only
  repeat' first
    | with_reducible exact hs
    | with_reducible assumption
    | with_reducible exact Or.inl (by assumption)
    | with_reducible exact Or.inr rfl
    | with_reducible exact Or.inl rfl
    | with_reducible exact Or.inr ⟨by assumption, Nat.le_add_right _ _⟩
    | with_reducible apply Goes.next
    | with_reducible apply Goes.ite
    | with_reducible apply State.arrive_within
    | with_reducible apply State.pageRewrite_within
    | with_reducible apply State.ctxCommand_within
    | with_reducible apply State.arrive_within
    | refine fun _ _ _ (hs : Within _ _ _) => ?_
    | refine fun _ (hs : Within _ _ _) => ?_


end Sys2Proof.Machine
end

