-- ==== Sys2Proof/Laws/WithinTierOps.lean ====
section
/-! SUPPORT. Which parts of the state the operations of Machine/TierOps.lean may move, and that they are steady. -/

set_option linter.unusedTactic false
set_option linter.unreachableTactic false

namespace Sys2Proof.Machine

theorem State.setHome_within {M : Part → Bool} {a0 : State} {s : State} {job ctx stream page : Nat} {p : Page} {f : Desc → Desc} (m_pg : M .pg = true) (m_hbm : M .hbm = true) (m_mem : M .mem = true) (hs : Within M a0 s) : Within M a0 (State.setHome s job ctx stream page p f) := by
  unfold State.setHome
  try dsimp only
  repeat' first
    | with_reducible exact hs
    | with_reducible assumption
    | with_reducible exact Or.inl (by assumption)
    | with_reducible exact Or.inr rfl
    | with_reducible exact Or.inl rfl
    | with_reducible exact Or.inr ⟨by assumption, Nat.le_add_right _ _⟩
    | with_reducible apply State.setPage_within
    | with_reducible apply State.putPool_within
    | simp only [Within.mk_iff]
    | with_reducible refine Upd.of ?_ ?_ ?_ ?_ ?_ ?_ ?_ ?_ ?_ ?_ ?_ ?_ ?_ ?_ ?_ ?_ ?_ ?_ ?_ ?_ ?_ ?_
    | with_reducible apply Within.ite
    | with_reducible apply Within.ite1
    | with_reducible apply Within.ite2
    | with_reducible apply Within.ite3
    | with_reducible apply Within.ite4
    | split

theorem State.setFlash_within {M : Part → Bool} {a0 : State} {s : State} {n : Nat} {f : Flash} (m_tier : M .tier = true) (hs : Within M a0 s) : Within M a0 (State.setFlash s n f) := by
  unfold State.setFlash
  try dsimp only
  repeat' first
    | with_reducible exact hs
    | with_reducible assumption
    | with_reducible exact Or.inl (by assumption)
    | with_reducible exact Or.inr rfl
    | with_reducible exact Or.inl rfl
    | with_reducible exact Or.inr ⟨by assumption, Nat.le_add_right _ _⟩
    | simp only [Within.mk_iff]
    | with_reducible refine Upd.of ?_ ?_ ?_ ?_ ?_ ?_ ?_ ?_ ?_ ?_ ?_ ?_ ?_ ?_ ?_ ?_ ?_ ?_ ?_ ?_ ?_ ?_

theorem State.flashOps_within {M : Part → Bool} {a0 : State} {s : State} {ch : Nat} {ops : List Nat} (m_out : M .out = true) (hs : Within M a0 s) : Within M a0 (State.flashOps s ch ops) := by
  unfold State.flashOps
  try dsimp only
  repeat' first
    | with_reducible exact hs
    | with_reducible assumption
    | with_reducible exact Or.inl (by assumption)
    | with_reducible exact Or.inr rfl
    | with_reducible exact Or.inl rfl
    | with_reducible exact Or.inr ⟨by assumption, Nat.le_add_right _ _⟩
    | simp only [Within.mk_iff]
    | with_reducible refine Upd.of ?_ ?_ ?_ ?_ ?_ ?_ ?_ ?_ ?_ ?_ ?_ ?_ ?_ ?_ ?_ ?_ ?_ ?_ ?_ ?_ ?_ ?_
    | with_reducible apply Within.ite
    | split

theorem State.stale_within {M : Part → Bool} {a0 : State} {s : State} {k : Chunk} (m_tier : M .tier = true) (hs : Within M a0 s) : Within M a0 (State.stale s k) := by
  unfold State.stale
  try dsimp only
  repeat' first
    | with_reducible exact hs
    | with_reducible assumption
    | with_reducible exact Or.inl (by assumption)
    | with_reducible exact Or.inr rfl
    | with_reducible exact Or.inl rfl
    | with_reducible exact Or.inr ⟨by assumption, Nat.le_add_right _ _⟩
    | with_reducible apply State.setFlash_within
    | simp only [Within.mk_iff]
    | with_reducible refine Upd.of ?_ ?_ ?_ ?_ ?_ ?_ ?_ ?_ ?_ ?_ ?_ ?_ ?_ ?_ ?_ ?_ ?_ ?_ ?_ ?_ ?_ ?_
    | with_reducible apply Within.ite
    | split

theorem State.placeChunk_within {M : Part → Bool} {a0 : State} {s : State} {k : Chunk} {reserve : Bool} (m_tier : M .tier = true) (m_out : M .out = true) (hs : Within M a0 s) : Within M a0 (State.placeChunk s k reserve) := by
  unfold State.placeChunk
  try dsimp only
  repeat' first
    | with_reducible exact hs
    | with_reducible assumption
    | with_reducible exact Or.inl (by assumption)
    | with_reducible exact Or.inr rfl
    | with_reducible exact Or.inl rfl
    | with_reducible exact Or.inr ⟨by assumption, Nat.le_add_right _ _⟩
    | with_reducible apply State.emit_within
    | with_reducible apply State.setFlash_within
    | with_reducible apply State.flashOps_within
    | simp only [Within.mk_iff]
    | with_reducible refine Upd.of ?_ ?_ ?_ ?_ ?_ ?_ ?_ ?_ ?_ ?_ ?_ ?_ ?_ ?_ ?_ ?_ ?_ ?_ ?_ ?_ ?_ ?_
    | with_reducible apply Within.ite
    | split

theorem State.programChunk_within {M : Part → Bool} {a0 : State} {s : State} {k : Chunk} {reserve : Bool} (m_tier : M .tier = true) (m_out : M .out = true) (hs : Within M a0 s) : Within M a0 (State.programChunk s k reserve) := by
  unfold State.programChunk
  try dsimp only
  repeat' first
    | with_reducible exact hs
    | with_reducible assumption
    | with_reducible exact Or.inl (by assumption)
    | with_reducible exact Or.inr rfl
    | with_reducible exact Or.inl rfl
    | with_reducible exact Or.inr ⟨by assumption, Nat.le_add_right _ _⟩
    | with_reducible apply State.stale_within
    | with_reducible apply State.placeChunk_within
    | simp only [Within.mk_iff]
    | with_reducible refine Upd.of ?_ ?_ ?_ ?_ ?_ ?_ ?_ ?_ ?_ ?_ ?_ ?_ ?_ ?_ ?_ ?_ ?_ ?_ ?_ ?_ ?_ ?_
    | with_reducible apply Within.ite
    | with_reducible refine Within.foldl ?_ (fun _ _ hs => ?_)
    | with_reducible refine Within.foldl1 ?_ (fun _ _ hs => ?_)
    | with_reducible refine Within.foldl2 ?_ (fun _ _ hs => ?_)
    | split

theorem State.retryChunks_within {M : Part → Bool} {a0 : State} {s : State} {ch : Nat} (m_tier : M .tier = true) (m_out : M .out = true) (hs : Within M a0 s) : Within M a0 (State.retryChunks s ch) := by
  unfold State.retryChunks
  try dsimp only
  repeat' first
    | with_reducible exact hs
    | with_reducible assumption
    | with_reducible exact Or.inl (by assumption)
    | with_reducible exact Or.inr rfl
    | with_reducible exact Or.inl rfl
    | with_reducible exact Or.inr ⟨by assumption, Nat.le_add_right _ _⟩
    | with_reducible apply State.placeChunk_within
    | with_reducible refine Within.foldl ?_ (fun _ _ hs => ?_)
    | with_reducible refine Within.foldl1 ?_ (fun _ _ hs => ?_)
    | with_reducible refine Within.foldl2 ?_ (fun _ _ hs => ?_)

theorem State.writeParity_within {M : Part → Bool} {a0 : State} {s : State} {k : Chunk} (m_tier : M .tier = true) (m_out : M .out = true) (hs : Within M a0 s) : Within M a0 (State.writeParity s k) := by
  unfold State.writeParity
  try dsimp only
  repeat' first
    | with_reducible exact hs
    | with_reducible assumption
    | with_reducible exact Or.inl (by assumption)
    | with_reducible exact Or.inr rfl
    | with_reducible exact Or.inl rfl
    | with_reducible exact Or.inr ⟨by assumption, Nat.le_add_right _ _⟩
    | with_reducible apply State.programChunk_within
    | simp only [Within.mk_iff]
    | with_reducible refine Upd.of ?_ ?_ ?_ ?_ ?_ ?_ ?_ ?_ ?_ ?_ ?_ ?_ ?_ ?_ ?_ ?_ ?_ ?_ ?_ ?_ ?_ ?_
    | with_reducible apply Within.ite
    | split

theorem State.writeChunk_within {M : Part → Bool} {a0 : State} {s : State} {k : Chunk} (m_tier : M .tier = true) (m_out : M .out = true) (hs : Within M a0 s) : Within M a0 (State.writeChunk s k) := by
  unfold State.writeChunk
  try dsimp only
  repeat' first
    | with_reducible exact hs
    | with_reducible assumption
    | with_reducible exact Or.inl (by assumption)
    | with_reducible exact Or.inr rfl
    | with_reducible exact Or.inl rfl
    | with_reducible exact Or.inr ⟨by assumption, Nat.le_add_right _ _⟩
    | with_reducible apply State.programChunk_within
    | with_reducible apply State.writeParity_within

theorem State.hardRecords_within {M : Part → Bool} {a0 : State} {s : State} {c typ owner gen : Nat} {bodies : List (Nat × List Byte)} (m_hbm : M .hbm = true) (m_tier : M .tier = true) (m_mem : M .mem = true) (m_out : M .out = true) (m_free : M .free = true) (hs : Within M a0 s) : Within M a0 (State.hardRecords s c typ owner gen bodies).2 := by
  unfold State.hardRecords
  try dsimp only
  repeat' first
    | with_reducible exact hs
    | with_reducible assumption
    | with_reducible exact Or.inl (by assumption)
    | with_reducible exact Or.inr rfl
    | with_reducible exact Or.inl rfl
    | with_reducible exact Or.inr ⟨by assumption, Nat.le_add_right _ _⟩
    | with_reducible apply State.store_within
    | with_reducible apply State.draw_within
    | with_reducible apply State.writeChunk_within
    | with_reducible apply State.store_within
    | with_reducible apply State.draw_within
    | with_reducible refine Within.foldl ?_ (fun _ _ hs => ?_)
    | with_reducible refine Within.foldl1 ?_ (fun _ _ hs => ?_)
    | with_reducible refine Within.foldl2 ?_ (fun _ _ hs => ?_)
    | split

theorem State.hardRecord_within {M : Part → Bool} {a0 : State} {s : State} {c typ owner index gen : Nat} {body : List Byte} (m_hbm : M .hbm = true) (m_tier : M .tier = true) (m_mem : M .mem = true) (m_out : M .out = true) (m_free : M .free = true) (hs : Within M a0 s) : Within M a0 (State.hardRecord s c typ owner index gen body).2 := by
  unfold State.hardRecord
  try dsimp only
  repeat' first
    | with_reducible exact hs
    | with_reducible assumption
    | with_reducible exact Or.inl (by assumption)
    | with_reducible exact Or.inr rfl
    | with_reducible exact Or.inl rfl
    | with_reducible exact Or.inr ⟨by assumption, Nat.le_add_right _ _⟩
    | with_reducible apply State.hardRecords_within
    | split

theorem State.arrayParity_within {M : Part → Bool} {a0 : State} {s : State} {c at_ n : Nat} (m_tier : M .tier = true) (m_out : M .out = true) (hs : Within M a0 s) : Within M a0 (State.arrayParity s c at_ n) := by
  unfold State.arrayParity
  try dsimp only
  repeat' first
    | with_reducible exact hs
    | with_reducible assumption
    | with_reducible exact Or.inl (by assumption)
    | with_reducible exact Or.inr rfl
    | with_reducible exact Or.inl rfl
    | with_reducible exact Or.inr ⟨by assumption, Nat.le_add_right _ _⟩
    | with_reducible apply State.programChunk_within
    | simp only [Within.mk_iff]
    | with_reducible refine Upd.of ?_ ?_ ?_ ?_ ?_ ?_ ?_ ?_ ?_ ?_ ?_ ?_ ?_ ?_ ?_ ?_ ?_ ?_ ?_ ?_ ?_ ?_
    | with_reducible apply Within.ite
    | with_reducible refine Within.foldl ?_ (fun _ _ hs => ?_)
    | with_reducible refine Within.foldl1 ?_ (fun _ _ hs => ?_)
    | with_reducible refine Within.foldl2 ?_ (fun _ _ hs => ?_)
    | split

theorem State.hardArray_within {M : Part → Bool} {a0 : State} {s : State} {c : Nat} {chans : List Nat} {n : Nat} (m_tier : M .tier = true) (m_out : M .out = true) (m_free : M .free = true) (hs : Within M a0 s) : Within M a0 (State.hardArray s c chans n).2 := by
  unfold State.hardArray
  try dsimp only
  repeat' first
    | with_reducible exact hs
    | with_reducible assumption
    | with_reducible exact Or.inl (by assumption)
    | with_reducible exact Or.inr rfl
    | with_reducible exact Or.inl rfl
    | with_reducible exact Or.inr ⟨by assumption, Nat.le_add_right _ _⟩
    | with_reducible apply State.draw_within
    | with_reducible apply State.programChunk_within
    | with_reducible apply State.arrayParity_within
    | with_reducible apply State.draw_within
    | simp only [Within.mk_iff]
    | with_reducible refine Upd.of ?_ ?_ ?_ ?_ ?_ ?_ ?_ ?_ ?_ ?_ ?_ ?_ ?_ ?_ ?_ ?_ ?_ ?_ ?_ ?_ ?_ ?_
    | with_reducible refine Within.foldl ?_ (fun _ _ hs => ?_)
    | with_reducible refine Within.foldl1 ?_ (fun _ _ hs => ?_)
    | with_reducible refine Within.foldl2 ?_ (fun _ _ hs => ?_)
    | split

theorem State.rewriteChunks_within {M : Part → Bool} {a0 : State} {s : State} {first n : Nat} (m_tier : M .tier = true) (m_out : M .out = true) (hs : Within M a0 s) : Within M a0 (State.rewriteChunks s first n) := by
  unfold State.rewriteChunks
  try dsimp only
  repeat' first
    | with_reducible exact hs
    | with_reducible assumption
    | with_reducible exact Or.inl (by assumption)
    | with_reducible exact Or.inr rfl
    | with_reducible exact Or.inl rfl
    | with_reducible exact Or.inr ⟨by assumption, Nat.le_add_right _ _⟩
    | with_reducible apply State.programChunk_within
    | with_reducible refine Within.foldl ?_ (fun _ _ hs => ?_)
    | with_reducible refine Within.foldl1 ?_ (fun _ _ hs => ?_)
    | with_reducible refine Within.foldl2 ?_ (fun _ _ hs => ?_)

theorem State.readChunks_within {M : Part → Bool} {a0 : State} {s : State} {npa n : Nat} (m_out : M .out = true) (hs : Within M a0 s) : Within M a0 (State.readChunks s npa n) := by
  unfold State.readChunks
  try dsimp only
  repeat' first
    | with_reducible exact hs
    | with_reducible assumption
    | with_reducible exact Or.inl (by assumption)
    | with_reducible exact Or.inr rfl
    | with_reducible exact Or.inl rfl
    | with_reducible exact Or.inr ⟨by assumption, Nat.le_add_right _ _⟩
    | with_reducible apply State.flashOps_within
    | with_reducible refine Within.foldl ?_ (fun _ _ hs => ?_)
    | with_reducible refine Within.foldl1 ?_ (fun _ _ hs => ?_)
    | with_reducible refine Within.foldl2 ?_ (fun _ _ hs => ?_)

theorem State.pruneChunks_within {M : Part → Bool} {a0 : State} {s : State} (m_tier : M .tier = true) (hs : Within M a0 s) : Within M a0 (State.pruneChunks s) := by
  unfold State.pruneChunks
  try dsimp only
  repeat' first
    | with_reducible exact hs
    | with_reducible assumption
    | with_reducible exact Or.inl (by assumption)
    | with_reducible exact Or.inr rfl
    | with_reducible exact Or.inl rfl
    | with_reducible exact Or.inr ⟨by assumption, Nat.le_add_right _ _⟩
    | with_reducible apply State.stale_within
    | simp only [Within.mk_iff]
    | with_reducible refine Upd.of ?_ ?_ ?_ ?_ ?_ ?_ ?_ ?_ ?_ ?_ ?_ ?_ ?_ ?_ ?_ ?_ ?_ ?_ ?_ ?_ ?_ ?_
    | with_reducible refine Within.foldl ?_ (fun _ _ hs => ?_)
    | with_reducible refine Within.foldl1 ?_ (fun _ _ hs => ?_)
    | with_reducible refine Within.foldl2 ?_ (fun _ _ hs => ?_)

theorem State.switchForm_within {M : Part → Bool} {a0 : State} {s : State} {job ctx stream page toTier toNode addr : Nat} {repack : Bool} (m_pg : M .pg = true) (m_hbm : M .hbm = true) (m_tier : M .tier = true) (m_rmo : M .rmo = true) (m_egq : M .egq = true) (m_cmp : M .cmp = true) (m_rel : M .rel = true) (m_pd : M .pd = true) (m_boot : M .boot = true) (m_mem : M .mem = true) (m_out : M .out = true) (hs : Within M a0 s) : Within M a0 (State.switchForm s job ctx stream page toTier toNode addr repack) := by
  unfold State.switchForm
  try dsimp only
  repeat' first
    | with_reducible exact hs
    | with_reducible assumption
    | with_reducible exact Or.inl (by assumption)
    | with_reducible exact Or.inr rfl
    | with_reducible exact Or.inl rfl
    | with_reducible exact Or.inr ⟨by assumption, Nat.le_add_right _ _⟩
    | with_reducible apply State.store_within
    | with_reducible apply State.contribute_within
    | with_reducible apply State.setPg_within
    | with_reducible apply State.freeFrameKey_within
    | with_reducible apply State.setPage_within
    | with_reducible apply State.setHome_within
    | with_reducible apply State.store_within
    | simp only [Within.mk_iff]
    | with_reducible refine Upd.of ?_ ?_ ?_ ?_ ?_ ?_ ?_ ?_ ?_ ?_ ?_ ?_ ?_ ?_ ?_ ?_ ?_ ?_ ?_ ?_ ?_ ?_
    | with_reducible apply Within.ite
    | with_reducible apply Within.ite1
    | with_reducible apply Within.ite2
    | with_reducible apply Within.ite3
    | with_reducible apply Within.ite4
    | split

theorem State.switchPlace_within {M : Part → Bool} {a0 : State} {s : State} {job ctx stream page toTier toNode addr : Nat} (m_pg : M .pg = true) (m_hbm : M .hbm = true) (m_tier : M .tier = true) (m_rmo : M .rmo = true) (m_egq : M .egq = true) (m_cmp : M .cmp = true) (m_rel : M .rel = true) (m_pd : M .pd = true) (m_boot : M .boot = true) (m_mem : M .mem = true) (m_out : M .out = true) (hs : Within M a0 s) : Within M a0 (State.switchPlace s job ctx stream page toTier toNode addr) := by
  unfold State.switchPlace
  try dsimp only
  repeat' first
    | with_reducible exact hs
    | with_reducible assumption
    | with_reducible exact Or.inl (by assumption)
    | with_reducible exact Or.inr rfl
    | with_reducible exact Or.inl rfl
    | with_reducible exact Or.inr ⟨by assumption, Nat.le_add_right _ _⟩
    | with_reducible apply State.switchForm_within

theorem State.toTopsoil_within {M : Part → Bool} {a0 : State} {s : State} {job ctx stream page : Nat} (m_pg : M .pg = true) (m_hbm : M .hbm = true) (m_tier : M .tier = true) (m_rmo : M .rmo = true) (m_egq : M .egq = true) (m_cmp : M .cmp = true) (m_rel : M .rel = true) (m_pd : M .pd = true) (m_boot : M .boot = true) (m_mem : M .mem = true) (m_out : M .out = true) (m_free : M .free = true) (hs : Within M a0 s) : Within M a0 (State.toTopsoil s job ctx stream page) := by
  unfold State.toTopsoil
  try dsimp only
  repeat' first
    | with_reducible exact hs
    | with_reducible assumption
    | with_reducible exact Or.inl (by assumption)
    | with_reducible exact Or.inr rfl
    | with_reducible exact Or.inl rfl
    | with_reducible exact Or.inr ⟨by assumption, Nat.le_add_right _ _⟩
    | with_reducible apply State.countC_within
    | with_reducible apply State.place_within
    | with_reducible apply State.switchPlace_within
    | with_reducible apply Within.ite
    | with_reducible apply Within.ite1
    | with_reducible apply Within.ite2
    | with_reducible apply Within.ite3
    | with_reducible apply Within.ite4
    | split

theorem State.contributeSub_within {M : Part → Bool} {a0 : State} {s : State} {job ctx stream page ctr : Nat} (m_pg : M .pg = true) (m_hbm : M .hbm = true) (m_rmo : M .rmo = true) (m_egq : M .egq = true) (m_cmp : M .cmp = true) (m_rel : M .rel = true) (m_pd : M .pd = true) (m_boot : M .boot = true) (m_mem : M .mem = true) (m_out : M .out = true) (hs : Within M a0 s) : Within M a0 (State.contributeSub s job ctx stream page ctr) := by
  unfold State.contributeSub
  try dsimp only
  repeat' first
    | with_reducible exact hs
    | with_reducible assumption
    | with_reducible exact Or.inl (by assumption)
    | with_reducible exact Or.inr rfl
    | with_reducible exact Or.inl rfl
    | with_reducible exact Or.inr ⟨by assumption, Nat.le_add_right _ _⟩
    | with_reducible apply State.contribute_within
    | with_reducible apply State.setPage_within
    | simp only [Within.mk_iff]
    | with_reducible refine Upd.of ?_ ?_ ?_ ?_ ?_ ?_ ?_ ?_ ?_ ?_ ?_ ?_ ?_ ?_ ?_ ?_ ?_ ?_ ?_ ?_ ?_ ?_
    | split

theorem State.checkSub_within {M : Part → Bool} {a0 : State} {s : State} {c job ctx stream page : Nat} {want got : List Byte} (m_hbm : M .hbm = true) (m_rmo : M .rmo = true) (m_pd : M .pd = true) (m_boot : M .boot = true) (m_mem : M .mem = true) (m_out : M .out = true) (hs : Within M a0 s) : Within M a0 (State.checkSub s c job ctx stream page want got).2 := by
  unfold State.checkSub
  try dsimp only
  repeat' first
    | with_reducible exact hs
    | with_reducible assumption
    | with_reducible exact Or.inl (by assumption)
    | with_reducible exact Or.inr rfl
    | with_reducible exact Or.inl rfl
    | with_reducible exact Or.inr ⟨by assumption, Nat.le_add_right _ _⟩
    | with_reducible apply State.countC_within
    | with_reducible apply State.genMismatch_within
    | split

theorem State.readSub_within {M : Part → Bool} {a0 : State} {s : State} {c : Nat} {x : Strm} {d : Desc} {prod : Producer} (m_egq : M .egq = true) (hs : Within M a0 s) : Within M a0 (State.readSub s c x d prod).2 := by
  unfold State.readSub
  try dsimp only
  repeat' first
    | with_reducible exact hs
    | with_reducible assumption
    | with_reducible exact Or.inl (by assumption)
    | with_reducible exact Or.inr rfl
    | with_reducible exact Or.inl rfl
    | with_reducible exact Or.inr ⟨by assumption, Nat.le_add_right _ _⟩
    | with_reducible apply State.enqueue_within
    | simp only [Within.mk_iff]
    | with_reducible refine Upd.of ?_ ?_ ?_ ?_ ?_ ?_ ?_ ?_ ?_ ?_ ?_ ?_ ?_ ?_ ?_ ?_ ?_ ?_ ?_ ?_ ?_ ?_
    | split

theorem State.recallBad_within {M : Part → Bool} {a0 : State} {s : State} {id page : Nat} (m_tier : M .tier = true) (hs : Within M a0 s) : Within M a0 (State.recallBad s id page) := by
  unfold State.recallBad
  try dsimp only
  repeat' first
    | with_reducible exact hs
    | with_reducible assumption
    | with_reducible exact Or.inl (by assumption)
    | with_reducible exact Or.inr rfl
    | with_reducible exact Or.inl rfl
    | with_reducible exact Or.inr ⟨by assumption, Nat.le_add_right _ _⟩
    | simp only [Within.mk_iff]
    | with_reducible refine Upd.of ?_ ?_ ?_ ?_ ?_ ?_ ?_ ?_ ?_ ?_ ?_ ?_ ?_ ?_ ?_ ?_ ?_ ?_ ?_ ?_ ?_ ?_
    | split

theorem State.beginRecall_within {M : Part → Bool} {a0 : State} {s : State} {r : Recall} (m_tier : M .tier = true) (m_egq : M .egq = true) (m_pd : M .pd = true) (m_out : M .out = true) (hs : Within M a0 s) : Within M a0 (State.beginRecall s r) := by
  unfold State.beginRecall
  try dsimp only
  repeat' first
    | with_reducible exact hs
    | with_reducible assumption
    | with_reducible exact Or.inl (by assumption)
    | with_reducible exact Or.inr rfl
    | with_reducible exact Or.inl rfl
    | with_reducible exact Or.inr ⟨by assumption, Nat.le_add_right _ _⟩
    | with_reducible apply State.count_within
    | with_reducible apply State.readChunks_within
    | with_reducible apply State.readSub_within
    | with_reducible apply State.recallBad_within
    | simp only [Within.mk_iff]
    | with_reducible refine Upd.of ?_ ?_ ?_ ?_ ?_ ?_ ?_ ?_ ?_ ?_ ?_ ?_ ?_ ?_ ?_ ?_ ?_ ?_ ?_ ?_ ?_ ?_
    | with_reducible apply Within.ite
    | with_reducible apply Within.ite1
    | with_reducible apply Within.ite2
    | with_reducible apply Within.ite3
    | with_reducible apply Within.ite4
    | with_reducible refine Within.foldl ?_ (fun _ _ hs => ?_)
    | with_reducible refine Within.foldl1 ?_ (fun _ _ hs => ?_)
    | with_reducible refine Within.foldl2 ?_ (fun _ _ hs => ?_)
    | split

theorem State.recallSlot_within {M : Part → Bool} {a0 : State} {s : State} {c : Nat} (m_tier : M .tier = true) (m_egq : M .egq = true) (m_pd : M .pd = true) (m_out : M .out = true) (hs : Within M a0 s) : Within M a0 (State.recallSlot s c) := by
  unfold State.recallSlot
  try dsimp only
  repeat' first
    | with_reducible exact hs
    | with_reducible assumption
    | with_reducible exact Or.inl (by assumption)
    | with_reducible exact Or.inr rfl
    | with_reducible exact Or.inl rfl
    | with_reducible exact Or.inr ⟨by assumption, Nat.le_add_right _ _⟩
    | with_reducible apply State.beginRecall_within
    | with_reducible apply Within.ite
    | with_reducible refine Within.foldl ?_ (fun _ _ hs => ?_)
    | with_reducible refine Within.foldl1 ?_ (fun _ _ hs => ?_)
    | with_reducible refine Within.foldl2 ?_ (fun _ _ hs => ?_)
    | split

theorem State.tablesBack_within {M : Part → Bool} {a0 : State} {s : State} {k : Ctx} {stream : Nat} (m_pg : M .pg = true) (m_hbm : M .hbm = true) (m_mem : M .mem = true) (m_free : M .free = true) (hs : Within M a0 s) : Within M a0 (State.tablesBack s k stream) := by
  unfold State.tablesBack
  try dsimp only
  repeat' first
    | with_reducible exact hs
    | with_reducible assumption
    | with_reducible exact Or.inl (by assumption)
    | with_reducible exact Or.inr rfl
    | with_reducible exact Or.inl rfl
    | with_reducible exact Or.inr ⟨by assumption, Nat.le_add_right _ _⟩
    | with_reducible apply State.place_within
    | with_reducible apply State.setStrm_within
    | with_reducible apply State.writeTables_within
    | with_reducible apply State.writePage_within
    | with_reducible apply State.writeEntry_within
    | simp only [Within.mk_iff]
    | with_reducible refine Upd.of ?_ ?_ ?_ ?_ ?_ ?_ ?_ ?_ ?_ ?_ ?_ ?_ ?_ ?_ ?_ ?_ ?_ ?_ ?_ ?_ ?_ ?_
    | with_reducible apply Within.ite
    | with_reducible apply Within.ite1
    | with_reducible apply Within.ite2
    | with_reducible apply Within.ite3
    | with_reducible apply Within.ite4
    | with_reducible refine Within.foldl ?_ (fun _ _ hs => ?_)
    | with_reducible refine Within.foldl1 ?_ (fun _ _ hs => ?_)
    | with_reducible refine Within.foldl2 ?_ (fun _ _ hs => ?_)
    | split

theorem State.grainsBack_within {M : Part → Bool} {a0 : State} {s : State} {k : Ctx} {stream : Nat} (m_pg : M .pg = true) (m_hbm : M .hbm = true) (m_mem : M .mem = true) (m_free : M .free = true) (hs : Within M a0 s) : Within M a0 (State.grainsBack s k stream) := by
  unfold State.grainsBack
  try dsimp only
  repeat' first
    | with_reducible exact hs
    | with_reducible assumption
    | with_reducible exact Or.inl (by assumption)
    | with_reducible exact Or.inr rfl
    | with_reducible exact Or.inl rfl
    | with_reducible exact Or.inr ⟨by assumption, Nat.le_add_right _ _⟩
    | with_reducible apply State.place_within
    | with_reducible apply State.setStrm_within
    | with_reducible apply State.writeTables_within
    | with_reducible apply State.writePage_within
    | simp only [Within.mk_iff]
    | with_reducible refine Upd.of ?_ ?_ ?_ ?_ ?_ ?_ ?_ ?_ ?_ ?_ ?_ ?_ ?_ ?_ ?_ ?_ ?_ ?_ ?_ ?_ ?_ ?_
    | with_reducible apply Within.ite
    | with_reducible apply Within.ite1
    | with_reducible apply Within.ite2
    | with_reducible apply Within.ite3
    | with_reducible apply Within.ite4
    | with_reducible refine Within.foldl ?_ (fun _ _ hs => ?_)
    | with_reducible refine Within.foldl1 ?_ (fun _ _ hs => ?_)
    | with_reducible refine Within.foldl2 ?_ (fun _ _ hs => ?_)
    | split


end Sys2Proof.Machine
end

