-- ==== Sys2Proof/Laws/WithinImport.lean ====
section
/-! SUPPORT. Which parts of the state the operations of Machine/Import.lean may move, and that they are steady. -/

set_option linter.unusedTactic false
set_option linter.unreachableTactic false

namespace Sys2Proof.Machine

theorem State.installPage_within {M : Part → Bool} {a0 : State} {s : State} {k : Ctx} {x : Strm} {r : BatchRec} {g : Grain} {stored : List Byte} (m_pg : M .pg = true) (m_hbm : M .hbm = true) (m_rmo : M .rmo = true) (m_egq : M .egq = true) (m_cmp : M .cmp = true) (m_rel : M .rel = true) (m_pd : M .pd = true) (m_boot : M .boot = true) (m_mem : M .mem = true) (m_out : M .out = true) (m_free : M .free = true) (hs : Within M a0 s) : Within M a0 (State.installPage s k x r g stored) := by
  unfold State.installPage
  try dsimp only
  repeat' first
    | with_reducible exact hs
    | with_reducible assumption
    | with_reducible exact Or.inl (by assumption)
    | with_reducible exact Or.inr rfl
    | with_reducible exact Or.inl rfl
    | with_reducible exact Or.inr ⟨by assumption, Nat.le_add_right _ _⟩
    | with_reducible apply State.store_within
    | with_reducible apply State.contribute_within
    | with_reducible apply State.setPg_within
    | with_reducible apply State.allocFrame_within
    | with_reducible apply State.setStrm_within
    | with_reducible apply State.growTables_within
    | with_reducible apply State.writePage_within
    | with_reducible apply State.writeEntry_within
    | with_reducible apply State.freeDesc_within
    | with_reducible apply State.store_within
    | simp only [Within.mk_iff]
    | with_reducible refine Upd.of ?_ ?_ ?_ ?_ ?_ ?_ ?_ ?_ ?_ ?_ ?_ ?_ ?_ ?_ ?_ ?_ ?_ ?_ ?_ ?_ ?_ ?_
    | with_reducible apply Within.ite
    | with_reducible apply Within.ite1
    | with_reducible apply Within.ite2
    | with_reducible apply Within.ite3
    | with_reducible apply Within.ite4
    | split

theorem State.installBatch_within {M : Part → Bool} {a0 : State} {s : State} {job comp : Nat} {x0 : Nat} {x1 : Nat} {x2 : Nat} (m_pg : M .pg = true) (m_hbm : M .hbm = true) (m_rmo : M .rmo = true) (m_egq : M .egq = true) (m_cmp : M .cmp = true) (m_rel : M .rel = true) (m_pd : M .pd = true) (m_boot : M .boot = true) (m_mem : M .mem = true) (m_out : M .out = true) (m_free : M .free = true) (hs : Within M a0 s) : Within M a0 (State.installBatch s job comp x0 x1 x2).2 := by
  induction x0 generalizing s x1 x2 with
  | zero =>
    unfold State.installBatch
    try dsimp only
    repeat' first
      | with_reducible exact hs
      | with_reducible assumption
      | with_reducible exact Or.inl (by assumption)
      | with_reducible exact Or.inr rfl
      | with_reducible exact Or.inl rfl
      | with_reducible exact Or.inr ⟨by assumption, Nat.le_add_right _ _⟩
      | with_reducible apply State.installPage_within
      | split
  | succ n ih =>
    unfold State.installBatch
    try dsimp only
    repeat' first
      | with_reducible exact hs
      | with_reducible assumption
      | with_reducible exact Or.inl (by assumption)
      | with_reducible exact Or.inr rfl
      | with_reducible exact Or.inl rfl
      | with_reducible exact Or.inr ⟨by assumption, Nat.le_add_right _ _⟩
      | with_reducible apply State.installPage_within
      | with_reducible apply ih
      | split

theorem State.controlWrite_within {M : Part → Bool} {a0 : State} {s : State} {job win : Nat} {w : Win} {addr : Nat} (m_pg : M .pg = true) (m_hbm : M .hbm = true) (m_rmo : M .rmo = true) (m_egq : M .egq = true) (m_cmp : M .cmp = true) (m_rel : M .rel = true) (m_pd : M .pd = true) (m_boot : M .boot = true) (m_mem : M .mem = true) (m_out : M .out = true) (m_free : M .free = true) (hs : Within M a0 s) : Within M a0 (State.controlWrite s job win w addr).2 := by
  unfold State.controlWrite
  try dsimp only
  repeat' first
    | with_reducible exact hs
    | with_reducible assumption
    | with_reducible exact Or.inl (by assumption)
    | with_reducible exact Or.inr rfl
    | with_reducible exact Or.inl rfl
    | with_reducible exact Or.inr ⟨by assumption, Nat.le_add_right _ _⟩
    | with_reducible apply State.installBatch_within
    | with_reducible apply Within.ite2
    | with_reducible apply Within.ite
    | split


end Sys2Proof.Machine
end

