-- ==== Sys2Proof/Laws/WithinAttention.lean ====
section
/-! SUPPORT. Which parts of the state the operations of Machine/Attention.lean may move, and that they are steady. -/

set_option linter.unusedTactic false
set_option linter.unreachableTactic false

namespace Sys2Proof.Machine

theorem State.admitSec_within {M : Part → Bool} {a0 : State} {s : State} {src : Source} {job comp : Nat} {r : AttendReq} {q : QSection} {y : Strm} (m_phs : M .phs = true) (m_sch : M .sch = true) (m_hbm : M .hbm = true) (m_rmo : M .rmo = true) (m_pd : M .pd = true) (m_mem : M .mem = true) (m_out : M .out = true) (hs : Within M a0 s) : Within M a0 (State.admitSec s src job comp r q y).2 := by
  unfold State.admitSec
  try dsimp only
  repeat' first
    | with_reducible exact hs
    | with_reducible assumption
    | with_reducible exact Or.inl (by assumption)
    | with_reducible exact Or.inr rfl
    | with_reducible exact Or.inl rfl
    | with_reducible exact Or.inr ⟨by assumption, Nat.le_add_right _ _⟩
    | with_reducible apply State.breach_within
    | with_reducible apply State.takePlace_within
    | simp only [Within.mk_iff]
    | with_reducible refine Upd.of ?_ ?_ ?_ ?_ ?_ ?_ ?_ ?_ ?_ ?_ ?_ ?_ ?_ ?_ ?_ ?_ ?_ ?_ ?_ ?_ ?_ ?_
    | with_reducible apply Within.ite2
    | with_reducible apply Within.ite
    | with_reducible apply Within.ite1
    | with_reducible apply Within.ite3
    | with_reducible apply Within.ite4
    | split

theorem State.admitSecs_within {M : Part → Bool} {a0 : State} {s : State} {src : Source} {job comp : Nat} {r : AttendReq} {x0 : List (QSection × Strm)} (m_phs : M .phs = true) (m_sch : M .sch = true) (m_hbm : M .hbm = true) (m_rmo : M .rmo = true) (m_pd : M .pd = true) (m_mem : M .mem = true) (m_out : M .out = true) (hs : Within M a0 s) : Within M a0 (State.admitSecs s src job comp r x0).2 := by
  induction x0 generalizing s with
  | nil =>
    unfold State.admitSecs
    try dsimp only
    repeat' first
      | with_reducible exact hs
      | with_reducible assumption
      | with_reducible exact Or.inl (by assumption)
      | with_reducible exact Or.inr rfl
      | with_reducible exact Or.inl rfl
      | with_reducible exact Or.inr ⟨by assumption, Nat.le_add_right _ _⟩
      | with_reducible apply State.admitSec_within
      | split
  | cons x l ih =>
    unfold State.admitSecs
    try dsimp only
    repeat' first
      | with_reducible exact hs
      | with_reducible assumption
      | with_reducible exact Or.inl (by assumption)
      | with_reducible exact Or.inr rfl
      | with_reducible exact Or.inl rfl
      | with_reducible exact Or.inr ⟨by assumption, Nat.le_add_right _ _⟩
      | with_reducible apply State.admitSec_within
      | with_reducible apply ih
      | split

theorem State.attend_within {M : Part → Bool} {a0 : State} {s : State} {src : Source} {r : AttendReq} (m_phs : M .phs = true) (m_sch : M .sch = true) (m_rq : M .rq = true) (m_hbm : M .hbm = true) (m_tier : M .tier = true) (m_rmo : M .rmo = true) (m_egq : M .egq = true) (m_hif : M .hif = true) (m_pd : M .pd = true) (m_boot : M .boot = true) (m_mem : M .mem = true) (m_out : M .out = true) (hs : Within M a0 s) : Within M a0 (State.attend s src r) := by
  unfold State.attend
  try dsimp only
  repeat' first
    | with_reducible exact hs
    | with_reducible assumption
    | with_reducible exact Or.inl (by assumption)
    | with_reducible exact Or.inr rfl
    | with_reducible exact Or.inl rfl
    | with_reducible exact Or.inr ⟨by assumption, Nat.le_add_right _ _⟩
    | with_reducible apply State.endReq_within
    | with_reducible apply State.refuseAttend_within
    | with_reducible apply State.adirStall_within
    | with_reducible apply State.wake_within
    | with_reducible apply State.admitSecs_within
    | simp only [Within.mk_iff]
    | with_reducible refine Upd.of ?_ ?_ ?_ ?_ ?_ ?_ ?_ ?_ ?_ ?_ ?_ ?_ ?_ ?_ ?_ ?_ ?_ ?_ ?_ ?_ ?_ ?_
    | with_reducible apply Within.ite
    | with_reducible apply Within.ite1
    | with_reducible apply Within.ite2
    | with_reducible apply Within.ite3
    | with_reducible apply Within.ite4
    | split

theorem execAttendRequest_goes {M : Part → Bool} {a0 : State} {t : Nat} {src : Source} {r : AttendReq} {s : State} (m_timer : M .timer = true) (m_phs : M .phs = true) (m_sch : M .sch = true) (m_rq : M .rq = true) (m_hbm : M .hbm = true) (m_tier : M .tier = true) (m_rmo : M .rmo = true) (m_egq : M .egq = true) (m_hif : M .hif = true) (m_pd : M .pd = true) (m_boot : M .boot = true) (m_mem : M .mem = true) (m_out : M .out = true) (hs : Within M a0 s) : Goes M a0 (execAttendRequest t src r s) := by
  unfold execAttendRequest
  try dsimp only
  repeat' first
    | with_reducible exact hs
    | with_reducible assumption
    | with_reducible exact Or.inl (by assumption)
    | with_reducible exact Or.inr rfl
    | with_reducible exact Or.inl rfl
    | with_reducible exact Or.inr ⟨by assumption, Nat.le_add_right _ _⟩
    | with_reducible apply Goes.next
    | with_reducible apply Goes.ite
    | with_reducible apply State.arrive_within
    | with_reducible apply State.hold_within
    | with_reducible apply State.attend_within
    | with_reducible apply State.arrive_within
    | refine fun _ _ _ (hs : Within _ _ _) => ?_
    | refine fun _ (hs : Within _ _ _) => ?_
    | with_reducible apply Within.ite
    | split

theorem State.warm_within {M : Part → Bool} {a0 : State} {s : State} {job ctx stream : Nat} {pages : List Nat} (m_pg : M .pg = true) (hs : Within M a0 s) : Within M a0 (State.warm s job ctx stream pages) := by
  unfold State.warm
  try dsimp only
  repeat' first
    | with_reducible exact hs
    | with_reducible assumption
    | with_reducible exact Or.inl (by assumption)
    | with_reducible exact Or.inr rfl
    | with_reducible exact Or.inl rfl
    | with_reducible exact Or.inr ⟨by assumption, Nat.le_add_right _ _⟩
    | with_reducible apply State.setStrm_within
    | simp only [Within.mk_iff]
    | with_reducible refine Upd.of ?_ ?_ ?_ ?_ ?_ ?_ ?_ ?_ ?_ ?_ ?_ ?_ ?_ ?_ ?_ ?_ ?_ ?_ ?_ ?_ ?_ ?_
    | with_reducible refine Within.foldl ?_ (fun _ _ hs => ?_)
    | with_reducible refine Within.foldl1 ?_ (fun _ _ hs => ?_)
    | with_reducible refine Within.foldl2 ?_ (fun _ _ hs => ?_)

theorem State.runSec_within {M : Part → Bool} {a0 : State} {s : State} {r : Req} {i : Nat} {q : QSection} {y : Strm} {run : Nat} {sel cands : List Nat} {bounds : List (Nat × Nat × BitVec 32)} {scan : List (Nat × BitVec 32)} {keep : Nat} {tiles : BitVec 48} {due begun : Nat} {formula : Rat} (m_phs : M .phs = true) (m_pg : M .pg = true) (m_rq : M .rq = true) (m_hbm : M .hbm = true) (m_rmo : M .rmo = true) (m_egq : M .egq = true) (m_rel : M .rel = true) (m_hif : M .hif = true) (m_pd : M .pd = true) (m_boot : M .boot = true) (m_mem : M .mem = true) (m_out : M .out = true) (hs : Within M a0 s) : Within M a0 (State.runSec s r i q y run sel cands bounds scan keep tiles due begun formula) := by
  unfold State.runSec
  try dsimp only
  repeat' first
    | with_reducible exact hs
    | with_reducible assumption
    | with_reducible exact Or.inl (by assumption)
    | with_reducible exact Or.inr rfl
    | with_reducible exact Or.inl rfl
    | with_reducible exact Or.inr ⟨by assumption, Nat.le_add_right _ _⟩
    | with_reducible apply State.countC_within
    | with_reducible apply State.setSec_within
    | with_reducible apply State.endSec_within
    | with_reducible apply State.genMismatch_within
    | with_reducible apply State.readChunks_within
    | with_reducible apply State.readSub_within
    | with_reducible apply State.warm_within
    | simp only [Within.mk_iff]
    | with_reducible refine Upd.of ?_ ?_ ?_ ?_ ?_ ?_ ?_ ?_ ?_ ?_ ?_ ?_ ?_ ?_ ?_ ?_ ?_ ?_ ?_ ?_ ?_ ?_
    | with_reducible apply Within.ite
    | with_reducible apply Within.ite1
    | with_reducible apply Within.ite2
    | with_reducible apply Within.ite3
    | with_reducible apply Within.ite4
    | with_reducible refine Within.foldl ?_ (fun _ _ hs => ?_)
    | with_reducible refine Within.foldl1 ?_ (fun _ _ hs => ?_)
    | with_reducible refine Within.foldl2 ?_ (fun _ _ hs => ?_)
    | split

theorem State.demand_within {M : Part → Bool} {a0 : State} {s : State} {c job ctx stream : Nat} {pages : List Nat} (m_rel : M .rel = true) (m_pd : M .pd = true) (hs : Within M a0 s) : Within M a0 (State.demand s c job ctx stream pages) := by
  unfold State.demand
  try dsimp only
  repeat' first
    | with_reducible exact hs
    | with_reducible assumption
    | with_reducible exact Or.inl (by assumption)
    | with_reducible exact Or.inr rfl
    | with_reducible exact Or.inl rfl
    | with_reducible exact Or.inr ⟨by assumption, Nat.le_add_right _ _⟩
    | with_reducible apply State.countC_within
    | simp only [Within.mk_iff]
    | with_reducible refine Upd.of ?_ ?_ ?_ ?_ ?_ ?_ ?_ ?_ ?_ ?_ ?_ ?_ ?_ ?_ ?_ ?_ ?_ ?_ ?_ ?_ ?_ ?_
    | with_reducible apply Within.ite
    | split

theorem State.dispatchSec_within {M : Part → Bool} {a0 : State} {s : State} {r : Req} {i : Nat} {x : Sec} {k : Ctx} {q : QSection} {y : Strm} (m_phs : M .phs = true) (m_sch : M .sch = true) (m_pg : M .pg = true) (m_rq : M .rq = true) (m_hbm : M .hbm = true) (m_rmo : M .rmo = true) (m_egq : M .egq = true) (m_rel : M .rel = true) (m_hif : M .hif = true) (m_pd : M .pd = true) (m_boot : M .boot = true) (m_mem : M .mem = true) (m_out : M .out = true) (hs : Within M a0 s) : Within M a0 (State.dispatchSec s r i x k q y) := by
  unfold State.dispatchSec
  try dsimp only
  repeat' first
    | with_reducible exact hs
    | with_reducible assumption
    | with_reducible exact Or.inl (by assumption)
    | with_reducible exact Or.inr rfl
    | with_reducible exact Or.inl rfl
    | with_reducible exact Or.inr ⟨by assumption, Nat.le_add_right _ _⟩
    | with_reducible apply State.countC_within
    | with_reducible apply State.breach_within
    | with_reducible apply State.setSec_within
    | with_reducible apply State.runSec_within
    | with_reducible apply State.demand_within
    | simp only [Within.mk_iff]
    | with_reducible refine Upd.of ?_ ?_ ?_ ?_ ?_ ?_ ?_ ?_ ?_ ?_ ?_ ?_ ?_ ?_ ?_ ?_ ?_ ?_ ?_ ?_ ?_ ?_
    | with_reducible apply Within.ite
    | with_reducible apply Within.ite1
    | with_reducible apply Within.ite2
    | with_reducible apply Within.ite3
    | with_reducible apply Within.ite4
    | split

theorem State.dispatchAttend_within {M : Part → Bool} {a0 : State} {s : State} {r : Req} {i : Nat} (m_phs : M .phs = true) (m_sch : M .sch = true) (m_pg : M .pg = true) (m_rq : M .rq = true) (m_hbm : M .hbm = true) (m_tier : M .tier = true) (m_rmo : M .rmo = true) (m_egq : M .egq = true) (m_rel : M .rel = true) (m_hif : M .hif = true) (m_pd : M .pd = true) (m_boot : M .boot = true) (m_mem : M .mem = true) (m_out : M .out = true) (hs : Within M a0 s) : Within M a0 (State.dispatchAttend s r i) := by
  unfold State.dispatchAttend
  try dsimp only
  repeat' first
    | with_reducible exact hs
    | with_reducible assumption
    | with_reducible exact Or.inl (by assumption)
    | with_reducible exact Or.inr rfl
    | with_reducible exact Or.inl rfl
    | with_reducible exact Or.inr ⟨by assumption, Nat.le_add_right _ _⟩
    | with_reducible apply State.arrive_within
    | with_reducible apply State.noReply_within
    | with_reducible apply State.setReq_within
    | with_reducible apply State.setSec_within
    | with_reducible apply State.endSec_within
    | with_reducible apply State.endReqAt_within
    | with_reducible apply State.endReq_within
    | with_reducible apply State.wake_within
    | with_reducible apply State.dispatchSec_within
    | with_reducible apply State.arrive_within
    | simp only [Within.mk_iff]
    | with_reducible refine Upd.of ?_ ?_ ?_ ?_ ?_ ?_ ?_ ?_ ?_ ?_ ?_ ?_ ?_ ?_ ?_ ?_ ?_ ?_ ?_ ?_ ?_ ?_
    | with_reducible apply Within.ite
    | with_reducible apply Within.ite1
    | with_reducible apply Within.ite2
    | with_reducible apply Within.ite3
    | with_reducible apply Within.ite4
    | split

theorem State.continueSec_within {M : Part → Bool} {a0 : State} {s : State} {r : Req} {i : Nat} (m_rq : M .rq = true) (hs : Within M a0 s) : Within M a0 (State.continueSec s r i) := by
  unfold State.continueSec
  try dsimp only
  repeat' first
    | with_reducible exact hs
    | with_reducible assumption
    | with_reducible exact Or.inl (by assumption)
    | with_reducible exact Or.inr rfl
    | with_reducible exact Or.inl rfl
    | with_reducible exact Or.inr ⟨by assumption, Nat.le_add_right _ _⟩
    | with_reducible apply State.setSec_within
    | simp only [Within.mk_iff]
    | with_reducible refine Upd.of ?_ ?_ ?_ ?_ ?_ ?_ ?_ ?_ ?_ ?_ ?_ ?_ ?_ ?_ ?_ ?_ ?_ ?_ ?_ ?_ ?_ ?_
    | split

theorem State.shadowOwn_within {M : Part → Bool} {a0 : State} {s : State} {c tag sec : Nat} {b : List Byte} (m_rel : M .rel = true) (hs : Within M a0 s) : Within M a0 (State.shadowOwn s c tag sec b) := by
  unfold State.shadowOwn
  try dsimp only
  repeat' first
    | with_reducible exact hs
    | with_reducible assumption
    | with_reducible exact Or.inl (by assumption)
    | with_reducible exact Or.inr rfl
    | with_reducible exact Or.inl rfl
    | with_reducible exact Or.inr ⟨by assumption, Nat.le_add_right _ _⟩
    | simp only [Within.mk_iff]
    | with_reducible refine Upd.of ?_ ?_ ?_ ?_ ?_ ?_ ?_ ?_ ?_ ?_ ?_ ?_ ?_ ?_ ?_ ?_ ?_ ?_ ?_ ?_ ?_ ?_
    | with_reducible apply Within.ite
    | split

theorem State.noteAttended_within {M : Part → Bool} {a0 : State} {s : State} {job ctx stream : Nat} {pages : List Nat} (m_tier : M .tier = true) (hs : Within M a0 s) : Within M a0 (State.noteAttended s job ctx stream pages) := by
  unfold State.noteAttended
  try dsimp only
  repeat' first
    | with_reducible exact hs
    | with_reducible assumption
    | with_reducible exact Or.inl (by assumption)
    | with_reducible exact Or.inr rfl
    | with_reducible exact Or.inl rfl
    | with_reducible exact Or.inr ⟨by assumption, Nat.le_add_right _ _⟩
    | simp only [Within.mk_iff]
    | with_reducible refine Upd.of ?_ ?_ ?_ ?_ ?_ ?_ ?_ ?_ ?_ ?_ ?_ ?_ ?_ ?_ ?_ ?_ ?_ ?_ ?_ ?_ ?_ ?_
    | split

theorem State.finishSec_within {M : Part → Bool} {a0 : State} {s : State} {r : Req} {i : Nat} {x : Sec} {p : Snap} {rows : List (List Nat)} (m_phs : M .phs = true) (m_sch : M .sch = true) (m_rq : M .rq = true) (m_hbm : M .hbm = true) (m_tier : M .tier = true) (m_rmo : M .rmo = true) (m_egq : M .egq = true) (m_rel : M .rel = true) (m_hif : M .hif = true) (m_pd : M .pd = true) (m_mem : M .mem = true) (m_out : M .out = true) (hs : Within M a0 s) : Within M a0 (State.finishSec s r i x p rows) := by
  unfold State.finishSec
  try dsimp only
  repeat' first
    | with_reducible exact hs
    | with_reducible assumption
    | with_reducible exact Or.inl (by assumption)
    | with_reducible exact Or.inr rfl
    | with_reducible exact Or.inl rfl
    | with_reducible exact Or.inr ⟨by assumption, Nat.le_add_right _ _⟩
    | with_reducible apply State.arrive_within
    | with_reducible apply State.countC_within
    | with_reducible apply State.breach_within
    | with_reducible apply State.flush_within
    | with_reducible apply State.setSec_within
    | with_reducible apply State.donePlace_within
    | with_reducible apply State.ratio_within
    | with_reducible apply State.lateBreach_within
    | with_reducible apply State.marginCount_within
    | with_reducible apply State.shadowOwn_within
    | with_reducible apply State.noteAttended_within
    | with_reducible apply State.arrive_within
    | simp only [Within.mk_iff]
    | with_reducible refine Upd.of ?_ ?_ ?_ ?_ ?_ ?_ ?_ ?_ ?_ ?_ ?_ ?_ ?_ ?_ ?_ ?_ ?_ ?_ ?_ ?_ ?_ ?_
    | with_reducible apply Within.ite
    | with_reducible apply Within.ite1
    | with_reducible apply Within.ite2
    | with_reducible apply Within.ite3
    | with_reducible apply Within.ite4
    | split


end Sys2Proof.Machine
end

