-- ==== Sys2Proof/Laws/WithinSearch.lean ====
section
/-! SUPPORT. Which parts of the state the operations of Machine/Search.lean may move, and that they are steady. -/

set_option linter.unusedTactic false
set_option linter.unreachableTactic false

namespace Sys2Proof.Machine

theorem State.setCorpus_within {M : Part → Bool} {a0 : State} {s : State} {job ctx : Nat} {f : Corpus → Corpus} (m_rq : M .rq = true) (hs : Within M a0 s) : Within M a0 (State.setCorpus s job ctx f) := by
  unfold State.setCorpus
  try dsimp only
  repeat' first
    | with_reducible exact hs
    | with_reducible assumption
    | with_reducible exact Or.inl (by assumption)
    | with_reducible exact Or.inr rfl
    | with_reducible exact Or.inl rfl
    | with_reducible exact Or.inr ⟨by assumption, Nat.le_add_right _ _⟩
    | simp only [Within.mk_iff]
    | with_reducible refine Upd.of ?_ ?_ ?_ ?_ ?_ ?_ ?_ ?_ ?_ ?_ ?_ ?_ ?_ ?_ ?_ ?_ ?_ ?_ ?_ ?_ ?_ ?_
    | split

theorem State.placeArray_within {M : Part → Bool} {a0 : State} {s : State} {chans : List Nat} {size : Nat} (m_free : M .free = true) (hs : Within M a0 s) : Within M a0 (State.placeArray s chans size).2 := by
  unfold State.placeArray
  try dsimp only
  repeat' first
    | with_reducible exact hs
    | with_reducible assumption
    | with_reducible exact Or.inl (by assumption)
    | with_reducible exact Or.inr rfl
    | with_reducible exact Or.inl rfl
    | with_reducible exact Or.inr ⟨by assumption, Nat.le_add_right _ _⟩
    | with_reducible apply State.placeIn_within
    | split

theorem State.newSegs_within {M : Part → Bool} {a0 : State} {s : State} {comp skb stride : Nat} {x0 : List (SegSpec × List Nat)} (m_tier : M .tier = true) (m_out : M .out = true) (m_free : M .free = true) (hs : Within M a0 s) : Within M a0 (State.newSegs s comp skb stride x0).2 := by
  induction x0 generalizing s with
  | nil =>
    unfold State.newSegs
    try dsimp only
    repeat' first
      | with_reducible exact hs
      | with_reducible assumption
      | with_reducible exact Or.inl (by assumption)
      | with_reducible exact Or.inr rfl
      | with_reducible exact Or.inl rfl
      | with_reducible exact Or.inr ⟨by assumption, Nat.le_add_right _ _⟩
      | with_reducible apply State.placeArea_within
      | with_reducible apply State.hardArray_within
      | with_reducible apply State.placeArray_within
      | with_reducible apply Within.ite2
      | with_reducible apply Within.ite
      | with_reducible apply Within.ite1
      | with_reducible apply Within.ite3
      | with_reducible apply Within.ite4
      | split
  | cons x l ih =>
    unfold State.newSegs
    try dsimp only
    repeat' first
      | with_reducible exact hs
      | with_reducible assumption
      | with_reducible exact Or.inl (by assumption)
      | with_reducible exact Or.inr rfl
      | with_reducible exact Or.inl rfl
      | with_reducible exact Or.inr ⟨by assumption, Nat.le_add_right _ _⟩
      | with_reducible apply State.placeArea_within
      | with_reducible apply State.hardArray_within
      | with_reducible apply State.placeArray_within
      | with_reducible apply ih
      | with_reducible apply Within.ite2
      | with_reducible apply Within.ite
      | with_reducible apply Within.ite1
      | with_reducible apply Within.ite3
      | with_reducible apply Within.ite4
      | split

theorem State.writeRoot_within {M : Part → Bool} {a0 : State} {s : State} {c : Corpus} (m_hbm : M .hbm = true) (m_mem : M .mem = true) (hs : Within M a0 s) : Within M a0 (State.writeRoot s c) := by
  unfold State.writeRoot
  try dsimp only
  repeat' first
    | with_reducible exact hs
    | with_reducible assumption
    | with_reducible exact Or.inl (by assumption)
    | with_reducible exact Or.inr rfl
    | with_reducible exact Or.inl rfl
    | with_reducible exact Or.inr ⟨by assumption, Nat.le_add_right _ _⟩
    | with_reducible apply State.store_within
    | with_reducible apply State.store_within
    | split

theorem State.writeRecs_within {M : Part → Bool} {a0 : State} {s : State} {c : Corpus} {g : Seg} {first : Nat} {recs : List Rec} {sks : List Nat} (m_hbm : M .hbm = true) (m_tier : M .tier = true) (m_mem : M .mem = true) (m_out : M .out = true) (hs : Within M a0 s) : Within M a0 (State.writeRecs s c g first recs sks) := by
  unfold State.writeRecs
  try dsimp only
  repeat' first
    | with_reducible exact hs
    | with_reducible assumption
    | with_reducible exact Or.inl (by assumption)
    | with_reducible exact Or.inr rfl
    | with_reducible exact Or.inl rfl
    | with_reducible exact Or.inr ⟨by assumption, Nat.le_add_right _ _⟩
    | with_reducible apply State.store_within
    | with_reducible apply State.rewriteChunks_within
    | with_reducible apply State.store_within
    | with_reducible apply Within.ite
    | with_reducible refine Within.foldl ?_ (fun _ _ hs => ?_)
    | with_reducible refine Within.foldl1 ?_ (fun _ _ hs => ?_)
    | with_reducible refine Within.foldl2 ?_ (fun _ _ hs => ?_)
    | split

theorem State.writeTombs_within {M : Part → Bool} {a0 : State} {s : State} {g : Seg} {first count : Nat} (m_hbm : M .hbm = true) (m_mem : M .mem = true) (hs : Within M a0 s) : Within M a0 (State.writeTombs s g first count) := by
  unfold State.writeTombs
  try dsimp only
  repeat' first
    | with_reducible exact hs
    | with_reducible assumption
    | with_reducible exact Or.inl (by assumption)
    | with_reducible exact Or.inr rfl
    | with_reducible exact Or.inl rfl
    | with_reducible exact Or.inr ⟨by assumption, Nat.le_add_right _ _⟩
    | with_reducible apply State.store_within
    | with_reducible apply State.store_within
    | with_reducible refine Within.foldl ?_ (fun _ _ hs => ?_)
    | with_reducible refine Within.foldl1 ?_ (fun _ _ hs => ?_)
    | with_reducible refine Within.foldl2 ?_ (fun _ _ hs => ?_)

theorem State.corpusCreate_within {M : Part → Bool} {a0 : State} {s : State} {job comp ctx skb vfmt dim seed : Nat} {segs : List SegSpec} (m_rq : M .rq = true) (m_hbm : M .hbm = true) (m_tier : M .tier = true) (m_mem : M .mem = true) (m_out : M .out = true) (m_free : M .free = true) (hs : Within M a0 s) : Within M a0 (State.corpusCreate s job comp ctx skb vfmt dim seed segs) := by
  unfold State.corpusCreate
  try dsimp only
  repeat' first
    | with_reducible exact hs
    | with_reducible assumption
    | with_reducible exact Or.inl (by assumption)
    | with_reducible exact Or.inr rfl
    | with_reducible exact Or.inl rfl
    | with_reducible exact Or.inr ⟨by assumption, Nat.le_add_right _ _⟩
    | with_reducible apply State.adirInsert_within
    | with_reducible apply State.placeArea_within
    | with_reducible apply State.newSegs_within
    | with_reducible apply State.writeRoot_within
    | simp only [Within.mk_iff]
    | with_reducible refine Upd.of ?_ ?_ ?_ ?_ ?_ ?_ ?_ ?_ ?_ ?_ ?_ ?_ ?_ ?_ ?_ ?_ ?_ ?_ ?_ ?_ ?_ ?_
    | split

theorem State.manage_within {M : Part → Bool} (m_phs : M .phs = true) (m_sch : M .sch = true) (m_rq : M .rq = true) (m_hbm : M .hbm = true) (m_rmo : M .rmo = true) (m_egq : M .egq = true) (m_hif : M .hif = true) (m_pd : M .pd = true) (m_boot : M .boot = true) (m_mem : M .mem = true) (m_out : M .out = true) {a0 : State} {s : State} {src : Source} {env : Envelope} {op : Nat}
    {act : State → Nat → Nat → Status × Nat × State} (h : Within M a0 s)
    (k : ∀ s j c, Within M a0 s → Within M a0 (act s j c).2.2) : Within M a0 (State.manage s src env op act) := by
  unfold State.manage
  dsimp only
  repeat' first
    | with_reducible exact h
    | with_reducible assumption
    | with_reducible apply k
    | with_reducible apply State.adirStall_within
    | with_reducible apply State.breach_within
    | with_reducible apply State.noReply_within
    | with_reducible apply State.endOp_within
    | with_reducible apply Within.ite
    | split

theorem State.manageCommand_within {M : Part → Bool} (m_phs : M .phs = true) (m_sch : M .sch = true) (m_rq : M .rq = true) (m_hbm : M .hbm = true) (m_rmo : M .rmo = true) (m_egq : M .egq = true) (m_hif : M .hif = true) (m_pd : M .pd = true) (m_boot : M .boot = true) (m_mem : M .mem = true) (m_out : M .out = true) {a0 : State} {s : State} {i : Instr} {src : Source} {env : Envelope} {op : Nat}
    {act : State → Nat → Nat → Status × Nat × State} (h : Within M a0 s)
    (k : ∀ s j c, Within M a0 s → Within M a0 (act s j c).2.2) : Within M a0 (State.manageCommand s i src env op act) := by
  unfold State.manageCommand
  repeat' first
    | with_reducible exact h
    | with_reducible assumption
    | with_reducible apply State.manage_within
    | with_reducible exact k
    | with_reducible apply State.hold_within
    | with_reducible apply Within.ite

theorem execCorpusCreate_goes {M : Part → Bool} {a0 : State} {t : Nat} {src : Source} {env : Envelope} {skb vfmt dim seed nseg : Nat} {segs : List SegSpec} {s : State} (m_timer : M .timer = true) (m_phs : M .phs = true) (m_sch : M .sch = true) (m_rq : M .rq = true) (m_hbm : M .hbm = true) (m_tier : M .tier = true) (m_rmo : M .rmo = true) (m_egq : M .egq = true) (m_hif : M .hif = true) (m_pd : M .pd = true) (m_boot : M .boot = true) (m_mem : M .mem = true) (m_out : M .out = true) (m_free : M .free = true) (hs : Within M a0 s) : Goes M a0 (execCorpusCreate t src env skb vfmt dim seed nseg segs s) := by
  unfold execCorpusCreate
  try dsimp only
  repeat' first
    | with_reducible exact hs
    | with_reducible assumption
    | with_reducible exact Or.inl (by assumption)
    | with_reducible exact Or.inr rfl
    | with_reducible exact Or.inl rfl
    | with_reducible exact Or.inr ⟨by assumption, Nat.le_add_right _ _⟩
    | with_reducible apply Goes.next
    | with_reducible apply Goes.ite
    | with_reducible apply State.arrive_within
    | with_reducible apply State.corpusCreate_within
    | with_reducible apply State.manageCommand_within
    | with_reducible apply State.arrive_within
    | refine fun _ _ _ (hs : Within _ _ _) => ?_
    | refine fun _ (hs : Within _ _ _) => ?_
    | split

theorem State.recordAppend_within {M : Part → Bool} {a0 : State} {s : State} {c : Corpus} {seg count : Nat} {sk : Bool} {recs : List Rec} {sketches : List Nat} (m_rq : M .rq = true) (m_hbm : M .hbm = true) (m_tier : M .tier = true) (m_mem : M .mem = true) (m_out : M .out = true) (hs : Within M a0 s) : Within M a0 (State.recordAppend s c seg count sk recs sketches).2.2 := by
  unfold State.recordAppend
  try dsimp only
  repeat' first
    | with_reducible exact hs
    | with_reducible assumption
    | with_reducible exact Or.inl (by assumption)
    | with_reducible exact Or.inr rfl
    | with_reducible exact Or.inl rfl
    | with_reducible exact Or.inr ⟨by assumption, Nat.le_add_right _ _⟩
    | with_reducible apply State.setCorpus_within
    | with_reducible apply State.writeRoot_within
    | with_reducible apply State.writeRecs_within
    | simp only [Within.mk_iff]
    | with_reducible refine Upd.of ?_ ?_ ?_ ?_ ?_ ?_ ?_ ?_ ?_ ?_ ?_ ?_ ?_ ?_ ?_ ?_ ?_ ?_ ?_ ?_ ?_ ?_
    | with_reducible apply Within.ite3
    | with_reducible apply Within.ite
    | with_reducible apply Within.ite1
    | with_reducible apply Within.ite2
    | with_reducible apply Within.ite4
    | split

theorem execRecordAppend_goes {M : Part → Bool} {a0 : State} {t : Nat} {src : Source} {env : Envelope} {seg count : Nat} {sk : Bool} {recs : List Rec} {sketches : List Nat} {s : State} (m_timer : M .timer = true) (m_phs : M .phs = true) (m_sch : M .sch = true) (m_rq : M .rq = true) (m_hbm : M .hbm = true) (m_tier : M .tier = true) (m_rmo : M .rmo = true) (m_egq : M .egq = true) (m_hif : M .hif = true) (m_pd : M .pd = true) (m_boot : M .boot = true) (m_mem : M .mem = true) (m_out : M .out = true) (hs : Within M a0 s) : Goes M a0 (execRecordAppend t src env seg count sk recs sketches s) := by
  unfold execRecordAppend
  try dsimp only
  repeat' first
    | with_reducible exact hs
    | with_reducible assumption
    | with_reducible exact Or.inl (by assumption)
    | with_reducible exact Or.inr rfl
    | with_reducible exact Or.inl rfl
    | with_reducible exact Or.inr ⟨by assumption, Nat.le_add_right _ _⟩
    | with_reducible apply Goes.next
    | with_reducible apply Goes.ite
    | with_reducible apply State.arrive_within
    | with_reducible apply State.manageCommand_within
    | with_reducible apply State.recordAppend_within
    | with_reducible apply State.arrive_within
    | refine fun _ _ _ (hs : Within _ _ _) => ?_
    | refine fun _ (hs : Within _ _ _) => ?_
    | split

theorem State.recordDelete_within {M : Part → Bool} {a0 : State} {s : State} {c : Corpus} {seg first count : Nat} (m_rq : M .rq = true) (m_hbm : M .hbm = true) (m_mem : M .mem = true) (hs : Within M a0 s) : Within M a0 (State.recordDelete s c seg first count).2.2 := by
  unfold State.recordDelete
  try dsimp only
  repeat' first
    | with_reducible exact hs
    | with_reducible assumption
    | with_reducible exact Or.inl (by assumption)
    | with_reducible exact Or.inr rfl
    | with_reducible exact Or.inl rfl
    | with_reducible exact Or.inr ⟨by assumption, Nat.le_add_right _ _⟩
    | with_reducible apply State.setCorpus_within
    | with_reducible apply State.writeRoot_within
    | with_reducible apply State.writeTombs_within
    | simp only [Within.mk_iff]
    | with_reducible refine Upd.of ?_ ?_ ?_ ?_ ?_ ?_ ?_ ?_ ?_ ?_ ?_ ?_ ?_ ?_ ?_ ?_ ?_ ?_ ?_ ?_ ?_ ?_
    | with_reducible apply Within.ite3
    | with_reducible apply Within.ite
    | with_reducible apply Within.ite1
    | with_reducible apply Within.ite2
    | with_reducible apply Within.ite4
    | split

theorem execRecordDelete_goes {M : Part → Bool} {a0 : State} {t : Nat} {src : Source} {env : Envelope} {seg first count : Nat} {s : State} (m_timer : M .timer = true) (m_phs : M .phs = true) (m_sch : M .sch = true) (m_rq : M .rq = true) (m_hbm : M .hbm = true) (m_rmo : M .rmo = true) (m_egq : M .egq = true) (m_hif : M .hif = true) (m_pd : M .pd = true) (m_boot : M .boot = true) (m_mem : M .mem = true) (m_out : M .out = true) (hs : Within M a0 s) : Goes M a0 (execRecordDelete t src env seg first count s) := by
  unfold execRecordDelete
  try dsimp only
  repeat' first
    | with_reducible exact hs
    | with_reducible assumption
    | with_reducible exact Or.inl (by assumption)
    | with_reducible exact Or.inr rfl
    | with_reducible exact Or.inl rfl
    | with_reducible exact Or.inr ⟨by assumption, Nat.le_add_right _ _⟩
    | with_reducible apply Goes.next
    | with_reducible apply Goes.ite
    | with_reducible apply State.arrive_within
    | with_reducible apply State.manageCommand_within
    | with_reducible apply State.recordDelete_within
    | with_reducible apply State.arrive_within
    | refine fun _ _ _ (hs : Within _ _ _) => ?_
    | refine fun _ (hs : Within _ _ _) => ?_
    | split

theorem execCorpusDelete_goes {M : Part → Bool} {a0 : State} {t : Nat} {src : Source} {env : Envelope} {s : State} (m_timer : M .timer = true) (m_phs : M .phs = true) (m_sch : M .sch = true) (m_rq : M .rq = true) (m_hbm : M .hbm = true) (m_rmo : M .rmo = true) (m_egq : M .egq = true) (m_hif : M .hif = true) (m_pd : M .pd = true) (m_boot : M .boot = true) (m_mem : M .mem = true) (m_out : M .out = true) (hs : Within M a0 s) : Goes M a0 (execCorpusDelete t src env s) := by
  unfold execCorpusDelete
  try dsimp only
  repeat' first
    | with_reducible exact hs
    | with_reducible assumption
    | with_reducible exact Or.inl (by assumption)
    | with_reducible exact Or.inr rfl
    | with_reducible exact Or.inl rfl
    | with_reducible exact Or.inr ⟨by assumption, Nat.le_add_right _ _⟩
    | with_reducible apply Goes.next
    | with_reducible apply Goes.ite
    | with_reducible apply State.arrive_within
    | with_reducible apply State.adirRemove_within
    | with_reducible apply State.setCorpus_within
    | with_reducible apply State.manageCommand_within
    | with_reducible apply State.arrive_within
    | refine fun _ _ _ (hs : Within _ _ _) => ?_
    | refine fun _ (hs : Within _ _ _) => ?_
    | simp only [Within.mk_iff]
    | with_reducible refine Upd.of ?_ ?_ ?_ ?_ ?_ ?_ ?_ ?_ ?_ ?_ ?_ ?_ ?_ ?_ ?_ ?_ ?_ ?_ ?_ ?_ ?_ ?_
    | split

theorem State.search_within {M : Part → Bool} {a0 : State} {s : State} {src : Source} {r : SearchReq} (m_phs : M .phs = true) (m_sch : M .sch = true) (m_rq : M .rq = true) (m_hbm : M .hbm = true) (m_rmo : M .rmo = true) (m_egq : M .egq = true) (m_hif : M .hif = true) (m_pd : M .pd = true) (m_boot : M .boot = true) (m_mem : M .mem = true) (m_out : M .out = true) (hs : Within M a0 s) : Within M a0 (State.search s src r) := by
  unfold State.search
  try dsimp only
  repeat' first
    | with_reducible exact hs
    | with_reducible assumption
    | with_reducible exact Or.inl (by assumption)
    | with_reducible exact Or.inr rfl
    | with_reducible exact Or.inl rfl
    | with_reducible exact Or.inr ⟨by assumption, Nat.le_add_right _ _⟩
    | with_reducible apply State.breach_within
    | with_reducible apply State.noReply_within
    | with_reducible apply State.refuseSearch_within
    | with_reducible apply State.adirStall_within
    | with_reducible apply State.takePlace_within
    | simp only [Within.mk_iff]
    | with_reducible refine Upd.of ?_ ?_ ?_ ?_ ?_ ?_ ?_ ?_ ?_ ?_ ?_ ?_ ?_ ?_ ?_ ?_ ?_ ?_ ?_ ?_ ?_ ?_
    | with_reducible apply Within.ite
    | with_reducible apply Within.ite1
    | with_reducible apply Within.ite2
    | with_reducible apply Within.ite3
    | with_reducible apply Within.ite4
    | split

theorem execSearch_goes {M : Part → Bool} {a0 : State} {t : Nat} {src : Source} {r : SearchReq} {s : State} (m_timer : M .timer = true) (m_phs : M .phs = true) (m_sch : M .sch = true) (m_rq : M .rq = true) (m_hbm : M .hbm = true) (m_rmo : M .rmo = true) (m_egq : M .egq = true) (m_hif : M .hif = true) (m_pd : M .pd = true) (m_boot : M .boot = true) (m_mem : M .mem = true) (m_out : M .out = true) (hs : Within M a0 s) : Goes M a0 (execSearch t src r s) := by
  unfold execSearch
  try dsimp only
  repeat' first
    | with_reducible exact hs
    | with_reducible assumption
    | with_reducible exact Or.inl (by assumption)
    | with_reducible exact Or.inr rfl
    | with_reducible exact Or.inl rfl
    | with_reducible exact Or.inr ⟨by assumption, Nat.le_add_right _ _⟩
    | with_reducible apply Goes.next
    | with_reducible apply Goes.ite
    | with_reducible apply State.arrive_within
    | with_reducible apply State.hold_within
    | with_reducible apply State.search_within
    | with_reducible apply State.arrive_within
    | refine fun _ _ _ (hs : Within _ _ _) => ?_
    | refine fun _ (hs : Within _ _ _) => ?_
    | with_reducible apply Within.ite
    | split

theorem State.setSearch_within {M : Part → Bool} {a0 : State} {s : State} {id : Nat} {f : Search → Search} (m_rq : M .rq = true) (hs : Within M a0 s) : Within M a0 (State.setSearch s id f) := by
  unfold State.setSearch
  try dsimp only
  repeat' first
    | with_reducible exact hs
    | with_reducible assumption
    | with_reducible exact Or.inl (by assumption)
    | with_reducible exact Or.inr rfl
    | with_reducible exact Or.inl rfl
    | with_reducible exact Or.inr ⟨by assumption, Nat.le_add_right _ _⟩
    | simp only [Within.mk_iff]
    | with_reducible refine Upd.of ?_ ?_ ?_ ?_ ?_ ?_ ?_ ?_ ?_ ?_ ?_ ?_ ?_ ?_ ?_ ?_ ?_ ?_ ?_ ?_ ?_ ?_
    | split

theorem State.grantWays_within {M : Part → Bool} {a0 : State} {s : State} {id : Nat} {ways : List Nat} (m_rq : M .rq = true) (m_hbm : M .hbm = true) (m_pd : M .pd = true) (hs : Within M a0 s) : Within M a0 (State.grantWays s id ways) := by
  unfold State.grantWays
  try dsimp only
  repeat' first
    | with_reducible exact hs
    | with_reducible assumption
    | with_reducible exact Or.inl (by assumption)
    | with_reducible exact Or.inr rfl
    | with_reducible exact Or.inl rfl
    | with_reducible exact Or.inr ⟨by assumption, Nat.le_add_right _ _⟩
    | with_reducible apply State.count_within
    | with_reducible apply State.setGov_within
    | with_reducible apply State.setSearch_within
    | simp only [Within.mk_iff]
    | with_reducible refine Upd.of ?_ ?_ ?_ ?_ ?_ ?_ ?_ ?_ ?_ ?_ ?_ ?_ ?_ ?_ ?_ ?_ ?_ ?_ ?_ ?_ ?_ ?_
    | with_reducible apply Within.ite
    | with_reducible refine Within.foldl ?_ (fun _ _ hs => ?_)
    | with_reducible refine Within.foldl1 ?_ (fun _ _ hs => ?_)
    | with_reducible refine Within.foldl2 ?_ (fun _ _ hs => ?_)
    | split

theorem State.readSketches_within {M : Part → Bool} {a0 : State} {s : State} {r : SearchReq} {c : Corpus} (m_out : M .out = true) (hs : Within M a0 s) : Within M a0 (State.readSketches s r c) := by
  unfold State.readSketches
  try dsimp only
  repeat' first
    | with_reducible exact hs
    | with_reducible assumption
    | with_reducible exact Or.inl (by assumption)
    | with_reducible exact Or.inr rfl
    | with_reducible exact Or.inl rfl
    | with_reducible exact Or.inr ⟨by assumption, Nat.le_add_right _ _⟩
    | with_reducible apply State.readChunks_within
    | with_reducible refine Within.foldl ?_ (fun _ _ hs => ?_)
    | with_reducible refine Within.foldl1 ?_ (fun _ _ hs => ?_)
    | with_reducible refine Within.foldl2 ?_ (fun _ _ hs => ?_)

theorem State.dispatchSearch_within {M : Part → Bool} {a0 : State} {s : State} {x : Search} (m_rq : M .rq = true) (m_hbm : M .hbm = true) (m_rmo : M .rmo = true) (m_egq : M .egq = true) (m_hif : M .hif = true) (m_pd : M .pd = true) (m_boot : M .boot = true) (m_mem : M .mem = true) (m_out : M .out = true) (hs : Within M a0 s) : Within M a0 (State.dispatchSearch s x) := by
  unfold State.dispatchSearch
  try dsimp only
  repeat' first
    | with_reducible exact hs
    | with_reducible assumption
    | with_reducible exact Or.inl (by assumption)
    | with_reducible exact Or.inr rfl
    | with_reducible exact Or.inl rfl
    | with_reducible exact Or.inr ⟨by assumption, Nat.le_add_right _ _⟩
    | with_reducible apply State.arrive_within
    | with_reducible apply State.noReply_within
    | with_reducible apply State.endSearch_within
    | with_reducible apply State.setSearch_within
    | with_reducible apply State.grantWays_within
    | with_reducible apply State.readSketches_within
    | with_reducible apply State.arrive_within
    | simp only [Within.mk_iff]
    | with_reducible refine Upd.of ?_ ?_ ?_ ?_ ?_ ?_ ?_ ?_ ?_ ?_ ?_ ?_ ?_ ?_ ?_ ?_ ?_ ?_ ?_ ?_ ?_ ?_
    | with_reducible apply Within.ite
    | with_reducible apply Within.ite1
    | with_reducible apply Within.ite2
    | with_reducible apply Within.ite3
    | with_reducible apply Within.ite4
    | split

theorem State.continueSearch_within {M : Part → Bool} {a0 : State} {s : State} {x : Search} (m_rq : M .rq = true) (hs : Within M a0 s) : Within M a0 (State.continueSearch s x) := by
  unfold State.continueSearch
  try dsimp only
  repeat' first
    | with_reducible exact hs
    | with_reducible assumption
    | with_reducible exact Or.inl (by assumption)
    | with_reducible exact Or.inr rfl
    | with_reducible exact Or.inl rfl
    | with_reducible exact Or.inr ⟨by assumption, Nat.le_add_right _ _⟩
    | with_reducible apply State.setSearch_within
    | simp only [Within.mk_iff]
    | with_reducible refine Upd.of ?_ ?_ ?_ ?_ ?_ ?_ ?_ ?_ ?_ ?_ ?_ ?_ ?_ ?_ ?_ ?_ ?_ ?_ ?_ ?_ ?_ ?_
    | split


end Sys2Proof.Machine
end

