-- ==== Sys2Proof/Laws/WithinIntake.lean ====
section
/-! SUPPORT. Which parts of the state the operations of Machine/Intake.lean may move, and that they are steady. -/

set_option linter.unusedTactic false
set_option linter.unreachableTactic false

namespace Sys2Proof.Machine

theorem State.otherOp_within {M : Part → Bool} {a0 : State} {s : State} {src : Source} {env : Envelope} {op : Nat} (m_phs : M .phs = true) (m_sch : M .sch = true) (m_rq : M .rq = true) (m_hbm : M .hbm = true) (m_rmo : M .rmo = true) (m_egq : M .egq = true) (m_hif : M .hif = true) (m_pd : M .pd = true) (m_boot : M .boot = true) (m_mem : M .mem = true) (m_out : M .out = true) (hs : Within M a0 s) : Within M a0 (State.otherOp s src env op) := by
  unfold State.otherOp
  split
  · apply State.manage_within <;> first | assumption | exact fun _ _ _ h => h
  · exact hs

theorem State.submit_within {M : Part → Bool} {a0 : State} {s : State} {src : Source} {x0 : ReqBody} (m_timer : M .timer = true) (m_phs : M .phs = true) (m_sch : M .sch = true) (m_pg : M .pg = true) (m_rq : M .rq = true) (m_hbm : M .hbm = true) (m_tier : M .tier = true) (m_rmo : M .rmo = true) (m_egq : M .egq = true) (m_cmp : M .cmp = true) (m_rel : M .rel = true) (m_hif : M .hif = true) (m_pd : M .pd = true) (m_boot : M .boot = true) (m_mem : M .mem = true) (m_out : M .out = true) (m_free : M .free = true) (hs : Within M a0 s) : Within M a0 (State.submit s src x0) := by
  unfold State.submit
  try dsimp only
  repeat' first
    | with_reducible exact hs
    | with_reducible assumption
    | with_reducible exact Or.inl (by assumption)
    | with_reducible exact Or.inr rfl
    | with_reducible exact Or.inl rfl
    | with_reducible exact Or.inr ⟨by assumption, Nat.le_add_right _ _⟩
    | with_reducible apply goesOn_within
    | with_reducible apply State.attend_within
    | with_reducible apply State.corpusCreate_within
    | with_reducible apply State.recordAppend_within
    | with_reducible apply State.recordDelete_within
    | with_reducible apply State.search_within
    | with_reducible apply State.otherOp_within
    | with_reducible refine goesOn_within ?_ ?_
    | with_reducible apply execAttendRequest_goes
    | with_reducible apply execCorpusCreate_goes
    | with_reducible apply execCorpusDelete_goes
    | with_reducible apply execCtxCreate_goes
    | with_reducible apply execCtxDelete_goes
    | with_reducible apply execCtxFork_goes
    | with_reducible apply execPageMark_goes
    | with_reducible apply execPageRewrite_goes
    | with_reducible apply execRecordAppend_goes
    | with_reducible apply execRecordDelete_goes
    | with_reducible apply execSearch_goes
    | with_reducible apply execSiltAppend_goes
    | split

theorem State.handOver_within {M : Part → Bool} {a0 : State} {s : State} {g : Segment} {w : Win} {b : List Byte} (m_timer : M .timer = true) (m_phs : M .phs = true) (m_sch : M .sch = true) (m_pg : M .pg = true) (m_rq : M .rq = true) (m_hbm : M .hbm = true) (m_tier : M .tier = true) (m_rmo : M .rmo = true) (m_egq : M .egq = true) (m_cmp : M .cmp = true) (m_rel : M .rel = true) (m_hif : M .hif = true) (m_pd : M .pd = true) (m_boot : M .boot = true) (m_mem : M .mem = true) (m_out : M .out = true) (m_free : M .free = true) (hs : Within M a0 s) : Within M a0 (State.handOver s g w b) := by
  unfold State.handOver
  try dsimp only
  repeat' first
    | with_reducible exact hs
    | with_reducible assumption
    | with_reducible exact Or.inl (by assumption)
    | with_reducible exact Or.inr rfl
    | with_reducible exact Or.inl rfl
    | with_reducible exact Or.inr ⟨by assumption, Nat.le_add_right _ _⟩
    | with_reducible apply State.submit_within
    | simp only [Within.mk_iff]
    | with_reducible refine Upd.of ?_ ?_ ?_ ?_ ?_ ?_ ?_ ?_ ?_ ?_ ?_ ?_ ?_ ?_ ?_ ?_ ?_ ?_ ?_ ?_ ?_ ?_


end Sys2Proof.Machine
end

