-- ==== Sys2Proof/Laws/WithinRemote.lean ====
section
/-! SUPPORT. Which parts of the state the operations of Machine/Remote.lean may move, and that they are steady. -/

set_option linter.unusedTactic false
set_option linter.unreachableTactic false

namespace Sys2Proof.Machine

theorem State.gwPack_within {M : Part → Bool} {a0 : State} {s : State} {gs : List Segment} (m_rmo : M .rmo = true) (hs : Within M a0 s) : Within M a0 (State.gwPack s gs) := by
  unfold State.gwPack
  try dsimp only
  repeat' first
    | with_reducible exact hs
    | with_reducible assumption
    | with_reducible exact Or.inl (by assumption)
    | with_reducible exact Or.inr rfl
    | with_reducible exact Or.inl rfl
    | with_reducible exact Or.inr ⟨by assumption, Nat.le_add_right _ _⟩
    | simp only [Within.mk_iff]
    | with_reducible refine Upd.of ?_ ?_ ?_ ?_ ?_ ?_ ?_ ?_ ?_ ?_ ?_ ?_ ?_ ?_ ?_ ?_ ?_ ?_ ?_ ?_ ?_ ?_
    | split

theorem State.sendResponse_within {M : Part → Bool} {a0 : State} {s : State} {g : Segment} {ord : Nat} {r : Response} (m_lnk : M .lnk = true) (m_rmo : M .rmo = true) (hs : Within M a0 s) : Within M a0 (State.sendResponse s g ord r) := by
  unfold State.sendResponse
  try dsimp only
  repeat' first
    | with_reducible exact hs
    | with_reducible assumption
    | with_reducible exact Or.inl (by assumption)
    | with_reducible exact Or.inr rfl
    | with_reducible exact Or.inl rfl
    | with_reducible exact Or.inr ⟨by assumption, Nat.le_add_right _ _⟩
    | with_reducible apply State.putPkts_within
    | with_reducible apply State.gwPack_within
    | simp only [Within.mk_iff]
    | with_reducible refine Upd.of ?_ ?_ ?_ ?_ ?_ ?_ ?_ ?_ ?_ ?_ ?_ ?_ ?_ ?_ ?_ ?_ ?_ ?_ ?_ ?_ ?_ ?_
    | with_reducible apply Within.ite
    | split

theorem State.respond_within {M : Part → Bool} {a0 : State} {s : State} {g : Segment} {st : Status} {hint : Option Nat} {ce : Bool} {data : List Byte} (m_lnk : M .lnk = true) (m_rmo : M .rmo = true) (m_out : M .out = true) (hs : Within M a0 s) : Within M a0 (State.respond s g st hint ce data) := by
  unfold State.respond
  try dsimp only
  repeat' first
    | with_reducible exact hs
    | with_reducible assumption
    | with_reducible exact Or.inl (by assumption)
    | with_reducible exact Or.inr rfl
    | with_reducible exact Or.inl rfl
    | with_reducible exact Or.inr ⟨by assumption, Nat.le_add_right _ _⟩
    | with_reducible apply State.emit_within
    | with_reducible apply State.sendResponse_within
    | simp only [Within.mk_iff]
    | with_reducible refine Upd.of ?_ ?_ ?_ ?_ ?_ ?_ ?_ ?_ ?_ ?_ ?_ ?_ ?_ ?_ ?_ ?_ ?_ ?_ ?_ ?_ ?_ ?_
    | with_reducible apply Within.ite
    | split

theorem State.msgEvent_within {M : Part → Bool} {a0 : State} {s : State} {code subj node : Nat} {cseq : BitVec 32} {comp : Option Nat} {job : Nat} {st : Nat} (m_hbm : M .hbm = true) (m_rmo : M .rmo = true) (m_pd : M .pd = true) (m_boot : M .boot = true) (m_mem : M .mem = true) (m_out : M .out = true) (hs : Within M a0 s) : Within M a0 (State.msgEvent s code subj node cseq comp job st) := by
  unfold State.msgEvent
  try dsimp only
  repeat' first
    | with_reducible exact hs
    | with_reducible assumption
    | with_reducible exact Or.inl (by assumption)
    | with_reducible exact Or.inr rfl
    | with_reducible exact Or.inl rfl
    | with_reducible exact Or.inr ⟨by assumption, Nat.le_add_right _ _⟩
    | with_reducible apply State.event_within

theorem State.finishMsg_within {M : Part → Bool} {a0 : State} {s : State} {g : Segment} {applied : Bool} (m_rmo : M .rmo = true) (hs : Within M a0 s) : Within M a0 (State.finishMsg s g applied) := by
  unfold State.finishMsg
  try dsimp only
  repeat' first
    | with_reducible exact hs
    | with_reducible assumption
    | with_reducible exact Or.inl (by assumption)
    | with_reducible exact Or.inr rfl
    | with_reducible exact Or.inl rfl
    | with_reducible exact Or.inr ⟨by assumption, Nat.le_add_right _ _⟩
    | with_reducible apply State.setRecv_within
    | simp only [Within.mk_iff]
    | with_reducible refine Upd.of ?_ ?_ ?_ ?_ ?_ ?_ ?_ ?_ ?_ ?_ ?_ ?_ ?_ ?_ ?_ ?_ ?_ ?_ ?_ ?_ ?_ ?_

theorem State.refuseMsg_within {M : Part → Bool} {a0 : State} {s : State} {g : Segment} {st : Status} {hint : Option Nat} {ce : Bool} (m_hbm : M .hbm = true) (m_lnk : M .lnk = true) (m_rmo : M .rmo = true) (m_pd : M .pd = true) (m_boot : M .boot = true) (m_mem : M .mem = true) (m_out : M .out = true) (hs : Within M a0 s) : Within M a0 (State.refuseMsg s g st hint ce) := by
  unfold State.refuseMsg
  try dsimp only
  repeat' first
    | with_reducible exact hs
    | with_reducible assumption
    | with_reducible exact Or.inl (by assumption)
    | with_reducible exact Or.inr rfl
    | with_reducible exact Or.inl rfl
    | with_reducible exact Or.inr ⟨by assumption, Nat.le_add_right _ _⟩
    | with_reducible apply State.count_within
    | with_reducible apply State.countC_within
    | with_reducible apply State.event_within
    | with_reducible apply State.respond_within
    | with_reducible apply State.finishMsg_within
    | simp only [Within.mk_iff]
    | with_reducible refine Upd.of ?_ ?_ ?_ ?_ ?_ ?_ ?_ ?_ ?_ ?_ ?_ ?_ ?_ ?_ ?_ ?_ ?_ ?_ ?_ ?_ ?_ ?_
    | with_reducible apply Within.ite
    | with_reducible apply Within.ite1
    | with_reducible apply Within.ite2
    | with_reducible apply Within.ite3
    | with_reducible apply Within.ite4
    | split

theorem State.answerWritten_within {M : Part → Bool} {a0 : State} {s : State} (m_lnk : M .lnk = true) (m_rmo : M .rmo = true) (m_out : M .out = true) (hs : Within M a0 s) : Within M a0 (State.answerWritten s) := by
  unfold State.answerWritten
  try dsimp only
  repeat' first
    | with_reducible exact hs
    | with_reducible assumption
    | with_reducible exact Or.inl (by assumption)
    | with_reducible exact Or.inr rfl
    | with_reducible exact Or.inl rfl
    | with_reducible exact Or.inr ⟨by assumption, Nat.le_add_right _ _⟩
    | with_reducible apply State.respond_within
    | simp only [Within.mk_iff]
    | with_reducible refine Upd.of ?_ ?_ ?_ ?_ ?_ ?_ ?_ ?_ ?_ ?_ ?_ ?_ ?_ ?_ ?_ ?_ ?_ ?_ ?_ ?_ ?_ ?_
    | with_reducible refine Within.foldl ?_ (fun _ _ hs => ?_)
    | with_reducible refine Within.foldl1 ?_ (fun _ _ hs => ?_)
    | with_reducible refine Within.foldl2 ?_ (fun _ _ hs => ?_)

theorem State.writeBackNow_within {M : Part → Bool} {a0 : State} {s : State} {l : Nat} (m_hbm : M .hbm = true) (m_lnk : M .lnk = true) (m_rmo : M .rmo = true) (m_mem : M .mem = true) (m_out : M .out = true) (hs : Within M a0 s) : Within M a0 (State.writeBackNow s l) := by
  unfold State.writeBackNow
  try dsimp only
  repeat' first
    | with_reducible exact hs
    | with_reducible assumption
    | with_reducible exact Or.inl (by assumption)
    | with_reducible exact Or.inr rfl
    | with_reducible exact Or.inl rfl
    | with_reducible exact Or.inr ⟨by assumption, Nat.le_add_right _ _⟩
    | with_reducible apply State.store_within
    | with_reducible apply State.answerWritten_within
    | with_reducible apply State.store_within
    | simp only [Within.mk_iff]
    | with_reducible refine Upd.of ?_ ?_ ?_ ?_ ?_ ?_ ?_ ?_ ?_ ?_ ?_ ?_ ?_ ?_ ?_ ?_ ?_ ?_ ?_ ?_ ?_ ?_
    | with_reducible apply Within.ite
    | with_reducible apply Within.ite1
    | with_reducible apply Within.ite2
    | with_reducible apply Within.ite3
    | with_reducible apply Within.ite4
    | split

theorem State.writeBack_within {M : Part → Bool} {a0 : State} {s : State} {l : Nat} (m_hbm : M .hbm = true) (m_lnk : M .lnk = true) (m_rmo : M .rmo = true) (m_mem : M .mem = true) (m_out : M .out = true) (hs : Within M a0 s) : Within M a0 (State.writeBack s l) := by
  unfold State.writeBack
  try dsimp only
  repeat' first
    | with_reducible exact hs
    | with_reducible assumption
    | with_reducible exact Or.inl (by assumption)
    | with_reducible exact Or.inr rfl
    | with_reducible exact Or.inl rfl
    | with_reducible exact Or.inr ⟨by assumption, Nat.le_add_right _ _⟩
    | with_reducible apply State.writeBackNow_within
    | with_reducible apply Within.ite
    | split

theorem State.dropLine_within {M : Part → Bool} {a0 : State} {s : State} {l : Nat} (m_hbm : M .hbm = true) (m_lnk : M .lnk = true) (m_rmo : M .rmo = true) (m_mem : M .mem = true) (m_out : M .out = true) (hs : Within M a0 s) : Within M a0 (State.dropLine s l) := by
  unfold State.dropLine
  try dsimp only
  repeat' first
    | with_reducible exact hs
    | with_reducible assumption
    | with_reducible exact Or.inl (by assumption)
    | with_reducible exact Or.inr rfl
    | with_reducible exact Or.inl rfl
    | with_reducible exact Or.inr ⟨by assumption, Nat.le_add_right _ _⟩
    | with_reducible apply State.writeBackNow_within
    | simp only [Within.mk_iff]
    | with_reducible refine Upd.of ?_ ?_ ?_ ?_ ?_ ?_ ?_ ?_ ?_ ?_ ?_ ?_ ?_ ?_ ?_ ?_ ?_ ?_ ?_ ?_ ?_ ?_

theorem State.takeLine_within {M : Part → Bool} {a0 : State} {s : State} {l : Nat} (m_hbm : M .hbm = true) (m_lnk : M .lnk = true) (m_rmo : M .rmo = true) (m_mem : M .mem = true) (m_out : M .out = true) (hs : Within M a0 s) : Within M a0 (State.takeLine s l) := by
  unfold State.takeLine
  try dsimp only
  repeat' first
    | with_reducible exact hs
    | with_reducible assumption
    | with_reducible exact Or.inl (by assumption)
    | with_reducible exact Or.inr rfl
    | with_reducible exact Or.inl rfl
    | with_reducible exact Or.inr ⟨by assumption, Nat.le_add_right _ _⟩
    | with_reducible apply State.dropLine_within
    | simp only [Within.mk_iff]
    | with_reducible refine Upd.of ?_ ?_ ?_ ?_ ?_ ?_ ?_ ?_ ?_ ?_ ?_ ?_ ?_ ?_ ?_ ?_ ?_ ?_ ?_ ?_ ?_ ?_
    | with_reducible apply Within.ite
    | with_reducible apply Within.ite1
    | with_reducible apply Within.ite2
    | with_reducible apply Within.ite3
    | with_reducible apply Within.ite4
    | with_reducible refine Within.foldl ?_ (fun _ _ hs => ?_)
    | with_reducible refine Within.foldl1 ?_ (fun _ _ hs => ?_)
    | with_reducible refine Within.foldl2 ?_ (fun _ _ hs => ?_)
    | split

theorem State.unitWrite_within {M : Part → Bool} {a0 : State} {s : State} {a : Nat} {bs : List Byte} (m_hbm : M .hbm = true) (m_rmo : M .rmo = true) (m_mem : M .mem = true) (hs : Within M a0 s) : Within M a0 (State.unitWrite s a bs) := by
  unfold State.unitWrite
  try dsimp only
  repeat' first
    | with_reducible exact hs
    | with_reducible assumption
    | with_reducible exact Or.inl (by assumption)
    | with_reducible exact Or.inr rfl
    | with_reducible exact Or.inl rfl
    | with_reducible exact Or.inr ⟨by assumption, Nat.le_add_right _ _⟩
    | with_reducible apply State.store_within
    | with_reducible apply State.store_within
    | simp only [Within.mk_iff]
    | with_reducible refine Upd.of ?_ ?_ ?_ ?_ ?_ ?_ ?_ ?_ ?_ ?_ ?_ ?_ ?_ ?_ ?_ ?_ ?_ ?_ ?_ ?_ ?_ ?_
    | with_reducible apply Within.ite
    | with_reducible refine Within.foldl ?_ (fun _ _ hs => ?_)
    | with_reducible refine Within.foldl1 ?_ (fun _ _ hs => ?_)
    | with_reducible refine Within.foldl2 ?_ (fun _ _ hs => ?_)
    | split

theorem State.countHot_within {M : Part → Bool} {a0 : State} {s : State} {g : Segment} {a len : Nat} (m_rmo : M .rmo = true) (hs : Within M a0 s) : Within M a0 (State.countHot s g a len) := by
  unfold State.countHot
  try dsimp only
  repeat' first
    | with_reducible exact hs
    | with_reducible assumption
    | with_reducible exact Or.inl (by assumption)
    | with_reducible exact Or.inr rfl
    | with_reducible exact Or.inl rfl
    | with_reducible exact Or.inr ⟨by assumption, Nat.le_add_right _ _⟩
    | simp only [Within.mk_iff]
    | with_reducible refine Upd.of ?_ ?_ ?_ ?_ ?_ ?_ ?_ ?_ ?_ ?_ ?_ ?_ ?_ ?_ ?_ ?_ ?_ ?_ ?_ ?_ ?_ ?_
    | with_reducible apply Within.ite
    | with_reducible refine Within.foldl ?_ (fun _ _ hs => ?_)
    | with_reducible refine Within.foldl1 ?_ (fun _ _ hs => ?_)
    | with_reducible refine Within.foldl2 ?_ (fun _ _ hs => ?_)
    | split

theorem State.answer_within {M : Part → Bool} {a0 : State} {s : State} {g : Segment} {st : Status} {a len : Nat} {data : List Byte} (m_lnk : M .lnk = true) (m_rmo : M .rmo = true) (m_out : M .out = true) (hs : Within M a0 s) : Within M a0 (State.answer s g st a len data) := by
  unfold State.answer
  try dsimp only
  repeat' first
    | with_reducible exact hs
    | with_reducible assumption
    | with_reducible exact Or.inl (by assumption)
    | with_reducible exact Or.inr rfl
    | with_reducible exact Or.inl rfl
    | with_reducible exact Or.inr ⟨by assumption, Nat.le_add_right _ _⟩
    | with_reducible apply State.respond_within
    | simp only [Within.mk_iff]
    | with_reducible refine Upd.of ?_ ?_ ?_ ?_ ?_ ?_ ?_ ?_ ?_ ?_ ?_ ?_ ?_ ?_ ?_ ?_ ?_ ?_ ?_ ?_ ?_ ?_
    | with_reducible apply Within.ite
    | split

theorem State.applyMsg_within {M : Part → Bool} {a0 : State} {s : State} {g : Segment} {w : Win} {bytes : List (Nat × List Byte)} (m_timer : M .timer = true) (m_phs : M .phs = true) (m_sch : M .sch = true) (m_pg : M .pg = true) (m_rq : M .rq = true) (m_hbm : M .hbm = true) (m_tier : M .tier = true) (m_lnk : M .lnk = true) (m_rmo : M .rmo = true) (m_egq : M .egq = true) (m_cmp : M .cmp = true) (m_rel : M .rel = true) (m_hif : M .hif = true) (m_pd : M .pd = true) (m_boot : M .boot = true) (m_mem : M .mem = true) (m_out : M .out = true) (m_free : M .free = true) (hs : Within M a0 s) : Within M a0 (State.applyMsg s g w bytes) := by
  unfold State.applyMsg
  try dsimp only
  repeat' first
    | with_reducible exact hs
    | with_reducible assumption
    | with_reducible exact Or.inl (by assumption)
    | with_reducible exact Or.inr rfl
    | with_reducible exact Or.inl rfl
    | with_reducible exact Or.inr ⟨by assumption, Nat.le_add_right _ _⟩
    | with_reducible apply State.count_within
    | with_reducible apply State.controlWrite_within
    | with_reducible apply State.handOver_within
    | with_reducible apply State.respond_within
    | with_reducible apply State.finishMsg_within
    | with_reducible apply State.takeLine_within
    | with_reducible apply State.unitWrite_within
    | with_reducible apply State.answer_within
    | with_reducible apply Within.ite
    | with_reducible apply Within.ite1
    | with_reducible apply Within.ite2
    | with_reducible apply Within.ite3
    | with_reducible apply Within.ite4
    | with_reducible refine Within.foldl ?_ (fun _ _ hs => ?_)
    | with_reducible refine Within.foldl1 ?_ (fun _ _ hs => ?_)
    | with_reducible refine Within.foldl2 ?_ (fun _ _ hs => ?_)
    | split

theorem State.acceptSeg_within {M : Part → Bool} {a0 : State} {s : State} {g : Segment} {w : Win} (m_timer : M .timer = true) (m_phs : M .phs = true) (m_sch : M .sch = true) (m_pg : M .pg = true) (m_rq : M .rq = true) (m_hbm : M .hbm = true) (m_tier : M .tier = true) (m_lnk : M .lnk = true) (m_rmo : M .rmo = true) (m_egq : M .egq = true) (m_cmp : M .cmp = true) (m_rel : M .rel = true) (m_hif : M .hif = true) (m_pd : M .pd = true) (m_boot : M .boot = true) (m_mem : M .mem = true) (m_out : M .out = true) (m_free : M .free = true) (hs : Within M a0 s) : Within M a0 (State.acceptSeg s g w) := by
  unfold State.acceptSeg
  try dsimp only
  repeat' first
    | with_reducible exact hs
    | with_reducible assumption
    | with_reducible exact Or.inl (by assumption)
    | with_reducible exact Or.inr rfl
    | with_reducible exact Or.inl rfl
    | with_reducible exact Or.inr ⟨by assumption, Nat.le_add_right _ _⟩
    | with_reducible apply State.count_within
    | with_reducible apply State.msgEvent_within
    | with_reducible apply State.unitWrite_within
    | with_reducible apply State.countHot_within
    | with_reducible apply State.applyMsg_within
    | simp only [Within.mk_iff]
    | with_reducible refine Upd.of ?_ ?_ ?_ ?_ ?_ ?_ ?_ ?_ ?_ ?_ ?_ ?_ ?_ ?_ ?_ ?_ ?_ ?_ ?_ ?_ ?_ ?_
    | with_reducible apply Within.ite
    | split

theorem State.convert_within {M : Part → Bool} {a0 : State} {s : State} {g : Segment} (m_lnk : M .lnk = true) (m_rmo : M .rmo = true) (m_pd : M .pd = true) (m_out : M .out = true) (hs : Within M a0 s) : Within M a0 (State.convert s g) := by
  unfold State.convert
  try dsimp only
  repeat' first
    | with_reducible exact hs
    | with_reducible assumption
    | with_reducible exact Or.inl (by assumption)
    | with_reducible exact Or.inr rfl
    | with_reducible exact Or.inl rfl
    | with_reducible exact Or.inr ⟨by assumption, Nat.le_add_right _ _⟩
    | with_reducible apply State.count_within
    | with_reducible apply State.gwPack_within
    | with_reducible apply State.respond_within
    | with_reducible apply Within.ite
    | split

theorem State.refuseUnknown_within {M : Part → Bool} {a0 : State} {s : State} {g : Segment} (m_lnk : M .lnk = true) (m_rmo : M .rmo = true) (m_out : M .out = true) (hs : Within M a0 s) : Within M a0 (State.refuseUnknown s g) := by
  unfold State.refuseUnknown
  try dsimp only
  repeat' first
    | with_reducible exact hs
    | with_reducible assumption
    | with_reducible exact Or.inl (by assumption)
    | with_reducible exact Or.inr rfl
    | with_reducible exact Or.inl rfl
    | with_reducible exact Or.inr ⟨by assumption, Nat.le_add_right _ _⟩
    | with_reducible apply State.respond_within
    | simp only [Within.mk_iff]
    | with_reducible refine Upd.of ?_ ?_ ?_ ?_ ?_ ?_ ?_ ?_ ?_ ?_ ?_ ?_ ?_ ?_ ?_ ?_ ?_ ?_ ?_ ?_ ?_ ?_
    | with_reducible apply Within.ite
    | split

theorem State.receive_within {M : Part → Bool} {a0 : State} {s : State} {op : Nat} {tagOk : Bool} {g : Segment} (m_timer : M .timer = true) (m_phs : M .phs = true) (m_sch : M .sch = true) (m_pg : M .pg = true) (m_rq : M .rq = true) (m_hbm : M .hbm = true) (m_tier : M .tier = true) (m_lnk : M .lnk = true) (m_rmo : M .rmo = true) (m_egq : M .egq = true) (m_cmp : M .cmp = true) (m_rel : M .rel = true) (m_hif : M .hif = true) (m_pd : M .pd = true) (m_boot : M .boot = true) (m_mem : M .mem = true) (m_out : M .out = true) (m_free : M .free = true) (hs : Within M a0 s) : Within M a0 (State.receive s op tagOk g) := by
  unfold State.receive
  try dsimp only
  repeat' first
    | with_reducible exact hs
    | with_reducible assumption
    | with_reducible exact Or.inl (by assumption)
    | with_reducible exact Or.inr rfl
    | with_reducible exact Or.inl rfl
    | with_reducible exact Or.inr ⟨by assumption, Nat.le_add_right _ _⟩
    | with_reducible apply State.count_within
    | with_reducible apply State.countC_within
    | with_reducible apply State.forceDue_within
    | with_reducible apply State.respond_within
    | with_reducible apply State.msgEvent_within
    | with_reducible apply State.refuseMsg_within
    | with_reducible apply State.acceptSeg_within
    | with_reducible apply State.convert_within
    | with_reducible apply State.refuseUnknown_within
    | with_reducible apply Within.ite
    | with_reducible apply Within.ite1
    | with_reducible apply Within.ite2
    | with_reducible apply Within.ite3
    | with_reducible apply Within.ite4
    | split

theorem State.replayContext_within {M : Part → Bool} {a0 : State} {s : State} {c : Reasm} (m_lnk : M .lnk = true) (m_rmo : M .rmo = true) (m_out : M .out = true) (hs : Within M a0 s) : Within M a0 (State.replayContext s c) := by
  unfold State.replayContext
  try dsimp only
  repeat' first
    | with_reducible exact hs
    | with_reducible assumption
    | with_reducible exact Or.inl (by assumption)
    | with_reducible exact Or.inr rfl
    | with_reducible exact Or.inl rfl
    | with_reducible exact Or.inr ⟨by assumption, Nat.le_add_right _ _⟩
    | with_reducible apply State.respond_within
    | simp only [Within.mk_iff]
    | with_reducible refine Upd.of ?_ ?_ ?_ ?_ ?_ ?_ ?_ ?_ ?_ ?_ ?_ ?_ ?_ ?_ ?_ ?_ ?_ ?_ ?_ ?_ ?_ ?_
    | with_reducible apply Within.ite
    | split

theorem State.unqueueSeq_within {M : Part → Bool} {a0 : State} {s : State} {q : Nat} {c : BitVec 32} (m_egq : M .egq = true) (hs : Within M a0 s) : Within M a0 (State.unqueueSeq s q c) := by
  unfold State.unqueueSeq
  try dsimp only
  repeat' first
    | with_reducible exact hs
    | with_reducible assumption
    | with_reducible exact Or.inl (by assumption)
    | with_reducible exact Or.inr rfl
    | with_reducible exact Or.inl rfl
    | with_reducible exact Or.inr ⟨by assumption, Nat.le_add_right _ _⟩
    | with_reducible apply State.unqueue_within

theorem State.setDma_within {M : Part → Bool} {a0 : State} {s : State} {ch : Nat} {d : Dma} (m_egq : M .egq = true) (hs : Within M a0 s) : Within M a0 (State.setDma s ch d) := by
  unfold State.setDma
  try dsimp only
  repeat' first
    | with_reducible exact hs
    | with_reducible assumption
    | with_reducible exact Or.inl (by assumption)
    | with_reducible exact Or.inr rfl
    | with_reducible exact Or.inl rfl
    | with_reducible exact Or.inr ⟨by assumption, Nat.le_add_right _ _⟩
    | simp only [Within.mk_iff]
    | with_reducible refine Upd.of ?_ ?_ ?_ ?_ ?_ ?_ ?_ ?_ ?_ ?_ ?_ ?_ ?_ ?_ ?_ ?_ ?_ ?_ ?_ ?_ ?_ ?_

theorem State.dmaEnded_within {M : Part → Bool} {a0 : State} {s : State} {ch : Nat} {m : Msg} {st : Status} {data : List Byte} (m_hbm : M .hbm = true) (m_egq : M .egq = true) (m_mem : M .mem = true) (hs : Within M a0 s) : Within M a0 (State.dmaEnded s ch m st data) := by
  unfold State.dmaEnded
  try dsimp only
  repeat' first
    | with_reducible exact hs
    | with_reducible assumption
    | with_reducible exact Or.inl (by assumption)
    | with_reducible exact Or.inr rfl
    | with_reducible exact Or.inl rfl
    | with_reducible exact Or.inr ⟨by assumption, Nat.le_add_right _ _⟩
    | with_reducible apply State.store_within
    | with_reducible apply State.count_within
    | with_reducible apply State.unqueue_within
    | with_reducible apply State.setDma_within
    | with_reducible apply State.store_within
    | simp only [Within.mk_iff]
    | with_reducible refine Upd.of ?_ ?_ ?_ ?_ ?_ ?_ ?_ ?_ ?_ ?_ ?_ ?_ ?_ ?_ ?_ ?_ ?_ ?_ ?_ ?_ ?_ ?_
    | with_reducible apply Within.ite
    | split

theorem State.resultRefused_within {M : Part → Bool} {a0 : State} {s : State} {q : Nat} {id : Nat} {m : Msg} {st : Status} (m_rq : M .rq = true) (m_hbm : M .hbm = true) (m_rmo : M .rmo = true) (m_egq : M .egq = true) (m_pd : M .pd = true) (m_boot : M .boot = true) (m_mem : M .mem = true) (m_out : M .out = true) (hs : Within M a0 s) : Within M a0 (State.resultRefused s q id m st) := by
  unfold State.resultRefused
  try dsimp only
  repeat' first
    | with_reducible exact hs
    | with_reducible assumption
    | with_reducible exact Or.inl (by assumption)
    | with_reducible exact Or.inr rfl
    | with_reducible exact Or.inl rfl
    | with_reducible exact Or.inr ⟨by assumption, Nat.le_add_right _ _⟩
    | with_reducible apply State.unqueue_within
    | with_reducible apply State.setReq_within
    | with_reducible apply State.msgEvent_within
    | simp only [Within.mk_iff]
    | with_reducible refine Upd.of ?_ ?_ ?_ ?_ ?_ ?_ ?_ ?_ ?_ ?_ ?_ ?_ ?_ ?_ ?_ ?_ ?_ ?_ ?_ ?_ ?_ ?_
    | with_reducible apply Within.ite
    | split

theorem State.fetchEnded_within {M : Part → Bool} {a0 : State} {s : State} {id i page : Nat} {st : Status} {want data : List Byte} (m_phs : M .phs = true) (m_rq : M .rq = true) (m_hbm : M .hbm = true) (m_tier : M .tier = true) (m_rmo : M .rmo = true) (m_egq : M .egq = true) (m_hif : M .hif = true) (m_pd : M .pd = true) (m_boot : M .boot = true) (m_mem : M .mem = true) (m_out : M .out = true) (hs : Within M a0 s) : Within M a0 (State.fetchEnded s id i page st want data) := by
  unfold State.fetchEnded
  try dsimp only
  repeat' first
    | with_reducible exact hs
    | with_reducible assumption
    | with_reducible exact Or.inl (by assumption)
    | with_reducible exact Or.inr rfl
    | with_reducible exact Or.inl rfl
    | with_reducible exact Or.inr ⟨by assumption, Nat.le_add_right _ _⟩
    | with_reducible apply State.endSec_within
    | with_reducible apply State.checkSub_within
    | with_reducible apply State.recallBad_within
    | with_reducible apply Within.ite
    | with_reducible apply Within.ite1
    | with_reducible apply Within.ite2
    | with_reducible apply Within.ite3
    | with_reducible apply Within.ite4
    | split

theorem State.moveEnded_within {M : Part → Bool} {a0 : State} {s : State} {id : Nat} {rd : Bool} {st : Status} {want data : List Byte} (m_hbm : M .hbm = true) (m_tier : M .tier = true) (m_rmo : M .rmo = true) (m_pd : M .pd = true) (m_boot : M .boot = true) (m_mem : M .mem = true) (m_out : M .out = true) (hs : Within M a0 s) : Within M a0 (State.moveEnded s id rd st want data) := by
  unfold State.moveEnded
  try dsimp only
  repeat' first
    | with_reducible exact hs
    | with_reducible assumption
    | with_reducible exact Or.inl (by assumption)
    | with_reducible exact Or.inr rfl
    | with_reducible exact Or.inl rfl
    | with_reducible exact Or.inr ⟨by assumption, Nat.le_add_right _ _⟩
    | with_reducible apply State.checkSub_within
    | simp only [Within.mk_iff]
    | with_reducible refine Upd.of ?_ ?_ ?_ ?_ ?_ ?_ ?_ ?_ ?_ ?_ ?_ ?_ ?_ ?_ ?_ ?_ ?_ ?_ ?_ ?_ ?_ ?_
    | with_reducible apply Within.ite
    | with_reducible apply Within.ite1
    | with_reducible apply Within.ite2
    | with_reducible apply Within.ite3
    | with_reducible apply Within.ite4
    | split

theorem State.ended_within {M : Part → Bool} {a0 : State} {s : State} {q : Nat} {m : Msg} {st : Status} {data : List Byte} (m_phs : M .phs = true) (m_pg : M .pg = true) (m_rq : M .rq = true) (m_hbm : M .hbm = true) (m_tier : M .tier = true) (m_rmo : M .rmo = true) (m_egq : M .egq = true) (m_rel : M .rel = true) (m_hif : M .hif = true) (m_pd : M .pd = true) (m_boot : M .boot = true) (m_mem : M .mem = true) (m_out : M .out = true) (hs : Within M a0 s) : Within M a0 (State.ended s q m st data) := by
  unfold State.ended
  try dsimp only
  repeat' first
    | with_reducible exact hs
    | with_reducible assumption
    | with_reducible exact Or.inl (by assumption)
    | with_reducible exact Or.inr rfl
    | with_reducible exact Or.inl rfl
    | with_reducible exact Or.inr ⟨by assumption, Nat.le_add_right _ _⟩
    | with_reducible apply State.unqueue_within
    | with_reducible apply State.ringNext_within
    | with_reducible apply State.setPage_within
    | with_reducible apply State.mirrorAcked_within
    | with_reducible apply State.appendAcked_within
    | with_reducible apply State.dmaEnded_within
    | with_reducible apply State.resultRefused_within
    | with_reducible apply State.fetchEnded_within
    | with_reducible apply State.moveEnded_within
    | simp only [Within.mk_iff]
    | with_reducible refine Upd.of ?_ ?_ ?_ ?_ ?_ ?_ ?_ ?_ ?_ ?_ ?_ ?_ ?_ ?_ ?_ ?_ ?_ ?_ ?_ ?_ ?_ ?_
    | with_reducible apply Within.ite
    | with_reducible apply Within.ite1
    | with_reducible apply Within.ite2
    | with_reducible apply Within.ite3
    | with_reducible apply Within.ite4
    | split

theorem State.closeMsg_within {M : Part → Bool} {a0 : State} {s : State} {q : Nat} {o : Outst} {e : SendEnt} (m_rmo : M .rmo = true) (m_egq : M .egq = true) (hs : Within M a0 s) : Within M a0 (State.closeMsg s q o e) := by
  unfold State.closeMsg
  try dsimp only
  repeat' first
    | with_reducible exact hs
    | with_reducible assumption
    | with_reducible exact Or.inl (by assumption)
    | with_reducible exact Or.inr rfl
    | with_reducible exact Or.inl rfl
    | with_reducible exact Or.inr ⟨by assumption, Nat.le_add_right _ _⟩
    | with_reducible apply State.setSend_within
    | with_reducible apply State.unqueueSeq_within
    | simp only [Within.mk_iff]
    | with_reducible refine Upd.of ?_ ?_ ?_ ?_ ?_ ?_ ?_ ?_ ?_ ?_ ?_ ?_ ?_ ?_ ?_ ?_ ?_ ?_ ?_ ?_ ?_ ?_

theorem State.resend_within {M : Part → Bool} {a0 : State} {s : State} {q : Nat} {o : Outst} (m_phs : M .phs = true) (m_pg : M .pg = true) (m_rq : M .rq = true) (m_hbm : M .hbm = true) (m_tier : M .tier = true) (m_rmo : M .rmo = true) (m_egq : M .egq = true) (m_rel : M .rel = true) (m_hif : M .hif = true) (m_pd : M .pd = true) (m_boot : M .boot = true) (m_mem : M .mem = true) (m_out : M .out = true) (hs : Within M a0 s) : Within M a0 (State.resend s q o) := by
  unfold State.resend
  try dsimp only
  repeat' first
    | with_reducible exact hs
    | with_reducible assumption
    | with_reducible exact Or.inl (by assumption)
    | with_reducible exact Or.inr rfl
    | with_reducible exact Or.inl rfl
    | with_reducible exact Or.inr ⟨by assumption, Nat.le_add_right _ _⟩
    | with_reducible apply State.setSend_within
    | with_reducible apply State.enqueue_within
    | with_reducible apply State.msgEvent_within
    | with_reducible apply State.unqueueSeq_within
    | with_reducible apply State.ended_within
    | with_reducible apply State.closeMsg_within
    | simp only [Within.mk_iff]
    | with_reducible refine Upd.of ?_ ?_ ?_ ?_ ?_ ?_ ?_ ?_ ?_ ?_ ?_ ?_ ?_ ?_ ?_ ?_ ?_ ?_ ?_ ?_ ?_ ?_
    | with_reducible apply Within.ite
    | split

theorem State.gwResponse_within {M : Part → Bool} {a0 : State} {s : State} {r : Response} (m_lnk : M .lnk = true) (m_rmo : M .rmo = true) (m_out : M .out = true) (hs : Within M a0 s) : Within M a0 (State.gwResponse s r) := by
  unfold State.gwResponse
  try dsimp only
  repeat' first
    | with_reducible exact hs
    | with_reducible assumption
    | with_reducible exact Or.inl (by assumption)
    | with_reducible exact Or.inr rfl
    | with_reducible exact Or.inl rfl
    | with_reducible exact Or.inr ⟨by assumption, Nat.le_add_right _ _⟩
    | with_reducible apply State.emit_within
    | with_reducible apply State.putPkts_within
    | with_reducible apply State.gwPack_within
    | simp only [Within.mk_iff]
    | with_reducible refine Upd.of ?_ ?_ ?_ ?_ ?_ ?_ ?_ ?_ ?_ ?_ ?_ ?_ ?_ ?_ ?_ ?_ ?_ ?_ ?_ ?_ ?_ ?_
    | with_reducible apply Within.ite
    | split

theorem State.response_within {M : Part → Bool} {a0 : State} {s : State} {tagOk : Bool} {r : Response} (m_phs : M .phs = true) (m_pg : M .pg = true) (m_rq : M .rq = true) (m_hbm : M .hbm = true) (m_tier : M .tier = true) (m_lnk : M .lnk = true) (m_rmo : M .rmo = true) (m_egq : M .egq = true) (m_rel : M .rel = true) (m_hif : M .hif = true) (m_pd : M .pd = true) (m_boot : M .boot = true) (m_mem : M .mem = true) (m_out : M .out = true) (hs : Within M a0 s) : Within M a0 (State.response s tagOk r) := by
  unfold State.response
  try dsimp only
  repeat' first
    | with_reducible exact hs
    | with_reducible assumption
    | with_reducible exact Or.inl (by assumption)
    | with_reducible exact Or.inr rfl
    | with_reducible exact Or.inl rfl
    | with_reducible exact Or.inr ⟨by assumption, Nat.le_add_right _ _⟩
    | with_reducible apply State.count_within
    | with_reducible apply State.setQueue_within
    | with_reducible apply State.setSend_within
    | with_reducible apply State.msgEvent_within
    | with_reducible apply State.ended_within
    | with_reducible apply State.closeMsg_within
    | with_reducible apply State.resend_within
    | with_reducible apply State.gwResponse_within
    | simp only [Within.mk_iff]
    | with_reducible refine Upd.of ?_ ?_ ?_ ?_ ?_ ?_ ?_ ?_ ?_ ?_ ?_ ?_ ?_ ?_ ?_ ?_ ?_ ?_ ?_ ?_ ?_ ?_
    | with_reducible apply Within.ite
    | with_reducible apply Within.ite1
    | with_reducible apply Within.ite2
    | with_reducible apply Within.ite3
    | with_reducible apply Within.ite4
    | split


end Sys2Proof.Machine
end

