-- ==== Sys2Proof/Laws/WithinQueues.lean ====
section
/-! SUPPORT. Which parts of the state the operations of Machine/Queues.lean may move, and that they are steady. -/

set_option linter.unusedTactic false
set_option linter.unreachableTactic false

namespace Sys2Proof.Machine

theorem State.egqWrite_within {M : Part → Bool} {a0 : State} {s : State} {q : Nat} (m_egq : M .egq = true) (hs : Within M a0 s) : Within M a0 (State.egqWrite s q) := by
  unfold State.egqWrite
  try dsimp only
  repeat' first
    | with_reducible exact hs
    | with_reducible assumption
    | with_reducible exact Or.inl (by assumption)
    | with_reducible exact Or.inr rfl
    | with_reducible exact Or.inl rfl
    | with_reducible exact Or.inr ⟨by assumption, Nat.le_add_right _ _⟩
    | with_reducible apply State.setQueue_within
    | with_reducible apply State.note_within
    | simp only [Within.mk_iff]
    | with_reducible refine Upd.of ?_ ?_ ?_ ?_ ?_ ?_ ?_ ?_ ?_ ?_ ?_ ?_ ?_ ?_ ?_ ?_ ?_ ?_ ?_ ?_ ?_ ?_
    | with_reducible apply Within.ite
    | with_reducible apply Within.ite1
    | with_reducible apply Within.ite2
    | with_reducible apply Within.ite3
    | with_reducible apply Within.ite4
    | split

theorem State.egqRead_within {M : Part → Bool} {a0 : State} {s : State} {q : Nat} (m_egq : M .egq = true) (hs : Within M a0 s) : Within M a0 (State.egqRead s q) := by
  unfold State.egqRead
  try dsimp only
  repeat' first
    | with_reducible exact hs
    | with_reducible assumption
    | with_reducible exact Or.inl (by assumption)
    | with_reducible exact Or.inr rfl
    | with_reducible exact Or.inl rfl
    | with_reducible exact Or.inr ⟨by assumption, Nat.le_add_right _ _⟩
    | simp only [Within.mk_iff]
    | with_reducible refine Upd.of ?_ ?_ ?_ ?_ ?_ ?_ ?_ ?_ ?_ ?_ ?_ ?_ ?_ ?_ ?_ ?_ ?_ ?_ ?_ ?_ ?_ ?_

theorem State.dropHead_within {M : Part → Bool} {a0 : State} {s : State} {q : Nat} (m_phs : M .phs = true) (m_pg : M .pg = true) (m_rq : M .rq = true) (m_hbm : M .hbm = true) (m_tier : M .tier = true) (m_rmo : M .rmo = true) (m_egq : M .egq = true) (m_rel : M .rel = true) (m_hif : M .hif = true) (m_pd : M .pd = true) (m_boot : M .boot = true) (m_mem : M .mem = true) (m_out : M .out = true) (hs : Within M a0 s) : Within M a0 (State.dropHead s q) := by
  unfold State.dropHead
  try dsimp only
  repeat' first
    | with_reducible exact hs
    | with_reducible assumption
    | with_reducible exact Or.inl (by assumption)
    | with_reducible exact Or.inr rfl
    | with_reducible exact Or.inl rfl
    | with_reducible exact Or.inr ⟨by assumption, Nat.le_add_right _ _⟩
    | with_reducible apply State.count_within
    | with_reducible apply State.setQueue_within
    | with_reducible apply State.refill_within
    | with_reducible apply State.ended_within
    | with_reducible apply State.closeMsg_within
    | simp only [Within.mk_iff]
    | with_reducible refine Upd.of ?_ ?_ ?_ ?_ ?_ ?_ ?_ ?_ ?_ ?_ ?_ ?_ ?_ ?_ ?_ ?_ ?_ ?_ ?_ ?_ ?_ ?_
    | with_reducible apply Within.ite
    | with_reducible apply Within.ite1
    | with_reducible apply Within.ite2
    | with_reducible apply Within.ite3
    | with_reducible apply Within.ite4
    | split

theorem State.dropUnsendable_within {M : Part → Bool} {a0 : State} {s : State} (m_phs : M .phs = true) (m_pg : M .pg = true) (m_rq : M .rq = true) (m_hbm : M .hbm = true) (m_tier : M .tier = true) (m_rmo : M .rmo = true) (m_egq : M .egq = true) (m_rel : M .rel = true) (m_hif : M .hif = true) (m_pd : M .pd = true) (m_boot : M .boot = true) (m_mem : M .mem = true) (m_out : M .out = true) (hs : Within M a0 s) : Within M a0 (State.dropUnsendable s) := by
  unfold State.dropUnsendable
  try dsimp only
  repeat' first
    | with_reducible exact hs
    | with_reducible assumption
    | with_reducible exact Or.inl (by assumption)
    | with_reducible exact Or.inr rfl
    | with_reducible exact Or.inl rfl
    | with_reducible exact Or.inr ⟨by assumption, Nat.le_add_right _ _⟩
    | with_reducible apply State.dropHead_within
    | with_reducible refine Within.foldl ?_ (fun _ _ hs => ?_)
    | with_reducible refine Within.foldl1 ?_ (fun _ _ hs => ?_)
    | with_reducible refine Within.foldl2 ?_ (fun _ _ hs => ?_)

theorem State.openMsg_within {M : Part → Bool} {a0 : State} {s : State} {q : Nat} {m : Msg} (m_hbm : M .hbm = true) (m_rmo : M .rmo = true) (m_pd : M .pd = true) (m_boot : M .boot = true) (m_mem : M .mem = true) (m_out : M .out = true) (hs : Within M a0 s) : Within M a0 (State.openMsg s q m).2 := by
  unfold State.openMsg
  try dsimp only
  repeat' first
    | with_reducible exact hs
    | with_reducible assumption
    | with_reducible exact Or.inl (by assumption)
    | with_reducible exact Or.inr rfl
    | with_reducible exact Or.inl rfl
    | with_reducible exact Or.inr ⟨by assumption, Nat.le_add_right _ _⟩
    | with_reducible apply State.count_within
    | with_reducible apply State.event_within
    | with_reducible apply State.setSend_within
    | simp only [Within.mk_iff]
    | with_reducible refine Upd.of ?_ ?_ ?_ ?_ ?_ ?_ ?_ ?_ ?_ ?_ ?_ ?_ ?_ ?_ ?_ ?_ ?_ ?_ ?_ ?_ ?_ ?_
    | with_reducible apply Within.ite2
    | with_reducible apply Within.ite
    | with_reducible apply Within.ite1
    | with_reducible apply Within.ite3
    | with_reducible apply Within.ite4
    | split

theorem State.startPacket_within {M : Part → Bool} {a0 : State} {s : State} {port vl q : Nat} {m : Msg} (m_hbm : M .hbm = true) (m_lnk : M .lnk = true) (m_rmo : M .rmo = true) (m_egq : M .egq = true) (m_pd : M .pd = true) (m_boot : M .boot = true) (m_mem : M .mem = true) (m_out : M .out = true) (hs : Within M a0 s) : Within M a0 (State.startPacket s port vl q m) := by
  unfold State.startPacket
  try dsimp only
  repeat' first
    | with_reducible exact hs
    | with_reducible assumption
    | with_reducible exact Or.inl (by assumption)
    | with_reducible exact Or.inr rfl
    | with_reducible exact Or.inl rfl
    | with_reducible exact Or.inr ⟨by assumption, Nat.le_add_right _ _⟩
    | with_reducible apply State.emit_within
    | with_reducible apply State.countC_within
    | with_reducible apply State.setQueue_within
    | with_reducible apply State.setSend_within
    | with_reducible apply State.note_within
    | with_reducible apply State.refill_within
    | with_reducible apply State.sendPacket_within
    | with_reducible apply State.openMsg_within
    | simp only [Within.mk_iff]
    | with_reducible refine Upd.of ?_ ?_ ?_ ?_ ?_ ?_ ?_ ?_ ?_ ?_ ?_ ?_ ?_ ?_ ?_ ?_ ?_ ?_ ?_ ?_ ?_ ?_
    | with_reducible apply Within.ite
    | with_reducible apply Within.ite1
    | with_reducible apply Within.ite2
    | with_reducible apply Within.ite3
    | with_reducible apply Within.ite4
    | split

theorem State.startPkt_within {M : Part → Bool} {a0 : State} {s : State} {port : Nat} {k : LinkPkt} (m_lnk : M .lnk = true) (m_egq : M .egq = true) (m_pd : M .pd = true) (m_out : M .out = true) (hs : Within M a0 s) : Within M a0 (State.startPkt s port k) := by
  unfold State.startPkt
  try dsimp only
  repeat' first
    | with_reducible exact hs
    | with_reducible assumption
    | with_reducible exact Or.inl (by assumption)
    | with_reducible exact Or.inr rfl
    | with_reducible exact Or.inl rfl
    | with_reducible exact Or.inr ⟨by assumption, Nat.le_add_right _ _⟩
    | with_reducible apply State.sendPacket_within
    | simp only [Within.mk_iff]
    | with_reducible refine Upd.of ?_ ?_ ?_ ?_ ?_ ?_ ?_ ?_ ?_ ?_ ?_ ?_ ?_ ?_ ?_ ?_ ?_ ?_ ?_ ?_ ?_ ?_
    | with_reducible apply Within.ite
    | split

theorem State.startMgmt_within {M : Part → Bool} {a0 : State} {s : State} {port : Nat} (m_lnk : M .lnk = true) (m_egq : M .egq = true) (m_pd : M .pd = true) (m_out : M .out = true) (hs : Within M a0 s) : Within M a0 (State.startMgmt s port) := by
  unfold State.startMgmt
  try dsimp only
  repeat' first
    | with_reducible exact hs
    | with_reducible assumption
    | with_reducible exact Or.inl (by assumption)
    | with_reducible exact Or.inr rfl
    | with_reducible exact Or.inl rfl
    | with_reducible exact Or.inr ⟨by assumption, Nat.le_add_right _ _⟩
    | with_reducible apply State.mgmtLeaves_within
    | with_reducible apply State.sendPacket_within
    | split

theorem State.queueDatagram_within {M : Part → Bool} {a0 : State} {s : State} {group vl : Nat} {pkts : List Segment} (m_rmo : M .rmo = true) (m_egq : M .egq = true) (hs : Within M a0 s) : Within M a0 (State.queueDatagram s group vl pkts) := by
  unfold State.queueDatagram
  try dsimp only
  repeat' first
    | with_reducible exact hs
    | with_reducible assumption
    | with_reducible exact Or.inl (by assumption)
    | with_reducible exact Or.inr rfl
    | with_reducible exact Or.inl rfl
    | with_reducible exact Or.inr ⟨by assumption, Nat.le_add_right _ _⟩
    | with_reducible apply State.enqueue_within
    | simp only [Within.mk_iff]
    | with_reducible refine Upd.of ?_ ?_ ?_ ?_ ?_ ?_ ?_ ?_ ?_ ?_ ?_ ?_ ?_ ?_ ?_ ?_ ?_ ?_ ?_ ?_ ?_ ?_
    | with_reducible refine Within.foldl ?_ (fun _ _ hs => ?_)
    | with_reducible refine Within.foldl1 ?_ (fun _ _ hs => ?_)
    | with_reducible refine Within.foldl2 ?_ (fun _ _ hs => ?_)

theorem State.startDatagram_within {M : Part → Bool} {a0 : State} {s : State} {port q : Nat} {d : GwDgram} (m_rmo : M .rmo = true) (m_egq : M .egq = true) (m_pd : M .pd = true) (m_out : M .out = true) (hs : Within M a0 s) : Within M a0 (State.startDatagram s port q d) := by
  unfold State.startDatagram
  try dsimp only
  repeat' first
    | with_reducible exact hs
    | with_reducible assumption
    | with_reducible exact Or.inl (by assumption)
    | with_reducible exact Or.inr rfl
    | with_reducible exact Or.inl rfl
    | with_reducible exact Or.inr ⟨by assumption, Nat.le_add_right _ _⟩
    | with_reducible apply State.emit_within
    | with_reducible apply State.countC_within
    | with_reducible apply State.setQueue_within
    | with_reducible apply State.note_within
    | with_reducible apply State.refill_within
    | simp only [Within.mk_iff]
    | with_reducible refine Upd.of ?_ ?_ ?_ ?_ ?_ ?_ ?_ ?_ ?_ ?_ ?_ ?_ ?_ ?_ ?_ ?_ ?_ ?_ ?_ ?_ ?_ ?_
    | with_reducible apply Within.ite
    | split

theorem State.startGateway_within {M : Part → Bool} {a0 : State} {s : State} {port vl : Nat} (m_rmo : M .rmo = true) (m_egq : M .egq = true) (m_pd : M .pd = true) (m_out : M .out = true) (hs : Within M a0 s) : Within M a0 (State.startGateway s port vl) := by
  unfold State.startGateway
  try dsimp only
  repeat' first
    | with_reducible exact hs
    | with_reducible assumption
    | with_reducible exact Or.inl (by assumption)
    | with_reducible exact Or.inr rfl
    | with_reducible exact Or.inl rfl
    | with_reducible exact Or.inr ⟨by assumption, Nat.le_add_right _ _⟩
    | with_reducible apply State.count_within
    | with_reducible apply State.noteAll_within
    | with_reducible apply State.startDatagram_within
    | with_reducible apply Within.ite
    | with_reducible apply Within.ite1
    | with_reducible apply Within.ite2
    | with_reducible apply Within.ite3
    | with_reducible apply Within.ite4
    | split

theorem State.dmaIssue_within {M : Part → Bool} {a0 : State} {s : State} {ch : Nat} (m_egq : M .egq = true) (hs : Within M a0 s) : Within M a0 (State.dmaIssue s ch) := by
  unfold State.dmaIssue
  try dsimp only
  repeat' first
    | with_reducible exact hs
    | with_reducible assumption
    | with_reducible exact Or.inl (by assumption)
    | with_reducible exact Or.inr rfl
    | with_reducible exact Or.inl rfl
    | with_reducible exact Or.inr ⟨by assumption, Nat.le_add_right _ _⟩
    | with_reducible apply State.count_within
    | with_reducible apply State.enqueue_within
    | with_reducible apply State.setDma_within
    | simp only [Within.mk_iff]
    | with_reducible refine Upd.of ?_ ?_ ?_ ?_ ?_ ?_ ?_ ?_ ?_ ?_ ?_ ?_ ?_ ?_ ?_ ?_ ?_ ?_ ?_ ?_ ?_ ?_
    | with_reducible apply Within.ite
    | with_reducible refine Within.foldl ?_ (fun _ _ hs => ?_)
    | with_reducible refine Within.foldl1 ?_ (fun _ _ hs => ?_)
    | with_reducible refine Within.foldl2 ?_ (fun _ _ hs => ?_)
    | split

theorem State.dmaIrq_within {M : Part → Bool} {a0 : State} {s : State} {ch : Nat} (m_out : M .out = true) (hs : Within M a0 s) : Within M a0 (State.dmaIrq s ch) := by
  unfold State.dmaIrq
  try dsimp only
  repeat' first
    | with_reducible exact hs
    | with_reducible assumption
    | with_reducible exact Or.inl (by assumption)
    | with_reducible exact Or.inr rfl
    | with_reducible exact Or.inl rfl
    | with_reducible exact Or.inr ⟨by assumption, Nat.le_add_right _ _⟩
    | with_reducible apply State.emit_within
    | with_reducible apply Within.ite
    | with_reducible apply Within.ite1
    | with_reducible apply Within.ite2
    | with_reducible apply Within.ite3
    | with_reducible apply Within.ite4
    | split

theorem State.dmaCount_within {M : Part → Bool} {a0 : State} {s : State} {ch sub : Nat} (m_pd : M .pd = true) (hs : Within M a0 s) : Within M a0 (State.dmaCount s ch sub) := by
  unfold State.dmaCount
  try dsimp only
  repeat' first
    | with_reducible exact hs
    | with_reducible assumption
    | with_reducible exact Or.inl (by assumption)
    | with_reducible exact Or.inr rfl
    | with_reducible exact Or.inl rfl
    | with_reducible exact Or.inr ⟨by assumption, Nat.le_add_right _ _⟩
    | with_reducible apply State.count_within
    | with_reducible apply State.countC_within
    | with_reducible apply Within.ite
    | split

theorem State.dmaStart_within {M : Part → Bool} {a0 : State} {s : State} {ch : Nat} (m_egq : M .egq = true) (m_pd : M .pd = true) (m_out : M .out = true) (hs : Within M a0 s) : Within M a0 (State.dmaStart s ch).2 := by
  unfold State.dmaStart
  try dsimp only
  repeat' first
    | with_reducible exact hs
    | with_reducible assumption
    | with_reducible exact Or.inl (by assumption)
    | with_reducible exact Or.inr rfl
    | with_reducible exact Or.inl rfl
    | with_reducible exact Or.inr ⟨by assumption, Nat.le_add_right _ _⟩
    | with_reducible apply State.count_within
    | with_reducible apply State.setDma_within
    | with_reducible apply State.dmaIssue_within
    | with_reducible apply State.dmaIrq_within
    | with_reducible apply State.dmaCount_within
    | simp only [Within.mk_iff]
    | with_reducible refine Upd.of ?_ ?_ ?_ ?_ ?_ ?_ ?_ ?_ ?_ ?_ ?_ ?_ ?_ ?_ ?_ ?_ ?_ ?_ ?_ ?_ ?_ ?_
    | with_reducible apply Within.ite2
    | with_reducible apply Within.ite
    | with_reducible apply Within.ite1
    | with_reducible apply Within.ite3
    | with_reducible apply Within.ite4
    | split

theorem State.dmaFire_within {M : Part → Bool} {a0 : State} {s : State} {ch : Nat} (m_egq : M .egq = true) (m_pd : M .pd = true) (m_out : M .out = true) (hs : Within M a0 s) : Within M a0 (State.dmaFire s ch).2 := by
  unfold State.dmaFire
  try dsimp only
  repeat' first
    | with_reducible exact hs
    | with_reducible assumption
    | with_reducible exact Or.inl (by assumption)
    | with_reducible exact Or.inr rfl
    | with_reducible exact Or.inl rfl
    | with_reducible exact Or.inr ⟨by assumption, Nat.le_add_right _ _⟩
    | with_reducible apply State.setDma_within
    | with_reducible apply State.dmaStart_within
    | simp only [Within.mk_iff]
    | with_reducible refine Upd.of ?_ ?_ ?_ ?_ ?_ ?_ ?_ ?_ ?_ ?_ ?_ ?_ ?_ ?_ ?_ ?_ ?_ ?_ ?_ ?_ ?_ ?_
    | with_reducible apply Within.ite2
    | with_reducible apply Within.ite
    | split

theorem State.dmaChain_within {M : Part → Bool} {a0 : State} {s : State} {x0 : Nat} {x1 : List Nat} (m_egq : M .egq = true) (m_pd : M .pd = true) (m_out : M .out = true) (hs : Within M a0 s) : Within M a0 (State.dmaChain s x0 x1) := by
  induction x0 generalizing s x1 with
  | zero => exact hs
  | succ n ih =>
    cases x1 with
    | nil => exact hs
    | cons c l =>
      unfold State.dmaChain
      dsimp only
      apply ih <;> try assumption
      refine Within.foldl1 hs fun _ _ h => ?_
      apply State.dmaFire_within <;> assumption

theorem State.dmaGo_within {M : Part → Bool} {a0 : State} {s : State} {ch : Nat} (m_egq : M .egq = true) (m_pd : M .pd = true) (m_out : M .out = true) (hs : Within M a0 s) : Within M a0 (State.dmaGo s ch) := by
  unfold State.dmaGo
  try dsimp only
  repeat' first
    | with_reducible exact hs
    | with_reducible assumption
    | with_reducible exact Or.inl (by assumption)
    | with_reducible exact Or.inr rfl
    | with_reducible exact Or.inl rfl
    | with_reducible exact Or.inr ⟨by assumption, Nat.le_add_right _ _⟩
    | with_reducible apply State.dmaStart_within
    | with_reducible apply State.dmaChain_within
    | with_reducible apply Within.ite
    | with_reducible apply Within.ite1
    | with_reducible apply Within.ite2
    | with_reducible apply Within.ite3
    | with_reducible apply Within.ite4
    | split

theorem State.dmaArm_within {M : Part → Bool} {a0 : State} {s : State} {ch : Nat} (m_egq : M .egq = true) (m_pd : M .pd = true) (m_out : M .out = true) (hs : Within M a0 s) : Within M a0 (State.dmaArm s ch) := by
  unfold State.dmaArm
  try dsimp only
  repeat' first
    | with_reducible exact hs
    | with_reducible assumption
    | with_reducible exact Or.inl (by assumption)
    | with_reducible exact Or.inr rfl
    | with_reducible exact Or.inl rfl
    | with_reducible exact Or.inr ⟨by assumption, Nat.le_add_right _ _⟩
    | with_reducible apply State.setDma_within
    | with_reducible apply State.dmaGo_within
    | simp only [Within.mk_iff]
    | with_reducible refine Upd.of ?_ ?_ ?_ ?_ ?_ ?_ ?_ ?_ ?_ ?_ ?_ ?_ ?_ ?_ ?_ ?_ ?_ ?_ ?_ ?_ ?_ ?_
    | with_reducible apply Within.ite
    | split

theorem State.dmaAbort_within {M : Part → Bool} {a0 : State} {s : State} {ch : Nat} (m_egq : M .egq = true) (hs : Within M a0 s) : Within M a0 (State.dmaAbort s ch) := by
  unfold State.dmaAbort
  try dsimp only
  repeat' first
    | with_reducible exact hs
    | with_reducible assumption
    | with_reducible exact Or.inl (by assumption)
    | with_reducible exact Or.inr rfl
    | with_reducible exact Or.inl rfl
    | with_reducible exact Or.inr ⟨by assumption, Nat.le_add_right _ _⟩
    | with_reducible apply State.unqueue_within
    | with_reducible apply State.setDma_within
    | simp only [Within.mk_iff]
    | with_reducible refine Upd.of ?_ ?_ ?_ ?_ ?_ ?_ ?_ ?_ ?_ ?_ ?_ ?_ ?_ ?_ ?_ ?_ ?_ ?_ ?_ ?_ ?_ ?_
    | with_reducible apply Within.ite
    | split

theorem State.dmaResume_within {M : Part → Bool} {a0 : State} {s : State} {ch : Nat} (m_egq : M .egq = true) (hs : Within M a0 s) : Within M a0 (State.dmaResume s ch) := by
  unfold State.dmaResume
  try dsimp only
  repeat' first
    | with_reducible exact hs
    | with_reducible assumption
    | with_reducible exact Or.inl (by assumption)
    | with_reducible exact Or.inr rfl
    | with_reducible exact Or.inl rfl
    | with_reducible exact Or.inr ⟨by assumption, Nat.le_add_right _ _⟩
    | with_reducible apply State.setDma_within
    | with_reducible apply State.dmaIssue_within
    | simp only [Within.mk_iff]
    | with_reducible refine Upd.of ?_ ?_ ?_ ?_ ?_ ?_ ?_ ?_ ?_ ?_ ?_ ?_ ?_ ?_ ?_ ?_ ?_ ?_ ?_ ?_ ?_ ?_
    | with_reducible apply Within.ite
    | split

theorem State.dmaCtl_within {M : Part → Bool} {a0 : State} {s : State} {ch v : Nat} (m_egq : M .egq = true) (m_pd : M .pd = true) (m_out : M .out = true) (hs : Within M a0 s) : Within M a0 (State.dmaCtl s ch v) := by
  unfold State.dmaCtl
  try dsimp only
  repeat' first
    | with_reducible exact hs
    | with_reducible assumption
    | with_reducible exact Or.inl (by assumption)
    | with_reducible exact Or.inr rfl
    | with_reducible exact Or.inl rfl
    | with_reducible exact Or.inr ⟨by assumption, Nat.le_add_right _ _⟩
    | with_reducible apply State.setDma_within
    | with_reducible apply State.dmaGo_within
    | with_reducible apply State.dmaArm_within
    | with_reducible apply State.dmaAbort_within
    | with_reducible apply State.dmaResume_within
    | with_reducible apply Within.ite
    | split

theorem State.dmaCommand_within {M : Part → Bool} {a0 : State} {s : State} {ch fn v : Nat} (m_egq : M .egq = true) (m_pd : M .pd = true) (m_out : M .out = true) (hs : Within M a0 s) : Within M a0 (State.dmaCommand s ch fn v) := by
  unfold State.dmaCommand
  try dsimp only
  repeat' first
    | with_reducible exact hs
    | with_reducible assumption
    | with_reducible exact Or.inl (by assumption)
    | with_reducible exact Or.inr rfl
    | with_reducible exact Or.inl rfl
    | with_reducible exact Or.inr ⟨by assumption, Nat.le_add_right _ _⟩
    | with_reducible apply State.dmaCtl_within
    | with_reducible apply Within.ite
    | split

theorem State.dmaCopy_within {M : Part → Bool} {a0 : State} {s : State} {d : Dma} {upto : Nat} (m_hbm : M .hbm = true) (m_mem : M .mem = true) (hs : Within M a0 s) : Within M a0 (State.dmaCopy s d upto) := by
  unfold State.dmaCopy
  try dsimp only
  repeat' first
    | with_reducible exact hs
    | with_reducible assumption
    | with_reducible exact Or.inl (by assumption)
    | with_reducible exact Or.inr rfl
    | with_reducible exact Or.inl rfl
    | with_reducible exact Or.inr ⟨by assumption, Nat.le_add_right _ _⟩
    | with_reducible apply State.store_within
    | with_reducible apply State.store_within
    | with_reducible apply Within.ite
    | split

theorem State.dmaHaltAt_within {M : Part → Bool} {a0 : State} {s : State} {ch addr : Nat} {wr : Bool} {st : Status} {prog : Nat} (m_egq : M .egq = true) (m_pd : M .pd = true) (m_out : M .out = true) (hs : Within M a0 s) : Within M a0 (State.dmaHaltAt s ch addr wr st prog) := by
  unfold State.dmaHaltAt
  try dsimp only
  repeat' first
    | with_reducible exact hs
    | with_reducible assumption
    | with_reducible exact Or.inl (by assumption)
    | with_reducible exact Or.inr rfl
    | with_reducible exact Or.inl rfl
    | with_reducible exact Or.inr ⟨by assumption, Nat.le_add_right _ _⟩
    | with_reducible apply State.setDma_within
    | with_reducible apply State.dmaIrq_within
    | with_reducible apply State.dmaCount_within
    | simp only [Within.mk_iff]
    | with_reducible refine Upd.of ?_ ?_ ?_ ?_ ?_ ?_ ?_ ?_ ?_ ?_ ?_ ?_ ?_ ?_ ?_ ?_ ?_ ?_ ?_ ?_ ?_ ?_
    | with_reducible apply Within.ite
    | split

theorem State.dmaClearDone_within {M : Part → Bool} {a0 : State} {s : State} {ch : Nat} (m_egq : M .egq = true) (hs : Within M a0 s) : Within M a0 (State.dmaClearDone s ch) := by
  unfold State.dmaClearDone
  try dsimp only
  repeat' first
    | with_reducible exact hs
    | with_reducible assumption
    | with_reducible exact Or.inl (by assumption)
    | with_reducible exact Or.inr rfl
    | with_reducible exact Or.inl rfl
    | with_reducible exact Or.inr ⟨by assumption, Nat.le_add_right _ _⟩
    | with_reducible apply State.setDma_within
    | simp only [Within.mk_iff]
    | with_reducible refine Upd.of ?_ ?_ ?_ ?_ ?_ ?_ ?_ ?_ ?_ ?_ ?_ ?_ ?_ ?_ ?_ ?_ ?_ ?_ ?_ ?_ ?_ ?_
    | with_reducible apply Within.ite
    | split

theorem State.stopQueues_within {M : Part → Bool} {a0 : State} {s : State} {c : Nat} {st : Status} (m_phs : M .phs = true) (m_pg : M .pg = true) (m_rq : M .rq = true) (m_hbm : M .hbm = true) (m_tier : M .tier = true) (m_rmo : M .rmo = true) (m_egq : M .egq = true) (m_rel : M .rel = true) (m_hif : M .hif = true) (m_pd : M .pd = true) (m_boot : M .boot = true) (m_mem : M .mem = true) (m_out : M .out = true) (hs : Within M a0 s) : Within M a0 (State.stopQueues s c st) := by
  unfold State.stopQueues
  try dsimp only
  repeat' first
    | with_reducible exact hs
    | with_reducible assumption
    | with_reducible exact Or.inl (by assumption)
    | with_reducible exact Or.inr rfl
    | with_reducible exact Or.inl rfl
    | with_reducible exact Or.inr ⟨by assumption, Nat.le_add_right _ _⟩
    | with_reducible apply State.setQueue_within
    | with_reducible apply State.note_within
    | with_reducible apply State.refill_within
    | with_reducible apply State.ended_within
    | simp only [Within.mk_iff]
    | with_reducible refine Upd.of ?_ ?_ ?_ ?_ ?_ ?_ ?_ ?_ ?_ ?_ ?_ ?_ ?_ ?_ ?_ ?_ ?_ ?_ ?_ ?_ ?_ ?_
    | with_reducible refine Within.foldl ?_ (fun _ _ hs => ?_)
    | with_reducible refine Within.foldl1 ?_ (fun _ _ hs => ?_)
    | with_reducible refine Within.foldl2 ?_ (fun _ _ hs => ?_)
    | split

theorem State.stopDma_within {M : Part → Bool} {a0 : State} {s : State} {c : Nat} {st : Status} (m_egq : M .egq = true) (m_pd : M .pd = true) (m_out : M .out = true) (hs : Within M a0 s) : Within M a0 (State.stopDma s c st) := by
  unfold State.stopDma
  try dsimp only
  repeat' first
    | with_reducible exact hs
    | with_reducible assumption
    | with_reducible exact Or.inl (by assumption)
    | with_reducible exact Or.inr rfl
    | with_reducible exact Or.inl rfl
    | with_reducible exact Or.inr ⟨by assumption, Nat.le_add_right _ _⟩
    | with_reducible apply State.setDma_within
    | with_reducible apply State.dmaHaltAt_within
    | simp only [Within.mk_iff]
    | with_reducible refine Upd.of ?_ ?_ ?_ ?_ ?_ ?_ ?_ ?_ ?_ ?_ ?_ ?_ ?_ ?_ ?_ ?_ ?_ ?_ ?_ ?_ ?_ ?_
    | with_reducible apply Within.ite
    | with_reducible apply Within.ite1
    | with_reducible apply Within.ite2
    | with_reducible apply Within.ite3
    | with_reducible apply Within.ite4
    | with_reducible refine Within.foldl ?_ (fun _ _ hs => ?_)
    | with_reducible refine Within.foldl1 ?_ (fun _ _ hs => ?_)
    | with_reducible refine Within.foldl2 ?_ (fun _ _ hs => ?_)
    | split


end Sys2Proof.Machine
end

