-- ==== Sys2Proof/Laws/WithinQuanta.lean ====
section
/-! SUPPORT. Which parts of the state the operations of Machine/Quanta.lean may move, and that they are steady. -/

set_option linter.unusedTactic false
set_option linter.unreachableTactic false

namespace Sys2Proof.Machine

theorem State.quantum_within {M : Part → Bool} {a0 : State} {s : State} {c : Nat} {x0 : Quantum} (m_phs : M .phs = true) (m_sch : M .sch = true) (m_pg : M .pg = true) (m_rq : M .rq = true) (m_hbm : M .hbm = true) (m_tier : M .tier = true) (m_rmo : M .rmo = true) (m_egq : M .egq = true) (m_cmp : M .cmp = true) (m_rel : M .rel = true) (m_hif : M .hif = true) (m_pd : M .pd = true) (m_boot : M .boot = true) (m_mem : M .mem = true) (m_out : M .out = true) (m_free : M .free = true) (hs : Within M a0 s) : Within M a0 (State.quantum s c x0) := by
  unfold State.quantum
  try dsimp only
  repeat' first
    | with_reducible exact hs
    | with_reducible assumption
    | with_reducible exact Or.inl (by assumption)
    | with_reducible exact Or.inr rfl
    | with_reducible exact Or.inl rfl
    | with_reducible exact Or.inr ⟨by assumption, Nat.le_add_right _ _⟩
    | with_reducible apply State.dispatchAttend_within
    | with_reducible apply State.continueSec_within
    | with_reducible apply State.dispatchSearch_within
    | with_reducible apply State.continueSearch_within
    | with_reducible apply State.demote_within
    | with_reducible apply State.promote_within
    | with_reducible apply State.reclaim_within
    | with_reducible apply State.relocate_within
    | with_reducible apply State.startPiece_within
    | with_reducible apply State.tampGo_within
    | with_reducible apply State.tampFold_within
    | with_reducible apply State.scrubBytes_within
    | with_reducible apply State.reseal_within
    | with_reducible apply State.contributeLater_within
    | with_reducible apply Within.ite
    | with_reducible apply Within.ite1
    | with_reducible apply Within.ite2
    | with_reducible apply Within.ite3
    | with_reducible apply Within.ite4
    | split

theorem State.governorWait_within {M : Part → Bool} {a0 : State} {s : State} (m_hbm : M .hbm = true) (m_rmo : M .rmo = true) (m_pwr : M .pwr = true) (m_pd : M .pd = true) (m_boot : M .boot = true) (m_mem : M .mem = true) (m_out : M .out = true) (hs : Within M a0 s) : Within M a0 (State.governorWait s) := by
  unfold State.governorWait
  try dsimp only
  repeat' first
    | with_reducible exact hs
    | with_reducible assumption
    | with_reducible exact Or.inl (by assumption)
    | with_reducible exact Or.inr rfl
    | with_reducible exact Or.inl rfl
    | with_reducible exact Or.inr ⟨by assumption, Nat.le_add_right _ _⟩
    | with_reducible apply State.count_within
    | with_reducible apply State.powerEvent_within
    | simp only [Within.mk_iff]
    | with_reducible refine Upd.of ?_ ?_ ?_ ?_ ?_ ?_ ?_ ?_ ?_ ?_ ?_ ?_ ?_ ?_ ?_ ?_ ?_ ?_ ?_ ?_ ?_ ?_
    | with_reducible apply Within.ite
    | split


end Sys2Proof.Machine
end

