-- ==== Sys2Proof/Laws/WithinRegs.lean ====
section
/-! SUPPORT. Which parts of the state the operations of Machine/Regs.lean may move, and that they are steady. -/

set_option linter.unusedTactic false
set_option linter.unreachableTactic false

namespace Sys2Proof.Machine

theorem State.readBox_within {M : Part → Bool} {a0 : State} {s : State} {fn n : Nat} (m_hif : M .hif = true) (hs : Within M a0 s) : Within M a0 (State.readBox s fn n) := by
  unfold State.readBox
  try dsimp only
  repeat' first
    | with_reducible exact hs
    | with_reducible assumption
    | with_reducible exact Or.inl (by assumption)
    | with_reducible exact Or.inr rfl
    | with_reducible exact Or.inl rfl
    | with_reducible exact Or.inr ⟨by assumption, Nat.le_add_right _ _⟩
    | with_reducible apply State.setVf_within
    | with_reducible apply State.setMbx_within
    | simp only [Within.mk_iff]
    | with_reducible refine Upd.of ?_ ?_ ?_ ?_ ?_ ?_ ?_ ?_ ?_ ?_ ?_ ?_ ?_ ?_ ?_ ?_ ?_ ?_ ?_ ?_ ?_ ?_
    | with_reducible apply Within.ite
    | split

theorem State.afterRead_within {M : Part → Bool} {a0 : State} {s : State} {fn : Nat} {b : RegBlock} {o : Nat} (m_clock : M .clock = true) (m_phs : M .phs = true) (m_hif : M .hif = true) (hs : Within M a0 s) : Within M a0 (State.afterRead s fn b o) := by
  unfold State.afterRead
  try dsimp only
  repeat' first
    | with_reducible exact hs
    | with_reducible assumption
    | with_reducible exact Or.inl (by assumption)
    | with_reducible exact Or.inr rfl
    | with_reducible exact Or.inl rfl
    | with_reducible exact Or.inr ⟨by assumption, Nat.le_add_right _ _⟩
    | with_reducible apply State.readNow_within
    | with_reducible apply State.readBox_within
    | with_reducible apply Within.ite
    | with_reducible apply Within.ite1
    | with_reducible apply Within.ite2
    | with_reducible apply Within.ite3
    | with_reducible apply Within.ite4
    | split

theorem State.readReg_within {M : Part → Bool} {a0 : State} {s : State} {fn off len : Nat} (m_clock : M .clock = true) (m_phs : M .phs = true) (m_hif : M .hif = true) (hs : Within M a0 s) : Within M a0 (State.readReg s fn off len).2 := by
  unfold State.readReg
  try dsimp only
  repeat' first
    | with_reducible exact hs
    | with_reducible assumption
    | with_reducible exact Or.inl (by assumption)
    | with_reducible exact Or.inr rfl
    | with_reducible exact Or.inl rfl
    | with_reducible exact Or.inr ⟨by assumption, Nat.le_add_right _ _⟩
    | with_reducible apply State.afterRead_within
    | simp only [Within.mk_iff]
    | with_reducible refine Upd.of ?_ ?_ ?_ ?_ ?_ ?_ ?_ ?_ ?_ ?_ ?_ ?_ ?_ ?_ ?_ ?_ ?_ ?_ ?_ ?_ ?_ ?_
    | with_reducible apply Within.ite2
    | with_reducible apply Within.ite
    | with_reducible apply Within.ite1
    | with_reducible apply Within.ite3
    | with_reducible apply Within.ite4
    | split


end Sys2Proof.Machine
end

