-- ==== Sys2Proof/Laws/WithinNmu.lean ====
section
/-! SUPPORT. Which parts of the state the operations of Machine/Nmu.lean may move, and that they are steady. -/

set_option linter.unusedTactic false
set_option linter.unreachableTactic false

namespace Sys2Proof.Machine

theorem State.nmuRequest_within {M : Part → Bool} {a0 : State} {s : State} {w : Nat} {q : NmuReq} (m_hbm : M .hbm = true) (m_rel : M .rel = true) (m_pd : M .pd = true) (m_mem : M .mem = true) (hs : Within M a0 s) : Within M a0 (State.nmuRequest s w q) := by
  unfold State.nmuRequest
  try dsimp only
  repeat' first
    | with_reducible exact hs
    | with_reducible assumption
    | with_reducible exact Or.inl (by assumption)
    | with_reducible exact Or.inr rfl
    | with_reducible exact Or.inl rfl
    | with_reducible exact Or.inr ⟨by assumption, Nat.le_add_right _ _⟩
    | with_reducible apply State.store_within
    | with_reducible apply State.tampTake_within
    | with_reducible apply State.nmuClaim_within
    | with_reducible apply State.store_within
    | with_reducible apply Within.ite
    | with_reducible apply Within.ite1
    | with_reducible apply Within.ite2
    | with_reducible apply Within.ite3
    | with_reducible apply Within.ite4
    | split


end Sys2Proof.Machine
end

