-- ==== Sys2Proof/Tests/Slice0.lean ====
section
/-! SUPPORT. Tests: the well-formedness checks, the decoder of the table's words, and for every statement, clause by clause, a state
and operands that meet its hypotheses together, with what the rules say of the next state there. Every expected value is one that the spec
states or that its formula gives. -/

namespace Sys2Proof.Tests

open Sys2Proof.Machine

set_option Elab.async false

/-- The next state of a command. -/
def after (c : Instr) (s : State) : State :=
  match exec c s with
  | .next t => t
  | .fault _ => s
  | .refused _ => s

/-- A node that has reached READY with its Security Core up and the searches of the directory enabled. -/
def up : State := { State.reset with
  timer := 1000000
  boot := { State.reset.boot with ready := true, stage := 5, nodeRdy := true, nodeId := 5 }
  sec := { State.reset.sec with up := true }
  phs := { State.reset.phs with en := true }
  hbm := { State.reset.hbm with adirEn := true } }

/-- A Directory value in force. -/
def withPd (s : State) (index sub : Nat) (bytes : List Byte) : State :=
  { s with pd := { s.pd with vals := (index, sub, bytes) :: s.pd.vals } }

/-- The descriptor of composition 1: job 77, VF 3, slice 0, queues 0 to 7. -/
def desc77 : CompDesc := { exst := false, job := 77, vf := 3, slices := 1, flash := 0, qbase := 0, qcount := 8, ways := 0, link := 100 }

/-- Composition 1, active. -/
def comp77 : Comp :=
  { st := .active, desc := desc77, cause := none, keyed := true, gen := 1, noKey := false, grace := false, upd := none, oldBytes := 0
    transport := true, since := 0, busyRem := 0, next := none, packNext := none, waysNext := none, linkNext := none, nextHolder := 0 }

/-- A node with composition 1. -/
def tenant : State := { up with cmp := { up.cmp with comps := [(1, comp77)] } }

/-- An envelope of a kind for context 8, from the doorbell of VF 3. -/
def envOf (kind : Nat) : Envelope :=
  { kind, dl := false, blen := 1, tag := 11, deadline := 0, ctx := 8, rnode := 0, rwin := 0, rwgen := 0, roff := 0, foff := 0, fval := 0 }

/-- Mailbox 0 of VF 3. -/
def bell : Source := .doorbell 3 0

/-- A context operation on stream 0 of context 8. -/
def ctxOp (op arg0 arg1 arg2 arg3 : Nat) (toks : List Token) : CtxReq :=
  { env := envOf 2, op, flags := 0, count := toks.length, ctx := 8, stream := 0, arg0, arg1, arg2, arg3, toks }

/-- A token record of 16 BF16 elements for the key and the value. -/
def aToken (n : Nat) : Token := ⟨List.replicate 16 n, [], List.replicate 16 n, []⟩

/-- A BF16 stream of width 16 with tokens held. -/
def aStrm (base n commit : Nat) : Strm :=
  { dk := 16, dv := 16, latent := false, kfmt := 1, vfmt := 1, scale := 0, sink := 0, tile := 0, l1 := 0, l2 := [], l3 := [], siltAt := 0, npages := 0, pages := []
    base, toks := List.replicate n (aToken 0x3F80), commit, born := List.replicate commit 0, appseq := 4, rel := [], heat := [] }

/-- Context 8 of job 77 in composition 1, of one layer and group, with the stream. -/
def aCtx (x : Strm) : Ctx :=
  { ctx := 8, job := 77, comp := 1, layers := 1, groups := 1, retiring := false, dormant := false, seed := 3, root := 0x400, streams := [(0, x)]
    going := false, strTab := 0 }

/-- A node whose directory holds the contexts 8 and 9 and the corpus 30 of job 77 in its first bank of class 0. -/
def mapping (s : State) : State := { s with hbm := { s.hbm with banks :=
  [(0, { Bank.ofCfg 1 with entries := [(ctxKey 77 8, [0x401]), (ctxKey 77 9, [0x801]), (ctxKey 77 30, [1])] })] } }

/-- A node with context 8. -/
def holding (x : Strm) : State := mapping { tenant with pg := { tenant.pg with ctxs := [aCtx x] } }

/-- A page of BF16 tokens in frame 20 at 0x4000. -/
def aPage : Page :=
  { desc := { tier := 0, node := 5, addr := 0x400, gen := 6, clen := 9, refc := 1, valid := true, packed := false, borrowed := false, tomb := false
              spin := false, tpin := false, frame := 20 }
    grain := { sketch := 0, nmax := 0, spread := 0, tomb := false, gen := 6, page := 0, stream := 0 }
    pmap := { holder := 0, valid := false, frame := 0 } }

/-- The contents of frame 20. -/
def aFrame : Frame := { npa := 0x4000, pc := 0, gen := 6, toks := List.replicate 16 (aToken 0x3F80), raw := 1024, comp := 1, sctr := 0, bad := false }

/-- A node whose context 8 holds that page, and the line given. -/
def paged (n : Nat) : State :=
  let s := holding { aStrm 16 n n with npages := 1, pages := [aPage] }
  { s with pg := { s.pg with frames := [(20, aFrame)], nextKey := 21 } }

/-- A message that waits in a queue. -/
def aMsg : Msg :=
  { opc := 2, flag := false, vl := 0, win := 3, wgen := 1, epoch := 0, mtag := 0, addr := 0, data := List.replicate 64 1, npa := none, mlen := 64
    rdlen := 0, prod := .result 1, contract := false, deadline := 0, entered := 0, off := 0, cseq := none, kgen := 1, resends := 0 }


/-! ### Well-formedness: every operand at its largest value is accepted, and one past it is refused, check by check -/

/-- A well-formed Mark, its fields at their largest. -/
def wMark : Mark :=
  { phase := 0, mtime := 2 ^ 64 - 1, seq := 0, resid := 2 ^ 32 - 1, period := 2 ^ 16 - 1, master := 2 ^ 14 - 1, term := 0, typ := 15
    hops := 15 }

/-- A Mark is refused for each field that its place cannot hold. -/
theorem test_wf_mark :
    wMark.ok = true ∧
    ([{ wMark with mtime := 2 ^ 64 }, { wMark with resid := 2 ^ 32 }, { wMark with period := 2 ^ 16 }, { wMark with master := 2 ^ 14 }, { wMark with typ := 2 ^ 4 }, { wMark with hops := 2 ^ 4 }] : List Mark).all (fun x => !x.ok) = true := by
  decide +kernel

/-- A well-formed Envelope, its fields at their largest. -/
def wEnv : Envelope :=
  { kind := 255, dl := true, blen := 2 ^ 16 - 1, tag := 0, deadline := 0, ctx := 2 ^ 32 - 1, rnode := 2 ^ 14 - 1, rwin := 2 ^ 14 - 1
    rwgen := 0, roff := 2 ^ 48 - 1, foff := 2 ^ 48 - 1, fval := 0 }

/-- A Envelope is refused for each field that its place cannot hold. -/
theorem test_wf_envelope :
    wEnv.ok = true ∧
    ([{ wEnv with kind := 2 ^ 8 }, { wEnv with blen := 2 ^ 16 }, { wEnv with ctx := 2 ^ 32 }, { wEnv with rnode := 2 ^ 14 }, { wEnv with rwin := 2 ^ 14 }, { wEnv with roff := 2 ^ 48 }, { wEnv with foff := 2 ^ 48 }] : List Envelope).all (fun x => !x.ok) = true := by
  decide +kernel

/-- A well-formed AttendHead, its fields at their largest. -/
def wHead : AttendHead :=
  { mode := 3, sieve := true, prescan := true, fb := true, nstr := 255, qfmt := 255, npos := 63, nhead := 31, split := 255
    nsplit := 255, qpos0 := 2 ^ 32 - 1, horizon := 2 ^ 32 - 1, slide := 2 ^ 32 - 1, scl := 0, budget := 2 ^ 24 - 1
    fbudget := 2 ^ 24 - 1, recent := 2 ^ 16 - 1, plo := 2 ^ 32 - 1, phi := 2 ^ 32 - 1, silt := true }

/-- A AttendHead is refused for each field that its place cannot hold. -/
theorem test_wf_attendhead :
    wHead.ok = true ∧
    ([{ wHead with mode := 2 ^ 2 }, { wHead with nstr := 2 ^ 8 }, { wHead with qfmt := 2 ^ 8 }, { wHead with npos := 2 ^ 6 }, { wHead with nhead := 2 ^ 5 }, { wHead with split := 2 ^ 8 }, { wHead with nsplit := 2 ^ 8 }, { wHead with qpos0 := 2 ^ 32 }, { wHead with horizon := 2 ^ 32 }, { wHead with slide := 2 ^ 32 }, { wHead with budget := 2 ^ 24 }, { wHead with fbudget := 2 ^ 24 }, { wHead with recent := 2 ^ 16 }, { wHead with plo := 2 ^ 32 }, { wHead with phi := 2 ^ 32 }] : List AttendHead).all (fun x => !x.ok) = true := by
  decide +kernel

/-- A well-formed QSection, its fields at their largest. -/
def wSec : QSection :=
  { stream := 2 ^ 20 - 1, dk := 2 ^ 10 - 1, rows := [[2 ^ 16 - 1]] }

/-- A QSection is refused for each field that its place cannot hold. -/
theorem test_wf_qsection :
    wSec.ok = true ∧
    ([{ wSec with stream := 2 ^ 20 }, { wSec with dk := 2 ^ 10 }, { wSec with rows := [[2 ^ 16]] }] : List QSection).all (fun x => !x.ok) = true := by
  decide +kernel

/-- A well-formed Token, its fields at their largest. -/
def wTok : Token :=
  { k := [2 ^ 16 - 1], ks := [255], v := [2 ^ 16 - 1], vs := [255] }

/-- A Token is refused for each field that its place cannot hold. -/
theorem test_wf_token :
    wTok.ok = true ∧
    ([{ wTok with k := [0, 2 ^ 16] }, { wTok with ks := [0, 2 ^ 8] }, { wTok with v := [0, 2 ^ 16] }, { wTok with vs := [0, 2 ^ 8] }] : List Token).all (fun x => !x.ok) = true := by
  decide +kernel

/-- A well-formed AttendReq, its fields at their largest. -/
def wAtt : AttendReq :=
  { env := wEnv, head := wHead, mask := [], secs := [wSec] }

/-- A AttendReq is refused for each field that its place cannot hold. -/
theorem test_wf_attendreq :
    wAtt.ok = true ∧
    ([{ wAtt with env := { wEnv with kind := 2 ^ 8 } }, { wAtt with head := { wHead with mode := 4 } }, { wAtt with secs := [{ wSec with dk := 2 ^ 10 }] }] : List AttendReq).all (fun x => !x.ok) = true := by
  decide +kernel

/-- A well-formed CtxReq, its fields at their largest. -/
def wCtx : CtxReq :=
  { env := wEnv, op := 255, flags := 255, count := 2 ^ 16 - 1, ctx := 2 ^ 32 - 1, stream := 2 ^ 20 - 1, arg0 := 2 ^ 32 - 1
    arg1 := 2 ^ 32 - 1, arg2 := 2 ^ 32 - 1, arg3 := 2 ^ 64 - 1, toks := [wTok] }

/-- A CtxReq is refused for each field that its place cannot hold. -/
theorem test_wf_ctxreq :
    wCtx.ok = true ∧
    ([{ wCtx with op := 2 ^ 8 }, { wCtx with flags := 2 ^ 8 }, { wCtx with count := 2 ^ 16 }, { wCtx with ctx := 2 ^ 32 }, { wCtx with stream := 2 ^ 20 }, { wCtx with arg0 := 2 ^ 32 }, { wCtx with arg1 := 2 ^ 32 }, { wCtx with arg2 := 2 ^ 32 }, { wCtx with arg3 := 2 ^ 64 }, { wCtx with env := { wEnv with kind := 2 ^ 8 } }, { wCtx with toks := [{ wTok with vs := [2 ^ 8] }] }] : List CtxReq).all (fun x => !x.ok) = true := by
  decide +kernel

/-- A well-formed SearchReq, its fields at their largest. -/
def wSearch : SearchReq :=
  { env := wEnv, metric := 3, qsk := true, nq := 255, qfmt := 255, k := 2 ^ 16 - 1, rr := 2 ^ 16 - 1, slo := 2 ^ 16 - 1
    shi := 2 ^ 16 - 1, hmax := 2 ^ 16 - 1, qs := [⟨[2 ^ 32 - 1], 2 ^ 1024 - 1⟩] }

/-- A SearchReq is refused for each field that its place cannot hold. -/
theorem test_wf_searchreq :
    wSearch.ok = true ∧
    ([{ wSearch with metric := 2 ^ 2 }, { wSearch with nq := 2 ^ 8 }, { wSearch with qfmt := 2 ^ 8 }, { wSearch with k := 2 ^ 16 }, { wSearch with rr := 2 ^ 16 }, { wSearch with slo := 2 ^ 16 }, { wSearch with shi := 2 ^ 16 }, { wSearch with hmax := 2 ^ 16 }, { wSearch with env := { wEnv with kind := 2 ^ 8 } }, { wSearch with qs := [⟨[2 ^ 32], 0⟩] }, { wSearch with qs := [⟨[], 2 ^ 1024⟩] }] : List SearchReq).all (fun x => !x.ok) = true := by
  decide +kernel

/-- A well-formed SegSpec, its fields at their largest. -/
def wSeg : SegSpec :=
  { cap := 2 ^ 24 - 1, tier := 3, ways := 255 }

/-- A SegSpec is refused for each field that its place cannot hold. -/
theorem test_wf_segspec :
    wSeg.ok = true ∧
    ([{ wSeg with cap := 2 ^ 24 }, { wSeg with tier := 2 ^ 2 }, { wSeg with ways := 2 ^ 8 }] : List SegSpec).all (fun x => !x.ok) = true := by
  decide +kernel

/-- A well-formed Rec, its fields at their largest. -/
def wRec : Rec :=
  { id := 2 ^ 64 - 1, vec := [2 ^ 32 - 1] }

/-- A Rec is refused for each field that its place cannot hold. -/
theorem test_wf_rec :
    wRec.ok = true ∧
    ([{ wRec with id := 2 ^ 64 }, { wRec with vec := [0, 2 ^ 32] }] : List Rec).all (fun x => !x.ok) = true := by
  decide +kernel

/-- A well-formed Hint, its fields at their largest. -/
def wHint : Hint :=
  { op := 255, ctx := 2 ^ 32 - 1, stream := 2 ^ 20 - 1, all := true, first := 2 ^ 32 - 1, count := 2 ^ 32 - 1, ready := 0 }

/-- A Hint is refused for each field that its place cannot hold. -/
theorem test_wf_hint :
    wHint.ok = true ∧
    ([{ wHint with op := 2 ^ 8 }, { wHint with ctx := 2 ^ 32 }, { wHint with stream := 2 ^ 20 }, { wHint with first := 2 ^ 32 }, { wHint with count := 2 ^ 32 }] : List Hint).all (fun x => !x.ok) = true := by
  decide +kernel

/-- A well-formed ArbReq, its fields at their largest. -/
def wArb : ArbReq :=
  { port := 51, r := 0, d := none, npa := 2 ^ 52 - 1, wr := none, len := 0 }

/-- A ArbReq is refused for each field that its place cannot hold. -/
theorem test_wf_arbreq :
    wArb.ok = true ∧
    ([{ wArb with npa := 2 ^ 52 }, { wArb with port := 52 }] : List ArbReq).all (fun x => !x.ok) = true := by
  decide +kernel

/-- A well-formed Flit, its fields at their largest. -/
def wFlit : Flit :=
  { fseq := 0, ft := 15, vl := 7, som := true, eom := true, blen := 15, dest := 2 ^ 14 - 1, src := 2 ^ 14 - 1, plen := 63, body := [0] }

/-- A Flit is refused for each field that its place cannot hold. -/
theorem test_wf_flit :
    wFlit.ok = true ∧
    ([{ wFlit with ft := 2 ^ 4 }, { wFlit with vl := 2 ^ 3 }, { wFlit with blen := 2 ^ 4 }, { wFlit with dest := 2 ^ 14 }, { wFlit with src := 2 ^ 14 }, { wFlit with plen := 2 ^ 6 }, { wFlit with body := List.replicate 241 0 }] : List Flit).all (fun x => !x.ok) = true := by
  decide +kernel

/-- A well-formed CtlFlit, its fields at their largest. -/
def wCtl : CtlFlit :=
  { ackseq := 0, nak := true, fallow := true, drained := true, cred := List.replicate 8 0, recs := [] }

/-- A CtlFlit is refused for each field that its place cannot hold. -/
theorem test_wf_ctlflit :
    wCtl.ok = true ∧
    ([{ wCtl with cred := List.replicate 7 0 }] : List CtlFlit).all (fun x => !x.ok) = true := by
  decide +kernel

/-- A well-formed Segment, its fields at their largest. -/
def wSegm : Segment :=
  { vl := 7, opc := 255, flag := true, ce := true, dom := true, conn := 2 ^ 13 - 1, job := 2 ^ 24 - 1, osrc := 2 ^ 14 - 1
    fdest := 2 ^ 14 - 1, rcid := 2 ^ 16 - 1, kgen := 0, cseq := 0, mlen := 2 ^ 22 - 1, off := 2 ^ 32 - 1, win := 2 ^ 14 - 1, wgen := 0
    epoch := 0, slen := 2 ^ 16 - 1, mtag := 0, addr := 2 ^ 48 - 1, data := [0] }

/-- A Segment is refused for each field that its place cannot hold. -/
theorem test_wf_segment :
    wSegm.ok = true ∧
    ([{ wSegm with vl := 2 ^ 3 }, { wSegm with opc := 2 ^ 8 }, { wSegm with conn := 2 ^ 13 }, { wSegm with job := 2 ^ 24 }, { wSegm with osrc := 2 ^ 14 }, { wSegm with fdest := 2 ^ 14 }, { wSegm with rcid := 2 ^ 16 }, { wSegm with mlen := 2 ^ 22 }, { wSegm with off := 2 ^ 32 }, { wSegm with win := 2 ^ 14 }, { wSegm with slen := 2 ^ 16 }, { wSegm with addr := 2 ^ 48 }, { wSegm with data := List.replicate 7617 0 }] : List Segment).all (fun x => !x.ok) = true := by
  decide +kernel

/-- A well-formed Response, its fields at their largest. -/
def wResp : Response :=
  { osrc := 2 ^ 14 - 1, fdest := 2 ^ 14 - 1, rcid := 2 ^ 16 - 1, conn := 2 ^ 13 - 1, cseq := 0, status := .ok
    hint := some (2 ^ 14 - 1), ce := true, data := [] }

/-- A Response is refused for each field that its place cannot hold. -/
theorem test_wf_response :
    wResp.ok = true ∧
    ([{ wResp with osrc := 2 ^ 14 }, { wResp with fdest := 2 ^ 14 }, { wResp with rcid := 2 ^ 16 }, { wResp with conn := 2 ^ 13 }, { wResp with hint := some (2 ^ 14) }, { wResp with job := 2 ^ 24 }, { wResp with win := 2 ^ 14 }] : List Response).all (fun x => !x.ok) = true := by
  decide +kernel

/-- A well-formed GwFrame, its fields at their largest. -/
def wFrame : GwFrame :=
  { iface := 1, bytes := 9216, tags := 1, ether := 2 ^ 16 - 1, options := true, fragment := true, proto := 255, sport := 2 ^ 16 - 1,
    dport := 2 ^ 16 - 1, sums := true, mine := true }

/-- A GwFrame is refused for each field that its place cannot hold. -/
theorem test_wf_gwframe :
    wFrame.ok = true ∧
    ([{ wFrame with iface := 2 }, { wFrame with ether := 2 ^ 16 }, { wFrame with proto := 2 ^ 8 }, { wFrame with sport := 2 ^ 16 }, { wFrame with dport := 2 ^ 16 }] : List GwFrame).all (fun x => !x.ok) = true := by
  decide +kernel

/-- A well-formed GwDatagram, its fields at their largest. -/
def wGram : GwDatagram :=
  { ver := 15, vl := 7, src := 2 ^ 14 - 1, dst := 2 ^ 14 - 1, gseq := 0, pkts := [wSegm], mark := none }

/-- A GwDatagram is refused for each field that its place cannot hold. -/
theorem test_wf_gwdatagram :
    wGram.ok = true ∧
    ([{ wGram with ver := 2 ^ 4 }, { wGram with vl := 2 ^ 3 }, { wGram with src := 2 ^ 14 }, { wGram with dst := 2 ^ 14 }, { wGram with pkts := [{ wSegm with conn := 2 ^ 13 }] }] : List GwDatagram).all (fun x => !x.ok) = true := by
  decide +kernel

/-- A well-formed KeyBlob, its fields at their largest. -/
def wBlob : KeyBlob :=
  { typ := 255, mode := 255, gen := 0, model := 2 ^ 16 - 1, job := 2 ^ 24 - 1, comp := 15, activate := 2 ^ 64 - 1, digestOk := true
    authOk := true, ends := [2 ^ 14 - 1] }

/-- A KeyBlob is refused for each field that its place cannot hold. -/
theorem test_wf_keyblob :
    wBlob.ok = true ∧
    ([{ wBlob with typ := 2 ^ 8 }, { wBlob with mode := 2 ^ 8 }, { wBlob with model := 2 ^ 16 }, { wBlob with job := 2 ^ 24 }, { wBlob with comp := 2 ^ 4 }, { wBlob with activate := 2 ^ 64 }, { wBlob with ends := [0, 2 ^ 14] }] : List KeyBlob).all (fun x => !x.ok) = true := by
  decide +kernel

/-- A well-formed Notice, its fields at their largest. -/
def wNote : Notice :=
  { phase := 0, node := 2 ^ 14 - 1, subj := 2 ^ 14 - 1, scope := 255, comp := some (15), ring := 2 ^ 32 - 1, rank := 255 }

/-- A Notice is refused for each field that its place cannot hold. -/
theorem test_wf_notice :
    wNote.ok = true ∧
    ([{ wNote with node := 2 ^ 14 }, { wNote with subj := 2 ^ 14 }, { wNote with scope := 2 ^ 8 }, { wNote with ring := 2 ^ 32 }, { wNote with rank := 2 ^ 8 }, { wNote with comp := some (2 ^ 4) }] : List Notice).all (fun x => !x.ok) = true := by
  decide +kernel

/-- A well-formed Role, its fields at their largest. -/
def wRole : Role :=
  { phase := 0, ring := 2 ^ 32 - 1, rank := 255, lostC := 15, standC := 15, lost := 2 ^ 14 - 1, standby := 2 ^ 14 - 1 }

/-- A Role is refused for each field that its place cannot hold. -/
theorem test_wf_role :
    wRole.ok = true ∧
    ([{ wRole with ring := 2 ^ 32 }, { wRole with rank := 2 ^ 8 }, { wRole with lostC := 2 ^ 4 }, { wRole with standC := 2 ^ 4 }, { wRole with lost := 2 ^ 14 }, { wRole with standby := 2 ^ 14 }] : List Role).all (fun x => !x.ok) = true := by
  decide +kernel

/-- A well-formed RingCmd, its fields at their largest. -/
def wRing : RingCmd :=
  { rank := 255, node := 2 ^ 14 - 1, frame := 2 ^ 32 - 1, offset := 2 ^ 64 - 1, ctx := 2 ^ 32 - 1, stream := 2 ^ 20 - 1
    page := 2 ^ 32 - 1, piece := 255 }

/-- A RingCmd is refused for each field that its place cannot hold. -/
theorem test_wf_ringcmd :
    wRing.ok = true ∧
    ([{ wRing with rank := 2 ^ 8 }, { wRing with node := 2 ^ 14 }, { wRing with frame := 2 ^ 32 }, { wRing with offset := 2 ^ 64 }, { wRing with ctx := 2 ^ 32 }, { wRing with stream := 2 ^ 20 }, { wRing with page := 2 ^ 32 }, { wRing with piece := 2 ^ 8 }] : List RingCmd).all (fun x => !x.ok) = true := by
  decide +kernel

/-- A well-formed PdItem, its fields at their largest. -/
def wItem : PdItem :=
  { index := 2 ^ 16 - 1, sub := 255, iop := 7, seg := true, last := true, offset := 2 ^ 16 - 1, len := 2 ^ 16 - 1, value := [] }

/-- A PdItem is refused for each field that its place cannot hold. -/
theorem test_wf_pditem :
    wItem.ok = true ∧
    ([{ wItem with index := 2 ^ 16 }, { wItem with sub := 2 ^ 8 }, { wItem with iop := 2 ^ 3 }, { wItem with offset := 2 ^ 16 }, { wItem with len := 2 ^ 16 }] : List PdItem).all (fun x => !x.ok) = true := by
  decide +kernel

/-- A well-formed PdMsg, its fields at their largest. -/
def wMsg : PdMsg :=
  { ver := 15, dir := 255, nitem := 255, authf := true, seq := 0, kgen := 0, bytes := 0, plenOk := true, authOk := true, src := 0
    items := [wItem] }

/-- A PdMsg is refused for each field that its place cannot hold. -/
theorem test_wf_pdmsg :
    wMsg.ok = true ∧
    ([{ wMsg with ver := 2 ^ 4 }, { wMsg with dir := 2 ^ 8 }, { wMsg with nitem := 2 ^ 8 }, { wMsg with items := [{ wItem with iop := 8 }] }] : List PdMsg).all (fun x => !x.ok) = true := by
  decide +kernel

/-- A well-formed SubEntry, its fields at their largest. -/
def wEntry : SubEntry :=
  { req := 2 ^ 64 - 1, rlen := 2 ^ 32 - 1, irq := true, res := 2 ^ 64 - 1, reslen := 2 ^ 32 - 1, readOk := true }

/-- A SubEntry is refused for each field that its place cannot hold. -/
theorem test_wf_subentry :
    wEntry.ok = true ∧
    ([{ wEntry with req := 2 ^ 64 }, { wEntry with rlen := 2 ^ 32 }, { wEntry with res := 2 ^ 64 }, { wEntry with reslen := 2 ^ 32 }] : List SubEntry).all (fun x => !x.ok) = true := by
  decide +kernel

/-- What a chunk read reports of four codewords. -/
def wWords : List (Option Nat) := [none, none, none, none]

/-- A parameter page that is accepted. -/
def wPage : TargetPage := { data := 16384, spare := 1344, nvddr3 := true, luns := 4, planes := 4 }

/-- The last slot of a group on eight lanes. -/
def wPlace : FlitPlace := { slot := 19, codes := List.replicate 8 .clean }

/-- Ports, sources, functions, transports, principals. -/
theorem test_wf_small :
    (portOk 7 = true ∧ portOk 8 = false) ∧
    (fnOk 16 = true ∧ fnOk 17 = false ∧ vfOk 16 = true ∧ vfOk 0 = false ∧ vfOk 17 = false) ∧
    ((Source.fabric (2 ^ 24 - 1) 15 (2 ^ 14 - 1) 0 0).ok = true ∧ (Source.fabric (2 ^ 24) 0 0 0 0).ok = false) ∧
    ((Source.fabric 0 16 0 0 0).ok = false ∧ (Source.fabric 0 0 (2 ^ 14) 0 0).ok = false) ∧
    ((Source.doorbell 1 255).ok = true ∧ (Source.doorbell 0 0).ok = false ∧ (Source.doorbell 17 0).ok = false ∧ (Source.doorbell 1 256).ok = false) ∧
    ((Transport.vfDoe 16).ok = true ∧ (Transport.vfDoe 17).ok = false) ∧
    ((Principal.composition 15).ok = true ∧ (Principal.composition 16).ok = false) := by
  decide +kernel

/-- A fetched body is refused for each field that its place cannot hold. -/
theorem test_wf_bodies :
    ([.attend wAtt, .context wCtx, .search wSearch, .corpusDelete wEnv, .corpusCreate wEnv 255 255 (2 ^ 16 - 1) (2 ^ 64 - 1) (2 ^ 16 - 1) [wSeg], .recordAppend wEnv (2 ^ 16 - 1) (2 ^ 16 - 1) true [wRec] [2 ^ 1024 - 1], .recordDelete wEnv (2 ^ 16 - 1) (2 ^ 32 - 1) (2 ^ 32 - 1), .otherOp wEnv 255] : List ReqBody).all ReqBody.ok = true ∧
    ([.attend { wAtt with secs := [{ wSec with dk := 2 ^ 10 }] }, .context { wCtx with op := 256 }, .search { wSearch with nq := 256 }, .corpusDelete { wEnv with kind := 256 }, .corpusCreate wEnv 256 0 0 0 0 [], .corpusCreate wEnv 0 256 0 0 0 [], .corpusCreate wEnv 0 0 (2 ^ 16) 0 0 [], .corpusCreate wEnv 0 0 0 (2 ^ 64) 0 [], .corpusCreate wEnv 0 0 0 0 (2 ^ 16) [], .corpusCreate wEnv 0 0 0 0 0 [{ wSeg with tier := 4 }], .recordAppend wEnv (2 ^ 16) 0 true [] [], .recordAppend wEnv 0 (2 ^ 16) true [] [], .recordAppend wEnv 0 0 true [{ wRec with id := 2 ^ 64 }] [], .recordAppend wEnv 0 0 true [] [2 ^ 1024], .recordDelete wEnv (2 ^ 16) 0 0, .recordDelete wEnv 0 (2 ^ 32) 0, .recordDelete wEnv 0 0 (2 ^ 32), .otherOp { wEnv with kind := 256 } 0, .otherOp wEnv 256] : List ReqBody).all (fun x => !x.ok) = true := by
  decide +kernel

/-- Commands whose operands are at their largest are well formed. -/
theorem test_wf_accepts_1 :
    ([.markLayer 0 7 wMark, .markStep 0 7 wMark, .markHold 0 7 wMark, .markResume 0 7 wMark, .markSync 0 7 wMark, .masterLayerBoundary 0, .holdSyncMark 0, .layerMarkLate 0, .tickSaturation 0, .markWaitTimeout 0, .jobStart 0 0 (2 ^ 24 - 1) (2 ^ 36 - 1), .claim 0 0 (2 ^ 14 - 1) (2 ^ 24 - 1), .claimWindowExpiry 0, .hostMark 0 0, .phsNowRead 0, .stepCompleteReport 0, .barrierTimeout 0, .stepCompleteReceive 0 (2 ^ 36 - 1) (2 ^ 14 - 1) (2 ^ 16 - 1) true, .scheduleGo 0 15, .scheduleCancel 0, .scheduleValidationDone 0, .coarseningLatch 0, .slotStart 0 (2 ^ 12 - 1), .slotEnd 0 (2 ^ 12 - 1), .requestDispatch 0 0 255, .attentionComplete 0 0 255, .alphaUpdate 0 255, .bestEffortQuantumStart 0 (.scrub 0), .attendRequest 0 (.doorbell 1 255) wAtt, .ctxCreate 0 (.doorbell 1 255) wCtx, .ctxFork 0 (.doorbell 1 255) wCtx, .ctxDelete 0 (.doorbell 1 255) wCtx, .siltAppend 0 (.doorbell 1 255) wCtx, .pageMark 0 (.doorbell 1 255) wCtx, .pageRewrite 0 (.doorbell 1 255) wCtx, .appendAfterRelease 0 (2 ^ 32 - 1) (2 ^ 20 - 1), .siltMirrorAck 0 (2 ^ 32 - 1) (2 ^ 20 - 1), .siltRelease 0 (2 ^ 32 - 1) (2 ^ 20 - 1), .search 0 (.doorbell 1 255) wSearch, .searchComplete 0 0, .corpusCreate 0 (.doorbell 1 255) wEnv 0 0 0 0 0 [], .recordAppend 0 (.doorbell 1 255) wEnv 0 0 true [] [], .recordDelete 0 (.doorbell 1 255) wEnv 0 0 0, .corpusDelete 0 (.doorbell 1 255) wEnv, .corpusStorageFree 0 (2 ^ 24 - 1) (2 ^ 32 - 1), .nmuGrantRequest 0 7 31 [] ⟨.tamp 0 0 0 0, 0, none, [⟨31, 0, none, [63], .sketchScan 0 0⟩]⟩, .nmuClaimComplete 0 7 31, .nmuComputeComplete 0 7 31 [], .nmuDrainComplete 0 7 31, .nmuAbort 0 7 31 true, .hbmTransfer 0 1535 [wArb] [51] [71], .refreshSlot 0 1535, .pcaWaymaskWrite 0 3 15 0, .directoryInsert 0 7 (2 ^ 59 - 1) [], .directoryDelete 0 7 (2 ^ 59 - 1), .blockMoveComplete 0 15, .directoryThrottleSample 0 0, .adirBankcfgWrite 0 15 0, .nmuGovWrite 0 7 0, .flashChunkReadComplete 0 31 (2 ^ 26 - 1) 127 ⟨wWords, true, true⟩, .lunTimeout 0 31 7 3 ⟨true, (2 ^ 26 - 1), 127⟩, .zqCalibrationShort 0 31] : List Instr).all Instr.wf = true := by
  decide +kernel

/-- Commands whose operands are at their largest are well formed. -/
theorem test_wf_accepts_2 :
    ([.leaseEnd 0 255, .leaseRelease 0 255, .leaseForcedEnd 0 255, .weightStreamDone 0 255, .tierHintDb 0 15 0, .pin 0 15 wHint, .unpin 0 15 wHint, .prefetch 0 15 wHint, .dormant 0 15 wHint, .wake 0 15 wHint, .dormantComplete 0 (2 ^ 24 - 1) (2 ^ 32 - 1), .recallStart 0 0, .recallComplete 0 0, .moveComplete 0 0, .dataFlitReceive 0 7 wPlace (flitCrc wFlit) wFlit, .controlFlitReceive 0 7 wPlace.codes (ctlCrc wCtl) wCtl, .replayTimeout 0 7, .retrainAttemptFailed 0 7, .trainingTimeout 0 7, .fecLimit 0 7, .fallowEnter 0 7, .fallowExit 0 7, .delayReq 0 7 (2 ^ 64 - 1), .delayRsp 0 7 (2 ^ 64 - 1) (2 ^ 32 - 1), .portEnable 0 7 0, .retrain 0 7 0, .faultInjectCtlWrite 0 7 0, .faultInjectSeedWrite 0 7 0, .trainingComplete 0 7 (2 ^ 14 - 1) [7], .laneAlignmentLoss 0 7 7 true, .gatewayDatagramReceive 0 7 wFrame wGram, .gatewayDatagramSend 0 63, .gatewayResendTimeout 0 (2 ^ 13 - 1) 0, .respTimeout 0 (2 ^ 13 - 1) 0, .read 0 true wSegm, .write 0 true wSegm, .add64 0 true wSegm, .addf32 0 true wSegm, .xor 0 true wSegm, .cas64 0 true wSegm, .cas128 0 true wSegm, .cmd 0 true wSegm, .resp 0 true wResp, .readData 0 true wResp, .reassemblyTimeout 0 (2 ^ 16 - 1) 0, .flagRelease 0 (2 ^ 16 - 1) 0, .flagHoldTimeout 0 (2 ^ 16 - 1) 0, .windowInsert 0 16 (2 ^ 14 - 1), .windowRemove 0 16 (2 ^ 14 - 1), .windowOpen 0 16 (2 ^ 14 - 1), .windowRevoke 0 16 (2 ^ 14 - 1), .windowChangeInForce 0 16, .windowDrained 0 16, .connectionWrite 0 16 0, .atomicWriteback 0 (2 ^ 46 - 1), .hotLineEvict 0 (2 ^ 46 - 1), .hotLine 0 (2 ^ 46 - 1), .egqWrite 0 (2 ^ 13 - 1), .egqRead 0 (2 ^ 13 - 1), .packetStart 0 7 7, .sampleRound 0, .dmaStart 0 127 16 0] : List Instr).all Instr.wf = true := by
  decide +kernel

/-- Commands whose operands are at their largest are well formed. -/
theorem test_wf_accepts_3 :
    ([.dmaArm 0 127 16 0, .dmaResume 0 127 16 0, .dmaAbort 0 127 16, .dmaDoneClear 0 127 16, .dmaPhaseTrigger 0 127, .dmaTransferDone 0 127, .dmaHalt 0 127 true .ok (2 ^ 52 - 1) (2 ^ 41 - 1), .commit 0 (2 ^ 36 - 1), .commitValidationDone 0, .handoffBatchAck 0 .ok, .meteringPersist 0, .sliceFree 0 47, .flashChannelFree 0 31, .handoff 0 (2 ^ 32 - 1) (2 ^ 20 - 1) true (2 ^ 32 - 1) (2 ^ 32 - 1) (2 ^ 14 - 1) (2 ^ 13 - 1) true, .forceTeardown 0 15, .teardownComplete 0 15, .tenantRemoved 0 15, .scWatchdogExpiry 0, .scMemoryError 0, .getVersion 0 (.vfDoe 16) ⟨0, 0, true⟩, .getCapabilities 0 (.vfDoe 16) ⟨0, 0, true⟩, .negotiateAlgorithms 0 (.vfDoe 16) ⟨0, 0, true⟩, .getDigests 0 (.vfDoe 16) ⟨0, 0, true⟩, .keyExchange 0 (.vfDoe 16) ⟨0, 0, true⟩, .finish 0 (.vfDoe 16) ⟨0, 0, true⟩, .heartbeat 0 (.vfDoe 16) ⟨0, 0, true⟩, .spdmKeyUpdate 0 (.vfDoe 16) ⟨0, 0, true⟩, .endSession 0 (.vfDoe 16) ⟨0, 0, true⟩, .getCertificate 0 (.vfDoe 16) ⟨0, 0, true⟩ (2 ^ 16 - 1) (2 ^ 16 - 1), .challenge 0 (.vfDoe 16) ⟨0, 0, true⟩ 0, .getMeasurements 0 (.vfDoe 16) ⟨0, 0, true⟩ 255, .lifecycleSeal 0 ⟨0, 0, true⟩, .lifecycleUnseal 0 true, .keysInstall 0 true wBlob, .keysUpdate 0 true wBlob, .modelRelease 0 true wBlob, .tenantRemove 0 true wBlob, .correctedRewrite 0 (2 ^ 52 - 1), .scrubRateHour 0 23, .faultNotice 0 wNote, .peerUnreachable 0 (2 ^ 14 - 1), .roleNotice 0 wRole, .standbyReady 0 (2 ^ 32 - 1) 255, .rebuild 0 15 wRing, .sendPiece 0 15 wRing, .recontribute 0 15 wRing, .rebuildSlotComplete 0 15 0, .rebuildSlotTimeout 0 15 0, .rebuildSlotQuarantineEnd 0 15 0, .shadow 0 255 (2 ^ 14 - 1) 15 15, .load 0 255 (2 ^ 14 - 1) 15 15, .admissionSelfTestDone 0 (2 ^ 32 - 1), .shadowCompare 0 ⟨0, 0, 0, 2 ^ 36 - 1, true⟩, .maintenanceStart 0 255 (2 ^ 16 - 1) (2 ^ 64 - 1), .maintenanceStop 0 255 (2 ^ 16 - 1), .governorRiseStart 0 (2 ^ 12 - 1), .govCtlWrite 0 0, .idleFallow 0 0, .powerSample 0 (2 ^ 16 - 1) (some 65535), .thermalSample 0 (List.replicate 29 0), .pwrWarnAssert 0, .pwrWarnDeassert 0] : List Instr).all Instr.wf = true := by
  decide +kernel

/-- Commands whose operands are at their largest are well formed. -/
theorem test_wf_accepts_4 :
    ([.shedStageExit 0, .stage6End 0, .holdoverExit 0, .powerResume 0, .supplySag 0 100, .shedStageEnter 0 7, .perstNAssert 0, .hotReset 0, .perstNDeassert 0 3, .vfFlr 0 16, .doorbell 0 16 255, .submissionFetch 0 16 wEntry (.corpusDelete wEnv), .fetchTimeout 0 16 (some wEntry), .mailboxRead 0 16 255 true, .mailboxRelease 0 16 0, .hostApertureRead 0 16 (2 ^ 52 - 1) (2 ^ 13 - 1) [[71]], .hostApertureWrite 0 16 (2 ^ 52 - 1) [], .registerWrite 0 16 (2 ^ 28 - 1) 127 0, .pdMailboxGo 0 wMsg, .pdpMessage 0 (.vfDoe 16) wMsg, .pdRead 0 (.composition 15) wItem, .pdWrite 0 (.composition 15) wItem, .pdDescribe 0 (.composition 15) wItem, .pdNext 0 (.composition 15) wItem, .pdDefault 0 (.composition 15) wItem, .pdStagingTimeout 0 (2 ^ 16 - 1) 255, .configPersist 0, .arpRequest 0 (2 ^ 32 - 1), .neighbourSolicitation 0 (2 ^ 128 - 1), .echoRequest 0 (2 ^ 128 - 1) true [], .romVerifyDone 0 true true, .scStageDone 0 true true, .zeroisationDone 0, .flashBackgroundEraseDone 0, .orderlyPowerDown 0, .powerDownReady 0, .hbmTrainingDone 0 [23], .flashTrainingDone 0 [List.replicate 8 wPage] [] [], .refclkCoreLoss 0, .refclkFabLoss 0, .refclkPcieLoss 0, .testenHigh 0, .avsRequestTimeout 0, .smbAlertResponse 0, .bypass 0, .idcode 0, .samplePreload 0 0, .extest 0, .clamp 0, .highz 0, .extestPulse 0, .extestTrain 0, .privateInstruction 0 ⟨255, some ⟨2 ^ 52 - 1, 0, none⟩⟩, .pageProgramComplete 0 31 0 true, .blockEraseComplete 0 31 0 true, .powerRemoved 0, .securityCoreRestart 0, .refclkFabReturn 0, .bootStageRestart 0, .transportKeyGenerated 0, .fwupdateStaged 0] : List Instr).all Instr.wf = true := by
  decide +kernel

/-- Commands with one operand that its field cannot hold are refused. -/
theorem test_wf_refuses_1 :
    ([.markLayer 0 8 wMark, .markLayer 0 7 { wMark with hops := 16 }, .markStep 0 8 wMark, .markStep 0 7 { wMark with hops := 16 }, .markHold 0 8 wMark, .markHold 0 7 { wMark with hops := 16 }, .markResume 0 8 wMark, .markResume 0 7 { wMark with hops := 16 }, .markSync 0 8 wMark, .markSync 0 7 { wMark with hops := 16 }, .jobStart 0 0 (2 ^ 24) (2 ^ 36 - 1), .jobStart 0 0 (2 ^ 24 - 1) (2 ^ 36), .claim 0 0 (2 ^ 14) (2 ^ 24 - 1), .claim 0 0 (2 ^ 14 - 1) (2 ^ 24), .stepCompleteReceive 0 (2 ^ 36) (2 ^ 14 - 1) (2 ^ 16 - 1) true, .stepCompleteReceive 0 (2 ^ 36 - 1) (2 ^ 14) (2 ^ 16 - 1) true, .stepCompleteReceive 0 (2 ^ 36 - 1) (2 ^ 14 - 1) (2 ^ 16) true, .scheduleGo 0 (2 ^ 4), .slotStart 0 (2 ^ 12), .slotEnd 0 (2 ^ 12), .requestDispatch 0 0 (2 ^ 8), .attentionComplete 0 0 (2 ^ 8), .alphaUpdate 0 (2 ^ 8), .attendRequest 0 (.doorbell 0 0) wAtt, .attendRequest 0 (.doorbell 1 255) { wAtt with head := { wHead with mode := 4 } }, .ctxCreate 0 (.doorbell 0 0) wCtx, .ctxCreate 0 (.doorbell 1 255) { wCtx with op := 256 }, .ctxFork 0 (.doorbell 0 0) wCtx, .ctxFork 0 (.doorbell 1 255) { wCtx with op := 256 }, .ctxDelete 0 (.doorbell 0 0) wCtx, .ctxDelete 0 (.doorbell 1 255) { wCtx with op := 256 }, .siltAppend 0 (.doorbell 0 0) wCtx, .siltAppend 0 (.doorbell 1 255) { wCtx with op := 256 }, .pageMark 0 (.doorbell 0 0) wCtx, .pageMark 0 (.doorbell 1 255) { wCtx with op := 256 }, .pageRewrite 0 (.doorbell 0 0) wCtx, .pageRewrite 0 (.doorbell 1 255) { wCtx with op := 256 }, .appendAfterRelease 0 (2 ^ 32) (2 ^ 20 - 1), .appendAfterRelease 0 (2 ^ 32 - 1) (2 ^ 20), .siltMirrorAck 0 (2 ^ 32) (2 ^ 20 - 1), .siltMirrorAck 0 (2 ^ 32 - 1) (2 ^ 20), .siltRelease 0 (2 ^ 32) (2 ^ 20 - 1), .siltRelease 0 (2 ^ 32 - 1) (2 ^ 20), .search 0 (.doorbell 0 0) wSearch, .search 0 (.doorbell 1 255) { wSearch with nq := 256 }, .corpusCreate 0 (.doorbell 0 0) wEnv 0 0 0 0 0 [], .corpusCreate 0 (.doorbell 1 255) wEnv 256 0 0 0 0 [], .recordAppend 0 (.doorbell 0 0) wEnv 0 0 true [] [], .recordAppend 0 (.doorbell 1 255) wEnv (2 ^ 16) 0 true [] [], .recordDelete 0 (.doorbell 0 0) wEnv 0 0 0, .recordDelete 0 (.doorbell 1 255) wEnv (2 ^ 16) 0 0, .corpusDelete 0 (.doorbell 0 0) wEnv, .corpusDelete 0 (.doorbell 1 255) { wEnv with blen := 2 ^ 16 }, .corpusStorageFree 0 (2 ^ 24) (2 ^ 32 - 1), .corpusStorageFree 0 (2 ^ 24 - 1) (2 ^ 32), .nmuGrantRequest 0 (2 ^ 3) 31 [] ⟨.tamp 0 0 0 0, 0, none, [⟨31, 0, none, [63], .sketchScan 0 0⟩]⟩, .nmuGrantRequest 0 7 31 [] ⟨.tamp 0 0 0 0, 0, none, [⟨2 ^ 5, 0, none, [63], .sketchScan 0 0⟩]⟩, .nmuGrantRequest 0 7 31 [] ⟨.tamp 0 0 0 0, 0, none, [⟨31, 0, none, [2 ^ 6], .sketchScan 0 0⟩]⟩, .nmuClaimComplete 0 (2 ^ 3) 31, .nmuClaimComplete 0 7 (2 ^ 5), .nmuComputeComplete 0 (2 ^ 3) 31 [], .nmuComputeComplete 0 7 (2 ^ 5) []] : List Instr).all (fun c => !c.wf) = true := by
  decide +kernel

/-- Commands with one operand that its field cannot hold are refused. -/
theorem test_wf_refuses_2 :
    ([.nmuDrainComplete 0 (2 ^ 3) 31, .nmuDrainComplete 0 7 (2 ^ 5), .nmuAbort 0 (2 ^ 3) 31 true, .nmuAbort 0 7 (2 ^ 5) true, .hbmTransfer 0 1536 [wArb] [51] [71], .hbmTransfer 0 1535 [{ wArb with port := 52 }] [51] [71], .hbmTransfer 0 1535 [wArb] [52] [71], .hbmTransfer 0 1535 [wArb] [51] [72], .refreshSlot 0 1536, .pcaWaymaskWrite 0 (2 ^ 2) 15 0, .pcaWaymaskWrite 0 3 (2 ^ 4) 0, .directoryInsert 0 (2 ^ 3) (2 ^ 59 - 1) [], .directoryInsert 0 7 (2 ^ 59) [], .directoryInsert 0 7 (2 ^ 59 - 1) (List.replicate 4 0), .directoryDelete 0 (2 ^ 3) (2 ^ 59 - 1), .directoryDelete 0 7 (2 ^ 59), .blockMoveComplete 0 (2 ^ 4), .adirBankcfgWrite 0 (2 ^ 4) 0, .nmuGovWrite 0 (2 ^ 3) 0, .flashChunkReadComplete 0 (2 ^ 5) (2 ^ 26 - 1) 127 ⟨wWords, true, true⟩, .flashChunkReadComplete 0 31 (2 ^ 26) 127 ⟨wWords, true, true⟩, .flashChunkReadComplete 0 31 (2 ^ 26 - 1) (2 ^ 7) ⟨wWords, true, true⟩, .flashChunkReadComplete 0 31 (2 ^ 26 - 1) 127 ⟨[none], true, true⟩, .lunTimeout 0 (2 ^ 5) 7 3 ⟨true, (2 ^ 26 - 1), 127⟩, .lunTimeout 0 31 (2 ^ 3) 3 ⟨true, (2 ^ 26 - 1), 127⟩, .lunTimeout 0 31 7 (2 ^ 2) ⟨true, (2 ^ 26 - 1), 127⟩, .lunTimeout 0 31 7 3 ⟨true, (2 ^ 26), 127⟩, .lunTimeout 0 31 7 3 ⟨true, (2 ^ 26 - 1), (2 ^ 7)⟩, .zqCalibrationShort 0 (2 ^ 5), .leaseEnd 0 (2 ^ 8), .leaseRelease 0 (2 ^ 8), .leaseForcedEnd 0 (2 ^ 8), .weightStreamDone 0 (2 ^ 8), .tierHintDb 0 (2 ^ 4) 0, .pin 0 (2 ^ 4) wHint, .pin 0 15 { wHint with op := 256 }, .unpin 0 (2 ^ 4) wHint, .unpin 0 15 { wHint with op := 256 }, .prefetch 0 (2 ^ 4) wHint, .prefetch 0 15 { wHint with op := 256 }, .dormant 0 (2 ^ 4) wHint, .dormant 0 15 { wHint with op := 256 }, .wake 0 (2 ^ 4) wHint, .wake 0 15 { wHint with op := 256 }, .dormantComplete 0 (2 ^ 24) (2 ^ 32 - 1), .dormantComplete 0 (2 ^ 24 - 1) (2 ^ 32), .dataFlitReceive 0 8 wPlace (flitCrc wFlit) wFlit, .dataFlitReceive 0 7 { wPlace with slot := 0 } (flitCrc wFlit) wFlit, .dataFlitReceive 0 7 { wPlace with slot := 20 } (flitCrc wFlit) wFlit, .dataFlitReceive 0 7 { wPlace with codes := List.replicate 9 .clean } (flitCrc wFlit) wFlit, .dataFlitReceive 0 7 wPlace (flitCrc wFlit) { wFlit with vl := 8 }, .controlFlitReceive 0 8 wPlace.codes (ctlCrc wCtl) wCtl, .controlFlitReceive 0 7 (List.replicate 9 .clean) (ctlCrc wCtl) wCtl, .controlFlitReceive 0 7 wPlace.codes (ctlCrc wCtl) { wCtl with cred := [] }, .replayTimeout 0 8, .retrainAttemptFailed 0 8, .trainingTimeout 0 8, .fecLimit 0 8, .fallowEnter 0 8, .fallowExit 0 8, .delayReq 0 7 (2 ^ 64), .delayReq 0 8 (2 ^ 64 - 1), .delayRsp 0 7 (2 ^ 64) (2 ^ 32 - 1), .delayRsp 0 7 (2 ^ 64 - 1) (2 ^ 32), .delayRsp 0 8 (2 ^ 64 - 1) (2 ^ 32 - 1), .portEnable 0 8 0, .retrain 0 8 0, .faultInjectCtlWrite 0 8 0, .faultInjectSeedWrite 0 8 0, .trainingComplete 0 7 (2 ^ 14) [7]] : List Instr).all (fun c => !c.wf) = true := by
  decide +kernel

/-- Commands with one operand that its field cannot hold are refused. -/
theorem test_wf_refuses_3 :
    ([.trainingComplete 0 8 (2 ^ 14 - 1) [7], .trainingComplete 0 7 (2 ^ 14 - 1) [2 ^ 3], .laneAlignmentLoss 0 7 (2 ^ 3) true, .laneAlignmentLoss 0 8 7 true, .gatewayDatagramReceive 0 8 wFrame wGram, .gatewayDatagramReceive 0 7 wFrame { wGram with ver := 16 }, .gatewayDatagramReceive 0 7 { wFrame with iface := 2 } wGram, .gatewayDatagramSend 0 (2 ^ 6), .gatewayResendTimeout 0 (2 ^ 13) 0, .respTimeout 0 (2 ^ 13) 0, .read 0 true { wSegm with vl := 8 }, .write 0 true { wSegm with vl := 8 }, .add64 0 true { wSegm with vl := 8 }, .addf32 0 true { wSegm with vl := 8 }, .xor 0 true { wSegm with vl := 8 }, .cas64 0 true { wSegm with vl := 8 }, .cas128 0 true { wSegm with vl := 8 }, .cmd 0 true { wSegm with vl := 8 }, .resp 0 true { wResp with conn := 2 ^ 13 }, .readData 0 true { wResp with conn := 2 ^ 13 }, .reassemblyTimeout 0 (2 ^ 16) 0, .flagRelease 0 (2 ^ 16) 0, .flagHoldTimeout 0 (2 ^ 16) 0, .windowInsert 0 16 (2 ^ 14), .windowInsert 0 17 (2 ^ 14 - 1), .windowRemove 0 16 (2 ^ 14), .windowRemove 0 17 (2 ^ 14 - 1), .windowOpen 0 16 (2 ^ 14), .windowOpen 0 17 (2 ^ 14 - 1), .windowRevoke 0 16 (2 ^ 14), .windowRevoke 0 17 (2 ^ 14 - 1), .windowChangeInForce 0 17, .windowDrained 0 17, .connectionWrite 0 17 0, .atomicWriteback 0 (2 ^ 46), .hotLineEvict 0 (2 ^ 46), .hotLine 0 (2 ^ 46), .egqWrite 0 (2 ^ 13), .egqRead 0 (2 ^ 13), .packetStart 0 7 (2 ^ 3), .packetStart 0 8 7, .dmaStart 0 (2 ^ 7) 16 0, .dmaStart 0 127 17 0, .dmaArm 0 (2 ^ 7) 16 0, .dmaArm 0 127 17 0, .dmaResume 0 (2 ^ 7) 16 0, .dmaResume 0 127 17 0, .dmaAbort 0 (2 ^ 7) 16, .dmaAbort 0 127 17, .dmaDoneClear 0 (2 ^ 7) 16, .dmaDoneClear 0 127 17, .dmaPhaseTrigger 0 (2 ^ 7), .dmaTransferDone 0 (2 ^ 7), .dmaHalt 0 (2 ^ 7) true .ok (2 ^ 52 - 1) (2 ^ 41 - 1), .dmaHalt 0 127 true .ok (2 ^ 52) (2 ^ 41 - 1), .dmaHalt 0 127 true .ok (2 ^ 52 - 1) (2 ^ 41), .commit 0 (2 ^ 36), .sliceFree 0 48, .flashChannelFree 0 (2 ^ 5), .handoff 0 (2 ^ 32) (2 ^ 20 - 1) true (2 ^ 32 - 1) (2 ^ 32 - 1) (2 ^ 14 - 1) (2 ^ 13 - 1) true, .handoff 0 (2 ^ 32 - 1) (2 ^ 20) true (2 ^ 32 - 1) (2 ^ 32 - 1) (2 ^ 14 - 1) (2 ^ 13 - 1) true, .handoff 0 (2 ^ 32 - 1) (2 ^ 20 - 1) true (2 ^ 32) (2 ^ 32 - 1) (2 ^ 14 - 1) (2 ^ 13 - 1) true, .handoff 0 (2 ^ 32 - 1) (2 ^ 20 - 1) true (2 ^ 32 - 1) (2 ^ 32) (2 ^ 14 - 1) (2 ^ 13 - 1) true] : List Instr).all (fun c => !c.wf) = true := by
  decide +kernel

/-- Commands with one operand that its field cannot hold are refused. -/
theorem test_wf_refuses_4 :
    ([.handoff 0 (2 ^ 32 - 1) (2 ^ 20 - 1) true (2 ^ 32 - 1) (2 ^ 32 - 1) (2 ^ 14) (2 ^ 13 - 1) true, .handoff 0 (2 ^ 32 - 1) (2 ^ 20 - 1) true (2 ^ 32 - 1) (2 ^ 32 - 1) (2 ^ 14 - 1) (2 ^ 13) true, .forceTeardown 0 (2 ^ 4), .teardownComplete 0 (2 ^ 4), .tenantRemoved 0 (2 ^ 4), .getVersion 0 (.vfDoe 0) ⟨0, 0, true⟩, .getCapabilities 0 (.vfDoe 0) ⟨0, 0, true⟩, .negotiateAlgorithms 0 (.vfDoe 0) ⟨0, 0, true⟩, .getDigests 0 (.vfDoe 0) ⟨0, 0, true⟩, .keyExchange 0 (.vfDoe 0) ⟨0, 0, true⟩, .finish 0 (.vfDoe 0) ⟨0, 0, true⟩, .heartbeat 0 (.vfDoe 0) ⟨0, 0, true⟩, .spdmKeyUpdate 0 (.vfDoe 0) ⟨0, 0, true⟩, .endSession 0 (.vfDoe 0) ⟨0, 0, true⟩, .getCertificate 0 (.vfDoe 16) ⟨0, 0, true⟩ (2 ^ 16) (2 ^ 16 - 1), .getCertificate 0 (.vfDoe 16) ⟨0, 0, true⟩ (2 ^ 16 - 1) (2 ^ 16), .getCertificate 0 (.vfDoe 0) ⟨0, 0, true⟩ (2 ^ 16 - 1) (2 ^ 16 - 1), .challenge 0 (.vfDoe 0) ⟨0, 0, true⟩ 0, .getMeasurements 0 (.vfDoe 16) ⟨0, 0, true⟩ (2 ^ 8), .getMeasurements 0 (.vfDoe 0) ⟨0, 0, true⟩ 255, .keysInstall 0 true { wBlob with comp := 16 }, .keysUpdate 0 true { wBlob with comp := 16 }, .modelRelease 0 true { wBlob with comp := 16 }, .tenantRemove 0 true { wBlob with comp := 16 }, .correctedRewrite 0 (2 ^ 52), .scrubRateHour 0 24, .faultNotice 0 { wNote with scope := 256 }, .peerUnreachable 0 (2 ^ 14), .roleNotice 0 { wRole with rank := 256 }, .standbyReady 0 (2 ^ 32) 255, .standbyReady 0 (2 ^ 32 - 1) (2 ^ 8), .rebuild 0 (2 ^ 4) wRing, .rebuild 0 15 { wRing with rank := 256 }, .sendPiece 0 (2 ^ 4) wRing, .sendPiece 0 15 { wRing with rank := 256 }, .recontribute 0 (2 ^ 4) wRing, .recontribute 0 15 { wRing with rank := 256 }, .rebuildSlotComplete 0 (2 ^ 4) 0, .rebuildSlotTimeout 0 (2 ^ 4) 0, .rebuildSlotQuarantineEnd 0 (2 ^ 4) 0, .shadow 0 (2 ^ 8) (2 ^ 14 - 1) 15 15, .shadow 0 255 (2 ^ 14) 15 15, .shadow 0 255 (2 ^ 14 - 1) (2 ^ 4) 15, .shadow 0 255 (2 ^ 14 - 1) 15 (2 ^ 4), .load 0 (2 ^ 8) (2 ^ 14 - 1) 15 15, .load 0 255 (2 ^ 14) 15 15, .load 0 255 (2 ^ 14 - 1) (2 ^ 4) 15, .load 0 255 (2 ^ 14 - 1) 15 (2 ^ 4), .admissionSelfTestDone 0 (2 ^ 32), .shadowCompare 0 ⟨0, 0, 0, 2 ^ 36, true⟩, .maintenanceStart 0 (2 ^ 8) (2 ^ 16 - 1) (2 ^ 64 - 1), .maintenanceStart 0 255 (2 ^ 16) (2 ^ 64 - 1), .maintenanceStart 0 255 (2 ^ 16 - 1) (2 ^ 64), .maintenanceStop 0 (2 ^ 8) (2 ^ 16 - 1), .maintenanceStop 0 255 (2 ^ 16), .governorRiseStart 0 (2 ^ 12), .powerSample 0 (2 ^ 16) (some 65535), .powerSample 0 (2 ^ 16 - 1) (some 65536), .thermalSample 0 (List.replicate 28 0), .supplySag 0 101, .shedStageEnter 0 (2 ^ 3), .perstNDeassert 0 (2 ^ 2)] : List Instr).all (fun c => !c.wf) = true := by
  decide +kernel

/-- Commands with one operand that its field cannot hold are refused. -/
theorem test_wf_refuses_5 :
    ([.vfFlr 0 17, .doorbell 0 16 (2 ^ 8), .doorbell 0 17 255, .submissionFetch 0 17 wEntry (.corpusDelete wEnv), .submissionFetch 0 16 { wEntry with reslen := 2 ^ 32 } (.corpusDelete wEnv), .submissionFetch 0 16 wEntry (.corpusDelete { wEnv with kind := 256 }), .fetchTimeout 0 17 (some wEntry), .fetchTimeout 0 16 (some { wEntry with rlen := 2 ^ 32 }), .mailboxRead 0 16 (2 ^ 8) true, .mailboxRead 0 17 255 true, .mailboxRelease 0 17 0, .hostApertureRead 0 16 (2 ^ 52) (2 ^ 13 - 1) [[71]], .hostApertureRead 0 16 (2 ^ 52 - 1) (2 ^ 13) [[71]], .hostApertureRead 0 17 (2 ^ 52 - 1) (2 ^ 13 - 1) [[71]], .hostApertureRead 0 16 (2 ^ 52 - 1) (2 ^ 13 - 1) [[72]], .hostApertureWrite 0 16 (2 ^ 52) [], .hostApertureWrite 0 17 (2 ^ 52 - 1) [], .hostApertureWrite 0 16 (2 ^ 52 - 1) (List.replicate 4097 0), .registerWrite 0 16 (2 ^ 28) 127 0, .registerWrite 0 16 (2 ^ 28 - 1) (2 ^ 7) 0, .registerWrite 0 17 (2 ^ 28 - 1) 127 0, .pdMailboxGo 0 { wMsg with ver := 16 }, .pdpMessage 0 (.vfDoe 0) wMsg, .pdpMessage 0 (.vfDoe 16) { wMsg with ver := 16 }, .pdRead 0 (.composition 16) wItem, .pdRead 0 (.composition 15) { wItem with iop := 8 }, .pdWrite 0 (.composition 16) wItem, .pdWrite 0 (.composition 15) { wItem with iop := 8 }, .pdDescribe 0 (.composition 16) wItem, .pdDescribe 0 (.composition 15) { wItem with iop := 8 }, .pdNext 0 (.composition 16) wItem, .pdNext 0 (.composition 15) { wItem with iop := 8 }, .pdDefault 0 (.composition 16) wItem, .pdDefault 0 (.composition 15) { wItem with iop := 8 }, .pdStagingTimeout 0 (2 ^ 16) 255, .pdStagingTimeout 0 (2 ^ 16 - 1) (2 ^ 8), .arpRequest 0 (2 ^ 32), .neighbourSolicitation 0 (2 ^ 128), .echoRequest 0 (2 ^ 128) true [], .hbmTrainingDone 0 [24], .flashTrainingDone 0 (List.replicate 33 []) [] [], .flashTrainingDone 0 [] (List.replicate 33 []) [], .flashTrainingDone 0 [] [] (List.replicate 33 []), .flashTrainingDone 0 [List.replicate 9 wPage] [] [], .privateInstruction 0 ⟨(2 ^ 8), none⟩, .privateInstruction 0 ⟨255, some ⟨2 ^ 52, 0, none⟩⟩, .pageProgramComplete 0 (2 ^ 5) 0 true, .blockEraseComplete 0 (2 ^ 5) 0 true] : List Instr).all (fun c => !c.wf) = true := by
  decide +kernel

/-- No row of the table gives bits, so that no word spells a command and none is placed. -/
theorem test_table_words :
    decodeTableWord 32 0 = none ∧
    decodeTableWord 0 0 = none ∧
    (up.withFetchWord 32 0).pending = [] := by
  decide +kernel


/-! ### Phase time -/

/-- The mark before: LAYER 2 of step 9, sequence 40, from node 7 under term 3. -/
def lastMark : Mark := ⟨mkPhase 9 2 0, 500000, 40, 0, 1024, 7, 3, 0, 0⟩

/-- A member with SYNC in layer 2 of 8 of step 9, at the local time of the last mark plus `dt`. -/
def member (dt : Nat) : State := withPd { up with
  timer := 900000 + dt
  phs := { up.phs with sync := true, term := 3, start := some ⟨3, 77, 9⟩, masterId := some 7, prev := some lastMark, seen := [40]
                       prevTc := 900000, base := mkPhase 9 2 0 } } 0x7001 0 [8, 0]

/-- The LAYER mark of the next boundary, 1,024 ticks on. -/
def nextMark : Mark := { lastMark with phase := mkPhase 9 3 0, mtime := 500000 + 16384, seq := 41 }

/-- A member in the last layer. -/
def atLast : State := let s := member 16384; { s with phs := { s.phs with base := mkPhase 9 7 0 } }

/-- A STEP mark of the next step. -/
def stepMark : Mark := { nextMark with phase := mkPhase 10 0 0, typ := 1 }

/-- A member during a HOLD. -/
def heldMember : State := let s := member 16384; { s with phs := { s.phs with held := true, base := mkPhase 9 3 0 } }

/-- R34, R35: a LAYER mark on time, of the highest hop count, moves the base to the boundary it names. -/
theorem witness_layer_mark :
    MarkTaken ((member 16384).arrive 0) 7 { nextMark with hops := 14 } ∧
    (member 16384).phs.sync = true ∧
    (((member 16384).arrive 0).measureMark 7 { nextMark with hops := 14 }).2.1 = false ∧
    phLayer (member 16384).phs.base + 1 < (member 16384).layers ∧
    (member 16384).layers ≤ 4096 ∧
    (after (.markLayer 0 7 { nextMark with hops := 14 }) (member 16384)).phs.base = mkPhase 9 3 0 ∧
    (after (.markLayer 0 7 { nextMark with hops := 14 }) (member 16384)).phs.prevTc = 916384 ∧
    (after (.markLayer 0 7 { nextMark with hops := 14 }) (member 16384)).phs.jitter = false :=
  ⟨by constructor <;> decide +kernel, by decide +kernel⟩

/-- R34: a STEP mark in the last layer moves to layer 0 of the next step. -/
theorem witness_step_mark :
    MarkTaken (atLast.arrive 0) 0 stepMark ∧
    (atLast.arrive 0 |>.measureMark 0 stepMark).2.1 = false ∧
    phLayer atLast.phs.base + 1 = atLast.layers ∧
    stepMark.phase = mkPhase (atLast.step + 1) 0 0 ∧
    (after (.markStep 0 0 stepMark) atLast).phs.base = mkPhase 10 0 0 ∧
    (after (.markStep 0 0 stepMark) atLast).phs.prev = some stepMark :=
  ⟨by constructor <;> decide +kernel, by decide +kernel⟩

/-- A LAYER mark of two boundaries on, its sequence one beyond the next. -/
def gapMark : Mark := { lastMark with phase := mkPhase 9 4 0, mtime := 500000 + 2 * 16384, seq := 42 }

/-- A STEP mark of step 10, its sequence one beyond the next. -/
def gapStep : Mark := { gapMark with phase := mkPhase 10 0 0, typ := 1 }

/-- The first STEP mark of term 3. -/
def firstMark : Mark := { lastMark with phase := mkPhase 9 0 0, mtime := 916384, seq := 0, typ := 1 }

/-- A member without SYNC, to which only node 7 is a candidate. -/
def newMember : State := withPd { member 16384 with
  phs := { up.phs with term := 3, start := some ⟨3, 77, 9⟩ } } 0x7004 1 [0x80]

/-- R34, R37: a mark after a sequence gap moves to the boundary it names, in the step or into the next. -/
theorem witness_marks_after_a_gap :
    MarkTaken ((member (2 * 16384)).arrive 0) 7 gapMark ∧
    MarkTaken ((member (2 * 16384)).arrive 0) 7 gapStep ∧
    (((member (2 * 16384)).arrive 0).measureMark 7 gapMark).2.1 = true ∧
    (((member (2 * 16384)).arrive 0).measureMark 7 gapStep).2.1 = true ∧
    (phLayer (member (2 * 16384)).phs.base < phLayer gapMark.phase ∧ phLayer gapMark.phase < (member (2 * 16384)).layers) ∧
    gapMark.phase = mkPhase (member (2 * 16384)).step (phLayer gapMark.phase) 0 ∧
    phLayer (member (2 * 16384)).phs.base < (member (2 * 16384)).layers ∧
    gapStep.phase = mkPhase ((member (2 * 16384)).step + 1) 0 0 ∧
    (after (.markLayer 0 7 gapMark) (member (2 * 16384))).phs.base = mkPhase 9 4 0 ∧
    (after (.markLayer 0 7 gapMark) (member (2 * 16384))).phs.prev = some gapMark ∧
    (after (.markStep 0 7 gapStep) (member (2 * 16384))).phs.base = mkPhase 10 0 0 :=
  ⟨by constructor <;> decide +kernel, by constructor <;> decide +kernel, by decide +kernel⟩

/-- R33, R34: the first STEP mark of a candidate gives SYNC at layer 0 of the step of the start record. -/
theorem witness_first_step_mark :
    MarkTaken (newMember.arrive 0) 7 firstMark ∧
    newMember.phs.sync = false ∧
    newMember.phs.masterId = none ∧
    newMember.phs.start = some ⟨3, 77, 9⟩ ∧
    firstMark.phase = mkPhase 9 0 0 ∧
    (after (.markStep 0 7 firstMark) newMember).phs.sync = true ∧
    (after (.markStep 0 7 firstMark) newMember).phs.base = mkPhase 9 0 0 ∧
    (after (.markStep 0 7 firstMark) newMember).phs.prevTc = 916384 :=
  ⟨by constructor <;> decide +kernel, by decide +kernel⟩

/-- R31: a mark after 15 hops, of another term, or from a port in single-card mode is dropped. -/
theorem witness_marks_dropped :
    (after (.markLayer 0 7 { nextMark with hops := 15 }) (member 16384)).phs = (member 16384).phs ∧
    (member 16384).phs.start.map (·.term) ≠ some 4 ∧
    (after (.markLayer 0 7 { nextMark with term := 4 }) (member 16384)).phs = (member 16384).phs ∧
    { (member 16384).phs with src := 1 }.src ≠ 0 ∧
    (after (.markStep 0 7 stepMark) { member 16384 with phs := { (member 16384).phs with src := 1 } }).phs.base = mkPhase 9 2 0 := by
  decide +kernel

/-- R34, R35: a mark whose period is not PD 0x7002.00 is a time-base fault, and the last mark taken all the same. -/
theorem test_mark_of_another_period :
    (after (.markLayer 0 7 { nextMark with period := 1025 }) (member 16384)).phs.tbfault = true ∧
    (after (.markLayer 0 7 { nextMark with period := 1025 }) (member 16384)).phs.base = mkPhase 9 3 0 ∧
    (after (.markLayer 0 7 { nextMark with period := 1025 }) (member 16384)).phs.prevTc = 916384 := by
  decide +kernel

/-- R34: HOLD freezes the Phase at its PHASE. -/
theorem witness_hold_mark :
    MarkTaken ((member 16384).arrive 0) 1 { nextMark with typ := 2 } ∧
    (after (.markHold 0 1 { nextMark with typ := 2 }) (member 16384)).phs.held = true ∧
    (after (.markHold 0 1 { nextMark with typ := 2 }) (member 16384)).phs.base = mkPhase 9 3 0 :=
  ⟨by constructor <;> decide +kernel, by decide +kernel⟩

/-- R34: RESUME goes on at the boundary it names; SYNC in a hold keeps it. -/
theorem witness_resume_and_sync_marks :
    MarkTaken (heldMember.arrive 0) 1 { nextMark with typ := 3 } ∧
    MarkTaken (heldMember.arrive 0) 1 { nextMark with typ := 4 } ∧
    heldMember.phs.held = true ∧
    (after (.markResume 0 1 { nextMark with typ := 3 }) heldMember).phs.held = false ∧
    (after (.markResume 0 1 { nextMark with typ := 3 }) heldMember).phs.base = mkPhase 9 3 0 ∧
    (after (.markSync 0 1 { nextMark with typ := 4 }) heldMember).phs.held = true ∧
    (after (.markSync 0 1 { nextMark with typ := 4 }) heldMember).phs.base = mkPhase 9 3 0 ∧
    (after (.markSync 0 1 { nextMark with typ := 4 }) heldMember).phs.prevTc = 916384 :=
  ⟨by constructor <;> decide +kernel, by constructor <;> decide +kernel, by decide +kernel⟩

/-- A master. -/
def leader (dt : Nat) : State := let s := member dt
  { s with phs := { s.phs with master := true, masterId := some 5, mseq := 41 } }

/-- R32: the master moves to the next layer when a period, 1,024 ticks, has run, and not one tick before. -/
theorem witness_master_layer :
    (leader 16384).ready = true ∧
    (leader 16384).phs.en = true ∧
    (leader 16384).phs.master = true ∧
    (leader 16384).phs.sync = true ∧
    (leader 16384).phs.held = false ∧
    (leader 16384).phs.fwdDone = false ∧
    (leader 16384).lastLayer = false ∧
    (leader 16384).period ≤ ((leader 16384).arrive 0).elapsed ∧
    (after (.masterLayerBoundary 0) (leader 16384)).phs.base = mkPhase 9 3 0 ∧
    (after (.masterLayerBoundary 0) (leader 16384)).phs.mseq = 42 ∧
    (after (.masterLayerBoundary 0) (leader 16383)).phs.base = mkPhase 9 2 0 := by
  decide +kernel

/-- A held master. -/
def heldLeader : State := let s := leader 16384; { s with phs := { s.phs with held := true } }

/-- A candidate whose claim window began at 900,000. -/
def candidate : State := { up with
  timer := 900000 + 4000 * 10000
  phs := { up.phs with term := 3, start := some ⟨3, 77, 9⟩, cand := some 900000 } }

/-- R32, R33: a held master sends SYNC; a candidate whose window of 10 ms has ended is master. -/
theorem witness_hold_sync_and_claim_window :
    heldLeader.ready = true ∧
    heldLeader.phs.master = true ∧
    heldLeader.phs.held = true ∧
    heldLeader.period ≤ (heldLeader.arrive 0).elapsed ∧
    (after (.holdSyncMark 0) heldLeader).phs.mseq = 42 ∧
    (after (.holdSyncMark 0) heldLeader).phs.prev.map (·.typ) = some 4 ∧
    candidate.ready = true ∧
    900000 + us * candidate.pdNum 0x7006 0 ≤ (candidate.arrive 0).timer ∧
    (after (.claimWindowExpiry 0) candidate).phs.master = true ∧
    (after (.claimWindowExpiry 0) candidate).phs.base = mkPhase 9 0 0 := by
  decide +kernel

/-- R36, R38: LATE after one period and 64 ticks, a time-base fault at tick 65,535; in the last layer neither. -/
theorem witness_late_marks :
    (member (16 * 1089)).waitsMark = true ∧
    (member (16 * 1089)).lastLayer = false ∧
    (member 0).period + 64 < ((member (16 * 1089)).arrive 0).elapsed ∧
    (after (.layerMarkLate 0) (member (16 * 1089))).phs.late = true ∧
    ((member (16 * 1088)).arrive 0).elapsed ≤ (member 0).period + 64 ∧
    (after (.layerMarkLate 0) (member (16 * 1088))).phs.late = false ∧
    65535 ≤ ((member (16 * 65535)).arrive 0).elapsed ∧
    (after (.tickSaturation 0) (member (16 * 65535))).phs.tbfault = true ∧
    (after (.tickSaturation 0) (member (16 * 65535))).rel.restarted = true ∧
    ((member (16 * 65534)).arrive 0).elapsed < 65535 ∧
    (after (.tickSaturation 0) (member (16 * 65534))).phs.tbfault = false := by
  decide +kernel

/-- A member in the last layer, `dt` after its mark. -/
def atLastFor (dt : Nat) : State := let s := member dt; { s with phs := { s.phs with base := mkPhase 9 7 0 } }

/-- R36: in the last layer the fault comes 0x7030.00 ticks and a period after the nominal end. -/
theorem witness_mark_wait_timeout :
    (atLastFor (16 * 264192)).waitsMark = true ∧
    (atLastFor (16 * 264192)).lastLayer = true ∧
    2 * (atLastFor 0).period + (atLastFor 0).pdNum 0x7030 0 = 264192 ∧
    2 * (atLastFor 0).period + (atLastFor 0).pdNum 0x7030 0 ≤ ((atLastFor (16 * 264192)).arrive 0).elapsed ∧
    (after (.markWaitTimeout 0) (atLastFor (16 * 264192))).phs.tbfault = true ∧
    ((atLastFor (16 * 264191)).arrive 0).elapsed < 2 * (atLastFor 0).period + (atLastFor 0).pdNum 0x7030 0 ∧
    (after (.markWaitTimeout 0) (atLastFor (16 * 264191))).phs.tbfault = false ∧
    65535 ≤ ((atLastFor (16 * 65535)).arrive 0).elapsed ∧
    (atLastFor (16 * 65535)).phs.prev ≠ none ∧
    phTick ((atLastFor (16 * 65535)).arrive 0).phase = 65535 ∧
    (after (.tickSaturation 0) (atLastFor (16 * 65535))).phs.tbfault = false := by
  decide +kernel

/-- A node whose start record names nodes 5 and 7 as members. -/
def twoMembers (s : State) : State := withPd s 0x7004 0 [0xA0]

/-- R33: a start record of a new term is taken, one of the same term is not. -/
theorem witness_start_record :
    (twoMembers (member 0)).ready = true ∧
    bitmapHas ((twoMembers (member 0)).pd.bytes 0x7004 1) (twoMembers (member 0)).nodeId = false ∧
    (twoMembers (member 0)).pdBool 0x7003 1 = false ∧
    bitmapHas ((twoMembers (member 0)).pd.bytes 0x7004 0) (twoMembers (member 0)).nodeId = true ∧
    (twoMembers (member 0)).phs.start.map (·.term) ≠ some 4 ∧
    (after (.jobStart 0 4 77 12) (twoMembers (member 0))).phs.start = some ⟨4, 77, 12⟩ ∧
    (after (.jobStart 0 4 77 12) (twoMembers (member 0))).phs.sync = false ∧
    (twoMembers (member 0)).phs.start.map (·.term) = some 3 ∧
    (after (.jobStart 0 3 77 12) (twoMembers (member 0))).phs = (twoMembers (member 0)).phs := by
  decide +kernel

/-- An eligible node named as member and candidate. -/
def eligible (src : Nat) : State :=
  let s := withPd (withPd (withPd (member 0) 0x7004 0 [0xA0]) 0x7004 1 [0x20]) 0x7003 1 [1]
  { s with phs := { s.phs with src } }

/-- R33: an eligible node is a candidate from the record on, and its own Phase source is master at once. -/
theorem witness_start_record_eligible :
    bitmapHas ((eligible 0).pd.bytes 0x7004 1) (eligible 0).nodeId = (eligible 0).pdBool 0x7003 1 ∧
    bitmapHas ((eligible 2).pd.bytes 0x7004 1) (eligible 2).nodeId = (eligible 2).pdBool 0x7003 1 ∧
    bitmapHas ((eligible 2).pd.bytes 0x7004 0) (eligible 2).nodeId = true ∧
    ((eligible 2).phs.src = 2 ∧ (eligible 2).pdBool 0x7003 1 = true ∧ (eligible 2).phs.start.map (·.term) ≠ some 4) ∧
    (after (.jobStart 0 4 77 12) (eligible 0)).phs.cand = some 900000 ∧
    (after (.jobStart 0 4 77 12) (eligible 2)).phs.master = true ∧
    (after (.jobStart 0 4 77 12) (eligible 2)).phs.base = mkPhase 12 0 0 ∧
    (after (.jobStart 0 4 77 12) (withPd (eligible 0) 0x7003 1 [0])).phs = (eligible 0).phs := by
  decide +kernel

/-- R33: the claim of a lower Node ID ends the candidacy. -/
theorem witness_claim :
    candidate.phs.start = some ⟨3, 77, 9⟩ ∧
    4 < candidate.nodeId ∧
    (after (.claim 0 3 4 77) candidate).phs.cand = none ∧
    (after (.claim 0 3 6 77) candidate).phs.cand = some 900000 ∧
    (after (.claim 0 4 4 77) candidate).phs.cand = some 900000 ∧
    (after (.claim 0 3 4 78) candidate).phs = candidate.phs := by
  decide +kernel

/-- A node that takes host marks. -/
def hosted : State := { up with phs := { up.phs with src := 1, markLo := 0 } }

/-- A node of one layer in step 31 that takes host marks and has shown the step as complete. -/
def hostedLater : State := withPd { up with
  phs := { up.phs with src := 1, markLo := 0, hostTerm := true, sync := true, base := mkPhase 31 0 0 }
  hif := { up.hif with step := 31, stepV := true } } 0x7001 0 [1, 0]

/-- Such a node whose lower half names tick 1. -/
def hostedTick : State := { up with phs := { up.phs with src := 1, markLo := 1 } }

/-- R39, R41: a first host mark gives SYNC under the next term; one with a tick sets BADMARK. -/
theorem witness_host_marks :
    hosted.ready = true ∧
    hosted.phs.src = 1 ∧
    hosted.phs.en = true ∧
    phTick ((2 : BitVec 32) ++ hosted.phs.markLo) = 0 ∧
    phLayer ((2 : BitVec 32) ++ hosted.phs.markLo) = 0 ∧
    hosted.phs.hostTerm = false ∧
    (after (.hostMark 0 2) hosted).phs.term = 1 ∧
    hostedLater.phs.hostTerm = true ∧
    phLayer hostedLater.phs.base < hostedLater.layers ∧
    hostedLater.layersTo ((2 : BitVec 32) ++ hostedLater.phs.markLo) = 1 ∧
    phLayer ((2 : BitVec 32) ++ hostedLater.phs.markLo) < hostedLater.layers ∧
    (hostedLater.hif.stepV = true ∧ hostedLater.hif.step = hostedLater.step) ∧
    (after (.hostMark 0 2) hostedLater).phs.base = mkPhase 32 0 0 ∧
    (after (.hostMark 0 2) hosted).phs.base = mkPhase 32 0 0 ∧
    phTick ((2 : BitVec 32) ++ hostedTick.phs.markLo) ≠ 0 ∧
    (after (.hostMark 0 2) hostedTick).phs.badmark = true ∧
    (after (.hostMark 0 2) hostedTick).phs.sync = false := by
  decide +kernel

/-- R28, R34, R41: sixteen units of 250 ps make a tick; the read answers the lower half and latches the upper. -/
theorem witness_phase_counts :
    (member 16).phs.held = false ∧
    (member 16).phs.en = true ∧
    (member 16).phs.prev ≠ none ∧
    ((member 0).timer : Int) = (member 0).phs.prevTc ∧
    (member 0).elapsed = 0 ∧
    (member 16).phs.rate = 1 ∧
    ((member 16).timer : Int) = (member 16).phs.prevTc + (16 : Nat) ∧
    phTick (member 15).phase = 0 ∧
    phTick (member 16).phase = 1 ∧
    (after (.phsNowRead 0) (member 16)).out = [.regRead 0 0x100008 0x90020001] ∧
    (after (.phsNowRead 0) (member 16)).phs.nowHi = 0 := by
  decide +kernel

/-- A member whose step is done, in the last layer. -/
def single : State := { atLast with hif := { atLast.hif with single := true } }

/-- R42, R43: the step is reported once; in single-card mode to the host, otherwise to the master. -/
theorem witness_step_report :
    single.ready = true ∧
    single.phs.sync = true ∧
    single.phs.held = false ∧
    single.lastLayer = true ∧
    single.phs.reported = false ∧
    (single.arrive 0).stepDone = true ∧
    single.single = true ∧
    (after (.stepCompleteReport 0) single).hif.step = 9 ∧
    (after (.stepCompleteReport 0) single).out = [.msix 0 2] ∧
    (atLast.arrive 0).stepDone = true ∧
    atLast.single = false ∧
    atLast.phs.master = false ∧
    (after (.stepCompleteReport 0) atLast).lnk.mgmtOut = [(7, [9, 0, 0, 0, 0, 0, 0, 0, 5, 0, 0, 0, 0, 0, 0, 0])] := by
  decide +kernel

/-- A master in the last layer, of members 5 and 7. -/
def leaderAtLast : State := twoMembers { atLast with phs := { atLast.phs with master := true, masterId := some 5, mseq := 41 } }

/-- The same with the report of its own. -/
def leaderWaits : State := { leaderAtLast with phs := { leaderAtLast.phs with reports := [5] } }

/-- R43: the master holds a report it has not. -/
theorem witness_step_report_received :
    leaderAtLast.phs.master = true ∧
    7 ∉ leaderAtLast.phs.reports ∧
    leaderAtLast.step = 9 ∧
    ({ leaderAtLast with phs := { leaderAtLast.phs with reports := 7 :: leaderAtLast.phs.reports } }).allReported = false ∧
    (after (.stepCompleteReceive 0 9 7 0 false) leaderAtLast).phs.reports = [7] := by
  decide +kernel

/-- Beyond its bytes a bitmap names no node. -/
theorem bitmap_beyond (b : Byte) (n : Nat) (h : 8 ≤ n) : bitmapHas [b] n = false := by
  have h1 : n / 8 ≠ 0 := by omega
  obtain ⟨k, hk⟩ := Nat.exists_eq_succ_of_ne_zero h1
  simp [bitmapHas, hk, bitAt]

/-- R44: with the reports of 5 and 7 every member has reported. -/
theorem witness_step_reports_complete : leaderWaits.phs.master = true ∧ 7 ∉ leaderWaits.phs.reports ∧
    ({ leaderWaits with phs := { leaderWaits.phs with reports := 7 :: leaderWaits.phs.reports } }).allReported = true := by
  refine ⟨by decide +kernel, by decide +kernel, List.all_eq_true.mpr fun n _ => ?_⟩
  by_cases h : n < 8
  · interval_cases n <;> decide +kernel
  · have hb := bitmap_beyond 0xA0 n (by omega)
    have : ({ leaderWaits with phs := { leaderWaits.phs with reports := 7 :: leaderWaits.phs.reports } } : State).pd.bytes 0x7004 0 = [0xA0] := by
      decide +kernel
    rw [this, hb]; rfl


/-! ### HBM, directory, windows, connections -/

/-- A write of two bytes, granted at pseudo-channel 0. -/
def wrReq : ArbReq := ⟨3, 0, none, 64, some [7, 9], 2⟩

/-- A read, granted at pseudo-channel 0. -/
def rdReq : ArbReq := ⟨3, 0, none, 64, none, 2⟩

/-- A node whose pseudo-channel 0 has granted `q`. -/
def granting (q : ArbReq) : State := { up with hbm := { up.hbm with arbs := [(0, { Arb.idle with raised := [q], grant := some q })] } }

/-- R201, R212: a write stores its bytes, a read none; either leaves the arbiter. -/
theorem witness_hbm_transfers :
    ((granting wrReq).arb 0).grant = some wrReq ∧
    wrReq ∈ ((granting wrReq).arb 0).raised ∧
    wrReq.wr = some [7, 9] ∧
    (after (.hbmTransfer 0 0 [] [] []) (granting wrReq)).mem = [(64, 7), (65, 9)] ∧
    ((after (.hbmTransfer 0 0 [] [] []) (granting wrReq)).arb 0).raised = [] ∧
    ((granting rdReq).arb 0).grant = some rdReq ∧
    rdReq ∈ ((granting rdReq).arb 0).raised ∧
    rdReq.wr = none ∧
    (after (.hbmTransfer 0 0 [] [] []) (granting rdReq)).mem = [] ∧
    isRmw wrReq = true ∧
    ((after (.hbmTransfer 0 0 [rdReq] [2] []) (granting wrReq)).arb 0).grant = none ∧
    isRmw { wrReq with wr := some (List.replicate 64 1) } = false ∧
    ((after (.hbmTransfer 0 0 [] [] [0, 1, 2, 3]) (granting { wrReq with wr := some (List.replicate 64 1) })).load 64 64) = List.replicate 64 1 := by
  decide +kernel

/-- R210: errors in up to three of the 72 bytes are corrected, in four or five detected. -/
theorem witness_ecc_counts :
    (errPlaces [71, 0, 5, 5]).length = 3 ∧
    eccOf [71, 0, 5, 5] = .corrected ∧
    (errPlaces [4]).length = 1 ∧
    eccOf [4] = .corrected ∧
    (errPlaces [0, 1, 2, 3]).length = 4 ∧
    eccOf [0, 1, 2, 3] = .uncorrectable ∧
    (errPlaces [0, 1, 2, 3, 71]).length = 5 ∧
    eccOf [0, 1, 2, 3, 71] = .uncorrectable ∧
    ((after (.hbmTransfer 0 0 [] [] [0, 1, 2, 3]) (granting rdReq)).arb 0).raised = [] ∧
    (after (.hbmTransfer 0 0 [] [] [9]) (granting wrReq)).mem = [(64, 7), (65, 9)] := by
  decide +kernel

/-- A node at tick 0 of its timer with bank 31 in turn. -/
def refreshing : State := { up with timer := 0, hbm := { up.hbm with arbs := [(0, { Arb.idle with bank := 31 })] } }

/-- The same with bank 31 in compute state and four refreshes postponed. -/
def computing : State :=
  { up with timer := 0, hbm := { up.hbm with arbs := [(0, { Arb.idle with bank := 31, compute := [31], postponed := [(31, 4)] })] } }

/-- The same with a granted transfer of bank 31 and so many refreshes postponed. -/
def inTransfer (n : Nat) : State := { up with timer := 0, hbm := { up.hbm with arbs :=
  [(0, { Arb.idle with bank := 31, raised := [{ rdReq with npa := 31 * 1024 }], grant := some { rdReq with npa := 31 * 1024 }, postponed := [(31, n)] })] } }

/-- R206 to R208: a refresh of 120 ns at the turn of the bank; four postponed at most; none when it is not the turn. -/
theorem witness_refresh :
    ((refreshing.arrive 16).refreshTick + 0) % (refreshing.arrive 16).refreshStep ≠ 0 ∧
    ((refreshing.arrive 0).refreshTick + 0) % (refreshing.arrive 0).refreshStep = 0 ∧
    (refreshing.arb 0).bank ∉ (refreshing.arb 0).compute ∧
    (refreshing.arb 0).grant = none ∧
    (refreshing.arb 0).isRefreshing (refreshing.arrive 0).timer (refreshing.arb 0).bank = false ∧
    ((after (.refreshSlot 0 0) refreshing).arb 0).bank = 0 ∧
    look ((after (.refreshSlot 0 0) refreshing).arb 0).refreshing 31 = some 480 ∧
    ((computing.arrive 0).refreshTick + 0) % (computing.arrive 0).refreshStep = 0 ∧
    (computing.arb 0).bank ∈ (computing.arb 0).compute ∧
    ((after (.refreshSlot 0 0) computing).arb 0).bank = 0 ∧
    look ((after (.refreshSlot 0 0) computing).arb 0).postponed 31 = some 4 ∧
    ((inTransfer 2).arb 0).grant = some { rdReq with npa := 31 * 1024 } ∧
    bankOf (31 * 1024) = ((inTransfer 2).arb 0).bank ∧
    look ((after (.refreshSlot 0 0) (inTransfer 2)).arb 0).postponed 31 = some 3 ∧
    ((after (.refreshSlot 0 0) (inTransfer 3)).arb 0).grant = none ∧
    look ((after (.refreshSlot 0 0) (inTransfer 3)).arb 0).refreshing 31 = some 480 := by
  decide +kernel

/-- An XOR into 64 bytes of the channel of unit 2 of W-stack 1. -/
def parOp : NmuOp := .parity (196 * 2 ^ 30) (List.replicate 64 3)

/-- A node with unit 2 of W-stack 1 in a state, with its buffered writes. -/
def unitAt (st : NmuState) (op : NmuOp) : State :=
  { up with hbm := { up.hbm with nmus := [(34, ⟨st, op, [1, 33], [(64, [5])], [], 0⟩)] } }

/-- W-stack 1 allows one unit, which works. -/
def unitsFull : State := { unitAt .compute parOp with hbm := { (unitAt .compute parOp).hbm with govs := [(1, ⟨1, 8, false, false, false⟩)] } }

/-- A request to do `op`, alone. -/
def ask (op : NmuOp) : NmuAsk := ⟨op, 0, none, []⟩

/-- A node in shedding stage 2. -/
def shedTwo : State := { up with pwr := { up.pwr with stage := 2 } }

/-- R214, R215, R412: a request of eight banks within the limits claims them; one beyond is denied, and parity is then applied without the unit. -/
theorem witness_nmu_grant :
    (up.nmu 1 2).st = .idle ∧
    up.nmuMay 1 2 parOp = true ∧
    (up.nmuLoad 1).1 + 1 ≤ (up.gov 1).maxnmu ∧
    (up.nmuLoad 1).2 + 8 ≤ (up.gov 1).maxbank ∧
    up.nmuShed = false ∧
    (∀ b ∈ ([0, 1, 2, 3, 4, 5, 6, 63] : List Nat), up.bankHeld 1 2 b = false) ∧
    up.scanHeld 1 2 = 0 ∧
    2 ∉ up.scanGrants 1 ∧
    unitsFull.bankHeld 1 3 4 = false ∧
    3 ∉ unitsFull.scanGrants 1 ∧
    shedTwo.bankHeld 1 2 4 = false ∧
    (after (.nmuGrantRequest 0 1 2 [0, 1, 2, 3, 4, 5, 6, 63] (ask parOp)) up).nmu 1 2 = ⟨.claim, parOp, [0, 1, 2, 3, 4, 5, 6, 63], [], [], 0⟩ ∧
    (unitsFull.nmu 1 3).st = .idle ∧
    unitsFull.nmuMay 1 3 (.parity (198 * 2 ^ 30) (List.replicate 64 3)) = true ∧
    (unitsFull.gov 1).maxnmu < (unitsFull.nmuLoad 1).1 + 1 ∧
    ((after (.nmuGrantRequest 0 1 3 [4] (ask (.parity (198 * 2 ^ 30) (List.replicate 64 3)))) unitsFull).nmu 1 3).st = .idle ∧
    ((after (.nmuGrantRequest 0 1 3 [4] (ask (.parity (198 * 2 ^ 30) (List.replicate 64 3)))) unitsFull).gov 1).deny = true ∧
    shedTwo.nmuShed = true ∧
    ((after (.nmuGrantRequest 0 1 2 [4] (ask parOp)) shedTwo).gov 1).deny = true ∧
    (after (.nmuGrantRequest 0 1 2 [4] (ask parOp)) shedTwo).load (196 * 2 ^ 30) 64 = List.replicate 64 3 := by
  decide +kernel

/-- R214, R202: of two requests at once the one with the earlier deadline is granted. -/
theorem test_nmu_grant_order :
    ((after (.nmuGrantRequest 0 1 2 [0] { ask parOp with also := [⟨3, 0, some 0, [4], .parity (198 * 2 ^ 30) (List.replicate 64 3)⟩] }) { up with hbm := { up.hbm with govs := [(1, ⟨1, 8, false, false, false⟩)] } }).nmu 1 3).st = .claim := by
  decide +kernel

/-- R213, R215 to R217: claim, compute, drain, release and abort. -/
theorem witness_nmu_states :
    ((unitAt .claim parOp).nmu 1 2).st = .claim ∧
    (∀ b ∈ ((unitAt .claim parOp).nmu 1 2).banks, ((unitAt .claim parOp).arb (nmuPc 1 2 b)).grant = none) ∧
    ((after (.nmuClaimComplete 0 1 2) (unitAt .claim parOp)).nmu 1 2).st = .compute ∧
    ((unitAt .compute parOp).nmu 1 2).st = .compute ∧
    (unitAt .compute parOp).pg.opq = [] ∧
    ((after (.nmuComputeComplete 0 1 2 []) (unitAt .compute parOp)).nmu 1 2).writes = [(196 * 2 ^ 30, List.replicate 64 3)] ∧
    ((after (.nmuComputeComplete 0 1 2 []) (unitAt .compute (.sketchScan 1 0))).nmu 1 2).st = .drain ∧
    ((after (.nmuComputeComplete 0 1 2 []) (unitAt .compute (.grainScan 1 0 0))).nmu 1 2).st = .drain ∧
    ((unitAt .drain parOp).nmu 1 2).st = .drain ∧
    (unitAt .drain parOp).hbm.hostHeld = [] ∧
    (∀ p ∈ ((unitAt .drain parOp).nmu 1 2).writes, isHbm p.1 = true) ∧
    (after (.nmuDrainComplete 0 1 2) (unitAt .drain parOp)).mem = [(64, 5)] ∧
    ((after (.nmuDrainComplete 0 1 2) (unitAt .drain parOp)).nmu 1 2).st = .release ∧
    (after (.nmuDrainComplete 0 1 2) (unitAt .drain (.sketchScan 1 0))).out = [.nmuResult 1 2 []] ∧
    ((unitAt .compute parOp).nmu 1 2).st = .compute ∧
    (after (.nmuAbort 0 1 2 false) (unitAt .compute parOp)).mem = [] ∧
    ((after (.nmuAbort 0 1 2 false) (unitAt .compute parOp)).nmu 1 2).st = .abort ∧
    ((after (.nmuAbort 0 1 2 false) (unitAt .compute parOp)).gov 1).abort = true ∧
    ((unitAt .drain parOp).nmu 1 2).st ≠ .compute ∧
    ((after (.nmuAbort 0 1 2 true) (unitAt .drain parOp)).nmu 1 2).st = .drain := by
  decide +kernel

/-- A node whose W-stack governor 0 is locked. -/
def govLocked : State := { up with hbm := { up.hbm with govs := [(0, ⟨8, 64, true, false, false⟩)] } }

/-- Composition 0 has ways 0 and 1 of quadrant 0, composition 1 is to have way 2. -/
def waysSet : State := { up with hbm := { up.hbm with ways := [(0, 3)], waysNext := [(1, 4)] } }

/-- R214, R219: limits of 8 units and 64 banks; way masks that overlap are refused. -/
theorem witness_hbm_register_writes :
    (up.gov 0).lock = false ∧
    ((after (.nmuGovWrite 0 0 0xFFFFFFFF) up).gov 0).maxnmu = 8 ∧
    ((after (.nmuGovWrite 0 0 0xFFFFFFFF) up).gov 0).maxbank = 64 ∧
    (govLocked.gov 0).lock = true ∧
    ((after (.nmuGovWrite 0 0 0) govLocked).gov 0).maxnmu = 8 ∧
    waysSet.hbm.wantWays 0 1 &&& BitVec.ofNat 16 (bitsOf (4 : BitVec 32).toNat 0 16) ≠ 0 ∧
    15 ∈ (after (.pcaWaymaskWrite 0 0 15 4) waysSet).hbm.wayErr ∧
    (∀ d : Nat, d < 16 → d ≠ 15 → waysSet.hbm.wantWays 0 d &&& BitVec.ofNat 16 (bitsOf (8 : BitVec 32).toNat 0 16) = 0) ∧
    look (after (.pcaWaymaskWrite 0 0 15 8) waysSet).hbm.waysNext 15 = some 8 ∧
    (after (.pcaWaymaskWrite 0 0 15 8) waysSet).hbm.ways = [(0, 3)] := by
  decide +kernel

/-- A node whose directory bank 2 of class 0 holds key 9. -/
def bankHolds : State := { up with hbm := { up.hbm with banks := [(2, { Bank.ofCfg 1 with entries := [(9, [1, 2])] })] } }

/-- Bank 15 takes key 9. -/
def bankTakes : State := { up with hbm := { up.hbm with banks := [(15, { Bank.ofCfg 6 with moves := [⟨true, 9, [1], none⟩] })] } }

/-- Bank 15 lets key 9 out. -/
def bankLets : State := { up with hbm := { up.hbm with banks := [(15, { Bank.ofCfg 6 with moves := [⟨false, 9, [], none⟩] })] } }

/-- R221: an empty bank takes width and class, a bank with entries only the lock. -/
theorem witness_bank_writes :
    (up.adirBank 15).lock = false ∧
    (up.adirBank 15).entries = [] ∧
    (up.adirBank 15).moves = [] ∧
    ((after (.adirBankcfgWrite 0 15 0x80000009) up).adirBank 15).cls = 2 ∧
    ((after (.adirBankcfgWrite 0 15 0x80000009) up).adirBank 15).lock = true ∧
    (bankHolds.adirBank 2).lock = false ∧
    (bankHolds.adirBank 2).entries ≠ [] ∧
    ((after (.adirBankcfgWrite 0 2 0x80000009) bankHolds).adirBank 2).cls = 0 ∧
    ((after (.adirBankcfgWrite 0 2 0x80000009) bankHolds).adirBank 2).lock = true := by
  decide +kernel

/-- R222 to R224: the first bank with the most room takes an insertion; a deletion is out at once. -/
theorem witness_directory_moves :
    bankHolds.adirEntry 0 8 = none ∧
    bankHolds.adirMoving 0 8 = false ∧
    bankHolds.adirBest 0 = some 0 ∧
    ((after (.directoryInsert 0 0 8 [3]) bankHolds).adirBank 0).moves = [⟨true, 8, [3], none⟩] ∧
    bankHolds.adirEntry 0 9 ≠ none ∧
    (after (.directoryInsert 0 0 9 [3]) bankHolds).hbm = bankHolds.hbm ∧
    bankHolds.adirWhere 0 8 = none ∧
    (after (.directoryDelete 0 0 8) bankHolds).hbm = bankHolds.hbm ∧
    bankHolds.adirWhere 0 9 = some 2 ∧
    look ((after (.directoryDelete 0 0 9) bankHolds).adirBank 2).entries 9 = none ∧
    ((after (.directoryDelete 0 0 9) bankHolds).adirBank 2).moves = [⟨false, 9, [], none⟩] ∧
    (bankTakes.adirBank 15).moves = [⟨true, 9, [1], none⟩] ∧
    look ((after (.blockMoveComplete 0 15) bankTakes).adirBank 15).entries 9 = some [1] ∧
    (bankLets.adirBank 15).moves = [⟨false, 9, [], none⟩] ∧
    ((after (.blockMoveComplete 0 15) bankLets).adirBank 15).moves = [] := by
  decide +kernel

/-- A node after fifteen temperature samples, at step 3. -/
def sampled : State := { up with hbm := { up.hbm with samples := 15, adirStep := 3 } }

/-- R230: the sixteenth sample takes the step of the temperature; before it the step is 3. -/
theorem witness_directory_throttle :
    15 ≤ sampled.hbm.samples ∧
    (after (.directoryThrottleSample 0 86) sampled).hbm.adirStep = 0 ∧
    (after (.directoryThrottleSample 0 95) sampled).hbm.adirStep = 2 ∧
    up.hbm.samples < 15 ∧
    (after (.directoryThrottleSample 0 86) up).hbm.adirStep = 3 := by
  decide +kernel

/-- The window registers of the PF: job 77, and an open window of 64 B at 1,024 with all rights. -/
def winRegs : WRegs := { WRegs.atReset with wjob := 77, v1 := 1024, v2 := 64, v3 := 0x13F, drained := true }

/-- A node whose directory holds window 16,383 of job 77, as given, and whose PF registers stand as given. -/
def windowed (w : Win) (r : WRegs) : State := { tenant with
  hbm := { tenant.hbm with banks := [(12, { Bank.ofCfg 6 with entries := [(winKey 77 16383, w.toUnits)] })] }
  rmo := { tenant.rmo with regs := [(0, r)] } }

/-- A closed window under generation 5. -/
def shutWin : Win := { Win.ofUnits [0, 0, 0] with wgen := 5 }

/-- An open window under generation 5. -/
def openWin : Win := { Win.ofUnits [1024, 64, 0x13F] with wgen := 5, isOpen := true }

/-- The registers with a command in progress. -/
def winBusy (op : Nat) : WRegs := { winRegs with busy := true, op, win := 16383, job := 77 }

/-- R301: each command that its checks allow goes busy. -/
theorem witness_window_commands :
    (windowed shutWin winRegs).ready = true ∧
    ((windowed shutWin winRegs).wregs 0).busy = false ∧
    (windowed shutWin winRegs).winJob 0 winRegs = 77 ∧
    (windowed shutWin winRegs).winCheck 0 1 77 winRegs 0 = .ok ∧
    ((after (.windowInsert 0 0 0) (windowed shutWin winRegs)).wregs 0).busy = true ∧
    ((after (.windowInsert 0 0 0) (windowed shutWin winRegs)).adirBank 13).moves.map (·.key) = [winKey 77 0] ∧
    (windowed shutWin winRegs).winCheck 0 2 77 winRegs 16383 = .ok ∧
    ((after (.windowRemove 0 0 16383) (windowed shutWin winRegs)).wregs 0).op = 2 ∧
    (windowed shutWin winRegs).winCheck 0 3 77 winRegs 16383 = .ok ∧
    ((after (.windowOpen 0 0 16383) (windowed shutWin winRegs)).wregs 0).op = 3 ∧
    (windowed openWin winRegs).winCheck 0 4 77 winRegs 16383 = .ok ∧
    ((after (.windowRevoke 0 0 16383) (windowed openWin winRegs)).wregs 0).op = 4 ∧
    (windowed openWin winRegs).winCheck 0 3 77 winRegs 16383 = .unsupported ∧
    ((after (.windowOpen 0 0 16383) (windowed openWin winRegs)).wregs 0).status = .unsupported ∧
    ((windowed openWin (winBusy 4)).wregs 0).busy = true ∧
    ((after (.windowOpen 0 0 16383) (windowed openWin (winBusy 4))).wregs 0).ign = true := by
  decide +kernel

/-- A function whose REVOKE waits for old operations, which have ended. -/
def notDrained : State :=
  let s := windowed shutWin { winRegs with drained := false }
  { s with rmo := { s.rmo with oldOps := [(0, [{ job := 77, win := 16383, ops := [(6, 1)], lines := [], node := 6, addr := 0 }])] } }

/-- R302, R303: the change in force, and the drained old generation. -/
theorem witness_window_changes :
    (windowed shutWin (winBusy 3)).win? 77 16383 = some shutWin ∧
    ((windowed shutWin (winBusy 3)).wregs 0).since + 1200 ≤ ((windowed shutWin (winBusy 3)).arrive 0).timer ∧
    ((after (.windowChangeInForce 0 0) (windowed shutWin (winBusy 3))).win? 77 16383).map (·.isOpen) = some true ∧
    ((after (.windowChangeInForce 0 0) (windowed shutWin (winBusy 3))).win? 77 16383).map (·.size) = some 64 ∧
    ((after (.windowChangeInForce 0 0) (windowed shutWin (winBusy 3))).wregs 0).wgen = 5 ∧
    (windowed openWin (winBusy 4)).win? 77 16383 = some openWin ∧
    lookD (windowed openWin (winBusy 4)).rmo.oldOps 0 [] = [] ∧
    (windowed openWin (winBusy 4)).isDrained ((windowed openWin (winBusy 4)).drainOf 77 16383 openWin) = true ∧
    ((after (.windowChangeInForce 0 0) (windowed openWin (winBusy 4))).wregs 0).drained = true ∧
    ((after (.windowChangeInForce 0 0) (windowed openWin (winBusy 4))).win? 77 16383).map (·.wgen) = some 6 ∧
    ((after (.windowChangeInForce 0 0) (windowed openWin (winBusy 4))).wregs 0).drained = true ∧
    (notDrained.wregs 0).drained = false ∧
    lookD notDrained.rmo.oldOps 0 [] ≠ [] ∧
    (∀ d ∈ lookD notDrained.rmo.oldOps 0 [], notDrained.isDrained d = true) ∧
    ((windowed openWin { winBusy 4 with since := 999999 }).arrive 0).timer < ((windowed openWin { winBusy 4 with since := 999999 }).wregs 0).since + 1200 ∧
    ((after (.windowChangeInForce 0 0) (windowed openWin { winBusy 4 with since := 999999 })).wregs 0).busy = true ∧
    ((after (.windowDrained 0 0) notDrained).wregs 0).drained = true := by
  decide +kernel

/-- The PF registers hold a connection of job 77 to node 6, index 8,191. -/
def connecting : State := { tenant with rmo := { tenant.rmo with regs := [(0, { WRegs.atReset with cval := 0x8000004D1FFF0006 })] } }

/-- The same node with a message of entry 8,191 outstanding. -/
def connBusy : State := { connecting with rmo := { connecting.rmo with send := [(8191, { SendEnt.off with
  valid := true, fdest := 6, outst := [⟨1, { aMsg with cseq := some 1 }, 64, 0⟩], obytes := 64 })] } }

/-- R305: a write with GO sets the entry, unless a message of it is in flight; without GO it selects. -/
theorem witness_connection_writes :
    connecting.ready = true ∧
    bitAt (0x31FFF : BitVec 32).toNat 16 = true ∧
    bitAt (0x31FFF : BitVec 32).toNat 17 = true ∧
    (connecting.sendEnt 8191).busy = false ∧
    connecting.queued 8191 = [] ∧
    (connecting.sendEnt 8191).wroteGen ≠ some (connecting.jobGen 77).1 ∧
    (after (.connectionWrite 0 0 0x31FFF) connecting).sendEnt 8191 = { SendEnt.off with fdest := 6, rcid := 8191, job := 77, valid := true, cwnd := 262144, wroteGen := some 1 } ∧
    (connBusy.sendEnt 8191).busy = true ∧
    ((after (.connectionWrite 0 0 0x31FFF) connBusy).wregs 0).cstat = .busyConflict ∧
    ((after (.connectionWrite 0 0 0x11FFF) connecting).wregs 0).cidx = 8191 ∧
    ((after (.connectionWrite 0 0 0x11FFF) connecting).wregs 0).cside = true ∧
    8192 ≤ bitsOf (0x32000 : BitVec 32).toNat 0 16 ∧
    ((after (.connectionWrite 0 0 0x32000) connecting).wregs 0).cstat = .unsupported ∧
    bitAt (0x21FFF : BitVec 32).toNat 16 = false ∧
    connecting.rmo.reasm = [] ∧
    (connecting.recvEnt 0x1FFF).wroteGen ≠ some (connecting.jobGen 77).1 ∧
    (after (.connectionWrite 0 0 0x21FFF) connecting).recvEnt 0x1FFF = { RecvEnt.off with osrc := 6, conn := 0x1FFF, job := 77, valid := true, wroteGen := some 1 } ∧
    ((after (.connectionWrite 0 3 0x31FFF) connecting).wregs 3).cstat = .accessDenied := by
  decide +kernel


/-! ### Contexts and streams -/

/-- CTX_CREATE of context 10: one layer and group of BF16 streams of width 16. -/
def createOp : CtxReq := { ctxOp 1 1 (16 + 16 * 65536) 0x11 0 [] with ctx := 10 }

/-- R64, R84: a context of an allowed geometry is entered empty. -/
theorem witness_ctx_create :
    OpTaken ((holding (aStrm 0 0 0)).arrive 0) bell 1 createOp 77 1 comp77 ∧
    ((holding (aStrm 0 0 0)).arrive 0).ctx? 77 10 = none ∧
    ((holding (aStrm 0 0 0)).arrive 0).rq.corpora = [] ∧
    geometryOk (geometry createOp).1 (geometry createOp).2.2 = true ∧
    (((holding (aStrm 0 0 0)).arrive 0).allocPcs 1).any isW = true ∧
    ((holding (aStrm 0 0 0)).arrive 0).adirBest 0 ≠ none ∧
    ((holding (aStrm 0 0 0)).arrive 0).keyTaken 0 (ctxKey 77 10) = false ∧
    (after (.ctxCreate 0 bell createOp) (holding (aStrm 0 0 0))).pg.ctxs.map (·.ctx) = [8, 10] ∧
    ((after (.ctxCreate 0 bell createOp) (holding (aStrm 0 0 0))).strm? 77 10 0).map (·.dk) = some 16 :=
  ⟨by constructor <;> decide +kernel, by decide +kernel⟩

/-- R65, R84: a width of 15, and a name that the directory holds, are refused and no context is entered. -/
theorem test_ctx_create_width :
    geometryOk (geometry { createOp with arg1 := 15 + 16 * 65536 }).1 (geometry { createOp with arg1 := 15 + 16 * 65536 }).2.2 = false ∧
    (after (.ctxCreate 0 bell { createOp with arg1 := 15 + 16 * 65536 }) (holding (aStrm 0 0 0))).pg.ctxs.map (·.ctx) = [8] ∧
    ((holding (aStrm 0 0 0)).arrive 0).keyTaken 0 (ctxKey 77 9) = true ∧
    (after (.ctxCreate 0 bell { createOp with ctx := 9 }) (holding (aStrm 0 0 0))).pg.ctxs.map (·.ctx) = [8] := by
  decide +kernel

/-- CTX_FORK of context 8 at token 17 into context 10. -/
def forkOp : CtxReq := { ctxOp 2 8 17 0 0 [] with ctx := 10 }

/-- R95: the child has the parent's geometry, its page and the one token of its line. -/
theorem witness_ctx_fork :
    OpTaken ((paged 2).arrive 0) bell 2 forkOp 77 1 comp77 ∧
    ((paged 2).arrive 0).forkRefusal bell 77 1 forkOp = none ∧
    (((paged 2).arrive 0).ctx? 77 8).map (·.seed) = some 3 ∧
    ((paged 2).arrive 0).forkRefusal bell 77 1 { forkOp with arg1 := 19 } = some .unsupported ∧
    (after (.ctxFork 0 bell { forkOp with arg1 := 19 }) (paged 2)).pg.ctxs.map (·.ctx) = [8] :=
  ⟨by constructor <;> decide +kernel, by decide +kernel⟩

/-- R98: a deleted context of the composition is gone. -/
theorem witness_ctx_delete :
    OpTaken ((paged 2).arrive 0) bell 3 (ctxOp 3 0 0 0 0 []) 77 1 comp77 ∧
    (((paged 2).arrive 0).ctxFound 77 8).map (·.comp) = some 1 ∧
    (after (.ctxDelete 0 bell (ctxOp 3 0 0 0 0 [])) (paged 2)).pg.ctxs = [] ∧
    ((paged 2).arrive 0).ctxFound 77 9 = none ∧
    (after (.ctxDelete 0 bell { ctxOp 3 0 0 0 0 [] with ctx := 9 }) (paged 2)).pg.ctxs.map (·.ctx) = [8] :=
  ⟨by constructor <;> decide +kernel, by decide +kernel⟩

/-- An append of 32 tokens to a line of 32. -/
def appendOp : CtxReq := ctxOp 4 48 0 0 5 (List.replicate 32 (aToken 0x4000))

/-- R88: 32 tokens fill the line of 64, committed. -/
theorem witness_silt_append :
    OpTaken ((holding (aStrm 16 32 32)).arrive 0) bell 4 appendOp 77 1 comp77 ∧
    (((holding (aStrm 16 32 32)).arrive 0).ctxFound 77 8).map (·.comp) = some 1 ∧
    (((holding (aStrm 16 32 32)).arrive 0).admission { cls := 3, comp := 1, bytes := 64 } none).slot = none ∧
    ((holding (aStrm 16 32 32)).arrive 0).bestEffort = true ∧
    ((holding (aStrm 16 32 32)).arrive 0).slack 1 3 1 (ticksUp (((holding (aStrm 16 32 32)).arrive 0).boundNs { cls := 3, comp := 1, bytes := 64 } 1 0)) = true ∧
    (aCtx (aStrm 16 32 32)).strm? 0 = some (aStrm 16 32 32) ∧
    (aStrm 16 32 32).append appendOp = .inr { aStrm 16 32 32 with toks := (aStrm 16 32 32).toks ++ appendOp.toks, commit := 64, appseq := 5 } ∧
    ((holding (aStrm 16 32 32)).arrive 0).parsed 77 appendOp = appendOp ∧
    ((holding (aStrm 16 32 32)).arrive 0).settleSeen (aCtx (aStrm 16 32 32)) (aStrm 16 32 32) appendOp = false ∧
    ((aStrm 16 32 32).toks ++ appendOp.toks).length ≤ 64 ∧
    ((holding (aStrm 16 32 32)).arrive 0).flushing 0 = false ∧
    ((after (.siltAppend 0 bell appendOp) (holding (aStrm 16 32 32))).strm? 77 8 0).map (·.commit) = some 64 ∧
    ((after (.siltAppend 0 bell appendOp) (holding (aStrm 16 32 32))).strm? 77 8 0).map (·.appseq) = some 5 :=
  ⟨by constructor <;> decide +kernel, by decide +kernel⟩

/-- A node whose SILT_FLUSH slot 4,095 on tile 0 has started. -/
def flushes : State := let s := holding (aStrm 16 32 32)
  { s with sch := { s.sch with act0 := 4096, runs := [⟨4095, true, 0, 0, false, 0, 0, false, false, 0⟩], bank0 := [(4095,
    { start := 10, layer := 2, any := false, valid := true, opclass := 4, comp := 1, fmt := 0, span := 100, tiles := 1, ports := 0, reqs := 1, rows := 0
      sketch := 0, dhead := 0, pages := 1, grains := 0, bytes := 0 })] } }

/-- R88: an append beyond the line's 64 tokens is refused, and one at a tile whose flush runs waits. -/
theorem witness_silt_append_refused :
    (aStrm 16 32 32).append { appendOp with arg0 := 2 ^ 32 - 1 } = .inl .unsupported ∧
    (after (.siltAppend 0 bell { appendOp with arg0 := 2 ^ 32 - 1 }) (holding (aStrm 16 32 32))).pg.ctxs = (holding (aStrm 16 32 32)).pg.ctxs ∧
    (flushes.arrive 0).flushing 0 = true ∧
    (after (.siltAppend 0 bell appendOp) flushes).pg.opq.map (·.req.arg3) = [5] ∧
    (after (.siltAppend 0 bell appendOp) flushes).pg.ctxs = flushes.pg.ctxs := by
  decide +kernel

/-- R88: an append with the sequence of the last one changes nothing. -/
theorem test_silt_append_duplicate :
    ((after (.siltAppend 0 bell { appendOp with arg3 := 4 }) (holding (aStrm 16 32 32))).strm? 77 8 0).map (·.commit) = some 32 := by
  decide +kernel

/-- PAGE_MARK of page 0: set TOMB, clear SPIN. -/
def markOp : CtxReq := ctxOp 5 0 1 0x201 0 []

/-- R99: TOMB is set and SPIN clear in the range. -/
theorem witness_page_mark :
    OpTaken ((paged 2).arrive 0) bell 5 markOp 77 1 comp77 ∧
    markOp.arg0 + markOp.arg1 ≤ ({ aStrm 16 2 2 with npages := 1, pages := [aPage] } : Strm).npages ∧
    (paged 2).pg.fwd = [] ∧
    (paged 2).cmp.hand = none ∧
    ((after (.pageMark 0 bell markOp) (paged 2)).page? 77 8 0 0).map (·.desc.tomb) = some true ∧
    ((after (.pageMark 0 bell markOp) (paged 2)).page? 77 8 0 0).map (·.desc.spin) = some false :=
  ⟨by constructor <;> decide +kernel, by decide +kernel⟩

/-- Nothing is moved or handed over where the forward table and the handoff are empty. -/
theorem witness_page_mark_free : (∀ p, ((paged 2).arrive 0).movedTo bell 77 8 0 p = none) ∧ (∀ p, ((paged 2).arrive 0).handing 77 8 0 p = false) :=
  ⟨fun _ => rfl, fun _ => rfl⟩

/-- PAGE_REWRITE of page 0 under generation 6. -/
def rewriteOp : CtxReq := ctxOp 6 0 6 0 0 (List.replicate 16 (aToken 0x4000))

/-- R97: a rewrite under the page's generation leaves a valid page. -/
theorem witness_page_rewrite :
    OpTaken ((paged 2).arrive 0) bell 6 rewriteOp 77 1 comp77 ∧
    (((paged 2).arrive 0).parsed 77 rewriteOp).toks.length = 16 ∧
    ((paged 2).arrive 0).scanPending 77 8 0 0 = false ∧
    ((paged 2).arrive 0).movedTo bell 77 8 0 0 = none ∧
    ((paged 2).arrive 0).handing 77 8 0 0 = false ∧
    aPage.desc.borrowed = false ∧
    rewriteOp.arg1 % 4096 = aPage.desc.gen ∧
    ((after (.pageRewrite 0 bell rewriteOp) (paged 2)).page? 77 8 0 0).map (·.desc.valid) = some true :=
  ⟨by constructor <;> decide +kernel, by decide +kernel⟩

/-- A stream with a sealed page whose tokens wait for request 7. -/
def releasing : State := holding { aStrm 16 20 20 with rel := [⟨0, [7]⟩] }

/-- R94: with no request of the seal dispatched, 16 tokens leave the line. -/
theorem witness_silt_release :
    (∀ d ∈ releasing.pg.ctxs, d.ctx = 8 → d = aCtx { aStrm 16 20 20 with rel := [⟨0, [7]⟩] }) ∧
    (releasing.arrive 0).dispatched.contains 7 = false ∧
    ((after (.siltRelease 0 8 0) releasing).strm? 77 8 0).map (·.base) = some 32 ∧
    ((after (.siltRelease 0 8 0) releasing).strm? 77 8 0).map (·.toks.length) = some 4 := by
  decide +kernel

/-- The append that waits at the head of tile 0. -/
def lateOp : PendOp :=
  { tile := 0, src := bell, req := appendOp, queue := none, late := true, slot := none, limit := 0, breach := none, arrive := 0, since := 0, formula := 0 }

/-- A node where it waits, and now fits. -/
def waiting : State := let s := holding (aStrm 16 32 32); { s with pg := { s.pg with opq := [lateOp] } }

/-- R89: an append that waited and fits is applied. -/
theorem witness_append_after_release :
    waiting.pg.opq = [lateOp] ∧
    (waiting.arrive 0).sourceOf lateOp.src = (77, 1) ∧
    (waiting.arrive 0).opTurn lateOp = true ∧
    (waiting.arrive 0).parsed 77 appendOp = appendOp ∧
    (waiting.arrive 0).settleSeen (aCtx (aStrm 16 32 32)) (aStrm 16 32 32) appendOp = false ∧
    (after (.appendAfterRelease 0 8 0) waiting).pg.opq = [] ∧
    ((after (.appendAfterRelease 0 8 0) waiting).strm? 77 8 0).map (·.commit) = some 64 := by
  decide +kernel

/-- A node with two appends that wait for their mirror acknowledgements, of which `n` and one message are outstanding. -/
def mirrored (n : Nat) : State := let s := holding (aStrm 16 32 32)
  let m : Mirr := { id := 1, comp := 1, ctx := 8, stream := 0, op := lateOp, bytes := [], left := n, sent := true }
  { s with pg := { s.pg with mirr := [m, { m with id := 2, left := 1 }] } }

/-- R90: the acknowledgement of an arrived write ends the oldest waiting append, and no other. -/
theorem witness_silt_mirror_ack :
    ((mirrored 0).pg.mirr.find? fun m => m.ctx == 8 && m.stream == 0).map (fun m => (m.id, m.sent, m.left)) = some (1, true, 0) ∧
    (after (.siltMirrorAck 0 8 0) (mirrored 0)).pg.mirr.map (·.id) = [2] ∧
    ((mirrored 1).pg.mirr.find? fun m => m.ctx == 8 && m.stream == 0).map (fun m => (m.id, m.sent, m.left)) = some (1, true, 1) ∧
    (after (.siltMirrorAck 0 8 0) (mirrored 1)).pg = (mirrored 1).pg := by
  decide +kernel

/-! ### Remote operations -/

/-- Window 3 of job 77: 4,096 B at 0x10000 with every right, under generation 5. -/
def farWin : Win := { Win.ofUnits [0x10000, 4096, 0x13F] with wgen := 5, isOpen := true }

/-- A node with that window, receive entry 65,535 for connection 5 of node 6, and some bytes in place. -/
def target : State := { tenant with
  hbm := { tenant.hbm with banks := [(12, { Bank.ofCfg 6 with entries := [(winKey 77 3, farWin.toUnits)] })] }
  rmo := { tenant.rmo with recv := [(65535, { RecvEnt.off with osrc := 6, conn := 5, job := 77, valid := true })] }
  mem := [(0x10010, 0xFF), (0x10011, 2)] }

/-- A message of one segment to offset `addr` of the window. -/
def seg (opc addr : Nat) (data : List Byte) : Segment :=
  { vl := 1, opc, flag := false, ce := false, dom := false, conn := 5, job := 77, osrc := 6, fdest := 5, rcid := 65535, kgen := 1, cseq := 1
    mlen := data.length, off := 0, win := 3, wgen := 5, epoch := 0, slen := data.length, mtag := 9, addr, data }

/-- A READ of two bytes at 0x10. -/
def readSeg : Segment := seg 1 0x10 [2, 0, 0, 0, 0, 0, 0, 0]

/-- A WRITE of two bytes at the end of the window. -/
def writeSeg : Segment := seg 2 4094 [7, 8]

/-- A CMD of 64 bytes at 64. -/
def cmdSeg : Segment := seg 8 64 (List.replicate 64 3)

/-- R298, R314, R315: a READ answers the bytes, a WRITE stores them up to the end of the window, a CMD hands over. -/
theorem witness_read_write_cmd :
    SegmentPasses (target.arrive 0).forceDue 1 readSeg farWin ∧
    SegmentPasses (target.arrive 0).forceDue 2 writeSeg farWin ∧
    SegmentPasses (target.arrive 0).forceDue 8 cmdSeg farWin ∧
    target.rmo.alines = [] ∧
    target.rmo.ords = [] ∧
    (after (.read 0 true readSeg) target).out = [.response 6 65535 5 1 .ok none false [0xFF, 2]] ∧
    Memory.read (after (.write 0 true writeSeg) target).mem 0x10FFF = 8 ∧
    (after (.write 0 true writeSeg) target).out = [.response 6 65535 5 1 .ok none false []] ∧
    (after (.cmd 0 true cmdSeg) target).rq.intake = [(3, List.replicate 64 3)] ∧
    ((after (.write 0 true writeSeg) target).recvEnt 65535).h = 1 :=
  ⟨by constructor <;> decide +kernel, by constructor <;> decide +kernel, by constructor <;> decide +kernel, by decide +kernel⟩

/-- R311: one byte past the window is refused and nothing is stored. -/
theorem test_write_beyond_the_window :
    (after (.write 0 true { writeSeg with addr := 4095 }) target).mem = target.mem ∧
    (after (.write 0 true { writeSeg with addr := 4095 }) target).out = [.response 6 65535 5 1 .unsupported none false []] := by
  decide +kernel

/-- The lines of the atomic unit: the first 24 bytes of each, from byte 16 on, and its dirty bit. -/
def unitLine (s : State) : List (Nat × List Byte × Bool) := s.rmo.alines.map fun y => (y.line, (y.data.drop 16).take 8, y.dirty)

/-- R299, R318: 0x02FF + 1 is 0x0300 in the unit; memory waits. XOR acts on each byte of a whole line. -/
theorem witness_add64_xor :
    SegmentPasses (target.arrive 0).forceDue 3 (seg 3 0x10 [1, 0, 0, 0, 0, 0, 0, 0]) farWin ∧
    SegmentPasses (target.arrive 0).forceDue 5 (seg 5 0 (List.replicate 64 0xF0)) farWin ∧
    (farWin.base + 0x10) % 64 + segSpan (seg 3 0x10 [1, 0, 0, 0, 0, 0, 0, 0]) ≤ 64 ∧
    (farWin.base + 0) % 64 + segSpan (seg 5 0 (List.replicate 64 0xF0)) ≤ 64 ∧
    unitLine (after (.add64 0 true (seg 3 0x10 [1, 0, 0, 0, 0, 0, 0, 0])) target) = [(0x400, [0, 3, 0, 0, 0, 0, 0, 0], true)] ∧
    (after (.add64 0 true (seg 3 0x10 [1, 0, 0, 0, 0, 0, 0, 0])) target).mem = target.mem ∧
    unitLine (after (.xor 0 true (seg 5 0 (List.replicate 64 0xF0))) target) = [(0x400, [0x0F, 0xF2, 0xF0, 0xF0, 0xF0, 0xF0, 0xF0, 0xF0], true)] :=
  ⟨by constructor <;> decide +kernel, by constructor <;> decide +kernel, by decide +kernel⟩

/-- The target with 1.0 in FP32 at 0x10010. -/
def floats : State := { target with mem := [(0x10012, 0x80), (0x10013, 0x3F)] }

/-- R299: 1.0 + 2.0 is 3.0, 0x4040_0000. -/
theorem witness_addf32 :
    SegmentPasses (floats.arrive 0).forceDue 4 (seg 4 0x10 [0, 0, 0, 0x40]) farWin ∧
    (farWin.base + 0x10) % 64 + segSpan (seg 4 0x10 [0, 0, 0, 0x40]) ≤ 64 ∧
    unitLine (after (.addf32 0 true (seg 4 0x10 [0, 0, 0, 0x40])) floats) = [(0x400, [0, 0, 0x40, 0x40, 0, 0, 0, 0], true)] :=
  ⟨by constructor <;> decide +kernel, by decide +kernel⟩

/-- CAS64 at 0x10: compare 0x02FF, swap 5. -/
def casSeg : Segment := seg 6 0x10 [0xFF, 2, 0, 0, 0, 0, 0, 0, 5, 0, 0, 0, 0, 0, 0, 0]

/-- CAS128 at 0x10: compare 0, swap 5. -/
def cas128Seg : Segment := seg 7 0x10 (List.replicate 16 0 ++ 5 :: List.replicate 15 0)

/-- R299: the swap happens where the old value equals the compare value. -/
theorem witness_cas :
    SegmentPasses (target.arrive 0).forceDue 6 casSeg farWin ∧
    SegmentPasses (target.arrive 0).forceDue 7 cas128Seg farWin ∧
    (farWin.base + 0x10) % 64 + segSpan casSeg ≤ 64 ∧
    (farWin.base + 0x10) % 64 + segSpan cas128Seg ≤ 64 ∧
    unitLine (after (.cas64 0 true casSeg) target) = [(0x400, [5, 0, 0, 0, 0, 0, 0, 0], true)] ∧
    unitLine (after (.cas128 0 true cas128Seg) target) = [(0x400, [0xFF, 2, 0, 0, 0, 0, 0, 0], false)] :=
  ⟨by constructor <;> decide +kernel, by constructor <;> decide +kernel, by decide +kernel⟩

/-- An incomplete message of two segments. -/
def halfMsg : Reasm := { rcid := 65535, cseq := 1, seg := { writeSeg with mlen := 8000, data := [] }, offs := [0], since := 0, whole := false, bytes := [] }

/-- A complete ADD64 message with FLAG. -/
def flagMsg : Reasm :=
  { rcid := 65535, cseq := 1, seg := { seg 3 0x10 [1, 0, 0, 0, 0, 0, 0, 0] with flag := true, data := [] }, offs := [0], since := 0, whole := true
    bytes := [(0, [1, 0, 0, 0, 0, 0, 0, 0])] }

/-- The target with a message context, at a time. -/
def holdingMsg (c : Reasm) (t : Nat) : State := { target with timer := t, rmo := { target.rmo with reasm := [c] } }

/-- R313, R317: REPLAY after 10 µs incomplete or after more than 100 µs held; a released atomic is applied. -/
theorem witness_reassembly_and_flags :
    (holdingMsg halfMsg 40000).reasm? 65535 1 = some halfMsg ∧
    halfMsg.since + (holdingMsg halfMsg 40000).pdNum 0x4101 0 * us ≤ ((holdingMsg halfMsg 40000).arrive 0).timer ∧
    (after (.reassemblyTimeout 0 65535 1) (holdingMsg halfMsg 40000)).rmo.reasm = [] ∧
    (after (.reassemblyTimeout 0 65535 1) (holdingMsg halfMsg 39999)).rmo.reasm = [halfMsg] ∧
    (holdingMsg flagMsg 400001).reasm? 65535 1 = some flagMsg ∧
    flagMsg.since + (holdingMsg flagMsg 0).pdNum 0x4101 3 * us < ((holdingMsg flagMsg 400001).arrive 0).timer ∧
    (after (.flagHoldTimeout 0 65535 1) (holdingMsg flagMsg 400001)).rmo.reasm = [] ∧
    (after (.flagHoldTimeout 0 65535 1) (holdingMsg flagMsg 400000)).rmo.reasm = [flagMsg] ∧
    ((holdingMsg flagMsg 0).recvEnt 65535).earlierDone 1 = true ∧
    ((holdingMsg flagMsg 0).arrive 0).forceDue.lateChecks flagMsg.seg = .pass farWin ∧
    (after (.flagRelease 0 65535 1) (holdingMsg flagMsg 0)).rmo.reasm = [] ∧
    ((after (.flagRelease 0 65535 1) (holdingMsg flagMsg 0)).recvEnt 65535).h = 1 := by
  decide +kernel

/-- R305: a receive entry with a message under way stays. -/
theorem test_connection_receive_busy :
    (∃ m ∈ (holdingMsg halfMsg 0).rmo.reasm, m.rcid = 65535) ∧
    ((after (.connectionWrite 0 0 0x2FFFF) (holdingMsg halfMsg 0)).wregs 0).cstat = .busyConflict := by
  decide +kernel

/-- A changed line. -/
def aLine : ALine := { line := 0x400, data := List.replicate 64 6, last := 996000, dirty := true }

/-- The target with that line in its atomic unit. -/
def lined : State := { target with rmo := { target.rmo with alines := [aLine] } }

/-- A line that was hot in the interval that ended at 999000. -/
def hotNow : Hot := { line := 0x400, ops := [], hotTo := some 999000, told := none, event := none, win := 3, node := 6, addr := 0 }

/-- The same while the bank of the line is being refreshed. -/
def cooling : State := { lined with hbm := { lined.hbm with
  arbs := [(pcOf 0x10000, { Arb.idle with refreshing := [(bankOf 0x10000, 2000000)] })] } }

/-- The target with that rate. -/
def hotted : State := { target with rmo := { target.rmo with hots := [hotNow] } }

/-- R319, R320: write-back and eviction after 1 µs store the line; a hot line is held. -/
theorem witness_atomic_lines :
    lined.rmo.aresp = [] ∧
    (lined.arrive 0).lineWaits 0x400 = false ∧
    (cooling.arrive 0).lineWaits 0x400 = true ∧
    (after (.atomicWriteback 0 0x400) cooling).rmo.alines = [aLine] ∧
    Memory.read (after (.atomicWriteback 0 0x400) lined).mem 0x1003F = 6 ∧
    (after (.atomicWriteback 0 0x400) lined).rmo.alines = [{ aLine with dirty := false }] ∧
    aLine.last + us ≤ (lined.arrive 0).timer ∧
    (after (.hotLineEvict 0 0x400) lined).rmo.alines = [] ∧
    Memory.read (after (.hotLineEvict 0 0x400) lined).mem 0x10000 = 6 ∧
    hotNow.hotTo = some 999000 ∧
    (∀ n, hotNow.told = some n → n + us ≤ 999000) ∧
    (after (.hotLine 0 0x400) hotted).rmo.hots.map (·.told) = [some 999000] ∧
    (after (.hotLine 0 0x400) hotted).heldLine 0x400 = true := by
  decide +kernel

/-- A message outstanding on connection 8,191. -/
def anOutst : Outst := { cseq := 4, msg := { aMsg with cseq := some 4, resends := 3 }, bytes := 64, sentAt := 840000 }

/-- A node of the group 0 to 8 whose connection 8,191 to node 6 has it outstanding. -/
def sending : State := withPd { tenant with
  rmo := { tenant.rmo with send := [(8191, { SendEnt.off with fdest := 6, rcid := 2, job := 77, valid := true, outst := [anOutst], obytes := 64 })] } }
  0x4003 0 [0, 0, 9, 0]

/-- A response to it. -/
def okResp : Response := { osrc := 6, fdest := 5, rcid := 2, conn := 8191, cseq := 4, status := .ok, hint := none, ce := false, data := [], job := 77, kgen := 1, win := 3, wgen := 1 }

/-- A converted message of a gateway. -/
def gwMsg : GwMsg := { seg := writeSeg, group := 0, resends := 3, sentAt := 0, packed := false, since := 0 }

/-- A gateway that has sent it. -/
def gateway : State := { up with timer := 40000000, rmo := { up.rmo with gw := [gwMsg] } }

/-- R307, R308, R325: a response ends the message; after 40 µs it is sent again, the fourth time at most. -/
theorem witness_responses :
    (sending.sendEnt 8191).outst = [anOutst] ∧
    okResp.fdest = sending.nodeId ∧
    sending.respFine { okResp with rd := false } = true ∧
    sending.respFine { okResp with status := .ok, rd := true, data := [1] } = true ∧
    sending.genOk okResp.job okResp.kgen = true ∧
    anOutst.msg.prod = .result 1 ∧
    ((after (.resp 0 true okResp) sending).sendEnt 8191).outst = [] ∧
    ((after (.readData 0 true { okResp with data := [1] }) sending).sendEnt 8191).outst = [] ∧
    anOutst.msg.resends < sending.pdNum 0x4101 2 ∧
    sending.inGroup (sending.sendEnt 8191).fdest = true ∧
    anOutst.sentAt + sending.pdNum 0x4101 1 * us ≤ (sending.arrive 0).timer ∧
    (sending.queue 8191).waiting = [] ∧
    ((after (.respTimeout 0 8191 4) sending).queue 8191).waiting.map (·.resends) = [4] ∧
    gateway.ready = true ∧
    gwMsg.sentAt + gateway.pdNum 0x4121 0 * us ≤ (gateway.arrive 0).timer ∧
    gwMsg.resends < gateway.pdNum 0x4101 2 ∧
    (after (.gatewayResendTimeout 0 5 1) gateway).rmo.gw.map (·.packed) = [true] := by
  decide +kernel

/-! ### Egress queues and DMA -/

/-- EGQ_CFG: composition 1, ports 0xFF, rate 2^21 - 1, burst 2^24 - 1, off. -/
def cfgOff : State := { tenant with egq := { tenant.egq with cfg := 0xFFFFFF1FFFFFFF10 } }

/-- The same switched on, where the send entry of the queue is not valid. -/
def cfgOn : State := { tenant with egq := { tenant.egq with cfg := 0xFFFFFF1FFFFFFF11 } }

/-- R335, R336: WRITE with EN 0 stores the configuration; with EN 1 on an invalid entry it is refused; READ shows it. -/
theorem witness_egress_commands :
    bitAt cfgOff.egq.cfg.toNat 0 = false ∧
    (cfgOff.queue 8191).waiting = [] ∧
    (cfgOff.sendEnt 8191).outst = [] ∧
    ((after (.egqWrite 0 8191) cfgOff).queue 8191).rate = 2 ^ 21 - 1 ∧
    ((after (.egqWrite 0 8191) cfgOff).queue 8191).burst = 2 ^ 24 - 1 ∧
    bitAt cfgOn.egq.cfg.toNat 0 = true ∧
    (cfgOn.arrive 0).egqRefusal 8191 (((cfgOn.queue 8191).settle (cfgOn.arrive 0).timer).configure cfgOn.egq.cfg.toNat) = some .unsupported ∧
    (after (.egqWrite 0 8191) cfgOn).egq.qs = [] ∧
    (after (.egqWrite 0 8191) cfgOn).egq.cmdStat = .unsupported ∧
    (after (.egqRead 0 8191) cfgOn).egq.cmdStat = .ok ∧
    ({ Queue.off with unshaped := true, tokens := -1 } : Queue).unshaped = true ∧
    ({ Queue.off with unshaped := true, tokens := -1 } : Queue).paid aMsg = true := by
  decide +kernel

/-- Port 7, up, with 8 flits of each lane at the far side. -/
def upPort : Port := { Port.atReset with en := true, st := .up, lanes := 0 }

/-- A node of the group 0 to 8 that reaches node 6 by port 7, with a management message to it and a message of queue 0. -/
def sender : State :=
  let s := withPd (withPd sending 0x4004 0 [0, 0, 0, 0, 0, 0, 0x80, 0, 0]) 0x4002 7 [8, 0, 8, 0, 8, 0, 8, 0, 8, 0, 8, 0, 8, 0, 8, 0]
  { s with
    lnk := { ports := [(7, upPort)], mgmtIn := [], mgmtOut := [(6, [1, 2, 3])], mgmtSpill := [], pkts := [], fallowFrom := none, fallowTo := none }
    rmo := { s.rmo with send := [(0, { SendEnt.off with fdest := 6, rcid := 2, job := 77, valid := true, cwnd := 262144 })] }
    egq := { s.egq with qs := [(0, { Queue.off with en := true, comp := 1, ports := 0xFF, rate := 100, waiting := [aMsg] })] } }

/-- A response to node 6 that waits for a port. -/
def aReply : LinkPkt :=
  { vl := 5, seg := { seg 0x10 0 [] with vl := 5, fdest := 6, osrc := 5, rcid := 2 }, high := 0, ord := 0, raw := false }

/-- The node with that response. -/
def answering : State := { sender with lnk := { sender.lnk with pkts := [aReply] } }

/-- R276, R333: a management message leaves on VL6, a packet of the eligible queue on its lane. -/
theorem witness_packets :
    sender.ready = true ∧
    (sender.port 7).carries 6 = true ∧
    sender.credits 7 6 ≠ 0 ∧
    (∀ f ∈ (sender.port 7).tx, f.vl ≠ 6) ∧
    sender.lnk.mgmtOut.find? (fun m => sender.bestPort 6 (portList (sender.routeMask m.1)) == some 7) = some (6, [1, 2, 3]) ∧
    (after (.packetStart 0 7 6) sender).lnk.mgmtOut = [] ∧
    (sender.port 7).carries 0 = true ∧
    sender.credits 7 0 ≠ 0 ∧
    sender.sends = true ∧
    (sender.arrive 0).nextPkt 7 0 = none ∧
    ((sender.arrive 0).dropUnsendable.noteAll.nextQueue 7 0).map (·.1) = some 0 ∧
    (((sender.arrive 0).dropUnsendable.noteAll.nextQueue 7 0).bind (·.2.waiting.head?)).isSome = true ∧
    ((after (.packetStart 0 7 0) sender).sendEnt 0).outst.map (·.cseq) = [1] ∧
    (answering.arrive 0).nextPkt 7 5 = some aReply ∧
    answering.sends = true ∧
    (answering.port 7).carries 5 = true ∧
    answering.credits 7 5 ≠ 0 ∧
    (after (.packetStart 0 7 5) answering).lnk.pkts = [] ∧
    (after (.packetStart 0 7 6) { sender with lnk := { sender.lnk with mgmtSpill := [(6, [4])] } }).lnk.mgmtOut = [(6, [4])] := by
  decide +kernel

/-- R342: a round that is due at the next interval is noted and raises vector 3. -/
theorem witness_sample_round :
    sender.egq.sampAt + 16 * sender.pdNum 0x4220 3 ≤ (sender.arrive (16 * sender.pdNum 0x4220 3)).timer ∧
    (after (.sampleRound (16 * sender.pdNum 0x4220 3)) sender).egq.sampAt = 16 * sender.pdNum 0x4220 3 ∧
    (after (.sampleRound (16 * sender.pdNum 0x4220 3)) sender).out = [.msix 0 3] := by
  decide +kernel

/-- A local copy of two bytes from 0x8_0002_0000 to 0x8_0003_0000. -/
def copy : Dma := { Dma.off with srcA := 0x800020000, dstA := 0x800030000, count := 2, tch := 1 }

/-- A node whose channel 127 is the Operator's and stands as given. -/
def dmaAt (d : Dma) : State :=
  let s := withPd tenant 0x4301 127 [0x10]
  { s with egq := { s.egq with dma := [(127, d)] }, mem := [(0x800020000, 5), (0x800020001, 6)] }

/-- R343 to R345: a checked local transfer runs; a clashing one is refused. -/
theorem witness_dma_start :
    (dmaAt copy).ready = true ∧
    (dmaAt copy).dmaOwns 0 127 = true ∧
    ((dmaAt copy).arrive 0).dmaRefusal 127 (((dmaAt copy).dma 127).setCtl ((0x100 : BitVec 64) ||| 1).toNat) = none ∧
    ((after (.dmaStart 0 127 0 0x100) (dmaAt copy)).dma 127).st = .running ∧
    (after (.dmaStart 0 127 0 0x100) (dmaAt copy)).mem = (dmaAt copy).mem ∧
    ((dmaAt { copy with dstA := 0x800020001 }).arrive 0).dmaRefusal 127 (((dmaAt { copy with dstA := 0x800020001 }).dma 127).setCtl ((0x100 : BitVec 64) ||| 1).toNat) = some .unsupported ∧
    ((after (.dmaStart 0 127 0 0x100) (dmaAt { copy with dstA := 0x800020001 })).dma 127).status = .unsupported ∧
    ((after (.dmaStart 0 127 0 0x100) (dmaAt { copy with dstA := 0x800020001 })).dma 127).st = .idle := by
  decide +kernel

/-- The copy armed for Phase 0. -/
def armed : State := dmaAt { copy with trig := 1, st := .armed }

/-- The copy halted after one byte. -/
def halted : State := dmaAt { copy with st := .halted, prog := 1 }

/-- R346, R347: arming, the Phase trigger, ABORT and RESUME. -/
theorem witness_dma_arm_abort_resume :
    ((dmaAt copy).dma 127 |>.setCtl ((0x100 : BitVec 64) ||| 2).toNat).trig ≠ 1 ∧
    ((after (.dmaArm 0 127 0 0x100) (dmaAt copy)).dma 127).st = .armed ∧
    (armed.dma 127).st = .armed ∧
    (armed.dma 127).trig = 1 ∧
    (armed.arrive 0).dmaDue (armed.dma 127) = true ∧
    armed.phs.held = false ∧
    (armed.arrive 0).dmaRefusal 127 (armed.dma 127) = none ∧
    ((after (.dmaPhaseTrigger 0 127) armed).dma 127).st = .running ∧
    ((after (.dmaAbort 0 127 0) armed).dma 127).st = .idle ∧
    (halted.dma 127).st = .halted ∧
    ((after (.dmaAbort 0 127 0) halted).dma 127).st = .idle ∧
    ((after (.dmaResume 0 127 0 0x108) halted).dma 127).st = .running ∧
    ((after (.dmaResume 0 127 0 0x108) halted).dma 127).prog = 1 := by
  decide +kernel

/-- The copy running, one byte done. -/
def running : State := dmaAt { copy with st := .running, prog := 1 }

/-- A remote transfer whose message failed. -/
def failing : State := dmaAt { copy with st := .running, dkind := true, bad := some (0x800030000, true, .revoked) }

/-- The copy done. -/
def doneCopy : State := dmaAt { copy with st := .done, done := true }

/-- R346, R348: the bytes from the progress on land; an error halts; DONE is cleared. -/
theorem witness_dma_end :
    (∀ e ∈ running.egq.dma, ¬ (e.2.trig = 2 ∧ e.2.tch = 127)) ∧
    (running.dma 127).prog ≤ (running.dma 127).count ∧
    (running.dma 127).tch ≠ 127 ∧
    (after (.dmaTransferDone 0 127) running).mem = [(0x800020000, 5), (0x800020001, 6), (0x800030001, 6)] ∧
    ((after (.dmaTransferDone 0 127) running).dma 127).done = true ∧
    (∀ e ∈ failing.egq.dma, ¬ (e.2.trig = 2 ∧ e.2.tch = 127)) ∧
    (failing.dma 127).bad = some (0x800030000, true, .revoked) ∧
    ((after (.dmaHalt 0 127 false .ok 0 0) failing).dma 127).st = .halted ∧
    ((after (.dmaHalt 0 127 false .ok 0 0) failing).dma 127).errAddr = 0x800030000 ∧
    (∀ e ∈ doneCopy.egq.dma, ¬ (e.2.trig = 2 ∧ e.2.tch = 127)) ∧
    doneCopy.dmaOwns 0 127 = true ∧
    ((after (.dmaDoneClear 0 127 0) doneCopy).dma 127).st = .idle ∧
    ((after (.dmaDoneClear 0 127 0) doneCopy).dma 127).done = false := by
  decide +kernel


/-! ### Corpora and searches -/

/-- An envelope for the corpus of name 30. -/
def corpusEnv : Envelope := { envOf 3 with ctx := 30 }

/-- The corpus of name 30: vectors of 16, one segment of room for three records, which holds one. -/
def aCorpus : Corpus :=
  { root := 0, ctx := 30, job := 77, comp := 1, skb := 0, vfmt := 0, dim := 16, seed := 0, dead := false
    segs := [{ ska := 0, reca := 0, tmba := 0, cap := 3, tier := 0, ways := 1, chans := [], recs := [⟨5, List.replicate 16 0⟩], sks := [0], tombs := [] }] }

/-- A node with that corpus. -/
def library : State := mapping { tenant with rq := { tenant.rq with corpora := [aCorpus] } }

/-- R160: a corpus of the least width and one segment of the largest capacity that slice 0 holds is entered empty. -/
theorem witness_corpus_create :
    CorpusTaken (tenant.arrive 0) bell corpusEnv 77 1 ∧
    (tenant.arrive 0).corpusRefusal 77 1 30 0 0 16 1 [⟨1000, 0, 1⟩] = none ∧
    (after (.corpusCreate 0 bell corpusEnv 0 0 16 7 1 [⟨1000, 0, 1⟩]) tenant).rq.corpora.map (·.dim) = [16] ∧
    (after (.corpusCreate 0 bell corpusEnv 0 0 16 7 1 [⟨1000, 0, 1⟩]) tenant).rq.corpora.map (·.segs.length) = [1] :=
  ⟨by constructor <;> decide +kernel, by decide +kernel⟩

/-- Two records that fill the segment. -/
def twoRecs : List Rec := [⟨6, List.replicate 16 1⟩, ⟨7, List.replicate 16 2⟩]

/-- R160, R161: records up to the capacity are appended with their sketches. -/
theorem witness_record_append :
    CorpusTaken (library.arrive 0) bell corpusEnv 77 1 ∧
    library.corpus? 77 30 = some aCorpus ∧
    library.mapped 77 30 = true ∧
    (aCorpus.segs.all fun g => decide (g.recs.length + 2 ≤ g.cap)) = true ∧
    (∀ r ∈ twoRecs, r.vec.length = aCorpus.dim) ∧
    (((after (.recordAppend 0 bell corpusEnv 0 2 true twoRecs [8, 9]) library).corpus? 77 30).map fun c => c.segs.map fun g => g.recs.map (·.id)) = some [[5, 6, 7]] ∧
    (((after (.recordAppend 0 bell corpusEnv 0 2 true twoRecs [8, 9]) library).corpus? 77 30).map fun c => c.segs.map (·.sks)) = some [[0, 8, 9]] :=
  ⟨by constructor <;> decide +kernel, by decide +kernel⟩

/-- R160: the record becomes a tombstone. -/
theorem witness_record_delete :
    0 + 1 ≤ (aCorpus.segs.map (·.recs.length)).sum ∧
    (((after (.recordDelete 0 bell corpusEnv 0 0 1) library).corpus? 77 30).map fun c => c.segs.map (·.tombs)) = some [[0]] := by
  decide +kernel

/-- The corpus deleted, its storage not yet free. -/
def deadLibrary : State := { tenant with rq := { tenant.rq with corpora := [{ aCorpus with dead := true }] } }

/-- A node without corpora. -/
def unmapped : State := tenant

/-- R162: the name goes at once, the storage when no search runs. -/
theorem witness_corpus_delete :
    aCorpus.comp = 1 ∧
    (after (.corpusDelete 0 bell corpusEnv) library).corpus? 77 30 = none ∧
    deadLibrary.rq.searches = [] ∧
    (unmapped.arrive 0).adirEntry 0 (ctxKey 77 30) = none ∧
    unmapped.rq.corpora = [] ∧
    (after (.corpusDelete 0 bell corpusEnv) unmapped).rq.corpora = [] ∧
    (after (.corpusStorageFree 0 77 30) deadLibrary).rq.corpora = [] := by
  decide +kernel

/-- A search of the corpus. -/
def searchReq : SearchReq :=
  { env := { corpusEnv with blen := 2 }, metric := 0, qsk := false, nq := 1, qfmt := 0, k := 1, rr := 1, slo := 0, shi := 1, hmax := 0
    qs := [⟨List.replicate 16 0, 0⟩] }

/-- R163: a search in range is queued under the next identifier. -/
theorem witness_search :
    library.ready = true ∧
    library.noAdmission = false ∧
    (library.arrive 0).sourceOf bell = (77, 1) ∧
    (library.arrive 0).pathOf bell 1 77 0 ≠ none ∧
    (library.arrive 0).compRefusal 1 = none ∧
    searchOk searchReq aCorpus = true ∧
    (library.arrive 0).epochOk bell = true ∧
    ((library.arrive 0).admission (if (searchLoad searchReq aCorpus).2 then (searchLoad searchReq aCorpus).1 else { (searchLoad searchReq aCorpus).1 with ways := 0 }) (if searchReq.env.dl then some searchReq.env.deadline else none)).cause ≠ some 10 ∧
    (after (.search 0 bell searchReq) library).rq.searches.map (·.id) = [1] ∧
    (after (.search 0 bell searchReq) library).rq.searches.map (·.running) = [false] := by
  decide +kernel

/-- The search, admitted in slot 4,095. -/
def slotted : Search :=
  { id := 1, src := bell, job := 77, comp := 1, req := searchReq, snap := none, slot := some 4095, breach := none, queue := none, running := false
    bytes := 0, arrive := 0, limit := 0, begun := 0, formula := 1, left := 0, paused := false, grants := [] }

/-- A node whose slot 4,095 has started. -/
def slotGoes : State := { library with
  rq := { library.rq with searches := [slotted] }
  sch := { library.sch with runs := [⟨4095, true, 1, 0, false, 0, 0, false, false, 0⟩] } }

/-- A node that holds it without a slot. -/
def freeGoes : State := { library with rq := { library.rq with searches := [{ slotted with slot := none }] } }

/-- The search at work. -/
def searching : State := { library with rq := { library.rq with searches := [{ slotted with running := true, snap := some aCorpus }] } }

/-- The search at work on the corpus that has been deleted since. -/
def searchingDead : State := { searching with rq := { searching.rq with corpora := [{ aCorpus with dead := true }] } }

/-- R163, R165: the search starts on the corpus as it stands, and ends. -/
theorem witness_search_runs :
    slotGoes.noAdmission = false ∧
    slotGoes.rq.reqs = [] ∧
    (slotGoes.arrive 0).pathOf bell 1 77 0 = some none ∧
    slotGoes.phs.held = false ∧
    (slotGoes.arrive 0).mayWork 4095 0 = true ∧
    slotGoes.mapped 77 30 = true ∧
    (after (.requestDispatch 0 1 0) slotGoes).rq.searches.map (·.snap) = [some aCorpus] ∧
    freeGoes.bestEffort = true ∧
    ((freeGoes.arrive 0).searchUnits 1 (searchLoad searchReq aCorpus).1 (tileCount ((freeGoes.arrive 0).compTiles 1)) 0).isSome = true ∧
    lookD freeGoes.rq.beBytes 1 0 + 0 ≤ freeGoes.pdNum 0x3352 1 ∧
    (after (.requestDispatch 0 1 0) freeGoes).rq.searches.map (·.running) = [true] ∧
    (after (.corpusStorageFree 0 77 30) searchingDead).rq.corpora.map (·.dead) = [true] ∧
    (after (.searchComplete 0 1) searching).rq.searches = [] ∧
    (after (.searchComplete 0 1) searching).rq.corpora = [aCorpus] ∧
    searching.stripeOut 1 = false ∧
    (after (.searchComplete 0 1) { searching with rq := { searching.rq with searches := searching.rq.searches.map fun x => { x with left := 1 } } }).rq.searches.map (fun x => (x.left, x.paused)) = [(1, true)] := by
  decide +kernel

/-! ### Attention -/

/-- An ATTEND of one row on stream 0 of context 8, twice. -/
def attend : AttendReq :=
  { env := { envOf 1 with blen := 5 }
    head := { mode := 0, sieve := false, prescan := false, fb := false, nstr := 2, qfmt := 1, npos := 1, nhead := 1, split := 0, nsplit := 1, qpos0 := 0
              horizon := 0, slide := 0, scl := 0x3F800000, budget := 0, fbudget := 0, recent := 0, plo := 0, phi := 0, silt := false }
    mask := [], secs := [⟨0, 16, [List.replicate 16 0]⟩, ⟨0, 16, [List.replicate 16 0]⟩] }

/-- A node before synchronisation: nothing is within the contract. -/
def early : State := holding (aStrm 0 0 0)

/-- R105, R112: two sections enter under the next identifier. -/
theorem witness_attend_request :
    early.ready = true ∧
    early.noAdmission = false ∧
    (early.arrive 0).sourceOf bell = (77, 1) ∧
    (early.arrive 0).compRefusal 1 = none ∧
    (early.arrive 0).attendCheck bell 77 1 attend = .inr (aCtx (aStrm 0 0 0), [aStrm 0 0 0, aStrm 0 0 0]) ∧
    (((early.arrive 0).admitSecs bell 77 1 attend (List.zip attend.secs [aStrm 0 0 0, aStrm 0 0 0])).1.all fun x => x.block.isSome) = false ∧
    (after (.attendRequest 0 bell attend) early).rq.reqs.map (·.id) = [1] ∧
    (after (.attendRequest 0 bell attend) early).rq.reqs.map (·.secs.length) = [2] := by
  decide +kernel

/-- The node on admission hold. -/
def onHold : State := { early with pwr := { early.pwr with held := true } }

/-- R458: while admission is stopped, the request waits at intake. -/
theorem witness_attend_waits :
    onHold.noAdmission = true ∧
    (after (.attendRequest 0 bell attend) onHold).rq.held = [.attendRequest 0 bell attend] := by
  decide +kernel

/-- What a section attends: nothing. -/
def emptySnap : Snap :=
  { pages := [], silt := [], cand := 0, tiles := 0, sink := 0, kfmt := 1, vfmt := 1, scale := 0, dk := 16, dv := 16, latent := false, bounds := [], keys := []
    zeros := 0, comp := 1, scan := [], keep := 0, grains := [] }

/-- A running section. -/
def runSec : Sec :=
  { stream := 0, slot := none, breach := none, arrive := 0, due := 0, limit := 0, begun := 0, formula := 1, running := true, run := 0
    snap := some emptySnap, block := none, sent := false, tiles := 0, lost := false, left := 0, paused := false }

/-- A request of two sections, both running. -/
def twoSecs : Req :=
  { id := 1, src := bell, job := 77, comp := 1, req := attend, secs := [runSec, runSec], queue := none, asked := true, stopped := false, bytes := 0 }

/-- A node that works on it. -/
def attending : State := { early with rq := { early.rq with reqs := [twoSecs] } }

/-- R120, R124: the section that ends holds its block, the other goes on. -/
theorem witness_attention_complete :
    attending.rq.reqs = [twoSecs] ∧
    twoSecs.secs[1]? = some runSec ∧
    twoSecs.req.secs[1]? = some ⟨0, 16, [List.replicate 16 0]⟩ ∧
    attending.egq.qs = [] ∧
    attending.egq.held = [] ∧
    attending.scanOut 1 1 = false ∧
    attending.rmo.send = [] ∧
    twoSecs.secs[0]?.map (fun y => (y.block.isNone, y.sent)) = some (true, false) ∧
    ((after (.attentionComplete 0 1 1) attending).rq.reqs.map fun r => r.secs.map (·.running)) = [[true, false]] ∧
    ((after (.attentionComplete 0 1 1) attending).rq.reqs.map fun r => r.secs.map fun x => x.block.map (·.pages)) = [[none, some 0]] := by
  decide +kernel

/-! ### The schedule -/

/-- A member with a schedule waiting to be validated for step 10: one invalid entry. -/
def unvalidated : State := let s := member 0
  { s with sch := { s.sch with validating := true, count := 4096, stepLo := 10 } }

/-- The same for the running step. -/
def tooLate : State := let s := member 0
  { s with sch := { s.sch with validating := true, count := 1, stepLo := 9 } }

/-- R47 to R49: GO starts validation once; a later step is pending, the running one gives error 8. -/
theorem witness_schedule_commit :
    (member 0).sch.frozen = false ∧
    (after (.scheduleGo 0 15) (member 0)).sch.stepHi = 15 ∧
    (after (.scheduleGo 0 15) (member 0)).sch.validating = true ∧
    unvalidated.sch.frozen = true ∧
    (after (.scheduleGo 0 15) unvalidated).sch.wign = true ∧
    (after (.scheduleCancel 0) unvalidated).sch.validating = false ∧
    unvalidated.validate = (0, 0) ∧
    (after (.scheduleValidationDone 0) unvalidated).sch.pending = true ∧
    tooLate.validate = (8, 0) ∧
    (after (.scheduleValidationDone 0) tooLate).sch.pending = false ∧
    (after (.scheduleValidationDone 0) tooLate).sch.err = 8 := by
  decide +kernel

/-- A node with 1,024 measured ratios of class 1. -/
def measuredLoads : State := { up with sch := { up.sch with ratios := [(1, List.replicate 1024 1)] } }

/-- R58: 1,024 completions make an update; fewer do not. -/
theorem witness_alpha_update :
    1024 ≤ (lookD measuredLoads.sch.ratios 1 []).length ∧
    (lookD measuredLoads.sch.ratios 2 []).length < 1024 ∧
    look (after (.alphaUpdate 0 2) measuredLoads).sch.alpha 2 = none := by
  decide +kernel

/-- Slot 4,095: layer 2 from tick 10 for 100 ticks, on tile 0. -/
def aSlot : Slot :=
  { start := 10, layer := 2, any := false, valid := true, opclass := 1, comp := 1, fmt := 0, span := 100, tiles := 1, ports := 0, reqs := 1, rows := 16
    sketch := 0, dhead := 16, pages := 1, grains := 0, bytes := 0 }

/-- A member at tick `n` of layer 2, with that slot. -/
def scheduled (n : Nat) (runs : List SlotRun) : State := let s := member (16 * n)
  { s with cmp := tenant.cmp, sch := { s.sch with en := true, bank0 := [(4095, aSlot)], act0 := 4096, runs } }

/-- The slot at work. -/
def slotOn : List SlotRun := [⟨4095, true, 0, 0, false, 0, 0, false, false, 0⟩]

/-- The slot kept from starting until the layer after its own. -/
def carried : State := let s := scheduled 8 []
  { s with sch := { s.sch with carry := [⟨4095, false, 1, 0, false, 0, 0, false, false, 0⟩] } }

/-- R45, R52: a slot starts at its START and ends after its SPAN. -/
theorem witness_slots :
    ((scheduled 8 []).arrive 0).slotsNow.find? (fun e => e.1 == 4095) = some (4095, aSlot) ∧
    ((scheduled 8 []).slotRun 4095).started = false ∧
    aSlot.start ≤ phTick ((scheduled 8 []).arrive 0).phase + 2 ∧
    ((scheduled 8 []).arrive 0).sharers 4095 aSlot = [] ∧
    ((scheduled 8 []).arrive 0).spanTaken 4095 aSlot.tiles = false ∧
    ((scheduled 8 []).arrive 0).sharersOver aSlot = [] ∧
    ((after (.slotStart 0 4095) (scheduled 8 [])).slotRun 4095).started = true ∧
    ((after (.slotStart 0 4095) (scheduled 7 [])).slotRun 4095).started = false ∧
    (carried.arrive 0).kept 4095 aSlot = false ∧
    (carried.arrive 0).spanTaken 4096 aSlot.tiles = false ∧
    carried.sch.carry.map (fun x => (x.slot, x.started, x.ended)) = [(4095, false, false)] ∧
    ((carried.arrive 0).slots.find? (fun e => e.1 == 4095)).isSome = true ∧
    (after (.slotStart 0 4095) carried).sch.carry.map (·.started) = [true] ∧
    ((scheduled 110 slotOn).slotRun 4095).ended = false ∧
    aSlot.start + aSlot.span ≤ phTick ((scheduled 110 slotOn).arrive 0).phase ∧
    aSlot.opclass ≠ 4 ∧
    (scheduled 110 slotOn).sch.carry = [] ∧
    (scheduled 110 slotOn).pg.opq = [] ∧
    ((after (.slotEnd 0 4095) (scheduled 110 slotOn)).slotRun 4095).ended = true ∧
    ((after (.slotEnd 0 4095) (scheduled 109 slotOn)).slotRun 4095).ended = false := by
  decide +kernel

/-- A node with composition 1 and nothing scheduled, with an activity. -/
def idleNode (acts : List Act) : State := { tenant with rel := { tenant.rel with acts } }

/-- R60: a conflicting activity stops the quantum. -/
theorem witness_best_effort_quantum :
    ((idleNode [⟨7, 0, 1, 0, false⟩]).arrive 0).quantumComp (.rebuild 1 0) = some 1 ∧
    (idleNode [⟨5, 1, 1, 0, false⟩]).bestEffort = true ∧
    (idleNode [⟨5, 1, 1, 0, false⟩]).ready = true ∧
    ((idleNode [⟨5, 1, 1, 0, false⟩]).arrive 0).slack 1 (quantumClass (.rebuild 1 0)) (((idleNode []).arrive 0).compTiles 1) (ticksUp (((idleNode []).arrive 0).boundNs { cls := 8, comp := 1, bytes := ((idleNode []).arrive 0).quantumBytes 1 (.rebuild 1 0) } 0 0)) = true ∧
    quantumAct (.rebuild 1 0) = some 6 ∧
    ((idleNode [⟨5, 1, 1, 0, false⟩]).arrive 0).actWaits 6 1 = true ∧
    (after (.bestEffortQuantumStart 0 (.rebuild 1 0)) (idleNode [⟨5, 1, 1, 0, false⟩])).pd.count 0xA102 0 = 1 ∧
    ((idleNode []).arrive 0).quantumComp (.scrub 0) = some 1 ∧
    (idleNode []).bestEffort = true ∧
    ((idleNode []).arrive 0).slack 1 (quantumClass (.scrub 0)) (((idleNode []).arrive 0).compTiles 1) (ticksUp (((idleNode []).arrive 0).boundNs { cls := 8, comp := 1, bytes := ((idleNode []).arrive 0).quantumBytes 1 (.scrub 0) } 0 0)) = true ∧
    quantumAct (.scrub 0) = some 1 ∧
    ((idleNode []).arrive 0).actWaits 1 1 = false := by
  decide +kernel

/-- A node at its first whole millisecond, with a counter that moved. -/
def milli : State := { up with timer := 4000000, pd := { up.pd with cnt := [(0x4160, 0, 3)] } }

/-- R398: the counters are latched at the boundary of 1 ms. -/
theorem witness_coarsening_latch :
    milli.pd.latchAt < (milli.arrive 0).timer / ms ∧
    (after (.coarseningLatch 0) milli).pd.latchAt = 1 ∧
    (after (.coarseningLatch 0) milli).pd.latched = [(0x4160, 0, 3)] := by
  decide +kernel


/-! ### Tiers -/

/-- Channel 31 at work, of composition 1, with block 7. -/
def aFlash : Flash :=
  { Flash.atReset with up := true, owner := some 1, blocks := [(7, { erases := 4, live := 2, stale := 1, retired := false, isOpen := true })] }

/-- A chunk of extent 3. -/
def aChunk : Chunk :=
  { extent := 3, chunk := 2, comp := 1, channel := 31, bad := false, rewrite := false, ctr := 0, block := 7, done := true, origin := false, job := 77
    kgen := 1, used := 64 }

/-- A node with that channel and chunk, whose composition 1 has the channels of the mask. -/
def flashed (chans : BitVec 32) (f : Flash) : State := { tenant with
  cmp := { tenant.cmp with comps := [(1, { comp77 with desc := { desc77 with flash := chans } })] }
  tier := { tenant.tier with flash := [(31, f)], chunks := [aChunk] } }

/-- The node with channel 31 alone. -/
def oneChannel : State := flashed 0x80000000 aFlash

/-- The channel failed, and the parity chunk of the stripe of the chunk on channel 16. -/
def striped : State := let s := flashed 0x80FF0000 { aFlash with failed := true }
  { s with tier := { s.tier with chunks := [aChunk, { aChunk with chunk := 128, channel := 16 }] } }

/-- A read with `n` wrong bits in its first codeword and none in the others. -/
def readOf (n : Option Nat) (stripeOk tagOk : Bool) : ChunkRead := ⟨[n, some 0, some 0, some 0], stripeOk, tagOk⟩

/-- R241: up to 160 bits a codeword are corrected; a stripe rebuilds a chunk; else it is bad. -/
theorem witness_flash_reads :
    (oneChannel.flash 31).failed = false ∧
    corrected (readOf (some 160) true true) = true ∧
    120 < corrections (readOf (some 160) true true) ∧
    (after (.flashChunkReadComplete 0 31 3 2 (readOf (some 160) true true)) oneChannel).tier.chunks = [{ aChunk with rewrite := true }] ∧
    corrections (readOf (some 120) true true) ≤ 120 ∧
    (after (.flashChunkReadComplete 0 31 3 2 (readOf (some 120) true true)) oneChannel).tier.chunks = [aChunk] ∧
    (striped.flash 31).failed = true ∧
    (striped.arrive 0).rebuildable ((striped.arrive 0).chunkAt 31 3 2) = true ∧
    (after (.flashChunkReadComplete 0 31 3 2 (readOf none true true)) striped).tier.chunks.map (fun c => (c.chunk, c.done, c.bad)) = [(128, true, false), (2, false, false)] ∧
    (after (.flashChunkReadComplete 0 31 3 2 (readOf (some 0) true false)) oneChannel).tier.chunks = [{ aChunk with bad := true }] ∧
    ((after (.flashChunkReadComplete 0 31 3 2 (readOf (some 0) true false)) oneChannel).flash 31).err = true := by
  decide +kernel

/-- R241: a read beyond 160 bits of a chunk without a parity chunk leaves it bad. -/
theorem test_flash_read_no_stripe :
    (oneChannel.arrive 0).rebuildable ((oneChannel.arrive 0).chunkAt 31 3 2) = false ∧
    (after (.flashChunkReadComplete 0 31 3 2 (readOf (some 161) true true)) oneChannel).tier.chunks = [{ aChunk with bad := true }] := by
  decide +kernel

/-- The channel, at 400 ms. -/
def calibrated : State := { oneChannel with timer := 400000000 }

/-- R239, R240: a first timeout resets the LUN, a second sets the error; a calibration counts. -/
theorem witness_lun_and_calibration :
    ((after (.lunTimeout 0 31 1 0 ⟨false, 3, 2⟩) oneChannel).flash 31).lunTries = [(1, 0)] ∧
    .flashCmd 31 0xFA ∈ (after (.lunTimeout 0 31 1 0 ⟨false, 3, 2⟩) oneChannel).out ∧
    ((after (.lunTimeout 0 31 1 0 ⟨true, 3, 2⟩) oneChannel).flash 31).err = true ∧
    (∀ k ∈ oneChannel.tier.chunks, k.channel = 31 → k.block = noBlock → k.done = true) ∧
    (calibrated.flash 31).up = true ∧
    (calibrated.flash 31).zqAt + 100 * ms ≤ (calibrated.arrive 0).timer ∧
    ((after (.zqCalibrationShort 0 31) calibrated).flash 31).zq = 1 ∧
    (oneChannel.arrive 0).timer < (oneChannel.flash 31).zqAt + 100 * ms ∧
    ((after (.zqCalibrationShort 0 31) oneChannel).flash 31).zq = 0 := by
  decide +kernel

/-- A channel that has failed keeps its state, whatever the number of blocks. -/
theorem witness_flash_holds : FlashHolds 31 { aFlash with failed := true } := Or.inl rfl

/-- A channel none of whose blocks is retired is below its limit, whatever the number of blocks. -/
theorem witness_flash_holds_none : FlashHolds 31 aFlash := by
  right
  have h : aFlash.retired = 0 := by decide
  simp [h]

/-- A hint for page 0 of stream 0 of context 8. -/
def aHint : Hint := { op := 1, ctx := 8, stream := 0, all := false, first := 0, count := 1, ready := mkPhase 4 0 0 }

/-- The node of one page, its pins limited to 576 B, the size of the page. -/
def pinnable (limit : Nat) : State := withPd (paged 2) 0x8006 1 (leBytes 8 limit)

/-- The stream of the page. -/
def pagedStrm : Strm := { aStrm 16 2 2 with npages := 1, pages := [aPage] }

/-- R249: a pin within the limit sets TPIN, one beyond it nothing; an unpin clears it. -/
theorem witness_pins :
    (pinnable 576).ready = true ∧
    (pinnable 576).compServes 1 = true ∧
    ((pinnable 576).arrive 0).hintStreams 1 aHint = .inr (aCtx pagedStrm, [(0, pagedStrm)]) ∧
    ((pinnable 576).arrive 0).strm? 77 8 0 = some pagedStrm ∧
    (((pinnable 576).arrive 0).setTpin (aCtx pagedStrm) 0 pagedStrm aHint true).pinned 1 ≤ (pinnable 576).pdNum 0x8006 1 ∧
    ((after (.pin 0 1 aHint) (pinnable 576)).page? 77 8 0 0).map (·.desc.tpin) = some true ∧
    ((pinnable 575).arrive 0).hintStreams 1 aHint = .inr (aCtx pagedStrm, [(0, pagedStrm)]) ∧
    (pinnable 575).pdNum 0x8006 1 < (((pinnable 575).arrive 0).setTpin (aCtx pagedStrm) 0 pagedStrm aHint true).pinned 1 ∧
    ((after (.pin 0 1 aHint) (pinnable 575)).page? 77 8 0 0).map (·.desc.tpin) = some false ∧
    ((after (.unpin 0 1 aHint) (pinnable 576)).page? 77 8 0 0).map (·.desc.tpin) = some false := by
  decide +kernel

/-- A composition with flash whose context 8 is as given. -/
def sleeper (k : Ctx) : State := mapping { oneChannel with pg := { oneChannel.pg with ctxs := [k] } }

/-- The dormant context. -/
def asleep : State := sleeper { aCtx (aStrm 0 0 0) with dormant := true }

/-- The node of one page, which is in hardpan. -/
def pageAway : State :=
  mapping { pinnable 576 with pg := { (pinnable 576).pg with ctxs :=
    [aCtx { pagedStrm with pages := [{ aPage with desc := { aPage.desc with tier := 2 } }] }] } }

/-- A context on its way. -/
def goingToSleep : State := sleeper { aCtx (aStrm 0 0 0) with going := true }

/-- R248, R250, R251: PREFETCH and WAKE schedule recalls; a DORMANT starts. -/
theorem witness_prefetch_and_sleep :
    (aCtx pagedStrm).strm? 0 = some pagedStrm ∧
    ((pinnable 576).arrive 0).away pagedStrm 0 (hintPages aHint pagedStrm) = [] ∧
    (after (.prefetch 0 1 aHint) (pinnable 576)).tier.recalls = [] ∧
    (match (pageAway.arrive 0).hintStreams 1 aHint with | .inr (_, [(_, x)]) => (pageAway.arrive 0).away x 0 (hintPages aHint x) | _ => []) = [(0, 2, 576)] ∧
    (after (.prefetch 0 1 aHint) pageAway).tier.recalls.map (fun r => (r.first, r.count, r.active, r.part)) = [(0, 1, false, .pages)] ∧
    ((sleeper (aCtx (aStrm 0 0 0))).arrive 0).hintCtx 1 aHint = .inr (aCtx (aStrm 0 0 0)) ∧
    ((sleeper (aCtx (aStrm 0 0 0))).arrive 0).ctx? 77 8 = some (aCtx (aStrm 0 0 0)) ∧
    (sleeper (aCtx (aStrm 0 0 0))).flashOf 1 ≠ [] ∧
    ((after (.dormant 0 1 aHint) (sleeper (aCtx (aStrm 0 0 0)))).ctx? 77 8).map (·.going) = some true ∧
    (asleep.arrive 0).hintCtx 1 aHint = .inr { aCtx (aStrm 0 0 0) with dormant := true } ∧
    (aCtx (aStrm 0 0 0)).strm? ((aCtx (aStrm 0 0 0)).idOf 0) ≠ none ∧
    (after (.wake 0 1 aHint) asleep).tier.recalls.map (fun r => (r.whole, r.part)) = [(true, .tables), (true, .grains), (true, .pages)] ∧
    (goingToSleep.arrive 0).hintCtx 1 aHint = .inr { aCtx (aStrm 0 0 0) with going := true } ∧
    (after (.wake 0 1 aHint) goingToSleep).tier.recalls.map (fun r => (r.whole, r.part)) = [(true, .tables), (true, .grains), (true, .pages)] ∧
    ((goingToSleep.arrive 0).ctx? 77 8).map (·.going) = some true ∧
    goingToSleep.rq.reqs = [] ∧
    goingToSleep.tier.moves = [] := by
  decide +kernel

/-- A node whose hint ring of composition 1 is at 0x2000. -/
def hintRing : State := withPd (withPd tenant 0x8010 1 (leBytes 8 0x2000)) 0x8011 1 (leBytes 4 64)

/-- R248: a doorbell stores the tail; with head and tail equal it brings no entry. -/
theorem witness_tier_hint_doorbell :
    hintRing.compServes 1 = true ∧
    hintRing.pdNum 0x8010 1 ≠ 0 ∧
    ((hintRing.arrive 0).store 0x2000 (leBytes 4 0)).loadNat 0x2000 4 = ((hintRing.arrive 0).store 0x2000 (leBytes 4 0)).loadNat 0x2008 4 ∧
    (after (.tierHintDb 0 1 0) hintRing).tier = hintRing.tier := by
  decide +kernel

/-- A move of the page from topsoil to frame address 0x900 of the tier below. -/
def aMove : TMove :=
  { id := 1, job := 77, ctx := 8, stream := 0, page := 0, gen := 6, tier := 0, addr := 0x400, toTier := 1, toNode := 6, toAddr := 0x900, bytes := 512
    sctr := 0, lease := 63 }

/-- The node with that move, of page generation `gen`. -/
def moving (gen : Nat) : State := let s := paged 2; { s with tier := { s.tier with moves := [{ aMove with gen }] } }

/-- A recall of the page from hardpan whose chunk is lost. -/
def movingLost : State := { pageAway with tier := { pageAway.tier with
  moves := [{ aMove with tier := 2, toTier := 0, toNode := 5 }], chunks := [{ aChunk with extent := 0, chunk := 1, bad := true }] } }

/-- R255: the page switches to its new place; where it changed meanwhile, it stays. -/
theorem witness_move_complete :
    ((moving 6).arrive 0).inFlight (fun p => p == .tier 1) = false ∧
    ((moving 6).arrive 0).page? 77 8 0 0 = some aPage ∧
    (moving 6).frame? aPage.desc.frame ≠ none ∧
    ((after (.moveComplete 0 1) (moving 6)).page? 77 8 0 0).map (fun p => (p.desc.tier, p.desc.node, p.desc.addr)) = some (1, 6, 0x900) ∧
    aPage.desc.gen ≠ 5 ∧
    (after (.moveComplete 0 1) (moving 5)).pg = (moving 5).pg ∧
    (after (.moveComplete 0 1) (moving 5)).tier.moves = [] ∧
    ((moving 6).arrive 0).unreadable aPage.desc = false ∧
    ((movingLost.arrive 0).page? 77 8 0 0).map (fun p => (p.desc.borrowed, (movingLost.arrive 0).unreadable p.desc)) = some (false, true) ∧
    (after (.moveComplete 0 1) movingLost).tier.moves = [] ∧
    (after (.moveComplete 0 1) movingLost).pg = movingLost.pg := by
  decide +kernel

/-- A recall of the page. -/
def aRecall (active : Bool) : Recall :=
  { id := 1, comp := 1, job := 77, ctx := 8, stream := some 0, first := 0, count := 1, ready := none, start := 0, active, tells := []
    whole := false, part := .pages, bad := [] }

/-- The node with that recall. -/
def recalling (active : Bool) : State := let s := paged 2; { s with tier := { s.tier with recalls := [aRecall active] } }

/-- R250, R252: a recall whose START has come becomes active; one at work ends. -/
theorem witness_recalls :
    (recalling false).pwr.stage < 3 ∧
    ((recalling false).ctx? 77 8).map (·.going) = some false ∧
    ((recalling false).arrive 0).recallTurn 1 = true ∧
    (recalling true).egq.held = [] ∧
    earlier ((recalling false).arrive 0).phase 0 = false ∧
    (after (.recallStart 0 1) (recalling false)).tier.recalls = [aRecall true] ∧
    (recalling true).egq.qs = [] ∧
    (recalling true).rmo.send = [] ∧
    (after (.recallComplete 0 1) (recalling true)).tier.recalls = [] := by
  decide +kernel

/-- A node of the group 0 to 8 whose queue 7 leads to node 6. -/
def handing : State := let s := withPd (paged 2) 0x4003 0 [0, 0, 9, 0]
  { s with rmo := { s.rmo with send := [(7, { SendEnt.off with fdest := 6, rcid := 2, job := 77, valid := true, cwnd := 262144 })] } }

/-- The node with its queue 7 enabled. -/
def linked : State := { handing with egq := { handing.egq with qs := [(7, { handing.queue 7 with en := true })] } }

/-- Lease record 63: of composition 1 with node 6 over window 3, active, at the borrower or at the lender. -/
def leased (s : State) (lender : Byte) : State := withPd s 0x8030 63 ([0x81, lender, 6, 0, 3, 0] ++ List.replicate 18 0)

/-- The lease of the borrower without an end. -/
def leasedOpen : State := withPd tenant 0x8030 63 ([0x81, 0, 6, 0, 3, 0] ++ List.replicate 26 0xFF)

/-- A page of the composition in the lease. -/
def lentPage : State :=
  leased (holding { aStrm 16 0 0 with npages := 1, pages := [{ aPage with desc := { aPage.desc with tier := 1, node := 6 } }] }) 0

/-- The page shared, through pool entry 20. -/
def lentShared : State :=
  let d := { aPage.desc with tier := 1, node := 6 }
  let s := leased (holding { aStrm 16 0 0 with npages := 1, pages := [{ aPage with desc := { d with borrowed := true } }] }) 0
  { s with pg := { s.pg with pool := [(20, { comp := 1, npa := 0x5000, desc := d })] } }

/-- A lender whose window 3 of job 77 is open and lent. -/
def lending : State := { leased tenant 1 with hbm := { tenant.hbm with banks :=
  [(12, { Bank.ofCfg 6 with entries := [(winKey 77 3, Win.toUnits { farWin with lent := true })] })] } }

/-- R242 to R246: the borrower notes an empty lease and invalidates its pages; the lender closes the window. -/
theorem witness_leases :
    (Lease.ofBytes ((leased tenant 0).pd.bytes 0x8030 63)).active = true ∧
    (Lease.ofBytes ((leased tenant 0).pd.bytes 0x8030 63)).lender = false ∧
    ((leased tenant 0).arrive 0).pagesAt 1 63 = [] ∧
    (Lease.ofBytes ((leased tenant 0).pd.bytes 0x8030 63)).endp ≠ BitVec.allOnes 64 ∧
    ((leased linked 0).arrive 0).peerQueue 1 6 ≠ none ∧
    (after (.leaseEnd 0 63) (leased linked 0)).tier.released = [63] ∧
    (after (.leaseEnd 0 63) (leased tenant 0)).tier.ending = [63] ∧
    (Lease.ofBytes (leasedOpen.pd.bytes 0x8030 63)).endp = BitVec.allOnes 64 ∧
    (after (.leaseEnd 0 63) leasedOpen).tier.ending = [] ∧
    ((lentPage.arrive 0).pagesAt 1 63).map (fun y => (y.1.ctx, y.2.1, y.2.2.1)) = [(8, 0, 0)] ∧
    ((after (.leaseForcedEnd 0 63) lentPage).page? 77 8 0 0).map (·.desc.valid) = some false ∧
    ((lentPage.arrive 0).page? 77 8 0 0).map (·.desc.borrowed) = some false ∧
    ((lentShared.arrive 0).pagesAt 1 63).map (fun y => (y.1.ctx, y.2.1, y.2.2.1, y.2.2.2.desc.borrowed)) = [(8, 0, 0, true)] ∧
    (look (after (.leaseForcedEnd 0 63) lentShared).pg.pool 20).map (·.desc.valid) = some false ∧
    (Lease.ofBytes (lending.pd.bytes 0x8030 63)).lender = true ∧
    ((after (.leaseRelease 0 63) lending).win? 77 3).map (·.isOpen) = some false ∧
    (after (.leaseRelease 0 63) lending).tier.released = [63] ∧
    ((after (.leaseForcedEnd 0 63) lending).win? 77 3).map (·.wgen) = some 6 := by
  decide +kernel

/-- A weight layer whose groups have left. -/
def weights : State := { tenant with tier := { tenant.tier with
  wstr := [{ nn := 2, layer := mkPhase 9 1 0, nosel := false, hard := false, status := .ok, bytes := 64, limit := 0, slot := 0, due := 0, cats := [], head := some (64, List.replicate 8 0) }] } }

/-- R260: the layer leaves the work and its flag message ends the queue of the programme. -/
theorem witness_weight_stream :
    (weights.arrive 0).inFlight (fun p => p == .weight 2) = false ∧
    (after (.weightStreamDone 0 2) weights).tier.wstr = [] ∧
    weights.egq.held = [] ∧
    (weights.queue (weights.prog 2).queue).waiting.length + 1 < 1024 ∧
    (weights.egq.qs.map fun e => e.2.waiting.length).sum + 1 < 131072 ∧
    ((after (.weightStreamDone 0 2) weights).queue 0).waiting.map (·.prod) = [.weight 2, .weight 2] ∧
    ((after (.weightStreamDone 0 2) weights).queue 0).waiting.map (fun m => (m.addr, m.flag)) = [(64, false), (0, true)] := by
  decide +kernel

/-! ### Compositions -/

/-- The descriptor of composition 1 with way 0 of quadrant 0 and the slices of the mask. -/
def staged (slices : BitVec 48) : CompDesc := { desc77 with exst := true, slices, ways := 1 }

/-- A node whose composition 1 holds slices 0 and 1, with a commit in validation. -/
def committing (slices : BitVec 48) (step : Nat) : State := { tenant with cmp := { tenant.cmp with
  comps := [(1, { comp77 with desc := { desc77 with slices := 3 } })], validating := true, staged := [(1, staged slices)], cstep := step } }

/-- R354 to R357: a commit starts validation once; a failing check ends it; a sound one waits, its loser shrinking. -/
theorem witness_commits :
    tenant.pwr.idle = false ∧
    tenant.cmp.validating = false ∧
    (after (.commit 0 12) tenant).cmp.validating = true ∧
    (after (.commit 0 12) tenant).cmp.cstep = 12 ∧
    (committing 1 12).cmp.validating = true ∧
    (after (.commit 0 13) (committing 1 12)).cmp.cstatus = .busyConflict ∧
    ((committing 1 12).arrive 0).commitCheck = none ∧
    (after (.commitValidationDone 0) (committing 1 12)).cmp.pending = true ∧
    ((after (.commitValidationDone 0) (committing 1 12)).comp? 1).map (·.st) = some .shrinking ∧
    ((committing 1 0).arrive 0).commitCheck = some (9, 0, .contractBreach) ∧
    (after (.commitValidationDone 0) (committing 1 0)).cmp.ccheck = 9 ∧
    (after (.commitValidationDone 0) (committing 1 0)).cmp.staged = [] := by
  decide +kernel

/-- R365: a refused handoff tells its status, a sound one sends batch 1. -/
theorem witness_handoff :
    (handing.arrive 0).handCheck 9 0 false 0 1 6 7 true = .inl .staleGen ∧
    (after (.handoff 0 9 0 false 0 1 6 7 true) handing).cmp.hstatus = .staleGen ∧
    (handing.arrive 0).handCheck 8 0 false 0 1 6 7 true = .inr (aCtx pagedStrm, [(0, pagedStrm)]) ∧
    ((handing.arrive 0).batchBytes { ctx := 8, job := 77, comp := 1, pages := [(0, 0)], sent := 0, batch := 0, inBatch := 0, dnode := 6, queue := 7, move := true, ranges := [(0, 0, 1)], finish := false } (0, 0)).isSome = true ∧
    ((after (.handoff 0 8 0 false 0 1 6 7 true) handing).cmp.hand.map (·.batch)) = some 1 := by
  decide +kernel

/-- A handoff of one page whose batch is out. -/
def aHand (move : Bool) : Handoff :=
  { ctx := 8, job := 77, comp := 1, pages := [(0, 0)], sent := 0, batch := 1, inBatch := 1, dnode := 6, queue := 7, move, ranges := [(0, 0, 1)]
    finish := false }

/-- The node that waits for its answer. -/
def handed (move : Bool) : State := { handing with cmp := { handing.cmp with hand := some (aHand move) } }

/-- R366: an answer of the last batch ends a copy; a move waits for the boundary; a bad one ends it. -/
theorem witness_handoff_batch_ack :
    ((handed true).arrive 0).inFlight (fun p => p == .handoff) = false ∧
    (aHand true).pages.drop (aHand true).inBatch = [] ∧
    (after (.handoffBatchAck 0 .ok) (handed true)).cmp.hand.map (·.finish) = some true ∧
    (after (.handoffBatchAck 0 .ok) (handed false)).cmp.hand = none ∧
    (after (.handoffBatchAck 0 .ok) (handed false)).cmp.hpages = 1 ∧
    (after (.handoffBatchAck 0 .revoked) (handed true)).cmp.hstatus = .revoked := by
  decide +kernel

/-- A composition being torn down, with a byte at the end of its slice and one beyond. -/
def tornNode : State := { tenant with
  cmp := { tenant.cmp with comps := [(1, { comp77 with st := .tearing, cause := some .fault })] }, mem := [(2 ^ 35 - 1, 1), (2 ^ 35, 2)] }

/-- R370: FORCE_TEARDOWN tears a serving composition down; its end zeroises its slices and no others. -/
theorem witness_teardown :
    ((paged 2).comp? 1).map (·.st) = some .active ∧
    ((after (.forceTeardown 0 1) (paged 2)).comp? 1).map (·.st) = some .tearing ∧
    (after (.forceTeardown 0 1) (paged 2)).pg.ctxs = [] ∧
    tornNode.sec.up = true ∧
    ((after (.teardownComplete 0 1) tornNode).comp? 1).map (·.st) = some .torndown ∧
    (after (.teardownComplete 0 1) tornNode).mem = [(2 ^ 35, 2)] := by
  decide +kernel

/-- Slice 47 is released, and channel 31 erased. -/
def freeing : State := { tenant with
  cmp := { tenant.cmp with busySlices := [47], busyFlash := [31] }, mem := [(47 * 2 ^ 35 - 1, 1), (47 * 2 ^ 35, 2)]
  tier := { tenant.tier with flash := [(31, { Flash.atReset with erasing := true })] } }

/-- R362, R363: the slice reads zero and is free, the channel is free. -/
theorem witness_resources_free :
    47 ∈ freeing.cmp.busySlices ∧
    freeing.pwr.stage < 5 ∧
    (after (.sliceFree 0 47) freeing).cmp.busySlices = [] ∧
    (after (.sliceFree 0 47) freeing).mem = [(47 * 2 ^ 35 - 1, 1)] ∧
    31 ∈ freeing.cmp.busyFlash ∧
    (∀ b ∈ (freeing.flash 31).blocks, b.2.retired = true ∨ b.2.live + b.2.stale = 0) ∧
    ((after (.flashChannelFree 0 31) freeing).flash 31).erasing = false := by
  decide +kernel

/-- R376: at 250 µs composition 1 has used 250 slice-µs, and they are stored. -/
theorem witness_metering :
    tenant.ready = true ∧
    (after (.meteringPersist 0) tenant).pd.count 0x5040 1 = 250 ∧
    (0x5040, 1, [250, 0, 0, 0, 0, 0, 0, 0]) ∈ (after (.meteringPersist 0) tenant).pd.stored := by
  decide +kernel


/-! ### Security -/

/-- An SPDM message of session 3. -/
def spdm : Spdm := ⟨0, 3, true⟩

/-- A Security Core with the negotiation done as far as told, and a session. -/
def core (version caps algs : Bool) (sessions : List (Nat × Bool)) : State :=
  { tenant with sec := { tenant.sec with version, caps, algs, sessions } }

/-- The code of the last SPDM answer. -/
def lastCode (s : State) : Option Nat := s.out.head?.bind fun o => match o with
  | .spdm _ code _ => some code
  | _ => none

/-- R386: the negotiation goes in order; before it a challenge is answered with ERROR 4. -/
theorem witness_spdm_negotiation :
    SpdmHeard (core false false false []) .mctpPcie spdm ∧
    SpdmHeard (core true false false []) (.vfDoe 16) spdm ∧
    SpdmHeard (core true true false []) .mctpSmbus spdm ∧
    lastCode (after (.getVersion 0 .mctpPcie spdm) (core true true true [(3, true)])) = some 0x04 ∧
    (after (.getVersion 0 .mctpPcie spdm) (core true true true [(3, true)])).sec.sessions = [] ∧
    (core true false false []).sec.version = true ∧
    (after (.getCapabilities 0 (.vfDoe 16) spdm) (core true false false [])).sec.caps = true ∧
    (core true true false []).sec.caps = true ∧
    (after (.negotiateAlgorithms 0 .mctpSmbus spdm) (core true true false [])).sec.algs = true ∧
    (core true true false []).negotiated = false ∧
    lastCode (after (.challenge 0 .mctpSmbus spdm 5) (core true true false [])) = some 0x7F :=
  ⟨by constructor <;> decide +kernel, by constructor <;> decide +kernel, by constructor <;> decide +kernel, by decide +kernel⟩

/-- R386: after the negotiation digests, certificate, challenge and measurements are answered. -/
theorem witness_spdm_identity :
    SpdmHeard (core true true true []) .mctpPcie spdm ∧
    (core true true true []).negotiated = true ∧
    lastCode (after (.getDigests 0 .mctpPcie spdm) (core true true true [])) = some 0x01 ∧
    lastCode (after (.getCertificate 0 .mctpPcie spdm 0 64) (core true true true [])) = some 0x02 ∧
    lastCode (after (.challenge 0 .mctpPcie spdm 5) (core true true true [])) = some 0x03 ∧
    measured.contains 0x4F = true ∧
    lastCode (after (.getMeasurements 0 .mctpPcie spdm 0x4F) (core true true true [])) = some 0x60 :=
  ⟨by constructor <;> decide +kernel, by decide +kernel⟩

/-- R386: KEY_EXCHANGE opens a session, FINISH completes it, END_SESSION closes it. -/
theorem witness_spdm_sessions :
    SpdmHeard (core true true true [(3, false)]) .mctpPcie spdm ∧
    SpdmHeard (core true true true [(3, true)]) .mctpPcie spdm ∧
    (core true true true []).negotiated = true ∧
    (3, false) ∈ (after (.keyExchange 0 .mctpPcie spdm) (core true true true [])).sec.sessions ∧
    (3, false) ∈ (core true true true [(3, false)]).sec.sessions ∧
    (after (.finish 0 .mctpPcie spdm) (core true true true [(3, false)])).sec.sessions = [(3, true)] ∧
    (core true true true [(3, true)]).session spdm = true ∧
    lastCode (after (.heartbeat 0 .mctpPcie spdm) (core true true true [(3, true)])) = some 0x68 ∧
    (after (.spdmKeyUpdate 0 .mctpPcie spdm) (core true true true [(3, true)])).sec.keyUpdates = 1 ∧
    (after (.endSession 0 .mctpPcie spdm) (core true true true [(3, true)])).sec.sessions = [] :=
  ⟨by constructor <;> decide +kernel, by constructor <;> decide +kernel, by decide +kernel⟩

/-- A blob for composition 1 of job 77. -/
def blob (typ gen activate : Nat) : KeyBlob :=
  { typ, mode := 0, gen := BitVec.ofNat 16 gen, model := 9, job := 77, comp := 1, activate, digestOk := true, authOk := true, ends := [6] }

/-- A node whose composition 1 has no keys yet. -/
def unkeyed : State := { tenant with cmp := { tenant.cmp with comps := [(1, { comp77 with keyed := false })] } }

/-- R389 to R391: INSTALL once, UPDATE to the next generation at a later step, both answered OK. -/
theorem witness_key_blobs :
    (unkeyed.arrive 0).blobRefusal .install true (blob 1 4 0) = none ∧
    ((after (.keysInstall 0 true (blob 1 4 0)) unkeyed).comp? 1).map (fun k => (k.keyed, k.gen)) = some (true, 4) ∧
    (tenant.arrive 0).blobRefusal .install true (blob 1 4 0) = some .accessDenied ∧
    (after (.keysInstall 0 true (blob 1 4 0)) tenant).out.head? = some (.vendor .accessDenied) ∧
    (tenant.arrive 0).blobRefusal .update true (blob 1 2 1) = none ∧
    ((after (.keysUpdate 0 true (blob 1 2 1)) tenant).comp? 1).map (·.upd) = some (some (2, 1)) := by
  decide +kernel

/-- R370, R397: a removal leaves the composition tearing under the next generation, and ends torn down. -/
theorem witness_removals :
    ((paged 2).arrive 0).blobRefusal .remove true (blob 3 0 0) = none ∧
    ((after (.tenantRemove 0 true (blob 3 0 0)) (paged 2)).comp? 1).map (fun k => (k.noKey, k.gen)) = some (true, 2) ∧
    (after (.tenantRemove 0 true (blob 3 0 0)) (paged 2)).pg.ctxs = [] ∧
    ((paged 2).arrive 0).blobRefusal .remove false (blob 3 0 0) = some .integrity ∧
    (after (.tenantRemove 0 false (blob 3 0 0)) (paged 2)).out.head? = some (.vendor .integrity) := by
  decide +kernel

/-- A composition whose removal is under way. -/
def removing : State := { tenant with cmp := { tenant.cmp with comps := [(1, { comp77 with st := .tearing, cause := some .removal })] } }

/-- R370: with every window drained the composition is torn down and its transport key gone. -/
theorem witness_tenant_removed :
    removing.pwr.stage < 5 ∧
    (removing.arrive 0).windowsDrained 1 = true ∧
    ((after (.tenantRemoved 0 1) removing).comp? 1).map (fun k => (k.st, k.transport)) = some (.torndown, false) := by
  decide +kernel

/-- A node whose catalogue entry of model 9, layer 0 and group 0 is valid, wherever it lies. -/
def installed : State := { tenant with mem := [(Config.catalogAt 9 0 0 + 12, 1)] }

/-- R389: the catalogue of such a node lists the model. -/
theorem modelInstalled_of_entry (s : State) (hl : s.layers = 1) (hm : s.mem = [(Config.catalogAt 9 0 0 + 12, 1)]) :
    s.modelInstalled 9 = true := by
  simp [State.modelInstalled, hl, State.cat, State.load, hm, Memory.reads, Memory.read, field, leNat, bitAt]

/-- R389, R391: what a release must meet, for any node that holds the composition. -/
theorem release_accepted (s : State) (h : s.modelInstalled 9 = true) (hc : s.comp? 1 = some comp77) (hm : s.sec.models = [])
    (ho : s.pwr.off = false) : s.blobRefusal .model true (blob 2 0 0) = none := by
  simp [State.blobRefusal, blob, ho, hc, hm, look, h, comp77, desc77]

/-- R389, R391: a release of an installed model to a composition that holds no other is accepted. -/
theorem witness_model_release : (installed.arrive 0).blobRefusal .model true (blob 2 0 0) = none :=
  release_accepted _ (modelInstalled_of_entry _ (by decide +kernel) rfl) rfl rfl rfl

/-- R383, R384: a watchdog expiry or memory error takes the core down and tears every composition. -/
theorem witness_security_core_faults :
    (paged 2).sec.up = true ∧
    (paged 2).boot.ready = true ∧
    (after (.scWatchdogExpiry 0) (paged 2)).sec.up = false ∧
    (after (.scWatchdogExpiry 0) (paged 2)).sec.resets = 1 ∧
    ((after (.scMemoryError 0) (paged 2)).comp? 1).map (fun k => (k.st, k.noKey)) = some (.tearing, true) ∧
    (after (.scMemoryError 0) (paged 2)).rel.restarted = true := by
  decide +kernel

/-- A sealed card. -/
def sealedCard : State := { tenant with sec := { tenant.sec with life := true } }

/-- R379: SEAL in a session and UNSEAL with its token wait for the reset. -/
theorem witness_life_cycle :
    spdm.valid = true ∧
    (core true true true [(3, true)]).session spdm = true ∧
    (core true true true [(3, true)]).sec.life = false ∧
    (after (.lifecycleSeal 0 spdm) (core true true true [(3, true)])).sec.pend = some true ∧
    (after (.lifecycleSeal 0 spdm) (core true true true [(3, true)])).sec.life = false ∧
    sealedCard.sec.life = true ∧
    (after (.lifecycleUnseal 0 true) sealedCard).sec.pend = some false := by
  decide +kernel

/-- A node whose composition 1 holds no transport key. -/
def keyless : State := { tenant with cmp := { tenant.cmp with comps := [(1, { comp77 with transport := false })] } }

/-- R388: a key goes to an active composition without one, or into the pool of two. -/
theorem witness_transport_keys :
    (∀ k ∈ tenant.cmp.comps, ¬ (k.2.st = .active ∧ k.2.transport = false)) ∧
    (after (.transportKeyGenerated 0) tenant).sec.pool = 1 ∧
    keyless.cmp.comps = [(1, { comp77 with transport := false })] ∧
    (after (.transportKeyGenerated 0) keyless).cmp.comps = [(1, comp77)] ∧
    (after (.transportKeyGenerated 0) keyless).sec.pool = 0 := by
  decide +kernel

/-! ### Links -/

/-- A flit of lane 6 that ends its message. -/
def mgmtFlit : Flit := { fseq := 0xFFF, ft := 1, vl := 6, som := true, eom := true, blen := 1, dest := 5, src := 6, plen := 1, body := List.replicate 16 7 }

/-- A node whose port 7 stands as given. -/
def ported (x : Port) : State := { up with lnk := { up.lnk with ports := [(7, x)] } }

/-- Port 7 at the last sequence number. -/
def portF : Port := { upPort with expect := 0xFFF, nak := true }

/-- A control flit. -/
def ctlFlit : CtlFlit := { ackseq := 0, nak := false, fallow := true, drained := true, cred := List.replicate 8 5, recs := [] }

/-- A flit in a slot of a group with the codewords. -/
def inSlot (slot : Nat) (codes : List Ecc) : FlitPlace := { slot, codes }

/-- R266: bytes go round the lanes 16 at a time; on one lane the four codewords take 640 B each in turn. -/
theorem test_groups :
    groupSlots 8 = 20 ∧
    groupSlots 4 = 10 ∧
    (laneOf 8 15, laneOf 8 16, laneOf 8 5119, lanePlace 8 5119) = (0, 1, 7, 639) ∧
    (laneOf 4 2559, lanePlace 4 2559) = (3, 639) ∧
    (codeOf 1 639, codeOf 1 640, codeOf 1 2559) = (0, 1, 3) ∧
    flitFec 1 3 [.clean, .uncorrectable] = .uncorrectable ∧
    flitFec 1 1 [.clean, .uncorrectable] = .clean := by
  decide +kernel

/-- The control flits that left by port 7: the sequence acknowledged, the retry bit, the credits of lane 6 and the number of records. -/
def ctlsOut (s : State) : List (Nat × Bool × Nat × Nat) := s.out.filterMap fun o => match o with
  | .control 7 _ _ f _ => some (f.ackseq.toNat, f.nak, (f.cred.getD 6 0).toNat, f.recs.length)
  | _ => none

/-- R268 to R270, R284: a good flit in sequence is accepted and the sequence wraps; a bad or out-of-sequence one asks for a retry. -/
theorem witness_data_flits :
    Carrying (ported portF) 7 ∧
    (ported portF).ready = true ∧
    mgmtFlit.ft ≠ 0 ∧
    flitOk mgmtFlit = true ∧
    1 < groupSlots ((ported portF).port 7).width ∧
    flitFec ((ported portF).port 7).width 1 [] ≠ .uncorrectable ∧
    flitFec ((ported portF).port 7).width 1 [.clean, .uncorrectable] = .uncorrectable ∧
    mgmtFlit.fseq = ((ported portF).port 7).expect ∧
    ((after (.dataFlitReceive 0 7 (inSlot 1 []) (flitCrc mgmtFlit) mgmtFlit) (ported portF)).port 7).expect = 0 ∧
    ((after (.dataFlitReceive 0 7 (inSlot 1 []) (flitCrc mgmtFlit) mgmtFlit) (ported portF)).port 7).nak = false ∧
    (after (.dataFlitReceive 0 7 (inSlot 1 []) (flitCrc mgmtFlit) mgmtFlit) (ported portF)).lnk.mgmtIn = [List.replicate 16 7] ∧
    ({ mgmtFlit with fseq := 0 } : Flit).fseq ≠ ((ported portF).port 7).expect ∧
    ((after (.dataFlitReceive 0 7 (inSlot 1 []) (flitCrc { mgmtFlit with fseq := 0 }) { mgmtFlit with fseq := 0 }) (ported upPort)).port 7).expect = 1 ∧
    ((after (.dataFlitReceive 0 7 (inSlot 1 []) (flitCrc { mgmtFlit with fseq := 5 }) { mgmtFlit with fseq := 5 }) (ported upPort)).port 7).nak = true ∧
    ((after (.dataFlitReceive 0 7 (inSlot 1 [.clean, .uncorrectable]) (flitCrc mgmtFlit) mgmtFlit) (ported portF)).port 7).expect = 0xFFF ∧
    ctlsOut (after (.dataFlitReceive 0 7 (inSlot 1 []) (flitCrc mgmtFlit) mgmtFlit) (ported portF)) = [(0xFFF, false, 1, 0)] ∧
    ((after (.dataFlitReceive 0 7 (inSlot 1 []) (flitCrc mgmtFlit + 1) mgmtFlit) (ported portF)).port 7).expect = 0xFFF ∧
    ctlsOut (after (.dataFlitReceive 0 7 (inSlot 1 []) (flitCrc mgmtFlit + 1) mgmtFlit) (ported upPort)) = [(0xFFF, true, 0, 0)] ∧
    (after (.dataFlitReceive 0 7 (inSlot 1 []) (flitCrc { mgmtFlit with ft := 0 }) { mgmtFlit with ft := 0 }) (ported portF)).lnk = (ported portF).lnk ∧
    ({ mgmtFlit with vl := 0 } : Flit).vl ≠ 6 ∧
    ((after (.dataFlitReceive 0 7 (inSlot 1 []) (flitCrc { mgmtFlit with vl := 0 }) { mgmtFlit with vl := 0 }) (ported { portF with st := .fallow })).port 7).expect = 0xFFF ∧
    ((after (.dataFlitReceive 0 7 (inSlot 1 []) (flitCrc mgmtFlit) mgmtFlit) (ported { portF with st := .fallow })).port 7).expect = 0 :=
  ⟨by constructor <;> decide +kernel, by decide +kernel⟩

/-- R270, R284: credits, fallow and drained as carried; a failed check changes nothing. -/
theorem witness_control_flits :
    ctlFlit.nak = false ∧
    ctlFlit.recs = [] ∧
    ((after (.controlFlitReceive 0 7 [] (ctlCrc ctlFlit) ctlFlit) (ported portF)).port 7).freed = List.replicate 8 5 ∧
    ((after (.controlFlitReceive 0 7 [] (ctlCrc ctlFlit) ctlFlit) (ported portF)).port 7).peerDrained = true ∧
    ((after (.controlFlitReceive 0 7 [] (ctlCrc ctlFlit + 1) ctlFlit) (ported portF)).port 7).freed = List.replicate 8 0 ∧
    flitFec ((ported portF).port 7).width 0 [.uncorrectable] = .uncorrectable ∧
    ((after (.controlFlitReceive 0 7 [.uncorrectable] (ctlCrc ctlFlit) ctlFlit) (ported portF)).port 7).uncorr = true := by
  decide +kernel

/-- Port 7 with a flit not acknowledged since 984,000, replayed `n` times. -/
def unacked (n : Nat) : Port := { upPort with replay := [mgmtFlit], ackAt := 984000, replays := n }

/-- R271: after 4 µs the flits are sent again; the eighth time the port retrains. -/
theorem witness_replay_timeout :
    (ported (unacked 6)).ready = true ∧
    (unacked 6).ackAt + 4 * us ≤ ((ported (unacked 6)).arrive 0).timer ∧
    (unacked 6).replays + 1 < 8 ∧
    ((after (.replayTimeout 0 7) (ported (unacked 6))).port 7).replays = 7 ∧
    flitsOut 7 (after (.replayTimeout 0 7) (ported (unacked 6))).out = [mgmtFlit] ∧
    8 ≤ (unacked 7).replays + 1 ∧
    ((after (.replayTimeout 0 7) (ported (unacked 7))).port 7).st = .retrain ∧
    ((after (.replayTimeout 0 7) (ported (unacked 7))).port 7).replaylim = true := by
  decide +kernel

/-- R272: the answer leaves in a control flit; half the round trip less the turnaround, to the nearest unit. -/
theorem witness_delays :
    Carrying (ported upPort) 7 ∧
    (after (.delayReq 0 7 3) (ported upPort)).free = 1 ∧
    ctlsOut (after (.delayReq 0 7 3) (ported upPort)) = [(0xFFF, false, 0, 1)] ∧
    ((after (.delayRsp 0 7 999000 301) (ported upPort)).port 7).delay = 350 :=
  ⟨by constructor <;> decide +kernel, by decide +kernel⟩

/-- A port on its way. -/
def portIn (st : PortState) (tries since : Nat) : Port := { upPort with st, tries, since }

/-- R281, R282, R291: EN off and on, RETRAIN. -/
theorem witness_port_control :
    (ported upPort).boot.fabClk = true ∧
    bitAt (0 : BitVec 32).toNat 0 = false ∧
    ((after (.portEnable 0 7 0) (ported (unacked 0))).port 7).st = .down ∧
    ((after (.portEnable 0 7 0) (ported (unacked 0))).port 7).replay = [] ∧
    bitAt (1 : BitVec 32).toNat 0 = true ∧
    bitsOf (1 : BitVec 32).toNat 1 2 = 0 ∧
    (Port.atReset).st = .down ∧
    ((after (.portEnable 0 7 1) (ported Port.atReset)).port 7).st = .training ∧
    ((after (.portEnable 0 7 1) (ported { Port.atReset with modeNext := some 1 })).port 7).mode = 1 ∧
    ctlsOut (after (.portEnable 0 7 1) (ported Port.atReset)) = [(0xFFF, false, 0, 1)] ∧
    bitsOf (0x11 : BitVec 32).toNat 1 2 = upPort.mode ∧
    ((after (.retrain 0 7 0x11) (ported upPort)).port 7).st = .retrain := by
  decide +kernel

/-- Port 7 on its way into fallow. -/
def resting : Port := { portIn .fallow 0 0 with lanes := 3, moving := true }

/-- R281, R283: training ends up on all lanes or on a half, else failed; three attempts, one second. -/
theorem witness_training :
    (portIn .training 0 0).halves [] = some 0 ∧
    ((after (.trainingComplete 0 7 6 []) (ported (portIn .training 0 0))).port 7).st = .up ∧
    ((after (.trainingComplete 0 7 6 [0]) (ported (portIn .retrain 0 0))).port 7).lanes = 2 ∧
    ((after (.trainingComplete 0 7 6 [0]) (ported (portIn .retrain 0 0))).port 7).peer = 6 ∧
    ctlsOut (after (.trainingComplete 0 7 6 [0]) (ported (portIn .retrain 0 0))) = [(0xFFF, false, 0, 0)] ∧
    ((after (.trainingComplete 0 7 6 []) (ported { unacked 0 with st := .retrain })).port 7).resync = true ∧
    ((after (.trainingComplete 0 7 6 [1]) (ported resting)).port 7).st = .fallow ∧
    ((after (.trainingComplete 0 7 6 [1]) (ported resting)).port 7).moving = false ∧
    ((after (.trainingComplete 0 7 6 [0]) (ported resting)).port 7).st = .training ∧
    (portIn .training 0 0).halves [0, 7] = none ∧
    ((after (.trainingComplete 0 7 6 [0, 7]) (ported (portIn .training 0 0))).port 7).st = .failed ∧
    (portIn .retrain 1 0).tries + 1 < 3 ∧
    ((after (.retrainAttemptFailed 0 7) (ported (portIn .retrain 1 0))).port 7).tries = 2 ∧
    3 ≤ (portIn .retrain 2 0).tries + 1 ∧
    ((after (.retrainAttemptFailed 0 7) (ported (portIn .retrain 2 0))).port 7).st = .training ∧
    ((after (.retrainAttemptFailed 0 7) (ported { portIn .retrain 2 0 with modeNext := some 1 })).port 7).mode = 1 ∧
    (portIn .training 0 0).since + 1000 * ms ≤ ((ported (portIn .training 0 0)).arrive (1000 * ms)).timer ∧
    ((after (.trainingTimeout (1000 * ms) 7) (ported (portIn .training 0 0))).port 7).st = .failed ∧
    ((after (.trainingTimeout (1000 * ms - 1) 7) (ported (portIn .training 0 0))).port 7).st = .training := by
  decide +kernel

/-- Port 7 drained on both sides. -/
def drained : Port := { upPort with peerDrained := true }

/-- A node in stage 7. -/
def lowPower (x : Port) : State := { ported x with pwr := { up.pwr with stage := 7 }, phs := { up.phs with markAt := some 999920 } }

/-- A node below stage 7 that has just taken a mark. -/
def fullPower (x : Port) : State := { ported x with phs := { up.phs with markAt := some 999920 } }

/-- R269, R283, R284: a lost lane retrains, for good leaves the other half or the port failed; fallow at stage 7. -/
theorem witness_lanes_and_fallow :
    ((after (.laneAlignmentLoss 0 7 7 false) (ported upPort)).port 7).st = .retrain ∧
    ((after (.laneAlignmentLoss 0 7 3 true) (ported upPort)).port 7).lanes = 2 ∧
    ((after (.laneAlignmentLoss 0 7 4 true) (ported upPort)).port 7).lanes = 1 ∧
    ((after (.laneAlignmentLoss 0 7 3 true) (ported { upPort with lanes := 1 })).port 7).st = .failed ∧
    ((after (.fecLimit 0 7) (ported upPort)).port 7).uncorr = true ∧
    7 ≤ (lowPower drained).pwr.stage ∧
    drained.fallowOk = true ∧
    drained.replay = [] ∧
    ((after (.fallowEnter 0 7) (lowPower drained)).port 7).st = .fallow ∧
    ((after (.fallowEnter 0 7) (lowPower drained)).port 7).lanes = 3 ∧
    (∀ p ∈ (lowPower drained).lnk.ports, p.2.moving = false) ∧
    (∃ m ∈ (lowPower drained).phs.markAt, ((lowPower drained).arrive 0).timer ≤ m + 80) ∧
    ((after (.fallowEnter 1000001 7) (lowPower drained)).port 7).st = .up ∧
    (fullPower { drained with st := .fallow, lanes := 3 }).pwr.stage < 7 ∧
    ((after (.fallowExit 0 7) (fullPower { drained with st := .fallow, lanes := 3 })).port 7).lanes = 0 ∧
    ((after (.fallowExit 0 7) (fullPower { drained with st := .fallow, lanes := 3 })).port 7).st = .retrain ∧
    (∃ q ∈ (lowPower resting).lnk.ports, q.2.moving = true) ∧
    (after (.fallowExit 0 7) (fullPower resting)).lnk = (fullPower resting).lnk := by
  decide +kernel

/-- A converted message that waits in the datagram of group 0 since 996,000. -/
def packedMsg : GwMsg := { seg := writeSeg, group := 0, resends := 0, sentAt := 0, packed := true, since := 996000 }

/-- A management message for another group. -/
def farMgmt : Nat × List Byte := (256, [7])

/-- Queue 0, by which its datagrams leave: 1 GB/s with a full bucket of 128 KiB, by port 7. -/
def gramQueue : Queue := { Queue.off with en := true, opr := true, ports := 128, rate := 1000, burst := 131072, tokAt := 1000000 }

/-- A gateway that packs it, by port 7. -/
def packing : State :=
  { up with timer := 1000000
            rmo := { up.rmo with gw := [packedMsg] }
            egq := { up.egq with qs := [(0, gramQueue)] }
            lnk := { up.lnk with ports := [(7, { upPort with mode := 1 })] } }

/-- The same with a management message for group 1. -/
def managing : State := let s := withPd packing 0x4120 1 [5, 0, 6, 0x80]
  { s with lnk := { s.lnk with mgmtOut := [farMgmt] } }

/-- The datagrams that left: the group, the sequence number and the packets of each. -/
def gramsOut (s : State) : List (Nat × BitVec 32 × List Segment) := s.out.filterMap fun o => match o with
  | .datagram g n l _ => some (g, n, l)
  | _ => none

/-- The same without credit. -/
def broke : State := { packing with egq := { packing.egq with qs := [(0, { gramQueue with tokens := -1 })] } }

/-- The same with a packet that waits since 999,000. -/
def fresh : State := { packing with rmo := { packing.rmo with gw := [{ packedMsg with since := 999000 }] } }

/-- R286, R324, R331, R334: a datagram whose oldest packet has waited 1 µs leaves, on VL3, and its frame is charged. -/
theorem witness_datagram_send :
    (packing.arrive 0).gwWaiting 0 = [packedMsg] ∧
    gwTake 64 9154 [packedMsg] = [packedMsg] ∧
    packedMsg.since + us ≤ (packing.arrive 0).timer ∧
    (portList gramQueue.ports).find? (packing.arrive 0).gwUp = some 7 ∧
    packing.egq.qs = [(packing.pdNum 0x4202 0, gramQueue)] ∧
    packing.egq.held = [] ∧
    0 ≤ (gramQueue.settle (packing.arrive 0).timer).tokens ∧
    packing.lnk.mgmtOut = [] ∧
    (packing.arrive 0).gwMgmt 0 = [] ∧
    gramsOut (after (.gatewayDatagramSend 0 0) packing) = [(0, 0, [{ writeSeg with vl := 3 }])] ∧
    lookD (after (.gatewayDatagramSend 0 0) packing).rmo.gseq 0 0 = 1 ∧
    ((after (.gatewayDatagramSend 0 0) packing).queue 0).tokens = 1024 * -(62 + 84) ∧
    (({ gramQueue with tokens := -1 } : Queue).settle (broke.arrive 0).timer).tokens < 0 ∧
    (after (.gatewayDatagramSend 0 0) broke).rmo.dgrams.map (fun d => (d.vl, d.pkts)) = [(3, [{ writeSeg with vl := 3 }])] ∧
    gramsOut (after (.gatewayDatagramSend 0 0) broke) = [] ∧
    (fresh.arrive 0).timer < 999000 + us ∧
    (after (.gatewayDatagramSend 0 0) fresh).rmo = fresh.rmo := by
  decide +kernel

/-- R274, R286: a management message leaves at once. -/
theorem witness_management_datagram :
    managing.egq.qs = [(managing.pdNum 0x4202 1, gramQueue)] ∧
    (managing.arrive 0).gwMgmt 1 = [farMgmt] ∧
    (managing.arrive 0).gwWaiting 1 = [] ∧
    (gramsOut (after (.gatewayDatagramSend 0 1) managing)).map (fun x => (x.1, x.2.1)) = [(1, 0)] ∧
    (after (.gatewayDatagramSend 0 1) managing).lnk.mgmtOut = [] := by
  decide +kernel

/-- A member whose port 7 is in a gateway mode. -/
def gwMember : State := let s := member 16384
  { withPd s 0x4005 2 [0x80] with lnk := { s.lnk with ports := [(7, { upPort with mode := 1 })] } }

/-- The same with no link declared point-to-point. -/
def gwShared : State := { gwMember with pd := (member 16384).pd }

/-- A frame that brings a datagram to UDP port 47,321. -/
def frame : GwFrame :=
  { iface := 0, bytes := 100, tags := 0, ether := 0x0800, options := false, fragment := false, proto := 17, sport := 47321, dport := 47321
    sums := true, mine := true }

/-- A mark in a datagram. -/
def markGram : GwDatagram := { ver := 1, vl := 7, src := 6, dst := 5, gseq := 0, pkts := [], mark := some nextMark }

/-- R285, R287: a mark is taken over a point-to-point link, dropped otherwise; a PAUSE frame is counted. -/
theorem witness_datagram_receive :
    (gwMember.port 7).mode ≠ 0 ∧
    (gwMember.port 7).en = true ∧
    (gwMember.port 7).st = .up ∧
    (gwMember.arrive 0).gwUdp frame = true ∧
    frameFine frame markGram = true ∧
    bitAt (gwMember.pdNum 0x4005 2) 7 = true ∧
    (after (.gatewayDatagramReceive 0 7 frame markGram) gwMember).phs.base = mkPhase 9 3 0 ∧
    bitAt (gwShared.pdNum 0x4005 2) 7 = false ∧
    (after (.gatewayDatagramReceive 0 7 frame markGram) gwShared).phs.base = mkPhase 9 2 0 ∧
    frameFine frame { markGram with ver := 2 } = false ∧
    (after (.gatewayDatagramReceive 0 7 frame { markGram with ver := 2 }) gwMember).phs.base = mkPhase 9 2 0 ∧
    (gwMember.arrive 0).gwUdp { frame with dport := 4790 } = false ∧
    (after (.gatewayDatagramReceive 0 7 { frame with dport := 4790 } markGram) gwMember).phs.base = mkPhase 9 2 0 ∧
    ({ frame with ether := 0x8808 } : GwFrame).ether = 0x8808 ∧
    (after (.gatewayDatagramReceive 0 7 { frame with ether := 0x8808 } markGram) gwMember).pd.count 0x4018 23 = 1 ∧
    ({ markGram with vl := 3, dst := 9 } : GwDatagram).dst ≠ gwMember.nodeId ∧
    (after (.gatewayDatagramReceive 0 7 frame { markGram with vl := 3, dst := 9 }) gwMember).rmo = gwMember.rmo := by
  decide +kernel

/-- R288 to R290: the mode is stored only while permitted; seed 0 is stored as 1. -/
theorem witness_fault_injection :
    (ported upPort).pdBool 0xA010 0 = false ∧
    ((after (.faultInjectCtlWrite 0 7 0xFF7F) (ported upPort)).port 7).fmode = 0 ∧
    ((after (.faultInjectCtlWrite 0 7 0xFF7F) (ported upPort)).port 7).fvlmask = 0xFF ∧
    ((after (.faultInjectCtlWrite 0 7 3) (withPd (ported upPort) 0xA010 0 [1])).port 7).fmode = 3 ∧
    ((after (.faultInjectSeedWrite 0 7 0) (ported upPort)).port 7).fseed = 1 ∧
    ((after (.faultInjectSeedWrite 0 7 9) (ported upPort)).port 7).lfsr = 9 := by
  decide +kernel


/-! ### Rebuild and scrub -/

/-- Ring 9: rank 0 is this node with composition 1, rank `i` node `i + 9`; window 3, pieces of 512 B. -/
def ringBytes : List Byte :=
  [9, 0, 0, 0, 0, 0, 0, 0] ++ [5, 0, 1, 0] ++ ((List.range 8).map fun i => [BitVec.ofNat 8 (i + 10), 0, 1, 0]).flatten ++ [3, 0, 0, 2]

/-- A member of the ring with the page of two pieces, whose queue 7 leads to node 13. -/
def ringMember : State := let s := withPd (paged 2) 0x3400 1 ringBytes
  { s with
    hbm := { s.hbm with banks := [(12, { Bank.ofCfg 6 with entries := [(winKey 77 3, farWin.toUnits)] })] }
    rmo := { s.rmo with send := [(7, { SendEnt.off with fdest := 13, rcid := 2, job := 77, valid := true, cwnd := 262144 })] }
    egq := { s.egq with qs := [(7, { Queue.off with en := true, comp := 1, ports := 0xFF, rate := 100 })] } }

/-- The ring configuration. -/
def ring : RingCfg := (RingCfg.ofBytes ringBytes).getD ⟨0, 0, [], 0, 0⟩

/-- A command to rebuild at node 13, of rank 4, at the last rebuild slot. -/
def ringCmd : RingCmd := { rank := 4, node := 13, frame := 0, offset := 131072 + 63 * 8192, ctx := 8, stream := 0, page := 0, piece := 0 }

/-- R424, R425: REBUILD and SEND_PIECE put an XOR at the offset on the queue to the standby; RECONTRIBUTE moves no page. -/
theorem witness_ring_commands :
    ringMember.ready = true ∧
    ringMember.ringCfg 1 = some ring ∧
    (ringMember.arrive 0).peerQueue 1 13 = some 7 ∧
    ringMember.egq.held = [] ∧
    (ringMember.arrive 0).roomIn 7 = true ∧
    rebuildOffset ringCmd.offset = true ∧
    (ringMember.arrive 0).ringBase 1 ring = some 0x10000 ∧
    ((after (.rebuild 0 1 ringCmd) ringMember).queue 7).waiting.map (fun m => (m.opc, m.addr, m.mlen)) = [(5, 131072 + 63 * 8192, 640)] ∧
    (ringMember.arrive 0).strm? 77 8 0 = some pagedStrm ∧
    (ringMember.arrive 0).page? 77 8 0 0 = some aPage ∧
    (ringMember.arrive 0).frameOf aPage.desc = some (aPage.desc, aFrame) ∧
    ((after (.sendPiece 0 1 ringCmd) ringMember).queue 7).waiting.map (·.opc) = [5] ∧
    (after (.recontribute 0 1 ringCmd) ringMember).pg = ringMember.pg := by
  decide +kernel

/-- A rebuild slot of piece 0 of the page. -/
def aSlotR (st since : Nat) : RSlot := { comp := 1, slot := 63, st, job := 77, ctx := 8, stream := 0, page := 0, piece := 0, since, lost := 4 }

/-- The member with that slot, whose record is complete and names generation `gen`. -/
def rebuilding (st since : Nat) (gen : Byte) : State := { ringMember with
  rel := { ringMember.rel with rslots := [aSlotR st since], pendPages := [(1, 8, 0, 0, 77)] }, mem := [(0x30000 + 63 * 8192 + 55, 0x80), (0x30000 + 63 * 8192 + 60, gen)] }

/-- The bytes of the slot. -/
def slotBytes63 (gen : Byte) : List Byte := (rebuilding 1 0 gen).load (0x10000 + rebuildBase + 8192 * 63) (128 + ring.plen)

/-- R424: a complete slot is freed; the piece is kept under the page's generation and dropped under another. -/
theorem witness_rebuild_slots :
    (rebuilding 1 0 6).rslot? 1 63 = some (aSlotR 1 0) ∧
    ((rebuilding 1 0 6).arrive 0).ringBase 1 ring = some 0x10000 ∧
    ((rebuilding 1 0 6).arrive 0).page? 77 8 0 0 = some aPage ∧
    ((rebuilding 1 0 6).arrive 0).strm? 77 8 0 = some pagedStrm ∧
    slotComplete (slotBytes63 6) (recordPos 4 ((holdersFrom ring.rank (((rebuilding 1 0 6).arrive 0).mapOf aPage).1 (((rebuilding 1 0 6).arrive 0).pieceCount ring pagedStrm aPage)).getD 0 0)) = true ∧
    bitsOf (field (slotBytes63 6) (16 * 3 + 12) 2) 0 12 = aPage.desc.gen ∧
    ((rebuilding 1 0 6).arrive 0).pieceCount ring pagedStrm aPage = 2 ∧
    (rebuilding 1 0 6).rel.pieces = [] ∧
    (after (.rebuildSlotComplete 0 1 63) (rebuilding 1 0 6)).rel.rslots = [] ∧
    (after (.rebuildSlotComplete 0 1 63) (rebuilding 1 0 6)).rel.pieces.map (·.piece) = [0] ∧
    (after (.rebuildSlotComplete 0 1 63) (rebuilding 1 0 7)).rel.pieces = [] ∧
    (after (.rebuildSlotComplete 0 1 63) (rebuilding 1 0 7)).rel.rslots = [] ∧
    (1, 8, 0, 0, 77) ∈ (rebuilding 1 0 6).rel.pendPages ∧
    (((rebuilding 1 0 6).arrive 0).homeOf aPage).gen = aPage.desc.gen := by
  decide +kernel

/-- R424: 100 µs of use, then quarantine, then free. -/
theorem witness_rebuild_slot_times :
    (aSlotR 1 600000).since + 100 * us ≤ ((rebuilding 1 600000 6).arrive 0).timer ∧
    ((after (.rebuildSlotTimeout 0 1 63) (rebuilding 1 600000 6)).rslot? 1 63).map (·.st) = some 2 ∧
    (((rebuilding 1 600000 6).arrive 0).showing 1 aPage).map (fun y => (y.1.job, y.1.ctx, y.2.1, y.2.2.1)) = [(77, 8, 0, 0)] ∧
    ((after (.rebuildSlotTimeout 0 1 63) (rebuilding 1 600000 6)).page? 77 8 0 0).map (·.desc.valid) = some false ∧
    ((after (.rebuildSlotTimeout 0 1 63) (rebuilding 1 600001 6)).rslot? 1 63).map (·.st) = some 1 ∧
    (aSlotR 2 200000).since + (rebuilding 2 200000 6).pdNum 0x4101 1 * ((rebuilding 2 200000 6).pdNum 0x4101 2 + 1) * us ≤ ((rebuilding 2 200000 6).arrive 0).timer ∧
    (after (.rebuildSlotQuarantineEnd 0 1 63) (rebuilding 2 200000 6)).rel.rslots = [] ∧
    (after (.rebuildSlotQuarantineEnd 0 1 63) (rebuilding 2 200001 6)).rel.rslots = [aSlotR 2 200001] := by
  decide +kernel

/-- A node with a corrected line at 64 that has been corrected `n` times, and a byte in it. -/
def corrected (n : Nat) : State := { up with rel := { up.rel with queued := [64], hits := [(64, n)] }, mem := [(70, 3)] }

/-- R405: a line corrected twice is rewritten as it stands; the third time its row is withheld. -/
theorem witness_corrected_rewrite :
    (corrected 1).memOk = true ∧
    (corrected 1).rel.queued.contains (70 / 64 * 64) = true ∧
    lookD ((corrected 1).arrive 0).patrol.rel.hits 64 0 + 1 < 3 ∧
    (after (.correctedRewrite 0 70) (corrected 1)).mem = [(70, 3)] ∧
    (after (.correctedRewrite 0 70) (corrected 1)).rel.rows = [] ∧
    3 ≤ lookD ((corrected 2).arrive 0).patrol.rel.hits 64 0 + 1 ∧
    (after (.correctedRewrite 0 70) (corrected 2)).rel.rows = [0] := by
  decide +kernel

/-- A node after an hour of `n` corrected events of stack 23, at four times the patrol rate. -/
def hourOf (n quiet : Nat) : State := { up with rel := { up.rel with hour := [(23, n)], quiet := [(23, quiet)], rates := [(23, 4)] } }

/-- R404: a busy hour keeps the rate at 4; the 24th quiet hour halves it. -/
theorem test_scrub_rate :
    lookD (after (.scrubRateHour 0 23) (hourOf 4294967296 0)).rel.rates 23 1 = 4 ∧
    lookD (after (.scrubRateHour 0 23) (hourOf 0 23)).rel.rates 23 1 = 2 ∧
    lookD (after (.scrubRateHour 0 23) (hourOf 0 22)).rel.rates 23 1 = 4 := by
  decide +kernel

/-! ### Members, admission, maintenance -/

/-- A node that reaches node 6 by port 7, down since 0. -/
def darkPeer : State := { sender with timer := 1000000000, lnk := { sender.lnk with ports := [(7, { upPort with st := .retrain })] } }

/-- A ROLE notice for node 6. -/
def aRole : Role := { phase := 0, ring := 9, rank := 4, lostC := 1, standC := 1, lost := 13, standby := 6 }

/-- What the page has contributed to its parity frame. -/
def aContrib : Contrib := { comp := 1, key := 20, holder := 1, frame := 0, off := 0, seg := [] }

/-- A page with parity at the lost node, in its lease. -/
def roleAway : State :=
  let s := withPd (holding { aStrm 16 0 0 with npages := 1, pages := [{ aPage with desc := { aPage.desc with tier := 1, node := 13 } }] })
    0x8030 63 ([0x81, 0, 13, 0, 3, 0] ++ List.replicate 18 0)
  { s with rel := { s.rel with pframes := [aContrib] } }

/-- The borrower of lease 63, its lender being the member that the role replaces. -/
def roleLease : State := withPd tenant 0x8030 63 ([0x81, 0, 13, 0, 3, 0] ++ List.replicate 18 0)

/-- R409, R418, R419: a peer of a valid connection with every port dark is unreachable; a role is noted. -/
theorem witness_peer_unreachable :
    (∀ p ∈ portList (darkPeer.routeMask 6), (darkPeer.port p).st ≠ .up ∧ (darkPeer.port p).downAt + darkPeer.pdNum 0x7101 0 * us ≤ (darkPeer.arrive 0).timer) ∧
    portList (darkPeer.routeMask 6) = [7] ∧
    (darkPeer.rmo.send.any fun e => e.2.valid && e.2.fdest == 6) = true ∧
    6 ∉ darkPeer.rel.unreach ∧
    (after (.peerUnreachable 0 6) darkPeer).rel.unreach = [6] ∧
    up.nodeId ≠ aRole.standby ∧
    (after (.roleNotice 0 aRole) up).rel.roles = [aRole] ∧
    (up.leases.all fun l => !l.2.active) = true ∧
    roleLease.ready = true ∧
    roleLease.nodeId ≠ aRole.standby ∧
    aRole.standby < 2 ^ 14 ∧
    (roleLease.leases.filter fun l => l.2.active && !l.2.lender).map (fun l => (l.1, l.2.peer)) = [(63, aRole.lost)] ∧
    (roleAway.leases.filter fun l => l.2.active && !l.2.lender && l.2.peer == aRole.lost).map (·.1) = [63] ∧
    ((roleAway.arrive 0).pagesAt 1 63).map (fun y => (y.1.ctx, y.2.1, y.2.2.1, y.2.2.2.desc.frame, y.2.2.2.desc.borrowed)) = [(8, 0, 0, 20, false)] ∧
    (∃ x ∈ roleAway.rel.pframes, x.key = 20) ∧
    roleAway.rel.pendPages = [] ∧
    (after (.roleNotice 0 aRole) roleAway).rel.pendPages = [(1, 8, 0, 0, 77)] ∧
    (Lease.ofBytes ((after (.roleNotice 0 aRole) roleLease).pd.bytes 0x8030 63)).peer = 6 := by
  decide +kernel

/-- R430, R431: SHADOW and LOAD begin an admission where none runs. -/
theorem witness_admission_begins :
    tenant.rel.joining = none ∧
    tenant.comp? 1 ≠ none ∧
    tenant.phs.sync = false ∧
    (after (.shadow 0 1 6 1 1) tenant).rel.joining.map (·.shadow) = some true ∧
    (after (.load 0 0 6 1 1) tenant).rel.joining.map (·.shadow) = some false ∧
    (after (.shadow 0 2 6 1 1) tenant).rel.joining = none := by
  decide +kernel

/-- An admission. -/
def anAdmit (tested : Bool) (steps : Nat) (crc : BitVec 64) : Admit :=
  { shadow := true, outcome := 1, snode := 6, scomp := 1, lcomp := 1, tested, steps, clean := true, own := [(11, 0, crc)], ready := false }

/-- A node in it. -/
def joining (a : Admit) : State := { tenant with rel := { tenant.rel with joining := some a } }

/-- The block of the member: the last of its step. -/
def aBlock : ShadowBlock := { req := 11, sec := 0, crc := 0xC0FFEE, step := 9, last := true }

/-- R432, R433: a failed self-test or an unequal block ends it; the 1,024th equal step makes it ready. -/
theorem witness_admission_goes_on :
    (anAdmit false 0 0).tested = false ∧
    (after (.admissionSelfTestDone 0 2) (joining (anAdmit false 0 0))).rel.aFail = 2 ∧
    (after (.admissionSelfTestDone 0 2) (joining (anAdmit false 0 0))).rel.joining = none ∧
    (after (.admissionSelfTestDone 0 0) (joining (anAdmit false 0 0))).rel.joining.map (·.tested) = some true ∧
    (anAdmit true 1023 0xC0FFEE).own = [(aBlock.req, aBlock.sec, 0xC0FFEE)] ∧
    (after (.shadowCompare 0 aBlock) (joining (anAdmit true 1023 0xC0FFEE))).rel.joining.map (·.ready) = some true ∧
    (after (.shadowCompare 0 aBlock) (joining (anAdmit true 1022 0xC0FFEE))).rel.joining.map (·.ready) = some false ∧
    (anAdmit true 0 1).own = [(aBlock.req, aBlock.sec, 1)] ∧
    (after (.shadowCompare 0 aBlock) (joining (anAdmit true 0 1))).rel.astatus = .integrity := by
  decide +kernel

/-- A node in activity 4, and in activity 7. -/
def inAct (act : Nat) : State := { tenant with rel := { tenant.rel with acts := [⟨act, 0, 1, 0, false⟩], nextInst := 2 } }

/-- R437, R438: a START without conflict takes the next instance, one with conflict is refused; STOP ends it. -/
theorem witness_maintenance :
    (∀ a ∈ tenant.rel.acts, actConflict 7 0 a.act a.subj = false) ∧
    tenant.pwr.stage = 0 ∧
    subjectOk 7 0 = true ∧
    argOk 7 0 = true ∧
    argOk 4 2 = false ∧
    (after (.maintenanceStart 0 4 0 2) tenant).rel.mstatus = .unsupported ∧
    (after (.maintenanceStart 0 7 0 0) tenant).rel.acts.map (·.act) = [7] ∧
    (after (.maintenanceStart 0 7 0 0) tenant).rel.nextInst = 2 ∧
    (∃ a ∈ (inAct 4).rel.acts, actConflict 4 3 a.act a.subj = true) ∧
    (after (.maintenanceStart 0 4 3 0) (inAct 4)).rel.mstatus = .busyConflict ∧
    (after (.maintenanceStop 0 4 0) (inAct 4)).rel.acts = [] ∧
    subjectOk 4 16 = false ∧
    (after (.maintenanceStart 0 4 16 0) (inAct 4)).rel.mstatus = .unsupported ∧
    subjectOk 5 8 = false ∧
    (after (.maintenanceStop 0 5 8) (inAct 4)).rel.mstatus = .unsupported ∧
    (after (.maintenanceStop 0 5 8) (inAct 4)).rel.acts = (inAct 4).rel.acts ∧
    (after (.fwupdateStaged 0) (inAct 7)).rel.acts = [] := by
  decide +kernel

/-- A fault notice of scope `n` from node 6. -/
def aNotice (n : Nat) : Notice := { phase := 0, node := 6, subj := 6, scope := n, comp := none, ring := 0, rank := 0 }

/-- A master whose step has been held three times. -/
def thriceHeld : State := let s := leaderAtLast; { s with phs := { s.phs with holds := 3 } }

/-- R416, R423: scope 6, or the fourth hold, restarts the job; a member does not act. -/
theorem witness_fault_notice :
    (leader 0).ready = true ∧
    (leader 0).phs.master = true ∧
    (leader 0).phs.sync = true ∧
    (leader 0).rel.joining = none ∧
    (after (.faultNotice 0 (aNotice 6)) (leader 0)).rel.restarted = true ∧
    (after (.faultNotice 0 (aNotice 7)) (leader 0)).phs.held = true ∧
    (if thriceHeld.phs.held then 4 else 3) ≤ thriceHeld.phs.holds ∧
    (after (.faultNotice 0 (aNotice 1)) thriceHeld).rel.restarted = true ∧
    (member 0).phs.master = false ∧
    (after (.faultNotice 0 (aNotice 6)) (member 0)).rel = (member 0).rel := by
  decide +kernel

/-- The master in the last layer, 262,144 ticks after the nominal end, with no report. -/
def waitsReports : State := { thriceHeld with timer := 900000 + 16 * 263168 }

/-- R42, R423: past its timeout with reports missing and the fourth hold, the job is restarted. -/
theorem witness_barrier_timeout :
    waitsReports.phs.held = false ∧
    waitsReports.lastLayer = true ∧
    waitsReports.period + waitsReports.pdNum 0x7030 0 ≤ (waitsReports.arrive 0).elapsed ∧
    waitsReports.allReported = false ∧
    3 ≤ waitsReports.phs.holds := by
  decide +kernel

/-- The same at the second HOLD of the step, while a standby is awaited or not. -/
def twiceHeld (w : List (Nat × Nat)) : State :=
  { waitsReports with phs := { waitsReports.phs with holds := 2 }, rel := { waitsReports.rel with waiting := w } }

/-- R423: the premises of the third HOLD, with and without a standby, and of a barrier that has time left. -/
theorem witness_barrier_timeout_again :
    (twiceHeld [(9, 4)]).phs.held = false ∧
    (twiceHeld [(9, 4)]).phs.holds < 3 ∧
    (twiceHeld [(9, 4)]).rel.waiting ≠ [] ∧
    (twiceHeld []).rel.waiting = [] ∧
    (twiceHeld []).rel.restarted = false ∧
    (twiceHeld []).allReported = false ∧
    (twiceHeld []).lastLayer = true ∧
    (twiceHeld []).period + (twiceHeld []).pdNum 0x7030 0 ≤ ((twiceHeld []).arrive 0).elapsed ∧
    (thriceHeld.arrive 0).elapsed < thriceHeld.period + thriceHeld.pdNum 0x7030 0 ∧
    (after (.barrierTimeout 0) thriceHeld).phs = thriceHeld.phs := by
  decide +kernel

/-- R419: the node is a member of no ring, so no missing node is a lost member. -/
theorem witness_no_lost_members (n : Nat) :
    ((twiceHeld []).arrive 0).masterHold.lostMembers (((twiceHeld []).arrive 0).masterHold.nodeNotice n) = [] := by
  have h : (List.range 16).filterMap ((twiceHeld []).arrive 0).masterHold.ringCfg = [] := by decide +kernel
  simp [State.lostMembers, State.nodeNotice, h]

/-- A held master that waits for standbys. -/
def awaiting (w : List (Nat × Nat)) : State := { heldLeader with rel := { heldLeader.rel with waiting := w } }

/-- R420: after the last standby the Phase goes on, and not before. -/
theorem witness_standby_ready :
    (awaiting [(9, 4), (9, 5)]).phs.held = true ∧
    (9, 4) ∈ (awaiting [(9, 4), (9, 5)]).rel.waiting ∧
    (∃ w ∈ (awaiting [(9, 4), (9, 5)]).rel.waiting, w ≠ (9, 4)) ∧
    (after (.standbyReady 0 9 4) (awaiting [(9, 4), (9, 5)])).rel.waiting = [(9, 5)] ∧
    (after (.standbyReady 0 9 4) (awaiting [(9, 4), (9, 5)])).phs.held = true ∧
    (∀ w ∈ (awaiting [(9, 4)]).rel.waiting, w = (9, 4)) ∧
    (awaiting [(9, 4)]).rel.restarted = false ∧
    (after (.standbyReady 0 9 4) (awaiting [(9, 4)])).phs.held = false := by
  decide +kernel

/-! ### Power -/

/-- A node after 99 samples of 2,401 W, with the limit at 2,400 W. -/
def capped : State := { up with pwr := { up.pwr with watts := List.replicate 99 2401 } }

/-- R446, R449: the mean is rounded to 25 W; a full millisecond above the limit engages it. -/
theorem witness_power_samples :
    (after (.powerSample 0 2401 (some 1012)) up).pwr.reading = 1000 ∧
    (after (.powerSample 0 2401 (some 1013)) up).pwr.reading = 1025 ∧
    ((2401 :: capped.pwr.watts).take 100).length = 100 ∧
    capped.pwr.cap = false ∧
    (capped.pdNum 0x2001 0 : Rat) < (((2401 :: capped.pwr.watts).take 100).sum : Rat) / 100 ∧
    (after (.powerSample 0 2401 none) capped).pwr.cap = true ∧
    (after (.powerSample 0 2301 none) capped).pwr.cap = false := by
  decide +kernel

/-- 29 temperatures: the first, and 40 °C elsewhere but for sensor 5. -/
def temps (a h : Int) : List Int := a :: (List.replicate 4 40 ++ h :: List.replicate 23 40)

/-- R453 to R455: a trip at 115 °C of a logic die or 100 °C of a stack; below it the throttle levels. -/
theorem witness_thermal_samples :
    up.boot.powered = true ∧
    up.boot.perst = false ∧
    up.pwr.trip = false ∧
    (after (.thermalSample 0 (temps 115 40)) up).pwr.trip = true ∧
    (after (.thermalSample 0 (temps 40 100)) (corrected 1)).boot.thermTrip = true ∧
    (after (.thermalSample 0 (temps 40 100)) (corrected 1)).mem = [] ∧
    (after (.thermalSample 0 (temps 114 99)) up).pwr.throt = 2 ∧
    (after (.thermalSample 0 (temps 104 94)) up).pwr.throt = 1 ∧
    (after (.thermalSample 0 (temps 104 95)) up).pwr.hbmHot = true ∧
    (after (.thermalSample 0 (temps 99 94)) up).pwr.throt = 0 := by
  decide +kernel

/-- A node whose power registers are locked. -/
def powerLocked : State := { up with pwr := { up.pwr with lock := true } }

/-- R442, R443, R464: SLEW is clamped to 50 to 250, a locked register stays; warnings and sags are noted. -/
theorem witness_power_registers :
    up.pwr.lock = false ∧
    (after (.govCtlWrite 0 0x3FF) up).pwr.slewNext = some 250 ∧
    (after (.govCtlWrite 0 0) up).pwr.slewNext = some 50 ∧
    (after (.govCtlWrite 0 0) up).pwr.ballast = false ∧
    (after (.govCtlWrite 0 0) powerLocked).pwr.ballast = true ∧
    (after (.pwrWarnAssert 0) up).pwr.warn = true ∧
    (after (.pwrWarnAssert 0) up).pwr.warnAt = 1000000 ∧
    (after (.pwrWarnDeassert 0) up).pwr.warn = false ∧
    (after (.supplySag 0 4) up).pwr.sag = 4 := by
  decide +kernel

/-- R443: the rise of a slot begins once. -/
theorem witness_governor_rise :
    (scheduled 8 []).ready = true ∧
    (scheduled 8 []).slots.find? (fun e => e.1 == 4095) = some (4095, aSlot) ∧
    4095 ∉ (scheduled 8 []).pwr.rises ∧
    (after (.governorRiseStart 0 4095) { scheduled 8 [] with pwr := { up.pwr with ballast := false } }).pwr.rises = [4095] := by
  decide +kernel

/-- A node with PWR_WARN since 0, at the delay of stage 3. -/
def warned : State := { tenant with timer := 160000, pwr := { tenant.pwr with warn := true, warnAt := 0 } }

/-- A node in a stage. -/
def staged_ (n : Nat) (t : Nat) : State := { tenant with timer := t, pwr := { tenant.pwr with stage := n, stageAt := 0 } }

/-- R456, R457: the deepest triggered stage is entered; stage 6 ends after 50 µs; stages 1 to 5 after 1 ms. -/
theorem witness_shed_stages :
    warned.pwr.off = false ∧
    (warned.arrive 0).trigger 1 = true ∧
    warned.pwr.stage < 6 ∧
    warned.pwr.stage < ((List.range 7).filter fun n => (warned.arrive 0).trigger n).foldl max 0 ∧
    (after (.shedStageEnter 0 1) warned).pwr.stage = 3 ∧
    (after (.shedStageEnter 0 1) warned).pwr.stagehi = 3 ∧
    (staged_ 6 200000).pwr.stageAt + 50 * us ≤ ((staged_ 6 200000).arrive 0).timer ∧
    (after (.stage6End 0) (staged_ 6 200000)).pwr.stage = 7 ∧
    (staged_ 5 4000000).pwr.held = false ∧
    (staged_ 5 4000000).pwr.sag < 2 ∧
    lookD (staged_ 5 4000000).pwr.lastHeld 5 0 + ms ≤ ((staged_ 5 4000000).arrive 0).timer ∧
    (after (.shedStageExit 0) (staged_ 5 4000000)).pwr.stage = 4 ∧
    (after (.shedStageExit 0) (staged_ 5 3999999)).pwr.stage = 5 := by
  decide +kernel

/-- A node that is not of a composition, idle in stage 7. -/
def idled : State := { up with pwr := { up.pwr with stage := 7, idle := true } }

/-- A card whose Security Core is down. -/
def coreDown : State := { up with sec := { up.sec with up := false } }

/-- R458, R459, R462: holdover ends after 10 ms of clean rails into stage 5 held; RESUME; IDLE and back. -/
theorem witness_holdover_and_idle :
    (staged_ 7 40000000).pwr.idle = false ∧
    (staged_ 7 40000000).pwr.clean = true ∧
    (staged_ 7 40000000).pwr.cleanAt + 10 * ms ≤ ((staged_ 7 40000000).arrive 0).timer ∧
    (after (.holdoverExit 0) (staged_ 7 40000000)).pwr.stage = 5 ∧
    (after (.holdoverExit 0) (staged_ 7 40000000)).pwr.held = true ∧
    onHold.pwr.held = true ∧
    (after (.powerResume 0) onHold).pwr.held = false ∧
    bitAt (2 : BitVec 32).toNat 1 = true ∧
    up.sch.en = false ∧
    (∀ k ∈ up.cmp.comps, k.2.st ≠ .active ∧ k.2.st ≠ .shrinking) ∧
    up.pwr.stage = 0 ∧
    (after (.idleFallow 0 2) up).pwr.stage = 7 ∧
    idled.pwr.idle = true ∧
    (after (.idleFallow 0 0) idled).pwr.stage = 0 ∧
    coreDown.boot.powered = true := by
  decide +kernel


/-! ### Start-up, clocks, test access -/

/-- A card in a boot stage. -/
def bootAt (n : Nat) : State := { State.reset with
  timer := 1000000, boot := { State.reset.boot with stage := n }, sec := { State.reset.sec with up := true, zero := n == 3 }, mem := [(5, 5)] }

/-- A node with a signed configuration. -/
def configured : State := { corrected 1 with pd := { up.pd with stored := [(0x1001, 0, [9, 0])] } }

/-- R511, R512, R525: PERST_N and TESTEN clear memory and keep the configuration; power removal clears a trip as well. -/
theorem witness_resets :
    configured.boot.powered = true ∧
    (after (.perstNAssert 0) configured).mem = [] ∧
    (after (.perstNAssert 0) configured).pd.stored = [(0x1001, 0, [9, 0])] ∧
    (after (.perstNAssert 0) configured).ready = false ∧
    (after (.testenHigh 0) configured).boot.testen = true ∧
    (after (.powerRemoved 0) (after (.thermalSample 0 (temps 115 40)) up)).pwr.trip = false ∧
    (after (.powerRemoved 0) configured).boot.powered = false := by
  decide +kernel

/-- A card in reset. -/
def inReset : State := after (.perstNAssert 0) configured

/-- R513, R514: the address strap gives 0x60 to 0x63; either image leads on, none to FAILED 1. -/
theorem witness_boot_begins :
    inReset.boot.perst = true ∧
    inReset.pwr.trip = false ∧
    (after (.perstNDeassert 0 3) inReset).boot.smbAddr = 0x63 ∧
    (after (.perstNDeassert 0 3) inReset).boot.stage = 0 ∧
    (bootAt 0).booting 0 = true ∧
    (after (.romVerifyDone 0 false true) (bootAt 0)).boot.stage = 1 ∧
    (after (.romVerifyDone 0 false true) (bootAt 0)).sec.boot = 2 ∧
    (after (.romVerifyDone 0 false false) (bootAt 0)).boot.stage = 15 ∧
    (after (.romVerifyDone 0 false false) (bootAt 0)).boot.fail = 1 := by
  decide +kernel

/-- A card in boot stage 1 with its stored Node ID. -/
def storedNode : State := { bootAt 1 with pd := { up.pd with stored := [(0x1001, 0, [9, 0])] } }

/-- R514 to R516: the stored Node ID is in effect and ports train; one working stack is enough. -/
theorem witness_boot_stages_1_and_2 :
    storedNode.booting 1 = true ∧
    storedNode.sec.up = true ∧
    (after (.scStageDone 0 true false) storedNode).boot.nodeId = 9 ∧
    (after (.scStageDone 0 true false) storedNode).boot.stage = 2 ∧
    ((after (.scStageDone 0 true false) storedNode).port 7).st = .training ∧
    (bootAt 2).booting 2 = true ∧
    (after (.hbmTrainingDone 0 (List.range 23)) (bootAt 2)).boot.stage = 3 ∧
    (after (.hbmTrainingDone 0 (List.range 23)) (bootAt 2)).boot.badStacks = List.range 23 ∧
    (after (.hbmTrainingDone 0 (List.range 24)) (bootAt 2)).boot.fail = 2 := by
  decide +kernel

/-- A node that erases in the background. -/
def erasing : State := { up with boot := { up.boot with flashbg := true, erase := 3 } }

/-- No channel of that node has a retired block, so that every channel goes on working, whatever the number of blocks. -/
theorem witness_flash_holds_all : ∀ n, n < 32 → FlashHolds n (erasing.flash n) := by
  intro n hn
  right
  have h : (erasing.flash n).retired = 0 := by revert n; decide
  simp [h]

/-- A boot paused by the supply. -/
def pausedBoot : State := { bootAt 2 with timer := 40000000, boot := { (bootAt 2).boot with paused := true } }

/-- The parameter pages of channel 0: one target that fits, and one whose spare area is a byte short. -/
def pages0 : List (List TargetPage) := [[⟨16384, 1344, true, 4, 4⟩, ⟨16384, 1343, true, 1, 1⟩]]

/-- R517 to R519, R522: zeroisation leaves no byte; flash training ends in READY; a pause ends after 10 ms. -/
theorem witness_boot_stages_3_and_4 :
    (bootAt 3).booting 3 = true ∧
    (after (.zeroisationDone 0) (bootAt 3)).mem = [] ∧
    (after (.zeroisationDone 0) (bootAt 3)).boot.stage = 4 ∧
    (bootAt 4).booting 4 = true ∧
    (after (.flashTrainingDone 0 pages0 [] [[⟨6, 10⟩, ⟨7, 20⟩]]) (bootAt 4)).boot.ready = true ∧
    ((after (.flashTrainingDone 0 pages0 [] [[⟨6, 10⟩, ⟨7, 20⟩]]) (bootAt 4)).flash 0).targets = 1 ∧
    ((after (.flashTrainingDone 0 pages0 [] [[⟨6, 10⟩, ⟨7, 20⟩]]) (bootAt 4)).flash 0).refused = true ∧
    ((after (.flashTrainingDone 0 pages0 [] [[⟨6, 10⟩, ⟨7, 20⟩]]) (bootAt 4)).flash 1).up = false ∧
    (after (.flashTrainingDone 0 pages0 [] [[⟨6, 10⟩, ⟨7, 20⟩]]) (bootAt 4)).boot.erase = 2 ∧
    (look (scanned [5] [⟨6, 10⟩, ⟨7, 20⟩]) 5).map (·.retired) = some true ∧
    (((after (.flashTrainingDone 0 pages0 [] [[⟨6, 10⟩, ⟨7, 20⟩]]) (bootAt 4)).flash 0).block 4).erases = 15 ∧
    (after (.flashTrainingDone 0 pages0 [] [[⟨6, 10⟩, ⟨7, 20⟩]]) (bootAt 4)).hbm.adirEn = true ∧
    (after (.flashTrainingDone 0 pages0 [] [[⟨6, 10⟩, ⟨7, 20⟩]]) (bootAt 4)).boot.flashbg = true ∧
    (after (.flashTrainingDone 0 pages0 [] []) (bootAt 4)).boot.flashbg = false ∧
    erasing.ready = true ∧
    erasing.boot.flashbg = true ∧
    pausedBoot.boot.paused = true ∧
    pausedBoot.pwr.sag < 3 ∧
    lookD pausedBoot.pwr.lastHeld 1 0 + 10 * ms ≤ (pausedBoot.arrive 0).timer ∧
    (after (.bootStageRestart 0) pausedBoot).boot.paused = false ∧
    (after (.bootStageRestart 0) { pausedBoot with timer := 39999999 }).boot.paused = true := by
  decide +kernel

/-- A node with its port 7 up and the host link. -/
def clocked : State := { ported upPort with hif := { up.hif with rate := 5, width := 16 } }

/-- The node with its fabric clock lost. -/
def fabLost : State := after (.refclkFabLoss 0) clocked

/-- R531 to R534: what stops with each reference clock, and what its return restarts. -/
theorem witness_clocks :
    clocked.boot.coreClk = true ∧
    (after (.refclkCoreLoss 0) clocked).ready = false ∧
    (after (.refclkCoreLoss 0) clocked).boot.nodeRdy = false ∧
    clocked.boot.fabClk = true ∧
    (fabLost.port 7).st = .retrain ∧
    fabLost.boot.fabClk = false ∧
    (after (.refclkFabReturn 0) fabLost).boot.fabClk = true ∧
    ((after (.refclkFabReturn 0) fabLost).port 7).st = .retrain ∧
    (after (.refclkPcieLoss 0) clocked).hif.rate = 0 ∧
    (after (.refclkPcieLoss 0) clocked).boot.pcieClk = false := by
  decide +kernel

/-- A node being powered down. -/
def goingDown : State := { tenant with pwr := { tenant.pwr with off := true } }

/-- A node with a stored value not yet persisted. -/
def unsaved : State := { up with pd := { up.pd with vals := [(0x2001, 0, [0, 8])], unsaved := [(0x2001, 0)] } }

/-- R504, R523, R524: power-down is noted once and ends; a stored write is persisted. -/
theorem witness_power_down_and_persistence :
    tenant.pwr.off = false ∧
    (after (.orderlyPowerDown 0) tenant).pwr.off = true ∧
    (after (.orderlyPowerDown 0) tenant).noAdmission = true ∧
    goingDown.pwr.off = true ∧
    goingDown.pwr.offok = false ∧
    (goingDown.arrive 0).shedDone = true ∧
    (after (.powerDownReady 0) goingDown).pwr.offok = true ∧
    unsaved.pd.unsaved = [(0x2001, 0)] ∧
    unsaved.staged (0x2001, 0) = false ∧
    (unsaved.arrive 0).inForce 0x2001 0 = some [0, 8] ∧
    (after (.configPersist 0) unsaved).pd.stored = [(0x2001, 0, [0, 8])] ∧
    (after (.configPersist 0) unsaved).pd.unsaved = [] := by
  decide +kernel

/-- A card with an AVS request of 700 mV in flight, tried `n` times. -/
def avs (n : Nat) : State := { up with boot := { up.boot with avsWant := some 700, avsTries := n, alert := true } }

/-- R452, R530: a request is retried once, then given up; the alert line is released. -/
theorem witness_avs_and_alert :
    (avs 0).boot.avsWant = some 700 ∧
    (after (.avsRequestTimeout 0) (avs 0)).boot.avsTries = 1 ∧
    (avs 1).boot.avsTries ≠ 0 ∧
    (after (.avsRequestTimeout 0) (avs 1)).boot.avsWant = none ∧
    (after (.smbAlertResponse 0) (avs 0)).boot.alert = false := by
  decide +kernel

/-- A sealed card with a composition. -/
def tapShut : State := sealedCard

/-- An open card whose private instructions may run. -/
def tapPriv : State := { clocked with sec := { clocked.sec with tappriv := true } }

/-- The card with memory debug open, a grant decided on pseudo-channel 0 and a byte at 70. -/
def tapDebug : State := { tapPriv with
  sec := { tapPriv.sec with memdbg := true }, mem := [(70, 3)], hbm := { tapPriv.hbm with arbs := [(0, { Arb.idle with grant := some rdReq })] } }

/-- R535: the instructions of an open test port; boundary instructions stop the node until reset; a closed port only bypasses. -/
theorem witness_jtag :
    clocked.boot.powered = true ∧
    clocked.tapClosed = false ∧
    (after (.bypass 0) clocked).boot.ir = 0xFF ∧
    (after (.idcode 0) clocked).boot.tdo = some 0x1A2405CB ∧
    (after (.samplePreload 0 0xA5) clocked).boot.cells = 0xA5 ∧
    (after (.extest 0) clocked).ready = false ∧
    ((after (.clamp 0) clocked).port 7).st = .down ∧
    ((after (.highz 0) clocked).port 7).en = false ∧
    (after (.extestPulse 0) clocked).boot.ir = 6 ∧
    (after (.extestTrain 0) clocked).boot.dead = true ∧
    privateOpcode 0x80 = true ∧
    (after (.privateInstruction 0 ⟨0x80, none⟩) clocked).boot.ir = 0xFF ∧
    (after (.privateInstruction 0 ⟨0x80, none⟩) tapPriv).boot.ir = 0x80 ∧
    tapDebug.boot.powered = true ∧
    tapDebug.tapClosed = false ∧
    isHbm 70 = true ∧
    (after (.privateInstruction 0 ⟨0x80, some ⟨70, 2, none⟩⟩) tapDebug).out = [.debugRead 70 [3, 0]] ∧
    ((after (.privateInstruction 0 ⟨0x80, some ⟨70, 2, none⟩⟩) tapDebug).arb 0).grant = none ∧
    (after (.privateInstruction 0 ⟨0x80, some ⟨70, 2, some [9]⟩⟩) tapDebug).mem = [(70, 9)] ∧
    isSram 0x1000000000000 = true ∧
    (after (.privateInstruction 0 ⟨0x80, some ⟨0x1000000000000, 1, some [9]⟩⟩) tapDebug).mem = [(70, 3), (0x1000000000000, 9)] ∧
    tapPriv.sec.memdbg = false ∧
    (after (.privateInstruction 0 ⟨0x80, some ⟨70, 2, some [9]⟩⟩) tapPriv).mem = tapPriv.mem ∧
    tapShut.tapClosed = true ∧
    (after (.idcode 0) tapShut).boot.tdo = none ∧
    (after (.extest 0) tapShut).boot.dead = false := by
  decide +kernel

/-! ### The Parameter Directory -/

/-- An item for the power limit, PD 0x2001.00. -/
def limitItem (value : List Byte) : PdItem := { index := 0x2001, sub := 0, iop := 0, seg := false, last := false, offset := 0, len := value.length, value }

/-- R493, R496: the power limit is a U16 that the Operator writes, with default 2,400, stored. -/
theorem test_pd_entry :
    (pdFind 0x2001 0).map (fun e => (e.typ, e.op, e.dflt, e.stored)) = some (.u16, .rw, 2400, true) := by
  decide +kernel

/-- R500, R501: the Operator reads the limit, a composition is denied, DESCRIBE defines it; before READY all is NOT_READY. -/
theorem witness_pd_read :
    up.alive = true ∧
    ((pdFind 0x2001 0).map fun e => (e.access .operator 0).reads) = some true ∧
    (after (.pdRead 0 .operator (limitItem [])) up).out = [.pdItem .operator ⟨0x2001, 0, .ok, PdType.code .u16, [0x60, 9]⟩] ∧
    ((pdFind 0x2001 0).map fun e => (e.access (.composition 1) 0).reads) = some false ∧
    (after (.pdRead 0 (.composition 1) (limitItem [])) up).out = [.pdItem (.composition 1) ⟨0x2001, 0, .accessDenied, PdType.code .u16, []⟩] ∧
    ((pdFind 0x2001 0).map fun e => decide (e.access .operator 0 ≠ .no)) = some true ∧
    (after (.pdDescribe 0 .operator (limitItem [])) up).pd = up.pd ∧
    (bootAt 4).alive = true ∧
    (bootAt 4).boot.ready = false ∧
    (after (.pdRead 0 .operator (limitItem [])) (bootAt 4)).out = [.pdItem .operator ⟨0x2001, 0, .notReady, 0, []⟩] := by
  decide +kernel

/-- R501, R504: a write in range is in force and unsaved, one out of range or by another principal changes nothing. -/
theorem witness_pd_write :
    ((pdFind 0x2001 0).map fun e => (e.access .operator 0).writes) = some true ∧
    (up.arrive 0).stagingOf 0x2001 0 = none ∧
    ((pdFind 0x2001 0).map fun e => (up.arrive 0).writeRefusal e 0 [0x60, 9]) = some none ∧
    ((pdFind 0x2001 0).map fun e => e.op != .wo && e.index != 0x5010 && e.index != 0x3050 && e.index != 0x4210 && e.index != 0x6001 && decide (e.index < 0x5100 ∨ 0x510F < e.index)) = some true ∧
    (after (.pdWrite 0 .operator (limitItem [0x60, 9])) up).pd.unsaved = [(0x2001, 0)] ∧
    ((pdFind 0x2001 0).map fun e => (up.arrive 0).writeRefusal e 0 [0]) = some (some .unsupported) ∧
    (after (.pdWrite 0 .operator (limitItem [0])) up).pd = up.pd ∧
    ((pdFind 0x2001 0).map fun e => (e.access .pub 0).writes) = some false ∧
    (after (.pdWrite 0 .pub (limitItem [0x60, 9])) up).pd.vals = up.pd.vals := by
  decide +kernel

/-- The first segment, of eight bytes, of the route table, PD 0x4004.00. -/
def routeItem : PdItem := { index := 0x4004, sub := 0, iop := 1, seg := true, last := false, offset := 0, len := 8, value := List.replicate 8 1 }

/-- A staging copy from 1,000,000 on. -/
def stagedNode : State := { up with timer := 1000000 + 1000 * ms, pd := { up.pd with staging := [⟨0x4004, 0, [1], 1, 1000000, 0⟩] } }

/-- R500, R503: a segment is staged for 1 s; DEFAULT leaves the default; NEXT finds the next entry. -/
theorem witness_pd_staging_default_next :
    ((pdFind 0x4004 0).map fun e => e.typ.isBytes && (e.access .operator 0).writes && e.op != .wo && decide (0 + 8 ≤ e.maxLen)) = some true ∧
    up.sec.up = true ∧
    (after (.pdWrite 0 .operator routeItem) up).pd.staging.map (·.len) = [8] ∧
    (after (.pdWrite 0 .operator routeItem) up).pd.vals = up.pd.vals ∧
    ((pdFind 0x2001 0).map fun e => (up.arrive 0).writeRefusal e 0 (pdDefault e.index 0)) = some none ∧
    (after (.pdDefault 0 .operator (limitItem [])) unsaved).pd.bytes 0x2001 0 = [0x60, 9] ∧
    (nextItem .operator (limitItem [])).index = 0x2002 ∧
    (after (.pdStagingTimeout 0 0x4004 0) stagedNode).pd.staging = [] ∧
    (after (.pdStagingTimeout 0 0x4004 0) { stagedNode with timer := 1000 }).pd.staging = stagedNode.pd.staging := by
  decide +kernel

/-- A message with one READ of the limit. -/
def pdMsg (ver : Nat) (authf : Bool) (seq : BitVec 32) : PdMsg :=
  { ver, dir := 1, nitem := 1, authf, seq, kgen := 0, bytes := 40, plenOk := true, authOk := true, src := 0, items := [limitItem []] }

/-- A node that answered sequence number 5 of the Operator over Ethernet. -/
def answered : State := { withPd up 0x1021 0 [0] with
  pd := { (withPd up 0x1021 0 [0]).pd with seqs := [⟨1, 0, 5, .ok, []⟩] } }

/-- R497 to R499, R505: one answer for each item; a misshapen message is UNSUPPORTED; repeats are answered again. -/
theorem witness_pd_messages :
    shapeOk (pdMsg 1 false 1) = true ∧
    (after (.pdpMessage 0 .mctpPcie (pdMsg 1 false 1)) up).out.head?.map (fun o => match o with | .pd _ st _ l => (st, l.length) | _ => (.ok, 0)) = some (.ok, 1) ∧
    shapeOk (pdMsg 2 false 1) = false ∧
    (after (.pdpMessage 0 .mctpPcie (pdMsg 2 false 1)) up).out = [.pd .mctpPcie .unsupported 1 []] ∧
    (answered.pd.seqs.find? fun x => x.who == principalCode .operator && x.tr == transportCode .ethernet) = some ⟨1, 0, 5, .ok, []⟩ ∧
    answered.genOk 0 0 = true ∧
    (after (.pdpMessage 0 .ethernet (pdMsg 1 true 5)) answered).out = [.pd .ethernet .ok 5 []] ∧
    seqEarlier 5 4 = false ∧
    (after (.pdpMessage 0 .ethernet (pdMsg 1 true 4)) answered).pd.count 0x1030 2 = 1 ∧
    bitAt (answered.pdNum 0x1021 0) 0 = false ∧
    (after (.pdpMessage 0 .ethernet (pdMsg 1 false 9)) answered).pd.count 0x1030 2 = 1 ∧
    (after (.pdMailboxGo 0 (pdMsg 1 false 1)) up).pd.done = true := by
  decide +kernel

/-- A node whose management port has the address 10.0.0.7. -/
def addressed : State := { up with boot := { up.boot with mac := [2, 0, 0, 0, 0, 1], ip4 := [10, 0, 0, 7, 24] } }

/-- R498: the port answers for its own address and for no other. -/
theorem witness_management_port :
    2 ≤ addressed.boot.stage ∧
    addressed.ownAddress false 0x0A000007 = true ∧
    (after (.arpRequest 0 0x0A000007) addressed).out = [.net 1 [2, 0, 0, 0, 0, 1]] ∧
    addressed.ownAddress false 0x0A000008 = false ∧
    (after (.arpRequest 0 0x0A000008) addressed).out = [] ∧
    addressed.ownAddress true 0xFE80000000000000000000FFFE000001 = true ∧
    (after (.neighbourSolicitation 0 0xFE80000000000000000000FFFE000001) addressed).out = [.net 2 [2, 0, 0, 0, 0, 1]] ∧
    (after (.echoRequest 0 0x0A000007 false [1, 2]) addressed).out = [.net 3 [1, 2]] := by
  decide +kernel

/-! ### The host interface -/

/-- A node whose VF 3 stands as given; composition 1 has no keys, so that the host may reach it. -/
def vfAt (x : Vf) : State := { unkeyed with hif := { unkeyed.hif with vfs := [(3, x)] } }

/-- A ring of 256 entries at its last, with the highest sequence number. -/
def ringOn : Vf := { Vf.off with en := true, lsize := 8, base := 0x100000, head := 255, tail := 255, seq := 0xFFFFFFFF }

/-- A mailbox that holds a result. -/
def readyBox : Mbx := { Mbx.free with st := .ready, seq := 7 }

/-- R476, R477: a ring that is off stores the tail; one that is on reads its entry, or stalls at a mailbox in use. -/
theorem witness_doorbells :
    (vfAt ringOn).ready = true ∧
    (vfAt ringOn).hostUp = true ∧
    ((after (.doorbell 0 3 9) (vfAt Vf.off)).vf 3).tail = 9 ∧
    ringOn.head ≠ 0 % 256 % 2 ^ ringOn.lsize ∧
    (ringOn.box 255).st = .free ∧
    ((after (.doorbell 0 3 0) (vfAt ringOn)).vf 3).seq = 1 ∧
    (after (.doorbell 0 3 0) (vfAt ringOn)).out = [.hostRead 3 (0x100000 + 32 * 255) 32] ∧
    (({ ringOn with mbx := [(255, readyBox)] } : Vf).box 255).st ≠ .free ∧
    ((after (.doorbell 0 3 0) (vfAt { ringOn with mbx := [(255, readyBox)] })).vf 3).stall = true := by
  decide +kernel

/-- The ring while entry 255 is being read. -/
def fetchingRing : Vf := { ringOn with head := 0, tail := 0, fetching := true, seq := 1, mbx := [(255, { Mbx.free with st := .busy, seq := 1 })] }

/-- The entry: the request at 0x2000 with its result region at 0x3000. -/
def entry : SubEntry := { req := 0x2000, rlen := 64 + 64 * 5, irq := false, res := 0x3000, reslen := 0x10000, readOk := true }

/-- VF 3 while admission is held. -/
def vfHeld : State := let s := vfAt fetchingRing
  { s with pwr := { s.pwr with held := true }, pg := (holding (aStrm 0 0 0)).pg }

/-- R477, R478: a refused fetch makes its mailbox READY; one that passes while admission is held waits; a timeout sets ERR. -/
theorem witness_fetches :
    (fetchingRing.box ((0 + 2 ^ 8 - 1) % 2 ^ 8)).st = .busy ∧
    ((vfAt fetchingRing).arrive 0).fetchCheck 3 { entry with req := 0x2001 } (.attend attend) = some .unsupported ∧
    ((((after (.submissionFetch 0 3 { entry with req := 0x2001 } (.attend attend)) (vfAt fetchingRing)).vf 3).box 255).st) = .ready ∧
    ((((after (.submissionFetch 0 3 { entry with req := 0x2001 } (.attend attend)) (vfAt fetchingRing)).vf 3).box 255).status) = .unsupported ∧
    (vfHeld.arrive 0).fetchCheck 3 entry (.attend attend) = none ∧
    vfHeld.noAdmission = true ∧
    (after (.submissionFetch 0 3 entry (.attend attend)) vfHeld).rq.held = [.attendRequest 1000000 (.doorbell 3 255) attend] ∧
    ((after (.submissionFetch 0 3 entry (.attend attend)) vfHeld).vf 3).fetching = false ∧
    ((after (.fetchTimeout 0 3 none) (vfAt fetchingRing)).vf 3).err = true ∧
    ((((after (.fetchTimeout 0 3 none) (vfAt fetchingRing)).vf 3).box 255).status) = .integrity := by
  decide +kernel

/-- R479 to R481: a read of W0 latches and consumes; a release frees under the right sequence number only. -/
theorem witness_mailboxes :
    (readyBox.seq).toNat = bitsOf (0x700FF : BitVec 64).toNat 16 32 ∧
    ((after (.mailboxRead 0 3 255 true) (vfAt { ringOn with mbx := [(255, readyBox)] })).vf 3).latched 255 = readyBox ∧
    (((after (.mailboxRead 0 3 255 true) (vfAt { ringOn with mbx := [(255, readyBox)] })).vf 3).box 255).consumed = true ∧
    (((after (.mailboxRelease 0 3 0x700FF) (vfAt { ringOn with mbx := [(255, readyBox)] })).vf 3).box 255).st = .free ∧
    readyBox.seq.toNat ≠ bitsOf (0x800FF : BitVec 64).toNat 16 32 ∧
    (((after (.mailboxRelease 0 3 0x800FF) (vfAt { ringOn with mbx := [(255, readyBox)] })).vf 3).box 255).st = .ready := by
  decide +kernel

/-- A node without compositions that holds two bytes. -/
def plainNode : State := { up with mem := [(2 ^ 35 - 1, 1), (2 ^ 35, 2)] }

/-- The node with bank 0 of pseudo-channel 0 in compute state. -/
def bankBusy : State := { plainNode with hbm := { plainNode.hbm with arbs := [(0, { Arb.idle with compute := [0] })] } }

/-- R471, R472: an open range reads and takes what memory holds; a range past HBM or of a composition is not open. -/
theorem witness_apertures :
    plainNode.hostUp = true ∧
    2 ^ 35 - 1 < regBase ∧
    plainNode.apertureOpen 0 (2 ^ 35 - 1) 2 = true ∧
    plainNode.inCompute (2 ^ 35 - 1) 2 = false ∧
    bankBusy.inCompute 0 2 = true ∧
    (after (.hostApertureRead 0 0 0 2 []) bankBusy).hbm.hostHeld = [⟨0, 0, 2, none, []⟩] ∧
    (after (.hostApertureWrite 0 0 0 [7, 8]) bankBusy).hbm.hostHeld = [⟨0, 0, 2, some [7, 8], []⟩] ∧
    (after (.hostApertureWrite 0 0 0 [7, 8]) bankBusy).mem = bankBusy.mem ∧
    bankBusy.apertureOpen 0 0 2 = true ∧
    (after (.hostApertureRead 0 0 0 2 []) bankBusy).out = [] ∧
    (after (.hostApertureRead 0 0 (2 ^ 35 - 1) 2 []) plainNode).out = [.apertureRead 0 (2 ^ 35 - 1) (some [1, 2]) false] ∧
    (after (.hostApertureWrite 0 0 (2 ^ 35) [0, 4]) plainNode).mem = [(2 ^ 35 - 1, 1), (2 ^ 35 + 1, 4)] ∧
    plainNode.apertureOpen 0 0x17FFFFFFFFF 2 = false ∧
    (after (.hostApertureRead 0 0 0x17FFFFFFFFF 2 []) plainNode).out = [.unsupportedRequest 0 0x17FFFFFFFFF] ∧
    (after (.hostApertureWrite 0 0 0x17FFFFFFFFF [1, 1]) plainNode).mem = plainNode.mem := by
  decide +kernel

/-- VF 3 whose lower half of the ring base is held. -/
def halfBase : State := let s := vfAt Vf.off; { s with hif := { s.hif with lowHeld := [(3, 0, 0x40)] } }

/-- A node with a bad host mark noted. -/
def badMark : State := { up with hif := { up.hif with markerr := true } }

/-- R466, R490: the ring base in one write or in two halves; MARKERR is cleared by writing one. -/
theorem witness_register_writes :
    ((vfAt Vf.off).vf 3).en = false ∧
    ((after (.registerWrite 0 3 0 64 0x12345678907F) (vfAt Vf.off)).vf 3).base = 0x123456789040 ∧
    (3, 0, 0x40) ∈ (after (.registerWrite 0 3 0 32 0x40) (vfAt Vf.off)).hif.lowHeld ∧
    heldFor halfBase.hif.lowHeld 3 0 = some 0x40 ∧
    ((after (.registerWrite 0 3 4 32 1) halfBase).vf 3).base = 0x100000040 ∧
    bitAt (0x800 : BitVec 64).toNat 11 = true ∧
    (after (.registerWrite 0 0 0 32 0x800) badMark).hif.markerr = false := by
  decide +kernel

/-- R482, R512: a function reset keeps its sequence; a hot reset takes all sixteen. -/
theorem witness_function_resets :
    (after (.vfFlr 0 3) (vfAt ringOn)).vf 3 = { Vf.off with seq := 0xFFFFFFFF } ∧
    (after (.vfFlr 0 16) (vfAt ringOn)).vf 3 = ringOn ∧
    (after (.hotReset 0) (vfAt ringOn)).vf 3 = { Vf.off with seq := 0xFFFFFFFF } := by
  decide +kernel

/-! ### The whole machine -/

/-- A page key that is equal for every page. -/
def evenKey (_ : Nat) : BitVec 32 := 0x3F800000

/-- R145: a forced list of the budget is the selection; below it the highest-ranked others join. -/
theorem witness_sieve :
    [2, 5, 9].Pairwise (· < ·) ∧
    ([5] : List Nat).Sublist [2, 5, 9] ∧
    (∀ p ∈ ([2, 5, 9] : List Nat), p < 2 ^ 32) ∧
    selectPages [2, 5, 9] [5] evenKey 1 = [5] ∧
    (selectPages [2, 5, 9] [5] evenKey 2).length = 2 ∧
    5 ∈ selectPages [2, 5, 9] [5] evenKey 2 ∧
    selectPages [2, 5, 9] [5] evenKey 3 = [2, 5, 9] := by
  decide +kernel

/-- R517 and log entry 2: a step takes the command at the front; an empty queue idles; memory at reset is canonical. -/
theorem witness_steps :
    State.reset.memOk = true ∧
    State.reset.pending = [] ∧
    (match step up with | .next t => t.timer | _ => 0) = 1000001 ∧
    onRequestPath (.search 0 bell searchReq) = true ∧
    onFabric (.commit 0 1) = true ∧
    onManagement (.idcode 0) = true := by
  decide +kernel


/-- The sender with no port for its queue, and its message begun under sequence 5. -/
def strandedSender : State :=
  let m := { aMsg with cseq := some 5, off := 1 }
  let o : Outst := { cseq := 5, msg := m, bytes := 1, sentAt := 0 }
  let s := sender.setQueue 0 { (sender.queue 0) with ports := 0, waiting := [m] }
  s.setSend 0 { (s.sendEnt 0) with outst := [o] }

/-- R340: a message with no common port, begun, is ended, counted and outstanding no more. -/
theorem test_unsendable_begun :
    ((strandedSender.dropHead 0).queue 0).waiting = [] ∧
    ((strandedSender.dropHead 0).sendEnt 0).outst = [] ∧
    (strandedSender.dropHead 0).pd.count 0x4212 0 = 1 := by
  decide +kernel

/-- R358: of more bytes than a step allows, the rest is copied in a later step. -/
theorem test_relocation_in_pieces :
    (tenant.copyPart 1 64 (tenant.pdNum 0x5007 1 + 1)).1 = false ∧
    (tenant.copyPart 1 64 (tenant.pdNum 0x5007 1 + 1)).2.cmp.relocPart = [(1, 64, 268435456)] ∧
    (tenant.copyPart 1 64 (tenant.pdNum 0x5007 1)).1 = true := by
  decide +kernel

/-- R360, R472: a slice being zeroised belongs to nobody yet. -/
theorem test_zeroised_slice_closed :
    up.dmaRange 16 (2 ^ 38) 64 = true ∧
    ({ up with cmp := { up.cmp with busySlices := [8] } }).dmaRange 16 (2 ^ 38) 64 = false := by
  decide +kernel

/-- R425: the lowest free slot of the region; a command waits behind one that waits. -/
theorem test_ring_slots :
    ((((ringMember.ringSend 1 ring 4 []).ringSend 1 ring 4 []).queue 7).waiting.map (·.addr)) = [0, 32] ∧
    (({ ringMember with rel := { ringMember.rel with ringWait := [(1, 4, [])] } }).ringSend 1 ring 4 [1]).rel.ringWait = [(1, 4, []), (1, 4, [1])] := by
  decide +kernel

end Sys2Proof.Tests
end

/-! ## What every step keeps (00_scope): the frame of every command, and O55 and O57 from it -/

namespace Sys2Proof.Machine

/-! ### The row of a command as a mask, and the updates that stay within a mask -/

/-- The row of a command in the table `touches`, as the mask that `Within` and `Goes` take. -/
def touched (i : Instr) (p : Part) : Bool := (touches i).contains p

theorem touched_eq_false {i : Instr} {p : Part} (h : p ∉ touches i) : touched i p = false := by
  simpa [touched] using h

/-- A result that goes on within the row of its command is the frame of the command. -/
theorem framed_of_goes {i : Instr} (k : ∀ s, Goes (touched i) s (exec i s)) : Framed i := fun s => by
  obtain ⟨t, e, w⟩ := k s
  exact ⟨t, e, w.steady, fun p hp => w.same p (touched_eq_false hp)⟩

/-- What every meaning does first: the timer moves to the time of the command. -/
theorem arrived {M : Part → Bool} {s : State} {t : Nat} (m : M .timer = true) : Within M s (s.arrive t) :=
  State.arrive_within m (Within.refl M s)

section
variable {M : Part → Bool} {a b c : State}

/-- An update that leaves the queue, the timer, memory and the free values stays within the mask when each part it moves is in it. -/
theorem Within.update (h : Within M a b) (queue : c.pending = b.pending) (time : c.timer = b.timer) (mem : c.mem = b.mem)
    (free : c.free = b.free) (k : ∀ p, M p = true ∨ p.same b c) : Within M a c := by
  refine h.trans ⟨⟨queue, time.ge, fun m => ?_, free.ge⟩, fun p hp => ?_⟩
  · rw [State.memOk, mem]; exact m
  · rcases k p with m | e
    · rw [m] at hp; cases hp
    · exact e

/-- An update of the Phase unit. -/
theorem Within.setPhs {x : PhaseSt} (h : Within M a b) (m : M .phs = true) (clock : M .clock = true ∨ x.clock = b.phs.clock) :
    Within M a { b with phs := x } :=
  h.update rfl rfl rfl rfl fun p => by
    cases p
    case phs => exact .inl m
    case clock => exact clock
    all_goals exact .inr rfl

/-- An update of the Parameter Directory. -/
theorem Within.setPd {x : PdSt} (h : Within M a b) (m : M .pd = true) (vals : M .vals = true ∨ x.vals = b.pd.vals) :
    Within M a { b with pd := x } :=
  h.update rfl rfl rfl rfl fun p => by
    cases p
    case pd => exact .inl m
    case vals => exact vals
    all_goals exact .inr rfl

/-- Memory emptied: the empty memory is canonical. -/
theorem Within.clearMem (h : Within M a b) (m : M .mem = true) : Within M a { b with mem := [] } := by
  refine h.trans ⟨⟨rfl, le_rfl, fun _ => rfl, le_rfl⟩, fun p hp => ?_⟩
  cases p
  case mem => exact (mask_absurd m hp).elim
  all_goals rfl

theorem Within.setSch {x : SchedSt} (h : Within M a b) (m : M .sch = true) : Within M a { b with sch := x } :=
  h.update rfl rfl rfl rfl fun p => by
    cases p
    case sch => exact .inl m
    all_goals exact .inr rfl

theorem Within.setPg {x : PageSt} (h : Within M a b) (m : M .pg = true) : Within M a { b with pg := x } :=
  h.update rfl rfl rfl rfl fun p => by
    cases p
    case pg => exact .inl m
    all_goals exact .inr rfl

theorem Within.setRq {x : ReqSt} (h : Within M a b) (m : M .rq = true) : Within M a { b with rq := x } :=
  h.update rfl rfl rfl rfl fun p => by
    cases p
    case rq => exact .inl m
    all_goals exact .inr rfl

theorem Within.setHbm {x : HbmSt} (h : Within M a b) (m : M .hbm = true) : Within M a { b with hbm := x } :=
  h.update rfl rfl rfl rfl fun p => by
    cases p
    case hbm => exact .inl m
    all_goals exact .inr rfl

theorem Within.setTier {x : TierSt} (h : Within M a b) (m : M .tier = true) : Within M a { b with tier := x } :=
  h.update rfl rfl rfl rfl fun p => by
    cases p
    case tier => exact .inl m
    all_goals exact .inr rfl

theorem Within.setLnk {x : LinkSt} (h : Within M a b) (m : M .lnk = true) : Within M a { b with lnk := x } :=
  h.update rfl rfl rfl rfl fun p => by
    cases p
    case lnk => exact .inl m
    all_goals exact .inr rfl

theorem Within.setRmo {x : RmoSt} (h : Within M a b) (m : M .rmo = true) : Within M a { b with rmo := x } :=
  h.update rfl rfl rfl rfl fun p => by
    cases p
    case rmo => exact .inl m
    all_goals exact .inr rfl

theorem Within.setEgq {x : EgqSt} (h : Within M a b) (m : M .egq = true) : Within M a { b with egq := x } :=
  h.update rfl rfl rfl rfl fun p => by
    cases p
    case egq => exact .inl m
    all_goals exact .inr rfl

theorem Within.setCmp {x : CompSt} (h : Within M a b) (m : M .cmp = true) : Within M a { b with cmp := x } :=
  h.update rfl rfl rfl rfl fun p => by
    cases p
    case cmp => exact .inl m
    all_goals exact .inr rfl

theorem Within.setSec {x : SecSt} (h : Within M a b) (m : M .sec = true) : Within M a { b with sec := x } :=
  h.update rfl rfl rfl rfl fun p => by
    cases p
    case sec => exact .inl m
    all_goals exact .inr rfl

theorem Within.setRel {x : RelSt} (h : Within M a b) (m : M .rel = true) : Within M a { b with rel := x } :=
  h.update rfl rfl rfl rfl fun p => by
    cases p
    case rel => exact .inl m
    all_goals exact .inr rfl

theorem Within.setPwr {x : PwrSt} (h : Within M a b) (m : M .pwr = true) : Within M a { b with pwr := x } :=
  h.update rfl rfl rfl rfl fun p => by
    cases p
    case pwr => exact .inl m
    all_goals exact .inr rfl

theorem Within.setHif {x : HifSt} (h : Within M a b) (m : M .hif = true) : Within M a { b with hif := x } :=
  h.update rfl rfl rfl rfl fun p => by
    cases p
    case hif => exact .inl m
    all_goals exact .inr rfl

theorem Within.setBoot {x : BootSt} (h : Within M a b) (m : M .boot = true) : Within M a { b with boot := x } :=
  h.update rfl rfl rfl rfl fun p => by
    cases p
    case boot => exact .inl m
    all_goals exact .inr rfl

end

/-! ### HBM stacks, near-memory units, address directory (08) -/

theorem execNmuGrantRequest_row (t w ch banks ask s) :
    Goes (touched (.nmuGrantRequest t w ch banks ask)) s (execNmuGrantRequest t w ch banks ask s) :=
  .next (.foldl (arrived rfl) fun _ _ h => by apply State.nmuRequest_within (hs := h) <;> rfl)

theorem execNmuClaimComplete_row (t w ch s) : Goes (touched (.nmuClaimComplete t w ch)) s (execNmuClaimComplete t w ch s) := by
  unfold execNmuClaimComplete
  extract_lets u n busy v
  have h : Within (touched (.nmuClaimComplete t w ch)) s u := arrived rfl
  have hv : Within (touched (.nmuClaimComplete t w ch)) s v := State.setNmu_within rfl (State.compute_within rfl rfl h)
  exact .ite (.next h) (.next (.ite (by apply State.nmuAbort_within (hs := hv) <;> rfl) hv))

theorem execNmuComputeComplete_row (t w ch fixed s) :
    Goes (touched (.nmuComputeComplete t w ch fixed)) s (execNmuComputeComplete t w ch fixed s) := by
  unfold execNmuComputeComplete
  extract_lets u n v
  have h : Within (touched (.nmuComputeComplete t w ch fixed)) s u := arrived rfl
  have hv : Within (touched (.nmuComputeComplete t w ch fixed)) s v := h.foldl fun _ _ h => by
    apply State.eccFixed_within (hs := h) <;> rfl
  refine .ite (.next h) ?_
  split
  · refine .next ?_
    apply State.drainOps_within <;> try rfl
    apply State.setNmu_within rfl
    split
    · exact State.countC_within rfl hv
    · exact State.count_within rfl hv
  · exact .next (State.setNmu_within rfl hv)
  · exact .next (State.setNmu_within rfl hv)
  · exact .next (State.setNmu_within rfl hv)

theorem execNmuDrainComplete_row (t w ch s) : Goes (touched (.nmuDrainComplete t w ch)) s (execNmuDrainComplete t w ch s) := by
  unfold execNmuDrainComplete
  extract_lets u n v w'
  have h : Within (touched (.nmuDrainComplete t w ch)) s u := arrived rfl
  have hv : Within (touched (.nmuDrainComplete t w ch)) s v := h.foldl fun _ _ h => State.store_within rfl rfl h
  refine .ite (.next h) (.next ?_)
  apply State.releaseBanks_within <;> try rfl
  apply State.setNmu_within rfl
  unfold w'
  split
  · apply State.tampPage_within (hs := hv) <;> rfl
  · exact hv
  · exact State.emit_within rfl hv

theorem execNmuAbort_row (t w ch ecc s) : Goes (touched (.nmuAbort t w ch ecc)) s (execNmuAbort t w ch ecc s) := by
  unfold execNmuAbort
  extract_lets u n place v scan
  have h : Within (touched (.nmuAbort t w ch ecc)) s u := arrived rfl
  have hv : Within (touched (.nmuAbort t w ch ecc)) s v := by apply State.nmuAbort_within (hs := h) <;> rfl
  refine .ite (.next h) (.ite (.next ?_) (.ite (.next ?_) (.next hv)))
  · apply State.drainOps_within <;> try rfl
    apply State.tearRecurring_within <;> try rfl
    apply State.eccBad_within (hs := hv) <;> rfl
  · apply State.drainOps_within <;> try rfl
    apply State.scansLost_within <;> try rfl
    apply State.frameLost_within rfl
    apply State.raiseScope_within (hs := hv) <;> rfl

theorem execHbmTransfer_row (t g raise withdraw errs s) :
    Goes (touched (.hbmTransfer t g raise withdraw errs)) s (execHbmTransfer t g raise withdraw errs s) := by
  set M := touched (.hbmTransfer t g raise withdraw errs)
  unfold execHbmTransfer
  extract_lets u a live v held w x y b two next z
  clear_value live
  have h : Within M s u := arrived rfl
  have hv : Within M s v := by
    unfold v
    split
    · exact State.count_within rfl h
    · exact h
  have hx : Within M s x := by apply State.raise_within (hs := State.setArb_within rfl hv) <;> rfl
  have hy : Within M s y := by
    unfold y
    split
    case h_2 => exact hx
    extract_lets bad y y'
    have hy : Within M s y := by apply State.transfer_within (hs := State.setArb_within rfl hx) <;> rfl
    have hy' : Within M s y' :=
      .ite (by apply State.repairAt_within (hs := hy) <;> rfl) hy
    exact .ite (by apply State.tearRecurring_within (hs := hy') <;> rfl) hy'
  exact .next (by apply State.withdraw_within (hs := State.setArb_within rfl hy) <;> rfl)

theorem execRefreshSlot_row (t g s) : Goes (touched (.refreshSlot t g)) s (execRefreshSlot t g s) := by
  have h : Within (touched (.refreshSlot t g)) s (s.arrive t) := arrived rfl
  have hc := State.count_within (index := 0x3030) (sub := 1) rfl h
  exact .ite (.next h) (.ite (.next (State.setArb_within rfl h)) (.ite (.next (State.setArb_within rfl h))
    (.next (State.setArb_within rfl (.ite (State.count_within rfl hc) hc)))))

theorem execPcaWaymaskWrite_row (t q c v s) : Goes (touched (.pcaWaymaskWrite t q c v)) s (execPcaWaymaskWrite t q c v s) :=
  .next (.ite (State.writeWays_within rfl (arrived rfl)) (arrived rfl))

theorem execDirectoryInsert_row (t cls key vals s) :
    Goes (touched (.directoryInsert t cls key vals)) s (execDirectoryInsert t cls key vals s) :=
  .ite (.next (arrived rfl)) (.next (State.moveIn_within rfl (arrived rfl)))

theorem execDirectoryDelete_row (t cls key s) : Goes (touched (.directoryDelete t cls key)) s (execDirectoryDelete t cls key s) :=
  .next (State.moveOut_within rfl (arrived rfl))

theorem execBlockMoveComplete_row (t bank s) : Goes (touched (.blockMoveComplete t bank)) s (execBlockMoveComplete t bank s) := by
  unfold execBlockMoveComplete
  extract_lets u k
  have h : Within (touched (.blockMoveComplete t bank)) s u := arrived rfl
  split
  · exact .next h
  extract_lets v
  have h : Within (touched (.blockMoveComplete t bank)) s v := State.setBank_within rfl h
  split
  · exact .next h
  split
  · exact .next (h.setRmo rfl)
  · exact .next h

theorem execDirectoryThrottleSample_row (t temp s) :
    Goes (touched (.directoryThrottleSample t temp)) s (execDirectoryThrottleSample t temp s) :=
  .next ((arrived rfl).setHbm rfl)

theorem execAdirBankcfgWrite_row (t n v s) : Goes (touched (.adirBankcfgWrite t n v)) s (execAdirBankcfgWrite t n v s) :=
  .next (.ite (State.writeBankCfg_within rfl (arrived rfl)) (arrived rfl))

theorem execNmuGovWrite_row (t w v s) : Goes (touched (.nmuGovWrite t w v)) s (execNmuGovWrite t w v s) :=
  .next (.ite (State.writeGov_within rfl (arrived rfl)) (arrived rfl))

/-! ### Windows and connections (11) -/

theorem execWindowInsert_row (t fn win s) : Goes (touched (.windowInsert t fn win)) s (execWindowInsert t fn win s) :=
  .next (.ite (State.winCommand_within rfl rfl (arrived rfl)) (arrived rfl))

theorem execWindowRemove_row (t fn win s) : Goes (touched (.windowRemove t fn win)) s (execWindowRemove t fn win s) :=
  .next (.ite (State.winCommand_within rfl rfl (arrived rfl)) (arrived rfl))

theorem execWindowOpen_row (t fn win s) : Goes (touched (.windowOpen t fn win)) s (execWindowOpen t fn win s) :=
  .next (.ite (State.winCommand_within rfl rfl (arrived rfl)) (arrived rfl))

theorem execWindowRevoke_row (t fn win s) : Goes (touched (.windowRevoke t fn win)) s (execWindowRevoke t fn win s) :=
  .next (.ite (State.winCommand_within rfl rfl (arrived rfl)) (arrived rfl))

theorem execWindowChangeInForce_row (t fn s) : Goes (touched (.windowChangeInForce t fn)) s (execWindowChangeInForce t fn s) :=
  .next (.ite (State.winForce_within rfl rfl (arrived rfl)) (arrived rfl))

theorem execWindowDrained_row (t fn s) : Goes (touched (.windowDrained t fn)) s (execWindowDrained t fn s) := by
  refine .ite (.next (arrived rfl)) (.next (.foldl ?_ fun _ _ h => ?_))
  · exact State.setWregs_within rfl ((arrived rfl).setRmo rfl)
  · apply State.event_within (hs := h) <;> rfl

/-! ### Contexts, pages, silt (03) -/

theorem execAppendAfterRelease_row (t ctx stream s) :
    Goes (touched (.appendAfterRelease t ctx stream)) s (execAppendAfterRelease t ctx stream s) :=
  .ite (.next (by apply State.drainOps_within (hs := arrived rfl) <;> rfl)) (.next (arrived rfl))

theorem execSiltMirrorAck_row (t ctx stream s) :
    Goes (touched (.siltMirrorAck t ctx stream)) s (execSiltMirrorAck t ctx stream s) := by
  have h : Within (touched (.siltMirrorAck t ctx stream)) s (s.arrive t) := arrived rfl
  dsimp only [execSiltMirrorAck]
  split
  · exact .next h
  refine .ite (.ite (.next h) (.next ?_)) (.next (State.setPg_within rfl (State.sendMirror_within rfl rfl h)))
  apply State.endAppend_within (hs := State.setPg_within rfl h) <;> rfl

theorem execSiltRelease_row (t ctx stream s) : Goes (touched (.siltRelease t ctx stream)) s (execSiltRelease t ctx stream s) := by
  have h : Within (touched (.siltRelease t ctx stream)) s (s.arrive t) := arrived rfl
  dsimp only [execSiltRelease]
  split
  · exact .next h
  · exact .next (by apply State.releaseOne_within (hs := h) <;> rfl)

/-! ### Remote operations (11) -/

theorem execGatewayResendTimeout_row (t conn cseq s) :
    Goes (touched (.gatewayResendTimeout t conn cseq)) s (execGatewayResendTimeout t conn cseq s) := by
  unfold execGatewayResendTimeout
  extract_lets u waits due
  have h : Within (touched (.gatewayResendTimeout t conn cseq)) s u := arrived rfl
  split
  · exact .next h
  refine .ite (.next ?_) (.next (h.setRmo rfl))
  apply State.respond_within <;> try rfl
  apply State.msgEvent_within (hs := h.setRmo rfl) <;> rfl

theorem execRead_row (t tagOk g s) : Goes (touched (.read t tagOk g)) s (execRead t tagOk g s) :=
  .next (by apply State.receive_within (hs := arrived rfl) <;> rfl)

theorem execWrite_row (t tagOk g s) : Goes (touched (.write t tagOk g)) s (execWrite t tagOk g s) :=
  .next (by apply State.receive_within (hs := arrived rfl) <;> rfl)

theorem execAdd64_row (t tagOk g s) : Goes (touched (.add64 t tagOk g)) s (execAdd64 t tagOk g s) :=
  .next (by apply State.receive_within (hs := arrived rfl) <;> rfl)

theorem execAddf32_row (t tagOk g s) : Goes (touched (.addf32 t tagOk g)) s (execAddf32 t tagOk g s) :=
  .next (by apply State.receive_within (hs := arrived rfl) <;> rfl)

theorem execXor_row (t tagOk g s) : Goes (touched (.xor t tagOk g)) s (execXor t tagOk g s) :=
  .next (by apply State.receive_within (hs := arrived rfl) <;> rfl)

theorem execCas64_row (t tagOk g s) : Goes (touched (.cas64 t tagOk g)) s (execCas64 t tagOk g s) :=
  .next (by apply State.receive_within (hs := arrived rfl) <;> rfl)

theorem execCas128_row (t tagOk g s) : Goes (touched (.cas128 t tagOk g)) s (execCas128 t tagOk g s) :=
  .next (by apply State.receive_within (hs := arrived rfl) <;> rfl)

theorem execCmd_row (t tagOk g s) : Goes (touched (.cmd t tagOk g)) s (execCmd t tagOk g s) :=
  .next (by apply State.receive_within (hs := arrived rfl) <;> rfl)

theorem execResp_row (t tagOk r s) : Goes (touched (.resp t tagOk r)) s (execResp t tagOk r s) :=
  .next (by apply State.response_within (hs := arrived rfl) <;> rfl)

theorem execReadData_row (t tagOk r s) : Goes (touched (.readData t tagOk r)) s (execReadData t tagOk r s) :=
  .next (by apply State.response_within (hs := arrived rfl) <;> rfl)

theorem execRespTimeout_row (t conn cseq s) : Goes (touched (.respTimeout t conn cseq)) s (execRespTimeout t conn cseq s) := by
  unfold execRespTimeout
  extract_lets u e
  have h : Within (touched (.respTimeout t conn cseq)) s u := arrived rfl
  split
  · exact .next h
  · exact .ite (.next h) (.next (by apply State.resend_within (hs := h) <;> rfl))

theorem execReassemblyTimeout_row (t rcid cseq s) :
    Goes (touched (.reassemblyTimeout t rcid cseq)) s (execReassemblyTimeout t rcid cseq s) := by
  unfold execReassemblyTimeout
  extract_lets u
  have h : Within (touched (.reassemblyTimeout t rcid cseq)) s u := arrived rfl
  split
  · exact .next h
  extract_lets comp v
  clear_value comp
  have hv : Within (touched (.reassemblyTimeout t rcid cseq)) s v := by
    unfold v
    split
    · exact State.countC_within rfl h
    · exact State.count_within rfl h
  refine .ite (.next h) (.next ?_)
  apply State.replayContext_within <;> try rfl
  apply State.msgEvent_within (hs := hv) <;> rfl

theorem execFlagRelease_row (t rcid cseq s) : Goes (touched (.flagRelease t rcid cseq)) s (execFlagRelease t rcid cseq s) := by
  unfold execFlagRelease
  extract_lets u v
  have h : Within (touched (.flagRelease t rcid cseq)) s u := arrived rfl
  split
  · exact .next h
  have hf : Within (touched (.flagRelease t rcid cseq)) s v := by apply State.forceDue_within (hs := h) <;> rfl
  refine .ite (.next h) ?_
  split
  · exact .next (by apply State.refuseMsg_within (hs := hf) <;> rfl)
  · exact .next (by apply State.applyMsg_within (hs := hf) <;> rfl)
  · exact .next hf

theorem execFlagHoldTimeout_row (t rcid cseq s) :
    Goes (touched (.flagHoldTimeout t rcid cseq)) s (execFlagHoldTimeout t rcid cseq s) := by
  unfold execFlagHoldTimeout
  extract_lets u
  have h : Within (touched (.flagHoldTimeout t rcid cseq)) s u := arrived rfl
  split
  · exact .next h
  · exact .ite (.next h) (.next (by apply State.replayContext_within (hs := h) <;> rfl))

theorem execAtomicWriteback_row (t line s) : Goes (touched (.atomicWriteback t line)) s (execAtomicWriteback t line s) :=
  .next (by apply State.writeBack_within (hs := arrived rfl) <;> rfl)

theorem execHotLineEvict_row (t line s) : Goes (touched (.hotLineEvict t line)) s (execHotLineEvict t line s) := by
  unfold execHotLineEvict
  extract_lets u
  have h : Within (touched (.hotLineEvict t line)) s u := arrived rfl
  split
  · exact .next h
  · exact .next (.ite h (by apply State.dropLine_within (hs := h) <;> rfl))

theorem execHotLine_row (t line s) : Goes (touched (.hotLine t line)) s (execHotLine t line s) := by
  set M := touched (.hotLine t line)
  unfold execHotLine
  extract_lets u r
  have h : Within M s u := arrived rfl
  split
  · exact .next h
  split
  · exact .next h
  extract_lets due k v w
  have hv : Within M s v := h.setRmo rfl
  have hw : Within M s w := by apply State.takeLine_within (hs := State.count_within rfl hv) <;> rfl
  exact .ite (.next h) (.ite (.next (by apply State.event_within (hs := hw) <;> rfl)) (.next hw))

/-! ### Egress queues and DMA (12) -/

theorem execEgqWrite_row (t q s) : Goes (touched (.egqWrite t q)) s (execEgqWrite t q s) :=
  .next (.ite (State.egqWrite_within rfl (arrived rfl)) (arrived rfl))

theorem execEgqRead_row (t q s) : Goes (touched (.egqRead t q)) s (execEgqRead t q s) :=
  .next (.ite (State.egqRead_within rfl (arrived rfl)) (arrived rfl))

theorem execPacketStart_row (t port vl s) : Goes (touched (.packetStart t port vl)) s (execPacketStart t port vl s) := by
  unfold execPacketStart
  extract_lets u x v
  have h : Within (touched (.packetStart t port vl)) s u := arrived rfl
  have hv : Within (touched (.packetStart t port vl)) s v := by
    apply State.noteAll_within <;> try rfl
    apply State.dropUnsendable_within (hs := h) <;> rfl
  refine .ite (.next h) (.ite (.next (.ite ?_ h)) (.ite (.next h) (.ite (.next (.ite ?_ h)) (.ite (.next h) ?_))))
  · apply State.startGateway_within (hs := h) <;> rfl
  · apply State.startMgmt_within (hs := h) <;> rfl
  split
  · exact .next (by apply State.startPkt_within (hs := h) <;> rfl)
  split
  · exact .next hv
  split
  · exact .next hv
  · exact .next (by apply State.startPacket_within (hs := hv) <;> rfl)

theorem execSampleRound_row (t s) : Goes (touched (.sampleRound t)) s (execSampleRound t s) := by
  set M := touched (.sampleRound t)
  unfold execSampleRound
  extract_lets u v qs w egq
  have h : Within M s u := arrived rfl
  have hv : Within M s v := .ite (State.count_within rfl h) h
  have hw : Within M s w := hv.foldl fun x e h => by
    have h := State.ringPut_within (base := x.pdNum 0x4220 1) (size := x.pdNum 0x4220 2)
      (rec_ := x.sampleRecord e.1 (e.2.settle x.timer)) rfl rfl h
    exact State.setQueue_within rfl (.ite (State.emit_within rfl h) (State.count_within rfl h))
  exact .ite (.next h) (.next (State.emit_within rfl (hw.setEgq rfl)))

theorem execDmaStart_row (t ch fn v s) : Goes (touched (.dmaStart t ch fn v)) s (execDmaStart t ch fn v s) :=
  .next (State.dmaCommand_within rfl rfl rfl (arrived rfl))

theorem execDmaArm_row (t ch fn v s) : Goes (touched (.dmaArm t ch fn v)) s (execDmaArm t ch fn v s) :=
  .next (State.dmaCommand_within rfl rfl rfl (arrived rfl))

theorem execDmaAbort_row (t ch fn s) : Goes (touched (.dmaAbort t ch fn)) s (execDmaAbort t ch fn s) :=
  .next (State.dmaCommand_within rfl rfl rfl (arrived rfl))

theorem execDmaResume_row (t ch fn v s) : Goes (touched (.dmaResume t ch fn v)) s (execDmaResume t ch fn v s) :=
  .next (State.dmaCommand_within rfl rfl rfl (arrived rfl))

theorem execDmaPhaseTrigger_row (t ch s) : Goes (touched (.dmaPhaseTrigger t ch)) s (execDmaPhaseTrigger t ch s) := by
  have h : Within (touched (.dmaPhaseTrigger t ch)) s (s.arrive t) := arrived rfl
  have hf := State.dmaFire_within (ch := ch) rfl rfl rfl h
  exact .ite (.next h) (.next (.ite (State.dmaChain_within rfl rfl rfl hf) hf))

theorem execDmaTransferDone_row (t ch s) : Goes (touched (.dmaTransferDone t ch)) s (execDmaTransferDone t ch s) :=
  .ite (.next (arrived rfl)) (.next (State.dmaChain_within rfl rfl rfl (State.dmaIrq_within rfl (State.dmaCount_within rfl
    (State.setDma_within rfl (State.dmaCopy_within rfl rfl (arrived rfl)))))))

theorem execDmaHalt_row (t ch wr st addr prog s) :
    Goes (touched (.dmaHalt t ch wr st addr prog)) s (execDmaHalt t ch wr st addr prog s) := by
  unfold execDmaHalt
  extract_lets u d
  have h : Within (touched (.dmaHalt t ch wr st addr prog)) s u := arrived rfl
  refine .ite (.next h) ?_
  split
  · exact .next (by apply State.dmaHaltAt_within (hs := h) <;> rfl)
  · exact .ite (.next h) (.next (by apply State.dmaHaltAt_within (hs := State.dmaCopy_within rfl rfl h) <;> rfl))

theorem execDmaDoneClear_row (t ch fn s) : Goes (touched (.dmaDoneClear t ch fn)) s (execDmaDoneClear t ch fn s) :=
  .next (.ite (State.dmaClearDone_within rfl (arrived rfl)) (arrived rfl))

/-! ### Attention (04) -/

theorem execAttentionComplete_row (t id sec s) :
    Goes (touched (.attentionComplete t id sec)) s (execAttentionComplete t id sec s) := by
  have h : Within (touched (.attentionComplete t id sec)) s (s.arrive t) := arrived rfl
  dsimp only [execAttentionComplete]
  split
  · exact .next h
  split
  · split
    · refine .ite (.ite (.next ?_) (.next (State.setSec_within rfl h))) (.next h)
      apply State.finishSec_within (hs := h) <;> rfl
    · exact .next h
  · exact .next h

/-! ### Searches and corpora (06) -/

theorem execRequestDispatch_row (t id sec s) : Goes (touched (.requestDispatch t id sec)) s (execRequestDispatch t id sec s) := by
  have h : Within (touched (.requestDispatch t id sec)) s (s.arrive t) := arrived rfl
  dsimp only [execRequestDispatch]
  split
  · exact .next (by apply State.dispatchAttend_within (hs := h) <;> rfl)
  split
  · exact .next (by apply State.dispatchSearch_within (hs := h) <;> rfl)
  · exact .next h

theorem execSearchComplete_row (t id s) : Goes (touched (.searchComplete t id)) s (execSearchComplete t id s) := by
  have h : Within (touched (.searchComplete t id)) s (s.arrive t) := arrived rfl
  dsimp only [execSearchComplete]
  split
  · exact .next h
  split
  · exact .next h
  refine .ite (.next h) (.ite (.next (State.setSearch_within rfl h)) (.next ?_))
  apply State.sendFlag_within <;> try rfl
  apply State.sendResult_within <;> try rfl
  apply Within.setRq (m := rfl)
  apply State.ratio_within <;> try rfl
  split
  · apply State.donePlace_within <;> try rfl
    refine State.countC_within rfl (State.countC_within rfl ?_)
    apply State.lateBreach_within (hs := h) <;> rfl
  · refine State.countC_within rfl (State.countC_within rfl ?_)
    apply State.lateBreach_within (hs := h) <;> rfl

theorem execCorpusStorageFree_row (t job ctx s) :
    Goes (touched (.corpusStorageFree t job ctx)) s (execCorpusStorageFree t job ctx s) :=
  .next ((arrived rfl).setRq rfl)

/-! ### Tiers (09) -/

theorem execFlashChunkReadComplete_row (t ch extent chunk r s) :
    Goes (touched (.flashChunkReadComplete t ch extent chunk r)) s (execFlashChunkReadComplete t ch extent chunk r s) := by
  have h : Within (touched (.flashChunkReadComplete t ch extent chunk r)) s (s.arrive t) := arrived rfl
  have hl {k b} : Within (touched (.flashChunkReadComplete t ch extent chunk r)) s ((s.arrive t).loseChunk ch k b) := by
    apply State.loseChunk_within (hs := h) <;> rfl
  refine .ite (.ite (.next hl) (.next (.ite (State.setChunk_within rfl h) h))) (.next (.ite ?_ hl))
  apply State.uncorrectable_within (hs := h) <;> rfl

theorem execLunTimeout_row (t ch target lun x s) :
    Goes (touched (.lunTimeout t ch target lun x)) s (execLunTimeout t ch target lun x s) := by
  unfold execLunTimeout
  extract_lets u f tries lost v
  have h : Within (touched (.lunTimeout t ch target lun x)) s u := arrived rfl
  have hv : Within (touched (.lunTimeout t ch target lun x)) s v := by
    apply State.uncorrectable_within (hs := State.setFlash_within rfl h) <;> rfl
  refine .ite (.next (State.flashOps_within rfl (State.setFlash_within rfl h))) (.next (.ite ?_ hv))
  apply State.failChannel_within (hs := hv) <;> rfl

theorem execZqCalibrationShort_row (t ch s) : Goes (touched (.zqCalibrationShort t ch)) s (execZqCalibrationShort t ch s) :=
  .next (.ite (State.flashOps_within rfl (State.setFlash_within rfl (arrived rfl))) (arrived rfl))

theorem execLeaseEnd_row (t nn s) : Goes (touched (.leaseEnd t nn)) s (execLeaseEnd t nn s) :=
  .ite (.next (arrived rfl)) (.next (State.releaseLease_within rfl rfl rfl ((arrived rfl).setTier rfl)))

theorem execLeaseRelease_row (t nn s) : Goes (touched (.leaseRelease t nn)) s (execLeaseRelease t nn s) :=
  .ite (.next (arrived rfl)) (.next ((State.revokeLease_within rfl (arrived rfl)).setTier rfl))

theorem execLeaseForcedEnd_row (t nn s) : Goes (touched (.leaseForcedEnd t nn)) s (execLeaseForcedEnd t nn s) :=
  .ite (.next (arrived rfl)) (.ite (.next (State.revokeLease_within rfl (arrived rfl)))
    (.next (.foldl (arrived rfl) fun _ _ h => by apply State.setHome_within (hs := h) <;> rfl)))

theorem execPin_row (t c h s) : Goes (touched (.pin t c h)) s (execPin t c h s) :=
  .next (State.hintCommand_within (arrived rfl) fun _ h => by apply State.hintPin_within (hs := h) <;> rfl)

theorem execUnpin_row (t c h s) : Goes (touched (.unpin t c h)) s (execUnpin t c h s) :=
  .next (State.hintCommand_within (arrived rfl) fun _ h => by apply State.hintUnpin_within (hs := h) <;> rfl)

theorem execPrefetch_row (t c h s) : Goes (touched (.prefetch t c h)) s (execPrefetch t c h s) :=
  .next (State.hintCommand_within (arrived rfl) fun _ h => State.hintPrefetch_within rfl rfl h)

theorem execDormant_row (t c h s) : Goes (touched (.dormant t c h)) s (execDormant t c h s) :=
  .next (State.hintCommand_within (arrived rfl) fun _ h => by apply State.hintDormant_within (hs := h) <;> rfl)

theorem execDormantComplete_row (t job ctx s) :
    Goes (touched (.dormantComplete t job ctx)) s (execDormantComplete t job ctx s) := by
  have h : Within (touched (.dormantComplete t job ctx)) s (s.arrive t) := arrived rfl
  dsimp only [execDormantComplete]
  split
  · exact .next h
  · exact .next (.ite (by apply State.sleep_within (hs := h) <;> rfl) h)

theorem execWake_row (t c h s) : Goes (touched (.wake t c h)) s (execWake t c h s) :=
  .next (State.hintCommand_within (arrived rfl) fun _ h => State.hintWake_within rfl rfl h)

theorem execRecallStart_row (t id s) : Goes (touched (.recallStart t id)) s (execRecallStart t id s) := by
  have h : Within (touched (.recallStart t id)) s (s.arrive t) := arrived rfl
  dsimp only [execRecallStart]
  split
  · exact .next h
  · exact .next (.ite (by apply State.beginRecall_within (hs := h) <;> rfl) h)

theorem execRecallComplete_row (t id s) : Goes (touched (.recallComplete t id)) s (execRecallComplete t id s) := by
  have h : Within (touched (.recallComplete t id)) s (s.arrive t) := arrived rfl
  dsimp only [execRecallComplete]
  split
  · exact .next h
  refine .ite (.next h) (.next (.foldl ?_ fun _ _ h => by apply State.tellEntry_within (hs := h) <;> rfl))
  apply State.settleDormant_within <;> try rfl
  split
  · apply State.bringBack_within (hs := h.setTier rfl) <;> rfl
  · exact h.setTier rfl

theorem execMoveComplete_row (t id s) : Goes (touched (.moveComplete t id)) s (execMoveComplete t id s) := by
  have h : Within (touched (.moveComplete t id)) s (s.arrive t) := arrived rfl
  dsimp only [execMoveComplete]
  split
  · split
    · exact .next h
    · exact .next (.ite h (by apply State.finishGroup_within (hs := h) <;> rfl))
  refine .ite (.next h) (.next (.foldl ?_ fun _ _ h => by apply State.releaseLease_within (hs := h) <;> rfl))
  exact .ite (by apply State.finishMove_within (hs := h.setTier rfl) <;> rfl) (State.countC_within rfl (h.setTier rfl))

theorem execWeightStreamDone_row (t nn s) : Goes (touched (.weightStreamDone t nn)) s (execWeightStreamDone t nn s) := by
  set M := touched (.weightStreamDone t nn)
  unfold execWeightStreamDone
  extract_lets u p
  have h : Within M s u := arrived rfl
  split
  · exact .next h
  next w _ =>
    extract_lets past late v st flag tier x y
    have hv : Within M s v := .ite (by apply State.breach_within (hs := h) <;> rfl) h
    have hx : Within M s x := hv.setTier rfl
    have hy : Within M s y := by
      unfold y
      cases w.head
      · exact hx
      · exact State.enqueue_within rfl hx
    exact .ite (.next h) (.next (State.enqueue_within rfl hy))

theorem execPageProgramComplete_row (t ch block ok s) :
    Goes (touched (.pageProgramComplete t ch block ok)) s (execPageProgramComplete t ch block ok s) := by
  unfold execPageProgramComplete
  extract_lets u f b first b' v w
  clear_value first
  have hv : Within (touched (.pageProgramComplete t ch block ok)) s v := State.setFlash_within rfl (arrived rfl)
  have hw : Within (touched (.pageProgramComplete t ch block ok)) s w := State.setFlash_within rfl (arrived rfl)
  split
  · refine .next ?_
    apply State.gauge_within <;> try rfl
    cases first
    · exact hv
    · exact State.setChunk_within rfl hv
  · refine .next ?_
    apply State.gauge_within <;> try rfl
    cases first
    · exact hw
    · apply State.programChunk_within (hs := hw) <;> rfl

theorem execBlockEraseComplete_row (t ch block ok s) :
    Goes (touched (.blockEraseComplete t ch block ok)) s (execBlockEraseComplete t ch block ok s) := by
  refine .next ?_
  apply State.gauge_within <;> try rfl
  apply State.retryChunks_within <;> try rfl
  apply State.unqueueBlock_within (hs := State.setFlash_within rfl (arrived rfl)) <;> rfl

/-! ### Compositions (13) -/

theorem execCommitValidationDone_row (t s) : Goes (touched (.commitValidationDone t)) s (execCommitValidationDone t s) := by
  unfold execCommitValidationDone
  extract_lets u
  have h : Within (touched (.commitValidationDone t)) s u := arrived rfl
  refine .ite (.next h) ?_
  split
  · exact .next (State.refuseCommit_within rfl h)
  · exact .next ((h.setCmp rfl).foldl fun _ _ h => .ite h (State.setComp_within rfl h))

theorem execSliceFree_row (t n s) : Goes (touched (.sliceFree t n)) s (execSliceFree t n s) :=
  .ite (.next (arrived rfl)) (.next (State.settleFree_within rfl ((State.zeroise_within rfl rfl (arrived rfl)).setCmp rfl)))

theorem execFlashChannelFree_row (t n s) : Goes (touched (.flashChannelFree t n)) s (execFlashChannelFree t n s) :=
  .ite (.next (arrived rfl)) (.next (State.settleFree_within rfl ((State.setFlash_within rfl (arrived rfl)).setCmp rfl)))

theorem execHandoffBatchAck_row (t st s) : Goes (touched (.handoffBatchAck t st)) s (execHandoffBatchAck t st s) := by
  unfold execHandoffBatchAck
  extract_lets u
  have h : Within (touched (.handoffBatchAck t st)) s u := arrived rfl
  split
  · exact .next h
  extract_lets k
  have hp : Within (touched (.handoffBatchAck t st)) s { u with cmp := { u.cmp with hpages := k.sent } } := h.setCmp rfl
  exact .ite (.next h) (.ite (.next (h.setCmp rfl)) (.ite (.next (State.sendBatch_within rfl rfl (hp.setCmp rfl)))
    (.ite (.next (hp.setCmp rfl)) (.next (hp.setCmp rfl)))))

theorem execTeardownComplete_row (t c s) : Goes (touched (.teardownComplete t c)) s (execTeardownComplete t c s) := by
  unfold execTeardownComplete
  extract_lets u
  have h : Within (touched (.teardownComplete t c)) s u := arrived rfl
  split
  · exact .next h
  · exact .ite (.next (State.setComp_within rfl (by apply State.zeroiseComp_within (hs := h) <;> rfl))) (.next h)

theorem execMeteringPersist_row (t s) : Goes (touched (.meteringPersist t)) s (execMeteringPersist t s) :=
  .next (.ite (State.meterPersist_within rfl rfl (arrived rfl)) (arrived rfl))

/-! ### The Security Core (14) -/

theorem execScWatchdogExpiry_row (t s) : Goes (touched (.scWatchdogExpiry t)) s (execScWatchdogExpiry t s) :=
  .next (.ite (by apply State.coreFault_within (hs := arrived rfl) <;> rfl) (arrived rfl))

theorem execScMemoryError_row (t s) : Goes (touched (.scMemoryError t)) s (execScMemoryError t s) :=
  .next (.ite (by apply State.coreFault_within (hs := arrived rfl) <;> rfl) (arrived rfl))

theorem execGetVersion_row (t tr m s) : Goes (touched (.getVersion t tr m)) s (execGetVersion t tr m s) :=
  .next (State.spdm_within rfl (arrived rfl) fun _ h => State.spdmSay_within rfl (h.setSec rfl))

theorem execGetCapabilities_row (t tr m s) : Goes (touched (.getCapabilities t tr m)) s (execGetCapabilities t tr m s) :=
  .next (State.spdm_within rfl (arrived rfl) fun _ h => State.spdmSay_within rfl (h.setSec rfl))

theorem execNegotiateAlgorithms_row (t tr m s) :
    Goes (touched (.negotiateAlgorithms t tr m)) s (execNegotiateAlgorithms t tr m s) :=
  .next (State.spdm_within rfl (arrived rfl) fun _ h => State.spdmSay_within rfl (h.setSec rfl))

theorem execGetDigests_row (t tr m s) : Goes (touched (.getDigests t tr m)) s (execGetDigests t tr m s) :=
  .next (State.spdm_within rfl (arrived rfl) fun _ h => State.spdmSay_within rfl h)

theorem execGetCertificate_row (t tr m off len s) :
    Goes (touched (.getCertificate t tr m off len)) s (execGetCertificate t tr m off len s) :=
  .next (State.spdm_within rfl (arrived rfl) fun _ h => State.spdmSay_within rfl h)

theorem execChallenge_row (t tr m nonce s) : Goes (touched (.challenge t tr m nonce)) s (execChallenge t tr m nonce s) :=
  .next (State.spdm_within rfl (arrived rfl) fun _ h => State.spdmSay_within rfl (State.draw_within rfl h))

theorem execGetMeasurements_row (t tr m index s) :
    Goes (touched (.getMeasurements t tr m index)) s (execGetMeasurements t tr m index s) :=
  .next (State.spdm_within rfl (arrived rfl) fun _ h => .ite (State.spdmSay_within rfl h) (.ite (State.spdmSay_within rfl h)
    (.ite (State.spdmSay_within rfl h) (State.spdmError_within rfl h))))

theorem execKeyExchange_row (t tr m s) : Goes (touched (.keyExchange t tr m)) s (execKeyExchange t tr m s) :=
  .next (State.spdm_within rfl (arrived rfl) fun _ h => State.spdmSay_within rfl ((State.draw_within rfl h).setSec rfl))

theorem execFinish_row (t tr m s) : Goes (touched (.finish t tr m)) s (execFinish t tr m s) :=
  .next (State.spdm_within rfl (arrived rfl) fun _ h => State.spdmSay_within rfl (h.setSec rfl))

theorem execHeartbeat_row (t tr m s) : Goes (touched (.heartbeat t tr m)) s (execHeartbeat t tr m s) :=
  .next (State.spdm_within rfl (arrived rfl) fun _ h => State.spdmSay_within rfl h)

theorem execSpdmKeyUpdate_row (t tr m s) : Goes (touched (.spdmKeyUpdate t tr m)) s (execSpdmKeyUpdate t tr m s) :=
  .next (State.spdm_within rfl (arrived rfl) fun _ h => State.spdmSay_within rfl (h.setSec rfl))

theorem execEndSession_row (t tr m s) : Goes (touched (.endSession t tr m)) s (execEndSession t tr m s) :=
  .next (State.spdm_within rfl (arrived rfl) fun _ h => State.spdmSay_within rfl (h.setSec rfl))

theorem execLifecycleSeal_row (t m s) : Goes (touched (.lifecycleSeal t m)) s (execLifecycleSeal t m s) :=
  .next (.ite (by apply State.lifeChange_within (hs := arrived rfl) <;> rfl) (arrived rfl))

theorem execLifecycleUnseal_row (t tokenOk s) : Goes (touched (.lifecycleUnseal t tokenOk)) s (execLifecycleUnseal t tokenOk s) :=
  .next (.ite (by apply State.lifeChange_within (hs := arrived rfl) <;> rfl) (arrived rfl))

theorem execKeysInstall_row (t decOk b s) : Goes (touched (.keysInstall t decOk b)) s (execKeysInstall t decOk b s) := by
  refine .next (State.blob_within rfl rfl rfl rfl rfl rfl (arrived rfl) fun _ h => ?_)
  apply State.event_within <;> try rfl
  apply State.withhold_within (hs := State.setComp_within rfl h) <;> rfl

theorem execKeysUpdate_row (t decOk b s) : Goes (touched (.keysUpdate t decOk b)) s (execKeysUpdate t decOk b s) :=
  .next (State.blob_within rfl rfl rfl rfl rfl rfl (arrived rfl) fun _ h => State.setComp_within rfl h)

theorem execModelRelease_row (t decOk b s) : Goes (touched (.modelRelease t decOk b)) s (execModelRelease t decOk b s) := by
  refine .next (State.blob_within rfl rfl rfl rfl rfl rfl (arrived rfl) fun _ h => ?_)
  apply State.event_within <;> try rfl
  exact h.update rfl rfl rfl rfl fun p => by cases p <;> simp [touched, touches, Part.same]

theorem execTenantRemove_row (t decOk b s) : Goes (touched (.tenantRemove t decOk b)) s (execTenantRemove t decOk b s) := by
  refine .next (State.blob_within rfl rfl rfl rfl rfl rfl (arrived rfl) fun _ h => ?_)
  apply State.dissolve_within <;> try rfl
  exact State.clearModels_within rfl ((State.setComp_within rfl h).setSec rfl)

theorem execTenantRemoved_row (t c s) : Goes (touched (.tenantRemoved t c)) s (execTenantRemoved t c s) := by
  set M := touched (.tenantRemoved t c)
  unfold execTenantRemoved
  extract_lets u v
  have h : Within M s u := arrived rfl
  have hv : Within M s v :=
    State.setComp_within rfl (by apply State.zeroiseComp_within (hs := h) <;> rfl)
  split
  · exact .next h
  extract_lets w
  have hw : Within M s w := .ite (State.count_within rfl hv) hv
  exact .ite (.next (by apply State.event_within (hs := hw) <;> rfl)) (.next h)

theorem execTransportKeyGenerated_row (t s) : Goes (touched (.transportKeyGenerated t)) s (execTransportKeyGenerated t s) := by
  unfold execTransportKeyGenerated
  extract_lets u
  have h : Within (touched (.transportKeyGenerated t)) s u := arrived rfl
  refine .ite (.next h) ?_
  split
  · exact .next (State.setComp_within rfl h)
  · exact .next (h.setSec rfl)

/-! ### Links (10) -/

theorem execDataFlitReceive_row (t port g crc f s) :
    Goes (touched (.dataFlitReceive t port g crc f)) s (execDataFlitReceive t port g crc f s) := by
  set M := touched (.dataFlitReceive t port g crc f)
  unfold execDataFlitReceive
  extract_lets u x rfreed v l w
  have h : Within M s u := arrived rfl
  have hv : Within M s v := State.setPort_within rfl (State.count_within rfl h)
  have hw : Within M s w := .ite (hv.setLnk rfl) hv
  have ask {y} (h : Within M s y) :
      Within M s ((y.askRetry port).sendCtl port) :=
    State.sendCtl_within rfl rfl (State.askRetry_within rfl h)
  exact .ite (.next h) (.ite (.next (ask h)) (.ite (.next (ask (State.count_within rfl h)))
    (.ite (.next h) (.ite (.next (ask h)) (.next (State.sendCtl_within rfl rfl hw))))))

theorem execReplayTimeout_row (t port s) : Goes (touched (.replayTimeout t port)) s (execReplayTimeout t port s) :=
  .next (.ite (by apply State.replay_within (hs := arrived rfl) <;> rfl) (arrived rfl))

theorem execDelayReq_row (t port time s) : Goes (touched (.delayReq t port time)) s (execDelayReq t port time s) :=
  .next (.ite (State.delayAnswer_within rfl rfl rfl (arrived rfl)) (arrived rfl))

theorem execDelayRsp_row (t port time turn s) : Goes (touched (.delayRsp t port time turn)) s (execDelayRsp t port time turn s) :=
  .next (.ite (State.delayTaken_within rfl (arrived rfl)) (arrived rfl))

theorem execPortEnable_row (t port v s) : Goes (touched (.portEnable t port v)) s (execPortEnable t port v s) :=
  .next (.ite (by apply State.writeLnkCtl_within (hs := arrived rfl) <;> rfl) (arrived rfl))

theorem execRetrain_row (t port v s) : Goes (touched (.retrain t port v)) s (execRetrain t port v s) :=
  .next (.ite (by apply State.writeLnkCtl_within (hs := arrived rfl) <;> rfl) (arrived rfl))

theorem execTrainingComplete_row (t port peer failedLanes s) :
    Goes (touched (.trainingComplete t port peer failedLanes)) s (execTrainingComplete t port peer failedLanes s) := by
  set M := touched (.trainingComplete t port peer failedLanes)
  have h : Within M s (s.arrive t) := arrived rfl
  have hp {x} : Within M s ((s.arrive t).setPort port x) :=
    State.setPort_within rfl h
  have hl : Within M s ((s.arrive t).loseLanes port failedLanes).2 := by
    apply State.loseLanes_within (hs := h) <;> rfl
  refine .ite (.next h) (.ite (.ite (.next (State.fallowLeft_within rfl ?_)) (.next (State.sendCtl_within rfl rfl ?_)))
    (.ite (.next h) (.next (.ite ?_ hl))))
  · apply State.trainPort_within (hs := hp) <;> rfl
  · apply State.linkEvent_within (hs := hp) <;> rfl
  · apply State.portUp_within (hs := hl) <;> rfl

theorem execRetrainAttemptFailed_row (t port s) :
    Goes (touched (.retrainAttemptFailed t port)) s (execRetrainAttemptFailed t port s) := by
  refine .ite (.next (arrived rfl)) (.ite (.next (State.setPort_within rfl (arrived rfl)))
    (.next (State.fallowLeft_within rfl ?_)))
  apply State.trainPort_within (hs := State.setPort_within rfl (arrived rfl)) <;> rfl

theorem execTrainingTimeout_row (t port s) : Goes (touched (.trainingTimeout t port)) s (execTrainingTimeout t port s) :=
  .next (.ite (by apply State.failPort_within (hs := arrived rfl) <;> rfl) (arrived rfl))

theorem execLaneAlignmentLoss_row (t port lane forGood s) :
    Goes (touched (.laneAlignmentLoss t port lane forGood)) s (execLaneAlignmentLoss t port lane forGood s) := by
  have h : Within (touched (.laneAlignmentLoss t port lane forGood)) s (s.arrive t) := arrived rfl
  refine .ite (.next h) (.next ?_)
  have hl : Within (touched (.laneAlignmentLoss t port lane forGood)) s
      (if forGood then (s.arrive t).loseLanes port [lane] else (true, s.arrive t)).2 :=
    .ite2 (by apply State.loseLanes_within (hs := h) <;> rfl) h
  exact .ite (by apply State.goRetrain_within (hs := hl) <;> rfl) hl

theorem execFecLimit_row (t port s) : Goes (touched (.fecLimit t port)) s (execFecLimit t port s) := by
  refine .ite (.next (arrived rfl)) (.next ?_)
  apply State.goRetrain_within <;> try rfl
  apply State.linkEvent_within (hs := State.setPort_within rfl (arrived rfl)) <;> rfl

theorem execFallowEnter_row (t port s) : Goes (touched (.fallowEnter t port)) s (execFallowEnter t port s) := by
  have h : Within (touched (.fallowEnter t port)) s (s.arrive t) := arrived rfl
  refine .ite (.next h) (.next (State.delayAsk_within rfl rfl rfl ?_))
  apply State.linkEvent_within <;> try rfl
  apply State.setPort_within rfl
  apply State.enterPort_within <;> try rfl
  exact State.count_within rfl (.ite (h.setLnk rfl) h)

theorem execFallowExit_row (t port s) : Goes (touched (.fallowExit t port)) s (execFallowExit t port s) := by
  refine .ite (.next (arrived rfl)) (.next (State.delayAsk_within rfl rfl rfl (State.setPort_within rfl ?_)))
  apply State.enterPort_within (hs := State.count_within rfl (arrived rfl)) <;> rfl

theorem execGatewayDatagramSend_row (t group s) :
    Goes (touched (.gatewayDatagramSend t group)) s (execGatewayDatagramSend t group s) := by
  unfold execGatewayDatagramSend
  extract_lets u v x
  have h : Within (touched (.gatewayDatagramSend t group)) s u := arrived rfl
  have hv : Within (touched (.gatewayDatagramSend t group)) s v := by apply State.formDatagrams_within (hs := h) <;> rfl
  refine .ite (.next h) ?_
  split
  · exact .next (.ite (by apply State.startGateway_within (hs := hv) <;> rfl) hv)
  · exact .next hv

theorem execFaultInjectCtlWrite_row (t port v s) :
    Goes (touched (.faultInjectCtlWrite t port v)) s (execFaultInjectCtlWrite t port v s) :=
  .next (.ite (by apply State.writeInject_within (hs := arrived rfl) <;> rfl) (arrived rfl))

theorem execFaultInjectSeedWrite_row (t port v s) :
    Goes (touched (.faultInjectSeedWrite t port v)) s (execFaultInjectSeedWrite t port v s) :=
  .next (.ite (State.writeSeed_within rfl (arrived rfl)) (arrived rfl))

/-! ### Recovery (15) -/

theorem execCorrectedRewrite_row (t npa s) : Goes (touched (.correctedRewrite t npa)) s (execCorrectedRewrite t npa s) := by
  set M := touched (.correctedRewrite t npa)
  unfold execCorrectedRewrite
  extract_lets u a v n r w x y
  have h : Within M s u := arrived rfl
  have hv : Within M s v := State.patrol_within rfl h
  have hw : Within M s w := hv.setRel rfl
  have hx : Within M s x := State.regrain_within rfl rfl rfl (State.store_within rfl rfl hw)
  have hy : Within M s y := .ite (State.damageFrames_within rfl hx) hx
  exact .ite (.next h) (.next (.ite (by apply State.withholdRow_within (hs := hy) <;> rfl) hy))

theorem execScrubRateHour_row (t stack s) : Goes (touched (.scrubRateHour t stack)) s (execScrubRateHour t stack s) :=
  .ite (.next ((arrived rfl).setRel rfl)) (.ite (.next ((arrived rfl).setRel rfl)) (.next ((arrived rfl).setRel rfl)))

theorem execPeerUnreachable_row (t node s) : Goes (touched (.peerUnreachable t node)) s (execPeerUnreachable t node s) := by
  set M := touched (.peerUnreachable t node)
  unfold execPeerUnreachable
  extract_lets u ps dark rings conn r v say
  have h : Within M s u := arrived rfl
  have hv : Within M s v := h.setRel rfl
  have hsay {x ring rank comp} (h : Within M s x) :
      Within M s (say x ring rank comp) := by
    apply State.sendNotice_within <;> try rfl
    apply State.event_within (hs := h) <;> rfl
  exact .ite (.next h) (.ite (.next (hsay hv)) (.next (hv.foldl fun _ _ h => hsay h)))

theorem execRoleNotice_row (t r s) : Goes (touched (.roleNotice t r)) s (execRoleNotice t r s) :=
  .next (.ite (by apply State.roleTaken_within (hs := State.mgmtTake_within rfl (arrived rfl)) <;> rfl) (arrived rfl))

theorem execRebuild_row (t c r s) : Goes (touched (.rebuild t c r)) s (execRebuild t c r s) := by
  unfold execRebuild
  extract_lets u
  have h : Within (touched (.rebuild t c r)) s u := arrived rfl
  split
  · exact .next h
  split
  · refine .ite (.next h) (.next (.foldl (State.enqueue_within rfl h) fun _ _ h => .ite ?_ h))
    apply State.ringSend_within (hs := h) <;> rfl
  · exact .next h

theorem execSendPiece_row (t c r s) : Goes (touched (.sendPiece t c r)) s (execSendPiece t c r s) := by
  unfold execSendPiece
  extract_lets u
  have h : Within (touched (.sendPiece t c r)) s u := arrived rfl
  split
  · refine .ite (.next h) ?_
    extract_lets send
    have hsend {off seg} : Within (touched (.sendPiece t c r)) s (send off seg) := State.enqueue_within rfl h
    split
    · exact .next hsend
    · exact .next hsend
    · exact .next h
  · exact .next h

theorem execRecontribute_row (t c r s) : Goes (touched (.recontribute t c r)) s (execRecontribute t c r s) := by
  unfold execRecontribute
  extract_lets u
  have h : Within (touched (.recontribute t c r)) s u := arrived rfl
  split
  · exact .next h
  · exact .ite (.next h) (.next (h.foldl fun _ _ h => State.sendContrib_within rfl h))

theorem execRebuildSlotComplete_row (t c slot s) :
    Goes (touched (.rebuildSlotComplete t c slot)) s (execRebuildSlotComplete t c slot s) := by
  unfold execRebuildSlotComplete
  extract_lets u
  have h : Within (touched (.rebuildSlotComplete t c slot)) s u := arrived rfl
  split
  · split
    · refine .ite (.next h) (.ite (.next (State.freeRslot_within rfl h)) (.next ?_))
      apply State.checkRebuilt_within <;> try rfl
      apply State.storePage_within (hs := (State.freeRslot_within rfl h).setRel rfl) <;> rfl
    · exact .next (State.freeRslot_within rfl h)
  · exact .next h

theorem execRebuildSlotTimeout_row (t c slot s) :
    Goes (touched (.rebuildSlotTimeout t c slot)) s (execRebuildSlotTimeout t c slot s) := by
  unfold execRebuildSlotTimeout
  extract_lets u
  have h : Within (touched (.rebuildSlotTimeout t c slot)) s u := arrived rfl
  split
  · exact .next h
  have h' {r} : Within (touched (.rebuildSlotTimeout t c slot)) s (u.setRslot r) := State.setRslot_within rfl h
  refine .ite (.next h) (.next ?_)
  apply State.checkRebuilt_within <;> try rfl
  exact .ite (by apply State.losePage_within (hs := h') <;> rfl) h'

theorem execRebuildSlotQuarantineEnd_row (t c slot s) :
    Goes (touched (.rebuildSlotQuarantineEnd t c slot)) s (execRebuildSlotQuarantineEnd t c slot s) := by
  unfold execRebuildSlotQuarantineEnd
  extract_lets u
  have h : Within (touched (.rebuildSlotQuarantineEnd t c slot)) s u := arrived rfl
  split
  · exact .next h
  · exact .next (.ite (State.freeRslot_within rfl h) h)

theorem execAdmissionSelfTestDone_row (t failures s) :
    Goes (touched (.admissionSelfTestDone t failures)) s (execAdmissionSelfTestDone t failures s) := by
  unfold execAdmissionSelfTestDone
  extract_lets u
  have h : Within (touched (.admissionSelfTestDone t failures)) s u := arrived rfl
  split
  · exact .next h
  · exact .ite (.next h) (.ite (.next (by apply State.teardown_within (hs := h.setRel rfl) <;> rfl)) (.next (h.setRel rfl)))

theorem execShadowCompare_row (t b s) : Goes (touched (.shadowCompare t b)) s (execShadowCompare t b s) := by
  unfold execShadowCompare
  extract_lets u
  have h : Within (touched (.shadowCompare t b)) s u := arrived rfl
  split
  · exact .next h
  split
  · exact .next h
  refine .ite (.next h) (.ite (.next ?_) (.next (h.setRel rfl)))
  apply State.dropImage_within <;> try rfl
  apply State.event_within (hs := h.setRel rfl) <;> rfl

theorem execFwupdateStaged_row (t s) : Goes (touched (.fwupdateStaged t)) s (execFwupdateStaged t s) :=
  .next ((arrived rfl).setRel rfl)

/-! ### Slot tables (02) -/

theorem execScheduleGo_row (t stepHi s) : Goes (touched (.scheduleGo t stepHi)) s (execScheduleGo t stepHi s) :=
  .next (.ite (State.writeCommitHi_within rfl (arrived rfl)) (arrived rfl))

theorem execScheduleCancel_row (t s) : Goes (touched (.scheduleCancel t)) s (execScheduleCancel t s) :=
  .next (.ite (State.writeCommitHi_within rfl (arrived rfl)) (arrived rfl))

theorem execScheduleValidationDone_row (t s) : Goes (touched (.scheduleValidationDone t)) s (execScheduleValidationDone t s) :=
  .ite (.next (arrived rfl)) (.next ((arrived rfl).setSch rfl))

theorem execSlotStart_row (t slot s) : Goes (touched (.slotStart t slot)) s (execSlotStart t slot s) := by
  set M := touched (.slotStart t slot)
  unfold execSlotStart
  extract_lets u tick
  have h : Within M s u := arrived rfl
  split
  · exact .ite (.next h) (.next (by apply State.startLate_within (hs := h) <;> rfl))
  split
  · exact .next h
  extract_lets near far v w behind x fin r y p z
  have hv : Within M s v := h.foldl fun _ _ h => by apply State.evict_within (hs := h) <;> rfl
  have hw : Within M s w := hv.foldl fun _ _ h => by apply State.evict_within (hs := h) <;> rfl
  have hx : Within M s x :=
    .ite (.ite (by apply State.inherit_within (hs := hw) <;> rfl) (by apply State.breach_within (hs := hw) <;> rfl)) hw
  have hz : Within M s z := (State.setRun_within rfl hx).setPwr rfl
  refine .ite (.next h) (.ite (.next hw) (.next (State.govern_within rfl rfl ?_)))
  apply State.drainOps_within <;> try rfl
  apply State.slotWork_within (hs := hz) <;> rfl

theorem execSlotEnd_row (t slot s) : Goes (touched (.slotEnd t slot)) s (execSlotEnd t slot s) := by
  have h : Within (touched (.slotEnd t slot)) s (s.arrive t) := arrived rfl
  dsimp only [execSlotEnd]
  split
  · exact .ite (.next h) (.next (by apply State.endOver_within (hs := h) <;> rfl))
  split
  · exact .next h
  · exact .ite (.next h) (.next (by apply State.endSlot_within (hs := h) <;> rfl))

theorem execAlphaUpdate_row (t cls s) : Goes (touched (.alphaUpdate t cls)) s (execAlphaUpdate t cls s) :=
  .ite (.next (arrived rfl)) (.next ((arrived rfl).setSch rfl))

theorem execCoarseningLatch_row (t s) : Goes (touched (.coarseningLatch t)) s (execCoarseningLatch t s) := by
  set M := touched (.coarseningLatch t)
  unfold execCoarseningLatch
  extract_lets u wait v p r w
  have h : Within M s u := arrived rfl
  have hv : Within M s v := State.chargeAll_within rfl rfl h
  clear_value v
  have hw : Within M s w := hv.update rfl rfl rfl rfl fun q => by
    cases q <;> simp [M, touched, touches, Part.same, w, r]
  exact .ite (.next h) (.next (hw.foldl fun _ _ h => by apply State.ringCopy_within (hs := h) <;> rfl))

/-! ### Phase (02) -/

theorem execMarkLayer_row (t port m s) : Goes (touched (.markLayer t port m)) s (execMarkLayer t port m s) :=
  .next (by apply State.mark_within (hs := arrived rfl) <;> rfl)

theorem execMarkStep_row (t port m s) : Goes (touched (.markStep t port m)) s (execMarkStep t port m s) :=
  .next (by apply State.mark_within (hs := arrived rfl) <;> rfl)

theorem execMarkHold_row (t port m s) : Goes (touched (.markHold t port m)) s (execMarkHold t port m s) :=
  .next (by apply State.mark_within (hs := arrived rfl) <;> rfl)

theorem execMarkResume_row (t port m s) : Goes (touched (.markResume t port m)) s (execMarkResume t port m s) :=
  .next (by apply State.mark_within (hs := arrived rfl) <;> rfl)

theorem execMarkSync_row (t port m s) : Goes (touched (.markSync t port m)) s (execMarkSync t port m s) :=
  .next (by apply State.mark_within (hs := arrived rfl) <;> rfl)

theorem execMasterLayerBoundary_row (t s) : Goes (touched (.masterLayerBoundary t)) s (execMasterLayerBoundary t s) := by
  refine .ite (.next (arrived rfl)) (.next ?_)
  apply State.goOn_within <;> try rfl
  apply State.masterMark_within (hs := arrived rfl) <;> rfl

theorem execHoldSyncMark_row (t s) : Goes (touched (.holdSyncMark t)) s (execHoldSyncMark t s) :=
  .ite (.next (arrived rfl)) (.next (by apply State.masterMark_within (hs := arrived rfl) <;> rfl))

theorem execLayerMarkLate_row (t s) : Goes (touched (.layerMarkLate t)) s (execLayerMarkLate t s) :=
  .ite (.next ((arrived rfl).setPhs rfl (.inl rfl))) (.next (arrived rfl))

theorem execTickSaturation_row (t s) : Goes (touched (.tickSaturation t)) s (execTickSaturation t s) :=
  .next (.ite (by apply State.tbFault_within (hs := State.tickKept_within rfl (arrived rfl)) <;> rfl) (arrived rfl))

theorem execMarkWaitTimeout_row (t s) : Goes (touched (.markWaitTimeout t)) s (execMarkWaitTimeout t s) :=
  .next (.ite (by apply State.tbFault_within (hs := State.tickKept_within rfl (arrived rfl)) <;> rfl) (arrived rfl))

theorem execJobStart_row (t term job step s) : Goes (touched (.jobStart t term job step)) s (execJobStart t term job step s) :=
  .next (.ite (by apply State.jobStart_within (hs := arrived rfl) <;> rfl) (arrived rfl))

theorem execClaim_row (t term node job s) : Goes (touched (.claim t term node job)) s (execClaim t term node job s) := by
  dsimp only [execClaim]
  refine .ite (.next (arrived rfl)) ?_
  have h := State.mgmtTake_within (M := touched (.claim t term node job)) rfl (arrived (s := s) (t := t) rfl)
  split
  · exact .next h
  · exact .ite (.next (h.setPhs rfl (.inl rfl))) (.next h)

theorem execClaimWindowExpiry_row (t s) : Goes (touched (.claimWindowExpiry t)) s (execClaimWindowExpiry t s) := by
  dsimp only [execClaimWindowExpiry]
  split
  · exact .next (arrived rfl)
  · exact .next (.ite (by apply State.becomeMaster_within (hs := arrived rfl) <;> rfl) (arrived rfl))

theorem execHostMark_row (t hi s) : Goes (touched (.hostMark t hi)) s (execHostMark t hi s) :=
  .next (.ite (by apply State.hostMark_within (hs := arrived rfl) <;> rfl) (arrived rfl))

theorem execPhsNowRead_row (t s) : Goes (touched (.phsNowRead t)) s (execPhsNowRead t s) :=
  .ite (.next (State.emit_within rfl (arrived rfl)))
    (.next (State.emit_within rfl (State.readNow_within rfl rfl (arrived rfl))))

theorem execStepCompleteReport_row (t s) : Goes (touched (.stepCompleteReport t)) s (execStepCompleteReport t s) := by
  have h : Within (touched (.stepCompleteReport t)) s (s.arrive t) := arrived rfl
  dsimp only [execStepCompleteReport]
  refine .ite (.next h) ?_
  have h := State.govern_within rfl rfl ((h.setPhs (x := { (s.arrive t).phs with reported := true }) rfl (.inl rfl)).setRel
    (x := { (s.arrive t).rel with lastDone := (s.arrive t).step }) rfl)
  refine .ite (.next (State.emit_within rfl (h.setHif rfl))) (.ite (.next ?_) (.next ?_))
  · apply State.tryStep_within (hs := (State.emit_within rfl h).setPhs rfl (.inl rfl)) <;> rfl
  · exact State.mgmtSend_within rfl (State.emit_within rfl h)

theorem execStepCompleteReceive_row (t step node breaches fallback s) :
    Goes (touched (.stepCompleteReceive t step node breaches fallback)) s (execStepCompleteReceive t step node breaches fallback s) := by
  have h : Within (touched (.stepCompleteReceive t step node breaches fallback)) s (s.arrive t).mgmtTake :=
    State.mgmtTake_within rfl (arrived rfl)
  refine .ite (.next (arrived rfl)) (.ite (.next h) (.next ?_))
  apply State.tryStep_within (hs := .ite h (h.setPhs rfl (.inl rfl))) <;> rfl

/-! ### Power (16) -/

theorem execGovernorRiseStart_row (t slot s) : Goes (touched (.governorRiseStart t slot)) s (execGovernorRiseStart t slot s) := by
  unfold execGovernorRiseStart
  extract_lets u
  have h : Within (touched (.governorRiseStart t slot)) s u := arrived rfl
  split
  · exact .next h
  have hb := State.ballastSpent_within rfl rfl h
  exact .ite (.next h) (.next (Within.setPwr (.ite (State.countBy_within rfl hb) hb) rfl))

theorem execGovCtlWrite_row (t v s) : Goes (touched (.govCtlWrite t v)) s (execGovCtlWrite t v s) :=
  .next (.ite (State.writeGovCtl_within rfl rfl rfl (arrived rfl)) (arrived rfl))

theorem execPowerSample_row (t watts mean100 s) :
    Goes (touched (.powerSample t watts mean100)) s (execPowerSample t watts mean100 s) := by
  set M := touched (.powerSample t watts mean100)
  unfold execPowerSample
  extract_lets u l p v w x
  have h : Within M s u := arrived rfl
  have hw : Within M s w := by apply State.avsSample_within (hs := h.setPwr rfl) <;> rfl
  have hx : Within M s x := .ite (by apply State.powerCap_within (hs := hw) <;> rfl) hw
  refine .ite (.next h) ?_
  split
  · exact .next hx
  · exact .next ((State.draw_within rfl hx).setPwr rfl)

theorem execThermalSample_row (t temps s) : Goes (touched (.thermalSample t temps)) s (execThermalSample t temps s) := by
  set M := touched (.thermalSample t temps)
  unfold execThermalSample
  extract_lets u l a b v w was lvl p x y hot fresh q z
  have h : Within M s u := arrived rfl
  have hv : Within M s v := State.refreshSample_within rfl rfl rfl (State.meanTemps_within rfl h)
  have hw : Within M s w := by
    apply State.thermWarn_within <;> try rfl
    apply State.thermWarn_within (hs := hv) <;> rfl
  have hx : Within M s x := hw.setPwr rfl
  have hy : Within M s y :=
    .ite (by apply State.powerEvent_within (hs := State.count_within rfl hx) <;> rfl) hx
  have hz : Within M s z := hy.setPwr rfl
  refine .ite (.next h) (.ite (.next ?_) (.ite (.next ?_) (.ite (.next h) (.next (.ite ?_ hz)))))
  · apply State.thermalTrip_within (hs := h) <;> rfl
  · apply State.thermalTrip_within (hs := h) <;> rfl
  · apply State.nmuAbortAll_within <;> try rfl
    apply State.powerEvent_within (hs := State.count_within rfl hz) <;> rfl

theorem execPwrWarnAssert_row (t s) : Goes (touched (.pwrWarnAssert t)) s (execPwrWarnAssert t s) :=
  .next (.ite (State.setLevels_within rfl rfl (arrived rfl)) (arrived rfl))

theorem execPwrWarnDeassert_row (t s) : Goes (touched (.pwrWarnDeassert t)) s (execPwrWarnDeassert t s) :=
  .next (.ite (State.setLevels_within rfl rfl (arrived rfl)) (arrived rfl))

theorem execSupplySag_row (t percent s) : Goes (touched (.supplySag t percent)) s (execSupplySag t percent s) :=
  .next (.ite (State.setLevels_within rfl rfl (arrived rfl)) (arrived rfl))

theorem execShedStageEnter_row (t stage s) : Goes (touched (.shedStageEnter t stage)) s (execShedStageEnter t stage s) := by
  have h : Within (touched (.shedStageEnter t stage)) s (s.arrive t) := arrived rfl
  refine .ite (.next h) (.next ?_)
  apply State.powerEvent_within <;> try rfl
  refine .foldl (State.noteStage_within rfl rfl h) fun _ _ h => ?_
  apply State.stageAction_within (hs := h) <;> rfl

theorem execStage6End_row (t s) : Goes (touched (.stage6End t)) s (execStage6End t s) :=
  .ite (.next (arrived rfl))
    (.next (by apply State.powerEvent_within (hs := State.noteStage_within rfl rfl (State.countBy_within rfl (arrived rfl))) <;> rfl))

theorem execShedStageExit_row (t s) : Goes (touched (.shedStageExit t)) s (execShedStageExit t s) := by
  refine .ite (.next (arrived rfl)) (.next ?_)
  apply State.readmit_within <;> try rfl
  apply State.powerEvent_within (hs := (arrived rfl).setPwr rfl) <;> rfl

theorem execHoldoverExit_row (t s) : Goes (touched (.holdoverExit t)) s (execHoldoverExit t s) :=
  .ite (.next (arrived rfl)) (.next (by apply State.powerEvent_within (hs := (arrived rfl).setPwr rfl) <;> rfl))

theorem execPowerResume_row (t s) : Goes (touched (.powerResume t)) s (execPowerResume t s) :=
  .next (.ite (by apply State.writePwrCtl_within (hs := arrived rfl) <;> rfl) (arrived rfl))

theorem execIdleFallow_row (t v s) : Goes (touched (.idleFallow t v)) s (execIdleFallow t v s) :=
  .next (.ite (by apply State.writePwrCtl_within (hs := arrived rfl) <;> rfl) (arrived rfl))

theorem execSecurityCoreRestart_row (t s) : Goes (touched (.securityCoreRestart t)) s (execSecurityCoreRestart t s) :=
  .next (.ite (by apply State.readmit_within (hs := (arrived rfl).setSec rfl) <;> rfl) (arrived rfl))

/-! ### Quanta (02) -/

theorem execBestEffortQuantumStart_row (t q s) :
    Goes (touched (.bestEffortQuantumStart t q)) s (execBestEffortQuantumStart t q s) := by
  have h : Within (touched (.bestEffortQuantumStart t q)) s (s.arrive t) := arrived rfl
  dsimp only [execBestEffortQuantumStart]
  split
  · exact .next h
  refine .ite (.next h) (.ite (.next (State.count_within rfl h)) (.ite (.next ?_) (.next ?_)))
  · apply State.governorWait_within (hs := State.draw_within rfl h) <;> rfl
  · apply State.quantum_within (hs := State.draw_within rfl h) <;> rfl

/-! ### The master (15) -/

theorem execBarrierTimeout_row (t s) : Goes (touched (.barrierTimeout t)) s (execBarrierTimeout t s) :=
  .ite (.next (arrived rfl)) (.next (by apply State.holdFor_within (hs := arrived rfl) <;> rfl))

theorem execControlFlitReceive_row (t port codes crc f s) :
    Goes (touched (.controlFlitReceive t port codes crc f)) s (execControlFlitReceive t port codes crc f s) := by
  have h : Within (touched (.controlFlitReceive t port codes crc f)) s (s.arrive t) := arrived rfl
  have hc : Within (touched (.controlFlitReceive t port codes crc f)) s ((s.arrive t).codewords port codes) := by
    apply State.codewords_within (hs := h) <;> rfl
  refine .ite (.next h) (.ite (.next hc) (.ite (.next (State.count_within rfl hc)) (.next (.foldl ?_ fun _ _ h => ?_))))
  · apply State.control_within (hs := hc) <;> rfl
  · apply State.linkRecord_within (hs := h) <;> rfl

theorem execGatewayDatagramReceive_row (t port fr d s) :
    Goes (touched (.gatewayDatagramReceive t port fr d)) s (execGatewayDatagramReceive t port fr d s) := by
  have h : Within (touched (.gatewayDatagramReceive t port fr d)) s (s.arrive t) := arrived rfl
  have hd (x) : Within (touched (.gatewayDatagramReceive t port fr d)) s ((s.arrive t).gwDrop port x) := by
    apply State.gwDrop_within (hs := h) <;> rfl
  unfold execGatewayDatagramReceive
  refine .ite (.next h) (.ite (.next (State.count_within rfl h)) (.ite (.next h) (.ite (.next (hd _)) (.ite ?_ (.next ?_)))))
  · split
    · exact .next (.ite (by apply State.mark_within (hs := h) <;> rfl) (hd _))
    · exact .next (hd _)
  · apply State.unpack_within (hs := h) <;> rfl

theorem execFaultNotice_row (t n s) : Goes (touched (.faultNotice t n)) s (execFaultNotice t n s) := by
  set M := touched (.faultNotice t n)
  unfold execFaultNotice
  extract_lets u v w
  have h : Within M s u := arrived rfl
  have hv : Within M s v := .ite h (State.mgmtTake_within rfl h)
  have hw : Within M s w := by apply State.sourceFault_within (hs := hv) <;> rfl
  exact .ite (.next h) (.next (.ite (by apply State.masterFault_within (hs := hw) <;> rfl) hw))

theorem execStandbyReady_row (t ring rank s) : Goes (touched (.standbyReady t ring rank)) s (execStandbyReady t ring rank s) :=
  .ite (.next (arrived rfl)) (.next (by apply State.resumeIfReady_within (hs := (arrived rfl).setRel rfl) <;> rfl))

/-! ### Start-up, clocks, test access (19, 20) -/

theorem execPerstNAssert_row (t s) : Goes (touched (.perstNAssert t)) s (execPerstNAssert t s) :=
  .next (.ite (by apply State.resetNode_within (hs := arrived rfl) <;> rfl) (arrived rfl))

theorem execPerstNDeassert_row (t addr s) : Goes (touched (.perstNDeassert t addr)) s (execPerstNDeassert t addr s) :=
  .next (.ite (arrived rfl) (.ite ((arrived rfl).setBoot rfl) (by apply State.bootStart_within (hs := arrived rfl) <;> rfl)))

theorem execConfigPersist_row (t s) : Goes (touched (.configPersist t)) s (execConfigPersist t s) :=
  .next (.ite (State.persist_within rfl (arrived rfl)) (arrived rfl))

theorem execRomVerifyDone_row (t aOk bOk s) : Goes (touched (.romVerifyDone t aOk bOk)) s (execRomVerifyDone t aOk bOk s) := by
  have h : Within (touched (.romVerifyDone t aOk bOk)) s (s.arrive t) := arrived rfl
  refine .ite (.next h) (.ite (.next (State.bootFail_within rfl (h.setSec rfl))) (.next (State.linkHost_within rfl rfl ?_)))
  exact h.update rfl rfl rfl rfl fun p => by cases p <;> simp [touched, touches, Part.same]

theorem execScStageDone_row (t cfgOk derived s) :
    Goes (touched (.scStageDone t cfgOk derived)) s (execScStageDone t cfgOk derived s) := by
  set M := touched (.scStageDone t cfgOk derived)
  unfold execScStageDone
  extract_lets u had p v w keys kept x b y
  have h : Within M s u := arrived rfl
  have hv : Within M s v := .ite h (h.setPd rfl (.inl rfl))
  have hw : Within M s w := .ite (by apply State.event_within (hs := hv) <;> rfl) hv
  clear_value w
  have hy : Within M s y := hw.update rfl rfl rfl rfl fun q => by
    cases q <;> simp [M, touched, touches, allBut, allParts, Part.same, y]
  refine .ite (.next h) (.next (.foldl ?_ fun _ _ h => by apply State.portStart_within (hs := h) <;> rfl))
  apply State.loadStored_within (hs := hy) <;> rfl

theorem execHbmTrainingDone_row (t failed s) : Goes (touched (.hbmTrainingDone t failed)) s (execHbmTrainingDone t failed s) := by
  unfold execHbmTrainingDone
  extract_lets u bad slices c b v
  have h : Within (touched (.hbmTrainingDone t failed)) s u := arrived rfl
  have hv : Within (touched (.hbmTrainingDone t failed)) s v := h.update rfl rfl rfl rfl fun p => by
    cases p <;> simp [touched, touches, Part.same, v]
  exact .ite (.next h) (.ite (.next (State.bootFail_within rfl hv)) (.next (hv.update rfl rfl rfl rfl fun p => by
    cases p <;> simp [touched, touches, Part.same])))

theorem execZeroisationDone_row (t s) : Goes (touched (.zeroisationDone t)) s (execZeroisationDone t s) :=
  .ite (.next (arrived rfl)) (.next ((((((arrived rfl).clearMem rfl).setHbm rfl).setRmo rfl).setSec rfl).setBoot rfl))

theorem execFlashTrainingDone_row (t pages retired programmed s) :
    Goes (touched (.flashTrainingDone t pages retired programmed)) s (execFlashTrainingDone t pages retired programmed s) := by
  set M := touched (.flashTrainingDone t pages retired programmed)
  unfold execFlashTrainingDone
  extract_lets u v waits w p a b
  have h : Within M s u := arrived rfl
  have hv : Within M s v := h.foldl fun _ _ h => by
    apply State.trainFlash_within (hs := h) <;> rfl
  have hw : Within M s w := by apply State.restore_within (hs := hv) <;> rfl
  clear_value w
  exact .ite (.next h) (.next (hw.update rfl rfl rfl rfl fun q => by
    cases q <;> simp [M, touched, touches, allBut, allParts, Part.same, p]))

theorem execFlashBackgroundEraseDone_row (t s) :
    Goes (touched (.flashBackgroundEraseDone t)) s (execFlashBackgroundEraseDone t s) := by
  refine .next (.ite (Within.setBoot (.foldl (arrived rfl) fun _ _ h => ?_) rfl) (arrived rfl))
  apply State.emptyQueue_within (hs := h) <;> rfl

theorem execOrderlyPowerDown_row (t s) : Goes (touched (.orderlyPowerDown t)) s (execOrderlyPowerDown t s) :=
  .next (.ite (by apply State.powerDown_within (hs := arrived rfl) <;> rfl) (arrived rfl))

theorem execPowerDownReady_row (t s) : Goes (touched (.powerDownReady t)) s (execPowerDownReady t s) :=
  .ite (.next (arrived rfl)) (.next ((State.meterPersist_within rfl rfl (State.persist_within rfl (arrived rfl))).setPwr rfl))

theorem execRefclkCoreLoss_row (t s) : Goes (touched (.refclkCoreLoss t)) s (execRefclkCoreLoss t s) := by
  have h : Within (touched (.refclkCoreLoss t)) s (s.arrive t).endEverything := by
    apply State.endEverything_within (hs := arrived rfl) <;> rfl
  exact .ite (.next (arrived rfl)) (.next (h.setBoot rfl))

theorem execRefclkFabLoss_row (t s) : Goes (touched (.refclkFabLoss t)) s (execRefclkFabLoss t s) := by
  refine .ite (.next (arrived rfl)) (.next (Within.setBoot (.foldl (arrived rfl) fun _ _ h => .ite ?_ h) rfl))
  apply State.goRetrain_within (hs := h) <;> rfl

theorem execTestenHigh_row (t s) : Goes (touched (.testenHigh t)) s (execTestenHigh t s) := by
  refine .next (Within.setBoot (.ite ?_ (arrived rfl)) rfl)
  apply State.resetNode_within (hs := arrived rfl) <;> rfl

theorem execAvsRequestTimeout_row (t s) : Goes (touched (.avsRequestTimeout t)) s (execAvsRequestTimeout t s) :=
  .ite (.next (arrived rfl)) (.ite (.next ((arrived rfl).setBoot rfl))
    (.next (by apply State.powerEvent_within (hs := (arrived rfl).setBoot rfl) <;> rfl)))

theorem execSmbAlertResponse_row (t s) : Goes (touched (.smbAlertResponse t)) s (execSmbAlertResponse t s) :=
  .next ((arrived rfl).setBoot rfl)

theorem execBypass_row (t s) : Goes (touched (.bypass t)) s (execBypass t s) :=
  .next (State.tap_within rfl (arrived rfl) fun _ h => h)

theorem execIdcode_row (t s) : Goes (touched (.idcode t)) s (execIdcode t s) :=
  .next (State.tap_within rfl (arrived rfl) fun _ h => h)

theorem execSamplePreload_row (t cells s) : Goes (touched (.samplePreload t cells)) s (execSamplePreload t cells s) :=
  .next (State.tap_within rfl (arrived rfl) fun _ h => h.setBoot rfl)

theorem execExtest_row (t s) : Goes (touched (.extest t)) s (execExtest t s) :=
  .next (State.tap_within rfl (arrived rfl) fun _ h => by apply State.boundary_within (hs := h) <;> rfl)

theorem execClamp_row (t s) : Goes (touched (.clamp t)) s (execClamp t s) :=
  .next (State.tap_within rfl (arrived rfl) fun _ h => by apply State.boundary_within (hs := h) <;> rfl)

theorem execHighz_row (t s) : Goes (touched (.highz t)) s (execHighz t s) :=
  .next (State.tap_within rfl (arrived rfl) fun _ h => by apply State.boundary_within (hs := h) <;> rfl)

theorem execExtestPulse_row (t s) : Goes (touched (.extestPulse t)) s (execExtestPulse t s) :=
  .next (State.tap_within rfl (arrived rfl) fun _ h => by apply State.boundary_within (hs := h) <;> rfl)

theorem execExtestTrain_row (t s) : Goes (touched (.extestTrain t)) s (execExtestTrain t s) :=
  .next (State.tap_within rfl (arrived rfl) fun _ h => by apply State.boundary_within (hs := h) <;> rfl)

theorem execPrivateInstruction_row (t p s) : Goes (touched (.privateInstruction t p)) s (execPrivateInstruction t p s) := by
  have htap {n} : Within (touched (.privateInstruction t p)) s ((s.arrive t).tap n id) :=
    State.tap_within rfl (arrived rfl) fun _ h => h
  refine .next (.ite (arrived rfl) (.ite ?_ htap))
  cases p.access
  · exact htap
  · exact State.debugAccess_within rfl rfl rfl rfl htap

theorem execPowerRemoved_row (t s) : Goes (touched (.powerRemoved t)) s (execPowerRemoved t s) := by
  have h : Within (touched (.powerRemoved t)) s (s.arrive t).resetNode := by
    apply State.resetNode_within (hs := arrived rfl) <;> rfl
  exact .next (h.update rfl rfl rfl rfl fun p => by cases p <;> simp [touched, touches, allBut, allParts, Part.same])

theorem execRefclkFabReturn_row (t s) : Goes (touched (.refclkFabReturn t)) s (execRefclkFabReturn t s) := by
  refine .ite (.next (arrived rfl)) (.next (.foldl ((arrived rfl).setBoot rfl) fun _ _ h => .ite (State.setPort_within rfl ?_) h))
  apply State.enterPort_within (hs := h) <;> rfl

theorem execBootStageRestart_row (t s) : Goes (touched (.bootStageRestart t)) s (execBootStageRestart t s) :=
  .next (.ite ((arrived rfl).setBoot rfl) (arrived rfl))

/-! ### The Parameter Directory (18) -/

theorem execPdMailboxGo_row (t m s) : Goes (touched (.pdMailboxGo t m)) s (execPdMailboxGo t m s) :=
  .next (by apply State.pdMessage_within (hs := arrived rfl) <;> rfl)

theorem execPdpMessage_row (t tr m s) : Goes (touched (.pdpMessage t tr m)) s (execPdpMessage t tr m s) :=
  .next (by apply State.pdMessage_within (hs := arrived rfl) <;> rfl)

theorem execPdRead_row (t p i s) : Goes (touched (.pdRead t p i)) s (execPdRead t p i s) :=
  .next (by apply State.pdOne_within (hs := arrived rfl) <;> rfl)

theorem execPdWrite_row (t p i s) : Goes (touched (.pdWrite t p i)) s (execPdWrite t p i s) :=
  .next (by apply State.pdOne_within (hs := arrived rfl) <;> rfl)

theorem execPdDescribe_row (t p i s) : Goes (touched (.pdDescribe t p i)) s (execPdDescribe t p i s) :=
  .next (by apply State.pdOne_within (hs := arrived rfl) <;> rfl)

theorem execPdNext_row (t p i s) : Goes (touched (.pdNext t p i)) s (execPdNext t p i s) :=
  .next (by apply State.pdOne_within (hs := arrived rfl) <;> rfl)

theorem execPdDefault_row (t p i s) : Goes (touched (.pdDefault t p i)) s (execPdDefault t p i s) :=
  .next (by apply State.pdOne_within (hs := arrived rfl) <;> rfl)

theorem execPdStagingTimeout_row (t index sub s) :
    Goes (touched (.pdStagingTimeout t index sub)) s (execPdStagingTimeout t index sub s) :=
  .next ((arrived rfl).setPd rfl (.inr rfl))

theorem execArpRequest_row (t ip s) : Goes (touched (.arpRequest t ip)) s (execArpRequest t ip s) :=
  .next (.ite (State.emit_within rfl (arrived rfl)) (arrived rfl))

theorem execNeighbourSolicitation_row (t ip s) :
    Goes (touched (.neighbourSolicitation t ip)) s (execNeighbourSolicitation t ip s) :=
  .next (.ite (State.emit_within rfl (arrived rfl)) (arrived rfl))

theorem execEchoRequest_row (t ip v6 data s) : Goes (touched (.echoRequest t ip v6 data)) s (execEchoRequest t ip v6 data s) :=
  .next (.ite (State.emit_within rfl (arrived rfl)) (arrived rfl))

/-! ### The host interface (17) -/

theorem execHotReset_row (t s) : Goes (touched (.hotReset t)) s (execHotReset t s) :=
  .next (.ite (by apply State.hifReset_within (hs := arrived rfl) <;> rfl) (arrived rfl))

theorem execVfFlr_row (t vf s) : Goes (touched (.vfFlr t vf)) s (execVfFlr t vf s) :=
  .next (.ite (State.flr_within rfl rfl rfl (arrived rfl)) (arrived rfl))

theorem execDoorbell_row (t vf tail s) : Goes (touched (.doorbell t vf tail)) s (execDoorbell t vf tail s) :=
  .next (.ite (State.ringDoorbell_within rfl rfl (arrived rfl)) (arrived rfl))

theorem execSubmissionFetch_row (t vf e b s) : Goes (touched (.submissionFetch t vf e b)) s (execSubmissionFetch t vf e b s) := by
  set M := touched (.submissionFetch t vf e b)
  unfold execSubmissionFetch
  extract_lets u v slot w x y
  have h : Within M s u := arrived rfl
  have hw : Within M s w := State.setMbx_within rfl (State.setVf_within rfl h)
  have hx : Within M s x := by
    refine .ite hw ?_
    split
    · exact State.countC_within rfl hw
    · exact State.count_within rfl hw
  have hy : Within M s y := by
    unfold y
    split
    · apply State.fetchEnd_within <;> try rfl
      apply State.fetchFailed_within (hs := hx) <;> rfl
    · apply State.fetchEnd_within (hs := hx) <;> rfl
    · apply State.submit_within (hs := hx) <;> rfl
  exact .ite (.next h) (.next (State.pump_within rfl rfl hy))

theorem execFetchTimeout_row (t vf e s) : Goes (touched (.fetchTimeout t vf e)) s (execFetchTimeout t vf e s) := by
  set M := touched (.fetchTimeout t vf e)
  unfold execFetchTimeout
  extract_lets u v slot w shut x
  have h : Within M s u := arrived rfl
  have hw : Within M s w := State.setMbx_within rfl (State.setVf_within rfl h)
  have hx : Within M s x := .ite (State.fetchEnd_within rfl rfl rfl hw)
    (State.fetchEnd_within rfl rfl rfl (State.fetchFailed_within rfl rfl hw))
  exact .ite (.next h) (.next (State.pump_within rfl rfl hx))

theorem execMailboxRead_row (t vf n whole s) : Goes (touched (.mailboxRead t vf n whole)) s (execMailboxRead t vf n whole s) :=
  .ite (.next (arrived rfl)) (.next (State.emit_within rfl (.ite (State.readBox_within rfl (arrived rfl)) (arrived rfl))))

theorem execMailboxRelease_row (t vf v s) : Goes (touched (.mailboxRelease t vf v)) s (execMailboxRelease t vf v s) :=
  .next (.ite (State.releaseBox_within rfl rfl rfl (arrived rfl)) (arrived rfl))

theorem execHostApertureRead_row (t fn npa len errs s) :
    Goes (touched (.hostApertureRead t fn npa len errs)) s (execHostApertureRead t fn npa len errs s) :=
  .ite (.next (arrived rfl)) (.ite (.next (by apply State.apertureGet_within (hs := arrived rfl) <;> rfl)) (.ite
    (.next (by apply State.regGet_within (hs := arrived rfl) <;> rfl)) (.next (State.barGet_within rfl (arrived rfl)))))

theorem execHostApertureWrite_row (t fn npa data s) :
    Goes (touched (.hostApertureWrite t fn npa data)) s (execHostApertureWrite t fn npa data s) := by
  have h : Within (touched (.hostApertureWrite t fn npa data)) s (s.arrive t) := arrived rfl
  refine .ite (.next h) (.ite (.next ?_) (.ite (.next ?_) (.ite (.next (State.writeWindow_within rfl h)) (.next h))))
  · apply State.aperturePut_within (hs := h) <;> rfl
  · apply State.writeReg_within (hs := h) <;> rfl

theorem execRegisterWrite_row (t fn off width v s) :
    Goes (touched (.registerWrite t fn off width v)) s (execRegisterWrite t fn off width v s) :=
  .next (.ite (by apply State.writeReg_within (hs := arrived rfl) <;> rfl) (arrived rfl))

theorem execRefclkPcieLoss_row (t s) : Goes (touched (.refclkPcieLoss t)) s (execRefclkPcieLoss t s) := by
  have h : Within (touched (.refclkPcieLoss t)) s (s.arrive t).hifReset := by
    apply State.hifReset_within (hs := arrived rfl) <;> rfl
  exact .ite (.next (arrived rfl)) (.next (h.update rfl rfl rfl rfl fun p => by
    cases p <;> simp [touched, touches, Part.same]))

/-! ### Every command, and a step -/

/-- Every command goes on within its row: one arm for each arm of `exec`. -/
theorem exec_goes : ∀ (i : Instr) (s : State), Goes (touched i) s (exec i s)
  | .markLayer .., s => execMarkLayer_row ..
  | .markStep .., s => execMarkStep_row ..
  | .markHold .., s => execMarkHold_row ..
  | .markResume .., s => execMarkResume_row ..
  | .markSync .., s => execMarkSync_row ..
  | .masterLayerBoundary .., s => execMasterLayerBoundary_row ..
  | .holdSyncMark .., s => execHoldSyncMark_row ..
  | .layerMarkLate .., s => execLayerMarkLate_row ..
  | .tickSaturation .., s => execTickSaturation_row ..
  | .markWaitTimeout .., s => execMarkWaitTimeout_row ..
  | .jobStart .., s => execJobStart_row ..
  | .claim .., s => execClaim_row ..
  | .claimWindowExpiry .., s => execClaimWindowExpiry_row ..
  | .hostMark .., s => execHostMark_row ..
  | .phsNowRead .., s => execPhsNowRead_row ..
  | .stepCompleteReport .., s => execStepCompleteReport_row ..
  | .stepCompleteReceive .., s => execStepCompleteReceive_row ..
  | .barrierTimeout .., s => execBarrierTimeout_row ..
  | .scheduleGo .., s => execScheduleGo_row ..
  | .scheduleCancel .., s => execScheduleCancel_row ..
  | .scheduleValidationDone .., s => execScheduleValidationDone_row ..
  | .slotStart .., s => execSlotStart_row ..
  | .slotEnd .., s => execSlotEnd_row ..
  | .requestDispatch .., s => execRequestDispatch_row ..
  | .alphaUpdate .., s => execAlphaUpdate_row ..
  | .bestEffortQuantumStart .., s => execBestEffortQuantumStart_row ..
  | .coarseningLatch .., s => execCoarseningLatch_row ..
  | .attendRequest .., s => by apply execAttendRequest_goes (hs := Within.refl _ s) <;> rfl
  | .attentionComplete .., s => execAttentionComplete_row ..
  | .ctxCreate .., s => by apply execCtxCreate_goes (hs := Within.refl _ s) <;> rfl
  | .ctxFork .., s => by apply execCtxFork_goes (hs := Within.refl _ s) <;> rfl
  | .ctxDelete .., s => by apply execCtxDelete_goes (hs := Within.refl _ s) <;> rfl
  | .siltAppend .., s => by apply execSiltAppend_goes (hs := Within.refl _ s) <;> rfl
  | .appendAfterRelease .., s => execAppendAfterRelease_row ..
  | .siltMirrorAck .., s => execSiltMirrorAck_row ..
  | .siltRelease .., s => execSiltRelease_row ..
  | .pageMark .., s => by apply execPageMark_goes (hs := Within.refl _ s) <;> rfl
  | .pageRewrite .., s => by apply execPageRewrite_goes (hs := Within.refl _ s) <;> rfl
  | .search .., s => by apply execSearch_goes (hs := Within.refl _ s) <;> rfl
  | .searchComplete .., s => execSearchComplete_row ..
  | .corpusCreate .., s => by apply execCorpusCreate_goes (hs := Within.refl _ s) <;> rfl
  | .recordAppend .., s => by apply execRecordAppend_goes (hs := Within.refl _ s) <;> rfl
  | .recordDelete .., s => by apply execRecordDelete_goes (hs := Within.refl _ s) <;> rfl
  | .corpusDelete .., s => by apply execCorpusDelete_goes (hs := Within.refl _ s) <;> rfl
  | .corpusStorageFree .., s => execCorpusStorageFree_row ..
  | .nmuGrantRequest .., s => execNmuGrantRequest_row ..
  | .nmuClaimComplete .., s => execNmuClaimComplete_row ..
  | .nmuComputeComplete .., s => execNmuComputeComplete_row ..
  | .nmuDrainComplete .., s => execNmuDrainComplete_row ..
  | .nmuAbort .., s => execNmuAbort_row ..
  | .hbmTransfer .., s => execHbmTransfer_row ..
  | .refreshSlot .., s => execRefreshSlot_row ..
  | .pcaWaymaskWrite .., s => execPcaWaymaskWrite_row ..
  | .directoryInsert .., s => execDirectoryInsert_row ..
  | .directoryDelete .., s => execDirectoryDelete_row ..
  | .blockMoveComplete .., s => execBlockMoveComplete_row ..
  | .directoryThrottleSample .., s => execDirectoryThrottleSample_row ..
  | .adirBankcfgWrite .., s => execAdirBankcfgWrite_row ..
  | .nmuGovWrite .., s => execNmuGovWrite_row ..
  | .flashChunkReadComplete .., s => execFlashChunkReadComplete_row ..
  | .lunTimeout .., s => execLunTimeout_row ..
  | .zqCalibrationShort .., s => execZqCalibrationShort_row ..
  | .leaseEnd .., s => execLeaseEnd_row ..
  | .leaseRelease .., s => execLeaseRelease_row ..
  | .leaseForcedEnd .., s => execLeaseForcedEnd_row ..
  | .tierHintDb .., s => by apply execTierHintDb_goes (hs := Within.refl _ s) <;> rfl
  | .pin .., s => execPin_row ..
  | .unpin .., s => execUnpin_row ..
  | .prefetch .., s => execPrefetch_row ..
  | .dormant .., s => execDormant_row ..
  | .dormantComplete .., s => execDormantComplete_row ..
  | .wake .., s => execWake_row ..
  | .recallStart .., s => execRecallStart_row ..
  | .recallComplete .., s => execRecallComplete_row ..
  | .moveComplete .., s => execMoveComplete_row ..
  | .weightStreamDone .., s => execWeightStreamDone_row ..
  | .dataFlitReceive .., s => execDataFlitReceive_row ..
  | .controlFlitReceive .., s => execControlFlitReceive_row ..
  | .replayTimeout .., s => execReplayTimeout_row ..
  | .delayReq .., s => execDelayReq_row ..
  | .delayRsp .., s => execDelayRsp_row ..
  | .portEnable .., s => execPortEnable_row ..
  | .retrain .., s => execRetrain_row ..
  | .trainingComplete .., s => execTrainingComplete_row ..
  | .retrainAttemptFailed .., s => execRetrainAttemptFailed_row ..
  | .trainingTimeout .., s => execTrainingTimeout_row ..
  | .laneAlignmentLoss .., s => execLaneAlignmentLoss_row ..
  | .fecLimit .., s => execFecLimit_row ..
  | .fallowEnter .., s => execFallowEnter_row ..
  | .fallowExit .., s => execFallowExit_row ..
  | .gatewayDatagramReceive .., s => execGatewayDatagramReceive_row ..
  | .gatewayDatagramSend .., s => execGatewayDatagramSend_row ..
  | .gatewayResendTimeout .., s => execGatewayResendTimeout_row ..
  | .faultInjectCtlWrite .., s => execFaultInjectCtlWrite_row ..
  | .faultInjectSeedWrite .., s => execFaultInjectSeedWrite_row ..
  | .read .., s => execRead_row ..
  | .write .., s => execWrite_row ..
  | .add64 .., s => execAdd64_row ..
  | .addf32 .., s => execAddf32_row ..
  | .xor .., s => execXor_row ..
  | .cas64 .., s => execCas64_row ..
  | .cas128 .., s => execCas128_row ..
  | .cmd .., s => execCmd_row ..
  | .resp .., s => execResp_row ..
  | .readData .., s => execReadData_row ..
  | .respTimeout .., s => execRespTimeout_row ..
  | .reassemblyTimeout .., s => execReassemblyTimeout_row ..
  | .flagRelease .., s => execFlagRelease_row ..
  | .flagHoldTimeout .., s => execFlagHoldTimeout_row ..
  | .windowInsert .., s => execWindowInsert_row ..
  | .windowRemove .., s => execWindowRemove_row ..
  | .windowOpen .., s => execWindowOpen_row ..
  | .windowRevoke .., s => execWindowRevoke_row ..
  | .windowChangeInForce .., s => execWindowChangeInForce_row ..
  | .windowDrained .., s => execWindowDrained_row ..
  | .connectionWrite .., s => execConnectionWrite_goes rfl rfl (Within.refl _ s)
  | .atomicWriteback .., s => execAtomicWriteback_row ..
  | .hotLineEvict .., s => execHotLineEvict_row ..
  | .hotLine .., s => execHotLine_row ..
  | .egqWrite .., s => execEgqWrite_row ..
  | .egqRead .., s => execEgqRead_row ..
  | .packetStart .., s => execPacketStart_row ..
  | .sampleRound .., s => execSampleRound_row ..
  | .dmaStart .., s => execDmaStart_row ..
  | .dmaArm .., s => execDmaArm_row ..
  | .dmaAbort .., s => execDmaAbort_row ..
  | .dmaResume .., s => execDmaResume_row ..
  | .dmaPhaseTrigger .., s => execDmaPhaseTrigger_row ..
  | .dmaTransferDone .., s => execDmaTransferDone_row ..
  | .dmaHalt .., s => execDmaHalt_row ..
  | .dmaDoneClear .., s => execDmaDoneClear_row ..
  | .commit .., s => execCommit_goes rfl rfl (Within.refl _ s)
  | .commitValidationDone .., s => execCommitValidationDone_row ..
  | .sliceFree .., s => execSliceFree_row ..
  | .flashChannelFree .., s => execFlashChannelFree_row ..
  | .handoff .., s => execHandoff_goes rfl rfl rfl (Within.refl _ s)
  | .handoffBatchAck .., s => execHandoffBatchAck_row ..
  | .forceTeardown .., s => by apply execForceTeardown_goes (hs := Within.refl _ s) <;> rfl
  | .teardownComplete .., s => execTeardownComplete_row ..
  | .meteringPersist .., s => execMeteringPersist_row ..
  | .scWatchdogExpiry .., s => execScWatchdogExpiry_row ..
  | .scMemoryError .., s => execScMemoryError_row ..
  | .getVersion .., s => execGetVersion_row ..
  | .getCapabilities .., s => execGetCapabilities_row ..
  | .negotiateAlgorithms .., s => execNegotiateAlgorithms_row ..
  | .getDigests .., s => execGetDigests_row ..
  | .getCertificate .., s => execGetCertificate_row ..
  | .challenge .., s => execChallenge_row ..
  | .getMeasurements .., s => execGetMeasurements_row ..
  | .keyExchange .., s => execKeyExchange_row ..
  | .finish .., s => execFinish_row ..
  | .heartbeat .., s => execHeartbeat_row ..
  | .spdmKeyUpdate .., s => execSpdmKeyUpdate_row ..
  | .endSession .., s => execEndSession_row ..
  | .lifecycleSeal .., s => execLifecycleSeal_row ..
  | .lifecycleUnseal .., s => execLifecycleUnseal_row ..
  | .keysInstall .., s => execKeysInstall_row ..
  | .keysUpdate .., s => execKeysUpdate_row ..
  | .modelRelease .., s => execModelRelease_row ..
  | .tenantRemove .., s => execTenantRemove_row ..
  | .tenantRemoved .., s => execTenantRemoved_row ..
  | .correctedRewrite .., s => execCorrectedRewrite_row ..
  | .scrubRateHour .., s => execScrubRateHour_row ..
  | .faultNotice .., s => execFaultNotice_row ..
  | .peerUnreachable .., s => execPeerUnreachable_row ..
  | .roleNotice .., s => execRoleNotice_row ..
  | .standbyReady .., s => execStandbyReady_row ..
  | .rebuild .., s => execRebuild_row ..
  | .sendPiece .., s => execSendPiece_row ..
  | .recontribute .., s => execRecontribute_row ..
  | .rebuildSlotComplete .., s => execRebuildSlotComplete_row ..
  | .rebuildSlotTimeout .., s => execRebuildSlotTimeout_row ..
  | .rebuildSlotQuarantineEnd .., s => execRebuildSlotQuarantineEnd_row ..
  | .shadow .., s => execShadow_goes rfl rfl (Within.refl _ s)
  | .load .., s => execLoad_goes rfl rfl (Within.refl _ s)
  | .admissionSelfTestDone .., s => execAdmissionSelfTestDone_row ..
  | .shadowCompare .., s => execShadowCompare_row ..
  | .maintenanceStart .., s => by apply execMaintenanceStart_goes (hs := Within.refl _ s) <;> rfl
  | .maintenanceStop .., s => execMaintenanceStop_goes rfl rfl (Within.refl _ s)
  | .governorRiseStart .., s => execGovernorRiseStart_row ..
  | .govCtlWrite .., s => execGovCtlWrite_row ..
  | .powerSample .., s => execPowerSample_row ..
  | .thermalSample .., s => execThermalSample_row ..
  | .pwrWarnAssert .., s => execPwrWarnAssert_row ..
  | .pwrWarnDeassert .., s => execPwrWarnDeassert_row ..
  | .supplySag .., s => execSupplySag_row ..
  | .shedStageEnter .., s => execShedStageEnter_row ..
  | .stage6End .., s => execStage6End_row ..
  | .shedStageExit .., s => execShedStageExit_row ..
  | .holdoverExit .., s => execHoldoverExit_row ..
  | .powerResume .., s => execPowerResume_row ..
  | .idleFallow .., s => execIdleFallow_row ..
  | .perstNAssert .., s => execPerstNAssert_row ..
  | .perstNDeassert .., s => execPerstNDeassert_row ..
  | .hotReset .., s => execHotReset_row ..
  | .vfFlr .., s => execVfFlr_row ..
  | .doorbell .., s => execDoorbell_row ..
  | .submissionFetch .., s => execSubmissionFetch_row ..
  | .fetchTimeout .., s => execFetchTimeout_row ..
  | .mailboxRead .., s => execMailboxRead_row ..
  | .mailboxRelease .., s => execMailboxRelease_row ..
  | .hostApertureRead .., s => execHostApertureRead_row ..
  | .hostApertureWrite .., s => execHostApertureWrite_row ..
  | .registerWrite .., s => execRegisterWrite_row ..
  | .pdMailboxGo .., s => execPdMailboxGo_row ..
  | .pdpMessage .., s => execPdpMessage_row ..
  | .pdRead .., s => execPdRead_row ..
  | .pdWrite .., s => execPdWrite_row ..
  | .pdDescribe .., s => execPdDescribe_row ..
  | .pdNext .., s => execPdNext_row ..
  | .pdDefault .., s => execPdDefault_row ..
  | .pdStagingTimeout .., s => execPdStagingTimeout_row ..
  | .configPersist .., s => execConfigPersist_row ..
  | .arpRequest .., s => execArpRequest_row ..
  | .neighbourSolicitation .., s => execNeighbourSolicitation_row ..
  | .echoRequest .., s => execEchoRequest_row ..
  | .romVerifyDone .., s => execRomVerifyDone_row ..
  | .scStageDone .., s => execScStageDone_row ..
  | .hbmTrainingDone .., s => execHbmTrainingDone_row ..
  | .zeroisationDone .., s => execZeroisationDone_row ..
  | .flashTrainingDone .., s => execFlashTrainingDone_row ..
  | .flashBackgroundEraseDone .., s => execFlashBackgroundEraseDone_row ..
  | .orderlyPowerDown .., s => execOrderlyPowerDown_row ..
  | .powerDownReady .., s => execPowerDownReady_row ..
  | .refclkCoreLoss .., s => execRefclkCoreLoss_row ..
  | .refclkFabLoss .., s => execRefclkFabLoss_row ..
  | .refclkPcieLoss .., s => execRefclkPcieLoss_row ..
  | .testenHigh .., s => execTestenHigh_row ..
  | .avsRequestTimeout .., s => execAvsRequestTimeout_row ..
  | .smbAlertResponse .., s => execSmbAlertResponse_row ..
  | .bypass .., s => execBypass_row ..
  | .idcode .., s => execIdcode_row ..
  | .samplePreload .., s => execSamplePreload_row ..
  | .extest .., s => execExtest_row ..
  | .clamp .., s => execClamp_row ..
  | .highz .., s => execHighz_row ..
  | .extestPulse .., s => execExtestPulse_row ..
  | .extestTrain .., s => execExtestTrain_row ..
  | .privateInstruction .., s => execPrivateInstruction_row ..
  | .pageProgramComplete .., s => execPageProgramComplete_row ..
  | .blockEraseComplete .., s => execBlockEraseComplete_row ..
  | .powerRemoved .., s => execPowerRemoved_row ..
  | .securityCoreRestart .., s => execSecurityCoreRestart_row ..
  | .refclkFabReturn .., s => execRefclkFabReturn_row ..
  | .bootStageRestart .., s => execBootStageRestart_row ..
  | .transportKeyGenerated .., s => execTransportKeyGenerated_row ..
  | .fwupdateStaged .., s => execFwupdateStaged_row ..

/-- Every command keeps its frame. -/
theorem framed (i : Instr) : Framed i := framed_of_goes (exec_goes i)

theorem step_of_pending {s : State} {c : Instr} {rest : List Instr} (h : s.pending = c :: rest) :
    step s = exec c { s with pending := rest } := by
  rw [step, h]

theorem step_of_idle {s : State} (h : s.pending = []) : step s = .next (s.arrive (s.timer + 1)) := by
  rw [step, h]

/-- A tick moves the local timer alone, by one unit while its clock runs (R34, R455, R533; log entry 2). -/
theorem arrive_succ (s : State) :
    s.arrive (s.timer + 1) = { s with timer := if s.boot.coreClk && !s.pwr.trip then s.timer + 1 else s.timer } := by
  unfold State.arrive
  split
  · rw [max_eq_right (Nat.le_succ _)]
  · rfl

/-- A step goes on, and is steady but for the command that it takes from the front of the queue. -/
theorem step_steady (s : State) : ∃ t, step s = .next t ∧ Steady { s with pending := s.pending.drop 1 } t := by
  cases h : s.pending with
  | nil =>
    refine ⟨_, step_of_idle h, ?_⟩
    have w : Within (fun _ => true) s (s.arrive (s.timer + 1)) := arrived rfl
    exact ⟨w.steady.queue.trans h, w.steady.time, w.steady.mem, w.steady.free⟩
  | cons c rest =>
    obtain ⟨t, e, w⟩ := exec_goes c { s with pending := rest }
    exact ⟨t, (step_of_pending h).trans e, w.steady⟩

/-- Settles O57: what a step keeps is what `Steady` says. -/
theorem memoryStaysCanonical : Obligations.MemoryStaysCanonical := by
  unfold Obligations.MemoryStaysCanonical
  intro s hmem
  obtain ⟨t, hstep, steady⟩ := step_steady s
  exact ⟨t, hstep, steady.mem hmem, steady.queue, steady.time, steady.free⟩

/-- Settles O55, by the two equations of `step`. -/
theorem stepRunsTheFrontCommand : Obligations.StepRunsTheFrontCommand := by
  unfold Obligations.StepRunsTheFrontCommand
  refine ⟨fun c s rest => step_of_pending rfl, fun s hidle => ?_⟩
  rw [step_of_idle hidle, arrive_succ]
  exact ⟨_, rfl, hidle, rfl, rfl⟩

end Sys2Proof.Machine

/-! ## Phase time and schedule (02) -/

namespace Sys2Proof.Machine

/-! ### Frames and reset -/

/-- Settles O59: every command keeps its frame, those of the fabric among them. -/
theorem fabricFrames : Obligations.FabricFrames := fun i _ => framed i

/-- Settles O56, by the fields of `State.reset`. -/
theorem resetStands : Obligations.ResetStands := by
  unfold Obligations.ResetStands
  exact ⟨rfl, rfl, rfl, rfl, rfl, rfl, rfl, rfl, rfl, rfl, rfl, rfl, rfl, rfl, rfl, rfl, rfl, rfl, rfl, rfl, fun _ => rfl, rfl, rfl, rfl, rfl, rfl⟩

/-! ### What a state change within a mask keeps -/

/-- The mask of every part but those of a list. -/
def keeping (l : List Part) (p : Part) : Bool := decide (p ∉ l)

theorem Within.keeps {l : List Part} {p : Part} {s t : State} (h : Within (keeping l) s t) (hp : p ∈ l) : p.same s t :=
  h.same p (by simp [keeping, hp])

/-- What reads nothing but the clock of the Phase unit reads the same where the clock stands. -/
theorem PhaseSt.eq_of_clock {α : Type} {p q : PhaseSt} (f : PhaseSt → α) (hf : ∀ x : PhaseSt, f x.clock = f x)
    (h : p.clock = q.clock) : f p = f q := by
  rw [← hf p, h, hf]

/-- The Phase unit's clock, the local timer and the Directory values stand: what tells the layer, and how far it has run. -/
structure ClockKept (s t : State) : Prop where
  clock : t.phs.clock = s.phs.clock
  timer : t.timer = s.timer
  vals  : t.pd.vals = s.pd.vals

theorem ClockKept.of_within {s t : State} (h : Within (keeping [.clock, .timer, .vals]) s t) : ClockKept s t :=
  ⟨h.keeps (p := .clock) (by simp), h.keeps (p := .timer) (by simp), h.keeps (p := .vals) (by simp)⟩

section
variable {s t : State} (h : ClockKept s t)
include h

theorem ClockKept.base : t.phs.base = s.phs.base := PhaseSt.eq_of_clock PhaseSt.base (fun _ => rfl) h.clock

theorem ClockKept.pdNum (index sub : Nat) : t.pdNum index sub = s.pdNum index sub := by
  rw [State.pdNum, PdSt.bytes, h.vals]; rfl

theorem ClockKept.step : t.step = s.step := congrArg phStep h.base

theorem ClockKept.lastLayer : t.lastLayer = s.lastLayer := by
  rw [State.lastLayer, State.layers, h.pdNum, h.base]; rfl

theorem ClockKept.nextBase : t.nextBase = s.nextBase := by
  rw [State.nextBase, h.lastLayer, h.step, h.base]; rfl

end

theorem endLayer_clockKept (s : State) : ClockKept s s.endLayer :=
  .of_within (by apply State.endLayer_within (hs := .refl _ s) <;> rfl)

theorem beginLayer_clockKept (s : State) : ClockKept s s.beginLayer :=
  .of_within (by apply State.beginLayer_within (hs := .refl _ s) <;> rfl)

/-- The Phase unit's clock but for what moving from a layer to the next changes: the base, and what the running step counts. -/
@[reducible] def PhaseSt.still (p : PhaseSt) : PhaseSt := { p.clock with base := 0, reports := [], reported := false, holds := 0 }

theorem PhaseSt.eq_of_still {α : Type} {p q : PhaseSt} (f : PhaseSt → α) (hf : ∀ x : PhaseSt, f x.still = f x)
    (h : p.still = q.still) : f p = f q := by
  rw [← hf p, h, hf]

theorem PhaseSt.still_of_clock {p q : PhaseSt} (h : p.clock = q.clock) : p.still = q.still := by
  unfold PhaseSt.still; rw [h]

/-- What a step boundary does to the clock (R42, R423): the counts of the step begin anew. -/
theorem boundaryAt_clock (s : State) (ended : Bool) :
    (s.boundaryAt ended).phs.clock = PhaseSt.clock { s.phs with reports := [], reported := false, holds := 0 } := by
  unfold State.boundaryAt
  extract_lets a b c d e f g i
  have ha : Within (keeping [.clock]) s a := by apply State.bankStep_within (hs := .refl _ s) <;> rfl
  have hb : Within (keeping [.clock]) s b := by
    apply State.pruneChunks_within <;> try rfl
    apply State.returnFreed_within (hs := ha); rfl
  have hc : Within (keeping [.clock]) s c := .foldl hb fun _ _ h => .ite
    (by apply State.marginStep_within (hs := h) <;> rfl) (by apply State.marginStart_within (hs := h); rfl)
  have hd : Within (keeping [.clock]) s d := by apply State.refreshBoundary_within (hs := hc) <;> rfl
  have he : Within (keeping [.clock]) s e := by apply State.compStep_within (hs := hd) <;> rfl
  have hf : Within (keeping [.clock]) s f := by apply State.applyWays_within (hs := he); rfl
  have hg : Within (keeping [.clock]) s g := .foldl hf fun _ _ h => by apply State.keyStep_within (hs := h) <;> rfl
  have hi : Within (keeping [.clock]) s i := by apply State.relStep_within (hs := hg) <;> rfl
  have hclock : i.phs.clock = s.phs.clock := hi.keeps (p := .clock) (by simp)
  exact congrArg (fun p : PhaseSt => { p with reports := [], reported := false, holds := 0 }) hclock

theorem boundaryAt_base (s : State) (ended : Bool) : (s.boundaryAt ended).phs.base = s.phs.base := by
  rw [PhaseSt.eq_of_clock PhaseSt.base (fun _ => rfl) (boundaryAt_clock s ended)]

theorem boundaryAt_still (s : State) (ended : Bool) : (s.boundaryAt ended).phs.still = s.phs.still := by
  rw [PhaseSt.still_of_clock (boundaryAt_clock s ended)]

/-! ### From a layer to the next (R27, R37) -/

/-- The state at another boundary. -/
def State.atBase (s : State) (p : Phase) : State := { s with phs := { s.phs with base := p } }

theorem atBase_still (s : State) (p : Phase) : (s.atBase p).phs.still = s.phs.still := rfl

theorem nextLayer_eq (s : State) : s.nextLayer =
    (if s.lastLayer then (s.endLayer.atBase s.nextBase).stepBoundary else s.endLayer.atBase s.nextBase).beginLayer := by
  have h := endLayer_clockKept s
  rw [← h.nextBase, ← h.lastLayer]
  rfl

theorem nextLayer_base (s : State) : s.nextLayer.phs.base = s.nextBase := by
  rw [nextLayer_eq, (beginLayer_clockKept _).base]
  split
  · exact boundaryAt_base _ _
  · rfl

theorem nextLayer_still (s : State) : s.nextLayer.phs.still = s.phs.still := by
  have h : (s.endLayer.atBase s.nextBase).phs.still = s.phs.still :=
    (atBase_still ..).trans (PhaseSt.still_of_clock (endLayer_clockKept s).clock)
  rw [nextLayer_eq, PhaseSt.still_of_clock (beginLayer_clockKept _).clock, ← h]
  split
  · exact boundaryAt_still _ _
  · rfl

/-- A step that begins holds no report yet. -/
theorem nextLayer_reports {s : State} (h : s.lastLayer = true) : s.nextLayer.phs.reports = [] := by
  rw [nextLayer_eq, if_pos h]
  rw [PhaseSt.eq_of_clock PhaseSt.reports (fun _ => rfl) (beginLayer_clockKept _).clock, State.stepBoundary,
    PhaseSt.eq_of_clock PhaseSt.reports (fun _ => rfl) (boundaryAt_clock _ _)]

theorem nextLayer_vals {s : State} (h : s.lastLayer = false) : s.nextLayer.pd.vals = s.pd.vals := by
  rw [nextLayer_eq, if_neg (by simp [h]), (beginLayer_clockKept _).vals]
  exact (endLayer_clockKept s).vals

theorem phase_toNat_lt (step layer tick : Nat) :
    step % 2 ^ 36 * 2 ^ 28 + layer % 2 ^ 12 * 2 ^ 16 + min tick 65535 < 2 ^ 64 := by omega

theorem toNat_mkPhase (step layer tick : Nat) :
    (mkPhase step layer tick).toNat = step % 2 ^ 36 * 2 ^ 28 + layer % 2 ^ 12 * 2 ^ 16 + min tick 65535 := by
  rw [mkPhase, BitVec.toNat_ofNat, Nat.mod_eq_of_lt (phase_toNat_lt step layer tick)]

theorem phStep_mkPhase (step layer tick : Nat) : phStep (mkPhase step layer tick) = step % 2 ^ 36 := by
  rw [phStep, bitsOf, toNat_mkPhase]; omega

theorem phLayer_mkPhase (step layer tick : Nat) : phLayer (mkPhase step layer tick) = layer % 2 ^ 12 := by
  rw [phLayer, bitsOf, toNat_mkPhase]; omega

theorem phTick_mkPhase (step layer tick : Nat) : phTick (mkPhase step layer tick) = min tick 65535 := by
  rw [phTick, bitsOf, toNat_mkPhase]; omega

theorem phStep_lt (p : Phase) : phStep p < 2 ^ 36 := Nat.mod_lt _ (by norm_num)
theorem phLayer_lt (p : Phase) : phLayer p < 2 ^ 12 := Nat.mod_lt _ (by norm_num)
theorem phTick_lt (p : Phase) : phTick p < 2 ^ 16 := Nat.mod_lt _ (by norm_num)

/-- The layout of a Phase (R8, R26). -/
theorem toNat_eq_fields (p : Phase) : p.toNat = phStep p * 2 ^ 28 + phLayer p * 2 ^ 16 + phTick p := by
  have := p.isLt
  simp only [phStep, phLayer, phTick, bitsOf]; omega

theorem eq_mkPhase_of_tick {p : Phase} (h : phTick p = 0) : p = mkPhase (phStep p) (phLayer p) 0 := by
  apply BitVec.eq_of_toNat_eq
  rw [toNat_mkPhase, toNat_eq_fields p, Nat.mod_eq_of_lt (phStep_lt p), Nat.mod_eq_of_lt (phLayer_lt p), h]; rfl

theorem mkPhase_mod_step (step layer tick : Nat) : mkPhase (step % 2 ^ 36) layer tick = mkPhase step layer tick := by
  rw [mkPhase, mkPhase, Nat.mod_mod]

theorem nextBase_of_last {s : State} (h : s.lastLayer = true) : s.nextBase = mkPhase (s.step + 1) 0 0 := by simp [State.nextBase, h]

theorem nextBase_of_not_last {s : State} (h : s.lastLayer = false) : s.nextBase = mkPhase s.step (phLayer s.phs.base + 1) 0 := by
  simp [State.nextBase, h]

theorem layers_of_vals {s t : State} (h : t.pd.vals = s.pd.vals) : t.layers = s.layers := by
  rw [State.layers, State.pdNum, PdSt.bytes, h]; rfl

theorem skipLayers_succ (s : State) (from_ total n : Nat) :
    (s.skipLayers from_ total (n + 1)).2 = (s.nextLayer.skipLayers from_ total n).2 := by
  rw [State.skipLayers]

theorem skipLayers_still (s : State) (from_ total n : Nat) : (s.skipLayers from_ total n).2.phs.still = s.phs.still := by
  induction n generalizing s with
  | zero => rfl
  | succ n ih => rw [skipLayers_succ, ih, nextLayer_still]

/-- Passing through layers of the running step leaves the step, and adds to the layer. -/
theorem skipLayers_within_step {s : State} {n : Nat} (from_ total : Nat) (hn : phLayer s.phs.base + n < s.layers)
    (h4096 : phLayer s.phs.base + n < 2 ^ 12) :
    (s.skipLayers from_ total n).2.step = s.step ∧ phLayer (s.skipLayers from_ total n).2.phs.base = phLayer s.phs.base + n ∧
      (s.skipLayers from_ total n).2.layers = s.layers := by
  induction n generalizing s with
  | zero => exact ⟨rfl, rfl, rfl⟩
  | succ n ih =>
    have hlast : s.lastLayer = false := by simp only [State.lastLayer, decide_eq_false_iff_not]; omega
    have hbase : s.nextLayer.phs.base = mkPhase s.step (phLayer s.phs.base + 1) 0 := by
      rw [nextLayer_base, nextBase_of_not_last hlast]
    have hstep : s.nextLayer.step = s.step := by
      rw [State.step, hbase, phStep_mkPhase]; exact Nat.mod_eq_of_lt (phStep_lt _)
    have hlayer : phLayer s.nextLayer.phs.base = phLayer s.phs.base + 1 := by
      rw [hbase, phLayer_mkPhase, Nat.mod_eq_of_lt (by omega)]
    have hlayers : s.nextLayer.layers = s.layers := layers_of_vals (nextLayer_vals hlast)
    obtain ⟨h1, h2, h3⟩ := ih (s := s.nextLayer) (by omega) (by omega)
    rw [skipLayers_succ, h1, h2, h3, hstep, hlayer, hlayers]
    exact ⟨rfl, by omega, rfl⟩

theorem breach_clockKept (s : State) (cause : Nat) (slot : Option Nat) (opclass comp late job node tag : Nat) :
    ClockKept s (s.breach cause slot opclass comp late job node tag) :=
  .of_within (by apply State.breach_within (hs := .refl _ s) <;> rfl)

theorem ClockKept.refl (s : State) : ClockKept s s := ⟨rfl, rfl, rfl⟩

theorem ClockKept.trans {a b c : State} (h : ClockKept a b) (k : ClockKept b c) : ClockKept a c :=
  ⟨k.clock.trans h.clock, k.timer.trans h.timer, k.vals.trans h.vals⟩

theorem ClockKept.foldl {α : Type} {f : State → α → State} (k : ∀ s x, ClockKept s (f s x)) (l : List α) (s : State) :
    ClockKept s (l.foldl f s) := by
  induction l generalizing s with
  | nil => exact .refl s
  | cons x l ih => exact (k s x).trans (ih _)

/-- The records of the slots that a gap skipped move no clock: the boundary after a gap is that of its last layer. -/
theorem goOn_clockKept (s : State) (n from_ : Nat) : ClockKept (s.skipLayers from_ (n - 1) (n - 1)).2.nextLayer (s.goOn n from_) :=
  .foldl (fun _ _ => breach_clockKept ..) _ _

theorem goOn_still (s : State) (n from_ : Nat) : (s.goOn n from_).phs.still = s.phs.still :=
  (PhaseSt.still_of_clock (goOn_clockKept s n from_).clock).trans ((nextLayer_still _).trans (skipLayers_still ..))

theorem goOn_base (s : State) (n from_ : Nat) : (s.goOn n from_).phs.base = (s.skipLayers from_ (n - 1) (n - 1)).2.nextBase :=
  (goOn_clockKept s n from_).base.trans (nextLayer_base _)

theorem goOn_base_within_step {s : State} {n : Nat} (from_ : Nat) (pos : 0 < n) (hn : phLayer s.phs.base + n < s.layers)
    (h4096 : phLayer s.phs.base + n < 2 ^ 12) : (s.goOn n from_).phs.base = mkPhase s.step (phLayer s.phs.base + n) 0 := by
  obtain ⟨hstep, hlayer, hlayers⟩ := skipLayers_within_step (s := s) (n := n - 1) from_ (n - 1) (by omega) (by omega)
  rw [goOn_base, nextBase_of_not_last, hstep, hlayer, show phLayer s.phs.base + (n - 1) + 1 = phLayer s.phs.base + n by omega]
  simp only [State.lastLayer, decide_eq_false_iff_not]; omega

theorem goOn_base_next_step {s : State} {n : Nat} (from_ : Nat) (pos : 0 < n) (hn : phLayer s.phs.base + n = s.layers)
    (h4096 : s.layers ≤ 2 ^ 12) : (s.goOn n from_).phs.base = mkPhase (s.step + 1) 0 0 := by
  obtain ⟨hstep, hlayer, hlayers⟩ := skipLayers_within_step (s := s) (n := n - 1) from_ (n - 1) (by omega) (by omega)
  rw [goOn_base, nextBase_of_last, hstep]
  simp only [State.lastLayer, decide_eq_true_eq]; omega

/-! ### What the time of a command leaves alone -/

/-- A command's time moves the local timer and nothing else. -/
theorem arrive_eq (s : State) (t : Nat) : s.arrive t = { s with timer := (s.arrive t).timer } := by
  unfold State.arrive; split <;> rfl

section
variable (s : State) (t : Nat)

@[simp] theorem arrive_ready : (s.arrive t).ready = s.ready := by rw [arrive_eq]; rfl
@[simp] theorem arrive_port (p : Nat) : (s.arrive t).port p = s.port p := by rw [arrive_eq]; rfl
@[simp] theorem arrive_step : (s.arrive t).step = s.step := by rw [arrive_eq]; rfl
@[simp] theorem arrive_pdNum (index sub : Nat) : (s.arrive t).pdNum index sub = s.pdNum index sub := by rw [arrive_eq]; rfl
@[simp] theorem arrive_pdBool (index sub : Nat) : (s.arrive t).pdBool index sub = s.pdBool index sub := by rw [arrive_eq]; rfl
@[simp] theorem arrive_layers : (s.arrive t).layers = s.layers := by rw [arrive_eq]; rfl
@[simp] theorem arrive_period : (s.arrive t).period = s.period := by rw [arrive_eq]; rfl
@[simp] theorem arrive_lastLayer : (s.arrive t).lastLayer = s.lastLayer := by rw [arrive_eq]; rfl
@[simp] theorem arrive_nodeId : (s.arrive t).nodeId = s.nodeId := by rw [arrive_eq]; rfl
@[simp] theorem arrive_single : (s.arrive t).single = s.single := by rw [arrive_eq]; rfl
@[simp] theorem arrive_waitsMark : (s.arrive t).waitsMark = s.waitsMark := by rw [arrive_eq]; rfl
@[simp] theorem arrive_layersTo (p : Phase) : (s.arrive t).layersTo p = s.layersTo p := by rw [arrive_eq]; rfl
@[simp] theorem arrive_allReported : (s.arrive t).allReported = s.allReported := by rw [arrive_eq]; rfl
@[simp] theorem arrive_missing : (s.arrive t).missing = s.missing := by rw [arrive_eq]; rfl

end

/-! ### Marks sent (R31, R279) -/

theorem sendMark_phs (s : State) (m : Mark) : (s.sendMark m).phs = s.phs :=
  Within.keeps (l := [.phs]) (p := .phs) (by apply State.sendMark_within (hs := .refl _ s) <;> rfl) (by simp)

theorem sendMark_pd (s : State) (m : Mark) : (s.sendMark m).pd = s.pd :=
  Within.keeps (l := [.pd]) (p := .pd) (by apply State.sendMark_within (hs := .refl _ s) <;> rfl) (by simp)

theorem sendMark_timer (s : State) (m : Mark) : (s.sendMark m).timer = s.timer :=
  Within.keeps (l := [.timer]) (p := .timer) (by apply State.sendMark_within (hs := .refl _ s) <;> rfl) (by simp)

/-- Every port keeps the measured delay of its link. -/
def DelaysKept (s t : State) : Prop := ∀ p, (t.port p).delay = (s.port p).delay

theorem DelaysKept.refl (s : State) : DelaysKept s s := fun _ => rfl

theorem DelaysKept.trans {a b c : State} (h : DelaysKept a b) (k : DelaysKept b c) : DelaysKept a c := fun p => (k p).trans (h p)

theorem DelaysKept.setPort {s t : State} (h : DelaysKept s t) (p : Nat) {x : Port} (hx : x.delay = (t.port p).delay) :
    DelaysKept s (t.setPort p x) := by
  intro q
  rw [← h q]
  by_cases e : q = p
  · subst e; rw [← hx]; simp [State.port, State.setPort]
  · simp [State.port, State.setPort, lookD_put_other _ _ _ _ _ e]

theorem putRec_delaysKept (s : State) (p from_ : Nat) (r : LinkRec) : DelaysKept s (s.putRec p from_ r).2 :=
  (DelaysKept.refl s).setPort p rfl

/-- The decisions of fault injection move the port's register alone. -/
theorem corruptions_delay (l : List Nat) (out : Nat → Out) (a : Port × List Out) :
    (l.foldl (fun (a : Port × List Out) i => let (hit, y) := a.1.inject; (y, if hit then out i :: a.2 else a.2)) a).1.delay = a.1.delay := by
  induction l generalizing a with
  | nil => rfl
  | cons i l ih => exact ih _

theorem corrupt_delaysKept (s : State) (p group : Nat) : DelaysKept s (s.corrupt p group) := by
  unfold State.corrupt
  extract_lets x
  split
  · exact .refl s
  · exact (DelaysKept.refl s).setPort p (corruptions_delay _ _ (x, []))

theorem sendCtl_delaysKept (s : State) (p : Nat) : DelaysKept s (s.sendCtl p) := by
  unfold State.sendCtl
  extract_lets x
  split
  · exact .refl s
  split
  · exact (DelaysKept.refl s).setPort p rfl
  · refine DelaysKept.trans (fun q => ?_) (corrupt_delaysKept _ p _)
    exact (DelaysKept.refl s).setPort p (x := { x with ctlRecs := x.ctlRecs.filter fun e => decide (x.groupAt s.timer ≤ e.1) }) rfl q

theorem markOn_delaysKept (s : State) (p : Nat) (m : Mark) : DelaysKept s (s.markOn p m) := by
  unfold State.markOn
  dsimp only
  split
  · split
    · exact .refl s
    · exact .refl s
  · exact ((putRec_delaysKept s.draw.2.draw.2 p 0 _).trans (putRec_delaysKept _ p _ _)).trans (sendCtl_delaysKept _ p)

theorem sendMark_delaysKept (s : State) (m : Mark) : DelaysKept s (s.sendMark m) := by
  unfold State.sendMark
  generalize portList _ = l
  induction l generalizing s with
  | nil => exact .refl s
  | cons p l ih =>
    refine DelaysKept.trans ?_ (ih _)
    dsimp only
    split
    · exact markOn_delaysKept s p m
    · exact .refl s

theorem tickKept_eq (s : State) : s.tickKept = { s with hbm := s.tickKept.hbm } := by
  unfold State.tickKept; split <;> rfl

/-! ### Marks taken (R31, R33 to R37) -/

/-- How far the interval that two marks name is from the one measured, in nanoseconds (R34). -/
def markDeviation (tc prevTc : Int) (rate : Rat) (m p : Mark) : Rat :=
  |((tc - prevTc : Int) : Rat) - (((m.mtime + 2 ^ 64 - p.mtime % 2 ^ 64) % 2 ^ 64 : Nat) : Rat) / rate| / 4

/-- The verdict of R34 on a mark: a time-base fault, and a sequence gap. -/
theorem measureMark_verdict (s : State) (port : Nat) (m : Mark) :
    ((s.measureMark port m).1, (s.measureMark port m).2.1) = match s.phs.prev with
      | none => (m.period != s.period, false)
      | some p => ((p.typ != 2 &&
          decide (256 < markDeviation ((s.timer : Int) - (s.port port).delay - m.resid) s.phs.prevTc s.phs.rate m p)) || m.period != s.period,
          m.seq != p.seq + 1) := by
  unfold State.measureMark
  cases s.phs.prev with
  | none => rfl
  | some p =>
    dsimp only
    split <;> split <;> rfl

/-- What R34 reads of the state for its verdict. -/
theorem measureMark_congr {s t : State} {port : Nat} (m : Mark) (timer : t.timer = s.timer) (delay : (t.port port).delay = (s.port port).delay)
    (period : t.period = s.period) (prev : t.phs.prev = s.phs.prev) (prevTc : t.phs.prevTc = s.phs.prevTc) (rate : t.phs.rate = s.phs.rate) :
    (t.measureMark port m).1 = (s.measureMark port m).1 ∧ (t.measureMark port m).2.1 = (s.measureMark port m).2.1 := by
  rw [← Prod.mk.injEq, measureMark_verdict, measureMark_verdict, timer, delay, period, prev, prevTc, rate]

/-- The compensated arrival time of a mark (R34). -/
theorem measureMark_time (s : State) (port : Nat) (m : Mark) :
    (s.measureMark port m).2.2.1 = (s.timer : Int) - (s.port port).delay - m.resid := by
  unfold State.measureMark
  cases s.phs.prev <;> rfl

/-- What R34 notes of a mark: deviation, gap and rate. -/
theorem measureMark_phs (s : State) (port : Nat) (m : Mark) :
    ∃ jitter gap rate skewed, (s.measureMark port m).2.2.2.phs = { s.phs with jitter, gap, rate, skewed } := by
  unfold State.measureMark
  cases s.phs.prev with
  | none => exact ⟨_, _, _, _, rfl⟩
  | some p =>
    dsimp only
    split <;> split <;> exact ⟨_, _, _, _, rfl⟩

theorem measureMark_vals (s : State) (port : Nat) (m : Mark) : (s.measureMark port m).2.2.2.pd.vals = s.pd.vals :=
  Within.keeps (l := [.vals]) (p := .vals) (by apply State.measureMark_within (hs := .refl _ s) <;> rfl) (by simp)

/-- The state in which a mark is measured: it counts as heard, and has been forwarded. -/
def State.heard (s : State) (m : Mark) : State :=
  let s := s.tickKept
  let s := { s with phs := { s.phs with seen := seenWith s.phs.seen m.seq, markAt := some s.timer } }
  if m.hops < 14 then s.sendMark { m with hops := m.hops + 1 } else s

/-- The state in which a mark acts: it is the last mark taken, and the rate is corrected. -/
def State.timedBy (s : State) (port : Nat) (m : Mark) : State :=
  let v := (s.heard m).measureMark port m
  { v.2.2.2 with phs := { v.2.2.2.phs with prev := some m, prevTc := v.2.2.1 } }

theorem heard_phs (s : State) (m : Mark) :
    (s.heard m).phs = { s.phs with seen := seenWith s.phs.seen m.seq, markAt := some s.timer } := by
  unfold State.heard
  rw [tickKept_eq]
  split
  · rw [sendMark_phs]
  · rfl

theorem heard_pd (s : State) (m : Mark) : (s.heard m).pd = s.pd := by
  unfold State.heard
  rw [tickKept_eq]
  split
  · rw [sendMark_pd]
  · rfl

theorem heard_timer (s : State) (m : Mark) : (s.heard m).timer = s.timer := by
  unfold State.heard
  rw [tickKept_eq]
  split
  · rw [sendMark_timer]
  · rfl

theorem heard_delaysKept (s : State) (m : Mark) : DelaysKept s (s.heard m) := by
  unfold State.heard
  rw [tickKept_eq]
  split
  · exact sendMark_delaysKept _ _
  · exact .refl s

theorem heard_measure (s : State) (port : Nat) (m : Mark) :
    ((s.heard m).measureMark port m).1 = (s.measureMark port m).1 ∧ ((s.heard m).measureMark port m).2.1 = (s.measureMark port m).2.1 := by
  apply measureMark_congr m (heard_timer s m) (heard_delaysKept s m port)
  · rw [State.period, State.pdNum, heard_pd]; rfl
  all_goals rw [heard_phs]

theorem timedBy_phs (s : State) (port : Nat) (m : Mark) : ∃ jitter gap rate skewed, (s.timedBy port m).phs =
    { s.phs with seen := seenWith s.phs.seen m.seq, markAt := some s.timer, jitter, gap, rate, skewed, prev := some m,
                 prevTc := (s.timer : Int) - (s.port port).delay - m.resid } := by
  obtain ⟨jitter, gap, rate, skewed, h⟩ := measureMark_phs (s.heard m) port m
  refine ⟨jitter, gap, rate, skewed, ?_⟩
  rw [State.timedBy, h, measureMark_time, heard_phs, heard_timer, heard_delaysKept]

theorem timedBy_layers (s : State) (port : Nat) (m : Mark) : (s.timedBy port m).layers = s.layers := by
  apply layers_of_vals
  rw [State.timedBy, measureMark_vals, heard_pd]

/-- What an accepted mark whose timing is within R35 does, by its type. -/
theorem takeMark_of_timing {s : State} {port : Nat} {m : Mark} (h : (s.measureMark port m).1 = false) :
    s.takeMark port m =
      let v := s.timedBy port m
      if m.typ = 4 then (if s.phs.held then v else v.atBase m.phase)
      else if m.typ = 2 then v.enterHold m.phase
      else if m.typ = 3 then v.leaveHold m.phase
      else if !s.phs.sync then
        (if m.typ = 1 ∧ m.phase = mkPhase (s.phs.start.elim 0 (·.step)) 0 0 then v.firstMark (phStep m.phase) else v.tbFault)
      else
        match v.boundaryOk m (s.measureMark port m).2.1 with
        | none => v.tbFault
        | some n => ({ v with phs := { v.phs with held := false } }).goOn n s.phs.prevTc.toNat := by
  obtain ⟨hbad, hgap⟩ := heard_measure s port m
  obtain ⟨jitter, gap, rate, skewed, hphs⟩ := measureMark_phs (s.heard m) port m
  rw [heard_phs] at hphs
  have hheld : ((s.heard m).measureMark port m).2.2.2.phs.held = s.phs.held := by rw [hphs]
  have hsync : ((s.heard m).measureMark port m).2.2.2.phs.sync = s.phs.sync := by rw [hphs]
  have hstart : ((s.heard m).measureMark port m).2.2.2.phs.start = s.phs.start := by rw [hphs]
  have hTc : ((s.heard m).measureMark port m).2.2.2.phs.prevTc = s.phs.prevTc := by rw [hphs]
  rw [← hheld, ← hsync, ← hstart, ← hTc, ← hgap, State.takeMark]
  change (if ((s.heard m).measureMark port m).1 = true then _ else _) = _
  rw [if_neg (by simp [hbad, h])]
  rfl

/-! ### First mark, HOLD, RESUME (R30, R33) -/

theorem stopWork_clock (s : State) : s.stopWork.phs.clock = s.phs.clock :=
  Within.keeps (l := [.clock]) (p := .clock) (by apply State.stopWork_within (hs := .refl _ s) <;> rfl) (by simp)

/-- The state that the first mark of a term leaves to the boundary of its step (R33, R39). -/
def State.synced (s : State) (p : Phase) : State :=
  { s with phs := { s.phs with sync := true, held := false, fwdDone := false, base := p }, rel := { s.rel with restarted := false } }

theorem firstMark_eq (s : State) (step : Nat) : s.firstMark step = ((s.synced (mkPhase step 0 0)).boundaryAt false).beginLayer := rfl

theorem synced_base (s : State) (p : Phase) : (s.synced p).phs.base = p := rfl

theorem synced_still (s : State) (p : Phase) : (s.synced p).phs.still = PhaseSt.still { s.phs with sync := true, held := false } := rfl

theorem firstMark_base (s : State) (step : Nat) : (s.firstMark step).phs.base = mkPhase step 0 0 := by
  rw [firstMark_eq, (beginLayer_clockKept _).base, boundaryAt_base, synced_base]

theorem firstMark_still (s : State) (step : Nat) :
    (s.firstMark step).phs.still = PhaseSt.still { s.phs with sync := true, held := false } := by
  rw [firstMark_eq, PhaseSt.still_of_clock (beginLayer_clockKept _).clock, boundaryAt_still, synced_still]

/-- A HOLD freezes the Phase where it says, and counts as one more of the step (R30, R423). -/
theorem enterHold_clock (s : State) (p : Phase) :
    (s.enterHold p).phs.clock = PhaseSt.clock { s.phs with held := true, base := p, holds := s.phs.holds + 1 } := by
  unfold State.enterHold
  extract_lets a _ _ b c d
  have hb : b.phs.clock = PhaseSt.clock { s.phs with held := true, base := p, holds := s.phs.holds + 1 } := by
    have h : a.phs.clock = s.phs.clock := stopWork_clock s
    rw [← PhaseSt.eq_of_clock PhaseSt.holds (fun _ => rfl) h]
    exact congrArg (fun q : PhaseSt => { q with held := true, base := p, holds := a.phs.holds + 1 }) h
  rw [← hb]
  have hc : Within (keeping [.clock]) b c := .foldl (.refl _ b) fun _ _ h => by apply State.endReq_within (hs := h) <;> rfl
  have hd : Within (keeping [.clock]) b d := .foldl hc fun _ _ h => by apply State.endSearch_within (hs := h) <;> rfl
  exact Within.keeps (l := [.clock]) (p := .clock) (by apply State.event_within (hs := hd) <;> rfl) (by simp)

theorem firePhase_phs (s : State) : s.firePhase.phs = s.phs :=
  Within.keeps (l := [.phs]) (p := .phs) (by apply State.firePhase_within (hs := .refl _ s) <;> rfl) (by simp)

theorem marginReplay_phs (s : State) : s.marginReplay.phs = s.phs :=
  Within.keeps (l := [.phs]) (p := .phs) (by apply State.marginReplay_within (hs := .refl _ s); rfl) (by simp)

/-- The state that a RESUME leaves to the beginning of its layer (R30, R422). -/
def State.resumed (s : State) (moved : Bool) (p : Phase) : State :=
  let s := { s with phs := { s.phs with held := false, base := p, reports := [], fbAny := false, breaches := 0, reported := false },
                    sch := { s.sch with runs := [], carry := [] } }
  if moved then s.boundaryAt false else s.marginReplay

theorem leaveHold_eq (s : State) (p : Phase) :
    s.leaveHold p = (s.resumed (phStep p != s.step) (mkPhase (phStep p) (phLayer p) 0)).beginLayer.firePhase := rfl

theorem resumed_base (s : State) (moved : Bool) (p : Phase) : (s.resumed moved p).phs.base = p := by
  unfold State.resumed
  split
  · rw [boundaryAt_base]
  · rw [marginReplay_phs]

theorem resumed_still (s : State) (moved : Bool) (p : Phase) : (s.resumed moved p).phs.still = PhaseSt.still { s.phs with held := false } := by
  unfold State.resumed
  split
  · rw [boundaryAt_still]
  · rw [marginReplay_phs]

theorem leaveHold_base (s : State) (p : Phase) : (s.leaveHold p).phs.base = mkPhase (phStep p) (phLayer p) 0 := by
  rw [leaveHold_eq, firePhase_phs, (beginLayer_clockKept _).base, resumed_base]

theorem leaveHold_still (s : State) (p : Phase) : (s.leaveHold p).phs.still = PhaseSt.still { s.phs with held := false } := by
  rw [leaveHold_eq, firePhase_phs, PhaseSt.still_of_clock (beginLayer_clockKept _).clock, resumed_still]

/-! ### The master's marks (R30, R33) -/

/-- The mark that a master sends from its own timer. -/
def State.ownMark (s : State) (typ : Nat) (p : Phase) : Mark :=
  { phase := p, mtime := s.timer, seq := s.phs.mseq, resid := 0, period := s.period, master := s.nodeId, term := s.phs.term, typ, hops := 0 }

theorem masterMark_phs (s : State) (typ : Nat) (p : Phase) : (s.masterMark typ p).phs =
    { s.phs with mseq := s.phs.mseq + 1, markAt := some s.timer, prev := some (s.ownMark typ p), prevTc := s.timer, rate := 1 } := by
  rw [State.masterMark, sendMark_phs, tickKept_eq]; rfl

theorem masterMark_pd (s : State) (typ : Nat) (p : Phase) : (s.masterMark typ p).pd = s.pd := by
  rw [State.masterMark, sendMark_pd, tickKept_eq]

theorem masterMark_layers (s : State) (typ : Nat) (p : Phase) : (s.masterMark typ p).layers = s.layers :=
  layers_of_vals (by rw [masterMark_pd])

theorem masterMark_lastLayer (s : State) (typ : Nat) (p : Phase) : (s.masterMark typ p).lastLayer = s.lastLayer := by
  rw [State.lastLayer, masterMark_layers, masterMark_phs]; rfl

/-- One layer on from the mark: the boundary, and what the mark left in the Phase unit. -/
theorem goOn_one_base (s : State) (from_ : Nat) : (s.goOn 1 from_).phs.base = s.nextBase := goOn_base s 1 from_

theorem masterMark_nextBase (s : State) (typ : Nat) (p : Phase) : (s.masterMark typ p).nextBase = s.nextBase := by
  rw [State.nextBase, masterMark_lastLayer, State.step, masterMark_phs]; rfl

/-- The master goes on by one layer: the boundary, its last mark, and the number of its next. -/
theorem masterGoes (s : State) (typ : Nat) (p : Phase) (from_ : Nat) :
    let v := (s.masterMark typ p).goOn 1 from_
    v.phs.base = s.nextBase ∧ v.phs.prev = some (s.ownMark typ p) ∧ v.phs.mseq = s.phs.mseq + 1 := by
  have h := goOn_still (s.masterMark typ p) 1 from_
  refine ⟨(goOn_one_base _ _).trans (masterMark_nextBase ..), ?_, ?_⟩
  · rw [PhaseSt.eq_of_still PhaseSt.prev (fun _ => rfl) h, masterMark_phs]
  · rw [PhaseSt.eq_of_still PhaseSt.mseq (fun _ => rfl) h, masterMark_phs]

/-- The state in which a node sends the first mark of its term as master (R33, step 4). -/
def State.asMaster (s : State) : State :=
  { s with phs := { s.phs with master := true, cand := none, masterId := some s.nodeId, mseq := 0 } }

/-- The first step of the start record. -/
def State.startStep (s : State) : Nat := s.phs.start.elim 0 (·.step)

theorem becomeMaster_eq (s : State) : s.becomeMaster = (s.asMaster.masterMark 1 (mkPhase s.startStep 0 0)).firstMark s.startStep := rfl

theorem becomeMaster_base (s : State) : s.becomeMaster.phs.base = mkPhase s.startStep 0 0 := by
  rw [becomeMaster_eq, firstMark_base]

theorem becomeMaster_still (s : State) : s.becomeMaster.phs.still = PhaseSt.still
    { s.phs with master := true, cand := none, masterId := some s.nodeId, mseq := 1, sync := true, held := false, markAt := some s.timer
                 prev := some (s.asMaster.ownMark 1 (mkPhase s.startStep 0 0)), prevTc := s.timer, rate := 1 } := by
  rw [becomeMaster_eq, firstMark_still, masterMark_phs]
  rfl

/-! ### The obligations on marks -/

/-- A command's meaning that goes on to a state of which `P` holds. -/
theorem Yields.of_exec {i : Instr} {s t : State} {P : State → Prop} (h : exec i s = .next t) (p : P t) : Yields i s P := ⟨t, h, p⟩

/-- The state at a node that knows its master. -/
def State.knowing (s : State) (m : Mark) : State := { s with phs := { s.phs with masterId := some m.master } }

theorem mark_of_taken {s : State} {port : Nat} {m : Mark} (h : MarkTaken s port m) : s.mark port m = (s.knowing m).takeMark port m := by
  obtain ⟨st, hst, hterm⟩ : ∃ st, s.phs.start = some st ∧ st.term = m.term := by
    simpa using h.term
  unfold State.mark
  rw [hst]
  have htyp5 : ¬ 5 ≤ m.typ := by have := h.typ; omega
  have hhops : ¬ 14 < m.hops := by have := h.hops; omega
  rcases h.master with hw | ⟨hw, htyp, hbit⟩
  · have hself : s.knowing m = s := by unfold State.knowing; rw [← hw]
    rw [hself]
    simp [h.ready, h.loop, h.src, h.en, htyp5, hhops, hterm, hw, h.other, h.fresh]
  · simp [h.ready, h.loop, h.src, h.en, hhops, hterm, hw, htyp, hbit, State.knowing]

theorem typed_eq {m : Mark} {typ : Nat} (h : m.typ = typ) (lt : typ < 5) : typed m typ = m := by
  subst h; simp [typed, lt]

theorem knowing_measure (s : State) (port : Nat) (m : Mark) : ((s.knowing m).measureMark port m).1 = (s.measureMark port m).1 ∧
    ((s.knowing m).measureMark port m).2.1 = (s.measureMark port m).2.1 :=
  measureMark_congr m rfl rfl rfl rfl rfl rfl

/-- Steps from a step to itself and to the next (R26, R28). -/
theorem stepsTo_self (a : Nat) : stepsTo a a = 0 := by
  unfold stepsTo
  have : (a + 2 ^ 36 + 2 ^ 35 - a % 2 ^ 36) % 2 ^ 36 = 2 ^ 35 := by omega
  rw [this]; norm_num

theorem stepsTo_succ (a : Nat) : stepsTo a ((a + 1) % 2 ^ 36) = 1 := by
  unfold stepsTo
  have : ((a + 1) % 2 ^ 36 + 2 ^ 36 + 2 ^ 35 - a % 2 ^ 36) % 2 ^ 36 = 2 ^ 35 + 1 := by omega
  rw [this]; norm_num

/-- What a boundary mark makes of the Phase unit: the boundary it names, in step and not held, and itself the last mark taken. -/
def TakenAs (port : Nat) (m : Mark) (u v : State) : Prop :=
  v.phs.base = m.phase ∧ v.phs.held = false ∧ v.phs.sync = true ∧ v.phs.prev = some m ∧
    v.phs.prevTc = (u.timer : Int) - (u.port port).delay - m.resid

/-- A mark at a node that has SYNC goes on to the boundary that it names, whether next or after a gap (R30, R37). -/
theorem takeMark_boundary {s : State} {port n : Nat} {m : Mark} (timing : (s.measureMark port m).1 = false) (typ : m.typ < 2)
    (sync : s.phs.sync = true) (n_of : (s.timedBy port m).boundaryOk m (s.measureMark port m).2.1 = some n)
    (base : ∀ v : State, v.phs.base = s.phs.base → v.layers = s.layers → (v.goOn n s.phs.prevTc.toNat).phs.base = m.phase) :
    TakenAs port m s (s.takeMark port m) := by
  rw [takeMark_of_timing timing]
  have h4 : m.typ ≠ 4 := by omega
  have h2 : m.typ ≠ 2 := by omega
  have h3 : m.typ ≠ 3 := by omega
  simp only [h4, h2, h3, if_false, sync, Bool.not_true, Bool.false_eq_true, n_of]
  obtain ⟨jitter, gap, rate, skewed, hphs⟩ := timedBy_phs s port m
  have still := goOn_still { s.timedBy port m with phs := { (s.timedBy port m).phs with held := false } } n s.phs.prevTc.toNat
  refine ⟨base _ ?_ (timedBy_layers s port m), ?_, ?_, ?_, ?_⟩
  · rw [hphs]
  · exact PhaseSt.eq_of_still PhaseSt.held (fun _ => rfl) still
  · rw [PhaseSt.eq_of_still PhaseSt.sync (fun _ => rfl) still, hphs]; exact sync
  · rw [PhaseSt.eq_of_still PhaseSt.prev (fun _ => rfl) still, hphs]
  · rw [PhaseSt.eq_of_still PhaseSt.prevTc (fun _ => rfl) still, hphs]

/-- The boundary that a mark names is so many layers on, and R534 allows it: of the mark's type, and the next one where no gap precedes it. -/
theorem boundaryOk_of {s : State} {m : Mark} {gap : Bool} {n : Nat} (shape : (m.typ == 1) = (phLayer m.phase == 0))
    (layer : phLayer m.phase < s.layers) (on : s.layersTo m.phase = n) (pos : 1 ≤ n) (next : gap = false → n = 1) :
    s.boundaryOk m gap = some n := by
  unfold State.boundaryOk
  cases gap with
  | true => simp [shape, layer, on, pos]
  | false => simp [shape, layer, on, next rfl]

theorem layersTo_congr {s t : State} (base : t.phs.base = s.phs.base) (layers : t.layers = s.layers) (p : Phase) :
    t.layersTo p = s.layersTo p := by
  rw [State.layersTo, State.step, base, layers]; rfl

/-- A LAYER mark of a later layer of the running step is taken (R30, R34). -/
theorem takeMark_layer {s : State} {port : Nat} {m : Mark} (timing : (s.measureMark port m).1 = false) (sync : s.phs.sync = true)
    (typ : m.typ = 0) (later : phLayer s.phs.base < phLayer m.phase) (layer : phLayer m.phase < s.layers)
    (names : m.phase = mkPhase s.step (phLayer m.phase) 0)
    (next : (s.measureMark port m).2.1 = false → phLayer m.phase = phLayer s.phs.base + 1) :
    TakenAs port m s (s.takeMark port m) := by
  obtain ⟨jitter, gap, rate, skewed, hphs⟩ := timedBy_phs s port m
  have hbase : (s.timedBy port m).phs.base = s.phs.base := by rw [hphs]
  have hlayers := timedBy_layers s port m
  have hstep : phStep m.phase = s.step := by
    rw [names, phStep_mkPhase]; exact Nat.mod_eq_of_lt (phStep_lt _)
  have on : s.layersTo m.phase = ((phLayer m.phase - phLayer s.phs.base : Nat) : Int) := by
    rw [State.layersTo, hstep, stepsTo_self]; omega
  refine takeMark_boundary (n := phLayer m.phase - phLayer s.phs.base) timing (by omega) sync (boundaryOk_of ?_ ?_ ?_ ?_ ?_) ?_
  · have hne : phLayer m.phase ≠ 0 := by omega
    simp [typ, hne]
  · rw [hlayers]; exact layer
  · rw [layersTo_congr hbase hlayers, on]
  · omega
  · intro hgap; have := next hgap; omega
  · intro v vbase vlayers
    have hsum : phLayer v.phs.base + (phLayer m.phase - phLayer s.phs.base) = phLayer m.phase := by rw [vbase]; omega
    rw [goOn_base_within_step _ (by omega) (by rw [hsum, vlayers]; exact layer) (by rw [hsum]; exact phLayer_lt _), hsum,
      State.step, vbase]
    exact names.symm

/-- A STEP mark of the next step is taken, at whatever layer it finds the node after a gap (R30, R37). -/
theorem takeMark_step {s : State} {port : Nat} {m : Mark} (timing : (s.measureMark port m).1 = false) (sync : s.phs.sync = true)
    (typ : m.typ = 1) (within : phLayer s.phs.base < s.layers) (most : s.layers ≤ 4096) (names : m.phase = mkPhase (s.step + 1) 0 0)
    (next : (s.measureMark port m).2.1 = false → phLayer s.phs.base + 1 = s.layers) :
    TakenAs port m s (s.takeMark port m) := by
  obtain ⟨jitter, gap, rate, skewed, hphs⟩ := timedBy_phs s port m
  have hbase : (s.timedBy port m).phs.base = s.phs.base := by rw [hphs]
  have hlayers := timedBy_layers s port m
  have hstep : phStep m.phase = (s.step + 1) % 2 ^ 36 := by rw [names, phStep_mkPhase]
  have hlayer : phLayer m.phase = 0 := by rw [names, phLayer_mkPhase]; rfl
  have on : s.layersTo m.phase = ((s.layers - phLayer s.phs.base : Nat) : Int) := by
    rw [State.layersTo, hstep, hlayer, stepsTo_succ]; omega
  refine takeMark_boundary (n := s.layers - phLayer s.phs.base) timing (by omega) sync (boundaryOk_of ?_ ?_ ?_ ?_ ?_) ?_
  · simp [typ, hlayer]
  · rw [hlayers, hlayer]; omega
  · rw [layersTo_congr hbase hlayers, on]
  · omega
  · intro hgap; have := next hgap; omega
  · intro v vbase vlayers
    rw [goOn_base_next_step _ (by omega) (by rw [vbase, vlayers]; omega) (by rw [vlayers]; exact most), State.step, vbase]
    exact names.symm

/-- The first STEP mark of a term synchronises the node (R33, R39). -/
theorem takeMark_first {s : State} {port : Nat} {m : Mark} {st : StartRec} (timing : (s.measureMark port m).1 = false)
    (sync : s.phs.sync = false) (typ : m.typ = 1) (start : s.phs.start = some st) (names : m.phase = mkPhase st.step 0 0) :
    TakenAs port m s (s.takeMark port m) := by
  obtain ⟨jitter, gap, rate, skewed, hphs⟩ := timedBy_phs s port m
  rw [takeMark_of_timing timing]
  simp only [typ, sync, start, Option.elim, names, and_self, if_true, Bool.not_false, show (1 : Nat) ≠ 4 by decide, show (1 : Nat) ≠ 2 by decide,
    show (1 : Nat) ≠ 3 by decide, if_false]
  have still := firstMark_still (s.timedBy port m) (phStep (mkPhase st.step 0 0))
  refine ⟨?_, ?_, ?_, ?_, ?_⟩
  · rw [firstMark_base, phStep_mkPhase, mkPhase_mod_step, names]
  · exact PhaseSt.eq_of_still PhaseSt.held (fun _ => rfl) still
  · exact PhaseSt.eq_of_still PhaseSt.sync (fun _ => rfl) still
  · rw [PhaseSt.eq_of_still PhaseSt.prev (fun _ => rfl) still, hphs]
  · rw [PhaseSt.eq_of_still PhaseSt.prevTc (fun _ => rfl) still, hphs]

/-- A mark that no node takes: the host or the node itself is the source, it has made 15 hops, or it is of another term (R31, R33). -/
theorem mark_not_taken (s : State) (port : Nat) {m : Mark}
    (h : s.phs.src ≠ 0 ∨ 14 < m.hops ∨ s.phs.start.map (·.term) ≠ some m.term) : (s.mark port m).phs = s.phs := by
  unfold State.mark
  split
  · rfl
  split
  · rfl
  split
  · rfl
  cases hst : s.phs.start with
  | none => rfl
  | some st =>
    have hdrop : 5 ≤ m.typ ∨ 14 < m.hops ∨ m.term ≠ st.term := by
      rcases h with h | h | h
      · simp_all
      · exact .inr (.inl h)
      · exact .inr (.inr fun e => h (by rw [hst, e]; rfl))
    dsimp only
    rw [if_pos hdrop]
    rfl

theorem typed_hops (m : Mark) (typ : Nat) : (typed m typ).hops = m.hops := rfl
theorem typed_term (m : Mark) (typ : Nat) : (typed m typ).term = m.term := rfl

/-- Settles O1: a mark taken goes on to the boundary it names, by induction on the layers that a gap skipped. -/
theorem boundaryMarksMoveThePhase : Obligations.BoundaryMarksMoveThePhase := by
  unfold Obligations.BoundaryMarksMoveThePhase
  intro s t port m u taken
  have htaken : ∀ v, TakenAs port m (u.knowing m) v → taken v := by
    intro v ⟨hbase, hheld, hsync, hprev, htc⟩
    refine ⟨hbase, hheld, hsync, hprev, htc.trans ?_⟩
    rw [State.knowing, ← arrive_port s t port]; rfl
  have husync : u.phs.sync = s.phs.sync := by simp [u]
  have hustart : u.phs.start = s.phs.start := by simp [u]
  have hubase : (u.knowing m).phs.base = s.phs.base := by rw [← State.arrive_phs s t]; rfl
  have hulayers : (u.knowing m).layers = s.layers := arrive_layers s t
  have hustep : (u.knowing m).step = s.step := arrive_step s t
  refine ⟨fun h sync typ later layer names next => ?_, fun h sync typ within most names next => ?_, fun st h sync typ start names => ?_, fun h => ?_⟩
  · obtain ⟨htiming, hgap⟩ := knowing_measure u port m
    refine .of_exec (t := u.mark port (typed m 0)) rfl (htaken _ ?_)
    rw [typed_eq typ (by norm_num), mark_of_taken h]
    refine takeMark_layer (htiming.trans h.timing) (husync.trans sync) typ (by rw [hubase]; exact later) (by rw [hulayers]; exact layer)
      (by rw [hustep]; exact names) (fun e => ?_)
    rw [hubase]
    exact next (hgap ▸ e)
  · obtain ⟨htiming, hgap⟩ := knowing_measure u port m
    refine .of_exec (t := u.mark port (typed m 1)) rfl (htaken _ ?_)
    rw [typed_eq typ (by norm_num), mark_of_taken h]
    refine takeMark_step (htiming.trans h.timing) (husync.trans sync) typ (by rw [hubase, hulayers]; exact within)
      (by rw [hulayers]; exact most) (by rw [hustep]; exact names) (fun e => ?_)
    rw [hulayers, hubase]
    exact next (hgap ▸ e)
  · refine .of_exec (t := u.mark port (typed m 1)) rfl (htaken _ ?_)
    rw [typed_eq typ (by norm_num), mark_of_taken h]
    exact takeMark_first ((knowing_measure u port m).1.trans h.timing) (husync.trans sync) typ (hustart.trans start) names
  · have h' : u.phs.src ≠ 0 ∨ 14 < m.hops ∨ u.phs.start.map (·.term) ≠ some m.term := by simpa [u] using h
    have hphs : u.phs = s.phs := by simp [u]
    exact ⟨.of_exec rfl ((mark_not_taken u port (m := typed m 0) h').trans hphs),
      .of_exec rfl ((mark_not_taken u port (m := typed m 1) h').trans hphs)⟩

/-- Settles O2, by the equation of an accepted mark for each type. -/
theorem holdResumeAndSyncMarks : Obligations.HoldResumeAndSyncMarks := by
  unfold Obligations.HoldResumeAndSyncMarks
  intro s t port m h
  set u := s.arrive t
  have htiming := (knowing_measure u port m).1.trans h.timing
  obtain ⟨jitter, gap, rate, skewed, hphs⟩ := timedBy_phs (u.knowing m) port m
  have htake := takeMark_of_timing htiming
  refine ⟨fun typ => ?_, fun typ => ?_, fun typ held => ?_⟩
  · refine .of_exec (t := u.mark port (typed m 2)) rfl ?_
    rw [typed_eq typ (by norm_num), mark_of_taken h, htake]
    simp only [typ, show (2 : Nat) ≠ 4 by decide, if_false, if_true]
    have hclock := enterHold_clock ((u.knowing m).timedBy port m) m.phase
    rw [PhaseSt.eq_of_clock PhaseSt.held (fun _ => rfl) hclock, PhaseSt.eq_of_clock PhaseSt.base (fun _ => rfl) hclock,
      PhaseSt.eq_of_clock PhaseSt.prev (fun _ => rfl) hclock, hphs]
    exact ⟨rfl, rfl, rfl⟩
  · refine .of_exec (t := u.mark port (typed m 3)) rfl ?_
    rw [typed_eq typ (by norm_num), mark_of_taken h, htake]
    simp only [typ, show (3 : Nat) ≠ 4 by decide, show (3 : Nat) ≠ 2 by decide, if_false, if_true]
    have hstill := leaveHold_still ((u.knowing m).timedBy port m) m.phase
    rw [PhaseSt.eq_of_still PhaseSt.held (fun _ => rfl) hstill]
    exact ⟨rfl, leaveHold_base _ _⟩
  · refine .of_exec (t := u.mark port (typed m 4)) rfl ?_
    have hheld : (u.knowing m).phs.held = true := (congrArg PhaseSt.held (State.arrive_phs s t)).trans held
    have hbase : (u.knowing m).phs.base = s.phs.base := by rw [← State.arrive_phs s t]; rfl
    rw [typed_eq typ (by norm_num), mark_of_taken h, htake]
    dsimp only
    rw [if_pos typ, if_pos hheld, hphs]
    refine ⟨hheld, hbase, rfl, ?_⟩
    rw [← arrive_port s t port]; rfl

/-- Settles O3, from what a mark of the master leaves in the Phase unit and the boundary after it. -/
theorem masterSendsMarks : Obligations.MasterSendsMarks := by
  unfold Obligations.MasterSendsMarks
  intro s t ready
  set u := s.arrive t with hu
  have hphs : u.phs = s.phs := State.arrive_phs s t
  have hstep : u.step = s.step := arrive_step s t
  have hperiod : u.period = s.period := arrive_period s t
  have hnode : u.nodeId = s.nodeId := arrive_nodeId s t
  have hready : u.ready = true := (arrive_ready s t).trans ready
  refine ⟨fun en master sync held fwd last due => ?_, fun master held due => ?_, fun t0 st cand start due => ?_⟩
  · have hlast : u.lastLayer = false := (arrive_lastLayer s t).trans last
    have hexec : exec (.masterLayerBoundary t) s = .next ((u.masterMark 0 (mkPhase u.step (phLayer u.phs.base + 1) 0)).goOn 1 0) := by
      have hdue : ¬ u.elapsed < u.period := by rw [hperiod]; omega
      change execMasterLayerBoundary t s = _
      unfold execMasterLayerBoundary
      simp [← hu, hready, hphs, en, master, sync, held, fwd, hlast, hdue]
    obtain ⟨hbase, hprev, hseq⟩ := masterGoes u 0 (mkPhase u.step (phLayer u.phs.base + 1) 0) 0
    refine .of_exec hexec ⟨?_, ?_, ?_⟩
    · rw [hbase, nextBase_of_not_last hlast, hstep, hphs]
    · rw [hprev, State.ownMark, hstep, hperiod, hnode, hphs]
    · rw [hseq, hphs]
  · have hexec : exec (.holdSyncMark t) s = .next (u.masterMark 4 u.phs.base) := by
      have hdue : ¬ u.elapsed < u.period := by rw [hperiod]; omega
      change execHoldSyncMark t s = _
      unfold execHoldSyncMark
      simp [← hu, hready, hphs, master, held, hdue]
    refine .of_exec hexec ?_
    rw [masterMark_phs, State.ownMark, hperiod, hnode, hphs]
    exact ⟨rfl, held, rfl, rfl⟩
  · have hexec : exec (.claimWindowExpiry t) s = .next u.becomeMaster := by
      have hdue : t0 + us * u.pdNum 0x7006 0 ≤ u.timer := by rw [hu, arrive_pdNum]; exact due
      change execClaimWindowExpiry t s = _
      unfold execClaimWindowExpiry
      simp [← hu, hready, hphs, cand, hdue]
    have hstill := becomeMaster_still u
    refine .of_exec hexec ⟨?_, ?_, ?_, ?_, ?_⟩
    · exact PhaseSt.eq_of_still PhaseSt.master (fun _ => rfl) hstill
    · rw [PhaseSt.eq_of_still PhaseSt.masterId (fun _ => rfl) hstill, hnode]
    · exact PhaseSt.eq_of_still PhaseSt.sync (fun _ => rfl) hstill
    · rw [becomeMaster_base, State.startStep, hphs, start]; rfl
    · exact PhaseSt.eq_of_still PhaseSt.mseq (fun _ => rfl) hstill

/-! ### The end of every request and search (R133, R429) -/

/-- The identifiers of the requests. -/
def State.reqIds (s : State) : List Nat := s.rq.reqs.map (·.id)

theorem setReq_reqIds (s : State) (id : Nat) {f : Req → Req} (hf : ∀ r, (f r).id = r.id) : (s.setReq id f).reqIds = s.reqIds := by
  unfold State.reqIds State.setReq mapIf
  rw [List.map_map]
  refine List.map_congr_left fun r _ => ?_
  dsimp only [Function.comp]
  split
  · exact hf r
  · rfl

theorem noReply_rq (s : State) (c rnode : Nat) : (s.noReply c rnode).rq = s.rq :=
  Within.keeps (l := [.rq]) (p := .rq) (by apply State.noReply_within (hs := .refl _ s) <;> rfl) (by simp)

theorem sendBlocks_rq (s : State) (r : Req) (l : List Sec) (off : Nat) : (s.sendBlocks r l off).1.rq = s.rq :=
  Within.keeps (l := [.rq]) (p := .rq) (by apply State.sendBlocks_within (hs := .refl _ s) <;> rfl) (by simp)

theorem sendResult_rq (s : State) (src : Source) (env : Envelope) (q : Option Nat) (off : Nat) (bs : List Byte) (contract : Bool) (prod : Producer) :
    (s.sendResult src env q off bs contract prod).rq = s.rq :=
  Within.keeps (l := [.rq]) (p := .rq) (by apply State.sendResult_within (hs := .refl _ s) <;> rfl) (by simp)

theorem sendFlag_rq (s : State) (src : Source) (env : Envelope) (q : Option Nat) (st : Status) (rbytes : Nat) (contract : Bool) (prod : Producer) :
    (s.sendFlag src env q st rbytes contract prod).rq = s.rq :=
  Within.keeps (l := [.rq]) (p := .rq) (by apply State.sendFlag_within (hs := .refl _ s) <;> rfl) (by simp)

/-- Sending what is final of a request adds no request. -/
theorem flush_reqIds {s : State} {id i : Nat} (h : i ∈ (s.flush id).reqIds) : i ∈ s.reqIds := by
  unfold State.flush at h
  split at h
  · exact h
  next r _ =>
  split at h
  · exact h
  let f (r' : Req) : Req := { r' with secs := markSent r.secs, bytes := (s.sendBlocks r r.secs r.bytes).2 }
  have hids : ((s.sendBlocks r r.secs r.bytes).1.setReq id f).reqIds = s.reqIds := by
    rw [setReq_reqIds (f := f) _ _ (fun _ => rfl), State.reqIds, sendBlocks_rq]; rfl
  rw [← hids]
  dsimp only at h
  split at h
  · have sub (v : State) (hv : v.rq = ((s.sendBlocks r r.secs r.bytes).1.setReq id f).rq) :
        ∀ i ∈ (v.rq.reqs.filter fun r => r.id != id).map (·.id), i ∈ ((s.sendBlocks r r.secs r.bytes).1.setReq id f).reqIds := by
      intro i hi
      rw [hv] at hi
      exact List.map_subset _ (List.filter_sublist.subset) hi
    unfold State.reqIds at h
    split at h
    · exact sub _ (sendFlag_rq ..) i h
    · exact sub _ (sendFlag_rq ..) i h
  · exact h

/-- The end of a request takes it out, and adds none. -/
theorem endReq_reqIds {s : State} {st : Status} {r : Req} {i : Nat} (h : i ∈ (s.endReq st r).reqIds) : i ∈ s.reqIds ∧ i ≠ r.id := by
  unfold State.endReq State.endReqAt at h
  extract_lets a b c at h
  obtain ⟨x, hx, rfl⟩ := List.mem_map.1 h
  obtain ⟨hx, hne⟩ := List.mem_filter.1 hx
  have ha : a.reqIds = s.reqIds := by
    unfold a
    split
    · rfl
    split
    · exact setReq_reqIds _ _ fun _ => rfl
    · have hreply : (s.noReply r.comp r.req.env.rnode).reqIds = s.reqIds := by rw [State.reqIds, noReply_rq]; rfl
      rw [← hreply]
      exact setReq_reqIds _ _ fun _ => rfl
  have hb : b.reqIds = a.reqIds := setReq_reqIds _ _ fun _ => rfl
  refine ⟨?_, by simpa using hne⟩
  rw [← ha, ← hb]
  exact flush_reqIds (List.mem_map_of_mem hx)

/-- The end of a search takes it out, and leaves the requests and the other searches. -/
theorem endSearch_rq (s : State) (st : Status) (x : Search) :
    (s.endSearch st x).rq.reqs = s.rq.reqs ∧ (s.endSearch st x).rq.searches = s.rq.searches.filter fun y => y.id != x.id := by
  unfold State.endSearch
  extract_lets path _ v
  clear_value path
  cases path with
  | none => dsimp only; rw [noReply_rq]; exact ⟨rfl, rfl⟩
  | some q =>
    unfold State.refuseSearch
    dsimp only
    rw [sendFlag_rq, sendResult_rq]
    exact ⟨rfl, rfl⟩

theorem foldl_endReq_reqIds {st : Status} (l : List Req) {s : State} {i : Nat}
    (h : i ∈ (l.foldl (fun (s : State) r => s.endReq st r) s).reqIds) : i ∈ s.reqIds ∧ i ∉ l.map (·.id) := by
  induction l generalizing s with
  | nil => exact ⟨h, by simp⟩
  | cons r l ih =>
    obtain ⟨hi, hl⟩ := ih h
    obtain ⟨hs, hr⟩ := endReq_reqIds hi
    exact ⟨hs, by simp [hr]; simpa using hl⟩

theorem foldl_endReq_nil (s : State) (st : Status) : (s.rq.reqs.foldl (fun (s : State) r => s.endReq st r) s).rq.reqs = [] := by
  by_contra h
  obtain ⟨r, l, e⟩ := List.exists_cons_of_ne_nil h
  obtain ⟨hin, hout⟩ := foldl_endReq_reqIds (st := st) (i := r.id) s.rq.reqs (s := s) (by unfold State.reqIds; rw [e]; simp)
  exact hout hin

theorem foldl_endSearch_rq {st : Status} (l : List Search) (s : State) :
    (l.foldl (fun (s : State) x => s.endSearch st x) s).rq.reqs = s.rq.reqs ∧
      ∀ y ∈ (l.foldl (fun (s : State) x => s.endSearch st x) s).rq.searches, y ∈ s.rq.searches ∧ y.id ∉ l.map (·.id) := by
  induction l generalizing s with
  | nil => exact ⟨rfl, fun y hy => ⟨hy, by simp⟩⟩
  | cons x l ih =>
    obtain ⟨hreqs, hsrch⟩ := ih (s.endSearch st x)
    obtain ⟨hr, hs⟩ := endSearch_rq s st x
    refine ⟨hreqs.trans hr, fun y hy => ?_⟩
    obtain ⟨hin, hout⟩ := hsrch y hy
    rw [hs] at hin
    obtain ⟨hmem, hne⟩ := List.mem_filter.1 hin
    have hne : y.id ≠ x.id := by simpa using hne
    exact ⟨hmem, by simp [hne]; simpa using hout⟩

/-- With every request and search ended, none is left. -/
theorem endAll_empty (s : State) (st : Status) :
    (s.endAll (fun _ _ => true) st).rq.reqs = [] ∧ (s.endAll (fun _ _ => true) st).rq.searches = [] := by
  unfold State.endAll
  simp only [List.filter_true]
  obtain ⟨hreqs, hsrch⟩ := foldl_endSearch_rq (st := st) (s.rq.reqs.foldl (fun (s : State) r => s.endReq st r) s).rq.searches
    (s.rq.reqs.foldl (fun (s : State) r => s.endReq st r) s)
  refine ⟨hreqs.trans (foldl_endReq_nil s st), List.eq_nil_iff_forall_not_mem.2 fun y hy => ?_⟩
  obtain ⟨hin, hout⟩ := hsrch y hy
  exact hout (List.mem_map_of_mem hin)

/-! ### A job restart and a time-base fault (R38, R429) -/

theorem event_phs (s : State) (e : Event) : (s.event e).phs = s.phs :=
  Within.keeps (l := [.phs]) (p := .phs) (by apply State.event_within (hs := .refl _ s) <;> rfl) (by simp)

theorem event_rq (s : State) (e : Event) : (s.event e).rq = s.rq :=
  Within.keeps (l := [.rq]) (p := .rq) (by apply State.event_within (hs := .refl _ s) <;> rfl) (by simp)

theorem event_rel (s : State) (e : Event) : (s.event e).rel = s.rel :=
  Within.keeps (l := [.rel]) (p := .rel) (by apply State.event_within (hs := .refl _ s) <;> rfl) (by simp)

theorem endAll_clock (s : State) (p : Nat → Nat → Bool) (st : Status) : (s.endAll p st).phs.clock = s.phs.clock :=
  Within.keeps (l := [.clock]) (p := .clock) (by apply State.endAll_within (hs := .refl _ s) <;> rfl) (by simp)

theorem endAll_rel (s : State) (p : Nat → Nat → Bool) (st : Status) : (s.endAll p st).rel = s.rel :=
  Within.keeps (l := [.rel]) (p := .rel) (by apply State.endAll_within (hs := .refl _ s) <;> rfl) (by simp)

theorem jobRestart_phs (s : State) (scope : Nat) :
    (s.jobRestart scope).phs = { (s.endAll (fun _ _ => true) .replay).phs with fwdDone := true } := by
  rw [State.jobRestart, event_phs]

theorem jobRestart_clock (s : State) (scope : Nat) : (s.jobRestart scope).phs.clock = s.phs.clock := by
  rw [jobRestart_phs, ← endAll_clock s (fun _ _ => true) .replay]

theorem jobRestart_fwdDone (s : State) (scope : Nat) : (s.jobRestart scope).phs.fwdDone = true := by rw [jobRestart_phs]

theorem jobRestart_rel (s : State) (scope : Nat) : (s.jobRestart scope).rel = { s.rel with restarted := true } := by
  rw [State.jobRestart, event_rel, ← endAll_rel s (fun _ _ => true) .replay]

theorem jobRestart_empty (s : State) (scope : Nat) : (s.jobRestart scope).rq.reqs = [] ∧ (s.jobRestart scope).rq.searches = [] := by
  rw [State.jobRestart, event_rq]
  exact endAll_empty s .replay

theorem slotsNow_of_fwdDone {s : State} (h : s.phs.fwdDone = true) : s.slotsNow = [] := by simp [State.slotsNow, h]

theorem raiseScope_phs (s : State) (scope subj : Nat) (comp : Option Nat) : (s.raiseScope scope subj comp).phs = s.phs :=
  Within.keeps (l := [.phs]) (p := .phs) (by apply State.raiseScope_within (hs := .refl _ s) <;> rfl) (by simp)

theorem tbFault_clock (s : State) :
    s.tbFault.phs.clock = PhaseSt.clock { s.phs with tbfault := true, sync := s.phs.sync && !s.stopWork.single, hostTerm := false } := by
  have h := stopWork_clock s
  rw [State.tbFault, jobRestart_clock, raiseScope_phs]
  rw [← PhaseSt.eq_of_clock PhaseSt.sync (fun _ => rfl) h]
  exact congrArg (fun p : PhaseSt => { p with tbfault := true, sync := s.stopWork.phs.sync && !s.stopWork.single, hostTerm := false }) h

/-- What a time-base fault leaves: no work, the flag, the job to be restarted, and the boundary (R38). -/
theorem tbFault_leaves (s : State) : s.tbFault.phs.tbfault = true ∧ s.tbFault.slotsNow = [] ∧ s.tbFault.rq.reqs = [] ∧
    s.tbFault.rq.searches = [] ∧ s.tbFault.rel.restarted = true ∧ s.tbFault.phs.base = s.phs.base := by
  have h := tbFault_clock s
  have hfwd : s.tbFault.phs.fwdDone = true := by rw [State.tbFault, jobRestart_fwdDone]
  have hempty : s.tbFault.rq.reqs = [] ∧ s.tbFault.rq.searches = [] := by
    rw [State.tbFault]; exact jobRestart_empty _ 7
  refine ⟨?_, slotsNow_of_fwdDone hfwd, hempty.1, hempty.2, ?_, ?_⟩
  · rw [PhaseSt.eq_of_clock PhaseSt.tbfault (fun _ => rfl) h]
  · rw [State.tbFault, jobRestart_rel]
  · rw [PhaseSt.eq_of_clock PhaseSt.base (fun _ => rfl) h]

/-- The Phase while it runs: the base, with the ticks since its mark, saturated (R34, R36). -/
theorem phase_running {s : State} (held : s.phs.held = false) (en : s.phs.en = true) (prev : s.phs.prev ≠ none) :
    s.phase = mkPhase (phStep s.phs.base) (phLayer s.phs.base) (min 65535 s.elapsed) := by
  have hprev : s.phs.prev.isNone = false := by simpa [Option.isSome_iff_ne_none] using prev
  unfold State.phase
  rw [held, en, hprev]
  rfl

/-- Settles O4, by the conditions under which each of the three events acts. -/
theorem lateMarksAndTimeBaseFaults : Obligations.LateMarksAndTimeBaseFaults := by
  unfold Obligations.LateMarksAndTimeBaseFaults
  intro s t waits u faulted
  have hwaits : u.waitsMark = true := (arrive_waitsMark s t).trans waits
  have hphs : u.phs = s.phs := State.arrive_phs s t
  have hperiod : u.period = s.period := arrive_period s t
  have hlastLayer : u.lastLayer = s.lastLayer := arrive_lastLayer s t
  have hpd : u.pdNum 0x7030 0 = s.pdNum 0x7030 0 := arrive_pdNum s t 0x7030 0
  have hfault : faulted u.tickKept.tbFault := by
    obtain ⟨h1, h2, h3, h4, h5, h6⟩ := tbFault_leaves u.tickKept
    exact ⟨h1, h2, h3, h4, h5, h6.trans (by rw [tickKept_eq, hphs])⟩
  have hlate : exec (.layerMarkLate t) s =
      if u.waitsMark && !u.lastLayer && decide (u.period + 64 < u.elapsed) then .next { u with phs := { u.phs with late := true } } else .next u := rfl
  have hsat : exec (.tickSaturation t) s =
      .next (if u.waitsMark && !u.lastLayer && decide (65535 ≤ u.elapsed) then u.tickKept.tbFault else u) := rfl
  have htimeout : exec (.markWaitTimeout t) s =
      .next (if u.waitsMark && u.lastLayer && decide (2 * u.period + u.pdNum 0x7030 0 ≤ u.elapsed) then u.tickKept.tbFault else u) := rfl
  rw [hwaits, hlastLayer, hperiod, hphs] at hlate
  rw [hwaits, hlastLayer] at hsat
  rw [hwaits, hlastLayer, hperiod, hpd] at htimeout
  refine ⟨fun e he => ?_, fun last => ⟨fun due => ?_, fun early => ?_, fun due => ?_, fun early => ?_⟩,
    fun last => ⟨?_, ?_, fun due prev => ?_, fun due => ?_, fun early => ?_⟩⟩
  · unfold State.slotsNow at he
    split at he
    · simpa [hphs] using (List.mem_filter.1 he).2
    · simp at he
  · rw [hlate, last]; simp [due]
  · rw [hlate, last]; simp [Nat.not_lt.2 early]
  · refine .of_exec hsat ?_
    rw [last]; simp [due, hfault]
  · rw [hsat, last]; simp [Nat.not_le.2 early]
  · rw [hlate, last]; rfl
  · rw [hsat, last]; rfl
  · obtain ⟨⟨⟨⟨⟨-, hen⟩, -⟩, hheld⟩, -⟩, -⟩ : ((((s.ready = true ∧ s.phs.en = true) ∧ s.phs.sync = true) ∧ s.phs.held = false) ∧
        s.phs.master = false) ∧ s.phs.fwdDone = false := by simpa [State.waitsMark] using waits
    rw [phase_running (by rw [hphs, hheld]) (by rw [hphs, hen]) (by rw [hphs]; exact prev), phTick_mkPhase]
    omega
  · refine .of_exec htimeout ?_
    rw [last]; simp [due, hfault]
  · rw [htimeout, last]; simp [Nat.not_le.2 early]

/-! ### Host marks and Phase reads (R40, R41) -/

theorem step_of_stepsTo {a b : Nat} {k : Nat} (hb : b < 2 ^ 36) (small : k < 2) (h : stepsTo a b = k) : b = (a + k) % 2 ^ 36 := by
  unfold stepsTo at h; omega

/-- The boundary that is one layer on is the next base (R28, R37). -/
theorem eq_nextBase_of_layersTo {s : State} {p : Phase} (within : phLayer s.phs.base < s.layers) (layer : phLayer p < s.layers)
    (tick : phTick p = 0) (on : s.layersTo p = 1) : p = s.nextBase := by
  have hstep := phStep_lt p
  rw [State.layersTo] at on
  have hnear : stepsTo s.step (phStep p) = 0 ∨ stepsTo s.step (phStep p) = 1 := by
    have hl : (phLayer p : Int) < s.layers := by exact_mod_cast layer
    have hb : (phLayer s.phs.base : Int) < s.layers := by exact_mod_cast within
    have low : 0 ≤ stepsTo s.step (phStep p) := by by_contra h; nlinarith
    have high : stepsTo s.step (phStep p) ≤ 1 := by by_contra h; nlinarith
    omega
  rw [eq_mkPhase_of_tick tick]
  rcases hnear with h | h
  · have hto := step_of_stepsTo (k := 0) hstep (by omega) h
    rw [h] at on
    rw [nextBase_of_not_last (by simp only [State.lastLayer, decide_eq_false_iff_not]; omega), show phLayer p = phLayer s.phs.base + 1 by omega,
      hto, mkPhase_mod_step]; rfl
  · have hto := step_of_stepsTo (k := 1) hstep (by omega) h
    rw [h] at on
    rw [nextBase_of_last (by simp only [State.lastLayer, decide_eq_true_eq]; omega), show phLayer p = 0 by omega, hto, mkPhase_mod_step]

theorem nextBase_congr {s t : State} (base : t.phs.base = s.phs.base) (layers : t.layers = s.layers) : t.nextBase = s.nextBase := by
  rw [State.nextBase, State.lastLayer, layers, State.step, base]; rfl

/-- The state in which a host mark acts: it is the last mark, at the local time and the nominal rate (R40). -/
def State.hostTimed (s : State) (p : Phase) : State :=
  { s with phs := { s.phs with prev := some (hostRecord p), prevTc := s.timer, rate := 1, skewed := false } }

/-- The state in which the host begins a term (R40). -/
def State.hostTermBegun (s : State) (p : Phase) : State :=
  { s.hostTimed p with phs := { (s.hostTimed p).phs with hostTerm := true, term := s.phs.term + 1 } }

theorem hostMark_first {s : State} {hi : BitVec 32} (src : s.phs.src = 1) (en : s.phs.en = true) (tick : phTick (hi ++ s.phs.markLo) = 0)
    (layer : phLayer (hi ++ s.phs.markLo) = 0) (begun : s.phs.hostTerm = false) :
    s.hostMark hi = (s.hostTermBegun (hi ++ s.phs.markLo)).firstMark (phStep (hi ++ s.phs.markLo)) := by
  unfold State.hostMark
  rw [if_neg (by simp [src, en]), if_neg (by simp [tick]), if_pos (by simp [begun]), if_neg (by simp [layer])]
  rfl

theorem hostMark_next {s : State} {hi : BitVec 32} (src : s.phs.src = 1) (en : s.phs.en = true) (tick : phTick (hi ++ s.phs.markLo) = 0)
    (begun : s.phs.hostTerm = true) (on : s.layersTo (hi ++ s.phs.markLo) = 1) (layer : phLayer (hi ++ s.phs.markLo) < s.layers)
    (barrier : phLayer (hi ++ s.phs.markLo) ≠ 0 ∨ (s.hif.stepV = true ∧ s.hif.step = s.step)) :
    s.hostMark hi = (s.hostTimed (hi ++ s.phs.markLo)).goOn 1 0 := by
  have hbarrier : (phLayer (hi ++ s.phs.markLo) != 0 || (s.hif.stepV && s.hif.step == s.step)) = true := by simpa using barrier
  unfold State.hostMark
  rw [if_neg (by simp [src, en]), if_neg (by simp [tick]), if_neg (by simp [begun])]
  simp only [on, layer, hbarrier, decide_true, beq_self_eq_true, Bool.and_self, if_true]
  rfl

theorem hostMark_tick {s : State} {hi : BitVec 32} (src : s.phs.src = 1) (en : s.phs.en = true) (tick : phTick (hi ++ s.phs.markLo) ≠ 0) :
    s.hostMark hi = { s with phs := { s.phs with badmark := true } } := by
  unfold State.hostMark
  rw [if_neg (by simp [src, en]), if_pos tick]

theorem readNow_eq (s : State) : s.readNow = (s.phase.setWidth 32, { s with phs := { s.phs with nowHi := s.phase.extractLsb' 32 32 } }) := by
  have low : BitVec.ofNat 32 s.phase.toNat = s.phase.setWidth 32 := BitVec.ofNat_toNat 32 s.phase
  have high : BitVec.ofNat 32 (s.phase.toNat / 2 ^ 32) = s.phase.extractLsb' 32 32 := by
    rw [BitVec.extractLsb', Nat.shiftRight_eq_div_pow]
  rw [State.readNow, low, high]

/-- At the arrival of its mark a boundary has run no tick (R34). -/
theorem elapsed_at_mark {s : State} (h : (s.timer : Int) = s.phs.prevTc) : s.elapsed = 0 := by
  rw [State.elapsed, h]; simp [Rat.floor_def]

/-- At the nominal rate a tick is 16 units of the local timer (R34). -/
theorem elapsed_nominal {s : State} {n : Nat} (rate : s.phs.rate = 1) (h : (s.timer : Int) = s.phs.prevTc + n) : s.elapsed = n / 16 := by
  rw [State.elapsed, h, rate, mul_one, add_sub_cancel_left]
  have hfloor : (((n : Int) : Rat) / 16).floor = (n / 16 : Nat) := by
    exact Rat.floor_natCast_div_natCast n 16
  rw [hfloor]; rfl

/-- Settles O6, from the cases of a host mark and the layout of a Phase. -/
theorem hostMarksAndPhaseReads : Obligations.HostMarksAndPhaseReads := by
  unfold Obligations.HostMarksAndPhaseReads
  intro s t hi ready
  have hphs : (s.arrive t).phs = s.phs := State.arrive_phs s t
  have hexec : exec (.hostMark t hi) s = .next ((s.arrive t).hostMark hi) := by
    change execHostMark t hi s = _
    unfold execHostMark
    simp [ready]
  refine ⟨fun src en tick layer begun => ?_, fun src en tick begun within on layer barrier => ?_, fun src en tick => ?_, ?_,
    fun p => ⟨toNat_eq_fields p, phStep_lt p, phLayer_lt p, phTick_lt p⟩, fun held en prev => ?_⟩
  · rw [← hphs] at src en tick layer begun
    rw [hostMark_first src en tick layer begun, hphs] at hexec
    have still := firstMark_still ((s.arrive t).hostTermBegun (hi ++ s.phs.markLo)) (phStep (hi ++ s.phs.markLo))
    refine .of_exec hexec ⟨?_, ?_, ?_, firstMark_base .., ?_⟩
    · rw [PhaseSt.eq_of_still PhaseSt.term (fun _ => rfl) still, ← hphs]; rfl
    · rw [PhaseSt.eq_of_still PhaseSt.sync (fun _ => rfl) still]
    · rw [PhaseSt.eq_of_still PhaseSt.held (fun _ => rfl) still]
    · rw [PhaseSt.eq_of_still PhaseSt.hostTerm (fun _ => rfl) still]; rfl
  · have hnext := eq_nextBase_of_layersTo within layer tick on
    have hhif : (s.arrive t).hif = s.hif := by rw [arrive_eq]
    rw [← hphs] at src en tick begun
    have still := goOn_still ((s.arrive t).hostTimed (hi ++ (s.arrive t).phs.markLo)) 1 0
    rw [hostMark_next src en tick begun (by rw [arrive_layersTo, hphs]; exact on) (by rw [arrive_layers, hphs]; exact layer)
      (by rw [arrive_step, hhif, hphs]; exact barrier)] at hexec
    refine .of_exec hexec ⟨?_, ?_⟩
    · rw [goOn_one_base, hnext]
      exact nextBase_congr (congrArg PhaseSt.base hphs :) (arrive_layers s t)
    · rw [PhaseSt.eq_of_still PhaseSt.term (fun _ => rfl) still, ← hphs]; rfl
  · rw [← hphs] at src en tick
    rw [hexec, hostMark_tick src en tick, hphs]
  · change execPhsNowRead t s = _
    unfold execPhsNowRead
    dsimp only
    rw [readNow_eq, if_neg (by simp [ready]), hphs, ← State.arrive_out s t]
    rfl
  · have hphase := phase_running held en prev
    rw [hphase, phStep_mkPhase, phLayer_mkPhase, phTick_mkPhase, Nat.mod_eq_of_lt (phStep_lt _), Nat.mod_eq_of_lt (phLayer_lt _)]
    exact ⟨rfl, rfl, by omega, elapsed_at_mark, fun n => elapsed_nominal⟩

/-! ### Step reports and the barrier (R42 to R44) -/

/-- The state in which a node's step is complete, before its report leaves (R42, R451). -/
def State.stepEnded (s : State) : State :=
  ({ s with phs := { s.phs with reported := true }, rel := { s.rel with lastDone := s.step } }).govern

theorem govern_within_keeping (s : State) : Within (keeping [.phs, .rel, .hif, .lnk, .boot, .out]) s s.govern := by
  apply State.govern_within (hs := .refl _ s) <;> rfl

theorem stepEnded_phs (s : State) : s.stepEnded.phs = { s.phs with reported := true } :=
  (govern_within_keeping _).keeps (p := .phs) (by simp)

theorem stepEnded_rel (s : State) : s.stepEnded.rel = { s.rel with lastDone := s.step } :=
  (govern_within_keeping _).keeps (p := .rel) (by simp)

theorem stepEnded_hif (s : State) : s.stepEnded.hif = s.hif := (govern_within_keeping _).keeps (p := .hif) (by simp)

theorem stepEnded_lnk (s : State) : s.stepEnded.lnk = s.lnk := (govern_within_keeping _).keeps (p := .lnk) (by simp)

theorem stepEnded_out (s : State) : s.stepEnded.out = s.out := (govern_within_keeping _).keeps (p := .out) (by simp)

theorem stepEnded_step (s : State) : s.stepEnded.step = s.step := by rw [State.step, stepEnded_phs]; rfl

theorem stepEnded_boot (s : State) : s.stepEnded.boot = s.boot := (govern_within_keeping _).keeps (p := .boot) (by simp)

/-- A report arrives at a master that is not held, from a node that has sent none of this step. -/
theorem stepCompleteReceive_eq {s : State} {t node breaches : Nat} {fb : Bool} (ready : s.ready = true) (master : s.phs.master = true)
    (held : s.phs.held = false) (fresh : node ∉ s.phs.reports) :
    execStepCompleteReceive t s.step node breaches fb s =
      .next ({ (s.arrive t).mgmtTake with phs := { s.phs with reports := node :: s.phs.reports } }).tryStep := by
  have hstep : (s.arrive t).mgmtTake.step = s.step := arrive_step s t
  unfold execStepCompleteReceive
  simp [ready, hstep, master, held, fresh]

/-- A step that is done is reported: to the host in single-card mode, else to the master. -/
theorem stepCompleteReport_eq {s : State} {t : Nat} (due : s.ready = true ∧ s.phs.sync = true ∧ s.phs.held = false ∧
      s.phs.reported = false ∧ s.lastLayer = true) (done : (s.arrive t).stepDone = true) :
    let u := s.arrive t
    let v := u.stepEnded
    execStepCompleteReport t s =
      if v.single then .next ({ v with hif := { v.hif with step := v.step, stepV := true } }.emit (.msix 0 2))
      else
        let w := v.emit (.report v.step v.nodeId (min u.phs.breaches 0xFFFF) u.phs.fbAny)
        if v.phs.master then .next ({ w with phs := { w.phs with reports := w.nodeId :: w.phs.reports } }.tryStep)
        else .next (w.mgmtSend (v.phs.masterId.getD 0) (reportBytes v.step v.nodeId u.phs.breaches u.phs.fbAny)) := by
  obtain ⟨ready, sync, held, open_, last⟩ := due
  unfold execStepCompleteReport
  dsimp only
  rw [if_neg (by simp [ready, sync, held, open_, last, done])]
  rfl

theorem mgmtSend_of_room {s : State} (dest : Nat) (b : List Byte) (room : s.lnk.mgmtOut.length < mgmtMost) :
    s.mgmtSend dest b = { s with lnk := { s.lnk with mgmtOut := s.lnk.mgmtOut ++ [(dest, b)] } } := if_pos room

/-- The barrier is passed: the master begins the next step (R44). -/
theorem tryStep_of_all {s : State} (sync : s.phs.sync = true) (master : s.phs.master = true) (held : s.phs.held = false)
    (last : s.lastLayer = true) (all : s.allReported = true) :
    s.tryStep.phs.base = mkPhase (s.step + 1) 0 0 ∧ s.tryStep.phs.reports = [] ∧ s.tryStep.phs.mseq = s.phs.mseq + 1 := by
  obtain ⟨hbase, -, hseq⟩ := masterGoes s 1 (mkPhase (s.step + 1) 0 0) 0
  unfold State.tryStep
  rw [if_pos (by simp [sync, master, held, last, all])]
  refine ⟨hbase.trans (nextBase_of_last last), ?_, hseq⟩
  rw [PhaseSt.eq_of_clock PhaseSt.reports (fun _ => rfl) (goOn_clockKept ..).clock]
  exact nextLayer_reports ((masterMark_lastLayer ..).trans last)

/-- Settles O7, from the report as it leaves and the master's step mark. -/
theorem stepReports : Obligations.StepReports := by
  unfold Obligations.StepReports
  intro s t ready sync held last
  have hphs : (s.arrive t).phs = s.phs := State.arrive_phs s t
  have hall (l : List Nat) : ({ (s.arrive t).mgmtTake with phs := { s.phs with reports := l } } : State).allReported =
      ({ s with phs := { s.phs with reports := l } } : State).allReported := by rw [arrive_eq]; rfl
  refine ⟨fun open_ done => ?_, fun node breaches fb master fresh open_ => ?_, fun node breaches fb master fresh all => ?_⟩
  · have hexec := stepCompleteReport_eq (s := s) (t := t) (by simp [ready, sync, held, open_, last]) done
    have hv := stepEnded_phs (s.arrive t)
    have hrel : (s.arrive t).stepEnded.rel.lastDone = s.step := by rw [stepEnded_rel, arrive_step]
    have hstep : (s.arrive t).stepEnded.step = s.step := by rw [stepEnded_step, arrive_step]
    have hsingle : (s.arrive t).stepEnded.single = s.single := by rw [State.single, stepEnded_hif]; exact arrive_single s t
    dsimp only at hexec
    rw [hsingle] at hexec
    refine ⟨fun single => ?_, fun single member room => ?_⟩
    · rw [if_pos single] at hexec
      refine .of_exec hexec ⟨?_, hrel, hstep, rfl, ?_⟩
      · exact congrArg PhaseSt.reported hv
      · exact congrArg (Out.msix 0 2 :: ·) ((stepEnded_out _).trans (State.arrive_out s t))
    · have hlnk : (s.arrive t).stepEnded.lnk = s.lnk := by rw [stepEnded_lnk, arrive_eq]
      have hmaster : (s.arrive t).stepEnded.phs.master = false := by rw [hv, hphs, member]
      have hnode : (s.arrive t).stepEnded.nodeId = s.nodeId := by rw [State.nodeId, stepEnded_boot]; exact arrive_nodeId s t
      rw [if_neg (by simp [single]), if_neg (by simp [hmaster]), mgmtSend_of_room _ _ (by rw [← hlnk] at room; exact room), hstep, hnode,
        show (s.arrive t).phs.breaches = s.phs.breaches by rw [hphs], show (s.arrive t).phs.fbAny = s.phs.fbAny by rw [hphs],
        show (s.arrive t).stepEnded.phs.masterId = s.phs.masterId by rw [hv, hphs]] at hexec
      refine .of_exec hexec ⟨congrArg PhaseSt.reported hv, hrel, ?_⟩
      exact congrArg (fun l : LinkSt => l.mgmtOut ++ _) hlnk
  · have hexec : exec (.stepCompleteReceive t s.step node breaches fb) s = _ :=
      stepCompleteReceive_eq (breaches := breaches) (fb := fb) ready master held fresh
    refine .of_exec hexec ?_
    rw [State.tryStep, hall, open_]
    simp
  · have hexec : exec (.stepCompleteReceive t s.step node breaches fb) s = _ :=
      stepCompleteReceive_eq (breaches := breaches) (fb := fb) ready master held fresh
    refine .of_exec hexec ?_
    have hlast : ({ (s.arrive t).mgmtTake with phs := { s.phs with reports := node :: s.phs.reports } } : State).lastLayer = true := by
      rw [arrive_eq]; exact last
    exact tryStep_of_all sync master held hlast ((hall _).trans all)

/-! ### Schedule commit and class correction (R47, R48, R58) -/

@[simp] theorem arrive_sch (s : State) (t : Nat) : (s.arrive t).sch = s.sch := by rw [arrive_eq]

theorem arrive_entryErr (s : State) (t : Nat) (before : List Slot) (e : Slot) : (s.arrive t).entryErr before e = s.entryErr before e := by
  rw [arrive_eq]; rfl

theorem arrive_firstErr (s : State) (t : Nat) (l : List (Nat × Slot)) (before : List Slot) :
    (s.arrive t).firstErr before l = s.firstErr before l := by
  induction l generalizing before with
  | nil => rfl
  | cons x l ih => simp only [State.firstErr, arrive_entryErr, ih]

theorem arrive_validate (s : State) (t : Nat) : (s.arrive t).validate = s.validate := by
  simp only [State.validate, arrive_sch, arrive_firstErr, arrive_step]

/-- The entry that validation names has a cause that is not 0 (R48). -/
theorem firstErr_ne_zero {s : State} {l : List (Nat × Slot)} {before : List Slot} {r : Nat × Nat} (h : s.firstErr before l = some r) :
    r.1 ≠ 0 := by
  induction l generalizing before with
  | nil => simp [State.firstErr] at h
  | cons x l ih =>
    unfold State.firstErr at h
    dsimp only at h
    split at h
    · exact ih h
    next nonzero => obtain rfl := Option.some.inj h; exact nonzero

/-- A bank passes validation only with a number of entries in range and a commit step ahead (R47, R48). -/
theorem of_validate_zero {s : State} (h : s.validate.1 = 0) :
    laterStep s.sch.step s.step = true ∧ 1 ≤ s.sch.count ∧ s.sch.count ≤ 4096 := by
  unfold State.validate at h
  dsimp only at h
  split at h
  · simp at h
  next range =>
  split at h
  next r hr => exact absurd h (firstErr_ne_zero hr)
  next =>
  split at h
  next ahead => exact ⟨ahead, by omega⟩
  · simp at h

theorem writeCommitHi_go (s : State) (hi : Nat) : s.writeCommitHi (fieldAt hi 4 0 + 2 ^ 31) =
    if s.sch.frozen then { s with sch := { s.sch with wign := true } }
    else { s with sch := { s.sch with stepHi := hi % 16, validating := true } } := by
  have cancel : bitAt (fieldAt hi 4 0 + 2 ^ 31) 30 = false := by simp only [bitAt, fieldAt, beq_eq_false_iff_ne]; omega
  have go : bitAt (fieldAt hi 4 0 + 2 ^ 31) 31 = true := by simp only [bitAt, fieldAt, beq_iff_eq]; omega
  have step : bitsOf (fieldAt hi 4 0 + 2 ^ 31) 0 4 = hi % 16 := by simp only [bitsOf, fieldAt]; omega
  rw [State.writeCommitHi, cancel, go, step]; rfl

theorem writeCommitHi_cancel (s : State) :
    s.writeCommitHi (2 ^ 30) = { s with sch := { s.sch with validating := false, pending := false } } := if_pos rfl

/-- Settles O29, from what a write of SCH_COMMIT_HI does, and what validation asks for. -/
theorem scheduleCommitAndCorrection : Obligations.ScheduleCommitAndCorrection := by
  unfold Obligations.ScheduleCommitAndCorrection
  intro s t
  refine ⟨fun ready hi => ?_, fun ready => ?_, fun ready validating => ?_, fun cls => ?_⟩
  · have hexec : exec (.scheduleGo t hi) s = .next ((s.arrive t).writeCommitHi (fieldAt hi 4 0 + 2 ^ 31)) := by
      change execScheduleGo t hi s = _
      unfold execScheduleGo
      simp [ready]
    rw [writeCommitHi_go, arrive_sch] at hexec
    exact ⟨fun free => .of_exec hexec (by simp [free]), fun frozen => .of_exec hexec (by simp [frozen])⟩
  · have hexec : exec (.scheduleCancel t) s = .next ((s.arrive t).writeCommitHi (2 ^ 30)) := by
      change execScheduleCancel t s = _
      unfold execScheduleCancel
      simp [ready]
    rw [writeCommitHi_cancel, arrive_sch] at hexec
    exact .of_exec hexec rfl
  · have hexec : exec (.scheduleValidationDone t) s = .next { s.arrive t with
        sch := { s.sch with validating := false, pending := s.validate.1 == 0, err := s.validate.1, errEntry := s.validate.2 } } := by
      change execScheduleValidationDone t s = _
      unfold execScheduleValidationDone
      simp [ready, validating, arrive_validate]
    exact .of_exec hexec ⟨rfl, rfl, rfl, rfl, rfl, rfl, rfl, fun pending => of_validate_zero (by simpa using pending)⟩
  · have hexec : exec (.alphaUpdate t cls) s = execAlphaUpdate t cls s := rfl
    unfold execAlphaUpdate at hexec
    dsimp only at hexec
    rw [arrive_sch, show ∀ a, (s.arrive t).clampAlpha a = s.clampAlpha a by intro a; rw [arrive_eq]; rfl] at hexec
    refine ⟨fun enough => ?_, fun few => ?_⟩
    · rw [if_neg (by omega)] at hexec
      exact .of_exec hexec ⟨lookD_put_same .., look_put_same .., fun c hc => look_put_other _ _ _ _ hc⟩
    · rw [hexec, if_pos few]

/-! ### Searches (R57, R163 to R170) -/

@[simp] theorem arrive_rq (s : State) (t : Nat) : (s.arrive t).rq = s.rq := by rw [arrive_eq]
@[simp] theorem arrive_noAdmission (s : State) (t : Nat) : (s.arrive t).noAdmission = s.noAdmission := by rw [arrive_eq]; rfl
@[simp] theorem arrive_bestEffort (s : State) (t : Nat) : (s.arrive t).bestEffort = s.bestEffort := by rw [arrive_eq]; rfl
@[simp] theorem arrive_stripeOut (s : State) (t id : Nat) : (s.arrive t).stripeOut id = s.stripeOut id := by rw [arrive_eq]; rfl
theorem arrive_namedCorpus (s : State) (t job comp ctx : Nat) : (s.arrive t).namedCorpus job comp ctx = s.namedCorpus job comp ctx := by
  rw [arrive_eq]; rfl

/-- The state with other counts. -/
def State.counting (s : State) (c : List (Nat × Nat × Nat)) : State := { s with pd := { s.pd with cnt := c } }

theorem adirStall_eq (s : State) (cls key : Nat) : ∃ c, s.adirStall cls key = s.counting c := by
  unfold State.adirStall
  split
  · exact ⟨_, rfl⟩
  · exact ⟨s.pd.cnt, rfl⟩

theorem namedCorpus_of {s : State} {job comp ctx : Nat} {c : Corpus} (held : s.corpus? job ctx = some c) (mapped : s.mapped job ctx = true)
    (own : c.comp = comp) : s.namedCorpus job comp ctx = .inr c := by
  rw [State.namedCorpus, held, mapped]
  exact if_pos own

theorem breach_rq (s : State) (cause : Nat) (slot : Option Nat) (opclass comp late job node tag : Nat) :
    (s.breach cause slot opclass comp late job node tag).rq = s.rq :=
  Within.keeps (l := [.rq]) (p := .rq) (by apply State.breach_within (hs := .refl _ s) <;> rfl) (by simp)

theorem takePlace_rq (s : State) (slot : Nat) (x : Load) : (s.takePlace slot x).rq = s.rq :=
  Within.keeps (l := [.rq]) (p := .rq) (by apply State.takePlace_within (hs := .refl _ s); rfl) (by simp)

/-- The admission of a search on a corpus (R52, R163). -/
def State.searchAdmission (s : State) (r : SearchReq) (c : Corpus) : Admission :=
  s.admission (if (searchLoad r c).2 then (searchLoad r c).1 else { (searchLoad r c).1 with ways := 0 })
    (if r.env.dl then some r.env.deadline else none)

/-- The place or the breach record that admission gives a search. -/
def State.placeSearch (s : State) (src : Source) (r : SearchReq) (job comp : Nat) (c : Corpus) : State :=
  let a := s.searchAdmission r c
  match a.slot, a.cause with
  | some n, _ => s.takePlace n (searchLoad r c).1
  | none, some k => s.breach k a.named 7 comp a.late job (sourceNode s src) r.env.tag.toNat
  | none, none => s

/-- A search as it waits for its dispatch. -/
def State.waitingSearch (s : State) (src : Source) (r : SearchReq) (job comp : Nat) (c : Corpus) : Search :=
  { id := (s.placeSearch src r job comp c).rq.nextId, src, job, comp, req := r, snap := none, slot := (s.searchAdmission r c).slot
    breach := (s.searchAdmission r c).cause, arrive := (s.placeSearch src r job comp c).phase, queue := none, running := false
    bytes := (searchLoad r c).1.bytes, limit := (s.searchAdmission r c).slot.elim 0 fun n => s.limitOf n (searchLoad r c).1
    begun := 0, formula := 0, left := 0, paused := false, grants := [] }

theorem placeSearch_rq (s : State) (src : Source) (r : SearchReq) (job comp : Nat) (c : Corpus) :
    (s.placeSearch src r job comp c).rq = s.rq := by
  unfold State.placeSearch
  dsimp only
  split
  · exact takePlace_rq ..
  · exact breach_rq ..
  · rfl

/-- A search that admission does not refuse outright is queued, not running (R128, R163). -/
theorem search_queued {s : State} {src : Source} {r : SearchReq} {job comp : Nat} {c : Corpus} (of : s.sourceOf src = (job, comp))
    (path : s.pathOf src comp job r.env.rnode ≠ none) (serves : s.compRefusal comp = none) (named : s.namedCorpus job comp r.env.ctx = .inr c)
    (kind : r.env.kind = 3) (fields : searchOk r c = true) (epoch : s.epochOk src = true) (admitted : (s.searchAdmission r c).cause ≠ some 10) :
    ∃ x, (s.search src r).rq = { s.rq with searches := s.rq.searches ++ [x], nextId := s.rq.nextId + 1 } ∧
      x.id = s.rq.nextId ∧ x.req = r ∧ x.job = job ∧ x.comp = comp ∧ x.running = false ∧ x.snap = none := by
  obtain ⟨q, path⟩ := Option.ne_none_iff_exists'.1 path
  obtain ⟨n, stall⟩ := adirStall_eq s 0 (ctxKey job r.env.ctx)
  have named' : (s.counting n).namedCorpus job comp r.env.ctx = .inr c := named
  have epoch' : (s.counting n).epochOk src = true := by
    rw [← epoch]
    cases src with
    | fabric => rfl
    | doorbell => rfl
  have admitted' : ((s.counting n).searchAdmission r c).cause ≠ some 10 := admitted
  have hrq : ((s.counting n).placeSearch src r job comp c).rq = s.rq := placeSearch_rq ..
  have hsearch : (s.search src r).rq = { ((s.counting n).placeSearch src r job comp c).rq with
      searches := ((s.counting n).placeSearch src r job comp c).rq.searches ++ [(s.counting n).waitingSearch src r job comp c]
      nextId := ((s.counting n).placeSearch src r job comp c).rq.nextId + 1 } := by
    unfold State.search
    rw [of]
    dsimp only
    rw [path]
    dsimp only
    rw [serves]
    dsimp only
    rw [stall, named']
    dsimp only
    rw [if_neg (by simp [kind, fields]), if_neg (by simp [epoch']), if_neg (by exact admitted')]
    rfl
  rw [hrq] at hsearch
  exact ⟨_, hsearch, congrArg ReqSt.nextId hrq, rfl, rfl, rfl, rfl, rfl⟩

theorem readSketches_rq (s : State) (r : SearchReq) (c : Corpus) : (s.readSketches r c).rq = s.rq :=
  Within.keeps (l := [.rq]) (p := .rq) (by apply State.readSketches_within (hs := .refl _ s); rfl) (by simp)

/-- The one search that waits, changed in place. -/
theorem setSearch_rq {s : State} {x : Search} (h : s.rq.searches = [x]) (f : Search → Search) :
    (s.setSearch x.id f).rq = { s.rq with searches := [f x] } := by
  rw [State.setSearch, h]
  simp [mapIf]

/-- One stripe is granted to a search, or denied it (R169). -/
def State.grantWay (s : State) (id c : Nat) : State :=
  let w := c / 96
  let ch := c % 32
  if !s.nmuShed && decide ((s.nmuLoad w).1 + s.scanHeld w ch + (if (s.nmu w ch).granted then 0 else 1) ≤ (s.gov w).maxnmu) then
    s.setSearch id fun y => { y with grants := y.grants ++ [c] }
  else (s.setGov w { s.gov w with deny := true }).count 0x3040 1

theorem grantWays_eq (s : State) (id : Nat) (ways : List Nat) :
    s.grantWays id ways = (sortBy (fun a b => decide (a < b)) ways).foldl (fun s c => s.grantWay id c) s := rfl

theorem grantWay_rq {s : State} {x : Search} {id : Nat} (h : s.rq.searches = [x]) (own : x.id = id) (c : Nat) :
    ∃ grants, (s.grantWay id c).rq = { s.rq with searches := [{ x with grants }] } := by
  subst own
  unfold State.grantWay
  dsimp only
  generalize (!s.nmuShed && _) = granted
  cases granted with
  | true => exact ⟨_, setSearch_rq h fun y => { y with grants := y.grants ++ [c] }⟩
  | false => exact ⟨x.grants, by rw [← h]; rfl⟩

/-- The stripes that a search is granted are noted in the search alone (R169). -/
theorem grantWays_rq {s : State} {x : Search} {id : Nat} (h : s.rq.searches = [x]) (own : x.id = id) (ways : List Nat) :
    ∃ grants, (s.grantWays id ways).rq = { s.rq with searches := [{ x with grants }] } := by
  rw [grantWays_eq]
  generalize sortBy _ ways = l
  induction l generalizing s x with
  | nil => exact ⟨x.grants, by rw [← h]; rfl⟩
  | cons c l ih =>
    obtain ⟨g, hg⟩ := grantWay_rq h own c
    obtain ⟨grants, hl⟩ := ih (s := s.grantWay id c) (x := { x with grants := g }) (by rw [hg]) own
    exact ⟨grants, hl.trans (by rw [hg])⟩

/-- A search goes on at dispatch when its slot may work, or when a best-effort quantum of it fits (R57, R60). -/
def State.searchGoes (s : State) (x : Search) (c : Corpus) : Prop :=
  (∃ n, x.slot = some n ∧ s.mayWork n x.arrive = true) ∨ (x.slot = none ∧ s.bestEffort = true ∧
    (s.searchUnits x.comp (searchLoad x.req c).1 (tileCount (s.compTiles x.comp)) ((x.bytes + 31) / 32)).isSome = true ∧
    lookD s.rq.beBytes x.comp 0 + x.bytes ≤ s.pdNum 0x3352 x.comp)

/-- A search starts on a corpus. -/
def State.startSearch (s : State) (x : Search) (q : Option Nat) (c : Corpus) (formula : Rat) (left : Nat) : State :=
  s.setSearch x.id fun y => { y with running := true, queue := q, snap := some c, begun := s.timer, formula, left }

theorem startSearch_rq {s : State} {x : Search} (h : s.rq.searches = [x]) (q : Option Nat) (c : Corpus) (formula : Rat) (left : Nat) :
    (s.startSearch x q c formula left).rq =
      { s.rq with searches := [{ x with running := true, queue := q, snap := some c, begun := s.timer, formula, left }] } := setSearch_rq h _

/-- The bytes of a best-effort search count against those of the step (R60). -/
def State.spendSearch (s : State) (x : Search) : State := { s with rq := { s.rq with beBytes := bump s.rq.beBytes x.comp x.bytes } }

/-- What dispatch makes of a search that goes on: in its slot with the stripes it is granted, or as a best-effort quantum. -/
theorem dispatchSearch_goes {s : State} {x : Search} {q : Option Nat} {c : Corpus} (open_ : s.noAdmission = false) (waits : x.running = false)
    (path : s.pathOf x.src x.comp x.job x.req.env.rnode = some q) (held : s.phs.held = false)
    (named : s.namedCorpus x.job x.comp x.req.env.ctx = .inr c) (goes : s.searchGoes x c) :
    ∃ formula left, s.dispatchSearch x =
      if x.slot.isSome then ((s.startSearch x q c formula left).grantWays x.id (scanWays x.req c)).readSketches x.req c
      else ((s.spendSearch x).startSearch x q c formula left).readSketches x.req c := by
  unfold State.dispatchSearch
  rw [if_neg (by simp [waits, open_]), path]
  dsimp only
  rw [if_neg (by simp [held]), named]
  dsimp only
  rcases goes with ⟨n, slot, may⟩ | ⟨slot, be, fits, room⟩
  · rw [slot]
    dsimp only [Option.elim_some, Option.isSome_some]
    rw [if_neg (by simp [may])]
    exact ⟨_, _, rfl⟩
  · rw [slot]
    dsimp only [Option.elim_none, Option.isSome_none]
    exact ⟨_, _, (if_neg (by simp [be, fits, room])).trans rfl⟩

/-- Dispatch starts the search on the corpus as it stands (R128). -/
theorem dispatchSearch_starts {s : State} {x : Search} {q : Option Nat} {c : Corpus} (open_ : s.noAdmission = false)
    (one : s.rq.searches = [x]) (waits : x.running = false) (path : s.pathOf x.src x.comp x.job x.req.env.rnode = some q)
    (held : s.phs.held = false) (named : s.namedCorpus x.job x.comp x.req.env.ctx = .inr c) (goes : s.searchGoes x c) :
    (s.dispatchSearch x).rq.corpora = s.rq.corpora ∧ ∃ y, (s.dispatchSearch x).rq.searches = [y] ∧ y.id = x.id ∧ y.running = true ∧
      y.snap = some c ∧ y.queue = q ∧ y.begun = s.timer := by
  obtain ⟨formula, left, h⟩ := dispatchSearch_goes open_ waits path held named goes
  rw [h]
  split
  · obtain ⟨grants, hg⟩ := grantWays_rq (s := s.startSearch x q c formula left) (congrArg ReqSt.searches (startSearch_rq one ..)) rfl
      (scanWays x.req c)
    rw [readSketches_rq, hg, startSearch_rq one]
    exact ⟨rfl, _, rfl, rfl, rfl, rfl, rfl, rfl⟩
  · rw [readSketches_rq, startSearch_rq (s := s.spendSearch x) one]
    exact ⟨rfl, _, rfl, rfl, rfl, rfl, rfl, rfl⟩

theorem lateBreach_rq (s : State) (src : Source) (env : Envelope) (q : Option Nat) (job comp cls : Nat) (slot breach : Option Nat) (limit : Nat) :
    (s.lateBreach src env q job comp cls slot breach limit).2.rq = s.rq :=
  Within.keeps (l := [.rq]) (p := .rq) (by apply State.lateBreach_within (hs := .refl _ s) <;> rfl) (by simp)

theorem donePlace_rq (s : State) (slot : Nat) (p : Phase) : (s.donePlace slot p).rq = s.rq :=
  Within.keeps (l := [.rq]) (p := .rq) (by apply State.donePlace_within (hs := .refl _ s); rfl) (by simp)

theorem ratio_rq (s : State) (cls begun : Nat) (formula : Rat) : (s.ratio cls begun formula).rq = s.rq :=
  Within.keeps (l := [.rq]) (p := .rq) (by apply State.ratio_within (hs := .refl _ s); rfl) (by simp)

/-- Settles O27, from what queues, starts and ends a search. -/
theorem searchesRunOnTheCorpusAtDispatch : Obligations.SearchesRunOnTheCorpusAtDispatch := by
  unfold Obligations.SearchesRunOnTheCorpusAtDispatch
  intro s t u
  have hrq : u.rq = s.rq := arrive_rq s t
  have hreq (id : Nat) : u.req? id = s.req? id := by unfold u; rw [arrive_eq]; rfl
  refine ⟨fun src r job comp c ready open_ of path serves corpus mapped own kind fields epoch admitted => ?_,
    fun x sec q c open_ idle one waits path held corpus mapped own goes => ?_, fun x c one snap going scanned => ⟨fun all => ?_, fun rest => ?_⟩⟩
  · have named : u.namedCorpus job comp r.env.ctx = .inr c := (arrive_namedCorpus ..).trans (namedCorpus_of corpus mapped own)
    have hexec : exec (.search t src r) s = .next (u.search src r) := by
      change execSearch t src r s = _
      unfold execSearch
      simp [ready, open_, u]
    obtain ⟨x, h, hx⟩ := search_queued of path serves named kind fields epoch admitted
    rw [hrq] at h hx
    exact .of_exec hexec (by rw [h]; exact ⟨rfl, rfl, x, rfl, hx⟩)
  · have named : u.namedCorpus x.job x.comp x.req.env.ctx = .inr c := (arrive_namedCorpus ..).trans (namedCorpus_of corpus mapped own)
    have hexec : exec (.requestDispatch t x.id sec) s = .next (u.dispatchSearch x) := by
      have hnone : u.req? x.id = none := by rw [hreq, State.req?, idle]; rfl
      change execRequestDispatch t x.id sec s = _
      unfold execRequestDispatch
      simp [u, hnone, one]
    have hgo : u.searchGoes x c := by
      rw [State.searchGoes, hrq, arrive_bestEffort, arrive_pdNum]; exact goes
    have := dispatchSearch_starts ((arrive_noAdmission s t).trans open_) (by rw [hrq]; exact one) waits path
      (by rw [State.arrive_phs]; exact held) named hgo
    rw [hrq] at this
    exact .of_exec hexec this
  · have hexec : exec (.searchComplete t x.id) s = execSearchComplete t x.id s := rfl
    unfold execSearchComplete at hexec
    have hfind : u.rq.searches.find? (fun y => y.id == x.id) = some x := by simp [hrq, one]
    dsimp only at hexec
    rw [hfind] at hexec
    dsimp only at hexec
    rw [snap] at hexec
    dsimp only at hexec
    rw [if_neg (by simp [going, scanned]), if_neg (by simp [all])] at hexec
    refine .of_exec hexec ?_
    rw [sendFlag_rq, sendResult_rq]
    cases hslot : x.slot with
    | none => simp [ratio_rq, lateBreach_rq, one]
    | some n => simp [ratio_rq, donePlace_rq, lateBreach_rq, one]
  · have hexec : exec (.searchComplete t x.id) s = execSearchComplete t x.id s := rfl
    unfold execSearchComplete at hexec
    rw [hexec]
    simp [u, one, snap, going, scanned, rest]

/-! ### What work leaves of the node, of its Phase source, of the master's recovery, and of the slots

Seals, appends and records move the Phase unit, the recovery state, the schedule and the boot state as a whole. Of these they keep the
fields below. -/

/-- The node, the source of its Phase, and what the master notes of a recovery. -/
def State.mastered (s : State) : Nat × Nat × List (Nat × Nat) × Bool × List Notice × List Nat :=
  (s.nodeId, s.phs.src, s.rel.waiting, s.rel.restarted, s.rel.notices, s.rel.unreach)

/-- When a slot started, and whether it has ended. -/
def SlotRun.course (r : SlotRun) : Nat × Bool × Nat × Bool := (r.slot, r.started, r.since, r.ended)

/-- Every slot of the layer keeps its course, and so does a slot that alone is carried over from an earlier one. -/
structure CourseKept (s t : State) : Prop where
  course : ∀ n, (t.slotRun n).course = (s.slotRun n).course
  carry  : ∀ r, s.sch.carry = [r] → ∃ x, t.sch.carry = [x] ∧ x.course = r.course

theorem CourseKept.of_runs {s t : State} (runs : t.sch.runs = s.sch.runs) (carry : t.sch.carry = s.sch.carry) : CourseKept s t :=
  ⟨fun n => by rw [State.slotRun, runs]; rfl, fun r hr => ⟨r, carry.trans hr, rfl⟩⟩

theorem CourseKept.of_sch {s t : State} (sch : t.sch = s.sch) : CourseKept s t := .of_runs (by rw [sch]) (by rw [sch])

theorem CourseKept.of_within {s t : State} (h : Within (keeping [.sch]) s t) : CourseKept s t := .of_sch (h.keeps (p := .sch) (by simp))

theorem CourseKept.refl (s : State) : CourseKept s s := .of_sch rfl

theorem CourseKept.trans {a b c : State} (h : CourseKept a b) (k : CourseKept b c) : CourseKept a c :=
  ⟨fun n => (k.course n).trans (h.course n), fun r hr =>
    have ⟨x, hx, ex⟩ := h.carry r hr
    have ⟨y, hy, ey⟩ := k.carry x hx
    ⟨y, hy, ey.trans ex⟩⟩

theorem CourseKept.foldl {α : Type} {a b : State} {f : State → α → State} {l : List α} (h : CourseKept a b)
    (k : ∀ s x, CourseKept s (f s x)) : CourseKept a (l.foldl f b) := by
  induction l generalizing b with
  | nil => exact h
  | cons x l ih => exact ih (h.trans (k b x))

/-- The slots keep their courses; the node, its Phase source and the recovery stand. -/
structure Kept (s t : State) : Prop extends CourseKept s t where
  mastered : t.mastered = s.mastered

theorem Kept.of_runs {s t : State} (h : t.mastered = s.mastered) (runs : t.sch.runs = s.sch.runs) (carry : t.sch.carry = s.sch.carry) :
    Kept s t := ⟨.of_runs runs carry, h⟩

theorem Kept.of_sch {s t : State} (h : t.mastered = s.mastered) (sch : t.sch = s.sch) : Kept s t := .of_runs h (by rw [sch]) (by rw [sch])

theorem Kept.of_within {s t : State} (h : Within (keeping [.boot, .phs, .rel, .sch]) s t) : Kept s t := by
  have hboot : t.boot = s.boot := h.keeps (p := .boot) (by simp)
  have hphs : t.phs = s.phs := h.keeps (p := .phs) (by simp)
  have hrel : t.rel = s.rel := h.keeps (p := .rel) (by simp)
  exact .of_sch (by rw [State.mastered, State.nodeId, hboot, hphs, hrel]; rfl) (h.keeps (p := .sch) (by simp))

theorem Kept.refl (s : State) : Kept s s := .of_sch rfl rfl

theorem Kept.trans {a b c : State} (h : Kept a b) (k : Kept b c) : Kept a c :=
  ⟨h.toCourseKept.trans k.toCourseKept, k.mastered.trans h.mastered⟩

theorem Kept.ite {a b c : State} {p : Prop} [Decidable p] (h : Kept a b) (k : Kept a c) : Kept a (if p then b else c) := by
  split
  · exact h
  · exact k

theorem Kept.foldl {α : Type} {a b : State} {f : State → α → State} {l : List α} (h : Kept a b) (k : ∀ s x, Kept s (f s x)) :
    Kept a (l.foldl f b) := by
  induction l generalizing b with
  | nil => exact h
  | cons x l ih => exact ih (h.trans (k b x))

/-! ### Ring contributions and seals (R94, R412, R425) -/

theorem setPg_kept (s : State) (f : PageSt → PageSt) : Kept s (s.setPg f) := .of_sch rfl rfl

theorem setTier_kept (s : State) (x : TierSt) : Kept s { s with tier := x } := .of_sch rfl rfl

theorem setRq_kept (s : State) (x : ReqSt) : Kept s { s with rq := x } := .of_sch rfl rfl

theorem setComp_kept (s : State) (c : Nat) (f : Comp → Comp) : Kept s (s.setComp c f) :=
  .of_within (by apply State.setComp_within (hs := .refl _ s); rfl)

theorem countC_kept (s : State) (c index sub n : Nat) : Kept s (s.countC c index sub n) := .of_sch rfl rfl

theorem store_kept (s : State) (npa : Nat) (bytes : List Byte) : Kept s (s.store npa bytes) :=
  .of_within (by apply State.store_within (h := .refl _ s) <;> rfl)

theorem ringQueue_kept (s : State) (c : Nat) (breach : Bool) (bytes : List Byte) : Kept s (s.ringQueue c breach bytes) :=
  .of_within (by apply State.ringQueue_within (hs := .refl _ s); rfl)

theorem count_kept (s : State) (index sub : Nat) : Kept s (s.count index sub) := .of_sch rfl rfl

theorem setRmo_kept (s : State) (x : RmoSt) : Kept s { s with rmo := x } := .of_sch rfl rfl

/-- An event sets at most the alert of the node (R442, R529). -/
theorem event_kept (s : State) (e : Event) : Kept s (s.event e) := by
  unfold State.event
  extract_lets recent bytes size _ a b c _ d
  split
  · exact count_kept ..
  have hb : Kept s b := by
    have ha : Kept s a := .of_sch rfl rfl
    unfold b
    split
    · exact .ite (ha.trans (ringQueue_kept ..)) ha
    · exact ha
  split
  · exact hb.trans (count_kept ..)
  have hc : Kept s c := hb.trans (.of_sch rfl rfl)
  have hd : Kept s d := .ite (hc.trans (.of_sch rfl rfl)) hc
  exact (hd.trans (store_kept ..)).trans (setRmo_kept ..)

theorem unprotected_kept (s : State) (c job : Nat) : Kept s (s.unprotected c job) := by
  unfold State.unprotected
  split
  · exact .refl s
  · exact (count_kept ..).trans (event_kept ..)

theorem noReply_kept (s : State) (c rnode : Nat) : Kept s (s.noReply c rnode) := (countC_kept ..).trans (event_kept ..)

theorem sendContrib_kept (s : State) (c : Nat) (g : RingCfg) (x : Contrib) (prod : Producer) : Kept s (s.sendContrib c g x prod) :=
  .of_within (by apply State.sendContrib_within (hs := .refl _ s); rfl)

theorem uncontribute_kept (s : State) (key : Nat) : Kept s (s.uncontribute key) := by
  unfold State.uncontribute
  refine Kept.foldl (.of_sch rfl rfl) fun s x => ?_
  split
  · exact sendContrib_kept ..
  · exact .refl s

theorem tryContribute_kept (s : State) (c job ctx stream page key gen kind : Nat) (bytes : List Byte) :
    Kept s (s.tryContribute c job ctx stream page key gen kind bytes).2 := by
  unfold State.tryContribute
  split
  next g k _ _ =>
    dsimp only
    split
    · exact .refl s
    · refine Kept.foldl (Kept.trans ?_ (setComp_kept ..)) fun s x => sendContrib_kept ..
      exact .of_sch rfl rfl
  · exact .refl s

theorem contribute_kept (s : State) (c job ctx stream page key gen kind : Nat) (bytes : List Byte) :
    Kept s (s.contribute c job ctx stream page key gen kind bytes).2 := by
  have h := tryContribute_kept s c job ctx stream page key gen kind bytes
  unfold State.contribute
  dsimp only
  split
  · exact h
  · exact h.trans (unprotected_kept ..)

theorem ringSend_kept (s : State) (c : Nat) (g : RingCfg) (rank : Nat) (b : List Byte) : Kept s (s.ringSend c g rank b) := by
  unfold State.ringSend
  split
  · exact .refl s
  split
  · exact .of_within (by apply State.ringWrite_within (hs := .refl _ s); rfl)
  · exact .of_sch rfl rfl

theorem unpend_kept (s : State) (p : Nat → Nat → Nat → Nat → Bool) : Kept s (s.unpend p) := .of_sch rfl rfl

theorem freeFrameKey_kept (s : State) (key : Nat) : Kept s (s.freeFrameKey key) := by
  unfold State.freeFrameKey
  split
  · exact .refl s
  · refine Kept.trans (Kept.trans ?_ (uncontribute_kept _ key)) (setPg_kept ..)
    exact .of_sch rfl rfl

theorem dropRef_kept (s : State) (pool : Nat) : Kept s (s.dropRef pool) := by
  unfold State.dropRef
  split
  · exact .refl s
  split
  · exact (freeFrameKey_kept ..).trans (.of_within (by apply State.dropPool_within (hs := .refl _ _); rfl))
  · exact .of_within (by apply State.putPool_within (hs := .refl _ s) <;> rfl)

theorem freeDesc_kept (s : State) (d : Desc) : Kept s (s.freeDesc d) := by
  unfold State.freeDesc
  split
  · exact .refl s
  split
  · exact dropRef_kept ..
  · exact freeFrameKey_kept ..

theorem removeCtx_kept (s : State) (job ctx : Nat) : Kept s (s.removeCtx job ctx) := by
  unfold State.removeCtx
  split
  · exact .refl s
  next k _ =>
    have hdir : Kept s (s.adirRemove 0 (ctxKey job ctx)) := .of_within (by apply State.adirRemove_within (hs := .refl _ s); rfl)
    dsimp only
    refine Kept.trans (Kept.trans ?_ (setPg_kept ..)) (setTier_kept ..)
    exact Kept.foldl (hdir.trans (unpend_kept ..)) fun s x => Kept.foldl (.refl s) fun s p => freeDesc_kept ..

theorem setPage_kept (s : State) (job ctx stream page : Nat) (f : Page → Page) : Kept s (s.setPage job ctx stream page f) :=
  .of_within (by apply State.setPage_within (hs := .refl _ s) <;> rfl)

theorem sealInto_kept (s : State) (c job ctx seed stream page : Nat) (x : Strm) (toks : List Token) (tomb spin tpin : Bool) :
    Kept s (s.sealInto c job ctx seed stream page x toks tomb spin tpin).2 := by
  unfold State.sealInto
  dsimp only
  split
  · iterate 5 refine Kept.trans ?_ (countC_kept ..)
    refine Kept.trans (Kept.trans ?_ (store_kept ..)) (contribute_kept ..)
    exact .of_within (by apply State.allocFrame_within (hs := .refl _ s) <;> rfl)
  · iterate 4 refine Kept.trans ?_ (countC_kept ..)
    refine Kept.trans (Kept.trans ?_ (store_kept ..)) (contribute_kept ..)
    exact .of_within (by apply State.allocFrame_within (hs := .refl _ s) <;> rfl)

theorem sealNext_kept (s : State) (job ctx stream : Nat) : Kept s (s.sealNext job ctx stream) := by
  unfold State.sealNext
  split
  · exact .refl s
  split
  · exact .refl s
  split
  · exact .refl s
  next k _ _ x _ _ p toks _ =>
    dsimp only
    refine Kept.trans (sealInto_kept s k.comp job ctx k.seed stream p x toks false false false) (.of_within ?_)
    apply State.sendMirror_within <;> try rfl
    apply State.draw_within <;> try rfl
    apply State.writePage_within <;> try rfl
    apply State.setStrm_within <;> try rfl
    apply State.growTables_within (hs := .refl _ _) <;> rfl

theorem replacePage_kept (s : State) (k : Ctx) (stream page : Nat) (x : Strm) (old : Page) (toks : List Token) (tomb spin : Bool) :
    Kept s (s.replacePage k stream page x old toks tomb spin).2 := by
  unfold State.replacePage
  dsimp only
  refine Kept.trans ?_ (setPage_kept ..)
  exact ((sealInto_kept ..).trans (freeDesc_kept ..)).trans (unpend_kept ..)

theorem genMismatch_kept (s : State) (job ctx stream page want got : Nat) : Kept s (s.genMismatch job ctx stream page want got) := by
  unfold State.genMismatch
  extract_lets comp a
  refine Kept.trans ?_ (event_kept ..)
  unfold a comp
  split
  · exact countC_kept ..
  · exact count_kept ..

theorem pageRewrite_kept (s : State) (src : Source) (k : Ctx) (r : CtxReq) : Kept s (s.pageRewrite src k r).2.1 := by
  unfold State.pageRewrite
  split
  · exact .refl s
  split
  · exact .refl s
  next x _ _ old _ =>
  extract_lets gen
  clear_value gen
  split
  · exact .refl s
  split
  · exact .refl s
  split
  · exact .refl s
  split
  · exact genMismatch_kept ..
  · exact replacePage_kept ..

/-! ### Breach records and results (R55, R58, R60, R124) -/

theorem breach_kept (s : State) (cause : Nat) (slot : Option Nat) (opclass comp late job node tag : Nat) :
    Kept s (s.breach cause slot opclass comp late job node tag) := by
  unfold State.breach
  extract_lets bytes size a b _ c d
  have ha : Kept s a := ringQueue_kept ..
  split
  · exact ha.trans (.of_sch rfl rfl)
  · have hc : Kept a c := .of_sch rfl rfl
    have hd : Kept c d := store_kept ..
    exact (ha.trans hc).trans (.of_runs hd.mastered rfl rfl)

theorem find?_course {f : SlotRun → SlotRun} (hf : ∀ r, (f r).course = r.course) (l : List SlotRun) (n : Nat) :
    (((l.map f).find? fun r => r.slot == n).getD (.idle n)).course = ((l.find? fun r => r.slot == n).getD (.idle n)).course := by
  have hslot : ((fun r : SlotRun => r.slot == n) ∘ f) = fun r => r.slot == n := by
    funext r
    have : (f r).slot = r.slot := congrArg Prod.fst (hf r)
    simp [this]
  rw [List.find?_map, hslot]
  cases l.find? fun r => r.slot == n with
  | none => rfl
  | some r => exact hf r

/-- Noting something of the runs that does not move their courses keeps them. -/
theorem Kept.map {s : State} {f g : SlotRun → SlotRun} (hf : ∀ r, (f r).course = r.course) (hg : ∀ r, (g r).course = r.course) :
    Kept s { s with sch := { s.sch with runs := s.sch.runs.map f, carry := s.sch.carry.map g } } :=
  ⟨⟨find?_course hf s.sch.runs, fun r hr => ⟨g r, by simp [hr], hg r⟩⟩, rfl⟩

theorem tellOver_kept (s : State) (slot : Nat) : Kept s (s.tellOver slot) := by
  have told (r : SlotRun) : (if r.slot == slot then { r with told := true } else r).course = r.course := by
    split
    · rfl
    · rfl
  exact Kept.map told told

theorem slotRun_slot (s : State) (n : Nat) : (s.slotRun n).slot = n := by
  unfold State.slotRun
  cases h : s.sch.runs.find? fun r => r.slot == n with
  | none => rfl
  | some r => simpa using List.find?_some h

theorem slotRun_setRun (s : State) (r : SlotRun) (n : Nat) : (s.setRun r).slotRun n = if n = r.slot then r else s.slotRun n := by
  unfold State.slotRun State.setRun
  dsimp only
  split
  next h => simp [h]
  next h =>
    rw [List.find?_cons_of_neg (by simpa using Ne.symm h), List.find?_filter]
    congr 2
    funext x
    by_cases e : x.slot = n
    · simp [e, h]
    · simp [e]

theorem setRun_kept {s : State} {r : SlotRun} (h : r.course = (s.slotRun r.slot).course) : Kept s (s.setRun r) := by
  refine ⟨⟨fun n => ?_, fun x hx => ⟨x, hx, rfl⟩⟩, rfl⟩
  rw [slotRun_setRun]
  split
  next e => rw [e, h]
  · rfl

/-- The record of a slot, of this layer or of an earlier one, changed but for its course (R62). -/
theorem setRunAt_kept (s : State) (slot : Nat) (p : Phase) {f : SlotRun → SlotRun} (hf : ∀ r, (f r).course = r.course) :
    Kept s (s.setRunAt p (f (s.runAt slot p))) := by
  have hslot (r : SlotRun) : (f r).slot = r.slot := congrArg Prod.fst (hf r)
  unfold State.setRunAt State.runAt
  split
  · exact setRun_kept (by rw [hf, hslot, slotRun_slot])
  · refine ⟨⟨fun n => rfl, fun r hr => ?_⟩, rfl⟩
    by_cases e : r.slot = slot
    · exact ⟨f r, by simp [hr, e, hslot, mapIf], hf r⟩
    · exact ⟨r, by simp [hr, e, hslot, mapIf, SlotRun.idle], rfl⟩

theorem donePlace_kept (s : State) (slot : Nat) (p : Phase) : Kept s (s.donePlace slot p) :=
  setRunAt_kept s slot p (f := fun r =>
    { r with finished := r.finished + 1, late := r.late || (r.started && decide (0 < s.ticksTo r.fin (s.tickOf s.phase))) }) fun _ => rfl

theorem ratio_kept (s : State) (cls begun : Nat) (formula : Rat) : Kept s (s.ratio cls begun formula) := by
  unfold State.ratio
  split
  · exact .refl s
  · exact .of_runs rfl rfl rfl

theorem lateBreach_kept (s : State) (src : Source) (env : Envelope) (q : Option Nat) (job comp cls : Nat) (slot breach : Option Nat)
    (limit : Nat) : Kept s (s.lateBreach src env q job comp cls slot breach limit).2 := by
  unfold State.lateBreach
  extract_lets now record past t beyond held
  have ht : Kept s t := .ite (breach_kept ..) (.refl s)
  exact .ite ((ht.trans (breach_kept ..)).trans (tellOver_kept ..)) ht

theorem setReq_kept (s : State) (id : Nat) (f : Req → Req) : Kept s (s.setReq id f) := .of_sch rfl rfl

theorem fbAny_kept (s : State) (b : Bool) : Kept s { s with phs := { s.phs with fbAny := b } } := .of_sch rfl rfl

theorem sendFlag_kept (s : State) (src : Source) (env : Envelope) (q : Option Nat) (st : Status) (n : Nat) (contract : Bool) (prod : Producer) :
    Kept s (s.sendFlag src env q st n contract prod) :=
  .of_within (by apply State.sendFlag_within (hs := .refl _ s) <;> rfl)

theorem flush_kept (s : State) (id : Nat) : Kept s (s.flush id) := by
  unfold State.flush
  split
  · exact .refl s
  next r _ =>
  have hsent : Kept s (s.sendBlocks r r.secs r.bytes).1 := .of_within (by apply State.sendBlocks_within (hs := .refl _ s) <;> rfl)
  split
  · exact .refl s
  dsimp only
  have hfinal (f : Req → Req) := hsent.trans (setReq_kept _ id f)
  exact .ite (Kept.trans (.ite (((hfinal _).trans (sendFlag_kept ..)).trans (fbAny_kept ..)) ((hfinal _).trans (sendFlag_kept ..)))
    (setRq_kept ..)) (hfinal _)

theorem endReqAt_kept (s : State) (st : Status) (hint : Option Nat) (r : Req) : Kept s (s.endReqAt st hint r) := by
  unfold State.endReqAt
  extract_lets a b c
  have ha : Kept s a := by
    refine .ite (.refl s) ?_
    split
    · exact setRq_kept ..
    · exact (noReply_kept ..).trans (setRq_kept ..)
  have hb : Kept a b := setRq_kept ..
  exact ((ha.trans hb).trans (flush_kept ..)).trans (setRq_kept ..)

/-! ### Appends and context operations (R85 to R103) -/

theorem endOp_kept (s : State) (src : Source) (env : Envelope) (q : Option Nat) (op : Nat) (st : Status) (v : Nat) (contract : Bool) :
    Kept s (s.endOp src env q op st v contract) :=
  .of_within (by apply State.endOp_within (hs := .refl _ s) <;> rfl)

theorem endAppend_kept (s : State) (p : PendOp) (st : Status) (seq : Nat) : Kept s (s.endAppend p st seq) := by
  have hplace (t : State) : Kept t (match p.slot with | some n => t.donePlace n p.arrive | none => t) := by
    split
    · exact donePlace_kept ..
    · exact .refl t
  unfold State.endAppend
  dsimp only
  generalize (st == .ok || st == .contractBreach) = done
  cases done with
  | true => exact ((((lateBreach_kept ..).trans (endOp_kept ..)).trans (hplace _)).trans (ratio_kept ..))
  | false => exact (endOp_kept ..).trans (hplace _)

theorem writeSilt_kept (s : State) (job ctx stream : Nat) : Kept s (s.writeSilt job ctx stream) :=
  .of_within (by apply State.writeSilt_within (hs := .refl _ s) <;> rfl)

theorem setStrm_kept (s : State) (job ctx stream : Nat) (f : Strm → Strm) : Kept s (s.setStrm job ctx stream f) :=
  .of_within (by apply State.setStrm_within (hs := .refl _ s); rfl)

theorem draw_kept (s : State) : Kept s s.draw.2 := .of_sch rfl rfl

theorem sendMirror_kept (s : State) (c : Nat) (bytes : List Byte) (prod : Producer) (contract : Bool) (due : Phase) :
    Kept s (s.sendMirror c bytes prod contract due).2 :=
  .of_within (by apply State.sendMirror_within (hs := .refl _ s) <;> rfl)

theorem applyAppend_kept (s : State) (k : Ctx) (x : Strm) (p : PendOp) : Kept s (s.applyAppend k x p) := by
  unfold State.applyAppend
  extract_lets now a b c
  have hc : Kept s c := by
    have hb : Kept s b := (setStrm_kept ..).trans (writeSilt_kept ..)
    exact .ite ((hb.trans (countC_kept ..)).trans (breach_kept ..)) hb
  dsimp only
  split
  · exact ((hc.trans (draw_kept c)).trans (sendMirror_kept ..)).trans (setPg_kept ..)
  · exact hc.trans (endAppend_kept ..)

theorem runAppend_kept (s : State) (k : Ctx) (p : PendOp) : Kept s (s.runAppend k p).2 := by
  unfold State.runAppend
  split
  · dsimp only; exact endAppend_kept ..
  next x _ =>
  split
  · exact Kept.trans (.ite (countC_kept ..) (.refl s)) (endAppend_kept ..)
  next x' _ =>
  split
  · dsimp only; exact setPg_kept ..
  split
  · dsimp only; exact applyAppend_kept ..
  split
  · dsimp only
    refine Kept.trans (b := s.recallStreams k [p.req.stream] none []) (.of_within ?_) (setPg_kept ..)
    apply State.recallStreams_within (hs := .refl _ s) <;> rfl
  extract_lets y a b c q
  have hb : Kept s b := by
    have ha : Kept s a := (setStrm_kept ..).trans (writeSilt_kept ..)
    change Kept s (List.foldl _ a (List.range 4))
    exact Kept.foldl ha fun _ _ => sealNext_kept ..
  have hc : Kept s c := by
    refine hb.trans (.of_within ?_)
    apply State.releaseAll_within <;> try rfl
    apply State.countPages_within (hs := .refl _ _) <;> rfl
  clear_value c
  split
  · split
    · exact hc.trans (applyAppend_kept ..)
    · dsimp only; exact hc.trans (setPg_kept ..)
  · exact hc

theorem finishOp_kept (s : State) (src : Source) (env : Envelope) (q : Option Nat) (op : Nat) (st : Status) (comp : Nat) (b : List Byte) :
    Kept s (s.finishOp src env q op st comp b) :=
  .of_within (by apply State.finishOp_within (hs := .refl _ s) <;> rfl)

theorem ctxFork_kept (s : State) (src : Source) (job comp : Nat) (r : CtxReq) : Kept s (s.ctxFork src job comp r).2.1 := by
  unfold State.ctxFork
  split
  · split
    · exact genMismatch_kept ..
    · exact .refl s
  · exact .refl s
  · exact .refl s
  · refine .of_within ?_
    apply State.enterCtx_within <;> try rfl
    apply State.growStreams_within <;> try rfl
    apply State.newStreams_within <;> try rfl
    apply State.forkStreams_within <;> try rfl
    apply State.place_within (hs := .refl _ s); rfl

theorem runOp_kept (s : State) (p : PendOp) : Kept s (s.runOp p).2 := by
  unfold State.runOp
  split
  extract_lets q r a close
  have ha : Kept s a := .of_within (by apply State.adirStall_within (hs := .refl _ s); rfl)
  have hclose {x : Status × State × List Byte} (h : Kept a x.2.1) : Kept s (close x).2 := (ha.trans h).trans (finishOp_kept ..)
  split
  · exact hclose (.of_within (by apply State.ctxCreate_within (hs := .refl _ a) <;> rfl))
  split
  · exact hclose (ctxFork_kept ..)
  split
  · exact ha.trans (endOp_kept ..)
  split
  · exact hclose (removeCtx_kept ..)
  split
  · exact ha.trans (runAppend_kept ..)
  split
  · exact hclose (.of_within (by apply State.pageMark_within (hs := .refl _ a) <;> rfl))
  split
  · exact hclose (pageRewrite_kept ..)
  · exact ha.trans (endOp_kept ..)

theorem drainOps_kept (s : State) : Kept s s.drainOps :=
  Kept.foldl (.refl s) fun _ _ => .ite ((setPg_kept ..).trans (runOp_kept ..)) (.refl _)

/-! ### The work of slots (R53, R62, R93, R260) -/

theorem sealTile_kept (s : State) (c tile n : Nat) : Kept s (s.sealTile c tile n).2 := by
  induction n generalizing s with
  | zero => exact .refl s
  | succ n ih =>
    unfold State.sealTile
    split
    · exact .refl s
    · exact (sealNext_kept ..).trans (ih _)

/-- Noting how many pages a tile has sealed moves no run. -/
theorem setSealed_kept (s : State) (l : List (Nat × Nat × Nat)) : Kept s { s with sch := { s.sch with sealed := l } } :=
  .of_runs rfl rfl rfl

theorem flushSlot_kept (s : State) (id : Nat) (e : Slot) : Kept s (s.flushSlot id e) := by
  have hrecall (t : State) (tile : Nat) : Kept t (t.recallSeals e.comp tile) :=
    .of_within (by apply State.recallSeals_within (hs := .refl _ t) <;> rfl)
  unfold State.flushSlot
  exact Kept.foldl (.refl s) fun t tile => ((hrecall t tile).trans (sealTile_kept ..)).trans (setSealed_kept ..)

theorem enqueue_kept (s : State) (q : Nat) (m : Msg) : Kept s (s.enqueue q m) :=
  .of_within (by apply State.enqueue_within (hs := .refl _ s); rfl)

theorem foldl_fst_kept {α β : Type} {a : State} {b : State × β} {f : State × β → α → State × β} {l : List α} (h : Kept a b.1)
    (k : ∀ s x, Kept s.1 (f s x).1) : Kept a (l.foldl f b).1 := by
  induction l generalizing b with
  | nil => exact h
  | cons x l ih => exact ih (h.trans (k b x))

theorem streamLayer_kept (s : State) (nn slot : Nat) (e : Slot) : Kept s (s.streamLayer nn slot e) := by
  unfold State.streamLayer
  extract_lets p now l layer allowed buf due base send
  have hsend (t : State) (off : Nat) (b : List Byte) : Kept t (send t off b) := enqueue_kept ..
  split
  next gs nosel exceeds _ =>
  extract_lets msgs fit st header hard head a b c d f g limit _ h w
  have ha : Kept s a := Kept.foldl (.refl s) fun t (x : Nat × Nat × Cat) => by
    split
    · exact .of_within (by apply State.readChunks_within (hs := .refl _ t); rfl)
    · exact .refl t
  have hb : Kept s b := .ite (ha.trans (countC_kept ..)) ha
  have hc : Kept s c := .ite (hb.trans (breach_kept ..)) hb
  have hd : Kept s d := .ite hc (hc.trans (hsend ..))
  have hf : Kept s f := foldl_fst_kept hd fun t m => hsend ..
  have hg : Kept s g := .ite hf (hf.trans (.of_within (by apply State.noteHeat_within (hs := .refl _ f); rfl)))
  have hh : Kept s h := .ite hg (hg.trans (setTier_kept ..))
  exact hh.trans (setTier_kept ..)

theorem streamSlot_kept (s : State) (slot : Nat) (e : Slot) : Kept s (s.streamSlot slot e) :=
  Kept.foldl (.refl s) fun t nn => streamLayer_kept t nn slot e

theorem inherit_kept (s : State) (slot : Nat) (e : Slot) (delay : Nat) : Kept s (s.inherit slot e delay) := by
  unfold State.inherit
  extract_lets told late a
  exact Kept.foldl (breach_kept ..) fun t x => (breach_kept ..).trans (tellOver_kept ..)

/-- Whatever a slot does, the slots keep their courses. -/
theorem slotWork_courseKept (s : State) (slot : Nat) (e : Slot) : CourseKept s (s.slotWork slot e) := by
  unfold State.slotWork
  extract_lets bytes
  split
  · exact .refl s
  split
  · exact (flushSlot_kept ..).toCourseKept
  · exact (streamSlot_kept ..).toCourseKept
  · exact .of_within (by apply State.recallSlot_within (hs := .refl _ s) <;> rfl)
  · split
    · exact .of_within (by apply State.tampRun_within (hs := .refl _ s) <;> rfl)
    · exact .foldl (.refl s) fun t _ => .of_within (by apply State.relocate_within (hs := .refl _ t) <;> rfl)
  · exact .of_within (by apply State.scrubBytes_within (hs := .refl _ s); rfl)
  · refine .of_within ?_
    apply State.reseal_within <;> try rfl
    apply State.migrateRun_within (hs := .refl _ s) <;> rfl
  · refine .foldl (.foldl (.refl s) fun t n => .of_within ?_) fun t _ => .of_within ?_
    · apply State.startPiece_within (hs := .refl _ t) <;> rfl
    · apply State.contributeLater_within (hs := .refl _ t) <;> rfl
  · exact .refl s

/-! ### Slots, quanta and latches (R53, R60, R62, R398) -/

theorem govern_courseKept (s : State) : CourseKept s s.govern := .of_within (by apply State.govern_within (hs := .refl _ s) <;> rfl)

/-- The work of a slot and what waits for its tiles, once it has started. -/
def State.slotWorks (s : State) (slot : Nat) (e : Slot) : State := (s.slotWork slot e).drainOps.govern

theorem slotWorks_courseKept (s : State) (slot : Nat) (e : Slot) : CourseKept s (s.slotWorks slot e) :=
  ((slotWork_courseKept ..).trans (drainOps_kept _).toCourseKept).trans (govern_courseKept _)

/-- The record of a start more than 2 ticks late, behind no overrun (R53). -/
def State.recordLate (s : State) (slot : Nat) (e : Slot) : State :=
  if e.start + 2 < phTick s.phase ∧ s.compServes e.comp then
    s.breach 5 (some slot) e.opclass e.comp (phTick s.phase - e.start) (s.jobOf e.comp) s.nodeId 0
  else s

/-- A slot of the layer is noted as started, with the end of its span. -/
def State.startRun (s : State) (slot fin : Nat) : State :=
  let s := s.setRun { s.slotRun slot with started := true, since := s.timer, fin }
  { s with pwr := { s.pwr with rises := s.pwr.rises.erase slot } }

theorem startRun_course (s : State) (slot fin : Nat) :
    ((s.startRun slot fin).slotRun slot).course = (slot, true, s.timer, (s.slotRun slot).ended) := by
  have h : (s.startRun slot fin).slotRun slot = { s.slotRun slot with started := true, since := s.timer, fin } :=
    (slotRun_setRun s _ slot).trans (if_pos (slotRun_slot s slot).symm)
  rw [h, SlotRun.course, slotRun_slot]

/-- Nothing of an earlier slot holds the tiles of a slot that has not started, when none shares them. -/
theorem kept_of_alone {s : State} {slot : Nat} {e : Slot} (idle : (s.slotRun slot).started = false) (near : s.sharers slot e = [])
    (far : s.sharersOver e = []) : s.kept 4096 e = false := by
  have none (a : Nat × Slot) (h : a ∈ s.sharers 4096 e) : False := by
    have : a ∈ s.sharers slot e := by
      simp only [State.sharers, List.mem_filter, Bool.and_eq_true] at h ⊢
      obtain ⟨hmem, ⟨⟨-, htiles⟩, hearly⟩, hrun⟩ := h
      refine ⟨hmem, ⟨⟨?_, htiles⟩, hearly⟩, hrun⟩
      by_contra same
      rw [show a.1 = slot by simpa using same, idle] at hrun
      simp at hrun
    rw [near] at this
    simp at this
  rw [State.kept, List.eq_nil_iff_forall_not_mem.2 fun a h => none a h, far]
  rfl

theorem slotStart_alone {s : State} {t slot : Nat} {e : Slot} (ready : s.ready = true)
    (carried : ∀ r ∈ s.sch.carry, r.slot = slot → r.started = false → r.ended = true)
    (found : (s.arrive t).slotsNow.find? (fun e => e.1 == slot) = some (slot, e)) (held : s.phs.held = false) (stage : s.pwr.stage < 6)
    (idle : (s.slotRun slot).started = false) (due : e.start ≤ phTick (s.arrive t).phase + 2)
    (free : (s.arrive t).spanTaken slot e.tiles = false) (near : (s.arrive t).sharers slot e = []) (far : (s.arrive t).sharersOver e = []) :
    ∃ fin, execSlotStart t slot s = .next ((((s.arrive t).recordLate slot e).startRun slot fin).slotWorks slot e) := by
  have hnone : (s.arrive t).sch.carry.find? (fun r => r.slot == slot && !r.started && !r.ended) = none := by
    rw [List.find?_eq_none, arrive_sch]
    intro r hr
    have := carried r hr
    simp only [Bool.and_eq_true, beq_iff_eq, Bool.not_eq_true', not_and, Bool.not_eq_false]
    exact fun h => this h.1 h.2
  have hidle : ((s.arrive t).slotRun slot).started = false := by rw [← idle, arrive_eq]; rfl
  unfold execSlotStart
  dsimp only
  rw [hnone]
  dsimp only
  rw [found]
  dsimp only
  rw [if_neg (by simp [ready, held, hidle, free]; omega), near, far]
  dsimp only [List.foldl_nil, List.any_nil]
  exact ⟨_, (if_neg (by simp [kept_of_alone hidle near far])).trans rfl⟩

theorem recordLate_kept (s : State) (slot : Nat) (e : Slot) : Kept s (s.recordLate slot e) := .ite (breach_kept ..) (.refl s)

theorem recordLate_timer (s : State) (slot : Nat) (e : Slot) : (s.recordLate slot e).timer = s.timer := by
  unfold State.recordLate
  split
  · exact (breach_clockKept ..).timer
  · rfl

/-! A slot that was kept from starting (R62). -/

theorem inherit_timer (s : State) (slot : Nat) (e : Slot) (delay : Nat) : (s.inherit slot e delay).timer = s.timer :=
  Within.keeps (l := [.timer]) (p := .timer) (by apply State.inherit_within (hs := .refl _ s) <;> rfl) (by simp)

/-- The carried slot is noted as started. -/
def State.startCarried (s : State) (slot : Nat) : State :=
  { s with sch := { s.sch with carry := mapIf (fun x => x.slot == slot) (fun x => { x with started := true, since := s.timer }) s.sch.carry } }

/-- A carried slot that alone is carried gives way to no other. -/
theorem startLate_alone {s : State} {r : SlotRun} (e : Slot) (alone : s.sch.carry = [r]) :
    ∃ delay, s.startLate r e = ((s.inherit r.slot e delay).startCarried r.slot).slotWorks r.slot e := by
  have hnone : (s.sharersOver e).foldl (fun (s : State) x =>
      if x.slot = r.slot then s else s.evict false x.slot (s.ticksTo x.fin (s.tickOf s.phase)).toNat) s = s := by
    unfold State.sharersOver
    rw [alone, List.filter_cons]
    split
    · simp
    · rfl
  unfold State.startLate
  dsimp only
  rw [hnone]
  exact ⟨_, rfl⟩

theorem slotStart_carried {s : State} {t : Nat} {r : SlotRun} {e : Slot} (ready : s.ready = true) (alone : s.sch.carry = [r])
    (idle : r.started = false) (open_ : r.ended = false)
    (found : (s.arrive t).slots.find? (fun e => e.1 == r.slot) = some (r.slot, e)) (held : s.phs.held = false) (stage : s.pwr.stage < 6)
    (free : (s.arrive t).spanTaken 4096 e.tiles = false) (kept : (s.arrive t).kept r.slot e = false) :
    execSlotStart t r.slot s = .next ((s.arrive t).startLate r e) := by
  have hfind : (s.arrive t).sch.carry.find? (fun x => x.slot == r.slot && !x.started && !x.ended) = some r := by
    rw [arrive_sch, alone]
    simp [idle, open_]
  unfold execSlotStart
  dsimp only
  rw [hfind, found]
  dsimp only
  rw [if_neg (by simp [ready, held, free, kept]; omega)]

/-! The end of a slot (R60). -/

/-- A slot that flushes no tokens ends (R60). -/
theorem slotEnd_eq {s : State} {t slot : Nat} {e : Slot} (ready : s.ready = true)
    (found : (s.arrive t).slotsNow.find? (fun e => e.1 == slot) = some (slot, e)) (started : (s.slotRun slot).started = true)
    (open_ : (s.slotRun slot).ended = false) (past : e.start + e.span ≤ phTick (s.arrive t).phase)
    (carried : ∀ r ∈ s.sch.carry, r.slot = slot → r.started = true → r.ended = true) :
    execSlotEnd t slot s = .next ((s.arrive t).endSlot slot e) := by
  have hnone : (s.arrive t).sch.carry.find? (fun r => r.slot == slot && r.started && !r.ended) = none := by
    rw [List.find?_eq_none, arrive_sch]
    intro r hr
    have := carried r hr
    simp only [Bool.and_eq_true, beq_iff_eq, Bool.not_eq_true', not_and, Bool.not_eq_false]
    exact fun h => this h.1 h.2
  have hrun : (s.arrive t).slotRun slot = s.slotRun slot := by rw [arrive_eq]; rfl
  unfold execSlotEnd
  dsimp only
  rw [hnone]
  dsimp only
  rw [found]
  dsimp only
  rw [hrun, if_neg (by simp [ready, started, open_]; omega)]

theorem drainOps_of_none {s : State} (h : s.pg.opq = []) : s.drainOps = s := by rw [State.drainOps, h]; rfl

/-- The end of a slot's work, where no operation waits and the slot is no flush, moves no run, no context and no memory. -/
theorem slotOver_keeps {s : State} (r : SlotRun) {e : Slot} (flush : e.opclass ≠ 4) (idle : s.pg.opq = []) :
    (s.slotOver r e).sch = s.sch ∧ (s.slotOver r e).pg = s.pg ∧ (s.slotOver r e).mem = s.mem := by
  unfold State.slotOver
  extract_lets a b
  have ha : Within (keeping [.sch, .pg, .mem]) s a := .ite (by apply State.dropGrants_within (hs := .refl _ s); rfl) (.refl _ s)
  have hb : Within (keeping [.sch, .pg, .mem]) s b := by apply State.chargeTiles_within (hs := ha) <;> rfl
  have hpg : b.pg = s.pg := hb.keeps (p := .pg) (by simp)
  rw [if_neg flush, drainOps_of_none (by rw [hpg]; exact idle)]
  have hc : Within (keeping [.sch, .pg, .mem]) s b.govern := by apply State.govern_within (hs := hb) <;> rfl
  exact ⟨hc.keeps (p := .sch) (by simp), hc.keeps (p := .pg) (by simp), hc.keeps (p := .mem) (by simp)⟩

/-- A slot that is no flush is noted as ended; where no operation waits, no context and no memory moves. -/
theorem endSlot_keeps {s : State} (slot : Nat) {e : Slot} (flush : e.opclass ≠ 4) (idle : s.pg.opq = []) :
    ((s.endSlot slot e).slotRun slot).ended = true ∧ (s.endSlot slot e).pg = s.pg ∧ (s.endSlot slot e).mem = s.mem := by
  unfold State.endSlot
  rw [if_neg (fun h => flush h.1)]
  obtain ⟨hsch, hpg, hmem⟩ := slotOver_keeps (s := s.setRun { s.slotRun slot with ended := true }) (s.slotRun slot) flush idle
  refine ⟨?_, hpg, hmem⟩
  dsimp only
  rw [State.slotRun, hsch]
  have h := (slotRun_setRun s { s.slotRun slot with ended := true } slot).trans (if_pos (slotRun_slot s slot).symm)
  rw [State.slotRun] at h
  rw [h]

/-! Counter latches (R398). -/

/-- The latched counters, when they were latched, and the records that wait to be copied. -/
def State.latch (s : State) : List (Nat × Nat × Nat) × Nat × List RingRec := (s.pd.latched, s.pd.latchAt, s.rmo.ring)

theorem ringCopy_latch (s : State) (r : RingRec) : (s.ringCopy r).latch = s.latch := by
  have hput (base size : Nat) (b : List Byte) : (s.ringPut base size b).2.latch = s.latch := by
    have h : Within (keeping [.pd, .rmo]) s (s.ringPut base size b).2 := by apply State.ringPut_within (hs := .refl _ s) <;> rfl
    have hpd : (s.ringPut base size b).2.pd = s.pd := h.keeps (p := .pd) (by simp)
    have hrmo : (s.ringPut base size b).2.rmo = s.rmo := h.keeps (p := .rmo) (by simp)
    rw [State.latch, hpd, hrmo]; rfl
  unfold State.ringCopy
  split
  extract_lets base
  split
  · rfl
  dsimp only
  split
  · exact hput ..
  split
  · exact hput ..
  · exact hput ..

theorem ringCopies_latch (l : List RingRec) (s : State) : (l.foldl (fun (s : State) r => s.ringCopy r) s).latch = s.latch := by
  induction l generalizing s with
  | nil => rfl
  | cons r l ih => exact (ih _).trans (ringCopy_latch s r)

/-- The counters are latched once the tiles are charged, and the waiting records leave the node ring (R398). -/
theorem coarseningLatch_eq {s : State} {t : Nat} (ready : s.ready = true) (due : s.pd.latchAt < (s.arrive t).timer / ms) :
    ∃ v, execCoarseningLatch t s = .next v ∧ v.latch = ((s.arrive t).chargeAll.pd.cnt, (s.arrive t).timer / ms, []) := by
  have htimer : (s.arrive t).chargeAll.timer = (s.arrive t).timer :=
    Within.keeps (l := [.timer]) (p := .timer) (by apply State.chargeAll_within (hs := .refl _ _) <;> rfl) (by simp)
  unfold execCoarseningLatch
  dsimp only
  rw [if_neg (by simp [ready]; exact due)]
  refine ⟨_, rfl, ?_⟩
  rw [ringCopies_latch, State.latch]
  dsimp only
  rw [htimer]

/-! Best-effort quanta (R60, R440, R452). -/

theorem scrubBytes_rel (s : State) (c n : Nat) (free : Nat) : (({ s with free } : State).scrubBytes c n).rel = (s.scrubBytes c n).rel := rfl

/-- A quantum with slack that a maintenance act keeps waiting is counted (R440). -/
theorem quantum_waits {s : State} {t c : Nat} {q : Quantum} (ready : s.ready = true) (comp : (s.arrive t).quantumComp q = some c)
    (be : s.bestEffort = true) (slack : (s.arrive t).slack c (quantumClass q) ((s.arrive t).compTiles c)
      (ticksUp ((s.arrive t).boundNs { cls := 8, comp := c, bytes := (s.arrive t).quantumBytes c q } 0 0)) = true) :
    execBestEffortQuantumStart t q s =
      if (quantumAct q).any fun a => (s.arrive t).actWaits a c then .next ((s.arrive t).count 0xA102 0)
      else if !Config.grants s.free then .next ({ s.arrive t with free := s.free + 1 } : State).governorWait
      else .next (({ s.arrive t with free := s.free + 1 } : State).quantum c q) := by
  unfold execBestEffortQuantumStart
  dsimp only
  rw [comp]
  dsimp only
  rw [slack, if_neg (by simp [ready, be])]
  rw [← show (s.arrive t).free = s.free by rw [arrive_eq]]
  rfl

/-- A patrol quantum without its current leaves the scrub state, the contexts, the requests and the tiers. -/
theorem governorWait_keeps (s : State) : Within (keeping [.rq, .pg, .tier, .rel, .free]) s s.governorWait := by
  apply State.governorWait_within (hs := .refl _ s) <;> rfl

/-- Settles O30, by what each of the four events does under its conditions. -/
theorem slotsQuantaAndCounterLatches : Obligations.SlotsQuantaAndCounterLatches := by
  unfold Obligations.SlotsQuantaAndCounterLatches
  intro s t u ready
  have hu : u = { s with timer := u.timer } := arrive_eq s t
  have hcourse (n : Nat) : u.slotRun n = s.slotRun n := by rw [hu]; rfl
  have hsch : u.sch = s.sch := arrive_sch s t
  refine ⟨fun slot e found held stage idle due free near far carried => ?_, fun r e alone idle open_ found held stage free kept => ?_,
    fun slot e found started open_ past flush carried none => ?_, fun q c comp be slack => ⟨fun ⟨a, act, waits⟩ => ?_, fun npa clear scrub => ?_⟩,
    fun due => ?_⟩
  · obtain ⟨fin, hexec⟩ := slotStart_alone ready carried found held stage idle due free near far
    have h := (slotWorks_courseKept ((u.recordLate slot e).startRun slot fin) slot e).course slot
    have hended : ((u.recordLate slot e).slotRun slot).ended = (s.slotRun slot).ended := by
      rw [← hcourse]
      exact congrArg (fun x : Nat × Bool × Nat × Bool => x.2.2.2) ((recordLate_kept u slot e).course slot)
    rw [startRun_course, recordLate_timer, hended] at h
    simp only [SlotRun.course, Prod.mk.injEq] at h
    obtain ⟨-, hstarted, hsince, hend⟩ := h
    exact .of_exec hexec ⟨hstarted, hsince, hend⟩
  · obtain ⟨delay, hlate⟩ := startLate_alone (s := u) e (by rw [hsch]; exact alone)
    have hexec : exec (.slotStart t r.slot) s = .next (u.startLate r e) := slotStart_carried ready alone idle open_ found held stage free kept
    rw [hlate] at hexec
    obtain ⟨x, hx, ex⟩ := (inherit_kept u r.slot e delay).carry r (by rw [hsch]; exact alone)
    have hslot : x.slot = r.slot := congrArg Prod.fst ex
    obtain ⟨y, hy, ey⟩ := (slotWorks_courseKept ((u.inherit r.slot e delay).startCarried r.slot) r.slot e).carry
      { x with started := true, since := u.timer } (by simp [State.startCarried, hx, mapIf, hslot, inherit_timer])
    simp only [SlotRun.course, Prod.mk.injEq] at ey
    obtain ⟨eslot, estarted, esince, -⟩ := ey
    refine .of_exec hexec ?_
    rw [hy, List.map_singleton, eslot, estarted, esince, hslot]
  · have hpg : u.pg = s.pg := by rw [hu]
    obtain ⟨hended, hpg', hmem⟩ := endSlot_keeps (s := u) slot flush (by rw [hpg]; exact none)
    exact .of_exec (slotEnd_eq ready found started open_ past carried) ⟨hended, hpg'.trans hpg, hmem.trans (by rw [hu])⟩
  · refine (quantum_waits ready comp be slack).trans (if_pos ?_)
    rw [act]; exact waits
  · subst scrub
    have hexec : exec (.bestEffortQuantumStart t (.scrub npa)) s = _ := quantum_waits ready comp be slack
    rw [if_neg (by simpa [quantumAct] using clear 1 rfl)] at hexec
    have hrq : u.rq = s.rq := arrive_rq s t
    have hpg : u.pg = s.pg := by rw [hu]
    have htier : u.tier = s.tier := by rw [hu]
    have hrel : u.rel = s.rel := by rw [hu]
    cases hgrant : Config.grants s.free with
    | false =>
      rw [hgrant] at hexec
      have h := governorWait_keeps { u with free := s.free + 1 }
      exact .of_exec hexec ⟨(h.keeps (p := .rq) (by simp)).trans hrq, (h.keeps (p := .pg) (by simp)).trans hpg,
        (h.keeps (p := .tier) (by simp)).trans htier, h.keeps (p := .free) (by simp), (h.keeps (p := .rel) (by simp)).trans hrel⟩
    | true =>
      rw [hgrant] at hexec
      refine .of_exec hexec ⟨hrq, hpg, htier, rfl, ?_⟩
      rw [if_pos rfl, ← hrel]
      exact scrubBytes_rel ..
  · obtain ⟨v, hexec, hlatch⟩ := coarseningLatch_eq ready due
    simp only [State.latch, Prod.mk.injEq] at hlatch
    obtain ⟨hl, hat, hring⟩ := hlatch
    refine .of_exec hexec ?_
    simp only [hat, hl, hring, u, and_self]

/-! ### Stopping work, and replacing members (R30, R38, R419 to R427) -/

theorem slotOver_kept (s : State) (r : SlotRun) (e : Slot) : Kept s (s.slotOver r e) := by
  unfold State.slotOver
  extract_lets a b
  have ha : Kept s a := .ite (setRq_kept ..) (.refl s)
  have hb : Kept s b := ha.trans (.of_within (by apply State.chargeTiles_within (hs := .refl _ a) <;> rfl))
  have hcount : Kept b (b.countSlot e) := .of_within (by apply State.countSlot_within (hs := .refl _ b) <;> rfl)
  have hc : Kept s (if e.opclass = 4 then b.countSlot e else b) := .ite (hb.trans hcount) hb
  refine (hc.trans (drainOps_kept _)).trans (.of_within ?_)
  apply State.govern_within (hs := .refl _ _) <;> rfl

theorem endSlot_mastered (s : State) (slot : Nat) (e : Slot) : (s.endSlot slot e).mastered = s.mastered := by
  unfold State.endSlot
  extract_lets a r
  have ha : Kept s a := .ite (flushSlot_kept ..) (.refl s)
  exact (slotOver_kept (a.setRun { r with ended := true }) r e).mastered.trans ha.mastered

theorem endOver_mastered (s : State) (r : SlotRun) : (s.endOver r).mastered = s.mastered := by
  unfold State.endOver
  split
  · rfl
  extract_lets _ a
  split
  · rfl
  split
  · rfl
  · exact (slotOver_kept ..).mastered

theorem foldl_mastered {α : Type} {f : State → α → State} (h : ∀ s x, (f s x).mastered = s.mastered) (l : List α) (s : State) :
    (l.foldl f s).mastered = s.mastered := by
  induction l generalizing s with
  | nil => rfl
  | cons x l ih => exact (ih _).trans (h s x)

theorem stopWork_mastered (s : State) : s.stopWork.mastered = s.mastered :=
  (foldl_mastered (fun t (e : Nat × Slot) => endSlot_mastered t e.1 e.2) _ _).trans (foldl_mastered (fun t r => endOver_mastered t r) _ _)

theorem endSearch_kept (s : State) (st : Status) (x : Search) : Kept s (s.endSearch st x) := by
  unfold State.endSearch
  extract_lets path _ a
  have ha : Kept s a := setRq_kept ..
  clear_value path
  split
  · exact ha.trans (noReply_kept ..)
  · exact ha.trans (.of_within (by apply State.refuseSearch_within (hs := .refl _ a) <;> rfl))

theorem endReq_kept (s : State) (st : Status) (r : Req) : Kept s (s.endReq st r) := endReqAt_kept ..

theorem endAll_kept (s : State) (p : Nat → Nat → Bool) (st : Status) : Kept s (s.endAll p st) :=
  Kept.foldl (Kept.foldl (.refl s) fun t r => endReq_kept t st r) fun t x => endSearch_kept t st x

theorem enterHold_mastered (s : State) (p : Phase) : (s.enterHold p).mastered = s.mastered := by
  unfold State.enterHold
  extract_lets a _ _ b c d
  have hd : Kept b d := Kept.foldl (Kept.foldl (.refl b) fun t r => endReq_kept t .replay r) fun t x => endSearch_kept t .replay x
  exact (hd.trans (event_kept ..)).mastered.trans (stopWork_mastered s)

theorem masterMark_mastered (s : State) (typ : Nat) (p : Phase) : (s.masterMark typ p).mastered = s.mastered := by
  have h : Within (keeping [.boot, .rel]) s (s.masterMark typ p) := by apply State.masterMark_within (hs := .refl _ s) <;> rfl
  have hboot : (s.masterMark typ p).boot = s.boot := h.keeps (p := .boot) (by simp)
  have hrel : (s.masterMark typ p).rel = s.rel := h.keeps (p := .rel) (by simp)
  rw [State.mastered, State.nodeId, hboot, hrel, masterMark_phs]
  rfl

theorem masterHold_mastered (s : State) : s.masterHold.mastered = s.mastered :=
  (enterHold_mastered ..).trans (masterMark_mastered ..)

/-- A hold by the master freezes the Phase and counts as one more of the step (R44, R423). -/
theorem masterHold_holds (s : State) : s.masterHold.phs.held = true ∧ s.masterHold.phs.holds = s.phs.holds + 1 := by
  have h := enterHold_clock (s.masterMark 2 s.phase) s.phase
  refine ⟨PhaseSt.eq_of_clock PhaseSt.held (fun _ => rfl) h, ?_⟩
  have hholds : s.masterHold.phs.holds = (s.masterMark 2 s.phase).phs.holds + 1 := PhaseSt.eq_of_clock PhaseSt.holds (fun _ => rfl) h
  rw [hholds, masterMark_phs]

theorem leaveHold_held (s : State) (p : Phase) : (s.leaveHold p).phs.held = false := by
  rw [PhaseSt.eq_of_still PhaseSt.held (fun _ => rfl) (leaveHold_still s p)]

theorem masterResume_held (s : State) : s.masterResume.phs.held = false := by
  simp only [State.masterResume, leaveHold_held]

/-! Replacing a member (R419, R420, R425, R427). -/

theorem pdSet_kept (s : State) (index sub : Nat) (b : List Byte) : Kept s (s.pdSet index sub b) :=
  .of_within (by apply State.pdSet_within (hs := .refl _ s) <;> rfl)

theorem putPool_kept (s : State) (pool : Nat) (x : Pool) : Kept s (s.putPool pool x) :=
  .of_within (by apply State.putPool_within (hs := .refl _ s) <;> rfl)

theorem dataLost_kept (s : State) (c job n : Nat) : Kept s (s.dataLost c job n) := by
  unfold State.dataLost
  exact event_kept ..

theorem rebuiltPage_kept (s : State) (job ctx stream page : Nat) (l : List (Ctx × Nat × Nat × Page)) :
    Kept s (s.rebuiltPage job ctx stream page l) := (unpend_kept ..).trans (unpend_kept ..)

theorem losePage_kept (s : State) (c job ctx stream page : Nat) : Kept s (s.losePage c job ctx stream page) := by
  unfold State.losePage
  split
  · exact rebuiltPage_kept ..
  extract_lets l a b
  have ha : Kept s a := Kept.foldl (.refl s) fun t y => (freeDesc_kept ..).trans (setPage_kept ..)
  have hb : Kept s b := ha.trans (rebuiltPage_kept ..)
  exact .ite hb (hb.trans (dataLost_kept ..))

theorem setPending_kept (s : State) (l : List (Nat × Nat × Nat × Nat × Nat)) : Kept s { s with rel := { s.rel with pendPages := l } } :=
  .of_sch rfl rfl

theorem subLost_kept (s : State) (c standby : Nat) (y : Ctx × Nat × Nat × Page) : Kept s (s.subLost c standby y) := by
  unfold State.subLost
  extract_lets d a
  have ha : Kept s a := .of_within (by apply State.setHome_within (hs := .refl _ s) <;> rfl)
  exact .ite (ha.trans (losePage_kept ..)) (ha.trans (setPending_kept ..))

theorem moveLeases_kept (s : State) (lost standby : Nat) : Kept s (s.moveLeases lost standby) := by
  unfold State.moveLeases
  exact Kept.foldl (.refl s) fun t l => Kept.foldl (pdSet_kept ..) fun v y => subLost_kept v l.2.comp standby y

theorem takeMirror_kept (s : State) (c ring rank : Nat) : Kept s (s.takeMirror c ring rank) := by
  unfold State.takeMirror
  extract_lets job base es home gone ks0 ks pagesOf lost top a b d e _ _ _
  have hb : Kept s b := Kept.foldl (setPg_kept ..) fun t x => putPool_kept ..
  have hd : Kept s d := Kept.foldl hb fun t k => .of_within (by apply State.enterCtx_within (hs := .refl _ t) <;> rfl)
  have he : Kept s e := .ite hd (hd.trans (dataLost_kept ..))
  exact he.trans (setPending_kept ..)

theorem takeRank_kept (s : State) (r : Role) : Kept s (s.takeRank r) := by
  unfold State.takeRank
  extract_lets c a
  split
  · exact .refl s
  next g _ =>
  split
  · exact .refl s
  extract_lets b g' d
  have ha : Kept s a := pdSet_kept ..
  have hb : Kept s b := .ite ha (ha.trans (takeMirror_kept ..))
  have hbegin : Kept b (b.rebuildBegins c r) := .of_sch rfl rfl
  have hzero : Kept (b.rebuildBegins c r) d := .of_within (by apply State.zeroFrames_within (hs := .refl _ _) <;> rfl)
  exact Kept.foldl ((hb.trans hbegin).trans hzero) fun t m => ringSend_kept ..

theorem roleTaken_kept (s : State) (r : Role) : Kept s (s.roleTaken r) := by
  unfold State.roleTaken
  extract_lets _ a b mine d
  have ha : Kept s a := by
    refine Kept.trans ?_ (moveLeases_kept ..)
    exact .of_sch rfl rfl
  have hd : Kept s d := Kept.foldl (ha.trans (event_kept ..)) fun t c => by
    have hset := pdSet_kept t 0x3400 c (ringPatch (t.pd.bytes 0x3400 c) r.rank r.standby r.standC none)
    exact .ite (hset.trans (.of_within (by apply State.copyMirror_within (hs := .refl _ _) <;> rfl))) hset
  exact .ite (hd.trans (takeRank_kept ..)) hd

theorem vacate_kept (s : State) (c ring rank : Nat) : Kept s (s.vacate c ring rank) := by
  unfold State.vacate
  split
  · exact .refl s
  split
  · exact .refl s
  split
  · exact .refl s
  · exact Kept.foldl (Kept.foldl (.refl s) fun t k => store_kept ..) fun t m => ringSend_kept ..

/-- What a replacement of members leaves of the recovery: all but that one more standby may be awaited. -/
structure Replaced (s t : State) : Prop where
  restarted : t.rel.restarted = s.rel.restarted
  notices   : t.rel.notices = s.rel.notices
  unreach   : t.rel.unreach = s.rel.unreach
  waiting   : ∀ w ∈ s.rel.waiting, w ∈ t.rel.waiting

theorem Replaced.refl (s : State) : Replaced s s := ⟨rfl, rfl, rfl, fun _ h => h⟩

theorem Replaced.trans {a b c : State} (h : Replaced a b) (k : Replaced b c) : Replaced a c :=
  ⟨k.restarted.trans h.restarted, k.notices.trans h.notices, k.unreach.trans h.unreach, fun w hw => k.waiting w (h.waiting w hw)⟩

theorem Kept.replaced {s t : State} (h : Kept s t) : Replaced s t := by
  have hm := h.mastered
  simp only [State.mastered, Prod.mk.injEq] at hm
  obtain ⟨-, -, hwait, hrest, hnote, hunreach⟩ := hm
  exact ⟨hrest, hnote, hunreach, fun w hw => by rw [hwait]; exact hw⟩

theorem await_replaced (s : State) (w : Nat × Nat) : Replaced s { s with rel := { s.rel with waiting := w :: s.rel.waiting } } :=
  ⟨rfl, rfl, rfl, fun _ h => List.mem_cons_of_mem _ h⟩

theorem replaceMember_replaced (s : State) (m : Nat × Nat × Nat × Nat) : Replaced s (s.replaceMember m) := by
  unfold State.replaceMember
  split
  · exact (Kept.foldl (.refl s) fun t c => vacate_kept ..).replaced
  next node c _ =>
    extract_lets r a b d
    have ha : Kept s a := .of_sch rfl rfl
    have hb : Kept s b := Kept.foldl ha fun t n => .of_within (by apply State.mgmtSend_within (hs := .refl _ t); rfl)
    exact (hb.replaced.trans (await_replaced b _)).trans (roleTaken_kept ..).replaced

theorem replaceMembers_replaced (l : List (Nat × Nat × Nat × Nat)) (s : State) :
    Replaced s (l.foldl (fun (s : State) m => s.replaceMember m) s) := by
  induction l generalizing s with
  | nil => exact .refl s
  | cons m l ih => exact (replaceMember_replaced s m).trans (ih _)

theorem replaceMembers_phs (l : List (Nat × Nat × Nat × Nat)) (s : State) :
    (l.foldl (fun (s : State) m => s.replaceMember m) s).phs = s.phs :=
  Within.keeps (l := [.phs]) (p := .phs)
    (.foldl (.refl _ s) fun _ _ h => by apply State.replaceMember_within (hs := h) <;> rfl) (by simp)

/-! ### The master's recovery (R44, R419 to R423) -/

theorem resumeIfReady_waits {s : State} (h : s.rel.waiting ≠ [] ∨ s.rel.restarted = true) : s.resumeIfReady = s := by
  unfold State.resumeIfReady
  refine if_neg ?_
  rcases h with h | h
  · simp [h]
  · simp [h]

theorem resumeIfReady_resumes {s : State} (held : s.phs.held = true) (waiting : s.rel.waiting = []) (restarted : s.rel.restarted = false) :
    s.resumeIfReady.phs.held = false := by
  unfold State.resumeIfReady
  rw [if_pos (by simp [held, waiting, restarted])]
  exact masterResume_held s

theorem jobRestart_held {s : State} (scope : Nat) (held : s.phs.held = true) : (s.jobRestart scope).phs.held = true := by
  rw [PhaseSt.eq_of_clock PhaseSt.held (fun _ => rfl) (jobRestart_clock s scope), held]

/-- The state of a master once it holds the Phase for a fault (R44, R419). -/
def State.holding (s : State) : State := if s.phs.held then s else s.masterHold

theorem holding_held (s : State) : s.holding.phs.held = true := by
  unfold State.holding
  split
  next h => exact h
  · exact (masterHold_holds s).1

theorem holding_holds (s : State) (h : (if s.phs.held then 4 else 3) ≤ s.phs.holds) : 4 ≤ s.holding.phs.holds := by
  unfold State.holding
  split
  next held => simpa [held] using h
  next held =>
    rw [(masterHold_holds s).2]
    simp [held] at h
    omega

/-- The state with a notice kept. -/
def State.noticed (s : State) (n : Notice) : State := { s with rel := { s.rel with notices := n :: s.rel.notices } }

theorem masterFault_eq (s : State) (n : Notice) : s.masterFault n =
    let v := s.holding.noticed n
    if n.scope = 6 then ((v.lostMembers n).foldl (fun (s : State) m => s.replaceMember m) v).jobRestart 6
    else if n.scope = 7 ∨ 4 ≤ v.phs.holds then v.jobRestart n.scope
    else (if n.scope = 4 ∨ n.scope = 5 then (v.lostMembers n).foldl (fun (s : State) m => s.replaceMember m) v else v).resumeIfReady := rfl

/-- A fault for which the master restarts the job: it stays held, and the notice is kept (R416, R423, R429). -/
theorem masterFault_restarts {s : State} {n : Notice} (h : n.scope = 6 ∨ n.scope = 7 ∨ (if s.phs.held then 4 else 3) ≤ s.phs.holds) :
    (s.masterFault n).phs.held = true ∧ (s.masterFault n).phs.fwdDone = true ∧ (s.masterFault n).rel.restarted = true ∧
      n ∈ (s.masterFault n).rel.notices := by
  have hheld := holding_held s
  have ends (v : State) (scope : Nat) (held : v.phs.held = true) (noted : n ∈ v.rel.notices) :
      (v.jobRestart scope).phs.held = true ∧ (v.jobRestart scope).phs.fwdDone = true ∧ (v.jobRestart scope).rel.restarted = true ∧
        n ∈ (v.jobRestart scope).rel.notices :=
    ⟨jobRestart_held scope held, jobRestart_fwdDone v scope, by rw [jobRestart_rel], by rw [jobRestart_rel]; exact noted⟩
  rw [masterFault_eq]
  split
  · exact ends _ 6 (by rw [replaceMembers_phs]; exact hheld) (by rw [(replaceMembers_replaced ..).notices]; exact List.mem_cons_self ..)
  next six =>
    have hrest : n.scope = 7 ∨ 4 ≤ (s.holding.noticed n).phs.holds := by
      rcases h with h | h | h
      · exact absurd h six
      · exact .inl h
      · exact .inr (holding_holds s h)
    rw [if_pos hrest]
    exact ends _ n.scope hheld (List.mem_cons_self ..)

/-- The state that counts nodes as unreachable, with a notice of each (R44, R418). -/
def State.losing (s : State) (gone : List Nat) : State :=
  { s with rel := { s.rel with unreach := (gone.filter fun (n : Nat) => n != s.nodeId && !s.rel.unreach.contains n) ++ s.rel.unreach
                               notices := gone.map s.nodeNotice ++ s.rel.notices } }

theorem holdFor_eq (s : State) (gone : List Nat) : s.holdFor gone =
    let v := s.masterHold.losing gone
    if 4 ≤ v.phs.holds then v.jobRestart 5
    else (((gone.map fun n => v.lostMembers (v.nodeNotice n)).flatten).foldl (fun (s : State) m => s.replaceMember m) v).resumeIfReady := rfl

/-- Every other node that is gone counts as unreachable. -/
theorem losing_unreach {s : State} {gone : List Nat} {n : Nat} (h : n ∈ gone) (other : n ≠ s.nodeId) : n ∈ (s.losing gone).rel.unreach := by
  change n ∈ (gone.filter fun n => n != s.nodeId && !s.rel.unreach.contains n) ++ s.rel.unreach
  by_cases known : n ∈ s.rel.unreach
  · exact List.mem_append_right _ known
  · exact List.mem_append_left _ (List.mem_filter.2 ⟨h, by simp [other, known]⟩)

theorem losing_phs (s : State) (gone : List Nat) : (s.losing gone).phs = s.phs := rfl

theorem losing_waiting (s : State) (gone : List Nat) : (s.losing gone).rel.waiting = s.rel.waiting := rfl

theorem losing_restarted (s : State) (gone : List Nat) : (s.losing gone).rel.restarted = s.rel.restarted := rfl

theorem losing_lost (s : State) (gone : List Nat) (n : Nat) :
    (s.losing gone).lostMembers ((s.losing gone).nodeNotice n) = s.lostMembers (s.nodeNotice n) := rfl

theorem masterHold_rel (s : State) : s.masterHold.nodeId = s.nodeId ∧ s.masterHold.rel.waiting = s.rel.waiting ∧
    s.masterHold.rel.restarted = s.rel.restarted := by
  have h := masterHold_mastered s
  simp only [State.mastered, Prod.mk.injEq] at h
  obtain ⟨hnode, -, hwait, hrest, -, -⟩ := h
  exact ⟨hnode, hwait, hrest⟩

/-- A fourth hold of one step restarts the job (R423). -/
theorem holdFor_fourth {s : State} (gone : List Nat) (fourth : 3 ≤ s.phs.holds) :
    (s.holdFor gone).phs.held = true ∧ (s.holdFor gone).phs.fwdDone = true ∧ (s.holdFor gone).rel.restarted = true ∧
      ∀ n ∈ gone, n ≠ s.nodeId → n ∈ (s.holdFor gone).rel.unreach := by
  obtain ⟨hheld, hholds⟩ := masterHold_holds s
  obtain ⟨hnode, -, -⟩ := masterHold_rel s
  rw [holdFor_eq]
  generalize s.masterHold = v at hheld hholds hnode ⊢
  dsimp only
  rw [if_pos (by rw [losing_phs, hholds]; omega)]
  refine ⟨jobRestart_held 5 (by rw [losing_phs, hheld]), jobRestart_fwdDone _ 5, by rw [jobRestart_rel], fun n hn other => ?_⟩
  rw [jobRestart_rel]
  exact losing_unreach hn (by rw [hnode]; exact other)

/-- Below the fourth hold of a step the master has the members of the nodes replaced, and resumes once it may (R419, R421). -/
theorem holdFor_replaces {s : State} (gone : List Nat) (few : s.phs.holds < 3) : s.holdFor gone =
    (((gone.map fun n => s.masterHold.lostMembers (s.masterHold.nodeNotice n)).flatten).foldl (fun (s : State) m => s.replaceMember m)
      (s.masterHold.losing gone)).resumeIfReady := by
  have four : ¬ 4 ≤ (s.masterHold.losing gone).phs.holds := by rw [losing_phs, (masterHold_holds s).2]; omega
  rw [holdFor_eq]
  dsimp only
  rw [if_neg four]
  simp only [losing_lost]

/-- While a standby is awaited, or a restart stands, the Phase stays held. -/
theorem holdFor_stays {s : State} (gone : List Nat) (few : s.phs.holds < 3) (waits : s.rel.waiting ≠ [] ∨ s.rel.restarted = true) :
    (s.holdFor gone).phs.held = true ∧ ∀ n ∈ gone, n ≠ s.nodeId → n ∈ (s.holdFor gone).rel.unreach := by
  obtain ⟨hnode, hwait, hrest⟩ := masterHold_rel s
  rw [holdFor_replaces gone few]
  generalize (gone.map fun n => s.masterHold.lostMembers (s.masterHold.nodeNotice n)).flatten = lost
  have h := replaceMembers_replaced lost (s.masterHold.losing gone)
  have hphs := replaceMembers_phs lost (s.masterHold.losing gone)
  rw [resumeIfReady_waits]
  · refine ⟨by rw [hphs, losing_phs]; exact (masterHold_holds s).1, fun n hn other => ?_⟩
    rw [h.unreach]
    exact losing_unreach hn (by rw [hnode]; exact other)
  · rcases waits with waits | waits
    · obtain ⟨w, hw⟩ := List.exists_mem_of_ne_nil _ waits
      exact .inl (List.ne_nil_of_mem (h.waiting w (by rw [losing_waiting, hwait]; exact hw)))
    · exact .inr (by rw [h.restarted, losing_restarted, hrest, waits])

/-- Where no lost node is a member of a ring, and nothing is awaited, the master resumes at once. -/
theorem holdFor_resumes {s : State} (gone : List Nat) (few : s.phs.holds < 3) (waiting : s.rel.waiting = []) (restarted : s.rel.restarted = false)
    (lost : ∀ n ∈ gone, s.masterHold.lostMembers (s.masterHold.nodeNotice n) = []) : (s.holdFor gone).phs.held = false := by
  obtain ⟨-, hwait, hrest⟩ := masterHold_rel s
  have none : (gone.map fun n => s.masterHold.lostMembers (s.masterHold.nodeNotice n)).flatten = [] := by
    simpa using lost
  rw [holdFor_replaces gone few, none]
  exact resumeIfReady_resumes (by rw [List.foldl_nil, losing_phs]; exact (masterHold_holds s).1)
    (by rw [List.foldl_nil, losing_waiting, hwait, waiting]) (by rw [List.foldl_nil, losing_restarted, hrest, restarted])

/-- A barrier that passes its timeout with reports missing is held for the nodes that sent none (R44). -/
theorem barrierTimeout_holds {s : State} {t : Nat} (ready : s.ready = true) (master : s.phs.master = true) (sync : s.phs.sync = true)
    (held : s.phs.held = false) (last : s.lastLayer = true) (due : s.period + s.pdNum 0x7030 0 ≤ (s.arrive t).elapsed)
    (open_ : s.allReported = false) : execBarrierTimeout t s = .next ((s.arrive t).holdFor s.missing) := by
  unfold execBarrierTimeout
  dsimp only
  rw [if_neg (by simp [ready, master, sync, held, last, open_]; omega), arrive_missing]

/-- Otherwise the timeout of a barrier does nothing. -/
theorem barrierTimeout_quiet {s : State} {t : Nat} (quiet : s.phs.held = true ∨ s.lastLayer = false ∨
      (s.arrive t).elapsed < s.period + s.pdNum 0x7030 0 ∨ s.allReported = true) : execBarrierTimeout t s = .next (s.arrive t) := by
  unfold execBarrierTimeout
  dsimp only
  refine if_pos ?_
  rcases quiet with h | h | h | h
  · simp [h]
  · simp [h]
  · simp [h]
  · simp [h]

/-- A standby that is awaited and becomes ready is waited for no longer (R421). -/
theorem standbyReady_eq {s : State} {t ring rank : Nat} (ready : s.ready = true) (master : s.phs.master = true) (held : s.phs.held = true)
    (awaited : (ring, rank) ∈ s.rel.waiting) : execStandbyReady t ring rank s =
      .next ({ s.arrive t with rel := { s.rel with waiting := s.rel.waiting.filter (· != (ring, rank)) } } : State).resumeIfReady := by
  have hrel : (s.arrive t).rel = s.rel := by rw [arrive_eq]
  unfold execStandbyReady
  dsimp only
  rw [hrel, if_neg (by simp [ready, master, held, awaited])]

/-- A fault notice at a master that admits no node (R419). -/
theorem faultNotice_eq {s : State} {t : Nat} {n : Notice} (ready : s.ready = true) (master : s.phs.master = true) (sync : s.phs.sync = true)
    (joining : s.rel.joining = none) (low : 1 ≤ n.scope) (high : n.scope ≤ 7) :
    ∃ v, execFaultNotice t n s = .next (State.masterFault v n) ∧ v.phs = s.phs := by
  have hrel : (s.arrive t).rel = s.rel := by rw [arrive_eq]
  have hphs : (s.arrive t).phs = s.phs := State.arrive_phs s t
  have hsource {v : State} (h : v.rel = s.rel) : v.sourceFault n.subj = v := by rw [State.sourceFault, h, joining]
  unfold execFaultNotice
  dsimp only
  rw [if_neg (by simp [ready])]
  by_cases own : n.node = s.nodeId
  · refine ⟨s.arrive t, ?_, hphs⟩
    rw [arrive_nodeId, if_pos own, hsource hrel, if_pos (by simp [master, sync, low, high])]
  · refine ⟨(s.arrive t).mgmtTake, ?_, hphs⟩
    have htake : (s.arrive t).mgmtTake.phs = s.phs := hphs
    rw [arrive_nodeId, if_neg own, hsource (v := (s.arrive t).mgmtTake) hrel, htake, if_pos (by simp [master, sync, low, high])]

/-- Settles O44, by what a hold leaves of the recovery, and when the master resumes. -/
theorem theMasterHoldsAndRestarts : Obligations.TheMasterHoldsAndRestarts := by
  unfold Obligations.TheMasterHoldsAndRestarts
  intro s t u ready master sync joining
  have hu : u = { s with timer := u.timer } := arrive_eq s t
  have hphs : u.phs = s.phs := State.arrive_phs s t
  have hrel : u.rel = s.rel := by rw [hu]
  have hnode : u.nodeId = s.nodeId := arrive_nodeId s t
  have hbarrier (held : s.phs.held = false) (last : s.lastLayer = true) (due : s.period + s.pdNum 0x7030 0 ≤ u.elapsed)
      (open_ : s.allReported = false) : exec (.barrierTimeout t) s = .next (u.holdFor s.missing) :=
    barrierTimeout_holds ready master sync held last due open_
  refine ⟨fun n low high grave => ?_, fun held last due open_ fourth => ?_, fun held last due open_ few =>
    ⟨fun waits => ?_, fun none alone lost => ?_⟩,
    fun quiet => ?_, fun ring rank held awaited => ⟨fun more => ?_, fun last alone => ?_⟩⟩
  · obtain ⟨v, hexec, hv⟩ := faultNotice_eq (t := t) ready master sync joining low high
    exact .of_exec hexec (masterFault_restarts (by rw [hv]; exact grave))
  · obtain ⟨h1, h2, h3, h4⟩ := holdFor_fourth (s := u) s.missing (by rw [hphs]; exact fourth)
    exact .of_exec (hbarrier held last due open_) ⟨h1, h2, h3, fun n hn other => h4 n hn (by rw [hnode]; exact other)⟩
  · obtain ⟨h1, h2⟩ := holdFor_stays (s := u) s.missing (by rw [hphs]; exact few) (by rw [hrel]; exact waits)
    exact .of_exec (hbarrier held last due open_) ⟨h1, fun n hn other => h2 n hn (by rw [hnode]; exact other)⟩
  · exact .of_exec (hbarrier held last due open_) (holdFor_resumes (s := u) s.missing (by rw [hphs]; exact few)
      (by rw [hrel]; exact none) (by rw [hrel]; exact alone) lost)
  · exact barrierTimeout_quiet quiet
  · obtain ⟨w, hw, other⟩ := more
    refine .of_exec (standbyReady_eq ready master held awaited) ?_
    rw [resumeIfReady_waits (.inl (List.ne_nil_of_mem (List.mem_filter.2 ⟨hw, by simpa using other⟩)))]
    exact ⟨hphs, rfl⟩
  · have hheld : u.phs.held = true := by rw [hphs, held]
    refine .of_exec (standbyReady_eq ready master held awaited) (resumeIfReady_resumes hheld ?_ alone)
    rw [List.filter_eq_nil_iff]
    intro w hw
    simp [last w hw]

/-! ### Start records and claims (R33) -/

/-- A restart of the job moves the source of the Phase no more than what ends its requests does. -/
theorem jobRestart_src (s : State) (scope : Nat) : (s.jobRestart scope).phs.src = s.phs.src := by
  have h := (endAll_kept s (fun _ _ => true) .replay).mastered
  simp only [State.mastered, Prod.mk.injEq] at h
  rw [jobRestart_phs]
  exact h.2.1

theorem jobRestart_nodeId (s : State) (scope : Nat) : (s.jobRestart scope).nodeId = s.nodeId := by
  unfold State.jobRestart
  extract_lets a _ _ b
  have hb : b.nodeId = s.nodeId := congrArg Prod.fst (endAll_kept s (fun _ _ => true) .replay).mastered
  exact (congrArg Prod.fst (event_kept b _).mastered).trans hb

theorem jobRestart_timer (s : State) (scope : Nat) : (s.jobRestart scope).timer = s.timer :=
  Within.keeps (l := [.timer]) (p := .timer) (by apply State.jobRestart_within (hs := .refl _ s) <;> rfl) (by simp)

theorem stopWork_timer (s : State) : s.stopWork.timer = s.timer :=
  Within.keeps (l := [.timer]) (p := .timer) (by apply State.stopWork_within (hs := .refl _ s) <;> rfl) (by simp)

/-- A start record fits a node: its member and candidate bits are those of the node, and its term is new (R33). -/
def State.startFits (s : State) (term : BitVec 16) : Prop :=
  bitmapHas (s.pd.bytes 0x7004 1) s.nodeId = s.pdBool 0x7003 1 ∧ bitmapHas (s.pd.bytes 0x7004 0) s.nodeId = true ∧
    s.phs.start.map (·.term) ≠ some term

/-- A job that was running restarts before a start record begins the next term (R429). -/
def State.restartFirst (s : State) : State := (if s.phs.sync && !s.rel.restarted then s.stopWork.jobRestart 7 else s).keepTick

/-- The state that a start record leaves before the election (R33). -/
def State.electing (s : State) (term : BitVec 16) (job step : Nat) (elig : Bool) : State :=
  { s with phs := { s.phs with start := some { term, job, step := step % 2 ^ 36 }, term, sync := false, master := false, held := false
                               prev := none, seen := [], masterId := none, mseq := 0, cand := if elig then some s.timer else none } }

/-- A candidate claims the term from every other (R33). -/
def State.claims (s : State) (bytes : List Byte) (others : List Nat) (o : Out) : State :=
  others.foldl (fun (s : State) n => s.mgmtSend n bytes) (s.emit o)

theorem claims_phs (s : State) (bytes : List Byte) (others : List Nat) (o : Out) : (s.claims bytes others o).phs = s.phs :=
  Within.keeps (l := [.phs]) (p := .phs) (.foldl (by apply State.emit_within (hs := .refl _ s); rfl) fun _ _ h => by
    apply State.mgmtSend_within (hs := h); rfl) (by simp)

theorem jobStart_fits {s : State} {term : BitVec 16} (fits : s.startFits term) (job step : Nat) :
    ∃ bytes others o, (s.jobStart term job step).2 =
      let v := s.restartFirst.electing term job step (s.pdBool 0x7003 1)
      if !s.pdBool 0x7003 1 then v else if v.phs.src = 2 then v.becomeMaster else v.claims bytes others o := by
  obtain ⟨hcand, hmember, hnew⟩ := fits
  unfold State.jobStart
  extract_lets elig a b _ c bytes others v
  rw [if_neg (by simp [hcand, hmember, hnew, elig])]
  refine ⟨bytes, others, .claim c.nodeId job term, ?_⟩
  rw [show v = c from rfl, show s.pdBool 0x7003 1 = elig from rfl]
  clear_value c elig
  split
  · rfl
  split
  · dsimp only
  · dsimp only [State.claims]

theorem jobStart_misfits {s : State} {term : BitVec 16} (misfits : ¬ s.startFits term) (job step : Nat) :
    (s.jobStart term job step).2 = s := by
  unfold State.jobStart
  extract_lets elig
  rw [if_pos]
  by_contra fits
  simp only [not_or, ne_eq, not_not, Bool.not_eq_false] at fits
  exact misfits ⟨fits.1, fits.2.1, fits.2.2⟩

theorem keepTick_phs (s : State) : s.keepTick.phs = s.phs := rfl

theorem keepTick_nodeId (s : State) : s.keepTick.nodeId = s.nodeId := rfl

theorem keepTick_timer (s : State) : s.keepTick.timer = s.timer := rfl

theorem restartFirst_keeps (s : State) :
    s.restartFirst.phs.src = s.phs.src ∧ s.restartFirst.nodeId = s.nodeId ∧ s.restartFirst.timer = s.timer := by
  have hstop := stopWork_mastered s
  simp only [State.mastered, Prod.mk.injEq] at hstop
  obtain ⟨hnode, hsrc, -⟩ := hstop
  unfold State.restartFirst
  split
  · rw [keepTick_phs, keepTick_nodeId, keepTick_timer, jobRestart_src, jobRestart_nodeId, jobRestart_timer, stopWork_timer]
    exact ⟨hsrc, hnode, rfl⟩
  · exact ⟨rfl, rfl, rfl⟩

theorem electing_phs (s : State) (term : BitVec 16) (job step : Nat) (elig : Bool) : (s.electing term job step elig).phs =
    { s.phs with start := some { term, job, step := step % 2 ^ 36 }, term, sync := false, master := false, held := false
                 prev := none, seen := [], masterId := none, mseq := 0, cand := if elig then some s.timer else none } := rfl

/-- Settles O5, by what a start record leaves before the election, and how the election begins. -/
theorem startRecordAndClaims : Obligations.StartRecordAndClaims := by
  unfold Obligations.StartRecordAndClaims
  intro s t term job step ready fits
  have hphs : (s.arrive t).phs = s.phs := State.arrive_phs s t
  have hfits : (s.arrive t).startFits term ↔ fits := by rw [arrive_eq]; rfl
  have helig : (s.arrive t).pdBool 0x7003 1 = s.pdBool 0x7003 1 := arrive_pdBool s t 0x7003 1
  have hexec : exec (.jobStart t term job step) s = .next ((s.arrive t).jobStart term job step).2 := by
    change execJobStart t term job step s = _
    unfold execJobStart
    simp [ready]
  obtain ⟨hsrc, hnode, htimer⟩ := restartFirst_keeps (s.arrive t)
  rw [hphs] at hsrc
  rw [arrive_nodeId] at hnode
  refine ⟨fun fit stays => ?_, fun fit own elig => ?_, fun misfit => ?_, fun node => ?_⟩
  · obtain ⟨bytes, others, o, h⟩ := jobStart_fits (hfits.2 fit) job step
    have hv := electing_phs (s.arrive t).restartFirst term job step (s.pdBool 0x7003 1)
    rw [helig] at h
    generalize (s.arrive t).restartFirst.electing term job step (s.pdBool 0x7003 1) = v at h hv
    have hphs' : ((s.arrive t).jobStart term job step).2.phs = v.phs := by
      rw [h]
      dsimp only
      split
      · rfl
      next elig =>
      have hother : ¬ v.phs.src = 2 := by
        rw [hv]
        exact fun h => stays.elim (fun hne => hne (hsrc.symm.trans h)) fun hno => elig (by simp [hno])
      rw [if_neg hother, claims_phs]
    refine .of_exec hexec ?_
    rw [hphs', hv, htimer]
    exact ⟨rfl, rfl, rfl, rfl, rfl, rfl, rfl, rfl⟩
  · obtain ⟨bytes, others, o, h⟩ := jobStart_fits (hfits.2 fit) job step
    have hv := electing_phs (s.arrive t).restartFirst term job step (s.pdBool 0x7003 1)
    have hvnode : ((s.arrive t).restartFirst.electing term job step (s.pdBool 0x7003 1)).nodeId = s.nodeId := hnode
    rw [helig] at h
    generalize (s.arrive t).restartFirst.electing term job step (s.pdBool 0x7003 1) = v at h hv hvnode
    have hmaster : ((s.arrive t).jobStart term job step).2 = v.becomeMaster := by
      rw [h]
      dsimp only
      rw [if_neg (by simp [elig]), if_pos]
      rw [hv]; exact hsrc.trans own
    rw [hmaster] at hexec
    have still := becomeMaster_still v
    refine .of_exec hexec ⟨?_, ?_, ?_, ?_, ?_, ?_, ?_⟩
    · rw [PhaseSt.eq_of_still PhaseSt.start (fun _ => rfl) still, hv]
    · rw [PhaseSt.eq_of_still PhaseSt.term (fun _ => rfl) still, hv]
    · rw [PhaseSt.eq_of_still PhaseSt.master (fun _ => rfl) still]
    · rw [PhaseSt.eq_of_still PhaseSt.masterId (fun _ => rfl) still, hvnode]
    · rw [PhaseSt.eq_of_still PhaseSt.sync (fun _ => rfl) still]
    · rw [PhaseSt.eq_of_still PhaseSt.held (fun _ => rfl) still]
    · rw [becomeMaster_base, State.startStep, hv]; rfl
  · rw [hexec, jobStart_misfits fun h => misfit (hfits.1 h)]
  · have hexec : exec (.claim t term node job) s = execClaim t term node job s := rfl
    have htake : (s.arrive t).mgmtTake.phs = s.phs := hphs
    have hmem : (s.arrive t).mgmtTake.mem = s.mem := by rw [arrive_eq]; rfl
    have hpg : (s.arrive t).mgmtTake.pg = s.pg := by rw [arrive_eq]; rfl
    have hid : (s.arrive t).mgmtTake.nodeId = s.nodeId := arrive_nodeId s t
    unfold execClaim at hexec
    dsimp only at hexec
    rw [if_neg (by simp [ready]), htake, hid] at hexec
    cases hstart : s.phs.start with
    | none =>
      rw [hstart] at hexec
      refine .of_exec hexec ⟨hmem, hpg, ?_⟩
      rw [htake]
      simp
    | some st =>
      rw [hstart] at hexec
      dsimp only at hexec
      by_cases lower : st.term = term ∧ st.job = job ∧ node < s.nodeId
      · rw [if_pos lower] at hexec
        obtain ⟨hterm, hjob, hnode⟩ := lower
        refine .of_exec hexec ⟨hmem, hpg, ?_⟩
        rw [if_pos ⟨⟨st, rfl, hterm, hjob⟩, hnode⟩, ← hstart]
      · rw [if_neg lower] at hexec
        refine .of_exec hexec ⟨hmem, hpg, ?_⟩
        rw [htake, if_neg]
        simpa [and_assoc] using lower

end Sys2Proof.Machine

/-! ## Cache pages (03): contexts and streams -/

namespace Sys2Proof.Machine

/-! ### An operation that runs as it arrives (R85) -/

theorem compRefusal_of_serves {s : State} {comp : Nat} {k : Comp} (of : s.comp? comp = some k) (serves : k.st = .active ∨ k.st = .shrinking) :
    s.compRefusal comp = none := by
  rw [State.compRefusal, of]
  rcases serves with h | h
  · simp only [h]
  · simp only [h]

/-- The operations of a tile where one waits alone. -/
theorem drainOps_alone {s : State} {p : PendOp} (alone : s.pg.opq = [p]) : s.drainOps =
    if s.opTurn p then ((s.setPg fun g => { g with opq := [] }).runOp (s.atTile p)).2 else s := by
  rw [State.drainOps, alone]
  simp [State.setPg, alone]

/-- An operation on a whole context, or one that names none that stands, needs no turn at a tile where nothing waits. -/
theorem opTurn_alone {s : State} {p : PendOp} (alone : s.pg.opq = [p]) (append : p.req.op ≠ 4) (rewrite : p.req.op ≠ 6) : s.opTurn p = true := by
  simp [State.opTurn, alone, append, rewrite]

theorem atTile_whole {s : State} {p : PendOp} (whole : onStream p.req.op = false) : s.atTile p = p := by
  rw [State.atTile, whole]; rfl

/-- An operation on a whole context that passes the tests runs at once (R85, R106). -/
theorem ctxCommand_runs {s : State} {src : Source} {op : Nat} {r : CtxReq} {job comp : Nat} {k : Comp} (taken : OpTaken s src op r job comp k)
    (append : op ≠ 4) (whole : onStream op = false) (i : Instr) :
    ∃ p : PendOp, p.src = src ∧ p.req = r ∧ s.ctxCommand i src op r = (s.runOp p).2 := by
  obtain ⟨ready, goes, of, path, held, serves, dl, kind, hop, epoch, idle⟩ := taken
  obtain ⟨q, path⟩ := Option.ne_none_iff_exists'.1 path
  have rewrite : op ≠ 6 := by rintro rfl; simp [onStream] at whole
  have late : ¬ (r.env.dl = true ∧ (!s.phs.sync) = true) := by
    rintro ⟨hdl, hsync⟩
    simp [dl hdl] at hsync
  have misfit : ¬ (r.env.kind ≠ 2 ∨ r.op ≠ op) := by simp [kind, hop]
  have old : ¬ (!s.epochOk src) = true := by simp [epoch]
  have hcommand : ∃ p : PendOp, p.src = src ∧ p.req = r ∧
      s.ctxCommand i src op r = (s.setPg fun g => { g with opq := g.opq ++ [p] }).drainOps := by
    unfold State.ctxCommand State.ctxOp
    rw [if_neg (by simp [ready]), if_neg (by simp [goes]), of]
    dsimp only
    rw [path]
    dsimp only
    rw [compRefusal_of_serves held serves]
    dsimp only
    rw [if_neg late, if_neg misfit, if_neg old, if_neg append]
    exact ⟨_, rfl, rfl, rfl⟩
  obtain ⟨p, hsrc, hreq, hcommand⟩ := hcommand
  refine ⟨p, hsrc, hreq, ?_⟩
  have alone : (s.setPg fun g => { g with opq := g.opq ++ [p] }).pg.opq = [p] := by simp [State.setPg, idle]
  have emptied : ((s.setPg fun g => { g with opq := g.opq ++ [p] }).setPg fun g => { g with opq := [] }) = s := by
    simp only [State.setPg, ← idle]
  have hop' : p.req.op = op := by rw [hreq, hop]
  rw [hcommand, drainOps_alone alone, if_pos (opTurn_alone alone (hop' ▸ append) (hop' ▸ rewrite)), emptied,
    atTile_whole (hop' ▸ whole)]

/-! ### What an operation leaves of the page store as it ends (R108, R409) -/

/-- The records of a request that came as bytes are all that parsing it sets. -/
theorem parsed_eq (s : State) (job : Nat) (r : CtxReq) : ∃ toks, s.parsed job r = { r with toks } := by
  unfold State.parsed
  dsimp only
  split
  · exact ⟨r.toks, rfl⟩
  · exact ⟨_, rfl⟩

theorem endOp_pg (s : State) (src : Source) (env : Envelope) (q : Option Nat) (op : Nat) (st : Status) (v : Nat) (contract : Bool) :
    (s.endOp src env q op st v contract).pg = s.pg :=
  Within.keeps (l := [.pg]) (p := .pg) (by apply State.endOp_within (hs := .refl _ s) <;> rfl) (by simp)

/-- The copies that a directory mirror is sent add to what is to be acknowledged, and to nothing else. -/
theorem finishOp_pg (s : State) (src : Source) (env : Envelope) (q : Option Nat) (op : Nat) (st : Status) (comp : Nat) (copy : List Byte) :
    ∃ acks, (s.finishOp src env q op st comp copy).pg = { s.pg with acks } := by
  let sent := if copy = [] then (0, s.draw.2) else s.draw.2.sendMirror comp copy (.mirror s.draw.1) false s.draw.2.nextStep
  have hsent : sent.2.pg = s.pg := Within.keeps (l := [.pg]) (p := .pg) (.ite2 (State.draw_within rfl (.refl _ s)) (by
    apply State.sendMirror_within (hs := State.draw_within rfl (.refl _ s)) <;> rfl)) (by simp)
  change ∃ acks, (if sent.1 = 0 then sent.2.endOp src env q op st 0 false else sent.2.setPg _).pg = _
  split
  · exact ⟨s.pg.acks, by rw [endOp_pg, hsent]⟩
  · exact ⟨_, by rw [State.setPg, hsent]⟩

theorem finishOp_ctxs (s : State) (src : Source) (env : Envelope) (q : Option Nat) (op : Nat) (st : Status) (comp : Nat) (copy : List Byte) :
    (s.finishOp src env q op st comp copy).pg.ctxs = s.pg.ctxs := by
  obtain ⟨acks, h⟩ := finishOp_pg s src env q op st comp copy
  rw [h]

/-- What the three operations on a whole context leave of the contexts; a search of the directory may count a stall (R223). -/
theorem runOp_whole {s : State} {p : PendOp} {job comp : Nat} (of : s.sourceOf p.src = (job, comp)) : ∃ c,
    (p.req.op = 1 → (s.runOp p).2.pg.ctxs = ((s.counting c).ctxCreate job comp p.req).2.1.pg.ctxs) ∧
    (p.req.op = 2 → (s.runOp p).2.pg.ctxs = ((s.counting c).ctxFork p.src job comp p.req).2.1.pg.ctxs) ∧
    (p.req.op = 3 → ∀ k, s.namedCtx job comp p.req.ctx = .inr k →
      (s.runOp p).2.pg.ctxs = ((s.counting c).removeCtx job p.req.ctx).pg.ctxs) ∧
    (p.req.op = 3 → ∀ st, s.namedCtx job comp p.req.ctx = .inl st → (s.runOp p).2.pg.ctxs = s.pg.ctxs) := by
  obtain ⟨toks, hreq⟩ := parsed_eq s job p.req
  obtain ⟨c, hstall⟩ := adirStall_eq s 0 (ctxKey job (if p.req.op = 2 then p.req.arg0 else p.req.ctx))
  have hnamed : (s.counting c).namedCtx job comp p.req.ctx = s.namedCtx job comp p.req.ctx := rfl
  refine ⟨c, ?_⟩
  unfold State.runOp
  rw [of]
  dsimp only
  rw [hreq]
  dsimp only
  rw [hstall, hnamed]
  refine ⟨fun op => ?_, fun op => ?_, fun op k named => ?_, fun op st named => ?_⟩
  · rw [if_pos op]
    exact finishOp_ctxs ..
  · rw [if_neg (by simp [op]), if_pos op]
    exact finishOp_ctxs ..
  · rw [if_neg (by simp [op]), if_neg (by simp [op]), named]
    dsimp only
    rw [if_pos op]
    exact finishOp_ctxs ..
  · rw [if_neg (by simp [op]), if_neg (by simp [op]), named]
    dsimp only
    rw [endOp_pg]
    rfl

/-- The three operations on a whole context as commands that pass the tests. -/
theorem ctxCommand_whole {s : State} {src : Source} {op : Nat} {r : CtxReq} {job comp : Nat} {k : Comp} (taken : OpTaken s src op r job comp k)
    (whole : op < 4) (i : Instr) : ∃ c,
    (op = 1 → (s.ctxCommand i src op r).pg.ctxs = ((s.counting c).ctxCreate job comp r).2.1.pg.ctxs) ∧
    (op = 2 → (s.ctxCommand i src op r).pg.ctxs = ((s.counting c).ctxFork src job comp r).2.1.pg.ctxs) ∧
    (op = 3 → ∀ k, s.namedCtx job comp r.ctx = .inr k → (s.ctxCommand i src op r).pg.ctxs = ((s.counting c).removeCtx job r.ctx).pg.ctxs) ∧
    (op = 3 → ∀ st, s.namedCtx job comp r.ctx = .inl st → (s.ctxCommand i src op r).pg.ctxs = s.pg.ctxs) := by
  obtain ⟨p, rfl, rfl, hrun⟩ := ctxCommand_runs taken (by omega) (by simp [onStream]; omega) i
  rw [hrun, ← taken.op]
  exact runOp_whole taken.source

/-! ### Creation (R64, R84, R86) -/

/-- What a context is created on: the name free, the geometry allowed, and room for its frames and its entry. -/
def State.canCreate (s : State) (job comp : Nat) (r : CtxReq) : Prop :=
  s.ctx? job r.ctx = none ∧ (∀ c ∈ s.rq.corpora, ¬ (c.job = job ∧ c.ctx = r.ctx ∧ c.dead = false)) ∧
    geometryOk (geometry r).1 (geometry r).2.2 = true ∧ (s.allocPcs comp).any isW = true ∧ s.adirBest 0 ≠ none ∧
    s.keyTaken 0 (ctxKey job r.ctx) = false

theorem canCreate_iff (s : State) (job comp : Nat) (r : CtxReq) : s.canCreate job comp r ↔
    ¬ ((s.ctx? job r.ctx).isSome ∨ (s.rq.corpora.any fun c => c.job == job && c.ctx == r.ctx && !c.dead) ∨
      !geometryOk (geometry r).1 (geometry r).2.2 ∨ !((s.allocPcs comp).any isW) ∨ (s.adirBest 0).isNone ∨
      s.keyTaken 0 (ctxKey job r.ctx)) := by
  simp [State.canCreate, Option.isSome_iff_ne_none, and_assoc]

theorem place_pg (s : State) (pc align : Nat) : (s.place pc align).2.pg = s.pg := rfl

theorem newStreams_pg (s : State) (comp n : Nat) (f : Nat → Strm) : (s.newStreams comp n f).2.pg = s.pg := rfl

theorem newStreams_length (s : State) (comp n : Nat) (f : Nat → Strm) : (s.newStreams comp n f).1.length = n := by
  simp [State.newStreams]

/-- A new stream is the one asked for, with its tile and its places. -/
theorem of_mem_newStreams {s : State} {comp n : Nat} {f : Nat → Strm} {y : Nat × Strm} (h : y ∈ (s.newStreams comp n f).1) :
    ∃ i tile l1 siltAt, y.2 = { f i with tile, l1, siltAt } := by
  obtain ⟨i, -, rfl⟩ := List.mem_map.1 h
  exact ⟨i, _, _, _, rfl⟩

theorem enterCtx_ctxs (s : State) (k : Ctx) : (s.enterCtx k).pg.ctxs = s.pg.ctxs ++ [k] := by
  have h : (s.enterCtx k).pg = (s.setPg fun g => { g with ctxs := g.ctxs ++ [k] }).pg :=
    Within.keeps (l := [.pg]) (p := .pg) (by
      apply State.adirInsert_within rfl
      apply State.writeCtx_within (hs := .refl _ _) <;> rfl) (by simp)
  rw [h]; rfl

theorem ctxCreate_refused {s : State} {job comp : Nat} {r : CtxReq} (h : ¬ s.canCreate job comp r) : (s.ctxCreate job comp r).2.1 = s := by
  rw [canCreate_iff, not_not] at h
  unfold State.ctxCreate
  dsimp only
  rw [if_pos h]

/-- A context is created empty, with the geometry that its request names. -/
theorem ctxCreate_enters {s : State} {job comp : Nat} {r : CtxReq} (h : s.canCreate job comp r) :
    ∃ c, (s.ctxCreate job comp r).2.1.pg.ctxs = s.pg.ctxs ++ [c] ∧ c.job = job ∧ c.ctx = r.ctx ∧ c.comp = comp ∧
      c.layers = (geometry r).1 ∧ c.groups = (geometry r).2.1 ∧ c.streams.length = (geometry r).1 * (geometry r).2.1 ∧
      ∀ x ∈ c.streams, x.2.npages = 0 ∧ x.2.toks = [] ∧ x.2.base = 0 := by
  rw [canCreate_iff] at h
  unfold State.ctxCreate
  dsimp only
  rw [if_neg h]
  refine ⟨_, by rw [enterCtx_ctxs, newStreams_pg, place_pg], rfl, rfl, rfl, rfl, rfl, newStreams_length .., fun x hx => ?_⟩
  obtain ⟨-, tile, l1, siltAt, e⟩ := of_mem_newStreams hx
  rw [e]
  exact ⟨rfl, rfl, rfl⟩

/-! ### Fork (R95) -/

theorem ctxFork_refused {s : State} {src : Source} {job comp : Nat} {r : CtxReq} (h : s.forkRefusal src job comp r ≠ none) :
    (s.ctxFork src job comp r).2.1.pg = s.pg := by
  obtain ⟨st, h⟩ := Option.ne_none_iff_exists'.1 h
  unfold State.ctxFork
  rw [h]
  split
  next k _ _ =>
    split
    · exact Within.keeps (l := [.pg]) (p := .pg) (by apply State.genMismatch_within (hs := .refl _ s) <;> rfl) (by simp)
    · rfl
  · rfl
  next none_ _ => cases none_
  next none_ _ => cases none_

/-- No check of a fork reads a counter. -/
theorem counting_forkRefusal (s : State) (c : List (Nat × Nat × Nat)) (src : Source) (job comp : Nat) (r : CtxReq) :
    (s.counting c).forkRefusal src job comp r = s.forkRefusal src job comp r := by
  cases src with
  | fabric => rfl
  | doorbell => rfl

/-- A fork enters a child of its parent's geometry and seed, neither retiring nor dormant. -/
theorem ctxFork_enters {s : State} {src : Source} {job comp : Nat} {r : CtxReq} {p : Ctx} (h : s.forkRefusal src job comp r = none)
    (parent : s.ctx? job r.arg0 = some p) :
    ∃ c ∈ (s.ctxFork src job comp r).2.1.pg.ctxs, c.ctx = r.ctx ∧ c.job = p.job ∧ c.comp = p.comp ∧ c.layers = p.layers ∧
      c.groups = p.groups ∧ c.seed = p.seed ∧ c.retiring = false ∧ c.dormant = false := by
  unfold State.ctxFork
  rw [h, parent]
  dsimp only
  rw [enterCtx_ctxs]
  exact ⟨_, List.mem_append_right _ (List.mem_singleton.2 rfl), rfl, rfl, rfl, rfl, rfl, rfl, rfl, rfl⟩

/-! ### Deletion (R98) and the context that an operation names (R85, R223) -/

theorem ctx?_congr {s t : State} (h : t.pg.ctxs = s.pg.ctxs) (job ctx : Nat) : t.ctx? job ctx = s.ctx? job ctx := by
  rw [State.ctx?, h]; rfl

theorem removeCtx_gone (s : State) (job ctx : Nat) : (s.removeCtx job ctx).ctx? job ctx = none := by
  unfold State.removeCtx
  split
  next h => exact h
  next k h =>
    refine List.find?_eq_none.2 fun c hc => ?_
    obtain ⟨-, other⟩ := List.mem_filter.1 hc
    intro named
    rw [named] at other
    cases other

/-- A context of the job that a search of the directory finds is the job's own. -/
theorem ctx?_of_found {s : State} {job ctx : Nat} {c : Ctx} (found : s.ctxFound job ctx = some c) (own : c.job = job) :
    s.ctx? job ctx = some c := by
  obtain ⟨hany, -⟩ := Option.filter_eq_some_iff.1 found
  unfold State.ctxAny? at hany
  split at hany
  next hctx => rw [hctx, hany]
  next hctx =>
    have hname : c.ctx = ctx := by simpa using List.find?_some hany
    have := List.find?_eq_none.1 hctx c (List.mem_of_find?_eq_some hany)
    simp [own, hname] at this

theorem namedCtx_of_found {s : State} {job comp ctx : Nat} {c : Ctx} (found : s.ctxFound job ctx = some c) (own : c.job = job)
    (within : c.comp = comp) : s.namedCtx job comp ctx = .inr c := by
  unfold State.namedCtx
  rw [ctx?_of_found found own, if_neg (by simp), found]
  exact if_neg (by simp [own, within])

theorem namedCtx_of_not_found {s : State} {job comp ctx : Nat} (missing : s.ctxFound job ctx = none) :
    ∃ st, s.namedCtx job comp ctx = .inl st := by
  unfold State.namedCtx
  split
  · exact ⟨_, rfl⟩
  · rw [missing]; exact ⟨_, rfl⟩

/-- Settles O15, by what the three operations do to the list of contexts. -/
theorem contextsAreCreatedForkedAndDeleted : Obligations.ContextsAreCreatedForkedAndDeleted := by
  unfold Obligations.ContextsAreCreatedForkedAndDeleted
  intro s t src r job comp k u free
  have hctxs : u.pg.ctxs = s.pg.ctxs := congrArg PageSt.ctxs (State.arrive_pg s t)
  refine ⟨fun taken room => ?_, fun taken full => ?_, fun p taken fine parent => ?_, fun taken refused => ?_,
    fun c taken found own within => ?_, fun taken missing => ?_⟩
  · obtain ⟨n, create, -⟩ := ctxCommand_whole taken (by decide) (.ctxCreate t src r)
    have room' : (u.counting n).canCreate job comp r := room
    obtain ⟨c, hc, rest⟩ := ctxCreate_enters room'
    exact ⟨_, rfl, c, by rw [create rfl, hc, ← hctxs]; rfl, rest⟩
  · obtain ⟨n, create, -⟩ := ctxCommand_whole taken (by decide) (.ctxCreate t src r)
    have full' : ¬ (u.counting n).canCreate job comp r := full
    exact ⟨_, rfl, (create rfl).trans (by rw [ctxCreate_refused full', ← hctxs]; rfl)⟩
  · obtain ⟨n, -, fork, -⟩ := ctxCommand_whole taken (by decide) (.ctxFork t src r)
    have fine' : (u.counting n).forkRefusal src job comp r = none := by rw [counting_forkRefusal, fine]
    obtain ⟨c, hc, rest⟩ := ctxFork_enters fine' parent
    exact ⟨_, rfl, c, by rw [fork rfl]; exact hc, rest⟩
  · obtain ⟨n, -, fork, -⟩ := ctxCommand_whole taken (by decide) (.ctxFork t src r)
    have refused' : (u.counting n).forkRefusal src job comp r ≠ none := by rw [counting_forkRefusal]; exact refused
    exact ⟨_, rfl, (fork rfl).trans (by rw [ctxFork_refused refused', ← hctxs]; rfl)⟩
  · obtain ⟨n, -, -, delete, -⟩ := ctxCommand_whole taken (by decide) (.ctxDelete t src r)
    exact ⟨_, rfl, (ctx?_congr (delete rfl c (namedCtx_of_found found own within)) job r.ctx).trans (removeCtx_gone ..)⟩
  · obtain ⟨n, -, -, -, leave⟩ := ctxCommand_whole taken (by decide) (.ctxDelete t src r)
    obtain ⟨st, named⟩ := namedCtx_of_not_found (comp := comp) missing
    exact ⟨_, rfl, (leave rfl st named).trans hctxs⟩

/-! ### A slot table that names a slot twice (R46, R103): the counterexample of O16 -/

/-- A slot of composition 1 on tile 0 in every layer, of a class of R46. -/
def tileSlot (opclass : Nat) : Slot :=
  { start := 10, layer := 0, any := true, valid := true, opclass, comp := 1, fmt := 0, span := 100, tiles := 1, ports := 0, reqs := 1, rows := 0,
    sketch := 0, dhead := 0, pages := 0, grains := 0, bytes := 1 }

/-- Slot 3 has started; its work has ended or goes on. -/
def slotThree (ended : Bool) : SlotRun :=
  { slot := 3, started := true, admitted := 0, finished := 0, ended, ahead := 0, since := 0, late := false, told := false, fin := 0 }

/-- Composition 1 serves job 77 and VF 3. -/
def servingComp : Comp :=
  { st := .active, desc := { exst := false, job := 77, vf := 3, slices := 1, flash := 0, qbase := 0, qcount := 0, ways := 0, link := 0 },
    cause := none, keyed := true, gen := 1, noKey := false, grace := false, upd := none, oldBytes := 0, transport := true, since := 0,
    busyRem := 0, next := none, packNext := none, waysNext := none, linkNext := none, nextHolder := 0 }

/-- An empty stream of tile 0. -/
def emptyStrm : Strm :=
  { dk := 16, dv := 16, latent := false, kfmt := 1, vfmt := 1, scale := 0, sink := 0, tile := 0, l1 := 0, l2 := [], l3 := [], siltAt := 0,
    npages := 0, pages := [], base := 0, toks := [], commit := 0, born := [], appseq := 0, rel := [], heat := [] }

/-- Context 8 of job 77, with that stream. -/
def emptyCtx : Ctx :=
  { ctx := 8, job := 77, comp := 1, layers := 1, groups := 1, retiring := false, dormant := false, seed := 0, root := 0x400,
    streams := [(0, emptyStrm)], going := false, strTab := 0 }

/-- A node in step whose slot table names slot 3 twice: as a slot for appends, and as the flush that is at work on tile 0. -/
def twiceNamed : State :=
  { State.reset with
    boot := { State.reset.boot with ready := true }
    sec := { State.reset.sec with up := true }
    phs := { State.reset.phs with sync := true }
    sch := { State.reset.sch with
      en := true, act0 := 4, bank0 := [(3, tileSlot 3), (3, tileSlot 4)], runs := [slotThree true, slotThree false] }
    cmp := { State.reset.cmp with comps := [(1, servingComp)] }
    hbm := { State.reset.hbm with adirEn := true, banks := [(0, { Bank.ofCfg 1 with entries := [(ctxKey 77 8, [0])] })] }
    pg := { State.reset.pg with ctxs := [emptyCtx] } }

/-- The next append of no token to that stream, from mailbox 0 of VF 3. -/
def emptyAppend : CtxReq :=
  { env := { kind := 2, dl := false, blen := 1, tag := 0, deadline := 0, ctx := 8, rnode := 0, rwin := 0, rwgen := 0, roff := 0, foff := 0,
             fval := 0 },
    op := 4, flags := 0, count := 0, ctx := 8, stream := 0, arg0 := 0, arg1 := 0, arg2 := 0, arg3 := 1, toks := [] }

theorem twiceNamed_taken : OpTaken (twiceNamed.arrive 0) (.doorbell 3 0) 4 emptyAppend 77 1 servingComp := by
  constructor <;> decide +kernel

/-- The append is admitted to slot 3 though the flush is at work on its tile: the one record that stands for the slot from then on is that of
the entry that it was admitted to, and so it runs at once. -/
theorem twiceNamed_runs : (twiceNamed.arrive 0).flushing 0 = true ∧
    (goesOn twiceNamed (exec (.siltAppend 0 (.doorbell 3 0) emptyAppend) twiceNamed)).pg.opq = [] := by
  decide +kernel

/-- Refutes O16: the clause of an append at a tile whose flush is at work fails in a state whose slot table names a slot twice. -/
theorem not_streamsAreAppendedMarkedAndRewritten : ¬ Obligations.StreamsAreAppendedMarkedAndRewritten := by
  unfold Obligations.StreamsAreAppendedMarkedAndRewritten
  intro h
  obtain ⟨flushing, runs⟩ := twiceNamed_runs
  obtain ⟨-, -, waits, -⟩ := h twiceNamed 0 (.doorbell 3 0) emptyAppend 77 1 servingComp emptyCtx emptyStrm (by decide +kernel)
    (by decide +kernel) rfl rfl
  obtain ⟨v, hv, -, queued⟩ := waits twiceNamed_taken (by decide) flushing
  have empty : v.pg.opq = [] := by rw [hv] at runs; exact runs
  rw [empty] at queued
  cases queued

end Sys2Proof.Machine

/-! ## Attention (04) -/

namespace Sys2Proof.Machine

/-! ### Admission of the sections of a request (R39, R52, R113) -/

/-- Finding a slot never gives the cause that ends a section (R39, R52). -/
theorem findSlot_cause_ne_ten (s : State) (x : Load) : (s.findSlot x).cause ≠ some 10 := by
  unfold State.findSlot
  extract_lets now cand room live
  split <;> simp

/-- Admission ends what arrives before synchronisation with a deadline, and nothing else (R39). -/
theorem admission_cause_eq_ten_iff (s : State) (x : Load) (d : Option Phase) :
    (s.admission x d).cause = some 10 ↔ s.phs.sync = false ∧ d.isSome = true := by
  unfold State.admission
  cases hsync : s.phs.sync with
  | false => cases d <;> simp
  | true =>
    have found := findSlot_cause_ne_ten s x
    rw [if_neg (by simp)]
    split
    · simp
    · dsimp only
      split
      · split <;> simp [found]
      · simp [found]

section
variable (s : State) (src : Source) (job comp : Nat) (r : AttendReq)

theorem admitSec_ended (q : QSection) (y : Strm) :
    (s.admitSec src job comp r q y).1.block.isSome = (!s.phs.sync && r.env.dl) := by
  have ends := admission_cause_eq_ten_iff s (secLoad r comp (attendClass r.head) y (arrivalPages r y))
    (if r.env.dl then some r.env.deadline else none)
  have dl : (if r.env.dl then some r.env.deadline else none).isSome = r.env.dl := by cases r.env.dl <;> rfl
  rw [dl] at ends
  have block : (s.admitSec src job comp r q y).1.block.isSome = true ↔ (s.admission (secLoad r comp (attendClass r.head) y (arrivalPages r y))
      (if r.env.dl then some r.env.deadline else none)).cause = some 10 := by
    unfold State.admitSec
    exact Option.isSome_ite
  rw [Bool.eq_iff_iff, block, ends]
  simp

/-- Places taken and breaches recorded leave the clock of the Phase unit, and so whether it is synchronised. -/
theorem admitSec_sync (q : QSection) (y : Strm) : (s.admitSec src job comp r q y).2.phs.sync = s.phs.sync :=
  PhaseSt.eq_of_clock PhaseSt.sync (fun _ => rfl)
    (Within.keeps (l := [.clock]) (p := .clock) (by apply State.admitSec_within (hs := .refl _ s) <;> rfl) (by simp))

theorem admitSecs_cons (x : QSection × Strm) (l : List (QSection × Strm)) : (s.admitSecs src job comp r (x :: l)).1 =
    (s.admitSec src job comp r x.1 x.2).1 :: ((s.admitSec src job comp r x.1 x.2).2.admitSecs src job comp r l).1 := rfl

theorem admitSecs_length (l : List (QSection × Strm)) : (s.admitSecs src job comp r l).1.length = l.length := by
  induction l generalizing s with
  | nil => rfl
  | cons x l ih => rw [admitSecs_cons, List.length_cons, ih, List.length_cons]

/-- Admission ends all the sections of a request, or none of them. -/
theorem admitSecs_allEnded (l : List (QSection × Strm)) :
    ((s.admitSecs src job comp r l).1.all fun x => x.block.isSome) = (l.isEmpty || (!s.phs.sync && r.env.dl)) := by
  induction l generalizing s with
  | nil => rfl
  | cons x l ih =>
    rw [admitSecs_cons, List.all_cons, ih, admitSec_ended, admitSec_sync]
    cases l.isEmpty <;> simp

theorem admitSecs_rq (l : List (QSection × Strm)) : (s.admitSecs src job comp r l).2.rq = s.rq :=
  Within.keeps (l := [.rq]) (p := .rq) (by apply State.admitSecs_within (hs := .refl _ s) <;> rfl) (by simp)

theorem admitSecs_pg (l : List (QSection × Strm)) : (s.admitSecs src job comp r l).2.pg = s.pg :=
  Within.keeps (l := [.pg]) (p := .pg) (by apply State.admitSecs_within (hs := .refl _ s) <;> rfl) (by simp)

end

/-! ### A request enters (R112, R113) -/

/-- A request as it waits for the dispatch of its sections. -/
def State.waitingReq (s : State) (src : Source) (job comp : Nat) (r : AttendReq) (l : List (QSection × Strm)) : Req :=
  { id := s.rq.nextId, src, job, comp, req := r, secs := (s.admitSecs src job comp r l).1, queue := none, asked := false, stopped := false, bytes := 0 }

/-- No check of R112 reads a counter. -/
theorem counting_attendCheck (s : State) (c : List (Nat × Nat × Nat)) (src : Source) (job comp : Nat) (r : AttendReq) :
    (s.counting c).attendCheck src job comp r = s.attendCheck src job comp r := by
  cases src <;> rfl

/-- A request on a context that is not dormant, whose sections admission does not end, joins the others under the next identifier. -/
theorem attend_enters {s : State} {src : Source} {r : AttendReq} {job comp : Nat} {k : Ctx} {ys : List Strm} (of : s.sourceOf src = (job, comp))
    (serves : s.compRefusal comp = none) (passes : s.attendCheck src job comp r = .inr (k, ys)) (awake : k.dormant = false)
    (goes : ((s.admitSecs src job comp r (List.zip r.secs ys)).1.all fun x => x.block.isSome) = false) :
    ∃ c, (s.attend src r).pg = s.pg ∧ (s.attend src r).rq = { s.rq with
      reqs := s.rq.reqs ++ [(s.counting c).waitingReq src job comp r (List.zip r.secs ys)], nextId := s.rq.nextId + 1 } := by
  obtain ⟨c, stall⟩ := adirStall_eq s 0 (ctxKey job r.env.ctx)
  have passes' : (s.counting c).attendCheck src job comp r = .inr (k, ys) := (counting_attendCheck ..).trans passes
  have goes' : (((s.counting c).admitSecs src job comp r (List.zip r.secs ys)).1.all fun x => x.block.isSome) = false := by
    rw [admitSecs_allEnded] at goes ⊢; exact goes
  have hrq := admitSecs_rq (s.counting c) src job comp r (List.zip r.secs ys)
  have hpg := admitSecs_pg (s.counting c) src job comp r (List.zip r.secs ys)
  have serves' : (s.counting c).compRefusal comp = none := serves
  refine ⟨c, ?_⟩
  unfold State.attend
  rw [of]
  dsimp only
  rw [stall, serves']
  dsimp only
  rw [passes']
  dsimp only
  rw [goes', awake, if_neg (by simp), if_neg (by simp), hrq]
  exact ⟨hpg, rfl⟩

/-! ### A section that ends (R124, R127) -/

/-- `setSec` changes a section by its number: the list modified at that place. -/
theorem zipIdx_map_eq_modify {α : Type} (l : List α) (i : Nat) (f : α → α) :
    (l.zipIdx.map fun x => if x.2 = i then f x.1 else x.1) = l.modify i f := by
  refine List.ext_getElem? fun j => ?_
  rw [List.getElem?_modify, List.getElem?_map, List.getElem?_zipIdx]
  cases l[j]? with
  | none => rfl
  | some x => by_cases h : j = i <;> simp [h, eq_comm]

/-- The one request at work, with one of its sections changed. -/
theorem setSec_reqs {s : State} {r : Req} (one : s.rq.reqs = [r]) (i : Nat) (f : Sec → Sec) :
    (s.setSec r.id i f).rq.reqs = [{ r with secs := r.secs.modify i f }] := by
  rw [State.setSec, State.setReq, one]
  simp only [zipIdx_map_eq_modify, mapIf, List.map_cons, List.map_nil, beq_self_eq_true, if_true]

/-- The second list holds the sections of the first, but for whether their blocks have been sent. -/
def SentOnly (l m : List Sec) : Prop := m.length = l.length ∧ ∀ (j : Nat) (x : Sec), l[j]? = some x → ∃ sent, m[j]? = some { x with sent }

theorem SentOnly.refl (l : List Sec) : SentOnly l l := ⟨rfl, fun _ x h => ⟨x.sent, h⟩⟩

theorem SentOnly.cons {l m : List Sec} (x : Sec) (sent : Bool) (h : SentOnly l m) : SentOnly (x :: l) ({ x with sent } :: m) := by
  refine ⟨congrArg (· + 1) h.1, fun j y hy => ?_⟩
  cases j with
  | zero =>
    obtain rfl : x = y := by simpa using hy
    exact ⟨sent, rfl⟩
  | succ j => exact h.2 j y hy

theorem markSent_sentOnly (l : List Sec) : SentOnly l (markSent l) := by
  induction l with
  | nil => exact .refl []
  | cons x l ih =>
    unfold markSent
    split
    · exact ih.cons x true
    · exact .refl _

/-- A section that has no block and was not sent is not sent now (R124). -/
theorem markSent_not_all {l : List Sec} {x : Sec} (mem : x ∈ l) (open_ : x.block = none) (unsent : x.sent = false) :
    (markSent l).all (·.sent) = false := by
  induction l with
  | nil => cases mem
  | cons y l ih =>
    unfold markSent
    split
    next final =>
      have later : x ∈ l := (List.mem_cons.1 mem).resolve_left fun e => by subst e; simp [open_] at final
      rw [List.all_cons, ih later, Bool.and_false]
    · exact List.all_eq_false.2 ⟨x, mem, by simp [unsent]⟩

/-- A request with a section that has no block stays when what is final of it is sent. -/
theorem flush_stays {s : State} {r : Req} {x : Sec} (one : s.rq.reqs = [r]) (mem : x ∈ r.secs) (open_ : x.block = none) (unsent : x.sent = false) :
    ∃ q, (s.flush r.id).rq.reqs = [q] ∧ q.id = r.id ∧ SentOnly r.secs q.secs := by
  have found : s.req? r.id = some r := by simp [State.req?, one]
  unfold State.flush
  rw [found]
  dsimp only
  split
  · exact ⟨r, one, rfl, .refl _⟩
  · rw [markSent_not_all mem open_ unsent, if_neg (by simp)]
    refine ⟨{ r with secs := markSent r.secs, bytes := (s.sendBlocks r r.secs r.bytes).2 }, ?_, rfl, markSent_sentOnly r.secs⟩
    simp [State.setReq, mapIf, sendBlocks_rq, one]

section
variable (s : State) (r : Req) (i : Nat) (x : Sec) (p : Snap) (rows : List (List Nat))

/-- What is counted and recorded of a section that ends: the checks of R151, zero values, and whether the end is late (R57). -/
def State.settleSec : Bool × State :=
  let n := p.violations r.req.head r.req.mask rows
  let s := if p.bounds = [] then s else s.marginCount p.comp n.1 n.2
  let s := if p.zeros = 0 then s else s.countC p.comp 0x3210 5 p.zeros
  s.lateBreach r.src r.req.env r.queue r.job r.comp (attendClass r.req.head) x.slot x.breach x.limit

theorem settleSec_reqs : (s.settleSec r x p rows).2.rq.reqs = s.rq.reqs := by
  unfold State.settleSec
  extract_lets n a b
  have ha : a.rq.reqs = s.rq.reqs := by unfold a; split <;> rfl
  have hb : b.rq = a.rq := by unfold b; split <;> rfl
  rw [lateBreach_rq, hb, ha]

/-- The block of a section that ends (R124). -/
def Sec.finalBlock (late : Bool) : Block :=
  { status := if late then .contractBreach else if x.run = 1 then .okFallback else .ok, run := x.run, stream := x.stream
    rows := p.rows r.req.head r.req.mask rows, dv := p.dv, pages := p.pages.length, tokens := 16 * p.pages.length + p.silt.length
    cand := if r.req.head.sieve || x.run == 1 then p.cand else p.pages.length, hint := none }

/-- What follows a block before it is sent: its pages may be promoted, a shadow keeps its CRC, its slot has a place less, and its time counts
for α. -/
def State.afterBlock (b : Block) : State :=
  let s := s.noteAttended r.job r.req.env.ctx x.stream (p.pages.map (·.1))
  let s := s.shadowOwn r.comp r.req.env.tag.toNat i (b.toBytes r.req.env r.req.head)
  let s := match x.slot with
    | some m => s.donePlace m x.arrive
    | none => s
  s.ratio (attendClass r.req.head) x.begun x.formula

theorem afterBlock_rq (b : Block) : (s.afterBlock r i x p b).rq = s.rq := by
  unfold State.afterBlock
  extract_lets noted kept placed
  have hk : kept.rq = s.rq := by unfold kept State.shadowOwn; split <;> rfl
  rw [ratio_rq]
  unfold placed
  split
  · rw [donePlace_rq, hk]
  · exact hk

/-- The section holds its block, and runs no longer. -/
def Sec.ended (b : Block) (x : Sec) : Sec := { x with block := some b, running := false }

theorem finishSec_eq_flush : s.finishSec r i x p rows =
    let b := x.finalBlock r p rows (s.settleSec r x p rows).1
    (((s.settleSec r x p rows).2.setSec r.id i (.ended b)).afterBlock r i x p b).flush r.id := rfl

end

/-- The end of a running section writes its block; another section that has none keeps the request, and its sections run as they did. -/
theorem finishSec_stays {s : State} {r : Req} {i j : Nat} {x y : Sec} (p : Snap) (rows : List (List Nat)) (one : s.rq.reqs = [r])
    (other : j ≠ i) (at_ : r.secs[j]? = some y) (open_ : y.block = none) (unsent : y.sent = false) :
    ∃ q late, (s.finishSec r i x p rows).rq.reqs = [q] ∧ q.id = r.id ∧ SentOnly (r.secs.modify i (.ended (x.finalBlock r p rows late))) q.secs := by
  rw [finishSec_eq_flush]
  extract_lets b
  have hset : ((s.settleSec r x p rows).2.setSec r.id i (.ended b)).rq.reqs = [{ r with secs := r.secs.modify i (.ended b) }] :=
    setSec_reqs ((settleSec_reqs ..).trans one) ..
  have hat : (r.secs.modify i (.ended b))[j]? = some y := by rw [List.getElem?_modify_ne _ _ other.symm, at_]
  obtain ⟨q, hq, hid, hsecs⟩ := flush_stays (r := { r with secs := r.secs.modify i (.ended b) }) ((congrArg ReqSt.reqs (afterBlock_rq ..)).trans hset)
    (List.mem_of_getElem? hat) open_ unsent
  exact ⟨q, _, hq, hid, hsecs⟩

theorem finishSec_pg (s : State) (r : Req) (i : Nat) (x : Sec) (p : Snap) (rows : List (List Nat)) : (s.finishSec r i x p rows).pg = s.pg :=
  Within.keeps (l := [.pg]) (p := .pg) (by apply State.finishSec_within (hs := .refl _ s) <;> rfl) (by simp)

/-- Nothing that waits for an answer has a producer that a test accepts, when no such message stands in a queue, on hold or outstanding. -/
theorem inFlight_eq_false {s : State} {f : Producer → Bool} (queued : ∀ e ∈ s.egq.qs, ∀ m ∈ e.2.waiting, f m.prod = false)
    (held : ∀ h ∈ s.egq.held, f h.2.prod = false) (sent : ∀ e ∈ s.rmo.send, ∀ o ∈ e.2.outst, f o.msg.prod = false) : s.inFlight f = false := by
  simp only [State.inFlight, Bool.or_eq_false_iff, List.any_eq_false, Bool.not_eq_true]
  exact ⟨⟨queued, held⟩, sent⟩

/-- Whether a message fetches a page of a section. -/
def Producer.fetches (id sec : Nat) : Producer → Bool
  | .fetch a b _ => a == id && b == sec
  | _ => false

theorem fetches_eq_false {m : Producer} {id : Nat} (sec : Nat) (h : ∀ a b, m ≠ .fetch id a b) : m.fetches id sec = false := by
  cases m
  case fetch a b c =>
    have : a ≠ id := fun e => h b c (by rw [e])
    simp [Producer.fetches, this]
  all_goals rfl

/-- A running section with nothing left to attend and nothing to wait for ends (R127). -/
theorem attentionComplete_finishes {s : State} {t sec : Nat} {q : Req} {x : Sec} {g : QSection} {p : Snap} (one : s.rq.reqs = [q])
    (at_ : q.secs[sec]? = some x) (named : q.req.secs[sec]? = some g) (snap : x.snap = some p) (running : x.running = true)
    (open_ : x.block = none) (whole : x.lost = false) (all : x.left = 0) (going : x.paused = false) (scanned : s.scanOut q.id sec = false)
    (fetched : s.inFlight (Producer.fetches q.id sec) = false) :
    exec (.attentionComplete t q.id sec) s = .next ((s.arrive t).finishSec q sec x p g.rows) := by
  have hreq : (s.arrive t).req? q.id = some q := by simp [State.req?, one]
  have hscan : (s.arrive t).scanOut q.id sec = false := by rw [← scanned, arrive_eq]; rfl
  have hfetch : (s.arrive t).inFlight (Producer.fetches q.id sec) = false := by rw [← fetched, arrive_eq]; rfl
  change execAttentionComplete t q.id sec s = _
  unfold execAttentionComplete
  dsimp only
  rw [hreq]
  dsimp only
  rw [at_, named]
  dsimp only
  rw [snap]
  dsimp only
  rw [hscan, if_pos all, running, open_, whole, going]
  exact if_pos (congrArg (fun w => !w && true) hfetch)

/-- Settles O28, from how a request enters and how a section ends. -/
theorem attendRequestsEnterAndTheirSectionsEnd : Obligations.AttendRequestsEnterAndTheirSectionsEnd := by
  unfold Obligations.AttendRequestsEnterAndTheirSectionsEnd
  intro s t u
  have hrq : u.rq = s.rq := arrive_rq s t
  have hpg : u.pg = s.pg := State.arrive_pg s t
  refine ⟨fun src r job comp k ys ready open_ of serves passes awake goes => ?_, fun src r ready stopped => ?_,
    fun q sec x g p one at_ named snap running unblocked whole all going scanned queued held sent ⟨j, y, other, hy, yopen, unsent⟩ => ?_⟩
  · have hexec : exec (.attendRequest t src r) s = .next (u.attend src r) := by
      change execAttendRequest t src r s = _
      unfold execAttendRequest
      simp [ready, open_, u]
    obtain ⟨c, hvpg, hv⟩ := attend_enters of serves passes awake goes
    rw [hrq] at hv
    refine .of_exec hexec ⟨?_, hvpg.trans hpg, ?_, (u.counting c).waitingReq src job comp r (List.zip r.secs ys), ?_,
      congrArg ReqSt.nextId hrq, rfl, rfl, rfl, rfl, rfl, admitSecs_length ..⟩ <;> rw [hv]
  · have hexec : exec (.attendRequest t src r) s = .next (u.hold (.attendRequest t src r)) := by
      change execAttendRequest t src r s = _
      unfold execAttendRequest
      simp [ready, stopped, u]
    exact .of_exec hexec (by rw [State.hold, hrq])
  · have fetched : s.inFlight (Producer.fetches q.id sec) = false :=
      inFlight_eq_false (fun e he m hm => fetches_eq_false sec (queued e he m hm)) (fun h hh => fetches_eq_false sec (held h hh))
        fun e he o ho => fetches_eq_false sec (sent e he o ho)
    have hexec := attentionComplete_finishes (t := t) one at_ named snap running unblocked whole all going scanned fetched
    obtain ⟨q', late, hreqs, hid, hlen, hsecs⟩ := finishSec_stays (x := x) p g.rows ((congrArg ReqSt.reqs hrq).trans one) other hy yopen unsent
    have hended : (q.secs.modify sec (.ended (x.finalBlock q p g.rows late)))[sec]? = some (x.ended (x.finalBlock q p g.rows late)) := by
      rw [List.getElem?_modify_eq, at_]; rfl
    obtain ⟨w, hw⟩ := hsecs sec _ hended
    refine .of_exec hexec ⟨(finishSec_pg ..).trans hpg, q', hreqs, hid, hlen.trans (List.length_modify ..),
      ⟨_, _, hw, rfl, rfl, rfl, rfl, rfl, rfl, rfl⟩, fun j y other hy => ?_⟩
    obtain ⟨w, hw⟩ := hsecs j y (by rw [List.getElem?_modify_ne _ _ other.symm, hy])
    exact ⟨_, hw, rfl⟩

end Sys2Proof.Machine

/-! ## The sieve (05) -/

namespace Sys2Proof.Machine

/-! ### The highest of a list (R138, R141) -/

section
variable (rank : Nat → Nat)

/-- The scan of `topBy` over a list finds an element of highest rank. -/
theorem foldl_best_isMax (p : Nat) (ps : List Nat) :
    let best := ps.foldl (fun b q => if rank b < rank q then q else b) p
    best ∈ p :: ps ∧ ∀ q ∈ p :: ps, rank q ≤ rank best := by
  induction ps generalizing p with
  | nil => simp
  | cons x xs ih =>
    rw [List.foldl_cons]
    split
    · next higher =>
      obtain ⟨mem, le⟩ := ih x
      refine ⟨List.mem_cons_of_mem _ mem, List.forall_mem_cons.2 ⟨?_, le⟩⟩
      exact higher.le.trans (le x List.mem_cons_self)
    · next lower =>
      obtain ⟨mem, le⟩ := ih p
      obtain ⟨le_p, le_xs⟩ := List.forall_mem_cons.1 le
      refine ⟨?_, List.forall_mem_cons.2 ⟨le_p, List.forall_mem_cons.2 ⟨?_, le_xs⟩⟩⟩
      · exact (List.cons_sublist_cons.2 (List.sublist_cons_self x xs)).subset mem
      · exact (not_lt.1 lower).trans le_p

@[simp] theorem topBy_zero (l : List Nat) : topBy rank 0 l = [] := rfl

@[simp] theorem topBy_nil (n : Nat) : topBy rank n [] = [] := by cases n <;> rfl

/-- What `topBy` takes first is an element of highest rank; the others it takes from what is left. -/
theorem topBy_succ_cons (n p : Nat) (ps : List Nat) : ∃ best ∈ p :: ps, (∀ q ∈ p :: ps, rank q ≤ rank best) ∧
    topBy rank (n + 1) (p :: ps) = best :: topBy rank n ((p :: ps).erase best) := by
  obtain ⟨mem, le⟩ := foldl_best_isMax rank p ps
  exact ⟨_, mem, le, rfl⟩

theorem topBy_subperm (n : Nat) (l : List Nat) : (topBy rank n l).Subperm l := by
  induction n generalizing l with
  | zero => exact List.nil_subperm
  | succ n ih =>
    cases l with
    | nil => exact List.nil_subperm
    | cons p ps =>
      obtain ⟨best, mem, -, eq⟩ := topBy_succ_cons rank n p ps
      rw [eq]
      exact ((List.subperm_cons best).2 (ih _)).trans (List.perm_cons_erase mem).symm.subperm

theorem topBy_nodup (n : Nat) {l : List Nat} (nodup : l.Nodup) : (topBy rank n l).Nodup := by
  obtain ⟨m, perm, sub⟩ := topBy_subperm rank n l
  exact perm.nodup_iff.1 (nodup.sublist sub)

theorem topBy_length (n : Nat) (l : List Nat) : (topBy rank n l).length = min n l.length := by
  induction n generalizing l with
  | zero => simp
  | succ n ih =>
    cases l with
    | nil => simp
    | cons p ps =>
      obtain ⟨best, mem, -, eq⟩ := topBy_succ_cons rank n p ps
      rw [eq, List.length_cons, ih, List.length_erase_of_mem mem, List.length_cons, Nat.add_sub_cancel,
        Nat.succ_min_succ]

/-- Nothing that `topBy` leaves ranks above what it takes. -/
theorem rank_le_of_mem_topBy {n : Nat} {l : List Nat} {p q : Nat} (taken : p ∈ topBy rank n l) (listed : q ∈ l)
    (left : q ∉ topBy rank n l) : rank q ≤ rank p := by
  induction n generalizing l with
  | zero => simp at taken
  | succ n ih =>
    cases l with
    | nil => simp at taken
    | cons x xs =>
      obtain ⟨best, -, le, eq⟩ := topBy_succ_cons rank n x xs
      rw [eq, List.mem_cons] at taken left
      obtain ⟨not_best, still_left⟩ := not_or.1 left
      rcases taken with rfl | later
      · exact le q listed
      · exact ih later ((List.mem_erase_of_ne not_best).2 listed) still_left

end

/-- Two pages rank alike only if they are one page: the ranking word holds the page index (R138). -/
theorem rankWord_page_inj {k k' : BitVec 32} {p q : Nat} (hp : p < 2 ^ 32) (hq : q < 2 ^ 32)
    (same : rankWord k p = rankWord k' q) : p = q := by
  unfold rankWord at same
  omega

/-! ### The selection (R141, R142) -/

/-- The pages that fill the budget beside the forced pages: the highest-ranked of the other candidates (R141). -/
def fillPages (cands forced : List Nat) (key : Nat → BitVec 32) (b : Nat) : List Nat :=
  topBy (fun p => rankWord (key p) p) (b - forced.length) (cands.filter fun p => !forced.contains p)

section
variable {cands forced : List Nat} {key : Nat → BitVec 32} {b : Nat}

theorem selectPages_of_budget_le (h : b ≤ forced.length) : selectPages cands forced key b = forced := if_pos h

theorem selectPages_of_lt_budget (h : forced.length < b) : selectPages cands forced key b =
    cands.filter fun p => forced.contains p || (fillPages cands forced key b).contains p := if_neg h.not_ge

theorem mem_selectPages (h : forced.length < b) {p : Nat} : p ∈ selectPages cands forced key b ↔
    p ∈ cands ∧ (p ∈ forced ∨ p ∈ fillPages cands forced key b) := by
  simp [selectPages_of_lt_budget h]

theorem mem_of_mem_fillPages {p : Nat} (h : p ∈ fillPages cands forced key b) : p ∈ cands ∧ p ∉ forced := by
  simpa using (topBy_subperm _ _ _).subset h

theorem selectPages_sublist (part : forced.Sublist cands) : (selectPages cands forced key b).Sublist cands := by
  rcases le_or_gt b forced.length with full | room
  · exact by rwa [selectPages_of_budget_le full]
  · exact selectPages_of_lt_budget room ▸ List.filter_sublist

/-- The candidates are the forced pages and the others. -/
theorem cands_perm_forced_append (nodup : cands.Nodup) (part : forced.Sublist cands) :
    cands.Perm (forced ++ cands.filter fun p => !forced.contains p) := by
  have apart : (forced ++ cands.filter fun p => !forced.contains p).Nodup :=
    (nodup.sublist part).append (nodup.filter _) fun p hp hq => by simp [hp] at hq
  refine (List.perm_ext_iff_of_nodup nodup apart).2 fun p => ?_
  by_cases hp : p ∈ forced
  · simp [hp, part.subset hp]
  · simp [hp]

/-- The selection is the forced pages and the filling ones, each once. -/
theorem selectPages_perm_forced_append_fillPages (nodup : cands.Nodup) (part : forced.Sublist cands) (room : forced.length < b) :
    (selectPages cands forced key b).Perm (forced ++ fillPages cands forced key b) := by
  have fill : (fillPages cands forced key b).Nodup := topBy_nodup _ _ (nodup.filter _)
  have apart : (forced ++ fillPages cands forced key b).Nodup :=
    (nodup.sublist part).append fill fun p hp hq => (mem_of_mem_fillPages hq).2 hp
  refine (List.perm_ext_iff_of_nodup (nodup.sublist (selectPages_sublist part)) apart).2 fun p => ?_
  rw [mem_selectPages room, List.mem_append, and_iff_right_iff_imp]
  rintro (hp | hp)
  · exact part.subset hp
  · exact (mem_of_mem_fillPages hp).1

theorem selectPages_length (nodup : cands.Nodup) (part : forced.Sublist cands) (room : forced.length < b) :
    (selectPages cands forced key b).length = min b cands.length := by
  have whole := (cands_perm_forced_append nodup part).length_eq
  have chosen := (selectPages_perm_forced_append_fillPages (key := key) nodup part room).length_eq
  rw [List.length_append] at whole chosen
  rw [fillPages, topBy_length] at chosen
  omega

/-- A candidate left out ranks below every selected page that is not forced (R138, R141). -/
theorem rankWord_lt_of_not_mem_selectPages (small : ∀ p ∈ cands, p < 2 ^ 32) (room : forced.length < b) {p q : Nat}
    (selected : p ∈ selectPages cands forced key b) (free : p ∉ forced) (listed : q ∈ cands)
    (left : q ∉ selectPages cands forced key b) : rankWord (key q) q < rankWord (key p) p := by
  obtain ⟨hp, hforced | filled⟩ := (mem_selectPages room).1 selected
  · exact absurd hforced free
  have hq : q ∉ forced ∧ q ∉ fillPages cands forced key b := by
    simpa [mem_selectPages room, listed] using left
  obtain ⟨q_free, q_left⟩ := hq
  have le : rankWord (key q) q ≤ rankWord (key p) p :=
    rank_le_of_mem_topBy (fun p => rankWord (key p) p) filled (by simp [listed, q_free]) q_left
  refine lt_of_le_of_ne le fun same => left ?_
  rwa [rankWord_page_inj (small q listed) (small p hp) same]

end

/-- Settles O54: the selection is a sublist of the candidates that is the forced pages and what `topBy` takes of the others, and no two
pages rank alike. -/
theorem sieveSelectsTheHighestPages : Obligations.SieveSelectsTheHighestPages := by
  unfold Obligations.SieveSelectsTheHighestPages
  intro cands forced key b sel rank ascending part small
  have nodup : cands.Nodup := ascending.imp Nat.ne_of_lt
  have sub : sel.Sublist cands := selectPages_sublist part
  have size (room : forced.length < b) : sel.length = min b cands.length := selectPages_length nodup part room
  refine ⟨selectPages_of_budget_le, fun room => ⟨fun p hp => ?_, fun p hp => sub.subset hp, size room, fun p q => ?_⟩,
    ascending.sublist sub, fun few room => ?_⟩
  · exact (mem_selectPages room).2 ⟨part.subset hp, .inl hp⟩
  · exact rankWord_lt_of_not_mem_selectPages small room
  · exact sub.eq_of_length ((size room).trans (min_eq_right few))

end Sys2Proof.Machine

/-! ## Corpus operations (06) -/

namespace Sys2Proof.Machine

/-! ### A management operation that passes its tests (R105, R160) -/

theorem Yields.imp {i : Instr} {s : State} {P Q : State → Prop} (h : Yields i s P) (pq : ∀ v, P v → Q v) : Yields i s Q :=
  let ⟨v, hexec, hv⟩ := h
  ⟨v, hexec, pq v hv⟩

/-- A completion takes an identifier from the request path. -/
theorem endOp_corpora (s : State) (src : Source) (env : Envelope) (q : Option Nat) (op : Nat) (st : Status) (v : Nat) (contract : Bool) :
    (s.endOp src env q op st v contract).rq.corpora = s.rq.corpora := by
  unfold State.endOp
  dsimp only
  rw [sendFlag_rq, sendResult_rq]
  rfl

theorem endOp_sch (s : State) (src : Source) (env : Envelope) (q : Option Nat) (op : Nat) (st : Status) (v : Nat) (contract : Bool) :
    (s.endOp src env q op st v contract).sch = s.sch :=
  Within.keeps (l := [.sch]) (p := .sch) (by apply State.endOp_within (hs := .refl _ s) <;> rfl) (by simp)

/-- A management operation that passes the tests acts, and ends with its completion; a search of the directory may count a stall (R223). -/
theorem manageCommand_acts {s : State} {src : Source} {env : Envelope} {job comp : Nat} (taken : CorpusTaken s src env job comp) (i : Instr)
    (op : Nat) (act : State → Nat → Nat → Status × Nat × State) :
    ∃ n q, let out := act (s.counting n) job comp
      s.manageCommand i src env op act = out.2.2.endOp src env q op out.1 out.2.1 false := by
  obtain ⟨ready, goes, of, path, serves, dl, kind, epoch⟩ := taken
  obtain ⟨q, path⟩ := Option.ne_none_iff_exists'.1 path
  obtain ⟨n, stall⟩ := adirStall_eq s 0 (ctxKey job env.ctx)
  have onTime : ¬ (env.dl = true ∧ (!s.phs.sync) = true) := by
    rintro ⟨hdl, hsync⟩
    simp [dl hdl] at hsync
  refine ⟨n, q, ?_⟩
  unfold State.manageCommand State.manage
  rw [if_neg (by simp [ready]), if_neg (by simp [goes]), of]
  dsimp only
  rw [path]
  dsimp only
  rw [serves]
  dsimp only
  rw [if_neg onTime, if_neg (not_not.2 kind), if_neg (by simp [epoch]), stall]

/-- What a management operation that passes the tests leaves, where `f` is what it does to the state: the contexts and the schedule where
`f` leaves them, and the corpora of `f`. -/
theorem yields_manage {i : Instr} {s : State} {t op : Nat} {src : Source} {env : Envelope} {job comp : Nat}
    {act : State → Nat → Nat → Status × Nat × State} {f : State → State} (taken : CorpusTaken (s.arrive t) src env job comp)
    (hexec : exec i s = .next ((s.arrive t).manageCommand i src env op act))
    (acts : ∀ n, (act ((s.arrive t).counting n) job comp).2.2 = f ((s.arrive t).counting n))
    (frame : ∀ x, Within (keeping [.pg, .sch]) x (f x)) :
    Yields i s fun v => v.pg = s.pg ∧ v.sch = s.sch ∧ ∃ x : State, x.rq = s.rq ∧ v.rq.corpora = (f x).rq.corpora := by
  obtain ⟨n, q, h⟩ := manageCommand_acts taken i op act
  dsimp only at h
  rw [acts] at h
  refine .of_exec (hexec.trans (congrArg _ h)) ⟨?_, ?_, (s.arrive t).counting n, arrive_rq s t, endOp_corpora ..⟩
  · exact (endOp_pg ..).trans (((frame _).keeps (p := .pg) (by simp)).trans (State.arrive_pg s t))
  · exact (endOp_sch ..).trans (((frame _).keeps (p := .sch) (by simp)).trans (State.arrive_sch s t))

theorem corpus?_congr {s t : State} (h : t.rq.corpora = s.rq.corpora) (job ctx : Nat) : t.corpus? job ctx = s.corpus? job ctx := by
  rw [State.corpus?, h]; rfl

theorem corpus?_names {s : State} {job ctx : Nat} {c : Corpus} (held : s.corpus? job ctx = some c) :
    c.job = job ∧ c.ctx = ctx ∧ c.dead = false := by
  simpa [and_assoc] using List.find?_some held

/-! ### A corpus changed in place -/

theorem find?_mapIf_some {α : Type} {p : α → Bool} {f : α → α} {l : List α} {c : α} (found : l.find? p = some c) (stays : p (f c) = true) :
    (mapIf p f l).find? p = some (f c) := by
  induction l with
  | nil => cases found
  | cons x l ih =>
    rw [mapIf, List.map_cons]
    rw [List.find?_cons] at found ⊢
    cases hx : p x with
    | true =>
      obtain rfl : x = c := by simpa [hx] using found
      simp [stays]
    | false =>
      simp only [hx] at found
      simp only [Bool.false_eq_true, if_false, hx]
      exact ih found

theorem find?_mapIf_none {α : Type} {p : α → Bool} {f : α → α} (leaves : ∀ x, p (f x) = false) (l : List α) :
    (mapIf p f l).find? p = none := by
  refine List.find?_eq_none.2 fun y hy => ?_
  obtain ⟨x, -, rfl⟩ := List.mem_map.1 hy
  split
  · simp [leaves]
  · assumption

theorem setSeg_segs (c : Corpus) (n : Nat) (f : Seg → Seg) : (c.setSeg n f).segs = c.segs.modify n f := zipIdx_map_eq_modify ..

/-- One segment of a corpus changes, and the corpus keeps its name and its other segments. -/
theorem setCorpus_setSeg {s : State} {job ctx n : Nat} {c : Corpus} {g : Seg} (held : s.corpus? job ctx = some c) (at_ : c.segs[n]? = some g)
    (f : Seg → Seg) : ∃ d, (s.setCorpus job ctx fun c => c.setSeg n f).corpus? job ctx = some d ∧ d.segs[n]? = some (f g) ∧
      ∀ i, i ≠ n → d.segs[i]? = c.segs[i]? := by
  refine ⟨c.setSeg n f, find?_mapIf_some held (List.find?_some held :), ?_, fun i other => ?_⟩
  · rw [setSeg_segs, List.getElem?_modify_eq, at_]; rfl
  · rw [setSeg_segs, List.getElem?_modify_ne _ _ other.symm]

/-- A management operation on the corpus `c` whose effect on the corpora is `change` on one segment. -/
theorem yields_segChange {i : Instr} {s : State} {t op n : Nat} {src : Source} {env : Envelope} {job comp : Nat} {c : Corpus} {g : Seg}
    {act : State → Nat → Nat → Status × Nat × State} {f : State → State} {change : Seg → Seg}
    (taken : CorpusTaken (s.arrive t) src env job comp)
    (hexec : exec i s = .next ((s.arrive t).manageCommand i src env op act))
    (acts : ∀ n, (act ((s.arrive t).counting n) job comp).2.2 = f ((s.arrive t).counting n))
    (frame : ∀ x, Within (keeping [.pg, .sch]) x (f x)) (held : s.corpus? job env.ctx = some c) (at_ : c.segs[n]? = some g)
    (effect : ∀ x : State, (f x).rq.corpora = (x.setCorpus c.job c.ctx fun c => c.setSeg n change).rq.corpora) :
    Yields i s fun v => v.pg = s.pg ∧ v.sch = s.sch ∧ ∃ d, v.corpus? job env.ctx = some d ∧ d.segs[n]? = some (change g) ∧
      ∀ i, i ≠ n → d.segs[i]? = c.segs[i]? := by
  obtain ⟨hjob, hctx, -⟩ := corpus?_names held
  refine (yields_manage taken hexec acts frame).imp fun v ⟨hpg, hsch, x, hx, hv⟩ => ⟨hpg, hsch, ?_⟩
  rw [corpus?_congr (hv.trans (effect x)), hjob, hctx]
  exact setCorpus_setSeg ((corpus?_congr (congrArg ReqSt.corpora hx) ..).trans held) at_ change

theorem writeRoot_rq (s : State) (c : Corpus) : (s.writeRoot c).rq = s.rq :=
  Within.keeps (l := [.rq]) (p := .rq) (by apply State.writeRoot_within (hs := .refl _ s) <;> rfl) (by simp)

theorem adirInsert_rq (s : State) (cls key : Nat) (vals : List (BitVec 64)) : (s.adirInsert cls key vals).rq = s.rq :=
  Within.keeps (l := [.rq]) (p := .rq) (State.adirInsert_within rfl (.refl _ s)) (by simp)

theorem writeRecs_rq (s : State) (c : Corpus) (g : Seg) (first : Nat) (recs : List Rec) (sks : List Nat) :
    (s.writeRecs c g first recs sks).rq = s.rq :=
  Within.keeps (l := [.rq]) (p := .rq) (by apply State.writeRecs_within (hs := .refl _ s) <;> rfl) (by simp)

theorem writeTombs_rq (s : State) (g : Seg) (first count : Nat) : (s.writeTombs g first count).rq = s.rq :=
  Within.keeps (l := [.rq]) (p := .rq) (by apply State.writeTombs_within (hs := .refl _ s) <;> rfl) (by simp)

/-! ### Creation (R157 to R160) -/

theorem wayPlan_length (s : State) (comp skb : Nat) (took : List (Nat × Nat × Nat)) (l : List SegSpec) :
    (s.wayPlan comp skb took l).length = l.length := by
  induction l generalizing took with
  | nil => rfl
  | cons g l ih => simp [State.wayPlan, ih]

theorem counting_wayPlan (s : State) (n : List (Nat × Nat × Nat)) (comp skb : Nat) (took : List (Nat × Nat × Nat)) (l : List SegSpec) :
    (s.counting n).wayPlan comp skb took l = s.wayPlan comp skb took l := by
  induction l generalizing took with
  | nil => rfl
  | cons g l ih =>
    rw [State.wayPlan, State.wayPlan, ih]
    rfl

/-- No check of a creation reads a counter. -/
theorem counting_corpusRefusal (s : State) (n : List (Nat × Nat × Nat)) (job comp ctx skb vfmt dim nseg : Nat) (segs : List SegSpec) :
    (s.counting n).corpusRefusal job comp ctx skb vfmt dim nseg segs = s.corpusRefusal job comp ctx skb vfmt dim nseg segs := by
  unfold State.corpusRefusal
  rw [counting_wayPlan]
  rfl

/-- A segment as it is laid out holds no record, no sketch and no tombstone. -/
theorem newSegs_empty (s : State) (comp skb stride : Nat) (l : List (SegSpec × List Nat)) :
    (s.newSegs comp skb stride l).1.length = l.length ∧ ∀ g ∈ (s.newSegs comp skb stride l).1, g.recs = [] ∧ g.sks = [] ∧ g.tombs = [] := by
  induction l generalizing s with
  | nil => exact ⟨rfl, fun g hg => nomatch hg⟩
  | cons x l ih =>
    obtain ⟨g, chans⟩ := x
    unfold State.newSegs
    dsimp only
    refine ⟨congrArg (· + 1) (ih _).1, fun y hy => ?_⟩
    rcases List.mem_cons.1 hy with rfl | hy
    · exact ⟨rfl, rfl, rfl⟩
    · exact (ih _).2 y hy

/-- A corpus is entered under its name with the shape asked for, its segments empty. -/
theorem corpusCreate_enters (s : State) (job comp ctx skb vfmt dim seed : Nat) (segs : List SegSpec) :
    ∃ c, (s.corpusCreate job comp ctx skb vfmt dim seed segs).rq.corpora = s.rq.corpora ++ [c] ∧ c.ctx = ctx ∧ c.job = job ∧ c.comp = comp ∧
      c.dim = dim ∧ c.vfmt = vfmt ∧ c.skb = skb ∧ c.dead = false ∧ c.segs.length = segs.length ∧
      ∀ g ∈ c.segs, g.recs = [] ∧ g.sks = [] ∧ g.tombs = [] := by
  let placed := s.placeArea comp 64 (64 + 32 * segs.length)
  let laid := placed.2.newSegs comp skb (strideOf dim vfmt) (placed.2.wayPlan comp skb [] segs)
  have hlaid : laid.2.rq = s.rq :=
    Within.keeps (l := [.rq]) (p := .rq) (by
      apply State.newSegs_within rfl rfl rfl
      exact State.placeArea_within rfl (.refl _ s)) (by simp)
  obtain ⟨length, empty⟩ := newSegs_empty placed.2 comp skb (strideOf dim vfmt) (placed.2.wayPlan comp skb [] segs)
  refine ⟨{ root := placed.1, ctx, job, comp, skb, vfmt, dim, seed := seed % 2 ^ 32, segs := laid.1, dead := false }, ?_, rfl, rfl, rfl, rfl,
    rfl, rfl, rfl, length.trans (wayPlan_length ..), empty⟩
  unfold State.corpusCreate
  dsimp only
  rw [adirInsert_rq, writeRoot_rq]
  exact congrArg (fun r : ReqSt => r.corpora ++ [_]) hlaid

/-! ### Records appended and deleted (R160 to R162) -/

theorem setCorpus_corpora_congr {s t : State} (h : t.rq = s.rq) (job ctx : Nat) (f : Corpus → Corpus) :
    (t.setCorpus job ctx f).rq.corpora = (s.setCorpus job ctx f).rq.corpora := by
  rw [State.setCorpus, h]; rfl

/-- A segment with records and their sketches after those it holds. -/
def Seg.appended (recs : List Rec) (sks : List Nat) (g : Seg) : Seg := { g with recs := g.recs ++ recs, sks := g.sks ++ sks }

/-- The sketches of an append: those given, cut to their width, or those of the vectors. -/
def Corpus.sketchesOf (c : Corpus) (sk : Bool) (recs : List Rec) (sketches : List Nat) : List Nat :=
  if sk then sketches.map (· % 2 ^ sketchBits c.skb) else recs.map fun r => vecSketch c.seed (sketchBits c.skb) (vec32 c.vfmt r.vec)

theorem sketchesOf_length {sk : Bool} {recs : List Rec} {sketches : List Nat} {count : Nat} (c : Corpus) (counted : recs.length = count)
    (sketched : sk = true → sketches.length = count) : (c.sketchesOf sk recs sketches).length = count := by
  unfold Corpus.sketchesOf
  split
  · next given => rw [List.length_map, sketched given]
  · rw [List.length_map, counted]

/-- An append that fits changes its segment alone. -/
theorem recordAppend_corpora {c : Corpus} {g : Seg} {n count : Nat} {sk : Bool} {recs : List Rec} {sketches : List Nat}
    (at_ : c.segs[n]? = some g) (least : 1 ≤ count) (most : count ≤ 4096) (counted : recs.length = count)
    (sketched : sk = true → sketches.length = count) (room : g.recs.length + count ≤ g.cap) (dims : ∀ r ∈ recs, r.vec.length = c.dim)
    (s : State) : (s.recordAppend c n count sk recs sketches).2.2.rq.corpora =
      (s.setCorpus c.job c.ctx fun d => d.setSeg n (.appended recs (c.sketchesOf sk recs sketches))).rq.corpora := by
  have fits : ¬ (count < 1 ∨ 4096 < count ∨ recs.length ≠ count ∨ (sk = true ∧ sketches.length ≠ count) ∨ g.cap < g.recs.length + count ∨
      (recs.any fun r => r.vec.length != c.dim) = true) := by
    simp only [not_or, not_and, not_not, not_lt, List.any_eq_true, bne_iff_ne, ne_eq, not_exists]
    exact ⟨least, most, counted, sketched, room, dims⟩
  unfold State.recordAppend
  rw [at_]
  dsimp only
  rw [if_neg fits]
  dsimp only
  rw [writeRoot_rq, setCorpus_corpora_congr (writeRecs_rq ..)]
  rfl

/-- A segment with the tombstone bits of a range of its records set. -/
def Seg.tombed (first count : Nat) (g : Seg) : Seg :=
  { g with tombs := g.tombs ++ ((List.range count).map (first + ·)).filter fun i => !g.tombs.contains i }

theorem mem_tombed (first count : Nat) (g : Seg) (i : Nat) :
    i ∈ (g.tombed first count).tombs ↔ i ∈ g.tombs ∨ (first ≤ i ∧ i < first + count) := by
  have inRange : i ∈ (List.range count).map (first + ·) ↔ first ≤ i ∧ i < first + count := by
    simp only [List.mem_map, List.mem_range]
    exact ⟨fun ⟨k, hk, e⟩ => by omega, fun h => ⟨i - first, by omega, by omega⟩⟩
  rw [Seg.tombed, List.mem_append, List.mem_filter, inRange]
  by_cases h : i ∈ g.tombs <;> simp [h]

/-- A deletion of records that exist changes its segment alone. -/
theorem recordDelete_corpora {c : Corpus} {g : Seg} {n first count : Nat} (at_ : c.segs[n]? = some g) (least : 1 ≤ count)
    (most : count ≤ 2 ^ 20) (exist : first + count ≤ g.recs.length) (s : State) : (s.recordDelete c n first count).2.2.rq.corpora =
      (s.setCorpus c.job c.ctx fun d => d.setSeg n fun _ => g.tombed first count).rq.corpora := by
  unfold State.recordDelete
  rw [at_]
  dsimp only
  rw [if_neg (by omega)]
  dsimp only
  rw [writeRoot_rq, writeTombs_rq]
  rfl

/-! ### The name removed, and the storage freed (R160, R162) -/

/-- The state once a corpus is deleted: its name leaves the directory and its job. -/
def State.corpusUnnamed (s : State) (job ctx : Nat) : State :=
  (s.adirRemove 0 (ctxKey job ctx)).setCorpus job ctx fun c => { c with dead := true }

theorem corpusUnnamed_gone (s : State) (job ctx : Nat) : (s.corpusUnnamed job ctx).corpus? job ctx = none :=
  find?_mapIf_none (fun _ => by simp) _

theorem namedCorpus_of_no_corpora {s : State} (empty : s.rq.corpora = []) (job comp ctx : Nat) : ∃ st, s.namedCorpus job comp ctx = .inl st := by
  have unheld : s.corpus? job ctx = none := by rw [State.corpus?, empty]; rfl
  rw [State.namedCorpus, unheld]
  dsimp only [Option.filter_none]
  split
  · exact ⟨_, rfl⟩
  · split
    · exact ⟨_, rfl⟩
    · exact ⟨_, rfl⟩

/-- Whether a dispatched search of a corpus runs. -/
def State.corpusBusy (s : State) (c : Corpus) : Bool :=
  s.rq.searches.any fun x => x.running && x.snap.elim false fun k => k.root == c.root && k.job == c.job && k.ctx == c.ctx

theorem corpusBusy_iff (s : State) (c : Corpus) : s.corpusBusy c = true ↔
    ∃ x ∈ s.rq.searches, x.running = true ∧ ∃ k, x.snap = some k ∧ k.root = c.root ∧ k.job = c.job ∧ k.ctx = c.ctx := by
  rw [State.corpusBusy, List.any_eq_true]
  refine exists_congr fun x => and_congr_right fun _ => ?_
  cases x.snap with
  | none => simp
  | some k => simp [and_assoc]

/-- The corpora whose storage is freed leave the list. -/
theorem corpusStorageFree_yields (s : State) (t job ctx : Nat) : Yields (.corpusStorageFree t job ctx) s fun v =>
    v.rq.corpora = s.rq.corpora.filter fun c => !(c.job == job && c.ctx == ctx && c.dead && !s.corpusBusy c) := by
  refine .of_exec (rfl : _ = execCorpusStorageFree t job ctx s) ?_
  dsimp only
  simp only [arrive_rq]
  rfl

/-- Where no search of a deleted corpus of the name runs, each of them goes. -/
theorem filter_idle {s : State} {job ctx : Nat}
    (idle : ∀ c ∈ s.rq.corpora, c.job = job → c.ctx = ctx → c.dead = true → ¬ s.corpusBusy c = true) :
    (s.rq.corpora.filter fun c => !(c.job == job && c.ctx == ctx && c.dead && !s.corpusBusy c)) =
      s.rq.corpora.filter fun c => !(c.job == job && c.ctx == ctx && c.dead) := by
  refine List.filter_congr fun c hc => congrArg _ ?_
  cases busy : s.corpusBusy c with
  | false => simp
  | true =>
    have other : ¬ (c.job = job ∧ c.ctx = ctx ∧ c.dead = true) := fun ⟨hjob, hctx, dead⟩ => idle c hc hjob hctx dead busy
    simpa [and_assoc] using other

/-- A job's corpus that has its name is found past the ones that have lost theirs. -/
theorem find?_filter_dead (l : List Corpus) (job ctx job' ctx' : Nat) :
    (l.filter fun c => !(c.job == job' && c.ctx == ctx' && c.dead)).find? (fun c => c.job == job && c.ctx == ctx && !c.dead) =
      l.find? fun c => c.job == job && c.ctx == ctx && !c.dead := by
  rw [List.find?_filter]
  refine List.find?_congr fun c _ => Bool.eq_iff_iff.2 ?_
  cases c.dead with
  | false => simp
  | true => simp

/-- Settles O26, by what each operation does to the list of corpora once its tests have passed. -/
theorem corpusOperationsChangeTheCorpus : Obligations.CorpusOperationsChangeTheCorpus := by
  unfold Obligations.CorpusOperationsChangeTheCorpus
  intro s t src env job comp u
  have named {c : Corpus} (held : s.corpus? job env.ctx = some c) (mapped : s.mapped job env.ctx = true) (own : c.comp = comp) (n) :
      (u.counting n).namedCorpus job comp env.ctx = .inr c := (arrive_namedCorpus s t ..).trans (namedCorpus_of held mapped own)
  refine ⟨fun skb vfmt dim seed nseg segs taken free => ?_,
    fun c g n count sk recs sketches taken held mapped own at_ least most counted sketched room dims => ?_,
    fun c g n first count taken held mapped own at_ least most exist => ?_, fun c taken held mapped own => ?_,
    fun taken _ empty => ?_, fun c hc busy => ?_, fun idle => ?_⟩
  · refine (yields_manage (f := fun x => x.corpusCreate job comp env.ctx skb vfmt dim seed segs) taken rfl (fun n => ?_) fun x => ?_).imp
      fun v ⟨hpg, hsch, x, hx, hv⟩ => ⟨hpg, hsch, ?_⟩
    · rw [counting_corpusRefusal, free]
    · apply State.corpusCreate_within (hs := .refl _ x) <;> rfl
    · rw [hv, ← hx]
      exact corpusCreate_enters ..
  · refine (yields_segChange (f := fun x => (x.recordAppend c n count sk recs sketches).2.2) taken rfl (fun n => ?_) (fun x => ?_) held at_
      (recordAppend_corpora at_ least most counted sketched room dims)).imp fun v ⟨hpg, hsch, d, hd, hseg, others⟩ =>
        ⟨hpg, hsch, d, _, hd, hseg, rfl, ?_, rfl, others⟩
    · rw [named held mapped own]
    · apply State.recordAppend_within (hs := .refl _ x) <;> rfl
    · exact List.length_append.trans (congrArg _ (sketchesOf_length c counted sketched))
  · refine (yields_segChange (f := fun x => (x.recordDelete c n first count).2.2) taken rfl (fun n => ?_) (fun x => ?_) held at_
      (recordDelete_corpora at_ least most exist)).imp fun v ⟨hpg, hsch, d, hd, hseg, others⟩ =>
        ⟨hpg, hsch, d, _, hd, hseg, rfl, rfl, mem_tombed first count g, others⟩
    · rw [named held mapped own]
    · apply State.recordDelete_within (hs := .refl _ x) <;> rfl
  · obtain ⟨-, hctx, -⟩ := corpus?_names held
    refine (yields_manage (f := fun x => x.corpusUnnamed job env.ctx) taken rfl (fun n => ?_) fun x => ?_).imp
      fun v ⟨hpg, hsch, x, hx, hv⟩ => ⟨?_, hpg, hsch⟩
    · rw [named held mapped own, ← hctx]
      rfl
    · apply State.setCorpus_within rfl
      apply State.adirRemove_within (hs := .refl _ x); rfl
    · rw [corpus?_congr hv]
      exact corpusUnnamed_gone ..
  · refine (yields_manage (f := id) taken rfl (fun n => ?_) (.refl _)).imp
      fun v ⟨hpg, hsch, x, hx, hv⟩ => ⟨hv.trans ((congrArg _ hx).trans empty), hpg, hsch⟩
    obtain ⟨st, hst⟩ := namedCorpus_of_no_corpora (s := u.counting n) ((congrArg ReqSt.corpora (arrive_rq s t)).trans empty) job comp env.ctx
    rw [hst]
    rfl
  · refine (corpusStorageFree_yields ..).imp fun v hv => ?_
    rw [hv, List.mem_filter, (corpusBusy_iff s c).2 busy]
    exact ⟨hc, by simp⟩
  · refine (corpusStorageFree_yields ..).imp fun v hv => ?_
    have freed := hv.trans (filter_idle fun c hc hjob hctx dead busy => idle c hc hjob hctx dead ((corpusBusy_iff s c).1 busy))
    exact ⟨freed, (congrArg (List.find? _) freed).trans (find?_filter_dead ..)⟩

end Sys2Proof.Machine

/-! ## The memory system (08) -/

namespace Sys2Proof.Machine

/-! ### What the time of a command leaves of HBM and of the directory -/

section
variable (s : State) (t : Nat)

@[simp] theorem arrive_arb (g : Nat) : (s.arrive t).arb g = s.arb g := by rw [arrive_eq]; rfl
@[simp] theorem arrive_gov (w : Nat) : (s.arrive t).gov w = s.gov w := by rw [arrive_eq]; rfl
@[simp] theorem arrive_adirBank (b : Nat) : (s.arrive t).adirBank b = s.adirBank b := by rw [arrive_eq]; rfl
@[simp] theorem arrive_adirWhere (cls key : Nat) : (s.arrive t).adirWhere cls key = s.adirWhere cls key := by rw [arrive_eq]; rfl
@[simp] theorem arrive_adirBest (cls : Nat) : (s.arrive t).adirBest cls = s.adirBest cls := by rw [arrive_eq]; rfl
@[simp] theorem arrive_keyTaken (cls key : Nat) : (s.arrive t).keyTaken cls key = s.keyTaken cls key := by rw [arrive_eq]; rfl
@[simp] theorem arrive_nmuShed : (s.arrive t).nmuShed = s.nmuShed := by rw [arrive_eq]; rfl
@[simp] theorem arrive_xored (npa : Nat) (data : List Byte) : (s.arrive t).xored npa data = s.xored npa data := by rw [arrive_eq]; rfl

end

/-! ### Arbiters, governors and banks put back -/

@[simp] theorem setArb_arb_same (s : State) (g : Nat) (a : Arb) : (s.setArb g a).arb g = a := lookD_put_same ..

theorem setArb_arb_other (s : State) {g h : Nat} (a : Arb) (ne : h ≠ g) : (s.setArb g a).arb h = s.arb h := lookD_put_other _ _ _ _ _ ne

@[simp] theorem setGov_gov_same (s : State) (w : Nat) (g : Gov) : (s.setGov w g).gov w = g := lookD_put_same ..

@[simp] theorem setBank_adirBank_same (s : State) (b : Nat) (k : Bank) : (s.setBank b k).adirBank b = k := lookD_put_same ..

/-! ### Registers (R214, R219, R221) -/

/-- A mask register once a 1 written to its ERR has cleared it. -/
def State.wayErrAcked (s : State) (k : Nat) (v : BitVec 32) : State :=
  if bitAt v.toNat 31 then { s with hbm := { s.hbm with wayErr := s.hbm.wayErr.filter (· != k) } } else s

theorem wayErrAcked_ways (s : State) (k : Nat) (v : BitVec 32) : (s.wayErrAcked k v).hbm.ways = s.hbm.ways := by
  unfold State.wayErrAcked; split <;> rfl

theorem wayErrAcked_waysNext (s : State) (k : Nat) (v : BitVec 32) : (s.wayErrAcked k v).hbm.waysNext = s.hbm.waysNext := by
  unfold State.wayErrAcked; split <;> rfl

/-- The mask that a write of PCA_WAYMASK_c names. -/
def wayMask (v : BitVec 32) : BitVec 16 := BitVec.ofNat 16 (bitsOf v.toNat 0 16)

/-- A mask clashes when another composition has, or is to have, a way of the quadrant that it names. -/
theorem wayClash_iff (s : State) (q c k : Nat) (v : BitVec 32) :
    ((List.range 16).any fun d => d != c && ((s.wayErrAcked k v).hbm.wantWays q d &&& wayMask v) != 0) = true ↔
      ∃ d, d < 16 ∧ d ≠ c ∧ s.hbm.wantWays q d &&& wayMask v ≠ 0 := by
  simp [HbmSt.wantWays, wayErrAcked_ways, wayErrAcked_waysNext]

theorem writeWays_of_clash {s : State} {q c d : Nat} {v : BitVec 32} (hd : d < 16) (other : d ≠ c)
    (clash : s.hbm.wantWays q d &&& wayMask v ≠ 0) :
    16 * q + c ∈ (s.writeWays q c v).hbm.wayErr ∧ (s.writeWays q c v).hbm.ways = s.hbm.ways ∧
      (s.writeWays q c v).hbm.waysNext = s.hbm.waysNext := by
  have refused : s.writeWays q c v = { s.wayErrAcked (16 * q + c) v with hbm := { (s.wayErrAcked (16 * q + c) v).hbm with
      wayErr := (16 * q + c) :: (s.wayErrAcked (16 * q + c) v).hbm.wayErr.filter (· != 16 * q + c) } } :=
    if_pos ((wayClash_iff s q c _ v).2 ⟨d, hd, other, clash⟩)
  rw [refused]
  exact ⟨List.mem_cons_self, wayErrAcked_ways .., wayErrAcked_waysNext ..⟩

theorem writeWays_of_apart {s : State} {q c : Nat} {v : BitVec 32} (apart : ∀ d < 16, d ≠ c → s.hbm.wantWays q d &&& wayMask v = 0)
    (new : wayMask v ≠ lookD s.hbm.ways (16 * q + c) 0) :
    (s.writeWays q c v).hbm.ways = s.hbm.ways ∧ look (s.writeWays q c v).hbm.waysNext (16 * q + c) = some (wayMask v) := by
  have pending : s.writeWays q c v = { s.wayErrAcked (16 * q + c) v with hbm := { (s.wayErrAcked (16 * q + c) v).hbm with
      waysNext := put (s.wayErrAcked (16 * q + c) v).hbm.waysNext (16 * q + c) (wayMask v) } } :=
    (if_neg fun clash => by
      obtain ⟨d, hd, other, clash⟩ := (wayClash_iff s q c _ v).1 clash
      exact clash (apart d hd other)).trans (if_neg fun same => new (same.trans (congrArg (lookD · (16 * q + c) 0) (wayErrAcked_ways ..))))
  rw [pending]
  exact ⟨wayErrAcked_ways .., look_put_same ..⟩

theorem writeGov_of_unlocked {s : State} {w : Nat} (unlocked : (s.gov w).lock = false) (v : BitVec 32) :
    s.writeGov w v = s.setGov w { s.gov w with
      maxnmu := min 8 (bitsOf v.toNat 0 4), maxbank := min 64 (bitsOf v.toNat 8 7), lock := bitAt v.toNat 31 } :=
  if_neg (by simp [unlocked])

theorem writeGov_of_locked {s : State} {w : Nat} (locked : (s.gov w).lock = true) (v : BitVec 32) : s.writeGov w v = s := if_pos locked

theorem writeBankCfg_of_empty {s : State} {n : Nat} {v : BitVec 32} (unlocked : (s.adirBank n).lock = false)
    (empty : (s.adirBank n).entries = []) (still : (s.adirBank n).moves = []) (width : bitsOf v.toNat 0 2 ≠ 3) :
    s.writeBankCfg n v = s.setBank n { s.adirBank n with
      width := bitsOf v.toNat 0 2, cls := bitsOf v.toNat 2 3, lock := bitAt v.toNat 31 } := by
  unfold State.writeBankCfg
  dsimp only
  rw [if_neg (by simp [unlocked]), if_pos ⟨empty, still, width⟩]

theorem writeBankCfg_of_filled {s : State} {n : Nat} (unlocked : (s.adirBank n).lock = false) (filled : (s.adirBank n).entries ≠ [])
    (v : BitVec 32) : s.writeBankCfg n v = s.setBank n { s.adirBank n with lock := bitAt v.toNat 31 } := by
  unfold State.writeBankCfg
  dsimp only
  rw [if_neg (by simp [unlocked]), if_neg fun h => filled h.1]

/-- Settles O11, by what a write of each register does to the field it addresses. -/
theorem hbmRegisterWrites : Obligations.HbmRegisterWrites := by
  unfold Obligations.HbmRegisterWrites
  intro s t v ready
  have ready' : (s.arrive t).ready = true := (arrive_ready s t).trans ready
  have gov (w) : exec (.nmuGovWrite t w v) s = .next ((s.arrive t).writeGov w v) := congrArg _ (if_pos ready')
  have way (q c) : exec (.pcaWaymaskWrite t q c v) s = .next ((s.arrive t).writeWays q c v) := congrArg _ (if_pos ready')
  have cfg (n) : exec (.adirBankcfgWrite t n v) s = .next ((s.arrive t).writeBankCfg n v) := congrArg _ (if_pos ready')
  refine ⟨fun w unlocked => ?_, fun w locked => ?_, fun q c d hd other clash => ?_, fun q c apart new => ?_,
    fun n unlocked empty still width => ?_, fun n unlocked filled => ?_⟩
  · refine .of_exec ((gov w).trans (congrArg Host.Outcome.next (writeGov_of_unlocked ((arrive_gov s t w) ▸ unlocked) v))) ?_
    simp
  · exact (gov w).trans (congrArg _ (writeGov_of_locked ((arrive_gov s t w) ▸ locked) v))
  · exact .of_exec (way q c) ((State.arrive_hbm s t) ▸ writeWays_of_clash hd other (by rw [State.arrive_hbm]; exact clash))
  · refine .of_exec (way q c) ((State.arrive_hbm s t) ▸ writeWays_of_apart ?_ ?_)
    · rw [State.arrive_hbm]; exact apart
    · rw [State.arrive_hbm]; exact new
  · rw [← arrive_adirBank s t] at unlocked empty still
    refine .of_exec ((cfg n).trans (congrArg Host.Outcome.next (writeBankCfg_of_empty unlocked empty still width))) ?_
    simp
  · rw [← arrive_adirBank s t] at unlocked filled
    refine .of_exec ((cfg n).trans (congrArg Host.Outcome.next (writeBankCfg_of_filled unlocked filled v))) ?_
    simp

/-! ### Entries of the directory (R223, R224, R227) -/

theorem keyTaken_eq_false {s : State} {cls key : Nat} (absent : s.adirEntry cls key = none) (still : s.adirMoving cls key = false) :
    s.keyTaken cls key = false := by
  rw [State.keyTaken, absent, still]; rfl

theorem keyTaken_eq_true {s : State} {cls key : Nat} (held : s.adirEntry cls key ≠ none ∨ s.adirMoving cls key = true) :
    s.keyTaken cls key = true := by
  simpa [State.keyTaken, Option.isSome_iff_ne_none] using held

theorem moveIn_of_best {s : State} {cls b : Nat} (best : s.adirBest cls = some b) (key : Nat) (vals : List (BitVec 64)) (fn : Option Nat) :
    s.moveIn cls key vals fn = s.setBank b { s.adirBank b with moves := (s.adirBank b).moves ++ [{ ins := true, key, vals, fn }] } := by
  rw [State.moveIn, best]

theorem moveOut_of_where {s : State} {cls key b : Nat} (held : s.adirWhere cls key = some b) (fn : Option Nat) :
    s.moveOut cls key fn = s.setBank b { s.adirBank b with
      entries := drop (s.adirBank b).entries key, moves := (s.adirBank b).moves ++ [{ ins := false, key, vals := [], fn }] } := by
  rw [State.moveOut, held]

theorem moveOut_of_absent {s : State} {cls key : Nat} (absent : s.adirWhere cls key = none) (fn : Option Nat) : s.moveOut cls key fn = s := by
  rw [State.moveOut, absent]

/-- The end of a move that no window command caused: its bank goes on to the next move, with the entry written where the move was an
insertion. -/
theorem exec_blockMoveComplete {s : State} {b : Nat} {m : Move} {rest : List Move} (first : (s.adirBank b).moves = m :: rest)
    (alone : m.fn = none) (t : Nat) :
    exec (.blockMoveComplete t b) s = .next ((s.arrive t).setBank b { s.adirBank b with
      moves := rest, entries := if m.ins then put (s.adirBank b).entries m.key m.vals else (s.adirBank b).entries }) := by
  show execBlockMoveComplete t b s = _
  unfold execBlockMoveComplete
  simp only [arrive_adirBank, first, alone]

/-- Settles O12, by the equations of an insertion, a deletion and the end of a move. -/
theorem directoryEntriesMoveInAndOut : Obligations.DirectoryEntriesMoveInAndOut := by
  unfold Obligations.DirectoryEntriesMoveInAndOut
  intro s t cls key vals
  refine ⟨fun b absent still best => ?_, fun held => ?_, fun b held => ?_, fun absent => ?_, fun b rest first => ?_, fun b rest first => ?_,
    fun temp enough => ?_, fun temp few => ?_⟩
  · have free : (s.arrive t).keyTaken cls key ≠ true := by simp [keyTaken_eq_false absent still]
    refine .of_exec (if_neg free) ?_
    rw [moveIn_of_best ((arrive_adirBest ..).trans best)]
    simp
  · exact if_pos ((arrive_keyTaken ..).trans (keyTaken_eq_true held))
  · refine .of_exec (congrArg Host.Outcome.next (moveOut_of_where ((arrive_adirWhere ..).trans held) none)) ?_
    simp
  · exact congrArg _ (moveOut_of_absent ((arrive_adirWhere ..).trans absent) none)
  · refine .of_exec (exec_blockMoveComplete first rfl t) ⟨?_, ?_, fun k other => ?_, ?_⟩
    · simp
    · simp
    · simp [look_put_other _ _ _ _ other]
    · simp
  · refine .of_exec (exec_blockMoveComplete first rfl t) ?_
    simp
  · have full : min 16 ((s.arrive t).hbm.samples + 1) = 16 := by rw [State.arrive_hbm]; omega
    refine .of_exec rfl ⟨?_, full, State.arrive_mem s t⟩
    dsimp only
    rw [full, State.arrive_hbm]
    rfl
  · have count : min 16 ((s.arrive t).hbm.samples + 1) = s.hbm.samples + 1 := by rw [State.arrive_hbm]; omega
    refine .of_exec rfl ⟨?_, count, State.arrive_mem s t⟩
    dsimp only
    rw [count]
    exact if_pos (by omega)

/-! ### Refresh (R205, R207, R208) -/

/-- The bank whose turn it is is in a granted transfer, or already refreshing. -/
def Arb.taken (a : Arb) (now : Nat) : Prop := (∃ q, a.grant = some q ∧ touchesBank q a.bank = true) ∨ a.isRefreshing now a.bank = true

/-- The turn of the refresh sequencer passes to the next bank. -/
def Arb.turned (a : Arb) : Arb := { a with bank := (a.bank + 1) % 32 }

/-- The bank in turn refreshes for 120 ns. -/
def Arb.refreshed (a : Arb) (now : Nat) : Arb := { a.turned with refreshing := put a.refreshing a.bank (now + 480) }

/-- The refresh of the bank in turn is postponed. -/
def Arb.deferred (a : Arb) : Arb := { a.turned with postponed := put a.postponed a.bank (min 4 (lookD a.postponed a.bank 0 + 1)) }

/-- The refresh of the bank in turn takes the slot of the decided grant. -/
def Arb.displaced (a : Arb) (now : Nat) : Arb :=
  { a.refreshed now with grant := none, postponed := put a.postponed a.bank (lookD a.postponed a.bank 0) }

/-- A bank is idle for its refresh when it neither computes nor is taken. -/
theorem refreshIdle_iff (a : Arb) (now : Nat) :
    (!a.compute.contains a.bank && !(a.grant.elim false fun q => touchesBank q a.bank) && !a.turned.isRefreshing now a.bank) = true ↔
      a.bank ∉ a.compute ∧ ¬ a.taken now := by
  have same : a.turned.isRefreshing now a.bank = a.isRefreshing now a.bank := rfl
  rw [same]
  unfold Arb.taken
  cases a.grant <;> simp [and_assoc]

/-- A refresh may wait while fewer than three of its bank are postponed, and as long as the bank computes. -/
theorem mayPostpone_iff (a : Arb) :
    (decide (lookD a.postponed a.bank 0 + 1 < 4) || a.compute.contains a.bank) = true ↔
      lookD a.postponed a.bank 0 < 3 ∨ a.bank ∈ a.compute := by
  simp only [Bool.or_eq_true, decide_eq_true_eq, List.contains_iff_mem, Nat.add_lt_iff_lt_sub_right]

/-- The counts of an urgent refresh: one that is urgent, and the grant that it displaces. -/
def State.displacing (s : State) (g : Nat) : State :=
  if (s.arb g).grant.isSome then (s.count 0x3030 1).count 0x3010 2 else s.count 0x3030 1

theorem displacing_eq (s : State) (g : Nat) : ∃ c, s.displacing g = s.counting c := by
  unfold State.displacing
  split
  · exact ⟨_, rfl⟩
  · exact ⟨_, rfl⟩

section
variable {s : State} {t g : Nat} (due : ((s.arrive t).refreshTick + g) % (s.arrive t).refreshStep = 0)
include due

theorem exec_refreshSlot_idle (computes : (s.arb g).bank ∉ (s.arb g).compute) (idle : ¬ (s.arb g).taken (s.arrive t).timer) :
    exec (.refreshSlot t g) s = .next ((s.arrive t).setArb g ((s.arb g).refreshed (s.arrive t).timer)) := by
  rw [← arrive_arb s t] at *
  exact (if_neg (not_not.2 due)).trans (if_pos ((refreshIdle_iff ..).2 ⟨computes, idle⟩))

theorem exec_refreshSlot_busy
    (busy : (s.arb g).bank ∈ (s.arb g).compute ∨ ((s.arb g).taken (s.arrive t).timer ∧ lookD (s.arb g).postponed (s.arb g).bank 0 < 3)) :
    exec (.refreshSlot t g) s = .next ((s.arrive t).setArb g (s.arb g).deferred) := by
  rw [← arrive_arb s t] at *
  refine (if_neg (not_not.2 due)).trans ((if_neg fun idle => ?_).trans (if_pos ((mayPostpone_iff ((s.arrive t).arb g)).2 ?_)))
  · obtain ⟨computes, free⟩ := (refreshIdle_iff ..).1 idle
    exact busy.elim computes fun h => free h.1
  · exact busy.elim .inr fun h => .inl h.2

theorem exec_refreshSlot_urgent (computes : (s.arb g).bank ∉ (s.arb g).compute) (taken : (s.arb g).taken (s.arrive t).timer)
    (urgent : 3 ≤ lookD (s.arb g).postponed (s.arb g).bank 0) :
    ∃ c, exec (.refreshSlot t g) s = .next (((s.arrive t).counting c).setArb g ((s.arb g).displaced (s.arrive t).timer)) := by
  obtain ⟨c, counted⟩ := displacing_eq (s.arrive t) g
  rw [← arrive_arb s t] at *
  have displaced : exec (.refreshSlot t g) s =
      .next (((s.arrive t).displacing g).setArb g (((s.arrive t).arb g).displaced ((s.arrive t).displacing g).timer)) :=
    (if_neg (not_not.2 due)).trans ((if_neg fun idle => ((refreshIdle_iff ..).1 idle).2 taken).trans
      (if_neg fun wait => ((mayPostpone_iff ((s.arrive t).arb g)).1 wait).elim (Nat.not_lt.2 urgent) computes))
  rw [counted] at displaced
  exact ⟨c, displaced⟩

end

/-- Settles O9, by what the slot of a due refresh does to the bank whose turn it is. -/
theorem refreshIsIssuedOrPostponed : Obligations.RefreshIsIssuedOrPostponed := by
  unfold Obligations.RefreshIsIssuedOrPostponed
  intro s t g u a taken
  refine ⟨fun early => if_pos early, fun due computes idle => ?_, fun due busy => ?_, fun due computes taken urgent => ?_⟩
  · refine .of_exec (exec_refreshSlot_idle due computes idle) ?_
    simp [Arb.refreshed, Arb.turned, a, u]
  · refine .of_exec (exec_refreshSlot_busy due busy) ?_
    simp [Arb.deferred, Arb.turned, a]
  · obtain ⟨c, displaced⟩ := exec_refreshSlot_urgent due computes taken urgent
    refine .of_exec displaced ?_
    simp [Arb.displaced, Arb.refreshed, Arb.turned, State.counting, a, u]

/-! ### The slot of a granted transfer (R200 to R204, R210, R212) -/

/-- What an operation on the requests of pseudo-channel `g` keeps: memory, every other pseudo-channel, and the grant decided. -/
structure Arbitrates (g : Nat) (s t : State) : Prop where
  mem    : t.mem = s.mem
  others : ∀ h, h ≠ g → t.arb h = s.arb h
  grant  : (t.arb g).grant = (s.arb g).grant

theorem Arbitrates.refl (g : Nat) (s : State) : Arbitrates g s s := ⟨rfl, fun _ _ => rfl, rfl⟩

theorem Arbitrates.trans {g : Nat} {a b c : State} (h : Arbitrates g a b) (k : Arbitrates g b c) : Arbitrates g a c :=
  ⟨k.mem.trans h.mem, fun x hx => (k.others x hx).trans (h.others x hx), k.grant.trans h.grant⟩

theorem Arbitrates.of_hbm {g : Nat} {a b : State} (mem : b.mem = a.mem) (hbm : b.hbm = a.hbm) : Arbitrates g a b := by
  have arbs (h) : b.arb h = a.arb h := by rw [State.arb, hbm]; rfl
  exact ⟨mem, fun h _ => arbs h, congrArg _ (arbs g)⟩

theorem Arbitrates.setArb {g : Nat} {a b : State} (h : Arbitrates g a b) {x : Arb} (grant : x.grant = (a.arb g).grant) :
    Arbitrates g a (b.setArb g x) :=
  ⟨h.mem, fun k ne => (setArb_arb_other b x ne).trans (h.others k ne), by rw [setArb_arb_same, grant]⟩

theorem raise_arbitrates (s : State) (g : Nat) (qs : List ArbReq) : Arbitrates g s (s.raise g qs) := by
  refine List.foldlRecOn (motive := Arbitrates g s) qs _ (.refl g s) fun x h q _ => ?_
  dsimp only
  split
  · exact h.trans (.of_hbm rfl rfl)
  · split
    · exact h
    · split
      · exact Arbitrates.setArb (b := x.count 0x3010 3) (h.trans (.of_hbm rfl rfl)) h.grant
      · exact h.setArb h.grant

/-- The arbiter without the request of a port. -/
def Arb.without (a : Arb) (p : Nat) : Arb := { a with raised := a.raised.filter fun y => y.port != p, held := a.held.filter (· != p) }

/-- The withdrawal of requests leaves none raised that was not. -/
theorem withdraw_arbitrates (s : State) (g : Nat) (ports : List Nat) :
    Arbitrates g s (s.withdraw g ports) ∧ ((s.withdraw g ports).arb g).raised ⊆ (s.arb g).raised := by
  refine List.foldlRecOn (motive := fun x => Arbitrates g s x ∧ (x.arb g).raised ⊆ (s.arb g).raised) ports _ ⟨.refl g s, fun _ h => h⟩
    fun x ⟨h, sub⟩ p _ => ?_
  have gone : Arbitrates g s (x.setArb g ((x.arb g).without p)) := h.setArb h.grant
  have fewer : ((x.setArb g ((x.arb g).without p)).arb g).raised ⊆ (s.arb g).raised := by
    rw [setArb_arb_same]
    exact fun q hq => sub (List.mem_of_mem_filter hq)
  dsimp only
  split
  · exact ⟨h, sub⟩
  · split
    · split
      · exact ⟨gone.trans (.of_hbm rfl rfl), fewer⟩
      · exact ⟨gone, fewer⟩
    · exact ⟨gone, fewer⟩

theorem freeRefresh_raised (a : Arb) (now : Nat) : (a.freeRefresh now).raised = a.raised := by
  unfold Arb.freeRefresh
  split
  · rfl
  · rfl

theorem fillLine_keeps (s : State) (port a : Nat) : (s.fillLine port a).mem = s.mem ∧ (s.fillLine port a).hbm.arbs = s.hbm.arbs := by
  unfold State.fillLine
  split
  · exact ⟨rfl, rfl⟩
  · dsimp only
    split
    · exact ⟨rfl, rfl⟩
    · exact ⟨rfl, rfl⟩

/-- A transfer without an uncorrectable error among the bits that it reads writes its bytes, or none, and moves no arbiter. -/
theorem transfer_moves {q : ArbReq} {ecc : Ecc} (ok : q.wr = none ∨ isRmw q = true → ecc ≠ .uncorrectable) (s : State) :
    (s.transfer q ecc).mem = q.wr.elim s.mem (Memory.writes s.mem q.npa) ∧ (s.transfer q ecc).hbm.arbs = s.hbm.arbs := by
  have filled : (if q.port < 48 then s.fillLine q.port q.npa else s).mem = s.mem ∧
      (if q.port < 48 then s.fillLine q.port q.npa else s).hbm.arbs = s.hbm.arbs := by
    split
    · exact fillLine_keeps ..
    · exact ⟨rfl, rfl⟩
  unfold State.transfer
  cases way : q.wr with
  | some bs =>
    dsimp only
    split
    · exact ⟨rfl, rfl⟩
    · next rmw =>
      cases ecc with
      | clean => exact ⟨rfl, rfl⟩
      | corrected => exact ⟨rfl, rfl⟩
      | uncorrectable => exact absurd rfl (ok (.inr (by simpa using rmw)))
  | none =>
    cases ecc with
    | clean => exact filled
    | corrected => exact filled
    | uncorrectable => exact absurd rfl (ok (.inl way))

/-- The slot of a granted request begins: the request leaves the arbiter, and the requests of the cycle are raised. -/
def State.slotBegun (s : State) (g : Nat) (q : ArbReq) (qs : List ArbReq) : State :=
  (s.setArb g { s.arb g with
    raised := (s.arb g).raised.filter fun r => some r != some q, grant := none, held := (s.arb g).held.filter fun p => q.port != p }).raise g qs

/-- The request of a slot moves its bytes. -/
def State.slotMoved (s : State) (g : Nat) (q : ArbReq) (ecc : Ecc) : State := (s.setArb g ((s.arb g).moved s.timer q)).transfer q ecc

/-- The grant of the next slot is decided, but where the request holds that slot too. -/
def State.slotDecided (s : State) (g : Nat) (q : ArbReq) : State :=
  let next := s.firstOf ((s.arb g).raised.filter fun r => (s.arb g).eligible s.timer r)
  s.setArb g (if isRmw q then s.arb g else { s.arb g with grant := next }.freeRefresh s.timer)

theorem slotBegun_frees (s : State) (g : Nat) (q : ArbReq) (qs : List ArbReq) :
    (s.slotBegun g q qs).mem = s.mem ∧ (∀ h, h ≠ g → (s.slotBegun g q qs).arb h = s.arb h) ∧
      ((s.slotBegun g q qs).arb g).grant = none ∧ (qs = [] → q ∉ ((s.slotBegun g q qs).arb g).raised) := by
  obtain ⟨mem, others, grant⟩ := raise_arbitrates (s.setArb g { s.arb g with
    raised := (s.arb g).raised.filter fun r => some r != some q, grant := none, held := (s.arb g).held.filter fun p => q.port != p }) g qs
  refine ⟨mem, fun h ne => (others h ne).trans (setArb_arb_other _ _ ne), grant.trans (by rw [setArb_arb_same]), ?_⟩
  rintro rfl
  show q ∉ ((State.setArb ..).arb g).raised
  rw [setArb_arb_same]
  simp

theorem slotMoved_moves {q : ArbReq} {ecc : Ecc} (ok : q.wr = none ∨ isRmw q = true → ecc ≠ .uncorrectable) (s : State) (g : Nat) :
    (s.slotMoved g q ecc).mem = q.wr.elim s.mem (Memory.writes s.mem q.npa) ∧ (∀ h, h ≠ g → (s.slotMoved g q ecc).arb h = s.arb h) ∧
      (s.slotMoved g q ecc).arb g = (s.arb g).moved s.timer q := by
  obtain ⟨mem, arbs⟩ := transfer_moves ok (s.setArb g ((s.arb g).moved s.timer q))
  have same (h) : (s.slotMoved g q ecc).arb h = (s.setArb g ((s.arb g).moved s.timer q)).arb h := congrArg (lookD · h Arb.idle) arbs
  exact ⟨mem, fun h ne => (same h).trans (setArb_arb_other _ _ ne), (same g).trans (setArb_arb_same ..)⟩

theorem slotDecided_decides (s : State) (g : Nat) (q : ArbReq) :
    (s.slotDecided g q).mem = s.mem ∧ (∀ h, h ≠ g → (s.slotDecided g q).arb h = s.arb h) ∧
      ((s.slotDecided g q).arb g).raised = (s.arb g).raised ∧ (isRmw q = true → (s.slotDecided g q).arb g = s.arb g) := by
  refine ⟨rfl, fun h ne => setArb_arb_other _ _ ne, ?_, fun two => (setArb_arb_same ..).trans (if_pos two)⟩
  refine (congrArg Arb.raised (setArb_arb_same ..)).trans ?_
  split
  · rfl
  · exact freeRefresh_raised ..

section
variable {s : State} {g : Nat} {q : ArbReq} (granted : (s.arb g).grant = some q) (raised : q ∈ (s.arb g).raised)
  {errs : List Nat} (ok : q.wr = none ∨ isRmw q = true → eccOf errs ≠ .uncorrectable)
include granted raised ok

theorem exec_hbmTransfer (t : Nat) (qs : List ArbReq) (ws : List Nat) :
    exec (.hbmTransfer t g qs ws errs) s =
      .next (((((s.arrive t).slotBegun g q qs).slotMoved g q (eccOf errs)).slotDecided g q).withdraw g ws) := by
  rw [← arrive_arb s t] at granted raised
  have live : ((s.arrive t).arb g).grant.filter (fun q => ((s.arrive t).arb g).raised.contains q) = some q := by
    rw [granted]
    simpa using raised
  have good : ((q.wr.isNone || isRmw q) && eccOf errs == Ecc.uncorrectable) = false := by
    simpa [Option.isNone_iff_eq_none] using ok
  show execHbmTransfer t g qs ws errs s = _
  unfold execHbmTransfer
  dsimp only
  rw [live, granted]
  dsimp only
  rw [good]
  rfl

theorem hbmTransfer_moves (t : Nat) (qs : List ArbReq) (ws : List Nat) : Yields (.hbmTransfer t g qs ws errs) s fun v =>
    v.mem = q.wr.elim s.mem (Memory.writes s.mem q.npa) ∧ (∀ h, h ≠ g → v.arb h = s.arb h) ∧
      (qs = [] → q ∉ (v.arb g).raised) ∧ (isRmw q = true → (v.arb g).grant = none) := by
  obtain ⟨mem, others, free, gone⟩ := slotBegun_frees (s.arrive t) g q qs
  obtain ⟨mem₂, others₂, own₂⟩ := slotMoved_moves ok ((s.arrive t).slotBegun g q qs) g
  obtain ⟨mem₃, others₃, raised₃, held₃⟩ := slotDecided_decides (((s.arrive t).slotBegun g q qs).slotMoved g q (eccOf errs)) g q
  obtain ⟨⟨mem₄, others₄, grant₄⟩, fewer⟩ :=
    withdraw_arbitrates ((((s.arrive t).slotBegun g q qs).slotMoved g q (eccOf errs)).slotDecided g q) g ws
  refine .of_exec (exec_hbmTransfer granted raised ok t qs ws) ⟨?_, fun h ne => ?_, fun idle => ?_, fun two => ?_⟩
  · rw [mem₄, mem₃, mem₂, mem, State.arrive_mem]
  · rw [others₄ h ne, others₃ h ne, others₂ h ne, others h ne, arrive_arb]
  · rw [raised₃, own₂] at fewer
    exact fun still => gone idle (fewer still)
  · rw [grant₄, held₃ two, own₂]
    exact free

end

theorem eccOf_corrected {errs : List Nat} (least : 1 ≤ (errPlaces errs).length) (most : (errPlaces errs).length ≤ 3) :
    eccOf errs = .corrected := by
  unfold eccOf
  exact (if_neg (by omega)).trans (if_pos most)

theorem eccOf_uncorrectable {errs : List Nat} (least : 4 ≤ (errPlaces errs).length) (most : (errPlaces errs).length ≤ 5) :
    eccOf errs = .uncorrectable := by
  unfold eccOf
  exact (if_neg (by omega)).trans ((if_neg (by omega)).trans (if_pos most))

/-- Settles O8, by what a slot moves, and by the counts of the check. -/
theorem hbmTransferMovesOneRequest : Obligations.HbmTransferMovesOneRequest := by
  unfold Obligations.HbmTransferMovesOneRequest
  intro s t g q qs ws errs granted raised
  refine ⟨fun bs wr ok => ?_, fun rd ok => ?_, eccOf_corrected, eccOf_uncorrectable⟩
  · have checked : q.wr = none ∨ isRmw q = true → eccOf errs ≠ .uncorrectable := by
      rintro (read | rmw)
      · simp [read] at wr
      · exact ok.resolve_left (by simp [rmw])
    refine (hbmTransfer_moves granted raised checked t qs ws).imp fun v ⟨mem, others, gone, two⟩ => ?_
    have written : v.mem = Memory.writes s.mem q.npa bs := by rw [mem, wr]; rfl
    exact ⟨written, fun a out => by rw [written, Memory.read_writes_other _ _ _ out], others, gone, two⟩
  · refine (hbmTransfer_moves granted raised (fun _ => ok) t qs ws).imp fun v ⟨mem, others, gone, _⟩ => ⟨?_, others, gone⟩
    rw [mem, rd]; rfl

/-! ### What near-memory compute moves: arbiters and counts -/

/-- Nothing but arbiters and counts of the Parameter Directory differs. -/
def ArbsMoved (s t : State) : Prop := ∃ arbs pd, t = { s with hbm := { s.hbm with arbs := arbs }, pd := pd }

theorem ArbsMoved.refl (s : State) : ArbsMoved s s := ⟨s.hbm.arbs, s.pd, rfl⟩

theorem ArbsMoved.trans {a b c : State} (h : ArbsMoved a b) (k : ArbsMoved b c) : ArbsMoved a c := by
  obtain ⟨arbs, pd, rfl⟩ := h
  obtain ⟨arbs', pd', rfl⟩ := k
  exact ⟨arbs', pd', rfl⟩

theorem ArbsMoved.setArb {a b : State} (h : ArbsMoved a b) (g : Nat) (x : Arb) : ArbsMoved a (b.setArb g x) := h.trans ⟨_, _, rfl⟩

theorem holdRaised_arbsMoved (s : State) (g b : Nat) : ArbsMoved s (s.holdRaised g b) :=
  List.foldlRecOn (motive := ArbsMoved s) _ _ ((ArbsMoved.refl s).setArb ..) fun _ h _ _ => h.trans ⟨_, _, rfl⟩

theorem compute_arbsMoved (s : State) (w ch : Nat) (banks : List Nat) (on : Bool) : ArbsMoved s (s.compute w ch banks on) := by
  refine List.foldlRecOn (motive := ArbsMoved s) banks _ (.refl s) fun x h b _ => .setArb ?_ ..
  split
  · exact h.trans (holdRaised_arbsMoved ..)
  · exact h

theorem serveHeld_of_empty {s : State} (empty : s.hbm.hostHeld = []) : s.serveHeld = s := by rw [State.serveHeld, empty]; rfl

/-- Banks are released by their arbiters alone where no host access waits for them. -/
theorem releaseBanks_arbsMoved {s : State} (empty : s.hbm.hostHeld = []) (w ch : Nat) (n : Nmu) : ArbsMoved s (s.releaseBanks w ch n) := by
  have h := compute_arbsMoved s w ch n.banks false
  have served : (s.compute w ch n.banks false).serveHeld = s.compute w ch n.banks false := by
    refine serveHeld_of_empty ?_
    obtain ⟨arbs, pd, e⟩ := h
    rw [e]
    exact empty
  rw [State.releaseBanks, served]
  exact h

/-! ### Units put back (R215) -/

/-- A unit that does not end of itself by now. -/
def Nmu.stays (n : Nmu) (now : Nat) : Prop := ¬ ((n.st = .release ∨ n.st = .abort) ∧ n.till ≤ now)

/-- A unit at work goes on. -/
theorem stays_of_granted {n : Nmu} (works : n.granted = true) (now : Nat) : n.stays now := by
  rintro ⟨ends | ends, -⟩
  · simp [Nmu.granted, ends] at works
  · simp [Nmu.granted, ends] at works

/-- A unit that is to end later goes on. -/
theorem stays_of_till {n : Nmu} {now : Nat} (later : now < n.till) : n.stays now := fun h => Nat.not_lt.2 h.2 later

theorem setNmu_nmu_same {s : State} {n : Nmu} (stays : n.stays s.timer) (w ch : Nat) : (s.setNmu w ch n).nmu w ch = n := by
  have held : lookD (s.setNmu w ch n).hbm.nmus (32 * w + ch) Nmu.idle = n := lookD_put_same ..
  rw [State.nmu, held]
  exact if_neg stays

section
variable {s t : State} (h : ArbsMoved s t)
include h

theorem ArbsMoved.nmu (w ch : Nat) : t.nmu w ch = s.nmu w ch := by
  obtain ⟨arbs, pd, rfl⟩ := h
  rfl

theorem ArbsMoved.mem : t.mem = s.mem := by
  obtain ⟨arbs, pd, rfl⟩ := h
  rfl

theorem ArbsMoved.out : t.out = s.out := by
  obtain ⟨arbs, pd, rfl⟩ := h
  rfl

theorem ArbsMoved.nmuShed : t.nmuShed = s.nmuShed := by
  obtain ⟨arbs, pd, rfl⟩ := h
  rfl

end

/-! ### Claims and denials (R102, R213, R214) -/

/-- The unit that a request names is idle and can take it (R169, R215, R216). -/
structure NmuFree (s : State) (w : Nat) (q : NmuReq) : Prop where
  idle   : (s.nmu w q.ch).st = .idle
  unheld : ∀ b ∈ q.banks, s.bankHeld w q.ch b = false
  unscanned : q.ch ∉ s.scanGrants w ∨ ∃ id seg, q.op = .sketchScan id seg

/-- A request keeps within the limits of the governor, and compute is not shed (R214, R454, R456). -/
def NmuWithin (s : State) (w : Nat) (q : NmuReq) : Prop :=
  (s.nmuLoad w).1 + s.scanHeld w q.ch + 1 ≤ (s.gov w).maxnmu ∧ (s.nmuLoad w).2 + q.banks.length ≤ (s.gov w).maxbank ∧
    q.banks.length ≤ 8 ∧ s.nmuShed = false

/-- The unit that takes a request. -/
def claimed (q : NmuReq) : Nmu := ⟨.claim, q.op, q.banks, [], [], 0⟩

/-- The state in which a W-stack's governor has denied a request. -/
def State.nmuDenied (s : State) (w : Nat) : State := (s.setGov w { s.gov w with deny := true }).count 0x3040 1

theorem nmuDenied_gov (s : State) (w : Nat) : (s.nmuDenied w).gov w = { s.gov w with deny := true } := setGov_gov_same ..

theorem nmuDenied_nmu (s : State) (w w' ch : Nat) : (s.nmuDenied w).nmu w' ch = s.nmu w' ch := rfl

theorem nmuDenied_mem (s : State) (w : Nat) : (s.nmuDenied w).mem = s.mem := rfl

theorem store_gov (s : State) (a : Nat) (bs : List Byte) (w : Nat) : (s.store a bs).gov w = s.gov w := rfl

theorem store_nmu (s : State) (a : Nat) (bs : List Byte) (w ch : Nat) : (s.store a bs).nmu w ch = s.nmu w ch := rfl

theorem store_mem (s : State) (a : Nat) (bs : List Byte) : (s.store a bs).mem = Memory.writes s.mem a bs := rfl

theorem nmuDenied_nmuShed (s : State) (w : Nat) : (s.nmuDenied w).nmuShed = s.nmuShed := rfl

theorem tampTake_eq (s : State) (job ctx stream page : Nat) : ∃ rel, (s.tampTake job ctx stream page).2 = { s with rel := rel } := by
  unfold State.tampTake
  split
  · exact ⟨s.rel, rfl⟩
  · split
    · exact ⟨s.rel, rfl⟩
    · exact ⟨_, rfl⟩

section
variable {s : State} {w : Nat} {q : NmuReq} (free : NmuFree s w q)
include free

theorem nmuClaim_of_free : s.nmuClaim w q =
    if (s.nmuLoad w).1 + s.scanHeld w q.ch + 1 ≤ (s.gov w).maxnmu ∧ (s.nmuLoad w).2 + q.banks.length ≤ (s.gov w).maxbank ∧
      q.banks.length ≤ 8 ∧ !s.nmuShed then (some true, s.setNmu w q.ch (claimed q)) else (some false, s.nmuDenied w) := by
  obtain ⟨idle, unheld, unscanned⟩ := free
  refine if_neg ?_
  rintro (busy | held | ⟨scanned, other⟩)
  · exact busy idle
  · obtain ⟨b, hb, held⟩ := List.any_eq_true.1 held
    simp [unheld b hb] at held
  · rcases unscanned with out | ⟨id, seg, scan⟩
    · exact out (List.contains_iff_mem.1 scanned)
    · rw [scan] at other
      cases other

theorem nmuClaim_of_within (within : NmuWithin s w q) : s.nmuClaim w q = (some true, s.setNmu w q.ch (claimed q)) :=
  (nmuClaim_of_free free).trans (if_pos (by simpa [NmuWithin] using within))

theorem nmuClaim_of_beyond (beyond : ¬ NmuWithin s w q) : s.nmuClaim w q = (some false, s.nmuDenied w) :=
  (nmuClaim_of_free free).trans (if_neg (by simpa [NmuWithin] using beyond))

/-- A request within the limits claims its banks; a page that it tamps counts. -/
theorem nmuRequest_of_within (may : s.nmuMay w q.ch q.op = true) (within : NmuWithin s w q) :
    ∃ rel, s.nmuRequest w q = { s.setNmu w q.ch (claimed q) with rel := rel } := by
  unfold State.nmuRequest
  rw [if_neg (by simp [may]), nmuClaim_of_within free within]
  cases q.op with
  | tamp job ctx stream page => exact tampTake_eq ..
  | grainScan => exact ⟨s.rel, rfl⟩
  | sketchScan => exact ⟨s.rel, rfl⟩
  | parity => exact ⟨s.rel, rfl⟩

/-- A request beyond the limits is denied; an XOR that is denied while compute is shed goes to the atomic unit. -/
theorem nmuRequest_of_beyond (may : s.nmuMay w q.ch q.op = true) (beyond : ¬ NmuWithin s w q) :
    s.nmuRequest w q = s.nmuDenied w ∧ (s.nmuShed = false ∨ ∀ npa data, q.op ≠ .parity npa data) ∨
      ∃ npa data, q.op = .parity npa data ∧ s.nmuShed = true ∧ s.nmuRequest w q = (s.nmuDenied w).store npa (s.xored npa data) := by
  unfold State.nmuRequest
  rw [if_neg (by simp [may]), nmuClaim_of_beyond free beyond]
  cases q.op with
  | parity npa data =>
    cases shed : s.nmuShed with
    | true => exact .inr ⟨npa, data, rfl, rfl, if_pos ⟨rfl, shed⟩⟩
    | false => exact .inl ⟨if_neg fun h => by simp [nmuDenied_nmuShed, shed] at h, .inl rfl⟩
  | grainScan => exact .inl ⟨rfl, .inr nofun⟩
  | sketchScan => exact .inl ⟨rfl, .inr nofun⟩
  | tamp => exact .inl ⟨rfl, .inr nofun⟩

end

/-! ### Claim, compute, drain, abort (R211 to R213, R215) -/

theorem setNmu_nmuShed (s : State) (w ch : Nat) (n : Nmu) : (s.setNmu w ch n).nmuShed = s.nmuShed := rfl

theorem exec_nmuClaimComplete {s : State} {t w ch : Nat} (claim : ((s.arrive t).nmu w ch).st = .claim)
    (quiet : ∀ b ∈ ((s.arrive t).nmu w ch).banks, (s.arb (nmuPc w ch b)).grant = none) (on : s.nmuShed = false) :
    exec (.nmuClaimComplete t w ch) s = .next (((s.arrive t).compute w ch ((s.arrive t).nmu w ch).banks true).setNmu w ch
      { (s.arrive t).nmu w ch with st := .compute }) := by
  have shed : (((s.arrive t).compute w ch ((s.arrive t).nmu w ch).banks true).setNmu w ch
      { (s.arrive t).nmu w ch with st := .compute }).nmuShed = false := by
    rw [setNmu_nmuShed, (compute_arbsMoved ..).nmuShed, arrive_nmuShed, on]
  have idle : (((s.arrive t).nmu w ch).banks.any fun b =>
      (((s.arrive t).arb (nmuPc w ch b)).grant).elim false fun q => touchesBank q (b % 32)) = false := by
    rw [List.any_eq_false]
    intro b hb
    simp [quiet b hb]
  refine (if_neg ?_).trans (congrArg Host.Outcome.next (if_neg (by rw [shed]; decide)))
  rintro (other | busy)
  · exact other claim
  · exact absurd (idle.symm.trans busy) (by decide)

/-- What an operation leaves in the base die at the end of compute (R211 to R213). -/
def State.nmuComputed (s : State) (w ch : Nat) : Nmu :=
  let n := { s.nmu w ch with st := .drain }
  match n.op with
  | .grainScan id sec chunk => { n with recs := s.grainRecs id sec chunk }
  | .sketchScan id seg => { n with recs := s.sketchRecs w ch id seg }
  | .tamp _ _ _ _ => n
  | .parity npa data => { n with writes := [(npa, s.xored npa data)] }

theorem nmuComputed_drains (s : State) (w ch : Nat) : (s.nmuComputed w ch).st = .drain ∧ (s.nmuComputed w ch).banks = (s.nmu w ch).banks := by
  unfold State.nmuComputed
  dsimp only
  split
  all_goals exact ⟨rfl, rfl⟩

section
variable {s : State} {w ch : Nat}

theorem nmuComputed_grains {id sec chunk : Nat} (op : (s.nmu w ch).op = .grainScan id sec chunk) :
    (s.nmuComputed w ch).recs = s.grainRecs id sec chunk := by
  rw [State.nmuComputed, op]

theorem nmuComputed_sketches {id seg : Nat} (op : (s.nmu w ch).op = .sketchScan id seg) :
    (s.nmuComputed w ch).recs = s.sketchRecs w ch id seg := by
  rw [State.nmuComputed, op]

theorem nmuComputed_parity {npa : Nat} {data : List Byte} (op : (s.nmu w ch).op = .parity npa data) :
    (s.nmuComputed w ch).writes = [(npa, s.xored npa data)] := by
  rw [State.nmuComputed, op]

end

theorem eccFixed_all_eq (l : List Nat) (s : State) :
    ∃ rel pd, l.foldl (fun (s : State) a => s.eccFixed a) s = { s with rel := rel, pd := pd } :=
  List.foldlRecOn (motive := fun x => ∃ rel pd, x = { s with rel := rel, pd := pd }) l _ ⟨s.rel, s.pd, rfl⟩
    fun _ ⟨_, _, e⟩ _ _ => e ▸ ⟨_, _, rfl⟩

theorem exec_nmuComputeComplete {s : State} {t w ch : Nat} (computing : ((s.arrive t).nmu w ch).st = .compute)
    (alone : (∀ id sec chunk, ((s.arrive t).nmu w ch).op ≠ .grainScan id sec chunk) ∨ s.pg.opq = []) (fixed : List Nat) :
    ∃ rel pd, exec (.nmuComputeComplete t w ch fixed) s =
      .next (({ s.arrive t with rel := rel, pd := pd } : State).setNmu w ch ((s.arrive t).nmuComputed w ch)) := by
  obtain ⟨rel, pd, corrected⟩ := eccFixed_all_eq (fixed.filter fun a => inChannel w ch a) (s.arrive t)
  have goes : exec (.nmuComputeComplete t w ch fixed) s = execNmuComputeComplete t w ch fixed s := rfl
  unfold execNmuComputeComplete at goes
  dsimp only at goes
  rw [if_neg (not_not.2 computing), corrected] at goes
  unfold State.nmuComputed
  dsimp only
  generalize hop : ((s.arrive t).nmu w ch).op = op at goes alone
  cases op with
  | grainScan id sec chunk =>
    have empty : (s.arrive t).pg.opq = [] := (congrArg PageSt.opq (State.arrive_pg s t)).trans (alone.resolve_left fun h => h id sec chunk rfl)
    dsimp only at goes
    split at goes
    · exact ⟨rel, _, goes.trans (congrArg Host.Outcome.next (drainOps_of_none empty))⟩
    · exact ⟨rel, _, goes.trans (congrArg Host.Outcome.next (drainOps_of_none empty))⟩
  | sketchScan id seg => exact ⟨rel, pd, goes⟩
  | tamp => exact ⟨rel, pd, goes⟩
  | parity npa data => exact ⟨rel, pd, goes⟩

/-- The buffered writes of a unit reach memory, and drop the lines of the page caches that they meet (R211, R220). -/
theorem drained_eq (l : List (Nat × List Byte)) (s : State) : ∃ lines, l.foldl (fun s p => s.store p.1 p.2) s =
    { s with mem := l.foldl (fun m p => Memory.writes m p.1 p.2) s.mem, hbm := { s.hbm with lines := lines } } := by
  induction l generalizing s with
  | nil => exact ⟨_, rfl⟩
  | cons p l ih => exact ih (s.store p.1 p.2)

/-- What the drain of a unit sends: the records of an operation that is no parity operation. -/
def Nmu.returns (n : Nmu) (w ch : Nat) (out : List Out) : List Out :=
  match n.op with
  | .parity _ _ => out
  | _ => .nmuResult w ch n.recs :: out

theorem returns_of_scan {n : Nmu} (sends : ∀ npa data, n.op ≠ .parity npa data) (w ch : Nat) (out : List Out) :
    n.returns w ch out = .nmuResult w ch n.recs :: out := by
  unfold Nmu.returns
  split
  · next npa data op => exact absurd op (sends npa data)
  · rfl

/-- A unit once it has drained: the cycle of RELEASE. -/
def Nmu.released (n : Nmu) (now : Nat) : Nmu := { n with st := .release, writes := [], recs := [], till := now + releaseTime }

/-- The state in which a unit has written what it buffered and returned its records, but for the cached lines that the writes left. -/
def State.nmuWritten (s : State) (w ch : Nat) (lines : List (Nat × Nat × Nat × Nat)) : State :=
  { s with
    mem := (s.nmu w ch).writes.foldl (fun m p => Memory.writes m p.1 p.2) s.mem
    hbm := { s.hbm with lines := lines }
    out := (s.nmu w ch).returns w ch s.out }

/-- The state in which a unit has drained: its banks are released. -/
def State.nmuDrained (s : State) (w ch : Nat) (lines : List (Nat × Nat × Nat × Nat)) : State :=
  ((s.nmuWritten w ch lines).setNmu w ch ((s.nmu w ch).released s.timer)).releaseBanks w ch (s.nmu w ch)

theorem exec_nmuDrainComplete {s : State} {t w ch : Nat} (draining : ((s.arrive t).nmu w ch).st = .drain)
    (other : ∀ j c x p, ((s.arrive t).nmu w ch).op ≠ .tamp j c x p) :
    ∃ lines, exec (.nmuDrainComplete t w ch) s = .next ((s.arrive t).nmuDrained w ch lines) := by
  obtain ⟨lines, written⟩ := drained_eq ((s.arrive t).nmu w ch).writes (s.arrive t)
  have goes : exec (.nmuDrainComplete t w ch) s = execNmuDrainComplete t w ch s := rfl
  unfold execNmuDrainComplete at goes
  dsimp only at goes
  rw [if_neg (not_not.2 draining), written] at goes
  refine ⟨lines, goes.trans ?_⟩
  unfold State.nmuDrained State.nmuWritten Nmu.returns Nmu.released
  dsimp only
  generalize ((s.arrive t).nmu w ch).op = op at other
  cases op with
  | tamp j c x p => exact absurd rfl (other j c x p)
  | parity => rfl
  | grainScan => rfl
  | sketchScan => rfl

/-- Where no host access waits for the banks, a drain leaves what the unit wrote and returned, and the unit in RELEASE. -/
theorem nmuDrained_leaves {s : State} (empty : s.hbm.hostHeld = []) (w ch : Nat) (lines : List (Nat × Nat × Nat × Nat)) :
    (s.nmuDrained w ch lines).nmu w ch = (s.nmu w ch).released s.timer ∧
      (s.nmuDrained w ch lines).mem = (s.nmu w ch).writes.foldl (fun m p => Memory.writes m p.1 p.2) s.mem ∧
      (s.nmuDrained w ch lines).out = (s.nmu w ch).returns w ch s.out := by
  have moved := releaseBanks_arbsMoved (s := (s.nmuWritten w ch lines).setNmu w ch ((s.nmu w ch).released s.timer)) empty w ch (s.nmu w ch)
  rw [State.nmuDrained, moved.nmu, moved.mem, moved.out]
  exact ⟨setNmu_nmu_same (stays_of_till (Nat.lt_add_of_pos_right (by decide))) w ch, rfl, rfl⟩

/-- A computing unit as it aborts: its buffered writes and records are discarded. -/
def Nmu.aborted (n : Nmu) (now : Nat) : Nmu := { n with st := .abort, writes := [], recs := [], till := now + abortTime }

/-- The governor of a W-stack flags an abort, which is counted (R215, R217). -/
def State.abortFlagged (s : State) (w : Nat) : State := (s.setGov w { s.gov w with abort := true }).count 0x3040 2

theorem abortFlagged_gov (s : State) (w : Nat) : (s.abortFlagged w).gov w = { s.gov w with abort := true } := setGov_gov_same ..

theorem abortFlagged_nmu (s : State) (w w' ch : Nat) : (s.abortFlagged w).nmu w' ch = s.nmu w' ch := rfl

theorem abortFlagged_mem (s : State) (w : Nat) : (s.abortFlagged w).mem = s.mem := rfl

/-- The state in which a unit has aborted: its banks are released, and the governor flags it. -/
def State.nmuAborted (s : State) (w ch : Nat) : State :=
  ((s.setNmu w ch ((s.nmu w ch).aborted s.timer)).releaseBanks w ch (s.nmu w ch)).abortFlagged w

/-- Where no host access waits for the banks, an abort leaves memory and the unit aborting. -/
theorem nmuAborted_leaves {s : State} (empty : s.hbm.hostHeld = []) (w ch : Nat) :
    (s.nmuAborted w ch).nmu w ch = (s.nmu w ch).aborted s.timer ∧ ((s.nmuAborted w ch).gov w).abort = true ∧ (s.nmuAborted w ch).mem = s.mem := by
  have moved := releaseBanks_arbsMoved (s := s.setNmu w ch ((s.nmu w ch).aborted s.timer)) empty w ch (s.nmu w ch)
  rw [State.nmuAborted, abortFlagged_nmu, abortFlagged_gov, abortFlagged_mem, moved.nmu, moved.mem]
  exact ⟨setNmu_nmu_same (stays_of_till (Nat.lt_add_of_pos_right (by decide))) w ch, rfl, rfl⟩

theorem exec_nmuAbort {s : State} {t w ch : Nat} (computing : ((s.arrive t).nmu w ch).st = .compute)
    (grains : ∀ id sec chunk, ((s.arrive t).nmu w ch).op ≠ .grainScan id sec chunk)
    (sketches : ∀ id seg, ((s.arrive t).nmu w ch).op ≠ .sketchScan id seg) :
    exec (.nmuAbort t w ch false) s = .next ((s.arrive t).nmuAborted w ch) := by
  have drops : (s.arrive t).nmuAbort w ch = (s.arrive t).nmuAborted w ch :=
    (if_pos computing).trans (if_neg (by simp [Nmu.granted, computing]))
  have goes : exec (.nmuAbort t w ch false) s = execNmuAbort t w ch false s := rfl
  unfold execNmuAbort at goes
  dsimp only at goes
  rw [if_neg (not_not.2 computing), drops] at goes
  refine goes.trans ?_
  generalize ((s.arrive t).nmu w ch).op = op at grains sketches
  cases op with
  | grainScan id sec chunk => exact absurd rfl (grains id sec chunk)
  | sketchScan id seg => exact absurd rfl (sketches id seg)
  | tamp => rfl
  | parity => rfl

/-- Settles O10, by what each command leaves of the unit and of memory. -/
theorem nmuRunsThroughItsStates : Obligations.NmuRunsThroughItsStates := by
  unfold Obligations.NmuRunsThroughItsStates
  intro s t w q u ch n within unheld
  have limits : NmuWithin u w q ↔ within := by
    rw [NmuWithin, arrive_nmuShed]
  have unheldHost (empty : s.hbm.hostHeld = []) : u.hbm.hostHeld = [] := (congrArg HbmSt.hostHeld (State.arrive_hbm s t)).trans empty
  have asked : exec (.nmuGrantRequest t w ch q.banks { op := q.op, r := q.r, d := q.d, also := [] }) s = .next (u.nmuRequest w q) := rfl
  refine ⟨fun idle may ⟨banks, unscanned⟩ fits => ?_, fun idle may ⟨banks, unscanned⟩ beyond => ?_, fun claim quiet on => ?_,
    fun computing alone fixed => ?_, fun draining other empty hbm => ?_, fun computing empty grains sketches => ?_, fun ecc other => if_pos other⟩
  · obtain ⟨rel, granted⟩ := nmuRequest_of_within ⟨idle, banks, unscanned⟩ may (limits.2 fits)
    exact .of_exec (asked.trans (congrArg Host.Outcome.next granted))
      ⟨setNmu_nmu_same (stays_of_granted rfl _) w ch, State.arrive_mem s t, State.arrive_pd s t⟩
  · have shed : u.nmuShed = s.nmuShed := arrive_nmuShed s t
    rcases nmuRequest_of_beyond ⟨idle, banks, unscanned⟩ may (limits.not.2 beyond) with ⟨denied, why⟩ | ⟨npa, data, parity, off, denied⟩
    · refine .of_exec (asked.trans (congrArg Host.Outcome.next denied)) ⟨?_, ?_, fun _ => ?_, fun npa data op off => ?_⟩
      · rw [nmuDenied_nmu]; exact idle
      · rw [nmuDenied_gov]
      · rw [nmuDenied_mem]; exact State.arrive_mem s t
      · exact (why.elim (fun on => by simp [← shed, on] at off) fun no => no npa data op).elim
    · refine .of_exec (asked.trans (congrArg Host.Outcome.next denied)) ⟨?_, ?_, fun why => ?_, fun npa' data' op _ => ?_⟩
      · rw [store_nmu, nmuDenied_nmu]; exact idle
      · rw [store_gov, nmuDenied_gov]
      · exact (why.elim (fun on => by simp [shed, on] at off) fun no => no npa data parity).elim
      · cases parity.symm.trans op
        rw [store_mem, nmuDenied_mem, State.arrive_mem, arrive_xored]
  · refine .of_exec (exec_nmuClaimComplete claim quiet on) ⟨setNmu_nmu_same (stays_of_granted rfl _) w ch, ?_⟩
    rw [State.setNmu_mem, (compute_arbsMoved ..).mem, State.arrive_mem]
  · obtain ⟨rel, pd, goes⟩ := exec_nmuComputeComplete computing alone fixed
    obtain ⟨drains, banks⟩ := nmuComputed_drains u w ch
    have stays : (u.nmuComputed w ch).stays u.timer := stays_of_granted (by rw [Nmu.granted, drains]; rfl) _
    have own : (({ u with rel := rel, pd := pd } : State).setNmu w ch (u.nmuComputed w ch)).nmu w ch = u.nmuComputed w ch :=
      setNmu_nmu_same stays w ch
    refine .of_exec goes ⟨?_, ?_, State.arrive_mem s t, fun id sec chunk op => ?_, fun id seg op => ?_, fun npa data op => ?_⟩
    all_goals rw [own]
    · exact drains
    · exact banks
    · exact nmuComputed_grains op
    · exact nmuComputed_sketches op
    · rw [nmuComputed_parity op, arrive_xored]
  · obtain ⟨lines, goes⟩ := exec_nmuDrainComplete draining other
    obtain ⟨own, mem, out⟩ := nmuDrained_leaves (unheldHost empty) w ch lines
    refine .of_exec goes ⟨congrArg Nmu.st own, congrArg Nmu.writes own, ?_, fun sends => ?_⟩
    · rw [mem, State.arrive_mem]
    · rw [out, State.arrive_out]
      exact returns_of_scan sends ..
  · obtain ⟨own, flagged, mem⟩ := nmuAborted_leaves (unheldHost empty) w ch
    exact .of_exec (exec_nmuAbort computing grains sketches)
      ⟨congrArg Nmu.st own, congrArg Nmu.writes own, flagged, mem.trans (State.arrive_mem s t)⟩

end Sys2Proof.Machine

/-! ## Flash channels (09) -/

namespace Sys2Proof.Machine

/-! ### Channels and blocks put back -/

@[simp] theorem arrive_flash (s : State) (t ch : Nat) : (s.arrive t).flash ch = s.flash ch := by rw [arrive_eq]; rfl

@[simp] theorem setFlash_flash_same (s : State) (ch : Nat) (f : Flash) : (s.setFlash ch f).flash ch = f := lookD_put_same ..

theorem setFlash_flash_other (s : State) {ch n : Nat} (f : Flash) (ne : n ≠ ch) : (s.setFlash ch f).flash n = s.flash n :=
  lookD_put_other _ _ _ _ _ ne

theorem flash_congr {s t : State} (h : t.tier.flash = s.tier.flash) (ch : Nat) : t.flash ch = s.flash ch := by
  rw [State.flash, h]; rfl

@[simp] theorem flashOps_flash (s : State) (c : Nat) (ops : List Nat) (ch : Nat) : (s.flashOps c ops).flash ch = s.flash ch := rfl

theorem chunkAt_names (s : State) (ch extent chunk : Nat) :
    (s.chunkAt ch extent chunk).extent = extent ∧ (s.chunkAt ch extent chunk).chunk = chunk := by
  unfold State.chunkAt
  cases found : s.tier.chunks.find? fun k => k.extent == extent && k.chunk == chunk with
  | none => exact ⟨rfl, rfl⟩
  | some k => simpa using List.find?_some found

/-! ### The gauge of a channel (R239, R241, R263) -/

/-- The spares of R239 as `FlashHolds` counts them, over at least one block. -/
theorem spares_eq (ch : Nat) : max 1 (spareBlocks ch) = (max 1 (Config.flashBlocks ch) * 7 + 99) / 100 := by
  unfold spareBlocks
  omega

/-- A channel with SPARE and WEAR as its blocks tell them (R239, R263). -/
def Flash.gauged (f : Flash) (ch : Nat) : Flash :=
  { f with spare := (max 1 (spareBlocks ch) - f.retired) * 100 / max 1 (spareBlocks ch)
           wear := min 255 ((f.blocks.map fun b => b.2.erases).max?.getD 0 * 100 / max 1 (Config.ratedCycles ch)) }

theorem gauge_eq (s : State) (ch : Nat) : s.gauge ch =
    if (s.flash ch).retired != 0 && decide (max 1 (Config.flashBlocks ch) * 2 / 100 < (s.flash ch).retired - max 1 (spareBlocks ch)) then
      (s.setFlash ch ((s.flash ch).gauged ch)).failChannel ch
    else s.setFlash ch ((s.flash ch).gauged ch) := rfl

/-- A channel that has failed does not fail again. -/
theorem failChannel_of_failed {s : State} {ch : Nat} (failed : (s.flash ch).failed = true) : s.failChannel ch = s := if_pos failed

/-- The gauge of a channel that holds out moves SPARE and WEAR alone. -/
theorem gauge_of_holds {s : State} {ch : Nat} (holds : FlashHolds ch (s.flash ch)) :
    s.gauge ch = s.setFlash ch ((s.flash ch).gauged ch) := by
  rw [gauge_eq]
  rcases holds with failed | few
  · rw [failChannel_of_failed (by rw [setFlash_flash_same]; exact failed), ite_self]
  · rw [← spares_eq] at few
    exact if_neg (by simp [few])

/-- After the gauge of a channel that holds out every block stands as before. -/
theorem gauge_block {s : State} {ch : Nat} (holds : FlashHolds ch (s.flash ch)) (n : Nat) :
    ((s.gauge ch).flash ch).block n = (s.flash ch).block n := by
  rw [gauge_of_holds holds, setFlash_flash_same]; rfl

/-! ### Good programs and erases (R239) -/

/-- A block after a good program (R239): its page is live where a chunk waits for it, and stale otherwise. -/
def FBlock.written (b : FBlock) (waits : Bool) : FBlock :=
  if waits then { b with live := b.live + 1, isOpen := true } else { b with stale := b.stale + 1 }

/-- A block after a good erase (R239). -/
def FBlock.erased (b : FBlock) : FBlock := { erases := b.erases + 1, live := 0, stale := 0, retired := b.retired, isOpen := false }

/-- A block after a program or erase that has failed (R239). -/
def FBlock.failed (b : FBlock) : FBlock := { b with retired := true, isOpen := false }

/-- A channel with a block put back. -/
def Flash.putBlock (f : Flash) (n : Nat) (b : FBlock) : Flash := { f with blocks := put f.blocks n b }

@[simp] theorem putBlock_block_same (f : Flash) (n : Nat) (b : FBlock) : (f.putBlock n b).block n = b := lookD_put_same ..

theorem putBlock_block_other (f : Flash) {n m : Nat} (b : FBlock) (ne : m ≠ n) : (f.putBlock n b).block m = f.block m :=
  lookD_put_other _ _ _ _ _ ne

/-- Where block `n` of a channel became `b` and the channel holds out, its gauge leaves it so, and every other block as before. -/
theorem gauge_putBlock {s v : State} {ch n : Nat} {b : FBlock} {eraseq : List Nat}
    (hv : v.flash ch = { (s.flash ch).putBlock n b with eraseq }) (holds : FlashHolds ch ((s.flash ch).putBlock n b)) :
    ((v.gauge ch).flash ch).block n = b ∧ ∀ m, m ≠ n → ((v.gauge ch).flash ch).block m = (s.flash ch).block m := by
  have holds' : FlashHolds ch (v.flash ch) := by rw [hv]; exact holds
  simp only [gauge_block holds', hv]
  exact ⟨putBlock_block_same .., fun m ne => putBlock_block_other _ _ ne⟩

theorem pageProgramComplete_good {s : State} {t ch n : Nat} {b : FBlock}
    (written : b = ((s.flash ch).block n).written (s.tier.chunks.find? fun k => k.channel == ch && k.block == n && !k.done).isSome)
    (holds : FlashHolds ch ((s.flash ch).putBlock n b)) :
    Yields (.pageProgramComplete t ch n true) s fun v => (v.flash ch).block n = b ∧ ∀ m, m ≠ n → (v.flash ch).block m = (s.flash ch).block m := by
  obtain ⟨v, hexec, hv⟩ : ∃ v : State, exec (.pageProgramComplete t ch n true) s = .next (v.gauge ch) ∧
      v.flash ch = (s.flash ch).putBlock n b := by
    refine ⟨_, rfl, ?_⟩
    rw [written, ← State.arrive_tier s t, ← arrive_flash s t ch]
    cases (s.arrive t).tier.chunks.find? fun k => k.channel == ch && k.block == n && !k.done <;> exact setFlash_flash_same ..
  exact .of_exec hexec (gauge_putBlock hv holds)

/-- Unqueueing a block moves the queue of blocks to be erased alone. -/
theorem unqueueBlock_flash (s : State) (ch block : Nat) : ∃ eraseq, (s.unqueueBlock ch block).flash ch = { s.flash ch with eraseq } := by
  unfold State.unqueueBlock
  dsimp only
  split
  · exact ⟨_, rfl⟩
  · exact ⟨_, setFlash_flash_same ..⟩

theorem unqueueBlock_chunks (s : State) (ch block : Nat) : (s.unqueueBlock ch block).tier.chunks = s.tier.chunks := by
  unfold State.unqueueBlock
  dsimp only
  split <;> rfl

theorem retryChunks_of_none {s : State} {ch : Nat} (none : ∀ k ∈ s.tier.chunks, k.channel = ch → k.block = noBlock → k.done = true) :
    s.retryChunks ch = s := by
  have : (s.tier.chunks.filter fun k => k.channel == ch && k.block == noBlock && !k.done) = [] := by
    refine List.filter_eq_nil_iff.2 fun k hk => ?_
    simpa using none k hk
  rw [State.retryChunks, this]; rfl

/-- An erase puts its block back, and takes it out of the queue of blocks to be erased. -/
def State.eraseEnded (s : State) (ch n : Nat) (b : FBlock) : State := (s.setFlash ch ((s.flash ch).putBlock n b)).unqueueBlock ch n

theorem exec_blockEraseComplete (s : State) (t ch n : Nat) (ok : Bool) : exec (.blockEraseComplete t ch n ok) s =
    .next ((((s.arrive t).eraseEnded ch n (if ok then (((s.arrive t).flash ch).block n).erased
      else (((s.arrive t).flash ch).block n).failed)).retryChunks ch).gauge ch) := rfl

theorem eraseEnded_flash (s : State) (ch n : Nat) (b : FBlock) :
    ∃ eraseq, (s.eraseEnded ch n b).flash ch = { (s.flash ch).putBlock n b with eraseq } := by
  obtain ⟨eraseq, h⟩ := unqueueBlock_flash (s.setFlash ch ((s.flash ch).putBlock n b)) ch n
  exact ⟨eraseq, by rw [State.eraseEnded, h, setFlash_flash_same]⟩

theorem eraseEnded_chunks (s : State) (ch n : Nat) (b : FBlock) : (s.eraseEnded ch n b).tier.chunks = s.tier.chunks := unqueueBlock_chunks ..

theorem blockEraseComplete_good {s : State} {t ch n : Nat} (holds : FlashHolds ch ((s.flash ch).putBlock n ((s.flash ch).block n).erased))
    (none : ∀ k ∈ s.tier.chunks, k.channel = ch → k.block = noBlock → k.done = true) :
    Yields (.blockEraseComplete t ch n true) s fun v => (v.flash ch).block n = ((s.flash ch).block n).erased ∧
      ∀ m, m ≠ n → (v.flash ch).block m = (s.flash ch).block m := by
  rw [← State.arrive_tier s t] at none
  rw [← arrive_flash s t ch] at holds ⊢
  obtain ⟨eraseq, hflash⟩ := eraseEnded_flash (s.arrive t) ch n (((s.arrive t).flash ch).block n).erased
  refine .of_exec (exec_blockEraseComplete s t ch n true) ?_
  rw [if_pos rfl, retryChunks_of_none (by rw [eraseEnded_chunks]; exact none)]
  exact gauge_putBlock hflash holds

/-! ### The block that takes the next page (R239) -/

theorem mem_of_look {α : Type} {m : Assoc α} {i : Nat} {x : α} (h : look m i = some x) : (i, x) ∈ m := by
  induction m with
  | nil => cases h
  | cons p m ih =>
    obtain ⟨k, v⟩ := p
    unfold look at h
    split at h
    next e => obtain rfl := e; obtain rfl := Option.some.inj h; exact List.mem_cons_self
    next => exact List.mem_cons_of_mem _ (ih h)

/-- A map leaves a number free among one more than it has entries. -/
theorem look_least_free {α : Type} (m : Assoc α) :
    look m (((List.range (m.length + 1)).find? fun n => (look m n).isNone).getD 0) = none := by
  cases found : (List.range (m.length + 1)).find? fun n => (look m n).isNone with
  | some n => simpa using List.find?_some found
  | none =>
    have taken : List.range (m.length + 1) ⊆ m.map (·.1) := fun n hn => by
      have held := List.find?_eq_none.1 found n hn
      obtain ⟨x, hx⟩ := Option.isSome_iff_exists.1 (Option.isSome_iff_ne_none.2 (by simpa using held))
      exact List.mem_map_of_mem (mem_of_look hx)
    have := (List.subperm_of_subset List.nodup_range taken).length_le
    simp at this

/-- A block that is listed, retired and closed. -/
def Flash.Shut (f : Flash) (n : Nat) : Prop := ∃ b, look f.blocks n = some b ∧ b.retired = true ∧ b.isOpen = false

theorem Flash.Shut.block {f : Flash} {n : Nat} (h : f.Shut n) : (f.block n).retired = true ∧ (f.block n).isOpen = false := by
  obtain ⟨b, hb, shut⟩ := h
  rw [Flash.block, lookD, hb]; exact shut

/-- No page goes to a block that is shut. -/
theorem nextBlock_not_shut (s : State) (ch : Nat) (reserve : Bool) :
    s.nextBlock ch reserve = noBlock ∨ ¬ (s.flash ch).Shut (s.nextBlock ch reserve) := by
  unfold State.nextBlock
  dsimp only
  split
  next b found =>
    refine .inr fun shut => ?_
    have := List.find?_some found
    simp [shut.block.2] at this
  next =>
    split
    case isFalse => exact .inl rfl
    refine List.foldlRecOn (motive := fun m : Nat × Nat => m.1 = noBlock ∨ ¬ (s.flash ch).Shut m.1) _ _ ?_ fun m hm b hb => ?_
    · split
      · refine .inr fun ⟨b, hb, _⟩ => ?_
        rw [look_least_free] at hb
        cases hb
      · exact .inl rfl
    · split
      · refine .inr fun shut => ?_
        have := (List.mem_filter.1 hb).2
        simp [shut.block.1] at this
      · exact hm

/-! ### A chunk programmed (R234, R238, R239) -/

/-- The chunk map without a chunk. -/
def State.withoutChunk (s : State) (k : Chunk) : State :=
  { s with tier := { s.tier with chunks := s.tier.chunks.filter fun x => !(x.extent == k.extent && x.chunk == k.chunk) } }

/-- The page that held a chunk is stale, and the map without it. -/
def State.unlisted (s : State) (k : Chunk) : State :=
  (s.tier.chunks.filter fun x => x.extent == k.extent && x.chunk == k.chunk).foldl (fun (s : State) x => s.stale x) (s.withoutChunk k)

/-- A chunk is programmed: its old page is stale, and it is placed under a write counter and a key generation. -/
theorem programChunk_eq (s : State) (k : Chunk) (reserve : Bool) : ∃ wctr ctr kgen, s.programChunk k reserve =
    ({ s.unlisted k with tier := { (s.unlisted k).tier with wctr } } : State).placeChunk { k with rewrite := false, ctr, kgen } reserve :=
  ⟨_, _, _, rfl⟩

/-- A chunk that has been placed waits for its program. -/
theorem placeChunk_waits (s : State) (k : Chunk) (reserve : Bool) : ∃ c ∈ (s.placeChunk k reserve).tier.chunks, c.extent = k.extent ∧
    c.chunk = k.chunk ∧ c.done = false ∧ c.bad = k.bad ∧ c.rewrite = k.rewrite :=
  ⟨{ k with block := s.nextBlock k.channel reserve, done := false }, List.mem_append_right _ List.mem_cons_self, rfl, rfl, rfl, rfl, rfl⟩

theorem programChunk_waits (s : State) (k : Chunk) (reserve : Bool) : ∃ c ∈ (s.programChunk k reserve).tier.chunks, c.extent = k.extent ∧
    c.chunk = k.chunk ∧ c.done = false ∧ c.bad = k.bad ∧ c.rewrite = false := by
  obtain ⟨wctr, ctr, kgen, h⟩ := programChunk_eq s k reserve
  rw [h]
  exact placeChunk_waits _ { k with rewrite := false, ctr, kgen } reserve

/-! ### What work on a channel keeps of it (R239, R241) -/

/-- A channel whose blocks that are shut stay shut, whose LUN resets stand, and whose error bit stays set. -/
structure ChannelKept (ch : Nat) (s t : State) : Prop where
  shut  : ∀ n, (s.flash ch).Shut n → (t.flash ch).Shut n
  tries : (t.flash ch).lunTries = (s.flash ch).lunTries
  err   : (s.flash ch).err = true → (t.flash ch).err = true

section
variable {ch : Nat}

theorem ChannelKept.of_flash {s t : State} (h : t.flash ch = s.flash ch) : ChannelKept ch s t :=
  ⟨fun _ shut => h ▸ shut, congrArg Flash.lunTries h, fun err => h ▸ err⟩

theorem ChannelKept.refl (s : State) : ChannelKept ch s s := .of_flash rfl

theorem ChannelKept.trans {a b c : State} (h : ChannelKept ch a b) (k : ChannelKept ch b c) : ChannelKept ch a c :=
  ⟨fun n shut => k.shut n (h.shut n shut), k.tries.trans h.tries, fun err => k.err (h.err err)⟩

theorem ChannelKept.foldl {α : Type} {f : State → α → State} (k : ∀ s x, ChannelKept ch s (f s x)) (l : List α) (s : State) :
    ChannelKept ch s (l.foldl f s) := by
  induction l generalizing s with
  | nil => exact .refl s
  | cons x l ih => exact (k s x).trans (ih (f s x))

theorem ChannelKept.of_within {s t : State} (h : Within (keeping [.tier]) s t) : ChannelKept ch s t :=
  .of_flash (flash_congr (congrArg TierSt.flash (h.keeps (p := .tier) (by simp))) ch)

/-- A channel put back keeps what a channel keeps when it does so itself; any other channel stands. -/
theorem ChannelKept.setFlash {s : State} {n : Nat} {f : Flash} (shut : ∀ m, (s.flash n).Shut m → f.Shut m)
    (tries : f.lunTries = (s.flash n).lunTries) (err : (s.flash n).err = true → f.err = true) : ChannelKept ch s (s.setFlash n f) := by
  by_cases same : ch = n
  · subst same
    constructor <;> rw [setFlash_flash_same] <;> assumption
  · exact .of_flash (setFlash_flash_other s f same)

/-- A block put back in the place of one that is not shut, or shut in the place of one that is, leaves every shut block shut. -/
theorem putBlock_shut {f : Flash} {n : Nat} {b : FBlock} (h : f.Shut n → b.retired = true ∧ b.isOpen = false) {m : Nat} (shut : f.Shut m) :
    (f.putBlock n b).Shut m := by
  by_cases same : m = n
  · subst same
    exact ⟨b, look_put_same .., h shut⟩
  · obtain ⟨x, hx, closed⟩ := shut
    exact ⟨x, (look_put_other _ _ _ _ same).trans hx, closed⟩

theorem stale_kept (s : State) (k : Chunk) : ChannelKept ch s (s.stale k) := by
  unfold State.stale
  dsimp only
  split
  · exact .refl s
  · exact .setFlash (f := (s.flash k.channel).putBlock k.block _) (fun m shut => putBlock_shut (by exact fun old => old.block) shut) rfl id

/-- A chunk is placed in a block that is not shut, or in none. -/
theorem placeChunk_kept (s : State) (k : Chunk) (reserve : Bool) : ChannelKept ch s (s.placeChunk k reserve) := by
  have put_ : ChannelKept ch s (s.setFlash k.channel { s.flash k.channel with
      blocks := if s.nextBlock k.channel reserve = noBlock then (s.flash k.channel).blocks
        else put (s.flash k.channel).blocks (s.nextBlock k.channel reserve)
          { (s.flash k.channel).block (s.nextBlock k.channel reserve) with isOpen := true } }) := by
    refine .setFlash (fun m shut => ?_) rfl id
    split
    · exact shut
    · exact putBlock_shut (fun closed => ((nextBlock_not_shut s k.channel reserve).elim ‹_› (· closed)).elim) shut
  exact put_.trans (.of_flash rfl)

theorem programChunk_kept (s : State) (k : Chunk) (reserve : Bool) : ChannelKept ch s (s.programChunk k reserve) := by
  obtain ⟨wctr, ctr, kgen, h⟩ := programChunk_eq s k reserve
  have listed : ChannelKept ch s (s.withoutChunk k) := .of_flash rfl
  have unlisted : ChannelKept ch s (s.unlisted k) := listed.trans (.foldl (fun s x => stale_kept s x) _ _)
  have counted : ChannelKept ch (s.unlisted k) { s.unlisted k with tier := { (s.unlisted k).tier with wctr } } := .of_flash rfl
  rw [h]
  exact (unlisted.trans counted).trans (placeChunk_kept ..)

theorem retryChunks_kept (s : State) (c : Nat) : ChannelKept ch s (s.retryChunks c) := .foldl (fun _ _ => placeChunk_kept ..) _ _

theorem rewriteChunk_kept (s : State) (k : Chunk) : ChannelKept ch s (s.rewriteChunk k) := programChunk_kept ..

theorem fetchChunks_kept (s : State) (l : List Chunk) : ChannelKept ch s (s.fetchChunks l) :=
  .foldl (f := fun s (k : Chunk) => s.flashOps k.channel [0x00, 0x78, 0x06]) (fun _ _ => .of_flash rfl) _ _

end

/-! ### A chunk that cannot be read (R241) -/

/-- Of the tiers only the streams in progress have moved. -/
def StreamsMoved (s t : State) : Prop := ∃ wstr, t.tier = { s.tier with wstr }

theorem StreamsMoved.of_within {s t : State} (h : Within (keeping [.tier]) s t) : StreamsMoved s t :=
  ⟨s.tier.wstr, h.keeps (p := .tier) (by simp)⟩

theorem StreamsMoved.trans {a b c : State} (h : StreamsMoved a b) (k : StreamsMoved b c) : StreamsMoved a c := by
  obtain ⟨wstr, h⟩ := h
  obtain ⟨wstr', k⟩ := k
  exact ⟨wstr', by rw [k, h]⟩

theorem StreamsMoved.flash {s t : State} (h : StreamsMoved s t) (ch : Nat) : t.flash ch = s.flash ch := by
  obtain ⟨wstr, h⟩ := h
  exact flash_congr (by rw [h]) ch

theorem StreamsMoved.chunks {s t : State} (h : StreamsMoved s t) : t.tier.chunks = s.tier.chunks := by
  obtain ⟨wstr, h⟩ := h
  rw [h]

theorem endSecs_streamsMoved (l : List (Nat × Nat)) (s : State) :
    StreamsMoved s (l.foldl (fun (s : State) h => s.endSec h.1 h.2 .integrity) s) :=
  .of_within (.foldl (.refl _ _) fun _ _ h => by apply State.endSec_within (hs := h) <;> rfl)

theorem endSearches_streamsMoved (st : Status) (l : List Search) (s : State) : StreamsMoved s (l.foldl (fun (s : State) x => s.endSearch st x) s) :=
  .of_within (.foldl (.refl _ _) fun _ _ h => by apply State.endSearch_within (hs := h) <;> rfl)

/-- What needs a lost chunk ends; of the tiers only the streams in progress learn of it. -/
theorem chunkLost_streamsMoved (s : State) (extent chunk : Nat) : StreamsMoved s (s.chunkLost extent chunk) :=
  ((endSecs_streamsMoved ..).trans ⟨_, rfl⟩).trans (endSearches_streamsMoved ..)

/-- A chunk is marked as one that cannot be read, with the error bit of a channel. -/
def State.chunkBad (s : State) (ch : Nat) (k : Chunk) : State :=
  (s.setChunk { k with bad := true }).setFlash ch { (s.setChunk { k with bad := true }).flash ch with err := true }

/-- A chunk is lost: once DATA_LOST has named it, it is marked, and counts and events follow. -/
theorem loseChunk_eq (s : State) (ch : Nat) (k : Chunk) (tagOk : Bool) : ∃ named : State, named.tier = s.tier ∧
    StreamsMoved (named.chunkBad ch k) (s.loseChunk ch k tagOk) := by
  unfold State.loseChunk
  refine ⟨if k.bad then s else s.dataLost k.comp k.job (s.pagesOn k), ?_, ?_⟩
  · split
    · rfl
    · exact Within.keeps (l := [.tier]) (p := .tier) (by apply State.dataLost_within (hs := .refl _ _) <;> rfl) (by simp)
  · refine .trans (.of_within ?_) (chunkLost_streamsMoved ..)
    apply State.flashEvent_within
    case hs => exact State.count_within rfl (.ite (State.count_within rfl (.refl _ _)) (.refl _ _))
    all_goals rfl

theorem chunkBad_kept {c : Nat} (s : State) (ch : Nat) (k : Chunk) : ChannelKept c s (s.chunkBad ch k) := by
  have listed : ChannelKept c s (s.setChunk { k with bad := true }) := .of_flash rfl
  exact listed.trans (.setFlash (f := { (s.setChunk { k with bad := true }).flash ch with err := true }) (fun _ shut => shut) rfl fun _ => rfl)

theorem loseChunk_kept {c : Nat} (s : State) (ch : Nat) (k : Chunk) (tagOk : Bool) : ChannelKept c s (s.loseChunk ch k tagOk) := by
  obtain ⟨named, tier, moved⟩ := loseChunk_eq s ch k tagOk
  have before : ChannelKept c s named := .of_flash (flash_congr (by rw [tier]) c)
  exact (before.trans (chunkBad_kept named ch k)).trans (.of_flash (moved.flash c))

/-- A lost chunk cannot be read any more, and the error bit of the channel is set. -/
theorem loseChunk_bad (s : State) (ch : Nat) (k : Chunk) (tagOk : Bool) : ((s.loseChunk ch k tagOk).flash ch).err = true ∧
    ∃ c ∈ (s.loseChunk ch k tagOk).tier.chunks, c.extent = k.extent ∧ c.chunk = k.chunk ∧ c.bad = true := by
  obtain ⟨named, -, moved⟩ := loseChunk_eq s ch k tagOk
  rw [moved.flash, moved.chunks]
  refine ⟨?_, { k with bad := true }, List.mem_cons_self, rfl, rfl, rfl⟩
  rw [State.chunkBad, setFlash_flash_same]

theorem uncorrectable_of_rebuildable {s : State} {k : Chunk} (h : s.rebuildable k = true) (ch : Nat) : s.uncorrectable ch k =
    (s.fetchChunks (s.stripeMates k.extent k.chunk)).rewriteChunk { k with bad := false } := if_pos h

theorem uncorrectable_of_lost {s : State} {k : Chunk} (h : s.rebuildable k = false) (ch : Nat) :
    s.uncorrectable ch k = s.loseChunk ch k true := if_neg (by simp [h])

theorem uncorrectable_kept {c : Nat} (s : State) (ch : Nat) (k : Chunk) : ChannelKept c s (s.uncorrectable ch k) := by
  cases h : s.rebuildable k with
  | true =>
    rw [uncorrectable_of_rebuildable h]
    exact (fetchChunks_kept ..).trans (rewriteChunk_kept ..)
  | false =>
    rw [uncorrectable_of_lost h]
    exact loseChunk_kept ..

/-- The state in which a channel has been marked as failed, and the searches that read from it have ended. -/
def State.channelOff (s : State) (ch : Nat) : State := (s.setFlash ch { s.flash ch with failed := true }).searchesOff ch

theorem channelOff_kept {c : Nat} (s : State) (ch : Nat) : ChannelKept c s (s.channelOff ch) :=
  .trans (.setFlash (n := ch) (f := { s.flash ch with failed := true }) (fun _ shut => shut) rfl id)
    (.of_within (by apply State.searchesOff_within (hs := .refl _ _) <;> rfl))

theorem failChannel_kept {c : Nat} (s : State) (ch : Nat) : ChannelKept c s (s.failChannel ch) := by
  by_cases failed : (s.flash ch).failed = true
  · rw [failChannel_of_failed failed]
    exact .refl s
  · have h : s.failChannel ch = (((s.channelOff ch).tier.chunks.filter fun k => k.channel == ch).foldl
        (fun (s : State) k => s.uncorrectable ch k) (s.channelOff ch)).flashEvent ch 1 [] := if_neg failed
    have chunks : ∀ l : List Chunk, ChannelKept c (s.channelOff ch) (l.foldl (fun (s : State) k => s.uncorrectable ch k) (s.channelOff ch)) :=
      fun l => .foldl (fun s k => uncorrectable_kept s ch k) l _
    rw [h]
    exact ((channelOff_kept s ch).trans (chunks _)).trans (.of_within (by apply State.flashEvent_within (hs := .refl _ _) <;> rfl))

theorem gauge_kept {c : Nat} (s : State) (ch : Nat) : ChannelKept c s (s.gauge ch) := by
  have gauged : ChannelKept c s (s.setFlash ch ((s.flash ch).gauged ch)) := .setFlash (fun _ shut => shut) rfl id
  rw [gauge_eq]
  split
  · exact gauged.trans (failChannel_kept ..)
  · exact gauged

/-! ### Failed programs and erases (R239) -/

theorem putBlock_failed_shut (f : Flash) (n : Nat) (b : FBlock) : (f.putBlock n b.failed).Shut n := ⟨_, look_put_same .., rfl, rfl⟩

theorem pageProgramComplete_failed (s : State) (t ch n : Nat) : Yields (.pageProgramComplete t ch n false) s fun v =>
    ((v.flash ch).block n).retired = true ∧ ((v.flash ch).block n).isOpen = false := by
  obtain ⟨v, hexec, kept⟩ : ∃ v : State, exec (.pageProgramComplete t ch n false) s = .next (v.gauge ch) ∧
      ChannelKept ch ((s.arrive t).setFlash ch (((s.arrive t).flash ch).putBlock n (((s.arrive t).flash ch).block n).failed)) v := by
    refine ⟨_, rfl, ?_⟩
    cases (s.arrive t).tier.chunks.find? fun k => k.channel == ch && k.block == n && !k.done with
    | none => exact .refl _
    | some k => exact programChunk_kept ..
  exact .of_exec hexec ((kept.trans (gauge_kept ..)).shut n (by rw [setFlash_flash_same]; exact putBlock_failed_shut ..)).block

theorem blockEraseComplete_failed (s : State) (t ch n : Nat) : Yields (.blockEraseComplete t ch n false) s fun v =>
    ((v.flash ch).block n).retired = true ∧ ((v.flash ch).block n).isOpen = false := by
  obtain ⟨eraseq, hflash⟩ := eraseEnded_flash (s.arrive t) ch n (((s.arrive t).flash ch).block n).failed
  have shut : (((s.arrive t).eraseEnded ch n (((s.arrive t).flash ch).block n).failed).flash ch).Shut n := by
    rw [hflash]
    exact putBlock_failed_shut ..
  exact .of_exec (exec_blockEraseComplete s t ch n false) (((retryChunks_kept ..).trans (gauge_kept ..)).shut n shut).block

/-! ### Chunks read, LUN timeouts and calibrations (R234, R241) -/

/-- A chunk that is rebuilt from its stripe is programmed again. -/
theorem uncorrectable_programs {s : State} {k : Chunk} (h : s.rebuildable k = true) (ch : Nat) : (s.uncorrectable ch k).rq = s.rq ∧
    ∃ c ∈ (s.uncorrectable ch k).tier.chunks, c.extent = k.extent ∧ c.chunk = k.chunk ∧ c.done = false ∧ c.bad = false ∧ c.rewrite = false := by
  rw [uncorrectable_of_rebuildable h]
  refine ⟨Within.keeps (l := [.rq]) (p := .rq) ?_ (by simp), programChunk_waits ..⟩
  exact State.rewriteChunk_within rfl rfl (State.fetchChunks_within rfl (.refl _ _))

/-- A read of a chunk of a working channel that was corrected, with a good tag, marks the chunk where it needed many corrections (R241). -/
theorem exec_chunkRead_corrected {s : State} {t ch extent chunk : Nat} {r : ChunkRead} (good : corrected r = true ∧ (s.flash ch).failed = false)
    (tag : r.tagOk = true) : exec (.flashChunkReadComplete t ch extent chunk r) s = .next
      (if 120 < corrections r then (s.arrive t).setChunk { (s.arrive t).chunkAt ch extent chunk with rewrite := true } else s.arrive t) := by
  change execFlashChunkReadComplete t ch extent chunk r s = _
  unfold execFlashChunkReadComplete
  simp [good, tag]

theorem exec_chunkRead_tagFailed {s : State} {t ch extent chunk : Nat} {r : ChunkRead} (good : corrected r = true ∧ (s.flash ch).failed = false)
    (tag : r.tagOk = false) : exec (.flashChunkReadComplete t ch extent chunk r) s =
      .next ((s.arrive t).loseChunk ch ((s.arrive t).chunkAt ch extent chunk) false) := by
  change execFlashChunkReadComplete t ch extent chunk r s = _
  unfold execFlashChunkReadComplete
  simp [good, tag]

theorem exec_chunkRead_uncorrected {s : State} {t ch extent chunk : Nat} {r : ChunkRead}
    (bad : ¬ (corrected r = true ∧ (s.flash ch).failed = false)) : exec (.flashChunkReadComplete t ch extent chunk r) s =
      .next (if r.stripeOk then (s.arrive t).uncorrectable ch ((s.arrive t).chunkAt ch extent chunk)
        else (s.arrive t).loseChunk ch ((s.arrive t).chunkAt ch extent chunk) true) := by
  change execFlashChunkReadComplete t ch extent chunk r s = _
  unfold execFlashChunkReadComplete
  simp only [arrive_flash]
  exact if_neg (by simpa using bad)

/-- A chunk that is lost for its tag, or that can be neither corrected nor rebuilt. -/
theorem chunkRead_lost {s : State} {t ch extent chunk : Nat} {r : ChunkRead}
    (lost : (corrected r = true ∧ (s.flash ch).failed = false) ∧ r.tagOk = false ∨ ¬ (corrected r = true ∧ (s.flash ch).failed = false) ∧
      (r.stripeOk = false ∨ (s.arrive t).rebuildable ((s.arrive t).chunkAt ch extent chunk) = false)) :
    ∃ tagOk, exec (.flashChunkReadComplete t ch extent chunk r) s =
      .next ((s.arrive t).loseChunk ch ((s.arrive t).chunkAt ch extent chunk) tagOk) := by
  rcases lost with ⟨good, tag⟩ | ⟨bad, stripe⟩
  · exact ⟨false, exec_chunkRead_tagFailed good tag⟩
  · refine ⟨true, (exec_chunkRead_uncorrected bad).trans ?_⟩
    cases ok : r.stripeOk with
    | false => rfl
    | true => rw [if_pos rfl, uncorrectable_of_lost (by simpa [ok] using stripe)]

/-- The state in which a LUN has been noted in the list of those reset and retried. -/
def State.noteLun (s : State) (ch : Nat) (tries : List (Nat × Nat)) : State := s.setFlash ch { s.flash ch with lunTries := tries }

/-- A note of a LUN moves nothing that a rebuild asks for. -/
theorem noteLun_rebuildable (s : State) (ch : Nat) (tries : List (Nat × Nat)) (k : Chunk) :
    (s.noteLun ch tries).rebuildable k = s.rebuildable k := by
  have failed : ∀ n, ((s.noteLun ch tries).flash n).failed = (s.flash n).failed := fun n => by
    by_cases same : n = ch
    · rw [same, State.noteLun, setFlash_flash_same]
    · rw [State.noteLun, setFlash_flash_other s _ same]
  unfold State.rebuildable
  simp only [failed]
  rfl

theorem exec_lunTimeout_again (s : State) (t ch target lun extent chunk : Nat) :
    ∃ v, exec (.lunTimeout t ch target lun ⟨true, extent, chunk⟩) s = .next v ∧ ChannelKept ch
      (((s.arrive t).noteLun ch ((target, lun) :: ((s.arrive t).flash ch).lunTries)).uncorrectable ch ((s.arrive t).chunkAt ch extent chunk)) v := by
  refine ⟨_, rfl, ?_⟩
  dsimp only
  split
  · exact failChannel_kept ..
  · exact .refl _

theorem exec_zqCalibrationShort (s : State) (t ch : Nat) : exec (.zqCalibrationShort t ch) s =
    .next (if (s.flash ch).up && decide ((s.flash ch).zqAt + 100 * ms ≤ (s.arrive t).timer) then
      ((s.arrive t).setFlash ch { s.flash ch with zq := (s.flash ch).zq + 1, zqAt := (s.arrive t).timer }).flashOps ch [0xD9]
    else s.arrive t) := by
  rw [← arrive_flash s t ch]; rfl

/-- Settles O31, by what each event does to the blocks of its channel, to the chunk it names, and to the channel's notes. -/
theorem flashEventsKeepTheBlockAndChunkTables : Obligations.FlashEventsKeepTheBlockAndChunkTables := by
  unfold Obligations.FlashEventsKeepTheBlockAndChunkTables
  intro s t ch f u
  have flash : u.flash ch = f := arrive_flash s t ch
  have named := chunkAt_names u ch
  refine ⟨fun n => ⟨fun b written holds => ?programmed, fun b erased holds none => ?erased, ?programFailed, ?eraseFailed⟩, fun extent chunk r =>
    ⟨fun good tag many => ?rewrite, fun good tag few => ?readWell, fun bad stripe rebuilds => ?rebuilt, fun lost => ?lost⟩,
    fun target lun extent chunk => ⟨?lunReset, ?lunAgain⟩, fun up due => ?calibrated, fun early => ?early⟩
  case programmed => exact pageProgramComplete_good written holds
  case erased =>
    rw [erased] at holds ⊢
    exact blockEraseComplete_good holds none
  case programFailed => exact pageProgramComplete_failed s t ch n
  case eraseFailed => exact blockEraseComplete_failed s t ch n
  case rewrite =>
    obtain ⟨hextent, hchunk⟩ := named extent chunk
    refine .of_exec (exec_chunkRead_corrected good tag) ?_
    rw [if_pos many]
    refine ⟨State.arrive_rq s t, congrArg (List.cons _) ?_⟩
    rw [hextent, hchunk, State.arrive_tier]
  case readWell => rw [exec_chunkRead_corrected good tag, if_neg (Nat.not_lt.2 few)]
  case rebuilt =>
    obtain ⟨hextent, hchunk⟩ := named extent chunk
    refine .of_exec (exec_chunkRead_uncorrected bad) ?_
    rw [if_pos stripe]
    obtain ⟨hrq, programmed⟩ := uncorrectable_programs rebuilds ch
    rw [hextent, hchunk] at programmed
    exact ⟨hrq.trans (State.arrive_rq s t), programmed⟩
  case lost =>
    obtain ⟨hextent, hchunk⟩ := named extent chunk
    obtain ⟨tagOk, hexec⟩ := chunkRead_lost lost
    refine .of_exec hexec ?_
    have bad := loseChunk_bad u ch (u.chunkAt ch extent chunk) tagOk
    rwa [hextent, hchunk] at bad
  case lunReset =>
    refine .of_exec rfl ⟨?_, ?_⟩
    · rw [flashOps_flash, setFlash_flash_same]; rfl
    · simp only [State.flashOps, List.mem_append, List.mem_map, Out.flashCmd.injEq, true_and, exists_eq_right]
      left
      split <;> simp
  case lunAgain =>
    obtain ⟨v, hexec, kept⟩ := exec_lunTimeout_again s t ch target lun extent chunk
    refine .of_exec hexec ⟨?_, fun gone => ?_⟩
    · rw [kept.tries, (uncorrectable_kept ..).tries, State.noteLun, setFlash_flash_same, flash]
    · rw [uncorrectable_of_lost (by rw [noteLun_rebuildable]; exact gone)] at kept
      exact kept.err (loseChunk_bad ..).1
  case calibrated =>
    have hexec : exec (.zqCalibrationShort t ch) s =
        .next ((u.setFlash ch { f with zq := f.zq + 1, zqAt := u.timer }).flashOps ch [0xD9]) := by
      rw [exec_zqCalibrationShort, if_pos (by simpa using ⟨up, due⟩)]
    refine .of_exec hexec ⟨by rw [flashOps_flash, setFlash_flash_same], ?_⟩
    unfold State.flashOps
    dsimp only
    split <;> rfl
  case early => rw [exec_zqCalibrationShort, if_neg (by simpa using fun _ => early)]

end Sys2Proof.Machine

/-! ## Hints (09) -/

namespace Sys2Proof.Machine

@[simp] theorem arrive_compServes (s : State) (t c : Nat) : (s.arrive t).compServes c = s.compServes c := by rw [arrive_eq]; rfl
@[simp] theorem arrive_flashOf (s : State) (t c : Nat) : (s.arrive t).flashOf c = s.flashOf c := by rw [arrive_eq]; rfl

/-! ### Contexts, streams and pages changed in place -/

theorem strm?_congr {s t : State} (h : t.pg.ctxs = s.pg.ctxs) (job ctx stream : Nat) : t.strm? job ctx stream = s.strm? job ctx stream := by
  rw [State.strm?, ctx?_congr h]; rfl

section
variable {f : Ctx → Ctx} (names : ∀ k, (f k).job = k.job ∧ (f k).ctx = k.ctx)
include names

/-- Contexts changed in place, under the names that they have, are found as changed. -/
theorem setCtx_ctx? (s : State) (job' ctx' job ctx : Nat) : (s.setCtx job' ctx' f).ctx? job ctx =
    (s.ctx? job ctx).map fun k => if k.job == job' && k.ctx == ctx' then f k else k := by
  have named : ((fun c : Ctx => c.job == job && c.ctx == ctx) ∘ fun k : Ctx => if k.job == job' && k.ctx == ctx' then f k else k) =
      fun c => c.job == job && c.ctx == ctx := by
    funext k
    obtain ⟨hjob, hctx⟩ := names k
    dsimp only [Function.comp]
    split
    · rw [hjob, hctx]
    · rfl
  exact List.find?_map.trans (by rw [named]; rfl)

theorem setCtx_ctx?_same (s : State) (job ctx : Nat) : (s.setCtx job ctx f).ctx? job ctx = (s.ctx? job ctx).map f := by
  rw [setCtx_ctx? names]
  exact Option.map_congr fun k held => if_pos (List.find?_some held)

end

/-- A context with one of its streams changed. -/
def Ctx.withStrm (k : Ctx) (stream : Nat) (f : Strm → Strm) : Ctx :=
  match k.index? stream with
  | some i => match look k.streams i with
    | some x => { k with streams := put k.streams i (f x) }
    | none => k
  | none => k

theorem Ctx.withStrm_eq (k : Ctx) (stream : Nat) (f : Strm → Strm) : ∃ streams, k.withStrm stream f = { k with streams } := by
  unfold Ctx.withStrm
  split
  · split <;> exact ⟨_, rfl⟩
  · exact ⟨_, rfl⟩

theorem Ctx.withStrm_strm? (k : Ctx) (stream : Nat) (f : Strm → Strm) : (k.withStrm stream f).strm? stream = (k.strm? stream).map f := by
  unfold Ctx.withStrm Ctx.strm?
  cases hi : k.index? stream with
  | none => simp [hi]
  | some i =>
    cases hx : look k.streams i with
    | none => simp [hi, hx]
    | some x =>
      have hi' : ({ k with streams := put k.streams i (f x) } : Ctx).index? stream = some i := hi
      simp [hi', hx, look_put_same]

theorem setStrm_ctx? (s : State) (job ctx stream : Nat) (f : Strm → Strm) :
    (s.setStrm job ctx stream f).ctx? job ctx = (s.ctx? job ctx).map fun k => k.withStrm stream f := by
  refine setCtx_ctx?_same (f := fun k => k.withStrm stream f) (fun k => ?_) s job ctx
  obtain ⟨streams, h⟩ := k.withStrm_eq stream f
  rw [h]
  exact ⟨rfl, rfl⟩

theorem setStrm_strm? (s : State) (job ctx stream : Nat) (f : Strm → Strm) :
    (s.setStrm job ctx stream f).strm? job ctx stream = (s.strm? job ctx stream).map f := by
  unfold State.strm?
  rw [setStrm_ctx?]
  cases s.ctx? job ctx with
  | none => rfl
  | some k => exact k.withStrm_strm? stream f

theorem writePage_pg (s : State) (job ctx stream page : Nat) : (s.writePage job ctx stream page).pg = s.pg :=
  Within.keeps (l := [.pg]) (p := .pg) (State.writePage_within rfl rfl (.refl _ _)) (by simp)

/-- A page changed in place is changed in its stream, and nothing else of the page store but the contexts moves. -/
theorem setPage_strm? (s : State) (job ctx stream page : Nat) (f : Page → Page) : (s.setPage job ctx stream page f).strm? job ctx stream =
    (s.strm? job ctx stream).map fun x => { x with pages := x.pages.modify page f } := by
  rw [State.setPage, strm?_congr (congrArg PageSt.ctxs (writePage_pg ..)), setStrm_strm?]
  simp only [zipIdx_map_eq_modify]

theorem setPage_pool (s : State) (job ctx stream page : Nat) (f : Page → Page) : (s.setPage job ctx stream page f).pg.pool = s.pg.pool := by
  rw [State.setPage, writePage_pg]; rfl

/-! ### The bytes that a page writes (R73 to R79, R414) -/

@[simp] theorem leBytes_length (n v : Nat) : (leBytes n v).length = n := by
  induction n generalizing v with
  | zero => rfl
  | succ n ih => simp [leBytes, ih]

theorem desc_toBytes_length (d : Desc) : d.toBytes.length = 16 := by simp [Desc.toBytes]

theorem grain_toBytes_length (g : Grain) : g.toBytes.length = 64 := by simp [Grain.toBytes]

theorem pmap_toBytes_length (m : PMap) : m.toBytes.length = 4 := by simp [PMap.toBytes]

/-- A byte in none of the places of a page of a stream. -/
structure OutsidePage (x : Strm) (page a : Nat) : Prop where
  walk  : ∀ d, x.walk page = some d → a < d ∨ d + 16 ≤ a
  grain : ∀ g, x.grainPlace page = some g → a < g ∨ g + 64 ≤ a
  map   : ∀ m, x.mapPlace page = some m → a < m ∨ m + 4 ≤ a

/-- A page that is written touches its own places alone. -/
theorem writePage_read {s : State} {job ctx stream page a : Nat} {x : Strm} (held : s.strm? job ctx stream = some x)
    (outside : OutsidePage x page a) : Memory.read (s.writePage job ctx stream page).mem a = Memory.read s.mem a := by
  unfold State.writePage
  rw [held]
  dsimp only
  split
  next p d g m _ hd hg hm =>
    have grain : Memory.read (if isHbm g then s.store g p.grain.toBytes else s).mem a = Memory.read s.mem a := by
      split
      · exact State.store_read _ _ _ (by rw [grain_toBytes_length]; exact outside.grain g hg)
      · rfl
    rw [← grain]
    split
    · rw [State.store_read _ _ _ (by rw [desc_toBytes_length]; exact outside.walk d hd),
        State.store_read _ _ _ (by rw [pmap_toBytes_length]; exact outside.map m hm)]
    · rfl
  next => rfl

theorem setPage_read {s : State} {job ctx stream page a : Nat} {x : Strm} (f : Page → Page) (held : s.strm? job ctx stream = some x)
    (outside : OutsidePage x page a) : Memory.read (s.setPage job ctx stream page f).mem a = Memory.read s.mem a := by
  refine writePage_read (x := { x with pages := x.pages.zipIdx.map fun p => if p.2 = page then f p.1 else p.1 }) ?_
    ⟨outside.walk, outside.grain, outside.map⟩
  rw [setStrm_strm?, held]; rfl

theorem putPool_read {s : State} (key : Nat) {e : Pool} {a : Nat} (outside : a < e.npa ∨ e.npa + 16 ≤ a) :
    Memory.read (s.putPool key e).mem a = Memory.read s.mem a :=
  State.store_read _ _ _ (by rw [desc_toBytes_length]; exact outside)

/-! ### TPIN over a range (R249) -/

/-- A page with TPIN. -/
def Page.pin (p : Page) (on : Bool) : Page := { p with desc := { p.desc with tpin := on } }

/-- A stream with TPIN put on those pages of a list that are its own. -/
def Strm.pinned (x : Strm) (on : Bool) (l : List Nat) : Strm :=
  { x with pages := x.pages.mapIdx fun i p => if i ∈ l ∧ p.desc.borrowed = false then p.pin on else p }

theorem pinned_page (x : Strm) (on : Bool) (l : List Nat) (i : Nat) : (x.pinned on l).pages[i]? =
    x.pages[i]?.map fun p => if i ∈ l ∧ p.desc.borrowed = false then p.pin on else p := List.getElem?_mapIdx

/-- A page that is not the stream's own takes no TPIN. -/
theorem pinned_cons_of_borrowed {x : Strm} {i : Nat} (borrowed : ∀ p, x.pages[i]? = some p → p.desc.borrowed = true) (on : Bool) (l : List Nat) :
    x.pinned on (i :: l) = x.pinned on l := by
  have pages : (x.pinned on (i :: l)).pages = (x.pinned on l).pages := by
    refine List.ext_getElem? fun j => ?_
    rw [pinned_page, pinned_page]
    cases hp : x.pages[j]? with
    | none => rfl
    | some p =>
      by_cases same : j = i
      · subst same
        simp [borrowed p hp]
      · simp [same]
  exact congrArg (fun pages => ({ x with pages } : Strm)) pages

/-- A page of the stream's own takes TPIN in its place. -/
theorem pinned_cons_of_own {x : Strm} {i : Nat} {p : Page} (hp : x.pages[i]? = some p) (own : p.desc.borrowed = false) (on : Bool) (l : List Nat) :
    x.pinned on (i :: l) = { x.pinned on l with pages := (x.pinned on l).pages.modify i fun p => p.pin on } := by
  have pages : (x.pinned on (i :: l)).pages = (x.pinned on l).pages.modify i fun p => p.pin on := by
    refine List.ext_getElem? fun j => ?_
    rw [List.getElem?_modify, pinned_page, pinned_page]
    by_cases same : j = i
    · subst same
      rw [hp]
      by_cases hj : j ∈ l <;> simp [own, hj, Page.pin]
    · cases x.pages[j]? <;> simp [same, Ne.symm same]
  exact congrArg (fun pages => ({ x with pages } : Strm)) pages

/-- TPIN of one page, at its home. -/
def State.pinPage (s : State) (k : Ctx) (stream : Nat) (on : Bool) (i : Nat) : State :=
  match s.page? k.job k.ctx stream i with
  | some g => s.setHome k.job k.ctx stream i g fun d => { d with tpin := on }
  | none => s

/-- The written pages in the range of a hint. -/
def hintRange (h : Hint) (x : Strm) : List Nat := ((x.pages.zipIdx.drop h.first).take (hintPages h x)).map (·.2)

theorem setTpin_eq (s : State) (k : Ctx) (stream : Nat) (x : Strm) (h : Hint) (on : Bool) :
    s.setTpin k stream x h on = (hintRange h x).foldl (fun (s : State) i => s.pinPage k stream on i) s := by
  rw [hintRange, List.foldl_map]; rfl

theorem mem_hintRange {h : Hint} {x : Strm} {i : Nat} : i ∈ hintRange h x ↔ h.first ≤ i ∧ i < h.first + hintPages h x ∧ i < x.pages.length := by
  have snd : x.pages.zipIdx.map (·.2) = List.range' 0 x.pages.length := by simp [List.zipIdx_map_snd]
  rw [hintRange, List.map_take, List.map_drop, snd]
  rcases Nat.le_total (hintPages h x) (x.pages.length - h.first) with most | most
  · rw [List.drop_range', List.take_range'_of_length_ge most, List.mem_range'_1]
    omega
  · rw [List.drop_range', List.take_range'_of_length_le most, List.mem_range'_1]
    omega

/-- The state after TPIN of some pages of stream `n`, which stood as `x` in the state `u`. -/
structure TpinDone (u : State) (k : Ctx) (n : Nat) (x : Strm) (on : Bool) (l : List Nat) (v : State) : Prop where
  strm : v.strm? k.job k.ctx n = some (x.pinned on l)
  pool : ∀ key, (look v.pg.pool key).map (·.npa) = (look u.pg.pool key).map (·.npa)
  mem  : ∀ a, (∀ i ∈ l, OutsidePages u x i 1 a) → Memory.read v.mem a = Memory.read u.mem a

section
variable {u v : State} {k : Ctx} {n : Nat} {x : Strm} {on : Bool} {l : List Nat}

theorem TpinDone.nil (held : u.strm? k.job k.ctx n = some x) : TpinDone u k n x on [] u := by
  refine ⟨?_, fun _ => rfl, fun _ _ => rfl⟩
  have pages : (x.pinned on []).pages = x.pages := List.ext_getElem? fun i => by simp [pinned_page]
  rw [held]
  exact congrArg (fun pages => some ({ x with pages } : Strm)) pages.symm

/-- A page that the stream borrows takes TPIN in its pool entry. -/
theorem TpinDone.poolEntry (done : TpinDone u k n x on l v) {i : Nat} {p : Page} (hp : x.pages[i]? = some p) (borrowed : p.desc.borrowed = true)
    {e : Pool} (he : look v.pg.pool p.desc.frame = some e) (d : Desc) : TpinDone u k n x on (i :: l) (v.putPool p.desc.frame { e with desc := d }) := by
  refine ⟨?_, fun key => ?_, fun a outside => ?_⟩
  · rw [pinned_cons_of_borrowed (fun q hq => by rw [hp] at hq; cases hq; exact borrowed)]
    exact (strm?_congr rfl ..).trans done.strm
  · by_cases same : key = p.desc.frame
    · rw [← done.pool key, same, he]
      exact (congrArg (Option.map Pool.npa) (look_put_same ..)).trans rfl
    · rw [← done.pool key]
      exact congrArg (Option.map Pool.npa) (look_put_other _ _ _ _ same)
  · have npa := done.pool p.desc.frame
    rw [he] at npa
    obtain ⟨e', he', hnpa⟩ := Option.map_eq_some_iff.1 npa.symm
    have apart := (outside i List.mem_cons_self i (Nat.le_refl _) (by omega)).2.2.2 p e' hp borrowed he'
    rw [hnpa] at apart
    rw [putPool_read (e := { e with desc := d }) _ apart]
    exact done.mem a fun j hj => outside j (List.mem_cons_of_mem _ hj)

/-- A page of the stream's own takes TPIN in its descriptor. -/
theorem TpinDone.ownPage (done : TpinDone u k n x on l v) {i : Nat} {p : Page} (hp : x.pages[i]? = some p) (own : p.desc.borrowed = false) :
    TpinDone u k n x on (i :: l) (v.setPage k.job k.ctx n i fun p => p.pin on) := by
  refine ⟨?_, fun key => ?_, fun a outside => ?_⟩
  · rw [setPage_strm?, done.strm, pinned_cons_of_own hp own]; rfl
  · rw [setPage_pool]
    exact done.pool key
  · obtain ⟨walk, grain, map, -⟩ := outside i List.mem_cons_self i (Nat.le_refl _) (by omega)
    rw [setPage_read _ done.strm ⟨walk, grain, map⟩]
    exact done.mem a fun j hj => outside j (List.mem_cons_of_mem _ hj)

theorem TpinDone.skip (done : TpinDone u k n x on l v) {i : Nat} (borrowed : ∀ p, x.pages[i]? = some p → p.desc.borrowed = true) :
    TpinDone u k n x on (i :: l) v :=
  ⟨by rw [pinned_cons_of_borrowed borrowed]; exact done.strm, done.pool,
    fun a outside => done.mem a fun j hj => outside j (List.mem_cons_of_mem _ hj)⟩

theorem TpinDone.pinPage (done : TpinDone u k n x on l v) (i : Nat) : TpinDone u k n x on (i :: l) (v.pinPage k n on i) := by
  have page : v.page? k.job k.ctx n i = x.pages[i]?.map fun p => if i ∈ l ∧ p.desc.borrowed = false then p.pin on else p := by
    rw [State.page?, done.strm, ← pinned_page]; rfl
  unfold State.pinPage
  cases hp : x.pages[i]? with
  | none =>
    rw [page, hp]
    exact done.skip fun p h => by rw [hp] at h; cases h
  | some p =>
    rw [page, hp]
    dsimp only [Option.map_some]
    cases borrowed : p.desc.borrowed with
    | true =>
      rw [if_neg (by simp), State.setHome, if_pos borrowed]
      cases he : look v.pg.pool p.desc.frame with
      | some e => exact done.poolEntry hp borrowed he _
      | none => exact done.skip fun q h => by rw [hp] at h; cases h; exact borrowed
    | false =>
      rw [State.setHome, if_neg (by split <;> simp [Page.pin, borrowed])]
      exact done.ownPage hp borrowed

theorem TpinDone.foldl (done : TpinDone u k n x on l v) (is : List Nat) :
    TpinDone u k n x on (is.reverse ++ l) (is.foldl (fun (s : State) i => s.pinPage k n on i) v) := by
  induction is generalizing l v with
  | nil => exact done
  | cons i is ih =>
    rw [List.reverse_cons, List.append_assoc]
    exact ih (done.pinPage i)

/-- TPIN over the range of a hint: the stream as the statement describes it, and memory outside its pages unchanged. -/
theorem setTpin_done {h : Hint} (held : u.strm? k.job k.ctx n = some x) (on : Bool) : StrmIs (u.setTpin k n x h on) k.job k.ctx n (TpinSet h on x) ∧
    ∀ a, OutsidePages u x h.first (hintPages h x) a → Memory.read (u.setTpin k n x h on).mem a = Memory.read u.mem a := by
  have done := (TpinDone.nil (on := on) held).foldl (hintRange h x)
  rw [← setTpin_eq] at done
  refine ⟨⟨_, done.strm, by simp [Strm.pinned], rfl, fun i p hp own => ?_⟩, fun a outside => done.mem a fun i hi => ?_⟩
  · have named : i ∈ (hintRange h x).reverse ++ [] ↔ h.first ≤ i ∧ i < h.first + hintPages h x := by
      have := (List.getElem?_eq_some_iff.1 hp).1
      simp [mem_hintRange, this]
    refine ⟨_, by rw [pinned_page, hp]; rfl, ?_⟩
    dsimp only
    by_cases within : h.first ≤ i ∧ i < h.first + hintPages h x
    · rw [if_pos (And.intro (named.2 within) own), if_pos within]
      exact ⟨rfl, rfl, rfl⟩
    · rw [if_neg (fun both => within (named.1 (And.left both))), if_neg within]
      exact ⟨rfl, rfl, rfl⟩
  · obtain ⟨first, last, -⟩ := mem_hintRange.1 (by simpa using hi)
    exact fun j _ _ => outside j (by omega) (by omega)

end

theorem setTpin_tier (s : State) (k : Ctx) (stream : Nat) (x : Strm) (h : Hint) (on : Bool) : (s.setTpin k stream x h on).tier = s.tier :=
  Within.keeps (l := [.tier]) (p := .tier) (State.setTpin_within rfl rfl rfl (.refl _ _)) (by simp)

/-! ### Hints of a composition that serves (R247 to R250) -/

section
variable {s : State} {t c : Nat} {h : Hint}

theorem hintCommand_of_serves (ready : s.ready = true) (serves : s.compServes c = true) (f : State → Option Status × State) :
    (s.arrive t).hintCommand c f = (f (s.arrive t)).2 := by
  rw [State.hintCommand, arrive_ready, arrive_compServes, ready, serves]; rfl

variable {k : Ctx} {n : Nat} {x : Strm} (ready : s.ready = true) (serves : s.compServes c = true)
  (named : (s.arrive t).hintStreams c h = .inr (k, [(n, x)]))
include ready serves named

theorem exec_pin : exec (.pin t c h) s = .next (if s.pdNum 0x8006 c < ((s.arrive t).setTpin k n x h true).pinned c then s.arrive t
    else (((s.arrive t).setTpin k n x h true).recallRange k [(n, x)] h none []).2) := by
  have hexec : exec (.pin t c h) s = .next ((s.arrive t).hintPin c h).2 := congrArg Host.Outcome.next (hintCommand_of_serves ready serves _)
  rw [hexec, State.hintPin, named]
  dsimp only [List.foldl_cons, List.foldl_nil]
  rw [arrive_pdNum]
  exact congrArg Host.Outcome.next (apply_ite Prod.snd ..)

theorem exec_unpin : exec (.unpin t c h) s = .next ((s.arrive t).setTpin k n x h false) := by
  have hexec : exec (.unpin t c h) s = .next ((s.arrive t).hintUnpin c h).2 := congrArg Host.Outcome.next (hintCommand_of_serves ready serves _)
  rw [hexec, State.hintUnpin, named]; rfl

theorem exec_prefetch : exec (.prefetch t c h) s = .next ((s.arrive t).recallRange k [(n, x)] h (some h.ready) []).2 := by
  have hexec : exec (.prefetch t c h) s = .next ((s.arrive t).hintPrefetch c h none).2 :=
    congrArg Host.Outcome.next (hintCommand_of_serves ready serves _)
  rw [hexec, State.hintPrefetch, named]; rfl

end

/-- A recall moves neither pages nor memory as it is scheduled. -/
theorem recallRange_keeps (s : State) (k : Ctx) (xs : List (Nat × Strm)) (h : Hint) (ready : Option Phase) (tells : List (Nat × Phase)) :
    (s.recallRange k xs h ready tells).2.pg = s.pg ∧ (s.recallRange k xs h ready tells).2.mem = s.mem := by
  have within : Within (keeping [.pg, .mem]) s (s.recallRange k xs h ready tells).2 := State.recallRange_within rfl rfl (.refl _ _)
  exact ⟨within.keeps (p := .pg) (by simp), within.keeps (p := .mem) (by simp)⟩

theorem recallRange_of_here {s : State} {x : Strm} {h : Hint} (here : s.away x h.first (hintPages h x) = []) (k : Ctx) (n : Nat)
    (ready : Option Phase) (tells : List (Nat × Phase)) : (s.recallRange k [(n, x)] h ready tells).2 = s := by
  simp [State.recallRange, here]

theorem recallRange_of_away {s : State} {x : Strm} {h : Hint} (away : s.away x h.first (hintPages h x) ≠ []) (k : Ctx) (n : Nat)
    (ready : Option Phase) (tells : List (Nat × Phase)) : ∃ start, (s.recallRange k [(n, x)] h ready tells).2 =
      s.addRecall k n h.first (hintPages h x) .pages false start ready tells := by
  refine ⟨s.recallAt (s.recallTicks k.comp ([(n, x)].map fun y => s.away y.2 h.first (hintPages h y.2)).flatten 0) ready, ?_⟩
  simp only [State.recallRange, List.filter_cons, List.filter_nil]
  rw [if_pos (by simpa using away)]
  rfl

/-! ### Recalls of whole streams (R252) -/

/-- A recall of a part of a stream as a whole stands in the list. -/
def Recalls (k : Ctx) (n : Nat) (part : RPart) (s : State) : Prop :=
  ∃ r ∈ s.tier.recalls, r.job = k.job ∧ r.ctx = k.ctx ∧ r.stream = some n ∧ r.whole = true ∧ r.part = part

section
variable {k : Ctx} {n : Nat} {s : State} (start : Phase) (ready : Option Phase) (tells : List (Nat × Phase))

/-- A recall that stands stays when another is added: of the list no recall changes but in the hint entries that it tells. -/
theorem Recalls.addRecall {part : RPart} (stands : Recalls k n part s) (m first count : Nat) (part' : RPart) (whole : Bool) :
    Recalls k n part (s.addRecall k m first count part' whole start ready tells) := by
  obtain ⟨r, hr, names⟩ := stands
  unfold State.addRecall
  split
  · exact ⟨r, hr, names⟩
  dsimp only
  split
  · refine ⟨_, List.mem_map_of_mem hr, ?_⟩
    split <;> exact names
  · exact ⟨r, List.mem_append_left _ hr, names⟩

theorem addRecall_whole (held : k.strm? n ≠ none) (first count : Nat) (part : RPart) :
    Recalls k n part (s.addRecall k n first count part true start ready tells) := by
  obtain ⟨x, hx⟩ := Option.ne_none_iff_exists'.1 held
  unfold State.addRecall
  rw [hx]
  dsimp only
  split
  next standing =>
    obtain ⟨r, hr, same⟩ := List.any_eq_true.1 (Bool.and_eq_true_iff.1 standing).2
    refine ⟨_, List.mem_map_of_mem hr, ?_⟩
    rw [if_pos same]
    simpa [and_assoc] using same
  next => exact ⟨_, List.mem_append_right _ List.mem_cons_self, rfl, rfl, rfl, rfl, rfl⟩

/-- The three recalls of a stream as a whole. -/
def State.recallStream (s : State) (k : Ctx) (n : Nat) (start : Phase) (ready : Option Phase) (tells : List (Nat × Phase)) : State :=
  [RPart.tables, .grains, .pages].foldl (fun (s : State) part => s.addRecall k n 0 (2 ^ 27) part true start ready tells) s

theorem Recalls.recallStream {part : RPart} (stands : Recalls k n part s) (m : Nat) :
    Recalls k n part (s.recallStream k m start ready tells) :=
  ((stands.addRecall ..).addRecall ..).addRecall ..

theorem recallStream_whole (held : k.strm? n ≠ none) (part : RPart) : Recalls k n part (s.recallStream k n start ready tells) := by
  cases part with
  | tables => exact ((addRecall_whole _ _ _ held ..).addRecall ..).addRecall ..
  | grains => exact (addRecall_whole _ _ _ held ..).addRecall ..
  | pages => exact addRecall_whole _ _ _ held ..

theorem recallStreams_whole {streams : List Nat} (listed : n ∈ streams) (held : k.strm? n ≠ none) (part : RPart) :
    Recalls k n part (streams.foldl (fun (s : State) m => s.recallStream k m start ready tells) s) := by
  have stays : ∀ (l : List Nat) (s : State), Recalls k n part s →
      Recalls k n part (l.foldl (fun (s : State) m => s.recallStream k m start ready tells) s) := fun l s stands =>
    List.foldlRecOn (motive := Recalls k n part) l _ stands fun s stands m _ => stands.recallStream _ _ _ m
  induction streams generalizing s with
  | nil => cases listed
  | cons m streams ih =>
    rcases List.mem_cons.1 listed with rfl | later
    · exact stays streams _ (recallStream_whole _ _ _ held part)
    · exact ih later

/-- A context that is woken has a recall of every part of each stream that it holds. -/
theorem wake_recalls {x : Nat × Strm} (listed : x ∈ k.streams) (held : k.strm? (k.idOf x.1) ≠ none) (part : RPart) :
    Recalls k (k.idOf x.1) part (s.wake k [] ready tells) := by
  refine recallStreams_whole _ _ _ ?_ held part
  simpa using ⟨x.1, ⟨x.2, listed⟩, rfl⟩

end

/-! ### A context goes dormant (R251) -/

/-- A context stands under its names in its composition. -/
def CtxStands (job ctx : Nat) (s t : State) : Prop := (t.ctx? job ctx).map Ctx.comp = (s.ctx? job ctx).map Ctx.comp

section
variable {job ctx : Nat}

theorem CtxStands.refl (s : State) : CtxStands job ctx s s := rfl

theorem CtxStands.trans {a b c : State} (h : CtxStands job ctx a b) (k : CtxStands job ctx b c) : CtxStands job ctx a c := Eq.trans k h

theorem CtxStands.of_ctxs {s t : State} (h : t.pg.ctxs = s.pg.ctxs) : CtxStands job ctx s t := congrArg _ (ctx?_congr h ..)

theorem CtxStands.of_within {s t : State} (h : Within (keeping [.pg]) s t) : CtxStands job ctx s t :=
  .of_ctxs (congrArg PageSt.ctxs (h.keeps (p := .pg) (by simp)))

theorem CtxStands.foldl {α : Type} {f : State → α → State} (k : ∀ s x, CtxStands job ctx s (f s x)) (l : List α) (s : State) :
    CtxStands job ctx s (l.foldl f s) :=
  List.foldlRecOn (motive := CtxStands job ctx s) l f (.refl s) fun b h x _ => h.trans (k b x)

theorem setStrm_stands (s : State) (job' ctx' stream : Nat) (f : Strm → Strm) : CtxStands job ctx s (s.setStrm job' ctx' stream f) := by
  have same (k : Ctx) : (k.withStrm stream f).job = k.job ∧ (k.withStrm stream f).ctx = k.ctx ∧ (k.withStrm stream f).comp = k.comp := by
    obtain ⟨streams, h⟩ := k.withStrm_eq stream f
    rw [h]
    exact ⟨rfl, rfl, rfl⟩
  have changed := setCtx_ctx? (f := fun k => k.withStrm stream f) (fun k => ⟨(same k).1, (same k).2.1⟩) s job' ctx' job ctx
  refine (congrArg (Option.map Ctx.comp) changed).trans ?_
  rw [Option.map_map]
  refine Option.map_congr fun k _ => ?_
  dsimp only [Function.comp]
  split
  · exact (same k).2.2
  · rfl

theorem setPage_stands (s : State) (job' ctx' stream page : Nat) (f : Page → Page) : CtxStands job ctx s (s.setPage job' ctx' stream page f) :=
  (setStrm_stands ..).trans (.of_ctxs (congrArg PageSt.ctxs (writePage_pg ..)))

theorem setHome_stands (s : State) (job' ctx' stream page : Nat) (p : Page) (f : Desc → Desc) :
    CtxStands job ctx s (s.setHome job' ctx' stream page p f) := by
  unfold State.setHome
  split
  · split
    · exact .of_ctxs rfl
    · exact .refl s
  · exact setPage_stands ..

theorem freeFrameKey_stands (s : State) (key : Nat) : CtxStands job ctx s (s.freeFrameKey key) := by
  unfold State.freeFrameKey
  split
  · exact .refl s
  · have named : CtxStands job ctx s { s with rel := { s.rel with damaged := s.rel.damaged.filter (· != key) } } := .of_ctxs rfl
    exact (named.trans (.of_within (State.uncontribute_within rfl rfl (.refl _ _)))).trans (.of_ctxs rfl)

theorem contribute_stands (s : State) (c job' ctx' stream page key gen kind : Nat) (bytes : List Byte) :
    CtxStands job ctx s (s.contribute c job' ctx' stream page key gen kind bytes).2 :=
  .of_within (by apply State.contribute_within (hs := .refl _ _) <;> rfl)

theorem switchForm_stands (s : State) (job' ctx' stream page toTier toNode addr : Nat) (repack : Bool) :
    CtxStands job ctx s (s.switchForm job' ctx' stream page toTier toNode addr repack) := by
  unfold State.switchForm
  split
  case h_2 => exact .refl s
  split
  case h_2 => exact .refl s
  extract_lets key pc packed bytes clen placed stored homed keeps rel kept freed
  have hstored : CtxStands job ctx s stored := by
    have hplaced : CtxStands job ctx s placed := .of_ctxs rfl
    exact hplaced.trans (by unfold stored; split <;> exact .of_ctxs rfl)
  have hkept : CtxStands job ctx homed kept := by
    unfold kept
    split
    · exact .of_ctxs rfl
    · exact .refl _
  have hfreed : CtxStands job ctx s freed := ((hstored.trans (setHome_stands ..)).trans hkept).trans (freeFrameKey_stands ..)
  refine hfreed.trans ?_
  split
  · exact (contribute_stands ..).trans (setPage_stands ..)
  split
  · exact .refl _
  · exact setPage_stands ..

theorem hardRecord_within (s : State) (c typ owner index gen : Nat) (body : List Byte) :
    Within (keeping [.pg]) s (s.hardRecord c typ owner index gen body).2 := by
  apply State.hardRecord_within (hs := .refl _ _) <;> rfl

theorem pagesAway_stands (s : State) (k : Ctx) (stream : Nat) : CtxStands job ctx s (s.pagesAway k stream) := by
  unfold State.pagesAway
  split
  · exact .refl s
  · refine .foldl (fun s p => ?_) _ _
    dsimp only
    split
    · exact .trans (.of_within (hardRecord_within ..)) (switchForm_stands ..)
    · exact .refl s

theorem tablesAway_stands (s : State) (k : Ctx) (stream : Nat) : CtxStands job ctx s (s.tablesAway k stream) := by
  unfold State.tablesAway
  split
  · exact .refl s
  · dsimp only
    refine .trans (.trans (.of_within ?_) (setStrm_stands ..)) (.of_within (State.writeEntry_within rfl rfl (.refl _ _)))
    refine .trans ?_ (hardRecord_within ..)
    refine Within.foldl2 ?_ fun a e h => h.trans (hardRecord_within ..)
    refine Within.foldl2 (.refl _ _) fun a e h => (h.trans ?_).trans (hardRecord_within ..)
    apply State.hardRecords_within (hs := .refl _ _) <;> rfl

/-- The state in which the pages, tables and stream table of a context have gone to hardpan. -/
def State.asleep (s : State) (k : Ctx) : Nat × State :=
  let ns := k.streams.map fun x => k.idOf x.1
  let s := ns.foldl (fun (s : State) n => s.pagesAway k n) s
  let s := ns.foldl (fun (s : State) n => s.tablesAway k n) s
  s.hardRecord k.comp 3 0 0 0 (((s.ctx? k.job k.ctx).elim [] Ctx.rootBytes).drop 64)

theorem asleep_stands (s : State) (k : Ctx) : CtxStands job ctx s (s.asleep k).2 :=
  ((CtxStands.foldl (fun s n => pagesAway_stands s k n) _ s).trans (.foldl (fun s n => tablesAway_stands s k n) _ _)).trans
    (.of_within (hardRecord_within ..))

end

/-- A context once it is dormant, its stream table a record. -/
def Ctx.dormantAt (k : Ctx) (strTab : Nat) : Ctx := { k with dormant := true, going := false, strTab }

/-- A context that goes dormant stands as its records left it, dormant, and on its way no more. -/
theorem sleep_ctx? (s : State) (k : Ctx) :
    (s.sleep k).ctx? k.job k.ctx = ((s.asleep k).2.ctx? k.job k.ctx).map fun c => c.dormantAt (s.asleep k).1 := by
  have ctxs : (s.sleep k).pg.ctxs = ((s.asleep k).2.setCtx k.job k.ctx fun c => c.dormantAt (s.asleep k).1).pg.ctxs := by
    unfold State.sleep
    dsimp only
    split <;> rfl
  rw [ctx?_congr ctxs]
  exact setCtx_ctx?_same (f := fun c => c.dormantAt (s.asleep k).1) (fun _ => ⟨rfl, rfl⟩) ..

theorem exec_dormantComplete {s : State} {t job ctx : Nat} {k : Ctx} (held : (s.arrive t).ctx? job ctx = some k) (going : k.going = true)
    (idle : ∀ r ∈ s.rq.reqs, r.job = job → r.req.env.ctx ≠ ctx) (still : ∀ m ∈ s.tier.moves, m.job = job → m.ctx ≠ ctx) :
    exec (.dormantComplete t job ctx) s = .next ((s.arrive t).sleep k) := by
  change execDormantComplete t job ctx s = _
  unfold execDormantComplete
  rw [← State.arrive_rq s t] at idle
  rw [← State.arrive_tier s t] at still
  have reqs : ((s.arrive t).rq.reqs.any fun r => r.job == job && r.req.env.ctx == ctx) = false := by simpa using idle
  have moves : ((s.arrive t).tier.moves.any fun m => m.job == job && m.ctx == ctx) = false := by simpa using still
  simp only [held, going, reqs, moves]
  rfl

/-! ### DORMANT and WAKE (R250 to R252) -/

section
variable {s : State} {t c : Nat} {h : Hint} {k : Ctx} (ready : s.ready = true) (serves : s.compServes c = true)
  (named : (s.arrive t).hintCtx c h = .inr k)
include ready serves named

theorem exec_dormant (flash : s.flashOf c ≠ []) (awake : k.dormant = false) : exec (.dormant t c h) s = .next (if k.going then s.arrive t
    else (k.streams.map fun x => k.idOf x.1).foldl (fun (s : State) n => s.subsoilAway k n)
      ((s.arrive t).setCtx k.job k.ctx fun k => { k with going := true })) := by
  have hexec : exec (.dormant t c h) s = .next ((s.arrive t).hintDormant c h).2 :=
    congrArg Host.Outcome.next (hintCommand_of_serves ready serves _)
  rw [hexec, State.hintDormant, named]
  dsimp only
  rw [if_neg (by rw [arrive_flashOf]; exact flash), awake, Bool.false_or]
  exact congrArg Host.Outcome.next (apply_ite Prod.snd ..)

theorem exec_wake (away : k.dormant = true ∨ k.going = true) : exec (.wake t c h) s = .next ((s.arrive t).wake k [] (some h.ready) []) := by
  have hexec : exec (.wake t c h) s = .next ((s.arrive t).hintWake c h none).2 :=
    congrArg Host.Outcome.next (hintCommand_of_serves ready serves _)
  rw [hexec, State.hintWake, named]
  dsimp only
  rw [if_pos (by simpa using away)]
  rfl

end

/-- Pages that start to move to hardpan stand as they did. -/
theorem subsoilAway_pg (s : State) (k : Ctx) (ns : List Nat) : (ns.foldl (fun (s : State) n => s.subsoilAway k n) s).pg = s.pg := by
  have within : Within (keeping [.pg]) s (ns.foldl (fun (s : State) n => s.subsoilAway k n) s) :=
    .foldl (.refl _ _) fun _ _ hs => by apply State.subsoilAway_within (hs := hs) <;> rfl
  exact within.keeps (p := .pg) (by simp)

theorem wake_pg (s : State) (k : Ctx) (named : List Nat) (ready : Option Phase) (tells : List (Nat × Phase)) :
    (s.wake k named ready tells).pg = s.pg :=
  Within.keeps (l := [.pg]) (p := .pg) (State.wake_within rfl rfl (.refl _ _)) (by simp)

/-! ### A doorbell that brings no entry (R247) -/

theorem hintRing_of_read {s : State} {base : Nat} (read : s.loadNat base 4 = s.loadNat (base + 8) 4) (c size n : Nat) :
    s.hintRing c base size n = s := by
  cases n with
  | zero => rfl
  | succ n =>
    rw [State.hintRing, read]
    exact if_pos rfl

theorem readHints_of_read {s : State} {c : Nat} (read : s.loadNat (s.pdNum 0x8010 c) 4 = s.loadNat (s.pdNum 0x8010 c + 8) 4) :
    s.readHints c = s := by
  unfold State.readHints
  dsimp only
  split
  · rfl
  · exact hintRing_of_read read ..

theorem store_pdNum (s : State) (a : Nat) (bs : List Byte) (index sub : Nat) : (s.store a bs).pdNum index sub = s.pdNum index sub := rfl

theorem exec_tierHintDb {s : State} {c : Nat} (ready : s.ready = true) (serves : s.compServes c = true) (ring : s.pdNum 0x8010 c ≠ 0)
    (t : Nat) (w : BitVec 32) : exec (.tierHintDb t c w) s =
      .next (((s.arrive t).store (s.pdNum 0x8010 c) (leBytes 4 (bitsOf w.toNat 0 16))).readHints c) := by
  change execTierHintDb t c w s = _
  unfold execTierHintDb
  dsimp only
  rw [arrive_ready, arrive_compServes, arrive_pdNum, if_neg (by simp [ready, serves, ring])]

/-- Settles O32, by what each hint does to the pages, the recalls and the context that it names. -/
theorem tierHintsPinScheduleAndSleep : Obligations.TierHintsPinScheduleAndSleep := by
  unfold Obligations.TierHintsPinScheduleAndSleep
  intro s t c u ready serves
  have pg : u.pg = s.pg := State.arrive_pg s t
  have mem : u.mem = s.mem := State.arrive_mem s t
  have tier : u.tier = s.tier := State.arrive_tier s t
  refine ⟨fun h k n x named held => ⟨fun fits => ?pin, fun more => ?pinRefused, ?unpin, fun here => ?prefetchHere, fun hx away => ?prefetch⟩,
    fun h k named held => ⟨fun flash awake => ?dormant, fun away => ?wake⟩, fun job ctx k held going idle still => ?dormantComplete,
    fun w => ?doorbell⟩
  case pin =>
    refine .of_exec ((exec_pin ready serves named).trans (congrArg _ (if_neg (Nat.not_lt.2 fits)))) ?_
    obtain ⟨⟨y, hy, set⟩, outside⟩ := setTpin_done (h := h) held true
    obtain ⟨hpg, hmem⟩ := recallRange_keeps (u.setTpin k n x h true) k [(n, x)] h none []
    rw [hmem, ← mem]
    exact ⟨⟨y, (strm?_congr (congrArg PageSt.ctxs hpg) ..).trans hy, set⟩, outside⟩
  case pinRefused => exact (exec_pin ready serves named).trans (congrArg _ (if_pos more))
  case unpin =>
    obtain ⟨set, outside⟩ := setTpin_done (h := h) held false
    exact .of_exec (exec_unpin ready serves named) ⟨set, (setTpin_tier ..).trans tier, mem ▸ outside⟩
  case prefetchHere =>
    refine .of_exec (exec_prefetch ready serves named) ?_
    rw [recallRange_of_here here]
    exact ⟨tier, pg, mem⟩
  case prefetch =>
    refine .of_exec (exec_prefetch ready serves named) ?_
    obtain ⟨hpg, hmem⟩ := recallRange_keeps u k [(n, x)] h (some h.ready) []
    obtain ⟨start, added⟩ := recallRange_of_away away k n (some h.ready) []
    refine ⟨hpg.trans pg, hmem.trans mem, ?_⟩
    rw [added, State.addRecall, hx, ← tier]
    exact ⟨_, rfl, rfl, rfl, rfl, rfl, rfl, rfl, rfl, rfl, rfl, rfl⟩
  case dormant =>
    refine .of_exec (exec_dormant ready serves named flash awake) ?_
    split
    next going =>
      rw [held]
      exact congrArg some (by rw [← going])
    next =>
      rw [ctx?_congr (congrArg PageSt.ctxs (subsoilAway_pg ..)),
        setCtx_ctx?_same (f := fun k => { k with going := true }) (fun _ => ⟨rfl, rfl⟩), held]
      rfl
  case wake =>
    refine .of_exec (exec_wake ready serves named away) ⟨(wake_pg ..).trans pg, fun x listed whole part => ?_⟩
    exact wake_recalls _ _ listed whole part
  case dormantComplete =>
    refine .of_exec (exec_dormantComplete held going idle still) ?_
    obtain ⟨hjob, hctx⟩ : k.job = job ∧ k.ctx = ctx := by simpa using List.find?_some held
    have stands : CtxStands k.job k.ctx u (u.asleep k).2 := asleep_stands u k
    rw [← hjob, ← hctx] at held ⊢
    rw [CtxStands, held] at stands
    obtain ⟨c', hc', comp⟩ := Option.map_eq_some_iff.1 stands
    rw [sleep_ctx?, hc']
    exact ⟨_, rfl, rfl, rfl, comp⟩
  case doorbell =>
    intro y ring read
    refine .of_exec (exec_tierHintDb ready serves ring t w) ?_
    rw [readHints_of_read (by rw [store_pdNum, arrive_pdNum]; exact read)]
    exact ⟨by rw [store_mem, State.arrive_mem], tier, pg⟩

end Sys2Proof.Machine

/-! ## The tiers (09) -/

namespace Sys2Proof.Machine

/-! ### A message at a queue (R331, R332) -/

theorem settle_waiting (x : Queue) (now : Nat) : (x.settle now).waiting = x.waiting := by
  unfold Queue.settle Queue.earn
  dsimp only
  split <;> rfl

theorem noted_waiting (s : State) (q : Nat) (x : Queue) : (s.noted q x).waiting = x.waiting := by
  unfold State.noted
  split <;> rfl

/-- A message that is not sent again goes behind those that wait. -/
theorem putMsg_qs {s : State} {m : Msg} (fresh : m.cseq = none) (q : Nat) : ∃ x : Queue, (s.putMsg q m).egq = { s.egq with qs := put s.egq.qs q x } ∧
    x.waiting = (s.queue q).waiting ++ [{ m with entered := s.timer }] := by
  refine ⟨_, rfl, ?_⟩
  dsimp only
  rw [noted_waiting, fresh]
  exact congrArg (· ++ _) (settle_waiting ..)

theorem enqueue_of_room {s : State} {q : Nat} (m : Msg) (room : s.roomIn q = true) (open_ : s.egq.held = []) :
    s.enqueue q m = { s with egq := (s.putMsg q m).egq } := by
  simp [State.enqueue, room, open_]

theorem enqueue_of_full {s : State} {q : Nat} (m : Msg) (full : s.roomIn q = false) :
    s.enqueue q m = { s with egq := { s.egq with held := s.egq.held ++ [(q, m)] } } := by
  simp [State.enqueue, full]

/-! ### A queue map out of order (R261, R332): the counterexample of O33 -/

/-- A message that belongs to no weight layer. -/
def tierMsg : Msg := mkWrite 1 0 0 0 0 0 [] false (.tier 0) false 0

/-- A streamed layer of programme 0 whose groups have landed and whose buffer header has waited for a hardpan read. -/
def landedLayer : WStream :=
  { nn := 0, layer := 0, nosel := false, hard := false, status := .ok, bytes := 0, limit := 0, slot := 0, due := 0, cats := [],
    head := some (0, []) }

/-- Queues 1 and 0, out of the ascending order of keys: some messages wait in queue 1, and one in queue 0, that of programme 0. -/
def outOfOrder (l : List Msg) : Assoc Queue := [(1, { Queue.off with waiting := l }), (0, { Queue.off with waiting := [tierMsg] })]

/-- A node that has streamed that layer, with those queues. -/
def landedOutOfOrder (l : List Msg) : State :=
  { State.reset with tier := { State.reset.tier with wstr := [landedLayer] }, egq := { State.reset.egq with qs := outOfOrder l } }

/-- A message of a weight layer to a buffer of its programme (R261). -/
def State.layerMsg (s : State) (w : WStream) (addr : Nat) (data : List Byte) (flag : Bool) : Msg :=
  mkWrite 2 (s.prog w.nn).dwin (s.prog w.nn).dwgen s.rmo.epoch 0 addr data flag (.weight w.nn) true w.due

/-- The flag message of a weight layer (R261). -/
def State.layerFlag (s : State) (w : WStream) : Msg :=
  s.layerMsg w ((s.prog w.nn).fbase + 8 * (phLayer w.layer % max 1 (s.prog w.nn).depth))
    (leBytes 8 (flagWord (BitVec.ofNat 56 (w.layer.toNat / 2 ^ 16)) w.status).toNat) true

/-- A layer with nothing in hardpan whose groups have landed sends the header that has waited, and its flag message behind it. -/
theorem exec_weightStreamDone {s : State} {t : Nat} {w : WStream} {head : Nat × List Byte} (one : s.tier.wstr = [w])
    (landed : (s.arrive t).inFlight (fun p => p == .weight w.nn) = false) (soft : w.hard = false) (waits : w.head = some head) :
    exec (.weightStreamDone t w.nn) s = .next ((({ s.arrive t with tier := { (s.arrive t).tier with wstr := [] } } : State).enqueue
      ((s.arrive t).prog w.nn).queue ((s.arrive t).layerMsg w head.1 (leBytes 1 w.status.code ++ head.2.drop 1) false)).enqueue
        ((s.arrive t).prog w.nn).queue ((s.arrive t).layerFlag w)) := by
  have found : (s.arrive t).tier.wstr.find? (fun x => x.nn == w.nn) = some w := by simp [one]
  have left : (s.arrive t).tier.wstr.filter (fun x => x.nn != w.nn) = [] := by simp [one]
  change execWeightStreamDone t w.nn s = _
  unfold execWeightStreamDone
  dsimp only
  rw [found]
  dsimp only
  rw [landed, soft, waits]
  simp only [Bool.false_and, Bool.or_self, Bool.false_eq_true, if_false]
  rw [left]
  rfl

section
variable {l : List Msg} (many : l.length = 131069)
include many

/-- There is room for one message more. -/
theorem outOfOrder_room {s : State} (qs : s.egq.qs = outOfOrder l) : s.roomIn 0 = true := by
  simp [State.roomIn, State.queue, qs, outOfOrder, lookD, look, many]

/-- A message put into queue 0 leaves the old record of the queue behind the new one, and both count: no room is left. -/
theorem outOfOrder_full {s : State} {x : Queue} (qs : s.egq.qs = put (outOfOrder l) 0 x) (two : x.waiting.length = 2) : s.roomIn 0 = false := by
  have order : put (outOfOrder l) 0 x = (0, x) :: outOfOrder l := rfl
  rw [order] at qs
  simp [State.roomIn, qs, outOfOrder, two, many]

/-- Of two messages sent by queue 0 the first enters, and the second finds no room behind it. -/
theorem outOfOrder_enqueue_two {s : State} (qs : s.egq.qs = outOfOrder l) (open_ : s.egq.held = []) {first : Msg} (last : Msg)
    (fresh : first.cseq = none) : (((s.enqueue 0 first).enqueue 0 last).queue 0).waiting.length = 2 := by
  obtain ⟨x, egq, waiting⟩ := putMsg_qs (s := s) fresh 0
  have two : x.waiting.length = 2 := by
    rw [waiting, State.queue, qs]; rfl
  have entered : (s.enqueue 0 first).egq = { s.egq with qs := put (outOfOrder l) 0 x } := by
    rw [enqueue_of_room first (outOfOrder_room many qs) open_, ← qs]; exact egq
  rw [enqueue_of_full last (outOfOrder_full many (congrArg EgqSt.qs entered) two)]
  change (lookD (s.enqueue 0 first).egq.qs 0 Queue.off).waiting.length = 2
  rw [entered, lookD_put_same, two]

end

/-- Nothing that waits in those queues belongs to a weight layer. -/
theorem landedOutOfOrder_landed {l : List Msg} (other : ∀ m ∈ l, m = tierMsg) :
    (landedOutOfOrder l).inFlight (fun p => p == .weight landedLayer.nn) = false := by
  refine inFlight_eq_false (fun e he m hm => ?_) (fun h hh => by cases hh) (fun e he => by cases he)
  have : m = tierMsg := by
    simp only [landedOutOfOrder, outOfOrder, List.mem_cons, List.not_mem_nil, or_false] at he
    rcases he with rfl | rfl
    · exact other m hm
    · exact List.mem_singleton.1 hm
  rw [this]; rfl

theorem outOfOrder_prog (l : List Msg) : ((landedOutOfOrder l).prog landedLayer.nn).queue = 0 := by
  have : (State.reset.prog 0).queue = 0 := by decide +kernel
  exact this

/-- Refutes O33: the clause of a weight layer fails in a state whose queue map is out of order, where the header takes the room that the flag
message needs. -/
theorem not_movesRecallsLeasesAndWeightsEnd : ¬ Obligations.MovesRecallsLeasesAndWeightsEnd := by
  unfold Obligations.MovesRecallsLeasesAndWeightsEnd
  intro h
  obtain ⟨l, many, other⟩ : ∃ l : List Msg, l.length = 131069 ∧ ∀ m ∈ l, m = tierMsg :=
    ⟨List.replicate 131069 tierMsg, List.length_replicate, fun _ => List.eq_of_mem_replicate⟩
  have still : (landedOutOfOrder l).arrive 0 = landedOutOfOrder l := rfl
  have landed := landedOutOfOrder_landed other
  obtain ⟨-, -, -, weights⟩ := h (landedOutOfOrder l) 0
  rw [still] at weights
  obtain ⟨v, hv, -, header, flag, queued, addrs, -⟩ := weights landedLayer rfl landed (fun hard => by cases hard) rfl
    (by rw [outOfOrder_prog]; exact Nat.le_of_ble_eq_true rfl) (by simp [landedOutOfOrder, outOfOrder, many])
  have hexec := exec_weightStreamDone (t := 0) (w := landedLayer) rfl (by rw [still]; exact landed) rfl rfl
  have two : (v.queue 0).waiting.length = 2 := by
    obtain rfl : _ = v := Host.Outcome.next.inj (hexec.symm.trans hv)
    rw [still, outOfOrder_prog]
    exact outOfOrder_enqueue_two many rfl rfl _ rfl
  have one : header.length = 1 := by rw [← List.length_map (f := (·.addr)), addrs]; rfl
  rw [outOfOrder_prog] at queued
  have three : (v.queue 0).waiting.length = 1 + header.length + 1 := by
    rw [queued, List.length_append, List.length_append]; rfl
  omega

end Sys2Proof.Machine

/-! ## Links (10) -/

namespace Sys2Proof.Machine

/-! ### A port put back (R291) -/

section
variable (s : State) (p q : Nat)

@[simp] theorem setPort_port_same (x : Port) : (s.setPort p x).port p = x := lookD_put_same ..
@[simp] theorem count_port (index sub : Nat) : (s.count index sub).port p = s.port p := rfl
@[simp] theorem countBy_port (index sub n : Nat) : (s.countBy index sub n).port p = s.port p := rfl
@[simp] theorem noteAll_port : s.noteAll.port p = s.port p := rfl
@[simp] theorem linkEvent_lnk (code : Nat) : (s.linkEvent p code).lnk = s.lnk := State.event_lnk ..
@[simp] theorem linkEvent_port (code : Nat) : (s.linkEvent p code).port q = s.port q := by rw [State.port, linkEvent_lnk]; rfl

variable {p q} in
theorem setPort_port_other (x : Port) (h : q ≠ p) : (s.setPort p x).port q = s.port q := lookD_put_other _ _ _ _ _ h

end

/-! ### What sending by a port moves (R266 to R272, R288) -/

theorem PortIs.refl (x : Port) : PortIs x x := rfl

theorem PortIs.trans {a b c : Port} (h : PortIs a b) (k : PortIs b c) : PortIs a c :=
  Eq.trans k (congrArg (fun w => { w with ctlRecs := c.ctlRecs, slotAt := c.slotAt, lfsr := c.lfsr, corrAt := c.corrAt }) h)

/-- A state change that only sends by a port: of the ports, it moves what sending moves of this one. -/
structure SendsBy (p : Nat) (s t : State) : Prop where
  port   : PortIs (s.port p) (t.port p)
  other  : ∀ q, q ≠ p → t.port q = s.port q
  mgmtIn : t.lnk.mgmtIn = s.lnk.mgmtIn

theorem SendsBy.refl (p : Nat) (s : State) : SendsBy p s s := ⟨rfl, fun _ _ => rfl, rfl⟩

theorem SendsBy.trans {p : Nat} {a b c : State} (h : SendsBy p a b) (k : SendsBy p b c) : SendsBy p a c :=
  ⟨h.port.trans k.port, fun q e => (k.other q e).trans (h.other q e), k.mgmtIn.trans h.mgmtIn⟩

theorem SendsBy.setPort {p : Nat} {s : State} {x : Port} (h : PortIs (s.port p) x) : SendsBy p s (s.setPort p x) :=
  ⟨by rw [setPort_port_same]; exact h, fun _ => setPort_port_other s x, rfl⟩

/-- The decisions of fault injection move the port's register alone, and what they note are corruptions. -/
theorem corruptions_portIs {out : Nat → Out} {p : Nat} (hout : ∀ i, flitsOut p [out i] = []) (l : List Nat) (a : Port × List Out) :
    let b := l.foldl (fun (a : Port × List Out) i => let (hit, y) := a.1.inject; (y, if hit then out i :: a.2 else a.2)) a
    PortIs a.1 b.1 ∧ ∃ hits, b.2 = hits ++ a.2 ∧ flitsOut p hits = [] := by
  induction l generalizing a with
  | nil => exact ⟨rfl, [], rfl, rfl⟩
  | cons i l ih =>
    obtain ⟨port, hits, eq, none⟩ := ih (a.1.inject.2, if a.1.inject.1 then out i :: a.2 else a.2)
    refine ⟨PortIs.trans (b := a.1.inject.2) rfl port, ?_⟩
    cases hit : a.1.inject.1 with
    | false => exact ⟨hits, by simpa [hit] using eq, none⟩
    | true =>
      refine ⟨hits ++ [out i], by simpa [hit] using eq, ?_⟩
      have := hout i
      simp only [flitsOut] at none this ⊢
      rw [List.filterMap_append, none, this]; rfl

theorem corrupt_cases (s : State) (p group : Nat) : s.corrupt p group = s ∨ ∃ y hits, PortIs (s.port p) y ∧ flitsOut p hits = [] ∧
    s.corrupt p group = { s.setPort p y with out := hits ++ s.out } := by
  unfold State.corrupt
  extract_lets x
  split
  · exact .inl rfl
  · obtain ⟨port, hits, eq, none⟩ := corruptions_portIs (p := p)
      (out := fun i => .corrupt p (x.corrAt + 1 + i / x.codes) (x.laneNos.getD (i % x.codes) 0) (if x.fsev then 20 else 8))
      (fun _ => rfl) (List.range ((group - x.corrAt) * x.codes)) (x, [])
    refine .inr ⟨_, hits, ?_, none, congrArg (fun l => ({ s.setPort p _ with out := l ++ s.out } : State)) (eq.trans (List.append_nil _))⟩
    exact port.trans rfl

theorem emit_sendsBy (s : State) (p : Nat) (o : Out) : SendsBy p s (s.emit o) := ⟨rfl, fun _ _ => rfl, rfl⟩

theorem corrupt_sendsBy (s : State) (p group : Nat) : SendsBy p s (s.corrupt p group) := by
  obtain h | ⟨y, hits, port, -, h⟩ := corrupt_cases s p group
  · rw [h]; exact .refl p s
  · rw [h]
    obtain ⟨port, other, mgmt⟩ := SendsBy.setPort port
    exact ⟨port, other, mgmt⟩

theorem out_subset_corrupt (s : State) (p group : Nat) : s.out ⊆ (s.corrupt p group).out := by
  obtain h | ⟨y, hits, -, -, h⟩ := corrupt_cases s p group
  · rw [h]; exact List.Subset.refl _
  · rw [h]; exact List.subset_append_right ..

theorem flitsOut_corrupt (s : State) (p group : Nat) : flitsOut p (s.corrupt p group).out = flitsOut p s.out := by
  obtain h | ⟨y, hits, -, none, h⟩ := corrupt_cases s p group
  · rw [h]
  · rw [h]
    simp only [flitsOut] at none ⊢
    rw [List.filterMap_append, none]; rfl

theorem sendFlit_sendsBy (s : State) (p : Nat) (f : Flit) : SendsBy p s (s.sendFlit p f) := by
  unfold State.sendFlit
  extract_lets x g at_
  exact (SendsBy.setPort (p := p) (x := { x with slotAt := at_ }) rfl).trans ((emit_sendsBy _ p _).trans (corrupt_sendsBy ..))

theorem out_subset_sendFlit (s : State) (p : Nat) (f : Flit) : s.out ⊆ (s.sendFlit p f).out :=
  fun _ h => out_subset_corrupt _ _ _ (List.mem_cons_of_mem _ h)

theorem flitsOut_sendFlit (s : State) (p : Nat) (f : Flit) : flitsOut p (s.sendFlit p f).out = f :: flitsOut p s.out := by
  refine (flitsOut_corrupt ..).trans ?_
  simp [flitsOut, State.emit]

theorem sendFlits_sendsBy (s : State) (p : Nat) (l : List Flit) : SendsBy p s (l.foldl (fun (s : State) f => s.sendFlit p f) s) := by
  induction l generalizing s with
  | nil => exact .refl p s
  | cons f l ih => exact (sendFlit_sendsBy s p f).trans (ih _)

theorem flitsOut_sendFlits (s : State) (p : Nat) (l : List Flit) :
    flitsOut p (l.foldl (fun (s : State) f => s.sendFlit p f) s).out = l.reverse ++ flitsOut p s.out := by
  induction l generalizing s with
  | nil => rfl
  | cons f l ih => simp [ih, flitsOut_sendFlit]

/-! ### Control flits (R267, R270, R280) -/

section
variable {s : State} {p : Nat}

theorem talks_iff {x : Port} : x.talks = true ↔ x.en = true ∧ x.mode = 0 ∧ x.st ≠ .down ∧ x.st ≠ .failed := by
  simp [Port.talks, and_assoc]

/-- The records of a port for the control flit of a group, or of a later one. -/
def Port.recsFrom (x : Port) (g : Nat) : List (Nat × LinkRec) := x.ctlRecs.filter fun e => decide (g ≤ e.1)

/-- The state in which the control flits of a port that talks to a far end have been put in place of those that were to leave. -/
def State.ctlPlaced (s : State) (p : Nat) : State :=
  let x := s.port p
  let g := x.groupAt s.timer
  let recs := x.recsFrom g
  let groups := (g :: recs.map (·.1)).dedup
  let old (o : Out) : Bool := match o with | .control q h _ _ _ => q == p && groups.contains h | _ => false
  let flit (h : Nat) : Out :=
    let f := s.ctlFlit p ((recs.filter fun e => e.1 == h).map (·.2))
    .control p h x.laneNos f (ctlCrc f)
  { s.setPort p { x with ctlRecs := recs } with out := (groups.map flit).reverse ++ s.out.filter fun o => !old o }

theorem sendCtl_eq (s : State) (p : Nat) : s.sendCtl p =
    if (s.port p).talks = false then s
    else if (s.port p).loop = true then
      let f := s.ctlFlit p []
      s.setPort p { s.port p with ctlRecs := [], freed := f.cred, peerFallow := f.fallow, peerDrained := f.drained }
    else (s.ctlPlaced p).corrupt p ((s.port p).groupAt s.timer) := by
  unfold State.sendCtl
  simp only [Bool.not_eq_true']
  rfl

theorem sendCtl_sendsBy (heard : (s.port p).loop = false) : SendsBy p s (s.sendCtl p) := by
  rw [sendCtl_eq, heard]
  split
  · exact .refl p s
  · refine SendsBy.trans ?_ (corrupt_sendsBy ..)
    obtain ⟨port, other, mgmt⟩ := SendsBy.setPort (s := s) (p := p) (x := { s.port p with ctlRecs := (s.port p).recsFrom ((s.port p).groupAt s.timer) }) rfl
    exact ⟨port, other, mgmt⟩

variable (talks : (s.port p).talks = true) (heard : (s.port p).loop = false)
include talks heard

/-- In the next group, and in each group with records, a control flit leaves as the port stands, with the records of that group. -/
theorem sendCtl_control {g : Nat} (due : g = (s.port p).groupAt s.timer ∨ g ∈ ((s.port p).recsFrom ((s.port p).groupAt s.timer)).map (·.1)) :
    let f := s.ctlFlit p ((((s.port p).recsFrom ((s.port p).groupAt s.timer)).filter fun e => e.1 == g).map (·.2))
    .control p g (s.port p).laneNos f (ctlCrc f) ∈ (s.sendCtl p).out := by
  rw [sendCtl_eq, talks, heard]
  refine out_subset_corrupt _ _ _ (List.mem_append_left _ (List.mem_reverse.2 (List.mem_map_of_mem ?_)))
  exact List.mem_dedup.2 (List.mem_cons.2 due)

theorem sendCtl_next : ∃ recs, let f := s.ctlFlit p recs
    .control p ((s.port p).groupAt s.timer) (s.port p).laneNos f (ctlCrc f) ∈ (s.sendCtl p).out :=
  ⟨_, sendCtl_control talks heard (.inl rfl)⟩

/-- A record that has been placed leaves. -/
theorem putRec_sendCtl (r : LinkRec) : CtlOut ((s.putRec p 0 r).2.sendCtl p) p fun c => r ∈ c.recs := by
  set v := (s.putRec p 0 r).2 with hv
  obtain ⟨g, late, recs⟩ : ∃ g, (s.port p).groupAt s.timer ≤ g ∧ v.port p = { s.port p with ctlRecs := (s.port p).ctlRecs ++ [(g, r)] } := by
    refine ⟨_, ?_, setPort_port_same ..⟩
    rw [Nat.max_eq_left (Nat.zero_le _)]
    cases List.find? _ _ with
    | none => exact le_refl _
    | some i => exact Nat.le_add_right ..
  have mem : (g, r) ∈ (v.port p).recsFrom ((v.port p).groupAt v.timer) := by
    rw [recs]
    exact List.mem_filter.2 ⟨List.mem_append_right _ (List.mem_singleton.2 rfl), decide_eq_true late⟩
  have htalks : (v.port p).talks = true := by rw [recs]; exact talks
  have hheard : (v.port p).loop = false := by rw [recs]; exact heard
  refine ⟨g, _, _, sendCtl_control htalks hheard (.inr (List.mem_map_of_mem mem)), ?_⟩
  exact List.mem_map_of_mem (f := Prod.snd) (List.mem_filter.2 ⟨mem, beq_self_eq_true g⟩)

end

theorem putRec_sendsBy (s : State) (p from_ : Nat) (r : LinkRec) : SendsBy p s (s.putRec p from_ r).2 := SendsBy.setPort rfl

/-! ### Lanes and codewords of a group (R266) -/

theorem laneOf_eq {w : Nat} (lanes : 0 < w) (i : Nat) : laneOf w i = i / 16 % w := by rw [laneOf, Nat.max_eq_right lanes]

theorem lanePlace_eq {w : Nat} (lanes : 0 < w) (i : Nat) : lanePlace w i = i / (16 * w) * 16 + i % 16 := by rw [lanePlace, Nat.max_eq_right lanes]

/-- On one lane the bytes of a group lie in their order. -/
theorem lanePlace_of_one {w : Nat} (one : w ≤ 1) (i : Nat) : lanePlace w i = i := by
  rw [lanePlace, Nat.max_eq_left one]
  omega

theorem codeOf_of_many {w : Nat} (many : 1 < w) (i : Nat) : codeOf w i = laneOf w i := if_neg (by omega)

theorem codeOf_of_one {w : Nat} (one : w ≤ 1) (i : Nat) : codeOf w i = i / 640 := by
  rw [codeOf, if_pos one, lanePlace_of_one one]

/-- The bytes of a group on eight lanes or four: each lane is one codeword. -/
theorem group_of_lanes {w i : Nat} (lanes : w = 8 ∨ w = 4) (inGroup : i < 256 * groupSlots w) :
    laneOf w i = i / 16 % w ∧ codeOf w i = laneOf w i ∧ lanePlace w i < 640 := by
  have size : 256 * groupSlots w = 640 * w := by rcases lanes with rfl | rfl <;> rfl
  refine ⟨laneOf_eq (by omega) i, codeOf_of_many (by omega) i, ?_⟩
  rw [lanePlace_eq (by omega)]
  rcases lanes with rfl | rfl <;> omega

/-- The bytes of a group on one lane fill four codewords in order. -/
theorem group_of_one_lane {i : Nat} (inGroup : i < 256 * groupSlots 1) : codeOf 1 i = i / 640 ∧ codeOf 1 i < 4 := by
  have size : 256 * groupSlots 1 = 2560 := rfl
  rw [codeOf_of_one (le_refl 1)]
  omega

/-- The sixteen bytes of a unit lie in one codeword. -/
theorem codeOf_unit (w slot i : Nat) : codeOf w (256 * slot + i) = codeOf w (256 * slot + 16 * (i / 16)) := by
  obtain many | one := Nat.lt_or_ge 1 w
  · rw [codeOf_of_many many, codeOf_of_many many, laneOf, laneOf]
    congr 1
    omega
  · rw [codeOf_of_one one, codeOf_of_one one]
    omega

theorem flitFec_uncorrectable_iff (w slot : Nat) (codes : List Ecc) : flitFec w slot codes = .uncorrectable ↔
    ∃ i, i < 256 ∧ codes.getD (codeOf w (256 * slot + i)) .clean = .uncorrectable := by
  have units : flitFec w slot codes = .uncorrectable ↔
      .uncorrectable ∈ (List.range 16).map fun u => codes.getD (codeOf w (256 * slot + 16 * u)) .clean := by
    unfold flitFec
    extract_lets mine
    rw [List.contains_eq_mem, List.contains_eq_mem]
    split
    · next h => exact iff_of_true rfl (of_decide_eq_true h)
    · next h => refine iff_of_false ?_ (fun m => h (decide_eq_true m)); split <;> nofun
  rw [units, List.mem_map]
  constructor
  · rintro ⟨n, hn, bad⟩
    exact ⟨16 * n, by have := List.mem_range.1 hn; omega, bad⟩
  · rintro ⟨i, hi, bad⟩
    exact ⟨i / 16, List.mem_range.2 (by omega), (codeOf_unit w slot i) ▸ bad⟩

/-! ### A port that carries flits (R268, R269, R284) -/

section
variable {s : State} {port : Nat} (c : Carrying s port)
include c

theorem Carrying.talks : (s.port port).talks = true := by
  refine talks_iff.2 ⟨c.en, c.mode, ?_⟩
  rcases c.st with h | h <;> simp [h]

theorem Carrying.hears : (s.port port).hears = true := by
  unfold Port.hears
  simpa [c.en, c.mode, c.loop, c.move] using c.st

end

/-! ### Data flits (R268 to R273) -/

/-- The control flit of the next group leaves as the port stands, in the group and on the lanes of a port with the same lanes. -/
theorem ctlNext_of_changed {v : State} {p : Nat} {x y : Port} (port : v.port p = y) (lanes : y.lanes = x.lanes) (talks : y.talks = true)
    (heard : y.loop = false) : PortIs y ((v.sendCtl p).port p) ∧
      CtlNext (v.sendCtl p) p x v.timer fun c => ∃ recs, c = v.ctlFlit p recs := by
  subst port
  obtain ⟨recs, out⟩ := sendCtl_next talks heard
  have width : (v.port p).width = x.width := by rw [Port.width, lanes]; rfl
  have group : (v.port p).groupAt v.timer = x.groupAt v.timer := by rw [Port.groupAt, width]; rfl
  have nos : (v.port p).laneNos = x.laneNos := by rw [Port.laneNos, lanes]; rfl
  rw [group, nos] at out
  exact ⟨(sendCtl_sendsBy heard).port, _, out, recs, rfl⟩

theorem sendCtl_mem (s : State) (p : Nat) : (s.sendCtl p).mem = s.mem :=
  Within.keeps (l := [.mem]) (p := .mem) (State.sendCtl_within rfl rfl (.refl _ s)) (by simp)

theorem sendCtl_free (s : State) (p : Nat) : (s.sendCtl p).free = s.free :=
  Within.keeps (l := [.free]) (p := .free) (State.sendCtl_within rfl rfl (.refl _ s)) (by simp)

section
variable {s : State} {t port : Nat} {g : FlitPlace} {f : Flit} {crc : BitVec 32} (ready : s.ready = true) (c : Carrying s port)
  (first : 0 < g.slot) (last : g.slot < groupSlots (s.port port).width)

/-- The port after a flit in sequence has been taken. -/
def Port.taking (x : Port) (f : Flit) : Port :=
  { x with expect := x.expect + 1, nak := false, rfreed := setAt x.rfreed f.vl ((x.rfreed.getD f.vl 0 + 1) % 2 ^ 16) }

/-- The state after a flit in sequence has been taken, before the control flit that says so. -/
def State.flitTaken (s : State) (port : Nat) (f : Flit) : State :=
  let v := (s.count 0x4016 port).setPort port ((s.port port).taking f)
  if f.vl = 6 then { v with lnk := { v.lnk with mgmtIn := v.lnk.mgmtIn ++ [f.body.take (16 * f.blen)] } } else v

/-- A flit that a port discards with a retry request. -/
def FlitBad (x : Port) (g : FlitPlace) (crc : BitVec 32) (f : Flit) : Prop :=
  flitFec x.width g.slot g.codes = .uncorrectable ∨ crc ≠ flitCrc f ∨
    (f.ft ≠ 0 ∧ (flitOk f = false ∨ f.fseq ≠ x.expect ∨ (x.st = .fallow ∧ f.vl ≠ 6)))

include ready c first last

theorem execDataFlitReceive_carrying : execDataFlitReceive t port g crc f s =
    let u := s.arrive t
    let x := s.port port
    if flitFec x.width g.slot g.codes = .uncorrectable then .next ((u.askRetry port).sendCtl port)
    else if crc ≠ flitCrc f then .next (((u.count 0x4012 port).askRetry port).sendCtl port)
    else if f.ft = 0 then .next u
    else if flitOk f = false ∨ f.fseq ≠ x.expect ∨ (x.st = .fallow ∧ f.vl ≠ 6) then .next ((u.askRetry port).sendCtl port)
    else .next ((u.flitTaken port f).sendCtl port) := by
  have notFirst : g.slot ≠ 0 := by omega
  have notPast : ¬ groupSlots (s.port port).width ≤ g.slot := by omega
  have inRange : ¬ 8 ≤ port := by have := c.port; omega
  unfold execDataFlitReceive
  simp only [arrive_port, arrive_ready, c.hears, ready, notPast, inRange, Bool.not_true, decide_false, beq_eq_false_iff_ne.2 notFirst,
    Bool.or_false, Bool.false_eq_true, if_false, Bool.not_eq_true', State.flitTaken, Port.taking]

theorem exec_dataFlitReceive_bad (bad : FlitBad (s.port port) g crc f) : ∃ w : State, w.lnk = s.lnk ∧ w.timer = (s.arrive t).timer ∧
    exec (.dataFlitReceive t port g crc f) s = .next ((w.askRetry port).sendCtl port) := by
  change ∃ w : State, _ ∧ _ ∧ execDataFlitReceive t port g crc f s = _
  rw [execDataFlitReceive_carrying ready c first last]
  have hlnk : (s.arrive t).lnk = s.lnk := State.arrive_lnk s t
  dsimp only
  by_cases hfec : flitFec (s.port port).width g.slot g.codes = .uncorrectable
  · exact ⟨s.arrive t, hlnk, rfl, if_pos hfec⟩
  by_cases hcrc : crc = flitCrc f
  · obtain ⟨data, wrong⟩ := (bad.resolve_left hfec).resolve_left (fun h => h hcrc)
    exact ⟨s.arrive t, hlnk, rfl, by rw [if_neg hfec, if_neg (fun h => h hcrc), if_neg data, if_pos wrong]⟩
  · exact ⟨(s.arrive t).count 0x4012 port, hlnk, rfl, by rw [if_neg hfec, if_pos hcrc]⟩

variable (decoded : flitFec (s.port port).width g.slot g.codes ≠ .uncorrectable)
include decoded

theorem exec_dataFlitReceive_idle (idle : f.ft = 0) : exec (.dataFlitReceive t port g (flitCrc f) f) s = .next (s.arrive t) := by
  change execDataFlitReceive t port g (flitCrc f) f s = _
  rw [execDataFlitReceive_carrying ready c first last]
  dsimp only
  rw [if_neg decoded, if_neg (fun h => h rfl), if_pos idle]

theorem exec_dataFlitReceive_taken (data : f.ft ≠ 0) (ok : flitOk f = true) (next_ : f.fseq = (s.port port).expect)
    (mgmt : (s.port port).st = .fallow → f.vl = 6) :
    exec (.dataFlitReceive t port g (flitCrc f) f) s = .next (((s.arrive t).flitTaken port f).sendCtl port) := by
  change execDataFlitReceive t port g (flitCrc f) f s = _
  rw [execDataFlitReceive_carrying ready c first last]
  dsimp only
  rw [if_neg decoded, if_neg (fun h => h rfl), if_neg data, if_neg]
  rintro (h | h | ⟨h, k⟩)
  · rw [ok] at h; cases h
  · exact h next_
  · exact k (mgmt h)

end

section
variable (s : State) (p : Nat) (f : Flit)

theorem flitTaken_port : (s.flitTaken p f).port p = (s.port p).taking f := by
  unfold State.flitTaken
  dsimp only
  split <;> exact setPort_port_same ..

theorem flitTaken_timer : (s.flitTaken p f).timer = s.timer := by unfold State.flitTaken; dsimp only; split <;> rfl

theorem flitTaken_mem : (s.flitTaken p f).mem = s.mem := by unfold State.flitTaken; dsimp only; split <;> rfl

theorem flitTaken_mgmtIn : (s.flitTaken p f).lnk.mgmtIn = if f.vl = 6 then s.lnk.mgmtIn ++ [f.body.take (16 * f.blen)] else s.lnk.mgmtIn := by
  unfold State.flitTaken
  dsimp only
  split <;> rfl

end

/-- The credits that a control flit carries are those of the eight lanes of traffic (R270). -/
theorem ctlFlit_cred (s : State) (p : Nat) (recs : List LinkRec) {vl : Nat} (h : vl < 8) :
    (s.ctlFlit p recs).cred.getD vl 0 = BitVec.ofNat 16 ((s.port p).rfreed.getD vl 0) := by
  simp only [State.ctlFlit]
  rw [List.getD_eq_getElem _ _ (by simpa using h)]
  simp

theorem vl_lt_of_flitOk {f : Flit} (h : flitOk f = true) : f.vl < 7 := by
  simp only [flitOk, Bool.and_eq_true, decide_eq_true_eq] at h
  omega

/-- A flit in sequence is taken, and the control flit of the next group says so. -/
theorem flitTaken_sendCtl {s : State} {port : Nat} {f : Flit} (c : Carrying s port) (ok : flitOk f = true) (next_ : f.fseq = (s.port port).expect) :
    let v := (s.flitTaken port f).sendCtl port
    PortIs ((s.port port).taking f) (v.port port) ∧
    CtlNext v port (s.port port) s.timer (fun k => k.ackseq = f.fseq ∧ k.nak = false ∧
      k.cred.getD f.vl 0 = BitVec.ofNat 16 ((v.port port).rfreed.getD f.vl 0)) := by
  have port_eq := flitTaken_port s port f
  obtain ⟨is, ctl, out, recs, rfl⟩ := ctlNext_of_changed (x := s.port port) port_eq rfl c.talks c.loop
  rw [flitTaken_timer] at out
  refine ⟨is, _, out, ?_, ?_, ?_⟩
  · simp only [State.ctlFlit]
    rw [port_eq, next_]
    simp [Port.taking]
  · simp only [State.ctlFlit]
    rw [port_eq]; rfl
  · rw [ctlFlit_cred _ _ _ (Nat.lt_succ_of_lt (vl_lt_of_flitOk ok)), port_eq, is]

/-- A retry request goes out with the control flit of the next group. -/
theorem askRetry_sendCtl {s w : State} {port : Nat} (c : Carrying s port) (lnk : w.lnk = s.lnk) :
    let v := (w.askRetry port).sendCtl port
    PortIs { s.port port with nak := true } (v.port port) ∧
    CtlNext v port (s.port port) w.timer (fun k => k.nak = true ∧ k.ackseq = (s.port port).expect - 1) ∧ v.lnk.mgmtIn = s.lnk.mgmtIn := by
  have same : w.port port = s.port port := congrArg (fun l : LinkSt => lookD l.ports port Port.atReset) lnk
  have asked : (w.askRetry port).port port = { s.port port with nak := true } := by rw [State.askRetry, setPort_port_same, same]
  obtain ⟨is, ctl, out, recs, rfl⟩ := ctlNext_of_changed (x := s.port port) asked rfl c.talks c.loop
  refine ⟨is, ⟨_, out, ?_, ?_⟩, ?_⟩
  · simp only [State.ctlFlit]
    rw [asked]
  · simp only [State.ctlFlit]
    rw [asked]
  · refine (sendCtl_sendsBy (by rw [asked]; exact c.loop)).mgmtIn.trans ?_
    rw [← lnk]; rfl

/-! ### Flits that leave as credits allow (R271 to R273, R281) -/

/-- A port stands as `y` says, but for what sending moves and what the flits of started packets move as they leave. -/
def PortDrains (y x : Port) : Prop :=
  PortIs { y with tx := x.tx, nextSeq := x.nextSeq, replay := x.replay, sent := x.sent, ackAt := x.ackAt } x

theorem PortIs.drains {y x : Port} (h : PortIs y x) : PortDrains y x := Eq.trans h (by rw [h])

theorem PortDrains.trans {a b c : Port} (h : PortDrains a b) (k : PortDrains b c) : PortDrains a c :=
  Eq.trans k (congrArg (fun w => { w with
    ctlRecs := c.ctlRecs, slotAt := c.slotAt, lfsr := c.lfsr, corrAt := c.corrAt
    tx := c.tx, nextSeq := c.nextSeq, replay := c.replay, sent := c.sent, ackAt := c.ackAt }) h)

section
variable {x y : Port} (h : PortDrains y x)
include h

theorem PortDrains.st : x.st = y.st := (congrArg Port.st h :)
theorem PortDrains.lanes : x.lanes = y.lanes := (congrArg Port.lanes h :)
theorem PortDrains.peer : x.peer = y.peer := (congrArg Port.peer h :)
theorem PortDrains.peerv : x.peerv = y.peerv := (congrArg Port.peerv h :)
theorem PortDrains.tries : x.tries = y.tries := (congrArg Port.tries h :)
theorem PortDrains.moving : x.moving = y.moving := (congrArg Port.moving h :)
theorem PortDrains.resync : x.resync = y.resync := (congrArg Port.resync h :)
theorem PortDrains.loop : x.loop = y.loop := (congrArg Port.loop h :)
theorem PortDrains.expect : x.expect = y.expect := (congrArg Port.expect h :)
theorem PortDrains.freed : x.freed = y.freed := (congrArg Port.freed h :)
theorem PortDrains.peerFallow : x.peerFallow = y.peerFallow := (congrArg Port.peerFallow h :)
theorem PortDrains.peerDrained : x.peerDrained = y.peerDrained := (congrArg Port.peerDrained h :)

end

/-- A state change that sends what waits at a port. While the port waits for the far end's ACKSEQ, what is not acknowledged stays. -/
structure DrainsBy (p : Nat) (s t : State) : Prop where
  port  : PortDrains (s.port p) (t.port p)
  other : ∀ q, q ≠ p → t.port q = s.port q
  out   : s.out ⊆ t.out
  waits : (s.port p).resync = true → (t.port p).replay = (s.port p).replay

theorem DrainsBy.refl (p : Nat) (s : State) : DrainsBy p s s := ⟨(PortIs.refl _).drains, fun _ _ => rfl, List.Subset.refl _, fun _ => rfl⟩

theorem DrainsBy.trans {p : Nat} {a b c : State} (h : DrainsBy p a b) (k : DrainsBy p b c) : DrainsBy p a c :=
  ⟨h.port.trans k.port, fun q e => (k.other q e).trans (h.other q e), fun _ m => k.out (h.out m), fun w => by
    rw [k.waits (h.port.resync.trans w), h.waits w]⟩

theorem DrainsBy.setPort {p : Nat} {s : State} {x : Port} (h : PortDrains (s.port p) x)
    (waits : (s.port p).resync = true → x.replay = (s.port p).replay) : DrainsBy p s (s.setPort p x) :=
  ⟨by rw [setPort_port_same]; exact h, fun _ => setPort_port_other s x, List.Subset.refl _, by rw [setPort_port_same]; exact waits⟩

theorem SendsBy.drains {p : Nat} {s t : State} (h : SendsBy p s t) (out : s.out ⊆ t.out) : DrainsBy p s t :=
  ⟨h.port.drains, h.other, out, fun _ => (congrArg Port.replay h.port :)⟩

theorem noteAll_drainsBy (s : State) (p : Nat) : DrainsBy p s s.noteAll :=
  ⟨(PortIs.refl _).drains, fun _ _ => rfl, List.Subset.refl _, fun _ => rfl⟩

theorem count_drainsBy (s : State) (p index sub : Nat) : DrainsBy p s (s.count index sub) :=
  ⟨(PortIs.refl _).drains, fun _ _ => rfl, List.Subset.refl _, fun _ => rfl⟩

/-- A flit that need not wait leaves. -/
theorem sendNext_drainsBy {s : State} {p : Nat} {y : Port} (open_ : (s.port p).resync ≠ true) (f : Flit) (h : PortDrains (s.port p) y) :
    DrainsBy p s (((s.setPort p y).count 0x4015 p).sendFlit p f) :=
  (DrainsBy.setPort h fun w => absurd w open_).trans <| (count_drainsBy ..).trans <| (sendFlit_sendsBy ..).drains (out_subset_sendFlit ..)

theorem drainPort_drainsBy (s : State) (p : Nat) : DrainsBy p s (s.drainPort p) := by
  unfold State.drainPort
  extract_lets x step
  have kept : DrainsBy p s (x.tx.foldl step (s, [], [])).1 := by
    refine List.foldlRecOn (motive := fun a : State × List Flit × List Nat => DrainsBy p s a.1) _ _ (DrainsBy.refl p s) fun a h f _ => ?_
    obtain ⟨u, left, stuck⟩ := a
    simp only [step]
    split
    · exact h
    · next free =>
      have open_ : (u.port p).resync ≠ true := fun w => free (by simp [w])
      exact h.trans (sendNext_drainsBy open_ _ rfl)
  generalize x.tx.foldl step (s, [], []) = a at kept
  obtain ⟨u, left, stuck⟩ := a
  exact kept.trans ((DrainsBy.setPort (x := { u.port p with tx := left }) (by rfl) (by exact fun _ => rfl)).trans (noteAll_drainsBy _ p))

/-! ### Ports that change their state (R281) -/

/-- A port stands as `y` says, but for what sending moves, what a looped port hears of itself, and the times of its states. -/
def PortStands (y x : Port) : Prop :=
  PortIs { y with freed := x.freed, peerFallow := x.peerFallow, peerDrained := x.peerDrained, since := x.since, downAt := x.downAt } x

theorem PortStands.refl (x : Port) : PortStands x x := rfl

theorem PortIs.stands {y x : Port} (h : PortIs y x) : PortStands y x := Eq.trans h (by rw [h])

theorem PortStands.trans {a b c : Port} (h : PortStands a b) (k : PortStands b c) : PortStands a c :=
  Eq.trans k (congrArg (fun w => { w with
    ctlRecs := c.ctlRecs, slotAt := c.slotAt, lfsr := c.lfsr, corrAt := c.corrAt, freed := c.freed
    peerFallow := c.peerFallow, peerDrained := c.peerDrained, since := c.since, downAt := c.downAt }) h)

section
variable {x y : Port} (h : PortStands y x)
include h

theorem PortStands.en : x.en = y.en := (congrArg Port.en h :)
theorem PortStands.mode : x.mode = y.mode := (congrArg Port.mode h :)
theorem PortStands.modeNext : x.modeNext = y.modeNext := (congrArg Port.modeNext h :)
theorem PortStands.loop : x.loop = y.loop := (congrArg Port.loop h :)
theorem PortStands.st : x.st = y.st := (congrArg Port.st h :)
theorem PortStands.lanes : x.lanes = y.lanes := (congrArg Port.lanes h :)
theorem PortStands.peer : x.peer = y.peer := (congrArg Port.peer h :)
theorem PortStands.peerv : x.peerv = y.peerv := (congrArg Port.peerv h :)
theorem PortStands.degraded : x.degraded = y.degraded := (congrArg Port.degraded h :)
theorem PortStands.uncorr : x.uncorr = y.uncorr := (congrArg Port.uncorr h :)
theorem PortStands.replaylim : x.replaylim = y.replaylim := (congrArg Port.replaylim h :)
theorem PortStands.replay : x.replay = y.replay := (congrArg Port.replay h :)
theorem PortStands.replays : x.replays = y.replays := (congrArg Port.replays h :)
theorem PortStands.expect : x.expect = y.expect := (congrArg Port.expect h :)
theorem PortStands.tries : x.tries = y.tries := (congrArg Port.tries h :)
theorem PortStands.moving : x.moving = y.moving := (congrArg Port.moving h :)
theorem PortStands.resync : x.resync = y.resync := (congrArg Port.resync h :)

end

section
variable (s : State) (p : Nat)

theorem enterPort_port (st : PortState) : PortStands { s.port p with st } ((s.enterPort p st).port p) := by
  unfold State.enterPort
  extract_lets x was v
  have : v.port p = { x with st, since := s.timer, downAt := if was && st != .up then s.timer else x.downAt } := setPort_port_same ..
  split
  · rw [linkEvent_port, this]; exact rfl
  · rw [this]; exact rfl

@[simp] theorem enterPort_timer (st : PortState) : (s.enterPort p st).timer = s.timer :=
  Within.keeps (l := [.timer]) (p := .timer) (by apply State.enterPort_within (hs := .refl _ s) <;> rfl) (by simp)

@[simp] theorem enterPort_free (st : PortState) : (s.enterPort p st).free = s.free :=
  Within.keeps (l := [.free]) (p := .free) (by apply State.enterPort_within (hs := .refl _ s) <;> rfl) (by simp)

theorem sendCtl_stands : PortStands (s.port p) ((s.sendCtl p).port p) := by
  cases heard : (s.port p).loop with
  | false => exact (sendCtl_sendsBy heard).port.stands
  | true =>
    rw [sendCtl_eq, heard]
    split
    · exact .refl _
    · simp only [if_true, setPort_port_same]
      exact rfl

theorem delayAsk_stands : PortStands (s.port p) ((s.delayAsk p).port p) :=
  ((putRec_sendsBy s.draw.2 p 0 _).port.stands).trans (sendCtl_stands _ p)

variable {s p}

/-- A port that has been put back asks for the delay of its link, if it talks to a far end. -/
theorem delayAsk_ctlOut (talks : (s.port p).talks = true) (heard : (s.port p).loop = false) :
    CtlOut (s.delayAsk p) p fun c => .delayReq (s.timer + Config.residence s.free) ∈ c.recs :=
  putRec_sendCtl (s := s.draw.2) talks heard _

/-- An UP port that leaves for RETRAIN. -/
theorem goRetrain_stands (up : (s.port p).st = .up) : PortStands { s.port p with st := .retrain, tries := 0 } ((s.goRetrain p).port p) := by
  have entered : (if ((s.count 0x4014 p).port p).st = .fallow then
      (s.count 0x4014 p).setPort p { (s.count 0x4014 p).port p with moving := true } else (s.count 0x4014 p).enterPort p .retrain) =
      (s.count 0x4014 p).enterPort p .retrain := if_neg (by rw [count_port, up]; nofun)
  unfold State.goRetrain
  dsimp only
  rw [entered]
  refine PortStands.trans ?_ (delayAsk_stands _ p)
  rw [setPort_port_same]
  exact congrArg (fun z : Port => { z with tries := 0 }) (enterPort_port (s.count 0x4014 p) p .retrain)

end

/-! ### Control flits and replays (R269 to R273, R281) -/

section
variable (s : State) (p : Nat)

theorem codewords_port (codes : List Ecc) :
    (s.codewords p codes).port p = { s.port p with uncorr := (s.port p).uncorr || codes.contains .uncorrectable } := by
  induction codes generalizing s with
  | nil => simp [State.codewords]
  | cons e codes ih =>
    refine (ih (s.codeword p e)).trans ?_
    cases e <;> simp [State.codeword]

theorem codewords_mem (codes : List Ecc) : (s.codewords p codes).mem = s.mem :=
  Within.keeps (l := [.mem]) (p := .mem) (by apply State.codewords_within (hs := .refl _ s) <;> rfl) (by simp)

theorem codewords_out (codes : List Ecc) : (s.codewords p codes).out = s.out :=
  Within.keeps (l := [.out]) (p := .out) (by apply State.codewords_within (hs := .refl _ s) <;> rfl) (by simp)

theorem resendFlits_timer : (s.resendFlits p).timer = s.timer :=
  Within.keeps (l := [.timer]) (p := .timer) (by apply State.resendFlits_within (hs := .refl _ s) <;> rfl) (by simp)

theorem resendFlits_sendsBy : SendsBy p s (s.resendFlits p) := sendFlits_sendsBy ..

theorem flitsOut_resendFlits : flitsOut p (s.resendFlits p).out = (s.port p).replay.reverse ++ flitsOut p s.out := flitsOut_sendFlits ..

theorem acked_cases (ack : BitVec 12) : s.acked p ack = s ∨ ∃ n,
    s.acked p ack = s.setPort p { s.port p with replay := (s.port p).replay.drop n, replays := 0, ackAt := s.timer } := by
  unfold State.acked
  extract_lets x
  split
  · exact .inl rfl
  · next f rest h =>
    extract_lets n
    split
    · exact .inl rfl
    · exact .inr ⟨n, rfl⟩

/-- What a port knows of the far end is what a control flit says; it hears the far end, and expects a flit. -/
structure Told (f : CtlFlit) (expect : BitVec 12) (x : Port) : Prop where
  freed   : x.freed = (f.cred ++ List.replicate 8 0).take 8
  fallow  : x.peerFallow = f.fallow
  drained : x.peerDrained = f.drained
  expect  : x.expect = expect
  heard   : x.loop = false

theorem Told.drains {f : CtlFlit} {e : BitVec 12} {x y : Port} (h : Told f e x) (k : PortDrains x y) : Told f e y := by
  obtain ⟨freed, fallow, drained, expect, heard⟩ := h
  exact ⟨k.freed.trans freed, k.peerFallow.trans fallow, k.peerDrained.trans drained, k.expect.trans expect, k.loop.trans heard⟩

variable {s p}

/-- The state in which what a control flit says of the far end has been noted. -/
def State.told (s : State) (p : Nat) (f : CtlFlit) : State :=
  (s.acked p f.ackseq).setPort p { (s.acked p f.ackseq).port p with
    freed := (f.cred ++ List.replicate 8 0).take 8, peerFallow := f.fallow, peerDrained := f.drained }

/-- The state in which a port that waited for the far end's ACKSEQ has sent again what is not acknowledged. -/
def State.resent (s : State) (p : Nat) : State :=
  if (s.port p).resync && (s.port p).carries 6 then (s.setPort p { s.port p with resync := false }).resendFlits p else s

theorem control_of_quiet {f : CtlFlit} (quiet : f.nak = false) : s.control p f =
    let v := ((s.told p f).resent p).drainPort p
    if (s.port p).replay != [] && (v.port p).replay == [] then v.sendCtl p else v := by
  unfold State.control
  rw [quiet]
  rfl

theorem told_port (f : CtlFlit) (heard : (s.port p).loop = false) : Told f (s.port p).expect ((s.told p f).port p) := by
  rw [State.told, setPort_port_same]
  obtain h | ⟨n, h⟩ := acked_cases s p f.ackseq
  · rw [h]; exact ⟨rfl, rfl, rfl, rfl, heard⟩
  · rw [h, setPort_port_same]; exact ⟨rfl, rfl, rfl, rfl, heard⟩

theorem Told.resent {f : CtlFlit} {e : BitVec 12} (h : Told f e (s.port p)) : Told f e ((s.resent p).port p) := by
  unfold State.resent
  split
  · refine Told.drains ?_ (resendFlits_sendsBy _ p).port.drains
    rw [setPort_port_same]
    exact ⟨h.freed, h.fallow, h.drained, h.expect, h.heard⟩
  · exact h

/-- The link fields of a control flit that asks for no replay. -/
theorem control_told (f : CtlFlit) (heard : (s.port p).loop = false) (quiet : f.nak = false) : Told f (s.port p).expect ((s.control p f).port p) := by
  have drained := (told_port f heard).resent.drains (drainPort_drainsBy _ p).port
  rw [control_of_quiet quiet]
  dsimp only
  split
  · exact drained.drains (sendCtl_sendsBy drained.heard).port.drains
  · exact drained

end

section
variable {s : State} {t port : Nat} (c : Carrying s port)
include c

theorem exec_controlFlitReceive_bad {f : CtlFlit} {codes : List Ecc} {crc : BitVec 32}
    (bad : flitFec (s.port port).width 0 codes = .uncorrectable ∨ crc ≠ ctlCrc f) : ∃ v : State,
      exec (.controlFlitReceive t port codes crc f) s = .next v ∧ v.lnk = ((s.arrive t).codewords port codes).lnk ∧
      v.mem = ((s.arrive t).codewords port codes).mem ∧ v.out = ((s.arrive t).codewords port codes).out := by
  change ∃ v : State, execControlFlitReceive t port codes crc f s = .next v ∧ _
  have inRange : ¬ 8 ≤ port := by have := c.port; omega
  unfold execControlFlitReceive
  dsimp only
  rw [arrive_port, if_neg (by simp [c.talks, c.loop, inRange])]
  split
  · exact ⟨_, rfl, rfl, rfl, rfl⟩
  · next h => exact ⟨_, if_pos (bad.resolve_left h), rfl, rfl, rfl⟩

theorem exec_controlFlitReceive_fine {f : CtlFlit} {codes : List Ecc} (decoded : flitFec (s.port port).width 0 codes ≠ .uncorrectable)
    (plain : f.recs = []) : exec (.controlFlitReceive t port codes (ctlCrc f) f) s = .next (((s.arrive t).codewords port codes).control port f) := by
  change execControlFlitReceive t port codes (ctlCrc f) f s = _
  have inRange : ¬ 8 ≤ port := by have := c.port; omega
  unfold execControlFlitReceive
  dsimp only
  rw [arrive_port, if_neg (by simp [c.talks, c.loop, inRange]), if_neg decoded, if_neg (fun h => h rfl), plain]
  rfl

theorem exec_delayReq (time : Nat) : exec (.delayReq t port time) s = .next ((s.arrive t).delayAnswer port time) := by
  change execDelayReq t port time s = _
  unfold execDelayReq
  simp [c.en, c.loop, c.port]

theorem exec_delayRsp (time turn : Nat) : exec (.delayRsp t port time turn) s = .next ((s.arrive t).delayTaken port time turn) := by
  change execDelayRsp t port time turn s = _
  unfold execDelayRsp
  simp [c.en, c.loop, c.port]

end

theorem exec_replayTimeout {s : State} {t port : Nat} (up : (s.port port).st = .up) (waits : (s.port port).replay ≠ []) (late : (s.port port).ackAt + 4 * us ≤ (s.arrive t).timer) :
    exec (.replayTimeout t port) s = .next ((s.arrive t).replay port) := by
  change execReplayTimeout t port s = _
  unfold execReplayTimeout
  simp [up, waits, late]

section
variable {s : State} {p : Nat}

/-- The state in which the unacknowledged flits have left again. -/
def State.replayed (s : State) (p : Nat) : State :=
  ((s.count 0x4013 p).resendFlits p).setPort p { ((s.count 0x4013 p).resendFlits p).port p with
    replays := (s.port p).replays + 1, ackAt := ((s.count 0x4013 p).resendFlits p).timer }

theorem replayed_port (s : State) (p : Nat) :
    PortIs { s.port p with replays := (s.port p).replays + 1, ackAt := s.timer } ((s.replayed p).port p) := by
  rw [State.replayed, setPort_port_same, resendFlits_timer, State.count_timer]
  exact congrArg (fun z : Port => { z with replays := (s.port p).replays + 1, ackAt := s.timer }) (resendFlits_sendsBy (s.count 0x4013 p) p).port

theorem flitsOut_replayed (s : State) (p : Nat) : flitsOut p (s.replayed p).out = (s.port p).replay.reverse ++ flitsOut p s.out :=
  flitsOut_resendFlits (s.count 0x4013 p) p

theorem replay_again (waits : (s.port p).replay ≠ []) (few : (s.port p).replays + 1 < 8) : s.replay p = s.replayed p := by
  unfold State.replay
  dsimp only
  rw [if_neg waits, if_neg (by omega)]
  rfl

/-- The eighth replay of a flit in succession retrains the port. -/
theorem replay_last (up : (s.port p).st = .up) (waits : (s.port p).replay ≠ []) (many : 8 ≤ (s.port p).replays + 1) :
    PortStands { s.port p with st := .retrain, tries := 0, replaylim := true, replays := 0, ackAt := s.timer } ((s.replay p).port p) := by
  have limit : s.replay p = (((s.replayed p).setPort p { (s.replayed p).port p with replaylim := true, replays := 0 }).linkEvent p 6).goRetrain p := by
    unfold State.replay
    dsimp only
    rw [if_neg waits, if_pos many]
    rfl
  have is := replayed_port s p
  have st : ((s.replayed p).port p).st = .up := (congrArg Port.st is :).trans up
  rw [limit]
  refine PortStands.trans ?_ (goRetrain_stands (by simpa using st))
  simp only [linkEvent_port, setPort_port_same]
  refine PortIs.stands ?_
  exact congrArg (fun z : Port => { z with st := .retrain, tries := 0, replaylim := true, replays := 0 }) is

end

/-! ### Delay of a link (R280) -/

section
variable {s : State} {port : Nat} (c : Carrying s port) (time : Nat)
include c

theorem delayAnswer_sendsBy : SendsBy port s (s.delayAnswer port time) := by
  have placed := putRec_sendsBy s.draw.2 port 0 (.delayRsp time (Config.turnaround s.free))
  obtain ⟨port, other, mgmt⟩ := placed.trans (sendCtl_sendsBy ((congrArg Port.loop placed.port :).trans c.loop))
  exact ⟨port, other, mgmt⟩

theorem delayAnswer_ctlOut : CtlOut (s.delayAnswer port time) port fun k => .delayRsp time (Config.turnaround s.free) ∈ k.recs :=
  putRec_sendCtl (s := s.draw.2) c.talks c.loop _

end

theorem delayAnswer_free (s : State) (port time : Nat) : (s.delayAnswer port time).free = s.free + 1 := sendCtl_free ..

theorem delayTaken_port (s : State) (port time turn : Nat) :
    (s.delayTaken port time turn).port port = { s.port port with delay := (s.timer - time - turn + 1) / 2 } := setPort_port_same ..

/-! ### The obligation on flits -/

theorem Carrying.arrive {s : State} {port : Nat} (c : Carrying s port) (t : Nat) : Carrying (s.arrive t) port :=
  have same := arrive_port s t port
  ⟨same ▸ c.en, same ▸ c.mode, same ▸ c.loop, same ▸ c.move, same ▸ c.st, c.port⟩

/-- Settles O39, by what each flit leaves of its port, and by the control flit that says so. -/
theorem flitsAreAcceptedOrAskedAgain : Obligations.FlitsAreAcceptedOrAskedAgain := by
  unfold Obligations.FlitsAreAcceptedOrAskedAgain
  refine ⟨fun w i lanes inGroup => ?_, fun i inGroup => group_of_one_lane inGroup, flitFec_uncorrectable_iff, fun s t port => ?_⟩
  · exact group_of_lanes lanes inGroup
  intro u x ready c
  have hc : Carrying u port := c.arrive t
  have hport : u.port port = x := arrive_port ..
  have hlnk : u.lnk = s.lnk := State.arrive_lnk s t
  have hmem : u.mem = s.mem := State.arrive_mem s t
  have hout : u.out = s.out := State.arrive_out s t
  have hfree : u.free = s.free := State.arrive_free s t
  refine ⟨fun f g first last decoded => ⟨exec_dataFlitReceive_idle ready c first last decoded, fun data ok next_ mgmt => ?_⟩,
    fun f g crc first last bad => ?_, fun f codes crc => ⟨fun bad => ?_, fun decoded quiet plain => ?_⟩, fun up waits late => ⟨fun few => ?_, fun many => ?_⟩,
    fun time => ?_, fun time turn => ?_⟩
  · obtain ⟨is, ctl⟩ := flitTaken_sendCtl hc ok (next_.trans (by rw [hport]))
    rw [hport] at is ctl
    refine .of_exec (exec_dataFlitReceive_taken ready c first last decoded data ok next_ mgmt) ⟨is, ctl, ?_, ?_⟩
    · rw [(sendCtl_sendsBy (by rw [flitTaken_port]; exact hc.loop)).mgmtIn, flitTaken_mgmtIn, hlnk]
    · rw [sendCtl_mem, flitTaken_mem, hmem]
  · obtain ⟨w, lnk, timer, hexec⟩ := exec_dataFlitReceive_bad (t := t) ready c first last bad
    have asked := askRetry_sendCtl c lnk
    rw [timer] at asked
    exact .of_exec hexec asked
  · obtain ⟨v, hexec, lnk, mem, out⟩ := exec_controlFlitReceive_bad (t := t) c bad
    have same : v.port port = (u.codewords port codes).port port := congrArg (fun l : LinkSt => lookD l.ports port Port.atReset) lnk
    refine .of_exec hexec ⟨?_, mem.trans ((codewords_mem ..).trans hmem), out.trans ((codewords_out ..).trans hout)⟩
    rw [same, codewords_port, hport]
  · have port_eq := codewords_port u port codes
    have told := control_told f (by rw [port_eq]; exact hc.loop) quiet
    rw [port_eq, hport] at told
    exact .of_exec (exec_controlFlitReceive_fine c decoded plain) ⟨told.freed, told.fallow, told.drained, told.expect⟩
  · have is := replayed_port u port
    have flits := flitsOut_replayed u port
    rw [hport] at is flits
    rw [hout] at flits
    exact .of_exec ((exec_replayTimeout up waits late).trans (congrArg _ (replay_again (hport ▸ waits) (hport ▸ few)))) ⟨is, flits⟩
  · have stands := replay_last (hport ▸ up) (hport ▸ waits) (hport ▸ many)
    rw [hport] at stands
    exact .of_exec (exec_replayTimeout up waits late) ⟨stands.st, stands.replaylim, stands.replays, stands.replay⟩
  · have sends := delayAnswer_sendsBy hc time
    have out := delayAnswer_ctlOut hc time
    rw [hfree] at out
    refine .of_exec (exec_delayReq c time) ⟨(congrArg (PortIs · _) hport).mp sends.port, fun q e => (sends.other q e).trans (arrive_port ..), ?_, out⟩
    exact (delayAnswer_free ..).trans (congrArg (· + 1) hfree)
  · refine .of_exec (exec_delayRsp c time turn) ⟨?_, fun q e => (setPort_port_other _ _ e).trans (arrive_port ..)⟩
    rw [delayTaken_port, hport]

/-! ### Writes of a port's control register, and training (R265, R281, R291) -/

/-- The port that a write of LNK_CTL_p leaves, before it changes its state. -/
def Port.ctlWritten (x : Port) (v : Nat) : Port :=
  { x with en := bitAt v 0, mode := if x.lock || bitsOf v 1 2 == 2 then x.mode else bitsOf v 1 2, fallowOk := bitAt v 3
           loop := bitAt v 5, lock := x.lock || bitAt v 31 }

/-- The mode that a port takes with its next training. -/
def Port.nextMode (x : Port) : Nat := if x.lock then x.mode else x.modeNext.getD x.mode

/-- A port that has begun its next training from `x`, or rests where its mode has none. -/
structure Trained (x y : Port) : Prop where
  en       : y.en = x.en
  st       : y.st = if x.nextMode ≤ 1 then .training else .down
  mode     : y.mode = x.nextMode
  modeNext : y.modeNext = none
  degraded : y.degraded = x.degraded
  lanes    : x.lanes = 0 → y.lanes = 0
  tries    : x.tries = 0 → y.tries = 0
  moving   : x.moving = false → y.moving = false

theorem Trained.stands {x y z : Port} (h : Trained x y) (k : PortStands y z) : Trained x z := by
  obtain ⟨en, st, mode, modeNext, degraded, lanes, tries, moving⟩ := h
  exact ⟨k.en.trans en, k.st.trans st, k.mode.trans mode, k.modeNext.trans modeNext, k.degraded.trans degraded,
    fun e => k.lanes.trans (lanes e), fun e => k.tries.trans (tries e), fun e => k.moving.trans (moving e)⟩

/-- What a port is as its next training begins: with fresh sequences where its mode changes. -/
def Port.renewed (x : Port) : Port :=
  if x.nextMode = x.mode then { x with mode := x.nextMode, modeNext := none } else { x with mode := x.nextMode, modeNext := none }.fresh

section
variable {s : State} {p : Nat}

theorem trainPort_of_mode (h : (s.port p).nextMode ≤ 1) :
    s.trainPort p = ((s.setPort p (s.port p).renewed).enterPort p .training).delayAsk p := by
  unfold State.trainPort
  exact if_pos (Nat.le_one_iff_eq_zero_or_eq_one.1 h)

theorem trainPort_of_none (h : ¬ (s.port p).nextMode ≤ 1) :
    s.trainPort p = (s.setPort p { s.port p with mode := (s.port p).nextMode, modeNext := none }.fresh).enterPort p .down := by
  unfold State.trainPort
  exact if_neg (fun e => h (Nat.le_one_iff_eq_zero_or_eq_one.2 e))

theorem trainPort_trained (s : State) (p : Nat) : Trained (s.port p) ((s.trainPort p).port p) := by
  by_cases h : (s.port p).nextMode ≤ 1
  · rw [trainPort_of_mode h]
    refine Trained.stands (Trained.stands ?_ (enterPort_port _ p .training)) (delayAsk_stands _ p)
    rw [setPort_port_same]
    unfold Port.renewed
    split
    · exact ⟨rfl, (if_pos h).symm, rfl, rfl, rfl, id, id, id⟩
    · exact ⟨rfl, (if_pos h).symm, rfl, rfl, rfl, fun _ => rfl, fun _ => rfl, fun _ => rfl⟩
  · rw [trainPort_of_none h]
    refine Trained.stands ?_ (enterPort_port _ p .down)
    rw [setPort_port_same]
    exact ⟨rfl, (if_neg h).symm, rfl, rfl, rfl, fun _ => rfl, fun _ => rfl, fun _ => rfl⟩

/-- A port that begins training in the fabric mode, and is not looped, asks for the delay of its link. -/
theorem trainPort_ctlOut (fabric : (s.port p).nextMode = 0) (en : (s.port p).en = true) (heard : (s.port p).loop = false) :
    CtlOut (s.trainPort p) p fun c => .delayReq (s.timer + Config.residence s.free) ∈ c.recs := by
  rw [trainPort_of_mode (by omega)]
  have stands := enterPort_port (s.setPort p (s.port p).renewed) p .training
  rw [setPort_port_same] at stands
  have renewed : (s.port p).renewed.en = true ∧ (s.port p).renewed.mode = 0 ∧ (s.port p).renewed.loop = false := by
    unfold Port.renewed
    split <;> exact ⟨en, fabric, heard⟩
  obtain ⟨en', mode', heard'⟩ := renewed
  have out := delayAsk_ctlOut (s := (s.setPort p (s.port p).renewed).enterPort p .training) (p := p)
    (talks_iff.2 ⟨stands.en.trans en', stands.mode.trans mode',
      by rw [stands.st]; exact ⟨nofun, nofun⟩⟩) (stands.loop.trans heard')
  rw [enterPort_timer, enterPort_free] at out
  exact out

/-- A port goes down, with fresh sequences. -/
def State.portDown (s : State) (p : Nat) : State :=
  ((s.enterPort p .down).setPort p ((s.enterPort p .down).port p).fresh).noteAll

theorem writeLnkCtl_eq (s : State) (p v : Nat) : s.writeLnkCtl p v =
    let x := s.port p
    let y := x.ctlWritten v
    let a := if (x.en && !y.en) || (y.mode != x.mode && x.st != .down) then (s.setPort p y).portDown p else s.setPort p y
    let b := if y.en && (a.port p).st == .down && (y.mode == 0 || y.mode == 1) then a.trainPort p else a
    if bitAt v 4 && (b.port p).st == .up then b.goRetrain p else b := rfl

/-- A port that is turned off goes down, with nothing to replay. -/
theorem writeLnkCtl_off {v : Nat} (off : bitAt v 0 = false) (on : (s.port p).en = true) :
    let y := (s.writeLnkCtl p v).port p
    y.en = false ∧ y.st = .down ∧ y.replay = [] ∧ y.tx = [] := by
  have off' : ((s.port p).ctlWritten v).en = false := off
  have down : (((s.setPort p ((s.port p).ctlWritten v)).portDown p).port p).en = false ∧
      (((s.setPort p ((s.port p).ctlWritten v)).portDown p).port p).st = .down := by
    rw [State.portDown, noteAll_port, setPort_port_same]
    have stands := enterPort_port (s.setPort p ((s.port p).ctlWritten v)) p .down
    rw [setPort_port_same] at stands
    exact ⟨stands.en.trans off, stands.st⟩
  have eq : s.writeLnkCtl p v = (s.setPort p ((s.port p).ctlWritten v)).portDown p := by
    rw [writeLnkCtl_eq]
    simp [on, off', down.2]
  rw [eq]
  refine ⟨down.1, down.2, ?_⟩
  rw [State.portDown, noteAll_port, setPort_port_same]
  exact ⟨rfl, rfl⟩

theorem writeLnkCtl_train {v : Nat} (on : bitAt v 0 = true) (fabric : bitsOf v 1 2 = 0) (free : (s.port p).lock = false)
    (down : (s.port p).st = .down) : s.writeLnkCtl p v = (s.setPort p ((s.port p).ctlWritten v)).trainPort p := by
  have on' : ((s.port p).ctlWritten v).en = true := on
  have mode : ((s.port p).ctlWritten v).mode = 0 := by simp [Port.ctlWritten, free, fabric]
  have down' : ((s.port p).ctlWritten v).st = .down := down
  have rests : (((s.setPort p ((s.port p).ctlWritten v)).trainPort p).port p).st ≠ .up := by
    rw [(trainPort_trained ..).st]
    split <;> nofun
  rw [writeLnkCtl_eq]
  simp [on', mode, down, down', rests]

/-- A port that is turned on in the fabric mode trains, in the mode that waits for it, or rests where that mode has no training. -/
theorem writeLnkCtl_trained {v : Nat} (on : bitAt v 0 = true) (fabric : bitsOf v 1 2 = 0) (free : (s.port p).lock = false)
    (down : (s.port p).st = .down) : Trained ((s.port p).ctlWritten v) ((s.writeLnkCtl p v).port p) ∧
      (((s.port p).ctlWritten v).nextMode = 0 → bitAt v 5 = false →
        CtlOut (s.writeLnkCtl p v) p fun c => .delayReq (s.timer + Config.residence s.free) ∈ c.recs) := by
  have trained := trainPort_trained (s.setPort p ((s.port p).ctlWritten v)) p
  have out := trainPort_ctlOut (s := s.setPort p ((s.port p).ctlWritten v)) (p := p)
  rw [setPort_port_same] at trained out
  rw [writeLnkCtl_train on fabric free down]
  exact ⟨trained, fun fabric' heard => out fabric' on heard⟩

theorem nextMode_ctlWritten {x : Port} {v : Nat} (fabric : bitsOf v 1 2 = 0) (free : x.lock = false) :
    (x.ctlWritten v).nextMode = if bitAt v 31 then 0 else x.modeNext.getD 0 := by
  simp [Port.nextMode, Port.ctlWritten, free, fabric]

theorem writeLnkCtl_retrain {v : Nat} (on : bitAt v 0 = true) (same : bitsOf v 1 2 = (s.port p).mode)
    (up : (s.port p).st = .up) (again : bitAt v 4 = true) : s.writeLnkCtl p v = (s.setPort p ((s.port p).ctlWritten v)).goRetrain p := by
  have on' : ((s.port p).ctlWritten v).en = true := on
  have mode : ((s.port p).ctlWritten v).mode = (s.port p).mode := by simp [Port.ctlWritten, same]
  have up' : ((s.port p).ctlWritten v).st = .up := up
  rw [writeLnkCtl_eq]
  simp [on', mode, up', again]

/-- An UP port whose mode stays retrains. -/
theorem writeLnkCtl_retrained {v : Nat} (on : bitAt v 0 = true) (same : bitsOf v 1 2 = (s.port p).mode)
    (up : (s.port p).st = .up) (again : bitAt v 4 = true) :
    PortStands { (s.port p).ctlWritten v with st := .retrain, tries := 0 } ((s.writeLnkCtl p v).port p) := by
  have stands := goRetrain_stands (s := s.setPort p ((s.port p).ctlWritten v)) (p := p) (by rw [setPort_port_same]; exact up)
  rw [setPort_port_same] at stands
  rw [writeLnkCtl_retrain on same up again]
  exact stands

end

/-! ### A port that fails, and the lanes that remain (R282, R283) -/

/-- A fold that keeps what it has or takes the next of a list ends on one of the list, or where it began. -/
theorem foldl_pick_mem {α : Type} {f : Option α → α → Option α} (pick : ∀ b x, f b x = b ∨ f b x = some x) {l : List α} {b : Option α} {y : α}
    (h : l.foldl f b = some y) : b = some y ∨ y ∈ l := by
  induction l generalizing b with
  | nil => exact .inl h
  | cons x l ih =>
    rcases ih h with e | m
    · rcases pick b x with k | k
      · exact .inl (k.symm.trans e)
      · exact .inr (List.mem_cons.2 (.inl (Option.some.inj (e.symm.trans k))))
    · exact .inr (List.mem_cons_of_mem _ m)

theorem bestPort_mem {s : State} {vl q : Nat} {l : List Nat} (h : s.bestPort vl l = some q) : q ∈ l := by
  refine List.mem_of_mem_filter ((foldl_pick_mem (fun b x => ?_) h).resolve_left nofun)
  cases b with
  | none => exact .inr rfl
  | some a =>
    dsimp only
    split
    · exact .inr rfl
    · exact .inl rfl

/-- What a failed port had to send goes out by other ports, and it stays failed. -/
theorem failPort_st (s : State) (p : Nat) : ((s.failPort p).port p).st = .failed := by
  unfold State.failPort
  dsimp only
  refine List.foldlRecOn (motive := fun v : State => (v.port p).st = .failed) _ _ ?_ fun v h k _ => ?_
  · rw [countBy_port, setPort_port_same, linkEvent_port]
    exact (enterPort_port s p .failed).st
  · split
    · next q hq =>
      have among : q ∈ (portList (v.routeMask ((k.head?.map (·.dest)).getD 0))).filter (· != p) := by
        rcases best : v.bestPort ((k.head?.map (·.vl)).getD 0) ((portList (v.routeMask ((k.head?.map (·.dest)).getD 0))).filter (· != p)) with _ | r
        · rw [best] at hq
          exact List.mem_of_find?_eq_some hq
        · rw [best] at hq
          exact Option.some.inj hq ▸ bestPort_mem best
      have other : p ≠ q := (bne_iff_ne.1 (List.mem_filter.1 among).2).symm
      rw [(drainPort_drainsBy _ q).other p other, setPort_port_other _ _ other]
      exact h
    · exact h

theorem loseLanes_none {s : State} {p : Nat} {failed : List Nat} (h : (s.port p).halves failed = none) :
    s.loseLanes p failed = (false, s.failPort p) := by
  unfold State.loseLanes
  dsimp only
  rw [h]

/-- A port that still runs has the lanes that remain, and is degraded where they are others than before. -/
theorem loseLanes_some {s : State} {p : Nat} {failed : List Nat} {l : Nat} (h : (s.port p).halves failed = some l) :
    (s.loseLanes p failed).1 = true ∧ ∃ d, (s.loseLanes p failed).2.port p = { s.port p with lanes := l, degraded := d } ∧
      (l ≠ (s.port p).lanes → (s.port p).lanes ≠ 3 → d = true) := by
  unfold State.loseLanes
  dsimp only
  rw [h]
  dsimp only
  split
  · next same => exact ⟨rfl, _, setPort_port_same .., fun other not => absurd (same.resolve_left other).2 not⟩
  · exact ⟨rfl, true, by rw [linkEvent_port, setPort_port_same], fun _ _ => rfl⟩

@[simp] theorem fallowLeft_port (s : State) (p : Nat) : s.fallowLeft.port p = s.port p := by
  unfold State.fallowLeft; split <;> rfl

/-! ### A port that comes up (R281, R284) -/

/-- What becoming UP with its peer makes of a port, before the ends have exchanged their ACKSEQ. -/
def Port.upWith (x : Port) (peer now : Nat) : Port :=
  { x with peer := peer % 2 ^ 14, peerv := true, tries := 0, replays := 0, ackAt := now, moving := false, resync := x.replay != [] }

/-- The state in which a port has come up, before the ends have exchanged their ACKSEQ. -/
def State.upped (s : State) (p peer : Nat) : State :=
  let v := ((s.enterPort p .up).setPort p (((s.enterPort p .up).port p).upWith peer (s.enterPort p .up).timer)).linkEvent p 1
  if (s.port p).moving then (v.linkEvent p 8).fallowLeft else v

section
variable (s : State) (p peer : Nat)

theorem portUp_eq : s.portUp p peer = ((s.upped p peer).sendCtl p).drainPort p := by
  unfold State.portUp State.upped Port.upWith
  rfl

theorem upped_port : PortStands ({ s.port p with st := .up }.upWith peer s.timer) ((s.upped p peer).port p) := by
  have stands := enterPort_port s p .up
  have eq : (s.upped p peer).port p = ((s.enterPort p .up).port p).upWith peer s.timer := by
    unfold State.upped
    split <;> simp only [fallowLeft_port, linkEvent_port, setPort_port_same, enterPort_timer]
  rw [eq]
  exact congrArg (fun z : Port => z.upWith peer s.timer) stands

/-- A port that has come up: what waits to be acknowledged waits for the far end. -/
theorem portUp_cases : ∃ w : State, PortStands ({ s.port p with st := .up }.upWith peer s.timer) (w.port p) ∧ DrainsBy p w (s.portUp p peer) ∧
    ((s.port p).en = true → (s.port p).mode = 0 → (s.port p).loop = false →
      CtlOut (s.portUp p peer) p fun c => c.ackseq = (s.port p).expect - 1) := by
  have stands := upped_port s p peer
  have drains := drainPort_drainsBy ((s.upped p peer).sendCtl p) p
  rw [portUp_eq]
  refine ⟨_, stands.trans (sendCtl_stands ..), drains, fun en mode heard => ?_⟩
  obtain ⟨recs, out⟩ := sendCtl_next (s := s.upped p peer) (p := p)
    (talks_iff.2 ⟨stands.en.trans en, stands.mode.trans mode,
      by rw [stands.st]; exact ⟨nofun, nofun⟩⟩) (stands.loop.trans heard)
  exact ⟨_, _, _, drains.out out, congrArg (· - 1) stands.expect⟩

end

/-- A port that has come up on some lanes with its peer: what waits to be acknowledged waits for the far end. -/
structure ComesUp (x : Port) (lanes peer : Nat) (y : Port) : Prop where
  st     : y.st = .up
  lanes  : y.lanes = lanes
  peer   : y.peer = peer % 2 ^ 14
  peerv  : y.peerv = true
  tries  : y.tries = 0
  moving : y.moving = false
  waits  : x.replay ≠ [] → y.replay = x.replay ∧ y.resync = true

/-- A port that runs on the lanes that trained comes up, and tells the far end what it expects. -/
theorem loseLanes_portUp {s : State} {p : Nat} {failed : List Nat} {l : Nat} (runs : (s.port p).halves failed = some l) (peer : Nat) :
    let v := (s.loseLanes p failed).2.portUp p peer
    ComesUp (s.port p) l peer (v.port p) ∧
    ((s.port p).en = true → (s.port p).mode = 0 → (s.port p).loop = false → CtlOut v p fun c => c.ackseq = (s.port p).expect - 1) := by
  obtain ⟨-, d, lost, -⟩ := loseLanes_some runs
  obtain ⟨w, stands, drains, out⟩ := portUp_cases (s.loseLanes p failed).2 p peer
  rw [lost] at stands out
  have waiting (waits : (s.port p).replay ≠ []) : (w.port p).resync = true := stands.resync.trans (bne_iff_ne.2 waits)
  have port := drains.port
  exact ⟨⟨port.st.trans stands.st, port.lanes.trans stands.lanes, port.peer.trans stands.peer, port.peerv.trans stands.peerv,
    port.tries.trans stands.tries, port.moving.trans stands.moving,
    fun waits => ⟨(drains.waits (waiting waits)).trans stands.replay, port.resync.trans (waiting waits)⟩⟩, out⟩

/-- A lane that is lost for good leaves the half that runs, and the port retrains. -/
theorem loseLane_goRetrain {s : State} {p lane : Nat} (up : (s.port p).st = .up) (full : (s.port p).lanes = 0) :
    let r := s.loseLanes p [lane]
    r.1 = true ∧ ((r.2.goRetrain p).port p).st = .retrain ∧ ((r.2.goRetrain p).port p).degraded = true ∧
      ((r.2.goRetrain p).port p).lanes = if lane < 4 then 2 else 1 := by
  have runs : (s.port p).halves [lane] = some (if lane < 4 then 2 else 1) := by
    by_cases low : lane < 4
    · simp [Port.halves, full, low, show ¬ 4 ≤ lane by omega]
    · simp [Port.halves, full, low, show 4 ≤ lane by omega]
  obtain ⟨goes, d, lost, degraded⟩ := loseLanes_some runs
  have stands := goRetrain_stands (s := (s.loseLanes p [lane]).2) (p := p) (by rw [lost]; exact up)
  rw [lost] at stands
  rw [full] at degraded
  exact ⟨goes, stands.st, stands.degraded.trans (degraded (by split <;> omega) (by omega)), stands.lanes⟩

/-! ### The bits of a control word (R291) -/

theorem bitAt_eq_testBit (v pos : Nat) : bitAt v pos = v.testBit pos := by
  rw [bitAt, Nat.testBit_eq_decide_div_mod_eq]; rfl

theorem testBit_bitsOf (v pos w i : Nat) : (bitsOf v pos w).testBit i = (decide (i < w) && v.testBit (pos + i)) := by
  rw [bitsOf, Nat.testBit_mod_two_pow, Nat.testBit_div_two_pow, Nat.add_comm]

/-- RETRAIN set in a control word: its other bits stand. -/
theorem bitAt_or_retrain (w : BitVec 32) (pos : Nat) : bitAt (w ||| 16).toNat pos = (bitAt w.toNat pos || decide (4 = pos)) := by
  rw [bitAt_eq_testBit, bitAt_eq_testBit, BitVec.toNat_or, Nat.testBit_or, show (16 : BitVec 32).toNat = 2 ^ 4 from rfl, Nat.testBit_two_pow]

theorem bitsOf_or_retrain (w : BitVec 32) : bitsOf (w ||| 16).toNat 1 2 = bitsOf w.toNat 1 2 := by
  refine Nat.eq_of_testBit_eq fun i => ?_
  rw [testBit_bitsOf, testBit_bitsOf, ← bitAt_eq_testBit, ← bitAt_eq_testBit, bitAt_or_retrain]
  by_cases h : i < 2
  · rw [decide_eq_false (show ¬ 4 = 1 + i by omega), Bool.or_false]
  · rw [decide_eq_false h]; rfl

/-! ### The commands and events of a port (R281 to R284) -/

section
variable {s : State} {t port : Nat}

theorem exec_portEnable (ready : s.ready = true) (inRange : port < 8) (w : BitVec 32) :
    exec (.portEnable t port w) s = .next ((s.arrive t).writeLnkCtl port w.toNat) := by
  change execPortEnable t port w s = _
  unfold execPortEnable
  simp [ready, inRange]

theorem exec_retrain (ready : s.ready = true) (inRange : port < 8) (w : BitVec 32) :
    exec (.retrain t port w) s = .next ((s.arrive t).writeLnkCtl port (w ||| 16).toNat) := by
  change execRetrain t port w s = _
  unfold execRetrain
  simp [ready, inRange]

section
variable (clock : s.boot.fabClk = true)
include clock

theorem exec_trainingComplete (inRange : port < 8) (trains : (s.port port).st = .training ∨ (s.port port).st = .retrain) (peer : Nat) (failed : List Nat) :
    let r := (s.arrive t).loseLanes port failed
    exec (.trainingComplete t port peer failed) s = .next (if r.1 then r.2.portUp port peer else r.2) := by
  change execTrainingComplete t port peer failed s = _
  unfold execTrainingComplete
  dsimp only
  rw [arrive_port, State.arrive_boot, if_neg (by simp [clock, inRange]), if_neg (by rcases trains with h | h <;> simp [h]),
    if_neg (by rcases trains with h | h <;> simp [h])]

theorem exec_trainingComplete_fallow (inRange : port < 8) (rests : (s.port port).st = .fallow) (moves : (s.port port).moving = true) (peer : Nat)
    (failed : List Nat) : exec (.trainingComplete t port peer failed) s = .next (
      if 0 ∈ failed then (((s.arrive t).setPort port { s.port port with moving := false, lanes := 0 }).trainPort port).fallowLeft
      else (((s.arrive t).setPort port { s.port port with moving := false, tries := 0 }).linkEvent port 1).sendCtl port) := by
  change execTrainingComplete t port peer failed s = _
  unfold execTrainingComplete
  dsimp only
  rw [arrive_port, State.arrive_boot, if_neg (by simp [clock, inRange]), if_pos ⟨rests, moves⟩]
  simp only [List.contains_eq_mem, decide_eq_true_eq]
  split <;> rfl

variable (tries : (s.port port).st = .retrain ∨ ((s.port port).st = .fallow ∧ (s.port port).moving = true))
include tries

theorem exec_retrainAttemptFailed_few (few : (s.port port).tries + 1 < 3) : exec (.retrainAttemptFailed t port) s =
    .next ((s.arrive t).setPort port { s.port port with tries := (s.port port).tries + 1 }) := by
  change execRetrainAttemptFailed t port s = _
  unfold execRetrainAttemptFailed
  dsimp only
  rw [arrive_port, State.arrive_boot, if_neg (by rcases tries with h | ⟨h, k⟩ <;> simp [*]), if_pos few]

theorem exec_retrainAttemptFailed_last (many : 3 ≤ (s.port port).tries + 1) : exec (.retrainAttemptFailed t port) s =
    .next (((s.arrive t).setPort port { s.port port with
      tries := 0, moving := false, lanes := if (s.port port).moving then 0 else (s.port port).lanes }).trainPort port).fallowLeft := by
  change execRetrainAttemptFailed t port s = _
  unfold execRetrainAttemptFailed
  dsimp only
  rw [arrive_port, State.arrive_boot, if_neg (by rcases tries with h | ⟨h, k⟩ <;> simp [*]), if_neg (by omega)]

end

theorem exec_trainingTimeout (trains : (s.port port).st = .training) (late : (s.port port).since + 1000 * ms ≤ (s.arrive t).timer) :
    exec (.trainingTimeout t port) s = .next ((s.arrive t).failPort port) := by
  change execTrainingTimeout t port s = _
  unfold execTrainingTimeout
  simp [trains, late]

/-- A lane that carries data of a port on all its lanes or on the lower half. -/
def Port.uses (x : Port) (lane : Nat) : Prop := (x.lanes = 0 ∧ lane < 8) ∨ (x.lanes = 1 ∧ lane < 4)

theorem exec_laneAlignmentLoss (up : (s.port port).st = .up) {lane : Nat} (uses : (s.port port).uses lane) (forGood : Bool) :
    let r := if forGood then (s.arrive t).loseLanes port [lane] else (true, s.arrive t)
    exec (.laneAlignmentLoss t port lane forGood) s = .next (if r.1 then r.2.goRetrain port else r.2) := by
  change execLaneAlignmentLoss t port lane forGood s = _
  unfold execLaneAlignmentLoss
  dsimp only
  rw [arrive_port, if_neg (by rcases uses with ⟨h, k⟩ | ⟨h, k⟩ <;> simp [up, h, k])]

theorem exec_fecLimit (up : (s.port port).st = .up) : exec (.fecLimit t port) s =
    .next ((((s.arrive t).setPort port { s.port port with uncorr := true }).linkEvent port 5).goRetrain port) := by
  change execFecLimit t port s = _
  unfold execFecLimit
  dsimp only
  rw [arrive_port, if_neg (by simp [up])]

/-! ### Fallow (R284) -/

theorem mayMove_iff (s : State) : s.mayMove = true ↔ (∀ p ∈ s.lnk.ports, p.2.moving = false) ∧ ∃ m, s.phs.markAt = some m ∧ s.timer ≤ m + 80 := by
  simp [State.mayMove, Option.any_eq_true]

/-- A port that begins a move into or out of fallow. -/
theorem beginMove_port (s : State) (p : Nat) (st : PortState) (lanes : Nat) :
    PortStands { s.port p with st, lanes, moving := true, tries := 0 }
      (((s.enterPort p st).setPort p { (s.enterPort p st).port p with lanes, moving := true, tries := 0 }).port p) := by
  rw [setPort_port_same]
  exact congrArg (fun z : Port => { z with lanes, moving := true, tries := 0 }) (enterPort_port s p st)

theorem linkEvent_stands {s : State} {p : Nat} {y : Port} (code : Nat) (h : PortStands y (s.port p)) : PortStands y ((s.linkEvent p code).port p) := by
  rw [linkEvent_port]; exact h

/-- The node as its first port begins to move into fallow, or as it was. -/
def State.fallowBegun (s : State) : State :=
  if !s.lnk.ports.any fun p => p.2.st == .fallow then { s with lnk := { s.lnk with fallowFrom := some s.pwr.stageAt, fallowTo := none } } else s

theorem exec_fallowEnter (stage : 7 ≤ s.pwr.stage) (up : (s.port port).st = .up) (mode : (s.port port).mode = 0) (allowed : (s.port port).fallowOk = true)
    (drained : (s.port port).replay = []) (farDrained : (s.port port).peerDrained = true) (may : (s.arrive t).mayMove = true) :
    let w := ((s.arrive t).fallowBegun.count 0x4014 port).enterPort port .fallow
    exec (.fallowEnter t port) s = .next (((w.setPort port { w.port port with lanes := 3, moving := true, tries := 0 }).linkEvent port 7).delayAsk port) := by
  change execFallowEnter t port s = _
  unfold execFallowEnter State.fallowBegun
  dsimp only
  rw [arrive_port, State.arrive_pwr, if_neg (by simp [stage, up, mode, allowed, drained, farDrained, may])]

theorem exec_fallowExit (stage : s.pwr.stage < 7) (rests : (s.port port).st = .fallow) (may : (s.arrive t).mayMove = true) :
    let w := ((s.arrive t).count 0x4014 port).enterPort port .retrain
    exec (.fallowExit t port) s = .next ((w.setPort port { w.port port with lanes := 0, moving := true, tries := 0 }).delayAsk port) := by
  change execFallowExit t port s = _
  unfold execFallowExit
  dsimp only
  rw [arrive_port, State.arrive_pwr, if_neg (by simp [stage, rests, may])]

/-- While a port moves, or no mark has been taken of late, none begins to move. -/
theorem exec_fallow_of_not_mayMove (not : (s.arrive t).mayMove = false) {cmd : Instr} (move : cmd = .fallowEnter t port ∨ cmd = .fallowExit t port) :
    exec cmd s = .next (s.arrive t) := by
  rcases move with rfl | rfl
  · change execFallowEnter t port s = _
    unfold execFallowEnter
    simp [not]
  · change execFallowExit t port s = _
    unfold execFallowExit
    simp [not]

end

/-! ### The obligation on port states -/

/-- Settles O40, by the port that each command and event leaves. -/
theorem portsTrainRetrainFailAndRest : Obligations.PortsTrainRetrainFailAndRest := by
  unfold Obligations.PortsTrainRetrainFailAndRest
  intro s t port u x ready clock inRange
  have hport : u.port port = x := arrive_port ..
  have hfree : u.free = s.free := State.arrive_free s t
  have may (still : ∀ p ∈ s.lnk.ports, p.2.moving = false) (marked : ∃ m, s.phs.markAt = some m ∧ u.timer ≤ m + 80) : u.mayMove = true :=
    (mayMove_iff u).2 ⟨by rw [State.arrive_lnk]; exact still, by rw [State.arrive_phs]; exact marked⟩
  refine ⟨fun w => ⟨fun off on => ?_, fun on fabric free down => ?_, fun on same en up => ?_⟩, fun peer failed trains => ⟨fun l runs => ?_, fun lost => ?_⟩,
    fun peer failed rests moves => ⟨fun has => ?_, fun lost => ?_⟩, fun tries => ⟨fun few => ?_, fun many => ?_⟩, fun trains late => ?_,
    fun lane up lanes inPort => ⟨?_, ?_⟩, fun lane up lanes inPort => ?_, fun up => ?_, fun still marked => ⟨fun stage up mode allowed drained farDrained => ?_,
      fun stage rests => ?_⟩, fun moves cmd move => exec_fallow_of_not_mayMove ?_ move⟩
  · exact .of_exec (exec_portEnable ready inRange w) (writeLnkCtl_off off (hport ▸ on))
  · obtain ⟨trained, out⟩ := writeLnkCtl_trained on fabric (hport ▸ free) (hport ▸ down)
    rw [hport] at trained out
    refine .of_exec (exec_portEnable ready inRange w) ?_
    rw [← nextMode_ctlWritten fabric free, ← hfree]
    exact ⟨trained.en.trans on, trained.st, trained.mode, trained.modeNext, trained.degraded, out⟩
  · have again : bitAt (w ||| 16).toNat 4 = true := by rw [bitAt_or_retrain]; simp
    have on' : bitAt (w ||| 16).toNat 0 = true := by rw [bitAt_or_retrain, on]; rfl
    have stands := writeLnkCtl_retrained on' ((bitsOf_or_retrain w).trans (same.trans (congrArg Port.mode hport.symm))) (hport ▸ up) again
    rw [hport] at stands
    exact .of_exec (exec_retrain ready inRange w) ⟨stands.st, stands.tries, stands.replay⟩
  · obtain ⟨up, out⟩ := loseLanes_portUp (hport.symm ▸ runs) peer
    rw [hport] at up out
    have goes : (u.loseLanes port failed).1 = true := (loseLanes_some (hport.symm ▸ runs)).1
    have hexec := exec_trainingComplete (t := t) clock inRange trains peer failed
    dsimp only at hexec
    rw [if_pos goes] at hexec
    exact .of_exec hexec ⟨up.st, up.lanes, up.peer, up.peerv, up.tries, up.moving, up.waits, out⟩
  · have hexec := exec_trainingComplete (t := t) clock inRange trains peer failed
    rw [loseLanes_none (s := s.arrive t) (hport.symm ▸ lost)] at hexec
    exact .of_exec hexec (failPort_st ..)
  · have stands := sendCtl_stands ((u.setPort port { x with moving := false, tries := 0 }).linkEvent port 1) port
    rw [linkEvent_port, setPort_port_same] at stands
    have hexec := exec_trainingComplete_fallow (t := t) clock inRange rests moves peer failed
    rw [if_neg has] at hexec
    exact .of_exec hexec ⟨stands.st.trans rests, stands.lanes, stands.moving, stands.tries⟩
  · have trained := trainPort_trained (u.setPort port { x with moving := false, lanes := 0 }) port
    rw [setPort_port_same, ← fallowLeft_port] at trained
    have hexec := exec_trainingComplete_fallow (t := t) clock inRange rests moves peer failed
    rw [if_pos lost] at hexec
    exact .of_exec hexec ⟨trained.st, trained.lanes rfl, trained.moving rfl⟩
  · exact .of_exec (exec_retrainAttemptFailed_few clock tries few) (setPort_port_same ..)
  · have trained := trainPort_trained (u.setPort port { x with tries := 0, moving := false, lanes := if x.moving then 0 else x.lanes }) port
    rw [setPort_port_same, ← fallowLeft_port] at trained
    exact .of_exec (exec_retrainAttemptFailed_last clock tries many) ⟨trained.st, trained.mode, trained.modeNext, trained.tries rfl⟩
  · exact .of_exec (exec_trainingTimeout trains late) (failPort_st ..)
  · have stands := goRetrain_stands (s := u) (p := port) (hport ▸ up)
    rw [hport] at stands
    exact .of_exec (exec_laneAlignmentLoss up (.inl ⟨lanes, inPort⟩) false) ⟨stands.st, stands.lanes.trans lanes⟩
  · obtain ⟨goes, left⟩ := loseLane_goRetrain (s := u) (p := port) (lane := lane) (hport ▸ up) (hport ▸ lanes)
    have hexec := exec_laneAlignmentLoss (t := t) up (.inl ⟨lanes, inPort⟩) true
    dsimp only at hexec
    rw [if_pos rfl, if_pos goes] at hexec
    exact .of_exec hexec left
  · have lost : x.halves [lane] = none := by simp [Port.halves, lanes, inPort]
    have hexec := exec_laneAlignmentLoss (t := t) up (.inr ⟨lanes, inPort⟩) true
    dsimp only at hexec
    rw [if_pos rfl, loseLanes_none (s := s.arrive t) (hport.symm ▸ lost)] at hexec
    exact .of_exec hexec (failPort_st ..)
  · have stands := goRetrain_stands (s := (u.setPort port { x with uncorr := true }).linkEvent port 5) (p := port) (by
      rw [linkEvent_port, setPort_port_same]; exact up)
    rw [linkEvent_port, setPort_port_same] at stands
    exact .of_exec (exec_fecLimit up) ⟨stands.st, stands.uncorr⟩
  · have stands := (linkEvent_stands 7 (beginMove_port (u.fallowBegun.count 0x4014 port) port .fallow 3)).trans (delayAsk_stands _ port)
    exact .of_exec (exec_fallowEnter stage up mode allowed drained farDrained (may still marked)) ⟨stands.st, stands.lanes, stands.moving, stands.tries⟩
  · have stands := (beginMove_port (u.count 0x4014 port) port .retrain 0).trans (delayAsk_stands _ port)
    exact .of_exec (exec_fallowExit stage rests (may still marked)) ⟨stands.st, stands.lanes, stands.moving, stands.tries⟩
  · rw [Bool.eq_false_iff, ne_eq, mayMove_iff]
    obtain ⟨q, mem, moving⟩ := moves
    rintro ⟨still, -⟩
    have := still q (by rw [State.arrive_lnk]; exact mem)
    rw [moving] at this
    cases this

/-! ### Buckets brought up to a time (R335) -/

/-- A bucket that has been brought up to a time stands there. -/
theorem settle_settle (x : Queue) (now : Nat) (l : List Msg) (e : List (Nat × Phase × Nat)) :
    ({ x.settle now with waiting := l, elig := e } : Queue).settle now = { x.settle now with waiting := l, elig := e } := by
  have done : (now - (x.settle now).tokAt) / 16 = 0 := by
    unfold Queue.settle Queue.earn
    dsimp only
    split
    · assumption
    · dsimp only
      omega
  unfold Queue.settle at done ⊢
  generalize x.earn (x.waiting != []) now = y at done ⊢
  unfold Queue.earn
  exact if_pos done

/-- What a queue is but for its bucket stands as the bucket is brought up to a time. -/
theorem settle_eq (x : Queue) (now : Nat) : x.settle now =
    { x with tokens := (x.settle now).tokens, tokAt := (x.settle now).tokAt, paidAt := (x.settle now).paidAt } := by
  unfold Queue.settle Queue.earn
  dsimp only
  split <;> rfl

/-- A queue `y` is `x` at a time, with one message. -/
def HoldsOne (x : Queue) (now : Nat) (m : Msg) (y : Queue) : Prop := y = { x.settle now with waiting := [m], elig := y.elig }

theorem HoldsOne.settle {x y : Queue} {now : Nat} {m : Msg} (h : HoldsOne x now m y) : y.settle now = y := by
  rw [h]; exact settle_settle ..

theorem noted_eq (s : State) (q : Nat) (x : Queue) : s.noted q x = { x with elig := (s.noted q x).elig } := by
  unfold State.noted; split <;> rfl

theorem HoldsOne.noted {x y : Queue} {now : Nat} {m : Msg} (s : State) (q : Nat) (h : HoldsOne x now m y) : HoldsOne x now m (s.noted q y) := by
  rw [HoldsOne, noted_eq]
  exact congrArg (fun z : Queue => { z with elig := (s.noted q y).elig }) h

/-! ### The one egress queue of a node (R331, R332) -/

/-- The node has one egress queue, and no producer waits. -/
structure OneQueue (s : State) (q : Nat) (x : Queue) : Prop where
  qs   : s.egq.qs = [(q, x)]
  held : s.egq.held = []

section
variable {s : State} {q : Nat} {x : Queue} (one : OneQueue s q x)
include one

theorem OneQueue.queue : s.queue q = x := by
  rw [State.queue, one.qs]; simp [lookD, look]

theorem OneQueue.setQueue (y : Queue) : OneQueue (s.setQueue q y) q y :=
  ⟨by simp [State.setQueue, one.qs, put], one.held⟩

theorem OneQueue.note : OneQueue (s.note q) q (s.noted q x) := by
  have := one.setQueue (s.noted q x)
  rw [State.note, one.queue]
  exact this

theorem OneQueue.refill : s.refill = s := by
  have := one.held
  unfold State.refill
  rw [one.held]
  simp only [List.foldl_nil]
  rw [← one.held]

theorem OneQueue.noteAll : OneQueue s.noteAll q (s.noted q (x.settle s.timer)) :=
  ⟨by simp [State.noteAll, one.qs], one.held⟩

/-- A fresh message enters the one queue, which is empty. -/
theorem OneQueue.enqueue (empty : x.waiting = []) {m : Msg} (fresh : m.cseq = none) : ∃ y,
    s.enqueue q m = { s with egq := { s.egq with qs := [(q, y)] } } ∧ HoldsOne x s.timer { m with entered := s.timer } y := by
  have room : s.roomIn q = true := by
    rw [State.roomIn, one.queue, one.qs]
    simp [empty]
  have entered : (s.putMsg q m).egq = { s.egq with
      qs := put s.egq.qs q (s.noted q { x.settle s.timer with waiting := [{ m with entered := s.timer }] }) } := by
    unfold State.putMsg
    simp only [fresh, one.queue, settle_waiting, empty, Option.isSome_none, Bool.false_eq_true, if_false, List.nil_append]
    rfl
  refine ⟨s.noted q { x.settle s.timer with waiting := [{ m with entered := s.timer }] }, ?_, HoldsOne.noted _ _ rfl⟩
  rw [enqueue_of_room m room one.held, entered, one.qs]
  simp [Machine.put]

end

/-- A queue put back in place of the one queue. -/
theorem OneQueue.replaced {s : State} {q : Nat} {x : Queue} (one : OneQueue s q x) (y : Queue) : ∃ z, z = { y with elig := z.elig } ∧
    ((s.setQueue q y).note q).refill = { s with egq := { s.egq with qs := [(q, z)] } } := by
  refine ⟨_, noted_eq (s.setQueue q y) q y, ?_⟩
  have noted := (one.setQueue y).note
  rw [noted.refill, ← noted.qs]
  rfl

/-! ### A datagram at the head of the one queue (R286, R324, R331, R338) -/

theorem le_foldl_max {α : Type} (f : α → Nat) (l : List α) (b : Nat) :
    b ≤ l.foldl (fun n x => max n (f x)) b ∧ ∀ x ∈ l, f x ≤ l.foldl (fun n x => max n (f x)) b := by
  induction l generalizing b with
  | nil => exact ⟨le_refl _, nofun⟩
  | cons y l ih =>
    obtain ⟨grows, bounds⟩ := ih (max b (f y))
    refine ⟨(le_max_left ..).trans grows, fun x hx => ?_⟩
    rcases List.mem_cons.1 hx with rfl | hx
    · exact (le_max_right ..).trans grows
    · exact bounds x hx

/-- The number under which the next datagram waits. -/
def State.nextDgram (s : State) : Nat := s.rmo.dgrams.foldl (fun n d => max n d.id) 0 + 1

theorem lt_nextDgram {s : State} {d : GwDgram} (h : d ∈ s.rmo.dgrams) : d.id < s.nextDgram :=
  Nat.lt_succ_of_le ((le_foldl_max GwDgram.id _ 0).2 d h)

/-- The message of a datagram in a queue. -/
def State.dgramMsg (s : State) (vl : Nat) (pkts : List Segment) : Msg :=
  { mkWrite vl 0 0 0 0 0 [] false (.datagram s.nextDgram) false s.nextStep with opc := 0, mlen := gwFrame pkts, entered := s.timer }

/-- Where the one queue of `s` was `x`, and empty, it is `y` in `v`, and holds the message of a datagram just formed. -/
structure DgramWaits (s v : State) (group vl : Nat) (pkts : List Segment) (q : Nat) (x y : Queue) : Prop where
  state : v = { s with
    rmo := { s.rmo with dgrams := s.rmo.dgrams ++ [GwDgram.mk s.nextDgram group vl pkts] }
    egq := { s.egq with qs := [(q, y)] } }
  held  : s.egq.held = []
  holds : HoldsOne x s.timer (s.dgramMsg vl pkts) y

theorem queueDatagram_waits {s : State} {group q : Nat} {x : Queue} (one : OneQueue s q x) (empty : x.waiting = []) (named : s.pdNum 0x4202 group = q)
    (vl : Nat) (pkts : List Segment) : ∃ y, DgramWaits s (s.queueDatagram group vl pkts) group vl pkts q x y := by
  have one' : OneQueue { s with rmo := { s.rmo with dgrams := s.rmo.dgrams ++ [GwDgram.mk s.nextDgram group vl pkts] } } q x := ⟨one.qs, one.held⟩
  obtain ⟨y, eq, holds⟩ := one'.enqueue empty
    (m := { mkWrite vl 0 0 0 0 0 [] false (.datagram s.nextDgram) false s.nextStep with opc := 0, mlen := gwFrame pkts }) rfl
  refine ⟨y, ?_, one.held, holds⟩
  rw [← eq, ← named]
  rfl

section
variable {s v : State} {group vl : Nat} {pkts : List Segment} {q : Nat} {x y : Queue} (w : DgramWaits s v group vl pkts q x y)
include w

theorem DgramWaits.one : OneQueue v q y := by
  rw [w.state]; exact ⟨rfl, w.held⟩

theorem DgramWaits.waiting : y.waiting = [s.dgramMsg vl pkts] := (congrArg Queue.waiting w.holds :)

theorem DgramWaits.dgrams : v.rmo.dgrams = s.rmo.dgrams ++ [GwDgram.mk s.nextDgram group vl pkts] := by rw [w.state]

/-- The message names the datagram just formed. -/
theorem DgramWaits.find : v.rmo.dgrams.find? (fun d => (s.dgramMsg vl pkts).prod == .datagram d.id) = some (GwDgram.mk s.nextDgram group vl pkts) := by
  rw [w.dgrams, List.find?_append, List.find?_eq_none.2, Option.none_or]
  · simp [State.dgramMsg, mkWrite]
  · intro d hd
    have := lt_nextDgram hd
    simp [State.dgramMsg, mkWrite]
    omega

/-- Without it, the datagrams that waited before are left. -/
theorem DgramWaits.others : v.rmo.dgrams.filter (fun d => d.id != s.nextDgram) = s.rmo.dgrams := by
  rw [w.dgrams, List.filter_append, List.filter_eq_self.2]
  · simp
  · intro d hd
    have := lt_nextDgram hd
    simp
    omega

theorem DgramWaits.noteAll : DgramWaits s v.noteAll group vl pkts q x (v.noted q y) := by
  have timer : v.timer = s.timer := by rw [w.state]
  have eq : v.noteAll = { v with egq := { v.egq with qs := [(q, v.noted q y)] } } := by
    have one := w.one.noteAll
    rw [timer, w.holds.settle] at one
    rw [← one.qs]; rfl
  refine ⟨?_, w.held, w.holds.noted v q⟩
  rw [eq]
  exact congrArg (fun z : State => { z with egq := { z.egq with qs := [(q, v.noted q y)] } }) w.state

theorem DgramWaits.kept : y = { x with tokens := (x.settle s.timer).tokens, tokAt := (x.settle s.timer).tokAt, paidAt := (x.settle s.timer).paidAt
                                       waiting := [s.dgramMsg vl pkts], elig := y.elig } :=
  Eq.trans w.holds (congrArg (fun z : Queue => { z with waiting := [s.dgramMsg vl pkts], elig := y.elig }) (settle_eq x s.timer))

/-- The datagram is eligible on a port of its queue that is up in a gateway mode, if its queue is in credit or unshaped. -/
theorem DgramWaits.eligible_iff {port : Nat} (en : x.en = true) (among : port ∈ portList x.ports) (up : v.gwUp port = true) :
    v.eligible port vl q y = true ↔ 0 ≤ (x.settle s.timer).tokens ∨ x.unshaped = true := by
  have bit : bitAt x.ports.toNat port = true := by simpa [portList] using (List.mem_filter.1 among).2
  have tokens : y.tokens = (x.settle s.timer).tokens := (congrArg Queue.tokens w.holds :)
  have unshaped : y.unshaped = x.unshaped := (congrArg Queue.unshaped w.kept :)
  have en' : y.en = true := (congrArg Queue.en w.kept :).trans en
  have ports : y.ports = x.ports := (congrArg Queue.ports w.kept :)
  have dgram : (s.dgramMsg vl pkts).isDatagram = true := rfl
  have lane : (s.dgramMsg vl pkts).vl = vl := rfl
  have plain : (s.dgramMsg vl pkts).contract = false := rfl
  simp [State.eligible, w.waiting, State.mayStart, Queue.sends, State.headPorts, Queue.paid, dgram, lane, plain, en', ports, bit, up, tokens, unshaped]

theorem DgramWaits.nextQueue {port : Nat} : v.nextQueue port vl = if v.eligible port vl q y then some (q, y) else none := by
  rw [State.nextQueue, w.one.qs]
  cases h : v.eligible port vl q y <;> simp [h]

end

/-- The state after a datagram for a far side has left the rings of the gateway under a sequence number. -/
def State.dgramGone (s : State) (far : Nat) (seq : BitVec 32) (d : GwDgram) : State :=
  { s with rmo := { s.rmo with
    gw := mapIf (fun y => !y.packed && d.pkts.contains y.crossing) (fun y => { y with sentAt := s.timer }) s.rmo.gw
    gseq := put s.rmo.gseq far (seq + 1), dgrams := s.rmo.dgrams.filter fun y => y.id != d.id } }

/-- The bytes of a queue are counted for its composition. -/
def State.metered (s : State) (x : Queue) (bytes : Nat) : State := if x.opr then s else s.countC x.comp 0x4211 x.comp bytes

theorem metered_cases (s : State) (x : Queue) (bytes : Nat) : ∃ cnt, s.metered x bytes = { s with pd := { s.pd with cnt } } := by
  unfold State.metered
  split <;> exact ⟨_, rfl⟩

/-- What leaves the node with a datagram. -/
def State.dgramOut (s : State) (port far : Nat) (seq : BitVec 32) (d : GwDgram) : Out :=
  .datagram d.group seq d.pkts (s.gwVia port (gwHead d.vl s.nodeId far d.pkts.length seq ++
    (d.pkts.map fun g => leBytes 4 (gwBody g).length ++ padMul 4 (gwBody g)).flatten))

/-- A queue whose head has left, and which has been charged for it. -/
def Queue.headLeft (x : Queue) (bytes : Nat) : Queue := { x.charge bytes with waiting := x.waiting.tail, elig := [] }

theorem startDatagram_eq (s : State) (port q : Nat) (d : GwDgram) : s.startDatagram port q d =
    let far := bitsOf (s.pdNum 0x4120 d.group) 16 14
    let seq := lookD s.rmo.gseq far 0
    let bytes := gwFrame d.pkts + s.pdNum 0x4201 port
    let v := (((s.setQueue q ((s.queue q).headLeft bytes)).note q).refill.dgramGone far seq d).metered ((s.queue q).charge bytes) (gwFrame d.pkts)
    v.emit (v.dgramOut port far seq d) := rfl

theorem OneQueue.startDatagram {s : State} {q : Nat} {x : Queue} (one : OneQueue s q x) (port : Nat) (d : GwDgram) :
    let far := bitsOf (s.pdNum 0x4120 d.group) 16 14
    let seq := lookD s.rmo.gseq far 0
    ∃ z cnt, z.tokens = (x.charge (gwFrame d.pkts + s.pdNum 0x4201 port)).tokens ∧ z.waiting = x.waiting.tail ∧ s.startDatagram port q d =
      { s.dgramGone far seq d with egq := { s.egq with qs := [(q, z)] }, pd := { s.pd with cnt }, out := s.dgramOut port far seq d :: s.out } := by
  intro far seq
  obtain ⟨z, keeps, eq⟩ := one.replaced (x.headLeft (gwFrame d.pkts + s.pdNum 0x4201 port))
  obtain ⟨cnt, metered⟩ := metered_cases
    (((s.setQueue q (x.headLeft (gwFrame d.pkts + s.pdNum 0x4201 port))).note q).refill.dgramGone far seq d)
    (x.charge (gwFrame d.pkts + s.pdNum 0x4201 port)) (gwFrame d.pkts)
  refine ⟨z, cnt, (congrArg Queue.tokens keeps :), (congrArg Queue.waiting keeps :), ?_⟩
  rw [startDatagram_eq, one.queue]
  dsimp only
  rw [metered, eq]
  rfl

/-- What the datagram leaves of the node as it leaves by a port: the queue is charged, and is empty again. -/
structure DgramLeft (s v : State) (port group vl : Nat) (pkts : List Segment) (q : Nat) (x : Queue) : Prop where
  out     : DatagramOut s v group port vl pkts
  lnk     : v.lnk = s.lnk
  gw      : v.rmo.gw = mapIf (fun y => !y.packed && pkts.contains y.crossing) (fun y => { y with sentAt := s.timer }) s.rmo.gw
  waiting : (v.queue q).waiting = []
  tokens  : (v.queue q).tokens = ((x.settle s.timer).charge (gwFrame pkts + s.pdNum 0x4201 port)).tokens

section
variable {s v : State} {group vl : Nat} {pkts : List Segment} {q : Nat} {x y : Queue} (w : DgramWaits s v group vl pkts q x y)

include w

theorem DgramWaits.startDatagram (port : Nat) : DgramLeft s (v.startDatagram port q (GwDgram.mk s.nextDgram group vl pkts)) port group vl pkts q x := by
  obtain ⟨z, cnt, tokens, waiting, eq⟩ := w.one.startDatagram port (GwDgram.mk s.nextDgram group vl pkts)
  have others := w.others
  have waits := w.waiting
  have settled : y.tokens = (x.settle s.timer).tokens := (congrArg Queue.tokens w.holds :)
  obtain ⟨state, held, holds⟩ := w
  subst state
  rw [eq]
  have queue (v : State) (h : v.egq.qs = [(q, z)]) : v.queue q = z := by rw [State.queue, h]; simp [lookD, look]
  refine ⟨⟨rfl, lookD_put_same .., others⟩, rfl, rfl, ?_, ?_⟩
  · rw [queue _ rfl, waiting, waits]; rfl
  · rw [queue _ rfl, tokens, Queue.charge, settled]; rfl

/-- Where the datagram may start, it leaves by the port; else it waits. -/
theorem DgramWaits.startGateway {port : Nat} (crosses : vl = 3 ∨ vl = 4 ∨ vl = 6) (en : x.en = true) (among : port ∈ portList x.ports)
    (up : v.gwUp port = true) :
    (0 ≤ (x.settle s.timer).tokens ∨ x.unshaped = true → DgramLeft s (v.startGateway port vl) port group vl pkts q x) ∧
    (¬ (0 ≤ (x.settle s.timer).tokens ∨ x.unshaped = true) → ∃ y, DgramWaits s (v.startGateway port vl) group vl pkts q x y) := by
  have noted := w.noteAll
  have may := noted.eligible_iff en among up
  have next_ := noted.nextQueue (port := port)
  have crossing : ¬ (vl ≠ 3 ∧ vl ≠ 4 ∧ vl ≠ 6) := by omega
  refine ⟨fun credit => ?_, fun credit => ?_⟩
  · rw [may.2 credit, if_pos rfl] at next_
    have eq : v.startGateway port vl = v.noteAll.startDatagram port q (GwDgram.mk s.nextDgram group vl pkts) := by
      unfold State.startGateway
      dsimp only
      rw [if_neg crossing, next_]
      dsimp only
      rw [noted.waiting]
      simp only [List.head?_cons, Option.bind_some]
      rw [noted.find]
    rw [eq]
    exact noted.startDatagram port
  · rw [Bool.eq_false_iff.2 (fun h => credit (may.1 h))] at next_
    have eq : v.startGateway port vl = v.noteAll := by
      unfold State.startGateway
      dsimp only
      rw [if_neg crossing, next_]
      rfl
    exact ⟨_, eq ▸ noted⟩

end

/-! ### The datagrams of a group (R324, R331) -/

section
variable {s : State} {group : Nat}

/-- The packets that the next datagram of a group takes. -/
def State.gwNext (s : State) (group : Nat) : List GwMsg := gwTake 64 9154 (s.gwWaiting group)

/-- The virtual lane on which packets cross. -/
def gwLane (pack : List GwMsg) : Nat := if pack.any fun m => m.seg.vl == 4 then 4 else 3

theorem gwLane_cases (pack : List GwMsg) : gwLane pack = 3 ∨ gwLane pack = 4 ∨ gwLane pack = 6 := by
  unfold gwLane; split <;> simp

/-- The packets of the next datagram are due. -/
def State.gwDue (s : State) (group : Nat) : Prop :=
  s.gwNext group ≠ [] ∧ ((s.gwNext group).length < (s.gwWaiting group).length ∨ (s.gwNext group).length = 64 ∨
    ∃ m ∈ s.gwWaiting group, m.since + us ≤ s.timer)

/-- The node whose next datagram has been packed. -/
def State.gwPacked (s : State) (group : Nat) : State := { s with rmo := { s.rmo with gw := gwSent s.timer (s.gwNext group) s.rmo.gw } }

/-- A datagram of packets enters the queue of its group if it is full, or its oldest packet has waited. -/
def State.formPackets (s : State) (group : Nat) : State :=
  let full := decide ((s.gwNext group).length < (s.gwWaiting group).length) || (s.gwNext group).length == 64
  let old := (s.gwWaiting group).any fun x => decide (x.since + us ≤ s.timer)
  if s.gwNext group = [] ∨ (!full ∧ !old) then s
  else (s.gwPacked group).queueDatagram group (gwLane (s.gwNext group)) ((s.gwNext group).map GwMsg.crossing)

theorem formDatagrams_eq (s : State) (group : Nat) : s.formDatagrams group = State.formPackets (if s.gwMgmt group = [] then s
    else (s.mgmtLeaves (s.lnk.mgmtOut.filter fun m => !(s.gwMgmt group).contains m)).queueDatagram group 6
      ((s.gwMgmt group).map s.mgmtSegment)) group := rfl

theorem formPackets_due (due : s.gwDue group) :
    s.formPackets group = (s.gwPacked group).queueDatagram group (gwLane (s.gwNext group)) ((s.gwNext group).map GwMsg.crossing) := by
  obtain ⟨some, old⟩ := due
  refine if_neg ?_
  rintro (none | ⟨open_, young⟩)
  · exact some none
  · simp only [Bool.not_eq_true', Bool.or_eq_false_iff, decide_eq_false_iff_not, beq_eq_false_iff_ne, List.any_eq_false, decide_eq_true_eq] at open_ young
    rcases old with h | h | ⟨m, hm, h⟩
    · exact open_.1 h
    · exact open_.2 h
    · exact young m hm h

theorem formPackets_of_not_due (not : ¬ s.gwDue group) : s.formPackets group = s := by
  refine if_pos (or_iff_not_imp_left.2 fun some => ?_)
  have young : ¬ (_ ∨ _ ∨ _) := fun h => not ⟨some, h⟩
  simp only [not_or, not_exists, not_and] at young
  obtain ⟨open_, few, young⟩ := young
  simp only [Bool.not_eq_true', Bool.or_eq_false_iff, decide_eq_false_iff_not, beq_eq_false_iff_ne, List.any_eq_false, decide_eq_true_eq]
  exact ⟨⟨open_, few⟩, young⟩

theorem formDatagrams_of_no_mgmt (none : s.gwMgmt group = []) : s.formDatagrams group = s.formPackets group := by
  rw [formDatagrams_eq, if_pos none]

/-- A management message enters the queue in a datagram of its own. -/
theorem formDatagrams_of_mgmt {m : Nat × List Byte} (one : s.gwMgmt group = [m]) (none : s.gwWaiting group = []) :
    s.formDatagrams group = (s.mgmtLeaves (s.lnk.mgmtOut.filter fun z => !([m].contains z))).queueDatagram group 6 [s.mgmtSegment m] := by
  rw [formDatagrams_eq, one, if_neg (show ¬ [m] = [] from List.cons_ne_nil _ _)]
  refine formPackets_of_not_due fun due => due.1 ?_
  change gwTake 64 9154 (s.gwWaiting group) = []
  rw [none]
  rfl

theorem DgramWaits.gwUp {s v : State} {group vl : Nat} {pkts : List Segment} {q : Nat} {x y : Queue} (w : DgramWaits s v group vl pkts q x y) :
    v.gwUp = s.gwUp := by rw [w.state]; rfl

/-- Where a datagram has entered the queue that the group names, it leaves by the queue's first port that carries datagrams, or waits for
credit. -/
theorem exec_gatewayDatagramSend_formed {s w : State} {t group vl q port : Nat} {x : Queue} {pkts : List Segment} (ready : s.ready = true)
    (formed : (s.arrive t).formDatagrams group = w.queueDatagram group vl pkts) (crosses : vl = 3 ∨ vl = 4 ∨ vl = 6) (one : OneQueue w q x)
    (empty : x.waiting = []) (en : x.en = true) (named : w.pdNum 0x4202 group = q) (by_ : (portList x.ports).find? w.gwUp = some port) :
    ∃ v, exec (.gatewayDatagramSend t group) s = .next v ∧
      (0 ≤ (x.settle w.timer).tokens ∨ x.unshaped = true → DgramLeft w v port group vl pkts q x) ∧
      (¬ (0 ≤ (x.settle w.timer).tokens ∨ x.unshaped = true) → ∃ y, DgramWaits w v group vl pkts q x y) := by
  obtain ⟨y, waits⟩ := queueDatagram_waits one empty named vl pkts
  have hnamed : (w.queueDatagram group vl pkts).pdNum 0x4202 group = q := by rw [waits.state]; exact named
  have hports : y.ports = x.ports := (congrArg Queue.ports waits.kept :)
  refine ⟨_, ?_, waits.startGateway crosses en (List.mem_of_find?_eq_some by_) (by rw [waits.gwUp]; exact List.find?_some by_)⟩
  change execGatewayDatagramSend t group s = _
  unfold execGatewayDatagramSend
  dsimp only
  rw [if_neg (by simp [ready]), formed, hnamed, waits.one.queue, waits.waiting, hports, waits.gwUp, by_]
  rfl

theorem exec_gatewayDatagramSend_not_due {s : State} {t group q : Nat} {x : Queue} (ready : s.ready = true) (none : (s.arrive t).gwMgmt group = [])
    (not : ¬ (s.arrive t).gwDue group) (one : OneQueue (s.arrive t) q x) (empty : x.waiting = []) (named : s.pdNum 0x4202 group = q) :
    exec (.gatewayDatagramSend t group) s = .next (s.arrive t) := by
  change execGatewayDatagramSend t group s = _
  unfold execGatewayDatagramSend
  dsimp only
  rw [if_neg (by simp [ready]), formDatagrams_of_no_mgmt none, formPackets_of_not_due not, arrive_pdNum, named, one.queue, empty]
  rfl

/-- The packets of a datagram are among those that wait. -/
theorem mem_of_mem_gwTake {n room : Nat} {l : List GwMsg} {m : GwMsg} (h : m ∈ gwTake n room l) : m ∈ l := by
  induction n generalizing room l with
  | zero => cases h
  | succ n ih =>
    cases l with
    | nil => cases h
    | cons g l =>
      rw [gwTake] at h
      split at h
      · rcases List.mem_cons.1 h with rfl | h
        · exact List.mem_cons_self ..
        · exact List.mem_cons_of_mem _ (ih h)
      · cases h

theorem mem_gw_of_mem_gwNext {m : GwMsg} (h : m ∈ s.gwNext group) : m ∈ s.rmo.gw :=
  List.mem_of_mem_filter (List.mem_of_mem_filter (mem_of_mem_gwTake h))

/-- A request that has been packed is kept until its response, with the time at which it left. -/
theorem mem_gwSent {now : Nat} {pack gw : List GwMsg} {pkts : List Segment} {m : GwMsg} (packed : m ∈ pack) (held : m ∈ gw) (request : m.seg.vl ≠ 4) :
    { m with packed := false, sentAt := now } ∈ mapIf (fun y => !y.packed && pkts.contains y.crossing) (fun y => { y with sentAt := now }) (gwSent now pack gw) := by
  have sent : { m with packed := false, sentAt := now } ∈ gwSent now pack gw := by
    refine List.mem_map.2 ⟨m, List.mem_filter.2 ⟨held, by simp [request]⟩, if_pos (List.contains_iff_mem.2 packed)⟩
  exact List.mem_map.2 ⟨_, sent, ite_self _⟩

end

/-! ### Datagrams received (R285, R286) -/

/-- Ports and links, the Phase unit, requests and queues stand. -/
structure LinksStand (s v : State) : Prop where
  lnk : v.lnk = s.lnk
  phs : v.phs = s.phs
  rq  : v.rq = s.rq
  egq : v.egq = s.egq

theorem gwDrop_stand (s : State) (port : Nat) (tell : Bool) : LinksStand s (s.gwDrop port tell) := by
  cases tell with
  | false => exact ⟨rfl, rfl, rfl, rfl⟩
  | true => exact ⟨linkEvent_lnk .., State.event_phs .., State.event_rq .., State.event_egq ..⟩

theorem ether_of_gwUdp {s : State} {fr : GwFrame} (h : s.gwUdp fr = true) : fr.ether ≠ 0x8808 := by
  rintro e
  simp [State.gwUdp, e] at h

section
variable {s : State} {port : Nat} (inRange : port < 8) (en : (s.port port).en = true) (mode : (s.port port).mode ≠ 0)
  (loop : (s.port port).loop = false) (up : (s.port port).st = .up)
include inRange en mode loop up

theorem exec_gatewayDatagramReceive_up (t : Nat) (fr : GwFrame) (d : GwDatagram) : exec (.gatewayDatagramReceive t port fr d) s =
    let u := s.arrive t
    if fr.ether = 0x8808 then .next (u.count 0x4018 (16 + port))
    else if u.gwUdp fr = false then .next u
    else if frameFine fr d = false then .next (u.gwDrop port (!fr.options))
    else if d.vl = 7 then .next (d.mark.elim (u.gwDrop port false) fun m => if bitAt (s.pdNum 0x4005 2) port then u.mark port m else u.gwDrop port false)
    else .next (u.unpack port d) := by
  change execGatewayDatagramReceive t port fr d s = _
  unfold execGatewayDatagramReceive
  dsimp only
  rw [arrive_port, if_neg (by simp [inRange, en, mode, loop, up])]
  simp only [Bool.not_eq_true', arrive_pdNum]
  cases d.mark <;> rfl

end

theorem unpack_of_other {s : State} {port : Nat} {d : GwDatagram} (other : d.dst ≠ s.nodeId) : s.unpack port d = s.gwDrop port false :=
  if_pos (.inl other)

/-! ### Fault injection (R288, R289) -/

theorem writeInject_port (s : State) (p v : Nat) : let x := s.port p
    let m := if s.pdBool 0xA010 0 then bitsOf v 0 2 else x.fmode
    (s.writeInject p v).port p = { x with
      fmode := m, fsev := bitAt v 2, fdepth := bitsOf v 3 4, fvlmask := BitVec.ofNat 8 (bitsOf v 8 8)
      corrAt := if m ≠ 0 ∧ m ≠ x.fmode then x.groupAt s.timer else x.corrAt } := by
  unfold State.writeInject
  dsimp only
  generalize (if s.pdBool 0xA010 0 then bitsOf v 0 2 else (s.port p).fmode) = m
  by_cases begins : m ≠ 0 ∧ m ≠ (s.port p).fmode
  · rw [if_pos begins, if_pos begins, linkEvent_port, setPort_port_same, setPort_port_same]; rfl
  · rw [if_neg begins, if_neg begins, setPort_port_same]

section
variable {s : State} {t port : Nat} (ready : s.ready = true) (inRange : port < 8) (w : BitVec 32)
include ready inRange

theorem exec_faultInjectCtlWrite : exec (.faultInjectCtlWrite t port w) s = .next ((s.arrive t).writeInject port w.toNat) := by
  change execFaultInjectCtlWrite t port w s = _
  unfold execFaultInjectCtlWrite
  simp [ready, inRange]

theorem exec_faultInjectSeedWrite : exec (.faultInjectSeedWrite t port w) s = .next ((s.arrive t).writeSeed port w) := by
  change execFaultInjectSeedWrite t port w s = _
  unfold execFaultInjectSeedWrite
  simp [ready, inRange]

end

/-! ### The obligation on gateways and fault injection -/

/-- Settles O41, by what the datagram just formed leaves of the one queue, and by the branches of a frame that comes. -/
theorem gatewayDatagramsAndFaultInjection : Obligations.GatewayDatagramsAndFaultInjection := by
  unfold Obligations.GatewayDatagramsAndFaultInjection
  intro s t u ready
  have hout : u.out = s.out := State.arrive_out s t
  have hrmo : u.rmo = s.rmo := State.arrive_rmo s t
  have hlnk : u.lnk = s.lnk := State.arrive_lnk s t
  have hport (port : Nat) : u.port port = s.port port := arrive_port ..
  refine ⟨?_, ?_, fun port inRange => ?_⟩
  · intro group port x q y wait pack pkts vl due qs held empty en by_
    have one : OneQueue u q x := ⟨by rw [State.arrive_egq]; exact qs, by rw [State.arrive_egq]; exact held⟩
    have named : u.pdNum 0x4202 group = q := arrive_pdNum ..
    have fee : u.pdNum 0x4201 port = s.pdNum 0x4201 port := arrive_pdNum ..
    have packed : OneQueue (u.gwPacked group) q x := ⟨one.qs, one.held⟩
    have packets (none : u.gwMgmt group = []) (due' : due) := exec_gatewayDatagramSend_formed (t := t) ready
      ((formDatagrams_of_no_mgmt none).trans (formPackets_due due')) (gwLane_cases _) packed empty en named by_
    refine ⟨fun none due' credit => ?_, fun none not => exec_gatewayDatagramSend_not_due ready none not one empty rfl,
      fun none due' debt shaped => ?_, fun m mgmt none credit => ?_⟩
    · obtain ⟨v, hexec, leaves, -⟩ := packets none due'
      have left := leaves credit
      refine .of_exec hexec ⟨left.out, fun m taken request => ?_, left.waiting, ?_⟩
      · rw [left.gw]
        exact mem_gwSent taken (mem_gw_of_mem_gwNext taken) request
      · rw [left.tokens, ← fee]; rfl
    · obtain ⟨v, hexec, -, waits⟩ := packets none due'
      have broke : ¬ (0 ≤ (x.settle u.timer).tokens ∨ x.unshaped = true) := by
        rw [shaped]
        simpa using debt
      obtain ⟨z, left⟩ := waits broke
      refine .of_exec hexec ⟨?_, ?_, u.nextDgram, ?_⟩
      · rw [left.state]; exact hout
      · rw [left.one.queue, left.waiting]; rfl
      · rw [left.dgrams, ← hrmo]; rfl
    · obtain ⟨v, hexec, leaves, -⟩ := exec_gatewayDatagramSend_formed (t := t) ready (formDatagrams_of_mgmt mgmt none) (.inr (.inr rfl))
        (q := q) (x := x) ⟨one.qs, one.held⟩ empty en named by_
      have left := leaves credit
      refine .of_exec hexec ⟨left.out, ?_, ?_⟩
      · rw [left.lnk, hlnk]
      · rw [left.tokens, ← fee]; rfl
  · intro port fr d inRange en mode loop up still
    have hexec := exec_gatewayDatagramReceive_up inRange en mode loop up t fr d
    dsimp only at hexec
    have stand (tell : Bool) : still (u.gwDrop port tell) := by
      obtain ⟨lnk, phs, rq, egq⟩ := gwDrop_stand u port tell
      exact ⟨lnk.trans (State.arrive_lnk ..), phs.trans (State.arrive_phs ..), rq.trans (State.arrive_rq ..), egq.trans (State.arrive_egq ..)⟩
    refine ⟨fun pause => ?_, fun other stranger => ?_, fun ours bad => ?_, fun ours fine => ⟨fun m lane mark declared => ?_, fun m lane mark not => ?_,
      fun lane other => ?_⟩⟩
    · rw [hexec, if_pos pause]
    · rw [hexec, if_neg other, if_pos stranger]
    · rw [if_neg (ether_of_gwUdp ours), if_neg (by simpa using ours), if_pos bad] at hexec
      exact .of_exec hexec (stand _)
    all_goals rw [if_neg (ether_of_gwUdp ours), if_neg (by simpa using ours), if_neg (by simpa using fine)] at hexec
    · rw [hexec, if_pos lane, mark, Option.elim_some, if_pos declared]
    · rw [if_pos lane, mark, Option.elim_some, if_neg (by simp [not])] at hexec
      exact .of_exec hexec (stand _)
    · rw [if_neg lane, unpack_of_other (by rw [arrive_nodeId]; exact other)] at hexec
      exact .of_exec hexec (stand _)
  · intro x
    refine ⟨fun w => ?_, fun w => ?_⟩
    · have written := writeInject_port u port w.toNat
      rw [hport, arrive_pdBool] at written
      exact .of_exec (exec_faultInjectCtlWrite ready inRange w) written
    · refine .of_exec (exec_faultInjectSeedWrite ready inRange w) ⟨?_, hout⟩
      rw [State.writeSeed, setPort_port_same, hport]

end Sys2Proof.Machine

/-! ## Remote memory (11) -/

namespace Sys2Proof.Machine

/-! ### Frames -/

/-- Settles O58: every command keeps its frame, those of the request path among them. -/
theorem requestPathFrames : Obligations.RequestPathFrames := fun i _ => framed i

/-! ### Window registers (R300, R301) -/

section
variable (s : State) (t : Nat)
@[simp] theorem arrive_wregs (fn : Nat) : (s.arrive t).wregs fn = s.wregs fn := by rw [arrive_eq]; rfl
@[simp] theorem arrive_win? (job win : Nat) : (s.arrive t).win? job win = s.win? job win := by rw [arrive_eq]; rfl
@[simp] theorem arrive_winJob (fn : Nat) (r : WRegs) : (s.arrive t).winJob fn r = s.winJob fn r := by rw [arrive_eq]; rfl
@[simp] theorem arrive_winCheck (fn op job : Nat) (r : WRegs) (win : Nat) : (s.arrive t).winCheck fn op job r win = s.winCheck fn op job r win := by
  rw [arrive_eq]; rfl
@[simp] theorem arrive_isDrained (d : Drain) : (s.arrive t).isDrained d = s.isDrained d := by rw [arrive_eq]; rfl
@[simp] theorem arrive_drainOf (job win : Nat) (w : Win) : (s.arrive t).drainOf job win w = s.drainOf job win w := by rw [arrive_eq]; rfl
end

@[simp] theorem setWregs_wregs_same (s : State) (fn : Nat) (r : WRegs) : (s.setWregs fn r).wregs fn = r := lookD_put_same ..

/-- The registers after a window command that ran its checks. -/
def State.winGiven (s : State) (fn op win : Nat) : WRegs :=
  let r := s.wregs fn
  { r with win, status := s.winCheck fn op (s.winJob fn r) r win, wgen := (s.win? (s.winJob fn r) win).elim 0 (·.wgen), job := s.winJob fn r }

/-- The registers after a window command that its checks allow. -/
def State.winTaken (s : State) (fn op win : Nat) : WRegs := { s.winGiven fn op win with busy := true, op, since := s.timer }

section
variable {s : State} {fn op win : Nat}

theorem winCommand_of_busy (busy : (s.wregs fn).busy = true) : s.winCommand fn op win = s.setWregs fn { s.wregs fn with ign := true } := by
  simp [State.winCommand, busy]

variable (idle : (s.wregs fn).busy = false)
include idle

theorem winCommand_of_refused (refused : s.winCheck fn op (s.winJob fn (s.wregs fn)) (s.wregs fn) win ≠ .ok) :
    s.winCommand fn op win = s.setWregs fn (s.winGiven fn op win) := by
  simp [State.winCommand, idle, refused, State.winGiven]

theorem winCommand_of_allowed (allowed : s.winCheck fn op (s.winJob fn (s.wregs fn)) (s.wregs fn) win = .ok) :
    s.winCommand fn op win =
      if op = 1 then (s.setWregs fn (s.winTaken fn op win)).moveIn 1 (winKey (s.winJob fn (s.wregs fn)) win)
        (Win.toUnits { (Win.ofUnits [0, 0, 0]) with wgen := 0 }) (some fn)
      else if op = 2 then (s.setWregs fn (s.winTaken fn op win)).moveOut 1 (winKey (s.winJob fn (s.wregs fn)) win) (some fn)
      else s.setWregs fn (s.winTaken fn op win) := by
  simp [State.winCommand, idle, allowed, State.winGiven, State.winTaken]

end

theorem moveIn_wregs (s : State) (cls key : Nat) (vals : List (BitVec 64)) (by_ : Option Nat) (fn : Nat) :
    (s.moveIn cls key vals by_).wregs fn = s.wregs fn := by
  unfold State.moveIn; split <;> rfl

theorem moveOut_wregs (s : State) (cls key : Nat) (by_ : Option Nat) (fn : Nat) : (s.moveOut cls key by_).wregs fn = s.wregs fn := by
  unfold State.moveOut; split <;> rfl

theorem best_of_insertOk {s : State} {fn job win : Nat} {r : WRegs} (ok : s.winCheck fn 1 job r win = .ok) : ∃ b, s.adirBest 1 = some b := by
  unfold State.winCheck at ok
  dsimp only at ok
  cases h : s.adirBest 1 with
  | some b => exact ⟨b, rfl⟩
  | none =>
    rw [h] at ok
    split at ok
    · cases ok
    split at ok
    · cases ok
    simp at ok

theorem held_of_removeOk {s : State} {fn job win : Nat} {r : WRegs} (ok : s.winCheck fn 2 job r win = .ok) : ∃ w, s.win? job win = some w := by
  unfold State.winCheck at ok
  dsimp only at ok
  cases h : s.win? job win with
  | some w => exact ⟨w, rfl⟩
  | none =>
    rw [h] at ok
    split at ok
    · cases ok
    split at ok
    · cases ok
    simp at ok

/-! ### Entries of the window table (R222, R226) -/

/-- The first bank of a class that holds a key gives the value found. -/
theorem adirEntry_eq_bind (s : State) (cls key : Nat) : s.adirEntry cls key = (s.adirWhere cls key).bind fun b => look (s.adirBank b).entries key := by
  unfold State.adirEntry State.adirWhere
  induction List.range 16 with
  | nil => rfl
  | cons b l ih =>
    dsimp only at ih ⊢
    rw [List.findSome?_cons, List.find?_cons]
    by_cases own : (s.adirBank b).cls = cls
    · cases e : look (s.adirBank b).entries key with
      | none => simp only [own, if_true, Option.isSome_none, Bool.and_false]; exact ih
      | some v => simp [own, e]
    · simp only [own, if_false, beq_false_of_ne own, Bool.false_and]; exact ih

theorem where_of_win? {s : State} {job win : Nat} {w : Win} (held : s.win? job win = some w) : ∃ b, s.adirWhere 1 (winKey job win) = some b := by
  unfold State.win? at held
  rw [adirEntry_eq_bind] at held
  cases h : s.adirWhere 1 (winKey job win) with
  | some b => exact ⟨b, rfl⟩
  | none => rw [h] at held; cases held

theorem setBank_adirBank_other (s : State) {b d : Nat} (k : Bank) (other : d ≠ b) : (s.setBank b k).adirBank d = s.adirBank d :=
  lookD_put_other _ _ _ _ _ other

/-- A move of a key for a function waits or goes on in some bank. -/
def State.entryMoves (s : State) (ins : Bool) (key fn : Nat) : Prop :=
  ∃ b m, m ∈ (s.adirBank b).moves ∧ m.ins = ins ∧ m.key = key ∧ m.fn = some fn

theorem moveIn_entryMoves {s : State} {cls b : Nat} (best : s.adirBest cls = some b) (key : Nat) (vals : List (BitVec 64)) (fn : Nat) :
    (s.moveIn cls key vals (some fn)).entryMoves true key fn := by
  refine ⟨b, ⟨true, key, vals, some fn⟩, ?_, rfl, rfl, rfl⟩
  rw [moveIn_of_best best, setBank_adirBank_same]
  exact List.mem_append_right _ (List.mem_singleton_self _)

theorem moveOut_entryMoves {s : State} {cls key b : Nat} (held : s.adirWhere cls key = some b) (fn : Nat) :
    (s.moveOut cls key (some fn)).entryMoves false key fn := by
  refine ⟨b, ⟨false, key, [], some fn⟩, ?_, rfl, rfl, rfl⟩
  rw [moveOut_of_where held, setBank_adirBank_same]
  exact List.mem_append_right _ (List.mem_singleton_self _)

/-- A value written to an entry is found there. -/
theorem adirEntry_adirUpdate {s : State} {cls key b : Nat} (held : s.adirWhere cls key = some b) (vals : List (BitVec 64)) :
    (s.adirUpdate cls key vals).adirEntry cls key = some vals := by
  have own : (s.adirBank b).cls = cls ∧ (look (s.adirBank b).entries key).isSome = true := by
    have := List.find?_some held
    simpa using this
  unfold State.adirUpdate
  rw [held]
  dsimp only
  generalize hk : ({ s.adirBank b with entries := put (s.adirBank b).entries key vals, pend := _ } : Bank) = k
  have kept : k.cls = cls := by rw [← hk]; exact own.1
  have entered : look k.entries key = some vals := by rw [← hk]; exact look_put_same ..
  have where_ : (s.setBank b k).adirWhere cls key = some b := by
    rw [← held]
    unfold State.adirWhere
    congr 1
    funext d
    by_cases e : d = b
    · subst e; simp [kept, entered, own]
    · rw [setBank_adirBank_other s k e]
  rw [adirEntry_eq_bind, where_, Option.bind_some, setBank_adirBank_same, entered]

theorem win?_setWin {s : State} {job win : Nat} {w : Win} (held : s.win? job win = some w) (x : Win) :
    (s.setWin job win x).win? job win = some (Win.ofUnits x.toUnits) := by
  obtain ⟨b, hb⟩ := where_of_win? held
  rw [State.win?, State.setWin, adirEntry_adirUpdate hb, Option.map_some]

theorem flagAt_eq (b : Bool) (pos : Nat) : flagAt b pos = b.toNat * 2 ^ pos := by cases b <;> simp [flagAt]

/-- An entry written and read again keeps its generation and whether it is open (R222). -/
theorem ofUnits_toUnits_state (w : Win) : (Win.ofUnits w.toUnits).isOpen = w.isOpen ∧ (Win.ofUnits w.toUnits).wgen = w.wgen := by
  constructor
  · have bits (b : Bool) : b.toNat ≤ 1 := Bool.toNat_le b
    have h1 := bits w.rd
    have h2 := bits w.wr
    have h3 := bits w.add
    have h4 := bits w.xr
    have h5 := bits w.cas
    have h6 := bits w.cmd
    have h7 := bits w.lent
    have h8 := bits w.isOpen
    have h9 := bits w.fwdv
    simp only [Win.ofUnits, Win.toUnits, List.getD_cons_succ, List.getD_cons_zero, BitVec.toNat_ofNat, bitAt, flagAt_eq, fieldAt]
    have open_ : w.isOpen = true ↔ w.isOpen.toNat = 1 := by cases w.isOpen <;> decide
    rw [Bool.eq_iff_iff, beq_iff_eq, open_]
    omega
  · apply BitVec.eq_of_toNat_eq
    have := w.wgen.isLt
    simp only [Win.ofUnits, Win.toUnits, List.getD_cons_succ, List.getD_cons_zero, BitVec.toNat_ofNat, bitsOf, fieldAt]
    omega

/-- An entry written and read again keeps a base of whole lines and a size in range (R222). -/
theorem ofUnits_toUnits_range {w : Win} (u : List (BitVec 64)) (base : w.base = (Win.ofUnits u).base) (size : w.size = (Win.ofUnits u).size) :
    (Win.ofUnits w.toUnits).base = (Win.ofUnits u).base ∧ (Win.ofUnits w.toUnits).size = (Win.ofUnits u).size := by
  constructor
  · rw [← base]
    have lines : w.base = bitsOf (u.getD 0 0).toNat 6 46 * 64 := base
    simp only [Win.ofUnits, Win.toUnits, List.getD_cons_zero, BitVec.toNat_ofNat, bitsOf, fieldAt] at lines ⊢
    omega
  · rw [← size]
    have small : w.size = bitsOf (u.getD 1 0).toNat 0 48 := size
    simp only [Win.ofUnits, Win.toUnits, List.getD_cons_succ, List.getD_cons_zero, BitVec.toNat_ofNat, bitsOf, fieldAt] at small ⊢
    omega

/-! ### Event records (R326 to R328) -/

/-- The remote unit but for the event records that it keeps. -/
@[reducible] def RmoSt.sansEvents (r : RmoSt) : RmoSt := { r with evHead := 0, evUsed := 0, evLast := [], ring := [] }

theorem RmoSt.eq_of_sansEvents {α : Type} {p q : RmoSt} (f : RmoSt → α) (hf : ∀ x : RmoSt, f x.sansEvents = f x)
    (h : p.sansEvents = q.sansEvents) : f p = f q := by
  rw [← hf p, h, hf]

theorem event_sansEvents (s : State) (e : Event) : (s.event e).rmo.sansEvents = s.rmo.sansEvents := by
  unfold State.event
  extract_lets recent bytes size _ a b c _ d
  split
  · rfl
  have hb : b.rmo.sansEvents = s.rmo.sansEvents := by
    unfold b
    split
    · split <;> rfl
    · rfl
  split
  · exact hb
  have hd : d.rmo = b.rmo := by unfold d; split <;> rfl
  rw [← hb, ← hd]

theorem foldl_sansEvents {α : Type} {f : State → α → State} (h : ∀ s x, (f s x).rmo.sansEvents = s.rmo.sansEvents) (l : List α) (s : State) :
    (l.foldl f s).rmo.sansEvents = s.rmo.sansEvents := by
  induction l generalizing s with
  | nil => rfl
  | cons x l ih => exact (ih (f s x)).trans (h s x)

/-! ### OPEN and REVOKE in force, and drained (R301, R302) -/

@[simp] theorem setWregs_win? (s : State) (fn : Nat) (r : WRegs) (job win : Nat) : (s.setWregs fn r).win? job win = s.win? job win := rfl

/-- The entry that an OPEN in force leaves: the staged values under the generation of the entry. -/
def State.winOpened (s : State) (fn : Nat) (w : Win) : Win :=
  let r := s.wregs fn
  let staged := Win.ofUnits [r.v1, r.v2, r.v3]
  { staged with comp := if fn = 0 then staged.comp else (s.vfComp fn).getD 0, wgen := w.wgen, isOpen := true, fwdv := false, fwd := w.fwd }

/-- The entry that a REVOKE in force leaves: closed, with the next generation and the staged forward. -/
def State.winRevoked (s : State) (fn : Nat) (w : Win) : Win :=
  let r := s.wregs fn
  let staged := Win.ofUnits [r.v1, r.v2, r.v3]
  w.close staged.fwdv staged.fwd

section
variable {s : State} {fn : Nat} {w : Win}

theorem winDue_eq_true (busy : (s.wregs fn).busy = true) (op : (s.wregs fn).op = 3 ∨ (s.wregs fn).op = 4)
    (late : (s.wregs fn).since + 1200 ≤ s.timer) : s.winDue fn = true := by
  rcases op with op | op <;> simp [State.winDue, busy, op, late]

variable (held : s.win? (s.wregs fn).job (s.wregs fn).win = some w)
include held

theorem winForce_of_open (op : (s.wregs fn).op = 3) : s.winForce fn =
    (s.setWin (s.wregs fn).job (s.wregs fn).win (s.winOpened fn w)).setWregs fn { s.wregs fn with busy := false, wgen := w.wgen } := by
  unfold State.winForce
  dsimp only
  rw [held]
  dsimp only
  rw [if_pos op]
  rfl

theorem winForce_of_revoke (op : (s.wregs fn).op = 4) (empty : lookD s.rmo.oldOps fn [] = [])
    (drained : s.isDrained (s.drainOf (s.wregs fn).job (s.wregs fn).win w) = true) : ∃ old, s.winForce fn =
    ({ s.setWin (s.wregs fn).job (s.wregs fn).win (s.winRevoked fn w) with rmo := { (s.setWin (s.wregs fn).job (s.wregs fn).win (s.winRevoked fn w)).rmo with oldOps := old } }).setWregs fn
      { s.wregs fn with busy := false, wgen := w.wgen + 1, drained := true } := by
  unfold State.winForce
  dsimp only
  rw [held]
  dsimp only
  rw [if_neg (by rw [op]; decide), empty]
  simp only [List.nil_append, List.filter_cons, drained, Bool.not_true, Bool.false_eq_true, if_false, List.filter_nil]
  exact ⟨_, rfl⟩

end

/-- Where every revoked generation of a function is drained, DRAINED reads 1 and none of them is left (R302). -/
theorem exec_windowDrained_all {s : State} {t fn : Nat} (some_ : lookD s.rmo.oldOps fn [] ≠ [])
    (all : ∀ d ∈ lookD s.rmo.oldOps fn [], s.isDrained d = true) : Yields (.windowDrained t fn) s fun v =>
      (v.wregs fn).drained = true ∧ look v.rmo.oldOps fn = none := by
  have parts : (lookD (s.arrive t).rmo.oldOps fn []).partition (s.arrive t).isDrained = (lookD s.rmo.oldOps fn [], []) := by
    rw [List.partition_eq_filter_filter, State.arrive_rmo]
    simp only [Prod.mk.injEq, List.filter_eq_self, List.filter_eq_nil_iff, arrive_isDrained, Function.comp_apply, Bool.not_eq_true']
    exact ⟨all, fun d hd => by rw [all d hd]; decide⟩
  change ∃ v, execWindowDrained t fn s = .next v ∧ _
  unfold execWindowDrained
  dsimp only
  rw [parts]
  dsimp only
  rw [if_neg some_]
  refine ⟨_, rfl, ?_⟩
  generalize hx : State.setWregs _ fn _ = x
  have events := foldl_sansEvents (l := lookD s.rmo.oldOps fn []) (s := x) (f := fun s d => s.event
    { cls := 3, code := 2, subj := d.win, comp := (s.win? d.job d.win).map fun w : Win => w.comp, job := d.job,
      detail := leBytes 2 d.node ++ [0, 0] ++ leBytes 6 d.addr }) (fun s d => event_sansEvents ..)
  constructor
  · rw [State.wregs, RmoSt.eq_of_sansEvents RmoSt.regs (fun _ => rfl) events]
    subst hx
    exact congrArg WRegs.drained (setWregs_wregs_same ..)
  · rw [RmoSt.eq_of_sansEvents RmoSt.oldOps (fun _ => rfl) events]
    subst hx
    exact look_drop_same ..

/-! ### The obligation on window commands -/

section
variable {s : State} {t fn win : Nat} (ready : s.ready = true)
include ready

theorem exec_windowInsert : exec (.windowInsert t fn win) s = .next ((s.arrive t).winCommand fn 1 win) := by
  change execWindowInsert t fn win s = _
  simp [execWindowInsert, ready]

theorem exec_windowRemove : exec (.windowRemove t fn win) s = .next ((s.arrive t).winCommand fn 2 win) := by
  change execWindowRemove t fn win s = _
  simp [execWindowRemove, ready]

theorem exec_windowOpen : exec (.windowOpen t fn win) s = .next ((s.arrive t).winCommand fn 3 win) := by
  change execWindowOpen t fn win s = _
  simp [execWindowOpen, ready]

theorem exec_windowRevoke : exec (.windowRevoke t fn win) s = .next ((s.arrive t).winCommand fn 4 win) := by
  change execWindowRevoke t fn win s = _
  simp [execWindowRevoke, ready]

end

theorem exec_windowChangeInForce (s : State) (t fn : Nat) :
    exec (.windowChangeInForce t fn) s = .next (if (s.arrive t).winDue fn then (s.arrive t).winForce fn else s.arrive t) := rfl

/-- Settles O13, by the branches of a command at the window registers and of its coming into force. -/
theorem windowCommandsTakeAndEnd : Obligations.WindowCommandsTakeAndEnd := by
  unfold Obligations.WindowCommandsTakeAndEnd
  intro s t fn win ready r job
  let u := s.arrive t
  have regs : u.wregs fn = r := arrive_wregs ..
  have hjob : u.winJob fn (u.wregs fn) = job := by rw [regs, arrive_winJob]
  have check (op : Nat) : u.winCheck fn op (u.winJob fn (u.wregs fn)) (u.wregs fn) win = s.winCheck fn op job r win := by
    rw [hjob, regs, arrive_winCheck]
  have hbm : u.hbm = s.hbm := State.arrive_hbm s t
  have idle (h : r.busy = false) : (u.wregs fn).busy = false := by rw [regs]; exact h
  have taken (op : Nat) (ok : s.winCheck fn op job r win = .ok) : (u.winTaken fn op win).busy = true ∧ (u.winTaken fn op win).op = op ∧
      (u.winTaken fn op win).status = .ok ∧ (u.winTaken fn op win).win = win := ⟨rfl, rfl, (check op).trans ok, rfl⟩
  refine ⟨fun busy => ?_, fun free refused => ?_, fun free ok => ?_, fun free ok => ?_, fun free ok => ?_, fun free ok => ?_,
    fun w busy op late held => ?_, fun w busy op late held empty drained => ?_, fun early => ?_, exec_windowDrained_all⟩
  · rw [exec_windowOpen ready, winCommand_of_busy (by rw [regs]; exact busy), regs]
  · refine .of_exec (exec_windowOpen ready) ?_
    rw [winCommand_of_refused (idle free) (by rw [check]; exact refused), setWregs_wregs_same]
    exact ⟨idle free, check 3, hbm⟩
  · obtain ⟨b, best⟩ := best_of_insertOk ok
    obtain ⟨busy, op, status, hwin⟩ := taken 1 ok
    refine .of_exec (exec_windowInsert ready) ?_
    rw [winCommand_of_allowed (idle free) ((check 1).trans ok), if_pos rfl, moveIn_wregs, setWregs_wregs_same, hjob]
    exact ⟨busy, op, status, hwin, moveIn_entryMoves (s := u.setWregs fn _) ((arrive_adirBest ..).trans best) ..⟩
  · obtain ⟨w, held⟩ := held_of_removeOk ok
    obtain ⟨b, where_⟩ := where_of_win? held
    obtain ⟨busy, op, status, hwin⟩ := taken 2 ok
    refine .of_exec (exec_windowRemove ready) ?_
    rw [winCommand_of_allowed (idle free) ((check 2).trans ok), if_neg (by decide), if_pos rfl, moveOut_wregs, setWregs_wregs_same, hjob]
    exact ⟨busy, op, status, hwin, moveOut_entryMoves (s := u.setWregs fn _) ((arrive_adirWhere ..).trans where_) _⟩
  · obtain ⟨busy, op, status, -⟩ := taken 3 ok
    refine .of_exec (exec_windowOpen ready) ?_
    rw [winCommand_of_allowed (idle free) ((check 3).trans ok), if_neg (by decide), if_neg (by decide), setWregs_wregs_same]
    exact ⟨busy, op, status, hbm⟩
  · obtain ⟨busy, op, status, -⟩ := taken 4 ok
    refine .of_exec (exec_windowRevoke ready) ?_
    rw [winCommand_of_allowed (idle free) ((check 4).trans ok), if_neg (by decide), if_neg (by decide), setWregs_wregs_same]
    exact ⟨busy, op, status, hbm⟩
  · have entry : u.win? (u.wregs fn).job (u.wregs fn).win = some w := by rw [regs, arrive_win?]; exact held
    have due : u.winDue fn = true := winDue_eq_true (by rw [regs]; exact busy) (.inl (by rw [regs]; exact op)) (by rw [regs]; exact late)
    refine .of_exec (exec_windowChangeInForce s t fn) ?_
    rw [if_pos due, winForce_of_open entry (by rw [regs]; exact op), setWregs_wregs_same, setWregs_win?]
    have found := win?_setWin entry (u.winOpened fn w)
    obtain ⟨open_, wgen⟩ := ofUnits_toUnits_state (u.winOpened fn w)
    obtain ⟨base, size⟩ := ofUnits_toUnits_range (w := u.winOpened fn w) [(u.wregs fn).v1, (u.wregs fn).v2, (u.wregs fn).v3] rfl rfl
    rw [regs] at found base size ⊢
    exact ⟨rfl, rfl, _, found, open_, wgen, base, size⟩
  · have entry : u.win? (u.wregs fn).job (u.wregs fn).win = some w := by rw [regs, arrive_win?]; exact held
    have due : u.winDue fn = true := winDue_eq_true (by rw [regs]; exact busy) (.inr (by rw [regs]; exact op)) (by rw [regs]; exact late)
    obtain ⟨old, force⟩ := winForce_of_revoke entry (by rw [regs]; exact op) (by rw [State.arrive_rmo]; exact empty)
      (by rw [regs, arrive_isDrained, arrive_drainOf]; exact drained)
    refine .of_exec (exec_windowChangeInForce s t fn) ?_
    rw [if_pos due, force, setWregs_wregs_same, setWregs_win?]
    have found := win?_setWin entry (u.winRevoked fn w)
    obtain ⟨closed, wgen⟩ := ofUnits_toUnits_state (u.winRevoked fn w)
    rw [regs] at found ⊢
    exact ⟨rfl, rfl, rfl, _, found, closed, wgen⟩
  · have young : ¬ r.since + 1200 ≤ u.timer := Nat.not_le.2 early
    have due : u.winDue fn = false := by simp [State.winDue, regs, young]
    rw [exec_windowChangeInForce, if_neg (by simp [u, due])]

/-! ### Connection entries (R305) -/

section
variable (s : State) (t : Nat)
@[simp] theorem arrive_sendEnt (q : Nat) : (s.arrive t).sendEnt q = s.sendEnt q := by rw [arrive_eq]; rfl
@[simp] theorem arrive_recvEnt (i : Nat) : (s.arrive t).recvEnt i = s.recvEnt i := by rw [arrive_eq]; rfl
@[simp] theorem arrive_queued (q : Nat) : (s.arrive t).queued q = s.queued q := by rw [arrive_eq]; rfl
@[simp] theorem arrive_jobGen (job : Nat) : (s.arrive t).jobGen job = s.jobGen job := by rw [arrive_eq]; rfl
end

@[simp] theorem setSend_sendEnt_same (s : State) (q : Nat) (e : SendEnt) : (s.setSend q e).sendEnt q = e := lookD_put_same ..

theorem setSend_sendEnt_other (s : State) {q i : Nat} (e : SendEnt) (other : i ≠ q) : (s.setSend q e).sendEnt i = s.sendEnt i :=
  lookD_put_other _ _ _ _ _ other

@[simp] theorem setRecv_recvEnt_same (s : State) (i : Nat) (e : RecvEnt) : (s.setRecv i e).recvEnt i = e := lookD_put_same ..

@[simp] theorem setWregs_sendEnt (s : State) (fn : Nat) (r : WRegs) (q : Nat) : (s.setWregs fn r).sendEnt q = s.sendEnt q := rfl
@[simp] theorem setWregs_recvEnt (s : State) (fn : Nat) (r : WRegs) (i : Nat) : (s.setWregs fn r).recvEnt i = s.recvEnt i := rfl

/-- The registers of a function with the selection of a connection command and its status. -/
def State.connRegs (s : State) (fn idx : Nat) (send : Bool) (st : Status) : WRegs := { s.wregs fn with cidx := idx, cside := send, cstat := st }

/-- A connection command ends with a status alone. -/
def State.connDone (s : State) (fn idx : Nat) (send : Bool) (st : Status) : State := s.setWregs fn (s.connRegs fn idx send st)

/-- The send entry that a connection command writes (R305). -/
def State.connSend (s : State) : SendEnt :=
  let c := (s.wregs 0).cval.toNat
  { SendEnt.off with
    fdest := bitsOf c 0 14, rcid := bitsOf c 16 16, job := bitsOf c 32 24, valid := bitAt c 63, cwnd := s.pdNum 0x4102 0,
    wroteGen := some (s.jobGen (bitsOf c 32 24)).1 }

/-- The receive entry that a connection command writes (R305). -/
def State.connRecv (s : State) : RecvEnt :=
  let c := (s.wregs 0).cval.toNat
  { RecvEnt.off with
    osrc := bitsOf c 0 14, conn := bitsOf c 16 13, job := bitsOf c 32 24, valid := bitAt c 63,
    wroteGen := some (s.jobGen (bitsOf c 32 24)).1 }

section
variable {s : State} {idx : Nat}

theorem connCommand_of_vf {fn : Nat} (vf : fn ≠ 0) (send : Bool) : s.connCommand fn idx send = s.connDone fn idx send .accessDenied :=
  if_pos vf

theorem connCommand_send_of_beyond (beyond : 8192 ≤ idx) : s.connCommand 0 idx true = s.connDone 0 idx true .unsupported := by
  unfold State.connCommand
  dsimp only
  rw [if_neg (by decide), if_pos ⟨rfl, beyond⟩]
  rfl

theorem connCommand_send_of_busy (within : idx < 8192) (busy : (s.sendEnt idx).busy = true) :
    s.connCommand 0 idx true = s.connDone 0 idx true .busyConflict := by
  unfold State.connCommand
  dsimp only
  rw [if_neg (by decide), if_neg (by omega), if_pos rfl, busy, Bool.true_or, if_pos rfl]
  rfl

theorem connCommand_send_of_idle (within : idx < 8192) (idle : (s.sendEnt idx).busy = false) (fresh : ∀ m ∈ s.queued idx, m.cseq = none)
    (first : (s.sendEnt idx).wroteGen ≠ s.connSend.wroteGen) :
    s.connCommand 0 idx true = (s.setSend idx s.connSend).setWregs 0 (s.connRegs 0 idx true .ok) := by
  have none_ : ((s.queued idx).any fun m => m.cseq.isSome) = false := by
    rw [List.any_eq_false]
    intro m hm
    simp [fresh m hm]
  unfold State.connCommand
  dsimp only
  rw [if_neg (by decide), if_neg (by omega), if_pos rfl, idle, none_, Bool.or_self, if_neg (by decide), if_neg fun h => first h.1]
  rfl

theorem connCommand_recv_of_open (open_ : ∃ m ∈ s.rmo.reasm, m.rcid = idx) :
    s.connCommand 0 idx false = s.connDone 0 idx false .busyConflict := by
  obtain ⟨m, hm, own⟩ := open_
  have some_ : (s.rmo.reasm.any fun c => c.rcid == idx) = true := List.any_eq_true.2 ⟨m, hm, by simp [own]⟩
  unfold State.connCommand
  dsimp only
  rw [if_neg (by decide), if_neg (by simp), if_neg (by decide), some_, if_pos rfl]
  rfl

theorem connCommand_recv_of_idle (idle : ∀ m ∈ s.rmo.reasm, m.rcid ≠ idx) (first : (s.recvEnt idx).wroteGen ≠ s.connRecv.wroteGen) :
    ∃ unk, s.connCommand 0 idx false =
      (({ s with rmo := { s.rmo with unk := unk } } : State).setRecv idx s.connRecv).setWregs 0 (s.connRegs 0 idx false .ok) := by
  have none_ : (s.rmo.reasm.any fun c => c.rcid == idx) = false := by
    rw [List.any_eq_false]
    intro m hm
    simp [idle m hm]
  unfold State.connCommand
  dsimp only
  rw [if_neg (by decide), if_neg (by simp), if_neg (by decide), none_, if_neg (by decide), if_neg fun h => first h.1]
  exact ⟨_, rfl⟩

end

section
variable {s : State} {w : BitVec 32} (ready : s.ready = true) (t fn : Nat)
include ready

theorem exec_connectionWrite_go (go : bitAt w.toNat 17 = true) : exec (.connectionWrite t fn w) s =
    .next ((s.arrive t).connCommand fn (bitsOf w.toNat 0 16) (bitAt w.toNat 16)) := by
  change execConnectionWrite t fn w s = _
  simp [execConnectionWrite, ready, go]

theorem exec_connectionWrite_select (go : bitAt w.toNat 17 = false) : exec (.connectionWrite t fn w) s =
    .next ((s.arrive t).setWregs fn { s.wregs fn with cidx := bitsOf w.toNat 0 16, cside := bitAt w.toNat 16 }) := by
  change execConnectionWrite t fn w s = _
  simp [execConnectionWrite, ready, go]

end

/-- Settles O14, by the branches of a connection command. -/
theorem connectionWritesSetAnEntry : Obligations.ConnectionWritesSetAnEntry := by
  unfold Obligations.ConnectionWritesSetAnEntry
  intro s t w ready idx send go c gen
  let u := s.arrive t
  have egq : u.egq = s.egq := State.arrive_egq s t
  have rmo : u.rmo = s.rmo := State.arrive_rmo s t
  have sends : u.connSend = { SendEnt.off with fdest := bitsOf c 0 14, rcid := bitsOf c 16 16, job := bitsOf c 32 24, valid := bitAt c 63, cwnd := s.pdNum 0x4102 0, wroteGen := some gen } := by
    rw [State.connSend, arrive_wregs, arrive_pdNum, arrive_jobGen]
  have recvs : u.connRecv = { RecvEnt.off with osrc := bitsOf c 0 14, conn := bitsOf c 16 13, job := bitsOf c 32 24, valid := bitAt c 63, wroteGen := some gen } := by
    rw [State.connRecv, arrive_wregs, arrive_jobGen]
  have done (fn : Nat) (side : Bool) (st : Status) : ((u.connDone fn idx side st).wregs fn).cstat = st :=
    congrArg WRegs.cstat (setWregs_wregs_same ..)
  have command (fn : Nat) (hgo : go = true) (side : Bool) (hside : send = side) :
      exec (.connectionWrite t fn w) s = .next (u.connCommand fn idx side) := by
    rw [exec_connectionWrite_go ready t fn hgo]
    exact congrArg (fun b => Host.Outcome.next (u.connCommand fn idx b)) hside
  refine ⟨fun hs hg within idle fresh first => ?_, fun hs hg within busy => ?_, fun hs hg beyond => ?_, fun hs hg idle first => ?_,
    fun hs hg open_ => ?_, fun fn vf hg => ?_, fun fn hg => exec_connectionWrite_select ready t fn hg⟩
  · refine .of_exec (command 0 hg true hs) ?_
    rw [connCommand_send_of_idle within (by rw [arrive_sendEnt]; exact idle) (by rw [arrive_queued]; exact fresh)
      (by rw [arrive_sendEnt, sends]; exact first), setWregs_sendEnt, setSend_sendEnt_same, setWregs_wregs_same]
    exact ⟨sends, rfl, fun i other => by
      rw [setWregs_sendEnt, setSend_sendEnt_other _ _ other, arrive_sendEnt]⟩
  · refine .of_exec (command 0 hg true hs) ?_
    rw [connCommand_send_of_busy within (by rw [arrive_sendEnt]; exact busy)]
    exact ⟨arrive_sendEnt .., done ..⟩
  · refine .of_exec (command 0 hg true hs) ?_
    rw [connCommand_send_of_beyond beyond]
    exact ⟨egq, done ..⟩
  · refine .of_exec (command 0 hg false hs) ?_
    obtain ⟨unk, eq⟩ := connCommand_recv_of_idle (s := u) (by rw [rmo]; exact idle) (by rw [arrive_recvEnt, recvs]; exact first)
    rw [eq, setWregs_recvEnt, setRecv_recvEnt_same, setWregs_wregs_same]
    exact ⟨recvs, rfl, egq⟩
  · refine .of_exec (command 0 hg false hs) ?_
    rw [connCommand_recv_of_open (by rw [rmo]; exact open_)]
    exact ⟨arrive_recvEnt .., done ..⟩
  · refine .of_exec (command fn hg send rfl) ?_
    rw [connCommand_of_vf vf]
    exact ⟨done .., egq, (congrArg RmoSt.recv rmo :)⟩

/-! ### Responses leave (R295, R297, R394) -/

/-- Nothing but the packets that wait for a port, the datagrams to come, the ordinals spent and what was sent has moved. -/
def Responding (s t : State) : Prop := ∃ pkts gw ords out,
  t = { s with lnk := { s.lnk with pkts := pkts }, rmo := { s.rmo with gw := gw, ords := ords }, out := out }

theorem Responding.refl (s : State) : Responding s s := ⟨_, _, _, _, rfl⟩

theorem Responding.trans {a b c : State} (h : Responding a b) (k : Responding b c) : Responding a c := by
  obtain ⟨_, _, _, _, rfl⟩ := h
  obtain ⟨_, _, _, _, rfl⟩ := k
  exact ⟨_, _, _, _, rfl⟩

theorem Responding.foldl {α : Type} {f : State → α → State} (h : ∀ s x, Responding s (f s x)) (l : List α) (s : State) :
    Responding s (l.foldl f s) := by
  induction l generalizing s with
  | nil => exact .refl s
  | cons x l ih => exact (h s x).trans (ih (f s x))

theorem sendResponse_responding (s : State) (g : Segment) (ord : Nat) (r : Response) : Responding s (s.sendResponse g ord r) := by
  unfold State.sendResponse
  dsimp only
  generalize (if g.vl = 3 then 4 else 5) = vl
  split
  · exact ⟨_, _, _, _, rfl⟩
  · exact ⟨_, _, _, _, rfl⟩

theorem emit_responding (s : State) (o : Out) : Responding s (s.emit o) := ⟨_, _, _, _, rfl⟩

theorem respond_responding (s : State) (g : Segment) (st : Status) (hint : Option Nat) (ce : Bool) (data : List Byte) :
    Responding s (s.respond g st hint ce data) := by
  unfold State.respond
  extract_lets send mine n
  have sent (ord : Nat) (x : State) : Responding x (send ord x) := (sendResponse_responding ..).trans (emit_responding ..)
  split
  · exact sent ..
  split
  · exact .refl s
  · exact Responding.trans ⟨_, _, _, _, rfl⟩ (sent ..)

/-- A response is the latest of what was sent, where it needs no ordinal or one is left for its message. -/
theorem respond_head {s : State} {g : Segment} (st : Status) (ce : Bool) {data : List Byte}
    (ordinal : data = [] ∨ ∀ x ∈ s.rmo.ords, ¬ (x.1 = g.rcid ∧ x.2.1 = g.cseq)) :
    ∃ ce', (s.respond g st none ce data).out.head? = some (.response g.osrc g.rcid g.conn g.cseq st none ce' data) := by
  unfold State.respond
  extract_lets send mine n
  by_cases empty : data = []
  · rw [if_pos ⟨empty, rfl⟩]
    exact ⟨_, rfl⟩
  · have unspent := ordinal.resolve_left empty
    have first : n = 0 := by
      have none_ : s.rmo.ords.find? mine = none := List.find?_eq_none.2 fun x hx => by simpa [mine] using unspent x hx
      simp [n, none_]
    rw [if_neg (by simp [empty]), if_neg (by omega)]
    exact ⟨_, rfl⟩

theorem answerWritten_responding (s : State) : ∃ aresp, Responding { s with rmo := { s.rmo with aresp := aresp } } s.answerWritten :=
  ⟨_, Responding.foldl (fun s (r : AResp) => respond_responding s r.seg r.st none r.ce r.data) _ _⟩

theorem answerWritten_of_none {s : State} (none_ : s.rmo.aresp = []) : s.answerWritten = s := by
  unfold State.answerWritten
  dsimp only
  rw [none_]
  simp only [List.filter_nil, List.foldl_nil]
  rw [← none_]

/-! ### Lines of the atomic unit written back (R319) -/

/-- A line that is written back: its bytes in memory, and the line unchanged in the unit. -/
theorem writeBackNow_alone {s : State} {x : ALine} (alone : s.rmo.alines = [x]) (dirty : x.dirty = true) (none_ : s.rmo.aresp = []) :
    s.writeBackNow x.line = { s.store (64 * x.line) x.data with rmo := { s.rmo with alines := [{ x with dirty := false }] } } := by
  have found : s.rmo.alines.find? (fun y => y.line == x.line) = some x := by simp [alone]
  have clean : mapIf (fun y => y.line == x.line) (fun y : ALine => { y with dirty := false }) s.rmo.alines = [{ x with dirty := false }] := by
    simp [mapIf, alone]
  unfold State.writeBackNow
  rw [found]
  dsimp only
  rw [dirty, if_neg (by decide), State.store_rmo, clean]
  exact answerWritten_of_none none_

theorem writeBackNow_hots (s : State) (l : Nat) : (s.writeBackNow l).rmo.hots = s.rmo.hots := by
  unfold State.writeBackNow
  split
  · rfl
  split
  · rfl
  · obtain ⟨aresp, pkts, gw, ords, out, eq⟩ := answerWritten_responding _
    rw [eq]; rfl

theorem takeLine_hots (s : State) (l : Nat) : (s.takeLine l).rmo.hots = s.rmo.hots := by
  unfold State.takeLine
  split
  · rfl
  · dsimp only
    split
    · rfl
    split
    · exact writeBackNow_hots ..
    · rfl

theorem takeLine_held (s : State) (l : Nat) : (s.takeLine l).heldLine l = true := by
  unfold State.takeLine
  split
  next held =>
    obtain ⟨x, hx, own⟩ := List.any_eq_true.1 held
    exact List.any_eq_true.2 ⟨_, List.mem_map_of_mem hx, by simp [own]⟩
  · exact List.any_eq_true.2 ⟨_, List.mem_append_right _ (List.mem_singleton_self _), beq_self_eq_true l⟩

/-! ### The obligation on write-backs and hot lines -/

theorem event_heldLine (s : State) (e : Event) (l : Nat) : (s.event e).heldLine l = s.heldLine l := by
  rw [State.heldLine, RmoSt.eq_of_sansEvents RmoSt.alines (fun _ => rfl) (event_sansEvents s e)]; rfl

theorem event_hots (s : State) (e : Event) : (s.event e).rmo.hots = s.rmo.hots :=
  RmoSt.eq_of_sansEvents RmoSt.hots (fun _ => rfl) (event_sansEvents s e)

/-- A hot line that is counted anew: the end of its interval is noted, and the unit holds it (R320). -/
theorem exec_hotLine_counts {s : State} {t e : Nat} {h : Hot} (alone : s.rmo.hots = [h]) (hot : h.hotTo = some e)
    (apart : ∀ n, h.told = some n → n + us ≤ e) :
    Yields (.hotLine t h.line) s fun v => v.rmo.hots.map (·.told) = [some e] ∧ v.heldLine h.line = true := by
  have hots : (s.arrive t).rmo.hots = [h] := by rw [State.arrive_rmo]; exact alone
  have found : (s.arrive t).rmo.hots.find? (fun x => x.line == h.line) = some h := by rw [hots]; simp
  have untold : (h.told.any fun u => decide (e < u + us)) = false := by
    cases told : h.told with
    | none => rfl
    | some n => simpa using apart n told
  change ∃ v, execHotLine t h.line s = .next v ∧ _
  unfold execHotLine
  dsimp only
  rw [found]
  dsimp only
  rw [hot]
  dsimp only
  rw [untold, if_neg (by decide), hots]
  generalize hx : State.count _ 0x4160 6 = x
  have noted : x.rmo.hots.map (·.told) = [some e] := by subst hx; simp [mapIf, State.count, State.countBy]
  split
  · exact ⟨_, rfl, by rw [event_hots, takeLine_hots, noted], by rw [event_heldLine, takeLine_held]⟩
  · exact ⟨_, rfl, by rw [takeLine_hots, noted], takeLine_held ..⟩

/-- Settles O20, by what a write-back of the one line leaves, and by what a line taken into the unit leaves of the hot lines. -/
theorem atomicLinesWriteBackAndHotLines : Obligations.AtomicLinesWriteBackAndHotLines := by
  unfold Obligations.AtomicLinesWriteBackAndHotLines
  intro s t line x u
  have rmo : u.rmo = s.rmo := State.arrive_rmo s t
  refine ⟨fun alone own dirty none_ free => ?_, fun alone own dirty none_ free idle => ?_, fun waits => ?_, fun h e alone own hot apart => ?_⟩
  · subst own
    have written := writeBackNow_alone (s := u) (by rw [rmo]; exact alone) dirty (by rw [rmo]; exact none_)
    have hexec : exec (.atomicWriteback t x.line) s = .next (u.writeBackNow x.line) := congrArg Host.Outcome.next (if_neg (Bool.eq_false_iff.1 free))
    refine .of_exec hexec ?_
    have mem : (u.writeBackNow x.line).mem = Memory.writes s.mem (64 * x.line) x.data := by rw [written, ← State.arrive_mem s t]; rfl
    exact ⟨mem, by rw [written], fun b out => by rw [mem, Memory.read_writes_other _ _ _ out]⟩
  · subst own
    have written := writeBackNow_alone (s := u) (by rw [rmo]; exact alone) dirty (by rw [rmo]; exact none_)
    have found : u.rmo.alines.find? (fun y => y.line == x.line) = some x := by simp [rmo, alone]
    have hexec : exec (.hotLineEvict t x.line) s = .next (u.dropLine x.line) := by
      change execHotLineEvict t x.line s = _
      unfold execHotLineEvict
      dsimp only
      rw [found]
      dsimp only
      have young : ¬ ((s.arrive t).timer < x.last + us || (x.dirty && (s.arrive t).lineWaits x.line)) = true := by
        rw [show (s.arrive t).lineWaits x.line = false from free, Bool.and_false, Bool.or_false, decide_eq_true_eq]
        exact Nat.not_lt.2 idle
      rw [if_neg young]
    refine .of_exec hexec ?_
    rw [State.dropLine, written]
    exact ⟨by rw [← State.arrive_mem s t]; rfl, by simp⟩
  · exact congrArg Host.Outcome.next (if_pos waits)
  · subst own
    exact exec_hotLine_counts alone hot apart

/-! ### Window changes that come due before a segment's checks (R302) -/

/-- Nothing but the window table, the window registers and the revoked generations has moved. -/
def WindowsMoved (s t : State) : Prop := ∃ banks regs old,
  t = { s with hbm := { s.hbm with banks := banks }, rmo := { s.rmo with regs := regs, oldOps := old } }

theorem WindowsMoved.refl (s : State) : WindowsMoved s s := ⟨_, _, _, rfl⟩

theorem WindowsMoved.trans {a b c : State} (h : WindowsMoved a b) (k : WindowsMoved b c) : WindowsMoved a c := by
  obtain ⟨_, _, _, rfl⟩ := h
  obtain ⟨_, _, _, rfl⟩ := k
  exact ⟨_, _, _, rfl⟩

theorem setWin_windowsMoved (s : State) (job win : Nat) (w : Win) : WindowsMoved s (s.setWin job win w) := by
  unfold State.setWin State.adirUpdate
  split
  · exact .refl s
  · exact ⟨_, _, _, rfl⟩

theorem winForce_windowsMoved (s : State) (fn : Nat) : WindowsMoved s (s.winForce fn) := by
  unfold State.winForce
  extract_lets r
  split
  · exact ⟨_, _, _, rfl⟩
  extract_lets staged comp w' old left x y
  split
  · exact (setWin_windowsMoved ..).trans ⟨_, _, _, rfl⟩
  · exact (setWin_windowsMoved ..).trans ⟨_, _, _, rfl⟩

theorem forceDue_windowsMoved (s : State) : WindowsMoved s s.forceDue := by
  unfold State.forceDue
  generalize s.rmo.regs = l
  induction l generalizing s with
  | nil => exact .refl s
  | cons r l ih =>
    refine WindowsMoved.trans ?_ (ih _)
    dsimp only
    split
    · exact winForce_windowsMoved ..
    · exact .refl s

/-- The state in which a segment that arrives meets its checks. -/
theorem arrive_forceDue_eq (s : State) (t : Nat) : ∃ timer banks regs old, (s.arrive t).forceDue =
    { s with timer := timer, hbm := { s.hbm with banks := banks }, rmo := { s.rmo with regs := regs, oldOps := old } } := by
  obtain ⟨banks, regs, old, eq⟩ := forceDue_windowsMoved (s.arrive t)
  rw [eq, arrive_eq]
  exact ⟨_, _, _, _, rfl⟩

/-! ### A segment that is its whole message (R311 to R314) -/

/-- A count of hot lines moves the hot lines alone. -/
theorem countHot_eq (s : State) (g : Segment) (a len : Nat) : ∃ hots, s.countHot g a len = { s with rmo := { s.rmo with hots := hots } } := by
  unfold State.countHot
  extract_lets most
  clear_value most
  generalize linesOf a len = l
  induction l generalizing s with
  | nil => exact ⟨_, rfl⟩
  | cons x l ih =>
    obtain ⟨hots, eq⟩ := ih _
    exact ⟨hots, eq⟩

section
variable {s : State} {op : Nat} {g : Segment} {w : Win}

theorem SegmentPasses.segment_eq (h : SegmentPasses s op g w) (data : List Byte) : ({ g with off := 0, data := data } : Segment) = { g with data := data } := by
  rw [← h.off]

theorem SegmentPasses.receive (h : SegmentPasses s.forceDue op g w) : s.receive op true g = s.forceDue.acceptSeg g w := by
  obtain ⟨banks, regs, old, eq⟩ := forceDue_windowsMoved s
  have ready : s.ready = true := by have := h.ready; rw [eq] at this; exact this
  have dest : g.fdest = s.nodeId := by have := h.dest; rw [eq] at this; exact this
  unfold State.receive
  rw [if_neg (by simp [ready]), if_neg (by simp [dest])]
  dsimp only
  rw [h.check]

variable (h : SegmentPasses s op g w)
include h

/-- A message whose bytes are not written as they come is applied with its payload. -/
theorem SegmentPasses.acceptSeg_kept (kept : op ≠ 2 ∧ op ≠ 8) : s.acceptSeg g w =
    (s.countHot g (w.base + g.addr) (segSpan g)).applyMsg { g with data := if g.opc = 1 then g.data else [] } w [(0, g.data)] := by
  have none_ : s.rmo.reasm.find? (fun c => c.rcid == g.rcid && c.cseq == g.cseq) = none := h.fresh
  have opc : ¬ (g.opc = 2 ∨ g.opc = 8) := by rw [h.opc]; omega
  have keep : (g.flag || !(g.opc == 2 || g.opc == 8)) = true := by simp [h.opc, kept]
  unfold State.acceptSeg
  dsimp only
  rw [none_, if_neg (by have := h.room; simp; omega), if_neg (by simp), keep, if_neg opc, if_neg opc, h.off, h.plain]
  simp only [Option.getD_none, List.contains_nil, Bool.false_eq_true, if_false, if_true, List.length_singleton, h.one, lt_irrefl,
    Bool.not_false, true_or, List.filter_nil, List.mergeSort_singleton, Nat.add_zero]

/-- A message whose bytes are written as they come is applied without its payload. -/
theorem SegmentPasses.acceptSeg_written (written : op = 2 ∨ op = 8) : s.acceptSeg g w =
    ((s.countHot g (w.base + g.addr) g.slen).unitWrite (w.base + g.addr) g.data).applyMsg { g with data := [] } w [] := by
  have none_ : s.rmo.reasm.find? (fun c => c.rcid == g.rcid && c.cseq == g.cseq) = none := h.fresh
  have opc : g.opc = 2 ∨ g.opc = 8 := by rw [h.opc]; exact written
  have read : g.opc ≠ 1 := by rcases opc with e | e <;> rw [e] <;> decide
  have keep : (g.flag || !(g.opc == 2 || g.opc == 8)) = false := by rcases opc with e | e <;> simp [h.plain, e]
  unfold State.acceptSeg
  dsimp only
  rw [none_, if_neg (by have := h.room; simp; omega), if_neg (by simp), keep, if_pos opc, if_pos opc, h.off, h.plain, if_neg read]
  simp only [Option.getD_none, List.contains_nil, Bool.false_eq_true, if_false, List.length_singleton, h.one, lt_irrefl,
    Bool.not_false, true_or, if_true, List.mergeSort_nil, Nat.add_zero]

/-- The payload is as long as its segment says, and of a size that the operation takes (R294, R298). -/
theorem SegmentPasses.sizes : g.data.length = g.mlen ∧ segSizeOk g = true := by
  have fine : s.wellFormed op g = true ∧ s.lateChecks g = .pass w := by
    have := h.check
    unfold State.checkSeg at this
    dsimp only at this
    split at this
    · cases this
    next formed =>
    split at this
    · cases this
    split at this
    · cases this
    split at this
    · cases this
    split at this
    · cases this
    split at this
    · cases this
    exact ⟨by simpa using formed, this⟩
  obtain ⟨formed, late⟩ := fine
  constructor
  · have one := h.one
    simp only [State.wellFormed, Bool.and_eq_true, beq_iff_eq, decide_eq_true_eq] at formed
    obtain ⟨⟨⟨⟨⟨⟨-, least⟩, -⟩, -⟩, -⟩, slen⟩, length⟩ := formed.1
    unfold segCount at one
    rw [length, slen, h.off]
    omega
  · unfold State.lateChecks at late
    split at late
    · cases late
    split at late
    · cases late
    split at late
    · cases late
    split at late
    · cases late
    split at late
    · cases late
    next sizes =>
    simp only [not_or, Bool.not_eq_true, Bool.not_eq_false'] at sizes
    exact sizes.2.2

end

/-! ### The atomic unit, empty or with one line (R318, R319) -/

theorem linesOf_one {a len : Nat} (least : 0 < len) (within : a % 64 + len ≤ 64) : linesOf a len = [a / 64] := by
  have : (a + len - 1) / 64 + 1 - a / 64 = 1 := by omega
  rw [linesOf, if_neg (by omega), this]
  rfl

theorem getD_reads (m : List Host.Cell) {n i : Nat} (a : Nat) (h : i < n) : (Memory.reads m a n).getD i 0 = Memory.read m (a + i) := by
  induction n generalizing a i with
  | zero => omega
  | succ n ih =>
    cases i with
    | zero => rfl
    | succ i =>
      rw [Memory.reads, List.getD_cons_succ, ih (a + 1) (by omega)]
      congr 1; omega

theorem reads_eq_map (m : List Host.Cell) (a n : Nat) : Memory.reads m a n = (List.range n).map fun i => Memory.read m (a + i) := by
  induction n generalizing a with
  | zero => rfl
  | succ n ih =>
    rw [Memory.reads, ih, List.range_succ_eq_map, List.map_cons, List.map_map]
    congr 1
    refine List.map_congr_left fun i _ => ?_
    dsimp only [Function.comp_apply]
    congr 1; omega

/-- Memory after bytes are stored, line by line (R318). -/
def lineWrites (m : List Host.Cell) (a : Nat) (bs : List Byte) : List Host.Cell :=
  (linesOf a bs.length).foldl (fun m l =>
    let lo := max a (64 * l)
    Memory.writes m lo ((bs.drop (lo - a)).take (64 * l + 64 - lo))) m

/-- A line as the unit takes it from memory. -/
def State.lineOf (s : State) (l : Nat) : ALine := { line := l, data := s.load (64 * l) 64, last := s.timer, dirty := false }

section
variable {s : State} (empty : s.rmo.alines = [])
include empty

theorem heldLine_of_empty (l : Nat) : s.heldLine l = false := by rw [State.heldLine, empty]; rfl

theorem unitRead_of_empty (a n : Nat) : s.unitRead a n = s.load a n := if_pos empty

/-- Where the unit holds no line, bytes are written to memory. -/
theorem unitWrite_of_empty (a : Nat) (bs : List Byte) : ∃ lines,
    s.unitWrite a bs = { s with mem := lineWrites s.mem a bs, hbm := { s.hbm with lines := lines } } := by
  unfold State.unitWrite lineWrites
  generalize linesOf a bs.length = l
  induction l generalizing s with
  | nil => exact ⟨_, rfl⟩
  | cons x l ih =>
    rw [List.foldl_cons, List.foldl_cons]
    dsimp only
    rw [heldLine_of_empty empty, if_neg (by decide)]
    obtain ⟨lines, eq⟩ := ih (s := s.store _ _) empty
    exact ⟨lines, eq⟩

theorem takeLine_of_empty (l : Nat) : s.takeLine l = { s with rmo := { s.rmo with alines := [s.lineOf l] } } := by
  unfold State.takeLine
  dsimp only
  rw [heldLine_of_empty empty, if_neg (by decide), if_pos (by rw [empty]; decide), empty]
  rfl

theorem answer_of_empty (g : Segment) (st : Status) (a len : Nat) (data : List Byte) :
    s.answer g st a len data = s.respond g st none (s.hotCe a len) data := by
  unfold State.answer
  dsimp only
  rw [empty]
  simp

end

theorem answer_keeps (s : State) (g : Segment) (st : Status) (a len : Nat) (data : List Byte) :
    ∃ aresp, Responding { s with rmo := { s.rmo with aresp := aresp } } (s.answer g st a len data) := by
  unfold State.answer
  dsimp only
  split
  · exact ⟨s.rmo.aresp, respond_responding ..⟩
  · exact ⟨_, .refl _⟩

section
variable {s : State} {y : ALine} (alone : s.rmo.alines = [y]) {a : Nat} (own : y.line = a / 64)
include alone own

/-- Bytes read from a line that the unit holds as memory does. -/
theorem unitRead_of_line {n : Nat} (within : a % 64 + n ≤ 64) (clean : y.data = s.load (64 * (a / 64)) 64) : s.unitRead a n = s.load a n := by
  rw [State.unitRead, if_neg (by simp [alone]), State.load, reads_eq_map]
  refine List.map_congr_left fun i hi => ?_
  have hi : i < n := List.mem_range.1 hi
  have line : (a + i) / 64 = a / 64 := by omega
  rw [State.unitByte, alone, line]
  simp only [List.find?_cons, own, beq_self_eq_true]
  rw [clean, State.load, getD_reads s.mem _ (by omega)]
  congr 1; omega

/-- Bytes written to a line that the unit holds. -/
theorem unitWrite_of_line {bs : List Byte} (least : 0 < bs.length) (within : a % 64 + bs.length ≤ 64) : s.unitWrite a bs =
    { s with rmo := { s.rmo with alines := [{ y with data := patch y.data (a % 64) bs, dirty := true, last := s.timer }] } } := by
  have held : s.heldLine (a / 64) = true := by simp [State.heldLine, alone, own]
  have lo : max a (64 * (a / 64)) = a := by omega
  have part : (bs.drop (a - a)).take (64 * (a / 64) + 64 - a) = bs := by
    rw [Nat.sub_self, List.drop_zero, List.take_of_length_le (by omega)]
  have at_ : a - 64 * (a / 64) = a % 64 := by omega
  unfold State.unitWrite
  rw [linesOf_one least within, List.foldl_cons, List.foldl_nil]
  dsimp only
  rw [if_pos held, lo, part, at_, alone]
  simp [mapIf, own]

end

/-! ### Bytes of an atomic operation (R299) -/

/-- An atomic operation on whole elements gives as many bytes as it takes. -/
theorem atomicBytes_length {opc n : Nat} {old arg : List Byte} (hopc : opc = 3 ∨ opc = 4 ∨ opc = 5) (hold : old.length = elemWidth opc * n)
    (harg : arg.length = elemWidth opc * n) : (atomicBytes opc old arg).length = elemWidth opc * n := by
  have pos : 0 < elemWidth opc := by rcases hopc with rfl | rfl | rfl <;> decide
  have count : (elemWidth opc * n + elemWidth opc - 1) / elemWidth opc = n := by
    rw [Nat.add_sub_assoc pos, Nat.mul_add_div pos, Nat.div_eq_of_lt (by omega), Nat.add_zero]
  have piece {l : List Byte} (length : l.length = elemWidth opc * n) {i : Nat} (hi : i < n) :
      ((l.drop (elemWidth opc * i)).take (elemWidth opc)).length = elemWidth opc := by
    have : elemWidth opc * (i + 1) ≤ elemWidth opc * n := Nat.mul_le_mul_left _ hi
    rw [List.length_take, List.length_drop, length]
    rw [Nat.mul_add_one] at this
    omega
  have elem (a b : List Byte) (ha : a.length = elemWidth opc) (hb : b.length = elemWidth opc) : (atomicElem opc a b).length = elemWidth opc := by
    rcases hopc with rfl | rfl | rfl
    · exact leBytes_length ..
    · exact leBytes_length ..
    · exact (List.length_zipWith ..).trans (by rw [ha, hb, min_self])
  rw [atomicBytes, chunks, chunks, hold, harg, count, List.zipWith_map, List.zipWith_self, List.length_flatten, List.map_map]
  have widths : (List.range n).map (List.length ∘ fun i => atomicElem opc ((old.drop (elemWidth opc * i)).take (elemWidth opc))
      ((arg.drop (elemWidth opc * i)).take (elemWidth opc))) = List.replicate n (elemWidth opc) := by
    rw [List.eq_replicate_iff]
    refine ⟨by simp, fun x hx => ?_⟩
    obtain ⟨i, hi, rfl⟩ := List.mem_map.1 hx
    have hi := List.mem_range.1 hi
    exact elem _ _ (piece hold hi) (piece harg hi)
  rw [widths, List.sum_replicate, smul_eq_mul, Nat.mul_comm]

/-! ### Atomic messages (R299, R318) -/

/-- A line after an atomic operation of a code on the bytes from a place in it on (R299): `old` are the bytes there, `arg` the payload. -/
def atomicLine (opc : Nat) (y : ALine) (place : Nat) (old arg : List Byte) : ALine :=
  if opc = 6 ∨ opc = 7 then
    if arg.take old.length = old then { y with data := patch y.data place (arg.drop old.length), dirty := true } else y
  else { y with data := patch y.data place (atomicBytes opc old arg), dirty := true }

theorem atomicLine_line (opc : Nat) (y : ALine) (place : Nat) (old arg : List Byte) : (atomicLine opc y place old arg).line = y.line := by
  unfold atomicLine
  split
  · split <;> rfl
  · rfl

theorem load_length (s : State) (a n : Nat) : (s.load a n).length = n := by
  rw [State.load, reads_eq_map, List.length_map, List.length_range]

/-- The payload of an atomic message: as many whole elements as it touches, or a compare value and a swap value (R298). -/
def AtomicPayload (opc span : Nat) (arg : List Byte) : Prop :=
  if opc = 6 ∨ opc = 7 then arg.length = 2 * span else (opc = 3 ∨ opc = 4 ∨ opc = 5) ∧ ∃ n, span = elemWidth opc * n ∧ arg.length = elemWidth opc * n

section
variable {s : State} {g : Segment} {w : Win} {arg : List Byte} (empty : s.rmo.alines = []) (least : 0 < segSpan g)
  (within : (w.base + g.addr) % 64 + segSpan g ≤ 64)
include empty least within

/-- An atomic message on a line that the empty unit takes for it: the line holds the result, and the message is answered. -/
theorem applyMsg_atomic (payload : AtomicPayload g.opc (segSpan g) arg) : ∃ aresp,
    let a := w.base + g.addr
    let x := s.finishMsg g true
    Responding { x with rmo := { x.rmo with
      aresp := aresp, alines := [atomicLine g.opc (x.lineOf (a / 64)) (a % 64) (x.load a (segSpan g)) arg] } } (s.applyMsg g w [(0, arg)]) := by
  have other : g.opc ≠ 1 ∧ g.opc ≠ 2 ∧ g.opc ≠ 8 := by
    unfold AtomicPayload at payload
    split at payload <;> omega
  dsimp only
  generalize hx : s.finishMsg g true = x
  have hempty : x.rmo.alines = [] := by subst hx; exact empty
  generalize hz : ({ x with rmo := { x.rmo with alines := [x.lineOf ((w.base + g.addr) / 64)] } } : State) = z
  have taken : x.takeLine ((w.base + g.addr) / 64) = z := by rw [takeLine_of_empty hempty, ← hz]
  have alone : z.rmo.alines = [x.lineOf ((w.base + g.addr) / 64)] := by rw [← hz]
  have timer : z.timer = x.timer := by rw [← hz]
  have old : z.unitRead (w.base + g.addr) (segSpan g) = x.load (w.base + g.addr) (segSpan g) := by
    rw [unitRead_of_line alone rfl within (by rw [← hz]; rfl), ← hz]; rfl
  have length : (x.load (w.base + g.addr) (segSpan g)).length = segSpan g := load_length ..
  unfold State.applyMsg
  dsimp only
  rw [hx, if_neg other.1, if_neg other.2.1, if_neg other.2.2, linesOf_one least within, List.any_cons, List.any_nil, heldLine_of_empty hempty,
    Bool.or_self, if_neg Bool.false_ne_true, List.foldl_cons, List.foldl_nil, taken, old]
  simp only [List.map_cons, List.map_nil, List.flatten_cons, List.flatten_nil, List.append_nil]
  unfold AtomicPayload at payload
  unfold atomicLine
  rw [length]
  split at payload
  next cas =>
    rw [if_pos cas, if_pos cas]
    split
    · have swap : (arg.drop (segSpan g)).length = segSpan g := by rw [List.length_drop, payload]; omega
      rw [unitWrite_of_line alone rfl (by omega) (by omega), ← hz]
      exact answer_keeps ..
    · rw [← hz]
      exact answer_keeps ..
  next add =>
    obtain ⟨code, n, whole, harg⟩ := payload
    have bytes : (atomicBytes g.opc (x.load (w.base + g.addr) (segSpan g)) arg).length = segSpan g := by
      rw [atomicBytes_length code (length.trans whole) harg, whole]
    rw [if_neg add, if_neg add, unitWrite_of_line alone rfl (by omega) (by omega), ← hz]
    exact answer_keeps ..

end

/-- The payload of an atomic message that passes its checks. -/
theorem SegmentPasses.payload {s : State} {op : Nat} {g : Segment} {w : Win} (h : SegmentPasses s op g w) (atomic : 3 ≤ op ∧ op ≤ 7) :
    AtomicPayload op (segSpan g) g.data := by
  obtain ⟨length, sizes⟩ := h.sizes
  have opc := h.opc
  have cases_ : op = 3 ∨ op = 4 ∨ op = 5 ∨ op = 6 ∨ op = 7 := by omega
  unfold AtomicPayload
  rw [length]
  rcases cases_ with rfl | rfl | rfl | rfl | rfl <;> simp [segSizeOk, segSpan, opc, elemWidth] at sizes ⊢
  · exact ⟨g.mlen / 8, by omega⟩
  · exact ⟨g.mlen / 4, by omega⟩
  · exact sizes
  · exact sizes

/-- An atomic message that passes its checks, on a line of a unit that holds none: memory stands, the message has finished, and the unit holds
the changed line. -/
theorem receive_atomic {s : State} {t op : Nat} {g : Segment} {w : Win} (passes : SegmentPasses (s.arrive t).forceDue op g w)
    (atomic : 3 ≤ op ∧ op ≤ 7) (empty : s.rmo.alines = []) (least : 0 < segSpan g) (within : (w.base + g.addr) % 64 + segSpan g ≤ 64) :
    ∃ now, let a := w.base + g.addr
      let v := (s.arrive t).receive op true g
      v.mem = s.mem ∧ v.recvEnt g.rcid = (s.recvEnt g.rcid).finish g.cseq true ∧ v.rmo.alines =
        [atomicLine op { line := a / 64, data := s.load (64 * (a / 64)) 64, last := now, dirty := false } (a % 64) (s.load a (segSpan g)) g.data] := by
  have opc : g.opc ≠ 1 := by rw [passes.opc]; omega
  have span : segSpan { g with data := if g.opc = 1 then g.data else [] } = segSpan g := by simp [segSpan, opc]
  obtain ⟨timer, banks, regs, old, force⟩ := arrive_forceDue_eq s t
  obtain ⟨hots, counted⟩ := countHot_eq (s.arrive t).forceDue g (w.base + g.addr) (segSpan g)
  obtain ⟨aresp, pkts, gw, ords, out, applied⟩ := applyMsg_atomic (s := (s.arrive t).forceDue.countHot g (w.base + g.addr) (segSpan g))
    (g := { g with data := if g.opc = 1 then g.data else [] }) (w := w) (arg := g.data) (by rw [counted, force]; exact empty)
    (by rw [span]; exact least) (by rw [span]; exact within) (by rw [span, passes.opc]; exact passes.payload atomic)
  dsimp only
  rw [passes.receive, passes.acceptSeg_kept (by omega), applied, counted, force, span, passes.opc]
  exact ⟨timer, rfl, setRecv_recvEnt_same .., rfl⟩

/-! ### The obligation on atomics -/

/-- Settles O18: each is a message that the empty unit takes its line for, and the line holds what the operation leaves. -/
theorem remoteAtomicsChangeALineInTheUnit : Obligations.RemoteAtomicsChangeALineInTheUnit := by
  unfold Obligations.RemoteAtomicsChangeALineInTheUnit
  intro s t g w u done a old line empty least within
  have apply_ {op : Nat} (passes : SegmentPasses u op g w) (atomic : 3 ≤ op ∧ op ≤ 7) :=
    receive_atomic passes atomic empty least within
  have adds {op : Nat} (passes : SegmentPasses u op g w) (atomic : 3 ≤ op ∧ op ≤ 5) : let v := (s.arrive t).receive op true g
      v.mem = s.mem ∧ v.recvEnt g.rcid = done ∧
        ∃ y, v.rmo.alines = [y] ∧ y.line = a / 64 ∧ y.dirty = true ∧ y.data = patch line (a % 64) (atomicBytes op old g.data) := by
    obtain ⟨now, mem, recv, alines⟩ := apply_ passes (by omega)
    refine ⟨mem, recv, _, alines, atomicLine_line .., ?_⟩
    rw [atomicLine, if_neg (by omega)]
    exact ⟨rfl, rfl⟩
  have swaps {op span : Nat} (passes : SegmentPasses u op g w) (cas : op = 6 ∨ op = 7) (hspan : segSpan g = span) :
      let v := (s.arrive t).receive op true g
      v.mem = s.mem ∧ v.recvEnt g.rcid = done ∧ ∃ y, v.rmo.alines = [y] ∧ y.line = a / 64 ∧ y.dirty = decide (g.data.take span = old) ∧
        y.data = (if g.data.take span = old then patch line (a % 64) (g.data.drop span) else line) := by
    obtain ⟨now, mem, recv, alines⟩ := apply_ passes (by omega)
    refine ⟨mem, recv, _, alines, atomicLine_line .., ?_⟩
    have length : old.length = span := (load_length ..).trans hspan
    rw [atomicLine, if_pos cas, show (s.load (w.base + g.addr) (segSpan g)) = old from rfl, length]
    by_cases equal : g.data.take span = old
    · rw [if_pos equal, if_pos equal]
      exact ⟨(decide_eq_true equal).symm, rfl⟩
    · rw [if_neg equal, if_neg equal]
      exact ⟨(decide_eq_false equal).symm, rfl⟩
  refine ⟨fun passes => .of_exec rfl (adds passes (by decide)), fun passes => .of_exec rfl (adds passes (by decide)),
    fun passes => .of_exec rfl (adds passes (by decide)), fun passes => .of_exec rfl (swaps passes (.inl rfl) ?_),
    fun passes => .of_exec rfl (swaps passes (.inr rfl) ?_)⟩
  · simp [segSpan, passes.opc]
  · simp [segSpan, passes.opc]

/-! ### What requests leave of the remote unit and of the intake region (R298)

A request moves the remote unit by its event records alone, and hands nothing to the intake region. -/

/-- The remote unit stands but for its event records, and so does the intake region. -/
structure IntakeKept (s t : State) : Prop where
  rmo    : t.rmo.sansEvents = s.rmo.sansEvents
  intake : t.rq.intake = s.rq.intake

theorem IntakeKept.refl (s : State) : IntakeKept s s := ⟨rfl, rfl⟩

theorem IntakeKept.trans {a b c : State} (h : IntakeKept a b) (k : IntakeKept b c) : IntakeKept a c :=
  ⟨k.rmo.trans h.rmo, k.intake.trans h.intake⟩

theorem IntakeKept.of_within {s t : State} (h : Within (keeping [.rmo, .rq]) s t) : IntakeKept s t :=
  ⟨congrArg RmoSt.sansEvents (h.keeps (p := .rmo) (by simp)), congrArg ReqSt.intake (h.keeps (p := .rq) (by simp))⟩

theorem IntakeKept.ite {a b c : State} {p : Prop} [Decidable p] (h : IntakeKept a b) (k : IntakeKept a c) : IntakeKept a (if p then b else c) := by
  split
  · exact h
  · exact k

theorem IntakeKept.foldl {α : Type} {a b : State} {f : State → α → State} {l : List α} (h : IntakeKept a b) (k : ∀ s x, IntakeKept s (f s x)) :
    IntakeKept a (l.foldl f b) := by
  induction l generalizing b with
  | nil => exact h
  | cons x l ih => exact ih (h.trans (k b x))

theorem count_intakeKept (s : State) (index sub : Nat) : IntakeKept s (s.count index sub) := ⟨rfl, rfl⟩

theorem countC_intakeKept (s : State) (c index sub n : Nat) : IntakeKept s (s.countC c index sub n) := ⟨rfl, rfl⟩

theorem store_intakeKept (s : State) (a : Nat) (bs : List Byte) : IntakeKept s (s.store a bs) := ⟨rfl, rfl⟩

theorem setPg_intakeKept (s : State) (f : PageSt → PageSt) : IntakeKept s (s.setPg f) := ⟨rfl, rfl⟩

theorem setReq_intakeKept (s : State) (id : Nat) (f : Req → Req) : IntakeKept s (s.setReq id f) := ⟨rfl, rfl⟩

theorem setCorpus_intakeKept (s : State) (job ctx : Nat) (f : Corpus → Corpus) : IntakeKept s (s.setCorpus job ctx f) := ⟨rfl, rfl⟩

theorem adirStall_intakeKept (s : State) (cls key : Nat) : IntakeKept s (s.adirStall cls key) :=
  .of_within (by apply State.adirStall_within (hs := .refl _ s); rfl)

theorem takePlace_intakeKept (s : State) (slot : Nat) (x : Load) : IntakeKept s (s.takePlace slot x) :=
  .of_within (by apply State.takePlace_within (hs := .refl _ s); rfl)

/-! ### Records of events and breaches (R55, R326) -/

theorem event_intakeKept (s : State) (e : Event) : IntakeKept s (s.event e) := ⟨event_sansEvents s e, congrArg ReqSt.intake (event_rq s e)⟩

theorem breach_intakeKept (s : State) (cause : Nat) (slot : Option Nat) (opclass comp late job node tag : Nat) :
    IntakeKept s (s.breach cause slot opclass comp late job node tag) := by
  refine ⟨?_, congrArg ReqSt.intake (breach_rq ..)⟩
  unfold State.breach
  dsimp only
  split <;> rfl

theorem unprotected_intakeKept (s : State) (c job : Nat) : IntakeKept s (s.unprotected c job) := by
  unfold State.unprotected
  split
  · exact .refl s
  · exact (count_intakeKept ..).trans (event_intakeKept ..)

theorem noReply_intakeKept (s : State) (c rnode : Nat) : IntakeKept s (s.noReply c rnode) :=
  (countC_intakeKept ..).trans (event_intakeKept ..)

theorem genMismatch_intakeKept (s : State) (job ctx stream page want got : Nat) : IntakeKept s (s.genMismatch job ctx stream page want got) := by
  unfold State.genMismatch
  extract_lets comp x
  refine IntakeKept.trans (b := x) ?_ (event_intakeKept ..)
  unfold x comp
  split
  · exact countC_intakeKept ..
  · exact count_intakeKept ..

theorem lateBreach_intakeKept (s : State) (src : Source) (env : Envelope) (q : Option Nat) (job comp cls : Nat) (slot breach : Option Nat)
    (limit : Nat) : IntakeKept s (s.lateBreach src env q job comp cls slot breach limit).2 := by
  unfold State.lateBreach
  extract_lets now record past x beyond held
  have hx : IntakeKept s x := .ite (breach_intakeKept ..) (.refl s)
  exact .ite ((hx.trans (breach_intakeKept ..)).trans (.of_within (by apply State.tellOver_within (hs := .refl _ _); rfl))) hx

/-- Admission takes a place in a slot, or leaves a breach record (R52, R55). -/
theorem admitted_intakeKept (s : State) (a : Admission) (x : Load) (cls comp job node tag : Nat) : IntakeKept s
    (match a.slot, a.cause with
      | some n, _ => s.takePlace n x
      | none, some c => s.breach c a.named cls comp a.late job node tag
      | none, none => s) := by
  split
  · exact takePlace_intakeKept ..
  · exact breach_intakeKept ..
  · exact .refl s

/-! ### Results, and the end of requests (R106 to R108, R124, R170) -/

theorem sendResult_intakeKept (s : State) (src : Source) (env : Envelope) (q : Option Nat) (off : Nat) (bs : List Byte) (contract : Bool)
    (prod : Producer) : IntakeKept s (s.sendResult src env q off bs contract prod) :=
  .of_within (by apply State.sendResult_within (hs := .refl _ s) <;> rfl)

theorem sendFlag_intakeKept (s : State) (src : Source) (env : Envelope) (q : Option Nat) (st : Status) (n : Nat) (contract : Bool)
    (prod : Producer) : IntakeKept s (s.sendFlag src env q st n contract prod) :=
  .of_within (by apply State.sendFlag_within (hs := .refl _ s) <;> rfl)

theorem newId_intakeKept (s : State) : IntakeKept s s.newId.2 := ⟨rfl, rfl⟩

theorem endOp_intakeKept (s : State) (src : Source) (env : Envelope) (q : Option Nat) (op : Nat) (st : Status) (v : Nat) (contract : Bool) :
    IntakeKept s (s.endOp src env q op st v contract) :=
  ((newId_intakeKept s).trans (sendResult_intakeKept ..)).trans (sendFlag_intakeKept ..)

theorem refuseSearch_intakeKept (s : State) (src : Source) (r : SearchReq) (q : Option Nat) (st : Status) (contract : Bool) :
    IntakeKept s (s.refuseSearch src r q st contract) :=
  ((newId_intakeKept s).trans (sendResult_intakeKept ..)).trans (sendFlag_intakeKept ..)

theorem sendMirror_intakeKept (s : State) (c : Nat) (bytes : List Byte) (prod : Producer) (contract : Bool) (due : Phase) :
    IntakeKept s (s.sendMirror c bytes prod contract due).2 :=
  .of_within (by apply State.sendMirror_within (hs := .refl _ s) <;> rfl)

theorem draw_intakeKept (s : State) : IntakeKept s s.draw.2 := ⟨rfl, rfl⟩

theorem finishOp_intakeKept (s : State) (src : Source) (env : Envelope) (q : Option Nat) (op : Nat) (st : Status) (comp : Nat) (copy : List Byte) :
    IntakeKept s (s.finishOp src env q op st comp copy) := by
  have sent : IntakeKept s (if copy = [] then (0, s.draw.2) else s.draw.2.sendMirror comp copy (.mirror s.draw.1) false s.draw.2.nextStep).2 := by
    split
    · exact draw_intakeKept s
    · exact (draw_intakeKept s).trans (sendMirror_intakeKept ..)
  exact .ite (sent.trans (endOp_intakeKept ..)) (sent.trans (setPg_intakeKept ..))

theorem flush_intakeKept (s : State) (id : Nat) : IntakeKept s (s.flush id) := by
  unfold State.flush
  split
  · exact .refl s
  next r _ =>
  have sent : IntakeKept s (s.sendBlocks r r.secs r.bytes).1 := .of_within (by apply State.sendBlocks_within (hs := .refl _ s) <;> rfl)
  split
  · exact .refl s
  dsimp only
  have final (f : Req → Req) := sent.trans (setReq_intakeKept _ id f)
  refine .ite (IntakeKept.trans (.ite ?_ ?_) ⟨rfl, rfl⟩) (final _)
  · exact ((final _).trans (sendFlag_intakeKept ..)).trans ⟨rfl, rfl⟩
  · exact (final _).trans (sendFlag_intakeKept ..)

theorem endReq_intakeKept (s : State) (st : Status) (r : Req) : IntakeKept s (s.endReq st r) := by
  unfold State.endReq State.endReqAt
  extract_lets asked closed flushed
  have hasked : IntakeKept s asked := by
    refine .ite (.refl s) ?_
    split
    · exact setReq_intakeKept ..
    · exact (noReply_intakeKept ..).trans (setReq_intakeKept ..)
  exact ((hasked.trans (setReq_intakeKept ..)).trans (flush_intakeKept ..)).trans ⟨rfl, rfl⟩

theorem refuseAttend_intakeKept (s : State) (src : Source) (r : AttendReq) (st : Status) (hint : Option Nat) :
    IntakeKept s (s.refuseAttend src r st hint) := by
  unfold State.refuseAttend
  split
  split
  · exact noReply_intakeKept ..
  · exact ((newId_intakeKept s).trans (sendResult_intakeKept ..)).trans (sendFlag_intakeKept ..)

/-! ### Attention requests and searches (R112, R113, R163) -/

theorem admitSec_intakeKept (s : State) (src : Source) (job comp : Nat) (r : AttendReq) (q : QSection) (y : Strm) :
    IntakeKept s (s.admitSec src job comp r q y).2 := admitted_intakeKept ..

theorem admitSecs_intakeKept (s : State) (src : Source) (job comp : Nat) (r : AttendReq) (l : List (QSection × Strm)) :
    IntakeKept s (s.admitSecs src job comp r l).2 := by
  induction l generalizing s with
  | nil => exact .refl s
  | cons x l ih => exact (admitSec_intakeKept s src job comp r x.1 x.2).trans (ih _)

theorem addRecall_intakeKept (s : State) (k : Ctx) (stream first count : Nat) (part : RPart) (whole : Bool) (start : Phase)
    (ready : Option Phase) (tells : List (Nat × Phase)) : IntakeKept s (s.addRecall k stream first count part whole start ready tells) := by
  unfold State.addRecall
  split
  · exact .refl s
  · exact .ite ⟨rfl, rfl⟩ ⟨rfl, rfl⟩

theorem recallStreams_intakeKept (s : State) (k : Ctx) (streams : List Nat) (ready : Option Phase) (tells : List (Nat × Phase)) :
    IntakeKept s (s.recallStreams k streams ready tells) :=
  .foldl (.refl s) fun s _ => .foldl (.refl s) fun _ _ => addRecall_intakeKept ..

theorem attend_intakeKept (s : State) (src : Source) (r : AttendReq) : IntakeKept s (s.attend src r) := by
  unfold State.attend
  split
  extract_lets x
  have hx : IntakeKept s x := adirStall_intakeKept ..
  split
  · exact hx.trans (refuseAttend_intakeKept ..)
  split
  · exact hx.trans (refuseAttend_intakeKept ..)
  next k ys _ =>
  split
  next secs y hy =>
  have admitted : IntakeKept s y := hx.trans (by rw [← show (x.admitSecs _ _ _ _ _).2 = y from congrArg Prod.snd hy]; exact admitSecs_intakeKept ..)
  extract_lets id all req _ z v
  have hz : IntakeKept s z := admitted.trans ⟨rfl, rfl⟩
  have hv : IntakeKept s v := .ite (hz.trans (recallStreams_intakeKept ..)) hz
  exact .ite (hv.trans (endReq_intakeKept ..)) hv

theorem search_intakeKept (s : State) (src : Source) (r : SearchReq) : IntakeKept s (s.search src r) := by
  unfold State.search
  split
  next job comp _ =>
  split
  · exact noReply_intakeKept ..
  extract_lets refuse x
  have hrefuse (st : Status) {y : State} (h : IntakeKept s y) : IntakeKept s (refuse st y) := h.trans (refuseSearch_intakeKept ..)
  have hx : IntakeKept s x := adirStall_intakeKept ..
  split
  · exact hrefuse _ (.refl s)
  split
  · exact hrefuse _ hx
  next c _ =>
  split
  · exact hrefuse _ hx
  split
  · exact hrefuse _ hx
  split
  next load one _ =>
  extract_lets a limit y z
  have hy : IntakeKept s y := hx.trans (admitted_intakeKept ..)
  exact .ite (hrefuse _ hy) (hy.trans ⟨rfl, rfl⟩)

/-! ### Context operations (R85 to R108) -/

theorem contribute_intakeKept (s : State) (c job ctx stream page key gen kind : Nat) (bytes : List Byte) :
    IntakeKept s (s.contribute c job ctx stream page key gen kind bytes).2 := by
  have tried : IntakeKept s (s.tryContribute c job ctx stream page key gen kind bytes).2 :=
    .of_within (by apply State.tryContribute_within (hs := .refl _ s) <;> rfl)
  unfold State.contribute
  dsimp only
  split
  · exact tried
  · exact tried.trans (unprotected_intakeKept ..)

theorem sealInto_intakeKept (s : State) (c job ctx seed stream page : Nat) (x : Strm) (toks : List Token) (tomb spin tpin : Bool) :
    IntakeKept s (s.sealInto c job ctx seed stream page x toks tomb spin tpin).2 := by
  unfold State.sealInto
  dsimp only
  refine .ite (IntakeKept.trans ?_ (countC_intakeKept ..)) ?_
  all_goals
    iterate 4 refine IntakeKept.trans ?_ (countC_intakeKept ..)
    refine IntakeKept.trans (IntakeKept.trans ?_ (store_intakeKept ..)) (contribute_intakeKept ..)
    exact .of_within (by apply State.allocFrame_within (hs := .refl _ s) <;> rfl)

theorem sealNext_intakeKept (s : State) (job ctx stream : Nat) : IntakeKept s (s.sealNext job ctx stream) := by
  unfold State.sealNext
  split
  · exact .refl s
  split
  · exact .refl s
  split
  · exact .refl s
  next k _ _ x _ _ p toks _ =>
  dsimp only
  refine IntakeKept.trans (sealInto_intakeKept s k.comp job ctx k.seed stream p x toks false false false) (.of_within ?_)
  apply State.sendMirror_within <;> try rfl
  apply State.draw_within <;> try rfl
  apply State.writePage_within <;> try rfl
  apply State.setStrm_within <;> try rfl
  apply State.growTables_within (hs := .refl _ _) <;> rfl

theorem replacePage_intakeKept (s : State) (k : Ctx) (stream page : Nat) (x : Strm) (old : Page) (toks : List Token) (tomb spin : Bool) :
    IntakeKept s (s.replacePage k stream page x old toks tomb spin).2 := by
  unfold State.replacePage
  extract_lets tpin
  clear_value tpin
  split
  next pg y hy =>
  have sealed : IntakeKept s y := by
    rw [← show (s.sealInto _ _ _ _ _ _ _ _ _ _ _).2 = y from congrArg Prod.snd hy]
    exact sealInto_intakeKept ..
  refine sealed.trans (.of_within ?_)
  dsimp only
  apply State.setPage_within <;> try rfl
  apply State.unpend_within <;> try rfl
  apply State.freeDesc_within (hs := .refl _ _) <;> rfl

theorem pageRewrite_intakeKept (s : State) (src : Source) (k : Ctx) (r : CtxReq) : IntakeKept s (s.pageRewrite src k r).2.1 := by
  unfold State.pageRewrite
  split
  · exact .refl s
  split
  · exact .refl s
  extract_lets gen
  clear_value gen
  split
  · exact .refl s
  split
  · exact .refl s
  split
  · exact .refl s
  split
  · exact genMismatch_intakeKept ..
  · exact replacePage_intakeKept ..

theorem endAppend_intakeKept (s : State) (p : PendOp) (st : Status) (seq : Nat) : IntakeKept s (s.endAppend p st seq) := by
  have placed (x : State) : IntakeKept x (match p.slot with | some n => x.donePlace n p.arrive | none => x) := by
    split
    · exact .of_within (by apply State.donePlace_within (hs := .refl _ x); rfl)
    · exact .refl x
  unfold State.endAppend
  split
  extract_lets done
  clear_value done
  split
  next late y hy =>
  have hy : IntakeKept s y := by
    rw [← show (if done = true then _ else (false, s)).2 = y from congrArg Prod.snd hy]
    split
    · exact lateBreach_intakeKept ..
    · exact .refl s
  extract_lets status z ended
  have hended : IntakeKept s ended := (hy.trans (endOp_intakeKept ..)).trans (placed z)
  refine .ite (hended.trans (.of_within ?_)) hended
  apply State.ratio_within (hs := .refl _ _); rfl

theorem placeTokens_intakeKept (s : State) (job ctx stream : Nat) (f : Strm → Strm) :
    IntakeKept s ((s.setStrm job ctx stream f).writeSilt job ctx stream) := by
  refine .of_within ?_
  apply State.writeSilt_within <;> try rfl
  apply State.setStrm_within (hs := .refl _ s); rfl

theorem applyAppend_intakeKept (s : State) (k : Ctx) (x : Strm) (p : PendOp) : IntakeKept s (s.applyAppend k x p) := by
  unfold State.applyAppend
  extract_lets now a b c
  have hb : IntakeKept s b := placeTokens_intakeKept ..
  have hc : IntakeKept s c := .ite ((hb.trans (countC_intakeKept ..)).trans (breach_intakeKept ..)) hb
  dsimp only
  split
  · exact ((hc.trans (draw_intakeKept c)).trans (sendMirror_intakeKept ..)).trans (setPg_intakeKept ..)
  · exact hc.trans (endAppend_intakeKept ..)

theorem runAppend_intakeKept (s : State) (k : Ctx) (p : PendOp) : IntakeKept s (s.runAppend k p).2 := by
  have done {b : Bool} {x : State} (h : IntakeKept s x) : IntakeKept s (b, x).2 := h
  unfold State.runAppend
  split
  · exact done (endAppend_intakeKept ..)
  split
  · exact done (IntakeKept.trans (.ite (countC_intakeKept ..) (.refl s)) (endAppend_intakeKept ..))
  split
  · exact done (setPg_intakeKept ..)
  split
  · exact done (applyAppend_intakeKept ..)
  split
  · exact done ((recallStreams_intakeKept ..).trans (setPg_intakeKept ..))
  extract_lets y a b c q
  have hb : IntakeKept s b := .foldl (placeTokens_intakeKept ..) fun _ _ => sealNext_intakeKept ..
  have hc : IntakeKept s c := by
    refine hb.trans (.of_within ?_)
    apply State.releaseAll_within <;> try rfl
    apply State.countPages_within (hs := .refl _ _) <;> rfl
  clear_value c
  split
  · split
    · exact done (hc.trans (applyAppend_intakeKept ..))
    · exact done (hc.trans (setPg_intakeKept ..))
  · exact done hc

theorem ctxFork_intakeKept (s : State) (src : Source) (job comp : Nat) (r : CtxReq) : IntakeKept s (s.ctxFork src job comp r).2.1 := by
  unfold State.ctxFork
  split
  · split
    · exact genMismatch_intakeKept ..
    · exact .refl s
  · exact .refl s
  · exact .refl s
  · refine .of_within ?_
    apply State.enterCtx_within <;> try rfl
    apply State.growStreams_within <;> try rfl
    apply State.newStreams_within <;> try rfl
    apply State.forkStreams_within <;> try rfl
    apply State.place_within (hs := .refl _ s); rfl

theorem runOp_intakeKept (s : State) (p : PendOp) : IntakeKept s (s.runOp p).2 := by
  unfold State.runOp
  split
  extract_lets q r a close
  have ha : IntakeKept s a := adirStall_intakeKept ..
  have hclose {x : Status × State × List Byte} (h : IntakeKept a x.2.1) : IntakeKept s (close x).2 := (ha.trans h).trans (finishOp_intakeKept ..)
  split
  · exact hclose (.of_within (by apply State.ctxCreate_within (hs := .refl _ a) <;> rfl))
  split
  · exact hclose (ctxFork_intakeKept ..)
  split
  · exact ha.trans (endOp_intakeKept ..)
  split
  · exact hclose (.of_within (by apply State.removeCtx_within (hs := .refl _ a) <;> rfl))
  split
  · exact ha.trans (runAppend_intakeKept ..)
  split
  · exact hclose (.of_within (by apply State.pageMark_within (hs := .refl _ a) <;> rfl))
  split
  · exact hclose (pageRewrite_intakeKept ..)
  · exact ha.trans (endOp_intakeKept ..)

theorem drainOps_intakeKept (s : State) : IntakeKept s s.drainOps :=
  .foldl (.refl s) fun _ _ => .ite ((setPg_intakeKept ..).trans (runOp_intakeKept ..)) (.refl _)

theorem ctxOp_intakeKept (s : State) (src : Source) (op : Nat) (r : CtxReq) : IntakeKept s (s.ctxOp src op r) := by
  unfold State.ctxOp
  split
  split
  · exact noReply_intakeKept ..
  extract_lets refuse load a limit x tile
  have hrefuse (st : Status) {y : State} (h : IntakeKept s y) : IntakeKept s (refuse st y) := h.trans (endOp_intakeKept ..)
  split
  · exact hrefuse _ (.refl s)
  split
  · exact hrefuse _ (breach_intakeKept ..)
  split
  · exact hrefuse _ (.refl s)
  split
  · exact hrefuse _ (.refl s)
  have hx : IntakeKept s x := admitted_intakeKept ..
  split
  exact (hx.trans (setPg_intakeKept ..)).trans (drainOps_intakeKept _)

/-! ### Corpus operations (R157 to R162) -/

/-- What a management operation does as it runs keeps the remote unit and the intake region. -/
def ActKeeps (act : State → Nat → Nat → Status × Nat × State) : Prop := ∀ s job comp, IntakeKept s (act s job comp).2.2

theorem manage_intakeKept {act : State → Nat → Nat → Status × Nat × State} (keeps : ActKeeps act) (s : State) (src : Source) (env : Envelope)
    (op : Nat) : IntakeKept s (s.manage src env op act) := by
  unfold State.manage
  split
  split
  · exact noReply_intakeKept ..
  extract_lets finish
  have hfinish (st : Status) (v : Nat) {y : State} (h : IntakeKept s y) : IntakeKept s (finish st v y) := h.trans (endOp_intakeKept ..)
  split
  · exact hfinish _ _ (.refl s)
  split
  · exact hfinish _ _ (breach_intakeKept ..)
  split
  · exact hfinish _ _ (.refl s)
  split
  · exact hfinish _ _ (.refl s)
  · exact hfinish _ _ ((adirStall_intakeKept ..).trans (keeps ..))

theorem corpusCreate_intakeKept (s : State) (job comp ctx skb vfmt dim seed : Nat) (segs : List SegSpec) :
    IntakeKept s (s.corpusCreate job comp ctx skb vfmt dim seed segs) := by
  unfold State.corpusCreate
  split
  next root a ha =>
  split
  next gs b hb =>
  have placed : IntakeKept s b := by
    rw [← show (a.newSegs _ _ _ _).2 = b from congrArg Prod.snd hb, ← show (s.placeArea _ _ _).2 = a from congrArg Prod.snd ha]
    refine .of_within ?_
    apply State.newSegs_within <;> try rfl
    apply State.placeArea_within (hs := .refl _ s); rfl
  extract_lets c corpora entered written
  have hentered : IntakeKept b entered := ⟨rfl, rfl⟩
  have hwritten : IntakeKept s written := (placed.trans hentered).trans (store_intakeKept ..)
  refine hwritten.trans (.of_within ?_)
  apply State.adirInsert_within (hs := .refl _ _); rfl

theorem recordAppend_intakeKept (s : State) (c : Corpus) (seg count : Nat) (sk : Bool) (recs : List Rec) (sketches : List Nat) :
    IntakeKept s (s.recordAppend c seg count sk recs sketches).2.2 := by
  unfold State.recordAppend
  split
  · exact .refl s
  next g _ =>
  split
  · exact .refl s
  refine IntakeKept.trans (IntakeKept.trans (b := s.writeRecs c g g.recs.length recs _) (.of_within ?_) (setCorpus_intakeKept ..)) (store_intakeKept ..)
  apply State.writeRecs_within (hs := .refl _ s) <;> rfl

theorem recordDelete_intakeKept (s : State) (c : Corpus) (seg first count : Nat) : IntakeKept s (s.recordDelete c seg first count).2.2 := by
  unfold State.recordDelete
  split
  · exact .refl s
  split
  · exact .refl s
  extract_lets new g marked
  have hmarked : IntakeKept s marked := (setCorpus_intakeKept ..).trans (.foldl (.refl _) fun _ _ => store_intakeKept ..)
  exact hmarked.trans (store_intakeKept ..)

theorem corpusDelete_intakeKept (s : State) (job ctx : Nat) (f : Corpus → Corpus) :
    IntakeKept s ((s.adirRemove 0 (ctxKey job ctx)).setCorpus job ctx f) := by
  refine IntakeKept.trans (.of_within ?_) (setCorpus_intakeKept ..)
  apply State.adirRemove_within (hs := .refl _ s); rfl

/-! ### A request goes into the request path (R298, R477) -/

theorem hold_intakeKept (s : State) (i : Instr) : IntakeKept s (s.hold i) := ⟨rfl, rfl⟩

/-- A request before READY is nothing, one that finds admission stopped is held, and any other is run. -/
theorem admitted_request_intakeKept {s x : State} (i : Instr) (h : IntakeKept s x) :
    IntakeKept s (if !s.ready then s else if s.noAdmission then s.hold i else x) :=
  .ite (.refl s) (.ite (hold_intakeKept s i) h)

theorem arrive_intakeKept (s : State) (t : Nat) : IntakeKept s (s.arrive t) :=
  ⟨congrArg RmoSt.sansEvents (State.arrive_rmo s t), congrArg ReqSt.intake (State.arrive_rq s t)⟩

theorem ctxCommand_intakeKept (s : State) (i : Instr) (src : Source) (op : Nat) (r : CtxReq) : IntakeKept s (s.ctxCommand i src op r) :=
  admitted_request_intakeKept i (ctxOp_intakeKept ..)

theorem manageCommand_intakeKept {act : State → Nat → Nat → Status × Nat × State} (keeps : ActKeeps act) (s : State) (i : Instr)
    (src : Source) (env : Envelope) (op : Nat) : IntakeKept s (s.manageCommand i src env op act) :=
  admitted_request_intakeKept i (manage_intakeKept keeps ..)

/-- A management operation on a corpus it names: a refusal keeps all, and the operation what it keeps. -/
theorem onCorpus_intakeKept (s : State) (job comp ctx : Nat) {act : Corpus → Status × Nat × State} (keeps : ∀ c, IntakeKept s (act c).2.2) :
    IntakeKept s (match s.namedCorpus job comp ctx with | .inl st => (st, 0, s) | .inr c => act c).2.2 := by
  split
  · exact .refl s
  · exact keeps _

theorem submit_intakeKept (s : State) (src : Source) (body : ReqBody) : IntakeKept s (s.submit src body) := by
  have arrived {x : State} (h : IntakeKept (s.arrive s.timer) x) : IntakeKept s x := (arrive_intakeKept ..).trans h
  cases body with
  | attend r => exact arrived (admitted_request_intakeKept _ (attend_intakeKept ..))
  | context r =>
    unfold State.submit
    dsimp only
    split
    all_goals exact arrived (ctxCommand_intakeKept ..)
  | search r => exact arrived (admitted_request_intakeKept _ (search_intakeKept ..))
  | corpusCreate env skb vfmt dim seed nseg segs =>
    refine arrived (manageCommand_intakeKept (fun s job comp => ?_) ..)
    split
    · exact .refl s
    · exact corpusCreate_intakeKept ..
  | recordAppend env seg count sk recs sks =>
    exact arrived (manageCommand_intakeKept (fun s job comp => onCorpus_intakeKept s job comp _ fun c => recordAppend_intakeKept ..) ..)
  | recordDelete env seg first count =>
    exact arrived (manageCommand_intakeKept (fun s job comp => onCorpus_intakeKept s job comp _ fun c => recordDelete_intakeKept ..) ..)
  | corpusDelete env =>
    exact arrived (manageCommand_intakeKept (fun s job comp => onCorpus_intakeKept s job comp _ fun c => corpusDelete_intakeKept ..) ..)
  | otherOp env op =>
    exact .ite (manage_intakeKept (fun s _ _ => .refl s) ..) (.refl s)

/-- A complete CMD message enters the request path with its bytes in the intake region (R298). -/
theorem handOver_spec (s : State) (g : Segment) (w : Win) (b : List Byte) :
    (s.handOver g w b).rmo.sansEvents = s.rmo.sansEvents ∧ (s.handOver g w b).rq.intake = s.rq.intake ++ [(g.win, b)] :=
  have kept := submit_intakeKept { s with rq := { s.rq with intake := s.rq.intake ++ [(g.win, b)] } } (.fabric g.job w.comp g.osrc g.epoch g.mtag)
    (State.requestOf _ g.job b)
  ⟨kept.rmo, kept.intake⟩

/-! ### The obligation on READ, WRITE and CMD (R298, R314, R315) -/

/-- The messages that have had data answered, once a message has finished, are some of those before. -/
theorem finishMsg_ords (s : State) (g : Segment) (applied : Bool) {x : Nat × BitVec 32 × Nat} (h : x ∈ (s.finishMsg g applied).rmo.ords) :
    x ∈ s.rmo.ords := List.mem_of_mem_filter h

section
variable {s : State} {g : Segment} {w : Win} (empty : s.rmo.alines = [])
include empty

/-- A READ of one segment: the message finishes, and is answered with the bytes of memory (R314). -/
theorem applyMsg_read (opc : g.opc = 1) (bytes : List (Nat × List Byte)) : s.applyMsg g w bytes =
    (s.finishMsg g true).respond g .ok none ((s.finishMsg g true).hotCe (w.base + g.addr) (segSpan g)) (s.load (w.base + g.addr) (segSpan g)) := by
  unfold State.applyMsg
  dsimp only
  rw [if_pos opc, unitRead_of_empty (s := s.finishMsg g true) empty]
  rfl

/-- A WRITE without FLAG, whose bytes stand in memory: the message finishes and is answered (R315). -/
theorem applyMsg_written (opc : g.opc = 2) (plain : g.flag = false) : s.applyMsg g w [] =
    (s.finishMsg g true).respond g .ok none ((s.finishMsg g true).hotCe (w.base + g.addr) g.mlen) [] := by
  unfold State.applyMsg
  dsimp only
  rw [if_neg (by rw [opc]; decide), if_pos opc, plain, if_neg Bool.false_ne_true]
  exact answer_of_empty (s := s.finishMsg g true) empty ..

/-- A CMD, whose bytes stand in memory: it finishes, its bytes enter the request path, and it is answered (R298). -/
theorem applyMsg_cmd (opc : g.opc = 8) : let x := s.finishMsg g true; let y := x.handOver g w (x.load (w.base + g.addr) g.mlen)
    s.applyMsg g w [] = y.respond g .ok none (y.hotCe (w.base + g.addr) g.mlen) [] := by
  intro x y
  have kept : y.rmo.sansEvents = x.rmo.sansEvents := (handOver_spec ..).1
  unfold State.applyMsg
  dsimp only
  rw [if_neg (by rw [opc]; decide), if_neg (by rw [opc]; decide), if_pos opc, List.foldl_nil, unitRead_of_empty (s := x) empty]
  exact answer_of_empty ((RmoSt.eq_of_sansEvents RmoSt.alines (fun _ => rfl) kept).trans empty) ..

end

/-- What a response leaves: memory, the receive entries, contexts, tiers and requests. -/
theorem Responding.kept {s t : State} (h : Responding s t) :
    t.mem = s.mem ∧ (∀ i, t.recvEnt i = s.recvEnt i) ∧ t.pg = s.pg ∧ t.tier = s.tier ∧ t.rq = s.rq := by
  obtain ⟨_, _, _, _, rfl⟩ := h
  exact ⟨rfl, fun _ => rfl, rfl, rfl, rfl⟩

/-- What the window commands that come due and the count of hot lines leave, before an operation is applied. -/
theorem counted_kept (s : State) (t : Nat) (g : Segment) (a len : Nat) : let x := (s.arrive t).forceDue.countHot g a len
    x.mem = s.mem ∧ x.pg = s.pg ∧ x.tier = s.tier ∧ x.rq = s.rq ∧ x.rmo.alines = s.rmo.alines ∧ x.rmo.ords = s.rmo.ords ∧ x.rmo.recv = s.rmo.recv := by
  obtain ⟨timer, banks, regs, old, force⟩ := arrive_forceDue_eq s t
  obtain ⟨hots, counted⟩ := countHot_eq (s.arrive t).forceDue g a len
  dsimp only
  rw [counted, force]
  exact ⟨rfl, rfl, rfl, rfl, rfl, rfl, rfl⟩

/-- A message that finishes leaves its CSEQ finished at its receive entry. -/
theorem finishMsg_recvEnt {s s' : State} (recv : s.rmo.recv = s'.rmo.recv) (g : Segment) :
    (s.finishMsg g true).recvEnt g.rcid = (s'.recvEnt g.rcid).finish g.cseq true := by
  rw [show s'.recvEnt g.rcid = s.recvEnt g.rcid from congrArg (lookD · g.rcid RecvEnt.off) recv.symm]
  exact setRecv_recvEnt_same ..

section
variable {s : State} {t : Nat} {g : Segment} {w : Win} (empty : s.rmo.alines = [])
include empty

theorem exec_read (passes : SegmentPasses (s.arrive t).forceDue 1 g w) (unspent : ∀ x ∈ s.rmo.ords, ¬ (x.1 = g.rcid ∧ x.2.1 = g.cseq)) :
    Yields (.read t true g) s fun v => v.mem = s.mem ∧ v.recvEnt g.rcid = (s.recvEnt g.rcid).finish g.cseq true ∧ v.pg = s.pg ∧ v.tier = s.tier ∧
      ∃ ce, v.out.head? = some (.response g.osrc g.rcid g.conn g.cseq .ok none ce (s.load (w.base + g.addr) (segSpan g))) := by
  have whole : ({ g with data := if g.opc = 1 then g.data else [] } : Segment) = g := by rw [if_pos passes.opc]
  obtain ⟨mem, pg, tier, -, alines, ords, recv⟩ := counted_kept s t g (w.base + g.addr) (segSpan g)
  have received := passes.receive.trans (passes.acceptSeg_kept (by decide))
  generalize (s.arrive t).forceDue.countHot g (w.base + g.addr) (segSpan g) = x at *
  rw [whole, applyMsg_read (alines.trans empty) passes.opc, show x.load _ _ = s.load _ _ from congrArg (Memory.reads · _ _) mem] at received
  refine .of_exec (congrArg Host.Outcome.next received) ?_
  obtain ⟨vmem, vrecv, vpg, vtier, -⟩ := (respond_responding (x.finishMsg g true) g .ok none ((x.finishMsg g true).hotCe (w.base + g.addr) (segSpan g))
    (s.load (w.base + g.addr) (segSpan g))).kept
  exact ⟨vmem.trans mem, (vrecv _).trans (finishMsg_recvEnt recv g), vpg.trans pg, vtier.trans tier,
    respond_head .ok _ (.inr fun y hy => unspent y (ords ▸ finishMsg_ords x g true hy))⟩

/-- What then stands once the bytes of a message are written to memory. -/
theorem countedWritten_kept (a len : Nat) (bs : List Byte) : let u := ((s.arrive t).forceDue.countHot g a len).unitWrite a bs
    u.mem = lineWrites s.mem a bs ∧ u.pg = s.pg ∧ u.tier = s.tier ∧ u.rq = s.rq ∧ u.rmo.alines = [] ∧ u.rmo.recv = s.rmo.recv := by
  obtain ⟨mem, pg, tier, rq, alines, -, recv⟩ := counted_kept s t g a len
  obtain ⟨lines, written⟩ := unitWrite_of_empty (alines.trans empty) a bs
  dsimp only
  rw [written]
  exact ⟨congrArg (lineWrites · _ _) mem, pg, tier, rq, alines.trans empty, recv⟩

theorem exec_write (passes : SegmentPasses (s.arrive t).forceDue 2 g w) :
    Yields (.write t true g) s fun v => v.mem = ((s.arrive t).forceDue.unitWrite (w.base + g.addr) g.data).mem ∧
      v.recvEnt g.rcid = (s.recvEnt g.rcid).finish g.cseq true ∧ v.pg = s.pg ∧ v.tier = s.tier ∧
      ∃ ce, v.out.head? = some (.response g.osrc g.rcid g.conn g.cseq .ok none ce []) := by
  have stored : ((s.arrive t).forceDue.unitWrite (w.base + g.addr) g.data).mem = lineWrites s.mem (w.base + g.addr) g.data := by
    obtain ⟨timer, banks, regs, old, force⟩ := arrive_forceDue_eq s t
    obtain ⟨lines, eq⟩ := unitWrite_of_empty (s := (s.arrive t).forceDue) (by rw [force]; exact empty) (w.base + g.addr) g.data
    rw [eq, force]
  rw [stored]
  obtain ⟨umem, upg, utier, -, ualines, urecv⟩ := countedWritten_kept (g := g) (t := t) empty (w.base + g.addr) g.slen g.data
  have received := passes.receive.trans (passes.acceptSeg_written (.inl rfl))
  generalize ((s.arrive t).forceDue.countHot g (w.base + g.addr) g.slen).unitWrite (w.base + g.addr) g.data = u at *
  refine .of_exec (congrArg Host.Outcome.next (received.trans (applyMsg_written ualines passes.opc passes.plain))) ?_
  let y := u.finishMsg g true
  obtain ⟨vmem, vrecv, vpg, vtier, -⟩ := (respond_responding y { g with data := [] } .ok none (y.hotCe (w.base + g.addr) g.mlen) []).kept
  exact ⟨vmem.trans umem, (vrecv _).trans (finishMsg_recvEnt urecv g), vpg.trans upg, vtier.trans utier, respond_head .ok _ (.inl rfl)⟩

theorem exec_cmd (passes : SegmentPasses (s.arrive t).forceDue 8 g w) :
    let x := (((s.arrive t).forceDue.countHot g (w.base + g.addr) g.slen).unitWrite (w.base + g.addr) g.data).finishMsg g true
    let bytes := x.load (w.base + g.addr) g.mlen
    let y := x.handOver g w bytes
    Yields (.cmd t true g) s fun v => v.recvEnt g.rcid = (s.recvEnt g.rcid).finish g.cseq true ∧ v.rq.intake = s.rq.intake ++ [(g.win, bytes)] ∧
      v.mem = y.mem ∧ v.pg = y.pg ∧ v.rq = y.rq ∧ ∃ ce, v.out.head? = some (.response g.osrc g.rcid g.conn g.cseq .ok none ce []) := by
  obtain ⟨-, -, -, urq, ualines, urecv⟩ := countedWritten_kept (g := g) (t := t) empty (w.base + g.addr) g.slen g.data
  have received := passes.receive.trans (passes.acceptSeg_written (.inr rfl))
  generalize ((s.arrive t).forceDue.countHot g (w.base + g.addr) g.slen).unitWrite (w.base + g.addr) g.data = u at *
  intro x bytes y
  obtain ⟨rmo, intake⟩ := handOver_spec x g w bytes
  refine .of_exec (congrArg Host.Outcome.next (received.trans (applyMsg_cmd ualines passes.opc))) ?_
  obtain ⟨vmem, vrecv, vpg, -, vrq⟩ := (respond_responding y { g with data := [] } .ok none (y.hotCe (w.base + g.addr) g.mlen) []).kept
  have yrecv : y.rmo.recv = x.rmo.recv := RmoSt.eq_of_sansEvents RmoSt.recv (fun _ => rfl) rmo
  have done : y.recvEnt g.rcid = (s.recvEnt g.rcid).finish g.cseq true :=
    (congrArg (lookD · g.rcid RecvEnt.off) yrecv).trans (finishMsg_recvEnt urecv g)
  exact ⟨(vrecv _).trans done, (congrArg ReqSt.intake vrq).trans (intake.trans (congrArg (fun q => q.intake ++ _) urq)), vmem, vpg, vrq,
    respond_head .ok _ (.inl rfl)⟩

end

/-- Settles O17: each finishes and responds, and a CMD between the two hands its bytes to the request path, which moves the remote unit by
event records alone. -/
theorem remoteReadsWritesAndCommands : Obligations.RemoteReadsWritesAndCommands :=
  fun _ _ _ _ empty => ⟨exec_read empty, exec_write empty, exec_cmd empty⟩

/-! ### A message that has had no answer in time (R308) -/

/-- A message in the group, its time limit passed, is sent again below the resend limit. -/
theorem exec_respTimeout_resends {s u : State} {t q : Nat} {o : Outst} (arrived : s.arrive t = u) (one : (u.sendEnt q).outst = [o])
    (below : o.msg.resends < u.pdNum 0x4101 2) (group : u.inGroup (u.sendEnt q).fdest = true) (due : o.sentAt + u.pdNum 0x4101 1 * us ≤ u.timer)
    (left : ∀ m ∈ u.queued q, m.cseq ≠ some o.cseq) :
    let m : Msg := { o.msg with off := 0, resends := o.msg.resends + 1 }
    exec (.respTimeout t q o.cseq) s = .next (((u.setSend q { u.sendEnt q with outst := [{ o with msg := m }] }).unqueueSeq q o.cseq).enqueue q m) := by
  have found : (u.sendEnt q).outst.find? (fun x => x.cseq == o.cseq) = some o := by simp [one]
  have waits : ((u.queued q).any fun m => m.cseq == some o.cseq) = false := by simpa using left
  have counted (m : Msg) : mapIf (fun x => x.cseq == o.cseq) (fun x : Outst => { x with msg := m }) (u.sendEnt q).outst = [{ o with msg := m }] := by
    simp [mapIf, one]
  change execRespTimeout t q o.cseq s = _
  unfold execRespTimeout
  rw [arrived]
  dsimp only
  rw [found]
  dsimp only
  rw [if_pos group, waits, if_neg (by simpa using due), State.resend]
  dsimp only
  rw [if_neg (Nat.not_le.2 below), counted]

/-! ### A message resent by a queue map out of order (R308, R332, R348): the counterexample of O21 -/

/-- A message with a sequence, sent and not answered. -/
def sentOnce : Outst := { cseq := 0, msg := { tierMsg with cseq := some 0 }, bytes := 0, sentAt := 0 }

/-- The Directory as reset leaves it, but for a group of one node. -/
def oneNodeGroup : PdSt := { State.reset.pd with vals := (0x4003, 0, [0, 0, 1, 0]) :: State.reset.pd.vals }

/-- A node at READY in that group, with the message outstanding on connection 0 to itself, and with queues 1 and 0 in that order. -/
def resendOutOfOrder (l : List Msg) : State :=
  { State.reset with
    boot := { State.reset.boot with ready := true }
    pd := oneNodeGroup
    rmo := { State.reset.rmo with send := [(0, { SendEnt.off with outst := [sentOnce] })] }
    egq := { State.reset.egq with qs := outOfOrder l } }

/-- The group, the time limit and the resend limit of that node. -/
theorem resendOutOfOrder_pdNum (l : List Msg) : (resendOutOfOrder l).pdNum 0x4003 0 = 65536 ∧ (resendOutOfOrder l).pdNum 0x4101 1 = 40 ∧
    (resendOutOfOrder l).pdNum 0x4101 2 = 4 := by
  change leNat (oneNodeGroup.bytes 0x4003 0) = _ ∧ leNat (oneNodeGroup.bytes 0x4101 1) = _ ∧ leNat (oneNodeGroup.bytes 0x4101 2) = _
  decide +kernel

/-- Taking the old sending of the message out of queue 0, where none waits, leaves a new record of the queue before the old one. -/
theorem outOfOrder_unqueueSeq {s : State} {l : List Msg} (qs : s.egq.qs = outOfOrder l) (open_ : s.egq.held = []) :
    ∃ x : Queue, x.waiting = [tierMsg] ∧ (s.unqueueSeq 0 0).egq.qs = (0, x) :: outOfOrder l := by
  have waits : (s.queue 0).waiting = [tierMsg] := by rw [State.queue, qs]; rfl
  unfold State.unqueueSeq State.unqueue State.refill
  dsimp only
  generalize hx : ({ (s.queue 0).settle s.timer with waiting := _, elig := _ } : Queue) = x
  have waiting : x.waiting = [tierMsg] := by
    rw [← hx]
    dsimp only
    rw [settle_waiting, waits]
    rfl
  simp only [State.note, State.setQueue, open_, List.filter_nil, List.foldl_nil]
  refine ⟨_, (noted_waiting ..).trans ?_, by rw [qs]; rfl⟩
  rw [State.queue]
  dsimp only
  rw [lookD_put_same]
  exact waiting

/-- The two records of queue 0 count, and the message that is sent again finds no room: it waits behind the queue. -/
theorem outOfOrder_resend {s : State} {l : List Msg} (many : l.length = 131070) (qs : s.egq.qs = outOfOrder l) (open_ : s.egq.held = []) (m : Msg) :
    (((s.unqueueSeq 0 0).enqueue 0 m).queue 0).waiting = [tierMsg] := by
  obtain ⟨x, waiting, eq⟩ := outOfOrder_unqueueSeq qs open_
  generalize s.unqueueSeq 0 0 = y at *
  have full : y.roomIn 0 = false := by simp [State.roomIn, eq, outOfOrder, waiting, many]
  rw [enqueue_of_full m full]
  change (lookD y.egq.qs 0 Queue.off).waiting = _
  rw [eq]
  exact waiting

/-- Refutes O21: the clause of a timeout fails in a state whose queue map is out of the ascending order of its keys. There the record of
queue 0 stands behind a new one once the message's old sending is taken out, both count as waiting messages, and the message sent again finds
no room, so that its queue has another message at its front. -/
theorem not_responsesEndOrResendMessages : ¬ Obligations.ResponsesEndOrResendMessages := by
  unfold Obligations.ResponsesEndOrResendMessages
  intro h
  obtain ⟨l, many⟩ : ∃ l : List Msg, l.length = 131070 := ⟨List.replicate 131070 tierMsg, List.length_replicate⟩
  obtain ⟨group, limit, resends⟩ := resendOutOfOrder_pdNum l
  obtain ⟨-, -, timeout, -⟩ := h (resendOutOfOrder l) (40 * us) 0 sentOnce rfl rfl
  have below : sentOnce.msg.resends < (resendOutOfOrder l).pdNum 0x4101 2 := by rw [resends]; decide
  have inGroup : (resendOutOfOrder l).inGroup 0 = true := by rw [State.inGroup, group]; decide
  have due : sentOnce.sentAt + (resendOutOfOrder l).pdNum 0x4101 1 * us ≤ 40 * us := by rw [limit]; decide
  have left : ∀ m ∈ (resendOutOfOrder l).queued 0, m.cseq ≠ some sentOnce.cseq := by
    rw [show (resendOutOfOrder l).queued 0 = [tierMsg] from rfl]; decide
  obtain ⟨v, hv, -, front, -⟩ := timeout below inGroup due left rfl rfl (by
    simp [State.roomIn, State.queue, resendOutOfOrder, outOfOrder, lookD, look, many])
  have hexec := exec_respTimeout_resends (s := resendOutOfOrder l) (t := 40 * us) (q := 0) (o := sentOnce) rfl rfl below inGroup due left
  obtain rfl : _ = v := Host.Outcome.next.inj (hexec.symm.trans hv)
  rw [show sentOnce.cseq = 0 from rfl, outOfOrder_resend many rfl rfl] at front
  have counts := congrArg (Option.map Msg.resends) front
  cases counts

end Sys2Proof.Machine

/-! ## DMA channels (R343 to R347) -/

namespace Sys2Proof.Machine

/-! ### A channel put back, and what the time of a command leaves of it -/

section
variable (s : State) (t ch : Nat)

@[simp] theorem arrive_dma : (s.arrive t).dma ch = s.dma ch := by rw [arrive_eq]; rfl
@[simp] theorem arrive_dmaOwns (fn : Nat) : (s.arrive t).dmaOwns fn ch = s.dmaOwns fn ch := by rw [arrive_eq]; rfl

@[simp] theorem setDma_dma_same (d : Dma) : (s.setDma ch d).dma ch = d := lookD_put_same ..

/-- What a start is checked against is the node's, and no channel's. -/
@[simp] theorem setDma_dmaRefusal (i : Nat) (d x : Dma) : (s.setDma i x).dmaRefusal ch d = s.dmaRefusal ch d := rfl

end

theorem frozen_eq_false {d : Dma} (h : d.st = .idle ∨ d.st = .done ∨ d.st = .halted) : d.frozen = false := by
  obtain h | h | h := h <;> simp [Dma.frozen, h]

/-- A control word with more bits set: a bit that is among them is set, and any other stands. -/
theorem bitAt_or_set {v k : BitVec 64} {pos : Nat} (h : bitAt k.toNat pos = true) : bitAt (v ||| k).toNat pos = true := by
  rw [bitAt_eq_testBit] at h ⊢
  rw [BitVec.toNat_or, Nat.testBit_or, h, Bool.or_true]

theorem bitAt_or_clear {v k : BitVec 64} {pos : Nat} (h : bitAt k.toNat pos = false) : bitAt (v ||| k).toNat pos = bitAt v.toNat pos := by
  rw [bitAt_eq_testBit] at h ⊢
  rw [BitVec.toNat_or, Nat.testBit_or, h, Bool.or_false, bitAt_eq_testBit]

/-! ### Starting a transfer (R343 to R345) -/

/-- A channel as a start that a check refuses leaves it (R344). -/
def Dma.refuse (d : Dma) (st : Status) : Dma := { d with st := .idle, status := st, refused := true }

/-- A channel whose transfer begins (R345). -/
def Dma.begin (d : Dma) : Dma :=
  { d with st := .running, status := .ok, prog := 0, acked := [], bad := none, outst := 0, issued := 0 }

section
variable {s : State} {ch : Nat}

/-- A local transfer sends no message. -/
theorem dmaIssue_of_local (src : (s.dma ch).skind = false) (dst : (s.dma ch).dkind = false) : s.dmaIssue ch = s := by
  unfold State.dmaIssue
  simp [src, dst]

theorem dmaStart_of_refused {st : Status} (no : s.dmaRefusal ch (s.dma ch) = some st) :
    s.dmaStart ch = (false, s.setDma ch ((s.dma ch).refuse st)) := by
  unfold State.dmaStart
  simp only [no]
  rfl

/-- A local transfer of some bytes that no check refuses runs from byte 0. -/
theorem dmaStart_of_local (ok : s.dmaRefusal ch (s.dma ch) = none) (src : (s.dma ch).skind = false) (dst : (s.dma ch).dkind = false)
    (some_ : 0 < (s.dma ch).count) : s.dmaStart ch = (false, s.setDma ch (s.dma ch).begin) := by
  have issue : (s.setDma ch (s.dma ch).begin).dmaIssue ch = s.setDma ch (s.dma ch).begin :=
    dmaIssue_of_local (by rw [setDma_dma_same]; exact src) (by rw [setDma_dma_same]; exact dst)
  unfold State.dmaStart
  simp only [ok]
  rw [if_neg (Nat.pos_iff_ne_zero.1 some_)]
  exact congrArg (Prod.mk false) issue

/-- A start that leaves the channel short of DONE triggers no other. -/
theorem dmaGo_of_start {v : State} (start : s.dmaStart ch = (false, v)) : s.dmaGo ch = v := by
  rw [State.dmaGo, start]; rfl

end

/-! ### Writes of DMA_CTL (R345 to R347) -/

/-- A node of which a function owns a channel (R343). -/
structure Owned (s : State) (fn ch : Nat) : Prop where
  ready : s.ready = true
  owns  : s.dmaOwns fn ch = true

theorem Owned.arrive {s : State} {fn ch : Nat} (h : Owned s fn ch) (t : Nat) : Owned (s.arrive t) fn ch :=
  ⟨by rw [arrive_ready]; exact h.ready, by rw [arrive_dmaOwns]; exact h.owns⟩

section
variable {s : State} {ch fn v : Nat}

theorem dmaCommand_of_owned (own : Owned s fn ch) : s.dmaCommand ch fn v = s.dmaCtl ch v := by
  simp [State.dmaCommand, own.ready, own.owns]

/-- A channel with the fields of DMA_CTL just written (R347). -/
def State.dmaWritten (s : State) (ch v : Nat) : State := s.setDma ch ((s.dma ch).setCtl v)

@[simp] theorem dmaWritten_dma : (s.dmaWritten ch v).dma ch = (s.dma ch).setCtl v := setDma_dma_same ..

@[simp] theorem dmaWritten_mem : (s.dmaWritten ch v).mem = s.mem := rfl

/-- START of an idle channel. -/
theorem dmaCtl_start (idle : (s.dma ch).st = .idle) (start : bitAt v 0 = true) (abort : bitAt v 2 = false) (resume : bitAt v 3 = false) :
    s.dmaCtl ch v = (s.dmaWritten ch v).dmaGo ch := by
  simp [State.dmaCtl, frozen_eq_false (.inl idle), idle, start, abort, resume, State.dmaWritten]

/-- ARM of an idle channel that waits for no Phase. -/
theorem dmaCtl_arm (idle : (s.dma ch).st = .idle) (start : bitAt v 0 = false) (arm : bitAt v 1 = true) (abort : bitAt v 2 = false)
    (resume : bitAt v 3 = false) (trig : ((s.dma ch).setCtl v).trig ≠ 1) :
    s.dmaCtl ch v = (s.dmaWritten ch v).setDma ch { (s.dma ch).setCtl v with st := .armed } := by
  have armed : (s.dmaWritten ch v).dmaArm ch = (s.dmaWritten ch v).setDma ch { (s.dma ch).setCtl v with st := .armed } := by
    have still : ((s.dma ch).setCtl v).st = .idle := idle
    unfold State.dmaArm
    simp [still, trig]
  rw [← armed]
  simp [State.dmaCtl, frozen_eq_false (.inl idle), start, arm, abort, resume, State.dmaWritten]

/-- ABORT of a channel that nothing is outstanding of: it is idle. -/
theorem dmaAbort_of_still (still : (s.dma ch).st = .armed ∨ (s.dma ch).st = .halted) :
    s.dmaAbort ch = s.setDma ch { s.dma ch with st := .idle } := by
  unfold State.dmaAbort
  exact if_pos still

theorem dmaCtl_abort (abort : bitAt v 2 = true) (still : (s.dma ch).st = .armed ∨ (s.dma ch).st = .halted) :
    ((s.dmaCtl ch v).dma ch).st = .idle ∧ (s.dmaCtl ch v).mem = s.mem := by
  have aborted (w : State) (still : (w.dma ch).st = .armed ∨ (w.dma ch).st = .halted) (mem : w.mem = s.mem) :
      ((w.dmaAbort ch).dma ch).st = .idle ∧ (w.dmaAbort ch).mem = s.mem := by
    rw [dmaAbort_of_still still]
    exact ⟨by rw [setDma_dma_same], mem⟩
  unfold State.dmaCtl
  simp only [abort, if_true]
  split
  · exact aborted s still rfl
  · exact aborted (s.dmaWritten ch v) (by rw [dmaWritten_dma]; exact still) rfl

/-- RESUME of a halted local transfer: it runs on from where it stands. -/
theorem dmaCtl_resume (halted : (s.dma ch).st = .halted) (abort : bitAt v 2 = false) (resume : bitAt v 3 = true)
    (src : bitAt v 6 = false) (dst : bitAt v 7 = false) : s.dmaCtl ch v = (s.dmaWritten ch v).setDma ch
      { (s.dma ch).setCtl v with st := .running, status := .ok, bad := none, acked := [], outst := 0 } := by
  have still : ((s.dma ch).setCtl v).st = .halted := halted
  have resumed : (s.dmaWritten ch v).dmaResume ch = (s.dmaWritten ch v).setDma ch
      { (s.dma ch).setCtl v with st := .running, status := .ok, bad := none, acked := [], outst := 0 } := by
    unfold State.dmaResume
    dsimp only
    rw [dmaWritten_dma, if_neg (not_not.2 still)]
    exact dmaIssue_of_local (by rw [setDma_dma_same]; exact src) (by rw [setDma_dma_same]; exact dst)
  rw [← resumed]
  simp [State.dmaCtl, frozen_eq_false (.inr (.inr halted)), abort, resume, State.dmaWritten]

end

/-! ### What each command of a channel comes to -/

section
variable {s : State} {t ch fn : Nat}

theorem exec_dmaStart {v : BitVec 64} (own : Owned s fn ch) :
    exec (.dmaStart t ch fn v) s = .next ((s.arrive t).dmaCtl ch (v ||| 1).toNat) := congrArg _ (dmaCommand_of_owned (own.arrive t))

theorem exec_dmaArm {v : BitVec 64} (own : Owned s fn ch) :
    exec (.dmaArm t ch fn v) s = .next ((s.arrive t).dmaCtl ch (v ||| 2).toNat) := congrArg _ (dmaCommand_of_owned (own.arrive t))

theorem exec_dmaAbort (own : Owned s fn ch) :
    exec (.dmaAbort t ch fn) s = .next ((s.arrive t).dmaCtl ch (((s.arrive t).dma ch).ctlWord ||| 4).toNat) :=
  congrArg _ (dmaCommand_of_owned (own.arrive t))

theorem exec_dmaResume {v : BitVec 64} (own : Owned s fn ch) :
    exec (.dmaResume t ch fn v) s = .next ((s.arrive t).dmaCtl ch (v ||| 8).toNat) := congrArg _ (dmaCommand_of_owned (own.arrive t))

/-- A Phase trigger that is due meets an armed channel: it starts. -/
theorem exec_dmaPhaseTrigger {v : State} (ready : s.ready = true) (armed : (s.dma ch).st = .armed) (trig : (s.dma ch).trig = 1)
    (due : (s.arrive t).dmaDue (s.dma ch) = true) (held : s.phs.held = false) (start : (s.arrive t).dmaStart ch = (false, v)) :
    exec (.dmaPhaseTrigger t ch) s = .next v := by
  have fire : (s.arrive t).dmaFire ch = (false, v) := by
    rw [State.dmaFire, arrive_dma, if_pos armed, start]
  change execDmaPhaseTrigger t ch s = _
  unfold execDmaPhaseTrigger
  dsimp only
  rw [if_neg (by simp [ready, trig, due, held]), fire]
  rfl

end

/-- Settles O24, by what a start, an arming, a trigger, an abort and a resumption leave of the channel. -/
theorem dmaChannelsRun : Obligations.DmaChannelsRun := by
  unfold Obligations.DmaChannelsRun
  intro s t ch fn v u d e ready owns
  have own : Owned s fn ch := ⟨ready, owns⟩
  have written : (u.dmaWritten ch (v ||| 1).toNat).dma ch = d := by rw [dmaWritten_dma, arrive_dma]
  have checked : (u.dmaWritten ch (v ||| 1).toNat).dmaRefusal ch d = u.dmaRefusal ch d := setDma_dmaRefusal ..
  have start (idle : (s.dma ch).st = .idle) (abort : bitAt v.toNat 2 = false) (resume : bitAt v.toNat 3 = false) :
      exec (.dmaStart t ch fn v) s = .next ((u.dmaWritten ch (v ||| 1).toNat).dmaGo ch) := by
    rw [exec_dmaStart own, dmaCtl_start (by rw [arrive_dma, idle]) (bitAt_or_set rfl) ((bitAt_or_clear rfl).trans abort)
      ((bitAt_or_clear rfl).trans resume)]
  refine ⟨?refused, ?runs, ?arms, ?triggered, ?aborts, ?resumes⟩
  case refused =>
    intro st idle abort resume no
    refine .of_exec (start idle abort resume) ?_
    rw [dmaGo_of_start (dmaStart_of_refused (by rw [written, checked, no])), setDma_dma_same]
    exact ⟨rfl, rfl, rfl, State.arrive_mem ..⟩
  case runs =>
    intro idle abort resume ok src dst some_
    refine .of_exec (start idle abort resume) ?_
    rw [dmaGo_of_start (dmaStart_of_local (by rw [written, checked, ok]) (by rw [written, src]) (by rw [written, dst])
      (by rw [written]; exact some_)), setDma_dma_same, written]
    exact ⟨rfl, State.arrive_mem ..⟩
  case arms =>
    intro idle start abort resume trig
    refine .of_exec (exec_dmaArm own) ?_
    rw [dmaCtl_arm (by rw [arrive_dma, idle]) ((bitAt_or_clear rfl).trans start) (bitAt_or_set rfl)
      ((bitAt_or_clear rfl).trans abort) ((bitAt_or_clear rfl).trans resume) (by rw [arrive_dma]; exact trig), setDma_dma_same, arrive_dma]
    exact ⟨rfl, State.arrive_mem ..⟩
  case triggered =>
    intro armed trig due held ok src dst some_
    have same : u.dma ch = s.dma ch := arrive_dma ..
    refine .of_exec (exec_dmaPhaseTrigger ready armed trig due held (dmaStart_of_local (by rw [same]; exact ok) (by rw [same, src])
      (by rw [same, dst]) (by rw [same]; exact some_))) ?_
    rw [setDma_dma_same]
    exact ⟨rfl, rfl, State.arrive_mem ..⟩
  case aborts =>
    intro still
    refine .of_exec (exec_dmaAbort own) ?_
    obtain ⟨idle, mem⟩ := dmaCtl_abort (s := u) (ch := ch) (v := ((u.dma ch).ctlWord ||| 4).toNat) (bitAt_or_set rfl)
      (by rw [arrive_dma]; exact still)
    exact ⟨idle, mem.trans (State.arrive_mem ..)⟩
  case resumes =>
    intro halted _ _ abort src dst
    refine .of_exec (exec_dmaResume own) ?_
    rw [dmaCtl_resume (by rw [arrive_dma, halted]) ((bitAt_or_clear rfl).trans abort) (bitAt_or_set rfl)
      ((bitAt_or_clear rfl).trans src) ((bitAt_or_clear rfl).trans dst), setDma_dma_same, arrive_dma]
    exact ⟨rfl, rfl, rfl, State.arrive_mem ..⟩

/-! ### The end of a transfer (R343, R345, R346) -/

theorem mem_put {α : Type} {m : Assoc α} {i : Nat} {x : α} {e : Nat × α} (h : e ∈ put m i x) : e = (i, x) ∨ e ∈ m := by
  induction m with
  | nil => exact .inl (List.mem_singleton.1 h)
  | cons p m ih =>
    obtain ⟨k, v⟩ := p
    unfold put at h
    split at h
    · exact List.mem_cons.1 h
    · split at h
      · exact (List.mem_cons.1 h).imp id (List.mem_cons_of_mem _)
      · rcases List.mem_cons.1 h with h | h
        · exact .inr (h ▸ List.mem_cons_self ..)
        · exact (ih h).imp id (List.mem_cons_of_mem _)

theorem length_reads (m : List Host.Cell) (a n : Nat) : (Memory.reads m a n).length = n := by
  rw [reads_eq_map, List.length_map, List.length_range]

/-- A channel that enters DONE (R343). -/
def Dma.finish (d : Dma) : Dma := { d with st := .done, done := true, prog := d.count }

/-- No channel waits for the end of this one (R345). -/
def Unwatched (s : State) (ch : Nat) : Prop := ∀ e ∈ s.egq.dma, ¬ (e.2.trig = 2 ∧ e.2.tch = ch)

section
variable {s : State} {ch : Nat}

theorem Unwatched.setDma (h : Unwatched s ch) {d : Dma} (other : d.tch ≠ ch) (i : Nat) : Unwatched (s.setDma i d) ch := by
  intro e he
  rcases mem_put he with rfl | he
  · exact fun w => other w.2
  · exact h e he

/-- A channel that enters DONE with none to trigger. -/
theorem dmaChain_of_unwatched (h : Unwatched s ch) (n : Nat) : s.dmaChain n [ch] = s := by
  cases n with
  | zero => rfl
  | succ n =>
    have none_ : (s.egq.dma.filter fun d => d.2.trig == 2 && d.2.tch == ch) = [] :=
      List.filter_eq_nil_iff.2 fun e he => by simpa using h e he
    unfold State.dmaChain
    rw [none_]
    cases n <;> rfl

theorem dmaCount_egq (sub : Nat) : (s.dmaCount ch sub).egq = s.egq :=
  Within.keeps (l := [.egq]) (p := .egq) (State.dmaCount_within rfl (.refl _ s)) (by simp)

theorem dmaIrq_egq : (s.dmaIrq ch).egq = s.egq :=
  Within.keeps (l := [.egq]) (p := .egq) (State.dmaIrq_within rfl (.refl _ s)) (by simp)

theorem dmaCount_mem (sub : Nat) : (s.dmaCount ch sub).mem = s.mem :=
  Within.keeps (l := [.mem]) (p := .mem) (State.dmaCount_within rfl (.refl _ s)) (by simp)

theorem dmaIrq_mem : (s.dmaIrq ch).mem = s.mem :=
  Within.keeps (l := [.mem]) (p := .mem) (State.dmaIrq_within rfl (.refl _ s)) (by simp)

/-- The end of a transfer that is counted and signalled leaves the channels and memory. -/
theorem dmaEnded_egq (sub : Nat) : ((s.dmaCount ch sub).dmaIrq ch).egq = s.egq := dmaIrq_egq.trans (dmaCount_egq sub)

theorem dmaEnded_mem (sub : Nat) : ((s.dmaCount ch sub).dmaIrq ch).mem = s.mem := dmaIrq_mem.trans (dmaCount_mem sub)

theorem dma_of_egq {v : State} (h : v.egq = s.egq) : v.dma ch = s.dma ch := by rw [State.dma, h, State.dma]

/-- A local transfer that is done, and that no other channel waits for. -/
theorem exec_dmaTransferDone {t : Nat} (free : Unwatched s ch) (runs : (s.dma ch).st = .running) (outst : (s.dma ch).outst = 0)
    (good : (s.dma ch).bad = none) (src : (s.dma ch).skind = false) (dst : (s.dma ch).dkind = false) (other : (s.dma ch).tch ≠ ch) :
    let d := s.dma ch
    let v := ((s.arrive t).store (d.dstA + d.prog) ((s.arrive t).load (d.srcA + d.prog) (d.count - d.prog))).setDma ch d.finish
    exec (.dmaTransferDone t ch) s = .next ((v.dmaCount ch 0).dmaIrq ch) := by
  intro d v
  have copied : (s.arrive t).dmaCopy d d.count = (s.arrive t).store (d.dstA + d.prog) ((s.arrive t).load (d.srcA + d.prog) (d.count - d.prog)) := by
    simp [State.dmaCopy, d, src, dst]
  have free' : Unwatched v ch := by
    refine Unwatched.setDma (d := d.finish) (fun e he => free e ?_) other ch
    rwa [State.store_egq, State.arrive_egq] at he
  have chain : ((v.dmaCount ch 0).dmaIrq ch).dmaChain 256 [ch] = (v.dmaCount ch 0).dmaIrq ch :=
    dmaChain_of_unwatched (by unfold Unwatched; rw [dmaEnded_egq]; exact free') 256
  change execDmaTransferDone t ch s = _
  unfold execDmaTransferDone
  dsimp only
  rw [arrive_dma, if_neg (by simp [runs, outst, good]), copied]
  exact congrArg _ chain

/-- A channel that has noted an error, and of which nothing is outstanding, halts with it. -/
theorem exec_dmaHalt_noted {t a prog addr : Nat} {w wr : Bool} {st st' : Status} (runs : (s.dma ch).st = .running)
    (outst : (s.dma ch).outst = 0) (noted : (s.dma ch).bad = some (a, w, st)) :
    exec (.dmaHalt t ch wr st' addr prog) s = .next ((s.arrive t).dmaHaltAt ch a w st (s.dma ch).progress) := by
  change execDmaHalt t ch wr st' addr prog s = _
  unfold execDmaHalt
  dsimp only
  rw [arrive_dma, if_neg (by simp [runs, outst])]
  simp only [noted]

theorem exec_dmaDoneClear {t fn : Nat} (own : Owned s fn ch) : exec (.dmaDoneClear t ch fn) s = .next ((s.arrive t).dmaClearDone ch) := by
  have arrived := own.arrive t
  change execDmaDoneClear t ch fn s = _
  unfold execDmaDoneClear
  simp [arrived.ready, arrived.owns]

end

/-- Settles O25, by what the end, the halt and the clearing of DONE leave of the channel and of memory. -/
theorem dmaTransfersEnd : Obligations.DmaTransfersEnd := by
  unfold Obligations.DmaTransfersEnd
  intro s t ch d free
  refine ⟨?ends, ?halts, ?clears⟩
  case ends =>
    intro runs outst good src dst within other
    refine .of_exec (exec_dmaTransferDone free runs outst good src dst other) ?_
    rw [dma_of_egq (dmaEnded_egq 0), dmaEnded_mem, setDma_dma_same, State.setDma_mem, store_mem, State.load, State.arrive_mem]
    refine ⟨rfl, rfl, rfl, rfl, fun a outside => Memory.read_writes_other _ _ _ ?_⟩
    rw [length_reads]
    change a < d.dstA + d.prog ∨ d.dstA + d.prog + (d.count - d.prog) ≤ a
    omega
  case halts =>
    intro a w st wr st' addr prog runs outst noted
    refine .of_exec (exec_dmaHalt_noted runs outst noted) ?_
    unfold State.dmaHaltAt
    dsimp only
    rw [dma_of_egq (dmaEnded_egq 1), dmaEnded_mem, setDma_dma_same, State.setDma_mem, State.arrive_mem]
    exact ⟨rfl, rfl, rfl, rfl, rfl, rfl⟩
  case clears =>
    intro fn ready owns done_
    refine .of_exec (exec_dmaDoneClear ⟨ready, owns⟩) ?_
    unfold State.dmaClearDone
    rw [setDma_dma_same, State.setDma_mem, arrive_dma, State.arrive_mem, if_pos done_]
    exact ⟨rfl, rfl⟩

end Sys2Proof.Machine

/-! ## Egress queues and their packets (R331 to R342) -/

namespace Sys2Proof.Machine

/-! ### A queue put back, and noted (R338) -/

section
variable (s : State) {q i : Nat}

@[simp] theorem arrive_queue (t q : Nat) : (s.arrive t).queue q = s.queue q := by rw [arrive_eq]; rfl

@[simp] theorem setQueue_queue_same (x : Queue) : (s.setQueue q x).queue q = x := lookD_put_same ..

theorem setQueue_queue_other (x : Queue) (other : i ≠ q) : (s.setQueue q x).queue i = s.queue i := lookD_put_other _ _ _ _ _ other

/-- A queue put back and noted is what was put back, but for where its head is eligible. -/
theorem note_setQueue_queue_same (x : Queue) : ∃ elig, ((s.setQueue q x).note q).queue q = { x with elig } := by
  rw [State.note, setQueue_queue_same, setQueue_queue_same]
  exact ⟨_, noted_eq ..⟩

theorem note_setQueue_queue_other (x : Queue) (other : i ≠ q) : ((s.setQueue q x).note q).queue i = s.queue i := by
  rw [State.note, setQueue_queue_other _ _ other, setQueue_queue_other _ _ other]

end

/-! ### The commands of EGQ_CMD (R333, R342) -/

/-- A command of EGQ_CMD has ended with a status. -/
def State.egqAnswer (s : State) (q : Nat) (st : Status) : State := { s with egq := { s.egq with cmdQ := q, cmdStat := st } }

/-- What a WRITE of EGQ_CFG makes of a queue (R333). -/
def State.egqConfigured (s : State) (q : Nat) : Queue := ((s.queue q).settle s.timer).configure s.egq.cfg.toNat

section
variable {s : State} {q : Nat}

/-- A WRITE that leaves off a queue without a message. -/
theorem egqWrite_of_off (off : bitAt s.egq.cfg.toNat 0 = false) (empty : (s.queue q).waiting = []) (none_ : (s.sendEnt q).outst = []) :
    s.egqWrite q = State.egqAnswer ((s.setQueue q (s.egqConfigured q)).note q) q .ok := by
  have en : (s.egqConfigured q).en = false := off
  have idle : ((s.queue q).settle s.timer).waiting = [] := (settle_waiting ..).trans empty
  have config : ((s.queue q).settle s.timer).configure s.egq.cfg.toNat = s.egqConfigured q := rfl
  unfold State.egqWrite
  dsimp only
  rw [config, en, idle, none_, if_neg Bool.false_ne_true]
  dsimp only
  rw [if_neg (fun h => absurd h.1 (by decide)), if_neg (fun h => Bool.false_ne_true h.1), ← en]
  rfl

/-- A WRITE that enables a queue and fails a check. -/
theorem egqWrite_of_refused {st : Status} (on : bitAt s.egq.cfg.toNat 0 = true) (no : s.egqRefusal q (s.egqConfigured q) = some st) :
    s.egqWrite q = s.egqAnswer q st := by
  have en : (s.egqConfigured q).en = true := on
  have config : ((s.queue q).settle s.timer).configure s.egq.cfg.toNat = s.egqConfigured q := rfl
  unfold State.egqWrite
  simp [config, en, no, State.egqAnswer]

theorem exec_egqWrite {t : Nat} (ready : s.ready = true) : exec (.egqWrite t q) s = .next ((s.arrive t).egqWrite (q % 8192)) := by
  change execEgqWrite t q s = _
  rw [execEgqWrite, arrive_ready, if_pos ready]

theorem exec_egqRead {t : Nat} (ready : s.ready = true) : exec (.egqRead t q) s = .next ((s.arrive t).egqRead (q % 8192)) := by
  change execEgqRead t q s = _
  rw [execEgqRead, arrive_ready, if_pos ready]

end

/-- R336: a queue that the shaper does not hold pays for every message. -/
theorem paid_of_unshaped {x : Queue} (h : x.unshaped = true) (m : Msg) : x.paid m = true := by
  rw [Queue.paid, h, Bool.or_true]

/-- R336: the TOKENS of such a queue do not tell where it is eligible. -/
theorem eligible_of_unshaped (s : State) (port vl q : Nat) {x : Queue} (tokens : Int) (h : x.unshaped = true) :
    s.eligible port vl q { x with tokens } = s.eligible port vl q x := by
  have may (m : Msg) : s.mayStart port q { x with tokens } m = s.mayStart port q x m := rfl
  have ports : s.headPorts q { x with tokens } = s.headPorts q x := rfl
  have paid (m : Msg) : Queue.paid { x with tokens } m = true := paid_of_unshaped (x := { x with tokens }) h m
  unfold State.eligible
  cases x.waiting.head? with
  | none => rfl
  | some m => simp only [may, ports, paid, paid_of_unshaped h m]

/-- Settles O22, by what each command leaves of the queue that it names. -/
theorem egressQueueCommands : Obligations.EgressQueueCommands := by
  unfold Obligations.EgressQueueCommands
  intro s t q ready u n c
  have config : u.egqConfigured n = ((s.queue n).settle u.timer).configure c := by
    rw [State.egqConfigured, arrive_queue, State.arrive_egq]
  refine ⟨?off, ?refused, ?shown, ?unshaped⟩
  case off =>
    intro off empty none_
    refine .of_exec (exec_egqWrite ready) ?_
    rw [egqWrite_of_off (by rw [State.arrive_egq]; exact off) (by rw [arrive_queue, empty]) (by rw [arrive_sendEnt, none_])]
    obtain ⟨elig, written⟩ := note_setQueue_queue_same u (u.egqConfigured n) (q := n)
    change _ ∧ (((u.setQueue n _).note n).queue n).en = _ ∧ (((u.setQueue n _).note n).queue n).comp = _ ∧
      (((u.setQueue n _).note n).queue n).ports = _ ∧ (((u.setQueue n _).note n).queue n).rate = _ ∧
      (((u.setQueue n _).note n).queue n).burst = _ ∧ ∀ i, i ≠ n → ((u.setQueue n _).note n).queue i = _
    rw [written, config]
    refine ⟨rfl, off, rfl, rfl, rfl, rfl, fun i other => ?_⟩
    rw [note_setQueue_queue_other _ _ other, arrive_queue]
  case refused =>
    intro st on no
    refine .of_exec (exec_egqWrite ready) ?_
    rw [egqWrite_of_refused (by rw [State.arrive_egq]; exact on) (by rw [config]; exact no)]
    exact ⟨rfl, (congrArg EgqSt.qs (State.arrive_egq s t) :)⟩
  case shown =>
    refine .of_exec (exec_egqRead ready) ⟨rfl, rfl, ?_, (congrArg EgqSt.qs (State.arrive_egq s t) :)⟩
    change ((u.queue n).settle u.timer).cfgWord = _
    rw [arrive_queue]
  case unshaped => exact fun x tokens port vl h => ⟨paid_of_unshaped h, eligible_of_unshaped s port vl n tokens h⟩

/-! ### A packet handed to a port's link (R271 to R273, R288) -/

/-- What the hand-over of a packet moves: of the links the ports alone, of the queues where their heads are eligible and their buckets, and
it takes back nothing that has been sent. -/
structure HandsOver (s t : State) : Prop where
  lnk : t.lnk = { s.lnk with ports := t.lnk.ports }
  egq : t.egq = { s.egq with qs := t.egq.qs }
  out : s.out ⊆ t.out

namespace HandsOver

theorem refl (s : State) : HandsOver s s := ⟨rfl, rfl, List.Subset.refl _⟩

theorem trans {a b c : State} (h : HandsOver a b) (k : HandsOver b c) : HandsOver a c :=
  ⟨k.lnk.trans (by rw [h.lnk]), k.egq.trans (by rw [h.egq]), fun _ m => k.out (h.out m)⟩

theorem setPort (s : State) (p : Nat) (x : Port) : HandsOver s (s.setPort p x) := ⟨rfl, rfl, List.Subset.refl _⟩

theorem emit (s : State) (o : Out) : HandsOver s (s.emit o) := ⟨rfl, rfl, List.subset_cons_self ..⟩

theorem count (s : State) (index sub : Nat) : HandsOver s (s.count index sub) := ⟨rfl, rfl, List.Subset.refl _⟩

theorem noteAll (s : State) : HandsOver s s.noteAll := ⟨rfl, rfl, List.Subset.refl _⟩

theorem corrupt (s : State) (p group : Nat) : HandsOver s (s.corrupt p group) := by
  obtain h | ⟨y, hits, -, -, h⟩ := corrupt_cases s p group
  · rw [h]; exact .refl s
  · rw [h]; exact ⟨rfl, rfl, List.subset_append_right ..⟩

theorem sendFlit (s : State) (p : Nat) (f : Flit) : HandsOver s (s.sendFlit p f) :=
  (setPort ..).trans ((emit ..).trans (corrupt ..))

/-- A flit that need not wait leaves. -/
theorem sendNext (s : State) (p : Nat) (y : Port) (f : Flit) : HandsOver s (((s.setPort p y).count 0x4015 p).sendFlit p f) :=
  (setPort s p y).trans ((count _ 0x4015 p).trans (sendFlit _ p f))

theorem drainPort (s : State) (p : Nat) : HandsOver s (s.drainPort p) := by
  unfold State.drainPort
  extract_lets x step
  have kept : HandsOver s (x.tx.foldl step (s, [], [])).1 := by
    refine List.foldlRecOn (motive := fun a : State × List Flit × List Nat => HandsOver s a.1) _ _ (.refl s) fun a h f _ => ?_
    obtain ⟨u, left, stuck⟩ := a
    simp only [step]
    split
    · exact h
    · exact h.trans (sendNext u p _ _)
  generalize x.tx.foldl step (s, [], []) = a at kept
  obtain ⟨u, left, stuck⟩ := a
  exact kept.trans ((setPort u p { u.port p with tx := left }).trans (noteAll _))

theorem sendPacket (s : State) (p vl : Nat) (flits : List Flit) : HandsOver s (s.sendPacket p vl flits) := by
  unfold State.sendPacket
  extract_lets x subject
  generalize (if (x.fmode = 2 ∨ x.fmode = 3) ∧ subject then x.inject else (false, x)) = a
  obtain ⟨hit, y⟩ := a
  dsimp only
  split
  · exact setPort ..
  · split
    · exact setPort ..
    · exact (setPort ..).trans (drainPort ..)

end HandsOver

theorem sendPacket_mem (s : State) (p vl : Nat) (flits : List Flit) : (s.sendPacket p vl flits).mem = s.mem :=
  Within.keeps (l := [.mem]) (p := .mem) (by apply State.sendPacket_within (hs := .refl _ s) <;> rfl) (by simp)

/-! ### What leaves by a port that is free for a lane (R275, R276, R338) -/

section
variable (s : State)

/-- The message at the front of the management logic that takes the port leaves the ring, and the spill list fills it again (R276). -/
theorem startMgmt_leaves {port : Nat} {m : Nat × List Byte}
    (first : s.lnk.mgmtOut.find? (fun m => s.bestPort 6 (portList (s.routeMask m.1)) == some port) = some m) :
    (s.startMgmt port).lnk.mgmtOut = s.lnk.mgmtOut.erase m ++ s.lnk.mgmtSpill.take (mgmtMost - (s.lnk.mgmtOut.erase m).length) ∧
      (s.startMgmt port).mem = s.mem := by
  unfold State.startMgmt
  rw [first]
  exact ⟨(congrArg LinkSt.mgmtOut (HandsOver.sendPacket ..).lnk :), sendPacket_mem ..⟩

/-- A response, or a packet that is passed on, leaves the list of those that wait (R274). -/
theorem startPkt_leaves (port : Nat) (k : LinkPkt) :
    (s.startPkt port k).lnk.pkts = s.lnk.pkts.erase k ∧ (s.startPkt port k).egq.held = s.egq.held ∧ (s.startPkt port k).mem = s.mem :=
  ⟨(congrArg LinkSt.pkts (HandsOver.sendPacket ..).lnk :), (congrArg EgqSt.held (HandsOver.sendPacket ..).egq :), sendPacket_mem ..⟩

/-- A packet of the queue is sent. -/
theorem startPacket_sends (port vl q : Nat) (m : Msg) : ∃ g, Out.packet port vl q g ∈ (s.startPacket port vl q m).out := by
  unfold State.startPacket
  generalize (if m.off = 0 then s.openMsg q m else (m, s)) = opened
  exact ⟨_, (HandsOver.sendPacket ..).out (List.mem_cons_self ..)⟩

end

/-- A port in Damlis mode that carries a lane, with credit, and with no packet on it. -/
structure LaneFree (s : State) (port vl : Nat) : Prop where
  inRange : port < 8
  carries : (s.port port).carries vl = true
  credit  : s.credits port vl ≠ 0
  idle    : ∀ f ∈ (s.port port).tx, f.vl ≠ vl

section
variable {s : State} {port vl : Nat} (t : Nat)

@[simp] theorem arrive_credits (port vl : Nat) : (s.arrive t).credits port vl = s.credits port vl := by rw [arrive_eq]; rfl
@[simp] theorem arrive_sends : (s.arrive t).sends = s.sends := by rw [arrive_eq]; rfl

/-- The management logic picks the port of a message by what the time of a command leaves alone. -/
theorem arrive_mgmtFirst (port : Nat) :
    ((s.arrive t).lnk.mgmtOut.find? fun m => (s.arrive t).bestPort 6 (portList ((s.arrive t).routeMask m.1)) == some port) =
      s.lnk.mgmtOut.find? fun m => s.bestPort 6 (portList (s.routeMask m.1)) == some port := by rw [arrive_eq]; rfl

theorem LaneFree.arrive (h : LaneFree s port vl) : LaneFree (s.arrive t) port vl :=
  ⟨h.inRange, by rw [arrive_port]; exact h.carries, by rw [arrive_credits]; exact h.credit, by rw [arrive_port]; exact h.idle⟩

theorem LaneFree.damlis (h : LaneFree s port vl) : (s.port port).mode ≠ 1 := by
  have carries := h.carries
  intro gateway
  simp [Port.carries, gateway] at carries

theorem LaneFree.open_ (h : LaneFree s port vl) :
    ¬ (!(s.port port).carries vl || s.credits port vl == 0 || (s.port port).tx.any fun f => f.vl == vl) = true := by
  simpa [h.carries, h.credit] using h.idle

variable {t}

theorem exec_packetStart_mgmt (free : LaneFree s port 6) (ready : s.ready = true) :
    exec (.packetStart t port 6) s = .next ((s.arrive t).startMgmt port) := by
  have free := free.arrive t
  change execPacketStart t port 6 s = _
  unfold execPacketStart
  dsimp only
  rw [if_neg (Nat.not_le.2 free.inRange), if_neg free.damlis, if_neg free.open_, if_pos rfl, arrive_ready, if_pos ready]

section
variable (free : LaneFree s port vl) (lane : vl ≠ 6) (sends : s.sends = true)
include free lane sends

theorem exec_packetStart_pkt {k : LinkPkt} (next_ : (s.arrive t).nextPkt port vl = some k) :
    exec (.packetStart t port vl) s = .next ((s.arrive t).startPkt port k) := by
  have free := free.arrive t
  change execPacketStart t port vl s = _
  unfold execPacketStart
  dsimp only
  rw [if_neg (Nat.not_le.2 free.inRange), if_neg free.damlis, if_neg free.open_, if_neg lane, if_neg (by simp [sends]), next_]

theorem exec_packetStart_queue {e : Nat × Queue} {m : Msg} (none_ : (s.arrive t).nextPkt port vl = none)
    (next_ : (s.arrive t).dropUnsendable.noteAll.nextQueue port vl = some e) (head : e.2.waiting.head? = some m) :
    exec (.packetStart t port vl) s = .next ((s.arrive t).dropUnsendable.noteAll.startPacket port vl e.1 m) := by
  have free := free.arrive t
  change execPacketStart t port vl s = _
  unfold execPacketStart
  dsimp only
  rw [if_neg (Nat.not_le.2 free.inRange), if_neg free.damlis, if_neg free.open_, if_neg lane, if_neg (by simp [sends]), none_]
  dsimp only
  rw [next_]
  dsimp only
  rw [head]

end

/-- A sample round that is due notes its time, and signals the ring last (R341, R485). -/
theorem exec_sampleRound (ready : s.ready = true) (due : s.egq.sampAt + 16 * s.pdNum 0x4220 3 ≤ (s.arrive t).timer) :
    ∃ (v : State) (sampEnd : Nat), exec (.sampleRound t) s =
      .next (State.emit { v with egq := { v.egq with sampAt := (s.arrive t).timer, sampEnd } } (.msix 0 3)) := by
  change ∃ (v : State) (sampEnd : Nat), execSampleRound t s = _
  unfold execSampleRound
  extract_lets u v qs w
  have counted : Within (keeping [.timer]) u v := .ite (State.count_within rfl (.refl ..)) (.refl ..)
  have sampled : Within (keeping [.timer]) u w := counted.foldl fun x e h =>
    State.setQueue_within rfl (.ite (State.emit_within rfl (State.ringPut_within rfl rfl h))
      (State.count_within rfl (State.ringPut_within rfl rfl h)))
  have timer : w.timer = u.timer := sampled.keeps (p := .timer) (by simp)
  have late : ¬ (!u.ready ∨ u.timer < u.egq.sampAt + 16 * u.pdNum 0x4220 3) := by
    simpa [u, ready] using due
  refine ⟨w, max w.timer w.egq.sampEnd + 32 * qs.length, ?_⟩
  rw [if_neg late, ← timer]

end

/-- Settles O23, by what each kind of packet leaves as it leaves, and by how a sample round ends. -/
theorem packetsAndSamplesAreSent : Obligations.PacketsAndSamplesAreSent := by
  unfold Obligations.PacketsAndSamplesAreSent
  intro s t port vl u ready carries credit idle inRange
  have free : LaneFree s port vl := ⟨inRange, carries, credit, idle⟩
  refine ⟨?mgmt, ?pkt, ?queue, ?samples⟩
  case mgmt =>
    rintro m rfl first
    obtain ⟨left, mem⟩ := startMgmt_leaves u ((arrive_mgmtFirst t port).trans first)
    rw [State.arrive_lnk] at left
    exact .of_exec (exec_packetStart_mgmt free ready) ⟨left, mem.trans (State.arrive_mem ..)⟩
  case pkt =>
    intro k lane sends next_
    obtain ⟨pkts, held, mem⟩ := startPkt_leaves u port k
    rw [State.arrive_lnk] at pkts
    rw [State.arrive_egq] at held
    exact .of_exec (exec_packetStart_pkt free lane sends next_) ⟨pkts, held, mem.trans (State.arrive_mem ..)⟩
  case queue =>
    intro e m lane sends none_ next_ head
    exact .of_exec (exec_packetStart_queue free lane sends none_ next_ head) (startPacket_sends ..)
  case samples =>
    intro due
    obtain ⟨v, sampEnd, eq⟩ := exec_sampleRound ready due
    exact .of_exec eq ⟨rfl, rfl⟩

end Sys2Proof.Machine

/-! ## The management units (13 to 18): security, power, boot, the Parameter Directory and the host -/

namespace Sys2Proof.Machine

/-! ### Frames -/

/-- Settles O60: every command keeps its frame, those of the management units among them. -/
theorem managementFrames : Obligations.ManagementFrames := fun i _ => framed i

/-- A part that the row of a command does not list stands in the state that the command answers. -/
theorem exec_keeps {i : Instr} {s v : State} (h : exec i s = .next v) (p : Part) (hp : p ∉ touches i) : p.same s v := by
  obtain ⟨w, hw, -, same⟩ := framed i s
  cases h.symm.trans hw
  exact same p hp

/-- What is shown of the state that a command answers, with memory, which the row of the command does not list. -/
theorem Yields.withMem {i : Instr} {s : State} {P : State → Prop} (hp : Part.mem ∉ touches i) (h : Yields i s P) :
    Yields i s fun v => P v ∧ v.mem = s.mem := by
  obtain ⟨v, hexec, hv⟩ := h
  exact ⟨v, hexec, hv, exec_keeps hexec .mem hp⟩

end Sys2Proof.Machine

namespace Sys2Proof.Machine

/-! ### SPDM (R386, R387) -/

section
variable {s : State} {tr : Transport} {m : Spdm} (h : SpdmHeard s tr m)
include h

theorem SpdmHeard.arrive (t : Nat) : SpdmHeard (s.arrive t) tr m := ⟨by simpa using h.up, h.tr, h.valid, h.slot⟩

/-- A request that the Security Core hears is served where what it needs has come before, and is answered with ERROR 4 where not. -/
theorem SpdmHeard.served (ready : Bool) (f : State → State) :
    s.spdm tr m ready f = if ready then f s else s.spdmError tr 0x04 := by
  obtain ⟨up, carries, valid, slot⟩ := h
  cases ready <;> simp [State.spdm, up, carries, valid, slot]

/-- What a request that comes in its order yields is what serving it gives, at whatever time. -/
theorem SpdmHeard.yields {t : Nat} {i : Instr} {ready : Bool} {f : State → State} {P : State → Prop}
    (e : exec i s = .next ((s.arrive t).spdm tr m ready f)) (inOrder : ready = true) (p : ∀ time, P (f { s with timer := time })) :
    Yields i s P := by
  rw [(h.arrive t).served, if_pos inOrder, arrive_eq] at e
  exact .of_exec e (p _)

end

theorem arrive_negotiated (s : State) (t : Nat) : (s.arrive t).negotiated = s.negotiated := by simp [State.negotiated]

theorem arrive_session (s : State) (t : Nat) (m : Spdm) : (s.arrive t).session m = s.session m := by simp [State.session]

/-- Dropping the entries of a session leaves those of every other. -/
theorem mem_filter_session {l : List (Nat × Bool)} {n : Nat} {x : Nat × Bool} (other : x.1 ≠ n) : x ∈ l.filter (·.1 != n) ↔ x ∈ l := by
  simp [other]

/-- An entry put in the place of those of its session leaves those of every other. -/
theorem mem_cons_filter_session {l : List (Nat × Bool)} {n : Nat} {done : Bool} {x : Nat × Bool} (other : x.1 ≠ n) :
    x ∈ (n, done) :: l.filter (·.1 != n) ↔ x ∈ l := by
  have : x ≠ (n, done) := fun e => other (congrArg Prod.fst e)
  simp [this, other]

/-- Settles O36, request by request: each is served in its order, and what it is served with names the answer and the new state of the core. -/
theorem spdmRequestsAreAnsweredInOrder : Obligations.SpdmRequestsAreAnsweredInOrder := by
  unfold Obligations.SpdmRequestsAreAnsweredInOrder
  intro s t tr m h tells
  have negotiated (n : s.negotiated = true) : (s.arrive t).negotiated = true := by rw [arrive_negotiated, n]
  have session (n : s.session m = true) : (s.arrive t).session m = true := by rw [arrive_session, n]
  refine ⟨?version, ?caps, ?algs, ?digests, ?cert, ?challenge, ?early, ?measure, ?exchange, ?finish, ?heartbeat, ?update, ?close⟩
  case version => exact h.yields rfl rfl fun _ => ⟨⟨_, rfl⟩, rfl, rfl⟩
  case caps =>
    intro v
    exact h.yields rfl (by simpa using v) fun _ => ⟨⟨_, rfl⟩, rfl, rfl⟩
  case algs =>
    intro v c
    exact h.yields rfl (by simp [v, c]) fun _ => ⟨⟨_, rfl⟩, rfl, rfl⟩
  case digests =>
    intro n
    exact h.yields rfl (negotiated n) fun _ => ⟨⟨_, rfl⟩, rfl, rfl⟩
  case cert =>
    intro n off len
    exact h.yields rfl (negotiated n) fun _ => ⟨⟨_, rfl⟩, rfl, rfl⟩
  case challenge =>
    intro n nonce
    exact h.yields rfl (negotiated n) fun _ => ⟨⟨_, rfl⟩, rfl, rfl⟩
  case early =>
    intro n nonce
    refine .of_exec (congrArg Host.Outcome.next ((h.arrive t).served _ _)) ?_
    rw [arrive_negotiated, if_neg (by simp [n]), arrive_eq]
    exact ⟨rfl, rfl⟩
  case measure =>
    intro n index exists_
    refine h.yields rfl (negotiated n) fun _ => ?_
    split
    · exact ⟨⟨_, rfl⟩, rfl, rfl⟩
    split
    · exact ⟨⟨_, rfl⟩, rfl, rfl⟩
    rw [if_pos (by tauto)]
    exact ⟨⟨_, rfl⟩, rfl, rfl⟩
  case exchange =>
    intro n
    exact h.yields rfl (negotiated n) fun _ =>
      ⟨⟨_, rfl⟩, List.mem_cons_self, fun x other => mem_cons_filter_session other, rfl⟩
  case finish =>
    intro begun
    refine h.yields rfl (by simpa using begun) fun _ =>
      ⟨⟨_, rfl⟩, List.mem_cons_self, ?_, fun x other => mem_cons_filter_session other, rfl⟩
    simp [State.spdmSay]
  case heartbeat =>
    intro n
    exact h.yields rfl (session n) fun _ => ⟨⟨_, rfl⟩, rfl, rfl⟩
  case update =>
    intro n
    exact h.yields rfl (session n) fun _ => ⟨⟨_, rfl⟩, rfl, rfl⟩
  case close =>
    intro n
    exact h.yields rfl (session n) fun _ =>
      ⟨⟨_, rfl⟩, fun x hx => by simpa using List.of_mem_filter hx, fun x other => mem_filter_session other, rfl⟩

end Sys2Proof.Machine

namespace Sys2Proof.Machine

/-! ### The row whose loss takes a slice out of service (R216, R371, R404, R406): the counterexample of O42 -/

/-- A node at READY where 64 rows of pseudo-channel 0 are withheld and row 0, at its third correction, would be the next; composition 1 holds its
slice, a near-memory unit of the slice computes on bank 0, and a host read of that bank, whose transfer comes with one byte in error, is held. -/
def lastRow : State :=
  { State.reset with
    boot := { State.reset.boot with ready := true }
    sec := { State.reset.sec with up := true }
    cmp := { State.reset.cmp with comps := [(1, servingComp)] }
    rel := { State.reset.rel with queued := [0], hits := [(0, 2)], rows := (List.range 64).map (· + 1) }
    hbm := { State.reset.hbm with
      nmus := [(0, { Nmu.idle with st := .compute, banks := [0] })]
      arbs := [(0, { Arb.idle with compute := [0] })]
      hostHeld := [{ fn := 0, npa := 64, len := 64, wr := none, errs := [[3]] }] } }

/-- The pseudo-channel leaves service, the composition is torn down, its unit aborts and releases the bank, and the host read that is served
then finds a corrected error, whose address is queued for a rewrite. -/
theorem lastRow_rewrite : (goesOn lastRow (exec (.correctedRewrite 0 0) lastRow)).rel.queued = [64] := by
  decide +kernel

/-- Refutes O42: its clause of the third correction says that the queue of corrected addresses only loses the address that is rewritten. Where
the withheld row takes its slice out of service, a host read that compute state held is served meanwhile, and may queue another. -/
theorem not_rebuildAndScrubCommands : ¬ Obligations.RebuildAndScrubCommands := by
  unfold Obligations.RebuildAndScrubCommands
  intro h
  obtain ⟨-, -, -, -, rewrite, -⟩ := h lastRow 0 1 rfl
  obtain ⟨-, third⟩ := rewrite 0 rfl rfl
  obtain ⟨v, hv, queued, -⟩ := third (by decide +kernel)
  have more := lastRow_rewrite
  rw [hv] at more
  exact absurd (more.symm.trans queued) (by decide)

end Sys2Proof.Machine

namespace Sys2Proof.Machine

/-! ### Pages that become stale (R239) -/

/-- Block `b` of channel `ch` has at least the stale pages that it had. -/
def Worn (ch b : Nat) (s t : State) : Prop := ((s.flash ch).block b).stale ≤ ((t.flash ch).block b).stale

section
variable {ch b : Nat}

theorem Worn.of_flash {s t : State} (h : t.flash ch = s.flash ch) : Worn ch b s t := by rw [Worn, h]

theorem Worn.refl (s : State) : Worn ch b s s := .of_flash rfl

theorem Worn.trans {x y z : State} (h : Worn ch b x y) (k : Worn ch b y z) : Worn ch b x z := Nat.le_trans h k

theorem Worn.foldl {α : Type} {f : State → α → State} {l : List α} (k : ∀ s, ∀ x ∈ l, Worn ch b s (f s x)) (s : State) :
    Worn ch b s (l.foldl f s) := by
  induction l generalizing s with
  | nil => exact .refl s
  | cons x l ih => exact (k s x List.mem_cons_self).trans (ih (fun s y hy => k s y (List.mem_cons_of_mem x hy)) _)

theorem Worn.of_within {s t : State} (h : Within (keeping [.tier]) s t) : Worn ch b s t :=
  .of_flash (flash_congr (congrArg TierSt.flash (h.keeps (p := .tier) (by simp))) ch)

/-- A channel put back wears its blocks where none of its own has fewer stale pages. -/
theorem Worn.setFlash {s : State} {n : Nat} {f : Flash} (h : ∀ m, ((s.flash n).block m).stale ≤ (f.block m).stale) :
    Worn ch b s (s.setFlash n f) := by
  by_cases same : ch = n
  · subst same
    rw [Worn, setFlash_flash_same]; exact h b
  · exact .of_flash (setFlash_flash_other s f same)

/-- A block put back with at least the stale pages that it had. -/
theorem putBlock_stale {f : Flash} {n : Nat} {x : FBlock} (h : (f.block n).stale ≤ x.stale) (m : Nat) :
    (f.block m).stale ≤ ((f.putBlock n x).block m).stale := by
  by_cases same : m = n
  · subst same; simpa using h
  · rw [putBlock_block_other _ _ same]

theorem stale_worn (s : State) (k : Chunk) : Worn ch b s (s.stale k) := by
  unfold State.stale
  dsimp only
  split
  · exact .refl s
  · exact .setFlash (f := (s.flash k.channel).putBlock k.block _) (putBlock_stale (Nat.le_succ _))

theorem placeChunk_worn (s : State) (k : Chunk) (reserve : Bool) : Worn ch b s (s.placeChunk k reserve) := by
  have put_ : Worn ch b s (s.setFlash k.channel { s.flash k.channel with
      blocks := if s.nextBlock k.channel reserve = noBlock then (s.flash k.channel).blocks
        else put (s.flash k.channel).blocks (s.nextBlock k.channel reserve)
          { (s.flash k.channel).block (s.nextBlock k.channel reserve) with isOpen := true } }) := by
    refine .setFlash fun m => ?_
    split
    · exact le_rfl
    · exact putBlock_stale (x := { (s.flash k.channel).block (s.nextBlock k.channel reserve) with isOpen := true }) le_rfl m
  exact put_.trans (.of_flash rfl)

theorem programChunk_worn (s : State) (k : Chunk) (reserve : Bool) : Worn ch b s (s.programChunk k reserve) := by
  obtain ⟨wctr, ctr, kgen, h⟩ := programChunk_eq s k reserve
  have listed : Worn ch b s (s.withoutChunk k) := .of_flash rfl
  have unlisted : Worn ch b (s.withoutChunk k) (s.unlisted k) := .foldl (fun s x _ => stale_worn s x) _
  have counted : Worn ch b (s.unlisted k) { s.unlisted k with tier := { (s.unlisted k).tier with wctr } } := .of_flash rfl
  rw [h]
  exact ((listed.trans unlisted).trans counted).trans (placeChunk_worn ..)

theorem fetchChunks_worn (s : State) (l : List Chunk) : Worn ch b s (s.fetchChunks l) :=
  .foldl (f := fun s (k : Chunk) => s.flashOps k.channel [0x00, 0x78, 0x06]) (fun _ _ _ => .of_flash rfl) _

theorem loseChunk_worn (s : State) (c : Nat) (k : Chunk) (tagOk : Bool) : Worn ch b s (s.loseChunk c k tagOk) := by
  obtain ⟨named, tier, moved⟩ := loseChunk_eq s c k tagOk
  have before : Worn ch b s named := .of_flash (flash_congr (by rw [tier]) ch)
  have listed : Worn ch b named (named.setChunk { k with bad := true }) := .of_flash rfl
  have marked : Worn ch b (named.setChunk { k with bad := true }) (named.chunkBad c k) := .setFlash fun _ => le_rfl
  exact ((before.trans listed).trans marked).trans (.of_flash (moved.flash ch))

theorem uncorrectable_worn (s : State) (c : Nat) (k : Chunk) : Worn ch b s (s.uncorrectable c k) := by
  cases h : s.rebuildable k with
  | true =>
    rw [uncorrectable_of_rebuildable h]
    exact (fetchChunks_worn ..).trans (programChunk_worn ..)
  | false =>
    rw [uncorrectable_of_lost h]
    exact loseChunk_worn ..

/-- A channel that fails: its searches end, each of its chunks is treated as uncorrectable, and an event says so. -/
theorem failChannel_of_works {s : State} {c : Nat} (works : (s.flash c).failed = false) : s.failChannel c =
    (((s.channelOff c).tier.chunks.filter fun k => k.channel == c).foldl (fun (s : State) k => s.uncorrectable c k)
      (s.channelOff c)).flashEvent c 1 [] := if_neg (by simp [works])

theorem flashEvent_worn (s : State) (c code : Nat) (detail : List Byte) : Worn ch b s (s.flashEvent c code detail) :=
  .of_within (by apply State.flashEvent_within (hs := .refl _ _) <;> rfl)

theorem searchesOff_tier (s : State) (c : Nat) : (s.searchesOff c).tier = s.tier :=
  Within.keeps (l := [.tier]) (p := .tier) (by apply State.searchesOff_within (hs := .refl _ _) <;> rfl) (by simp)

theorem channelOff_worn (s : State) (c : Nat) : Worn ch b s (s.channelOff c) :=
  .trans (.setFlash (n := c) (f := { s.flash c with failed := true }) fun _ => le_rfl)
    (.of_flash (flash_congr (congrArg TierSt.flash (searchesOff_tier ..)) ch))

theorem failChannel_worn (s : State) (c : Nat) : Worn ch b s (s.failChannel c) := by
  cases works : (s.flash c).failed with
  | true => rw [failChannel_of_failed works]; exact .refl s
  | false =>
    rw [failChannel_of_works works]
    exact ((channelOff_worn s c).trans (.foldl (fun s k _ => uncorrectable_worn s c k) _)).trans (flashEvent_worn ..)

theorem gaugeAll_worn (s : State) (c : Nat) : Worn ch b s (s.gaugeAll c) := by
  unfold State.gaugeAll
  have gauged : Worn ch b s (s.setFlash c ((s.flash c).gauged c)) := .setFlash fun _ => le_rfl
  split
  · exact .refl s
  rw [gauge_eq]
  split
  · exact gauged.trans (failChannel_worn ..)
  · exact gauged

/-- The end of a queue of blocks wears every block of the other channels. -/
theorem emptyQueue_worn {n : Nat} (ne : ch ≠ n) (s : State) : Worn ch b s (s.emptyQueue n) :=
  .trans (.of_flash (setFlash_flash_other s _ ne)) (gaugeAll_worn ..)

end

/-! ### A chunk that lies in two channels -/

theorem stale_failed (s : State) (k : Chunk) (n : Nat) : ((s.stale k).flash n).failed = (s.flash n).failed := by
  unfold State.stale
  dsimp only
  split
  · rfl
  · by_cases same : n = k.channel
    · subst same; rw [setFlash_flash_same]
    · rw [setFlash_flash_other _ _ same]

/-- The page of a written chunk of a channel that works becomes stale. -/
theorem stale_counts {s : State} {x : Chunk} (done : x.done = true) (works : (s.flash x.channel).failed = false) :
    0 < (((s.stale x).flash x.channel).block x.block).stale := by
  have h : s.stale x = s.setFlash x.channel ((s.flash x.channel).putBlock x.block
      { (s.flash x.channel).block x.block with live := ((s.flash x.channel).block x.block).live - 1
                                               stale := ((s.flash x.channel).block x.block).stale + 1 }) := if_neg (by simp [done, works])
  rw [h, setFlash_flash_same, putBlock_block_same]
  exact Nat.succ_pos _

theorem foldl_stale_counts {l : List Chunk} {x : Chunk} (mem : x ∈ l) (done : x.done = true) (s : State)
    (works : (s.flash x.channel).failed = false) :
    0 < (((l.foldl (fun (s : State) k => s.stale k) s).flash x.channel).block x.block).stale := by
  induction l generalizing s with
  | nil => cases mem
  | cons k l ih =>
    rcases List.mem_cons.1 mem with rfl | mem
    · exact (stale_counts done works).trans_le (Worn.foldl (fun s k _ => stale_worn s k) _)
    · exact ih mem _ (by rw [stale_failed]; exact works)

/-- A chunk that is programmed anew leaves the page of each of its earlier records stale. -/
theorem programChunk_counts {s : State} {k x : Chunk} {reserve : Bool} (mem : x ∈ s.tier.chunks) (extent : x.extent = k.extent)
    (chunk : x.chunk = k.chunk) (done : x.done = true) (works : (s.flash x.channel).failed = false) :
    0 < (((s.programChunk k reserve).flash x.channel).block x.block).stale := by
  obtain ⟨wctr, ctr, kgen, h⟩ := programChunk_eq s k reserve
  have old : x ∈ s.tier.chunks.filter fun y => y.extent == k.extent && y.chunk == k.chunk := by simp [mem, extent, chunk]
  have unlisted : 0 < (((s.unlisted k).flash x.channel).block x.block).stale := foldl_stale_counts old done (s.withoutChunk k) works
  have counted : Worn x.channel x.block (s.unlisted k) { s.unlisted k with tier := { (s.unlisted k).tier with wctr } } := .of_flash rfl
  rw [h]
  exact unlisted.trans_le (counted.trans (placeChunk_worn ..))

/-! ### A block map out of order (R239, R241, R519): the counterexample of O47 -/

/-- Chunk 128 of extent 0, the parity of its first stripe, as a record of channel `ch` and block 7. -/
def parityChunk (ch : Nat) : Chunk :=
  { extent := 0, chunk := 128, comp := 1, channel := ch, bad := false, rewrite := false, ctr := 0, block := 7, done := true, origin := false,
    job := 77, kgen := 0, used := 0 }

/-- As many retired blocks as channel 1 may have and go on working (R241). -/
def mostRetired : Nat := max 1 (spareBlocks 1) + max 1 (Config.flashBlocks 1) * 2 / 100

/-- A block found programmed or retired. -/
def foundBlock (retired : Bool) : FBlock := { erases := 0, live := 0, stale := 0, retired, isOpen := false }

/-- The retired blocks of channel 1, from 0 on. -/
def retiredBlocks : Assoc FBlock := (List.range mostRetired).map fun n => (n, foundBlock true)

/-- A node at READY with its background erasure at work. Channel 0 waits for the erasure of block 7; channel 1 waits for that of its retired block
0 and lists another block before it; the chunk map has two records of one chunk. -/
def outOfOrderBlocks : State :=
  { State.reset with
    boot := { State.reset.boot with ready := true, flashbg := true }
    tier := { State.reset.tier with
      chunks := [parityChunk 1, parityChunk 0]
      flash := [(0, { Flash.atReset with eraseq := [7] }),
                (1, { Flash.atReset with eraseq := [0], blocks := (mostRetired, foundBlock false) :: retiredBlocks })] } }

theorem retiredBlocks_length : (retiredBlocks.filter fun b => b.2.retired).length = mostRetired := by
  have all : retiredBlocks.filter (fun b => b.2.retired) = retiredBlocks := by
    refine List.filter_eq_self.2 fun b hb => ?_
    obtain ⟨n, -, rfl⟩ := List.mem_map.1 hb
    rfl
  rw [all, retiredBlocks, List.length_map, List.length_range]

theorem mostRetired_pos : 0 < mostRetired := by unfold mostRetired; omega

/-- Every channel of that node goes on working. -/
theorem outOfOrderBlocks_holds (n : Nat) : FlashHolds n (outOfOrderBlocks.flash n) := by
  refine .inr ?_
  by_cases one : n = 1
  · subst one
    have : (outOfOrderBlocks.flash 1).retired = mostRetired := by
      rw [← retiredBlocks_length]; rfl
    rw [this, ← spares_eq, mostRetired]
    omega
  · have : (outOfOrderBlocks.flash n).retired = 0 := by
      by_cases zero : n = 0
      · subst zero; rfl
      · simp [State.flash, outOfOrderBlocks, lookD, look, Ne.symm zero, Ne.symm one, Flash.retired, Flash.atReset]
    rw [this]; omega

/-- The wiped block 0 enters channel 1's map before the block that stands first, and its old record stays. -/
theorem outOfOrderBlocks_wiped : ∃ x : FBlock, (outOfOrderBlocks.flash 1).eraseq.foldl (fun m b =>
      let x := (outOfOrderBlocks.flash 1).block b
      put m b { x with erases := x.erases + 1, live := 0, stale := 0 }) (outOfOrderBlocks.flash 1).blocks =
    (0, x) :: (outOfOrderBlocks.flash 1).blocks ∧ x.retired = true := by
  obtain ⟨k, hk⟩ := Nat.exists_eq_add_of_lt mostRetired_pos
  have block0 : (outOfOrderBlocks.flash 1).block 0 = foundBlock true := by
    simp [State.flash, outOfOrderBlocks, Flash.block, lookD, look, retiredBlocks, hk, List.range_succ_eq_map]
  refine ⟨{ foundBlock true with erases := 1 }, ?_, rfl⟩
  change put ((mostRetired, foundBlock false) :: retiredBlocks) 0 { (outOfOrderBlocks.flash 1).block 0 with
    erases := ((outOfOrderBlocks.flash 1).block 0).erases + 1, live := 0, stale := 0 } = _
  rw [block0, put, if_pos mostRetired_pos]
  rfl

/-- The end of channel 1's queue leaves block 0 in its map twice, so that the channel fails. -/
theorem outOfOrderBlocks_fails {s : State} (flash1 : s.flash 1 = outOfOrderBlocks.flash 1) :
    ∃ u : State, s.emptyQueue 1 = u.failChannel 1 ∧ (u.flash 1).failed = false ∧ u.tier.chunks = s.tier.chunks ∧
      ∀ n, n ≠ 1 → u.flash n = s.flash n := by
  obtain ⟨x, wiped, retired⟩ := outOfOrderBlocks_wiped
  let f : Flash := { outOfOrderBlocks.flash 1 with eraseq := [], blocks := (0, x) :: (outOfOrderBlocks.flash 1).blocks }
  have many : f.retired = mostRetired + 1 := by
    rw [← retiredBlocks_length]
    simp [f, Flash.retired, retired, outOfOrderBlocks, State.flash, lookD, look, foundBlock]
  have tooMany : (mostRetired + 1 != 0 &&
      decide (max 1 (Config.flashBlocks 1) * 2 / 100 < mostRetired + 1 - max 1 (spareBlocks 1))) = true := by
    rw [Bool.and_eq_true, bne_iff_ne, decide_eq_true_iff, mostRetired]
    omega
  refine ⟨(s.setFlash 1 f).setFlash 1 (f.gauged 1), ?_, by rw [setFlash_flash_same]; rfl, rfl, fun n ne => ?_⟩
  · have queue : s.emptyQueue 1 = (s.setFlash 1 f).gaugeAll 1 := by
      unfold State.emptyQueue
      dsimp only
      rw [flash1, wiped]
    rw [queue, State.gaugeAll, setFlash_flash_same, if_neg (List.cons_ne_nil _ _), gauge_eq, setFlash_flash_same, many, if_pos tooMany]
  · rw [setFlash_flash_other _ _ ne, setFlash_flash_other _ _ ne]

/-- The failure of channel 1 programs the parity chunk anew, and its other record, in block 7 of channel 0, becomes stale. -/
theorem failChannel_parity {u : State} (works0 : (u.flash 0).failed = false) (works1 : (u.flash 1).failed = false) (chunks : u.tier.chunks = [parityChunk 1, parityChunk 0]) :
    0 < (((u.failChannel 1).flash 0).block 7).stale := by
  have off : (u.channelOff 1).tier = (u.setFlash 1 { u.flash 1 with failed := true }).tier := searchesOff_tier ..
  have listed : (u.channelOff 1).tier.chunks = [parityChunk 1, parityChunk 0] := by rw [off]; exact chunks
  have works : ((u.channelOff 1).flash 0).failed = false := by
    rw [flash_congr (congrArg TierSt.flash off), setFlash_flash_other _ _ (by decide)]
    exact works0
  have mates : (u.channelOff 1).stripeMates 0 128 = [] := by rw [State.stripeMates, listed]; rfl
  have whole : (u.channelOff 1).rebuildable (parityChunk 1) = true := by
    rw [State.rebuildable]
    simp [parityChunk, mates]
  rw [failChannel_of_works works1, listed]
  refine Nat.lt_of_lt_of_le ?_ (flashEvent_worn ..)
  change 0 < ((((u.channelOff 1).uncorrectable 1 (parityChunk 1)).flash 0).block 7).stale
  rw [uncorrectable_of_rebuildable whole]
  change 0 < (((((u.channelOff 1).fetchChunks ((u.channelOff 1).stripeMates 0 128)).rewriteChunk _).flash 0).block 7).stale
  rw [mates]
  exact programChunk_counts (x := parityChunk 0) (by rw [State.fetchChunks, List.foldl_nil, listed]; simp) rfl rfl rfl works

/-- The end of channel 0's queue leaves a node that works on, with the chunks and with every other channel as they were. -/
theorem emptyQueue_zero {s : State} (flash0 : s.flash 0 = outOfOrderBlocks.flash 0) : ∃ f : Flash, f.failed = false ∧
    ((s.emptyQueue 0).flash 0) = f ∧ (s.emptyQueue 0).tier.chunks = s.tier.chunks ∧
      ∀ n, n ≠ 0 → (s.emptyQueue 0).flash n = s.flash n := by
  let f : Flash := { outOfOrderBlocks.flash 0 with eraseq := [], blocks := [(7, { erases := 1, live := 0, stale := 0, retired := false, isOpen := false })] }
  have queue : s.emptyQueue 0 = (s.setFlash 0 f).setFlash 0 (f.gauged 0) := by
    have wiped : s.emptyQueue 0 = (s.setFlash 0 f).gaugeAll 0 := by
      unfold State.emptyQueue
      rw [flash0]
      rfl
    have sound : f.retired = 0 := rfl
    rw [wiped, State.gaugeAll, setFlash_flash_same, if_neg (List.cons_ne_nil _ _), gauge_eq, setFlash_flash_same, sound, if_neg (by simp)]
  rw [queue]
  exact ⟨_, rfl, setFlash_flash_same .., rfl, fun n ne => by rw [setFlash_flash_other _ _ ne, setFlash_flash_other _ _ ne]⟩

/-- The background erasure empties the queues one after another. -/
def State.emptyQueues (s : State) : State := (List.range 32).foldl (fun (s : State) n => s.emptyQueue n) s

/-- After the queues of channels 0 and 1, those of the others wear the blocks of channel 0. -/
theorem emptyQueues_worn {b : Nat} (s : State) : Worn 0 b ((s.emptyQueue 0).emptyQueue 1) s.emptyQueues := by
  have split : List.range 32 = 0 :: 1 :: (List.range 30).map (· + 2) := by decide
  rw [State.emptyQueues, split, List.foldl_cons, List.foldl_cons]
  refine Worn.foldl (f := fun (s : State) n => s.emptyQueue n) (fun s n hn => emptyQueue_worn ?_ s) _
  obtain ⟨m, -, rfl⟩ := List.mem_map.1 hn
  omega

theorem exec_flashBackgroundEraseDone {s v : State} (ready : s.ready = true) (erasing : s.boot.flashbg = true) {t : Nat}
    (h : exec (.flashBackgroundEraseDone t) s = .next v) : v.tier = (s.arrive t).emptyQueues.tier := by
  have going : ((s.arrive t).ready && (s.arrive t).boot.flashbg) = true := by rw [arrive_ready, ready, State.arrive_boot, erasing]; rfl
  change execFlashBackgroundEraseDone t s = .next v at h
  unfold execFlashBackgroundEraseDone at h
  dsimp only at h
  rw [if_pos going] at h
  unfold State.emptyQueues
  generalize List.foldl _ (s.arrive t) (List.range 32) = x at h ⊢
  cases h
  rfl

/-- Refutes O47: the last clause asks that the erased blocks of every queue hold no page, and the end of channel 1's queue, whose channel fails by
a block map out of order, leaves a stale page in the erased block 7 of channel 0. -/
theorem not_resetClearsAndBootRunsItsStages : ¬ Obligations.ResetClearsAndBootRunsItsStages := by
  unfold Obligations.ResetClearsAndBootRunsItsStages
  intro h
  obtain ⟨-, -, -, -, -, -, -, -, erase, -⟩ := h outOfOrderBlocks 0
  obtain ⟨v, ended, -, empty⟩ := erase rfl rfl fun n _ => outOfOrderBlocks_holds n
  obtain ⟨-, clean⟩ := empty 0 (by decide)
  have none := clean 7 (List.mem_singleton.2 rfl)
  obtain ⟨f, works, flash0, chunks, others⟩ := emptyQueue_zero (s := outOfOrderBlocks.arrive 0) rfl
  obtain ⟨u, fails, works1, chunks1, others1⟩ := outOfOrderBlocks_fails (others 1 (by decide))
  have works0 : (u.flash 0).failed = false := by rw [others1 0 (by decide), flash0]; exact works
  have worn := failChannel_parity works0 works1 (chunks1.trans chunks)
  rw [← fails] at worn
  have later := worn.trans_le (emptyQueues_worn (outOfOrderBlocks.arrive 0))
  rw [← flash_congr (congrArg TierSt.flash (exec_flashBackgroundEraseDone rfl rfl ended))] at later
  omega

end Sys2Proof.Machine

namespace Sys2Proof.Machine

/-! ### Virtual functions and their mailboxes (R475 to R482) -/

@[simp] theorem setVf_vf_same (s : State) (n : Nat) (f : Vf → Vf) : (s.setVf n f).vf n = f (s.vf n) := lookD_put_same ..

theorem setVf_vf_other (s : State) {n m : Nat} (f : Vf → Vf) (ne : m ≠ n) : (s.setVf n f).vf m = s.vf m := lookD_put_other _ _ _ _ _ ne

@[simp] theorem setMbx_vf_same (s : State) (n i : Nat) (f : Mbx → Mbx) :
    (s.setMbx n i f).vf n = { s.vf n with mbx := put (s.vf n).mbx i (f ((s.vf n).box i)) } := setVf_vf_same ..

@[simp] theorem box_put_same (v : Vf) (i : Nat) (b : Mbx) : Vf.box { v with mbx := put v.mbx i b } i = b := lookD_put_same ..

@[simp] theorem arrive_vf (s : State) (t n : Nat) : (s.arrive t).vf n = s.vf n := by simp [State.vf]

@[simp] theorem arrive_hostUp (s : State) (t : Nat) : (s.arrive t).hostUp = s.hostUp := by simp [State.hostUp, State.alive]

@[simp] theorem arrive_vfComp (s : State) (t n : Nat) : (s.arrive t).vfComp n = s.vfComp n := by simp [State.vfComp]

/-- A mailbox that is released is free, and every other one stands. -/
theorem box_drop (v : Vf) (i j : Nat) (latch : Assoc Mbx) :
    Vf.box { v with mbx := drop v.mbx i, latch } j = if j = i then Mbx.free else v.box j := by
  split
  next same => subst same; exact congrArg (·.getD Mbx.free) (look_drop_same ..)
  next ne => exact congrArg (·.getD Mbx.free) (look_drop_other _ _ _ ne)

/-- Nothing is fetched by a ring that is off, nor from one that is empty. -/
theorem pump_of_idle {s : State} {n : Nat} (idle : (s.vf n).en = false ∨ (s.vf n).head = (s.vf n).tail) : s.pump n = s := by
  rw [State.pump, if_pos (by rcases idle with h | h <;> simp [h])]

/-- A ring on which the next entry may be fetched. -/
structure Fetches (s : State) (n : Nat) : Prop where
  en : (s.vf n).en = true
  idle : (s.vf n).fetching = false
  waits : (s.vf n).head ≠ (s.vf n).tail
  ready : s.ready = true
  stage : s.pwr.stage < 6
  free : s.pwr.held = false
  on : s.pwr.off = false

/-- The sequence number after `x`, 0 left out (R479). -/
def nextSeq (x : BitVec 32) : BitVec 32 := if x + 1 = 0 then 1 else x + 1

/-- The ring fetches its next entry into the free mailbox at the head, and stalls where that one is not free. -/
theorem Fetches.pump_eq {s : State} {n : Nat} (h : Fetches s n) : s.pump n =
    if ((s.vf n).box (s.vf n).head).st != .free then s.setVf n fun v => { v with stall := true }
    else (s.setVf n fun v =>
        { v with stall := false, seq := nextSeq (s.vf n).seq, fetching := true, head := (v.head + 1) % 2 ^ v.lsize,
                 mbx := put v.mbx v.head { Mbx.free with st := .busy, seq := nextSeq (s.vf n).seq } }).emit
      (.hostRead n ((s.vf n).base.toNat + 32 * (s.vf n).head) 32) := by
  obtain ⟨en, idle, waits, ready, stage, free, on⟩ := h
  exact if_neg (by simp [en, idle, waits, ready, stage, free, on])

@[simp] theorem emit_vf (s : State) (o : Out) (n : Nat) : (s.emit o).vf n = s.vf n := rfl

@[simp] theorem count_vf (s : State) (index sub n : Nat) : (s.count index sub).vf n = s.vf n := by simp [State.vf]

@[simp] theorem countC_vf (s : State) (c index sub k n : Nat) : (s.countC c index sub k).vf n = s.vf n := by simp [State.vf]

/-- A BUSY mailbox becomes READY with its status, tag and flag word. -/
theorem mbxReady_vf {s : State} {n i : Nat} (busy : ((s.vf n).box i).st = .busy) (st : Status) (tag : BitVec 32) (flag : BitVec 64) (rbytes : Nat) :
    (s.mbxReady n i st tag flag rbytes).vf n =
      { s.vf n with
        mbx := put (s.vf n).mbx i { (s.vf n).box i with st := .ready, status := st, tag, flag, rbytes, consumed := false } } := by
  rw [State.mbxReady, if_neg (by simp [busy])]
  split
  · exact (emit_vf ..).trans (setMbx_vf_same ..)
  · exact setMbx_vf_same ..

theorem mbxReady_mem (s : State) (n i : Nat) (st : Status) (tag : BitVec 32) (flag : BitVec 64) (rbytes : Nat) :
    (s.mbxReady n i st tag flag rbytes).mem = s.mem :=
  Within.keeps (l := [.mem]) (p := .mem) (by apply State.mbxReady_within (hs := .refl _ _) <;> rfl) (by simp)

/-! ### Fetched submissions (R476 to R478, R484) -/

/-- The checks of a fetch look at the compositions and the page store alone. -/
theorem fetchCheck_congr {s x : State} (cmp : x.cmp = s.cmp) (pg : x.pg = s.pg) (n : Nat) (e : SubEntry) (b : ReqBody) :
    x.fetchCheck n e b = s.fetchCheck n e b := by
  have shut : x.sealedHost = s.sealedHost := by funext c; simp [State.sealedHost, State.comp?, cmp]
  have job : x.jobOf = s.jobOf := by funext c; simp [State.jobOf, State.comp?, cmp]
  have strm : x.strm? = s.strm? := by funext j c n; simp [State.strm?, State.ctx?, pg]
  have sec : x.largestSec = s.largestSec := by funext j r q; simp only [State.largestSec, strm]
  have largest : x.largest = s.largest := by funext j r; cases r <;> simp [State.largest, sec]
  simp only [State.fetchCheck, State.vfComp, cmp, shut, job, largest]

/-- The mailbox of the entry that is being fetched. -/
def Vf.slot (v : Vf) : Nat := (v.head + 2 ^ v.lsize - 1) % 2 ^ v.lsize

/-- A virtual function whose fetch has ended: the mailbox of its entry takes what the entry says of the interrupt and of the result region. -/
def Vf.fetched (v : Vf) (irq : Bool) (res : Nat) : Vf :=
  { v with fetching := false, mbx := put v.mbx v.slot { v.box v.slot with irq, res } }

/-- State `x` differs from `s` in the function `n`, which is `f`, and in what is counted. -/
structure FetchEnded (s x : State) (n : Nat) (f : Vf) : Prop where
  vf : x.vf n = f
  timer : x.timer = s.timer
  cmp : x.cmp = s.cmp
  pg : x.pg = s.pg
  rq : x.rq = s.rq
  pwr : x.pwr = s.pwr
  sec : x.sec = s.sec
  boot : x.boot = s.boot
  mem : x.mem = s.mem

theorem fetchEnded_setMbx (s : State) (n : Nat) (irq : Bool) (res : Nat) : FetchEnded s
    ((s.setVf n fun v => { v with fetching := false }).setMbx n (s.vf n).slot fun x => { x with irq, res }) n ((s.vf n).fetched irq res) where
  vf := by rw [setMbx_vf_same, setVf_vf_same]; rfl
  timer := rfl
  cmp := rfl
  pg := rfl
  rq := rfl
  pwr := rfl
  sec := rfl
  boot := rfl
  mem := rfl

theorem FetchEnded.count {s x : State} {n : Nat} {f : Vf} (h : FetchEnded s x n f) (index sub : Nat) : FetchEnded s (x.count index sub) n f :=
  { h with }

theorem FetchEnded.countC {s x : State} {n : Nat} {f : Vf} (h : FetchEnded s x n f) (c index sub k : Nat) :
    FetchEnded s (x.countC c index sub k) n f := { h with }

/-- An entry that could be read does not fail its checks with INTEGRITY. -/
theorem fetchCheck_of_read {s : State} {n : Nat} {e : SubEntry} {b : ReqBody} (readOk : e.readOk = true) :
    s.fetchCheck n e b ≠ some .integrity := by
  unfold State.fetchCheck
  dsimp only
  split
  · simp
  · simp only [readOk, Bool.not_true, Bool.false_eq_true, if_false]
    split_ifs <;> simp

/-- A fetch that could not be made good leaves the mailbox of its entry READY with the status. -/
theorem fetchEnd_vf {s : State} {n i : Nat} (busy : ((s.vf n).box i).st = .busy) (st : Status) (env : Option Envelope) :
    ∃ tag flag, (∀ v, env = some v → tag = v.tag) ∧ (s.fetchEnd n i st env).vf n =
      { s.vf n with
        mbx := put (s.vf n).mbx i { (s.vf n).box i with st := .ready, status := st, tag, flag, rbytes := 0, consumed := false } } := by
  cases env with
  | some env => exact ⟨_, _, fun _ h => by cases h; rfl, mbxReady_vf busy ..⟩
  | none => exact ⟨_, _, nofun, mbxReady_vf (s := s.draw.2) busy ..⟩

theorem fetchEnd_mem (s : State) (n i : Nat) (st : Status) (env : Option Envelope) : (s.fetchEnd n i st env).mem = s.mem :=
  Within.keeps (l := [.mem]) (p := .mem) (by apply State.fetchEnd_within (hs := .refl _ _) <;> rfl) (by simp)

/-- A failed fetch read sets ERR of its function. -/
theorem fetchFailed_vf (s : State) (n : Nat) : (s.fetchFailed n).vf n = { s.vf n with err := true } := by
  unfold State.fetchFailed
  dsimp only
  split
  · rw [countC_vf, setVf_vf_same]
  · rw [count_vf, setVf_vf_same]

theorem fetchFailed_mem (s : State) (n : Nat) : (s.fetchFailed n).mem = s.mem :=
  Within.keeps (l := [.mem]) (p := .mem) (by apply State.fetchFailed_within (hs := .refl _ _) <;> rfl) (by simp)

section
variable {s : State} {t n : Nat} (ready : s.ready = true) (fetching : (s.vf n).fetching = true)
include ready fetching

/-- A fetch that ends meets its entry's mailbox; a failing check ends it there, and what passes goes to its request's path. -/
theorem exec_submissionFetch (e : SubEntry) (b : ReqBody) : ∃ x, FetchEnded (s.arrive t) x n ((s.vf n).fetched e.irq e.res) ∧
    (∀ st, e.readOk = true → (s.arrive t).fetchCheck n e b = some st →
      exec (.submissionFetch t n e b) s = .next ((x.fetchEnd n (s.vf n).slot st (some (bodyEnv b))).pump n)) ∧
    ((s.arrive t).fetchCheck n e b = none →
      exec (.submissionFetch t n e b) s = .next ((x.submit (.doorbell n (s.vf n).slot) b).pump n)) := by
  change ∃ x, _ ∧ (∀ st, _ → _ → execSubmissionFetch t n e b s = _) ∧ (_ → execSubmissionFetch t n e b s = _)
  have start := fetchEnded_setMbx (s.arrive t) n e.irq e.res
  rw [arrive_vf] at start
  unfold execSubmissionFetch
  extract_lets u v slot w x y
  have same : slot = (s.vf n).slot := by simp [slot, v, u, Vf.slot]
  have goes : ¬((!u.ready) = true ∨ (!v.fetching) = true) := by simp [u, v, ready, fetching]
  have ended : FetchEnded u x n ((s.vf n).fetched e.irq e.res) := by
    have read : FetchEnded u w n ((s.vf n).fetched e.irq e.res) := by unfold w; rw [same]; exact start
    unfold x
    split
    · exact read
    · split
      · exact read.countC ..
      · exact read.count ..
  refine ⟨x, ended, fun st readOk fails => ?_, fun passes => ?_⟩
  · have ne := fetchCheck_of_read (s := x) (n := n) (b := b) readOk
    have y_eq : y = x.fetchEnd n slot st (some (bodyEnv b)) := by
      unfold y
      rw [← fetchCheck_congr ended.cmp ended.pg] at fails
      split
      next h => exact absurd h ne
      next h => rw [fails] at h; cases h; rw [if_pos readOk]
      next h => rw [fails] at h; cases h
    rw [if_neg goes, y_eq, same]
  · have y_eq : y = x.submit (.doorbell n slot) b := by
      unfold y
      rw [fetchCheck_congr ended.cmp ended.pg, passes]
    rw [if_neg goes, y_eq, same]

/-- A fetch that times out ends at its checks: with INTEGRITY and ERR, or with ACCESS_DENIED where the host is shut out. -/
theorem exec_fetchTimeout (e : Option SubEntry) : ∃ x irq res, FetchEnded (s.arrive t) x n ((s.vf n).fetched irq res) ∧
    exec (.fetchTimeout t n e) s = .next ((if (s.vfComp n).elim true s.sealedHost then x.fetchEnd n (s.vf n).slot .accessDenied none
      else (x.fetchFailed n).fetchEnd n (s.vf n).slot .integrity none).pump n) := by
  change ∃ x irq res, _ ∧ execFetchTimeout t n e s = _
  have start := fetchEnded_setMbx (s.arrive t) n (e.elim false (·.irq)) (e.elim 0 (·.res))
  rw [arrive_vf] at start
  unfold execFetchTimeout
  extract_lets u v slot w shut x
  have same : slot = (s.vf n).slot := by simp [slot, v, u, Vf.slot]
  have goes : ¬((!u.ready) = true ∨ (!v.fetching) = true) := by simp [u, v, ready, fetching]
  have ended : FetchEnded u w n ((s.vf n).fetched (e.elim false (·.irq)) (e.elim 0 (·.res))) := by unfold w; rw [same]; exact start
  have cmp : w.cmp = s.cmp := ended.cmp.trans (State.arrive_cmp ..)
  have comps : w.vfComp n = s.vfComp n := by simp [State.vfComp, cmp]
  have seals : w.sealedHost = s.sealedHost := by funext c; simp [State.sealedHost, State.comp?, cmp]
  have shuts : shut = (s.vfComp n).elim true s.sealedHost := by
    unfold shut
    rw [comps, seals]
    cases s.vfComp n <;> rfl
  exact ⟨w, _, _, ended, by rw [if_neg goes, ← shuts, ← same]⟩

end

/-- The mailbox of a fetched entry is BUSY where that one was. -/
theorem fetched_box (v : Vf) (irq : Bool) (res : Nat) : (v.fetched irq res).box v.slot = { v.box v.slot with irq, res } := box_put_same ..

/-- A request for attention waits at intake while admission is stopped (R456; log entry 113). -/
theorem submit_attend_of_noAdmission {s : State} (ready : s.ready = true) (shut : s.noAdmission = true) (src : Source) (r : AttendReq) :
    s.submit src (.attend r) = (s.arrive s.timer).hold (.attendRequest s.timer src r) := by
  have admission : (s.arrive s.timer).noAdmission = true := by simpa [State.noAdmission] using shut
  change (if !(s.arrive s.timer).ready then s.arrive s.timer else _) = _
  rw [if_neg (by simp [ready]), if_pos admission]

/-- A read of W0 latches the mailbox, and marks a READY one as consumed (R480). -/
theorem readBox_vf (s : State) (n i : Nat) : ((s.readBox n i).vf n).latched i = (s.vf n).box i ∧ ((s.readBox n i).vf n).box i =
    if ((s.vf n).box i).st = .ready then { (s.vf n).box i with consumed := true } else (s.vf n).box i := by
  unfold State.readBox
  dsimp only
  split
  · rw [setMbx_vf_same, setVf_vf_same]
    exact ⟨lookD_put_same .., box_put_same ..⟩
  · rw [setVf_vf_same]
    exact ⟨lookD_put_same .., rfl⟩

theorem exec_mailboxRead {s : State} (up : s.hostUp = true) {n : Nat} (lo : 1 ≤ n) (hi : n ≤ 16) {i : Nat} (small : i < 256) (t : Nat) :
    exec (.mailboxRead t n i true) s = .next (((s.arrive t).readBox n i).emit (.mbxRead n i (w64 ((s.vf n).box i).word0)
      (w64 (((s.vf n).box i).word 1)) (w64 (((s.vf n).box i).word 2)) (w64 (((s.vf n).box i).word 3)))) := by
  change execMailboxRead t n i true s = _
  unfold execMailboxRead
  dsimp only
  rw [if_neg (by simp [up]; omega), if_pos rfl, if_pos rfl, (readBox_vf ..).1, arrive_vf]

/-- A doorbell at a ready node rings the ring. -/
theorem exec_doorbell {s : State} (ready : s.ready = true) (up : s.hostUp = true) (t n tail : Nat) :
    exec (.doorbell t n tail) s = .next (((s.arrive t).setVf n fun v => { v with tail := tail % 256 % 2 ^ v.lsize }).pump n) :=
  congrArg Host.Outcome.next (if_pos (by simp [ready, up]))

/-- Settles O52, command by command, from what a ring does with its next entry and a mailbox with a result. -/
theorem submissionRingsAndMailboxes : Obligations.SubmissionRingsAndMailboxes := by
  unfold Obligations.SubmissionRingsAndMailboxes
  intro s t n u x ready up lo hi
  have vf : u.vf n = x := arrive_vf ..
  refine ⟨fun tail => ?doorbell, fun fetching en empty => ?fetched, fun i small => ?read, fun w => ?release⟩
  case doorbell =>
    have rung := exec_doorbell ready up t n tail
    refine ⟨fun off => ?off, fun en idle waits stage held on => ⟨fun free => ?free, fun taken => ?taken⟩⟩
    case off =>
      rw [pump_of_idle (.inl (by rw [setVf_vf_same, vf]; exact off))] at rung
      exact .of_exec rung ⟨by rw [setVf_vf_same, vf], by simp⟩
    all_goals
      have fetches : Fetches (u.setVf n fun v => { v with tail := tail % 256 % 2 ^ v.lsize }) n :=
        ⟨by rw [setVf_vf_same, vf]; exact en, by rw [setVf_vf_same, vf]; exact idle, by rw [setVf_vf_same, vf]; exact waits,
          (arrive_ready s t).trans ready, by simpa [u] using stage, by simpa [u] using held, by simpa [u] using on⟩
      rw [fetches.pump_eq, setVf_vf_same, vf] at rung
    case free =>
      rw [if_neg (by rw [bne_iff_ne, ne_eq, not_not]; exact free)] at rung
      have seq : nextSeq x.seq ≠ 0 := by unfold nextSeq; split <;> simp_all
      refine .of_exec rung ?_
      rw [emit_vf, setVf_vf_same, setVf_vf_same, vf]
      exact ⟨rfl, rfl, rfl, rfl, seq, box_put_same .., by simp [u, State.emit]⟩
    case taken =>
      rw [if_pos (by rw [bne_iff_ne]; exact taken)] at rung
      exact .of_exec rung ⟨by rw [setVf_vf_same, setVf_vf_same, vf], by simp [u]⟩
  case fetched =>
    intro slot
    have slot_eq : slot = (s.vf n).slot := rfl
    clear_value slot
    subst slot
    intro busy
    have still (irq : Bool) (res : Nat) : ((x.fetched irq res).box x.slot).st = .busy := by rw [fetched_box]; exact busy
    refine ⟨fun e b st readOk fails => ?refused, fun e r passes shut => ?held, fun e => ?timeout⟩
    case refused =>
      obtain ⟨y, ended, ends, -⟩ := exec_submissionFetch ready fetching (t := t) e b
      have run := ends st readOk fails
      obtain ⟨tag, flag, tagged, yvf⟩ := fetchEnd_vf (s := y) (i := x.slot) (by rw [ended.vf]; exact still ..) st (some (bodyEnv b))
      rw [ended.vf] at yvf
      rw [pump_of_idle (.inr (by rw [yvf]; exact empty))] at run
      refine .of_exec run ?_
      rw [yvf, box_put_same]
      refine ⟨rfl, rfl, rfl, tagged _ rfl, by rw [fetched_box], ?_⟩
      rw [fetchEnd_mem, ended.mem]
      simp
    case held =>
      obtain ⟨y, ended, -, goes⟩ := exec_submissionFetch ready fetching (t := t) e (.attend r)
      have run := goes passes
      have yready : y.ready = true := by rw [State.ready, ended.boot, ended.pwr]; exact (arrive_ready s t).trans ready
      have yshut : y.noAdmission = true := by
        rw [State.noAdmission, ended.pwr, ended.sec]
        simpa [State.noAdmission] using shut
      rw [submit_attend_of_noAdmission yready yshut,
        pump_of_idle (.inr (by rw [State.hold, arrive_eq]; exact (congrArg (fun v : Vf => v.head = v.tail) ended.vf).mpr empty))] at run
      refine .of_exec run ?_
      have kept : ((y.arrive y.timer).hold (.attendRequest y.timer (.doorbell n x.slot) r)).vf n = x.fetched e.irq e.res :=
        (arrive_vf ..).trans ended.vf
      rw [kept, fetched_box]
      exact ⟨rfl, busy, rfl, by simp [State.hold, ended.rq, ended.timer, u]⟩
    case timeout =>
      obtain ⟨y, irq, res, ended, run⟩ := exec_fetchTimeout ready fetching (t := t) e
      dsimp only
      cases shut : (s.vfComp n).elim true s.sealedHost with
      | true =>
        rw [shut, if_pos rfl] at run
        obtain ⟨tag, flag, -, yvf⟩ := fetchEnd_vf (s := y) (i := x.slot) (by rw [ended.vf]; exact still ..) .accessDenied none
        rw [ended.vf] at yvf
        rw [pump_of_idle (.inr (by rw [yvf]; exact empty))] at run
        refine .of_exec run ?_
        rw [yvf, box_put_same]
        exact ⟨rfl, rfl, rfl, by simp [Vf.fetched, x], by rw [fetchEnd_mem, ended.mem]; simp⟩
      | false =>
        rw [shut, if_neg Bool.false_ne_true] at run
        obtain ⟨tag, flag, -, yvf⟩ := fetchEnd_vf (s := y.fetchFailed n) (i := x.slot) (by rw [fetchFailed_vf, ended.vf]; exact still ..)
          .integrity none
        rw [fetchFailed_vf, ended.vf] at yvf
        rw [pump_of_idle (.inr (by rw [yvf]; exact empty))] at run
        refine .of_exec run ?_
        rw [yvf, box_put_same]
        exact ⟨rfl, rfl, rfl, by simp, by rw [fetchEnd_mem, fetchFailed_mem, ended.mem]; simp⟩
  case read =>
    obtain ⟨latched, box⟩ := readBox_vf u n i
    rw [vf] at latched box
    have run := exec_mailboxRead up lo hi small t
    exact .of_exec run ⟨latched, box, rfl, exec_keeps run .mem (by simp [touches])⟩
  case release =>
    intro i b
    have run : exec (.mailboxRelease t n w) s = .next (u.releaseBox n w.toNat) := congrArg Host.Outcome.next (if_pos (by simp [ready, up]))
    unfold State.releaseBox at run
    dsimp only at run
    rw [vf] at run
    refine ⟨fun done seq empty => ?_, fun other => ?_⟩
    · rw [if_pos ⟨done, seq⟩, pump_of_idle (.inr (by rw [setVf_vf_same, vf]; exact empty))] at run
      refine .of_exec run ?_
      rw [setVf_vf_same, vf]
      exact ⟨(box_drop ..).trans (if_pos rfl), fun j ne => (box_drop ..).trans (if_neg ne), by simp [u]⟩
    · rw [if_neg (by rintro ⟨done, seq⟩; exact other.elim (· done) (· seq))] at run
      refine .of_exec run ?_
      split <;> simp [u]

end Sys2Proof.Machine

namespace Sys2Proof.Machine

/-! ### The HBM aperture (R472) -/

@[simp] theorem arrive_apertureOpen (s : State) (t fn npa len : Nat) : (s.arrive t).apertureOpen fn npa len = s.apertureOpen fn npa len := by
  rw [arrive_eq]; rfl

@[simp] theorem arrive_inCompute (s : State) (t npa len : Nat) : (s.arrive t).inCompute npa len = s.inCompute npa len := by
  rw [arrive_eq]; rfl

section
variable {s : State} (up : s.hostUp = true) {npa : Nat} (hbm : npa < regBase)
include up hbm

theorem exec_hostApertureRead (t : Nat) (fn : Fn) (len : Nat) (errs : List (List Nat)) :
    exec (.hostApertureRead t fn npa len errs) s = .next ((s.arrive t).apertureGet fn npa len errs) :=
  (if_neg (by simp [up])).trans (if_pos hbm)

theorem exec_hostApertureWrite (t : Nat) (fn : Fn) (data : List Byte) :
    exec (.hostApertureWrite t fn npa data) s = .next ((s.arrive t).aperturePut fn npa data) :=
  (if_neg (by simp [up])).trans (if_pos hbm)

end

section
variable {s : State} {fn npa len : Nat} {data : List Byte} {errs : List (List Nat)}

theorem apertureGet_of_shut (shut : s.apertureOpen fn npa len = false) :
    s.apertureGet fn npa len errs = (s.count 0x1101 2).emit (.unsupportedRequest fn npa) := if_pos (by rw [shut]; rfl)

theorem apertureGet_of_held (isOpen : s.apertureOpen fn npa len = true) (held : s.inCompute npa len = true) :
    s.apertureGet fn npa len errs =
      { s.count 0x3010 3 with hbm := { s.hbm with hostHeld := s.hbm.hostHeld ++ [{ fn, npa, len, wr := none, errs }] } } :=
  (if_neg (by rw [isOpen]; simp)).trans (if_pos held)

theorem apertureGet_of_open (isOpen : s.apertureOpen fn npa len = true) (free : s.inCompute npa len = false) :
    s.apertureGet fn npa len [] = s.emit (.apertureRead fn npa (some (s.load npa len)) false) :=
  (if_neg (by rw [isOpen]; simp)).trans (if_neg (by rw [free]; simp))

theorem aperturePut_of_shut (shut : s.apertureOpen fn npa data.length = false) : s.aperturePut fn npa data = s.count 0x1101 2 :=
  if_pos (by rw [shut]; rfl)

theorem aperturePut_of_held (isOpen : s.apertureOpen fn npa data.length = true) (held : s.inCompute npa data.length = true) :
    s.aperturePut fn npa data = { s.count 0x3010 3 with
      hbm := { s.hbm with hostHeld := s.hbm.hostHeld ++ [{ fn, npa, len := data.length, wr := some data, errs := [] }] } } :=
  (if_neg (by rw [isOpen]; simp)).trans (if_pos held)

theorem aperturePut_of_open (isOpen : s.apertureOpen fn npa data.length = true) (free : s.inCompute npa data.length = false) :
    s.aperturePut fn npa data = s.store npa data :=
  (if_neg (by rw [isOpen]; simp)).trans (if_neg (by rw [free]; simp))

end

/-! ### Register writes in whole and in halves (R470, R490) -/

theorem exec_registerWrite {s : State} (up : s.hostUp = true) {off width : Nat} {fn : Fn} (bytes : width % 8 = 0) (within : inRegs fn (regBase + off) = true)
    (t : Nat) (w : BitVec 64) :
    exec (.registerWrite t fn off width w) s = .next ((s.arrive t).writeReg fn off (width / 8) w.toNat) :=
  congrArg Host.Outcome.next (if_pos ⟨by rw [arrive_hostUp, up], bytes, within⟩)

/-- The base of a ring lies in the first slot of its function. -/
theorem blockOf_ringBase {n : Nat} (vf : 1 ≤ n) : blockOf n 0 = (.hif, 0) := (if_neg (by omega)).trans (if_pos (by omega))

/-- Nothing is held for a slot after what was held for it is forgotten. -/
theorem heldFor_unhold (l : List (Nat × Nat × BitVec 32)) (fn off : Nat) : heldFor (unhold l fn off) fn off = none := by
  rw [heldFor, unhold, List.find?_eq_none.2 fun x hx => ?_]
  · rfl
  · simpa [imp_iff_not_or] using (List.mem_filter.1 hx).2

section
variable {s : State} {n : Nat} (vf : 1 ≤ n)
include vf

/-- A write of the base's slot. -/
theorem writeSlot_base (ready : s.boot.ready = true) (v : Nat) : s.writeSlot n .hif 0 v = s.setVf n fun x => if x.en then x else { x with base := w64 (v / 64 * 64) } := by
  rw [State.writeSlot, if_neg (by simp [ready])]
  exact if_neg (by omega)

theorem writeReg_base (v : Nat) : s.writeReg n 0 8 v = s.writeSlot n .hif 0 (v % 2 ^ 64) := by
  simp [State.writeReg, State.writeBytes, blockOf_ringBase vf, show n ≠ 0 by omega]

theorem writeReg_base_lower (v : Nat) : s.writeReg n 0 4 v =
    { s with hif := { s.hif with lowHeld := (n, 0, BitVec.ofNat 32 v) :: unhold s.hif.lowHeld n 0 } } := by
  simp [State.writeReg, State.writeBytes, blockOf_ringBase vf, show n ≠ 0 by omega, wideSlot]

theorem writeReg_base_upper {lo : BitVec 32} (held : heldFor s.hif.lowHeld n 0 = some lo) (v : Nat) : s.writeReg n 4 4 v =
    ({ s with hif := { s.hif with lowHeld := unhold s.hif.lowHeld n 0 } } : State).writeSlot n .hif 0 (v % 2 ^ 32 * 2 ^ 32 + lo.toNat) := by
  have block : blockOf n 4 = (.hif, 4) := (if_neg (by omega)).trans (if_pos (by omega))
  simp [State.writeReg, State.writeBytes, blockOf_ringBase vf, block, show n ≠ 0 by omega, wideSlot, held]

end

/-! ### Resets of functions (R467) -/

theorem flr_vf_same (s : State) (n : Nat) : (s.flr n).vf n = { Vf.off with seq := (s.vf n).seq } := setVf_vf_same ..

theorem flr_vf_other (s : State) {n m : Nat} (ne : m ≠ n) : (s.flr n).vf m = s.vf m := setVf_vf_other _ _ ne

/-- A reset keeps memory and the Phase. -/
theorem hifReset_kept (s : State) : s.hifReset.mem = s.mem ∧ s.hifReset.phs = s.phs := by
  have kept : Within (keeping [.mem, .phs]) s s.hifReset := by apply State.hifReset_within (hs := .refl _ _) <;> rfl
  exact ⟨kept.keeps (p := .mem) (by simp), kept.keeps (p := .phs) (by simp)⟩

/-- The functions below `k` have been reset, and the others stand. -/
theorem foldl_flr_vf (s : State) (k m : Nat) : ((List.range k).foldl (fun (s : State) n => s.flr (n + 1)) s).vf m =
    if 1 ≤ m ∧ m ≤ k then { Vf.off with seq := (s.vf m).seq } else s.vf m := by
  induction k with
  | zero => rw [if_neg (by omega)]; rfl
  | succ k ih =>
    rw [List.range_succ, List.foldl_append, List.foldl_cons, List.foldl_nil]
    by_cases last : m = k + 1
    · subst last
      rw [flr_vf_same, ih, if_neg (by omega), if_pos (by omega)]
    · rw [flr_vf_other _ last, ih]
      exact if_congr (by omega) rfl rfl

theorem hifReset_vf (s : State) {n : Nat} (lo : 1 ≤ n) (hi : n ≤ 16) : s.hifReset.vf n = { Vf.off with seq := (s.vf n).seq } := by
  have reset := (foldl_flr_vf s 16 n).trans (if_pos ⟨lo, hi⟩)
  unfold State.hifReset
  generalize (List.range 16).foldl (fun (s : State) n => s.flr (n + 1)) s = x at reset ⊢
  exact reset

/-- Settles O53, access by access: the aperture, the two ways of a register write, and the resets of the functions. -/
theorem apertureRegistersAndFunctionResets : Obligations.ApertureRegistersAndFunctionResets := by
  unfold Obligations.ApertureRegistersAndFunctionResets
  intro s t up
  refine ⟨fun fn npa len hbm => ?read, fun fn npa data hbm => ?write, fun n w ready lo hi off => ?base, fun w ready clear => ?markerr,
    fun n lo hi => ?flr, ?hot⟩
  case read =>
    have run := exec_hostApertureRead up hbm t fn len
    refine ⟨fun isOpen free => ?_, fun errs isOpen held => ?_, fun errs shut => ?_⟩
    · refine .of_exec ((run []).trans (congrArg _ (apertureGet_of_open (by simpa using isOpen) (by simpa using free)))) ?_
      simp [State.emit, State.load]
    · refine .of_exec ((run errs).trans (congrArg _ (apertureGet_of_held (by simpa using isOpen) (by simpa using held)))) ?_
      simp
    · refine .of_exec ((run errs).trans (congrArg _ (apertureGet_of_shut (by simpa using shut)))) ?_
      simp [State.emit]
  case write =>
    have run := exec_hostApertureWrite up hbm t fn data
    refine ⟨fun isOpen free => ?_, fun isOpen held => ?_, fun shut => ?_⟩
    · refine .of_exec (run.trans (congrArg _ (aperturePut_of_open (by simpa using isOpen) (by simpa using free)))) ?_
      refine ⟨by simp [State.store], by simp [State.store], by simp [State.store], fun a beyond => ?_⟩
      rw [State.store]
      exact (Memory.read_writes_other _ _ _ beyond).trans (by rw [State.arrive_mem])
    · refine .of_exec (run.trans (congrArg _ (aperturePut_of_held (by simpa using isOpen) (by simpa using held)))) ?_
      simp
    · refine .of_exec (run.trans (congrArg _ (aperturePut_of_shut (by simpa using shut)))) ?_
      simp
  case base =>
    have running : (s.arrive t).boot.ready = true := by rw [State.arrive_boot, ready]
    have within (off : Nat) (small : off < 8) : inRegs n (regBase + off) = true := by simp [inRegs]; split <;> omega
    refine ⟨?whole, ?lower, fun low held => ?upper⟩
    case whole =>
      have run := exec_registerWrite up (width := 64) rfl (within 0 (by omega)) t w
      rw [writeReg_base lo, writeSlot_base lo running] at run
      refine .of_exec run ⟨?_, by simp⟩
      rw [setVf_vf_same, arrive_vf, if_neg (by rw [off]; exact Bool.false_ne_true), Nat.mod_eq_of_lt w.isLt]
    case lower =>
      have run := exec_registerWrite up (width := 32) rfl (within 0 (by omega)) t w
      rw [writeReg_base_lower lo] at run
      exact .of_exec run ⟨by simp, List.mem_cons_self⟩
    case upper =>
      have run := exec_registerWrite up (width := 32) rfl (within 4 (by omega)) t w
      rw [writeReg_base_upper lo (lo := low) (by rw [State.arrive_hif, held]), writeSlot_base lo (by exact running)] at run
      refine .of_exec run ⟨heldFor_unhold .., ?_⟩
      have same : (s.arrive t).vf n = s.vf n := arrive_vf ..
      rw [setVf_vf_same]
      exact congrArg Vf.base (if_neg (by change ¬((s.arrive t).vf n).en = true; rw [same, off]; exact Bool.false_ne_true))
  case markerr =>
    have run := exec_registerWrite up (fn := 0) (off := 0) (width := 32) rfl (by decide) t w
    have bit : bitAt (w.toNat % 4294967296) 11 = true := by
      rw [← clear, bitAt, bitAt]
      congr 1
      omega
    have cleared : (s.arrive t).writeReg 0 0 4 w.toNat =
        { s.arrive t with hif := { (s.arrive t).hif with markerr := false } } := by
      simp [State.writeReg, State.writeBytes, blockOf, wideSlot, State.writeSlot, ready, State.writeHif, bit]
    rw [show 32 / 8 = 4 from rfl, cleared] at run
    exact .of_exec run ⟨by simp, by simp⟩
  case flr =>
    have run : exec (.vfFlr t n) s = .next ((s.arrive t).flr n) := congrArg Host.Outcome.next (if_pos ⟨by rw [arrive_hostUp, up], lo, hi⟩)
    refine .of_exec run ⟨by rw [flr_vf_same, arrive_vf], fun m ne => by rw [flr_vf_other _ ne, arrive_vf], ?_, ?_⟩
    · exact exec_keeps run .mem (by simp [touches])
    · exact exec_keeps run .phs (by simp [touches])
  case hot =>
    have live : (s.arrive t).alive = true := by
      rw [State.hostUp, Bool.and_eq_true] at up
      simpa [State.alive] using up.1
    have run : exec (.hotReset t) s = .next (s.arrive t).hifReset := congrArg Host.Outcome.next (if_pos live)
    obtain ⟨mem, phs⟩ := hifReset_kept (s.arrive t)
    exact .of_exec run ⟨fun n lo hi => by rw [hifReset_vf _ lo hi, arrive_vf], rfl, rfl, by rw [mem, State.arrive_mem],
      by rw [phs, State.arrive_phs]⟩

end Sys2Proof.Machine

namespace Sys2Proof.Machine

/-! ### A start of a job that activates a commit (R33, R357, R505, R510): the counterexample of O51 -/

/-- The last answered sequence number of composition 0 over its DOE mailbox. -/
def oldSeq : LastSeq := { who := 3, tr := 0, seq := 0, st := .ok, items := [] }

/-- A node at READY that is the whole job and takes its Phase from itself; a commit that creates composition 0 waits for step 0, and the Directory
still keeps the last sequence number of an earlier composition 0. -/
def createsOnStart : State :=
  { State.reset with
    boot := { State.reset.boot with ready := true }
    phs := { State.reset.phs with src := 2 }
    cmp := { State.reset.cmp with pending := true, staged := [(0, { CompDesc.empty with exst := true })] }
    pd := { State.reset.pd with vals := [(0x7003, 1, [1]), (0x7004, 0, [1]), (0x7004, 1, [1])], seqs := [oldSeq] } }

/-- The operator's message that writes the start record of job 77. -/
def startMessage : PdMsg :=
  { ver := 1, dir := 1, nitem := 1, authf := false, seq := 1, kgen := 0, bytes := 40, plenOk := true, authOk := false, src := 0
    items := [{ index := 0x7005, sub := 0, iop := 2, seg := false, last := false, offset := 0, len := 16,
                value := [1, 0, 0, 0, 77, 0, 0, 0, 0, 0, 0, 0, 0, 0, 0, 0] }] }

/-- The message starts the job, step 0 begins at once, and the composition that comes into being takes its old principal's sequence with it. -/
theorem createsOnStart_seqs : (goesOn createsOnStart (exec (.pdpMessage 0 .mctpPcie startMessage) createsOnStart)).pd.seqs = [] := by
  decide +kernel

/-- Refutes O51: its first clause says that a message over PCIe MCTP leaves the kept sequence numbers as they are. A message that writes the start
record where the node becomes master at once activates a commit that waits for the step, and the creation of a composition drops what the
Directory kept of its principal. -/
theorem not_directoryMessagesAndManagementPort : ¬ Obligations.DirectoryMessagesAndManagementPort := by
  unfold Obligations.DirectoryMessagesAndManagementPort
  intro h
  obtain ⟨messages, -⟩ := h createsOnStart 0 rfl
  obtain ⟨answered, -⟩ := messages startMessage rfl
  obtain ⟨v, hv, kept, -⟩ := answered (by decide)
  have dropped := createsOnStart_seqs
  rw [hv] at dropped
  exact absurd (dropped.symm.trans kept) (by decide)

end Sys2Proof.Machine

namespace Sys2Proof.Machine

/-! ### A port in FALLOW that loses the fabric clock (R284, R533): the counterexample of O48 -/

/-- A node whose port 0 is in FALLOW. -/
def fallowPort : State := State.reset.setPort 0 { Port.atReset with st := .fallow }

/-- The retrain of a port in FALLOW is that of a move within it: the port stays in FALLOW. -/
theorem fallowPort_stays : ((goesOn fallowPort (exec (.refclkFabLoss 0) fallowPort)).port 0).st = .fallow := by
  decide +kernel

/-- Refutes O48: its clause of the fabric clock says that no port is in FALLOW after the loss, and a port that was stays there. -/
theorem not_clocksPowerDownAndPersistence : ¬ Obligations.ClocksPowerDownAndPersistence := by
  unfold Obligations.ClocksPowerDownAndPersistence
  intro h
  obtain ⟨-, lost, -⟩ := h fallowPort 0
  obtain ⟨v, hv, -, ports⟩ := lost rfl
  obtain ⟨-, left, -⟩ := ports 0 (by decide)
  have stays := fallowPort_stays
  rw [hv] at stays
  exact left stays

end Sys2Proof.Machine

namespace Sys2Proof.Machine

/-! ### The work of a node leaves its boot state alone

Seals, appends, results and refusals move the boot state by an event at most, and only an event of class POWER or SECURITY sets the alert
(R326, R529); none of those that they write is of these classes. -/

/-- The boot state stands, pins and clocks included. -/
def BootKept (s t : State) : Prop := t.boot = s.boot

theorem BootKept.refl (s : State) : BootKept s s := rfl

theorem BootKept.trans {a b c : State} (h : BootKept a b) (k : BootKept b c) : BootKept a c := Eq.trans k h

theorem BootKept.of_within {s t : State} (h : Within (keeping [.boot]) s t) : BootKept s t := h.keeps (p := .boot) (by simp)

theorem BootKept.ite {a b c : State} {p : Prop} [Decidable p] (h : BootKept a b) (k : BootKept a c) : BootKept a (if p then b else c) := by
  split
  · exact h
  · exact k

theorem BootKept.foldl {α : Type} {a b : State} {f : State → α → State} {l : List α} (h : BootKept a b) (k : ∀ s x, BootKept s (f s x)) :
    BootKept a (l.foldl f b) := by
  induction l generalizing b with
  | nil => exact h
  | cons x l ih => exact ih (h.trans (k b x))

/-- An event of another class than POWER and SECURITY. -/
theorem event_bootKept (s : State) {e : Event} (power : e.cls ≠ 6) (security : e.cls ≠ 8) : BootKept s (s.event e) := by
  unfold State.event
  extract_lets recent bytes size _ a b c _ d
  split
  · exact .refl s
  have hb : BootKept s b := by
    unfold b
    split
    · exact .ite rfl rfl
    · exact .refl s
  split
  · exact hb
  have hd : d = c := if_neg (by simp [power, security])
  change d.boot = s.boot
  rw [hd]
  exact hb

theorem noReply_bootKept (s : State) (c rnode : Nat) : BootKept s (s.noReply c rnode) :=
  BootKept.trans (b := s.countC c 0x4160 0x0B 1) rfl (event_bootKept _ (by simp) (by simp))

theorem unprotected_bootKept (s : State) (c job : Nat) : BootKept s (s.unprotected c job) := by
  unfold State.unprotected
  split
  · exact .refl s
  next g _ => exact BootKept.trans (b := s.count 0x3402 c) rfl (event_bootKept _ (by simp) (by simp))

theorem genMismatch_bootKept (s : State) (job ctx stream page want got : Nat) : BootKept s (s.genMismatch job ctx stream page want got) := by
  unfold State.genMismatch
  extract_lets comp a
  have ha : BootKept s a := by
    unfold a comp
    split <;> rfl
  exact ha.trans (event_bootKept _ (by simp) (by simp))

/-! #### Results and refusals (R106, R108, R124, R133, R456) -/

theorem flush_bootKept (s : State) (id : Nat) : BootKept s (s.flush id) :=
  .of_within (by apply State.flush_within (hs := .refl _ s) <;> rfl)

theorem endReq_bootKept (s : State) (st : Status) (r : Req) : BootKept s (s.endReq st r) := by
  unfold State.endReq State.endReqAt
  extract_lets a b c
  have ha : BootKept s a := by
    refine .ite (.refl s) ?_
    split
    · rfl
    · exact noReply_bootKept ..
  exact ha.trans (flush_bootKept b r.id)

theorem endSearch_bootKept (s : State) (st : Status) (x : Search) : BootKept s (s.endSearch st x) := by
  unfold State.endSearch
  extract_lets path _ a
  have ha : BootKept s a := rfl
  clear_value path
  split
  · exact ha.trans (noReply_bootKept ..)
  · exact ha.trans (.of_within (by apply State.refuseSearch_within (hs := .refl _ a) <;> rfl))

theorem endAll_bootKept (s : State) (p : Nat → Nat → Bool) (st : Status) : BootKept s (s.endAll p st) :=
  BootKept.foldl (BootKept.foldl (.refl s) fun t r => endReq_bootKept t st r) fun t x => endSearch_bootKept t st x

theorem endOp_bootKept (s : State) (src : Source) (env : Envelope) (q : Option Nat) (op : Nat) (st : Status) (v : Nat) (contract : Bool) :
    BootKept s (s.endOp src env q op st v contract) :=
  .of_within (by apply State.endOp_within (hs := .refl _ s) <;> rfl)

theorem endIntakeOp_bootKept (s : State) (src : Source) (env : Envelope) (op : Nat) (st : Status) :
    BootKept s (s.endIntakeOp src env op st) := by
  unfold State.endIntakeOp
  dsimp only
  split
  · exact noReply_bootKept ..
  · exact endOp_bootKept ..

theorem refuseAttend_bootKept (s : State) (src : Source) (r : AttendReq) (st : Status) (hint : Option Nat) :
    BootKept s (s.refuseAttend src r st hint) := by
  unfold State.refuseAttend
  dsimp only
  split
  · exact noReply_bootKept ..
  · refine .of_within ?_
    apply State.sendFlag_within <;> try rfl
    apply State.sendResult_within <;> try rfl
    apply State.newId_within (hs := .refl _ s); rfl

theorem endIntake_bootKept (s : State) (st : Status) (i : Instr) : BootKept s (s.endIntake st i) := by
  unfold State.endIntake
  split
  case h_1 => exact refuseAttend_bootKept ..
  case h_8 =>
    dsimp only
    split
    · exact noReply_bootKept ..
    · exact .of_within (by apply State.refuseSearch_within (hs := .refl _ s) <;> rfl)
  case h_13 => exact .refl s
  all_goals exact endIntakeOp_bootKept ..

theorem closeBoxes_bootKept (s : State) (vf : Nat) (st : Status) : BootKept s (s.closeBoxes vf st) :=
  .of_within (by apply State.closeBoxes_within (hs := .refl _ s) <;> rfl)

theorem endEverything_bootKept (s : State) : BootKept s s.endEverything := by
  unfold State.endEverything
  refine BootKept.foldl (BootKept.foldl (b := { s.endAll (fun _ _ => true) .replay with rq := _ }) ?_ fun t i => endIntake_bootKept t .replay i)
    fun t vf => closeBoxes_bootKept t vf .replay
  exact endAll_bootKept ..

/-! #### Requests at intake -/

theorem endOp_held (s : State) (src : Source) (env : Envelope) (q : Option Nat) (op : Nat) (st : Status) (v : Nat) (contract : Bool) :
    (s.endOp src env q op st v contract).rq.held = s.rq.held := by
  have sent : Within (keeping [.rq]) s.newId.2 (s.endOp src env q op st v contract) := by
    unfold State.endOp
    apply State.sendFlag_within <;> try rfl
    apply State.sendResult_within (hs := .refl _ _) <;> rfl
  rw [sent.keeps (p := .rq) (by simp)]
  rfl

theorem endIntakeOp_held (s : State) (src : Source) (env : Envelope) (op : Nat) (st : Status) :
    (s.endIntakeOp src env op st).rq.held = s.rq.held := by
  unfold State.endIntakeOp
  dsimp only
  split
  · rw [noReply_rq]
  · exact endOp_held ..

theorem refuseAttend_held (s : State) (src : Source) (r : AttendReq) (st : Status) (hint : Option Nat) :
    (s.refuseAttend src r st hint).rq.held = s.rq.held := by
  unfold State.refuseAttend
  dsimp only
  split
  · rw [noReply_rq]
  · refine (congrArg ReqSt.held (Within.keeps (l := [.rq]) (p := .rq) (s := s.newId.2) ?_ (by simp))).trans rfl
    apply State.sendFlag_within <;> try rfl
    apply State.sendResult_within (hs := .refl _ _) <;> rfl

theorem refuseSearch_held (s : State) (src : Source) (r : SearchReq) (q : Option Nat) (st : Status) (contract : Bool) :
    (s.refuseSearch src r q st contract).rq.held = s.rq.held := by
  have sent : Within (keeping [.rq]) s.newId.2 (s.refuseSearch src r q st contract) := by
    unfold State.refuseSearch
    apply State.sendFlag_within <;> try rfl
    apply State.sendResult_within (hs := .refl _ _) <;> rfl
  rw [sent.keeps (p := .rq) (by simp)]
  rfl

/-- The end of one request at intake leaves what waits there. -/
theorem endIntake_held (s : State) (st : Status) (i : Instr) : (s.endIntake st i).rq.held = s.rq.held := by
  unfold State.endIntake
  split
  case h_1 => exact refuseAttend_held ..
  case h_8 =>
    dsimp only
    split
    · rw [noReply_rq]
    · exact refuseSearch_held ..
  case h_13 => rfl
  all_goals exact endIntakeOp_held ..

theorem foldl_endIntake_held (l : List Instr) (st : Status) (s : State) :
    (l.foldl (fun (s : State) i => s.endIntake st i) s).rq.held = s.rq.held := by
  induction l generalizing s with
  | nil => rfl
  | cons i l ih => exact (ih _).trans (endIntake_held ..)

/-- Nothing waits at intake once everything has ended. -/
theorem endEverything_held (s : State) : s.endEverything.rq.held = [] := by
  unfold State.endEverything
  have closed (l : List Nat) (s : State) : (l.foldl (fun (s : State) vf => s.closeBoxes vf .replay) s).rq = s.rq := by
    induction l generalizing s with
    | nil => rfl
    | cons vf l ih =>
      exact (ih _).trans (Within.keeps (l := [.rq]) (p := .rq) (by apply State.closeBoxes_within (hs := .refl _ s) <;> rfl) (by simp))
  dsimp only
  rw [closed, foldl_endIntake_held]

/-! ### The test access port (R532) -/

@[simp] theorem arrive_tapClosed (s : State) (t : Nat) : (s.arrive t).tapClosed = s.tapClosed := by simp [State.tapClosed]

theorem tap_of_open {s : State} (powered : s.boot.powered = true) (isOpen : s.tapClosed = false) (ir : Nat) (f : State → State) :
    s.tap ir f = f (s.tapSet ir) :=
  (if_neg (by simp [powered])).trans (if_neg (by simp [isOpen]))

theorem tap_of_closed {s : State} (powered : s.boot.powered = true) (closed : s.tapClosed = true) (ir : Nat) (f : State → State) :
    s.tap ir f = s.tapSet 0xFF :=
  (if_neg (by simp [powered])).trans (if_pos closed)

/-- A port goes down under a boundary-scan instruction, and off. -/
def State.portOff (s : State) (p : Nat) : State :=
  (s.enterPort p .down).setPort p { ((s.enterPort p .down).port p).fresh with en := false }

theorem portOff_same (s : State) (p : Nat) : ((s.portOff p).port p).st = .down ∧ ((s.portOff p).port p).en = false := by
  rw [State.portOff, setPort_port_same]
  exact ⟨(enterPort_port s p .down).st, rfl⟩

theorem portOff_other (s : State) {p q : Nat} (ne : q ≠ p) : (s.portOff p).port q = s.port q := by
  have entered : (s.enterPort p .down).port q = s.port q := by
    unfold State.enterPort
    extract_lets x was v
    have : v.port q = s.port q := setPort_port_other (h := ne) ..
    split
    · rw [linkEvent_port, this]
    · exact this
  rw [State.portOff, setPort_port_other (h := ne), entered]

theorem portOff_bootKept (s : State) (p : Nat) : BootKept s (s.portOff p) := by
  unfold State.portOff State.enterPort
  extract_lets x was v
  refine BootKept.trans (b := if (was && PortState.down != PortState.up) = true then v.linkEvent p 2 else v) (.ite ?_ ?_) rfl
  · exact BootKept.trans (b := v) rfl (event_bootKept _ (by simp) (by simp))
  · rfl

theorem portOff_rq (s : State) (p : Nat) : (s.portOff p).rq = s.rq :=
  Within.keeps (l := [.rq]) (p := .rq) (by
    apply State.setPort_within <;> try rfl
    apply State.enterPort_within (hs := .refl _ s) <;> rfl) (by simp)

/-- Every port below `k` is down and off. -/
theorem foldl_portOff (s : State) (k : Nat) : let t := (List.range k).foldl (fun (s : State) p => s.portOff p) s
    BootKept s t ∧ t.rq = s.rq ∧ ∀ p, p < k → (t.port p).st = .down ∧ (t.port p).en = false := by
  induction k with
  | zero => exact ⟨.refl s, rfl, fun p h => absurd h (Nat.not_lt_zero p)⟩
  | succ k ih =>
    obtain ⟨boot, rq, down⟩ := ih
    dsimp only
    rw [List.range_succ, List.foldl_append, List.foldl_cons, List.foldl_nil]
    refine ⟨boot.trans (portOff_bootKept ..), (portOff_rq ..).trans rq, fun p h => ?_⟩
    by_cases last : p = k
    · subst last; exact portOff_same ..
    · rw [portOff_other _ last]
      exact down p (by omega)

/-- A boundary-scan instruction ends every request, takes every port down and stops the card until reset; the rest of the boot state stands. -/
theorem boundary_stops (s : State) : s.boundary.boot = { s.boot with dead := true } ∧ s.boundary.rq.held = [] ∧
    ∀ p, p < 8 → (s.boundary.port p).st = .down ∧ (s.boundary.port p).en = false := by
  obtain ⟨boot, rq, down⟩ := foldl_portOff s.endEverything 8
  have boundary : s.boundary = { (List.range 8).foldl (fun (s : State) p => s.portOff p) s.endEverything with
    boot := { ((List.range 8).foldl (fun (s : State) p => s.portOff p) s.endEverything).boot with dead := true } } := by
    simp only [State.boundary, State.portOff]
  rw [boundary]
  generalize (List.range 8).foldl (fun (s : State) p => s.portOff p) s.endEverything = x at boot rq down ⊢
  have ended : BootKept s x := (endEverything_bootKept s).trans boot
  exact ⟨congrArg (fun b : BootSt => { b with dead := true }) ended, (congrArg ReqSt.held rq).trans (endEverything_held s), down⟩

section
variable {s : State} (powered : s.boot.powered = true) (t : Nat)
include powered

/-- What a boundary-scan instruction does at an open port. -/
theorem tap_boundary (isOpen : s.tapClosed = false) {i : Instr} {n : Nat} (e : exec i s = .next ((s.arrive t).tap n State.boundary)) :
    Yields i s fun v => v.boot.ir = n ∧ v.boot.dead = true ∧ v.ready = false ∧ v.rq.held = [] ∧
      ∀ p, p < 8 → (v.port p).st = .down ∧ (v.port p).en = false := by
  rw [tap_of_open (by simpa using powered) (by simpa using isOpen)] at e
  obtain ⟨boot, held, down⟩ := boundary_stops ((s.arrive t).tapSet n)
  exact .of_exec e ⟨by rw [boot]; rfl, by rw [boot], by simp [State.ready, boot], held, down⟩

/-- What every instruction does at a closed port. -/
theorem tap_bypassed (closed : s.tapClosed = true) {i : Instr} {n : Nat} {f : State → State} (e : exec i s = .next ((s.arrive t).tap n f)) :
    Yields i s fun v => v.boot = { s.boot with ir := 0xFF, tdo := none } ∧ v.lnk = s.lnk ∧ v.rq = s.rq ∧ v.mem = s.mem := by
  rw [tap_of_closed (by simpa using powered) (by simpa using closed)] at e
  exact .of_exec e (by simp [State.tapSet])

end

/-! ### Debug accesses (R205, R379) -/

theorem debugAccess_kept (s : State) (d : DebugAccess) : (s.debugAccess d).lnk = s.lnk ∧ (s.debugAccess d).boot = s.boot := by
  have kept : Within (keeping [.lnk, .boot]) s (s.debugAccess d) := by apply State.debugAccess_within (hs := .refl _ s) <;> rfl
  exact ⟨kept.keeps (p := .lnk) (by simp), kept.keeps (p := .boot) (by simp)⟩

theorem debugAccess_of_shut {s : State} (shut : s.sec.memdbg = false) (d : DebugAccess) : s.debugAccess d = s :=
  if_pos (by rw [shut]; rfl)

/-- The grant that a debug access to HBM takes. -/
def State.grantTaken (s : State) (npa : Nat) : State :=
  if isHbm npa && (s.arb (pcOf npa)).grant.isSome then
    (s.count 0x3010 2).setArb (pcOf npa) { s.arb (pcOf npa) with grant := none }
  else s

theorem grantTaken_kept (s : State) (npa : Nat) : (s.grantTaken npa).mem = s.mem ∧ (s.grantTaken npa).out = s.out := by
  unfold State.grantTaken
  split <;> simp

theorem grantTaken_grant {s : State} {npa : Nat} (hbm : isHbm npa = true) : ((s.grantTaken npa).arb (pcOf npa)).grant = none := by
  unfold State.grantTaken
  rw [hbm, Bool.true_and]
  split
  next => rw [setArb_arb_same]
  next none => simpa using none

theorem debugAccess_of_open {s : State} (isOpen : s.sec.memdbg = true) {d : DebugAccess} (place : isHbm d.npa = true ∨ isSram d.npa = true) :
    s.debugAccess d = d.wr.elim ((s.grantTaken d.npa).emit (.debugRead d.npa ((s.grantTaken d.npa).load d.npa d.len)))
      fun b => (s.grantTaken d.npa).store d.npa b := by
  unfold State.debugAccess State.grantTaken
  rw [if_neg (by simp [isOpen]), if_neg (by rcases place with h | h <;> simp [h])]
  cases d.wr <;> rfl

/-- Settles O49, instruction by instruction. -/
theorem jtagInstructionsSelectAndStop : Obligations.JtagInstructionsSelectAndStop := by
  unfold Obligations.JtagInstructionsSelectAndStop
  intro s t powered
  have isPowered : (s.arrive t).boot.powered = true := by rw [State.arrive_boot, powered]
  refine ⟨fun isOpen => ?opened, fun closed cmd h => ?closed⟩
  case closed =>
    rcases h with rfl | rfl | ⟨cells, rfl⟩ | rfl | rfl | rfl | rfl | rfl
    all_goals exact tap_bypassed powered t closed rfl
  case opened =>
    have tap (ir : Nat) (f : State → State) : (s.arrive t).tap ir f = f ((s.arrive t).tapSet ir) :=
      tap_of_open isPowered (by rw [arrive_tapClosed, isOpen]) ir f
    have bypass : exec (.bypass t) s = .next ((s.arrive t).tap 0xFF id) := rfl
    have idcode : exec (.idcode t) s = .next ((s.arrive t).tap 0x01 id) := rfl
    rw [tap] at bypass idcode
    refine ⟨.of_exec bypass (by simp [State.tapSet]), .of_exec idcode (by simp [State.tapSet]), fun cells => ?sample, fun cmd n h => ?boundary,
      fun p secret => ?secret⟩
    case sample =>
      have run : exec (.samplePreload t cells) s = .next ((s.arrive t).tap 0x02 fun s => { s with boot := { s.boot with cells } }) := rfl
      rw [tap] at run
      exact .of_exec run (by simp [State.tapSet])
    case boundary =>
      rcases h with ⟨rfl, rfl⟩ | ⟨rfl, rfl⟩ | ⟨rfl, rfl⟩ | ⟨rfl, rfl⟩ | ⟨rfl, rfl⟩
      all_goals exact tap_boundary powered t isOpen rfl
    case secret =>
      have run : exec (.privateInstruction t p) s = .next (if s.sec.tappriv then
          p.access.elim ((s.arrive t).tapSet (p.opcode % 256)) fun d => ((s.arrive t).tapSet (p.opcode % 256)).debugAccess d
          else (s.arrive t).tapSet 0xFF) := by
        change execPrivateInstruction t p s = _
        unfold execPrivateInstruction
        dsimp only
        rw [if_neg (by simp [secret]), tap, tap, State.arrive_sec]
        rfl
      have ir (n : Nat) : ((s.arrive t).tapSet n).boot.ir = n := rfl
      have shut (off : s.sec.memdbg = false) (n : Nat) (d : DebugAccess) :
          ((s.arrive t).tapSet n).debugAccess d = (s.arrive t).tapSet n := debugAccess_of_shut (by simpa [State.tapSet] using off) d
      cases priv : s.sec.tappriv with
      | false =>
        rw [priv, if_neg Bool.false_ne_true] at run
        exact ⟨.of_exec run (by simp [State.tapSet]), fun _ => .of_exec run (by simp [State.tapSet]), nofun⟩
      | true =>
        rw [priv, if_pos rfl] at run
        cases access : p.access with
        | none =>
          rw [access] at run
          exact ⟨.of_exec run (by simp [State.tapSet]), fun _ => .of_exec run (by simp [State.tapSet]), nofun⟩
        | some d =>
          rw [access] at run
          obtain ⟨lnk, boot⟩ := debugAccess_kept ((s.arrive t).tapSet (p.opcode % 256)) d
          refine ⟨.of_exec run ⟨lnk.trans (by simp [State.tapSet]), (congrArg BootSt.ir boot).trans rfl⟩, fun off => ?_,
            fun d' same _ isOpen place => ?_⟩
          · refine .of_exec run ?_
            rw [Option.elim_some, shut (by simpa using off)]
            simp [State.tapSet]
          · cases same
            rw [Option.elim_some, debugAccess_of_open (by simpa [State.tapSet] using isOpen) place] at run
            obtain ⟨mem, out⟩ := grantTaken_kept ((s.arrive t).tapSet (p.opcode % 256)) d.npa
            refine .of_exec run ⟨fun hbm => ?_, fun b wr => ?_, fun rd => ?_⟩
            · cases d.wr <;> exact grantTaken_grant hbm
            · rw [wr, Option.elim_some, State.store, mem]
              simp [State.tapSet]
            · rw [rd, Option.elim_none, State.emit, State.load, mem, out]
              simp [State.tapSet, State.load]

end Sys2Proof.Machine

namespace Sys2Proof.Machine

/-! ### Values of the Directory (R494, R495) -/

theorem bytes_setBytes (p : PdSt) (index sub : Nat) (b : List Byte) : (p.setBytes index sub b).bytes index sub = b := by
  have none : (p.vals.filter fun v => !(v.1 == index && v.2.1 == sub)).find? (fun v => v.1 == index && v.2.1 == sub) = none :=
    List.find?_eq_none.2 fun v hv => by simpa [imp_iff_not_or] using (List.mem_filter.1 hv).2
  rw [PdSt.bytes, PdSt.setBytes, List.find?_append, none]
  simp

/-- An entry without a value of its own has its default. -/
theorem bytes_of_none {p : PdSt} {index sub : Nat} (none : ∀ v ∈ p.vals, ¬(v.1 = index ∧ v.2.1 = sub)) :
    p.bytes index sub = pdDefault index sub := by
  rw [PdSt.bytes, List.find?_eq_none.2 fun v hv => by simpa using none v hv]

theorem pdFind_index {index sub : Nat} {e : PdEntry} (h : pdFind index sub = some e) : e.index = index := by
  have := List.find?_some h
  simp only [Bool.and_eq_true, beq_iff_eq] at this
  exact this.1.1

/-- A value whose bytes are all fields of its entry stands as it was written. -/
theorem pdClean_of_fields {index : Nat} {b : List Byte} (fields : pdFields index b.length = List.replicate b.length 255) :
    pdClean index b = b := by
  rw [pdClean, fields]
  refine List.ext_getElem (by simp) fun i hi hj => ?_
  simp only [List.getElem_zipWith, List.getElem_replicate]
  exact BitVec.and_allOnes (w := 8)

theorem writeEffect_pd (s : State) (index sub : Nat) (b : List Byte) : (s.writeEffect index sub b).pd = s.pd :=
  Within.keeps (l := [.pd]) (p := .pd) (by apply State.writeEffect_within (hs := .refl _ s) <;> rfl) (by simp)

theorem clampAll_pd (s : State) : s.clampAll.pd = s.pd := rfl

theorem noteAll_pd (s : State) : s.noteAll.pd = s.pd := rfl

/-- A write that only sets the value of its entry: the Directory's values take it, and a Stored entry waits to be persisted. -/
theorem PlainEntry.pdPut_pd {index sub : Nat} {e : PdEntry} (h : PlainEntry index sub e) (s : State) (b : List Byte) :
    (s.pdPut e sub b).pd.bytes index sub = pdClean index b ∧ (e.stored = true → (index, sub) ∈ (s.pdPut e sub b).pd.unsaved) := by
  obtain ⟨found, -, comp, ways, link, fwd, life⟩ := h
  obtain rfl := pdFind_index found
  unfold State.pdPut
  extract_lets _ _ _ _ _ c x y z
  rw [if_neg comp, if_neg ways, if_neg link, if_neg (by omega), if_neg life]
  have hx : x.pd.bytes e.index sub = c := by
    change (PdSt.setBytes _ e.index sub c).bytes e.index sub = c
    exact bytes_setBytes ..
  have hz : z.pd = x.pd := by
    have hy : y.pd = x.pd := by unfold y; split <;> rfl
    unfold z
    split
    · exact (noteAll_pd y).trans hy
    · exact hy
  split
  next stored => exact ⟨(congrArg (PdSt.bytes · e.index sub) hz).trans hx, fun _ => List.mem_cons_self⟩
  next plain => exact ⟨(congrArg (PdSt.bytes · e.index sub) hz).trans hx, fun stored => absurd stored plain⟩

/-- The default of an entry leaves no value of it in force, nor in the configuration. -/
theorem pdReset_pd (s : State) (e : PdEntry) (sub : Nat) : (s.pdReset e sub).pd.bytes e.index sub = pdDefault e.index sub ∧
    ∀ x ∈ (s.pdReset e sub).pd.stored, ¬(x.1 = e.index ∧ x.2.1 = sub) :=
  ⟨bytes_of_none fun v hv => by simpa [imp_iff_not_or] using (List.mem_filter.1 hv).2,
    fun x hx => by simpa [imp_iff_not_or] using (List.mem_filter.1 hx).2⟩

/-! ### Items (R500 to R503, R507) -/

@[simp] theorem arrive_alive (s : State) (t : Nat) : (s.arrive t).alive = s.alive := by simp [State.alive]

/-- What an operation of a principal yields is what serving its item gives, as the last of a message with the largest room. -/
theorem yields_pdOne {s : State} {t : Nat} {p : Principal} {i : PdItem} {iop : Nat} {c : Instr} {P : State → Prop} (alive : s.alive = true)
    (ready : s.boot.ready = true) (e : exec c s = .next ((s.arrive t).pdOne p iop i)) {a : Answer} {v : State}
    (served : (s.arrive t).serve p (principalCode p * 64 + 63) 1256 true { i with iop } = (a, v)) (h : P (v.emit (.pdItem p a))) :
    Yields c s P := by
  refine .of_exec e ?_
  rw [State.pdOne, if_neg (by simp [alive]), if_neg (by simp [ready]), served]
  exact h

section
variable {s : State} {p : Principal} {owner room : Nat} {i : PdItem} {e : PdEntry} (found : pdFind i.index i.sub = some e)
include found

theorem serve_read (reads : (e.access p i.sub).reads = true) :
    s.serve p owner room true { i with iop := 1 } = (⟨i.index, i.sub, .ok, e.typ.code,
      (if i.len = 0 then if i.seg then (s.pdValue p e i.sub).drop i.offset else s.pdValue p e i.sub
        else (if i.seg then (s.pdValue p e i.sub).drop i.offset else s.pdValue p e i.sub).take i.len).take room⟩, s) := by
  simp [State.serve, found, reads]

theorem serve_read_denied (reads : (e.access p i.sub).reads = false) :
    s.serve p owner room true { i with iop := 1 } = (⟨i.index, i.sub, .accessDenied, e.typ.code, []⟩, s.count 0x1030 1) := by
  simp [State.serve, found, reads, State.denied]

theorem serve_describe (reaches : e.access p i.sub ≠ .no) :
    s.serve p owner room true { i with iop := 3 } = (⟨i.index, i.sub, .ok, e.typ.code, (e.describe i.sub).take room⟩, s) := by
  simp [State.serve, found, reaches]

theorem serve_write_denied (writes : (e.access p i.sub).writes = false) :
    s.serve p owner room true { i with iop := 2 } = (⟨i.index, i.sub, .accessDenied, e.typ.code, []⟩, s.count 0x1030 1) := by
  simp [State.serve, found, writes, State.denied]

theorem serve_write (writes : (e.access p i.sub).writes = true) (whole : i.value.length = i.len) (one : i.seg = false)
    (free : s.stagingOf i.index i.sub = none) : s.serve p owner room true { i with iop := 2 } =
      (⟨i.index, i.sub, (s.pdTake e i.sub i.value).1, e.typ.code, []⟩, (s.pdTake e i.sub i.value).2) := by
  simp [State.serve, found, writes, State.pdWrite, whole, one, free]

/-- A segment that is not the last begins a staging copy. -/
theorem serve_write_segment (writes : (e.access p i.sub).writes = true) (whole : i.value.length = i.len) (seg : i.seg = true)
    (more : i.last = false) (bytes : e.typ.isBytes = true) (free : s.stagingOf i.index i.sub = none)
    (fits : i.offset + i.len ≤ e.maxLen) (up : e.stored = true → s.sec.up = true) :
    s.serve p owner room true { i with iop := 2 } = (⟨i.index, i.sub, .ok, e.typ.code, []⟩,
      { s.unstage i.index i.sub with pd := { (s.unstage i.index i.sub).pd with staging :=
        { index := i.index, sub := i.sub, data := splice [] i.offset i.value, len := max 0 (i.offset + i.len), since := s.timer, owner } ::
          (s.unstage i.index i.sub).pd.staging } }) := by
  have stored : (e.stored && !s.sec.up) = false := by
    cases h : e.stored with
    | false => rfl
    | true => rw [up h]; rfl
  simp [State.serve, found, writes, State.pdWrite, whole, seg, more, bytes, free, fits, stored]

theorem serve_default (writes : (e.access p i.sub).writes = true) (value : e.op ≠ .wo) (free : s.stagingOf i.index i.sub = none)
    (allowed : s.writeRefusal e i.sub (pdDefault e.index i.sub) = none) : s.serve p owner room true { i with iop := 5 } =
      (⟨i.index, i.sub, .ok, e.typ.code, []⟩, s.pdReset e i.sub) := by
  simp [State.serve, found, writes, State.pdDefaultItem, value, free, allowed]

end

theorem pdTake_of_refusal {s : State} {e : PdEntry} {sub : Nat} {b : List Byte} {st : Status} (refused : s.writeRefusal e sub b = some st) :
    s.pdTake e sub b = (st, s) := by rw [State.pdTake, refused]

theorem pdTake_of_value {s : State} {e : PdEntry} {sub : Nat} {b : List Byte} (allowed : s.writeRefusal e sub b = none) (value : e.op ≠ .wo) :
    s.pdTake e sub b = (.ok, s.pdPut e sub b) := by
  rw [State.pdTake, allowed]
  exact if_neg (by simpa using value)

theorem padTo_length (n : Nat) (b : List Byte) : (padTo n b).length = n := by
  induction n generalizing b with
  | zero => rfl
  | succ n ih => rw [padTo, List.length_cons, ih]

/-- What a segment wrote stands in its staging copy. -/
theorem splice_nil_take (off : Nat) (b : List Byte) : ((splice [] off b).drop off).take b.length = b := by
  rw [splice, List.drop_nil, List.append_nil, List.drop_left' (padTo_length ..), List.take_length]

/-- Settles O50, operation by operation: what serving an item gives, and what a value that is put leaves in the Directory. -/
theorem directoryItemsReadWriteAndDescribe : Obligations.DirectoryItemsReadWriteAndDescribe := by
  unfold Obligations.DirectoryItemsReadWriteAndDescribe
  intro s t p i u alive
  have pd : u.pd = s.pd := State.arrive_pd ..
  have out : u.out = s.out := State.arrive_out ..
  have vals : u.pd.vals = s.pd.vals := congrArg PdSt.vals pd
  have staging : u.pd.staging = s.pd.staging := congrArg PdSt.staging pd
  refine ⟨fun early => ?early, fun ready e found => ?items, fun ready => ?next, fun index sub => ?timeout⟩
  case early =>
    change Host.Outcome.next (u.pdOne p 1 i) = _
    rw [State.pdOne, if_neg (by simp [u, alive]), if_pos (by simp [u, early])]
  case next =>
    refine yields_pdOne (iop := 4) alive ready rfl (if_pos rfl) ⟨pd, ?_⟩
    rw [← out]
    rfl
  case timeout =>
    refine .of_exec rfl ⟨vals, fun g => ?_⟩
    rw [← staging]
    simp [u, List.mem_filter, imp_iff_not_or, or_assoc]
  case items =>
    have index := pdFind_index found
    refine ⟨fun reads => ?read, fun reads => ?readDenied, fun reaches => ?describe, fun writes => ?writeDenied, fun writes whole one free => ?write,
      fun writes whole seg more bytes _ free fits up => ?segment, fun writes free allowed plain => ?default⟩
    case read =>
      refine yields_pdOne alive ready rfl (serve_read found reads) ⟨pd, State.arrive_mem .., ?_⟩
      rw [← out]
      rfl
    case readDenied =>
      refine yields_pdOne alive ready rfl (serve_read_denied found reads) ⟨vals, ?_⟩
      rw [← out]
      rfl
    case describe =>
      refine yields_pdOne alive ready rfl (serve_describe found reaches) ⟨pd, ?_⟩
      rw [← out]
      rfl
    case writeDenied =>
      refine yields_pdOne alive ready rfl (serve_write_denied found writes) ⟨vals, staging, ?_⟩
      rw [← out]
      rfl
    case write =>
      have served := serve_write (owner := principalCode p * 64 + 63) (room := 1256) found writes whole one free
      refine ⟨fun st refused => ?_, fun allowed plain => ?_⟩
      · rw [pdTake_of_refusal refused] at served
        refine yields_pdOne alive ready rfl served ⟨pd, ?_⟩
        rw [← out]
        rfl
      · rw [pdTake_of_value allowed plain.reads] at served
        obtain ⟨value, unsaved⟩ := plain.pdPut_pd u i.value
        exact yields_pdOne alive ready rfl served
          ⟨value, fun fields => value.trans (pdClean_of_fields (by rw [whole]; exact fields)), unsaved, rfl⟩
    case segment =>
      refine yields_pdOne alive ready rfl (serve_write_segment found writes whole seg more bytes free fits (by simpa [u] using up))
        ⟨vals, _, List.mem_cons_self, rfl, rfl, rfl, Nat.zero_max .., ?_⟩
      rw [← whole]
      exact splice_nil_take ..
    case default =>
      obtain ⟨value, stored⟩ := pdReset_pd u e i.sub
      rw [index] at value stored
      exact yields_pdOne alive ready rfl (serve_default found writes plain.reads free allowed) ⟨value, stored, rfl⟩

end Sys2Proof.Machine

namespace Sys2Proof.Machine

/-! ### Samples of power (R451, R453) -/

/-- What an event leaves of the power unit and of the local timer. -/
@[simp] theorem powerEvent_pwr (s : State) (code subj : Nat) (detail : List Byte) : (s.powerEvent code subj detail).pwr = s.pwr :=
  Within.keeps (l := [.pwr]) (p := .pwr) (by apply State.powerEvent_within (hs := .refl _ s) <;> rfl) (by simp)

/-- The governor settles its level and what exceeds the work, and nothing else of the power unit. -/
theorem govern_pwr (s : State) : ∃ level excess excessAt, s.govern.pwr = { s.pwr with level, excess, excessAt } := ⟨_, _, _, rfl⟩

/-- The transitions of the power limit keep the samples and the reading. -/
theorem powerCap_kept (s : State) (mean : Rat) :
    (s.powerCap mean).pwr.watts = s.pwr.watts ∧ (s.powerCap mean).pwr.reading = s.pwr.reading := by
  have event (u : State) (detail : List Byte) (h : u.pwr.watts = s.pwr.watts ∧ u.pwr.reading = s.pwr.reading) :
      (u.powerEvent 6 nodeSubject detail).pwr.watts = s.pwr.watts ∧ (u.powerEvent 6 nodeSubject detail).pwr.reading = s.pwr.reading := by
    rw [powerEvent_pwr]; exact h
  unfold State.powerCap
  extract_lets limit p low belowAt u
  split
  · split
    · exact event _ _ ⟨rfl, rfl⟩
    · exact ⟨rfl, rfl⟩
  split
  · split
    · exact event _ _ ⟨rfl, rfl⟩
    · exact ⟨rfl, rfl⟩
  split
  · exact event _ _ ⟨rfl, rfl⟩
  split
  · exact event _ _ ⟨rfl, rfl⟩
  · exact ⟨rfl, rfl⟩

/-- A mean above the limit engages it. -/
theorem powerCap_engages {s : State} {mean : Rat} (off : s.pwr.cap = false) (above : (s.pdNum 0x2001 0 : Rat) < mean) :
    (s.powerCap mean).pwr.cap = true ∧ (s.powerCap mean).pwr.capAt = s.timer := by
  unfold State.powerCap
  dsimp only
  rw [if_pos (by simp [off]), if_pos above, powerEvent_pwr]
  exact ⟨rfl, rfl⟩

/-- A sample of the AVSBus moves the pins at most, and draws. -/
theorem avsSample_within (s : State) : Within (keeping [.pwr, .pd, .timer]) s s.avsSample := by
  apply State.avsSample_within (hs := .refl _ s) <;> rfl

/-- The state at a sample, before its mean is compared with the limit. -/
def State.sampled (s : State) (watts : Nat) : State :=
  ({ s with pwr := { s.pwr with watts := (watts :: s.pwr.watts).take 100 } } : State).avsSample

theorem sampled_pwr (s : State) (watts : Nat) : (s.sampled watts).pwr = { s.pwr with watts := (watts :: s.pwr.watts).take 100 } :=
  (avsSample_within _).keeps (p := .pwr) (by simp)

theorem sampled_timer (s : State) (watts : Nat) : (s.sampled watts).timer = s.timer :=
  (avsSample_within _).keeps (p := .timer) (by simp)

theorem sampled_pdNum (s : State) (watts index sub : Nat) : (s.sampled watts).pdNum index sub = s.pdNum index sub :=
  congrArg (fun p : PdSt => leNat (p.bytes index sub)) ((avsSample_within _).keeps (p := .pd) (by simp))

/-- The state after a sample: the mean of a full millisecond meets the limit. -/
def State.limited (s : State) (watts : Nat) : State :=
  if ((watts :: s.pwr.watts).take 100).length = 100 then
    (s.sampled watts).powerCap ((((watts :: s.pwr.watts).take 100).sum : Rat) / 100)
  else s.sampled watts

theorem limited_kept (s : State) (watts : Nat) :
    (s.limited watts).pwr.watts = (watts :: s.pwr.watts).take 100 ∧ (s.limited watts).pwr.reading = s.pwr.reading := by
  have sampled := sampled_pwr s watts
  unfold State.limited
  split
  · obtain ⟨w, r⟩ := powerCap_kept (s.sampled watts) ((((watts :: s.pwr.watts).take 100).sum : Rat) / 100)
    rw [w, r, sampled]
    exact ⟨rfl, rfl⟩
  · rw [sampled]
    exact ⟨rfl, rfl⟩

theorem limited_engages {s : State} {watts : Nat} (full : ((watts :: s.pwr.watts).take 100).length = 100) (off : s.pwr.cap = false)
    (above : (s.pdNum 0x2001 0 : Rat) < (((watts :: s.pwr.watts).take 100).sum : Rat) / 100) :
    (s.limited watts).pwr.cap = true ∧ (s.limited watts).pwr.capAt = s.timer := by
  rw [State.limited, if_pos full]
  obtain ⟨cap, at_⟩ := powerCap_engages (s := s.sampled watts) (by rw [sampled_pwr]; exact off) (by rw [sampled_pdNum]; exact above)
  exact ⟨cap, at_.trans (sampled_timer ..)⟩

theorem exec_powerSample_none {s : State} (ready : s.ready = true) (t watts : Nat) :
    exec (.powerSample t watts none) s = .next ((s.arrive t).limited watts) := if_neg (by simp [ready])

theorem exec_powerSample_some {s : State} (ready : s.ready = true) (t watts m : Nat) : ∃ x, x = ((s.arrive t).limited watts).draw.2 ∧
    exec (.powerSample t watts (some m)) s = .next { x with pwr := { x.pwr with reading := round25 m, rail := some ((s.arrive t).limited watts).draw.1 } } :=
  ⟨_, rfl, if_neg (by simp [ready])⟩

/-! ### Samples of temperature (R454, R455) -/

theorem refreshSample_kept (s : State) (temp : Int) : Within (keeping [.pwr, .rq]) s (s.refreshSample temp) := by
  apply State.refreshSample_within (hs := .refl _ s) <;> rfl

theorem refreshSample_hostHeld (s : State) (temp : Int) : (s.refreshSample temp).hbm.hostHeld = s.hbm.hostHeld := by
  unfold State.refreshSample State.rateActivity
  extract_lets h want since now
  split
  · rfl
  split
  · rfl
  · rfl

/-- An abort leaves the requests as they are, where no host access waits for the banks that it releases. -/
theorem nmuDrop_rq {s : State} (empty : s.hbm.hostHeld = []) (w ch : Nat) :
    (s.nmuDrop w ch).hbm.hostHeld = [] ∧ (s.nmuDrop w ch).rq = s.rq := by
  unfold State.nmuDrop
  extract_lets n a
  split
  · exact ⟨empty, rfl⟩
  · have moved : ArbsMoved (s.setNmu w ch { n with st := .abort, writes := [], recs := [], till := s.timer + abortTime }) a :=
      releaseBanks_arbsMoved (s := s.setNmu w ch { n with st := .abort, writes := [], recs := [], till := s.timer + abortTime }) empty w ch n
    clear_value a
    obtain ⟨arbs, pd, rfl⟩ := moved
    exact ⟨empty, rfl⟩

theorem nmuAbortAll_rq {s : State} (empty : s.hbm.hostHeld = []) : s.nmuAbortAll.rq = s.rq := by
  have aborts (l : List (Nat × Nmu)) (s : State) (empty : s.hbm.hostHeld = []) :
      (l.foldl (fun (s : State) n => s.nmuAbort (n.1 / 32) (n.1 % 32)) s).rq = s.rq := by
    induction l generalizing s with
    | nil => rfl
    | cons n l ih =>
      rw [List.foldl_cons]
      by_cases computing : (s.nmu (n.1 / 32) (n.1 % 32)).st = .compute
      · obtain ⟨held, rq⟩ := nmuDrop_rq empty (n.1 / 32) (n.1 % 32)
        rw [State.nmuAbort, if_pos computing]
        exact (ih _ held).trans rq
      · rw [State.nmuAbort, if_neg computing]
        exact ih _ empty
  exact aborts _ s empty

theorem event_hostHeld (s : State) (e : Event) : (s.event e).hbm.hostHeld = s.hbm.hostHeld := by
  unfold State.event
  extract_lets recent bytes size _ a b c _ d
  have hb : b.hbm = s.hbm := by
    unfold b
    split
    · split <;> rfl
    · rfl
  have hd : d.hbm = b.hbm := by
    unfold d
    split <;> rfl
  split
  · rfl
  split
  · exact congrArg HbmSt.hostHeld hb
  · exact (congrArg HbmSt.hostHeld (hd.trans hb) : d.hbm.hostHeld = _)

theorem powerEvent_hostHeld (s : State) (code subj : Nat) (detail : List Byte) :
    (s.powerEvent code subj detail).hbm.hostHeld = s.hbm.hostHeld := event_hostHeld ..

theorem powerEvent_rq (s : State) (code subj : Nat) (detail : List Byte) : (s.powerEvent code subj detail).rq = s.rq := event_rq ..

/-- A warning of a group moves what has been warned of, alone. -/
theorem thermWarn_kept (s : State) (group : Nat) (level : Int) (x : Nat × Int) : ∃ warned,
    (s.thermWarn group level x).pwr = { s.pwr with warned } ∧ (s.thermWarn group level x).rq = s.rq ∧
    (s.thermWarn group level x).hbm.hostHeld = s.hbm.hostHeld := by
  unfold State.thermWarn
  dsimp only
  split
  · exact ⟨_, powerEvent_pwr .., event_rq .., event_hostHeld ..⟩
  split
  · exact ⟨_, rfl, rfl, rfl⟩
  · exact ⟨_, rfl, rfl, rfl⟩

theorem meanTemps_kept (s : State) (l : List (Nat × Int)) : ∃ temps tsums tcount, (s.meanTemps l) =
    { s with pwr := { s.pwr with temps, tsums, tcount } } := by
  unfold State.meanTemps
  extract_lets sums n
  split
  · exact ⟨_, _, _, rfl⟩
  · exact ⟨_, _, _, rfl⟩

/-- The state of the power unit at a sample, with the group warnings of its hottest sensors `a` and `h`. -/
def State.warmed (s : State) (l : List (Nat × Int)) (a h : Nat × Int) : State :=
  (((s.meanTemps l).refreshSample h.2).thermWarn 0 95 a).thermWarn 1 92 h

theorem warmed_kept (s : State) (l : List (Nat × Int)) (a h : Nat × Int) : ∃ temps tsums tcount warned,
    (s.warmed l a h).pwr = { s.pwr with temps, tsums, tcount, warned } ∧ (s.warmed l a h).rq = s.rq ∧
    (s.warmed l a h).hbm.hostHeld = s.hbm.hostHeld := by
  obtain ⟨temps, tsums, tcount, means⟩ := meanTemps_kept s l
  have sampled := refreshSample_kept (s.meanTemps l) h.2
  have pwr := sampled.keeps (p := .pwr) (by simp)
  have rq := sampled.keeps (p := .rq) (by simp)
  have held := refreshSample_hostHeld (s.meanTemps l) h.2
  obtain ⟨warned, pwr', rq', held'⟩ := thermWarn_kept ((s.meanTemps l).refreshSample h.2) 0 95 a
  obtain ⟨warned', pwr'', rq'', held''⟩ := thermWarn_kept (((s.meanTemps l).refreshSample h.2).thermWarn 0 95 a) 1 92 h
  refine ⟨temps, tsums, tcount, warned', ?_, ?_, ?_⟩
  · rw [State.warmed, pwr'', pwr', pwr, means]
  · rw [State.warmed, rq'', rq', rq, means]
  · rw [State.warmed, held'', held', held, means]

/-- The throttle level of the logic dies is set, and a rise is counted and told. -/
def State.throttled (s : State) (lvl : Nat) (a : Nat × Int) : State :=
  if s.pwr.throt < lvl then
    (({ s with pwr := { s.pwr with throt := lvl } } : State).count 0x2020 5).powerEvent 4 a.1 (leBytes 1 lvl ++ leBytes 2 a.2.toNat)
  else { s with pwr := { s.pwr with throt := lvl } }

theorem throttled_kept (s : State) (lvl : Nat) (a : Nat × Int) : (s.throttled lvl a).pwr = { s.pwr with throt := lvl } ∧
    (s.throttled lvl a).rq = s.rq ∧ (s.throttled lvl a).hbm.hostHeld = s.hbm.hostHeld := by
  unfold State.throttled
  split
  · exact ⟨powerEvent_pwr .., event_rq .., event_hostHeld ..⟩
  · exact ⟨rfl, rfl, rfl⟩

/-- The level of the stacks is set; where they become hot, that is counted and told, and the near-memory units stop. -/
def State.stacksHot (s : State) (hot : Bool) (h : Nat × Int) : State :=
  if hot && !s.pwr.hbmHot then
    ((({ s with pwr := { s.pwr with hbmHot := hot } } : State).count 0x2020 5).powerEvent 4 h.1 (leBytes 1 1 ++ leBytes 2 h.2.toNat)).nmuAbortAll
  else { s with pwr := { s.pwr with hbmHot := hot } }

theorem stacksHot_kept (s : State) (hot : Bool) (h : Nat × Int) : (s.stacksHot hot h).pwr = { s.pwr with hbmHot := hot } ∧
    (s.hbm.hostHeld = [] → (s.stacksHot hot h).rq = s.rq) := by
  unfold State.stacksHot
  split
  · refine ⟨?_, fun empty => ?_⟩
    · refine (Within.keeps (l := [.pwr]) (p := .pwr) (by apply State.nmuAbortAll_within (hs := .refl _ _) <;> rfl) (by simp)).trans ?_
      exact powerEvent_pwr ..
    · rw [nmuAbortAll_rq (by rw [powerEvent_hostHeld]; exact empty), powerEvent_rq]
      rfl
  · exact ⟨rfl, fun _ => rfl⟩

section
variable {s : State} (powered : s.boot.powered = true) (out : s.boot.perst = false) (free : s.pwr.trip = false) (t : Nat) (temps : List Int)
include powered out free

/-- The hottest sensor of the logic dies, or of the HBM stacks, at its trip level. -/
theorem exec_thermalSample_trip
    (hot : 115 ≤ (hottest ((temps.zipIdx.map fun x => (x.2, x.1)).filter fun x => decide (x.1 ≤ 4))).2 ∨
      100 ≤ (hottest ((temps.zipIdx.map fun x => (x.2, x.1)).filter fun x => decide (5 ≤ x.1) && decide (x.1 ≤ 28))).2) :
    ∃ sensor temp, exec (.thermalSample t temps) s = .next ((s.arrive t).thermalTrip sensor temp) := by
  change ∃ sensor temp, execThermalSample t temps s = _
  unfold execThermalSample
  dsimp only
  rw [if_neg (by simp [powered, out, free])]
  split
  · exact ⟨_, _, rfl⟩
  next cool => exact ⟨_, _, if_pos (hot.resolve_left cool)⟩

/-- Below the trip levels the throttle levels follow the hottest sensors. -/
theorem exec_thermalSample_cool (ready : s.ready = true)
    (logic : (hottest ((temps.zipIdx.map fun x => (x.2, x.1)).filter fun x => decide (x.1 ≤ 4))).2 < 115)
    (cool : (hottest ((temps.zipIdx.map fun x => (x.2, x.1)).filter fun x => decide (5 ≤ x.1) && decide (x.1 ≤ 28))).2 < 100) :
    Yields (.thermalSample t temps) s fun v =>
      let a := hottest ((temps.zipIdx.map fun x => (x.2, x.1)).filter fun x => decide (x.1 ≤ 4))
      let h := hottest ((temps.zipIdx.map fun x => (x.2, x.1)).filter fun x => decide (5 ≤ x.1) && decide (x.1 ≤ 28))
      v.pwr.throt = throttleLevel s.pwr.throt a.2 ∧ v.pwr.hbmHot = (decide (95 ≤ h.2) || (s.pwr.hbmHot && decide (92 ≤ h.2))) ∧
        v.pwr.trip = false ∧ (s.hbm.hostHeld = [] → v.rq = s.rq) := by
  extract_lets a h
  let l := temps.zipIdx.map fun x => (x.2, x.1)
  let x := (s.arrive t).warmed l a h
  let y := x.throttled (throttleLevel x.pwr.throt a.2) a
  have run : exec (.thermalSample t temps) s = .next (y.stacksHot (decide (95 ≤ h.2) || (y.pwr.hbmHot && decide (92 ≤ h.2))) h) := by
    change execThermalSample t temps s = _
    unfold execThermalSample
    dsimp only
    rw [if_neg (by simp [powered, out, free]), if_neg (Int.not_le.2 logic), if_neg (Int.not_le.2 cool), if_neg (by simp [ready])]
    rfl
  obtain ⟨temps', tsums, tcount, warned, xpwr, xrq, xheld⟩ := warmed_kept (s.arrive t) l a h
  obtain ⟨ypwr, yrq, yheld⟩ := throttled_kept x (throttleLevel x.pwr.throt a.2) a
  obtain ⟨vpwr, vrq⟩ := stacksHot_kept y (decide (95 ≤ h.2) || (y.pwr.hbmHot && decide (92 ≤ h.2))) h
  have pwr : y.pwr = { s.pwr with temps := temps', tsums, tcount, warned, throt := throttleLevel s.pwr.throt a.2 } := by
    rw [ypwr, xpwr, State.arrive_pwr]
  refine .of_exec run ⟨?_, ?_, ?_, fun empty => ?_⟩
  · rw [vpwr, pwr]
  · rw [vpwr, pwr]
  · rw [vpwr, pwr]; exact free
  · rw [vrq (by rw [yheld, xheld, State.arrive_hbm, empty]), yrq, xrq, State.arrive_rq]

end

/-! ### Supply levels and the governor (R450, R456, R464) -/

/-- New levels of the warning and of the sag leave the stage, and the time of a warning that stands. -/
theorem setLevels_pwr (s : State) (warn : Bool) (percent : Nat) : (s.setLevels warn percent).pwr.warn = warn ∧
    (s.setLevels warn percent).pwr.sag = percent ∧ (s.setLevels warn percent).pwr.stage = s.pwr.stage ∧
    (s.setLevels warn percent).pwr.warnAt = if warn && !s.pwr.warn then s.timer else s.pwr.warnAt := by
  unfold State.setLevels
  extract_lets x was since _ p q y
  have hp : p.warn = warn ∧ p.sag = percent ∧ p.stage = s.pwr.stage ∧ p.warnAt = if warn && !s.pwr.warn then s.timer else s.pwr.warnAt :=
    ⟨rfl, rfl, rfl, rfl⟩
  have hq : q.warn = warn ∧ q.sag = percent ∧ q.stage = s.pwr.stage ∧ q.warnAt = if warn && !s.pwr.warn then s.timer else s.pwr.warnAt := by
    unfold q
    split
    · exact hp
    · exact hp
  split
  · exact hq
  · exact hq

/-- The state in which a rise begins, with the ballast of its added current counted where it is allowed. -/
def State.rising (s : State) (amps : Nat) : State :=
  if s.ballastSpent.pwr.ballast then
    s.ballastSpent.countBy 0x2020 3 (amps * amps * s.ballastSpent.boot.mv / (2 * max 1 s.ballastSpent.pwr.slew * 1000000))
  else s.ballastSpent

theorem rising_kept (s : State) (amps : Nat) : (s.rising amps).pwr = { s.pwr with excessAt := max s.pwr.excessAt s.timer } ∧
    (s.rising amps).atWork = s.atWork ∧ (s.rising amps).timer = s.timer ∧ (s.rising amps).rq = s.rq := by
  unfold State.rising
  split
  · exact ⟨rfl, rfl, rfl, rfl⟩
  · exact ⟨rfl, rfl, rfl, rfl⟩

/-- The rise for a slot begins once (R450). -/
theorem exec_governorRiseStart {s : State} (ready : s.ready = true) {slot : Nat} {e : Slot}
    (found : s.slots.find? (fun e => e.1 == slot) = some (slot, e)) (fresh : slot ∉ s.pwr.rises) (t : Nat) :
    ∃ x, x = (s.arrive t).rising (max s.pwr.level (levelOf (e :: (s.arrive t).atWork)) - s.pwr.level) ∧
      exec (.governorRiseStart t slot) s = .next { x with
        pwr := { x.pwr with
          rises := slot :: x.pwr.rises, level := max s.pwr.level (levelOf (e :: (s.arrive t).atWork))
          excess := max s.pwr.level (levelOf (e :: (s.arrive t).atWork)) - levelOf x.atWork
          excessAt := x.timer + 16 * x.slopeTicks (max s.pwr.level (levelOf (e :: (s.arrive t).atWork)) - s.pwr.level) } } := by
  refine ⟨_, rfl, ?_⟩
  have found' : (s.arrive t).slots.find? (fun e => e.1 == slot) = some (slot, e) := by rw [arrive_eq]; exact found
  have level : s.pwr.level = (s.arrive t).pwr.level := by rw [State.arrive_pwr]
  change execGovernorRiseStart t slot s = _
  unfold execGovernorRiseStart
  dsimp only
  rw [found', level]
  exact if_neg (by simp [ready, fresh])

/-- Settles O45, sample by sample and command by command. -/
theorem powerAndTemperatureSamplesAct : Obligations.PowerAndTemperatureSamplesAct := by
  unfold Obligations.PowerAndTemperatureSamplesAct
  intro s t u
  have pwr : u.pwr = s.pwr := State.arrive_pwr ..
  refine ⟨fun watts ready => ?power, fun temps => ?thermal, fun powered => ?supply, fun w ready => ?governor, fun slot e ready found fresh => ?rise⟩
  case power =>
    obtain ⟨samples, reading⟩ := limited_kept u watts
    rw [pwr] at samples reading
    refine ⟨fun m => ?_, .of_exec (exec_powerSample_none ready t watts) ⟨samples, reading, fun full off above => ?_⟩⟩
    · obtain ⟨x, rfl, run⟩ := exec_powerSample_some ready t watts m
      exact .of_exec run ⟨samples, rfl⟩
    · have pdNum : u.pdNum 0x2001 0 = s.pdNum 0x2001 0 := arrive_pdNum ..
      have engages := limited_engages (s := u) (watts := watts)
      rw [pwr, pdNum] at engages
      exact engages full off above
  case thermal =>
    intro l a h powered out free
    refine ⟨fun hot => ?_, fun logic cool ready => exec_thermalSample_cool powered out free t temps ready logic cool⟩
    obtain ⟨sensor, temp, run⟩ := exec_thermalSample_trip powered out free t temps hot
    exact .of_exec run ⟨rfl, rfl, rfl⟩
  case supply =>
    have up : u.boot.powered = true := by rw [State.arrive_boot, powered]
    have assert : exec (.pwrWarnAssert t) s = .next (u.setLevels true u.pwr.sag) := congrArg Host.Outcome.next (if_pos up)
    have deassert : exec (.pwrWarnDeassert t) s = .next (u.setLevels false u.pwr.sag) := congrArg Host.Outcome.next (if_pos up)
    refine ⟨.of_exec assert ?_, .of_exec deassert ?_, fun percent => ?_⟩
    · obtain ⟨warn, sag, stage, warnAt⟩ := setLevels_pwr u true u.pwr.sag
      refine ⟨warn, by rw [sag, pwr], by rw [stage, pwr], ?_⟩
      rw [warnAt, pwr]
      cases s.pwr.warn <;> rfl
    · obtain ⟨warn, sag, stage, -⟩ := setLevels_pwr u false u.pwr.sag
      exact ⟨warn, by rw [sag, pwr], by rw [stage, pwr]⟩
    · have sagged : exec (.supplySag t percent) s = .next (u.setLevels u.pwr.warn percent) := congrArg Host.Outcome.next (if_pos up)
      obtain ⟨warn, sag, stage, -⟩ := setLevels_pwr u u.pwr.warn percent
      exact .of_exec sagged ⟨sag, by rw [warn, pwr], by rw [stage, pwr]⟩
  case governor =>
    have run : exec (.govCtlWrite t w) s = .next (u.writeGovCtl w.toNat) := congrArg Host.Outcome.next (if_pos (by simp [ready]))
    refine ⟨fun isOpen => ?_, fun locked => ?_⟩
    · rw [State.writeGovCtl, if_neg (by rw [pwr, isOpen]; exact Bool.false_ne_true)] at run
      refine .of_exec run ?_
      rw [← pwr]
      rfl
    · rw [State.writeGovCtl, if_pos (by rw [pwr, locked])] at run
      exact run
  case rise =>
    obtain ⟨x, rfl, run⟩ := exec_governorRiseStart ready found fresh t
    obtain ⟨xpwr, atWork, timer, rq⟩ := rising_kept u (max s.pwr.level (levelOf (e :: u.atWork)) - s.pwr.level)
    refine .of_exec run ⟨rq.trans (State.arrive_rq ..), ?_⟩
    dsimp only
    have slope : ∀ n, ((s.arrive t).rising (max s.pwr.level (levelOf (e :: u.atWork)) - s.pwr.level)).slopeTicks n = u.slopeTicks n := by
      intro n
      unfold State.slopeTicks
      rw [xpwr]
    rw [slope, atWork, timer, xpwr, pwr]

end Sys2Proof.Machine

namespace Sys2Proof.Machine

/-! ### Shedding (R456 to R460) -/

/-- What the work of the slots leaves of the power unit: the governor alone moves it, in its level. -/
def PwrSt.sansLevel (p : PwrSt) : PwrSt := { p with level := 0, excess := 0, excessAt := 0 }

/-- The stage of the node, its highest stage, the time of its entry, orders and holds, and all else but the governor's level stand. -/
def StageKept (s t : State) : Prop := t.pwr.sansLevel = s.pwr.sansLevel

theorem StageKept.refl (s : State) : StageKept s s := rfl

theorem StageKept.trans {a b c : State} (h : StageKept a b) (k : StageKept b c) : StageKept a c := Eq.trans k h

theorem StageKept.of_within {s t : State} (h : Within (keeping [.pwr]) s t) : StageKept s t :=
  congrArg PwrSt.sansLevel (h.keeps (p := .pwr) (by simp))

theorem StageKept.foldl {α : Type} {a b : State} {f : State → α → State} {l : List α} (h : StageKept a b) (k : ∀ s x, StageKept s (f s x)) :
    StageKept a (l.foldl f b) := by
  induction l generalizing b with
  | nil => exact h
  | cons x l ih => exact ih (h.trans (k b x))

theorem govern_stageKept (s : State) : StageKept s s.govern := by
  obtain ⟨_, _, _, h⟩ := govern_pwr s
  rw [StageKept, h]; rfl

theorem slotOver_stageKept (s : State) (r : SlotRun) (e : Slot) : StageKept s (s.slotOver r e) := by
  unfold State.slotOver
  extract_lets a b
  have ha : Within (keeping [.pwr]) s a := by
    unfold a; split
    · apply State.dropGrants_within (hs := .refl _ s); rfl
    · exact .refl _ s
  have hb : Within (keeping [.pwr]) s b := by apply State.chargeTiles_within (hs := ha) <;> rfl
  have hc : Within (keeping [.pwr]) s (if e.opclass = 4 then b.countSlot e else b) := by
    split
    · apply State.countSlot_within (hs := hb) <;> rfl
    · exact hb
  have hd : Within (keeping [.pwr]) s (if e.opclass = 4 then b.countSlot e else b).drainOps := by
    apply State.drainOps_within (hs := hc) <;> rfl
  exact (StageKept.of_within hd).trans (govern_stageKept _)

theorem endSlot_stageKept (s : State) (slot : Nat) (e : Slot) : StageKept s (s.endSlot slot e) := by
  unfold State.endSlot
  extract_lets a r
  have ha : StageKept s a := by
    unfold a
    split
    · exact .of_within (by apply State.flushSlot_within (hs := .refl _ s) <;> rfl)
    · exact .refl s
  exact ha.trans (StageKept.trans (b := a.setRun { r with ended := true }) rfl (slotOver_stageKept ..))

theorem endOver_stageKept (s : State) (r : SlotRun) : StageKept s (s.endOver r) := by
  unfold State.endOver
  split
  · exact .refl s
  extract_lets _ a
  split
  · rfl
  split
  · rfl
  · exact StageKept.trans (b := a) rfl (slotOver_stageKept ..)

theorem stopWork_stageKept (s : State) : StageKept s s.stopWork :=
  StageKept.foldl (StageKept.foldl (.refl s) fun t r => endOver_stageKept t r) fun t e => endSlot_stageKept t e.1 e.2

/-- Whatever a stage stops, the stages stand (R456). -/
theorem stageAction_stageKept (s : State) (stage : Nat) : StageKept s (s.stageAction stage) := by
  unfold State.stageAction
  split
  · rfl
  split
  · exact .of_within (by apply State.nmuAbortAll_within (hs := .refl _ s) <;> rfl)
  split
  · extract_lets a b
    have ha : StageKept s a := (stopWork_stageKept s).trans (.of_within (by apply State.endEverything_within (hs := .refl _ _) <;> rfl))
    have hb : StageKept a b := .foldl (.refl a) fun t l => .of_within (by apply State.writeBackNow_within (hs := .refl _ t) <;> rfl)
    exact (ha.trans hb).trans (.foldl (.refl b) fun t ch => .of_within (by apply State.dmaShed_within (hs := .refl _ t) <;> rfl))
  · exact .refl s

theorem readmit_kept (s : State) : s.readmit.pwr = s.pwr ∧ s.readmit.sec = s.sec := by
  have kept : Within (keeping [.pwr, .sec]) s s.readmit := by apply State.readmit_within (hs := .refl _ s) <;> rfl
  exact ⟨kept.keeps (p := .pwr) (by simp), kept.keeps (p := .sec) (by simp)⟩

theorem pumpAll_pwr (s : State) : s.pumpAll.pwr = s.pwr :=
  Within.keeps (l := [.pwr]) (p := .pwr) (by apply State.pumpAll_within (hs := .refl _ s) <;> rfl) (by simp)

/-- Neither the admission of what waited nor the pumps move the power unit. -/
theorem readmit_pumpAll_pwr (s : State) : s.readmit.pumpAll.pwr = s.pwr := (pumpAll_pwr _).trans (readmit_kept s).1

/-- RESUME ends the hold and leaves IDLE as it was (R458). -/
theorem writePwrCtl_resume_pwr {s : State} (held : s.pwr.held = true) (idle : s.pwr.idle = false) :
    (s.writePwrCtl 1).pwr = { s.pwr with held := false } := by
  unfold State.writePwrCtl
  extract_lets _ a _ b _ _ c
  have ha : a = { s with pwr := { s.pwr with held := false } } := if_pos ⟨by decide, held⟩
  have hb : b = a := if_neg (by decide)
  have hc : c = b := (if_neg (by decide)).trans (if_neg (by simp [hb, ha, idle]))
  rw [readmit_pumpAll_pwr, hc, hb, ha]

section
variable {s : State} {v : Nat} (resume : bitAt v 0 = false) (lock : bitAt v 31 = false)
include resume lock

/-- IDLE, where neither composition nor schedule nor stage stands against it, is stage 7 (R460). -/
theorem writePwrCtl_idle_pwr (idle : bitAt v 1 = true) (en : s.sch.en = false)
    (none : ∀ k ∈ s.cmp.comps, k.2.st ≠ .active ∧ k.2.st ≠ .shrinking) (stage : s.pwr.stage = 0) :
    (s.writePwrCtl v).pwr = { s.pwr with stage := 7, stagehi := max s.pwr.stagehi 7, stageAt := s.timer, idle := true } := by
  have quiet : ¬ ((s.sch.en || s.cmp.comps.any fun k => k.2.st == .active || k.2.st == .shrinking) = true ∨ s.pwr.stage ≠ 0) := by
    simpa [en, stage] using none
  unfold State.writePwrCtl
  extract_lets _ a _ b busy _ c
  have ha : a = s := if_neg (by simp [resume])
  have hb : b = s := (if_neg (by simp [lock])).trans ha
  have hc : c.pwr = { s.pwr with stage := 7, stagehi := max s.pwr.stagehi 7, stageAt := s.timer, idle := true } := by
    have quiet' : ¬ (busy = true ∨ b.pwr.stage ≠ 0) := by unfold busy; rw [hb]; exact quiet
    unfold c
    rw [if_pos idle, if_neg quiet', hb]
    rfl
  rw [readmit_pumpAll_pwr, hc]

/-- Clearing IDLE leaves for stage 0 (R460). -/
theorem writePwrCtl_idleClear_pwr (clear : bitAt v 1 = false) (idle : s.pwr.idle = true) :
    (s.writePwrCtl v).pwr = { s.pwr with idle := false, stage := 0, stageAt := s.timer } := by
  unfold State.writePwrCtl
  extract_lets _ a _ b _ _ c
  have ha : a = s := if_neg (by simp [resume])
  have hb : b = s := (if_neg (by simp [lock])).trans ha
  have hc : c = { b with pwr := { b.pwr with idle := false, stage := 0, stageAt := b.timer } } :=
    (if_neg (by simp [clear])).trans (if_pos (by rw [hb, idle]))
  rw [readmit_pumpAll_pwr, hc, hb]

end

/-- The stage that a deeper trigger enters, and what it notes (R456). -/
theorem shedStageEnter_stage {s : State} {t stage top : Nat} (htop : top = ((List.range 7).filter fun n => (s.arrive t).trigger n).foldl max 0)
    (ready : s.ready = true) (off : s.pwr.off = false) (trigger : (s.arrive t).trigger stage = true) (below : s.pwr.stage < 6)
    (deeper : s.pwr.stage < top) : Yields (.shedStageEnter t stage) s fun v => v.pwr.sansLevel = ((s.arrive t).noteStage top).pwr.sansLevel := by
  have go : ¬ (!(s.arrive t).ready ∨ (s.arrive t).pwr.off ∨ !(s.arrive t).trigger stage ∨ 6 ≤ (s.arrive t).pwr.stage ∨
      top ≤ (s.arrive t).pwr.stage) := by simp [ready, off, trigger]; omega
  subst htop
  refine .of_exec (if_neg go) ?_
  rw [powerEvent_pwr]
  exact StageKept.foldl (.refl _) stageAction_stageKept

/-- Settles O46: by the fields that the work of a stage leaves in the power unit, and by what a write of PWR_CTL makes of it. -/
theorem sheddingStagesAndHoldover : Obligations.SheddingStagesAndHoldover := by
  intro s t u ready
  have hready : u.ready = true := by simp [u, ready]
  refine ⟨?enter, fun six done => ?end6, fun one five held warn sag calm => ?leave,
    fun seven idle clean calm => ?exit, fun held idle => ?resume, fun w resume lock => ⟨fun idle en none stage => ?idle, fun clear idle => ?clear⟩,
    fun powered => ?restart⟩
  case enter =>
    intro stage top off trigger below deeper
    refine (shedStageEnter_stage (top := top) rfl ready off trigger below deeper).imp fun v kept => ?_
    have hstage : v.pwr.stage = top := congrArg PwrSt.stage kept
    have hhi : v.pwr.stagehi = max s.pwr.stagehi top := (congrArg PwrSt.stagehi kept).trans (by simp [State.noteStage, PwrSt.sansLevel])
    have hat : v.pwr.stageAt = u.timer := congrArg PwrSt.stageAt kept
    refine ⟨hstage, hhi, hat, hstage ▸ (le_foldl_max id _ 0).2 stage (List.mem_filter.mpr ⟨?_, trigger⟩)⟩
    have : stage ≤ 6 := by simp [State.trigger] at trigger; omega
    simpa using Nat.lt_succ_of_le this
  case end6 =>
    have go : ¬ (u.pwr.stage ≠ 6 ∨ !u.ready ∨ (!u.shedDone ∧ u.timer < u.pwr.stageAt + 50 * us)) := by
      rcases done with done | done <;> simp [hready, done, u, six]
    refine .of_exec (if_neg go) ?_
    rw [powerEvent_pwr]
    simp [State.noteStage, u]
  case leave =>
    have go : ¬ (u.pwr.stage = 0 ∨ 5 < u.pwr.stage ∨ u.pwr.held ∨
        !(!u.pwr.warn && decide (u.pwr.sag < 2) && decide (lookD u.pwr.lastHeld u.pwr.stage 0 + ms ≤ u.timer)) ∨ !u.ready) := by
      have calm' : lookD u.pwr.lastHeld u.pwr.stage 0 + ms ≤ u.timer := by simpa [u] using calm
      rw [decide_eq_true calm']
      simp [hready, u, held, warn, sag]
      omega
    refine .of_exec (if_neg go) ?_
    rw [(readmit_kept _).1, powerEvent_pwr]
    simp [u]
  case exit =>
    have go : ¬ (u.pwr.stage ≠ 7 ∨ u.pwr.idle ∨ !u.ready ∨ !u.pwr.clean ∨ u.timer < u.pwr.cleanAt + 10 * ms) := by
      have calm' : ¬ u.timer < u.pwr.cleanAt + 10 * ms := by simpa [u] using calm
      simp only [calm', hready]
      simp [u, seven, idle, clean]
    refine .of_exec (if_neg go) ?_
    rw [powerEvent_pwr]
    simp [u]
  case resume =>
    refine .of_exec (congrArg Host.Outcome.next (if_pos hready)) ?_
    have word : 1 + flagAt u.pwr.idle 1 = 1 := by simp [u, idle, flagAt]
    rw [word, writePwrCtl_resume_pwr (by simpa [u] using held) (by simpa [u] using idle)]
    simp
  case idle =>
    refine .of_exec (congrArg Host.Outcome.next (if_pos hready)) ?_
    rw [writePwrCtl_idle_pwr resume lock idle (by simpa [u] using en) (by simpa [u] using none) (by simpa [u] using stage)]
    exact ⟨rfl, rfl⟩
  case clear =>
    refine .of_exec (congrArg Host.Outcome.next (if_pos hready)) ?_
    rw [writePwrCtl_idleClear_pwr resume lock clear (by simpa [u] using idle)]
    simp [u]
  case restart =>
    have up : u.boot.powered = true ∧ (!u.boot.perst) = true := by
      simp [State.ready] at ready
      simp [u, powered, ready]
    refine .of_exec (congrArg Host.Outcome.next (if_pos up)) ?_
    obtain ⟨hpwr, hsec⟩ := readmit_kept { u with sec := { u.sec with up := true } }
    exact ⟨hsec.trans (by simp [u]), hpwr.trans (by simp [u])⟩

end Sys2Proof.Machine

namespace Sys2Proof.Machine

/-! ### Compositions as operations leave them (R357, R370, R372) -/

@[simp] theorem arrive_comp? (s : State) (t c : Nat) : (s.arrive t).comp? c = s.comp? c := by rw [arrive_eq]; rfl

theorem comp?_setComp (s : State) (c e : Nat) (f : Comp → Comp) :
    (s.setComp c f).comp? e = if e = c then (s.comp? c).map f else s.comp? e := by
  unfold State.setComp
  cases h : s.comp? c with
  | none =>
    by_cases same : e = c
    · simp [same, h]
    · simp [same]
  | some k =>
    by_cases same : e = c
    · subst same; rw [if_pos rfl]; exact look_put_same ..
    · rw [if_neg same]; exact look_put_other _ _ _ _ same

theorem comp?_setComp_same {s : State} {c : Nat} {k : Comp} (of : s.comp? c = some k) (f : Comp → Comp) : (s.setComp c f).comp? c = some (f k) := by
  rw [comp?_setComp, if_pos rfl, of]; rfl

theorem comp?_setComp_other (s : State) {c e : Nat} (other : e ≠ c) (f : Comp → Comp) : (s.setComp c f).comp? e = s.comp? e := by
  rw [comp?_setComp, if_neg other]

/-- A composition stays as it is but for the time of its last charge, and where it shrank it may serve again. -/
def Comp.Eases (k l : Comp) : Prop := ∃ since st, l = { k with since, st } ∧ (st = k.st ∨ k.st = .shrinking ∧ st = .active)

theorem Comp.Eases.refl (k : Comp) : k.Eases k := ⟨_, _, rfl, .inl rfl⟩

theorem Comp.Eases.trans {k l m : Comp} (h : k.Eases l) (g : l.Eases m) : k.Eases m := by
  obtain ⟨since, st, rfl, hst⟩ := h
  obtain ⟨since', st', rfl, hst'⟩ := g
  refine ⟨since', st', rfl, ?_⟩
  rcases hst' with rfl | ⟨shrinks, rfl⟩
  · exact hst
  · rcases hst with rfl | ⟨_, rfl⟩
    · exact .inr ⟨shrinks, rfl⟩
    · cases shrinks

/-- Every composition eases. -/
def CompsEase (s t : State) : Prop := ∀ e k, s.comp? e = some k → ∃ l, t.comp? e = some l ∧ k.Eases l

theorem CompsEase.of_cmp {s t : State} (h : t.cmp.comps = s.cmp.comps) : CompsEase s t :=
  fun e k of => ⟨k, by rw [State.comp?, h]; exact of, .refl k⟩

theorem CompsEase.refl (s : State) : CompsEase s s := .of_cmp rfl

theorem CompsEase.trans {a b c : State} (h : CompsEase a b) (g : CompsEase b c) : CompsEase a c := by
  intro e k of
  obtain ⟨l, of', hk⟩ := h e k of
  obtain ⟨m, of'', hl⟩ := g e l of'
  exact ⟨m, of'', hk.trans hl⟩

theorem CompsEase.foldl {α : Type} {a b : State} {f : State → α → State} {l : List α} (h : CompsEase a b) (k : ∀ s x, CompsEase s (f s x)) :
    CompsEase a (l.foldl f b) := by
  induction l generalizing b with
  | nil => exact h
  | cons x l ih => exact ih (h.trans (k b x))

theorem CompsEase.setComp (s : State) (c : Nat) {f : Comp → Comp} (h : ∀ k : Comp, k.Eases (f k)) : CompsEase s (s.setComp c f) := by
  intro e k of
  rw [comp?_setComp]
  split
  · next same => subst same; exact ⟨f k, by rw [of]; rfl, h k⟩
  · exact ⟨k, of, .refl k⟩

theorem charge_ease (s : State) (c : Nat) : CompsEase s (s.charge c) := by
  unfold State.charge
  split
  · exact .refl s
  split
  · exact .refl s
  · extract_lets n a b
    exact CompsEase.trans (b := b) (.of_cmp rfl) (.setComp b c fun k => ⟨_, _, rfl, .inl rfl⟩)

theorem dropCommit_ease (s : State) (c : Nat) (st : Status) : CompsEase s (s.dropCommit c st) := by
  unfold State.dropCommit
  extract_lets _ a
  refine CompsEase.foldl (b := a) (.of_cmp rfl) fun t e => .setComp t e fun k => ?_
  by_cases shrinks : k.st = .shrinking
  · rw [if_pos shrinks]; exact ⟨_, _, rfl, .inr ⟨shrinks, rfl⟩⟩
  · rw [if_neg shrinks]; exact .refl k

/-! ### Dissolution (R370, R397) -/

/-- Compositions and the Security Core stand. -/
def CoreKept (s t : State) : Prop := t.cmp.comps = s.cmp.comps ∧ t.sec = s.sec

theorem CoreKept.refl (s : State) : CoreKept s s := ⟨rfl, rfl⟩

theorem CoreKept.trans {a b c : State} (h : CoreKept a b) (k : CoreKept b c) : CoreKept a c := ⟨k.1.trans h.1, k.2.trans h.2⟩

theorem CoreKept.of_within {s t : State} (h : Within (keeping [.cmp, .sec]) s t) : CoreKept s t :=
  ⟨congrArg CompSt.comps (h.keeps (p := .cmp) (by simp)), h.keeps (p := .sec) (by simp)⟩

/-- The state in which a composition is tearing with its cause, before anything of it ends. -/
def State.tearing (s : State) (c : Nat) (st : Status) (cause : TearCause) : State :=
  (if ((s.charge c).comp? c).any fun k => k.st == .shrinking then (s.charge c).dropCommit c st else s.charge c).setComp c fun k =>
    { k with st := .tearing, cause := some cause }

theorem tearing_ease (s : State) (c : Nat) (st : Status) (cause : TearCause) {e : Nat} {k : Comp} (of : s.comp? e = some k) :
    ∃ l, (s.tearing c st cause).comp? e = some (if e = c then { l with st := .tearing, cause := some cause } else l) ∧ k.Eases l := by
  have eases : CompsEase s (if ((s.charge c).comp? c).any fun k => k.st == .shrinking then (s.charge c).dropCommit c st else s.charge c) := by
    split
    · exact (charge_ease s c).trans (dropCommit_ease _ _ _)
    · exact charge_ease s c
  obtain ⟨l, of', hk⟩ := eases e k of
  refine ⟨l, ?_, hk⟩
  by_cases same : e = c
  · subst same; rw [if_pos rfl]; exact comp?_setComp_same of' _
  · rw [if_neg same]; exact (comp?_setComp_other _ same _).trans of'

theorem tearing_sec (s : State) (c : Nat) (st : Status) (cause : TearCause) : (s.tearing c st cause).sec = s.sec := by
  have charged : (s.charge c).sec = s.sec :=
    Within.keeps (l := [.sec]) (p := .sec) (by apply State.charge_within (hs := .refl _ s) <;> rfl) (by simp)
  have dropped : ((s.charge c).dropCommit c st).sec = (s.charge c).sec :=
    Within.keeps (l := [.sec]) (p := .sec) (by apply State.dropCommit_within (hs := .refl _ _); rfl) (by simp)
  unfold State.tearing
  rw [State.setComp_sec]
  split
  · exact dropped.trans charged
  · exact charged

/-- The work of a composition ends: its mailboxes, requests, operations and handoff (R370). -/
def State.endWork (s : State) (c : Nat) (st : Status) : State :=
  let t := ((s.closeBoxes ((s.comp? c).elim 0 (·.desc.vf)) st).endAll (fun _ comp => comp == c) st).endOps c st
  if t.cmp.hand.any fun h => h.comp == c then { t with cmp := { t.cmp with hand := none, hstatus := st } } else t

/-- What works for a composition stops, and its data is forgotten (R370). -/
def State.stopAll (s : State) (c : Nat) (st : Status) : State := ((((s.nmuStop c).stopDma c st).stopQueues c st).revokeAll c).forgetData c

theorem dissolve_eq (s : State) (c : Nat) (st : Status) (cause : TearCause) :
    s.dissolve c st cause = ((s.tearing c st cause).endWork c st).stopAll c st := by
  unfold State.dissolve State.stopAll State.endWork State.tearing
  rfl

theorem endWork_coreKept (s : State) (c : Nat) (st : Status) : CoreKept s (s.endWork c st) := by
  unfold State.endWork
  extract_lets t
  have boxes : Within (keeping [.cmp, .sec]) s (s.closeBoxes ((s.comp? c).elim 0 (·.desc.vf)) st) := by
    apply State.closeBoxes_within (hs := .refl _ s) <;> rfl
  have requests : Within (keeping [.cmp, .sec]) s ((s.closeBoxes ((s.comp? c).elim 0 (·.desc.vf)) st).endAll (fun _ comp => comp == c) st) := by
    apply State.endAll_within (hs := boxes) <;> rfl
  have kept : CoreKept s t := .of_within (by apply State.endOps_within (hs := requests) <;> rfl)
  split
  · exact kept.trans ⟨rfl, rfl⟩
  · exact kept

theorem stopAll_coreKept (s : State) (c : Nat) (st : Status) : CoreKept s (s.stopAll c st) := by
  have nmu : Within (keeping [.cmp, .sec]) s (s.nmuStop c) := by apply State.nmuStop_within (hs := .refl _ s) <;> rfl
  have dma : Within (keeping [.cmp, .sec]) s ((s.nmuStop c).stopDma c st) := by apply State.stopDma_within (hs := nmu) <;> rfl
  have queues : Within (keeping [.cmp, .sec]) s (((s.nmuStop c).stopDma c st).stopQueues c st) := by
    apply State.stopQueues_within (hs := dma) <;> rfl
  have windows : Within (keeping [.cmp, .sec]) s ((((s.nmuStop c).stopDma c st).stopQueues c st).revokeAll c) := by
    apply State.revokeAll_within (hs := queues); rfl
  exact .of_within (by apply State.forgetData_within (hs := windows) <;> rfl)

/-- After a composition is tearing, its end moves no composition and leaves the Security Core (R370, R397). -/
theorem dissolve_coreKept (s : State) (c : Nat) (st : Status) (cause : TearCause) : CoreKept (s.tearing c st cause) (s.dissolve c st cause) :=
  dissolve_eq s c st cause ▸ (endWork_coreKept ..).trans (stopAll_coreKept ..)

/-- A dissolved composition is tearing with its cause, and every other one eases (R370, R397). -/
theorem dissolve_comp? (s : State) (c : Nat) (st : Status) (cause : TearCause) {e : Nat} {k : Comp} (of : s.comp? e = some k) :
    ∃ l, (s.dissolve c st cause).comp? e = some (if e = c then { l with st := .tearing, cause := some cause } else l) ∧ k.Eases l := by
  obtain ⟨l, of', eases⟩ := tearing_ease s c st cause of
  exact ⟨l, by rw [State.comp?, (dissolve_coreKept s c st cause).1]; exact of', eases⟩

theorem dissolve_sec (s : State) (c : Nat) (st : Status) (cause : TearCause) : (s.dissolve c st cause).sec = s.sec :=
  (dissolve_coreKept s c st cause).2.trans (tearing_sec s c st cause)

theorem forgetData_forgets (s : State) (c : Nat) : (∀ x ∈ (s.forgetData c).pg.ctxs, x.comp ≠ c) ∧ ∀ x ∈ (s.forgetData c).rq.corpora, x.comp ≠ c :=
  ⟨fun _ of => bne_iff_ne.mp (List.mem_filter.mp of).2, fun _ of => bne_iff_ne.mp (List.mem_filter.mp of).2⟩

/-- No context and no corpus of a dissolved composition is left (R370). -/
theorem dissolve_forgets (s : State) (c : Nat) (st : Status) (cause : TearCause) :
    (∀ x ∈ (s.dissolve c st cause).pg.ctxs, x.comp ≠ c) ∧ ∀ x ∈ (s.dissolve c st cause).rq.corpora, x.comp ≠ c :=
  dissolve_eq s c st cause ▸ forgetData_forgets _ c

end Sys2Proof.Machine

namespace Sys2Proof.Machine

/-! ### Faults and lifecycle of the Security Core (R378, R379, R388) -/

/-- What the signed configuration keeps, and whether the node is past READY, stand. -/
def StoredKept (s t : State) : Prop := t.pd.stored = s.pd.stored ∧ t.boot.ready = s.boot.ready

theorem StoredKept.trans {a b c : State} (h : StoredKept a b) (k : StoredKept b c) : StoredKept a c := ⟨k.1.trans h.1, k.2.trans h.2⟩

theorem StoredKept.of_within {s t : State} (h : Within (keeping [.pd, .boot]) s t) : StoredKept s t :=
  ⟨congrArg PdSt.stored (h.keeps (p := .pd) (by simp)), congrArg BootSt.ready (h.keeps (p := .boot) (by simp))⟩

theorem store_storedKept (s : State) (npa : Nat) (bytes : List Byte) : StoredKept s (s.store npa bytes) :=
  .of_within (by apply State.store_within (h := .refl _ s) <;> rfl)

theorem event_storedKept (s : State) (e : Event) : StoredKept s (s.event e) := by
  unfold State.event
  extract_lets recent bytes size _ a b c _ d
  split
  · exact ⟨rfl, rfl⟩
  have hb : StoredKept s b := by
    have ha : StoredKept s a := ⟨rfl, rfl⟩
    unfold b
    split
    · split
      · exact ha.trans (.of_within (by apply State.ringQueue_within (hs := .refl _ a); rfl))
      · exact ha
    · exact ha
  split
  · exact hb.trans ⟨rfl, rfl⟩
  have hc : StoredKept s c := hb.trans ⟨rfl, rfl⟩
  have hd : StoredKept s d := by
    unfold d
    split
    · exact hc.trans ⟨rfl, rfl⟩
    · exact hc
  exact (hd.trans (store_storedKept d (d.pdNum 0x4150 1 + 32 * (d.rmo.evHead % size)) bytes)).trans ⟨rfl, rfl⟩

/-- A composition is in service. -/
def Comp.Serves (k : Comp) : Prop := k.st = .active ∨ k.st = .shrinking

/-- A composition is being torn down after a fault. -/
def Comp.Torn (k : Comp) : Prop := k.st = .tearing ∧ k.cause = some .fault

/-- The descriptor of a composition and what it holds of keys stand. -/
def Comp.SameKeys (k l : Comp) : Prop := l.noKey = k.noKey ∧ l.transport = k.transport ∧ l.desc = k.desc

theorem Comp.SameKeys.trans {k l m : Comp} (h : k.SameKeys l) (g : l.SameKeys m) : k.SameKeys m :=
  ⟨g.1.trans h.1, g.2.1.trans h.2.1, g.2.2.trans h.2.2⟩

theorem Comp.Eases.sameKeys {k l : Comp} (h : k.Eases l) : k.SameKeys l := by
  obtain ⟨_, _, rfl, _⟩ := h
  exact ⟨rfl, rfl, rfl⟩

theorem Comp.Eases.serves {k l : Comp} (h : k.Eases l) (serves : k.Serves) : l.Serves := by
  obtain ⟨_, _, rfl, rfl | ⟨_, rfl⟩⟩ := h
  · exact serves
  · exact .inl rfl

theorem Comp.Eases.torn {k l : Comp} (h : k.Eases l) (torn : k.Torn) : l.Torn := by
  obtain ⟨_, _, rfl, rfl | ⟨shrinks, _⟩⟩ := h
  · exact torn
  · exact absurd (torn.1.symm.trans shrinks) (by decide)

/-- A teardown of one composition eases every other (R370). -/
theorem teardown_other {s : State} {c e : Nat} {k : Comp} (other : e ≠ c) (of : s.comp? e = some k) :
    ∃ l, (s.teardown c).comp? e = some l ∧ k.Eases l := by
  unfold State.teardown
  split
  · exact ⟨k, of, .refl k⟩
  split
  · obtain ⟨l, of', eases⟩ := dissolve_comp? (s.count 0x5043 c) c .faultTorndown .fault of
    rw [if_neg other] at of'
    exact ⟨l, by rw [State.comp?, State.event_cmp]; exact of', eases⟩
  split
  · exact ⟨k, (comp?_setComp_other _ other _).trans of, .refl k⟩
  · exact ⟨k, of, .refl k⟩

theorem teardown_of_serves {s : State} {c : Nat} {k : Comp} (of : s.comp? c = some k) (serves : k.Serves) :
    ∃ e, s.teardown c = ((s.count 0x5043 c).dissolve c .faultTorndown .fault).event e := by
  unfold State.teardown
  rw [of]
  exact ⟨_, if_pos serves⟩

/-- A composition in service is torn down with the fault as its cause (R369). -/
theorem teardown_serving {s : State} {c : Nat} {k : Comp} (of : s.comp? c = some k) (serves : k.Serves) :
    ∃ l, (s.teardown c).comp? c = some l ∧ l.Torn ∧ k.SameKeys l := by
  obtain ⟨l, of', eases⟩ := dissolve_comp? (s.count 0x5043 c) c .faultTorndown .fault of
  rw [if_pos rfl] at of'
  obtain ⟨e, run⟩ := teardown_of_serves of serves
  refine ⟨{ l with st := .tearing, cause := some .fault }, ?_, ⟨rfl, rfl⟩, eases.sameKeys⟩
  rw [run, State.comp?, State.event_cmp]
  exact of'

/-- A composition that a fault tears down already stays as it is (R373). -/
theorem teardown_torn {s : State} {c : Nat} {k : Comp} (of : s.comp? c = some k) (torn : k.Torn) : (s.teardown c).comp? c = some k := by
  obtain ⟨st, cause⟩ := torn
  unfold State.teardown
  rw [of]
  dsimp only
  rw [if_neg (by simp [st]), if_pos st, comp?_setComp_same of, if_pos cause]

theorem Comp.Torn.not_serves {k : Comp} (torn : k.Torn) : ¬ k.Serves := by
  obtain ⟨st, _⟩ := torn
  simp [Comp.Serves, st]

/-- Teardowns leave a composition in service or torn, and torn where it was among them. -/
theorem teardowns_tear {l : List Nat} {s : State} {e : Nat} {k : Comp} (of : s.comp? e = some k) (h : k.Torn ∨ k.Serves) :
    ∃ m, (l.foldl (fun s c => s.teardown c) s).comp? e = some m ∧ k.SameKeys m ∧ (m.Torn ∨ e ∉ l ∧ m.Serves ∧ k.Serves) := by
  induction l generalizing s k with
  | nil => exact ⟨k, of, ⟨rfl, rfl, rfl⟩, h.imp_right fun serves => ⟨by simp, serves, serves⟩⟩
  | cons c l ih =>
    have step : ∃ m, (s.teardown c).comp? e = some m ∧ k.SameKeys m ∧ (m.Torn ∨ e ≠ c ∧ m.Serves ∧ k.Serves) := by
      by_cases same : e = c
      · subst same
        rcases h with torn | serves
        · exact ⟨k, teardown_torn of torn, ⟨rfl, rfl, rfl⟩, .inl torn⟩
        · obtain ⟨m, of', torn, keys⟩ := teardown_serving of serves
          exact ⟨m, of', keys, .inl torn⟩
      · obtain ⟨m, of', eases⟩ := teardown_other same of
        exact ⟨m, of', eases.sameKeys, h.imp eases.torn fun serves => ⟨same, eases.serves serves, serves⟩⟩
    obtain ⟨m, of', keys, state⟩ := step
    obtain ⟨n, of'', keys', state'⟩ := ih of' (state.imp_right fun x => x.2.1)
    refine ⟨n, of'', keys.trans keys', state'.imp_right fun ⟨out, serves', serves⟩ => ?_⟩
    obtain ⟨other, _, first⟩ := state.resolve_left fun torn => torn.not_serves serves
    exact ⟨by simp [other, out], serves', first⟩

/-- One change of every composition of a list, each named once. -/
theorem foldl_setComp_comp? {l : List Nat} (once : l.Nodup) (s : State) (f : Comp → Comp) (e : Nat) :
    (l.foldl (fun s c => s.setComp c f) s).comp? e = if e ∈ l then (s.comp? e).map f else s.comp? e := by
  induction l generalizing s with
  | nil => rfl
  | cons c l ih =>
    obtain ⟨out, once⟩ := List.nodup_cons.mp once
    rw [List.foldl_cons, ih once, comp?_setComp]
    by_cases same : e = c
    · subst same; simp [out]
    · simp [same]

/-- The Security Core as its fault leaves it: down, with nothing in its key slots (R378). -/
def SecSt.faulted (x : SecSt) : SecSt :=
  { x with up := false, resets := min 65535 (x.resets + 1), pool := 0, models := [], sessions := [], version := false, caps := false, algs := false }

/-- The keys of a composition are cleared (R378). -/
def Comp.keyless (k : Comp) : Comp := { k with noKey := true, upd := none, grace := false, transport := false }

/-- The keys of every composition are cleared, and the core is down (R378). -/
def State.coreCleared (s : State) : State := (List.range 16).foldl (fun s c => s.setComp c Comp.keyless) { s with sec := s.sec.faulted }

theorem coreCleared_sec (s : State) : s.coreCleared.sec = s.sec.faulted := by
  have kept : Within (keeping [.sec]) { s with sec := s.sec.faulted } s.coreCleared :=
    Within.foldl (.refl _ _) fun _ _ h => State.setComp_within rfl h
  exact kept.keeps (p := .sec) (by simp)

theorem coreCleared_boot (s : State) : s.coreCleared.boot = s.boot := by
  have kept : Within (keeping [.boot]) { s with sec := s.sec.faulted } s.coreCleared :=
    Within.foldl (.refl _ _) fun _ _ h => State.setComp_within rfl h
  exact kept.keeps (p := .boot) (by simp)

theorem coreCleared_comp? (s : State) {e : Nat} (inside : e < 16) : s.coreCleared.comp? e = (s.comp? e).map Comp.keyless := by
  unfold State.coreCleared
  rw [foldl_setComp_comp? List.nodup_range, if_pos (List.mem_range.mpr inside)]
  rfl

/-- The record that the core's fault leaves (R378). -/
def State.faultNoted (s : State) (kind : Nat) : State :=
  s.coreCleared.event { cls := 8, code := 1, subj := 0xFFFFFFFF, detail := leBytes 1 kind }

theorem faultNoted_ready (s : State) (kind : Nat) : (s.faultNoted kind).boot.ready = s.boot.ready := by
  rw [State.faultNoted, (event_storedKept _ _).2, coreCleared_boot]

/-- A fault of the Security Core past READY is raised, tears every composition down and restarts the job (R378, R416). -/
theorem coreFault_of_ready {s : State} (ready : s.boot.ready = true) (kind : Nat) :
    s.coreFault kind = ((List.range 16).foldl (fun s c => s.teardown c)
      ((s.faultNoted kind).raiseScope 6 (s.faultNoted kind).nodeId none)).jobRestart 6 := by
  have passed : ¬ (!(s.faultNoted kind).boot.ready) = true := by simp [faultNoted_ready, ready]
  unfold State.coreFault
  extract_lets _ _ _ c
  have noted : c = s.faultNoted kind := rfl
  rw [← noted] at passed ⊢
  exact if_neg passed

theorem faultRaised_coreKept (s : State) (kind : Nat) :
    CoreKept s.coreCleared ((s.faultNoted kind).raiseScope 6 (s.faultNoted kind).nodeId none) := by
  have raised (x : State) (n : Nat) : CoreKept x (x.raiseScope 6 n none) :=
    .of_within (by apply State.raiseScope_within (hs := .refl _ x) <;> rfl)
  have noted : CoreKept s.coreCleared (s.faultNoted kind) :=
    ⟨congrArg CompSt.comps (State.event_cmp ..), State.event_sec ..⟩
  exact noted.trans (raised ..)

theorem jobRestart_coreKept (s : State) (scope : Nat) : CoreKept s (s.jobRestart scope) :=
  .of_within (by apply State.jobRestart_within (hs := .refl _ s) <;> rfl)

theorem teardowns_sec (l : List Nat) (s : State) : (l.foldl (fun s c => s.teardown c) s).sec = s.sec := by
  have kept : Within (keeping [.sec]) s (l.foldl (fun s c => s.teardown c) s) :=
    Within.foldl (.refl _ s) fun _ _ h => by apply State.teardown_within (hs := h) <;> rfl
  exact kept.keeps (p := .sec) (by simp)

theorem coreFault_sec {s : State} (ready : s.boot.ready = true) (kind : Nat) : (s.coreFault kind).sec = s.sec.faulted := by
  rw [coreFault_of_ready ready, (jobRestart_coreKept _ _).2, teardowns_sec, (faultRaised_coreKept s kind).2, coreCleared_sec]

/-- A fault of the Security Core tears down every composition in service, without a key (R378). -/
theorem coreFault_comp? {s : State} (ready : s.boot.ready = true) (kind : Nat) {c : Nat} {k : Comp} (inside : c < 16)
    (of : s.comp? c = some k) (serves : k.Serves) : ∃ l, (s.coreFault kind).comp? c = some l ∧ l.Torn ∧ k.keyless.SameKeys l := by
  have cleared : ((s.faultNoted kind).raiseScope 6 (s.faultNoted kind).nodeId none).comp? c = some k.keyless := by
    rw [State.comp?, (faultRaised_coreKept s kind).1]
    exact (coreCleared_comp? s inside).trans (by rw [of]; rfl)
  obtain ⟨l, of', keys, state⟩ := teardowns_tear (l := List.range 16) cleared (.inr serves)
  refine ⟨l, ?_, state.resolve_right fun out => out.1 (List.mem_range.mpr inside), keys⟩
  rw [coreFault_of_ready ready, State.comp?, (jobRestart_coreKept _ _).1]
  exact of'

theorem coreFault_restarts {s : State} (ready : s.boot.ready = true) (kind : Nat) :
    (s.coreFault kind).phs.fwdDone = true ∧ (s.coreFault kind).rel.restarted = true := by
  rw [coreFault_of_ready ready]
  exact ⟨jobRestart_fwdDone .., by rw [jobRestart_rel]⟩

/-- A change of the life cycle waits in the core and in the signed configuration (R379). -/
theorem lifeChange_waits (s : State) (target : Bool) :
    (s.lifeChange target).sec = { s.sec with pend := some target } ∧ (0x6001, 0, leBytes 1 (flagAt target 0)) ∈ (s.lifeChange target).pd.stored := by
  unfold State.lifeChange
  refine ⟨State.event_sec .., ?_⟩
  rw [(event_storedKept _ _).1]
  exact List.mem_cons_self

/-- Settles O38: by the core as its fault leaves it, and by the teardowns that follow, which keep what is torn already. -/
theorem securityCoreFaultsAndLifecycle : Obligations.SecurityCoreFaultsAndLifecycle := by
  intro s t up
  have hup : (s.arrive t).sec.up = true := by rw [State.arrive_sec, up]
  refine ⟨fun ready cmd fault => ?fault, fun m valid session life => ?closes, fun life => ?opens, fun full => ?pool, fun c k one active bare => ?key⟩
  case fault =>
    have hready : (s.arrive t).boot.ready = true := by rw [State.arrive_boot, ready]
    have run : ∃ kind, exec cmd s = .next ((s.arrive t).coreFault kind) := by
      rcases fault with rfl | rfl
      · exact ⟨0, congrArg Host.Outcome.next (if_pos hup)⟩
      · exact ⟨1, congrArg Host.Outcome.next (if_pos hup)⟩
    obtain ⟨kind, run⟩ := run
    refine .of_exec run ?_
    obtain ⟨done, restarted⟩ := coreFault_restarts hready kind
    rw [coreFault_sec hready, State.arrive_sec]
    refine ⟨rfl, rfl, rfl, rfl, rfl, done, restarted, fun c k inside of serves => ?_⟩
    obtain ⟨l, of', ⟨tearing, cause⟩, noKey, transport, desc⟩ := coreFault_comp? hready kind inside (k := k) (by simpa using of) serves
    exact ⟨l, of', tearing, cause, noKey, transport, desc⟩
  case closes =>
    have go : ((s.arrive t).sec.up && m.valid && (s.arrive t).session m && !(s.arrive t).sec.life) = true := by
      simp [arrive_session, up, valid, session, life]
    refine .of_exec (congrArg Host.Outcome.next (if_pos go)) ?_
    obtain ⟨hsec, hstored⟩ := lifeChange_waits (s.arrive t) true
    exact ⟨by rw [hsec, State.arrive_sec], hstored⟩
  case opens =>
    have go : ((s.arrive t).sec.up && true && (s.arrive t).sec.life) = true := by simp [up, life]
    refine .of_exec (congrArg Host.Outcome.next (if_pos go)) ?_
    obtain ⟨hsec, hstored⟩ := lifeChange_waits (s.arrive t) false
    exact ⟨by rw [hsec, State.arrive_sec], hstored⟩
  case pool =>
    have found : (s.arrive t).cmp.comps.find? (fun k => k.2.st == .active && !k.2.transport) = none := by
      simpa using full
    have run : exec (.transportKeyGenerated t) s =
        .next { s.arrive t with sec := { (s.arrive t).sec with pool := min 2 ((s.arrive t).sec.pool + 1) } } := by
      show execTransportKeyGenerated t s = _
      unfold execTransportKeyGenerated
      simp only [hup, found]
      rfl
    refine .of_exec run ?_
    exact ⟨by simp, by simp⟩
  case key =>
    have found : (s.arrive t).cmp.comps.find? (fun k => k.2.st == .active && !k.2.transport) = some (c, k) := by
      simp [one, active, bare]
    have run : exec (.transportKeyGenerated t) s = .next ((s.arrive t).setComp c fun k => { k with transport := true }) := by
      show execTransportKeyGenerated t s = _
      unfold execTransportKeyGenerated
      simp only [hup, found]
      rfl
    refine .of_exec run ?_
    exact ⟨by simp [State.setComp, State.comp?, one, look, put], by simp⟩

end Sys2Proof.Machine

namespace Sys2Proof.Machine

/-! ### Key blobs and tenant removal (R390 to R397) -/

theorem blob_refused {s : State} {kind : BlobKind} {decOk : Bool} {b : KeyBlob} {st : Status} (up : s.sec.up = true)
    (refused : s.blobRefusal kind decOk b = some st) (f : State → State) :
    (s.blob kind decOk b f).cmp = s.cmp ∧ (s.blob kind decOk b f).sec = s.sec ∧ (s.blob kind decOk b f).out.head? = some (.vendor st) := by
  unfold State.blob
  rw [if_neg (by simp [up]), refused]
  exact ⟨by simp, by simp, rfl⟩

theorem blob_accepted {s : State} {kind : BlobKind} {decOk : Bool} {b : KeyBlob} (up : s.sec.up = true)
    (accepted : s.blobRefusal kind decOk b = none) (f : State → State) : s.blob kind decOk b f = (f s).emit (.vendor .ok) := by
  unfold State.blob
  rw [if_neg (by simp [up]), accepted]

/-- What is withheld from the host moves no composition and leaves the Security Core (R489). -/
theorem withhold_kept (s : State) (c : Nat) : (s.withhold c).cmp = s.cmp ∧ (s.withhold c).sec = s.sec := by
  have kept : Within (keeping [.cmp, .sec]) s (s.withhold c) := by apply State.withhold_within (hs := .refl _ s) <;> rfl
  exact ⟨kept.keeps (p := .cmp) (by simp), kept.keeps (p := .sec) (by simp)⟩

theorem comp?_of_cmp {s t : State} (h : t.cmp = s.cmp) (c : Nat) : t.comp? c = s.comp? c := by rw [State.comp?, h]; rfl

theorem zeroiseComp_coreKept (s : State) (c : Nat) : CoreKept s (s.zeroiseComp c) :=
  .of_within (by apply State.zeroiseComp_within (hs := .refl _ s) <;> rfl)

/-- A removal with its keys gone: the generation that is kept for the job, and no model released (R397). -/
def State.removing (s : State) (b : KeyBlob) (gen : BitVec 16) : State :=
  let t := s.setComp b.comp fun k => { k with gen, noKey := true, upd := none, grace := false }
  ({ t with sec := { t.sec with gens := put t.sec.gens b.job gen } }).clearModels b.comp

theorem removing_comp? {s : State} {b : KeyBlob} {k : Comp} (of : s.comp? b.comp = some k) (gen : BitVec 16) :
    (s.removing b gen).comp? b.comp = some { k with gen, noKey := true, upd := none, grace := false } := comp?_setComp_same of _

/-- Settles O37, by the checks of a blob and by what a removal leaves of a dissolved composition. -/
theorem keyBlobsActOnTheirComposition : Obligations.KeyBlobsActOnTheirComposition := by
  intro s t decOk b u up
  have hup : u.sec.up = true := by simp [u, up]
  have hcmp : u.cmp = s.cmp := State.arrive_cmp ..
  have hsec : u.sec = s.sec := State.arrive_sec ..
  refine ⟨fun st => ⟨fun refused => ?installRefused, fun refused => ?removeRefused⟩,
    fun k of => ⟨fun accepted => ?install, fun accepted => ?update, fun accepted => ?remove⟩, fun accepted => ?model,
    fun c k of tearing cause stage drained => ?removed⟩
  case installRefused =>
    refine .of_exec rfl ?_
    obtain ⟨cmp, sec, out⟩ := blob_refused hup refused _
    exact ⟨cmp.trans hcmp, sec.trans hsec, out⟩
  case removeRefused =>
    refine .of_exec rfl ?_
    obtain ⟨cmp, sec, out⟩ := blob_refused hup refused _
    exact ⟨cmp.trans hcmp, sec.trans hsec, out⟩
  case install =>
    refine .of_exec (congrArg Host.Outcome.next (blob_accepted hup accepted _)) ?_
    have hof : u.comp? b.comp = some k := by simpa [u] using of
    obtain ⟨cmp, sec⟩ := withhold_kept (u.setComp b.comp fun k => { k with keyed := true, noKey := false, gen := b.gen }) b.comp
    refine ⟨rfl, ?_, ?_, fun c other => ?_⟩
    · rw [State.emit_sec, State.event_sec, sec, State.setComp_sec, hsec]
    · rw [comp?_of_cmp (State.emit_cmp ..), comp?_of_cmp (State.event_cmp ..), comp?_of_cmp cmp, comp?_setComp_same hof]
    · rw [comp?_of_cmp (State.emit_cmp ..), comp?_of_cmp (State.event_cmp ..), comp?_of_cmp cmp, comp?_setComp_other _ other, comp?_of_cmp hcmp]
  case update =>
    refine .of_exec (congrArg Host.Outcome.next (blob_accepted hup accepted _)) ?_
    have hof : u.comp? b.comp = some k := by simpa [u] using of
    refine ⟨rfl, ?_, ?_, fun c other => ?_⟩
    · rw [State.emit_sec, State.setComp_sec, hsec]
    · rw [comp?_of_cmp (State.emit_cmp ..), comp?_setComp_same hof]
    · rw [comp?_of_cmp (State.emit_cmp ..), comp?_setComp_other _ other, comp?_of_cmp hcmp]
  case remove =>
    have hof : u.comp? b.comp = some k := by simpa [u] using of
    have run : exec (.tenantRemove t decOk b) s = .next (((u.removing b (k.gen + 1)).dissolve b.comp .revoked .removal).emit (.vendor .ok)) := by
      have gen : ((u.comp? b.comp).elim 0 fun k => k.gen + 1) = k.gen + 1 := by rw [hof]; rfl
      rw [← gen]
      exact congrArg Host.Outcome.next (blob_accepted hup accepted _)
    refine .of_exec run ?_
    obtain ⟨l, of', eases⟩ := dissolve_comp? (u.removing b (k.gen + 1)) b.comp .revoked .removal (removing_comp? hof _)
    obtain ⟨since, st, rfl, _⟩ := eases
    rw [if_pos rfl] at of'
    rw [State.emit_sec, dissolve_sec, State.emit_pg, comp?_of_cmp (State.emit_cmp ..), of']
    refine ⟨rfl, look_put_same .., fun m of => bne_iff_ne.mp (List.mem_filter.mp of).2, (dissolve_forgets ..).1, ?_⟩
    exact ⟨_, rfl, rfl, rfl, rfl, rfl, rfl⟩
  case model =>
    refine .of_exec (congrArg Host.Outcome.next (blob_accepted hup accepted _)) ?_
    rw [State.emit_sec, State.event_sec, State.emit_cmp, State.event_cmp, ← hsec]
    exact ⟨rfl, hcmp, look_put_same .., fun m other => look_put_other _ _ _ _ other⟩
  case removed =>
    have go : k.st = .tearing ∧ k.cause = some .removal ∧ u.sec.up ∧ u.pwr.stage < 5 ∧ u.windowsDrained c = true :=
      ⟨tearing, cause, hup, by simpa [u] using stage, drained⟩
    have hof : u.comp? c = some k := by simpa [u] using of
    obtain ⟨comps, sec⟩ := zeroiseComp_coreKept u c
    have hof' : (u.zeroiseComp c).comp? c = some k := by rw [State.comp?, comps]; exact hof
    have run : ∃ e, exec (.tenantRemoved t c) s = .next ((let v := (u.zeroiseComp c).setComp c fun k =>
        { k with st := .torndown, transport := false, next := none }; if k.next = some .fault then v.count 0x5043 c else v).event e) := by
      show ∃ e, (match u.comp? c with | none => .next u | some k => _) = Host.Outcome.next _
      rw [hof]
      exact ⟨_, if_pos go⟩
    obtain ⟨e, run⟩ := run
    refine .of_exec run ?_
    rw [comp?_of_cmp (State.event_cmp ..), State.event_sec]
    split
    · rw [comp?_of_cmp (State.count_cmp ..), State.count_sec, comp?_setComp_same hof', State.setComp_sec, sec]
      exact ⟨rfl, hsec⟩
    · rw [comp?_setComp_same hof', State.setComp_sec, sec]
      exact ⟨rfl, hsec⟩

end Sys2Proof.Machine

namespace Sys2Proof.Machine

/-! ### Zeroised slices, released resources and metering (R360, R370, R374) -/

/-- An address lies in a slice. -/
def inSlice (n a : Nat) : Prop := n * 2 ^ 35 ≤ a ∧ a < (n + 1) * 2 ^ 35

theorem zeroise_slice_read (s : State) (n a : Nat) :
    (inSlice n a → Memory.read (s.zeroise (n * 2 ^ 35) (2 ^ 35)).mem a = 0) ∧
      (¬ inSlice n a → Memory.read (s.zeroise (n * 2 ^ 35) (2 ^ 35)).mem a = Memory.read s.mem a) := by
  unfold State.zeroise inSlice
  simp only [Memory.read_zero]
  constructor
  · intro inside; rw [if_pos (by omega)]
  · intro outside; rw [if_neg (by omega)]

/-- Slices that are zeroised read zero, and nothing else changes (R370). -/
theorem zeroise_slices_read (l : List Nat) (s : State) (a : Nat) :
    let v := l.foldl (fun s n => s.zeroise (n * 2 ^ 35) (2 ^ 35)) s
    ((∃ n ∈ l, inSlice n a) → Memory.read v.mem a = 0) ∧ ((∀ n ∈ l, ¬ inSlice n a) → Memory.read v.mem a = Memory.read s.mem a) := by
  induction l generalizing s with
  | nil => exact ⟨by simp, fun _ => rfl⟩
  | cons n l ih =>
    obtain ⟨zeroed, kept⟩ := ih (s.zeroise (n * 2 ^ 35) (2 ^ 35))
    obtain ⟨here, other⟩ := zeroise_slice_read s n a
    refine ⟨fun ⟨m, mem, inside⟩ => ?_, fun outside => (kept fun m mem => outside m (List.mem_cons_of_mem _ mem)).trans (other (outside n (by simp)))⟩
    by_cases later : ∃ m ∈ l, inSlice m a
    · exact zeroed later
    · refine (kept (by simpa using later)).trans (here ?_)
      rcases List.mem_cons.mp mem with rfl | mem
      · exact inside
      · exact absurd ⟨m, mem, inside⟩ later

theorem settleFree_kept (s : State) : s.settleFree.cmp.busySlices = s.cmp.busySlices ∧ s.settleFree.cmp.busyFlash = s.cmp.busyFlash ∧
    s.settleFree.mem = s.mem ∧ s.settleFree.tier = s.tier := ⟨rfl, rfl, rfl, rfl⟩

/-- Store a metering counter, unless it is zero and was never stored (R374). -/
def State.storeCount (s : State) (k : Nat × Nat) : State :=
  let n := s.pd.count k.1 k.2
  if n = 0 ∧ !(s.pd.stored.any fun v => v.1 == k.1 && v.2.1 == k.2) then s
  else { s with pd := { s.pd with stored :=
    (k.1, k.2, leBytes (if k.1 = 0x5043 then 4 else 8) n) :: s.pd.stored.filter fun v => !(v.1 == k.1 && v.2.1 == k.2) } }

/-- The metering counters. -/
def meterKeys : List (Nat × Nat) := ((List.range 16).map fun c => [(0x5040, c), (0x5041, c), (0x5042, c), (0x5043, c)]).flatten

theorem meterPersist_eq (s : State) : s.meterPersist = meterKeys.foldl (fun s k => s.storeCount k) s.chargeAll := rfl

theorem mem_meterKeys {c idx : Nat} (inside : c < 16) (h : idx = 0x5040 ∨ idx = 0x5041 ∨ idx = 0x5042) : (idx, c) ∈ meterKeys := by
  simp only [meterKeys, List.mem_flatten, List.mem_map, List.mem_range]
  refine ⟨_, ⟨c, inside, rfl⟩, ?_⟩
  simpa using h.imp_right fun h => h.imp_right .inl

/-- The entry that keeps a metering counter. -/
def State.countEntry (s : State) (k : Nat × Nat) : Nat × Nat × List Byte := (k.1, k.2, leBytes (if k.1 = 0x5043 then 4 else 8) (s.pd.count k.1 k.2))

theorem storeCount_cases (s : State) (k : Nat × Nat) : s.storeCount k = s ∨
    s.storeCount k = { s with pd := { s.pd with stored := s.countEntry k :: s.pd.stored.filter fun v => !(v.1 == k.1 && v.2.1 == k.2) } } :=
  ite_eq_or_eq ..

theorem storeCount_kept (s : State) (k : Nat × Nat) : (s.storeCount k).pd.cnt = s.pd.cnt ∧ (s.storeCount k).mem = s.mem := by
  rcases storeCount_cases s k with h | h
  · rw [h]; exact ⟨rfl, rfl⟩
  · rw [h]; exact ⟨rfl, rfl⟩

theorem storeCount_stores {s : State} {k : Nat × Nat} (pos : s.pd.count k.1 k.2 ≠ 0) : s.countEntry k ∈ (s.storeCount k).pd.stored := by
  unfold State.storeCount
  extract_lets n
  rw [if_neg fun h => pos h.1]
  exact List.mem_cons_self

theorem storeCount_keeps {s : State} {j : Nat × Nat} (k : Nat × Nat) (pos : s.pd.count j.1 j.2 ≠ 0) (stored : s.countEntry j ∈ s.pd.stored) :
    s.countEntry j ∈ (s.storeCount k).pd.stored := by
  by_cases same : j = k
  · exact same ▸ storeCount_stores pos
  · rcases storeCount_cases s k with h | h
    · rw [h]; exact stored
    · rw [h]
      refine List.mem_cons_of_mem _ (List.mem_filter.mpr ⟨stored, ?_⟩)
      simpa [State.countEntry, Prod.ext_iff, imp_iff_not_or] using same

theorem storeCounts_kept (l : List (Nat × Nat)) (s : State) :
    (l.foldl (fun s k => s.storeCount k) s).pd.cnt = s.pd.cnt ∧ (l.foldl (fun s k => s.storeCount k) s).mem = s.mem := by
  induction l generalizing s with
  | nil => exact ⟨rfl, rfl⟩
  | cons k l ih => exact ⟨(ih _).1.trans (storeCount_kept s k).1, (ih _).2.trans (storeCount_kept s k).2⟩

theorem countEntry_of_cnt {s t : State} (h : t.pd.cnt = s.pd.cnt) (k : Nat × Nat) : t.countEntry k = s.countEntry k ∧
    t.pd.count k.1 k.2 = s.pd.count k.1 k.2 := by
  have count : t.pd.count k.1 k.2 = s.pd.count k.1 k.2 := by rw [PdSt.count, h]; rfl
  exact ⟨by rw [State.countEntry, count]; rfl, count⟩

/-- Of the counters of a list, those that are not zero are stored as they stand (R374). -/
theorem storeCounts_store {l : List (Nat × Nat)} {s : State} {j : Nat × Nat} (pos : s.pd.count j.1 j.2 ≠ 0)
    (h : j ∈ l ∨ s.countEntry j ∈ s.pd.stored) : s.countEntry j ∈ (l.foldl (fun s k => s.storeCount k) s).pd.stored := by
  induction l generalizing s with
  | nil => simpa using h
  | cons k l ih =>
    obtain ⟨entry, count⟩ := countEntry_of_cnt (storeCount_kept s k).1 j
    rw [List.foldl_cons, ← entry]
    refine ih (count ▸ pos) ?_
    rw [entry]
    rcases h with mem | stored
    · rcases List.mem_cons.mp mem with rfl | mem
      · exact .inr (storeCount_stores pos)
      · exact .inl mem
    · exact .inr (storeCount_keeps k pos stored)

theorem chargeAll_mem (s : State) : s.chargeAll.mem = s.mem := by
  have kept : Within (keeping [.mem]) s s.chargeAll := by apply State.chargeAll_within (hs := .refl _ s) <;> rfl
  exact kept.keeps (p := .mem) (by simp)

/-- Settles O35: by what a teardown leaves of a composition, the bytes of the slices that are zeroised, and the counters that are stored. -/
theorem teardownZeroisesAndResourcesFree : Obligations.TeardownZeroisesAndResourcesFree := by
  intro s t u
  refine ⟨fun c k ready of serves => ?forced, fun c k of tearing cause up => ?complete, fun n busy up stage => ?slice, fun n busy clear => ?flash,
    fun ready => ?meter⟩
  case forced =>
    have hof : u.comp? c = some k := by simpa [u] using of
    refine .of_exec (congrArg Host.Outcome.next (if_pos (by simp [ready]))) ?_
    obtain ⟨l, of', ⟨tearing, cause⟩, _, _, desc⟩ := teardown_serving hof serves
    obtain ⟨e, run⟩ := teardown_of_serves hof serves
    obtain ⟨ctxs, corpora⟩ := dissolve_forgets (u.count 0x5043 c) c .faultTorndown .fault
    refine ⟨?_, ?_, l, of', tearing, cause, desc⟩
    · rw [run, State.event_pg]; exact ctxs
    · rw [run, State.event_rq]; exact corpora
  case complete =>
    have hof : u.comp? c = some k := by simpa [u] using of
    have go : k.st = .tearing ∧ k.cause = some .fault ∧ u.sec.up := ⟨tearing, cause, by simp [u, up]⟩
    have run : exec (.teardownComplete t c) s = .next ((u.zeroiseComp c).setComp c fun k => { k with st := .torndown }) := by
      show (match u.comp? c with | none => .next u | some k => _) = Host.Outcome.next _
      rw [hof]
      exact if_pos go
    have hof' : (u.zeroiseComp c).comp? c = some k := by rw [State.comp?, (zeroiseComp_coreKept u c).1]; exact hof
    have slices : u.slicesOf c = s.slicesOf c := by simp [State.slicesOf, u]
    have read := zeroise_slices_read (s.slicesOf c) u
    have mem : ((u.zeroiseComp c).setComp c fun k => { k with st := .torndown }).mem =
        ((s.slicesOf c).foldl (fun s n => s.zeroise (n * 2 ^ 35) (2 ^ 35)) u).mem := by
      rw [State.setComp_mem, ← slices]; rfl
    refine .of_exec run ⟨comp?_setComp_same hof' _, fun n of a low high => ?_, fun a outside => ?_⟩
    · rw [mem]; exact (read a).1 ⟨n, of, low, high⟩
    · rw [mem, ← State.arrive_mem s t]
      exact (read a).2 fun n of => by have := outside n of; unfold inSlice; omega
  case slice =>
    have go : ¬ (!(u.cmp.busySlices.contains n) || !u.sec.up || decide (5 ≤ u.pwr.stage)) = true := by
      simp [u, busy, up, stage]
    refine .of_exec (if_neg go) ?_
    rw [(settleFree_kept _).1, (settleFree_kept _).2.2.1]
    refine ⟨by simp, fun m ne => by simp [ne], fun a low high => (zeroise_slice_read u n a).1 ⟨low, high⟩, fun a outside => ?_⟩
    rw [← State.arrive_mem s t]
    exact (zeroise_slice_read u n a).2 (by unfold inSlice; omega)
  case flash =>
    have same : u.flash n = s.flash n := by simp [State.flash, u]
    have written : ((u.flash n).blocks.any fun b => !b.2.retired && decide (0 < b.2.live + b.2.stale)) = false := by
      rw [same, List.any_eq_false]
      intro b of
      rcases clear b of with retired | empty
      · simp [retired]
      · simp [empty]
    have go : ¬ (!(u.cmp.busyFlash.contains n) || ((u.flash n).blocks.any fun b => !b.2.retired && decide (0 < b.2.live + b.2.stale))) = true := by
      rw [written]; simp [u, busy]
    refine .of_exec (if_neg go) ?_
    rw [(settleFree_kept _).2.1, (settleFree_kept _).2.2.1]
    refine ⟨by simp, ?_, fun m ne => by simp [ne], by simp⟩
    exact congrArg Flash.erasing (setFlash_flash_same u n { u.flash n with erasing := false })
  case meter =>
    refine .of_exec (congrArg Host.Outcome.next (if_pos (by simp [ready]))) ?_
    rw [meterPersist_eq]
    have charged : u.chargeAll.mem = s.mem := (chargeAll_mem u).trans (State.arrive_mem ..)
    generalize u.chargeAll = x at charged ⊢
    obtain ⟨cnt, mem⟩ := storeCounts_kept meterKeys x
    have stored {j : Nat × Nat} (pos : x.pd.count j.1 j.2 ≠ 0) (of : j ∈ meterKeys) := storeCounts_store pos (.inl of)
    generalize meterKeys.foldl (fun s k => s.storeCount k) x = v at cnt mem stored ⊢
    refine ⟨mem.trans charged, fun c idx inside h => ?_⟩
    obtain ⟨_, count⟩ := countEntry_of_cnt cnt (idx, c)
    refine ⟨count, fun pos => ?_⟩
    have entry := stored (j := (idx, c)) (count ▸ pos) (mem_meterKeys inside h)
    rw [State.countEntry, if_neg (by dsimp only; omega), ← count] at entry
    exact entry

end Sys2Proof.Machine

namespace Sys2Proof.Machine

/-! ### Commits and handoffs (R355, R356, R365, R366) -/

/-- One composition begins to shrink where it loses slices to the commit (R358). -/
def State.shrinkOne (s : State) (c : Nat) : State :=
  if s.leaving c = [] then s else s.setComp c fun k => if k.st = .active then { k with st := .shrinking } else k

/-- What the validation of a commit makes of a composition that loses slices, or does not. -/
def Comp.shrunk (loses : Bool) (k : Comp) : Comp := if loses = true ∧ k.st = .active then { k with st := .shrinking } else k

theorem Comp.shrunk_desc (loses : Bool) (k : Comp) : (k.shrunk loses).desc = k.desc := by
  unfold Comp.shrunk; split <;> rfl

theorem Comp.shrunk_false : Comp.shrunk false = id := by
  funext k; simp [Comp.shrunk]

theorem Comp.shrunk_true : Comp.shrunk true = fun k => if k.st = .active then { k with st := .shrinking } else k := by
  funext k; simp [Comp.shrunk]

theorem Comp.shrunk_shrunk (a b : Bool) (k : Comp) : (k.shrunk a).shrunk b = k.shrunk (a || b) := by
  by_cases active : k.st = .active
  · cases a <;> simp [Comp.shrunk, active]
  · simp [Comp.shrunk, active]

/-- The composition alone moves, in its state. -/
theorem shrinkOne_comp? (s : State) (c e : Nat) :
    (s.shrinkOne c).comp? e = (s.comp? e).map (Comp.shrunk (decide (e = c) && decide (s.leaving e ≠ []))) := by
  unfold State.shrinkOne
  by_cases same : e = c
  · subst same
    by_cases stays : s.leaving e = []
    · simp [stays, Comp.shrunk_false]
    · rw [if_neg stays, comp?_setComp, if_pos rfl]
      simp [stays, Comp.shrunk_true]
  · have other : (s.shrinkOne c).comp? e = s.comp? e := by
      unfold State.shrinkOne
      split
      · rfl
      · exact comp?_setComp_other _ same _
    refine other.trans ?_
    simp [same, Comp.shrunk_false]

/-- The compositions alone move. -/
theorem shrinkOne_cmp (s : State) (c : Nat) : ∃ comps, (s.shrinkOne c).cmp = { s.cmp with comps } := by
  unfold State.shrinkOne State.setComp
  split
  · exact ⟨_, rfl⟩
  split
  · exact ⟨_, rfl⟩
  · exact ⟨_, rfl⟩

theorem shrinkOne_leaving (s : State) (c e : Nat) : (s.shrinkOne c).leaving e = s.leaving e := by
  obtain ⟨comps, cmp⟩ := shrinkOne_cmp s c
  have slices : (s.shrinkOne c).slicesOf e = s.slicesOf e := by
    unfold State.slicesOf
    rw [shrinkOne_comp?]
    cases s.comp? e with
    | none => rfl
    | some k => simp [Comp.shrunk_desc]
  unfold State.leaving
  rw [slices, cmp]

/-- The staged compositions that lose a slice begin to shrink, and no other moves (R355, R358). -/
theorem shrinkAll_comp? (l : List Nat) (s : State) (e : Nat) :
    (l.foldl (fun s c => s.shrinkOne c) s).comp? e = (s.comp? e).map (Comp.shrunk (decide (e ∈ l) && decide (s.leaving e ≠ []))) := by
  induction l generalizing s with
  | nil => simp [Comp.shrunk_false]
  | cons c l ih =>
    rw [List.foldl_cons, ih, shrinkOne_comp?, shrinkOne_leaving, Option.map_map]
    congr 1
    funext k
    rw [Function.comp, Comp.shrunk_shrunk, ← Bool.and_or_distrib_right]
    simp [List.mem_cons]

theorem shrinkAll_cmp (l : List Nat) (s : State) : ∃ comps, (l.foldl (fun s c => s.shrinkOne c) s).cmp = { s.cmp with comps } := by
  induction l generalizing s with
  | nil => exact ⟨_, rfl⟩
  | cons c l ih =>
    obtain ⟨_, later⟩ := ih (s.shrinkOne c)
    obtain ⟨_, now⟩ := shrinkOne_cmp s c
    rw [List.foldl_cons, later, now]
    exact ⟨_, rfl⟩

theorem foldl_cmp {α : Type} {f : State → α → State} (h : ∀ s x, (f s x).cmp = s.cmp) (l : List α) (s : State) : (l.foldl f s).cmp = s.cmp := by
  induction l generalizing s with
  | nil => rfl
  | cons x l ih => exact (ih _).trans (h s x)

/-- The records of the pages of a handoff that can be read, up to the first that cannot (R366). -/
def State.readRecs (s : State) (h : Handoff) : List (List Byte) := ((h.pages.map fun p => s.batchBytes h p).takeWhile (·.isSome)).map (·.getD [])

/-- A batch that cannot be read ends the handoff (R366). -/
theorem sendBatch_unreadable {s : State} {h : Handoff} (unread : s.readRecs h = []) :
    (s.sendBatch h).cmp = { s.cmp with hand := none, hstatus := .staleGen } := by
  have run : s.sendBatch h = { s with cmp := { s.cmp with hand := none, hstatus := .staleGen } } := if_pos unread
  rw [run]

/-- The pages of a batch: as many as fit in the window, one at least (R366). -/
def State.batch (s : State) (h : Handoff) : List (List Byte) :=
  let fits := takeBatch (Config.importSize h.dnode h.comp - 64) (s.readRecs h)
  if fits = [] then (s.readRecs h).take 1 else fits

theorem batch_pos {s : State} {h : Handoff} (read : s.readRecs h ≠ []) : 0 < (s.batch h).length := by
  unfold State.batch
  extract_lets fits
  by_cases small : fits = []
  · rw [if_pos small]; exact List.length_pos_iff.mpr (by simpa using read)
  · rw [if_neg small]; exact List.length_pos_iff.mpr small

theorem sendBatch_of_read {s : State} {h : Handoff} (read : s.readRecs h ≠ []) :
    ∃ x : State, x.cmp = s.cmp ∧
      s.sendBatch h = { x with cmp := { x.cmp with hand := some { h with batch := h.batch + 1, inBatch := (s.batch h).length } } } :=
  ⟨_, (State.enqueue_cmp ..).trans (foldl_cmp (fun _ _ => State.enqueue_cmp ..) _ _), if_neg read⟩

/-- One that can be read is sent, with a page at least (R366). -/
theorem sendBatch_read {s : State} {h : Handoff} (read : s.readRecs h ≠ []) :
    ∃ n, 0 < n ∧ (s.sendBatch h).cmp = { s.cmp with hand := some { h with batch := h.batch + 1, inBatch := n } } := by
  obtain ⟨x, kept, run⟩ := sendBatch_of_read read
  exact ⟨_, batch_pos read, by rw [run, ← kept]⟩

theorem readRecs_of_first {s : State} {h : Handoff} {p : Nat × Nat} {ps : List (Nat × Nat)} (pages : h.pages = p :: ps)
    (first : (s.batchBytes h p).isSome = true) : s.readRecs h ≠ [] := by
  unfold State.readRecs
  rw [pages, List.map_cons, List.takeWhile_cons_of_pos first, List.map_cons]
  exact List.cons_ne_nil _ _

theorem sendBatch_hpages (s : State) (h : Handoff) : (s.sendBatch h).cmp.hpages = s.cmp.hpages := by
  by_cases unread : s.readRecs h = []
  · rw [sendBatch_unreadable unread]
  · obtain ⟨n, _, cmp⟩ := sendBatch_read unread
    rw [cmp]

section
variable {s : State} {h : Handoff} {t : Nat} (hand : s.cmp.hand = some h) (finish : h.finish = false) (inBatch : h.inBatch ≠ 0)
  (flight : ((s.arrive t).inFlight fun p => p == .handoff) = false)
include hand finish inBatch flight

/-- The answer to a batch that is out is taken (R366). -/
theorem handoffBatchAck_taken (st : Status) : exec (.handoffBatchAck t st) s =
    if st ≠ .ok then .next { s.arrive t with cmp := { s.cmp with hand := none, hstatus := st } }
    else
      let g := { h with pages := h.pages.drop h.inBatch, sent := h.sent + h.inBatch, inBatch := 0 }
      let x := { s.arrive t with cmp := { s.cmp with hpages := g.sent } }
      if g.pages ≠ [] then .next ({ x with cmp := { x.cmp with hand := some g } }.sendBatch g)
      else if g.move then .next { x with cmp := { x.cmp with hand := some { g with finish := true } } }
      else .next { x with cmp := { x.cmp with hand := none, hstatus := .ok } } := by
  have out : ¬ (h.finish ∨ h.inBatch = 0 ∨ ((s.arrive t).inFlight fun p => p == .handoff) = true) := by simp [finish, inBatch, flight]
  show (match (s.arrive t).cmp.hand with | none => Host.Outcome.next (s.arrive t) | some h => _) = _
  rw [State.arrive_cmp, hand]
  exact if_neg out

end

/-- Settles O34, by what validation makes of each composition and what a batch that is sent leaves of a handoff. -/
theorem commitsValidateAndHandoffsProceed : Obligations.CommitsValidateAndHandoffsProceed := by
  intro s t u ready
  have hready : ¬ (!u.ready) = true := by simp [u, ready]
  have hcmp : u.cmp = s.cmp := State.arrive_cmp ..
  have hpwr : u.pwr = s.pwr := State.arrive_pwr ..
  refine ⟨fun step => ⟨fun idle off validating pending => ?commit, fun busy => ?busy⟩,
    fun validating => ⟨fun n c st fails => ?refused, ?accepted⟩,
    fun ctx stream all first count dnode queue move => ⟨fun st refused => ?handRefused, fun k xs p ps accepted pages readable => ?handed⟩,
    fun h st hand finish inBatch flight => ⟨fun bad => ?badBatch, fun ok => ?goodBatch⟩⟩
  case commit =>
    have free : ¬ (u.pwr.idle ∨ u.pwr.off ∨ u.cmp.validating ∨ u.cmp.pending) := by simp [hcmp, hpwr, idle, off, validating, pending]
    refine .of_exec ((if_neg hready).trans (if_neg free)) ?_
    rw [hcmp]
  case busy =>
    have taken : u.pwr.idle ∨ u.pwr.off ∨ u.cmp.validating ∨ u.cmp.pending := by simpa [hcmp, hpwr] using busy
    refine .of_exec ((if_neg hready).trans (if_pos taken)) ?_
    rw [hcmp]
    exact ⟨rfl, rfl, rfl, rfl, rfl, rfl⟩
  case refused =>
    have going : ¬ (!u.cmp.validating) = true := by simp [hcmp, validating]
    have run : exec (.commitValidationDone t) s = .next (u.refuseCommit n c st) := by
      refine (if_neg going).trans ?_
      rw [fails]
    refine .of_exec run ?_
    rw [State.refuseCommit, hcmp]
  case accepted =>
    intro passes y
    have going : ¬ (!u.cmp.validating) = true := by simp [hcmp, validating]
    have run : exec (.commitValidationDone t) s = .next ((u.cmp.staged.map (·.1)).foldl (fun s c => s.shrinkOne c) y) := by
      refine (if_neg going).trans ?_
      rw [passes]
      rfl
    refine .of_exec run ?_
    obtain ⟨comps, cmp⟩ := shrinkAll_cmp (u.cmp.staged.map (·.1)) y
    refine ⟨by rw [cmp], by rw [cmp], by rw [cmp, ← hcmp], fun c => ?_⟩
    have same : y.comp? c = s.comp? c := by rw [← comp?_of_cmp hcmp]; rfl
    have staged : u.cmp.staged = s.cmp.staged := by rw [hcmp]
    rw [shrinkAll_comp?, same, staged]
    congr 1
    funext k
    exact if_congr (by rw [Bool.and_eq_true, decide_eq_true_iff, decide_eq_true_iff, and_assoc]) rfl rfl
  case handRefused =>
    have run : exec (.handoff t ctx stream all first count dnode queue move) s = .next { u with cmp := { u.cmp with hstatus := st } } := by
      refine (if_neg hready).trans ?_
      rw [refused]
    refine .of_exec run ?_
    rw [hcmp]
    exact ⟨rfl, State.arrive_egq ..⟩
  case handed =>
    let h : Handoff := { ctx, job := k.job, comp := k.comp, pages := p :: ps, sent := 0, batch := 0, inBatch := 0, dnode, queue, move
                         ranges := xs.map fun x => (x.1, first, count), finish := false }
    let x : State := { u with cmp := { u.cmp with hand := some h, hstatus := .ok, hpages := 0 } }
    have run : exec (.handoff t ctx stream all first count dnode queue move) s = .next (x.sendBatch h) := by
      refine (if_neg hready).trans ?_
      rw [accepted]
      dsimp only
      rw [pages]
    obtain ⟨n, pos, cmp⟩ := sendBatch_read (readRecs_of_first (s := x) (h := h) rfl readable)
    refine .of_exec run ?_
    have comps : u.cmp.comps = s.cmp.comps := by rw [hcmp]
    rw [cmp]
    exact ⟨rfl, rfl, comps, _, rfl, rfl, rfl, rfl, rfl, pos, rfl, rfl⟩
  case badBatch =>
    exact .of_exec ((handoffBatchAck_taken hand finish inBatch flight st).trans (if_pos bad)) rfl
  case goodBatch =>
    subst ok
    have run := (handoffBatchAck_taken hand finish inBatch flight .ok).trans (if_neg (by simp))
    extract_lets g x at run
    by_cases more : g.pages ≠ []
    · refine .of_exec (run.trans (if_pos more)) ⟨sendBatch_hpages .., fun last => absurd last more, fun last => absurd last more⟩
    · by_cases moves : g.move = true
      · refine .of_exec (run.trans ((if_neg more).trans (if_pos moves))) ⟨rfl, fun _ copies => absurd (copies.symm.trans moves) (by decide), fun _ _ => ?_⟩
        exact ⟨_, rfl, rfl, rfl⟩
      · refine .of_exec (run.trans ((if_neg more).trans (if_neg moves))) ⟨rfl, fun _ _ => ⟨rfl, rfl⟩, fun _ moves' => absurd moves' moves⟩

end Sys2Proof.Machine

namespace Sys2Proof.Machine

/-! ### What operations leave of admission and roles (R419, R430) -/

/-- The admission that runs, its outcome and its failures, and the roles that were given. -/
def RelSt.admission (x : RelSt) : Option Admit × Status × Nat × List Role := (x.joining, x.astatus, x.aFail, x.roles)

/-- Admission and roles stand. -/
def AdmissionKept (s t : State) : Prop := t.rel.admission = s.rel.admission

theorem AdmissionKept.refl (s : State) : AdmissionKept s s := rfl

theorem AdmissionKept.trans {a b c : State} (h : AdmissionKept a b) (k : AdmissionKept b c) : AdmissionKept a c := Eq.trans k h

theorem AdmissionKept.of_within {s t : State} (h : Within (keeping [.rel]) s t) : AdmissionKept s t :=
  congrArg RelSt.admission (h.keeps (p := .rel) (by simp))

theorem AdmissionKept.foldl {α : Type} {a b : State} {f : State → α → State} {l : List α} (h : AdmissionKept a b) (k : ∀ s x, AdmissionKept s (f s x)) :
    AdmissionKept a (l.foldl f b) := by
  induction l generalizing b with
  | nil => exact h
  | cons x l ih => exact ih (h.trans (k b x))

theorem raiseScope_admissionKept (s : State) (scope subj : Nat) (comp : Option Nat) : AdmissionKept s (s.raiseScope scope subj comp) :=
  .of_within (by apply State.raiseScope_within (hs := .refl _ s) <;> rfl)

theorem eccBad_admissionKept (s : State) (port a : Nat) : AdmissionKept s (s.eccBad port a) := by
  unfold State.eccBad
  extract_lets b _ c tile
  have hc : AdmissionKept s c := by unfold c; split <;> exact .refl s
  have scope (k n : Nat) (x : Option Nat) : Within (keeping [.rel]) c (c.raiseScope k n x) := by
    apply State.raiseScope_within (hs := .refl _ c) <;> rfl
  split
  · split
    · exact hc.trans (raiseScope_admissionKept ..)
    · exact hc
  · exact hc.trans (.of_within (by apply State.recordLost_within (hs := .refl _ c) <;> rfl))
  · have lost (p : Cat → Bool) : Within (keeping [.rel]) c (c.streamsLost p) := by apply State.streamsLost_within (hs := .refl _ c); rfl
    exact hc.trans (.of_within (by apply State.dataLost_within (hs := lost _) <;> rfl))
  · split
    · have frame (x : Option Nat) : Within (keeping [.rel]) c ((c.raiseScope 1 c.nodeId x).frameLost a) := by
        apply State.frameLost_within (hs := scope _ _ _); rfl
      exact hc.trans (.of_within (by apply State.scansLost_within (hs := frame _) <;> rfl))
    · exact hc

theorem hostRead_admissionKept (s : State) (fn npa len : Nat) (errs : List (List Nat)) : AdmissionKept s (s.hostRead fn npa len errs) := by
  have poison (x : State) : AdmissionKept x (x.poison len).2 := .of_within (by apply State.poison_within (hs := .refl _ x); rfl)
  unfold State.hostRead
  extract_lets data
  have read (x : State) : AdmissionKept x (data x).2 := by
    unfold data
    split
    · exact poison x
    · exact .refl x
  split
  · exact (read s).trans rfl
  · exact AdmissionKept.trans (b := s.eccFixed npa) rfl ((read _).trans rfl)
  · exact (eccBad_admissionKept s 51 npa).trans (AdmissionKept.trans (b := (s.eccBad 51 npa).count 0x1101 3) rfl ((poison _).trans rfl))

theorem serveHeld_admissionKept (s : State) : AdmissionKept s s.serveHeld := by
  refine AdmissionKept.foldl (.refl s) fun t h => ?_
  split
  · exact .refl t
  extract_lets _ x
  split
  · exact AdmissionKept.trans (b := x) rfl (.of_within (by apply State.store_within (h := .refl _ x) <;> rfl))
  · exact AdmissionKept.trans (b := x) rfl (hostRead_admissionKept ..)

theorem nmuDrop_admissionKept (s : State) (w ch : Nat) : AdmissionKept s (s.nmuDrop w ch) := by
  unfold State.nmuDrop
  extract_lets n x _
  split
  · exact .refl s
  · have stopped (y : State) : AdmissionKept y (y.releaseBanks w ch n) := by
      refine AdmissionKept.trans (b := y.compute w ch n.banks false) (.of_within ?_) (serveHeld_admissionKept _)
      apply State.compute_within (hs := .refl _ y) <;> rfl
    exact (AdmissionKept.trans (b := s.setNmu w ch _) rfl (stopped _)).trans rfl

theorem nmuStop_admissionKept (s : State) (c : Nat) : AdmissionKept s (s.nmuStop c) := by
  refine AdmissionKept.foldl (.refl s) fun t n => ?_
  split
  · exact .foldl (.refl t) fun x i => nmuDrop_admissionKept ..
  · exact .refl t

theorem ringNext_admissionKept (s : State) (c : Nat) : AdmissionKept s (s.ringNext c) := by
  unfold State.ringNext
  split
  · exact .refl s
  split
  · exact .refl s
  · extract_lets _ x
    split
    · exact AdmissionKept.trans (b := x) rfl (.of_within (by apply State.ringWrite_within (hs := .refl _ x); rfl))
    · rfl

/-- The end of a message leaves admission and roles, whatever sent it (R307). -/
theorem ended_admissionKept (s : State) (q : Nat) (m : Msg) (st : Status) (data : List Byte) : AdmissionKept s (s.ended q m st data) := by
  unfold State.ended
  extract_lets good _
  split
  case h_1 id _ =>
    split
    · exact .refl s
    · exact .of_within (by apply State.resultRefused_within (hs := .refl _ s) <;> rfl)
  case h_2 =>
    split
    · exact .of_within (by apply State.setPage_within (hs := .refl _ s) <;> rfl)
    · exact .refl s
  case h_3 => exact .of_within (by apply State.moveEnded_within (hs := .refl _ s) <;> rfl)
  case h_4 => exact .of_within (by apply State.dmaEnded_within (hs := .refl _ s) <;> rfl)
  case h_5 nn _ =>
    split
    · exact .refl s
    · have unqueued : AdmissionKept s (s.unqueue q fun w => w.prod == .weight nn && w.cseq.isNone) :=
        .of_within (by apply State.unqueue_within (hs := .refl _ s); rfl)
      exact unqueued.trans rfl
  case h_6 => exact .of_within (by apply State.fetchEnded_within (hs := .refl _ s) <;> rfl)
  case h_7 =>
    split
    · exact .of_within (by apply State.mirrorAcked_within (hs := .refl _ s) <;> rfl)
    · exact .refl s
  case h_8 =>
    split
    · exact .of_within (by apply State.appendAcked_within (hs := .refl _ s); rfl)
    · exact .refl s
  case h_9 => exact ringNext_admissionKept ..
  case h_10 => exact .refl s
  case h_11 => rfl

theorem stopQueues_admissionKept (s : State) (c : Nat) (st : Status) : AdmissionKept s (s.stopQueues c st) := by
  refine AdmissionKept.foldl (.refl s) fun t e => ?_
  extract_lets x out _ y z
  have closed : Within (keeping [.rel]) y z := by
    apply State.refill_within rfl
    apply State.note_within rfl
    apply State.setQueue_within (hs := .refl _ y)
    rfl
  have hz : AdmissionKept t z := AdmissionKept.trans (b := y) rfl (.of_within closed)
  exact .foldl hz fun v m => ended_admissionKept ..

theorem forgetData_admissionKept (s : State) (c : Nat) : AdmissionKept s (s.forgetData c) := by
  unfold State.forgetData
  extract_lets keys corp a b gone _ d
  have ha : Within (keeping [.rel]) s a := Within.foldl (.refl _ s) fun _ _ h => by apply State.adirRemove_within (hs := h); rfl
  have hb : Within (keeping [.rel]) s b := Within.foldl ha fun _ _ h => by apply State.setFlash_within (hs := h); rfl
  exact AdmissionKept.trans (b := b) (.of_within hb) rfl

theorem tearing_admissionKept (s : State) (c : Nat) (st : Status) (cause : TearCause) : AdmissionKept s (s.tearing c st cause) := by
  have charged : Within (keeping [.rel]) s (s.charge c) := by apply State.charge_within (hs := .refl _ s) <;> rfl
  unfold State.tearing
  refine AdmissionKept.trans (.of_within ?_) (.of_within (State.setComp_within rfl (.refl _ _)))
  split
  · apply State.dropCommit_within (hs := charged); rfl
  · exact charged

theorem endWork_admissionKept (s : State) (c : Nat) (st : Status) : AdmissionKept s (s.endWork c st) := by
  unfold State.endWork
  extract_lets t
  have boxes : Within (keeping [.rel]) s (s.closeBoxes ((s.comp? c).elim 0 (·.desc.vf)) st) := by
    apply State.closeBoxes_within (hs := .refl _ s) <;> rfl
  have requests : Within (keeping [.rel]) s ((s.closeBoxes ((s.comp? c).elim 0 (·.desc.vf)) st).endAll (fun _ comp => comp == c) st) := by
    apply State.endAll_within (hs := boxes) <;> rfl
  have kept : AdmissionKept s t := .of_within (by apply State.endOps_within (hs := requests) <;> rfl)
  split
  · exact kept.trans rfl
  · exact kept

theorem stopAll_admissionKept (s : State) (c : Nat) (st : Status) : AdmissionKept s (s.stopAll c st) := by
  have dma (x : State) : AdmissionKept x (x.stopDma c st) := .of_within (by apply State.stopDma_within (hs := .refl _ x) <;> rfl)
  have windows (x : State) : AdmissionKept x (x.revokeAll c) := .of_within (by apply State.revokeAll_within (hs := .refl _ x); rfl)
  exact (nmuStop_admissionKept s c).trans ((dma _).trans ((stopQueues_admissionKept ..).trans ((windows _).trans (forgetData_admissionKept ..))))

theorem event_admissionKept (s : State) (e : Event) : AdmissionKept s (s.event e) := congrArg RelSt.admission (State.event_rel ..)

/-- A teardown leaves admission and roles (R369). -/
theorem teardown_admissionKept (s : State) (c : Nat) : AdmissionKept s (s.teardown c) := by
  unfold State.teardown
  split
  · exact .refl s
  split
  · refine AdmissionKept.trans ?_ (event_admissionKept ..)
    rw [dissolve_eq]
    exact AdmissionKept.trans (b := s.count 0x5043 c) rfl ((tearing_admissionKept ..).trans ((endWork_admissionKept ..).trans (stopAll_admissionKept ..)))
  split
  · exact .of_within (State.setComp_within rfl (.refl _ s))
  · exact .refl s

/-! ### Leases on a lost lender (R242, R262) -/

theorem setHome_admissionKept (s : State) (job ctx stream page : Nat) (p : Page) (f : Desc → Desc) : AdmissionKept s (s.setHome job ctx stream page p f) :=
  .of_within (by apply State.setHome_within (hs := .refl _ s) <;> rfl)

theorem sendContrib_admissionKept (s : State) (c : Nat) (g : RingCfg) (x : Contrib) (prod : Producer) : AdmissionKept s (s.sendContrib c g x prod) :=
  .of_within (by apply State.sendContrib_within (hs := .refl _ s); rfl)

theorem freeFrameKey_admissionKept (s : State) (key : Nat) : AdmissionKept s (s.freeFrameKey key) := by
  have dropped (x : State) : AdmissionKept x (x.uncontribute key) := by
    unfold State.uncontribute
    extract_lets mine _ y
    refine AdmissionKept.foldl (b := y) rfl fun t z => ?_
    split
    · exact sendContrib_admissionKept ..
    · exact .refl t
  unfold State.freeFrameKey
  split
  · exact .refl s
  · exact AdmissionKept.trans (b := { s with rel := { s.rel with damaged := s.rel.damaged.filter (· != key) } }) rfl ((dropped _).trans rfl)

theorem freeDesc_admissionKept (s : State) (d : Desc) : AdmissionKept s (s.freeDesc d) := by
  have dropped : AdmissionKept s (s.dropRef d.frame) := by
    unfold State.dropRef
    split
    · exact .refl s
    split
    · exact (freeFrameKey_admissionKept ..).trans (.of_within (by apply State.dropPool_within (hs := .refl _ _); rfl))
    · exact .of_within (by apply State.putPool_within (hs := .refl _ s) <;> rfl)
  unfold State.freeDesc
  split
  · exact .refl s
  split
  · exact dropped
  · exact freeFrameKey_admissionKept ..

theorem dataLost_admissionKept (s : State) (c job n : Nat) : AdmissionKept s (s.dataLost c job n) :=
  .of_within (by apply State.dataLost_within (hs := .refl _ s) <;> rfl)

theorem rebuiltPage_admissionKept (s : State) (job ctx stream page : Nat) (l : List (Ctx × Nat × Nat × Page)) :
    AdmissionKept s (s.rebuiltPage job ctx stream page l) := rfl

theorem setPage_admissionKept (s : State) (job ctx stream page : Nat) (f : Page → Page) : AdmissionKept s (s.setPage job ctx stream page f) :=
  .of_within (by apply State.setPage_within (hs := .refl _ s) <;> rfl)

theorem losePage_admissionKept (s : State) (c job ctx stream page : Nat) : AdmissionKept s (s.losePage c job ctx stream page) := by
  unfold State.losePage
  split
  · exact rebuiltPage_admissionKept ..
  extract_lets l a b
  have ha : AdmissionKept s a := AdmissionKept.foldl (.refl s) fun t y => (freeDesc_admissionKept ..).trans (setPage_admissionKept ..)
  have hb : AdmissionKept s b := ha.trans (rebuiltPage_admissionKept ..)
  split
  · exact hb
  · exact hb.trans (dataLost_admissionKept ..)

theorem subLost_admissionKept (s : State) (c standby : Nat) (y : Ctx × Nat × Nat × Page) : AdmissionKept s (s.subLost c standby y) := by
  unfold State.subLost
  extract_lets d x
  have hx : AdmissionKept s x := setHome_admissionKept ..
  split
  · exact hx.trans (losePage_admissionKept ..)
  · exact hx.trans rfl

theorem moveLeases_admissionKept (s : State) (lost standby : Nat) : AdmissionKept s (s.moveLeases lost standby) :=
  AdmissionKept.foldl (.refl s) fun t l =>
    AdmissionKept.foldl (b := t.pdSet 0x8030 l.1 _) rfl fun v y => subLost_admissionKept v l.2.comp standby y

end Sys2Proof.Machine

namespace Sys2Proof.Machine

/-! ### Leases and roles (R242, R262, R419) -/

theorem bytes_setBytes_other (p : PdSt) {index sub i j : Nat} (b : List Byte) (other : ¬(i = index ∧ j = sub)) :
    (p.setBytes index sub b).bytes i j = p.bytes i j := by
  have kept : (p.vals.filter fun v => !(v.1 == index && v.2.1 == sub)).find? (fun v => v.1 == i && v.2.1 == j) =
      p.vals.find? fun v => v.1 == i && v.2.1 == j := by
    rw [List.find?_filter]
    congr 1
    funext v
    by_cases same : v.1 = i ∧ v.2.1 = j
    · simp [same, not_and_or.mp other]
    · have differs : (v.1 == i && v.2.1 == j) = false := by simpa using same
      simp [differs]
  have new : (index == i && sub == j) = false := by
    rw [← Bool.not_eq_true, Bool.and_eq_true, beq_iff_eq, beq_iff_eq]
    exact fun h => other ⟨h.1.symm, h.2.symm⟩
  rw [PdSt.bytes, PdSt.setBytes, List.find?_append, kept]
  simp [new, PdSt.bytes]

theorem bytes_of_vals {s t : State} (h : t.pd.vals = s.pd.vals) (index sub : Nat) : t.pd.bytes index sub = s.pd.bytes index sub := by
  rw [PdSt.bytes, h]; rfl

/-- A lease names a node as its peer. -/
def State.leasePeer (s : State) (n : Nat) : Nat := (Lease.ofBytes (s.pd.bytes 0x8030 n)).peer

theorem leasePeer_of_vals {s t : State} (h : t.pd.vals = s.pd.vals) (n : Nat) : t.leasePeer n = s.leasePeer n := by
  rw [State.leasePeer, bytes_of_vals h]; rfl

theorem field_patch (l bs : List Byte) {at_ : Nat} (inside : at_ ≤ l.length) : field (patch l at_ bs) at_ bs.length = leNat bs := by
  rw [field, patch, List.append_assoc, List.drop_append_of_le_length (by simp [inside])]
  simp

theorem leNat_leBytes_two {v : Nat} (small : v < 2 ^ 16) : leNat (leBytes 2 v) = v := by
  simp [leBytes, leNat]
  omega

/-- The record of a lease takes another peer (R262). -/
theorem peer_patch (b : List Byte) {node : Nat} (small : node < 2 ^ 14) : (Lease.ofBytes (patch (padTo 32 b) 2 (leBytes 2 node))).peer = node := by
  have record : field (patch (padTo 32 b) 2 (leBytes 2 node)) 2 2 = node := by
    have taken := field_patch (padTo 32 b) (leBytes 2 node) (at_ := 2) (by simp [padTo_length])
    rwa [leBytes_length, leNat_leBytes_two (by omega)] at taken
  show bitsOf (field (patch (padTo 32 b) 2 (leBytes 2 node)) 2 2) 0 14 = node
  rw [record, bitsOf]
  omega

/-- One lease moves to the standby, and what lay there is lost or pending (R262). -/
def State.moveLease (s : State) (standby : Nat) (l : Nat × Lease) : State :=
  (s.pagesAt l.2.comp l.1).foldl (fun (s : State) y => s.subLost l.2.comp standby y)
    (s.pdSet 0x8030 l.1 (patch (padTo 32 (s.pd.bytes 0x8030 l.1)) 2 (leBytes 2 standby)))

theorem moveLeases_eq (s : State) (lost standby : Nat) : s.moveLeases lost standby =
    (s.leases.filter fun l => l.2.active && !l.2.lender && l.2.peer == lost).foldl (fun s l => s.moveLease standby l) s := rfl

theorem moveLease_vals (s : State) (standby : Nat) (l : Nat × Lease) : (s.moveLease standby l).pd.vals =
    (s.pd.setBytes 0x8030 l.1 (patch (padTo 32 (s.pd.bytes 0x8030 l.1)) 2 (leBytes 2 standby))).vals := by
  have kept : Within (keeping [.vals]) (s.pdSet 0x8030 l.1 (patch (padTo 32 (s.pd.bytes 0x8030 l.1)) 2 (leBytes 2 standby))) (s.moveLease standby l) :=
    Within.foldl (.refl _ _) fun _ _ h => by apply State.subLost_within (hs := h) <;> rfl
  exact kept.keeps (p := .vals) (by simp)

theorem moveLease_peer (s : State) {standby : Nat} (small : standby < 2 ^ 14) (l : Nat × Lease) :
    (s.moveLease standby l).leasePeer l.1 = standby := by
  rw [State.leasePeer, PdSt.bytes, moveLease_vals]
  exact (congrArg (fun b => (Lease.ofBytes b).peer) (bytes_setBytes ..)).trans (peer_patch _ small)

theorem moveLease_peer_other (s : State) (standby : Nat) {l : Nat × Lease} {n : Nat} (other : n ≠ l.1) :
    (s.moveLease standby l).leasePeer n = s.leasePeer n := by
  rw [State.leasePeer, PdSt.bytes, moveLease_vals]
  exact congrArg (fun b => (Lease.ofBytes b).peer) (bytes_setBytes_other _ _ (by simp [other]))

/-- Every lease of a list names the standby once it has moved (R262). -/
theorem moveLease_foldl_peer {standby : Nat} (small : standby < 2 ^ 14) {ls : List (Nat × Lease)} {s : State} {n : Nat}
    (h : (∃ l ∈ ls, l.1 = n) ∨ s.leasePeer n = standby) : (ls.foldl (fun s l => s.moveLease standby l) s).leasePeer n = standby := by
  induction ls generalizing s with
  | nil => simpa using h
  | cons l ls ih =>
    refine ih ?_
    by_cases same : n = l.1
    · exact .inr (same ▸ moveLease_peer s small l)
    · rw [moveLease_peer_other s standby same]
      refine h.imp_left fun ⟨m, mem, eq⟩ => ?_
      rcases List.mem_cons.mp mem with rfl | mem
      · exact absurd eq.symm same
      · exact ⟨m, mem, eq⟩

/-- A page that lay under a lost lease and has parity waits for its rebuild (R242). -/
theorem subLost_pending {s : State} (c standby : Nat) {y : Ctx × Nat × Nat × Page} (own : y.2.2.2.desc.borrowed = false)
    (parity : ∃ x ∈ s.rel.pframes, x.key = y.2.2.2.desc.frame) :
    (c, y.1.ctx, y.2.1, y.2.2.1, y.1.job) ∈ (s.subLost c standby y).rel.pendPages := by
  have home : s.homeOf y.2.2.2 = y.2.2.2.desc := if_neg (by simp [own])
  unfold State.subLost
  extract_lets d x
  have rel : x.rel = s.rel := Within.keeps (l := [.rel]) (p := .rel) (by apply State.setHome_within (hs := .refl _ s) <;> rfl) (by simp)
  have given : ¬ (!(x.rel.pframes.any fun z => z.key == d.frame)) = true := by
    simpa [rel, d, home] using parity
  rw [if_neg given]
  exact List.mem_append_right _ (List.mem_singleton_self _)

/-- A composition's ring record takes the new holder of a rank, and the member before it sends its mirrors to the new partner (R419, R421). -/
def State.noteRank (s : State) (r : Role) (c : Nat) : State :=
  let s := s.pdSet 0x3400 c (ringPatch (s.pd.bytes 0x3400 c) r.rank r.standby r.standC none)
  if (s.ringCfg c).any fun g => (g.rank + 1) % 9 == r.rank then s.copyMirror c else s

/-- A role is noted. -/
def State.roleNoted (s : State) (r : Role) : State := { s with rel := { s.rel with roles := s.rel.roles ++ [r] } }

/-- The leases as a role notice moves them, with the role noted (R262). -/
def State.roleMoved (s : State) (r : Role) : State := (s.roleNoted r).moveLeases r.lost r.standby

/-- The node's own part in a change of roles, before it takes the rank where it is the standby (R419, R421). -/
def State.roleHeard (s : State) (r : Role) : State :=
  let s := (s.roleMoved r).event { cls := 7, code := 3, subj := r.ring, detail := leBytes 1 r.rank ++ [0] ++ leBytes 2 r.standby }
  ((List.range 16).filter fun c => (s.ringCfg c).elim false fun g => g.ring == r.ring && g.rank != r.rank && (s.comp? c).isSome &&
    !(s.nodeId == r.standby && c == r.standC)).foldl (fun s c => s.noteRank r c) s

theorem roleTaken_eq (s : State) (r : Role) : s.roleTaken r = if (s.roleHeard r).nodeId = r.standby then (s.roleHeard r).takeRank r else s.roleHeard r := rfl

theorem noteRank_within (s : State) (r : Role) (c : Nat) : Within (keeping [.rel, .pg, .cmp, .boot]) s (s.noteRank r c) := by
  unfold State.noteRank
  extract_lets t
  have ht : Within (keeping [.rel, .pg, .cmp, .boot]) s t := by apply State.pdSet_within (hs := .refl _ s) <;> rfl
  split
  · apply State.copyMirror_within (hs := ht) <;> rfl
  · exact ht

theorem noteRank_kept (s : State) (r : Role) (c : Nat) : Kept s (s.noteRank r c) := by
  have hset := pdSet_kept s 0x3400 c (ringPatch (s.pd.bytes 0x3400 c) r.rank r.standby r.standC none)
  exact .ite (hset.trans (.of_within (by apply State.copyMirror_within (hs := .refl _ _) <;> rfl))) hset

theorem noteRank_leasePeer (s : State) (r : Role) (c n : Nat) : (s.noteRank r c).leasePeer n = s.leasePeer n := by
  unfold State.noteRank
  extract_lets t
  have ht : t.leasePeer n = s.leasePeer n := congrArg (fun b => (Lease.ofBytes b).peer) (bytes_setBytes_other _ _ (by simp))
  split
  · have kept : Within (keeping [.vals]) t (t.copyMirror c) := by apply State.copyMirror_within (hs := .refl _ t) <;> rfl
    exact (leasePeer_of_vals (kept.keeps (p := .vals) (by simp)) n).trans ht
  · exact ht

theorem noteRanks_leasePeer (l : List Nat) (s : State) (r : Role) (n : Nat) : (l.foldl (fun s c => s.noteRank r c) s).leasePeer n = s.leasePeer n := by
  induction l generalizing s with
  | nil => rfl
  | cons c l ih => exact (ih _).trans (noteRank_leasePeer s r c n)

section
variable (s : State) (r : Role)

theorem roleHeard_kept : (s.roleHeard r).rel = (s.roleMoved r).rel ∧ (s.roleHeard r).pg = (s.roleMoved r).pg ∧
    (s.roleHeard r).cmp = (s.roleMoved r).cmp ∧ ∀ n, (s.roleHeard r).leasePeer n = (s.roleMoved r).leasePeer n := by
  unfold State.roleHeard
  extract_lets t
  have kept (l : List Nat) : Within (keeping [.rel, .pg, .cmp, .boot]) t (l.foldl (fun s c => s.noteRank r c) t) :=
    Within.foldl (.refl _ t) fun x c h => h.trans (noteRank_within x r c)
  have vals : t.pd.vals = (s.roleMoved r).pd.vals :=
    Within.keeps (l := [.vals]) (p := .vals) (by apply State.event_within (hs := .refl _ (s.roleMoved r)) <;> rfl) (by simp)
  refine ⟨((kept _).keeps (p := .rel) (by simp)).trans (State.event_rel ..), ((kept _).keeps (p := .pg) (by simp)).trans (State.event_pg ..),
    ((kept _).keeps (p := .cmp) (by simp)).trans (State.event_cmp ..), fun n => (noteRanks_leasePeer _ t r n).trans (leasePeer_of_vals vals n)⟩

theorem roleHeard_nodeId : (s.roleHeard r).nodeId = s.nodeId := by
  have noted : Kept s (s.roleNoted r) := .of_sch rfl rfl
  have moved : Kept s (s.roleMoved r) := noted.trans (moveLeases_kept ..)
  have heard : Kept s (s.roleHeard r) := (moved.trans (event_kept ..)).foldl fun x c => noteRank_kept x r c
  exact congrArg Prod.fst heard.mastered

theorem roleMoved_cmp : (s.roleMoved r).cmp = s.cmp :=
  Within.keeps (l := [.cmp]) (s := s.roleNoted r) (p := .cmp) (by apply State.moveLeases_within (hs := .refl _ (s.roleNoted r)) <;> rfl) (by simp)

theorem roleMoved_roles : (s.roleMoved r).rel.roles = s.rel.roles ++ [r] :=
  congrArg (fun x => x.2.2.2) (moveLeases_admissionKept (s.roleNoted r) r.lost r.standby)

end

/-- A role notice by which another node takes the rank is heard, and no more (R419). -/
theorem roleNotice_heard {s : State} {t : Nat} {r : Role} (ready : s.ready = true) (other : s.nodeId ≠ r.standby) :
    exec (.roleNotice t r) s = .next ((s.arrive t).mgmtTake.roleHeard r) := by
  have away : ((s.arrive t).mgmtTake.roleHeard r).nodeId ≠ r.standby := by
    rw [roleHeard_nodeId]
    exact fun h => other ((arrive_nodeId s t).symm.trans h)
  have ready' : (s.arrive t).ready = true := by simp [ready]
  show Host.Outcome.next (if (s.arrive t).ready then (s.arrive t).mgmtTake.roleTaken r else s.arrive t) = _
  rw [if_pos ready', roleTaken_eq, if_neg away]

end Sys2Proof.Machine

namespace Sys2Proof.Machine

/-! ### Members that are lost, replaced and admitted (R418 to R439) -/

theorem sendNotice_rel (s : State) (n : Notice) : (s.sendNotice n).rel = s.rel :=
  Within.keeps (l := [.rel]) (p := .rel) (by apply State.sendNotice_within (hs := .refl _ s) <;> rfl) (by simp)

/-- The record and the notice of an unreachable node (R417). -/
def State.sayUnreachable (s : State) (node ring rank : Nat) (comp : Option Nat) : State :=
  let s := s.event { cls := 7, code := 1, subj := node, detail := leBytes 1 5 ++ leBytes 1 rank }
  s.sendNotice { phase := s.phase, node := s.nodeId, subj := node, scope := 5, comp, ring, rank }

theorem sayUnreachable_rel (s : State) (node ring rank : Nat) (comp : Option Nat) : (s.sayUnreachable node ring rank comp).rel = s.rel :=
  (sendNotice_rel ..).trans (State.event_rel ..)

theorem foldl_rel {α : Type} {f : State → α → State} (h : ∀ s x, (f s x).rel = s.rel) (l : List α) (s : State) : (l.foldl f s).rel = s.rel := by
  induction l generalizing s with
  | nil => rfl
  | cons x l ih => exact (ih _).trans (h s x)

/-- A dark peer of a connection is declared unreachable (R418). -/
theorem peerUnreachable_noted {s : State} {t node : Nat} (ready : s.ready = true)
    (dark : ∀ p ∈ portList (s.routeMask node), (s.port p).st ≠ .up ∧ (s.port p).downAt + s.pdNum 0x7101 0 * us ≤ (s.arrive t).timer)
    (conn : (∃ e ∈ s.rmo.send, e.2.valid = true ∧ e.2.fdest = node) ∨ ∃ e ∈ s.rmo.recv, e.2.valid = true ∧ e.2.osrc = node)
    (fresh : node ∉ s.rel.unreach) : Yields (.peerUnreachable t node) s fun v => node ∈ v.rel.unreach := by
  have mask : (s.arrive t).routeMask node = s.routeMask node := by rw [arrive_eq]; rfl
  have dark' : ((portList ((s.arrive t).routeMask node)).all fun p => ((s.arrive t).port p).st != .up &&
      decide (((s.arrive t).port p).downAt + (s.arrive t).pdNum 0x7101 0 * us ≤ (s.arrive t).timer)) = true := by
    rw [mask, List.all_eq_true]
    intro p of
    obtain ⟨down, long⟩ := dark p of
    simp [down, long]
  have conn' : (((s.arrive t).rmo.send.any fun e => e.2.valid && e.2.fdest == node) || (s.arrive t).rmo.recv.any fun e => e.2.valid && e.2.osrc == node) = true := by
    rw [State.arrive_rmo, Bool.or_eq_true]
    exact conn.imp (by simpa using ·) (by simpa using ·)
  have fresh' : (s.arrive t).rel.unreach.contains node = false := by simpa using fresh
  have run : ∃ v, exec (.peerUnreachable t node) s = .next v ∧ node ∈ v.rel.unreach := by
    show ∃ v, execPeerUnreachable t node s = .next v ∧ _
    unfold execPeerUnreachable
    extract_lets u ps dk rings cn _ x say
    have go : ¬ (!u.ready || !dk || decide (rings = [] ∧ cn = false) || u.rel.unreach.contains node) = true := by
      have hready : u.ready = true := by simp [u, ready]
      have hdark : dk = true := dark'
      have hconn : cn = true := conn'
      rw [hready, hdark, hconn, fresh']
      simp
    have told (y : State) (ring rank : Nat) (comp : Option Nat) : (say y ring rank comp).rel = y.rel := sayUnreachable_rel y node ring rank comp
    have noted : node ∈ x.rel.unreach := List.mem_cons_self
    rw [if_neg go]
    split
    · exact ⟨_, rfl, (told x 0 0 none).symm ▸ noted⟩
    · have kept := foldl_rel (f := fun s (y : Nat × RingCfg × Nat) => say s y.2.1.ring y.2.2 (some (y.2.1.ranks.getD y.2.2 (0, 0)).2))
        (fun y z => told ..) rings x
      exact ⟨_, rfl, kept.symm ▸ noted⟩
  obtain ⟨v, run, noted⟩ := run
  exact .of_exec run noted

/-! ### Admission (R430 to R433) -/

theorem admission?_begins {s : State} {shadow : Bool} {outcome snode scomp lcomp : Nat} (free : s.rel.joining = none) (small : outcome ≤ 1)
    (there : s.comp? lcomp ≠ none) (asks : shadow = true ∨ outcome = 1 ∨ s.phs.sync = false) :
    (s.admission? shadow outcome snode scomp lcomp).rel = { s.rel with
      joining := some { shadow, outcome, snode, scomp, lcomp, tested := false, steps := 0, clean := true, own := [], ready := false }
      astatus := .notReady, aFail := 0 } := by
  have fits : ¬ (1 < outcome ∨ (s.comp? lcomp).isNone ∨ (!shadow ∧ outcome = 0 ∧ s.phs.sync)) := by
    rintro (large | gone | ⟨load, bring, sync⟩)
    · omega
    · exact there (Option.isNone_iff_eq_none.mp gone)
    · rcases asks with asks | asks | asks
      · simp [asks] at load
      · omega
      · simp [asks] at sync
  unfold State.admission?
  rw [if_neg (by simp [free]), if_neg fits]

theorem dropImage_admissionKept (s : State) (c : Nat) : AdmissionKept s (s.dropImage c) :=
  (forgetData_admissionKept s c).trans (.of_within (by apply State.zeroiseComp_within (hs := .refl _ _) <;> rfl))

/-- The record of a mismatch and the end of the image leave the outcome of the admission (R433). -/
theorem shadowDropped_rel (s : State) (e : Event) (c : Nat) :
    ((s.event e).dropImage c).rel.joining = s.rel.joining ∧ ((s.event e).dropImage c).rel.astatus = s.rel.astatus := by
  have kept : AdmissionKept s ((s.event e).dropImage c) := (event_admissionKept ..).trans (dropImage_admissionKept ..)
  exact ⟨congrArg (·.1) kept, congrArg (·.2.1) kept⟩

section
variable {s : State} {t : Nat} {a : Admit} (joins : s.rel.joining = some a)
include joins

/-- A failed self-test ends the admission with its count (R431). -/
theorem selfTest_fails {n : Nat} (untested : a.tested = false) (bad : n ≠ 0) : Yields (.admissionSelfTestDone t n) s fun v =>
    v.rel.joining = none ∧ v.rel.aFail = n ∧ v.rel.astatus = .faultTorndown := by
  have run : exec (.admissionSelfTestDone t n) s = .next (({ s.arrive t with rel :=
      { (s.arrive t).rel with joining := none, aFail := n, astatus := .faultTorndown } }).teardown a.lcomp) := by
    show (match (s.arrive t).rel.joining with | none => Host.Outcome.next (s.arrive t) | some a => _) = _
    rw [State.arrive_rel, joins]
    exact (if_neg (by simp [untested])).trans (if_pos bad)
  refine .of_exec run ?_
  have kept := teardown_admissionKept { s.arrive t with rel := { (s.arrive t).rel with joining := none, aFail := n, astatus := .faultTorndown } } a.lcomp
  exact ⟨congrArg (·.1) kept, congrArg (·.2.2.1) kept, congrArg (·.2.1) kept⟩

/-- A good one lets it go on (R431). -/
theorem selfTest_passes (untested : a.tested = false) : Yields (.admissionSelfTestDone t 0) s fun v =>
    v.rel = { s.rel with joining := some { a with tested := true, ready := !a.shadow } } := by
  have run : exec (.admissionSelfTestDone t 0) s = .next { s.arrive t with rel :=
      { (s.arrive t).rel with joining := some { a with tested := true, ready := !a.shadow } } } := by
    show (match (s.arrive t).rel.joining with | none => Host.Outcome.next (s.arrive t) | some a => _) = _
    rw [State.arrive_rel, joins]
    exact (if_neg (by simp [untested])).trans (if_neg (by simp))
  exact .of_exec run (by rw [State.arrive_rel])

section
variable {b : ShadowBlock} {crc : BitVec 64} (shadow : a.shadow = true) (tested : a.tested = true) (own : a.own = [(b.req, b.sec, crc)])
include shadow tested own

theorem shadowCompare_runs : exec (.shadowCompare t b) s =
    if a.clean && crc != b.crc then
      let x : State := { s.arrive t with rel := { s.rel with joining := none, astatus := .integrity } }
      .next ((x.event { cls := 7, code := 7, subj := (x.ringCfg a.lcomp).elim 0 (·.ring), comp := some a.lcomp,
                        detail := [0, 0, 0, 0] ++ leBytes 8 b.step }).dropImage a.lcomp)
    else
      let steps := if b.last ∧ a.clean then a.steps + 1 else a.steps
      .next { s.arrive t with rel := { s.rel with joining := some { a with own := a.own.filter fun x => x != (b.req, b.sec, crc), steps, ready := decide (1024 ≤ steps) } } } := by
  have found : (a.own.find? fun o => o.1 == b.req && o.2.1 == b.sec) = some (b.req, b.sec, crc) := by simp [own]
  show (match (s.arrive t).rel.joining with | none => Host.Outcome.next (s.arrive t) | some a => _) = _
  rw [State.arrive_rel, joins]
  dsimp only
  rw [found]
  exact if_neg (by simp [shadow, tested])

variable (clean : a.clean = true)
include clean

/-- A block that compares equal leaves the own blocks (R433). -/
theorem shadowCompare_equal (same : crc = b.crc) : Yields (.shadowCompare t b) s fun v => ∃ a', v.rel.joining = some a' ∧ a'.own = [] ∧
    a'.steps = (if b.last then a.steps + 1 else a.steps) ∧ a'.ready = decide (1024 ≤ a'.steps) := by
  refine .of_exec ((shadowCompare_runs joins shadow tested own).trans (if_neg (by simp [same]))) ⟨_, rfl, by simp [own], ?_, rfl⟩
  simp [clean]

/-- An unequal one ends the shadowing (R433). -/
theorem shadowCompare_unequal (differs : crc ≠ b.crc) : Yields (.shadowCompare t b) s fun v => v.rel.joining = none ∧ v.rel.astatus = .integrity := by
  refine .of_exec ((shadowCompare_runs joins shadow tested own).trans (if_pos (by simp [clean, differs]))) ?_
  exact ⟨(shadowDropped_rel ..).1, (shadowDropped_rel ..).2⟩

end

end

/-! ### Maintenance (R438 to R440) -/

theorem goRetrain_rel (s : State) (p : Nat) : (s.goRetrain p).rel = s.rel :=
  Within.keeps (l := [.rel]) (p := .rel) (by apply State.goRetrain_within (hs := .refl _ s) <;> rfl) (by simp)

section
variable {s : State} {t act subj arg : Nat} (ready : s.ready = true)
include ready

theorem maintenanceStart_outOfRange (bad : subjectOk act subj = false ∨ argOk act arg = false) : Yields (.maintenanceStart t act subj arg) s fun v =>
    v.rel.mstatus = .unsupported ∧ v.rel.acts = s.rel.acts := by
  have refused : act = 0 ∨ 7 < act ∨ !subjectOk act subj ∨ !argOk act arg := by
    rcases bad with bad | bad
    · simp [bad]
    · simp [bad]
  refine .of_exec ((if_neg (by simp [ready])).trans (if_pos refused)) ⟨rfl, by simp⟩

section
variable (low : 1 ≤ act) (high : act ≤ 7) (subject : subjectOk act subj = true) (argument : argOk act arg = true)
  (calm : (act = 4 ∨ act = 7) → s.pwr.stage = 0)
include low high subject argument calm

theorem maintenanceStart_checked : exec (.maintenanceStart t act subj arg) s =
    match s.rel.acts.find? fun a => actConflict act subj a.act a.subj with
    | some a => .next { s.arrive t with rel := { s.rel with mstatus := .busyConflict, mAct := a.act, mInst := a.inst } }
    | none =>
      let new : Act := { act, subj, inst := s.rel.nextInst, since := (s.arrive t).phase, self := false }
      let x : State := { s.arrive t with rel := { s.rel with mstatus := .ok, mAct := 0, mInst := 0, nextInst := s.rel.nextInst + 1, acts := s.rel.acts ++ [new] } }
      if act = 4 then
        let h := if x.hbm.refLock then x.hbm else { x.hbm with force2x := bitAt arg 0 }
        .next { x with hbm := { h with refPend := true, pendAt := if h.refPend then h.pendAt else x.timer } }
      else if act = 5 then .next (if (x.port subj).st == .up then x.goRetrain subj else x)
      else .next x := by
  have passes : ¬ (act = 0 ∨ 7 < act ∨ !subjectOk act subj ∨ !argOk act arg) := by
    simp [subject, argument]; omega
  have calm' : ¬ ((act = 4 ∨ act = 7) ∧ 1 ≤ (s.arrive t).pwr.stage) := by
    rintro ⟨which, stage⟩
    rw [State.arrive_pwr, calm which] at stage
    omega
  refine (if_neg (by simp [ready])).trans ((if_neg passes).trans ((if_neg calm').trans ?_))
  rw [State.arrive_rel] <;> rfl

/-- A start that nothing conflicts with runs under the next number (R438, R439). -/
theorem maintenanceStart_runs (free : ∀ a ∈ s.rel.acts, actConflict act subj a.act a.subj = false) : Yields (.maintenanceStart t act subj arg) s fun v =>
    v.rel.mstatus = .ok ∧ v.rel.nextInst = s.rel.nextInst + 1 ∧
      v.rel.acts = s.rel.acts ++ [{ act, subj, inst := s.rel.nextInst, since := (s.arrive t).phase, self := false }] := by
  have none : (s.rel.acts.find? fun a => actConflict act subj a.act a.subj) = none := List.find?_eq_none.mpr fun a of => by simp [free a of]
  have run := maintenanceStart_checked (t := t) ready low high subject argument calm
  rw [none] at run
  extract_lets _ _ new x h at run
  by_cases four : act = 4
  · exact .of_exec (run.trans (if_pos four)) ⟨rfl, rfl, rfl⟩
  by_cases five : act = 5
  · refine .of_exec (run.trans ((if_neg four).trans (if_pos five))) ?_
    have rel : (if (x.port subj).st == .up then x.goRetrain subj else x).rel = x.rel := by
      split
      · exact goRetrain_rel ..
      · rfl
    rw [rel]
    exact ⟨rfl, rfl, rfl⟩
  · exact .of_exec (run.trans ((if_neg four).trans (if_neg five))) ⟨rfl, rfl, rfl⟩

/-- One that conflicts is refused (R438). -/
theorem maintenanceStart_conflicts (busy : ∃ a ∈ s.rel.acts, actConflict act subj a.act a.subj = true) : Yields (.maintenanceStart t act subj arg) s fun v =>
    v.rel.mstatus = .busyConflict ∧ v.rel.acts = s.rel.acts ∧ v.rel.nextInst = s.rel.nextInst := by
  obtain ⟨a, found⟩ := Option.isSome_iff_exists.mp (List.find?_isSome.mpr busy)
  have run := maintenanceStart_checked (t := t) ready low high subject argument calm
  rw [found] at run
  exact .of_exec run ⟨rfl, rfl, rfl⟩

end

theorem maintenanceStop_takes (subject : subjectOk act subj = true) : Yields (.maintenanceStop t act subj) s fun v => v.rel.mstatus = .ok ∧
    v.rel.acts = s.rel.acts.filter (fun a => !(a.act == act && a.subj == subj && !a.self)) :=
  .of_exec ((if_neg (by simp [ready])).trans (if_neg (by simp [subject]))) ⟨rfl, by simp⟩

theorem maintenanceStop_outOfRange (bad : subjectOk act subj = false) : Yields (.maintenanceStop t act subj) s fun v =>
    v.rel.mstatus = .unsupported ∧ v.rel.acts = s.rel.acts :=
  .of_exec ((if_neg (by simp [ready])).trans (if_pos (by simp [bad]))) ⟨rfl, by simp⟩

end

/-- A node that is not the master does not act on a notice (R417). -/
theorem faultNotice_idle {s : State} {t : Nat} {n : Notice} (slave : s.phs.master = false) (free : s.rel.joining = none) :
    Yields (.faultNotice t n) s fun v => v.phs = s.phs ∧ v.rel = s.rel := by
  have idle (x : State) (slave : x.phs.master = false) (free : x.rel.joining = none) :
      (if (x.sourceFault n.subj).phs.master && (x.sourceFault n.subj).phs.sync && decide (1 ≤ n.scope) && decide (n.scope ≤ 7) then
        (x.sourceFault n.subj).masterFault n else x.sourceFault n.subj) = x := by
    have same : x.sourceFault n.subj = x := by rw [State.sourceFault, free]
    rw [same]
    exact if_neg (by simp [slave])
  by_cases down : (!(s.arrive t).ready) = true
  · exact .of_exec (if_pos down) ⟨by simp, by simp⟩
  · refine .of_exec ((if_neg down).trans (congrArg Host.Outcome.next (idle _ ?_ ?_))) ?_
    · split
      · simpa using slave
      · simpa [State.mgmtTake] using slave
    · split
      · simpa using free
      · simpa [State.mgmtTake] using free
    · split
      · exact ⟨by simp, by simp⟩
      · exact ⟨by simp [State.mgmtTake], by simp [State.mgmtTake]⟩

section
variable {s : State} {t : Nat} (r : Role)

theorem roleNoted_leases : ((s.arrive t).mgmtTake.roleNoted r).leases = s.leases := by rw [arrive_eq]; rfl

/-- Where no active lease lies with the lost node, no page changes (R262). -/
theorem roleHeard_pg_of_none (none : ∀ l ∈ s.leases, l.2.active = true → l.2.lender = false → l.2.peer ≠ r.lost) :
    ((s.arrive t).mgmtTake.roleHeard r).pg = s.pg := by
  have empty : (s.leases.filter fun l => l.2.active && !l.2.lender && l.2.peer == r.lost) = [] := by
    rw [List.filter_eq_nil_iff]
    intro l of hit
    simp only [Bool.and_eq_true, Bool.not_eq_true', beq_iff_eq] at hit
    exact none l of hit.1.1 hit.1.2 hit.2
  rw [(roleHeard_kept ..).2.1, State.roleMoved, moveLeases_eq, roleNoted_leases, empty]
  exact State.arrive_pg ..

/-- A lease that lay with the lost node names the standby (R262). -/
theorem roleHeard_peer (small : r.standby < 2 ^ 14) {l : Nat × Lease} (of : l ∈ s.leases) (active : l.2.active = true) (lender : l.2.lender = false)
    (peer : l.2.peer = r.lost) : ((s.arrive t).mgmtTake.roleHeard r).leasePeer l.1 = r.standby := by
  rw [(roleHeard_kept ..).2.2.2, State.roleMoved, moveLeases_eq, roleNoted_leases]
  exact moveLease_foldl_peer small (.inl ⟨l, List.mem_filter.mpr ⟨of, by simp [active, lender, peer]⟩, rfl⟩)

/-- The page that stands under the only such lease waits for its rebuild (R242). -/
theorem roleHeard_pending {l : Nat × Lease} {y : Ctx × Nat × Nat × Page}
    (one : (s.leases.filter fun l => l.2.active && !l.2.lender && l.2.peer == r.lost) = [l]) (page : (s.arrive t).pagesAt l.2.comp l.1 = [y])
    (parity : ∃ x ∈ s.rel.pframes, x.key = y.2.2.2.desc.frame) (own : y.2.2.2.desc.borrowed = false) :
    (l.2.comp, y.1.ctx, y.2.1, y.2.2.1, y.1.job) ∈ ((s.arrive t).mgmtTake.roleHeard r).rel.pendPages := by
  have page' : ((s.arrive t).mgmtTake.roleNoted r).pagesAt l.2.comp l.1 = [y] := page
  rw [(roleHeard_kept ..).1, State.roleMoved, moveLeases_eq, roleNoted_leases, one]
  show _ ∈ (((s.arrive t).mgmtTake.roleNoted r).moveLease r.standby l).rel.pendPages
  rw [State.moveLease, page']
  refine subLost_pending (s := State.pdSet _ _ _ _) l.2.comp r.standby own ?_
  have kept : ((s.arrive t).mgmtTake.roleNoted r).rel.pframes = s.rel.pframes := by
    show (s.arrive t).rel.pframes = _
    rw [State.arrive_rel]
  exact kept ▸ parity

end

/-- Settles O43: by the fields of the recovery state that each notice and each command of admission and maintenance moves. -/
theorem membersAreLostReplacedAndAdmitted : Obligations.MembersAreLostReplacedAndAdmitted := by
  intro s t u ready
  have hready : u.ready = true := by simp [u, ready]
  refine ⟨fun node dark conn fresh => peerUnreachable_noted ready dark conn fresh, fun r other => ?role,
    fun free outcome snode scomp lcomp small there => ⟨?shadow, fun asks => ?load⟩,
    fun a joins => ⟨fun n untested bad => selfTest_fails joins untested bad, fun untested => selfTest_passes joins untested,
      fun b crc shadow tested clean own => ⟨fun same => shadowCompare_equal joins shadow tested own clean same,
        fun differs => shadowCompare_unequal joins shadow tested own clean differs⟩⟩,
    fun act subj arg bad => maintenanceStart_outOfRange ready bad,
    fun act subj arg low high subject argument calm => ⟨fun free => maintenanceStart_runs ready low high subject argument calm free,
      fun busy => maintenanceStart_conflicts ready low high subject argument calm busy⟩,
    fun act subj => ⟨fun subject => maintenanceStop_takes ready subject, fun bad => maintenanceStop_outOfRange ready bad⟩, ?staged,
    fun n slave free => faultNotice_idle slave free⟩
  case role =>
    obtain ⟨rel, _, cmp, _⟩ := roleHeard_kept u.mgmtTake r
    refine .of_exec (roleNotice_heard ready other) ⟨?_, ?_, fun none => roleHeard_pg_of_none r none,
      fun small l of active lender peer => roleHeard_peer r small of active lender peer,
      fun l y one page parity own _ => roleHeard_pending r one page parity own⟩
    · rw [rel, roleMoved_roles]
      exact congrArg (·.roles ++ [r]) (State.arrive_rel s t)
    · rw [cmp, roleMoved_cmp]
      exact State.arrive_cmp s t
  case shadow =>
    refine .of_exec (congrArg Host.Outcome.next (if_pos hready)) ?_
    rw [admission?_begins (by simpa [u] using free) small (by simpa [u] using there) (.inl rfl), State.arrive_rel]
  case load =>
    refine .of_exec (congrArg Host.Outcome.next (if_pos hready)) ?_
    rw [admission?_begins (by simpa [u] using free) small (by simpa [u] using there) (.inr (by simpa [u] using asks)), State.arrive_rel]
  case staged =>
    exact .of_exec rfl (by rw [State.arrive_rel])

end Sys2Proof.Machine
